-- ==== Sys2Proof/Word.lean ====
section
/-!
DEFINITION. The word and byte types (R6: bit 0 is the least significant bit).
-/

set_option Elab.async false

namespace Sys2Proof

/-- A 32-bit register word (R32). -/
abbrev Word := BitVec 32

/-- One byte of memory. -/
abbrev Byte := BitVec 8

end Sys2Proof
end

