-- ==== Sys2Proof/Types.lean ====
section
/-!
DEFINITION. The names and records that commands carry as operands: personalities, masters, NVMe commands, images,
measurements of the analog world, frames of the Vrelilo Link. A reading, a sample, a signed object or a received
frame comes from outside the part and is an operand of the command that brings it.
-/

set_option Elab.async false

namespace Sys2Proof

/-- Personality (R1, table Personality strap encoding). -/
inductive Pers where
  | magnetic | optical | lantern | factory
deriving DecidableEq, Repr

/-- Ordering variant (R4). -/
inductive Variant where
  | q | d
deriving DecidableEq, Repr

/-- A core that takes interrupts, in the order of R39: A-cores 0-3, T-cores 0-3, security core. -/
inductive Core where
  | a (n : Fin 4) | t (n : Fin 4) | sec
deriving DecidableEq, Repr

/-- A bus master (R28, R29): a core, the debug port, or a DMA engine of a block (named by its block type). -/
inductive Master where
  | core (c : Core) | debug | dma (blockType : Nat)
deriving DecidableEq, Repr

/-- Where a register write without a row of its own goes: a 40-bit address, or a CSR of a core (table Part-specific
CSRs). -/
inductive RegTarget where
  | page (a : BitVec 40)
  | csr (c : Core) (num : Nat)
deriving DecidableEq, Repr

/-- The content of one sector: 4,096 bytes of user data with its metadata, held as one little-endian number (R6),
or the markings of R148 and R152. -/
inductive SectorVal where
  | data (bits : Nat) | zeroes | unrecovered
deriving DecidableEq, Repr

/-- NVMe command opcodes the part supports (R115). -/
inductive NvmeOp where
  | read | write | zoneAppend | flush | compare | writeUncorrectable | writeZeroes | verify | datasetManagement
  | resvRegister | resvReport | resvAcquire | resvRelease
  | zoneOpen | zoneClose | zoneFinish | zoneReset | zoneOffline | reportZones
  | createIoSq | createIoCq | deleteIoSq | deleteIoCq | identify | getLogPage | setFeatures | getFeatures
  | asyncEventRequest | abort | keepAlive | namespaceManagement | namespaceAttachment
  | firmwareImageDownload | firmwareCommit | formatNvm | sanitize | securitySend | securityReceive
  | deviceSelfTest | nvmeMiSend | nvmeMiReceive
  | unsupported (code : Nat)
deriving DecidableEq, Repr

/-- The data and metadata pointers as HCE judges them (R120 check 10, R122 cause 1). -/
inductive DataPtr where
  | ok | prpOffsetInvalid | sglSegmentInvalid | sglLengthInvalid | sglBitBucket
deriving DecidableEq, Repr

/-- The protection information of one sector (R123): its guard fits its data, and its application and reference tags. The
default escapes every check. -/
structure PiTuple where
  guardOk : Bool := true
  app : Nat := 0xFFFF
  ref : Nat := 0xFFFFFFFFFFFF
deriving DecidableEq, Repr

/-- One submission queue entry with the host data it brings. -/
structure NvmeCmd where
  op     : NvmeOp
  cid    : Nat
  nsid   : Nat := 0
  fuse   : Nat := 0
  /-- reserved fields are zero and field values are valid (R120 check 2) -/
  fieldsOk : Bool := true
  ptr    : DataPtr := .ok
  slba   : Nat := 0
  /-- number of sectors -/
  nlb    : Nat := 1
  fua    : Bool := false
  /-- Select All of Zone Management Send -/
  all    : Bool := false
  cdw10  : Nat := 0
  cdw11  : Nat := 0
  cdw12  : Nat := 0
  cdw13  : Nat := 0
  cdw14  : Nat := 0
  cdw15  : Nat := 0
  /-- what the host buffer holds, one value per sector -/
  data   : List SectorVal := []
  /-- ranges (first LBA, sectors) of Dataset Management -/
  ranges : List (Nat × Nat) := []
  /-- payload of admin commands that carry one -/
  payload : Nat := 0
  /-- protection information as it comes with each sector: from the host for a write, from the media for a read (R123) -/
  pi : List PiTuple := []
deriving DecidableEq, Repr

/-- A signed object as submitted (R341): the SHA3-512 digest of the public key it carries, and whether the ML-DSA-87
signature verifies under that key over the digest the object's format names. -/
structure SigObj where
  key   : Nat
  valid : Bool
deriving DecidableEq, Repr

/-- A boot image as read from a slot or over the UART (table Boot image header). -/
structure BootImage where
  /-- magic, format, LEN at most 2 MiB, LOAD range in system SRAM (R343 check 1) -/
  wellFormed : Bool
  /-- TYPE: 1 first-stage, 2 UART recovery -/
  typ   : Nat
  sig   : SigObj
  svn   : Nat
  persMask : Nat
  enc   : Bool
  /-- the GCM tag of an encrypted body verifies -/
  tagOk : Bool
  digest : Nat
deriving DecidableEq, Repr

/-- What the cold start meets outside the part (R92-R95): straps, fuse and memory test results, the boot slots. -/
structure BootEnv where
  pers   : Pers
  dualp  : Bool
  boot   : Nat
  /-- the fuse shadow passes its integrity check -/
  fuseOk : Bool := true
  /-- the repair-uncovered BIST failures: security or system SRAM arrays, BCC ways, T-core memories (by index) -/
  bistSram : List Nat := []
  bistWays : List (Fin 16) := []
  bistTcm  : List (Fin 4) := []
  slotA  : Option BootImage := none
  slotB  : Option BootImage := none
deriving DecidableEq, Repr

/-- A microcode image as submitted through the mailbox (R190, table Microcode image). -/
structure McObj where
  magic   : Nat
  format  : Nat
  kind    : Nat
  keyId   : Nat
  sig     : SigObj
  persMask : Nat
  romVer  : Nat
  ver     : Nat
  svn     : Nat
  words   : List Nat
  /-- (ROM address, patch offset) -/
  mtch    : List (Nat × Nat)
  /-- (entry index, address) -/
  disp    : List (Nat × Nat)
  digest  : Nat
deriving DecidableEq, Repr

/-- KIND 2: an open-region image. -/
def McObj.opn (i : McObj) : Bool := i.kind == 2

/-- What RWCn measures at a clock field (R199, R201). -/
structure ClockMeas where
  /-- amplitude at least 50 % and residual below 1/8 bit rms: the field counts as measured -/
  good : Bool
  /-- write clock error against the field as measured, before RWOFF and the correction of the clock, signed 1/64 bit -/
  err  : Int
  /-- frequency offset after the correction, signed 0.01 ppm -/
  freq : Int
  wedge : Nat
deriving DecidableEq, Repr

/-- A candidate position of a sync mark search (R206, R208): offset from the window's centre, disagreements, excluded
bits. -/
structure SyncCand where
  off  : Int
  dist : Nat
  excl : Nat
deriving DecidableEq, Repr

/-- What a decoder finds in a codeword (R222, R227, R229). -/
structure DecodeRes where
  /-- iterations needed to reach a zero syndrome; more than the limit means it is never reached -/
  iters  : Nat
  synw   : Nat
  crcOk  : Bool
  lba    : Nat
  ns     : Nat
  epoch  : Nat
  kslot  : Nat
  encf   : Bool
  /-- optical: the frame header's CRC holds, and the FRAMENO it carries (R309) -/
  hdrOk  : Bool
  frameNo : Nat
  /-- recovered by track parity although the decode failed (R231) -/
  parity : Bool
  /-- ladder step that the task runs (R232), 1 for the first pass -/
  step   : Nat
  lastStep : Bool
deriving DecidableEq, Repr

/-- A sector of a cluster pair as decoded (R222, R236): its CRC holds, its tag equals what the task expects, and the LBA it
carries. -/
structure SectorCheck where
  crcOk : Bool
  tagOk : Bool
  lba   : Nat
deriving DecidableEq, Repr

/-- What a servo engine receives at a trigger (R250, R252, R260). -/
structure ServoIn where
  /-- the demodulation's mark is found and its parities are good -/
  demodOk : Bool
  wedge   : Nat
  /-- decoded track number, and tA / tB as unsigned Q4.12 -/
  track   : Nat
  ratio   : Nat
  /-- burst amplitude relative to its expected value, Q1.15 -/
  ampl    : Int
  /-- SADn_0-7 as signed Q1.15 (optical: averaged since the last trigger) -/
  sad     : Vector Int 8
  /-- how late SYNC was reached, ns; 0 when the trigger met SYNC -/
  late    : Nat
  /-- optical: zero crossings of the axis error since the last sample; the target was passed -/
  crossings : Nat
  passed  : Bool
deriving DecidableEq, Repr

/-- What a DDR5 read meets (R320-R322, R325): the code's verdict on the raw bits, and the failing device. -/
inductive DdrErr where
  | none
  /-- correctable under the region's code; device 0-4 -/
  | correctable (dev : Nat)
  | uncorrectable (dev : Nat)
deriving DecidableEq, Repr

/-- Blocks with performance counters (R219, 17 Performance counters). -/
inductive PmonBlock where
  | rwc (n : Fin 4) | ldp | sve (n : Fin 5) | opt | vlk
deriving DecidableEq, Repr

/-- An export bundle (R364, R365): target DEVID, source identity signature and GCM tag, records
(slot, NS, user, USE, LIMIT, key). -/
structure Bundle where
  devid : Nat
  srcOk : Bool
  tagOk : Bool
  recs  : List (Nat × Nat × Nat × Nat × Nat × Nat)
deriving DecidableEq, Repr

/-- Poll and reply items (table Poll and reply items). -/
inductive VItem where
  /-- POLL: granted mW, duration ms -/
  | lease (mw dur : Nat)
  /-- REPLY: requested mW, floor mW -/
  | leaseReq (mw floor : Nat)
  /-- REPLY: forwarded entries: the 32 bytes of the event record, the origin's node identifier -/
  | events (recs : List (Nat × Nat))
  | nak (image : Nat) (missing : List Nat)
  | attreq (nonce : Nat)
  | attrpt (off : Nat) (bytes : List Byte)
  | keynew (gen at_ : Nat)
  | sleep (state : Nat)
  | imgdone (image : Nat) (refused : Bool)
  | unknown
deriving DecidableEq, Repr

/-- A frame as received (R404, R405): the checks of the receiver's cipher are operands. -/
structure VFrame where
  inverted : Bool
  hcrcOk   : Bool
  /-- the tag, or the CRC of a frame without a key, verifies -/
  authOk   : Bool
  src      : Nat
  dst      : Nat
  bcast    : Bool
  seq      : Nat
  more     : Bool
  items    : List VItem
deriving DecidableEq, Repr

/-- The payload of a BEACON (R411): seconds at the mark, the sender's error bound, and the Candle's capture offset. -/
structure Beacon where
  sec   : Nat
  errNs : Nat
  /-- VLK time at the captured mark less the time it names, ns, before the correction for the cable -/
  offNs : Int
deriving DecidableEq, Repr

/-- Messages of the enrollment exchange (R408). -/
inductive EnrollMsg where
  /-- to the Lantern: HELLO in a reply window -/
  | hello (devid floor : Nat)
  /-- to the Candle: slot (255 with a reason refuses), identifier the Candle takes -/
  | offer (slot reason ident : Nat)
  /-- to the Candle: the Lantern's identity, certificate and fleet authorization (the DEVID, identifier and expiry it
  names), and whether the signature over the transcript verifies -/
  | lanternId (ident devid : Nat) (cert auth : SigObj) (authDevid authIdent authExp : Nat) (transcriptOk : Bool)
  /-- to the Lantern: the Candle's identity, certificate and transcript signature -/
  | candleId (slot devid : Nat) (cert : SigObj) (transcriptOk : Bool)
  /-- to the Candle: KEYNEW under the link key -/
  | keynew (gen : Nat)
  /-- to the Lantern: the first REPLY under the link key -/
  | confirm (slot : Nat)
deriving DecidableEq, Repr

end Sys2Proof
end

