-- ==== Sys2Proof/Syntax.lean ====
section
/-!
DEFINITION. The commands of the part: one constructor per row of spec/opcode_table.json. A register write carries the
master that writes and the word written; an event carries what the part meets at it.
-/

set_option Elab.async false

namespace Sys2Proof

/-- The commands the block takes: register accesses, host commands, and events of the part's own engines and of the
world outside (opcode_table.json). -/
inductive Instr where
  /-- REG_WRITE (R7). A write to a register that has no row of its own stores its fields under their access types, including the guard, width and reserved-bit checks. -/
  | regWrite (m : Master) (r : RegTarget) (v : Word)
  /-- BUS_ACCESS (R28). A master accesses the 40-bit address map; unlisted or forbidden addresses end with a bus error or an error record. -/
  | busAccess (m : Master) (a : BitVec 40) (wr : Bool) (bytes : Nat) (v : BitVec 64)
  /-- GUARD_WORD_WRITE (R36). A write to GUARD opens the window with a correct word or closes it and records 0x0004 with a wrong one. -/
  | guardWordWrite (m : Master) (h : Fin 77) (v : Word)
  /-- GUARD_WINDOW_EXHAUSTED (R36). The window closes when REMAIN counts down to 0. -/
  | guardWindowExhausted (h : Fin 77)
  /-- SOFT_RESET (R106). A write of CTL.SRST resets the block, or is refused, with the per-block effect on work in flight. -/
  | softReset (m : Master) (h : Fin 77)
  /-- SOFT_RESET_COMPLETE (R34). The soft reset completes, BUSY falls and SRST reads 0. -/
  | softResetComplete (h : Fin 77)
  /-- FREEZE (R35). A write of CTL.FREEZE holds the block's state machines only under an authenticated debug unlock, else records 0x0005. -/
  | freeze (m : Master) (h : Fin 77) (on : Bool)
  /-- ERR_CLEAR (R33). Writing 1 to IRQ_STAT.ERR clears ERR_CODE, ERR_INFO and STAT.ERR. -/
  | errClear (m : Master) (h : Fin 77)
  /-- IRQ_SET_WRITE (R38). A write to IRQ_SET sets IRQ_STAT bits for test. -/
  | irqSetWrite (m : Master) (h : Fin 77) (v : Word)
  /-- ALLCLN (R11). Writing UCACHECTL.ALLCLN cleans and invalidates the whole L1 data cache of the core. -/
  | allcln (c : Fin 4) (den ien : Bool)
  /-- L1_CLEAN (R11). UCACHEOP with OP 0b01 cleans one L1 data line. -/
  | l1Clean (c : Fin 4) (line : BitVec 34)
  /-- L1_INVALIDATE (R11). UCACHEOP with OP 0b10 invalidates one L1 data line. -/
  | l1Invalidate (c : Fin 4) (line : BitVec 34)
  /-- L1_CLEAN_AND_INVALIDATE (R11). UCACHEOP with OP 0b11 cleans and invalidates one L1 data line. -/
  | l1CleanAndInvalidate (c : Fin 4) (line : BitVec 34)
  /-- L1_NO_OPERATION (R11). UCACHEOP with OP 0b00 does nothing. -/
  | l1NoOperation (c : Fin 4) (line : BitVec 34)
  /-- IRQ_TAKE (R12). A core reads UIRQID while taking an interrupt and the source goes into service on that core. -/
  | irqTake (c : Core)
  /-- UIRQDONE (R12). A write to UIRQDONE ends service of a source on that core, or is ignored if not in service there. -/
  | uirqdone (c : Core) (src : Fin 512)
  /-- IRQ_ROUTE_WRITE (R40). A write to a route register applies its fields subject to the security-core-only SEC bit and pages. -/
  | irqRouteWrite (m : Master) (k : Fin 512) (v : Word)
  /-- IRQ_SWSET (R38). A write to IRQ_SWSET makes a software source 448 to 479 pending. -/
  | irqSwset (m : Master) (v : Word)
  /-- TWIN_DATA_ACCESS (R42). An access to CPX_TWIN_DATAn reads or writes T-core memory at ADDR, with optional increment and wrap. -/
  | twinDataAccess (m : Master) (n : Fin 4) (wr : Bool) (v : Word)
  /-- POR (R91). VDD_AUX33 appears; the wick comes up on its RC and its blocks take reset values. -/
  | por
  /-- XO32K_QUALIFIED (R91). The 32.768 kHz crystal passes qualification and the wick moves to it. -/
  | xo32kQualified
  /-- XO32K_FAIL (R75). The 32.768 kHz crystal fails qualification or stops in service; the wick runs on RC and records 0x0E10. -/
  | xo32kFail
  /-- XO40_FAIL (R75). The 40 MHz crystal fails; PLLs never lock and the part runs reduced on the FRC. -/
  | xo40Fail
  /-- MAIN_RAILS_GOOD (R56). Every main rail has been in range for 2 ms; SUP declares rails good and the core domain starts. -/
  | mainRailsGood (env : BootEnv) (orderBroken : Bool)
  /-- RAIL_FAULT (R56). A main rail leaves its range for 1 us or longer; event 0x0C01 and the part enters DARK by the rail path. -/
  | railFault (rail : Fin 9)
  /-- UART_RECOVERY_IMAGE (R94). A recovery image received over the UART is verified and started. -/
  | uartRecoveryImage (img : BootImage)
  /-- PERST_DEASSERT (R96). PERST# deasserts on a port and PCX begins link training. -/
  | perstDeassert (p : Fin 2)
  /-- PERST_ASSERT (R105). PERST# asserts on a port; its controller stops and its link and configuration are reset. -/
  | perstAssert (p : Fin 2)
  /-- CONFIG_REQUEST (R96). A PCIe configuration request is answered, with Request Retry Status until firmware opens configuration space. -/
  | configRequest (p : Fin 2) (opened : Bool)
  /-- DMC_INIT_GO (R98). Writing DMC_INIT.GO starts zeroing of every STRONG and MEDIUM region. -/
  | dmcInitGo (m : Master)
  /-- DMC_INIT_DONE (R98). Zeroing completes and DMC_INIT.DONE sets, or FAIL sets on a readback failure. -/
  | dmcInitDone (fail : Bool)
  /-- DMC_INIT_HELD_ACCESS (R98). An access held above the progress mark proceeds once the mark has passed it. -/
  | dmcInitHeldAccess (mib : Nat)
  /-- READY_SET (R99). SYS_RDYCTL.SET sets SYS_STAT.READY and the READY pin when permitted, else records 0x0E04. -/
  | readySet (m : Master) (alsoClr : Bool)
  /-- READY_CLR (R99). SYS_RDYCTL.CLR clears SYS_STAT.READY and drives READY low. -/
  | readyClr (m : Master)
  /-- CONTROLLER_ENABLE (R100). CC.EN set to 1; CSTS.RDY is applied when SYS_STAT.READY is set. -/
  | controllerEnable (p : Fin 2) (wrr : Bool)
  /-- CONTROLLER_RESET (R105). CC.EN written from 1 to 0 resets that controller's queues and suppresses completions. -/
  | controllerReset (p : Fin 2)
  /-- FUNCTION_LEVEL_RESET (R112). A Function Level Reset acts as PERST# on the port and records 0x0130. -/
  | functionLevelReset (p : Fin 2)
  /-- LINK_DOWN (R112). A link-down event acts as PERST# on the port and records 0x0130. -/
  | linkDown (p : Fin 2)
  /-- NAMESPACE_READY (R100). A media-backed namespace becomes ready after recovery, spin-up, calibration and any sanitize resume. -/
  | namespaceReady (nsid : Nat)
  /-- RESET_N_ASSERT (R103). RESET_N low for 1 us starts gate removal, retract, leave revocation and a reservoir commit. -/
  | resetNAssert
  /-- CORE_DOMAIN_HOLD (R103). After heads park and the commit ends, or at 1.0 s, the core domain is held in reset and the spindle undriven. -/
  | coreDomainHold (atLimit : Bool)
  /-- RESET_N_RELEASE (R103). With RESET_N high and the hold done, the core domain is released and cold start runs. -/
  | resetNRelease (env : BootEnv)
  /-- NVM_SUBSYSTEM_RESET (R103). Writing 0x4E56_4D65 to NSSR resets both controllers and starts the RESET_N sequence at step 2. -/
  | nvmSubsystemReset (p : Fin 2) (v : Word)
  /-- WATCHDOG_ENABLE (R104). The write that sets SYS_WDTCTL.EN starts the watchdog count. -/
  | watchdogEnable (m : Master) (v : Word)
  /-- WATCHDOG_KICK (R104). Writing 0x0000_D06E to SYS_WDTKICK restarts the count; other values record 0x0E08. -/
  | watchdogKick (m : Master) (v : Word)
  /-- WATCHDOG_PERIOD (R104). The count reaches PERIOD; SYS sets IRQ_STAT bit 1 and records 0x0E05. -/
  | watchdogPeriod
  /-- WATCHDOG_RESET (R104). The count reaches twice PERIOD; event 0x0E06 and the RESET_N sequence runs without a commit. -/
  | watchdogReset
  /-- POWER_LOSS (R22). The motor-rail sense stays below the power-fail threshold for the filter time; gates drop, retract and reservoir commit begin. -/
  | powerLoss
  /-- PREQ_GO (R76). WCK_PREQ.GO starts a power-state transition when the entry preconditions hold, else records 0x0E21. -/
  | preqGo (m : Master) (v : Word)
  /-- POWER_STATE_ENTERED (R76). The transition completes, STATE takes the target and event 0x0E31 is recorded. -/
  | powerStateEntered
  /-- PDOFF_WRITE (R76). A write to WCK_PDOFF gates idle channel domains in LIT, or is refused with 0x0E22. -/
  | pdoffWrite (m : Master) (v : Word)
  /-- WAKE_SOURCE (R79). An enabled wake source becomes active; the part wakes and records WCK_WAKESRC and event 0x0E30. -/
  | wakeSource (src : BitVec 10) (periods : Nat) (env : BootEnv)
  /-- CLK_DOM_WRITE (R73). A write to CLK_DOMk switches the domain's clock glitch-free, or is refused with 0x0E13. -/
  | clkDomWrite (m : Master) (k : Fin 64) (v : Word)
  /-- PLL_LOCKED (R72). An enabled PLL achieves lock and its LOCK bit sets. -/
  | pllLocked (i : Fin 8)
  /-- PLL_LOCK_LOSS (R74). A PLL loses lock; its domains move to the FRC or are gated and 0x0E12 is recorded. -/
  | pllLockLoss (i : Fin 8)
  /-- PS_ENTRY_RESTART (R81). After 10 ms with all queues idle the part restarts an unwound NVMe power-state entry. -/
  | psEntryRestart
  /-- LEAVE_REQUEST (R84). LLT_REQB.GO submits a leave request that is denied, granted or queued. -/
  | leaveRequest (m : Master) (p : Fin 16) (v : Word)
  /-- LEAVE_RELEASE (R87). LLT_OP with OP 0 releases a granted ticket or withdraws a queued one. -/
  | leaveRelease (m : Master) (p : Fin 16) (v : Word)
  /-- LEAVE_RENEW (R87). LLT_OP with OP 1 renews a granted ticket's expiry when the budget allows. -/
  | leaveRenew (m : Master) (p : Fin 16) (v : Word)
  /-- LEAVE_EXPIRY (R87). A grant reaches its expiry; its milliwatts leave LLT_GRANTED and the ticket is freed. -/
  | leaveExpiry (t : Fin 128)
  /-- DRAW_AFTER_EXPIRY (R87). A block still above its floor 1 ms after expiry records 0x0E42. -/
  | drawAfterExpiry (t : Fin 128)
  /-- LEAVE_DEADLINE (R88). A queued request reaches its deadline and is removed with event 0x0E43. -/
  | leaveDeadline (t : Fin 128)
  /-- THERMAL_CEILING_STEP (R89). LLT_THERM is lowered every 10 ms under THROT or raised every 100 ms after it clears. -/
  | thermalCeilingStep
  /-- SQ_TAIL_DOORBELL (R116). The host writes a submission queue tail doorbell. -/
  | sqTailDoorbell (c : Fin 2) (q tail : Nat) (entries : List NvmeCmd)
  /-- CQ_HEAD_DOORBELL (R128). The host advances a completion queue head, freeing slots for reservation. -/
  | cqHeadDoorbell (c : Fin 2) (q head : Nat)
  /-- COMMAND_FETCH (R13). HCE fetches a command by arbitration, takes a tag and LGR assigns its fetch ordinal; `mi`
  is a command that the management endpoint accepts for a controller. -/
  | commandFetch (mi : Option (Fin 2 × NvmeCmd))
  /-- FETCH_PAUSE_END (R119). A fetch pause ends; a pause of 10 ms or more records 0x0101 or 0x0102. -/
  | fetchPauseEnd
  /-- WRITE_TRANSFER_START (R126). A write waiting under the Dirty Cap begins its data transfer once destage makes room. -/
  | writeTransferStart (tag : Fin 4096)
  /-- DATA_TRANSFER_COMPLETE (R17). A write's data arrives in the buffer and its Ledger entry becomes BUFFERED. -/
  | dataTransferComplete (tag : Fin 4096)
  /-- HOST_MEMORY_ERROR (R122). A host memory access fails and the command completes with Data Transfer Error. -/
  | hostMemoryError (tag : Fin 4096)
  /-- COMPLETION_POST (R128). HCE reserves a completion queue slot and posts the completion. -/
  | completionPost (tag : Fin 4096)
  /-- INTERRUPT_COALESCING_TIMEOUT (R129). The coalescing time limit expires and the vector's interrupt is raised. -/
  | interruptCoalescingTimeout (c : Fin 2) (q : Nat)
  /-- RECOVERY_TIME_LIMIT_EXPIRY (R127). A command's recovery time limit passes; held commands complete with Namespace Not Ready. -/
  | recoveryTimeLimitExpiry (tag : Fin 4096)
  /-- ABORT_MATCH (R130). HCE_ABORTREQ.GO matches a live command without a reserved slot and marks it aborted. -/
  | abortMatch (m : Master) (v : Word)
  /-- READ (R16). Read selects per sector the newest older version and returns it from buffer or media; `steps`: the sectors that the
  first pass missed, each with the ladder step that recovered it, 10 for none (R232). -/
  | read (tag : Fin 4096) (steps : List (Nat × Nat))
  /-- WRITE (R17). Write registers a range, moves data to the buffer and completes, or waits for durability with FUA. -/
  | write (tag : Fin 4096)
  /-- ZONE_APPEND (R134). Zone Append takes its LBA from the fetch write pointer and writes. -/
  | zoneAppend (tag : Fin 4096)
  /-- FLUSH (R157). Flush completes when every domain frontier in scope is younger than its ordinal. -/
  | flush (tag : Fin 4096)
  /-- COMPARE (R115). Compare reads sectors and compares them with host data; `steps` as for READ. -/
  | compare (tag : Fin 4096) (steps : List (Nat × Nat))
  /-- WRITE_UNCORRECTABLE (R148). Write Uncorrectable registers an UNCORR entry over a range. -/
  | writeUncorrectable (tag : Fin 4096)
  /-- WRITE_ZEROES (R148). Write Zeroes registers a ZEROES entry over a range. -/
  | writeZeroes (tag : Fin 4096)
  /-- VERIFY (R115). Verify reads sectors without transferring data; `steps` as for READ. -/
  | verify (tag : Fin 4096) (steps : List (Nat × Nat))
  /-- DATASET_MANAGEMENT (R147). Dataset Management deallocates up to 256 ranges on a conventional namespace. -/
  | datasetManagement (tag : Fin 4096)
  /-- RESERVATION_REGISTER (R115). Reservation Register changes a namespace registrant. -/
  | reservationRegister (tag : Fin 4096)
  /-- RESERVATION_REPORT (R115). Reservation Report returns the reservation state. -/
  | reservationReport (tag : Fin 4096)
  /-- RESERVATION_ACQUIRE (R115). Reservation Acquire takes a reservation. -/
  | reservationAcquire (tag : Fin 4096)
  /-- RESERVATION_RELEASE (R115). Reservation Release releases a reservation. -/
  | reservationRelease (tag : Fin 4096)
  /-- ZONE_OPEN (R137). Zone Management Send Open opens a zone or all zones. -/
  | zoneOpen (tag : Fin 4096)
  /-- ZONE_CLOSE (R137). Zone Management Send Close closes a zone or all zones. -/
  | zoneClose (tag : Fin 4096)
  /-- ZONE_FINISH (R137). Zone Finish writes zeroes to the capacity at its ordinal and makes the zone Full. -/
  | zoneFinish (tag : Fin 4096)
  /-- ZONE_RESET (R137). Zone Reset writes zeroes over the zone at its ordinal and rewinds the pointer. -/
  | zoneReset (tag : Fin 4096)
  /-- ZONE_OFFLINE (R137). Zone Management Send Offline makes a zone Offline. -/
  | zoneOffline (tag : Fin 4096)
  /-- REPORT_ZONES (R137). Zone Management Receive Report Zones returns zone descriptors. -/
  | reportZones (tag : Fin 4096)
  /-- CREATE_IO_SQ (R113). Create I/O Submission Queue. -/
  | createIoSq (tag : Fin 4096)
  /-- CREATE_IO_CQ (R113). Create I/O Completion Queue. -/
  | createIoCq (tag : Fin 4096)
  /-- DELETE_IO_SQ (R113). Delete I/O Submission Queue. -/
  | deleteIoSq (tag : Fin 4096)
  /-- DELETE_IO_CQ (R113). Delete I/O Completion Queue. -/
  | deleteIoCq (tag : Fin 4096)
  /-- IDENTIFY (R113). Identify returns controller and namespace identity within the stated limits. -/
  | identify (tag : Fin 4096)
  /-- GET_LOG_PAGE (R140). Get Log Page returns a standard log page such as SMART or Sanitize Status. -/
  | getLogPage (tag : Fin 4096)
  /-- LOG_GUARANTEE_EXCEPTIONS (R141). Get Log Page 0xC0 returns the Guarantee Exception records. -/
  | logGuaranteeExceptions (tag : Fin 4096)
  /-- LOG_EVENT_RECORDER (R142). Get Log Page 0xC1 returns a windowed snapshot of the Event Recorder. -/
  | logEventRecorder (tag : Fin 4096)
  /-- LOG_LIFETIME_COUNTERS (R141). Get Log Page 0xC2 returns lifetime counters from one LIF_SNAP. -/
  | logLifetimeCounters (tag : Fin 4096)
  /-- LOG_ACTUATOR_HEAD_HEALTH (R141). Get Log Page 0xC3 returns actuator and head health. -/
  | logActuatorHeadHealth (tag : Fin 4096)
  /-- LOG_LEASES_POWER (R141). Get Log Page 0xC4 returns budgets, leases and class counts. -/
  | logLeasesPower (tag : Fin 4096)
  /-- LOG_ATTESTATION_MEASUREMENTS (R141). Get Log Page 0xC5 returns measurements and the signed report. -/
  | logAttestationMeasurements (tag : Fin 4096)
  /-- SET_FEATURES (R143). Set Features for a standard feature without a row of its own. -/
  | setFeatures (tag : Fin 4096)
  /-- GET_FEATURES (R143). Get Features for a feature without a row of its own. -/
  | getFeatures (tag : Fin 4096)
  /-- SET_FEATURES_POWER_MANAGEMENT (R81). Set Features Power Management starts entry into an NVMe power state and completes when reached. -/
  | setFeaturesPowerManagement (tag : Fin 4096)
  /-- SET_FEATURES_TIMESTAMP (R145). Set Features Timestamp loads CAL with SRC 2. -/
  | setFeaturesTimestamp (tag : Fin 4096)
  /-- GET_FEATURES_TIMESTAMP (R398). Get Features Timestamp returns CAL with Origin and Synch. -/
  | getFeaturesTimestamp (tag : Fin 4096)
  /-- SET_FEATURES_VOLATILE_WRITE_CACHE (R126). Set Features Volatile Write Cache enables or disables caching. -/
  | setFeaturesVolatileWriteCache (tag : Fin 4096)
  /-- SET_FEATURES_INTERRUPT_COALESCING (R129). Set Features Interrupt Coalescing sets threshold and time. -/
  | setFeaturesInterruptCoalescing (tag : Fin 4096)
  /-- SET_FEATURES_TEMPERATURE_THRESHOLD (R370). Set Features Temperature Threshold sets WARN subject to the ordering rule. -/
  | setFeaturesTemperatureThreshold (tag : Fin 4096)
  /-- SET_FEATURES_READ_RECOVERY_LEVEL (R145). Set Features Read Recovery Level selects level 0, 4 or 15. -/
  | setFeaturesReadRecoveryLevel (tag : Fin 4096)
  /-- SET_FEATURES_RECOVERY_TIME_LIMIT (R143). Set Features 0xC0 sets the recovery time limit. -/
  | setFeaturesRecoveryTimeLimit (tag : Fin 4096)
  /-- SET_FEATURES_DIRTY_CAP (R144). Set Features 0xC1 sets the Dirty Cap. -/
  | setFeaturesDirtyCap (tag : Fin 4096)
  /-- SET_FEATURES_LEASE_FLOOR (R143). Set Features 0xC2 sets VLK_FLOOR. -/
  | setFeaturesLeaseFloor (tag : Fin 4096)
  /-- SET_FEATURES_BEHAVIOUR_PROFILE (R432). Set Features 0xC3 sets the pending profile and lock, refused while locked. -/
  | setFeaturesBehaviourProfile (tag : Fin 4096)
  /-- GET_FEATURES_BEHAVIOUR_PROFILE (R144). Get Features 0xC3 returns the profile in force or the pending one. -/
  | getFeaturesBehaviourProfile (tag : Fin 4096)
  /-- ASYNCHRONOUS_EVENT_REQUEST (R113). Asynchronous Event Request is held until an event is reported. -/
  | asynchronousEventRequest (tag : Fin 4096)
  /-- ABORT (R130). Abort asks HCE to match a target command and completes with the match outcome. -/
  | abort (tag : Fin 4096)
  /-- KEEP_ALIVE (R115). Keep Alive command. -/
  | keepAlive (tag : Fin 4096)
  /-- NAMESPACE_MANAGEMENT (R139). Namespace Management creates or deletes a namespace if capacity is free. -/
  | namespaceManagement (tag : Fin 4096)
  /-- NAMESPACE_ATTACHMENT (R115). Namespace Attachment attaches or detaches a namespace. -/
  | namespaceAttachment (tag : Fin 4096)
  /-- FIRMWARE_IMAGE_DOWNLOAD (R115). Firmware Image Download stores part of an image. -/
  | firmwareImageDownload (tag : Fin 4096)
  /-- FIRMWARE_COMMIT (R115). Firmware Commit with actions 0 to 2 commits an image to a slot. -/
  | firmwareCommit (tag : Fin 4096) (img : BootImage)
  /-- FIRMWARE_ACTIVATION (R427). Firmware Commit action 3 activates an image without reset through a pause. -/
  | firmwareActivation (tag : Fin 4096) (img : BootImage)
  /-- ACTIVATION_PAUSE_TIMEOUT (R428). Sequencers not idle within 100 ms of the pause; activation abandoned with Internal Error. -/
  | activationPauseTimeout
  /-- FORMAT_NVM (R165). Format NVM acts as a barrier and changes the namespace in one FORMAT record. -/
  | formatNvm (tag : Fin 4096)
  /-- SANITIZE_OVERWRITE (R166). Sanitize Overwrite drops dirty data and overwrites every band of the affected namespaces. -/
  | sanitizeOverwrite (tag : Fin 4096)
  /-- SANITIZE_CRYPTO_ERASE (R166). Sanitize Crypto Erase replaces the namespace keys. -/
  | sanitizeCryptoErase (tag : Fin 4096)
  /-- SANITIZE_BAND_DONE (R166). A band overwrite completes and SAN_BAND is journalled to both places. -/
  | sanitizeBandDone
  /-- SECURITY_SEND (R115). Security Send with protocol 0x00 or another supported protocol. -/
  | securitySend (tag : Fin 4096)
  /-- SECURITY_RECEIVE (R115). Security Receive with protocol 0x00 or another supported protocol. -/
  | securityReceive (tag : Fin 4096)
  /-- ATTESTATION_NONCE (R362). Security Send 0xF0/0x0001 carries a nonce and starts a signed attestation report. -/
  | attestationNonce (tag : Fin 4096)
  /-- ATTESTATION_REPORT_SIGNED (R362). The report is signed, FLAGS bit 0 sets and LEN becomes 14,088. -/
  | attestationReportSigned
  /-- ATTESTATION_REPORT_RECEIVE (R362). Security Receive 0xF0/0x0001 returns the report once ready. -/
  | attestationReportReceive (tag : Fin 4096)
  /-- CREDENTIAL (R354). Security Send 0xF1 presents a user credential that opens the user or counts a failure. -/
  | credential (tag : Fin 4096)
  /-- DEVICE_SELF_TEST (R115). Device Self-test command. -/
  | deviceSelfTest (tag : Fin 4096)
  /-- NVME_MI_SEND (R115). NVMe-MI Send command. -/
  | nvmeMiSend (tag : Fin 4096)
  /-- NVME_MI_RECEIVE (R115). NVMe-MI Receive command. -/
  | nvmeMiReceive (tag : Fin 4096)
  /-- READ_NVME_MI_DATA_STRUCTURE (R114). NVMe-MI Read NVMe-MI Data Structure. -/
  | readNvmeMiDataStructure (dtyp port : Nat)
  /-- NVM_SUBSYSTEM_HEALTH_STATUS_POLL (R114). NVMe-MI NVM Subsystem Health Status Poll. -/
  | nvmSubsystemHealthStatusPoll
  /-- CONTROLLER_HEALTH_STATUS_POLL (R114). NVMe-MI Controller Health Status Poll. -/
  | controllerHealthStatusPoll (c : Fin 2)
  /-- CONFIGURATION_GET (R114). NVMe-MI Configuration Get. -/
  | configurationGet (ident : Nat)
  /-- CONFIGURATION_SET (R114). NVMe-MI Configuration Set. -/
  | configurationSet (ident v : Nat)
  /-- VPD_READ (R114). NVMe-MI VPD Read. -/
  | vpdRead (off len : Nat)
  /-- VPD_WRITE (R114). NVMe-MI VPD Write. -/
  | vpdWrite (off : Nat) (bytes : List Byte)
  /-- MI_RESET (R114). NVMe-MI Reset acts as an NVM subsystem reset. -/
  | miReset
  /-- BASIC_MANAGEMENT_COMMAND (R114). The NVMe-MI basic management command at SMBus address 0x6A. -/
  | basicManagementCommand
  /-- NSDOM_WRITE (R146). A write to XMT_NSDOMk changes a namespace's ordering domain, or is refused with 0x0203. -/
  | nsdomWrite (m : Master) (k : Fin 64) (v : Word)
  /-- LGR_WIN_GO (R148). LGR_WIN.GO copies one Ledger entry at one instant into LGR_WDATA. -/
  | lgrWinGo (m : Master) (v : Word)
  /-- JOURNAL_BLOCK_DURABLE (R155). A journal block is written and read back in both copies and becomes durable. -/
  | journalBlockDurable (copies : List (Nat × Nat × Nat))
  /-- CHECKPOINT (R155). Firmware writes a table checkpoint and appends a CHECKPOINT record. -/
  | checkpoint
  /-- MIGRATION_START (R159). A migration journals MIG_INTENT, sets MIG and schedules its source read. -/
  | migrationStart (zone : Bool) (idx ch sl : Nat)
  /-- MIGRATION_COPY_VERIFIED (R159). The new copy is written and read back; XMT commits the migration or voids it with 0x0221;
  `lost`: sectors that the ladder has given up (R152). -/
  | migrationCopyVerified (zone : Bool) (idx : Nat) (lost : List Nat)
  /-- MIG_FREE (R159). When no pin holds the old copy XMT journals MIG_FREE and frees the slot. -/
  | migFree (zone : Bool) (idx : Nat)
  /-- RESERVOIR_COMMIT (R162). RVR_CMD value 1 starts a reservoir commit of the buffered writes and journal tail. -/
  | reservoirCommit (m : Master)
  /-- LEDGER_FREEZE (R163). In an in-service commit the Ledger freezes once every write is BUFFERED or DROPPED. -/
  | ledgerFreeze
  /-- COMMIT_RECORD_DURABLE (R162). Both commit record copies are programmed; event 0x0212 and the commit set counts as DURABLE. -/
  | commitRecordDurable
  /-- RESERVOIR_REPLAY (R164). RVR_CMD value 2 replays a generation's writes into the buffer. -/
  | reservoirReplay (m : Master)
  /-- REPLAY_DONE (R164). The replay completes and line 393 rises. -/
  | replayDone
  /-- RESTART_RECOVERY (R164). `lastGood`: the last good record of the media journal; `ckOk`: the newest checkpoint's digest verifies. After a reset that empties the Ledger the part chooses a generation, replays, applies the journal and rebuilds tables. -/
  | restartRecovery (lastGood : Option Nat) (ckOk : Bool)
  /-- TASK_COMMIT (R182). ASQn_PCMD.COMMIT marks the PENDING words as a task, or is refused. -/
  | taskCommit (m : Master) (n : Fin 4)
  /-- TASK_CANCEL (R182). ASQn_PCMD.CANCEL withdraws the PENDING task, which yields a CANCELLED result. -/
  | taskCancel (m : Master) (n : Fin 4)
  /-- TASK_PROMOTION (R183). The PENDING task is copied to ACTIVE, leave is requested and its dispatch entry issues. -/
  | taskPromotion (n : Fin 4)
  /-- MICROWORD_ISSUE (R169). A fetched microword issues its level controls, pulses and UNIT field, or faults. -/
  | microwordIssue (n : Fin 4)
  /-- SEQ_NEXT (R170). A NEXT word completes and the next address is current + 1. -/
  | seqNext (n : Fin 4)
  /-- SEQ_JUMP (R170). A JUMP word completes and transfers to TARGET. -/
  | seqJump (n : Fin 4)
  /-- SEQ_CALL (R171). A CALL word completes, pushing the return address or faulting at depth 8. -/
  | seqCall (n : Fin 4)
  /-- SEQ_RET (R170). A RET word completes, popping or ending the task at depth 0 with a status. -/
  | seqRet (n : Fin 4)
  /-- SEQ_BRT (R170). A BRT word completes, branching when COND is true. -/
  | seqBrt (n : Fin 4)
  /-- SEQ_BRF (R170). A BRF word completes, branching when COND is false. -/
  | seqBrf (n : Fin 4)
  /-- SEQ_DISPATCH (R170). A DISPATCH word completes and transfers through the dispatch table. -/
  | seqDispatch (n : Fin 4)
  /-- SEQ_LOOP (R170). A LOOP word completes, decrementing CNT0 and branching while it is non-zero. -/
  | seqLoop (n : Fin 4)
  /-- FAULT_REQUEST (R180). A FAULT request reaches the sequencer, ending a non-atomic wait or being discarded with no task. -/
  | faultRequest (n : Fin 4) (cause : Nat)
  /-- WAIT_TIMEOUT (R173). A word's TMR limit expires and the abort handler is entered with cause TIMEOUT. -/
  | waitTimeout (n : Fin 4)
  /-- ATOMIC_BOUND (R179). An ATOMIC run reaches ASQn_ATOMMAX; the next boundary is sampled and 0x0311 recorded. -/
  | atomicBound (n : Fin 4)
  /-- ASQ_ABORT (R185). ASQn_ABORT.GO cancels a matching PENDING task and requests ABORT of a matching ACTIVE task. -/
  | asqAbort (m : Master) (n : Fin 4) (v : Word)
  /-- TASK_DEADLINE (R187). The task deadline passes; a DEADLINE request is raised and 0x0350 recorded. -/
  | taskDeadline (n : Fin 4)
  /-- RESULT_POP (R183). ASQn_RESPOP removes the oldest result, letting a held promotion proceed. -/
  | resultPop (m : Master) (n : Fin 4) (v : Word)
  /-- MICROCODE_ACTIVATE (R191). Mailbox command 0x01 verifies a microcode image, stages it and writes ARM. -/
  | microcodeActivate (img : McObj)
  /-- ARM (R435). A write of CST_ACT.ARM holds sequencers at task boundaries for a staged image, or records 0x0362. -/
  | arm (m : Master) (v : Word)
  /-- ACTIVATION_COPY (R191). With every sequencer held and idle CST copies the image, releases holds and records 0x0340 or 0x0343. -/
  | activationCopy
  /-- ACTIVATION_ABANDON (R191). HOLDMAX passes before all sequencers are idle; holds released and 0x0342 recorded. -/
  | activationAbandon
  /-- OPENCTL_WRITE (R194). A write of CST_OPENCTL by the security core enables or disables the open region. -/
  | openctlWrite (m : Master) (v : Word)
  /-- READER_CHECK (R66). The head-switch reader check completes; open or short readers record 0x0410 or 0x0411. -/
  | readerCheck (n : Fin 4) (open0 short0 open1 short1 : Bool)
  /-- CLOCK_FIELD (R201). A clock field passes the reader; RWCn primes and measures and steers the write clock. -/
  | clockField (n : Fin 4) (meas : ClockMeas)
  /-- SYNC_A_DECISION (R206). The Sync Mark A window closes and the best candidate is chosen. -/
  | syncADecision (n : Fin 4) (cands : List SyncCand)
  /-- SYNC_B_DECISION (R207). The Sync Mark B window closes and the sector's framing outcome is decided. -/
  | syncBDecision (n : Fin 4) (cands : List SyncCand)
  /-- BLIND_FRAMING (R210). Blind framing syndrome weights are computed and a framing chosen or the step failed. -/
  | blindFraming (n : Fin 4) (weights : List (Int × Nat))
  /-- DEFECT_SPAN (R212). The defect detector flags a span, freezing loops and erasing its bits. -/
  | defectSpan (n : Fin 4) (asperity adcSat : Bool)
  /-- LOOP_LIMIT (R211). An adaptive loop reaches its limit; U3, 0x0404 and line 328 + 4n + 2. -/
  | loopLimit (n : Fin 4) (loop : Fin 6)
  /-- PMON_SNAP (R219). A write of PMON_SNAP copies a block's performance counters into shadows at one instant. -/
  | pmonSnap (b : PmonBlock)
  /-- PMON_CLR (R219). A write of PMON_CLR zeroes a block's performance counters and WRAP bits. -/
  | pmonClr (b : PmonBlock)
  /-- CODEWORD_DECODE (R229). A decoder finishes a codeword and LDP writes its outcome, retaining soft values on failure. -/
  | codewordDecode (i : Nat) (r : DecodeRes)
  /-- SQUEEZE_REDECODE (R227). When the squeeze ends a squeezed failed codeword is decoded again at FPITER. -/
  | squeezeRedecode (r : DecodeRes)
  /-- CLUSTER_DECODE (R236). LDP decodes the Reed-Solomon columns of an optical cluster pair. -/
  | clusterDecode (n : Fin 4) (addr : Nat) (cols : List (Nat × Nat)) (sectors : List SectorCheck)
  /-- RETAINED_SLOT_FREE (R229). A write of LDP_RSFREE frees a retained store slot. -/
  | retainedSlotFree (m : Master) (v : Word)
  /-- FAILURE_POP (R229). A write of LDP_FFPOPn removes the oldest failure queue entry. -/
  | failurePop (m : Master) (n : Fin 4) (v : Word)
  /-- DEFECT_INSERT (R237). TPE_DLOP OP 1 inserts a defect entry, merging or refusing. -/
  | defectInsert (m : Master) (surf : Fin 64)
  /-- DEFECT_DELETE (R237). TPE_DLOP OP 2 deletes a defect entry. -/
  | defectDelete (m : Master) (surf : Fin 64)
  /-- DEFECT_CLEAR_PENDING (R238). TPE_DLOP OP 3 clears PENDING on entries within a range. -/
  | defectClearPending (m : Master) (surf : Fin 64)
  /-- DEFECT_INSERT_RELEASE (R239). A held insert completes when the task on its track ends. -/
  | defectInsertRelease
  /-- SAMPLE_TRIGGER (R241). A servo trigger releases SYNC and the table's critical span and update phase run. -/
  | sampleTrigger (n : Fin 4) (inp : ServoIn)
  /-- SYNC_TIMEOUT (R251). The expected trigger is later than SYNCTO; SYNC is released with invalid inputs and MISSED counted. -/
  | syncTimeout (n : Fin 4) (inp : ServoIn)
  /-- TABLE_SWAP_GO (R248). SVEn_SWAP.GO checks the shadow table and refuses it or marks the swap pending. -/
  | tableSwapGo (m : Master) (n : Fin 5)
  /-- TABLE_SWAP (R248). A checked table becomes active at the next sample boundary. -/
  | tableSwap (n : Fin 5)
  /-- MAIL_COMMIT (R249). SVEn_MAILCMT copies the mailbox words at the next sample boundary. -/
  | mailCommit (m : Master) (n : Fin 5)
  /-- ENGINE_RUN (R248). A write of SVEn_CFG.RUN starts or stops the table, refused before a swap. -/
  | engineRun (m : Master) (n : Fin 5) (v : Word)
  /-- SEEK_TIMEOUT (R254). A seek reaches TIMEOUT; WAIT 10 completes with SEEK_OK false and 0x0603. -/
  | seekTimeout (n : Fin 4)
  /-- SHOCK_CONVERSION (R258). A shock axis conversion is compared with WARN and LIMIT. -/
  | shockConversion (n : Fin 4) (axis : Fin 2) (val : Int)
  /-- SHOCK_SENSOR_FAULT (R66). A shock axis is found open or stuck and is ignored with 0x0613. -/
  | shockSensorFault (n : Fin 4) (axis : Fin 2)
  /-- CDA_SHORT (R66). A CDA output is found shorted and the heads are unloaded with 0x0612. -/
  | cdaShort (n : Fin 4) (k : Fin 4)
  /-- RETRACT_GO (R259). SVEn_RETRACT.GO starts the retract path. -/
  | retractGo (m : Master) (n : Fin 4)
  /-- RETRACT_END (R259). RETTIME passes; outputs return to mid-scale and LOADED and RETRACT clear. -/
  | retractEnd (n : Fin 4)
  /-- FOCUS_LOST (R261). An optical hold lasts HOLDMAX; focus is lost, the lens parked and 0x0608 recorded. -/
  | focusLost (n : Fin 4)
  /-- JUMP_GO (R262). SVEn_JUMP.GO starts a track or layer jump. -/
  | jumpGo (m : Master) (n : Fin 4) (v : Word)
  /-- FOCUS_SWEEP_GO (R263). SVEn_FSWEEP1.GO starts the focus acquisition ramp. -/
  | focusSweepGo (m : Master) (n : Fin 4) (v : Word)
  /-- TRACE_START (R265). SVEn_TRCTL.START clears indices and starts capture. -/
  | traceStart (m : Master) (n : Fin 5) (v : Word)
  /-- TRACE_STOP (R265). SVEn_TRCTL.STOP is a firmware trace trigger. -/
  | traceStop (m : Master) (n : Fin 5) (v : Word)
  /-- TRACE_READ (R265). A read of SVEn_TRDATA returns a sample and increments the index with INC. -/
  | traceRead (m : Master) (n : Fin 5)
  /-- START (R275). SPN_CMD.START spins up or re-synchronises to a turning rotor, or is refused. -/
  | start (m : Master)
  /-- BRAKE (R282). SPN_CMD.BRAKE requests unload and then brakes the spindle. -/
  | brake (m : Master)
  /-- BRAKE_ENTRY (R282). Once no engine is LOADED SPN enters BRAKE and records 0x0750. -/
  | brakeEntry
  /-- COAST (R275). SPN_CMD.COAST drives all gates low and lets the spindle run down. -/
  | coast (m : Master)
  /-- CLRF (R284). SPN_CMD.CLRF clears a latched spindle fault when the phases are not turning. -/
  | clrf (m : Master)
  /-- ALIGN_DONE (R275). The alignment period ends and STATE becomes OPENLOOP. -/
  | alignDone
  /-- SPINUP_ATTEMPT_TIMEOUT (R277). Lock not reached within 1.0 s of OPENLOOP; the attempt fails, FAULTED after three. -/
  | spinupAttemptTimeout
  /-- PWM_CENTRE (R272). At each PWM centre the current is sampled or predicted and SVE4 runs the speed law. -/
  | pwmCentre (iu iv : Int) (vmot : Nat) (edge : Bool)
  /-- BEMF_CROSSING (R268). A back-EMF zero crossing is seen and qualified on the floating phase. -/
  | bemfCrossing (period : Nat) (slope : Bool)
  /-- COMMUTATION (R268). SPN commutates to the next step after a qualified or expected crossing. -/
  | commutation (missed : Bool)
  /-- FLOAT_PERIOD_END (R279). A float period ends; drive resumes at the matching step or another float follows. -/
  | floatPeriodEnd (pos : Option (Fin 6 × Nat))
  /-- RECOVERY_TIMEOUT (R279). Lock not regained within RECMS; recovery fails with 0x0732 and braking or coasting. -/
  | recoveryTimeout
  /-- MOTOR_RAIL_THRESHOLD (R283). The motor rail crosses 13.8 V or 13.2 V and the chopper turns on or off. -/
  | motorRailThreshold (mv : Nat)
  /-- CHOPPER_FAULT (R284). The chopper is declared faulty by current, timeout or 14.5 V rail; CHOPFLT and 0x0740. -/
  | chopperFault (cond : Fin 3) (mv : Nat)
  /-- CHOPPER_CONDUCTING (R284). Chopper current while commanded off for 50 us sets CHOPFLT with 0x0741. -/
  | chopperConducting (cur : Nat)
  /-- RAIL_OVERVOLTAGE (R286). The rail reaches 16.0 V; all gates low, FAULTED and 0x0C30. -/
  | railOvervoltage (mv : Nat)
  /-- SPN_FLT_N_LOW (R66). The gate driver fault input falls; all gates low within 200 ns and 0x0711. -/
  | spnFltNLow
  /-- PHASE_OPEN (R66). A spindle phase current stays below 5 % of command; drive stops with 0x0710. -/
  | phaseOpen (ph : Fin 3)
  /-- SUPPLY_REVERSED (R66). SUP_VIN below -1.6 V records 0x0C20 and refuses spin-up. -/
  | supplyReversed (mv : Int)
  /-- SPINDLE_STOPPED (R282). Current below 2 % for STOPMS; gates low, STOPPED and 0x0751. -/
  | spindleStopped
  /-- RECTIFY_EXIT (R287). With the commit record done and no engine loaded SPN leaves RECTIFY for COAST. -/
  | rectifyExit
  /-- PREAMP_FAULT (R62). PSIn_FLT_N low for 20 ns is a fault decision with event 0x0810. -/
  | preampFault (n : Fin 4)
  /-- PSI_FRAME_DONE (R289). A PSI frame completes; a failed acknowledgement records 0x0812. -/
  | psiFrameDone (n : Fin 4) (ack : BitVec 2) (data : BitVec 16)
  /-- PSI_FWCMD_GO (R290). PSI_FWCMDn.GO queues a firmware frame. -/
  | psiFwcmdGo (m : Master) (n : Fin 4) (v : Word)
  /-- LASER_MONITOR_READ (R294). LSR reads the laser monitor and judges it against the window. -/
  | laserMonitorRead (n : Fin 4) (reading : BitVec 16) (lgChanged : Bool)
  /-- LSR_CLRF (R295). A write of LSR_CLRF clears a channel's laser fault. -/
  | lsrClrf (m : Master) (v : Word)
  /-- ADDRESS_UNIT (R304). An optical address-unit boundary passes and its wobble address is accepted or missed. -/
  | addressUnit (n : Fin 4) (syncOff : Int) (word : BitVec 48) (meas : ClockMeas)
  /-- OPT_FMT_WRITE (R303). A write of OPT_FMT is refused whole when any field is out of range. -/
  | optFmtWrite (m : Master) (v : Word)
  /-- SA_DELAY_END (R312). SADLY passes after the SATGT change and the layer jump is kicked. -/
  | saDelayEnd (n : Fin 4)
  /-- SLED_MOVE_END (R312). A sled move's time ends and tracking closes. -/
  | sledMoveEnd (n : Fin 4)
  /-- DDR_READ (R321). DMC reads DDR5 and returns clean, corrected, failed or bypassed data. -/
  | ddrRead (m : Master) (a : BitVec 40) (err : DdrErr)
  /-- REGATTR_POLICY_WRITE (R319). A write of REGATTR POL cleans and invalidates the region before the new policy applies. -/
  | regattrPolicyWrite (m : Master) (k : Fin 16) (v : Word)
  /-- SPLIT_READ (R323). DMC_SPLITCTL raw read loads a line and check bytes without correction. -/
  | splitRead (m : Master)
  /-- SPLIT_WRITE (R323). DMC_SPLITCTL raw write stores a line and check bytes unchanged. -/
  | splitWrite (m : Master)
  /-- SCRUB_READ (R324). Patrol scrub reads the next line, correcting or logging errors. -/
  | scrubRead (err : DdrErr)
  /-- SOFT_PPR (R326). DMC_PPR0.GO with HARD 0 performs a soft post-package repair. -/
  | softPpr (m : Master) (v : Word)
  /-- HARD_PPR (R327). DMC_PPR0.GO with HARD 1 performs a hard repair, refused while READY. -/
  | hardPpr (m : Master) (v : Word)
  /-- ROW_LOG_CLEAR (R325). A write of DMC_ROWCLR frees row log entries. -/
  | rowLogClear (m : Master) (v : Word)
  /-- BCC_ACCESS (R330). An access to DDR5 passes through BCC under the region's policy. -/
  | bccAccess (m : Master) (a : BitVec 40) (wr : Bool) (v : Word) (err : Option (Fin 16 × Bool))
  /-- CE_WINDOW_EXPIRY (R338). The BCC failure window passes and per-way corrected counts clear. -/
  | ceWindowExpiry
  /-- BCC_ENABLE (R331). Setting BCC_CTL.EN enables the cache if DISABLED with INVD, else refused. -/
  | bccEnable (m : Master)
  /-- BCC_DISABLE (R331). Clearing BCC_CTL.EN starts a drain, refused during a reservoir commit. -/
  | bccDisable (m : Master)
  /-- DRAIN_COMPLETE (R332). The drain walker passes the last set; STATE becomes DISABLED with 0x0A35. -/
  | drainComplete
  /-- BCC_CLEAN (R334). Range operation CLEAN writes back dirty lines. -/
  | bccClean (m : Master)
  /-- BCC_INVAL (R337). Range operation INVAL discards lines, keeping locks as reservations. -/
  | bccInval (m : Master)
  /-- BCC_CLEAN_INVAL (R337). Range operation CLEAN_INVAL writes back and discards lines. -/
  | bccCleanInval (m : Master)
  /-- BCC_ZERO (R335). Range operation ZERO allocates zeroed dirty lines. -/
  | bccZero (m : Master)
  /-- BCC_LOCK (R336). Range operation LOCK locks lines in ways 0 to 11. -/
  | bccLock (m : Master)
  /-- BCC_UNLOCK (R334). Range operation UNLOCK releases locks and reservations. -/
  | bccUnlock (m : Master)
  /-- BCC_INVAL_ALL (R334). INVAL_ALL clears every line, lock and reservation and sets INVD. -/
  | bccInvalAll (m : Master)
  /-- RANGE_OP_DONE (R334). A range operation completes and BCC_OPRES.DONE is set. -/
  | rangeOpDone
  /-- REPAIR_MAP_ENTRY (R328). Mailbox command 0x08 programs an in-field repair map entry. -/
  | repairMapEntry (w : Word)
  /-- EXTEND (R360). Mailbox command 0x02 extends a measurement register 8 to 15. -/
  | extend (m : Nat) (digest : Nat)
  /-- KEY_GENERATE (R348). Mailbox command 0x03 generates a key into a free slot. -/
  | keyGenerate (ns user limit : Nat)
  /-- KEY_ZERO (R349). Mailbox command 0x04 zeroes a key slot. -/
  | keyZero (slot : Fin 2048)
  /-- KEY_CHECKPOINT (R350). Mailbox command 0x05 returns fresh wrapped key records. -/
  | keyCheckpoint
  /-- NS_ACTIVE (R349). Mailbox command 0x06 names a namespace's active slot and ENC. -/
  | nsActive (ns : Fin 64) (slot : Fin 2048) (enc : Bool)
  /-- SVN_COMMIT (R344). Mailbox command 0x07 raises the anti-rollback fuse count. -/
  | svnCommit (count : Nat)
  /-- TAKE_OWNERSHIP (R342). Mailbox command 0x09 programs the first owner key. -/
  | takeOwnership (sig : SigObj)
  /-- ADD_OWNER_KEY (R342). An owner-signed request adds an owner key. -/
  | addOwnerKey (sig : SigObj) (digest : Nat)
  /-- REVOKE_OWNER_KEY (R342). An owner-signed request revokes an owner key, never the last one. -/
  | revokeOwnerKey (sig : SigObj) (k : Fin 4)
  /-- OWNER_POLICY (R352). An owner-signed owner policy is accepted, taking effect at reset. -/
  | ownerPolicy (sig : SigObj) (part openRegion ownerDebug : Bool)
  /-- EXPORT (R364). Mailbox command 0x0A builds a key bundle for a target part. -/
  | exportKeys (sig : SigObj) (devid : Nat)
  /-- IMPORT (R365). Mailbox command 0x0B imports a key bundle and re-wraps the keys. -/
  | importKeys (sig : SigObj) (b : Bundle)
  /-- BEHAVIOUR_PROFILE_UNLOCK (R432). Mailbox command 0x0C clears the profile lock after an owner signature. -/
  | behaviourProfileUnlock (sig : SigObj) (devid : Nat)
  /-- FIRMWARE_ACTIVATION_MEASUREMENT (R427). Mailbox command 0x0D extends measurement register 7 with the image digest. -/
  | firmwareActivationMeasurement (digest : Nat)
  /-- SLOT_SELECT (R347). A write of KST_SLOTSEL copies a slot's attributes into the view registers. -/
  | slotSelect (m : Master) (v : Word)
  /-- SNUFF_LEVEL_1 (R356). A level-1 snuff source fires; faults are decided and key slots zeroed. -/
  | snuffLevel1 (src : Fin 4)
  /-- SNUFF_LEVEL_2 (R357). A level-2 snuff zeroes slots, sets L2PEND and records 0x1024 per encrypted namespace. -/
  | snuffLevel2 (src : Fin 3)
  /-- ALARM_FUSE_BLOW (R356). When the security core next runs it blows an ALARM fuse and records 0x0B20. -/
  | alarmFuseBlow
  /-- EPOCH_FUSE_BLOW (R357). The security core blows the next EPOCH fuse, or ENCDIS at 16, and clears L2PEND. -/
  | epochFuseBlow
  /-- KEY_RESTORE (R351). The security core unwraps the key table into slots and sets RESTORED. -/
  | keyRestore
  /-- DEBUG_CHALLENGE (R359). DBG issues a fresh challenge for an unlock request. -/
  | debugChallenge
  /-- DEBUG_RESPONSE (R359). An unlock response is verified and opens a debug level, or is a level-2 alarm. -/
  | debugResponse (level : Nat) (sig : SigObj) (digest : Nat) (halt : Bool)
  /-- THM_CONVERSION (R366). THM converts all sensors, cross-checks them and updates THM_MAX and states. -/
  | thmConversion (readings : Vector (Option Int) 24) (wick : Int)
  /-- SHUTDOWN_DIM_ENTRY (R371). After heads park and the commit ends the part enters DIM. -/
  | shutdownDimEntry
  /-- CRITICAL_DARK_ENTRY (R373). With no engine loaded or after 250 ms the part records 0x0C43 and enters DARK. -/
  | criticalDarkEntry
  /-- CRITICAL_WAKE (R373). THM_WICK below SHUT - 10 °C for 10 s wakes the part with a full boot. -/
  | criticalWake (env : BootEnv)
  /-- CLRSHUT (R372). THM_CMD.CLRSHUT releases a latched shutdown when cool enough, else 0x0C44. -/
  | clrshut (m : Master)
  /-- CLREXCL (R367). THM_CMD.CLREXCL admits every excluded sensor again. -/
  | clrexcl (m : Master)
  /-- TRIM_COMPUTE (R376). Every CPER TRM computes COMPTERM and moves AUTOTERM. -/
  | trimCompute (stats : List (Nat × Nat × Int))
  /-- TAPER_STEP (R378). At an opportunity of its class TRM moves a trim CODE towards TARGET. -/
  | taperStep (t : Fin 137)
  /-- TRIM_AGE (R380). A trim pending beyond AGEMAX records 0x0D03. -/
  | trimAge (t : Fin 137)
  /-- EVENT_STORE (R384). EVR stores a queued event with the next SEQ in its area. -/
  | eventStore
  /-- EVENT_RAISE_SW (R389). EVR_SWEV.GO raises a firmware event. -/
  | eventRaiseSw (m : Master) (v : Word)
  /-- FLOOD_PERIOD (R387). A 1 s flood period ends and a flood starts or ends with summaries. -/
  | floodPeriod
  /-- EVR_NEXT_READ (R388). A read of EVR_NEXT0 captures the recorder registers into hold registers. -/
  | evrNextRead (m : Master)
  /-- EVR_CURSOR_WRITE (R388). A write of EVR_CUR1 loads the named record into the window. -/
  | evrCursorWrite (m : Master) (v : Word)
  /-- EVR_WINDOW_ADVANCE (R388). A read of EVR_WIN7 with INC advances the cursor and loads the next record. -/
  | evrWindowAdvance (m : Master)
  /-- EVR_BASE_WRITE (R390). A write to EVR_BASE sets the restore base, refused after a STORE or commit. -/
  | evrBaseWrite (m : Master) (hi : Bool) (v : Word)
  /-- EVR_STORE (R390). EVR_CMD.STORE writes a restored record into its slot. -/
  | evrStore (m : Master)
  /-- EVR_COMMIT (R391). EVR_CMD.COMMIT numbers staged records, closes the restore and records 0x0E50. -/
  | evrCommit (m : Master)
  /-- LIF_ADD (R394). LIF_ADDGO adds an amount to a lifetime counter. -/
  | lifAdd (m : Master) (v : Word)
  /-- LIF_SEAL (R394). LIF_CMD.SEAL clears OPEN until the next POR. -/
  | lifSeal (m : Master)
  /-- LIF_SNAP (R395). LIF_SNAP copies all counters and the calendar into shadows. -/
  | lifSnap (m : Master)
  /-- LIF_TICK (R393). Each wick second advances the tick counters. -/
  | lifTick
  /-- CAL_READ (R396). A read of CAL_USEC copies the seconds into CAL_SEC0 and CAL_SEC1. -/
  | calRead (m : Master)
  /-- CAL_SET (R397). CAL_CMD.SET loads the calendar, or is refused for SETUSEC, and records 0x0E57. -/
  | calSet (m : Master) (v : Word)
  /-- CAL_ADJUST (R397). CAL_ADJ.GO starts slewing the calendar by an offset. -/
  | calAdjust (m : Master) (v : Word)
  /-- SLEW_DONE (R397). ADJREM reaches 0 and IRQ_STAT bit 2 sets. -/
  | slewDone
  /-- CAL_ALARM (R399). The calendar seconds equal the alarm; 0x0E58 and wake source CAL. -/
  | calAlarm
  /-- BEACON_SEND (R411). Once per second a Lantern sends a BEACON with its time. -/
  | beaconSend
  /-- BEACON_RECEIVE (R411). A Candle receives a BEACON, steers its VLK time and may lock. -/
  | beaconReceive (f : VFrame) (b : Beacon)
  /-- BEACON_MISSED (R411). Four missed or failed beacons enter holdover or force re-enrollment. -/
  | beaconMissed
  /-- DISCOVER_SEND (R408). Every 100 ms while ADMIT and a slot is free the Lantern sends DISCOVER. -/
  | discoverSend
  /-- DISCOVER_RECEIVE (R408). An unenrolled Candle answers DISCOVER with an ENROLL HELLO. -/
  | discoverReceive (f : VFrame)
  /-- ENROLL_RECEIVE (R408). An ENROLL frame advances the enrollment exchange. -/
  | enrollReceive (f : VFrame) (msg : EnrollMsg)
  /-- POLL_SEND (R406). The Lantern sends a POLL to the next non-free slot. -/
  | pollSend
  /-- POLL_RECEIVE (R406). A Candle receives a POLL and answers with a REPLY. -/
  | pollReceive (f : VFrame)
  /-- REPLY_RECEIVE (R406). The Lantern receives a REPLY. -/
  | replyReceive (f : VFrame)
  /-- POLL_MISSED (R406). No REPLY within 8 us; after 8 misses the slot is SILENT. -/
  | pollMissed
  /-- IMAGE_RECEIVE (R420). A Candle receives an IMAGE chunk into its buffer. -/
  | imageReceive (f : VFrame) (ident chunk chunks : Nat) (bytes : List Byte)
  /-- VLK_WAKE (R417). A WAKE preamble of 200 or more ones on VLK_UP wakes a Candle. -/
  | vlkWake (ones periods : Nat) (env : BootEnv)
  /-- LEASE_RENEWAL_REQUEST (R413). At half the received duration the Candle asks for renewal. -/
  | leaseRenewalRequest
  /-- LEASE_EXPIRY (R413). The lease expires; LLT_LEASE.VALID clears and 0x0F20 is recorded. -/
  | leaseExpiry
  /-- QUIET_PERIOD_END (R416). The Lantern's floors-only quiet period ends. -/
  | quietPeriodEnd
  /-- ORPHAN_BACKOFF_END (R418). The orphan back-off ends and a spin-up lease window opens. -/
  | orphanBackoffEnd
  /-- ORPHAN_WINDOW_END (R418). The 10 s orphan window ends and LLT_LEASE falls to the floor. -/
  | orphanWindowEnd
  /-- SEGMENT_KEY_ROTATION (R410). The Lantern replaces the segment key at 2^30 frames or 24 hours. -/
  | segmentKeyRotation
  /-- VLK_CMD_WAKE (R417). VLK_CMD.WAKE sends WAKE to a DORMANT Candle. -/
  | vlkCmdWake (m : Master) (k : Fin 64)
  /-- VLK_CMD_ATTREQ (R421). VLK_CMD.ATTREQ sends an attestation request to a slot. -/
  | vlkCmdAttreq (m : Master) (k : Fin 64)
  /-- VLK_CMD_REMOVE (R417). VLK_CMD.REMOVE frees a slot once its grant has expired and records 0x0F04. -/
  | vlkCmdRemove (m : Master) (k : Fin 64)
  /-- IMAGE_FANOUT (R420). VLK_IMGCMD.GO starts broadcasting an image in IMAGE frames. -/
  | imageFanout (m : Master) (v : Word)
  /-- LINK_OPEN (R422). No valid frame for 3 s upstream records 0x0F11. -/
  | linkOpen
  /-- LINK_SHORT (R422). Driver current limit on 3 frames stops transmission for 1 s. -/
  | linkShort (port : Fin 2)
  /-- LINK_RETRY (R422). After 1 s the port tries to transmit again. -/
  | linkRetry (port : Fin 2)
  /-- HEAD_RETIRE (R425). Firmware retires a head by migration and sets its ASQn_HEADRET bit; `last`: the steps after the migrations;
  `zones`: the zones concerned. -/
  | headRetire (n : Fin 4) (head : Fin 64) (last : Bool) (zones : List Nat)
  /-- SECTOR_START (R216). The rotating medium brings the start of the current sector under the head; WAIT 4 completes and the write and laser gates rise with their leads. -/
  | sectorStart (n : Fin 4)
  /-- SECTOR_END (R216). The last postamble bit of the sector passes; WAIT 5 completes, WGn falls and LGn falls LGLAG bits later. -/
  | sectorEnd (n : Fin 4)
  /-- WEDGE_GAP (R216). The data area of a wedge ends; a crossing sector's write gate falls, adaptive loops freeze and a G1 taper opportunity opens. -/
  | wedgeGap (n : Fin 4) (crossing : Bool)
  /-- DEFECT_SPAN_END (R212). A flagged defect span ends once its condition has been absent for the guard, and the loops and optical wobble loop resume. -/
  | defectSpanEnd (n : Fin 4) (bits track : Nat)
  /-- WICK_CRITICAL_LIMIT (R373). THM_WICK reaches the 122 °C critical limit while THM cannot convert, so the commit stops and the part goes to DARK. -/
  | wickCriticalLimit (temp : Int)
  /-- PPR_DONE (R326). A soft or hard post-package repair finishes; DMC_PPRRES.DONE sets, the bank or rank is released, line 411 rises and 0x0A20 or 0x0A21 is recorded. -/
  | pprDone (res : Fin 5)
  /-- SEGMENT_GRANT_EXPIRY (R414). A lease grant recorded in a Lantern ledger entry reaches its expiry, so its held power returns to the segment budget and a silent slot becomes removable. -/
  | segmentGrantExpiry (k : Fin 64)
  /-- FLEET_AUTHORIZATION_EXPIRY (R408). The calendar passes the expiry of the Lantern's fleet authorization and the Candle must enrol again. -/
  | fleetAuthorizationExpiry
  /-- VDD_AUX33_LOSS (R102). VDD_AUX33 is lost, so the wick and with it every record, counter, calendar and configuration lose their state until the next POR. -/
  | vddAux33Loss
deriving DecidableEq, Repr

end Sys2Proof
end

