-- ==== Sys2Proof/Decode.lean ====
section
/-!
DEFINITION. Decoding of commands: spec/opcode_table.json gives no row any bits, so that no word spells a command.
-/

set_option Elab.async false

namespace Sys2Proof

/-- The command that a word spells by the bits of spec/opcode_table.json: the table gives no row bits. -/
def decodeTableWord (_nbits _w : Nat) : Option Instr := none

end Sys2Proof
end

