-- ==== Sys2Proof/Config.lean ====
section
/-!
DEFINITION. What an implementation fixes and what the manual leaves open: constants without a body, of which nothing
can be proved, and the two fixed facts of a part as shipped.
-/

set_option Elab.async false

namespace Sys2Proof.Config

/-- A value that the manual leaves open, one for each draw (log 2). -/
opaque freeValue : Nat → Nat

/-- SHA3-512 over a digest followed by a value (R360): a function of its operands, whose values the manual takes from
FIPS 202 and does not list (log 14). -/
opaque hash : Nat → Nat → Nat

/-- SHA3-512 of a value (R341, R361, R362), KMAC256 of a key, a message and a customisation string (its number in the
manual's order: 0 "IMH9460 ID", 1 "IMH9460 AK", 2 "IMH9460 KEK"), the ML-DSA-87 public key of a seed, and the signature that the key pair
of a seed makes over a digest: functions of their operands, whose values the manual takes from NIST's standards (log 184). -/
opaque sha3 : Nat → Nat
opaque kmac256 : Nat → Nat → Nat → Nat
opaque mldsaPublic : Nat → Nat
opaque mldsaSign : Nat → Nat → Nat

/-- AES key wrap (NIST SP 800-38F, KW) of a value under a key-encryption key (R350; log 184). -/
opaque keyWrap : Nat → Nat → Nat

/-- DEVSEC, the device secret of a part: unique per part (R340; log 184). -/
opaque devsec : Nat

/-- Words of the microcode ROM that the manual does not print (08 shows one routine only; log 15). -/
opaque romWord : Nat → Nat

/-- Coefficient words beyond index 1,023 that a row near the end of the table would name (R246 does not say what they
read; log 2). -/
opaque coefBeyond : Nat → Nat

/-- Addresses of the ROM default dispatch tables that the manual does not print: table, entry (log 15). -/
opaque romEntry : Nat → Nat → Nat

/-- The content of a place on the media that this model has never written (log 8). -/
opaque mediaContent : Nat → Nat

/-- The check bytes that a region's code stores with a line (R320): code, line, the line's data. The manual names the
codes and not their generator (log 16). -/
opaque checkBytes : Nat → Nat → Nat → Nat

/-- Entries that the aggregation ring of a Lantern holds (R419 gives its entries' form and base, not their number;
log 2). -/
opaque ringEntries : Nat

/-- CAP of a block type (table Common page header: defined per block; no chapter gives a value; log 2). -/
opaque cap : Nat → Nat

/-- The words of the boot ROM, by word (R28 gives its place and size, no content; log 15). -/
opaque bootRom : Nat → Nat

/-- The words of the security ROM, by word (R29; log 15). -/
opaque secRom : Nat → Nat

/-- The gates that a step drives whose HI and LO codes do not name two phases (R266 names no such step; R49 bounds them;
log 2). -/
opaque oddStep : Nat → Nat → Nat

/-- LBA format 3 of a namespace uses the 64-bit guard format: either is allowed, and the manual names no field that chooses
(R124; log 176). -/
opaque guard64 : Nat → Bool

/-- Heads of the drive, and the actuator of each: facts of the drive that the part is built into (log page 0xC3;
log 178). -/
opaque heads : Nat
opaque headActuator : Nat → Nat

/-- Design revision (R5): stepping B0. -/
def designRevision : Nat := 0x0B0

end Sys2Proof.Config
end

