-- ==== Sys2Proof/Machine/Bits.lean ====
section
/-!
DEFINITION. Bit fields, signed fields, sparse lists and updates of fixed arrays.
-/

set_option Elab.async false

namespace Sys2Proof.Machine

/-- Bits hi..lo of a number (R6: bit 0 is the least significant). -/
def bits (v hi lo : Nat) : Nat := (v >>> lo) % 2 ^ (hi + 1 - lo)

/-- A flag as a bit at a position. -/
def flag (b : Bool) (k : Nat) : Nat := if b then 1 <<< k else 0

/-- The signed value of a field of w bits. -/
def signed (w v : Nat) : Int :=
  let x := v % 2 ^ w
  if x < 2 ^ (w - 1) then (x : Int) else (x : Int) - 2 ^ w

/-- A signed value as a field of w bits (two's complement). -/
def field (w : Nat) (x : Int) : Nat := (x % (2 ^ w : Int)).toNat

/-- A signed value held within bounds. -/
def clamp (lo hi x : Int) : Int := if x < lo then lo else if hi < x then hi else x

/-- Division rounded to nearest, ties away from zero. -/
def roundDiv (x : Int) (d : Nat) : Int :=
  let q : Int := (((2 * x.natAbs + d) / (2 * d) : Nat) : Int)
  if x < 0 then -q else q

/-- "0 acts as 1" of many registers. -/
def zeroAsOne (v : Nat) : Nat := if v = 0 then 1 else v

/-- Element i of a fixed array changed. -/
def vmod {α : Type} {n : Nat} (v : Vector α n) (i : Nat) (f : α → α) : Vector α n :=
  if h : i < n then v.set i (f v[i]) else v

/-- Element i of a fixed array, or a default beyond its end. -/
def vget {α : Type} {n : Nat} (v : Vector α n) (i : Nat) (d : α) : α :=
  if h : i < n then v[i] else d

/-- The value of a key in a sparse list whose unlisted keys hold d. -/
def sget {β : Type} (d : β) (k : Nat) : List (Nat × β) → β
  | [] => d
  | (a, b) :: t => if a = k then b else sget d k t

/-- The sparse list with key k set to v: keys stay ascending, and a value equal to d is not listed. -/
def sput {β : Type} [DecidableEq β] (d : β) (k : Nat) (v : β) : List (Nat × β) → List (Nat × β)
  | [] => if v = d then [] else [(k, v)]
  | (a, b) :: t =>
    if k < a then (if v = d then (a, b) :: t else (k, v) :: (a, b) :: t)
    else if k = a then (if v = d then t else (k, v) :: t)
    else (a, b) :: sput d k v t

/-- A set of numbers, ascending, with k in it. -/
def insertNat (k : Nat) : List Nat → List Nat
  | [] => [k]
  | a :: t => if k < a then k :: a :: t else if k = a then a :: t else a :: insertNat k t

/-- A set of numbers without k. -/
def removeNat (k : Nat) (l : List Nat) : List Nat := l.filter (· != k)

/-- A set of bit numbers as a number. -/
def maskOf (l : List Nat) : Nat := l.foldl (fun a k => a ||| 1 <<< k) 0

/-- The bit numbers set in a number, among the lowest w. -/
def bitList (w v : Nat) : List Nat := (List.range w).filter (fun i => v.testBit i)

/-- The lowest number below n that is not in a list. -/
def lowestFree (n : Nat) (l : List Nat) : Option Nat := (List.range n).find? (fun i => !(l.contains i))

/-- n bytes, little-endian, as a number (R6). -/
def fromBytes : List (BitVec 8) → Nat
  | [] => 0
  | b :: t => b.toNat + 256 * fromBytes t

/-- A number as n bytes, little-endian (R6). -/
def toBytes : Nat → Nat → List (BitVec 8)
  | 0, _ => []
  | n + 1, v => BitVec.ofNat 8 v :: toBytes n (v / 256)

/-- The elements of a list for which p holds, changed by f. -/
def mapIf {α : Type} (p : α → Bool) (f : α → α) (l : List α) : List α := l.map fun x => if p x then f x else x

/-- A 32-bit counter one higher, with its WRAP bit (R219). -/
def wrapAdd (v n : Nat) : Nat × Bool := ((v + n) % 2 ^ 32, 2 ^ 32 ≤ v + n)

/-- Is a an older ordinal than b (R15)? -/
def older (a b : Nat) : Bool :=
  let d := (b + 2 ^ 32 - a % 2 ^ 32) % 2 ^ 32
  1 ≤ d && d ≤ 2 ^ 31 - 1

end Sys2Proof.Machine
end

