-- ==== Sys2Proof/Machine/RegTable.lean ====
section
/-!
DEFINITION. The register map: the blocks and their pages (R30, table Block page index) and every register of the
manual with its offset, fields, access types and reset values (R7, R8). A register marked `own` is held by a field of
State of its own; of the others the register file holds the RW and RWG fields, and RO fields are computed when read.
-/

set_option Elab.async false

namespace Sys2Proof.Machine

/-- Blocks (table Block page index). -/
inductive Blk where
  | sys | cpx | irq | wck | llt | clk | cal | lif | evr | thm | sup | vlk | trm | pcx | hce | lgr | xmt | rvr
  | bst | dmc | bcc | cst | asq | rwc | ldp | tpe | sve | spn | lsr | opt | psi | cip | cipu | kst | tru | dbg
deriving DecidableEq, Repr

/-- Pages of a block: base of instance 0, pages, stride of the instances, instances, block type, header source of
instance 0. -/
structure BlkRow where
  base   : Nat
  pages  : Nat
  stride : Nat
  insts  : Nat
  type_  : Nat
  hdr    : Nat
deriving DecidableEq, Repr

/-- The block page index (R30). -/
def Blk.row : Blk → BlkRow
  | .sys => ⟨0x40000000, 1, 0x0, 1, 0x001, 0⟩
  | .cpx => ⟨0x40001000, 1, 0x0, 1, 0x002, 1⟩
  | .irq => ⟨0x40002000, 1, 0x0, 1, 0x003, 2⟩
  | .wck => ⟨0x40010000, 1, 0x0, 1, 0x010, 3⟩
  | .llt => ⟨0x40011000, 1, 0x0, 1, 0x011, 4⟩
  | .clk => ⟨0x40012000, 2, 0x0, 1, 0x012, 5⟩
  | .cal => ⟨0x40014000, 1, 0x0, 1, 0x013, 6⟩
  | .lif => ⟨0x40015000, 1, 0x0, 1, 0x014, 7⟩
  | .evr => ⟨0x40016000, 1, 0x0, 1, 0x015, 8⟩
  | .thm => ⟨0x40017000, 1, 0x0, 1, 0x016, 9⟩
  | .sup => ⟨0x40018000, 1, 0x0, 1, 0x017, 10⟩
  | .vlk => ⟨0x40019000, 1, 0x0, 1, 0x018, 11⟩
  | .trm => ⟨0x40020000, 4, 0x0, 1, 0x019, 12⟩
  | .pcx => ⟨0x40030000, 4, 0x0, 1, 0x020, 13⟩
  | .hce => ⟨0x40040000, 8, 0x0, 1, 0x021, 14⟩
  | .lgr => ⟨0x40050000, 1, 0x0, 1, 0x030, 15⟩
  | .xmt => ⟨0x40051000, 1, 0x0, 1, 0x031, 16⟩
  | .rvr => ⟨0x40052000, 1, 0x0, 1, 0x032, 17⟩
  | .bst => ⟨0x40053000, 1, 0x0, 1, 0x033, 18⟩
  | .dmc => ⟨0x40060000, 4, 0x0, 1, 0x040, 19⟩
  | .bcc => ⟨0x40064000, 1, 0x0, 1, 0x041, 20⟩
  | .cst => ⟨0x40070000, 1, 0x0, 1, 0x050, 21⟩
  | .asq => ⟨0x40071000, 1, 0x1000, 4, 0x051, 22⟩
  | .rwc => ⟨0x40080000, 4, 0x4000, 4, 0x060, 26⟩
  | .ldp => ⟨0x40090000, 1, 0x0, 1, 0x061, 30⟩
  | .tpe => ⟨0x40091000, 1, 0x0, 1, 0x062, 31⟩
  | .sve => ⟨0x400A0000, 2, 0x2000, 5, 0x070, 32⟩
  | .spn => ⟨0x400B0000, 1, 0x0, 1, 0x071, 37⟩
  | .lsr => ⟨0x400B1000, 1, 0x0, 1, 0x072, 38⟩
  | .opt => ⟨0x400B2000, 1, 0x0, 1, 0x073, 39⟩
  | .psi => ⟨0x400B3000, 1, 0x0, 1, 0x074, 40⟩
  | .cip => ⟨0x400C0000, 1, 0x0, 1, 0x080, 41⟩
  | .cipu => ⟨0x400C1000, 1, 0x1000, 32, 0x081, 42⟩
  | .kst => ⟨0x400F0000, 1, 0x0, 1, 0x082, 74⟩
  | .tru => ⟨0x400F1000, 1, 0x0, 1, 0x083, 75⟩
  | .dbg => ⟨0x400F8000, 1, 0x0, 1, 0x090, 76⟩

/-- Every block, in the order of the block page index. -/
def Blk.all : List Blk :=
  [.sys, .cpx, .irq, .wck, .llt, .clk, .cal, .lif, .evr, .thm, .sup, .vlk, .trm, .pcx, .hce, .lgr, .xmt, .rvr,
   .bst, .dmc, .bcc, .cst, .asq, .rwc, .ldp, .tpe, .sve, .spn, .lsr, .opt, .psi, .cip, .cipu, .kst, .tru, .dbg]

/-- Access types (R7). -/
inductive Acc where
  | ro | rw | wo | w1c | w1s | rwg
deriving DecidableEq, Repr

/-- A field of a register: bits hi..lo, access type, reset value. -/
structure Fld where
  hi    : Nat
  lo    : Nat
  acc   : Acc
  reset : Nat
deriving DecidableEq, Repr

/-- A register or an array of registers: block, offset from the instance's first page, spacing, count, whether a field
of State of its own holds it, and its fields. -/
structure RegRow where
  blk   : Blk
  off   : Nat
  step  : Nat
  count : Nat
  own   : Bool
  flds  : List Fld
deriving DecidableEq, Repr

/-- The registers of the manual beyond the common page header. -/
inductive Reg where
  /-- SYS_BOOTSTAT (05, R92): STAGE [31:28], SLOT [27:26], ARES [23:16], BRES [15:8], BISTF [7:0] -/
  | bootstat
  /-- SYS_RSTCAUSE (05, R101): CAUSE [11:0] -/
  | rstcause
  /-- SYS_RDYCTL (05, R99): CLR [1], SET [0] -/
  | rdyctl
  /-- SYS_WDTCTL (05, R104): EN [31], PERIOD [15:0] -/
  | wdtctl
  /-- SYS_WDTKICK (05, R104): KICK [31:0] -/
  | wdtkick
  /-- SYS_PROFILE (19, R431): LOCK [31], PEND [27:16], ACTIVE [11:0] -/
  | profile
  /-- SYS_SRSEL (14, 14 On-chip arrays): ARRAY [9:0] -/
  | srsel
  /-- SYS_SRERR (14, 14 On-chip arrays): UE [31:24], CE [23:12], ROW [11:0] -/
  | srerr
  /-- SYS_RMAPCNT (14, R328): COUNT [8:0] -/
  | rmapcnt
  /-- CPX_TWIN_ADDRn (02, R42): INC [31], ADDR [16:2] -/
  | twinAddr
  /-- CPX_TWIN_DATAn (02, R42): DATA [31:0] -/
  | twinData
  /-- IRQ_PENDm (02, R38): PEND [31:0] -/
  | irqPend
  /-- IRQ_SWSET (02, R38): SRC [31:0] -/
  | irqSwset
  /-- IRQ_ROUTEk (02, R40): SEC [16], TCORE [15:12], ACORE [11:8], PRIO [3:0] -/
  | irqRoute
  /-- WCK_PSTATE (04, R76): PHASE [11:8], TARGET [7:4], STATE [3:0] -/
  | pstate
  /-- WCK_PREQ (04, R76): GO [8], TARGET [3:0] -/
  | preq
  /-- WCK_WAKEEN (04, R79): ON [9:7], EN [6:0] -/
  | wakeen
  /-- WCK_WAKESRC (04, R79): FROM [31:28], SRC [9:0] -/
  | wakesrc
  /-- WCK_WAKETIME0-1 (04, R79): TIME [31:0] -/
  | waketime
  /-- WCK_PDSTAT (04, R76): ON [21:0] -/
  | pdstat
  /-- WCK_PDOFF (04, R76): OFF [21:13] -/
  | pdoff
  /-- LLT_BOARD (04, R20): MW [23:0] -/
  | lltBoard
  /-- LLT_THERM (04, R89): MW [23:0] -/
  | lltTherm
  /-- LLT_LEASE (04, R413): VALID [31], MW [23:0] -/
  | lltLease
  /-- LLT_AVAIL (04, R20): MW [23:0] -/
  | lltAvail
  /-- LLT_GRANTED (04, R20): MW [23:0] -/
  | lltGranted
  /-- LLT_RSV (04, R21): EN [31], MW [23:0] -/
  | lltRsv
  /-- LLT_TFLOOR (04, R89): MW [23:0] -/
  | lltTfloor
  /-- LLT_NOW (04, 04 Budget registers): TICK [31:0] -/
  | lltNow
  /-- LLT_QDEPTH (04, 04 Budget registers): GRANTED [14:8], QUEUED [6:0] -/
  | lltQdepth
  /-- LLT_CLASSEN (04, 04 Budget registers): RSVOPEN [15], EN [10:0] -/
  | lltClassen
  /-- LLT_REQAp (04, R84): CLASS [31:28], PRIO [27:24], MW [23:0] -/
  | lltReqa
  /-- LLT_REQBp (04, R84): GO [31], INST [30:24], DL [23:16], DUR [15:0] -/
  | lltReqb
  /-- LLT_RESPp (04, R84): STATE [31:28], REASON [27:24], GEN [15:8], TICKET [6:0] -/
  | lltResp
  /-- LLT_RESPXp (04, R84): TICK [31:0] -/
  | lltRespx
  /-- LLT_OPp (04, R87): DUR [31:16], GEN [15:8], OP [7], TICKET [6:0] -/
  | lltOp
  /-- LLT_OPSTp (04, R87): ST [1:0] -/
  | lltOpst
  /-- LLT_TKTk word 0 (04, R84): STATE [31:28], CLASS [27:24], MW [23:0] -/
  | lltTkt0
  /-- LLT_TKTk word 1 (04, R84): TICK [31:0] -/
  | lltTkt1
  /-- CLK_PLLEN (04, R72): P [3], D [2], S [1], A [0] -/
  | pllen
  /-- CLK_PLLSTAT (04, R72): XO40OK [8], LOCKC [7:4], LOCK [3:0] -/
  | pllstat
  /-- CLK_DOMk (04, R72): ACTIVE [31], DIV [23:16], SRC [11:8], GATE [0] -/
  | clkDom
  /-- CAL_USEC (17, R396): USEC [19:0] -/
  | calUsec
  /-- CAL_SEC0-1 (17, R396): SEC [31:0] -/
  | calSec
  /-- CAL_STAT (17, R396): RCTIME [31], RCSINCE [30], SLEWING [29], SRC [26:24], ADJREM [23:0] -/
  | calStat
  /-- CAL_SETUSEC (17, R397): USEC [19:0] -/
  | calSetusec
  /-- CAL_SETSEC0 (17, R397): SEC [31:0] -/
  | calSetsec0
  /-- CAL_SETSEC1 (17, R397): SEC [15:0] -/
  | calSetsec1
  /-- CAL_CMD (17, R397): SRC [6:4], SET [0] -/
  | calCmd
  /-- CAL_ADJ (17, R397): GO [31], OFFSET [23:0] -/
  | calAdj
  /-- CAL_CFG (17, R397): SLEW [15:0] -/
  | calCfg
  /-- CAL_ALM0 (17, R399): SEC [31:0] -/
  | calAlm0
  /-- CAL_ALM1 (17, R399): EN [31], SEC [15:0] -/
  | calAlm1
  /-- LIF_SNAP (17, R395): SNAP [0] -/
  | lifSnap
  /-- LIF_SNAPT0-1 (17, R395): SEC [31:0] -/
  | lifSnapt
  /-- LIF_STAT (17, R394): OPEN [31], SAT [8:0] -/
  | lifStat
  /-- LIF_ADDLO (17, R394): LO [31:0] -/
  | lifAddlo
  /-- LIF_ADDHI (17, R394): HI [31:0] -/
  | lifAddhi
  /-- LIF_ADDGO (17, R394): GO [31], IDX [7:0] -/
  | lifAddgo
  /-- LIF_CMD (17, R394): SEAL [0] -/
  | lifCmd
  /-- LIF_SATj (17, R395): SAT [31:0] -/
  | lifSat
  /-- LIF_SHk (17, R395): VAL [31:0] -/
  | lifSh
  /-- EVR_NEXT0-1 (17, R388): NEXT [31:0] -/
  | evrNext
  /-- EVR_OLDEST0-1 (17, R388): OLDEST [31:0] -/
  | evrOldest
  /-- EVR_STAT (17, R388): OPEN [31], FLOOD [30], FILL [29], STAGED [26:16], FCOUNT [12:0] -/
  | evrStat
  /-- EVR_LOST (17, R385): LOST [31:0] -/
  | evrLost
  /-- EVR_CMD (17, R390): COMMIT [1], STORE [0] -/
  | evrCmd
  /-- EVR_BASE0-1 (17, R390): BASE [31:0] -/
  | evrBase
  /-- EVR_FLOODCFG (17, R387): ON [31:16], PERCODE [15:8] -/
  | evrFloodcfg
  /-- EVR_CUR0-1 (17, R388): CUR [31:0] -/
  | evrCur
  /-- EVR_WINSTAT (17, R388): DONE [31], RES [30:28], AREA [1:0] -/
  | evrWinstat
  /-- EVR_WINj (17, R388): WORD [31:0] -/
  | evrWin
  /-- EVR_SWEV (17, R389): GO [31], SRC [23:16], CODE [15:0] -/
  | evrSwev
  /-- EVR_SWPj (17, R389): P [31:0] -/
  | evrSwp
  /-- THM_MAX (16, R368): VALID [31], SENS [20:16], TEMP [11:0] -/
  | thmMax
  /-- THM_THR (16, R368): SHUT [31:24], THROT [23:16], WARN [15:8] -/
  | thmThr
  /-- THM_HYST (16, R368): SHUT [11:8], THROT [7:4], WARN [3:0] -/
  | thmHyst
  /-- THM_STATE (16, R368): SHUT [31], THROT [30], WARN [29], ARRAYFAIL [28], EXCL [23:0] -/
  | thmState
  /-- THM_XCHK (16, R367): XCHK [7:0] -/
  | thmXchk
  /-- THM_CMD (16, R372): CLREXCL [1], CLRSHUT [0] -/
  | thmCmd
  /-- THM_WICK (16, R373): VALID [31], TEMP [11:0] -/
  | thmWick
  /-- THM_SENSk (16, R366): VALID [31], EXCL [30], TEMP [11:0] -/
  | thmSens
  /-- SUP_PFCFG (16, R22): THR [31:16], FILT [15:0] -/
  | supPfcfg
  /-- VLK_CFG (18, R422): EN [31], ADMIT [30], ANY [29], TIMEEN [28], RELAY [27], DLY [23:16], LEASEMS [15:0] -/
  | vlkCfg
  /-- VLK_STAT (18, R422): LOCKED [31], HOLDOVER [30], ORPHAN [29], QUIET [28], INVUP [27], INVDN [26], ACTIVE [6:0] -/
  | vlkStat
  /-- VLK_NODE (18, R403): ENR [31], LANTERN [30], ROOT [29], ID [23:0] -/
  | vlkNode
  /-- VLK_FLOOR (18, R413): MW [23:0] -/
  | vlkFloor
  /-- VLK_LREQ (18, R415): MW [23:0] -/
  | vlkLreq
  /-- VLK_ORPHAN_SPINUP (18, R418): EN [31], BACKOFF [30:24], MW [23:0] -/
  | orphanSpinup
  /-- VLK_TIMEUS (18, R411): NS [29:0] -/
  | vlkTimeus
  /-- VLK_TIMESEC0-1 (18, R411): SEC [31:0] -/
  | vlkTimesec
  /-- VLK_CMD (18, R417): WAKE [31], ATTREQ [30], REMOVE [29], SLOT [5:0] -/
  | vlkCmd
  /-- VLK_EVFWD (18, R419): EN [15:0] -/
  | evfwd
  /-- VLK_SEGBUDGET (18, R414): MW [23:0] -/
  | segbudget
  /-- VLK_SEGRSV (18, R414): MW [23:0] -/
  | segrsv
  /-- VLK_AGGBASE (18, R419): ADDR [31:0] -/
  | aggbase
  /-- VLK_EVDROP (18, R419): CNT [31:0] -/
  | evdrop
  /-- VLK_IMGBASE (18, R420): ADDR [31:0] -/
  | imgbase
  /-- VLK_IMGCMD (18, R420): GO [31], ROUNDS [27:24], LEN [11:0] -/
  | imgcmd
  /-- VLK_ALLOW (18, R408): ADDR [31:0] -/
  | vlkAllow
  /-- VLK report address (18, R421): ADDR [31:0] -/
  | attrpt
  /-- VLK_LEDGERk (18, R414): WORD [31:0] -/
  | ledger
  /-- VLK counters (18, R219): CNT [31:0] -/
  | vlkPmon
  /-- VLK counter shadows (18, R219): CNT [31:0] -/
  | vlkPmonSh
  /-- VLK_PMON_WRAP (18, R219): WRAP [31:0] -/
  | vlkWrap
  /-- VLK_PMON_SNAP (18, R219): SNAP [0] -/
  | vlkSnap
  /-- VLK_PMON_CLR (18, R219): CLR [0] -/
  | vlkClr
  /-- TRM_CFG (16, R381): WGSETTLE [31:24], AGEMAX [23:16], CPER [15:8] -/
  | trmCfg
  /-- TRM_PEND (16, R381): PEND [4:0] -/
  | trmPend
  /-- TRM_TRIMt word 0 (16, R374): TARGET [27:16], CODE [11:0] -/
  | trmTrim0
  /-- TRM_TRIMt word 1 (16, R374): PRED [31:16], STEP [15:8], CLASS [3:0] -/
  | trmTrim1
  /-- TRM_COMPt word 0 (16, R374): AUTO [31], AUTOLIM [30:24], BASE [11:0] -/
  | trmComp0
  /-- TRM_COMPt word 1 (16, R374): C2 [31:16], C1 [15:0] -/
  | trmComp1
  /-- TRM_COMPt word 2 (16, R374): COMPEN [16], SENS [12:8], T0 [7:0] -/
  | trmComp2
  /-- TRM_COMPt word 3 (16, R374): AUTOTERM [31:16], COMPTERM [15:0] -/
  | trmComp3
  /-- TRM_STATt word 0 (16, R374): DEAD [31:16], REF [15:0] -/
  | trmStat0
  /-- TRM_STATt word 1 (16, R374): COUNT [31:16], STAT [15:0] -/
  | trmStat1
  /-- HCE_FETCHSTAT (06, R119): PAUSED [31], AGE [30], TAGS [29], LEDGER [28], TAGS_LIVE [26:14], RANGES_LIVE [13:0] -/
  | fetchstat
  /-- HCE_ABORTREQ (06, R130): GO [31], CTRL [30], SQID [24:16], CID [15:0] -/
  | abortreq
  /-- HCE_ABORTRES (06, R130): DONE [31], MATCHED [30], TAG [11:0] -/
  | abortres
  /-- LGR_ORDNEXT (07, R13): ORD [31:0] -/
  | ordnext
  /-- LGR_OLDEST (07, R15): ORD [31:0] -/
  | oldest
  /-- LGR_WIN (07, R148): GO [31], IDX [12:0] -/
  | lgrWin
  /-- LGR_WDATAj (07, R148): WORD [31:0] -/
  | lgrWdata
  /-- XMT_MCSIZE (07, R153): GIB [6:0] -/
  | mcsize
  /-- XMT_MCRUNS (07, R153): RUNS [22:0] -/
  | mcruns
  /-- XMT_MCUSED (07, R153): USED [22:0] -/
  | mcused
  /-- XMT_NSDOMk (07, R146): DOM [5:0] -/
  | nsdom
  /-- XMT_NSBASEk (07, R154): IDX [24:0] -/
  | nsbase
  /-- XMT_FRONTd (07, R156): F [31:0] -/
  | xmtFront
  /-- RVR_CFG (07, R161): HALFMIB [31:16], NDEV [1:0] -/
  | rvrCfg
  /-- RVR_STAT (07, R161): ARMED [31], COMMIT [30], REPLAY [29], HELD [28], ERASED [15:0] -/
  | rvrStat
  /-- RVR_GEN (07, R161): GEN [31:0] -/
  | rvrGen
  /-- RVR_CMD (07, R162): CMD [31:0] -/
  | rvrCmd
  /-- DMC_INIT (05, R98): DONE [31], BUSY [30], FAIL [29], GO [28], MIB [14:0] -/
  | dmcInit
  /-- DMC_CFG (14, R316): SIZE [31:16], DENS [2], RANKS [1:0] -/
  | dmcCfg
  /-- DMC_SCRUB (14, R324): EN [31], HOURS [23:16], PASSES [15:0] -/
  | dmcScrub
  /-- DMC_SCRUBPOS (14, R324): POS [26:0] -/
  | scrubpos
  /-- DMC_PPR0 (14, R326): GO [31], HARD [30], RANK [29], SUBCH [28], BG [27:25], BA [24:23], ROW [15:0] -/
  | ppr0
  /-- DMC_PPRRES (14, R326): DONE [31], RES [30:28] -/
  | pprres
  /-- DMC_REGATTRk word 0 (14, R318): EN [31], CODE [30:29], POL [28:27], BASE [13:0] -/
  | regattr0
  /-- DMC_REGATTRk word 1 (14, R318): NOSCRUB [31], LIMIT [13:0] -/
  | regattr1
  /-- DMC_SPLITCTL (14, R323): GO [31], WR [30], DONE [29] -/
  | splitctl
  /-- DMC_SPLITADDR (14, R323): ADDR [26:0] -/
  | splitaddr
  /-- DMC_SPLITDATAj (14, R323): WORD [31:0] -/
  | splitdata
  /-- DMC_SPLITCHKj (14, R323): WORD [31:0] -/
  | splitchk
  /-- DMC_ROWLOGi word 0 (14, R325): VALID [31], UE [30], RANK [29], SUBCH [28], DEV [27:24], BG [23:21], BA [20:19], ROW [15:0] -/
  | rowlog0
  /-- DMC_ROWLOGi word 1 (14, R325): HOURS [31:16], CE [15:0] -/
  | rowlog1
  /-- DMC_ROWLIM (14, R325): LIM [15:0] -/
  | rowlim
  /-- DMC_ROWCLR (14, R325): CLR [15:0] -/
  | rowclr
  /-- BCC_OPADDR0 (14, R334): ADDR [31:7] -/
  | opaddr0
  /-- BCC_OPADDR1 (14, R334): ADDR [7:0] -/
  | opaddr1
  /-- BCC_OPLINES (14, R334): LINES [23:0] -/
  | oplines
  /-- BCC_OPCMD (14, R334): GO [31], OP [3:0] -/
  | opcmd
  /-- BCC_OPRES (14, R334): DONE [31], RES [30:28], NFAIL [23:0] -/
  | opres
  /-- BCC_OPFAIL0-1 (14, R336): ADDR [31:0] -/
  | opfail
  /-- BCC_WAYDIS (14, R338): DIS [15:0] -/
  | waydis
  /-- BCC_LOCKINVAL_CNT (14, R337): CNT [31:0] -/
  | lockinval
  /-- BCC_FAILCFG (14, R338): WINDOW [31:24], CELIM [15:0] -/
  | failcfg
  /-- BCC_DIRTY (14, R332): DIRTY [17:0] -/
  | bccDirty
  /-- BCC_DRAINSET (14, R332): SET [12:0] -/
  | drainset
  /-- BCC_LOCKCNTw (14, R336): CNT [12:0] -/
  | lockcnt
  /-- BCC_WAYCEw (14, R338): CE [15:0] -/
  | wayce
  /-- CST_ROMVER (08, R435): ROMVER [31:16], DTAB [1:0] -/
  | romver
  /-- CST_PVER (08, R192): VER [31:16], SVN [15:8], LOADED [7], NMATCH [6:0] -/
  | pver
  /-- CST_OPENVER (08, R192): EN [31], LOADED [30], NWORDS [28:16], VER [15:0] -/
  | openver
  /-- CST_OPENCTL (08, R194): EN [0] -/
  | openctl
  /-- CST_ACT (08, R191): STATE [31:28], KIND [27], ARM [0] -/
  | cstAct
  /-- CST_ACTCFG (08, R191): HOLDMAX [9:0] -/
  | actcfg
  /-- CST_MATCHk (08, R189): EN [31], ROMADDR [30:16], POFF [10:0] -/
  | cstMatch
  /-- CST_DISPk (08, R188): VALID [31], OPEN [30], ADDR [15:0] -/
  | cstDisp
  /-- ASQn_STATE (08, R182): PHASE [31:28], PVALID [27], AVALID [26], INATOM [25], ABREQ [24], FLTREQ [23], OPENX [22], SP [19:16], PC [15:0] -/
  | asqState
  /-- ASQn_ATOMMAX (08, R179): US [9:0] -/
  | atommax
  /-- ASQn_ABORT (08, R185): GO [31], TAG [11:0] -/
  | asqAbort
  /-- ASQn_ABRES (08, R185): DONE [31], RES [1:0] -/
  | asqAbres
  /-- ASQn_LVTKT (08, R186): VALID [31], STATE [27:24], GEN [15:8], TICKET [6:0] -/
  | asqLvtkt
  /-- ASQn_RESPOP (08, R183): POP [0] -/
  | respop
  /-- ASQn_RESCNT (08, R183): COUNT [3:0] -/
  | rescnt
  /-- ASQn_RES0-3 (08, R184): WORD [31:0] -/
  | asqRes
  /-- ASQn_PTASKj (08, R182): WORD [31:0] -/
  | ptask
  /-- ASQn_PCMD (08, R182): CANCEL [1], COMMIT [0] -/
  | pcmd
  /-- ASQn_CMDRES (08, R182): RES [1:0] -/
  | cmdres
  /-- ASQn_ATASKj (08, R182): WORD [31:0] -/
  | atask
  /-- ASQn_HEADRET0-1 (19, R425): RET [31:0] -/
  | headret
  /-- RWCn_ZTBASE (09, R195): ADDR [31:5] -/
  | ztbase
  /-- RWCn_ASBASE (09, R215): ADDR [31:7] -/
  | asbase
  /-- RWCn_SMAPAT low (09, R197): PAT [31:0] -/
  | smapat0
  /-- RWCn_SMAPAT high (09, R197): PAT [7:0] -/
  | smapat1
  /-- RWCn_SMBPAT low (09, R197): PAT [31:0] -/
  | smbpat0
  /-- RWCn_SMBPAT high (09, R197): PAT [7:0] -/
  | smbpat1
  /-- RWCn_BLINDCFG (09, R210): LIMIT [6:0] -/
  | blindcfg
  /-- RWCn_CLKSTAT (09, R201): LOCKED [31], PRIMED [30], MISSRUN [29:28], FREQ [27:16], PHERR [7:0] -/
  | clkstat
  /-- RWCn_LASTSYNC (09, R210): OUTCOME [31:28], AOFF [27:22], BOFF [21:16], ADIST [15:12], BDIST [11:8] -/
  | lastsync
  /-- RWCn knob sets (09, R204): WORD [31:0] -/
  | knob
  /-- RWCn working adaptive state (09, R215): WORD [31:0] -/
  | rwcWork
  /-- RWCn counters (09, R219): CNT [31:0] -/
  | rwcPmon
  /-- RWCn counter shadows (09, R219): CNT [31:0] -/
  | rwcPmonSh
  /-- RWCn_PMON_WRAP (09, R219): WRAP [31:0] -/
  | rwcWrap
  /-- RWCn_PMON_SNAP (09, R219): SNAP [0] -/
  | rwcSnap
  /-- RWCn_PMON_CLR (09, R219): CLR [0] -/
  | rwcClr
  /-- RWCn_MSE (09, R215): AVG [31:16], SECT [15:0] -/
  | rwcMse
  /-- RWCn_HSMAh (09, R220): CNT [31:0] -/
  | hsma
  /-- LDP_CFG (10, R226): SQZQ [23:16], RECMAX [13:8], FPITER [5:0] -/
  | ldpCfg
  /-- LDP_BOOST (10, R228): EN [31], GEN [15:8], TICKET [6:0] -/
  | ldpBoost
  /-- LDP_STAT (10, R226): ACTIVE [31:28], RECACT [27:24], BOOSTED [23], SQUEEZED [22], SLOTS [21:15] -/
  | ldpStat
  /-- LDP_RSBASE (10, R229): ADDR [31:0] -/
  | rsbase
  /-- LDP_RSFREE (10, R229): FREE [31], SLOT [7:0] -/
  | rsfree
  /-- LDP_FFn word 0 (10, R229): TAG [31:20], HEAD [19:14], RV [8], RSLOT [7:0] -/
  | ff0
  /-- LDP_FFn word 1 (10, R229): CAUSE [31:24], TRACK [23:0] -/
  | ff1
  /-- LDP_FFn word 2 (10, R229): SYNW [31:16], SECTOR [15:0] -/
  | ff2
  /-- LDP_FFPOPn (10, R229): POP [0] -/
  | ffpop
  /-- LDP_FFCNT (10, R229): COUNTS [31:0] -/
  | ffcnt
  /-- LDP counters (10, R219): CNT [31:0] -/
  | ldpPmon
  /-- LDP counter shadows (10, R219): CNT [31:0] -/
  | ldpPmonSh
  /-- LDP_PMON_WRAP (10, R219): WRAP [31:0] -/
  | ldpWrap
  /-- LDP_PMON_SNAP (10, R219): SNAP [0] -/
  | ldpSnap
  /-- LDP_PMON_CLR (10, R219): CLR [0] -/
  | ldpClr
  /-- TPE_DLDIR (10, R237): ADDR [31:0] -/
  | dldir
  /-- TPE_DLOP (10, R237): GO [31], OP [30:28], SURF [5:0] -/
  | dlop
  /-- TPE_DLE0 (10, R237): ENTRY [31:0] -/
  | dle0
  /-- TPE_DLE1 (10, R237): ENTRY [31:0] -/
  | dle1
  /-- TPE_DLRES (10, R237): DONE [31], RES [30:28], INDEX [17:0] -/
  | dlres
  /-- TPE_GRPSTATn (10, R230): OPEN [31], MEMBERS [23:16], SIZE [15:8] -/
  | grpstat
  /-- SVEn_CFG (11, R248): RUN [31], PERIOD [15:0] -/
  | sveCfg
  /-- SVEn_STATE (11, R254): RUNNING [31], LOADED [30], SEEKING [29], SETTLED [28], ON_TRACK [27], HOLD [26], JUMP [25], RETRACT [24], MAFAULT [23], SHOCKIGN [22], STRIKES [15:12], WEDGE [8:0] -/
  | sveState
  /-- SVEn_SWAP (11, R248): GO [31], PEND [30], RES [29:28], REASON [19:16], ROW [8:0] -/
  | sveSwap
  /-- SVEn_LAT (11, R251): MAXLATE [31:16], STATIC [15:0] -/
  | sveLat
  /-- SVEn_PLCFG (11, R256): LOSS [31:28], MALOSS [27:24], IDWIN [23:16], SYNCTO [15:0] -/
  | plcfg
  /-- SVEn_WULIM (11, R256): TIGHT [31:16], LIM [15:0] -/
  | wulim
  /-- SVEn_SHOCK (11, R258): LIMIT [31:16], WARN [15:0] -/
  | shock
  /-- SVEn_RETRACT (11, R259): GO [31], TIME [23:16], BIAS [15:8], VCM [7:0] -/
  | retractReg
  /-- SVEn_SEEKCFG (11, R254): TIMEOUT [31:16], DONEWIN [15:8], PSCALE [3:0] -/
  | seekcfg
  /-- SVEn_MAILCMT (11, R249): CMT [0] -/
  | mailcmt
  /-- SVEn_DGBASE (11, R250): ADDR [31:3] -/
  | dgbase
  /-- SVEn_CADDR (11, R248): SEL [31], INC [30], IDX [9:0] -/
  | caddr
  /-- SVEn_CDATA (11, R248): COEF [15:0] -/
  | cdata
  /-- SVEn_SADDR (11, R248): IDX [7:0] -/
  | saddr
  /-- SVEn_SDATA (11, R248): WORD [15:0] -/
  | sdata
  /-- SVEn_TRCTL (11, R265): START [31], STOP [30], MODE [29:28], TRIG [27:24], POST [12:0] -/
  | trctl
  /-- SVEn_TRSTAT (11, R265): RUN [31], TRIGGERED [30], WRAPPED [29], TRIGIDX [25:13], NEXT [12:0] -/
  | trstat
  /-- SVEn_TRTHR (11, R265): THR [15:0] -/
  | trthr
  /-- SVEn_TRADDR (11, R265): INC [31], CH [14:13], IDX [12:0] -/
  | traddr
  /-- SVEn_TRDATA (11, R265): SAMPLE [15:0] -/
  | trdata
  /-- SVEn_HOLD (11, R261): SUMLO [31:16], HOLDMAX [8:0] -/
  | holdReg
  /-- SVEn_JUMP (11, R262): GO [31], AXIS [30], DIR [29], COUNT [23:16], BRAKE [15:8], KICK [7:0] -/
  | jumpReg
  /-- SVEn_FSWEEP0 (11, R263): START [31:16], END [15:0] -/
  | fsweep0
  /-- SVEn_FSWEEP1 (11, R263): GO [31], FSTATE [23:16], STEP [15:8], SUMON [7:0] -/
  | fsweep1
  /-- SVEn counters (11, R219): CNT [31:0] -/
  | svePmon
  /-- SVEn counter shadows (11, R219): CNT [31:0] -/
  | svePmonSh
  /-- SVEn_PMON_WRAP (11, R219): WRAP [31:0] -/
  | sveWrap
  /-- SVEn_PMON_SNAP (11, R219): SNAP [0] -/
  | sveSnap
  /-- SVEn_PMON_CLR (11, R219): CLR [0] -/
  | sveClr
  /-- SVEn_MAILk (11, R249): WORD [15:0] -/
  | sveMail
  /-- SVEn shadow rows (11, R248): WORD [31:0] -/
  | sveRow
  /-- SPN_CFG (12, R267): TARGET [31:16], BLANK [15:8], DEADT [7:0] -/
  | spnCfg
  /-- SPN_CMD (12, R275): CLRF [3], COAST [2], BRAKE [1], START [0] -/
  | spnCmd
  /-- SPN_STAT (12, R278): STATE [31:28], LOCKED [27], SWAPPED [26], SHIFT [25], CHOPON [24], CHOPFLT [23], LIMITED [22], SPINLV [21], UNLREQ [20], PRED [19:18], CAUSE [15:8], STEP [2:0] -/
  | spnStat
  /-- SPN_SPEED (12, R268): PERIOD [23:0] -/
  | spnSpeed
  /-- SPN_ILIM (12, R273): SPIN [31:16], RUN [15:0] -/
  | spnIlim
  /-- SPN_LEAVE (12, R275): EN [31], GEN [15:8], TICKET [6:0] -/
  | spnLeave
  /-- SPN_LOCKCFG (12, R268): WIN [31:26], MISS [25:23], RECMS [22:16], UNLOAD [15:8], RESUME [7:0] -/
  | lockcfg
  /-- SPN_PWMCFG (12, R271): SETTLE [31:24], CONV [23:16], SHIFTMAX [15:8], DUTYMAX [7:0] -/
  | pwmcfg
  /-- SPN_COMMk (12, R266): HI [4:3], LO [2:1], SLOPE [0] -/
  | spnComm
  /-- SPN_BRKCFG (12, R282): BRKSPD [31:24], CHOPIMIN [23:16], STOPMS [15:0] -/
  | brkcfg
  /-- LSR_PTBASE (12, R292): ADDR [31:4] -/
  | ptbase
  /-- LSR_PADDR word 0 (12, R292): DCADDR [28:16], BOOSTADDR [12:0] -/
  | paddr0
  /-- LSR_PADDR word 1 (12, R292): MONADDR [12:0] -/
  | paddr1
  /-- LSR_MONCFG (12, R294): MONPER [31:24], SETTLE [23:16], MONCNT [15:12] -/
  | moncfg
  /-- LSR_STBASE (12, R298): ADDR [31:4] -/
  | stbase
  /-- LSR_STATn (12, R295): LEVEL [31:30], ATPWR [29], FAULT [28], HEAD [27:22], MON [15:0] -/
  | lsrStat
  /-- LSR_CLRF (12, R295): CLRF [3:0] -/
  | lsrClrf
  /-- LSR_RDCODEn (12, R299): CODE [15:0] -/
  | rdcode
  /-- LSR_ONTIMEh (12, R296): SEC [31:0] -/
  | ontime
  /-- OPT_FMT (13, R303): NLAYER [31:30], AUPT [28:19], WPA [18:8] -/
  | optFmt
  /-- OPT_SEEKCFG (13, R312): JUMPMAX [31:24], SADLY [23:16] -/
  | optSeekcfg
  /-- OPT_SLED (13, R312): SLEDV [31:16], SLEDK [15:0] -/
  | optSled
  /-- OPT_WSUMK (13, R314): K [15:0] -/
  | wsumk
  /-- OPT_PUFn (13, R312): PRESENT [31], TFIRST [23:0] -/
  | puf
  /-- OPT_PULn (13, R312): TLAST [23:0] -/
  | pul
  /-- OPT_LAYk (13, R310): SA [31:16], FOFS [15:0] -/
  | optLay
  /-- OPT_ADDRn word 0 (13, R306): LAYER [31:30], TRACK [23:0] -/
  | optAddr0
  /-- OPT_ADDRn word 1 (13, R306): VALID [31], MISSRUN [30:28], UNIT [8:0] -/
  | optAddr1
  /-- OPT_STATn (13, R312): FOCUSED [31], LAYER [30:29], SEEK [28], SPHASE [27:26], SLEDS [3:0] -/
  | optStat
  /-- OPT_PMONk (13, R219): CNT [31:0] -/
  | optPmon
  /-- OPT_PMON shadows (13, R219): CNT [31:0] -/
  | optPmonSh
  /-- OPT_PMON_WRAP (13, R219): WRAP [31:0] -/
  | optWrap
  /-- OPT_PMON_SNAP (13, R219): SNAP [0] -/
  | optSnap
  /-- OPT_PMON_CLR (13, R219): CLR [0] -/
  | optClr
  /-- PSI_CFG (12, R289): SLOW [3:0] -/
  | psiCfg
  /-- PSI_WRMODE (12, R291): ADDR [28:16], WVAL [15:8], RVAL [7:0] -/
  | wrmode
  /-- PSI_FWCMDn (12, R290): GO [31], W [29], FRAME [28:0] -/
  | fwcmd
  /-- PSI_FWRESn (12, R290): DONE [31], ACK [30], DATA [15:0] -/
  | fwres
  /-- CIP_MODE (15, R352): PART [31] -/
  | cipMode
  /-- CIP_LOCK0-1 (15, R353): OPEN [31:0] -/
  | cipLock
  /-- CIP_NSKEYk (15, R349): ENC [31], SLOT [10:0] -/
  | nskey
  /-- CIP_USTAT (15, R353): OPEN [31], CRED [30], LOCKOUT [29], FAILS [3:0] -/
  | ustat
  /-- CIP_UNSMASK0-1 (15, R353): NS [31:0] -/
  | unsmask
  /-- KST_SLOTSEL (15, R347): SLOT [10:0] -/
  | slotsel
  /-- KST_SLOTATTR (15, R347): VALID [31], LOST [30], RETIRED [29], NS [28:23], USER [22:18], EPOCH [17:13] -/
  | slotattr
  /-- KST_SLOTUSE0-1 (15, R347): USE [31:0] -/
  | slotuse
  /-- KST_SLOTLIM0-1 (15, R347): LIMIT [31:0] -/
  | slotlim
  /-- KST_STAT (15, R347): L2PEND [31], ENCDIS [30], RESTORED [29], EPOCH [28:24], ALARMS [23:20], SLOTS [11:0] -/
  | kstStat
  /-- TRU_MBCMD (15, R363): GO [31], CMD [23:16] -/
  | mbcmd
  /-- TRU_MBADDR (15, R363): ADDR [31:0] -/
  | mbaddr
  /-- TRU_MBLEN (15, R363): LEN [19:0] -/
  | mblen
  /-- TRU_MBRES (15, R363): DONE [31], RES [26:24], LEN [19:0] -/
  | mbres
  /-- TRU_MEASm (15, R360): WORD [31:0] -/
  | truMeas
deriving DecidableEq, Repr

/-- The rows of the registers of each block, from the register tables of its chapter. -/
def Reg.row : Reg → RegRow
  | .bootstat => ⟨.sys, 0x40, 4, 1, false, [⟨31, 28, .ro, 0⟩, ⟨27, 26, .ro, 0⟩, ⟨23, 16, .ro, 0⟩, ⟨15, 8, .ro, 0⟩, ⟨7, 0, .ro, 0⟩]⟩
  | .rstcause => ⟨.sys, 0x44, 4, 1, false, [⟨11, 0, .ro, 0⟩]⟩
  | .rdyctl => ⟨.sys, 0x48, 4, 1, false, [⟨1, 1, .wo, 0⟩, ⟨0, 0, .wo, 0⟩]⟩
  | .wdtctl => ⟨.sys, 0x50, 4, 1, false, [⟨31, 31, .rwg, 0⟩, ⟨15, 0, .rwg, 0x3E8⟩]⟩
  | .wdtkick => ⟨.sys, 0x54, 4, 1, false, [⟨31, 0, .wo, 0⟩]⟩
  | .profile => ⟨.sys, 0x60, 4, 1, true, [⟨31, 31, .w1s, 0⟩, ⟨27, 16, .rwg, 0⟩, ⟨11, 0, .ro, 0⟩]⟩
  | .srsel => ⟨.sys, 0x80, 4, 1, false, [⟨9, 0, .rw, 0⟩]⟩
  | .srerr => ⟨.sys, 0x84, 4, 1, false, [⟨31, 24, .ro, 0⟩, ⟨23, 12, .ro, 0⟩, ⟨11, 0, .ro, 0⟩]⟩
  | .rmapcnt => ⟨.sys, 0x88, 4, 1, false, [⟨8, 0, .ro, 0⟩]⟩
  | .twinAddr => ⟨.cpx, 0x40, 16, 4, false, [⟨31, 31, .rw, 0⟩, ⟨16, 2, .rw, 0⟩]⟩
  | .twinData => ⟨.cpx, 0x44, 16, 4, true, [⟨31, 0, .rw, 0⟩]⟩
  | .irqPend => ⟨.irq, 0x40, 4, 16, false, [⟨31, 0, .ro, 0⟩]⟩
  | .irqSwset => ⟨.irq, 0x80, 4, 1, false, [⟨31, 0, .wo, 0⟩]⟩
  | .irqRoute => ⟨.irq, 0x800, 4, 512, false, [⟨16, 16, .rw, 0⟩, ⟨15, 12, .rw, 0⟩, ⟨11, 8, .rw, 0⟩, ⟨3, 0, .rw, 0⟩]⟩
  | .pstate => ⟨.wck, 0x40, 4, 1, false, [⟨11, 8, .ro, 0⟩, ⟨7, 4, .ro, 0⟩, ⟨3, 0, .ro, 0⟩]⟩
  | .preq => ⟨.wck, 0x44, 4, 1, false, [⟨8, 8, .wo, 0⟩, ⟨3, 0, .rwg, 0⟩]⟩
  | .wakeen => ⟨.wck, 0x48, 4, 1, false, [⟨9, 7, .ro, 0⟩, ⟨6, 0, .rw, 7⟩]⟩
  | .wakesrc => ⟨.wck, 0x4C, 4, 1, false, [⟨31, 28, .ro, 0⟩, ⟨9, 0, .ro, 0⟩]⟩
  | .waketime => ⟨.wck, 0x50, 4, 2, false, [⟨31, 0, .ro, 0⟩]⟩
  | .pdstat => ⟨.wck, 0x58, 4, 1, false, [⟨21, 0, .ro, 0⟩]⟩
  | .pdoff => ⟨.wck, 0x5C, 4, 1, false, [⟨21, 13, .rwg, 0⟩]⟩
  | .lltBoard => ⟨.llt, 0x40, 4, 1, false, [⟨23, 0, .rw, 0⟩]⟩
  | .lltTherm => ⟨.llt, 0x44, 4, 1, false, [⟨23, 0, .ro, 0⟩]⟩
  | .lltLease => ⟨.llt, 0x48, 4, 1, false, [⟨31, 31, .ro, 0⟩, ⟨23, 0, .ro, 0⟩]⟩
  | .lltAvail => ⟨.llt, 0x4C, 4, 1, false, [⟨23, 0, .ro, 0⟩]⟩
  | .lltGranted => ⟨.llt, 0x50, 4, 1, false, [⟨23, 0, .ro, 0⟩]⟩
  | .lltRsv => ⟨.llt, 0x54, 4, 1, false, [⟨31, 31, .rwg, 1⟩, ⟨23, 0, .rwg, 0xDAC⟩]⟩
  | .lltTfloor => ⟨.llt, 0x58, 4, 1, false, [⟨23, 0, .rw, 0⟩]⟩
  | .lltNow => ⟨.llt, 0x5C, 4, 1, false, [⟨31, 0, .ro, 0⟩]⟩
  | .lltQdepth => ⟨.llt, 0x60, 4, 1, false, [⟨14, 8, .ro, 0⟩, ⟨6, 0, .ro, 0⟩]⟩
  | .lltClassen => ⟨.llt, 0x64, 4, 1, false, [⟨15, 15, .ro, 0⟩, ⟨10, 0, .rw, 0x7FF⟩]⟩
  | .lltReqa => ⟨.llt, 0x100, 32, 16, false, [⟨31, 28, .rw, 0⟩, ⟨27, 24, .rw, 0⟩, ⟨23, 0, .rw, 0⟩]⟩
  | .lltReqb => ⟨.llt, 0x104, 32, 16, false, [⟨31, 31, .wo, 0⟩, ⟨30, 24, .rw, 0⟩, ⟨23, 16, .rw, 0⟩, ⟨15, 0, .rw, 0⟩]⟩
  | .lltResp => ⟨.llt, 0x108, 32, 16, false, [⟨31, 28, .ro, 0⟩, ⟨27, 24, .ro, 0⟩, ⟨15, 8, .ro, 0⟩, ⟨6, 0, .ro, 0⟩]⟩
  | .lltRespx => ⟨.llt, 0x10C, 32, 16, false, [⟨31, 0, .ro, 0⟩]⟩
  | .lltOp => ⟨.llt, 0x110, 32, 16, false, [⟨31, 16, .wo, 0⟩, ⟨15, 8, .wo, 0⟩, ⟨7, 7, .wo, 0⟩, ⟨6, 0, .wo, 0⟩]⟩
  | .lltOpst => ⟨.llt, 0x114, 32, 16, false, [⟨1, 0, .ro, 0⟩]⟩
  | .lltTkt0 => ⟨.llt, 0x400, 8, 128, false, [⟨31, 28, .ro, 0⟩, ⟨27, 24, .ro, 0⟩, ⟨23, 0, .ro, 0⟩]⟩
  | .lltTkt1 => ⟨.llt, 0x404, 8, 128, false, [⟨31, 0, .ro, 0⟩]⟩
  | .pllen => ⟨.clk, 0x40, 4, 1, false, [⟨3, 3, .rw, 0⟩, ⟨2, 2, .rw, 0⟩, ⟨1, 1, .rw, 0⟩, ⟨0, 0, .rw, 0⟩]⟩
  | .pllstat => ⟨.clk, 0x44, 4, 1, false, [⟨8, 8, .ro, 0⟩, ⟨7, 4, .ro, 0⟩, ⟨3, 0, .ro, 0⟩]⟩
  | .clkDom => ⟨.clk, 0x1000, 4, 64, false, [⟨31, 31, .ro, 0⟩, ⟨23, 16, .rw, 0⟩, ⟨11, 8, .rw, 0⟩, ⟨0, 0, .rw, 0⟩]⟩
  | .calUsec => ⟨.cal, 0x40, 4, 1, false, [⟨19, 0, .ro, 0⟩]⟩
  | .calSec => ⟨.cal, 0x44, 4, 2, false, [⟨31, 0, .ro, 0⟩]⟩
  | .calStat => ⟨.cal, 0x4C, 4, 1, false, [⟨31, 31, .ro, 0⟩, ⟨30, 30, .ro, 0⟩, ⟨29, 29, .ro, 0⟩, ⟨26, 24, .ro, 0⟩, ⟨23, 0, .ro, 0⟩]⟩
  | .calSetusec => ⟨.cal, 0x50, 4, 1, false, [⟨19, 0, .rwg, 0⟩]⟩
  | .calSetsec0 => ⟨.cal, 0x54, 4, 1, false, [⟨31, 0, .rwg, 0⟩]⟩
  | .calSetsec1 => ⟨.cal, 0x58, 4, 1, false, [⟨15, 0, .rwg, 0⟩]⟩
  | .calCmd => ⟨.cal, 0x5C, 4, 1, false, [⟨6, 4, .wo, 0⟩, ⟨0, 0, .wo, 0⟩]⟩
  | .calAdj => ⟨.cal, 0x60, 4, 1, false, [⟨31, 31, .wo, 0⟩, ⟨23, 0, .rw, 0⟩]⟩
  | .calCfg => ⟨.cal, 0x68, 4, 1, false, [⟨15, 0, .rw, 0xC8⟩]⟩
  | .calAlm0 => ⟨.cal, 0x70, 4, 1, false, [⟨31, 0, .rw, 0⟩]⟩
  | .calAlm1 => ⟨.cal, 0x74, 4, 1, false, [⟨31, 31, .rw, 0⟩, ⟨15, 0, .rw, 0⟩]⟩
  | .lifSnap => ⟨.lif, 0x40, 4, 1, false, [⟨0, 0, .wo, 0⟩]⟩
  | .lifSnapt => ⟨.lif, 0x44, 4, 2, false, [⟨31, 0, .ro, 0⟩]⟩
  | .lifStat => ⟨.lif, 0x4C, 4, 1, false, [⟨31, 31, .ro, 0⟩, ⟨8, 0, .ro, 0⟩]⟩
  | .lifAddlo => ⟨.lif, 0x50, 4, 1, false, [⟨31, 0, .rw, 0⟩]⟩
  | .lifAddhi => ⟨.lif, 0x54, 4, 1, false, [⟨31, 0, .rw, 0⟩]⟩
  | .lifAddgo => ⟨.lif, 0x58, 4, 1, false, [⟨31, 31, .wo, 0⟩, ⟨7, 0, .wo, 0⟩]⟩
  | .lifCmd => ⟨.lif, 0x5C, 4, 1, false, [⟨0, 0, .wo, 0⟩]⟩
  | .lifSat => ⟨.lif, 0x60, 4, 8, false, [⟨31, 0, .ro, 0⟩]⟩
  | .lifSh => ⟨.lif, 0x800, 4, 512, false, [⟨31, 0, .ro, 0⟩]⟩
  | .evrNext => ⟨.evr, 0x40, 4, 2, false, [⟨31, 0, .ro, 0⟩]⟩
  | .evrOldest => ⟨.evr, 0x48, 4, 2, false, [⟨31, 0, .ro, 0⟩]⟩
  | .evrStat => ⟨.evr, 0x50, 4, 1, false, [⟨31, 31, .ro, 0⟩, ⟨30, 30, .ro, 0⟩, ⟨29, 29, .ro, 0⟩, ⟨26, 16, .ro, 0⟩, ⟨12, 0, .ro, 0⟩]⟩
  | .evrLost => ⟨.evr, 0x54, 4, 1, false, [⟨31, 0, .ro, 0⟩]⟩
  | .evrCmd => ⟨.evr, 0x58, 4, 1, false, [⟨1, 1, .wo, 0⟩, ⟨0, 0, .wo, 0⟩]⟩
  | .evrBase => ⟨.evr, 0x60, 4, 2, true, [⟨31, 0, .rwg, 0⟩]⟩
  | .evrFloodcfg => ⟨.evr, 0x68, 4, 1, false, [⟨31, 16, .rwg, 0x400⟩, ⟨15, 8, .rwg, 0x40⟩]⟩
  | .evrCur => ⟨.evr, 0x70, 4, 2, true, [⟨31, 0, .rw, 0⟩]⟩
  | .evrWinstat => ⟨.evr, 0x78, 4, 1, false, [⟨31, 31, .ro, 0⟩, ⟨30, 28, .ro, 0⟩, ⟨1, 0, .ro, 0⟩]⟩
  | .evrWin => ⟨.evr, 0x80, 4, 8, true, [⟨31, 0, .rw, 0⟩]⟩
  | .evrSwev => ⟨.evr, 0xA0, 4, 1, false, [⟨31, 31, .wo, 0⟩, ⟨23, 16, .rw, 0⟩, ⟨15, 0, .rw, 0⟩]⟩
  | .evrSwp => ⟨.evr, 0xA4, 4, 3, false, [⟨31, 0, .rw, 0⟩]⟩
  | .thmMax => ⟨.thm, 0x40, 4, 1, false, [⟨31, 31, .ro, 0⟩, ⟨20, 16, .ro, 0⟩, ⟨11, 0, .ro, 0⟩]⟩
  | .thmThr => ⟨.thm, 0x44, 4, 1, false, [⟨31, 24, .rwg, 0x70⟩, ⟨23, 16, .rwg, 0x64⟩, ⟨15, 8, .rwg, 0x5F⟩]⟩
  | .thmHyst => ⟨.thm, 0x48, 4, 1, false, [⟨11, 8, .rwg, 5⟩, ⟨7, 4, .rwg, 3⟩, ⟨3, 0, .rwg, 3⟩]⟩
  | .thmState => ⟨.thm, 0x4C, 4, 1, false, [⟨31, 31, .ro, 0⟩, ⟨30, 30, .ro, 0⟩, ⟨29, 29, .ro, 0⟩, ⟨28, 28, .ro, 0⟩, ⟨23, 0, .ro, 0⟩]⟩
  | .thmXchk => ⟨.thm, 0x50, 4, 1, false, [⟨7, 0, .rwg, 0xF⟩]⟩
  | .thmCmd => ⟨.thm, 0x54, 4, 1, false, [⟨1, 1, .wo, 0⟩, ⟨0, 0, .wo, 0⟩]⟩
  | .thmWick => ⟨.thm, 0x58, 4, 1, false, [⟨31, 31, .ro, 0⟩, ⟨11, 0, .ro, 0⟩]⟩
  | .thmSens => ⟨.thm, 0x100, 4, 24, false, [⟨31, 31, .ro, 0⟩, ⟨30, 30, .ro, 0⟩, ⟨11, 0, .ro, 0⟩]⟩
  | .supPfcfg => ⟨.sup, 0x40, 4, 1, false, [⟨31, 16, .rwg, 0x2A30⟩, ⟨15, 0, .rwg, 0x7D0⟩]⟩
  | .vlkCfg => ⟨.vlk, 0x40, 4, 1, false, [⟨31, 31, .rwg, 0⟩, ⟨30, 30, .rwg, 0⟩, ⟨29, 29, .rwg, 0⟩, ⟨28, 28, .rwg, 0⟩, ⟨27, 27, .rwg, 0⟩, ⟨23, 16, .rwg, 0x1E⟩, ⟨15, 0, .rwg, 0x7D0⟩]⟩
  | .vlkStat => ⟨.vlk, 0x44, 4, 1, false, [⟨31, 31, .ro, 0⟩, ⟨30, 30, .ro, 0⟩, ⟨29, 29, .ro, 0⟩, ⟨28, 28, .ro, 0⟩, ⟨27, 27, .ro, 0⟩, ⟨26, 26, .ro, 0⟩, ⟨6, 0, .ro, 0⟩]⟩
  | .vlkNode => ⟨.vlk, 0x48, 4, 1, true, [⟨31, 31, .ro, 0⟩, ⟨30, 30, .ro, 0⟩, ⟨29, 29, .rwg, 0⟩, ⟨23, 0, .rwg, 0⟩]⟩
  | .vlkFloor => ⟨.vlk, 0x4C, 4, 1, false, [⟨23, 0, .rw, 0⟩]⟩
  | .vlkLreq => ⟨.vlk, 0x50, 4, 1, true, [⟨23, 0, .rw, 0⟩]⟩
  | .orphanSpinup => ⟨.vlk, 0x54, 4, 1, false, [⟨31, 31, .rwg, 0⟩, ⟨30, 24, .rwg, 0x3C⟩, ⟨23, 0, .rwg, 0⟩]⟩
  | .vlkTimeus => ⟨.vlk, 0x58, 4, 1, false, [⟨29, 0, .ro, 0⟩]⟩
  | .vlkTimesec => ⟨.vlk, 0x5C, 4, 2, false, [⟨31, 0, .ro, 0⟩]⟩
  | .vlkCmd => ⟨.vlk, 0x64, 4, 1, false, [⟨31, 31, .wo, 0⟩, ⟨30, 30, .wo, 0⟩, ⟨29, 29, .wo, 0⟩, ⟨5, 0, .wo, 0⟩]⟩
  | .evfwd => ⟨.vlk, 0x68, 4, 1, false, [⟨15, 0, .rw, 0xF800⟩]⟩
  | .segbudget => ⟨.vlk, 0x6C, 4, 1, true, [⟨23, 0, .rwg, 0⟩]⟩
  | .segrsv => ⟨.vlk, 0x70, 4, 1, false, [⟨23, 0, .rwg, 0⟩]⟩
  | .aggbase => ⟨.vlk, 0x74, 4, 1, false, [⟨31, 0, .rwg, 0⟩]⟩
  | .evdrop => ⟨.vlk, 0x78, 4, 1, false, [⟨31, 0, .ro, 0⟩]⟩
  | .imgbase => ⟨.vlk, 0x80, 4, 1, false, [⟨31, 0, .rwg, 0⟩]⟩
  | .imgcmd => ⟨.vlk, 0x84, 4, 1, false, [⟨31, 31, .wo, 0⟩, ⟨27, 24, .rw, 4⟩, ⟨11, 0, .rw, 0⟩]⟩
  | .vlkAllow => ⟨.vlk, 0x88, 4, 1, false, [⟨31, 0, .rwg, 0⟩]⟩
  | .attrpt => ⟨.vlk, 0x8C, 4, 1, false, [⟨31, 0, .rwg, 0⟩]⟩
  | .ledger => ⟨.vlk, 0x100, 4, 256, false, [⟨31, 0, .ro, 0⟩]⟩
  | .vlkPmon => ⟨.vlk, 0x600, 4, 8, false, [⟨31, 0, .ro, 0⟩]⟩
  | .vlkPmonSh => ⟨.vlk, 0x620, 4, 8, false, [⟨31, 0, .ro, 0⟩]⟩
  | .vlkWrap => ⟨.vlk, 0x640, 4, 1, true, [⟨31, 0, .w1c, 0⟩]⟩
  | .vlkSnap => ⟨.vlk, 0x644, 4, 1, false, [⟨0, 0, .wo, 0⟩]⟩
  | .vlkClr => ⟨.vlk, 0x648, 4, 1, false, [⟨0, 0, .wo, 0⟩]⟩
  | .trmCfg => ⟨.trm, 0x40, 4, 1, false, [⟨31, 24, .rwg, 0x14⟩, ⟨23, 16, .rw, 0xA⟩, ⟨15, 8, .rw, 0xA⟩]⟩
  | .trmPend => ⟨.trm, 0x44, 4, 1, false, [⟨4, 0, .ro, 0⟩]⟩
  | .trmTrim0 => ⟨.trm, 0x1000, 8, 137, false, [⟨27, 16, .ro, 0⟩, ⟨11, 0, .ro, 0⟩]⟩
  | .trmTrim1 => ⟨.trm, 0x1004, 8, 137, false, [⟨31, 16, .rwg, 0⟩, ⟨15, 8, .rwg, 1⟩, ⟨3, 0, .ro, 0⟩]⟩
  | .trmComp0 => ⟨.trm, 0x2000, 16, 137, false, [⟨31, 31, .rw, 0⟩, ⟨30, 24, .rw, 0x10⟩, ⟨11, 0, .rw, 0⟩]⟩
  | .trmComp1 => ⟨.trm, 0x2004, 16, 137, false, [⟨31, 16, .rwg, 0⟩, ⟨15, 0, .rwg, 0⟩]⟩
  | .trmComp2 => ⟨.trm, 0x2008, 16, 137, false, [⟨16, 16, .rwg, 0⟩, ⟨12, 8, .rwg, 0⟩, ⟨7, 0, .rwg, 0⟩]⟩
  | .trmComp3 => ⟨.trm, 0x200C, 16, 137, false, [⟨31, 16, .ro, 0⟩, ⟨15, 0, .ro, 0⟩]⟩
  | .trmStat0 => ⟨.trm, 0x3000, 8, 137, false, [⟨31, 16, .rw, 0⟩, ⟨15, 0, .rw, 0⟩]⟩
  | .trmStat1 => ⟨.trm, 0x3004, 8, 137, false, [⟨31, 16, .ro, 0⟩, ⟨15, 0, .ro, 0⟩]⟩
  | .fetchstat => ⟨.hce, 0x40, 4, 1, false, [⟨31, 31, .ro, 0⟩, ⟨30, 30, .ro, 0⟩, ⟨29, 29, .ro, 0⟩, ⟨28, 28, .ro, 0⟩, ⟨26, 14, .ro, 0⟩, ⟨13, 0, .ro, 0⟩]⟩
  | .abortreq => ⟨.hce, 0x48, 4, 1, false, [⟨31, 31, .wo, 0⟩, ⟨30, 30, .rw, 0⟩, ⟨24, 16, .rw, 0⟩, ⟨15, 0, .rw, 0⟩]⟩
  | .abortres => ⟨.hce, 0x4C, 4, 1, false, [⟨31, 31, .ro, 0⟩, ⟨30, 30, .ro, 0⟩, ⟨11, 0, .ro, 0⟩]⟩
  | .ordnext => ⟨.lgr, 0x40, 4, 1, false, [⟨31, 0, .ro, 0⟩]⟩
  | .oldest => ⟨.lgr, 0x44, 4, 1, false, [⟨31, 0, .ro, 0⟩]⟩
  | .lgrWin => ⟨.lgr, 0x48, 4, 1, false, [⟨31, 31, .wo, 0⟩, ⟨12, 0, .rw, 0⟩]⟩
  | .lgrWdata => ⟨.lgr, 0x50, 4, 8, false, [⟨31, 0, .ro, 0⟩]⟩
  | .mcsize => ⟨.xmt, 0x40, 4, 1, false, [⟨6, 0, .rwg, 0⟩]⟩
  | .mcruns => ⟨.xmt, 0x44, 4, 1, false, [⟨22, 0, .rwg, 0⟩]⟩
  | .mcused => ⟨.xmt, 0x48, 4, 1, false, [⟨22, 0, .ro, 0⟩]⟩
  | .nsdom => ⟨.xmt, 0x100, 4, 64, false, [⟨5, 0, .rwg, 0⟩]⟩
  | .nsbase => ⟨.xmt, 0x200, 4, 64, false, [⟨24, 0, .rwg, 0⟩]⟩
  | .xmtFront => ⟨.xmt, 0x300, 4, 64, false, [⟨31, 0, .ro, 0⟩]⟩
  | .rvrCfg => ⟨.rvr, 0x40, 4, 1, false, [⟨31, 16, .rwg, 0⟩, ⟨1, 0, .rwg, 0⟩]⟩
  | .rvrStat => ⟨.rvr, 0x44, 4, 1, false, [⟨31, 31, .ro, 0⟩, ⟨30, 30, .ro, 0⟩, ⟨29, 29, .ro, 0⟩, ⟨28, 28, .ro, 0⟩, ⟨15, 0, .ro, 0⟩]⟩
  | .rvrGen => ⟨.rvr, 0x48, 4, 1, false, [⟨31, 0, .ro, 0⟩]⟩
  | .rvrCmd => ⟨.rvr, 0x4C, 4, 1, false, [⟨31, 0, .wo, 0⟩]⟩
  | .dmcInit => ⟨.dmc, 0x40, 4, 1, false, [⟨31, 31, .ro, 0⟩, ⟨30, 30, .ro, 0⟩, ⟨29, 29, .ro, 0⟩, ⟨28, 28, .wo, 0⟩, ⟨14, 0, .ro, 0⟩]⟩
  | .dmcCfg => ⟨.dmc, 0x44, 4, 1, false, [⟨31, 16, .ro, 0⟩, ⟨2, 2, .rwg, 0⟩, ⟨1, 0, .rwg, 1⟩]⟩
  | .dmcScrub => ⟨.dmc, 0x48, 4, 1, false, [⟨31, 31, .rw, 0⟩, ⟨23, 16, .rw, 0x18⟩, ⟨15, 0, .ro, 0⟩]⟩
  | .scrubpos => ⟨.dmc, 0x4C, 4, 1, false, [⟨26, 0, .ro, 0⟩]⟩
  | .ppr0 => ⟨.dmc, 0x58, 4, 1, false, [⟨31, 31, .wo, 0⟩, ⟨30, 30, .rwg, 0⟩, ⟨29, 29, .rwg, 0⟩, ⟨28, 28, .rwg, 0⟩, ⟨27, 25, .rwg, 0⟩, ⟨24, 23, .rwg, 0⟩, ⟨15, 0, .rwg, 0⟩]⟩
  | .pprres => ⟨.dmc, 0x60, 4, 1, false, [⟨31, 31, .ro, 0⟩, ⟨30, 28, .ro, 0⟩]⟩
  | .regattr0 => ⟨.dmc, 0x100, 8, 16, false, [⟨31, 31, .rwg, 0⟩, ⟨30, 29, .rwg, 0⟩, ⟨28, 27, .rwg, 0⟩, ⟨13, 0, .rwg, 0⟩]⟩
  | .regattr1 => ⟨.dmc, 0x104, 8, 16, false, [⟨31, 31, .rwg, 0⟩, ⟨13, 0, .rwg, 0⟩]⟩
  | .splitctl => ⟨.dmc, 0x1000, 4, 1, false, [⟨31, 31, .wo, 0⟩, ⟨30, 30, .rwg, 0⟩, ⟨29, 29, .ro, 0⟩]⟩
  | .splitaddr => ⟨.dmc, 0x1004, 4, 1, false, [⟨26, 0, .rwg, 0⟩]⟩
  | .splitdata => ⟨.dmc, 0x1040, 4, 32, false, [⟨31, 0, .rw, 0⟩]⟩
  | .splitchk => ⟨.dmc, 0x10C0, 4, 8, false, [⟨31, 0, .rw, 0⟩]⟩
  | .rowlog0 => ⟨.dmc, 0x2000, 8, 16, false, [⟨31, 31, .ro, 0⟩, ⟨30, 30, .ro, 0⟩, ⟨29, 29, .ro, 0⟩, ⟨28, 28, .ro, 0⟩, ⟨27, 24, .ro, 0⟩, ⟨23, 21, .ro, 0⟩, ⟨20, 19, .ro, 0⟩, ⟨15, 0, .ro, 0⟩]⟩
  | .rowlog1 => ⟨.dmc, 0x2004, 8, 16, false, [⟨31, 16, .ro, 0⟩, ⟨15, 0, .ro, 0⟩]⟩
  | .rowlim => ⟨.dmc, 0x2100, 4, 1, false, [⟨15, 0, .rw, 8⟩]⟩
  | .rowclr => ⟨.dmc, 0x2104, 4, 1, false, [⟨15, 0, .wo, 0⟩]⟩
  | .opaddr0 => ⟨.bcc, 0x40, 4, 1, false, [⟨31, 7, .rw, 0⟩]⟩
  | .opaddr1 => ⟨.bcc, 0x44, 4, 1, false, [⟨7, 0, .rw, 0⟩]⟩
  | .oplines => ⟨.bcc, 0x48, 4, 1, false, [⟨23, 0, .rw, 0⟩]⟩
  | .opcmd => ⟨.bcc, 0x4C, 4, 1, false, [⟨31, 31, .wo, 0⟩, ⟨3, 0, .rw, 0⟩]⟩
  | .opres => ⟨.bcc, 0x50, 4, 1, false, [⟨31, 31, .ro, 0⟩, ⟨30, 28, .ro, 0⟩, ⟨23, 0, .ro, 0⟩]⟩
  | .opfail => ⟨.bcc, 0x54, 4, 2, false, [⟨31, 0, .ro, 0⟩]⟩
  | .waydis => ⟨.bcc, 0x5C, 4, 1, false, [⟨15, 0, .ro, 0⟩]⟩
  | .lockinval => ⟨.bcc, 0x60, 4, 1, false, [⟨31, 0, .ro, 0⟩]⟩
  | .failcfg => ⟨.bcc, 0x64, 4, 1, false, [⟨31, 24, .rwg, 0x18⟩, ⟨15, 0, .rwg, 0x20⟩]⟩
  | .bccDirty => ⟨.bcc, 0x68, 4, 1, false, [⟨17, 0, .ro, 0⟩]⟩
  | .drainset => ⟨.bcc, 0x6C, 4, 1, false, [⟨12, 0, .ro, 0⟩]⟩
  | .lockcnt => ⟨.bcc, 0x70, 4, 12, false, [⟨12, 0, .ro, 0⟩]⟩
  | .wayce => ⟨.bcc, 0xA0, 4, 16, false, [⟨15, 0, .ro, 0⟩]⟩
  | .romver => ⟨.cst, 0x40, 4, 1, false, [⟨31, 16, .ro, 0⟩, ⟨1, 0, .ro, 0⟩]⟩
  | .pver => ⟨.cst, 0x44, 4, 1, false, [⟨31, 16, .ro, 0⟩, ⟨15, 8, .ro, 0⟩, ⟨7, 7, .ro, 0⟩, ⟨6, 0, .ro, 0⟩]⟩
  | .openver => ⟨.cst, 0x48, 4, 1, false, [⟨31, 31, .ro, 0⟩, ⟨30, 30, .ro, 0⟩, ⟨28, 16, .ro, 0⟩, ⟨15, 0, .ro, 0⟩]⟩
  | .openctl => ⟨.cst, 0x4C, 4, 1, true, [⟨0, 0, .rw, 0⟩]⟩
  | .cstAct => ⟨.cst, 0x50, 4, 1, false, [⟨31, 28, .ro, 0⟩, ⟨27, 27, .ro, 0⟩, ⟨0, 0, .wo, 0⟩]⟩
  | .actcfg => ⟨.cst, 0x54, 4, 1, false, [⟨9, 0, .rw, 0x32⟩]⟩
  | .cstMatch => ⟨.cst, 0x400, 4, 64, false, [⟨31, 31, .ro, 0⟩, ⟨30, 16, .ro, 0⟩, ⟨10, 0, .ro, 0⟩]⟩
  | .cstDisp => ⟨.cst, 0x800, 4, 256, false, [⟨31, 31, .ro, 0⟩, ⟨30, 30, .ro, 0⟩, ⟨15, 0, .ro, 0⟩]⟩
  | .asqState => ⟨.asq, 0x40, 4, 1, false, [⟨31, 28, .ro, 0⟩, ⟨27, 27, .ro, 0⟩, ⟨26, 26, .ro, 0⟩, ⟨25, 25, .ro, 0⟩, ⟨24, 24, .ro, 0⟩, ⟨23, 23, .ro, 0⟩, ⟨22, 22, .ro, 0⟩, ⟨19, 16, .ro, 0⟩, ⟨15, 0, .ro, 0⟩]⟩
  | .atommax => ⟨.asq, 0x44, 4, 1, false, [⟨9, 0, .rw, 0x40⟩]⟩
  | .asqAbort => ⟨.asq, 0x48, 4, 1, false, [⟨31, 31, .wo, 0⟩, ⟨11, 0, .wo, 0⟩]⟩
  | .asqAbres => ⟨.asq, 0x4C, 4, 1, false, [⟨31, 31, .ro, 0⟩, ⟨1, 0, .ro, 0⟩]⟩
  | .asqLvtkt => ⟨.asq, 0x50, 4, 1, false, [⟨31, 31, .ro, 0⟩, ⟨27, 24, .ro, 0⟩, ⟨15, 8, .ro, 0⟩, ⟨6, 0, .ro, 0⟩]⟩
  | .respop => ⟨.asq, 0x58, 4, 1, false, [⟨0, 0, .wo, 0⟩]⟩
  | .rescnt => ⟨.asq, 0x5C, 4, 1, false, [⟨3, 0, .ro, 0⟩]⟩
  | .asqRes => ⟨.asq, 0x60, 4, 4, false, [⟨31, 0, .ro, 0⟩]⟩
  | .ptask => ⟨.asq, 0x80, 4, 12, true, [⟨31, 0, .rw, 0⟩]⟩
  | .pcmd => ⟨.asq, 0xB0, 4, 1, false, [⟨1, 1, .wo, 0⟩, ⟨0, 0, .wo, 0⟩]⟩
  | .cmdres => ⟨.asq, 0xB4, 4, 1, false, [⟨1, 0, .ro, 0⟩]⟩
  | .atask => ⟨.asq, 0xC0, 4, 12, false, [⟨31, 0, .ro, 0⟩]⟩
  | .headret => ⟨.asq, 0xF0, 4, 2, true, [⟨31, 0, .w1s, 0⟩]⟩
  | .ztbase => ⟨.rwc, 0x40, 4, 1, false, [⟨31, 5, .rwg, 0⟩]⟩
  | .asbase => ⟨.rwc, 0x44, 4, 1, false, [⟨31, 7, .rwg, 0⟩]⟩
  | .smapat0 => ⟨.rwc, 0x50, 4, 1, false, [⟨31, 0, .rwg, 0x5A2C9B61⟩]⟩
  | .smapat1 => ⟨.rwc, 0x54, 4, 1, false, [⟨7, 0, .rwg, 0xF3⟩]⟩
  | .smbpat0 => ⟨.rwc, 0x58, 4, 1, false, [⟨31, 0, .rwg, 0xA5D3649E⟩]⟩
  | .smbpat1 => ⟨.rwc, 0x5C, 4, 1, false, [⟨7, 0, .rwg, 0xC⟩]⟩
  | .blindcfg => ⟨.rwc, 0x60, 4, 1, false, [⟨6, 0, .rw, 0x1E⟩]⟩
  | .clkstat => ⟨.rwc, 0x64, 4, 1, false, [⟨31, 31, .ro, 0⟩, ⟨30, 30, .ro, 0⟩, ⟨29, 28, .ro, 0⟩, ⟨27, 16, .ro, 0⟩, ⟨7, 0, .ro, 0⟩]⟩
  | .lastsync => ⟨.rwc, 0x6C, 4, 1, false, [⟨31, 28, .ro, 0⟩, ⟨27, 22, .ro, 0⟩, ⟨21, 16, .ro, 0⟩, ⟨15, 12, .ro, 0⟩, ⟨11, 8, .ro, 0⟩]⟩
  | .knob => ⟨.rwc, 0x1000, 4, 1024, false, [⟨31, 0, .rw, 0⟩]⟩
  | .rwcWork => ⟨.rwc, 0x2000, 4, 32, false, [⟨31, 0, .ro, 0⟩]⟩
  | .rwcPmon => ⟨.rwc, 0x3000, 4, 24, false, [⟨31, 0, .ro, 0⟩]⟩
  | .rwcPmonSh => ⟨.rwc, 0x3100, 4, 24, false, [⟨31, 0, .ro, 0⟩]⟩
  | .rwcWrap => ⟨.rwc, 0x3180, 4, 1, true, [⟨31, 0, .w1c, 0⟩]⟩
  | .rwcSnap => ⟨.rwc, 0x3184, 4, 1, false, [⟨0, 0, .wo, 0⟩]⟩
  | .rwcClr => ⟨.rwc, 0x3188, 4, 1, false, [⟨0, 0, .wo, 0⟩]⟩
  | .rwcMse => ⟨.rwc, 0x3190, 4, 1, false, [⟨31, 16, .ro, 0⟩, ⟨15, 0, .ro, 0⟩]⟩
  | .hsma => ⟨.rwc, 0x3200, 4, 64, false, [⟨31, 0, .ro, 0⟩]⟩
  | .ldpCfg => ⟨.ldp, 0x40, 4, 1, false, [⟨23, 16, .rw, 0x10⟩, ⟨13, 8, .rw, 0x28⟩, ⟨5, 0, .rw, 8⟩]⟩
  | .ldpBoost => ⟨.ldp, 0x44, 4, 1, false, [⟨31, 31, .rw, 0⟩, ⟨15, 8, .rw, 0⟩, ⟨6, 0, .rw, 0⟩]⟩
  | .ldpStat => ⟨.ldp, 0x48, 4, 1, false, [⟨31, 28, .ro, 0⟩, ⟨27, 24, .ro, 0⟩, ⟨23, 23, .ro, 0⟩, ⟨22, 22, .ro, 0⟩, ⟨21, 15, .ro, 0⟩]⟩
  | .rsbase => ⟨.ldp, 0x4C, 4, 1, false, [⟨31, 0, .rwg, 0⟩]⟩
  | .rsfree => ⟨.ldp, 0x50, 4, 1, false, [⟨31, 31, .wo, 0⟩, ⟨7, 0, .wo, 0⟩]⟩
  | .ff0 => ⟨.ldp, 0x80, 16, 4, false, [⟨31, 20, .ro, 0⟩, ⟨19, 14, .ro, 0⟩, ⟨8, 8, .ro, 0⟩, ⟨7, 0, .ro, 0⟩]⟩
  | .ff1 => ⟨.ldp, 0x84, 16, 4, false, [⟨31, 24, .ro, 0⟩, ⟨23, 0, .ro, 0⟩]⟩
  | .ff2 => ⟨.ldp, 0x88, 16, 4, false, [⟨31, 16, .ro, 0⟩, ⟨15, 0, .ro, 0⟩]⟩
  | .ffpop => ⟨.ldp, 0x8C, 16, 4, false, [⟨0, 0, .wo, 0⟩]⟩
  | .ffcnt => ⟨.ldp, 0xC0, 4, 1, false, [⟨31, 0, .ro, 0⟩]⟩
  | .ldpPmon => ⟨.ldp, 0x100, 4, 12, false, [⟨31, 0, .ro, 0⟩]⟩
  | .ldpPmonSh => ⟨.ldp, 0x180, 4, 12, false, [⟨31, 0, .ro, 0⟩]⟩
  | .ldpWrap => ⟨.ldp, 0x1F0, 4, 1, true, [⟨31, 0, .w1c, 0⟩]⟩
  | .ldpSnap => ⟨.ldp, 0x1F4, 4, 1, false, [⟨0, 0, .wo, 0⟩]⟩
  | .ldpClr => ⟨.ldp, 0x1F8, 4, 1, false, [⟨0, 0, .wo, 0⟩]⟩
  | .dldir => ⟨.tpe, 0x40, 4, 1, false, [⟨31, 0, .rwg, 0⟩]⟩
  | .dlop => ⟨.tpe, 0x44, 4, 1, false, [⟨31, 31, .wo, 0⟩, ⟨30, 28, .wo, 0⟩, ⟨5, 0, .wo, 0⟩]⟩
  | .dle0 => ⟨.tpe, 0x48, 4, 1, false, [⟨31, 0, .rw, 0⟩]⟩
  | .dle1 => ⟨.tpe, 0x4C, 4, 1, false, [⟨31, 0, .rw, 0⟩]⟩
  | .dlres => ⟨.tpe, 0x50, 4, 1, false, [⟨31, 31, .ro, 0⟩, ⟨30, 28, .ro, 0⟩, ⟨17, 0, .ro, 0⟩]⟩
  | .grpstat => ⟨.tpe, 0x60, 4, 4, false, [⟨31, 31, .ro, 0⟩, ⟨23, 16, .ro, 0⟩, ⟨15, 8, .ro, 0⟩]⟩
  | .sveCfg => ⟨.sve, 0x40, 4, 1, true, [⟨31, 31, .rw, 0⟩, ⟨15, 0, .rw, 0x3F94⟩]⟩
  | .sveState => ⟨.sve, 0x44, 4, 1, false, [⟨31, 31, .ro, 0⟩, ⟨30, 30, .ro, 0⟩, ⟨29, 29, .ro, 0⟩, ⟨28, 28, .ro, 0⟩, ⟨27, 27, .ro, 0⟩, ⟨26, 26, .ro, 0⟩, ⟨25, 25, .ro, 0⟩, ⟨24, 24, .ro, 0⟩, ⟨23, 23, .ro, 0⟩, ⟨22, 22, .ro, 0⟩, ⟨15, 12, .ro, 0⟩, ⟨8, 0, .ro, 0⟩]⟩
  | .sveSwap => ⟨.sve, 0x48, 4, 1, false, [⟨31, 31, .wo, 0⟩, ⟨30, 30, .ro, 0⟩, ⟨29, 28, .ro, 0⟩, ⟨19, 16, .ro, 0⟩, ⟨8, 0, .ro, 0⟩]⟩
  | .sveLat => ⟨.sve, 0x4C, 4, 1, false, [⟨31, 16, .ro, 0⟩, ⟨15, 0, .ro, 0⟩]⟩
  | .plcfg => ⟨.sve, 0x50, 4, 1, false, [⟨31, 28, .rwg, 4⟩, ⟨27, 24, .rwg, 8⟩, ⟨23, 16, .rwg, 4⟩, ⟨15, 0, .rwg, 0x32⟩]⟩
  | .wulim => ⟨.sve, 0x54, 4, 1, false, [⟨31, 16, .rwg, 0x6000⟩, ⟨15, 0, .rwg, 0x1333⟩]⟩
  | .shock => ⟨.sve, 0x58, 4, 1, false, [⟨31, 16, .rwg, 0x4000⟩, ⟨15, 0, .rwg, 0x2000⟩]⟩
  | .retractReg => ⟨.sve, 0x5C, 4, 1, false, [⟨31, 31, .wo, 0⟩, ⟨23, 16, .rwg, 0x96⟩, ⟨15, 8, .rwg, 0x20⟩, ⟨7, 0, .rwg, 0xE0⟩]⟩
  | .seekcfg => ⟨.sve, 0x60, 4, 1, false, [⟨31, 16, .rw, 0x5DC⟩, ⟨15, 8, .rw, 0x40⟩, ⟨3, 0, .rw, 0xA⟩]⟩
  | .mailcmt => ⟨.sve, 0x64, 4, 1, false, [⟨0, 0, .wo, 0⟩]⟩
  | .dgbase => ⟨.sve, 0x68, 4, 1, false, [⟨31, 3, .rwg, 0⟩]⟩
  | .caddr => ⟨.sve, 0x70, 4, 1, true, [⟨31, 31, .rw, 0⟩, ⟨30, 30, .rw, 0⟩, ⟨9, 0, .rw, 0⟩]⟩
  | .cdata => ⟨.sve, 0x74, 4, 1, true, [⟨15, 0, .rw, 0⟩]⟩
  | .saddr => ⟨.sve, 0x78, 4, 1, true, [⟨7, 0, .rw, 0⟩]⟩
  | .sdata => ⟨.sve, 0x7C, 4, 1, true, [⟨15, 0, .rw, 0⟩]⟩
  | .trctl => ⟨.sve, 0x80, 4, 1, false, [⟨31, 31, .wo, 0⟩, ⟨30, 30, .wo, 0⟩, ⟨29, 28, .rw, 0⟩, ⟨27, 24, .rw, 0⟩, ⟨12, 0, .rw, 0x1000⟩]⟩
  | .trstat => ⟨.sve, 0x84, 4, 1, false, [⟨31, 31, .ro, 0⟩, ⟨30, 30, .ro, 0⟩, ⟨29, 29, .ro, 0⟩, ⟨25, 13, .ro, 0⟩, ⟨12, 0, .ro, 0⟩]⟩
  | .trthr => ⟨.sve, 0x88, 4, 1, false, [⟨15, 0, .rw, 0⟩]⟩
  | .traddr => ⟨.sve, 0x8C, 4, 1, true, [⟨31, 31, .rw, 0⟩, ⟨14, 13, .rw, 0⟩, ⟨12, 0, .rw, 0⟩]⟩
  | .trdata => ⟨.sve, 0x90, 4, 1, false, [⟨15, 0, .ro, 0⟩]⟩
  | .holdReg => ⟨.sve, 0xA0, 4, 1, false, [⟨31, 16, .rw, 0x2000⟩, ⟨8, 0, .rw, 0x190⟩]⟩
  | .jumpReg => ⟨.sve, 0xA4, 4, 1, false, [⟨31, 31, .wo, 0⟩, ⟨30, 30, .rw, 0⟩, ⟨29, 29, .rw, 0⟩, ⟨23, 16, .rw, 1⟩, ⟨15, 8, .rw, 0x18⟩, ⟨7, 0, .rw, 0x20⟩]⟩
  | .fsweep0 => ⟨.sve, 0xA8, 4, 1, false, [⟨31, 16, .rw, 0⟩, ⟨15, 0, .rw, 0⟩]⟩
  | .fsweep1 => ⟨.sve, 0xAC, 4, 1, false, [⟨31, 31, .wo, 0⟩, ⟨23, 16, .rw, 0⟩, ⟨15, 8, .rw, 0⟩, ⟨7, 0, .rw, 0⟩]⟩
  | .svePmon => ⟨.sve, 0xC0, 4, 8, false, [⟨31, 0, .ro, 0⟩]⟩
  | .svePmonSh => ⟨.sve, 0xE0, 4, 8, false, [⟨31, 0, .ro, 0⟩]⟩
  | .sveWrap => ⟨.sve, 0x100, 4, 1, true, [⟨31, 0, .w1c, 0⟩]⟩
  | .sveSnap => ⟨.sve, 0x104, 4, 1, false, [⟨0, 0, .wo, 0⟩]⟩
  | .sveClr => ⟨.sve, 0x108, 4, 1, false, [⟨0, 0, .wo, 0⟩]⟩
  | .sveMail => ⟨.sve, 0x200, 4, 64, false, [⟨15, 0, .rw, 0⟩]⟩
  | .sveRow => ⟨.sve, 0x1000, 4, 1024, true, [⟨31, 0, .rw, 0⟩]⟩
  | .spnCfg => ⟨.spn, 0x40, 4, 1, false, [⟨31, 16, .rwg, 0x1C20⟩, ⟨15, 8, .rwg, 0x14⟩, ⟨7, 0, .rwg, 0x64⟩]⟩
  | .spnCmd => ⟨.spn, 0x44, 4, 1, false, [⟨3, 3, .wo, 0⟩, ⟨2, 2, .wo, 0⟩, ⟨1, 1, .wo, 0⟩, ⟨0, 0, .wo, 0⟩]⟩
  | .spnStat => ⟨.spn, 0x48, 4, 1, false, [⟨31, 28, .ro, 0⟩, ⟨27, 27, .ro, 0⟩, ⟨26, 26, .ro, 0⟩, ⟨25, 25, .ro, 0⟩, ⟨24, 24, .ro, 0⟩, ⟨23, 23, .ro, 0⟩, ⟨22, 22, .ro, 0⟩, ⟨21, 21, .ro, 0⟩, ⟨20, 20, .ro, 0⟩, ⟨19, 18, .ro, 0⟩, ⟨15, 8, .ro, 0⟩, ⟨2, 0, .ro, 0⟩]⟩
  | .spnSpeed => ⟨.spn, 0x4C, 4, 1, false, [⟨23, 0, .ro, 0⟩]⟩
  | .spnIlim => ⟨.spn, 0x50, 4, 1, false, [⟨31, 16, .rwg, 0x6000⟩, ⟨15, 0, .rwg, 0x2000⟩]⟩
  | .spnLeave => ⟨.spn, 0x54, 4, 1, false, [⟨31, 31, .rw, 0⟩, ⟨15, 8, .rw, 0⟩, ⟨6, 0, .rw, 0⟩]⟩
  | .lockcfg => ⟨.spn, 0x58, 4, 1, false, [⟨31, 26, .rwg, 0x19⟩, ⟨25, 23, .rwg, 3⟩, ⟨22, 16, .rwg, 0x28⟩, ⟨15, 8, .rwg, 0x50⟩, ⟨7, 0, .rwg, 0x3C⟩]⟩
  | .pwmcfg => ⟨.spn, 0x5C, 4, 1, false, [⟨31, 24, .rwg, 0x50⟩, ⟨23, 16, .ro, 0⟩, ⟨15, 8, .rwg, 0xC8⟩, ⟨7, 0, .rwg, 0xF6⟩]⟩
  | .spnComm => ⟨.spn, 0x60, 4, 6, false, [⟨4, 3, .rwg, 0⟩, ⟨2, 1, .rwg, 0⟩, ⟨0, 0, .rwg, 0⟩]⟩
  | .brkcfg => ⟨.spn, 0x78, 4, 1, false, [⟨31, 24, .rwg, 0x14⟩, ⟨23, 16, .rwg, 0x10⟩, ⟨15, 0, .rwg, 0xC8⟩]⟩
  | .ptbase => ⟨.lsr, 0x40, 4, 1, false, [⟨31, 4, .rwg, 0⟩]⟩
  | .paddr0 => ⟨.lsr, 0x44, 4, 1, false, [⟨28, 16, .rwg, 0⟩, ⟨12, 0, .rwg, 0⟩]⟩
  | .paddr1 => ⟨.lsr, 0x48, 4, 1, false, [⟨12, 0, .rwg, 0⟩]⟩
  | .moncfg => ⟨.lsr, 0x4C, 4, 1, false, [⟨31, 24, .rw, 4⟩, ⟨23, 16, .rw, 8⟩, ⟨15, 12, .rw, 3⟩]⟩
  | .stbase => ⟨.lsr, 0x50, 4, 1, false, [⟨31, 4, .rwg, 0⟩]⟩
  | .lsrStat => ⟨.lsr, 0x60, 4, 4, false, [⟨31, 30, .ro, 0⟩, ⟨29, 29, .ro, 0⟩, ⟨28, 28, .ro, 0⟩, ⟨27, 22, .ro, 0⟩, ⟨15, 0, .ro, 0⟩]⟩
  | .lsrClrf => ⟨.lsr, 0x70, 4, 1, false, [⟨3, 0, .wo, 0⟩]⟩
  | .rdcode => ⟨.lsr, 0x80, 4, 4, false, [⟨15, 0, .ro, 0⟩]⟩
  | .ontime => ⟨.lsr, 0x100, 4, 64, false, [⟨31, 0, .ro, 0⟩]⟩
  | .optFmt => ⟨.opt, 0x40, 4, 1, false, [⟨31, 30, .rwg, 0⟩, ⟨28, 19, .rwg, 0x40⟩, ⟨18, 8, .rwg, 0x80⟩]⟩
  | .optSeekcfg => ⟨.opt, 0x44, 4, 1, false, [⟨31, 24, .rwg, 0x40⟩, ⟨23, 16, .rwg, 0x14⟩]⟩
  | .optSled => ⟨.opt, 0x48, 4, 1, false, [⟨31, 16, .rwg, 0x1000⟩, ⟨15, 0, .rwg, 0x190⟩]⟩
  | .wsumk => ⟨.opt, 0x4C, 4, 1, false, [⟨15, 0, .rwg, 0x1000⟩]⟩
  | .puf => ⟨.opt, 0x60, 8, 4, false, [⟨31, 31, .rwg, 0⟩, ⟨23, 0, .rwg, 0⟩]⟩
  | .pul => ⟨.opt, 0x64, 8, 4, false, [⟨23, 0, .rwg, 0⟩]⟩
  | .optLay => ⟨.opt, 0x80, 4, 16, false, [⟨31, 16, .rwg, 0⟩, ⟨15, 0, .rwg, 0⟩]⟩
  | .optAddr0 => ⟨.opt, 0xC0, 8, 4, false, [⟨31, 30, .ro, 0⟩, ⟨23, 0, .ro, 0⟩]⟩
  | .optAddr1 => ⟨.opt, 0xC4, 8, 4, false, [⟨31, 31, .ro, 0⟩, ⟨30, 28, .ro, 0⟩, ⟨8, 0, .ro, 0⟩]⟩
  | .optStat => ⟨.opt, 0xE0, 4, 4, false, [⟨31, 31, .ro, 0⟩, ⟨30, 29, .ro, 0⟩, ⟨28, 28, .ro, 0⟩, ⟨27, 26, .ro, 0⟩, ⟨3, 0, .ro, 0⟩]⟩
  | .optPmon => ⟨.opt, 0x100, 4, 16, false, [⟨31, 0, .ro, 0⟩]⟩
  | .optPmonSh => ⟨.opt, 0x140, 4, 16, false, [⟨31, 0, .ro, 0⟩]⟩
  | .optWrap => ⟨.opt, 0x180, 4, 1, true, [⟨31, 0, .w1c, 0⟩]⟩
  | .optSnap => ⟨.opt, 0x184, 4, 1, false, [⟨0, 0, .wo, 0⟩]⟩
  | .optClr => ⟨.opt, 0x188, 4, 1, false, [⟨0, 0, .wo, 0⟩]⟩
  | .psiCfg => ⟨.psi, 0x40, 4, 1, false, [⟨3, 0, .rw, 0⟩]⟩
  | .wrmode => ⟨.psi, 0x44, 4, 1, false, [⟨28, 16, .rwg, 0⟩, ⟨15, 8, .rwg, 0⟩, ⟨7, 0, .rwg, 0⟩]⟩
  | .fwcmd => ⟨.psi, 0x50, 8, 4, false, [⟨31, 31, .wo, 0⟩, ⟨29, 29, .rw, 0⟩, ⟨28, 0, .rw, 0⟩]⟩
  | .fwres => ⟨.psi, 0x54, 8, 4, false, [⟨31, 31, .ro, 0⟩, ⟨30, 30, .ro, 0⟩, ⟨15, 0, .ro, 0⟩]⟩
  | .cipMode => ⟨.cip, 0x40, 4, 1, false, [⟨31, 31, .ro, 0⟩]⟩
  | .cipLock => ⟨.cip, 0x48, 4, 2, false, [⟨31, 0, .rwg, 0⟩]⟩
  | .nskey => ⟨.cip, 0x100, 4, 64, false, [⟨31, 31, .ro, 0⟩, ⟨10, 0, .ro, 0⟩]⟩
  | .ustat => ⟨.cipu, 0x40, 4, 1, false, [⟨31, 31, .ro, 0⟩, ⟨30, 30, .ro, 0⟩, ⟨29, 29, .ro, 0⟩, ⟨3, 0, .ro, 0⟩]⟩
  | .unsmask => ⟨.cipu, 0x48, 4, 2, false, [⟨31, 0, .ro, 0⟩]⟩
  | .slotsel => ⟨.kst, 0x40, 4, 1, false, [⟨10, 0, .rw, 0⟩]⟩
  | .slotattr => ⟨.kst, 0x44, 4, 1, false, [⟨31, 31, .ro, 0⟩, ⟨30, 30, .ro, 0⟩, ⟨29, 29, .ro, 0⟩, ⟨28, 23, .ro, 0⟩, ⟨22, 18, .ro, 0⟩, ⟨17, 13, .ro, 0⟩]⟩
  | .slotuse => ⟨.kst, 0x48, 4, 2, false, [⟨31, 0, .ro, 0⟩]⟩
  | .slotlim => ⟨.kst, 0x50, 4, 2, false, [⟨31, 0, .ro, 0⟩]⟩
  | .kstStat => ⟨.kst, 0x60, 4, 1, false, [⟨31, 31, .ro, 0⟩, ⟨30, 30, .ro, 0⟩, ⟨29, 29, .ro, 0⟩, ⟨28, 24, .ro, 0⟩, ⟨23, 20, .ro, 0⟩, ⟨11, 0, .ro, 0⟩]⟩
  | .mbcmd => ⟨.tru, 0x40, 4, 1, false, [⟨31, 31, .wo, 0⟩, ⟨23, 16, .rw, 0⟩]⟩
  | .mbaddr => ⟨.tru, 0x44, 4, 1, false, [⟨31, 0, .rw, 0⟩]⟩
  | .mblen => ⟨.tru, 0x48, 4, 1, false, [⟨19, 0, .rw, 0⟩]⟩
  | .mbres => ⟨.tru, 0x4C, 4, 1, false, [⟨31, 31, .ro, 0⟩, ⟨26, 24, .ro, 0⟩, ⟨19, 0, .ro, 0⟩]⟩
  | .truMeas => ⟨.tru, 0x400, 4, 256, false, [⟨31, 0, .ro, 0⟩]⟩

/-- The registers of a block. -/
def Blk.regs : Blk → List Reg
  | .sys => [.bootstat, .rstcause, .rdyctl, .wdtctl, .wdtkick, .profile, .srsel, .srerr, .rmapcnt]
  | .cpx => [.twinAddr, .twinData]
  | .irq => [.irqPend, .irqSwset, .irqRoute]
  | .wck => [.pstate, .preq, .wakeen, .wakesrc, .waketime, .pdstat, .pdoff]
  | .llt => [.lltBoard, .lltTherm, .lltLease, .lltAvail, .lltGranted, .lltRsv, .lltTfloor, .lltNow, .lltQdepth,
    .lltClassen, .lltReqa, .lltReqb, .lltResp, .lltRespx, .lltOp, .lltOpst, .lltTkt0, .lltTkt1]
  | .clk => [.pllen, .pllstat, .clkDom]
  | .cal => [.calUsec, .calSec, .calStat, .calSetusec, .calSetsec0, .calSetsec1, .calCmd, .calAdj, .calCfg,
    .calAlm0, .calAlm1]
  | .lif => [.lifSnap, .lifSnapt, .lifStat, .lifAddlo, .lifAddhi, .lifAddgo, .lifCmd, .lifSat, .lifSh]
  | .evr => [.evrNext, .evrOldest, .evrStat, .evrLost, .evrCmd, .evrBase, .evrFloodcfg, .evrCur, .evrWinstat,
    .evrWin, .evrSwev, .evrSwp]
  | .thm => [.thmMax, .thmThr, .thmHyst, .thmState, .thmXchk, .thmCmd, .thmWick, .thmSens]
  | .sup => [.supPfcfg]
  | .vlk => [.vlkCfg, .vlkStat, .vlkNode, .vlkFloor, .vlkLreq, .orphanSpinup, .vlkTimeus, .vlkTimesec, .vlkCmd,
    .evfwd, .segbudget, .segrsv, .aggbase, .evdrop, .imgbase, .imgcmd, .vlkAllow, .attrpt, .ledger,
    .vlkPmon, .vlkPmonSh, .vlkWrap, .vlkSnap, .vlkClr]
  | .trm => [.trmCfg, .trmPend, .trmTrim0, .trmTrim1, .trmComp0, .trmComp1, .trmComp2, .trmComp3, .trmStat0,
    .trmStat1]
  | .pcx => []
  | .hce => [.fetchstat, .abortreq, .abortres]
  | .lgr => [.ordnext, .oldest, .lgrWin, .lgrWdata]
  | .xmt => [.mcsize, .mcruns, .mcused, .nsdom, .nsbase, .xmtFront]
  | .rvr => [.rvrCfg, .rvrStat, .rvrGen, .rvrCmd]
  | .bst => []
  | .dmc => [.dmcInit, .dmcCfg, .dmcScrub, .scrubpos, .ppr0, .pprres, .regattr0, .regattr1, .splitctl,
    .splitaddr, .splitdata, .splitchk, .rowlog0, .rowlog1, .rowlim, .rowclr]
  | .bcc => [.opaddr0, .opaddr1, .oplines, .opcmd, .opres, .opfail, .waydis, .lockinval, .failcfg, .bccDirty,
    .drainset, .lockcnt, .wayce]
  | .cst => [.romver, .pver, .openver, .openctl, .cstAct, .actcfg, .cstMatch, .cstDisp]
  | .asq => [.asqState, .atommax, .asqAbort, .asqAbres, .asqLvtkt, .respop, .rescnt, .asqRes, .ptask, .pcmd,
    .cmdres, .atask, .headret]
  | .rwc => [.ztbase, .asbase, .smapat0, .smapat1, .smbpat0, .smbpat1, .blindcfg, .clkstat, .lastsync, .knob,
    .rwcWork, .rwcPmon, .rwcPmonSh, .rwcWrap, .rwcSnap, .rwcClr, .rwcMse, .hsma]
  | .ldp => [.ldpCfg, .ldpBoost, .ldpStat, .rsbase, .rsfree, .ff0, .ff1, .ff2, .ffpop, .ffcnt, .ldpPmon,
    .ldpPmonSh, .ldpWrap, .ldpSnap, .ldpClr]
  | .tpe => [.dldir, .dlop, .dle0, .dle1, .dlres, .grpstat]
  | .sve => [.sveCfg, .sveState, .sveSwap, .sveLat, .plcfg, .wulim, .shock, .retractReg, .seekcfg, .mailcmt,
    .dgbase, .caddr, .cdata, .saddr, .sdata, .trctl, .trstat, .trthr, .traddr, .trdata, .holdReg,
    .jumpReg, .fsweep0, .fsweep1, .svePmon, .svePmonSh, .sveWrap, .sveSnap, .sveClr, .sveMail,
    .sveRow]
  | .spn => [.spnCfg, .spnCmd, .spnStat, .spnSpeed, .spnIlim, .spnLeave, .lockcfg, .pwmcfg, .spnComm, .brkcfg]
  | .lsr => [.ptbase, .paddr0, .paddr1, .moncfg, .stbase, .lsrStat, .lsrClrf, .rdcode, .ontime]
  | .opt => [.optFmt, .optSeekcfg, .optSled, .wsumk, .puf, .pul, .optLay, .optAddr0, .optAddr1, .optStat,
    .optPmon, .optPmonSh, .optWrap, .optSnap, .optClr]
  | .psi => [.psiCfg, .wrmode, .fwcmd, .fwres]
  | .cip => [.cipMode, .cipLock, .nskey]
  | .cipu => [.ustat, .unsmask]
  | .kst => [.slotsel, .slotattr, .slotuse, .slotlim, .kstStat]
  | .tru => [.mbcmd, .mbaddr, .mblen, .mbres, .truMeas]
  | .dbg => []

/-- Base address of instance n of a block. -/
def Blk.base (b : Blk) (n : Nat) : Nat := b.row.base + n * b.row.stride

/-- Header index (header source) of instance n of a block. -/
def Blk.hdr (b : Blk) (n : Nat) : Nat := b.row.hdr + n

/-- Address of element k of a register in instance n of its block. -/
def Reg.addr (r : Reg) (n k : Nat) : Nat := r.row.blk.base n + r.row.off + r.row.step * k

/-- Clock domains whose reset clock is the FRC (table Clock domains, column FRC-capable). -/
def frcCapable (k : Nat) : Bool :=
  (2 ≤ k && k ≤ 15) || (20 ≤ k && k ≤ 24) || (28 ≤ k && k ≤ 32) || (45 ≤ k && k ≤ 47) || (61 ≤ k && k ≤ 63)

/-- Reset of CLK_DOMk (R72, R73): domains 0 and 1 are fixed on WCK32; FRC-capable domains run on the FRC with a divider
of 1; the others are gated. -/
def clkDomReset (k : Nat) : Nat :=
  if k < 2 then 0x10700 else if frcCapable k then 0x10000 else 0x10001

/-- Reset of SPN_COMMk (table Default commutation table). -/
def commReset (k : Nat) : Nat :=
  match k with
  | 0 => 0b00011 | 1 => 0b00100 | 2 => 0b01101 | 3 => 0b01000 | 4 => 0b10001 | _ => 0b10010

/-- Reset value of element k of a register: its fields' reset values, but for the registers whose reset value depends
on k. -/
def Reg.reset (r : Reg) (k : Nat) : Nat :=
  match r with
  | .clkDom => clkDomReset k
  | .nsdom => k
  | .spnComm => commReset k
  | _ => r.row.flds.foldl (fun a f => a + f.reset <<< f.lo) 0

/-- The bits of a register whose fields have an access type. -/
def Reg.mask (r : Reg) (p : Acc → Bool) : Nat :=
  r.row.flds.foldl (fun a f => if p f.acc then a ||| ((2 ^ (f.hi + 1 - f.lo) - 1) <<< f.lo) else a) 0

/-- The register holds a field of another access type beside its RWG fields (R434). -/
def Reg.mixed (r : Reg) : Bool := r.row.flds.any fun f => f.acc != .rwg

/-- Where an address lies in the register pages: block and instance. -/
def blockAt (a : Nat) : Option (Blk × Nat) :=
  Blk.all.findSome? fun b =>
    let w := b.row
    let d := a - w.base
    let n := if w.stride = 0 then 0 else d / w.stride
    if w.base ≤ a ∧ n < w.insts ∧ d - n * w.stride < w.pages * 0x1000 then some (b, n) else none

/-- The register at an offset from an instance's first page, with its index. -/
def Blk.regAt (b : Blk) (off : Nat) : Option (Reg × Nat) :=
  b.regs.findSome? fun r =>
    let w := r.row
    let d := off - w.off
    if w.off ≤ off ∧ d % w.step = 0 ∧ d / w.step < w.count then some (r, d / w.step) else none

/-- The register at an address: register, instance, index. -/
def regAt (a : Nat) : Option (Reg × Nat × Nat) :=
  match blockAt a with
  | some (b, n) => (b.regAt (a - b.base n)).map fun (r, k) => (r, n, k)
  | none => none

/-- The reset value of the register at an address; 0 where there is none (R8). -/
def resetAt (a : Nat) : Nat :=
  match regAt a with
  | some (r, _, k) => r.reset k
  | none => 0

end Sys2Proof.Machine
end

