-- ==== Sys2Proof/Machine/ChanTypes.lean ====
section
/-!
DEFINITION. State of one read/write channel RWCn (09_read_write_channel.md), of LDP and of TPE (10_media_ecc_defects.md).
-/

set_option Elab.async false

namespace Sys2Proof.Machine

/-- Framing outcomes, RWCn_LASTSYNC.OUTCOME. -/
inductive SyncOutcome where
  | none | confirmed | bOverrule | aOnly | bOnly | bothMissed | blindOk | blindFail | late | unprimed
deriving DecidableEq, Repr

/-- The zone entry copied at promotion (R195, table Zone entry). -/
structure ZoneEntry where
  tfirst : Nat
  flags  : Nat
  lrate  : Nat
  dpw    : Nat
  databits : Nat
  spt    : Nat
  code   : Nat
  tpeg   : Nat
  kset   : Nat
  rdly   : Nat
  rwoff  : Nat
  precomp : Nat
  wlead  : Nat
  lglead : Nat
  lglag  : Nat
  lpidx  : Nat
  tcount : Nat
deriving DecidableEq, Repr

/-- RWCn. Knob sets, zone table base, sync patterns and BLINDCFG stand in the register file. -/
structure Rwc where
  /-- the copied zone entry [256 bits; R195; reset none] -/
  zone : Option ZoneEntry := none
  /-- RWOFF in force, 1/32 bit: it follows the copied entry [17 bits; R378; reset 0] -/
  rwoff : Int := 0
  /-- failing check of a bad entry [R196; reset none] -/
  zoneBad : Option Nat := none
  /-- a prime is under way (CLKPRIME seen) [1 bit; R199; reset 0] -/
  priming : Bool := false
  /-- RWCn_CLKSTAT PRIMED [1 bit; R199; reset 0] -/
  primed : Bool := false
  /-- the task has primed since its promotion [1 bit; R199, R209; reset 0] -/
  everPrimed : Bool := false
  /-- consecutive fields missed by the prime under way [1 bit; R199; reset 0] -/
  primeMiss : Nat := 0
  /-- clock fields since the last prime [R200; reset 0] -/
  primeAge : Nat := 0
  /-- RWCn_CLKSTAT LOCKED [1 bit; R201; reset 0] -/
  locked : Bool := false
  /-- consecutive clock fields within the lock bound [R201; reset 0] -/
  goodRun : Nat := 0
  /-- RWCn_CLKSTAT MISSRUN [2 bits; 09; reset 0] -/
  missRun : Nat := 0
  /-- RWCn_CLKSTAT FREQ, signed 0.01 ppm, and PHERR, signed 1/64 bit [12+8 bits; 09; reset 0] -/
  freq : Int := 0
  pherr : Int := 0
  /-- RWCn_LASTSYNC OUTCOME, AOFF, BOFF, ADIST, BDIST [4+6+6+4+4 bits; 09; reset 0] -/
  outcome : SyncOutcome := .none
  aoff : Int := 0
  boff : Int := 0
  adist : Nat := 0
  bdist : Nat := 0
  /-- A candidate decided for the current sector: offset and disagreements [R206; reset none] -/
  aCand : Option (Int × Nat) := none
  /-- a sync-mark window is open; the Sync Mark A window of the current sector has closed [2 bits; R206, R209; reset 0] -/
  searching : Bool := false
  aClosed : Bool := false
  /-- a BLIND pulse waits for its syndrome weights [1 bit; R210; reset 0] -/
  blindPend : Bool := false
  /-- conditions SYNC_FOUND, SMA_FOUND, SMB_FOUND [3 bits; R207; reset 0] -/
  syncFound : Bool := false
  smaFound : Bool := false
  smbFound : Bool := false
  /-- unit status U1 LATE, U3 LOOP_LIMIT, U4 DEFECT, U5 REFRAMED, U6 BLIND_OK [5 bits; R205; reset 0] -/
  late : Bool := false
  defect : Bool := false
  reframed : Bool := false
  blindOk : Bool := false
  /-- loops held at a limit, by LOOPEN bit [6 bits; R211; reset 0] -/
  loopLim : Nat := 0
  /-- loops frozen by a taper step [6 bits; R214; reset 0] -/
  taperFrozen : Nat := 0
  /-- a flagged defect span is under way [1 bit; R212; reset 0] -/
  inDefect : Bool := false
  /-- heads in READER0 mode because reader 1 failed [64 bits; R203; reset none] -/
  single : List Nat := []
  /-- reader mode in force [2 bits; R202; reset 1] -/
  rmode : Nat := 1
  /-- settings of the knob set loaded: number, LOOPEN, MU, DEF [5+6+32+32 bits; R204; reset 0] -/
  kset : Nat := 0
  loopen : Nat := 0
  mu : Word := 0
  deff : Word := 0
  /-- a load of R205 that waits for the next sector's preamble: UNIT field, words of the knob set [30 bits + 1,024 bits; R205; reset none] -/
  loadPend : Option (Nat × List Word) := none
  /-- working adaptive state, 32 words of page 2 [32 x 32 bits; R215; reset 0] -/
  work : Vector Word 32 := Vector.replicate 32 0
  /-- sectors of the task that passed LDP in their first pass [R215; reset 0] -/
  fpPass : Nat := 0
  /-- physical gates WGn, LGn [2 bits; R216; reset 0] -/
  wg : Bool := false
  lg : Bool := false
  /-- WGn stays low until the WG control falls: it was cut, or an interlock failed [1 bit; R177, R217; reset 0] -/
  cut : Bool := false
  /-- a sector is being read or written under RG or WG [1 bit; R216; reset 0] -/
  inSector : Bool := false
  /-- the gates are low over a wedge gap [1 bit; R216; reset 0] -/
  inGap : Bool := false
  /-- the current sector has counted in SPLIT [1 bit; R219; reset 0] -/
  split : Bool := false
  /-- counters 0-23 [24 x 32 bits; R219; reset 0] -/
  cnt : Vector Nat 24 := Vector.replicate 24 0
  /-- shadows 0-23 [24 x 32 bits; R219; reset 0] -/
  shadow : Vector Nat 24 := Vector.replicate 24 0
  /-- RWCn_PMON_WRAP [32 bits; R219; reset 0] -/
  wrap : Nat := 0
  /-- RWCn_HSMAh of heads with a non-zero count [64 x 16 bits; R220; reset 0] -/
  hsma : List (Nat × Nat) := []
  /-- RWCn_MSE AVG, SECT [16+16 bits; 09; reset 0] -/
  mseAvg : Nat := 0
  mseSect : Nat := 0
deriving DecidableEq, Repr

/-- The place of a codeword in a code block (R224): block of the track, sectors of a block, index of the codeword, and the
slots of the two sectors whose payloads it carries parts of, the one before and its own. -/
structure BlkWord where
  block : Nat
  size  : Nat
  j     : Nat
  prev  : Nat
  own   : Nat
deriving DecidableEq, Repr

/-- A codeword in an LDP input slot (R226, R227). -/
structure Codeword where
  ch     : Nat
  tag    : Nat
  head   : Nat
  track  : Nat
  sector : Nat
  ord    : Nat
  /-- LBA and NSID - 1 the task expects in the tag -/
  lba    : Nat
  ns     : Nat
  /-- of a task with RECOV set -/
  recov  : Bool
  /-- flag F7: combine with the retained values -/
  combine : Bool
  prio   : Nat
  limit  : Nat
  /-- a parity sector of a PARITY_READ task; a parity sector of another task -/
  parity : Bool
  parityRead : Bool
  /-- started under the squeeze -/
  squeezed : Bool
  /-- optical: FRAMENO that the task expects (R309) -/
  frame : Option Nat
  /-- of a code block (CODE 1 and 2) -/
  blk : Option BlkWord
deriving DecidableEq, Repr

/-- An entry of a failure queue (LDP_FFn). -/
structure FailEntry where
  tag    : Nat
  head   : Nat
  rv     : Bool
  rslot  : Nat
  cause  : Nat
  track  : Nat
  synw   : Nat
  sector : Nat
deriving DecidableEq, Repr

/-- A slot of the retained store (R229). -/
structure Retained where
  slot   : Nat
  ch     : Nat
  head   : Nat
  track  : Nat
  sector : Nat
deriving DecidableEq, Repr

/-- LDP (R222-R229, R232-R236). LDP_CFG, LDP_BOOST and LDP_RSBASE stand in the register file. -/
structure Ldp where
  /-- codewords that wait in input slots, oldest first [64 slots; R226; reset none] -/
  queue : List Codeword := []
  /-- codewords in decode [8; R226; reset none] -/
  active : List Codeword := []
  /-- squeezed codewords that failed and wait for the squeeze to end, oldest first [R227; reset none] -/
  waiting : List Codeword := []
  /-- slots of the retained store in use [256; R229; reset none] -/
  retained : List Retained := []
  /-- event 0x0503 has been recorded since a slot was last free [1 bit; R229; reset 0] -/
  rsWarned : Bool := false
  /-- failure queues of channels 0-3 [4 x 64; R229; reset none] -/
  ff : Vector (List FailEntry) 4 := Vector.replicate 4 []
  /-- status bytes written to buffer descriptor lists: (tag, sector slot, outcome) [8 bits each; R229; reset none] -/
  status : List (Nat × Nat × Nat) := []
  /-- counters 0-11 and shadows [24 x 32 bits; 10; reset 0] -/
  cnt : Vector Nat 12 := Vector.replicate 12 0
  shadow : Vector Nat 12 := Vector.replicate 12 0
  /-- LDP_PMON_WRAP [32 bits; 10; reset 0] -/
  wrap : Nat := 0
  /-- codewords of code blocks that have run to their limits: channel, tag, track, block, index, zero syndrome [R224; reset
  none] -/
  parts : List ((Nat × Nat × Nat × Nat × Nat) × Bool) := []
  /-- the sector of a code block that each channel submitted last: track, block, index [R224; reset none] -/
  fed : Vector (Option (Nat × Nat × Nat)) 4 := Vector.replicate 4 none
  /-- condition LDP_FAIL of each channel [4 bits; R172; reset 0] -/
  lastFail : Vector Bool 4 := Vector.replicate 4 false
deriving DecidableEq, Repr

/-- A defect entry (table Defect entry). -/
structure Defect where
  grown   : Bool
  pending : Bool
  trackDef : Bool
  track   : Nat
  sector  : Nat
  len     : Nat
deriving DecidableEq, Repr

/-- A parity group being accumulated on one channel (TPE_GRPSTATn). -/
structure Grp where
  /-- OPEN [1 bit; 10; reset 0] -/
  opn : Bool := false
  /-- MEMBERS [8 bits; 10; reset 0] -/
  members : Nat := 0
  /-- SIZE [8 bits; 10; reset 0] -/
  size : Nat := 0
  /-- the sector accumulated last is the last data sector that the task writes on the track [1 bit; R230; reset 0] -/
  last : Bool := false
  /-- slot of its first member [16 bits; R230; reset 0] -/
  start : Nat := 0
  /-- XOR of the payloads accumulated [33,728 bits; R230; reset 0] -/
  acc : Nat := 0
  /-- the skip map of the track being worked on: (track, slots) [R238; reset none] -/
  skip : Option (Nat × List (Nat × Nat)) := none
  /-- the track is treated as wholly defective (R238) [1 bit; R238; reset 0] -/
  whole : Bool := false
deriving DecidableEq, Repr

/-- TPE (R230-R231, R237-R240). TPE_DLDIR, TPE_DLE0 and TPE_DLE1 stand in the register file; the directory and the
defect lists lie in DDR5. -/
structure Tpe where
  /-- parity groups and skip maps of channels 0-3 [4; 10; reset closed] -/
  grp : Vector Grp 4 := Vector.replicate 4 {}
  /-- sectors of groups that a soft reset left without parity: head, track, first and last slot [R106; reset none] -/
  noParity : List (Nat × Nat × Nat × Nat) := []
  /-- surfaces whose list has passed 90 % [64 bits; R240; reset none] -/
  warned : List Nat := []
  /-- TPE_DLRES DONE, RES, INDEX [1+3+18 bits; 10; reset 0] -/
  dlDone : Bool := false
  dlRes : Nat := 0
  dlIndex : Nat := 0
  /-- a GO has been written and its operation is not complete [1 bit; 10; reset 0] -/
  dlBusy : Bool := false
  /-- an insert held until the task on its track ends: surface and entry [R239; reset none] -/
  dlHeld : Option (Nat × Defect) := none
deriving DecidableEq, Repr

end Sys2Proof.Machine
end

