-- ==== Sys2Proof/Machine/CohTypes.lean ====
section
/-!
DEFINITION. State of LGR, XMT and RVR: the Overlap Ledger, translation, the journal, migrations, sanitize and the
reservoir (07_ordering_and_coherence.md).
-/

set_option Elab.async false

namespace Sys2Proof.Machine

/-- KIND codes of a Ledger entry (table KIND and STATE codes). -/
inductive LKind where
  | read | write | append | zeroes | uncorr | reloc | barrier
deriving DecidableEq, Repr

/-- STATE codes of a Ledger entry. -/
inductive LState where
  | pending | buffered | durable | active | dropped
deriving DecidableEq, Repr

/-- A place on the media: a slot of a channel with a sector in it, or a media-cache sector. -/
inductive Loc where
  | slot (ch sl off : Nat)
  | cache (ch idx : Nat)
deriving DecidableEq, Repr

/-- A sector as it lies on the media: its content and the tag of its payload (R221). -/
structure MSec where
  v     : SectorVal
  ns    : Nat
  lba   : Nat
  enc   : Bool
  kslot : Nat
  epoch : Nat
deriving DecidableEq, Repr

/-- The source R150 selected for one sector. -/
inductive Src where
  | zeroes
  | unrecovered
  /-- the buffer of the entry with this ordinal; `true` once its pin is counted, `false` while the entry is PENDING -/
  | buffer (ord : Nat) (got : Bool)
  | media (l : Loc)
deriving DecidableEq, Repr

/-- A Ledger entry (R148); `data` is what its buffer holds, `sel` the selection of a READ or RELOC entry. -/
structure LEntry where
  idx   : Nat
  ord   : Nat
  slba  : Nat
  nlb   : Nat
  kind  : LKind
  state : LState
  /-- NSID - 1 -/
  ns    : Nat
  dom   : Nat
  tag   : Nat
  ctrl  : Nat
  pins  : Nat
  buf   : Nat
  fua   : Bool
  enc   : Bool
  zoned : Bool
  captured : Bool
  kslot : Nat
  data  : List SectorVal
  sel   : List Src
  /-- zone operation behind a ZEROES entry: 0 none, 1 Reset, 2 Finish (R137) -/
  zop   : Nat := 0
  /-- its media copy is written: channel and first cache sector (R156) -/
  copied : Option (Nat × Nat) := none
  /-- its journal records are in the tail: JSEQ of its LAST record (R156) -/
  lastJ : Option Nat := none
deriving DecidableEq, Repr

/-- LGR (R13-R16, R147-R152). -/
structure Lgr where
  /-- live entries, in ordinal order [8,192; R147; reset none] -/
  entries : List LEntry := []
  /-- LGR_ORDNEXT [32 bits; 07; reset 0] -/
  ordNext : Nat := 0
  /-- LGR_WDATA0-7, the copied entry as a 256-bit number [256 bits; 07; reset 0] -/
  wdata : Nat := 0
  /-- the Ledger is frozen by a commit [1 bit; R162, R163; reset 0] -/
  frozen : Bool := false
  /-- pins on media locations: (location, ordinal of the pinning read) [R151; reset none] -/
  pins : List (Loc × Nat) := []
  /-- superseded locations whose entry waits for pins: (writing ordinal, location) [R149; reset none] -/
  superseded : List (Nat × Loc) := []
deriving DecidableEq, Repr

/-- An Extent Map entry (table Extent Map entry). -/
structure Extent where
  idx : Nat
  v   : Bool
  dealloc : Bool
  mig : Bool
  ns  : Nat
  seq : Nat
  ch  : Nat
  sl  : Nat
deriving DecidableEq, Repr

/-- A media-cache run (table Media-cache run). -/
structure Run where
  ns    : Nat
  slba  : Nat
  nlb   : Nat
  zero  : Bool
  unc   : Bool
  ch    : Nat
  cidx  : Nat
  stamp : Nat
deriving DecidableEq, Repr

/-- NVMe zone states (table Zone table entry). -/
inductive ZState where
  | empty | implicit | explicit | closed | readOnly | full | offline
deriving DecidableEq, Repr

/-- A zone table entry (table Zone table entry). -/
structure Zone where
  idx  : Nat
  ch   : Nat
  sl   : Nat
  dwp  : Nat
  st   : ZState
  fwp  : Nat
  ns   : Nat
  cap  : Nat
  mig  : Bool
  /-- ordinal of the last write to the zone, for the choice of R134 -/
  lastWr : Nat
deriving DecidableEq, Repr

/-- Types of journal records (table Journal record types). -/
inductive JType where
  | map | cacheAdd | cacheDel | zone | migIntent | migCommit | migFree | checkpoint | sanStart | sanBand | sanDone | format
deriving DecidableEq, Repr

/-- A journal record; `body` lists its body fields in the order of the table; `durable`: its block in the media journal
is. -/
structure JRec where
  jseq : Nat
  ord  : Nat
  typ  : JType
  dom  : Nat
  ns   : Nat
  last : Bool
  body : List Nat
  durable : Bool
deriving DecidableEq, Repr

/-- An open migration (R159). -/
structure Mig where
  /-- kind: false extent, true zone -/
  zone  : Bool
  idx   : Nat
  newCh : Nat
  newSl : Nat
  oldCh : Nat
  oldSl : Nat
  /-- SEQ of the extent entry, or the DWP of the zone, at the source read -/
  seq   : Nat
  srcJ  : Nat
  ord   : Nat
  /-- ordinals captured by the source read -/
  captured : List Nat
  /-- MIG_COMMIT and the records with it are journalled: JSEQ of the last -/
  commitJ : Option Nat := none
  /-- they are durable: the migration has committed -/
  committed : Bool := false
deriving DecidableEq, Repr

/-- A sanitize in progress (R166). -/
structure San where
  /-- true: overwrite, false: crypto erase -/
  overwrite : Bool
  passes : Nat
  pass   : Nat
  bands  : Nat
  /-- next band to overwrite -/
  band   : Nat
  nsids  : List Nat
  /-- overwrite pattern, 32 bits; inverted between passes -/
  pat    : Nat
  inv    : Bool := false
  /-- every band is overwritten and the tables are reset: JSEQ of SAN_DONE -/
  doneJ  : Option Nat
deriving DecidableEq, Repr

/-- A checkpoint (R155): JSEQ of its CHECKPOINT record, the capture JSEQ and the captured tables. -/
structure Ckpt where
  j : Nat := 0
  cap : Nat := 0
  extents : List Extent := []
  runs : List Run := []
  zones : List Zone := []
deriving DecidableEq, Repr

/-- XMT (R146, R154-R160). XMT_NSDOM, XMT_NSBASE, XMT_MCSIZE and XMT_MCRUNS stand in the register file. -/
structure Xmt where
  /-- Extent Map entries that have been written; an entry not listed has V clear [33,554,432 x 64 bits; 07; reset none] -/
  extents : List Extent := []
  /-- media-cache index [up to 4,194,304 runs; 07; reset none] -/
  runs : List Run := []
  /-- zone table entries in use, ascending index [1,048,576 x 128 bits; 07; reset none] -/
  zones : List Zone := []
  /-- content of media locations [media; R154; DESIGN CHOICE unwritten reads a free value, log 8] -/
  media : List (Loc × MSec) := []
  /-- sectors that a cut write left unreadable, until they are rewritten: channel, head, track, slot [media; R217; reset
  none] -/
  torn : List (Nat × Nat × Nat × Nat) := []
  /-- journal records not yet superseded by a checkpoint, JSEQ order [07; reset none] -/
  journal : List JRec := []
  /-- JSEQ counter: the next JSEQ [64 bits; R155; DESIGN CHOICE 1, log 8] -/
  jseq : Nat := 1
  /-- the newest durable checkpoint; before the first one, empty tables at JSEQ 0 [R155; reset none] -/
  ckpt : Ckpt := {}
  /-- the durable checkpoint before it [R164 step 4; reset none] -/
  ckPrev : Ckpt := {}
  /-- checkpoint written whose CHECKPOINT record is not durable yet [R155; reset none] -/
  ckPend : Option Ckpt := none
  /-- open migrations [R159; reset none] -/
  migs : List Mig := []
  /-- slots in the free pool that have been used before: (channel, slot) [R159, R160, R164; reset none] -/
  freeSlots : List (Nat × Nat) := []
  /-- repaired sectors that firmware is to rewrite: (NSID - 1, LBA) [R234; reset none] -/
  rewrites : List (Nat × Nat) := []
  /-- capacity of the zones in use, which firmware takes from the band layout: (zone index, sectors) [R133; reset none] -/
  bandCap : List (Nat × Nat) := []
  /-- JSEQ of the FORMAT records whose key change has been made [R165, R349; reset none] -/
  fmtDone : List Nat := []
  /-- sanitize in progress [R166; reset none] -/
  san : Option San := none
  /-- event 0x0222 has been recorded since USED was last below 90 % [1 bit; R153; reset 0] -/
  mcWarned : Bool := false
deriving DecidableEq, Repr

/-- One write of a reservoir generation: its descriptor and data (table Commit image). -/
structure RWrite where
  ord  : Nat
  slba : Nat
  ns   : Nat
  dom  : Nat
  nlb  : Nat
  kind : LKind
  kslot : Nat
  enc  : Bool
  fua  : Bool
  zoned : Bool
  zop  : Nat
  data : List SectorVal
deriving DecidableEq, Repr

/-- A reservoir generation as it lies in one half (table Commit record). -/
structure Gen where
  gen   : Nat
  writes : List RWrite
  tail  : List JRec
  /-- f_d of domains whose frontier differs from `frontAll` -/
  front : List (Nat × Nat)
  frontAll : Nat
  /-- ENC bits -/
  encDoms : List Nat
  /-- JSEQ of the last tail record -/
  jseq  : Nat
  /-- NDEV at the commit -/
  ndev  : Nat
  durable : Bool
  /-- not yet durable on media: the half is HELD -/
  held  : Bool
deriving DecidableEq, Repr

/-- RVR (R161-R164). RVR_CFG stands in the register file. -/
structure Rvr where
  /-- the generations in halves 0 and 1 [2; 07 Reservoir commit; reset none] -/
  half : Vector (Option Gen) 2 := Vector.replicate 2 none
  /-- RVR_GEN [32 bits; 07; reset 0] -/
  gen : Nat := 0
  /-- RVR_STAT.ERASED, MiB of the target half [16 bits; 07; reset 0] -/
  erased : Nat := 0
  /-- a commit is running: RVR_STAT.COMMIT [1 bit; 07; reset 0] -/
  commit : Bool := false
  /-- the commit was started in service (R163) [1 bit; R163; reset 0] -/
  inService : Bool := false
  /-- the generation being written [R162; reset none] -/
  image : Option Gen := none
  /-- RVR_STAT.REPLAY [1 bit; 07; reset 0] -/
  replay : Bool := false
  /-- the Dirty Cap is held at 0 until the spindle reaches AT_SPEED (R163) [1 bit; R163; reset 0] -/
  capHold : Bool := false
  /-- generation chosen at restart, with the step of R164 reached (0 not started, 1-7) [R164; reset none] -/
  chosen : Option Nat := none
  recStep : Nat := 0
  /-- ordinals of replayed writes that are not yet durable on media [R164; reset none] -/
  replayed : List Nat := []
  /-- the reservoir progress area of sanitize: JSEQ, bands done in the pass and pass of the newest record [R166; reset none] -/
  sanProg : Option (Nat × Nat × Nat) := none
deriving DecidableEq, Repr

end Sys2Proof.Machine
end

