-- ==== Sys2Proof/Machine/DriveTypes.lean ====
section
/-!
DEFINITION. State of SPN, PSI and LSR (12_spindle_braking_laser.md) and of OPT (13_optical_personality.md).
-/

set_option Elab.async false

namespace Sys2Proof.Machine

/-- SPN_STAT.STATE. -/
inductive SpnState where
  | stopped | align | openLoop | accel | atSpeed | recover | brake | coast | rectify | faulted
deriving DecidableEq, Repr

/-- Stage of braking (R282, R285). -/
inductive BrakeStage where
  /-- waiting for the engines to report unloaded -/
  | unload
  /-- reverse drive with synchronous rectification -/
  | drive
  /-- short-circuit braking -/
  | short
  /-- faulty chopper: body diodes only, waiting for unload -/
  | diodes
deriving DecidableEq, Repr

/-- SPN (R266-R288). SPN_CFG, SPN_LOCKCFG, SPN_PWMCFG, SPN_ILIM, SPN_LEAVE, SPN_BRKCFG and SPN_COMM stand in the
register file. -/
structure Spn where
  /-- SPN_STAT.STATE [4 bits; 12; reset 0] -/
  state : SpnState := .stopped
  /-- SPN_STAT LOCKED, SWAPPED, SHIFT, CHOPON, CHOPFLT, LIMITED, UNLREQ [7 bits; 12; reset 0] -/
  locked : Bool := false
  swapped : Bool := false
  shift : Bool := false
  chopOn : Bool := false
  chopFlt : Bool := false
  limited : Bool := false
  unlReq : Bool := false
  /-- SPN_STAT PRED, CAUSE, STEP [2+8+3 bits; 12; reset 0] -/
  pred : Nat := 0
  cause : Nat := 0
  step : Nat := 0
  /-- SPN_SPEED [24 bits; R268; reset 0xFF_FFFF: no crossing has been seen] -/
  period : Nat := 0xFFFFFF
  /-- a fault is latched [1 bit; R275; reset 0] -/
  latched : Bool := false
  /-- the phase found open, until SPN has stopped [2 bits; R66; reset none] -/
  openPhase : Option Nat := none
  /-- spin-up attempt [2 bits; R277; reset 0] -/
  attempt : Nat := 0
  /-- consecutive qualified and unqualified crossings [R275, R278; reset 0] -/
  qual : Nat := 0
  unqual : Nat := 0
  /-- consecutive crossings of the opposite slope in OPENLOOP [R276; reset 0] -/
  opp : Nat := 0
  /-- revolutions in a row that meet R274, with the crossings of the present one [6+5 bits; R274; reset 0] -/
  goodRevs : Nat := 0
  revSteps : Nat := 0
  /-- step periods of the present revolution, 10 ns [R274; reset none] -/
  revPeriods : List Nat := []
  /-- the six gate outputs GHU GLU GHV GLV GHW GLW [6 bits; R49; reset low] -/
  gates : Nat := 0
  /-- duty of the next period after limiting, Q1.15 [16 bits; R273; reset 0] -/
  duty : Int := 0
  /-- wide free intervals in a row while in shift mode; parity of the PWM centre [R270; reset 0] -/
  wide : Nat := 0
  odd : Bool := false
  /-- braking stage [R282; reset none] -/
  brk : Option BrakeStage := none
  /-- cause of the braking under way [2 bits; table Spindle events; reset 0] -/
  brkCause : Nat := 0
  /-- instant at which OPENLOOP was entered, us [R277; reset 0] -/
  openAt : Nat := 0
  /-- time of the 0x0750 that began braking or coasting, ms [table Spindle events; reset 0] -/
  brkAt : Nat := 0
  /-- time of the loss of lock, ms [R279; reset 0] -/
  lostAt : Nat := 0
  /-- motor rail and SUP_VIN as last sensed, mV input-referred [R58; DESIGN CHOICE 0, log 11] -/
  vmot : Int := 0
  vin : Int := 0
  /-- chopper turn-on instant is being watched (R284) [1 bit; reset 0] -/
  chopWatch : Bool := false
  /-- the phases turn [1 bit; R282; reset 0] -/
  turning : Bool := false
deriving DecidableEq, Repr

/-- Classes of PSI frames, in order of priority (R290). -/
inductive FrameClass where
  | laserOff | level | monitor | unitgo | firmware
deriving DecidableEq, Repr

/-- What the acknowledgement of a frame means to the block that queued it. -/
inductive FrameUse where
  | off | boost | dcPreheat | dcBias | dcRead | mode | monitor | unit | firmware
deriving DecidableEq, Repr

/-- A PSI frame (R289). -/
structure Frame where
  cls   : FrameClass
  use   : FrameUse
  write : Bool
  addr  : Nat
  data  : Nat
deriving DecidableEq, Repr

/-- One PSI port (R289-R291). PSI_CFG and PSI_WRMODE stand in the register file. -/
structure PsiPort where
  /-- frame being sent [R290; reset none] -/
  cur : Option Frame := none
  /-- frames queued, in the order queued [R290; reset none] -/
  queue : List Frame := []
  /-- PSI_FWCMDn W, FRAME [1+29 bits; 12; reset 0] -/
  fwW : Bool := false
  fwFrame : Nat := 0
  /-- a firmware frame has been queued and is not DONE [1 bit; 12; reset 0] -/
  fwBusy : Bool := false
  /-- PSI_FWRESn DONE, ACK, DATA [1+1+16 bits; 12; reset 0] -/
  fwDone : Bool := false
  fwAck : Bool := false
  fwData : Nat := 0
  /-- condition PSI_ACK [1 bit; R290; reset 0] -/
  ack : Bool := false
  /-- unit status from a UNITGO read [8 bits; R290; reset 0] -/
  ustat : Nat := 0
deriving DecidableEq, Repr

/-- Laser levels that LSR sets through the DC register (R292). -/
inductive LaserLevel where
  | off | bias | preheat
deriving DecidableEq, Repr

/-- A power table entry as read (R292). -/
structure PowEntry where
  bias   : Nat
  preheat : Nat
  boost  : Nat
  monph  : Nat
  monwr  : Nat
  win    : Nat
  valid  : Bool
deriving DecidableEq, Repr

/-- LSR state of one channel (R292-R299). Table bases, PADDR and MONCFG stand in the register file. -/
structure Laser where
  /-- LSR_STATn LEVEL (WRITE is PREHEAT with LGn high), ATPWR, FAULT, HEAD, MON [2+1+1+6+16 bits; 12; reset 0] -/
  level : LaserLevel := .off
  atPwr : Bool := false
  fault : Bool := false
  head : Nat := 0
  mon : Nat := 0
  /-- stays OFF until LSR_CLRF (R297) [1 bit; R297; reset 0] -/
  offHold : Bool := false
  /-- power table index named by the last UNITGO [8 bits; R293; reset 0] -/
  lpidx : Nat := 0
  /-- the power table entry last read [128 bits; R292; reset none] -/
  entry : Option PowEntry := none
  /-- instant since which the laser has been above BIAS, us [R296; reset none] -/
  since : Option Nat := none
  /-- write strategy [6 bits; R293; reset 0] -/
  strat : Nat := 0
  /-- strategy entry is VALID under R298 and R313 [1 bit; reset 0] -/
  stratOk : Bool := false
  /-- instant at which DC <- PREHEAT was acknowledged, us [R294; reset none] -/
  preheatAck : Option Nat := none
  /-- consecutive readings outside the window [R295; reset 0] -/
  bad : Nat := 0
  /-- LSR_RDCODEn [16 bits; R299; reset 0] -/
  rdCode : Nat := 0
  /-- time of the last step of the read code, us [R299; reset 0] -/
  rdStepAt : Nat := 0
deriving DecidableEq, Repr

/-- LSR. -/
structure Lsr where
  /-- channels 0-3 [4; 12; reset OFF] -/
  ch : Vector Laser 4 := Vector.replicate 4 {}
  /-- time above BIAS of each head with any, us, behind LSR_ONTIMEh [64 x 32 bits in s; R296; reset 0] -/
  onUs : List (Nat × Nat) := []
deriving DecidableEq, Repr

/-- Phases of an optical seek (OPT_STATn.SPHASE). -/
inductive SeekPhase where
  | idle | layer | sled | track
deriving DecidableEq, Repr

/-- One pickup in OPT (R300-R312). OPT_FMT, SEEKCFG, SLED, WSUMK, PUF, PUL and LAY stand in the register file. -/
structure Pickup where
  /-- OPT_ADDRn LAYER, TRACK, VALID, MISSRUN, UNIT [2+24+1+3+9 bits; 13; reset 0] -/
  aLayer : Nat := 0
  aTrack : Nat := 0
  aValid : Bool := false
  missRun : Nat := 0
  aUnit : Nat := 0
  /-- OPT_STATn FOCUSED, LAYER, SEEK, SPHASE, SLEDS [1+2+1+2+4 bits; 13; reset 0] -/
  focused : Bool := false
  layer : Nat := 0
  seek : Bool := false
  sphase : SeekPhase := .idle
  sleds : Nat := 0
  /-- target layer and track of the seek [2+24 bits; R312; reset 0] -/
  tLayer : Nat := 0
  tTrack : Nat := 0
  /-- layer whose SA code input 0x110 shows [2 bits; R310; reset 0] -/
  saLayer : Nat := 0
  /-- the layer jump has been retried once [1 bit; R312; reset 0] -/
  retried : Bool := false
  /-- waiting for an accepted address after a move [1 bit; R312; reset 0] -/
  await : Bool := false
  /-- SLEDCMD in force, Q1.15 [16 bits; R310; reset 0] -/
  sledCmd : Int := 0
  /-- the continuity condition of R304 is waived until the next acceptance [1 bit; R304; reset 1] -/
  fresh : Bool := true
  /-- address units since the last accepted address [R306; reset 0] -/
  age : Nat := 0
  /-- instant of the last LOAD or sweep, ms; the ramp has captured and the layer is still to be identified [32+1 bits; R311; reset 0] -/
  loadAt : Nat := 0
  capturing : Bool := false
  /-- time of the sled move under way, us [R312; reset 0] -/
  sledUs : Nat := 0
deriving DecidableEq, Repr

/-- OPT. -/
structure Opt where
  /-- pickups 0-3 [4; 13; reset idle] -/
  pu : Vector Pickup 4 := Vector.replicate 4 {}
  /-- OPT_PMON0-15, shadows, WRAP [16 x 32, 16 x 32, 32 bits; 13; reset 0] -/
  cnt : Vector Nat 16 := Vector.replicate 16 0
  cntSh : Vector Nat 16 := Vector.replicate 16 0
  wrap : Nat := 0
deriving DecidableEq, Repr

end Sys2Proof.Machine
end

