-- ==== Sys2Proof/Machine/HostTypes.lean ====
section
/-!
DEFINITION. State of the host interface: PCX, HCE, the NVMe controllers and the NVM subsystem (06_host_commands.md).
-/

set_option Elab.async false

namespace Sys2Proof.Machine

/-- A completion queue entry as posted to the host (R128). -/
structure Cqe where
  sqid  : Nat
  sqhd  : Nat
  cid   : Nat
  phase : Bool
  sct   : Nat
  sc    : Nat
  dnr   : Bool
  dw0   : Nat
  dw1   : Nat
deriving DecidableEq, Repr

/-- A submission queue (R116): `entries` are the entries the host has placed and HCE has not fetched, oldest first. -/
structure Sq where
  id      : Nat
  size    : Nat
  head    : Nat
  tail    : Nat
  cq      : Nat
  /-- 0 urgent, 1 high, 2 medium, 3 low -/
  prio    : Nat
  entries : List NvmeCmd
deriving DecidableEq, Repr

/-- A completion queue (R128, R129): `posted` are the entries the host has not consumed, oldest first. -/
structure Cq where
  id     : Nat
  size   : Nat
  head   : Nat
  tail   : Nat
  phase  : Bool
  vector : Nat
  ien    : Bool
  posted : List Cqe
  /-- completions aggregated towards the next interrupt (R129) -/
  coalesced : Nat
  /-- interrupts raised on the vector so far -/
  raised : Nat := 0
deriving DecidableEq, Repr

/-- How far a fetched command has come. -/
inductive CmdPhase where
  /-- held behind a Format NVM or Sanitize barrier (R16, R120) -/
  | held
  /-- accepted; its host data transfer, if it has one, has not started -/
  | accepted
  /-- a write that waits under the Dirty Cap (R126) -/
  | capped
  /-- its host data transfer is under way -/
  | moving
  /-- its data has been moved (a write: in the buffer) -/
  | moved
  /-- executed; its status is decided; no completion slot reserved -/
  | finished
  /-- its completion is suppressed by R105; the tag is held while work remains (R118) -/
  | orphan
deriving DecidableEq, Repr

/-- A fetched command that holds an internal tag (R118). -/
structure Cmd where
  tag    : Nat
  ctrl   : Nat
  sqid   : Nat
  /-- accepted from the management endpoint (R114) -/
  fromMi : Bool
  cmd    : NvmeCmd
  /-- fetch ordinal, for I/O commands, Format NVM and Sanitize (R13) -/
  ord    : Option Nat
  phase  : CmdPhase
  /-- (SCT, SC), once decided -/
  status : Option (Nat × Nat)
  dnr    : Bool
  dw0    : Nat
  dw1    : Nat
  /-- marked aborted by a match (R130) -/
  aborted : Bool
  /-- a write that was in flight when the spindle lost its lock (R281) -/
  cutLock : Bool := false
  /-- handed to the A-cores with this cause (R122) -/
  exc    : Option Nat
  /-- time of fetch, ms -/
  fetched : Nat
  /-- SQ head pointer after the fetch -/
  sqhd   : Nat
deriving DecidableEq, Repr

/-- What an attached namespace is (R124, R133, R139). -/
structure Ns where
  nsid   : Nat
  zoned  : Bool
  /-- sectors -/
  size   : Nat
  lbaf   : Nat
  /-- protection information settings: bits 2-0 type, 0 none; bit 3 its location (R124) -/
  pi     : Nat := 0
  /-- encrypted, with its key slot -/
  enc    : Bool
  kslot  : Nat
  /-- controllers it is attached to -/
  attached : List Nat
  /-- ready for I/O (R100) -/
  ready  : Bool
  /-- number of zones -/
  zones  : Nat
  /-- format in progress, sanitize in progress (R120 check 4) -/
  formatting : Bool
  sanitizing : Bool
  /-- registrants (controller, key) and the reservation (holder, type) -/
  registrants : List (Nat × Nat)
  resv   : Option (Nat × Nat)
  /-- reservation generation counter -/
  rgen   : Nat
deriving DecidableEq, Repr

/-- What an offset of BAR0 addresses (table PCIe features, R111). -/
inductive BarTarget where
  /-- a controller register, by offset -/
  | register (off : Nat)
  /-- the tail doorbell of a submission queue, the head doorbell of a completion queue -/
  | sqTail (q : Nat)
  | cqHead (q : Nat)
  /-- Dword w of the entry of a vector in the MSI-X table -/
  | msixEntry (vector w : Nat)
  /-- 64 bits of the pending-bit array -/
  | msixPending (w : Nat)
  | unused
deriving DecidableEq, Repr

/-- One NVMe controller with its port (R111-R113). -/
structure Ctrl where
  /-- PERSTn# is low [1 bit; R105; reset 1] -/
  perst : Bool := true
  /-- the link is up [1 bit; R96; reset 0] -/
  linkUp : Bool := false
  /-- configuration space opened by firmware [1 bit; R96; reset 0] -/
  cfgOpen : Bool := false
  /-- configuration space holds the values firmware loaded at start [1 bit; R105, R112; reset 1] -/
  cfgAtLoaded : Bool := true
  /-- CC.EN [1 bit; R105; reset 0] -/
  en : Bool := false
  /-- CC.AMS: weighted round robin with urgent class [1 bit; R116; reset 0] -/
  wrr : Bool := false
  /-- CSTS.RDY [1 bit; R100; reset 0] -/
  rdy : Bool := false
  /-- a firmware write of RDY = 1 held until SYS_STAT.READY [1 bit; R100; reset 0] -/
  rdyHeld : Bool := false
  /-- NSSR was written [1 bit; R103; reset 0] -/
  nssro : Bool := false
  /-- submission queues [257; R113; reset none] -/
  sqs : List Sq := []
  /-- completion queues [257; R113; reset none] -/
  cqs : List Cq := []
  /-- queue pairs granted by Number of Queues [R113; PRESUMED 256, log 7] -/
  nq : Nat := 256
  /-- outstanding Asynchronous Event Requests: tags [8; R113; reset none] -/
  aers : List Nat := []
  /-- asynchronous events that wait for a request [R138, R139; reset none] -/
  aens : List Nat := []
  /-- concurrent Aborts under way: tags [8; R130; reset none] -/
  aborts : List Nat := []
  /-- Keep Alive timer deadline, ms [06 KAS; reset none] -/
  kato : Option Nat := none
  /-- exception queue: tags handed to the A-cores, oldest first [R122; reset none] -/
  excq : List Nat := []
  /-- I/O queue whose turn comes next [R116; reset 1] -/
  turn : Nat := 1
  /-- weighted round robin: turns left to the high, medium and low class in this round [R116; reset 0] -/
  credits : Nat × Nat × Nat := (0, 0, 0)
  /-- SMART critical warning [8 bits; R139, R368; reset 0] -/
  critWarn : Nat := 0
  /-- Changed Zone List: (NSID, zone) [R138; reset none] -/
  changedZones : List (Nat × Nat) := []
  /-- Volatile Write Cache feature 0x06 [1 bit; R126; PRESUMED 1, log 7] -/
  vwc : Bool := true
  /-- Interrupt Coalescing threshold and time, 100 us units [8+8 bits; R129; PRESUMED 0, log 7] -/
  icThr : Nat := 0
  icTime : Nat := 0
  /-- Arbitration Burst exponent [3 bits; R116; PRESUMED 7, log 7] -/
  ab : Nat := 7
  /-- Read Recovery Level [4 bits; R145; PRESUMED 4, log 7] -/
  rrl : Nat := 4
  /-- Temperature Threshold, composite over and under, kelvin [16+16 bits; PRESUMED 0xFFFF and 0, log 7] -/
  tempOver : Nat := 0xFFFF
  tempUnder : Nat := 0
  /-- other features set by Set Features: (FID, CDW11) [06; reset none] -/
  feats : List (Nat × Nat) := []
  /-- pages posted by the last Get Log Page, Identify, Report Zones, Get Features (payload for the host) [06; reset none] -/
  lastData : List Nat := []
deriving DecidableEq, Repr

/-- HCE with the NVM subsystem behind it. HCE_ABORTREQ stands in the register file. -/
structure Hce where
  /-- controllers of ports 0, 1 [2; R113] -/
  ctrl : Vector Ctrl 2 := Vector.replicate 2 {}
  /-- live commands by tag, ascending [4,096 tags; R118; reset none] -/
  cmds : List Cmd := []
  /-- the controller whose turn comes next [1 bit; R116; reset 0] -/
  turn : Nat := 0
  /-- the turn under way: controller, queue, entries it may still fetch [R116, R117; reset none] -/
  burst : Option (Nat × Nat × Nat) := none
  /-- a fetch pause is under way: causes LEDGER, TAGS, AGE and start, ms [R119; reset none] -/
  pause : Option (Bool × Bool × Bool × Nat) := none
  /-- fetching closed: power loss, reset sequence, GLOW entry [1 bit; R22, R103; reset 0] -/
  closed : Bool := false
  /-- fetching of I/O commands closed by an in-service commit [1 bit; R163; reset 0] -/
  ioClosed : Bool := false
  /-- HCE_ABORTRES DONE, MATCHED, TAG [1+1+12 bits; 06; reset 0] -/
  abDone : Bool := false
  abMatched : Bool := false
  abTag : Nat := 0
  /-- namespaces [64; R113; reset none: restored by firmware] -/
  ns : List Ns := []
  /-- vendor features 0xC0 Recovery Time Limit, 0xC1 Dirty Cap [16+16 bits; R143; default 300, 256] -/
  rtl : Nat := 300
  dirtyCap : Nat := 256
  /-- saved values of the vendor features: (FID, value) [R143; reset none] -/
  saved : List (Nat × Nat) := []
  /-- firmware download buffer: (offset, length) pieces received and the image they make [06; reset none] -/
  fwDl : List (Nat × Nat) := []
  /-- firmware slots 1, 2: image number held, 0 empty [06 FRMW; PRESUMED empty, log 7] -/
  fwSlots : Vector Nat 2 := Vector.replicate 2 0
  /-- active slot and slot activated at the next reset, 0 none [06; reset 0] -/
  fwActive : Nat := 0
  fwNext : Nat := 0
  /-- Sanitize Status: 0 never, 1 done, 2 in progress, 3 failed [3 bits; R110; reset 0] -/
  sanStatus : Nat := 0
  /-- device self-test: code running, 0 none; last result [06; reset 0] -/
  dst : Nat := 0
  /-- NVMe-MI configuration: (identifier, value) [R114; reset none] -/
  miCfg : List (Nat × Nat) := []
  /-- VPD bytes [R114; PRESUMED empty, log 7] -/
  vpd : List (Nat × Nat) := []
  /-- the last NVMe-MI response: (status, data) [R114; reset none] -/
  miResp : Option (Nat × List Nat) := none
  /-- head states and actuator states that firmware reports in log page 0xC3: (head or actuator, state) [06 log page 0xC3; reset none, 0 = in use] -/
  headState : List (Nat × Nat) := []
  actState : List (Nat × Nat) := []
  /-- health figures that firmware gathers for log page 0xC3, by figure and actuator or head (healthKey) [06 log page 0xC3;
  reset none] -/
  health : List (Nat × Nat) := []
  /-- instant of the last fetch or completion, ms, from which the idle time of autonomous transitions counts [R80; reset 0] -/
  busyAt : Nat := 0
  /-- channels lost (R139) [4 bits; R139; reset none] -/
  lostChan : List Nat := []
deriving DecidableEq, Repr

end Sys2Proof.Machine
end

