-- ==== Sys2Proof/Machine/MemTypes.lean ====
section
/-!
DEFINITION. State of DMC and BCC (14_memory_and_buffer_cache.md). The bytes of DDR5 lie in the memory of State.
-/

set_option Elab.async false

namespace Sys2Proof.Machine

/-- A row log entry (DMC_ROWLOGi). -/
structure RowLog where
  i     : Nat
  ue    : Bool
  rank  : Nat
  subch : Nat
  dev   : Nat
  bg    : Nat
  ba    : Nat
  row   : Nat
  /-- time of the first logged error, hours -/
  since : Nat
  ce    : Nat
deriving DecidableEq, Repr

/-- The repair under way (DMC_PPR0). -/
structure PprReq where
  hard  : Bool
  rank  : Nat
  subch : Nat
  bg    : Nat
  ba    : Nat
  row   : Nat
deriving DecidableEq, Repr

/-- DMC (R98, R316-R327). DMC_CFG, REGATTR, SCRUB.EN and HOURS, SPLITADDR, SPLITDATA, SPLITCHK, ROWLIM and the PPR
fields stand in the register file. -/
structure Dmc where
  /-- DMC_INIT DONE, BUSY, FAIL, MIB [1+1+1+15 bits; 05; reset 0] -/
  initDone : Bool := false
  initBusy : Bool := false
  initFail : Bool := false
  mib : Nat := 0
  /-- accesses held above the progress mark: (address, bytes, write data; none for a read), in arrival order [R98; reset none] -/
  heldAcc : List (Master × Nat × Nat × Option Nat) := []
  /-- poisoned bytes, by DDR5 offset [R322; reset none] -/
  poison : List Nat := []
  /-- lines whose check bytes were last written raw: (line, the 32 check bytes as a number) [R323; reset none] -/
  rawChk : List (Nat × Nat) := []
  /-- DMC_SPLITCTL.DONE [1 bit; 14; reset 0] -/
  splitDone : Bool := false
  /-- DMC_SCRUBPOS [27 bits; 14; reset 0] -/
  scrubPos : Nat := 0
  /-- DMC_SCRUB.PASSES [16 bits; 14; reset 0] -/
  passes : Nat := 0
  /-- corrected and failed reads of the present pass [table Memory and cache events 0x0A14; reset 0] -/
  passCe : Nat := 0
  passUe : Nat := 0
  /-- row log [16 entries; R325; reset none] -/
  rowLog : List RowLog := []
  /-- repair under way [R326; reset none] -/
  ppr : Option PprReq := none
  /-- DMC_PPRRES DONE, RES [1+3 bits; 14; reset 0] -/
  pprDone : Bool := false
  pprRes : Nat := 0
deriving DecidableEq, Repr

/-- A line held in BCC. -/
structure CLine where
  set_  : Nat
  way   : Nat
  /-- line number: DDR5 offset / 128 -/
  line  : Nat
  /-- false: a reservation with no valid data (R337) -/
  valid : Bool
  dirty : Bool
  locked : Bool
  /-- the 128 bytes, little-endian -/
  data  : Nat
  /-- order of the last use -/
  used  : Nat
deriving DecidableEq, Repr

/-- BCC_STAT.STATE. -/
inductive BccState where
  | disabled | enabled | draining
deriving DecidableEq, Repr

/-- A range operation under way (R334). -/
structure RangeOp where
  op    : Nat
  /-- first line, as address bits [39:7] -/
  first : Nat
  lines : Nat
  nfail : Nat
  firstFail : Nat
deriving DecidableEq, Repr

/-- BCC (R329-R339). OPADDR, OPLINES and FAILCFG stand in the register file. -/
structure Bcc where
  /-- BCC_STAT STATE, INVD [3+1 bits; 14; reset 0, 1] -/
  state : BccState := .disabled
  invd : Bool := true
  /-- lines held [16 ways x 8,192 sets; R329; reset none] -/
  lines : List CLine := []
  /-- order counter of uses [R330; reset 0] -/
  tick : Nat := 0
  /-- BCC_DRAINSET; lines written back by the drain [13 bits; 14; reset 0] -/
  drainSet : Nat := 0
  drained : Nat := 0
  /-- BCC_OPRES DONE, RES, NFAIL [1+3+24 bits; 14; reset 0] -/
  opDone : Bool := false
  opRes : Nat := 0
  opNfail : Nat := 0
  /-- BCC_OPFAIL, address bits [39:7] [33 bits; 14; reset 0] -/
  opFail : Nat := 0
  /-- operation under way [R334; reset none] -/
  op : Option RangeOp := none
  /-- BCC_WAYDIS [16 bits; 14; reset 0] -/
  wayDis : List Nat := []
  /-- BCC_WAYCE0-15 [16 x 16 bits; 14; reset 0] -/
  wayCe : Vector Nat 16 := Vector.replicate 16 0
  /-- BCC_LOCKINVAL_CNT [32 bits; 14; reset 0] -/
  lockInval : Nat := 0
deriving DecidableEq, Repr

end Sys2Proof.Machine
end

