-- ==== Sys2Proof/Machine/RecTypes.lean ====
section
/-!
DEFINITION. State of EVR, LIF and CAL (17_records_counters_calendar.md).
-/

set_option Elab.async false

namespace Sys2Proof.Machine

/-- An event record (R383). -/
structure Event where
  seq   : Nat
  sec   : Nat
  usec  : Nat
  code  : Nat
  src   : Nat
  flags : Nat
  p0    : Word
  p1    : Word
  p2    : Word
deriving DecidableEq, Repr

/-- A flood in force (R387). -/
structure Flood where
  /-- periods since the flood began, s -/
  secs   : Nat
  /-- code trackers: (code, events seen), at most 32 -/
  codes  : List (Nat × Nat)
  /-- events seen by the shared 33rd tracker -/
  shared : Nat
deriving DecidableEq, Repr

/-- EVR (R383-R391). FLOODCFG, SWP and SWEV stand in the register file. -/
structure Evr where
  /-- ingest queue, oldest first [256; R384; reset none] -/
  queue : List Event := []
  /-- founding area: records by slot [4,096; R386; reset none] -/
  founding : List Event := []
  /-- circulating area, newest first [65,536; R386; reset none] -/
  circ : List Event := []
  /-- staging area, newest first [1,024; R390; reset none] -/
  staged : List Event := []
  /-- EVR_NEXT [64 bits; 17; reset 0] -/
  next : Nat := 0
  /-- EVR_STAT.OPEN [1 bit; 17; reset 1] -/
  opn : Bool := true
  /-- a STORE has been accepted [1 bit; R390; reset 0] -/
  stored : Bool := false
  /-- EVR_BASE [64 bits; 17; reset 0] -/
  base : Nat := 0
  /-- EVR_LOST [32 bits; 17; reset 0] -/
  lost : Nat := 0
  /-- events lost since the queue last drained [R385; reset 0] -/
  lostNow : Nat := 0
  /-- set LOSS, STEP on the next stored record [2 bits; R385, R397; reset 0] -/
  lossFlag : Bool := false
  stepFlag : Bool := false
  /-- records counted in the present period [R387; reset 0] -/
  period : Nat := 0
  /-- flood in force [R387; reset none] -/
  flood : Option Flood := none
  /-- EVR_NEXT at the start of the most recent flood; while OPEN = 1, the number staged then [64 bits; R387; reset none] -/
  lastFlood : Option Nat := none
  /-- EVR_CUR, the cursor [64 bits; 17; reset 0] -/
  cur : Nat := 0
  /-- window EVR_WIN0-7 as a 256-bit number; WINSTAT DONE, RES, AREA [256+1+3+2 bits; 17; reset 0] -/
  win : Nat := 0
  winDone : Bool := false
  winRes : Nat := 0
  winArea : Nat := 0
  /-- held EVR_NEXT1, OLDEST0, OLDEST1, STAT (R388) [4 x 32 bits; R388; reset none] -/
  hold : Option (Nat × Nat × Nat × Nat) := none
deriving DecidableEq, Repr

/-- LIF (R392-R395). ADDLO and ADDHI stand in the register file. -/
structure Lif where
  /-- counters that are not 0: (index, value) [256 x 64 bits; R392; reset 0] -/
  cnt : List (Nat × Nat) := []
  /-- saturation bits [256 bits; R394; reset none] -/
  sat : List Nat := []
  /-- LIF_STAT.OPEN [1 bit; 17; reset 1] -/
  opn : Bool := true
  /-- shadows: counters, saturation bits, seconds [256 x 64 + 256 + 48 bits; R395; reset 0] -/
  shCnt : List (Nat × Nat) := []
  shSat : List Nat := []
  shSec : Nat := 0
deriving DecidableEq, Repr

/-- CAL (R396-R399). SET registers, ADJ offset, CFG and ALM stand in the register file. -/
structure Cal where
  /-- seconds and microseconds [48+20 bits; R396; reset 0] -/
  sec : Nat := 0
  usec : Nat := 0
  /-- copy held by the last read of CAL_USEC: seconds [48 bits; R396; reset 0] -/
  hSec : Nat := 0
  /-- CAL_STAT RCTIME, RCSINCE, SRC [1+1+3 bits; 17; reset 1, 1, 0] -/
  rcTime : Bool := true
  rcSince : Bool := true
  src : Nat := 0
  /-- CAL_STAT.ADJREM, signed us; SLEWING while it is not 0 [24 bits; 17; reset 0] -/
  adjRem : Int := 0
  /-- fraction of a microsecond of slew carried, ppm x us [R397; reset 0] -/
  slewFrac : Nat := 0
deriving DecidableEq, Repr

end Sys2Proof.Machine
end

