-- ==== Sys2Proof/Machine/SecTypes.lean ====
section
/-!
DEFINITION. State of CIP, KST and TRU, of the fuses and of the debug port (15_security.md).
-/

set_option Elab.async false

namespace Sys2Proof.Machine

/-- A key slot that is VALID or LOST (R347-R351); `key` names the 512-bit XTS key. -/
structure KSlot where
  slot   : Nat
  valid  : Bool
  lost   : Bool
  retired : Bool
  ns     : Nat
  user   : Nat
  epoch  : Nat
  use_   : Nat
  limit  : Nat
  key    : Nat
  /-- USE at the last checkpoint -/
  ckpt   : Nat
  /-- changed since the last checkpoint -/
  changed : Bool
  /-- event 0x0B31 has been recorded -/
  warned : Bool
deriving DecidableEq, Repr

/-- A key table record (table Key table record): wrapped under the KEK of `epoch`; `good` = KW and CRC hold. -/
structure KRec where
  slot   : Nat
  ns     : Nat
  user   : Nat
  epoch  : Nat
  retired : Bool
  use_   : Nat
  limit  : Nat
  key    : Nat
  good   : Bool
deriving DecidableEq, Repr

/-- One CIP user page (R353, R354). -/
structure UserPage where
  /-- CIP_USTAT OPEN, CRED, LOCKOUT, FAILS [1+1+1+4 bits; 15; reset 0] -/
  opn : Bool := false
  cred : Option Nat := none
  lockout : Bool := false
  fails : Nat := 0
  /-- CIP_UNSMASK [64 bits; 15; DESIGN CHOICE 0, log 12] -/
  nsmask : Nat := 0
deriving DecidableEq, Repr

/-- The owner policy in force (R363). -/
structure Policy where
  part  : Bool := false
  openRegion : Bool := false
  ownerDebug : Bool := false
deriving DecidableEq, Repr

/-- CIP, KST, TRU, fuses. CIP_LOCK (Shared), KST_SLOTSEL and the mailbox words stand in the register file. -/
structure Sec where
  /-- CIP_MODE.PART [1 bit; R352; reset 0] -/
  part : Bool := false
  /-- CIP_NSKEYk ENC, SLOT of namespaces with a key: (k, ENC, slot) [64 x 12 bits; 15; reset 0] -/
  nskey : List (Nat × Bool × Nat) := []
  /-- slot whose key each lane holds [4 lanes; R346; reset none] -/
  lane : Vector (Option Nat) 4 := Vector.replicate 4 none
  /-- user pages 0-31 [32; R353; reset closed] -/
  users : Vector UserPage 32 := Vector.replicate 32 {}
  /-- key slots VALID or LOST, ascending [2,048; R348; reset none] -/
  slots : List KSlot := []
  /-- attributes copied by the last SLOTSEL write: ATTR, USE, LIMIT [32+40+40 bits; 15; reset 0] -/
  selAttr : Nat := 0
  selUse : Nat := 0
  selLim : Nat := 0
  /-- KST_STAT L2PEND [1 bit, wick; R357; reset 0] -/
  l2pend : Bool := false
  /-- KST_STAT RESTORED [1 bit; 15; reset 0] -/
  restored : Bool := false
  /-- fuses: SVN, EPOCH, ALARM counts, ENCDIS [64+16+8+1 fuses; R340; DESIGN CHOICE unblown, log 12] -/
  svn : Nat := 0
  epoch : Nat := 0
  alarms : Nat := 0
  encdis : Bool := false
  /-- owner keys 0-3: digest and revoked; none = not programmed [4 x 513 bits; R340; DESIGN CHOICE none, log 12] -/
  okey : Vector (Option (Nat × Bool)) 4 := Vector.replicate 4 none
  /-- Umwyn keys 0-3: digest, usage mask, revoked [4 x (512+4+1) bits; R340; DESIGN CHOICE digest k + 1, mask 0xF, not revoked, log 12] -/
  ukey : Vector (Nat × Nat × Bool) 4 := #v[(1, 0xF, false), (2, 0xF, false), (3, 0xF, false), (4, 0xF, false)]
  /-- owner policy in force and stored for the next reset [R352, R363; DESIGN CHOICE none granted, log 12] -/
  policy : Policy := {}
  policyNext : Policy := {}
  /-- debug challenge outstanding [256 bits; R359; reset none] -/
  dbgChal : Option Nat := none
  /-- a level-2 unlock refuses every unwrap until POR [1 bit; R359; reset 0] -/
  noUnwrap : Bool := false
  /-- measurement registers 0-15 [16 x 512 bits; R360; reset 0] -/
  meas : Vector Nat 16 := Vector.replicate 16 0
  /-- DEVID, bytes 0-15 of the identity public key digest [128 bits; R361, R362; reset 0 until the first start derives it,
  log 12] -/
  devid : Nat := 0
  /-- the attestation key pair, by its seed, its public key and the identity signature over that [256 bits + 2,592 + 4,627
  bytes; R361; reset 0] -/
  akSeed : Nat := 0
  apub : Nat := 0
  acert : Nat := 0
  /-- NSEQ, nonce, the report of 13,000 bytes captured with them, report ready [64+256 bits + 13,000 bytes; R362; reset
  0] -/
  nseq : Nat := 0
  nonce : Nat := 0
  report : Nat := 0
  signing : Bool := false
  repReady : Bool := false
  /-- TRU_MBRES DONE, RES, length [1+3+20 bits; 15; reset DONE 1 so that a first GO is taken, log 12] -/
  mbDone : Bool := true
  mbRes : Nat := 0
  mbLen : Nat := 0
  /-- a request is with the security core: CMD [8 bits; R363; reset none] -/
  mbBusy : Option Nat := none
  /-- key table copies: reservoir key area and media copies [R350; reset none] -/
  keyRecs : List KRec := []
  mediaRecs : List KRec := []
  /-- the snuff detectors are armed from this instant, ms [R355; reset none] -/
  armFrom : Option Nat := none
  /-- a level-1 snuff waits for its restore (R356) [1 bit; R356; reset 0] -/
  snuffed : Bool := false
  /-- time of the last detection, ms [R356; reset 0] -/
  snuffAt : Nat := 0
  /-- ALARM fuse and event of a snuff wait for the security core: source [R356; reset none] -/
  alarmDue : Option Nat := none
  /-- encrypted namespaces, NSID - 1, that a level-2 snuff has erased and firmware has still to deallocate [64 bits; R357;
  reset none] -/
  wiped : List Nat := []
  /-- security version of the running first-stage image; its digest [8 bits + 512; R344; reset 0] -/
  imgSvn : Nat := 0
  imgDigest : Nat := 0
deriving DecidableEq, Repr

end Sys2Proof.Machine
end

