-- ==== Sys2Proof/Machine/SeqTypes.lean ====
section
/-!
DEFINITION. State of CST and of one actuator sequencer ASQn (08_actuator_sequencers.md).
-/

set_option Elab.async false

namespace Sys2Proof.Machine

/-- A dispatch entry (CST_DISPk). -/
structure DispEntry where
  k     : Nat
  valid : Bool
  opn   : Bool
  addr  : Nat
deriving DecidableEq, Repr

/-- A microcode image the security core has verified (R190, R435). -/
structure McImage where
  /-- false patch, true open region -/
  opn   : Bool
  ver   : Nat
  svn   : Nat
  words : List Nat
  /-- (ROM address, patch offset) -/
  matches_ : List (Nat × Nat)
  /-- (entry index, address) -/
  disp  : List (Nat × Nat)
  /-- number the measurement register is extended with -/
  digest : Nat
deriving DecidableEq, Repr

/-- CST_ACT.STATE. -/
inductive ActState where
  | idle | armed | copying | abandoned
deriving DecidableEq, Repr

/-- CST (R167-R168, R188-R193). -/
structure Cst where
  /-- patch RAM words loaded: (offset, word); others hold the unloaded word 1 [2,048 x 128 bits; R168; reset unloaded] -/
  patch : List (Nat × Nat) := []
  /-- customer-open region words loaded [4,096 x 128 bits; R168; reset unloaded] -/
  openReg : List (Nat × Nat) := []
  /-- match registers in use: (k, ROMADDR, POFF) [64; 08; reset none] -/
  mtch : List (Nat × Nat × Nat) := []
  /-- dispatch entries that differ from the default table [256; R188; reset none] -/
  disp : List DispEntry := []
  /-- CST_PVER VER, SVN, LOADED, NMATCH [16+8+1+7 bits; R192; reset 0] -/
  pVer : Nat := 0
  pSvn : Nat := 0
  pLoaded : Bool := false
  pNmatch : Nat := 0
  /-- CST_OPENVER LOADED, NWORDS, VER [1+13+16 bits; R192; reset 0] -/
  oLoaded : Bool := false
  oNwords : Nat := 0
  oVer : Nat := 0
  /-- CST_OPENCTL.EN [1 bit; 08; reset 0] -/
  openEn : Bool := false
  /-- CST_ACT.STATE and KIND [4+1 bits; 08; reset 0] -/
  act : ActState := .idle
  actKind : Bool := false
  /-- instant of ARM, ms [R191; reset 0] -/
  armAt : Nat := 0
  /-- the staged image [R435; reset none] -/
  staged : Option McImage := none
deriving DecidableEq, Repr

/-- ASQn_STATE.PHASE as stored; waiting and held are read from the other fields. -/
inductive AsqPhase where
  | idle | running | abortHandler | faultHandler | halted
deriving DecidableEq, Repr

/-- A result entry (table Result entry). -/
structure AsqResult where
  tag    : Nat
  status : Nat
  opc    : Nat
  done   : Nat
  endpc  : Nat
  fail   : Nat
  time   : Nat
  cause  : Nat
deriving DecidableEq, Repr

/-- ASQn (R169-R187). ASQn_ATOMMAX and, while PVALID = 0, the PTASK words stand in `ptask`. -/
structure Asq where
  /-- ASQn_PTASK0-11 [12 x 32 bits; 08; reset 0] -/
  ptask : Vector Word 12 := Vector.replicate 12 0
  /-- PVALID [1 bit; 08; reset 0] -/
  pvalid : Bool := false
  /-- ASQn_ATASK0-11 [12 x 32 bits; 08; reset 0] -/
  atask : Vector Word 12 := Vector.replicate 12 0
  /-- AVALID [1 bit; 08; reset 0] -/
  avalid : Bool := false
  /-- ASQn_CMDRES.RES [2 bits; 08; reset 0] -/
  cmdRes : Nat := 0
  /-- ASQn_STATE.PHASE [4 bits; 08; reset 0] -/
  phase : AsqPhase := .idle
  /-- ASQn_STATE.PC [16 bits; 08; reset 0] -/
  pc : Nat := 0
  /-- the word at PC has been issued and waits or completes [1 bit; R169; reset 0] -/
  issued : Bool := false
  /-- the executing word [128 bits; R168; reset 0] -/
  word : Nat := 0
  /-- call stack, newest first [8 x 16 bits; R171; reset empty] -/
  stack : List Nat := []
  /-- CNT0, CNT1 [16+16 bits; R174; reset 0] -/
  cnt0 : Nat := 0
  cnt1 : Nat := 0
  /-- the word last issued has ATOMIC = 1 [1 bit; R178; reset 0] -/
  inAtom : Bool := false
  /-- instant at which the run's first word issued, us [R179; reset 0] -/
  atomAt : Nat := 0
  /-- instant at which the word last issued, us [R173; reset 0] -/
  issueAt : Nat := 0
  /-- the ATOMIC bound of the run has been reached [1 bit; R179; reset 0] -/
  atomOver : Bool := false
  /-- ABORT pending, DEADLINE pending, FAULT pending [1+1+1 bits; R178; reset 0] -/
  reqAbort : Bool := false
  reqDeadline : Bool := false
  reqFault : Bool := false
  /-- the deadline of the ACTIVE task has passed [1 bit; R187; reset 0] -/
  dlPassed : Bool := false
  /-- cause of the pending FAULT: an event code; 0x0312 INTERLOCK [16 bits; R180; reset 0] -/
  faultCause : Nat := 0
  /-- status forced at task end by the handler [8 bits; R180; reset none] -/
  forced : Option Nat := none
  /-- cause reported in result word 3 [16 bits; R184; reset 0] -/
  cause : Nat := 0
  /-- level controls in force: DPC bits 31-24 [8 bits; R175; reset 0] -/
  levels : Nat := 0
  /-- unit last addressed by UNITGO and its operand [4+30 bits; R176; reset 0] -/
  lastUnit : Nat := 0
  unitField : Nat := 0
  /-- iteration limit and priority of the last UNITGO to LDP from the task [6+2 bits; R227; reset none] -/
  ldpGo : Option (Nat × Nat) := none
  /-- results held, oldest first [8; 08; reset none] -/
  results : List AsqResult := []
  /-- ASQn_ABRES DONE, RES [1+2 bits; 08; reset 0] -/
  abDone : Bool := false
  abRes : Nat := 0
  /-- ticket of the ACTIVE task: (ticket, generation) [ASQn_LVTKT; R186; reset none] -/
  ticket : Option (Nat × Nat) := none
  /-- sectors done and first failing sector of the ACTIVE task [17+16 bits; R184; reset 0, 0xFFFF] -/
  done : Nat := 0
  fail : Nat := 0xFFFF
  /-- sectors counted in DONE: (track, slot) [R184; reset none] -/
  counted : List (Nat × Nat) := []
  /-- sectors whose read data BUF_WR has stored: (track, slot) [R175; reset none] -/
  stored : List (Nat × Nat) := []
  /-- SECT_SKIP has marked the current sector [1 bit; R175; reset 0] -/
  skipMark : Bool := false
  /-- sector pointer: track, slot on the track, and data sectors passed [24+16+17 bits; R175, R308; reset 0] -/
  secTrack : Nat := 0
  secPtr : Nat := 0
  secCnt : Nat := 0
  /-- write data of the current sector is staged [1 bit; R175, R346; reset 0] -/
  staged : Bool := false
  /-- the current sector is the parity sector that TPE_EMIT writes [1 bit; R230; reset 0] -/
  emit : Bool := false
  /-- instant of promotion, us [R184, R187; reset 0] -/
  us : Nat := 0
  /-- microcode was fetched from the open region last [1 bit; OPENX; reset 0] -/
  openX : Bool := false
  /-- current head and whether its reader check has passed since the last HEAD_SW [6+1 bits; R66, R177; reset 0] -/
  head : Nat := 0
  headOk : Bool := false
  /-- a HEAD_SW waits for its reader check [1 bit; R66; reset 0] -/
  headChk : Bool := false
  /-- held for activation [1 bit; R191; reset 0] -/
  actHold : Bool := false
  /-- the event that the executing word waits for has come [1 bit; R173; reset 0] -/
  waitDone : Bool := false
  /-- ASQn_HEADRET0-1, heads retired [64 bits; R425; reset 0] -/
  headRet : Nat := 0
deriving DecidableEq, Repr

end Sys2Proof.Machine
end

