-- ==== Sys2Proof/Machine/ServoTypes.lean ====
section
/-!
DEFINITION. State of one servo engine SVEn (11_servo_control_engine.md).
-/

set_option Elab.async false

namespace Sys2Proof.Machine

/-- One servo table: rows (index, 64-bit word) and coefficients (index, 16-bit word) that are not 0. -/
structure SveTable where
  rows  : List (Nat × Nat) := []
  coefs : List (Nat × Nat) := []
deriving DecidableEq, Repr

/-- A jump or focus sweep under way (R262, R263). -/
inductive SveMove where
  | none
  /-- axis (false tracking, true focus), DIR, crossings left before the brake, stage (0 kick, 1 brake, 2 loop restored),
  samples of the kick or left of the brake, the held loop output as a DAC code, started by OPT -/
  | jump (focus dir : Bool) (left stage n held : Nat) (byOpt : Bool)
  /-- present ramp code -/
  | sweep (code : Nat)
deriving DecidableEq, Repr

/-- SVEn. PERIOD, PLCFG, WULIM, SHOCK, RETRACT, SEEKCFG, DGBASE, HOLD, JUMP, FSWEEP, TRCTL, TRTHR and the shadow
mailbox words stand in the register file. -/
structure Sve where
  /-- the active table [512 x 64 + 1,024 x 16 bits; R244; reset 0] -/
  active : SveTable := {}
  /-- the shadow table [512 x 64 + 1,024 x 16 bits; R244; reset 0] -/
  shadow : SveTable := {}
  /-- a swap has been accepted since the last reset of the engine [1 bit; 11 SVEn_CFG; reset 0] -/
  swapped : Bool := false
  /-- SVEn_CFG.RUN = SVEn_STATE.RUNNING [1 bit; 11; reset 0] -/
  run : Bool := false
  /-- SVEn_SWAP PEND, RES, REASON, ROW [1+2+4+9 bits; 11; reset 0] -/
  pend : Bool := false
  res : Nat := 0
  reason : Nat := 0
  row : Nat := 0
  /-- SVEn_LAT MAXLATE, STATIC [16+16 bits; 11; reset 0] -/
  maxLate : Nat := 0
  static_ : Nat := 0
  /-- SVEn_CADDR SEL, INC, index and SVEn_SADDR index [1+1+10+8 bits; 11; reset 0] -/
  cSel : Bool := false
  cInc : Bool := false
  cIdx : Nat := 0
  sIdx : Nat := 0
  /-- state words S0-S255 that are not 0: (index, signed Q1.15) [256 x 16 bits; R245; reset 0] -/
  s : List (Nat × Int) := []
  /-- inputs 0x100-0x11F as refreshed at the last trigger, signed Q1.15; PES and POSC are valid [32 x 16 + 1 bits; R252; reset 0] -/
  inp : Vector Int 32 := Vector.replicate 32 0
  pesOk : Bool := false
  /-- ACC0-ACC3, units of 2^-30 [4 x 40 bits; 11 Numbers; reset 0] -/
  acc : Vector Int 4 := Vector.replicate 4 0
  /-- MAIL0-63 as committed, words that are not 0 [64 x 16 bits; R249; reset 0] -/
  mail : List (Nat × Nat) := []
  /-- a mailbox commit waits for the boundary [1 bit; R249; reset 0] -/
  mailPend : Bool := false
  /-- command latches of CDAn_0-3 as DAC codes [4 x 16 bits; R246; reset mid-scale 0x8000] -/
  cda : Vector Nat 4 := Vector.replicate 4 0x8000
  /-- CDAn_k declared shorted [4 bits; R66; reset none] -/
  cdaFault : List Nat := []
  /-- SVEn_STATE LOADED, SEEKING, SETTLED, ON_TRACK, HOLD, RETRACT, MAFAULT [7 bits; 11; reset 0] -/
  loaded : Bool := false
  seeking : Bool := false
  settled : Bool := false
  onTrack : Bool := false
  hold : Bool := false
  retract : Bool := false
  maFault : Bool := false
  /-- LOADING, UNLOADING indicators and valid demodulations in a row while LOADING [2 bits + count; R252, R254; reset 0] -/
  loading : Bool := false
  unloading : Bool := false
  loadRun : Nat := 0
  /-- shock axes ignored: X, Y (SVEn_STATE.SHOCKIGN) [2 bits; R66, R258; reset 0] -/
  shockIgn : Vector Bool 2 := Vector.replicate 2 false
  /-- an axis above WARN in its last conversion: X, Y [2 bits; R258; reset 0] -/
  shockWarn : Vector Bool 2 := Vector.replicate 2 false
  /-- SVEn_STATE STRIKES, WEDGE [4+9 bits; 11; reset 0] -/
  strikes : Nat := 0
  wedge : Nat := 0
  /-- consecutive class-1 strikes [R255; reset 0] -/
  maStrikes : Nat := 0
  /-- what the pre-phase of the sample under way brought: strikes of class 0 and of class 1, values sent to the trace
  channels [R246, R256; reset none] -/
  pre0 : Nat := 0
  pre1 : Nat := 0
  preTr : List (Nat × Int) := []
  /-- a SEEK_GO waits for the next trigger [1 bit; R253; reset 0] -/
  seekPend : Bool := false
  /-- track of the last valid demodulation, for the window of R250 [24 bits; R250; reset none] -/
  tracked : Option Nat := .none
  /-- instant at which the retract path started, us [R259; reset 0] -/
  retAt : Nat := 0
  /-- condition SEEK_OK [1 bit; R254; reset 0] -/
  seekOk : Bool := false
  /-- target track, off-track offset (1/1,024 pitch), settle window and count [24+12+6+6 bits; R253; reset 0] -/
  target : Nat := 0
  offset : Int := 0
  swin : Nat := 0
  scnt : Nat := 0
  /-- a UNITGO waits for the sample boundary [30 bits; R253; reset none] -/
  unitPend : Option Nat := none
  /-- consecutive samples inside SWIN [R254; reset 0] -/
  settleRun : Nat := 0
  /-- instant of SEEK_GO, us [R253; reset 0] -/
  seekUs : Nat := 0
  /-- demodulator entry of the head: G, X0, VALID, DOWN [16+16+1+1 bits; R250; reset 0] -/
  dgG : Nat := 0
  dgX0 : Int := 0
  dgValid : Bool := false
  dgDown : Bool := false
  /-- jump or sweep in progress (SVEn_STATE.JUMP) [R262, R263; reset none] -/
  move : SveMove := .none
  /-- optical hold: clean samples in a row, instant at which the hold began, us [R261; reset 0] -/
  holdClean : Nat := 0
  holdUs : Nat := 0
  /-- trace samples that are not 0: sample i of channel c at c x 8,192 + i [4 x 8,192 x 16 bits; R265; DESIGN CHOICE unwritten reads 0, log 3] -/
  trace : List (Nat × Nat) := []
  /-- SVEn_TRSTAT RUN, TRIGGERED, WRAPPED, TRIGIDX, NEXT; samples left after the trigger [1+1+1+13+13 bits; 11; reset 0] -/
  trRun : Bool := false
  trTrig : Bool := false
  trWrap : Bool := false
  trIdx : Nat := 0
  trNext : Nat := 0
  trLeft : Nat := 0
  /-- SVEn_TRADDR INC, channel, index [1+2+13 bits; 11; reset 0] -/
  trInc : Bool := false
  trChan : Nat := 0
  trAddr : Nat := 0
  /-- counters 0-7, shadows, SVEn_PMON_WRAP [8 x 32, 8 x 32, 32 bits; 11; reset 0] -/
  cnt : Vector Nat 8 := Vector.replicate 8 0
  cntSh : Vector Nat 8 := Vector.replicate 8 0
  wrap : Nat := 0
  /-- SVE4 output ports 0x180, 0x182, 0x183 (DUTY, ADVANCE, IPRED) [3 x 16 bits; R272; reset 0] -/
  port : Vector Int 4 := Vector.replicate 4 0
deriving DecidableEq, Repr

end Sys2Proof.Machine
end

