-- ==== Sys2Proof/Machine/SupTypes.lean ====
section
/-!
DEFINITION. State of THM, SUP and TRM (16_thermal_and_calibration.md).
-/

set_option Elab.async false

namespace Sys2Proof.Machine

/-- One temperature sensor (R366, R367). -/
structure Sensor where
  /-- THM_SENSk VALID, EXCL, TEMP signed 0.25 C [1+1+12 bits; 16; reset 0] -/
  valid : Bool := false
  excl : Bool := false
  temp : Int := 0
  /-- consecutive deviating, invalid and readmitting conversions [R367; reset 0] -/
  dev : Nat := 0
  inv : Nat := 0
  adm : Nat := 0
deriving DecidableEq, Repr

/-- THM (R366-R373). THM_THR, THM_HYST and THM_XCHK stand in the register file. -/
structure Thm where
  /-- sensors 0-23 [24; R366; reset 0] -/
  sens : Vector Sensor 24 := Vector.replicate 24 {}
  /-- THM_MAX VALID, SENS, TEMP [1+5+12 bits; 16; reset 0] -/
  maxValid : Bool := false
  maxSens : Nat := 0
  maxTemp : Int := 0
  /-- THM_STATE SHUT, THROT, WARN, ARRAYFAIL [4 bits; 16; reset 0] -/
  shut : Bool := false
  throt : Bool := false
  warn : Bool := false
  arrayFail : Bool := false
  /-- consecutive-conversion counts of R369: WARN, THROT, SHUT [R369; reset 0] -/
  cWarn : Nat := 0
  cThrot : Nat := 0
  cShut : Nat := 0
  /-- THM_WICK VALID, TEMP [1+12 bits; 16; reset 0] -/
  wickValid : Bool := false
  wickTemp : Int := 0
  /-- CLREXCL waits for the next conversion [1 bit; R367; reset 0] -/
  clrExcl : Bool := false
  /-- a shutdown sequence is under way (R371) [1 bit; R371; reset 0] -/
  shutSeq : Bool := false
  /-- the critical limit has been reached (R373): temperature, 0.25 C, and sensor, 0x1F the wick sensor [R373; reset none] -/
  critical : Option (Int × Nat) := none
deriving DecidableEq, Repr

/-- One trim (R374-R380). Base, coefficients and settings stand in the register file. -/
structure Trim where
  t      : Nat
  /-- TRM_TRIMt TARGET, CODE [12+12 bits; 16; from fuses] -/
  target : Nat
  code   : Nat
  /-- TRM_COMPt AUTOTERM, COMPTERM, signed [16+16 bits; 16; reset 0] -/
  auto   : Int
  comp   : Int
  /-- limited at the last computation; at the AUTOLIM bound already recorded -/
  limited : Bool
  bound  : Bool
  /-- TRM_STATt sample count and last statistic [16+16 bits; 16; reset 0] -/
  count  : Nat
  stat   : Int
  /-- instant of the last step, us -/
  last   : Option Nat
  /-- instant since which CODE differs from TARGET, us; event 0x0D03 recorded -/
  since  : Option Nat
  aged   : Bool
deriving DecidableEq, Repr

/-- TRM. -/
structure Trm where
  /-- trims that differ from their fused state, ascending t [137; R374; DESIGN CHOICE fuses read 0, log 13] -/
  trims : List Trim := []
  /-- offered gap of each channel: length in wedges [4; R379; reset none] -/
  gap : Vector (Option Nat) 4 := Vector.replicate 4 none
  /-- channel trims that have stepped in the present gap of their channel [R378; reset none] -/
  stepped : List Nat := []
deriving DecidableEq, Repr

/-- SUP (R22, R56). SUP_PFCFG stands in the register file. -/
structure Sup where
  /-- a power loss has been declared and its sequence runs [1 bit; R22; reset 0] -/
  loss : Bool := false
  /-- rails that left their range since all were last good: indices, log 196 [9 bits; R56; reset none] -/
  bad : List Nat := []
deriving DecidableEq, Repr

end Sys2Proof.Machine
end

