-- ==== Sys2Proof/Machine/SysTypes.lean ====
section
/-!
DEFINITION. State of the system blocks: common page headers, SYS, CLK, WCK (power), IRQ, the cores' own state, LLT.
-/

set_option Elab.async false

namespace Sys2Proof.Machine

/-- The common page header of one block instance (02_register_conventions.md, R33-R37). -/
structure Hdr where
  /-- CTL.EN [1 bit; 02 common page header; reset 0] -/
  en : Bool := false
  /-- CTL.SRST; while it is 1 a soft reset is running and STAT.BUSY reads 1 [1 bit; R34; reset 0] -/
  srst : Bool := false
  /-- CTL.FREEZE [1 bit; R35; reset 0] -/
  freeze : Bool := false
  /-- CTL[31:24], block-specific [8 bits; 02 common page header; reset 0] -/
  ctlHi : Nat := 0
  /-- STAT.ERR [1 bit; R33; reset 0] -/
  err : Bool := false
  /-- STAT.LOCKED [1 bit; R37; reset 0] -/
  locked : Bool := false
  /-- IRQ_STAT [32 bits; R33, R38; reset 0] -/
  irqStat : Word := 0
  /-- IRQ_EN [32 bits; R38; reset 0] -/
  irqEn : Word := 0
  /-- ERR_CODE[15:0] [16 bits; R33; reset 0] -/
  errCode : Nat := 0
  /-- ERR_INFO [32 bits; R33; reset 0] -/
  errInfo : Word := 0
  /-- ERR_CNT[15:0], saturating [16 bits; R33; reset 0] -/
  errCnt : Nat := 0
  /-- GUARD.REMAIN; the window is open (GUARD.OPEN) while it is not 0 [9 bits; R36; reset 0] -/
  remain : Nat := 0
  /-- consecutive wrong guard words, 0-8 [4 bits; R37; reset 0] -/
  wrongWords : Nat := 0
deriving DecidableEq, Repr

/-- Condition of a power domain (R68, R71). -/
inductive PdState where
  | on | gated | off
deriving DecidableEq, Repr

/-- Power state of the part, WCK_PSTATE.STATE (R76). -/
inductive PowerState where
  | lit | dim | glow | dark
deriving DecidableEq, Repr

/-- WCK_PSTATE.PHASE. -/
inductive PowerPhase where
  | settled | entering | unwinding | waking
deriving DecidableEq, Repr

/-- The reset sequence under way (R103, R104). -/
inductive ResetSeq where
  | none | resetN | nssr | watchdog
deriving DecidableEq, Repr

/-- SYS: variant, straps, start-up, readiness, reset causes, watchdog, profile (05_startup_and_reset.md, 00_scope.md, 19). -/
structure Sys where
  /-- ordering variant, fused [1 bit; R4; DESIGN CHOICE Q, log 4] -/
  variant : Variant := .q
  /-- strap pins PERS, DUALP, BOOT as now driven [2+1+2 bits; R48; a floating strap reads 0] -/
  strapPers : Pers := .magnetic
  strapDualp : Bool := false
  strapBoot : Nat := 0
  /-- straps as last sampled [2+1+2 bits; R1, R48; sampled at release, 0 before] -/
  pers : Pers := .magnetic
  dualp : Bool := false
  boot : Nat := 0
  /-- VDD_AUX33 is present [1 bit; R91; 1 at POR] -/
  aux : Bool := true
  /-- main rails declared good [1 bit; R56; reset 0] -/
  railsGood : Bool := false
  /-- the core domain is out of reset [1 bit; R92; reset 0] -/
  coreUp : Bool := false
  /-- the A-cores have been released [1 bit; R92; reset 0] -/
  acoresUp : Bool := false
  /-- a stopped start: fuse shadow or BIST failure (R95) [1 bit; R95; reset 0] -/
  startStopped : Bool := false
  /-- the security core waits for a UART recovery image (R94) [1 bit; R94; reset 0] -/
  uartWait : Bool := false
  /-- SYS_BOOTSTAT STAGE, SLOT, ARES, BRES, BISTF [4+2+8+8+8 bits; R92; reset 0] -/
  stage : Nat := 0
  slot : Nat := 0
  ares : Nat := 0
  bres : Nat := 0
  bistf : Nat := 0
  /-- T-core memories that failed BIST: channels not started [4 bits; R95; reset none] -/
  chanNotStarted : List Nat := []
  /-- SYS_RSTCAUSE [32 bits; R101; reset 0 before the first release] -/
  rstCause : Word := 0
  /-- causes gathered for the next release (held in the wick) [32 bits; R101; POR bit set after POR] -/
  pendCause : Word := 1
  /-- SYS_STAT.READY and the READY pin [1 bit; R99; reset 0] -/
  ready : Bool := false
  /-- watchdog: instant from which its count runs, us, moved on by every pause [R104; reset 0] -/
  wdtAt : Nat := 0
  /-- watchdog: the first PERIOD since the restart has been reported [1 bit; R104; reset 0] -/
  wdtBarked : Bool := false
  /-- the reset sequence under way [R103, R104; reset none] -/
  seq : ResetSeq := .none
  /-- RESET_N is low [1 bit; R103; reset 0] -/
  resetNLow : Bool := false
  /-- the core domain is held in reset at step 6 [1 bit; R103; reset 0] -/
  held : Bool := false
  /-- SYS_PROFILE LOCK, PEND, ACTIVE [1+12+12 bits; R431; from stored configuration, R143 default 0x0B0 unlocked] -/
  profLock : Bool := false
  profPend : Nat := 0x0B0
  profActive : Nat := 0x0B0
  /-- SRAM array errors: (array, uncorrected, corrected, row) behind SYS_SRSEL / SYS_SRERR [10, 8, 12, 12 bits; 14; reset none] -/
  sramErrs : List (Nat × Nat × Nat × Nat) := []
  /-- in-field repair map, OTP words in the order programmed [up to 256 x 32 bits; R328; DESIGN CHOICE empty, log 5] -/
  repairMap : List Word := []
  /-- T-core n is in WFI [4 bits; R76 row 4; DESIGN CHOICE true, log 6] -/
  tcoreWfi : List Nat := [0, 1, 2, 3]
  /-- A-cores in WFI, out of 1-3 [R76 row 7; DESIGN CHOICE all, log 6] -/
  acoreWfi : List Nat := [1, 2, 3]
  /-- UCACHECTL.IEN and DEN of A-core 0-3 [4 x 2 bits; 01 UCACHECTL; reset 0] -/
  ucache : Vector (Bool × Bool) 4 := Vector.replicate 4 (false, false)
  /-- authenticated debug unlock level in force, 0 none [2 bits; R35, R359; reset 0] -/
  debugLevel : Nat := 0
  /-- an A-core is halted by an authenticated debugger [1 bit; R104; reset 0] -/
  debugHalt : Bool := false
  /-- firmware activation pause under way: slot being activated, tag of the commit, start in ms [R427; reset none] -/
  fwPause : Option (Nat × Nat × Nat) := none
deriving DecidableEq, Repr

/-- CLK and the wick oscillators (04, R72-R75). CLK_PLLEN and CLK_DOMk stand in the register file. -/
structure Clk where
  /-- PLL_A, PLL_S, PLL_D, PLL_P locked: CLK_PLLSTAT.LOCK [4 bits; 04; reset 0] -/
  lock : Vector Bool 4 := Vector.replicate 4 false
  /-- PLL_C0-3 locked: CLK_PLLSTAT.LOCKC [4 bits; 04; reset 0] -/
  lockC : Vector Bool 4 := Vector.replicate 4 false
  /-- CLK_PLLSTAT.XO40OK [1 bit; 04; reset 0] -/
  xo40ok : Bool := false
  /-- the 40 MHz crystal has failed (R75) [1 bit; R75; reset 0] -/
  xo40failed : Bool := false
  /-- the wick runs on its RC oscillator [1 bit; R75, R91; 1 after POR] -/
  onRc : Bool := true
  /-- the 32.768 kHz crystal qualification has been decided [1 bit; R91; reset 0] -/
  xo32decided : Bool := false
deriving DecidableEq, Repr

/-- WCK: power states and wake record (04, R68-R82). -/
structure Pwr where
  /-- condition of PD0-PD21 [22 x 2 bits; R68; PD0 on, the others off until the core domain starts] -/
  pd : Vector PdState 22 := (Vector.replicate 22 .off).set 0 .on
  /-- WCK_PSTATE STATE, TARGET, PHASE [4+4+4 bits; 04; reset 0] -/
  state : PowerState := .lit
  target : PowerState := .lit
  phase : PowerPhase := .settled
  /-- wake sources that are active and have not yet woken the part [10 bits; R79, R399; reset 0] -/
  active : Nat := 0
  /-- the WCK32 period, counted from POR, in which the first of them became active [R79; reset 0] -/
  activeAt : Nat := 0
  /-- WCK_WAKESRC [32 bits; R79; reset 0] -/
  wakeSrc : Word := 0
  /-- WCK_WAKETIME, seconds [48 bits; R79; reset 0] -/
  wakeTime : Nat := 0
  /-- DRAM is in self-refresh [1 bit; 04 Entry into GLOW; reset 0] -/
  selfRefresh : Bool := false
  /-- PCIe link of port 0, 1 is in L1.2 or L2 [2 bits; R76 row 6; DESIGN CHOICE true, log 6] -/
  linkLow : Vector Bool 2 := Vector.replicate 2 true
  /-- DARK was entered by the rail path (R77) or the critical limit (R373) [R77; reset none] -/
  darkRails : Bool := false
  darkCritical : Bool := false
  /-- NVMe power state in force, 0-4 [3 bits; R80; reset 0] -/
  ps : Nat := 0
  /-- last operational NVMe power state [3 bits; R81; reset 0] -/
  psOper : Nat := 0
  /-- held Set Features (Power Management): internal tag and target power state [R81; reset none] -/
  psHeld : Option (Nat × Nat) := none
  /-- the entry has been unwound and waits for 10 ms of idle queues [1 bit; R81; reset 0] -/
  psUnwound : Bool := false
  /-- autonomous transition under way: its target power state [R80; reset none] -/
  psAuto : Option Nat := none
deriving DecidableEq, Repr

/-- A line held in an A-core L1 data cache (R11). -/
structure L1Line where
  core  : Fin 4
  line  : Nat
  dirty : Bool
  /-- the 64 bytes as one little-endian number -/
  data  : Nat
deriving DecidableEq, Repr

/-- IRQ: the interrupt router and the cores' interrupt CSRs (R12, R38-R40). Routes stand in the register file. -/
structure Irq where
  /-- pending direct lines and software sources, ascending [sources 128-511; R38; reset none] -/
  pending : List Nat := []
  /-- sources in service with the core that took them [R12; reset none] -/
  inService : List (Nat × Core) := []
  /-- UIRQTHR.LEVEL of each core, by core order A0-3, T0-3, security [9 x 4 bits; 01 UIRQTHR; reset 0] -/
  thr : Vector Nat 9 := Vector.replicate 9 0
  /-- what the last UIRQID read returned: (core, VALID, SRC) [01 UIRQID; reset none] -/
  lastId : Option (Core × Bool × Nat) := none
deriving DecidableEq, Repr

/-- State of a ticket (LLT_TKTk STATE). -/
inductive TicketState where
  | queued | granted
deriving DecidableEq, Repr

/-- A ticket in use (R84-R87). -/
structure Ticket where
  num    : Nat
  state  : TicketState
  cls    : Nat
  mw     : Nat
  port   : Nat
  prio   : Nat
  inst   : Nat
  gen    : Nat
  /-- duration asked for, ms -/
  dur    : Nat
  /-- expiry while granted, deadline while queued (0 none), in LLT_NOW ticks -/
  at_    : Nat
  /-- the end the request asked for, before the lease cap of R86 -/
  reqEnd : Nat
  /-- submission order while queued, grant order while granted -/
  order  : Nat
deriving DecidableEq, Repr

/-- The answer registers of one request port. -/
structure LltPort where
  /-- LLT_RESPp STATE, REASON, GEN, TICKET [4+4+8+7 bits; 04; reset 0] -/
  state  : Nat := 0
  reason : Nat := 0
  gen    : Nat := 0
  ticket : Nat := 0
  /-- LLT_RESPXp [32 bits; 04; reset 0] -/
  respX  : Nat := 0
  /-- LLT_OPSTp [2 bits; 04; reset 0] -/
  opst   : Nat := 0
  /-- the submission that still awaits its answer: REQA and REQB as submitted [2 x 32 bits; R84; reset none] -/
  await  : Option (Nat × Nat) := none
deriving DecidableEq, Repr

/-- Counts of one leave class for log page 0xC4 (06, table 0xC4). -/
structure ClassCount where
  grants : Nat := 0
  denials : Nat := 0
  deadlines : Nat := 0
  leaseEnds : Nat := 0
  /-- WRAP flags of the four counts [4 bits; 06 log page 0xC4; reset 0] -/
  wrap : Nat := 0
deriving DecidableEq, Repr

/-- LLT: the Lamplighter (R20, R83-R90). LLT_BOARD, LLT_RSV, LLT_TFLOOR, LLT_CLASSEN and the request words stand in the register file. -/
structure Llt where
  /-- LLT_THERM, mW [24 bits; R89; reset 0xFF_FFFF] -/
  therm : Nat := 0xFFFFFF
  /-- LLT_LEASE.VALID and the lease, mW; its expiry in LLT_NOW ticks [1+24+32 bits; R413; reset 0] -/
  leaseValid : Bool := false
  leaseMw : Nat := 0
  leaseExp : Nat := 0
  /-- tickets in use: LLT_TKTk and the queue [128 tickets; R84; reset none] -/
  tickets : List Ticket := []
  /-- generation of each ticket ever used (number, generation), others 0 [128 x 8 bits; R84; reset 0] -/
  gens : List (Nat × Nat) := []
  /-- order counter of submissions and grants [R85; reset 0] -/
  order : Nat := 0
  /-- request ports 0-15 [16 ports; 04; reset 0] -/
  ports : Vector LltPort 16 := Vector.replicate 16 {}
  /-- classes closed by R90, with the cause that closed them [R90; reset open] -/
  closed : Option Nat := none
  /-- a throttle episode is in progress (first lowering done, not yet returned) [1 bit; R89; reset 0] -/
  episode : Bool := false
  /-- RVR_COMMIT leave is in force [1 bit; R21; reset 0] -/
  commitGrant : Bool := false
  /-- class counts of log page 0xC4 [16 x 5; 06; reset 0] -/
  counts : Vector ClassCount 16 := Vector.replicate 16 {}
  /-- tickets whose grant ended by expiry and whose block has not yet been seen below its floor [R87; reset none] -/
  expired : List Nat := []
  /-- queued tickets whose task has ended, released as soon as granted: (ticket, generation) [R186; reset none] -/
  orphans : List (Nat × Nat) := []
deriving DecidableEq, Repr

end Sys2Proof.Machine
end

