-- ==== Sys2Proof/Machine/VlkTypes.lean ====
section
/-!
DEFINITION. State of VLK (18_vrelilo_hierarchy.md).
-/

set_option Elab.async false

namespace Sys2Proof.Machine

/-- Slot states of VLK_LEDGERk. -/
inductive SlotState where
  | free | enrolling | active | dormant | silent
deriving DecidableEq, Repr

/-- A slot of the Lantern's ledger that is not free (VLK_LEDGERk, R406-R417). -/
structure VSlot where
  k      : Nat
  state  : SlotState
  devid  : Nat
  floor  : Nat
  req    : Nat
  /-- present grant and the grants not yet expired: (mW, expiry) [R414] -/
  grant  : Nat
  expiry : Nat
  older  : List (Nat × Nat)
  /-- consecutive missed polls; consecutive replies that failed their tag -/
  missed : Nat
  badTag : Nat
  /-- the last request could not be met in full -/
  first  : Bool
  /-- the Candle sent SLEEP before it stopped answering -/
  slept  : Bool
  /-- consecutive polls with MORE -/
  more   : Nat
  /-- a poll awaits its reply -/
  polled : Bool
  /-- last SEQ accepted under the link key, with the window of 64 below it -/
  lastSeq : Nat
  seen   : List Nat
  /-- frame counter of the POLLs under the link key (R405) -/
  txSeq  : Nat
  /-- the last REPLY with a request has not been answered by a grant -/
  asked  : Bool
  /-- VLK_CMD.REMOVE waits for the grant to expire (R417) -/
  removing : Bool
deriving DecidableEq, Repr

/-- An image being received or fanned out (R420). -/
structure VImage where
  ident  : Nat
  chunks : Nat
  /-- chunks received (Candle) or to be sent again in this round (Lantern) -/
  have_  : List Nat
  /-- chunks that NAK items reported since the round began (Lantern) -/
  nak    : List Nat
  /-- rounds left, and the next chunk of the first pass (Lantern) -/
  rounds : Nat
  next   : Nat
deriving DecidableEq, Repr

/-- An entry of the forward queue (R419). -/
structure Fwd where
  ev     : Event
  origin : Nat
deriving DecidableEq, Repr

/-- VLK. VLK_CFG, FLOOR, LREQ, ORPHAN_SPINUP, SEGBUDGET, SEGRSV, EVFWD, ALLOW, AGGBASE, IMGBASE and the report address
stand in the register file. -/
structure Vlk where
  /-- VLK_STAT LOCKED, HOLDOVER, QUIET, INVUP, INVDN [5 bits; 18; reset 0] -/
  locked : Bool := false
  holdover : Bool := false
  quietEnd : Option Nat := none
  invUp : Bool := false
  invDn : Bool := false
  /-- VLK_NODE ENR, ROOT, ID [1+1+24 bits; 18; reset 0] -/
  enr : Bool := false
  root : Bool := false
  ident : Nat := 0
  /-- the enrolled Lantern: identifier, DEVID [R407; reset none] -/
  lantern : Option (Nat × Nat) := none
  /-- the fleet authorization's expiry, calendar seconds [48 bits; R407; reset none] -/
  authExp : Option Nat := none
  /-- segment key generation as Candle and as Lantern, and frames sent under the latter [7+7+32 bits; R410; reset 0] -/
  keyGen : Nat := 0
  segGen : Nat := 0
  segFrames : Nat := 0
  /-- LLT_NOW at which the Lantern's segment key was last replaced [32 bits; R410; reset 0] -/
  segAt : Nat := 0
  /-- a KEYNEW sent awaits its beacon, and one received: (generation, beacon seconds) [R410; reset none] -/
  keyNew : Option (Nat × Nat) := none
  keyNext : Option (Nat × Nat) := none
  /-- frame counters SEQ of this sender: upstream link, own segment [32+32 bits; R405; reset 0] -/
  seqUp : Nat := 0
  seqDn : Nat := 0
  /-- last SEQ accepted upstream: under the link key, under the segment key [32+32 bits; R405; reset none] -/
  rxLink : Option Nat := none
  rxSeg : Option Nat := none
  /-- SEQs accepted within the window of 64, under each key [R405; reset none] -/
  seenLink : List Nat := []
  seenSeg : List Nat := []
  /-- VLK time, ns since the epoch of the hierarchy [48 + 30 bits; R411; reset 0] -/
  timeNs : Nat := 0
  /-- a root's slew after a host Timestamp: microseconds left, fraction [R411; reset 0] -/
  slewRem : Int := 0
  slewFrac : Nat := 0
  /-- copy held by the last read of VLK_TIMEUS: seconds [48 bits; 18; reset 0] -/
  hSec : Nat := 0
  /-- consecutive beacons within 0.5 us; consecutive missed; consecutive that failed authentication [R411, R422; reset 0] -/
  agree : Nat := 0
  missedB : Nat := 0
  failedB : Nat := 0
  /-- offset of the last beacon received, ns [R411; reset 0] -/
  lastOff : Int := 0
  /-- error bound in holdover, ns [R411; reset 0] -/
  errNs : Nat := 0
  /-- renewal due at (LLT_NOW); the received lease duration, ms [R413; reset none] -/
  renewAt : Option Nat := none
  leaseDur : Nat := 0
  /-- the next REPLY asks for renewal [1 bit; R413; reset 0] -/
  ask : Bool := false
  /-- a lease has been received since the last loss, so that 0x0F21 is due at the next [1 bit; R413; reset 0] -/
  lostOnce : Bool := false
  /-- orphaned episode: back-off end (ms), back-off (s), window end (ms), window spent [R418; reset none] -/
  backoff : Option Nat := none
  backoffS : Nat := 0
  window : Option Nat := none
  windowUsed : Bool := false
  /-- ledger of the own segment: slots that are not free, ascending [64; 18; reset none] -/
  slots : List VSlot := []
  /-- next slot to poll [6 bits; R406; reset 0] -/
  pollNext : Nat := 0
  /-- forward queue, oldest first [64; R419; reset none] -/
  fwd : List Fwd := []
  /-- VLK_EVDROP; an overflow episode has been recorded [32+1 bits; 18; reset 0] -/
  evDrop : Nat := 0
  dropNoted : Bool := false
  /-- entries written to the aggregation ring [R419; reset 0] -/
  ringCount : Nat := 0
  /-- image being received, image being fanned out [R420; reset none] -/
  rxImg : Option VImage := none
  txImg : Option VImage := none
  /-- attestation report being assembled: slot, bytes received [R421; reset none] -/
  attRx : Option (Nat × Nat) := none
  /-- slot whose next POLL carries ATTREQ [R421; reset none] -/
  attPend : Option Nat := none
  /-- report being returned upstream: next byte [R421; reset none] -/
  attTx : Option Nat := none
  /-- image verified (false) or refused (true) by the security core and still to be reported: identifier, refused [R420; reset
  none] -/
  imgDone : Option (Nat × Bool) := none
  /-- what the last REPLY carried, and its MORE; the items of the last POLL; the payload of the last BEACON [R404, R405, R411;
  reset none] -/
  sentUp : List VItem := []
  sentMore : Bool := false
  sentDn : List VItem := []
  sentBeacon : Nat := 0
  /-- the slot whose Candle was last sent a WAKE (R417) -/
  sentWake : Option Nat := none
  /-- transmitting stopped until (ms), by port: 0 up, 1 down [R422; reset none] -/
  stopUntil : Vector (Option Nat) 2 := Vector.replicate 2 none
  /-- time of the last valid upstream frame, ms [R422; reset 0] -/
  lastRx : Nat := 0
  /-- 0x0F11 of an open pair has been recorded since then [1 bit; R422; reset 0] -/
  upOpen : Bool := false
  /-- counters 0-7, shadows, wrap [8 x 32, 8 x 32, 32 bits; 18; reset 0] -/
  cnt : Vector Nat 8 := Vector.replicate 8 0
  cntSh : Vector Nat 8 := Vector.replicate 8 0
  wrap : Nat := 0
deriving DecidableEq, Repr

end Sys2Proof.Machine
end

