-- ==== Sys2Proof/Machine/State.lean ====
section
/-!
DEFINITION. The state of the part, the state right after a power-on reset, and the reasons why a step can stop.
Each field names its width, the rule of spec/ that gives it, and its reset value.
-/

set_option Elab.async false

namespace Sys2Proof.Machine

/-- Why a step stops with a fault: no meaning of this model does, so the type has no constructor. An access to an
address that does not exist is answered with a bus error in State (R28), which is an effect and no fault. -/
inductive Fault where
deriving DecidableEq, Repr

/-- Why a step refuses a command. -/
inductive Refusal where
  /-- raised by the arm of Dispatch.lean whose command has no meaning yet; safe (nothing can be proved of it) -/
  | notModelled (mnemonic : String)
deriving DecidableEq, Repr

/-- The state of the part. -/
structure State where
  /-- commands that wait, first in, first out [queue; the model's own; reset empty] -/
  pending : List Instr := []
  /-- time since POR in microseconds; LLT_NOW is its whole milliseconds [32-bit tick in ms; 04 LLT_NOW; reset 0] -/
  us : Nat := 0
  /-- data answered to the last bus access [64 bits; R28, R32; reset 0] -/
  busData : Nat := 0
  /-- the last bus access ended with a bus error [1 bit; R28; reset 0] -/
  busErr : Bool := false
  /-- the register file: registers that differ from their reset value, by address, ascending [32 bits each; R7; reset none] -/
  regs : List (Nat × Word) := []
  /-- bytes of system SRAM, wick SRAM and DDR5 that are not 0, by address, ascending [8 bits each; R28; DESIGN CHOICE an unwritten byte reads 0, log 3] -/
  mem : List Host.Cell := []
  /-- bytes of the T-core memories that are not 0: byte a of T-core n at n x 131,072 + a [4 x 128 KiB; R42; DESIGN CHOICE an unwritten byte reads 0, log 3] -/
  tcm : List Host.Cell := []
  /-- free values drawn so far: the model's own counter, no state of the part [DESIGN CHOICE 0, log 2] -/
  free : Nat := 0
  /-- common page headers by header source [77 pages; R30, R33; reset 0] -/
  hdr : Vector Hdr 77 := Vector.replicate 77 {}
  sys : Sys := {}
  clk : Clk := {}
  pwr : Pwr := {}
  /-- lines held in the A-core L1 data caches [R11; reset none] -/
  l1 : List L1Line := []
  irq : Irq := {}
  llt : Llt := {}
  hce : Hce := {}
  lgr : Lgr := {}
  xmt : Xmt := {}
  rvr : Rvr := {}
  cst : Cst := {}
  /-- ASQ0-3 [4; 08] -/
  asq : Vector Asq 4 := Vector.replicate 4 {}
  /-- RWC0-3 [4; 09] -/
  rwc : Vector Rwc 4 := Vector.replicate 4 {}
  ldp : Ldp := {}
  tpe : Tpe := {}
  /-- SVE0-4, SVE4 being the spindle instance [5; 11] -/
  sve : Vector Sve 5 := Vector.replicate 5 {}
  spn : Spn := {}
  /-- PSI ports 0-3 [4; 12] -/
  psi : Vector PsiPort 4 := Vector.replicate 4 {}
  lsr : Lsr := {}
  opt : Opt := {}
  dmc : Dmc := {}
  bcc : Bcc := {}
  sec : Sec := {}
  thm : Thm := {}
  trm : Trm := {}
  sup : Sup := {}
  evr : Evr := {}
  lif : Lif := {}
  cal : Cal := {}
  vlk : Vlk := {}
deriving DecidableEq, Repr

/-- The part right after POR (R91): the wick runs on its RC oscillator, the core domain is held in reset, and every
register holds its reset value. -/
def State.reset : State := {}

/-- The canonical form of a sparse memory: addresses strictly rising, no byte equal to what an unlisted address reads
as (0). -/
def Memory.wf : List Host.Cell → Bool
  | [] => true
  | (_, b) :: [] => b != 0
  | (a, b) :: (a', b') :: rest => b != 0 && decide (a < a') && Memory.wf ((a', b') :: rest)

end Sys2Proof.Machine
end

