-- ==== Sys2Proof/Machine/Ops.lean ====
section
/-!
DEFINITION. The named operations over registers, headers, events, interrupt lines, time and memory that every family
of commands shares.
-/

set_option Elab.async false

namespace Sys2Proof.Machine

open Sys2Proof

/-! ### Parts of the state -/

def State.modHdr (i : Nat) (f : Hdr → Hdr) (s : State) : State := { s with hdr := vmod s.hdr i f }
def State.modAsq (n : Fin 4) (f : Asq → Asq) (s : State) : State := { s with asq := s.asq.set n (f s.asq[n]) }
def State.modRwc (n : Fin 4) (f : Rwc → Rwc) (s : State) : State := { s with rwc := s.rwc.set n (f s.rwc[n]) }
def State.modSve (n : Fin 5) (f : Sve → Sve) (s : State) : State := { s with sve := s.sve.set n (f s.sve[n]) }
def State.modPsi (n : Fin 4) (f : PsiPort → PsiPort) (s : State) : State := { s with psi := s.psi.set n (f s.psi[n]) }
def State.modLaser (n : Fin 4) (f : Laser → Laser) (s : State) : State :=
  { s with lsr := { s.lsr with ch := s.lsr.ch.set n (f s.lsr.ch[n]) } }
def State.modPu (n : Fin 4) (f : Pickup → Pickup) (s : State) : State :=
  { s with opt := { s.opt with pu := s.opt.pu.set n (f s.opt.pu[n]) } }
def State.modGrp (n : Fin 4) (f : Grp → Grp) (s : State) : State :=
  { s with tpe := { s.tpe with grp := s.tpe.grp.set n (f s.tpe.grp[n]) } }
def State.modCtrl (p : Fin 2) (f : Ctrl → Ctrl) (s : State) : State :=
  { s with hce := { s.hce with ctrl := s.hce.ctrl.set p (f s.hce.ctrl[p]) } }
def State.modPort (p : Fin 16) (f : LltPort → LltPort) (s : State) : State :=
  { s with llt := { s.llt with ports := s.llt.ports.set p (f s.llt.ports[p]) } }
def State.modSys (f : Sys → Sys) (s : State) : State := { s with sys := f s.sys }
def State.modPwr (f : Pwr → Pwr) (s : State) : State := { s with pwr := f s.pwr }
def State.modLlt (f : Llt → Llt) (s : State) : State := { s with llt := f s.llt }
def State.modHce (f : Hce → Hce) (s : State) : State := { s with hce := f s.hce }
def State.modLgr (f : Lgr → Lgr) (s : State) : State := { s with lgr := f s.lgr }
def State.modXmt (f : Xmt → Xmt) (s : State) : State := { s with xmt := f s.xmt }
def State.modRvr (f : Rvr → Rvr) (s : State) : State := { s with rvr := f s.rvr }
def State.modSpn (f : Spn → Spn) (s : State) : State := { s with spn := f s.spn }
def State.modSec (f : Sec → Sec) (s : State) : State := { s with sec := f s.sec }
def State.modThm (f : Thm → Thm) (s : State) : State := { s with thm := f s.thm }
def State.modVlk (f : Vlk → Vlk) (s : State) : State := { s with vlk := f s.vlk }
def State.modEvr (f : Evr → Evr) (s : State) : State := { s with evr := f s.evr }
def State.modLdp (f : Ldp → Ldp) (s : State) : State := { s with ldp := f s.ldp }

/-- SVE0-3 by channel. -/
def sveOf (n : Fin 4) : Fin 5 := ⟨n.val, by omega⟩

/-- A free value: one draw of what the manual leaves open, below a bound (log 2). -/
def draw (bound : Nat) (s : State) : Nat := Config.freeValue s.free % bound

/-- The counter of draws advanced. -/
def State.drawn (s : State) : State := { s with free := s.free + 1 }

/-! ### Register file -/

/-- The stored value of element k of a register in instance n. -/
def reg (r : Reg) (n k : Nat) (s : State) : Nat := (sget (BitVec.ofNat 32 (r.reset k)) (r.addr n k) s.regs).toNat

/-- Bits of a stored register. -/
def fld (r : Reg) (n k hi lo : Nat) (s : State) : Nat := bits (reg r n k s) hi lo

/-- A stored register set. -/
def setReg (r : Reg) (n k v : Nat) (s : State) : State :=
  { s with regs := sput (BitVec.ofNat 32 (r.reset k)) (r.addr n k) (BitVec.ofNat 32 v) s.regs }

/-- Bits hi..lo of a stored register set. -/
def setFld (r : Reg) (n k hi lo v : Nat) (s : State) : State :=
  let m := (2 ^ (hi + 1 - lo) - 1) <<< lo
  let old := reg r n k s
  setReg r n k ((old &&& ((2 ^ 32 - 1) ^^^ m)) ||| ((v <<< lo) &&& m)) s

/-- Every register of a block's instance back at its reset value. -/
def resetRegs (b : Blk) (n : Nat) (s : State) : State :=
  let lo := b.base n
  let hi := lo + b.row.pages * 0x1000
  { s with regs := s.regs.filter fun (a, _) => a < lo || hi ≤ a }

/-! ### Time -/

/-- LLT_NOW and every count of milliseconds: whole milliseconds since POR. -/
def now (s : State) : Nat := s.us / 1000

/-! ### Interrupts -/

/-- A direct line or software source becomes pending (R38). -/
def raiseLine (src : Nat) (s : State) : State := { s with irq := { s.irq with pending := insertNat src s.irq.pending } }

/-- Bits of IRQ_STAT set by hardware. -/
def setIrqStat (b : Blk) (n bit : Nat) (s : State) : State :=
  s.modHdr (b.hdr n) fun h => { h with irqStat := h.irqStat ||| BitVec.ofNat 32 (1 <<< bit) }

/-! ### Lifetime counters and events (R383-R385, R392-R394) -/

/-- Lifetime counters that LIF advances for an event code (table Lifetime counters); the 0x0C42 of a release, whose
parameter 1 is 0, is no shutdown. -/
def lifOf (code p1 : Nat) : List Nat :=
  (if 0x1000 ≤ code ∧ code < 0x1100 then [14] else []) ++
  match code with
  | 0x0212 => [12] | 0x0E07 => [16] | 0x0B20 => [17] | 0x0B21 => [18]
  | 0x0C42 => if p1 = 1 then [19] else []
  | 0x0C43 => [22] | 0x0101 => [23] | 0x0102 => [23] | 0x0E40 => [24] | 0x0E41 => [25]
  | 0x0A10 => [26] | 0x0A20 => [27] | 0x0A30 => [28] | 0x0340 => [30] | 0x0343 => [30] | 0x0E12 => [31]
  | 0x0701 => [232] | 0x0703 => [233] | 0x0730 => [234] | 0x0732 => [235] | 0x0750 => [236] | 0x0740 => [237]
  | _ => []

/-- The microsecond field of a timestamp (R396): in steps of WCK32 periods while only the wick runs. -/
def stampUsec (s : State) : Nat :=
  if vget s.pwr.pd 2 .off = .on then s.cal.usec else (s.cal.usec * 32768 / 1000000) * 1000000 / 32768

/-- Codes that may use the reserved entries of the ingest queue (R384). -/
def isReserved (code : Nat) : Bool := code / 256 == 0x0B || code / 256 == 0x10

/-- An event enters the ingest queue, or is lost (R384, R385). -/
def enqueue (code src p0 p1 p2 : Nat) (s : State) : State :=
  if s.evr.queue.length < (if isReserved code then 256 else 240) then
    let e : Event :=
      { seq := 0, sec := s.cal.sec % 2 ^ 44, usec := stampUsec s, code := code, src := src
        flags := flag s.clk.onRc 0, p0 := BitVec.ofNat 32 p0, p1 := BitVec.ofNat 32 p1, p2 := BitVec.ofNat 32 p2 }
    s.modEvr fun v => { v with queue := v.queue ++ [e] }
  else
    let s := s.modEvr fun v =>
      { v with lost := min (v.lost + 1) (2 ^ 32 - 1), lostNow := v.lostNow + 1, lossFlag := true }
    { s with lif := { s.lif with cnt := sput 0 15 (min (sget 0 15 s.lif.cnt + 1) (2 ^ 64 - 1)) s.lif.cnt } }

/-- The figures of log page 0xC3 that firmware gathers. -/
inductive Health where
  | unloads | plausibility | offline | grown | unrecovered | unsafeWrites | iterations | decoded
deriving DecidableEq, Repr

/-- The key of a figure of an actuator or head. -/
def healthKey (f : Health) (k : Nat) : Nat :=
  (match f with
    | .unloads => 0 | .plausibility => 1 | .offline => 2 | .grown => 3 | .unrecovered => 4 | .unsafeWrites => 5 | .iterations => 6
    | .decoded => 7) * 64 + k % 64
def healthOf (f : Health) (k : Nat) (s : State) : Nat := sget 0 (healthKey f k) s.hce.health

/-- Firmware adds to a figure. -/
def healthAdd (f : Health) (k n : Nat) (s : State) : State :=
  s.modHce fun h => { h with health := sput 0 (healthKey f k) (sget 0 (healthKey f k) h.health + n) h.health }

/-- A lifetime counter advanced (R394): it holds at all ones, and the first saturation is recorded. -/
def lifBump (i amount : Nat) (s : State) : State :=
  if s.lif.sat.contains i then s
  else
    let v := sget 0 i s.lif.cnt + amount
    if v < 2 ^ 64 then { s with lif := { s.lif with cnt := sput 0 i v s.lif.cnt } }
    else
      let s := { s with lif := { s.lif with cnt := sput 0 i (2 ^ 64 - 1) s.lif.cnt, sat := insertNat i s.lif.sat } }
      enqueue 0x0E53 0x14 i 0 0 (setIrqStat .lif 0 1 s)

/-- Record event: the lifetime counters that count the code, then the ingest queue (R384, R393). `src` is
ID[27:20] of the raising block. -/
def recordEvent (src code p0 p1 p2 : Nat) (s : State) : State :=
  enqueue code src p0 p1 p2 ((lifOf code p1).foldl (fun s i => lifBump i 1 s) s)

/-- An event raised by a block. -/
def ev (b : Blk) (code p0 p1 p2 : Nat) (s : State) : State := recordEvent b.row.type_ code p0 p1 p2 s

/-- A signed parameter as a 32-bit word. -/
def par (x : Int) : Nat := field 32 x

/-- A Guarantee Exception (R27): `kept` and `broken` are ladder levels. -/
def guarantee (b : Blk) (kept broken p0 p1 p2 : Nat) (s : State) : State :=
  ev b (0x1000 + 16 * kept + broken) p0 p1 p2 s

/-- What a block's header takes at an error (R33). -/
def Hdr.error (code info : Nat) (h : Hdr) : Hdr :=
  { h with
    errCode := if h.err then h.errCode else code
    errInfo := if h.err then h.errInfo else BitVec.ofNat 32 info
    err := true
    irqStat := h.irqStat ||| 1
    errCnt := min (h.errCnt + 1) 0xFFFF }

/-- A block records an error whose event parameters a table gives (R33). -/
def blockErrorP (b : Blk) (n code info p0 p1 p2 : Nat) (s : State) : State :=
  ev b code p0 p1 p2 (s.modHdr (b.hdr n) (Hdr.error code info))

/-- A block records an error; parameter 0 of its event holds ERR_INFO (R33). -/
def blockError (b : Blk) (n code info : Nat) (s : State) : State := blockErrorP b n code info info 0 0 s

/-! ### The calendar and the passage of time (R396, R397, R399, R411) -/

/-- Enabled wake sources (WCK_WAKEEN: bits 9 to 7 are always enabled). -/
def wakeEnabled (s : State) : Nat := fld .wakeen 0 0 6 0 s ||| 0x380

/-- The present WCK32 period, counted from POR. -/
def wckPeriod (s : State) : Nat := s.us * 32768 / 1000000

/-- Wake sources become active (R79): outside LIT and during an entry the enabled ones are noted, and those of a later
WCK32 period than the first are not recorded. -/
def noteWake (src : Nat) (s : State) : State :=
  let a := src &&& wakeEnabled s
  if a = 0 || (s.pwr.state == .lit && s.pwr.phase != .entering) then s
  else if s.pwr.active = 0 then s.modPwr fun p => { p with active := a, activeAt := wckPeriod s }
  else if s.pwr.activeAt = wckPeriod s then s.modPwr fun p => { p with active := p.active ||| a }
  else s

/-- The alarm fires (R399): EN clears, IRQ_STAT bit 1, event 0x0E58, wake source CAL. -/
def fireAlarm (s : State) : State :=
  let s := setFld .calAlm1 0 0 31 31 0 s
  let s := setIrqStat .cal 0 1 s
  let s := ev .cal 0x0E58 (s.cal.sec % 2 ^ 32) 0 0 s
  noteWake 0x20 s

/-- The alarm value, when the alarm is armed. -/
def alarmAt (s : State) : Option Nat :=
  if fld .calAlm1 0 0 31 31 s = 1 then some (fld .calAlm1 0 0 15 0 s * 2 ^ 32 + reg .calAlm0 0 0 s) else none

/-- The slew rate in ppm (17 CAL_CFG: above 1,000 acts as 1,000, and 0 as 1). -/
def slewPpm (s : State) : Nat := zeroAsOne (min 1000 (fld .calCfg 0 0 15 0 s))

/-- The calendar counts dt microseconds, slewing while ADJREM is not 0 (R396, R397). -/
def calRun (dt : Nat) (s : State) : State :=
  let c := s.cal
  let acc := if c.adjRem = 0 then 0 else c.slewFrac + dt * slewPpm s
  let corr := min (acc / 1000000) c.adjRem.natAbs
  let sg : Int := if c.adjRem < 0 then -1 else 1
  let rem := c.adjRem - sg * corr
  let t := ((c.sec * 1000000 + c.usec + dt : Nat) : Int) + sg * corr
  let t := t.toNat
  let sec' := (t / 1000000) % 2 ^ 48
  let s := { s with cal := { c with sec := sec', usec := t % 1000000, adjRem := rem
                                    slewFrac := if rem = 0 then 0 else acc % 1000000
                                    rcSince := c.rcSince || (s.clk.onRc && dt != 0) } }
  let s := if c.adjRem ≠ 0 ∧ rem = 0 then setIrqStat .cal 0 2 s else s
  match alarmAt s with
  | some a => if c.sec < a ∧ a ≤ sec' then fireAlarm s else s
  | none => s

/-- The calendar over dt microseconds: CTL.FREEZE of CAL holds it (R35). -/
def calCount (dt : Nat) (s : State) : State := if (vget s.hdr (Blk.cal.hdr 0) {}).freeze then s else calRun dt s

/-- The watchdog pauses in GLOW and while a debugger halts an A-core (R104). -/
def wdtPaused (s : State) : Bool := s.pwr.state == .glow || s.sys.debugHalt

/-- VLK time counts dt microseconds; a root slews it as CAL slews while a host Timestamp's offset is worked off (R411). -/
def vlkCount (dt : Nat) (s : State) : State :=
  let v := s.vlk
  let acc := if v.slewRem = 0 then 0 else v.slewFrac + dt * slewPpm s
  let corr := min (acc / 1000000) v.slewRem.natAbs
  let sg : Int := if v.slewRem < 0 then -1 else 1
  let rem := v.slewRem - sg * corr
  let t := ((v.timeNs + 1000 * dt : Nat) : Int) + sg * 1000 * corr
  { s with vlk := { v with timeNs := t.toNat, slewRem := rem, slewFrac := if rem = 0 then 0 else acc % 1000000 } }

/-- dt microseconds pass: the tick, the calendar and VLK time count. -/
def elapse (dt : Nat) (s : State) : State :=
  calCount dt <| vlkCount dt { s with
    us := s.us + dt
    sys := { s.sys with wdtAt := if wdtPaused s then s.sys.wdtAt + dt else s.sys.wdtAt } }

/-- Time moves forward to an instant, given in microseconds since POR; it never moves back. -/
def advanceTo (t : Nat) (s : State) : State := if s.us < t then elapse (t - s.us) s else s

/-! ### Power domains (R68, R69) -/

/-- The power domain of a block's instance (table Power domains). -/
def pdOf (b : Blk) (n : Nat) : Nat :=
  match b with
  | .wck | .llt | .cal | .lif | .evr | .sup => 0
  | .kst | .tru => 1
  | .sys | .cpx | .irq | .clk | .thm | .trm | .vlk | .dbg => 2
  | .pcx | .hce => 8
  | .lgr | .xmt | .rvr | .bst => 10
  | .bcc => 11
  | .dmc => 12
  | .cst | .ldp | .tpe | .cip | .cipu | .spn | .lsr | .opt | .psi => 13
  | .asq | .rwc => 14 + n
  | .sve => if n = 4 then 13 else 14 + n

/-- A power domain is on. -/
def pdOn (d : Nat) (s : State) : Bool := vget s.pwr.pd d .off == .on

/-- Channel n works: its domain and the media domain are on. -/
def chanOn (n : Nat) (s : State) : Bool := pdOn 13 s && pdOn (14 + n) s

/-! ### Access to a block's pages -/

/-- One access to a register other than GUARD consumes one access of the window (R36). -/
def useWindow (b : Blk) (n : Nat) (s : State) : State :=
  s.modHdr (b.hdr n) fun h => { h with remain := h.remain - 1 }

/-- The guard window of a block is open. -/
def windowOpen (b : Blk) (n : Nat) (s : State) : Bool :=
  match s.hdr[b.hdr n]? with
  | some h => h.remain != 0
  | none => false

/-- The header of a block's instance. -/
def hdrOf (b : Blk) (n : Nat) (s : State) : Hdr := vget s.hdr (b.hdr n) {}

/-- The register pages that R4 fuses off on the IMH9460-D. -/
def fused (b : Blk) (n : Nat) (s : State) : Bool :=
  s.sys.variant == .d && (b == .asq || b == .rwc || b == .sve) && (n == 2 || n == 3)

/-- The pages of a block answer: its domain is on, and they are not fused off. -/
def pageOn (b : Blk) (n : Nat) (s : State) : Bool := pdOn (pdOf b n) s && !(fused b n s)

/-- An access at address a reaches a block: while its domain is gated or off, as the domains of fused-off pages always
are (R4, R68), the access has no effect and SYS records 0x0E20 (R69); otherwise it takes effect and consumes one access of
the guard window (R36). While PD2 is not on no master reaches any page (R382; log 17). -/
def access (b : Blk) (n a : Nat) (k : State → State) (s : State) : State :=
  if pdOn 2 s then
    if pageOn b n s then useWindow b n (k s) else blockError .sys 0 0x0E20 a s
  else s

/-- The engines of a block are held by FREEZE (R35) or by a soft reset under way (R34). -/
def heldBlk (b : Blk) (n : Nat) (s : State) : Bool := (hdrOf b n s).freeze || (hdrOf b n s).srst

/-- A write that would change RWG content kept outside the register file: with the window closed it is refused with
0x0002 and changes nothing (R7, R36; log 18). -/
def guarded (b : Blk) (n a : Nat) (changes : Bool) (k : State → State) (s : State) : State :=
  if changes && !(windowOpen b n s) then blockError b n 0x0002 (a % 0x1000) s else k s

/-- A write to a register with the window closed is a refusal: every write where all fields are RWG (R7), one that would
change an RWG field where others stand beside it (R434). -/
def refuses (r : Reg) (n k v : Nat) (s : State) : Bool :=
  let g := r.mask (· == .rwg)
  !(windowOpen r.row.blk n s) && g != 0 && (!r.mixed || (v ^^^ reg r n k s) &&& g != 0)

/-- A write stores the fields of a register under their access types (R7, R434): RW always, RWG while the window is
open. With the window closed the RWG fields stay as they are, and a refusal records 0x0002 (log 18). -/
def storeFields (r : Reg) (n k v : Nat) (s : State) : State :=
  let b := r.row.blk
  let old := reg r n k s
  let rw := r.mask (· == .rw)
  let g := r.mask (· == .rwg)
  let opn := windowOpen b n s
  let m := if opn then rw ||| g else rw
  let refused := refuses r n k v s
  let s := setReg r n k ((old &&& ((2 ^ 32 - 1) ^^^ m)) ||| (v &&& m)) s
  if refused then blockError b n 0x0002 (r.addr n k % 0x1000) s else s

/-! ### Memory (R11, R28, R42) -/

/-- A byte as it lies in memory. -/
def memByte (a : Nat) (s : State) : Byte := sget 0 a s.mem

/-- A byte of memory set. -/
def setMemByte (a : Nat) (v : Byte) (s : State) : State := { s with mem := sput 0 a v s.mem }

/-- n bytes as they lie in memory, as a little-endian number. -/
def memRead (a n : Nat) (s : State) : Nat := fromBytes ((List.range n).map fun i => memByte (a + i) s)

/-- Bytes written to memory in ascending order. -/
def memWriteBytes (a : Nat) : List Byte → State → State
  | [], s => s
  | b :: t, s => memWriteBytes (a + 1) t (setMemByte a b s)

/-- n bytes of a number written to memory. -/
def memWrite (a n v : Nat) (s : State) : State := memWriteBytes a (toBytes n v) s

/-- The copy of a 64-byte line in an A-core L1 data cache. -/
def l1Find (line : Nat) (s : State) : Option L1Line := s.l1.find? fun l => l.line == line

/-- A byte as the coherent masters see it (R11): the A-core copy if there is one, else memory. -/
def cohByte (a : Nat) (s : State) : Byte :=
  match l1Find (a / 64) s with
  | some l => BitVec.ofNat 8 (l.data >>> (8 * (a % 64)))
  | none => memByte a s

/-- n bytes as the coherent masters see them. -/
def cohRead (a n : Nat) (s : State) : Nat := fromBytes ((List.range n).map fun i => cohByte (a + i) s)

/-- The outcome of a command that only changes the state. -/
abbrev Out := Host.Outcome State Fault Refusal

end Sys2Proof.Machine
end

