-- ==== Sys2Proof/Machine/Lamplighter.lean ====
section
/-!
DEFINITION. LLT, the Lamplighter: budgets, requests, the queue walk, grants and their ends, the thermal ceiling
(04_power_wick_lamplighter.md, R20, R21, R83-R90).
-/

set_option Elab.async false

namespace Sys2Proof.Machine

open Sys2Proof

/-! ### Budgets -/

/-- LLT_BOARD. -/
def lltBoard (s : State) : Nat := fld .lltBoard 0 0 23 0 s

/-- LLT_LEASE: the lease, or VLK_FLOOR while VALID = 0 (04 Budget registers). -/
def lltLease (s : State) : Nat := if s.llt.leaseValid then s.llt.leaseMw else fld .vlkFloor 0 0 23 0 s

/-- LLT_AVAIL = min(LLT_BOARD, LLT_THERM, LLT_LEASE) (R20). -/
def lltAvail (s : State) : Nat := min (lltBoard s) (min s.llt.therm (lltLease s))

/-- LLT_RSV, counted only while EN = 1 (R84). -/
def lltRsv (s : State) : Nat := if fld .lltRsv 0 0 31 31 s = 1 then fld .lltRsv 0 0 23 0 s else 0

/-- Tickets granted. -/
def grantedTickets (s : State) : List Ticket := s.llt.tickets.filter (·.state == .granted)

/-- Tickets queued, in the order of the queue (R85): priority, then submission. -/
def queuedTickets (s : State) : List Ticket :=
  (s.llt.tickets.filter (·.state == .queued)).mergeSort fun a b =>
    b.prio < a.prio || (a.prio == b.prio && a.order ≤ b.order)

/-- LLT_GRANTED: milliwatts of the grants in force, RVR_COMMIT excluded. -/
def lltGranted (s : State) : Nat := (grantedTickets s).foldl (fun a t => a + t.mw) 0

/-- Milliwatts that a new grant may take; negative amounts count as 0 only in the comparison (R84). -/
def fits (mw : Nat) (s : State) : Bool := mw + lltRsv s + lltGranted s ≤ lltAvail s

/-! ### Classes (R83) -/

/-- Default power, maximum duration, priority and ladder level of a class (table Leave classes). -/
def leaveClass (c : Nat) : Nat × Nat × Nat × Nat :=
  match c with
  | 0 => (24000, 10000, 4, 7)
  | 1 | 2 | 3 | 4 => (3000, 50, 6, 7)
  | 5 => (400, 2000, 6, 7)
  | 6 => (1500, 500, 5, 7)
  | 7 => (1200, 300, 4, 7)
  | 8 => (2500, 2000, 1, 8)
  | 9 => (6000, 30000, 3, 7)
  | _ => (1100, 65535, 5, 7)

/-- SPINUP, SEEK0-3, LASER and LDPC_BOOST are stopped by an entry into DIM or deeper (table LIT to DIM). -/
def classStopped (c : Nat) (s : State) : Bool := c ≤ 6 && (s.pwr.phase == .entering || s.pwr.state != .lit)

/-- The Lamplighter's engine is held by FREEZE (R35). -/
def lltHeld (s : State) : Bool := (hdrOf .llt 0 s).freeze

/-- Nothing of a class is granted: its class is stopped, or the engine is held. -/
def notGranting (c : Nat) (s : State) : Bool := classStopped c s || lltHeld s

/-- A class is requestable (R84 step 1): it names a class, it is enabled, and it is not closed by R90. -/
def classOpen (c : Nat) (s : State) : Bool :=
  c ≤ 10 && fld .lltClassen 0 0 c c s == 1 && s.llt.closed.isNone

/-! ### Tickets -/

/-- The generation of a ticket. -/
def ticketGen (k : Nat) (s : State) : Nat := sget 0 k s.llt.gens

/-- A ticket in use. -/
def ticketAt (k : Nat) (s : State) : Option Ticket := s.llt.tickets.find? (·.num == k)

/-- A ticket granted under a generation. -/
def ticketGranted (k g : Nat) (s : State) : Bool :=
  match ticketAt k s with
  | some t => t.state == .granted && t.gen == g
  | none => false

/-- Tickets changed. -/
def modTicket (k : Nat) (f : Ticket → Ticket) (s : State) : State :=
  s.modLlt fun l => { l with tickets := mapIf (·.num == k) f l.tickets }

/-- A ticket becomes free. -/
def freeTicket (k : Nat) (s : State) : State :=
  s.modLlt fun l => { l with tickets := l.tickets.filter (·.num != k) }

/-- The direct line of a port. -/
def portLine (p : Nat) (s : State) : State := raiseLine (360 + p) s

/-- A port of a ticket. -/
def finPort (p : Nat) : Fin 16 := Fin.ofNat 16 p

/-- Counts of a class for log page 0xC4, wrapping with their WRAP flags (17 Performance counters). -/
def countClass (c which : Nat) (s : State) : State :=
  s.modLlt fun l => { l with counts := vmod l.counts c fun x =>
    let up := fun v : Nat => (wrapAdd v 1).1
    let w := fun v : Nat => if (wrapAdd v 1).2 then x.wrap ||| 1 <<< which else x.wrap
    match which with
    | 0 => { x with grants := up x.grants, wrap := w x.grants }
    | 1 => { x with denials := up x.denials, wrap := w x.denials }
    | 2 => { x with deadlines := up x.deadlines, wrap := w x.deadlines }
    | _ => { x with leaseEnds := up x.leaseEnds, wrap := w x.leaseEnds } }

/-- The expiry of a grant made now for a requested end (R86): capped at the lease's expiry while the lease is valid. -/
def cappedEnd (e : Nat) (s : State) : Nat := if s.llt.leaseValid then min e s.llt.leaseExp else e

/-- A ticket is granted (R85, R86): the port's answer, its line and the class count. -/
def grantTicket (k : Nat) (s : State) : State :=
  match ticketAt k s with
  | none => s
  | some t =>
    let e := now s + t.dur
    let s := modTicket k (fun t => { t with state := .granted, reqEnd := e, at_ := cappedEnd e s, order := s.llt.order }) s
    let s := s.modLlt fun l => { l with order := l.order + 1 }
    let s := s.modPort (finPort t.port) fun p =>
      if p.ticket = k ∧ p.gen = t.gen ∧ p.state = 1 then { p with state := 2, respX := cappedEnd e s } else p
    let s := portLine t.port (countClass t.cls 0 s)
    if s.llt.orphans.contains (k, t.gen) then
      let s := s.modLlt fun l => { l with orphans := l.orphans.filter (· != (k, t.gen)) }
      (freeTicket k s).modPort (finPort t.port) fun p => { p with opst := 0 }
    else s

/-- The walk of R85 over the queue in order: the first request that does not fit is the head; those after it are
granted only within the budget less the head's milliwatts. A request of a class that is stopped waits. -/
def walkFrom : List Ticket → Option Nat → State → State
  | [], _, s => s
  | t :: rest, head, s =>
    let ok := match head with
      | none => fits t.mw s
      | some h => fits (t.mw + h) s
    if notGranting t.cls s then walkFrom rest head s
    else if ok && (grantedTickets s).length < 64 then walkFrom rest head (grantTicket t.num s)
    else walkFrom rest (match head with | none => some t.mw | some h => some h) s

/-- The walk that follows every change of LLT_AVAIL, LLT_GRANTED or the queue. -/
def walkQueue (s : State) : State := walkFrom (queuedTickets s) none s

/-! ### Requests (R84) -/

/-- Line 256 + 8n + 5: a leave that ASQn asked for through its port 9 + n is denied or removed (08). -/
def leaveLost (p : Nat) (s : State) : State := if 9 ≤ p ∧ p ≤ 12 then raiseLine (256 + 8 * (p - 9) + 5) s else s

/-- The answer of a denial. -/
def denyPort (p : Fin 16) (cls reason : Nat) (s : State) : State :=
  let s := s.modPort p fun x => { x with state := 3, reason := reason, gen := 0, ticket := 0, respX := 0 }
  portLine p <| leaveLost p (if cls ≤ 15 then countClass cls 1 s else s)

/-- A request of a class through a port (R84), its fields as written. A request of a class whose granting an entry into
DIM or deeper has stopped is queued (log 165). -/
def submitLeave (p : Fin 16) (cls prio mw inst dl dur : Nat) (s : State) : State :=
  let (dmw, mdur, dprio, _) := leaveClass cls
  let mw := if mw = 0 then dmw else mw
  let dur := if dur = 0 then mdur else dur
  let prio := if prio = 0 then dprio else prio
  if !(classOpen cls s) then denyPort p cls 2 s
  else if 2 * dmw < mw ∨ mdur < dur then denyPort p cls 3 s
  else if lltBoard s < mw + lltRsv s then denyPort p cls 4 s
  else
    let take := fun (s : State) =>
      let k := (lowestFree 128 (s.llt.tickets.map (·.num))).getD 0
      let g := (ticketGen k s + 1) % 256
      let t : Ticket := { num := k, state := .queued, cls := cls, mw := mw, port := p, prio := prio, inst := inst
                          gen := g, dur := dur, at_ := if dl = 0 then 0 else now s + 100 * dl
                          reqEnd := 0, order := s.llt.order }
      let s := s.modLlt fun l => { l with tickets := l.tickets ++ [t], gens := sput 0 k g l.gens, order := l.order + 1 }
      (s.modPort p fun x => { x with state := 1, reason := 0, gen := g, ticket := k, respX := t.at_ }, k)
    let qs := queuedTickets s
    if !(notGranting cls s) && fits mw s && (grantedTickets s).length < 64 && qs.all (fun t => t.prio < prio) then
      let (s, k) := take s
      grantTicket k s
    else if qs.length < 64 then walkQueue (take s).1
    else ev .llt 0x0E40 p 0 0 (denyPort p cls 1 s)

/-- REQA and REQB submitted through a port. -/
def submitWords (p : Fin 16) (a b : Nat) (s : State) : State :=
  submitLeave p (bits a 31 28) (bits a 27 24) (bits a 23 0) (bits b 30 24) (bits b 23 16) (bits b 15 0) s

/-- GO on a port: answered at once, or, with the engine held by FREEZE, when it is released. A GO while the port's
submission still awaits its answer is ignored and recorded (R84). -/
def leaveGo (p : Fin 16) (a b : Nat) (s : State) : State :=
  if s.llt.ports[p].await.isSome then blockError .llt 0 0x0E47 p s
  else if lltHeld s then s.modPort p fun x => { x with await := some (a, b) }
  else submitWords p a b s

/-- A write of LLT_REQBp: GO submits REQA and REQB. -/
def writeReqb (p : Fin 16) (v : Nat) (s : State) : State :=
  let s := storeFields .lltReqb 0 p v s
  if v.testBit 31 then leaveGo p (reg .lltReqa 0 p s) (reg .lltReqb 0 p s) s else s

/-- The engine is released: the submissions that await an answer get it, in port order, and the queue is walked. -/
def lltRelease (s : State) : State :=
  walkQueue ((List.finRange 16).foldl (fun (s : State) (p : Fin 16) =>
    match s.llt.ports[p].await with
    | some (a, b) => submitWords p a b (s.modPort p fun x => { x with await := none })
    | none => s) s)

def execLeaveRequest (_m : Master) (p : Fin 16) (v : Word) (s : State) : Out :=
  .next <| access .llt 0 (Reg.addr .lltReqb 0 p) (writeReqb p v.toNat) s

/-! ### Release, renewal, expiry, deadline (R86-R88) -/

/-- The status of the last operation of a port. -/
def opStatus (p : Fin 16) (st : Nat) (s : State) : State := s.modPort p fun x => { x with opst := st }

/-- OP 0 of LLT_OPp (R87): a granted ticket returns its milliwatts, a queued one is withdrawn. -/
def releaseTicket (p : Fin 16) (k g : Nat) (s : State) : State :=
  match ticketAt k s with
  | some t =>
    if t.gen = g then walkQueue (opStatus p 0 (freeTicket k s)) else opStatus p 1 s
  | none => opStatus p 1 s

/-- OP 1 of LLT_OPp (R87). -/
def renewTicket (p : Fin 16) (k g dur : Nat) (s : State) : State :=
  match ticketAt k s with
  | none => opStatus p 1 s
  | some t =>
    if t.gen ≠ g then opStatus p 1 s
    else
      let mdur := (leaveClass t.cls).2.1
      let d := if dur = 0 then mdur else dur
      if t.state == .granted && d ≤ mdur && lltGranted s + lltRsv s ≤ lltAvail s then
        let e := now s + d
        let s := modTicket k (fun t => { t with dur := d, reqEnd := e, at_ := cappedEnd e s }) s
        let s := s.modPort (finPort t.port) fun x =>
          if x.ticket = k ∧ x.gen = g ∧ x.state = 2 then { x with respX := cappedEnd e s } else x
        opStatus p 0 s
      else opStatus p 2 s

/-- A write of LLT_OPp. -/
def writeOp (p : Fin 16) (v : Nat) (s : State) : State :=
  if v.testBit 7 then renewTicket p (bits v 6 0) (bits v 15 8) (bits v 31 16) s
  else releaseTicket p (bits v 6 0) (bits v 15 8) s

def execLeaveRelease (_m : Master) (p : Fin 16) (v : Word) (s : State) : Out :=
  .next <| access .llt 0 (Reg.addr .lltOp 0 p) (writeOp p (v.toNat &&& 0xFFFFFF7F)) s

def execLeaveRenew (_m : Master) (p : Fin 16) (v : Word) (s : State) : Out :=
  .next <| access .llt 0 (Reg.addr .lltOp 0 p) (writeOp p (v.toNat ||| 0x80)) s

/-- The ticket that LDP_BOOST names ends: LDP raises line 348 (R228). -/
def boostEnds (k g : Nat) (s : State) : State :=
  if fld .ldpBoost 0 0 31 31 s = 1 && fld .ldpBoost 0 0 6 0 s = k && fld .ldpBoost 0 0 15 8 s = g then raiseLine 348 s
  else s

/-- A grant ends (R87): the milliwatts leave LLT_GRANTED and the ticket is free; its generation moves on, so that a
release that comes late finds it stale. -/
def endGrant (t : Ticket) (byLease : Bool) (s : State) : State :=
  let s := freeTicket t.num s
  let s := s.modLlt fun l => { l with
    gens := sput 0 t.num ((t.gen + 1) % 256) l.gens, expired := insertNat t.num (removeNat t.num l.expired) }
  let s := if byLease then countClass t.cls 3 (ev .llt 0x0E41 t.num 0 0 s) else s
  boostEnds t.num t.gen (portLine t.port s)

/-- A grant reaches its expiry; time moves forward to it. A grant whose requested end lies beyond the lease's ends by
lease expiry (R86). -/
def execLeaveExpiry (t : Fin 128) (s : State) : Out :=
  .next <|
    match ticketAt t s with
    | some k =>
      if k.state == .granted && !(lltHeld s) then
        let s := advanceTo (k.at_ * 1000) s
        walkQueue (endGrant k (k.at_ < k.reqEnd) s)
      else s
    | none => s

/-- 1 ms after an expiry the block still draws more than its floor (R87): event 0x0E42. -/
def execDrawAfterExpiry (t : Fin 128) (s : State) : Out :=
  .next <|
    if s.llt.expired.contains t.val then
      ev .llt 0x0E42 t 0 0 (elapse 1000 (s.modLlt fun l => { l with expired := removeNat t l.expired }))
    else s

/-- A queued request reaches its deadline (R88). -/
def execLeaveDeadline (t : Fin 128) (s : State) : Out :=
  .next <|
    match ticketAt t s with
    | some k =>
      if k.state == .queued && k.at_ != 0 && !(lltHeld s) then
        let s := advanceTo (k.at_ * 1000) s
        let s := (freeTicket t s).modLlt fun l => { l with orphans := l.orphans.filter (· != (t.val, k.gen)) }
        let s := countClass k.cls 2 (ev .llt 0x0E43 t 0 0 s)
        let s := s.modPort (finPort k.port) fun x =>
          if x.ticket = t ∧ x.gen = k.gen then { x with state := 3, reason := 5, respX := 0 } else x
        let s := if (leaveClass k.cls).2.2.2 = 8 then
            guarantee .llt 6 8 0xFFFFFFFF (t + 256 * k.gen) 0x0E43 s
          else s
        walkQueue (leaveLost k.port (portLine k.port s))
      else s
    | none => s

/-! ### Revocation (R90) and the commit grant (R21) -/

/-- R90: every ticket is revoked, the queue emptied, every port line raised, event 0x0E46 recorded and every class but
RVR_COMMIT closed. -/
def revokeAll (cause : Nat) (s : State) : State :=
  let s := (grantedTickets s).foldl (fun s t => boostEnds t.num t.gen s) s
  let s := (queuedTickets s).foldl (fun s t => leaveLost t.port s) s
  let s := s.modLlt fun l => { l with
    gens := l.tickets.foldl (fun g t => sput 0 t.num ((t.gen + 1) % 256) g) l.gens
    tickets := [], closed := some cause, expired := [], orphans := [] }
  let s := (List.range 16).foldl (fun s p => portLine p s) s
  let s := { s with llt := { s.llt with ports := s.llt.ports.map fun p =>
    if p.state = 1 then { p with state := 0, respX := 0 } else if p.state = 2 then { p with state := 0, respX := 0 } else p } }
  ev .llt 0x0E46 cause 0 0 s

/-- The classes open again. -/
def openClasses (s : State) : State := s.modLlt fun l => { l with closed := none }

/-- The RVR_COMMIT grant that the Lamplighter makes itself (R21); a grant beyond the budget is recorded as 0x1046. -/
def commitGrant (s : State) : State :=
  let beyond := lltAvail s < (fld .lltRsv 0 0 23 0 s) + lltGranted s
  let s := countClass 15 0 (s.modLlt fun l => { l with commitGrant := true })
  if beyond then
    guarantee .llt 4 6 (if s.llt.leaseValid then s.vlk.ident else 0xFFFFFFFF) 0xFFFFFFFF 0x0211 s
  else s

/-- The RVR_COMMIT grant ends. -/
def commitGrantEnd (s : State) : State := s.modLlt fun l => { l with commitGrant := false }

/-! ### The thermal ceiling (R89) -/

/-- The step of the ceiling: LLT_BOARD / 10, never less than 1 mW. -/
def thermStep (s : State) : Nat := max 1 (lltBoard s / 10)

/-- One lowering step, never below LLT_TFLOOR; the first of an episode records 0x0E44. -/
def thermLower (s : State) : State :=
  let base := min s.llt.therm (lltBoard s)
  let t := max (fld .lltTfloor 0 0 23 0 s) (base - thermStep s)
  let first := !s.llt.episode
  let s := s.modLlt fun l => { l with therm := min t l.therm, episode := true }
  if first then ev .llt 0x0E44 s.llt.therm 0 0 s else s

/-- One raising step; at the step that reaches LLT_BOARD the ceiling returns to 0xFF_FFFF with event 0x0E45. -/
def thermRaise (s : State) : State :=
  if s.llt.episode then
    let t := s.llt.therm + thermStep s
    if lltBoard s ≤ t then
      ev .llt 0x0E45 0xFFFFFF 0 0 (s.modLlt fun l => { l with therm := 0xFFFFFF, episode := false })
    else s.modLlt fun l => { l with therm := t }
  else s

/-- A step of the ceiling: lowered every 10 ms under THROT, raised every 100 ms after it clears. -/
def execThermalCeilingStep (s : State) : Out :=
  .next <|
    if lltHeld s then s
    else if s.thm.throt then walkQueue (thermLower (elapse 10000 s))
    else if s.llt.episode then walkQueue (thermRaise (elapse 100000 s))
    else s

/-! ### The lease (R86, R413) -/

/-- The lease is renewed (R86): capped grants move, oldest first, to the earlier of their requested end and the new
expiry, while the milliwatts moved and those of the grants not capped stay within the lease less LLT_RSV; LLT_RESPXp
shows the new end. -/
def moveCapped (exp : Nat) : List Ticket → Nat → State → State
  | [], _, s => s
  | t :: rest, used, s =>
    if used + t.mw + lltRsv s ≤ s.llt.leaseMw then
      let e := min t.reqEnd exp
      let s := modTicket t.num (fun x => { x with at_ := e }) s
      moveCapped exp rest (used + t.mw) (s.modPort (finPort t.port) fun x =>
        if x.ticket = t.num ∧ x.gen = t.gen ∧ x.state = 2 then { x with respX := e } else x)
    else s

/-- LLT_LEASE takes a lease: power and expiry. -/
def setLease (mw exp : Nat) (s : State) : State :=
  let gs := (grantedTickets s).mergeSort fun a b => a.order ≤ b.order
  let wasValid := s.llt.leaseValid
  let capped := gs.filter fun t => wasValid && t.at_ < t.reqEnd
  let free := gs.filter fun t => !(wasValid && t.at_ < t.reqEnd)
  let s := s.modLlt fun l => { l with leaseValid := true, leaseMw := mw, leaseExp := exp }
  walkQueue (moveCapped exp capped (free.foldl (fun a t => a + t.mw) 0) s)

/-- LLT_LEASE.VALID clears (R413): grants capped at the lease's expiry end with event 0x0E41. -/
def clearLease (s : State) : State :=
  let ends := (grantedTickets s).filter fun t => s.llt.leaseValid && t.at_ ≤ s.llt.leaseExp && t.at_ < t.reqEnd
  let s := s.modLlt fun l => { l with leaseValid := false, leaseMw := 0 }
  walkQueue (ends.foldl (fun s t => endGrant t true s) s)

end Sys2Proof.Machine
end

