-- ==== Sys2Proof/Machine/Mem.lean ====
section
/-!
DEFINITION. DMC and BCC: region attributes, DDR5 reads and writes with their codes and poison, initialisation, split
test, patrol scrub, row log, post-package repair, the buffer cache with its drain and range operations
(14_memory_and_buffer_cache.md, R98).
-/

set_option Elab.async false

namespace Sys2Proof.Machine

open Sys2Proof

/-- First address of DDR5 (R28). -/
def ddrBase : Nat := 0x100000000

/-- Installed GiB (DMC_CFG.SIZE): eight data devices of 1 or 2 GiB per rank (R316). -/
def installedGib (s : State) : Nat :=
  let ranks := if fld .dmcCfg 0 0 1 0 s = 2 then 2 else 1
  8 * ranks * (if fld .dmcCfg 0 0 2 2 s = 1 then 2 else 1)

/-- Installed DDR5 in bytes; at most 16 GiB (R316). -/
def installedBytes (s : State) : Nat := min 16 (installedGib s) * 2 ^ 30

/-- An address in installed DDR5. -/
def inDdr (a : Nat) (s : State) : Bool := ddrBase ≤ a && a < ddrBase + installedBytes s

/-- An access lies in a region. -/
def within (a n lo size : Nat) : Bool := lo ≤ a && a + n ≤ lo + size

/-- Entry k of REGATTR holds a MiB of DDR5 (R318). -/
def regionHolds (k mib : Nat) (s : State) : Bool :=
  let base := fld .regattr0 0 k 13 0 s
  let lim := fld .regattr1 0 k 13 0 s
  fld .regattr0 0 k 31 31 s == 1 && base ≤ mib && mib ≤ lim && lim < installedBytes s / 2 ^ 20

/-- The lowest-indexed enabled region that holds a DDR5 offset (R318). -/
def regionOf (off : Nat) (s : State) : Option Nat := (List.range 16).find? fun k => regionHolds k (off / 2 ^ 20) s

/-- Codes of a region: 0 STRONG, 1 MEDIUM, 2 LIGHT, 3 NONE; STRONG where no region holds the offset (R318). -/
def codeOf (off : Nat) (s : State) : Nat :=
  match regionOf off s with
  | some k => fld .regattr0 0 k 30 29 s
  | none => 0

/-- Cache policy of a DDR5 offset: 0 WB, 1 WT, 2 NA, 3 UC; 0 where no region holds it (R318). -/
def polOf (off : Nat) (s : State) : Nat :=
  match regionOf off s with
  | some k => fld .regattr0 0 k 28 27 s
  | none => 0

/-! ### DDR5 behind the code -/

/-- Size of a code's unit in bytes (table Region codes). -/
def codeUnit (code : Nat) : Nat := match code with | 0 => 128 | 1 => 8 | _ => 1

/-- Where a DDR5 offset lies on the devices (R317): rank, bank group, bank, row. -/
def ddrMap (off : Nat) (s : State) : Nat × Nat × Nat × Nat :=
  let bg := bits off 9 7
  let bw := if fld .dmcCfg 0 0 2 2 s = 1 then 2 else 1
  let ba := (off >>> 16) % 2 ^ bw
  let rw := if fld .dmcCfg 0 0 1 0 s = 2 then 1 else 0
  let rank := (off >>> (16 + bw)) % 2 ^ rw
  (rank, bg, ba, (off >>> (16 + bw + rw)) % 2 ^ 16)

/-- Event 0x0A11 for a row log entry, with its line 408 (R325). -/
def rowEvent (e : RowLog) (s : State) : State := raiseLine 408 (ev .dmc 0x0A11 e.i e.ce e.dev s)

/-- A corrected or failed read is logged by row (R325). -/
def rowLogRead (off : Nat) (ue : Bool) (dev : Nat) (s : State) : State :=
  let (rank, bg, ba, row) := ddrMap off s
  let sub := bits off 6 6
  let lim := fld .rowlim 0 0 15 0 s
  let same := fun e : RowLog => e.rank == rank && e.subch == sub && e.bg == bg && e.ba == ba && e.row == row
  let put := fun (e : RowLog) (s : State) =>
    let s := { s with dmc := { s.dmc with rowLog := (s.dmc.rowLog.filter fun x => x.i != e.i) ++ [e] } }
    if ue || (e.ce == lim && lim != 0) then rowEvent e s else s
  let fresh := fun i : Nat =>
    ({ i := i, ue := ue, rank := rank, subch := sub, dev := dev, bg := bg, ba := ba, row := row
       since := s.us / 3600000000, ce := if ue then 0 else 1 } : RowLog)
  match s.dmc.rowLog.find? same with
  | some e => put { e with ue := e.ue || ue, dev := dev, ce := if ue then e.ce else min 0xFFFF (e.ce + 1) } s
  | none =>
    match lowestFree 16 (s.dmc.rowLog.map (·.i)) with
    | some i => put (fresh i) s
    | none =>
      let low := s.dmc.rowLog.foldl (fun (m : Option RowLog) e =>
        match m with | none => some e | some x => if e.ce < x.ce || (e.ce == x.ce && e.i < x.i) then some e else m) none
      match low with
      | some x => if x.ue then s else put (fresh x.i) s
      | none => s

/-- The identifier of a master in an event parameter: cores 0-8 in the order of R39, 16 the debug port, 0x100 + block
type a DMA engine (log 19). -/
def masterId (m : Master) : Nat :=
  match m with
  | .core (.a n) => n.val
  | .core (.t n) => 4 + n.val
  | .core .sec => 8
  | .debug => 16
  | .dma t => 0x100 + t

/-- A failed read: event 0x0A10 with line 409 (R321). -/
def failedRead (m : Master) (off why : Nat) (s : State) : State :=
  let reg := match regionOf off s with | some k => k | none => 16
  raiseLine 409 (ev .dmc 0x0A10 (off / 128) (masterId m) (reg * 256 + why) s)

/-- The check bits that the poison of a byte inverts (R322): in STRONG the pattern 0xA5 in every check byte, in MEDIUM in
the two of its word, in LIGHT the parity of its two nibbles. -/
def poisonBits (code p : Nat) : Nat :=
  let i := p % 128
  match code with
  | 0 => (2 ^ 256 - 1) / 255 * 0xA5
  | 1 => 0xA5A5 <<< (16 * (i / 8))
  | _ => 3 <<< (2 * i)

/-- The check bits of a line that its poison inverts. -/
def poisonMask (line : Nat) (s : State) : Nat :=
  s.dmc.poison.foldl (fun a p => if p / 128 = line then a ||| poisonBits (codeOf (line * 128) s) p else a) 0

/-- The check bytes that the code of a line's region stores with its data; 0 in a NONE region (R320). -/
def goodCheck (line : Nat) (s : State) : Nat :=
  let code := codeOf (line * 128) s
  if code = 3 then 0 else Config.checkBytes code line (memRead (ddrBase + line * 128) 128 s) % 2 ^ 256

/-- A raw write has stored a line with the check bytes of a poisoned line (R322, R323). -/
def rawPoison (line : Nat) (s : State) : Bool :=
  s.dmc.rawChk.any fun (l, c) => l == line &&
    c == goodCheck l s ^^^ ((List.range 128).foldl (fun a i => a ||| poisonBits (codeOf (l * 128) s) i) 0)

/-- The poison flag of the 64-byte half-line that holds an offset (R322). -/
def halfPoisoned (off : Nat) (s : State) : Bool :=
  (s.dmc.poison.any fun p => p / 64 == off / 64) || rawPoison (off / 128) s

/-- A read that DMC performs for a requester (R321): `err` is the verdict of the region's code on the raw bits; the
answer says whether the half-line comes back poisoned. -/
def dmcRead (m : Master) (off : Nat) (err : DdrErr) (s : State) : State × Bool :=
  let code := codeOf off s
  if code = 3 then (s, false)
  else if halfPoisoned off s then
    (failedRead m off 2 (if code = 2 then s else rowLogRead off true 15 s), true)
  else
    match err with
    | .none => (s, false)
    | .correctable dev =>
      if code = 2 then (failedRead m off 1 s, true) else (rowLogRead off false dev s, false)
    | .uncorrectable dev =>
      if code = 2 then (failedRead m off 1 s, true) else (failedRead m off 0 (rowLogRead off true dev s), true)

/-- Bytes lo..lo+n-1 of DDR5 lose their poison. -/
def unpoison (lo n : Nat) (s : State) : State :=
  { s with dmc := { s.dmc with poison := s.dmc.poison.filter fun p => p < lo || lo + n ≤ p } }

/-- Bytes lo..lo+n-1 of DDR5 are poisoned. -/
def poisonBytes (lo n : Nat) (s : State) : State :=
  let s := unpoison lo n s
  { s with dmc := { s.dmc with poison := s.dmc.poison ++ (List.range n).map (lo + ·) } }

/-- A write of n bytes that DMC performs (R320, R322): a full unit clears the poison; a partial write whose
read-modify-write meets poison leaves the whole unit poisoned. -/
def dmcWrite (off n v : Nat) (s : State) : State :=
  let code := codeOf off s
  let u := codeUnit code
  let s := if rawPoison (off / 128) s then poisonBytes (off / 128 * 128) 128 s else s
  let s := memWrite (ddrBase + off) n v s
  let s := { s with dmc := { s.dmc with rawChk := s.dmc.rawChk.filter fun (l, _) => l != off / 128 } }
  if code = 3 then s
  else
    let full := fun p => off ≤ p / u * u && p / u * u + u ≤ off + n
    { s with dmc := { s.dmc with poison := s.dmc.poison.filter fun p => !(full p) } }

/-- A DDR5 line written as a poisoned line (R322); a NONE region takes no poison. -/
def dmcPoisonLine (line : Nat) (s : State) : State :=
  if codeOf (line * 128) s = 3 then s else poisonBytes (line * 128) 128 s

/-! ### The buffer cache (R329-R339) -/

def State.modBcc (f : Bcc → Bcc) (s : State) : State := { s with bcc := f s.bcc }

/-- The set of a line (R317: offset bits [19:7]). -/
def setOf (line : Nat) : Nat := line % 8192

/-- Every way is disabled: BCC passes every access (R338). -/
def allWaysOff (s : State) : Bool := (List.range 16).all fun w => s.bcc.wayDis.contains w

/-- BCC acts on accesses as if DISABLED (R333, R338). -/
def bccPass (s : State) : Bool := s.bcc.state == .disabled || allWaysOff s

/-- The line held for an address, valid. -/
def bccHit (line : Nat) (s : State) : Option CLine := s.bcc.lines.find? fun l => l.line == line && l.valid

/-- The reservation held for an address. -/
def bccReserved (line : Nat) (s : State) : Option CLine := s.bcc.lines.find? fun l => l.line == line && !l.valid

/-- A line of BCC replaced, by set and way. -/
def bccPut (c : CLine) (s : State) : State :=
  s.modBcc fun b => { b with lines := c :: b.lines.filter (fun l => !(l.set_ == c.set_ && l.way == c.way)) }

/-- A slot of BCC emptied. -/
def bccDrop (c : CLine) (s : State) : State :=
  s.modBcc fun b => { b with lines := b.lines.filter (fun l => !(l.set_ == c.set_ && l.way == c.way)) }

/-- The next order of use. -/
def bccTick (s : State) : State := s.modBcc fun b => { b with tick := b.tick + 1 }

/-- A dirty line written back: a full-unit write. -/
def writeBack (c : CLine) (s : State) : State := if c.dirty then dmcWrite (c.line * 128) 128 c.data s else s

/-- When a way of a set was last used; 0 for an empty way. -/
def wayUse (set_ w : Nat) (s : State) : Nat :=
  match s.bcc.lines.find? (fun l => l.set_ == set_ && l.way == w) with
  | some l => l.used + 1
  | none => 0

/-- The least recently used way of a set among those allowed; an empty way counts as used longest ago. -/
def lruWay (set_ : Nat) (ways : List Nat) (s : State) : Option Nat :=
  let free := ways.filter fun w =>
    !(s.bcc.wayDis.contains w) && s.bcc.lines.all fun l => !(l.set_ == set_ && l.way == w && (l.locked || !l.valid))
  free.foldl (fun m w =>
    match m with
    | none => some w
    | some x => if wayUse set_ w s < wayUse set_ x s then some w else some x) (none : Option Nat)

/-- A line placed in a way, its dirty victim written back first (R330). -/
def bccFill (line way data : Nat) (dirty locked : Bool) (s : State) : State :=
  let st := setOf line
  let s := match s.bcc.lines.find? (fun l => l.set_ == st && l.way == way) with
    | some v => writeBack v s
    | none => s
  let s := bccTick s
  bccPut { set_ := st, way := way, line := line, valid := true, dirty := dirty, locked := locked, data := data
           used := s.bcc.tick } s

/-- The way that an allocation for a line takes: its reservation, else the least recently used (R330, R337). -/
def allocWay (line : Nat) (s : State) : Option (Nat × Bool) :=
  match bccReserved line s with
  | some r => some (r.way, true)
  | none => (lruWay (setOf line) (List.range 16) s).map fun w => (w, false)

/-- A line as it lies in DDR5. -/
def ddrLine (line : Nat) (s : State) : Nat := memRead (ddrBase + line * 128) 128 s

/-- Bytes of a line. -/
def lineBytes (data i n : Nat) : Nat := (data >>> (8 * i)) % 2 ^ (8 * n)

/-- A line with n bytes at i replaced. -/
def lineSet (data i n v : Nat) : Nat := data - lineBytes data i n <<< (8 * i) + (v % 2 ^ (8 * n)) <<< (8 * i)

/-- A read that passes the cache. -/
def bccDirect (m : Master) (off n : Nat) (err : DdrErr) (s : State) : State × Nat × Bool :=
  let r := dmcRead m off err s
  (r.1, memRead (ddrBase + off) n r.1, r.2)

/-- The line of an offset read whole for a fill, both half-lines (R321, R329); `err` is the verdict on the half that holds
the offset. The answers: that half failed, the other failed. A line of which a half failed is not kept (log 186). -/
def lineRead (m : Master) (off : Nat) (err : DdrErr) (s : State) : State × Bool × Bool :=
  let a := dmcRead m off err s
  let b := dmcRead m (off ^^^ 64) .none a.1
  (b.1, a.2, b.2)

/-- A read miss that may allocate: the line is filled unless the read failed or no way is free. -/
def bccMiss (m : Master) (off n : Nat) (err : DdrErr) (s : State) : State × Nat × Bool :=
  let line := off / 128
  let x := lineRead m off err s
  let r := (x.1, memRead (ddrBase + off) n x.1, x.2.1)
  if x.2.1 || x.2.2 then r
  else
    match allocWay line r.1 with
    | some x => (bccFill line x.1 (ddrLine line r.1) false x.2 r.1, r.2.1, false)
    | none => r

/-- A read through BCC of n bytes within a line (R330, R332, R333): data, and whether the answer is poisoned. -/
def bccRead (m : Master) (off n : Nat) (err : DdrErr) (s : State) : State × Nat × Bool :=
  let line := off / 128
  if bccPass s then bccDirect m off n err s
  else
    match bccHit line s with
    | some c => (bccPut { c with used := s.bcc.tick } (bccTick s), lineBytes c.data (off % 128) n, false)
    | none =>
      let pol := polOf off s
      if s.bcc.state == .draining || ((bccReserved line s).isNone && (pol == 2 || pol == 3)) then bccDirect m off n err s
      else bccMiss m off n err s

/-- The walker of a drain stands where it stands, at a free set from its last known place on: the dirty lines of the sets
before it are written back (R332). -/
def drainWalk (s : State) : State :=
  let k := s.bcc.drainSet + draw (8193 - s.bcc.drainSet) s
  let gone := s.bcc.lines.filter fun c => c.dirty && setOf c.line < k
  let s := gone.foldl (fun s c => bccPut { c with dirty := false } (writeBack c s)) s.drawn
  s.modBcc fun b => { b with drainSet := k, drained := b.drained + gone.length }

/-- A write through BCC of n bytes within a line (R330, R332, R333). -/
def bccWrite (m : Master) (off n v : Nat) (s : State) : State :=
  let line := off / 128
  let s := if s.bcc.state == .draining then drainWalk s else s
  let i := off % 128
  if bccPass s then dmcWrite off n v s
  else
    match bccHit line s with
    | some c =>
      let s := bccTick s
      let d := lineSet c.data i n v
      let c := { c with data := d, used := s.bcc.tick }
      if s.bcc.state == .draining then
        if setOf line < s.bcc.drainSet then dmcWrite (line * 128) 128 d (bccPut { c with dirty := false } s)
        else bccPut { c with dirty := true } s
      else if polOf off s = 1 then dmcWrite off n v (bccPut c s)
      else bccPut { c with dirty := true } s
    | none =>
      let reserved := (bccReserved line s).isSome
      let pol := polOf off s
      if s.bcc.state == .draining || (!reserved && pol != 0) then dmcWrite off n v s
      else
        let (s, p, q) := if n = 128 then (s, false, false) else lineRead m off .none s
        if p || q then dmcWrite off n v s
        else
          match allocWay line s with
          | some (w, lk) =>
            let d := lineSet (ddrLine line s) i n v
            if pol = 1 then dmcWrite off n v (bccFill line w d false lk s) else bccFill line w d true lk s
          | none => dmcWrite off n v s

/-- Locks and reservations of a list of lines. -/
def lockCount (l : List CLine) : Nat := (l.filter (·.locked)).length

/-- A way is disabled (R338): dirty lines written back, or written as poison where their data is lost, every line
dropped, and the events of the disabling. -/
def disableWay (w why : Nat) (lost : List Nat) (s : State) : State :=
  if s.bcc.wayDis.contains w then s
  else
    let mine := s.bcc.lines.filter (·.way == w)
    let s := mine.foldl (fun s c =>
      if c.dirty then
        if lost.contains c.line then ev .bcc 0x0A34 ((ddrBase + c.line * 128) / 256) w 0 (dmcPoisonLine c.line s)
        else writeBack c s
      else s) s
    let s := s.modBcc fun b => { b with lines := b.lines.filter (·.way != w) }
    let n := lockCount mine
    let s := if n = 0 then s else ev .bcc 0x0A31 w n 0 s
    let s := s.modBcc fun b => { b with wayDis := insertNat w b.wayDis }
    raiseLine 418 (ev .bcc 0x0A30 w why 0 s)

/-- A corrected or uncorrectable error in a way's arrays (R338); the line named loses its data when uncorrectable. -/
def wayError (w : Fin 16) (unc : Bool) (line : Nat) (s : State) : State :=
  if unc then disableWay w 1 [line] s
  else
    let s := s.modBcc fun b => { b with wayCe := b.wayCe.set w (min 0xFFFF (b.wayCe[w] + 1)) }
    if zeroAsOne (fld .failcfg 0 0 15 0 s) ≤ s.bcc.wayCe[w] then disableWay w 0 [] s else s

/-! ### Range operations (R334-R337) -/

/-- One line discarded by INVAL or CLEAN_INVAL: a lock survives as a reservation (R337). -/
def invalLine (clean : Bool) (line : Nat) (s : State) : State :=
  match bccHit line s with
  | some c =>
    let s := if clean then writeBack c s else s
    if c.locked then
      (bccPut { c with valid := false, dirty := false, data := 0 } s).modBcc
        fun b => { b with lockInval := min (b.lockInval + 1) (2 ^ 32 - 1) }
    else bccDrop c s
  | none => s

/-- One line zeroed (R335). -/
def zeroLine (line : Nat) (s : State) : State :=
  let pol := polOf (line * 128) s
  if pol = 2 ∨ pol = 3 then
    let s := match bccHit line s with
      | some c => if c.locked then bccPut { c with data := 0, dirty := false } s else bccDrop c s
      | none => s
    dmcWrite (line * 128) 128 0 s
  else
    let way := match bccHit line s with
      | some c => some (c.way, c.locked)
      | none => allocWay line s
    match way with
    | some (w, lk) =>
      let s := match bccHit line s with
        | some c => bccPut { c with data := 0, dirty := true } s
        | none => bccFill line w 0 true lk s
      if pol = 1 then dmcWrite (line * 128) 128 0 s else s
    | none => dmcWrite (line * 128) 128 0 s

/-- The way in which a line that is not cached is locked: one reserved for it, or else the least recently used of ways
0-11. -/
def lockWay (line : Nat) (s : State) : Option Nat :=
  match bccReserved line s with
  | some r => some r.way
  | none => lruWay (setOf line) (List.range 12) s

/-- One line locked in ways 0-11 (R336); the answer says whether it was. -/
def lockLine (line : Nat) (s : State) : State × Bool :=
  if polOf (line * 128) s = 3 then (s, false)
  else
    match bccHit line s with
    | some c =>
      if c.way < 12 then (bccPut { c with locked := true } s, true)
      else
        match lruWay (setOf line) (List.range 12) s with
        | some w => (bccFill line w c.data c.dirty true (bccDrop c s), true)
        | none => (s, false)
    | none =>
      match lockWay line s with
      | some w =>
        let (s, p, q) := lineRead (.dma Blk.bcc.row.type_) (line * 128) .none s
        if p || q then (s, false) else (bccFill line w (ddrLine line s) false true s, true)
      | none => (s, false)

/-- A lock or reservation released; the line is kept. -/
def unlockLine (line : Nat) (s : State) : State :=
  match bccReserved line s with
  | some r => bccDrop r s
  | none =>
    match bccHit line s with
    | some c => bccPut { c with locked := false } s
    | none => s

/-- One line of a range operation. -/
def rangeLine (op line : Nat) (s : State) : State × Bool :=
  match op with
  | 1 => (match bccHit line s with | some c => bccPut { c with dirty := false } (writeBack c s) | none => s, true)
  | 2 => (invalLine false line s, true)
  | 3 => (invalLine true line s, true)
  | 4 => (zeroLine line s, true)
  | 5 => lockLine line s
  | 6 => (unlockLine line s, true)
  | _ => (s, true)

/-- The lines of a range in ascending order; the count of lines not locked, and the first of them. -/
def rangeLines (op : Nat) : List Nat → State → State × Nat × Nat
  | [], s => (s, 0, 0)
  | l :: t, s =>
    let (s, ok) := rangeLine op l s
    let (s, n, f) := rangeLines op t s
    if ok then (s, n, f) else (s, n + 1, l)

/-- States in which a range operation is accepted (table Range operations). -/
def rangeAccepted (op : Nat) (st : BccState) : Bool :=
  match op, st with
  | 1, .enabled | 1, .draining => true
  | 2, _ | 3, _ | 6, _ => true
  | 4, .enabled | 5, .enabled => true
  | 7, .disabled => true
  | _, _ => false

/-- BCC_STAT.STATE as a code. -/
def bccStateCode (st : BccState) : Nat := match st with | .disabled => 0 | .enabled => 1 | .draining => 2

/-- A range operation ends with a result: BCC_OPRES, line 416, and line 419 when lines were not locked. -/
def rangeResult (res nfail : Nat) (s : State) : State :=
  let s := s.modBcc fun b => { b with opDone := true, opRes := res, opNfail := nfail % 2 ^ 24 }
  let s := raiseLine 416 s
  if res = 2 then raiseLine 419 s else s

/-- GO of a range operation (R334): RES 4 while one runs, refused for the state, or running until RANGE_OP_DONE. -/
def rangeGo (op : Nat) (s : State) : State :=
  if s.bcc.op.isSome then rangeResult 4 0 s
  else if !(rangeAccepted op s.bcc.state) then
    rangeResult 1 0 (blockErrorP .bcc 0 0x0A33 op op (bccStateCode s.bcc.state) 0 s)
  else
    let first := fld .opaddr1 0 0 7 0 s * 2 ^ 25 + fld .opaddr0 0 0 31 7 s
    let n := zeroAsOne (fld .oplines 0 0 23 0 s)
    s.modBcc fun b => { b with opDone := false, op := some { op := op, first := first, lines := n, nfail := 0, firstFail := 0 } }

/-- The running range operation is carried out and completes (R334). -/
def rangeFinish (s : State) : State :=
  match s.bcc.op with
  | none => s
  | some r =>
    let s := s.modBcc fun b => { b with op := none }
    if r.op = 7 then
      rangeResult 0 0 (s.modBcc fun b => { b with lines := [], invd := true })
    else
      let all := (List.range r.lines).map (r.first + ·)
      let good := all.takeWhile fun l => inDdr (l * 128) s
      let (s, n, f) := rangeLines r.op (good.map fun l => l - ddrBase / 128) s
      let s := if n = 0 then s else s.modBcc fun b => { b with opFail := f + ddrBase / 128 }
      rangeResult (if good.length < all.length then 3 else if n = 0 then 0 else 2) n s

/-- A write of BCC_OPCMD. -/
def writeOpcmd (v : Nat) (s : State) : State :=
  let s := storeFields .opcmd 0 0 v s
  if v.testBit 31 then rangeGo (fld .opcmd 0 0 3 0 s) s else s

/-- A range operation by a write of BCC_OPCMD with GO. -/
def rangeCmd (op : Nat) (s : State) : State :=
  access .bcc 0 (Reg.addr .opcmd 0 0) (writeOpcmd (0x80000000 + op)) s

/-! ### Initialisation (R98, R107) -/

/-- A STRONG or MEDIUM MiB. -/
def initMib (mib : Nat) (s : State) : Bool := codeOf (mib * 2 ^ 20) s < 2

/-- STRONG and MEDIUM MiB below a MiB. -/
def initRank (mib : Nat) (s : State) : Nat := ((List.range mib).filter fun i => initMib i s).length

/-- A DDR5 offset lies in a STRONG or MEDIUM region above the progress mark. -/
def aboveMark (off : Nat) (s : State) : Bool :=
  initMib (off / 2 ^ 20) s && s.dmc.mib ≤ initRank (off / 2 ^ 20) s

/-- The mark moves to n STRONG and MEDIUM MiB: those from the mark on hold zeroes, with valid check bits. -/
def zeroMibs (n : Nat) (s : State) : State :=
  let z := fun off => initMib (off / 2 ^ 20) s && s.dmc.mib ≤ initRank (off / 2 ^ 20) s && initRank (off / 2 ^ 20) s < n
  { s with
    mem := s.mem.filter fun (a, _) => !(inDdr a s && z (a - ddrBase))
    dmc := { s.dmc with
      mib := min 0x7FFF n, poison := s.dmc.poison.filter fun p => !(z p), rawChk := s.dmc.rawChk.filter fun (l, _) => !(z (l * 128)) } }

/-- An access to DDR5 by a master through BCC. The answer is in `busData`, and a poisoned read in `busErr`. -/
def ddrAccess (m : Master) (a n : Nat) (wr : Option Nat) (err : DdrErr) (s : State) : State :=
  match wr with
  | some v => { bccWrite m (a - ddrBase) n v s with busData := 0, busErr := false }
  | none =>
    let (s, d, p) := bccRead m (a - ddrBase) n err s
    { s with busData := if p then 0 else d, busErr := p }

/-! ### Meanings -/

/-- A write of 1 to DMC_INIT.GO (R98). -/
def dmcInitGo (s : State) : State :=
  if s.dmc.initDone then blockErrorP .dmc 0 0x0A04 0 0 0 0 s
  else if s.dmc.initBusy || s.clk.xo40failed then s
  else { s with dmc := { s.dmc with initBusy := true, initFail := false, mib := 0 } }

def execDmcInitGo (_m : Master) (s : State) : Out := .next <| access .dmc 0 (Reg.addr .dmcInit 0 0) dmcInitGo s

/-- The lines of a region in BCC are cleaned and invalidated and lose their locks (R319). -/
def flushRegion (k : Nat) (s : State) : State :=
  let mine := s.bcc.lines.filter fun l => regionOf (l.line * 128) s == some k
  let s := mine.foldl (fun s c => bccDrop c (writeBack c s)) s
  let n := lockCount mine
  if n = 0 then s else ev .bcc 0x0A31 0xFF n 0 s

/-- A write of REGATTRk (R319): a change of the layout is refused once DMC_INIT has begun; a new policy first cleans
and invalidates the region. -/
def writeRegattr (w1 : Bool) (k v : Nat) (s : State) : State :=
  let r := if w1 then Reg.regattr1 else Reg.regattr0
  let old := reg r 0 k s
  let layout := if w1 then 0x3FFF else 0xE0003FFF
  if windowOpen .dmc 0 s && (s.dmc.initBusy || s.dmc.initDone) && (v ^^^ old) &&& layout != 0 then
    blockErrorP .dmc 0 0x0A03 k (r.addr 0 k % 0x1000) v 0 s
  else
    let s := if !w1 && bits v 28 27 != bits old 28 27 && windowOpen .dmc 0 s then flushRegion k s else s
    storeFields r 0 k v s

def execRegattrPolicyWrite (_m : Master) (k : Fin 16) (v : Word) (s : State) : Out :=
  .next <| access .dmc 0 (Reg.addr .regattr0 0 k) (writeRegattr false k v.toNat) s

/-- A write of DMC_CFG (R316): more than 16 GiB is refused. -/
def writeDmcCfg (v : Nat) (s : State) : State :=
  if windowOpen .dmc 0 s && bits v 1 0 == 2 && bits v 2 2 == 1 then blockErrorP .dmc 0 0x0A03 0x44 0x44 v 0 s else storeFields .dmcCfg 0 0 v s

/-- The check bytes that lie with a line. -/
def lineCheck (line : Nat) (s : State) : Nat :=
  match s.dmc.rawChk.find? (fun (l, _) => l == line) with
  | some (_, c) => c
  | none => goodCheck line s ^^^ poisonMask line s

/-- Words j = 0.. of a register array as one number. -/
def regWords (r : Reg) (count : Nat) (s : State) : Nat :=
  (List.range count).foldl (fun a j => a + reg r 0 j s <<< (32 * j)) 0

/-- A number into the words of a register array. -/
def setRegWords (r : Reg) (count v : Nat) (s : State) : State :=
  (List.range count).foldl (fun s j => setReg r 0 j ((v >>> (32 * j)) % 2 ^ 32) s) s

/-- GO of a split test (R323), raw write or raw read as WR holds: BCC cleans and invalidates the line first. -/
def splitGo (v : Nat) (s : State) : State :=
  let s := storeFields .splitctl 0 0 v s
  let line := fld .splitaddr 0 0 26 0 s
  let s := invalLine true line s
  let s :=
    if fld .splitctl 0 0 30 30 s = 1 then
      let s := memWrite (ddrBase + line * 128) 128 (regWords .splitdata 32 s) s
      { s with dmc := { s.dmc with
          rawChk := (line, regWords .splitchk 8 s) :: s.dmc.rawChk.filter fun (l, _) => l != line } }
    else setRegWords .splitchk 8 (lineCheck line s) (setRegWords .splitdata 32 (ddrLine line s) s)
  raiseLine 412 { s with dmc := { s.dmc with splitDone := true } }

def execSplitRead (_m : Master) (s : State) : Out :=
  .next <| access .dmc 0 (Reg.addr .splitctl 0 0) (splitGo 0x80000000) s

def execSplitWrite (_m : Master) (s : State) : Out :=
  .next <| access .dmc 0 (Reg.addr .splitctl 0 0) (splitGo 0xC0000000) s

/-- A line takes part in the patrol scrub (R324). -/
def scrubbed (line : Nat) (s : State) : Bool :=
  let off := line * 128
  codeOf off s < 2 && match regionOf off s with
    | some k => fld .regattr1 0 k 31 31 s == 0
    | none => true

/-- The next scrubbed line at or after a position, region by region: the search moves by whole MiB, since attributes
are those of a MiB. -/
def nextScrub (line : Nat) (s : State) : Option Nat :=
  if line < installedBytes s / 128 && scrubbed line s then some line
  else
    ((List.range (installedBytes s / 2 ^ 20)).find? fun i => line / 8192 < i && scrubbed (i * 8192) s).map (· * 8192)

/-- The end of a scrub pass: event 0x0A14, line 410, PASSES, and the position back at the lowest address (R324). -/
def scrubPassEnd (s : State) : State :=
  let p := min 0xFFFF (s.dmc.passes + 1)
  let s := raiseLine 410 (ev .dmc 0x0A14 p s.dmc.passCe s.dmc.passUe s)
  { s with dmc := { s.dmc with passes := p, passCe := 0, passUe := 0, scrubPos := 0 } }

/-- A scrub read of a line (R324): a corrected error is written back and logged; a failed read is counted and logged, and
the line stays as it is. -/
def scrubTake (err : DdrErr) (line : Nat) (s : State) : State :=
  let off := line * 128
  let s :=
    if halfPoisoned off s || halfPoisoned (off + 64) s then
      let s := rowLogRead off true 15 s
      { s with dmc := { s.dmc with passUe := s.dmc.passUe + 1 } }
    else
      match err with
      | .none => s
      | .correctable d =>
        let s := rowLogRead off false d s
        { s with dmc := { s.dmc with passCe := s.dmc.passCe + 1 } }
      | .uncorrectable d =>
        let s := rowLogRead off true d s
        { s with dmc := { s.dmc with passUe := s.dmc.passUe + 1 } }
  { s with dmc := { s.dmc with scrubPos := line + 1 } }

/-- The scrub of a line, where one is left in the pass. -/
def scrubLine (err : DdrErr) : Option Nat → State → State
  | none, s => scrubPassEnd s
  | some line, s => scrubTake err line s

/-- The pass ends when no line is left after the one just read. -/
def scrubEnd : Option Nat → State → State
  | none, s => scrubPassEnd s
  | some _, s => s

/-- One scrub read (R324): the line where the pass stands, and the end of the pass with its last line. The scrub pauses in
self-refresh and while a repair runs. -/
def execScrubRead (err : DdrErr) (s : State) : Out :=
  .next <|
    if fld .dmcScrub 0 0 31 31 s = 1 && !s.pwr.selfRefresh && s.dmc.ppr.isNone && pdOn 12 s
        && !(hdrOf .dmc 0 s).freeze then
      let line := nextScrub s.dmc.scrubPos s
      let u := scrubLine err line s
      if line.isNone then u else scrubEnd (nextScrub (u.dmc.scrubPos) u) u
    else s

/-- A repair ends: DMC_PPRRES, line 411 and its event (R326, R327). -/
def pprResult (res : Nat) (p : PprReq) (s : State) : State :=
  let s := { s with dmc := { s.dmc with pprDone := true, pprRes := res, ppr := none } }
  let place := p.rank * 2 ^ 6 + p.subch * 2 ^ 5 + p.bg * 4 + p.ba
  raiseLine 411 <|
    if res = 0 then ev .dmc 0x0A20 p.row (if p.hard then 1 else 0) place s else ev .dmc 0x0A21 p.row res 0 s

/-- GO of DMC_PPR0 (R326, R327): RES 3 while a repair runs, RES 2 for a hard repair while READY. -/
def pprGo (v : Nat) (s : State) : State :=
  let s := storeFields .ppr0 0 0 v s
  let w := reg .ppr0 0 0 s
  let p : PprReq := { hard := bits w 30 30 == 1, rank := bits w 29 29, subch := bits w 28 28, bg := bits w 27 25
                      ba := bits w 24 23, row := bits w 15 0 }
  match s.dmc.ppr with
  | some q =>
    let s := pprResult 3 p s
    { s with dmc := { s.dmc with ppr := some q } }
  | none =>
    if p.hard && s.sys.ready then pprResult 2 p s
    else { s with dmc := { s.dmc with pprDone := false, ppr := some p } }

def execSoftPpr (_m : Master) (v : Word) (s : State) : Out :=
  .next <| access .dmc 0 (Reg.addr .ppr0 0 0)
    (pprGo (v.toNat &&& 0x3FFFFFFF ||| 0x80000000)) s

def execHardPpr (_m : Master) (v : Word) (s : State) : Out :=
  .next <| access .dmc 0 (Reg.addr .ppr0 0 0)
    (pprGo (v.toNat &&& 0x3FFFFFFF ||| 0xC0000000)) s

/-- The DDR5 offsets of a row's bytes on a subchannel (R317). -/
def rowOffsets (p : PprReq) (s : State) : List Nat :=
  let bw := if fld .dmcCfg 0 0 2 2 s = 1 then 2 else 1
  let rw := if fld .dmcCfg 0 0 1 0 s = 2 then 1 else 0
  let base := p.row <<< (16 + bw + rw) + (p.rank % 2 ^ rw) <<< (16 + bw) + (p.ba % 2 ^ bw) <<< 16 + p.bg <<< 7 + p.subch <<< 6
  (List.range 64).flatMap fun col => (List.range 64).map fun i => base + col <<< 10 + i

/-- A row whose content is not kept: every byte takes a free value (R327). -/
def scrambleRow (p : PprReq) (s : State) : State :=
  (rowOffsets p s).foldl (fun s off =>
    unpoison off 1 (setMemByte (ddrBase + off) (BitVec.ofNat 8 (draw 256 s)) s).drawn) s

/-- The running repair finishes with a result (R326, R327): a soft repair keeps the row's content, a hard one does
not. -/
def execPprDone (res : Fin 5) (s : State) : Out :=
  .next <| if (hdrOf .dmc 0 s).freeze then s else match s.dmc.ppr with
    | none => s
    | some p =>
      let s := if p.hard && res == 0 then scrambleRow p s else s
      pprResult res p s

/-- A write of DMC_ROWCLR (R325): each 1 clears the entry of its number. -/
def rowClear (v : Nat) (s : State) : State :=
  { s with dmc := { s.dmc with rowLog := s.dmc.rowLog.filter fun e => !(v.testBit e.i) } }

def execRowLogClear (_m : Master) (v : Word) (s : State) : Out :=
  .next <| access .dmc 0 (Reg.addr .rowclr 0 0) (rowClear v.toNat) s

def execCeWindowExpiry (s : State) : Out :=
  .next (s.modBcc fun b => { b with wayCe := Vector.replicate 16 0 })

/-- Setting BCC_CTL.EN (R331). -/
def bccSetEn (s : State) : State :=
  if s.bcc.state == .disabled && s.bcc.invd then
    (s.modBcc fun b => { b with state := .enabled }).modHdr (Blk.hdr .bcc 0) fun h => { h with en := true }
  else if s.bcc.state == .enabled then s
  else
    blockErrorP .bcc 0 0x0A32 (bccStateCode s.bcc.state) (bccStateCode s.bcc.state) (if s.bcc.invd then 1 else 0) 0 s

/-- Clearing BCC_CTL.EN (R331). -/
def bccClearEn (s : State) : State :=
  if s.bcc.state == .enabled then
    if s.rvr.commit then blockErrorP .bcc 0 0x0A36 0 0 0 0 s
    else
      (s.modBcc fun b => { b with state := .draining, invd := false, drainSet := 0, drained := 0 }).modHdr
        (Blk.hdr .bcc 0) fun h => { h with en := false }
  else s

def execBccEnable (_m : Master) (s : State) : Out :=
  .next <| access .bcc 0 (Blk.base .bcc 0 + 8) bccSetEn s

def execBccDisable (_m : Master) (s : State) : Out :=
  .next <| access .bcc 0 (Blk.base .bcc 0 + 8) bccClearEn s

/-- The drain walker has passed the last set (R332). -/
def execDrainComplete (s : State) : Out :=
  .next <|
    if s.bcc.state == .draining && !(hdrOf .bcc 0 s).freeze then
      let dirty := s.bcc.lines.filter (·.dirty)
      let s := dirty.foldl (fun s c => bccPut { c with dirty := false } (writeBack c s)) s
      let n := s.bcc.drained + dirty.length
      let s := s.modBcc fun b => { b with state := .disabled, drained := n, drainSet := 0 }
      raiseLine 417 (ev .bcc 0x0A35 n (draw (2 ^ 32) s) 0 s.drawn)
    else s

def execBccClean (_m : Master) (s : State) : Out := .next (rangeCmd 1 s)
def execBccInval (_m : Master) (s : State) : Out := .next (rangeCmd 2 s)
def execBccCleanInval (_m : Master) (s : State) : Out := .next (rangeCmd 3 s)
def execBccZero (_m : Master) (s : State) : Out := .next (rangeCmd 4 s)
def execBccLock (_m : Master) (s : State) : Out := .next (rangeCmd 5 s)
def execBccUnlock (_m : Master) (s : State) : Out := .next (rangeCmd 6 s)
def execBccInvalAll (_m : Master) (s : State) : Out := .next (rangeCmd 7 s)
def execRangeOpDone (s : State) : Out := .next (if (hdrOf .bcc 0 s).freeze then s else rangeFinish s)

end Sys2Proof.Machine
end

