-- ==== Sys2Proof/Machine/Cores.lean ====
section
/-!
DEFINITION. The common page header (R33-R37), the interrupt router (R12, R38-R40), the A-core L1 data caches (R11) and
the T-core windows (R42).
-/

set_option Elab.async false

namespace Sys2Proof.Machine

open Sys2Proof

/-- The block and instance of a header source (R30). -/
def hdrBlk (h : Nat) : Blk × Nat :=
  match Blk.all.find? (fun b => b.row.hdr ≤ h && h < b.row.hdr + b.row.insts) with
  | some b => (b, h - b.row.hdr)
  | none => (.sys, 0)

/-- A write to a register of a block's header. -/
def hdrAccess (h off : Nat) (k : Blk → Nat → State → State) (s : State) : State :=
  let (b, n) := hdrBlk h
  access b n (b.base n + off) (k b n) s

/-! ### Guard window (R36, R37) -/

/-- A write of a word to GUARD; it consumes no access of the window. -/
def guardWrite (b : Blk) (n v : Nat) (s : State) : State :=
  let hd := hdrOf b n s
  if hd.locked then blockError b n 0x0006 v s
  else if v % 2 ^ 16 = 0x6B00 + b.row.type_ then s.modHdr (b.hdr n) fun h => { h with remain := 256, wrongWords := 0 }
  else
    let s := s.modHdr (b.hdr n) fun h => { h with remain := 0, wrongWords := h.wrongWords + 1 }
    let s := blockError b n 0x0004 v s
    if 8 ≤ hd.wrongWords + 1 then
      ev b 0x0B02 b.row.type_ 0 0 (s.modHdr (b.hdr n) fun h => { h with locked := true })
    else s

def execGuardWordWrite (_m : Master) (h : Fin 77) (v : Word) (s : State) : Out :=
  .next <|
    let (b, n) := hdrBlk h
    if pdOn 2 s then
      if pageOn b n s then guardWrite b n v.toNat s else blockError .sys 0 0x0E20 (b.base n + 0x2C) s
    else s

/-- The access that takes REMAIN from 1 to 0 closes the window (R36). -/
def execGuardWindowExhausted (h : Fin 77) (s : State) : Out :=
  .next <| s.modHdr h fun x => if x.remain = 1 then { x with remain := 0 } else x

/-! ### Freeze, errors, test interrupts (R33, R35, R38) -/

/-- A write of CTL.FREEZE (R35); the Lamplighter, let go, gives the answers it owes and walks its queue (R84, R85). -/
def freezeWrite (b : Blk) (n : Nat) (on : Bool) (s : State) : State :=
  if on && s.sys.debugLevel = 0 then blockError b n 0x0005 0 (s.modHdr (b.hdr n) fun h => { h with freeze := false })
  else
    let was := (hdrOf b n s).freeze
    let s := s.modHdr (b.hdr n) fun h => { h with freeze := on }
    if b = .llt && was && !on then lltRelease s else s

def execFreeze (_m : Master) (h : Fin 77) (on : Bool) (s : State) : Out :=
  .next <| hdrAccess h 8 (fun b n => freezeWrite b n on) s

/-- Writing 1 to IRQ_STAT.ERR (R33). -/
def errClear (b : Blk) (n : Nat) (s : State) : State :=
  s.modHdr (b.hdr n) fun h =>
    { h with errCode := 0, errInfo := 0, err := false, irqStat := h.irqStat &&& 0xFFFFFFFE }

def execErrClear (_m : Master) (h : Fin 77) (s : State) : Out :=
  .next <| hdrAccess h 0x10 errClear s

/-- A write to IRQ_SET (R38). -/
def irqSet (b : Blk) (n : Nat) (v : Word) (s : State) : State :=
  s.modHdr (b.hdr n) fun h => { h with irqStat := h.irqStat ||| v }

def execIrqSetWrite (_m : Master) (h : Fin 77) (v : Word) (s : State) : Out :=
  .next <| hdrAccess h 0x18 (fun b n => irqSet b n v) s

/-! ### A-core L1 data caches (R11) -/

/-- The A-core masters. -/
def acore (c : Fin 4) : Master := .core (.a c)

/-- A 64-byte line as it lies behind the L1 caches: DDR5 through BCC, else memory. -/
def backLine (m : Master) (line : Nat) (err : DdrErr) (s : State) : State × Nat × Bool :=
  if inDdr (line * 64) s then bccRead m (line * 64 - ddrBase) 64 err s
  else (s, memRead (line * 64) 64 s, false)

/-- n bytes written behind the L1 caches. -/
def backWrite (m : Master) (a n v : Nat) (s : State) : State :=
  if inDdr a s then bccWrite m (a - ddrBase) n v s else memWrite a n v s

/-- One L1 line of a core taken out of its cache. -/
def l1Remove (c : Fin 4) (line : Nat) (s : State) : State :=
  { s with l1 := s.l1.filter fun l => !(l.core == c && l.line == line) }

/-- The copy of a line in one core's cache. -/
def l1Own (c : Fin 4) (line : Nat) (s : State) : Option L1Line := s.l1.find? fun l => l.core == c && l.line == line

/-- One line cleaned: dirty data written back, the line kept. -/
def l1CleanLine (c : Fin 4) (line : Nat) (s : State) : State :=
  match l1Own c line s with
  | some l =>
    if l.dirty then
      let s := backWrite (acore c) (line * 64) 64 l.data s
      { s with l1 := mapIf (fun x => x.core == c && x.line == line) (fun x => { x with dirty := false }) s.l1 }
    else s
  | none => s

/-- The whole L1 data cache of a core cleaned and invalidated. -/
def l1CleanAll (c : Fin 4) (s : State) : State :=
  let mine := (s.l1.filter fun l => l.core == c).map (·.line)
  let s := mine.foldl (fun s l => l1CleanLine c l s) s
  { s with l1 := s.l1.filter fun l => l.core != c }

/-- Core c is powered. -/
def acoreOn (c : Fin 4) (s : State) : Bool := pdOn (3 + c) s

/-- The write of UCACHECTL that carries ALLCLN also writes DEN and IEN; it retires when the operation is complete. -/
def execAllcln (c : Fin 4) (den ien : Bool) (s : State) : Out :=
  .next <|
    if acoreOn c s then
      (l1CleanAll c s).modSys fun y => { y with ucache := y.ucache.set c (ien, den) }
    else s

def execL1Clean (c : Fin 4) (line : BitVec 34) (s : State) : Out :=
  .next <| if acoreOn c s then l1CleanLine c line.toNat s else s

def execL1Invalidate (c : Fin 4) (line : BitVec 34) (s : State) : Out :=
  .next <| if acoreOn c s then l1Remove c line.toNat s else s

def execL1CleanAndInvalidate (c : Fin 4) (line : BitVec 34) (s : State) : Out :=
  .next <| if acoreOn c s then l1Remove c line.toNat (l1CleanLine c line.toNat s) else s

def execL1NoOperation (_c : Fin 4) (_line : BitVec 34) (s : State) : Out := .next s

/-- A line brought into a core's L1 cache, from another core's copy or from behind the caches. -/
def l1Fill (c : Fin 4) (line : Nat) (err : DdrErr) (s : State) : State × Bool :=
  match l1Own c line s with
  | some _ => (s, false)
  | none =>
    match l1Find line s with
    | some l => ({ s with l1 := { core := c, line := line, dirty := false, data := l.data } :: s.l1 }, false)
    | none =>
      let (s, d, p) := backLine (acore c) line err s
      if p then (s, true) else ({ s with l1 := { core := c, line := line, dirty := false, data := d } :: s.l1 }, false)

/-- A load of n bytes within a line by an A-core. -/
def acoreLoad (c : Fin 4) (a n : Nat) (err : DdrErr) (s : State) : State :=
  if s.sys.ucache[c].2 then
    let (s, p) := l1Fill c (a / 64) err s
    if p then { s with busData := 0, busErr := true } else { s with busData := cohRead a n s, busErr := false }
  else if (l1Find (a / 64) s).isSome then { s with busData := cohRead a n s, busErr := false }
  else if inDdr a s then ddrAccess (acore c) a n none err s
  else { s with busData := memRead a n s, busErr := false }

/-- A store of n bytes within a line by an A-core: with DEN the line becomes its own and dirty. -/
def acoreStore (c : Fin 4) (a n v : Nat) (s : State) : State :=
  let i := a % 64
  if s.sys.ucache[c].2 then
    let (s, p) := l1Fill c (a / 64) .none s
    if p then { s with busData := 0, busErr := true }
    else
      let d := match l1Find (a / 64) s with | some l => l.data | none => 0
      let l1 := s.l1.filter fun l => l.line != a / 64
      { s with
        l1 := { core := c, line := a / 64, dirty := true, data := lineSet d i n v } :: l1
        busData := 0, busErr := false }
  else
    let s := { s with l1 := mapIf (fun l => l.line == a / 64) (fun l => { l with data := lineSet l.data i n v }) s.l1 }
    if inDdr a s then ddrAccess (acore c) a n (some v) .none s
    else { memWrite a n v s with busData := 0, busErr := false }

/-- The copies of a line that the security core's write invalidates (R11). -/
def l1DropAll (line : Nat) (s : State) : State := { s with l1 := s.l1.filter fun l => l.line != line }

/-- An access of a master to system SRAM, wick SRAM or DDR5, within a 64-byte line (R11, R28, R329); `err` is the verdict
of the region's code on a read of DDR5. -/
def memTake (m : Master) (a n : Nat) (wr : Option Nat) (err : DdrErr) (s : State) : State :=
  match m, wr with
  | .core (.a c), none => acoreLoad c a n err s
  | .core (.a c), some v => acoreStore c a n v s
  | .core .sec, none =>
    if inDdr a s then ddrAccess m a n none err s else { s with busData := memRead a n s, busErr := false }
  | .core .sec, some v =>
    let s := l1DropAll (a / 64) s
    if inDdr a s then ddrAccess m a n (some v) .none s else { memWrite a n v s with busData := 0, busErr := false }
  | _, none =>
    if (l1Find (a / 64) s).isSome then { s with busData := cohRead a n s, busErr := false }
    else if inDdr a s then ddrAccess m a n none err s
    else { s with busData := memRead a n s, busErr := false }
  | _, some v =>
    let s := { s with l1 := mapIf (fun l => l.line == a / 64)
                              (fun l => { l with data := lineSet l.data (a % 64) n v }) s.l1 }
    if inDdr a s then ddrAccess m a n (some v) .none s else { memWrite a n v s with busData := 0, busErr := false }

/-- An access that waits: to DDR5 above the mark while DMC_INIT runs (R98), or a miss of the caches while the DRAM is in
self-refresh (R339). -/
def accessWaits (a : Nat) (s : State) : Bool :=
  inDdr a s && ((s.dmc.initBusy && aboveMark (a - ddrBase) s) ||
    (s.pwr.selfRefresh && (l1Find (a / 64) s).isNone && (bccHit ((a - ddrBase) / 128) s).isNone))

/-- The same, or the access is held. -/
def memAccess (m : Master) (a n : Nat) (wr : Option Nat) (err : DdrErr) (s : State) : State :=
  if accessWaits a s then
    { s with dmc := { s.dmc with heldAcc := s.dmc.heldAcc ++ [(m, a, n, wr)] } }
  else memTake m a n wr err s

/-- Held accesses that wait no longer proceed in arrival order: a write is applied over the zeroed line, a read is
answered. -/
def releaseHeld (s : State) : State :=
  let go := s.dmc.heldAcc.filter fun (_, a, _, _) => !(accessWaits a s)
  let keep := s.dmc.heldAcc.filter fun (_, a, _, _) => accessWaits a s
  go.foldl (fun s (m, a, n, v) => memTake m a n v .none s) { s with dmc := { s.dmc with heldAcc := keep } }

/-- DRAM is out of self-refresh: the accesses that waited for it proceed (R339). -/
def refreshEnds (s : State) : State := releaseHeld (s.modPwr fun p => { p with selfRefresh := false })

/-- DMC_INIT ends: DONE with every region zeroed, or FAIL. On FAIL what the mark has not passed is not zeroed, and the
accesses held above it proceed (log 162). -/
def execDmcInitDone (fail : Bool) (s : State) : Out :=
  .next <| if s.dmc.initBusy && !(hdrOf .dmc 0 s).freeze then
    if fail then releaseHeld { s with dmc := { s.dmc with initBusy := false, initFail := true, mib := 0x7FFF } }
    else
      let s := zeroMibs (initRank (installedBytes s / 2 ^ 20) s) s
      let s := releaseHeld { s with dmc := { s.dmc with initBusy := false, initDone := true } }
      s.modSys fun y => { y with stage := max y.stage 5 }
  else s

def execDmcInitHeldAccess (mib : Nat) (s : State) : Out :=
  .next <| if s.dmc.initBusy && s.dmc.mib ≤ mib && !(hdrOf .dmc 0 s).freeze then releaseHeld (zeroMibs mib s) else s

/-- An access to a memory of a domain that is not on reads 0, ignores a write and is recorded in SYS (R69). -/
def memGated (a : Nat) (s : State) : State := { blockError .sys 0 0x0E20 (a % 2 ^ 32) s with busData := 0, busErr := false }

/-- An access to a DDR5 address: outside the installed memory a bus error (R28). -/
def ddrTake (m : Master) (a n : Nat) (wr : Option Nat) (err : DdrErr) (s : State) : State :=
  if !(inDdr a s) then { s with busData := 0, busErr := true }
  else if pdOn 12 s then memAccess m a n wr err s
  else memGated a s

def execDdrRead (m : Master) (a : BitVec 40) (err : DdrErr) (s : State) : Out :=
  .next <| ddrTake m (a.toNat / 8 * 8) 8 none err s

def execBccAccess (m : Master) (a : BitVec 40) (wr : Bool) (v : Word) (err : Option (Fin 16 × Bool)) (s : State) : Out :=
  .next <|
    let s := match err with
      | some (w, u) => if inDdr a.toNat s && pdOn 12 s then wayError w u ((a.toNat - ddrBase) / 128) s else s
      | none => s
    ddrTake m (a.toNat / 4 * 4) 4 (if wr then some v.toNat else none) .none s

/-! ### Memory as the engines of the blocks see it (R11, R28, R29, R69) -/

/-- The power domain of the memory that holds n bytes at an address; none where no memory does. -/
def memDom (a n : Nat) (s : State) : Option Nat :=
  if within a n 0x20000000 0x800000 then some 7
  else if within a n 0x60000000 0x280000 then some 0
  else if within a n ddrBase (installedBytes s) then some 12
  else none

/-- A transfer error of an engine in its own block (R28, R321): the manual gives no code and no information word. -/
def transferError (b : Blk) (i : Nat) (s : State) : State :=
  blockError b i (draw (2 ^ 16) s) (draw (2 ^ 32) s.drawn) s.drawn.drawn

/-- A byte that an engine reads: the A-core copy, the line in BCC or memory (R11, R330); 0 where no memory answers. -/
def engByte (a : Nat) (s : State) : Byte :=
  match memDom a 1 s with
  | none => 0
  | some d =>
    if !(pdOn d s) then 0
    else if (l1Find (a / 64) s).isNone && d = 12 && !(bccPass s) then
      match bccHit ((a - ddrBase) / 128) s with
      | some c => BitVec.ofNat 8 (lineBytes c.data ((a - ddrBase) % 128) 1)
      | none => memByte a s
    else cohByte a s

/-- n bytes that an engine reads. -/
def engRead (a n : Nat) (s : State) : Nat := fromBytes ((List.range n).map fun i => engByte (a + i) s)

/-- A memory access that leaves the answer to the last master on the bus as it was. -/
def quietAccess (m : Master) (a n : Nat) (wr : Option Nat) (s : State) : State :=
  { memAccess m a n wr .none s with busData := s.busData, busErr := s.busErr }

/-- A memory access ends as a bus error for its master. -/
def accessFails (m : Master) (a n : Nat) (wr : Option Nat) (s : State) : Bool := (memAccess m a n wr .none s).busErr

/-- One transfer of an engine, within a 64-byte line: outside the memories, and for a poisoned read, a transfer error in
its own block; in the security ROM also event 0x0B01; with the memory's domain off 0x0E20. No other master's answer
changes. -/
def engPiece (b : Blk) (i a n : Nat) (wr : Option Nat) (s : State) : State :=
  match memDom a n s with
  | none =>
    transferError b i (if a < 0x40000 then ev .sys 0x0B01 (masterId (.dma b.row.type_)) 0 0 s else s)
  | some d =>
    if !(pdOn d s) then blockError .sys 0 0x0E20 (a % 2 ^ 32) s
    else
      let u := quietAccess (.dma b.row.type_) a n wr s
      if accessFails (.dma b.row.type_) a n wr s && wr.isNone then transferError b i u else u

/-- A run of n bytes taken a 64-byte line at a time. -/
def linePieces (f : Nat → Nat → Option Nat → State → State) : Nat → Nat → Nat → Option Nat → State → State
  | 0, _, _, _, s => s
  | fuel + 1, a, n, wr, s =>
    if n = 0 then s
    else
      let k := min n (64 - a % 64)
      linePieces f fuel (a + k) (n - k) (wr.map fun v => v >>> (8 * k)) (f a k (wr.map fun v => v % 2 ^ (8 * k)) s)

/-- What an engine's read of n bytes does to the state; `engRead` gives the bytes. -/
def engLoad (b : Blk) (i a n : Nat) (s : State) : State := linePieces (engPiece b i) (n / 64 + 2) a n none s

/-- n bytes of a number that an engine of a block writes. -/
def engWrite (b : Blk) (i a n v : Nat) (s : State) : State := linePieces (engPiece b i) (n / 64 + 2) a n (some v) s

/-- One write of the security core in the course of a mailbox command; it answers no other master, and outside the
memories nothing is written. -/
def secPiece (a n : Nat) (wr : Option Nat) (s : State) : State :=
  match memDom a n s with
  | none => s
  | some d =>
    if pdOn d s then quietAccess (.core .sec) a n wr s else s

/-- n bytes that the security core writes (R11). -/
def secWrite (a n v : Nat) (s : State) : State := linePieces secPiece (n / 64 + 2) a n (some v) s

/-! ### Interrupt router (R12, R38-R40) -/

/-- The bit of a core in a route register. -/
def routeBit (c : Core) : Nat := match c with | .a n => 8 + n.val | .t n => 12 + n.val | .sec => 16

/-- The place of a core in the order of R39. -/
def coreIdx (c : Core) : Fin 9 := match c with
  | .a n => ⟨n.val, by omega⟩ | .t n => ⟨4 + n.val, by omega⟩ | .sec => 8

/-- A source is pending: a header source by IRQ_STAT and IRQ_EN, a line by its event (R38). -/
def srcPending (k : Nat) (s : State) : Bool :=
  if k < 77 then
    let h := vget s.hdr k {}
    h.irqStat &&& h.irqEn != 0
  else s.irq.pending.contains k

/-- A source is in service on some core. -/
def inService (k : Nat) (s : State) : Bool := s.irq.inService.any fun x => x.1 == k

/-- The priority with which a pending source is presented to a core; none when it is not presented (R12, R39). -/
def presented (c : Core) (k : Nat) (s : State) : Option Nat :=
  let r := reg .irqRoute 0 k s
  let p := bits r 3 0
  if r.testBit (routeBit c) && vget s.irq.thr (coreIdx c) 0 < p && srcPending k s && !(inService k s) then some p
  else none

/-- The source that UIRQID shows: the highest priority, the lowest number among equals (R39). -/
def uirqid (c : Core) (s : State) : Option Nat :=
  ((List.range 512).foldl (fun (m : Option (Nat × Nat)) k =>
    match presented c k s, m with
    | none, m => m
    | some p, none => some (k, p)
    | some p, some (x, q) => if q < p then some (k, p) else some (x, q)) none).map (·.1)

/-- A core takes an interrupt (R12): the source goes into service on it. -/
def irqTake (c : Core) (s : State) : State :=
  match uirqid c s with
  | none => { s with irq := { s.irq with lastId := some (c, false, 0) }, busData := 0 }
  | some k =>
    { s with
      irq := { s.irq with
        lastId := some (c, true, k), inService := s.irq.inService ++ [(k, c)], pending := removeNat k s.irq.pending }
      busData := 2 ^ 31 + k }

def execIrqTake (c : Core) (s : State) : Out := .next <| if pdOn 2 s then irqTake c s else s

/-- A write of UIRQDONE ends the service of a source on that core, and is ignored otherwise (R12). -/
def execUirqdone (c : Core) (src : Fin 512) (s : State) : Out :=
  .next { s with irq := { s.irq with inService := s.irq.inService.filter fun x => !(x.1 == src.val && x.2 == c) } }

/-- A write to a route register (R40). -/
def routeWrite (m : Master) (k v : Nat) (s : State) : State :=
  let off := Reg.addr .irqRoute 0 k % 0x1000
  if m = .core .sec then storeFields .irqRoute 0 k v s
  else if 41 ≤ k ∧ k ≤ 75 then blockError .irq 0 0x0002 off s
  else
    let held := fld .irqRoute 0 k 16 16 s
    let s := storeFields .irqRoute 0 k (v &&& (2 ^ 32 - 1 - 2 ^ 16) ||| held <<< 16) s
    if bits v 16 16 = held then s else blockError .irq 0 0x0002 off s

def execIrqRouteWrite (m : Master) (k : Fin 512) (v : Word) (s : State) : Out :=
  .next <| access .irq 0 (Reg.addr .irqRoute 0 k) (routeWrite m k v.toNat) s

/-- A write to IRQ_SWSET (02): a source number 448-479 becomes pending. -/
def swset (v : Nat) (s : State) : State := if 448 ≤ v ∧ v ≤ 479 then raiseLine v s else s

def execIrqSwset (_m : Master) (v : Word) (s : State) : Out :=
  .next <| access .irq 0 (Reg.addr .irqSwset 0 0) (swset v.toNat) s

/-! ### T-core windows (R42) -/

/-- T-core n exists on this variant (R4). -/
def tcoreExists (n : Fin 4) (s : State) : Bool := s.sys.variant == .q || n.val < 2

/-- An access to CPX_TWIN_DATAn. -/
def twinAccess (n : Fin 4) (wr : Bool) (v : Nat) (s : State) : State :=
  let w := fld .twinAddr 0 n 16 2 s
  let a := n.val * 131072 + w * 4
  let step := fun s => if fld .twinAddr 0 n 31 31 s = 1 then setFld .twinAddr 0 n 16 2 ((w + 1) % 2 ^ 15) s else s
  if !(tcoreExists n s && pdOn (14 + n) s) then { blockError .sys 0 0x0E20 (Reg.addr .twinData 0 n) s with busData := 0 }
  else if wr then
    step { s with
      tcm := (toBytes 4 v).zipIdx.foldl (fun l (b, i) => sput (0 : Byte) (a + i) b l) s.tcm, busData := 0 }
  else step { s with busData := fromBytes ((List.range 4).map fun i => sget (0 : Byte) (a + i) s.tcm) }

def execTwinDataAccess (_m : Master) (n : Fin 4) (wr : Bool) (v : Word) (s : State) : Out :=
  .next <| access .cpx 0 (Reg.addr .twinData 0 n) (twinAccess n wr v.toNat) s

end Sys2Proof.Machine
end

