-- ==== Sys2Proof/Machine/Layout.lean ====
section
/-!
DEFINITION. How the structures of ordering and translation lie in bytes (R6, R148, R155, 07_ordering_and_coherence.md):
Extent Map entries, media-cache runs, zone table entries, Ledger entries, journal records and the parts of a commit
image, each as one little-endian number. Where in DDR5 the tables stand the manual does not say (log 171).
-/

set_option Elab.async false

namespace Sys2Proof.Machine

open Sys2Proof

/-! ### CRC-32C -/

/-- n steps of the CRC over the low bits of v, least significant bit first (Castagnoli polynomial, reflected). -/
def crcSteps : Nat → Nat → Nat → Nat
  | 0, _, c => c
  | n + 1, v, c => crcSteps n (v / 2) (c / 2 ^^^ (if (c + v) % 2 = 1 then 0x82F63B78 else 0))

/-- CRC-32C over the first n bytes of a little-endian number. -/
def crc32c (n v : Nat) : Nat := crcSteps (8 * n) v 0xFFFFFFFF ^^^ 0xFFFFFFFF

/-- Fields (width in bytes, value) laid out one after the other. -/
def packed : List (Nat × Nat) → Nat
  | [] => 0
  | (w, v) :: t => v % 256 ^ w + 256 ^ w * packed t

/-! ### The payload of a magnetic sector (R221) -/

/-- n steps of the CRC over the bits of a byte list, most significant bit of each byte first (ECMA-182). -/
def crc64Byte : Nat → Nat → Nat → Nat
  | 0, _, c => c
  | n + 1, b, c =>
    crc64Byte n b (if (c.testBit 63) != b.testBit n then (2 * c % 2 ^ 64) ^^^ 0x42F0E1EBA9EA3693 else 2 * c % 2 ^ 64)

/-- CRC-64 of ECMA-182 over the first n bytes of a little-endian number, from c on: initial value 0, no final inversion. -/
def crc64 : Nat → Nat → Nat → Nat
  | 0, _, c => c
  | n + 1, v, c => crc64 n (v / 256) (crc64Byte 8 (v % 256) c)

/-- What a payload holds. -/
structure Payload where
  data  : Nat
  md    : Nat
  lba   : Nat
  ns    : Nat
  enc   : Bool
  ord   : Nat
  kslot : Nat
  epoch : Nat

/-- The 4,216 bytes of a payload (table Magnetic sector payload); the CRC covers bytes 0-4,175 and the zeros of bytes
4,184-4,215. -/
def sectorPayload (p : Payload) : Nat :=
  let head := packed [(4096, p.data), (64, p.md), (6, p.lba), (1, p.ns), (1, flag p.enc 0), (4, p.ord), (2, p.kslot % 2 ^ 11),
    (1, p.epoch), (1, 0)]
  packed [(4176, head), (8, crc64 32 0 (crc64 4176 head 0)), (32, 0)]

/-! ### The header of an optical frame (R309) -/

/-- What the write path fills a frame header with. -/
structure FrameHead where
  layer   : Nat
  frameNo : Nat
  ovw     : Bool
  track   : Nat
  aunit   : Nat
  ord     : Nat

/-- The 52 bytes before the CRC, and the 56 bytes (table Frame header). -/
def frameBody (h : FrameHead) : Nat :=
  packed [(1, 1), (1, h.layer % 4), (1, h.frameNo % 44), (1, flag h.ovw 0), (4, h.frameNo), (4, h.frameNo / 44), (3, h.track),
    (2, h.aunit % 2 ^ 9), (4, h.ord), (31, 0)]
def frameHeader (h : FrameHead) : Nat := packed [(52, frameBody h), (4, crc32c 52 (frameBody h))]

/-! ### Table entries -/

/-- A slot and its channel in 32 bits. -/
def locWord (ch sl : Nat) : Nat := ch % 4 * 2 ^ 30 + sl % 2 ^ 30
def locCh (w : Nat) : Nat := bits w 31 30
def locSl (w : Nat) : Nat := bits w 29 0

/-- An Extent Map entry (table Extent Map entry); `cached`: a run lies in the extent. -/
def extentWord (cached : Bool) (e : Extent) : Nat :=
  locWord e.ch e.sl + e.seq % 2 ^ 16 * 2 ^ 32 + e.ns % 64 * 2 ^ 54 + flag e.mig 60 + flag cached 61 + flag e.dealloc 62
    + flag e.v 63

/-- The entry that 64 bits spell for an extent. -/
def extentOf (idx w : Nat) : Extent :=
  { idx := idx, v := w.testBit 63, dealloc := w.testBit 62, mig := w.testBit 60, ns := bits w 59 54, seq := bits w 47 32
    ch := locCh w, sl := locSl w }

/-- A media-cache run (table Media-cache run). -/
def runWord (r : Run) : Nat :=
  packed [(5, r.slba % 2 ^ 36), (1, r.ns), (2, (r.nlb + 4095) % 4096 + flag r.zero 12 + flag r.unc 13),
    (4, if r.zero || r.unc then 0 else r.cidx % 2 ^ 24 + r.ch % 4 * 2 ^ 24), (4, r.stamp)]

/-- The run that 128 bits spell. -/
def runOf (w : Nat) : Run :=
  { slba := bits w 35 0, ns := bits w 47 40, nlb := bits w 59 48 + 1, zero := w.testBit 60, unc := w.testBit 61
    cidx := bits w 87 64, ch := bits w 89 88, stamp := bits w 127 96 }

def zsCode (z : ZState) : Nat :=
  match z with
  | .empty => 1 | .implicit => 2 | .explicit => 3 | .closed => 4 | .readOnly => 0xD | .full => 0xE | .offline => 0xF
def zsOf (c : Nat) : ZState :=
  match c with | 2 => .implicit | 3 => .explicit | 4 => .closed | 0xD => .readOnly | 0xE => .full | 0xF => .offline | _ => .empty

/-- A zone table entry (table Zone table entry). -/
def zoneWord (z : Zone) : Nat :=
  packed [(4, locWord z.ch z.sl), (3, z.dwp % 2 ^ 17), (1, zsCode z.st), (3, z.fwp % 2 ^ 17), (1, z.ns), (3, z.cap % 2 ^ 17),
    (1, flag z.mig 0)]

/-! ### The Ledger (R148) -/

def lkCode (k : LKind) : Nat :=
  match k with | .read => 1 | .write => 2 | .append => 3 | .zeroes => 4 | .uncorr => 5 | .reloc => 6 | .barrier => 7
def lstCode (x : LState) : Nat :=
  match x with | .pending => 1 | .buffered => 2 | .durable => 3 | .active => 4 | .dropped => 5

/-- The 32 bytes of a Ledger entry (table Ledger entry). -/
def entryWord (e : LEntry) : Nat :=
  e.ord + e.slba % 2 ^ 48 * 2 ^ 32 + e.nlb % 2 ^ 17 * 2 ^ 80 + (lkCode e.kind + lstCode e.state * 16) * 2 ^ 104
    + e.ns % 256 * 2 ^ 112 + e.dom % 256 * 2 ^ 120 + (e.tag % 2 ^ 12 + e.ctrl % 2 * 2 ^ 15) * 2 ^ 128
    + e.pins % 2 ^ 16 * 2 ^ 144 + e.buf % 2 ^ 40 * 2 ^ 160
    + (flag e.fua 0 + flag e.enc 1 + flag e.zoned 2 + flag e.captured 3) * 2 ^ 200 + e.kslot % 2 ^ 11 * 2 ^ 208

/-! ### Journal records (R155) -/

def jtCode (t : JType) : Nat :=
  match t with
  | .map => 0x01 | .cacheAdd => 0x02 | .cacheDel => 0x03 | .zone => 0x04 | .migIntent => 0x05 | .migCommit => 0x06
  | .migFree => 0x07 | .checkpoint => 0x08 | .sanStart => 0x0A | .sanBand => 0x0B | .sanDone => 0x0C | .format => 0x0D

/-- Widths in bytes of a record's body fields (table Journal record types). -/
def bodyWidths (t : JType) : List Nat :=
  match t with
  | .map => [4, 8, 8] | .cacheAdd => [16] | .cacheDel => [5, 1, 2, 4] | .zone => [4, 3, 1, 4] | .migIntent => [4, 1, 8, 4, 8]
  | .migCommit => [4, 1, 8] | .migFree => [4] | .checkpoint => [8, 8, 24] | .sanStart => [1, 1, 4, 8] | .sanBand => [4, 1]
  | .sanDone => [4] | .format => [1, 1, 1]

/-- The 60 bytes of a record before its CRC. -/
def recHead (r : JRec) : Nat :=
  packed ([(8, r.jseq), (4, r.ord), (1, jtCode r.typ), (1, r.dom), (1, r.ns), (1, flag r.last 0)] ++
    ((bodyWidths r.typ).zip r.body)) % 256 ^ 60

/-- A journal record (table Journal record). -/
def recBytes (r : JRec) : Nat := recHead r + crc32c 60 (recHead r) * 256 ^ 60

/-! ### The commit image (R161, R162) -/

/-- The START page as far as the manual gives it: generation, NDEV, JSEQ of the tail's first record, CRC-32C. The widths
of its first three fields are not stated (log 171). -/
def startHead (g : Gen) : Nat := packed [(4, g.gen), (4, g.ndev), (8, (g.tail.map (·.jseq)).headD 0)]
def startPage (g : Gen) : Nat := startHead g + crc32c 16 (startHead g) * 256 ^ 16

/-- A 32-byte descriptor of a write, with the image offset of its data. -/
def descHead (w : RWrite) (off : Nat) : Nat :=
  packed [(4, w.ord), (6, w.slba), (1, w.ns), (1, w.dom), (3, w.nlb), (1, lkCode w.kind), (2, w.kslot), (8, off), (2, 0)]
def descBytes (w : RWrite) (off : Nat) : Nat := descHead w off + crc32c 28 (descHead w off) * 256 ^ 28

/-- f_d of a generation. -/
def genFront (g : Gen) (d : Nat) : Nat := match g.front.find? (fun x => x.1 == d) with | some x => x.2 | none => g.frontAll

/-- The commit record (table Commit record); it is written twice, and on both devices when there are two. -/
def commitHead (g : Gen) : Nat :=
  packed ([(4, 0x52564331), (4, g.gen), (4, g.writes.length), (4, g.tail.length), (8, g.jseq)] ++
    (List.range 64).map (fun d => (4, genFront g d)) ++ [(8, g.encDoms.foldl (fun a d => a ||| 1 <<< d) 0)])
def commitRecord (g : Gen) : Nat := commitHead g + crc32c 508 (commitHead g) * 256 ^ 508

end Sys2Proof.Machine
end

