-- ==== Sys2Proof/Machine/Laser.lean ====
section
/-!
DEFINITION. PSI, the preamp serial interface, and LSR, the laser sequencer (12_spindle_braking_laser.md, R289-R299), up
to the fault requests they raise; and the removal of the write and laser gates (R19, R216, R217).
-/

set_option Elab.async false

namespace Sys2Proof.Machine

open Sys2Proof

/-- Channel n exists on this variant (R4). -/
def chanExists (n : Nat) (s : State) : Bool := n < 2 || (n < 4 && s.sys.variant == .q)

/-- The present channels. -/
def channels (s : State) : List (Fin 4) := (List.finRange 4).filter fun n => chanExists n.val s

/-- A channel number. -/
def finCh (n : Nat) : Fin 4 := Fin.ofNat 4 n

/-- SVE instance by number. -/
def finSve (n : Nat) : Fin 5 := Fin.ofNat 5 n

/-- Optical personality (R1). -/
def optical (s : State) : Bool := s.sys.pers == .optical

/-! ### PSI frames (R289-R291) -/

/-- The order of priority of a frame's class (R290). -/
def frameRank (f : Frame) : Nat :=
  match f.cls with | .laserOff => 0 | .level => 1 | .monitor => 2 | .unitgo => 3 | .firmware => 4

/-- The frame sent next: the highest class, the oldest of it; with the frames that stay queued. -/
def nextFrame (q : List Frame) : Option Frame × List Frame :=
  match (List.range 5).findSome? (fun r => q.find? fun f => frameRank f == r) with
  | some f => (some f, q.erase f)
  | none => (none, q)

/-- A frame queued on a port; an idle port sends it at once. -/
def psiQueue (n : Fin 4) (f : Frame) (s : State) : State :=
  s.modPsi n fun p => match p.cur with
    | none => { p with cur := some f }
    | some _ => { p with queue := p.queue ++ [f] }

/-- A write frame. -/
def wframe (cls : FrameClass) (use : FrameUse) (addr data : Nat) : Frame :=
  { cls := cls, use := use, write := true, addr := addr % 2 ^ 13, data := data % 2 ^ 16 }

/-- The preamp mode frame of a change of PREAMP_WR (R291). -/
def preampMode (n : Fin 4) (wr : Bool) (s : State) : State :=
  psiQueue n (wframe .level .mode (fld .wrmode 0 0 28 16 s)
    (if wr then fld .wrmode 0 0 15 8 s else fld .wrmode 0 0 7 0 s)) s

/-! ### Laser levels (R292, R293, R296-R298) -/

/-- DCADDR and BOOSTADDR. -/
def dcAddr (s : State) : Nat := fld .paddr0 0 0 28 16 s
def boostAddr (s : State) : Nat := fld .paddr0 0 0 12 0 s

/-- Where the power table entry of a head at an index stands. -/
def powAddr (head lpidx : Nat) (s : State) : Nat := fld .ptbase 0 0 31 4 s * 16 + 16 * (256 * head + lpidx)

/-- The power table entry of a head at an index (table Power table entry). -/
def readPow (head lpidx : Nat) (s : State) : PowEntry :=
  let a := powAddr head lpidx s
  { bias := engRead a 2 s, preheat := engRead (a + 2) 2 s, boost := engRead (a + 4) 2 s, monph := engRead (a + 6) 2 s
    monwr := engRead (a + 8) 2 s, win := engRead (a + 10) 1 s, valid := engRead (a + 11) 1 s % 2 == 1 }

/-- Where strategy entry k stands. -/
def stratAddr (k : Nat) (s : State) : Nat := fld .stbase 0 0 31 4 s * 16 + 16 * k

/-- A strategy entry is VALID (R298, R313). -/
def stratValid (k : Nat) (s : State) : Bool :=
  let a := stratAddr k s
  let b := fun i => engRead (a + i) 1 s
  let sg := fun i => let x := signed 8 (b i); -32 ≤ x && x ≤ 31
  engRead (a + 11) 1 s % 2 == 1 && 4 ≤ b 1 && 4 ≤ b 2 && 4 ≤ b 4 && b 2 ≤ 32 && b 5 ≤ 96 &&
    sg 0 && sg 3 && sg 6 && sg 7 && sg 8 && sg 9 && sg 10

/-- A strategy entry, in T/32 (table Strategy entry). -/
structure Strategy where
  tfp : Int
  wfp : Nat
  wmp : Nat
  tlp : Int
  wlp : Nat
  tcl : Nat
  c2  : Int
  c3  : Int
  c4  : Int
  d3  : Int
  d4  : Int

/-- Strategy entry k. -/
def strategyAt (k : Nat) (s : State) : Strategy :=
  let a := stratAddr k s
  let u := fun i => engRead (a + i) 1 s
  let i := fun j => signed 8 (u j)
  { tfp := i 0, wfp := u 1, wmp := u 2, tlp := i 3, wlp := u 4, tcl := u 5, c2 := i 6, c3 := i 7, c4 := i 8, d3 := i 9
    d4 := i 10 }

/-- The pulses (start, end) of a mark of L bits, in T/32 from the mark's start (R298). Where on their 1 T pitch the
multi-pulses stand the manual does not say: each follows its predecessor's start, the first pulse's, by 1 T (log 185). -/
def markPulses (z : Strategy) (l : Nat) : List (Int × Int) :=
  let first := z.tfp + (if l = 2 then z.c2 else if l = 3 then z.c3 else z.c4)
  let last := 32 * (l : Int) + z.tlp + (if l = 3 then z.d3 else z.d4)
  if l ≤ 2 then [(first, first + z.wfp)]
  else (first, first + z.wfp) ::
    (List.range (l - 3)).map (fun k => (first + 32 * ((k : Int) + 1), first + 32 * ((k : Int) + 1) + z.wmp)) ++
    [(last, last + z.wlp)]

/-- Pulses whose edges lie closer than 1/8 T are merged (R298). -/
def mergePulses : List (Int × Int) → List (Int × Int)
  | (a, b) :: t =>
    match mergePulses t with
    | (c, d) :: r => if c - b < 4 then (a, max b d) :: r else (a, b) :: (c, d) :: r
    | [] => [(a, b)]
  | [] => []

/-- LGn over a mark of L bits: its pulses, and the end of the cooling after the last (R298). -/
def shapedMark (z : Strategy) (l : Nat) : List (Int × Int) × Option Int :=
  let p := mergePulses (markPulses z l)
  (p, p.getLast?.map fun x => x.2 + z.tcl)

/-- The head whose laser channel n drives: the head of the ACTIVE task. -/
def laserHead (n : Fin 4) (s : State) : Nat := bits s.asq[n].atask[0].toNat 23 18

/-- A LASER leave for a head is granted and in force (R177, R292). -/
def laserLeave (head : Nat) (s : State) : Bool :=
  s.llt.tickets.any fun t => t.state == .granted && t.cls == 5 && t.inst == head

/-- The time above BIAS counted up to now (R296). -/
def countOnTime (n : Fin 4) (s : State) : State :=
  let l := s.lsr.ch[n]
  match l.since with
  | some t => { s with lsr := { s.lsr with onUs := sput 0 l.head (sget 0 l.head s.lsr.onUs + (s.us - t)) s.lsr.onUs } }
  | none => s

/-- The laser of a channel goes to BIAS: DC takes the entry's BIAS code. -/
def laserToBias (n : Fin 4) (s : State) : State :=
  let l := s.lsr.ch[n]
  let code := match l.entry with | some e => e.bias | none => 0
  let s := countOnTime n s
  let s := s.modLaser n fun l => { l with level := .bias, atPwr := false, preheatAck := none, since := none, bad := 0 }
  psiQueue n (wframe .level .dcBias (dcAddr s) code) s

/-- PREHEAT rises (R292): DC takes the PREHEAT code when a LASER leave for the head is in force and the entry is
VALID. -/
def preheatRise (n : Fin 4) (s : State) : State :=
  let l := s.lsr.ch[n]
  if l.fault || l.offHold then s
  else
    let h := laserHead n s
    let s := engLoad .lsr 0 (powAddr h l.lpidx s) 16 s
    let s := if optical s then engLoad .lsr 0 (stratAddr l.strat s) 16 s else s
    let e := readPow h l.lpidx s
    let s := s.modLaser n fun l => { l with head := h, entry := some e }
    if !(laserLeave h s) then ev .lsr 0x0803 n h 0 s
    else if !e.valid || (optical s && !(stratValid l.strat s)) then ev .lsr 0x0802 n h 0 s
    else
      let s := s.modLaser n fun l =>
        { l with level := .preheat, atPwr := false, preheatAck := none, bad := 0, since := some s.us }
      psiQueue n (wframe .level .dcPreheat (dcAddr s) e.preheat) s

/-- PREHEAT falls: the laser returns to BIAS. -/
def preheatFall (n : Fin 4) (s : State) : State := if s.lsr.ch[n].level = .preheat then laserToBias n s else s

/-- UNITGO to LSR (R293, R298): the entry is read and BOOST loaded; in the optical personality the read and space
levels too, and the strategy. -/
def lsrUnitgo (n : Fin 4) (field_ lp : Nat) (s : State) : State :=
  let h := laserHead n s
  let st := bits field_ 21 16
  let s := engLoad .lsr 0 (powAddr h lp s) 16 s
  let s := if optical s then engLoad .lsr 0 (stratAddr st s) 16 s else s
  let e := readPow h lp s
  let ok := stratValid st s
  let s := s.modLaser n fun l => { l with head := h, lpidx := lp, entry := some e, strat := st, stratOk := ok }
  if s.lsr.ch[n].fault || s.lsr.ch[n].offHold then s
  else if optical s then
    if e.valid && ok then
      let s := psiQueue n (wframe .level .boost (boostAddr s) e.boost) s
      let s := psiQueue n (wframe .level .dcRead (dcAddr s) e.bias) s
      let s := psiQueue n (wframe .level .dcRead (dcAddr s + 1) e.preheat) s
      s.modLaser n fun l => { l with level := if l.level = .off then .bias else l.level, rdCode := e.bias }
    else ev .lsr 0x0802 n h 0 s
  else psiQueue n (wframe .level .boost (boostAddr s) e.boost) s

/-- The laser is taken OFF (R297): LGn low, OFF frames ahead of all others; it stays OFF until LSR_CLRF. -/
def laserOff (n : Fin 4) (s : State) : State :=
  let s := s.modRwc n fun c => { c with lg := false }
  let s := countOnTime n s
  let s := s.modLaser n fun l =>
    { l with level := .off, atPwr := false, preheatAck := none, since := none, bad := 0, offHold := true }
  let s := psiQueue n (wframe .laserOff .off (dcAddr s) 0) s
  psiQueue n (wframe .laserOff .off (boostAddr s) 0) s

/-- OFF frames on every present port. -/
def lasersOff (s : State) : State := (channels s).foldl (fun s n => laserOff n s) s

/-- A write of LSR_CLRF: bit n clears FAULT and the OFF hold of channel n (R295, R297). -/
def writeClrf (v : Nat) (s : State) : State :=
  (List.finRange 4).foldl (fun s (n : Fin 4) =>
    if v.testBit n.val then s.modLaser n fun l => { l with fault := false, offHold := false, bad := 0 } else s) s

def execLsrClrf (_m : Master) (v : Word) (s : State) : Out :=
  .next <| access .lsr 0 (Reg.addr .lsrClrf 0 0) (writeClrf v.toNat) s

/-! ### Removal of the gates (R19, R217) -/

/-- Counter k of a channel (R219): a wrap sets its sticky bit and raises line 328 + 4n + 3. -/
def rwcBump (n : Fin 4) (k amount : Nat) (s : State) : State :=
  let (c, w) := wrapAdd (vget s.rwc[n].cnt k 0) amount
  let s := s.modRwc n fun v =>
    { v with cnt := vmod v.cnt k fun _ => c, wrap := if w then v.wrap ||| 1 <<< k else v.wrap }
  if w then raiseLine (328 + 4 * n + 3) s else s

/-- The open parity group of a channel is discarded (10, a write cut inside a parity group). -/
def dropGroup (n : Fin 4) (s : State) : State :=
  s.modGrp n fun g => { g with opn := false, members := 0, size := 0, acc := 0, last := false }

/-- Data slot of the sector pointer on the track, for FAIL (R184). -/
def markFail (n : Fin 4) (s : State) : State :=
  s.modAsq n fun a => { a with fail := if a.fail = 0xFFFF then a.secPtr else a.fail }

/-- The sector under the head of channel n: channel, head, track, slot. -/
def sectorHere (n : Fin 4) (s : State) : Nat × Nat × Nat × Nat := (n, laserHead n s, s.asq[n].secTrack, s.asq[n].secPtr)

/-- The part of a cut sector that is written stays on the media as an unreadable sector (R217). -/
def tearSector (n : Fin 4) (s : State) : State :=
  let x := sectorHere n s
  { s with xmt := { s.xmt with torn := x :: s.xmt.torn.filter (· != x) } }

/-- A sector written whole is no torn one. -/
def healSector (n : Fin 4) (s : State) : State :=
  { s with xmt := { s.xmt with torn := s.xmt.torn.filter (· != sectorHere n s) } }

/-- Steps 3 and 4 of R19: WGn and LGn fall and stay low until the WG control falls; the laser drops to BIAS. A sector
whose write is cut is reported in FAIL and is unreadable until it is rewritten; a cut over a gap or a pad leaves every
sector whole. -/
def gatesOff (n : Fin 4) (s : State) : State :=
  let c := s.rwc[n]
  let s := if c.wg && c.inSector && !c.inGap then dropGroup n (rwcBump n 18 1 (markFail n (tearSector n s))) else s
  let s := s.modRwc n fun c =>
    { c with cut := c.cut || s.asq[n].levels.testBit 7, wg := false, lg := false }
  if s.lsr.ch[n].level = .preheat then laserToBias n s else s

end Sys2Proof.Machine
end

