-- ==== Sys2Proof/Machine/Adapt.lean ====
section
/-!
DEFINITION. The adaptive loops of a read channel: what each adapts and between which limits, when they are frozen, and
what a run of them leaves (09_read_write_channel.md, R204, R211-R214).
-/

set_option Elab.async false

namespace Sys2Proof.Machine

open Sys2Proof

/-- A level control of sequencer n, named by its DPC bit 24-31. -/
def level (n : Fin 4) (dpcBit : Nat) (s : State) : Bool := s.asq[n].levels.testBit (dpcBit - 24)

/-- A value that a loop adapts: the first byte of its field in the adaptive state, the bytes it takes, and the limits
between which it moves (table Adaptive loops; log 181). -/
structure LoopElem where
  at_   : Nat
  width : Nat
  lo    : Int
  hi    : Int
deriving DecidableEq, Repr

/-- The values that a loop adapts in a reader mode. Coefficients forced to 0 do not adapt (R202), and tap 0 of each
target is held at 1.0. -/
def loopElems (rmode loop : Nat) : List LoopElem :=
  match loop with
  | 0 => [⟨116, 1, 0, 255⟩, ⟨117, 1, 0, 255⟩]
  | 1 => [⟨120, 2, -8192, 8192⟩, ⟨122, 2, -8192, 8192⟩]
  | 2 => [⟨124, 1, -64, 64⟩, ⟨125, 1, -64, 64⟩]
  | 3 => (List.range 48).map fun i => ⟨2 * i, 2, -32768, 32767⟩
  | 4 => (match rmode with | 0 => [96, 98, 100, 102] | 2 => [102] | _ => [96]).map fun a => ⟨a, 2, -32768, 32767⟩
  | 5 => [105, 106, 107, 108, 110, 111, 112, 113].map fun a => ⟨a, 1, -115, 115⟩
  | _ => []

/-- A field of the working state takes a value. -/
def putElem (e : LoopElem) (v : Int) (w : Vector Word 32) : Vector Word 32 :=
  let lo := 8 * (e.at_ % 4)
  vmod w (e.at_ / 4) fun x =>
    BitVec.ofNat 32 (x.toNat - bits x.toNat (lo + 8 * e.width - 1) lo <<< lo + field (8 * e.width) v <<< lo)

/-- A loop moves one of its values: a free value short of its limits. -/
def moveElem (n : Fin 4) (e : LoopElem) (s : State) : State :=
  let d := draw (e.hi - e.lo - 1).toNat s
  s.drawn.modRwc n fun r => { r with work := putElem e (e.lo + 1 + d) r.work }

/-- One of a loop's values, which one is free, stands at one of its limits. -/
def limitElem (n : Fin 4) (loop : Nat) (s : State) : State :=
  let l := loopElems s.rwc[n].rmode loop
  let d := draw (2 * l.length) s
  match l[d / 2]? with
  | some e => s.drawn.modRwc n fun r => { r with work := putElem e (if d % 2 = 0 then e.lo else e.hi) r.work }
  | none => s.drawn

/-- Every loop is frozen (R212, R213). -/
def loopsFrozen (n : Fin 4) (s : State) : Bool :=
  let r := s.rwc[n]
  r.inDefect || r.inGap || level n 26 s || !(level n 27 s) || level n 31 s

/-- One loop has run: held at a limit it stays there, until its error points away from it, which the manual leaves to the
signal; otherwise its values move. -/
def runLoop (n : Fin 4) (loop : Nat) (s : State) : State :=
  let r := s.rwc[n]
  let go := fun s => (loopElems r.rmode loop).foldl (fun s e => moveElem n e s) s
  if !(r.loopen.testBit loop) || r.taperFrozen.testBit loop then s
  else if r.loopLim.testBit loop then
    if draw 2 s = 0 then s.drawn
    else go (s.drawn.modRwc n fun r => { r with loopLim := r.loopLim ^^^ 1 <<< loop })
  else go s

/-- What the loops have done up to an instant that stops them: the end of a sector or of a data area, a defect span, a
change of the controls. Loops that were frozen keep their state; one that a taper step froze resumes after 1,024 bits of
data, and whether as many have passed is free (log 182). -/
def adaptRun (n : Fin 4) (s : State) : State :=
  if s.rwc[n].inSector && !(loopsFrozen n s) then
    let m := draw 64 s
    let s := s.drawn.modRwc n fun r => { r with taperFrozen := r.taperFrozen &&& m }
    (List.range 6).foldl (fun s k => runLoop n k s) s
  else s

end Sys2Proof.Machine
end

