-- ==== Sys2Proof/Machine/AsqCore.lean ====
section
/-!
DEFINITION. The control store as the sequencers fetch from it (R167, R168, R188, R189), the level controls of a
sequencer (R175, R177) and its requests and handlers (R178-R180), with the fault decision of R19
(08_actuator_sequencers.md).
-/

set_option Elab.async false

namespace Sys2Proof.Machine

open Sys2Proof

/-! ### Microwords (R168) -/

/-- The parity of the lowest w bits of a number. -/
def parityOf : Nat → Nat → Bool
  | 0, _ => false
  | w + 1, v => (v % 2 == 1) != parityOf w (v / 2)

/-- A microword from its fields, with its parity bit (table Microword fields). -/
def mword (seq cond target wait cntop dpc param tmr unit atom : Nat) : Nat :=
  let x := seq <<< 125 + cond <<< 119 + target <<< 103 + wait <<< 99 + cntop <<< 96 + dpc <<< 64 + param <<< 48
    + tmr <<< 32 + unit <<< 2 + atom <<< 1
  x + flag (parityOf 128 x) 0

/-- The level controls PREHEAT and PREAMP_WR of the worked example. -/
def lv : Nat := 0x30000000

/-- Routine WRITE of the ROM (table Routine WRITE (opcode 0x02)), from 0x0400. -/
def romWrite : List Nat :=
  [mword 5 52 0x0416 9 3 0 0 0x0000 0 0, mword 5 4 0x0418 0 0 0 0 0 0 0,
   mword 0 0 0 15 0 0x00800000 0 0x8003 0 0, mword 5 6 0x0419 0 0 0 0 0 0 0,
   mword 0 0 0 10 0 0x00400000 0 0xC040 0 0, mword 5 7 0x041A 0 0 0 0 0 0 0,
   mword 0 0 0 11 0 (lv + 0x38) 0 0xC004 (0xFF * 2 ^ 22) 0, mword 0 0 0 12 0 lv 0 0x8005 0 0] ++
  [mword 5 9 0x041B 0 0 lv 0 0 0 0, mword 0 0 0 13 0 (lv + 0x00080000) 0 0x8010 0 0,
   mword 4 14 0x0414 0 0 lv 0 0 0 0, mword 4 5 0x041C 0 0 lv 0 0 0 0,
   mword 0 0 0 7 0 (lv + 0x00010000) 0 0x8019 0 0, mword 0 0 0 4 0 (lv + 0x02000000) 0 0xC028 0 0,
   mword 0 0 0 5 0 0xF2002000 0 0x461B 0 1, mword 0 0 0 0 0 (lv + 0xA00) 0 0 0 0] ++
  [mword 5 22 0x0412 0 0 lv 0 0 0 0, mword 2 0 0x0480 0 0 lv 0 0 0 0, mword 7 0 0x040A 0 0 lv 0 0 0 0,
   mword 3 0 0 0 0 0 0x00 0 0 0, mword 0 0 0 5 0 (lv + 0xC00) 0 0x461B 0 0, mword 1 0 0x040A 0 0 lv 0 0 0 0,
   mword 3 0 0 0 0 0 0x10 0 0 0]

/-- The last words of the routine, from 0x0418. -/
def romWriteEnds : List Nat :=
  [mword 3 0 0 0 0 0 0x05 0 0 0, mword 3 0 0 0 0 0 0x03 0 0 0, mword 3 0 0 0 0 0 0x0B 0 0 0,
   mword 3 0 0 0 0 0 0x0E 0 0 0, mword 3 0 0 0 0 0 0x06 0 0 0]

/-- The ROM: the printed routine, and words that the manual does not print (log 15). -/
def romAt (a : Nat) : Nat :=
  if 0x400 ≤ a ∧ a ≤ 0x416 then romWrite.getD (a - 0x400) 0
  else if 0x418 ≤ a ∧ a ≤ 0x41C then romWriteEnds.getD (a - 0x418) 0
  else Config.romWord a % 2 ^ 128

/-- Fields of a microword. -/
def mwSeq (w : Nat) : Nat := bits w 127 125
def mwCond (w : Nat) : Nat := bits w 124 119
def mwTarget (w : Nat) : Nat := bits w 118 103
def mwWait (w : Nat) : Nat := bits w 102 99
def mwCntop (w : Nat) : Nat := bits w 98 96
def mwDpc (w : Nat) : Nat := bits w 95 64
def mwParam (w : Nat) : Nat := bits w 63 48
def mwTmr (w : Nat) : Nat := bits w 47 32
def mwUnit (w : Nat) : Nat := bits w 31 2
def mwAtomic (w : Nat) : Bool := w.testBit 1

/-- A word of the store at an address, without match registers; none where the address is unmapped (R167). -/
def storeWord (a : Nat) (s : State) : Option Nat :=
  if a < 0x8000 then some (romAt a)
  else if a < 0x8800 then some (sget 1 (a - 0x8000) s.cst.patch)
  else if 0xC000 ≤ a ∧ a < 0xD000 then some (sget 1 (a - 0xC000) s.cst.openReg)
  else none

/-- Where a fetch from an address goes: the patch RAM address of the lowest match register that names it (R189). -/
def matchedAddr (a : Nat) (s : State) : Nat :=
  if a < 0x8000 then
    match (s.cst.mtch.filter fun m => m.2.1 == a).mergeSort (fun x y => x.1 ≤ y.1) with
    | m :: _ => 0x8000 + m.2.2
    | [] => a
  else a

/-- A fetch: the address fetched from and the word, or none where it is a microcode fault (R167). -/
def fetchWord (a : Nat) (s : State) : Option (Nat × Nat) :=
  let a := matchedAddr a s
  if 0xC000 ≤ a && !s.cst.openEn then none
  else (storeWord a s).map fun w => (a, w)

/-! ### The dispatch table (R188) -/

/-- CST_ROMVER.DTAB. -/
def dtab (s : State) : Nat := match s.sys.pers with | .magnetic => 0 | .optical => 1 | .lantern => 2 | .factory => 3

/-- An entry of the ROM default table of the personality: the default task opcodes and the handler vectors; the factory
table is the magnetic one with the factory opcodes. -/
def dispDefault (k : Nat) (s : State) : DispEntry :=
  let d := dtab s
  let v := match s.sys.pers with
    | .lantern => false
    | .optical => (1 ≤ k && k ≤ 0x0C) || k == 0xFD || k == 0xFE
    | .magnetic => (1 ≤ k && k ≤ 0x0B) || k == 0xFD || k == 0xFE
    | .factory => (1 ≤ k && k ≤ 0x0B) || k == 0xFD || k == 0xFE || (0xE0 ≤ k && k ≤ 0xEF)
  let t := if d = 3 then (if k < 0xE0 ∨ 0xF0 ≤ k then 0 else 3) else d
  { k := k, valid := v, opn := false
    addr := if !v then 0 else if k = 2 ∧ t = 0 then 0x0400 else Config.romEntry t k % 0x8000 }

/-- CST_DISPk. -/
def dispAt (k : Nat) (s : State) : DispEntry :=
  match s.cst.disp.find? (fun d => d.k == k) with
  | some d => d
  | none => dispDefault k s

/-! ### Fields of the ACTIVE task (table Task words) -/

/-- Bits of word j of the ACTIVE task. -/
def task (n : Fin 4) (j hi lo : Nat) (s : State) : Nat := bits (vget s.asq[n].atask j 0).toNat hi lo

/-- Sequencer n holds a task of an internal tag, ACTIVE or PENDING; some present one does. -/
def asqHas (n : Fin 4) (tag : Nat) (s : State) : Bool :=
  (s.asq[n].avalid && task n 2 31 20 s == tag) || (s.asq[n].pvalid && bits (vget s.asq[n].ptask 2 0).toNat 31 20 == tag)
def asqHolds (tag : Nat) (s : State) : Bool := (channels s).any fun n => asqHas n tag s

/-- A read whose completion is suppressed gives its tag back when no sequencer holds a task of it any longer (R118). -/
def tagDone (tag : Nat) (s : State) : State :=
  if asqHolds tag s then s
  else
    let reads := fun (o : NvmeOp) => match o with | .read | .compare | .verify => true | _ => false
    s.modHce fun h => { h with cmds := h.cmds.filter fun c => !(c.tag == tag && c.phase == .orphan && reads c.cmd.op) }

/-- The current sector counts in DONE, once (R184). -/
def countDone (n : Fin 4) (s : State) : State :=
  s.modAsq n fun a =>
    if a.counted.contains (a.secTrack, a.secPtr) then a
    else { a with done := min (2 ^ 17 - 1) (a.done + 1), counted := (a.secTrack, a.secPtr) :: a.counted }

/-! ### Requests (R178-R180) -/

/-- Requests that a boundary samples. -/
inductive Req where
  | fault | abort | deadline
deriving DecidableEq, Repr

/-- The request taken at a sampled boundary (table Request handling). -/
def sampled (a : Asq) : Option Req :=
  match a.phase with
  | .running =>
    if a.reqFault then some .fault else if a.reqAbort then some .abort
    else if a.reqDeadline then some .deadline else none
  | .abortHandler => if a.reqFault then some .fault else none
  | _ => none

/-- The line of a sequencer. -/
def asqLine (n : Fin 4) (k : Nat) (s : State) : State := raiseLine (256 + 8 * n.val + k) s

/-- Every level control of a sequencer falls (R175): gates, preamp mode, preheat, offered gap. -/
def levelsFall (n : Fin 4) (s : State) : State :=
  let old := s.asq[n].levels
  let s := adaptRun n s
  let s := s.modAsq n fun a => { a with levels := 0 }
  let s := s.modRwc n fun c => { c with wg := false, lg := false, cut := false }
  let s := if old.testBit 4 then preampMode n false s else s
  let s := if old.testBit 5 then preheatFall n s else s
  if old.testBit 0 then { s with trm := { s.trm with gap := s.trm.gap.set n none } } else s

/-- A handler is entered (R180): the stack is emptied, the controls fall, and the next word is the vector's. -/
def enterHandler (n : Fin 4) (r : Req) (timeout : Bool) (s : State) : State :=
  let a := s.asq[n]
  let s := if r = .fault then ev .asq 0x0310 n a.faultCause a.pc s else s
  let s := levelsFall n s
  let v := dispAt (if r = .fault then 0xFE else 0xFD) s
  let s := s.modAsq n fun a => { a with
    phase := if r = .fault then .faultHandler else .abortHandler
    stack := [], pc := v.addr, issued := false, waitDone := false, inAtom := false, atomOver := false
    reqFault := if r = .fault then false else a.reqFault
    reqAbort := if r = .abort then false else a.reqAbort
    reqDeadline := if r = .deadline && !timeout then false else a.reqDeadline
    forced := some (match r with
      | .fault => if a.faultCause = 0x0312 then 0x0D else 0x02
      | .abort => 0x01
      | .deadline => 0x04)
    cause := match r with
      | .fault => a.faultCause
      | .abort => 0
      | .deadline => if timeout then 0 else 0x0350 }
  asqLine n 2 s

/-- A sampled boundary. -/
def sampleBoundary (n : Fin 4) (s : State) : State :=
  match sampled s.asq[n] with
  | some r => enterHandler n r false s
  | none => s

/-- The executing word waits for its event (R169). -/
def isWaiting (a : Asq) : Bool := a.issued && mwWait a.word != 0 && !a.waitDone

/-- A request that arrives while a word with ATOMIC = 0 waits ends the wait at once (R178). -/
def requestArrives (n : Fin 4) (s : State) : State :=
  if isWaiting s.asq[n] && !(mwAtomic s.asq[n].word) && !(heldBlk .asq n s) then sampleBoundary n s else s

/-- A FAULT request (R180); with no task ACTIVE it is recorded and discarded. -/
def asqFault (n : Fin 4) (cause : Nat) (s : State) : State :=
  let a := s.asq[n]
  if a.avalid then
    let s := s.modAsq n fun a =>
      { a with reqFault := true, faultCause := if a.reqFault then a.faultCause else cause }
    requestArrives n s
  else ev .asq 0x0310 n cause a.pc s

/-- An ABORT request (R185). -/
def asqAbortReq (n : Fin 4) (s : State) : State :=
  requestArrives n (s.modAsq n fun a => { a with reqAbort := true })

/-- A fault decided on a channel (R19): its gates fall and ASQn takes a FAULT request. -/
def faultDecision (n : Fin 4) (cause : Nat) (s : State) : State := asqFault n cause (gatesOff n s)

/-- A fault decided on every present channel. -/
def faultAll (cause : Nat) (s : State) : State := (channels s).foldl (fun s n => faultDecision n cause s) s

/-- The event that the executing word waits for has come. -/
def waitComes (n : Fin 4) (code : Nat) (s : State) : State :=
  s.modAsq n fun a => if a.issued && mwWait a.word == code then { a with waitDone := true } else a

end Sys2Proof.Machine
end

