-- ==== Sys2Proof/Machine/Operands.lean ====
section
/-!
DEFINITION. The operand forms of a microword and of a task: the timer field, the privileged controls, the transfer
limits of the open region and the operands that a task hands to the Lamplighter (08_actuator_sequencers.md).
-/

set_option Elab.async false

namespace Sys2Proof.Machine

open Sys2Proof

/-- TMR in ns (table TMR encoding). -/
def tmrNs (tmr : Nat) : Nat :=
  bits tmr 13 0 * match bits tmr 15 14 with | 0 => 1 | 1 => 64 | 2 => 4096 | _ => 262144

/-- TMR in whole microseconds, rounded up: the time of State counts microseconds. -/
def tmrUs (tmr : Nat) : Nat := (tmrNs tmr + 999) / 1000

/-- DPC.UNIT and DPC.UNITGO (R176). -/
def dpcUnit (dpc : Nat) : Nat := bits dpc 7 4
def dpcUnitgo (dpc : Nat) : Bool := dpc.testBit 3

/-- A word that code of the open region may not issue (R194): a privileged control, a PSI write frame, or UNITGO to
LSR. -/
def privileged (w : Nat) : Bool :=
  let d := mwDpc w
  d.testBit 31 || d.testBit 30 || d.testBit 29 || d.testBit 28 || d.testBit 21 || d.testBit 20 ||
    (dpcUnitgo d && (dpcUnit d == 3 || (dpcUnit d == 4 && (mwUnit w).testBit 29)))

/-- An address of the open region; a gateway entry. -/
def inOpen (a : Nat) : Bool := 0xC000 ≤ a && a ≤ 0xCFFF
def isGateway (a : Nat) : Bool := 0x7F00 ≤ a && a ≤ 0x7FFF

/-- DEADLINE of task word 7 in us; 0 acts as 16,777,215. -/
def taskDeadlineUs (w7 : Nat) : Nat := if bits w7 23 0 = 0 then 16777215 else bits w7 23 0

/-- DL of a leave request: DEADLINE in 100 ms units, rounded up, at most 255 (R186). -/
def leaveDl (w7 : Nat) : Nat := min 255 ((taskDeadlineUs w7 + 99999) / 100000)

end Sys2Proof.Machine
end

