-- ==== Sys2Proof/Machine/Ecc.lean ====
section
/-!
DEFINITION. LDP, the decoder pool, and TPE, track parity and defect lists (10_media_ecc_defects.md, R221-R240, R309).
-/

set_option Elab.async false

namespace Sys2Proof.Machine

open Sys2Proof

/-! ### Counters and limits -/

/-- Counter k of LDP (R219): a wrap sets its sticky bit and raises line 350. -/
def ldpBump (k amount : Nat) (s : State) : State :=
  let (c, w) := wrapAdd (vget s.ldp.cnt k 0) amount
  let s := s.modLdp fun v =>
    { v with cnt := vmod v.cnt k fun _ => c, wrap := if w then v.wrap ||| 1 <<< k else v.wrap }
  if w then raiseLine 350 s else s

/-- Counter c of a pickup (R219): a wrap sets its sticky bit and OPT_IRQ_STAT bit 9. -/
def optBump (n : Fin 4) (c amount : Nat) (s : State) : State :=
  let k := 4 * n.val + c
  let (v, w) := wrapAdd (vget s.opt.cnt k 0) amount
  let s := { s with opt := { s.opt with
    cnt := vmod s.opt.cnt k fun _ => v, wrap := if w then s.opt.wrap ||| 1 <<< k else s.opt.wrap } }
  if w then setIrqStat .opt 0 9 s else s

/-- FPITER and RECMAX: 0 acts as 1, values above 40 act as 40. -/
def fpIter (s : State) : Nat := min 40 (zeroAsOne (fld .ldpCfg 0 0 5 0 s))
def recMax (s : State) : Nat := min 40 (zeroAsOne (fld .ldpCfg 0 0 13 8 s))

/-- BOOSTED (R228): the named ticket, of class LDPC_BOOST, is granted under its generation. -/
def ldpBoosted (s : State) : Bool :=
  fld .ldpBoost 0 0 31 31 s == 1 && (ticketGranted (fld .ldpBoost 0 0 6 0 s) (fld .ldpBoost 0 0 15 8 s) s &&
    match ticketAt (fld .ldpBoost 0 0 6 0 s) s with | some t => t.cls == 6 | none => false)

/-- First-pass codewords queued. -/
def fpQueued (s : State) : Nat := (s.ldp.queue.filter fun c => !c.recov).length

/-- The squeeze applies (R227). -/
def squeezeOn (s : State) : Bool :=
  let q := fld .ldpCfg 0 0 23 16 s
  q != 0 && q < fpQueued s

/-! ### Input slots and decoders (R226, R227) -/

/-- First-pass codewords of channel ch queued. -/
def fpOf (ch : Nat) (s : State) : Nat := (s.ldp.queue.filter fun c => !c.recov && c.ch == ch).length

/-- Shared slots in use: recovery codewords and first-pass codewords beyond a channel's eight. -/
def sharedUsed (s : State) : Nat :=
  (s.ldp.queue.filter (·.recov)).length + ((channels s).map fun c => fpOf c s - 8).sum

/-- A slot that channel ch may use for a codeword of this kind is free. -/
def slotFree (ch : Nat) (recov : Bool) (s : State) : Bool :=
  sharedUsed s < 64 - 8 * (channels s).length || (!recov && fpOf ch s < 8)

/-- The next codeword that a free decoder takes. -/
def nextCodeword (s : State) : Option Codeword :=
  match s.ldp.queue.find? (fun c => !c.recov) with
  | some c => some c
  | none =>
    let act := (s.ldp.active.filter (·.recov)).length
    if act < (if ldpBoosted s then 6 else 2) then
      (List.range 4).findSome? fun i => s.ldp.queue.find? fun c => c.prio == 3 - i
    else none

/-- WAIT 8 of the channels that have a free slot again. -/
def slotsFreed (s : State) : State :=
  (channels s).foldl (fun s (n : Fin 4) => if slotFree n (task n 0 9 9 s == 1) s then waitComes n 8 s else s) s

/-- Free decoders take codewords: at most k of them. A first-pass codeword that starts under the squeeze runs to at
most 4 iterations. -/
def ldpTake : Nat → State → State
  | 0, s => s
  | k + 1, s =>
    if s.ldp.active.length < 8 then
      match nextCodeword s with
      | none => s
      | some c =>
        let sq := !c.recov && squeezeOn s
        let c' := { c with squeezed := sq, limit := if c.recov then c.limit else if sq then min 4 (fpIter s) else fpIter s }
        let s := s.modLdp fun l => { l with queue := l.queue.erase c, active := l.active ++ [c'] }
        let s := if sq then ldpBump 3 1 s else s
        ldpTake k s
    else s

/-- Free decoders take what they can, and the channels see the slots they leave; a held LDP takes nothing. -/
def ldpRun (s : State) : State := if heldBlk .ldp 0 s then s else slotsFreed (ldpTake 8 s)

/-! ### Failures (R229) -/

/-- Head and track as the events pack them. -/
def headTrack (head track : Nat) : Nat := head % 64 <<< 26 + track % 2 ^ 24

/-- The status byte of a sector in the buffer descriptor list. -/
def putStatus (c : Codeword) (code : Nat) (s : State) : State :=
  s.modLdp fun l => { l with
    status := (c.tag, c.sector, code) :: l.status.filter fun (t, k, _) => !(t == c.tag && k == c.sector) }

/-- The retained slot of a sector. -/
def retainedOf (c : Codeword) (s : State) : Option Retained :=
  s.ldp.retained.find? fun r => r.ch == c.ch && r.head == c.head && r.track == c.track && r.sector == c.sector

/-- A slot of the retained store is free again. -/
def freeRetained (k : Nat) (s : State) : State :=
  if s.ldp.retained.any (·.slot == k) then
    s.modLdp fun l => { l with retained := l.retained.filter (·.slot != k), rsWarned := false }
  else s

/-- An entry of a channel's failure queue; a full queue drops it. -/
def pushFail (c : Codeword) (code synw : Nat) (rv : Option Nat) (s : State) : State :=
  let ch := finCh c.ch
  if s.ldp.ff[ch].length < 64 then
    let e : FailEntry := { tag := c.tag, head := c.head, rv := rv.isSome, rslot := rv.getD 0, cause := code
                           track := c.track, synw := min synw 0xFFFF, sector := c.sector }
    raiseLine (344 + ch) (s.modLdp fun l => { l with ff := l.ff.set ch (l.ff[ch] ++ [e]) })
  else s

/-- The channel's ACTIVE task, while it is the codeword's, has a failing sector. -/
def taskFails (c : Codeword) (s : State) : State :=
  let ch := finCh c.ch
  if s.asq[ch].avalid && task ch 2 31 20 s == c.tag then
    s.modAsq ch fun a => { a with fail := if a.fail = 0xFFFF then c.sector else a.fail }
  else s

/-- A decode that failed: the soft values of a first pass are retained while a store slot is free, the status byte and
the failure queue take the outcome. -/
def decodeFails (c : Codeword) (mismatch : Bool) (synw : Nat) (s : State) : State :=
  let s := taskFails c s
  if mismatch then pushFail c 3 synw none (putStatus c 3 s)
  else
    match retainedOf c s with
    | some r => pushFail c 1 synw (some r.slot) (putStatus c 1 s)
    | none =>
      if c.recov then pushFail c 2 synw none (putStatus c 2 s)
      else
        match lowestFree 256 (s.ldp.retained.map (·.slot)) with
        | some k =>
          let r : Retained := { slot := k, ch := c.ch, head := c.head, track := c.track, sector := c.sector }
          let s := s.modLdp fun l => { l with retained := l.retained ++ [r] }
          pushFail c 1 synw (some k) (putStatus c 1 s)
        | none =>
          let s := if s.ldp.rsWarned then s
            else raiseLine 349 (ev .ldp 0x0503 c.ch 0 0 (s.modLdp fun l => { l with rsWarned := true }))
          pushFail c 2 synw none (putStatus c 2 s)

/-- The condition LDP_FAIL of the codeword's channel. -/
def setLastFail (c : Codeword) (b : Bool) (s : State) : State :=
  if c.recov then s else s.modLdp fun l => { l with lastFail := l.lastFail.set (finCh c.ch) b }

/-- A sector decoded: its status byte reads good, its retained slot is free, a first pass counts for its task (R215). -/
def decodeGood (c : Codeword) (s : State) : State :=
  let s := putStatus c 0 s
  let s := match retainedOf c s with | some r => freeRetained r.slot s | none => s
  let ch := finCh c.ch
  if !c.recov && s.asq[ch].avalid && task ch 2 31 20 s == c.tag then
    s.modRwc ch fun r => { r with fpPass := r.fpPass + 1 }
  else s

/-- The ladder's end for a recovery codeword (R232-R234). -/
def ladderResult (c : Codeword) (ok : Bool) (r : DecodeRes) (s : State) : State :=
  if !c.recov then s
  else if ok then
    let s := if 3 ≤ r.step then ldpBump 5 1 s else s
    if 4 ≤ r.step then ev .ldp 0x0511 c.ch (headTrack c.head c.track) r.step s else s
  else if r.lastStep then
    healthAdd .unrecovered c.head 1 (ev .ldp 0x0510 c.ch (headTrack c.head c.track) r.step (ldpBump 6 1 s))
  else s

/-- The payload passes R222: syndrome zero, CRC, and the LBA and NS of the tag; a parity sector has no expected tag. -/
def tagGood (c : Codeword) (r : DecodeRes) : Bool := c.parity || (r.lba % 2 ^ 48 == c.lba && r.ns % 256 == c.ns)

/-- Parity covers the sector: a soft reset of TPE has not left its group without it (R106). -/
def hasParity (c : Codeword) (s : State) : Bool :=
  !(s.tpe.noParity.any fun (h, t, a, b) => h == c.head && t == c.track && a ≤ c.sector && c.sector ≤ b)

/-- A write that was cut left the codeword's sector unreadable (R217). -/
def tornSector (c : Codeword) (s : State) : Bool := s.xmt.torn.contains (c.ch, c.head, c.track, c.sector)

/-- The verdict on a codeword that ran to a limit, and what LDP writes of it (R222, R229, R231, R309). `inLimit`: the
decoder reached a zero syndrome within the limit; it reaches none over a torn sector. -/
def finishCodeword (c : Codeword) (inLimit : Bool) (r : DecodeRes) (s : State) : State :=
  let synd := inLimit && !(tornSector c s)
  match c.frame with
  | some f =>
    let hdr := r.hdrOk && r.frameNo % 2 ^ 32 == f
    let s := if synd && !hdr then
        let s := optBump (finCh c.ch) 2 1 s
        if r.hdrOk then ev .opt 0x0912 c.ch r.frameNo f s else s
      else s
    let good := synd && hdr
    let s := setLastFail c (!good) s
    let s := if good || c.recov then s else ldpBump 1 1 s
    let s := if good then decodeGood c s else decodeFails c synd r.synw s
    ladderResult c good r s
  | none =>
    let direct := synd && r.crcOk && tagGood c r
    let byParity := !direct && hasParity c s && c.parityRead && !c.parity && r.parity && r.crcOk && tagGood c r
    let s := if synd && !direct then
        let s := ldpBump 7 1 s
        if tagGood c r then s else ev .ldp 0x0512 c.ch (headTrack c.head c.track) r.lba s
      else s
    let s := if hasParity c s && c.parityRead && !c.parity && !direct then ldpBump (if byParity then 8 else 9) 1 s else s
    let good := direct || byParity
    let s := setLastFail c (!good) s
    let s := if good || c.recov then s else ldpBump 1 1 s
    let s := if good then decodeGood c s else decodeFails c synd r.synw s
    let s := if byParity then raiseLine (352 + c.ch) s else s
    ladderResult c good r s

/-- A codeword of a code block has run to its limit: a sector whose two codewords have both done so gets its verdict, with a
zero syndrome where both reached one (R224). -/
def finishPart (c : Codeword) (b : BlkWord) (inLimit : Bool) (r : DecodeRes) (s : State) : State :=
  let key := fun (j : Nat) => (c.ch, c.tag, c.track, b.block, j)
  let s := s.modLdp fun l => { l with parts := (key b.j, inLimit) :: l.parts.filter (·.1 != key b.j) }
  let ends := (if b.j = 0 then [] else [(b.j - 1, b.prev)]) ++ (if b.j < b.size then [(b.j, b.own)] else [])
  ends.foldl (fun s (k, slot) =>
    match s.ldp.parts.find? (·.1 == key k), s.ldp.parts.find? (·.1 == key (k + 1)) with
    | some x, some y => finishCodeword { c with sector := slot } (x.2 && y.2) r s
    | _, _ => s) s

/-- A codeword has run to its limit: of its own sector, or part of a code block. -/
def finishWord (c : Codeword) (inLimit : Bool) (r : DecodeRes) (s : State) : State :=
  match c.blk with | some b => finishPart c b inLimit r s | none => finishCodeword c inLimit r s

/-- LDP decodes: its domain is on and nothing holds it. -/
def ldpLive (s : State) : Bool := pdOn 13 s && !(heldBlk .ldp 0 s)

/-- Decoder i finishes its codeword. A squeezed codeword that fails waits for the squeeze to end (R227). -/
def execCodewordDecode (i : Nat) (r : DecodeRes) (s : State) : Out :=
  .next <|
    match s.ldp.active[i]? with
    | some c =>
      if ldpLive s then
        let synd := r.iters ≤ c.limit
        let s := s.modLdp fun l => { l with active := l.active.eraseIdx i }
        let s := ldpBump 2 (min r.iters c.limit) (ldpBump 0 1 s)
        let s := healthAdd .iterations c.head (min r.iters c.limit) (healthAdd .decoded c.head 1 s)
        let s := if c.squeezed && !(synd && !(tornSector c s)) then s.modLdp fun l => { l with waiting := l.waiting ++ [c] }
          else finishWord c synd r s
        ldpRun s
      else s
    | none => s

/-- The squeeze has ended: the oldest squeezed codeword that failed is decoded again, at FPITER (R227). -/
def execSqueezeRedecode (r : DecodeRes) (s : State) : Out :=
  .next <|
    match s.ldp.waiting with
    | c :: rest =>
      if ldpLive s && !(squeezeOn s) then
        let s := ldpBump 2 (min r.iters (fpIter s)) (s.modLdp fun l => { l with waiting := rest })
        finishWord c (r.iters ≤ fpIter s) r s
      else s
    | [] => s

/-- A sector of a cluster pair is checked under R222: its CRC, and the tag against what the task expects. -/
def clusterSector (n : Fin 4) (x : SectorCheck) (s : State) : State :=
  if x.crcOk && x.tagOk then s
  else
    let s := ldpBump 7 1 s
    let s := if x.tagOk then s else ev .ldp 0x0512 n (headTrack (task n 0 23 18 s) s.asq[n].secTrack) x.lba s
    s.modAsq n fun a => { a with fail := if s.asq[n].avalid && a.fail = 0xFFFF then a.secPtr else a.fail }

/-- LDP decodes the columns of a cluster pair (R236): a column is corrected when twice its errors plus its erasures is
at most 32; the sectors are then checked. -/
def execClusterDecode (n : Fin 4) (addr : Nat) (cols : List (Nat × Nat)) (sectors : List SectorCheck) (s : State) : Out :=
  .next <|
    if ldpLive s && optical s && chanExists n s then
      let bad := (cols.filter fun (e, x) => 32 < 2 * e + x).length
      let s := ldpBump 10 cols.length s
      let s := sectors.foldl (fun s x => clusterSector n x s) s
      if bad = 0 then s else raiseLine 358 (ev .ldp 0x0540 n addr bad (ldpBump 11 bad s))
    else s

/-- A write of LDP_RSFREE. -/
def writeRsfree (v : Nat) (s : State) : State := if v.testBit 31 then freeRetained (bits v 7 0) s else s

def execRetainedSlotFree (_m : Master) (v : Word) (s : State) : Out :=
  .next <| access .ldp 0 (Reg.addr .rsfree 0 0) (writeRsfree v.toNat) s

/-- A write of LDP_FFPOPn. -/
def writeFfpop (n : Fin 4) (v : Nat) (s : State) : State :=
  if v.testBit 0 then s.modLdp fun l => { l with ff := l.ff.set n l.ff[n].tail } else s

def execFailurePop (_m : Master) (n : Fin 4) (v : Word) (s : State) : Out :=
  .next <| access .ldp 0 (Reg.addr .ffpop 0 n) (writeFfpop n v.toNat) s

/-! ### LDP_SUBMIT and UNITGO to LDP (R226, R227) -/

/-- Usable slots of the task's track below a slot: those the skip map does not pass over. -/
def usableBelow (n : Fin 4) (slot : Nat) (s : State) : Nat :=
  match s.tpe.grp[n].skip with
  | some (_, l) => ((List.range slot).filter fun x => !(l.any fun (a, k) => a ≤ x && x < a + k)).length
  | none => slot

/-- Sectors of a code block of CODE 1 and 2. -/
def blockSectors (code : Nat) : Nat := if code = 1 then 32 else 16

/-- Block and index of the slot under the head in a zone of CODE 1 or 2 (R224). -/
def blockIndex (n : Fin 4) (s : State) : Option (Nat × Nat × Nat) :=
  match s.rwc[n].zone with
  | some z =>
    if z.code = 0 || optical s then none
    else
      let b := blockSectors z.code
      let i := usableBelow n s.asq[n].secPtr s
      some (i / b, i % b, b)
  | none => none

/-- The codewords whose last bit comes with the sector under the head (R224): its own sector's, unless a code block holds
more: codeword j lies in fields j - 1 and j, and the last field ends two. -/
def wordsHere (n : Fin 4) (s : State) : List (Option BlkWord) :=
  match blockIndex n s with
  | none => [none]
  | some (k, i, b) =>
    let here := s.asq[n].secPtr
    let prev := match s.ldp.fed[n] with
      | some (t, k', i') => t == s.asq[n].secTrack && k' == k && i' + 1 == i
      | none => false
    let before := ((List.range here).reverse.find? fun x => usableBelow n x s != usableBelow n here s).getD 0
    (if i = 0 || prev then [some { block := k, size := b, j := i, prev := before, own := here }] else []) ++
      (if i + 1 = b then [some { block := k, size := b, j := b, prev := here, own := here }] else [])

/-- The codeword of the sector that channel n passes. The LBA and NS that the task expects stand in its buffer
descriptor list, whose layout the manual does not give: free values (log 2). -/
def codewordOf (n : Fin 4) (recov : Bool) (blk : Option BlkWord) (s : State) : Codeword :=
  let a := s.asq[n]
  let g := s.tpe.grp[n]
  let go := a.ldpGo.getD (1 + draw 40 s, 0)
  { ch := n, tag := task n 2 31 20 s, head := task n 0 23 18 s, track := a.secTrack, sector := a.secPtr
    ord := task n 1 31 0 s, lba := draw (2 ^ 48) s, ns := draw 256 s.drawn, recov := recov
    combine := recov && task n 0 7 7 s == 1, prio := go.2, limit := min (recMax s) go.1
    parity := g.opn && g.size ≤ g.members, parityRead := task n 0 31 24 s == 0x08, squeezed := false
    frame := if optical s then some ((task n 11 31 0 s + a.secCnt) % 2 ^ 32) else none, blk := blk }

/-- A codeword enters the pool; one that finds no slot is an overrun (R226). -/
def submitWord (n : Fin 4) (recov : Bool) (blk : Option BlkWord) (s : State) : State :=
  let c := codewordOf n recov blk s
  let s := s.drawn.drawn
  if slotFree n recov s then
    let s := if c.parity then s else countDone n s
    ldpRun (s.modLdp fun l => { l with queue := l.queue ++ [c] })
  else
    let s := setLastFail c true (ldpBump 4 1 s)
    let s := if recov then s else ldpBump 1 1 s
    let s := pushFail c 4 (draw (2 ^ 16) s) none (putStatus c 4 s)
    taskFails c s.drawn

/-- The sector under the head goes to LDP: every codeword whose last bit comes with it. -/
def submitCodeword (n : Fin 4) (recov : Bool) (s : State) : State :=
  let ws := wordsHere n s
  let fed := (blockIndex n s).map fun (k, i, _) => (s.asq[n].secTrack, k, i)
  ws.foldl (fun s w => submitWord n recov w s) (s.modLdp fun l => { l with fed := l.fed.set n fed })

/-- The LDP_SUBMIT pulse. -/
def ldpSubmit (n : Fin 4) (s : State) : State := submitCodeword n (task n 0 9 9 s == 1) s

/-- UNITGO to LDP. -/
def ldpUnitgo (n : Fin 4) (f : Nat) (s : State) : State :=
  s.modAsq n fun a => { a with ldpGo := some (bits f 29 24, bits f 23 22) }

/-! ### Parity groups (R230) -/

/-- SPT of the copied zone entry. -/
def zoneSpt (n : Fin 4) (s : State) : Nat := match s.rwc[n].zone with | some z => z.spt | none => 0

/-- Conditions LAST_SECTOR and TRACK_END: the pointer is at the task's last sector, at the track's last. -/
def lastSector (n : Fin 4) (s : State) : Bool := s.asq[n].secCnt + 1 == task n 5 16 0 s
def trackEnd (n : Fin 4) (s : State) : Bool := zoneSpt n s ≤ s.asq[n].secPtr + 1

/-- TPE_ACC: the sector joins its parity group; the first sector opens one of TPEG sectors, or of the size that the
last UNITGO gave. Its payload is that of R221: the user data, the metadata, LBA and NS come from a buffer whose layout the
manual does not give, and are free values; the rest comes from the task. -/
def tpeAcc (n : Fin 4) (s : State) : State :=
  let tpeg := match s.rwc[n].zone with | some z => z.tpeg | none => 0
  let last := lastSector n s || trackEnd n s
  let enc := task n 0 10 10 s == 1
  let p := sectorPayload { data := draw (256 ^ 4096) s, md := draw (256 ^ 64) s.drawn, lba := draw (2 ^ 48) s.drawn.drawn
                           ns := draw 64 s.drawn.drawn.drawn, enc := enc, ord := task n 1 31 0 s
                           kslot := if enc then task n 2 10 0 s else 0, epoch := s.sec.epoch }
  s.drawn.drawn.drawn.drawn.modGrp n fun g => { g with
    opn := true, members := min 128 ((if g.opn then g.members else 0) + 1)
    size := if !g.opn && g.size == 0 then tpeg else g.size
    acc := (if g.opn then g.acc else 0) ^^^ p, last := last, start := if g.opn then g.start else s.asq[n].secPtr }

/-- Condition TPE_GROUP_END. -/
def groupEnd (n : Fin 4) (s : State) : Bool :=
  let g := s.tpe.grp[n]
  g.opn && (g.size ≤ g.members || g.last)

/-- The sectors of the open group of a channel: head, track, first and last slot. -/
def groupSpan (n : Fin 4) (s : State) : Nat × Nat × Nat × Nat :=
  (task n 0 23 18 s, s.asq[n].secTrack, s.tpe.grp[n].start, s.asq[n].secPtr)

/-- TPE_EMIT: the next slot takes the group's parity sector, and the group closes; sectors marked without parity have it
again. -/
def tpeEmit (n : Fin 4) (s : State) : State :=
  let (h, t, a, b) := groupSpan n s
  let s := { s with tpe := { s.tpe with
    noParity := s.tpe.noParity.filter fun (h', t', a', b') => !(h' == h && t' == t && decide (a ≤ b') && decide (a' ≤ b)) } }
  dropGroup n (s.modAsq n fun a => { a with emit := true })

/-- The parity of every open group is discarded: the groups are marked without parity until they are rewritten (R106). The
skip maps of tasks under way stay. -/
def tpeDiscard (s : State) : State :=
  let marks := ((channels s).filter fun n => s.tpe.grp[n].opn).map fun n => groupSpan n s
  { s with tpe := { grp := s.tpe.grp.map fun g => { skip := g.skip, whole := g.whole }, warned := s.tpe.warned
                    noParity := s.tpe.noParity ++ marks } }

/-- UNITGO to TPE: the size of the current group, 16-128. -/
def tpeUnitgo (n : Fin 4) (f : Nat) (s : State) : State :=
  let v := bits f 29 23
  if 16 ≤ v ∧ v ≤ 128 then s.modGrp n fun g => { g with size := v } else s

/-! ### Defect lists in DDR5 (R237-R240) -/

/-- A defect entry from its 64 bits. -/
def defectOf (w : Nat) : Defect :=
  { grown := w.testBit 63, pending := w.testBit 62, trackDef := w.testBit 61, track := bits w 55 32
    sector := bits w 31 16, len := bits w 15 0 }

/-- The 64 bits of a defect entry. -/
def defectWord (d : Defect) : Nat :=
  flag d.grown 63 + flag d.pending 62 + flag d.trackDef 61 + d.track <<< 32 + d.sector <<< 16 + d.len

/-- The directory entry of a surface: address, list address, VALID, RETIRED, primary and grown entries. -/
structure DlDir where
  at_     : Nat
  base    : Nat
  valid   : Bool
  retired : Bool
  primary : Nat
  grown   : Nat
deriving DecidableEq, Repr

/-- The directory entry of surface h. -/
def dlDir (h : Nat) (s : State) : DlDir :=
  let a := reg .dldir 0 0 s * 256 + 16 * h
  let f := engRead (a + 5) 1 s
  { at_ := a, base := engRead a 5 s, valid := f.testBit 0, retired := f.testBit 1
    primary := engRead (a + 8) 4 s, grown := engRead (a + 12) 4 s }

/-- The entries of a surface's list, as many as the list can hold. -/
def dlList (h : Nat) (s : State) : List Defect :=
  let d := dlDir h s
  if d.valid then (List.range (min 262144 (d.primary + d.grown))).map fun i => defectOf (engRead (d.base + 8 * i) 8 s)
  else []

/-- The engine fetches a surface's directory entry and its list. -/
def dlFetch (h : Nat) (s : State) : State :=
  let s := engLoad .tpe 0 (reg .dldir 0 0 s * 256 + 16 * h) 16 s
  let d := dlDir h s
  if d.valid then engLoad .tpe 0 d.base (8 * min 262144 (d.primary + d.grown)) s else s

/-- A surface's list written back from entry i on, with the counts of its directory entry. -/
def dlStore (h i : Nat) (l : List Defect) (s : State) : State :=
  let d := dlDir h s
  let s := (l.drop i).zipIdx.foldl (fun s (x, j) => engWrite .tpe 0 (d.base + 8 * (i + j)) 8 (defectWord x) s) s
  let g := (l.filter (·.grown)).length
  engWrite .tpe 0 (d.at_ + 12) 4 g (engWrite .tpe 0 (d.at_ + 8) 4 (l.length - g) s)

/-- First slot and one past the last slot that an entry covers; a TRACKDEF entry covers its track. -/
def dlSpan (d : Defect) : Nat × Nat := if d.trackDef then (0, 2 ^ 17) else (d.sector, d.sector + d.len)

/-- Two entries overlap. -/
def dlOverlap (a b : Defect) : Bool :=
  a.track == b.track && (dlSpan a).1 < (dlSpan b).2 && (dlSpan b).1 < (dlSpan a).2

/-- Two entries overlap or adjoin, with equal GROWN and PENDING. -/
def dlMerges (a b : Defect) : Bool :=
  a.track == b.track && (dlSpan a).1 ≤ (dlSpan b).2 && (dlSpan b).1 ≤ (dlSpan a).2 &&
    a.grown == b.grown && a.pending == b.pending

/-- Two entries as one. -/
def dlJoin (a b : Defect) : Defect :=
  if a.trackDef || b.trackDef then { a with trackDef := true, sector := 0, len := 0 }
  else
    let lo := min a.sector b.sector
    { a with sector := lo, len := max (a.sector + a.len) (b.sector + b.len) - lo }

/-- An entry in its place by TRACK and then SECTOR. -/
def dlPlace (d : Defect) : List Defect → List Defect
  | [] => [d]
  | x :: t => if d.track < x.track || (d.track == x.track && d.sector ≤ x.sector) then d :: x :: t else x :: dlPlace d t

/-- The operation is complete: TPE_DLRES and line 356. -/
def dlResult (res : Nat) (idx : Option Nat) (s : State) : State :=
  raiseLine 356 { s with tpe := { s.tpe with
    dlDone := true, dlBusy := false, dlHeld := none, dlRes := res, dlIndex := idx.getD s.tpe.dlIndex } }

/-- The entry of TPE_DLE. -/
def dlEntry (s : State) : Defect :=
  let d := defectOf (reg .dle1 0 0 s * 2 ^ 32 + reg .dle0 0 0 s)
  { d with pending := d.pending && d.grown }

/-- The surface has reached its bound: RETIRED is set, 0x0530, line 357 (R240). -/
def dlRetire (h : Nat) (s : State) : State :=
  let d := dlDir h s
  let s := engWrite .tpe 0 (d.at_ + 5) 1 (engRead (d.at_ + 5) 1 s ||| 2) s
  raiseLine 357 (ev .tpe 0x0530 h d.grown 0 s)

/-- The list first passes 235,930 entries (R240). -/
def dlWarn (h n : Nat) (s : State) : State :=
  if 235930 < n && !(s.tpe.warned.contains h) then
    raiseLine 357 (ev .tpe 0x0531 h n 0 { s with tpe := { s.tpe with warned := insertNat h s.tpe.warned } })
  else s

/-- An insert takes effect (R237, R240). -/
def dlInsert (h : Nat) (d : Defect) (s : State) : State :=
  let s := dlFetch h s
  let l := dlList h s
  if (dlDir h s).retired then dlResult 4 none s
  else if !(dlDir h s).valid then dlResult 3 none s
  else if l.any (fun x => dlOverlap d x && !(dlMerges d x)) then dlResult 5 none s
  else
    let near := l.filter (dlMerges d)
    if near.isEmpty && 262144 ≤ l.length then dlResult 1 none (dlRetire h s)
    else
      let d' := near.foldl dlJoin d
      let l' := dlPlace d' (l.filter fun x => !(dlMerges d x))
      let i := l'.findIdx (· == d')
      dlResult (if near.isEmpty then 0 else 2) (some i) (dlWarn h l'.length (dlStore h i l' (if near.isEmpty && d.grown then healthAdd .grown h 1 s else s)))

/-- A channel's ACTIVE task works on a track of a surface. -/
def trackBusy (h track : Nat) (s : State) : Bool :=
  (channels s).any fun n => s.asq[n].avalid && task n 0 23 18 s == h && s.asq[n].secTrack == track

/-- OP 1 (R237, R239): an insert without PENDING on a track being worked on is held. -/
def dlOpInsert (h : Nat) (s : State) : State :=
  let d := dlEntry s
  if !d.pending && trackBusy h d.track s then { s with tpe := { s.tpe with dlHeld := some (h, d) } }
  else dlInsert h d s

/-- OP 2: the entry equal to TPE_DLE is deleted. -/
def dlOpDelete (h : Nat) (s : State) : State :=
  let s := dlFetch h s
  let l := dlList h s
  let i := l.findIdx (· == dlEntry s)
  if i < l.length then dlResult 0 (some i) (dlStore h i (l.eraseIdx i) s) else dlResult 3 none s

/-- OP 3: PENDING is cleared on every entry within the track and slot range of TPE_DLE. -/
def dlOpClear (h : Nat) (s : State) : State :=
  let s := dlFetch h s
  let d := dlEntry s
  let within := fun x : Defect => x.pending && x.track == d.track &&
    (dlSpan d).1 ≤ (dlSpan x).1 && (dlSpan x).2 ≤ (dlSpan d).2
  let l := dlList h s
  if l.any within then dlResult 0 none (dlStore h 0 (mapIf within (fun x => { x with pending := false }) l) s)
  else dlResult 3 none s

/-- A write of TPE_DLOP: with GO, while no operation is under way, the operation starts. -/
def writeDlop (v : Nat) (s : State) : State :=
  if v.testBit 31 && !s.tpe.dlBusy then
    let h := bits v 5 0
    let op := bits v 30 28
    if 1 ≤ op ∧ op ≤ 3 then
      let s := { s with tpe := { s.tpe with dlDone := false, dlBusy := true } }
      if op = 1 then dlOpInsert h s else if op = 2 then dlOpDelete h s else dlOpClear h s
    else s
  else s

/-- TPE_DLOP written with GO and an OP. -/
def dlopCmd (op surf : Nat) (s : State) : State :=
  access .tpe 0 (Reg.addr .dlop 0 0) (writeDlop (2 ^ 31 + op <<< 28 + surf)) s

def execDefectInsert (_m : Master) (surf : Fin 64) (s : State) : Out := .next (dlopCmd 1 surf s)
def execDefectDelete (_m : Master) (surf : Fin 64) (s : State) : Out := .next (dlopCmd 2 surf s)
def execDefectClearPending (_m : Master) (surf : Fin 64) (s : State) : Out := .next (dlopCmd 3 surf s)

/-- The task on the track of a held insert has ended (R239). -/
def execDefectInsertRelease (s : State) : Out :=
  .next <|
    match s.tpe.dlHeld with
    | some (h, d) =>
      if pdOn 13 s && !(heldBlk .tpe 0 s) && !(trackBusy h d.track s) then dlInsert h d s else s
    | none => s

/-! ### Skip maps (R238) -/

/-- The skip map of a track is built from the entries without PENDING; more than 256 make the track wholly defective. -/
def buildSkip (n : Fin 4) (head track : Nat) (s : State) : State :=
  let s := dlFetch head s
  let l := (dlList head s).filter fun d => d.track == track && !d.pending
  let many := 256 < l.length
  let s := s.modGrp n fun g => { g with
    skip := some (track, l.map fun d => ((dlSpan d).1, (dlSpan d).2 - (dlSpan d).1)), whole := many }
  if many then ev .tpe 0x0532 head track 0 s else s

/-- Condition SECTOR_DEFECT: the current slot is in the skip map. -/
def slotDefect (n : Fin 4) (s : State) : Bool :=
  let g := s.tpe.grp[n]
  g.whole || match g.skip with
    | some (_, l) => l.any fun (a, k) => a ≤ s.asq[n].secPtr && s.asq[n].secPtr < a + k
    | none => false

end Sys2Proof.Machine
end

