-- ==== Sys2Proof/Machine/ServoTable.lean ====
section
/-!
DEFINITION. The servo tables: numbers, rows, their execution and the check of a table
(11_servo_control_engine.md, R241-R248).
-/

set_option Elab.async false

namespace Sys2Proof.Machine

open Sys2Proof

/-! ### Numbers (R243) -/

/-- The store operation: v in units of 2^-30, shifted, rounded to 15 fraction bits and saturated; with whether it
saturated. -/
def storeQ (shift : Int) (v : Int) : Int × Bool :=
  let q := roundDiv (v * 2 ^ (shift + 8).toNat) (2 ^ 23)
  if q < -32768 then (-32768, true) else if 32767 < q then (32767, true) else (q, false)

/-- An accumulation stops at the bounds of 40 bits. -/
def accSat (v : Int) : Int := clamp (-(2 ^ 39)) (2 ^ 39 - 1) v

/-- A Q1.15 value saturated. -/
def sat16 (v : Int) : Int := clamp (-32768) 32767 v

/-- The DAC code of a Q1.15 value: code XOR 0x8000 (R246). -/
def dacCode (v : Int) : Nat := (v + 32768).toNat % 2 ^ 16

/-! ### Rows (R244, R245) -/

/-- A row of a servo table (table Servo table row). -/
structure SveRow where
  op    : Nat
  a     : Nat
  b     : Nat
  dst   : Nat
  c     : Nat
  shift : Int
  sat   : Nat
deriving DecidableEq, Repr

/-- The fields of a 64-bit row. -/
def rowOf (w : Nat) : SveRow :=
  { op := bits w 63 59, a := bits w 58 50, b := bits w 49 41, dst := bits w 40 32, c := bits w 31 22
    shift := signed 4 (bits w 21 18), sat := bits w 17 16 }

/-- Row r of a table. -/
def rowWord (t : SveTable) (r : Nat) : Nat := sget 0 r t.rows

/-- A coefficient of a table, signed Q1.15. -/
def coefAt (t : SveTable) (c : Nat) : Int :=
  if c < 1024 then signed 16 (sget 0 c t.coefs) else signed 16 (Config.coefBeyond c)

def isState (x : Nat) : Bool := x < 0x100
def isAccAddr (x : Nat) : Bool := 0x120 ≤ x && x ≤ 0x123
def isPortAddr (x : Nat) : Bool := 0x180 ≤ x && x ≤ 0x183
def isTraceAddr (x : Nat) : Bool := 0x1C0 ≤ x && x ≤ 0x1C3
def canRead (x : Nat) : Bool := x < 0x120 || (0x140 ≤ x && x ≤ 0x17F)

/-- A row uses only a known operation and addresses that its operation may use (table Operand addresses). -/
def rowLegal (r : SveRow) : Bool :=
  match r.op with
  | 0x00 | 0x0C | 0x0D => true
  | 0x01 | 0x02 => canRead r.a && isAccAddr r.dst
  | 0x03 => canRead r.a && canRead r.b && isAccAddr r.dst
  | 0x04 => isAccAddr r.a && isState r.dst
  | 0x05 => canRead r.a && canRead r.b && isState r.dst
  | 0x06 => canRead r.a && canRead r.dst && isState r.b && isState (r.b + 1)
  | 0x07 => canRead r.a && canRead r.b && isState r.dst
  | 0x08 => canRead r.a && isState r.dst
  | 0x09 => canRead r.a && canRead r.b && isState r.dst
  | 0x0A => canRead r.a && isPortAddr r.dst
  | 0x0B => canRead r.a && isTraceAddr r.dst
  | _ => false

/-- Rows of the MAC class (table Row operations). -/
def isMac (op : Nat) : Bool := (1 ≤ op && op ≤ 3) || op == 5 || op == 7

/-! ### Execution of rows (R246) -/

/-- What the rows of a sample have done. -/
structure RowRun where
  s   : List (Nat × Int)
  acc : Vector Int 4
  /-- values sent to the output ports, in order -/
  outs : List (Nat × Int)
  /-- values sent to the trace channels, in order -/
  tr  : List (Nat × Int)
  strikes0 : Nat
  strikes1 : Nat
  strikesAll : Nat
  sats : Nat
deriving DecidableEq, Repr

/-- What a row reads beside the state words: inputs, mailbox, coefficients; `valid` is false for an input that carries
an invalid mark; `spindle`: class 0 acts as class 2 (R264). -/
structure RowCtx where
  inp   : Nat → Int
  mail  : Nat → Int
  coef  : Nat → Int
  valid : Nat → Bool
  spindle : Bool

/-- The value at an operand address. -/
def opRead (x : RowCtx) (r : RowRun) (a : Nat) : Int :=
  if a < 0x100 then sget 0 a r.s
  else if a < 0x120 then x.inp (a - 0x100)
  else if 0x140 ≤ a ∧ a ≤ 0x17F then x.mail (a - 0x140)
  else 0

/-- A strike of a class (R256). -/
def strike (x : RowCtx) (cls : Nat) (r : RowRun) : RowRun :=
  let cls := if x.spindle && cls == 0 then 2 else cls
  { r with
    strikesAll := r.strikesAll + 1
    strikes0 := if cls = 0 then r.strikes0 + 1 else r.strikes0
    strikes1 := if cls = 1 then r.strikes1 + 1 else r.strikes1 }

/-- A saturation, reported as the row's SAT says (R243). -/
def reportSat (x : RowCtx) (sat : Nat) (on : Bool) (r : RowRun) : RowRun :=
  if !on || sat = 0 then r
  else
    let r := { r with sats := r.sats + 1 }
    if sat = 2 then strike x 0 r else r

/-- A result stored in a state word. -/
def putWord (x : RowCtx) (row : SveRow) (d : Nat) (v : Int) (r : RowRun) : RowRun :=
  let (q, sat) := storeQ row.shift v
  reportSat x row.sat sat { r with s := sput 0 d q r.s }

/-- One row (table Row operations). -/
def execRow (x : RowCtx) (row : SveRow) (r : RowRun) : RowRun :=
  let a := opRead x r row.a
  let b := opRead x r row.b
  let c := x.coef row.c
  let k := row.dst - 0x120
  let old := vget r.acc k 0
  let setAcc := fun v => { r with acc := vmod r.acc k fun _ => accSat v }
  match row.op with
  | 0x01 => setAcc (a * c)
  | 0x02 => setAcc (old + a * c)
  | 0x03 => setAcc (old + a * b)
  | 0x04 => putWord x row row.dst (vget r.acc (row.a - 0x120) 0) r
  | 0x05 => putWord x row row.dst (a * c + b * 2 ^ 15) r
  | 0x06 =>
    let y := opRead x r row.dst
    let s2 := opRead x r (row.b + 1)
    let b1 := x.coef (row.c + 1)
    let b2 := x.coef (row.c + 2)
    let a1 := x.coef (row.c + 3)
    let a2 := x.coef (row.c + 4)
    putWord x row (row.b + 1) (b2 * a - a2 * y) (putWord x row row.b (b1 * a - a1 * y + s2 * 2 ^ 15) r)
  | 0x07 => putWord x row row.dst (a * 2 ^ 15 + b * c) r
  | 0x08 =>
    let hi := x.coef (row.c + 1)
    let v := min (max a c) hi
    reportSat x row.sat (v != a) { r with s := sput 0 row.dst v r.s }
  | 0x09 =>
    let good := x.valid row.a && decide ((a - b).natAbs ≤ c.toNat) && decide (0 ≤ c)
    let r := { r with s := sput 0 row.dst (if good then a else b) r.s }
    if good then r else strike x row.sat r
  | 0x0A => { r with outs := r.outs ++ [(row.dst - 0x180, a)] }
  | 0x0B => { r with tr := r.tr ++ [(row.dst - 0x1C0, a)] }
  | _ => r

/-- Rows in order. -/
def execRows (x : RowCtx) : List Nat → RowRun → RowRun
  | [], r => r
  | w :: t, r => execRows x t (execRow x (rowOf w) r)

/-- Words of a table from row lo up to but not including row hi. -/
def rowsOf (t : SveTable) (lo hi : Nat) : List Nat := ((List.range 512).drop lo).take (hi - lo) |>.map (rowWord t)

/-- The rows of an operation. -/
def rowsWith (t : SveTable) (op : Nat) : List Nat := (List.range 512).filter fun r => bits (rowWord t r) 63 59 == op

/-- The SYNC row. -/
def syncRow (t : SveTable) : Nat := (rowsWith t 0x0C).headD 0

/-- The first END row after the SYNC row. -/
def endRow (t : SveTable) : Option Nat := (rowsWith t 0x0D).find? fun r => syncRow t < r

/-- The last OUT row between SYNC and END. -/
def lastOut (t : SveTable) : Option Nat :=
  match endRow t with
  | some e => ((rowsWith t 0x0A).filter fun r => syncRow t < r && r < e).getLast?
  | none => none

/-- The active table has a class-0 PLAUS row in its critical span (R254). -/
def hasGuardRow (t : SveTable) : Bool :=
  match lastOut t with
  | some o => (rowsWith t 0x09).any fun r => syncRow t < r && r < o && bits (rowWord t r) 17 16 == 0
  | none => false

/-! ### Issue times (R242, R247) -/

/-- Cycles from issue until the result is ready (table Row operations). -/
def readyIn (op : Nat) : Nat := match op with | 1 | 2 | 3 | 5 | 7 => 3 | 4 => 2 | 6 => 4 | 8 | 9 | 11 => 1 | _ => 0

/-- Addresses that a row reads and has to wait for; a MAC row does not wait for its own accumulator. -/
def rowReads (r : SveRow) : List Nat :=
  match r.op with
  | 1 | 2 | 4 | 8 | 10 | 11 => [r.a]
  | 3 | 5 | 7 | 9 => [r.a, r.b]
  | 6 => [r.a, r.dst, r.b, r.b + 1]
  | _ => []

/-- Addresses that a row writes. -/
def rowWrites (r : SveRow) : List Nat :=
  match r.op with
  | 1 | 2 | 3 | 4 | 5 | 7 | 8 | 9 => [r.dst]
  | 6 => [r.b, r.b + 1]
  | _ => []

/-- Issue cycles of rows in order, from a cycle, with the cycle at which each address written becomes ready. -/
def issueTimes : List Nat → Nat → List (Nat × Nat) → List Nat
  | [], _, _ => []
  | w :: t, c, rdy =>
    let r := rowOf w
    let at_ := (rowReads r).foldl (fun m a => max m ((rdy.find? fun x => x.1 == a).map (·.2) |>.getD 0)) c
    let rdy := (rowWrites r).map (fun a => (a, at_ + readyIn r.op)) ++ rdy
    at_ :: issueTimes t (at_ + 1) rdy

/-- The latch times of the OUT rows of the critical span: row and ns after the trigger. -/
def latchTimes (t : SveTable) : List (Nat × Nat) :=
  match lastOut t with
  | some o =>
    let sy := syncRow t
    let ws := rowsOf t (sy + 1) (o + 1)
    ((ws.zip (issueTimes ws 1 [])).zipIdx.filter fun x => bits x.1.1 63 59 == 0x0A).map fun x =>
      (sy + 1 + x.2, x.1.2 + 20)
  | none => []

/-- SVEn_LAT.STATIC of a table. -/
def staticLat (t : SveTable) : Nat := (latchTimes t).foldl (fun m x => max m x.2) 0

/-- Static cycle count of the whole table, row 0 to END. -/
def staticCycles (t : SveTable) : Nat :=
  match endRow t with
  | some e => ((issueTimes (rowsOf t 0 (e + 1)) 1 []).getLast?).getD 0
  | none => 0

/-- The check of a shadow table (R248): the first failure, as reason and row; a failure that lies in no row has none. -/
def checkTable (t : SveTable) (period : Nat) : Option (Nat × Option Nat) :=
  let rows := List.range 512
  match rows.find? fun r => parityOf 64 (rowWord t r) with
  | some r => some (1, some r)
  | none =>
    match rows.find? fun r => !(rowLegal (rowOf (rowWord t r))) with
    | some r => some (2, some r)
    | none =>
      match rowsWith t 0x0C with
      | [] => some (3, none)
      | _ :: r :: _ => some (3, some r)
      | [sy] =>
        match endRow t with
        | none => some (4, none)
        | some e =>
          let span := match lastOut t with | some o => (rows.drop (sy + 1)).take (o - sy) | none => []
          let macs := span.filter fun r => isMac (bits (rowWord t r) 63 59)
          let bad := (span.filter fun r => bits (rowWord t r) 63 59 == 0x06) ++ macs.drop 8
          match bad.mergeSort (· ≤ ·) with
          | r :: _ => some (5, some r)
          | [] =>
            match (latchTimes t).find? fun x => 36 < x.2 with
            | some x => some (6, some x.1)
            | none => if period * 9 < staticCycles t * 10 then some (7, some e) else none

end Sys2Proof.Machine
end

