-- ==== Sys2Proof/Machine/Servo.lean ====
section
/-!
DEFINITION. The servo control engines SVE0-3: samples, seek and settle, plausibility, shock, the retract path, optical
holds, jumps and sweeps, table swaps, trace buffers (11_servo_control_engine.md).
-/

set_option Elab.async false

namespace Sys2Proof.Machine

open Sys2Proof

/-! ### Lines, counters, mailbox and tables -/

/-- Line 288 + 8n + k. -/
def sveLine (n k : Nat) (s : State) : State := raiseLine (288 + 8 * n + k) s

/-- Counter k of an engine (R219): a wrap sets its sticky bit and raises line 288 + 8n + 7. -/
def sveBump (n : Fin 5) (k amount : Nat) (s : State) : State :=
  let (c, w) := wrapAdd (vget s.sve[n].cnt k 0) amount
  let s := s.modSve n fun v =>
    { v with cnt := vmod v.cnt k fun _ => c, wrap := if w then v.wrap ||| 1 <<< k else v.wrap }
  if w then sveLine n 7 s else s

/-- What the rows of engine n read. -/
def rowCtx (n : Fin 5) (v : Sve) : RowCtx :=
  { inp := fun k => vget v.inp k 0
    mail := fun k => signed 16 (sget 0 k v.mail)
    coef := fun c => coefAt v.active c
    valid := fun a => v.pesOk || !(a == 0x100 || a == 0x101)
    spindle := n.val == 4 }

/-- Rows run on an engine's state words and accumulators, after what the sample's strikes and trace values are so far; the
counters take their strikes and saturations (R243, R256). -/
def runRows (n : Fin 5) (lo hi c0 c1 : Nat) (tr : List (Nat × Int)) (s : State) : State × RowRun :=
  let v := s.sve[n]
  let r := execRows (rowCtx n v) (rowsOf v.active lo hi)
    { s := v.s, acc := v.acc, outs := [], tr := tr, strikes0 := c0, strikes1 := c1, strikesAll := 0, sats := 0 }
  let s := s.modSve n fun v => { v with s := r.s, acc := r.acc }
  let s := if r.strikesAll = 0 then s else sveBump n 1 r.strikesAll s
  (if r.sats = 0 then s else sveBump n 3 r.sats s, r)

/-- A UNITGO to SVEn takes effect (R253): offset, settle window and count. -/
def applyUnit (n : Fin 5) (s : State) : State :=
  match s.sve[n].unitPend with
  | none => s
  | some u =>
    let off := signed 12 (bits u 29 18)
    let s := s.modSve n fun v => { v with
      unitPend := none
      settled := v.settled && v.offset == off
      settleRun := if v.offset = off then v.settleRun else 0
      offset := off
      swin := if bits u 17 12 = 0 then v.swin else bits u 17 12
      scnt := if bits u 11 6 = 0 then v.scnt else bits u 11 6 }
    waitComes (finCh n) 15 s

/-- The shadow mailbox copied to MAIL0-63 (R249). -/
def commitMail (n : Fin 5) (s : State) : State :=
  let m := (List.range 64).foldl (fun l k => sput 0 k (fld .sveMail n k 15 0 s) l) []
  s.modSve n fun v => { v with mail := m, mailPend := false }

/-- A checked table becomes active, and the former one the shadow (R248). -/
def swapTables (n : Fin 5) (s : State) : State :=
  let s := s.modSve n fun v => { v with
    active := v.shadow, shadow := v.active, pend := false, res := 1, static_ := staticLat v.shadow }
  sveLine n 4 s

/-- A sample boundary (R249): first the mailbox, then the swap; a UNITGO takes effect too. -/
def sampleBound (n : Fin 5) (s : State) : State :=
  let s := applyUnit n s
  let s := if s.sve[n].mailPend then commitMail n s else s
  if s.sve[n].pend then swapTables n s else s

/-! ### Trace (R265) -/

/-- A trace trigger is taken in mode STOP: it marks the sample and POST samples follow from it on. -/
def traceTake (n : Fin 5) (s : State) : State :=
  let v := s.sve[n]
  if v.trRun && !v.trTrig && fld .trctl n 0 29 28 s != 0 then
    let post := fld .trctl n 0 12 0 s
    let s := s.modSve n fun v => { v with trTrig := true, trIdx := v.trNext, trLeft := post, trRun := post != 0 }
    if post = 0 then sveLine n 5 s else s
  else s

/-- A trigger of the kind that TRCTL bit k enables. -/
def traceTrigger (n : Fin 5) (k : Nat) (s : State) : State :=
  if fld .trctl n 0 k k s = 1 then traceTake n s else s

/-- The last value sent to a trace channel in a sample, or 0x8000. -/
def lastTrace (r : RowRun) (c : Nat) : Nat :=
  match (r.tr.filter fun x => x.1 == c).getLast? with
  | some x => field 16 x.2
  | none => 0x8000

/-- A sample stored in the trace buffers. -/
def traceStore (n : Fin 5) (r : RowRun) (s : State) : State :=
  let s := if fld .trthr n 0 15 0 s < (signed 16 (lastTrace r 0)).natAbs then traceTrigger n 26 s else s
  let v := s.sve[n]
  if v.trRun then
    let tr := (List.range 4).foldl (fun l c => sput 0 (c * 8192 + v.trNext) (lastTrace r c) l) v.trace
    let left := if v.trTrig then v.trLeft - 1 else v.trLeft
    let stop := v.trTrig && left == 0
    let s := s.modSve n fun v => { v with
      trace := tr, trNext := (v.trNext + 1) % 8192, trWrap := v.trWrap || v.trNext == 8191
      trLeft := left, trRun := !stop }
    if stop then sveLine n 5 s else s
  else s

/-! ### Faults (R257) -/

/-- A fault decision of the engine: one event with its cause mask, its line and the removal of the gates (R19). -/
def servoDecide (n : Fin 4) (mask : Nat) (s : State) : State :=
  let s := ev .sve 0x0601 n mask s.sve[sveOf n].wedge s
  let s := sveLine n 0 (sveBump (sveOf n) 2 1 s)
  let s := if mask.testBit 0 then healthAdd .plausibility n 1 s else s
  faultDecision n 0x0601 (traceTrigger (sveOf n) 25 s)

/-- The WG control of the channel is high. -/
def wgHigh (n : Fin 4) (s : State) : Bool := level n 31 s

/-- abs(PES) above the effective write-unsafe limit (R257). -/
def beyondLimit (n : Fin 4) (pes : Int) (s : State) : Bool :=
  let v := s.sve[sveOf n]
  let ign := v.shockIgn[0] || v.shockIgn[1]
  let f := if ign then fld .wulim n 0 31 16 s else 2 ^ 15
  fld .wulim n 0 15 0 s * f < pes.natAbs * 2 ^ 15

/-! ### Ends of seeks, jumps and focus -/

/-- A change of FOCUSED on a pickup. -/
def setFocused (n : Fin 4) (on : Bool) (s : State) : State :=
  if s.opt.pu[n].focused = on then s
  else setIrqStat .opt 0 (1 + n) (s.modPu n fun p => { p with focused := on })

/-- SEEK_OK and WAIT 10 at the end of a seek, jump or sweep; a failure records 0x0603. -/
def seekEnd (n : Fin 4) (ok : Bool) (reason : Nat) (s : State) : State :=
  let s := s.modSve (sveOf n) fun v => { v with seeking := false, seekPend := false, seekOk := ok }
  let s := if ok then s else ev .sve 0x0603 n reason s.sve[sveOf n].target s
  sveLine n 2 (waitComes n 10 s)

/-- A seek or load that ends at once with SEEK_OK false (R312, PRESENT = 0). -/
def seekRefused (n : Fin 4) (s : State) : State :=
  sveLine n 2 (waitComes n 10 (s.modSve (sveOf n) fun v => { v with seekOk := false }))

/-- The seek that OPT carries out ends. -/
def optSeekIdle (n : Fin 4) (s : State) : State :=
  s.modPu n fun p => { p with seek := false, sphase := .idle, sledCmd := 0, await := false, sledUs := 0 }

/-- OPT started the jump under way. -/
def moveByOpt : SveMove → Bool
  | .jump _ _ _ _ _ _ b => b
  | _ => false

/-- A jump or sweep ends. -/
def moveEnd (n : Fin 4) (ok : Bool) (reason : Nat) (s : State) : State :=
  let byOpt := moveByOpt s.sve[sveOf n].move
  let s := s.modSve (sveOf n) fun v => { v with move := .none }
  if byOpt && ok then s.modPu n fun p => { p with await := true, fresh := true, age := 0 }
  else
    let s := if byOpt = true then optSeekIdle n s else s
    seekEnd n ok reason s

/-- Whatever seek, jump or sweep is under way ends without success. -/
def abandonMoves (n : Fin 4) (reason : Nat) (s : State) : State :=
  let v := s.sve[sveOf n]
  if v.move ≠ .none then moveEnd n false reason s
  else if v.seeking || v.seekPend || s.opt.pu[n].seek then seekEnd n false reason (optSeekIdle n s)
  else s

/-! ### The retract path (R259) -/

/-- A signed code in 1/128 of full scale from mid-scale as a DAC code. -/
def retCode (v : Nat) : Nat := dacCode (signed 8 v * 256)

/-- The retract path starts; a start while it is active has no effect. `decided`: the fault decision has been made in
the same sample. -/
def retractStart (n : Fin 4) (reason : Nat) (decided : Bool) (s : State) : State :=
  let e := sveOf n
  if s.sve[e].retract then s
  else
    let s := s.modSve e fun v => { v with retract := true, retAt := s.us }
    let s := if decided then s else servoDecide n 0x20 s
    let s := ev .sve 0x0602 n reason (s.sve[e].tracked.getD s.sve[e].target) s
    let s := sveLine n 1 (sveBump e 7 1 (traceTrigger e 27 s))
    let s := abandonMoves n 1 s
    let s := if optical s then setFocused n false (s.modPu n fun p => { p with capturing := false }) else s
    let bias := fld .retractReg n 0 15 8 s
    let vcm := fld .retractReg n 0 7 0 s
    s.modSve e fun v => { v with
      run := false, onTrack := false, hold := false, loading := false
      cda := ((v.cda.set 1 0x8000).set 0 (retCode vcm)).set 2
        (if v.cdaFault.contains 2 then v.cda[2] else retCode bias) }

/-- Every present engine with LOADED = 1 starts its retract path. -/
def retractLoaded (reason : Nat) (s : State) : State :=
  (channels s).foldl (fun s n => if s.sve[sveOf n].loaded then retractStart n reason false s else s) s

/-- SVEn_RETRACT.GO. -/
def writeRetract (n : Fin 4) (v : Nat) (s : State) : State :=
  let s := storeFields .retractReg n 0 v s
  if v.testBit 31 then retractStart n 4 false s else s

def execRetractGo (_m : Master) (n : Fin 4) (s : State) : Out :=
  .next <| access .sve n (Reg.addr .retractReg n 0) (retractStart n 4 false) s

/-- RETTIME passes (R259 step 4). -/
def retractEnd (n : Fin 4) (s : State) : State :=
    let e := sveOf n
    if s.sve[e].retract then
      let s := advanceTo (s.sve[e].retAt + 1000 * zeroAsOne (fld .retractReg n 0 23 16 s)) s
      s.modSve e fun v => { v with
        retract := false, loaded := false, unloading := false, tracked := none
        cda := (v.cda.set 0 0x8000).set 2 (if v.cdaFault.contains 2 then v.cda[2] else 0x8000) }
    else s

/-! ### Focus, jumps and sweeps (R261-R263) -/

/-- The park code of the focus sweep: START. -/
def parkCode (n : Fin 4) (s : State) : Nat := fld .fsweep0 n 0 31 16 s

/-- A jump starts: the DAC of its axis holds its present output, and the next address need not follow the last (R304). -/
def jumpStart (n : Fin 4) (focus dir : Bool) (count : Nat) (byOpt : Bool) (s : State) : State :=
  let held := if focus then s.sve[sveOf n].cda[0] else s.sve[sveOf n].cda[1]
  let left := if focus then count else 2 * count - 1
  (s.modPu n fun p => { p with fresh := true }).modSve (sveOf n) fun v => { v with
    move := .jump focus dir left 0 0 held byOpt, seekUs := s.us, onTrack := false, seekOk := false }

/-- A write of SVEn_JUMP: GO starts a jump in the optical personality. -/
def writeJump (n : Fin 4) (v : Nat) (s : State) : State :=
  let s := storeFields .jumpReg n 0 v s
  if v.testBit 31 && optical s && !(s.sve[sveOf n].retract) && s.sve[sveOf n].move == .none then
    jumpStart n (v.testBit 30) (v.testBit 29) (bits v 23 16) false s
  else s

def execJumpGo (_m : Master) (n : Fin 4) (v : Word) (s : State) : Out :=
  .next <| access .sve n (Reg.addr .jumpReg n 0) (writeJump n (v.toNat ||| 2 ^ 31)) s

/-- A focus sweep starts (R263). -/
def sweepStart (n : Fin 4) (s : State) : State :=
  let st := parkCode n s
  let s := s.modPu n fun p => { p with loadAt := now s, capturing := false }
  s.modSve (sveOf n) fun v => { v with
    move := .sweep st, cda := v.cda.set 0 st, onTrack := false, seekUs := s.us, seekOk := false }

/-- A write of SVEn_FSWEEP1: GO starts the ramp in the optical personality. -/
def writeSweep (n : Fin 4) (v : Nat) (s : State) : State :=
  let s := storeFields .fsweep1 n 0 v s
  if v.testBit 31 && optical s && !(s.sve[sveOf n].retract) then sweepStart n s else s

def execFocusSweepGo (_m : Master) (n : Fin 4) (v : Word) (s : State) : Out :=
  .next <| access .sve n (Reg.addr .fsweep1 n 0) (writeSweep n (v.toNat ||| 2 ^ 31)) s

/-- A ramp that ends without capture: the lens is parked. -/
def sweepFail (n : Fin 4) (code : Nat) (s : State) : State :=
  let s := moveEnd n false 3 s
  let s := s.modSve (sveOf n) fun v => { v with cda := v.cda.set 0 (parkCode n s), loading := false, loaded := false }
  ev .opt 0x0902 n code 0 (setFocused n false s)

/-- One sample of a jump: crossings are counted, then the brake lasts as long as the kick, then the first sample within
DONEWIN ends it. -/
def jumpSample (n : Fin 4) (inp : ServoIn) (s : State) : State :=
  let e := sveOf n
  match s.sve[e].move with
  | .jump focus dir left stage k held byOpt =>
    let set := fun m (s : State) => s.modSve e fun v => { v with move := m }
    if inp.passed then moveEnd n false 2 s
    else if stage = 0 then
      if left ≤ inp.crossings then set (.jump focus dir 0 (if k = 0 then 2 else 1) k held byOpt) s
      else set (.jump focus dir (left - inp.crossings) 0 (k + 1) held byOpt) s
    else if stage = 1 then set (.jump focus dir 0 (if k ≤ 1 then 2 else 1) (k - 1) held byOpt) s
    else
      let err := if focus then inp.sad[0] else inp.sad[1]
      if err.natAbs ≤ fld .seekcfg n 0 15 8 s * 128 then moveEnd n true 0 s else s
  | _ => s

/-- One sample of a focus sweep. -/
def sweepSample (n : Fin 4) (inp : ServoIn) (s : State) : State :=
  let e := sveOf n
  match s.sve[e].move with
  | .sweep code =>
    let stop := fld .fsweep0 n 0 15 0 s
    let step := fld .fsweep1 n 0 15 8 s
    let up := parkCode n s ≤ stop
    let c := if up then min (code + step) stop else max (code - step) stop
    let s := s.modSve e fun v => { v with move := .sweep c, cda := v.cda.set 0 c }
    if (fld .fsweep1 n 0 7 0 s * 128 : Int) < inp.sad[4] && inp.crossings != 0 then
      let s := s.modSve e fun v => { v with
        s := sput 0 (fld .fsweep1 n 0 23 16 s) ((c : Int) - 32768) v.s, loading := false }
      let s := s.modPu n fun p => { p with capturing := true, fresh := true, aValid := false, age := 0 }
      moveEnd n true 0 s
    else if c = stop then sweepFail n c s
    else s
  | _ => s

/-- The hold of R261 in a sample: whether it has just begun. -/
def holdSample (n : Fin 4) (inp : ServoIn) (s : State) : State × Bool :=
  let e := sveOf n
  let v := s.sve[e]
  let k := let x := fld .wsumk 0 0 15 0 s; if x = 0 then 0x1000 else x
  let sumlo := fld .holdReg n 0 31 16 s
  let low := if s.rwc[n].wg then decide (inp.sad[4] * 4096 < (sumlo * k : Int)) else decide (inp.sad[4] < (sumlo : Int))
  let bad := low || s.rwc[n].inDefect
  if v.hold then
    if bad then (s.modSve e fun v => { v with holdClean := 0 }, false)
    else (s.modSve e fun v => { v with holdClean := v.holdClean + 1, hold := v.holdClean == 0 }, false)
  else if bad && v.loaded && !(match v.move with | .sweep _ => true | _ => false) then
    (sveBump e 6 1 (s.modSve e fun v => { v with hold := true, holdClean := 0, holdUs := s.us }), true)
  else (s, false)

/-- A hold that has lasted HOLDMAX: focus is lost (R261). -/
def execFocusLost (n : Fin 4) (s : State) : Out :=
  .next <|
    let e := sveOf n
    if s.sve[e].hold then
      let max_ := min 400 (zeroAsOne (fld .holdReg n 0 8 0 s))
      let s := advanceTo (s.sve[e].holdUs + max_) s
      let len := s.us - s.sve[e].holdUs
      let s := s.modSve e fun v => { v with
        hold := false, loaded := false, loading := false, onTrack := false
        cda := (v.cda.set 0 (parkCode n s)).set 1 0x8000 }
      let s := setFocused n false (s.modPu n fun p => { p with capturing := false })
      let s := abandonMoves n 1 s
      sveLine n 1 (ev .sve 0x0608 n len 0 s)
    else s

/-! ### Inputs of a sample (R250, R252, R260, R310) -/

/-- An indicator input: 0x4000 while true. -/
def indicator (b : Bool) : Int := if b then 0x4000 else 0

/-- The inputs of the magnetic personality. A missed wedge brings no demodulation; neither does a burst below 25 % of its
expected amplitude (R250). DOWN of the head's entry has no effect: the manual gives it none on the position (log 148). -/
def magneticInputs (n : Fin 4) (inp : ServoIn) (missed : Bool) (s : State) : State :=
  let e := sveOf n
  let v := s.sve[e]
  let near := match v.tracked with
    | some t => v.seeking || v.loading || (((inp.track : Int) - t).natAbs ≤ fld .plcfg n 0 23 16 s)
    | none => true
  let ok := !missed && inp.demodOk && decide (8192 ≤ inp.ampl) && v.dgValid && near
  let f := roundDiv ((v.dgG : Int) * ((inp.ratio : Int) - 2048)) (2 ^ 9) + v.dgX0
  let d := ((inp.track : Int) - v.target) * 32768 + f - v.offset * 32
  let pes := if ok then sat16 d else 0
  let posc := if ok then sat16 (roundDiv d (2 ^ fld .seekcfg n 0 3 0 s)) else 0
  let l : List Int := [pes, posc, sat16 inp.ampl, 0] ++ inp.sad.toList
    ++ [indicator v.seeking, indicator v.loading, indicator v.unloading]
  s.modSve e fun v => { v with
    inp := Vector.ofFn fun i => l.getD i.val 0
    pesOk := ok
    tracked := if ok then some inp.track else v.tracked
    wedge := inp.wedge
    loadRun := if ok then v.loadRun + 1 else 0 }

/-- The pickup is jumping: a jump is under way, or OPT has opened tracking for a sled move. -/
def jumping (n : Fin 4) (s : State) : Bool :=
  (match s.sve[sveOf n].move with | .jump .. => true | _ => false) || (s.opt.pu[n].sphase == .sled && !s.opt.pu[n].await)

/-- The inputs of the optical personality. -/
def opticalInputs (n : Fin 4) (inp : ServoIn) (s : State) : State :=
  let e := sveOf n
  let v := s.sve[e]
  let p := s.opt.pu[n]
  let (jt, jf) := match v.move with
    | .jump focus _ _ stage _ _ _ => (!focus && stage < 2, focus && stage < 2)
    | _ => (p.sphase == .sled && !p.await, false)
  let te := if v.hold || jt then 0 else sat16 inp.sad[1]
  let fe := if v.hold || jf then 0 else sat16 inp.sad[0]
  let acq := v.loading || (match v.move with | .sweep _ => true | _ => false)
  let l : List Int := [te, fe, 0, 0] ++ inp.sad.toList
    ++ [indicator (jumping n s), indicator acq, indicator v.hold, 0]
    ++ [signed 16 (fld .optLay 0 (4 * n + p.saLayer) 31 16 s), signed 16 (fld .optLay 0 (4 * n + p.layer) 15 0 s), p.sledCmd]
  s.modSve e fun v => { v with inp := Vector.ofFn fun i => l.getD i.val 0, pesOk := true }

/-! ### The sample (R241, R254-R257) -/

/-- The values that OUT rows send reach their ports, but for a port that something else governs (R255, R262, R263). -/
def applyOuts (n : Fin 4) (outs : List (Nat × Int)) (s : State) : State :=
  let e := sveOf n
  let v := s.sve[e]
  let blocked := fun k => (k == 1 && v.maFault) ||
    match v.move with
    | .jump focus _ _ stage _ _ _ => stage < 2 && k == (if focus then 0 else 1)
    | .sweep _ => k == 0
    | .none => false
  let s := outs.foldl (fun s (k, a) =>
    if blocked k || v.retract then s else s.modSve e fun v => { v with cda := vmod v.cda k fun _ => dacCode a }) s
  match v.move with
  | .jump focus dir _ stage _ held _ =>
    let kick := (fld .jumpReg n 0 7 0 s * 256 : Int)
    let brake := (fld .jumpReg n 0 15 8 s * 256 : Int)
    let d : Int := if dir then -1 else 1
    let x : Int := if stage = 0 then held + d * kick else held - d * brake
    if stage < 2 then
      s.modSve e fun v => { v with cda := vmod v.cda (if focus then 0 else 1) fun _ => (clamp 0 65535 x).toNat }
    else s
  | _ => s

/-- ON_TRACK after a sample (R254, R306). -/
def trackOk (n : Fin 4) (pes : Int) (strike0 : Bool) (s : State) : Bool :=
  let v := s.sve[sveOf n]
  let p := s.opt.pu[n]
  v.run && v.pesOk && !strike0 && !(beyondLimit n pes s) && !v.seeking && !v.loading && !v.unloading && !v.retract
    && hasGuardRow v.active
    && (!(optical s) || (!v.hold && v.move == .none && !(jumping n s) && p.aValid && p.age ≤ 2
          && p.aLayer == bits s.asq[n].atask[0].toNat 23 18 % 4))

/-- Seek end, settle, loading and on-track after the rows of a sample (R254). -/
def judgeSample (n : Fin 4) (strike0 : Bool) (s : State) : State :=
  let e := sveOf n
  let pes := vget s.sve[e].inp 0 0
  let ok := s.sve[e].pesOk
  let s := if s.sve[e].seeking && ok && pes.natAbs ≤ fld .seekcfg n 0 15 8 s * 128 then seekEnd n true 0 s else s
  let v := s.sve[e]
  let run := if ok && pes.natAbs ≤ v.swin * 128 then v.settleRun + 1 else 0
  let becomes := !v.settled && v.scnt ≤ run && run != 0
  let s := s.modSve e fun v => { v with
    settleRun := run, settled := v.settled || becomes, loading := v.loading && (optical s || v.loadRun < 8) }
  let s := if becomes then sveLine n 3 (waitComes n 11 s) else s
  let t := trackOk n pes strike0 s
  s.modSve e fun v => { v with onTrack := t }

/-- The events of a passing wedge: WAIT 2, and WAIT 3 for the wedge that PARAM names (R173, R305). -/
def wedgePasses (n : Fin 4) (w : Nat) (s : State) : State :=
  let s := waitComes n 2 s
  if bits (mwParam s.asq[n].word) 8 0 = w then waitComes n 3 s else s

/-- A sample that the conversion delivered late (R251). -/
def lateSample (n : Fin 4) (inp : ServoIn) (missed : Bool) (s : State) : State :=
  if inp.late ≠ 0 && !missed then
    let s := s.modSve (sveOf n) fun v => { v with maxLate := max v.maxLate (min inp.late 0xFFFF) }
    ev .sve 0x0605 n inp.late s.sve[sveOf n].wedge (sveBump (sveOf n) 4 1 s)
  else s

/-- What a sample brings to the engine: a seek that waits begins, holds, sweeps and jumps go on, the inputs are set.
The flag: a hold began. -/
def sampleTakes (n : Fin 4) (inp : ServoIn) (missed : Bool) (s : State) : State × Bool :=
  let s := s.modSve (sveOf n) fun v => { v with seeking := v.seeking || v.seekPend, seekPend := false }
  let h := if optical s then holdSample n inp s else (s, false)
  let s := if optical h.1 then opticalInputs n inp (sweepSample n inp (jumpSample n inp h.1))
    else magneticInputs n inp missed h.1
  (lateSample n inp missed (if missed then sveBump (sveOf n) 5 1 s else s), h.2)

/-- The values that OUT rows send reach the ports of their engine: CDAn_k, or the ports of SVE4 (R264). -/
def sveOuts (n : Fin 5) (outs : List (Nat × Int)) (s : State) : State :=
  if h : n.val < 4 then applyOuts ⟨n.val, h⟩ outs s
  else s.modSve n fun v => { v with port := outs.foldl (fun p (k, a) => vmod p k fun _ => a) v.port }

/-- The pre-phase of a sample: the rows up to SYNC. Its strikes and trace values stand by for the sample's end. -/
def prePhase (n : Fin 5) (s : State) : State :=
  let x := runRows n 0 (syncRow s.sve[n].active) 0 0 [] s
  sveOuts n x.2.outs (x.1.modSve n fun v => { v with pre0 := x.2.strikes0, pre1 := x.2.strikes1, preTr := x.2.tr })

/-- The critical span and the update phase: the rows after SYNC up to END. -/
def mainPhase (n : Fin 5) (s : State) : State × RowRun :=
  let v := s.sve[n]
  let x := runRows n (syncRow v.active + 1) ((endRow v.active).getD 512) v.pre0 v.pre1 v.preTr s
  (sveOuts n x.2.outs x.1, x.2)

/-- The runs of strikes (R256). -/
def sampleStrikes (n : Fin 4) (r : RowRun) (s : State) : State :=
  let s := s.modSve (sveOf n) fun v => { v with
    strikes := if r.strikes0 = 0 then 0 else min 15 (v.strikes + r.strikes0)
    maStrikes := if r.strikes1 = 0 then 0 else v.maStrikes + r.strikes1 }
  if r.strikes0 = 0 then s else traceTrigger (sveOf n) 24 s

/-- The run of strikes of class 0 has reached its limit. -/
def strikesLost (n : Fin 4) (r : RowRun) (s : State) : Bool :=
  r.strikes0 != 0 && zeroAsOne (fld .plcfg n 0 31 28 s) ≤ s.sve[sveOf n].strikes

/-- The run of strikes of class 1 has reached its limit, and the fault is new. -/
def maFaultNew (n : Fin 4) (r : RowRun) (s : State) : Bool :=
  let v := s.sve[sveOf n]
  !v.maFault && r.strikes1 != 0 && zeroAsOne (fld .plcfg n 0 27 24 s) ≤ v.maStrikes

/-- The micro-actuator is faulted (R255). -/
def maFaulted (n : Fin 4) (s : State) : State :=
  ev .sve 0x0606 n s.asq[n].head 0 (s.modSve (sveOf n) fun v => { v with maFault := true, cda := v.cda.set 1 0x8000 })

/-- The causes that a sample hands to the write-unsafe decision (R254, R255). -/
def sampleMask (n : Fin 4) (r : RowRun) (began maNew : Bool) (s : State) : Nat :=
  let wg := wgHigh n s
  flag (wg && r.strikes0 != 0) 0 + flag (wg && beyondLimit n (vget s.sve[sveOf n].inp 0 0) s) 1 + flag maNew 3
    + flag (wg && began) 4 + flag (strikesLost n r s && !s.sve[sveOf n].retract) 5

/-- What a sample decides: the micro-actuator's fault, the write-unsafe decision, settling, the retract. -/
def sampleActs (n : Fin 4) (r : RowRun) (began : Bool) (s : State) : State :=
  let maNew := maFaultNew n r s
  let s := if maNew then maFaulted n s else s
  let lost := strikesLost n r s
  let mask := sampleMask n r began maNew s
  let s := if mask = 0 then s else servoDecide n mask s
  let s := judgeSample n (r.strikes0 != 0) s
  if lost then retractStart n 0 true s else s

/-- The end of a sample: the trace, the boundary, and the preparing phase of the next sample. -/
def sampleEnds (n : Fin 4) (r : RowRun) (s : State) : State :=
  let s := sampleBound (sveOf n) (traceStore (sveOf n) r s)
  if s.sve[sveOf n].run then prePhase (sveOf n) s else s

/-- A sample of SVE0-3. -/
def servoSample (n : Fin 4) (inp : ServoIn) (missed : Bool) (s : State) : State :=
  let e := sveOf n
  let x := sampleTakes n inp missed s
  if !x.1.sve[e].run then judgeSample n false x.1
  else
    let y := mainPhase e (sveBump e 0 1 x.1)
    sampleEnds n y.2 (sampleActs n y.2 x.2 (sampleStrikes n y.2 y.1))

/-- The engine of a channel works: it exists, its domains are on, and no freeze or reset holds it. -/
def sveLive (n : Fin 4) (s : State) : Bool := chanExists n s && chanOn n s && !(heldBlk .sve n s)

def execSampleTrigger (n : Fin 4) (inp : ServoIn) (s : State) : Out :=
  .next <|
    if sveLive n s then
      let s := servoSample n inp false s
      if optical s then s else wedgePasses n inp.wedge s
    else s

def execSyncTimeout (n : Fin 4) (inp : ServoIn) (s : State) : Out :=
  .next <|
    if sveLive n s && !(optical s) then wedgePasses n inp.wedge (servoSample n inp true s) else s

/-! ### Tables, mailbox, run (R248, R249) -/

/-- SVEn_SWAP.GO: the shadow table is checked (R248). -/
def swapGo (n : Fin 5) (s : State) : State :=
  let v := s.sve[n]
  if v.pend then s
  else
    match checkTable v.shadow (fld .sveCfg n 0 15 0 s) with
    | none => s.modSve n fun v => { v with pend := true, swapped := true, res := 0, reason := 0, row := 0 }
    | some (r, some row) =>
      sveLine n 4 (ev .sve 0x0604 n r row (s.modSve n fun v => { v with res := 2, reason := r, row := row }))
    | some (r, none) =>
      let row := draw 512 s
      sveLine n 4 (ev .sve 0x0604 n r row (s.drawn.modSve n fun v => { v with res := 2, reason := r, row := row }))

def execTableSwapGo (_m : Master) (n : Fin 5) (s : State) : Out :=
  .next <| access .sve n (Reg.addr .sveSwap n 0) (swapGo n) s

/-- The next sample boundary of an engine that has a checked swap (R248, R249). -/
def execTableSwap (n : Fin 5) (s : State) : Out :=
  .next <|
    if s.sve[n].pend && !(heldBlk .sve n s) then
      let s := sampleBound n s
      if s.sve[n].run then prePhase n s else s
    else s

/-- SVEn_MAILCMT: the mailbox is copied at the next sample boundary. -/
def mailCommit (n : Fin 5) (s : State) : State := s.modSve n fun v => { v with mailPend := true }

def execMailCommit (_m : Master) (n : Fin 5) (s : State) : Out :=
  .next <| access .sve n (Reg.addr .mailcmt n 0) (mailCommit n) s

/-- The table starts: a boundary, then the pre-phase; the ports of SVE4 are 0. -/
def engineStart (n : Fin 5) (s : State) : State :=
  let s := sampleBound n (s.modSve n fun v => { v with port := if n = 4 then Vector.replicate 4 0 else v.port })
  let s := s.modSve n fun v => { v with run := true }
  prePhase n s

/-- A write of SVEn_CFG: RUN is refused until a swap has been accepted, and while the retract path runs. -/
def writeSveCfg (n : Fin 5) (v : Nat) (s : State) : State :=
  let s := setReg .sveCfg n 0 (v % 2 ^ 16) s
  let x := s.sve[n]
  if v.testBit 31 then
    if x.swapped && !x.retract && !x.run then engineStart n s else s
  else if x.run then
    let s := s.modSve n fun v => { v with run := false, onTrack := false }
    if h : n.val < 4 then
      if x.loaded then retractStart ⟨n.val, h⟩ 3 false s else s
    else s
  else s

def execEngineRun (_m : Master) (n : Fin 5) (v : Word) (s : State) : Out :=
  .next <| access .sve n (Reg.addr .sveCfg n 0) (writeSveCfg n v.toNat) s

/-! ### Time limits, shock, converter faults (R66, R254, R258) -/

/-- A seek or jump reaches TIMEOUT (R254, R262). -/
def execSeekTimeout (n : Fin 4) (s : State) : Out :=
  .next <|
    let v := s.sve[sveOf n]
    if v.seeking || v.seekPend || s.opt.pu[n].seek || v.move ≠ .none then
      abandonMoves n 0 (advanceTo (v.seekUs + 10 * fld .seekcfg n 0 31 16 s) s)
    else s

/-- A conversion of a shock axis (R258). -/
def execShockConversion (n : Fin 4) (axis : Fin 2) (val : Int) (s : State) : Out :=
  .next <|
    let e := sveOf n
    if sveLive n s && !(optical s) && !s.sve[e].shockIgn[axis] then
      let warn := fld .shock n 0 15 0 s < val.natAbs
      let first := warn && !s.sve[e].shockWarn[axis]
      let s := s.modSve e fun v => { v with shockWarn := v.shockWarn.set axis warn }
      let s := if first then sveLine n 6 s else s
      if fld .shock n 0 31 16 s < val.natAbs then
        let s := ev .sve 0x0607 n axis.val (par val) s
        if wgHigh n s then servoDecide n 4 s else s
      else s
    else s

/-- A shock axis found open or stuck is ignored (R66). -/
def execShockSensorFault (n : Fin 4) (axis : Fin 2) (s : State) : Out :=
  .next <|
    let e := sveOf n
    if sveLive n s && !(optical s) && !s.sve[e].shockIgn[axis] then
      ev .sve 0x0613 n axis.val 0
        (s.modSve e fun v => { v with shockIgn := v.shockIgn.set axis true, shockWarn := v.shockWarn.set axis false })
    else s

/-- A CDA output found shorted (R66): the gates go by the R19 path; DAC0 and DAC1 start the retract path, DAC2 unloads
the heads under servo and bars further loads. -/
def execCdaShort (n : Fin 4) (k : Fin 4) (s : State) : Out :=
  .next <|
    let e := sveOf n
    if chanExists n s && chanOn n s && !(s.sve[e].cdaFault.contains k.val) then
      let s := ev .sve 0x0612 n k.val 0 (s.modSve e fun v => { v with cdaFault := insertNat k v.cdaFault })
      if k.val ≤ 1 then retractStart n 2 false (gatesOff n s)
      else
        let s := faultDecision n 0x0612 s
        if k.val = 2 then s.modSve e fun v => { v with unloading := v.loaded, onTrack := false } else s
    else s

/-! ### Trace commands (R265) -/

/-- A write of SVEn_TRCTL. -/
def writeTrctl (n : Fin 5) (v : Nat) (s : State) : State :=
  let s := storeFields .trctl n 0 v s
  let s := if v.testBit 31 then s.modSve n fun v =>
      { v with trRun := true, trTrig := false, trWrap := false, trIdx := 0, trNext := 0, trLeft := 0 }
    else s
  if v.testBit 30 then traceTake n s else s

def execTraceStart (_m : Master) (n : Fin 5) (v : Word) (s : State) : Out :=
  .next <| access .sve n (Reg.addr .trctl n 0) (writeTrctl n (v.toNat ||| 2 ^ 31)) s

def execTraceStop (_m : Master) (n : Fin 5) (v : Word) (s : State) : Out :=
  .next <| access .sve n (Reg.addr .trctl n 0) (writeTrctl n (v.toNat ||| 2 ^ 30)) s

/-- A read of SVEn_TRDATA. -/
def readTrdata (n : Fin 5) (s : State) : State :=
  let v := s.sve[n]
  let d := sget 0 (v.trChan * 8192 + v.trAddr) v.trace
  let s := s.modSve n fun v => { v with trAddr := if v.trInc then (v.trAddr + 1) % 8192 else v.trAddr }
  { s with busData := d }

def execTraceRead (_m : Master) (n : Fin 5) (s : State) : Out :=
  .next <| access .sve n (Reg.addr .trdata n 0) (readTrdata n) s

/-! ### Pulses and UNITGO from the sequencer (R253, R254, R311) -/

/-- The demodulator entry of a head is loaded (R250). -/
def loadDemod (n : Fin 4) (head : Nat) (s : State) : State :=
  let a := fld .dgbase n 0 31 3 s * 8 + 8 * head
  let s := engLoad .sve (sveOf n) a 8 s
  let g := engRead a 2 s
  let x := signed 16 (engRead (a + 2) 2 s)
  let f := engRead (a + 4) 1 s
  s.modSve (sveOf n) fun v => { v with dgG := g, dgX0 := x, dgValid := f.testBit 0, dgDown := f.testBit 1 }

/-- SEEK_GO in the magnetic personality. -/
def seekGo (n : Fin 4) (track : Nat) (s : State) : State :=
  s.modSve (sveOf n) fun v => { v with
    target := track, seekPend := true, settled := false, settleRun := 0, onTrack := false, seekUs := s.us, seekOk := false }

/-- The LOAD pulse. -/
def loadPulse (n : Fin 4) (s : State) : State :=
  if s.sve[sveOf n].cdaFault.contains 2 then s
  else if optical s then
    if fld .puf 0 n 31 31 s = 0 then seekRefused n s
    else sweepStart n (s.modSve (sveOf n) fun v => { v with loading := true, loaded := true })
  else s.modSve (sveOf n) fun v => { v with
    loading := true, loaded := true, loadRun := 0, tracked := none, onTrack := false }

/-- The RETRACT pulse. -/
def retractPulse (n : Fin 4) (s : State) : State :=
  let s := s.modSve (sveOf n) fun v => { v with unloading := true, onTrack := false }
  if optical s then setFocused n false s else s

end Sys2Proof.Machine
end

