-- ==== Sys2Proof/Machine/Channel.lean ====
section
/-!
DEFINITION. The read and write channels RWC0-3: zone entries, priming and the write clock, readers, knob sets, framing,
defect spans and loops, the gates over a sector, statistics (09_read_write_channel.md, R66).
-/

set_option Elab.async false

namespace Sys2Proof.Machine

open Sys2Proof

/-- Direct line 328 + 4n + k. -/
def rwcLine (n k : Nat) (s : State) : State := raiseLine (328 + 4 * n + k) s

/-- The channel's block works: it exists, its domains are on, and no freeze or reset holds it. -/
def rwcLive (n : Fin 4) (s : State) : Bool := chanExists n s && chanOn n s && !(heldBlk .rwc n s)

/-- The head on the channel: the task's, or the last selected while no task is ACTIVE. -/
def rwHead (n : Fin 4) (s : State) : Nat := if s.asq[n].avalid then task n 0 23 18 s else s.asq[n].head

/-- The ACTIVE task has RECOV set. -/
def inRecov (n : Fin 4) (s : State) : Bool := task n 0 9 9 s == 1

/-! ### Zone entries (R195, R196, R198, R303) -/

/-- Where the zone entry of a head and recording zone stands. -/
def zoneAddr (n : Fin 4) (head zone : Nat) (s : State) : Nat := fld .ztbase n 0 31 5 s * 32 + 32 * (96 * head + zone)

/-- The zone entry of a head and recording zone. -/
def zoneAt (n : Fin 4) (head zone : Nat) (s : State) : ZoneEntry :=
  let a := zoneAddr n head zone s
  let f := fun i k => engRead (a + i) k s
  { tfirst := f 0 3, flags := f 3 1, lrate := f 4 2, dpw := f 6 3, databits := f 9 3, spt := f 12 2, code := f 14 1
    tpeg := f 15 1, kset := f 16 1, rdly := f 17 1, rwoff := f 18 2, precomp := f 20 3, wlead := f 23 1
    lglead := f 24 2, lglag := f 26 1, lpidx := f 27 1, tcount := f 28 3 }

/-- DATABITS of a magnetic CODE (table Magnetic LDPC codes). -/
def codeBits (code : Nat) : Nat := match code with | 0 => 36864 | 1 => 38016 | _ => 39168

/-- A field of the entry lies outside its range (R196 check 2, R223, R303). -/
def zoneRange (z : ZoneEntry) (s : State) : Bool :=
  let rd := signed 8 z.rdly
  let common := z.databits < 4096 || 131072 < z.databits || z.databits % 64 != 0 || 2 ^ 20 ≤ z.dpw || z.tpeg < 16 ||
    128 < z.tpeg || 31 < z.kset || rd < -16 || 15 < rd || 1023 < z.lglead || 2 < z.code
  if optical s then
    let wpa := fld .optFmt 0 0 18 8 s
    common || z.lrate < 100 || 1300 < z.lrate || z.code != 0 || z.databits != 16384 || z.dpw % wpa != 0 ||
      z.dpw / wpa < 64 || 8192 < z.dpw / wpa
  else common || z.lrate < 1000 || 7200 < z.lrate || z.databits != codeBits z.code

/-- Wedges of a track, or address units in the optical personality (R198, R218). -/
def trackWedges (s : State) : Nat := if optical s then fld .optFmt 0 0 28 19 s else 512

/-- The placement of R198 from wedge w and position pos for k more sectors: the sectors fit on the track. -/
def placeFits (dpw slen wedges : Nat) : Nat → Nat → Nat → Bool
  | 0, _, _ => true
  | k + 1, w, pos =>
    let (w, pos) := if dpw < pos + 2280 then (w + 1, 0) else (w, pos)
    let room := dpw - pos
    if slen ≤ room then w < wedges && placeFits dpw slen wedges k w (pos + slen)
    else
      let over_ := slen - room
      let more := (over_ - 1) / (dpw - 64)
      let w := w + 1 + more
      w < wedges && placeFits dpw slen wedges k w (64 + (over_ - more * (dpw - 64)))

/-- The layout rule places SPT sectors on the track (R198); a head region never runs across a wedge. -/
def layoutOk (z : ZoneEntry) (s : State) : Bool :=
  2280 ≤ z.dpw && placeFits z.dpw (z.databits + 224) (trackWedges s) z.spt 0 0

/-- The failing check of R196: 0 VALID, 1 OPT, 2 range, 3 track, 4 layout. -/
def zoneCheck (z : ZoneEntry) (track : Nat) (s : State) : Option Nat :=
  if !z.flags.testBit 0 then some 0
  else if z.flags.testBit 1 != optical s then some 1
  else if zoneRange z s then some 2
  else if track < z.tfirst ∨ z.tfirst + z.tcount ≤ track then some 3
  else if layoutOk z s then none else some 4

/-! ### Knob sets and the working adaptive state (R204, R205, R215) -/

/-- The 32 words of a knob set. -/
def knobWords (n : Fin 4) (k : Nat) (s : State) : List Word :=
  (List.range 32).map fun j => BitVec.ofNat 32 (reg .knob n (32 * (k % 32) + j) s)

/-- Word j of a list of words. -/
def wordAt (l : List Word) (j : Nat) : Word := l.getD j 0

/-- Coefficients that the reader mode forces to 0 are held there (R202). -/
def forceCoefs (n : Fin 4) (s : State) : State :=
  s.modRwc n fun r => { r with
    work := match r.rmode with
      | 0 => r.work
      | 2 => vmod (vmod r.work 24 fun _ => 0) 25 fun w => w &&& 0xFFFF0000
      | _ => vmod (vmod r.work 24 fun w => w &&& 0xFFFF) 25 fun _ => 0 }

/-- The settings of a knob set take effect: number, reader mode, enables, steps, thresholds. `mode` is the UNIT
field's choice, 0 for the knob set's own; JOINT and READER1 give READER0 where only reader 0 serves (R203, R218). -/
def loadSettings (n : Fin 4) (k mode : Nat) (l : List Word) (s : State) : State :=
  let own := bits (wordAt l 28).toNat 17 16
  let m := match mode with | 1 => 0 | 2 => 1 | 3 => 2 | _ => if own = 3 then 1 else own
  let m := if optical s || s.rwc[n].single.contains (rwHead n s) then 1 else m
  forceCoefs n (s.modRwc n fun r => { r with
    kset := k % 32, rmode := m, loopen := bits (wordAt l 28).toNat 29 24, mu := wordAt l 29, deff := wordAt l 30 })

/-- The coefficients of a knob set: bytes 0-113. The adaptive state that a knob set does not carry (gain codes, offsets,
asymmetry) is kept where it is known, and is a free value at a promotion that loads no saved state. -/
def loadCoefs (n : Fin 4) (l : List Word) (s : State) : State :=
  forceCoefs n (s.modRwc n fun r => { r with
    work := r.work.mapIdx fun i w =>
      if i < 28 then wordAt l i else if i = 28 then wordAt l 28 &&& 0xFFFF else w
    loopLim := 0 })

/-- A word of the adaptive state whose value the manual does not give: the bits of a mask take a free value. -/
def adaptWord (n : Fin 4) (i mask : Nat) (s : State) : State :=
  let d := draw (2 ^ 32) s
  s.drawn.modRwc n fun r => { r with
    work := vmod r.work i fun w => BitVec.ofNat 32 ((w.toNat &&& ((2 ^ 32 - 1) ^^^ mask)) ||| (d &&& mask)) }

/-- The address of a task's entry in the adaptive state table. -/
def adaptAddr (n : Fin 4) (s : State) : Nat :=
  fld .asbase n 0 31 7 s * 128 + 128 * (96 * task n 0 23 18 s + task n 0 17 11 s)

/-- Promotion: settings from the zone's default knob set, the working state from the table where its entry is VALID, and
from the knob set otherwise. -/
def loadAdaptive (n : Fin 4) (k : Nat) (s : State) : State :=
  let l := knobWords n k s
  let s := loadSettings n k 0 l s
  let a := adaptAddr n s
  let s := engLoad .rwc n a 128 s
  if (engRead (a + 127) 1 s).testBit 7 then
    forceCoefs n (s.modRwc n fun r => { r with
      loopLim := 0
      work := r.work.mapIdx fun i _ =>
        let w := BitVec.ofNat 32 (engRead (a + 4 * i) 4 s)
        if i = 28 || i = 29 || i = 31 then w &&& 0xFFFF else w })
  else adaptWord n 31 0xFFFF (adaptWord n 30 0xFFFFFFFF (adaptWord n 29 0xFFFF (loadCoefs n l s)))

/-- R195, R196, R204, R215: the entry is copied and checked, and its default knob set and the working state are
loaded. While it is bad the write clock does not lock. -/
def zoneCopy (n : Fin 4) (s : State) : State :=
  let h := task n 0 23 18 s
  let zn := task n 0 17 11 s
  let s := engLoad .rwc n (zoneAddr n h zn s) 32 s
  let z := zoneAt n h zn s
  let bad := zoneCheck z (task n 3 23 0 s) s
  let s := s.modRwc n fun r => { r with
    zone := some z, zoneBad := bad, fpPass := 0, everPrimed := false, priming := false, primeMiss := 0, loadPend := none
    syncFound := false, smaFound := false, smbFound := false, late := false, defect := false, reframed := false
    blindOk := false, searching := false, aClosed := false, blindPend := false
    locked := r.locked && bad.isNone, goodRun := if bad.isNone then r.goodRun else 0 }
  match bad with
  | some c => ev .rwc 0x0403 n (h * 96 + zn) c s
  | none => loadAdaptive n z.kset s

/-- A load of R205 takes effect. -/
def applyLoad (n : Fin 4) (f : Nat) (l : List Word) (s : State) : State :=
  let s := s.modRwc n fun r => { r with loadPend := none }
  let s := loadSettings n (bits f 29 25) (bits f 24 23) l s
  if f.testBit 22 then loadCoefs n l s else s

/-- UNITGO to RWCn (R205): at once, or from the next sector's preamble while a sector is in progress. -/
def rwcUnitgo (n : Fin 4) (f : Nat) (s : State) : State :=
  let l := knobWords n (bits f 29 25) s
  if s.rwc[n].inSector then s.modRwc n fun r => { r with loadPend := some (f, l) } else applyLoad n f l s

/-- A load that waited for the preamble. -/
def preambleLoad (n : Fin 4) (s : State) : State :=
  match s.rwc[n].loadPend with | some (f, l) => applyLoad n f l s | none => s

/-- The end of a task writes the working state back, with VALID set, under the conditions of R215. -/
def adaptSave (n : Fin 4) (s : State) : State :=
  let r := s.rwc[n]
  if !(inRecov n s) && 16 ≤ r.fpPass && r.loopLim == 0 then
    let a := adaptAddr n s
    let v := fromBytes ((List.range 32).flatMap fun i => toBytes 4 (vget r.work i 0).toNat)
    engWrite .rwc n a 128 (v % 2 ^ 1016 + 0x80 * 2 ^ 1016) s
  else s

/-! ### Unit status (table RWCn unit status) -/

/-- Read timing is primed and not stale (R200). -/
def primedNow (r : Rwc) : Bool := r.primed && r.primeAge ≤ 2

/-- U0-U7 of RWCn. -/
def rwcStatus (n : Fin 4) (s : State) : Nat :=
  let r := s.rwc[n]
  flag (primedNow r) 0 + flag r.late 1 + flag r.zoneBad.isSome 2 + flag (r.loopLim != 0) 3 + flag r.defect 4
    + flag r.reframed 5 + flag r.blindOk 6 + flag (r.single.contains (rwHead n s)) 7

/-! ### The gates over a sector (R216, R217) -/

/-- WGn and LGn follow the WG and LG controls over the data of the current sector, unless they are cut. -/
def gatesFollow (n : Fin 4) (s : State) : State :=
  let r := s.rwc[n]
  let over_ := r.inSector && !r.inGap && !r.cut
  s.modRwc n fun r => { r with wg := over_ && level n 31 s, lg := over_ && level n 30 s && !(s.lsr.ch[n].offHold) }

/-- The current sector begins under the head: WAIT 4, a load that waited, the gates. -/
def execSectorStart (n : Fin 4) (s : State) : Out :=
  .next <|
    if rwcLive n s && s.asq[n].avalid && !s.rwc[n].inSector then
      let s := preambleLoad n s
      let s := s.modRwc n fun r =>
        { r with inSector := true, inGap := false, aClosed := false, defect := r.inDefect, split := false }
      gatesFollow n (waitComes n 4 s)
    else s

/-- The last postamble bit of the sector passes: WAIT 5; the gates fall. A sector whose write gate was high to its end is
whole on the media, and counts in DONE, a parity sector aside (R184). -/
def execSectorEnd (n : Fin 4) (s : State) : Out :=
  .next <|
    if rwcLive n s && s.rwc[n].inSector then
      let s := adaptRun n s
      let s := if s.rwc[n].wg then healSector n (if s.asq[n].emit then s else countDone n s) else s
      let s := s.modRwc n fun r => { r with inSector := false, wg := false, lg := false }
      waitComes n 5 (s.modAsq n fun a => { a with emit := false })
    else s

/-- The data area of a wedge ends: the gates fall over the gap, and a sector that runs across counts in SPLIT, once. The
area held more data than a taper step freezes a loop for (R198, R214). -/
def execWedgeGap (n : Fin 4) (crossing : Bool) (s : State) : Out :=
  .next <|
    if rwcLive n s && !s.rwc[n].inGap then
      let s := adaptRun n s
      let split := crossing && s.rwc[n].inSector && !s.rwc[n].split && (level n 27 s || level n 31 s)
      let s := s.modRwc n fun r =>
        { r with inGap := true, wg := false, lg := false, taperFrozen := 0, split := r.split || split }
      let s := { s with trm := { s.trm with stepped := s.trm.stepped.filter fun t => t / 32 != n.val } }
      if split then rwcBump n 19 1 s else s
    else s

/-! ### Priming and the write clock (R199-R201) -/

/-- The CLKPRIME pulse: timing is primed from the next clock field. -/
def clkPrime (n : Fin 4) (s : State) : State := s.modRwc n fun r => { r with priming := true, primeMiss := 0 }

/-- The write clock is declared lost (R201): `why` 0 phase error, 1 missed fields. A write in progress is cut, over a
wedge gap too, where it leaves the sectors whole (R217). -/
def clockLost (n : Fin 4) (why : Nat) (s : State) : State :=
  let cutting := s.rwc[n].wg || (level n 31 s && !s.rwc[n].cut)
  let s := s.modRwc n fun r => { r with locked := false, goodRun := 0 }
  let s := rwcBump n 13 1 (rwcLine n 1 (ev .rwc 0x0402 n (rwHead n s) why s))
  if cutting then faultDecision n 0x0402 s else s

/-- The phase reference of R199 as a prime or re-prime takes it. -/
def primeStep (n : Fin 4) (good : Bool) (wedge : Nat) (s : State) : State :=
  let r := s.rwc[n]
  if r.priming || (r.everPrimed && s.asq[n].avalid) then
    if good then s.modRwc n fun r => { r with
      primed := true, everPrimed := r.everPrimed || r.priming, priming := false, primeMiss := 0, primeAge := 0 }
    else
      let s := s.modRwc n fun r => { r with primeAge := min 3 (r.primeAge + 1), primeMiss := r.primeMiss + 1 }
      if r.priming && r.primeMiss = 1 then
        ev .rwc 0x0401 n (rwHead n s) wedge (s.modRwc n fun r => { r with priming := false, primeMiss := 0, primed := false })
      else s
  else s.modRwc n fun r => { r with primeAge := min 3 (r.primeAge + 1) }

/-- The write clock at a clock field: four within a sixteenth of a bit lock it; an error beyond a quarter of a bit, or a
second consecutive missed field, loses it. -/
def writeClockStep (n : Fin 4) (good : Bool) (err freq : Int) (s : State) : State :=
  let s := s.modRwc n fun r => { r with
    missRun := if good then 0 else min 3 (r.missRun + 1)
    pherr := if good then signed 8 (field 8 err) else r.pherr, freq := if good then signed 12 (field 12 freq) else r.freq }
  let r := s.rwc[n]
  if r.locked then
    if good && 16 < err.natAbs then clockLost n 0 s
    else if !good && 2 ≤ r.missRun then clockLost n 1 s
    else s
  else if good && err.natAbs ≤ 4 && r.zone.isSome && r.zoneBad.isNone then
    if r.goodRun = 3 then waitComes n 13 (s.modRwc n fun r => { r with locked := true, goodRun := 0 })
    else s.modRwc n fun r => { r with goodRun := r.goodRun + 1 }
  else s.modRwc n fun r => { r with goodRun := 0 }

/-- RWOFF in force moves by at most 1/32 bit towards the copied entry's while no write gate is high (R378). -/
def rwoffStep (n : Fin 4) (s : State) : State :=
  match s.rwc[n].zone with
  | some z =>
    if (channels s).any fun m => s.rwc[m].wg then s
    else s.modRwc n fun r => { r with rwoff := r.rwoff + clamp (-1) 1 (2 * signed 16 z.rwoff - r.rwoff) }
  | none => s

/-- A measured error in 1/64 bit, corrected by RWOFF in force for the distance between reader and writer (R201; sign,
log 183). -/
def phaseErr (n : Fin 4) (raw : Int) (s : State) : Int := raw - 2 * s.rwc[n].rwoff

/-- A clock field, or an address-unit boundary in its place, passes; the gap it stands in ends. -/
def clockStep (n : Fin 4) (good : Bool) (wedge : Nat) (err freq : Int) (s : State) : State :=
  let s := rwoffStep n s
  let s := rwcBump n (if good then 11 else 12) 1 s
  let s := writeClockStep n good (phaseErr n err s) freq (primeStep n good wedge s)
  gatesFollow n (s.modRwc n fun r => { r with inGap := false })

def execClockField (n : Fin 4) (meas : ClockMeas) (s : State) : Out :=
  .next <| if rwcLive n s && !(optical s) then clockStep n meas.good meas.wedge meas.err meas.freq s else s

/-! ### Readers (R66, R203, R301) -/

/-- A head of the channel is retired: its HEADRET bit is set (R424). -/
def headRetired (n : Fin 4) (head : Nat) (s : State) : Bool := s.asq[n].headRet.testBit head

/-- The HEAD_SW pulse: the task's head is selected and its reader check starts, with event 0x0370 for a retired head
(R424); in the optical personality it also selects the target layer (R301). -/
def headSwitch (n : Fin 4) (s : State) : State :=
  let s := s.modAsq n fun a => { a with head := bits a.atask[0].toNat 23 18, headOk := false, headChk := true }
  let s := if headRetired n s.asq[n].head s then ev .asq 0x0370 n s.asq[n].head 0 s else s
  if optical s then s.modPu n fun p => { p with tLayer := s.asq[n].head % 4 } else s

/-- An open or shorted reader is recorded. -/
def readerEvent (n : Fin 4) (head k : Nat) (opn shrt : Bool) (s : State) : State :=
  if opn then ev .rwc 0x0410 n head k s else if shrt then ev .rwc 0x0411 n head k s else s

/-- The reader check of a head switch completes. Reader 1 alone failing leaves the head in READER0 mode; a retired head
never becomes HEAD_OK (R424). -/
def execReaderCheck (n : Fin 4) (open0 short0 open1 short1 : Bool) (s : State) : Out :=
  .next <|
    if rwcLive n s && s.asq[n].headChk then
      let h := s.asq[n].head
      let bad0 := open0 || short0
      let bad1 := (open1 || short1) && !(optical s)
      let s := readerEvent n h 0 open0 short0 s
      let s := if bad1 && bad0 then readerEvent n h 1 open1 short1 s else s
      let single := bad1 && !bad0
      let s := if single then ev .rwc 0x0406 n h 0 s else s
      let other := optical s && h / 4 != n.val
      let s := if other then ev .opt 0x0911 n h 0 s else s
      let s := s.modRwc n fun r => { r with single := if single then insertNat h r.single else removeNat h r.single }
      let s := if single then forceCoefs n (s.modRwc n fun r => { r with rmode := 1 }) else s
      let s := s.modAsq n fun a => { a with headOk := !bad0 && !other && !(headRetired n h s), headChk := false }
      waitComes n 15 s
    else s

/-! ### Framing (R206-R210, R220) -/

/-- The best candidate of a window (R206, R208): within bounds, at most 4 disagreements and 8 excluded bits; the fewest
disagreements, then the nearest to the centre, then the earlier. -/
def bestCand (lo hi : Int) (l : List SyncCand) : Option (Int × Nat) :=
  let ok := l.filter fun c => lo ≤ c.off && c.off ≤ hi && c.dist ≤ 4 && c.excl ≤ 8
  let better := fun a b : SyncCand =>
    a.dist < b.dist || (a.dist == b.dist && (a.off.natAbs < b.off.natAbs ||
      (a.off.natAbs == b.off.natAbs && a.off < b.off)))
  (ok.foldl (fun m c => match m with | none => some c | some b => if better c b then some c else m) none).map
    fun c => (c.off, c.dist)

/-- A search that ends without a media outcome, or a decision that finds no mark. -/
def noMark (n : Fin 4) (o : SyncOutcome) (s : State) : State :=
  waitComes n 6 (s.modRwc n fun r => { r with
    outcome := o, aoff := 0, boff := 0, adist := 0, bdist := 0, aCand := none, searching := false
    syncFound := false, smaFound := false, smbFound := false, late := o == .late, reframed := false })

/-- The SMSRCH pulse (R206, R209): the search opens; a stale or missing prime, or a closed window, finds no mark. -/
def smSearch (n : Fin 4) (s : State) : State :=
  let r := s.rwc[n]
  if r.zoneBad.isSome then noMark n .none s
  else if !(primedNow r && r.everPrimed) then rwcBump n 10 1 (noMark n .unprimed s)
  else if r.aClosed then rwcBump n 9 1 (noMark n .late s)
  else s.modRwc n fun r => { r with searching := true, aCand := none, late := false }

/-- The Sync Mark A window of the current sector closes. -/
def execSyncADecision (n : Fin 4) (cands : List SyncCand) (s : State) : Out :=
  .next <|
    if rwcLive n s then
      s.modRwc n fun r =>
        { r with aClosed := true, aCand := if r.searching then bestCand (-16) 16 cands else r.aCand }
    else s

/-- The per-head Sync Mark A miss count (R220): it holds at all ones. -/
def hsmaBump (n : Fin 4) (h : Nat) (s : State) : State :=
  let v := sget 0 h s.rwc[n].hsma
  if v = 0xFFFFFFFF then s
  else
    let s := s.modRwc n fun r => { r with hsma := sput 0 h (v + 1) r.hsma }
    if v + 1 = 0xFFFFFFFF then rwcLine n 3 s else s

/-- The framing decision of R207: outcome, A offset, B offset, disagreements. -/
def framing (a : Option (Int × Nat)) (cands : List SyncCand) : SyncOutcome × Option (Int × Nat) :=
  let best := bestCand (-18) 18 cands
  match a with
  | some (x, _) =>
    match bestCand (max (-18) (x - 2)) (min 18 (x + 2)) cands with
    | some b => (.confirmed, some b)
    | none => match best with | some b => (.bOverrule, some b) | none => (.aOnly, none)
  | none => match best with | some b => (.bOnly, some b) | none => (.bothMissed, none)

/-- The Sync Mark B window closes: the sector's outcome is decided and WAIT 6 completes. -/
def execSyncBDecision (n : Fin 4) (cands : List SyncCand) (s : State) : Out :=
  .next <|
    if rwcLive n s && s.rwc[n].searching then
      let a := s.rwc[n].aCand
      let (o, b) := framing a cands
      let s := s.modRwc n fun r => { r with
        outcome := o, searching := false, aCand := none, reframed := o == .bOverrule
        aoff := match a with | some x => x.1 | none => 0
        adist := match a with | some x => x.2 | none => 0
        boff := match b with | some x => x.1 | none => 0
        bdist := match b with | some x => x.2 | none => 0
        syncFound := o != .bothMissed, smaFound := o == .confirmed || o == .aOnly, smbFound := b.isSome }
      let s := if inRecov n s then s
        else
          let k := match o with | .confirmed => 2 | .bOverrule => 3 | .aOnly => 4 | .bOnly => 5 | _ => 6
          let s := rwcBump n k 1 s
          let s := if o == .bOverrule || o == .bOnly || o == .bothMissed then hsmaBump n (rwHead n s) s else s
          if o == .bothMissed then rwcLine n 0 (markFail n s) else s
      waitComes n 6 s
    else s

/-- The BLIND pulse: only a task with RECOV set frames blindly. -/
def blindPulse (n : Fin 4) (s : State) : State :=
  if inRecov n s then s.modRwc n fun r => { r with blindPend := true } else s

/-- The parity checks of the code in force (table Magnetic LDPC codes; the optical code, R303). -/
def codeChecks (n : Fin 4) (s : State) : Nat :=
  if optical s then 2048
  else match s.rwc[n].zone with
    | some z => (match z.code with | 0 => 3072 | 1 => 4096 | _ => 5120)
    | none => 3072

/-- The syndrome weights of the five framings are known (R210). -/
def execBlindFraming (n : Fin 4) (weights : List (Int × Nat)) (s : State) : Out :=
  .next <|
    if rwcLive n s && s.rwc[n].blindPend then
      let ok := weights.filter fun (d, w) =>
        -2 ≤ d && d ≤ 2 && w * 100 ≤ min 100 (fld .blindcfg n 0 6 0 s) * codeChecks n s
      let pick := ok.foldl (fun (m : Option (Int × Nat)) c => match m with
        | none => some c
        | some b =>
          if c.2 < b.2 || (c.2 == b.2 && (c.1.natAbs < b.1.natAbs || (c.1.natAbs == b.1.natAbs && c.1 < b.1))) then some c
          else m) none
      let s := s.modRwc n fun r => { r with
        blindPend := false, aoff := 0, adist := 0, bdist := 0, blindOk := pick.isSome
        boff := match pick with | some x => x.1 | none => 0
        outcome := if pick.isSome then .blindOk else .blindFail }
      if pick.isSome then submitCodeword n true (rwcBump n 7 1 s)
      else rwcLine n 0 (rwcBump n 8 1 (markFail n s))
    else s

/-! ### Defect spans and loops (R211-R213) -/

/-- The defect detector flags a span: the loops that ran freeze. A run of eight samples at an ADC limit counts within a
flagged span too. -/
def execDefectSpan (n : Fin 4) (asperity adcSat : Bool) (s : State) : Out :=
  .next <|
    if rwcLive n s then
      let s := if s.rwc[n].inDefect then s
        else
          let s := rwcBump n 14 1 ((adaptRun n s).modRwc n fun r => { r with inDefect := true, defect := true })
          if asperity then rwcBump n 16 1 s else s
      if adcSat then rwcBump n 21 1 s else s
    else s

/-- A flagged span ends; one longer than 4,096 bits is recorded, and timing primes afresh at the next clock field. -/
def execDefectSpanEnd (n : Fin 4) (bits_ track : Nat) (s : State) : Out :=
  .next <|
    if rwcLive n s && s.rwc[n].inDefect then
      let s := rwcBump n 15 bits_ (s.modRwc n fun r => { r with inDefect := false })
      if 4096 < bits_ then rwcLine n 2 (clkPrime n (ev .rwc 0x0405 n (rwHead n s) track s)) else s
    else s

/-- A loop reaches its limit, and holds there. -/
def execLoopLimit (n : Fin 4) (loop : Fin 6) (s : State) : Out :=
  .next <|
    let r := s.rwc[n]
    if rwcLive n s && r.loopen.testBit loop && !(loopsFrozen n s) then
      let s := limitElem n loop (s.modRwc n fun r => { r with
        loopLim := r.loopLim ||| 1 <<< loop.val, taperFrozen := r.taperFrozen &&& (63 ^^^ 1 <<< loop.val) })
      rwcBump n 17 1 (rwcLine n 2 (ev .rwc 0x0404 n loop (rwHead n s) s))
    else s

/-! ### Sector statistics and counters (R219) -/

/-- The STAT pulse: the sector counts in RDSECT, or in WRSECT while PREAMP_WR is set; RWCn_MSE follows the sectors read,
with free values. -/
def statPulse (n : Fin 4) (s : State) : State :=
  if level n 28 s then rwcBump n 1 1 s
  else
    let x := draw (2 ^ 16) s
    let s := s.drawn.modRwc n fun r => { r with
      mseSect := x, mseAvg := (r.mseAvg + roundDiv ((x : Int) - r.mseAvg) 16).toNat }
    rwcBump n 0 1 s

/-- A snapshot of a block's performance counters. -/
def pmonSnap (b : PmonBlock) (s : State) : State :=
  match b with
  | .rwc n => s.modRwc n fun r => { r with shadow := r.cnt }
  | .ldp => s.modLdp fun l => { l with shadow := l.cnt }
  | .sve n => s.modSve n fun v => { v with cntSh := v.cnt }
  | .opt => { s with opt := { s.opt with cntSh := s.opt.cnt } }
  | .vlk => s.modVlk fun v => { v with cntSh := v.cnt }

/-- The performance counters and WRAP bits of a block cleared. -/
def pmonClr (b : PmonBlock) (s : State) : State :=
  match b with
  | .rwc n => s.modRwc n fun r => { r with cnt := Vector.replicate 24 0, wrap := 0 }
  | .ldp => s.modLdp fun l => { l with cnt := Vector.replicate 12 0, wrap := 0 }
  | .sve n => s.modSve n fun v => { v with cnt := Vector.replicate 8 0, wrap := 0 }
  | .opt => { s with opt := { s.opt with cnt := Vector.replicate 16 0, wrap := 0 } }
  | .vlk => s.modVlk fun v => { v with cnt := Vector.replicate 8 0, wrap := 0 }

/-- The block of a counter set, with its PMON_SNAP and PMON_CLR registers. -/
def pmonBlk (b : PmonBlock) : Blk × Nat × Nat × Nat :=
  match b with
  | .rwc n => (.rwc, n, Reg.addr .rwcSnap n 0, Reg.addr .rwcClr n 0)
  | .ldp => (.ldp, 0, Reg.addr .ldpSnap 0 0, Reg.addr .ldpClr 0 0)
  | .sve n => (.sve, n, Reg.addr .sveSnap n 0, Reg.addr .sveClr n 0)
  | .opt => (.opt, 0, Reg.addr .optSnap 0 0, Reg.addr .optClr 0 0)
  | .vlk => (.vlk, 0, Reg.addr .vlkSnap 0 0, Reg.addr .vlkClr 0 0)

def execPmonSnap (b : PmonBlock) (s : State) : Out :=
  let (k, n, a, _) := pmonBlk b
  .next (access k n a (pmonSnap b) s)

def execPmonClr (b : PmonBlock) (s : State) : Out :=
  let (k, n, _, a) := pmonBlk b
  .next (access k n a (pmonClr b) s)

end Sys2Proof.Machine
end

