-- ==== Sys2Proof/Machine/Optical.lean ====
section
/-!
DEFINITION. OPT: the wobble address, the format register and the seeks of the optical personality
(13_optical_personality.md, R300-R315).
-/

set_option Elab.async false

namespace Sys2Proof.Machine

open Sys2Proof

/-- OPT works on a pickup: optical personality, its domains on, no freeze or reset of OPT. -/
def optLive (n : Fin 4) (s : State) : Bool :=
  optical s && chanExists n s && chanOn n s && !(heldBlk .opt 0 s)

/-! ### Seeks (R312) -/

/-- The seek ends without success, without a servo fault. -/
def optSeekFail (n : Fin 4) (s : State) : State := seekRefused n (optSeekIdle n s)

/-- The target is out of reach, or three sled moves did not reach it. -/
def sledFail (n : Fin 4) (target : Nat) (s : State) : State :=
  optSeekFail n (ev .opt 0x0904 n target s.opt.pu[n].aTrack s)

/-- JUMPMAX: 0 acts as 1. -/
def jumpMax (s : State) : Nat := zeroAsOne (fld .optSeekcfg 0 0 31 24 s)

/-- Steps 2 and 3 from the track of the last accepted address. -/
def trackPhase (n : Fin 4) (s : State) : State :=
  let p := s.opt.pu[n]
  let d : Int := (p.tTrack : Int) - p.aTrack
  if jumpMax s < d.natAbs then
    if 3 ≤ p.sleds then sledFail n p.tTrack s
    else
      let v := (fld .optSled 0 0 31 16 s : Int)
      s.modPu n fun p => { p with
        sphase := .sled, sledCmd := signed 16 (field 16 (if d < 0 then -v else v)), sleds := p.sleds + 1, await := false
        sledUs := s.us + d.natAbs * fld .optSled 0 0 15 0 s / 256 }
  else
    let s := s.modPu n fun p => { p with sphase := .track, await := d == 0, fresh := true, age := 0 }
    if d = 0 then s else jumpStart n false (decide (d < 0)) d.natAbs true s

/-- Step 1 begins: input 0x110 takes the target layer's SA code and SADLY runs. -/
def layerPhase (n : Fin 4) (s : State) : State :=
  s.modPu n fun p => { p with
    sphase := .layer, saLayer := p.tLayer, await := false
    sledUs := s.us + fld .optSeekcfg 0 0 23 16 s }

/-- SEEK_GO in the optical personality: the seek is OPT's. A LAYER_JUMP task seeks the track of the last accepted
address. -/
def optSeekGo (n : Fin 4) (s : State) : State :=
  let p := s.opt.pu[n]
  let target := if task n 0 31 24 s = 0x0C then p.aTrack else task n 3 23 0 s
  let s := s.modSve (sveOf n) fun v => { v with
    target := target, settled := false, settleRun := 0, onTrack := false, seekUs := s.us, seekOk := false }
  if fld .puf 0 n 31 31 s = 0 then seekRefused n s
  else if target < fld .puf 0 n 23 0 s ∨ fld .pul 0 n 23 0 s < target then sledFail n target s
  else
    let layer := task n 0 23 18 s % 4
    let s := s.modPu n fun p => { p with
      seek := true, tLayer := layer, tTrack := target, sleds := 0, retried := false, aValid := false, fresh := true
      age := 0, await := false }
    if layer ≠ p.layer then layerPhase n s else trackPhase n s

/-- SADLY has passed: the layer jump is kicked, with COUNT and DIR from the layers' difference. -/
def execSaDelayEnd (n : Fin 4) (s : State) : Out :=
  .next <|
    let p := s.opt.pu[n]
    if optLive n s && p.seek && p.sphase == .layer && !p.await && s.sve[sveOf n].move == .none then
      let s := advanceTo p.sledUs s
      let d : Int := (p.tLayer : Int) - p.layer
      optBump n 3 1 (jumpStart n true (decide (d < 0)) d.natAbs true s)
    else s

/-- A sled move's time ends: tracking closes, and an address is awaited. -/
def execSledMoveEnd (n : Fin 4) (s : State) : Out :=
  .next <|
    let p := s.opt.pu[n]
    if optLive n s && p.seek && p.sphase == .sled && !p.await then
      (advanceTo p.sledUs s).modPu n fun p => { p with sledCmd := 0, await := true, fresh := true, age := 0 }
    else s

/-- The seek goes on from an accepted address. -/
def seekAccepted (n : Fin 4) (s : State) : State :=
  let p := s.opt.pu[n]
  if !p.seek || !p.await then s
  else if p.sphase == .layer && p.layer != p.tLayer then
    if p.retried then optSeekFail n (ev .opt 0x0903 n p.layer p.tLayer s)
    else layerPhase n (s.modPu n fun p => { p with retried := true })
  else if p.aTrack = p.tTrack ∨ p.aTrack + 1 = p.tTrack then seekEnd n true 0 (optSeekIdle n s)
  else trackPhase n s

/-! ### Wobble addresses (R304-R307, R311) -/

/-- CRC-8 of the address word: polynomial x^8 + x^2 + x + 1, initial value 0, over the upper 40 bits. -/
def crc8 : Nat → Nat → Nat → Nat
  | 0, _, c => c
  | k + 1, v, c =>
    let top := (c.testBit 7) != (v.testBit (k + 8))
    crc8 k v (((c <<< 1) % 256) ^^^ (if top then 0x07 else 0))

/-- AUPT. -/
def aupt (s : State) : Nat := fld .optFmt 0 0 28 19 s

/-- The track and unit that stand k units after an address. -/
def unitsOn (track unit k : Nat) (s : State) : Nat × Nat :=
  let u := unit + k
  (track + u / zeroAsOne (aupt s), u % zeroAsOne (aupt s))

/-- The conditions under which OPT accepts an address (R304, R307). -/
def addrAccepted (n : Fin 4) (syncOff : Int) (w : Nat) (s : State) : Bool :=
  let p := s.opt.pu[n]
  let follows := unitsOn p.aTrack p.aUnit (p.age + 1) s == (bits w 45 22, bits w 21 13) && p.aLayer == bits w 47 46
  decide (-2 ≤ syncOff) && decide (syncOff ≤ 2) && crc8 40 w 0 == bits w 7 0 && (p.fresh || follows) &&
    !(s.sve[sveOf n].hold) && !s.rwc[n].inDefect

/-- The layer of a captured pickup is identified: FOCUSED sets. -/
def identifyLayer (n : Fin 4) (s : State) : State :=
  let p := s.opt.pu[n]
  if p.capturing then
    let s := s.modPu n fun p => { p with capturing := false }
    setFocused n true (ev .opt 0x0901 n p.layer (now s - p.loadAt) s)
  else s

/-- An address is accepted. -/
def acceptAddr (n : Fin 4) (w : Nat) (s : State) : State :=
  let s := s.modPu n fun p => { p with
    aLayer := bits w 47 46, aTrack := bits w 45 22, aUnit := bits w 21 13, aValid := true, missRun := 0, fresh := false
    age := 0, layer := bits w 47 46 }
  let s := s.modSve (sveOf n) fun v => { v with wedge := bits w 21 13 }
  seekAccepted n (identifyLayer n (optBump n 0 1 s))

/-- An address unit is missed; after a sled move the wait for an address ends with the second. -/
def missAddr (n : Fin 4) (s : State) : State :=
  let p := s.opt.pu[n]
  let s := s.modPu n fun p => { p with missRun := min 7 (p.missRun + 1), age := p.age + 1 }
  let s := optBump n 1 1 s
  let s := if p.missRun = 1 then setIrqStat .opt 0 (5 + n) s else s
  if p.seek && p.await && p.sphase == .sled && 1 ≤ p.age then trackPhase n s else s

/-- An address-unit boundary passes: the wobble address, the clock reference of R218, and WAIT 2 and 3 (R305). -/
def execAddressUnit (n : Fin 4) (syncOff : Int) (word : BitVec 48) (meas : ClockMeas) (s : State) : Out :=
  .next <|
    if optLive n s then
      let w := word.toNat
      let p := s.opt.pu[n]
      let ok := addrAccepted n syncOff w s
      let unit := if ok then bits w 21 13 else (unitsOn p.aTrack p.aUnit (p.age + 1) s).2
      let s := if ok then acceptAddr n w s else missAddr n s
      let s := if rwcLive n s then clockStep n ok unit meas.err meas.freq s else s
      wedgePasses n unit s
    else s

/-! ### The format register (R303) -/

/-- A write of OPT_FMT: refused whole when a field is out of range. -/
def writeOptFmt (v : Nat) (s : State) : State :=
  let a := bits v 28 19
  let w := bits v 18 8
  if a < 32 ∨ 512 < a ∨ w < 128 ∨ 1024 < w then blockErrorP .opt 0 0x0905 v v 0 0 s else storeFields .optFmt 0 0 v s

def execOptFmtWrite (_m : Master) (v : Word) (s : State) : Out :=
  .next <| access .opt 0 (Reg.addr .optFmt 0 0) (writeOptFmt v.toNat) s

end Sys2Proof.Machine
end

