-- ==== Sys2Proof/Machine/Spindle.lean ====
section
/-!
DEFINITION. SPN, the spindle (R58, R66, R266-R288), and the commands of PSI and LSR beyond Laser.lean (R62, R289-R299)
(12_spindle_braking_laser.md).
-/

set_option Elab.async false

namespace Sys2Proof.Machine

open Sys2Proof

/-- SPN works: its domain is on and nothing holds it. -/
def spnLive (s : State) : Bool := pdOn 13 s && !(heldBlk .spn 0 s)

/-! ### Speed (R268) -/

/-- The speed in rpm of a step period in 10 ns; none has been seen at 0xFF_FFFF. -/
def rpmOf (period : Nat) : Nat := if period = 0 ∨ 0xFFFFFF ≤ period then 0 else 10 ^ 9 / (4 * period)
def spnRpm (s : State) : Nat := rpmOf s.spn.period

/-- TARGET. -/
def spnTarget (s : State) : Nat := fld .spnCfg 0 0 31 16 s

/-- A speed lies below a percentage of TARGET. -/
def belowPct (rpm pct : Nat) (s : State) : Bool := rpm * 100 < pct * spnTarget s

/-! ### Gates (R49, R266) -/

/-- HI, LO and SLOPE of a step. -/
def commHi (k : Nat) (s : State) : Nat := fld .spnComm 0 k 4 3 s
def commLo (k : Nat) (s : State) : Nat := fld .spnComm 0 k 2 1 s
def commSlope (k : Nat) (s : State) : Bool := fld .spnComm 0 k 0 0 s == 1

/-- Gates without the high side of a phase whose low side is on: the part never drives both (R49). -/
def noShoot (g : Nat) : Nat :=
  let lo := g % 64 &&& 0b101010
  lo ||| (g % 64 &&& (0b010101 - (lo >>> 1)))

/-- The gates a step drives: the modulated high side and the low side held on (GHU GLU GHV GLV GHW GLW, bits 0-5). Codes
that do not name two phases drive free values within R49. -/
def stepGates (k : Nat) (s : State) : Nat :=
  let hi := commHi k s
  let lo := commLo k s
  if hi < 3 ∧ lo < 3 ∧ hi ≠ lo then 1 <<< (2 * hi) ||| 1 <<< (2 * lo + 1) else noShoot (Config.oddStep hi lo)

/-- All low sides on, but that of an open phase (R66). -/
def shortGates (s : State) : Nat :=
  match s.spn.openPhase with | some p => 0b101010 &&& (0b111111 ^^^ 1 <<< (2 * p + 1)) | none => 0b101010

def gatesLow (s : State) : State := s.modSpn fun v => { v with gates := 0 }

/-- The step in force drives its gates. -/
def driveStep (s : State) : State := s.modSpn fun v => { v with gates := stepGates v.step s }

/-- The commutated drive is on: SPN drives steps. It has stopped while a braking for a failed recovery or a fault waits for
the unload (R66, R279). -/
def spnDriving (s : State) : Bool :=
  !(s.spn.brk == some .unload && s.spn.brkCause != 0) &&
  match s.spn.state with
  | .align | .openLoop | .accel | .atSpeed => true
  | .brake => s.spn.brk == some .drive
  | _ => false

/-- The state's code, SPN_STAT.STATE. -/
def spnCode (x : SpnState) : Nat :=
  match x with
  | .stopped => 0 | .align => 1 | .openLoop => 2 | .accel => 3 | .atSpeed => 4 | .recover => 5 | .brake => 6
  | .coast => 7 | .rectify => 8 | .faulted => 9

/-! ### Unload (R280, R282) -/

/-- An engine SVE0-3 reports LOADED. -/
def anyLoaded (s : State) : Bool := (channels s).any fun n => s.sve[sveOf n].loaded

/-- UNLREQ: the retract path of every engine with LOADED = 1. -/
def requestUnload (s : State) : State := retractLoaded 6 (s.modSpn fun v => { v with unlReq := true })

/-- R280: in RECOVER, ACCEL or RECTIFY the speed falls below UNLOAD, from `was`. -/
def unloadCheck (was : Nat) (s : State) : State :=
  let pct := fld .lockcfg 0 0 15 8 s
  let st := s.spn.state
  if (st == .recover || st == .accel || st == .rectify) && !s.spn.unlReq && belowPct (spnRpm s) pct s
      && !(belowPct was pct s) then
    requestUnload (ev .spn 0x0733 (spnRpm s) (spnCode st) 0 s)
  else s

/-- A state is entered at a speed below UNLOAD. -/
def unloadEntry (s : State) : State := unloadCheck (spnTarget s) s

/-! ### Faults -/

/-- Lock is gone: a fault is decided for every channel (R19, R278, R279), and a write in flight is noted (R281). -/
def lockGone (cause : Nat) (s : State) : State :=
  let s := faultAll cause s
  let write := fun (c : Cmd) => (c.cmd.op == .write || c.cmd.op == .zoneAppend) && match c.phase with
    | .accepted | .capped | .moving | .moved => true | _ => false
  s.modHce fun h => { h with cmds := mapIf write (fun c => { c with cutLock := true }) h.cmds }

/-- A spindle fault latches (R277, R286): all gates low, FAULTED. `cause` is the event's code. -/
def spnFault (cause : Nat) (s : State) : State :=
  let s := if s.spn.locked then lockGone cause s else s
  s.modSpn fun v => { v with
    state := .faulted, latched := true, locked := false, gates := 0, brk := none, cause := cause % 256, goodRevs := 0 }

/-- Lock is declared lost (R278). -/
def lockLost (s : State) : State :=
  let s := s.modSpn fun v => { v with
    locked := false, gates := 0, state := .recover, lostAt := now s, goodRevs := 0, revPeriods := [], qual := 0
    unqual := 0, cause := 0x30 }
  let s := lockGone 0x0730 s
  unloadEntry (raiseLine 376 (ev .spn 0x0730 s.spn.step (spnRpm s) 0 s))

/-- XMT reports dirty sectors: the buffer holds writes that are not durable. -/
def dirtySectors (s : State) : Bool :=
  s.lgr.entries.any fun e => e.state == .buffered && e.kind != .read && e.kind != .reloc && e.kind != .barrier

/-- Coasting begins. -/
def coastFrom (cause : Nat) (s : State) : State :=
  let s := ev .spn 0x0750 cause (spnRpm s) 0 s
  s.modSpn fun v => { v with state := .coast, gates := 0, locked := false, brk := none, brkAt := now s, goodRevs := 0 }

/-- Braking is asked for (R282 step 1): UNLREQ, and the wait until no engine reports LOADED. -/
def askBrake (cause : Nat) (s : State) : State :=
  requestUnload (s.modSpn fun v => { v with brk := some .unload, brkCause := cause })

/-- Recovery fails (R279): 0x0732, line 381; with dirty data the spindle coasts, else it brakes. -/
def recoveryFails (s : State) : State :=
  let s := raiseLine 381 (ev .spn 0x0732 (now s - s.spn.lostAt) (spnRpm s) 0 s)
  let s := s.modSpn fun v => { v with cause := 0x32 }
  if dirtySectors s then coastFrom 3 s else askBrake 1 (gatesLow s)

/-! ### Commands (R275, R282) -/

/-- The SPINUP ticket that SPN_LEAVE names is granted (R273). -/
def spinupLeave (s : State) : Bool :=
  fld .spnLeave 0 0 31 31 s == 1 && (ticketGranted (fld .spnLeave 0 0 6 0 s) (fld .spnLeave 0 0 15 8 s) s &&
    match ticketAt (fld .spnLeave 0 0 6 0 s) s with | some t => t.cls == 0 | none => false)

/-- The first reason for which START is refused, 0 for none. -/
def startReason (s : State) : Nat :=
  let v := s.spn
  if !(spinupLeave s) then 1
  else if v.vin < -1600 || v.vmot < 10800 then 2
  else if anyLoaded s then 3
  else if !(v.state == .stopped || v.state == .coast || v.state == .brake) then 4
  else if v.latched || v.chopFlt then 5
  else if !s.sve[(4 : Fin 5)].run then 6
  else 0

/-- A command or setting is refused: error 0x0704. -/
def spnRefuse (reason : Nat) (s : State) : State := blockErrorP .spn 0 0x0704 reason reason 0 0 s

/-- A refusal for which R275 names no reason: ERR_INFO is open (log 2). -/
def spnRefuseFree (s : State) : State := spnRefuse (draw (2 ^ 32) s) s.drawn

/-- An attempt begins with the alignment. -/
def alignStart (s : State) : State :=
  let s := s.modSpn fun v => { v with
    state := .align, step := 0, attempt := v.attempt + 1, qual := 0, unqual := 0, opp := 0, locked := false, brk := none
    turning := false, period := 0xFFFFFF, goodRevs := 0, revPeriods := [] }
  ev .spn 0x0701 s.spn.attempt (if s.spn.swapped then 1 else 0) 0 (driveStep s)

/-- START. With the 40 MHz crystal failed the spindle is not started (R75). -/
def spnStart (s : State) : State :=
  let r := startReason s
  if r ≠ 0 then spnRefuse r s
  else if s.clk.xo40failed then spnRefuseFree s
  else if s.spn.turning then
    s.modSpn fun v => { v with
      state := .recover, gates := 0, brk := none, locked := false, lostAt := now s, qual := 0, unqual := 0 }
  else alignStart (s.modSpn fun v => { v with attempt := 0 })

/-- BRAKE, where there is a rotor to brake and no braking is under way: after a reset the rotor may still turn although SPN
is STOPPED (R102). -/
def spnBrake (s : State) : State :=
  if s.spn.brk.isSome then s else
  match s.spn.state with
  | .stopped => if s.spn.turning then askBrake 0 s else s
  | .brake | .rectify | .faulted => s
  | _ => askBrake 0 s

/-- COAST. -/
def spnCoast (s : State) : State :=
  match s.spn.state with
  | .stopped | .rectify | .faulted | .coast => s
  | _ => coastFrom 0 s

/-- CLRF: a latched fault is cleared once the phases do not turn, and CHOPFLT with it (R284). -/
def spnClrf (s : State) : State :=
  let v := s.spn
  if !v.turning && (v.state == .faulted || (v.state == .stopped && v.chopFlt)) then
    s.modSpn fun v => { v with latched := false, chopFlt := false, state := .stopped, openPhase := none }
  else spnRefuseFree s

/-- A write of SPN_CMD; more than one bit is refused. -/
def writeSpnCmd (v : Nat) (s : State) : State :=
  match bits v 3 0 with
  | 0 => s
  | 1 => spnStart s
  | 2 => spnBrake s
  | 4 => spnCoast s
  | 8 => spnClrf s
  | _ => spnRefuseFree s

/-- SPN_CMD written. -/
def spnCmd (v : Nat) (s : State) : State := access .spn 0 (Reg.addr .spnCmd 0 0) (writeSpnCmd v) s

def execStart (_m : Master) (s : State) : Out := .next (spnCmd 1 s)
def execBrake (_m : Master) (s : State) : Out := .next (spnCmd 2 s)
def execCoast (_m : Master) (s : State) : Out := .next (spnCmd 4 s)
def execClrf (_m : Master) (s : State) : Out := .next (spnCmd 8 s)

/-- A write of SPN_CFG: a TARGET outside 1,000-7,500 is refused. -/
def writeSpnCfg (v : Nat) (s : State) : State :=
  let t := bits v 31 16
  if windowOpen .spn 0 s && (decide (t < 1000) || decide (7500 < t)) then spnRefuseFree s else storeFields .spnCfg 0 0 v s

/-! ### Braking (R282, R285) -/

/-- The stage of braking that the speed asks for. -/
def brakeStage (s : State) : BrakeStage :=
  if s.spn.brkCause = 2 || belowPct (spnRpm s) (fld .brkcfg 0 0 31 24 s) s then .short else .drive

/-- Short-circuit braking begins below BRKSPD. -/
def brakeSpeed (s : State) : State :=
  if s.spn.state == .brake && s.spn.brk == some .drive && brakeStage s == .short then
    s.modSpn fun v => { v with brk := some .short, gates := shortGates s }
  else s

/-- No engine reports LOADED any more: SPN enters BRAKE (R282 step 2), or goes on to short-circuit braking under a faulty
chopper (R285 step 4). -/
def execBrakeEntry (s : State) : Out :=
  .next <|
    if spnLive s && !(anyLoaded s) then
      match s.spn.brk with
      | some .unload =>
        let s := ev .spn 0x0750 s.spn.brkCause (spnRpm s) 0 s
        let st := if s.spn.chopFlt then BrakeStage.short else brakeStage s
        let s := s.modSpn fun v => { v with state := .brake, locked := false, brk := some st, brkAt := now s, goodRevs := 0 }
        if st = .short then s.modSpn fun v => { v with gates := shortGates s } else driveStep s
      | some .diodes => s.modSpn fun v => { v with brk := some .short, gates := shortGates s }
      | _ => s
    else s

/-- The phase current has stayed below 2 % for STOPMS: the rotor has stopped. -/
def execSpindleStopped (s : State) : Out :=
  .next <|
    if spnLive s then
      let still := fun s : State => s.modSpn fun v => { v with turning := false, period := 0xFFFFFF }
      match s.spn.state with
      | .brake =>
        if s.spn.brk == some .short then
          let s := raiseLine 378 (ev .spn 0x0751 (now s - s.spn.brkAt) 0 0 s)
          still (s.modSpn fun v => { v with state := .stopped, gates := 0, brk := none, openPhase := none })
        else s
      | .coast | .faulted | .stopped => still s
      | _ => s
    else s

/-! ### Spin-up (R275-R277) -/

/-- The alignment period ends: forced commutation begins. -/
def execAlignDone (s : State) : Out :=
  .next <|
    if spnLive s && s.spn.state == .align then
      s.modSpn fun v => { v with state := .openLoop, openAt := s.us, qual := 0, opp := 0, turning := true }
    else s

/-- Lock has not been reached within 1.0 s of OPENLOOP: another attempt, or FAULTED after three. -/
def execSpinupAttemptTimeout (s : State) : Out :=
  .next <|
    if spnLive s && s.spn.state == .openLoop then
      let s := advanceTo (s.spn.openAt + 1000000) s
      if 3 ≤ s.spn.attempt then ev .spn 0x0703 0 s.spn.attempt 0 (spnFault 0x0703 s) else alignStart s
    else s

/-- The codes of V and W change places. -/
def swapCode (c : Nat) : Nat := if c = 1 then 2 else if c = 2 then 1 else c

/-- Six crossings of the opposite slope (R276): the phase order is corrected and the alignment begins again. -/
def swapPhases (s : State) : State :=
  let s := (List.range 6).foldl (fun s k =>
    setFld .spnComm 0 k 2 1 (swapCode (commLo k s)) (setFld .spnComm 0 k 4 3 (swapCode (commHi k s)) s)) (gatesLow s)
  let s := s.modSpn fun v => { v with swapped := true, state := .align, step := 0, qual := 0, opp := 0 }
  driveStep (ev .spn 0x0712 0 0 0 s)

/-! ### Crossings, lock and AT_SPEED (R268, R274, R276, R278, R279) -/

/-- AT_SPEED is declared. -/
def setAtSpeed (s : State) : State :=
  let s := s.modSpn fun v => { v with state := .atSpeed, unlReq := false }
  let s := s.modRvr fun r => { r with capHold := false }
  raiseLine 377 (ev .spn 0x0702 s.spn.period 0 0 s)

/-- The bounds of R274 over the 24 step periods of a revolution. -/
def revGood (l : List Nat) (target : Nat) : Bool :=
  let sum := l.sum
  let mean : Int := 6 * 10 ^ 9 - (target * sum : Nat)
  mean.natAbs * 5000 ≤ target * sum && l.all fun p => (24 * (p : Int) - sum).natAbs * 1000 ≤ sum

/-- A step period joins its revolution; a revolution that ends is judged. -/
def revStep (period : Nat) (s : State) : State :=
  let l := s.spn.revPeriods ++ [period]
  if l.length < 24 then s.modSpn fun v => { v with revPeriods := l, revSteps := l.length }
  else
    let good := revGood l (spnTarget s)
    let n := if good then min 32 (s.spn.goodRevs + 1) else 0
    let s := s.modSpn fun v => { v with revPeriods := [], revSteps := 0, goodRevs := n }
    if good then if n = 32 && s.spn.state == .accel && s.spn.locked then setAtSpeed s else s
    else s.modSpn fun v => { v with state := if v.state == .atSpeed then .accel else v.state }

/-- Twelve qualified crossings lock the commutation: in OPENLOOP the attempt has succeeded, in recovery 0x0731. -/
def lockReached (s : State) : State :=
  if s.spn.state == .openLoop then
    s.modSpn fun v => { v with locked := true, state := .accel, qual := 0, unqual := 0, goodRevs := 0, revPeriods := [] }
  else
    let s := s.modSpn fun v => { v with locked := true, qual := 0, unqual := 0, goodRevs := 0, revPeriods := [] }
    raiseLine 381 (ev .spn 0x0731 (now s - s.spn.lostAt) (spnRpm s) 0 s)

/-- A qualified crossing. -/
def crossingGood (s : State) : State :=
  let s := s.modSpn fun v => { v with unqual := 0, qual := v.qual + 1 }
  if !s.spn.locked && 12 ≤ s.spn.qual then lockReached s else s

/-- An unqualified or missing crossing. With MISS of them in a row ACCEL and AT_SPEED lose lock (R278), and RECTIFY goes
back to the body diodes (R287). -/
def crossingBad (s : State) : State :=
  let s := s.modSpn fun v => { v with qual := 0, unqual := v.unqual + 1 }
  if zeroAsOne (fld .lockcfg 0 0 25 23 s) ≤ s.spn.unqual then
    if s.spn.state == .rectify then s.modSpn fun v => { v with locked := false, gates := 0 }
    else if s.spn.locked && (s.spn.state == .accel || s.spn.state == .atSpeed) then lockLost s
    else s
  else s

/-- ADVANCE, a fraction of a step clamped to 0-0.5. -/
def spnAdvance (s : State) : Int := clamp 0 0x4000 (vget s.sve[(4 : Fin 5)].port 2 0)

/-- A crossing falls in the blanked part of a step. -/
def inBlank (prev period : Nat) (s : State) : Bool :=
  let b : Int := (fld .spnCfg 0 0 15 8 s : Int) * 32768 / 100
  decide ((period : Int) * 32768 < prev * (0x4000 - spnAdvance s + b))

/-- A crossing on the floating phase, one `period` after the last. -/
def execBemfCrossing (period : Nat) (slope : Bool) (s : State) : Out :=
  .next <|
    let v := s.spn
    let p := min period 0xFFFFFE
    let was := spnRpm s
    let known := v.period != 0xFFFFFF
    if !(spnLive s) || !v.turning then s
    else if v.state == .openLoop && slope != commSlope v.step s then
      let s := s.modSpn fun v => { v with opp := v.opp + 1, qual := 0 }
      if 6 ≤ s.spn.opp then swapPhases s else s
    else if (v.state == .openLoop || v.state == .accel || v.state == .atSpeed)
        && (slope != commSlope v.step s || (known && inBlank v.period p s)) then s
    else
      let win := fld .lockcfg 0 0 31 26 s
      let q := known && ((p : Int) - v.period).natAbs * 100 ≤ win * v.period
      let s := s.modSpn fun v => { v with period := p, opp := 0 }
      match v.state with
      | .openLoop => if q then crossingGood s else s.modSpn fun v => { v with qual := 0 }
      | .accel | .atSpeed => unloadCheck was (revStep p (if q then crossingGood s else crossingBad s))
      | .rectify =>
        let s := if s.spn.gates = 0 then s else if q then s.modSpn fun v => { v with unqual := 0 } else crossingBad s
        unloadCheck was s
      | _ => brakeSpeed (unloadCheck was s)

/-- SPN commutates to the next step; `missed`: the expected crossing did not come. -/
def execCommutation (missed : Bool) (s : State) : Out :=
  .next <|
    if spnLive s && (spnDriving s || s.spn.state == .rectify) && s.spn.state != .align then
      let s := if missed then crossingBad s else s
      if s.spn.state == .recover then s
      else
        let s := s.modSpn fun v => { v with step := (v.step + 1) % 6 }
        if s.spn.state == .rectify && s.spn.gates == 0 then s else driveStep s
    else s

/-- A float period ends: with crossings on all three phases the rotor is placed (R279, R287). -/
def execFloatPeriodEnd (pos : Option (Fin 6 × Nat)) (s : State) : Out :=
  .next <|
    match pos with
    | none => s
    | some (k, period) =>
      let was := spnRpm s
      if !(spnLive s) then s
      else if s.spn.state == .recover && s.spn.brk.isNone then
        let s := s.modSpn fun v => { v with period := min period 0xFFFFFE, step := k.val, turning := true }
        let s := unloadCheck was s
        if belowPct (spnRpm s) (fld .lockcfg 0 0 7 0 s) s then recoveryFails s
        else driveStep (s.modSpn fun v => { v with state := .accel, qual := 0, unqual := 0, revPeriods := [], goodRevs := 0 })
      else if s.spn.state == .rectify && s.spn.gates == 0 then
        let s := s.modSpn fun v => { v with period := min period 0xFFFFFE, step := k.val, unqual := 0 }
        driveStep (unloadCheck was s)
      else s

/-- RECMS passes without lock (R279). -/
def execRecoveryTimeout (s : State) : Out :=
  .next <|
    let v := s.spn
    if spnLive s && v.brk.isNone && (v.state == .recover || (v.state == .accel && !v.locked)) then
      recoveryFails (advanceTo ((v.lostAt + zeroAsOne (fld .lockcfg 0 0 22 16 s)) * 1000) s)
    else s

/-! ### The PWM centre and the speed law (R269-R273) -/

/-- The window of R269, in counts of 10 ns. -/
def sampleWindow (s : State) : Nat := fld .pwmcfg 0 0 31 24 s + 40

/-- The free interval around a centre that the edges of the PWM alone leave, in 1/32,768 counts (R269). -/
def freeInterval (s : State) : Int := 2500 * (32768 - s.spn.duty)

/-- What the free interval lacks of the window, in 1/32,768 counts. -/
def freeLack (s : State) : Int := sampleWindow s * 32768 - freeInterval s

/-- The pulse shift (R270): the smallest whole number of counts that gives the window at an even-numbered centre, at most
SHIFTMAX, which acts as 200 above 200. Each of the two pulses moves by it. -/
def pulseShift (s : State) : Nat :=
  min (min 200 (fld .pwmcfg 0 0 15 8 s)) (((freeLack s).toNat + 65535) / 65536)

/-- The pulses of an even-numbered centre cannot move far enough for the window. -/
def shiftShort (s : State) : Bool := s.spn.shift && decide (pulseShift s * 65536 < freeLack s)

/-- Shift mode (R270): entered when the free interval is shorter than the window, left after 16 wide ones. -/
def shiftStep (s : State) : State :=
  if 0 < freeLack s then s.modSpn fun v => { v with shift := true, wide := 0, odd := !v.odd }
  else s.modSpn fun v =>
    { v with wide := if v.shift then v.wide + 1 else 0, shift := v.shift && v.wide < 15, odd := !v.odd }

/-- The current of a phase, W being minus the sum of U and V. -/
def phaseCur (p : Nat) (iu iv : Int) : Int := match p with | 0 => iu | 1 => iv | _ => -(iu + iv)

/-- A fraction as Q1.15, to nearest, saturating. -/
def frac (x : Int) (d : Nat) : Int := if d = 0 then 0 else sat16 (roundDiv (x * 32768) d)

/-- The inputs of SVE4 (R272). Elapsed fraction and chopper current come from outside: free values (log 2). -/
def spnInputs (iu iv ilink : Int) (pred : Bool) (s : State) : State :=
  let v := s.spn
  let t := spnTarget s
  let ind := fun b : Bool => if b then (0x4000 : Int) else 0
  let l : List Int := [frac ((t : Int) - spnRpm s) t, frac (spnRpm s) (2 * t), sat16 iu, sat16 iv, sat16 (-(iu + iv)),
    sat16 ilink, ind pred, draw 32768 s, v.duty, frac v.vmot 19200, signed 16 (draw 65536 s.drawn),
    ind v.locked, ind (v.state == .accel), ind (v.state == .atSpeed)]
  s.drawn.drawn.modSve 4 fun e => { e with inp := Vector.ofFn fun i => l.getD i.val 0, pesOk := true }

/-- A sample of SVE4: its rows, its ports, its trace and the sample boundary. -/
def spindleSample (s : State) : State :=
  if s.sve[(4 : Fin 5)].run && !(heldBlk .sve 4 s) then
    let s := sveBump 4 0 1 s
    let (s, r) := mainPhase 4 s
    let s := sampleBound 4 (traceStore 4 r s)
    if s.sve[(4 : Fin 5)].run then prePhase 4 s else s
  else s

/-- The duty of the next period (R267, R273): SVE4's DUTY, scaled by the current limit in force and by DUTYMAX. -/
def limitDuty (ilink : Int) (s : State) : State :=
  let d := max 0 (vget s.sve[(4 : Fin 5)].port 0 0)
  let lim : Int := if spinupLeave s then fld .spnIlim 0 0 31 16 s else fld .spnIlim 0 0 15 0 s
  let over_ := decide (lim < ilink)
  let d := if over_ then d * lim / ilink else d
  s.modSpn fun v => { v with limited := over_, duty := min d (fld .pwmcfg 0 0 7 0 s * 128) }

/-- A PWM centre: the current is sampled or predicted, SVE4 runs the speed law, the limit applies. `edge`: an edge that
cannot move falls inside the window. -/
def execPwmCentre (iu iv : Int) (vmot : Nat) (edge : Bool) (s : State) : Out :=
  .next <|
    if spnLive s then
      let s := shiftStep (s.modSpn fun v => { v with vmot := vmot })
      let pred := edge || (s.spn.shift && s.spn.odd) || shiftShort s
      if pred && s.spn.pred = 3 && spnDriving s then
        let s := raiseLine 380 (ev .spn 0x0720 s.spn.step (par s.spn.duty) 0 s)
        let s := if s.spn.locked then lockGone 0x0720 s else s
        unloadEntry (s.modSpn fun v => { v with
          pred := 0, gates := 0, locked := false, state := .recover, lostAt := now s, cause := 0x20, qual := 0, brk := none
          goodRevs := 0, revPeriods := [] })
      else
        let k := s.spn.step
        let hi := commHi k s
        let lo := commLo k s
        let ip := vget s.sve[(4 : Fin 5)].port 3 0
        let (iu, iv) := if pred then
            let c := fun p => if p = hi then ip else if p = lo then -ip else 0
            (c 0, c 1)
          else (iu, iv)
        let ilink := if pred then ip else phaseCur hi iu iv
        let s := s.modSpn fun v => { v with pred := if pred then min 3 (v.pred + 1) else 0 }
        brakeSpeed (limitDuty ilink (spindleSample (spnInputs iu iv ilink pred s)))
    else s

/-! ### The chopper and the rail (R283, R284, R286) -/

/-- The motor rail crosses a threshold (R58). SUP senses it in every power state; SPN drives the chopper while its domain
is on (R283). -/
def execMotorRailThreshold (mv : Nat) (s : State) : Out :=
  .next <|
    let s := s.modSpn fun v => { v with vmot := mv }
    if pdOn 13 s then
      s.modSpn fun v => { v with
        chopOn := if 13800 ≤ mv then !v.chopFlt else if mv ≤ 13200 then false else v.chopOn
        chopWatch := 13800 ≤ mv && !v.chopFlt && !v.chopOn }
    else s

/-- The chopper is declared faulty (R284), and braking goes on under R285. -/
def execChopperFault (cond : Fin 3) (mv : Nat) (s : State) : Out :=
  .next <|
    let held := match cond with | 0 | 1 => s.spn.chopOn | _ => decide (14500 < mv)
    if spnLive s && held && !s.spn.chopFlt then
      let s := raiseLine 379 (ev .spn 0x0740 mv cond 0 s)
      let s := s.modSpn fun v => { v with chopFlt := true, chopOn := false, chopWatch := false, cause := 0x40, vmot := mv }
      if s.spn.state == .brake then
        let s := requestUnload (gatesLow s)
        if anyLoaded s then s.modSpn fun v => { v with brk := some .diodes }
        else s.modSpn fun v => { v with brk := some .short, gates := shortGates s }
      else s
    else s

/-- The chopper conducts while commanded off; `cur` in 1/256 of sense full scale. -/
def execChopperConducting (cur : Nat) (s : State) : Out :=
  .next <|
    if spnLive s && !s.spn.chopOn && fld .brkcfg 0 0 23 16 s < cur then
      raiseLine 379 (ev .spn 0x0741 cur 0 0 (s.modSpn fun v => { v with chopFlt := true, cause := 0x41 }))
    else s

/-- The rail reaches 16.0 V (R58, R286): SUP records it in every power state, and SPN faults where its domain is on. -/
def execRailOvervoltage (mv : Nat) (s : State) : Out :=
  .next <|
    if s.sys.aux && 16000 ≤ mv then
      let st := spnCode s.spn.state
      let s := s.modSpn fun v => { v with vmot := mv }
      if pdOn 13 s then raiseLine 380 (ev .sup 0x0C30 mv st 0 (spnFault 0x0C30 s)) else ev .sup 0x0C30 mv st 0 s
    else s

/-- A phase fault met during spin-up records 0x0703 with cause 1 (R277). -/
def spinupPhaseFault (st : SpnState) (s : State) : State :=
  if st == .align || st == .openLoop then ev .spn 0x0703 1 s.spn.attempt 0 s else s

/-- SPN_FLT_N falls (R60, R66). -/
def execSpnFltNLow (s : State) : Out :=
  .next <|
    if pdOn 13 s then
      let st := s.spn.state
      let s := spinupPhaseFault st (raiseLine 380 (ev .spn 0x0711 0xFF s.spn.step 0 s))
      requestUnload (spnFault 0x0711 s)
    else s

/-- A phase is open (R66): the drive stops, the actuators unload, and the remaining phases brake by short circuit; during
spin-up the fault latches (R277). -/
def execPhaseOpen (ph : Fin 3) (s : State) : Out :=
  .next <|
    if spnLive s && spnDriving s then
      let st := s.spn.state
      let s := spinupPhaseFault st (raiseLine 380 (ev .spn 0x0710 ph s.spn.step 0 s))
      let s := s.modSpn fun v => { v with openPhase := some ph.val }
      if st == .align || st == .openLoop then requestUnload (spnFault 0x0710 s)
      else
        let s := if s.spn.locked then lockGone 0x0710 s else s
        askBrake 2 (gatesLow (s.modSpn fun v => { v with locked := false, cause := 0x10 }))
    else s

/-- SUP_VIN as sensed; below -1.6 V the motor supply is reversed (R66). -/
def execSupplyReversed (mv : Int) (s : State) : Out :=
  .next <|
    let s := s.modSpn fun v => { v with vin := mv }
    if mv < -1600 then ev .sup 0x0C20 (par mv) 0 0 s else s

/-! ### Power loss (R287) -/

/-- SPN enters RECTIFY from any state in which it drives or the rotor turns. -/
def enterRectify (s : State) : State :=
  if (s.spn.turning || spnDriving s) && s.spn.state != .faulted then
    let placed := s.spn.locked
    let s := s.modSpn fun v => { v with state := .rectify, brk := none, gates := 0, goodRevs := 0, unqual := 0 }
    unloadEntry (if placed then driveStep s else s)
  else s

/-- The commit record is durable, or the commit abandoned, and no engine is loaded: COAST. -/
def execRectifyExit (s : State) : Out :=
  .next <|
    if spnLive s && s.spn.state == .rectify && !s.rvr.commit && !(anyLoaded s) then
      s.modSpn fun v => { v with state := .coast, gates := 0, locked := false, brkAt := now s }
    else s

/-! ### PSI (R62, R289, R290) -/

/-- PSI_FLTn_N low for 20 ns (R62): a fault decision on the channel, and its laser OFF (R297). -/
def execPreampFault (n : Fin 4) (s : State) : Out :=
  .next <|
    if chanExists n s && pdOn 13 s then
      laserOff n (faultDecision n 0x0810 (ev .psi 0x0810 s.asq[n].head n 0 s))
    else s

/-- What the end of a frame means to the block that queued it. -/
def frameUsed (n : Fin 4) (f : Frame) (ok : Bool) (data : Nat) (s : State) : State :=
  match f.use with
  | .unit =>
    let s := s.modPsi n fun p => { p with ack := ok, ustat := if f.write then p.ustat else data % 256 }
    waitComes n 15 s
  | .firmware =>
    raiseLine 388 (s.modPsi n fun p => { p with
      fwBusy := false, fwDone := true, fwAck := ok, fwData := if f.write then p.fwData else data })
  | .dcPreheat => s.modLaser n fun l => { l with preheatAck := if ok && l.level == .preheat then some s.us else l.preheatAck }
  | _ => s

/-- A frame completes; 0b10 acknowledges it. The next frame follows by priority. -/
def execPsiFrameDone (n : Fin 4) (ack : BitVec 2) (data : BitVec 16) (s : State) : Out :=
  .next <|
    match s.psi[n].cur with
    | some f =>
      if chanExists n s && pdOn 13 s && !(heldBlk .psi 0 s) then
        let ok := ack == 2
        let (nx, rest) := nextFrame s.psi[n].queue
        let s := s.modPsi n fun p => { p with cur := nx, queue := rest }
        let s := if ok then s else raiseLine 389 (ev .psi 0x0812 n f.addr 0 s)
        frameUsed n f ok data.toNat s
      else s
    | none => s

/-- A write of PSI_FWCMDn: W and FRAME are stored; GO queues the frame while none is under way. -/
def writeFwcmd (n : Fin 4) (v : Nat) (s : State) : State :=
  let s := s.modPsi n fun p => { p with fwW := v.testBit 29, fwFrame := bits v 28 0 }
  if v.testBit 31 && !s.psi[n].fwBusy then
    let f : Frame := { cls := .firmware, use := .firmware, write := v.testBit 29, addr := bits v 28 16, data := bits v 15 0 }
    psiQueue n f (s.modPsi n fun p => { p with fwBusy := true, fwDone := false })
  else s

def execPsiFwcmdGo (_m : Master) (n : Fin 4) (v : Word) (s : State) : Out :=
  .next <| access .psi 0 (Reg.addr .fwcmd 0 n) (writeFwcmd n (v.toNat ||| 2 ^ 31)) s

/-- UNITGO to PSI: one frame (R176, R290). -/
def psiUnitgo (n : Fin 4) (f : Nat) (s : State) : State :=
  psiQueue n { cls := .unitgo, use := .unit, write := f.testBit 29, addr := bits f 28 16, data := bits f 15 0 } s

/-! ### The laser monitor (R294, R295, R299) -/

/-- A reading lies within WIN % of what is expected. -/
def inWindow (reading expected win : Nat) : Bool := ((reading : Int) - expected).natAbs * 100 ≤ win * expected

/-- A laser fault is declared (R295). -/
def laserFault (n : Fin 4) (reading : Nat) (s : State) : State :=
  let h := s.lsr.ch[n].head
  let s := raiseLine (384 + n) (ev .lsr 0x0801 n (h % 64 <<< 26 + reading) 0 s)
  let s := if s.rwc[n].lg || s.rwc[n].wg then faultDecision n 0x0801 s else s
  let s := if s.lsr.ch[n].level = .off then s else laserToBias n s
  s.modLaser n fun l => { l with fault := true, bad := 0 }

/-- A reading judged against the window (R294, R295). -/
def judgeReading (n : Fin 4) (reading : Nat) (s : State) : State :=
  let l := s.lsr.ch[n]
  match l.entry with
  | none => s
  | some e =>
    if inWindow reading (if s.rwc[n].lg then e.monwr else e.monph) e.win then
      let settled := match l.preheatAck with
        | some t => decide (t + fld .moncfg 0 0 23 16 s ≤ s.us)
        | none => false
      let s := s.modLaser n fun l => { l with bad := 0, atPwr := l.atPwr || settled }
      if settled then waitComes n 12 s else s
    else
      let s := s.modLaser n fun l => { l with atPwr := false, bad := l.bad + 1 }
      if zeroAsOne (fld .moncfg 0 0 15 12 s) ≤ s.lsr.ch[n].bad then laserFault n reading s else s

/-- The read power loop (R299): one step of the code towards the target, at most once per 100 us. -/
def readPower (n : Fin 4) (reading : Nat) (s : State) : State :=
  let l := s.lsr.ch[n]
  match l.entry with
  | none => s
  | some e =>
    let off : Int := (reading : Int) - e.monph
    if e.win * e.monph < off.natAbs * 200 && l.rdStepAt + 100 ≤ s.us then
      let c := if off < 0 then min 0xFFFF (l.rdCode + 1) else l.rdCode - 1
      let s := s.modLaser n fun l => { l with rdCode := c, rdStepAt := s.us }
      let s := psiQueue n (wframe .level .dcRead (dcAddr s) c) s
      if e.bias * 25 < ((c : Int) - e.bias).natAbs * 100 then laserFault n reading s else s
    else s

/-- LSR reads the monitor, one MONPER after the last reading. A reading whose frame saw LGn change is not taken. -/
def execLaserMonitorRead (n : Fin 4) (reading : BitVec 16) (lgChanged : Bool) (s : State) : Out :=
  .next <|
    let l := s.lsr.ch[n]
    let above := l.level == .preheat
    let readLoop := optical s && !above && s.sve[sveOf n].loaded && !s.rwc[n].wg && l.level == .bias
    if chanExists n s && pdOn 13 s && !(heldBlk .lsr 0 s) && (above || readLoop) then
      let s := elapse (zeroAsOne (fld .moncfg 0 0 31 24 s)) s
      if lgChanged then s
      else
        let s := s.modLaser n fun l => { l with mon := reading.toNat }
        if above then judgeReading n reading.toNat s else readPower n reading.toNat s
    else s

end Sys2Proof.Machine
end

