-- ==== Sys2Proof/Machine/Trim.lean ====
section
/-!
DEFINITION. TRM: the trims, their targets and the taper (16_thermal_and_calibration.md, R374-R381, R214).
-/

set_option Elab.async false

namespace Sys2Proof.Machine

open Sys2Proof

/-! ### The inventory (R374) -/

/-- Trim t exists: trim k of a present channel, or a global trim. -/
def trimExists (t : Nat) (s : State) : Bool := (t < 128 && t % 32 ≤ 24 && chanExists (t / 32) s) || (128 ≤ t && t ≤ 136)

/-- Width of trim t in bits. -/
def trimWidth (t : Nat) : Nat :=
  if t < 128 then
    match t % 32 with
    | 2 | 3 | 8 | 17 => 10 | 6 | 7 | 22 => 6 | 23 => 4 | 24 => 5 | _ => 8
  else match t - 128 with | 0 => 10 | 2 | 5 | 6 | 7 => 6 | _ => 8

/-- Step class of trim t. -/
def trimClass (t : Nat) : Nat :=
  if t < 128 then
    let k := t % 32
    if 2 ≤ k ∧ k ≤ 7 then 1 else if 8 ≤ k ∧ k ≤ 21 then 3 else 2
  else match t - 128 with | 0 | 1 => 0 | 2 | 8 => 4 | _ => 5

/-- Direction of the automatic statistic; 0 where the trim has none. -/
def trimDir (t : Nat) : Int :=
  if t < 128 then
    let k := t % 32
    if k = 2 ∨ k = 3 ∨ k = 24 then 1 else if (4 ≤ k ∧ k ≤ 7) ∨ (9 ≤ k ∧ k ≤ 21) then -1 else 0
  else match t - 128 with | 0 | 1 => 1 | 3 | 4 => -1 | _ => 0

/-- The loop that R214 freezes for a G1 trim: 0 gain, 1 offset, 2 asymmetry. -/
def trimLoop (t : Nat) : Nat := t % 32 / 2 - 1

/-- A trim as fused (log 13). -/
def trimReset (t : Nat) : Trim :=
  { t := t, target := 0, code := 0, auto := 0, comp := 0, limited := false, bound := false, count := 0, stat := 0
    last := none, since := none, aged := false }

/-- Trim t. -/
def trimAt (t : Nat) (s : State) : Trim := (s.trm.trims.find? (·.t == t)).getD (trimReset t)

/-- Trim t changed. -/
def modTrim (t : Nat) (f : Trim → Trim) (s : State) : State :=
  let x := f (trimAt t s)
  { s with trm := { s.trm with trims := (s.trm.trims.filter (·.t != t)) ++ [x] } }

/-- A trim is pending: CODE ≠ TARGET. -/
def trimPending (t : Nat) (s : State) : Bool := let x := trimAt t s; x.code != x.target

/-- The trims that are pending. -/
def pendingTrims (s : State) : List Nat := (s.trm.trims.filter fun x => x.code != x.target).map (·.t)

/-- TAPER_REQ of a channel: a G1 or G2 trim of it is pending (R379). -/
def taperReq (n : Nat) (s : State) : Bool :=
  (pendingTrims s).any fun t => t < 128 && t / 32 == n && (trimClass t == 1 || trimClass t == 2)

/-- TRM_PEND. -/
def trmPend (s : State) : Nat :=
  flag (taperReq 0 s) 0 + flag (taperReq 1 s) 1 + flag (taperReq 2 s) 2 + flag (taperReq 3 s) 3
    + flag ((pendingTrims s).any fun t => trimClass t == 0 || trimClass t == 3 || trimClass t == 5) 4

/-! ### Targets (R375-R377) -/

/-- TARGET of a trim follows BASE, COMPTERM and AUTOTERM; a limited target is recorded once per limiting. -/
def retarget (t : Nat) (s : State) : State :=
  if trimExists t s then
    let x := trimAt t s
    let sum := (fld .trmComp0 0 t 11 0 s : Int) + x.comp + x.auto
    let top : Int := 2 ^ trimWidth t - 1
    let tg := (clamp 0 top sum).toNat
    let lim := sum < 0 || top < sum
    let s := modTrim t (fun x => { x with
      target := tg, limited := lim
      since := if tg = x.code then none else x.since.orElse fun _ => some s.us
      aged := if tg = x.code then false else x.aged }) s
    if lim && !x.limited then setIrqStat .trm 0 1 (ev .trm 0x0D01 t (par sum) 0 s) else s
  else s

/-- Neighbours of a sensor (table Sensor map). -/
def sensNeighbours (k : Nat) : List Nat :=
  ([[1, 18], [0, 2], [1, 3], [2, 19], [5, 20], [4, 6], [5, 7], [6, 21], [9, 12], [8, 10], [9, 11], [10, 13]] ++
   [[8, 13], [11, 12], [15, 18], [14, 16], [15, 17, 19], [16, 19], [0, 14, 22], [3, 16, 17], [4, 21], [7, 20, 23],
    [18, 23], [21, 22]]).getD k []

/-- Sensor k. -/
def sensor (k : Nat) (s : State) : Sensor := vget s.thm.sens k {}

/-- The temperature that a trim's sensor field names, as a sum of readings and their number: the sensor's, or its valid
neighbours' while it is excluded or invalid (R376). -/
def trimTemp (k : Nat) (s : State) : Option (Int × Nat) :=
  if 24 ≤ k then none
  else if (sensor k s).valid && !(sensor k s).excl then some ((sensor k s).temp, 1)
  else
    let l := (sensNeighbours k).filter fun j => (sensor j s).valid
    if l.isEmpty then none else some (l.foldl (fun a j => a + (sensor j s).temp) 0, l.length)

/-- COMPTERM at a temperature: C1 in Q4.12, C2 in 2^-16, T in quarters of a degree, rounded to nearest. -/
def compTerm (c1 c2 t0 : Int) (sum : Int) (k : Nat) : Int :=
  let d := sum - 4 * t0 * k
  roundDiv (c1 * d * 64 * k + c2 * d * d) (k * k * 2 ^ 20)

/-- COMPTERM of a trim (R376); a temperature that no sensor supplies, or a term beyond 16 bits, gives a free value. -/
def computeComp (t : Nat) (s : State) : State :=
  let put := fun (v : Int) (s : State) => modTrim t (fun x => { x with comp := v }) s
  if fld .trmComp2 0 t 16 16 s = 0 then put 0 s
  else
    let v := (trimTemp (fld .trmComp2 0 t 12 8 s) s).map fun (sum, k) =>
      compTerm (signed 16 (fld .trmComp1 0 t 15 0 s)) (signed 16 (fld .trmComp1 0 t 31 16 s))
        (signed 8 (fld .trmComp2 0 t 7 0 s)) sum k
    match v with
    | some v => if -32768 ≤ v ∧ v ≤ 32767 then put v s else put (signed 16 (draw (2 ^ 16) s)) s.drawn
    | none => put (signed 16 (draw (2 ^ 16) s)) s.drawn

/-- AUTOTERM of a trim in one period (R377): at most one code; it holds at ±AUTOLIM. -/
def computeAuto (t count : Nat) (stat : Int) (s : State) : State :=
  let s := modTrim t (fun x => { x with count := min count 0xFFFF, stat := signed 16 (field 16 stat) }) s
  if fld .trmComp0 0 t 31 31 s = 1 && count != 0 then
    let x := trimAt t s
    let ref := signed 16 (fld .trmStat0 0 t 15 0 s)
    let dead := signed 16 (fld .trmStat0 0 t 31 16 s)
    let lim : Int := fld .trmComp0 0 t 30 24 s
    let d := if x.stat < ref - dead then trimDir t else if ref + dead < x.stat then -(trimDir t) else 0
    let v := clamp (-lim) lim (x.auto + d)
    let at_ := v.natAbs == lim.natAbs && v != x.auto
    let s := modTrim t (fun x => { x with auto := v, bound := x.bound || at_ }) s
    if at_ && !x.bound then ev .trm 0x0D02 t (par v) 0 s else s
  else s

/-- One computation of every trim (R376, R377); `stats` gives (trim, samples of the period, statistic). -/
def execTrimCompute (stats : List (Nat × Nat × Int)) (s : State) : Out :=
  .next <|
    if pdOn 2 s && !(heldBlk .trm 0 s) then
      (List.range 137).foldl (fun s t =>
        if trimExists t s then
          let (c, v) := match stats.find? (fun x => x.1 == t) with | some x => x.2 | none => (0, (trimAt t s).stat)
          retarget t (computeAuto t c v (computeComp t s))
        else s) s
    else s

/-! ### Taper (R378-R380, R214) -/

/-- The length of a channel's offered gap in wedges: a word with GAP set and RG and WG low, and a UNITGO to TRM. -/
def offeredGap (n : Fin 4) (s : State) : Option Nat :=
  if level n 24 s && !(level n 27 s) && !(level n 31 s) then s.trm.gap[n] else none

/-- A settle time in ns fits in a gap of that many wedges at the present speed. -/
def gapHolds (wedges settle : Nat) (s : State) : Bool := settle * spnRpm s * trackWedges s ≤ wedges * 60 * 10 ^ 9

/-- WGSETTLE in ns. -/
def wgSettle (s : State) : Nat := 10 * fld .trmCfg 0 0 31 24 s

/-- A G1 or G2 trim fits in an offered gap of that many wedges. -/
def fitsOffered (t w : Nat) (s : State) : Bool :=
  if trimClass t = 1 then 1 ≤ w && gapHolds w (wgSettle s) s else t % 32 != 24 && 2 ≤ w && gapHolds w 2000 s

/-- A channel trim has an opportunity now: it fits in the offered gap and has not stepped in it, or stands in a wedge
gap (G1, magnetic), or no task is ACTIVE with RG and WG low (G2). -/
def gapOpportunity (n : Fin 4) (t : Nat) (s : State) : Bool :=
  let offered := match offeredGap n s with | some w => fitsOffered t w s | none => false
  if trimClass t = 1 then ((!(optical s) && s.rwc[n].inGap) || offered) && !(s.trm.stepped.contains t)
  else (!s.asq[n].avalid && !s.rwc[n].wg && !(level n 27 s) && !(level n 31 s)) ||
    (offered && !(s.trm.stepped.contains t))

/-- The class of a trim allows a step (table Step classes). -/
def opportunity (t : Nat) (s : State) : Bool :=
  let n := finCh (t / 32)
  match trimClass t with
  | 0 => true
  | 1 | 2 => chanOn n s && gapOpportunity n t s
  | 3 => chanOn n s && !s.sve[sveOf n].loaded
  | 4 => s.sys.stage == 4 || s.sys.stage == 5
  | _ => s.spn.state == .stopped || spnDriving s

/-- The least time between steps, us. -/
def stepRate (cls : Nat) : Nat := match cls with | 0 => 1000 | 3 => 10 | 5 => 10000 | _ => 0

/-- The working value of the frozen loop moves by the predicted effect of a step of `d` codes (R214): PRED in Q8.8, a
fraction of a unit going to either neighbour (a free choice), within the loop's limits. -/
def feedForward (n : Fin 4) (t : Nat) (d : Int) (s : State) : State :=
  let r := t % 2
  let loop := trimLoop t
  let p := signed 16 (fld .trmTrim1 0 t 31 16 s) * d
  let (dv, s) := if p % 256 = 0 then (p / 256, s) else (p / 256 + draw 2 s, s.drawn)
  let (i, w, lo) := match loop with | 0 => (29, 8, 8 * r) | 1 => (30, 16, 16 * r) | _ => (31, 8, 8 * r)
  let old := (vget s.rwc[n].work i 0).toNat
  let x := bits old (lo + w - 1) lo
  let y : Int := match loop with
    | 0 => clamp 0 255 (x + dv)
    | 1 => clamp (-8192) 8192 (signed 16 x + dv)
    | _ => clamp (-64) 64 (signed 8 x + dv)
  let v := old - x <<< lo + field w y <<< lo
  let s := s.modRwc n fun c => { c with
    taperFrozen := c.taperFrozen ||| 1 <<< loop, work := vmod c.work i fun _ => BitVec.ofNat 32 v }
  rwcBump n 20 1 s

/-- No step that fits remains in the offered gap: WAIT 14 completes. -/
def gapDone (n : Fin 4) (s : State) : Bool :=
  match offeredGap n s with
  | some w => !((pendingTrims s).any fun t =>
      t < 128 && t / 32 == n.val && (trimClass t == 1 || trimClass t == 2) && fitsOffered t w s &&
        !(s.trm.stepped.contains t))
  | none => !(taperReq n s)

/-- One step of a trim: at most STEP codes towards TARGET; a G4 trim takes its target whole. -/
def stepTrim (t : Nat) (s : State) : State :=
  let x := trimAt t s
  let cls := trimClass t
  let s := match x.last with | some l => advanceTo (l + stepRate cls) s | none => s
  let most : Int := if cls = 4 then 4096 else zeroAsOne (fld .trmTrim1 0 t 15 8 s)
  let d := clamp (-most) most ((x.target : Int) - x.code)
  let s := modTrim t (fun x => { x with
    code := ((x.code : Int) + d).toNat, last := some s.us
    since := if (x.code : Int) + d = x.target then none else x.since
    aged := if (x.code : Int) + d = x.target then false else x.aged }) s
  if t < 128 then
    let n := finCh (t / 32)
    let s := if cls = 1 then feedForward n t d s else s
    let s := if t % 32 = 24 then s.modRwc n fun r => { r with locked := false, goodRun := 0 } else s
    let s := if cls = 1 ∨ cls = 2 then { s with trm := { s.trm with stepped := insertNat t s.trm.stepped } } else s
    if (offeredGap n s).isSome && gapDone n s then waitComes n 14 s else s
  else s

def execTaperStep (t : Fin 137) (s : State) : Out :=
  .next <|
    if pdOn 2 s && !(heldBlk .trm 0 s) && trimPending t s && opportunity t s then stepTrim t s else s

/-- A trim has been pending for AGEMAX (R380): time moves on to that instant. -/
def execTrimAge (t : Fin 137) (s : State) : Out :=
  .next <|
    let x := trimAt t s
    match x.since with
    | some i =>
      if pdOn 2 s && !(heldBlk .trm 0 s) && !x.aged then
        let s := advanceTo (i + zeroAsOne (fld .trmCfg 0 0 23 16 s) * 1000000) s
        let s := modTrim t (fun x => { x with aged := true }) s
        setIrqStat .trm 0 2 (ev .trm 0x0D03 t ((x.target : Int) - x.code).natAbs 0 s)
      else s
    | none => s

/-- UNITGO to TRM: a gap of that many wedges is offered (R379). -/
def trmUnitgo (n : Fin 4) (len : Nat) (s : State) : State :=
  { s with trm := { s.trm with
    gap := s.trm.gap.set n (some len), stepped := s.trm.stepped.filter fun t => t / 32 != n.val } }

/-- The channel trims are written at their codes when channel domains are restored (R381). -/
def trimsRestored (mask : Nat) (s : State) : State := ev .trm 0x0D05 mask 0 0 s

end Sys2Proof.Machine
end

