-- ==== Sys2Proof/Machine/Flags.lean ====
section
/-!
DEFINITION. The conditions that a microword tests (R172), the unit status behind U0-U7, and the events that satisfy a
WAIT (R173) (08_actuator_sequencers.md, R346).
-/

set_option Elab.async false

namespace Sys2Proof.Machine

open Sys2Proof

/-! ### Leave of the task (R186) -/

/-- LEAVE_GRANTED: the task's ticket is granted and has not expired. -/
def leaveGranted (n : Fin 4) (s : State) : Bool :=
  match s.asq[n].ticket with
  | some (k, g) => ticketGranted k g s
  | none => false

/-- The task's ticket is in the queue. -/
def leaveQueued (n : Fin 4) (s : State) : Bool :=
  match s.asq[n].ticket with
  | some (k, g) => s.llt.tickets.any fun t => t.num == k && t.gen == g && t.state == .queued
  | none => false

/-- The port through which ASQn asks for leave. -/
def leavePort (n : Fin 4) : Fin 16 := ⟨9 + n.val, by omega⟩

/-- LEAVE_EXPIRED: the task's ticket has expired or been revoked; a denial or a removal is neither. -/
def leaveExpired (n : Fin 4) (s : State) : Bool :=
  s.asq[n].ticket.isSome && !(leaveGranted n s) && !(leaveQueued n s) && s.llt.ports[leavePort n].state != 3

/-- WAIT 9: the leave that the task asked for has been answered. -/
def leaveAnswered (n : Fin 4) (s : State) : Bool := task n 8 31 31 s == 1 && !(leaveQueued n s)

/-! ### The cipher lane (R346) -/

/-- A key slot in use. -/
def kslot (k : Nat) (s : State) : Option KSlot := s.sec.slots.find? (·.slot == k)

/-- The namespace (NSID - 1) that the ACTIVE task serves: the Ledger entry's with its ordinal, else the command's with
its tag. -/
def taskNs (n : Fin 4) (s : State) : Option Nat :=
  match s.lgr.entries.find? (fun e => e.ord == task n 1 31 0 s && e.tag == task n 2 31 20 s) with
  | some e => some e.ns
  | none => (s.hce.cmds.find? (fun c => c.tag == task n 2 31 20 s)).map fun c => c.cmd.nsid - 1

/-- CIP_READY: the lane holds the task's slot, which is VALID and belongs to the task's namespace. -/
def cipReady (n : Fin 4) (s : State) : Bool :=
  task n 0 10 10 s == 1 && s.sec.lane[n] == some (task n 2 10 0 s) &&
    match kslot (task n 2 10 0 s) s with
    | some k => k.valid && !k.lost && (match taskNs n s with | some x => k.ns == x | none => true)
    | none => false

/-! ### Whole code blocks (R224, R225, R308) -/

/-- BLK_ALIGN. -/
def blkAlign (n : Fin 4) (s : State) : Bool :=
  let count := task n 5 16 0 s
  if optical s then task n 11 31 0 s % 44 == 0 && count % 44 == 0
  else
    match s.rwc[n].zone with
    | none => false
    | some z =>
      if z.code = 0 then true
      else
        let b := blockSectors z.code
        let slot := task n 4 15 0 s
        let i := usableBelow n slot s
        let usable := usableBelow n (slot + 1) s == i + 1
        let whole := usableBelow n z.spt s / b * b
        !s.tpe.grp[n].whole && usable && i % b == 0 && count % b == 0 && i + count ≤ whole

/-! ### Conditions (R172) -/

/-- Unit status U0-U7 of the unit last addressed by UNITGO; of a unit whose status bits the manual does not give, a free
value. -/
def unitStatus (n : Fin 4) (s : State) : Nat :=
  match s.asq[n].lastUnit with
  | 1 => rwcStatus n s
  | 4 => s.psi[n].ustat
  | _ => draw 256 s

/-- The current wedge is wedge 0, or the current address unit is unit 0. -/
def atIndex (n : Fin 4) (s : State) : Bool :=
  if optical s then s.opt.pu[n].aUnit == 0 else s.sve[sveOf n].wedge == 0

/-- Both readers of the task's head are in service. -/
def dualReader (n : Fin 4) (s : State) : Bool := !(optical s) && !(s.rwc[n].single.contains (rwHead n s))

/-- Condition c of sequencer n, tested by a word with a PARAM. BUF_SPACE takes a free value: the manual does not say
what reserves read buffer space (log 9). -/
def condition (n : Fin 4) (c param : Nat) (s : State) : Bool :=
  let a := s.asq[n]
  let v := s.sve[sveOf n]
  let r := s.rwc[n]
  match c with
  | 0 => true | 1 => a.cnt0 == 0 | 2 => a.cnt1 == 0
  | 3 => v.settled | 4 => leaveGranted n s | 5 => leaveExpired n s | 6 => a.headOk | 7 => v.seekOk | 8 => v.onTrack
  | 9 => s.lsr.ch[n].atPwr | 10 => r.locked | 11 => r.syncFound | 12 => r.smaFound | 13 => r.smbFound
  | 14 => slotDefect n s | 15 => lastSector n s | 16 => trackEnd n s | 17 => atIndex n s
  | 18 => a.staged | 19 => draw 2 s == 1
  | 20 => slotFree n (inRecov n s) s | 21 => s.ldp.lastFail[n] | 22 => groupEnd n s | 23 => cipReady n s
  | 24 => a.reqAbort || a.reqDeadline | 25 => a.reqFault
  | 26 => taperReq n s | 27 => s.psi[n].ack | 28 => v.shockWarn[0] || v.shockWarn[1]
  | 29 => optical s | 30 => dualReader n s | 31 => inRecov n s
  | 48 => a.cnt0 == param | 49 => a.cnt0 < param | 50 => a.cnt1 == param | 51 => a.cnt1 < param
  | 52 => blkAlign n s
  | _ =>
    if 32 ≤ c ∧ c ≤ 39 then (task n 0 7 0 s).testBit (c - 32)
    else if 40 ≤ c ∧ c ≤ 47 then (unitStatus n s).testBit (c - 40)
    else false

/-- The draws that a test of condition c uses. -/
def condDrawn (c : Nat) (s : State) : State := if c = 19 ∨ (40 ≤ c ∧ c ≤ 47) then s.drawn else s

/-! ### Waits (R173) -/

/-- A WAIT whose event stands as a condition is satisfied while the condition holds. While the zone entry is bad every
wait on RWCn ends at once (R196). -/
def waitLive (n : Fin 4) (code : Nat) (s : State) : Bool :=
  match code with
  | 0 | 1 => true
  | 7 => s.asq[n].staged
  | 8 => slotFree n (inRecov n s) s
  | 9 => leaveAnswered n s
  | 11 => s.sve[sveOf n].settled
  | 12 => s.lsr.ch[n].atPwr
  | 13 => s.rwc[n].locked || s.rwc[n].zoneBad.isSome
  | 14 => gapDone n s
  | 4 | 5 | 6 => s.rwc[n].zoneBad.isSome
  | _ => false

/-- The executing word's WAIT is satisfied. -/
def waitSat (n : Fin 4) (s : State) : Bool :=
  let a := s.asq[n]
  a.waitDone || waitLive n (mwWait a.word) s

end Sys2Proof.Machine
end

