-- ==== Sys2Proof/Machine/Sequencer.lean ====
section
/-!
DEFINITION. ASQ0-3 and CST: tasks, microwords, requests, results and the activation of microcode images
(08_actuator_sequencers.md, R167-R194, R435).
-/

set_option Elab.async false

namespace Sys2Proof.Machine

open Sys2Proof

/-- Sequencer n runs: it exists, its domain is on and nothing holds it. -/
def asqLive (n : Fin 4) (s : State) : Bool := chanExists n s && chanOn n s && !(heldBlk .asq n s)

/-! ### Task end and results (R184, R181) -/

/-- A result entry is posted. -/
def postResult (n : Fin 4) (r : AsqResult) (s : State) : State :=
  asqLine n 0 (s.modAsq n fun a => { a with results := a.results ++ [r] })

/-- The leave of a task that ends (R186): a granted ticket is released through the port; one still queued is released
as soon as it is granted. -/
def endLeave (n : Fin 4) (s : State) : State :=
  match s.asq[n].ticket with
  | some (k, g) =>
    if leaveGranted n s then releaseTicket (leavePort n) k g s
    else if leaveQueued n s then s.modLlt fun l => { l with orphans := l.orphans ++ [(k, g)] }
    else s
  | none => s

/-- The ACTIVE task is gone: its words read 0 and nothing of it is pending. -/
def clearActive (n : Fin 4) (phase : AsqPhase) (s : State) : State :=
  s.modAsq n fun a => { a with
    atask := Vector.replicate 12 0, avalid := false, phase := phase, issued := false, waitDone := false, stack := []
    reqAbort := false, reqDeadline := false, reqFault := false, faultCause := 0, forced := none, cause := 0
    inAtom := false, atomOver := false, ticket := none, openX := false, dlPassed := false, staged := false, emit := false }

/-- The unload of a task that ends (R254): UNLOADING ends, and LOADED clears with status OK. -/
def unloadEnds (n : Fin 4) (status : Nat) (s : State) : State :=
  s.modSve (sveOf n) fun v =>
    if v.unloading then { v with unloading := false, loaded := v.loaded && status != 0 } else v

/-- The ACTIVE task ends with a status: its result is posted, adaptive state is saved, its leave released and its
controls fall. A FAULT request that no boundary sampled is recorded and discarded (R180). -/
def taskEnd (n : Fin 4) (status cause : Nat) (phase : AsqPhase) (s : State) : State :=
  let a := s.asq[n]
  let r : AsqResult :=
    { tag := task n 2 31 20 s, status := status, opc := task n 0 31 24 s, done := a.done, endpc := a.pc, fail := a.fail
      time := min 0xFFFF (s.us - a.us), cause := cause }
  let s := adaptSave n (levelsFall n s)
  let s := if status = 0x10 then ev .asq 0x0506 n (task n 0 23 18 s) (task n 3 23 0 s) s else s
  let s := if a.reqFault then ev .asq 0x0310 n a.faultCause a.pc s else s
  let s := if status = 2 then healthAdd .unsafeWrites (task n 0 23 18 s) 1 s else s
  let s := if status = 0 && s.sve[sveOf n].unloading then healthAdd .unloads n 1 s else s
  let s := clearActive n phase (unloadEnds n status (endLeave n s))
  let s := tagDone r.tag (postResult n r s)
  if s.asq[n].actHold then asqLine n 6 s else s

/-- A microcode fault (R181). -/
def mcFault (n : Fin 4) (cause : Nat) (s : State) : State :=
  let pc := s.asq[n].pc
  let s := ev .asq 0x0310 n cause pc (s.modAsq n fun a => { a with reqFault := false })
  asqLine n 3 (taskEnd n 0x08 cause .halted s)

/-! ### Promotion (R183, R195, R238, R346) -/

/-- In NVMe power state 1 at most two channels are active at once (R80). -/
def psAllows (n : Fin 4) (s : State) : Bool :=
  s.pwr.ps != 1 || s.sys.pers == .lantern || ((channels s).filter fun m => m != n && s.asq[m].avalid).length < 2

/-- The PENDING task can be promoted. With the 40 MHz crystal failed the channels are not started (R75). -/
def promotable (n : Fin 4) (s : State) : Bool :=
  let a := s.asq[n]
  asqLive n s && a.phase == .idle && !a.avalid && a.pvalid && !((hdrOf .asq n s).ctlHi.testBit 0) && !a.actHold &&
    a.results.length ≤ 5 && !s.clk.xo40failed && psAllows n s

/-- The leave request of the ACTIVE task on port 9 + n (R186). -/
def askLeave (n : Fin 4) (s : State) : State :=
  if task n 8 31 31 s = 1 then
    let s := submitLeave (leavePort n) (task n 8 30 27 s) 0 (task n 8 23 0 s) (task n 0 23 18 s)
      (leaveDl (task n 7 31 0 s)) (task n 9 15 0 s) s
    let p := s.llt.ports[leavePort n]
    if p.state = 3 then s else s.modAsq n fun a => { a with ticket := some (p.ticket, p.gen) }
  else s

/-- CIP loads the task's slot into lane n (R346). -/
def loadLane (n : Fin 4) (s : State) : State :=
  if task n 0 10 10 s = 1 then
    let k := task n 2 10 0 s
    let held := match kslot k s with | some x => x.valid && !x.lost | none => false
    s.modSec fun c => { c with lane := c.lane.set n (if held then some k else none) }
  else s

/-- Promotion: the words move to ACTIVE; the entry of the opcode is where execution begins. -/
def promote (n : Fin 4) (s : State) : State :=
  let s := s.modAsq n fun a => { a with
    atask := a.ptask, avalid := true, pvalid := false, cnt0 := 0, cnt1 := 0, us := s.us, done := 0, fail := 0xFFFF
    secTrack := bits (vget a.ptask 3 0).toNat 23 0, secPtr := bits (vget a.ptask 4 0).toNat 15 0, secCnt := 0
    staged := false, emit := false, levels := 0, waitDone := false, issued := false, dlPassed := false, ldpGo := none
    unitField := 0, counted := [], stored := [], skipMark := false, forced := none, cause := 0, reqAbort := false, reqDeadline := false, reqFault := false
    ticket := none, phase := .running, stack := [], inAtom := false, atomOver := false, openX := false }
  let s := asqLine n 1 s
  let e := dispAt (task n 0 31 24 s) s
  if !e.valid then taskEnd n 0x0C 0 .idle s
  else
    let s := s.modAsq n fun a => { a with pc := e.addr }
    let s := buildSkip n (task n 0 23 18 s) (task n 3 23 0 s) (zoneCopy n s)
    askLeave n (loadLane n s)

def execTaskPromotion (n : Fin 4) (s : State) : Out := .next <| if promotable n s then promote n s else s

/-! ### COMMIT, CANCEL, abort by tag, RESPOP (R182, R184, R185) -/

/-- The result of a cancelled task (R182). -/
def cancelPending (n : Fin 4) (s : State) : State :=
  let p := s.asq[n].ptask
  let r : AsqResult :=
    { tag := bits (vget p 2 0).toNat 31 20, status := 0x0A, opc := bits (vget p 0 0).toNat 31 24, done := 0
      endpc := s.asq[n].pc, fail := 0xFFFF, time := 0, cause := 0 }
  asqLine n 1 (tagDone r.tag (postResult n r (s.modAsq n fun a => { a with pvalid := false })))

/-- PCMD.COMMIT. -/
def asqCommit (n : Fin 4) (s : State) : State :=
  if s.asq[n].pvalid then ev .asq 0x0360 n 0 0 (s.modAsq n fun a => { a with cmdRes := 1 })
  else s.modAsq n fun a => { a with pvalid := true, cmdRes := 0 }

/-- PCMD.CANCEL; a promotion that is due goes first. -/
def asqCancel (n : Fin 4) (s : State) : State :=
  if promotable n s then (promote n s).modAsq n fun a => { a with cmdRes := 2 }
  else if s.asq[n].pvalid then cancelPending n (s.modAsq n fun a => { a with cmdRes := 0 })
  else s.modAsq n fun a => { a with cmdRes := 3 }

/-- A write of ASQn_PCMD. -/
def writePcmd (n : Fin 4) (v : Nat) (s : State) : State :=
  let s := if v.testBit 0 then asqCommit n s else s
  if v.testBit 1 then asqCancel n s else s

def execTaskCommit (_m : Master) (n : Fin 4) (s : State) : Out :=
  .next <| access .asq n (Reg.addr .pcmd n 0) (writePcmd n 1) s

def execTaskCancel (_m : Master) (n : Fin 4) (s : State) : Out :=
  .next <| access .asq n (Reg.addr .pcmd n 0) (writePcmd n 2) s

/-- ASQn_ABORT.GO, decided after a promotion that is due (R185). -/
def abortTag (n : Fin 4) (tag : Nat) (s : State) : State :=
  let s := if promotable n s then promote n s else s
  let a := s.asq[n]
  let p := a.pvalid && bits (vget a.ptask 2 0).toNat 31 20 == tag
  let x := a.avalid && task n 2 31 20 s == tag
  let s := if p then cancelPending n s else s
  let s := s.modAsq n fun a => { a with abDone := true, abRes := flag p 0 + flag x 1 }
  if x then asqAbortReq n s else s

/-- A write of ASQn_ABORT. -/
def writeAbort (n : Fin 4) (v : Nat) (s : State) : State := if v.testBit 31 then abortTag n (bits v 11 0) s else s

def execAsqAbort (_m : Master) (n : Fin 4) (v : Word) (s : State) : Out :=
  .next <| access .asq n (Reg.addr .asqAbort n 0) (writeAbort n (v.toNat ||| 2 ^ 31)) s

/-- A write of ASQn_RESPOP. -/
def writeRespop (n : Fin 4) (v : Nat) (s : State) : State :=
  if v.testBit 0 then s.modAsq n fun a => { a with results := a.results.drop 1 } else s

def execResultPop (_m : Master) (n : Fin 4) (v : Word) (s : State) : Out :=
  .next <| access .asq n (Reg.addr .respop n 0) (writeRespop n (v.toNat ||| 1)) s

/-- A write of ASQn_PTASKj, ignored while PVALID = 1. -/
def writePtask (n : Fin 4) (j v : Nat) (s : State) : State :=
  s.modAsq n fun a => if a.pvalid then a else { a with ptask := vmod a.ptask j fun _ => BitVec.ofNat 32 v }

/-! ### Write-gate interlocks (R177) -/

/-- The first interlock that fails: 0 reader check, 1 clock, 2 on-track, 3 preamp, 4 leave. No write gate rises on a head
retired since its HEAD_SW either (R424), under the reader check's number. -/
def interlock (n : Fin 4) (s : State) : Option Nat :=
  if !s.asq[n].headOk || headRetired n s.asq[n].head s then some 0
  else if !s.rwc[n].locked then some 1
  else if !s.sve[sveOf n].onTrack then some 2
  else if !(level n 28 s) then some 3
  else if s.sys.pers == .magnetic && !(laserLeave s.asq[n].head s) then some 4
  else none

/-! ### Level controls and pulses (R175, R176) -/

/-- The level controls take a word's values; the failed interlock of a WG request that rose, if one failed. -/
def takeLevels (n : Fin 4) (new : Nat) (s : State) : State × Option Nat :=
  let old := s.asq[n].levels
  let rises := fun k : Nat => new.testBit k && !(old.testBit k)
  let falls := fun k : Nat => old.testBit k && !(new.testBit k)
  let s := if rises 2 || falls 3 || rises 7 then adaptRun n s else s
  let s := s.modAsq n fun a => { a with levels := new }
  let s := if rises 4 then preampMode n true s else if falls 4 then preampMode n false s else s
  let s := if falls 7 then s.modRwc n fun r => { r with cut := false } else s
  let s := if falls 0 then { s with trm := { s.trm with gap := s.trm.gap.set n none } } else s
  let bad := if rises 7 then interlock n s else none
  let s := if bad.isSome then s.modRwc n fun r => { r with cut := true } else s
  (gatesFollow n s, bad)

/-- PREHEAT follows its control, after the BOOST frame of a UNITGO in the same word (R292, R293). -/
def takePreheat (n : Fin 4) (old new : Nat) (s : State) : State :=
  if new.testBit 5 && !(old.testBit 5) then preheatRise n s
  else if old.testBit 5 && !(new.testBit 5) then preheatFall n s else s

/-- BUF_RD: the sector's write data is staged, through the lane where the task encrypts. -/
def bufRd (n : Fin 4) (s : State) : State :=
  if task n 0 10 10 s = 1 && !(cipReady n s) then s
  else waitComes n 7 (s.modAsq n fun a => { a with staged := true })

/-- SECT_ADV: the pointer moves to the next slot; in the optical personality it passes to the next track. A sector
counts towards COUNT unless SECT_SKIP has marked it, in this word or an earlier one. -/
def sectAdv (n : Fin 4) (s : State) : State :=
  let a := s.asq[n]
  let wrap := optical s && zoneSpt n s != 0 && zoneSpt n s ≤ a.secPtr + 1
  let s := s.modAsq n fun a => { a with
    secPtr := if wrap then 0 else a.secPtr + 1, secTrack := if wrap then a.secTrack + 1 else a.secTrack
    secCnt := if a.skipMark then a.secCnt else a.secCnt + 1, staged := false, skipMark := false }
  let s := s.modRwc n fun r => { r with aClosed := false }
  if wrap then buildSkip n (task n 0 23 18 s) s.asq[n].secTrack s else s

/-- SEEK_GO. -/
def pulseSeek (n : Fin 4) (s : State) : State :=
  if optical s then optSeekGo n s else seekGo n (task n 3 23 0 s) s

/-- HEAD_SW. -/
def pulseHead (n : Fin 4) (s : State) : State := loadDemod n (task n 0 23 18 s) (headSwitch n s)

/-- BUF_WR: the sector's read data is stored, through the lane where the task encrypts. -/
def bufWr (n : Fin 4) (s : State) : State :=
  if task n 0 10 10 s = 1 && !(cipReady n s) then s
  else s.modAsq n fun a => { a with stored := (a.secTrack, a.secPtr) :: a.stored }

/-- SECT_SKIP. -/
def sectSkip (n : Fin 4) (s : State) : State := s.modAsq n fun a => { a with skipMark := true }

/-- The pulse controls of a word, from bit 23 down, but for SECT_ADV, which comes after what acts on the current sector. -/
def pulses (n : Fin 4) (dpc : Nat) (s : State) : State :=
  let on := fun (k : Nat) (f : State → State) (s : State) => if dpc.testBit k then f s else s
  s |> on 23 (pulseHead n) |> on 22 (pulseSeek n) |> on 21 (loadPulse n) |> on 20 (retractPulse n)
    |> on 19 (clkPrime n) |> on 18 (smSearch n) |> on 17 (blindPulse n) |> on 16 (bufRd n) |> on 15 (bufWr n) |> on 14 (ldpSubmit n)
    |> on 13 (tpeAcc n) |> on 12 (tpeEmit n) |> on 10 (sectSkip n) |> on 9 (statPulse n) |> on 11 (sectAdv n)
    |> on 8 (asqLine n 4)

/-- A UNITGO: the UNIT field goes to the unit; a unit that needs no further event is done at once. -/
def unitgo (n : Fin 4) (unit f : Nat) (s : State) : State :=
  let s := s.modAsq n fun a => { a with lastUnit := if unit = 0 then a.lastUnit else unit, unitField := f }
  match unit with
  | 1 => waitComes n 15 (rwcUnitgo n f s)
  | 2 => s.modSve (sveOf n) fun v => { v with unitPend := some f }
  | 3 =>
    let lp := bits f 29 22
    let lp := if lp = 0xFF then (match s.rwc[n].zone with | some z => z.lpidx | none => 0) else lp
    waitComes n 15 (lsrUnitgo n f lp s)
  | 4 => psiUnitgo n f s
  | 5 => waitComes n 15 (ldpUnitgo n f s)
  | 6 => waitComes n 15 (tpeUnitgo n f s)
  | 7 => waitComes n 15 (trmUnitgo n (bits f 29 20) s)
  | _ => s

/-! ### Issue of a microword (R168, R169, R178, R179) -/

/-- The next word continues an ATOMIC run, so that the boundary before it is not sampled. -/
def runGoesOn (n : Fin 4) (s : State) : Bool :=
  let a := s.asq[n]
  a.inAtom && !a.atomOver && match fetchWord a.pc s with | some (_, w) => mwAtomic w | none => false

/-- The effects of a fetched word at its issue. -/
def issueWord (n : Fin 4) (addr w : Nat) (s : State) : State :=
  let dpc := mwDpc w
  let old := s.asq[n].levels
  let goes := runGoesOn n s
  let s := s.modAsq n fun a => { a with
    pc := addr, word := w, issued := true, waitDone := false, issueAt := s.us, openX := inOpen addr
    inAtom := mwAtomic w, atomAt := if goes then a.atomAt else s.us, atomOver := goes && a.atomOver }
  let (s, bad) := takeLevels n (bits dpc 31 24) s
  let s := pulses n dpc s
  let s := if dpcUnitgo dpc then unitgo n (dpcUnit dpc) (mwUnit w) s else s
  let s := takePreheat n old (bits dpc 31 24) s
  let s := if mwWait w != 1 && waitLive n (mwWait w) s then s.modAsq n fun a => { a with waitDone := true } else s
  match bad with
  | some k => asqFault n 0x0312 (ev .asq 0x0312 n k addr s)
  | none => s

/-- A word is fetched and issues, or faults. -/
def fetchIssue (n : Fin 4) (s : State) : State :=
  match fetchWord s.asq[n].pc s with
  | none => mcFault n 0x0322 s
  | some (addr, w) =>
    let s' := s.modAsq n fun a => { a with pc := addr }
    if parityOf 128 w then mcFault n 0x0320 s'
    else if inOpen addr && privileged w then mcFault n 0x0331 s'
    else if dpcUnitgo (mwDpc w) && 8 ≤ dpcUnit (mwDpc w) then mcFault n 0x0322 s'
    else issueWord n addr w s

/-- The sequencer executes words. -/
def asqRuns (a : Asq) : Bool :=
  a.avalid && (a.phase == .running || a.phase == .abortHandler || a.phase == .faultHandler)

/-- The boundary before the next word: sampled unless it lies inside an ATOMIC run. -/
def boundary (n : Fin 4) (s : State) : State := if runGoesOn n s then s else sampleBoundary n s

def execMicrowordIssue (n : Fin 4) (s : State) : Out :=
  .next <| if asqLive n s && asqRuns s.asq[n] && !s.asq[n].issued then fetchIssue n (boundary n s) else s

/-! ### Completion (R170, R171, R174, R194) -/

/-- CNTOP of a completing word; the unit result is a free value. -/
def cntop (n : Fin 4) (s : State) : State :=
  let w := s.asq[n].word
  let p := mwParam w
  match mwCntop w with
  | 1 => s.modAsq n fun a => { a with cnt0 := p }
  | 2 => s.modAsq n fun a => { a with cnt1 := p }
  | 3 => s.modAsq n fun a => { a with cnt0 := (task n 5 16 0 s + 0xFFFF) % 2 ^ 16 }
  | 4 => s.modAsq n fun a => { a with cnt1 := a.cnt1 - 1 }
  | 5 => s.modAsq n fun a => { a with cnt0 := a.cnt0 - 1 }
  | 6 => s.modAsq n fun a => { a with cnt1 := min 0xFFFF (a.cnt1 + 1) }
  | 7 => s.drawn.modAsq n fun a => { a with cnt1 := draw (2 ^ 16) s }
  | _ => s

/-- A word completes: CNTOP, the next address, the boundary. -/
def complete (n : Fin 4) (next : Nat) (s : State) : State :=
  let s := (cntop n s).modAsq n fun a => { a with pc := next % 2 ^ 16, issued := false, waitDone := false }
  boundary n s

/-- A transfer to an address: from the open region only within it. -/
def transfer (n : Fin 4) (target : Nat) (gateway : Bool) (s : State) : State :=
  if s.asq[n].openX && !(inOpen target) && !(gateway && isGateway target) then mcFault n 0x0332 s
  else complete n target s

/-- The next word in sequence; after the last word of the ROM it is a microcode fault, unless a request is taken first
(R171). -/
def fallThrough (n : Fin 4) (s : State) : State :=
  let a := s.asq[n]
  let s := complete n (a.pc + 1) s
  if a.pc = 0x7FFF && s.asq[n].phase == a.phase then mcFault n 0x0322 s else s

/-- A word with a SEQ operation completes when its wait is satisfied; a WAIT 1 lets its delay pass. -/
def seqStep (n : Fin 4) (seq : Nat) (k : State → State) (s : State) : State :=
  let a := s.asq[n]
  if asqLive n s && asqRuns a && a.issued && mwSeq a.word == seq && waitSat n s then
    k (if mwWait a.word = 1 then advanceTo (a.issueAt + tmrUs (mwTmr a.word)) s else s)
  else s

/-- The executing word's condition, and the state with the draws that the test used. -/
def testCond (n : Fin 4) (s : State) : Bool × State :=
  let w := s.asq[n].word
  (condition n (mwCond w) (mwParam w) s, condDrawn (mwCond w) s)

def execSeqNext (n : Fin 4) (s : State) : Out := .next <| seqStep n 0 (fallThrough n) s

def execSeqJump (n : Fin 4) (s : State) : Out :=
  .next <| seqStep n 1 (fun s => transfer n (mwTarget s.asq[n].word) false s) s

/-- CALL. -/
def seqCallDo (n : Fin 4) (s : State) : State :=
  let a := s.asq[n]
  let t := mwTarget a.word
  if 8 ≤ a.stack.length then mcFault n 0x0321 s
  else if a.openX && !(inOpen t) && !(isGateway t) then mcFault n 0x0332 s
  else complete n t (s.modAsq n fun a => { a with stack := (a.pc + 1) % 2 ^ 16 :: a.stack })

def execSeqCall (n : Fin 4) (s : State) : Out := .next <| seqStep n 2 (seqCallDo n) s

/-- RET: pop, or the end of the task. -/
def seqRetDo (n : Fin 4) (s : State) : State :=
  let (c, s) := testCond n s
  let a := s.asq[n]
  if !c then fallThrough n s
  else
    match a.stack with
    | t :: rest => complete n t (s.modAsq n fun a => { a with stack := rest })
    | [] => taskEnd n (a.forced.getD (bits (mwParam a.word) 7 0)) a.cause .idle s

def execSeqRet (n : Fin 4) (s : State) : Out := .next <| seqStep n 3 (seqRetDo n) s

/-- BRT and BRF. -/
def seqBranch (n : Fin 4) (onTrue : Bool) (s : State) : State :=
  let (c, s) := testCond n s
  if c = onTrue then transfer n (mwTarget s.asq[n].word) false s else fallThrough n s

def execSeqBrt (n : Fin 4) (s : State) : Out := .next <| seqStep n 4 (seqBranch n true) s
def execSeqBrf (n : Fin 4) (s : State) : Out := .next <| seqStep n 5 (seqBranch n false) s

/-- DISPATCH. -/
def seqDispatchDo (n : Fin 4) (s : State) : State :=
  let a := s.asq[n]
  let t := mwTarget a.word
  let k := if t.testBit 15 then task n 0 31 24 s else bits t 7 0
  let e := dispAt k s
  if a.openX && !(0xC0 ≤ k && k ≤ 0xDF) then mcFault n 0x0332 s
  else if e.valid then complete n e.addr s else mcFault n 0x0322 s

def execSeqDispatch (n : Fin 4) (s : State) : Out := .next <| seqStep n 6 (seqDispatchDo n) s

/-- LOOP: it decrements CNT0 as part of its decision. -/
def seqLoopDo (n : Fin 4) (s : State) : State :=
  if s.asq[n].cnt0 = 0 then fallThrough n s
  else transfer n (mwTarget s.asq[n].word) false (s.modAsq n fun a => { a with cnt0 := a.cnt0 - 1 })

def execSeqLoop (n : Fin 4) (s : State) : Out := .next <| seqStep n 7 (seqLoopDo n) s

/-! ### Requests and bounds (R173, R178-R180, R187) -/

def execFaultRequest (n : Fin 4) (cause : Nat) (s : State) : Out :=
  .next <| if asqLive n s then asqFault n (cause % 2 ^ 16) s else s

/-- The TMR limit of a waiting word expires: time moves on to it. It acts even in an ATOMIC word, and not in a
handler. -/
def execWaitTimeout (n : Fin 4) (s : State) : Out :=
  .next <|
    let a := s.asq[n]
    if asqLive n s && a.avalid && a.phase == .running && a.issued && 2 ≤ mwWait a.word && tmrNs (mwTmr a.word) != 0 &&
        !(waitSat n s) then
      enterHandler n .deadline true (advanceTo (a.issueAt + tmrUs (mwTmr a.word)) s)
    else s

/-- An ATOMIC run reaches ASQn_ATOMMAX: time moves on to it, and the next boundary is sampled. -/
def execAtomicBound (n : Fin 4) (s : State) : Out :=
  .next <|
    let a := s.asq[n]
    if asqLive n s && asqRuns a && a.inAtom && !a.atomOver then
      let s := advanceTo (a.atomAt + zeroAsOne (fld .atommax n 0 9 0 s)) s
      ev .asq 0x0311 n a.pc 0 (s.modAsq n fun a => { a with atomOver := true })
    else s

/-- The deadline of the ACTIVE task passes: time moves on to it. -/
def execTaskDeadline (n : Fin 4) (s : State) : Out :=
  .next <|
    let a := s.asq[n]
    if asqLive n s && a.avalid && !a.dlPassed then
      let s := advanceTo (a.us + taskDeadlineUs (task n 7 31 0 s)) s
      let s := s.modAsq n fun a => { a with dlPassed := true, reqDeadline := true }
      requestArrives n (ev .asq 0x0350 (task n 2 31 20 s) n (task n 0 31 24 s) s)
    else s

/-! ### Activation (R191, R192, R435) -/

/-- A measurement register is extended with a digest (R360). -/
def extendMeas (m d : Nat) (s : State) : State :=
  s.modSec fun c => { c with meas := vmod c.meas m fun x => Config.hash x d % 2 ^ 512 }

/-- KIND of an activation, as CST_ACT and the events show it: 0 patch, 1 open region. -/
def actKindOf (i : McImage) : Nat := if i.opn then 1 else 0

/-- A master's write to a register of the security core alone: ignored, with error 0x0361 (R191, R194). -/
def secOnly (m : Master) (off : Nat) (k : State → State) (s : State) : State :=
  if m = .core .sec then k s else blockErrorP .cst 0 0x0361 off off (masterId m) 0 s

/-- ARM: every present sequencer is held at its task boundary. -/
def armCst (m : Master) (s : State) : State :=
  match s.cst.staged with
  | none => blockErrorP .cst 0 0x0362 0x50 0x50 (masterId m) 0 s
  | some i =>
    if s.cst.act = .armed ∨ s.cst.act = .copying then s
    else
      let s := { s with cst := { s.cst with act := .armed, actKind := i.opn, armAt := now s } }
      (channels s).foldl (fun s n =>
        let s := s.modAsq n fun a => { a with actHold := true }
        if s.asq[n].avalid then s else asqLine n 6 s) s

/-- A write of CST_ACT. -/
def writeCstAct (m : Master) (v : Nat) (s : State) : State :=
  if v.testBit 0 then secOnly m 0x50 (armCst m) s else s

def execArm (m : Master) (v : Word) (s : State) : Out :=
  .next <| access .cst 0 (Reg.addr .cstAct 0 0) (writeCstAct m (v.toNat ||| 1)) s

/-- The holds are released. -/
def releaseHolds (s : State) : State :=
  (channels s).foldl (fun s n => s.modAsq n fun a => { a with actHold := false }) s

/-- HOLDMAX in ms. -/
def holdMax (s : State) : Nat := zeroAsOne (fld .actcfg 0 0 9 0 s)

/-- Channels whose sequencer has a task ACTIVE. -/
def busyChannels (s : State) : List Nat := ((channels s).filter fun n => s.asq[n].avalid).map (·.val)

/-- A list of words loaded from the first address of a region; a word not carried is unloaded. -/
def loadWords (ws : List Nat) : List (Nat × Nat) := (ws.zipIdx.filter fun (w, _) => w != 1).map fun (w, i) => (i, w % 2 ^ 128)

/-- An entry of the open region's part of the table. -/
def openEntry (k : Nat) : Bool := 0xC0 ≤ k && k ≤ 0xDF

/-- The image replaces its part of the store. -/
def loadImage (i : McImage) (s : State) : State :=
  let c := s.cst
  let ds : List DispEntry := i.disp.map fun (k, a) => { k := k, valid := true, opn := i.opn, addr := a }
  if i.opn then
    { s with cst := { c with
        openReg := loadWords i.words, disp := c.disp.filter (fun d => !(openEntry d.k)) ++ ds
        oLoaded := true, oNwords := i.words.length, oVer := i.ver } }
  else
    { s with cst := { c with
        patch := loadWords i.words, mtch := i.matches_.zipIdx.map fun ((r, p), k) => (k, r, p)
        disp := c.disp.filter (fun d => openEntry d.k) ++ ds
        pVer := i.ver, pSvn := i.svn, pLoaded := true, pNmatch := i.matches_.length } }

/-- With every present sequencer held and idle within HOLDMAX the image is copied and the holds released. -/
def execActivationCopy (s : State) : Out :=
  .next <|
    match s.cst.staged with
    | some i =>
      if s.cst.act == .armed && pdOn 13 s && !(heldBlk .cst 0 s) && (busyChannels s).isEmpty &&
          now s ≤ s.cst.armAt + holdMax s then
        let s := releaseHolds (loadImage i s)
        let s := { s with cst := { s.cst with act := .idle, staged := none } }
        extendMeas 4 i.digest (if i.opn then ev .cst 0x0343 i.ver i.words.length 0 s
          else ev .cst 0x0340 i.ver i.svn i.matches_.length s)
      else s
    | none => s

/-- HOLDMAX passes, or has passed, before the copy: the activation is abandoned. -/
def execActivationAbandon (s : State) : Out :=
  .next <|
    match s.cst.staged with
    | some i =>
      if s.cst.act == .armed && pdOn 13 s && !(heldBlk .cst 0 s) &&
          (!(busyChannels s).isEmpty || s.cst.armAt + holdMax s < now s) then
        let s := advanceTo ((s.cst.armAt + holdMax s) * 1000) s
        let m := maskOf (busyChannels s)
        let s := releaseHolds s
        ev .cst 0x0342 m (actKindOf i) 0 { s with cst := { s.cst with act := .abandoned, staged := none } }
      else s
    | none => s

/-- A write of CST_OPENCTL. -/
def writeOpenctl (m : Master) (v : Nat) (s : State) : State :=
  secOnly m 0x4C (fun s => { s with cst := { s.cst with openEn := v.testBit 0 } }) s

def execOpenctlWrite (m : Master) (v : Word) (s : State) : Out :=
  .next <| access .cst 0 (Reg.addr .openctl 0 0) (writeOpenctl m v.toNat) s

end Sys2Proof.Machine
end

