-- ==== Sys2Proof/Machine/Order.lean ====
section
/-!
DEFINITION. LGR and XMT: the Overlap Ledger and version selection, translation, the journal and the durability frontier,
migrations and rewrites (07_ordering_and_coherence.md, R13-R16).
-/

set_option Elab.async false

namespace Sys2Proof.Machine

open Sys2Proof

/-! ### Kinds and domains (R146, R148) -/

/-- The entry changes sectors. -/
def lkWrites (k : LKind) : Bool := match k with | .write | .append | .zeroes | .uncorr => true | _ => false

/-- The ordering domain of a namespace (NSID - 1). -/
def nsDom (ns : Nat) (s : State) : Nat := fld .nsdom 0 ns 5 0 s

/-- The first Extent Map or zone index of a namespace. -/
def nsBase (ns : Nat) (s : State) : Nat := fld .nsbase 0 ns 24 0 s

/-- A namespace that exists. -/
def nsAt (ns : Nat) (s : State) : Option Ns := s.hce.ns.find? (·.nsid == ns + 1)
def nsZoned (ns : Nat) (s : State) : Bool := match nsAt ns s with | some x => x.zoned | none => false

/-- A live Ledger entry by ordinal. -/
def entryAt (ord : Nat) (s : State) : Option LEntry := s.lgr.entries.find? (·.ord == ord)

/-- Ledger entries changed. -/
def modEntry (ord : Nat) (f : LEntry → LEntry) (s : State) : State :=
  s.modLgr fun l => { l with entries := mapIf (·.ord == ord) f l.entries }

/-- Entries of namespace-independent barriers (Sanitize) carry NS 0xFF. -/
def entryOn (ns : Nat) (e : LEntry) : Bool := e.ns == ns || e.ns == 0xFF

/-! ### Lookup (R154) -/

/-- What a place on the media holds. -/
def locKey (l : Loc) : Nat :=
  match l with
  | .slot ch sl off => ((off * 2 ^ 30 + sl) * 4 + ch) * 2
  | .cache ch i => (i * 4 + ch) * 2 + 1
def mediaAt (l : Loc) (s : State) : Option MSec := (s.xmt.media.find? (·.1 == l)).map (·.2)

/-- The key of a sector's slot can decrypt it (R347). -/
def keyReads (m : MSec) (s : State) : Bool :=
  match kslot m.kslot s with
  | some k => k.valid && !k.lost && k.ns == m.ns && m.epoch == s.sec.epoch
  | none => false

/-- A sector read from a place: its tag must name the sector (R222), and its key must be there (R347). -/
def mediaRead (ns lba : Nat) (l : Loc) (s : State) : SectorVal :=
  match mediaAt l s with
  | some m => if m.ns = ns ∧ m.lba = lba ∧ (!m.enc || keyReads m s) then m.v else .unrecovered
  | none => .data (Config.mediaContent (locKey l))

/-- Active key of a namespace: ENC and SLOT of CIP_NSKEYk. -/
def nsKey (ns : Nat) (s : State) : Bool × Nat :=
  match s.sec.nskey.find? (·.1 == ns) with
  | some (_, e, k) => (e, k)
  | none => (false, 0)

/-- USE of a slot grows by n units (R349): past its checkpoint margin, at LIMIT and, once,
at 90 % of LIMIT. -/
def addUse (k n : Nat) (s : State) : State :=
  match kslot k s with
  | some x =>
    let u := x.use_ + n
    let warn := !x.warned && x.limit * 9 ≤ u * 10
    let s := { s with sec := { s.sec with slots := mapIf (·.slot == k) (fun y => { y with use_ := u, warned := y.warned || warn }) s.sec.slots } }
    let s := if warn then ev .kst 0x0B31 k (x.ns + 1) 0 s else s
    let s := if x.use_ < x.ckpt + 2 ^ 23 ∧ x.ckpt + 2 ^ 23 ≤ u then setIrqStat .kst 0 1 s else s
    if x.use_ < x.limit ∧ x.limit ≤ u then setIrqStat .kst 0 2 s else s
  | none => s

/-- A place written. -/
def mediaPut (l : Loc) (v : MSec) (s : State) : State :=
  s.modXmt fun x => { x with media := (l, v) :: x.media.filter (·.1 != l) }

/-- Extent Map entry i; one that is not listed holds 0. -/
def extentAt (i : Nat) (s : State) : Extent :=
  (s.xmt.extents.find? (·.idx == i)).getD
    { idx := i, v := false, dealloc := false, mig := false, ns := 0, seq := 0, ch := 0, sl := 0 }
def putExtent (e : Extent) (s : State) : State :=
  s.modXmt fun x => { x with extents := e :: x.extents.filter (·.idx != e.idx) }

/-- Zone table entry i. -/
def zoneTab (i : Nat) (s : State) : Option Zone := s.xmt.zones.find? (·.idx == i)
def modZone (i : Nat) (f : Zone → Zone) (s : State) : State :=
  s.modXmt fun x => { x with zones := mapIf (·.idx == i) f x.zones }

/-- The zone index of an LBA of a zoned namespace; its offset in the zone. -/
def zoneIdx (ns lba : Nat) (s : State) : Nat := nsBase ns s + lba / 65536
def zoneOff (lba : Nat) : Nat := lba % 65536

/-- A zone's sector on the media. -/
def zoneLoc (z : Zone) (off : Nat) : Loc := .slot z.ch (z.sl + off / 1024) (off % 1024)

/-- The run that governs a sector: the youngest that covers it (R153). -/
def runAt (ns lba : Nat) (s : State) : Option Run :=
  (s.xmt.runs.filter fun r => r.ns == ns && r.slba ≤ lba && lba < r.slba + r.nlb).foldl
    (fun m r => match m with | none => some r | some b => if older b.stamp r.stamp then some r else m) none

/-- Lookup of a sector of a namespace. -/
def lookup (ns lba : Nat) (s : State) : Src :=
  if nsZoned ns s then
    match zoneTab (zoneIdx ns lba s) s with
    | some z => if zoneOff lba < z.dwp then .media (zoneLoc z (zoneOff lba)) else .zeroes
    | none => .zeroes
  else
    match runAt ns lba s with
    | some r =>
      if r.zero then .zeroes else if r.unc then .unrecovered else .media (.cache r.ch (r.cidx + (lba - r.slba)))
    | none =>
      let e := extentAt (nsBase ns s + lba / 1024) s
      if e.dealloc then .zeroes else .media (.slot e.ch e.sl (lba % 1024))

/-! ### Version selection (R150, R151) -/

/-- An entry covers a sector. -/
def covers (e : LEntry) (ns lba : Nat) : Bool := e.ns == ns && e.slba ≤ lba && lba < e.slba + e.nlb

/-- The newest older write of a sector. -/
def newestOlder (ord ns lba : Nat) (s : State) : Option LEntry :=
  (s.lgr.entries.filter fun e => covers e ns lba && lkWrites e.kind && e.state != .dropped && older e.ord ord).foldl
    (fun m e => match m with | none => some e | some b => if older b.ord e.ord then some e else m) none

/-- The source of one sector, with its pin. -/
def selectSector (ord ns lba : Nat) (s : State) : State × Src :=
  match newestOlder ord ns lba s with
  | none =>
    match lookup ns lba s with
    | .media l => (s.modLgr fun g => { g with pins := (l, ord) :: g.pins }, .media l)
    | x => (s, x)
  | some e =>
    match e.kind with
    | .zeroes => (s, .zeroes)
    | .uncorr => (s, .unrecovered)
    | _ =>
      if e.state = .pending then (s, .buffer e.ord false)
      else (modEntry e.ord (fun e => { e with pins := e.pins + 1 }) s, .buffer e.ord true)

/-- The sources of a run of sectors. -/
def selectRange (ord ns : Nat) : List Nat → State → State × List Src
  | [], s => (s, [])
  | lba :: t, s =>
    let (s, x) := selectSector ord ns lba s
    let (s, l) := selectRange ord ns t s
    (s, x :: l)

/-- Sectors slba, slba + 1, … -/
def lbas (slba nlb : Nat) : List Nat := (List.range nlb).map (slba + ·)

/-- A reader selects again the sectors whose source was the entry w (R131). -/
def reselect (w ord ns : Nat) : List (Nat × Src) → State → State × List Src
  | [], s => (s, [])
  | (lba, x) :: t, s =>
    let (s, x) := match x with
      | .buffer o _ => if o = w then selectSector ord ns lba s else (s, x)
      | _ => (s, x)
    let (s, l) := reselect w ord ns t s
    (s, x :: l)

/-- A write is dropped: it is as if it had never been fetched, its readers select again, and it is free (R149). -/
def dropEntry (w : Nat) (s : State) : State :=
  let s := modEntry w (fun e => { e with state := .dropped }) s
  let readers := s.lgr.entries.filter fun e =>
    e.sel.any fun x => match x with | .buffer o _ => o == w | _ => false
  let s := readers.foldl (fun s r =>
    let (s, l) := reselect w r.ord r.ns ((lbas r.slba r.nlb).zip r.sel) s
    modEntry r.ord (fun e => { e with sel := l }) s) s
  s.modLgr fun g => { g with entries := g.entries.filter (·.ord != w) }

/-- Where in DDR5 a buffer descriptor list stands: a free value (R148; log 172). -/
def bufAddr (s : State) : Nat := ddrBase + 64 * draw (2 ^ 30) s

/-- A write's data is in the buffer: its entry points to the buffer, and readers that waited for it take it (R150). -/
def bufferEntry (w : Nat) (data : List SectorVal) (s : State) : State :=
  let b := bufAddr s
  let s := modEntry w (fun e => { e with state := .buffered, data := data, buf := b }) s.drawn
  let waits := fun x => match x with | Src.buffer o false => o == w | _ => false
  let n := s.lgr.entries.foldl (fun a e => a + (e.sel.filter waits).length) 0
  let s := modEntry w (fun e => { e with pins := e.pins + n }) s
  s.modLgr fun g => { g with entries := g.entries.map fun e =>
    { e with sel := e.sel.map fun x => if waits x then .buffer w true else x } }

/-- The value that a source supplies. -/
def srcValue (ns lba : Nat) (x : Src) (s : State) : SectorVal :=
  match x with
  | .zeroes => .zeroes
  | .unrecovered => .unrecovered
  | .media l => mediaRead ns lba l s
  | .buffer o _ =>
    match entryAt o s with
    | some e => if e.ns = ns then e.data.getD (lba - e.slba) .unrecovered else .unrecovered
    | none => .unrecovered

/-- The media can be read or written: spindle at speed (R281). -/
def mediaUp (s : State) : Bool := pdOn 13 s && s.spn.state == .atSpeed

/-- A selection needs the media; a selection needs a key slot while the keys are away (R356). -/
def selMedia (l : List Src) : Bool := l.any fun x => match x with | .media _ => true | _ => false
def selKeyWait (ns : Nat) (l : List Src) (s : State) : Bool :=
  selMedia l && (nsKey ns s).1 && !s.sec.restored && !s.sec.encdis

/-- Channel of a media location. -/
def srcChannel (x : Src) : Option Nat :=
  match x with | .media (.slot c _ _) => some c | .media (.cache c _) => some c | _ => none

/-- What the sectors of a selection hold: sectors on a lost channel and sectors that the recovery ladder has given up
(`lost`, by LBA) are unrecovered. -/
def readValues (r : LEntry) (lost : List Nat) (s : State) : List SectorVal :=
  ((lbas r.slba r.nlb).zip r.sel).map fun (a, x) =>
    match srcChannel x with
    | some c => if s.hce.lostChan.contains c || lost.contains a then .unrecovered else srcValue r.ns a x s
    | none => srcValue r.ns a x s

/-- No sector of a selection waits for a write. -/
def selReady (l : List Src) : Bool := !(l.any fun x => match x with | .buffer _ false => true | _ => false)

/-! ### The Ledger (R13, R15, R147, R149) -/

/-- The oldest live entry's ordinal, or LGR_ORDNEXT. -/
def ledgerOldest (s : State) : Nat :=
  s.lgr.entries.foldl (fun m e => if older e.ord m then e.ord else m) s.lgr.ordNext

/-- LGR assigns no ordinal while the oldest live entry is 2^30 or more behind (R15). -/
def ordAge (s : State) : Bool := 2 ^ 30 ≤ (s.lgr.ordNext + 2 ^ 32 - ledgerOldest s) % 2 ^ 32

/-- The next ordinal is assigned. -/
def takeOrd (s : State) : State := s.modLgr fun l => { l with ordNext := (l.ordNext + 1) % 2 ^ 32 }

/-- Causes of a fetch pause: LEDGER, TAGS, AGE (R119). -/
def pauseCauses (s : State) : Bool × Bool × Bool :=
  (8192 ≤ s.lgr.entries.length, 4096 ≤ s.hce.cmds.length, ordAge s)
def pauseNow (s : State) : Bool := let (a, b, c) := pauseCauses s; a || b || c

/-- The events that a cause brings when it joins a pause: 0x0202 for the Ledger, 0x0201 for the ordinal age. -/
def pauseEvents (l a : Bool) (s : State) : State :=
  let s := if l then ev .lgr 0x0202 (ledgerOldest s) 0 0 s else s
  if a then ev .lgr 0x0201 (ledgerOldest s) s.lgr.ordNext 0 s else s

/-- A pause starts when a cause holds (R119), with line 134; a cause that appears while fetching is paused joins it. -/
def checkPause (s : State) : State :=
  let (l, t, a) := pauseCauses s
  match s.hce.pause with
  | some (l', t', a', at_) =>
    pauseEvents (l && !l') (a && !a') (s.modHce fun h => { h with pause := some (l || l', t || t', a || a', at_) })
  | none =>
    if l || t || a then
      raiseLine 134 (pauseEvents l a (s.modHce fun h => { h with pause := some (l, t, a, now s) }))
    else s

/-- A free entry index. -/
def freeIdx (s : State) : Nat := (lowestFree 8192 (s.lgr.entries.map (·.idx))).getD 0

/-- An entry put into its place in ordinal order. -/
def insertEntry (e : LEntry) : List LEntry → List LEntry
  | [] => [e]
  | x :: t => if older e.ord x.ord then e :: x :: t else x :: insertEntry e t

/-- An entry added. -/
def addEntry (e : LEntry) (s : State) : State :=
  s.modLgr fun l => { l with entries := insertEntry { e with idx := freeIdx s } l.entries }

/-- Entries that R149 frees: durable writes without pins, on their buffer or on the places they superseded. -/
def retire (s : State) : State :=
  let l := s.lgr
  let sup := l.superseded.filter fun (w, loc) => l.pins.any fun (x, r) => x == loc && older r w
  s.modLgr fun g => { g with
    superseded := sup
    entries := g.entries.filter fun e =>
      !(lkWrites e.kind && e.state == .durable && e.pins == 0 && !(sup.any fun (w, _) => w == e.ord)) }

/-- A read or a relocation has taken its data, or has been stopped: its pins go, its entry is free. -/
def releaseReader (ord : Nat) (s : State) : State :=
  match entryAt ord s with
  | none => s
  | some r =>
    let held := fun o => (r.sel.filter fun x => x == .buffer o true).length
    retire (s.modLgr fun g => { g with
      pins := g.pins.filter (·.2 != ord)
      entries := (g.entries.filter (·.ord != ord)).map fun e => { e with pins := e.pins - held e.ord } })

/-! ### Frontier (R156) -/

/-- The entry holds back the frontier of a domain. -/
def holdsFrontier (d : Nat) (e : LEntry) : Bool :=
  (e.dom == d || (e.kind == .barrier && e.ns == 0xFF)) && (lkWrites e.kind || e.kind == .barrier) &&
    e.state != .durable && e.state != .dropped

/-- F_d. -/
def frontier (d : Nat) (s : State) : Nat :=
  (s.lgr.entries.filter (holdsFrontier d)).foldl (fun m e => if older e.ord m then e.ord else m) s.lgr.ordNext

/-- Sectors of write data in the buffer that are not durable. -/
def dirtyCount (s : State) : Nat :=
  s.lgr.entries.foldl (fun a e => if e.state == .buffered && (e.kind == .write || e.kind == .append) then a + e.nlb else a) 0

/-- Dirty data in MiB, rounded up. -/
def dirtyMib (s : State) : Nat := (dirtyCount s + 255) / 256

/-- The effective Dirty Cap in MiB (R161, R163). -/
def effectiveCap (s : State) : Nat :=
  if fld .rvrCfg 0 0 1 0 s = 0 || s.rvr.capHold then 0 else min s.hce.dirtyCap (s.rvr.erased - 8)

/-! ### The journal (R155) -/

/-- A record appended to the tail. -/
def journal (ord : Nat) (typ : JType) (dom ns : Nat) (last : Bool) (body : List Nat) (s : State) : State :=
  s.modXmt fun x => { x with
    jseq := x.jseq + 1
    journal := x.journal ++ [{ jseq := x.jseq, ord := ord, typ := typ, dom := dom, ns := ns, last := last, body := body
                               durable := false }] }

/-- The ordinal field of a record that belongs to no command. -/
def noOrd : Nat := 0xFFFFFFFF

/-- A range cut at the extents it crosses. -/
def pieces : Nat → Nat → Nat → List (Nat × Nat)
  | 0, _, _ => []
  | fuel + 1, slba, nlb =>
    if nlb = 0 then []
    else
      let k := min nlb (1024 - slba % 1024)
      (slba, k) :: pieces fuel (slba + k) (nlb - k)
def cut (slba nlb : Nat) : List (Nat × Nat) := pieces (nlb / 1024 + 2) slba nlb

/-- Capacity of the run index (XMT_MCRUNS) and the runs in use (XMT_MCUSED). -/
def mcRuns (s : State) : Nat := min 4194304 (fld .mcruns 0 0 22 0 s)
def mcUsed (s : State) : Nat := s.xmt.runs.length

/-- Event 0x0222 when USED first reaches 90 % of RUNS. -/
def mcWarn (s : State) : State :=
  if mcRuns s * 9 ≤ mcUsed s * 10 then
    if s.xmt.mcWarned then s else ev .xmt 0x0222 (mcUsed s) 0 0 (s.modXmt fun x => { x with mcWarned := true })
  else s.modXmt fun x => { x with mcWarned := false }

/-- A run as it is added: its CACHE_ADD record and its place in the index, under the STAMP of that record. -/
def putRun (ord dom : Nat) (last : Bool) (r : Run) (s : State) : State :=
  let r := { r with stamp := s.xmt.jseq % 2 ^ 32 }
  let s := journal ord .cacheAdd dom r.ns last [runWord r] s
  mcWarn (s.modXmt fun x => { x with runs := x.runs ++ [r] })

/-- The run of a piece of a write. -/
def addRun (e : LEntry) (slba nlb : Nat) (last : Bool) (s : State) : State :=
  let zero := e.kind == .zeroes
  let unc := e.kind == .uncorr
  let (ch, ci) := if zero || unc then (0, 0) else match e.copied with | some (c, i) => (c, i + (slba - e.slba)) | none => (0, 0)
  putRun e.ord e.dom last { ns := e.ns, slba := slba, nlb := nlb, zero := zero, unc := unc, ch := ch, cidx := ci, stamp := 0 } s

/-- Runs for a list of pieces, the last record marked LAST when this is the write's last entry. -/
def addRuns (e : LEntry) (last : Bool) : List (Nat × Nat) → State → State
  | [], s => s
  | (a, k) :: t, s => addRuns e last t (addRun e a k (last && t.isEmpty) s)

/-- The ZONE record of a zone as the table shows it. -/
def journalZone (ord dom ns : Nat) (last : Bool) (i : Nat) (s : State) : State :=
  match zoneTab i s with
  | some z => journal ord .zone dom ns last [i, z.dwp, zsCode z.st, locWord z.ch z.sl] s
  | none => s

/-- An Extent Map entry as it stands in the table: CACHED is set while a run lies in its extent. -/
def extentBits (e : Extent) (s : State) : Nat :=
  extentWord (s.xmt.runs.any fun r => r.ns == e.ns && nsBase e.ns s + r.slba / 1024 == e.idx) e

/-- An Extent Map entry changed, with its MAP record. -/
def mapExtent (ord dom ns : Nat) (last : Bool) (e : Extent) (s : State) : State :=
  let old := extentBits (extentAt e.idx s) s
  journal ord .map dom ns last [e.idx, extentBits e s, old] (putExtent e s)

/-- A run removed from the index, with its CACHE_DEL record. -/
def dropRun (ord dom : Nat) (last : Bool) (r : Run) (s : State) : State :=
  let s := journal ord .cacheDel dom r.ns last [r.slba, r.ns, r.nlb, r.stamp] s
  s.modXmt fun x => { x with runs := x.runs.filter (· != r) }

/-- The table change of a write to a zoned namespace: the durable write pointer moves to the end of the data, to the
start at a Reset, and stays at a Finish. -/
def zoneChange (e : LEntry) (s : State) : State :=
  let i := zoneIdx e.ns e.slba s
  let s := modZone i (fun z => { z with
    dwp := if e.zop = 1 then 0 else if e.zop = 2 then z.dwp else max z.dwp (zoneOff e.slba + e.nlb) }) s
  journalZone e.ord e.dom e.ns true i s

/-- The places whose content an entry's map change supersedes and that older reads have pinned (R149). -/
def supersede (e : LEntry) (s : State) : State :=
  if s.lgr.pins.isEmpty then s
  else
    let old := (lbas e.slba e.nlb).filterMap fun a => match lookup e.ns a s with | .media l => some l | _ => none
    let hit := (s.lgr.pins.filter fun (l, r) => older r e.ord && old.contains l).map fun (l, _) => (e.ord, l)
    s.modLgr fun g => { g with superseded := g.superseded ++ hit }

/-- XMT appends the records of a write (R156). -/
def logWrite (e : LEntry) (last : Bool) (s : State) : State :=
  let s := supersede e s
  if e.zoned then zoneChange e s else addRuns e last (cut e.slba e.nlb) s

/-- The write's media copies are written, or none is needed. -/
def copyReady (e : LEntry) : Bool := e.kind == .zeroes || e.kind == .uncorr || e.copied.isSome

/-- Records in the tail that are not durable on the media. -/
def tailLength (s : State) : Nat := (s.xmt.journal.filter fun r => !r.durable).length

/-- A run's distance in journal records from the newest. -/
def runAge (r : Run) (s : State) : Nat := (s.xmt.jseq % 2 ^ 32 + 2 ^ 32 - r.stamp) % 2 ^ 32

/-- The records of a command's entries: runs by the pieces, or one for a zone. -/
def recordsOf (l : List LEntry) : Nat := l.foldl (fun a x => a + (if x.zoned then 1 else (cut x.slba x.nlb).length)) 0

/-- There is room for n more records: the tail keeps to 4 MiB (R161), and no run falls 2^31 records behind before it has
been destaged (R153). -/
def tailRoom (n : Nat) (s : State) : Bool :=
  tailLength s + n ≤ 65536 && s.xmt.runs.all fun r => runAge r s + n < 2 ^ 31

/-- The entries of one ordinal can be logged: at the frontier, buffered, copied, and their runs and records fit (R153). -/
def canLog (o : Nat) (s : State) : Bool :=
  let l := s.lgr.entries.filter fun x => x.ord == o
  !l.isEmpty && (l.all fun e => lkWrites e.kind && e.state == .buffered && !e.captured && e.lastJ.isNone && copyReady e &&
      frontier e.dom s == o) &&
    ((l.all (·.zoned)) || mcUsed s + recordsOf l ≤ mcRuns s) && tailRoom (recordsOf l) s

/-- Entries logged one after the other; the last carries LAST. -/
def logAll : List LEntry → State → State
  | [], s => s
  | e :: t, s => logAll t (logWrite e t.isEmpty s)

/-- The entries of one ordinal are logged, if they can be. -/
def logOrd (o : Nat) (s : State) : State :=
  if canLog o s then
    let s := logAll (s.lgr.entries.filter fun x => x.ord == o) s
    modEntry o (fun e => { e with lastJ := some (s.xmt.jseq - 1) }) s
  else s

/-- The write at each domain's frontier is logged. -/
def logReady (s : State) : State := ((s.lgr.entries.map (·.ord)).eraseDups).foldl (fun s o => logOrd o s) s

/-! ### Media copies (R151, R156) -/

/-- The places that a copy of an entry writes. -/
def copyLocs (e : LEntry) (ch ci : Nat) (s : State) : List Loc :=
  if e.zoned then
    match zoneTab (zoneIdx e.ns e.slba s) s with
    | some z => (List.range e.nlb).map fun i => zoneLoc z (zoneOff e.slba + i)
    | none => []
  else (List.range e.nlb).map fun i => .cache ch (ci + i)

/-- What an entry writes to its i-th sector. -/
def entryData (e : LEntry) (i : Nat) : SectorVal :=
  match e.kind with | .zeroes => .zeroes | .uncorr => .unrecovered | _ => e.data.getD i .unrecovered

/-- The i-th sector of an entry as a destage writes it. -/
def mediaOf (e : LEntry) (i : Nat) (s : State) : MSec :=
  { v := entryData e i, ns := e.ns, lba := e.slba + i, enc := e.enc, kslot := e.kslot, epoch := s.sec.epoch }

/-- Cache sectors from ci on a channel that no run holds and no copy has taken, within the cache area (XMT_MCSIZE) and on
a channel that is not lost (R139). -/
def cacheFree (ch ci n : Nat) (s : State) : Bool :=
  let off := fun a k => decide (ci + n ≤ a) || decide (a + k ≤ ci)
  chanExists ch s && !(s.hce.lostChan.contains ch) && ci + n ≤ min 64 (fld .mcsize 0 0 6 0 s) * 262144 &&
    (s.xmt.runs.all fun r => r.zero || r.unc || r.ch != ch || off r.cidx r.nlb) &&
    s.lgr.entries.all fun e => match e.copied with | some (c, i) => e.zoned || c != ch || off i e.nlb | none => true

/-- The places of a copy can be written: none is pinned (R151), none holds other content, no channel is lost. -/
def copyFits (e : LEntry) (ch ci : Nat) (s : State) : Bool :=
  !((copyLocs e ch ci s).any fun l => s.lgr.pins.any fun (x, _) => x == l) &&
    if e.zoned then (match zoneTab (zoneIdx e.ns e.slba s) s with | some z => !(s.hce.lostChan.contains z.ch) | none => false)
    else cacheFree ch ci e.nlb s

/-- A repaired sector is rewritten into the media cache by its relocation (R234): its run is added unless a younger write
has moved the sector, and the relocation ends. -/
def writeRepair (e : LEntry) (ch ci : Nat) (s : State) : State :=
  match e.sel with
  | [.media l] =>
    if readyKey && cacheFree ch ci 1 s && mcUsed s < mcRuns s && tailRoom 1 s then
      let s := if lookup e.ns e.slba s == .media l then
          let m : MSec := { v := srcValue e.ns e.slba (.media l) s, ns := e.ns, lba := e.slba, enc := (nsKey e.ns s).1
                            kslot := (nsKey e.ns s).2, epoch := s.sec.epoch }
          let s := mediaPut (.cache ch ci) m s
          let s := if m.enc then addUse m.kslot 1 s else s
          putRun e.ord 0xFF true { ns := e.ns, slba := e.slba, nlb := 1, zero := false, unc := false, ch := ch, cidx := ci, stamp := 0 } s
        else s
      releaseReader e.ord s
    else s
  | _ => releaseReader e.ord s
where
  readyKey : Bool := !(selKeyWait e.ns e.sel s)

/-- The media copy of a buffered write, or of a repaired sector, is written; a task that would overwrite a pinned place is
held. -/
def writeCopy (ord ch ci : Nat) (s : State) : State :=
  match entryAt ord s with
  | some e =>
    if e.state == .buffered && e.copied.isNone && lkWrites e.kind && e.zop == 0 && (e.zoned || copyReady e == false) &&
        copyFits e ch ci s then
      let s := (copyLocs e ch ci s).zipIdx.foldl (fun s (l, i) => mediaPut l (mediaOf e i s) s) s
      let s := if e.enc then addUse e.kslot e.nlb s else s
      modEntry ord (fun e => { e with copied := some (ch, ci) }) s
    else if e.kind == .reloc && !(s.xmt.migs.any fun m => m.ord == ord) then writeRepair e ch ci s
    else s
  | none => s

/-- Firmware schedules the rewrite of a repaired sector of a conventional namespace (R14, R234): the relocation takes an
ordinal and selects its source. Without an ordinal to take it waits. -/
def startRewrite (x : Nat × Nat) (s : State) : State :=
  if (nsAt x.1 s).isNone || nsZoned x.1 s then s
  else if ordAge s || s.lgr.frozen || 8192 ≤ s.lgr.entries.length then s.modXmt fun y => { y with rewrites := y.rewrites ++ [x] }
  else
    let ord := s.lgr.ordNext
    let (s, sel) := selectRange ord x.1 [x.2] (takeOrd s)
    match sel with
    | [.media _] =>
      checkPause (addEntry { idx := 0, ord := ord, slba := x.2, nlb := 1, kind := .reloc, state := .active, ns := x.1, dom := 0xFF
                             tag := 0, ctrl := 0, pins := 0, buf := 0, fua := false, enc := false, zoned := false
                             captured := false, kslot := 0, data := [], sel := sel } s)
    | _ => releasePins sel s
where
  /-- The pins of a relocation that is not needed go. -/
  releasePins (sel : List Src) (s : State) : State :=
    s.modLgr fun g => { g with entries := g.entries.map fun e => { e with pins := e.pins - (sel.filter fun y => y == .buffer e.ord true).length } }

/-- The rewrites that firmware owes. -/
def startRewrites (s : State) : State :=
  let l := s.xmt.rewrites
  l.foldl (fun s x => startRewrite x s) (s.modXmt fun y => { y with rewrites := [] })

/-! ### Durability (R155-R157) -/

/-- A record is durable: its block is, or it lies in a reservoir generation that is held with a durable commit record. -/
def recDurable (r : JRec) (s : State) : Bool :=
  r.durable || s.rvr.half.any fun h => match h with
    | some g => g.durable && g.held && g.tail.any (·.jseq == r.jseq)
    | none => false

/-- The record of a JSEQ is durable; one that is no longer in the journal lies under a durable checkpoint. -/
def jseqDurable (j : Nat) (s : State) : Bool :=
  match s.xmt.journal.find? (·.jseq == j) with | some r => recDurable r s | none => true

/-- Writes and barriers whose LAST record is durable become DURABLE. -/
def writesDurable (s : State) : State :=
  s.modLgr fun g => { g with entries := g.entries.map fun e =>
    if (lkWrites e.kind || e.kind == .barrier) && e.state != .dropped && (match e.lastJ with | some j => jseqDurable j s | none => false)
    then { e with state := .durable } else e }

/-- The half HELD by the newest durable generation is released when none of its writes is dirty any longer and its tail
stands in the media journal: HELD clears and line 395 rises (R164). -/
def releaseHalves (s : State) : State :=
  let dirty := s.lgr.entries.any fun e => lkWrites e.kind && e.state == .buffered && s.rvr.replayed.contains e.ord
  let heldNow := s.rvr.half.any fun h => match h with
    | some g => g.held && g.durable && !(s.xmt.journal.any fun r => !r.durable && g.tail.any (·.jseq == r.jseq))
    | none => false
  if heldNow && !dirty && !s.rvr.replay && !s.rvr.commit && (s.rvr.chosen.isNone || 7 ≤ s.rvr.recStep) then
    raiseLine 395 (s.modRvr fun r => { r with
      replayed := [], half := r.half.map fun h => h.map fun g => { g with held := false } })
  else s

/-- Records of the progress of a sanitize (R166). -/
def isSan (t : JType) : Bool := match t with | .sanStart | .sanBand | .sanDone => true | _ => false

/-- A checkpoint whose record is durable is the newest; older journal space is reused, but for the progress of a sanitize
that is under way (R110). -/
def ckptDurable (s : State) : State :=
  match s.xmt.ckPend with
  | some c =>
    if s.xmt.journal.any fun r => r.jseq == c.j && r.durable then
      s.modXmt fun x => { x with
        ckpt := c, ckPrev := x.ckpt, ckPend := none
        journal := x.journal.filter fun r => c.cap ≤ r.jseq || (x.san.isSome && isSan r.typ), fmtDone := x.fmtDone.filter fun j => c.cap ≤ j }
    else s
  | none => s

/-- The records of the next block: at most 64 in JSEQ order, without the beginning of a write that would be cut (R125,
R155); the records of a Format are in one block (R165). -/
def nextBlock (l : List JRec) : List JRec :=
  let t := l.take 64
  match t.getLast? with
  | none => []
  | some r =>
    if (l.any fun x => x.typ == .format && x.ord == r.ord && t.all fun y => x.jseq != y.jseq) then
      t ++ (l.drop 64).takeWhile fun x => x.ord == r.ord
    else
      let whole := (t.reverse.dropWhile fun x => x.ord == r.ord).reverse
      if r.last || whole.isEmpty then t else whole

/-- The next block of the tail becomes durable (R155). -/
def blockDurable (s : State) : State :=
  let ids := (nextBlock (s.xmt.journal.filter fun r => !r.durable)).map (·.jseq)
  s.modXmt fun x => { x with journal := mapIf (fun r => ids.contains r.jseq) (fun r => { r with durable := true }) x.journal }

/-! ### Migration (R159) -/

/-- An open migration. -/
def migAt (zone : Bool) (i : Nat) (s : State) : Option Mig := s.xmt.migs.find? fun m => m.zone == zone && m.idx == i

/-- The namespace (NSID - 1) and sectors of an extent or zone; `dwp` limits a zone to its written part. -/
def bandRange (zone : Bool) (i : Nat) (s : State) : Option (Nat × Nat × Nat) :=
  if zone then (zoneTab i s).map fun z => (z.ns, (i - nsBase z.ns s) * 65536, z.dwp)
  else
    match s.xmt.extents.find? (fun e => e.idx == i && e.v) with
    | some e => some (e.ns, (i - nsBase e.ns s) * 1024, 1024)
    | none => none

/-- Where an entry points, and what step 3 of R159 compares: SEQ of an extent, DWP of a zone. -/
def bandOld (zone : Bool) (i : Nat) (s : State) : Nat × Nat × Nat :=
  if zone then match zoneTab i s with | some z => (z.dwp, z.ch, z.sl) | none => (0, 0, 0)
  else let e := extentAt i s; (e.seq, e.ch, e.sl)

/-- The eight bytes of an entry in MIG_INTENT and MIG_COMMIT: an Extent Map entry, or the first half of a zone table
entry, which holds the location (log 173). -/
def bandEntry (zone : Bool) (i : Nat) (s : State) : Nat :=
  if zone then match zoneTab i s with | some z => zoneWord z % 2 ^ 64 | none => 0
  else extentBits (extentAt i s) s

/-- MIG in the entry. -/
def setMig (zone : Bool) (i : Nat) (b : Bool) (s : State) : State :=
  if zone then modZone i (fun z => { z with mig := b }) s else putExtent { extentAt i s with mig := b } s

/-- The slots of a copy: one of an extent, 64 of a zone. -/
def bandSlots (zone : Bool) (ch sl : Nat) : List (Nat × Nat) := (List.range (if zone then 64 else 1)).map fun i => (ch, sl + i)

/-- A slot that the tables or an open migration name. -/
def slotUsed (x : Nat × Nat) (s : State) : Bool :=
  (s.xmt.extents.any fun e => e.v && e.ch == x.1 && e.sl == x.2) ||
    (s.xmt.zones.any fun z => z.ch == x.1 && z.sl ≤ x.2 && x.2 < z.sl + 64) ||
    s.xmt.migs.any fun m => (bandSlots m.zone m.newCh m.newSl).contains x || (bandSlots m.zone m.oldCh m.oldSl).contains x

/-- A pin holds a place in a slot. -/
def slotPinned (x : Nat × Nat) (s : State) : Bool :=
  s.lgr.pins.any fun (l, _) => match l with | .slot c y _ => c == x.1 && y == x.2 | _ => false

/-- The new slots of a migration are free (R159), hold no pinned place (R151) and lie on a channel that is not lost
(R139). -/
def slotsFree (zone : Bool) (ch sl : Nat) (s : State) : Bool :=
  chanExists ch s && !(s.hce.lostChan.contains ch) && (bandSlots zone ch sl).all fun x => !(slotUsed x s) && !(slotPinned x s)

/-- Slots returned to the free pool. -/
def freeSlots (l : List (Nat × Nat)) (s : State) : State :=
  s.modXmt fun x => { x with freeSlots := x.freeSlots.filter (fun y => !(l.contains y)) ++ l }

/-- Live writes that are older than a source read and touch its range. -/
def underRead (ord ns slba nlb : Nat) (s : State) : List LEntry :=
  s.lgr.entries.filter fun e => e.ns == ns && lkWrites e.kind && (e.state == .pending || e.state == .buffered) && older e.ord ord &&
    decide (e.slba < slba + nlb) && decide (slba < e.slba + e.nlb)

/-- Writes that a source read captures (CAPTURED): those whose data it takes from the buffer, when each lies whole in the
range and they follow one another in their domain. Else all of them are destaged on their own, in their order
(log 174). -/
def captured (ord ns slba nlb : Nat) (s : State) : List Nat :=
  let l := underRead ord ns slba nlb s
  let whole := l.all fun e => (e.kind == .write || e.kind == .append) && e.state == .buffered && slba ≤ e.slba && e.slba + e.nlb ≤ slba + nlb
  let apart := s.lgr.entries.any fun x => holdsFrontier (nsDom ns s) x && !(l.any (·.ord == x.ord)) &&
    (l.any fun e => older e.ord x.ord) && l.any fun e => older x.ord e.ord
  if whole && !apart then l.map (·.ord) else []

/-- The writes under a migration's source read have been captured or are durable, and no older write of their domain is
still to come: the copy holds a prefix of the domain's writes (R158; log 174). -/
def migOrdered (m : Mig) (r : LEntry) (s : State) : Bool :=
  (underRead m.ord r.ns r.slba r.nlb s).all (fun e => m.captured.contains e.ord) &&
    s.lgr.entries.all fun e => !(m.captured.contains e.ord) ||
      s.lgr.entries.all fun x => !(holdsFrontier e.dom x && older x.ord e.ord) || m.captured.contains x.ord

/-- A migration starts: its source read takes an ordinal and selects; the intent is journalled; MIG is set. At the age
bound of R15 it takes none, and fetching pauses. -/
def execMigrationStart (zone : Bool) (idx ch sl : Nat) (s : State) : Out :=
  .next <|
    if pdOn 10 s && mediaUp s && !(heldBlk .xmt 0 s) && !s.lgr.frozen && s.lgr.entries.length < 8192 && s.xmt.san.isNone &&
        (migAt zone idx s).isNone && slotsFree zone ch sl s then
      if ordAge s then checkPause s
      else
        match bandRange zone idx s with
        | some (ns, slba, nlb) =>
          let ord := s.lgr.ordNext
          let (seq, och, osl) := bandOld zone idx s
          let src := s.xmt.jseq
          let old := bandEntry zone idx s
          let cap := captured ord ns slba nlb s
          let (s, sel) := selectRange ord ns (lbas slba nlb) (takeOrd s)
          let s := s.modLgr fun l => { l with entries := mapIf (fun e => cap.contains e.ord) (fun e => { e with captured := true }) l.entries }
          let s := addEntry { idx := 0, ord := ord, slba := slba, nlb := nlb, kind := .reloc, state := .active, ns := ns
                              dom := 0xFF, tag := 0, ctrl := 0, pins := 0, buf := 0, fua := false, enc := false, zoned := zone
                              captured := false, kslot := 0, data := [], sel := sel } s
          let s := journal ord .migIntent 0xFF ns true [idx, flag zone 0, old, locWord ch sl, src] s
          let s := setMig zone idx true s
          checkPause (s.modXmt fun x => { x with
            migs := x.migs ++ [{ zone := zone, idx := idx, newCh := ch, newSl := sl, oldCh := och, oldSl := osl, seq := seq
                                 srcJ := src, ord := ord, captured := cap }]
            freeSlots := x.freeSlots.filter fun y => !((bandSlots zone ch sl).contains y) })
        | none => s
    else s

/-- The check of step 3 holds. -/
def migHolds (m : Mig) (s : State) : Bool :=
  if m.zone then
    match zoneTab m.idx s with
    | some z => z.ch == m.oldCh && z.sl == m.oldSl && z.dwp == m.seq &&
        !(s.xmt.journal.any fun r => r.typ == .zone && m.srcJ ≤ r.jseq && r.body.getD 0 0 == m.idx)
    | none => false
  else (extentAt m.idx s).seq == m.seq

/-- The new copy's content: what the source read selected; a sector that cannot be read moves as UNCORR (R152). -/
def migFill (m : Mig) (r : LEntry) (lost : List Nat) (s : State) : State :=
  let (enc, ks) := nsKey r.ns s
  let s := ((lbas r.slba r.nlb).zip (readValues r lost s)).zipIdx.foldl (fun s ((lba, v), i) =>
    mediaPut (.slot m.newCh (m.newSl + i / 1024) (i % 1024))
      { v := v, ns := r.ns, lba := lba, enc := enc, kslot := ks, epoch := s.sec.epoch } s) s
  if enc then addUse ks r.nlb s else s

/-- The captured runs of an extent: those whose STAMP is not younger than the source JSEQ. -/
def capturedRuns (srcJ ns slba nlb : Nat) (s : State) : List Run :=
  s.xmt.runs.filter fun r => r.ns == ns && slba ≤ r.slba && r.slba < slba + nlb && !(older (srcJ % 2 ^ 32) r.stamp)

/-- The entry points to the new copy. -/
def migMap (m : Mig) (s : State) : State :=
  if m.zone then
    let s := modZone m.idx (fun z => { z with ch := m.newCh, sl := m.newSl }) s
    let again := fun (e : LEntry) => e.zoned && e.lastJ.isNone && zoneIdx e.ns e.slba s == m.idx
    s.modLgr fun l => { l with entries := mapIf again (fun e => { e with copied := none }) l.entries }
  else
    let e := extentAt m.idx s
    putExtent { e with ch := m.newCh, sl := m.newSl, seq := (e.seq + 1) % 2 ^ 16, dealloc := false, mig := false } s

/-- MIG_COMMIT, the MAP or ZONE record and the CACHE_DEL records of a migration whose check holds; MIG clears. A write that
is copied to the old place of a zone and not yet logged is copied again. -/
def migCommit (m : Mig) (r : LEntry) (s : State) : State :=
  let s := (s.lgr.entries.filter fun e => m.captured.contains e.ord).foldl (fun s e => supersede e s) s
  let old := bandEntry m.zone m.idx s
  let gone := if m.zone then [] else capturedRuns m.srcJ r.ns r.slba r.nlb s
  let s := setMig m.zone m.idx false (migMap m s)
  let s := journal m.ord .migCommit 0xFF r.ns false [m.idx, flag m.zone 0, bandEntry m.zone m.idx s] s
  let s := if m.zone then journalZone m.ord 0xFF r.ns true m.idx s
    else journal m.ord .map 0xFF r.ns gone.isEmpty [m.idx, bandEntry false m.idx s, old] s
  let s := gone.zipIdx.foldl (fun s (x, i) => dropRun m.ord 0xFF (i + 1 == gone.length) x s) s
  s.modXmt fun x => { x with
    migs := mapIf (fun y => y.zone == m.zone && y.idx == m.idx) (fun y => { y with commitJ := some (x.jseq - 1) }) x.migs }

/-- The migration is void: the new copy is discarded, and the writes that it captured are destaged on their own. -/
def migVoid (m : Mig) (s : State) : State :=
  let s := ev .xmt 0x0221 m.idx 0 0 (setMig m.zone m.idx false (releaseReader m.ord s))
  let s := s.modLgr fun l => { l with entries := mapIf (fun e => m.captured.contains e.ord) (fun e => { e with captured := false }) l.entries }
  freeSlots (bandSlots m.zone m.newCh m.newSl) (s.modXmt fun x => { x with
    migs := x.migs.filter fun y => !(y.zone == m.zone && y.idx == m.idx) })

/-- The new copy is written and read back: XMT commits the migration, or finds it void. -/
def migVerified (m : Mig) (r : LEntry) (lost : List Nat) (s : State) : State :=
  if migHolds m s then migCommit m r (migFill m r lost s) else migVoid m s

def execMigrationCopyVerified (zone : Bool) (idx : Nat) (lost : List Nat) (s : State) : Out :=
  .next <|
    match migAt zone idx s with
    | some m =>
      match entryAt m.ord s with
      | some r =>
        if pdOn 10 s && mediaUp s && !(heldBlk .xmt 0 s) && m.commitJ.isNone && selReady r.sel && !(selKeyWait r.ns r.sel s) &&
            migOrdered m r s then migVerified m r lost s else s
      | none => s
    | none => s

/-- A migration whose MIG_COMMIT is durable has committed (R109, R159): event 0x0220, every CAPTURED write becomes DURABLE,
and its relocation ends. -/
def migDone (m : Mig) (s : State) : State :=
  match m.commitJ with
  | some j =>
    if !m.committed && jseqDurable j s then
      let taken := fun (e : LEntry) => m.captured.contains e.ord && e.state == .buffered
      let s := s.modLgr fun l => { l with entries := mapIf taken (fun e => { e with state := .durable }) l.entries }
      let s := ev .xmt 0x0220 m.idx (flag m.zone 0) 0 (releaseReader m.ord s)
      s.modXmt fun x => { x with
        migs := mapIf (fun y => y.zone == m.zone && y.idx == m.idx) (fun y => { y with committed := true }) x.migs }
    else s
  | none => s
def migsDone (s : State) : State := s.xmt.migs.foldl (fun s m => migDone m s) s

/-- When no pin holds the old copy, MIG_FREE is journalled and the slot returns to the free pool. -/
def execMigFree (zone : Bool) (idx : Nat) (s : State) : Out :=
  .next <|
    match migAt zone idx s with
    | some m =>
      let old := bandSlots m.zone m.oldCh m.oldSl
      if pdOn 10 s && !(heldBlk .xmt 0 s) && m.committed && !(old.any fun x => slotPinned x s) then
        let s := journal noOrd .migFree 0xFF 0 true [locWord m.oldCh m.oldSl] s
        freeSlots old (s.modXmt fun x => { x with migs := x.migs.filter fun y => !(y.zone == zone && y.idx == idx) })
      else s
    | none => s

/-! ### A journal block -/

/-- What durability brings: writes, migrations, the newest checkpoint, and what they free. -/
def settleJournal (s : State) : State := releaseHalves (retire (ckptDurable (migsDone (writesDurable s))))

/-- One journal block: media copies that have been written, the records of the writes at the frontiers, durability, and
what it frees. -/
def journalBlock (copies : List (Nat × Nat × Nat)) (s : State) : State :=
  let s := copies.foldl (fun s (o, ch, ci) => writeCopy o ch ci s) (startRewrites s)
  settleJournal (blockDurable (logReady s))

/-- Firmware writes a checkpoint of the tables and appends a CHECKPOINT record; the location and the digest are free. -/
def execCheckpoint (s : State) : Out :=
  .next <|
    if pdOn 10 s && mediaUp s && !(heldBlk .xmt 0 s) then
      let x := s.xmt
      let l := draw (2 ^ 64) s
      let d := draw (2 ^ 192) s.drawn
      let s := journal noOrd .checkpoint 0xFF 0 true [l, x.jseq, d] s.drawn.drawn
      s.modXmt fun y => { y with ckPend := some { j := x.jseq, cap := x.jseq, extents := x.extents, runs := x.runs, zones := x.zones } }
    else s

/-! ### Ordering domains and the window (R146, R148) -/

/-- Live Ledger entries of a namespace. -/
def liveEntries (ns : Nat) (s : State) : Nat := (s.lgr.entries.filter fun e => e.ns == ns).length

/-- A write of XMT_NSDOMk. -/
def writeNsdom (k : Fin 64) (v : Nat) (s : State) : State :=
  if windowOpen .xmt 0 s && liveEntries k s != 0 then blockErrorP .xmt 0 0x0203 k k (liveEntries k s) 0 s
  else storeFields .nsdom 0 k v s

def execNsdomWrite (_m : Master) (k : Fin 64) (v : Word) (s : State) : Out :=
  .next <| access .xmt 0 (Reg.addr .nsdom 0 k) (writeNsdom k v.toNat) s

/-- A write of LGR_WIN: GO copies entry IDX; what a free entry holds beside KIND and STATE 0 is a free value. -/
def writeLgrWin (v : Nat) (s : State) : State :=
  let s := storeFields .lgrWin 0 0 v s
  if v.testBit 31 then
    match s.lgr.entries.find? (·.idx == bits v 12 0) with
    | some e => s.modLgr fun l => { l with wdata := entryWord e }
    | none =>
      let d := draw (2 ^ 256) s
      s.drawn.modLgr fun l => { l with wdata := d - bits d 111 104 * 2 ^ 104 }
  else s

def execLgrWinGo (_m : Master) (v : Word) (s : State) : Out :=
  .next <| access .lgr 0 (Reg.addr .lgrWin 0 0) (writeLgrWin (v.toNat ||| 2 ^ 31)) s

end Sys2Proof.Machine
end

