-- ==== Sys2Proof/Machine/Reservoir.lean ====
section
/-!
DEFINITION. RVR: the reservoir commit and restart recovery (07_ordering_and_coherence.md, R21, R23, R160-R164).
-/

set_option Elab.async false

namespace Sys2Proof.Machine

open Sys2Proof

/-! ### The reservoir commit (R161-R163) -/

/-- The half that the next commit writes: the one that does not hold the newest durable generation. -/
def targetHalf (s : State) : Fin 2 :=
  match s.rvr.half[0] with
  | some g => if g.durable && g.gen == s.rvr.gen then 1 else 0
  | none => 0

/-- RVR_STAT.ARMED: the target half is erased throughout. -/
def rvrArmed (s : State) : Bool := fld .rvrCfg 0 0 31 16 s != 0 && fld .rvrCfg 0 0 31 16 s ≤ s.rvr.erased

/-- RVR_STAT.HELD. -/
def rvrHeld (s : State) : Bool := s.rvr.half.any fun h => match h with | some g => g.held && g.durable | none => false

/-- A write as a descriptor with its data. -/
def toRWrite (e : LEntry) : RWrite :=
  { ord := e.ord, slba := e.slba, ns := e.ns, dom := e.dom, nlb := e.nlb, kind := e.kind, kslot := e.kslot, enc := e.enc
    fua := e.fua, zoned := e.zoned, zop := e.zop, data := e.data }

/-- The writes that fit in the erased space, with the f_d of each domain that stopped early for want of it. -/
def fitImage : List RWrite → Nat → List (Nat × Nat) → List RWrite × List (Nat × Nat)
  | [], _, stop => ([], stop)
  | w :: t, room, stop =>
    if stop.any (fun x => x.1 == w.dom) then fitImage t room stop
    else
      let n := if w.kind == .write || w.kind == .append then w.nlb else 0
      if n ≤ room then
        let (l, st) := fitImage t (room - n) stop
        (w :: l, st)
      else fitImage t room (stop ++ [(w.dom, w.ord)])

/-- The Ledger is frozen: the commit set is every BUFFERED write, and the image takes its writes and the tail. -/
def freezeImage (s : State) : State :=
  let set_ := (s.lgr.entries.filter fun e => lkWrites e.kind && e.state == .buffered).map toRWrite
  let (ws, stop) := fitImage set_ ((s.rvr.erased - 8) * 256) []
  let g : Gen :=
    { gen := (s.rvr.gen + 1) % 2 ^ 32, writes := ws, tail := s.xmt.journal.filter (fun r => !r.durable), front := stop
      frontAll := s.lgr.ordNext, encDoms := [], jseq := s.xmt.jseq - 1, ndev := fld .rvrCfg 0 0 1 0 s, durable := false, held := false }
  let s := stop.foldl (fun s (d, f) => ev .rvr 0x0215 d f 0 s) s
  (s.modRvr fun r => { r with image := some g }).modLgr fun l => { l with frozen := true }

/-- PENDING writes are dropped at a commit that a loss starts (R162 step 2). -/
def dropPending (s : State) : State :=
  (s.lgr.entries.filter fun e => lkWrites e.kind && e.state == .pending).foldl (fun s e => dropEntry e.ord s) s

/-- Step 2 of R162: fetching is closed, PENDING writes are dropped and the Ledger is frozen, unless an image exists. -/
def freezeAtLoss (s : State) : State :=
  let s := s.modHce fun h => { h with closed := true }
  if s.rvr.image.isSome then s else freezeImage (dropPending s)

/-- A commit starts: event 0x0211, the RVR_COMMIT grant (R21), and the freeze, which in service waits for the PENDING
writes while only I/O fetching is closed (R163). A loss, reset or shutdown that finds a commit in service running takes
it over: it is one of R162 from then on. -/
def startCommit (inService : Bool) (s : State) : State :=
  if fld .rvrCfg 0 0 1 0 s = 0 then s
  else if s.rvr.commit then
    if inService || !s.rvr.inService then s else freezeAtLoss (s.modRvr fun r => { r with inService := false })
  else
    let s := ev .rvr 0x0211 ((s.rvr.gen + 1) % 2 ^ 32) (dirtyMib s) 0 s
    let s := commitGrant (s.modRvr fun r => { r with commit := true, inService := inService, image := none })
    if inService then s.modHce fun h => { h with ioClosed := true } else freezeAtLoss s

/-- A commit that a loss, a reset or a shutdown started. -/
def lossContext (s : State) : Bool := s.sup.loss || s.sys.seq != .none || s.thm.shutSeq

/-- A write of RVR_CMD. -/
def writeRvrCmd (v : Nat) (s : State) : State :=
  if v = 1 then startCommit (!(lossContext s)) s
  else if v = 2 then
    if s.rvr.chosen.isSome && !s.rvr.replay && (s.rvr.recStep == 2 || s.rvr.recStep == 6) then
      s.modRvr fun r => { r with replay := true }
    else s
  else s

def execReservoirCommit (_m : Master) (s : State) : Out :=
  .next <| access .rvr 0 (Reg.addr .rvrCmd 0 0) (writeRvrCmd 1) s

def execReservoirReplay (_m : Master) (s : State) : Out :=
  .next <| access .rvr 0 (Reg.addr .rvrCmd 0 0) (writeRvrCmd 2) s

/-- In an in-service commit the Ledger freezes once no write is PENDING (R163). -/
def execLedgerFreeze (s : State) : Out :=
  .next <|
    if s.rvr.commit && s.rvr.inService && s.rvr.image.isNone && pdOn 10 s && !(heldBlk .rvr 0 s) &&
        !(s.lgr.entries.any fun e => lkWrites e.kind && e.state == .pending) then freezeImage s
    else s

/-- A key slot whose key can be used. -/
def slotUsable (k : Nat) (s : State) : Bool :=
  match kslot k s with | some x => x.valid && !x.lost | none => false

/-- Domains that stop early because a key slot is zeroed: their first such write's ordinal becomes f_d. -/
def snuffStops (ws : List RWrite) (s : State) : List (Nat × Nat) :=
  ws.foldl (fun l w =>
    if w.enc && (w.kind == .write || w.kind == .append) && !(slotUsable w.kslot s) && !(l.any fun x => x.1 == w.dom) then
      l ++ [(w.dom, w.ord)] else l) []

/-- The end of a commit releases I/O fetching and the Ledger, where the commit was one in service (R163). -/
def releaseFetch (s : State) : State := (s.modLgr fun l => { l with frozen := false }).modHce fun h => { h with ioClosed := false }

/-- The commit record is durable (R162 steps 5-7, R163): the image with its per-domain limits becomes the newest
generation; event 0x0212 and line 392. -/
def commitDurable (s : State) : State :=
  match s.rvr.image with
  | none => s
  | some g =>
    let stops := snuffStops g.writes s
    let front := g.front.filter (fun x => !(stops.any fun y => y.1 == x.1 && older y.2 x.2)) ++
      stops.filter (fun x => !(g.front.any fun y => y.1 == x.1 && !(older x.2 y.2)))
    let g := { g with front := front, encDoms := stops.map (·.1) }
    let keep := fun (d o : Nat) => older o (genFront g d)
    let tail := g.tail.filter fun r => r.dom == 0xFF || r.ord == noOrd || keep r.dom r.ord
    let g := { g with tail := tail, jseq := tail.foldl (fun m r => max m r.jseq) 0, durable := true, held := true }
    let t := targetHalf s
    let inSvc := s.rvr.inService
    let s := s.modRvr fun r => { r with
      half := (r.half.map fun h => h.map fun x => { x with held := false }).set t (some g)
      gen := g.gen, commit := false, image := none, inService := false, erased := 0
      capHold := r.capHold || inSvc
      replayed := g.writes.map (·.ord) }
    let s := commitGrantEnd (raiseLine 392 (ev .rvr 0x0212 g.gen g.writes.length 0 s))
    if inSvc then settleJournal (releaseFetch s)
    else s.modSys fun y => { y with pendCause := y.pendCause &&& 0xFFFFF7FF ||| 0x400 }

/-- A commit is abandoned: event 0x0213 with its generation and the last descriptor written (a free value), and
COMMITFAIL (R103, R108). -/
def abandonCommit (s : State) : State :=
  if s.rvr.commit then
    let s := ev .rvr 0x0213 ((s.rvr.gen + 1) % 2 ^ 32) (draw (2 ^ 32) s) 0 s.drawn
    let s := s.modSys fun y => { y with pendCause := y.pendCause &&& 0xFFFFFBFF ||| 0x800 }
    let s := if s.rvr.inService then releaseFetch s else s
    commitGrantEnd (s.modRvr fun r => { r with commit := false, image := none, inService := false, erased := 0 })
  else s

/-- Firmware erases a released half in the background, 1 MiB in each idle step of the model (log 20); line 394 when the
target half is erased throughout. -/
def backgroundErase (s : State) : State :=
  let half := fld .rvrCfg 0 0 31 16 s
  if pdOn 10 s && fld .rvrCfg 0 0 1 0 s != 0 && !s.rvr.commit && s.rvr.erased < half then
    let s := s.modRvr fun r => { r with
      erased := r.erased + 1, half := if r.erased = 0 then r.half.set (targetHalf s) none else r.half }
    if s.rvr.erased = half then raiseLine 394 s else s
  else s

/-! ### Restart recovery (R158, R160, R164) -/

/-- A generation whose commit record is durable; `live`: one whose half is still HELD, which is the only one that a restart
may use (07 When the commit is cut off; log 175). -/
def genOk (live : Bool) (h : Option Gen) : Option Gen := h.bind fun g => if g.durable && (!live || g.held) then some g else none

/-- The newest of them. -/
def newestOf (live : Bool) (s : State) : Option Gen :=
  s.rvr.half.foldl (fun m h =>
    match genOk live h, m with
    | some g, some b => if older b.gen g.gen then some g else m
    | some g, none => some g
    | none, m => m) none

/-- The generation that restart recovery uses. -/
def newestGen (s : State) : Option Gen := newestOf true s

/-- Records without the beginnings of writes, migrations or Formats whose LAST record is not there: no part of such a
write survives (R158). A write's records follow one another. -/
def wholeRecords (l : List JRec) : List JRec :=
  (l.foldr (fun r (st : List JRec × Option (Nat × Nat)) =>
    if r.last || r.typ == .migCommit || st.2 == some (r.ord, r.dom) then (r :: st.1, some (r.ord, r.dom)) else (st.1, none))
    ([], none)).1

/-- The intent that a MIG_COMMIT follows. -/
def intentOf (all : List JRec) (r : JRec) : Option JRec :=
  (all.filter fun i => i.typ == .migIntent && i.jseq < r.jseq && i.body.take 2 == r.body.take 2).getLast?

/-- An Extent Map entry or a zone points to the copy that eight bytes name. -/
def applyEntry (zone : Bool) (i w : Nat) (s : State) : State :=
  if zone then modZone i (fun z => { z with ch := locCh w, sl := locSl w }) s else putExtent { extentOf i w with mig := false } s

/-- A table record applied to the tables. -/
def applyRec (all : List JRec) (r : JRec) (s : State) : State :=
  let b := fun i => r.body.getD i 0
  match r.typ with
  | .cacheAdd => s.modXmt fun x => { x with runs := x.runs ++ [runOf (b 0)] }
  | .cacheDel => s.modXmt fun x => { x with
      runs := x.runs.filter fun y => !(y.ns == r.ns && y.slba == b 0 && y.nlb == b 2 && y.stamp == b 3) }
  | .map => putExtent (extentOf (b 0) (b 1)) s
  | .zone =>
    if s.xmt.zones.any (·.idx == b 0) then
      modZone (b 0) (fun z => { z with
        dwp := b 1, st := zsOf (b 2), ch := locCh (b 3), sl := locSl (b 3), ns := r.ns, cap := sget 65536 (b 0) s.xmt.bandCap }) s
    else
      s.modXmt fun x => { x with zones := x.zones ++ [{ idx := b 0, ch := locCh (b 3), sl := locSl (b 3), dwp := b 1, st := zsOf (b 2)
                                                        fwp := 0, ns := r.ns, cap := sget 65536 (b 0) x.bandCap, mig := false
                                                        lastWr := 0 }] }
  | .migCommit =>
    let s := applyEntry (b 1 == 1) (b 0) (b 2) s
    match intentOf all r with
    | some i =>
      if b 1 = 1 then s
      else
        let gone := capturedRuns (i.body.getD 4 0) r.ns ((b 0 - nsBase r.ns s) * 1024) 1024 s
        s.modXmt fun x => { x with runs := x.runs.filter fun y => !(gone.contains y) }
    | none => s
  | .format => s.modHce fun h => { h with ns := mapIf (·.nsid == r.ns + 1) (fun x => { x with lbaf := b 0, pi := b 2 }) h.ns }
  | _ => s

/-- Migrations whose intent is among the records, without a commit and without a later intent for the same band. -/
def openIntents (l : List JRec) : List JRec :=
  l.filter fun i => i.typ == .migIntent &&
    !(l.any fun c => (c.typ == .migCommit || c.typ == .migIntent) && c.jseq > i.jseq && c.body.take 2 == i.body.take 2)

/-- Places that the tables reach keep their content; the rest of the media list is freed space. -/
def reached (l : Loc) (s : State) : Bool :=
  match l with
  | .cache ch i => s.xmt.runs.any fun r => !r.zero && !r.unc && r.ch == ch && r.cidx ≤ i && i < r.cidx + r.nlb
  | .slot ch sl _ => slotUsed (ch, sl) s

/-- Slots that the media list or a migration record names: those that no table entry reaches are free (R160, R164
step 6). -/
def knownSlots (all : List JRec) (s : State) : List (Nat × Nat) :=
  let b := fun (r : JRec) i => r.body.getD i 0
  s.xmt.freeSlots ++ (s.xmt.media.filterMap fun (l, _) => match l with | .slot c x _ => some (c, x) | _ => none) ++
    all.flatMap fun r =>
      match r.typ with
      | .migIntent =>
        bandSlots (b r 1 == 1) (locCh (b r 3)) (locSl (b r 3)) ++ bandSlots (b r 1 == 1) (locCh (b r 2)) (locSl (b r 2))
      | _ => []

/-- The checkpoint that loads (R164 step 4): the newest whose digest verifies. -/
def loadedCkpt (ckOk : Bool) (s : State) : Ckpt := if ckOk then s.xmt.ckpt else s.xmt.ckPrev

/-- The media journal as it is read from a checkpoint on: nothing, where its oldest record comes too late to continue the
sequence, and else up to the last good record. -/
def goodJournal (lastGood : Option Nat) (c : Ckpt) (s : State) : List JRec :=
  let media := s.xmt.journal.filter (·.durable)
  if (media.head?.map fun r => decide (r.jseq ≤ max 1 c.cap)).getD true then
    match lastGood with | some j => media.filter fun r => r.jseq ≤ j | none => media
  else []

/-- A write of the chosen generation moves its zone's fetch write pointer. -/
def replayFwp (w : RWrite) (s : State) : State :=
  if w.zoned then
    modZone (zoneIdx w.ns w.slba s) (fun z => { z with
      fwp := if w.zop = 1 then 0 else if w.zop = 2 then z.cap else max z.fwp (zoneOff w.slba + w.nlb) }) s
  else s

/-- Writes of a generation that are replayed: those older than their domain's f_d, with their new ordinals. -/
def replayable (g : Gen) : List (RWrite × Nat) := g.writes.zipIdx.filter fun (w, _) => older w.ord (genFront g w.dom)

/-- A zone of a namespace that exists; the entries of a deleted one go. -/
def zoneLives (z : Zone) (s : State) : Bool :=
  match nsAt z.ns s with
  | some x => x.zoned && decide (nsBase z.ns s ≤ z.idx) && decide (z.idx < nsBase z.ns s + x.zones)
  | none => false

/-- The chosen generation. -/
def chosenGen (s : State) : Option Gen :=
  match newestGen s with | some g => if s.rvr.chosen == some g.gen then some g else none | none => none

/-- Steps 4 to 6: the checkpoint, the media journal as far as it is good, the generation's tail, the migrations and
the pointers. -/
def recoverTables (lastGood : Option Nat) (ckOk : Bool) (s : State) : State :=
  let x := s.xmt
  let c := loadedCkpt ckOk s
  let good := goodJournal lastGood c s
  let s := match (x.journal.filter (·.durable)).find? (fun r => !(good.contains r)) with
    | some r => ev .xmt 0x0210 (r.jseq % 2 ^ 32) 0 0 s
    | none => s
  let top := good.foldl (fun m r => max m r.jseq) (c.cap - 1)
  let tail := match chosenGen s with | some g => g.tail.filter (fun r => top < r.jseq) | none => []
  let all := wholeRecords (good ++ tail.map fun r => { r with durable := false })
  let last := (x.journal ++ tail).foldl (fun m r => max m r.jseq) top
  let s := s.modXmt fun y => { y with
    extents := c.extents, runs := c.runs, zones := c.zones, journal := all, ckpt := c, ckPend := none, migs := []
    jseq := max y.jseq (last + 1) }
  let s := all.foldl (fun s r => if c.cap ≤ r.jseq then applyRec all r s else s) s
  let s := (openIntents all).foldl (fun s r =>
    setMig (r.body.getD 1 0 == 1) (r.body.getD 0 0) false (ev .xmt 0x0221 (r.body.getD 0 0) 1 0 s)) s
  let slots := (knownSlots all s).eraseDups
  let s := s.modXmt fun y => { y with
    zones := (y.zones.filter fun z => zoneLives z s).map fun z => { z with fwp := z.dwp, mig := false }
    extents := y.extents.map fun e => { e with mig := false }
    media := y.media.filter fun (l, _) => reached l s
    freeSlots := slots.filter fun a => !(slotUsed a s) }
  if s.rvr.recStep = 3 then
    match chosenGen s with | some g => (replayable g).foldl (fun s (w, _) => replayFwp w s) s | none => s
  else s

/-! ### The resumption of a sanitize (R110, R166) -/

/-- The newest progress in the media journal: JSEQ, bands done in the pass, pass. -/
def mediaProgress (s : State) : Option (Nat × Nat × Nat) :=
  match (s.xmt.journal.filter fun r => r.durable && (r.typ == .sanStart || r.typ == .sanBand)).getLast? with
  | some r => if r.typ == .sanStart then some (r.jseq, 0, 1) else some (r.jseq, r.body.getD 0 0 + 1, r.body.getD 1 1)
  | none => none

/-- The newer of the two progress journals; with neither readable, the beginning. -/
def sanProgress (s : State) : Nat × Nat :=
  match mediaProgress s, s.rvr.sanProg with
  | some (a, b, p), some (a', b', p') => if a < a' then (b', p') else (b, p)
  | some (_, b, p), none => (b, p)
  | none, some (_, b, p) => (b, p)
  | none, none => (0, 1)

/-- Firmware asks for SANITIZE leave, through port 0 (log 169). -/
def sanLeave (s : State) : State := submitLeave 0 9 0 0 0 0 0 s

/-- An overwrite that a reset cut off resumes with the band after the last one journalled, in its pass, and asks for
SANITIZE leave again. -/
def sanitizeResume (s : State) : State :=
  match s.xmt.san with
  | some x =>
    if x.overwrite then
      let (b, p) := sanProgress s
      let s := s.modXmt fun y => { y with san := some { x with band := b, pass := p, doneJ := none } }
      sanLeave (ev .xmt 0x0230 b p 0 s)
    else s
  | none => s

/-! ### The steps of R164 -/

/-- Steps 1 and 2: the generation is chosen and its ordinals are reserved. -/
def chooseGen (s : State) : State :=
  let g := newestGen s
  let newest := match newestOf false s with | some g => g.gen | none => 0
  let s := match g with
    | some g => ev .rvr 0x0214 g.gen 1 0 (s.modRvr fun r => { r with chosen := some g.gen, gen := newest, recStep := 2 })
    | none => ev .rvr 0x0214 0 0 0 (s.modRvr fun r => { r with chosen := none, gen := newest, recStep := 3 })
  let n := match g with | some g => g.writes.length | none => 0
  s.modLgr fun l => { l with ordNext := (l.ordNext + n) % 2 ^ 32 }

/-- Restart recovery, all but the replay: the generation is chosen and its ordinals are reserved before HCE fetches; the
tables are rebuilt once the media are available. -/
def restartRecovery (lastGood : Option Nat) (ckOk : Bool) (s : State) : State :=
  if pdOn 10 s && s.sys.acoresUp && !(heldBlk .rvr 0 s) then
    let s := if s.rvr.recStep = 0 && s.lgr.entries.isEmpty then chooseGen s else s
    if mediaUp s && !(heldBlk .xmt 0 s) && (s.rvr.recStep = 2 || s.rvr.recStep = 3) then
      let s := recoverTables lastGood ckOk s
      sanitizeResume (s.modRvr fun r => { r with recStep := if r.recStep = 2 then 6 else 7 })
    else s
  else s

/-- A write of the chosen generation as a Ledger entry under its reserved ordinal. -/
def replayEntry (w : RWrite) (i : Nat) (s : State) : LEntry :=
  let lost := w.enc && (match kslot w.kslot s with | some k => k.lost | none => true)
  { idx := 0, ord := i, slba := w.slba, nlb := w.nlb, kind := w.kind, state := .buffered, ns := w.ns, dom := w.dom, tag := 0
    ctrl := 0, pins := 0, buf := if w.kind == .write || w.kind == .append then bufAddr s else 0, fua := w.fua, enc := w.enc
    zoned := w.zoned, captured := false, kslot := w.kslot
    data := if lost then w.data.map fun _ => .unrecovered else w.data, sel := [], zop := w.zop }

/-- The replay completes (R164 step 3): line 393. Encrypted sectors wait for their keys. -/
def execReplayDone (s : State) : Out :=
  .next <|
    match chosenGen s with
    | some g =>
      let keys := g.writes.all fun w => !w.enc || s.sec.restored
      if s.rvr.replay && pdOn 10 s && !(heldBlk .rvr 0 s) && keys then
        let ok := replayable g
        let s := ok.foldl (fun s (w, i) => replayFwp w (addEntry (replayEntry w i s) s.drawn)) s
        raiseLine 393 (releaseHalves (s.modRvr fun r => { r with
          replay := false, recStep := if r.recStep = 6 then 7 else 3, replayed := ok.map (·.2) }))
      else s
    | none => s

end Sys2Proof.Machine
end

