-- ==== Sys2Proof/Machine/Keys.lean ====
section
/-!
DEFINITION. Key slots and the records of the key table (15_security.md R347-R350).
-/

set_option Elab.async false

namespace Sys2Proof.Machine

open Sys2Proof

/-- A slot's record replaced, kept in slot order. -/
def putSlot (x : KSlot) (s : State) : State :=
  s.modSec fun c => { c with slots := insertSlot x (c.slots.filter (·.slot != x.slot)) }
where
  insertSlot (x : KSlot) : List KSlot → List KSlot
    | [] => [x]
    | y :: t => if x.slot < y.slot then x :: y :: t else y :: insertSlot x t

/-- A new key in the lowest free slot; its key is a free value (R348). -/
def newKey (ns user limit slot : Nat) (s : State) : State :=
  let d := draw (2 ^ 512) s
  putSlot { slot := slot, valid := true, lost := false, retired := false, ns := ns, user := user, epoch := s.sec.epoch, use_ := 0
            limit := limit, key := d, ckpt := 0, changed := true, warned := false } s.drawn

/-- A slot zeroed. -/
def zeroSlot (k : Nat) (s : State) : State :=
  s.modSec fun c => { c with
    slots := c.slots.filter (·.slot != k), lane := c.lane.map fun l => if l = some k then none else l }

/-- The record of a slot (table Key table record). -/
def recordOf (x : KSlot) : KRec :=
  { slot := x.slot, ns := x.ns, user := x.user, epoch := x.epoch, retired := x.retired, use_ := x.use_, limit := x.limit
    key := x.key, good := true }

/-- KEK of a key epoch (R350). -/
def kek (e : Nat) : Nat := Config.kmac256 Config.devsec e 2 % 2 ^ 256

/-- ATTR of a record (bytes 0-15). -/
def attrBytes (r : KRec) : Nat :=
  packed [(2, r.slot % 2 ^ 11), (1, r.ns), (1, r.user), (1, r.epoch), (1, flag r.retired 0), (5, r.use_), (5, r.limit)]

/-- The 128 bytes of a record (table Key table record). -/
def recordBytes (r : KRec) : Nat :=
  let a := attrBytes r
  let h := packed [(16, a), (88, Config.keyWrap (kek r.epoch) (packed [(64, r.key), (16, a)])), (20, 0)]
  packed [(124, h), (4, crc32c 124 h)]

/-- Records one after the other. -/
def recordsBytes (l : List KRec) : Nat := packed (l.map fun r => (128, recordBytes r))

/-- Fresh records stored by firmware in every copy of the key table. -/
def storeRecords (l : List KRec) (s : State) : State :=
  let put := fun (t : List KRec) => (t.filter fun r => !(l.any fun x => x.slot == r.slot)) ++ l
  s.modSec fun c => { c with keyRecs := put c.keyRecs, mediaRecs := put c.mediaRecs }

/-- CIP_NSKEYk set. -/
def setNsKey (ns : Nat) (enc : Bool) (slot : Nat) (s : State) : State :=
  s.modSec fun c => { c with nskey := (c.nskey.filter (·.1 != ns)) ++ [(ns, enc, slot)] }

/-- Format with SES 1 or 2 and Sanitize Crypto Erase replace a namespace's key (R349): every slot of the namespace is
zeroed, a new one is generated and named active, and the old records leave every copy of the key table. -/
def replaceKey (ns : Nat) (s : State) : State :=
  if (nsKey ns s).1 || s.sec.keyRecs.any (·.ns == ns) then
    let user := match s.sec.slots.find? (·.ns == ns), s.sec.keyRecs.find? (·.ns == ns) with
      | some x, _ => x.user | none, some r => r.user | none, none => 0
    let s := (s.sec.slots.filter (·.ns == ns)).foldl (fun s x => zeroSlot x.slot s) s
    let s := s.modSec fun c => { c with
      keyRecs := c.keyRecs.filter (·.ns != ns), mediaRecs := c.mediaRecs.filter (·.ns != ns) }
    if s.sec.encdis || s.sec.l2pend then s
    else
      match lowestFree 2048 (s.sec.slots.map (·.slot) ++ s.sec.keyRecs.map (·.slot)) with
      | some k =>
        let s := setNsKey ns true k (newKey ns user (2 ^ 32) k s)
        match kslot k s with | some x => storeRecords [recordOf x] s | none => s
      | none => s
  else s

end Sys2Proof.Machine
end

