-- ==== Sys2Proof/Machine/Host.lean ====
section
/-!
DEFINITION. HCE: queues, fetch, acceptance, the fast path, zone rules, completion, abort and the controller resets
(06_host_commands.md R111-R138, 05_startup_and_reset.md R96, R100, R105, 01_architecture.md R13-R18).
-/

set_option Elab.async false

namespace Sys2Proof.Machine

open Sys2Proof

/-! ### Status codes (R140) -/

abbrev Status := Nat × Nat

def stOk : Status := (0, 0)
def stOpcode : Status := (0, 0x01)
def stField : Status := (0, 0x02)
def stTransfer : Status := (0, 0x04)
def stInternal : Status := (0, 0x06)
def stAborted : Status := (0, 0x07)
def stNamespace : Status := (0, 0x0B)
def stSequence : Status := (0, 0x0C)
def stSanitize : Status := (0, 0x1D)
def stLbaRange : Status := (0, 0x80)
def stNotReady : Status := (0, 0x82)
def stResvConflict : Status := (0, 0x83)
def stFormat : Status := (0, 0x84)
def stQueueId : Status := (1, 0x01)
def stQueueSize : Status := (1, 0x02)
def stAbortLimit : Status := (1, 0x03)
def stAerLimit : Status := (1, 0x05)
def stFwSlot : Status := (1, 0x06)
def stFwImage : Status := (1, 0x07)
def stCapacity : Status := (1, 0x15)
def stZoneBoundary : Status := (1, 0xB8)
def stZoneFull : Status := (1, 0xB9)
def stZoneReadOnly : Status := (1, 0xBA)
def stZoneOffline : Status := (1, 0xBB)
def stZoneInvalidWrite : Status := (1, 0xBC)
def stTooManyActive : Status := (1, 0xBD)
def stTooManyOpen : Status := (1, 0xBE)
def stZoneTransition : Status := (1, 0xBF)
def stWriteFault : Status := (2, 0x80)
def stUnrecovered : Status := (2, 0x81)
def stCompare : Status := (2, 0x85)
def stKeyLimit : Status := (7, 0xC0)

/-! ### Commands, queues and controllers -/

def ctrlIdx (c : Nat) : Fin 2 := Fin.ofNat 2 c
def ctrlAt (c : Nat) (s : State) : Ctrl := s.hce.ctrl[ctrlIdx c]

/-- A live command by its internal tag (R118). -/
def cmdAt (tag : Nat) (s : State) : Option Cmd := s.hce.cmds.find? (·.tag == tag)
def modCmd (tag : Nat) (f : Cmd → Cmd) (s : State) : State :=
  s.modHce fun h => { h with cmds := mapIf (·.tag == tag) f h.cmds }

/-- A tag returns to the pool. -/
def freeTag (tag : Nat) (s : State) : State := s.modHce fun h => { h with cmds := h.cmds.filter (·.tag != tag) }

/-- A completion queue of a controller changed. -/
def modCq (c id : Nat) (f : Cq → Cq) (s : State) : State :=
  s.modCtrl (ctrlIdx c) fun x => { x with cqs := mapIf (·.id == id) f x.cqs }
def modSq (c id : Nat) (f : Sq → Sq) (s : State) : State :=
  s.modCtrl (ctrlIdx c) fun x => { x with sqs := mapIf (·.id == id) f x.sqs }

/-- Opcode groups. -/
def opReads (o : NvmeOp) : Bool := match o with | .read | .compare | .verify => true | _ => false
def opStores (o : NvmeOp) : Bool := match o with | .write | .zoneAppend => true | _ => false
def opFast (o : NvmeOp) : Bool := match o with | .read | .write | .zoneAppend => true | _ => false
def opZone (o : NvmeOp) : Bool :=
  match o with | .zoneOpen | .zoneClose | .zoneFinish | .zoneReset | .zoneOffline => true | _ => false
def opResv (o : NvmeOp) : Bool :=
  match o with | .resvRegister | .resvReport | .resvAcquire | .resvRelease => true | _ => false

/-- Commands of the NVM and Zoned sets (table Supported commands). -/
def opIo (o : NvmeOp) : Bool :=
  opReads o || opStores o || opZone o || opResv o ||
    match o with
    | .flush | .writeUncorrectable | .writeZeroes | .datasetManagement | .reportZones => true
    | _ => false

/-- Commands of the admin set. -/
def opAdmin (o : NvmeOp) : Bool := match o with | .unsupported _ => false | _ => !(opIo o)

/-- Commands that take a fetch ordinal (R13): every command of an I/O queue, and Format NVM and Sanitize. -/
def takesOrd (sqid : Nat) (o : NvmeOp) : Bool := sqid != 0 || o == .formatNvm || o == .sanitize

/-- Commands that are BARRIER entries (R147): Format NVM, Sanitize and Zone Management Send with Select All. -/
def isBarrier (c : NvmeCmd) : Bool := c.op == .formatNvm || c.op == .sanitize || (opZone c.op && c.all)

/-- NSID of a command as the Ledger numbers it. -/
def cmdNs (c : NvmeCmd) : Nat := c.nsid - 1

/-- HCE works: its domain is on, the A-cores run, and no freeze or soft reset holds it. -/
def hceUp (s : State) : Bool := pdOn 8 s && !(heldBlk .hce 0 s)

/-! ### Completion status -/

/-- A command's status is decided; it waits for its completion slot. Status bit DNR is clear for Namespace Not Ready
(R120) and is a free value for the other errors. -/
def finishDw (tag : Nat) (st : Status) (dw0 dw1 : Nat) (s : State) : State :=
  match cmdAt tag s with
  | none => s
  | some c =>
    let open_ := st != stOk && st != stNotReady
    let d := open_ && draw 2 s == 1
    let s := if open_ then s.drawn else s
    let s := match c.ord with
      | some o => if opReads c.cmd.op then releaseReader o s else s
      | none => s
    let s := modCmd tag (fun c => { c with phase := .finished, status := some st, dnr := d, dw0 := dw0, dw1 := dw1 }) s
    s.modCtrl (ctrlIdx c.ctrl) fun x => { x with excq := x.excq.filter (· != tag) }
def finish (tag : Nat) (st : Status) (s : State) : State := finishDw tag st 0 0 s

/-- An asynchronous event (R138, R139): it completes the oldest outstanding request, or waits for one. -/
def asyncEvent (c code : Nat) (s : State) : State :=
  match (ctrlAt c s).aers with
  | t :: rest => finishDw t stOk code 0 (s.modCtrl (ctrlIdx c) fun x => { x with aers := rest })
  | [] => s.modCtrl (ctrlIdx c) fun x => { x with aens := x.aens ++ [code] }

/-- The SMART / Health event of a critical warning bit: spare below threshold, temperature threshold, and reliability for
the others (NVMe 2.0, log 21). -/
def critCode (bit : Nat) : Nat := 0x020001 + (match bit with | 0 => 0x200 | 1 => 0x100 | _ => 0)

/-- A bit of the SMART critical warning with its asynchronous event, on both controllers. -/
def critical (bit : Nat) (s : State) : State :=
  [0, 1].foldl (fun s c =>
    if (ctrlAt c s).critWarn.testBit bit then s
    else asyncEvent c (critCode bit) (s.modCtrl (ctrlIdx c) fun x => { x with critWarn := x.critWarn ||| 1 <<< bit })) s

/-- A fast-path command goes to the A-cores with a cause (R122): event 0x0110, the exception queue and its line. -/
def exception (tag cause : Nat) (s : State) : State :=
  match cmdAt tag s with
  | some c =>
    if c.exc.isSome then s
    else
      let s := modCmd tag (fun c => { c with exc := some cause }) (ev .hce 0x0110 tag cause 0 s)
      raiseLine (128 + c.ctrl) (s.modCtrl (ctrlIdx c.ctrl) fun x => { x with excq := x.excq ++ [tag] })
  | none => s

/-! ### Zones (R133-R138) -/

def zActive (z : Zone) : Bool := z.st == .implicit || z.st == .explicit || z.st == .closed
def zOpen (z : Zone) : Bool := z.st == .implicit || z.st == .explicit

/-- Zones of a namespace. -/
def nsZones (ns : Nat) (s : State) : List Zone := s.xmt.zones.filter (·.ns == ns)

/-- The zone number within its namespace. -/
def zoneNum (z : Zone) (s : State) : Nat := z.idx - nsBase z.ns s

/-- The implicitly open zone with the oldest last write. -/
def oldestImplicit (ns : Nat) (s : State) : Option Zone :=
  ((nsZones ns s).filter (·.st == .implicit)).foldl
    (fun m z => match m with | none => some z | some b => if older z.lastWr b.lastWr then some z else m) none

/-- Zone limits met by opening one more zone: too many active, too many open with nothing to close, or `none`. -/
def openLimit (z : Zone) (s : State) : Option Status :=
  if zOpen z then none
  else if z.st == .empty && 1024 ≤ ((nsZones z.ns s).filter zActive).length then some stTooManyActive
  else if 256 ≤ ((nsZones z.ns s).filter zOpen).length && (oldestImplicit z.ns s).isNone then some stTooManyOpen
  else none

/-- Room for one more open zone: the implicitly open zone with the oldest last write closes (event 0x0120). -/
def makeRoom (z : Zone) (s : State) : State :=
  if !(zOpen z) && 256 ≤ ((nsZones z.ns s).filter zOpen).length then
    match oldestImplicit z.ns s with
    | some o => ev .hce 0x0120 (z.ns + 1) (zoneNum o s) 0 (modZone o.idx (fun x => { x with st := .closed }) s)
    | none => s
  else s

/-- The open limit would be passed: cause 4 of the fast-path exceptions. -/
def overOpen (c : NvmeCmd) (s : State) : Bool :=
  match zoneTab (zoneIdx (cmdNs c) c.slba s) s with
  | some z => nsZoned (cmdNs c) s && opStores c.op && !(zOpen z) && 256 ≤ ((nsZones z.ns s).filter zOpen).length
  | none => false

/-- Status of check 9 for a write into a zone (R134). -/
def zoneWriteStatus (c : NvmeCmd) (z : Zone) (s : State) : Status :=
  let off := if c.op == .zoneAppend then z.fwp else zoneOff c.slba
  if z.st == .offline then stZoneOffline
  else if z.st == .readOnly then stZoneReadOnly
  else if z.st == .full then stZoneFull
  else if c.op != .zoneAppend && off != z.fwp then stZoneInvalidWrite
  else if z.cap < off + c.nlb then stZoneBoundary
  else match openLimit z s with | some st => st | none => stOk

/-- NVMe state transitions of Zone Management Send on one zone. -/
def zoneSendOk (o : NvmeOp) (z : Zone) : Bool :=
  match o with
  | .zoneOpen => z.st == .empty || zActive z
  | .zoneClose => zActive z
  | .zoneFinish => z.st == .empty || zActive z || z.st == .full
  | .zoneReset => z.st == .empty || zActive z || z.st == .full
  | .zoneOffline => z.st == .readOnly || z.st == .offline
  | _ => false

/-- A zone that a read touches is Offline (R138). -/
def touchesOffline (ns slba nlb : Nat) (s : State) : Bool :=
  (nsZones ns s).any fun z => z.st == .offline && decide (zoneNum z s * 65536 < slba + nlb) &&
    decide (slba < zoneNum z s * 65536 + 65536)

/-- Check 9. -/
def zoneStatus (c : NvmeCmd) (s : State) : Status :=
  let ns := cmdNs c
  if !(nsZoned ns s) then stOk
  else if opReads c.op then (if touchesOffline ns c.slba c.nlb s then stZoneOffline else stOk)
  else if lkWritesOp c.op then
    match zoneTab (zoneIdx ns c.slba s) s with
    | some z => zoneWriteStatus c z s
    | none => stLbaRange
  else if opZone c.op && !c.all then
    match zoneTab (zoneIdx ns c.slba s) s with
    | some z =>
      if !(zoneSendOk c.op z) then stZoneTransition
      else if c.op == .zoneOpen then (match openLimit z s with | some st => st | none => stOk) else stOk
    | none => stLbaRange
  else stOk
where
  lkWritesOp (o : NvmeOp) : Bool := match o with | .write | .zoneAppend | .writeZeroes | .writeUncorrectable => true | _ => false

/-- An accepted write moves its zone: implicit opening, the fetch write pointer, the last write, and Full at the
capacity (R134). -/
def zoneAdvance (c : NvmeCmd) (ord : Nat) (s : State) : State :=
  match zoneTab (zoneIdx (cmdNs c) c.slba s) s with
  | some z =>
    let s := makeRoom z s
    modZone z.idx (fun z => { z with
      fwp := z.fwp + c.nlb, lastWr := ord
      st := if z.fwp + c.nlb = z.cap then .full else if zOpen z then z.st else .implicit }) s
  | none => s

/-- A dropped zone write (R136): the pointer returns to its first LBA, and every younger Write or Zone Append to the
zone that has not completed completes with Zone Invalid Write and is dropped. -/
def zoneDrop (e : LEntry) (s : State) : State :=
  if e.zoned && (e.kind == .write || e.kind == .append) then
    let i := zoneIdx e.ns e.slba s
    let s := modZone i (fun z => { z with
      fwp := zoneOff e.slba, st := if z.st == .full then .implicit else z.st }) s
    let young := s.lgr.entries.filter fun x =>
      (x.kind == .write || x.kind == .append) && x.ns == e.ns && zoneIdx x.ns x.slba s == i && older e.ord x.ord &&
        (s.hce.cmds.any fun c => c.ord == some x.ord && c.phase != .orphan)
    young.foldl (fun s x =>
      let s := dropEntry x.ord s
      match s.hce.cmds.find? (fun c => c.ord == some x.ord) with
      | some c => finish c.tag stZoneInvalidWrite s
      | none => s) s
  else s

/-- A write is dropped whole, with R136 in a zoned namespace. -/
def dropWrite (ord : Nat) (s : State) : State :=
  match entryAt ord s with
  | some e => zoneDrop e (dropEntry ord s)
  | none => s

/-- The part's own zone changes (R138): 0x0121 or 0x0122, the Changed Zone List and Zone Descriptor Changed. -/
def ownZoneChange (z : Zone) (st : ZState) (s : State) : State :=
  if z.st == st || z.st == .offline then s
  else
    let s := modZone z.idx (fun x => { x with st := st }) s
    let s := journalZone noOrd 0xFF z.ns true z.idx s
    let s := ev .hce (if st == .offline then 0x0122 else 0x0121) (z.ns + 1) (zoneNum z s) 0 s
    [0, 1].foldl (fun s c =>
      match nsAt z.ns s with
      | some n =>
        if n.attached.contains c then
          let s := s.modCtrl (ctrlIdx c) fun x => { x with changedZones := x.changedZones ++ [(z.ns + 1, zoneNum z s)] }
          if (sget 0 0x0B (ctrlAt c s).feats).testBit 27 then asyncEvent c 0xBFEF02 s else s
        else s
      | none => s) s

/-- A channel is lost (R139): its zones become Offline, and SMART critical warning bit 2 sets. -/
def loseChannel (n : Nat) (s : State) : State :=
  if s.hce.lostChan.contains n then s
  else
    let s := s.modHce fun h => { h with lostChan := insertNat n h.lostChan }
    let s := (s.xmt.zones.filter (·.ch == n)).foldl (fun s z => ownZoneChange z .offline s) s
    critical 2 s

/-! ### Acceptance (R120) -/

/-- The reservation of a namespace permits a command of a controller (check 6; the NVMe 2.0 reservation types). -/
def resvPermits (x : Ns) (c : Nat) (o : NvmeOp) : Bool :=
  match x.resv with
  | none => true
  | some (h, t) =>
    let reg := x.registrants.any (·.1 == c)
    let all := t == 5 || t == 6
    if h == c || (all && reg) then true
    else if opResv o || o == .reportZones then true
    else
      let reads := opReads o
      match t with
      | 1 => reads
      | 2 => false
      | 3 | 5 => reads || reg
      | _ => reg

/-- Lock of an encrypted namespace (R353). -/
def nsUnlocked (ns : Nat) (s : State) : Bool :=
  if !(nsKey ns s).1 then true
  else if s.sec.part then s.sec.users.any fun u => u.opn && u.nsmask.testBit ns
  else if ns < 32 then (reg .cipLock 0 0 s).testBit ns else (reg .cipLock 0 1 s).testBit (ns - 32)

/-- A namespace is ready in the sense of R100 and R353. -/
def nsReady (x : Ns) (s : State) : Bool := x.ready && nsUnlocked (x.nsid - 1) s

/-- Check 11 (R349): the usage limit of the namespace's active slot. -/
def keyRoom (ns nlb : Nat) (s : State) : Bool :=
  match nsKey ns s with
  | (true, k) => match kslot k s with | some x => !x.retired && x.use_ + nlb ≤ x.limit | none => true
  | _ => true

/-- A refusal of check 11: at the first of a slot, event 0x0B30 and RETIRED. -/
def keyRefused (ns : Nat) (s : State) : State :=
  let k := (nsKey ns s).2
  match kslot k s with
  | some x =>
    if x.retired then s
    else
      ev .kst 0x0B30 k (ns + 1) 0 { s with sec := { s.sec with
        slots := mapIf (·.slot == k) (fun y => { y with retired := true, changed := true }) s.sec.slots } }
  | none => s

/-- Admin commands that the management endpoint tunnels, with Format NVM and Sanitize (R114). -/
def miTunnel (o : NvmeOp) : Bool :=
  match o with
  | .identify | .getLogPage | .getFeatures | .setFeatures | .firmwareImageDownload | .firmwareCommit | .securitySend
  | .securityReceive | .formatNvm | .sanitize => true
  | _ => false

/-- The Lantern and Factory personalities report no namespaces (R3, 06). -/
def noNamespaces (s : State) : Bool := s.sys.pers == .lantern || s.sys.pers == .factory

/-- A namespace as the controllers report it. -/
def nsSeen (ns : Nat) (s : State) : Option Ns := if noNamespaces s then none else nsAt ns s

/-- Opcode supported on the queue type and by the namespace's command set (check 1). -/
def opSupported (c : Cmd) (s : State) : Bool :=
  let o := c.cmd.op
  if c.sqid = 0 then
    opAdmin o && (!c.fromMi || miTunnel o) && !(noNamespaces s && (o == .namespaceManagement || o == .namespaceAttachment))
  else if !(opIo o) || s.sys.pers == .lantern then false
  else
    match nsSeen (cmdNs c.cmd) s with
    | some x =>
      if x.zoned then o != .datasetManagement else !(opZone o) && o != .zoneAppend && o != .reportZones
    | none => true

/-- Field values within range (check 2). -/
def fieldsValid (c : NvmeCmd) : Bool :=
  c.fieldsOk && c.fuse == 0 && c.ranges.length ≤ 256 && 0 < c.nlb &&
    (match c.op with | .compare | .writeUncorrectable | .writeZeroes | .verify => c.nlb ≤ 65536 | _ => true) &&
    (match c.op with
      | .formatNvm => c.cdw10 % 16 ≤ 3 && bits c.cdw10 11 9 ≤ 2
      | .sanitize => bits c.cdw10 2 0 == 3 || bits c.cdw10 2 0 == 4
      | _ => true)

/-- The status of the data and metadata pointers (check 10). -/
def ptrStatus (c : NvmeCmd) : Status :=
  match c.ptr with
  | .prpOffsetInvalid => (0, 0x13)
  | .sglSegmentInvalid => (0, 0x0D)
  | .sglLengthInvalid => (0, 0x0F)
  | .ok | .sglBitBucket => stOk

/-- A command that addresses logical blocks. -/
def opBlocks (o : NvmeOp) : Bool :=
  opReads o || opStores o || match o with | .writeUncorrectable | .writeZeroes => true | _ => false

/-- MDTS and ZASL in sectors, as the behaviour profile in force gives them (R431). -/
def mdts (s : State) : Nat := if s.sys.profActive = 0x0A0 then 256 else 512

/-- Checks 3 to 6 of a command on a namespace. -/
def nsStanding (k : Nat) (o : NvmeOp) (x : Ns) (s : State) : Status :=
  if !(x.attached.contains k) then stNamespace
  else if x.sanitizing then stSanitize
  else if x.formatting then stFormat
  else if !(nsReady x s) then stNotReady
  else if !(resvPermits x k o) then stResvConflict
  else stOk

/-- Checks 4 to 6 of a Flush over every namespace attached: the first that fails, in the order of the checks and then of
the namespaces. -/
def flushAllStatus (k : Nat) (s : State) : Status :=
  let l := (s.hce.ns.filter fun x => !(noNamespaces s) && x.attached.contains k).map fun x => nsStanding k .flush x s
  ([stSanitize, stFormat, stNotReady, stResvConflict].find? fun t => l.contains t).getD stOk

/-- Checks 3 to 11 of an I/O command, in order. -/
def nsChecks (c : Cmd) (s : State) : Status :=
  let m := c.cmd
  if m.op == .flush && m.nsid == 0xFFFFFFFF then flushAllStatus c.ctrl s
  else
    match nsSeen (cmdNs m) s with
    | none => stNamespace
    | some x =>
      if m.nsid = 0 then stNamespace
      else if nsStanding c.ctrl m.op x s != stOk then nsStanding c.ctrl m.op x s
      else if (m.op == .read || opStores m.op) && mdts s < m.nlb then stField
      else if opBlocks m.op && x.size < m.slba + (if m.op == .zoneAppend then 0 else m.nlb) then stLbaRange
      else if m.op == .datasetManagement && (m.ranges.any fun (a, n) => x.size < a + n) then stLbaRange
      else if zoneStatus m s != stOk then zoneStatus m s
      else if ptrStatus m != stOk then ptrStatus m
      else if opStores m.op && !(keyRoom (cmdNs m) m.nlb s) then stKeyLimit
      else stOk

/-- Checks 3 to 6 of Format NVM, and check 4 of Sanitize, which acts on every namespace. -/
def adminChecks (c : Cmd) (s : State) : Status :=
  match c.cmd.op with
  | .formatNvm =>
    match nsSeen (cmdNs c.cmd) s with
    | some x => if c.cmd.nsid = 0 then stNamespace else nsStanding c.ctrl .formatNvm x s
    | none => stNamespace
  | .sanitize =>
    if s.xmt.san.isSome || s.hce.ns.any (·.sanitizing) then stSanitize
    else if s.hce.ns.any (·.formatting) then stFormat
    else stOk
  | _ => stOk

/-- The acceptance checks of a command (R120). -/
def checks (c : Cmd) (s : State) : Status :=
  if !(opSupported c s) then stOpcode
  else if !(fieldsValid c.cmd) then stField
  else if opIo c.cmd.op then nsChecks c s
  else adminChecks c s

/-- A live barrier holds a command of a namespace back (R16) until the barrier's command has completed. A command fetched
after the work of a Format or a Sanitize has begun meets check 4 instead (R120). -/
def heldBack (ord ns : Nat) (s : State) : Bool :=
  let busy := match nsAt ns s with | some x => x.formatting || x.sanitizing | none => false
  s.lgr.entries.any fun e => e.kind == .barrier && entryOn ns e && older e.ord ord && (e.state == .pending || !busy)

/-! ### Registration (R147, R148) -/

def newEntry (c : Cmd) (ord : Nat) (kind : LKind) (st : LState) (slba nlb : Nat) (s : State) : LEntry :=
  let ns := cmdNs c.cmd
  let (enc, ks) := nsKey ns s
  { idx := 0, ord := ord, slba := slba, nlb := nlb, kind := kind, state := st, ns := ns, dom := nsDom ns s, tag := c.tag
    ctrl := c.ctrl, pins := 0, buf := 0
    fua := c.cmd.fua || !(ctrlAt c.ctrl s).vwc || s.hce.dirtyCap == 0
    enc := enc, zoned := nsZoned ns s, captured := false, kslot := ks, data := [], sel := [] }

/-- Start of a zone. -/
def zoneStart (ns lba : Nat) (s : State) : Nat := (zoneIdx ns lba s - nsBase ns s) * 65536

/-- The Ledger entries of an accepted command, and what its acceptance changes. -/
def register (c : Cmd) (ord : Nat) (s : State) : State :=
  let m := c.cmd
  let ns := cmdNs m
  let zoned := nsZoned ns s
  match m.op with
  | .read | .compare | .verify =>
    let (s', sel) := selectRange ord ns (lbas m.slba m.nlb) s
    addEntry { newEntry c ord .read .active m.slba m.nlb s with sel := sel } s'
  | .write =>
    let s := addEntry (newEntry c ord .write .pending m.slba m.nlb s) s
    let s := if zoned then zoneAdvance m ord s else s
    if (nsKey ns s).1 then addUse (nsKey ns s).2 m.nlb s else s
  | .zoneAppend =>
    let at_ := match zoneTab (zoneIdx ns m.slba s) s with | some z => zoneStart ns m.slba s + z.fwp | none => m.slba
    let s := addEntry (newEntry c ord .append .pending at_ m.nlb s) s
    let s := zoneAdvance m ord s
    if (nsKey ns s).1 then addUse (nsKey ns s).2 m.nlb s else s
  | .writeZeroes =>
    let s := addEntry (newEntry c ord .zeroes .buffered m.slba m.nlb s) s
    if zoned then zoneAdvance m ord s else s
  | .writeUncorrectable =>
    let s := addEntry (newEntry c ord .uncorr .buffered m.slba m.nlb s) s
    if zoned then zoneAdvance m ord s else s
  | .datasetManagement =>
    if !(m.cdw11.testBit 2) then s
    else m.ranges.foldl (fun s (a, n) => if n = 0 then s else addEntry (newEntry c ord .zeroes .buffered a n s) s) s
  | .zoneReset =>
    if m.all then addEntry (newEntry c ord .barrier .pending 0 0 s) s
    else
      let s := addEntry { newEntry c ord .zeroes .buffered (zoneStart ns m.slba s) 65536 s with zop := 1 } s
      modZone (zoneIdx ns m.slba s) (fun z => { z with fwp := 0, st := .empty }) s
  | .zoneFinish =>
    if m.all then addEntry (newEntry c ord .barrier .pending 0 0 s) s
    else
      match zoneTab (zoneIdx ns m.slba s) s with
      | some z =>
        let s := if z.fwp < z.cap then
            addEntry { newEntry c ord .zeroes .buffered (zoneStart ns m.slba s + z.fwp) (z.cap - z.fwp) s with zop := 2 } s
          else s
        modZone z.idx (fun z => { z with fwp := z.cap, st := .full }) s
      | none => s
  | .zoneOpen | .zoneClose | .zoneOffline =>
    if m.all then addEntry (newEntry c ord .barrier .pending 0 0 s) s else s
  | .formatNvm => addEntry (newEntry c ord .barrier .pending 0 0 s) s
  | .sanitize => addEntry { newEntry c ord .barrier .pending 0 0 s with ns := 0xFF, dom := 0xFF } s
  | _ => s

/-- Fast-path exceptions known at acceptance (R122 causes 1, 2 and 4). -/
def fastCause (c : Cmd) (s : State) : Option Nat :=
  if !(opFast c.cmd.op) then none
  else if c.cmd.op == .read && c.cmd.ptr == .sglBitBucket then some 1
  else if (match nsAt (cmdNs c.cmd) s with | some x => !x.registrants.isEmpty || x.resv.isSome | none => false) then some 2
  else if overOpen c.cmd s then some 4
  else none

/-- A fetched command that is not held is checked; it is refused, or registered and accepted. -/
def accept (tag : Nat) (s : State) : State :=
  match cmdAt tag s with
  | none => s
  | some c =>
    let st := checks c s
    if st != stOk then
      let s := if st == stKeyLimit then keyRefused (cmdNs c.cmd) s else s
      finish tag st (modCmd tag (fun c => { c with phase := .accepted }) s)
    else
      let cause := fastCause c s
      let s := match c.ord with | some o => register c o s | none => s
      let s := modCmd tag (fun c => { c with phase := .accepted }) s
      match cause with | some k => exception tag k s | none => s

/-- A fetched command starts, or waits behind a barrier. -/
def startCmd (tag : Nat) (s : State) : State :=
  match cmdAt tag s with
  | some c =>
    match c.ord with
    | some o =>
      if opIo c.cmd.op && heldBack o (cmdNs c.cmd) s then modCmd tag (fun c => { c with phase := .held }) s else accept tag s
    | none => accept tag s
  | none => s

/-- Held commands that no barrier holds any longer are checked, in ordinal order. -/
def releaseWaiting (s : State) : State :=
  let tags := ((s.hce.cmds.filter (·.phase == .held)).foldl (fun l c => insertCmd c l) []).map (·.tag)
  tags.foldl (fun s t => startCmd t s) s
where
  insertCmd (c : Cmd) : List Cmd → List Cmd
    | [] => [c]
    | x :: t => if older (c.ord.getD 0) (x.ord.getD 0) then c :: x :: t else x :: insertCmd c t

/-! ### Work that waits for durability (R17, R156, R157) -/

/-- Domains in the scope of a Flush. -/
def flushDoms (c : Cmd) (s : State) : List Nat :=
  if c.cmd.nsid = 0xFFFFFFFF then
    (s.hce.ns.filter fun x => x.attached.contains c.ctrl).map fun x => nsDom (x.nsid - 1) s
  else [nsDom (cmdNs c.cmd) s]

/-- The frontiers have passed an ordinal in every domain of a list. -/
def passed (ord : Nat) (doms : List Nat) (s : State) : Bool := doms.all fun d => older ord (frontier d s)

/-- Frees the Ledger entries of a barrier whose command has completed. -/
def freeBarrier (ord : Nat) (s : State) : State :=
  s.modLgr fun l => { l with entries := l.entries.filter fun e => !(e.ord == ord && e.kind == .barrier) }

/-- The FORMAT record is durable (R165): the namespace has its new format, and with SES 1 or 2 its new key. -/
def formatDone (c : Cmd) (o : Nat) (s : State) : State :=
  let s := s.modHce fun h => { h with ns := mapIf (·.nsid == c.cmd.nsid) (fun x =>
    { x with formatting := false, lbaf := c.cmd.cdw10 % 16, pi := bits c.cmd.cdw10 8 5 }) h.ns }
  if bits c.cmd.cdw10 11 9 = 0 then s
  else
    let j := match s.lgr.entries.find? (fun e => e.ord == o && e.kind == .barrier) with | some e => e.lastJ.getD 0 | none => 0
    (replaceKey (cmdNs c.cmd) s).modXmt fun x => { x with fmtDone := x.fmtDone ++ [j] }

/-- FUA writes whose own frontier has passed complete; barriers whose records are durable complete; orphans whose work
has ended give back their tags. -/
def settleOne (c : Cmd) (s : State) : State :=
  match c.ord with
  | none => s
  | some o =>
    if c.phase == .moved && passed o [nsDom (cmdNs c.cmd) s] s then
      let dw := match entryAt o s with | some e => if e.kind == .append then e.slba else 0 | none => c.dw0 + c.dw1 * 2 ^ 32
      finishDw c.tag stOk (dw % 2 ^ 32) (dw / 2 ^ 32) s
    else if isBarrier c.cmd && c.phase != .finished &&
        (s.lgr.entries.any fun e => e.ord == o && e.kind == .barrier && e.state == .durable) then
      let s := if c.cmd.op == .formatNvm then formatDone c o s else s
      if c.phase == .orphan then releaseWaiting (freeTag c.tag (freeBarrier o s)) else finish c.tag stOk s
    else if c.phase == .orphan then
      if c.cmd.op == .flush then (if passed o (flushDoms c s) s then freeTag c.tag s else s)
      else if isBarrier c.cmd then s
      else if (entryAt o s).any (fun e => e.state != .durable && e.state != .dropped) then s
      else freeTag c.tag s
    else s
def settle (s : State) : State := s.hce.cmds.foldl (fun s c => settleOne c s) s

/-- XMT works: its tables are there (R164) and the media are up. -/
def xmtUp (s : State) : Bool := pdOn 10 s && mediaUp s && !(heldBlk .xmt 0 s) && 6 ≤ s.rvr.recStep

/-- A sanitize ends: its namespaces can be read again. -/
def sanOver (x : San) (s : State) : State :=
  let s := (s.modXmt fun y => { y with san := none }).modRvr fun r => { r with sanProg := none }
  let s := s.modHce fun h => { h with
    sanStatus := 1, ns := mapIf (fun y => x.nsids.contains y.nsid) (fun y => { y with sanitizing := false }) h.ns }
  [0, 1].foldl (fun s c => if (ctrlAt c s).en then asyncEvent c 0x810106 s else s) s

/-- A sanitize whose SAN_DONE has become durable ends (R166). -/
def sanSettle (s : State) : State :=
  match s.xmt.san with
  | some x =>
    match x.doneJ with
    | some j =>
      if jseqDurable j s then sanOver x s else s
    | none => s
  | none => s

/-- A journal block is durable (R155, R156). -/
def execJournalBlockDurable (copies : List (Nat × Nat × Nat)) (s : State) : Out :=
  .next <| if xmtUp s then settle (sanSettle (journalBlock copies s)) else s

/-! ### Power-state entry unwound by host activity (R78, R81) -/

/-- A wake source or doorbell before the commit point unwinds an entry into GLOW or DARK; event 0x0E32. -/
def unwindEntry (src : Nat) (s : State) : State :=
  if s.pwr.phase == .entering && (s.pwr.target == .glow || s.pwr.target == .dark) then
    let s := refreshEnds (s.modPwr fun p => { p with phase := .settled })
    ev .wck 0x0E32 src 0 0 (s.modHce fun h => { h with closed := false })
  else s

/-- The steps of an entry reversed, back to the last operational state (R81): the channel domains that PS2 gated are
powered, an entry of the part is ended, a part in DIM returns to LIT, and a drive that has left its speed asks for SPINUP
leave (through port 0: log 169). -/
def psBack (s : State) : State :=
  let off := fld .pdoff 0 0 21 13 s
  let s := s.modPwr fun p => { p with
    ps := p.psOper
    pd := if p.state == .lit then
        Vector.ofFn fun (d : Fin 22) =>
          if 14 ≤ d.val && d.val ≤ 17 && p.pd[d] == .gated && !(off.testBit (d.val - 13)) then .on else p.pd[d]
      else p.pd }
  let s := if s.pwr.phase == .entering then
      (refreshEnds (s.modPwr fun p => { p with phase := .settled, target := p.state })).modHce
        fun h => { h with closed := false }
    else if s.pwr.state == .dim && s.pwr.phase == .settled then
      s.modPwr fun p => { p with phase := .waking, target := .lit }
    else s
  let down := match s.spn.state with | .stopped | .coast | .brake => true | _ => false
  if s.sys.pers != .lantern && down then submitLeave 0 0 0 0 0 0 0 s else s

/-- A command fetched while an entry into a lower NVMe power state is under way unwinds it (R81); one that arrives after
it causes the ordinary return. -/
def psUnwind (s : State) : State :=
  if (s.pwr.psHeld.isSome && !s.pwr.psUnwound) || s.pwr.psAuto.isSome then
    let src := draw (2 ^ 32) s
    ev .wck 0x0E32 src 0 0 ((psBack s.drawn).modPwr fun p => { p with psUnwound := p.psHeld.isSome, psAuto := none })
  else if 2 ≤ s.pwr.ps && s.pwr.psHeld.isNone then psBack s
  else s

/-- A Set Features (Power Management) fetched while one is held: the first completes at once with the state in force
(R82); the new one is held. -/
def psFetched (tag target : Nat) (s : State) : State :=
  let s := match s.pwr.psHeld with | some (t, _) => finishDw t stOk s.pwr.ps 0 s | none => s
  s.modPwr fun p => { p with psHeld := some (tag, target), psUnwound := false, psAuto := none }

/-! ### Fetch (R13, R116-R119) -/

/-- A fetch pause ends: event 0x0101 (Ledger or ordinal age) or 0x0102 (tags) after 10 ms or more. -/
def execFetchPauseEnd (s : State) : Out :=
  .next <|
    match s.hce.pause with
    | some (l, _, a, at_) =>
      if hceUp s && !(pauseNow s) then
        let d := now s - at_
        let s := if 10 ≤ d then ev .hce (if l || a then 0x0101 else 0x0102) d 0 0 s else s
        raiseLine 134 (s.modHce fun h => { h with pause := none })
      else s
    | none => s

/-- Queues of a list that hold entries. -/
def busySqs (l : List Sq) : List Sq := l.filter fun q => !q.entries.isEmpty

/-- The first queue of a list at or after a number, cyclically. -/
def nextSq (turn : Nat) (l : List Sq) : Option Sq :=
  let best := fun (l : List Sq) => l.foldl (fun m q => match m with | none => some q | some b => if q.id < b.id then some q else m) none
  match best (l.filter fun q => turn ≤ q.id) with
  | some q => some q
  | none => best l

/-- Arbitration weights of the high, medium and low class (feature 0x01; the field holds weight - 1). -/
def wrrWeights (c : Ctrl) : Nat × Nat × Nat :=
  let v := sget 0 1 c.feats
  (bits v 31 24 + 1, bits v 23 16 + 1, bits v 15 8 + 1)

/-- The I/O queue that a weighted round robin serves next, and the credits that remain. -/
def wrrPick (c : Ctrl) (l : List Sq) : Option Sq × (Nat × Nat × Nat) :=
  let cls := fun p => l.filter fun (q : Sq) => q.prio == p
  if !(cls 0).isEmpty then (nextSq c.turn (cls 0), c.credits)
  else
    let (h, m, w) := c.credits
    let dry := !((!(cls 1).isEmpty && 0 < h) || (!(cls 2).isEmpty && 0 < m) || (!(cls 3).isEmpty && 0 < w))
    let (h, m, w) := if dry then wrrWeights c else (h, m, w)
    if !(cls 1).isEmpty && 0 < h then (nextSq c.turn (cls 1), (h - 1, m, w))
    else if !(cls 2).isEmpty && 0 < m then (nextSq c.turn (cls 2), (h, m - 1, w))
    else if !(cls 3).isEmpty && 0 < w then (nextSq c.turn (cls 3), (h, m, w - 1))
    else (none, (h, m, w))

/-- The queue of a controller's next turn (R116): the admin queue ahead of every I/O queue; with `adm` only the admin
queue is served (R371). -/
def pickSq (adm : Bool) (c : Ctrl) : Option Sq × (Nat × Nat × Nat) :=
  if !(c.en && c.rdy) then (none, c.credits)
  else
    let l := busySqs (if adm then c.sqs.filter (·.id == 0) else c.sqs)
    match l.find? (·.id == 0) with
    | some q => (some q, c.credits)
    | none => if c.wrr then wrrPick c l else (nextSq c.turn l, c.credits)

/-- The submission queue that takes the turn on controller k, with the credits after it. -/
def turnPick (adm : Bool) (k : Nat) (s : State) : Option (Sq × (Nat × Nat × Nat)) :=
  match pickSq adm (ctrlAt k s) with
  | (some q, cr) => some (q, cr)
  | (none, _) => none

/-- Queue q of controller k takes the turn. -/
def takeTurn (k : Nat) (q : Sq) (cr : Nat × Nat × Nat) (s : State) : State :=
  let c := ctrlAt k s
  let n := if c.ab = 7 then q.entries.length else min (2 ^ c.ab) q.entries.length
  (s.modCtrl (ctrlIdx k) fun x => { x with credits := cr, turn := if q.id = 0 then x.turn else q.id + 1 }).modHce
    fun h => { h with burst := some (k, q.id, n), turn := 1 - k }

/-- A turn begins: the controller whose turn it is, or the other one if it has nothing to fetch; the turn serves one
burst of up to 2^AB entries, and AB = 7 places no limit. -/
def beginTurn (adm : Bool) (s : State) : State :=
  match turnPick adm s.hce.turn s with
  | some x => takeTurn s.hce.turn x.1 x.2 s
  | none =>
    match turnPick adm (1 - s.hce.turn) s with
    | some x => takeTurn (1 - s.hce.turn) x.1 x.2 s
    | none => s

/-- Ledger ranges that a command needs. -/
def rangesOf (c : NvmeCmd) : Nat :=
  match c.op with
  | .datasetManagement => c.ranges.length
  | _ => if opIo c.op || isBarrier c then 1 else 0

/-- The features of a fetched command that act at the fetch itself. -/
def fetchEffects (c : Cmd) (s : State) : State :=
  if c.cmd.op == .setFeatures && c.cmd.cdw10 % 256 == 2 then psFetched c.tag (c.cmd.cdw11 % 32) s
  else
    match c.cmd.op with
    | .abort =>
      if 8 ≤ (ctrlAt c.ctrl s).aborts.length then finish c.tag stAbortLimit s
      else s.modCtrl (ctrlIdx c.ctrl) fun x => { x with aborts := x.aborts ++ [c.tag] }
    | _ => s

/-- A command enters with a tag and, where R13 gives it one, an ordinal. -/
def enterCmd (ctrl sqid sqhd : Nat) (mi : Bool) (m : NvmeCmd) (s : State) : State :=
  let tag := (lowestFree 4096 (s.hce.cmds.map (·.tag))).getD 0
  let ord := if takesOrd sqid m.op then some s.lgr.ordNext else none
  let c : Cmd :=
    { tag := tag, ctrl := ctrl, sqid := sqid, fromMi := mi, cmd := m, ord := ord, phase := .accepted, status := none
      dnr := false, dw0 := 0, dw1 := 0, aborted := false, exc := none, fetched := now s, sqhd := sqhd }
  let s := if ord.isSome then takeOrd s else s
  let s := if m.op == .setFeatures && m.cdw10 % 256 == 2 then s else psUnwind s
  let s := s.modHce fun h => { h with cmds := h.cmds ++ [c], busyAt := now s }
  let s := startCmd tag s
  match cmdAt tag s with
  | some c => if c.phase == .accepted then fetchEffects c s else s
  | none => s

/-- HCE fetches the next command (R13, R116-R118). -/
def fetchNext (adm : Bool) (s : State) : State :=
  let s := match s.hce.burst with
    | some (_, q, n) => if n = 0 || (adm && q != 0) then beginTurn adm (s.modHce fun h => { h with burst := none }) else s
    | none => beginTurn adm s
  match s.hce.burst with
  | some (k, q, n) =>
    match (ctrlAt k s).sqs.find? (·.id == q) with
    | some sq =>
      match sq.entries with
      | m :: rest =>
        if s.lgr.frozen && takesOrd q m.op then s
        else if 8192 < s.lgr.entries.length + rangesOf m then
          match s.hce.pause with
          | some _ => s
          | none => raiseLine 134 (ev .lgr 0x0202 (ledgerOldest s) 0 0 (s.modHce fun h =>
              { h with pause := some (true, false, false, now s) }))
        else
          let hd := (sq.head + 1) % zeroAsOne sq.size
          let s := modSq k q (fun x => { x with head := hd, entries := rest }) s
          let s := s.modHce fun h => { h with burst := if n ≤ 1 then none else some (k, q, n - 1) }
          checkPause (enterCmd k q hd false m s)
      | [] => s.modHce fun h => { h with burst := none }
    | none => s.modHce fun h => { h with burst := none }
  | none => s

/-- A command arrives: fetched by arbitration, or accepted from the management endpoint for a controller (R13, R114).
While SHUT is latched (R371) and during an in-service commit (R163) only admin queues are fetched. Nothing is fetched
before the ordinals of a replay are reserved (R164 step 2). -/
def execCommandFetch (mi : Option (Fin 2 × NvmeCmd)) (s : State) : Out :=
  .next <|
    if hceUp s && pdOn 10 s && s.sys.seq == .none && !s.sup.loss && s.rvr.recStep != 0 then
      match mi with
      | some (c, m) =>
        if s.sys.acoresUp && !(pauseNow s) && !(s.lgr.frozen && takesOrd 0 m.op) then checkPause (enterCmd c.val 0 0 true m s) else s
      | none =>
        if s.hce.closed && !s.thm.shut then s
        else
          let s := checkPause s
          if s.hce.pause.isSome then s else fetchNext (s.thm.shut || s.hce.ioClosed || s.lgr.frozen) s
    else s

/-! ### Doorbells -/

/-- A submission queue tail doorbell, with the entries the host has placed. -/
def execSqTailDoorbell (c : Fin 2) (q tail : Nat) (entries : List NvmeCmd) (s : State) : Out :=
  .next <|
    match (ctrlAt c s).sqs.find? (·.id == q) with
    | some sq =>
      if pdOn 8 s && (ctrlAt c s).en && tail < sq.size && entries.length = (tail + sq.size - sq.tail) % zeroAsOne sq.size then
        let s := unwindEntry (draw (2 ^ 32) s) s
        let s := modSq c q (fun x => { x with tail := tail, entries := x.entries ++ entries }) s
        if q = 0 ∧ entries ≠ [] then raiseLine (130 + c) s else s
      else s
    | none => s

/-- A completion queue head doorbell: the entries before the new head are consumed. -/
def execCqHeadDoorbell (c : Fin 2) (q head : Nat) (s : State) : Out :=
  .next <|
    match (ctrlAt c s).cqs.find? (·.id == q) with
    | some cq =>
      let k := (head + cq.size - cq.head) % zeroAsOne cq.size
      if pdOn 8 s && (ctrlAt c s).en && head < cq.size && k ≤ cq.posted.length then
        let s := unwindEntry (draw (2 ^ 32) s) s
        modCq c q (fun x => { x with head := head, posted := x.posted.drop k }) s
      else s
    | none => s

/-! ### Completion (R128, R129, R135) -/

/-- R135: an older write to the same zone whose data is neither in the buffer nor dropped holds a completion back. -/
def zoneHole (c : Cmd) (s : State) : Bool :=
  match c.ord with
  | some o =>
    opStores c.cmd.op && nsZoned (cmdNs c.cmd) s && s.lgr.entries.any fun x =>
      (x.kind == .write || x.kind == .append) && x.state == .pending && x.ns == cmdNs c.cmd &&
        zoneIdx x.ns x.slba s == zoneIdx (cmdNs c.cmd) c.cmd.slba s && older x.ord o
  | none => false

/-- The interrupt of a posted completion, aggregated under Interrupt Coalescing; the admin queue and exempted vectors
are not aggregated. -/
def raiseVector (c q : Nat) (s : State) : State :=
  let x := ctrlAt c s
  match x.cqs.find? (·.id == q) with
  | some cq =>
    if !cq.ien then s
    else if q = 0 ∨ x.icThr = 0 ∨ x.icTime = 0 ∨ sget 0 (0x90000 + cq.vector) x.feats ≠ 0 then
      modCq c q (fun v => { v with raised := v.raised + 1, coalesced := 0 }) s
    else if x.icThr < cq.coalesced + 1 then modCq c q (fun v => { v with raised := v.raised + 1, coalesced := 0 }) s
    else modCq c q (fun v => { v with coalesced := v.coalesced + 1 }) s
  | none => s

/-- HCE reserves the next slot of the queue for a finished command and posts its completion. -/
def postCqe (c : Cmd) (cqid : Nat) (cq : Cq) (s : State) : State :=
  let (sct, sc) := c.status.getD stOk
  let e : Cqe := { sqid := c.sqid, sqhd := c.sqhd, cid := c.cmd.cid, phase := cq.phase, sct := sct, sc := sc, dnr := c.dnr
                   dw0 := c.dw0, dw1 := c.dw1 }
  let t := (cq.tail + 1) % zeroAsOne cq.size
  let s := modCq c.ctrl cqid (fun v => { v with
    posted := v.posted ++ [e], tail := t, phase := if t = 0 then !v.phase else v.phase }) s
  raiseVector c.ctrl cqid s

/-- What a posted completion ends: its tag, its barrier and the commands it held, its Abort. -/
def completed (c : Cmd) (s : State) : State :=
  let s := freeTag c.tag (s.modCtrl (ctrlIdx c.ctrl) fun x => { x with aborts := x.aborts.filter (· != c.tag) })
  let s := s.modHce fun h => { h with busyAt := now s }
  let s := match s.pwr.psHeld with
    | some (t, _) => if t = c.tag then s.modPwr fun p => { p with psHeld := none, psUnwound := false } else s
    | none => s
  match c.ord with
  | some o => if isBarrier c.cmd then releaseWaiting (freeBarrier o s) else s
  | none => s

def execCompletionPost (tag : Fin 4096) (s : State) : Out :=
  .next <|
    match cmdAt tag s with
    | some c =>
      if c.phase == .finished && hceUp s && !(zoneHole c s) && !(asqHolds c.tag s) then
        if c.fromMi then
          let st := c.status.getD stOk
          completed c (s.modHce fun h => { h with miResp := some (st.2 + 2 ^ 8 * st.1, [c.dw0]) })
        else
          match (ctrlAt c.ctrl s).sqs.find? (·.id == c.sqid) with
          | some sq =>
            match (ctrlAt c.ctrl s).cqs.find? (·.id == sq.cq) with
            | some cq => if cq.posted.length + 1 < cq.size then completed c (postCqe c sq.cq cq s) else s
            | none => s
          | none => s
      else s
    | none => s

def execInterruptCoalescingTimeout (c : Fin 2) (q : Nat) (s : State) : Out :=
  .next <|
    match (ctrlAt c s).cqs.find? (·.id == q) with
    | some cq =>
      if hceUp s && cq.coalesced != 0 then modCq c q (fun v => { v with raised := v.raised + 1, coalesced := 0 }) s else s
    | none => s

/-! ### The fast path (R17, R121-R126) -/

/-- An activation pause holds an admin command other than the Firmware Commit that brought it (R427, step 3). -/
def pauseHolds (c : Cmd) (s : State) : Bool :=
  match s.sys.fwPause with | some (_, t, _) => opAdmin c.cmd.op && t != c.tag | none => false

/-- A live accepted command of an operation, taken up by its row. -/
def withCmd (tag : Nat) (ops : NvmeOp → Bool) (f : Cmd → State → State) (s : State) : Out :=
  .next <|
    match cmdAt tag s with
    | some c => if c.phase == .accepted && ops c.cmd.op && hceUp s && !(pauseHolds c s) then f c s else s
    | none => s

/-- Sectors of writes whose transfer is under way. -/
def movingCount (s : State) : Nat :=
  s.hce.cmds.foldl (fun a c => if c.phase == .moving && opStores c.cmd.op then a + c.cmd.nlb else a) 0

/-- A write fits under the effective Dirty Cap (R126, R161). Caching is not in use while feature 0x06 or 0xC1 is 0. -/
def underCap (c : Cmd) (s : State) : Bool :=
  !(ctrlAt c.ctrl s).vwc || s.hce.dirtyCap == 0 ||
    dirtyCount s + movingCount s + c.cmd.nlb ≤ effectiveCap s * 256

/-- A write starts its transfer, or waits under the cap. -/
def startWrite (c : Cmd) (s : State) : State :=
  modCmd c.tag (fun x => { x with phase := if underCap c s then .moving else .capped }) s

def execWrite (tag : Fin 4096) (s : State) : Out := withCmd tag (· == .write) startWrite s
def execZoneAppend (tag : Fin 4096) (s : State) : Out := withCmd tag (· == .zoneAppend) startWrite s

def execWriteTransferStart (tag : Fin 4096) (s : State) : Out :=
  .next <|
    match cmdAt tag s with
    | some c => if c.phase == .capped && hceUp s && underCap c s then modCmd tag (fun x => { x with phase := .moving }) s else s
    | none => s

/-- The status of a protection information check (R123): 1 guard, 2 application tag, 3 reference tag. -/
def piStatus (k : Nat) : Status := (2, 0x81 + min 3 k)

/-- The namespace's format has the 64-bit guard format (R124). -/
def guard64 (x : Ns) : Bool := x.lbaf == 2 || (x.lbaf == 3 && Config.guard64 x.nsid)

/-- One sector's check under PRCHK (R123): 0 passes. -/
def piOne (x : Ns) (m : NvmeCmd) (lba : Nat) (t : PiTuple) : Nat :=
  let typ := x.pi % 8
  let ones := if guard64 x then 2 ^ 48 - 1 else 2 ^ 32 - 1
  let escape := t.app % 2 ^ 16 == 0xFFFF && (typ != 3 || t.ref % (ones + 1) == ones)
  if escape then 0
  else if m.cdw12.testBit 28 && !t.guardOk then 1
  else if m.cdw12.testBit 27 && (t.app ^^^ bits m.cdw15 15 0) &&& bits m.cdw15 31 16 != 0 then 2
  else if m.cdw12.testBit 26 && typ != 3 && t.ref % (ones + 1) != lba % (ones + 1) then 3
  else 0

/-- The check of a command's sectors: the first that fails. `skip` leaves sectors out (R133). With PRACT a write's
protection information is generated, and nothing is checked. -/
def piCheck (c : Cmd) (slba : Nat) (skip : List Bool) (s : State) : Nat :=
  match nsAt (cmdNs c.cmd) s with
  | none => 0
  | some x =>
    if x.lbaf = 0 ∨ x.pi % 8 = 0 ∨ (opStores c.cmd.op ∧ c.cmd.cdw12.testBit 29) then 0
    else
      ((List.range c.cmd.nlb).map fun i =>
        if skip.getD i false then 0 else piOne x c.cmd (slba + i) (c.cmd.pi.getD i {})).find? (· != 0) |>.getD 0

/-- The data of a write has arrived (R17): it is in the buffer, and the write completes or waits for durability. -/
def dataArrived (c : Cmd) (ord : Nat) (e : LEntry) (s : State) : State :=
  let k := piCheck c e.slba [] s
  if k ≠ 0 then finish c.tag (piStatus k) (dropWrite ord s)
  else
    let s := bufferEntry ord ((List.range e.nlb).map fun i => c.cmd.data.getD i .zeroes) s
    let a := if e.kind == .append then e.slba else 0
    if e.fua then
      modCmd c.tag (fun x => { x with phase := .moved, dw0 := a % 2 ^ 32, dw1 := a / 2 ^ 32 }) s
    else finishDw c.tag stOk (a % 2 ^ 32) (a / 2 ^ 32) s

def execDataTransferComplete (tag : Fin 4096) (s : State) : Out :=
  .next <|
    match cmdAt tag s with
    | some c =>
      if c.phase == .moving && opStores c.cmd.op && hceUp s then
        match c.ord.bind (fun o => entryAt o s) with
        | some e => settle (dataArrived c e.ord e s)
        | none => s
      else s
    | none => s

/-- The number that a sector's content is to the host. -/
def sectorNum (v : SectorVal) : Nat := match v with | .data b => b | _ => 0

/-- Sectors of a read that the recovery ladder has given up, of those that the first pass did not recover: `steps` names
the step that recovered each one, 10 for none. Under Read Recovery Level 15 the ladder ends after step 2 (R145, R233). -/
def ladderLost (c : Cmd) (steps : List (Nat × Nat)) (s : State) : List Nat :=
  let last := if (ctrlAt c.ctrl s).rrl = 15 then 2 else 9
  (steps.filter fun x => last < x.2).map (·.1)

/-- A Read with FUA takes data that is durable: no older write of its sectors is still dirty (R115). -/
def fuaReady (c : Cmd) (r : LEntry) (s : State) : Bool :=
  c.cmd.op != .read || !c.cmd.fua || (underRead r.ord r.ns r.slba r.nlb s).isEmpty

/-- A sector of a selection that comes from the media and was not recovered by the first pass. -/
def beyondFirst (r : LEntry) (steps : List (Nat × Nat)) : Bool :=
  ((lbas r.slba r.nlb).zip r.sel).any fun (a, x) => (srcChannel x).isSome && steps.any fun y => y.1 == a && 2 ≤ y.2

/-- Sectors from the media that step 4 or a later one recovered: firmware owes their rewrite (R234). -/
def owedRewrites (r : LEntry) (steps : List (Nat × Nat)) (s : State) : State :=
  let l := ((lbas r.slba r.nlb).zip r.sel).filterMap fun (a, x) =>
    if (srcChannel x).isSome && steps.any (fun y => y.1 == a && 4 ≤ y.2 && y.2 ≤ 9) then some (r.ns, a) else none
  if l.isEmpty then s else s.modXmt fun x => { x with rewrites := x.rewrites ++ l.filter fun y => !(x.rewrites.contains y) }

/-- A read command takes its data: the selection is complete, the media it needs are up, and `k` decides its status. A
fast-path read that needs more than the first pass, or a lost channel, goes to the A-cores (R122). -/
def readCmd (steps : List (Nat × Nat)) (k : Cmd → List SectorVal → State → State) (c : Cmd) (s : State) : State :=
  match c.ord.bind (fun o => entryAt o s) with
  | some r =>
    if selReady r.sel && (!(selMedia r.sel) || mediaUp s) && !(selKeyWait r.ns r.sel s) && fuaReady c r s then
      let vals := readValues r (ladderLost c steps s) s
      let lostCh := r.sel.any fun x => match srcChannel x with | some c => s.hce.lostChan.contains c | none => false
      let unread := vals.contains .unrecovered
      let s := if c.cmd.op == .read && (lostCh || unread || beyondFirst r steps) then exception c.tag (if lostCh then 6 else 3) s else s
      let s := if unread then s else owedRewrites r steps s
      let pi := piCheck c c.cmd.slba (r.sel.map (· == .zeroes)) s
      if unread then finish c.tag stUnrecovered s
      else if pi ≠ 0 then finish c.tag (piStatus pi) s
      else k c vals s
    else s
  | none => s

def execRead (tag : Fin 4096) (steps : List (Nat × Nat)) (s : State) : Out :=
  withCmd tag (· == .read) (readCmd steps fun c vals s =>
    finish c.tag stOk (s.modCtrl (ctrlIdx c.ctrl) fun x => { x with lastData := vals.map sectorNum })) s

def execVerify (tag : Fin 4096) (steps : List (Nat × Nat)) (s : State) : Out :=
  withCmd tag (· == .verify) (readCmd steps fun c _ s => finish c.tag stOk s) s

def execCompare (tag : Fin 4096) (steps : List (Nat × Nat)) (s : State) : Out :=
  withCmd tag (· == .compare) (readCmd steps fun c vals s =>
    let host := (List.range c.cmd.nlb).map fun i => sectorNum (c.cmd.data.getD i .zeroes)
    finish c.tag (if vals.map sectorNum = host then stOk else stCompare) s) s

/-- Flush completes once every frontier in its scope is younger than its ordinal (R157). -/
def execFlush (tag : Fin 4096) (s : State) : Out :=
  withCmd tag (· == .flush) (fun c s => if passed (c.ord.getD 0) (flushDoms c s) s then finish c.tag stOk s else s) s

/-- A command whose entries carry no data: it completes, or waits for durability with FUA. -/
def noData (c : Cmd) (s : State) : State :=
  if c.cmd.fua then settle (modCmd c.tag (fun x => { x with phase := .moved }) s) else finish c.tag stOk s

def execWriteUncorrectable (tag : Fin 4096) (s : State) : Out := withCmd tag (· == .writeUncorrectable) noData s
def execWriteZeroes (tag : Fin 4096) (s : State) : Out := withCmd tag (· == .writeZeroes) noData s
def execDatasetManagement (tag : Fin 4096) (s : State) : Out := withCmd tag (· == .datasetManagement) noData s

/-- A host memory access fails (R122, R136): events 0x0110 with cause 5 and 0x0111, Data Transfer Error; a write whose
data had not arrived is dropped. -/
def execHostMemoryError (tag : Fin 4096) (s : State) : Out :=
  .next <|
    match cmdAt tag s with
    | some c =>
      if hceUp s && (c.phase == .accepted || c.phase == .moving) then
        let s := if opFast c.cmd.op then exception tag 5 s else s
        let s := ev .hce 0x0111 tag c.ctrl 0 s
        let s := match c.ord with
          | some o => if opStores c.cmd.op then dropWrite o s else s
          | none => s
        finish tag stTransfer s
      else s
    | none => s

/-! ### The recovery time limit (R127, R233, R281) -/

/-- The leave that media work needs is refused or waits (R20, R127): LASER is queued or cannot be requested. -/
def leaveWaits (s : State) : Bool := (queuedTickets s).any (·.cls == 5) || !(classOpen 5 s)

/-- Work of a domain waits for a key slot while the keys are away (R356). -/
def keyWaits (doms : List Nat) (s : State) : Bool :=
  !s.sec.restored && !s.sec.encdis &&
    s.lgr.entries.any fun e => doms.contains e.dom && lkWrites e.kind && e.enc && e.state == .buffered && e.copied.isNone

/-- What a write or a Flush that waits for durability meets at its limit: with the media down Namespace Not Ready, with
0x1017 for a write in flight at the lock loss (R281); 0x1027 while its keys are away (R356); and a leave that is refused
or waits (R127). -/
def durabilityLimit (c : Cmd) (doms : List Nat) (other : State → State) (s : State) : State :=
  let o := c.ord.getD 0
  if !(mediaUp s) then finish c.tag stNotReady (if c.cutLock then guarantee .hce 1 7 c.cmd.nsid o 0x0730 s else s)
  else if keyWaits doms s then finish c.tag stNotReady (guarantee .hce 2 7 c.cmd.nsid o 0x0B20 s)
  else if leaveWaits s then
    let d := draw (2 ^ 32) s
    finish c.tag stNotReady (guarantee .hce 6 7 c.cmd.nsid o d s.drawn)
  else other s

/-- A command's recovery time limit passes. A read ends for it only while it needs the media: the ladder stops (R233). -/
def limitPassed (c : Cmd) (s : State) : State :=
  let o := c.ord.getD 0
  if opReads c.cmd.op && c.phase == .accepted then
    match entryAt o s with
    | some r =>
      if !(selMedia r.sel) then s
      else if !(mediaUp s) then finish c.tag stNotReady s
      else if selKeyWait r.ns r.sel s then finish c.tag stNotReady (guarantee .hce 2 7 c.cmd.nsid o 0x0B20 s)
      else finish c.tag stUnrecovered (guarantee .hce 3 7 c.cmd.nsid o 0x0510 s)
    | none => s
  else if c.phase == .moved then durabilityLimit c [nsDom (cmdNs c.cmd) s] (finish c.tag stWriteFault) s
  else if c.phase == .capped && !(mediaUp s) then
    finish c.tag stNotReady (dropWrite o (if c.cutLock then guarantee .hce 1 7 c.cmd.nsid o 0x0730 s else s))
  else if c.cmd.op == .flush && c.phase == .accepted then durabilityLimit c (flushDoms c s) (fun s => s) s
  else s

def execRecoveryTimeLimitExpiry (tag : Fin 4096) (s : State) : Out :=
  .next <|
    match cmdAt tag s with
    | some c =>
      if hceUp s && c.ord.isSome && opIo c.cmd.op then
        limitPassed c (advanceTo ((c.fetched + 10 * s.hce.rtl) * 1000) s)
      else s
    | none => s

/-! ### Abort (R130-R132) -/

/-- Commands that are never matched. -/
def neverMatched (o : NvmeOp) : Bool :=
  match o with
  | .abort | .asyncEventRequest | .formatNvm | .sanitize | .firmwareCommit | .namespaceManagement => true
  | _ => false

/-- The live command that a match names. -/
def matchTarget (c sq cid : Nat) (s : State) : Option Cmd :=
  s.hce.cmds.find? fun x =>
    x.ctrl == c && x.sqid == sq && x.cmd.cid == cid && !x.fromMi && x.phase != .orphan && !(neverMatched x.cmd.op)

/-- The media tasks of a read, Verify or Compare end at their next non-atomic boundary (R131, R105). -/
def stopTasks (c : Cmd) (s : State) : State :=
  if opReads c.cmd.op then
    (channels s).foldl (fun s n => if asqHas n c.tag s then abortTag n c.tag s else s) s
  else s

/-- A matched command stops (R131). -/
def stopCmd (c : Cmd) (s : State) : State :=
  let s := stopTasks c (modCmd c.tag (fun x => { x with aborted := true }) s)
  let s := match c.ord with
    | some o =>
      match entryAt o s with
      | some e => if (e.kind == .write || e.kind == .append) && e.state == .pending then dropWrite o s else s
      | none => s
    | none => s
  finish c.tag stAborted s

/-- One match of HCE (R130): the result registers and event 0x0140. -/
def matchCmd (c sq cid : Nat) (s : State) : State :=
  match matchTarget c sq cid s with
  | some x =>
    let s := stopCmd x (s.modHce fun h => { h with abDone := true, abMatched := true, abTag := x.tag })
    ev .hce 0x0140 x.tag 1 0 s
  | none => ev .hce 0x0140 0xFFF 0 0 (s.modHce fun h => { h with abDone := true, abMatched := false, abTag := 0 })

/-- A write of HCE_ABORTREQ. -/
def writeAbortReq (v : Nat) (s : State) : State :=
  let s := storeFields .abortreq 0 0 v s
  if v.testBit 31 then matchCmd (bits v 30 30) (bits v 24 16) (bits v 15 0) s else s

def execAbortMatch (_m : Master) (v : Word) (s : State) : Out :=
  .next <| access .hce 0 (Reg.addr .abortreq 0 0) (writeAbortReq (v.toNat ||| 2 ^ 31)) s

/-- The Abort command: firmware matches its target; Dword 0 bit 0 tells the outcome. -/
def execAbort (tag : Fin 4096) (s : State) : Out :=
  withCmd tag (· == .abort) (fun c s =>
    let s := matchCmd c.ctrl (bits c.cmd.cdw10 15 0) (bits c.cmd.cdw10 31 16) s
    finishDw c.tag stOk (if s.hce.abMatched then 0 else 1) 0 s) s

/-! ### Controllers and ports (R96, R100, R105, R112) -/

/-- The command of a controller that stops: what R105 and R118 say of its work and of its tag. -/
def stopOne (c : Cmd) (s : State) : State :=
  let orphan := modCmd c.tag (fun x => { x with phase := .orphan })
  match c.ord with
  | none => freeTag c.tag s
  | some o =>
    if opReads c.cmd.op then
      let s := stopTasks c (orphan (releaseReader o s))
      if asqHolds c.tag s then s else freeTag c.tag s
    else if c.cmd.op == .flush then
      if c.phase == .accepted && !(passed o (flushDoms c s) s) then orphan s else freeTag c.tag s
    else
      match entryAt o s with
      | some e =>
        if e.kind == .barrier then
          if e.state == .pending then releaseWaiting (freeTag c.tag (freeBarrier o s)) else orphan s
        else if e.state == .pending then freeTag c.tag (dropWrite o s)
        else if e.state == .durable then freeTag c.tag s
        else orphan s
      | none => freeTag c.tag s

/-- R105 on the controller of a port: no more fetches or completions, queues deleted, work stopped or kept. -/
def stopController (p : Fin 2) (kind : Nat) (s : State) : State :=
  let s := s.modCtrl p fun x => { x with
    en := false, rdy := false, rdyHeld := false, sqs := [], cqs := [], aers := [], aens := [], aborts := [], excq := []
    kato := none, turn := 1 }
  let s := s.modHce fun h => { h with burst := match h.burst with | some (k, q, n) => if k = p.val then none else some (k, q, n) | none => none }
  let s := s.modPwr fun w => match w.psHeld with
    | some (t, _) => if (s.hce.cmds.any fun c => c.tag == t && c.ctrl == p.val) then { w with psHeld := none, psUnwound := false } else w
    | none => w
  let mine := s.hce.cmds.filter fun c => c.ctrl == p.val && !c.fromMi && c.phase != .orphan
  let s := mine.foldl (fun s c => stopOne c s) s
  ev .hce 0x0E07 p kind 0 s

/-- Port 1 exists only with DUALP = 1 (R46). -/
def portExists (p : Fin 2) (s : State) : Bool := p.val = 0 || s.sys.dualp

/-- Lanes of a port: the single port has four, either of two has two (R46). -/
def portLanes (s : State) : Nat := if s.sys.dualp then 2 else 4

/-- The link of a port trains: PERST# is high and the start has passed step 2 (R96). -/
def trainLink (p : Fin 2) (s : State) : State :=
  if pdOn 8 s && pdOn 9 s && 1 ≤ s.sys.stage && portExists p s && !(ctrlAt p s).perst then
    raiseLine (132 + p) (s.modCtrl p fun x => { x with linkUp := true })
  else s

def execPerstDeassert (p : Fin 2) (s : State) : Out :=
  .next <| trainLink p (s.modCtrl p fun x => { x with perst := false })

/-- PERST# on a port (R105): the controller stops, the link resets, and configuration space returns to the values that
firmware loaded. -/
def perstAction (p : Fin 2) (s : State) : State :=
  if pdOn 8 s && portExists p s then
    raiseLine (132 + p) (stopController p 0 (s.modCtrl p fun x => { x with linkUp := false, cfgAtLoaded := true }))
  else s

def execPerstAssert (p : Fin 2) (s : State) : Out :=
  .next <|
    if (ctrlAt p s).perst then s else perstAction p (s.modCtrl p fun x => { x with perst := true })

/-- A Function Level Reset or a link-down acts as PERST# (R112), with event 0x0130; the link then trains again. -/
def linkReset (p : Fin 2) (kind : Nat) (s : State) : State :=
  if pdOn 8 s && portExists p s && (ctrlAt p s).linkUp then
    trainLink p (perstAction p (ev .pcx 0x0130 p kind 0 s))
  else s

def execFunctionLevelReset (p : Fin 2) (s : State) : Out := .next (linkReset p 1 s)
def execLinkDown (p : Fin 2) (s : State) : Out := .next (linkReset p 0 s)

/-- A configuration request (R96): Request Retry Status (answer 0) until firmware has opened configuration space. One that
is answered may write it: the values that firmware loaded stand again only after R105 (log 177). -/
def execConfigRequest (p : Fin 2) (opened : Bool) (s : State) : Out :=
  .next <|
    if pdOn 8 s && (ctrlAt p s).linkUp then
      let s := s.modCtrl p fun x => { x with cfgOpen := x.cfgOpen || (opened && s.sys.acoresUp) }
      s.modCtrl p fun x => { x with lastData := [if x.cfgOpen then 1 else 0], cfgAtLoaded := x.cfgAtLoaded && !x.cfgOpen }
    else s

/-- The admin queues that enabling a controller creates; the sizes the host writes are not among the operands, and the
largest that CAP.MQES allows is taken (log 7). -/
def adminQueues (x : Ctrl) (wrr : Bool) : Ctrl :=
  { x with
    en := true, wrr := wrr, rdyHeld := true, nssro := x.nssro
    sqs := [{ id := 0, size := 4096, head := 0, tail := 0, cq := 0, prio := 0, entries := [] }]
    cqs := [{ id := 0, size := 4096, head := 0, tail := 0, phase := true, vector := 0, ien := true, posted := [], coalesced := 0 }] }

/-- CC.EN set to 1 (R100): CSTS.RDY follows when READY is set. -/
def execControllerEnable (p : Fin 2) (wrr : Bool) (s : State) : Out :=
  .next <|
    if hceUp s && (ctrlAt p s).linkUp && (ctrlAt p s).cfgOpen && !(ctrlAt p s).en then
      let s := s.modCtrl p fun x => adminQueues x wrr
      if s.sys.ready then s.modCtrl p fun x => { x with rdy := true, rdyHeld := false } else s
    else s

/-- READY sets: held writes of CSTS.RDY apply (R100). -/
def applyRdy (s : State) : State :=
  let f := fun (x : Ctrl) => if x.rdyHeld then { x with rdy := true, rdyHeld := false } else x
  (s.modCtrl 0 f).modCtrl 1 f

def execControllerReset (p : Fin 2) (s : State) : Out :=
  .next <| if hceUp s && (ctrlAt p s).en then stopController p 1 s else s

/-- What an operation makes of a zone. -/
def zoneOp (o : NvmeOp) (z : Zone) : Zone :=
  match o with
  | .zoneOpen => { z with st := .explicit }
  | .zoneClose => { z with st := .closed }
  | .zoneFinish => { z with st := .full, fwp := z.cap }
  | .zoneReset => { z with st := .empty, fwp := 0, dwp := 0 }
  | .zoneOffline => { z with st := .offline }
  | _ => z

/-- The records of a Format: every extent deallocated and every run removed, or every zone reset. -/
def formatTables (ord ns : Nat) (s : State) : State :=
  let dom := nsDom ns s
  if nsZoned ns s then
    (nsZones ns s).foldl (fun s z => journalZone ord dom ns false z.idx (modZone z.idx (zoneOp .zoneReset) s)) s
  else
    let s := (s.xmt.runs.filter (·.ns == ns)).foldl (fun s r => dropRun ord dom false r s) s
    (s.xmt.extents.filter fun e => e.ns == ns && e.v && !e.dealloc).foldl (fun s e =>
      mapExtent ord dom ns false { e with dealloc := true, seq := (e.seq + 1) % 2 ^ 16 } s) s

/-- The namespaces of a list that a new key epoch has erased are deallocated through the journal, so that they read as zeroes
(R357). -/
def deallocWiped (l : List Nat) (s : State) : State :=
  let s := (s.sec.wiped.filter l.contains).foldl (fun s n => formatTables noOrd n s) s
  s.modSec fun c => { c with wiped := c.wiped.filter fun n => !(l.contains n) }

/-- A namespace becomes ready (R100): recovery done, its media up and calibrated, no sanitize to resume. -/
def execNamespaceReady (nsid : Nat) (s : State) : Out :=
  .next <|
    if hceUp s && s.sys.ready && s.rvr.recStep = 7 && s.xmt.san.isNone && mediaUp s && !s.clk.xo40failed then
      (deallocWiped [nsid - 1] s).modHce fun h => { h with ns := mapIf (fun x => x.nsid == nsid && !x.sanitizing) (fun x => { x with ready := true }) h.ns }
    else s

end Sys2Proof.Machine
end

