-- ==== Sys2Proof/Machine/Security.lean ====
section
/-!
DEFINITION. The security core: fuses, signatures, the mailbox, key slots, snuff, debug unlock, measurements and the
attestation report (15_security.md R340-R365, 08 R190-R192, R435, 14 R328).
-/

set_option Elab.async false

namespace Sys2Proof.Machine

open Sys2Proof

/-! ### Signatures (R341) -/

/-- An object signed with an unrevoked Umwyn key whose usage mask has a bit set. -/
def umwynSigned (use : Nat) (g : SigObj) (s : State) : Bool :=
  g.valid && s.sec.ukey.any fun (d, mask, rev) => d == g.key && mask.testBit use && !rev

/-- An object signed with an unrevoked owner key. -/
def ownerSigned (g : SigObj) (s : State) : Bool :=
  g.valid && s.sec.okey.any fun o => match o with | some (d, rev) => d == g.key && !rev | none => false

/-- The bit of the running personality in a PERSMASK. -/
def persBit (s : State) : Nat :=
  match s.sys.pers with | .magnetic => 0 | .optical => 1 | .lantern => 2 | .factory => 3

/-! ### The mailbox (R363) -/

/-- The security core runs. -/
def secRuns (s : State) : Bool := pdOn 1 s && s.sys.coreUp && !(heldBlk .tru 0 s)

/-- A request's result: DONE, RES and the response length; a refusal records event 0x0B80. -/
def answer (cmd res len : Nat) (s : State) : State :=
  let s := if res = 0 then s else ev .tru 0x0B80 cmd res 0 s
  s.modSec fun c => { c with mbDone := true, mbRes := res, mbLen := len % 2 ^ 20, mbBusy := none }

/-- A mailbox request of a command: the A-core's GO and the security core's work on it. A GO while DONE = 0 is
ignored, unless it is this very request that the register write started. -/
def mailbox (cmd : Nat) (k : State → State) (s : State) : Out :=
  .next <|
    if secRuns s && (s.sec.mbDone || s.sec.mbBusy == some cmd) then
      k (setFld .mbcmd 0 0 23 16 cmd (s.modSec fun c => { c with mbDone := false, mbBusy := some cmd }))
    else s

/-- A write of TRU_MBCMD. -/
def writeMbcmd (v : Nat) (s : State) : State :=
  let s := storeFields .mbcmd 0 0 v s
  if v.testBit 31 && s.sec.mbDone then s.modSec fun c => { c with mbDone := false, mbBusy := some (bits v 23 16) } else s

/-- The response overwrites the request buffer. -/
def respond (cmd len v : Nat) (s : State) : State := answer cmd 0 len (secWrite (reg .mbaddr 0 0 s) len v s)

/-- Records as a response (R350, R365). -/
def respondRecords (cmd : Nat) (l : List KRec) (s : State) : State := respond cmd (128 * l.length) (recordsBytes l) s

/-- A response of which the manual gives neither the length nor the bytes. -/
def respondFree (cmd : Nat) (s : State) : State :=
  let n := draw (2 ^ 20) s
  respond cmd n (draw (256 ^ n) s.drawn) s.drawn.drawn

/-- Fuses of a group are programmed (R340): an operation that fails its readback, which is free, records 0x0B72, and the one
retry succeeds; the group's number is free (log 189). -/
def programFuses (s : State) : State := if draw 2 s = 0 then s.drawn else ev .tru 0x0B72 (draw (2 ^ 32) s.drawn) 0 0 s.drawn.drawn

/-! ### Key slots (R347-R351) -/

/-- The user page that owns a namespace is OPEN, or the part is in Shared mode (R363). -/
def pageOpen (ns : Nat) (s : State) : Bool := !s.sec.part || s.sec.users.any fun u => u.opn && u.nsmask.testBit ns

/-- KEY_GENERATE (R348). A limit of 0 takes 2^32. -/
def execKeyGenerate (ns user limit : Nat) (s : State) : Out :=
  mailbox 0x03 (fun s =>
    let lim := if limit = 0 then 2 ^ 32 else limit
    if ns ≥ 64 ∨ user ≥ 32 ∨ lim < 2 ^ 20 ∨ 2 ^ 40 ≤ lim then answer 0x03 5 0 s
    else if s.sec.encdis || s.sec.l2pend || (s.sec.part && !(vget s.sec.users user {}).opn) then answer 0x03 4 0 s
    else
      match lowestFree 2048 (s.sec.slots.map (·.slot)) with
      | none => answer 0x03 2 0 s
      | some k =>
        let s := newKey ns user lim k s
        let s := if s.sec.part then
            s.modSec fun c => { c with users := vmod c.users user fun u => { u with nsmask := u.nsmask ||| 1 <<< ns } }
          else s
        respondFree 0x03 s) s

/-- KEY_ZERO (R349). -/
def execKeyZero (slot : Fin 2048) (s : State) : Out :=
  mailbox 0x04 (fun s =>
    match kslot slot s with
    | some x => if pageOpen x.ns s then answer 0x04 0 0 (zeroSlot slot s) else answer 0x04 4 0 s
    | none => answer 0x04 0 0 s) s

/-- Slots whose record KEY_CHECKPOINT returns (R350). -/
def dueSlots (s : State) : List KSlot :=
  s.sec.slots.filter fun x => x.valid && (x.changed || x.ckpt + 2 ^ 23 ≤ x.use_)

/-- KEY_CHECKPOINT (R350): the records due are returned, and firmware writes them to every copy. -/
def execKeyCheckpoint (s : State) : Out :=
  mailbox 0x05 (fun s =>
    let due := dueSlots s
    let s := storeRecords (due.map recordOf) s
    let s := s.modSec fun c => { c with
      slots := mapIf (fun x => due.any fun y => y.slot == x.slot) (fun x => { x with ckpt := x.use_, changed := false }) c.slots }
    respondRecords 0x05 (due.map recordOf) s) s

/-- NS_ACTIVE (R349). -/
def execNsActive (ns : Fin 64) (slot : Fin 2048) (enc : Bool) (s : State) : Out :=
  mailbox 0x06 (fun s => if pageOpen ns s then answer 0x06 0 0 (setNsKey ns enc slot s) else answer 0x06 4 0 s) s

/-- A write of KST_SLOTSEL copies the attributes of the slot. -/
def writeSlotsel (v : Nat) (s : State) : State :=
  let s := storeFields .slotsel 0 0 v s
  match kslot (bits v 10 0) s with
  | some x => s.modSec fun c => { c with
      selAttr := flag x.valid 31 + flag x.lost 30 + flag x.retired 29 + x.ns % 64 * 2 ^ 23 + x.user % 32 * 2 ^ 18
        + x.epoch % 32 * 2 ^ 13
      selUse := x.use_ % 2 ^ 40, selLim := x.limit % 2 ^ 40 }
  | none => s.modSec fun c => { c with selAttr := 0, selUse := 0, selLim := 0 }

def execSlotSelect (_m : Master) (v : Word) (s : State) : Out :=
  .next <| access .kst 0 (Reg.addr .slotsel 0 0) (writeSlotsel v.toNat) s

/-! ### Restore and snuff (R351, R355-R358) -/

/-- The wick copies of the slot RAM and the lane key registers are zeroed (R356 step 3). -/
def zeroKst (s : State) : State :=
  s.modSec fun c => { c with slots := [], lane := Vector.replicate 4 none, restored := false }

/-- The link and segment keys are zeroed with the slot RAM: every link of the part drops (R410). A lease received stays
until its expiry. -/
def dropLinks (s : State) : State :=
  s.modVlk fun v => { v with
    enr := v.root, lantern := none, authExp := none, slots := [], rxLink := none, rxSeg := none, seenLink := [], seenSeg := []
    locked := v.locked && v.root, agree := 0, missedB := 0, failedB := 0, keyNew := none, keyNext := none, renewAt := none
    ask := false, attTx := none, attRx := none, attPend := none }

/-- The Lantern engine's quiet period (R416): floors only for LEASEMS + 100 ms, event 0x0F25. -/
def startQuiet (s : State) : State :=
  if s.sys.pers == .lantern && fld .vlkCfg 0 0 31 31 s = 1 then
    let ms := min 10000 (max 100 (fld .vlkCfg 0 0 15 0 s))
    ev .vlk 0x0F25 (fld .vlkCfg 0 0 15 0 s) 0 0 (s.modVlk fun v => { v with quietEnd := some (now s + ms + 100) })
  else s

/-- The key table copy that the restore reads: the reservoir key area first, the media copy without a reservoir. -/
def keyCopy (s : State) : Option (List KRec) :=
  if fld .rvrCfg 0 0 1 0 s != 0 then some s.sec.keyRecs else if mediaUp s then some s.sec.mediaRecs else none

/-- One record unwrapped, or a LOST slot with event 0x0B23. -/
def unwrapRec (r : KRec) (s : State) : State :=
  let ok := r.good && r.epoch == s.sec.epoch
  let x : KSlot :=
    { slot := r.slot, valid := ok, lost := !ok, retired := r.retired, ns := r.ns, user := r.user, epoch := r.epoch
      use_ := r.use_ + 2 ^ 24, limit := r.limit, key := if ok then r.key else 0, ckpt := r.use_, changed := false
      warned := r.limit * 9 ≤ (r.use_ + 2 ^ 24) * 10 }
  let s := putSlot x s
  if ok then s else ev .kst 0x0B23 r.slot (if r.epoch == s.sec.epoch then 1 else 0) 0 s

/-- KEY_RESTORE (R351): 10 ms after a snuff at the earliest, and not while L2PEND, ENCDIS or a level-2 unlock forbids
every unwrap. -/
def execKeyRestore (s : State) : Out :=
  .next <|
    if secRuns s && !s.sec.restored && !s.sec.l2pend && !s.sec.encdis && !s.sec.noUnwrap && !(heldBlk .kst 0 s) then
      match keyCopy s with
      | some l =>
        let s := if s.sec.snuffed then advanceTo ((s.sec.snuffAt + 10) * 1000) s else s
        let s := l.foldl (fun s r => unwrapRec r s) (zeroKst s)
        let was := s.sec.snuffed
        let s := s.modSec fun c => { c with restored := true, snuffed := false }
        let s := ev .kst 0x0B22 (s.sec.slots.filter (·.valid)).length (s.sec.slots.filter (·.lost)).length 0 s
        let s := if xmtUp s then deallocWiped s.sec.wiped s else s
        if was then startQuiet s else s
      | none => s
    else s

/-- The snuff detectors are armed (R355). -/
def snuffArmed (s : State) : Bool := match s.sec.armFrom with | some t => t ≤ now s | none => false

/-- Steps 2 and 3 of the level-1 sequence (R356): a fault on every channel whose ACTIVE task has ENC = 1, then the
zeroisation. A detection is a wake source of the part. -/
def snuffAct (code : Nat) (s : State) : State :=
  let s := (channels s).foldl (fun s n =>
    if s.asq[n].avalid && task n 0 10 10 s == 1 then faultDecision n code s else s) s
  let s := dropLinks (zeroKst s)
  setIrqStat .kst 0 3 (noteWake 0x100 s)

/-- A level-1 snuff (R356). -/
def snuff1 (src : Fin 4) (s : State) : State :=
  let s := snuffAct 0x0B20 s
  s.modSec fun c => { c with snuffed := true, snuffAt := now s, alarmDue := some src }

/-- Encrypted namespaces, NSID - 1. -/
def encNamespaces (s : State) : List Nat := (s.sec.nskey.filter (·.2.1)).map (·.1)

/-- A level-2 snuff (R357): the zeroisation, L2PEND, event 0x0B21 and 0x1024 for each encrypted namespace. -/
def snuff2 (src : Nat) (s : State) : State :=
  let s := snuffAct 0x0B21 s
  let w := encNamespaces s
  let s := s.modSec fun c => { c with
    l2pend := true, snuffed := true, snuffAt := now s, wiped := c.wiped ++ w.filter fun n => !(c.wiped.contains n) }
  let s := ev .kst 0x0B21 src s.sec.epoch 0 s
  (encNamespaces s).foldl (fun s ns => guarantee .kst 2 4 (ns + 1) 0xFFFFFFFF 0x0B21 s) s

/-- Step 4 of the level-1 sequence: an ALARM fuse is blown; the eighth is a level-2 alarm. -/
def blowAlarm (src : Nat) (s : State) : State :=
  let eighth := s.sec.alarms == 7
  let s := (if s.sec.alarms < 8 then programFuses s else s).modSec fun c => { c with alarms := min 8 (c.alarms + 1), alarmDue := none }
  let s := ev .kst 0x0B20 src s.sec.alarms 0 s
  if eighth then snuff2 1 s else s

/-- The epoch fuse of a level-2 snuff, or ENCDIS once all 16 are blown (R357, R358). -/
def execEpochFuseBlow (s : State) : Out :=
  .next <|
    if secRuns s && s.sec.l2pend then
      let s := programFuses s
      if 16 ≤ s.sec.epoch then
        ev .kst 0x0B73 0 0 0 (s.modSec fun c => { c with encdis := true, l2pend := false })
      else s.modSec fun c => { c with epoch := c.epoch + 1, l2pend := false }
    else s

/-! ### Measurements, ownership and policy (R342, R344, R352, R360) -/

/-- EXTEND of a register 8 to 15. -/
def execExtend (m : Nat) (digest : Nat) (s : State) : Out :=
  mailbox 0x02 (fun s => if 8 ≤ m ∧ m ≤ 15 then answer 0x02 0 0 (extendMeas m digest s) else answer 0x02 5 0 s) s

def execFirmwareActivationMeasurement (digest : Nat) (s : State) : Out :=
  mailbox 0x0D (fun s => answer 0x0D 0 0 (extendMeas 7 digest s)) s

/-- SVN_COMMIT (R344). -/
def execSvnCommit (count : Nat) (s : State) : Out :=
  mailbox 0x07 (fun s =>
    if 64 ≤ s.sec.svn then answer 0x07 4 0 (ev .tru 0x0B71 0 0 0 s)
    else if s.sec.imgSvn < count ∨ 64 < count then answer 0x07 4 0 s
    else if s.sec.svn < count then
      answer 0x07 0 0 (ev .tru 0x0B70 count 0 0 ((programFuses s).modSec fun c => { c with svn := count }))
    else answer 0x07 0 0 s) s

/-- A request for a repair map entry (R328): OK, DUPLICATE or FULL. -/
def execRepairMapEntry (w : Word) (s : State) : Out :=
  mailbox 0x08 (fun s =>
    if !(w.toNat.testBit 31) then answer 0x08 5 0 s
    else if s.sys.repairMap.any fun x => x.toNat / 256 == w.toNat / 256 then answer 0x08 1 0 s
    else if 256 ≤ s.sys.repairMap.length then
      answer 0x08 2 0 (ev .sys 0x0A41 w.toNat s.sys.repairMap.length 0 s)
    else
      let s := (programFuses s).modSys fun y => { y with repairMap := y.repairMap ++ [w] }
      answer 0x08 0 0 (ev .sys 0x0A40 w.toNat s.sys.repairMap.length 0 s)) s

/-- TAKE_OWNERSHIP (R342): once, while no owner key is programmed. -/
def execTakeOwnership (sig : SigObj) (s : State) : Out :=
  mailbox 0x09 (fun s =>
    if s.sec.okey.any (·.isSome) then answer 0x09 4 0 s
    else if !sig.valid then answer 0x09 3 0 s
    else answer 0x09 0 0 ((programFuses s).modSec fun c => { c with okey := c.okey.set 0 (some (sig.key, false)) })) s

/-- An owner-signed request adds an owner key to the first place not programmed. -/
def execAddOwnerKey (sig : SigObj) (digest : Nat) (s : State) : Out :=
  mailbox 0x09 (fun s =>
    if !(ownerSigned sig s) then answer 0x09 3 0 s
    else
      match (List.range 4).find? fun k => (vget s.sec.okey k none).isNone with
      | some k => answer 0x09 0 0 ((programFuses s).modSec fun c => { c with okey := vmod c.okey k fun _ => some (digest, false) })
      | none => answer 0x09 2 0 s) s

/-- Owner keys in force. -/
def ownerKeys (s : State) : Nat :=
  s.sec.okey.foldl (fun a o => match o with | some (_, false) => a + 1 | _ => a) 0

/-- An owner-signed request revokes an owner key, never the last one (R342). -/
def execRevokeOwnerKey (sig : SigObj) (k : Fin 4) (s : State) : Out :=
  mailbox 0x09 (fun s =>
    if !(ownerSigned sig s) then answer 0x09 3 0 s
    else
      match s.sec.okey[k] with
      | some (d, false) =>
        if ownerKeys s ≤ 1 then answer 0x09 4 0 s
        else answer 0x09 0 0 ((programFuses s).modSec fun c => { c with okey := c.okey.set k (some (d, true)) })
      | _ => answer 0x09 5 0 s) s

/-- An owner-signed owner policy; it takes effect at the next reset (R352, R363). -/
def execOwnerPolicy (sig : SigObj) (part openRegion ownerDebug : Bool) (s : State) : Out :=
  mailbox 0x09 (fun s =>
    if ownerSigned sig s then
      answer 0x09 0 0 (s.modSec fun c => { c with policyNext := { part := part, openRegion := openRegion, ownerDebug := ownerDebug } })
    else answer 0x09 3 0 s) s

/-- BEHAVIOUR_PROFILE_UNLOCK (R432). -/
def execBehaviourProfileUnlock (sig : SigObj) (devid : Nat) (s : State) : Out :=
  mailbox 0x0C (fun s =>
    if !(ownerSigned sig s) then answer 0x0C 3 0 s
    else if devid ≠ s.sec.devid then answer 0x0C 4 0 s
    else answer 0x0C 0 0 (s.modSys fun y => { y with profLock := false })) s

/-! ### Transplant (R364, R365) -/

/-- EXPORT: a bundle of every VALID record; the source part is unchanged. -/
def execExportKeys (sig : SigObj) (devid : Nat) (s : State) : Out :=
  mailbox 0x0A (fun s =>
    if ownerSigned sig s then
      respondFree 0x0A (ev .tru 0x0B60 (devid % 2 ^ 32) (s.sec.slots.filter (·.valid)).length 0 s)
    else answer 0x0A 3 0 s) s

/-- A record of a bundle, re-wrapped under the present epoch. -/
def importRec (s : State) (r : Nat × Nat × Nat × Nat × Nat × Nat) : KRec :=
  { slot := r.1, ns := r.2.1, user := r.2.2.1, epoch := s.sec.epoch, retired := false, use_ := r.2.2.2.1, limit := r.2.2.2.2.1
    key := r.2.2.2.2.2, good := true }

/-- IMPORT: the records of the bundle, re-wrapped, are returned and firmware stores them. -/
def execImportKeys (sig : SigObj) (b : Bundle) (s : State) : Out :=
  mailbox 0x0B (fun s =>
    if !(ownerSigned sig s) then answer 0x0B 3 0 s
    else if b.devid ≠ s.sec.devid then answer 0x0B 4 0 s
    else if !(b.srcOk && b.tagOk) then answer 0x0B 3 0 s
    else if s.sec.slots.any (·.valid) then answer 0x0B 4 0 s
    else
      let l := b.recs.map (importRec s)
      respondRecords 0x0B l (ev .tru 0x0B61 (b.devid % 2 ^ 32) b.recs.length 0 (storeRecords l s))) s

/-! ### Debug unlock (R359) -/

def execDebugChallenge (s : State) : Out :=
  .next <|
    if pdOn 2 s && secRuns s then s.drawn.modSec fun c => { c with dbgChal := some (draw (2 ^ 256) s) } else s

/-- A response to the challenge outstanding: an unlock, or an unauthorised attempt, which is a level-2 alarm. The
debugger that an unlock lets in halts an A-core or lets it run (R104; log 167). -/
def debugAnswer (level : Nat) (sig : SigObj) (digest : Nat) (halt : Bool) (s : State) : State :=
  let s := s.modSec fun c => { c with dbgChal := none }
  let ok := (level == 1 && (umwynSigned 2 sig s || (s.sec.policy.ownerDebug && ownerSigned sig s))) ||
    (level == 2 && umwynSigned 2 sig s)
  if ok then
    let s := extendMeas 6 digest (s.modSys fun y => { y with debugLevel := max y.debugLevel level, debugHalt := halt })
    let s := if level = 2 then (dropLinks (zeroKst s)).modSec fun c => { c with noUnwrap := true } else s
    ev .dbg 0x0B40 level (sig.key % 2 ^ 32) 0 s
  else if snuffArmed s then snuff2 2 s else s

/-! ### Microcode images (R190, R435) -/

/-- An address lies in ROM or among the words that an image loads. -/
def mcAddrOk (img : McObj) (a : Nat) : Bool :=
  a < 0x8000 || (let b := if img.opn then 0xC000 else 0x8000; b ≤ a && a < b + img.words.length)

/-- The counts and addresses of an image (reason 5). -/
def mcCounts (img : McObj) : Bool :=
  img.words.length ≤ (if img.opn then 4096 else 2048) && img.mtch.length ≤ (if img.opn then 0 else 64) &&
    img.disp.length ≤ (if img.opn then 32 else 256) && (img.mtch.map (·.1)).eraseDups.length == img.mtch.length &&
    (img.mtch.all fun (a, p) => a < 0x8000 && p < img.words.length) && (img.disp.all fun (_, a) => mcAddrOk img a)

/-- The dispatch entries respect the allocation of R188 (reason 6). -/
def mcEntries (img : McObj) : Bool :=
  img.disp.all fun (k, a) =>
    if img.opn then 0xC0 ≤ k && k ≤ 0xDF && 0xC000 ≤ a
    else k ≤ 0xBF || (0xE0 ≤ k && k ≤ 0xEF) || k = 0xFD || k = 0xFE

/-- The first check of R190 that an image fails, 0 when it passes; KEYID is the low 64 bits of the key's digest (R6). -/
def mcReason (img : McObj) (s : State) : Nat :=
  if img.magic ≠ 0x4D435031 ∨ img.format ≠ 1 ∨ !(img.kind == 1 || img.kind == 2) then 5
  else if img.keyId ≠ img.sig.key % 2 ^ 64 ∨ !(if img.opn then ownerSigned img.sig s else umwynSigned 1 img.sig s) then 1
  else if img.svn < s.sec.svn then 2
  else if img.romVer ≠ 0x0B00 then 3
  else if !(img.persMask.testBit (persBit s)) then 4
  else if !(mcCounts img) then 5
  else if !(mcEntries img) then 6
  else if img.opn && !s.cst.openEn then 7
  else 0

/-- RES of a refused image: a signature that fails answers 3, a malformed image 5, any other check 4. -/
def mcRes (reason : Nat) : Nat := if reason = 1 then 3 else if reason = 5 then 5 else 4

def execMicrocodeActivate (img : McObj) (s : State) : Out :=
  mailbox 0x01 (fun s =>
    if s.cst.staged.isSome then answer 0x01 4 0 s
    else
      let r := mcReason img s
      if r ≠ 0 then answer 0x01 (mcRes r) 0 (ev .cst 0x0341 r (if img.opn then 2 else 1) img.ver s)
      else
        let i : McImage := { opn := img.opn, ver := img.ver, svn := img.svn, words := img.words, matches_ := img.mtch
                             disp := img.disp, digest := img.digest }
        answer 0x01 0 0 (armCst (.core .sec) { s with cst := { s.cst with staged := some i } })) s

/-! ### Attestation (R362) and credentials (R354) -/

/-- STATE of an attestation report. -/
def attState (s : State) : Nat :=
  flag (s.sys.variant == .d) 0 + flag s.sec.part 1 + flag s.sec.encdis 2 + flag s.sec.l2pend 3 + flag (s.sys.debugLevel != 0) 4

/-- CST_PVER and CST_OPENVER as a report carries them. -/
def pverWord (s : State) : Nat := s.cst.pVer * 2 ^ 16 + s.cst.pSvn * 2 ^ 8 + flag s.cst.pLoaded 7 + s.cst.pNmatch
def openverWord (s : State) : Nat := flag s.cst.openEn 31 + flag s.cst.oLoaded 30 + s.cst.oNwords * 2 ^ 16 + s.cst.oVer

/-- Bytes 0-8,371 of an attestation report (table Attestation report). -/
def reportOf (nseq nonce : Nat) (s : State) : Nat :=
  packed ([(4, 0x41545331), (2, 1), (2, 0), (8, nseq), (32, nonce), (16, s.sec.devid), (2, Config.designRevision),
    (1, persBit s), (1, attState s), (1, s.sec.svn), (1, s.sec.epoch), (1, s.sec.alarms), (1, 0),
    (4, 0x0B00 * 2 ^ 16 + dtab s), (4, pverWord s), (4, openverWord s), (8, s.cal.sec), (36, 0)]
    ++ s.sec.meas.toList.map (fun m => (64, m)) ++ [(2592, s.sec.apub), (4627, s.sec.acert), (1, 0)])

/-- The report with its signature by the attestation key over the digest of bytes 0-8,371. -/
def signedReport (r : Nat) (s : State) : Nat :=
  packed [(8372, r), (4627, Config.mldsaSign s.sec.akSeed (Config.sha3 (packed [(8372, r)]))), (1, 0)]

/-- The key pairs that a start derives at the release of the A-cores (R361): the identity pair from DEVSEC, with DEVID, the
attestation pair from DEVSEC and M_1, and the identity signature over the attestation public key. -/
def deriveKeys (s : State) : State :=
  let idSeed := Config.kmac256 Config.devsec 0 0 % 2 ^ 256
  let akSeed := Config.kmac256 Config.devsec (vget s.sec.meas 1 0) 1 % 2 ^ 256
  let apub := packed [(2592, Config.mldsaPublic akSeed)]
  s.modSec fun c => { c with
    devid := Config.sha3 (Config.mldsaPublic idSeed) % 2 ^ 128, akSeed := akSeed, apub := apub
    acert := Config.mldsaSign idSeed apub % 256 ^ 4627 }

/-- A nonce starts a report; a newer one abandons it (R362, R421). -/
def takeNonce (nonce : Nat) (s : State) : State :=
  let q := s.sec.nseq + 1
  s.modSec fun c => { c with nseq := q, nonce := nonce % 2 ^ 256, report := reportOf q (nonce % 2 ^ 256) s
                             signing := true, repReady := false }

/-- Security protocol and protocol-specific value of Security Send and Receive (CDW10). -/
def secp (c : NvmeCmd) : Nat := bits c.cdw10 31 24
def spsp (c : NvmeCmd) : Nat := bits c.cdw10 23 8

/-- A security command under a protocol and value. -/
def withSec (tag : Nat) (send : Bool) (p : NvmeCmd → Bool) (f : Cmd → State → State) (s : State) : Out :=
  withCmd tag (· == (if send then .securitySend else .securityReceive)) (fun c s => if p c.cmd then f c s else s) s

def execAttestationNonce (tag : Fin 4096) (s : State) : Out :=
  withSec tag true (fun c => secp c == 0xF0 && spsp c == 1) (fun c s => finish c.tag stOk (takeNonce c.cmd.payload s)) s

def execAttestationReportSigned (s : State) : Out :=
  .next <| if secRuns s && s.sec.signing then 
      s.modSec fun c => { c with signing := false, repReady := true, report := signedReport c.report s }
    else s

def execAttestationReportReceive (tag : Fin 4096) (s : State) : Out :=
  withSec tag false (fun c => secp c == 0xF0 && spsp c == 1) (fun c s =>
    let d := if s.sec.repReady then [s.sec.report] else []
    finish c.tag stOk (s.modCtrl (ctrlIdx c.ctrl) fun x => { x with lastData := d })) s

/-- A credential presented to a user page (R354): `payload` holds the credential in its low 512 bits and, above them, a
new one that replaces it (0 none). -/
def credentialOf (u : Nat) (payload : Nat) (s : State) : State × Bool :=
  let p := vget s.sec.users u {}
  let cur := payload % 2 ^ 512
  let new := payload / 2 ^ 512
  let setU := fun (f : UserPage → UserPage) (s : State) => s.modSec fun c => { c with users := vmod c.users u f }
  let keep := fun v => if new = 0 then v else some (Config.hash 0 new)
  if p.lockout then (s, false)
  else if p.cred.isNone && new != 0 then (setU (fun x => { x with cred := some (Config.hash 0 new) }) s, true)
  else if p.cred = some (Config.hash 0 cur) then
    (setU (fun x => { x with opn := true, fails := 0, cred := keep x.cred }) s, true)
  else
    let n := min 15 (p.fails + 1)
    let s := ev .cip 0x0B50 u n 0 (setU (fun x => { x with fails := n }) s)
    (if 8 ≤ n then ev .cip 0x0B51 u n 0 (setU (fun x => { x with lockout := true }) s) else s, false)

/-- The status of a refused credential is not given: a free choice between Success and Invalid Field in Command. -/
def execCredential (tag : Fin 4096) (s : State) : Out :=
  withSec tag true (fun c => secp c == 0xF1 && spsp c < 32) (fun c s =>
    let (s, ok) := credentialOf (spsp c.cmd) c.cmd.payload s
    if ok then finish c.tag stOk s
    else finish c.tag (if draw 2 s = 0 then stOk else stField) s.drawn) s

/-- Security Send under another protocol: protocol 0x00 carries nothing to send, and any other is refused. -/
def execSecuritySend (tag : Fin 4096) (s : State) : Out :=
  withSec tag true (fun c => !(secp c == 0xF0 && spsp c == 1) && !(secp c == 0xF1 && spsp c < 32))
    (fun c s => finish c.tag (if secp c.cmd = 0 then stOk else stField) s) s

/-- Security Receive under protocol 0x00 lists the protocols. -/
def execSecurityReceive (tag : Fin 4096) (s : State) : Out :=
  withSec tag false (fun c => !(secp c == 0xF0 && spsp c == 1)) (fun c s =>
    if secp c.cmd = 0 then
      finish c.tag stOk (s.modCtrl (ctrlIdx c.ctrl) fun x => { x with lastData := [0x00, 0xF0, 0xF1] })
    else finish c.tag stField s) s

end Sys2Proof.Machine
end

