-- ==== Sys2Proof/Machine/HostNs.lean ====
section
/-!
DEFINITION. Commands that act on a namespace as a whole: reservations, Zone Management, Namespace Management and
Attachment, Format NVM and Sanitize (06_host_commands.md R133-R139, 07 R165, R166, 05 R110). Layouts of NVMe 2.0 data
structures that the manual takes as given are PRESUMED (log 21).
-/

set_option Elab.async false

namespace Sys2Proof.Machine

open Sys2Proof

/-! ### Pages of data for the host -/

/-- A page as a little-endian number: fields (byte offset, width, value) laid over what the page holds elsewhere. -/
def page (base : Nat) (fs : List (Nat × Nat × Nat)) : Nat :=
  fs.foldl (fun p (off, w, v) =>
    p - (p >>> (8 * off)) % 256 ^ w <<< (8 * off) + v % 256 ^ w <<< (8 * off)) base

/-- Data transferred to the host by a command. -/
def giveData (c : Cmd) (l : List Nat) (s : State) : State :=
  s.modCtrl (ctrlIdx c.ctrl) fun x => { x with lastData := l }

/-- A namespace changed. -/
def modNs (nsid : Nat) (f : Ns → Ns) (s : State) : State := s.modHce fun h => { h with ns := mapIf (·.nsid == nsid) f h.ns }

/-- A live accepted command on an existing namespace. -/
def withNs (tag : Nat) (o : NvmeOp) (f : Cmd → Ns → State → State) (s : State) : Out :=
  withCmd tag (· == o) (fun c s => match nsAt (cmdNs c.cmd) s with | some x => f c x s | none => finish c.tag stNamespace s) s

/-! ### Reservations (R115; NVMe 2.0 semantics, log 21) -/

/-- The reservation key that a command presents, and its second key. -/
def crkey (c : Cmd) : Nat := c.cmd.payload % 2 ^ 64
def rkey2 (c : Cmd) : Nat := c.cmd.payload / 2 ^ 64 % 2 ^ 64

/-- The controller is registered with the key it presents. -/
def keyMatches (c : Cmd) (x : Ns) : Bool := x.registrants.any fun (k, r) => k == c.ctrl && r == crkey c

/-- The key under which a controller is registered. -/
def regKey (k : Nat) (x : Ns) : Option Nat := (x.registrants.find? (·.1 == k)).map (·.2)

/-- All-registrants reservation types. -/
def allRegs (t : Nat) : Bool := t == 5 || t == 6

/-- A registrant leaves; a reservation it held alone goes with it. -/
def unregister (k : Nat) (x : Ns) : Ns :=
  let regs := x.registrants.filter (·.1 != k)
  let resv := match x.resv with
    | some (h, t) => if (allRegs t && regs.isEmpty) || (!(allRegs t) && h == k) then none else some (h, t)
    | none => none
  { x with registrants := regs, resv := resv, rgen := (x.rgen + 1) % 2 ^ 32 }

def execReservationRegister (tag : Fin 4096) (s : State) : Out :=
  withNs tag .resvRegister (fun c x s =>
    let iekey := c.cmd.cdw10.testBit 3
    let set := fun (s : State) => modNs x.nsid (fun y => { y with
      registrants := (y.registrants.filter (·.1 != c.ctrl)) ++ [(c.ctrl, rkey2 c)], rgen := (y.rgen + 1) % 2 ^ 32 }) s
    match bits c.cmd.cdw10 2 0 with
    | 0 =>
      match regKey c.ctrl x with
      | none => finish c.tag stOk (set s)
      | some k => finish c.tag (if k = rkey2 c then stOk else stResvConflict) s
    | 1 =>
      if (regKey c.ctrl x).isSome && (iekey || keyMatches c x) then
        finish c.tag stOk (modNs x.nsid (unregister c.ctrl) s)
      else finish c.tag stResvConflict s
    | 2 =>
      if iekey || keyMatches c x then finish c.tag stOk (set s) else finish c.tag stResvConflict s
    | _ => finish c.tag stField s) s

/-- Registrants under a key, other than the commanding controller, leave, and their commands on the namespace stop when
the action asks for it. -/
def preempt (c : Cmd) (x : Ns) (abort : Bool) (gone : List Nat) (rtype : Option Nat) (s : State) : State :=
  let s := modNs x.nsid (fun y => { y with
    registrants := y.registrants.filter fun r => !(gone.contains r.1)
    resv := match rtype with | some t => some (c.ctrl, t) | none => y.resv
    rgen := (y.rgen + 1) % 2 ^ 32 }) s
  if abort then
    (s.hce.cmds.filter fun y => gone.contains y.ctrl && y.cmd.nsid == x.nsid && y.phase != .orphan && y.phase != .finished &&
      opIo y.cmd.op).foldl (fun s y => stopCmd y s) s
  else s

def execReservationAcquire (tag : Fin 4096) (s : State) : Out :=
  withNs tag .resvAcquire (fun c x s =>
    let act := bits c.cmd.cdw10 2 0
    let t := bits c.cmd.cdw10 15 8
    let under := (x.registrants.filter fun r => r.1 != c.ctrl && r.2 == rkey2 c).map (·.1)
    let others := (x.registrants.filter fun r => r.1 != c.ctrl).map (·.1)
    if t = 0 ∨ 6 < t ∨ 2 < act then finish c.tag stField s
    else if !(keyMatches c x) then finish c.tag stResvConflict s
    else if act = 0 then
      match x.resv with
      | none => finish c.tag stOk (modNs x.nsid (fun y => { y with resv := some (c.ctrl, t) }) s)
      | some (h, u) => finish c.tag (if (h = c.ctrl ∨ allRegs u) ∧ u = t then stOk else stResvConflict) s
    else
      match x.resv with
      | some (h, u) =>
        if allRegs u && rkey2 c = 0 then finish c.tag stOk (preempt c x (act == 2) others (some t) s)
        else if !(allRegs u) && regKey h x == some (rkey2 c) then
          finish c.tag stOk (preempt c x (act == 2) under (some t) s)
        else if under.isEmpty then finish c.tag stResvConflict s
        else finish c.tag stOk (preempt c x (act == 2) under none s)
      | none =>
        if under.isEmpty then finish c.tag stResvConflict s
        else finish c.tag stOk (preempt c x (act == 2) under none s)) s

def execReservationRelease (tag : Fin 4096) (s : State) : Out :=
  withNs tag .resvRelease (fun c x s =>
    let act := bits c.cmd.cdw10 2 0
    let t := bits c.cmd.cdw10 15 8
    if 1 < act then finish c.tag stField s
    else if !(keyMatches c x) then finish c.tag stResvConflict s
    else if act = 1 then
      finish c.tag stOk (modNs x.nsid (fun y => { y with registrants := [], resv := none, rgen := (y.rgen + 1) % 2 ^ 32 }) s)
    else
      match x.resv with
      | some (h, u) =>
        if h ≠ c.ctrl ∧ !(allRegs u) then finish c.tag stOk s
        else if u ≠ t then finish c.tag stField s
        else finish c.tag stOk (modNs x.nsid (fun y => { y with resv := none }) s)
      | none => finish c.tag stOk s) s

/-- The reservation status structure: generation, type and one descriptor for each registrant; the host identifiers are
free values. -/
def execReservationReport (tag : Fin 4096) (s : State) : Out :=
  withNs tag .resvReport (fun c x s =>
    let n := x.registrants.length
    let len := 24 + 24 * n
    let d := draw (2 ^ 128) s
    let regs := x.registrants.zipIdx.flatMap fun ((k, r), i) =>
      [(24 + 24 * i, 2, k), (26 + 24 * i, 1, match x.resv with | some (h, t) => if h = k ∨ allRegs t then 1 else 0 | none => 0),
        (32 + 24 * i, 8, d >>> (64 * i)), (40 + 24 * i, 8, r)]
    let p := page 0 ([(0, 4, x.rgen), (4, 1, match x.resv with | some (_, t) => t | none => 0), (5, 2, n)] ++ regs)
    finish c.tag stOk (giveData c [p % 256 ^ min len (4 * (c.cmd.cdw10 % 2 ^ 32 + 1))] s.drawn)) s

/-! ### Zone Management (R137) -/

/-- A command older than an ordinal on a namespace that has not completed: one whose completion is not posted yet is
live (R147). -/
def olderLive (ord ns : Nat) (s : State) : Bool :=
  s.hce.cmds.any fun c => (cmdNs c.cmd == ns || c.cmd.nsid == 0xFFFFFFFF) &&
    match c.ord with | some o => older o ord | none => false

/-- A barrier may begin its work: its entry is live and every older command of the namespace has ended. -/
def barrierTurn (ord ns : Nat) (s : State) : Bool :=
  !(olderLive ord ns s) && s.lgr.entries.any fun e => e.ord == ord && e.kind == .barrier && e.state == .pending

/-- Zones changed one after the other, each with its ZONE record; the last record carries LAST. -/
def zonesChange (ord dom ns : Nat) (f : Zone → Zone) : List Zone → State → State
  | [], s => s
  | z :: t, s => zonesChange ord dom ns f t (journalZone ord dom ns t.isEmpty z.idx (modZone z.idx f s))

/-- Zones that Select All acts on. -/
def zoneSel (o : NvmeOp) (z : Zone) : Bool :=
  match o with
  | .zoneOpen => z.st == .closed
  | .zoneClose => zOpen z
  | .zoneFinish => zActive z
  | .zoneReset => zActive z || z.st == .full
  | .zoneOffline => z.st == .readOnly
  | _ => false

/-- A barrier's records are in the journal: it completes when the last of them is durable. -/
def barrierLogged (o tag : Nat) (s : State) : State :=
  modEntry o (fun e => if e.kind == .barrier then { e with state := .active, lastJ := some (s.xmt.jseq - 1) } else e)
    (modCmd tag (fun x => { x with phase := .moving }) s)

/-- Select All: a barrier (R147) that acts in its turn; Reset and Finish wait until every older write of the domain is
durable. It completes when its records are durable. -/
def zoneAll (c : Cmd) (s : State) : State :=
  let o := c.ord.getD 0
  let ns := cmdNs c.cmd
  let dom := nsDom ns s
  let sel := (nsZones ns s).filter (zoneSel c.cmd.op)
  let acts := c.cmd.op == .zoneReset || c.cmd.op == .zoneFinish
  if !(barrierTurn o ns s) || (acts && frontier dom s != o) then s
  else if c.cmd.op == .zoneOpen && 256 < sel.length + ((nsZones ns s).filter (·.st == .explicit)).length then
    finish c.tag stTooManyOpen s
  else if sel.isEmpty then finish c.tag stOk s
  else
    let s := if c.cmd.op == .zoneOpen then sel.foldl (fun s z => zonesChange o dom ns (zoneOp .zoneOpen) [z] (makeRoom z s)) s
      else zonesChange o dom ns (zoneOp c.cmd.op) sel s
    barrierLogged o c.tag s

/-- One zone: Reset and Finish have acted at their ordinal; the others change the state now. -/
def zoneOne (c : Cmd) (s : State) : State :=
  let ns := cmdNs c.cmd
  if c.cmd.op == .zoneReset || c.cmd.op == .zoneFinish then finish c.tag stOk s
  else
    match zoneTab (zoneIdx ns c.cmd.slba s) s with
    | some z =>
      if !(zoneSendOk c.cmd.op z) then finish c.tag stZoneTransition s
      else
        match (if c.cmd.op == .zoneOpen then openLimit z s else none) with
        | some st => finish c.tag st s
        | none =>
          let s := if c.cmd.op == .zoneOpen then makeRoom z s else s
          finish c.tag stOk (zonesChange noOrd 0xFF ns (zoneOp c.cmd.op) [z] s)
    | none => finish c.tag stLbaRange s

def zoneSend (tag : Nat) (o : NvmeOp) (s : State) : Out :=
  withCmd tag (· == o) (fun c s => if c.cmd.all then zoneAll c s else zoneOne c s) s

def execZoneOpen (tag : Fin 4096) (s : State) : Out := zoneSend tag .zoneOpen s
def execZoneClose (tag : Fin 4096) (s : State) : Out := zoneSend tag .zoneClose s
def execZoneFinish (tag : Fin 4096) (s : State) : Out := zoneSend tag .zoneFinish s
def execZoneReset (tag : Fin 4096) (s : State) : Out := zoneSend tag .zoneReset s
def execZoneOffline (tag : Fin 4096) (s : State) : Out := zoneSend tag .zoneOffline s

/-- A zone in a reporting option of Report Zones. -/
def reported (opt : Nat) (z : Zone) : Bool :=
  match opt with
  | 0 => true | 1 => z.st == .empty | 2 => z.st == .implicit | 3 => z.st == .explicit | 4 => z.st == .closed
  | 5 => z.st == .full | 6 => z.st == .readOnly | 7 => z.st == .offline | _ => false

/-- A zone descriptor at a byte offset: type, state, capacity, start and write pointer (free in the states without
one). -/
def zoneDesc (off : Nat) (z : Zone) (s : State) : List (Nat × Nat × Nat) :=
  let start := zoneNum z s * 65536
  let noWp := z.st == .full || z.st == .readOnly || z.st == .offline
  [(off, 1, 2), (off + 1, 1, zsCode z.st * 16), (off + 8, 8, z.cap), (off + 16, 8, start),
    (off + 24, 8, if noWp then draw (2 ^ 64) s else start + z.fwp)]

/-- Zone Management Receive: Report Zones, with every reporting option, from the zone that holds SLBA on. -/
def execReportZones (tag : Fin 4096) (s : State) : Out :=
  withNs tag .reportZones (fun c x s =>
    let opt := bits c.cmd.cdw13 15 8
    if bits c.cmd.cdw13 7 0 ≠ 0 ∨ 7 < opt then finish c.tag stField s
    else
      let zs := (nsZones (x.nsid - 1) s).filter fun z => reported opt z && c.cmd.slba < zoneNum z s * 65536 + 65536
      let bytes := 4 * (c.cmd.cdw12 % 2 ^ 32 + 1)
      let room := (bytes - 64) / 64
      let shown := zs.take room
      let n := if c.cmd.cdw13.testBit 16 then shown.length else zs.length
      let (p, s) := shown.zipIdx.foldl
        (fun (p, (s : State)) (z, i) => (page p (zoneDesc (64 + 64 * i) z s), s.drawn)) (page 0 [(0, 8, n)], s)
      finish c.tag stOk (giveData c [p % 256 ^ bytes] s)) s

/-! ### Namespace Management and Attachment (R139) -/

/-- The index ranges (Extent Map entries or zones) that namespaces of a kind take. -/
def nsRanges (zoned : Bool) (s : State) : List (Nat × Nat) :=
  (s.hce.ns.filter (·.zoned == zoned)).map fun x => (nsBase (x.nsid - 1) s, if zoned then x.zones else x.size / 1024)

/-- A first index from which n entries are free, below a limit. -/
def freeRun (n limit : Nat) (used : List (Nat × Nat)) : Option Nat :=
  (0 :: used.map fun (b, k) => b + k).find? fun b =>
    b + n ≤ limit && used.all fun (a, k) => b + n ≤ a || a + k ≤ b

/-- The i-th present channel that is not lost. -/
def homeChan (i : Nat) (s : State) : Nat :=
  let l := (channels s).filter fun n => !(s.hce.lostChan.contains n.val)
  if l.isEmpty then 0 else ((l.map (·.val))[i % l.length]?).getD 0

/-- Slots leave the free pool. -/
def takeSlots (l : List (Nat × Nat)) (s : State) : State :=
  s.modXmt fun x => { x with freeSlots := x.freeSlots.filter fun y => !(l.contains y) }

/-- The home of a new extent or zone: the slot of its index in its kind's part of a channel, or the next of sixteen like
places that is free (log 84). -/
def homeSlot (zone : Bool) (k : Nat) (s : State) : Nat × Nat :=
  let l := (List.range 16).map fun i => (homeChan (k + i) s, (if zone then 2 ^ 25 + 64 * k else k) + 2 ^ 26 * i)
  (l.find? fun (c, x) => slotsFree zone c x s).getD (homeChan k s, if zone then 2 ^ 25 + 64 * k else k)

/-- The extents of a new conventional namespace: allocated, reading as zeroes, each with a home slot. -/
def makeExtents (ns base n : Nat) (s : State) : State :=
  (List.range n).foldl (fun s i =>
    let k := base + i
    let (ch, sl) := homeSlot false k s
    takeSlots [(ch, sl)] (mapExtent noOrd 0xFF ns true
      { idx := k, v := true, dealloc := true, mig := false, ns := ns, seq := ((extentAt k s).seq + 1) % 2 ^ 16, ch := ch, sl := sl } s)) s

/-- The zones of a new zoned namespace: Empty; the capacity that firmware takes from the band layout is a free value. -/
def makeZones (ns base n : Nat) (s : State) : State :=
  (List.range n).foldl (fun s i =>
    let k := base + i
    let (ch, sl) := homeSlot true k s
    let cap := draw 65536 s + 1
    let z : Zone := { idx := k, ch := ch, sl := sl, dwp := 0, st := .empty, fwp := 0, ns := ns, cap := cap, mig := false, lastWr := 0 }
    let s := s.drawn.modXmt fun x => { x with zones := x.zones ++ [z], bandCap := x.bandCap.filter (·.1 != k) ++ [(k, cap)] }
    takeSlots (bandSlots true ch sl) (journalZone noOrd 0xFF ns true k s)) s

/-- A namespace created (SEL 0): its size in sectors, its LBA format and protection information, zoned with CSI 2. -/
def nsCreate (c : Cmd) (s : State) : State :=
  let size := c.cmd.payload % 2 ^ 64
  let lbaf := bits c.cmd.payload 211 208
  let pi := bits c.cmd.payload 235 232
  let zoned := bits c.cmd.cdw11 31 24 == 2
  let unit_ := if zoned then 65536 else 1024
  let n := size / unit_
  if size = 0 ∨ size % unit_ ≠ 0 ∨ 3 < lbaf ∨ (lbaf = 0 ∧ pi % 8 ≠ 0) ∨ 3 < pi % 8 ∨ (bits c.cmd.cdw11 31 24 ≠ 0 ∧ !zoned) then finish c.tag stField s
  else
    let limit := if zoned then 1048576 else 33554432
    match lowestFree 64 (s.hce.ns.map fun x => x.nsid - 1), freeRun n limit (nsRanges zoned s) with
    | some k, some base =>
      if zoned && 524288 < n then finish c.tag stCapacity s
      else
        let x : Ns := { nsid := k + 1, zoned := zoned, size := size, lbaf := lbaf, pi := pi, enc := false, kslot := 0, attached := []
                        ready := false, zones := if zoned then n else 0, formatting := false, sanitizing := false
                        registrants := [], resv := none, rgen := 0 }
        let s := setFld .nsbase 0 k 24 0 base (s.modHce fun h => { h with ns := h.ns ++ [x] })
        let s := if zoned then makeZones k base n s else makeExtents k base n s
        finishDw c.tag stOk (k + 1) 0 s
    | _, _ => finish c.tag stCapacity s

/-- What a namespace holds in the tables is freed: extents, runs, zones and keys. -/
def nsFree (ns : Nat) (s : State) : State :=
  let es := s.xmt.extents.filter fun e => e.ns == ns && e.v
  let zs := s.xmt.zones.filter (·.ns == ns)
  let s := es.foldl (fun s e => mapExtent noOrd 0xFF ns true { e with v := false, seq := (e.seq + 1) % 2 ^ 16 } s) s
  let s := (s.xmt.runs.filter (·.ns == ns)).foldl (fun s r => dropRun noOrd 0xFF true r s) s
  let s := zs.foldl (fun s z => journalZone noOrd 0xFF ns true z.idx (modZone z.idx (zoneOp .zoneReset) s)) s
  let s := s.modXmt fun x => { x with zones := x.zones.filter (·.ns != ns) }
  let s := freeSlots (es.map (fun e => (e.ch, e.sl)) ++ zs.flatMap fun z => bandSlots true z.ch z.sl) s
  let s := (s.sec.slots.filter (·.ns == ns)).foldl (fun s x => zeroSlot x.slot s) s
  s.modSec fun c => { c with
    nskey := c.nskey.filter (·.1 != ns), keyRecs := c.keyRecs.filter (·.ns != ns), mediaRecs := c.mediaRecs.filter (·.ns != ns) }

/-- Namespaces deleted (SEL 1): one, or all with NSID 0xFFFF_FFFF, once no I/O command of them is live. -/
def nsDelete (c : Cmd) (s : State) : State :=
  let gone := s.hce.ns.filter fun x => c.cmd.nsid == 0xFFFFFFFF || x.nsid == c.cmd.nsid
  if gone.isEmpty && c.cmd.nsid != 0xFFFFFFFF then finish c.tag stNamespace s
  else if s.hce.cmds.any fun y => opIo y.cmd.op && y.phase != .finished && gone.any fun x => x.nsid == y.cmd.nsid then s
  else if s.lgr.entries.any fun e => gone.any fun x => entryOn (x.nsid - 1) e then s
  else
    let s := gone.foldl (fun s x => nsFree (x.nsid - 1) s) s
    finish c.tag stOk (s.modHce fun h => { h with ns := h.ns.filter fun x => !(gone.any fun y => y.nsid == x.nsid) })

def execNamespaceManagement (tag : Fin 4096) (s : State) : Out :=
  withCmd tag (· == .namespaceManagement) (fun c s =>
    match bits c.cmd.cdw10 3 0 with
    | 0 => nsCreate c s
    | 1 => nsDelete c s
    | _ => finish c.tag stField s) s

/-- The controllers that a controller list names: a 16-bit count, then 16-bit identifiers. -/
def ctrlList (payload : Nat) : List Nat := (List.range (payload % 2 ^ 16)).map fun i => (payload >>> (16 * (i + 1))) % 2 ^ 16

def execNamespaceAttachment (tag : Fin 4096) (s : State) : Out :=
  withNs tag .namespaceAttachment (fun c x s =>
    let l := ctrlList c.cmd.payload
    let sel := bits c.cmd.cdw10 3 0
    if 1 < sel ∨ l.isEmpty ∨ l.any (fun k => !(k = 0 ∨ (k = 1 ∧ s.sys.dualp))) then finish c.tag stField s
    else
      let s := modNs x.nsid (fun y => { y with
        attached := if sel = 0 then l.foldl (fun a k => insertNat k a) y.attached else y.attached.filter fun k => !(l.contains k) }) s
      let s := l.foldl (fun s k => if (sget 0 0x0B (ctrlAt k s).feats).testBit 8 then asyncEvent k 0x040002 s else s) s
      finish c.tag stOk s) s

/-! ### Format NVM (R165) -/

/-- Format NVM as a barrier: in its turn, with every older write of the domain durable, it changes the tables and appends
the FORMAT record. The namespace has its new format, and with SES 1 or 2 its new key, once the record is durable. -/
def execFormatNvm (tag : Fin 4096) (s : State) : Out :=
  withNs tag .formatNvm (fun c x s =>
    let o := c.ord.getD 0
    let ns := x.nsid - 1
    if pdOn 10 s && barrierTurn o ns s && frontier (nsDom ns s) s == o then
      let s := modNs x.nsid (fun y => { y with formatting := true }) s
      let s := formatTables o ns s
      let s := journal o .format (nsDom ns s) ns true [c.cmd.cdw10 % 16, bits c.cmd.cdw10 11 9, bits c.cmd.cdw10 8 5] s
      barrierLogged o c.tag s
    else s) s

/-! ### Sanitize (R110, R166) -/

/-- Bands of a sanitize: extents and zones of the affected namespaces, media-cache bands and free slots, each as
(cache, channel, first slot or first cache sector, slots or sectors). -/
def sanBands (s : State) : List (Bool × Nat × Nat × Nat) :=
  let es := (s.xmt.extents.filter (·.v)).mergeSort fun a b => a.idx ≤ b.idx
  let zs := s.xmt.zones.mergeSort fun a b => a.idx ≤ b.idx
  es.map (fun e => (false, e.ch, e.sl, 1)) ++ zs.map (fun z => (false, z.ch, z.sl, 64)) ++
    (List.range (min 64 (fld .mcsize 0 0 6 0 s) * 256)).map (fun i => (true, 0, i * 1024, 1024)) ++
    (s.xmt.freeSlots.mergeSort fun a b => a.1 < b.1 || (a.1 == b.1 && a.2 ≤ b.2)).map fun (c, sl) => (false, c, sl, 1)

/-- A place on the media lies in a band. A cache band is the same run of cache sectors on every channel. -/
def inBand (b : Bool × Nat × Nat × Nat) (l : Loc) : Bool :=
  match l with
  | .slot c sl _ => !b.1 && c == b.2.1 && b.2.2.1 ≤ sl && sl < b.2.2.1 + b.2.2.2
  | .cache _ i => b.1 && b.2.2.1 ≤ i && i < b.2.2.1 + b.2.2.2

/-- Steps 1 to 3: the dirty data goes, SAN_START is journalled to both places, and the reservoir halves are erased. -/
def sanStart (x : San) (s : State) : State :=
  let s := (s.lgr.entries.filter fun e => lkWrites e.kind && e.state == .buffered).foldl (fun s e => dropEntry e.ord s) s
  let j := s.xmt.jseq
  let s := journal noOrd .sanStart 0xFF 0 true [if x.overwrite then 1 else 2, x.passes, x.bands, maskOf (x.nsids.map (· - 1))] s
  let s := (s.modXmt fun y => { y with san := some x }).modRvr fun r => { r with
    half := Vector.replicate 2 none, sanProg := if fld .rvrCfg 0 0 1 0 s = 0 then none else some (j, 0, 1) }
  s.modHce fun h => { h with
    sanStatus := 2, ns := mapIf (fun y => x.nsids.contains y.nsid) (fun y => { y with sanitizing := true }) h.ns }

/-- Step 5: the tables are reset and SAN_DONE is journalled. -/
def sanTables (x : San) (s : State) : State :=
  let s := x.nsids.foldl (fun s n => formatTables noOrd (n - 1) s) s
  journal noOrd .sanDone 0xFF 0 true [x.bands] s

/-- A Sanitize in its turn: no older command of any namespace has still to complete, and no migration is open. -/
def sanTurn (c : Cmd) (s : State) : Bool :=
  pdOn 10 s && s.xmt.san.isNone && s.xmt.migs.isEmpty && s.hce.ns.all fun x => !(olderLive (c.ord.getD 0) (x.nsid - 1) s)

/-- The record of a sanitize over every namespace. -/
def sanOf (c : Cmd) (overwrite : Bool) (s : State) : San :=
  { overwrite := overwrite, passes := if bits c.cmd.cdw10 7 4 = 0 then 16 else bits c.cmd.cdw10 7 4, pass := 1
    bands := if overwrite then (sanBands s).length else 0, band := 0, nsids := s.hce.ns.map (·.nsid)
    pat := c.cmd.cdw11 % 2 ^ 32, inv := c.cmd.cdw10.testBit 8, doneJ := none }

/-- Overwrite: the command completes when the sanitize has started; firmware asks for SANITIZE leave, and the bands
follow. -/
def execSanitizeOverwrite (tag : Fin 4096) (s : State) : Out :=
  withCmd tag (· == .sanitize) (fun c s =>
    if bits c.cmd.cdw10 2 0 = 3 && sanTurn c s then sanLeave (finish c.tag stOk (sanStart (sanOf c true s) s)) else s) s

/-- Crypto Erase: the keys are replaced in every copy of the key table, which ends it. -/
def execSanitizeCryptoErase (tag : Fin 4096) (s : State) : Out :=
  withCmd tag (· == .sanitize) (fun c s =>
    if bits c.cmd.cdw10 2 0 = 4 && sanTurn c s && mediaUp s then
      let x := sanOf c false s
      let s := x.nsids.foldl (fun s n => replaceKey (n - 1) s) (sanStart x s)
      finish c.tag stOk (sanOver x (sanTables x s))
    else s) s

/-- Every place of a band. -/
def bandLocs (b : Bool × Nat × Nat × Nat) (s : State) : List Loc :=
  let (cache, ch, a, n) := b
  if cache then (channels s).flatMap fun m => (List.range n).map fun i => .cache m.val (a + i)
  else (List.range n).flatMap fun i => (List.range 1024).map fun o => .slot ch (a + i) o

/-- SANITIZE leave is granted (R20). -/
def sanGranted (s : State) : Bool := (grantedTickets s).any (·.cls == 9)

/-- The pattern of a pass. -/
def sanPattern (x : San) : Nat := if x.inv && x.pass % 2 == 0 then 2 ^ 32 - 1 - x.pat else x.pat

/-- A band is overwritten; SAN_BAND goes to both places. -/
def sanBandDone (x : San) (b : Bool × Nat × Nat × Nat) (s : State) : State :=
  let m : MSec := { v := .data (sanPattern x), ns := 0xFF, lba := 0, enc := false, kslot := 0, epoch := 0 }
  let s := s.modXmt fun y => { y with
    media := ((bandLocs b s).map fun l => (l, m)) ++ y.media.filter fun (l, _) => !(inBand b l) }
  let j := s.xmt.jseq
  let s := journal noOrd .sanBand 0xFF 0 true [x.band, x.pass] s
  let s := if fld .rvrCfg 0 0 1 0 s = 0 then s else s.modRvr fun r => { r with sanProg := some (j, x.band + 1, x.pass) }
  s.modXmt fun y => { y with san := some { x with band := x.band + 1 } }

/-- The last band is done: the tables are reset, and the sanitize ends once the last of their records is durable. -/
def sanFinish (x : San) (s : State) : State :=
  let j := (sanTables x s).xmt.jseq - 1
  (sanTables x s).modXmt fun y => { y with san := some { x with doneJ := some j } }

/-- One band under SANITIZE leave, which no pin holds (R151); a pass begins again at the first band; after the last band
of the last pass the tables are reset. -/
def execSanitizeBandDone (s : State) : Out :=
  .next <|
    match s.xmt.san with
    | some x =>
      if x.overwrite && x.doneJ.isNone && xmtUp s && sanGranted s then
        let x : San := if x.bands ≤ x.band && x.pass < x.passes then { x with band := 0, pass := x.pass + 1 } else x
        match (sanBands s)[x.band]? with
        | some b =>
          if x.bands ≤ x.band then sanFinish x s
          else if s.lgr.pins.any fun (l, _) => inBand b l then s
          else
            let s := sanBandDone x b s
            if x.band + 1 = x.bands && x.pass = x.passes then sanFinish { x with band := x.bands } s else s
        | none => sanFinish x s
      else s
    | none => s

end Sys2Proof.Machine
end

