-- ==== Sys2Proof/Machine/Records.lean ====
section
/-!
DEFINITION. EVR, the Event Recorder; LIF, the lifetime counters; CAL, the calendar (17_records_counters_calendar.md).
-/

set_option Elab.async false

namespace Sys2Proof.Machine

open Sys2Proof

/-! ### The event record (R383) -/

/-- The 32 bytes of a record as a number (table Event record). -/
def recWord (e : Event) : Nat :=
  e.seq + (e.usec % 2 ^ 20 + e.sec % 2 ^ 44 * 2 ^ 20) * 2 ^ 64 + e.code * 2 ^ 128 + e.src * 2 ^ 144 + e.flags * 2 ^ 152
    + e.p0.toNat * 2 ^ 160 + e.p1.toNat * 2 ^ 192 + e.p2.toNat * 2 ^ 224

/-- The record that 32 bytes spell. -/
def wordRec (w : Nat) : Event :=
  { seq := bits w 63 0, sec := bits w 127 84, usec := bits w 83 64, code := bits w 143 128, src := bits w 151 144
    flags := bits w 159 152, p0 := BitVec.ofNat 32 (w >>> 160), p1 := BitVec.ofNat 32 (w >>> 192)
    p2 := BitVec.ofNat 32 (w >>> 224) }

/-- A record of the recorder's own, raised now. -/
def ownEvent (code p0 p1 flags : Nat) (s : State) : Event :=
  { seq := 0, sec := s.cal.sec % 2 ^ 44, usec := stampUsec s, code := code, src := 0x15
    flags := flags ||| flag s.clk.onRc 0, p0 := BitVec.ofNat 32 p0, p1 := BitVec.ofNat 32 p1, p2 := 0 }

/-! ### The forward queue of a Candle (R419) -/

/-- The part works as a Candle: VLK_UP runs (R400). -/
def isCandle (s : State) : Bool :=
  pdOn 2 s && fld .vlkCfg 0 0 31 31 s == 1 && s.sys.pers != .factory && !(s.sys.pers == .lantern && s.vlk.root)

/-- An entry of the forward queue; a full queue drops its oldest (R419). -/
def forwardPut (f : Fwd) (s : State) : State :=
  if s.vlk.fwd.length < 64 then s.modVlk fun v => { v with fwd := v.fwd ++ [f] }
  else
    let noted := s.vlk.dropNoted
    let s := s.modVlk fun v =>
      { v with fwd := v.fwd.drop 1 ++ [f], evDrop := min (v.evDrop + 1) (2 ^ 32 - 1), dropNoted := true }
    if noted then s else ev .vlk 0x0F42 s.vlk.evDrop 0 0 s

/-- A stored record is copied to the forward queue when its code area is enabled; codes 0x10xx always are. -/
def forwardStored (e : Event) (s : State) : State :=
  let on := e.code / 256 = 0x10 ∨ (e.code < 0x1000 ∧ (reg .evfwd 0 0 s).testBit (e.code / 256))
  if isCandle s ∧ on then forwardPut { ev := e, origin := s.vlk.ident } s else s

/-! ### Storage (R384-R387, R390) -/

/-- The circulating area keeps one record per slot (R386). -/
def placeRec (e : Event) (s : State) : State :=
  if e.seq < 4096 then
    s.modEvr fun v => { v with founding := v.founding.filter (fun x => x.seq != e.seq) ++ [e] }
  else
    s.modEvr fun v => { v with circ := e :: v.circ.filter fun x => x.seq % 65536 != e.seq % 65536 }

/-- EVR_OLDEST. -/
def evrOldest (s : State) : Nat :=
  match s.evr.circ with
  | [] => s.evr.next
  | e :: t => t.foldl (fun m x => min m x.seq) e.seq

/-- EVR_FLOODCFG.ON and PERCODE; 0 acts as 1. -/
def floodOn (s : State) : Nat := zeroAsOne (fld .evrFloodcfg 0 0 31 16 s)
def floodPerCode (s : State) : Nat := zeroAsOne (fld .evrFloodcfg 0 0 15 8 s)

/-- An event that cannot be stored is lost (R385). -/
def loseEvent (s : State) : State :=
  lifBump 15 1 (s.modEvr fun v =>
    { v with lost := min (v.lost + 1) (2 ^ 32 - 1), lostNow := v.lostNow + 1, lossFlag := true })

/-- The staging area has room, or is not in use. -/
def canStore (s : State) : Bool := !s.evr.opn || s.evr.staged.length < 1024

/-- A record is stored: in the staging area with RENUM while OPEN = 1, else with the next SEQ in its area; it takes the
LOSS and STEP flags that wait, and counts toward the flood period. -/
def storeRec (e : Event) (s : State) : State :=
  if canStore s then
    let e := { e with flags := e.flags ||| flag s.evr.stepFlag 2 ||| flag s.evr.lossFlag 3 }
    let s := s.modEvr fun v => { v with lossFlag := false, stepFlag := false, period := v.period + 1 }
    if s.evr.opn then s.modEvr fun v => { v with staged := { e with flags := e.flags ||| 2 } :: v.staged }
    else
      let e := { e with seq := s.evr.next }
      forwardStored e (placeRec e (s.modEvr fun v => { v with next := v.next + 1 }))
  else loseEvent s

/-- A record is stored, and a flood begins when the count of the period exceeds ON (R387). -/
def storeCount (e : Event) (s : State) : State :=
  let s := storeRec e s
  if s.evr.flood.isNone && floodOn s < s.evr.period then
    let n := s.evr.period
    let s := s.modEvr fun v => { v with
      flood := some { secs := 0, codes := [], shared := 0 }
      lastFlood := some (if v.opn then v.staged.length else v.next) }
    storeRec (ownEvent 0x0E54 n 0 0 s) s
  else s

/-- A suppressed record: counted, not stored. -/
def suppress (s : State) : State := lifBump 15 1 (s.modEvr fun v => { v with lossFlag := true })

/-- A record under the suppression of a flood (R387). -/
def storeEvent (e : Event) (s : State) : State :=
  match s.evr.flood with
  | none => storeCount e s
  | some f =>
    let per := floodPerCode s
    let setFlood := fun g (s : State) => s.modEvr fun v => { v with flood := some g }
    if isReserved e.code then storeCount e s
    else if f.codes.any (fun x => x.1 == e.code) then
      let n := sget 0 e.code f.codes
      let s := setFlood { f with codes := mapIf (fun x => x.1 == e.code) (fun x => (x.1, x.2 + 1)) f.codes } s
      if ((f.codes.find? fun x => x.1 == e.code).map (·.2)).getD n < per then storeCount e s else suppress s
    else if f.codes.length < 32 then storeCount e (setFlood { f with codes := f.codes ++ [(e.code, 1)] } s)
    else
      let s := setFlood { f with shared := f.shared + 1 } s
      if f.shared < per then storeCount e s else suppress s

/-- When the queue has drained, the number lost is recorded (R385). -/
def drained (s : State) : State :=
  if s.evr.queue.isEmpty && s.evr.lostNow != 0 && canStore s then
    let n := s.evr.lostNow
    storeEvent (ownEvent 0x0E51 n 0 0 s) (s.modEvr fun v => { v with lostNow := 0 })
  else s

/-- EVR stores the record at the front of the ingest queue (R384). -/
def execEventStore (s : State) : Out :=
  .next <|
    if heldBlk .evr 0 s then s
    else
      match s.evr.queue with
      | [] => drained s
      | e :: rest => drained (storeEvent e (s.modEvr fun v => { v with queue := rest }))

/-- A 1 s period ends (R387): a flood whose period counts at most ON / 16 ends with its summaries. -/
def execFloodPeriod (s : State) : Out :=
  .next <|
    if heldBlk .evr 0 s then s
    else
      match s.evr.flood with
      | none => s.modEvr fun v => { v with period := 0 }
      | some f =>
        let secs := f.secs + 1
        if s.evr.period ≤ floodOn s / 16 then
          let per := floodPerCode s
          let sup := (f.codes.filter fun x => per < x.2) ++ (if per < f.shared then [(0xFFFF, f.shared)] else [])
          let s := s.modEvr fun v => { v with flood := none, period := 0 }
          let s := sup.foldl (fun s x => storeCount (ownEvent 0x0E55 x.1 (x.2 - per) 16 s) s) s
          storeCount (ownEvent 0x0E56 secs sup.length 0 s) s
        else s.modEvr fun v => { v with flood := some { f with secs := secs }, period := 0 }

/-- EVR_STAT.FILL (R387). -/
def evrFill (s : State) : Bool :=
  match s.evr.lastFlood with
  | some n => !s.evr.opn && n ≤ evrOldest s
  | none => false

/-- EVR_STAT. -/
def evrStat (s : State) : Nat :=
  flag s.evr.opn 31 + flag s.evr.flood.isSome 30 + flag (evrFill s) 29 + s.evr.staged.length % 2 ^ 11 * 2 ^ 16
    + s.evr.founding.length % 2 ^ 13

/-! ### Events raised by firmware (R389) -/

/-- A write of EVR_SWEV. -/
def writeSwev (v : Nat) (s : State) : State :=
  let s := storeFields .evrSwev 0 0 v s
  if v.testBit 31 then
    recordEvent (bits v 23 16) (bits v 15 0) (reg .evrSwp 0 0 s) (reg .evrSwp 0 1 s) (reg .evrSwp 0 2 s) s
  else s

def execEventRaiseSw (_m : Master) (v : Word) (s : State) : Out :=
  .next <| access .evr 0 (Reg.addr .evrSwev 0 0) (writeSwev v.toNat) s

/-! ### Reading: hold registers, cursor and window (R388) -/

/-- A read of EVR_NEXT0: the other registers are held. -/
def readNext0 (s : State) : State :=
  let s := s.modEvr fun v => { v with
    hold := some (v.next / 2 ^ 32, evrOldest s % 2 ^ 32, evrOldest s / 2 ^ 32, evrStat s) }
  { s with busData := s.evr.next % 2 ^ 32 }

def execEvrNextRead (_m : Master) (s : State) : Out :=
  .next <| access .evr 0 (Reg.addr .evrNext 0 0) readNext0 s

/-- The record in the slot that R386 names for a SEQ. -/
def heldRec (q : Nat) (s : State) : Option Event :=
  if q < 4096 then s.evr.founding.find? fun x => x.seq == q else s.evr.circ.find? fun x => x.seq % 65536 == q % 65536

/-- What the cursor names (table Window result): RES, AREA and the record. -/
def windowAt (s : State) : Nat × Nat × Option Event :=
  let c := s.evr.cur
  let q := bits c 61 0
  let area := if q < 4096 then 0 else 1
  if c.testBit 63 then
    if s.evr.opn then
      match s.evr.staged.reverse[bits c 9 0]? with
      | some e => (4, 2, some e)
      | none => (2, 2, none)
    else (3, 2, none)
  else if (if s.evr.opn then s.evr.base ≤ q else s.evr.next ≤ q) then (2, area, none)
  else if !s.evr.opn && 4096 ≤ q && q < evrOldest s then (1, 1, none)
  else
    match heldRec q s with
    | some e => if e.seq = q then (0, area, some e) else (3, area, none)
    | none => (3, area, none)

/-- The window is loaded with what the cursor names. -/
def loadWindow (s : State) : State :=
  let (res, area, e) := windowAt s
  s.modEvr fun v => { v with
    win := match e with | some e => recWord e | none => 0
    winDone := true, winRes := res, winArea := area }

/-- A write of EVR_CUR0 or EVR_CUR1. -/
def writeCur (hi : Bool) (v : Nat) (s : State) : State :=
  if hi then loadWindow (s.modEvr fun e => { e with cur := e.cur % 2 ^ 32 + v % 2 ^ 32 * 2 ^ 32 })
  else s.modEvr fun e => { e with cur := e.cur / 2 ^ 32 * 2 ^ 32 + v % 2 ^ 32 }

def execEvrCursorWrite (_m : Master) (v : Word) (s : State) : Out :=
  .next <| access .evr 0 (Reg.addr .evrCur 0 1) (writeCur true v.toNat) s

/-- A read of EVR_WIN7: with INC the cursor moves on and the next record is loaded. -/
def readWin7 (s : State) : State :=
  let s := { s with busData := bits s.evr.win 255 224 }
  if s.evr.cur.testBit 62 then
    loadWindow (s.modEvr fun e => { e with cur := e.cur / 2 ^ 62 * 2 ^ 62 + (e.cur + 1) % 2 ^ 62 })
  else s

def execEvrWindowAdvance (_m : Master) (s : State) : Out :=
  .next <| access .evr 0 (Reg.addr .evrWin 0 7) readWin7 s

/-- A write of EVR_WINj, which takes effect while OPEN = 1. -/
def writeWin (j v : Nat) (s : State) : State :=
  if s.evr.opn then
    s.modEvr fun e => { e with
      win := e.win - bits e.win (32 * j + 31) (32 * j) * 2 ^ (32 * j) + v % 2 ^ 32 * 2 ^ (32 * j) }
  else s

/-! ### Restoring after POR (R390, R391) -/

/-- A refused restore write: SEQ [31:0] and the reason. -/
def refuseRestore (q reason : Nat) (s : State) : State := blockErrorP .evr 0 0x0E59 (q % 2 ^ 32) (q % 2 ^ 32) reason 0 s

/-- A refused restore write that names no SEQ: parameter 0 is a free value. -/
def refuseNoSeq (reason : Nat) (s : State) : State := refuseRestore (draw (2 ^ 32) s) reason s.drawn

/-- A write of EVR_BASE0 or EVR_BASE1. -/
def writeBase (hi : Bool) (v : Nat) (s : State) : State :=
  let b := s.evr.base
  let new := if hi then b % 2 ^ 32 + v % 2 ^ 32 * 2 ^ 32 else b / 2 ^ 32 * 2 ^ 32 + v % 2 ^ 32
  guarded .evr 0 (Reg.addr .evrBase 0 (if hi then 1 else 0)) true
    (fun s =>
      if !s.evr.opn then refuseNoSeq 3 s
      else if s.evr.stored then refuseNoSeq 0 s
      else s.modEvr fun e => { e with base := new }) s

def execEvrBaseWrite (_m : Master) (hi : Bool) (v : Word) (s : State) : Out :=
  .next <| access .evr 0 (Reg.addr .evrBase 0 (if hi then 1 else 0)) (writeBase hi v.toNat) s

/-- EVR_CMD.STORE (R390). -/
def evrStore (s : State) : State :=
  let e := wordRec s.evr.win
  if !s.evr.opn then refuseRestore e.seq 3 s
  else if s.evr.base ≤ e.seq ∨ (4096 ≤ e.seq ∧ e.seq + 65536 < s.evr.base + 1024) then refuseRestore e.seq 1 s
  else
    match heldRec e.seq s with
    | some x =>
      if x.seq = e.seq then refuseRestore e.seq 2 s else placeRec e (s.modEvr fun v => { v with stored := true })
    | none => placeRec e (s.modEvr fun v => { v with stored := true })

def execEvrStore (_m : Master) (s : State) : Out :=
  .next <| access .evr 0 (Reg.addr .evrCmd 0 0) evrStore s

/-- Staged records take the SEQs from BASE on (R391 step 1). -/
def numberStaged : List Event → Nat → State → State
  | [], _, s => s
  | e :: t, q, s =>
    let e := { e with seq := q }
    numberStaged t (q + 1) (forwardStored e (placeRec e s))

/-- EVR_CMD.COMMIT (R391). -/
def evrCommit (s : State) : State :=
  if !s.evr.opn then refuseNoSeq 3 s
  else
    let st := s.evr.staged.reverse
    let base := s.evr.base
    let s := numberStaged st base s
    let s := s.modEvr fun v => { v with
      next := base + st.length, opn := false, staged := [], lastFlood := v.lastFlood.map (base + ·) }
    storeCount (ownEvent 0x0E50 st.length s.evr.founding.length 0 s) s

def execEvrCommit (_m : Master) (s : State) : Out :=
  .next <| access .evr 0 (Reg.addr .evrCmd 0 0) evrCommit s

/-! ### Lifetime counters (R392-R395) -/

/-- Counters that the hardware advances (table Lifetime counters). -/
def lifHw (i : Nat) : Bool := i ≤ 28 || i == 30 || i == 31 || (232 ≤ i && i ≤ 237)

/-- A write of LIF_ADDGO (R394). -/
def writeAddgo (v : Nat) (s : State) : State :=
  let i := bits v 7 0
  if v.testBit 31 then
    if lifHw i && !s.lif.opn then blockError .lif 0 0x0E52 i s
    else lifBump i (reg .lifAddlo 0 0 s + reg .lifAddhi 0 0 s * 2 ^ 32) s
  else s

def execLifAdd (_m : Master) (v : Word) (s : State) : Out :=
  .next <| access .lif 0 (Reg.addr .lifAddgo 0 0) (writeAddgo v.toNat) s

/-- LIF_CMD.SEAL. -/
def lifSeal (s : State) : State := { s with lif := { s.lif with opn := false } }

def execLifSeal (_m : Master) (s : State) : Out := .next <| access .lif 0 (Reg.addr .lifCmd 0 0) lifSeal s

/-- LIF_SNAP (R395): counters, saturation bits and calendar seconds into the shadows. -/
def lifSnap (s : State) : State :=
  { s with lif := { s.lif with shCnt := s.lif.cnt, shSat := s.lif.sat, shSec := s.cal.sec } }

def execLifSnap (_m : Master) (s : State) : Out := .next <| access .lif 0 (Reg.addr .lifSnap 0 0) lifSnap s

/-- Each wick second the tick counters whose condition holds advance (R393). -/
def execLifTick (s : State) : Out :=
  .next <|
    if heldBlk .lif 0 s then s
    else
      let st := match s.pwr.state with | .lit => 1 | .dim => 2 | .glow => 3 | .dark => 4
      let ids := (if s.sys.railsGood then [0] else []) ++ [st] ++ (if s.thm.warn then [20] else [])
        ++ (if s.thm.throt then [21] else [])
      ids.foldl (fun s i => lifBump i 1 s) s

/-! ### Calendar (R396-R399) -/

/-- A read of CAL_USEC copies the seconds (R396). -/
def readUsec (s : State) : State :=
  { s with cal := { s.cal with hSec := s.cal.sec }, busData := s.cal.usec }

def execCalRead (_m : Master) (s : State) : Out := .next <| access .cal 0 (Reg.addr .calUsec 0 0) readUsec s

/-- CAL_CMD.SET from the SET registers (R397). -/
def calSet (src : Nat) (s : State) : State :=
  let us := fld .calSetusec 0 0 19 0 s
  let sec := reg .calSetsec0 0 0 s + fld .calSetsec1 0 0 15 0 s * 2 ^ 32
  if 999999 < us then blockErrorP .cal 0 0x0E57 us us src 1 s
  else
    let old := s.cal
    let d : Int := ((sec * 1000000 + us : Nat) : Int) - ((old.sec * 1000000 + old.usec : Nat) : Int)
    let step := roundDiv d 1000000
    let s := { s with cal := { old with
      sec := sec, usec := us, src := src % 8, rcSince := false, adjRem := 0, slewFrac := 0 } }
    let s := s.modEvr fun v => { v with
      stepFlag := true
      staged := if v.opn then v.staged.map (fun e => { e with sec := field 44 ((e.sec : Int) + step) }) else v.staged }
    let s := ev .cal 0x0E57 (par (clamp (-2147483648) 2147483647 step)) src 0 s
    match alarmAt s with
    | some a => if a = sec ∧ old.sec ≠ sec then fireAlarm s else s
    | none => s

/-- A write of CAL_CMD. -/
def writeCalCmd (v : Nat) (s : State) : State := if v.testBit 0 then calSet (bits v 6 4) s else s

def execCalSet (_m : Master) (v : Word) (s : State) : Out :=
  .next <| access .cal 0 (Reg.addr .calCmd 0 0) (writeCalCmd v.toNat) s

/-- The SET registers written by a client of the calendar, and SET with its SRC. -/
def calLoad (sec usec src : Nat) (s : State) : State :=
  calSet src (setReg .calSetsec1 0 0 (sec / 2 ^ 32 % 2 ^ 16) (setReg .calSetsec0 0 0 (sec % 2 ^ 32)
    (setReg .calSetusec 0 0 (usec % 2 ^ 20) s)))

/-- CAL_ADJ.GO with an offset in microseconds (R397). -/
def calAdj (off : Int) (s : State) : State :=
  let s := { s with cal := { s.cal with adjRem := off, slewFrac := 0 } }
  if off = 0 then setIrqStat .cal 0 2 s else s

/-- The calendar in nanoseconds. -/
def calNs (s : State) : Nat := (s.cal.sec * 1000000 + s.cal.usec) * 1000

/-- At a root each host Timestamp moves VLK time as R412 moves CAL (R411): loaded beyond 100 ms, slewed beyond 20 us. -/
def rootFollow (s : State) : State :=
  if s.vlk.root && pdOn 2 s && fld .vlkCfg 0 0 31 31 s == 1 then
    let off : Int := (calNs s : Int) - s.vlk.timeNs
    if 100000000 < off.natAbs then s.modVlk fun v => { v with timeNs := calNs s, slewRem := 0, slewFrac := 0 }
    else if 20000 < off.natAbs then s.modVlk fun v => { v with slewRem := roundDiv off 1000, slewFrac := 0 }
    else s
  else s

/-- A write of CAL_ADJ. -/
def writeCalAdj (v : Nat) (s : State) : State :=
  let s := storeFields .calAdj 0 0 v s
  if v.testBit 31 then calAdj (signed 24 v) s else s

def execCalAdjust (_m : Master) (v : Word) (s : State) : Out :=
  .next <| access .cal 0 (Reg.addr .calAdj 0 0) (writeCalAdj v.toNat) s

/-- Time moves on until the slew is complete (R397). -/
def execSlewDone (s : State) : Out :=
  .next <|
    if s.cal.adjRem = 0 then s
    else
      let p := slewPpm s
      elapse ((s.cal.adjRem.natAbs * 1000000 - s.cal.slewFrac + p - 1) / p) s

/-- Time moves on until the seconds equal the alarm (R399). -/
def execCalAlarm (s : State) : Out :=
  .next <|
    match alarmAt s with
    | some a =>
      if s.cal.sec < a then
        let d := a * 1000000 - (s.cal.sec * 1000000 + s.cal.usec)
        let p := slewPpm s
        let r := s.cal.adjRem.natAbs
        let dt :=
          if s.cal.adjRem = 0 then d
          else if s.cal.adjRem < 0 then min (d + r) (d * 1000000 / (1000000 - p) + 1)
          else max (d - r) ((d * 1000000 + 1000000 + p - 1) / (1000000 + p))
        elapse dt s
      else s
    | none => s

end Sys2Proof.Machine
end

