-- ==== Sys2Proof/Machine/HostAdmin.lean ====
section
/-!
DEFINITION. Admin commands: queues, Identify, log pages, features, power states as features, asynchronous events,
firmware images and activation, Device Self-test (06_host_commands.md R113-R115, R140-R145, 04 R80-R82, 16 R370,
19 R427, R428, R431, R432). Layouts of NVMe 2.0 structures that the manual takes as given are PRESUMED (log 21).
-/

set_option Elab.async false

namespace Sys2Proof.Machine

open Sys2Proof

/-! ### Queues (R113) -/

/-- Identifier and size (0-based) of a queue to create. -/
def qid (c : Cmd) : Nat := bits c.cmd.cdw10 15 0
def qsize (c : Cmd) : Nat := bits c.cmd.cdw10 31 16 + 1

/-- A queue identifier is within the pairs granted; a size is within CAP.MQES. -/
def qidOk (c : Cmd) (s : State) : Bool := 1 ≤ qid c && qid c ≤ (ctrlAt c.ctrl s).nq
def qsizeOk (c : Cmd) : Bool := 2 ≤ qsize c && qsize c ≤ 4096

def execCreateIoCq (tag : Fin 4096) (s : State) : Out :=
  withCmd tag (· == .createIoCq) (fun c s =>
    if !(qidOk c s) || ((ctrlAt c.ctrl s).cqs.any fun q => q.id == qid c) then finish c.tag stQueueId s
    else if !(qsizeOk c) then finish c.tag stQueueSize s
    else if 256 < bits c.cmd.cdw11 31 16 then finish c.tag stField s
    else
      let q : Cq := { id := qid c, size := qsize c, head := 0, tail := 0, phase := true, vector := bits c.cmd.cdw11 31 16
                      ien := c.cmd.cdw11.testBit 1, posted := [], coalesced := 0 }
      finish c.tag stOk (s.modCtrl (ctrlIdx c.ctrl) fun x => { x with cqs := x.cqs ++ [q] })) s

def execCreateIoSq (tag : Fin 4096) (s : State) : Out :=
  withCmd tag (· == .createIoSq) (fun c s =>
    let cq := bits c.cmd.cdw11 31 16
    if !(qidOk c s) || ((ctrlAt c.ctrl s).sqs.any fun q => q.id == qid c) then finish c.tag stQueueId s
    else if cq = 0 ∨ !((ctrlAt c.ctrl s).cqs.any fun q => q.id == cq) then finish c.tag stQueueId s
    else if !(qsizeOk c) then finish c.tag stQueueSize s
    else
      let q : Sq := { id := qid c, size := qsize c, head := 0, tail := 0, cq := cq, prio := bits c.cmd.cdw11 2 1, entries := [] }
      finish c.tag stOk (s.modCtrl (ctrlIdx c.ctrl) fun x => { x with sqs := x.sqs ++ [q] })) s

/-- Delete I/O Submission Queue waits until no command of the queue is live. -/
def execDeleteIoSq (tag : Fin 4096) (s : State) : Out :=
  withCmd tag (· == .deleteIoSq) (fun c s =>
    if qid c = 0 ∨ !((ctrlAt c.ctrl s).sqs.any fun q => q.id == qid c) then finish c.tag stQueueId s
    else if s.hce.cmds.any fun x => x.ctrl == c.ctrl && x.sqid == qid c && !x.fromMi && x.phase != .orphan then s
    else finish c.tag stOk (s.modCtrl (ctrlIdx c.ctrl) fun x => { x with sqs := x.sqs.filter (·.id != qid c) })) s

def execDeleteIoCq (tag : Fin 4096) (s : State) : Out :=
  withCmd tag (· == .deleteIoCq) (fun c s =>
    if qid c = 0 ∨ !((ctrlAt c.ctrl s).cqs.any fun q => q.id == qid c) ∨ ((ctrlAt c.ctrl s).sqs.any fun q => q.cq == qid c) then
      finish c.tag stQueueId s
    else finish c.tag stOk (s.modCtrl (ctrlIdx c.ctrl) fun x => { x with cqs := x.cqs.filter (·.id != qid c) })) s

/-! ### Temperatures (R370) -/

/-- A temperature in 0.25 degree units in kelvin, to the nearest, ties away from zero. -/
def kelvin (t : Int) : Nat := (roundDiv (t * 25 + 27315) 100).toNat

/-- Composite temperature, and temperature sensors 1 to 8. -/
def compositeK (s : State) : Nat := kelvin s.thm.maxTemp
def groupK (lo hi : Nat) (s : State) : Nat :=
  kelvin (((List.range (hi + 1 - lo)).map fun i => (vget s.thm.sens (lo + i) {}).temp).foldl max
    (vget s.thm.sens lo {}).temp)
def sensorKs (s : State) : List Nat :=
  [groupK 0 3 s, groupK 4 7 s, groupK 8 13 s, groupK 14 15 s, groupK 16 17 s, groupK 18 19 s, groupK 20 21 s, groupK 22 23 s]

/-- THM_THR fields, degrees. -/
def thrShut (s : State) : Int := signed 8 (fld .thmThr 0 0 31 24 s)
def thrThrot (s : State) : Int := signed 8 (fld .thmThr 0 0 23 16 s)
def thrWarn (s : State) : Int := signed 8 (fld .thmThr 0 0 15 8 s)

/-- The ordering rule of R369. -/
def thrOrdered (warn throt shut : Int) : Bool := decide (-10 ≤ warn) && decide (warn < throt) && decide (throt < shut) && decide (shut ≤ 115)

/-! ### Identify (R113) -/

/-- Values that the behaviour profile in force sets (R431). -/
def profMdts (s : State) : Nat := if s.sys.profActive = 0x0A0 then 8 else 9
def profTo (s : State) : Nat := if s.sys.profActive = 0x0A0 then 6 else 4
def profMtfa (s : State) : Nat := if s.sys.profActive = 0x0B0 then 4 else 6
def profRtl (s : State) : Nat := if s.sys.profActive = 0x0A0 then 500 else 300
def profCap (s : State) : Nat := if s.sys.profActive = 0x0A0 then 128 else 256

/-- The power state descriptors: non-operational, ENLAT and EXLAT of table NVMe power states (R80); in the Lantern
personality PS2 behaves as PS0. Profile 0x0A0 adds 2,000,000 to the latencies of PS3 and PS4 (R431). -/
def psDescriptors (s : State) : List (Nat × Nat × Nat) :=
  let more := if s.sys.profActive = 0x0A0 then 2000000 else 0
  [(0, 0, 0, 0), (1, 0, 1000, 1000), (2, if s.sys.pers == .lantern then 0 else 2, 200000, 1000000),
    (3, 2, 12000000 + more, 15000000 + more), (4, 2, 12000050 + more, 15000100 + more)].flatMap fun (i, nops, en, ex) =>
      [(2048 + 32 * i + 3, 1, nops), (2048 + 32 * i + 4, 4, en), (2048 + 32 * i + 8, 4, ex)]

/-- CAP and VS of a controller (table Controller limits and Identify values; the places of the fields are NVMe 2.0's,
log 21). -/
def nvmeCap (s : State) : Nat :=
  4095 + flag true 16 + 1 <<< 17 + profTo s <<< 24 + flag true 36 + 0x41 <<< 37 + 4 <<< 52
def nvmeVs : Nat := 0x00020000

/-- What an offset in the 64 KiB of BAR0 addresses (R111): the controller registers, the doorbells in steps of 4 bytes, the
MSI-X table of 257 vectors and its pending bits. -/
def barTarget (off : Nat) : BarTarget :=
  if off < 0x1000 then .register off
  else if off < 0x1000 + 8 * 257 then (if off / 4 % 2 = 0 then .sqTail ((off - 0x1000) / 8) else .cqHead ((off - 0x1000) / 8))
  else if 0x8000 ≤ off && off < 0x8000 + 16 * 257 then .msixEntry ((off - 0x8000) / 16) (off / 4 % 4)
  else if 0xC000 ≤ off && off < 0xC000 + 8 * 5 then .msixPending ((off - 0xC000) / 8)
  else .unused

/-- A 64-bit read of a controller register that the manual gives a value: CAP and VS; CSTS shows RDY and NSSRO. -/
def barRegister (p : Fin 2) (off : Nat) (s : State) : Option Nat :=
  match off with
  | 0 => some (nvmeCap s)
  | 8 => some nvmeVs
  | 0x1C => some (flag (ctrlAt p s).rdy 0 + flag (ctrlAt p s).nssro 4)
  | _ => none

/-- The Identify Controller fields of table Controller limits and Identify values. -/
def identifyCtrl (c : Nat) (s : State) : List (Nat × Nat × Nat) :=
  let none_ := noNamespaces s
  [(76, 1, if s.sys.dualp then 3 else 0), (77, 1, profMdts s), (78, 2, c), (80, 4, 0x00020000),
    (256, 2, if none_ then 0x57 else 0x5F), (258, 1, 7), (259, 1, 7), (260, 1, 0x14), (262, 1, 255), (263, 1, 4), (265, 1, 1),
    (266, 2, kelvin (thrWarn s * 4)), (268, 2, kelvin (thrShut s * 4)), (270, 2, profMtfa s), (319, 1, 1), (320, 2, 1), (328, 4, 5),
    (512, 1, 0x66), (513, 1, 0x44), (516, 4, if none_ then 0 else 64), (520, 2, 0xFF), (525, 1, 7), (526, 2, 15),
    (528, 2, 15), (536, 4, 0x80001), (540, 4, if none_ then 0 else 64)] ++
    psDescriptors s

/-- The LBA formats (R124): metadata bytes, 4,096 bytes of data. -/
def lbaFormats : List (Nat × Nat × Nat) := [0, 8, 16, 64].zipIdx.map fun (ms, i) => (128 + 4 * i, 4, ms + 12 * 2 ^ 16)

/-- The Identify Namespace fields that the manual gives. -/
def identifyNs (x : Ns) : List (Nat × Nat × Nat) :=
  [(0, 8, x.size), (8, 8, x.size), (25, 1, 3), (26, 1, x.lbaf), (27, 1, 3), (28, 1, 0x1F), (29, 1, x.pi), (33, 1, 9),
    (40, 2, 0)] ++ lbaFormats

/-- Identify by I/O command set (CNS 05h, 06h): MAR and MOR of a zoned namespace, ZASL of the Zoned set (R113, R133). -/
def identifyZoned (cns : Nat) : List (Nat × Nat × Nat) :=
  if cns = 5 then [(4, 4, 1023), (8, 4, 255)] else [(0, 1, 9)]

/-- A list of numbers of w bytes from an offset on. -/
def listAt (off w : Nat) (l : List Nat) : List (Nat × Nat × Nat) := l.zipIdx.map fun (v, i) => (off + w * i, w, v)

/-- NSIDs above a start, ascending. -/
def nsidList (after : Nat) (p : Ns → Bool) (s : State) : List Nat :=
  if noNamespaces s then []
  else ((s.hce.ns.filter fun x => p x && after < x.nsid).map (·.nsid)).mergeSort fun a b => a ≤ b

/-- Identify: structures of 4,096 bytes by CNS; what the manual leaves to firmware is a free value. -/
def execIdentify (tag : Fin 4096) (s : State) : Out :=
  withCmd tag (· == .identify) (fun c s =>
    let d := draw (256 ^ 4096) s
    let give := fun b fs => finish c.tag stOk (giveData c [page b fs] s.drawn)
    let cns := bits c.cmd.cdw10 7 0
    let ctrls := (if s.sys.dualp then [0, 1] else [0]).filter fun k => bits c.cmd.cdw10 31 16 ≤ k
    match cns with
    | 0 | 0x11 =>
      match nsSeen (cmdNs c.cmd) s with
      | some x => if x.attached.contains c.ctrl || cns = 0x11 then give d (identifyNs x) else give 0 []
      | none => finish c.tag stNamespace s
    | 1 => give d (identifyCtrl c.ctrl s)
    | 5 | 6 => give d (if bits c.cmd.cdw11 31 24 = 2 then identifyZoned cns else [])
    | 2 => give 0 (listAt 0 4 (nsidList c.cmd.nsid (fun x => x.attached.contains c.ctrl) s))
    | 0x10 => give 0 (listAt 0 4 (nsidList c.cmd.nsid (fun _ => true) s))
    | 0x12 =>
      let l := match nsSeen (cmdNs c.cmd) s with | some x => ctrls.filter fun k => x.attached.contains k | none => []
      give 0 ((0, 2, l.length) :: listAt 2 2 l)
    | 0x13 => give 0 ((0, 2, ctrls.length) :: listAt 2 2 ctrls)
    | _ => if cns ≤ 0x1F then give d [] else finish c.tag stField s) s

/-! ### Log pages (R140-R142) -/

/-- Dwords asked for, byte offset, offset type and log-specific parameter of a Get Log Page. -/
def logBytes (c : NvmeCmd) : Nat := 4 * (bits c.cdw10 31 16 + bits c.cdw11 15 0 * 2 ^ 16 + 1)
def logOffset (c : NvmeCmd) : Nat := c.cdw12 % 2 ^ 32 + c.cdw13 * 2 ^ 32
def logSeq (c : NvmeCmd) : Bool := c.cdw14.testBit 23
def logLsp (c : NvmeCmd) : Nat := bits c.cdw10 14 8
def logId (c : NvmeCmd) : Nat := bits c.cdw10 7 0

/-- The part of a page that a command asked for; bytes past its end read 0. -/
def sendLog (c : Cmd) (off : Nat) (p : Nat) (s : State) : State :=
  finish c.tag stOk (giveData c [(p >>> (8 * off)) % 256 ^ logBytes c.cmd] s)

/-- A vendor log page under the checks of R141. -/
def vendorLog (tag id : Nat) (mk : Cmd → State → State × Nat × Nat) (s : State) : Out :=
  withCmd tag (fun o => o == .getLogPage) (fun c s =>
    if logId c.cmd ≠ id then s
    else if c.cmd.nsid ≠ 0 ∧ c.cmd.nsid ≠ 0xFFFFFFFF then finish c.tag stField s
    else if logSeq c.cmd then
      if id = 0xC1 then
        let (s, _, p) := mk c s
        sendLog c 0 p s
      else finish c.tag stField s
    else
      let (s', len, p) := mk c s
      if logOffset c.cmd % 4 ≠ 0 ∨ len ≤ logOffset c.cmd then finish c.tag stField s
      else sendLog c (logOffset c.cmd) p s') s

/-- Guarantee Exceptions held by the Event Recorder, newest first. -/
def heldExceptions (s : State) : List Event :=
  ((s.evr.founding ++ s.evr.circ).filter fun e => e.code / 256 == 0x10).mergeSort fun a b => b.seq ≤ a.seq

def execLogGuaranteeExceptions (tag : Fin 4096) (s : State) : Out :=
  vendorLog tag 0xC0 (fun _ s =>
    let l := (heldExceptions s).take 511
    let newest := match l with | e :: _ => e.seq | [] => 0
    (s, 16384, page 0 ([(0, 8, sget 0 14 s.lif.cnt), (8, 4, l.length), (16, 8, newest)] ++ listAt 32 32 (l.map recWord)))) s

/-- Records of an area in ascending sequence. -/
def areaRecords (founding : Bool) (s : State) : List Event :=
  (if founding then s.evr.founding else s.evr.circ).mergeSort fun a b => a.seq ≤ b.seq

/-- Page 0xC1 of the selected area; the sequence numbers of an empty area are free values. -/
def execLogEventRecorder (tag : Fin 4096) (s : State) : Out :=
  vendorLog tag 0xC1 (fun c s =>
    let f := (logLsp c.cmd).testBit 0
    let all := areaRecords f s
    let want := logOffset c.cmd
    let l := if logSeq c.cmd then all.filter fun e => want ≤ e.seq else all
    let (old, new, s) := match all, all.getLast? with
      | e :: _, some n => (e.seq, n.seq, s)
      | _, _ => (draw (2 ^ 64) s, draw (2 ^ 64) s, s.drawn)
    let gap := logSeq c.cmd && !all.isEmpty && want < old
    (s, 32 + 32 * l.length,
      page 0 ([(0, 8, old), (8, 8, new), (16, 4, l.length), (20, 1, flag f 0), (21, 1, flag gap 0 + flag (evrFill s) 1)] ++
        listAt 32 32 (l.map recWord)))) s

def execLogLifetimeCounters (tag : Fin 4096) (s : State) : Out :=
  vendorLog tag 0xC2 (fun _ s =>
    let s := lifSnap s
    (s, 2112, page 0 ([(0, 8, s.lif.shSec % 2 ^ 48), (8, 32, maskOf s.lif.shSat)] ++
      s.lif.shCnt.map fun (k, v) => (64 + 8 * k, 8, v)))) s

/-- A count that saturates at 32 bits. -/
def sat32 (v : Nat) : Nat := min v (2 ^ 32 - 1)

/-- Page 0xC3: the drive's heads and actuators are its own facts (log 178), the counts those that firmware gathers; a mean of
no decodes is 0. -/
def execLogActuatorHeadHealth (tag : Fin 4096) (s : State) : Out :=
  vendorLog tag 0xC3 (fun _ s =>
    let act := (List.range 4).flatMap fun a =>
      [(32 + 32 * a, 4, sat32 (sget 0 (224 + 2 * a) s.lif.cnt)), (36 + 32 * a, 4, sat32 (healthOf .unloads a s)),
        (40 + 32 * a, 4, sat32 (healthOf .plausibility a s)), (44 + 32 * a, 4, sat32 (sget 0 (225 + 2 * a) s.lif.cnt)),
        (48 + 32 * a, 1, sget 0 a s.hce.actState)]
    let head := (List.range 64).flatMap fun h =>
      let o := 160 + 32 * h
      [(o, 1, Config.headActuator h), (o + 1, 1, sget 0 h s.hce.headState),
        (o + 2, 2, min 0xFFFF (16 * healthOf .iterations h s / zeroAsOne (healthOf .decoded h s))),
        (o + 4, 4, sat32 (healthOf .offline h s)), (o + 8, 4, sat32 (healthOf .grown h s)),
        (o + 12, 4, sat32 (healthOf .unrecovered h s)), (o + 16, 4, sat32 (healthOf .unsafeWrites h s)),
        (o + 20, 4, sat32 (sget 0 (96 + h) s.lif.cnt)), (o + 24, 4, sat32 (sget 0 (160 + h) s.lif.cnt / 3600))]
    (s, 2208, page 0 ([(0, 1, persBit s), (1, 1, (channels s).length), (2, 1, min 64 Config.heads)] ++ act ++ head)))  s

/-- VLK_NODE's fields as page 0xC4 carries them. -/
def nodeWord (s : State) : Nat := s.vlk.ident % 2 ^ 18 + flag (s.sys.pers == .lantern) 24 + flag s.vlk.enr 25

def execLogLeasesPower (tag : Fin 4096) (s : State) : Out :=
  vendorLog tag 0xC4 (fun _ s =>
    let l := s.llt
    let depth := (grantedTickets s).length * 2 ^ 8 + (queuedTickets s).length
    let classes := (List.range 16).flatMap fun c =>
      let x := vget l.counts c {}
      [(96 + 16 * c, 4, x.grants), (100 + 16 * c, 4, x.denials), (104 + 16 * c, 2, x.deadlines), (106 + 16 * c, 2, x.leaseEnds),
        (108 + 16 * c, 1, x.wrap)]
    (s, 352, page 0 ([(0, 4, lltBoard s), (4, 4, l.therm), (8, 4, lltLease s), (12, 4, lltAvail s), (16, 4, lltGranted s),
      (20, 4, reg .lltRsv 0 0 s), (24, 4, fld .vlkFloor 0 0 23 0 s), (28, 4, depth),
      (32, 8, if l.leaseValid then l.leaseExp else 0), (40, 4, nodeWord s)] ++
      listAt 64 8 ((List.range 4).map fun i => sget 0 (1 + i) s.lif.cnt) ++ classes))) s

/-- Page 0xC5: the measurements, and the signed report once it is ready. -/
def execLogAttestationMeasurements (tag : Fin 4096) (s : State) : Out :=
  vendorLog tag 0xC5 (fun _ s =>
    let len := if s.sec.repReady then 14088 else 1088
    let d := if s.sec.repReady then s.sec.report else 0
    (s, len, page (d * 256 ^ 1088) ([(0, 4, len), (4, 2, 1), (6, 1, flag s.sec.repReady 0), (8, 8, s.sec.nseq),
      (16, 32, s.sec.nonce)] ++ listAt 64 64 s.sec.meas.toList))) s

/-- SMART / Health Information: the fields that the manual gives (R139, R370); the others are free values. -/
def smartPage (c : Nat) (s : State) : List (Nat × Nat × Nat) :=
  [(0, 1, (ctrlAt c s).critWarn), (1, 2, compositeK s)] ++ listAt 200 2 (sensorKs s)

/-- Standard log pages: SMART, Firmware Slot, Sanitize Status, Changed Zone List; another page of the NVMe 2.0 set
carries free values. -/
def execGetLogPage (tag : Fin 4096) (s : State) : Out :=
  withCmd tag (· == .getLogPage) (fun c s =>
    let id := logId c.cmd
    let off := logOffset c.cmd
    let free := fun (fs : List (Nat × Nat × Nat)) (s : State) => sendLog c off (page (draw (256 ^ 4096) s) fs) s.drawn
    if 0xC0 ≤ id ∧ id ≤ 0xC5 then s
    else if off % 4 ≠ 0 then finish c.tag stField s
    else if id = 2 then
      sendLog c off (page (draw (256 ^ 512) s) (smartPage c.ctrl s)) s.drawn
    else if id = 3 then free [(0, 1, s.hce.fwActive + s.hce.fwNext * 16)] s
    else if id = 0x81 then
      let (prog, st) := match s.xmt.san with
        | some x => (if x.overwrite then ((x.pass - 1) * x.bands + x.band) * 65536 / zeroAsOne (x.passes * x.bands) else 0, 2)
        | none => (0xFFFF, s.hce.sanStatus)
      free [(0, 2, prog), (2, 2, st)] s
    else if id = 0xBF then
      let l := ((ctrlAt c.ctrl s).changedZones.filter fun x => x.1 == c.cmd.nsid).map (·.2)
      let p := page 0 ([(0, 2, if 511 < l.length then 0xFFFF else l.length)] ++ if 511 < l.length then [] else listAt 8 8 (l.map (· * 65536)))
      sendLog c off p (s.modCtrl (ctrlIdx c.ctrl) fun x => { x with changedZones := x.changedZones.filter fun y => y.1 != c.cmd.nsid })
    else if (1 ≤ id && id ≤ 8) || id = 0 || id = 0x80 then free [] s
    else finish c.tag stField s) s

/-! ### Features (R143-R145) -/

/-- Features of NVMe 2.0 that the part supports beside those with a row of their own (log 7). -/
def stdFeatures : List Nat := [1, 5, 7, 9, 0x0A, 0x0B, 0x0C, 0x0F, 0x11, 0x19, 0x82, 0x83]

/-- Feature identifier and SV of a Set Features; SEL of a Get Features. -/
def fid (c : Cmd) : Nat := bits c.cmd.cdw10 7 0
def featSel (c : Cmd) : Nat := bits c.cmd.cdw10 10 8

/-- A feature value kept with the saved ones when SV is set. -/
def saveFeature (c : Cmd) (v : Nat) (s : State) : State :=
  if c.cmd.cdw10.testBit 31 then s.modHce fun h => { h with saved := sput 0 (fid c) v h.saved } else s

def setCtrl (c : Cmd) (f : Ctrl → Ctrl) (s : State) : State := s.modCtrl (ctrlIdx c.ctrl) f

/-- A Set Features of one identifier. -/
def setFeature (tag id : Nat) (f : Cmd → Nat → State → State) (s : State) : Out :=
  withCmd tag (· == .setFeatures) (fun c s => if fid c = id then f c (c.cmd.cdw11 % 2 ^ 32) s else s) s

/-- Identifiers whose Set has a row of its own. -/
def ownSetRow (id : Nat) : Bool := [2, 4, 6, 8, 0x0E, 0x12, 0xC0, 0xC1, 0xC2, 0xC3].contains id

/-- Number of Queues: pairs granted, up to 256. -/
def grantQueues (v : Nat) : Nat := min 256 (min (v % 2 ^ 16) (v / 2 ^ 16) + 1)

def execSetFeatures (tag : Fin 4096) (s : State) : Out :=
  withCmd tag (· == .setFeatures) (fun c s =>
    let id := fid c
    let v := c.cmd.cdw11 % 2 ^ 32
    let put := fun (k v : Nat) (s : State) => setCtrl c (fun x => { x with feats := sput 0 k v x.feats }) s
    if ownSetRow id then s
    else if !(stdFeatures.contains id) then finish c.tag stField s
    else if id = 7 then
      if v % 2 ^ 16 = 0xFFFF ∨ v / 2 ^ 16 = 0xFFFF then finish c.tag stField s
      else
        let n := grantQueues v
        finishDw c.tag stOk ((n - 1) + (n - 1) * 2 ^ 16) 0 (setCtrl c (fun x => { x with nq := n }) s)
    else
      let s := if id = 9 then put (0x90000 + v % 2 ^ 16) (bits v 16 16) s else put id v s
      let s := if id = 0x0C then put 0xC0000 (c.cmd.payload % 2 ^ 2048) s else s
      let s := if id = 1 then setCtrl c (fun x => { x with ab := v % 8 }) s else s
      let s := if id = 0x0F then setCtrl c (fun x => { x with kato := if v = 0 then none else some (now s + v) }) s else s
      finish c.tag stOk (saveFeature c v s)) s

/-- The value in force of a feature; a capability or default that the manual does not give is a free value. -/
def featValue (c : Cmd) (s : State) : Nat :=
  let x := ctrlAt c.ctrl s
  match fid c with
  | 2 => s.pwr.ps | 6 => flag x.vwc 0 | 8 => x.icThr + x.icTime * 2 ^ 8 | 0x12 => x.rrl
  | 4 => if bits c.cmd.cdw11 21 20 = 0 then (if bits c.cmd.cdw11 19 16 = 0 then x.tempOver else sget 0 (0x40000 + bits c.cmd.cdw11 21 16) x.feats)
         else if bits c.cmd.cdw11 19 16 = 0 then x.tempUnder else sget 0 (0x40000 + bits c.cmd.cdw11 21 16) x.feats
  | 7 => (x.nq - 1) + (x.nq - 1) * 2 ^ 16
  | 9 => c.cmd.cdw11 % 2 ^ 16 + sget 0 (0x90000 + c.cmd.cdw11 % 2 ^ 16) x.feats * 2 ^ 16
  | 1 => sget 0 1 x.feats / 8 * 8 + x.ab
  | 0xC0 => s.hce.rtl | 0xC1 => s.hce.dirtyCap | 0xC2 => fld .vlkFloor 0 0 23 0 s
  | k => sget 0 k x.feats

/-- Default of a feature, where the manual gives one. -/
def featDefault (k : Nat) (s : State) : Option Nat :=
  match k with | 0xC0 => some (profRtl s) | 0xC1 => some (profCap s) | 0xC3 => some 0x0B0 | _ => none

/-- Get Features of an identifier without a row of its own: current, default, saved or the capabilities (bit 0
saveable, bit 2 changeable). -/
def execGetFeatures (tag : Fin 4096) (s : State) : Out :=
  withCmd tag (· == .getFeatures) (fun c s =>
    let id := fid c
    if id = 0x0E ∨ id = 0xC3 then s
    else if !(ownSetRow id || stdFeatures.contains id) then finish c.tag stField s
    else
      match featSel c with
      | 0 => finishDw c.tag stOk (featValue c s) 0 s
      | 1 => match featDefault id s with
        | some v => finishDw c.tag stOk v 0 s
        | none => finishDw c.tag stOk (draw (2 ^ 32) s) 0 s.drawn
      | 2 => match s.hce.saved.find? (fun x => x.1 == id), featDefault id s with
        | some (_, v), _ => finishDw c.tag stOk v 0 s
        | none, some v => finishDw c.tag stOk v 0 s
        | none, none => finishDw c.tag stOk (draw (2 ^ 32) s) 0 s.drawn
      | 3 => if 0xC0 ≤ id then finishDw c.tag stOk 5 0 s else finishDw c.tag stOk (draw 2 s + 4) 0 s.drawn
      | _ => finish c.tag stField s) s

/-! ### Power states (R80-R82) -/

/-- A held Set Features (Power Management) completes with the state reached in Dword 0 bits [4:0]. -/
def psReached (ps : Nat) (s : State) : State :=
  let s := s.modPwr fun p => { p with
    ps := ps, psOper := if ps < 2 || (s.sys.pers == .lantern && ps = 2) then ps else p.psOper
    psUnwound := false, psAuto := none }
  match s.pwr.psHeld with
  | some (t, _) => finishDw t stOk ps 0 (s.modPwr fun p => { p with psHeld := none })
  | none => s

/-- The channels are idle and no head is loaded, as PS2 needs. -/
def channelsParked (s : State) : Bool :=
  (channels s).all fun n => !s.sve[sveOf n].loaded && !s.asq[n].avalid && !s.asq[n].pvalid

/-- PD14-PD17 gated, where they are on (R68: on the IMH9460-D PD16 and PD17 are off in every state). -/
def gateChannels (s : State) : State :=
  s.modPwr fun p => { p with
    pd := (List.range 4).foldl (fun v i => vmod v (14 + i) fun d => if d == .on then .gated else d) p.pd }

/-- Set Features (Power Management): an operational state is reached at once; PS2 when the heads are parked; PS3 and
PS4 when the part state is reached (POWER_STATE_ENTERED). -/
def execSetFeaturesPowerManagement (tag : Fin 4096) (s : State) : Out :=
  setFeature tag 2 (fun c v s =>
    let t := v % 32
    let eff := if s.sys.pers == .lantern && (t = 1 || t = 2) then 0 else t
    if 4 < t then finish c.tag stField (s.modPwr fun p => { p with psHeld := none, psUnwound := false })
    else if s.pwr.psHeld.map (·.1) ≠ some c.tag || s.pwr.psUnwound then s
    else if eff ≤ 1 then (if s.pwr.state == .lit then psReached t s else s)
    else if eff = 2 then (if s.pwr.state == .lit && channelsParked s then psReached 2 (gateChannels s) else s)
    else if (eff = 3 && s.pwr.state == .dim) || (eff = 4 && s.pwr.state == .glow) then psReached eff s
    else s) s

/-! ### Features with rows of their own -/

/-- Timestamp (R145): milliseconds since the epoch in the low 48 bits of the payload. -/
def execSetFeaturesTimestamp (tag : Fin 4096) (s : State) : Out :=
  setFeature tag 0x0E (fun c _ s =>
    let ms := c.cmd.payload % 2 ^ 48
    let s := rootFollow (calLoad (ms / 1000) (ms % 1000 * 1000) 2 s)
    let s := if s.sys.pers == .lantern && s.vlk.root then s.modVlk fun v => { v with timeNs := ms * 1000000 } else s
    finish c.tag stOk s) s

/-- Get Features Timestamp: the calendar, with Synch and Origin (R145, R398). -/
def execGetFeaturesTimestamp (tag : Fin 4096) (s : State) : Out :=
  withCmd tag (· == .getFeatures) (fun c s =>
    if fid c = 0x0E then
      let ms := (s.cal.sec * 1000 + s.cal.usec / 1000) % 2 ^ 48
      let synch := s.cal.rcSince || s.cal.src == 0
      let p := ms + (flag synch 0 + flag (s.cal.src == 2) 1) * 2 ^ 48
      finish c.tag stOk (giveData c [p] s)
    else s) s

def execSetFeaturesVolatileWriteCache (tag : Fin 4096) (s : State) : Out :=
  setFeature tag 6 (fun c v s => finish c.tag stOk (saveFeature c v (setCtrl c (fun x => { x with vwc := v.testBit 0 }) s))) s

def execSetFeaturesInterruptCoalescing (tag : Fin 4096) (s : State) : Out :=
  setFeature tag 8 (fun c v s =>
    finish c.tag stOk (saveFeature c v (setCtrl c (fun x => { x with icThr := bits v 7 0, icTime := bits v 15 8 }) s))) s

/-- Temperature Threshold (R370): the over-temperature threshold of the composite temperature sets WARN. -/
def execSetFeaturesTemperatureThreshold (tag : Fin 4096) (s : State) : Out :=
  setFeature tag 4 (fun c v s =>
    let k := bits v 15 0
    if 1 < bits v 21 20 ∨ (8 < bits v 19 16 ∧ bits v 19 16 ≠ 15) then finish c.tag stField s
    else if bits v 21 20 = 0 ∧ bits v 19 16 = 0 then
      let w : Int := (k : Int) - 273
      if thrOrdered w (thrThrot s) (thrShut s) then
        finish c.tag stOk (saveFeature c v (setFld .thmThr 0 0 15 8 (field 8 w) (setCtrl c (fun x => { x with tempOver := k }) s)))
      else finish c.tag stField s
    else if bits v 19 16 = 0 then finish c.tag stOk (saveFeature c v (setCtrl c (fun x => { x with tempUnder := k }) s))
    else finish c.tag stOk (saveFeature c v (setCtrl c (fun x => { x with feats := sput 0 (0x40000 + bits v 21 16) k x.feats }) s))) s

def execSetFeaturesReadRecoveryLevel (tag : Fin 4096) (s : State) : Out :=
  setFeature tag 0x12 (fun c v s =>
    let l := v % 16
    if l = 0 ∨ l = 4 ∨ l = 15 then finish c.tag stOk (saveFeature c v (setCtrl c (fun x => { x with rrl := l }) s))
    else finish c.tag stField s) s

def execSetFeaturesRecoveryTimeLimit (tag : Fin 4096) (s : State) : Out :=
  setFeature tag 0xC0 (fun c v s =>
    let l := v % 2 ^ 16
    if 10 ≤ l ∧ l ≤ 6000 then finish c.tag stOk (saveFeature c l (s.modHce fun h => { h with rtl := l }))
    else finish c.tag stField s) s

/-- Reservoir capacity in MiB, at most 65,535: one half. -/
def reservoirCapacity (s : State) : Nat := min 65535 (fld .rvrCfg 0 0 31 16 s)

def execSetFeaturesDirtyCap (tag : Fin 4096) (s : State) : Out :=
  setFeature tag 0xC1 (fun c v s =>
    let l := v % 2 ^ 16
    if l ≤ reservoirCapacity s then finish c.tag stOk (saveFeature c l (s.modHce fun h => { h with dirtyCap := l }))
    else finish c.tag stField s) s

def execSetFeaturesLeaseFloor (tag : Fin 4096) (s : State) : Out :=
  setFeature tag 0xC2 (fun c v s =>
    let l := v % 2 ^ 24
    if l ≤ lltBoard s then finish c.tag stOk (walkQueue (setFld .vlkFloor 0 0 23 0 l (saveFeature c l s)))
    else finish c.tag stField s) s

/-- Behaviour Profile (R144, R432): PEND and LOCK, kept with the saved features. -/
def execSetFeaturesBehaviourProfile (tag : Fin 4096) (s : State) : Out :=
  setFeature tag 0xC3 (fun c v s =>
    let p := v % 2 ^ 12
    if s.sys.profLock then finish c.tag stSequence s
    else if p = 0x0A0 ∨ p = 0x0A1 ∨ p = 0x0B0 then
      let s := s.modSys fun y => { y with profPend := p, profLock := y.profLock || v.testBit 31 }
      finish c.tag stOk (s.modHce fun h => { h with saved := sput 0 0xC3 (p + flag (v.testBit 31) 31) h.saved })
    else finish c.tag stField s) s

def execGetFeaturesBehaviourProfile (tag : Fin 4096) (s : State) : Out :=
  withCmd tag (· == .getFeatures) (fun c s =>
    if fid c ≠ 0xC3 then s
    else
      match featSel c with
      | 0 => finishDw c.tag stOk (s.sys.profActive + flag s.sys.profLock 31) 0 s
      | 1 => finishDw c.tag stOk 0x0B0 0 s
      | 2 => finishDw c.tag stOk (s.sys.profPend + flag s.sys.profLock 31) 0 s
      | 3 => finishDw c.tag stOk 5 0 s
      | _ => finish c.tag stField s) s

/-! ### Asynchronous events, Keep Alive, Device Self-test -/

def execAsynchronousEventRequest (tag : Fin 4096) (s : State) : Out :=
  withCmd tag (· == .asyncEventRequest) (fun c s =>
    let x := ctrlAt c.ctrl s
    if 8 ≤ x.aers.length then finish c.tag stAerLimit s
    else
      match x.aens with
      | a :: rest => finishDw c.tag stOk a 0 (setCtrl c (fun x => { x with aens := rest }) s)
      | [] => modCmd c.tag (fun y => { y with phase := .moving }) (setCtrl c (fun x => { x with aers := x.aers ++ [c.tag] }) s)) s

/-- Keep Alive restarts the Keep Alive timer. -/
def execKeepAlive (tag : Fin 4096) (s : State) : Out :=
  withCmd tag (· == .keepAlive) (fun c s =>
    let v := sget 0 0x0F (ctrlAt c.ctrl s).feats
    finish c.tag stOk (setCtrl c (fun x => { x with kato := if v = 0 then none else some (now s + v) }) s)) s

/-- Device Self-test: 1 short, 2 extended, 0xE vendor specific, 0xF abort. -/
def execDeviceSelfTest (tag : Fin 4096) (s : State) : Out :=
  withCmd tag (· == .deviceSelfTest) (fun c s =>
    let k := c.cmd.cdw10 % 16
    if k = 1 ∨ k = 2 ∨ k = 0xE then finish c.tag stOk (s.modHce fun h => { h with dst := k })
    else if k = 0xF then finish c.tag stOk (s.modHce fun h => { h with dst := 0 })
    else finish c.tag stField s) s

/-! ### Firmware images (R343, R427, R428) -/

/-- The result code of a boot image's checks (R343): 1 when every one passes. -/
def bootResult (typ : Nat) (img : BootImage) (s : State) : Nat :=
  if !img.wellFormed || img.typ != typ then 2
  else if !(umwynSigned 0 img.sig s || ownerSigned img.sig s) then 3
  else if img.svn < s.sec.svn then 4
  else if !(img.persMask.testBit (persBit s)) then 5
  else if img.enc && !img.tagOk then 3
  else 1

def execFirmwareImageDownload (tag : Fin 4096) (s : State) : Out :=
  withCmd tag (· == .firmwareImageDownload) (fun c s =>
    let piece := (4 * (c.cmd.cdw11 % 2 ^ 32), 4 * (c.cmd.cdw10 % 2 ^ 32 + 1))
    finish c.tag stOk (s.modHce fun h => { h with fwDl := h.fwDl ++ [piece] })) s

/-- Commit action and slot of a Firmware Commit; slot 0 leaves the choice to the part, which takes the slot that is not
active. -/
def fwAction (c : Cmd) : Nat := bits c.cmd.cdw10 5 3
def fwSlot (c : Cmd) (s : State) : Nat :=
  let k := bits c.cmd.cdw10 2 0
  if k = 0 then (if s.hce.fwActive = 1 then 2 else 1) else k

/-- Firmware Commit, actions 0 to 2: the image is stored in a slot, stored and activated at the next reset, or the
slot's image is. -/
def execFirmwareCommit (tag : Fin 4096) (img : BootImage) (s : State) : Out :=
  withCmd tag (· == .firmwareCommit) (fun c s =>
    let a := fwAction c
    let k := fwSlot c s
    let store := fun (s : State) => s.modHce fun h => { h with fwSlots := vmod h.fwSlots (k - 1) (fun _ => img.digest), fwDl := [] }
    let next := fun (s : State) => s.modHce fun h => { h with fwNext := k }
    if a = 3 then s
    else if 3 < a then finish c.tag stField s
    else if 2 < k then finish c.tag stFwSlot s
    else if a = 2 then
      if vget s.hce.fwSlots (k - 1) 0 = 0 then finish c.tag stFwImage s else finish c.tag stOk (next s)
    else if s.hce.fwDl.isEmpty ∨ bootResult 1 img s ≠ 1 then finish c.tag stFwImage s
    else finish c.tag stOk (if a = 1 then next (store s) else store s)) s

/-- Every present sequencer is idle with its results collected (step 4 of the activation). -/
def seqsIdle (s : State) : Bool :=
  (channels s).all fun n => !s.asq[n].avalid && !s.asq[n].pvalid && s.asq[n].phase == .idle && s.asq[n].results.isEmpty

/-- R427's preconditions for the pause, beside the image's own checks. -/
def pauseAllowed (s : State) : Bool := !s.rvr.commit && !s.rvr.replay && s.sec.restored

/-- The activation runs through: register 7, lifetime counter 29, the slot becomes active. -/
def activate (tag k : Nat) (img : BootImage) (s : State) : State :=
  let s := lifBump 29 1 (extendMeas 7 img.digest s)
  let s := s.modSys fun y => { y with fwPause := none }
  finish tag stOk (s.modHce fun h => { h with fwActive := k })

/-- Firmware Commit, action 3 (R427): the pause begins when its preconditions hold, and the image is activated once
every sequencer is idle. -/
def execFirmwareActivation (tag : Fin 4096) (img : BootImage) (s : State) : Out :=
  withCmd tag (· == .firmwareCommit) (fun c s =>
    let k := fwSlot c s
    if fwAction c ≠ 3 then s
    else if 2 < k then finish c.tag stFwSlot s
    else
      match s.sys.fwPause with
      | some (_, t, _) => if t = c.tag && seqsIdle s then activate c.tag k img s else s
      | none =>
        if bootResult 1 img s ≠ 1 then finish c.tag stFwImage s
        else if !(pauseAllowed s) then s
        else if seqsIdle s then activate c.tag k img s
        else s.modSys fun y => { y with fwPause := some (k, c.tag, now s) }) s

/-- The sequencers are not idle 100 ms after the start of the pause (R428). -/
def execActivationPauseTimeout (s : State) : Out :=
  .next <|
    match s.sys.fwPause with
    | some (k, t, at_) =>
      if seqsIdle s then s
      else
        let s := advanceTo ((at_ + 100) * 1000) s
        let s := ev .hce 0x0150 k 0 0 (s.modSys fun y => { y with fwPause := none })
        finish t stInternal (s.modHce fun h => { h with fwNext := k })
    | none => s

end Sys2Proof.Machine
end

