-- ==== Sys2Proof/Machine/Reset.lean ====
section
/-!
DEFINITION. What a reset clears and keeps (R102), the cold start of the core domain (R92-R95, R101), DARK (R77) and the
power-on reset of the wick (R91) (05_startup_and_reset.md, 04_power_wick_lamplighter.md).
-/

set_option Elab.async false

namespace Sys2Proof.Machine

open Sys2Proof

/-! ### What a core-domain reset keeps (R102) -/

/-- Blocks of PD0: they keep their state through every reset but POR. -/
def wickBlks : List Blk := [.wck, .llt, .cal, .lif, .evr, .sup]

/-- An address of a page of the wick blocks. -/
def wickAddr (a : Nat) : Bool :=
  wickBlks.any fun b => decide (b.base 0 ≤ a) && decide (a < b.base 0 + b.row.pages * 0x1000)

/-- An address of XMT_NSDOMk or XMT_NSBASEk: the mapping is part of the checkpoint and survives every reset (R146; the
bases that the tables of the checkpoint are numbered by with it, log 179). -/
def domAddr (a : Nat) : Bool :=
  (List.range 64).any fun k => a == Reg.addr .nsdom 0 k || a == Reg.addr .nsbase 0 k

/-- An address of the wick SRAM. -/
def wickSram (a : Nat) : Bool := decide (0x60000000 ≤ a) && decide (a < 0x60280000)

/-- Header sources of the wick blocks. -/
def wickHdr (h : Nat) : Bool := wickBlks.any fun b => b.hdr 0 == h

/-- A header of PD0 through a core-domain reset: its state stays (R102), ERR_CNT is cleared (R33), LOCKED with its count
of wrong words too (R37), and FREEZE, whose unlock is gone (R35). -/
def Hdr.coreReset (h : Hdr) : Hdr := { h with errCnt := 0, locked := false, wrongWords := 0, freeze := false }

/-- SYS after the core domain has been reset: straps, causes, the profile and the repair map stay. -/
def sysAfter (y : Sys) : Sys :=
  { variant := y.variant, strapPers := y.strapPers, strapDualp := y.strapDualp, strapBoot := y.strapBoot
    pers := y.pers, dualp := y.dualp, boot := y.boot, aux := y.aux, railsGood := y.railsGood, rstCause := y.rstCause
    pendCause := y.pendCause, seq := y.seq, resetNLow := y.resetNLow, held := y.held, profLock := y.profLock
    profPend := y.profPend, profActive := y.profPend, repairMap := y.repairMap }

/-- LLT after it: the tickets, the queue and the ports are cleared and the classes open (R90); budgets, lease and counts
stay. -/
def lltAfter (l : Llt) : Llt :=
  { therm := l.therm, leaseValid := l.leaseValid, leaseMw := l.leaseMw, leaseExp := l.leaseExp
    gens := l.tickets.foldl (fun g t => sput 0 t.num ((t.gen + 1) % 256) g) l.gens, order := l.order
    episode := l.episode, counts := l.counts }

/-- A sanitize survives a reset once its SAN_START is in one of its two journals (R110, R166). -/
def sanKept (s : State) : Bool :=
  s.rvr.sanProg.isSome || s.xmt.journal.any fun r => isSan r.typ && recDurable r s

/-- A namespace after it: not ready, no registrant and no reservation; a Format whose record is not durable has not
happened (R165). -/
def nsAfter (san : Bool) (x : Ns) : Ns :=
  { x with ready := false, registrants := [], resv := none, formatting := false, sanitizing := x.sanitizing && san }

/-- A saved feature value, or its default. -/
def savedOr (f d : Nat) (h : Hce) : Nat := sget d f h.saved

/-- A controller after it, with the saved features; the level of its PERST# pin stays, and CSTS.NSSRO shows an NVM
subsystem reset. -/
def ctrlAfter (nssr : Bool) (h : Hce) (x : Ctrl) : Ctrl :=
  let d : Ctrl := {}
  { perst := x.perst, nssro := nssr
    vwc := (savedOr 6 (if d.vwc then 1 else 0) h).testBit 0
    icThr := bits (savedOr 8 0 h) 7 0, icTime := bits (savedOr 8 0 h) 15 8
    rrl := bits (savedOr 0x12 d.rrl h) 3 0 }

/-- HCE after it: the namespaces, the saved features, the firmware slots and what firmware keeps in non-volatile storage
stay (a log of the firmware's stored configuration is no part of the controller's registers). -/
def hceAfter (s : State) : Hce :=
  let h := s.hce
  { ctrl := h.ctrl.map (ctrlAfter (s.sys.seq == .nssr) h)
    ns := h.ns.map (nsAfter (sanKept s))
    rtl := savedOr 0xC0 (if s.sys.profPend = 0x0A0 then 500 else 300) h
    dirtyCap := savedOr 0xC1 (if s.sys.profPend = 0x0A0 then 128 else 256) h
    saved := h.saved, fwSlots := h.fwSlots
    fwActive := if h.fwNext = 0 then h.fwActive else h.fwNext
    sanStatus := if h.sanStatus = 2 && !(sanKept s) then 0 else h.sanStatus, vpd := h.vpd, headState := h.headState, actState := h.actState
    health := h.health
    lostChan := h.lostChan.filter fun n => !(s.sys.chanNotStarted.contains n) }

/-- XMT after it: what lies on the media and in the reservoir stays; the tables in DDR5 are lost. -/
def xmtAfter (san : Bool) (x : Xmt) : Xmt :=
  { media := x.media, torn := x.torn, journal := x.journal.filter (·.durable), ckpt := x.ckpt, ckPrev := x.ckPrev, freeSlots := x.freeSlots
    bandCap := x.bandCap, fmtDone := x.fmtDone, san := if san then x.san else none }

/-- RVR after it: the two halves and the sanitize progress area. -/
def rvrAfter (r : Rvr) : Rvr := { half := r.half, sanProg := r.sanProg }

/-- The security state after it: fuses, stored records and credentials, and what the wick holds. -/
def secAfter (c : Sec) : Sec :=
  { users := c.users.map fun u => { cred := u.cred, nsmask := u.nsmask }
    part := c.part, l2pend := c.l2pend, svn := c.svn, epoch := c.epoch, alarms := c.alarms, encdis := c.encdis
    okey := c.okey, ukey := c.ukey, policy := c.policy, policyNext := c.policyNext, noUnwrap := c.noUnwrap
    devid := c.devid, nseq := c.nseq, keyRecs := c.keyRecs, mediaRecs := c.mediaRecs, armFrom := c.armFrom
    snuffed := c.snuffed, snuffAt := c.snuffAt, alarmDue := c.alarmDue, wiped := c.wiped }

/-- The spindle after it: undriven; the rotor turns on as it did. -/
def spnAfter (v : Spn) : Spn := { vmot := v.vmot, vin := v.vin, turning := v.turning }

/-- The core domain is reset and its domains are unpowered (R102). A commit that was running is cut off: COMMITFAIL
(R103, R108). -/
def coreReset (s : State) : State :=
  { pending := s.pending, us := s.us, busData := s.busData, busErr := s.busErr, free := s.free
    regs := s.regs.filter fun x => wickAddr x.1 || domAddr x.1
    mem := s.mem.filter fun x => wickSram x.1
    hdr := Vector.ofFn fun (i : Fin 77) => if wickHdr i then s.hdr[i].coreReset else {}
    sys := { sysAfter s.sys with
      pendCause := if s.rvr.commit then s.sys.pendCause &&& 0xFFFFFBFF ||| 0x800 else s.sys.pendCause }
    clk := { xo40failed := s.clk.xo40failed, onRc := s.clk.onRc, xo32decided := s.clk.xo32decided }
    pwr := { active := s.pwr.active, wakeSrc := s.pwr.wakeSrc, wakeTime := s.pwr.wakeTime }
    llt := lltAfter s.llt
    hce := hceAfter s
    xmt := xmtAfter (sanKept s) s.xmt
    rvr := rvrAfter s.rvr
    spn := spnAfter s.spn
    sec := secAfter s.sec
    thm := { wickValid := s.thm.wickValid, wickTemp := s.thm.wickTemp }
    sup := { bad := s.sup.bad }
    evr := s.evr, lif := s.lif, cal := s.cal, tpe := { noParity := s.tpe.noParity } }

/-! ### The cold start (R92-R95) -/

/-- Power domains of a started core domain: on, but for those fused off (R68) and those a Lantern holds off (R2). -/
def pdStarted (s : State) : Vector PdState 22 :=
  Vector.ofFn fun (d : Fin 22) =>
    if s.sys.variant == .d && (d.val == 16 || d.val == 17 || d.val == 20 || d.val == 21) then .off
    else if s.sys.pers == .lantern && 13 ≤ d.val then .off
    else .on

/-- Straps are sampled at the release that follows a POR or a DARK wake (R1, R48); BOOT 2 and 3 act as 0, and event
0x0E02 is recorded. -/
def sampleStraps (env : BootEnv) (s : State) : State :=
  if s.sys.pendCause.getLsbD 0 || s.sys.pendCause.getLsbD 1 then
    let s := s.modSys fun y => { y with
      strapPers := env.pers, strapDualp := env.dualp, strapBoot := env.boot % 4
      pers := env.pers, dualp := env.dualp, boot := env.boot % 4 }
    if 2 ≤ env.boot % 4 then ev .sys 0x0E02 (env.boot % 4) 0 0 s else s
  else s

/-- The owner policy stored for this reset takes effect (R352, R363): a change of the mode is refused with 0x0B80 on the D
variant, and while a slot is VALID or LOST, as one is once the key table holds a record: the restore makes it so (log
187). -/
def applyPolicy (s : State) : State :=
  let p := s.sec.policyNext
  let held := !s.sec.slots.isEmpty || !s.sec.keyRecs.isEmpty || !s.sec.mediaRecs.isEmpty
  let refuse := (p.part && s.sys.variant == .d) || (p.part != s.sec.part && held)
  let part := if refuse then s.sec.part else p.part
  let s := s.modSec fun c => { c with policy := p, part := part }
  let s := { s with cst := { s.cst with openEn := p.openRegion } }
  if refuse then ev .cip 0x0B80 (draw 256 s) (draw 8 s) 0 s.drawn else s

/-- What measurement register 0 is extended with, as one number: personality, straps and the fuse configuration (table
Measurement register assignment); its encoding is free. -/
def measureStart (s : State) : State :=
  let d := draw (2 ^ 512) s
  extendMeas 5 s.sys.profActive (extendMeas 0 d s.drawn)

/-- The lifetime counters that the bits of SYS_RSTCAUSE advance at a release (R392): bit, counter. -/
def causeCounters : List (Nat × Nat) := [(0, 5), (1, 6), (2, 7), (4, 8), (3, 9), (5, 10), (11, 13)]

/-- The causes of a release counted. -/
def countCauses (cause : Word) (s : State) : State :=
  causeCounters.foldl (fun s (b, i) => if cause.getLsbD b then lifBump i 1 s else s) s

/-- Step 1: the domain leaves reset, SYS_RSTCAUSE is written and event 0x0E01 recorded (R101). -/
def releaseCore (env : BootEnv) (s : State) : State :=
  let s := sampleStraps env s
  let cause := s.sys.pendCause
  let s := s.modSys fun y => { y with rstCause := cause, pendCause := 0, coreUp := true, held := false, seq := .none }
  let s := s.modPwr fun p => { p with pd := pdStarted s, state := .lit, target := .lit, phase := .settled }
  let s := { s with clk := { s.clk with xo40ok := !s.clk.xo40failed } }
  measureStart (applyPolicy (ev .sys 0x0E01 cause.toNat 0 0 (countCauses cause s)))

/-- A BIST failure that repair does not cover: event 0x0A01 with the array (R95). -/
def bistEvent (array : Nat) (s : State) : State :=
  ev .sys 0x0A01 array 0 0 (s.modSys fun y => { y with bistf := min 255 (y.bistf + 1) })

/-- The same for an array whose index the manual leaves to the ROM release notes. -/
def bistEventFree (s : State) : State := bistEvent (draw 1024 s) s.drawn

/-- Step 3: BIST failures by array (R95). -/
def bistResults (env : BootEnv) (s : State) : State :=
  let s := env.bistSram.foldl (fun s a => bistEvent a s) s
  let s := env.bistWays.foldl (fun s w => disableWay w 2 [] (bistEventFree s)) s
  env.bistTcm.foldl (fun s n =>
    let s := (bistEventFree s).modSys fun y => { y with chanNotStarted := insertNat n y.chanNotStarted }
    loseChannel n s) s

/-- The firmware that an image brings in is measured (table Measurement register assignment): second-stage images, and the
T-core images but in the Lantern personality, each with a free digest (log 188). -/
def measureStage (s : State) : State :=
  let s := extendMeas 2 (draw (2 ^ 512) s) s.drawn
  if s.sys.pers == .lantern then s else extendMeas 3 (draw (2 ^ 512) s) s.drawn

/-- An image that verified is started (steps 5 and 6): its digest is measured and the A-cores are released; firmware sets
VLK_FLOOR to a saved Lease Floor (R143). -/
def startImage (slot : Nat) (img : BootImage) (s : State) : State :=
  let s := measureStage (deriveKeys (extendMeas 1 img.digest s))
  let s := s.modSec fun c => { c with imgSvn := img.svn, imgDigest := img.digest }
  let s := match s.hce.saved.find? (·.1 == 0xC2) with | some (_, v) => setFld .vlkFloor 0 0 23 0 v s | none => s
  s.modSys fun y => { y with stage := 4, slot := slot, acoresUp := true, uartWait := false }

/-- The result of a slot: one that cannot be read has code 2. -/
def slotResult (img : Option BootImage) (s : State) : Nat :=
  match img with | some i => bootResult 1 i s | none => 2

/-- Secure boot from the slots (R93, R94). -/
def bootSlots (env : BootEnv) (s : State) : State :=
  let a := slotResult env.slotA s
  let s := s.modSys fun y => { y with ares := a }
  match env.slotA, a with
  | some i, 1 => startImage 1 i s
  | _, _ =>
    let s := ev .tru 0x0B10 a 0 0 s
    let b := slotResult env.slotB s
    let s := s.modSys fun y => { y with bres := b }
    match env.slotB, b with
    | some i, 1 => startImage 2 i s
    | _, _ => (ev .tru 0x0B12 0 0 0 (ev .tru 0x0B11 b 0 0 s)).modSys fun y => { y with uartWait := true }

/-- The cold start from step 1 to the release of the A-cores (R92). -/
def coldStart (env : BootEnv) (s : State) : State :=
  let s := releaseCore env s
  if !env.fuseOk then (ev .tru 0x0B13 0 0 0 s).modSys fun y => { y with startStopped := true }
  else
    let s := setFld .pllen 0 0 3 3 1 (s.modSys fun y => { y with stage := 1 })
    let s := trainLink 1 (trainLink 0 s)
    let s := bistResults env s
    if !env.bistSram.isEmpty then s.modSys fun y => { y with startStopped := true }
    else
      let s := s.modSys fun y => { y with stage := 2 }
      if s.sys.boot = 1 then s.modSys fun y => { y with uartWait := true, slot := 3 } else bootSlots env s

/-- The core domain starts, or is held while RESET_N is low (step 7 of the RESET_N sequence). -/
def startCore (env : BootEnv) (s : State) : State :=
  if s.sys.resetNLow then
    (s.modSys fun y => { y with held := true, seq := .resetN }).modPwr fun p => { p with state := .lit, target := .lit }
  else coldStart env s

/-- A recovery image over the UART (R94): verified and started under the same rules. -/
def execUartRecoveryImage (img : BootImage) (s : State) : Out :=
  .next <|
    if s.sys.uartWait && pdOn 1 s then
      if bootResult 2 img s = 1 then startImage 3 img s else s
    else s

/-! ### DARK (R77) -/

/-- The security core zeroes KST slot RAM for a power-down; the detectors are disarmed (R355). -/
def zeroForPowerDown (s : State) : State := (dropLinks (zeroKst s)).modSec fun c => { c with armFrom := none }

/-- PD1-PD21 are switched off (R77): the state of the core domain is lost, and a reset sequence that ran or held it has
ended. -/
def darkEntry (rails critical : Bool) (s : State) : State :=
  let s := coreReset (zeroForPowerDown s)
  let s := s.modSys fun y => { y with
    held := false, seq := .none, pendCause := y.pendCause ||| 2 ||| (if rails then 0x20 else 0) }
  s.modPwr fun p => { p with state := .dark, target := .dark, phase := .settled, darkRails := rails, darkCritical := critical }

/-! ### The wick (R91) -/

/-- Every register of the wick at its reset value, and the core domain without power. What lies in fuses, on the media,
in the reservoir and in the boot NOR stays. -/
def wickReset (aux : Bool) (s : State) : State :=
  let s := coreReset s
  { s with
    us := 0, regs := s.regs.filter (fun x => domAddr x.1), mem := [], hdr := Vector.replicate 77 {}
    sys := { s.sys with
      pers := .magnetic, dualp := false, boot := 0, aux := aux, railsGood := false, rstCause := 0
      pendCause := s.sys.pendCause &&& 0xC00 ||| 1, seq := .none, resetNLow := false, held := false }
    clk := {}
    pwr := if aux then {} else { pd := Vector.replicate 22 .off }
    llt := {}, thm := {}, sup := {}, evr := {}, lif := {}, cal := {}
    sec := { s.sec with l2pend := false, noUnwrap := false, armFrom := none, snuffed := false, alarmDue := none } }

def execPor (s : State) : Out := .next (wickReset true s)

/-- VDD_AUX33 is lost (R102): the wick loses its state until the next POR. -/
def execVddAux33Loss (s : State) : Out := .next (wickReset false s)

end Sys2Proof.Machine
end

