-- ==== Sys2Proof/Machine/Power.lean ====
section
/-!
DEFINITION. Clocks (R72-R75), the power states, their entry, unwinding and wake (R68-R71, R76-R79), and the restart of
an NVMe power-state entry (R81) (04_power_wick_lamplighter.md).
-/

set_option Elab.async false

namespace Sys2Proof.Machine

open Sys2Proof

/-! ### Clocks (R72-R74) -/

/-- The source of a clock domain in operation, as a SRC code (table Clock domains). -/
def clkTable (k : Nat) : Nat :=
  if k < 2 then 7
  else if k = 2 then 0
  else if k ≤ 6 ∨ (8 ≤ k ∧ k ≤ 11) then 1
  else if 16 ≤ k ∧ k ≤ 19 then 4
  else if 25 ≤ k ∧ k ≤ 27 then 3
  else if 33 ≤ k ∧ k ≤ 44 then 6
  else if k = 63 then 5
  else 2

/-- The PLL behind a SRC code in domain k: 0-3 PLL_A, S, D, P; 4-7 PLL_C0-3. -/
def pllOf (k src : Nat) : Option Nat :=
  match src with
  | 1 => some 0 | 2 => some 1 | 3 => some 2 | 4 => some 3
  | 6 => some (4 + (k - 33) / 3)
  | _ => none

/-- A PLL is locked. -/
def pllLock (i : Nat) (s : State) : Bool := if i < 4 then vget s.clk.lock i false else vget s.clk.lockC (i - 4) false

/-- A LOCK bit set or cleared. -/
def setLock (i : Nat) (b : Bool) (s : State) : State :=
  if i < 4 then { s with clk := { s.clk with lock := vmod s.clk.lock i fun _ => b } }
  else { s with clk := { s.clk with lockC := vmod s.clk.lockC (i - 4) fun _ => b } }

/-- A source that CLK_DOMk.SRC may name (R73). -/
def clkSrcOk (k src : Nat) (s : State) : Bool :=
  if src = 0 then frcCapable k
  else
    src == clkTable k &&
      match pllOf k src with
      | some i => pllLock i s
      | none => true

/-- A write of CLK_DOMk. -/
def writeClkDom (k v : Nat) (s : State) : State :=
  if k < 2 ∨ !(clkSrcOk k (bits v 11 8) s) then blockError .clk 0 0x0E13 k s else storeFields .clkDom 0 k v s

def execClkDomWrite (_m : Master) (k : Fin 64) (v : Word) (s : State) : Out :=
  .next <| access .clk 0 (Reg.addr .clkDom 0 k) (writeClkDom k v.toNat) s

/-- A PLL may lock: it is enabled, and its reference is there (R72, R75). -/
def pllCanLock (i : Nat) (s : State) : Bool :=
  if i = 3 then fld .pllen 0 0 3 3 s == 1
  else if i < 3 then fld .pllen 0 0 i i s == 1 && s.clk.xo40ok
  else chanExists (i - 4) s && s.clk.xo40ok

/-- A PLL locks. With PLL_D firmware takes the DRAM out of self-refresh (table Wake from GLOW). -/
def execPllLocked (i : Fin 8) (s : State) : Out :=
  .next <|
    if pdOn 2 s && pllCanLock i s && !(pllLock i s) then
      let s := setLock i true s
      if i = 2 then refreshEnds s else s
    else s

/-- The domain is fed by a PLL. -/
def fedBy (i k : Nat) (s : State) : Bool :=
  2 ≤ k && fld .clkDom 0 k 11 8 s == clkTable k && pllOf k (clkTable k) == some i && fld .clkDom 0 k 11 8 s != 0

/-- A lock loss of PLL_S is a fault decided in SVEn for every active channel and for the spindle instance (R74, R259). -/
def pllSFault (s : State) : State :=
  let s := (channels s).foldl (fun (s : State) (n : Fin 4) =>
    if !(chanOn n s) then s
    else if s.sve[sveOf n].loaded then retractStart n 1 false s
    else servoDecide n 0 s) s
  if pdOn 13 s && spnDriving s then lockLost s else s

/-- A PLL loses lock (R74). -/
def pllLoss (i : Nat) (s : State) : State :=
  let s := setLock i false s
  let s := (List.range 64).foldl (fun s k =>
    if fedBy i k s then (if frcCapable k then setFld .clkDom 0 k 11 8 0 s else setFld .clkDom 0 k 0 0 1 s) else s) s
  let s := ev .clk 0x0E12 i 0 0 s
  if i = 1 then pllSFault s else s

def execPllLockLoss (i : Fin 8) (s : State) : Out := .next <| if pdOn 2 s && pllLock i s then pllLoss i s else s

/-- A write of CLK_PLLEN: a PLL switched off loses its lock. -/
def writePllen (v : Nat) (s : State) : State :=
  let s := storeFields .pllen 0 0 v s
  (List.range 4).foldl (fun s i => if fld .pllen 0 0 i i s = 0 && pllLock i s then pllLoss i s else s) s

/-! ### Crystals (R75, R91) -/

/-- The 32.768 kHz crystal fails: the wick runs on its RC (R75). -/
def xo32kFails (s : State) : State :=
  ev .wck 0x0E10 0 0 0
    { s with clk := { s.clk with xo32decided := true, onRc := true }, cal := { s.cal with rcTime := true } }

/-- The crystal's detectors report it good: within 1.5 s of POR it is qualified and the wick leaves its RC; later it has
failed qualification (R91). -/
def execXo32kQualified (s : State) : Out :=
  .next <|
    if s.sys.aux && !s.clk.xo32decided then
      if s.us ≤ 1500000 then
        { s with clk := { s.clk with xo32decided := true, onRc := false }, cal := { s.cal with rcTime := false } }
      else xo32kFails s
    else s

/-- It fails qualification, 1.5 s after POR, or stops in service. -/
def execXo32kFail (s : State) : Out :=
  .next <|
    if s.sys.aux && (!s.clk.xo32decided || !s.clk.onRc) then
      xo32kFails (if s.clk.xo32decided then s else advanceTo 1500000 s)
    else s

/-- The 40 MHz crystal fails: every PLL that runs from it loses its lock and never locks again. -/
def execXo40Fail (s : State) : Out :=
  .next <|
    if s.sys.aux && !s.clk.xo40failed then
      let s := { s with clk := { s.clk with xo40failed := true, xo40ok := false } }
      let s := [0, 1, 2, 4, 5, 6, 7].foldl (fun s i => if pllLock i s then pllLoss i s else s) s
      let s := if fld .clkDom 0 63 11 8 s = 5 then setFld .clkDom 0 63 11 8 0 s else s
      ev .clk 0x0E11 0 0 0 s
    else s

/-! ### Entry preconditions (R76) -/

/-- Code of a power state. -/
def psCode (p : PowerState) : Nat := match p with | .lit => 0 | .dim => 1 | .glow => 2 | .dark => 3
def psOf (c : Nat) : PowerState := match c with | 0 => .lit | 1 => .dim | 2 => .glow | _ => .dark

/-- The first failing precondition for a target (1 DIM, 2 GLOW, 3 DARK): its row, and the blocking power domain where the
row names one. -/
def precondition (t : Nat) (s : State) : Option (Nat × Option Nat) :=
  let ch := channels s
  if s.spn.state != .stopped || s.spn.turning then some (1, some 13)
  else
    match ch.find? fun n => s.sve[sveOf n].loaded with
    | some n => some (1, some (14 + n))
    | none =>
      if dirtySectors s then some (2, some 10)
      else if (grantedTickets s).any fun k => 2 ≤ t || k.cls ≤ 6 then some (3, none)
      else
        match ch.find? fun n => !(s.sys.tcoreWfi.contains n) with
        | some n => some (4, some (14 + n))
        | none =>
          if t < 2 then none
          else if s.hce.ctrl.any (fun c => c.sqs.any fun q => !q.entries.isEmpty) ||
              s.hce.cmds.any (fun c => (s.pwr.psHeld.map (·.1)) != some c.tag) then some (5, some 8)
          else if [0, 1].any fun p => portExists (ctrlIdx p) s && !(vget s.pwr.linkLow p true) then some (6, none)
          else
            match [1, 2, 3].find? fun c => !(s.sys.acoreWfi.contains c) with
            | some c => some (7, some (3 + c))
            | none => none

/-- A block has work in flight, or a soft reset of it runs: STAT.BUSY (02 common page header, R34, R71; log 166). -/
def blkBusy (b : Blk) (n : Nat) (s : State) : Bool :=
  (hdrOf b n s).srst ||
    match b with
    | .bcc => s.bcc.op.isSome || s.bcc.state == .draining
    | .dmc => s.dmc.initBusy || s.dmc.ppr.isSome
    | .rvr => s.rvr.commit || s.rvr.replay
    | .wck => s.pwr.phase != .settled
    | .tru => s.sec.mbBusy.isSome
    | .cst => s.cst.act == .armed || s.cst.act == .copying
    | .ldp => !s.ldp.queue.isEmpty || !s.ldp.active.isEmpty
    | .tpe => s.tpe.dlBusy
    | .spn => s.spn.state != .stopped
    | .lsr => s.lsr.ch.any fun c => c.level != .off
    | .psi => s.psi.any fun p => p.cur.isSome
    | .asq => let a := s.asq[finCh n]; a.avalid || a.phase != .idle
    | .rwc => let r := s.rwc[finCh n]; r.inSector || r.wg
    | .sve => let v := s.sve[finSve n]; n < 4 && (v.loaded || v.retract)
    | _ => false

/-- A request is refused: error 0x0E21 with the row and the domain; a domain the table does not name is free. -/
def refusePreq (r : Nat × Option Nat) (s : State) : State :=
  match r.2 with
  | some d => blockErrorP .wck 0 0x0E21 (r.1 + 256 * d) r.1 0 0 s
  | none => blockErrorP .wck 0 0x0E21 (r.1 + 256 * draw 256 s) r.1 0 0 s.drawn

/-- An accepted request: the steps up to the commit point. Sources that fired earlier have had their wake. -/
def beginEntry (t : Nat) (s : State) : State :=
  let s := s.modPwr fun p => { p with target := psOf t, phase := .entering, active := 0 }
  if 2 ≤ t then
    let s := (List.finRange 4).foldl (fun s c => l1CleanAll c s) s
    (s.modHce fun h => { h with closed := true }).modPwr fun p => { p with selfRefresh := true }
  else s

/-- An entry into DIM that a request for LIT unwinds (R78); the source in parameter 0 is free. -/
def unwindDim (s : State) : State :=
  let src := draw (2 ^ 32) s
  ev .wck 0x0E32 src 0 0 (s.drawn.modPwr fun p => { p with phase := .settled, target := .lit })

/-- WCK_PREQ.GO. A request while another transition runs is ignored, but for LIT, which unwinds the entry. -/
def powerGo (t : Nat) (s : State) : State :=
  if t = 0 then
    if s.pwr.phase == .entering then
      if s.pwr.target == .dim then unwindDim s else unwindEntry (draw (2 ^ 32) s) s.drawn
    else if s.pwr.state == .dim && s.pwr.phase == .settled then s.modPwr fun p => { p with target := .lit, phase := .waking }
    else s
  else if 3 < t || s.pwr.phase != .settled || t ≤ psCode s.pwr.state then s
  else
    match precondition t s with
    | some r => refusePreq r s
    | none => beginEntry t s

/-- A write of WCK_PREQ. -/
def writePreq (v : Nat) (s : State) : State :=
  let s := storeFields .preq 0 0 v s
  if v.testBit 8 then powerGo (fld .preq 0 0 3 0 s) s else s

def execPreqGo (_m : Master) (v : Word) (s : State) : Out :=
  .next <| access .wck 0 (Reg.addr .preq 0 0) (writePreq (v.toNat ||| 0x100)) s

/-! ### Domains in the power states (R68, R71) -/

/-- Domains of the part in LIT: as started, less those that WCK_PDOFF gates; an analog front end is on or off only. -/
def pdLit (s : State) : Vector PdState 22 :=
  let p := pdStarted s
  let off := fld .pdoff 0 0 21 13 s
  Vector.ofFn fun (d : Fin 22) =>
    if 13 ≤ d.val && off.testBit (d.val - 13) && p[d] == .on then (if 18 ≤ d.val then .off else .gated) else p[d]

/-- Channels whose analog front ends are on under one set of domains and were not under another, as a mask. -/
def afeRestored (old new : Vector PdState 22) : Nat :=
  maskOf ((List.range 4).filter fun n => vget new (18 + n) .off == .on && vget old (18 + n) .off != .on)

/-- The domains of LIT are powered; restored analog front ends take their trims (R381), and the classes whose granting had
stopped are walked again (R85). -/
def powerLit (s : State) : State :=
  let new := pdLit s
  let m := afeRestored s.pwr.pd new
  let s := s.modPwr fun p => { p with pd := new, state := .lit, target := .lit, phase := .settled }
  let s := if m = 0 then s else trimsRestored m s
  walkQueue s

/-- PD13-PD17 gated, PD18-PD21 off. -/
def pdDim (p : Vector PdState 22) : Vector PdState 22 :=
  Vector.ofFn fun (d : Fin 22) =>
    if d.val < 13 then p[d] else if 18 ≤ d.val then .off else if p[d] == .on then .gated else p[d]

/-- PD0 alone on; PD9 and PD18-PD21 off; the others gated. -/
def pdGlow (p : Vector PdState 22) : Vector PdState 22 :=
  Vector.ofFn fun (d : Fin 22) =>
    if d.val = 0 then .on else if d.val = 9 ∨ 18 ≤ d.val then .off else if p[d] == .on then .gated else p[d]

/-- A held Set Features (Power Management), or an autonomous transition, whose target the part has reached completes (R81). -/
def psEntered (ps : Nat) (s : State) : State :=
  if (s.pwr.psHeld.any (fun x => x.2 == ps) && !s.pwr.psUnwound) || s.pwr.psAuto == some ps then psReached ps s else s

/-- DIM is reached. -/
def enterDim (s : State) : State :=
  let s := s.modPwr fun p => { p with pd := pdDim p.pd, state := .dim, target := .dim, phase := .settled }
  psEntered 3 (ev .wck 0x0E31 1 0 0 s)

/-- At GLOW entry every FRC-capable domain returns to the FRC with divider 1 (R72), and the PLLs stop. -/
def clocksGlow (s : State) : State :=
  let s := (List.range 64).foldl (fun s k =>
    if frcCapable k then setFld .clkDom 0 k 11 8 0 (setFld .clkDom 0 k 23 16 1 s) else s) s
  { s with clk := { s.clk with lock := Vector.replicate 4 false, lockC := Vector.replicate 4 false } }

/-- After GLOW every FRC-capable domain runs on the FRC and every other domain but the wick's is gated (R72). -/
def clocksWake (s : State) : State :=
  (List.range 64).foldl (fun s k => if k < 2 then s else setFld .clkDom 0 k 0 0 (if frcCapable k then 0 else 1) s) s

/-- GLOW is reached. -/
def enterGlow (s : State) : State :=
  let s := (clocksGlow s).modPwr fun p => { p with pd := pdGlow p.pd, state := .glow, target := .glow, phase := .settled }
  psEntered 4 (ev .wck 0x0E31 2 0 0 s)

/-- The transition completes (R76-R78): at the commit point of GLOW and DARK an active wake source unwinds it. -/
def powerEntered (s : State) : State :=
  match s.pwr.phase with
  | .waking => if s.pwr.target == .lit then ev .wck 0x0E31 0 0 0 (powerLit s) else s
  | .entering =>
    let a := s.pwr.active
    match s.pwr.target with
    | .dim => enterDim s
    | .glow => if a = 0 then enterGlow s else (unwindEntry a s).modPwr fun p => { p with active := 0 }
    | .dark =>
      if a = 0 then darkEntry false false (ev .wck 0x0E31 3 0 0 s)
      else (unwindEntry a s).modPwr fun p => { p with active := 0 }
    | .lit => s
  | _ => s

def execPowerStateEntered (s : State) : Out := .next (if (hdrOf .wck 0 s).freeze then s else powerEntered s)

/-! ### Gating in LIT (WCK_PDOFF) -/

/-- A domain's blocks report STAT.BUSY (R76). -/
def domBusy (d : Nat) (s : State) : Bool :=
  Blk.all.any fun b => (List.range b.row.insts).any fun n => pdOf b n == d && blkBusy b n s

/-- A domain has a grant in force: SPINUP, LASER and LDPC_BOOST belong to PD13, SEEKn to channel n. -/
def domGrant (d : Nat) (s : State) : Bool :=
  (grantedTickets s).any fun k =>
    if d = 13 then k.cls == 0 || k.cls == 5 || k.cls == 6 else k.cls == 1 + (d - 14) % 4

/-- R426: the gating of a channel whose 64 HEADRET bits are all set retires its actuator: its state in log page 0xC3 is 1
and the channel is lost in the sense of R139. Domains beyond PD14-17 retire nothing. -/
def actuatorRetired (n : Nat) (s : State) : State :=
  if h : n < 4 then
    if s.asq[n].headRet = 2 ^ 64 - 1 then
      loseChannel n (s.modHce fun x => { x with actState := sput 0 n 1 x.actState })
    else s
  else s

/-- A write of WCK_PDOFF: a bit newly set for a domain that is busy or has a grant is refused with 0x0E22; the others
take effect. -/
def writePdoff (v : Nat) (s : State) : State :=
  let old := reg .pdoff 0 0 s
  let asked := (bitList 22 (v &&& 0x3FE000)).filter fun d => !(old.testBit d)
  let bad := if windowOpen .wck 0 s then asked.filter fun d => domBusy d s || domGrant d s else []
  let s := bad.foldl (fun s d => blockError .wck 0 0x0E22 d s) s
  let s := storeFields .pdoff 0 0 (v &&& (0xFFFFFFFF ^^^ maskOf bad)) s
  let s := (asked.filter fun d => 14 ≤ d && (reg .pdoff 0 0 s).testBit d).foldl (fun s d => actuatorRetired (d - 14) s) s
  if s.pwr.state == .lit && s.pwr.phase == .settled && s.sys.coreUp then powerLit s else s

def execPdoffWrite (_m : Master) (v : Word) (s : State) : Out :=
  .next <| access .wck 0 (Reg.addr .pdoff 0 0) (writePdoff v.toNat) s

/-! ### Wake (R78, R79) -/

/-- The record of a wake: WCK_WAKESRC, WCK_WAKETIME and event 0x0E30. -/
def wakeRecord (src periods : Nat) (s : State) : State :=
  let prev := s.pwr.wakeSrc.toNat
  let w := src % 1024 + psCode s.pwr.state * 2 ^ 28
  let s := s.modPwr fun p => { p with wakeSrc := BitVec.ofNat 32 w, wakeTime := s.cal.sec, active := 0 }
  ev .wck 0x0E30 w periods prev s

/-- The part wakes from the state it is in; a wake from DARK is a boot, which needs its surroundings. -/
def wakeFrom (src periods : Nat) (env : Option BootEnv) (s : State) : State :=
  match s.pwr.state with
  | .lit => s
  | .dim =>
    let s := powerLit (wakeRecord src periods s)
    { s with sup := { s.sup with loss := false } }
  | .glow =>
    let s := clocksWake (wakeRecord src periods s)
    (powerLit s).modHce fun h => { h with closed := false }
  | .dark =>
    match env with
    | some env => if s.sys.railsGood && !s.pwr.darkCritical then startCore env (wakeRecord src periods s) else s
    | none => s

/-- The noted wake sources act: they unwind an entry before its commit point, and wake the part otherwise. -/
def wakeAct (periods : Nat) (env : Option BootEnv) (s : State) : State :=
  if s.pwr.active = 0 then s
  else if s.pwr.phase == .entering then unwindEntry s.pwr.active s
  else wakeFrom s.pwr.active periods env s

def execWakeSource (src : BitVec 10) (periods : Nat) (env : BootEnv) (s : State) : Out :=
  .next <| wakeAct periods (some env) (noteWake src.toNat s)

/-- A source that a command of another row made active wakes the part; the number of periods in event 0x0E30 is free. A
boot from DARK follows with the row WAKE_SOURCE, which carries its surroundings (log 168). -/
def wakeNoted (s : State) : State := if s.pwr.active = 0 then s else wakeAct (draw (2 ^ 32) s) none s.drawn

/-! ### Snuff detections (R79, R356-R359): a detector wakes the part -/

def execSnuffLevel1 (src : Fin 4) (s : State) : Out :=
  .next <| if snuffArmed s then wakeNoted (snuff1 src s) else s

def execSnuffLevel2 (src : Fin 3) (s : State) : Out := .next <| if snuffArmed s then wakeNoted (snuff2 src s) else s

/-- The security core blows an ALARM fuse for a level-1 snuff (R356 step 4). -/
def execAlarmFuseBlow (s : State) : Out :=
  .next <|
    match s.sec.alarmDue with
    | some src => if secRuns s then wakeNoted (blowAlarm src s) else s
    | none => s

/-- A response with no challenge outstanding is ignored (R359). -/
def execDebugResponse (level : Nat) (sig : SigObj) (digest : Nat) (halt : Bool) (s : State) : Out :=
  .next <|
    if s.sec.dbgChal.isSome && pdOn 2 s && secRuns s then wakeNoted (debugAnswer level sig digest halt s) else s

/-! ### NVMe power states: the entry, its restart, and autonomous transitions (R80, R81) -/

/-- An entry into an NVMe power state goes as far as the part stands ready for it: PS2 with the heads parked, PS3 and PS4
under the preconditions of R76. -/
def psProceed (t : Nat) (s : State) : State :=
  let eff := if s.sys.pers == .lantern && (t = 1 || t = 2) then 0 else t
  if s.pwr.state != .lit || s.pwr.phase != .settled then s
  else if eff ≤ 1 then psReached t s
  else if eff = 2 then (if channelsParked s then psReached 2 (gateChannels s) else s)
  else if (precondition (eff - 2) s).isNone then beginEntry (eff - 2) s else s

/-- A controller has nothing queued and nothing in flight but the command of one tag. -/
def ctrlIdle (c : Nat) (tag : Option Nat) (s : State) : Bool :=
  (ctrlAt c s).sqs.all (fun q => q.entries.isEmpty) && !(s.hce.cmds.any fun x => x.ctrl == c && some x.tag != tag)

/-- 10 ms with every queue of its controller idle: the unwound entry starts again (R81). -/
def execPsEntryRestart (s : State) : Out :=
  .next <|
    match s.pwr.psHeld with
    | some (t, target) =>
      let c := match cmdAt t s with | some x => x.ctrl | none => 0
      if s.pwr.psUnwound && ctrlIdle c (some t) s && !(hdrOf .wck 0 s).freeze then
        psProceed target ((elapse 10000 s).modPwr fun p => { p with psUnwound := false })
      else s
    | none => s

/-- The entry of the Autonomous Power State Transition table for the power state in force: idle time in ms and target. -/
def apstEntry (c : Nat) (s : State) : Nat × Nat :=
  let e := bits (sget 0 0xC0000 (ctrlAt c s).feats) (64 * s.pwr.ps + 31) (64 * s.pwr.ps)
  (bits e 31 8, bits e 7 3)

/-- Autonomous Power State Transition (R80): with every enabled controller idle for the time that a table gives, the part
goes into the state it names, by the same entries and rules as a Set Features. -/
def autonomousPs (s : State) : State :=
  let on := [0, 1].filter fun c => (ctrlAt c s).en
  match on.find? fun c => (sget 0 0x0C (ctrlAt c s).feats).testBit 0 with
  | none => s
  | some c =>
    let (t, target) := apstEntry c s
    if t != 0 && s.pwr.ps < target && target ≤ 4 && s.hce.busyAt + t ≤ now s && s.pwr.psHeld.isNone &&
        on.all (fun c => ctrlIdle c none s) then
      psProceed target (s.modPwr fun p => { p with psAuto := some target })
    else s

end Sys2Proof.Machine
end

