-- ==== Sys2Proof/Machine/Startup.lean ====
section
/-!
DEFINITION. Rails (R55, R56), power loss (R22), readiness (R99), RESET_N, NVM subsystem reset and watchdog (R103, R104)
and restart recovery's last step (01_architecture.md, 05_startup_and_reset.md).
-/

set_option Elab.async false

namespace Sys2Proof.Machine

open Sys2Proof

/-! ### Power loss (R22) -/

/-- The write and laser gates of every channel are removed by the paths of R19. -/
def gatesAllOff (s : State) : State := (channels s).foldl (fun s n => gatesOff n s) s

/-- R90 as the sequencers see it (R186): the revocation of a task's leave comes together with a FAULT request; the cause
is the revocation's event (log 170). -/
def revokeLeaves (cause : Nat) (s : State) : State :=
  (channels s).foldl (fun (s : State) (n : Fin 4) =>
    if s.asq[n].avalid && s.asq[n].ticket.isSome then asqFault n 0x0E46 s else s) (revokeAll cause s)

/-- Fetching is closed on both controllers. -/
def closeFetch (s : State) : State := s.modHce fun h => { h with closed := true }

/-- The power-loss threshold, mV. -/
def pfThr (s : State) : Nat := fld .supPfcfg 0 0 31 16 s

/-- The motor-rail sense lies below it. -/
def railLow (s : State) : Bool := s.spn.vmot < pfThr s

/-- Step 8: with the commit ended and no engine loaded the keys are zeroed and the part enters DIM; it reaches DARK when
the rails have fallen. -/
def lossEnd (s : State) : State :=
  if s.sup.loss && s.sys.coreUp && !s.rvr.commit && !(anyLoaded s) then
    let s := zeroForPowerDown s
    let s := if s.pwr.state == .lit then enterDim s else s
    if s.sys.railsGood then s else darkEntry true false s
  else s

/-- Steps 1 to 4. -/
def lossStart (s : State) : State :=
  let s := { s with sup := { s.sup with loss := true } }
  let s := raiseLine 444 (lifBump 11 1 s)
  let s := enterRectify (lasersOff (gatesAllOff s))
  let s := startCommit false (revokeLeaves 1 (closeFetch s))
  lossEnd (retractLoaded 6 s)

/-- SUP declares power loss after the filter time. -/
def execPowerLoss (s : State) : Out :=
  .next <|
    if s.sys.coreUp && !s.sup.loss && railLow s && !s.sys.held then
      lossStart (elapse (fld .supPfcfg 0 0 15 0 s / 1000) s)
    else s

/-- The commit record is durable (R162 step 6). -/
def execCommitRecordDurable (s : State) : Out :=
  .next <|
    if s.rvr.commit && s.rvr.image.isSome && pdOn 10 s && !(heldBlk .rvr 0 s) then lossEnd (commitDurable s) else s

/-- RETTIME passes on an engine (R259); the last engine to unload may end the power-loss sequence. -/
def execRetractEnd (n : Fin 4) (s : State) : Out := .next (lossEnd (retractEnd n s))

/-! ### Main rails (R56) -/

/-- Every main rail has been in range for 2 ms. The snuff detectors arm 2 ms later (R355). -/
def execMainRailsGood (env : BootEnv) (orderBroken : Bool) (s : State) : Out :=
  .next <|
    if s.sys.aux && !s.sys.railsGood then
      let s := elapse 2000 s
      let s := s.modSys fun y => { y with railsGood := true }
      let s := { s with sup := { s.sup with bad := [] } }
      let s := s.modSec fun c => { c with armFrom := some (now s + 2) }
      let s := if orderBroken then ev .sup 0x0C02 0 0 0 s else s
      if s.pwr.state == .dark then
        if s.pwr.darkCritical then s
        else
          let p := draw (2 ^ 32) s
          startCore env (wakeRecord 0x200 p s.drawn)
      else if s.sys.coreUp then s
      else startCore env s
    else s

/-- A main rail leaves its range: DARK by the rail path, after the power-loss sequence if its conditions hold (R77). A
rail that fails while that sequence already runs ends it, with its commit (R108; log 164). -/
def execRailFault (rail : Fin 9) (s : State) : Out :=
  .next <|
    if s.sys.aux then
      let s := raiseLine 445 (ev .sup 0x0C01 rail 0 0 s)
      let s := { s with sup := { s.sup with bad := insertNat rail s.sup.bad } }
      let was := s.sys.railsGood
      let again := s.sup.loss
      let s := s.modSys fun y => { y with railsGood := false }
      if s.pwr.state == .dark then
        if was then
          (s.modSys fun y => { y with pendCause := y.pendCause ||| 0x20 }).modPwr fun p => { p with darkRails := true }
        else s
      else if !was && !s.sys.coreUp then s
      else
        let s := if s.sys.coreUp && !again && railLow s then lossStart s else s
        if s.pwr.state == .dark || (!again && s.sup.loss && s.rvr.commit) then s else darkEntry true false s
    else s

/-! ### Readiness (R99) -/

/-- SET and CLR of SYS_RDYCTL. -/
def writeRdyctl (v : Nat) (s : State) : State :=
  if v.testBit 0 && v.testBit 1 then blockError .sys 0 0x0E04 2 s
  else if v.testBit 0 then
    if !(s.dmc.initDone || !s.clk.xo40ok) then blockError .sys 0 0x0E04 1 s
    else if s.sys.ready then s
    else applyRdy (ev .sys 0x0E03 0 0 0 (s.modSys fun y => { y with ready := true, stage := 6 }))
  else if v.testBit 1 then s.modSys fun y => { y with ready := false }
  else s

def execReadySet (_m : Master) (alsoClr : Bool) (s : State) : Out :=
  .next <| access .sys 0 (Reg.addr .rdyctl 0 0) (writeRdyctl (if alsoClr then 3 else 1)) s

def execReadyClr (_m : Master) (s : State) : Out :=
  .next <| access .sys 0 (Reg.addr .rdyctl 0 0) (writeRdyctl 2) s

/-! ### RESET_N, NVM subsystem reset (R103) -/

/-- The domains get their power back where the sequence starts in DIM or GLOW. -/
def powerForReset (s : State) : State := if s.pwr.state == .lit && s.pwr.phase == .settled then s else powerLit s

/-- Steps 2 and 3 of the RESET_N sequence, for a cause of R90; a watchdog reset starts no commit (R104). -/
def resetSteps (cause : Nat) (s : State) : State :=
  let s := closeFetch (gatesAllOff (powerForReset s))
  let s := revokeLeaves cause (retractLoaded 6 s)
  if cause = 5 then s else startCommit false s

/-- A sequence starts: none is under way, and the core domain runs. -/
def canReset (s : State) : Bool := s.sys.coreUp && s.sys.seq == .none

def execResetNAssert (s : State) : Out :=
  .next <|
    let was := s.sys.resetNLow
    let s := s.modSys fun y => { y with resetNLow := true }
    if !was && canReset s then
      resetSteps 3 (s.modSys fun y => { y with seq := .resetN, pendCause := y.pendCause ||| 4 })
    else s

/-- Step 6: the heads are parked and the commit has ended, or 1.0 s has passed; a commit that still runs is abandoned. -/
def execCoreDomainHold (atLimit : Bool) (s : State) : Out :=
  .next <|
    if s.sys.seq != .none && !s.sys.held && (atLimit || (!(anyLoaded s) && !s.rvr.commit)) then
      (coreReset (abandonCommit s)).modSys fun y => { y with held := true }
    else s

/-- Step 7: RESET_N is high; with the hold done the core domain is released. -/
def execResetNRelease (env : BootEnv) (s : State) : Out :=
  .next <|
    let s := s.modSys fun y => { y with resetNLow := false }
    if s.sys.held then coldStart env s else s

/-- The sequence that an NVM subsystem reset starts, after R105 on both controllers. -/
def subsystemReset (s : State) : State :=
  if canReset s then
    let s := [0, 1].foldl (fun (s : State) (p : Fin 2) => if portExists p s then stopController p 1 s else s) s
    resetSteps 4 (s.modSys fun y => { y with seq := .nssr, pendCause := y.pendCause ||| 0x10 })
  else s

def execNvmSubsystemReset (p : Fin 2) (v : Word) (s : State) : Out :=
  .next <| if v.toNat = 0x4E564D65 && hceUp s && (ctrlAt p s).linkUp then subsystemReset s else s

/-! ### Watchdog (R104) -/

/-- SYS_WDTCTL.EN, and PERIOD in ms. -/
def wdtEn (s : State) : Bool := fld .wdtctl 0 0 31 31 s == 1
def wdtPeriod (s : State) : Nat := zeroAsOne (fld .wdtctl 0 0 15 0 s)

/-- The first tick, of those still to come, at which the count reaches or passes a number of periods. -/
def wdtTick (n : Nat) (s : State) : Nat := s.sys.wdtAt + 1000 * max n ((s.us - s.sys.wdtAt + 999) / 1000)

/-- The count restarts at this instant. -/
def wdtRestart (s : State) : State := s.modSys fun y => { y with wdtAt := s.us, wdtBarked := false }

/-- A write of SYS_WDTCTL: EN stays once set; the write that sets it starts the count. -/
def writeWdtctl (v : Nat) (s : State) : State :=
  let was := wdtEn s
  let s := storeFields .wdtctl 0 0 (if was then v ||| 2 ^ 31 else v) s
  if !was && wdtEn s then wdtRestart s else s

def execWatchdogEnable (_m : Master) (v : Word) (s : State) : Out :=
  .next <| access .sys 0 (Reg.addr .wdtctl 0 0) (writeWdtctl (v.toNat ||| 2 ^ 31)) s

/-- A write of SYS_WDTKICK. -/
def writeWdtkick (v : Nat) (s : State) : State :=
  if v = 0xD06E then wdtRestart s else blockError .sys 0 0x0E08 v s

def execWatchdogKick (_m : Master) (v : Word) (s : State) : Out :=
  .next <| access .sys 0 (Reg.addr .wdtkick 0 0) (writeWdtkick v.toNat) s

/-- The watchdog counts. -/
def wdtRuns (s : State) : Bool := s.sys.coreUp && pdOn 2 s && wdtEn s && !(wdtPaused s)

/-- The count first reaches PERIOD. -/
def execWatchdogPeriod (s : State) : Out :=
  .next <|
    if wdtRuns s && !s.sys.wdtBarked then
      let s := advanceTo (wdtTick (wdtPeriod s) s) s
      let s := s.modSys fun y => { y with wdtBarked := true }
      ev .sys 0x0E05 0 0 0 (setIrqStat .sys 0 1 s)
    else s

/-- The count reaches twice PERIOD. -/
def execWatchdogReset (s : State) : Out :=
  .next <|
    if wdtRuns s && s.sys.wdtBarked && canReset s then
      let s := ev .sys 0x0E06 0 0 0 (advanceTo (wdtTick (2 * wdtPeriod s) s) s)
      resetSteps 5 (s.modSys fun y => { y with seq := .watchdog, pendCause := y.pendCause ||| 8 })
    else s

/-! ### Restart recovery (R164) -/

/-- The key changes of Formats whose record is durable and that a reset kept from being made (R165). -/
def rekeyFormats (s : State) : State :=
  (s.xmt.journal.filter fun r => r.typ == .format && r.body.getD 1 0 != 0 && !(s.xmt.fmtDone.contains r.jseq)).foldl (fun s r =>
    (replaceKey r.ns s).modXmt fun x => { x with fmtDone := x.fmtDone ++ [r.jseq] }) s

/-- Recovery of the tables; the zones of a channel that was lost before them are Offline (R95, R139). -/
def execRestartRecovery (lastGood : Option Nat) (ckOk : Bool) (s : State) : Out :=
  .next <|
    let was := s.rvr.recStep
    let s := restartRecovery lastGood ckOk s
    if was < 6 && 6 ≤ s.rvr.recStep then
      (s.xmt.zones.filter fun z => s.hce.lostChan.contains z.ch).foldl (fun s z => ownZoneChange z .offline s) (rekeyFormats s)
    else s

end Sys2Proof.Machine
end

