-- ==== Sys2Proof/Machine/Manage.lean ====
section
/-!
DEFINITION. The management endpoint (R114): the NVMe-MI commands with rows of their own, out of band and through the
NVMe-MI Send and Receive admin commands. Layouts are those of NVMe-MI 1.2 (PRESUMED, log 21); what the manual leaves to
firmware is free (06_host_commands.md).
-/

set_option Elab.async false

namespace Sys2Proof.Machine

open Sys2Proof

/-- The endpoint answers: PD2 is on and its firmware runs. -/
def miUp (s : State) : Bool := pdOn 2 s && s.sys.acoresUp

/-- NVMe-MI response status: success, invalid opcode, invalid parameter. -/
def miOk : Nat := 0
def miOpcode : Nat := 3
def miParam : Nat := 4

/-- n free values, each of its own draw. -/
def drawList : Nat → Nat → State → State × List Nat
  | 0, _, s => (s, [])
  | n + 1, bound, s =>
    let v := draw bound s
    let (s', l) := drawList n bound s.drawn
    (s', v :: l)

/-- Temperature in whole degrees, as the management commands report it. -/
def miTemp (s : State) : Nat := field 8 (roundDiv s.thm.maxTemp 4)

/-- PCIe ports of the part. -/
def miPorts (s : State) : Nat := if s.sys.dualp then 2 else 1

/-- Port Information (R114, R46): the PCIe ports come first, then the SMBus port; transmission unit 64 bytes, on SMBus the
address 0x1D, up to 1 MHz and the basic management command. Free values for the rest. -/
def miPortInfo (port : Nat) (s : State) : State × Nat × List Nat :=
  let (s, l) := drawList 6 (2 ^ 32) s
  let f := fun k => l.getD k 0
  if port < miPorts s then
    (s, miOk, [packed [(1, 1), (1, f 0), (2, 64), (4, f 1), (1, f 2), (1, f 3), (1, f 4), (1, portLanes s), (1, f 5), (1, port),
      (18, 0)]])
  else if port = miPorts s then
    (s, miOk, [packed [(1, 2), (1, f 0), (2, 64), (4, f 1), (1, f 2), (1, f 3), (1, 0x1D), (1, 3), (1, 1), (19, 0)]])
  else (s, miParam, [])

/-- The response to Read NVMe-MI Data Structure: subsystem information (ports, version 1.2), port information and the
controller list; other structures are firmware's. -/
def miDataStructure (dtyp port : Nat) (s : State) : State × Nat × List Nat :=
  if dtyp = 0 then
    let (s, l) := drawList 1 (2 ^ 32) s
    (s, miOk, [packed [(1, miPorts s), (1, 1), (1, 2), (29, l.getD 0 0)]])
  else if dtyp = 1 then miPortInfo port s
  else if dtyp = 2 then (s, miOk, if s.sys.dualp then [2, 0, 1] else [1, 0])
  else if 4 < dtyp then (s, miParam, [])
  else
    let (s, l) := drawList 8 (2 ^ 32) s
    (s, miOk, l)

/-- NVM Subsystem Health Status: status (free), SMART warnings inverted, composite temperature, percentage used and
composite controller status (free). -/
def miSubsystem (s : State) : State × Nat × List Nat :=
  let (s, l) := drawList 3 256 s
  let warn := (ctrlAt 0 s).critWarn ||| (ctrlAt 1 s).critWarn
  (s, miOk, [l.getD 0 0, 255 - warn % 256, miTemp s, l.getD 1 0, l.getD 2 0])

/-- Controller Health Status: identifier, CSTS (RDY, NSSRO), composite temperature in kelvin, percentage used and spare
(free), critical warning. -/
def miController (c : Nat) (s : State) : State × Nat × List Nat :=
  let x := ctrlAt c s
  let (s, l) := drawList 2 256 s
  (s, miOk, [c, flag x.rdy 0 + flag x.nssro 4, compositeK s, l.getD 0 0, l.getD 1 0, x.critWarn])

/-- Configuration Get: SMBus frequency (1 MHz, the highest the manual allows, until a Configuration Set: log 21), Health Status Change, MCTP transmission unit (64 bytes). -/
def miConfigGet (ident : Nat) (s : State) : Nat × List Nat :=
  match ident with
  | 1 => (miOk, [sget 3 1 s.hce.miCfg])
  | 2 => (miOk, [sget 0 2 s.hce.miCfg])
  | 3 => (miOk, [64])
  | _ => (miParam, [])

/-- Configuration Set: the transmission unit is fixed at 64 bytes; frequencies up to 1 MHz are codes 1 to 3. -/
def miConfigSet (ident v : Nat) (s : State) : State × Nat :=
  let put := fun (s : State) => s.modHce fun h => { h with miCfg := sput 0xFFFFFFFF ident v h.miCfg }
  match ident with
  | 1 => if 1 ≤ v ∧ v ≤ 3 then (put s, miOk) else (s, miParam)
  | 2 => (put s, miOk)
  | 3 => (s, if v = 64 then miOk else miParam)
  | _ => (s, miParam)

/-- VPD Read: bytes as written; a byte that was never written is free. -/
def miVpdRead (off : Nat) : Nat → State → State × List Nat
  | 0, s => (s, [])
  | n + 1, s =>
    let (s, l) := miVpdRead off n s
    match s.hce.vpd.find? (fun x => x.1 == off + n) with
    | some x => (s, l ++ [x.2])
    | none => (s.drawn, l ++ [draw 256 s])

/-- VPD Write. -/
def miVpdWrite (off : Nat) (bytes : List Byte) (s : State) : State :=
  s.modHce fun h => { h with vpd := bytes.zipIdx.foldl (fun l (b, i) => sput 256 (off + i) b.toNat l) h.vpd }

/-- A response of the endpoint. -/
def miReply (st : Nat) (data : List Nat) (s : State) : State := s.modHce fun h => { h with miResp := some (st, data) }

/-- A response with the draws it took. -/
def miAnswer (r : State × Nat × List Nat) : State := miReply r.2.1 r.2.2 r.1

def execReadNvmeMiDataStructure (dtyp port : Nat) (s : State) : Out :=
  .next <| if miUp s then miAnswer (miDataStructure dtyp port s) else s

def execNvmSubsystemHealthStatusPoll (s : State) : Out := .next <| if miUp s then miAnswer (miSubsystem s) else s

def execControllerHealthStatusPoll (c : Fin 2) (s : State) : Out :=
  .next <| if miUp s then miAnswer (miController c s) else s

def execConfigurationGet (ident : Nat) (s : State) : Out :=
  .next <| if miUp s then let r := miConfigGet ident s; miReply r.1 r.2 s else s

def execConfigurationSet (ident v : Nat) (s : State) : Out :=
  .next <| if miUp s then let r := miConfigSet ident v s; miReply r.2 [] r.1 else s

def execVpdRead (off len : Nat) (s : State) : Out :=
  .next <| if miUp s then let r := miVpdRead off len s; miReply miOk r.2 r.1 else s

def execVpdWrite (off : Nat) (bytes : List Byte) (s : State) : Out :=
  .next <| if miUp s then miReply miOk [] (miVpdWrite off bytes s) else s

/-- Reset acts as an NVM subsystem reset. -/
def execMiReset (s : State) : Out := .next <| if miUp s then subsystemReset s else s

/-- The basic management command at SMBus address 0x6A: status flags (free), SMART warnings inverted, temperature and
percentage used (free). -/
def execBasicManagementCommand (s : State) : Out :=
  .next <|
    if pdOn 2 s then
      let (s, l) := drawList 2 256 s
      let warn := (ctrlAt 0 s).critWarn ||| (ctrlAt 1 s).critWarn
      miReply miOk [l.getD 0 0, 255 - warn % 256, miTemp s, l.getD 1 0] s
    else s

/-! ### In-band NVMe-MI Send and Receive -/

/-- An in-band command completes with its NVMe-MI status in Dword 0 and its data for the host. -/
def miFinish (c : Cmd) (st : Nat) (data : List Nat) (s : State) : State :=
  finishDw c.tag stOk st 0 (s.modCtrl (ctrlIdx c.ctrl) fun x => { x with lastData := data })

/-- NVMe-MI Send: Configuration Set, VPD Write, Reset. -/
def execNvmeMiSend (tag : Fin 4096) (s : State) : Out :=
  withCmd tag (· == .nvmeMiSend) (fun c s =>
    match bits c.cmd.cdw11 7 0 with
    | 3 => let r := miConfigSet (bits c.cmd.cdw12 7 0) c.cmd.cdw13 s; miFinish c r.2 [] r.1
    | 6 => miFinish c miOk [] (miVpdWrite (bits c.cmd.cdw12 15 0) (toBytes (bits c.cmd.cdw13 15 0) c.cmd.payload) s)
    | 7 => subsystemReset s
    | _ => miFinish c miOpcode [] s) s

/-- NVMe-MI Receive: the data structures, the polls, Configuration Get, VPD Read. -/
def execNvmeMiReceive (tag : Fin 4096) (s : State) : Out :=
  withCmd tag (· == .nvmeMiReceive) (fun c s =>
    match bits c.cmd.cdw11 7 0 with
    | 0 => let r := miDataStructure (bits c.cmd.cdw12 31 24) (bits c.cmd.cdw12 23 16) s; miFinish c r.2.1 r.2.2 r.1
    | 1 => let r := miSubsystem s; miFinish c r.2.1 r.2.2 r.1
    | 2 => let r := miController (bits c.cmd.cdw12 15 0 % 2) s; miFinish c r.2.1 r.2.2 r.1
    | 4 => let r := miConfigGet (bits c.cmd.cdw12 7 0) s; miFinish c r.1 r.2 s
    | 5 => let r := miVpdRead (bits c.cmd.cdw12 15 0) (bits c.cmd.cdw13 15 0) s; miFinish c miOk r.2 r.1
    | _ => miFinish c miOpcode [] s) s

end Sys2Proof.Machine
end

