-- ==== Sys2Proof/Machine/Thermal.lean ====
section
/-!
DEFINITION. THM: conversion, cross-check, thresholds, shutdown and the critical limit (R366-R373), and the power-fail
settings of SUP (16_thermal_and_calibration.md).
-/

set_option Elab.async false

namespace Sys2Proof.Machine

open Sys2Proof

/-! ### Settings -/

/-- Hysteresis of a state in 0.25 degree units; 0 acts as 1 degree. -/
def hystShut (s : State) : Int := 4 * zeroAsOne (fld .thmHyst 0 0 11 8 s)
def hystThrot (s : State) : Int := 4 * zeroAsOne (fld .thmHyst 0 0 7 4 s)
def hystWarn (s : State) : Int := 4 * zeroAsOne (fld .thmHyst 0 0 3 0 s)

/-- THM_XCHK.XCHK, degrees. -/
def xchk (s : State) : Nat := zeroAsOne (fld .thmXchk 0 0 7 0 s)

/-- THM_MAX as the register reads. -/
def thmMaxWord (s : State) : Nat := flag s.thm.maxValid 31 + s.thm.maxSens % 32 * 2 ^ 16 + field 12 s.thm.maxTemp

/-- A write of THM_THR is accepted only when its thresholds are in order (R369). -/
def writeThmThr (v : Nat) (s : State) : State :=
  if windowOpen .thm 0 s && !(thrOrdered (signed 8 (bits v 15 8)) (signed 8 (bits v 23 16)) (signed 8 (bits v 31 24))) then
    blockError .thm 0 0x0C41 v s
  else storeFields .thmThr 0 0 v s

/-- A write of SUP_PFCFG with THR or FILT out of range is refused whole. -/
def writePfcfg (v : Nat) (s : State) : State :=
  let thr := bits v 31 16
  let filt := bits v 15 0
  if windowOpen .sup 0 s && (thr < 9000 || 12000 < thr || filt < 500 || 10000 < filt) then
    blockError .sup 0 0x0C50 v s
  else storeFields .supPfcfg 0 0 v s

/-! ### Cross-check (R366, R367) -/

/-- A reading that THM resolves: −40 °C to 150 °C in 0.25 degree units. -/
def readingOk (r : Option Int) : Option Int :=
  match r with
  | some t => if -160 ≤ t ∧ t ≤ 600 then some t else none
  | none => none

/-- A sensor is excluded or admitted again: event 0x0C45; an exclusion raises line 443. -/
def setExcl (k : Nat) (on : Bool) (s : State) : State :=
  let s := s.modThm fun t => { t with sens := vmod t.sens k fun x => { x with excl := on, dev := 0, inv := 0, adm := 0 } }
  let s := ev .thm 0x0C45 k (if on then 1 else 0) 0 s
  if on then raiseLine 443 s else s

/-- One sensor against the mean of its valid, non-excluded neighbours, as they stood when the conversion ended. -/
def checkSensor (snap : Vector Sensor 24) (k : Nat) (s : State) : State :=
  let x := sensor k s
  let upd := fun (f : Sensor → Sensor) (s : State) => s.modThm fun t => { t with sens := vmod t.sens k f }
  if !x.valid then
    let s := upd (fun x => { x with inv := x.inv + 1, dev := 0, adm := 0 }) s
    if !x.excl && 16 ≤ x.inv + 1 then setExcl k true s else s
  else
    let s := upd (fun x => { x with inv := 0 }) s
    let l := (sensNeighbours k).filter fun j => let y := vget snap j {}; y.valid && !y.excl
    if l.isEmpty then s
    else
      let n := l.length
      let sum : Int := l.foldl (fun a j => a + (vget snap j {}).temp) 0
      let d := (x.temp * n - sum).natAbs
      let lim := 4 * xchk s * n
      let dev := if lim < d then x.dev + 1 else 0
      let adm := if x.excl && 2 * d ≤ lim then x.adm + 1 else 0
      let s := upd (fun x => { x with dev := dev, adm := adm }) s
      if !x.excl && 16 ≤ dev then setExcl k true s
      else if x.excl && 256 ≤ adm then setExcl k false s
      else s

/-- The readings of a conversion, and CLREXCL where it waits. -/
def takeReadings (r : Vector (Option Int) 24) (wick : Int) (s : State) : State :=
  let s := s.modThm fun t => { t with
    sens := Vector.ofFn fun (k : Fin 24) =>
      match readingOk r[k] with
      | some v => { t.sens[k] with valid := true, temp := v }
      | none => { t.sens[k] with valid := false }
    wickValid := true, wickTemp := wick }
  if s.thm.clrExcl then
    let s := s.modThm fun t => { t with clrExcl := false }
    (List.range 24).foldl (fun s k => if (sensor k s).excl then setExcl k false s else s) s
  else s

/-- Sensors excluded. -/
def exclMask (s : State) : Nat := maskOf ((List.range 24).filter fun k => (sensor k s).excl)

/-! ### WARN, THROT (R89, R369) -/

/-- THROT changes: line 441; when it sets, the first lowering step of the ceiling follows at once (R89). -/
def setThrot (on : Bool) (s : State) : State :=
  if s.thm.throt = on then s
  else
    let s := raiseLine 441 (s.modThm fun t => { t with throt := on, cThrot := 0 })
    if on then walkQueue (thermLower s) else s

/-- WARN changes: event 0x0C40, line 440, and SMART critical warning bit 1 (R370). -/
def setWarn (on : Bool) (s : State) : State :=
  let s := s.modThm fun t => { t with warn := on, cWarn := 0 }
  let s := raiseLine 440 (ev .thm 0x0C40 (if on then 1 else 0) (thmMaxWord s) 0 s)
  if on then critical 1 s
  else
    let clr := fun (x : Ctrl) => { x with critWarn := x.critWarn &&& 0xFD }
    (s.modCtrl 0 clr).modCtrl 1 clr

/-- ARRAYFAIL with four or more sensors excluded (R368): THROT is held asserted. -/
def arrayCheck (s : State) : State :=
  let m := exclMask s
  let n := ((List.range 24).filter fun k => m.testBit k).length
  if 4 ≤ n then
    let s := if s.thm.arrayFail then s
      else ev .thm 0x0C46 m 0 0 (s.modThm fun t => { t with arrayFail := true })
    setThrot true s
  else s.modThm fun t => { t with arrayFail := false }

/-- The hottest valid, non-excluded sensor; the lower index among equals. -/
def hottest (s : State) : Option (Nat × Int) :=
  (List.range 24).foldl (fun (m : Option (Nat × Int)) k =>
    let x := sensor k s
    if x.valid && !x.excl then
      match m with
      | some (_, t) => if t < x.temp then some (k, x.temp) else m
      | none => some (k, x.temp)
    else m) none

/-- The counts of WARN and THROT against the maximum of this conversion. -/
def stateCounts (t : Int) (s : State) : State :=
  let w := 4 * thrWarn s
  let changes := if s.thm.warn then decide (t < w - hystWarn s) else decide (w ≤ t)
  let s := s.modThm fun x => { x with cWarn := if changes then x.cWarn + 1 else 0 }
  let s := if 4 ≤ s.thm.cWarn then setWarn (!s.thm.warn) s else s
  let h := 4 * thrThrot s
  let changes := if s.thm.throt then decide (t < h - hystThrot s) else decide (h ≤ t)
  let s := s.modThm fun x => { x with cThrot := if changes then x.cThrot + 1 else 0 }
  if 4 ≤ s.thm.cThrot && !(s.thm.throt && s.thm.arrayFail) then setThrot (!s.thm.throt) s else s

/-- An excluded sensor that still takes part in the shutdown decision (R368). -/
def admitted (s : State) : Bool :=
  (List.range 24).any fun k =>
    let x := sensor k s
    x.valid && x.excl && 4 * thrShut s ≤ x.temp &&
      (sensNeighbours k).any fun j => (sensor j s).valid && 4 * thrWarn s ≤ (sensor j s).temp

/-! ### Shutdown (R371) -/

/-- A command waits for durability: a Flush, or a write with FUA, VWC 0 or Dirty Cap 0 (R17, R126). -/
def waitsDurable (c : Cmd) (s : State) : Bool :=
  let o := c.ord.getD 0
  if c.cmd.op == .flush then !(passed o (flushDoms c s) s)
  else !(opReads c.cmd.op) && s.lgr.entries.any fun e => e.ord == o && lkWrites e.kind && e.fua && e.state != .durable

/-- An I/O command in flight at a shutdown: Namespace Not Ready; for one that waits for durability 0x1014. A Flush whose
work is complete succeeds. A write whose data had not arrived is dropped. -/
def shutCmd (c : Cmd) (s : State) : State :=
  if !(opIo c.cmd.op) || c.phase == .finished || c.phase == .orphan then s
  else
    let o := c.ord.getD 0
    let waits := waitsDurable c s
    let s := if waits then guarantee .thm 1 4 c.cmd.nsid o 0x0C42 s else s
    let s := match entryAt o s with
      | some e => if c.ord.isSome && lkWrites e.kind && e.state == .pending then dropWrite o s else s
      | none => s
    finish c.tag (if c.cmd.op == .flush && !waits && c.phase == .accepted then stOk else stNotReady) s

/-- The spindle drive stops and SPN enters COAST. -/
def spnToCoast (s : State) : State :=
  match s.spn.state with
  | .stopped | .coast | .faulted => s
  | _ => coastFrom 0 s

/-- Steps 1 to 5. -/
def thermalShutdown (s : State) : State :=
  let s := s.modThm fun t => { t with shut := true, shutSeq := true, cShut := 0 }
  let s := raiseLine 442 (ev .thm 0x0C42 (thmMaxWord s) 1 0 s)
  let s := lasersOff (faultAll 0x0C42 s)
  let s := revokeLeaves 2 (spnToCoast (retractLoaded 6 s))
  let s := s.hce.cmds.foldl (fun s c => shutCmd c s) s
  startCommit false s

/-- Steps 6 and 7 are done: DIM, without the preconditions of R76. -/
def execShutdownDimEntry (s : State) : Out :=
  .next <|
    if s.thm.shutSeq && s.sys.coreUp && !(anyLoaded s) && !s.rvr.commit then
      let s := s.modThm fun t => { t with shutSeq := false }
      if s.pwr.state == .lit then enterDim s else s
    else s

/-! ### The critical limit (R373) -/

/-- 122 °C, in 0.25 degree units. -/
def criticalTemp : Int := 488

/-- Completed writes that are not durable: the BUFFERED writes whose command no longer waits for durability. -/
def undurable (s : State) : List LEntry :=
  s.lgr.entries.filter fun e => lkWrites e.kind && e.state == .buffered && !e.fua

/-- Domains that hold one, each with the ordinal of its oldest. -/
def undurableDoms (s : State) : List (Nat × Nat) :=
  (List.range 64).filterMap fun d => ((undurable s).find? fun e => e.dom == d).map fun e => (d, e.ord)

/-- Steps 1 and 2: a commit stops with 0x1014 for each domain concerned, and the heads are retracted. -/
def criticalLimit (temp : Int) (sens : Nat) (s : State) : State :=
  let s := s.modThm fun t => { t with critical := some (temp, sens) }
  let s := if s.rvr.commit then
      (undurableDoms s).foldl (fun s (d, o) => guarantee .rvr 1 4 d o 0x0C43 s) (abandonCommit s)
    else s
  retractLoaded 6 s

/-- Step 4: event 0x0C43, then DARK by the path of R77. -/
def criticalDark (s : State) : State :=
  match s.thm.critical with
  | some (t, k) => darkEntry false true (ev .thm 0x0C43 (par t) k 0 s)
  | none => s

def execCriticalDarkEntry (s : State) : Out :=
  .next <| criticalDark (if s.thm.critical.isSome && anyLoaded s then elapse 250000 s else s)

/-- The wick sensor reaches the limit while THM cannot convert: with PD2 not on. -/
def execWickCriticalLimit (temp : Int) (s : State) : Out :=
  .next <|
    if s.sys.aux && !(pdOn 2 s) && s.pwr.state != .dark && criticalTemp ≤ temp then
      let s := s.modThm fun t => { t with wickValid := true, wickTemp := temp }
      let s := criticalLimit temp 0x1F s
      if anyLoaded s then s else criticalDark s
    else s

/-- THM_WICK has read below SHUT − 10 °C for 10 s: the part wakes with WCK_WAKESRC.SUP. The reading itself is free below
that bound. -/
def execCriticalWake (env : BootEnv) (s : State) : Out :=
  .next <|
    if s.pwr.state == .dark && s.pwr.darkCritical then
      let s := elapse 10000000 s
      let t : Int := 4 * (thrShut s - 10) - 1 - draw 560 s
      let s := s.drawn.modThm fun x => { x with wickTemp := t }
      let s := s.modPwr fun p => { p with darkCritical := false }
      let p := draw (2 ^ 32) s
      if s.sys.railsGood then startCore env (wakeRecord 0x80 p s.drawn) else s
    else s

/-! ### The conversion -/

/-- The shutdown decision: the maximum of this conversion, or an admitted sensor, at or above SHUT in two in a row. -/
def shutCount (m : Option (Nat × Int)) (s : State) : State :=
  let adm := admitted s
  if m.isNone && !adm then s
  else
    let hot := adm || (match m with | some (_, t) => decide (4 * thrShut s ≤ t) | none => false)
    let s := s.modThm fun x => { x with cShut := if hot then x.cShut + 1 else 0 }
    if 2 ≤ s.thm.cShut && !s.thm.shut then thermalShutdown s else s

/-- THM converts all 24 sensors (R366-R369); `held`: FREEZE holds the cross-check, WARN and THROT, and never the readings, the
shutdown and the critical limit (R35; log 180). -/
def conversion (held : Bool) (r : Vector (Option Int) 24) (wick : Int) (s : State) : State :=
  let s := takeReadings r wick s
  let snap := s.thm.sens
  let s := if held then s else arrayCheck ((List.range 24).foldl (fun s k => checkSensor snap k s) s)
  let m := hottest s
  let s := s.modThm fun t =>
    match m with
    | some (k, v) => { t with maxValid := true, maxSens := k, maxTemp := v }
    | none => { t with maxValid := true }
  let s := match m with | some (_, v) => if held then s else stateCounts v s | none => s
  let s := shutCount m s
  match m with
  | some (k, v) => if criticalTemp ≤ v && s.thm.critical.isNone then criticalLimit v k s else s
  | none => s

/-- Supervision stays active through a soft reset of THM (R106). -/
def execThmConversion (readings : Vector (Option Int) 24) (wick : Int) (s : State) : Out :=
  .next <| if pdOn 2 s then conversion (hdrOf .thm 0 s).freeze readings wick s else s

/-! ### THM_CMD (R367, R372) -/

/-- CLRSHUT. A commit that the shutdown started and that still runs goes on as one in service, so that fetching reopens
at its end. -/
def clrShut (s : State) : State :=
  if !s.thm.shut then s
  else if s.thm.maxTemp < 4 * thrShut s - hystShut s then
    let s := s.modThm fun t => { t with shut := false, shutSeq := false, cShut := 0 }
    let s := ev .thm 0x0C42 (thmMaxWord s) 0 0 s
    let s := if s.llt.closed == some 2 then walkQueue (openClasses s) else s
    if s.rvr.commit then (s.modRvr fun r => { r with inService := true }).modHce fun h => { h with closed := false, ioClosed := true }
    else (s.modLgr fun l => { l with frozen := false }).modHce fun h => { h with closed := false, ioClosed := false }
  else blockError .thm 0 0x0C44 (thmMaxWord s) s

/-- A write of THM_CMD. -/
def writeThmCmd (v : Nat) (s : State) : State :=
  let s := if v.testBit 1 then s.modThm fun t => { t with clrExcl := true } else s
  if v.testBit 0 then clrShut s else s

def execClrshut (_m : Master) (s : State) : Out := .next <| access .thm 0 (Reg.addr .thmCmd 0 0) (writeThmCmd 1) s
def execClrexcl (_m : Master) (s : State) : Out := .next <| access .thm 0 (Reg.addr .thmCmd 0 0) (writeThmCmd 2) s

end Sys2Proof.Machine
end

