-- ==== Sys2Proof/Machine/SoftReset.lean ====
section
/-!
DEFINITION. Block soft reset (R34, R106).
-/

set_option Elab.async false

namespace Sys2Proof.Machine

open Sys2Proof

/-- Why a soft reset is refused (table Block soft reset), as the reason of error 0x0007; 0 when it is not. -/
def srstReason (m : Master) (b : Blk) (n : Nat) (s : State) : Nat :=
  match b with
  | .sys | .cpx | .irq | .clk | .dbg => 1
  | .pcx | .hce | .lgr | .xmt | .rvr | .dmc | .bcc | .cst => if s.sys.ready then 2 else 0
  | .spn => if s.spn.state == .brake || 13800 < s.spn.vmot then 3 else 0
  | .sve => if n = 4 && (s.spn.state == .brake || 13800 < s.spn.vmot) then 3 else 0
  | .cip | .cipu | .kst | .tru => if m = .core .sec then 0 else 4
  | _ => 0

/-- The header of a block after it: errors, LOCKED and the count of wrong words stay; STAT.BUSY reads 1. -/
def Hdr.softReset (h : Hdr) : Hdr :=
  { err := h.err, locked := h.locked, errCode := h.errCode, errInfo := h.errInfo, errCnt := h.errCnt
    wrongWords := h.wrongWords, srst := true }

/-- ASQn: the gates fall, the ACTIVE task ends ABORTED, PENDING is cleared and the result FIFO emptied (R184). -/
def srstAsq (n : Fin 4) (s : State) : State :=
  let s := gatesOff n s
  let s := if s.asq[n].avalid then taskEnd n 0x01 0 .idle s else s
  let p := bits (vget s.asq[n].ptask 2 0).toNat 31 20
  tagDone p { s with asq := s.asq.set n {} }

/-- RWCn: the gate falls, ASQn takes a FAULT request, of a cause that is not the interlock's, so that a write task ends
WRITE_UNSAFE, and the working state returns to the zone's default knob set, of
which nothing is written back. -/
def srstRwc (n : Fin 4) (s : State) : State :=
  let c := draw 0xFFFF s
  let s := faultDecision n (if c < 0x0312 then c else c + 1) s.drawn
  let z := s.rwc[n].zone
  let s := match z with
    | some z => loadCoefs n (knobWords n z.kset s) (loadSettings n z.kset 0 (knobWords n z.kset s) s)
    | none => s
  let r := s.rwc[n]
  let new : Rwc :=
    { zone := z, zoneBad := r.zoneBad, kset := r.kset, rmode := r.rmode, loopen := r.loopen, mu := r.mu, deff := r.deff
      work := if z.isSome then r.work else Vector.replicate 32 0
      hsma := r.hsma, single := r.single, cut := r.cut, inSector := r.inSector, inGap := r.inGap }
  resetRegs .rwc n { s with rwc := s.rwc.set n new }

/-- LDP: codewords in decode go back to their requester, which queues them again. -/
def srstLdp (s : State) : State := { s with ldp := { queue := s.ldp.active ++ s.ldp.waiting ++ s.ldp.queue } }

/-- SVEn, n = 0-3: the heads are unloaded first; then tables and registers are cleared. -/
def srstSve (n : Fin 4) (s : State) : State :=
  let s := retractEnd n (retractStart n 5 false s)
  { s with sve := s.sve.set (sveOf n) {} }

/-- OPT: the pickups are parked first. -/
def srstOpt (s : State) : State :=
  let s := if optical s then
      (channels s).foldl (fun s n => retractEnd n (retractStart n 5 false s)) s
    else s
  { s with opt := {} }

/-- The drive stops and a turning rotor coasts. -/
def srstSpin (s : State) : State :=
  { s with spn := { spnAfter s.spn with state := if s.spn.turning then .coast else .stopped } }

/-- LLT: leave is revoked and the classes close until the reset completes, or stay closed where an earlier cause closed
them; budget registers, counts and lease stay. -/
def srstLlt (s : State) : State :=
  let was := s.llt.closed
  let s := revokeLeaves 6 s
  let s := s.modLlt fun l => { l with closed := was.orElse fun _ => l.closed, ports := Vector.replicate 16 {} }
  (List.range 16).foldl (fun s p => setReg .lltReqa 0 p 0 (setReg .lltReqb 0 p 0 s)) s

/-- EVR: window, cursor and hold registers, and the restore base. -/
def srstEvr (s : State) : State :=
  (resetRegs .evr 0 s).modEvr fun v => { v with base := 0, cur := 0, win := 0, winDone := false, winRes := 0, winArea := 0, hold := none }

/-- VLK: the link drops; a lease already received stays until its expiry (it stands in LLT). -/
def srstVlk (s : State) : State := resetRegs .vlk 0 { dropLinks s with vlk := { timeNs := s.vlk.timeNs } }

/-- XMT's registers return to their reset values, but for the mapping to domains, which survives every reset (R146). -/
def resetXmt (s : State) : State :=
  let lo := Blk.base .xmt 0
  { s with regs := s.regs.filter fun x => x.1 < lo || lo + Blk.xmt.row.pages * 0x1000 ≤ x.1 || domAddr x.1 }

/-- The effect of an accepted soft reset on a block's work and registers. -/
def srstBlock (b : Blk) (n : Nat) (s : State) : State :=
  match b with
  | .asq => resetRegs b n (srstAsq (finCh n) s)
  | .rwc => srstRwc (finCh n) s
  | .ldp => resetRegs b 0 (srstLdp s)
  | .tpe => resetRegs b 0 (tpeDiscard s)
  | .sve => resetRegs b n (if n = 4 then srstSpin { s with sve := s.sve.set 4 {} } else srstSve (finCh n) s)
  | .opt => resetRegs b 0 (srstOpt s)
  | .spn => resetRegs b 0 (srstSpin s)
  | .lsr => resetRegs b 0 { lasersOff s with lsr := {} }
  | .psi => resetRegs b 0 { s with psi := Vector.replicate 4 {} }
  | .kst => resetRegs b 0 (dropLinks (zeroKst s))
  | .cip => resetRegs b 0 (s.modSec fun c => { c with nskey := [], lane := Vector.replicate 4 none })
  | .cipu => s.modSec fun c => { c with users := vmod c.users n fun u => { cred := u.cred, nsmask := u.nsmask } }
  | .tru => resetRegs b 0 (s.modSec fun c => { c with mbDone := true, mbRes := 0, mbLen := 0, mbBusy := none })
  | .llt => srstLlt s
  | .evr => srstEvr s
  | .lif => resetRegs b 0 { s with lif := { s.lif with shCnt := [], shSat := [], shSec := 0 } }
  | .cal => resetRegs b 0 { s with cal := { s.cal with hSec := 0, adjRem := 0, slewFrac := 0 } }
  | .wck =>
    let s := resetRegs b 0 s
    if s.pwr.state == .lit && s.pwr.phase == .settled then powerLit s else s
  | .thm | .sup | .bst => resetRegs b 0 s
  | .trm => resetRegs b 0 { s with trm := {} }
  | .vlk => srstVlk s
  | .pcx =>
    let s := resetRegs b 0 ((s.modCtrl 0 fun x => { x with linkUp := false, cfgOpen := false }).modCtrl 1
      fun x => { x with linkUp := false, cfgOpen := false })
    trainLink 1 (trainLink 0 s)
  | .hce => resetRegs b 0 { s with hce := { hceAfter s with lostChan := s.hce.lostChan } }
  | .lgr => resetRegs b 0 { s with lgr := {} }
  | .xmt => resetXmt (s.modXmt fun x => { x with ckPend := none, mcWarned := false })
  | .rvr => resetRegs b 0 (commitGrantEnd { s with rvr := rvrAfter s.rvr })
  | .dmc => resetRegs b 0 { s with dmc := { poison := s.dmc.poison, rawChk := s.dmc.rawChk } }
  | .bcc => resetRegs b 0 { s with bcc := {} }
  | .cst => resetRegs b 0 { s with cst := { openEn := s.sec.policy.openRegion } }
  | .sys | .cpx | .irq | .clk | .dbg => s

/-- A write of 1 to CTL.SRST. -/
def softReset (m : Master) (b : Blk) (n : Nat) (s : State) : State :=
  let r := srstReason m b n s
  if r ≠ 0 then blockError b n 0x0007 r s
  else if (hdrOf b n s).srst then s
  else (srstBlock b n s).modHdr (b.hdr n) Hdr.softReset

def execSoftReset (m : Master) (h : Fin 77) (s : State) : Out :=
  .next <| hdrAccess h 8 (fun b n => softReset m b n) s

/-- The reset completes: SRST and STAT.BUSY read 0; the leave classes that an LLT soft reset closed open (R90). -/
def execSoftResetComplete (h : Fin 77) (s : State) : Out :=
  .next <|
    if s.hdr[h].srst then
      let s := s.modHdr h fun x => { x with srst := false }
      if (hdrBlk h).1 == .llt && s.llt.closed == some 6 then walkQueue (openClasses s) else s
    else s

end Sys2Proof.Machine
end

