-- ==== Sys2Proof/Machine/Vrelilo.lean ====
section
/-!
DEFINITION. VLK, the Vrelilo Link: roles, frames, enrollment, keys, beacons, leases, event forwarding, image fan-out and
link faults (18_vrelilo_hierarchy.md, R400-R422).
-/

set_option Elab.async false

namespace Sys2Proof.Machine

open Sys2Proof

/-! ### Roles and identifiers (R400, R403) -/

/-- VLK works: its domain is on, the 40 MHz crystal has not failed (R75), VLK_CFG.EN is set and nothing holds its engines. -/
def vlkRuns (s : State) : Bool := pdOn 2 s && !s.clk.xo40failed && fld .vlkCfg 0 0 31 31 s == 1 && !(heldBlk .vlk 0 s)

/-- TIER of the own segment: a root names it itself, any other Lantern's lies one below its own. -/
def segTier (s : State) : Nat := if s.vlk.root then bits s.vlk.ident 19 18 else bits s.vlk.ident 19 18 - 1

/-- The part serves a segment of its own: a Lantern that is no Candle of a tier-0 segment. -/
def isLantern (s : State) : Bool :=
  vlkRuns s && s.sys.pers == .lantern && (s.vlk.root || bits s.vlk.ident 19 18 != 0)

/-- The part works as a Candle on VLK_UP. -/
def candleRuns (s : State) : Bool := isCandle s && !(heldBlk .vlk 0 s)

/-- The identifier of the Candle on slot k of the own segment. -/
def candleId (k : Nat) (s : State) : Nat :=
  let t := segTier s
  let own := bits s.vlk.ident 17 0
  own / 2 ^ (6 * (t + 1)) * 2 ^ (6 * (t + 1)) % 2 ^ 18 + k % 64 * 2 ^ (6 * t) + t * 2 ^ 18

/-- The port transmits (R422). -/
def mayTransmit (port : Fin 2) (s : State) : Bool := s.vlk.stopUntil[port].isNone

/-- LEASEMS within its range. -/
def leaseMs (s : State) : Nat := min 10000 (max 100 (fld .vlkCfg 0 0 15 0 s))

/-! ### Counters and slots -/

/-- A performance counter advances (R219); a wrap raises line 435. -/
def vlkBump (k : Nat) (s : State) : State :=
  let r := wrapAdd (vget s.vlk.cnt k 0) 1
  let s := s.modVlk fun v => { v with cnt := vmod v.cnt k fun _ => r.1, wrap := if r.2 then v.wrap ||| 1 <<< k else v.wrap }
  if r.2 then raiseLine 435 s else s

/-- A slot that is not free. -/
def slotAt (k : Nat) (s : State) : Option VSlot := s.vlk.slots.find? fun x => x.k == k

/-- A slot changed. -/
def modSlot (k : Nat) (f : VSlot → VSlot) (s : State) : State :=
  s.modVlk fun v => { v with slots := mapIf (fun x => x.k == k) f v.slots }

/-- A slot's state changed: line 430. -/
def slotTo (k : Nat) (st : SlotState) (s : State) : State :=
  match slotAt k s with
  | some x => if x.state == st then s else raiseLine 430 (modSlot k (fun x => { x with state := st }) s)
  | none => s

/-- A slot becomes free. -/
def freeSlot (k : Nat) (s : State) : State :=
  raiseLine 430 (s.modVlk fun v => { v with slots := v.slots.filter fun x => x.k != k })

/-- A slot taken, in ascending order. -/
def putSlotK (x : VSlot) (s : State) : State :=
  raiseLine 430 (s.modVlk fun v => { v with
    slots := v.slots.filter (fun y => y.k < x.k) ++ [x] ++ v.slots.filter fun y => x.k < y.k })

/-- HELD of a slot: the larger of the present grant and every earlier grant not yet expired (R414). -/
def heldMw (x : VSlot) (s : State) : Nat :=
  x.older.foldl (fun m g => if now s < g.2 then max m g.1 else m) (if now s < x.expiry then x.grant else 0)

/-- What a slot reserves: its held power, and never less than its floor (R409, R417). -/
def reservedMw (x : VSlot) (s : State) : Nat := max x.floor (heldMw x s)

/-! ### Receiving a frame (R401, R405) -/

/-- The first inverted frame inverts a port's receiver and driver. -/
def notePolarity (port : Nat) (f : VFrame) (s : State) : State :=
  let was := if port = 0 then s.vlk.invUp else s.vlk.invDn
  if f.inverted && !was then
    ev .vlk 0x0F10 port 0 0
      (s.modVlk fun v => if port = 0 then { v with invUp := true } else { v with invDn := true })
  else s

/-- A SEQ is acceptable: above the last one accepted, or unseen within the window of 64 below it. -/
def seqFresh (last : Option Nat) (seen : List Nat) (q : Nat) : Bool :=
  match last with
  | none => true
  | some l => decide (l < q) || (decide (l < q + 64) && !(seen.contains q))

/-- The last SEQ and the window after a SEQ was accepted. -/
def seqTake (last : Option Nat) (seen : List Nat) (q : Nat) : Option Nat × List Nat :=
  let l := match last with | some l => max l q | none => q
  (some l, insertNat q (seen.filter fun x => decide (l < x + 64)))

/-- The checks of R405 in their order. `dst` tells that the frame is addressed here, `fresh` that its SEQ is acceptable.
A discarded frame is counted where the manual names a counter; an accepted one counts in FRAMES_RX. -/
def vlkReceive (port : Nat) (f : VFrame) (dst auth fresh : Bool) (bad k : State → State) (s : State) : State :=
  let s := notePolarity port f s
  if !f.hcrcOk then bad (vlkBump 4 s)
  else if !dst then s
  else if !auth then bad (vlkBump 2 s)
  else if !fresh then vlkBump 3 s
  else
    let s := vlkBump 1 s
    k (if port = 0 then s.modVlk fun v => { v with lastRx := now s, upOpen := false } else s)

/-- A frame is addressed to this node. -/
def toOwn (f : VFrame) (s : State) : Bool := f.bcast || f.dst == s.vlk.ident

/-- A frame from the Lantern under the link key. -/
def upLink (f : VFrame) (k : State → State) (s : State) : State :=
  vlkReceive 0 f (toOwn f s) (f.authOk && s.vlk.enr) (seqFresh s.vlk.rxLink s.vlk.seenLink f.seq) id
    (fun s => k (s.modVlk fun v =>
      let r := seqTake v.rxLink v.seenLink f.seq
      { v with rxLink := r.1, seenLink := r.2 })) s

/-- A frame from the Lantern under the segment key. -/
def upSeg (f : VFrame) (bad k : State → State) (s : State) : State :=
  vlkReceive 0 f (toOwn f s) (f.authOk && s.vlk.enr) (seqFresh s.vlk.rxSeg s.vlk.seenSeg f.seq) bad
    (fun s => k (s.modVlk fun v =>
      let r := seqTake v.rxSeg v.seenSeg f.seq
      { v with rxSeg := r.1, seenSeg := r.2 })) s

/-! ### Memory of the engine -/

/-- A write of the engine. -/
def vlkWrite (a : Nat) (l : List Byte) (s : State) : State := engWrite .vlk 0 a l.length (fromBytes l) s

/-- DDR5 address in bits [39:8] of a register. -/
def baseOf (r : Reg) (s : State) : Nat := reg r 0 0 s * 256

/-! ### Enrollment lost and gained (R407-R410) -/

/-- A Candle's link is gone and it enrols again; a lease received stays until its expiry. -/
def unenrol (s : State) : State :=
  s.modVlk fun v => { v with
    enr := false, lantern := none, authExp := none, rxLink := none, rxSeg := none, seenLink := [], seenSeg := []
    keyNext := none, agree := 0, missedB := 0, failedB := 0, renewAt := none, ask := false, attTx := none, seqUp := 0 }

/-- LLT_LEASE as it reads. -/
def leaseWord (s : State) : Nat := flag s.llt.leaseValid 31 + lltLease s % 2 ^ 24

/-- An orphaned episode begins (R418): a random back-off of whole seconds, when orphan spin-up is allowed and no window
has been spent. -/
def startOrphan (s : State) : State :=
  if candleRuns s && !s.llt.leaseValid && fld .orphanSpinup 0 0 31 31 s == 1 && s.vlk.backoff.isNone &&
      !s.vlk.windowUsed then
    let d := draw (zeroAsOne (fld .orphanSpinup 0 0 30 24 s) + 1) s
    s.drawn.modVlk fun v => { v with backoff := some (now s + 1000 * d), backoffS := d }
  else s

/-! ### Beacons and time (R410-R412) -/

/-- A KEYNEW takes effect at the beacon it names. -/
def keyAtBeacon (sec : Nat) (s : State) : State :=
  let s := match s.vlk.keyNext with
    | some (g, at_) =>
      if at_ ≤ sec then s.modVlk fun v => { v with keyGen := g, keyNext := none, rxSeg := none, seenSeg := [] } else s
    | none => s
  match s.vlk.keyNew with
  | some (g, at_) =>
    if at_ ≤ sec then
      s.modVlk fun v => { v with segGen := g, keyNew := none, segFrames := 0, seqDn := 0, segAt := now s }
    else s
  | none => s

/-- A broadcast of the Lantern under its segment key. -/
def sendSeg (s : State) : State :=
  vlkBump 0 (s.modVlk fun v => { v with segFrames := v.segFrames + 1, seqDn := v.seqDn + 1 })

/-- The payload of a BEACON (R411): seconds at the mark, the own bound on the error, TIER, and FLAGS LOCKED and SOURCE. -/
def beaconPayload (s : State) : Nat :=
  packed [(6, s.vlk.timeNs / 1000000000), (4, s.vlk.errNs), (1, segTier s), (1, flag s.vlk.locked 0 + flag s.vlk.root 1)]

/-- The next whole second of VLK time, and its BEACON. -/
def execBeaconSend (s : State) : Out :=
  .next <|
    if isLantern s && mayTransmit 1 s then
      let s := elapse ((1000000000 - s.vlk.timeNs % 1000000000 + 999) / 1000) s
      let s := keyAtBeacon (s.vlk.timeNs / 1000000000) s
      vlkBump 6 (sendSeg (s.modVlk fun v => { v with sentBeacon := beaconPayload s }))
    else s

/-- LOCKED clears and HOLDOVER sets (R411). -/
def toHoldover (s : State) : State :=
  if s.vlk.locked then
    raiseLine 429 (ev .vlk 0x0F31 (par s.vlk.lastOff) 0 0
      (s.modVlk fun v => { v with locked := false, holdover := true, agree := 0 }))
  else s

/-- A beacon that was missed or failed; its error bound grows by 1 us for each second of holdover. -/
def beaconLost (s : State) : State :=
  let s := s.modVlk fun v => { v with
    missedB := min 4 (v.missedB + 1), agree := 0, errNs := if v.holdover then v.errNs + 1000 else v.errNs }
  if s.vlk.missedB = 4 then toHoldover s else s

/-- A beacon that fails authentication (R410): after four in a row the Candle enrols again. -/
def beaconFailed (s : State) : State :=
  if s.vlk.enr then
    let s := beaconLost (s.modVlk fun v => { v with failedB := v.failedB + 1 })
    if 4 ≤ s.vlk.failedB then
      unenrol (ev .vlk 0x0F12 ((s.vlk.lantern.map (·.1)).getD 0) 0 0 s)
    else s
  else s

/-- VLK time is steered by a beacon's offset (R411): while LOCKED an error of at most 0.6 us is left, and before that some
part of the offset; how much is free. -/
def steer (off : Int) (s : State) : State :=
  let e : Int :=
    if s.vlk.locked then (draw 1201 s : Int) - 600
    else (if off < 0 then -1 else 1) * (draw (off.natAbs + 1) s : Int)
  s.drawn.modVlk fun v => { v with timeNs := ((v.timeNs : Int) - off + e).toNat }

/-- CAL follows VLK time (R412). -/
def steerCal (s : State) : State :=
  if fld .vlkCfg 0 0 28 28 s = 1 ∧ s.vlk.locked then
    let off : Int := (s.vlk.timeNs : Int) - calNs s
    if 100000000 < off.natAbs then
      let t := s.vlk.timeNs / 1000
      ev .vlk 0x0F32 (par (clamp (-2147483648) 2147483647 (roundDiv off 1000000000))) 0 0
        (calLoad (t / 1000000 % 2 ^ 48) (t % 1000000) 3 s)
    else if 20000 < off.natAbs then writeCalAdj (2 ^ 31 + field 24 (roundDiv off 1000)) s
    else s
  else s

/-- The offset that a beacon shows, corrected by VLK_CFG.DLY for the cable's delay (R411). -/
def beaconOff (b : Beacon) (s : State) : Int := b.offNs - fld .vlkCfg 0 0 23 16 s

/-- An authenticated beacon. -/
def beaconTaken (b : Beacon) (s : State) : State :=
  let s := vlkBump 6 (keyAtBeacon b.sec s)
  let off := beaconOff b s
  let good := off.natAbs ≤ 500
  let s := s.modVlk fun v => { v with
    missedB := 0, failedB := 0, lastOff := off, agree := if good then min 4 (v.agree + 1) else 0 }
  let s :=
    if s.vlk.agree = 4 ∧ !s.vlk.locked then
      raiseLine 429 (ev .vlk 0x0F30 (par off) 0 0
        (s.modVlk fun v => { v with locked := true, holdover := false, errNs := b.errNs }))
    else s
  steerCal (steer off s)

def execBeaconReceive (f : VFrame) (b : Beacon) (s : State) : Out :=
  .next <| if candleRuns s then
      upSeg f (fun s => if f.hcrcOk then beaconFailed s else beaconLost s) (beaconTaken b) s
    else s

def execBeaconMissed (s : State) : Out :=
  .next <| if candleRuns s && s.vlk.enr then beaconLost (s.modVlk fun v => { v with failedB := 0 }) else s

/-! ### Enrollment (R407-R409) -/

/-- DEVID bytes 0-3 as an event parameter. -/
def devWord (d : Nat) : Nat := d % 2 ^ 32

/-- The slot that the allow table gives for a DEVID; an all-zero entry names no Candle. -/
def allowSlot (devid : Nat) (s : State) : Option Nat :=
  (List.range 64).find? fun k => devid != 0 && engRead (baseOf .vlkAllow s + 16 * k) 16 s == devid

/-- The block's read of the allow table, 64 entries of 16 bytes. -/
def loadAllow (s : State) : State :=
  if fld .vlkCfg 0 0 30 30 s = 1 then engLoad .vlk 0 (baseOf .vlkAllow s) 1024 s else s

/-- The segment's floor capacity (R409). -/
def floorCapacity (s : State) : Nat := if s.vlk.root then fld .segbudget 0 0 23 0 s else fld .vlkFloor 0 0 23 0 s

/-- The floors reserved in the ledger, without slot k. -/
def floorsBut (k : Nat) (s : State) : Nat :=
  (s.vlk.slots.filter fun x => x.k != k).foldl (fun a x => a + x.floor) 0

/-- A floor on slot k keeps the admission rule. -/
def floorFits (k floor : Nat) (s : State) : Bool := floorsBut k s + floor + fld .segrsv 0 0 23 0 s ≤ floorCapacity s

/-- A refused enrollment: 0x0F02 and line 425. -/
def refuseEnroll (devid reason : Nat) (s : State) : State := raiseLine 425 (ev .vlk 0x0F02 (devWord devid) reason 0 s)

/-- One frame sent on a port. -/
def sendFrame (port : Fin 2) (s : State) : State := if mayTransmit port s then vlkBump 0 s else s

def execDiscoverSend (s : State) : Out :=
  .next <|
    if isLantern s && mayTransmit 1 s && fld .vlkCfg 0 0 30 30 s == 1 && s.vlk.slots.length < 64 then vlkBump 0 s else s

/-- An unenrolled Candle answers with a HELLO in a random window. -/
def execDiscoverReceive (f : VFrame) (s : State) : Out :=
  .next <|
    if candleRuns s then
      vlkReceive 0 f true f.authOk true id (fun s => if s.vlk.enr then s else sendFrame 0 s.drawn) s
    else s

/-- A fresh ledger entry, or the same Candle's own with the grants that have not expired. -/
def provisional (k devid floor : Nat) (s : State) : VSlot :=
  let old := slotAt k s
  { k := k, state := .enrolling, devid := devid, floor := floor, req := 0
    grant := (old.map (·.grant)).getD 0, expiry := (old.map (·.expiry)).getD 0, older := (old.map (·.older)).getD []
    missed := 0, badTag := 0, first := false, slept := false, more := 0, polled := false, lastSeq := 0, seen := []
    txSeq := 0, asked := false, removing := false }

/-- Step 1: the Lantern judges a HELLO. -/
def takeHello (devid floor : Nat) (s : State) : State :=
  let any := fld .vlkCfg 0 0 29 29 s == 1
  let named := allowSlot devid s
  if fld .vlkCfg 0 0 30 30 s = 0 then s
  else if named.isNone && !any then sendFrame 1 (refuseEnroll devid 3 s)
  else
    let k := match named with
      | some k => match slotAt k s with
        | some x => if x.devid == devid then some k else none
        | none => some k
      | none => lowestFree 64 (s.vlk.slots.map (·.k))
    match k with
    | none => sendFrame 1 (refuseEnroll devid 5 s)
    | some k =>
      if floorFits k floor s then sendFrame 1 (putSlotK (provisional k devid floor s) s)
      else sendFrame 1 (refuseEnroll devid 4 s)

/-- An enrolling slot is given up. -/
def failEnroll (k devid reason : Nat) (s : State) : State := freeSlot k (refuseEnroll devid reason s)

/-- Step 3: the Candle judges the Lantern. -/
def judgeLantern (ident devid : Nat) (cert auth : SigObj) (authDevid authIdent authExp : Nat) (tOk : Bool) (s : State) :
    State :=
  if !(umwynSigned 3 cert s) || !tOk then refuseEnroll devid 1 s
  else if !(ownerSigned auth s) || authDevid != devid || authIdent != ident || authExp ≤ s.cal.sec then
    refuseEnroll devid 2 s
  else sendFrame 0 (s.modVlk fun v => { v with lantern := some (ident, devid), authExp := some authExp })

/-- An ENROLL message acted on. -/
def enrollStep (m : EnrollMsg) (s : State) : State :=
  match m with
  | .hello devid floor => if isLantern s then takeHello devid floor (loadAllow s) else s
  | .offer slot reason ident =>
    if candleRuns s && !s.vlk.enr then
      if slot = 255 then refuseEnroll s.sec.devid reason s else s.modVlk fun v => { v with ident := ident % 2 ^ 24 }
    else s
  | .lanternId ident devid cert auth ad ai ae tOk =>
    if candleRuns s && !s.vlk.enr && secRuns s then judgeLantern ident devid cert auth ad ai ae tOk s else s
  | .candleId slot devid cert tOk =>
    match slotAt slot s with
    | some x =>
      if isLantern s && secRuns s && x.state == .enrolling && x.devid == devid then
        if umwynSigned 3 cert s && tOk then sendFrame 1 s else failEnroll slot devid 1 s
      else s
    | none => s
  | .keynew gen =>
    match s.vlk.lantern with
    | some (_, devid) =>
      if candleRuns s && !s.vlk.enr && secRuns s then
        let s := s.modVlk fun v => { v with
          enr := true, keyGen := gen, rxLink := none, rxSeg := none, seenLink := [], seenSeg := [], seqUp := 1 }
        sendFrame 0 (raiseLine 424 (ev .vlk 0x0F01 s.vlk.ident (devWord devid) 0 s))
      else s
    | none => s
  | .confirm slot =>
    match slotAt slot s with
    | some x =>
      if isLantern s && secRuns s && x.state == .enrolling then
        raiseLine 424 (ev .vlk 0x0F03 slot (devWord x.devid) 0 (slotTo slot .active s))
      else s
    | none => s

/-- A message for the Lantern arrives on VLK_DN. -/
def enrollDown (m : EnrollMsg) : Bool :=
  match m with | .hello .. | .candleId .. | .confirm .. => true | _ => false

/-- Frames without a link carry no identifier of an unenrolled Candle: an OFFER names it by its window. -/
def enrollDst (f : VFrame) (m : EnrollMsg) (s : State) : Bool :=
  match m with | .offer .. => true | _ => toOwn f s

def execEnrollReceive (f : VFrame) (msg : EnrollMsg) (s : State) : Out :=
  .next <|
    if (if enrollDown msg then isLantern s else candleRuns s) = true then
      vlkReceive (if enrollDown msg then 1 else 0) f (enrollDst f msg s) f.authOk true id (enrollStep msg) s
    else s

/-! ### Grants of the Lantern (R414-R416) -/

/-- The segment budget. -/
def segBudget (s : State) : Nat :=
  if s.vlk.root then fld .segbudget 0 0 23 0 s
  else if s.llt.leaseValid then s.llt.leaseMw - fld .segrsv 0 0 23 0 s
  else fld .vlkFloor 0 0 23 0 s - fld .segrsv 0 0 23 0 s

/-- The power granted to a slot now: the request, or the most that fits, never below the floor. Requests that could not be
met go first: those of slots still to be polled in this cycle are set aside. In the quiet period only floors. -/
def grantMw (x : VSlot) (s : State) : Nat :=
  if s.vlk.quietEnd.isSome then x.floor
  else
    let others := (s.vlk.slots.filter fun y => y.k != x.k).foldl (fun a y =>
      a + (if !x.first && y.first && x.k < y.k then max y.req (reservedMw y s) else reservedMw y s)) 0
    let room := segBudget s - others
    max x.floor (min x.req room)

/-- The end of a grant made now: LEASEMS, and for a Lantern with a lease of its own at least 2 ms before that ends. -/
def grantEnd (s : State) : Nat :=
  let e := now s + leaseMs s
  if !s.vlk.root && s.llt.leaseValid then min e (s.llt.leaseExp - 2) else e

/-- A POLL to the slot carries a grant (R414). -/
def grantsNow (x : VSlot) (s : State) : Bool := (x.asked || x.first) && now s < grantEnd s

/-- The LEASE item of a POLL. -/
def grantLease (k : Nat) (s : State) : State :=
  match slotAt k s with
  | some x =>
    if grantsNow x s then
      let mw := grantMw x s
      let e := grantEnd s
      modSlot k (fun x => { x with
        older := (if now s < x.expiry then [(x.grant, x.expiry)] else []) ++ x.older.filter fun g => decide (now s < g.2)
        grant := mw, expiry := e, asked := false, first := decide (mw < x.req) }) s
    else s
  | none => s

/-! ### Images (R420) -/

/-- One IMAGE frame after a poll: the first pass in order, then the chunks reported missing, a round at a time. -/
def sendChunk (s : State) : State :=
  match s.vlk.txImg with
  | none => s
  | some i =>
    if i.next < i.chunks then sendSeg (s.modVlk fun v => { v with txImg := some { i with next := i.next + 1 } })
    else
      match i.have_ with
      | _ :: t => sendSeg (s.modVlk fun v => { v with txImg := some { i with have_ := t } })
      | [] =>
        if i.rounds = 0 then s.modVlk fun v => { v with txImg := none }
        else
          match i.nak with
          | [] => s
          | _ :: t => sendSeg (s.modVlk fun v => { v with
              txImg := some { i with have_ := t, nak := [], rounds := i.rounds - 1 } })

/-! ### Polling (R406, R417) -/

/-- The slot that the next POLL goes to: ascending, from the lowest again after the highest. -/
def nextSlot (s : State) : Option VSlot :=
  match s.vlk.slots.find? fun x => s.vlk.pollNext ≤ x.k with
  | some x => some x
  | none => s.vlk.slots.head?

/-- The items of the POLL to a slot (table Poll and reply items): the grant just made, a KEYNEW that waits for its beacon,
for a Candle that is not silent (R410), and an ATTREQ with a free nonce (R421). -/
def pollItems (x : VSlot) (granted : Bool) (s : State) : List VItem :=
  (match slotAt x.k s with
    | some y => if granted then [.lease y.grant (y.expiry - now s)] else []
    | none => []) ++
  (match s.vlk.keyNew with | some (g, t) => if x.state == .silent then [] else [.keynew g t] | none => []) ++
  (if s.vlk.attPend == some x.k then [.attreq (draw (2 ^ 256) s)] else [])

/-- The POLL to a slot. -/
def pollSlot (x : VSlot) (s : State) : State :=
  let g := grantsNow x s
  let s := grantLease x.k s
  let s := (s.modVlk fun v => { v with sentDn := pollItems x g s }).drawn
  let s := modSlot x.k (fun x => { x with polled := true, txSeq := x.txSeq + 1 }) s
  let s := s.modVlk fun v => { v with
    pollNext := x.k, attPend := if v.attPend == some x.k then none else v.attPend }
  sendChunk (vlkBump 0 s)

def execPollSend (s : State) : Out :=
  .next <|
    if isLantern s && mayTransmit 1 s && !(s.vlk.slots.any (·.polled)) then
      match nextSlot s with
      | some x => pollSlot x s
      | none => s
    else s

/-- A grant received (R413): the lease, its expiry and its renewal; the first after a loss records 0x0F21. -/
def takeLease (mw dur : Nat) (s : State) : State :=
  let s := if s.llt.leaseValid && s.vlk.window.isNone then vlkBump 7 s else s
  let lost := s.vlk.lostOnce
  let s := setLease (mw % 2 ^ 24) (now s + dur - 2) s
  let s := s.modVlk fun v => { v with
    renewAt := some (now s + dur / 2), leaseDur := dur, ask := false, lostOnce := false
    backoff := none, window := none, windowUsed := false }
  if lost then raiseLine 426 (ev .vlk 0x0F21 (leaseWord s) 0 0 s) else s

/-- The items of a POLL that a Candle acts on. -/
def takePollItem (s : State) (i : VItem) : State :=
  match i with
  | .lease mw dur => takeLease mw dur s
  | .attreq nonce => if secRuns s then (takeNonce nonce s).modVlk fun v => { v with attTx := some 0 } else s
  | .keynew gen at_ => s.modVlk fun v => { v with keyNext := some (gen % 128, at_) }
  | _ => s

/-- Bytes of an attestation report (R421). -/
def reportBytes : Nat := 13000

/-- VLK_LREQ as it reads: kept by hardware in a non-root Lantern (R415). -/
def vlkLreqWord (s : State) : Nat :=
  if s.sys.pers == .lantern && !s.vlk.root then
    ((s.vlk.slots.filter fun x => x.state != .silent).foldl (fun a x => a + x.req) (fld .segrsv 0 0 23 0 s)) % 2 ^ 24
  else fld .vlkLreq 0 0 23 0 s

/-- The REPLY asks for a lease: the renewal is due, or no lease is in force (R413). -/
def asksLease (s : State) : Bool := s.vlk.ask || !s.llt.leaseValid

/-- Chunks of the image being received that are missing. -/
def missingChunks (i : VImage) : List Nat := (List.range i.chunks).filter fun c => !(i.have_.contains c)

/-- The part of the report that goes next (R421): its offset. It does not fit beside a request for a lease in 256 bytes
(log 190). -/
def nextReport (s : State) : Option Nat :=
  match s.vlk.attTx with
  | some o => if s.sec.repReady && s.vlk.fwd.isEmpty && !(asksLease s) then some o else none
  | none => none

/-- The long item of a REPLY: forwarded events, else a part of a report, else the missing chunks of an image; one at a time
(log 190). -/
def longItem (s : State) : List VItem :=
  if !s.vlk.fwd.isEmpty then [.events ((s.vlk.fwd.take 6).map fun f => (recWord f.ev, f.origin))]
  else
    match nextReport s with
    | some o => [.attrpt o (toBytes (min 248 (reportBytes - o)) (s.sec.report / 256 ^ o))]
    | none =>
      match s.vlk.rxImg with
      | some i => if asksLease s || (missingChunks i).isEmpty then [] else [.nak i.ident ((missingChunks i).take 62)]
      | none => []

/-- The items of a REPLY (table Poll and reply items); SLEEP names the power state by its code in WCK_PREQ. -/
def replyItems (s : State) : List VItem :=
  let long := longItem s
  (if asksLease s then [.leaseReq (vlkLreqWord s) (fld .vlkFloor 0 0 23 0 s)] else []) ++ long ++
  if long.isEmpty then
    (match s.vlk.imgDone with | some (i, r) => [.imgdone i r] | none => []) ++
    (if s.pwr.phase == .entering then
      match s.pwr.target with | .glow => [.sleep 2] | .dark => [.sleep 3] | _ => []
    else [])
  else []

/-- The REPLY of a Candle (R405, R413, R419-R421). MORE is set while more of a queue or of a report waits. -/
def sendReply (s : State) : State :=
  if mayTransmit 0 s then
    let long := longItem s
    let att := match nextReport s with
      | some o => if reportBytes ≤ o + 248 then none else some (o + 248)
      | none => s.vlk.attTx
    vlkBump 0 (s.modVlk fun v => { v with
      sentUp := replyItems s, sentMore := 6 < v.fwd.length || (s.sec.repReady && att.isSome)
      seqUp := v.seqUp + 1, fwd := v.fwd.drop 6, attTx := att, ask := false
      imgDone := if long.isEmpty then none else v.imgDone
      dropNoted := v.dropNoted && v.fwd.isEmpty })
  else s

def execPollReceive (f : VFrame) (s : State) : Out :=
  .next <| if candleRuns s then upLink f (fun s => sendReply (f.items.foldl takePollItem s)) s else s

/-- Entries that the aggregation ring holds; the manual gives no number (log 2). -/
def ringEntries : Nat := zeroAsOne (Config.ringEntries % 2 ^ 24)

/-- The TIME field of an event record at the present VLK time. -/
def vlkStamp (s : State) : Nat :=
  s.vlk.timeNs / 1000 % 1000000 + s.vlk.timeNs / 1000000000 % 2 ^ 44 * 2 ^ 20

/-- An entry received into the ring, and forwarded unchanged by a Lantern that is itself a Candle (R419). -/
def takeEntry (s : State) (r : Nat × Nat) : State :=
  let w := r.1 % 2 ^ 256 + r.2 % 2 ^ 32 * 2 ^ 256 + vlkStamp s * 2 ^ 320
  let i := s.vlk.ringCount % ringEntries
  let s := vlkWrite (baseOf .aggbase s + 48 * i) (toBytes 48 w) s
  let s := s.modVlk fun v => { v with ringCount := v.ringCount + 1 }
  let s := if i + 1 = (ringEntries + 1) / 2 then raiseLine 431 s else s
  if candleRuns s then forwardPut { ev := wordRec r.1, origin := r.2 } s else s

/-- A part of an attestation report: assembled at the address in VLK 0x08C, line 433 when it is whole (R421). -/
def takeReport (k off : Nat) (l : List Byte) (s : State) : State :=
  match s.vlk.attRx with
  | some (slot, got) =>
    if slot = k then
      let s := vlkWrite (baseOf .attrpt s + off) l s
      let got := max got (off + l.length)
      if reportBytes ≤ got then raiseLine 433 (s.modVlk fun v => { v with attRx := none })
      else s.modVlk fun v => { v with attRx := some (slot, got) }
    else s
  | none => s

/-- The items of a REPLY that the Lantern acts on. A declared floor that would break the admission rule is not taken. -/
def takeReplyItem (k : Nat) (s : State) (i : VItem) : State :=
  match i with
  | .leaseReq mw floor =>
    let fl := floor % 2 ^ 24
    let ok := floorFits k fl s
    modSlot k (fun x => { x with req := mw % 2 ^ 24, floor := if ok then fl else x.floor, asked := true }) s
  | .events recs => recs.foldl takeEntry s
  | .nak image missing =>
    match s.vlk.txImg with
    | some t =>
      if t.ident = image then
        s.modVlk fun v => { v with
          txImg := some { t with nak := (missing.filter (· < t.chunks)).foldl (fun l c => insertNat c l) t.nak } }
      else s
    | none => s
  | .attrpt off l => takeReport k off l s
  | .sleep _ => modSlot k (fun x => { x with slept := true }) s
  | _ => s

/-- The slot polled has been answered: a SILENT or DORMANT Candle returns (R417). -/
def slotAnswers (k : Nat) (s : State) : State :=
  match slotAt k s with
  | some x =>
    let s := modSlot k (fun x => { x with missed := 0, badTag := 0, slept := false }) s
    match x.state with
    | .silent => ev .vlk 0x0F24 k (heldMw x s) 0 (slotTo k .active s)
    | .dormant => slotTo k .active s
    | _ => s
  | none => s

/-- The poll of a slot is over. The slot is polled again while its REPLY has MORE, up to 16 times. -/
def pollDone (k : Nat) (more : Bool) (s : State) : State :=
  match slotAt k s with
  | some x =>
    let again := more && x.more + 1 < 16
    let s := modSlot k (fun x => { x with polled := false, more := if again then x.more + 1 else 0 }) s
    s.modVlk fun v => { v with pollNext := if again then k else k + 1 }
  | none => s.modVlk fun v => { v with pollNext := k + 1 }

/-- A REPLY that fails its tag; eight in a row on an ACTIVE slot mean two Candles on it (R422). -/
def replyBad (k : Nat) (s : State) : State :=
  match slotAt k s with
  | some x =>
    if x.state == .active && 7 ≤ x.badTag then freeSlot k (ev .vlk 0x0F51 k 0 0 s)
    else modSlot k (fun x => { x with badTag := x.badTag + 1 }) s
  | none => s

def execReplyReceive (f : VFrame) (s : State) : Out :=
  .next <|
    if isLantern s then
      match s.vlk.slots.find? (·.polled) with
      | some x =>
        let fresh := seqFresh (if x.seen.isEmpty then none else some x.lastSeq) x.seen f.seq
        let s' := vlkReceive 1 f (toOwn f s && f.src == candleId x.k s) f.authOk fresh
          (fun s => if f.hcrcOk then replyBad x.k s else s)
          (fun s =>
            let r := seqTake (if x.seen.isEmpty then none else some x.lastSeq) x.seen f.seq
            let s := modSlot x.k (fun x => { x with lastSeq := r.1.getD 0, seen := r.2 }) s
            f.items.foldl (takeReplyItem x.k) (slotAnswers x.k s)) s
        pollDone x.k (f.hcrcOk && f.authOk && f.more) s'
      | none => s
    else s

/-- The 8th missed poll: DORMANT for a Candle that sent SLEEP, SILENT for any other (R417). -/
def slotSilent (x : VSlot) (s : State) : State :=
  if x.state == .silent || x.state == .dormant then s
  else if x.slept then slotTo x.k .dormant s
  else raiseLine 428 (ev .vlk 0x0F23 x.k (heldMw x s) 0 (slotTo x.k .silent s))

def execPollMissed (s : State) : Out :=
  .next <|
    if isLantern s then
      match s.vlk.slots.find? (·.polled) with
      | some x =>
        let s := vlkBump 5 (modSlot x.k (fun x => { x with missed := min 8 (x.missed + 1) }) s)
        pollDone x.k false (if 7 ≤ x.missed then slotSilent x s else s)
      | none => s
    else s

/-! ### Images received (R420) -/

/-- The fan-out of an image on the own segment. -/
def startFanout (ident chunks : Nat) (s : State) : State :=
  s.modVlk fun v => { v with
    txImg := some { ident := ident, chunks := chunks, have_ := [], nak := [], rounds := fld .imgcmd 0 0 27 24 s, next := 0 } }

/-- A chunk into the buffer; the last one missing raises line 432 and records 0x0F40. Firmware then has the image verified, a
free outcome, and reports IMGDONE. -/
def takeChunk (ident chunk chunks : Nat) (l : List Byte) (s : State) : State :=
  if reg .imgbase 0 0 s = 0 then s
  else
    let i := match s.vlk.rxImg with
      | some i => if i.ident = ident then i else { ident := ident, chunks := chunks, have_ := [], nak := [], rounds := 0, next := 0 }
      | none => { ident := ident, chunks := chunks, have_ := [], nak := [], rounds := 0, next := 0 }
    if chunks ≤ chunk then s
    else
      let s := vlkWrite (baseOf .imgbase s + 240 * chunk) (l.take 240) s
      let had := i.have_.length
      let i := { i with have_ := insertNat chunk i.have_ }
      let s := s.modVlk fun v => { v with rxImg := some i }
      if had < i.chunks ∧ i.chunks ≤ i.have_.length then
        let s := raiseLine 432 (ev .vlk 0x0F40 ident chunks 0 s)
        let s := s.drawn.modVlk fun v => { v with imgDone := some (ident, draw 2 s == 1) }
        if isLantern s && fld .vlkCfg 0 0 27 27 s == 1 then startFanout ident chunks s else s
      else s

def execImageReceive (f : VFrame) (ident chunk chunks : Nat) (bytes : List Byte) (s : State) : Out :=
  .next <| if candleRuns s then upSeg f id (takeChunk ident chunk chunks bytes) s else s

/-- A write of VLK_IMGCMD: GO starts the fan-out of an image of LEN KiB; its identifier is free. -/
def writeImgcmd (v : Nat) (s : State) : State :=
  let s := storeFields .imgcmd 0 0 v s
  if v.testBit 31 && isLantern s then
    startFanout (draw (2 ^ 32) s) ((fld .imgcmd 0 0 11 0 s * 1024 + 239) / 240) s.drawn
  else s

def execImageFanout (_m : Master) (v : Word) (s : State) : Out :=
  .next <| access .vlk 0 (Reg.addr .imgcmd 0 0) (writeImgcmd (v.toNat ||| 2 ^ 31)) s

/-! ### Wake (R417) -/

/-- The wick's detector responds to a run of at least 200 ones on VLK_UP. -/
def execVlkWake (ones periods : Nat) (env : BootEnv) (s : State) : Out :=
  .next <|
    if 200 ≤ ones && s.sys.pers != .factory && !(s.sys.pers == .lantern && s.vlk.root) then
      wakeAct periods (some env) (noteWake 0x10 s)
    else s

/-! ### Leases of a Candle (R413, R418) -/

/-- Half the received duration has passed: the next REPLY asks for renewal. -/
def execLeaseRenewalRequest (s : State) : Out :=
  .next <|
    match s.vlk.renewAt with
    | some t =>
      if candleRuns s then (advanceTo (t * 1000) s).modVlk fun v => { v with renewAt := none, ask := true } else s
    | none => s

/-- The lease expires without renewal: 0x0F20, line 426, and an orphaned episode begins. -/
def execLeaseExpiry (s : State) : Out :=
  .next <|
    if s.llt.leaseValid && s.vlk.window.isNone then
      let s := clearLease (advanceTo (s.llt.leaseExp * 1000) s)
      let s := s.modVlk fun v => { v with lostOnce := true, renewAt := none, ask := false, windowUsed := false, backoff := none }
      startOrphan (raiseLine 426 (ev .vlk 0x0F20 (leaseWord s) 0 0 s))
    else s

def execQuietPeriodEnd (s : State) : Out :=
  .next <|
    match s.vlk.quietEnd with
    | some t => (advanceTo (t * 1000) s).modVlk fun v => { v with quietEnd := none }
    | none => s

/-- The back-off ends with the Candle still orphaned: LLT_LEASE = MW for 10 s, 0x0F22 and line 426. -/
def execOrphanBackoffEnd (s : State) : Out :=
  .next <|
    match s.vlk.backoff with
    | some t =>
      let s := advanceTo (t * 1000) s
      if candleRuns s && !s.llt.leaseValid && fld .orphanSpinup 0 0 31 31 s == 1 then
        let mw := fld .orphanSpinup 0 0 23 0 s
        let s := setLease mw (now s + 10000) s
        let s := s.modVlk fun v => { v with backoff := none, window := some (now s + 10000), windowUsed := true }
        raiseLine 426 (ev .vlk 0x0F22 mw s.vlk.backoffS 0 s)
      else s.modVlk fun v => { v with backoff := none }
    | none => s

/-- The window ends: LLT_LEASE falls back to the floor. -/
def execOrphanWindowEnd (s : State) : Out :=
  .next <|
    match s.vlk.window with
    | some t => (clearLease (advanceTo (t * 1000) s)).modVlk fun v => { v with window := none }
    | none => s

/-! ### Keys (R410) -/

/-- The segment key is replaced at 2^30 frames or 24 hours: KEYNEW names a beacon at least 2 s ahead. -/
def execSegmentKeyRotation (s : State) : Out :=
  .next <|
    if isLantern s && s.vlk.keyNew.isNone then
      let s := if s.vlk.segFrames < 2 ^ 30 then advanceTo ((s.vlk.segAt + 86400000) * 1000) s else s
      s.modVlk fun v => { v with keyNew := some ((v.segGen + 1) % 128, v.timeNs / 1000000000 + 3) }
    else s

/-- The calendar passes the expiry of the fleet authorization (R408). -/
def execFleetAuthorizationExpiry (s : State) : Out :=
  .next <|
    match s.vlk.authExp with
    | some t =>
      let c := s.cal.sec * 1000000 + s.cal.usec
      unenrol (if c < t * 1000000 then elapse (t * 1000000 - c) s else s)
    | none => s

/-! ### VLK_CMD (R417, R421) -/

/-- WAKE (R417): the Lantern sends a DORMANT Candle a preamble of 256 ones and no frame; a slot in another state gets none. -/
def cmdWake (k : Nat) (s : State) : State :=
  match slotAt k s with
  | some x =>
    if isLantern s && mayTransmit 1 s && x.state == .dormant then s.modVlk fun v => { v with sentWake := some k } else s
  | none => s

/-- ATTREQ: the next POLL of the slot carries a nonce, and the report that comes back is assembled anew. -/
def cmdAttreq (k : Nat) (s : State) : State :=
  if (slotAt k s).isSome then s.modVlk fun v => { v with attPend := some k, attRx := some (k, 0) } else s

/-- The slot's grants have all expired. -/
def grantsOver (x : VSlot) (s : State) : Bool := decide (x.expiry ≤ now s) && x.older.all fun g => decide (g.2 ≤ now s)

/-- The slot is freed and 0x0F04 recorded. -/
def removeSlot (x : VSlot) (s : State) : State := freeSlot x.k (ev .vlk 0x0F04 x.k (devWord x.devid) 0 s)

/-- REMOVE: at once when the grant has expired, else when it expires. -/
def cmdRemove (k : Nat) (s : State) : State :=
  match slotAt k s with
  | some x => if grantsOver x s then removeSlot x s else modSlot k (fun x => { x with removing := true }) s
  | none => s

def execVlkCmdWake (_m : Master) (k : Fin 64) (s : State) : Out :=
  .next <| access .vlk 0 (Reg.addr .vlkCmd 0 0) (cmdWake k) s

def execVlkCmdAttreq (_m : Master) (k : Fin 64) (s : State) : Out :=
  .next <| access .vlk 0 (Reg.addr .vlkCmd 0 0) (cmdAttreq k) s

def execVlkCmdRemove (_m : Master) (k : Fin 64) (s : State) : Out :=
  .next <| access .vlk 0 (Reg.addr .vlkCmd 0 0) (cmdRemove k) s

/-- A grant of a slot reaches its expiry (R414): the earliest of those in force. -/
def execSegmentGrantExpiry (k : Fin 64) (s : State) : Out :=
  .next <|
    match slotAt k s with
    | some x =>
      if grantsOver x s then s
      else
        let ends := (x.expiry :: x.older.map (·.2)).filter fun e => decide (now s < e)
        let t := ends.foldl min (max x.expiry (now s))
        let t := ends.foldl (fun m e => min m e) (ends.headD t)
        let s := advanceTo (t * 1000) s
        let s := modSlot k (fun x => { x with
          grant := if x.expiry ≤ t then 0 else x.grant, older := x.older.filter fun g => decide (t < g.2) }) s
        match slotAt k s with
        | some y => if y.removing && grantsOver y s then removeSlot y s else s
        | none => s
    | none => s

/-! ### Link faults (R422) -/

/-- No valid frame for 3 s on the upstream port. -/
def execLinkOpen (s : State) : Out :=
  .next <|
    if candleRuns s && !s.vlk.upOpen then
      let s := advanceTo ((s.vlk.lastRx + 3000) * 1000) s
      let s := s.modVlk fun v => { v with upOpen := true }
      toHoldover (raiseLine 427 (raiseLine 434 (ev .vlk 0x0F11 0 0 0 s)))
    else s

/-- The driver's current limit on 3 consecutive frames: the port stops transmitting for 1 s. -/
def execLinkShort (port : Fin 2) (s : State) : Out :=
  .next <|
    if (if port = 0 then candleRuns s else isLantern s) && mayTransmit port s then
      raiseLine 434 (ev .vlk 0x0F11 port 1 0
        (s.modVlk fun v => { v with stopUntil := v.stopUntil.set port (some (now s + 1000)) }))
    else s

/-- After 1 s the port tries again. -/
def execLinkRetry (port : Fin 2) (s : State) : Out :=
  .next <|
    match s.vlk.stopUntil[port] with
    | some t => (advanceTo (t * 1000) s).modVlk fun v => { v with stopUntil := v.stopUntil.set port none }
    | none => s

/-! ### Registers -/

/-- A write of VLK_CFG: as EN sets, a Lantern's quiet period begins (R416), a root loads its VLK time from CAL (R411) and
the upstream port begins to listen. -/
def writeVlkCfg (v : Nat) (s : State) : State :=
  let was := fld .vlkCfg 0 0 31 31 s
  let s := storeFields .vlkCfg 0 0 v s
  if was = 0 ∧ fld .vlkCfg 0 0 31 31 s = 1 then
    let s := startQuiet s
    let s := s.modVlk fun x => { x with
      lastRx := now s, segAt := now s, timeNs := if x.root then calNs s else x.timeNs }
    startOrphan s
  else s

/-- VLK_NODE as it reads. -/
def vlkNodeWord (s : State) : Nat :=
  flag s.vlk.enr 31 + flag (s.sys.pers == .lantern) 30 + flag s.vlk.root 29 + s.vlk.ident % 2 ^ 24

/-- A write of VLK_NODE: ROOT in the Lantern personality only, ID while ROOT = 1. -/
def writeVlkNode (v : Nat) (s : State) : State :=
  let root := if s.sys.pers == .lantern then v.testBit 29 else s.vlk.root
  let ident := if s.vlk.root then v % 2 ^ 24 else s.vlk.ident
  guarded .vlk 0 (Reg.addr .vlkNode 0 0) (root != s.vlk.root || ident != s.vlk.ident)
    (fun s => s.modVlk fun x => { x with root := root, ident := ident, enr := if root then true else x.enr && !x.root }) s

/-- A write of VLK_LREQ: RO in a non-root Lantern. -/
def writeVlkLreq (v : Nat) (s : State) : State :=
  if s.sys.pers == .lantern && !s.vlk.root then s else storeFields .vlkLreq 0 0 v s

/-- VLK_SEGBUDGET as it reads. -/
def segbudgetWord (s : State) : Nat := segBudget s % 2 ^ 24

/-- A write of VLK_SEGBUDGET: RWG at a root, RO elsewhere. -/
def writeSegbudget (v : Nat) (s : State) : State := if s.vlk.root then storeFields .segbudget 0 0 v s else s

/-- A write of VLK_ORPHAN_SPINUP. -/
def writeOrphan (v : Nat) (s : State) : State := startOrphan (storeFields .orphanSpinup 0 0 v s)

/-- A write of VLK_CMD: its three commands act on the slot. -/
def writeVlkCmd (v : Nat) (s : State) : State :=
  let k := bits v 5 0
  let s := if v.testBit 31 then cmdWake k s else s
  let s := if v.testBit 30 then cmdAttreq k s else s
  if v.testBit 29 then cmdRemove k s else s

/-- VLK_STAT. -/
def vlkStatWord (s : State) : Nat :=
  flag s.vlk.locked 31 + flag s.vlk.holdover 30 + flag (!s.llt.leaseValid) 29 + flag s.vlk.quietEnd.isSome 28
    + flag s.vlk.invUp 27 + flag s.vlk.invDn 26 + (s.vlk.slots.filter fun x => x.state == .active).length % 128

/-- VLK_LEDGERk word j. -/
def ledgerWord (k j : Nat) (s : State) : Nat :=
  match slotAt k s with
  | none => 0
  | some x =>
    match j with
    | 0 =>
      let st := match x.state with | .free => 0 | .enrolling => 1 | .active => 2 | .dormant => 3 | .silent => 4
      st * 2 ^ 29 + heldMw x s % 2 ^ 24
    | 1 => x.expiry % 2 ^ 32
    | 2 => x.floor % 2 ^ 24
    | _ => x.req % 2 ^ 24

/-- A read of VLK_TIMEUS copies the seconds. -/
def readVlkTime (s : State) : State :=
  { s.modVlk fun v => { v with hSec := v.timeNs / 1000000000 % 2 ^ 48 } with busData := s.vlk.timeNs % 1000000000 }

end Sys2Proof.Machine
end

