-- ==== Sys2Proof/Machine/Service.lean ====
section
/-!
DEFINITION. Retiring a head (R425) and the behaviour profile register (R431) (19_limits_and_service.md).
-/

set_option Elab.async false

namespace Sys2Proof.Machine

open Sys2Proof

/-- HEADRET bits set by a write (W1S). -/
def headretSet (n : Fin 4) (bits_ : Nat) (s : State) : State := s.modAsq n fun a => { a with headRet := a.headRet ||| bits_ }

/-- The zones of a list change their state as the part's own action (R138). -/
def retireZones (st : ZState) (zones : List Nat) (s : State) : State :=
  zones.foldl (fun s i => match zoneTab i s with | some z => ownZoneChange z st s | none => s) s

/-- R425. Its first step: state 1 in log page 0xC3, and the zones on the head become Read Only; which zones those are is
firmware's band layout. Its last two: the zones for which no spare slot exists become Offline, the head's HEADRET bit is
set, and its state is 2. The migrations between them have commands of their own. -/
def execHeadRetire (n : Fin 4) (head : Fin 64) (last : Bool) (zones : List Nat) (s : State) : Out :=
  let mark := fun v (s : State) => s.modHce fun h => { h with headState := sput 0 head.val v h.headState }
  .next <|
    if last then
      access .asq n (Reg.addr .headret n (head.val / 32)) (fun s =>
        headretSet n (1 <<< head.val) (mark 2 (healthAdd .offline head zones.length (retireZones .offline zones s)))) s
    else if s.sys.acoresUp then retireZones .readOnly zones (mark 1 s) else s

/-- A write of SYS_PROFILE: LOCK is set by a 1, PEND is RWG; while LOCK is set PEND stays (R432). -/
def writeProfile (v : Nat) (s : State) : State :=
  let pend := bits v 27 16
  let held := s.sys.profLock
  let s := if v.testBit 31 then s.modSys fun y => { y with profLock := true } else s
  guarded .sys 0 (Reg.addr .profile 0 0) (pend != s.sys.profPend)
    (fun s => if held then s else s.modSys fun y => { y with profPend := pend }) s

end Sys2Proof.Machine
end

