-- ==== Sys2Proof/Machine/Views.lean ====
section
/-!
DEFINITION. What a read of each register returns (R7): the stored RW and RWG fields, and the fields that the hardware
shows, computed from the state.
-/

set_option Elab.async false

namespace Sys2Proof.Machine

open Sys2Proof


/-- A 32-bit half of a 64-bit number. -/
def half (k v : Nat) : Nat := if k = 0 then v % 2 ^ 32 else v / 2 ^ 32 % 2 ^ 32

/-- SYS_BOOTSTAT (05): stage 5 once DMC_INIT is done after stage 4. -/
def viewBootstat (s : State) : Nat :=
  let y := s.sys
  let st := if y.stage = 4 ∧ s.dmc.initDone then 5 else y.stage
  st % 16 * 2 ^ 28 + y.slot % 4 * 2 ^ 26 + y.ares % 256 * 2 ^ 16 + y.bres % 256 * 2 ^ 8 + y.bistf % 256

/-- SYS_SRERR of the array that SYS_SRSEL names (14). -/
def viewSrerr (s : State) : Nat :=
  match s.sys.sramErrs.find? (fun e => e.1 == fld .srsel 0 0 9 0 s) with
  | some (_, ue, ce, row) => min ue 255 * 2 ^ 24 + min ce 4095 * 2 ^ 12 + row % 4096
  | none => 0

/-- IRQ_PENDm (R38): a line stays pending while it is in service. -/
def viewPend (m : Nat) (s : State) : Nat :=
  (List.range 32).foldl (fun a j =>
    let k := 32 * m + j
    a + flag (srcPending k s || (128 ≤ k && inService k s)) j) 0

/-- WCK_PSTATE (04). -/
def viewPstate (s : State) : Nat :=
  let ph := match s.pwr.phase with | .settled => 0 | .entering => 1 | .unwinding => 2 | .waking => 3
  ph * 256 + psCode s.pwr.target * 16 + psCode s.pwr.state

/-- CLK_DOMk.ACTIVE (04): the clock is not gated and its source runs. -/
def clkActive (k : Nat) (s : State) : Bool :=
  let src := fld .clkDom 0 k 11 8 s
  k < 2 || (fld .clkDom 0 k 0 0 s == 0 && clkSrcOk k src s && (src != 5 || s.clk.xo40ok))

/-- LLT_TKTk (R84). -/
def viewTkt (w k : Nat) (s : State) : Nat :=
  match ticketAt k s with
  | none => 0
  | some t =>
    if w = 0 then (match t.state with | .queued => 1 | .granted => 2) * 2 ^ 28 + t.cls % 16 * 2 ^ 24 + t.mw % 2 ^ 24
    else t.at_ % 2 ^ 32

/-- LLT_RESPp (R84). -/
def viewResp (p : Nat) (s : State) : Nat :=
  let x := s.llt.ports[finPort p]
  x.state % 16 * 2 ^ 28 + x.reason % 16 * 2 ^ 24 + x.gen % 256 * 2 ^ 8 + x.ticket % 128

/-- CAL_STAT (17). -/
def viewCalStat (s : State) : Nat :=
  let c := s.cal
  flag c.rcTime 31 + flag c.rcSince 30 + flag (c.adjRem != 0) 29 + c.src % 8 * 2 ^ 24 + field 24 c.adjRem

/-- EVR registers held by the last read of EVR_NEXT0 (R388): NEXT1, OLDEST0, OLDEST1, STAT. -/
def viewHeld (j : Nat) (s : State) : Nat :=
  match s.evr.hold with
  | some (n1, o0, o1, st) => match j with | 0 => n1 | 1 => o0 | 2 => o1 | _ => st
  | none =>
    match j with
    | 0 => s.evr.next / 2 ^ 32 % 2 ^ 32
    | 1 => evrOldest s % 2 ^ 32
    | 2 => evrOldest s / 2 ^ 32 % 2 ^ 32
    | _ => evrStat s

/-- THM_STATE (16). -/
def viewThmState (s : State) : Nat :=
  flag s.thm.shut 31 + flag s.thm.throt 30 + flag s.thm.warn 29 + flag s.thm.arrayFail 28 + exclMask s

/-- THM_SENSk (16). -/
def viewSens (k : Nat) (s : State) : Nat :=
  let x := sensor k s
  flag x.valid 31 + flag x.excl 30 + field 12 x.temp

/-- The trim registers that hardware shows (16); a trim that does not exist reads 0. -/
def viewTrim (r : Reg) (t : Nat) (s : State) : Nat :=
  if trimExists t s then
    let x := trimAt t s
    match r with
    | .trmTrim0 => x.target % 4096 * 2 ^ 16 + x.code % 4096
    | .trmTrim1 => trimClass t
    | .trmComp3 => field 16 x.auto * 2 ^ 16 + field 16 x.comp
    | _ => x.count % 2 ^ 16 * 2 ^ 16 + field 16 x.stat
  else 0

/-- HCE_FETCHSTAT (06, R119). -/
def viewFetchstat (s : State) : Nat :=
  let (l, t, a) := match s.hce.pause with | some (l, t, a, _) => (l, t, a) | none => (false, false, false)
  flag s.hce.pause.isSome 31 + flag a 30 + flag t 29 + flag l 28 + s.hce.cmds.length % 2 ^ 13 * 2 ^ 14
    + s.lgr.entries.length % 2 ^ 14

/-- RVR_STAT (07). -/
def viewRvrStat (s : State) : Nat :=
  flag (rvrArmed s) 31 + flag s.rvr.commit 30 + flag s.rvr.replay 29 + flag (rvrHeld s) 28 + s.rvr.erased % 2 ^ 16

/-- DMC_INIT (05). -/
def viewDmcInit (s : State) : Nat :=
  flag s.dmc.initDone 31 + flag s.dmc.initBusy 30 + flag s.dmc.initFail 29 + min s.dmc.mib 0x7FFF

/-- DMC_ROWLOGi (14). -/
def viewRowlog (w i : Nat) (s : State) : Nat :=
  match s.dmc.rowLog.find? (·.i == i) with
  | none => 0
  | some e =>
    if w = 0 then
      2 ^ 31 + flag e.ue 30 + e.rank % 2 * 2 ^ 29 + e.subch % 2 * 2 ^ 28 + e.dev % 16 * 2 ^ 24 + e.bg % 8 * 2 ^ 21
        + e.ba % 4 * 2 ^ 19 + e.row % 2 ^ 16
    else e.since % 2 ^ 16 * 2 ^ 16 + min e.ce 0xFFFF

/-- BCC registers that hardware shows (14). -/
def viewBcc (r : Reg) (k : Nat) (s : State) : Nat :=
  let b := s.bcc
  match r with
  | .opres => flag b.opDone 31 + b.opRes % 8 * 2 ^ 28 + b.opNfail % 2 ^ 24
  | .opfail => if k = 0 then b.opFail * 128 % 2 ^ 32 else b.opFail * 128 / 2 ^ 32 % 256
  | .waydis => maskOf b.wayDis
  | .lockinval => b.lockInval % 2 ^ 32
  | .bccDirty => (b.lines.filter fun l => l.valid && l.dirty).length % 2 ^ 18
  | .drainset => b.drainSet % 8192
  | .lockcnt => (b.lines.filter fun l => l.locked && l.way == k).length % 2 ^ 13
  | _ => vget b.wayCe k 0 % 2 ^ 16

/-- CST_ACT (08). -/
def viewAct (s : State) : Nat :=
  (match s.cst.act with | .idle => 0 | .armed => 1 | .copying => 2 | .abandoned => 3) * 2 ^ 28 + flag s.cst.actKind 27

/-- CST_MATCHk (R189). -/
def viewMatch (k : Nat) (s : State) : Nat :=
  match s.cst.mtch.find? (fun m => m.1 == k) with
  | some (_, rom, off) => 2 ^ 31 + rom % 2 ^ 15 * 2 ^ 16 + off % 2 ^ 11
  | none => 0

/-- CST_DISPk (R188). -/
def viewDisp (k : Nat) (s : State) : Nat :=
  let d := dispAt k s
  flag d.valid 31 + flag d.opn 30 + d.addr % 2 ^ 16

/-- PHASE of ASQn_STATE (08): held when idle with HOLD, an activation hold, or no room for the pending task's result. -/
def asqPhase (n : Fin 4) (s : State) : Nat :=
  let a := s.asq[n]
  match a.phase with
  | .halted => 6
  | .abortHandler => 3
  | .faultHandler => 4
  | .running => if isWaiting a then 2 else 1
  | .idle =>
    if (hdrOf .asq n s).ctlHi.testBit 0 || a.actHold || (a.pvalid && 6 ≤ a.results.length) then 5 else 0

/-- ASQn_STATE (08). -/
def viewAsqState (n : Fin 4) (s : State) : Nat :=
  let a := s.asq[n]
  asqPhase n s * 2 ^ 28 + flag a.pvalid 27 + flag a.avalid 26 + flag a.inAtom 25 + flag (a.reqAbort || a.reqDeadline) 24
    + flag a.reqFault 23 + flag a.openX 22 + a.stack.length % 16 * 2 ^ 16 + a.pc % 2 ^ 16

/-- ASQn_LVTKT (R186): the ticket of the ACTIVE task with the state of its port. -/
def viewLvtkt (n : Fin 4) (s : State) : Nat :=
  match s.asq[n].ticket with
  | some (k, g) => 2 ^ 31 + s.llt.ports[leavePort n].state % 16 * 2 ^ 24 + g % 256 * 2 ^ 8 + k % 128
  | none => 0

/-- The words of a result entry (table Result entry). -/
def resultWord (r : AsqResult) (j : Nat) : Nat :=
  match j with
  | 0 => r.tag % 2 ^ 12 * 2 ^ 20 + r.status % 256 * 2 ^ 8 + r.opc % 256
  | 1 => r.done % 2 ^ 17
  | 2 => r.endpc % 2 ^ 16 * 2 ^ 16 + r.fail % 2 ^ 16
  | _ => r.time % 2 ^ 16 * 2 ^ 16 + r.cause % 2 ^ 16

/-- OUTCOME codes of RWCn_LASTSYNC (09). -/
def outcomeCode (o : SyncOutcome) : Nat :=
  match o with
  | .none => 0 | .confirmed => 1 | .bOverrule => 2 | .aOnly => 3 | .bOnly => 4 | .bothMissed => 5 | .blindOk => 6
  | .blindFail => 7 | .late => 8 | .unprimed => 9

/-- RWC registers that hardware shows (09). -/
def viewRwc (r : Reg) (n : Fin 4) (k : Nat) (s : State) : Nat :=
  let x := s.rwc[n]
  match r with
  | .clkstat => flag x.locked 31 + flag (primedNow x) 30 + min x.missRun 3 * 2 ^ 28 + field 12 x.freq * 2 ^ 16
      + field 8 x.pherr
  | .lastsync => outcomeCode x.outcome * 2 ^ 28 + field 6 x.aoff * 2 ^ 22 + field 6 x.boff * 2 ^ 16
      + x.adist % 16 * 2 ^ 12 + x.bdist % 16 * 2 ^ 8
  | .rwcWork => (vget x.work k 0).toNat + (if k = 31 then flag s.asq[n].avalid 31 else 0)
  | .rwcPmon => vget x.cnt k 0 % 2 ^ 32
  | .rwcPmonSh => vget x.shadow k 0 % 2 ^ 32
  | .rwcWrap => x.wrap % 2 ^ 32
  | .rwcMse => x.mseAvg % 2 ^ 16 * 2 ^ 16 + x.mseSect % 2 ^ 16
  | _ => sget 0 k x.hsma % 2 ^ 16

/-- LDP registers that hardware shows (10); the oldest entry of each failure queue. -/
def viewLdp (r : Reg) (k : Nat) (s : State) : Nat :=
  let l := s.ldp
  let f : Option FailEntry := (vget l.ff k []).head?
  match r, f with
  | .ldpStat, _ => l.active.length % 16 * 2 ^ 28 + (l.active.filter (·.recov)).length % 16 * 2 ^ 24
      + flag (ldpBoosted s) 23 + flag (squeezeOn s) 22 + l.queue.length % 128 * 2 ^ 15
  | .ffcnt, _ => (List.range 4).foldl (fun a n => a + (vget l.ff n []).length % 256 * 2 ^ (8 * n)) 0
  | .ldpPmon, _ => vget l.cnt k 0 % 2 ^ 32
  | .ldpPmonSh, _ => vget l.shadow k 0 % 2 ^ 32
  | .ldpWrap, _ => l.wrap % 2 ^ 32
  | _, none => 0
  | .ff0, some e => e.tag % 2 ^ 12 * 2 ^ 20 + e.head % 64 * 2 ^ 14 + flag e.rv 8 + e.rslot % 256
  | .ff1, some e => e.cause % 256 * 2 ^ 24 + e.track % 2 ^ 24
  | _, some e => e.synw % 2 ^ 16 * 2 ^ 16 + e.sector % 2 ^ 16

/-- TPE registers that hardware shows (10). -/
def viewTpe (r : Reg) (k : Nat) (s : State) : Nat :=
  match r with
  | .dlres => flag s.tpe.dlDone 31 + s.tpe.dlRes % 8 * 2 ^ 28 + s.tpe.dlIndex % 2 ^ 18
  | _ =>
    let g := vget s.tpe.grp k {}
    flag g.opn 31 + g.members % 256 * 2 ^ 16 + g.size % 256 * 2 ^ 8

/-- SVEn_STATE (11). -/
def viewSveState (v : Sve) : Nat :=
  flag v.run 31 + flag v.loaded 30 + flag v.seeking 29 + flag v.settled 28 + flag v.onTrack 27 + flag v.hold 26
    + flag (v.move != .none) 25 + flag v.retract 24 + flag v.maFault 23 + flag (v.shockIgn[0] || v.shockIgn[1]) 22
    + min v.strikes 15 * 2 ^ 12 + v.wedge % 512

/-- A coefficient of the table that SVEn_CADDR selects. -/
def coefWord (v : Sve) : Nat := sget 0 v.cIdx (if v.cSel then v.active.coefs else v.shadow.coefs) % 2 ^ 16

/-- SVE registers that hardware shows, or that a field of its own holds (11). -/
def viewSve (r : Reg) (n : Fin 5) (k : Nat) (s : State) : Nat :=
  let v := s.sve[n]
  match r with
  | .sveCfg => flag v.run 31 + fld .sveCfg n 0 15 0 s
  | .sveState => viewSveState v
  | .sveSwap => flag v.pend 30 + v.res % 4 * 2 ^ 28 + v.reason % 16 * 2 ^ 16 + v.row % 512
  | .sveLat => v.maxLate % 2 ^ 16 * 2 ^ 16 + v.static_ % 2 ^ 16
  | .caddr => flag v.cSel 31 + flag v.cInc 30 + v.cIdx % 1024
  | .cdata => coefWord v
  | .saddr => v.sIdx % 256
  | .sdata => field 16 (sget 0 v.sIdx v.s)
  | .trstat => flag v.trRun 31 + flag v.trTrig 30 + flag v.trWrap 29 + v.trIdx % 8192 * 2 ^ 13 + v.trNext % 8192
  | .traddr => flag v.trInc 31 + v.trChan % 4 * 2 ^ 13 + v.trAddr % 8192
  | .trdata => sget 0 (v.trChan * 8192 + v.trAddr) v.trace % 2 ^ 16
  | .svePmon => vget v.cnt k 0 % 2 ^ 32
  | .svePmonSh => vget v.cntSh k 0 % 2 ^ 32
  | .sveWrap => v.wrap % 2 ^ 32
  | _ => half (k % 2) (rowWord v.shadow (k / 2))

/-- SPN_STAT (12). -/
def viewSpnStat (s : State) : Nat :=
  let v := s.spn
  spnCode v.state * 2 ^ 28 + flag v.locked 27 + flag v.swapped 26 + flag v.shift 25 + flag v.chopOn 24 + flag v.chopFlt 23
    + flag v.limited 22 + flag (spinupLeave s) 21 + flag v.unlReq 20 + v.pred % 4 * 2 ^ 18 + v.cause % 256 * 2 ^ 8
    + v.step % 8

/-- LSR_STATn (12); WRITE is PREHEAT with the laser gate high. -/
def viewLsrStat (n : Fin 4) (s : State) : Nat :=
  let l := s.lsr.ch[n]
  let lev := match l.level with | .off => 0 | .bias => 1 | .preheat => if s.rwc[n].lg then 3 else 2
  lev * 2 ^ 30 + flag l.atPwr 29 + flag l.fault 28 + l.head % 64 * 2 ^ 22 + l.mon % 2 ^ 16

/-- OPT registers that hardware shows (13). -/
def viewOpt (r : Reg) (k : Nat) (s : State) : Nat :=
  let p := s.opt.pu[finCh k]
  match r with
  | .optAddr0 => p.aLayer % 4 * 2 ^ 30 + p.aTrack % 2 ^ 24
  | .optAddr1 => flag p.aValid 31 + min p.missRun 7 * 2 ^ 28 + p.aUnit % 512
  | .optStat =>
    let ph := match p.sphase with | .idle => 0 | .layer => 1 | .sled => 2 | .track => 3
    flag p.focused 31 + p.layer % 4 * 2 ^ 29 + flag p.seek 28 + ph * 2 ^ 26 + min p.sleds 15
  | .optPmon => vget s.opt.cnt k 0 % 2 ^ 32
  | .optPmonSh => vget s.opt.cntSh k 0 % 2 ^ 32
  | _ => s.opt.wrap % 2 ^ 32

/-- CIP_LOCK0-1 in Partitioned mode (R353): the namespaces of the open user pages. -/
def derivedLocks (s : State) : Nat :=
  s.sec.users.toList.foldl (fun a u => if u.opn then a ||| u.nsmask % 2 ^ 64 else a) 0

/-- CIP_NSKEYk (R349). -/
def viewNskey (k : Nat) (s : State) : Nat :=
  match s.sec.nskey.find? (fun x => x.1 == k) with
  | some (_, enc, slot) => flag enc 31 + slot % 2 ^ 11
  | none => 0

/-- KST_STAT (15). -/
def viewKst (s : State) : Nat :=
  let c := s.sec
  flag c.l2pend 31 + flag c.encdis 30 + flag c.restored 29 + c.epoch % 32 * 2 ^ 24 + c.alarms % 16 * 2 ^ 20
    + (c.slots.filter (·.valid)).length % 2 ^ 12

/-- The fields of a register that hardware shows, and a register that a field of State of its own holds. -/
def view (r : Reg) (n k : Nat) (s : State) : Nat :=
  match r with
  | .bootstat => viewBootstat s
  | .rstcause => s.sys.rstCause.toNat % 2 ^ 12
  | .profile => flag s.sys.profLock 31 + s.sys.profPend % 4096 * 2 ^ 16 + s.sys.profActive % 4096
  | .srerr => viewSrerr s
  | .rmapcnt => s.sys.repairMap.length % 512
  | .irqPend => viewPend k s
  | .pstate => viewPstate s
  | .wakeen => 0x380
  | .wakesrc => s.pwr.wakeSrc.toNat
  | .waketime => if k = 0 then s.pwr.wakeTime % 2 ^ 32 else s.pwr.wakeTime / 2 ^ 32 % 2 ^ 16
  | .pdstat => maskOf ((List.range 22).filter fun d => pdOn d s)
  | .lltTherm => s.llt.therm % 2 ^ 24
  | .lltLease => leaseWord s
  | .lltAvail => lltAvail s % 2 ^ 24
  | .lltGranted => lltGranted s % 2 ^ 24
  | .lltNow => now s % 2 ^ 32
  | .lltQdepth => (grantedTickets s).length % 128 * 2 ^ 8 + (queuedTickets s).length % 128
  | .lltClassen => 2 ^ 15
  | .lltResp => viewResp k s
  | .lltRespx => s.llt.ports[finPort k].respX % 2 ^ 32
  | .lltOpst => s.llt.ports[finPort k].opst % 4
  | .lltTkt0 => viewTkt 0 k s
  | .lltTkt1 => viewTkt 1 k s
  | .pllstat => flag s.clk.xo40ok 8 + maskOf ((List.range 8).filter fun i => pllLock i s)
  | .clkDom => flag (clkActive k s) 31
  | .calUsec => s.cal.usec % 2 ^ 20
  | .calSec => if k = 0 then s.cal.hSec % 2 ^ 32 else s.cal.hSec / 2 ^ 32 % 2 ^ 16
  | .calStat => viewCalStat s
  | .lifSnapt => if k = 0 then s.lif.shSec % 2 ^ 32 else s.lif.shSec / 2 ^ 32 % 2 ^ 16
  | .lifStat => flag s.lif.opn 31 + s.lif.sat.length % 512
  | .lifSat => (List.range 32).foldl (fun a j => a + flag (s.lif.shSat.contains (32 * k + j)) j) 0
  | .lifSh => half (k % 2) (sget 0 (k / 2) s.lif.shCnt)
  | .evrNext => if k = 0 then s.evr.next % 2 ^ 32 else viewHeld 0 s
  | .evrOldest => if k = 0 then viewHeld 1 s else viewHeld 2 s
  | .evrStat => viewHeld 3 s
  | .evrLost => s.evr.lost % 2 ^ 32
  | .evrBase => half k s.evr.base
  | .evrCur => half k s.evr.cur
  | .evrWinstat => flag s.evr.winDone 31 + s.evr.winRes % 8 * 2 ^ 28 + s.evr.winArea % 4
  | .evrWin => bits s.evr.win (32 * k + 31) (32 * k)
  | .thmMax => thmMaxWord s
  | .thmState => viewThmState s
  | .thmWick => flag s.thm.wickValid 31 + field 12 s.thm.wickTemp
  | .thmSens => viewSens k s
  | .vlkStat => vlkStatWord s
  | .vlkNode => vlkNodeWord s
  | .vlkLreq => vlkLreqWord s
  | .vlkTimeus => s.vlk.timeNs % 1000000000
  | .vlkTimesec => if k = 0 then s.vlk.hSec % 2 ^ 32 else s.vlk.hSec / 2 ^ 32 % 2 ^ 16
  | .segbudget => segbudgetWord s
  | .evdrop => s.vlk.evDrop % 2 ^ 32
  | .ledger => ledgerWord (k / 4) (k % 4) s
  | .vlkPmon => vget s.vlk.cnt k 0 % 2 ^ 32
  | .vlkPmonSh => vget s.vlk.cntSh k 0 % 2 ^ 32
  | .vlkWrap => s.vlk.wrap % 2 ^ 32
  | .trmPend => trmPend s
  | .trmTrim0 => viewTrim .trmTrim0 k s
  | .trmTrim1 => viewTrim .trmTrim1 k s
  | .trmComp3 => viewTrim .trmComp3 k s
  | .trmStat1 => viewTrim .trmStat1 k s
  | .fetchstat => viewFetchstat s
  | .abortres => flag s.hce.abDone 31 + flag s.hce.abMatched 30 + s.hce.abTag % 4096
  | .ordnext => s.lgr.ordNext % 2 ^ 32
  | .oldest => ledgerOldest s % 2 ^ 32
  | .lgrWdata => bits s.lgr.wdata (32 * k + 31) (32 * k)
  | .mcused => mcUsed s % 2 ^ 23
  | .xmtFront => frontier k s
  | .rvrStat => viewRvrStat s
  | .rvrGen => s.rvr.gen % 2 ^ 32
  | .dmcInit => viewDmcInit s
  | .dmcCfg => installedGib s % 2 ^ 16 * 2 ^ 16
  | .dmcScrub => s.dmc.passes % 2 ^ 16
  | .scrubpos => s.dmc.scrubPos % 2 ^ 27
  | .pprres => flag s.dmc.pprDone 31 + s.dmc.pprRes % 8 * 2 ^ 28
  | .splitctl => flag s.dmc.splitDone 29
  | .rowlog0 => viewRowlog 0 k s
  | .rowlog1 => viewRowlog 1 k s
  | .opres => viewBcc .opres k s
  | .opfail => viewBcc .opfail k s
  | .waydis => viewBcc .waydis k s
  | .lockinval => viewBcc .lockinval k s
  | .bccDirty => viewBcc .bccDirty k s
  | .drainset => viewBcc .drainset k s
  | .lockcnt => viewBcc .lockcnt k s
  | .wayce => viewBcc .wayce k s
  | .romver => 0x0B00 * 2 ^ 16 + dtab s
  | .pver => pverWord s
  | .openver => openverWord s
  | .openctl => flag s.cst.openEn 0
  | .cstAct => viewAct s
  | .cstMatch => viewMatch k s
  | .cstDisp => viewDisp k s
  | .asqState => viewAsqState (finCh n) s
  | .asqAbres => flag s.asq[finCh n].abDone 31 + s.asq[finCh n].abRes % 4
  | .asqLvtkt => viewLvtkt (finCh n) s
  | .rescnt => s.asq[finCh n].results.length % 16
  | .asqRes => match s.asq[finCh n].results with | r :: _ => resultWord r k | [] => 0
  | .ptask => (vget s.asq[finCh n].ptask k 0).toNat
  | .cmdres => s.asq[finCh n].cmdRes % 4
  | .atask => (vget s.asq[finCh n].atask k 0).toNat
  | .headret => half k s.asq[finCh n].headRet
  | .clkstat => viewRwc .clkstat (finCh n) k s
  | .lastsync => viewRwc .lastsync (finCh n) k s
  | .rwcWork => viewRwc .rwcWork (finCh n) k s
  | .rwcPmon => viewRwc .rwcPmon (finCh n) k s
  | .rwcPmonSh => viewRwc .rwcPmonSh (finCh n) k s
  | .rwcWrap => viewRwc .rwcWrap (finCh n) k s
  | .rwcMse => viewRwc .rwcMse (finCh n) k s
  | .hsma => viewRwc .hsma (finCh n) k s
  | .ldpStat => viewLdp .ldpStat k s
  | .ff0 => viewLdp .ff0 k s
  | .ff1 => viewLdp .ff1 k s
  | .ff2 => viewLdp .ff2 k s
  | .ffcnt => viewLdp .ffcnt k s
  | .ldpPmon => viewLdp .ldpPmon k s
  | .ldpPmonSh => viewLdp .ldpPmonSh k s
  | .ldpWrap => viewLdp .ldpWrap k s
  | .dlres => viewTpe .dlres k s
  | .grpstat => viewTpe .grpstat k s
  | .sveCfg => viewSve .sveCfg (finSve n) k s
  | .sveState => viewSve .sveState (finSve n) k s
  | .sveSwap => viewSve .sveSwap (finSve n) k s
  | .sveLat => viewSve .sveLat (finSve n) k s
  | .caddr => viewSve .caddr (finSve n) k s
  | .cdata => viewSve .cdata (finSve n) k s
  | .saddr => viewSve .saddr (finSve n) k s
  | .sdata => viewSve .sdata (finSve n) k s
  | .trstat => viewSve .trstat (finSve n) k s
  | .traddr => viewSve .traddr (finSve n) k s
  | .trdata => viewSve .trdata (finSve n) k s
  | .svePmon => viewSve .svePmon (finSve n) k s
  | .svePmonSh => viewSve .svePmonSh (finSve n) k s
  | .sveWrap => viewSve .sveWrap (finSve n) k s
  | .sveRow => viewSve .sveRow (finSve n) k s
  | .spnStat => viewSpnStat s
  | .spnSpeed => s.spn.period % 2 ^ 24
  | .pwmcfg => 40 * 2 ^ 16
  | .lsrStat => viewLsrStat (finCh k) s
  | .rdcode => s.lsr.ch[finCh k].rdCode % 2 ^ 16
  | .ontime => sget 0 k s.lsr.onUs / 1000000 % 2 ^ 32
  | .optAddr0 => viewOpt .optAddr0 k s
  | .optAddr1 => viewOpt .optAddr1 k s
  | .optStat => viewOpt .optStat k s
  | .optPmon => viewOpt .optPmon k s
  | .optPmonSh => viewOpt .optPmonSh k s
  | .optWrap => viewOpt .optWrap k s
  | .fwcmd => flag s.psi[finCh k].fwW 29 + s.psi[finCh k].fwFrame % 2 ^ 29
  | .fwres =>
    let p := s.psi[finCh k]
    flag p.fwDone 31 + flag p.fwAck 30 + p.fwData % 2 ^ 16
  | .cipMode => flag s.sec.part 31
  | .cipLock => if s.sec.part then half k (derivedLocks s) else reg .cipLock 0 k s
  | .nskey => viewNskey k s
  | .ustat =>
    let u := vget s.sec.users n {}
    flag u.opn 31 + flag u.cred.isSome 30 + flag u.lockout 29 + u.fails % 16
  | .unsmask => half k (vget s.sec.users n {}).nsmask
  | .slotattr => s.sec.selAttr % 2 ^ 32
  | .slotuse => half k s.sec.selUse
  | .slotlim => half k s.sec.selLim
  | .kstStat => viewKst s
  | .mbres => flag s.sec.mbDone 31 + s.sec.mbRes % 8 * 2 ^ 24 + s.sec.mbLen % 2 ^ 20
  | .truMeas => bits (vget s.sec.meas (k / 16) 0) (32 * (k % 16) + 31) (32 * (k % 16))
  | _ => 0

/-- Registers of which every bit is in `view`, although the table marks them RW or RWG. -/
def ownView (r : Reg) : Bool := r.row.own || r == .cipLock || r == .fwcmd

/-- What a read of a register returns (R7): WO fields and reserved bits read 0 (R8). -/
def readReg (r : Reg) (n k : Nat) (s : State) : Nat :=
  if ownView r then view r n k s
  else (reg r n k s &&& r.mask fun a => a == .rw || a == .rwg) ||| view r n k s

end Sys2Proof.Machine
end

