-- ==== Sys2Proof/Machine/Bus.lean ====
section
/-!
DEFINITION. Accesses of a master to the 40-bit address map (R28, R29, R69), to register pages with their common header
(R30-R37) and to the cores' own CSRs (01 Part-specific CSRs).
-/

set_option Elab.async false

namespace Sys2Proof.Machine

open Sys2Proof

/-- An access that ends without data and without a bus error. -/
def busZero (s : State) : State := { s with busData := 0, busErr := false }

/-- An access that returns data. -/
def busGives (d : Nat) (s : State) : State := { s with busData := d, busErr := false }

/-- A bus error (R28). -/
def busFails (s : State) : State := { s with busData := 0, busErr := true }

/-! ### The common page header -/

/-- The personality in force uses the block (00 Personalities, 01: in the Lantern personality only the host interface,
the core complex, memory, security, the wick-domain blocks, supervision and VLK run; 13: OPT is for the optical one). -/
def blkUsed (b : Blk) (s : State) : Bool :=
  match b, s.sys.pers with
  | .opt, .magnetic => false
  | .opt, .lantern | .lgr, .lantern | .xmt, .lantern | .rvr, .lantern | .bst, .lantern | .cst, .lantern | .asq, .lantern
  | .rwc, .lantern | .ldp, .lantern | .tpe, .lantern | .sve, .lantern | .spn, .lantern | .lsr, .lantern
  | .psi, .lantern => false
  | _, _ => true

/-- STAT.READY. -/
def blkReady (b : Blk) (s : State) : Bool := if b = .sys then s.sys.ready else blkUsed b s

/-- STAT: READY, BUSY, ERR, LOCKED, and BCC's own fields (14 BCC_STAT). -/
def statWord (b : Blk) (n : Nat) (s : State) : Nat :=
  let h := hdrOf b n s
  flag (blkReady b s) 0 + flag (blkBusy b n s) 1 + flag h.err 2 + flag h.locked 3
    + (if b = .bcc then flag s.bcc.invd 7 + bccStateCode s.bcc.state * 16 else 0)

/-- A read of the header at an offset other than GUARD. -/
def headerRead (b : Blk) (n off : Nat) (s : State) : Nat :=
  let h := hdrOf b n s
  match off with
  | 0x00 => b.row.type_ * 2 ^ 20 + n * 2 ^ 12 + Config.designRevision
  | 0x04 => Config.cap b.row.type_ % 2 ^ 32
  | 0x08 => flag h.en 0 + flag h.srst 1 + flag h.freeze 2 + h.ctlHi % 256 * 2 ^ 24
  | 0x0C => statWord b n s
  | 0x10 | 0x18 => h.irqStat.toNat
  | 0x14 => h.irqEn.toNat
  | 0x1C => reg .irqRoute 0 (b.hdr n) s
  | 0x20 => h.errCode % 2 ^ 16
  | 0x24 => h.errInfo.toNat
  | 0x28 => h.errCnt % 2 ^ 16
  | _ => 0

/-- A write of CTL: EN and, in ASQn, HOLD are stored; FREEZE and SRST act (R34, R35); EN of BCC follows R331. -/
def ctlWrite (m : Master) (b : Blk) (n v : Nat) (s : State) : State :=
  let s :=
    if b = .bcc then (if v.testBit 0 then bccSetEn s else bccClearEn s)
    else s.modHdr (b.hdr n) fun h => { h with en := v.testBit 0 }
  let s := if b = .asq then s.modHdr (b.hdr n) fun h => { h with ctlHi := bits v 24 24 } else s
  let s := freezeWrite b n (v.testBit 2) s
  if v.testBit 1 then softReset m b n s else s

/-- A write of the header at an offset other than GUARD. The security core seals a block by writing STAT.LOCKED (R37). -/
def headerWrite (m : Master) (b : Blk) (n off v : Nat) (s : State) : State :=
  match off with
  | 0x08 => ctlWrite m b n v s
  | 0x0C => if m = .core .sec ∧ v.testBit 3 then s.modHdr (b.hdr n) fun h => { h with locked := true } else s
  | 0x10 =>
    let s := s.modHdr (b.hdr n) fun h => { h with irqStat := h.irqStat &&& BitVec.ofNat 32 (2 ^ 32 - 1 - v % 2 ^ 32) }
    if v.testBit 0 then errClear b n s else s
  | 0x14 => s.modHdr (b.hdr n) fun h => { h with irqEn := BitVec.ofNat 32 v }
  | 0x18 => irqSet b n (BitVec.ofNat 32 v) s
  | 0x1C => routeWrite m (b.hdr n) v s
  | _ => s

/-! ### Registers of the blocks -/

/-- WRAP bits cleared by a write (R219). -/
def clrBits (w v : Nat) : Nat := w &&& (2 ^ 32 - 1 - v % 2 ^ 32)

/-- An error of SVEn whose ERR_INFO the manual does not give. -/
def sveErrorFree (n : Fin 5) (code : Nat) (s : State) : State := blockError .sve n code (draw (2 ^ 32) s) s.drawn

/-- INC of SVEn_CADDR: 1 is added to the index at each access of SVEn_CDATA. -/
def cdataStep (n : Fin 5) (s : State) : State :=
  s.modSve n fun v => { v with cIdx := if v.cInc then (v.cIdx + 1) % 1024 else v.cIdx }

/-- A write of SVEn_CDATA: the active table is read-only, and the shadow is closed while a checked swap waits (R248). -/
def writeCdata (n : Fin 5) (v : Nat) (s : State) : State :=
  let x := s.sve[n]
  cdataStep n <|
    if x.cSel then s
    else if x.pend then sveErrorFree n 0x0615 s
    else s.modSve n fun x => { x with shadow := { x.shadow with coefs := sput 0 x.cIdx (v % 2 ^ 16) x.shadow.coefs } }

/-- A write of SVEn_SDATA: only while RUN = 0. -/
def writeSdata (n : Fin 5) (v : Nat) (s : State) : State :=
  if s.sve[n].run then sveErrorFree n 0x0614 s
  else s.modSve n fun x => { x with s := sput 0 x.sIdx (signed 16 v) x.s }

/-- A write of a 32-bit half of a shadow row. -/
def writeRow (n : Fin 5) (k v : Nat) (s : State) : State :=
  if s.sve[n].pend then sveErrorFree n 0x0615 s
  else s.modSve n fun x =>
    let w := rowWord x.shadow (k / 2)
    let w := if k % 2 = 0 then w / 2 ^ 32 * 2 ^ 32 + v % 2 ^ 32 else w % 2 ^ 32 + v % 2 ^ 32 * 2 ^ 32
    { x with shadow := { x.shadow with rows := sput 0 (k / 2) w x.shadow.rows } }

/-- A write of a register of the spindle, the laser, the optical blocks and security, and of every register without an effect of its own. -/
def writeRegDrive (_m : Master) (r : Reg) (n k v : Nat) (s : State) : State :=
  match r with
  | .spnCfg => writeSpnCfg v s
  | .spnCmd => writeSpnCmd v s
  | .lsrClrf => writeClrf v s
  | .optFmt => writeOptFmt v s
  | .optWrap => { s with opt := { s.opt with wrap := clrBits s.opt.wrap v } }
  | .optSnap => if v.testBit 0 then pmonSnap .opt s else s
  | .optClr => if v.testBit 0 then pmonClr .opt s else s
  | .fwcmd => writeFwcmd (finCh k) v s
  | .cipLock => if s.sec.part then s else storeFields r n k v s
  | .slotsel => writeSlotsel v s
  | .mbcmd => writeMbcmd v s
  | _ => storeFields r n k v s

/-- A write of a register of the servo engines, and of every register without an effect of its own. -/
def writeRegServo (m : Master) (r : Reg) (n k v : Nat) (s : State) : State :=
  match r with
  | .sveCfg => writeSveCfg (finSve n) v s
  | .sveSwap => if v.testBit 31 then swapGo (finSve n) s else s
  | .retractReg => if h : n < 4 then writeRetract ⟨n, h⟩ v s else storeFields r n k v s
  | .mailcmt => if v.testBit 0 then mailCommit (finSve n) s else s
  | .caddr => s.modSve (finSve n) fun x => { x with cSel := v.testBit 31, cInc := v.testBit 30, cIdx := bits v 9 0 }
  | .cdata => writeCdata (finSve n) v s
  | .saddr => s.modSve (finSve n) fun x => { x with sIdx := bits v 7 0 }
  | .sdata => writeSdata (finSve n) v s
  | .sveRow => writeRow (finSve n) k v s
  | .trctl => writeTrctl (finSve n) v s
  | .traddr => s.modSve (finSve n) fun x => { x with trInc := v.testBit 31, trChan := bits v 14 13, trAddr := bits v 12 0 }
  | .jumpReg => if h : n < 4 then writeJump ⟨n, h⟩ v s else storeFields r n k v s
  | .fsweep1 => if h : n < 4 then writeSweep ⟨n, h⟩ v s else storeFields r n k v s
  | .sveWrap => s.modSve (finSve n) fun x => { x with wrap := clrBits x.wrap v }
  | .sveSnap => if v.testBit 0 then pmonSnap (.sve (finSve n)) s else s
  | .sveClr => if v.testBit 0 then pmonClr (.sve (finSve n)) s else s
  | _ => writeRegDrive m r n k v s

/-- A write of a register of the control store, the sequencers, the channels and LDP, and of every register without an effect of its own. -/
def writeRegSeq (m : Master) (r : Reg) (n k v : Nat) (s : State) : State :=
  match r with
  | .cstAct => writeCstAct m v s
  | .asqAbort => writeAbort (finCh n) v s
  | .respop => writeRespop (finCh n) v s
  | .ptask => writePtask (finCh n) k v s
  | .pcmd => writePcmd (finCh n) v s
  | .headret => headretSet (finCh n) (v % 2 ^ 32 <<< (32 * k)) s
  | .rwcWrap => s.modRwc (finCh n) fun x => { x with wrap := clrBits x.wrap v }
  | .rwcSnap => if v.testBit 0 then pmonSnap (.rwc (finCh n)) s else s
  | .rwcClr => if v.testBit 0 then pmonClr (.rwc (finCh n)) s else s
  | .ldpBoost => ldpRun (storeFields r n k v s)
  | .rsfree => writeRsfree v s
  | .ffpop => writeFfpop (finCh k) v s
  | .ldpWrap => s.modLdp fun x => { x with wrap := clrBits x.wrap v }
  | .ldpSnap => if v.testBit 0 then pmonSnap .ldp s else s
  | .ldpClr => if v.testBit 0 then pmonClr .ldp s else s
  | .dlop => writeDlop v s
  | _ => writeRegServo m r n k v s

/-- A write of a register of the host, Ledger, reservoir and memory blocks, and of every register without an effect of its own. -/
def writeRegMem (m : Master) (r : Reg) (n k v : Nat) (s : State) : State :=
  match r with
  | .abortreq => writeAbortReq v s
  | .lgrWin => writeLgrWin v s
  | .nsdom => writeNsdom (Fin.ofNat 64 k) v s
  | .rvrCmd => writeRvrCmd v s
  | .dmcInit => if v.testBit 28 then dmcInitGo s else s
  | .dmcCfg => writeDmcCfg v s
  | .ppr0 => if v.testBit 31 then pprGo v s else storeFields r n k v s
  | .regattr0 => writeRegattr false k v s
  | .regattr1 => writeRegattr true k v s
  | .splitctl => if v.testBit 31 then splitGo v s else storeFields r n k v s
  | .rowclr => rowClear v s
  | .opcmd => writeOpcmd v s
  | .openctl => writeOpenctl m v s
  | _ => writeRegSeq m r n k v s

/-- A write of a register of VLK and TRM, and of every register without an effect of its own. -/
def writeRegVlk (m : Master) (r : Reg) (n k v : Nat) (s : State) : State :=
  match r with
  | .vlkCfg => writeVlkCfg v s
  | .vlkNode => writeVlkNode v s
  | .vlkLreq => writeVlkLreq v s
  | .orphanSpinup => writeOrphan v s
  | .vlkCmd => writeVlkCmd v s
  | .segbudget => writeSegbudget v s
  | .imgcmd => writeImgcmd v s
  | .vlkWrap => s.modVlk fun x => { x with wrap := clrBits x.wrap v }
  | .vlkSnap => if v.testBit 0 then pmonSnap .vlk s else s
  | .vlkClr => if v.testBit 0 then pmonClr .vlk s else s
  | .trmComp0 => if trimExists k s then retarget k (storeFields r n k v s) else s
  | .trmTrim1 | .trmComp1 | .trmComp2 | .trmStat0 => if trimExists k s then storeFields r n k v s else s
  | _ => writeRegMem m r n k v s

/-- A write of a register: its effect where it has one of its own, else its fields under their access types (R7). -/
def writeReg (m : Master) (r : Reg) (n k v : Nat) (s : State) : State :=
  match r with
  | .rdyctl => writeRdyctl v s
  | .wdtctl => writeWdtctl v s
  | .wdtkick => writeWdtkick v s
  | .profile => writeProfile v s
  | .twinData => twinAccess (finCh k) true v s
  | .irqSwset => swset v s
  | .irqRoute => routeWrite m k v s
  | .preq => writePreq v s
  | .pdoff => writePdoff v s
  | .lltBoard | .lltRsv | .vlkFloor => walkQueue (storeFields r n k v s)
  | .lltReqb => writeReqb (finPort k) v s
  | .lltOp => writeOp (finPort k) v s
  | .pllen => writePllen v s
  | .clkDom => writeClkDom k v s
  | .calCmd => writeCalCmd v s
  | .calAdj => writeCalAdj v s
  | .lifSnap => if v.testBit 0 then lifSnap s else s
  | .lifAddgo => writeAddgo v s
  | .lifCmd => if v.testBit 0 then lifSeal s else s
  | .evrCmd =>
    let s := if v.testBit 0 then evrStore s else s
    if v.testBit 1 then evrCommit s else s
  | .evrBase => writeBase (k == 1) v s
  | .evrCur => writeCur (k == 1) v s
  | .evrWin => writeWin k v s
  | .evrSwev => writeSwev v s
  | .thmThr => writeThmThr v s
  | .thmCmd => writeThmCmd v s
  | .supPfcfg => writePfcfg v s
  | _ => writeRegVlk m r n k v s

/-- A read of a register: its value, and the effect that reading it has. -/
def readRegAt (r : Reg) (n k : Nat) (s : State) : State :=
  match r with
  | .twinData => twinAccess (finCh k) false 0 s
  | .calUsec => readUsec s
  | .evrNext => if k = 0 then readNext0 s else busGives (readReg r n k s) s
  | .evrWin => if k = 7 then readWin7 s else busGives (readReg r n k s) s
  | .vlkTimeus => readVlkTime s
  | .cdata => cdataStep (finSve n) (busGives (readReg r n k s) s)
  | .sveLat => (busGives (readReg r n k s) s).modSve (finSve n) fun x => { x with maxLate := 0 }
  | .trdata => readTrdata (finSve n) s
  | _ => busGives (readReg r n k s) s

/-! ### Register pages (R30-R32, R69) -/

/-- One 32-bit access inside a block's pages. Reserved offsets read 0 and ignore writes (R8), and are no register. -/
def wordAccess (m : Master) (b : Blk) (n a : Nat) (wr : Bool) (v : Nat) (s : State) : State :=
  let off := a - b.base n
  let s := busZero s
  if off = 0x2C then
    if wr then guardWrite b n v s
    else
      let r := (hdrOf b n s).remain
      busGives (flag (r != 0) 31 + r % 512) s
  else if off < 0x30 then
    useWindow b n (if wr then headerWrite m b n off v s else busGives (headerRead b n off s) s)
  else
    match b.regAt off with
    | some (r, k) =>
      useWindow b n (if wr then writeReg m r n k v s else { readRegAt r n k s with busErr := false })
    | none => s

/-- The master is an A-core. -/
def isAcore (m : Master) : Bool := match m with | .core (.a _) => true | _ => false

/-- An access to the register region. -/
def pageAccess (m : Master) (a : Nat) (wr : Bool) (n v : Nat) (s : State) : State :=
  match blockAt a with
  | none => busZero (blockError .sys 0 0x0003 a s)
  | some (b, i) =>
    if !(pageOn b i s) then busZero (blockError .sys 0 0x0E20 a s)
    else if n = 4 ∧ a % 4 = 0 then wordAccess m b i a wr (v % 2 ^ 32) s
    else if n = 8 ∧ a % 8 = 0 ∧ isAcore m then
      let s := wordAccess m b i a wr (v % 2 ^ 32) s
      let lo := s.busData
      let s := wordAccess m b i (a + 4) wr (v / 2 ^ 32 % 2 ^ 32) s
      { s with busData := lo + s.busData * 2 ^ 32 }
    else busZero (blockError b i 0x0001 (a % 0x1000) s)

/-! ### Memories -/

/-- An access to a memory, cut at a 64-byte line (R11). -/
def memSpan (m : Master) (a : Nat) (wr : Bool) (n v : Nat) (s : State) : State :=
  let k := 64 - a % 64
  if n ≤ k then memAccess m a n (if wr then some v else none) .none s
  else
    let s := memAccess m a k (if wr then some (v % 2 ^ (8 * k)) else none) .none s
    let d := s.busData
    let e := s.busErr
    let s := memAccess m (a + k) (n - k) (if wr then some (v >>> (8 * k)) else none) .none s
    if e || s.busErr then busFails s else { s with busData := d + s.busData <<< (8 * k) }

/-- A memory of a power domain: while the domain is not on it reads 0 and ignores writes (R69). -/
def domMem (d : Nat) (m : Master) (a : Nat) (wr : Bool) (n v : Nat) (s : State) : State :=
  if pdOn d s then memSpan m a wr n v s else busZero (blockError .sys 0 0x0E20 (a % 2 ^ 32) s)

/-- n bytes of a store of words, of w bytes each, from byte offset a. -/
def wordBytes (f : Nat → Nat) (w a n : Nat) : Nat := (f (a / w) + f (a / w + 1) * 2 ^ (8 * w)) >>> (8 * (a % w)) % 2 ^ (8 * n)

/-- A read-only store: a write is an access the region does not list. -/
def romAccess (f : Nat → Nat) (a : Nat) (wr : Bool) (n : Nat) (s : State) : State :=
  if wr then busFails s else busGives (wordBytes (fun i => f i % 2 ^ 32) 4 a n) s

/-- An access to the control store window (02, 08): reads of 8 to 64 bits aligned to their size; writes are ignored. -/
def storeWindow (off : Nat) (wr : Bool) (n : Nat) (s : State) : State :=
  if !(pdOn 13 s) then busZero (blockError .sys 0 0x0E20 (0x50000000 + off) s)
  else if wr then busZero s
  else if off % n ≠ 0 then busZero (blockError .cst 0 0x0001 (off % 0x1000) s)
  else busGives (wordBytes (fun i => ((storeWord i s).getD 0) % 2 ^ 128) 16 off n) s

/-! ### The address map (R28, R29) -/

/-- An access of n bytes at an address. While PD2 is not on no master reaches the map (log 17). -/
def busOp (m : Master) (a : Nat) (wr : Bool) (n v : Nat) (s : State) : State :=
  if !(pdOn 2 s) then s
  else if within a n 0 0x40000 then
    if m = .core .sec then
      if pdOn 1 s then romAccess Config.secRom a wr n s else busZero (blockError .sys 0 0x0E20 a s)
    else busFails (ev .sys 0x0B01 (masterId m) 0 0 s)
  else if within a n 0x10000000 0x20000 then romAccess Config.bootRom (a - 0x10000000) wr n s
  else if within a n 0x20000000 0x800000 then domMem 7 m a wr n v s
  else if within a n 0x40000000 0x1000000 then pageAccess m a wr n v s
  else if within a n 0x50000000 0x100000 then storeWindow (a - 0x50000000) wr n s
  else if within a n 0x60000000 0x280000 then domMem 0 m a wr n v s
  else if within a n ddrBase (installedBytes s) then domMem 12 m a wr n v s
  else busFails s

/-- The access sizes of the bus: 8, 16, 32 and 64 bits. -/
def busSize (bytes : Nat) : Nat := if bytes = 1 ∨ bytes = 2 ∨ bytes = 4 then bytes else 8

/-- A bus error that a DMA engine meets is a transfer error in its own block (R28); a master number names the block's
type, and the error stands in the block's first page (log 163). -/
def dmaError (m : Master) (s : State) : State :=
  match m with
  | .dma t =>
    if s.busErr then
      match Blk.all.find? fun b => b.row.type_ = t with
      | some b => transferError b 0 s
      | none => s
    else s
  | _ => s

def execBusAccess (m : Master) (a : BitVec 40) (wr : Bool) (bytes : Nat) (v : BitVec 64) (s : State) : Out :=
  let n := busSize bytes
  .next (if pdOn 2 s then dmaError m (busOp m a.toNat wr n (v.toNat % 2 ^ (8 * n)) s) else s)

/-! ### CSRs of the cores -/

/-- The core has power. -/
def coreOn (c : Core) (s : State) : Bool :=
  match c with
  | .a n => pdOn (3 + n) s
  | .t n => tcoreExists n s && pdOn (14 + n) s
  | .sec => pdOn 1 s

/-- A write of UCACHECTL by its core. -/
def writeUcachectl (c : Fin 4) (v : Nat) (s : State) : State :=
  let s := if v.testBit 2 then l1CleanAll c s else s
  s.modSys fun y => { y with ucache := y.ucache.set c (v.testBit 0, v.testBit 1) }

/-- A write of UCACHEOP by its core: clean, invalidate, both, none. -/
def writeUcacheop (c : Fin 4) (v : Nat) (s : State) : State :=
  let line := v / 64
  let s := if v.testBit 0 then l1CleanLine c line s else s
  if v.testBit 1 then l1Remove c line s else s

/-- A write of a CSR by its core; numbers that table Part-specific CSRs does not give the core change nothing. -/
def csrWrite (c : Core) (num v : Nat) (s : State) : State :=
  if !(coreOn c s) then s
  else
    match num, c with
    | 0x7C0, .a n => writeUcachectl n v s
    | 0x7C1, .a n => writeUcacheop n v s
    | 0x7C3, _ => { s with irq := { s.irq with inService := s.irq.inService.filter fun x => !(x.1 == v % 512 && x.2 == c) } }
    | 0x7C4, _ => { s with irq := { s.irq with thr := s.irq.thr.set (coreIdx c) (v % 16) } }
    | _, _ => s

def execRegWrite (m : Master) (r : RegTarget) (v : Word) (s : State) : Out :=
  .next <|
    match r with
    | .page a => if pdOn 2 s then dmaError m (busOp m a.toNat true 4 v.toNat s) else s
    | .csr c num => csrWrite c num v.toNat s

end Sys2Proof.Machine
end

