-- ==== Sys2Proof/Machine/Dispatch.lean ====
section
/-!
DEFINITION. The meaning of each command: one arm per constructor of Instr, each a direct call of its meaning.
-/

namespace Sys2Proof.Machine

open Sys2Proof

/-- The effect of a command on everything but the queue. -/
def exec (i : Instr) (s : State) : Host.Outcome State Fault Refusal :=
  match i with
  | .regWrite m r v => Sys2Proof.Machine.execRegWrite m r v s
  | .busAccess m a wr bytes v => Sys2Proof.Machine.execBusAccess m a wr bytes v s
  | .guardWordWrite m h v => Sys2Proof.Machine.execGuardWordWrite m h v s
  | .guardWindowExhausted h => Sys2Proof.Machine.execGuardWindowExhausted h s
  | .softReset m h => Sys2Proof.Machine.execSoftReset m h s
  | .softResetComplete h => Sys2Proof.Machine.execSoftResetComplete h s
  | .freeze m h on => Sys2Proof.Machine.execFreeze m h on s
  | .errClear m h => Sys2Proof.Machine.execErrClear m h s
  | .irqSetWrite m h v => Sys2Proof.Machine.execIrqSetWrite m h v s
  | .allcln c den ien => Sys2Proof.Machine.execAllcln c den ien s
  | .l1Clean c line => Sys2Proof.Machine.execL1Clean c line s
  | .l1Invalidate c line => Sys2Proof.Machine.execL1Invalidate c line s
  | .l1CleanAndInvalidate c line => Sys2Proof.Machine.execL1CleanAndInvalidate c line s
  | .l1NoOperation c line => Sys2Proof.Machine.execL1NoOperation c line s
  | .irqTake c => Sys2Proof.Machine.execIrqTake c s
  | .uirqdone c src => Sys2Proof.Machine.execUirqdone c src s
  | .irqRouteWrite m k v => Sys2Proof.Machine.execIrqRouteWrite m k v s
  | .irqSwset m v => Sys2Proof.Machine.execIrqSwset m v s
  | .twinDataAccess m n wr v => Sys2Proof.Machine.execTwinDataAccess m n wr v s
  | .por => Sys2Proof.Machine.execPor s
  | .xo32kQualified => Sys2Proof.Machine.execXo32kQualified s
  | .xo32kFail => Sys2Proof.Machine.execXo32kFail s
  | .xo40Fail => Sys2Proof.Machine.execXo40Fail s
  | .mainRailsGood env orderBroken => Sys2Proof.Machine.execMainRailsGood env orderBroken s
  | .railFault rail => Sys2Proof.Machine.execRailFault rail s
  | .uartRecoveryImage img => Sys2Proof.Machine.execUartRecoveryImage img s
  | .perstDeassert p => Sys2Proof.Machine.execPerstDeassert p s
  | .perstAssert p => Sys2Proof.Machine.execPerstAssert p s
  | .configRequest p opened => Sys2Proof.Machine.execConfigRequest p opened s
  | .dmcInitGo m => Sys2Proof.Machine.execDmcInitGo m s
  | .dmcInitDone fail => Sys2Proof.Machine.execDmcInitDone fail s
  | .dmcInitHeldAccess mib => Sys2Proof.Machine.execDmcInitHeldAccess mib s
  | .readySet m alsoClr => Sys2Proof.Machine.execReadySet m alsoClr s
  | .readyClr m => Sys2Proof.Machine.execReadyClr m s
  | .controllerEnable p wrr => Sys2Proof.Machine.execControllerEnable p wrr s
  | .controllerReset p => Sys2Proof.Machine.execControllerReset p s
  | .functionLevelReset p => Sys2Proof.Machine.execFunctionLevelReset p s
  | .linkDown p => Sys2Proof.Machine.execLinkDown p s
  | .namespaceReady nsid => Sys2Proof.Machine.execNamespaceReady nsid s
  | .resetNAssert => Sys2Proof.Machine.execResetNAssert s
  | .coreDomainHold atLimit => Sys2Proof.Machine.execCoreDomainHold atLimit s
  | .resetNRelease env => Sys2Proof.Machine.execResetNRelease env s
  | .nvmSubsystemReset p v => Sys2Proof.Machine.execNvmSubsystemReset p v s
  | .watchdogEnable m v => Sys2Proof.Machine.execWatchdogEnable m v s
  | .watchdogKick m v => Sys2Proof.Machine.execWatchdogKick m v s
  | .watchdogPeriod => Sys2Proof.Machine.execWatchdogPeriod s
  | .watchdogReset => Sys2Proof.Machine.execWatchdogReset s
  | .powerLoss => Sys2Proof.Machine.execPowerLoss s
  | .preqGo m v => Sys2Proof.Machine.execPreqGo m v s
  | .powerStateEntered => Sys2Proof.Machine.execPowerStateEntered s
  | .pdoffWrite m v => Sys2Proof.Machine.execPdoffWrite m v s
  | .wakeSource src periods env => Sys2Proof.Machine.execWakeSource src periods env s
  | .clkDomWrite m k v => Sys2Proof.Machine.execClkDomWrite m k v s
  | .pllLocked idx => Sys2Proof.Machine.execPllLocked idx s
  | .pllLockLoss idx => Sys2Proof.Machine.execPllLockLoss idx s
  | .psEntryRestart => Sys2Proof.Machine.execPsEntryRestart s
  | .leaveRequest m p v => Sys2Proof.Machine.execLeaveRequest m p v s
  | .leaveRelease m p v => Sys2Proof.Machine.execLeaveRelease m p v s
  | .leaveRenew m p v => Sys2Proof.Machine.execLeaveRenew m p v s
  | .leaveExpiry t => Sys2Proof.Machine.execLeaveExpiry t s
  | .drawAfterExpiry t => Sys2Proof.Machine.execDrawAfterExpiry t s
  | .leaveDeadline t => Sys2Proof.Machine.execLeaveDeadline t s
  | .thermalCeilingStep => Sys2Proof.Machine.execThermalCeilingStep s
  | .sqTailDoorbell c q tail entries => Sys2Proof.Machine.execSqTailDoorbell c q tail entries s
  | .cqHeadDoorbell c q head => Sys2Proof.Machine.execCqHeadDoorbell c q head s
  | .commandFetch mi => Sys2Proof.Machine.execCommandFetch mi s
  | .fetchPauseEnd => Sys2Proof.Machine.execFetchPauseEnd s
  | .writeTransferStart tag => Sys2Proof.Machine.execWriteTransferStart tag s
  | .dataTransferComplete tag => Sys2Proof.Machine.execDataTransferComplete tag s
  | .hostMemoryError tag => Sys2Proof.Machine.execHostMemoryError tag s
  | .completionPost tag => Sys2Proof.Machine.execCompletionPost tag s
  | .interruptCoalescingTimeout c q => Sys2Proof.Machine.execInterruptCoalescingTimeout c q s
  | .recoveryTimeLimitExpiry tag => Sys2Proof.Machine.execRecoveryTimeLimitExpiry tag s
  | .abortMatch m v => Sys2Proof.Machine.execAbortMatch m v s
  | .read tag steps => Sys2Proof.Machine.execRead tag steps s
  | .write tag => Sys2Proof.Machine.execWrite tag s
  | .zoneAppend tag => Sys2Proof.Machine.execZoneAppend tag s
  | .flush tag => Sys2Proof.Machine.execFlush tag s
  | .compare tag steps => Sys2Proof.Machine.execCompare tag steps s
  | .writeUncorrectable tag => Sys2Proof.Machine.execWriteUncorrectable tag s
  | .writeZeroes tag => Sys2Proof.Machine.execWriteZeroes tag s
  | .verify tag steps => Sys2Proof.Machine.execVerify tag steps s
  | .datasetManagement tag => Sys2Proof.Machine.execDatasetManagement tag s
  | .reservationRegister tag => Sys2Proof.Machine.execReservationRegister tag s
  | .reservationReport tag => Sys2Proof.Machine.execReservationReport tag s
  | .reservationAcquire tag => Sys2Proof.Machine.execReservationAcquire tag s
  | .reservationRelease tag => Sys2Proof.Machine.execReservationRelease tag s
  | .zoneOpen tag => Sys2Proof.Machine.execZoneOpen tag s
  | .zoneClose tag => Sys2Proof.Machine.execZoneClose tag s
  | .zoneFinish tag => Sys2Proof.Machine.execZoneFinish tag s
  | .zoneReset tag => Sys2Proof.Machine.execZoneReset tag s
  | .zoneOffline tag => Sys2Proof.Machine.execZoneOffline tag s
  | .reportZones tag => Sys2Proof.Machine.execReportZones tag s
  | .createIoSq tag => Sys2Proof.Machine.execCreateIoSq tag s
  | .createIoCq tag => Sys2Proof.Machine.execCreateIoCq tag s
  | .deleteIoSq tag => Sys2Proof.Machine.execDeleteIoSq tag s
  | .deleteIoCq tag => Sys2Proof.Machine.execDeleteIoCq tag s
  | .identify tag => Sys2Proof.Machine.execIdentify tag s
  | .getLogPage tag => Sys2Proof.Machine.execGetLogPage tag s
  | .logGuaranteeExceptions tag => Sys2Proof.Machine.execLogGuaranteeExceptions tag s
  | .logEventRecorder tag => Sys2Proof.Machine.execLogEventRecorder tag s
  | .logLifetimeCounters tag => Sys2Proof.Machine.execLogLifetimeCounters tag s
  | .logActuatorHeadHealth tag => Sys2Proof.Machine.execLogActuatorHeadHealth tag s
  | .logLeasesPower tag => Sys2Proof.Machine.execLogLeasesPower tag s
  | .logAttestationMeasurements tag => Sys2Proof.Machine.execLogAttestationMeasurements tag s
  | .setFeatures tag => Sys2Proof.Machine.execSetFeatures tag s
  | .getFeatures tag => Sys2Proof.Machine.execGetFeatures tag s
  | .setFeaturesPowerManagement tag => Sys2Proof.Machine.execSetFeaturesPowerManagement tag s
  | .setFeaturesTimestamp tag => Sys2Proof.Machine.execSetFeaturesTimestamp tag s
  | .getFeaturesTimestamp tag => Sys2Proof.Machine.execGetFeaturesTimestamp tag s
  | .setFeaturesVolatileWriteCache tag => Sys2Proof.Machine.execSetFeaturesVolatileWriteCache tag s
  | .setFeaturesInterruptCoalescing tag => Sys2Proof.Machine.execSetFeaturesInterruptCoalescing tag s
  | .setFeaturesTemperatureThreshold tag => Sys2Proof.Machine.execSetFeaturesTemperatureThreshold tag s
  | .setFeaturesReadRecoveryLevel tag => Sys2Proof.Machine.execSetFeaturesReadRecoveryLevel tag s
  | .setFeaturesRecoveryTimeLimit tag => Sys2Proof.Machine.execSetFeaturesRecoveryTimeLimit tag s
  | .setFeaturesDirtyCap tag => Sys2Proof.Machine.execSetFeaturesDirtyCap tag s
  | .setFeaturesLeaseFloor tag => Sys2Proof.Machine.execSetFeaturesLeaseFloor tag s
  | .setFeaturesBehaviourProfile tag => Sys2Proof.Machine.execSetFeaturesBehaviourProfile tag s
  | .getFeaturesBehaviourProfile tag => Sys2Proof.Machine.execGetFeaturesBehaviourProfile tag s
  | .asynchronousEventRequest tag => Sys2Proof.Machine.execAsynchronousEventRequest tag s
  | .abort tag => Sys2Proof.Machine.execAbort tag s
  | .keepAlive tag => Sys2Proof.Machine.execKeepAlive tag s
  | .namespaceManagement tag => Sys2Proof.Machine.execNamespaceManagement tag s
  | .namespaceAttachment tag => Sys2Proof.Machine.execNamespaceAttachment tag s
  | .firmwareImageDownload tag => Sys2Proof.Machine.execFirmwareImageDownload tag s
  | .firmwareCommit tag img => Sys2Proof.Machine.execFirmwareCommit tag img s
  | .firmwareActivation tag img => Sys2Proof.Machine.execFirmwareActivation tag img s
  | .activationPauseTimeout => Sys2Proof.Machine.execActivationPauseTimeout s
  | .formatNvm tag => Sys2Proof.Machine.execFormatNvm tag s
  | .sanitizeOverwrite tag => Sys2Proof.Machine.execSanitizeOverwrite tag s
  | .sanitizeCryptoErase tag => Sys2Proof.Machine.execSanitizeCryptoErase tag s
  | .sanitizeBandDone => Sys2Proof.Machine.execSanitizeBandDone s
  | .securitySend tag => Sys2Proof.Machine.execSecuritySend tag s
  | .securityReceive tag => Sys2Proof.Machine.execSecurityReceive tag s
  | .attestationNonce tag => Sys2Proof.Machine.execAttestationNonce tag s
  | .attestationReportSigned => Sys2Proof.Machine.execAttestationReportSigned s
  | .attestationReportReceive tag => Sys2Proof.Machine.execAttestationReportReceive tag s
  | .credential tag => Sys2Proof.Machine.execCredential tag s
  | .deviceSelfTest tag => Sys2Proof.Machine.execDeviceSelfTest tag s
  | .nvmeMiSend tag => Sys2Proof.Machine.execNvmeMiSend tag s
  | .nvmeMiReceive tag => Sys2Proof.Machine.execNvmeMiReceive tag s
  | .readNvmeMiDataStructure dtyp port => Sys2Proof.Machine.execReadNvmeMiDataStructure dtyp port s
  | .nvmSubsystemHealthStatusPoll => Sys2Proof.Machine.execNvmSubsystemHealthStatusPoll s
  | .controllerHealthStatusPoll c => Sys2Proof.Machine.execControllerHealthStatusPoll c s
  | .configurationGet ident => Sys2Proof.Machine.execConfigurationGet ident s
  | .configurationSet ident v => Sys2Proof.Machine.execConfigurationSet ident v s
  | .vpdRead off len => Sys2Proof.Machine.execVpdRead off len s
  | .vpdWrite off bytes => Sys2Proof.Machine.execVpdWrite off bytes s
  | .miReset => Sys2Proof.Machine.execMiReset s
  | .basicManagementCommand => Sys2Proof.Machine.execBasicManagementCommand s
  | .nsdomWrite m k v => Sys2Proof.Machine.execNsdomWrite m k v s
  | .lgrWinGo m v => Sys2Proof.Machine.execLgrWinGo m v s
  | .journalBlockDurable copies => Sys2Proof.Machine.execJournalBlockDurable copies s
  | .checkpoint => Sys2Proof.Machine.execCheckpoint s
  | .migrationStart zone idx ch sl => Sys2Proof.Machine.execMigrationStart zone idx ch sl s
  | .migrationCopyVerified zone idx lost => Sys2Proof.Machine.execMigrationCopyVerified zone idx lost s
  | .migFree zone idx => Sys2Proof.Machine.execMigFree zone idx s
  | .reservoirCommit m => Sys2Proof.Machine.execReservoirCommit m s
  | .ledgerFreeze => Sys2Proof.Machine.execLedgerFreeze s
  | .commitRecordDurable => Sys2Proof.Machine.execCommitRecordDurable s
  | .reservoirReplay m => Sys2Proof.Machine.execReservoirReplay m s
  | .replayDone => Sys2Proof.Machine.execReplayDone s
  | .restartRecovery lastGood ckOk => Sys2Proof.Machine.execRestartRecovery lastGood ckOk s
  | .taskCommit m n => Sys2Proof.Machine.execTaskCommit m n s
  | .taskCancel m n => Sys2Proof.Machine.execTaskCancel m n s
  | .taskPromotion n => Sys2Proof.Machine.execTaskPromotion n s
  | .microwordIssue n => Sys2Proof.Machine.execMicrowordIssue n s
  | .seqNext n => Sys2Proof.Machine.execSeqNext n s
  | .seqJump n => Sys2Proof.Machine.execSeqJump n s
  | .seqCall n => Sys2Proof.Machine.execSeqCall n s
  | .seqRet n => Sys2Proof.Machine.execSeqRet n s
  | .seqBrt n => Sys2Proof.Machine.execSeqBrt n s
  | .seqBrf n => Sys2Proof.Machine.execSeqBrf n s
  | .seqDispatch n => Sys2Proof.Machine.execSeqDispatch n s
  | .seqLoop n => Sys2Proof.Machine.execSeqLoop n s
  | .faultRequest n cause => Sys2Proof.Machine.execFaultRequest n cause s
  | .waitTimeout n => Sys2Proof.Machine.execWaitTimeout n s
  | .atomicBound n => Sys2Proof.Machine.execAtomicBound n s
  | .asqAbort m n v => Sys2Proof.Machine.execAsqAbort m n v s
  | .taskDeadline n => Sys2Proof.Machine.execTaskDeadline n s
  | .resultPop m n v => Sys2Proof.Machine.execResultPop m n v s
  | .microcodeActivate img => Sys2Proof.Machine.execMicrocodeActivate img s
  | .arm m v => Sys2Proof.Machine.execArm m v s
  | .activationCopy => Sys2Proof.Machine.execActivationCopy s
  | .activationAbandon => Sys2Proof.Machine.execActivationAbandon s
  | .openctlWrite m v => Sys2Proof.Machine.execOpenctlWrite m v s
  | .readerCheck n open0 short0 open1 short1 => Sys2Proof.Machine.execReaderCheck n open0 short0 open1 short1 s
  | .clockField n meas => Sys2Proof.Machine.execClockField n meas s
  | .syncADecision n cands => Sys2Proof.Machine.execSyncADecision n cands s
  | .syncBDecision n cands => Sys2Proof.Machine.execSyncBDecision n cands s
  | .blindFraming n weights => Sys2Proof.Machine.execBlindFraming n weights s
  | .defectSpan n asperity adcSat => Sys2Proof.Machine.execDefectSpan n asperity adcSat s
  | .loopLimit n loop => Sys2Proof.Machine.execLoopLimit n loop s
  | .pmonSnap b => Sys2Proof.Machine.execPmonSnap b s
  | .pmonClr b => Sys2Proof.Machine.execPmonClr b s
  | .codewordDecode idx r => Sys2Proof.Machine.execCodewordDecode idx r s
  | .squeezeRedecode r => Sys2Proof.Machine.execSqueezeRedecode r s
  | .clusterDecode n addr cols sectors => Sys2Proof.Machine.execClusterDecode n addr cols sectors s
  | .retainedSlotFree m v => Sys2Proof.Machine.execRetainedSlotFree m v s
  | .failurePop m n v => Sys2Proof.Machine.execFailurePop m n v s
  | .defectInsert m surf => Sys2Proof.Machine.execDefectInsert m surf s
  | .defectDelete m surf => Sys2Proof.Machine.execDefectDelete m surf s
  | .defectClearPending m surf => Sys2Proof.Machine.execDefectClearPending m surf s
  | .defectInsertRelease => Sys2Proof.Machine.execDefectInsertRelease s
  | .sampleTrigger n inp => Sys2Proof.Machine.execSampleTrigger n inp s
  | .syncTimeout n inp => Sys2Proof.Machine.execSyncTimeout n inp s
  | .tableSwapGo m n => Sys2Proof.Machine.execTableSwapGo m n s
  | .tableSwap n => Sys2Proof.Machine.execTableSwap n s
  | .mailCommit m n => Sys2Proof.Machine.execMailCommit m n s
  | .engineRun m n v => Sys2Proof.Machine.execEngineRun m n v s
  | .seekTimeout n => Sys2Proof.Machine.execSeekTimeout n s
  | .shockConversion n axis val => Sys2Proof.Machine.execShockConversion n axis val s
  | .shockSensorFault n axis => Sys2Proof.Machine.execShockSensorFault n axis s
  | .cdaShort n k => Sys2Proof.Machine.execCdaShort n k s
  | .retractGo m n => Sys2Proof.Machine.execRetractGo m n s
  | .retractEnd n => Sys2Proof.Machine.execRetractEnd n s
  | .focusLost n => Sys2Proof.Machine.execFocusLost n s
  | .jumpGo m n v => Sys2Proof.Machine.execJumpGo m n v s
  | .focusSweepGo m n v => Sys2Proof.Machine.execFocusSweepGo m n v s
  | .traceStart m n v => Sys2Proof.Machine.execTraceStart m n v s
  | .traceStop m n v => Sys2Proof.Machine.execTraceStop m n v s
  | .traceRead m n => Sys2Proof.Machine.execTraceRead m n s
  | .start m => Sys2Proof.Machine.execStart m s
  | .brake m => Sys2Proof.Machine.execBrake m s
  | .brakeEntry => Sys2Proof.Machine.execBrakeEntry s
  | .coast m => Sys2Proof.Machine.execCoast m s
  | .clrf m => Sys2Proof.Machine.execClrf m s
  | .alignDone => Sys2Proof.Machine.execAlignDone s
  | .spinupAttemptTimeout => Sys2Proof.Machine.execSpinupAttemptTimeout s
  | .pwmCentre iu iv vmot edge => Sys2Proof.Machine.execPwmCentre iu iv vmot edge s
  | .bemfCrossing period slope => Sys2Proof.Machine.execBemfCrossing period slope s
  | .commutation missed => Sys2Proof.Machine.execCommutation missed s
  | .floatPeriodEnd pos => Sys2Proof.Machine.execFloatPeriodEnd pos s
  | .recoveryTimeout => Sys2Proof.Machine.execRecoveryTimeout s
  | .motorRailThreshold mv => Sys2Proof.Machine.execMotorRailThreshold mv s
  | .chopperFault cond mv => Sys2Proof.Machine.execChopperFault cond mv s
  | .chopperConducting cur => Sys2Proof.Machine.execChopperConducting cur s
  | .railOvervoltage mv => Sys2Proof.Machine.execRailOvervoltage mv s
  | .spnFltNLow => Sys2Proof.Machine.execSpnFltNLow s
  | .phaseOpen ph => Sys2Proof.Machine.execPhaseOpen ph s
  | .supplyReversed mv => Sys2Proof.Machine.execSupplyReversed mv s
  | .spindleStopped => Sys2Proof.Machine.execSpindleStopped s
  | .rectifyExit => Sys2Proof.Machine.execRectifyExit s
  | .preampFault n => Sys2Proof.Machine.execPreampFault n s
  | .psiFrameDone n ack data => Sys2Proof.Machine.execPsiFrameDone n ack data s
  | .psiFwcmdGo m n v => Sys2Proof.Machine.execPsiFwcmdGo m n v s
  | .laserMonitorRead n reading lgChanged => Sys2Proof.Machine.execLaserMonitorRead n reading lgChanged s
  | .lsrClrf m v => Sys2Proof.Machine.execLsrClrf m v s
  | .addressUnit n syncOff word meas => Sys2Proof.Machine.execAddressUnit n syncOff word meas s
  | .optFmtWrite m v => Sys2Proof.Machine.execOptFmtWrite m v s
  | .saDelayEnd n => Sys2Proof.Machine.execSaDelayEnd n s
  | .sledMoveEnd n => Sys2Proof.Machine.execSledMoveEnd n s
  | .ddrRead m a err => Sys2Proof.Machine.execDdrRead m a err s
  | .regattrPolicyWrite m k v => Sys2Proof.Machine.execRegattrPolicyWrite m k v s
  | .splitRead m => Sys2Proof.Machine.execSplitRead m s
  | .splitWrite m => Sys2Proof.Machine.execSplitWrite m s
  | .scrubRead err => Sys2Proof.Machine.execScrubRead err s
  | .softPpr m v => Sys2Proof.Machine.execSoftPpr m v s
  | .hardPpr m v => Sys2Proof.Machine.execHardPpr m v s
  | .rowLogClear m v => Sys2Proof.Machine.execRowLogClear m v s
  | .bccAccess m a wr v err => Sys2Proof.Machine.execBccAccess m a wr v err s
  | .ceWindowExpiry => Sys2Proof.Machine.execCeWindowExpiry s
  | .bccEnable m => Sys2Proof.Machine.execBccEnable m s
  | .bccDisable m => Sys2Proof.Machine.execBccDisable m s
  | .drainComplete => Sys2Proof.Machine.execDrainComplete s
  | .bccClean m => Sys2Proof.Machine.execBccClean m s
  | .bccInval m => Sys2Proof.Machine.execBccInval m s
  | .bccCleanInval m => Sys2Proof.Machine.execBccCleanInval m s
  | .bccZero m => Sys2Proof.Machine.execBccZero m s
  | .bccLock m => Sys2Proof.Machine.execBccLock m s
  | .bccUnlock m => Sys2Proof.Machine.execBccUnlock m s
  | .bccInvalAll m => Sys2Proof.Machine.execBccInvalAll m s
  | .rangeOpDone => Sys2Proof.Machine.execRangeOpDone s
  | .repairMapEntry w => Sys2Proof.Machine.execRepairMapEntry w s
  | .extend m digest => Sys2Proof.Machine.execExtend m digest s
  | .keyGenerate ns user limit => Sys2Proof.Machine.execKeyGenerate ns user limit s
  | .keyZero slot => Sys2Proof.Machine.execKeyZero slot s
  | .keyCheckpoint => Sys2Proof.Machine.execKeyCheckpoint s
  | .nsActive ns slot enc => Sys2Proof.Machine.execNsActive ns slot enc s
  | .svnCommit count => Sys2Proof.Machine.execSvnCommit count s
  | .takeOwnership sig => Sys2Proof.Machine.execTakeOwnership sig s
  | .addOwnerKey sig digest => Sys2Proof.Machine.execAddOwnerKey sig digest s
  | .revokeOwnerKey sig k => Sys2Proof.Machine.execRevokeOwnerKey sig k s
  | .ownerPolicy sig part openRegion ownerDebug => Sys2Proof.Machine.execOwnerPolicy sig part openRegion ownerDebug s
  | .exportKeys sig devid => Sys2Proof.Machine.execExportKeys sig devid s
  | .importKeys sig b => Sys2Proof.Machine.execImportKeys sig b s
  | .behaviourProfileUnlock sig devid => Sys2Proof.Machine.execBehaviourProfileUnlock sig devid s
  | .firmwareActivationMeasurement digest => Sys2Proof.Machine.execFirmwareActivationMeasurement digest s
  | .slotSelect m v => Sys2Proof.Machine.execSlotSelect m v s
  | .snuffLevel1 src => Sys2Proof.Machine.execSnuffLevel1 src s
  | .snuffLevel2 src => Sys2Proof.Machine.execSnuffLevel2 src s
  | .alarmFuseBlow => Sys2Proof.Machine.execAlarmFuseBlow s
  | .epochFuseBlow => Sys2Proof.Machine.execEpochFuseBlow s
  | .keyRestore => Sys2Proof.Machine.execKeyRestore s
  | .debugChallenge => Sys2Proof.Machine.execDebugChallenge s
  | .debugResponse level sig digest halt => Sys2Proof.Machine.execDebugResponse level sig digest halt s
  | .thmConversion readings wick => Sys2Proof.Machine.execThmConversion readings wick s
  | .shutdownDimEntry => Sys2Proof.Machine.execShutdownDimEntry s
  | .criticalDarkEntry => Sys2Proof.Machine.execCriticalDarkEntry s
  | .criticalWake env => Sys2Proof.Machine.execCriticalWake env s
  | .clrshut m => Sys2Proof.Machine.execClrshut m s
  | .clrexcl m => Sys2Proof.Machine.execClrexcl m s
  | .trimCompute stats => Sys2Proof.Machine.execTrimCompute stats s
  | .taperStep t => Sys2Proof.Machine.execTaperStep t s
  | .trimAge t => Sys2Proof.Machine.execTrimAge t s
  | .eventStore => Sys2Proof.Machine.execEventStore s
  | .eventRaiseSw m v => Sys2Proof.Machine.execEventRaiseSw m v s
  | .floodPeriod => Sys2Proof.Machine.execFloodPeriod s
  | .evrNextRead m => Sys2Proof.Machine.execEvrNextRead m s
  | .evrCursorWrite m v => Sys2Proof.Machine.execEvrCursorWrite m v s
  | .evrWindowAdvance m => Sys2Proof.Machine.execEvrWindowAdvance m s
  | .evrBaseWrite m hi v => Sys2Proof.Machine.execEvrBaseWrite m hi v s
  | .evrStore m => Sys2Proof.Machine.execEvrStore m s
  | .evrCommit m => Sys2Proof.Machine.execEvrCommit m s
  | .lifAdd m v => Sys2Proof.Machine.execLifAdd m v s
  | .lifSeal m => Sys2Proof.Machine.execLifSeal m s
  | .lifSnap m => Sys2Proof.Machine.execLifSnap m s
  | .lifTick => Sys2Proof.Machine.execLifTick s
  | .calRead m => Sys2Proof.Machine.execCalRead m s
  | .calSet m v => Sys2Proof.Machine.execCalSet m v s
  | .calAdjust m v => Sys2Proof.Machine.execCalAdjust m v s
  | .slewDone => Sys2Proof.Machine.execSlewDone s
  | .calAlarm => Sys2Proof.Machine.execCalAlarm s
  | .beaconSend => Sys2Proof.Machine.execBeaconSend s
  | .beaconReceive f b => Sys2Proof.Machine.execBeaconReceive f b s
  | .beaconMissed => Sys2Proof.Machine.execBeaconMissed s
  | .discoverSend => Sys2Proof.Machine.execDiscoverSend s
  | .discoverReceive f => Sys2Proof.Machine.execDiscoverReceive f s
  | .enrollReceive f msg => Sys2Proof.Machine.execEnrollReceive f msg s
  | .pollSend => Sys2Proof.Machine.execPollSend s
  | .pollReceive f => Sys2Proof.Machine.execPollReceive f s
  | .replyReceive f => Sys2Proof.Machine.execReplyReceive f s
  | .pollMissed => Sys2Proof.Machine.execPollMissed s
  | .imageReceive f ident chunk chunks bytes => Sys2Proof.Machine.execImageReceive f ident chunk chunks bytes s
  | .vlkWake ones periods env => Sys2Proof.Machine.execVlkWake ones periods env s
  | .leaseRenewalRequest => Sys2Proof.Machine.execLeaseRenewalRequest s
  | .leaseExpiry => Sys2Proof.Machine.execLeaseExpiry s
  | .quietPeriodEnd => Sys2Proof.Machine.execQuietPeriodEnd s
  | .orphanBackoffEnd => Sys2Proof.Machine.execOrphanBackoffEnd s
  | .orphanWindowEnd => Sys2Proof.Machine.execOrphanWindowEnd s
  | .segmentKeyRotation => Sys2Proof.Machine.execSegmentKeyRotation s
  | .vlkCmdWake m k => Sys2Proof.Machine.execVlkCmdWake m k s
  | .vlkCmdAttreq m k => Sys2Proof.Machine.execVlkCmdAttreq m k s
  | .vlkCmdRemove m k => Sys2Proof.Machine.execVlkCmdRemove m k s
  | .imageFanout m v => Sys2Proof.Machine.execImageFanout m v s
  | .linkOpen => Sys2Proof.Machine.execLinkOpen s
  | .linkShort port => Sys2Proof.Machine.execLinkShort port s
  | .linkRetry port => Sys2Proof.Machine.execLinkRetry port s
  | .headRetire n head last zones => Sys2Proof.Machine.execHeadRetire n head last zones s
  | .sectorStart n => Sys2Proof.Machine.execSectorStart n s
  | .sectorEnd n => Sys2Proof.Machine.execSectorEnd n s
  | .wedgeGap n crossing => Sys2Proof.Machine.execWedgeGap n crossing s
  | .defectSpanEnd n bits track => Sys2Proof.Machine.execDefectSpanEnd n bits track s
  | .wickCriticalLimit temp => Sys2Proof.Machine.execWickCriticalLimit temp s
  | .pprDone res => Sys2Proof.Machine.execPprDone res s
  | .segmentGrantExpiry k => Sys2Proof.Machine.execSegmentGrantExpiry k s
  | .fleetAuthorizationExpiry => Sys2Proof.Machine.execFleetAuthorizationExpiry s
  | .vddAux33Loss => Sys2Proof.Machine.execVddAux33Loss s

end Sys2Proof.Machine
end

