-- ==== Sys2Proof/Machine/Step.lean ====
section
/-!
DEFINITION. One step: the command at the front of the queue runs on the state with the queue's rest; with an empty queue
a millisecond passes.
-/

set_option Elab.async false

namespace Sys2Proof.Machine

open Sys2Proof

/-- What the part does while no command waits: the reservoir erases in the background (R161), a millisecond passes, a
calendar alarm that it brought wakes the part (R399), and an idle part changes its NVMe power state where the host has
enabled that (R80; DESIGN CHOICE, log 1). -/
def idle (s : State) : State := autonomousPs (wakeNoted (elapse 1000 (backgroundErase s)))

/-- One step of the block. -/
def step (s : State) : Host.Outcome State Fault Refusal :=
  match s.pending with
  | [] => .next (idle s)
  | c :: rest => exec c { s with pending := rest }

/-- The state with the command that a word spells at the front of its queue. -/
def State.withFetchWord (s : State) (nbits w : Nat) : State :=
  match decodeTableWord nbits w with
  | some c => { s with pending := c :: s.pending }
  | none => s

end Sys2Proof.Machine
end

