-- ==== Sys2Proof/Machine/Pins.lean ====
section
/-!
DEFINITION. The levels of the output pins as functions of the state (03_package_and_signals.md, R45-R47, R49, R52, R70):
what each pin shows while the core domain is in reset, while the block that owns it is off, gated or idle, and else.
Waveforms that an interface drives while it works are not part of the state: there a pin is `driven`.
-/

set_option Elab.async false

namespace Sys2Proof.Machine

open Sys2Proof

/-- What an output pin shows. -/
inductive PinLevel where
  | low | high
  /-- open drain, not driven by the part -/
  | released
  | highZ | electricalIdle
  /-- an input with its pull-down -/
  | pulledDown
  /-- a converter at mid-scale, a zero command -/
  | midScale
  /-- driven by the interface that owns it -/
  | driven
deriving DecidableEq, Repr

/-- Output pins (tables PCIe, SMBus and system balls; Left-edge balls; AFE ball grid). -/
inductive Pin where
  | pet (lane : Fin 4) | clkreq (p : Fin 2) | smbClk | smbDat | smbAlert | ready
  | xspiClk (k : Fin 2) | xspiReset (k : Fin 2) | xspi0Cs | xspi1Cs (k : Fin 2) | xspiIo (k : Fin 2)
  | tdo | uartTxd | vlkUp | vlkDn
  | spnChop | spnGate (k : Fin 6)
  | wg (n : Fin 4) | lg (n : Fin 4) | wdP (n : Fin 4) | wdN (n : Fin 4) | cda (n k : Fin 4)
  | psiSck (n : Fin 4) | psiSen (n : Fin 4) | psiSdio (n : Fin 4)
deriving DecidableEq, Repr

def levelOf (b : Bool) : PinLevel := if b then .high else .low

/-- The port of a lane (R46): lanes 0-1 and 2-3 with DUALP, all lanes port 0 without. -/
def lanePort (lane : Fin 4) (s : State) : Nat := if s.sys.dualp then lane.val / 2 else 0

/-- The port's link is up and its lanes are powered. -/
def linkDrives (p : Nat) (s : State) : Bool := s.sys.coreUp && pdOn 8 s && pdOn 9 s && (ctrlAt p s).linkUp

/-- Domain d drives its pins: the core domain is out of reset and the domain is on. -/
def pinsOn (d : Nat) (s : State) : Bool := s.sys.coreUp && pdOn d s

/-- Channel n drives its pins: it exists, and its digital and analog domains are on (R2, R4, R52). -/
def chanPins (n : Fin 4) (s : State) : Bool := s.sys.coreUp && chanExists n s && chanOn n s && pdOn (18 + n.val) s

/-- The level of a pin. -/
def pinLevel (p : Pin) (s : State) : PinLevel :=
  match p with
  | .pet l => if linkDrives (lanePort l s) s then .driven else .electricalIdle
  | .clkreq p => if linkDrives p s && portExists p s then .driven else .released
  | .smbClk | .smbDat | .smbAlert => if pinsOn 2 s then .driven else .released
  | .ready => levelOf (s.sys.coreUp && s.sys.ready)
  | .xspiClk _ => if pinsOn 2 s then .driven else .low
  | .xspiReset _ => levelOf (pinsOn 2 s)
  | .xspi0Cs | .xspi1Cs _ => if pinsOn 2 s then .driven else .high
  | .xspiIo _ => if pinsOn 2 s then .driven else .pulledDown
  | .tdo => if pinsOn 2 s && s.sys.debugLevel != 0 then .driven else .highZ
  | .uartTxd => if pinsOn 2 s then .driven else .high
  | .vlkUp => if s.sys.coreUp && isCandle s then .driven else .highZ
  | .vlkDn => if s.sys.coreUp && isLantern s then .driven else .highZ
  | .spnChop => levelOf (pinsOn 13 s && s.spn.chopOn)
  | .spnGate k => levelOf (pinsOn 13 s && s.spn.gates.testBit k)
  | .wg n => levelOf (chanPins n s && s.rwc[n].wg)
  | .lg n => levelOf (chanPins n s && s.rwc[n].lg)
  | .wdP n => if chanPins n s && s.rwc[n].wg then .driven else .low
  | .wdN n => if chanPins n s && s.rwc[n].wg then .driven else .high
  | .cda n _ => if chanPins n s && s.sve[sveOf n].run then .driven else .midScale
  | .psiSck n | .psiSen n => if chanPins n s && s.psi[n].cur.isSome then .driven else .low
  | .psiSdio n => if chanPins n s && s.psi[n].cur.isSome then .driven else .pulledDown

/-- What a pin shows while the core domain is in reset (R45, R47, R52). -/
def resetLevel (p : Pin) : PinLevel :=
  match p with
  | .pet _ => .electricalIdle
  | .clkreq _ | .smbClk | .smbDat | .smbAlert => .released
  | .ready | .xspiClk _ | .xspiReset _ | .spnChop | .spnGate _ | .wg _ | .lg _ | .wdP _ | .psiSck _ | .psiSen _ => .low
  | .xspi0Cs | .xspi1Cs _ | .uartTxd | .wdN _ => .high
  | .xspiIo _ | .psiSdio _ => .pulledDown
  | .tdo | .vlkUp | .vlkDn => .highZ
  | .cda _ _ => .midScale

end Sys2Proof.Machine
end

