-- ==== Sys2Proof/Safety.lean ====
section
/-!
DEFINITION. The words in which statements about the part are made: what a command leaves as it was, when a block can be
reached, and the invariants.
-/

set_option Elab.async false

namespace Sys2Proof.Machine

open Sys2Proof

/-- The parts of State. -/
inductive Field where
  | pending | us | busData | busErr | regs | mem | tcm | free | hdr | sys | clk | pwr | l1 | irq | llt | hce | lgr
  | xmt | rvr | cst | asq | rwc | ldp | tpe | sve | spn | psi | lsr | opt | dmc | bcc | sec | thm | trm | sup | evr
  | lif | cal | vlk
deriving DecidableEq, Repr

/-- A part of the state is the same before and after. -/
def Field.same : Field → State → State → Prop
  | .pending, s, t => t.pending = s.pending
  | .us, s, t => t.us = s.us
  | .busData, s, t => t.busData = s.busData
  | .busErr, s, t => t.busErr = s.busErr
  | .regs, s, t => t.regs = s.regs
  | .mem, s, t => t.mem = s.mem
  | .tcm, s, t => t.tcm = s.tcm
  | .free, s, t => t.free = s.free
  | .hdr, s, t => t.hdr = s.hdr
  | .sys, s, t => t.sys = s.sys
  | .clk, s, t => t.clk = s.clk
  | .pwr, s, t => t.pwr = s.pwr
  | .l1, s, t => t.l1 = s.l1
  | .irq, s, t => t.irq = s.irq
  | .llt, s, t => t.llt = s.llt
  | .hce, s, t => t.hce = s.hce
  | .lgr, s, t => t.lgr = s.lgr
  | .xmt, s, t => t.xmt = s.xmt
  | .rvr, s, t => t.rvr = s.rvr
  | .cst, s, t => t.cst = s.cst
  | .asq, s, t => t.asq = s.asq
  | .rwc, s, t => t.rwc = s.rwc
  | .ldp, s, t => t.ldp = s.ldp
  | .tpe, s, t => t.tpe = s.tpe
  | .sve, s, t => t.sve = s.sve
  | .spn, s, t => t.spn = s.spn
  | .psi, s, t => t.psi = s.psi
  | .lsr, s, t => t.lsr = s.lsr
  | .opt, s, t => t.opt = s.opt
  | .dmc, s, t => t.dmc = s.dmc
  | .bcc, s, t => t.bcc = s.bcc
  | .sec, s, t => t.sec = s.sec
  | .thm, s, t => t.thm = s.thm
  | .trm, s, t => t.trm = s.trm
  | .sup, s, t => t.sup = s.sup
  | .evr, s, t => t.evr = s.evr
  | .lif, s, t => t.lif = s.lif
  | .cal, s, t => t.cal = s.cal
  | .vlk, s, t => t.vlk = s.vlk

/-- Everything but the named parts of the state is as it was. -/
def OnlyChanges (changed : List Field) (s t : State) : Prop := ∀ x, x ∉ changed → x.same s t

/-- The header of a header source (R30). -/
def headerOf (h : Nat) (s : State) : Hdr := vget s.hdr h {}

/-- A master's access reaches the block: PD2 is on, the pages are not fused off, and the block's domain is on (R4, R69). -/
def Reach (b : Blk) (n : Nat) (s : State) : Prop := pdOn 2 s = true ∧ fused b n s = false ∧ pdOn (pdOf b n) s = true

/-- Keys of a sparse list rise strictly. -/
def Rising {β : Type} : List (Nat × β) → Prop
  | [] => True
  | (a, _) :: t => (∀ x ∈ t, a < x.1) ∧ Rising t

/-- Registers a write of which only stores fields under their access types: those without a row or an effect of their
own. -/
def Reg.plain (r : Reg) : Bool :=
  match r with
  | .rdyctl | .wdtctl | .wdtkick | .profile | .twinData | .irqSwset | .irqRoute | .preq | .pdoff
  | .lltBoard | .lltRsv | .vlkFloor | .lltReqb | .lltOp | .pllen | .clkDom | .calCmd | .calAdj | .lifSnap
  | .lifAddgo | .lifCmd | .evrCmd | .evrBase | .evrCur | .evrWin | .evrSwev | .thmThr | .thmCmd | .supPfcfg
  | .vlkCfg | .vlkNode | .vlkLreq | .orphanSpinup | .vlkCmd | .segbudget | .imgcmd | .vlkWrap | .vlkSnap
  | .vlkClr | .trmComp0 | .trmTrim1 | .trmComp1 | .trmComp2 | .trmStat0 | .abortreq | .lgrWin | .nsdom
  | .rvrCmd | .dmcInit | .dmcCfg | .ppr0 | .regattr0 | .regattr1 | .splitctl | .rowclr | .opcmd | .openctl
  | .cstAct | .asqAbort | .respop | .ptask | .pcmd | .headret | .rwcWrap | .rwcSnap | .rwcClr | .ldpBoost
  | .rsfree | .ffpop | .ldpWrap | .ldpSnap | .ldpClr | .dlop | .sveCfg | .sveSwap | .retractReg | .mailcmt
  | .caddr | .cdata | .saddr | .sdata | .sveRow | .trctl | .traddr | .jumpReg | .fsweep1 | .sveWrap
  | .sveSnap | .sveClr | .spnCfg | .spnCmd | .lsrClrf | .optFmt | .optWrap | .optSnap | .optClr | .fwcmd
  | .cipLock | .slotsel | .mbcmd => false
  | _ => true

/-- The bits of a register that a write stores: RW always, RWG while the guard window is open (R7, R36). -/
def writableBits (r : Reg) (n : Nat) (s : State) : Nat :=
  if windowOpen r.row.blk n s then r.mask (· == .rw) ||| r.mask (· == .rwg) else r.mask (· == .rw)

/-- The memories and the register file are in their canonical forms: keys rise strictly, and no byte of memory listed is
one that an unlisted address reads as. -/
def Canonical (s : State) : Prop := Memory.wf s.mem = true ∧ Memory.wf s.tcm = true ∧ Rising s.regs

/-- The live command of a tag has been accepted, is of an operation, HCE runs, and no activation pause holds it (R427). -/
def Ready (op : NvmeOp) (tag : Nat) (c : Cmd) (s : State) : Prop :=
  cmdAt tag s = some c ∧ c.phase = .accepted ∧ c.cmd.op = op ∧ hceUp s = true ∧ pauseHolds c s = false

/-- The command of a tag is finished with a status. -/
def Done (tag : Nat) (st : Status) (t : State) : Prop :=
  ∃ c, cmdAt tag t = some c ∧ c.phase = .finished ∧ c.status = some st

/-- A read's Ledger entry r can take its data now: its writes have arrived, the media and the keys that it needs are
there, and with FUA its data is durable (R115, R150, R281, R356). -/
def Readable (c : Cmd) (r : LEntry) (s : State) : Prop :=
  c.ord.bind (fun o => entryAt o s) = some r ∧ selReady r.sel = true ∧ (selMedia r.sel = true → mediaUp s = true) ∧
    selKeyWait r.ns r.sel s = false ∧ fuaReady c r s = true

/-- FREEZE does not hold the calendar. -/
def calRuns (s : State) : Prop := (hdrOf .cal 0 s).freeze = false

/-- An event of a code waits in the recorder's ingest queue (R384). -/
def Recorded (code : Nat) (t : State) : Prop := ∃ e ∈ t.evr.queue, e.code = code

/-- The ingest queue has room: an event recorded now is not lost (R384, R385). -/
def EventRoom (s : State) : Prop := s.evr.queue.length < 200

/-- Sequencer n executes a word with SEQ operation k: it is issued, its wait is satisfied, and no request is pending
(R169, R170, R178). -/
def SeqReady (k : Nat) (n : Fin 4) (s : State) : Prop :=
  asqLive n s = true ∧ asqRuns s.asq[n] = true ∧ s.asq[n].issued = true ∧ mwSeq s.asq[n].word = k ∧ waitSat n s = true ∧
    s.asq[n].reqAbort = false ∧ s.asq[n].reqDeadline = false ∧ s.asq[n].reqFault = false

/-- The state in which the word of sequencer n completes: a WAIT 1 lets its delay pass (R173). -/
def waited (n : Fin 4) (s : State) : State :=
  if mwWait s.asq[n].word = 1 then advanceTo (s.asq[n].issueAt + tmrUs (mwTmr s.asq[n].word)) s else s

/-- Sequencer n is to execute next from an address, its word complete (R170). -/
def NextAt (n : Fin 4) (addr : Nat) (t : State) : Prop :=
  t.asq[n].pc = addr ∧ t.asq[n].issued = false ∧ t.asq[n].avalid = true

/-- No two slots of BCC hold one line. -/
def LinesOnce (s : State) : Prop := s.bcc.lines.Pairwise fun a b => a.line ≠ b.line

/-- A range operation of kind op runs, unfrozen, over lines that all lie in the installed DDR5, and BCC holds none of them
twice. -/
def RangeRuns (op : Nat) (r : RangeOp) (s : State) : Prop :=
  (hdrOf .bcc 0 s).freeze = false ∧ s.bcc.op = some r ∧ r.op = op ∧ (∀ j < r.lines, inDdr ((r.first + j) * 128) s = true) ∧
    LinesOnce s

/-- A trim whose computation ended (R385): its target is the sum of COMP0's constant, the compensation and the automatic
adjustment, held at 0 below it and at the trim's largest code above it, and it is marked limited exactly where that held it. -/
def TrimTargeted (k : Nat) (t : State) : Prop :=
  let x := trimAt k t
  let sum : Int := (fld .trmComp0 0 k 11 0 t : Int) + x.comp + x.auto
  x.target = (clamp 0 (2 ^ trimWidth k - 1) sum).toNat ∧ x.limited = (decide (sum < 0) || decide ((2 : Int) ^ trimWidth k - 1 < sum))

/-- A range operation of kind op has been taken (R335): its first line and its number of lines are those of OPADDR and
OPLINES, a number of 0 counting as 1, no line has failed, and OPSTAT does not yet show it done. -/
def RangeStarted (op : Nat) (s t : State) : Prop :=
  t.bcc.opDone = false ∧ t.bcc.op = some
    { op := op, first := fld .opaddr1 0 0 7 0 s * 2 ^ 25 + fld .opaddr0 0 0 31 7 s, lines := zeroAsOne (fld .oplines 0 0 23 0 s),
      nfail := 0, firstFail := 0 }

/-- A range operation has ended with success: RES 0 and line 416 (R335). -/
def RangeEnded (t : State) : Prop := t.bcc.op = none ∧ t.bcc.opDone = true ∧ t.bcc.opRes = 0 ∧ 416 ∈ t.irq.pending

/-- An access goes past the L1 caches: no line holds its address, and a core that reads caches nothing (R11, R104). -/
def pastL1 (m : Master) (a : Nat) (s : State) : Bool :=
  (l1Find (a / 64) s).isNone && match m with | .core (.a c) => !(s.sys.ucache[c].2) | _ => true

/-- A list command of TPE has been accepted, and the directory entry and list of surface h have been fetched. -/
def dlView (h : Nat) (s : State) : State := dlFetch h { s with tpe := { s.tpe with dlDone := false, dlBusy := true } }

/-- The parts of the state that a command may change; every other part it leaves as it was. -/
def mayChange : Instr → List Field
  | .regWrite .. | .busAccess .. =>
    [.us, .busData, .busErr, .regs, .mem, .tcm, .free, .hdr, .sys, .clk, .pwr, .l1, .irq, .llt, .hce, .lgr, .xmt,
     .rvr, .cst, .asq, .rwc, .ldp, .tpe, .sve, .spn, .psi, .lsr, .opt, .dmc, .bcc, .sec, .thm, .trm, .evr, .lif,
     .cal, .vlk]
  | .guardWordWrite .. | .errClear .. | .irqSetWrite .. | .evrCursorWrite .. | .evrStore .. | .lifAdd ..
  | .lifSeal .. | .lifSnap .. | .lifTick .. =>
    [.hdr, .evr, .lif]
  | .guardWindowExhausted .. =>
    [.hdr]
  | .softReset .. =>
    [.us, .regs, .mem, .free, .hdr, .sys, .pwr, .l1, .irq, .llt, .hce, .lgr, .xmt, .rvr, .cst, .asq, .rwc, .ldp,
     .tpe, .sve, .spn, .psi, .lsr, .opt, .dmc, .bcc, .sec, .trm, .evr, .lif, .cal, .vlk]
  | .softResetComplete .. =>
    [.hdr, .irq, .llt]
  | .freeze .. | .leaveRelease .. | .leaveRenew .. =>
    [.hdr, .irq, .llt, .evr, .lif]
  | .allcln .. =>
    [.mem, .free, .hdr, .sys, .l1, .irq, .dmc, .bcc, .evr, .lif]
  | .l1Clean .. | .l1CleanAndInvalidate .. =>
    [.mem, .free, .hdr, .l1, .irq, .dmc, .bcc, .evr, .lif]
  | .l1Invalidate .. =>
    [.l1]
  | .l1NoOperation .. =>
    []
  | .irqTake .. =>
    [.busData, .irq]
  | .uirqdone .. =>
    [.irq]
  | .irqRouteWrite .. | .clkDomWrite .. | .nsdomWrite .. | .optFmtWrite .. | .eventRaiseSw .. =>
    [.regs, .hdr, .evr, .lif]
  | .irqSwset .. =>
    [.hdr, .irq, .evr, .lif]
  | .twinDataAccess .. =>
    [.busData, .regs, .tcm, .hdr, .evr, .lif]
  | .por .. | .criticalDarkEntry .. | .vddAux33Loss .. =>
    [.us, .regs, .mem, .tcm, .hdr, .sys, .clk, .pwr, .l1, .irq, .llt, .hce, .lgr, .xmt, .rvr, .cst, .asq, .rwc, .ldp,
     .tpe, .sve, .spn, .psi, .lsr, .opt, .dmc, .bcc, .sec, .thm, .trm, .sup, .evr, .lif, .cal, .vlk]
  | .xo32kQualified .. =>
    [.hdr, .clk, .evr, .lif, .cal]
  | .xo32kFail .. =>
    [.us, .regs, .hdr, .sys, .clk, .pwr, .evr, .lif, .cal, .vlk]
  | .xo40Fail .. | .pllLockLoss .. =>
    [.regs, .free, .hdr, .clk, .irq, .hce, .xmt, .asq, .rwc, .tpe, .sve, .spn, .psi, .lsr, .opt, .trm, .evr, .lif]
  | .mainRailsGood .. =>
    [.us, .regs, .mem, .free, .hdr, .sys, .clk, .pwr, .irq, .hce, .lgr, .xmt, .cst, .dmc, .bcc, .sec, .sup, .evr,
     .lif, .cal, .vlk]
  | .railFault .. | .coreDomainHold .. | .commitRecordDurable .. | .wickCriticalLimit .. =>
    [.regs, .mem, .tcm, .free, .hdr, .sys, .clk, .pwr, .l1, .irq, .llt, .hce, .lgr, .xmt, .rvr, .cst, .asq, .rwc,
     .ldp, .tpe, .sve, .spn, .psi, .lsr, .opt, .dmc, .bcc, .sec, .thm, .trm, .sup, .evr, .lif, .vlk]
  | .uartRecoveryImage .. =>
    [.regs, .free, .sys, .sec]
  | .perstDeassert .. =>
    [.irq, .hce]
  | .perstAssert .. | .controllerReset .. | .functionLevelReset .. | .linkDown .. =>
    [.mem, .free, .hdr, .pwr, .l1, .irq, .llt, .hce, .lgr, .xmt, .asq, .rwc, .tpe, .sve, .psi, .lsr, .dmc, .bcc,
     .sec, .trm, .evr, .lif]
  | .configRequest .. | .controllerEnable .. | .writeTransferStart .. | .interruptCoalescingTimeout .. | .write ..
  | .zoneAppend .. | .configurationGet .. | .configurationSet .. | .vpdWrite .. =>
    [.hce]
  | .dmcInitGo .. | .rowLogClear .. =>
    [.hdr, .dmc, .evr, .lif]
  | .dmcInitDone .. =>
    [.busData, .busErr, .mem, .free, .hdr, .sys, .l1, .irq, .dmc, .bcc, .evr, .lif]
  | .dmcInitHeldAccess .. | .ddrRead .. | .bccAccess .. =>
    [.busData, .busErr, .mem, .free, .hdr, .l1, .irq, .dmc, .bcc, .evr, .lif]
  | .readySet .. | .readyClr .. =>
    [.hdr, .sys, .hce, .evr, .lif]
  | .namespaceReady .. =>
    [.hce, .xmt, .sec]
  | .resetNAssert .. =>
    [.free, .hdr, .sys, .pwr, .irq, .llt, .hce, .lgr, .xmt, .rvr, .asq, .rwc, .tpe, .sve, .psi, .lsr, .opt, .trm,
     .evr, .lif]
  | .resetNRelease .. =>
    [.regs, .mem, .free, .hdr, .sys, .clk, .pwr, .irq, .hce, .lgr, .xmt, .cst, .dmc, .bcc, .sec, .evr, .lif]
  | .nvmSubsystemReset .. | .nvmeMiSend .. | .miReset .. =>
    [.mem, .free, .hdr, .sys, .pwr, .l1, .irq, .llt, .hce, .lgr, .xmt, .rvr, .asq, .rwc, .tpe, .sve, .psi, .lsr,
     .opt, .dmc, .bcc, .sec, .trm, .evr, .lif]
  | .watchdogEnable .. =>
    [.regs, .hdr, .sys, .evr, .lif]
  | .watchdogKick .. =>
    [.hdr, .sys, .evr, .lif]
  | .watchdogPeriod .. | .slewDone .. | .calAlarm .. | .leaseRenewalRequest .. | .quietPeriodEnd ..
  | .segmentKeyRotation .. | .linkRetry .. | .fleetAuthorizationExpiry .. =>
    [.us, .regs, .hdr, .sys, .pwr, .evr, .lif, .cal, .vlk]
  | .watchdogReset .. =>
    [.us, .regs, .free, .hdr, .sys, .pwr, .irq, .llt, .hce, .lgr, .xmt, .rvr, .asq, .rwc, .tpe, .sve, .psi, .lsr,
     .opt, .trm, .evr, .lif, .cal, .vlk]
  | .powerLoss .. | .retractEnd .. =>
    [.us, .regs, .mem, .tcm, .free, .hdr, .sys, .clk, .pwr, .l1, .irq, .llt, .hce, .lgr, .xmt, .rvr, .cst, .asq,
     .rwc, .ldp, .tpe, .sve, .spn, .psi, .lsr, .opt, .dmc, .bcc, .sec, .thm, .trm, .sup, .evr, .lif, .cal, .vlk]
  | .preqGo .. =>
    [.busData, .busErr, .regs, .mem, .free, .hdr, .pwr, .l1, .irq, .hce, .dmc, .bcc, .evr, .lif]
  | .powerStateEntered .. =>
    [.busData, .busErr, .regs, .mem, .tcm, .free, .hdr, .sys, .clk, .pwr, .l1, .irq, .llt, .hce, .lgr, .xmt, .rvr,
     .cst, .asq, .rwc, .ldp, .tpe, .sve, .spn, .psi, .lsr, .opt, .dmc, .bcc, .sec, .thm, .trm, .sup, .evr, .lif, .vlk]
  | .pdoffWrite .. =>
    [.regs, .free, .hdr, .pwr, .irq, .llt, .hce, .lgr, .xmt, .evr, .lif]
  | .wakeSource .. | .vlkWake .. =>
    [.busData, .busErr, .regs, .mem, .free, .hdr, .sys, .clk, .pwr, .l1, .irq, .llt, .hce, .lgr, .xmt, .cst, .dmc,
     .bcc, .sec, .sup, .evr, .lif]
  | .pllLocked .. =>
    [.busData, .busErr, .mem, .free, .hdr, .clk, .pwr, .l1, .irq, .dmc, .bcc, .evr, .lif]
  | .psEntryRestart .. =>
    [.us, .regs, .mem, .free, .hdr, .sys, .pwr, .l1, .irq, .hce, .lgr, .dmc, .bcc, .evr, .lif, .cal, .vlk]
  | .leaveRequest .. =>
    [.regs, .hdr, .irq, .llt, .evr, .lif]
  | .leaveExpiry .. | .leaveDeadline .. | .thermalCeilingStep .. | .orphanBackoffEnd .. | .orphanWindowEnd .. =>
    [.us, .regs, .hdr, .sys, .pwr, .irq, .llt, .evr, .lif, .cal, .vlk]
  | .drawAfterExpiry .. =>
    [.us, .regs, .hdr, .sys, .pwr, .llt, .evr, .lif, .cal, .vlk]
  | .sqTailDoorbell .. | .cqHeadDoorbell .. =>
    [.busData, .busErr, .mem, .free, .hdr, .pwr, .l1, .irq, .hce, .dmc, .bcc, .evr, .lif]
  | .commandFetch .. =>
    [.busData, .busErr, .mem, .free, .hdr, .pwr, .l1, .irq, .llt, .hce, .lgr, .xmt, .dmc, .bcc, .sec, .evr, .lif]
  | .fetchPauseEnd .. =>
    [.hdr, .irq, .hce, .evr, .lif]
  | .dataTransferComplete .. | .writeUncorrectable .. | .writeZeroes .. | .datasetManagement .. =>
    [.free, .hdr, .irq, .hce, .lgr, .xmt, .sec, .evr, .lif]
  | .hostMemoryError .. | .read .. | .compare .. | .verify .. =>
    [.free, .hdr, .irq, .hce, .lgr, .xmt, .evr, .lif]
  | .completionPost .. =>
    [.free, .hdr, .pwr, .irq, .hce, .lgr, .xmt, .sec, .evr, .lif]
  | .recoveryTimeLimitExpiry .. =>
    [.us, .regs, .free, .hdr, .sys, .pwr, .hce, .lgr, .xmt, .evr, .lif, .cal, .vlk]
  | .abortMatch .. =>
    [.regs, .mem, .free, .hdr, .l1, .irq, .llt, .hce, .lgr, .xmt, .asq, .rwc, .tpe, .sve, .psi, .lsr, .dmc, .bcc,
     .sec, .trm, .evr, .lif]
  | .flush .. | .reservationRegister .. | .reservationReport .. | .reservationRelease .. | .reportZones ..
  | .createIoSq .. | .createIoCq .. | .deleteIoSq .. | .deleteIoCq .. | .identify .. | .getLogPage ..
  | .logGuaranteeExceptions .. | .logEventRecorder .. | .logActuatorHeadHealth .. | .logLeasesPower ..
  | .logAttestationMeasurements .. | .setFeatures .. | .getFeatures .. | .getFeaturesTimestamp ..
  | .setFeaturesVolatileWriteCache .. | .setFeaturesInterruptCoalescing .. | .setFeaturesReadRecoveryLevel ..
  | .setFeaturesRecoveryTimeLimit .. | .setFeaturesDirtyCap .. | .getFeaturesBehaviourProfile ..
  | .asynchronousEventRequest .. | .keepAlive .. | .namespaceAttachment .. | .firmwareImageDownload ..
  | .firmwareCommit .. | .securitySend .. | .securityReceive .. | .attestationReportReceive .. | .deviceSelfTest ..
  | .nvmeMiReceive .. =>
    [.free, .hce, .lgr]
  | .reservationAcquire .. | .abort .. =>
    [.mem, .free, .hdr, .l1, .irq, .llt, .hce, .lgr, .xmt, .asq, .rwc, .tpe, .sve, .psi, .lsr, .dmc, .bcc, .sec,
     .trm, .evr, .lif]
  | .zoneOpen .. | .zoneClose .. | .zoneFinish .. | .zoneReset .. | .zoneOffline .. =>
    [.free, .hdr, .hce, .lgr, .xmt, .evr, .lif]
  | .logLifetimeCounters .. =>
    [.free, .hce, .lgr, .lif]
  | .setFeaturesPowerManagement .. =>
    [.free, .pwr, .hce, .lgr]
  | .setFeaturesTimestamp .. =>
    [.regs, .free, .hdr, .pwr, .hce, .lgr, .evr, .lif, .cal, .vlk]
  | .setFeaturesTemperatureThreshold .. =>
    [.regs, .free, .hce, .lgr]
  | .setFeaturesLeaseFloor .. =>
    [.regs, .free, .irq, .llt, .hce, .lgr]
  | .setFeaturesBehaviourProfile .. =>
    [.free, .sys, .hce, .lgr]
  | .namespaceManagement .. =>
    [.regs, .free, .hce, .lgr, .xmt, .sec]
  | .firmwareActivation .. =>
    [.free, .hdr, .sys, .hce, .lgr, .sec, .evr, .lif]
  | .activationPauseTimeout .. =>
    [.us, .regs, .free, .hdr, .sys, .pwr, .hce, .lgr, .evr, .lif, .cal, .vlk]
  | .formatNvm .. =>
    [.free, .hce, .lgr, .xmt]
  | .sanitizeOverwrite .. =>
    [.free, .hdr, .irq, .llt, .hce, .lgr, .xmt, .rvr, .evr, .lif]
  | .sanitizeCryptoErase .. =>
    [.free, .hce, .lgr, .xmt, .rvr, .sec]
  | .sanitizeBandDone .. =>
    [.xmt, .rvr]
  | .attestationNonce .. =>
    [.free, .hce, .lgr, .sec]
  | .attestationReportSigned .. =>
    [.sec]
  | .credential .. =>
    [.free, .hdr, .hce, .lgr, .sec, .evr, .lif]
  | .readNvmeMiDataStructure .. | .nvmSubsystemHealthStatusPoll .. | .controllerHealthStatusPoll .. | .vpdRead ..
  | .basicManagementCommand .. =>
    [.free, .hce]
  | .lgrWinGo .. =>
    [.regs, .free, .hdr, .lgr, .evr, .lif]
  | .journalBlockDurable .. =>
    [.free, .hdr, .irq, .hce, .lgr, .xmt, .rvr, .sec, .evr, .lif]
  | .checkpoint .. =>
    [.free, .xmt]
  | .migrationStart .. =>
    [.hdr, .irq, .hce, .lgr, .xmt, .evr, .lif]
  | .migrationCopyVerified .. =>
    [.hdr, .lgr, .xmt, .sec, .evr, .lif]
  | .migFree .. =>
    [.xmt]
  | .reservoirCommit .. | .reservoirReplay .. =>
    [.hdr, .llt, .hce, .lgr, .rvr, .evr, .lif]
  | .ledgerFreeze .. =>
    [.hdr, .lgr, .rvr, .evr, .lif]
  | .replayDone .. =>
    [.free, .irq, .lgr, .xmt, .rvr]
  | .restartRecovery .. =>
    [.free, .hdr, .irq, .llt, .hce, .lgr, .xmt, .rvr, .sec, .evr, .lif]
  | .taskCommit .. | .taskCancel .. | .taskPromotion .. | .asqAbort .. =>
    [.mem, .free, .hdr, .l1, .irq, .llt, .hce, .asq, .rwc, .tpe, .sve, .psi, .lsr, .dmc, .bcc, .sec, .trm, .evr, .lif]
  | .microwordIssue .. =>
    [.mem, .free, .hdr, .l1, .irq, .llt, .hce, .asq, .rwc, .ldp, .tpe, .sve, .psi, .lsr, .opt, .dmc, .bcc, .trm,
     .evr, .lif]
  | .seqNext .. | .seqJump .. | .seqCall .. | .seqRet .. | .seqBrt .. | .seqBrf .. | .seqDispatch .. | .seqLoop .. =>
    [.us, .regs, .mem, .free, .hdr, .sys, .pwr, .l1, .irq, .llt, .hce, .asq, .rwc, .sve, .psi, .lsr, .dmc, .bcc,
     .trm, .evr, .lif, .cal, .vlk]
  | .faultRequest .. =>
    [.free, .hdr, .irq, .asq, .rwc, .psi, .lsr, .trm, .evr, .lif]
  | .waitTimeout .. | .taskDeadline .. =>
    [.us, .regs, .free, .hdr, .sys, .pwr, .irq, .asq, .rwc, .psi, .lsr, .trm, .evr, .lif, .cal, .vlk]
  | .atomicBound .. =>
    [.us, .regs, .hdr, .sys, .pwr, .asq, .evr, .lif, .cal, .vlk]
  | .resultPop .. =>
    [.hdr, .asq, .evr, .lif]
  | .microcodeActivate .. =>
    [.regs, .hdr, .irq, .cst, .asq, .sec, .evr, .lif]
  | .arm .. =>
    [.hdr, .irq, .cst, .asq, .evr, .lif]
  | .activationCopy .. =>
    [.hdr, .cst, .asq, .sec, .evr, .lif]
  | .activationAbandon .. =>
    [.us, .regs, .hdr, .sys, .pwr, .cst, .asq, .evr, .lif, .cal, .vlk]
  | .openctlWrite .. =>
    [.hdr, .cst, .evr, .lif]
  | .readerCheck .. =>
    [.hdr, .asq, .rwc, .evr, .lif]
  | .clockField .. | .preampFault .. =>
    [.free, .hdr, .irq, .xmt, .asq, .rwc, .tpe, .psi, .lsr, .trm, .evr, .lif]
  | .syncADecision .. =>
    [.rwc]
  | .syncBDecision .. =>
    [.irq, .asq, .rwc]
  | .blindFraming .. =>
    [.free, .irq, .asq, .rwc, .ldp]
  | .defectSpan .. =>
    [.free, .irq, .rwc]
  | .loopLimit .. =>
    [.free, .hdr, .irq, .rwc, .evr, .lif]
  | .pmonSnap .. | .pmonClr .. =>
    [.hdr, .rwc, .ldp, .sve, .opt, .evr, .lif, .vlk]
  | .codewordDecode .. | .squeezeRedecode .. =>
    [.hdr, .irq, .hce, .asq, .rwc, .ldp, .opt, .evr, .lif]
  | .clusterDecode .. =>
    [.hdr, .irq, .asq, .ldp, .evr, .lif]
  | .retainedSlotFree .. | .failurePop .. =>
    [.hdr, .ldp, .evr, .lif]
  | .defectInsert .. | .defectDelete .. | .defectClearPending .. | .defectInsertRelease .. =>
    [.mem, .free, .hdr, .l1, .irq, .hce, .tpe, .dmc, .bcc, .evr, .lif]
  | .sampleTrigger .. | .syncTimeout .. | .cdaShort .. | .retractGo .. =>
    [.free, .hdr, .irq, .hce, .xmt, .asq, .rwc, .tpe, .sve, .psi, .lsr, .opt, .trm, .evr, .lif]
  | .tableSwapGo .. =>
    [.free, .hdr, .irq, .sve, .evr, .lif]
  | .tableSwap .. =>
    [.irq, .asq, .sve]
  | .mailCommit .. | .shockSensorFault .. =>
    [.hdr, .sve, .evr, .lif]
  | .engineRun .. =>
    [.regs, .free, .hdr, .irq, .hce, .xmt, .asq, .rwc, .tpe, .sve, .psi, .lsr, .opt, .trm, .evr, .lif]
  | .seekTimeout .. | .focusLost .. =>
    [.us, .regs, .hdr, .sys, .pwr, .irq, .asq, .sve, .opt, .evr, .lif, .cal, .vlk]
  | .shockConversion .. =>
    [.free, .hdr, .irq, .hce, .xmt, .asq, .rwc, .tpe, .sve, .psi, .lsr, .trm, .evr, .lif]
  | .jumpGo .. | .focusSweepGo .. =>
    [.regs, .hdr, .sve, .opt, .evr, .lif]
  | .traceStart .. | .traceStop .. =>
    [.regs, .hdr, .irq, .sve, .evr, .lif]
  | .traceRead .. =>
    [.busData, .hdr, .sve, .evr, .lif]
  | .start .. | .brake .. | .coast .. | .clrf .. | .pwmCentre .. | .commutation .. | .floatPeriodEnd ..
  | .chopperFault .. | .spnFltNLow .. | .phaseOpen .. =>
    [.free, .hdr, .irq, .hce, .xmt, .asq, .rwc, .tpe, .sve, .spn, .psi, .lsr, .opt, .trm, .evr, .lif]
  | .brakeEntry .. | .supplyReversed .. =>
    [.hdr, .spn, .evr, .lif]
  | .alignDone .. | .motorRailThreshold .. | .rectifyExit .. =>
    [.spn]
  | .spinupAttemptTimeout .. =>
    [.us, .regs, .free, .hdr, .sys, .pwr, .irq, .hce, .xmt, .asq, .rwc, .tpe, .spn, .psi, .lsr, .trm, .evr, .lif,
     .cal, .vlk]
  | .bemfCrossing .. =>
    [.regs, .free, .hdr, .irq, .hce, .xmt, .rvr, .asq, .rwc, .tpe, .sve, .spn, .psi, .lsr, .opt, .trm, .evr, .lif]
  | .recoveryTimeout .. =>
    [.us, .regs, .free, .hdr, .sys, .pwr, .irq, .hce, .xmt, .asq, .rwc, .tpe, .sve, .spn, .psi, .lsr, .opt, .trm,
     .evr, .lif, .cal, .vlk]
  | .chopperConducting .. | .spindleStopped .. =>
    [.hdr, .irq, .spn, .evr, .lif]
  | .railOvervoltage .. =>
    [.free, .hdr, .irq, .hce, .xmt, .asq, .rwc, .tpe, .spn, .psi, .lsr, .trm, .evr, .lif]
  | .psiFrameDone .. =>
    [.hdr, .irq, .asq, .psi, .lsr, .evr, .lif]
  | .psiFwcmdGo .. =>
    [.hdr, .psi, .evr, .lif]
  | .laserMonitorRead .. =>
    [.us, .regs, .free, .hdr, .sys, .pwr, .irq, .xmt, .asq, .rwc, .tpe, .psi, .lsr, .trm, .evr, .lif, .cal, .vlk]
  | .lsrClrf .. =>
    [.hdr, .lsr, .evr, .lif]
  | .addressUnit .. =>
    [.free, .hdr, .irq, .xmt, .asq, .rwc, .tpe, .sve, .psi, .lsr, .opt, .trm, .evr, .lif]
  | .saDelayEnd .. =>
    [.us, .regs, .hdr, .sys, .pwr, .sve, .opt, .evr, .lif, .cal, .vlk]
  | .sledMoveEnd .. =>
    [.us, .regs, .hdr, .sys, .pwr, .opt, .evr, .lif, .cal, .vlk]
  | .regattrPolicyWrite .. =>
    [.regs, .mem, .hdr, .dmc, .bcc, .evr, .lif]
  | .splitRead .. | .splitWrite .. =>
    [.regs, .mem, .hdr, .irq, .dmc, .bcc, .evr, .lif]
  | .scrubRead .. =>
    [.hdr, .irq, .dmc, .evr, .lif]
  | .softPpr .. | .hardPpr .. =>
    [.regs, .hdr, .irq, .dmc, .evr, .lif]
  | .ceWindowExpiry .. =>
    [.bcc]
  | .bccEnable .. | .bccDisable .. =>
    [.hdr, .bcc, .evr, .lif]
  | .drainComplete .. =>
    [.mem, .free, .hdr, .irq, .dmc, .bcc, .evr, .lif]
  | .bccClean .. | .bccInval .. | .bccCleanInval .. | .bccZero .. | .bccLock .. | .bccUnlock .. | .bccInvalAll .. =>
    [.regs, .hdr, .irq, .bcc, .evr, .lif]
  | .rangeOpDone .. =>
    [.mem, .hdr, .irq, .dmc, .bcc, .evr, .lif]
  | .repairMapEntry .. =>
    [.regs, .free, .hdr, .sys, .sec, .evr, .lif]
  | .extend .. | .keyZero .. | .nsActive .. | .ownerPolicy .. | .firmwareActivationMeasurement .. | .slotSelect .. =>
    [.regs, .hdr, .sec, .evr, .lif]
  | .keyGenerate .. | .keyCheckpoint .. | .exportKeys .. | .importKeys .. =>
    [.regs, .mem, .free, .hdr, .l1, .irq, .dmc, .bcc, .sec, .evr, .lif]
  | .svnCommit .. | .takeOwnership .. | .addOwnerKey .. | .revokeOwnerKey .. =>
    [.regs, .free, .hdr, .sec, .evr, .lif]
  | .behaviourProfileUnlock .. =>
    [.regs, .hdr, .sys, .sec, .evr, .lif]
  | .snuffLevel1 .. | .snuffLevel2 .. | .alarmFuseBlow .. | .debugResponse .. =>
    [.busData, .busErr, .regs, .mem, .free, .hdr, .sys, .clk, .pwr, .l1, .irq, .llt, .hce, .lgr, .xmt, .cst, .asq,
     .rwc, .tpe, .psi, .lsr, .dmc, .bcc, .sec, .trm, .sup, .evr, .lif, .vlk]
  | .epochFuseBlow .. =>
    [.free, .hdr, .sec, .evr, .lif]
  | .keyRestore .. =>
    [.us, .regs, .hdr, .sys, .pwr, .xmt, .sec, .evr, .lif, .cal, .vlk]
  | .debugChallenge .. =>
    [.free, .sec]
  | .thmConversion .. =>
    [.free, .hdr, .sys, .irq, .llt, .hce, .lgr, .xmt, .rvr, .asq, .rwc, .tpe, .sve, .spn, .psi, .lsr, .opt, .thm,
     .trm, .evr, .lif]
  | .shutdownDimEntry .. =>
    [.free, .hdr, .pwr, .hce, .lgr, .thm, .evr, .lif]
  | .criticalWake .. =>
    [.us, .regs, .mem, .free, .hdr, .sys, .clk, .pwr, .irq, .hce, .lgr, .xmt, .cst, .dmc, .bcc, .sec, .thm, .evr,
     .lif, .cal, .vlk]
  | .clrshut .. | .clrexcl .. =>
    [.hdr, .irq, .llt, .hce, .lgr, .rvr, .thm, .evr, .lif]
  | .trimCompute .. =>
    [.free, .hdr, .trm, .evr, .lif]
  | .taperStep .. =>
    [.us, .regs, .free, .hdr, .sys, .pwr, .irq, .asq, .rwc, .trm, .evr, .lif, .cal, .vlk]
  | .trimAge .. =>
    [.us, .regs, .hdr, .sys, .pwr, .trm, .evr, .lif, .cal, .vlk]
  | .eventStore .. | .floodPeriod .. | .vlkCmdWake .. | .vlkCmdAttreq .. =>
    [.hdr, .evr, .lif, .vlk]
  | .evrNextRead .. | .evrWindowAdvance .. =>
    [.busData, .hdr, .evr, .lif]
  | .evrBaseWrite .. =>
    [.free, .hdr, .evr, .lif]
  | .evrCommit .. =>
    [.free, .hdr, .evr, .lif, .vlk]
  | .calRead .. =>
    [.busData, .hdr, .evr, .lif, .cal]
  | .calSet .. =>
    [.regs, .hdr, .pwr, .evr, .lif, .cal]
  | .calAdjust .. =>
    [.regs, .hdr, .evr, .lif, .cal]
  | .beaconSend .. | .linkOpen .. | .segmentGrantExpiry .. =>
    [.us, .regs, .hdr, .sys, .pwr, .irq, .evr, .lif, .cal, .vlk]
  | .beaconReceive .. =>
    [.regs, .free, .hdr, .pwr, .irq, .evr, .lif, .cal, .vlk]
  | .beaconMissed .. | .pollMissed .. | .vlkCmdRemove .. | .linkShort .. =>
    [.hdr, .irq, .evr, .lif, .vlk]
  | .discoverSend .. =>
    [.irq, .vlk]
  | .discoverReceive .. =>
    [.free, .hdr, .irq, .evr, .lif, .vlk]
  | .enrollReceive .. | .replyReceive .. | .imageReceive .. =>
    [.mem, .free, .hdr, .l1, .irq, .dmc, .bcc, .evr, .lif, .vlk]
  | .pollSend .. =>
    [.free, .irq, .vlk]
  | .pollReceive .. =>
    [.hdr, .irq, .llt, .sec, .evr, .lif, .vlk]
  | .leaseExpiry .. =>
    [.us, .regs, .free, .hdr, .sys, .pwr, .irq, .llt, .evr, .lif, .cal, .vlk]
  | .imageFanout .. =>
    [.regs, .free, .hdr, .evr, .lif, .vlk]
  | .headRetire .. =>
    [.free, .hdr, .hce, .lgr, .xmt, .asq, .evr, .lif]
  | .sectorStart .. =>
    [.asq, .rwc]
  | .sectorEnd .. =>
    [.free, .xmt, .asq, .rwc]
  | .wedgeGap .. =>
    [.free, .irq, .rwc, .trm]
  | .defectSpanEnd .. =>
    [.hdr, .irq, .rwc, .evr, .lif]
  | .pprDone .. =>
    [.mem, .free, .hdr, .irq, .dmc, .evr, .lif]

/-- The registers that a load of the calendar stores. -/
def calRegs : List (Reg × Nat × Nat) := [(.calSetusec, 0, 0), (.calSetsec0, 0, 0), (.calSetsec1, 0, 0), (.calAlm1, 0, 0)]

/-- The source registers of the clock domains. -/
def clkDoms : List (Reg × Nat × Nat) := (List.range 64).map fun k => (.clkDom, 0, k)

/-- The registers that a start of the core domain stores. -/
def startRegs : List (Reg × Nat × Nat) := [(.pllen, 0, 0), (.vlkFloor, 0, 0)]

/-- The registers that a wake stores. -/
def wakeRegs : List (Reg × Nat × Nat) := startRegs ++ clkDoms

/-- The commutation table. -/
def commRegs : List (Reg × Nat × Nat) := (List.range 6).map fun k => (.spnComm, 0, k)

/-- The zone or extent bases of the namespaces. -/
def nsBases : List (Reg × Nat × Nat) := (List.range 64).map fun k => (.nsbase, 0, k)

/-- The registers of a split test. -/
def splitRegs : List (Reg × Nat × Nat) :=
  (.splitctl, 0, 0) :: ((List.range 32).map (fun j => (.splitdata, 0, j)) ++ (List.range 8).map fun j => (.splitchk, 0, j))

/-- Every register of the register file but those named (register, number of the block, index) reads as before. -/
def RegsOnly (l : List (Reg × Nat × Nat)) (s t : State) : Prop :=
  ∀ q m j, (∀ x ∈ l, q.addr m j ≠ x.1.addr x.2.1 x.2.2) → reg q m j t = reg q m j s

/-- The registers of the register file that a command may store; none for a command that writes the register its master
names, or resets registers. -/
def mayStore : Instr → Option (List (Reg × Nat × Nat))
  | .regWrite .. | .busAccess .. | .softReset .. | .por .. | .railFault .. | .coreDomainHold .. | .watchdogReset ..
  | .powerLoss .. | .powerStateEntered .. | .commitRecordDurable .. | .retractEnd .. | .criticalDarkEntry ..
  | .wickCriticalLimit .. | .vddAux33Loss .. => none
  | .guardWordWrite .. | .guardWindowExhausted .. | .softResetComplete .. | .freeze .. | .errClear ..
  | .irqSetWrite .. | .allcln .. | .l1Clean .. | .l1Invalidate .. | .l1CleanAndInvalidate .. | .l1NoOperation ..
  | .irqTake .. | .uirqdone .. | .irqSwset .. | .xo32kQualified .. | .perstDeassert .. | .perstAssert ..
  | .configRequest .. | .dmcInitGo .. | .dmcInitDone .. | .dmcInitHeldAccess .. | .readySet .. | .readyClr ..
  | .controllerEnable .. | .controllerReset .. | .functionLevelReset .. | .linkDown .. | .namespaceReady ..
  | .resetNAssert .. | .nvmSubsystemReset .. | .watchdogKick .. | .pllLocked .. | .leaveRelease .. | .leaveRenew ..
  | .sqTailDoorbell .. | .cqHeadDoorbell .. | .commandFetch .. | .fetchPauseEnd .. | .writeTransferStart ..
  | .dataTransferComplete .. | .hostMemoryError .. | .completionPost .. | .interruptCoalescingTimeout .. | .read ..
  | .write .. | .zoneAppend .. | .flush .. | .compare .. | .writeUncorrectable .. | .writeZeroes .. | .verify ..
  | .datasetManagement .. | .reservationRegister .. | .reservationReport .. | .reservationAcquire ..
  | .reservationRelease .. | .zoneOpen .. | .zoneClose .. | .zoneFinish .. | .zoneReset .. | .zoneOffline ..
  | .reportZones .. | .createIoSq .. | .createIoCq .. | .deleteIoSq .. | .deleteIoCq .. | .identify ..
  | .getLogPage .. | .logGuaranteeExceptions .. | .logEventRecorder .. | .logLifetimeCounters ..
  | .logActuatorHeadHealth .. | .logLeasesPower .. | .logAttestationMeasurements .. | .setFeatures ..
  | .getFeatures .. | .setFeaturesPowerManagement .. | .getFeaturesTimestamp .. | .setFeaturesVolatileWriteCache ..
  | .setFeaturesInterruptCoalescing .. | .setFeaturesReadRecoveryLevel .. | .setFeaturesRecoveryTimeLimit ..
  | .setFeaturesDirtyCap .. | .setFeaturesBehaviourProfile .. | .getFeaturesBehaviourProfile ..
  | .asynchronousEventRequest .. | .abort .. | .keepAlive .. | .namespaceAttachment .. | .firmwareImageDownload ..
  | .firmwareCommit .. | .firmwareActivation .. | .formatNvm .. | .sanitizeOverwrite .. | .sanitizeCryptoErase ..
  | .sanitizeBandDone .. | .securitySend .. | .securityReceive .. | .attestationNonce ..
  | .attestationReportSigned .. | .attestationReportReceive .. | .credential .. | .deviceSelfTest .. | .nvmeMiSend ..
  | .nvmeMiReceive .. | .readNvmeMiDataStructure .. | .nvmSubsystemHealthStatusPoll ..
  | .controllerHealthStatusPoll .. | .configurationGet .. | .configurationSet .. | .vpdRead .. | .vpdWrite ..
  | .miReset .. | .basicManagementCommand .. | .journalBlockDurable .. | .checkpoint .. | .migrationStart ..
  | .migrationCopyVerified .. | .migFree .. | .reservoirCommit .. | .ledgerFreeze .. | .reservoirReplay ..
  | .replayDone .. | .restartRecovery .. | .taskCommit .. | .taskCancel .. | .taskPromotion .. | .microwordIssue ..
  | .faultRequest .. | .asqAbort .. | .resultPop .. | .arm .. | .activationCopy .. | .openctlWrite ..
  | .readerCheck .. | .clockField .. | .syncADecision .. | .syncBDecision .. | .blindFraming .. | .defectSpan ..
  | .loopLimit .. | .pmonSnap .. | .pmonClr .. | .codewordDecode .. | .squeezeRedecode .. | .clusterDecode ..
  | .retainedSlotFree .. | .failurePop .. | .defectInsert .. | .defectDelete .. | .defectClearPending ..
  | .defectInsertRelease .. | .sampleTrigger .. | .syncTimeout .. | .tableSwapGo .. | .tableSwap .. | .mailCommit ..
  | .shockConversion .. | .shockSensorFault .. | .cdaShort .. | .retractGo .. | .traceRead .. | .start .. | .brake ..
  | .brakeEntry .. | .coast .. | .clrf .. | .alignDone .. | .pwmCentre .. | .commutation .. | .floatPeriodEnd ..
  | .motorRailThreshold .. | .chopperFault .. | .chopperConducting .. | .railOvervoltage .. | .spnFltNLow ..
  | .phaseOpen .. | .supplyReversed .. | .spindleStopped .. | .rectifyExit .. | .preampFault .. | .psiFrameDone ..
  | .psiFwcmdGo .. | .lsrClrf .. | .addressUnit .. | .ddrRead .. | .scrubRead .. | .rowLogClear .. | .bccAccess ..
  | .ceWindowExpiry .. | .bccEnable .. | .bccDisable .. | .drainComplete .. | .rangeOpDone .. | .epochFuseBlow ..
  | .debugChallenge .. | .thmConversion .. | .shutdownDimEntry .. | .clrshut .. | .clrexcl .. | .trimCompute ..
  | .eventStore .. | .floodPeriod .. | .evrNextRead .. | .evrCursorWrite .. | .evrWindowAdvance .. | .evrBaseWrite ..
  | .evrStore .. | .evrCommit .. | .lifAdd .. | .lifSeal .. | .lifSnap .. | .lifTick .. | .calRead ..
  | .beaconMissed .. | .discoverSend .. | .discoverReceive .. | .enrollReceive .. | .pollSend .. | .pollReceive ..
  | .replyReceive .. | .pollMissed .. | .imageReceive .. | .vlkCmdWake .. | .vlkCmdAttreq .. | .vlkCmdRemove ..
  | .linkShort .. | .headRetire .. | .sectorStart .. | .sectorEnd .. | .wedgeGap .. | .defectSpanEnd .. | .pprDone .. =>
    some []
  | .irqRouteWrite _ k _ => some [(.irqRoute, 0, k)]
  | .twinDataAccess _ n _ _ => some [(.twinAddr, 0, n)]
  | .xo32kFail .. | .watchdogPeriod .. | .psEntryRestart .. | .leaveExpiry .. | .drawAfterExpiry ..
  | .leaveDeadline .. | .thermalCeilingStep .. | .recoveryTimeLimitExpiry .. | .activationPauseTimeout ..
  | .seqNext .. | .seqJump .. | .seqCall .. | .seqRet .. | .seqBrt .. | .seqBrf .. | .seqDispatch .. | .seqLoop ..
  | .waitTimeout .. | .atomicBound .. | .taskDeadline .. | .activationAbandon .. | .seekTimeout .. | .focusLost ..
  | .spinupAttemptTimeout .. | .recoveryTimeout .. | .laserMonitorRead .. | .saDelayEnd .. | .sledMoveEnd ..
  | .keyRestore .. | .taperStep .. | .trimAge .. | .calSet .. | .slewDone .. | .calAlarm .. | .beaconSend ..
  | .leaseRenewalRequest .. | .leaseExpiry .. | .quietPeriodEnd .. | .orphanBackoffEnd .. | .orphanWindowEnd ..
  | .segmentKeyRotation .. | .linkOpen .. | .linkRetry .. | .segmentGrantExpiry .. | .fleetAuthorizationExpiry .. =>
    some [(.calAlm1, 0, 0)]
  | .xo40Fail .. | .pllLockLoss .. => some clkDoms
  | .mainRailsGood .. | .criticalWake .. => some ((.calAlm1, 0, 0) :: startRegs)
  | .uartRecoveryImage .. | .setFeaturesLeaseFloor .. => some [(.vlkFloor, 0, 0)]
  | .resetNRelease .. => some startRegs
  | .watchdogEnable .. => some [(.wdtctl, 0, 0)]
  | .preqGo .. => some [(.preq, 0, 0)]
  | .pdoffWrite .. => some [(.pdoff, 0, 0)]
  | .wakeSource .. | .snuffLevel1 .. | .snuffLevel2 .. | .alarmFuseBlow .. | .debugResponse .. | .vlkWake .. =>
    some wakeRegs
  | .clkDomWrite _ k _ => some [(.clkDom, 0, k)]
  | .leaveRequest _ p _ => some [(.lltReqb, 0, p)]
  | .abortMatch .. => some [(.abortreq, 0, 0)]
  | .setFeaturesTimestamp .. => some calRegs
  | .setFeaturesTemperatureThreshold .. => some [(.thmThr, 0, 0)]
  | .namespaceManagement .. => some nsBases
  | .nsdomWrite _ k _ => some [(.nsdom, 0, k)]
  | .lgrWinGo .. => some [(.lgrWin, 0, 0)]
  | .microcodeActivate .. | .repairMapEntry .. | .extend .. | .keyGenerate .. | .keyZero .. | .keyCheckpoint ..
  | .nsActive .. | .svnCommit .. | .takeOwnership .. | .addOwnerKey .. | .revokeOwnerKey .. | .ownerPolicy ..
  | .exportKeys .. | .importKeys .. | .behaviourProfileUnlock .. | .firmwareActivationMeasurement .. =>
    some [(.mbcmd, 0, 0)]
  | .engineRun _ n _ => some [(.sveCfg, n, 0)]
  | .jumpGo _ n _ => some [(.jumpReg, n, 0)]
  | .focusSweepGo _ n _ => some [(.fsweep1, n, 0)]
  | .traceStart _ n _ => some [(.trctl, n, 0)]
  | .traceStop _ n _ => some [(.trctl, n, 0)]
  | .bemfCrossing .. => some commRegs
  | .optFmtWrite .. => some [(.optFmt, 0, 0)]
  | .regattrPolicyWrite _ k _ => some [(.regattr0, 0, k)]
  | .splitRead .. | .splitWrite .. => some splitRegs
  | .softPpr .. | .hardPpr .. => some [(.ppr0, 0, 0)]
  | .bccClean .. | .bccInval .. | .bccCleanInval .. | .bccZero .. | .bccLock .. | .bccUnlock .. | .bccInvalAll .. =>
    some [(.opcmd, 0, 0)]
  | .slotSelect .. => some [(.slotsel, 0, 0)]
  | .eventRaiseSw .. => some [(.evrSwev, 0, 0)]
  | .calAdjust .. => some [(.calAdj, 0, 0)]
  | .beaconReceive .. => some ((.calAdj, 0, 0) :: calRegs)
  | .imageFanout .. => some [(.imgcmd, 0, 0)]

/-- No phase of the motor has both its gates high (R49). -/
def Spn.safe (v : Spn) : Prop := ∀ p : Fin 3, (v.gates.testBit (2 * p.val) && v.gates.testBit (2 * p.val + 1)) = false

/-- The part drives no two gates of one phase. -/
def GatesSafe (s : State) : Prop := s.spn.safe

/-- A line of BCC that is locked, or reserved for a lock, lies in ways 0-11 (R336). -/
def CLine.low (c : CLine) : Prop := c.locked = true ∨ c.valid = false → c.way < 12

/-- Every line of BCC is so. -/
def Bcc.locksLow (b : Bcc) : Prop := ∀ c ∈ b.lines, c.low

/-- No line of BCC is locked, or reserved for a lock, in ways 12-15. -/
def LocksLow (s : State) : Prop := s.bcc.locksLow

/-- The SVN fuse count is q. -/
def Sec.svnIs (q : Nat) (c : Sec) : Prop := c.svn = q

/-- The SVN fuse count of the part is q (R344). -/
def SvnIs (q : Nat) (s : State) : Prop := s.sec.svnIs q

/-- The answer of an access to a domain that is gated or off (R69): it reads 0 and is no bus error, SYS holds the error
unless it held one before, event 0x0E20 is recorded, and nothing else changes but interrupt status and counts of events. -/
def Gated (a : Nat) (s t : State) : Prop :=
  t.busData = 0 ∧ t.busErr = false ∧ (headerOf 0 t).err = true ∧
    ((headerOf 0 s).err = false → (headerOf 0 t).errCode = 0x0E20 ∧ (headerOf 0 t).errInfo = BitVec.ofNat 32 a) ∧
    (∀ h : Fin 77, h ≠ 0 → { headerOf h t with irqStat := 0 } = { headerOf h s with irqStat := 0 }) ∧
    (EventRoom s → Recorded 0x0E20 t) ∧ OnlyChanges [.busData, .busErr, .hdr, .evr, .lif] s t

/-- Entry k of the region attributes is enabled and holds a MiB of DDR5; an entry whose limit lies above the installed
size holds none (R318). -/
def HoldsMib (k mib : Nat) (s : State) : Prop :=
  fld .regattr0 0 k 31 31 s = 1 ∧ fld .regattr0 0 k 13 0 s ≤ mib ∧ mib ≤ fld .regattr1 0 k 13 0 s ∧
    fld .regattr1 0 k 13 0 s < installedBytes s / 2 ^ 20

end Sys2Proof.Machine
end

