-- ==== Sys2Proof/Certificates/Slice0/Obligations.lean ====
section
/-!
DEFINITION. The statements for the provers. A completion statement has one clause for each way a command completes: its
hypotheses, on the state and the operands alone, and the next state that exec then answers, or what that state holds.
-/

open Sys2Proof Sys2Proof.Machine

/-- O1. A step runs the command at the front of the queue, with the queue's rest in the state. The queue is the form of the
model (log 1), no rule of the manual. -/
def Obligations.StepRunsFrontCommand : Prop :=
  ∀ (c : Instr) (rest : List Instr) (s : State), s.pending = c :: rest → step s = exec c { s with pending := rest }

/-- O2. With an empty queue a millisecond passes, the reservoir erases in the background, a noted wake source wakes the part
and an idle part changes its NVMe power state: the model's choice (log 1), no rule of the manual. -/
def Obligations.EmptyQueueLetsTimePass : Prop :=
  ∀ s : State, s.pending = [] → ∃ t, step s = .next t ∧ t = autonomousPs (wakeNoted (elapse 1000 (backgroundErase s))) ∧ t.us = s.us + 1000

/-- O3. After reset every register of the register file reads its reset value, every header is clear (no error, no interrupt
status or enable, window closed, not locked), no command waits, nothing is pending in the router, no event waits, no
ticket is granted, no memory byte is listed and the SVN fuse count is 0. Values that the manual does not give are
the model's choice (log 12 for the fuses, log 3 for memory). -/
def Obligations.ResetValues : Prop :=
  (∀ (r : Reg) (n k : Nat), reg r n k State.reset = (BitVec.ofNat 32 (r.reset k)).toNat) ∧
  (∀ h : Fin 77, (headerOf h State.reset).err = false ∧ (headerOf h State.reset).errCode = 0 ∧ (headerOf h State.reset).errCnt = 0 ∧
    (headerOf h State.reset).irqStat = 0 ∧ (headerOf h State.reset).irqEn = 0 ∧ (headerOf h State.reset).remain = 0 ∧
    (headerOf h State.reset).locked = false) ∧
  State.reset.pending = [] ∧ State.reset.irq.pending = [] ∧ State.reset.evr.queue = [] ∧ State.reset.llt.tickets = [] ∧
  State.reset.mem = [] ∧ State.reset.tcm = [] ∧ State.reset.sec.svn = 0

/-- O4. The state after reset has the canonical forms, drives no two gates of a phase, locks no line in ways 12-15 and has
at most 64 SVN fuses blown. -/
def Obligations.ResetMeetsInvariants : Prop :=
  Canonical State.reset ∧ GatesSafe State.reset ∧ LocksLow State.reset ∧ State.reset.sec.svn ≤ 64

/-- O5. For every command and every state, exec answers a next state, and the queue of waiting commands in it is as it was.
No command stops the model by a fault or a refusal. -/
def Obligations.EveryCommandCompletes : Prop :=
  ∀ (i : Instr) (s : State), ∃ t, exec i s = .next t ∧ t.pending = s.pending

/-- O6. For every command and state, the next state differs only in the parts that mayChange lists for the command: each
other part of the state is equal. -/
def Obligations.PartsLeftAlone : Prop :=
  ∀ (i : Instr) (s t : State), exec i s = .next t → OnlyChanges (mayChange i) s t

/-- O7. For every command for which mayStore names registers, every register of the register file other than those reads
after the command as before. -/
def Obligations.RegistersLeftAlone : Prop :=
  ∀ (i : Instr) (s t : State) (l : List (Reg × Nat × Nat)), mayStore i = some l → exec i s = .next t → RegsOnly l s t

/-- O8. From every state whose memories and register file are in canonical form (keys strictly rising, no listed memory byte
zero), every step answers a state in that form. -/
def Obligations.CanonicalFormsKept : Prop :=
  ∀ s t : State, Canonical s → step s = .next t → Canonical t

/-- O9. From every state in which no phase of the motor has SPN_GHx and SPN_GLx both high, every step answers such a state. -/
def Obligations.GatesNeverBothHigh : Prop :=
  ∀ s t : State, GatesSafe s → step s = .next t → GatesSafe t

/-- O10. From every state in which each buffer cache line that is locked, or reserved for a lock, lies in ways 0-11, every
step answers such a state. -/
def Obligations.HighWaysNeverLocked : Prop :=
  ∀ s t : State, LocksLow s → step s = .next t → LocksLow t

/-- O11. From every state in which at most 64 SVN fuses are blown, every step answers such a state. -/
def Obligations.SvnWithinFuses : Prop :=
  ∀ s t : State, s.sec.svn ≤ 64 → step s = .next t → t.sec.svn ≤ 64

/-- O12. No step that does not run SVN_COMMIT changes the SVN fuse count. SVN_COMMIT leaves it or makes it the count named,
which is greater than before, no greater than the SVN of the running image and at most 64. With the request free it
blows up to the count and records event 0x0B70; once 64 are blown it answers RES 4 and records event 0x0B71. An
image with SVN 64 is never refused for its SVN. A microcode image below the count is refused. -/
def Obligations.SvnFusesRiseOnlyAtCommit : Prop :=
  (∀ (s t : State), step s = .next t → (∀ count rest, s.pending ≠ .svnCommit count :: rest) → t.sec.svn = s.sec.svn) ∧
  (∀ (count : Nat) (s t : State), exec (.svnCommit count) s = .next t → t.sec.svn = s.sec.svn ∨
    t.sec.svn = count ∧ s.sec.svn < count ∧ count ≤ s.sec.imgSvn ∧ count ≤ 64) ∧
  (∀ (count : Nat) (s : State), secRuns s = true → s.sec.mbDone = true → s.sec.svn < count → count ≤ s.sec.imgSvn →
    count ≤ 64 → EventRoom s →
    ∃ t, exec (.svnCommit count) s = .next t ∧ t.sec.svn = count ∧ t.sec.mbRes = 0 ∧ Recorded 0x0B70 t) ∧
  (∀ (count : Nat) (s : State), secRuns s = true → s.sec.mbDone = true → 64 ≤ s.sec.svn → EventRoom s →
    ∃ t, exec (.svnCommit count) s = .next t ∧ t.sec.svn = s.sec.svn ∧ t.sec.mbRes = 4 ∧ Recorded 0x0B71 t) ∧
  (∀ (typ : Nat) (img : BootImage) (s : State), img.svn = 64 → s.sec.svn ≤ 64 → bootResult typ img s ≠ 4) ∧
  (∀ (img : McObj) (s : State), secRuns s = true → s.sec.mbDone = true → s.cst.staged = none → img.magic = 0x4D435031 →
    img.format = 1 → (img.kind == 1 || img.kind == 2) = true → img.keyId = img.sig.key % 2 ^ 64 →
    (if img.opn then ownerSigned img.sig s else umwynSigned 1 img.sig s) = true → img.svn < s.sec.svn →
    ∃ t, exec (.microcodeActivate img) s = .next t ∧ t.sec.mbRes = 4 ∧ t.cst = s.cst)

/-- O13. A 32-bit read of a block's ID register, in a block that answers, gives the block type in bits 27:20, 0 in bits
31:28, and in bits 11:0 what the same bits of SYS_ID read. -/
def Obligations.BlockIdentitiesRead : Prop :=
  ∀ (m : Master) (h : Fin 77) (v : BitVec 64) (s : State) (b : Blk) (n : Nat), hdrBlk h = (b, n) → Reach b n s → Reach .sys 0 s →
    ∃ t u, exec (.busAccess m (BitVec.ofNat 40 (b.base n)) false 4 v) s = .next t ∧
    exec (.busAccess m (BitVec.ofNat 40 (Blk.sys.base 0)) false 4 v) s = .next u ∧ t.busErr = false ∧
    bits t.busData 27 20 = b.row.type_ ∧ bits t.busData 31 28 = 0 ∧ bits t.busData 11 0 = bits u.busData 11 0

/-- O14. The code, the cache policy and the exclusion from scrub of an address are those of the lowest-indexed enabled region
that holds it. An address that no enabled region holds is STRONG with policy 0, is scrubbed, and DMC_INIT
initialises it as STRONG. A region whose limit is below its base or above the installed size holds no address. -/
def Obligations.AddressesTakeRegionAttributes : Prop :=
  (∀ (k : Fin 16) (off : Nat) (s : State), HoldsMib k (off / 2 ^ 20) s → (∀ j : Fin 16, j < k → ¬HoldsMib j (off / 2 ^ 20) s) →
    codeOf off s = fld .regattr0 0 k 30 29 s ∧ polOf off s = fld .regattr0 0 k 28 27 s ∧
    scrubbed (off / 128) s = (decide (fld .regattr0 0 k 30 29 s < 2) && fld .regattr1 0 k 31 31 s == 0)) ∧
  (∀ (off : Nat) (s : State), (∀ j : Fin 16, ¬HoldsMib j (off / 2 ^ 20) s) →
    codeOf off s = 0 ∧ polOf off s = 0 ∧ scrubbed (off / 128) s = true ∧ initMib (off / 2 ^ 20) s = true) ∧
  (∀ (k : Fin 16) (mib : Nat) (s : State),
    (fld .regattr1 0 k 13 0 s < fld .regattr0 0 k 13 0 s ∨ installedBytes s / 2 ^ 20 ≤ fld .regattr1 0 k 13 0 s) →
    ¬HoldsMib k mib s)

/-- O15. An access of any size to the pages or the memory of a domain that is not on reads 0, ends without a bus error and
changes nothing but the error of SYS (0x0E20 with the address in ERR_INFO), its event and interrupt status. In LIT a
write of WCK_PDOFF gates an idle channel domain. -/
def Obligations.GatedDomainsAnswerZero : Prop :=
  (∀ (m : Master) (a : BitVec 40) (wr : Bool) (bytes : Nat) (v : BitVec 64) (s : State) (b : Blk) (n : Nat), pdOn 2 s = true →
    0x40000000 ≤ a.toNat → a.toNat + busSize bytes ≤ 0x41000000 → blockAt a.toNat = some (b, n) → fused b n s = false →
    pdOn (pdOf b n) s = false →
    ∃ t, exec (.busAccess m a wr bytes v) s = .next t ∧ Gated a.toNat s t) ∧
  (∀ (m : Master) (a : BitVec 40) (wr : Bool) (bytes : Nat) (v : BitVec 64) (s : State), pdOn 2 s = true →
    0x20000000 ≤ a.toNat → a.toNat + busSize bytes ≤ 0x20800000 → pdOn 7 s = false →
    ∃ t, exec (.busAccess m a wr bytes v) s = .next t ∧ Gated a.toNat s t) ∧
  (∀ (m : Master) (a : BitVec 40) (wr : Bool) (bytes : Nat) (v : BitVec 64) (s : State), pdOn 2 s = true →
    ddrBase ≤ a.toNat → a.toNat + busSize bytes ≤ ddrBase + installedBytes s → pdOn 12 s = false →
    ∃ t, exec (.busAccess m a wr bytes v) s = .next t ∧ Gated a.toNat s t) ∧
  (∀ (m : Master) (a : BitVec 40) (wr : Bool) (bytes : Nat) (v : BitVec 64) (s : State), pdOn 2 s = true →
    0x50000000 ≤ a.toNat → a.toNat + busSize bytes ≤ 0x50100000 → pdOn 13 s = false →
    ∃ t, exec (.busAccess m a wr bytes v) s = .next t ∧ Gated a.toNat s t) ∧
  (∀ (a : BitVec 40) (wr : Bool) (bytes : Nat) (v : BitVec 64) (s : State), pdOn 2 s = true →
    a.toNat + busSize bytes ≤ 0x40000 → pdOn 1 s = false →
    ∃ t, exec (.busAccess (.core .sec) a wr bytes v) s = .next t ∧ Gated a.toNat s t) ∧
  (∀ (m : Master) (n : Fin 4) (s : State), Reach .wck 0 s → Rising s.regs → windowOpen .wck 0 s = true → s.pwr.state = .lit →
    s.pwr.phase = .settled → s.sys.coreUp = true → domBusy (14 + n.val) s = false → domGrant (14 + n.val) s = false →
    ∃ t, exec (.pdoffWrite m (BitVec.ofNat 32 (2 ^ (14 + n.val)))) s = .next t ∧ pdOn (14 + n.val) t = false)

/-- O16. An access to the security ROM by any master but the security core ends with a bus error and records event 0x0B01
with the master's identifier in parameter 0; the numbers of the identifiers are the model's (log 19). A 32-bit read
at 0x5000_0000 + 16 a + 4 j reads bits 32 j + 31 to 32 j of control-store word a. Addresses 0x8800-0xBFFF and
0xD000-0xFFFF of the store read 0. -/
def Obligations.SecurityRomAndStoreWindow : Prop :=
  (∀ (m : Master) (a : BitVec 40) (wr : Bool) (bytes : Nat) (v : BitVec 64) (s : State), m ≠ .core .sec → pdOn 2 s = true →
    a.toNat + busSize bytes ≤ 0x40000 → EventRoom s →
    ∃ t, exec (.busAccess m a wr bytes v) s = .next t ∧ t.busErr = true ∧
    ∃ e ∈ t.evr.queue, e.code = 0x0B01 ∧ e.p0 = BitVec.ofNat 32 (masterId m)) ∧
  (∀ (m : Master) (a : Fin 65536) (j : Fin 4) (v : BitVec 64) (s : State), pdOn 2 s = true → pdOn 13 s = true →
    ∃ t, exec (.busAccess m (BitVec.ofNat 40 (0x50000000 + 16 * a.val + 4 * j.val)) false 4 v) s = .next t ∧
    t.busErr = false ∧ t.busData = ((storeWord a s).getD 0) / 2 ^ (32 * j.val) % 2 ^ 32) ∧
  (∀ (m : Master) (a : Nat) (j : Fin 4) (v : BitVec 64) (s : State), pdOn 2 s = true → pdOn 13 s = true →
    (0x8800 ≤ a ∧ a ≤ 0xBFFF ∨ 0xD000 ≤ a ∧ a ≤ 0xFFFF) →
    ∃ t, exec (.busAccess m (BitVec.ofNat 40 (0x50000000 + 16 * a + 4 * j.val)) false 4 v) s = .next t ∧
    t.busErr = false ∧ t.busData = 0)

/-- O17. While BCC is DISABLED, an access of BCC_ACCESS to DDR5 (no initialisation running, nothing poisoned) reads or writes
the bytes in memory, and BCC with its lines, locks and reservations stays as it was. -/
def Obligations.DisabledBufferCachePassesAccesses : Prop :=
  (∀ (m : Master) (a : BitVec 40) (v : Word) (s : State), inDdr (a.toNat / 4 * 4) s = true → pdOn 12 s = true →
    accessWaits (a.toNat / 4 * 4) s = false → pastL1 m (a.toNat / 4 * 4) s = true → s.bcc.state = .disabled →
    s.dmc.poison = [] → s.dmc.rawChk = [] →
    ∃ t, exec (.bccAccess m a false v none) s = .next t ∧ t.bcc = s.bcc ∧ t.busErr = false ∧
    t.busData = memRead (a.toNat / 4 * 4) 4 s) ∧
  (∀ (m : Master) (a : BitVec 40) (v : Word) (s : State), inDdr (a.toNat / 4 * 4) s = true → pdOn 12 s = true →
    accessWaits (a.toNat / 4 * 4) s = false → pastL1 m (a.toNat / 4 * 4) s = true → s.bcc.state = .disabled →
    Rising s.mem →
    ∃ t, exec (.bccAccess m a true v none) s = .next t ∧ t.bcc = s.bcc ∧ memRead (a.toNat / 4 * 4) 4 t = v.toNat ∧
    ∀ x, x < a.toNat / 4 * 4 ∨ a.toNat / 4 * 4 + 4 ≤ x → memByte x t = memByte x s)

/-- O18. Accesses to registers and memory, and the header commands, complete: under hypotheses on the state and the operands
alone, exec answers a next state with the effect written. -/
def Obligations.PageCommandsComplete : Prop :=
  -- REG_WRITE (R7)
  (∀ (m : Master) (a : BitVec 40) (v : Word) (s : State) (b : Blk) (n : Nat) (r : Reg) (k : Nat),
    0x40000000 ≤ a.toNat → a.toNat % 4 = 0 → a.toNat + 4 ≤ 0x41000000 → blockAt a.toNat = some (b, n) →
    b.base n + 0x30 ≤ a.toNat → b.regAt (a.toNat - b.base n) = some (r, k) → r.plain = true → Reach b n s → Rising s.regs →
    ∃ t, exec (.regWrite m (.page a) v) s = .next t ∧ t.busErr = false ∧
    reg r n k t = (reg r n k s &&& ((2 ^ 32 - 1) ^^^ writableBits r n s)) ||| (v.toNat &&& writableBits r n s)) ∧
  -- REG_WRITE (R7)
  (∀ (m : Master) (c : Core) (v : Word) (s : State), coreOn c s = true →
    ∃ t, exec (.regWrite m (.csr c 0x7C4) v) s = .next t ∧ t.irq.thr[coreIdx c] = v.toNat % 16) ∧
  -- BUS_ACCESS (R28)
  (∀ (m : Master) (a : BitVec 40) (wr : Bool) (bytes : Nat) (v : BitVec 64) (s : State), pdOn 2 s = true →
    0x60280000 ≤ a.toNat → a.toNat < ddrBase →
    ∃ t, exec (.busAccess m a wr bytes v) s = .next t ∧ t.busErr = true ∧ t.busData = 0) ∧
  -- BUS_ACCESS (R28)
  (∀ (m : Master) (a : BitVec 40) (v : BitVec 64) (s : State), pdOn 2 s = true → pdOn 7 s = true →
    0x20000000 ≤ a.toNat → a.toNat + 4 ≤ 0x20800000 → a.toNat % 4 = 0 → l1Find (a.toNat / 64) s = none →
    (∀ c : Fin 4, m = .core (.a c) → s.sys.ucache[c].2 = false) →
    ∃ t, exec (.busAccess m a false 4 v) s = .next t ∧ t.busErr = false ∧ t.busData = memRead a.toNat 4 s) ∧
  -- BUS_ACCESS (R28)
  (∀ (m : Master) (a : BitVec 40) (v : BitVec 64) (s : State), pdOn 2 s = true → pdOn 7 s = true →
    0x20000000 ≤ a.toNat → a.toNat + 4 ≤ 0x20800000 → a.toNat % 4 = 0 → Rising s.mem →
    (∀ c : Fin 4, m = .core (.a c) → s.sys.ucache[c].2 = false) →
    ∃ t, exec (.busAccess m a true 4 v) s = .next t ∧ t.busErr = false ∧ memRead a.toNat 4 t = v.toNat % 2 ^ 32 ∧
    ∀ x, x < a.toNat ∨ a.toNat + 4 ≤ x → memByte x t = memByte x s) ∧
  -- GUARD_WORD_WRITE (R36)
  (∀ (m : Master) (h : Fin 77) (v : Word) (s : State) (b : Blk) (n : Nat), hdrBlk h = (b, n) → Reach b n s →
    (headerOf h s).locked = false → v.toNat % 2 ^ 16 = 0x6B00 + b.row.type_ →
    ∃ t, exec (.guardWordWrite m h v) s = .next t ∧ headerOf h t = { headerOf h s with remain := 256, wrongWords := 0 }) ∧
  -- GUARD_WORD_WRITE (R36)
  (∀ (m : Master) (h : Fin 77) (v : Word) (s : State) (b : Blk) (n : Nat), hdrBlk h = (b, n) → Reach b n s →
    (headerOf h s).locked = false → v.toNat % 2 ^ 16 ≠ 0x6B00 + b.row.type_ →
    ∃ t, exec (.guardWordWrite m h v) s = .next t ∧ (headerOf h t).remain = 0 ∧ (headerOf h t).err = true ∧
    (headerOf h t).locked = decide (7 ≤ (headerOf h s).wrongWords)) ∧
  -- GUARD_WINDOW_EXHAUSTED (R36)
  (∀ (h : Fin 77) (s : State), (headerOf h s).remain = 1 →
    ∃ t, exec (.guardWindowExhausted h) s = .next t ∧ headerOf h t = { headerOf h s with remain := 0 }) ∧
  -- SOFT_RESET (R106)
  (∀ (m : Master) (h : Fin 77) (s : State) (b : Blk) (n : Nat), hdrBlk h = (b, n) → Reach b n s →
    srstReason m b n s = 0 → (headerOf h s).srst = false →
    ∃ t, exec (.softReset m h) s = .next t ∧ (headerOf h t).srst = true ∧ (headerOf h t).irqStat = 0 ∧
    (headerOf h t).remain = 0) ∧
  -- SOFT_RESET_COMPLETE (R34)
  (∀ (h : Fin 77) (s : State), (headerOf h s).srst = true →
    ∃ t, exec (.softResetComplete h) s = .next t ∧ (headerOf h t).srst = false) ∧
  -- FREEZE (R35)
  (∀ (m : Master) (h : Fin 77) (on : Bool) (s : State) (b : Blk) (n : Nat), hdrBlk h = (b, n) → Reach b n s →
    ∃ t, exec (.freeze m h on) s = .next t ∧ (headerOf h t).freeze = (on && decide (s.sys.debugLevel ≠ 0)) ∧
    ((on && decide (s.sys.debugLevel = 0)) = true → (headerOf h t).err = true)) ∧
  -- ERR_CLEAR (R33)
  (∀ (m : Master) (h : Fin 77) (s : State) (b : Blk) (n : Nat), hdrBlk h = (b, n) → Reach b n s →
    ∃ t, exec (.errClear m h) s = .next t ∧ (headerOf h t).errCode = 0 ∧ (headerOf h t).errInfo = 0 ∧
    (headerOf h t).err = false ∧ (headerOf h t).irqStat = (headerOf h s).irqStat &&& 0xFFFFFFFE ∧
    (headerOf h t).errCnt = (headerOf h s).errCnt) ∧
  -- IRQ_SET_WRITE (R38)
  (∀ (m : Master) (h : Fin 77) (v : Word) (s : State) (b : Blk) (n : Nat), hdrBlk h = (b, n) → Reach b n s →
    ∃ t, exec (.irqSetWrite m h v) s = .next t ∧ (headerOf h t).irqStat = (headerOf h s).irqStat ||| v)

/-- O19. Core cache and interrupt router commands complete: under hypotheses on the state and the operands alone, exec
answers a next state with the effect written. -/
def Obligations.CoreCommandsComplete : Prop :=
  -- ALLCLN (R11)
  (∀ (c : Fin 4) (den ien : Bool) (s : State), acoreOn c s = true →
    ∃ t, exec (.allcln c den ien) s = .next t ∧ t.sys.ucache[c] = (ien, den) ∧ ∀ x ∈ t.l1, x.core ≠ c) ∧
  -- L1_CLEAN (R11)
  (∀ (c : Fin 4) (line : BitVec 34) (s : State), acoreOn c s = true →
    ∃ t, exec (.l1Clean c line) s = .next t ∧
    (∀ l, l1Own c line.toNat s = some l → ∀ x ∈ t.l1, x.core = c → x.line = line.toNat → l.dirty = true → x.dirty = false)) ∧
  -- L1_CLEAN (R11)
  (∀ (c : Fin 4) (line : BitVec 34) (s : State) (l : L1Line), acoreOn c s = true → l1Own c line.toNat s = some l →
    l.dirty = true → line.toNat * 64 < 0x100000000 → Rising s.mem →
    ∃ t, exec (.l1Clean c line) s = .next t ∧ memRead (line.toNat * 64) 64 t = l.data % 2 ^ 512 ∧
    ∀ x, x < line.toNat * 64 ∨ line.toNat * 64 + 64 ≤ x → memByte x t = memByte x s) ∧
  -- L1_INVALIDATE (R11)
  (∀ (c : Fin 4) (line : BitVec 34) (s : State), acoreOn c s = true →
    ∃ t, exec (.l1Invalidate c line) s = .next t ∧ t.mem = s.mem ∧
    ∀ x, x ∈ t.l1 ↔ x ∈ s.l1 ∧ ¬(x.core = c ∧ x.line = line.toNat)) ∧
  -- L1_CLEAN_AND_INVALIDATE (R11)
  (∀ (c : Fin 4) (line : BitVec 34) (s : State), acoreOn c s = true → Rising s.mem →
    ∃ t, exec (.l1CleanAndInvalidate c line) s = .next t ∧ (∀ x ∈ t.l1, ¬(x.core = c ∧ x.line = line.toNat)) ∧
    ∀ l, l1Own c line.toNat s = some l → l.dirty = true → line.toNat * 64 < 0x100000000 →
    memRead (line.toNat * 64) 64 t = l.data % 2 ^ 512) ∧
  -- L1_NO_OPERATION (R11)
  (∀ (c : Fin 4) (line : BitVec 34) (s : State), ∃ t, exec (.l1NoOperation c line) s = .next t ∧ t = s) ∧
  -- IRQ_TAKE (R12)
  (∀ (c : Core) (k : Nat) (s : State), pdOn 2 s = true → uirqid c s = some k →
    ∃ t, exec (.irqTake c) s = .next t ∧ t.busData = 2 ^ 31 + k ∧ t.irq.lastId = some (c, true, k) ∧
    t.irq.inService = s.irq.inService ++ [(k, c)] ∧ k ∉ t.irq.pending) ∧
  -- IRQ_TAKE (R12)
  (∀ (c : Core) (s : State), pdOn 2 s = true → uirqid c s = none →
    ∃ t, exec (.irqTake c) s = .next t ∧ t.busData = 0 ∧ t.irq.lastId = some (c, false, 0) ∧
    t.irq.inService = s.irq.inService ∧ t.irq.pending = s.irq.pending) ∧
  -- UIRQDONE (R12)
  (∀ (c : Core) (src : Fin 512) (s : State),
    ∃ t, exec (.uirqdone c src) s = .next t ∧
    ∀ x, x ∈ t.irq.inService ↔ x ∈ s.irq.inService ∧ ¬(x.1 = src.val ∧ x.2 = c)) ∧
  -- IRQ_ROUTE_WRITE (R40)
  (∀ (k : Fin 512) (v : Word) (s : State), Reach .irq 0 s → Rising s.regs →
    ∃ t, exec (.irqRouteWrite (.core .sec) k v) s = .next t ∧
    reg .irqRoute 0 k t = (reg .irqRoute 0 k s &&& ((2 ^ 32 - 1) ^^^ writableBits .irqRoute 0 s)) |||
    (v.toNat &&& writableBits .irqRoute 0 s)) ∧
  -- IRQ_ROUTE_WRITE (R40)
  (∀ (m : Master) (k : Fin 512) (v : Word) (s : State), Reach .irq 0 s → m ≠ .core .sec → 41 ≤ k.val → k.val ≤ 75 →
    ∃ t, exec (.irqRouteWrite m k v) s = .next t ∧ reg .irqRoute 0 k t = reg .irqRoute 0 k s ∧ (headerOf 2 t).err = true) ∧
  -- IRQ_SWSET (R38)
  (∀ (m : Master) (v : Word) (s : State), Reach .irq 0 s → 448 ≤ v.toNat → v.toNat ≤ 479 →
    ∃ t, exec (.irqSwset m v) s = .next t ∧ t.irq.pending = insertNat v.toNat s.irq.pending) ∧
  -- TWIN_DATA_ACCESS (R42)
  (∀ (m : Master) (n : Fin 4) (v : Word) (s : State), Reach .cpx 0 s → tcoreExists n s = true → pdOn (14 + n) s = true →
    ∃ t, exec (.twinDataAccess m n false v) s = .next t ∧ t.tcm = s.tcm ∧
    t.busData = fromBytes ((List.range 4).map fun i =>
    sget (0 : Byte) (n.val * 131072 + fld .twinAddr 0 n 16 2 s * 4 + i) s.tcm)) ∧
  -- TWIN_DATA_ACCESS (R42)
  (∀ (m : Master) (n : Fin 4) (v : Word) (s : State), Reach .cpx 0 s → tcoreExists n s = true → pdOn (14 + n) s = true →
    ∃ t, exec (.twinDataAccess m n true v) s = .next t ∧
    (Rising s.tcm → ∀ k < 4, sget (0 : Byte) (n.val * 131072 + fld .twinAddr 0 n 16 2 s * 4 + k) t.tcm =
    BitVec.ofNat 8 (v.toNat / 256 ^ k)) ∧
    ∀ x, ¬(n.val * 131072 + fld .twinAddr 0 n 16 2 s * 4 ≤ x ∧ x < n.val * 131072 + fld .twinAddr 0 n 16 2 s * 4 + 4) →
    sget (0 : Byte) x t.tcm = sget (0 : Byte) x s.tcm)

/-- O20. Supply, strap, boot and initialisation commands complete: under hypotheses on the state and the operands alone, exec
answers a next state with the effect written. -/
def Obligations.StartupCommandsComplete : Prop :=
  -- POR (R91)
  (∀ s : State, ∃ t, exec .por s = .next t ∧ t.us = 0 ∧
    (∀ (r : Reg) (n k : Nat), domAddr (r.addr n k) = false → reg r n k t = (BitVec.ofNat 32 (r.reset k)).toNat) ∧
    t.mem = [] ∧ t.pwr = {} ∧ t.sys.coreUp = false ∧
    t.sys.ready = false ∧ t.sys.rstCause = 0 ∧ t.sys.pendCause &&& 1 = 1 ∧ t.evr = {} ∧ t.lif = {} ∧ t.cal = {} ∧
    t.sec.svn = s.sec.svn ∧ t.sec.epoch = s.sec.epoch ∧ t.sec.alarms = s.sec.alarms ∧ t.xmt.media = s.xmt.media) ∧
  -- XO32K_QUALIFIED (R91)
  (∀ s : State, s.sys.aux = true → s.clk.xo32decided = false → s.us ≤ 1500000 →
    ∃ t, exec .xo32kQualified s = .next t ∧ t.clk.xo32decided = true ∧ t.clk.onRc = false ∧ t.cal.rcTime = false) ∧
  -- XO32K_QUALIFIED (R91)
  (∀ s : State, s.sys.aux = true → s.clk.xo32decided = false → 1500000 < s.us →
    ∃ t, exec .xo32kQualified s = .next t ∧ t.clk.xo32decided = true ∧ t.clk.onRc = true ∧ t.cal.rcTime = true) ∧
  -- XO32K_FAIL (R75)
  (∀ s : State, s.sys.aux = true → s.clk.xo32decided = false →
    ∃ t, exec .xo32kFail s = .next t ∧ t.clk.xo32decided = true ∧ t.clk.onRc = true ∧ 1500000 ≤ t.us) ∧
  -- XO32K_FAIL (R75)
  (∀ s : State, s.sys.aux = true → s.clk.xo32decided = true → s.clk.onRc = false →
    ∃ t, exec .xo32kFail s = .next t ∧ t.clk.onRc = true ∧ t.cal.rcTime = true ∧ t.us = s.us) ∧
  -- XO40_FAIL (R75)
  (∀ s : State, s.sys.aux = true → s.clk.xo40failed = false →
    ∃ t, exec .xo40Fail s = .next t ∧ t.clk.xo40failed = true ∧ t.clk.xo40ok = false) ∧
  -- MAIN_RAILS_GOOD (R56)
  (∀ (env : BootEnv) (b : Bool) (s : State), s.sys.aux = true → s.sys.railsGood = false → s.sys.resetNLow = false →
    s.pwr.darkCritical = false →
    ∃ t, exec (.mainRailsGood env b) s = .next t ∧ t.sys.railsGood = true ∧ t.sys.coreUp = true ∧ t.us = s.us + 2000 ∧
    (s.sys.coreUp = false → t.sys.held = false)) ∧
  -- RAIL_FAULT (R56)
  (∀ (rail : Fin 9) (s : State), s.sys.aux = true →
    ∃ t, exec (.railFault rail) s = .next t ∧ t.sys.railsGood = false ∧ rail.val ∈ t.sup.bad) ∧
  -- UART_RECOVERY_IMAGE (R94)
  (∀ (img : BootImage) (s : State), s.sys.uartWait = true → pdOn 1 s = true → bootResult 2 img s = 1 →
    ∃ t, exec (.uartRecoveryImage img) s = .next t ∧ t.sys.acoresUp = true ∧ t.sys.uartWait = false ∧ t.sys.slot = 3 ∧
    t.sec.imgDigest = img.digest ∧ t.sec.imgSvn = img.svn) ∧
  -- PERST_DEASSERT (R96)
  (∀ (p : Fin 2) (s : State), pdOn 8 s = true → pdOn 9 s = true → 1 ≤ s.sys.stage → portExists p s = true →
    ∃ t, exec (.perstDeassert p) s = .next t ∧ (ctrlAt p t).perst = false ∧ (ctrlAt p t).linkUp = true) ∧
  -- PERST_ASSERT (R105)
  (∀ (p : Fin 2) (s : State), pdOn 8 s = true → portExists p s = true → (ctrlAt p s).perst = false →
    ∃ t, exec (.perstAssert p) s = .next t ∧ (ctrlAt p t).perst = true ∧ (ctrlAt p t).linkUp = false ∧
    (ctrlAt p t).en = false ∧ (ctrlAt p t).rdy = false) ∧
  -- CONFIG_REQUEST (R96)
  (∀ (p : Fin 2) (opened : Bool) (s : State), pdOn 8 s = true → (ctrlAt p s).linkUp = true →
    ∃ t, exec (.configRequest p opened) s = .next t ∧
    (ctrlAt p t).cfgOpen = ((ctrlAt p s).cfgOpen || (opened && s.sys.acoresUp)) ∧
    (ctrlAt p t).lastData = [if (ctrlAt p t).cfgOpen then 1 else 0]) ∧
  -- DMC_INIT_GO (R98)
  (∀ (m : Master) (s : State), Reach .dmc 0 s → s.dmc.initDone = false → s.dmc.initBusy = false → s.clk.xo40failed = false →
    ∃ t, exec (.dmcInitGo m) s = .next t ∧ t.dmc.initBusy = true ∧ t.dmc.initFail = false ∧ t.dmc.mib = 0) ∧
  -- DMC_INIT_DONE (R98)
  (∀ (fail : Bool) (s : State), s.dmc.initBusy = true → (hdrOf .dmc 0 s).freeze = false → s.dmc.heldAcc = [] →
    ∃ t, exec (.dmcInitDone fail) s = .next t ∧ t.dmc.initBusy = false ∧ t.dmc.initDone = (s.dmc.initDone || !fail) ∧
    (fail = true → t.dmc.initFail = true) ∧ (fail = false → 5 ≤ t.sys.stage)) ∧
  -- DMC_INIT_HELD_ACCESS (R98)
  (∀ (mib : Nat) (s : State), s.dmc.initBusy = true → (hdrOf .dmc 0 s).freeze = false → s.dmc.mib ≤ mib → mib ≤ 0x7FFF → s.dmc.heldAcc = [] →
    ∃ t, exec (.dmcInitHeldAccess mib) s = .next t ∧ t.dmc.mib = mib ∧ t.dmc.initBusy = true) ∧
  -- READY_SET (R99)
  (∀ (m : Master) (s : State), Reach .sys 0 s → s.dmc.initDone = true → s.sys.ready = false →
    ∃ t, exec (.readySet m false) s = .next t ∧ t.sys.ready = true ∧ t.sys.stage = 6 ∧
    ∀ p : Fin 2, (ctrlAt p s).rdyHeld = true → (ctrlAt p t).rdy = true ∧ (ctrlAt p t).rdyHeld = false) ∧
  -- READY_CLR (R99)
  (∀ (m : Master) (s : State), Reach .sys 0 s →
    ∃ t, exec (.readyClr m) s = .next t ∧ t.sys.ready = false) ∧
  -- CONTROLLER_ENABLE (R100)
  (∀ (p : Fin 2) (wrr : Bool) (s : State), hceUp s = true → (ctrlAt p s).linkUp = true → (ctrlAt p s).cfgOpen = true →
    (ctrlAt p s).en = false →
    ∃ t, exec (.controllerEnable p wrr) s = .next t ∧ (ctrlAt p t).en = true ∧
    (s.sys.ready = true → (ctrlAt p t).rdy = true))

/-- O21. Reset, readiness and watchdog commands complete: under hypotheses on the state and the operands alone, exec answers
a next state with the effect written. -/
def Obligations.ResetCommandsComplete : Prop :=
  -- CONTROLLER_RESET (R105)
  (∀ (p : Fin 2) (s : State), hceUp s = true → (ctrlAt p s).en = true →
    ∃ t, exec (.controllerReset p) s = .next t ∧ (ctrlAt p t).en = false ∧ (ctrlAt p t).rdy = false ∧
    (ctrlAt p t).linkUp = (ctrlAt p s).linkUp ∧ (ctrlAt p t).cfgOpen = (ctrlAt p s).cfgOpen) ∧
  -- FUNCTION_LEVEL_RESET (R112)
  (∀ (p : Fin 2) (s : State), pdOn 8 s = true → portExists p s = true → (ctrlAt p s).linkUp = true →
    ∃ t, exec (.functionLevelReset p) s = .next t ∧ (ctrlAt p t).en = false ∧ (ctrlAt p t).rdy = false ∧
    (ctrlAt p t).perst = (ctrlAt p s).perst) ∧
  -- LINK_DOWN (R112)
  (∀ (p : Fin 2) (s : State), pdOn 8 s = true → portExists p s = true → (ctrlAt p s).linkUp = true →
    ∃ t, exec (.linkDown p) s = .next t ∧ (ctrlAt p t).en = false ∧ (ctrlAt p t).rdy = false ∧
    (ctrlAt p t).perst = (ctrlAt p s).perst) ∧
  -- NAMESPACE_READY (R100)
  (∀ (nsid : Nat) (s : State), hceUp s = true → s.sys.ready = true → s.rvr.recStep = 7 → s.xmt.san = none →
    mediaUp s = true → s.clk.xo40failed = false →
    ∃ t, exec (.namespaceReady nsid) s = .next t ∧
    ∀ x ∈ t.hce.ns, x.nsid = nsid → x.sanitizing = false → x.ready = true) ∧
  -- RESET_N_ASSERT (R103)
  (∀ s : State, s.sys.resetNLow = false → canReset s = true →
    ∃ t, exec .resetNAssert s = .next t ∧ t.sys.resetNLow = true ∧ t.sys.seq = .resetN ∧ t.sys.coreUp = true) ∧
  -- CORE_DOMAIN_HOLD (R103)
  (∀ (atLimit : Bool) (s : State), s.sys.seq ≠ .none → s.sys.held = false →
    (atLimit = true ∨ (anyLoaded s = false ∧ s.rvr.commit = false)) →
    ∃ t, exec (.coreDomainHold atLimit) s = .next t ∧ t.sys.held = true ∧ t.sys.coreUp = false ∧ t.sys.acoresUp = false ∧
    t.sys.ready = false ∧ t.tcm = [] ∧ t.pwr.state = .lit ∧ t.rvr.commit = false) ∧
  -- RESET_N_RELEASE (R103)
  (∀ (env : BootEnv) (s : State), s.sys.held = true →
    ∃ t, exec (.resetNRelease env) s = .next t ∧ t.sys.coreUp = true ∧ t.sys.held = false) ∧
  -- NVM_SUBSYSTEM_RESET (R103)
  (∀ (p : Fin 2) (v : Word) (s : State), v.toNat = 0x4E564D65 → hceUp s = true → (ctrlAt p s).linkUp = true →
    canReset s = true →
    ∃ t, exec (.nvmSubsystemReset p v) s = .next t ∧ t.sys.seq = .nssr ∧ t.sys.coreUp = true) ∧
  -- WATCHDOG_ENABLE (R104)
  (∀ (m : Master) (v : Word) (s : State), Reach .sys 0 s → wdtEn s = false → Rising s.regs →
    windowOpen .sys 0 s = true →
    ∃ t, exec (.watchdogEnable m v) s = .next t ∧ wdtEn t = true ∧ t.sys.wdtAt = s.us ∧ t.sys.wdtBarked = false) ∧
  -- WATCHDOG_KICK (R104)
  (∀ (m : Master) (v : Word) (s : State), Reach .sys 0 s → v.toNat = 0xD06E →
    ∃ t, exec (.watchdogKick m v) s = .next t ∧ t.sys.wdtAt = s.us ∧ t.sys.wdtBarked = false) ∧
  -- WATCHDOG_PERIOD (R104)
  (∀ s : State, wdtRuns s = true → s.sys.wdtBarked = false →
    ∃ t, exec .watchdogPeriod s = .next t ∧ t.sys.wdtBarked = true ∧ t.us = max s.us (wdtTick (wdtPeriod s) s) ∧
    (s.us ≤ s.sys.wdtAt + 1000 * wdtPeriod s → t.us = max s.us (s.sys.wdtAt + 1000 * wdtPeriod s)) ∧
    (headerOf (Blk.sys.hdr 0) t).irqStat.getLsbD 1 = true) ∧
  -- WATCHDOG_RESET (R104)
  (∀ s : State, wdtRuns s = true → s.sys.wdtBarked = true → canReset s = true →
    ∃ t, exec .watchdogReset s = .next t ∧ t.sys.seq = .watchdog ∧ t.sys.coreUp = true)

/-- O22. Power state, wake, clock and PLL commands complete: under hypotheses on the state and the operands alone, exec
answers a next state with the effect written. -/
def Obligations.PowerCommandsComplete : Prop :=
  -- POWER_LOSS (R22)
  (∀ s : State, s.sys.coreUp = true → s.sup.loss = false → railLow s = true → s.sys.held = false → s.sys.railsGood = true →
    ∃ t, exec .powerLoss s = .next t ∧ t.sup.loss = true ∧ t.sys.railsGood = true) ∧
  -- PREQ_GO (R76)
  (∀ (m : Master) (v : Word) (s : State) (r : Nat × Option Nat) (tgt : Nat), Reach .wck 0 s → s.pwr.phase = .settled →
    fld .preq 0 0 3 0 (storeFields .preq 0 0 (v.toNat ||| 0x100) s) = tgt → tgt ≤ 3 → psCode s.pwr.state < tgt → precondition tgt (storeFields .preq 0 0 (v.toNat ||| 0x100) s) = some r →
    ∃ t, exec (.preqGo m v) s = .next t ∧ t.pwr = s.pwr ∧ (headerOf (Blk.wck.hdr 0) t).err = true) ∧
  -- PREQ_GO (R76)
  (∀ (m : Master) (v : Word) (s : State) (tgt : Nat), Reach .wck 0 s → s.pwr.phase = .settled →
    fld .preq 0 0 3 0 (storeFields .preq 0 0 (v.toNat ||| 0x100) s) = tgt → tgt ≤ 3 → psCode s.pwr.state < tgt → precondition tgt (storeFields .preq 0 0 (v.toNat ||| 0x100) s) = none →
    ∃ t, exec (.preqGo m v) s = .next t ∧ t.pwr.target = psOf tgt ∧ t.pwr.phase = .entering ∧ t.pwr.state = s.pwr.state ∧
    (2 ≤ tgt → t.hce.closed = true ∧ t.pwr.selfRefresh = true)) ∧
  -- POWER_STATE_ENTERED (R76)
  (∀ s : State, (hdrOf .wck 0 s).freeze = false → s.pwr.phase = .waking → s.pwr.target = .lit →
    ∃ t, exec .powerStateEntered s = .next t ∧ t.pwr.state = .lit ∧ t.pwr.phase = .settled ∧ t.pwr.pd = pdLit s) ∧
  -- POWER_STATE_ENTERED (R76)
  (∀ s : State, (hdrOf .wck 0 s).freeze = false → s.pwr.phase = .entering → s.pwr.target = .dim →
    ∃ t, exec .powerStateEntered s = .next t ∧ t.pwr.state = .dim ∧ t.pwr.phase = .settled ∧ t.pwr.pd = pdDim s.pwr.pd) ∧
  -- POWER_STATE_ENTERED (R76)
  (∀ s : State, (hdrOf .wck 0 s).freeze = false → s.pwr.phase = .entering → s.pwr.target = .glow → s.pwr.active = 0 →
    ∃ t, exec .powerStateEntered s = .next t ∧ t.pwr.state = .glow ∧ t.pwr.phase = .settled) ∧
  -- POWER_STATE_ENTERED (R76)
  (∀ s : State, (hdrOf .wck 0 s).freeze = false → s.pwr.phase = .entering → s.pwr.target = .dark → s.pwr.active = 0 →
    ∃ t, exec .powerStateEntered s = .next t ∧ t.pwr.state = .dark ∧ t.pwr.phase = .settled ∧ t.sys.coreUp = false) ∧
  -- PDOFF_WRITE (R76)
  (∀ (m : Master) (v : Word) (s : State), Reach .wck 0 s → Rising s.regs → windowOpen .wck 0 s = true →
    (∀ d, v.toNat.testBit d = true → domBusy d s = false ∧ domGrant d s = false) →
    ∃ t, exec (.pdoffWrite m v) s = .next t ∧
    reg .pdoff 0 0 t = (reg .pdoff 0 0 s &&& ((2 ^ 32 - 1) ^^^ writableBits .pdoff 0 s)) ||| (v.toNat &&& writableBits .pdoff 0 s)) ∧
  -- WAKE_SOURCE (R79)
  (∀ (src : BitVec 10) (periods : Nat) (env : BootEnv) (s : State), s.pwr.state = .dim → s.pwr.phase = .settled →
    s.pwr.active = 0 → src.toNat &&& wakeEnabled s ≠ 0 →
    ∃ t, exec (.wakeSource src periods env) s = .next t ∧ t.pwr.state = .lit ∧ t.pwr.wakeTime = s.cal.sec ∧
    t.pwr.active = 0 ∧ t.pwr.wakeSrc.toNat = (src.toNat &&& wakeEnabled s) % 1024 + 2 ^ 28) ∧
  -- CLK_DOM_WRITE (R73)
  (∀ (m : Master) (k : Fin 64) (v : Word) (s : State), Reach .clk 0 s → Rising s.regs → 2 ≤ k.val →
    clkSrcOk k (bits v.toNat 11 8) s = true →
    ∃ t, exec (.clkDomWrite m k v) s = .next t ∧
    reg .clkDom 0 k t = (reg .clkDom 0 k s &&& ((2 ^ 32 - 1) ^^^ writableBits .clkDom 0 s)) ||| (v.toNat &&& writableBits .clkDom 0 s)) ∧
  -- CLK_DOM_WRITE (R73)
  (∀ (m : Master) (k : Fin 64) (v : Word) (s : State), Reach .clk 0 s → EventRoom s →
    (k.val < 2 ∨ clkSrcOk k (bits v.toNat 11 8) s = false) →
    ∃ t, exec (.clkDomWrite m k v) s = .next t ∧ t.regs = s.regs ∧ Recorded 0x0E13 t) ∧
  -- PLL_LOCKED (R72)
  (∀ (i : Fin 8) (s : State), pdOn 2 s = true → pllCanLock i s = true → pllLock i s = false →
    ∃ t, exec (.pllLocked i) s = .next t ∧ pllLock i t = true) ∧
  -- PLL_LOCK_LOSS (R74)
  (∀ (i : Fin 8) (s : State), pdOn 2 s = true → pllLock i s = true → i.val ≠ 1 →
    ∃ t, exec (.pllLockLoss i) s = .next t ∧ pllLock i t = false) ∧
  -- PS_ENTRY_RESTART (R81)
  (∀ (tag ps : Nat) (c : Cmd) (s : State), s.pwr.psHeld = some (tag, ps) → s.pwr.psUnwound = true → cmdAt tag s = some c →
    ctrlIdle c.ctrl (some tag) s = true → (hdrOf .wck 0 s).freeze = false →
    ∃ t, exec .psEntryRestart s = .next t ∧ t.us = s.us + 10000 ∧ t.pwr.psUnwound = false) ∧
  -- SHUTDOWN_DIM_ENTRY (R371)
  (∀ s : State, s.thm.shutSeq = true → s.sys.coreUp = true → anyLoaded s = false → s.rvr.commit = false →
    s.pwr.state = .lit →
    ∃ t, exec .shutdownDimEntry s = .next t ∧ t.pwr.state = .dim)

/-- O23. Leave commands complete: under hypotheses on the state and the operands alone, exec answers a next state with the
effect written. -/
def Obligations.LeaveCommandsComplete : Prop :=
  -- LEAVE_REQUEST (R84)
  (∀ (m : Master) (p : Fin 16) (v : Word) (s : State), Reach .llt 0 s → v.toNat.testBit 31 = true →
    classOpen (fld .lltReqa 0 p 31 28 (storeFields .lltReqb 0 p v.toNat s)) (storeFields .lltReqb 0 p v.toNat s) = false →
    s.llt.ports[p].await = none → lltHeld (storeFields .lltReqb 0 p v.toNat s) = false →
    ∃ t, exec (.leaveRequest m p v) s = .next t ∧ t.llt.ports[p].state = 3 ∧ t.llt.ports[p].reason = 2 ∧
    (360 + p.val) ∈ t.irq.pending ∧ t.llt.tickets = s.llt.tickets) ∧
  -- LEAVE_REQUEST (R84)
  (∀ (m : Master) (p : Fin 16) (v : Word) (s u : State) (cls mw prio dur k : Nat), Reach .llt 0 s → v.toNat.testBit 31 = true →
    storeFields .lltReqb 0 p v.toNat s = u → cls = fld .lltReqa 0 p 31 28 u → classOpen cls u = true →
    s.llt.orphans = [] → s.llt.ports[p].await = none → lltHeld u = false →
    mw = (if fld .lltReqa 0 p 23 0 u = 0 then (leaveClass cls).1 else fld .lltReqa 0 p 23 0 u) →
    dur = (if fld .lltReqb 0 p 15 0 u = 0 then (leaveClass cls).2.1 else fld .lltReqb 0 p 15 0 u) →
    mw ≤ 2 * (leaveClass cls).1 → dur ≤ (leaveClass cls).2.1 → mw + lltRsv u ≤ lltBoard u →
    (queuedTickets u).length < 64 → lowestFree 128 (s.llt.tickets.map (·.num)) = some k →
    ∃ t, exec (.leaveRequest m p v) s = .next t ∧
    ∃ x ∈ t.llt.tickets, x.num = k ∧ x.cls = cls ∧ x.mw = mw ∧ x.port = p.val) ∧
  -- LEAVE_REQUEST (R84)
  (∀ (m : Master) (p : Fin 16) (v : Word) (s u : State), Reach .llt 0 s → v.toNat.testBit 31 = true →
    storeFields .lltReqb 0 p v.toNat s = u → s.llt.ports[p].await = none → lltHeld u = true →
    ∃ t, exec (.leaveRequest m p v) s = .next t ∧ t.llt.tickets = s.llt.tickets ∧
    t.llt.ports[p].await = some (reg .lltReqa 0 p u, reg .lltReqb 0 p u)) ∧
  -- LEAVE_REQUEST (R84)
  (∀ (m : Master) (p : Fin 16) (v : Word) (s : State), Reach .llt 0 s → v.toNat.testBit 31 = true → EventRoom s →
    s.llt.ports[p].await.isSome = true →
    ∃ t, exec (.leaveRequest m p v) s = .next t ∧ t.llt = s.llt ∧ Recorded 0x0E47 t) ∧
  -- LEAVE_RELEASE (R87)
  (∀ (m : Master) (p : Fin 16) (v : Word) (s : State) (x : Ticket), Reach .llt 0 s → s.llt.orphans = [] →
    ticketAt (bits v.toNat 6 0) s = some x → x.gen = bits v.toNat 15 8 →
    ∃ t, exec (.leaveRelease m p v) s = .next t ∧ ∀ y ∈ t.llt.tickets, y.num ≠ bits v.toNat 6 0) ∧
  -- LEAVE_RENEW (R87)
  (∀ (m : Master) (p : Fin 16) (v : Word) (s : State) (x : Ticket), Reach .llt 0 s →
    ticketAt (bits v.toNat 6 0) s = some x → x.gen = bits v.toNat 15 8 → x.state = .granted →
    bits v.toNat 31 16 ≤ (leaveClass x.cls).2.1 → lltGranted s + lltRsv s ≤ lltAvail s → s.llt.leaseValid = false →
    ∃ t, exec (.leaveRenew m p v) s = .next t ∧ t.llt.ports[p].opst = 0 ∧
    ∃ y ∈ t.llt.tickets, y.num = x.num ∧
    y.at_ = now s + (if bits v.toNat 31 16 = 0 then (leaveClass x.cls).2.1 else bits v.toNat 31 16)) ∧
  -- LEAVE_EXPIRY (R87)
  (∀ (k : Fin 128) (x : Ticket) (s : State), ticketAt k s = some x → x.state = .granted → s.llt.orphans = [] → lltHeld s = false →
    ∃ t, exec (.leaveExpiry k) s = .next t ∧ t.us = max s.us (x.at_ * 1000) ∧ ∀ y ∈ t.llt.tickets, y.num ≠ k.val) ∧
  -- DRAW_AFTER_EXPIRY (R87)
  (∀ (k : Fin 128) (s : State), k.val ∈ s.llt.expired →
    ∃ t, exec (.drawAfterExpiry k) s = .next t ∧ t.us = s.us + 1000 ∧ k.val ∉ t.llt.expired) ∧
  -- LEAVE_DEADLINE (R88)
  (∀ (k : Fin 128) (x : Ticket) (s : State), ticketAt k s = some x → x.state = .queued → x.at_ ≠ 0 → s.llt.orphans = [] → lltHeld s = false →
    ∃ t, exec (.leaveDeadline k) s = .next t ∧ t.us = max s.us (x.at_ * 1000) ∧ ∀ y ∈ t.llt.tickets, y.num ≠ k.val) ∧
  -- THERMAL_CEILING_STEP (R89)
  (∀ s : State, lltHeld s = false → s.thm.throt = true →
    ∃ t, exec .thermalCeilingStep s = .next t ∧ t.us = s.us + 10000 ∧ t.llt.episode = true ∧ t.llt.therm ≤ s.llt.therm) ∧
  -- THERMAL_CEILING_STEP (R89)
  (∀ s u : State, lltHeld s = false → s.thm.throt = false → s.llt.episode = true → u = elapse 100000 s →
    s.llt.therm + thermStep u < lltBoard u →
    ∃ t, exec .thermalCeilingStep s = .next t ∧ t.us = s.us + 100000 ∧ t.llt.therm = s.llt.therm + thermStep u)

/-- O24. Doorbell, fetch, transfer and completion commands complete: under hypotheses on the state and the operands alone,
exec answers a next state with the effect written. -/
def Obligations.QueueCommandsComplete : Prop :=
  -- SQ_TAIL_DOORBELL (R116)
  (∀ (c : Fin 2) (q tail : Nat) (entries : List NvmeCmd) (s : State) (sq : Sq), pdOn 8 s = true → (ctrlAt c s).en = true →
    (ctrlAt c s).sqs.find? (·.id == q) = some sq → tail < sq.size →
    entries.length = (tail + sq.size - sq.tail) % sq.size →
    ∃ t, exec (.sqTailDoorbell c q tail entries) s = .next t ∧
    (ctrlAt c t).sqs.find? (·.id == q) = some { sq with tail := tail, entries := sq.entries ++ entries }) ∧
  -- CQ_HEAD_DOORBELL (R128)
  (∀ (c : Fin 2) (q head : Nat) (s : State) (cq : Cq), pdOn 8 s = true → (ctrlAt c s).en = true →
    (ctrlAt c s).cqs.find? (·.id == q) = some cq → head < cq.size → (head + cq.size - cq.head) % cq.size ≤ cq.posted.length →
    ∃ t, exec (.cqHeadDoorbell c q head) s = .next t ∧
    (ctrlAt c t).cqs.find? (·.id == q) =
    some { cq with head := head, posted := cq.posted.drop ((head + cq.size - cq.head) % cq.size) }) ∧
  -- COMMAND_FETCH (R13)
  (∀ (s : State) (k q n : Nat) (sq : Sq) (m : NvmeCmd) (rest : List NvmeCmd), hceUp s = true → pdOn 10 s = true →
    s.sys.seq = .none → s.sup.loss = false → s.rvr.recStep ≠ 0 → s.hce.closed = false → s.hce.ioClosed = false → s.lgr.frozen = false → s.thm.shut = false →
    s.hce.pause = none → pauseNow s = false → s.hce.burst = some (k, q, n + 1) →
    (ctrlAt k s).sqs.find? (·.id == q) = some sq → sq.entries = m :: rest →
    s.lgr.entries.length + rangesOf m ≤ 8192 → takesOrd q m.op = true →
    ∃ t, exec (.commandFetch none) s = .next t ∧ t.lgr.ordNext = (s.lgr.ordNext + 1) % 2 ^ 32) ∧
  -- FETCH_PAUSE_END (R119)
  (∀ (s : State) (x : Bool × Bool × Bool × Nat), s.hce.pause = some x → hceUp s = true → pauseNow s = false →
    ∃ t, exec .fetchPauseEnd s = .next t ∧ t.hce.pause = none ∧ 134 ∈ t.irq.pending) ∧
  -- WRITE_TRANSFER_START (R126)
  (∀ (tag : Fin 4096) (c : Cmd) (s : State), cmdAt tag s = some c → c.phase = .capped → hceUp s = true →
    underCap c s = true →
    ∃ t, exec (.writeTransferStart tag) s = .next t ∧ cmdAt tag t = some { c with phase := .moving }) ∧
  -- DATA_TRANSFER_COMPLETE (R17)
  (∀ (tag : Fin 4096) (c : Cmd) (e : LEntry) (o : Nat) (s : State), s.hce.cmds = [c] → c.tag = tag.val → c.phase = .moving →
    opStores c.cmd.op = true → hceUp s = true → c.ord = some o → entryAt o s = some e → piCheck c e.slba [] s = 0 → e.fua = false →
    ∃ t, exec (.dataTransferComplete tag) s = .next t ∧ Done tag stOk t) ∧
  -- HOST_MEMORY_ERROR (R122)
  (∀ (tag : Fin 4096) (c : Cmd) (s : State), cmdAt tag s = some c → hceUp s = true →
    (c.phase = .accepted ∨ c.phase = .moving) →
    ∃ t, exec (.hostMemoryError tag) s = .next t ∧ Done tag stTransfer t) ∧
  -- COMPLETION_POST (R128)
  (∀ (tag : Fin 4096) (c : Cmd) (sq : Sq) (cq : Cq) (s : State), cmdAt tag s = some c → c.phase = .finished →
    hceUp s = true → zoneHole c s = false → c.fromMi = false →
    (ctrlAt c.ctrl s).sqs.find? (·.id == c.sqid) = some sq → (ctrlAt c.ctrl s).cqs.find? (·.id == sq.cq) = some cq →
    cq.posted.length + 1 < cq.size → c.ord = none → asqHolds tag s = false →
    ∃ t, exec (.completionPost tag) s = .next t ∧ cmdAt tag t = none ∧
    ∃ v, (ctrlAt c.ctrl t).cqs.find? (·.id == sq.cq) = some v ∧ v.posted.length = cq.posted.length + 1) ∧
  -- INTERRUPT_COALESCING_TIMEOUT (R129)
  (∀ (c : Fin 2) (q : Nat) (cq : Cq) (s : State), hceUp s = true → (ctrlAt c s).cqs.find? (·.id == q) = some cq →
    cq.coalesced ≠ 0 →
    ∃ t, exec (.interruptCoalescingTimeout c q) s = .next t ∧
    (ctrlAt c t).cqs.find? (·.id == q) = some { cq with raised := cq.raised + 1, coalesced := 0 }) ∧
  -- RECOVERY_TIME_LIMIT_EXPIRY (R127)
  (∀ (tag : Fin 4096) (c : Cmd) (o : Nat) (r : LEntry) (s : State), cmdAt tag s = some c → hceUp s = true →
    c.ord = some o → opIo c.cmd.op = true → opReads c.cmd.op = true → c.phase = .accepted → entryAt o s = some r →
    selMedia r.sel = true → mediaUp s = false →
    ∃ t, exec (.recoveryTimeLimitExpiry tag) s = .next t ∧ Done tag stNotReady t ∧
    t.us = max s.us ((c.fetched + 10 * s.hce.rtl) * 1000)) ∧
  -- ABORT_MATCH (R130)
  (∀ (m : Master) (v : Word) (s : State), Reach .hce 0 s →
    ∃ t, exec (.abortMatch m v) s = .next t ∧ t.hce.abDone = true ∧
    (∀ x, matchTarget (bits v.toNat 30 30) (bits v.toNat 24 16) (bits v.toNat 15 0) s = some x →
    t.hce.abMatched = true ∧ t.hce.abTag = x.tag) ∧
    (matchTarget (bits v.toNat 30 30) (bits v.toNat 24 16) (bits v.toNat 15 0) s = none → t.hce.abMatched = false))

/-- O25. Read, write and data commands complete: under hypotheses on the state and the operands alone, exec answers a next
state with the effect written. -/
def Obligations.ReadWriteCommandsComplete : Prop :=
  -- READ (R16)
  (∀ (tag : Fin 4096) (steps : List (Nat × Nat)) (c : Cmd) (r : LEntry) (s : State), Ready .read tag c s → Readable c r s →
    .unrecovered ∉ readValues r (ladderLost c steps s) s → piCheck c c.cmd.slba (r.sel.map (· == .zeroes)) s = 0 →
    ∃ t, exec (.read tag steps) s = .next t ∧ Done tag stOk t ∧
    (ctrlAt c.ctrl t).lastData = (readValues r (ladderLost c steps s) s).map sectorNum) ∧
  -- READ (R16)
  (∀ (tag : Fin 4096) (steps : List (Nat × Nat)) (c : Cmd) (r : LEntry) (s : State), Ready .read tag c s → Readable c r s →
    .unrecovered ∈ readValues r (ladderLost c steps s) s →
    ∃ t, exec (.read tag steps) s = .next t ∧ Done tag stUnrecovered t) ∧
  -- READ (R16)
  (∀ (tag : Fin 4096) (steps : List (Nat × Nat)) (c : Cmd) (r : LEntry) (s : State), Ready .read tag c s → Readable c r s →
    .unrecovered ∉ readValues r (ladderLost c steps s) s → piCheck c c.cmd.slba (r.sel.map (· == .zeroes)) s ≠ 0 →
    ∃ t, exec (.read tag steps) s = .next t ∧
    Done tag (piStatus (piCheck c c.cmd.slba (r.sel.map (· == .zeroes)) s)) t) ∧
  -- WRITE (R17)
  (∀ (tag : Fin 4096) (c : Cmd) (s : State), Ready .write tag c s →
    ∃ t, exec (.write tag) s = .next t ∧ cmdAt tag t = some { c with phase := if underCap c s then .moving else .capped }) ∧
  -- ZONE_APPEND (R134)
  (∀ (tag : Fin 4096) (c : Cmd) (s : State), Ready .zoneAppend tag c s →
    ∃ t, exec (.zoneAppend tag) s = .next t ∧
    cmdAt tag t = some { c with phase := if underCap c s then .moving else .capped }) ∧
  -- FLUSH (R157)
  (∀ (tag : Fin 4096) (c : Cmd) (o : Nat) (s : State), Ready .flush tag c s → c.ord = some o →
    (∀ d ∈ flushDoms c s, older o (frontier d s) = true) →
    ∃ t, exec (.flush tag) s = .next t ∧ Done tag stOk t) ∧
  -- COMPARE (R115)
  (∀ (tag : Fin 4096) (steps : List (Nat × Nat)) (c : Cmd) (r : LEntry) (s : State), Ready .compare tag c s → Readable c r s →
    .unrecovered ∉ readValues r (ladderLost c steps s) s → piCheck c c.cmd.slba (r.sel.map (· == .zeroes)) s = 0 →
    ∃ t, exec (.compare tag steps) s = .next t ∧
    ((readValues r (ladderLost c steps s) s).map sectorNum = (List.range c.cmd.nlb).map (fun i => sectorNum (c.cmd.data.getD i .zeroes)) →
    Done tag stOk t) ∧
    ((readValues r (ladderLost c steps s) s).map sectorNum ≠ (List.range c.cmd.nlb).map (fun i => sectorNum (c.cmd.data.getD i .zeroes)) →
    Done tag stCompare t)) ∧
  -- COMPARE (R115)
  (∀ (tag : Fin 4096) (steps : List (Nat × Nat)) (c : Cmd) (r : LEntry) (s : State), Ready .compare tag c s → Readable c r s →
    .unrecovered ∈ readValues r (ladderLost c steps s) s →
    ∃ t, exec (.compare tag steps) s = .next t ∧ Done tag stUnrecovered t) ∧
  -- COMPARE (R115)
  (∀ (tag : Fin 4096) (steps : List (Nat × Nat)) (c : Cmd) (r : LEntry) (s : State), Ready .compare tag c s → Readable c r s →
    .unrecovered ∉ readValues r (ladderLost c steps s) s → piCheck c c.cmd.slba (r.sel.map (· == .zeroes)) s ≠ 0 →
    ∃ t, exec (.compare tag steps) s = .next t ∧
    Done tag (piStatus (piCheck c c.cmd.slba (r.sel.map (· == .zeroes)) s)) t) ∧
  -- VERIFY (R115)
  (∀ (tag : Fin 4096) (steps : List (Nat × Nat)) (c : Cmd) (r : LEntry) (s : State), Ready .verify tag c s → Readable c r s →
    .unrecovered ∉ readValues r (ladderLost c steps s) s → piCheck c c.cmd.slba (r.sel.map (· == .zeroes)) s = 0 →
    ∃ t, exec (.verify tag steps) s = .next t ∧ Done tag stOk t) ∧
  -- VERIFY (R115)
  (∀ (tag : Fin 4096) (steps : List (Nat × Nat)) (c : Cmd) (r : LEntry) (s : State), Ready .verify tag c s → Readable c r s →
    .unrecovered ∈ readValues r (ladderLost c steps s) s →
    ∃ t, exec (.verify tag steps) s = .next t ∧ Done tag stUnrecovered t) ∧
  -- VERIFY (R115)
  (∀ (tag : Fin 4096) (steps : List (Nat × Nat)) (c : Cmd) (r : LEntry) (s : State), Ready .verify tag c s → Readable c r s →
    .unrecovered ∉ readValues r (ladderLost c steps s) s → piCheck c c.cmd.slba (r.sel.map (· == .zeroes)) s ≠ 0 →
    ∃ t, exec (.verify tag steps) s = .next t ∧
    Done tag (piStatus (piCheck c c.cmd.slba (r.sel.map (· == .zeroes)) s)) t) ∧
  -- WRITE_UNCORRECTABLE (R148)
  (∀ (tag : Fin 4096) (c : Cmd) (s : State), Ready .writeUncorrectable tag c s → c.cmd.fua = false →
    ∃ t, exec (.writeUncorrectable tag) s = .next t ∧ Done tag stOk t) ∧
  -- WRITE_ZEROES (R148)
  (∀ (tag : Fin 4096) (c : Cmd) (s : State), Ready .writeZeroes tag c s → c.cmd.fua = false →
    ∃ t, exec (.writeZeroes tag) s = .next t ∧ Done tag stOk t) ∧
  -- DATASET_MANAGEMENT (R147)
  (∀ (tag : Fin 4096) (c : Cmd) (s : State), Ready .datasetManagement tag c s → c.cmd.fua = false →
    ∃ t, exec (.datasetManagement tag) s = .next t ∧ Done tag stOk t)

/-- O26. Reservation and zone commands complete: under hypotheses on the state and the operands alone, exec answers a next
state with the effect written. -/
def Obligations.ReservationAndZoneCommandsComplete : Prop :=
  -- RESERVATION_REGISTER (R115)
  (∀ (tag : Fin 4096) (c : Cmd) (x : Ns) (s : State), Ready .resvRegister tag c s → nsAt (cmdNs c.cmd) s = some x →
    bits c.cmd.cdw10 2 0 = 0 → regKey c.ctrl x = none →
    ∃ t, exec (.reservationRegister tag) s = .next t ∧ Done tag stOk t ∧
    ∀ y ∈ t.hce.ns, y.nsid = x.nsid → (c.ctrl, rkey2 c) ∈ y.registrants) ∧
  -- RESERVATION_REPORT (R115)
  (∀ (tag : Fin 4096) (c : Cmd) (x : Ns) (s : State), Ready .resvReport tag c s → nsAt (cmdNs c.cmd) s = some x →
    ∃ t, exec (.reservationReport tag) s = .next t ∧ Done tag stOk t ∧ t.hce.ns = s.hce.ns) ∧
  -- RESERVATION_ACQUIRE (R115)
  (∀ (tag : Fin 4096) (c : Cmd) (x : Ns) (s : State), Ready .resvAcquire tag c s → nsAt (cmdNs c.cmd) s = some x →
    bits c.cmd.cdw10 2 0 = 0 → 1 ≤ bits c.cmd.cdw10 15 8 → bits c.cmd.cdw10 15 8 ≤ 6 → keyMatches c x = true → x.resv = none →
    ∃ t, exec (.reservationAcquire tag) s = .next t ∧ Done tag stOk t ∧
    ∀ y ∈ t.hce.ns, y.nsid = x.nsid → y.resv = some (c.ctrl, bits c.cmd.cdw10 15 8)) ∧
  -- RESERVATION_RELEASE (R115)
  (∀ (tag : Fin 4096) (c : Cmd) (x : Ns) (u : Nat) (s : State), Ready .resvRelease tag c s → nsAt (cmdNs c.cmd) s = some x →
    bits c.cmd.cdw10 2 0 = 0 → keyMatches c x = true → x.resv = some (c.ctrl, u) → u = bits c.cmd.cdw10 15 8 →
    ∃ t, exec (.reservationRelease tag) s = .next t ∧ Done tag stOk t ∧
    ∀ y ∈ t.hce.ns, y.nsid = x.nsid → y.resv = none) ∧
  -- ZONE_OPEN (R137)
  (∀ (tag : Fin 4096) (c : Cmd) (z : Zone) (s : State), Ready .zoneOpen tag c s → c.cmd.all = false →
    zoneTab (zoneIdx (cmdNs c.cmd) c.cmd.slba s) s = some z → zoneSendOk .zoneOpen z = true → openLimit z s = none →
    ∃ t, exec (.zoneOpen tag) s = .next t ∧ Done tag stOk t) ∧
  -- ZONE_CLOSE (R137)
  (∀ (tag : Fin 4096) (c : Cmd) (z : Zone) (s : State), Ready .zoneClose tag c s → c.cmd.all = false →
    zoneTab (zoneIdx (cmdNs c.cmd) c.cmd.slba s) s = some z → zoneSendOk .zoneClose z = true →
    ∃ t, exec (.zoneClose tag) s = .next t ∧ Done tag stOk t) ∧
  -- ZONE_FINISH (R137)
  (∀ (tag : Fin 4096) (c : Cmd) (s : State), Ready .zoneFinish tag c s → c.cmd.all = false →
    ∃ t, exec (.zoneFinish tag) s = .next t ∧ Done tag stOk t) ∧
  -- ZONE_RESET (R137)
  (∀ (tag : Fin 4096) (c : Cmd) (s : State), Ready .zoneReset tag c s → c.cmd.all = false →
    ∃ t, exec (.zoneReset tag) s = .next t ∧ Done tag stOk t) ∧
  -- ZONE_OFFLINE (R137)
  (∀ (tag : Fin 4096) (c : Cmd) (z : Zone) (s : State), Ready .zoneOffline tag c s → c.cmd.all = false →
    zoneTab (zoneIdx (cmdNs c.cmd) c.cmd.slba s) s = some z → zoneSendOk .zoneOffline z = true →
    ∃ t, exec (.zoneOffline tag) s = .next t ∧ Done tag stOk t) ∧
  -- REPORT_ZONES (R137)
  (∀ (tag : Fin 4096) (c : Cmd) (x : Ns) (s : State), Ready .reportZones tag c s → nsAt (cmdNs c.cmd) s = some x →
    bits c.cmd.cdw13 7 0 = 0 → bits c.cmd.cdw13 15 8 ≤ 7 →
    ∃ t, exec (.reportZones tag) s = .next t ∧ Done tag stOk t ∧ t.xmt = s.xmt)

/-- O27. Queue creation, Identify and log page commands complete: under hypotheses on the state and the operands alone, exec
answers a next state with the effect written. -/
def Obligations.QueueAndLogCommandsComplete : Prop :=
  -- CREATE_IO_SQ (R113)
  (∀ (tag : Fin 4096) (c : Cmd) (s : State), Ready .createIoSq tag c s → qidOk c s = true →
    (∀ q ∈ (ctrlAt c.ctrl s).sqs, q.id ≠ qid c) → bits c.cmd.cdw11 31 16 ≠ 0 →
    (∃ q ∈ (ctrlAt c.ctrl s).cqs, q.id = bits c.cmd.cdw11 31 16) → qsizeOk c = true →
    ∃ t, exec (.createIoSq tag) s = .next t ∧ Done tag stOk t ∧
    ∃ q ∈ (ctrlAt c.ctrl t).sqs, q.id = qid c ∧ q.size = qsize c ∧ q.cq = bits c.cmd.cdw11 31 16 ∧ q.entries = []) ∧
  -- CREATE_IO_CQ (R113)
  (∀ (tag : Fin 4096) (c : Cmd) (s : State), Ready .createIoCq tag c s → qidOk c s = true →
    (∀ q ∈ (ctrlAt c.ctrl s).cqs, q.id ≠ qid c) → qsizeOk c = true → bits c.cmd.cdw11 31 16 ≤ 256 →
    ∃ t, exec (.createIoCq tag) s = .next t ∧ Done tag stOk t ∧
    ∃ q ∈ (ctrlAt c.ctrl t).cqs, q.id = qid c ∧ q.size = qsize c ∧ q.vector = bits c.cmd.cdw11 31 16 ∧ q.posted = []) ∧
  -- DELETE_IO_SQ (R113)
  (∀ (tag : Fin 4096) (c : Cmd) (s : State), Ready .deleteIoSq tag c s → qid c ≠ 0 →
    (∃ q ∈ (ctrlAt c.ctrl s).sqs, q.id = qid c) →
    (s.hce.cmds.any fun x => x.ctrl == c.ctrl && x.sqid == qid c && !x.fromMi && x.phase != .orphan) = false →
    ∃ t, exec (.deleteIoSq tag) s = .next t ∧ Done tag stOk t ∧ ∀ q ∈ (ctrlAt c.ctrl t).sqs, q.id ≠ qid c) ∧
  -- DELETE_IO_CQ (R113)
  (∀ (tag : Fin 4096) (c : Cmd) (s : State), Ready .deleteIoCq tag c s → qid c ≠ 0 →
    (∃ q ∈ (ctrlAt c.ctrl s).cqs, q.id = qid c) → (∀ q ∈ (ctrlAt c.ctrl s).sqs, q.cq ≠ qid c) →
    ∃ t, exec (.deleteIoCq tag) s = .next t ∧ Done tag stOk t ∧ ∀ q ∈ (ctrlAt c.ctrl t).cqs, q.id ≠ qid c) ∧
  -- IDENTIFY (R113)
  (∀ (tag : Fin 4096) (c : Cmd) (s : State), Ready .identify tag c s → bits c.cmd.cdw10 7 0 = 2 →
    ∃ t, exec (.identify tag) s = .next t ∧ Done tag stOk t ∧
    (ctrlAt c.ctrl t).lastData = [page 0 (listAt 0 4 (nsidList c.cmd.nsid (fun x => x.attached.contains c.ctrl) s))]) ∧
  -- IDENTIFY (R113)
  (∀ (tag : Fin 4096) (c : Cmd) (s : State), Ready .identify tag c s → 0x20 ≤ bits c.cmd.cdw10 7 0 →
    ∃ t, exec (.identify tag) s = .next t ∧ Done tag stField t) ∧
  -- GET_LOG_PAGE (R140)
  (∀ (tag : Fin 4096) (c : Cmd) (s : State), Ready .getLogPage tag c s → logId c.cmd = 2 → logOffset c.cmd % 4 = 0 →
    ∃ t, exec (.getLogPage tag) s = .next t ∧ Done tag stOk t ∧ t.xmt = s.xmt ∧
    (ctrlAt c.ctrl t).changedZones = (ctrlAt c.ctrl s).changedZones) ∧
  -- LOG_GUARANTEE_EXCEPTIONS (R141)
  (∀ (tag : Fin 4096) (c : Cmd) (s : State), Ready .getLogPage tag c s → logId c.cmd = 0xC0 →
    (c.cmd.nsid = 0 ∨ c.cmd.nsid = 0xFFFFFFFF) → logSeq c.cmd = false → logOffset c.cmd = 0 →
    ∃ t, exec (.logGuaranteeExceptions tag) s = .next t ∧ Done tag stOk t) ∧
  -- LOG_EVENT_RECORDER (R142)
  (∀ (tag : Fin 4096) (c : Cmd) (s : State), Ready .getLogPage tag c s → logId c.cmd = 0xC1 →
    (c.cmd.nsid = 0 ∨ c.cmd.nsid = 0xFFFFFFFF) → logSeq c.cmd = true →
    ∃ t, exec (.logEventRecorder tag) s = .next t ∧ Done tag stOk t ∧ t.evr = s.evr) ∧
  -- LOG_LIFETIME_COUNTERS (R141)
  (∀ (tag : Fin 4096) (c : Cmd) (s : State), Ready .getLogPage tag c s → logId c.cmd = 0xC2 →
    (c.cmd.nsid = 0 ∨ c.cmd.nsid = 0xFFFFFFFF) → logSeq c.cmd = false → logOffset c.cmd = 0 →
    ∃ t, exec (.logLifetimeCounters tag) s = .next t ∧ Done tag stOk t ∧ t.lif.shCnt = s.lif.cnt ∧ t.lif.cnt = s.lif.cnt) ∧
  -- LOG_ACTUATOR_HEAD_HEALTH (R141)
  (∀ (tag : Fin 4096) (c : Cmd) (s : State), Ready .getLogPage tag c s → logId c.cmd = 0xC3 →
    (c.cmd.nsid = 0 ∨ c.cmd.nsid = 0xFFFFFFFF) → logSeq c.cmd = false → logOffset c.cmd = 0 →
    ∃ t, exec (.logActuatorHeadHealth tag) s = .next t ∧ Done tag stOk t) ∧
  -- LOG_LEASES_POWER (R141)
  (∀ (tag : Fin 4096) (c : Cmd) (s : State), Ready .getLogPage tag c s → logId c.cmd = 0xC4 →
    (c.cmd.nsid = 0 ∨ c.cmd.nsid = 0xFFFFFFFF) → logSeq c.cmd = false → logOffset c.cmd = 0 →
    ∃ t, exec (.logLeasesPower tag) s = .next t ∧ Done tag stOk t ∧ t.llt = s.llt) ∧
  -- LOG_ATTESTATION_MEASUREMENTS (R141)
  (∀ (tag : Fin 4096) (c : Cmd) (s : State), Ready .getLogPage tag c s → logId c.cmd = 0xC5 →
    (c.cmd.nsid = 0 ∨ c.cmd.nsid = 0xFFFFFFFF) → logSeq c.cmd = false → logOffset c.cmd = 0 →
    ∃ t, exec (.logAttestationMeasurements tag) s = .next t ∧ Done tag stOk t ∧ t.sec = s.sec)

/-- O28. Feature and asynchronous event commands complete: under hypotheses on the state and the operands alone, exec answers
a next state with the effect written. -/
def Obligations.FeatureCommandsComplete : Prop :=
  -- SET_FEATURES (R143)
  (∀ (tag : Fin 4096) (c : Cmd) (s : State), Ready .setFeatures tag c s → fid c = 5 →
    ∃ t, exec (.setFeatures tag) s = .next t ∧ Done tag stOk t ∧
    (ctrlAt c.ctrl t).feats = sput 0 5 (c.cmd.cdw11 % 2 ^ 32) (ctrlAt c.ctrl s).feats) ∧
  -- GET_FEATURES (R143)
  (∀ (tag : Fin 4096) (c : Cmd) (s : State), Ready .getFeatures tag c s → fid c ≠ 0x0E → fid c ≠ 0xC3 →
    (ownSetRow (fid c) || stdFeatures.contains (fid c)) = true → featSel c = 0 →
    ∃ t, exec (.getFeatures tag) s = .next t ∧ Done tag stOk t ∧ ∀ y, cmdAt tag t = some y → y.dw0 = featValue c s) ∧
  -- SET_FEATURES_POWER_MANAGEMENT (R81)
  (∀ (tag : Fin 4096) (c : Cmd) (s : State), Ready .setFeatures tag c s → fid c = 2 → c.cmd.cdw11 % 32 ≤ 1 →
    (∃ x, s.pwr.psHeld = some (tag.val, x)) → s.pwr.psUnwound = false → s.pwr.state = .lit →
    ∃ t, exec (.setFeaturesPowerManagement tag) s = .next t ∧ Done tag stOk t ∧ t.pwr.ps = c.cmd.cdw11 % 32 ∧
    t.pwr.psHeld = none) ∧
  -- SET_FEATURES_TIMESTAMP (R145)
  (∀ (tag : Fin 4096) (c : Cmd) (s : State), Ready .setFeatures tag c s → fid c = 0x0E → Rising s.regs →
    ∃ t, exec (.setFeaturesTimestamp tag) s = .next t ∧ Done tag stOk t ∧ t.cal.src = 2 ∧ t.us = s.us) ∧
  -- GET_FEATURES_TIMESTAMP (R398)
  (∀ (tag : Fin 4096) (c : Cmd) (s : State), Ready .getFeatures tag c s → fid c = 0x0E →
    ∃ t, exec (.getFeaturesTimestamp tag) s = .next t ∧ Done tag stOk t ∧
    (ctrlAt c.ctrl t).lastData = [(s.cal.sec * 1000 + s.cal.usec / 1000) % 2 ^ 48 +
    ((if s.cal.rcSince || s.cal.src == 0 then 1 else 0) + (if s.cal.src == 2 then 2 else 0)) * 2 ^ 48]) ∧
  -- SET_FEATURES_VOLATILE_WRITE_CACHE (R126)
  (∀ (tag : Fin 4096) (c : Cmd) (s : State), Ready .setFeatures tag c s → fid c = 6 →
    ∃ t, exec (.setFeaturesVolatileWriteCache tag) s = .next t ∧ Done tag stOk t ∧
    (ctrlAt c.ctrl t).vwc = (c.cmd.cdw11 % 2 ^ 32).testBit 0) ∧
  -- SET_FEATURES_INTERRUPT_COALESCING (R129)
  (∀ (tag : Fin 4096) (c : Cmd) (s : State), Ready .setFeatures tag c s → fid c = 8 →
    ∃ t, exec (.setFeaturesInterruptCoalescing tag) s = .next t ∧ Done tag stOk t ∧
    (ctrlAt c.ctrl t).icThr = bits (c.cmd.cdw11 % 2 ^ 32) 7 0 ∧ (ctrlAt c.ctrl t).icTime = bits (c.cmd.cdw11 % 2 ^ 32) 15 8) ∧
  -- SET_FEATURES_TEMPERATURE_THRESHOLD (R370)
  (∀ (tag : Fin 4096) (c : Cmd) (s : State), Ready .setFeatures tag c s → fid c = 4 →
    bits (c.cmd.cdw11 % 2 ^ 32) 21 20 = 0 → bits (c.cmd.cdw11 % 2 ^ 32) 19 16 = 0 →
    thrOrdered ((bits (c.cmd.cdw11 % 2 ^ 32) 15 0 : Int) - 273) (thrThrot s) (thrShut s) = true →
    ∃ t, exec (.setFeaturesTemperatureThreshold tag) s = .next t ∧ Done tag stOk t ∧
    (ctrlAt c.ctrl t).tempOver = bits (c.cmd.cdw11 % 2 ^ 32) 15 0) ∧
  -- SET_FEATURES_READ_RECOVERY_LEVEL (R145)
  (∀ (tag : Fin 4096) (c : Cmd) (s : State), Ready .setFeatures tag c s → fid c = 0x12 →
    (c.cmd.cdw11 % 2 ^ 32 % 16 = 0 ∨ c.cmd.cdw11 % 2 ^ 32 % 16 = 4 ∨ c.cmd.cdw11 % 2 ^ 32 % 16 = 15) →
    ∃ t, exec (.setFeaturesReadRecoveryLevel tag) s = .next t ∧ Done tag stOk t ∧
    (ctrlAt c.ctrl t).rrl = c.cmd.cdw11 % 2 ^ 32 % 16) ∧
  -- SET_FEATURES_RECOVERY_TIME_LIMIT (R143)
  (∀ (tag : Fin 4096) (c : Cmd) (s : State), Ready .setFeatures tag c s → fid c = 0xC0 →
    10 ≤ c.cmd.cdw11 % 2 ^ 32 % 2 ^ 16 → c.cmd.cdw11 % 2 ^ 32 % 2 ^ 16 ≤ 6000 →
    ∃ t, exec (.setFeaturesRecoveryTimeLimit tag) s = .next t ∧ Done tag stOk t ∧ t.hce.rtl = c.cmd.cdw11 % 2 ^ 32 % 2 ^ 16) ∧
  -- SET_FEATURES_RECOVERY_TIME_LIMIT (R143)
  (∀ (tag : Fin 4096) (c : Cmd) (s : State), Ready .setFeatures tag c s → fid c = 0xC0 →
    (c.cmd.cdw11 % 2 ^ 32 % 2 ^ 16 < 10 ∨ 6000 < c.cmd.cdw11 % 2 ^ 32 % 2 ^ 16) →
    ∃ t, exec (.setFeaturesRecoveryTimeLimit tag) s = .next t ∧ Done tag stField t ∧ t.hce.rtl = s.hce.rtl) ∧
  -- SET_FEATURES_DIRTY_CAP (R144)
  (∀ (tag : Fin 4096) (c : Cmd) (s : State), Ready .setFeatures tag c s → fid c = 0xC1 →
    c.cmd.cdw11 % 2 ^ 32 % 2 ^ 16 ≤ reservoirCapacity s →
    ∃ t, exec (.setFeaturesDirtyCap tag) s = .next t ∧ Done tag stOk t ∧ t.hce.dirtyCap = c.cmd.cdw11 % 2 ^ 32 % 2 ^ 16) ∧
  -- SET_FEATURES_LEASE_FLOOR (R143)
  (∀ (tag : Fin 4096) (c : Cmd) (s : State), Ready .setFeatures tag c s → fid c = 0xC2 → Rising s.regs →
    c.cmd.cdw11 % 2 ^ 32 % 2 ^ 24 ≤ lltBoard s →
    ∃ t, exec (.setFeaturesLeaseFloor tag) s = .next t ∧ Done tag stOk t ∧
    fld .vlkFloor 0 0 23 0 t = c.cmd.cdw11 % 2 ^ 32 % 2 ^ 24) ∧
  -- SET_FEATURES_BEHAVIOUR_PROFILE (R432)
  (∀ (tag : Fin 4096) (c : Cmd) (s : State), Ready .setFeatures tag c s → fid c = 0xC3 → s.sys.profLock = false →
    (c.cmd.cdw11 % 2 ^ 32 % 2 ^ 12 = 0x0A0 ∨ c.cmd.cdw11 % 2 ^ 32 % 2 ^ 12 = 0x0A1 ∨ c.cmd.cdw11 % 2 ^ 32 % 2 ^ 12 = 0x0B0) →
    ∃ t, exec (.setFeaturesBehaviourProfile tag) s = .next t ∧ Done tag stOk t ∧
    t.sys.profPend = c.cmd.cdw11 % 2 ^ 32 % 2 ^ 12 ∧ t.sys.profLock = (c.cmd.cdw11 % 2 ^ 32).testBit 31 ∧
    t.sys.profActive = s.sys.profActive) ∧
  -- SET_FEATURES_BEHAVIOUR_PROFILE (R432)
  (∀ (tag : Fin 4096) (c : Cmd) (s : State), Ready .setFeatures tag c s → fid c = 0xC3 → s.sys.profLock = true →
    ∃ t, exec (.setFeaturesBehaviourProfile tag) s = .next t ∧ Done tag stSequence t ∧ t.sys = s.sys) ∧
  -- GET_FEATURES_BEHAVIOUR_PROFILE (R144)
  (∀ (tag : Fin 4096) (c : Cmd) (s : State), Ready .getFeatures tag c s → fid c = 0xC3 → featSel c ≤ 3 →
    ∃ t, exec (.getFeaturesBehaviourProfile tag) s = .next t ∧ Done tag stOk t ∧ t.sys = s.sys)

/-- O29. Namespace, firmware, format and sanitize commands complete: under hypotheses on the state and the operands alone,
exec answers a next state with the effect written. -/
def Obligations.NamespaceAndFirmwareCommandsComplete : Prop :=
  -- ASYNCHRONOUS_EVENT_REQUEST (R113)
  (∀ (tag : Fin 4096) (c : Cmd) (s : State), Ready .asyncEventRequest tag c s → (ctrlAt c.ctrl s).aers.length < 8 →
    (ctrlAt c.ctrl s).aens = [] →
    ∃ t, exec (.asynchronousEventRequest tag) s = .next t ∧ (ctrlAt c.ctrl t).aers = (ctrlAt c.ctrl s).aers ++ [tag.val]) ∧
  -- ABORT (R130)
  (∀ (tag : Fin 4096) (c : Cmd) (s : State), Ready .abort tag c s →
    matchTarget c.ctrl (bits c.cmd.cdw10 15 0) (bits c.cmd.cdw10 31 16) s = none →
    ∃ t, exec (.abort tag) s = .next t ∧ Done tag stOk t ∧ (∀ y, cmdAt tag t = some y → y.dw0 = 1)) ∧
  -- KEEP_ALIVE (R115)
  (∀ (tag : Fin 4096) (c : Cmd) (s : State), Ready .keepAlive tag c s →
    ∃ t, exec (.keepAlive tag) s = .next t ∧ Done tag stOk t ∧
    (ctrlAt c.ctrl t).kato = (if sget 0 0x0F (ctrlAt c.ctrl s).feats = 0 then none
    else some (now s + sget 0 0x0F (ctrlAt c.ctrl s).feats))) ∧
  -- NAMESPACE_MANAGEMENT (R139)
  (∀ (tag : Fin 4096) (c : Cmd) (k base : Nat) (s : State), Ready .namespaceManagement tag c s → bits c.cmd.cdw10 3 0 = 0 →
    bits c.cmd.cdw11 31 24 = 0 → c.cmd.payload % 2 ^ 64 ≠ 0 → c.cmd.payload % 2 ^ 64 % 1024 = 0 →
    bits c.cmd.payload 211 208 ≤ 3 → (bits c.cmd.payload 211 208 = 0 → bits c.cmd.payload 235 232 % 8 = 0) →
    bits c.cmd.payload 235 232 % 8 ≤ 3 → lowestFree 64 (s.hce.ns.map fun x => x.nsid - 1) = some k →
    freeRun (c.cmd.payload % 2 ^ 64 / 1024) 33554432 (nsRanges false s) = some base →
    ∃ t, exec (.namespaceManagement tag) s = .next t ∧ Done tag stOk t ∧
    ∃ x ∈ t.hce.ns, x.nsid = k + 1 ∧ x.size = c.cmd.payload % 2 ^ 64 ∧ x.zoned = false) ∧
  -- NAMESPACE_ATTACHMENT (R115)
  (∀ (tag : Fin 4096) (c : Cmd) (x : Ns) (s : State), Ready .namespaceAttachment tag c s → nsAt (cmdNs c.cmd) s = some x →
    bits c.cmd.cdw10 3 0 = 0 → ctrlList c.cmd.payload = [0] → (sget 0 0x0B (ctrlAt 0 s).feats).testBit 8 = false →
    ∃ t, exec (.namespaceAttachment tag) s = .next t ∧ Done tag stOk t ∧
    ∀ y ∈ t.hce.ns, y.nsid = x.nsid → 0 ∈ y.attached) ∧
  -- FIRMWARE_IMAGE_DOWNLOAD (R115)
  (∀ (tag : Fin 4096) (c : Cmd) (s : State), Ready .firmwareImageDownload tag c s →
    ∃ t, exec (.firmwareImageDownload tag) s = .next t ∧ Done tag stOk t ∧
    t.hce.fwDl = s.hce.fwDl ++ [(4 * (c.cmd.cdw11 % 2 ^ 32), 4 * (c.cmd.cdw10 % 2 ^ 32 + 1))]) ∧
  -- FIRMWARE_COMMIT (R115)
  (∀ (tag : Fin 4096) (img : BootImage) (c : Cmd) (s : State), Ready .firmwareCommit tag c s → fwAction c = 1 →
    fwSlot c s = 1 ∨ fwSlot c s = 2 → s.hce.fwDl ≠ [] → bootResult 1 img s = 1 →
    ∃ t, exec (.firmwareCommit tag img) s = .next t ∧ Done tag stOk t ∧ t.hce.fwNext = fwSlot c s ∧ t.hce.fwDl = [] ∧
    vget t.hce.fwSlots (fwSlot c s - 1) 0 = img.digest) ∧
  -- FIRMWARE_ACTIVATION (R427)
  (∀ (tag : Fin 4096) (img : BootImage) (c : Cmd) (s : State), Ready .firmwareCommit tag c s → fwAction c = 3 →
    fwSlot c s ≤ 2 → s.sys.fwPause = none → bootResult 1 img s = 1 → pauseAllowed s = true → seqsIdle s = true →
    ∃ t, exec (.firmwareActivation tag img) s = .next t ∧ Done tag stOk t ∧ t.hce.fwActive = fwSlot c s ∧ t.sys.fwPause = none) ∧
  -- ACTIVATION_PAUSE_TIMEOUT (R428)
  (∀ (k tag at_ : Nat) (s : State), s.sys.fwPause = some (k, tag, at_) → seqsIdle s = false → (cmdAt tag s).isSome = true →
    ∃ t, exec .activationPauseTimeout s = .next t ∧ Done tag stInternal t ∧ t.sys.fwPause = none ∧ t.hce.fwNext = k ∧
    t.us = max s.us ((at_ + 100) * 1000)) ∧
  -- FORMAT_NVM (R165)
  (∀ (tag : Fin 4096) (c : Cmd) (x : Ns) (o : Nat) (s : State), Ready .formatNvm tag c s → nsAt (cmdNs c.cmd) s = some x →
    c.ord = some o → pdOn 10 s = true → barrierTurn o (x.nsid - 1) s = true → frontier (nsDom (x.nsid - 1) s) s = o →
    ∃ t, exec (.formatNvm tag) s = .next t ∧ cmdAt tag t = some { c with phase := .moving } ∧
    ∀ y ∈ t.hce.ns, y.nsid = x.nsid → y.formatting = true) ∧
  -- SANITIZE_OVERWRITE (R166)
  (∀ (tag : Fin 4096) (c : Cmd) (s : State), Ready .sanitize tag c s → bits c.cmd.cdw10 2 0 = 3 → sanTurn c s = true →
    ∃ t, exec (.sanitizeOverwrite tag) s = .next t ∧ Done tag stOk t ∧ t.xmt.san = some (sanOf c true s) ∧ t.hce.sanStatus = 2) ∧
  -- SANITIZE_CRYPTO_ERASE (R166)
  (∀ (tag : Fin 4096) (c : Cmd) (s : State), Ready .sanitize tag c s → bits c.cmd.cdw10 2 0 = 4 → sanTurn c s = true → mediaUp s = true →
    ∃ t, exec (.sanitizeCryptoErase tag) s = .next t ∧ Done tag stOk t ∧ t.xmt.san = none) ∧
  -- SANITIZE_BAND_DONE (R166)
  (∀ (x : San) (b : Bool × Nat × Nat × Nat) (s : State), s.xmt.san = some x → x.overwrite = true → x.doneJ = none →
    xmtUp s = true → sanGranted s = true → (sanBands s)[x.band]? = some b → (s.lgr.pins.any fun (l, _) => inBand b l) = false →
    x.band + 1 < x.bands →
    ∃ t, exec .sanitizeBandDone s = .next t ∧ (∃ y, t.xmt.san = some y ∧ y.band = x.band + 1 ∧ y.pass = x.pass) ∧
    ∀ l ∈ bandLocs b s, ∃ m ∈ t.xmt.media, m.1 = l ∧ m.2.v = .data (sanPattern x))

/-- O30. Security protocol, self-test, management and thermal commands complete: under hypotheses on the state and the
operands alone, exec answers a next state with the effect written. -/
def Obligations.SecurityProtocolAndManagementCommandsComplete : Prop :=
  -- SECURITY_SEND (R115)
  (∀ (tag : Fin 4096) (c : Cmd) (s : State), Ready .securitySend tag c s → secp c.cmd = 0 →
    ∃ t, exec (.securitySend tag) s = .next t ∧ Done tag stOk t) ∧
  -- SECURITY_RECEIVE (R115)
  (∀ (tag : Fin 4096) (c : Cmd) (s : State), Ready .securityReceive tag c s → secp c.cmd = 0 →
    ∃ t, exec (.securityReceive tag) s = .next t ∧ Done tag stOk t ∧ (ctrlAt c.ctrl t).lastData = [0x00, 0xF0, 0xF1]) ∧
  -- ATTESTATION_NONCE (R362)
  (∀ (tag : Fin 4096) (c : Cmd) (s : State), Ready .securitySend tag c s → secp c.cmd = 0xF0 → spsp c.cmd = 1 →
    ∃ t, exec (.attestationNonce tag) s = .next t ∧ Done tag stOk t ∧ t.sec.nonce = c.cmd.payload % 2 ^ 256 ∧
    t.sec.signing = true ∧ t.sec.repReady = false) ∧
  -- ATTESTATION_REPORT_SIGNED (R362)
  (∀ s : State, secRuns s = true → s.sec.signing = true →
    ∃ t, exec .attestationReportSigned s = .next t ∧ t.sec.signing = false ∧ t.sec.repReady = true ∧ t.sec.report = signedReport s.sec.report s) ∧
  -- ATTESTATION_REPORT_RECEIVE (R362)
  (∀ (tag : Fin 4096) (c : Cmd) (s : State), Ready .securityReceive tag c s → secp c.cmd = 0xF0 → spsp c.cmd = 1 →
    ∃ t, exec (.attestationReportReceive tag) s = .next t ∧ Done tag stOk t ∧
    (ctrlAt c.ctrl t).lastData = (if s.sec.repReady then [s.sec.report] else [])) ∧
  -- CREDENTIAL (R354)
  (∀ (tag : Fin 4096) (c : Cmd) (s : State), Ready .securitySend tag c s → secp c.cmd = 0xF1 → spsp c.cmd < 32 →
    (vget s.sec.users (spsp c.cmd) {}).lockout = false →
    (vget s.sec.users (spsp c.cmd) {}).cred = some (Config.hash 0 (c.cmd.payload % 2 ^ 512)) →
    ∃ t, exec (.credential tag) s = .next t ∧ Done tag stOk t ∧ (vget t.sec.users (spsp c.cmd) {}).opn = true ∧
    (vget t.sec.users (spsp c.cmd) {}).fails = 0) ∧
  -- DEVICE_SELF_TEST (R115)
  (∀ (tag : Fin 4096) (c : Cmd) (s : State), Ready .deviceSelfTest tag c s → c.cmd.cdw10 % 16 = 1 →
    ∃ t, exec (.deviceSelfTest tag) s = .next t ∧ Done tag stOk t ∧ t.hce.dst = 1) ∧
  -- NVME_MI_SEND (R115)
  (∀ (tag : Fin 4096) (c : Cmd) (s : State), Ready .nvmeMiSend tag c s → bits c.cmd.cdw11 7 0 = 6 →
    ∃ t, exec (.nvmeMiSend tag) s = .next t ∧ Done tag stOk t ∧
    t.hce.vpd = (miVpdWrite (bits c.cmd.cdw12 15 0) (toBytes (bits c.cmd.cdw13 15 0) c.cmd.payload) s).hce.vpd) ∧
  -- NVME_MI_RECEIVE (R115)
  (∀ (tag : Fin 4096) (c : Cmd) (s : State), Ready .nvmeMiReceive tag c s → bits c.cmd.cdw11 7 0 = 4 →
    ∃ t, exec (.nvmeMiReceive tag) s = .next t ∧ Done tag stOk t ∧
    (ctrlAt c.ctrl t).lastData = (miConfigGet (bits c.cmd.cdw12 7 0) s).2) ∧
  -- READ_NVME_MI_DATA_STRUCTURE (R114)
  (∀ (port : Nat) (s : State), miUp s = true →
    ∃ t, exec (.readNvmeMiDataStructure 2 port) s = .next t ∧
    t.hce.miResp = some (miOk, if s.sys.dualp then [2, 0, 1] else [1, 0])) ∧
  -- NVM_SUBSYSTEM_HEALTH_STATUS_POLL (R114)
  (∀ s : State, miUp s = true →
    ∃ t, exec .nvmSubsystemHealthStatusPoll s = .next t ∧ ∃ a b c,
    t.hce.miResp = some (miOk, [a, 255 - ((ctrlAt 0 s).critWarn ||| (ctrlAt 1 s).critWarn) % 256, miTemp s, b, c])) ∧
  -- CONTROLLER_HEALTH_STATUS_POLL (R114)
  (∀ (c : Fin 2) (s : State), miUp s = true →
    ∃ t, exec (.controllerHealthStatusPoll c) s = .next t ∧ ∃ a b, t.hce.miResp = some (miOk,
    [c.val, flag (ctrlAt c s).rdy 0 + flag (ctrlAt c s).nssro 4, compositeK s, a, b, (ctrlAt c s).critWarn])) ∧
  -- CONFIGURATION_GET (R114)
  (∀ (ident : Nat) (s : State), miUp s = true →
    ∃ t, exec (.configurationGet ident) s = .next t ∧ t.hce.miResp = some (miConfigGet ident s)) ∧
  -- CONFIGURATION_SET (R114)
  (∀ (v : Nat) (s : State), miUp s = true → Rising s.hce.miCfg → v ≠ 0xFFFFFFFF →
    ∃ t, exec (.configurationSet 2 v) s = .next t ∧ t.hce.miResp = some (miOk, []) ∧ sget 0xFFFFFFFF 2 t.hce.miCfg = v) ∧
  -- VPD_READ (R114)
  (∀ (off len : Nat) (s : State), miUp s = true →
    ∃ t, exec (.vpdRead off len) s = .next t ∧ ∃ l, t.hce.miResp = some (miOk, l) ∧ l.length = len ∧
    ∀ (i v : Nat), i < len → s.hce.vpd.find? (fun x => x.1 == off + i) = some (off + i, v) → l[i]? = some v) ∧
  -- VPD_WRITE (R114)
  (∀ (off : Nat) (b : Byte) (s : State), miUp s = true → Rising s.hce.vpd →
    ∃ t, exec (.vpdWrite off [b]) s = .next t ∧ t.hce.miResp = some (miOk, []) ∧ sget 256 off t.hce.vpd = b.toNat) ∧
  -- MI_RESET (R114)
  (∀ s : State, miUp s = true → canReset s = true →
    ∃ t, exec .miReset s = .next t ∧ t.sys.seq = .nssr ∧ t.sys.coreUp = true) ∧
  -- BASIC_MANAGEMENT_COMMAND (R114)
  (∀ s : State, pdOn 2 s = true →
    ∃ t, exec .basicManagementCommand s = .next t ∧ ∃ a b,
    t.hce.miResp = some (miOk, [a, 255 - ((ctrlAt 0 s).critWarn ||| (ctrlAt 1 s).critWarn) % 256, miTemp s, b]))

/-- O31. Ledger, journal, migration and reservoir commands complete: under hypotheses on the state and the operands alone,
exec answers a next state with the effect written. -/
def Obligations.DurabilityCommandsComplete : Prop :=
  -- NSDOM_WRITE (R146)
  (∀ (m : Master) (k : Fin 64) (v : Word) (s : State), Reach .xmt 0 s → Rising s.regs → liveEntries k s = 0 →
    ∃ t, exec (.nsdomWrite m k v) s = .next t ∧
    reg .nsdom 0 k t = (reg .nsdom 0 k s &&& ((2 ^ 32 - 1) ^^^ writableBits .nsdom 0 s)) ||| (v.toNat &&& writableBits .nsdom 0 s)) ∧
  -- NSDOM_WRITE (R146)
  (∀ (m : Master) (k : Fin 64) (v : Word) (s : State), Reach .xmt 0 s → EventRoom s → liveEntries k s ≠ 0 →
    windowOpen .xmt 0 s = true →
    ∃ t, exec (.nsdomWrite m k v) s = .next t ∧ t.regs = s.regs ∧ Recorded 0x0203 t) ∧
  -- LGR_WIN_GO (R148)
  (∀ (m : Master) (v : Word) (e : LEntry) (s : State), Reach .lgr 0 s →
    s.lgr.entries.find? (·.idx == bits v.toNat 12 0) = some e →
    ∃ t, exec (.lgrWinGo m v) s = .next t ∧ t.lgr.wdata = entryWord e ∧ t.lgr.entries = s.lgr.entries) ∧
  -- JOURNAL_BLOCK_DURABLE (R155)
  (∀ (s : State), xmtUp s = true → s.hce.cmds = [] → s.lgr.entries = [] → s.xmt.ckPend = none → s.xmt.migs = [] →
    s.xmt.rewrites = [] → s.xmt.san = none → (s.xmt.journal.filter fun r => !r.durable).length ≤ 64 →
    (∀ r, (s.xmt.journal.filter fun r => !r.durable).getLast? = some r → r.last = true) →
    ∃ t, exec (.journalBlockDurable []) s = .next t ∧ t.xmt.journal.length = s.xmt.journal.length ∧
    ∀ r ∈ t.xmt.journal, r.durable = true) ∧
  -- CHECKPOINT (R155)
  (∀ s : State, pdOn 10 s = true → mediaUp s = true → heldBlk .xmt 0 s = false →
    ∃ t, exec .checkpoint s = .next t ∧ t.xmt.jseq = s.xmt.jseq + 1 ∧ t.xmt.ckPend.isSome = true ∧
    t.xmt.extents = s.xmt.extents ∧ t.xmt.zones = s.xmt.zones ∧ t.xmt.runs = s.xmt.runs) ∧
  -- MIGRATION_START (R159)
  (∀ (zone : Bool) (idx ch sl : Nat) (x : Nat × Nat × Nat) (s : State), pdOn 10 s = true → mediaUp s = true →
    heldBlk .xmt 0 s = false → s.lgr.frozen = false → ordAge s = false → s.lgr.entries.length < 8192 → s.xmt.san = none →
    migAt zone idx s = none → slotsFree zone ch sl s = true → bandRange zone idx s = some x →
    ∃ t, exec (.migrationStart zone idx ch sl) s = .next t ∧ (∃ m, migAt zone idx t = some m ∧ m.newCh = ch ∧ m.newSl = sl ∧
    m.committed = false) ∧ (ch, sl) ∉ t.xmt.freeSlots) ∧
  -- MIGRATION_COPY_VERIFIED (R159)
  (∀ (zone : Bool) (idx : Nat) (lost : List Nat) (m : Mig) (r : LEntry) (s : State), migAt zone idx s = some m →
    entryAt m.ord s = some r → pdOn 10 s = true → mediaUp s = true → heldBlk .xmt 0 s = false → m.commitJ = none →
    selReady r.sel = true → selKeyWait r.ns r.sel s = false → migOrdered m r s = true → migHolds m s = true →
    ∃ t, exec (.migrationCopyVerified zone idx lost) s = .next t ∧ ∃ y, migAt zone idx t = some y ∧ y.commitJ.isSome = true ∧
    y.newCh = m.newCh ∧ y.newSl = m.newSl) ∧
  -- MIGRATION_COPY_VERIFIED (R159)
  (∀ (zone : Bool) (idx : Nat) (lost : List Nat) (m : Mig) (r : LEntry) (s : State), migAt zone idx s = some m →
    entryAt m.ord s = some r → pdOn 10 s = true → mediaUp s = true → heldBlk .xmt 0 s = false → m.commitJ = none →
    selReady r.sel = true → selKeyWait r.ns r.sel s = false → migOrdered m r s = true → migHolds m s = false → EventRoom s →
    ∃ t, exec (.migrationCopyVerified zone idx lost) s = .next t ∧ migAt zone idx t = none ∧
    (∀ x ∈ bandSlots zone m.newCh m.newSl, x ∈ t.xmt.freeSlots) ∧ Recorded 0x0221 t) ∧
  -- MIG_FREE (R159)
  (∀ (zone : Bool) (idx : Nat) (m : Mig) (s : State), migAt zone idx s = some m → pdOn 10 s = true → heldBlk .xmt 0 s = false →
    m.committed = true → ((bandSlots m.zone m.oldCh m.oldSl).any fun x => slotPinned x s) = false →
    ∃ t, exec (.migFree zone idx) s = .next t ∧ migAt zone idx t = none ∧
    ∀ x ∈ bandSlots m.zone m.oldCh m.oldSl, x ∈ t.xmt.freeSlots) ∧
  -- RESERVOIR_COMMIT (R162)
  (∀ (m : Master) (s : State), Reach .rvr 0 s → lossContext s = false → s.rvr.commit = false →
    fld .rvrCfg 0 0 1 0 s ≠ 0 →
    ∃ t, exec (.reservoirCommit m) s = .next t ∧ t.rvr.commit = true ∧ t.rvr.inService = true ∧ t.hce.ioClosed = true ∧
    t.llt.commitGrant = true) ∧
  -- LEDGER_FREEZE (R163)
  (∀ s : State, s.rvr.commit = true → s.rvr.inService = true → s.rvr.image = none → pdOn 10 s = true →
    heldBlk .rvr 0 s = false → (s.lgr.entries.any fun e => lkWrites e.kind && e.state == .pending) = false →
    ∃ t, exec .ledgerFreeze s = .next t ∧ t.lgr.frozen = true ∧ t.rvr.image.isSome = true) ∧
  -- COMMIT_RECORD_DURABLE (R162)
  (∀ (g : Gen) (s : State), s.rvr.commit = true → s.rvr.image = some g → pdOn 10 s = true → heldBlk .rvr 0 s = false →
    s.sup.loss = false →
    ∃ t, exec .commitRecordDurable s = .next t ∧ t.rvr.commit = false ∧ t.rvr.gen = g.gen ∧ t.rvr.image = none) ∧
  -- RESERVOIR_REPLAY (R164)
  (∀ (m : Master) (s : State), Reach .rvr 0 s → s.rvr.chosen.isSome = true → s.rvr.replay = false →
    (s.rvr.recStep = 2 ∨ s.rvr.recStep = 6) →
    ∃ t, exec (.reservoirReplay m) s = .next t ∧ t.rvr.replay = true ∧ t.rvr.chosen = s.rvr.chosen) ∧
  -- REPLAY_DONE (R164)
  (∀ (g : Gen) (s : State), chosenGen s = some g → s.rvr.replay = true → pdOn 10 s = true →
    heldBlk .rvr 0 s = false → (g.writes.all fun w => !w.enc || s.sec.restored) = true →
    ∃ t, exec .replayDone s = .next t ∧ t.rvr.replay = false ∧ t.rvr.recStep = (if s.rvr.recStep = 6 then 7 else 3) ∧
    393 ∈ t.irq.pending) ∧
  -- RESTART_RECOVERY (R164)
  (∀ (lastGood : Option Nat) (ckOk : Bool) (s : State), pdOn 10 s = true → s.sys.acoresUp = true →
    heldBlk .rvr 0 s = false → s.rvr.recStep = 0 → s.lgr.entries = [] → mediaUp s = true → heldBlk .xmt 0 s = false →
    ∃ t, exec (.restartRecovery lastGood ckOk) s = .next t ∧
    t.rvr.recStep = (if (newestGen s).isSome then 6 else 7) ∧ t.rvr.chosen = (newestGen s).map Gen.gen)

/-- O32. Task and microword commands complete: under hypotheses on the state and the operands alone, exec answers a next
state with the effect written. -/
def Obligations.TaskCommandsComplete : Prop :=
  -- TASK_COMMIT (R182)
  (∀ (m : Master) (n : Fin 4) (s : State), Reach .asq n s → s.asq[n].pvalid = false →
    ∃ t, exec (.taskCommit m n) s = .next t ∧ t.asq[n].pvalid = true ∧ t.asq[n].cmdRes = 0 ∧ t.asq[n].ptask = s.asq[n].ptask) ∧
  -- TASK_COMMIT (R182)
  (∀ (m : Master) (n : Fin 4) (s : State), Reach .asq n s → s.asq[n].pvalid = true → EventRoom s →
    ∃ t, exec (.taskCommit m n) s = .next t ∧ t.asq[n] = { s.asq[n] with cmdRes := 1 } ∧ Recorded 0x0360 t) ∧
  -- TASK_CANCEL (R182)
  (∀ (m : Master) (n : Fin 4) (s : State), Reach .asq n s → promotable n s = false → s.asq[n].pvalid = true →
    ∃ t, exec (.taskCancel m n) s = .next t ∧ t.asq[n].pvalid = false ∧ t.asq[n].cmdRes = 0 ∧
    ∃ r, t.asq[n].results = s.asq[n].results ++ [r] ∧ r.status = 0x0A ∧ r.fail = 0xFFFF ∧ r.done = 0 ∧ r.time = 0) ∧
  -- TASK_PROMOTION (R183)
  (∀ (n : Fin 4) (s : State), promotable n s = true → (dispAt (bits (vget s.asq[n].ptask 0 0).toNat 31 24) s).valid = true →
    bits (vget s.asq[n].ptask 8 0).toNat 31 31 = 0 →
    ∃ t, exec (.taskPromotion n) s = .next t ∧ t.asq[n].atask = s.asq[n].ptask ∧ t.asq[n].avalid = true ∧
    t.asq[n].pvalid = false ∧ t.asq[n].phase = .running ∧ t.asq[n].us = s.us ∧
    t.asq[n].pc = (dispAt (bits (vget s.asq[n].ptask 0 0).toNat 31 24) s).addr) ∧
  -- MICROWORD_ISSUE (R169)
  (∀ (n : Fin 4) (a w : Nat) (s : State), asqLive n s = true → asqRuns s.asq[n] = true → s.asq[n].issued = false →
    boundary n s = s → fetchWord s.asq[n].pc s = some (a, w) → parityOf 128 w = false → inOpen a = false →
    bits (mwDpc w) 23 8 = 0 → dpcUnitgo (mwDpc w) = false → bits (mwDpc w) 31 24 = s.asq[n].levels →
    ∃ t, exec (.microwordIssue n) s = .next t ∧ t.asq[n].issued = true ∧ t.asq[n].word = w ∧ t.asq[n].pc = a ∧
    t.asq[n].issueAt = s.us ∧ t.asq[n].levels = s.asq[n].levels) ∧
  -- SEQ_NEXT (R170)
  (∀ (n : Fin 4) (s : State), SeqReady 0 n s → s.asq[n].pc ≠ 0x7FFF →
    ∃ t, exec (.seqNext n) s = .next t ∧ NextAt n ((s.asq[n].pc + 1) % 2 ^ 16) t) ∧
  -- SEQ_NEXT (R170)
  (∀ (n : Fin 4) (s : State), SeqReady 0 n s → s.asq[n].pc = 0x7FFF →
    ∃ t, exec (.seqNext n) s = .next t ∧ t.asq[n].avalid = false ∧ t.asq[n].phase = .halted) ∧
  -- SEQ_JUMP (R170)
  (∀ (n : Fin 4) (s : State), SeqReady 1 n s → (s.asq[n].openX = false ∨ inOpen (mwTarget s.asq[n].word) = true) →
    ∃ t, exec (.seqJump n) s = .next t ∧ NextAt n (mwTarget s.asq[n].word) t) ∧
  -- SEQ_CALL (R171)
  (∀ (n : Fin 4) (s : State), SeqReady 2 n s → s.asq[n].stack.length < 8 → s.asq[n].openX = false →
    ∃ t, exec (.seqCall n) s = .next t ∧ NextAt n (mwTarget s.asq[n].word) t ∧
    t.asq[n].stack = (s.asq[n].pc + 1) % 2 ^ 16 :: s.asq[n].stack) ∧
  -- SEQ_CALL (R171)
  (∀ (n : Fin 4) (s : State), SeqReady 2 n s → 8 ≤ s.asq[n].stack.length →
    ∃ t, exec (.seqCall n) s = .next t ∧ t.asq[n].avalid = false ∧ t.asq[n].phase = .halted) ∧
  -- SEQ_RET (R170)
  (∀ (n : Fin 4) (a : Nat) (l : List Nat) (s : State), SeqReady 3 n s → s.asq[n].stack = a :: l →
    condition n (mwCond s.asq[n].word) (mwParam s.asq[n].word) (waited n s) = true →
    ∃ t, exec (.seqRet n) s = .next t ∧ NextAt n (a % 2 ^ 16) t ∧ t.asq[n].stack = l) ∧
  -- SEQ_RET (R170)
  (∀ (n : Fin 4) (s : State), SeqReady 3 n s → s.asq[n].stack = [] → mwWait s.asq[n].word ≠ 1 →
    condition n (mwCond s.asq[n].word) (mwParam s.asq[n].word) s = true →
    ∃ t, exec (.seqRet n) s = .next t ∧ t.asq[n].avalid = false ∧ t.asq[n].phase = .idle ∧
    ∃ r, t.asq[n].results = s.asq[n].results ++ [r] ∧
    r.status = s.asq[n].forced.getD (bits (mwParam s.asq[n].word) 7 0) ∧ r.endpc = s.asq[n].pc) ∧
  -- SEQ_RET (R170)
  (∀ (n : Fin 4) (s : State), SeqReady 3 n s →
    condition n (mwCond s.asq[n].word) (mwParam s.asq[n].word) (waited n s) = false → s.asq[n].pc ≠ 0x7FFF →
    ∃ t, exec (.seqRet n) s = .next t ∧ NextAt n ((s.asq[n].pc + 1) % 2 ^ 16) t) ∧
  -- SEQ_BRT (R170)
  (∀ (n : Fin 4) (s : State), SeqReady 4 n s → s.asq[n].openX = false → s.asq[n].pc ≠ 0x7FFF →
    ∃ t, exec (.seqBrt n) s = .next t ∧ NextAt n
    (if condition n (mwCond s.asq[n].word) (mwParam s.asq[n].word) (waited n s) = true then mwTarget s.asq[n].word
    else (s.asq[n].pc + 1) % 2 ^ 16) t) ∧
  -- SEQ_BRF (R170)
  (∀ (n : Fin 4) (s : State), SeqReady 5 n s → s.asq[n].openX = false → s.asq[n].pc ≠ 0x7FFF →
    ∃ t, exec (.seqBrf n) s = .next t ∧ NextAt n
    (if condition n (mwCond s.asq[n].word) (mwParam s.asq[n].word) (waited n s) = true then (s.asq[n].pc + 1) % 2 ^ 16
    else mwTarget s.asq[n].word) t) ∧
  -- SEQ_DISPATCH (R170)
  (∀ (n : Fin 4) (k : Nat) (s : State), SeqReady 6 n s → s.asq[n].openX = false →
    k = (if (mwTarget s.asq[n].word).testBit 15 = true then bits (vget s.asq[n].atask 0 0).toNat 31 24
    else bits (mwTarget s.asq[n].word) 7 0) → (dispAt k (waited n s)).valid = true →
    ∃ t, exec (.seqDispatch n) s = .next t ∧ NextAt n ((dispAt k (waited n s)).addr % 2 ^ 16) t) ∧
  -- SEQ_LOOP (R170)
  (∀ (n : Fin 4) (s : State), SeqReady 7 n s → s.asq[n].cnt0 = 0 → s.asq[n].pc ≠ 0x7FFF →
    ∃ t, exec (.seqLoop n) s = .next t ∧ NextAt n ((s.asq[n].pc + 1) % 2 ^ 16) t) ∧
  -- SEQ_LOOP (R170)
  (∀ (n : Fin 4) (s : State), SeqReady 7 n s → s.asq[n].cnt0 ≠ 0 → s.asq[n].openX = false → mwCntop s.asq[n].word = 0 →
    ∃ t, exec (.seqLoop n) s = .next t ∧ NextAt n (mwTarget s.asq[n].word) t ∧ t.asq[n].cnt0 = s.asq[n].cnt0 - 1) ∧
  -- FAULT_REQUEST (R180)
  (∀ (n : Fin 4) (cause : Nat) (s : State), asqLive n s = true → s.asq[n].avalid = true → s.asq[n].reqFault = false →
    isWaiting s.asq[n] = false →
    ∃ t, exec (.faultRequest n cause) s = .next t ∧ t.asq[n].reqFault = true ∧ t.asq[n].faultCause = cause % 2 ^ 16 ∧
    t.asq[n].phase = s.asq[n].phase) ∧
  -- FAULT_REQUEST (R180)
  (∀ (n : Fin 4) (cause : Nat) (s : State), asqLive n s = true → s.asq[n].avalid = false → EventRoom s →
    ∃ t, exec (.faultRequest n cause) s = .next t ∧ t.asq = s.asq ∧ Recorded 0x0310 t) ∧
  -- WAIT_TIMEOUT (R173)
  (∀ (n : Fin 4) (s : State), asqLive n s = true → s.asq[n].avalid = true → s.asq[n].phase = .running →
    s.asq[n].issued = true → 2 ≤ mwWait s.asq[n].word → tmrNs (mwTmr s.asq[n].word) ≠ 0 → waitSat n s = false →
    ∃ t, exec (.waitTimeout n) s = .next t ∧ t.asq[n].phase = .abortHandler ∧ t.asq[n].stack = [] ∧ t.asq[n].forced = some 4 ∧
    t.asq[n].cause = 0 ∧ t.us = max s.us (s.asq[n].issueAt + tmrUs (mwTmr s.asq[n].word))) ∧
  -- ATOMIC_BOUND (R179)
  (∀ (n : Fin 4) (s : State), asqLive n s = true → asqRuns s.asq[n] = true → s.asq[n].inAtom = true →
    s.asq[n].atomOver = false →
    ∃ t, exec (.atomicBound n) s = .next t ∧ t.asq[n] = { s.asq[n] with atomOver := true } ∧
    t.us = max s.us (s.asq[n].atomAt + zeroAsOne (fld .atommax n 0 9 0 s)))

/-- O33. Abort, activation, channel, counter and decoder commands complete: under hypotheses on the state and the operands
alone, exec answers a next state with the effect written. -/
def Obligations.SequencerAndChannelCommandsComplete : Prop :=
  -- ASQ_ABORT (R185)
  (∀ (m : Master) (n : Fin 4) (v : Word) (s : State), Reach .asq n s → promotable n s = false → s.asq[n].avalid = false →
    s.asq[n].pvalid = true → bits (vget s.asq[n].ptask 2 0).toNat 31 20 = bits v.toNat 11 0 →
    ∃ t, exec (.asqAbort m n v) s = .next t ∧ t.asq[n].abDone = true ∧ t.asq[n].abRes = 1 ∧ t.asq[n].pvalid = false ∧
    ∃ r, t.asq[n].results = s.asq[n].results ++ [r] ∧ r.status = 0x0A) ∧
  -- TASK_DEADLINE (R187)
  (∀ (n : Fin 4) (s : State), asqLive n s = true → s.asq[n].avalid = true → s.asq[n].dlPassed = false →
    isWaiting s.asq[n] = false →
    ∃ t, exec (.taskDeadline n) s = .next t ∧ t.asq[n] = { s.asq[n] with dlPassed := true, reqDeadline := true } ∧
    t.us = max s.us (s.asq[n].us + taskDeadlineUs (bits (vget s.asq[n].atask 7 0).toNat 31 0))) ∧
  -- RESULT_POP (R183)
  (∀ (m : Master) (n : Fin 4) (v : Word) (s : State), Reach .asq n s →
    ∃ t, exec (.resultPop m n v) s = .next t ∧ t.asq[n].results = s.asq[n].results.drop 1 ∧
    t.asq[n] = { s.asq[n] with results := t.asq[n].results }) ∧
  -- MICROCODE_ACTIVATE (R191)
  (∀ (img : McObj) (s : State), secRuns s = true → s.sec.mbDone = true → s.cst.staged = none → s.cst.act = .idle →
    mcReason img s = 0 →
    ∃ t, exec (.microcodeActivate img) s = .next t ∧ t.sec.mbDone = true ∧ t.sec.mbRes = 0 ∧ t.cst.act = .armed ∧
    t.cst.staged.isSome = true) ∧
  -- MICROCODE_ACTIVATE (R191)
  (∀ (img : McObj) (s : State), secRuns s = true → s.sec.mbDone = true → s.cst.staged = none → mcReason img s ≠ 0 →
    ∃ t, exec (.microcodeActivate img) s = .next t ∧ t.sec.mbDone = true ∧ t.sec.mbRes = mcRes (mcReason img s) ∧ t.cst = s.cst) ∧
  -- ARM (R435)
  (∀ (v : Word) (i : McImage) (s : State), Reach .cst 0 s → s.cst.staged = some i → s.cst.act = .idle →
    ∃ t, exec (.arm (.core .sec) v) s = .next t ∧ t.cst.act = .armed ∧ t.cst.armAt = now s ∧
    ∀ n ∈ channels s, t.asq[n].actHold = true) ∧
  -- ARM (R435)
  (∀ (v : Word) (s : State), Reach .cst 0 s → s.cst.staged = none →
    ∃ t, exec (.arm (.core .sec) v) s = .next t ∧ t.cst = s.cst ∧ t.asq = s.asq) ∧
  -- ACTIVATION_COPY (R191)
  (∀ (i : McImage) (s : State), s.cst.staged = some i → s.cst.act = .armed → pdOn 13 s = true → heldBlk .cst 0 s = false →
    busyChannels s = [] → now s ≤ s.cst.armAt + holdMax s →
    ∃ t, exec .activationCopy s = .next t ∧ t.cst.act = .idle ∧ t.cst.staged = none ∧
    (i.opn = false → t.cst.patch = loadWords i.words ∧ t.cst.pVer = i.ver ∧ t.cst.openReg = s.cst.openReg) ∧
    (i.opn = true → t.cst.openReg = loadWords i.words ∧ t.cst.oVer = i.ver ∧ t.cst.patch = s.cst.patch)) ∧
  -- ACTIVATION_ABANDON (R191)
  (∀ (i : McImage) (s : State), s.cst.staged = some i → s.cst.act = .armed → pdOn 13 s = true → heldBlk .cst 0 s = false →
    (busyChannels s ≠ [] ∨ s.cst.armAt + holdMax s < now s) →
    ∃ t, exec .activationAbandon s = .next t ∧ t.cst.act = .abandoned ∧ t.cst.staged = none ∧ t.cst.patch = s.cst.patch ∧
    t.cst.openReg = s.cst.openReg ∧ t.us = max s.us ((s.cst.armAt + holdMax s) * 1000)) ∧
  -- OPENCTL_WRITE (R194)
  (∀ (v : Word) (s : State), Reach .cst 0 s →
    ∃ t, exec (.openctlWrite (.core .sec) v) s = .next t ∧ t.cst = { s.cst with openEn := v.toNat.testBit 0 }) ∧
  -- OPENCTL_WRITE (R194)
  (∀ (m : Master) (v : Word) (s : State), Reach .cst 0 s → m ≠ .core .sec →
    ∃ t, exec (.openctlWrite m v) s = .next t ∧ t.cst = s.cst) ∧
  -- READER_CHECK (R66)
  (∀ (n : Fin 4) (open0 short0 open1 short1 : Bool) (s : State), rwcLive n s = true → s.asq[n].headChk = true →
    ∃ t, exec (.readerCheck n open0 short0 open1 short1) s = .next t ∧ t.asq[n].headChk = false ∧
    t.asq[n].headOk = (!open0 && !short0 && !(optical s && s.asq[n].head / 4 != n.val) && !(headRetired n s.asq[n].head s))) ∧
  -- CLOCK_FIELD (R201)
  (∀ (n : Fin 4) (meas : ClockMeas) (s : State), rwcLive n s = true → optical s = false →
    ∃ t, exec (.clockField n meas) s = .next t ∧ t.rwc[n].inGap = false) ∧
  -- SYNC_A_DECISION (R206)
  (∀ (n : Fin 4) (cands : List SyncCand) (s : State), rwcLive n s = true →
    ∃ t, exec (.syncADecision n cands) s = .next t ∧ t.rwc[n].aClosed = true ∧
    t.rwc[n].aCand = if s.rwc[n].searching then bestCand (-16) 16 cands else s.rwc[n].aCand) ∧
  -- SYNC_B_DECISION (R207)
  (∀ (n : Fin 4) (cands : List SyncCand) (s : State), rwcLive n s = true → s.rwc[n].searching = true →
    ∃ t, exec (.syncBDecision n cands) s = .next t ∧ t.rwc[n].searching = false ∧
    t.rwc[n].outcome = (framing s.rwc[n].aCand cands).1) ∧
  -- BLIND_FRAMING (R210)
  (∀ (n : Fin 4) (d : Int) (w : Nat) (s : State), rwcLive n s = true → s.rwc[n].blindPend = true → -2 ≤ d → d ≤ 2 →
    w * 100 ≤ min 100 (fld .blindcfg n 0 6 0 s) * codeChecks n s →
    ∃ t, exec (.blindFraming n [(d, w)]) s = .next t ∧ t.rwc[n].blindPend = false ∧ t.rwc[n].outcome = .blindOk ∧
    t.rwc[n].boff = d) ∧
  -- BLIND_FRAMING (R210)
  (∀ (n : Fin 4) (s : State), rwcLive n s = true → s.rwc[n].blindPend = true →
    ∃ t, exec (.blindFraming n []) s = .next t ∧ t.rwc[n].blindPend = false ∧ t.rwc[n].outcome = .blindFail) ∧
  -- DEFECT_SPAN (R212)
  (∀ (n : Fin 4) (asperity sat : Bool) (s : State), rwcLive n s = true → s.rwc[n].inDefect = false →
    ∃ t, exec (.defectSpan n asperity sat) s = .next t ∧ t.rwc[n].inDefect = true ∧ t.rwc[n].defect = true) ∧
  -- LOOP_LIMIT (R211)
  (∀ (n : Fin 4) (loop : Fin 6) (s : State), rwcLive n s = true → s.rwc[n].loopen.testBit loop = true →
    loopsFrozen n s = false →
    ∃ t, exec (.loopLimit n loop) s = .next t ∧ t.rwc[n].loopLim = s.rwc[n].loopLim ||| 1 <<< loop.val) ∧
  -- PMON_SNAP (R219)
  (∀ (b : PmonBlock) (s : State), Reach (pmonBlk b).1 (pmonBlk b).2.1 s →
    ∃ t, exec (.pmonSnap b) s = .next t ∧
    match b with
    | .rwc n => t.rwc[n].shadow = s.rwc[n].cnt ∧ t.rwc[n].cnt = s.rwc[n].cnt
    | .ldp => t.ldp.shadow = s.ldp.cnt ∧ t.ldp.cnt = s.ldp.cnt
    | .sve n => t.sve[n].cntSh = s.sve[n].cnt ∧ t.sve[n].cnt = s.sve[n].cnt
    | .opt => t.opt.cntSh = s.opt.cnt ∧ t.opt.cnt = s.opt.cnt
    | .vlk => t.vlk.cntSh = s.vlk.cnt ∧ t.vlk.cnt = s.vlk.cnt) ∧
  -- PMON_CLR (R219)
  (∀ (b : PmonBlock) (s : State), Reach (pmonBlk b).1 (pmonBlk b).2.1 s →
    ∃ t, exec (.pmonClr b) s = .next t ∧
    match b with
    | .rwc n => t.rwc[n].cnt = Vector.replicate 24 0 ∧ t.rwc[n].wrap = 0 ∧ t.rwc[n].shadow = s.rwc[n].shadow
    | .ldp => t.ldp.cnt = Vector.replicate 12 0 ∧ t.ldp.wrap = 0 ∧ t.ldp.shadow = s.ldp.shadow
    | .sve n => t.sve[n].cnt = Vector.replicate 8 0 ∧ t.sve[n].wrap = 0 ∧ t.sve[n].cntSh = s.sve[n].cntSh
    | .opt => t.opt.cnt = Vector.replicate 16 0 ∧ t.opt.wrap = 0 ∧ t.opt.cntSh = s.opt.cntSh
    | .vlk => t.vlk.cnt = Vector.replicate 8 0 ∧ t.vlk.wrap = 0 ∧ t.vlk.cntSh = s.vlk.cntSh) ∧
  -- CODEWORD_DECODE (R229)
  (∀ (i : Nat) (c : Codeword) (r : DecodeRes) (s : State), ldpLive s = true → s.ldp.active[i]? = some c → c.blk = none →
    c.frame = none → c.recov = false → r.iters ≤ c.limit → r.crcOk = true → tagGood c r = true → tornSector c s = false →
    ∃ t, exec (.codewordDecode i r) s = .next t ∧ t.ldp.lastFail[finCh c.ch] = false ∧ t.ldp.waiting = s.ldp.waiting) ∧
  -- CODEWORD_DECODE (R229)
  (∀ (i : Nat) (c : Codeword) (r : DecodeRes) (s : State), ldpLive s = true → s.ldp.active[i]? = some c →
    c.squeezed = true → (c.limit < r.iters ∨ tornSector c s = true) →
    ∃ t, exec (.codewordDecode i r) s = .next t ∧ t.ldp.waiting = s.ldp.waiting ++ [c] ∧ t.ldp.lastFail = s.ldp.lastFail) ∧
  -- SQUEEZE_REDECODE (R227)
  (∀ (c : Codeword) (rest : List Codeword) (r : DecodeRes) (s : State), s.ldp.waiting = c :: rest → ldpLive s = true →
    squeezeOn s = false → c.blk = none → c.frame = none → c.recov = false → r.iters ≤ fpIter s → r.crcOk = true → tagGood c r = true →
    tornSector c s = false →
    ∃ t, exec (.squeezeRedecode r) s = .next t ∧ t.ldp.waiting = rest ∧ t.ldp.lastFail[finCh c.ch] = false) ∧
  -- CLUSTER_DECODE (R236)
  (∀ (n : Fin 4) (addr : Nat) (cols : List (Nat × Nat)) (sectors : List SectorCheck) (s : State), ldpLive s = true → optical s = true →
    chanExists n s = true → (∃ x ∈ cols, 32 < 2 * x.1 + x.2) →
    (sectors.all fun x => x.crcOk && x.tagOk) = true → EventRoom s →
    ∃ t, exec (.clusterDecode n addr cols sectors) s = .next t ∧ Recorded 0x0540 t ∧ 358 ∈ t.irq.pending) ∧
  -- CLUSTER_DECODE (R236)
  (∀ (n : Fin 4) (addr : Nat) (cols : List (Nat × Nat)) (sectors : List SectorCheck) (s : State), ldpLive s = true → optical s = true →
    chanExists n s = true → (∀ x ∈ cols, 2 * x.1 + x.2 ≤ 32) →
    (sectors.all fun x => x.crcOk && x.tagOk) = true →
    exec (.clusterDecode n addr cols sectors) s = .next (ldpBump 10 cols.length s))

/-- O34. Defect list and servo commands complete: under hypotheses on the state and the operands alone, exec answers a next
state with the effect written. -/
def Obligations.DefectAndServoCommandsComplete : Prop :=
  -- RETAINED_SLOT_FREE (R229)
  (∀ (m : Master) (v : Word) (s : State), Reach .ldp 0 s → v.toNat.testBit 31 = true →
    (s.ldp.retained.any (·.slot == bits v.toNat 7 0)) = true →
    ∃ t, exec (.retainedSlotFree m v) s = .next t ∧ t.ldp.retained = s.ldp.retained.filter (·.slot != bits v.toNat 7 0) ∧
    t.ldp.rsWarned = false) ∧
  -- FAILURE_POP (R229)
  (∀ (m : Master) (n : Fin 4) (v : Word) (s : State), Reach .ldp 0 s → v.toNat.testBit 0 = true →
    ∃ t, exec (.failurePop m n v) s = .next t ∧ t.ldp.ff[n] = s.ldp.ff[n].tail) ∧
  -- DEFECT_INSERT (R237)
  (∀ (m : Master) (surf : Fin 64) (s : State), Reach .tpe 0 s → s.tpe.dlBusy = false → (dlDir surf (dlView surf s)).valid = true →
    (dlDir surf (dlView surf s)).retired = false → dlList surf (dlView surf s) = [] →
    ((dlEntry s).pending = true ∨ trackBusy surf (dlEntry s).track s = false) →
    ∃ t, exec (.defectInsert m surf) s = .next t ∧ t.tpe.dlDone = true ∧ t.tpe.dlBusy = false ∧ t.tpe.dlRes = 0 ∧
    t.tpe.dlIndex = 0) ∧
  -- DEFECT_INSERT (R237)
  (∀ (m : Master) (surf : Fin 64) (s : State), Reach .tpe 0 s → s.tpe.dlBusy = false → (dlEntry s).pending = false →
    trackBusy surf (dlEntry s).track s = true →
    ∃ t, exec (.defectInsert m surf) s = .next t ∧ t.tpe.dlDone = false ∧ t.tpe.dlBusy = true ∧
    t.tpe.dlHeld = some (surf.val, dlEntry s) ∧ t.mem = s.mem) ∧
  -- DEFECT_DELETE (R237)
  (∀ (m : Master) (surf : Fin 64) (s : State), Reach .tpe 0 s → s.tpe.dlBusy = false → dlEntry s ∈ dlList surf (dlView surf s) →
    ∃ t, exec (.defectDelete m surf) s = .next t ∧ t.tpe.dlDone = true ∧ t.tpe.dlRes = 0) ∧
  -- DEFECT_DELETE (R237)
  (∀ (m : Master) (surf : Fin 64) (s : State), Reach .tpe 0 s → s.tpe.dlBusy = false → dlEntry s ∉ dlList surf (dlView surf s) →
    ∃ t, exec (.defectDelete m surf) s = .next t ∧ t.tpe.dlDone = true ∧ t.tpe.dlRes = 3 ∧ t.mem = (dlView surf s).mem) ∧
  -- DEFECT_CLEAR_PENDING (R238)
  (∀ (m : Master) (surf : Fin 64) (x : Defect) (s : State), Reach .tpe 0 s → s.tpe.dlBusy = false →
    x ∈ dlList surf (dlView surf s) → x.pending = true → x.track = (dlEntry s).track →
    (dlSpan (dlEntry s)).1 ≤ (dlSpan x).1 → (dlSpan x).2 ≤ (dlSpan (dlEntry s)).2 →
    ∃ t, exec (.defectClearPending m surf) s = .next t ∧ t.tpe.dlDone = true ∧ t.tpe.dlRes = 0) ∧
  -- DEFECT_INSERT_RELEASE (R239)
  (∀ (h : Nat) (d : Defect) (s : State), s.tpe.dlHeld = some (h, d) → pdOn 13 s = true → heldBlk .tpe 0 s = false →
    trackBusy h d.track s = false → (dlDir h (dlFetch h s)).valid = true → (dlDir h (dlFetch h s)).retired = false →
    dlList h (dlFetch h s) = [] →
    ∃ t, exec .defectInsertRelease s = .next t ∧ t.tpe.dlHeld = none ∧ t.tpe.dlDone = true ∧ t.tpe.dlRes = 0 ∧ t.tpe.dlIndex = 0) ∧
  -- DEFECT_INSERT_RELEASE (R239)
  (∀ (h : Nat) (d : Defect) (s : State), s.tpe.dlHeld = some (h, d) → pdOn 13 s = true → heldBlk .tpe 0 s = false →
    trackBusy h d.track s = false → (dlDir h (dlFetch h s)).retired = true →
    ∃ t, exec .defectInsertRelease s = .next t ∧ t.tpe.dlHeld = none ∧ t.tpe.dlDone = true ∧ t.tpe.dlRes = 4) ∧
  -- SAMPLE_TRIGGER (R241)
  (∀ (n : Fin 4) (inp : ServoIn) (s : State), sveLive n s = true → optical s = false → s.sve[sveOf n].run = false →
    s.sve[sveOf n].seeking = false → s.sve[sveOf n].seekPend = false → inp.late = 0 →
    ∃ t, exec (.sampleTrigger n inp) s = .next t ∧ t.sve[sveOf n].wedge = inp.wedge ∧ t.sve[sveOf n].onTrack = false) ∧
  -- SYNC_TIMEOUT (R251)
  (∀ (n : Fin 4) (inp : ServoIn) (s : State), sveLive n s = true → optical s = false → s.sve[sveOf n].run = false →
    s.sve[sveOf n].seeking = false → s.sve[sveOf n].seekPend = false →
    ∃ t, exec (.syncTimeout n inp) s = .next t ∧ t.sve[sveOf n].wedge = inp.wedge ∧ t.sve[sveOf n].pesOk = false ∧
    t.sve[sveOf n].onTrack = false) ∧
  -- TABLE_SWAP_GO (R248)
  (∀ (m : Master) (n : Fin 5) (s : State), Reach .sve n s → s.sve[n].pend = false →
    checkTable s.sve[n].shadow (fld .sveCfg n 0 15 0 s) = none →
    ∃ t, exec (.tableSwapGo m n) s = .next t ∧ t.sve[n].pend = true ∧ t.sve[n].swapped = true ∧ t.sve[n].res = 0) ∧
  -- TABLE_SWAP_GO (R248)
  (∀ (m : Master) (n : Fin 5) (r row : Nat) (s : State), Reach .sve n s → s.sve[n].pend = false → EventRoom s →
    checkTable s.sve[n].shadow (fld .sveCfg n 0 15 0 s) = some (r, some row) →
    ∃ t, exec (.tableSwapGo m n) s = .next t ∧ t.sve[n] = { s.sve[n] with res := 2, reason := r, row := row } ∧
    Recorded 0x0604 t) ∧
  -- TABLE_SWAP (R248)
  (∀ (n : Fin 5) (s : State), s.sve[n].pend = true → heldBlk .sve n s = false → s.sve[n].run = false →
    s.sve[n].unitPend = none → s.sve[n].mailPend = false →
    ∃ t, exec (.tableSwap n) s = .next t ∧ t.sve[n].active = s.sve[n].shadow ∧ t.sve[n].shadow = s.sve[n].active ∧
    t.sve[n].pend = false ∧ t.sve[n].res = 1) ∧
  -- MAIL_COMMIT (R249)
  (∀ (m : Master) (n : Fin 5) (s : State), Reach .sve n s →
    ∃ t, exec (.mailCommit m n) s = .next t ∧ t.sve[n] = { s.sve[n] with mailPend := true }) ∧
  -- ENGINE_RUN (R248)
  (∀ (m : Master) (n : Fin 5) (v : Word) (s : State), Reach .sve n s → v.toNat.testBit 31 = true → s.sve[n].swapped = true →
    s.sve[n].retract = false → s.sve[n].run = false →
    ∃ t, exec (.engineRun m n v) s = .next t ∧ t.sve[n].run = true) ∧
  -- ENGINE_RUN (R248)
  (∀ (m : Master) (n : Fin 5) (v : Word) (s : State), Reach .sve n s → v.toNat.testBit 31 = true →
    (s.sve[n].swapped = false ∨ s.sve[n].retract = true) →
    ∃ t, exec (.engineRun m n v) s = .next t ∧ t.sve = s.sve) ∧
  -- ENGINE_RUN (R248)
  (∀ (m : Master) (n : Fin 5) (v : Word) (s : State), Reach .sve n s → v.toNat.testBit 31 = false → s.sve[n].run = true →
    s.sve[n].loaded = false →
    ∃ t, exec (.engineRun m n v) s = .next t ∧ t.sve[n] = { s.sve[n] with run := false, onTrack := false }) ∧
  -- SEEK_TIMEOUT (R254)
  (∀ (n : Fin 4) (s : State), s.sve[sveOf n].seeking = true → s.sve[sveOf n].move = .none →
    ∃ t, exec (.seekTimeout n) s = .next t ∧ t.sve[sveOf n].seeking = false ∧ t.sve[sveOf n].seekOk = false ∧
    t.us = max s.us (s.sve[sveOf n].seekUs + 10 * fld .seekcfg n 0 31 16 s)) ∧
  -- SHOCK_CONVERSION (R258)
  (∀ (n : Fin 4) (axis : Fin 2) (val : Int) (s : State), sveLive n s = true → optical s = false →
    s.sve[sveOf n].shockIgn[axis] = false → val.natAbs ≤ fld .shock n 0 31 16 s →
    ∃ t, exec (.shockConversion n axis val) s = .next t ∧
    t.sve[sveOf n].shockWarn[axis] = decide (fld .shock n 0 15 0 s < val.natAbs)) ∧
  -- SHOCK_SENSOR_FAULT (R66)
  (∀ (n : Fin 4) (axis : Fin 2) (s : State), sveLive n s = true → optical s = false →
    s.sve[sveOf n].shockIgn[axis] = false → EventRoom s →
    ∃ t, exec (.shockSensorFault n axis) s = .next t ∧ t.sve[sveOf n].shockIgn[axis] = true ∧
    t.sve[sveOf n].shockWarn[axis] = false ∧ Recorded 0x0613 t) ∧
  -- CDA_SHORT (R66)
  (∀ (n k : Fin 4) (s : State), chanExists n s = true → chanOn n s = true → s.sve[sveOf n].cdaFault.contains k.val = false →
    2 ≤ k.val →
    ∃ t, exec (.cdaShort n k) s = .next t ∧ k.val ∈ t.sve[sveOf n].cdaFault ∧
    (k.val = 2 → t.sve[sveOf n].unloading = s.sve[sveOf n].loaded ∧ t.sve[sveOf n].onTrack = false)) ∧
  -- RETRACT_GO (R259)
  (∀ (m : Master) (n : Fin 4) (s : State), Reach .sve n s → s.sve[sveOf n].retract = false →
    ∃ t, exec (.retractGo m n) s = .next t ∧ t.sve[sveOf n].retract = true ∧ t.sve[sveOf n].run = false ∧
    t.sve[sveOf n].onTrack = false ∧ t.sve[sveOf n].hold = false ∧ t.sve[sveOf n].cda[1] = 0x8000) ∧
  -- RETRACT_END (R259)
  (∀ (n : Fin 4) (s : State), s.sve[sveOf n].retract = true → s.sup.loss = false →
    ∃ t, exec (.retractEnd n) s = .next t ∧ t.sve[sveOf n].retract = false ∧ t.sve[sveOf n].loaded = false ∧
    t.sve[sveOf n].cda[0] = 0x8000 ∧
    t.us = max s.us (s.sve[sveOf n].retAt + 1000 * zeroAsOne (fld .retractReg n 0 23 16 s))) ∧
  -- FOCUS_LOST (R261)
  (∀ (n : Fin 4) (s : State), s.sve[sveOf n].hold = true →
    ∃ t, exec (.focusLost n) s = .next t ∧ t.sve[sveOf n].hold = false ∧ t.sve[sveOf n].loaded = false ∧
    t.sve[sveOf n].onTrack = false ∧ t.us = max s.us (s.sve[sveOf n].holdUs + min 400 (zeroAsOne (fld .holdReg n 0 8 0 s)))) ∧
  -- JUMP_GO (R262)
  (∀ (m : Master) (n : Fin 4) (v : Word) (s : State), Reach .sve n s → optical s = true → s.sve[sveOf n].retract = false →
    s.sve[sveOf n].move = .none →
    ∃ t, exec (.jumpGo m n v) s = .next t ∧ t.sve[sveOf n].move ≠ .none ∧ t.sve[sveOf n].onTrack = false ∧
    t.sve[sveOf n].seekOk = false ∧ t.sve[sveOf n].seekUs = s.us) ∧
  -- FOCUS_SWEEP_GO (R263)
  (∀ (m : Master) (n : Fin 4) (v : Word) (s : State), Reach .sve n s → optical s = true → s.sve[sveOf n].retract = false →
    ∃ t, exec (.focusSweepGo m n v) s = .next t ∧ (∃ c, t.sve[sveOf n].move = .sweep c ∧ t.sve[sveOf n].cda[0] = c) ∧
    t.sve[sveOf n].onTrack = false) ∧
  -- TRACE_START (R265)
  (∀ (m : Master) (n : Fin 5) (v : Word) (s : State), Reach .sve n s → v.toNat.testBit 30 = false →
    ∃ t, exec (.traceStart m n v) s = .next t ∧ t.sve[n].trRun = true ∧ t.sve[n].trTrig = false ∧ t.sve[n].trIdx = 0 ∧
    t.sve[n].trNext = 0 ∧ t.sve[n].trWrap = false) ∧
  -- TRACE_STOP (R265)
  (∀ (m : Master) (n : Fin 5) (v : Word) (s u : State), Reach .sve n s → v.toNat.testBit 31 = false →
    s.sve[n].trRun = true → s.sve[n].trTrig = false → u = storeFields .trctl n 0 (v.toNat ||| 2 ^ 30) s →
    fld .trctl n 0 29 28 u ≠ 0 →
    ∃ t, exec (.traceStop m n v) s = .next t ∧ t.sve[n].trTrig = true ∧ t.sve[n].trIdx = s.sve[n].trNext ∧
    t.sve[n].trLeft = fld .trctl n 0 12 0 u) ∧
  -- TRACE_READ (R265)
  (∀ (m : Master) (n : Fin 5) (s : State), Reach .sve n s →
    ∃ t, exec (.traceRead m n) s = .next t ∧ t.busData = sget 0 (s.sve[n].trChan * 8192 + s.sve[n].trAddr) s.sve[n].trace ∧
    t.sve[n].trAddr = (if s.sve[n].trInc = true then (s.sve[n].trAddr + 1) % 8192 else s.sve[n].trAddr))

/-- O35. Spindle commands complete: under hypotheses on the state and the operands alone, exec answers a next state with the
effect written. -/
def Obligations.SpindleCommandsComplete : Prop :=
  -- START (R275)
  (∀ (m : Master) (s : State), Reach .spn 0 s → startReason s = 0 → s.clk.xo40failed = false → s.spn.turning = false → EventRoom s →
    ∃ t, exec (.start m) s = .next t ∧ t.spn.state = .align ∧ t.spn.attempt = 1 ∧ t.spn.step = 0 ∧
    t.spn.gates = stepGates 0 s ∧ Recorded 0x0701 t) ∧
  -- START (R275)
  (∀ (m : Master) (s : State), Reach .spn 0 s → startReason s = 0 → s.clk.xo40failed = false → s.spn.turning = true →
    ∃ t, exec (.start m) s = .next t ∧ t.spn.state = .recover ∧ t.spn.gates = 0 ∧ t.spn.locked = false ∧ t.spn.lostAt = now s) ∧
  -- START (R275)
  (∀ (m : Master) (s : State), Reach .spn 0 s → startReason s ≠ 0 → EventRoom s →
    ∃ t, exec (.start m) s = .next t ∧ t.spn = s.spn ∧ Recorded 0x0704 t) ∧
  -- BRAKE (R282)
  (∀ (m : Master) (s : State), Reach .spn 0 s → s.spn.state = .atSpeed → s.spn.brk = none →
    ∃ t, exec (.brake m) s = .next t ∧ t.spn.unlReq = true ∧ t.spn.brk = some .unload ∧ t.spn.brkCause = 0 ∧
    t.spn.state = .atSpeed) ∧
  -- BRAKE_ENTRY (R282)
  (∀ s : State, spnLive s = true → anyLoaded s = false → s.spn.brk = some .unload → EventRoom s →
    ∃ t, exec .brakeEntry s = .next t ∧ t.spn.state = .brake ∧ t.spn.locked = false ∧ t.spn.brkAt = now s ∧
    (s.spn.chopFlt = true → t.spn.gates = shortGates s) ∧ Recorded 0x0750 t) ∧
  -- COAST (R275)
  (∀ (m : Master) (s : State), Reach .spn 0 s → s.spn.state = .atSpeed → EventRoom s →
    ∃ t, exec (.coast m) s = .next t ∧ t.spn.state = .coast ∧ t.spn.gates = 0 ∧ t.spn.locked = false ∧ t.spn.brk = none ∧
    Recorded 0x0750 t) ∧
  -- CLRF (R284)
  (∀ (m : Master) (s : State), Reach .spn 0 s → s.spn.state = .faulted → s.spn.turning = false →
    ∃ t, exec (.clrf m) s = .next t ∧ t.spn = { s.spn with latched := false, chopFlt := false, state := .stopped, openPhase := none }) ∧
  -- ALIGN_DONE (R275)
  (∀ s : State, spnLive s = true → s.spn.state = .align →
    ∃ t, exec .alignDone s = .next t ∧ t.spn.state = .openLoop ∧ t.spn.openAt = s.us ∧ t.spn.turning = true) ∧
  -- SPINUP_ATTEMPT_TIMEOUT (R277)
  (∀ s : State, spnLive s = true → s.spn.state = .openLoop →
    ∃ t, exec .spinupAttemptTimeout s = .next t ∧ t.us = max s.us (s.spn.openAt + 1000000) ∧
    (s.spn.attempt < 3 → t.spn.state = .align ∧ t.spn.attempt = s.spn.attempt + 1) ∧
    (3 ≤ s.spn.attempt → t.spn.state = .faulted ∧ t.spn.latched = true ∧ t.spn.gates = 0 ∧ t.spn.cause = 3)) ∧
  -- PWM_CENTRE (R272)
  (∀ (iu iv : Int) (vmot : Nat) (s : State), spnLive s = true → s.spn.duty = 0 → s.spn.shift = false →
    ∃ t, exec (.pwmCentre iu iv vmot false) s = .next t ∧ t.spn.vmot = vmot ∧ t.spn.pred = 0 ∧
    t.spn.duty ≤ fld .pwmcfg 0 0 7 0 s * 128) ∧
  -- BEMF_CROSSING (R268)
  (∀ (period : Nat) (s : State), spnLive s = true → s.spn.turning = true → s.spn.state = .openLoop →
    s.spn.period = 0xFFFFFF →
    ∃ t, exec (.bemfCrossing period (commSlope s.spn.step s)) s = .next t ∧ t.spn.period = min period 0xFFFFFE ∧
    t.spn.qual = 0 ∧ t.spn.opp = 0) ∧
  -- COMMUTATION (R268)
  (∀ s : State, spnLive s = true → s.spn.state = .atSpeed → spnDriving s = true →
    ∃ t, exec (.commutation false) s = .next t ∧ t.spn.step = (s.spn.step + 1) % 6 ∧
    t.spn.gates = stepGates ((s.spn.step + 1) % 6) s) ∧
  -- FLOAT_PERIOD_END (R279)
  (∀ (k : Fin 6) (period : Nat) (s : State), spnLive s = true → s.spn.state = .rectify → s.spn.gates = 0 →
    s.spn.unlReq = true →
    ∃ t, exec (.floatPeriodEnd (some (k, period))) s = .next t ∧ t.spn.step = k.val ∧ t.spn.period = min period 0xFFFFFE ∧
    t.spn.gates = stepGates k.val s) ∧
  -- RECOVERY_TIMEOUT (R279)
  (∀ s : State, spnLive s = true → s.spn.brk = none → s.spn.state = .recover → dirtySectors s = false →
    ∃ t, exec .recoveryTimeout s = .next t ∧ t.spn.cause = 0x32 ∧ t.spn.brk = some .unload ∧ t.spn.unlReq = true ∧
    t.spn.gates = 0) ∧
  -- MOTOR_RAIL_THRESHOLD (R283)
  (∀ (mv : Nat) (s : State),
    ∃ t, exec (.motorRailThreshold mv) s = .next t ∧ t.spn.vmot = mv ∧
    (pdOn 13 s = true → (13800 ≤ mv → s.spn.chopFlt = false → t.spn.chopOn = true) ∧ (mv ≤ 13200 → t.spn.chopOn = false) ∧
    (13200 < mv → mv < 13800 → t.spn.chopOn = s.spn.chopOn)) ∧
    (pdOn 13 s = false → t.spn = { s.spn with vmot := mv })) ∧
  -- CHOPPER_FAULT (R284)
  (∀ (mv : Nat) (s : State), spnLive s = true → s.spn.chopOn = true → s.spn.chopFlt = false → s.spn.state ≠ .brake → EventRoom s →
    ∃ t, exec (.chopperFault 0 mv) s = .next t ∧ t.spn.chopFlt = true ∧ t.spn.chopOn = false ∧ t.spn.cause = 0x40 ∧
    379 ∈ t.irq.pending ∧ Recorded 0x0740 t) ∧
  -- CHOPPER_CONDUCTING (R284)
  (∀ (cur : Nat) (s : State), spnLive s = true → s.spn.chopOn = false → fld .brkcfg 0 0 23 16 s < cur → EventRoom s →
    ∃ t, exec (.chopperConducting cur) s = .next t ∧ t.spn.chopFlt = true ∧ t.spn.cause = 0x41 ∧ 379 ∈ t.irq.pending ∧
    Recorded 0x0741 t) ∧
  -- RAIL_OVERVOLTAGE (R286)
  (∀ (mv : Nat) (s : State), s.sys.aux = true → pdOn 13 s = true → 16000 ≤ mv → EventRoom s →
    ∃ t, exec (.railOvervoltage mv) s = .next t ∧ t.spn.state = .faulted ∧ t.spn.latched = true ∧ t.spn.gates = 0 ∧
    t.spn.cause = 0x30 ∧ t.spn.vmot = mv ∧ 380 ∈ t.irq.pending ∧ (s.spn.locked = false → Recorded 0x0C30 t)) ∧
  -- RAIL_OVERVOLTAGE (R286)
  (∀ (mv : Nat) (s : State), s.sys.aux = true → pdOn 13 s = false → 16000 ≤ mv → EventRoom s →
    ∃ t, exec (.railOvervoltage mv) s = .next t ∧ t.spn = { s.spn with vmot := mv } ∧ Recorded 0x0C30 t) ∧
  -- SPN_FLT_N_LOW (R66)
  (∀ s : State, pdOn 13 s = true →
    ∃ t, exec .spnFltNLow s = .next t ∧ t.spn.state = .faulted ∧ t.spn.latched = true ∧ t.spn.gates = 0 ∧
    t.spn.cause = 0x11 ∧ t.spn.unlReq = true) ∧
  -- PHASE_OPEN (R66)
  (∀ (ph : Fin 3) (s : State), spnLive s = true → s.spn.state = .atSpeed → spnDriving s = true →
    ∃ t, exec (.phaseOpen ph) s = .next t ∧ t.spn.gates = 0 ∧ t.spn.locked = false ∧ t.spn.cause = 0x10 ∧
    t.spn.unlReq = true ∧ t.spn.brk = some .unload ∧ t.spn.brkCause = 2) ∧
  -- PHASE_OPEN (R66)
  (∀ (ph : Fin 3) (s : State), spnLive s = true → s.spn.state = .openLoop → spnDriving s = true →
    ∃ t, exec (.phaseOpen ph) s = .next t ∧ t.spn.gates = 0 ∧ t.spn.state = .faulted ∧ t.spn.latched = true ∧
    t.spn.cause = 0x10 ∧ t.spn.unlReq = true) ∧
  -- SUPPLY_REVERSED (R66)
  (∀ (mv : Int) (s : State), mv < -1600 → EventRoom s →
    ∃ t, exec (.supplyReversed mv) s = .next t ∧ t.spn = { s.spn with vin := mv } ∧ Recorded 0x0C20 t) ∧
  -- SPINDLE_STOPPED (R282)
  (∀ s : State, spnLive s = true → s.spn.state = .brake → s.spn.brk = some .short → EventRoom s →
    ∃ t, exec .spindleStopped s = .next t ∧ t.spn.state = .stopped ∧ t.spn.gates = 0 ∧ t.spn.turning = false ∧
    t.spn.brk = none ∧ 378 ∈ t.irq.pending ∧ Recorded 0x0751 t) ∧
  -- RECTIFY_EXIT (R287)
  (∀ s : State, spnLive s = true → s.spn.state = .rectify → s.rvr.commit = false → anyLoaded s = false →
    ∃ t, exec .rectifyExit s = .next t ∧ t.spn.state = .coast ∧ t.spn.gates = 0 ∧ t.spn.locked = false)

/-- O36. Laser and optical commands complete: under hypotheses on the state and the operands alone, exec answers a next state
with the effect written. -/
def Obligations.LaserAndOpticalCommandsComplete : Prop :=
  -- PREAMP_FAULT (R62)
  (∀ (n : Fin 4) (s : State), chanExists n s = true → pdOn 13 s = true →
    ∃ t, exec (.preampFault n) s = .next t ∧ t.lsr.ch[n].level = .off ∧ t.lsr.ch[n].offHold = true ∧
    t.lsr.ch[n].atPwr = false ∧ t.rwc[n].lg = false) ∧
  -- PSI_FRAME_DONE (R289)
  (∀ (n : Fin 4) (ack : BitVec 2) (data : BitVec 16) (f : Frame) (s : State), s.psi[n].cur = some f → chanExists n s = true →
    pdOn 13 s = true → heldBlk .psi 0 s = false → f.use = .firmware → f.write = false →
    ∃ t, exec (.psiFrameDone n ack data) s = .next t ∧ t.psi[n].cur = (nextFrame s.psi[n].queue).1 ∧
    t.psi[n].queue = (nextFrame s.psi[n].queue).2 ∧ t.psi[n].fwDone = true ∧ t.psi[n].fwBusy = false ∧
    t.psi[n].fwAck = (ack == 2) ∧ t.psi[n].fwData = data.toNat) ∧
  -- PSI_FRAME_DONE (R289)
  (∀ (n : Fin 4) (ack : BitVec 2) (data : BitVec 16) (f : Frame) (s : State), s.psi[n].cur = some f → chanExists n s = true →
    pdOn 13 s = true → heldBlk .psi 0 s = false → ack ≠ 2 → f.use = .mode → EventRoom s →
    ∃ t, exec (.psiFrameDone n ack data) s = .next t ∧ t.psi[n].cur = (nextFrame s.psi[n].queue).1 ∧ Recorded 0x0812 t ∧
    389 ∈ t.irq.pending) ∧
  -- PSI_FWCMD_GO (R290)
  (∀ (m : Master) (n : Fin 4) (v : Word) (s : State), Reach .psi 0 s → s.psi[n].fwBusy = false → s.psi[n].cur = none →
    ∃ t, exec (.psiFwcmdGo m n v) s = .next t ∧ t.psi[n].fwBusy = true ∧ t.psi[n].fwDone = false ∧
    ∃ f, t.psi[n].cur = some f ∧ f.cls = .firmware ∧ f.addr = bits v.toNat 28 16 ∧ f.data = bits v.toNat 15 0) ∧
  -- LASER_MONITOR_READ (R294)
  (∀ (n : Fin 4) (reading : BitVec 16) (e : PowEntry) (s : State), chanExists n s = true → pdOn 13 s = true →
    heldBlk .lsr 0 s = false → s.lsr.ch[n].level = .preheat → s.lsr.ch[n].entry = some e →
    inWindow reading.toNat (if s.rwc[n].lg = true then e.monwr else e.monph) e.win = true →
    ∃ t, exec (.laserMonitorRead n reading false) s = .next t ∧ t.lsr.ch[n].mon = reading.toNat ∧ t.lsr.ch[n].bad = 0 ∧
    t.us = s.us + zeroAsOne (fld .moncfg 0 0 31 24 s)) ∧
  -- LSR_CLRF (R295)
  (∀ (m : Master) (n : Fin 4) (v : Word) (s : State), Reach .lsr 0 s → v.toNat.testBit n.val = true →
    ∃ t, exec (.lsrClrf m v) s = .next t ∧ t.lsr.ch[n].fault = false ∧ t.lsr.ch[n].offHold = false ∧ t.lsr.ch[n].bad = 0) ∧
  -- ADDRESS_UNIT (R304)
  (∀ (n : Fin 4) (off : Int) (w : BitVec 48) (meas : ClockMeas) (s : State), optLive n s = true →
    addrAccepted n off w.toNat s = true → s.opt.pu[n].seek = false → s.opt.pu[n].capturing = false →
    ∃ t, exec (.addressUnit n off w meas) s = .next t ∧ t.opt.pu[n].aLayer = bits w.toNat 47 46 ∧
    t.opt.pu[n].aTrack = bits w.toNat 45 22 ∧ t.opt.pu[n].aUnit = bits w.toNat 21 13 ∧ t.opt.pu[n].aValid = true ∧
    t.opt.pu[n].missRun = 0) ∧
  -- ADDRESS_UNIT (R304)
  (∀ (n : Fin 4) (off : Int) (w : BitVec 48) (meas : ClockMeas) (s : State), optLive n s = true →
    addrAccepted n off w.toNat s = false → s.opt.pu[n].seek = false →
    ∃ t, exec (.addressUnit n off w meas) s = .next t ∧ t.opt.pu[n].missRun = min 7 (s.opt.pu[n].missRun + 1) ∧
    t.opt.pu[n].aTrack = s.opt.pu[n].aTrack ∧ t.opt.pu[n].age = s.opt.pu[n].age + 1) ∧
  -- OPT_FMT_WRITE (R303)
  (∀ (m : Master) (v : Word) (s : State), Reach .opt 0 s → Rising s.regs → 32 ≤ bits v.toNat 28 19 → bits v.toNat 28 19 ≤ 512 →
    128 ≤ bits v.toNat 18 8 → bits v.toNat 18 8 ≤ 1024 →
    ∃ t, exec (.optFmtWrite m v) s = .next t ∧
    reg .optFmt 0 0 t = (reg .optFmt 0 0 s &&& ((2 ^ 32 - 1) ^^^ writableBits .optFmt 0 s)) ||| (v.toNat &&& writableBits .optFmt 0 s)) ∧
  -- OPT_FMT_WRITE (R303)
  (∀ (m : Master) (v : Word) (s : State), Reach .opt 0 s → EventRoom s → (bits v.toNat 28 19 < 32 ∨ 512 < bits v.toNat 28 19 ∨
    bits v.toNat 18 8 < 128 ∨ 1024 < bits v.toNat 18 8) →
    ∃ t, exec (.optFmtWrite m v) s = .next t ∧ t.regs = s.regs ∧ Recorded 0x0905 t) ∧
  -- SA_DELAY_END (R312)
  (∀ (n : Fin 4) (s : State), optLive n s = true → s.opt.pu[n].seek = true → s.opt.pu[n].sphase = .layer →
    s.opt.pu[n].await = false → s.sve[sveOf n].move = .none →
    ∃ t, exec (.saDelayEnd n) s = .next t ∧ t.sve[sveOf n].move ≠ .none ∧ t.sve[sveOf n].seekOk = false ∧
    t.us = max s.us s.opt.pu[n].sledUs) ∧
  -- SLED_MOVE_END (R312)
  (∀ (n : Fin 4) (s : State), optLive n s = true → s.opt.pu[n].seek = true → s.opt.pu[n].sphase = .sled →
    s.opt.pu[n].await = false →
    ∃ t, exec (.sledMoveEnd n) s = .next t ∧ t.opt.pu[n] = { s.opt.pu[n] with sledCmd := 0, await := true, fresh := true, age := 0 } ∧
    t.us = max s.us s.opt.pu[n].sledUs)

/-- O37. DDR5 and buffer cache commands complete: under hypotheses on the state and the operands alone, exec answers a next
state with the effect written. -/
def Obligations.MemoryCommandsComplete : Prop :=
  -- DDR_READ (R321)
  (∀ (m : Master) (a : BitVec 40) (s : State), inDdr (a.toNat / 8 * 8) s = true → pdOn 12 s = true →
    accessWaits (a.toNat / 8 * 8) s = false → pastL1 m (a.toNat / 8 * 8) s = true → bccPass s = true →
    halfPoisoned (a.toNat / 8 * 8 - ddrBase) s = false →
    ∃ t, exec (.ddrRead m a .none) s = .next t ∧ t = { s with busData := memRead (a.toNat / 8 * 8) 8 s, busErr := false }) ∧
  -- DDR_READ (R321)
  (∀ (m : Master) (a : BitVec 40) (dev : Nat) (s : State), inDdr (a.toNat / 8 * 8) s = true → pdOn 12 s = true →
    accessWaits (a.toNat / 8 * 8) s = false → pastL1 m (a.toNat / 8 * 8) s = true → bccPass s = true →
    halfPoisoned (a.toNat / 8 * 8 - ddrBase) s = false → codeOf (a.toNat / 8 * 8 - ddrBase) s < 2 →
    ∃ t, exec (.ddrRead m a (.correctable dev)) s = .next t ∧ t.busData = memRead (a.toNat / 8 * 8) 8 s ∧ t.busErr = false ∧
    t.dmc = (rowLogRead (a.toNat / 8 * 8 - ddrBase) false dev s).dmc) ∧
  -- DDR_READ (R321)
  (∀ (m : Master) (a : BitVec 40) (dev : Nat) (s : State), inDdr (a.toNat / 8 * 8) s = true → pdOn 12 s = true →
    accessWaits (a.toNat / 8 * 8) s = false → pastL1 m (a.toNat / 8 * 8) s = true → bccPass s = true →
    halfPoisoned (a.toNat / 8 * 8 - ddrBase) s = false → codeOf (a.toNat / 8 * 8 - ddrBase) s < 2 →
    ∃ t, exec (.ddrRead m a (.uncorrectable dev)) s = .next t ∧ t.busData = 0 ∧ t.busErr = true ∧ 409 ∈ t.irq.pending) ∧
  -- DDR_READ (R321)
  (∀ (m : Master) (a : BitVec 40) (c : CLine) (err : DdrErr) (s : State), inDdr (a.toNat / 8 * 8) s = true → pdOn 12 s = true →
    accessWaits (a.toNat / 8 * 8) s = false → pastL1 m (a.toNat / 8 * 8) s = true →
    bccPass s = false → bccHit ((a.toNat / 8 * 8 - ddrBase) / 128) s = some c →
    ∃ t, exec (.ddrRead m a err) s = .next t ∧ t.busData = lineBytes c.data ((a.toNat / 8 * 8 - ddrBase) % 128) 8 ∧
    t.busErr = false) ∧
  -- DDR_READ (R321)
  (∀ (m : Master) (a : BitVec 40) (err : DdrErr) (s : State), inDdr (a.toNat / 8 * 8) s = false →
    ∃ t, exec (.ddrRead m a err) s = .next t ∧ t = { s with busData := 0, busErr := true }) ∧
  -- REGATTR_POLICY_WRITE (R319)
  (∀ (m : Master) (k : Fin 16) (v : Word) (s : State), Reach .dmc 0 s → Rising s.regs → windowOpen .dmc 0 s = true →
    ((s.dmc.initBusy || s.dmc.initDone) && (v.toNat ^^^ reg .regattr0 0 k s) &&& 0xE0003FFF != 0) = false →
    bits v.toNat 28 27 ≠ bits (reg .regattr0 0 k s) 28 27 →
    ∃ t, exec (.regattrPolicyWrite m k v) s = .next t ∧
    reg .regattr0 0 k t = (reg .regattr0 0 k s &&& ((2 ^ 32 - 1) ^^^ 0xF8003FFF)) ||| (v.toNat &&& 0xF8003FFF) ∧
    ∀ l ∈ t.bcc.lines, l ∈ s.bcc.lines ∧ regionOf (l.line * 128) s ≠ some k.val) ∧
  -- REGATTR_POLICY_WRITE (R319)
  (∀ (m : Master) (k : Fin 16) (v : Word) (s : State), Reach .dmc 0 s → s.dmc.initDone = true →
    (v.toNat ^^^ reg .regattr0 0 k s) &&& 0xE0003FFF ≠ 0 → windowOpen .dmc 0 s = true → EventRoom s →
    ∃ t, exec (.regattrPolicyWrite m k v) s = .next t ∧ t.regs = s.regs ∧ Recorded 0x0A03 t) ∧
  -- SPLIT_READ (R323)
  (∀ (m : Master) (line : Nat) (s : State), Reach .dmc 0 s → Rising s.regs → windowOpen .dmc 0 s = true →
    line = fld .splitaddr 0 0 26 0 s → bccHit line s = none →
    ∃ t, exec (.splitRead m) s = .next t ∧ (∀ j < 32, reg .splitdata 0 j t = (ddrLine line s >>> (32 * j)) % 2 ^ 32) ∧
    t.mem = s.mem ∧ t.dmc = { s.dmc with splitDone := true } ∧ 412 ∈ t.irq.pending) ∧
  -- SPLIT_WRITE (R323)
  (∀ (m : Master) (line : Nat) (s : State), Reach .dmc 0 s → Rising s.regs → windowOpen .dmc 0 s = true →
    line = fld .splitaddr 0 0 26 0 s → bccHit line s = none →
    ∃ t, exec (.splitWrite m) s = .next t ∧ t.mem = (memWrite (ddrBase + line * 128) 128 (regWords .splitdata 32 s) s).mem ∧
    t.dmc.poison = s.dmc.poison ∧ t.dmc.rowLog = s.dmc.rowLog ∧ (line, regWords .splitchk 8 s) ∈ t.dmc.rawChk ∧
    t.dmc.splitDone = true ∧ 412 ∈ t.irq.pending) ∧
  -- SCRUB_READ (R324)
  (∀ (line k : Nat) (s : State), fld .dmcScrub 0 0 31 31 s = 1 → s.pwr.selfRefresh = false → s.dmc.ppr = none →
    pdOn 12 s = true → (hdrOf .dmc 0 s).freeze = false → nextScrub s.dmc.scrubPos s = some line → s.dmc.poison = [] → s.dmc.rawChk = [] →
    nextScrub (line + 1) { s with dmc := { s.dmc with scrubPos := line + 1 } } = some k →
    ∃ t, exec (.scrubRead .none) s = .next t ∧ t.dmc = { s.dmc with scrubPos := line + 1 }) ∧
  -- SCRUB_READ (R324)
  (∀ (err : DdrErr) (s : State), fld .dmcScrub 0 0 31 31 s = 1 → s.pwr.selfRefresh = false → s.dmc.ppr = none →
    pdOn 12 s = true → (hdrOf .dmc 0 s).freeze = false → nextScrub s.dmc.scrubPos s = none →
    ∃ t, exec (.scrubRead err) s = .next t ∧ t.dmc.scrubPos = 0 ∧ t.dmc.passes = min 0xFFFF (s.dmc.passes + 1) ∧
    t.dmc.passCe = 0 ∧ t.dmc.passUe = 0 ∧ 410 ∈ t.irq.pending) ∧
  -- SOFT_PPR (R326)
  (∀ (m : Master) (v : Word) (s : State), Reach .dmc 0 s → Rising s.regs → windowOpen .dmc 0 s = true → s.dmc.ppr = none →
    ∃ t, exec (.softPpr m v) s = .next t ∧ t.dmc.pprDone = false ∧ ∃ p, t.dmc.ppr = some p ∧ p.hard = false) ∧
  -- HARD_PPR (R327)
  (∀ (m : Master) (v : Word) (s : State), Reach .dmc 0 s → Rising s.regs → windowOpen .dmc 0 s = true → s.dmc.ppr = none →
    s.sys.ready = false →
    ∃ t, exec (.hardPpr m v) s = .next t ∧ t.dmc.pprDone = false ∧ ∃ p, t.dmc.ppr = some p ∧ p.hard = true) ∧
  -- HARD_PPR (R327)
  (∀ (m : Master) (v : Word) (s : State), Reach .dmc 0 s → Rising s.regs → windowOpen .dmc 0 s = true → s.dmc.ppr = none →
    s.sys.ready = true →
    ∃ t, exec (.hardPpr m v) s = .next t ∧ t.dmc.pprDone = true ∧ t.dmc.pprRes = 2 ∧ t.dmc.ppr = none) ∧
  -- ROW_LOG_CLEAR (R325)
  (∀ (m : Master) (v : Word) (s : State), Reach .dmc 0 s →
    ∃ t, exec (.rowLogClear m v) s = .next t ∧ t.dmc.rowLog = s.dmc.rowLog.filter fun e => !(v.toNat.testBit e.i)) ∧
  -- BCC_ACCESS (R330)
  (∀ (m : Master) (a : BitVec 40) (v : Word) (c : CLine) (s : State), inDdr (a.toNat / 4 * 4) s = true → pdOn 12 s = true →
    accessWaits (a.toNat / 4 * 4) s = false → pastL1 m (a.toNat / 4 * 4) s = true →
    bccPass s = false → bccHit ((a.toNat / 4 * 4 - ddrBase) / 128) s = some c →
    ∃ t, exec (.bccAccess m a false v none) s = .next t ∧
    t.busData = lineBytes c.data ((a.toNat / 4 * 4 - ddrBase) % 128) 4 ∧ t.busErr = false) ∧
  -- BCC_ACCESS (R330)
  (∀ (a : BitVec 40) (v : Word) (c : CLine) (s : State), inDdr (a.toNat / 4 * 4) s = true → pdOn 12 s = true →
    accessWaits (a.toNat / 4 * 4) s = false →
    bccPass s = false → s.bcc.state = .enabled → polOf (a.toNat / 4 * 4 - ddrBase) s = 0 →
    bccHit ((a.toNat / 4 * 4 - ddrBase) / 128) s = some c →
    ∃ t, exec (.bccAccess .debug a true v none) s = .next t ∧ t.busErr = false ∧ t.mem = s.mem ∧
    ∃ l ∈ t.bcc.lines, l.line = c.line ∧ l.dirty = true ∧
    l.data = lineSet c.data ((a.toNat / 4 * 4 - ddrBase) % 128) 4 v.toNat) ∧
  -- CE_WINDOW_EXPIRY (R338)
  (∀ s : State, ∃ t, exec .ceWindowExpiry s = .next t ∧ t.bcc = { s.bcc with wayCe := Vector.replicate 16 0 }) ∧
  -- BCC_ENABLE (R331)
  (∀ (m : Master) (s : State), Reach .bcc 0 s → s.bcc.state = .disabled → s.bcc.invd = true →
    ∃ t, exec (.bccEnable m) s = .next t ∧ t.bcc.state = .enabled) ∧
  -- BCC_ENABLE (R331)
  (∀ (m : Master) (s : State), Reach .bcc 0 s → s.bcc.state = .disabled → s.bcc.invd = false → EventRoom s →
    ∃ t, exec (.bccEnable m) s = .next t ∧ t.bcc = s.bcc ∧ Recorded 0x0A32 t) ∧
  -- BCC_DISABLE (R331)
  (∀ (m : Master) (s : State), Reach .bcc 0 s → s.bcc.state = .enabled → s.rvr.commit = false →
    ∃ t, exec (.bccDisable m) s = .next t ∧ t.bcc.state = .draining ∧ t.bcc.invd = false) ∧
  -- BCC_DISABLE (R331)
  (∀ (m : Master) (s : State), Reach .bcc 0 s → s.bcc.state = .enabled → s.rvr.commit = true → EventRoom s →
    ∃ t, exec (.bccDisable m) s = .next t ∧ t.bcc = s.bcc ∧ Recorded 0x0A36 t) ∧
  -- DRAIN_COMPLETE (R332)
  (∀ s : State, s.bcc.state = .draining → (hdrOf .bcc 0 s).freeze = false →
    ∃ t, exec .drainComplete s = .next t ∧ t.bcc.state = .disabled ∧ t.bcc.drainSet = 0 ∧ 417 ∈ t.irq.pending) ∧
  -- BCC_CLEAN (R334)
  (∀ (m : Master) (s : State), Reach .bcc 0 s → Rising s.regs → s.bcc.op = none → s.bcc.state = .enabled →
    ∃ t, exec (.bccClean m) s = .next t ∧ RangeStarted 1 s t) ∧
  -- BCC_INVAL (R337)
  (∀ (m : Master) (s : State), Reach .bcc 0 s → Rising s.regs → s.bcc.op = none →
    ∃ t, exec (.bccInval m) s = .next t ∧ RangeStarted 2 s t) ∧
  -- BCC_CLEAN_INVAL (R337)
  (∀ (m : Master) (s : State), Reach .bcc 0 s → Rising s.regs → s.bcc.op = none →
    ∃ t, exec (.bccCleanInval m) s = .next t ∧ RangeStarted 3 s t) ∧
  -- BCC_ZERO (R335)
  (∀ (m : Master) (s : State), Reach .bcc 0 s → Rising s.regs → s.bcc.op = none → s.bcc.state = .enabled →
    ∃ t, exec (.bccZero m) s = .next t ∧ RangeStarted 4 s t) ∧
  -- BCC_LOCK (R336)
  (∀ (m : Master) (s : State), Reach .bcc 0 s → Rising s.regs → s.bcc.op = none → s.bcc.state = .enabled →
    ∃ t, exec (.bccLock m) s = .next t ∧ RangeStarted 5 s t) ∧
  -- BCC_UNLOCK (R334)
  (∀ (m : Master) (s : State), Reach .bcc 0 s → Rising s.regs → s.bcc.op = none →
    ∃ t, exec (.bccUnlock m) s = .next t ∧ RangeStarted 6 s t) ∧
  -- BCC_INVAL_ALL (R334)
  (∀ (m : Master) (s : State), Reach .bcc 0 s → Rising s.regs → s.bcc.op = none → s.bcc.state = .disabled →
    ∃ t, exec (.bccInvalAll m) s = .next t ∧ RangeStarted 7 s t) ∧
  -- RANGE_OP_DONE (R334)
  (∀ (r : RangeOp) (s : State), (hdrOf .bcc 0 s).freeze = false → s.bcc.op = some r → r.op = 7 →
    ∃ t, exec .rangeOpDone s = .next t ∧ t.bcc.op = none ∧ t.bcc.opDone = true ∧ t.bcc.opRes = 0 ∧ t.bcc.lines = [] ∧
    t.bcc.invd = true ∧ 416 ∈ t.irq.pending) ∧
  -- RANGE_OP_DONE (R334)
  (∀ (r : RangeOp) (s : State), RangeRuns 1 r s →
    ∃ t, exec .rangeOpDone s = .next t ∧ RangeEnded t ∧
    ∀ j < r.lines, ∀ x ∈ t.bcc.lines, x.line = r.first + j - ddrBase / 128 → x.valid = true → x.dirty = false) ∧
  -- RANGE_OP_DONE (R334)
  (∀ (r : RangeOp) (s : State), RangeRuns 2 r s →
    ∃ t, exec .rangeOpDone s = .next t ∧ RangeEnded t ∧ t.mem = s.mem ∧
    ∀ j < r.lines, ∀ x ∈ t.bcc.lines, x.line = r.first + j - ddrBase / 128 → x.valid = false) ∧
  -- RANGE_OP_DONE (R334)
  (∀ (r : RangeOp) (s : State), RangeRuns 3 r s →
    ∃ t, exec .rangeOpDone s = .next t ∧ RangeEnded t ∧
    ∀ j < r.lines, ∀ x ∈ t.bcc.lines, x.line = r.first + j - ddrBase / 128 → x.valid = false) ∧
  -- RANGE_OP_DONE (R334)
  (∀ (r : RangeOp) (s : State), RangeRuns 6 r s →
    ∃ t, exec .rangeOpDone s = .next t ∧ RangeEnded t ∧
    ∀ j < r.lines, ∀ x ∈ t.bcc.lines, x.line = r.first + j - ddrBase / 128 → x.locked = false) ∧
  -- RANGE_OP_DONE (R334)
  (∀ (op : Nat) (r : RangeOp) (c : CLine) (s : State), op = 1 ∨ op = 3 → RangeRuns op r s → r.lines = 1 →
    bccHit (r.first - ddrBase / 128) s = some c → c.dirty = true → Rising s.mem → rawPoison c.line s = false →
    ∃ t, exec .rangeOpDone s = .next t ∧ RangeEnded t ∧ memRead (ddrBase + c.line * 128) 128 t = c.data % 2 ^ (8 * 128)) ∧
  -- RANGE_OP_DONE (R334)
  (∀ (r : RangeOp) (c : CLine) (s : State), RangeRuns 4 r s → r.lines = 1 → polOf ((r.first - ddrBase / 128) * 128) s = 0 →
    bccHit (r.first - ddrBase / 128) s = some c →
    ∃ t, exec .rangeOpDone s = .next t ∧ RangeEnded t ∧ t.mem = s.mem ∧
    ∃ x ∈ t.bcc.lines, x.line = r.first - ddrBase / 128 ∧ x.data = 0 ∧ x.dirty = true ∧ x.valid = true) ∧
  -- RANGE_OP_DONE (R334)
  (∀ (r : RangeOp) (c : CLine) (s : State), RangeRuns 5 r s → r.lines = 1 → polOf ((r.first - ddrBase / 128) * 128) s ≠ 3 →
    bccHit (r.first - ddrBase / 128) s = some c → c.way < 12 →
    ∃ t, exec .rangeOpDone s = .next t ∧ RangeEnded t ∧ t.mem = s.mem ∧
    ∃ x ∈ t.bcc.lines, x.line = r.first - ddrBase / 128 ∧ x.locked = true ∧ x.data = c.data ∧ x.dirty = c.dirty)

/-- O38. Mailbox, key, snuff and debug commands complete: under hypotheses on the state and the operands alone, exec answers
a next state with the effect written. -/
def Obligations.MailboxAndKeyCommandsComplete : Prop :=
  -- REPAIR_MAP_ENTRY (R328)
  (∀ (w : Word) (s : State), secRuns s = true → s.sec.mbDone = true → w.getLsbD 31 = true →
    (∀ x ∈ s.sys.repairMap, x.toNat / 256 ≠ w.toNat / 256) → s.sys.repairMap.length < 256 →
    ∃ t, exec (.repairMapEntry w) s = .next t ∧ t.sec.mbDone = true ∧ t.sec.mbRes = 0 ∧
    t.sys.repairMap = s.sys.repairMap ++ [w]) ∧
  -- EXTEND (R360)
  (∀ (m digest : Nat) (s : State), secRuns s = true → s.sec.mbDone = true → 8 ≤ m → m ≤ 15 →
    ∃ t, exec (.extend m digest) s = .next t ∧ t.sec.mbDone = true ∧ t.sec.mbRes = 0 ∧
    t.sec.meas = vmod s.sec.meas m fun x => Config.hash x digest % 2 ^ 512) ∧
  -- KEY_GENERATE (R348)
  (∀ (ns user limit k : Nat) (s : State), secRuns s = true → s.sec.mbDone = true → ns < 64 → user < 32 →
    2 ^ 20 ≤ limit → limit < 2 ^ 40 → s.sec.encdis = false → s.sec.l2pend = false → s.sec.part = false →
    lowestFree 2048 (s.sec.slots.map (·.slot)) = some k →
    ∃ t, exec (.keyGenerate ns user limit) s = .next t ∧ t.sec.mbDone = true ∧ t.sec.mbRes = 0 ∧ ∃ x ∈ t.sec.slots,
    x.slot = k ∧ x.valid = true ∧ x.ns = ns ∧ x.user = user ∧ x.limit = limit ∧ x.use_ = 0 ∧ x.epoch = s.sec.epoch) ∧
  -- KEY_ZERO (R349)
  (∀ (slot : Fin 2048) (x : KSlot) (s : State), secRuns s = true → s.sec.mbDone = true → kslot slot s = some x →
    pageOpen x.ns s = true →
    ∃ t, exec (.keyZero slot) s = .next t ∧ t.sec.mbDone = true ∧ t.sec.mbRes = 0 ∧
    t.sec.slots = s.sec.slots.filter (·.slot != slot.val) ∧ (∀ l ∈ t.sec.lane.toList, l ≠ some slot.val)) ∧
  -- KEY_CHECKPOINT (R350)
  (∀ s : State, secRuns s = true → s.sec.mbDone = true →
    ∃ t, exec .keyCheckpoint s = .next t ∧ t.sec.mbDone = true ∧ t.sec.mbRes = 0 ∧
    t.sec.mbLen = 128 * (dueSlots s).length % 2 ^ 20 ∧ (∀ x ∈ dueSlots s, recordOf x ∈ t.sec.keyRecs)) ∧
  -- NS_ACTIVE (R349)
  (∀ (ns : Fin 64) (slot : Fin 2048) (enc : Bool) (s : State), secRuns s = true → s.sec.mbDone = true →
    pageOpen ns s = true →
    ∃ t, exec (.nsActive ns slot enc) s = .next t ∧ t.sec.mbDone = true ∧ t.sec.mbRes = 0 ∧
    t.sec.nskey = s.sec.nskey.filter (·.1 != ns.val) ++ [(ns.val, enc, slot.val)]) ∧
  -- SVN_COMMIT (R344)
  (∀ (count : Nat) (s : State), secRuns s = true → s.sec.mbDone = true → s.sec.svn < count → count ≤ s.sec.imgSvn →
    count ≤ 64 →
    ∃ t, exec (.svnCommit count) s = .next t ∧ t.sec.mbDone = true ∧ t.sec.mbRes = 0 ∧ t.sec.svn = count) ∧
  -- TAKE_OWNERSHIP (R342)
  (∀ (sig : SigObj) (s : State), secRuns s = true → s.sec.mbDone = true → s.sec.okey.any (·.isSome) = false →
    sig.valid = true →
    ∃ t, exec (.takeOwnership sig) s = .next t ∧ t.sec.mbDone = true ∧ t.sec.mbRes = 0 ∧
    t.sec.okey[0] = some (sig.key, false)) ∧
  -- ADD_OWNER_KEY (R342)
  (∀ (sig : SigObj) (digest k : Nat) (s : State), secRuns s = true → s.sec.mbDone = true → ownerSigned sig s = true →
    ((List.range 4).find? fun k => (vget s.sec.okey k none).isNone) = some k →
    ∃ t, exec (.addOwnerKey sig digest) s = .next t ∧ t.sec.mbDone = true ∧ t.sec.mbRes = 0 ∧
    t.sec.okey = vmod s.sec.okey k fun _ => some (digest, false)) ∧
  -- REVOKE_OWNER_KEY (R342)
  (∀ (sig : SigObj) (k : Fin 4) (d : Nat) (s : State), secRuns s = true → s.sec.mbDone = true →
    ownerSigned sig s = true → s.sec.okey[k] = some (d, false) → 2 ≤ ownerKeys s →
    ∃ t, exec (.revokeOwnerKey sig k) s = .next t ∧ t.sec.mbDone = true ∧ t.sec.mbRes = 0 ∧
    t.sec.okey = s.sec.okey.set k (some (d, true))) ∧
  -- OWNER_POLICY (R352)
  (∀ (sig : SigObj) (part openRegion ownerDebug : Bool) (s : State), secRuns s = true → s.sec.mbDone = true →
    ownerSigned sig s = true →
    ∃ t, exec (.ownerPolicy sig part openRegion ownerDebug) s = .next t ∧ t.sec.mbDone = true ∧ t.sec.mbRes = 0 ∧
    t.sec.policyNext = { part := part, openRegion := openRegion, ownerDebug := ownerDebug } ∧
    t.sec.policy = s.sec.policy) ∧
  -- EXPORT (R364)
  (∀ (sig : SigObj) (devid : Nat) (s : State), secRuns s = true → s.sec.mbDone = true → ownerSigned sig s = true →
    ∃ t, exec (.exportKeys sig devid) s = .next t ∧ t.sec.mbDone = true ∧ t.sec.mbRes = 0 ∧ t.sec.slots = s.sec.slots ∧
    (∃ u : State, t = respondFree 10 u ∧ u.mem = s.mem ∧ (EventRoom s → Recorded 0x0B60 u))) ∧
  -- IMPORT (R365)
  (∀ (sig : SigObj) (b : Bundle) (s : State), secRuns s = true → s.sec.mbDone = true → ownerSigned sig s = true →
    b.devid = s.sec.devid → b.srcOk = true → b.tagOk = true → s.sec.slots.any (·.valid) = false →
    ∃ t, exec (.importKeys sig b) s = .next t ∧ t.sec.mbDone = true ∧ t.sec.mbRes = 0 ∧
    t.sec.mbLen = 128 * b.recs.length % 2 ^ 20 ∧ (∀ r ∈ b.recs, importRec s r ∈ t.sec.keyRecs)) ∧
  -- BEHAVIOUR_PROFILE_UNLOCK (R432)
  (∀ (sig : SigObj) (devid : Nat) (s : State), secRuns s = true → s.sec.mbDone = true → ownerSigned sig s = true →
    devid = s.sec.devid →
    ∃ t, exec (.behaviourProfileUnlock sig devid) s = .next t ∧ t.sec.mbDone = true ∧ t.sec.mbRes = 0 ∧
    t.sys.profLock = false) ∧
  -- FIRMWARE_ACTIVATION_MEASUREMENT (R427)
  (∀ (digest : Nat) (s : State), secRuns s = true → s.sec.mbDone = true →
    ∃ t, exec (.firmwareActivationMeasurement digest) s = .next t ∧ t.sec.mbDone = true ∧ t.sec.mbRes = 0 ∧
    t.sec.meas = vmod s.sec.meas 7 fun x => Config.hash x digest % 2 ^ 512) ∧
  -- SLOT_SELECT (R347)
  (∀ (m : Master) (v : Word) (x : KSlot) (s : State), Reach .kst 0 s → kslot (bits v.toNat 10 0) s = some x →
    ∃ t, exec (.slotSelect m v) s = .next t ∧ t.sec.selUse = x.use_ % 2 ^ 40 ∧ t.sec.selLim = x.limit % 2 ^ 40 ∧
    t.sec.selAttr = flag x.valid 31 + flag x.lost 30 + flag x.retired 29 + x.ns % 64 * 2 ^ 23 + x.user % 32 * 2 ^ 18
    + x.epoch % 32 * 2 ^ 13) ∧
  -- SNUFF_LEVEL_1 (R356)
  (∀ (src : Fin 4) (s : State), snuffArmed s = true →
    ∃ t, exec (.snuffLevel1 src) s = .next (wakeNoted t) ∧ t.sec.slots = [] ∧ t.sec.lane = Vector.replicate 4 none ∧
    t.sec.snuffed = true ∧ t.sec.alarmDue = some src.val ∧
    ((s.pwr.state == .lit && s.pwr.phase != .entering) = true → s.pwr.active = 0 → wakeNoted t = t)) ∧
  -- SNUFF_LEVEL_2 (R357)
  (∀ (src : Fin 3) (s : State), snuffArmed s = true →
    ∃ t, exec (.snuffLevel2 src) s = .next (wakeNoted t) ∧ t.sec.slots = [] ∧ t.sec.l2pend = true ∧
    ((s.pwr.state == .lit && s.pwr.phase != .entering) = true → s.pwr.active = 0 → wakeNoted t = t)) ∧
  -- ALARM_FUSE_BLOW (R356)
  (∀ (src : Nat) (s : State), s.sec.alarmDue = some src → secRuns s = true → s.sec.alarms < 7 →
    ∃ t, exec .alarmFuseBlow s = .next (wakeNoted t) ∧ t.sec.alarms = s.sec.alarms + 1 ∧ t.sec.alarmDue = none ∧
    (s.pwr.active = 0 → wakeNoted t = t)) ∧
  -- EPOCH_FUSE_BLOW (R357)
  (∀ s : State, secRuns s = true → s.sec.l2pend = true →
    (s.sec.epoch < 16 →
    ∃ t, exec .epochFuseBlow s = .next t ∧ t.sec.epoch = s.sec.epoch + 1 ∧ t.sec.l2pend = false) ∧
    (16 ≤ s.sec.epoch →
    ∃ t, exec .epochFuseBlow s = .next t ∧ t.sec.encdis = true ∧ t.sec.epoch = s.sec.epoch ∧ t.sec.l2pend = false)) ∧
  -- KEY_RESTORE (R351)
  (∀ (l : List KRec) (s : State), secRuns s = true → s.sec.restored = false → s.sec.l2pend = false →
    s.sec.encdis = false → s.sec.noUnwrap = false → heldBlk .kst 0 s = false → keyCopy s = some l →
    ∃ t, exec .keyRestore s = .next t ∧ t.sec.restored = true ∧ t.sec.snuffed = false ∧
    (∀ r ∈ l, (∀ q ∈ l, q.slot = r.slot → q = r) → ∃ x ∈ t.sec.slots, x.slot = r.slot ∧
    x.valid = (r.good && r.epoch == s.sec.epoch) ∧ x.lost = !x.valid ∧ x.use_ = r.use_ + 2 ^ 24 ∧ x.limit = r.limit ∧
    x.key = if x.valid then r.key else 0)) ∧
  -- DEBUG_CHALLENGE (R359)
  (∀ s : State, pdOn 2 s = true → secRuns s = true →
    ∃ t, exec .debugChallenge s = .next t ∧ t.sec.dbgChal = some (draw (2 ^ 256) s)) ∧
  -- DEBUG_RESPONSE (R359)
  (∀ (level digest : Nat) (sig : SigObj) (halt : Bool) (s : State), s.sec.dbgChal.isSome = true → pdOn 2 s = true →
    secRuns s = true → level = 1 → umwynSigned 2 sig s = true →
    ∃ t, exec (.debugResponse level sig digest halt) s = .next (wakeNoted t) ∧ t.sec.dbgChal = none ∧
    t.sys.debugLevel = max s.sys.debugLevel level ∧ t.sys.debugHalt = halt ∧
    t.sec.meas = vmod s.sec.meas 6 (fun x => Config.hash x digest % 2 ^ 512) ∧ (s.pwr.active = 0 → wakeNoted t = t))

/-- O39. Thermal and trim commands complete: under hypotheses on the state and the operands alone, exec answers a next state
with the effect written. -/
def Obligations.ThermalAndTrimCommandsComplete : Prop :=
  -- THM_CONVERSION (R366)
  (∀ (readings : Vector (Option Int) 24) (wick : Int) (s : State), pdOn 2 s = true →
    ∃ t, exec (.thmConversion readings wick) s = .next t ∧ t.thm.maxValid = true ∧
    (∀ k v, hottest t = some (k, v) → t.thm.maxSens = k ∧ t.thm.maxTemp = v)) ∧
  -- CRITICAL_DARK_ENTRY (R373)
  (∀ (temp : Int) (k : Nat) (s : State), s.thm.critical = some (temp, k) →
    ∃ t, exec .criticalDarkEntry s = .next t ∧ t.pwr.state = .dark ∧ t.pwr.darkCritical = true) ∧
  -- CRITICAL_WAKE (R373)
  (∀ (env : BootEnv) (s : State), s.pwr.state = .dark → s.pwr.darkCritical = true → s.sys.railsGood = true →
    s.sys.resetNLow = false →
    ∃ t, exec (.criticalWake env) s = .next t ∧ t.us = s.us + 10000000 ∧ t.sys.coreUp = true ∧
    t.thm.wickTemp < 4 * (thrShut (elapse 10000000 s) - 10)) ∧
  -- CLRSHUT (R372)
  (∀ (m : Master) (s : State), Reach .thm 0 s → s.thm.shut = true → s.thm.maxTemp < 4 * thrShut s - hystShut s →
    ∃ t, exec (.clrshut m) s = .next t ∧ t.thm.shut = false ∧ t.thm.shutSeq = false ∧ t.thm.cShut = 0) ∧
  -- CLREXCL (R367)
  (∀ (m : Master) (s : State), Reach .thm 0 s →
    ∃ t, exec (.clrexcl m) s = .next t ∧ t.thm.clrExcl = true) ∧
  -- TRIM_COMPUTE (R376)
  (∀ (stats : List (Nat × Nat × Int)) (s : State), pdOn 2 s = true → heldBlk .trm 0 s = false →
    ∃ t, exec (.trimCompute stats) s = .next t ∧ t.regs = s.regs ∧
    (∀ k < 137, trimExists k s = true → TrimTargeted k t) ∧
    (∀ k < 137, trimExists k s = true → fld .trmComp2 0 k 16 16 s = 0 → (trimAt k t).comp = 0)) ∧
  -- TAPER_STEP (R378)
  (∀ (k : Fin 137) (s : State), pdOn 2 s = true → heldBlk .trm 0 s = false → trimPending k s = true →
    opportunity k s = true →
    ∃ t, exec (.taperStep k) s = .next t ∧ (trimAt k t).target = (trimAt k s).target ∧
    ((trimAt k t).target - (trimAt k t).code : Int).natAbs < ((trimAt k s).target - (trimAt k s).code : Int).natAbs ∧
    (trimAt k t).last = some t.us) ∧
  -- TRIM_AGE (R380)
  (∀ (k : Fin 137) (i : Nat) (s : State), (trimAt k s).since = some i → (trimAt k s).aged = false → pdOn 2 s = true →
    heldBlk .trm 0 s = false →
    ∃ t, exec (.trimAge k) s = .next t ∧ (trimAt k t).aged = true ∧
    t.us = max s.us (i + zeroAsOne (fld .trmCfg 0 0 23 16 s) * 1000000))

/-- O40. Event recorder, lifetime counter and calendar commands complete: under hypotheses on the state and the operands
alone, exec answers a next state with the effect written. -/
def Obligations.RecordCounterAndCalendarCommandsComplete : Prop :=
  -- EVENT_STORE (R384)
  (∀ (e : Event) (rest : List Event) (s : State), heldBlk .evr 0 s = false → s.evr.queue = e :: rest →
    s.evr.flood = none → s.evr.period < floodOn s → s.evr.opn = false → isCandle s = false →
    (rest ≠ [] ∨ s.evr.lostNow = 0) →
    ∃ t x, exec .eventStore s = .next t ∧ t.evr.queue = rest ∧ t.evr.next = s.evr.next + 1 ∧
    heldRec s.evr.next t = some x ∧ x.seq = s.evr.next ∧ x.code = e.code ∧ x.src = e.src ∧ x.sec = e.sec ∧
    x.usec = e.usec ∧ x.p0 = e.p0 ∧ x.p1 = e.p1 ∧ x.p2 = e.p2) ∧
  -- EVENT_RAISE_SW (R389)
  (∀ (m : Master) (v : Word) (s : State), Reach .evr 0 s → v.getLsbD 31 = true → EventRoom s →
    ∃ t, exec (.eventRaiseSw m v) s = .next t ∧ Recorded (bits v.toNat 15 0) t) ∧
  -- FLOOD_PERIOD (R387)
  (∀ s : State, heldBlk .evr 0 s = false →
    (s.evr.flood = none → ∃ t, exec .floodPeriod s = .next t ∧ t.evr.period = 0 ∧ t.evr.flood = none) ∧
    (∀ f, s.evr.flood = some f → floodOn s / 16 < s.evr.period →
    ∃ t, exec .floodPeriod s = .next t ∧ t.evr.period = 0 ∧ t.evr.flood = some { f with secs := f.secs + 1 })) ∧
  -- EVR_NEXT_READ (R388)
  (∀ (m : Master) (s : State), Reach .evr 0 s →
    ∃ t, exec (.evrNextRead m) s = .next t ∧ t.busData = s.evr.next % 2 ^ 32 ∧
    t.evr.hold = some (s.evr.next / 2 ^ 32, evrOldest s % 2 ^ 32, evrOldest s / 2 ^ 32, evrStat s)) ∧
  -- EVR_CURSOR_WRITE (R388)
  (∀ (m : Master) (v : Word) (s : State), Reach .evr 0 s →
    ∃ t, exec (.evrCursorWrite m v) s = .next t ∧ t.evr.cur = s.evr.cur % 2 ^ 32 + v.toNat % 2 ^ 32 * 2 ^ 32 ∧
    t.evr.winDone = true) ∧
  -- EVR_WINDOW_ADVANCE (R388)
  (∀ (m : Master) (s : State), Reach .evr 0 s → s.evr.cur.testBit 62 = true →
    ∃ t, exec (.evrWindowAdvance m) s = .next t ∧ t.busData = bits s.evr.win 255 224 ∧
    t.evr.cur = s.evr.cur / 2 ^ 62 * 2 ^ 62 + (s.evr.cur + 1) % 2 ^ 62 ∧ t.evr.winDone = true) ∧
  -- EVR_BASE_WRITE (R390)
  (∀ (m : Master) (v : Word) (s : State), Reach .evr 0 s → s.evr.opn = true → s.evr.stored = false →
    windowOpen .evr 0 s = true →
    (∃ t, exec (.evrBaseWrite m true v) s = .next t ∧ t.evr.base = s.evr.base % 2 ^ 32 + v.toNat % 2 ^ 32 * 2 ^ 32) ∧
    (∃ t, exec (.evrBaseWrite m false v) s = .next t ∧ t.evr.base = s.evr.base / 2 ^ 32 * 2 ^ 32 + v.toNat % 2 ^ 32)) ∧
  -- EVR_STORE (R390)
  (∀ (m : Master) (s : State), Reach .evr 0 s → s.evr.opn = true → (wordRec s.evr.win).seq < s.evr.base →
    ((wordRec s.evr.win).seq < 4096 ∨ s.evr.base + 1024 ≤ (wordRec s.evr.win).seq + 65536) →
    heldRec (wordRec s.evr.win).seq s = none →
    ∃ t, exec (.evrStore m) s = .next t ∧ heldRec (wordRec s.evr.win).seq t = some (wordRec s.evr.win) ∧
    t.evr.stored = true) ∧
  -- EVR_COMMIT (R391)
  (∀ (m : Master) (s : State), Reach .evr 0 s → s.evr.opn = true → s.evr.flood = none → s.evr.period < floodOn s →
    ∃ t, exec (.evrCommit m) s = .next t ∧ t.evr.opn = false ∧ t.evr.staged = [] ∧
    t.evr.next = s.evr.base + s.evr.staged.length + 1) ∧
  -- LIF_ADD (R394)
  (∀ (m : Master) (v : Word) (s : State), Reach .lif 0 s → Rising s.lif.cnt → v.getLsbD 31 = true →
    (lifHw (bits v.toNat 7 0) = true → s.lif.opn = true) → s.lif.sat.contains (bits v.toNat 7 0) = false →
    sget 0 (bits v.toNat 7 0) s.lif.cnt + (reg .lifAddlo 0 0 s + reg .lifAddhi 0 0 s * 2 ^ 32) < 2 ^ 64 →
    ∃ t, exec (.lifAdd m v) s = .next t ∧ sget 0 (bits v.toNat 7 0) t.lif.cnt =
    sget 0 (bits v.toNat 7 0) s.lif.cnt + (reg .lifAddlo 0 0 s + reg .lifAddhi 0 0 s * 2 ^ 32)) ∧
  -- LIF_SEAL (R394)
  (∀ (m : Master) (s : State), Reach .lif 0 s → ∃ t, exec (.lifSeal m) s = .next t ∧ t.lif.opn = false) ∧
  -- LIF_SNAP (R395)
  (∀ (m : Master) (s : State), Reach .lif 0 s →
    ∃ t, exec (.lifSnap m) s = .next t ∧ t.lif.shCnt = s.lif.cnt ∧ t.lif.shSat = s.lif.sat ∧ t.lif.shSec = s.cal.sec) ∧
  -- LIF_TICK (R393)
  (∀ s : State, heldBlk .lif 0 s = false → Rising s.lif.cnt → s.pwr.state = .lit → s.sys.railsGood = true →
    s.lif.sat.contains 0 = false → s.lif.sat.contains 1 = false → sget 0 0 s.lif.cnt + 1 < 2 ^ 64 →
    sget 0 1 s.lif.cnt + 1 < 2 ^ 64 →
    ∃ t, exec .lifTick s = .next t ∧ sget 0 0 t.lif.cnt = sget 0 0 s.lif.cnt + 1 ∧
    sget 0 1 t.lif.cnt = sget 0 1 s.lif.cnt + 1) ∧
  -- CAL_READ (R396)
  (∀ (m : Master) (s : State), Reach .cal 0 s →
    ∃ t, exec (.calRead m) s = .next t ∧ t.busData = s.cal.usec ∧ t.cal.hSec = s.cal.sec) ∧
  -- CAL_SET (R397)
  (∀ (m : Master) (v : Word) (s : State), Reach .cal 0 s → v.getLsbD 0 = true → fld .calSetusec 0 0 19 0 s ≤ 999999 →
    ∃ t, exec (.calSet m v) s = .next t ∧
    t.cal.sec = reg .calSetsec0 0 0 s + fld .calSetsec1 0 0 15 0 s * 2 ^ 32 ∧
    t.cal.usec = fld .calSetusec 0 0 19 0 s ∧ t.cal.src = bits v.toNat 6 4 % 8 ∧ t.cal.adjRem = 0 ∧
    t.cal.rcSince = false) ∧
  -- CAL_ADJUST (R397)
  (∀ (m : Master) (v : Word) (s : State), Reach .cal 0 s → v.getLsbD 31 = true →
    ∃ t, exec (.calAdjust m v) s = .next t ∧ t.cal.adjRem = signed 24 v.toNat) ∧
  -- SLEW_DONE (R397)
  (∀ s : State, calRuns s → s.cal.adjRem ≠ 0 → ∃ t, exec .slewDone s = .next t ∧ t.cal.adjRem = 0) ∧
  -- CAL_ALARM (R399)
  (∀ (a : Nat) (s : State), calRuns s → Rising s.regs → alarmAt s = some a → s.cal.sec < a → a < 2 ^ 48 →
    s.cal.usec < 1000000 → s.cal.adjRem = 0 →
    ∃ t, exec .calAlarm s = .next t ∧ t.cal.sec = a ∧ t.cal.usec = 0 ∧ alarmAt t = none ∧
    (s.pwr.state ≠ .lit → s.pwr.active = 0 → (wakeEnabled s).testBit 5 = true → t.pwr.active.testBit 5 = true))

/-- O41. Segment commands complete: under hypotheses on the state and the operands alone, exec answers a next state with the
effect written. -/
def Obligations.VreliloCommandsComplete : Prop :=
  -- BEACON_SEND (R411)
  (∀ s : State, isLantern s = true → mayTransmit 1 s = true →
    ∃ t, exec .beaconSend s = .next t ∧ vget t.vlk.cnt 6 0 = (wrapAdd (vget s.vlk.cnt 6 0) 1).1 ∧
    t.vlk.sentBeacon = beaconPayload t ∧
    t.us = s.us + (1000000000 - s.vlk.timeNs % 1000000000 + 999) / 1000) ∧
  -- BEACON_RECEIVE (R411)
  (∀ (f : VFrame) (b : Beacon) (s : State), candleRuns s = true → s.vlk.enr = true → f.hcrcOk = true →
    toOwn f s = true → f.authOk = true → seqFresh s.vlk.rxSeg s.vlk.seenSeg f.seq = true → f.inverted = false →
    ∃ t, exec (.beaconReceive f b) s = .next t ∧ t.vlk.missedB = 0 ∧ t.vlk.failedB = 0 ∧ t.vlk.lastOff = beaconOff b s) ∧
  -- BEACON_MISSED (R411)
  (∀ s : State, candleRuns s = true → s.vlk.enr = true → s.vlk.missedB < 3 →
    ∃ t, exec .beaconMissed s = .next t ∧ t.vlk.missedB = s.vlk.missedB + 1 ∧ t.vlk.agree = 0 ∧ t.vlk.failedB = 0) ∧
  -- DISCOVER_SEND (R408)
  (∀ s : State, isLantern s = true → mayTransmit 1 s = true → fld .vlkCfg 0 0 30 30 s = 1 → s.vlk.slots.length < 64 →
    ∃ t, exec .discoverSend s = .next t ∧ vget t.vlk.cnt 0 0 = (wrapAdd (vget s.vlk.cnt 0 0) 1).1) ∧
  -- DISCOVER_RECEIVE (R408)
  (∀ (f : VFrame) (s : State), candleRuns s = true → s.vlk.enr = false → f.hcrcOk = true → f.authOk = true →
    f.inverted = false → mayTransmit 0 s = true →
    ∃ t, exec (.discoverReceive f) s = .next t ∧ vget t.vlk.cnt 0 0 = (wrapAdd (vget s.vlk.cnt 0 0) 1).1 ∧
    vget t.vlk.cnt 1 0 = (wrapAdd (vget s.vlk.cnt 1 0) 1).1) ∧
  -- ENROLL_RECEIVE (R408)
  (∀ (f : VFrame) (slot reason ident : Nat) (s : State), candleRuns s = true → s.vlk.enr = false → f.hcrcOk = true →
    f.authOk = true → f.inverted = false → slot ≠ 255 →
    ∃ t, exec (.enrollReceive f (.offer slot reason ident)) s = .next t ∧ t.vlk.ident = ident % 2 ^ 24) ∧
  -- ENROLL_RECEIVE (R408)
  (∀ (f : VFrame) (gen : Nat) (l : Nat × Nat) (s : State), candleRuns s = true → s.vlk.enr = false → s.vlk.lantern = some l →
    secRuns s = true → f.hcrcOk = true → toOwn f s = true → f.authOk = true → f.inverted = false → EventRoom s →
    ∃ t, exec (.enrollReceive f (.keynew gen)) s = .next t ∧ t.vlk.enr = true ∧ t.vlk.keyGen = gen ∧ t.vlk.seqUp = 1 ∧
    424 ∈ t.irq.pending ∧ Recorded 0x0F01 t) ∧
  -- ENROLL_RECEIVE (R408)
  (∀ (f : VFrame) (slot : Nat) (x : VSlot) (s : State), isLantern s = true → secRuns s = true → slotAt slot s = some x →
    x.state = .enrolling → f.hcrcOk = true → toOwn f s = true → f.authOk = true → f.inverted = false → EventRoom s →
    ∃ t, exec (.enrollReceive f (.confirm slot)) s = .next t ∧ slotAt slot t = some { x with state := .active } ∧
    424 ∈ t.irq.pending ∧ Recorded 0x0F03 t) ∧
  -- POLL_SEND (R406)
  (∀ (x : VSlot) (s : State), isLantern s = true → mayTransmit 1 s = true → s.vlk.slots.any (·.polled) = false →
    nextSlot s = some x →
    ∃ t, exec .pollSend s = .next t ∧ t.vlk.pollNext = x.k ∧ (∃ y ∈ t.vlk.slots, y.k = x.k ∧ y.polled = true)) ∧
  -- POLL_RECEIVE (R406)
  (∀ (f : VFrame) (s : State), candleRuns s = true → s.vlk.enr = true → f.hcrcOk = true → toOwn f s = true →
    f.authOk = true → seqFresh s.vlk.rxLink s.vlk.seenLink f.seq = true → f.inverted = false → mayTransmit 0 s = true →
    ∃ t, exec (.pollReceive f) s = .next t ∧ t.vlk.seqUp = s.vlk.seqUp + 1 ∧
    (∃ u, t = sendReply u ∧ t.vlk.sentUp = replyItems u ∧
    (f.items = [] → u.vlk.fwd = s.vlk.fwd ∧ u.vlk.attTx = s.vlk.attTx ∧ u.sec = s.sec ∧ u.pwr = s.pwr))) ∧
  -- POLL_RECEIVE (R406)
  (∀ (f : VFrame) (mw dur : Nat) (s : State), candleRuns s = true → s.vlk.enr = true → f.hcrcOk = true → toOwn f s = true →
    f.authOk = true → seqFresh s.vlk.rxLink s.vlk.seenLink f.seq = true → f.inverted = false → mayTransmit 0 s = true →
    f.items = [.lease mw dur] →
    ∃ t, exec (.pollReceive f) s = .next t ∧ t.llt.leaseValid = true ∧ t.llt.leaseMw = mw % 2 ^ 24 ∧ t.vlk.leaseDur = dur) ∧
  -- REPLY_RECEIVE (R406)
  (∀ (f : VFrame) (x : VSlot) (s : State), isLantern s = true → s.vlk.slots.find? (·.polled) = some x →
    ∃ t, exec (.replyReceive f) s = .next t ∧ (∀ y ∈ t.vlk.slots, y.k = x.k → y.polled = false)) ∧
  -- REPLY_RECEIVE (R406)
  (∀ (f : VFrame) (x : VSlot) (s : State), isLantern s = true → s.vlk.slots.find? (·.polled) = some x → slotAt x.k s = some x →
    f.hcrcOk = true → toOwn f s = true → f.src = candleId x.k s → f.authOk = true → f.inverted = false →
    seqFresh (if x.seen.isEmpty then none else some x.lastSeq) x.seen f.seq = true → f.items = [] →
    ∃ t y, exec (.replyReceive f) s = .next t ∧ slotAt x.k t = some y ∧ y.missed = 0 ∧ y.badTag = 0 ∧ f.seq ∈ y.seen ∧
    y.state = if x.state = .silent ∨ x.state = .dormant then .active else x.state) ∧
  -- POLL_MISSED (R406)
  (∀ (x : VSlot) (s : State), isLantern s = true → s.vlk.slots.find? (·.polled) = some x →
    ∃ t, exec .pollMissed s = .next t ∧ vget t.vlk.cnt 5 0 = (wrapAdd (vget s.vlk.cnt 5 0) 1).1 ∧
    (∀ y ∈ t.vlk.slots, y.k = x.k → y.polled = false) ∧ t.vlk.pollNext = x.k + 1) ∧
  -- IMAGE_RECEIVE (R420)
  (∀ (f : VFrame) (ident chunk chunks : Nat) (bytes : List Byte) (s : State), candleRuns s = true → s.vlk.enr = true →
    f.hcrcOk = true → toOwn f s = true → f.authOk = true → seqFresh s.vlk.rxSeg s.vlk.seenSeg f.seq = true →
    f.inverted = false → reg .imgbase 0 0 s ≠ 0 → chunk < chunks →
    ∃ t i, exec (.imageReceive f ident chunk chunks bytes) s = .next t ∧ t.vlk.rxImg = some i ∧ i.ident = ident ∧
    chunk ∈ i.have_) ∧
  -- VLK_WAKE (R417)
  (∀ (ones periods : Nat) (env : BootEnv) (s : State), 200 ≤ ones → s.sys.pers ≠ .factory →
    (s.sys.pers = .lantern → s.vlk.root = false) → s.pwr.state = .dim → s.pwr.phase = .settled → s.pwr.active = 0 →
    0x10 &&& wakeEnabled s ≠ 0 →
    ∃ t, exec (.vlkWake ones periods env) s = .next t ∧ t.pwr.state = .lit ∧ t.pwr.wakeTime = s.cal.sec ∧
    t.pwr.active = 0) ∧
  -- LEASE_RENEWAL_REQUEST (R413)
  (∀ (i : Nat) (s : State), s.vlk.renewAt = some i → candleRuns s = true →
    ∃ t, exec .leaseRenewalRequest s = .next t ∧ t.vlk.ask = true ∧ t.vlk.renewAt = none ∧ t.us = max s.us (i * 1000)) ∧
  -- LEASE_EXPIRY (R413)
  (∀ s : State, s.llt.leaseValid = true → s.vlk.window = none →
    ∃ t, exec .leaseExpiry s = .next t ∧ t.llt.leaseValid = false ∧ t.vlk.renewAt = none ∧ t.vlk.lostOnce = true ∧
    426 ∈ t.irq.pending) ∧
  -- QUIET_PERIOD_END (R416)
  (∀ (i : Nat) (s : State), s.vlk.quietEnd = some i →
    ∃ t, exec .quietPeriodEnd s = .next t ∧ t.vlk.quietEnd = none ∧ t.us = max s.us (i * 1000)) ∧
  -- ORPHAN_BACKOFF_END (R418)
  (∀ (i : Nat) (s : State), s.vlk.backoff = some i →
    candleRuns (advanceTo (i * 1000) s) = true → (advanceTo (i * 1000) s).llt.leaseValid = false →
    fld .orphanSpinup 0 0 31 31 (advanceTo (i * 1000) s) = 1 →
    ∃ t, exec .orphanBackoffEnd s = .next t ∧ t.llt.leaseValid = true ∧
    t.llt.leaseMw = fld .orphanSpinup 0 0 23 0 (advanceTo (i * 1000) s) ∧
    t.llt.leaseExp = now (advanceTo (i * 1000) s) + 10000 ∧ t.vlk.backoff = none ∧ t.vlk.windowUsed = true) ∧
  -- ORPHAN_WINDOW_END (R418)
  (∀ (i : Nat) (s : State), s.vlk.window = some i →
    ∃ t, exec .orphanWindowEnd s = .next t ∧ t.vlk.window = none ∧ t.llt.leaseValid = false) ∧
  -- SEGMENT_KEY_ROTATION (R410)
  (∀ s : State, isLantern s = true → s.vlk.keyNew = none → 2 ^ 30 ≤ s.vlk.segFrames →
    ∃ t, exec .segmentKeyRotation s = .next t ∧
    t.vlk.keyNew = some ((s.vlk.segGen + 1) % 128, s.vlk.timeNs / 1000000000 + 3)) ∧
  -- VLK_CMD_WAKE (R417)
  (∀ (m : Master) (k : Fin 64) (x : VSlot) (s : State), Reach .vlk 0 s → slotAt k s = some x → isLantern s = true →
    mayTransmit 1 s = true → x.state = .dormant →
    ∃ t, exec (.vlkCmdWake m k) s = .next t ∧ t.vlk.sentWake = some k.val) ∧
  -- VLK_CMD_WAKE (R417)
  (∀ (m : Master) (k : Fin 64) (x : VSlot) (s : State), Reach .vlk 0 s → slotAt k s = some x → x.state ≠ .dormant →
    exec (.vlkCmdWake m k) s = .next (useWindow .vlk 0 s)) ∧
  -- VLK_CMD_ATTREQ (R421)
  (∀ (m : Master) (k : Fin 64) (s : State), Reach .vlk 0 s → (slotAt k s).isSome = true →
    ∃ t, exec (.vlkCmdAttreq m k) s = .next t ∧ t.vlk.attPend = some k.val ∧ t.vlk.attRx = some (k.val, 0)) ∧
  -- VLK_CMD_REMOVE (R417)
  (∀ (m : Master) (k : Fin 64) (x : VSlot) (s : State), Reach .vlk 0 s → slotAt k s = some x → grantsOver x s = true →
    EventRoom s →
    ∃ t, exec (.vlkCmdRemove m k) s = .next t ∧ (∀ y ∈ t.vlk.slots, y.k ≠ x.k) ∧ Recorded 0x0F04 t) ∧
  -- IMAGE_FANOUT (R420)
  (∀ (m : Master) (v : Word) (s : State), Reach .vlk 0 s → Rising s.regs → isLantern s = true →
    ∃ t, exec (.imageFanout m v) s = .next t ∧ ∃ i, t.vlk.txImg = some i ∧ i.next = 0 ∧
    i.chunks = (fld .imgcmd 0 0 11 0 t * 1024 + 239) / 240) ∧
  -- LINK_OPEN (R422)
  (∀ s : State, candleRuns s = true → s.vlk.upOpen = false →
    ∃ t, exec .linkOpen s = .next t ∧ t.vlk.upOpen = true ∧ t.vlk.locked = false ∧ 427 ∈ t.irq.pending) ∧
  -- LINK_SHORT (R422)
  (∀ (port : Fin 2) (s : State), (if port = 0 then candleRuns s else isLantern s) = true → mayTransmit port s = true →
    ∃ t, exec (.linkShort port) s = .next t ∧ t.vlk.stopUntil[port] = some (now s + 1000) ∧ 434 ∈ t.irq.pending) ∧
  -- LINK_RETRY (R422)
  (∀ (port : Fin 2) (i : Nat) (s : State), s.vlk.stopUntil[port] = some i →
    ∃ t, exec (.linkRetry port) s = .next t ∧ t.vlk.stopUntil[port] = none ∧ t.us = max s.us (i * 1000)) ∧
  -- SEGMENT_GRANT_EXPIRY (R414)
  (∀ (k : Fin 64) (x : VSlot) (s : State), slotAt k s = some x → grantsOver x s = false → x.removing = false →
    now s < x.expiry → x.older = [] →
    ∃ t y, exec (.segmentGrantExpiry k) s = .next t ∧ slotAt k t = some y ∧ y.grant = 0 ∧ t.us = x.expiry * 1000) ∧
  -- FLEET_AUTHORIZATION_EXPIRY (R408)
  (∀ (i : Nat) (s : State), s.vlk.authExp = some i →
    ∃ t, exec .fleetAuthorizationExpiry s = .next t ∧ t.vlk.enr = false ∧ t.vlk.authExp = none ∧ t.vlk.lantern = none)

/-- O42. Sector, head and supply commands complete: under hypotheses on the state and the operands alone, exec answers a next
state with the effect written. -/
def Obligations.SectorHeadAndSupplyCommandsComplete : Prop :=
  -- HEAD_RETIRE (R425)
  (∀ (n : Fin 4) (head : Fin 64) (zones : List Nat) (s : State),
    (Reach .asq n s →
    ∃ t, exec (.headRetire n head true zones) s = .next t ∧ t.asq[n].headRet.testBit head = true) ∧
    (s.sys.acoresUp = true →
    ∃ t, exec (.headRetire n head false zones) s = .next t ∧
    t = retireZones .readOnly zones (s.modHce fun h => { h with headState := sput 0 head.val 1 h.headState }))) ∧
  -- SECTOR_START (R216)
  (∀ (n : Fin 4) (s : State), rwcLive n s = true → s.asq[n].avalid = true → s.rwc[n].inSector = false →
    ∃ t, exec (.sectorStart n) s = .next t ∧ t.rwc[n].inSector = true ∧ t.rwc[n].inGap = false) ∧
  -- SECTOR_END (R216)
  (∀ (n : Fin 4) (s : State), rwcLive n s = true → s.rwc[n].inSector = true →
    ∃ t, exec (.sectorEnd n) s = .next t ∧ t.rwc[n].inSector = false ∧ t.rwc[n].wg = false ∧ t.rwc[n].lg = false) ∧
  -- WEDGE_GAP (R216)
  (∀ (n : Fin 4) (crossing : Bool) (s : State), rwcLive n s = true → s.rwc[n].inGap = false →
    ∃ t, exec (.wedgeGap n crossing) s = .next t ∧ t.rwc[n].inGap = true ∧ t.rwc[n].wg = false ∧ t.rwc[n].lg = false ∧
    t.rwc[n].taperFrozen = 0) ∧
  -- DEFECT_SPAN_END (R212)
  (∀ (n : Fin 4) (bits_ track : Nat) (s : State), rwcLive n s = true → s.rwc[n].inDefect = true → bits_ ≤ 4096 →
    ∃ t, exec (.defectSpanEnd n bits_ track) s = .next t ∧ t.rwc[n].inDefect = false) ∧
  -- WICK_CRITICAL_LIMIT (R373)
  (∀ (temp : Int) (s : State), s.sys.aux = true → pdOn 2 s = false → s.pwr.state ≠ .dark → criticalTemp ≤ temp →
    s.rvr.commit = false → anyLoaded s = false →
    ∃ t, exec (.wickCriticalLimit temp) s = .next t ∧ t.pwr.state = .dark ∧ t.pwr.darkCritical = true) ∧
  -- PPR_DONE (R326)
  (∀ (res : Fin 5) (p : PprReq) (s : State), (hdrOf .dmc 0 s).freeze = false → s.dmc.ppr = some p →
    ∃ t, exec (.pprDone res) s = .next t ∧ t.dmc.pprDone = true ∧ t.dmc.pprRes = res.val ∧ t.dmc.ppr = none ∧
    411 ∈ t.irq.pending) ∧
  -- VDD_AUX33_LOSS (R102)
  (∀ s : State, ∃ t, exec .vddAux33Loss s = .next t ∧ t.sys.aux = false ∧ t.us = 0 ∧ t.mem = [] ∧
    t.evr = {} ∧ t.lif = {} ∧ t.cal = {} ∧
    ∀ (r : Reg) (n k : Nat), domAddr (r.addr n k) = false → reg r n k t = (BitVec.ofNat 32 (r.reset k)).toNat)

/-- O43. While the core domain is in reset every output pin shows the level of the Reset column of its table. While a channel
is idle in its power domains, its write and laser gates are low; while PD13 is gated, the motor gates and the
chopper are low. Two levels are the model's choice where the tables name none (log 191). -/
def Obligations.PinsInReset : Prop :=
  (∀ (p : Pin) (s : State), s.sys.coreUp = false → pinLevel p s = resetLevel p) ∧
  (∀ (n : Fin 4) (s : State), chanPins n s = false → pinLevel (.wg n) s = .low ∧ pinLevel (.lg n) s = .low ∧
    pinLevel (.wdP n) s = .low ∧ pinLevel (.wdN n) s = .high) ∧
  (∀ (k : Fin 6) (s : State), pdOn 13 s = false → pinLevel (.spnGate k) s = .low ∧ pinLevel .spnChop s = .low)
end

