-- ==== Sys2Proof/Laws/Bits.lean ====
section
/-!
SUPPORT. Laws of the sparse lists and fixed arrays of Bits: what an element reads as after an update, and that an update
keeps the canonical form.
-/

set_option Elab.async false

namespace Sys2Proof.Machine

open Sys2Proof

@[simp] theorem vget_vmod {α : Type} {n i : Nat} (v : Vector α n) (h : i < n) (f : α → α) (d : α) :
    vget (vmod v i f) i d = f (vget v i d) := by simp [vget, vmod, h]

theorem vget_vmod_ne {α : Type} {n : Nat} (v : Vector α n) {i j : Nat} (hij : i ≠ j) (f : α → α) (d : α) :
    vget (vmod v i f) j d = vget v j d := by
  simp only [vget, vmod]
  split
  · split
    · rw [Vector.getElem_set_ne _ _ hij]
    · rfl
  · rfl

/-- The header source of a page is the page's own number (R30). -/
theorem hdrBlk_hdr (h : Fin 77) : (hdrBlk h).1.hdr (hdrBlk h).2 = h := by revert h; decide

theorem sget_of_lt {β : Type} (d : β) {k : Nat} {l : List (Nat × β)} (h : ∀ x ∈ l, k < x.1) : sget d k l = d := by
  induction l with
  | nil => rfl
  | cons x t ih =>
    have := h x (by simp)
    simp only [sget]
    rw [if_neg (by omega)]
    exact ih fun y hy => h y (by simp [hy])

theorem sget_sput {β : Type} [DecidableEq β] (d : β) (k : Nat) (v : β) {l : List (Nat × β)} (h : Rising l) :
    sget d k (sput d k v l) = v := by
  induction l with
  | nil => simp only [sput]; split <;> simp_all [sget]
  | cons x t ih =>
    obtain ⟨a, b⟩ := x
    simp only [sput]
    split
    · split
      · next hk hv =>
        rw [hv]
        refine sget_of_lt d fun y hy => ?_
        rcases List.mem_cons.mp hy with rfl | hy
        · exact hk
        · exact Nat.lt_trans hk (h.1 y hy)
      · simp [sget]
    · split
      · split
        · next hk hv => rw [hv]; exact sget_of_lt d fun y hy => hk ▸ h.1 y hy
        · simp [sget]
      · next h1 h2 => simp only [sget]; rw [if_neg (Ne.symm h2)]; exact ih h.2

theorem sget_sput_ne {β : Type} [DecidableEq β] (d : β) {k j : Nat} (v : β) (l : List (Nat × β)) (hj : j ≠ k) :
    sget d j (sput d k v l) = sget d j l := by
  induction l with
  | nil => simp only [sput]; split <;> simp [sget, Ne.symm hj]
  | cons x t ih =>
    obtain ⟨a, b⟩ := x
    simp only [sput]
    split
    · split
      · rfl
      · simp [sget, Ne.symm hj]
    · split
      · next h2 => subst h2; split <;> simp [sget, Ne.symm hj]
      · simp only [sget]; split
        · rfl
        · exact ih

theorem mem_sput {β : Type} [DecidableEq β] {d : β} {k : Nat} {v : β} {l : List (Nat × β)} {x : Nat × β}
    (h : x ∈ sput d k v l) : x ∈ l ∨ x = (k, v) := by
  induction l with
  | nil => simp only [sput] at h; split at h <;> simp_all
  | cons y t ih =>
    obtain ⟨a, b⟩ := y
    simp only [sput] at h
    split at h
    · split at h <;> simp_all
      tauto
    · split at h
      · split at h <;> simp_all
        tauto
      · rcases List.mem_cons.mp h with rfl | h
        · simp
        · rcases ih h with h | h <;> simp [h]

theorem Rising.sput {β : Type} [DecidableEq β] {d : β} {k : Nat} {v : β} {l : List (Nat × β)} (h : Rising l) :
    Rising (Machine.sput d k v l) := by
  induction l with
  | nil => simp only [Machine.sput]; split <;> simp [Rising]
  | cons y t ih =>
    obtain ⟨a, b⟩ := y
    simp only [Machine.sput]
    split
    · next hk =>
      split
      · exact h
      · refine ⟨fun x hx => ?_, h⟩
        rcases List.mem_cons.mp hx with rfl | hx
        · exact hk
        · exact Nat.lt_trans hk (h.1 x hx)
    · split
      · next hk =>
        split
        · exact h.2
        · exact ⟨fun x hx => hk ▸ h.1 x hx, h.2⟩
      · refine ⟨fun x hx => ?_, ih h.2⟩
        rcases mem_sput hx with hx | rfl
        · exact h.1 x hx
        · simp only; omega

theorem Rising.filter {β : Type} {l : List (Nat × β)} (p : Nat × β → Bool) (h : Rising l) : Rising (l.filter p) := by
  induction l with
  | nil => exact h
  | cons y t ih =>
    simp only [List.filter]
    split
    · exact ⟨fun x hx => h.1 x (List.mem_filter.mp hx).1, ih h.2⟩
    · exact ih h.2

theorem mem_insertNat {x k : Nat} {l : List Nat} : x ∈ insertNat k l ↔ x = k ∨ x ∈ l := by
  induction l with
  | nil => simp [insertNat]
  | cons a l ih =>
    unfold insertNat
    split
    · simp
    split
    · next h => subst h; simp
    · simp [ih]; tauto

end Sys2Proof.Machine
end

