-- ==== Sys2Proof/Laws/Frame.lean ====
section
/-!
SUPPORT. Frames as bit masks over the parts of State: the composition lemmas from which one frame lemma for each shared
operation follows.
-/

set_option Elab.async false

namespace Sys2Proof.Machine

/-- The bit of a part of State. -/
def Field.idx : Field → Nat
  | .pending => 0
  | .us => 1
  | .busData => 2
  | .busErr => 3
  | .regs => 4
  | .mem => 5
  | .tcm => 6
  | .free => 7
  | .hdr => 8
  | .sys => 9
  | .clk => 10
  | .pwr => 11
  | .l1 => 12
  | .irq => 13
  | .llt => 14
  | .hce => 15
  | .lgr => 16
  | .xmt => 17
  | .rvr => 18
  | .cst => 19
  | .asq => 20
  | .rwc => 21
  | .ldp => 22
  | .tpe => 23
  | .sve => 24
  | .spn => 25
  | .psi => 26
  | .lsr => 27
  | .opt => 28
  | .dmc => 29
  | .bcc => 30
  | .sec => 31
  | .thm => 32
  | .trm => 33
  | .sup => 34
  | .evr => 35
  | .lif => 36
  | .cal => 37
  | .vlk => 38

/-- The mask of a list of parts. -/
def maskFields (l : List Field) : Nat := l.foldl (fun a x => a ||| 1 <<< x.idx) 0

/-- Every part whose bit is not in m is as it was. -/
def FrameB (m : Nat) (s t : State) : Prop := ∀ x : Field, m.testBit x.idx = false → x.same s t

theorem Field.same_refl (x : Field) (s : State) : x.same s s := by cases x <;> rfl

theorem Field.same_trans {x : Field} {s t u : State} (h : x.same s t) (k : x.same t u) : x.same s u := by
  cases x <;> exact Eq.trans k h

theorem FrameB.refl {m : Nat} {s : State} : FrameB m s s := fun x _ => x.same_refl s

/-- Every bit of g is in m. -/
@[reducible] def sub (g m : Nat) : Bool := Nat.beq (Nat.land g m) g

theorem sub_trans {a b c : Nat} (h : sub b c = true) (k : sub a b = true) : sub a c = true := by
  have h' : b &&& c = b := Nat.eq_of_beq_eq_true h
  have k' : a &&& b = a := Nat.eq_of_beq_eq_true k
  have : a &&& c = a := by rw [← k', Nat.land_assoc, h']
  exact (congrArg (fun x => Nat.beq x a) this).trans (Nat.beq_refl a)

theorem testBit_of_land {g m i : Nat} (h : sub g m = true) (k : m.testBit i = false) : g.testBit i = false := by
  have h' : g &&& m = g := Nat.eq_of_beq_eq_true h
  rw [← h']; simp [k]

theorem FrameB.step {g m : Nat} {s t u : State} (k : FrameB g t u) (hm : sub g m = true) (h : FrameB m s t) : FrameB m s u :=
  fun x hx => Field.same_trans (h x hx) (k x (testBit_of_land hm hx))

theorem FrameB.of_eq {m : Nat} {s t u : State} (h : u = t) (k : FrameB m s u) : FrameB m s t := h ▸ k

theorem FrameB.mono {g m : Nat} {s t : State} (hm : sub g m = true) (h : FrameB g s t) : FrameB m s t :=
  fun x hx => h x (testBit_of_land hm hx)

theorem FrameB.ite {m : Nat} {s t u : State} {c : Prop} {d : Decidable c} (h : FrameB m s t) (k : FrameB m s u) :
    FrameB m s (if c then t else u) := by split <;> assumption

theorem FrameB.foldl {α : Type} {m : Nat} {s t : State} {f : State → α → State} {l : List α}
    (k : ∀ u x, FrameB m u (f u x)) (h : FrameB m s t) : FrameB m s (l.foldl f t) := by
  induction l generalizing t with
  | nil => exact h
  | cons a l ih => exact ih (fun x hx => Field.same_trans (h x hx) (k t a x hx))

theorem FrameB.set_pending {m : Nat} {s t : State} {v} (hm : sub 0x1 m = true) (h : FrameB m s t) : FrameB m s { t with pending := v } := by
  refine FrameB.step ?_ hm h
  intro x hx; cases x <;> first | exact rfl | exact absurd hx (by decide)

theorem FrameB.set_us {m : Nat} {s t : State} {v} (hm : sub 0x2 m = true) (h : FrameB m s t) : FrameB m s { t with us := v } := by
  refine FrameB.step ?_ hm h
  intro x hx; cases x <;> first | exact rfl | exact absurd hx (by decide)

theorem FrameB.set_busData {m : Nat} {s t : State} {v} (hm : sub 0x4 m = true) (h : FrameB m s t) : FrameB m s { t with busData := v } := by
  refine FrameB.step ?_ hm h
  intro x hx; cases x <;> first | exact rfl | exact absurd hx (by decide)

theorem FrameB.set_busErr {m : Nat} {s t : State} {v} (hm : sub 0x8 m = true) (h : FrameB m s t) : FrameB m s { t with busErr := v } := by
  refine FrameB.step ?_ hm h
  intro x hx; cases x <;> first | exact rfl | exact absurd hx (by decide)

theorem FrameB.set_regs {m : Nat} {s t : State} {v} (hm : sub 0x10 m = true) (h : FrameB m s t) : FrameB m s { t with regs := v } := by
  refine FrameB.step ?_ hm h
  intro x hx; cases x <;> first | exact rfl | exact absurd hx (by decide)

theorem FrameB.set_mem {m : Nat} {s t : State} {v} (hm : sub 0x20 m = true) (h : FrameB m s t) : FrameB m s { t with mem := v } := by
  refine FrameB.step ?_ hm h
  intro x hx; cases x <;> first | exact rfl | exact absurd hx (by decide)

theorem FrameB.set_tcm {m : Nat} {s t : State} {v} (hm : sub 0x40 m = true) (h : FrameB m s t) : FrameB m s { t with tcm := v } := by
  refine FrameB.step ?_ hm h
  intro x hx; cases x <;> first | exact rfl | exact absurd hx (by decide)

theorem FrameB.set_free {m : Nat} {s t : State} {v} (hm : sub 0x80 m = true) (h : FrameB m s t) : FrameB m s { t with free := v } := by
  refine FrameB.step ?_ hm h
  intro x hx; cases x <;> first | exact rfl | exact absurd hx (by decide)

theorem FrameB.set_hdr {m : Nat} {s t : State} {v} (hm : sub 0x100 m = true) (h : FrameB m s t) : FrameB m s { t with hdr := v } := by
  refine FrameB.step ?_ hm h
  intro x hx; cases x <;> first | exact rfl | exact absurd hx (by decide)

theorem FrameB.set_sys {m : Nat} {s t : State} {v} (hm : sub 0x200 m = true) (h : FrameB m s t) : FrameB m s { t with sys := v } := by
  refine FrameB.step ?_ hm h
  intro x hx; cases x <;> first | exact rfl | exact absurd hx (by decide)

theorem FrameB.set_clk {m : Nat} {s t : State} {v} (hm : sub 0x400 m = true) (h : FrameB m s t) : FrameB m s { t with clk := v } := by
  refine FrameB.step ?_ hm h
  intro x hx; cases x <;> first | exact rfl | exact absurd hx (by decide)

theorem FrameB.set_pwr {m : Nat} {s t : State} {v} (hm : sub 0x800 m = true) (h : FrameB m s t) : FrameB m s { t with pwr := v } := by
  refine FrameB.step ?_ hm h
  intro x hx; cases x <;> first | exact rfl | exact absurd hx (by decide)

theorem FrameB.set_l1 {m : Nat} {s t : State} {v} (hm : sub 0x1000 m = true) (h : FrameB m s t) : FrameB m s { t with l1 := v } := by
  refine FrameB.step ?_ hm h
  intro x hx; cases x <;> first | exact rfl | exact absurd hx (by decide)

theorem FrameB.set_irq {m : Nat} {s t : State} {v} (hm : sub 0x2000 m = true) (h : FrameB m s t) : FrameB m s { t with irq := v } := by
  refine FrameB.step ?_ hm h
  intro x hx; cases x <;> first | exact rfl | exact absurd hx (by decide)

theorem FrameB.set_llt {m : Nat} {s t : State} {v} (hm : sub 0x4000 m = true) (h : FrameB m s t) : FrameB m s { t with llt := v } := by
  refine FrameB.step ?_ hm h
  intro x hx; cases x <;> first | exact rfl | exact absurd hx (by decide)

theorem FrameB.set_hce {m : Nat} {s t : State} {v} (hm : sub 0x8000 m = true) (h : FrameB m s t) : FrameB m s { t with hce := v } := by
  refine FrameB.step ?_ hm h
  intro x hx; cases x <;> first | exact rfl | exact absurd hx (by decide)

theorem FrameB.set_lgr {m : Nat} {s t : State} {v} (hm : sub 0x10000 m = true) (h : FrameB m s t) : FrameB m s { t with lgr := v } := by
  refine FrameB.step ?_ hm h
  intro x hx; cases x <;> first | exact rfl | exact absurd hx (by decide)

theorem FrameB.set_xmt {m : Nat} {s t : State} {v} (hm : sub 0x20000 m = true) (h : FrameB m s t) : FrameB m s { t with xmt := v } := by
  refine FrameB.step ?_ hm h
  intro x hx; cases x <;> first | exact rfl | exact absurd hx (by decide)

theorem FrameB.set_rvr {m : Nat} {s t : State} {v} (hm : sub 0x40000 m = true) (h : FrameB m s t) : FrameB m s { t with rvr := v } := by
  refine FrameB.step ?_ hm h
  intro x hx; cases x <;> first | exact rfl | exact absurd hx (by decide)

theorem FrameB.set_cst {m : Nat} {s t : State} {v} (hm : sub 0x80000 m = true) (h : FrameB m s t) : FrameB m s { t with cst := v } := by
  refine FrameB.step ?_ hm h
  intro x hx; cases x <;> first | exact rfl | exact absurd hx (by decide)

theorem FrameB.set_asq {m : Nat} {s t : State} {v} (hm : sub 0x100000 m = true) (h : FrameB m s t) : FrameB m s { t with asq := v } := by
  refine FrameB.step ?_ hm h
  intro x hx; cases x <;> first | exact rfl | exact absurd hx (by decide)

theorem FrameB.set_rwc {m : Nat} {s t : State} {v} (hm : sub 0x200000 m = true) (h : FrameB m s t) : FrameB m s { t with rwc := v } := by
  refine FrameB.step ?_ hm h
  intro x hx; cases x <;> first | exact rfl | exact absurd hx (by decide)

theorem FrameB.set_ldp {m : Nat} {s t : State} {v} (hm : sub 0x400000 m = true) (h : FrameB m s t) : FrameB m s { t with ldp := v } := by
  refine FrameB.step ?_ hm h
  intro x hx; cases x <;> first | exact rfl | exact absurd hx (by decide)

theorem FrameB.set_tpe {m : Nat} {s t : State} {v} (hm : sub 0x800000 m = true) (h : FrameB m s t) : FrameB m s { t with tpe := v } := by
  refine FrameB.step ?_ hm h
  intro x hx; cases x <;> first | exact rfl | exact absurd hx (by decide)

theorem FrameB.set_sve {m : Nat} {s t : State} {v} (hm : sub 0x1000000 m = true) (h : FrameB m s t) : FrameB m s { t with sve := v } := by
  refine FrameB.step ?_ hm h
  intro x hx; cases x <;> first | exact rfl | exact absurd hx (by decide)

theorem FrameB.set_spn {m : Nat} {s t : State} {v} (hm : sub 0x2000000 m = true) (h : FrameB m s t) : FrameB m s { t with spn := v } := by
  refine FrameB.step ?_ hm h
  intro x hx; cases x <;> first | exact rfl | exact absurd hx (by decide)

theorem FrameB.set_psi {m : Nat} {s t : State} {v} (hm : sub 0x4000000 m = true) (h : FrameB m s t) : FrameB m s { t with psi := v } := by
  refine FrameB.step ?_ hm h
  intro x hx; cases x <;> first | exact rfl | exact absurd hx (by decide)

theorem FrameB.set_lsr {m : Nat} {s t : State} {v} (hm : sub 0x8000000 m = true) (h : FrameB m s t) : FrameB m s { t with lsr := v } := by
  refine FrameB.step ?_ hm h
  intro x hx; cases x <;> first | exact rfl | exact absurd hx (by decide)

theorem FrameB.set_opt {m : Nat} {s t : State} {v} (hm : sub 0x10000000 m = true) (h : FrameB m s t) : FrameB m s { t with opt := v } := by
  refine FrameB.step ?_ hm h
  intro x hx; cases x <;> first | exact rfl | exact absurd hx (by decide)

theorem FrameB.set_dmc {m : Nat} {s t : State} {v} (hm : sub 0x20000000 m = true) (h : FrameB m s t) : FrameB m s { t with dmc := v } := by
  refine FrameB.step ?_ hm h
  intro x hx; cases x <;> first | exact rfl | exact absurd hx (by decide)

theorem FrameB.set_bcc {m : Nat} {s t : State} {v} (hm : sub 0x40000000 m = true) (h : FrameB m s t) : FrameB m s { t with bcc := v } := by
  refine FrameB.step ?_ hm h
  intro x hx; cases x <;> first | exact rfl | exact absurd hx (by decide)

theorem FrameB.set_sec {m : Nat} {s t : State} {v} (hm : sub 0x80000000 m = true) (h : FrameB m s t) : FrameB m s { t with sec := v } := by
  refine FrameB.step ?_ hm h
  intro x hx; cases x <;> first | exact rfl | exact absurd hx (by decide)

theorem FrameB.set_thm {m : Nat} {s t : State} {v} (hm : sub 0x100000000 m = true) (h : FrameB m s t) : FrameB m s { t with thm := v } := by
  refine FrameB.step ?_ hm h
  intro x hx; cases x <;> first | exact rfl | exact absurd hx (by decide)

theorem FrameB.set_trm {m : Nat} {s t : State} {v} (hm : sub 0x200000000 m = true) (h : FrameB m s t) : FrameB m s { t with trm := v } := by
  refine FrameB.step ?_ hm h
  intro x hx; cases x <;> first | exact rfl | exact absurd hx (by decide)

theorem FrameB.set_sup {m : Nat} {s t : State} {v} (hm : sub 0x400000000 m = true) (h : FrameB m s t) : FrameB m s { t with sup := v } := by
  refine FrameB.step ?_ hm h
  intro x hx; cases x <;> first | exact rfl | exact absurd hx (by decide)

theorem FrameB.set_evr {m : Nat} {s t : State} {v} (hm : sub 0x800000000 m = true) (h : FrameB m s t) : FrameB m s { t with evr := v } := by
  refine FrameB.step ?_ hm h
  intro x hx; cases x <;> first | exact rfl | exact absurd hx (by decide)

theorem FrameB.set_lif {m : Nat} {s t : State} {v} (hm : sub 0x1000000000 m = true) (h : FrameB m s t) : FrameB m s { t with lif := v } := by
  refine FrameB.step ?_ hm h
  intro x hx; cases x <;> first | exact rfl | exact absurd hx (by decide)

theorem FrameB.set_cal {m : Nat} {s t : State} {v} (hm : sub 0x2000000000 m = true) (h : FrameB m s t) : FrameB m s { t with cal := v } := by
  refine FrameB.step ?_ hm h
  intro x hx; cases x <;> first | exact rfl | exact absurd hx (by decide)

theorem FrameB.set_vlk {m : Nat} {s t : State} {v} (hm : sub 0x4000000000 m = true) (h : FrameB m s t) : FrameB m s { t with vlk := v } := by
  refine FrameB.step ?_ hm h
  intro x hx; cases x <;> first | exact rfl | exact absurd hx (by decide)

theorem FrameB.set_us_sys {m : Nat} {s t : State} {v0 v1} (hm : sub 0x202 m = true) (h : FrameB m s t) : FrameB m s { t with us := v0, sys := v1 } := by
  refine FrameB.step ?_ hm h
  intro x hx; cases x <;> first | exact rfl | exact absurd hx (by decide)

theorem FrameB.set_busData_busErr {m : Nat} {s t : State} {v0 v1} (hm : sub 0xC m = true) (h : FrameB m s t) : FrameB m s { t with busData := v0, busErr := v1 } := by
  refine FrameB.step ?_ hm h
  intro x hx; cases x <;> first | exact rfl | exact absurd hx (by decide)

theorem FrameB.set_busData_tcm {m : Nat} {s t : State} {v0 v1} (hm : sub 0x44 m = true) (h : FrameB m s t) : FrameB m s { t with busData := v0, tcm := v1 } := by
  refine FrameB.step ?_ hm h
  intro x hx; cases x <;> first | exact rfl | exact absurd hx (by decide)

theorem FrameB.set_busData_irq {m : Nat} {s t : State} {v0 v1} (hm : sub 0x2004 m = true) (h : FrameB m s t) : FrameB m s { t with busData := v0, irq := v1 } := by
  refine FrameB.step ?_ hm h
  intro x hx; cases x <;> first | exact rfl | exact absurd hx (by decide)

theorem FrameB.set_busData_cal {m : Nat} {s t : State} {v0 v1} (hm : sub 0x2000000004 m = true) (h : FrameB m s t) : FrameB m s { t with busData := v0, cal := v1 } := by
  refine FrameB.step ?_ hm h
  intro x hx; cases x <;> first | exact rfl | exact absurd hx (by decide)

theorem FrameB.set_clk_cal {m : Nat} {s t : State} {v0 v1} (hm : sub 0x2000000400 m = true) (h : FrameB m s t) : FrameB m s { t with clk := v0, cal := v1 } := by
  refine FrameB.step ?_ hm h
  intro x hx; cases x <;> first | exact rfl | exact absurd hx (by decide)

theorem FrameB.set_mem_dmc {m : Nat} {s t : State} {v0 v1} (hm : sub 0x20000020 m = true) (h : FrameB m s t) : FrameB m s { t with mem := v0, dmc := v1 } := by
  refine FrameB.step ?_ hm h
  intro x hx; cases x <;> first | exact rfl | exact absurd hx (by decide)

theorem FrameB.set_busData_busErr_l1 {m : Nat} {s t : State} {v0 v1 v2} (hm : sub 0x100C m = true) (h : FrameB m s t) : FrameB m s { t with busData := v0, busErr := v1, l1 := v2 } := by
  refine FrameB.step ?_ hm h
  intro x hx; cases x <;> first | exact rfl | exact absurd hx (by decide)

theorem FrameB.set_many14 {m : Nat} {s t : State} {v0 v1 v2 v3 v4 v5 v6 v7 v8 v9 v10 v11 v12 v13} (hm : sub 0x3D80004F32 m = true) (h : FrameB m s t) : FrameB m s { t with us := v0, regs := v1, mem := v2, hdr := v3, sys := v4, clk := v5, pwr := v6, llt := v7, sec := v8, thm := v9, sup := v10, evr := v11, lif := v12, cal := v13 } := by
  refine FrameB.step ?_ hm h
  intro x hx; cases x <;> first | exact rfl | exact absurd hx (by decide)

theorem FrameB.set_many31 {m : Nat} {s t : State} {v0 v1 v2 v3 v4 v5 v6 v7 v8 v9 v10 v11 v12 v13 v14 v15 v16 v17 v18 v19 v20 v21 v22 v23 v24 v25 v26 v27 v28 v29 v30} (hm : sub 0x47FFFFFF70 m = true) (h : FrameB m s t) : FrameB m s { t with regs := v0, mem := v1, tcm := v2, hdr := v3, sys := v4, clk := v5, pwr := v6, l1 := v7, irq := v8, llt := v9, hce := v10, lgr := v11, xmt := v12, rvr := v13, cst := v14, asq := v15, rwc := v16, ldp := v17, tpe := v18, sve := v19, spn := v20, psi := v21, lsr := v22, opt := v23, dmc := v24, bcc := v25, sec := v26, thm := v27, trm := v28, sup := v29, vlk := v30 } := by
  refine FrameB.step ?_ hm h
  intro x hx; cases x <;> first | exact rfl | exact absurd hx (by decide)

theorem testBit_foldl (l : List Field) (a i : Nat) :
    (l.foldl (fun a x => a ||| 1 <<< x.idx) a).testBit i = (a.testBit i || l.any fun x => x.idx == i) := by
  induction l generalizing a with
  | nil => simp
  | cons x l ih => rw [List.foldl_cons, ih, Nat.testBit_or, List.any_cons, Bool.or_assoc]; congr 1; simp [Nat.shiftLeft_eq, Nat.testBit_two_pow, BEq.beq]

theorem Field.idx_inj {x y : Field} (h : x.idx = y.idx) : x = y := by
  cases x <;> cases y <;> first | rfl | exact absurd h (by decide)

/-- A frame by masks is the frame by names. -/
theorem FrameB.frame {l : List Field} {m : Nat} {s t : State} (h : FrameB m s t) (e : sub m (maskFields l) = true) :
    OnlyChanges l s t := by
  intro x hx
  refine h x (testBit_of_land e ?_)
  rw [maskFields, testBit_foldl]
  simp only [Nat.zero_testBit, Bool.false_or, List.any_eq_false, beq_iff_eq]
  exact fun y hy hxy => hx (Field.idx_inj hxy ▸ hy)

end Sys2Proof.Machine
end

