-- ==== Sys2Proof/Laws/FrameOps.lean ====
section
/-!
SUPPORT. For each operation of the model, one lemma that says which parts of the state it may change: every part whose
bit its mask lacks is as it was. Each follows from those of the operations it calls.
-/

set_option Elab.async false
set_option linter.all false

namespace Sys2Proof.Machine

variable {m : Nat} {o : State}

theorem frame_State_drawn s (h : FrameB m o s) (e : sub 0x80 m) : FrameB m o (State.drawn s) := by
  refine .step ?_ e h
  unfold State.drawn
  repeat' first | (with_reducible first | apply FrameB.refl | apply FrameB.ite) | fail_if_no_progress ((with_reducible apply FrameB.set_free); rfl) | decide | split | dsimp only

theorem frame_State_modAsq x0 x1 s (h : FrameB m o s) (e : sub 0x100000 m) : FrameB m o (State.modAsq x0 x1 s) := by
  refine .step ?_ e h
  unfold State.modAsq
  repeat' first | (with_reducible first | apply FrameB.refl | apply FrameB.ite) | fail_if_no_progress ((with_reducible apply FrameB.set_asq); rfl) | decide | split | dsimp only

theorem frame_State_modBcc x0 s (h : FrameB m o s) (e : sub 0x40000000 m) : FrameB m o (State.modBcc x0 s) := by
  refine .step ?_ e h
  unfold State.modBcc
  repeat' first | (with_reducible first | apply FrameB.refl | apply FrameB.ite) | fail_if_no_progress ((with_reducible apply FrameB.set_bcc); rfl) | decide | split | dsimp only

theorem frame_State_modCtrl x0 x1 s (h : FrameB m o s) (e : sub 0x8000 m) : FrameB m o (State.modCtrl x0 x1 s) := by
  refine .step ?_ e h
  unfold State.modCtrl
  repeat' first | (with_reducible first | apply FrameB.refl | apply FrameB.ite) | fail_if_no_progress ((with_reducible apply FrameB.set_hce); rfl) | decide | split | dsimp only

theorem frame_State_modEvr x0 s (h : FrameB m o s) (e : sub 0x800000000 m) : FrameB m o (State.modEvr x0 s) := by
  refine .step ?_ e h
  unfold State.modEvr
  repeat' first | (with_reducible first | apply FrameB.refl | apply FrameB.ite) | fail_if_no_progress ((with_reducible apply FrameB.set_evr); rfl) | decide | split | dsimp only

theorem frame_State_modGrp x0 x1 s (h : FrameB m o s) (e : sub 0x800000 m) : FrameB m o (State.modGrp x0 x1 s) := by
  refine .step ?_ e h
  unfold State.modGrp
  repeat' first | (with_reducible first | apply FrameB.refl | apply FrameB.ite) | fail_if_no_progress ((with_reducible apply FrameB.set_tpe); rfl) | decide | split | dsimp only

theorem frame_State_modHce x0 s (h : FrameB m o s) (e : sub 0x8000 m) : FrameB m o (State.modHce x0 s) := by
  refine .step ?_ e h
  unfold State.modHce
  repeat' first | (with_reducible first | apply FrameB.refl | apply FrameB.ite) | fail_if_no_progress ((with_reducible apply FrameB.set_hce); rfl) | decide | split | dsimp only

theorem frame_State_modHdr x0 x1 s (h : FrameB m o s) (e : sub 0x100 m) : FrameB m o (State.modHdr x0 x1 s) := by
  refine .step ?_ e h
  unfold State.modHdr
  repeat' first | (with_reducible first | apply FrameB.refl | apply FrameB.ite) | fail_if_no_progress ((with_reducible apply FrameB.set_hdr); rfl) | decide | split | dsimp only

theorem frame_State_modLaser x0 x1 s (h : FrameB m o s) (e : sub 0x8000000 m) : FrameB m o (State.modLaser x0 x1 s) := by
  refine .step ?_ e h
  unfold State.modLaser
  repeat' first | (with_reducible first | apply FrameB.refl | apply FrameB.ite) | fail_if_no_progress ((with_reducible apply FrameB.set_lsr); rfl) | decide | split | dsimp only

theorem frame_State_modLdp x0 s (h : FrameB m o s) (e : sub 0x400000 m) : FrameB m o (State.modLdp x0 s) := by
  refine .step ?_ e h
  unfold State.modLdp
  repeat' first | (with_reducible first | apply FrameB.refl | apply FrameB.ite) | fail_if_no_progress ((with_reducible apply FrameB.set_ldp); rfl) | decide | split | dsimp only

theorem frame_State_modLgr x0 s (h : FrameB m o s) (e : sub 0x10000 m) : FrameB m o (State.modLgr x0 s) := by
  refine .step ?_ e h
  unfold State.modLgr
  repeat' first | (with_reducible first | apply FrameB.refl | apply FrameB.ite) | fail_if_no_progress ((with_reducible apply FrameB.set_lgr); rfl) | decide | split | dsimp only

theorem frame_State_modLlt x0 s (h : FrameB m o s) (e : sub 0x4000 m) : FrameB m o (State.modLlt x0 s) := by
  refine .step ?_ e h
  unfold State.modLlt
  repeat' first | (with_reducible first | apply FrameB.refl | apply FrameB.ite) | fail_if_no_progress ((with_reducible apply FrameB.set_llt); rfl) | decide | split | dsimp only

theorem frame_State_modPort x0 x1 s (h : FrameB m o s) (e : sub 0x4000 m) : FrameB m o (State.modPort x0 x1 s) := by
  refine .step ?_ e h
  unfold State.modPort
  repeat' first | (with_reducible first | apply FrameB.refl | apply FrameB.ite) | fail_if_no_progress ((with_reducible apply FrameB.set_llt); rfl) | decide | split | dsimp only

theorem frame_State_modPsi x0 x1 s (h : FrameB m o s) (e : sub 0x4000000 m) : FrameB m o (State.modPsi x0 x1 s) := by
  refine .step ?_ e h
  unfold State.modPsi
  repeat' first | (with_reducible first | apply FrameB.refl | apply FrameB.ite) | fail_if_no_progress ((with_reducible apply FrameB.set_psi); rfl) | decide | split | dsimp only

theorem frame_State_modPu x0 x1 s (h : FrameB m o s) (e : sub 0x10000000 m) : FrameB m o (State.modPu x0 x1 s) := by
  refine .step ?_ e h
  unfold State.modPu
  repeat' first | (with_reducible first | apply FrameB.refl | apply FrameB.ite) | fail_if_no_progress ((with_reducible apply FrameB.set_opt); rfl) | decide | split | dsimp only

theorem frame_State_modPwr x0 s (h : FrameB m o s) (e : sub 0x800 m) : FrameB m o (State.modPwr x0 s) := by
  refine .step ?_ e h
  unfold State.modPwr
  repeat' first | (with_reducible first | apply FrameB.refl | apply FrameB.ite) | fail_if_no_progress ((with_reducible apply FrameB.set_pwr); rfl) | decide | split | dsimp only

theorem frame_State_modRvr x0 s (h : FrameB m o s) (e : sub 0x40000 m) : FrameB m o (State.modRvr x0 s) := by
  refine .step ?_ e h
  unfold State.modRvr
  repeat' first | (with_reducible first | apply FrameB.refl | apply FrameB.ite) | fail_if_no_progress ((with_reducible apply FrameB.set_rvr); rfl) | decide | split | dsimp only

theorem frame_State_modRwc x0 x1 s (h : FrameB m o s) (e : sub 0x200000 m) : FrameB m o (State.modRwc x0 x1 s) := by
  refine .step ?_ e h
  unfold State.modRwc
  repeat' first | (with_reducible first | apply FrameB.refl | apply FrameB.ite) | fail_if_no_progress ((with_reducible apply FrameB.set_rwc); rfl) | decide | split | dsimp only

theorem frame_State_modSec x0 s (h : FrameB m o s) (e : sub 0x80000000 m) : FrameB m o (State.modSec x0 s) := by
  refine .step ?_ e h
  unfold State.modSec
  repeat' first | (with_reducible first | apply FrameB.refl | apply FrameB.ite) | fail_if_no_progress ((with_reducible apply FrameB.set_sec); rfl) | decide | split | dsimp only

theorem frame_State_modSpn x0 s (h : FrameB m o s) (e : sub 0x2000000 m) : FrameB m o (State.modSpn x0 s) := by
  refine .step ?_ e h
  unfold State.modSpn
  repeat' first | (with_reducible first | apply FrameB.refl | apply FrameB.ite) | fail_if_no_progress ((with_reducible apply FrameB.set_spn); rfl) | decide | split | dsimp only

theorem frame_State_modSve x0 x1 s (h : FrameB m o s) (e : sub 0x1000000 m) : FrameB m o (State.modSve x0 x1 s) := by
  refine .step ?_ e h
  unfold State.modSve
  repeat' first | (with_reducible first | apply FrameB.refl | apply FrameB.ite) | fail_if_no_progress ((with_reducible apply FrameB.set_sve); rfl) | decide | split | dsimp only

theorem frame_State_modSys x0 s (h : FrameB m o s) (e : sub 0x200 m) : FrameB m o (State.modSys x0 s) := by
  refine .step ?_ e h
  unfold State.modSys
  repeat' first | (with_reducible first | apply FrameB.refl | apply FrameB.ite) | fail_if_no_progress ((with_reducible apply FrameB.set_sys); rfl) | decide | split | dsimp only

theorem frame_State_modThm x0 s (h : FrameB m o s) (e : sub 0x100000000 m) : FrameB m o (State.modThm x0 s) := by
  refine .step ?_ e h
  unfold State.modThm
  repeat' first | (with_reducible first | apply FrameB.refl | apply FrameB.ite) | fail_if_no_progress ((with_reducible apply FrameB.set_thm); rfl) | decide | split | dsimp only

theorem frame_State_modVlk x0 s (h : FrameB m o s) (e : sub 0x4000000000 m) : FrameB m o (State.modVlk x0 s) := by
  refine .step ?_ e h
  unfold State.modVlk
  repeat' first | (with_reducible first | apply FrameB.refl | apply FrameB.ite) | fail_if_no_progress ((with_reducible apply FrameB.set_vlk); rfl) | decide | split | dsimp only

theorem frame_State_modXmt x0 s (h : FrameB m o s) (e : sub 0x20000 m) : FrameB m o (State.modXmt x0 s) := by
  refine .step ?_ e h
  unfold State.modXmt
  repeat' first | (with_reducible first | apply FrameB.refl | apply FrameB.ite) | fail_if_no_progress ((with_reducible apply FrameB.set_xmt); rfl) | decide | split | dsimp only

theorem frame_State_withFetchWord s x1 x2 (h : FrameB m o s) (e : sub 0x1 m) : FrameB m o (State.withFetchWord s x1 x2) := by
  refine .step ?_ e h
  unfold State.withFetchWord
  repeat' first | (with_reducible first | apply FrameB.refl | apply FrameB.ite) | fail_if_no_progress ((with_reducible apply FrameB.set_pending); rfl) | decide | split | dsimp only

theorem frame_enqueue x0 x1 x2 x3 x4 s (h : FrameB m o s) (e : sub 0x1800000000 m) : FrameB m o (enqueue x0 x1 x2 x3 x4 s) := by
  refine .step ?_ e h
  unfold enqueue
  repeat' first | (with_reducible first | apply FrameB.refl | apply frame_State_modEvr | apply FrameB.ite) | fail_if_no_progress ((with_reducible apply FrameB.set_lif); rfl) | decide | split | dsimp only

theorem frame_setIrqStat x0 x1 x2 s (h : FrameB m o s) (e : sub 0x100 m) : FrameB m o (setIrqStat x0 x1 x2 s) := by
  refine .step ?_ e h
  unfold setIrqStat
  repeat' first | (with_reducible first | apply FrameB.refl | apply frame_State_modHdr | apply FrameB.ite) | decide | split | dsimp only

theorem frame_lifBump x0 x1 s (h : FrameB m o s) (e : sub 0x1800000100 m) : FrameB m o (lifBump x0 x1 s) := by
  refine .step ?_ e h
  unfold lifBump
  repeat' first | (with_reducible first | apply FrameB.refl | apply frame_enqueue | apply frame_setIrqStat | apply FrameB.ite) | fail_if_no_progress ((with_reducible apply FrameB.set_lif); rfl) | decide | split | dsimp only

theorem frame_recordEvent x0 x1 x2 x3 x4 s (h : FrameB m o s) (e : sub 0x1800000100 m) : FrameB m o (recordEvent x0 x1 x2 x3 x4 s) := by
  refine .step ?_ e h
  unfold recordEvent
  repeat' first | (with_reducible first | apply FrameB.refl | apply frame_enqueue | apply frame_lifBump | apply FrameB.foldl (fun _ _ => ?_) | apply FrameB.ite) | decide | split | dsimp only

theorem frame_ev x0 x1 x2 x3 x4 s (h : FrameB m o s) (e : sub 0x1800000100 m) : FrameB m o (ev x0 x1 x2 x3 x4 s) := by
  refine .step ?_ e h
  unfold ev
  repeat' first | (with_reducible first | apply FrameB.refl | apply frame_recordEvent | apply FrameB.ite) | decide | split | dsimp only

theorem frame_releaseFetch s (h : FrameB m o s) (e : sub 0x18000 m) : FrameB m o (releaseFetch s) := by
  refine .step ?_ e h
  unfold releaseFetch
  repeat' first | (with_reducible first | apply FrameB.refl | apply frame_State_modHce | apply frame_State_modLgr | apply FrameB.ite) | decide | split | dsimp only

theorem frame_commitGrantEnd s (h : FrameB m o s) (e : sub 0x4000 m) : FrameB m o (commitGrantEnd s) := by
  refine .step ?_ e h
  unfold commitGrantEnd
  repeat' first | (with_reducible first | apply FrameB.refl | apply frame_State_modLlt | apply FrameB.ite) | decide | split | dsimp only

theorem frame_abandonCommit s (h : FrameB m o s) (e : sub 0x180005C380 m) : FrameB m o (abandonCommit s) := by
  refine .step ?_ e h
  unfold abandonCommit
  repeat' first | (with_reducible first | apply FrameB.refl | apply frame_State_drawn | apply frame_State_modRvr | apply frame_State_modSys | apply frame_commitGrantEnd | apply frame_ev | apply frame_releaseFetch | apply FrameB.ite) | decide | split | dsimp only

theorem frame_optSeekIdle x0 s (h : FrameB m o s) (e : sub 0x10000000 m) : FrameB m o (optSeekIdle x0 s) := by
  refine .step ?_ e h
  unfold optSeekIdle
  repeat' first | (with_reducible first | apply FrameB.refl | apply frame_State_modPu | apply FrameB.ite) | decide | split | dsimp only

theorem frame_raiseLine x0 s (h : FrameB m o s) (e : sub 0x2000 m) : FrameB m o (raiseLine x0 s) := by
  refine .step ?_ e h
  unfold raiseLine
  repeat' first | (with_reducible first | apply FrameB.refl | apply FrameB.ite) | fail_if_no_progress ((with_reducible apply FrameB.set_irq); rfl) | decide | split | dsimp only

theorem frame_sveLine x0 x1 s (h : FrameB m o s) (e : sub 0x2000 m) : FrameB m o (sveLine x0 x1 s) := by
  refine .step ?_ e h
  unfold sveLine
  repeat' first | (with_reducible first | apply FrameB.refl | apply frame_raiseLine | apply FrameB.ite) | decide | split | dsimp only

theorem frame_waitComes x0 x1 s (h : FrameB m o s) (e : sub 0x100000 m) : FrameB m o (waitComes x0 x1 s) := by
  refine .step ?_ e h
  unfold waitComes
  repeat' first | (with_reducible first | apply FrameB.refl | apply frame_State_modAsq | apply FrameB.ite) | decide | split | dsimp only

theorem frame_seekEnd x0 x1 x2 s (h : FrameB m o s) (e : sub 0x1801102100 m) : FrameB m o (seekEnd x0 x1 x2 s) := by
  refine .step ?_ e h
  unfold seekEnd
  repeat' first | (with_reducible first | apply FrameB.refl | apply frame_State_modSve | apply frame_ev | apply frame_sveLine | apply frame_waitComes | apply FrameB.ite) | decide | split | dsimp only

theorem frame_moveEnd x0 x1 x2 s (h : FrameB m o s) (e : sub 0x1811102100 m) : FrameB m o (moveEnd x0 x1 x2 s) := by
  refine .step ?_ e h
  unfold moveEnd
  repeat' first | (with_reducible first | apply FrameB.refl | apply frame_State_modPu | apply frame_State_modSve | apply frame_optSeekIdle | apply frame_seekEnd | apply FrameB.ite) | decide | split | dsimp only

theorem frame_abandonMoves x0 x1 s (h : FrameB m o s) (e : sub 0x1811102100 m) : FrameB m o (abandonMoves x0 x1 s) := by
  refine .step ?_ e h
  unfold abandonMoves
  repeat' first | (with_reducible first | apply FrameB.refl | apply frame_moveEnd | apply frame_optSeekIdle | apply frame_seekEnd | apply FrameB.ite) | decide | split | dsimp only

theorem frame_asqLine x0 x1 s (h : FrameB m o s) (e : sub 0x2000 m) : FrameB m o (asqLine x0 x1 s) := by
  refine .step ?_ e h
  unfold asqLine
  repeat' first | (with_reducible first | apply FrameB.refl | apply frame_raiseLine | apply FrameB.ite) | decide | split | dsimp only

theorem frame_linePieces {g : Nat} x0 x1 x2 x3 x4 s (h : FrameB m o s) (e : sub g m)
    (k : ∀ a b c t, FrameB m o t → FrameB m o (x0 a b c t)) : FrameB m o (linePieces x0 x1 x2 x3 x4 s) := by
  induction x1 generalizing x2 x3 x4 s with
  | zero => unfold linePieces; exact h
  | succ _ ih =>
    unfold linePieces
    exact .ite h (ih _ _ _ _ (k _ _ _ _ h))

theorem frame_blockErrorP x0 x1 x2 x3 x4 x5 x6 s (h : FrameB m o s) (e : sub 0x1800000100 m) : FrameB m o (blockErrorP x0 x1 x2 x3 x4 x5 x6 s) := by
  refine .step ?_ e h
  unfold blockErrorP
  repeat' first | (with_reducible first | apply FrameB.refl | apply frame_State_modHdr | apply frame_ev | apply FrameB.ite) | decide | split | dsimp only

theorem frame_blockError x0 x1 x2 x3 s (h : FrameB m o s) (e : sub 0x1800000100 m) : FrameB m o (blockError x0 x1 x2 x3 s) := by
  refine .step ?_ e h
  unfold blockError
  repeat' first | (with_reducible first | apply FrameB.refl | apply frame_blockErrorP | apply FrameB.ite) | decide | split | dsimp only

theorem frame_transferError x0 x1 s (h : FrameB m o s) (e : sub 0x1800000180 m) : FrameB m o (transferError x0 x1 s) := by
  refine .step ?_ e h
  unfold transferError
  repeat' first | (with_reducible first | apply FrameB.refl | apply frame_State_drawn | apply frame_blockError | apply FrameB.ite) | decide | split | dsimp only

theorem frame_failedRead x0 x1 x2 s (h : FrameB m o s) (e : sub 0x1800002100 m) : FrameB m o (failedRead x0 x1 x2 s) := by
  refine .step ?_ e h
  unfold failedRead
  repeat' first | (with_reducible first | apply FrameB.refl | apply frame_ev | apply frame_raiseLine | apply FrameB.ite) | decide | split | dsimp only

theorem frame_rowEvent x0 s (h : FrameB m o s) (e : sub 0x1800002100 m) : FrameB m o (rowEvent x0 s) := by
  refine .step ?_ e h
  unfold rowEvent
  repeat' first | (with_reducible first | apply FrameB.refl | apply frame_ev | apply frame_raiseLine | apply FrameB.ite) | decide | split | dsimp only

theorem frame_rowLogRead x0 x1 x2 s (h : FrameB m o s) (e : sub 0x1820002100 m) : FrameB m o (rowLogRead x0 x1 x2 s) := by
  refine .step ?_ e h
  unfold rowLogRead
  repeat' first | (with_reducible first | apply FrameB.refl | apply frame_rowEvent | apply FrameB.foldl (fun _ _ => ?_) | apply FrameB.ite) | fail_if_no_progress ((with_reducible apply FrameB.set_dmc); rfl) | decide | split | dsimp only

theorem frame_dmcRead x0 x1 x2 s (h : FrameB m o s) (e : sub 0x1820002100 m) : FrameB m o (dmcRead x0 x1 x2 s).1 := by
  refine .step ?_ e h
  unfold dmcRead
  repeat' first | (with_reducible first | apply FrameB.refl | apply frame_failedRead | apply frame_rowLogRead | apply FrameB.ite) | decide | split | dsimp only

theorem frame_bccDirect x0 x1 x2 x3 s (h : FrameB m o s) (e : sub 0x1820002100 m) : FrameB m o (bccDirect x0 x1 x2 x3 s).1 := by
  refine .step ?_ e h
  unfold bccDirect
  repeat' first | (with_reducible first | apply FrameB.refl | apply frame_dmcRead | apply FrameB.ite) | decide | split | dsimp only

theorem frame_bccPut x0 s (h : FrameB m o s) (e : sub 0x40000000 m) : FrameB m o (bccPut x0 s) := by
  refine .step ?_ e h
  unfold bccPut
  repeat' first | (with_reducible first | apply FrameB.refl | apply frame_State_modBcc | apply FrameB.ite) | decide | split | dsimp only

theorem frame_bccTick s (h : FrameB m o s) (e : sub 0x40000000 m) : FrameB m o (bccTick s) := by
  refine .step ?_ e h
  unfold bccTick
  repeat' first | (with_reducible first | apply FrameB.refl | apply frame_State_modBcc | apply FrameB.ite) | decide | split | dsimp only

theorem frame_lineRead x0 x1 x2 s (h : FrameB m o s) (e : sub 0x1820002100 m) : FrameB m o (lineRead x0 x1 x2 s).1 := by
  refine .step ?_ e h
  unfold lineRead
  repeat' first | (with_reducible first | apply FrameB.refl | apply frame_dmcRead | apply FrameB.ite) | decide | split | dsimp only

theorem frame_unpoison x0 x1 s (h : FrameB m o s) (e : sub 0x20000000 m) : FrameB m o (unpoison x0 x1 s) := by
  refine .step ?_ e h
  unfold unpoison
  repeat' first | (with_reducible first | apply FrameB.refl | apply FrameB.ite) | fail_if_no_progress ((with_reducible apply FrameB.set_dmc); rfl) | decide | split | dsimp only

theorem frame_poisonBytes x0 x1 s (h : FrameB m o s) (e : sub 0x20000000 m) : FrameB m o (poisonBytes x0 x1 s) := by
  refine .step ?_ e h
  unfold poisonBytes
  repeat' first | (with_reducible first | apply FrameB.refl | apply frame_unpoison | apply FrameB.ite) | fail_if_no_progress ((with_reducible apply FrameB.set_dmc); rfl) | decide | split | dsimp only

theorem frame_setMemByte x0 x1 s (h : FrameB m o s) (e : sub 0x20 m) : FrameB m o (setMemByte x0 x1 s) := by
  refine .step ?_ e h
  unfold setMemByte
  repeat' first | (with_reducible first | apply FrameB.refl | apply FrameB.ite) | fail_if_no_progress ((with_reducible apply FrameB.set_mem); rfl) | decide | split | dsimp only

theorem frame_memWriteBytes x0 x1 s (h : FrameB m o s) (e : sub 0x20 m) : FrameB m o (memWriteBytes x0 x1 s) := by
  refine .step ?_ e h
  clear h e
  induction x1 generalizing x0 s with
  | nil => unfold memWriteBytes; exact .refl
  | cons _ _ ih =>
    unfold memWriteBytes
    repeat' first | (with_reducible first | apply FrameB.refl | apply frame_setMemByte | apply FrameB.ite) | ((with_reducible apply FrameB.step (ih ..)); rfl) | decide | split | dsimp only

theorem frame_memWrite x0 x1 x2 s (h : FrameB m o s) (e : sub 0x20 m) : FrameB m o (memWrite x0 x1 x2 s) := by
  refine .step ?_ e h
  unfold memWrite
  repeat' first | (with_reducible first | apply FrameB.refl | apply frame_memWriteBytes | apply FrameB.ite) | decide | split | dsimp only

theorem frame_dmcWrite x0 x1 x2 s (h : FrameB m o s) (e : sub 0x20000020 m) : FrameB m o (dmcWrite x0 x1 x2 s) := by
  refine .step ?_ e h
  unfold dmcWrite
  repeat' first | (with_reducible first | apply FrameB.refl | apply frame_memWrite | apply frame_poisonBytes | apply FrameB.ite) | fail_if_no_progress ((with_reducible apply FrameB.set_dmc); rfl) | decide | split | dsimp only

theorem frame_writeBack x0 s (h : FrameB m o s) (e : sub 0x20000020 m) : FrameB m o (writeBack x0 s) := by
  refine .step ?_ e h
  unfold writeBack
  repeat' first | (with_reducible first | apply FrameB.refl | apply frame_dmcWrite | apply FrameB.ite) | decide | split | dsimp only

theorem frame_bccFill x0 x1 x2 x3 x4 s (h : FrameB m o s) (e : sub 0x60000020 m) : FrameB m o (bccFill x0 x1 x2 x3 x4 s) := by
  refine .step ?_ e h
  unfold bccFill
  repeat' first | (with_reducible first | apply FrameB.refl | apply frame_bccPut | apply frame_bccTick | apply frame_writeBack | apply FrameB.ite) | decide | split | dsimp only

theorem frame_bccMiss x0 x1 x2 x3 s (h : FrameB m o s) (e : sub 0x1860002120 m) : FrameB m o (bccMiss x0 x1 x2 x3 s).1 := by
  refine .step ?_ e h
  unfold bccMiss
  repeat' first | (with_reducible first | apply FrameB.refl | apply frame_bccFill | apply frame_lineRead | apply FrameB.ite) | decide | split | dsimp only

theorem frame_bccRead x0 x1 x2 x3 s (h : FrameB m o s) (e : sub 0x1860002120 m) : FrameB m o (bccRead x0 x1 x2 x3 s).1 := by
  refine .step ?_ e h
  unfold bccRead
  repeat' first | (with_reducible first | apply FrameB.refl | apply frame_bccDirect | apply frame_bccMiss | apply frame_bccPut | apply frame_bccTick | apply FrameB.ite) | decide | split | dsimp only

theorem frame_backLine x0 x1 x2 s (h : FrameB m o s) (e : sub 0x1860002120 m) : FrameB m o (backLine x0 x1 x2 s).1 := by
  refine .step ?_ e h
  unfold backLine
  repeat' first | (with_reducible first | apply FrameB.refl | apply frame_bccRead | apply FrameB.ite) | decide | split | dsimp only

theorem frame_l1Fill x0 x1 x2 s (h : FrameB m o s) (e : sub 0x1860003120 m) : FrameB m o (l1Fill x0 x1 x2 s).1 := by
  refine .step ?_ e h
  unfold l1Fill
  repeat' first | (with_reducible first | apply FrameB.refl | apply frame_backLine | apply FrameB.ite) | fail_if_no_progress ((with_reducible apply FrameB.set_l1); rfl) | refine FrameB.of_eq (congrArg Prod.fst ‹backLine _ _ _ _ = _›) ?_ | refine FrameB.of_eq (congrArg Prod.fst ‹l1Fill _ _ _ _ = _›) ?_ | decide | split | dsimp only

theorem frame_drainWalk s (h : FrameB m o s) (e : sub 0x600000A0 m) : FrameB m o (drainWalk s) := by
  refine .step ?_ e h
  unfold drainWalk
  repeat' first | (with_reducible first | apply FrameB.refl | apply frame_State_drawn | apply frame_State_modBcc | apply frame_bccPut | apply frame_writeBack | apply FrameB.foldl (fun _ _ => ?_) | apply FrameB.ite) | decide | split | dsimp only

theorem frame_bccWrite x0 x1 x2 x3 s (h : FrameB m o s) (e : sub 0x18600021A0 m) : FrameB m o (bccWrite x0 x1 x2 x3 s) := by
  refine .step ?_ e h
  unfold bccWrite
  repeat' first | (with_reducible first | apply FrameB.refl | apply frame_bccFill | apply frame_bccPut | apply frame_bccTick | apply frame_dmcWrite | apply frame_drainWalk | apply frame_lineRead | apply FrameB.ite) | decide | split | dsimp only

theorem frame_ddrAccess x0 x1 x2 x3 x4 s (h : FrameB m o s) (e : sub 0x18600021AC m) : FrameB m o (ddrAccess x0 x1 x2 x3 x4 s) := by
  refine .step ?_ e h
  unfold ddrAccess
  repeat' first | (with_reducible first | apply FrameB.refl | apply frame_bccRead | apply frame_bccWrite | apply FrameB.ite) | fail_if_no_progress ((with_reducible apply FrameB.set_busData_busErr); rfl) | fail_if_no_progress ((with_reducible apply FrameB.set_busData); rfl) | fail_if_no_progress ((with_reducible apply FrameB.set_busErr); rfl) | decide | split | dsimp only

theorem frame_acoreLoad x0 x1 x2 x3 s (h : FrameB m o s) (e : sub 0x18600031AC m) : FrameB m o (acoreLoad x0 x1 x2 x3 s) := by
  refine .step ?_ e h
  unfold acoreLoad
  repeat' first | (with_reducible first | apply FrameB.refl | apply frame_ddrAccess | apply frame_l1Fill | apply FrameB.ite) | fail_if_no_progress ((with_reducible apply FrameB.set_busData_busErr); rfl) | fail_if_no_progress ((with_reducible apply FrameB.set_busData); rfl) | fail_if_no_progress ((with_reducible apply FrameB.set_busErr); rfl) | decide | split | dsimp only

theorem frame_acoreStore x0 x1 x2 x3 s (h : FrameB m o s) (e : sub 0x18600031AC m) : FrameB m o (acoreStore x0 x1 x2 x3 s) := by
  refine .step ?_ e h
  unfold acoreStore
  repeat' first | (with_reducible first | apply FrameB.refl | apply frame_ddrAccess | apply frame_l1Fill | apply frame_memWrite | apply FrameB.ite) | fail_if_no_progress ((with_reducible apply FrameB.set_busData_busErr_l1); rfl) | fail_if_no_progress ((with_reducible apply FrameB.set_busData_busErr); rfl) | fail_if_no_progress ((with_reducible apply FrameB.set_busData); rfl) | fail_if_no_progress ((with_reducible apply FrameB.set_busErr); rfl) | fail_if_no_progress ((with_reducible apply FrameB.set_l1); rfl) | decide | split | dsimp only

theorem frame_l1DropAll x0 s (h : FrameB m o s) (e : sub 0x1000 m) : FrameB m o (l1DropAll x0 s) := by
  refine .step ?_ e h
  unfold l1DropAll
  repeat' first | (with_reducible first | apply FrameB.refl | apply FrameB.ite) | fail_if_no_progress ((with_reducible apply FrameB.set_l1); rfl) | decide | split | dsimp only

theorem frame_memTake x0 x1 x2 x3 x4 s (h : FrameB m o s) (e : sub 0x18600031AC m) : FrameB m o (memTake x0 x1 x2 x3 x4 s) := by
  refine .step ?_ e h
  unfold memTake
  repeat' first | (with_reducible first | apply FrameB.refl | apply frame_acoreLoad | apply frame_acoreStore | apply frame_ddrAccess | apply frame_l1DropAll | apply frame_memWrite | apply FrameB.ite) | fail_if_no_progress ((with_reducible apply FrameB.set_busData_busErr_l1); rfl) | fail_if_no_progress ((with_reducible apply FrameB.set_busData_busErr); rfl) | fail_if_no_progress ((with_reducible apply FrameB.set_busData); rfl) | fail_if_no_progress ((with_reducible apply FrameB.set_busErr); rfl) | fail_if_no_progress ((with_reducible apply FrameB.set_l1); rfl) | decide | split | dsimp only

theorem frame_memAccess x0 x1 x2 x3 x4 s (h : FrameB m o s) (e : sub 0x18600031AC m) : FrameB m o (memAccess x0 x1 x2 x3 x4 s) := by
  refine .step ?_ e h
  unfold memAccess
  repeat' first | (with_reducible first | apply FrameB.refl | apply frame_memTake | apply FrameB.ite) | fail_if_no_progress ((with_reducible apply FrameB.set_dmc); rfl) | decide | split | dsimp only

theorem frame_quietAccess x0 x1 x2 x3 s (h : FrameB m o s) (e : sub 0x18600031A0 m) : FrameB m o (quietAccess x0 x1 x2 x3 s) := by
  refine .step ?_ e h
  have k := frame_memAccess x0 x1 x2 x3 .none s (m := 0x18600031AC) (o := s) .refl rfl
  intro x hx
  have q := k x
  cases x <;> first | exact rfl | exact q rfl | exact absurd hx (by decide)

theorem frame_engPiece x0 x1 x2 x3 x4 s (h : FrameB m o s) (e : sub 0x18600031A0 m) : FrameB m o (engPiece x0 x1 x2 x3 x4 s) := by
  refine .step ?_ e h
  unfold engPiece
  repeat' first | (with_reducible first | apply FrameB.refl | apply frame_blockError | apply frame_ev | apply frame_quietAccess | apply frame_transferError | apply FrameB.ite) | decide | split | dsimp only

theorem frame_engWrite x0 x1 x2 x3 x4 s (h : FrameB m o s) (e : sub 0x18600031A0 m) : FrameB m o (engWrite x0 x1 x2 x3 x4 s) := by
  refine .step ?_ e h
  unfold engWrite
  exact frame_linePieces (g := 0x18600031A0) _ _ _ _ _ _ .refl rfl fun _ _ _ _ ht => frame_engPiece _ _ _ _ _ _ ht rfl

theorem frame_adaptSave x0 s (h : FrameB m o s) (e : sub 0x18600031A0 m) : FrameB m o (adaptSave x0 s) := by
  refine .step ?_ e h
  unfold adaptSave
  repeat' first | (with_reducible first | apply FrameB.refl | apply frame_engWrite | apply FrameB.ite) | decide | split | dsimp only

theorem frame_moveElem x0 x1 s (h : FrameB m o s) (e : sub 0x200080 m) : FrameB m o (moveElem x0 x1 s) := by
  refine .step ?_ e h
  unfold moveElem
  repeat' first | (with_reducible first | apply FrameB.refl | apply frame_State_drawn | apply frame_State_modRwc | apply FrameB.ite) | decide | split | dsimp only

theorem frame_runLoop x0 x1 s (h : FrameB m o s) (e : sub 0x200080 m) : FrameB m o (runLoop x0 x1 s) := by
  refine .step ?_ e h
  unfold runLoop
  repeat' first | (with_reducible first | apply FrameB.refl | apply frame_State_drawn | apply frame_State_modRwc | apply frame_moveElem | apply FrameB.foldl (fun _ _ => ?_) | apply FrameB.ite) | decide | split | dsimp only

theorem frame_adaptRun x0 s (h : FrameB m o s) (e : sub 0x200080 m) : FrameB m o (adaptRun x0 s) := by
  refine .step ?_ e h
  unfold adaptRun
  repeat' first | (with_reducible first | apply FrameB.refl | apply frame_State_drawn | apply frame_State_modRwc | apply frame_runLoop | apply FrameB.foldl (fun _ _ => ?_) | apply FrameB.ite) | decide | split | dsimp only

theorem frame_psiQueue x0 x1 s (h : FrameB m o s) (e : sub 0x4000000 m) : FrameB m o (psiQueue x0 x1 s) := by
  refine .step ?_ e h
  unfold psiQueue
  repeat' first | (with_reducible first | apply FrameB.refl | apply frame_State_modPsi | apply FrameB.ite) | decide | split | dsimp only

theorem frame_preampMode x0 x1 s (h : FrameB m o s) (e : sub 0x4000000 m) : FrameB m o (preampMode x0 x1 s) := by
  refine .step ?_ e h
  unfold preampMode
  repeat' first | (with_reducible first | apply FrameB.refl | apply frame_psiQueue | apply FrameB.ite) | decide | split | dsimp only

theorem frame_countOnTime x0 s (h : FrameB m o s) (e : sub 0x8000000 m) : FrameB m o (countOnTime x0 s) := by
  refine .step ?_ e h
  unfold countOnTime
  repeat' first | (with_reducible first | apply FrameB.refl | apply FrameB.ite) | fail_if_no_progress ((with_reducible apply FrameB.set_lsr); rfl) | decide | split | dsimp only

theorem frame_laserToBias x0 s (h : FrameB m o s) (e : sub 0xC000000 m) : FrameB m o (laserToBias x0 s) := by
  refine .step ?_ e h
  unfold laserToBias
  repeat' first | (with_reducible first | apply FrameB.refl | apply frame_State_modLaser | apply frame_countOnTime | apply frame_psiQueue | apply FrameB.ite) | decide | split | dsimp only

theorem frame_preheatFall x0 s (h : FrameB m o s) (e : sub 0xC000000 m) : FrameB m o (preheatFall x0 s) := by
  refine .step ?_ e h
  unfold preheatFall
  repeat' first | (with_reducible first | apply FrameB.refl | apply frame_laserToBias | apply FrameB.ite) | decide | split | dsimp only

theorem frame_levelsFall x0 s (h : FrameB m o s) (e : sub 0x20C300080 m) : FrameB m o (levelsFall x0 s) := by
  refine .step ?_ e h
  unfold levelsFall
  repeat' first | (with_reducible first | apply FrameB.refl | apply frame_State_modAsq | apply frame_State_modRwc | apply frame_adaptRun | apply frame_preampMode | apply frame_preheatFall | apply FrameB.ite) | fail_if_no_progress ((with_reducible apply FrameB.set_trm); rfl) | decide | split | dsimp only

theorem frame_healthAdd x0 x1 x2 s (h : FrameB m o s) (e : sub 0x8000 m) : FrameB m o (healthAdd x0 x1 x2 s) := by
  refine .step ?_ e h
  unfold healthAdd
  repeat' first | (with_reducible first | apply FrameB.refl | apply frame_State_modHce | apply FrameB.ite) | decide | split | dsimp only

theorem frame_clearActive x0 x1 s (h : FrameB m o s) (e : sub 0x100000 m) : FrameB m o (clearActive x0 x1 s) := by
  refine .step ?_ e h
  unfold clearActive
  repeat' first | (with_reducible first | apply FrameB.refl | apply frame_State_modAsq | apply FrameB.ite) | decide | split | dsimp only

theorem frame_unloadEnds x0 x1 s (h : FrameB m o s) (e : sub 0x1000000 m) : FrameB m o (unloadEnds x0 x1 s) := by
  refine .step ?_ e h
  unfold unloadEnds
  repeat' first | (with_reducible first | apply FrameB.refl | apply frame_State_modSve | apply FrameB.ite) | decide | split | dsimp only

theorem frame_modTicket x0 x1 s (h : FrameB m o s) (e : sub 0x4000 m) : FrameB m o (modTicket x0 x1 s) := by
  refine .step ?_ e h
  unfold modTicket
  repeat' first | (with_reducible first | apply FrameB.refl | apply frame_State_modLlt | apply FrameB.ite) | decide | split | dsimp only

theorem frame_portLine x0 s (h : FrameB m o s) (e : sub 0x2000 m) : FrameB m o (portLine x0 s) := by
  refine .step ?_ e h
  unfold portLine
  repeat' first | (with_reducible first | apply FrameB.refl | apply frame_raiseLine | apply FrameB.ite) | decide | split | dsimp only

theorem frame_countClass x0 x1 s (h : FrameB m o s) (e : sub 0x4000 m) : FrameB m o (countClass x0 x1 s) := by
  refine .step ?_ e h
  unfold countClass
  repeat' first | (with_reducible first | apply FrameB.refl | apply frame_State_modLlt | apply FrameB.ite) | decide | split | dsimp only

theorem frame_freeTicket x0 s (h : FrameB m o s) (e : sub 0x4000 m) : FrameB m o (freeTicket x0 s) := by
  refine .step ?_ e h
  unfold freeTicket
  repeat' first | (with_reducible first | apply FrameB.refl | apply frame_State_modLlt | apply FrameB.ite) | decide | split | dsimp only

theorem frame_grantTicket x0 s (h : FrameB m o s) (e : sub 0x6000 m) : FrameB m o (grantTicket x0 s) := by
  refine .step ?_ e h
  unfold grantTicket
  repeat' first | (with_reducible first | apply FrameB.refl | apply frame_State_modLlt | apply frame_State_modPort | apply frame_countClass | apply frame_freeTicket | apply frame_modTicket | apply frame_portLine | apply FrameB.ite) | decide | split | dsimp only

theorem frame_walkFrom x0 x1 s (h : FrameB m o s) (e : sub 0x6000 m) : FrameB m o (walkFrom x0 x1 s) := by
  refine .step ?_ e h
  clear h e
  induction x0 generalizing x1 s with
  | nil => unfold walkFrom; exact .refl
  | cons _ _ ih =>
    unfold walkFrom
    repeat' first | (with_reducible first | apply FrameB.refl | apply frame_grantTicket | apply FrameB.ite) | ((with_reducible apply FrameB.step (ih ..)); rfl) | decide | split | dsimp only

theorem frame_walkQueue s (h : FrameB m o s) (e : sub 0x6000 m) : FrameB m o (walkQueue s) := by
  refine .step ?_ e h
  unfold walkQueue
  repeat' first | (with_reducible first | apply FrameB.refl | apply frame_walkFrom | apply FrameB.ite) | decide | split | dsimp only

theorem frame_opStatus x0 x1 s (h : FrameB m o s) (e : sub 0x4000 m) : FrameB m o (opStatus x0 x1 s) := by
  refine .step ?_ e h
  unfold opStatus
  repeat' first | (with_reducible first | apply FrameB.refl | apply frame_State_modPort | apply FrameB.ite) | decide | split | dsimp only

theorem frame_releaseTicket x0 x1 x2 s (h : FrameB m o s) (e : sub 0x6000 m) : FrameB m o (releaseTicket x0 x1 x2 s) := by
  refine .step ?_ e h
  unfold releaseTicket
  repeat' first | (with_reducible first | apply FrameB.refl | apply frame_freeTicket | apply frame_opStatus | apply frame_walkQueue | apply FrameB.ite) | decide | split | dsimp only

theorem frame_endLeave x0 s (h : FrameB m o s) (e : sub 0x6000 m) : FrameB m o (endLeave x0 s) := by
  refine .step ?_ e h
  unfold endLeave
  repeat' first | (with_reducible first | apply FrameB.refl | apply frame_State_modLlt | apply frame_releaseTicket | apply FrameB.ite) | decide | split | dsimp only

theorem frame_tagDone x0 s (h : FrameB m o s) (e : sub 0x8000 m) : FrameB m o (tagDone x0 s) := by
  refine .step ?_ e h
  unfold tagDone
  repeat' first | (with_reducible first | apply FrameB.refl | apply frame_State_modHce | apply FrameB.ite) | decide | split | dsimp only

theorem frame_postResult x0 x1 s (h : FrameB m o s) (e : sub 0x102000 m) : FrameB m o (postResult x0 x1 s) := by
  refine .step ?_ e h
  unfold postResult
  repeat' first | (with_reducible first | apply FrameB.refl | apply frame_State_modAsq | apply frame_asqLine | apply FrameB.ite) | decide | split | dsimp only

theorem frame_taskEnd x0 x1 x2 x3 s (h : FrameB m o s) (e : sub 0x1A6D30F1A0 m) : FrameB m o (taskEnd x0 x1 x2 x3 s) := by
  refine .step ?_ e h
  unfold taskEnd
  repeat' first | (with_reducible first | apply FrameB.refl | apply frame_adaptSave | apply frame_asqLine | apply frame_clearActive | apply frame_endLeave | apply frame_ev | apply frame_healthAdd | apply frame_levelsFall | apply frame_postResult | apply frame_tagDone | apply frame_unloadEnds | apply FrameB.ite) | decide | split | dsimp only

theorem frame_engLoad x0 x1 x2 x3 s (h : FrameB m o s) (e : sub 0x18600031A0 m) : FrameB m o (engLoad x0 x1 x2 x3 s) := by
  refine .step ?_ e h
  unfold engLoad
  exact frame_linePieces (g := 0x18600031A0) _ _ _ _ _ _ .refl rfl fun _ _ _ _ ht => frame_engPiece _ _ _ _ _ _ ht rfl

theorem frame_dlFetch x0 s (h : FrameB m o s) (e : sub 0x18600031A0 m) : FrameB m o (dlFetch x0 s) := by
  refine .step ?_ e h
  unfold dlFetch
  repeat' first | (with_reducible first | apply FrameB.refl | apply frame_engLoad | apply FrameB.ite) | decide | split | dsimp only

theorem frame_buildSkip x0 x1 x2 s (h : FrameB m o s) (e : sub 0x18608031A0 m) : FrameB m o (buildSkip x0 x1 x2 s) := by
  refine .step ?_ e h
  unfold buildSkip
  repeat' first | (with_reducible first | apply FrameB.refl | apply frame_State_modGrp | apply frame_dlFetch | apply frame_ev | apply FrameB.ite) | decide | split | dsimp only

theorem frame_forceCoefs x0 s (h : FrameB m o s) (e : sub 0x200000 m) : FrameB m o (forceCoefs x0 s) := by
  refine .step ?_ e h
  unfold forceCoefs
  repeat' first | (with_reducible first | apply FrameB.refl | apply frame_State_modRwc | apply FrameB.ite) | decide | split | dsimp only

theorem frame_loadSettings x0 x1 x2 x3 s (h : FrameB m o s) (e : sub 0x200000 m) : FrameB m o (loadSettings x0 x1 x2 x3 s) := by
  refine .step ?_ e h
  unfold loadSettings
  repeat' first | (with_reducible first | apply FrameB.refl | apply frame_State_modRwc | apply frame_forceCoefs | apply FrameB.ite) | decide | split | dsimp only

theorem frame_adaptWord x0 x1 x2 s (h : FrameB m o s) (e : sub 0x200080 m) : FrameB m o (adaptWord x0 x1 x2 s) := by
  refine .step ?_ e h
  unfold adaptWord
  repeat' first | (with_reducible first | apply FrameB.refl | apply frame_State_drawn | apply frame_State_modRwc | apply FrameB.ite) | decide | split | dsimp only

theorem frame_loadCoefs x0 x1 s (h : FrameB m o s) (e : sub 0x200000 m) : FrameB m o (loadCoefs x0 x1 s) := by
  refine .step ?_ e h
  unfold loadCoefs
  repeat' first | (with_reducible first | apply FrameB.refl | apply frame_State_modRwc | apply frame_forceCoefs | apply FrameB.ite) | decide | split | dsimp only

theorem frame_loadAdaptive x0 x1 s (h : FrameB m o s) (e : sub 0x18602031A0 m) : FrameB m o (loadAdaptive x0 x1 s) := by
  refine .step ?_ e h
  unfold loadAdaptive
  repeat' first | (with_reducible first | apply FrameB.refl | apply frame_State_modRwc | apply frame_adaptWord | apply frame_engLoad | apply frame_forceCoefs | apply frame_loadCoefs | apply frame_loadSettings | apply FrameB.ite) | decide | split | dsimp only

theorem frame_zoneCopy x0 s (h : FrameB m o s) (e : sub 0x18602031A0 m) : FrameB m o (zoneCopy x0 s) := by
  refine .step ?_ e h
  unfold zoneCopy
  repeat' first | (with_reducible first | apply FrameB.refl | apply frame_State_modRwc | apply frame_engLoad | apply frame_ev | apply frame_loadAdaptive | apply FrameB.ite) | decide | split | dsimp only

theorem frame_leaveLost x0 s (h : FrameB m o s) (e : sub 0x2000 m) : FrameB m o (leaveLost x0 s) := by
  refine .step ?_ e h
  unfold leaveLost
  repeat' first | (with_reducible first | apply FrameB.refl | apply frame_raiseLine | apply FrameB.ite) | decide | split | dsimp only

theorem frame_denyPort x0 x1 x2 s (h : FrameB m o s) (e : sub 0x6000 m) : FrameB m o (denyPort x0 x1 x2 s) := by
  refine .step ?_ e h
  unfold denyPort
  repeat' first | (with_reducible first | apply FrameB.refl | apply frame_State_modPort | apply frame_countClass | apply frame_leaveLost | apply frame_portLine | apply FrameB.ite) | decide | split | dsimp only

theorem frame_submitLeave x0 x1 x2 x3 x4 x5 x6 s (h : FrameB m o s) (e : sub 0x1800006100 m) : FrameB m o (submitLeave x0 x1 x2 x3 x4 x5 x6 s) := by
  refine .step ?_ e h
  unfold submitLeave
  repeat' first | (with_reducible first | apply FrameB.refl | apply frame_State_modLlt | apply frame_State_modPort | apply frame_denyPort | apply frame_ev | apply frame_grantTicket | apply frame_walkQueue | apply FrameB.ite) | decide | split | dsimp only

theorem frame_askLeave x0 s (h : FrameB m o s) (e : sub 0x1800106100 m) : FrameB m o (askLeave x0 s) := by
  refine .step ?_ e h
  unfold askLeave
  repeat' first | (with_reducible first | apply FrameB.refl | apply frame_State_modAsq | apply frame_submitLeave | apply FrameB.ite) | decide | split | dsimp only

theorem frame_loadLane x0 s (h : FrameB m o s) (e : sub 0x80000000 m) : FrameB m o (loadLane x0 s) := by
  refine .step ?_ e h
  unfold loadLane
  repeat' first | (with_reducible first | apply FrameB.refl | apply frame_State_modSec | apply FrameB.ite) | decide | split | dsimp only

theorem frame_promote x0 s (h : FrameB m o s) (e : sub 0x1AEDB0F1A0 m) : FrameB m o (promote x0 s) := by
  refine .step ?_ e h
  unfold promote
  repeat' first | (with_reducible first | apply FrameB.refl | apply frame_State_modAsq | apply frame_askLeave | apply frame_asqLine | apply frame_buildSkip | apply frame_loadLane | apply frame_taskEnd | apply frame_zoneCopy | apply FrameB.ite) | decide | split | dsimp only

theorem frame_cancelPending x0 s (h : FrameB m o s) (e : sub 0x10A000 m) : FrameB m o (cancelPending x0 s) := by
  refine .step ?_ e h
  unfold cancelPending
  repeat' first | (with_reducible first | apply FrameB.refl | apply frame_State_modAsq | apply frame_asqLine | apply frame_postResult | apply frame_tagDone | apply FrameB.ite) | decide | split | dsimp only

theorem frame_enterHandler x0 x1 x2 s (h : FrameB m o s) (e : sub 0x1A0C302180 m) : FrameB m o (enterHandler x0 x1 x2 s) := by
  refine .step ?_ e h
  unfold enterHandler
  repeat' first | (with_reducible first | apply FrameB.refl | apply frame_State_modAsq | apply frame_asqLine | apply frame_ev | apply frame_levelsFall | apply FrameB.ite) | decide | split | dsimp only

theorem frame_sampleBoundary x0 s (h : FrameB m o s) (e : sub 0x1A0C302180 m) : FrameB m o (sampleBoundary x0 s) := by
  refine .step ?_ e h
  unfold sampleBoundary
  repeat' first | (with_reducible first | apply FrameB.refl | apply frame_enterHandler | apply FrameB.ite) | decide | split | dsimp only

theorem frame_requestArrives x0 s (h : FrameB m o s) (e : sub 0x1A0C302180 m) : FrameB m o (requestArrives x0 s) := by
  refine .step ?_ e h
  unfold requestArrives
  repeat' first | (with_reducible first | apply FrameB.refl | apply frame_sampleBoundary | apply FrameB.ite) | decide | split | dsimp only

theorem frame_asqAbortReq x0 s (h : FrameB m o s) (e : sub 0x1A0C302180 m) : FrameB m o (asqAbortReq x0 s) := by
  refine .step ?_ e h
  unfold asqAbortReq
  repeat' first | (with_reducible first | apply FrameB.refl | apply frame_State_modAsq | apply frame_requestArrives | apply FrameB.ite) | decide | split | dsimp only

theorem frame_abortTag x0 x1 s (h : FrameB m o s) (e : sub 0x1AEDB0F1A0 m) : FrameB m o (abortTag x0 x1 s) := by
  refine .step ?_ e h
  unfold abortTag
  repeat' first | (with_reducible first | apply FrameB.refl | apply frame_State_modAsq | apply frame_asqAbortReq | apply frame_cancelPending | apply frame_promote | apply FrameB.ite) | decide | split | dsimp only

theorem frame_keyRefused x0 s (h : FrameB m o s) (e : sub 0x1880000100 m) : FrameB m o (keyRefused x0 s) := by
  refine .step ?_ e h
  unfold keyRefused
  repeat' first | (with_reducible first | apply FrameB.refl | apply frame_ev | apply FrameB.ite) | fail_if_no_progress ((with_reducible apply FrameB.set_sec); rfl) | decide | split | dsimp only

theorem frame_retire s (h : FrameB m o s) (e : sub 0x10000 m) : FrameB m o (retire s) := by
  refine .step ?_ e h
  unfold retire
  repeat' first | (with_reducible first | apply FrameB.refl | apply frame_State_modLgr | apply FrameB.ite) | decide | split | dsimp only

theorem frame_releaseReader x0 s (h : FrameB m o s) (e : sub 0x10000 m) : FrameB m o (releaseReader x0 s) := by
  refine .step ?_ e h
  unfold releaseReader
  repeat' first | (with_reducible first | apply FrameB.refl | apply frame_State_modLgr | apply frame_retire | apply FrameB.ite) | decide | split | dsimp only

theorem frame_modCmd x0 x1 s (h : FrameB m o s) (e : sub 0x8000 m) : FrameB m o (modCmd x0 x1 s) := by
  refine .step ?_ e h
  unfold modCmd
  repeat' first | (with_reducible first | apply FrameB.refl | apply frame_State_modHce | apply FrameB.ite) | decide | split | dsimp only

theorem frame_finishDw x0 x1 x2 x3 s (h : FrameB m o s) (e : sub 0x18080 m) : FrameB m o (finishDw x0 x1 x2 x3 s) := by
  refine .step ?_ e h
  unfold finishDw
  repeat' first | (with_reducible first | apply FrameB.refl | apply frame_State_drawn | apply frame_State_modCtrl | apply frame_modCmd | apply frame_releaseReader | apply FrameB.ite) | decide | split | dsimp only

theorem frame_finish x0 x1 s (h : FrameB m o s) (e : sub 0x18080 m) : FrameB m o (finish x0 x1 s) := by
  refine .step ?_ e h
  unfold finish
  repeat' first | (with_reducible first | apply FrameB.refl | apply frame_finishDw | apply FrameB.ite) | decide | split | dsimp only

theorem frame_modEntry x0 x1 s (h : FrameB m o s) (e : sub 0x10000 m) : FrameB m o (modEntry x0 x1 s) := by
  refine .step ?_ e h
  unfold modEntry
  repeat' first | (with_reducible first | apply FrameB.refl | apply frame_State_modLgr | apply FrameB.ite) | decide | split | dsimp only

theorem frame_selectSector x0 x1 x2 s (h : FrameB m o s) (e : sub 0x10000 m) : FrameB m o (selectSector x0 x1 x2 s).1 := by
  refine .step ?_ e h
  unfold selectSector
  repeat' first | (with_reducible first | apply FrameB.refl | apply frame_State_modLgr | apply frame_modEntry | apply FrameB.ite) | decide | split | dsimp only

theorem frame_selectRange x0 x1 x2 s (h : FrameB m o s) (e : sub 0x10000 m) : FrameB m o (selectRange x0 x1 x2 s).1 := by
  refine .step ?_ e h
  clear h e
  induction x2 generalizing s with
  | nil => unfold selectRange; exact .refl
  | cons _ _ ih =>
    unfold selectRange
    repeat' first | (with_reducible first | apply FrameB.refl | apply frame_selectSector | apply FrameB.ite) | ((with_reducible apply FrameB.step (ih ..)); rfl) | decide | split | dsimp only

theorem frame_addEntry x0 s (h : FrameB m o s) (e : sub 0x10000 m) : FrameB m o (addEntry x0 s) := by
  refine .step ?_ e h
  unfold addEntry
  repeat' first | (with_reducible first | apply FrameB.refl | apply frame_State_modLgr | apply FrameB.ite) | decide | split | dsimp only

theorem frame_modZone x0 x1 s (h : FrameB m o s) (e : sub 0x20000 m) : FrameB m o (modZone x0 x1 s) := by
  refine .step ?_ e h
  unfold modZone
  repeat' first | (with_reducible first | apply FrameB.refl | apply frame_State_modXmt | apply FrameB.ite) | decide | split | dsimp only

theorem frame_makeRoom x0 s (h : FrameB m o s) (e : sub 0x1800020100 m) : FrameB m o (makeRoom x0 s) := by
  refine .step ?_ e h
  unfold makeRoom
  repeat' first | (with_reducible first | apply FrameB.refl | apply frame_ev | apply frame_modZone | apply FrameB.ite) | decide | split | dsimp only

theorem frame_zoneAdvance x0 x1 s (h : FrameB m o s) (e : sub 0x1800020100 m) : FrameB m o (zoneAdvance x0 x1 s) := by
  refine .step ?_ e h
  unfold zoneAdvance
  repeat' first | (with_reducible first | apply FrameB.refl | apply frame_makeRoom | apply frame_modZone | apply FrameB.ite) | decide | split | dsimp only

theorem frame_addUse x0 x1 s (h : FrameB m o s) (e : sub 0x1880000100 m) : FrameB m o (addUse x0 x1 s) := by
  refine .step ?_ e h
  unfold addUse
  repeat' first | (with_reducible first | apply FrameB.refl | apply frame_ev | apply frame_setIrqStat | apply FrameB.ite) | fail_if_no_progress ((with_reducible apply FrameB.set_sec); rfl) | decide | split | dsimp only

theorem frame_register x0 x1 s (h : FrameB m o s) (e : sub 0x1880030100 m) : FrameB m o (register x0 x1 s) := by
  refine .step ?_ e h
  unfold register
  repeat' first | (with_reducible first | apply FrameB.refl | apply frame_addEntry | apply frame_addUse | apply frame_modZone | apply frame_selectRange | apply frame_zoneAdvance | apply FrameB.foldl (fun _ _ => ?_) | apply FrameB.ite) | decide | split | dsimp only

theorem frame_exception x0 x1 s (h : FrameB m o s) (e : sub 0x180000A100 m) : FrameB m o (exception x0 x1 s) := by
  refine .step ?_ e h
  unfold exception
  repeat' first | (with_reducible first | apply FrameB.refl | apply frame_State_modCtrl | apply frame_ev | apply frame_modCmd | apply frame_raiseLine | apply FrameB.ite) | decide | split | dsimp only

theorem frame_accept x0 s (h : FrameB m o s) (e : sub 0x188003A180 m) : FrameB m o (accept x0 s) := by
  refine .step ?_ e h
  unfold accept
  repeat' first | (with_reducible first | apply FrameB.refl | apply frame_exception | apply frame_finish | apply frame_keyRefused | apply frame_modCmd | apply frame_register | apply FrameB.ite) | decide | split | dsimp only

theorem frame_seekRefused x0 s (h : FrameB m o s) (e : sub 0x1102000 m) : FrameB m o (seekRefused x0 s) := by
  refine .step ?_ e h
  unfold seekRefused
  repeat' first | (with_reducible first | apply FrameB.refl | apply frame_State_modSve | apply frame_sveLine | apply frame_waitComes | apply FrameB.ite) | decide | split | dsimp only

theorem frame_optSeekFail x0 s (h : FrameB m o s) (e : sub 0x11102000 m) : FrameB m o (optSeekFail x0 s) := by
  refine .step ?_ e h
  unfold optSeekFail
  repeat' first | (with_reducible first | apply FrameB.refl | apply frame_optSeekIdle | apply frame_seekRefused | apply FrameB.ite) | decide | split | dsimp only

theorem frame_layerPhase x0 s (h : FrameB m o s) (e : sub 0x10000000 m) : FrameB m o (layerPhase x0 s) := by
  refine .step ?_ e h
  unfold layerPhase
  repeat' first | (with_reducible first | apply FrameB.refl | apply frame_State_modPu | apply FrameB.ite) | decide | split | dsimp only

theorem frame_sledFail x0 x1 s (h : FrameB m o s) (e : sub 0x1811102100 m) : FrameB m o (sledFail x0 x1 s) := by
  refine .step ?_ e h
  unfold sledFail
  repeat' first | (with_reducible first | apply FrameB.refl | apply frame_ev | apply frame_optSeekFail | apply FrameB.ite) | decide | split | dsimp only

theorem frame_jumpStart x0 x1 x2 x3 x4 s (h : FrameB m o s) (e : sub 0x11000000 m) : FrameB m o (jumpStart x0 x1 x2 x3 x4 s) := by
  refine .step ?_ e h
  unfold jumpStart
  repeat' first | (with_reducible first | apply FrameB.refl | apply frame_State_modPu | apply frame_State_modSve | apply FrameB.ite) | decide | split | dsimp only

theorem frame_trackPhase x0 s (h : FrameB m o s) (e : sub 0x1811102100 m) : FrameB m o (trackPhase x0 s) := by
  refine .step ?_ e h
  unfold trackPhase
  repeat' first | (with_reducible first | apply FrameB.refl | apply frame_State_modPu | apply frame_jumpStart | apply frame_sledFail | apply FrameB.ite) | decide | split | dsimp only

theorem frame_seekAccepted x0 s (h : FrameB m o s) (e : sub 0x1811102100 m) : FrameB m o (seekAccepted x0 s) := by
  refine .step ?_ e h
  unfold seekAccepted
  repeat' first | (with_reducible first | apply FrameB.refl | apply frame_State_modPu | apply frame_ev | apply frame_layerPhase | apply frame_optSeekFail | apply frame_optSeekIdle | apply frame_seekEnd | apply frame_trackPhase | apply FrameB.ite) | decide | split | dsimp only

theorem frame_setFocused x0 x1 s (h : FrameB m o s) (e : sub 0x10000100 m) : FrameB m o (setFocused x0 x1 s) := by
  refine .step ?_ e h
  unfold setFocused
  repeat' first | (with_reducible first | apply FrameB.refl | apply frame_State_modPu | apply frame_setIrqStat | apply FrameB.ite) | decide | split | dsimp only

theorem frame_identifyLayer x0 s (h : FrameB m o s) (e : sub 0x1810000100 m) : FrameB m o (identifyLayer x0 s) := by
  refine .step ?_ e h
  unfold identifyLayer
  repeat' first | (with_reducible first | apply FrameB.refl | apply frame_State_modPu | apply frame_ev | apply frame_setFocused | apply FrameB.ite) | decide | split | dsimp only

theorem frame_optBump x0 x1 x2 s (h : FrameB m o s) (e : sub 0x10000100 m) : FrameB m o (optBump x0 x1 x2 s) := by
  refine .step ?_ e h
  unfold optBump
  repeat' first | (with_reducible first | apply FrameB.refl | apply frame_setIrqStat | apply FrameB.ite) | fail_if_no_progress ((with_reducible apply FrameB.set_opt); rfl) | decide | split | dsimp only

theorem frame_acceptAddr x0 x1 s (h : FrameB m o s) (e : sub 0x1811102100 m) : FrameB m o (acceptAddr x0 x1 s) := by
  refine .step ?_ e h
  unfold acceptAddr
  repeat' first | (with_reducible first | apply FrameB.refl | apply frame_State_modPu | apply frame_State_modSve | apply frame_identifyLayer | apply frame_optBump | apply frame_seekAccepted | apply FrameB.ite) | decide | split | dsimp only

theorem frame_useWindow x0 x1 s (h : FrameB m o s) (e : sub 0x100 m) : FrameB m o (useWindow x0 x1 s) := by
  refine .step ?_ e h
  unfold useWindow
  repeat' first | (with_reducible first | apply FrameB.refl | apply frame_State_modHdr | apply FrameB.ite) | decide | split | dsimp only

theorem frame_access x0 x1 x2 x3 s (h : FrameB m o s) (e : sub 0x1800000100 m) (k0 : ∀ t, FrameB m o t → FrameB m o (x3 t)) : FrameB m o (access x0 x1 x2 x3 s) := by
  unfold access
  repeat' first | assumption | (with_reducible first | apply frame_blockError | apply frame_useWindow | apply FrameB.ite | apply k0) | (with_reducible apply sub_trans (h := e); decide) | (with_reducible apply frame_State_modVlk) | split | dsimp only [id]

theorem frame_extendMeas x0 x1 s (h : FrameB m o s) (e : sub 0x80000000 m) : FrameB m o (extendMeas x0 x1 s) := by
  refine .step ?_ e h
  unfold extendMeas
  repeat' first | (with_reducible first | apply FrameB.refl | apply frame_State_modSec | apply FrameB.ite) | decide | split | dsimp only

theorem frame_activate x0 x1 x2 s (h : FrameB m o s) (e : sub 0x1880018380 m) : FrameB m o (activate x0 x1 x2 s) := by
  refine .step ?_ e h
  unfold activate
  repeat' first | (with_reducible first | apply FrameB.refl | apply frame_State_modHce | apply frame_State_modSys | apply frame_extendMeas | apply frame_finish | apply frame_lifBump | apply FrameB.ite) | decide | split | dsimp only

theorem frame_journal x0 x1 x2 x3 x4 x5 s (h : FrameB m o s) (e : sub 0x20000 m) : FrameB m o (journal x0 x1 x2 x3 x4 x5 s) := by
  refine .step ?_ e h
  unfold journal
  repeat' first | (with_reducible first | apply FrameB.refl | apply frame_State_modXmt | apply FrameB.ite) | decide | split | dsimp only

theorem frame_journalZone x0 x1 x2 x3 x4 s (h : FrameB m o s) (e : sub 0x20000 m) : FrameB m o (journalZone x0 x1 x2 x3 x4 s) := by
  refine .step ?_ e h
  unfold journalZone
  repeat' first | (with_reducible first | apply FrameB.refl | apply frame_journal | apply FrameB.ite) | decide | split | dsimp only

theorem frame_asyncEvent x0 x1 s (h : FrameB m o s) (e : sub 0x18080 m) : FrameB m o (asyncEvent x0 x1 s) := by
  refine .step ?_ e h
  unfold asyncEvent
  repeat' first | (with_reducible first | apply FrameB.refl | apply frame_State_modCtrl | apply frame_finishDw | apply FrameB.ite) | decide | split | dsimp only

theorem frame_ownZoneChange x0 x1 s (h : FrameB m o s) (e : sub 0x1800038180 m) : FrameB m o (ownZoneChange x0 x1 s) := by
  refine .step ?_ e h
  unfold ownZoneChange
  repeat' first | (with_reducible first | apply FrameB.refl | apply frame_State_modCtrl | apply frame_asyncEvent | apply frame_ev | apply frame_journalZone | apply frame_modZone | apply FrameB.foldl (fun _ _ => ?_) | apply FrameB.ite) | decide | split | dsimp only

theorem frame_critical x0 s (h : FrameB m o s) (e : sub 0x18080 m) : FrameB m o (critical x0 s) := by
  refine .step ?_ e h
  unfold critical
  repeat' first | (with_reducible first | apply FrameB.refl | apply frame_State_modCtrl | apply frame_asyncEvent | apply FrameB.foldl (fun _ _ => ?_) | apply FrameB.ite) | decide | split | dsimp only

theorem frame_loseChannel x0 s (h : FrameB m o s) (e : sub 0x1800038180 m) : FrameB m o (loseChannel x0 s) := by
  refine .step ?_ e h
  unfold loseChannel
  repeat' first | (with_reducible first | apply FrameB.refl | apply frame_State_modHce | apply frame_critical | apply frame_ownZoneChange | apply FrameB.foldl (fun _ _ => ?_) | apply FrameB.ite) | decide | split | dsimp only

theorem frame_actuatorRetired x0 s (h : FrameB m o s) (e : sub 0x1800038180 m) : FrameB m o (actuatorRetired x0 s) := by
  refine .step ?_ e h
  unfold actuatorRetired
  repeat' first | (with_reducible first | apply FrameB.refl | apply frame_State_modHce | apply frame_loseChannel | apply FrameB.ite) | decide | split | dsimp only

theorem frame_mcWarn s (h : FrameB m o s) (e : sub 0x1800020100 m) : FrameB m o (mcWarn s) := by
  refine .step ?_ e h
  unfold mcWarn
  repeat' first | (with_reducible first | apply FrameB.refl | apply frame_State_modXmt | apply frame_ev | apply FrameB.ite) | decide | split | dsimp only

theorem frame_putRun x0 x1 x2 x3 s (h : FrameB m o s) (e : sub 0x1800020100 m) : FrameB m o (putRun x0 x1 x2 x3 s) := by
  refine .step ?_ e h
  unfold putRun
  repeat' first | (with_reducible first | apply FrameB.refl | apply frame_State_modXmt | apply frame_journal | apply frame_mcWarn | apply FrameB.ite) | decide | split | dsimp only

theorem frame_addRun x0 x1 x2 x3 s (h : FrameB m o s) (e : sub 0x1800020100 m) : FrameB m o (addRun x0 x1 x2 x3 s) := by
  refine .step ?_ e h
  unfold addRun
  repeat' first | (with_reducible first | apply FrameB.refl | apply frame_putRun | apply FrameB.ite) | decide | split | dsimp only

theorem frame_addRuns x0 x1 x2 s (h : FrameB m o s) (e : sub 0x1800020100 m) : FrameB m o (addRuns x0 x1 x2 s) := by
  refine .step ?_ e h
  clear h e
  induction x2 generalizing s with
  | nil => unfold addRuns; exact .refl
  | cons _ _ ih =>
    unfold addRuns
    repeat' first | (with_reducible first | apply FrameB.refl | apply frame_addRun | apply FrameB.ite) | ((with_reducible apply FrameB.step (ih ..)); rfl) | decide | split | dsimp only

theorem frame_setReg x0 x1 x2 x3 s (h : FrameB m o s) (e : sub 0x10 m) : FrameB m o (setReg x0 x1 x2 x3 s) := by
  refine .step ?_ e h
  unfold setReg
  repeat' first | (with_reducible first | apply FrameB.refl | apply FrameB.ite) | fail_if_no_progress ((with_reducible apply FrameB.set_regs); rfl) | decide | split | dsimp only

theorem frame_setFld x0 x1 x2 x3 x4 x5 s (h : FrameB m o s) (e : sub 0x10 m) : FrameB m o (setFld x0 x1 x2 x3 x4 x5 s) := by
  refine .step ?_ e h
  unfold setFld
  repeat' first | (with_reducible first | apply FrameB.refl | apply frame_setReg | apply FrameB.ite) | decide | split | dsimp only

theorem frame_noteWake x0 s (h : FrameB m o s) (e : sub 0x800 m) : FrameB m o (noteWake x0 s) := by
  refine .step ?_ e h
  unfold noteWake
  repeat' first | (with_reducible first | apply FrameB.refl | apply frame_State_modPwr | apply FrameB.ite) | decide | split | dsimp only

theorem frame_fireAlarm s (h : FrameB m o s) (e : sub 0x1800000910 m) : FrameB m o (fireAlarm s) := by
  refine .step ?_ e h
  unfold fireAlarm
  repeat' first | (with_reducible first | apply FrameB.refl | apply frame_ev | apply frame_noteWake | apply frame_setFld | apply frame_setIrqStat | apply FrameB.ite) | decide | split | dsimp only

theorem frame_calRun x0 s (h : FrameB m o s) (e : sub 0x3800000910 m) : FrameB m o (calRun x0 s) := by
  refine .step ?_ e h
  unfold calRun
  repeat' first | (with_reducible first | apply FrameB.refl | apply frame_fireAlarm | apply frame_setIrqStat | apply FrameB.ite) | fail_if_no_progress ((with_reducible apply FrameB.set_cal); rfl) | decide | split | dsimp only

theorem frame_calCount x0 s (h : FrameB m o s) (e : sub 0x3800000910 m) : FrameB m o (calCount x0 s) := by
  refine .step ?_ e h
  unfold calCount
  repeat' first | (with_reducible first | apply FrameB.refl | apply frame_calRun | apply FrameB.ite) | decide | split | dsimp only

theorem frame_vlkCount x0 s (h : FrameB m o s) (e : sub 0x4000000000 m) : FrameB m o (vlkCount x0 s) := by
  refine .step ?_ e h
  unfold vlkCount
  repeat' first | (with_reducible first | apply FrameB.refl | apply FrameB.ite) | fail_if_no_progress ((with_reducible apply FrameB.set_vlk); rfl) | decide | split | dsimp only

theorem frame_elapse x0 s (h : FrameB m o s) (e : sub 0x7800000B12 m) : FrameB m o (elapse x0 s) := by
  refine .step ?_ e h
  unfold elapse
  repeat' first | (with_reducible first | apply FrameB.refl | apply frame_calCount | apply frame_vlkCount | apply FrameB.ite) | fail_if_no_progress ((with_reducible apply FrameB.set_us_sys); rfl) | fail_if_no_progress ((with_reducible apply FrameB.set_us); rfl) | fail_if_no_progress ((with_reducible apply FrameB.set_sys); rfl) | decide | split | dsimp only

theorem frame_advanceTo x0 s (h : FrameB m o s) (e : sub 0x7800000B12 m) : FrameB m o (advanceTo x0 s) := by
  refine .step ?_ e h
  unfold advanceTo
  repeat' first | (with_reducible first | apply FrameB.refl | apply frame_elapse | apply FrameB.ite) | decide | split | dsimp only

theorem frame_driveStep s (h : FrameB m o s) (e : sub 0x2000000 m) : FrameB m o (driveStep s) := by
  refine .step ?_ e h
  unfold driveStep
  repeat' first | (with_reducible first | apply FrameB.refl | apply frame_State_modSpn | apply FrameB.ite) | decide | split | dsimp only

theorem frame_alignStart s (h : FrameB m o s) (e : sub 0x1802000100 m) : FrameB m o (alignStart s) := by
  refine .step ?_ e h
  unfold alignStart
  repeat' first | (with_reducible first | apply FrameB.refl | apply frame_State_modSpn | apply frame_driveStep | apply frame_ev | apply FrameB.ite) | decide | split | dsimp only

theorem frame_answer x0 x1 x2 s (h : FrameB m o s) (e : sub 0x1880000100 m) : FrameB m o (answer x0 x1 x2 s) := by
  refine .step ?_ e h
  unfold answer
  repeat' first | (with_reducible first | apply FrameB.refl | apply frame_State_modSec | apply frame_ev | apply FrameB.ite) | decide | split | dsimp only

theorem frame_putExtent x0 s (h : FrameB m o s) (e : sub 0x20000 m) : FrameB m o (putExtent x0 s) := by
  refine .step ?_ e h
  unfold putExtent
  repeat' first | (with_reducible first | apply FrameB.refl | apply frame_State_modXmt | apply FrameB.ite) | decide | split | dsimp only

theorem frame_applyEntry x0 x1 x2 s (h : FrameB m o s) (e : sub 0x20000 m) : FrameB m o (applyEntry x0 x1 x2 s) := by
  refine .step ?_ e h
  unfold applyEntry
  repeat' first | (with_reducible first | apply FrameB.refl | apply frame_modZone | apply frame_putExtent | apply FrameB.ite) | decide | split | dsimp only

theorem frame_applyLoad x0 x1 x2 s (h : FrameB m o s) (e : sub 0x200000 m) : FrameB m o (applyLoad x0 x1 x2 s) := by
  refine .step ?_ e h
  unfold applyLoad
  repeat' first | (with_reducible first | apply FrameB.refl | apply frame_State_modRwc | apply frame_loadCoefs | apply frame_loadSettings | apply FrameB.ite) | decide | split | dsimp only

theorem frame_applyOuts x0 x1 s (h : FrameB m o s) (e : sub 0x1000000 m) : FrameB m o (applyOuts x0 x1 s) := by
  refine .step ?_ e h
  unfold applyOuts
  repeat' first | (with_reducible first | apply FrameB.refl | apply frame_State_modSve | apply FrameB.foldl (fun _ _ => ?_) | apply FrameB.ite) | decide | split | dsimp only

theorem frame_applyPolicy s (h : FrameB m o s) (e : sub 0x1880080180 m) : FrameB m o (applyPolicy s) := by
  refine .step ?_ e h
  unfold applyPolicy
  repeat' first | (with_reducible first | apply FrameB.refl | apply frame_State_drawn | apply frame_State_modSec | apply frame_ev | apply FrameB.ite) | fail_if_no_progress ((with_reducible apply FrameB.set_cst); rfl) | decide | split | dsimp only

theorem frame_applyRdy s (h : FrameB m o s) (e : sub 0x8000 m) : FrameB m o (applyRdy s) := by
  refine .step ?_ e h
  unfold applyRdy
  repeat' first | (with_reducible first | apply FrameB.refl | apply frame_State_modCtrl | apply FrameB.ite) | decide | split | dsimp only

theorem frame_applyRec x0 x1 s (h : FrameB m o s) (e : sub 0x28000 m) : FrameB m o (applyRec x0 x1 s) := by
  refine .step ?_ e h
  unfold applyRec
  repeat' first | (with_reducible first | apply FrameB.refl | apply frame_State_modHce | apply frame_State_modXmt | apply frame_applyEntry | apply frame_modZone | apply frame_putExtent | apply FrameB.ite) | decide | split | dsimp only

theorem frame_applyUnit x0 s (h : FrameB m o s) (e : sub 0x1100000 m) : FrameB m o (applyUnit x0 s) := by
  refine .step ?_ e h
  unfold applyUnit
  repeat' first | (with_reducible first | apply FrameB.refl | apply frame_State_modSve | apply frame_waitComes | apply FrameB.ite) | decide | split | dsimp only

theorem frame_armCst x0 s (h : FrameB m o s) (e : sub 0x1800182100 m) : FrameB m o (armCst x0 s) := by
  refine .step ?_ e h
  unfold armCst
  repeat' first | (with_reducible first | apply FrameB.refl | apply frame_State_modAsq | apply frame_asqLine | apply frame_blockErrorP | apply FrameB.foldl (fun _ _ => ?_) | apply FrameB.ite) | fail_if_no_progress ((with_reducible apply FrameB.set_cst); rfl) | decide | split | dsimp only

theorem frame_thermLower s (h : FrameB m o s) (e : sub 0x1800004100 m) : FrameB m o (thermLower s) := by
  refine .step ?_ e h
  unfold thermLower
  repeat' first | (with_reducible first | apply FrameB.refl | apply frame_State_modLlt | apply frame_ev | apply FrameB.ite) | decide | split | dsimp only

theorem frame_setThrot x0 s (h : FrameB m o s) (e : sub 0x1900006100 m) : FrameB m o (setThrot x0 s) := by
  refine .step ?_ e h
  unfold setThrot
  repeat' first | (with_reducible first | apply FrameB.refl | apply frame_State_modThm | apply frame_raiseLine | apply frame_thermLower | apply frame_walkQueue | apply FrameB.ite) | decide | split | dsimp only

theorem frame_arrayCheck s (h : FrameB m o s) (e : sub 0x1900006100 m) : FrameB m o (arrayCheck s) := by
  refine .step ?_ e h
  unfold arrayCheck
  repeat' first | (with_reducible first | apply FrameB.refl | apply frame_State_modThm | apply frame_ev | apply frame_setThrot | apply FrameB.ite) | decide | split | dsimp only

theorem frame_sveBump x0 x1 x2 s (h : FrameB m o s) (e : sub 0x1002000 m) : FrameB m o (sveBump x0 x1 x2 s) := by
  refine .step ?_ e h
  unfold sveBump
  repeat' first | (with_reducible first | apply FrameB.refl | apply frame_State_modSve | apply frame_sveLine | apply FrameB.ite) | decide | split | dsimp only

theorem frame_asqFault x0 x1 s (h : FrameB m o s) (e : sub 0x1A0C302180 m) : FrameB m o (asqFault x0 x1 s) := by
  refine .step ?_ e h
  unfold asqFault
  repeat' first | (with_reducible first | apply FrameB.refl | apply frame_State_modAsq | apply frame_ev | apply frame_requestArrives | apply FrameB.ite) | decide | split | dsimp only

theorem frame_dropGroup x0 s (h : FrameB m o s) (e : sub 0x800000 m) : FrameB m o (dropGroup x0 s) := by
  refine .step ?_ e h
  unfold dropGroup
  repeat' first | (with_reducible first | apply FrameB.refl | apply frame_State_modGrp | apply FrameB.ite) | decide | split | dsimp only

theorem frame_rwcBump x0 x1 x2 s (h : FrameB m o s) (e : sub 0x202000 m) : FrameB m o (rwcBump x0 x1 x2 s) := by
  refine .step ?_ e h
  unfold rwcBump
  repeat' first | (with_reducible first | apply FrameB.refl | apply frame_State_modRwc | apply frame_raiseLine | apply FrameB.ite) | decide | split | dsimp only

theorem frame_markFail x0 s (h : FrameB m o s) (e : sub 0x100000 m) : FrameB m o (markFail x0 s) := by
  refine .step ?_ e h
  unfold markFail
  repeat' first | (with_reducible first | apply FrameB.refl | apply frame_State_modAsq | apply FrameB.ite) | decide | split | dsimp only

theorem frame_tearSector x0 s (h : FrameB m o s) (e : sub 0x20000 m) : FrameB m o (tearSector x0 s) := by
  refine .step ?_ e h
  unfold tearSector
  repeat' first | (with_reducible first | apply FrameB.refl | apply FrameB.ite) | fail_if_no_progress ((with_reducible apply FrameB.set_xmt); rfl) | decide | split | dsimp only

theorem frame_gatesOff x0 s (h : FrameB m o s) (e : sub 0xCB22000 m) : FrameB m o (gatesOff x0 s) := by
  refine .step ?_ e h
  unfold gatesOff
  repeat' first | (with_reducible first | apply FrameB.refl | apply frame_State_modRwc | apply frame_dropGroup | apply frame_laserToBias | apply frame_markFail | apply frame_rwcBump | apply frame_tearSector | apply FrameB.ite) | decide | split | dsimp only

theorem frame_faultDecision x0 x1 s (h : FrameB m o s) (e : sub 0x1A0CB22180 m) : FrameB m o (faultDecision x0 x1 s) := by
  refine .step ?_ e h
  unfold faultDecision
  repeat' first | (with_reducible first | apply FrameB.refl | apply frame_asqFault | apply frame_gatesOff | apply FrameB.ite) | decide | split | dsimp only

theorem frame_traceTake x0 s (h : FrameB m o s) (e : sub 0x1002000 m) : FrameB m o (traceTake x0 s) := by
  refine .step ?_ e h
  unfold traceTake
  repeat' first | (with_reducible first | apply FrameB.refl | apply frame_State_modSve | apply frame_sveLine | apply FrameB.ite) | decide | split | dsimp only

theorem frame_traceTrigger x0 x1 s (h : FrameB m o s) (e : sub 0x1002000 m) : FrameB m o (traceTrigger x0 x1 s) := by
  refine .step ?_ e h
  unfold traceTrigger
  repeat' first | (with_reducible first | apply FrameB.refl | apply frame_traceTake | apply FrameB.ite) | decide | split | dsimp only

theorem frame_servoDecide x0 x1 s (h : FrameB m o s) (e : sub 0x1A0DB2A180 m) : FrameB m o (servoDecide x0 x1 s) := by
  refine .step ?_ e h
  unfold servoDecide
  repeat' first | (with_reducible first | apply FrameB.refl | apply frame_ev | apply frame_faultDecision | apply frame_healthAdd | apply frame_sveBump | apply frame_sveLine | apply frame_traceTrigger | apply FrameB.ite) | decide | split | dsimp only

theorem frame_retractStart x0 x1 x2 s (h : FrameB m o s) (e : sub 0x1A1DB2A180 m) : FrameB m o (retractStart x0 x1 x2 s) := by
  refine .step ?_ e h
  unfold retractStart
  repeat' first | (with_reducible first | apply FrameB.refl | apply frame_State_modPu | apply frame_State_modSve | apply frame_abandonMoves | apply frame_ev | apply frame_servoDecide | apply frame_setFocused | apply frame_sveBump | apply frame_sveLine | apply frame_traceTrigger | apply FrameB.ite) | decide | split | dsimp only

theorem frame_retractLoaded x0 s (h : FrameB m o s) (e : sub 0x1A1DB2A180 m) : FrameB m o (retractLoaded x0 s) := by
  refine .step ?_ e h
  unfold retractLoaded
  repeat' first | (with_reducible first | apply FrameB.refl | apply frame_retractStart | apply FrameB.foldl (fun _ _ => ?_) | apply FrameB.ite) | decide | split | dsimp only

theorem frame_requestUnload s (h : FrameB m o s) (e : sub 0x1A1FB2A180 m) : FrameB m o (requestUnload s) := by
  refine .step ?_ e h
  unfold requestUnload
  repeat' first | (with_reducible first | apply FrameB.refl | apply frame_State_modSpn | apply frame_retractLoaded | apply FrameB.ite) | decide | split | dsimp only

theorem frame_askBrake x0 s (h : FrameB m o s) (e : sub 0x1A1FB2A180 m) : FrameB m o (askBrake x0 s) := by
  refine .step ?_ e h
  unfold askBrake
  repeat' first | (with_reducible first | apply FrameB.refl | apply frame_State_modSpn | apply frame_requestUnload | apply FrameB.ite) | decide | split | dsimp only

theorem frame_asqCancel x0 s (h : FrameB m o s) (e : sub 0x1AEDB0F1A0 m) : FrameB m o (asqCancel x0 s) := by
  refine .step ?_ e h
  unfold asqCancel
  repeat' first | (with_reducible first | apply FrameB.refl | apply frame_State_modAsq | apply frame_cancelPending | apply frame_promote | apply FrameB.ite) | decide | split | dsimp only

theorem frame_asqCommit x0 s (h : FrameB m o s) (e : sub 0x1800100100 m) : FrameB m o (asqCommit x0 s) := by
  refine .step ?_ e h
  unfold asqCommit
  repeat' first | (with_reducible first | apply FrameB.refl | apply frame_State_modAsq | apply frame_ev | apply FrameB.ite) | decide | split | dsimp only

theorem frame_psReached x0 s (h : FrameB m o s) (e : sub 0x18880 m) : FrameB m o (psReached x0 s) := by
  refine .step ?_ e h
  unfold psReached
  repeat' first | (with_reducible first | apply FrameB.refl | apply frame_State_modPwr | apply frame_finishDw | apply FrameB.ite) | decide | split | dsimp only

theorem frame_gateChannels s (h : FrameB m o s) (e : sub 0x800 m) : FrameB m o (gateChannels s) := by
  refine .step ?_ e h
  unfold gateChannels
  repeat' first | (with_reducible first | apply FrameB.refl | apply frame_State_modPwr | apply FrameB.foldl (fun _ _ => ?_) | apply FrameB.ite) | decide | split | dsimp only

theorem frame_backWrite x0 x1 x2 x3 s (h : FrameB m o s) (e : sub 0x18600021A0 m) : FrameB m o (backWrite x0 x1 x2 x3 s) := by
  refine .step ?_ e h
  unfold backWrite
  repeat' first | (with_reducible first | apply FrameB.refl | apply frame_bccWrite | apply frame_memWrite | apply FrameB.ite) | decide | split | dsimp only

theorem frame_l1CleanLine x0 x1 s (h : FrameB m o s) (e : sub 0x18600031A0 m) : FrameB m o (l1CleanLine x0 x1 s) := by
  refine .step ?_ e h
  unfold l1CleanLine
  repeat' first | (with_reducible first | apply FrameB.refl | apply frame_backWrite | apply FrameB.ite) | fail_if_no_progress ((with_reducible apply FrameB.set_l1); rfl) | decide | split | dsimp only

theorem frame_l1CleanAll x0 s (h : FrameB m o s) (e : sub 0x18600031A0 m) : FrameB m o (l1CleanAll x0 s) := by
  refine .step ?_ e h
  unfold l1CleanAll
  repeat' first | (with_reducible first | apply FrameB.refl | apply frame_l1CleanLine | apply FrameB.foldl (fun _ _ => ?_) | apply FrameB.ite) | fail_if_no_progress ((with_reducible apply FrameB.set_l1); rfl) | decide | split | dsimp only

theorem frame_beginEntry x0 s (h : FrameB m o s) (e : sub 0x186000B9A0 m) : FrameB m o (beginEntry x0 s) := by
  refine .step ?_ e h
  unfold beginEntry
  repeat' first | (with_reducible first | apply FrameB.refl | apply frame_State_modHce | apply frame_State_modPwr | apply frame_l1CleanAll | apply FrameB.foldl (fun _ _ => ?_) | apply FrameB.ite) | decide | split | dsimp only

theorem frame_psProceed x0 s (h : FrameB m o s) (e : sub 0x186001B9A0 m) : FrameB m o (psProceed x0 s) := by
  refine .step ?_ e h
  unfold psProceed
  repeat' first | (with_reducible first | apply FrameB.refl | apply frame_beginEntry | apply frame_gateChannels | apply frame_psReached | apply FrameB.ite) | decide | split | dsimp only

theorem frame_autonomousPs s (h : FrameB m o s) (e : sub 0x186001B9A0 m) : FrameB m o (autonomousPs s) := by
  refine .step ?_ e h
  unfold autonomousPs
  repeat' first | (with_reducible first | apply FrameB.refl | apply frame_State_modPwr | apply frame_psProceed | apply FrameB.ite) | decide | split | dsimp only

theorem frame_backgroundErase s (h : FrameB m o s) (e : sub 0x42000 m) : FrameB m o (backgroundErase s) := by
  refine .step ?_ e h
  unfold backgroundErase
  repeat' first | (with_reducible first | apply FrameB.refl | apply frame_State_modRvr | apply frame_raiseLine | apply FrameB.ite) | decide | split | dsimp only

theorem frame_barrierLogged x0 x1 s (h : FrameB m o s) (e : sub 0x18000 m) : FrameB m o (barrierLogged x0 x1 s) := by
  refine .step ?_ e h
  unfold barrierLogged
  repeat' first | (with_reducible first | apply FrameB.refl | apply frame_modCmd | apply frame_modEntry | apply FrameB.ite) | decide | split | dsimp only

theorem frame_bccClearEn s (h : FrameB m o s) (e : sub 0x1840000100 m) : FrameB m o (bccClearEn s) := by
  refine .step ?_ e h
  unfold bccClearEn
  repeat' first | (with_reducible first | apply FrameB.refl | apply frame_State_modBcc | apply frame_State_modHdr | apply frame_blockErrorP | apply FrameB.ite) | decide | split | dsimp only

theorem frame_bccDrop x0 s (h : FrameB m o s) (e : sub 0x40000000 m) : FrameB m o (bccDrop x0 s) := by
  refine .step ?_ e h
  unfold bccDrop
  repeat' first | (with_reducible first | apply FrameB.refl | apply frame_State_modBcc | apply FrameB.ite) | decide | split | dsimp only

theorem frame_bccSetEn s (h : FrameB m o s) (e : sub 0x1840000100 m) : FrameB m o (bccSetEn s) := by
  refine .step ?_ e h
  unfold bccSetEn
  repeat' first | (with_reducible first | apply FrameB.refl | apply frame_State_modBcc | apply frame_State_modHdr | apply frame_blockErrorP | apply FrameB.ite) | decide | split | dsimp only

theorem frame_toHoldover s (h : FrameB m o s) (e : sub 0x5800002100 m) : FrameB m o (toHoldover s) := by
  refine .step ?_ e h
  unfold toHoldover
  repeat' first | (with_reducible first | apply FrameB.refl | apply frame_State_modVlk | apply frame_ev | apply frame_raiseLine | apply FrameB.ite) | decide | split | dsimp only

theorem frame_beaconLost s (h : FrameB m o s) (e : sub 0x5800002100 m) : FrameB m o (beaconLost s) := by
  refine .step ?_ e h
  unfold beaconLost
  repeat' first | (with_reducible first | apply FrameB.refl | apply frame_State_modVlk | apply frame_toHoldover | apply FrameB.ite) | decide | split | dsimp only

theorem frame_unenrol s (h : FrameB m o s) (e : sub 0x4000000000 m) : FrameB m o (unenrol s) := by
  refine .step ?_ e h
  unfold unenrol
  repeat' first | (with_reducible first | apply FrameB.refl | apply frame_State_modVlk | apply FrameB.ite) | decide | split | dsimp only

theorem frame_beaconFailed s (h : FrameB m o s) (e : sub 0x5800002100 m) : FrameB m o (beaconFailed s) := by
  refine .step ?_ e h
  unfold beaconFailed
  repeat' first | (with_reducible first | apply FrameB.refl | apply frame_State_modVlk | apply frame_beaconLost | apply frame_ev | apply frame_unenrol | apply FrameB.ite) | decide | split | dsimp only

theorem frame_vlkBump x0 s (h : FrameB m o s) (e : sub 0x4000002000 m) : FrameB m o (vlkBump x0 s) := by
  refine .step ?_ e h
  unfold vlkBump
  repeat' first | (with_reducible first | apply FrameB.refl | apply frame_State_modVlk | apply frame_raiseLine | apply FrameB.ite) | decide | split | dsimp only

theorem frame_keyAtBeacon x0 s (h : FrameB m o s) (e : sub 0x4000000000 m) : FrameB m o (keyAtBeacon x0 s) := by
  refine .step ?_ e h
  unfold keyAtBeacon
  repeat' first | (with_reducible first | apply FrameB.refl | apply frame_State_modVlk | apply FrameB.ite) | decide | split | dsimp only

theorem frame_calSet x0 s (h : FrameB m o s) (e : sub 0x3800000910 m) : FrameB m o (calSet x0 s) := by
  refine .step ?_ e h
  unfold calSet
  repeat' first | (with_reducible first | apply FrameB.refl | apply frame_State_modEvr | apply frame_blockErrorP | apply frame_ev | apply frame_fireAlarm | apply FrameB.ite) | fail_if_no_progress ((with_reducible apply FrameB.set_cal); rfl) | decide | split | dsimp only

theorem frame_calLoad x0 x1 x2 s (h : FrameB m o s) (e : sub 0x3800000910 m) : FrameB m o (calLoad x0 x1 x2 s) := by
  refine .step ?_ e h
  unfold calLoad
  repeat' first | (with_reducible first | apply FrameB.refl | apply frame_calSet | apply frame_setReg | apply FrameB.ite) | decide | split | dsimp only

theorem frame_storeFields x0 x1 x2 x3 s (h : FrameB m o s) (e : sub 0x1800000110 m) : FrameB m o (storeFields x0 x1 x2 x3 s) := by
  refine .step ?_ e h
  unfold storeFields
  repeat' first | (with_reducible first | apply FrameB.refl | apply frame_blockError | apply frame_setReg | apply FrameB.ite) | decide | split | dsimp only

theorem frame_calAdj x0 s (h : FrameB m o s) (e : sub 0x2000000100 m) : FrameB m o (calAdj x0 s) := by
  refine .step ?_ e h
  unfold calAdj
  repeat' first | (with_reducible first | apply FrameB.refl | apply frame_setIrqStat | apply FrameB.ite) | fail_if_no_progress ((with_reducible apply FrameB.set_cal); rfl) | decide | split | dsimp only

theorem frame_writeCalAdj x0 s (h : FrameB m o s) (e : sub 0x3800000110 m) : FrameB m o (writeCalAdj x0 s) := by
  refine .step ?_ e h
  unfold writeCalAdj
  repeat' first | (with_reducible first | apply FrameB.refl | apply frame_calAdj | apply frame_storeFields | apply FrameB.ite) | decide | split | dsimp only

theorem frame_steerCal s (h : FrameB m o s) (e : sub 0x3800000910 m) : FrameB m o (steerCal s) := by
  refine .step ?_ e h
  unfold steerCal
  repeat' first | (with_reducible first | apply FrameB.refl | apply frame_calLoad | apply frame_ev | apply frame_writeCalAdj | apply FrameB.ite) | decide | split | dsimp only

theorem frame_steer x0 s (h : FrameB m o s) (e : sub 0x4000000080 m) : FrameB m o (steer x0 s) := by
  refine .step ?_ e h
  unfold steer
  repeat' first | (with_reducible first | apply FrameB.refl | apply frame_State_drawn | apply frame_State_modVlk | apply FrameB.ite) | decide | split | dsimp only

theorem frame_beaconTaken x0 s (h : FrameB m o s) (e : sub 0x7800002990 m) : FrameB m o (beaconTaken x0 s) := by
  refine .step ?_ e h
  unfold beaconTaken
  repeat' first | (with_reducible first | apply FrameB.refl | apply frame_State_modVlk | apply frame_ev | apply frame_keyAtBeacon | apply frame_raiseLine | apply frame_steer | apply frame_steerCal | apply frame_vlkBump | apply FrameB.ite) | decide | split | dsimp only

theorem frame_takeTurn x0 x1 x2 s (h : FrameB m o s) (e : sub 0x8000 m) : FrameB m o (takeTurn x0 x1 x2 s) := by
  refine .step ?_ e h
  unfold takeTurn
  repeat' first | (with_reducible first | apply FrameB.refl | apply frame_State_modCtrl | apply frame_State_modHce | apply FrameB.ite) | decide | split | dsimp only

theorem frame_beginTurn x0 s (h : FrameB m o s) (e : sub 0x8000 m) : FrameB m o (beginTurn x0 s) := by
  refine .step ?_ e h
  unfold beginTurn
  repeat' first | (with_reducible first | apply FrameB.refl | apply frame_takeTurn | apply FrameB.ite) | decide | split | dsimp only

theorem frame_bistEvent x0 s (h : FrameB m o s) (e : sub 0x1800000300 m) : FrameB m o (bistEvent x0 s) := by
  refine .step ?_ e h
  unfold bistEvent
  repeat' first | (with_reducible first | apply FrameB.refl | apply frame_State_modSys | apply frame_ev | apply FrameB.ite) | decide | split | dsimp only

theorem frame_bistEventFree s (h : FrameB m o s) (e : sub 0x1800000380 m) : FrameB m o (bistEventFree s) := by
  refine .step ?_ e h
  unfold bistEventFree
  repeat' first | (with_reducible first | apply FrameB.refl | apply frame_State_drawn | apply frame_bistEvent | apply FrameB.ite) | decide | split | dsimp only

theorem frame_dmcPoisonLine x0 s (h : FrameB m o s) (e : sub 0x20000000 m) : FrameB m o (dmcPoisonLine x0 s) := by
  refine .step ?_ e h
  unfold dmcPoisonLine
  repeat' first | (with_reducible first | apply FrameB.refl | apply frame_poisonBytes | apply FrameB.ite) | decide | split | dsimp only

theorem frame_disableWay x0 x1 x2 s (h : FrameB m o s) (e : sub 0x1860002120 m) : FrameB m o (disableWay x0 x1 x2 s) := by
  refine .step ?_ e h
  unfold disableWay
  repeat' first | (with_reducible first | apply FrameB.refl | apply frame_State_modBcc | apply frame_dmcPoisonLine | apply frame_ev | apply frame_raiseLine | apply frame_writeBack | apply FrameB.foldl (fun _ _ => ?_) | apply FrameB.ite) | decide | split | dsimp only

theorem frame_bistResults x0 s (h : FrameB m o s) (e : sub 0x186003A3A0 m) : FrameB m o (bistResults x0 s) := by
  refine .step ?_ e h
  unfold bistResults
  repeat' first | (with_reducible first | apply FrameB.refl | apply frame_State_modSys | apply frame_bistEvent | apply frame_bistEventFree | apply frame_disableWay | apply frame_loseChannel | apply FrameB.foldl (fun _ _ => ?_) | apply FrameB.ite) | decide | split | dsimp only

theorem frame_blindPulse x0 s (h : FrameB m o s) (e : sub 0x200000 m) : FrameB m o (blindPulse x0 s) := by
  refine .step ?_ e h
  unfold blindPulse
  repeat' first | (with_reducible first | apply FrameB.refl | apply frame_State_modRwc | apply FrameB.ite) | decide | split | dsimp only

theorem frame_blockDurable s (h : FrameB m o s) (e : sub 0x20000 m) : FrameB m o (blockDurable s) := by
  refine .step ?_ e h
  unfold blockDurable
  repeat' first | (with_reducible first | apply FrameB.refl | apply frame_State_modXmt | apply FrameB.ite) | decide | split | dsimp only

theorem frame_programFuses s (h : FrameB m o s) (e : sub 0x1800000180 m) : FrameB m o (programFuses s) := by
  refine .step ?_ e h
  unfold programFuses
  repeat' first | (with_reducible first | apply FrameB.refl | apply frame_State_drawn | apply frame_ev | apply FrameB.ite) | decide | split | dsimp only

theorem frame_dropLinks s (h : FrameB m o s) (e : sub 0x4000000000 m) : FrameB m o (dropLinks s) := by
  refine .step ?_ e h
  unfold dropLinks
  repeat' first | (with_reducible first | apply FrameB.refl | apply frame_State_modVlk | apply FrameB.ite) | decide | split | dsimp only

theorem frame_zeroKst s (h : FrameB m o s) (e : sub 0x80000000 m) : FrameB m o (zeroKst s) := by
  refine .step ?_ e h
  unfold zeroKst
  repeat' first | (with_reducible first | apply FrameB.refl | apply frame_State_modSec | apply FrameB.ite) | decide | split | dsimp only

theorem frame_snuffAct x0 s (h : FrameB m o s) (e : sub 0x5A8CB22980 m) : FrameB m o (snuffAct x0 s) := by
  refine .step ?_ e h
  unfold snuffAct
  repeat' first | (with_reducible first | apply FrameB.refl | apply frame_dropLinks | apply frame_faultDecision | apply frame_noteWake | apply frame_setIrqStat | apply frame_zeroKst | apply FrameB.foldl (fun _ _ => ?_) | apply FrameB.ite) | decide | split | dsimp only

theorem frame_guarantee x0 x1 x2 x3 x4 x5 s (h : FrameB m o s) (e : sub 0x1800000100 m) : FrameB m o (guarantee x0 x1 x2 x3 x4 x5 s) := by
  refine .step ?_ e h
  unfold guarantee
  repeat' first | (with_reducible first | apply FrameB.refl | apply frame_ev | apply FrameB.ite) | decide | split | dsimp only

theorem frame_snuff2 x0 s (h : FrameB m o s) (e : sub 0x5A8CB22980 m) : FrameB m o (snuff2 x0 s) := by
  refine .step ?_ e h
  unfold snuff2
  repeat' first | (with_reducible first | apply FrameB.refl | apply frame_State_modSec | apply frame_ev | apply frame_guarantee | apply frame_snuffAct | apply FrameB.foldl (fun _ _ => ?_) | apply FrameB.ite) | decide | split | dsimp only

theorem frame_blowAlarm x0 s (h : FrameB m o s) (e : sub 0x5A8CB22980 m) : FrameB m o (blowAlarm x0 s) := by
  refine .step ?_ e h
  unfold blowAlarm
  repeat' first | (with_reducible first | apply FrameB.refl | apply frame_State_modSec | apply frame_ev | apply frame_programFuses | apply frame_snuff2 | apply FrameB.ite) | decide | split | dsimp only

theorem frame_boostEnds x0 x1 s (h : FrameB m o s) (e : sub 0x2000 m) : FrameB m o (boostEnds x0 x1 s) := by
  refine .step ?_ e h
  unfold boostEnds
  repeat' first | (with_reducible first | apply FrameB.refl | apply frame_raiseLine | apply FrameB.ite) | decide | split | dsimp only

theorem frame_measureStage s (h : FrameB m o s) (e : sub 0x80000080 m) : FrameB m o (measureStage s) := by
  refine .step ?_ e h
  unfold measureStage
  repeat' first | (with_reducible first | apply FrameB.refl | apply frame_State_drawn | apply frame_extendMeas | apply FrameB.ite) | decide | split | dsimp only

theorem frame_deriveKeys s (h : FrameB m o s) (e : sub 0x80000000 m) : FrameB m o (deriveKeys s) := by
  refine .step ?_ e h
  unfold deriveKeys
  repeat' first | (with_reducible first | apply FrameB.refl | apply frame_State_modSec | apply FrameB.ite) | decide | split | dsimp only

theorem frame_startImage x0 x1 s (h : FrameB m o s) (e : sub 0x80000290 m) : FrameB m o (startImage x0 x1 s) := by
  refine .step ?_ e h
  unfold startImage
  repeat' first | (with_reducible first | apply FrameB.refl | apply frame_State_modSec | apply frame_State_modSys | apply frame_deriveKeys | apply frame_extendMeas | apply frame_measureStage | apply frame_setFld | apply FrameB.ite) | decide | split | dsimp only

theorem frame_bootSlots x0 s (h : FrameB m o s) (e : sub 0x1880000390 m) : FrameB m o (bootSlots x0 s) := by
  refine .step ?_ e h
  unfold bootSlots
  repeat' first | (with_reducible first | apply FrameB.refl | apply frame_State_modSys | apply frame_ev | apply frame_startImage | apply FrameB.ite) | decide | split | dsimp only

theorem frame_boundary x0 s (h : FrameB m o s) (e : sub 0x1A0C302180 m) : FrameB m o (boundary x0 s) := by
  refine .step ?_ e h
  unfold boundary
  repeat' first | (with_reducible first | apply FrameB.refl | apply frame_sampleBoundary | apply FrameB.ite) | decide | split | dsimp only

theorem frame_brakeSpeed s (h : FrameB m o s) (e : sub 0x2000000 m) : FrameB m o (brakeSpeed s) := by
  refine .step ?_ e h
  unfold brakeSpeed
  repeat' first | (with_reducible first | apply FrameB.refl | apply frame_State_modSpn | apply FrameB.ite) | decide | split | dsimp only

theorem frame_bufRd x0 s (h : FrameB m o s) (e : sub 0x100000 m) : FrameB m o (bufRd x0 s) := by
  refine .step ?_ e h
  unfold bufRd
  repeat' first | (with_reducible first | apply FrameB.refl | apply frame_State_modAsq | apply frame_waitComes | apply FrameB.ite) | decide | split | dsimp only

theorem frame_bufWr x0 s (h : FrameB m o s) (e : sub 0x100000 m) : FrameB m o (bufWr x0 s) := by
  refine .step ?_ e h
  unfold bufWr
  repeat' first | (with_reducible first | apply FrameB.refl | apply frame_State_modAsq | apply FrameB.ite) | decide | split | dsimp only

theorem frame_bufferEntry x0 x1 s (h : FrameB m o s) (e : sub 0x10080 m) : FrameB m o (bufferEntry x0 x1 s) := by
  refine .step ?_ e h
  unfold bufferEntry
  repeat' first | (with_reducible first | apply FrameB.refl | apply frame_State_drawn | apply frame_State_modLgr | apply frame_modEntry | apply FrameB.foldl (fun _ _ => ?_) | apply FrameB.ite) | decide | split | dsimp only

theorem frame_busFails s (h : FrameB m o s) (e : sub 0xC m) : FrameB m o (busFails s) := by
  refine .step ?_ e h
  unfold busFails
  repeat' first | (with_reducible first | apply FrameB.refl | apply FrameB.ite) | fail_if_no_progress ((with_reducible apply FrameB.set_busData_busErr); rfl) | fail_if_no_progress ((with_reducible apply FrameB.set_busData); rfl) | fail_if_no_progress ((with_reducible apply FrameB.set_busErr); rfl) | decide | split | dsimp only

theorem frame_busGives x0 s (h : FrameB m o s) (e : sub 0xC m) : FrameB m o (busGives x0 s) := by
  refine .step ?_ e h
  unfold busGives
  repeat' first | (with_reducible first | apply FrameB.refl | apply FrameB.ite) | fail_if_no_progress ((with_reducible apply FrameB.set_busData_busErr); rfl) | fail_if_no_progress ((with_reducible apply FrameB.set_busData); rfl) | fail_if_no_progress ((with_reducible apply FrameB.set_busErr); rfl) | decide | split | dsimp only

theorem frame_romAccess x0 x1 x2 x3 s (h : FrameB m o s) (e : sub 0xC m) : FrameB m o (romAccess x0 x1 x2 x3 s) := by
  refine .step ?_ e h
  unfold romAccess
  repeat' first | (with_reducible first | apply FrameB.refl | apply frame_busFails | apply frame_busGives | apply FrameB.ite) | decide | split | dsimp only

theorem frame_busZero s (h : FrameB m o s) (e : sub 0xC m) : FrameB m o (busZero s) := by
  refine .step ?_ e h
  unfold busZero
  repeat' first | (with_reducible first | apply FrameB.refl | apply FrameB.ite) | fail_if_no_progress ((with_reducible apply FrameB.set_busData_busErr); rfl) | fail_if_no_progress ((with_reducible apply FrameB.set_busData); rfl) | fail_if_no_progress ((with_reducible apply FrameB.set_busErr); rfl) | decide | split | dsimp only

theorem frame_memSpan x0 x1 x2 x3 x4 s (h : FrameB m o s) (e : sub 0x18600031AC m) : FrameB m o (memSpan x0 x1 x2 x3 x4 s) := by
  refine .step ?_ e h
  unfold memSpan
  repeat' first | (with_reducible first | apply FrameB.refl | apply frame_busFails | apply frame_memAccess | apply FrameB.ite) | fail_if_no_progress ((with_reducible apply FrameB.set_busData); rfl) | decide | split | dsimp only

theorem frame_domMem x0 x1 x2 x3 x4 x5 s (h : FrameB m o s) (e : sub 0x18600031AC m) : FrameB m o (domMem x0 x1 x2 x3 x4 x5 s) := by
  refine .step ?_ e h
  unfold domMem
  repeat' first | (with_reducible first | apply FrameB.refl | apply frame_blockError | apply frame_busZero | apply frame_memSpan | apply FrameB.ite) | decide | split | dsimp only

theorem frame_guardWrite x0 x1 x2 s (h : FrameB m o s) (e : sub 0x1800000100 m) : FrameB m o (guardWrite x0 x1 x2 s) := by
  refine .step ?_ e h
  unfold guardWrite
  repeat' first | (with_reducible first | apply FrameB.refl | apply frame_State_modHdr | apply frame_blockError | apply frame_ev | apply FrameB.ite) | decide | split | dsimp only

theorem frame_submitWords x0 x1 x2 s (h : FrameB m o s) (e : sub 0x1800006100 m) : FrameB m o (submitWords x0 x1 x2 s) := by
  refine .step ?_ e h
  unfold submitWords
  repeat' first | (with_reducible first | apply FrameB.refl | apply frame_submitLeave | apply FrameB.ite) | decide | split | dsimp only

theorem frame_lltRelease s (h : FrameB m o s) (e : sub 0x1800006100 m) : FrameB m o (lltRelease s) := by
  refine .step ?_ e h
  unfold lltRelease
  repeat' first | (with_reducible first | apply FrameB.refl | apply frame_State_modPort | apply frame_submitWords | apply frame_walkQueue | apply FrameB.foldl (fun _ _ => ?_) | apply FrameB.ite) | decide | split | dsimp only

theorem frame_freezeWrite x0 x1 x2 s (h : FrameB m o s) (e : sub 0x1800006100 m) : FrameB m o (freezeWrite x0 x1 x2 s) := by
  refine .step ?_ e h
  unfold freezeWrite
  repeat' first | (with_reducible first | apply FrameB.refl | apply frame_State_modHdr | apply frame_blockError | apply frame_lltRelease | apply FrameB.ite) | decide | split | dsimp only

theorem frame_resetRegs x0 x1 s (h : FrameB m o s) (e : sub 0x10 m) : FrameB m o (resetRegs x0 x1 s) := by
  refine .step ?_ e h
  unfold resetRegs
  repeat' first | (with_reducible first | apply FrameB.refl | apply FrameB.ite) | fail_if_no_progress ((with_reducible apply FrameB.set_regs); rfl) | decide | split | dsimp only

theorem frame_srstAsq x0 s (h : FrameB m o s) (e : sub 0x1A6DB2F1A0 m) : FrameB m o (srstAsq x0 s) := by
  refine .step ?_ e h
  unfold srstAsq
  repeat' first | (with_reducible first | apply FrameB.refl | apply frame_gatesOff | apply frame_tagDone | apply frame_taskEnd | apply FrameB.ite) | fail_if_no_progress ((with_reducible apply FrameB.set_asq); rfl) | decide | split | dsimp only

theorem frame_srstRwc x0 s (h : FrameB m o s) (e : sub 0x1A0CB22190 m) : FrameB m o (srstRwc x0 s) := by
  refine .step ?_ e h
  unfold srstRwc
  repeat' first | (with_reducible first | apply FrameB.refl | apply frame_State_drawn | apply frame_faultDecision | apply frame_loadCoefs | apply frame_loadSettings | apply frame_resetRegs | apply FrameB.ite) | fail_if_no_progress ((with_reducible apply FrameB.set_rwc); rfl) | decide | split | dsimp only

theorem frame_srstLdp s (h : FrameB m o s) (e : sub 0x400000 m) : FrameB m o (srstLdp s) := by
  refine .step ?_ e h
  unfold srstLdp
  repeat' first | (with_reducible first | apply FrameB.refl | apply FrameB.ite) | fail_if_no_progress ((with_reducible apply FrameB.set_ldp); rfl) | decide | split | dsimp only

theorem frame_tpeDiscard s (h : FrameB m o s) (e : sub 0x800000 m) : FrameB m o (tpeDiscard s) := by
  refine .step ?_ e h
  unfold tpeDiscard
  repeat' first | (with_reducible first | apply FrameB.refl | apply FrameB.ite) | fail_if_no_progress ((with_reducible apply FrameB.set_tpe); rfl) | decide | split | dsimp only

theorem frame_srstSpin s (h : FrameB m o s) (e : sub 0x2000000 m) : FrameB m o (srstSpin s) := by
  refine .step ?_ e h
  unfold srstSpin
  repeat' first | (with_reducible first | apply FrameB.refl | apply FrameB.ite) | fail_if_no_progress ((with_reducible apply FrameB.set_spn); rfl) | decide | split | dsimp only

theorem frame_retractEnd x0 s (h : FrameB m o s) (e : sub 0x7801000B12 m) : FrameB m o (retractEnd x0 s) := by
  refine .step ?_ e h
  unfold retractEnd
  repeat' first | (with_reducible first | apply FrameB.refl | apply frame_State_modSve | apply frame_advanceTo | apply FrameB.ite) | decide | split | dsimp only

theorem frame_srstSve x0 s (h : FrameB m o s) (e : sub 0x7A1DB2AB92 m) : FrameB m o (srstSve x0 s) := by
  refine .step ?_ e h
  unfold srstSve
  repeat' first | (with_reducible first | apply FrameB.refl | apply frame_retractEnd | apply frame_retractStart | apply FrameB.ite) | fail_if_no_progress ((with_reducible apply FrameB.set_sve); rfl) | decide | split | dsimp only

theorem frame_srstOpt s (h : FrameB m o s) (e : sub 0x7A1DB2AB92 m) : FrameB m o (srstOpt s) := by
  refine .step ?_ e h
  unfold srstOpt
  repeat' first | (with_reducible first | apply FrameB.refl | apply frame_retractEnd | apply frame_retractStart | apply FrameB.foldl (fun _ _ => ?_) | apply FrameB.ite) | fail_if_no_progress ((with_reducible apply FrameB.set_opt); rfl) | decide | split | dsimp only

theorem frame_laserOff x0 s (h : FrameB m o s) (e : sub 0xC200000 m) : FrameB m o (laserOff x0 s) := by
  refine .step ?_ e h
  unfold laserOff
  repeat' first | (with_reducible first | apply FrameB.refl | apply frame_State_modLaser | apply frame_State_modRwc | apply frame_countOnTime | apply frame_psiQueue | apply FrameB.ite) | decide | split | dsimp only

theorem frame_lasersOff s (h : FrameB m o s) (e : sub 0xC200000 m) : FrameB m o (lasersOff s) := by
  refine .step ?_ e h
  unfold lasersOff
  repeat' first | (with_reducible first | apply FrameB.refl | apply frame_laserOff | apply FrameB.foldl (fun _ _ => ?_) | apply FrameB.ite) | decide | split | dsimp only

theorem frame_revokeAll x0 s (h : FrameB m o s) (e : sub 0x1800006100 m) : FrameB m o (revokeAll x0 s) := by
  refine .step ?_ e h
  unfold revokeAll
  repeat' first | (with_reducible first | apply FrameB.refl | apply frame_State_modLlt | apply frame_boostEnds | apply frame_ev | apply frame_leaveLost | apply frame_portLine | apply FrameB.foldl (fun _ _ => ?_) | apply FrameB.ite) | fail_if_no_progress ((with_reducible apply FrameB.set_llt); rfl) | decide | split | dsimp only

theorem frame_revokeLeaves x0 s (h : FrameB m o s) (e : sub 0x1A0C306180 m) : FrameB m o (revokeLeaves x0 s) := by
  refine .step ?_ e h
  unfold revokeLeaves
  repeat' first | (with_reducible first | apply FrameB.refl | apply frame_asqFault | apply frame_revokeAll | apply FrameB.foldl (fun _ _ => ?_) | apply FrameB.ite) | decide | split | dsimp only

theorem frame_srstLlt s (h : FrameB m o s) (e : sub 0x1A0C306190 m) : FrameB m o (srstLlt s) := by
  refine .step ?_ e h
  unfold srstLlt
  repeat' first | (with_reducible first | apply FrameB.refl | apply frame_State_modLlt | apply frame_revokeLeaves | apply frame_setReg | apply FrameB.foldl (fun _ _ => ?_) | apply FrameB.ite) | decide | split | dsimp only

theorem frame_srstEvr s (h : FrameB m o s) (e : sub 0x800000010 m) : FrameB m o (srstEvr s) := by
  refine .step ?_ e h
  unfold srstEvr
  repeat' first | (with_reducible first | apply FrameB.refl | apply frame_State_modEvr | apply frame_resetRegs | apply FrameB.ite) | decide | split | dsimp only

theorem frame_trimsRestored x0 s (h : FrameB m o s) (e : sub 0x1800000100 m) : FrameB m o (trimsRestored x0 s) := by
  refine .step ?_ e h
  unfold trimsRestored
  repeat' first | (with_reducible first | apply FrameB.refl | apply frame_ev | apply FrameB.ite) | decide | split | dsimp only

theorem frame_powerLit s (h : FrameB m o s) (e : sub 0x1800006900 m) : FrameB m o (powerLit s) := by
  refine .step ?_ e h
  unfold powerLit
  repeat' first | (with_reducible first | apply FrameB.refl | apply frame_State_modPwr | apply frame_trimsRestored | apply frame_walkQueue | apply FrameB.ite) | decide | split | dsimp only

theorem frame_srstVlk s (h : FrameB m o s) (e : sub 0x4000000010 m) : FrameB m o (srstVlk s) := by
  refine .step ?_ e h
  unfold srstVlk
  repeat' first | (with_reducible first | apply FrameB.refl | apply frame_dropLinks | apply frame_resetRegs | apply FrameB.ite) | fail_if_no_progress ((with_reducible apply FrameB.set_vlk); rfl) | decide | split | dsimp only

theorem frame_trainLink x0 s (h : FrameB m o s) (e : sub 0xA000 m) : FrameB m o (trainLink x0 s) := by
  refine .step ?_ e h
  unfold trainLink
  repeat' first | (with_reducible first | apply FrameB.refl | apply frame_State_modCtrl | apply frame_raiseLine | apply FrameB.ite) | decide | split | dsimp only

theorem frame_resetXmt s (h : FrameB m o s) (e : sub 0x10 m) : FrameB m o (resetXmt s) := by
  refine .step ?_ e h
  unfold resetXmt
  repeat' first | (with_reducible first | apply FrameB.refl | apply FrameB.ite) | fail_if_no_progress ((with_reducible apply FrameB.set_regs); rfl) | decide | split | dsimp only

theorem frame_srstBlock x0 x1 s (h : FrameB m o s) (e : sub 0x7AFFFFFBB2 m) : FrameB m o (srstBlock x0 x1 s) := by
  refine .step ?_ e h
  unfold srstBlock
  repeat' first | (with_reducible first | apply FrameB.refl | apply frame_State_modCtrl | apply frame_State_modSec | apply frame_State_modXmt | apply frame_commitGrantEnd | apply frame_dropLinks | apply frame_lasersOff | apply frame_powerLit | apply frame_resetRegs | apply frame_resetXmt | apply frame_srstAsq | apply frame_srstEvr | apply frame_srstLdp | apply frame_srstLlt | apply frame_srstOpt | apply frame_srstRwc | apply frame_srstSpin | apply frame_srstSve | apply frame_srstVlk | apply frame_tpeDiscard | apply frame_trainLink | apply frame_zeroKst | apply FrameB.ite) | fail_if_no_progress ((with_reducible apply FrameB.set_hce); rfl) | fail_if_no_progress ((with_reducible apply FrameB.set_lgr); rfl) | fail_if_no_progress ((with_reducible apply FrameB.set_rvr); rfl) | fail_if_no_progress ((with_reducible apply FrameB.set_cst); rfl) | fail_if_no_progress ((with_reducible apply FrameB.set_sve); rfl) | fail_if_no_progress ((with_reducible apply FrameB.set_psi); rfl) | fail_if_no_progress ((with_reducible apply FrameB.set_lsr); rfl) | fail_if_no_progress ((with_reducible apply FrameB.set_dmc); rfl) | fail_if_no_progress ((with_reducible apply FrameB.set_bcc); rfl) | fail_if_no_progress ((with_reducible apply FrameB.set_trm); rfl) | fail_if_no_progress ((with_reducible apply FrameB.set_lif); rfl) | fail_if_no_progress ((with_reducible apply FrameB.set_cal); rfl) | decide | split | dsimp only

theorem frame_softReset x0 x1 x2 s (h : FrameB m o s) (e : sub 0x7AFFFFFBB2 m) : FrameB m o (softReset x0 x1 x2 s) := by
  refine .step ?_ e h
  unfold softReset
  repeat' first | (with_reducible first | apply FrameB.refl | apply frame_State_modHdr | apply frame_blockError | apply frame_srstBlock | apply FrameB.ite) | decide | split | dsimp only

theorem frame_ctlWrite x0 x1 x2 x3 s (h : FrameB m o s) (e : sub 0x7AFFFFFBB2 m) : FrameB m o (ctlWrite x0 x1 x2 x3 s) := by
  refine .step ?_ e h
  unfold ctlWrite
  repeat' first | (with_reducible first | apply FrameB.refl | apply frame_State_modHdr | apply frame_bccClearEn | apply frame_bccSetEn | apply frame_freezeWrite | apply frame_softReset | apply FrameB.ite) | decide | split | dsimp only

theorem frame_errClear x0 x1 s (h : FrameB m o s) (e : sub 0x100 m) : FrameB m o (errClear x0 x1 s) := by
  refine .step ?_ e h
  unfold errClear
  repeat' first | (with_reducible first | apply FrameB.refl | apply frame_State_modHdr | apply FrameB.ite) | decide | split | dsimp only

theorem frame_irqSet x0 x1 x2 s (h : FrameB m o s) (e : sub 0x100 m) : FrameB m o (irqSet x0 x1 x2 s) := by
  refine .step ?_ e h
  unfold irqSet
  repeat' first | (with_reducible first | apply FrameB.refl | apply frame_State_modHdr | apply FrameB.ite) | decide | split | dsimp only

theorem frame_routeWrite x0 x1 x2 s (h : FrameB m o s) (e : sub 0x1800000110 m) : FrameB m o (routeWrite x0 x1 x2 s) := by
  refine .step ?_ e h
  unfold routeWrite
  repeat' first | (with_reducible first | apply FrameB.refl | apply frame_blockError | apply frame_storeFields | apply FrameB.ite) | decide | split | dsimp only

theorem frame_headerWrite x0 x1 x2 x3 x4 s (h : FrameB m o s) (e : sub 0x7AFFFFFBB2 m) : FrameB m o (headerWrite x0 x1 x2 x3 x4 s) := by
  refine .step ?_ e h
  unfold headerWrite
  repeat' first | (with_reducible first | apply FrameB.refl | apply frame_State_modHdr | apply frame_ctlWrite | apply frame_errClear | apply frame_irqSet | apply frame_routeWrite | apply FrameB.ite) | decide | split | dsimp only

theorem frame_writeRdyctl x0 s (h : FrameB m o s) (e : sub 0x1800008300 m) : FrameB m o (writeRdyctl x0 s) := by
  refine .step ?_ e h
  unfold writeRdyctl
  repeat' first | (with_reducible first | apply FrameB.refl | apply frame_State_modSys | apply frame_applyRdy | apply frame_blockError | apply frame_ev | apply FrameB.ite) | decide | split | dsimp only

theorem frame_wdtRestart s (h : FrameB m o s) (e : sub 0x200 m) : FrameB m o (wdtRestart s) := by
  refine .step ?_ e h
  unfold wdtRestart
  repeat' first | (with_reducible first | apply FrameB.refl | apply frame_State_modSys | apply FrameB.ite) | decide | split | dsimp only

theorem frame_writeWdtctl x0 s (h : FrameB m o s) (e : sub 0x1800000310 m) : FrameB m o (writeWdtctl x0 s) := by
  refine .step ?_ e h
  unfold writeWdtctl
  repeat' first | (with_reducible first | apply FrameB.refl | apply frame_storeFields | apply frame_wdtRestart | apply FrameB.ite) | decide | split | dsimp only

theorem frame_writeWdtkick x0 s (h : FrameB m o s) (e : sub 0x1800000300 m) : FrameB m o (writeWdtkick x0 s) := by
  refine .step ?_ e h
  unfold writeWdtkick
  repeat' first | (with_reducible first | apply FrameB.refl | apply frame_blockError | apply frame_wdtRestart | apply FrameB.ite) | decide | split | dsimp only

theorem frame_guarded x0 x1 x2 x3 x4 s (h : FrameB m o s) (e : sub 0x1800000100 m) (k0 : ∀ t, FrameB m o t → FrameB m o (x4 t)) : FrameB m o (guarded x0 x1 x2 x3 x4 s) := by
  unfold guarded
  repeat' first | assumption | (with_reducible first | apply frame_blockError | apply FrameB.ite | apply k0) | (with_reducible apply sub_trans (h := e); decide) | (with_reducible apply frame_State_modVlk) | split | dsimp only [id]

theorem frame_writeProfile x0 s (h : FrameB m o s) (e : sub 0x1800000300 m) : FrameB m o (writeProfile x0 s) := by
  refine .step ?_ e h
  unfold writeProfile
  repeat' first | (with_reducible first | apply FrameB.refl | assumption | intro _ | apply frame_State_modSys | apply frame_guarded | apply FrameB.ite) | decide | split | dsimp only

theorem frame_twinAccess x0 x1 x2 s (h : FrameB m o s) (e : sub 0x1800000154 m) : FrameB m o (twinAccess x0 x1 x2 s) := by
  refine .step ?_ e h
  unfold twinAccess
  repeat' first | (with_reducible first | apply FrameB.refl | apply frame_blockError | apply frame_setFld | apply FrameB.foldl (fun _ _ => ?_) | apply FrameB.ite) | fail_if_no_progress ((with_reducible apply FrameB.set_busData_tcm); rfl) | fail_if_no_progress ((with_reducible apply FrameB.set_busData); rfl) | fail_if_no_progress ((with_reducible apply FrameB.set_tcm); rfl) | decide | split | dsimp only

theorem frame_swset x0 s (h : FrameB m o s) (e : sub 0x2000 m) : FrameB m o (swset x0 s) := by
  refine .step ?_ e h
  unfold swset
  repeat' first | (with_reducible first | apply FrameB.refl | apply frame_raiseLine | apply FrameB.ite) | decide | split | dsimp only

theorem frame_unwindDim s (h : FrameB m o s) (e : sub 0x1800000980 m) : FrameB m o (unwindDim s) := by
  refine .step ?_ e h
  unfold unwindDim
  repeat' first | (with_reducible first | apply FrameB.refl | apply frame_State_drawn | apply frame_State_modPwr | apply frame_ev | apply FrameB.ite) | decide | split | dsimp only

theorem frame_releaseHeld s (h : FrameB m o s) (e : sub 0x18600031AC m) : FrameB m o (releaseHeld s) := by
  refine .step ?_ e h
  unfold releaseHeld
  repeat' first | (with_reducible first | apply FrameB.refl | apply frame_memTake | apply FrameB.foldl (fun _ _ => ?_) | apply FrameB.ite) | fail_if_no_progress ((with_reducible apply FrameB.set_dmc); rfl) | decide | split | dsimp only

theorem frame_refreshEnds s (h : FrameB m o s) (e : sub 0x18600039AC m) : FrameB m o (refreshEnds s) := by
  refine .step ?_ e h
  unfold refreshEnds
  repeat' first | (with_reducible first | apply FrameB.refl | apply frame_State_modPwr | apply frame_releaseHeld | apply FrameB.ite) | decide | split | dsimp only

theorem frame_unwindEntry x0 s (h : FrameB m o s) (e : sub 0x186000B9AC m) : FrameB m o (unwindEntry x0 s) := by
  refine .step ?_ e h
  unfold unwindEntry
  repeat' first | (with_reducible first | apply FrameB.refl | apply frame_State_modHce | apply frame_State_modPwr | apply frame_ev | apply frame_refreshEnds | apply FrameB.ite) | decide | split | dsimp only

theorem frame_refusePreq x0 s (h : FrameB m o s) (e : sub 0x1800000180 m) : FrameB m o (refusePreq x0 s) := by
  refine .step ?_ e h
  unfold refusePreq
  repeat' first | (with_reducible first | apply FrameB.refl | apply frame_State_drawn | apply frame_blockErrorP | apply FrameB.ite) | decide | split | dsimp only

theorem frame_powerGo x0 s (h : FrameB m o s) (e : sub 0x186000B9AC m) : FrameB m o (powerGo x0 s) := by
  refine .step ?_ e h
  unfold powerGo
  repeat' first | (with_reducible first | apply FrameB.refl | apply frame_State_drawn | apply frame_State_modPwr | apply frame_beginEntry | apply frame_refusePreq | apply frame_unwindDim | apply frame_unwindEntry | apply FrameB.ite) | decide | split | dsimp only

theorem frame_writePreq x0 s (h : FrameB m o s) (e : sub 0x186000B9BC m) : FrameB m o (writePreq x0 s) := by
  refine .step ?_ e h
  unfold writePreq
  repeat' first | (with_reducible first | apply FrameB.refl | apply frame_powerGo | apply frame_storeFields | apply FrameB.ite) | decide | split | dsimp only

theorem frame_writePdoff x0 s (h : FrameB m o s) (e : sub 0x180003E990 m) : FrameB m o (writePdoff x0 s) := by
  refine .step ?_ e h
  unfold writePdoff
  repeat' first | (with_reducible first | apply FrameB.refl | apply frame_actuatorRetired | apply frame_blockError | apply frame_powerLit | apply frame_storeFields | apply FrameB.foldl (fun _ _ => ?_) | apply FrameB.ite) | decide | split | dsimp only

theorem frame_leaveGo x0 x1 x2 s (h : FrameB m o s) (e : sub 0x1800006100 m) : FrameB m o (leaveGo x0 x1 x2 s) := by
  refine .step ?_ e h
  unfold leaveGo
  repeat' first | (with_reducible first | apply FrameB.refl | apply frame_State_modPort | apply frame_blockError | apply frame_submitWords | apply FrameB.ite) | decide | split | dsimp only

theorem frame_writeReqb x0 x1 s (h : FrameB m o s) (e : sub 0x1800006110 m) : FrameB m o (writeReqb x0 x1 s) := by
  refine .step ?_ e h
  unfold writeReqb
  repeat' first | (with_reducible first | apply FrameB.refl | apply frame_leaveGo | apply frame_storeFields | apply FrameB.ite) | decide | split | dsimp only

theorem frame_renewTicket x0 x1 x2 x3 s (h : FrameB m o s) (e : sub 0x4000 m) : FrameB m o (renewTicket x0 x1 x2 x3 s) := by
  refine .step ?_ e h
  unfold renewTicket
  repeat' first | (with_reducible first | apply FrameB.refl | apply frame_State_modPort | apply frame_modTicket | apply frame_opStatus | apply FrameB.ite) | decide | split | dsimp only

theorem frame_writeOp x0 x1 s (h : FrameB m o s) (e : sub 0x6000 m) : FrameB m o (writeOp x0 x1 s) := by
  refine .step ?_ e h
  unfold writeOp
  repeat' first | (with_reducible first | apply FrameB.refl | apply frame_releaseTicket | apply frame_renewTicket | apply FrameB.ite) | decide | split | dsimp only

theorem frame_setLock x0 x1 s (h : FrameB m o s) (e : sub 0x400 m) : FrameB m o (setLock x0 x1 s) := by
  refine .step ?_ e h
  unfold setLock
  repeat' first | (with_reducible first | apply FrameB.refl | apply FrameB.ite) | fail_if_no_progress ((with_reducible apply FrameB.set_clk); rfl) | decide | split | dsimp only

theorem frame_faultAll x0 s (h : FrameB m o s) (e : sub 0x1A0CB22180 m) : FrameB m o (faultAll x0 s) := by
  refine .step ?_ e h
  unfold faultAll
  repeat' first | (with_reducible first | apply FrameB.refl | apply frame_faultDecision | apply FrameB.foldl (fun _ _ => ?_) | apply FrameB.ite) | decide | split | dsimp only

theorem frame_lockGone x0 s (h : FrameB m o s) (e : sub 0x1A0CB2A180 m) : FrameB m o (lockGone x0 s) := by
  refine .step ?_ e h
  unfold lockGone
  repeat' first | (with_reducible first | apply FrameB.refl | apply frame_State_modHce | apply frame_faultAll | apply FrameB.ite) | decide | split | dsimp only

theorem frame_unloadCheck x0 s (h : FrameB m o s) (e : sub 0x1A1FB2A180 m) : FrameB m o (unloadCheck x0 s) := by
  refine .step ?_ e h
  unfold unloadCheck
  repeat' first | (with_reducible first | apply FrameB.refl | apply frame_ev | apply frame_requestUnload | apply FrameB.ite) | decide | split | dsimp only

theorem frame_unloadEntry s (h : FrameB m o s) (e : sub 0x1A1FB2A180 m) : FrameB m o (unloadEntry s) := by
  refine .step ?_ e h
  unfold unloadEntry
  repeat' first | (with_reducible first | apply FrameB.refl | apply frame_unloadCheck | apply FrameB.ite) | decide | split | dsimp only

theorem frame_lockLost s (h : FrameB m o s) (e : sub 0x1A1FB2A180 m) : FrameB m o (lockLost s) := by
  refine .step ?_ e h
  unfold lockLost
  repeat' first | (with_reducible first | apply FrameB.refl | apply frame_State_modSpn | apply frame_ev | apply frame_lockGone | apply frame_raiseLine | apply frame_unloadEntry | apply FrameB.ite) | decide | split | dsimp only

theorem frame_pllSFault s (h : FrameB m o s) (e : sub 0x1A1FB2A180 m) : FrameB m o (pllSFault s) := by
  refine .step ?_ e h
  unfold pllSFault
  repeat' first | (with_reducible first | apply FrameB.refl | apply frame_lockLost | apply frame_retractStart | apply frame_servoDecide | apply FrameB.foldl (fun _ _ => ?_) | apply FrameB.ite) | decide | split | dsimp only

theorem frame_pllLoss x0 s (h : FrameB m o s) (e : sub 0x1A1FB2A590 m) : FrameB m o (pllLoss x0 s) := by
  refine .step ?_ e h
  unfold pllLoss
  repeat' first | (with_reducible first | apply FrameB.refl | apply frame_ev | apply frame_pllSFault | apply frame_setFld | apply frame_setLock | apply FrameB.foldl (fun _ _ => ?_) | apply FrameB.ite) | decide | split | dsimp only

theorem frame_writePllen x0 s (h : FrameB m o s) (e : sub 0x1A1FB2A590 m) : FrameB m o (writePllen x0 s) := by
  refine .step ?_ e h
  unfold writePllen
  repeat' first | (with_reducible first | apply FrameB.refl | apply frame_pllLoss | apply frame_storeFields | apply FrameB.foldl (fun _ _ => ?_) | apply FrameB.ite) | decide | split | dsimp only

theorem frame_writeClkDom x0 x1 s (h : FrameB m o s) (e : sub 0x1800000110 m) : FrameB m o (writeClkDom x0 x1 s) := by
  refine .step ?_ e h
  unfold writeClkDom
  repeat' first | (with_reducible first | apply FrameB.refl | apply frame_blockError | apply frame_storeFields | apply FrameB.ite) | decide | split | dsimp only

theorem frame_writeCalCmd x0 s (h : FrameB m o s) (e : sub 0x3800000910 m) : FrameB m o (writeCalCmd x0 s) := by
  refine .step ?_ e h
  unfold writeCalCmd
  repeat' first | (with_reducible first | apply FrameB.refl | apply frame_calSet | apply FrameB.ite) | decide | split | dsimp only

theorem frame_lifSnap s (h : FrameB m o s) (e : sub 0x1000000000 m) : FrameB m o (lifSnap s) := by
  refine .step ?_ e h
  unfold lifSnap
  repeat' first | (with_reducible first | apply FrameB.refl | apply FrameB.ite) | fail_if_no_progress ((with_reducible apply FrameB.set_lif); rfl) | decide | split | dsimp only

theorem frame_writeAddgo x0 s (h : FrameB m o s) (e : sub 0x1800000100 m) : FrameB m o (writeAddgo x0 s) := by
  refine .step ?_ e h
  unfold writeAddgo
  repeat' first | (with_reducible first | apply FrameB.refl | apply frame_blockError | apply frame_lifBump | apply FrameB.ite) | decide | split | dsimp only

theorem frame_lifSeal s (h : FrameB m o s) (e : sub 0x1000000000 m) : FrameB m o (lifSeal s) := by
  refine .step ?_ e h
  unfold lifSeal
  repeat' first | (with_reducible first | apply FrameB.refl | apply FrameB.ite) | fail_if_no_progress ((with_reducible apply FrameB.set_lif); rfl) | decide | split | dsimp only

theorem frame_refuseRestore x0 x1 s (h : FrameB m o s) (e : sub 0x1800000100 m) : FrameB m o (refuseRestore x0 x1 s) := by
  refine .step ?_ e h
  unfold refuseRestore
  repeat' first | (with_reducible first | apply FrameB.refl | apply frame_blockErrorP | apply FrameB.ite) | decide | split | dsimp only

theorem frame_placeRec x0 s (h : FrameB m o s) (e : sub 0x800000000 m) : FrameB m o (placeRec x0 s) := by
  refine .step ?_ e h
  unfold placeRec
  repeat' first | (with_reducible first | apply FrameB.refl | apply frame_State_modEvr | apply FrameB.ite) | decide | split | dsimp only

theorem frame_evrStore s (h : FrameB m o s) (e : sub 0x1800000100 m) : FrameB m o (evrStore s) := by
  refine .step ?_ e h
  unfold evrStore
  repeat' first | (with_reducible first | apply FrameB.refl | apply frame_State_modEvr | apply frame_placeRec | apply frame_refuseRestore | apply FrameB.ite) | decide | split | dsimp only

theorem frame_refuseNoSeq x0 s (h : FrameB m o s) (e : sub 0x1800000180 m) : FrameB m o (refuseNoSeq x0 s) := by
  refine .step ?_ e h
  unfold refuseNoSeq
  repeat' first | (with_reducible first | apply FrameB.refl | apply frame_State_drawn | apply frame_refuseRestore | apply FrameB.ite) | decide | split | dsimp only

theorem frame_forwardPut x0 s (h : FrameB m o s) (e : sub 0x5800000100 m) : FrameB m o (forwardPut x0 s) := by
  refine .step ?_ e h
  unfold forwardPut
  repeat' first | (with_reducible first | apply FrameB.refl | apply frame_State_modVlk | apply frame_ev | apply FrameB.ite) | decide | split | dsimp only

theorem frame_forwardStored x0 s (h : FrameB m o s) (e : sub 0x5800000100 m) : FrameB m o (forwardStored x0 s) := by
  refine .step ?_ e h
  unfold forwardStored
  repeat' first | (with_reducible first | apply FrameB.refl | apply frame_forwardPut | apply FrameB.ite) | decide | split | dsimp only

theorem frame_numberStaged x0 x1 s (h : FrameB m o s) (e : sub 0x5800000100 m) : FrameB m o (numberStaged x0 x1 s) := by
  refine .step ?_ e h
  clear h e
  induction x0 generalizing x1 s with
  | nil => unfold numberStaged; exact .refl
  | cons _ _ ih =>
    unfold numberStaged
    repeat' first | (with_reducible first | apply FrameB.refl | apply frame_forwardStored | apply frame_placeRec | apply FrameB.ite) | ((with_reducible apply FrameB.step (ih ..)); rfl) | decide | split | dsimp only

theorem frame_loseEvent s (h : FrameB m o s) (e : sub 0x1800000100 m) : FrameB m o (loseEvent s) := by
  refine .step ?_ e h
  unfold loseEvent
  repeat' first | (with_reducible first | apply FrameB.refl | apply frame_State_modEvr | apply frame_lifBump | apply FrameB.ite) | decide | split | dsimp only

theorem frame_storeRec x0 s (h : FrameB m o s) (e : sub 0x5800000100 m) : FrameB m o (storeRec x0 s) := by
  refine .step ?_ e h
  unfold storeRec
  repeat' first | (with_reducible first | apply FrameB.refl | apply frame_State_modEvr | apply frame_forwardStored | apply frame_loseEvent | apply frame_placeRec | apply FrameB.ite) | decide | split | dsimp only

theorem frame_storeCount x0 s (h : FrameB m o s) (e : sub 0x5800000100 m) : FrameB m o (storeCount x0 s) := by
  refine .step ?_ e h
  unfold storeCount
  repeat' first | (with_reducible first | apply FrameB.refl | apply frame_State_modEvr | apply frame_storeRec | apply FrameB.ite) | decide | split | dsimp only

theorem frame_evrCommit s (h : FrameB m o s) (e : sub 0x5800000180 m) : FrameB m o (evrCommit s) := by
  refine .step ?_ e h
  unfold evrCommit
  repeat' first | (with_reducible first | apply FrameB.refl | apply frame_State_modEvr | apply frame_numberStaged | apply frame_refuseNoSeq | apply frame_storeCount | apply FrameB.ite) | decide | split | dsimp only

theorem frame_writeBase x0 x1 s (h : FrameB m o s) (e : sub 0x1800000180 m) : FrameB m o (writeBase x0 x1 s) := by
  refine .step ?_ e h
  unfold writeBase
  repeat' first | (with_reducible first | apply FrameB.refl | assumption | intro _ | apply frame_State_modEvr | apply frame_guarded | apply frame_refuseNoSeq | apply FrameB.ite) | decide | split | dsimp only

theorem frame_loadWindow s (h : FrameB m o s) (e : sub 0x800000000 m) : FrameB m o (loadWindow s) := by
  refine .step ?_ e h
  unfold loadWindow
  repeat' first | (with_reducible first | apply FrameB.refl | apply frame_State_modEvr | apply FrameB.ite) | decide | split | dsimp only

theorem frame_writeCur x0 x1 s (h : FrameB m o s) (e : sub 0x800000000 m) : FrameB m o (writeCur x0 x1 s) := by
  refine .step ?_ e h
  unfold writeCur
  repeat' first | (with_reducible first | apply FrameB.refl | apply frame_State_modEvr | apply frame_loadWindow | apply FrameB.ite) | decide | split | dsimp only

theorem frame_writeWin x0 x1 s (h : FrameB m o s) (e : sub 0x800000000 m) : FrameB m o (writeWin x0 x1 s) := by
  refine .step ?_ e h
  unfold writeWin
  repeat' first | (with_reducible first | apply FrameB.refl | apply frame_State_modEvr | apply FrameB.ite) | decide | split | dsimp only

theorem frame_writeSwev x0 s (h : FrameB m o s) (e : sub 0x1800000110 m) : FrameB m o (writeSwev x0 s) := by
  refine .step ?_ e h
  unfold writeSwev
  repeat' first | (with_reducible first | apply FrameB.refl | apply frame_recordEvent | apply frame_storeFields | apply FrameB.ite) | decide | split | dsimp only

theorem frame_writeThmThr x0 s (h : FrameB m o s) (e : sub 0x1800000110 m) : FrameB m o (writeThmThr x0 s) := by
  refine .step ?_ e h
  unfold writeThmThr
  repeat' first | (with_reducible first | apply FrameB.refl | apply frame_blockError | apply frame_storeFields | apply FrameB.ite) | decide | split | dsimp only

theorem frame_openClasses s (h : FrameB m o s) (e : sub 0x4000 m) : FrameB m o (openClasses s) := by
  refine .step ?_ e h
  unfold openClasses
  repeat' first | (with_reducible first | apply FrameB.refl | apply frame_State_modLlt | apply FrameB.ite) | decide | split | dsimp only

theorem frame_clrShut s (h : FrameB m o s) (e : sub 0x190005E100 m) : FrameB m o (clrShut s) := by
  refine .step ?_ e h
  unfold clrShut
  repeat' first | (with_reducible first | apply FrameB.refl | apply frame_State_modHce | apply frame_State_modLgr | apply frame_State_modRvr | apply frame_State_modThm | apply frame_blockError | apply frame_ev | apply frame_openClasses | apply frame_walkQueue | apply FrameB.ite) | decide | split | dsimp only

theorem frame_writeThmCmd x0 s (h : FrameB m o s) (e : sub 0x190005E100 m) : FrameB m o (writeThmCmd x0 s) := by
  refine .step ?_ e h
  unfold writeThmCmd
  repeat' first | (with_reducible first | apply FrameB.refl | apply frame_State_modThm | apply frame_clrShut | apply FrameB.ite) | decide | split | dsimp only

theorem frame_writePfcfg x0 s (h : FrameB m o s) (e : sub 0x1800000110 m) : FrameB m o (writePfcfg x0 s) := by
  refine .step ?_ e h
  unfold writePfcfg
  repeat' first | (with_reducible first | apply FrameB.refl | apply frame_blockError | apply frame_storeFields | apply FrameB.ite) | decide | split | dsimp only

theorem frame_startQuiet s (h : FrameB m o s) (e : sub 0x5800000100 m) : FrameB m o (startQuiet s) := by
  refine .step ?_ e h
  unfold startQuiet
  repeat' first | (with_reducible first | apply FrameB.refl | apply frame_State_modVlk | apply frame_ev | apply FrameB.ite) | decide | split | dsimp only

theorem frame_startOrphan s (h : FrameB m o s) (e : sub 0x4000000080 m) : FrameB m o (startOrphan s) := by
  refine .step ?_ e h
  unfold startOrphan
  repeat' first | (with_reducible first | apply FrameB.refl | apply frame_State_drawn | apply frame_State_modVlk | apply FrameB.ite) | decide | split | dsimp only

theorem frame_writeVlkCfg x0 s (h : FrameB m o s) (e : sub 0x5800000190 m) : FrameB m o (writeVlkCfg x0 s) := by
  refine .step ?_ e h
  unfold writeVlkCfg
  repeat' first | (with_reducible first | apply FrameB.refl | apply frame_State_modVlk | apply frame_startOrphan | apply frame_startQuiet | apply frame_storeFields | apply FrameB.ite) | decide | split | dsimp only

theorem frame_writeVlkNode x0 s (h : FrameB m o s) (e : sub 0x5800000100 m) : FrameB m o (writeVlkNode x0 s) := by
  refine .step ?_ e h
  unfold writeVlkNode
  repeat' first | (with_reducible first | apply FrameB.refl | assumption | intro _ | apply frame_State_modVlk | apply frame_guarded | apply FrameB.ite) | decide | split | dsimp only

theorem frame_writeVlkLreq x0 s (h : FrameB m o s) (e : sub 0x1800000110 m) : FrameB m o (writeVlkLreq x0 s) := by
  refine .step ?_ e h
  unfold writeVlkLreq
  repeat' first | (with_reducible first | apply FrameB.refl | apply frame_storeFields | apply FrameB.ite) | decide | split | dsimp only

theorem frame_writeOrphan x0 s (h : FrameB m o s) (e : sub 0x5800000190 m) : FrameB m o (writeOrphan x0 s) := by
  refine .step ?_ e h
  unfold writeOrphan
  repeat' first | (with_reducible first | apply FrameB.refl | apply frame_startOrphan | apply frame_storeFields | apply FrameB.ite) | decide | split | dsimp only

theorem frame_cmdWake x0 s (h : FrameB m o s) (e : sub 0x4000000000 m) : FrameB m o (cmdWake x0 s) := by
  refine .step ?_ e h
  unfold cmdWake
  repeat' first | (with_reducible first | apply FrameB.refl | apply frame_State_modVlk | apply FrameB.ite) | decide | split | dsimp only

theorem frame_cmdAttreq x0 s (h : FrameB m o s) (e : sub 0x4000000000 m) : FrameB m o (cmdAttreq x0 s) := by
  refine .step ?_ e h
  unfold cmdAttreq
  repeat' first | (with_reducible first | apply FrameB.refl | apply frame_State_modVlk | apply FrameB.ite) | decide | split | dsimp only

theorem frame_freeSlot x0 s (h : FrameB m o s) (e : sub 0x4000002000 m) : FrameB m o (freeSlot x0 s) := by
  refine .step ?_ e h
  unfold freeSlot
  repeat' first | (with_reducible first | apply FrameB.refl | apply frame_State_modVlk | apply frame_raiseLine | apply FrameB.ite) | decide | split | dsimp only

theorem frame_removeSlot x0 s (h : FrameB m o s) (e : sub 0x5800002100 m) : FrameB m o (removeSlot x0 s) := by
  refine .step ?_ e h
  unfold removeSlot
  repeat' first | (with_reducible first | apply FrameB.refl | apply frame_ev | apply frame_freeSlot | apply FrameB.ite) | decide | split | dsimp only

theorem frame_modSlot x0 x1 s (h : FrameB m o s) (e : sub 0x4000000000 m) : FrameB m o (modSlot x0 x1 s) := by
  refine .step ?_ e h
  unfold modSlot
  repeat' first | (with_reducible first | apply FrameB.refl | apply frame_State_modVlk | apply FrameB.ite) | decide | split | dsimp only

theorem frame_cmdRemove x0 s (h : FrameB m o s) (e : sub 0x5800002100 m) : FrameB m o (cmdRemove x0 s) := by
  refine .step ?_ e h
  unfold cmdRemove
  repeat' first | (with_reducible first | apply FrameB.refl | apply frame_modSlot | apply frame_removeSlot | apply FrameB.ite) | decide | split | dsimp only

theorem frame_writeVlkCmd x0 s (h : FrameB m o s) (e : sub 0x5800002100 m) : FrameB m o (writeVlkCmd x0 s) := by
  refine .step ?_ e h
  unfold writeVlkCmd
  repeat' first | (with_reducible first | apply FrameB.refl | apply frame_cmdAttreq | apply frame_cmdRemove | apply frame_cmdWake | apply FrameB.ite) | decide | split | dsimp only

theorem frame_writeSegbudget x0 s (h : FrameB m o s) (e : sub 0x1800000110 m) : FrameB m o (writeSegbudget x0 s) := by
  refine .step ?_ e h
  unfold writeSegbudget
  repeat' first | (with_reducible first | apply FrameB.refl | apply frame_storeFields | apply FrameB.ite) | decide | split | dsimp only

theorem frame_startFanout x0 x1 s (h : FrameB m o s) (e : sub 0x4000000000 m) : FrameB m o (startFanout x0 x1 s) := by
  refine .step ?_ e h
  unfold startFanout
  repeat' first | (with_reducible first | apply FrameB.refl | apply frame_State_modVlk | apply FrameB.ite) | decide | split | dsimp only

theorem frame_writeImgcmd x0 s (h : FrameB m o s) (e : sub 0x5800000190 m) : FrameB m o (writeImgcmd x0 s) := by
  refine .step ?_ e h
  unfold writeImgcmd
  repeat' first | (with_reducible first | apply FrameB.refl | apply frame_State_drawn | apply frame_startFanout | apply frame_storeFields | apply FrameB.ite) | decide | split | dsimp only

theorem frame_pmonSnap x0 s (h : FrameB m o s) (e : sub 0x4011600000 m) : FrameB m o (pmonSnap x0 s) := by
  refine .step ?_ e h
  unfold pmonSnap
  repeat' first | (with_reducible first | apply FrameB.refl | apply frame_State_modLdp | apply frame_State_modRwc | apply frame_State_modSve | apply frame_State_modVlk | apply FrameB.ite) | fail_if_no_progress ((with_reducible apply FrameB.set_opt); rfl) | decide | split | dsimp only

theorem frame_pmonClr x0 s (h : FrameB m o s) (e : sub 0x4011600000 m) : FrameB m o (pmonClr x0 s) := by
  refine .step ?_ e h
  unfold pmonClr
  repeat' first | (with_reducible first | apply FrameB.refl | apply frame_State_modLdp | apply frame_State_modRwc | apply frame_State_modSve | apply frame_State_modVlk | apply FrameB.ite) | fail_if_no_progress ((with_reducible apply FrameB.set_opt); rfl) | decide | split | dsimp only

theorem frame_modTrim x0 x1 s (h : FrameB m o s) (e : sub 0x200000000 m) : FrameB m o (modTrim x0 x1 s) := by
  refine .step ?_ e h
  unfold modTrim
  repeat' first | (with_reducible first | apply FrameB.refl | apply FrameB.ite) | fail_if_no_progress ((with_reducible apply FrameB.set_trm); rfl) | decide | split | dsimp only

theorem frame_retarget x0 s (h : FrameB m o s) (e : sub 0x1A00000100 m) : FrameB m o (retarget x0 s) := by
  refine .step ?_ e h
  unfold retarget
  repeat' first | (with_reducible first | apply FrameB.refl | apply frame_ev | apply frame_modTrim | apply frame_setIrqStat | apply FrameB.ite) | decide | split | dsimp only

theorem frame_stopTasks x0 s (h : FrameB m o s) (e : sub 0x1AEDB0F1A0 m) : FrameB m o (stopTasks x0 s) := by
  refine .step ?_ e h
  unfold stopTasks
  repeat' first | (with_reducible first | apply FrameB.refl | apply frame_abortTag | apply FrameB.foldl (fun _ _ => ?_) | apply FrameB.ite) | decide | split | dsimp only

theorem frame_reselect x0 x1 x2 x3 s (h : FrameB m o s) (e : sub 0x10000 m) : FrameB m o (reselect x0 x1 x2 x3 s).1 := by
  refine .step ?_ e h
  clear h e
  induction x3 generalizing s with
  | nil => unfold reselect; exact .refl
  | cons _ _ ih =>
    unfold reselect
    repeat' first | (with_reducible first | apply FrameB.refl | apply frame_selectSector | apply FrameB.ite) | ((with_reducible apply FrameB.step (ih ..)); rfl) | decide | split | dsimp only

theorem frame_dropEntry x0 s (h : FrameB m o s) (e : sub 0x10000 m) : FrameB m o (dropEntry x0 s) := by
  refine .step ?_ e h
  unfold dropEntry
  repeat' first | (with_reducible first | apply FrameB.refl | apply frame_State_modLgr | apply frame_modEntry | apply frame_reselect | apply FrameB.foldl (fun _ _ => ?_) | apply FrameB.ite) | decide | split | dsimp only

theorem frame_zoneDrop x0 s (h : FrameB m o s) (e : sub 0x38080 m) : FrameB m o (zoneDrop x0 s) := by
  refine .step ?_ e h
  unfold zoneDrop
  repeat' first | (with_reducible first | apply FrameB.refl | apply frame_dropEntry | apply frame_finish | apply frame_modZone | apply FrameB.foldl (fun _ _ => ?_) | apply FrameB.ite) | decide | split | dsimp only

theorem frame_dropWrite x0 s (h : FrameB m o s) (e : sub 0x38080 m) : FrameB m o (dropWrite x0 s) := by
  refine .step ?_ e h
  unfold dropWrite
  repeat' first | (with_reducible first | apply FrameB.refl | apply frame_dropEntry | apply frame_zoneDrop | apply FrameB.ite) | decide | split | dsimp only

theorem frame_stopCmd x0 s (h : FrameB m o s) (e : sub 0x1AEDB3F1A0 m) : FrameB m o (stopCmd x0 s) := by
  refine .step ?_ e h
  unfold stopCmd
  repeat' first | (with_reducible first | apply FrameB.refl | apply frame_dropWrite | apply frame_finish | apply frame_modCmd | apply frame_stopTasks | apply FrameB.ite) | decide | split | dsimp only

theorem frame_matchCmd x0 x1 x2 s (h : FrameB m o s) (e : sub 0x1AEDB3F1A0 m) : FrameB m o (matchCmd x0 x1 x2 s) := by
  refine .step ?_ e h
  unfold matchCmd
  repeat' first | (with_reducible first | apply FrameB.refl | apply frame_State_modHce | apply frame_ev | apply frame_stopCmd | apply FrameB.ite) | decide | split | dsimp only

theorem frame_writeAbortReq x0 s (h : FrameB m o s) (e : sub 0x1AEDB3F1B0 m) : FrameB m o (writeAbortReq x0 s) := by
  refine .step ?_ e h
  unfold writeAbortReq
  repeat' first | (with_reducible first | apply FrameB.refl | apply frame_matchCmd | apply frame_storeFields | apply FrameB.ite) | decide | split | dsimp only

theorem frame_writeLgrWin x0 s (h : FrameB m o s) (e : sub 0x1800010190 m) : FrameB m o (writeLgrWin x0 s) := by
  refine .step ?_ e h
  unfold writeLgrWin
  repeat' first | (with_reducible first | apply FrameB.refl | apply frame_State_drawn | apply frame_State_modLgr | apply frame_storeFields | apply FrameB.ite) | decide | split | dsimp only

theorem frame_writeNsdom x0 x1 s (h : FrameB m o s) (e : sub 0x1800000110 m) : FrameB m o (writeNsdom x0 x1 s) := by
  refine .step ?_ e h
  unfold writeNsdom
  repeat' first | (with_reducible first | apply FrameB.refl | apply frame_blockErrorP | apply frame_storeFields | apply FrameB.ite) | decide | split | dsimp only

theorem frame_freezeImage s (h : FrameB m o s) (e : sub 0x1800050100 m) : FrameB m o (freezeImage s) := by
  refine .step ?_ e h
  unfold freezeImage
  repeat' first | (with_reducible first | apply FrameB.refl | apply frame_State_modLgr | apply frame_State_modRvr | apply frame_ev | apply FrameB.foldl (fun _ _ => ?_) | apply FrameB.ite) | decide | split | dsimp only

theorem frame_dropPending s (h : FrameB m o s) (e : sub 0x10000 m) : FrameB m o (dropPending s) := by
  refine .step ?_ e h
  unfold dropPending
  repeat' first | (with_reducible first | apply FrameB.refl | apply frame_dropEntry | apply FrameB.foldl (fun _ _ => ?_) | apply FrameB.ite) | decide | split | dsimp only

theorem frame_freezeAtLoss s (h : FrameB m o s) (e : sub 0x1800058100 m) : FrameB m o (freezeAtLoss s) := by
  refine .step ?_ e h
  unfold freezeAtLoss
  repeat' first | (with_reducible first | apply FrameB.refl | apply frame_State_modHce | apply frame_dropPending | apply frame_freezeImage | apply FrameB.ite) | decide | split | dsimp only

theorem frame_commitGrant s (h : FrameB m o s) (e : sub 0x1800004100 m) : FrameB m o (commitGrant s) := by
  refine .step ?_ e h
  unfold commitGrant
  repeat' first | (with_reducible first | apply FrameB.refl | apply frame_State_modLlt | apply frame_countClass | apply frame_guarantee | apply FrameB.ite) | decide | split | dsimp only

theorem frame_startCommit x0 s (h : FrameB m o s) (e : sub 0x180005C100 m) : FrameB m o (startCommit x0 s) := by
  refine .step ?_ e h
  unfold startCommit
  repeat' first | (with_reducible first | apply FrameB.refl | apply frame_State_modHce | apply frame_State_modRvr | apply frame_commitGrant | apply frame_ev | apply frame_freezeAtLoss | apply FrameB.ite) | decide | split | dsimp only

theorem frame_writeRvrCmd x0 s (h : FrameB m o s) (e : sub 0x180005C100 m) : FrameB m o (writeRvrCmd x0 s) := by
  refine .step ?_ e h
  unfold writeRvrCmd
  repeat' first | (with_reducible first | apply FrameB.refl | apply frame_State_modRvr | apply frame_startCommit | apply FrameB.ite) | decide | split | dsimp only

theorem frame_dmcInitGo s (h : FrameB m o s) (e : sub 0x1820000100 m) : FrameB m o (dmcInitGo s) := by
  refine .step ?_ e h
  unfold dmcInitGo
  repeat' first | (with_reducible first | apply FrameB.refl | apply frame_blockErrorP | apply FrameB.ite) | fail_if_no_progress ((with_reducible apply FrameB.set_dmc); rfl) | decide | split | dsimp only

theorem frame_writeDmcCfg x0 s (h : FrameB m o s) (e : sub 0x1800000110 m) : FrameB m o (writeDmcCfg x0 s) := by
  refine .step ?_ e h
  unfold writeDmcCfg
  repeat' first | (with_reducible first | apply FrameB.refl | apply frame_blockErrorP | apply frame_storeFields | apply FrameB.ite) | decide | split | dsimp only

theorem frame_pprResult x0 x1 s (h : FrameB m o s) (e : sub 0x1820002100 m) : FrameB m o (pprResult x0 x1 s) := by
  refine .step ?_ e h
  unfold pprResult
  repeat' first | (with_reducible first | apply FrameB.refl | apply frame_ev | apply frame_raiseLine | apply FrameB.ite) | fail_if_no_progress ((with_reducible apply FrameB.set_dmc); rfl) | decide | split | dsimp only

theorem frame_pprGo x0 s (h : FrameB m o s) (e : sub 0x1820002110 m) : FrameB m o (pprGo x0 s) := by
  refine .step ?_ e h
  unfold pprGo
  repeat' first | (with_reducible first | apply FrameB.refl | apply frame_pprResult | apply frame_storeFields | apply FrameB.ite) | fail_if_no_progress ((with_reducible apply FrameB.set_dmc); rfl) | decide | split | dsimp only

theorem frame_flushRegion x0 s (h : FrameB m o s) (e : sub 0x1860000120 m) : FrameB m o (flushRegion x0 s) := by
  refine .step ?_ e h
  unfold flushRegion
  repeat' first | (with_reducible first | apply FrameB.refl | apply frame_bccDrop | apply frame_ev | apply frame_writeBack | apply FrameB.foldl (fun _ _ => ?_) | apply FrameB.ite) | decide | split | dsimp only

theorem frame_writeRegattr x0 x1 x2 s (h : FrameB m o s) (e : sub 0x1860000130 m) : FrameB m o (writeRegattr x0 x1 x2 s) := by
  refine .step ?_ e h
  unfold writeRegattr
  repeat' first | (with_reducible first | apply FrameB.refl | apply frame_blockErrorP | apply frame_flushRegion | apply frame_storeFields | apply FrameB.ite) | decide | split | dsimp only

theorem frame_invalLine x0 x1 s (h : FrameB m o s) (e : sub 0x60000020 m) : FrameB m o (invalLine x0 x1 s) := by
  refine .step ?_ e h
  unfold invalLine
  repeat' first | (with_reducible first | apply FrameB.refl | apply frame_State_modBcc | apply frame_bccDrop | apply frame_bccPut | apply frame_writeBack | apply FrameB.ite) | decide | split | dsimp only

theorem frame_setRegWords x0 x1 x2 s (h : FrameB m o s) (e : sub 0x10 m) : FrameB m o (setRegWords x0 x1 x2 s) := by
  refine .step ?_ e h
  unfold setRegWords
  repeat' first | (with_reducible first | apply FrameB.refl | apply frame_setReg | apply FrameB.foldl (fun _ _ => ?_) | apply FrameB.ite) | decide | split | dsimp only

theorem frame_splitGo x0 s (h : FrameB m o s) (e : sub 0x1860002130 m) : FrameB m o (splitGo x0 s) := by
  refine .step ?_ e h
  unfold splitGo
  repeat' first | (with_reducible first | apply FrameB.refl | apply frame_invalLine | apply frame_memWrite | apply frame_raiseLine | apply frame_setRegWords | apply frame_storeFields | apply FrameB.ite) | fail_if_no_progress ((with_reducible apply FrameB.set_dmc); rfl) | decide | split | dsimp only

theorem frame_rowClear x0 s (h : FrameB m o s) (e : sub 0x20000000 m) : FrameB m o (rowClear x0 s) := by
  refine .step ?_ e h
  unfold rowClear
  repeat' first | (with_reducible first | apply FrameB.refl | apply FrameB.ite) | fail_if_no_progress ((with_reducible apply FrameB.set_dmc); rfl) | decide | split | dsimp only

theorem frame_rangeResult x0 x1 s (h : FrameB m o s) (e : sub 0x40002000 m) : FrameB m o (rangeResult x0 x1 s) := by
  refine .step ?_ e h
  unfold rangeResult
  repeat' first | (with_reducible first | apply FrameB.refl | apply frame_State_modBcc | apply frame_raiseLine | apply FrameB.ite) | decide | split | dsimp only

theorem frame_rangeGo x0 s (h : FrameB m o s) (e : sub 0x1840002100 m) : FrameB m o (rangeGo x0 s) := by
  refine .step ?_ e h
  unfold rangeGo
  repeat' first | (with_reducible first | apply FrameB.refl | apply frame_State_modBcc | apply frame_blockErrorP | apply frame_rangeResult | apply FrameB.ite) | decide | split | dsimp only

theorem frame_writeOpcmd x0 s (h : FrameB m o s) (e : sub 0x1840002110 m) : FrameB m o (writeOpcmd x0 s) := by
  refine .step ?_ e h
  unfold writeOpcmd
  repeat' first | (with_reducible first | apply FrameB.refl | apply frame_rangeGo | apply frame_storeFields | apply FrameB.ite) | decide | split | dsimp only

theorem frame_secOnly x0 x1 x2 s (h : FrameB m o s) (e : sub 0x1800000100 m) (k0 : ∀ t, FrameB m o t → FrameB m o (x2 t)) : FrameB m o (secOnly x0 x1 x2 s) := by
  unfold secOnly
  repeat' first | assumption | (with_reducible first | apply frame_blockErrorP | apply FrameB.ite | apply k0) | (with_reducible apply sub_trans (h := e); decide) | (with_reducible apply frame_State_modVlk) | split | dsimp only [id]

theorem frame_writeOpenctl x0 x1 s (h : FrameB m o s) (e : sub 0x1800080100 m) : FrameB m o (writeOpenctl x0 x1 s) := by
  refine .step ?_ e h
  unfold writeOpenctl
  repeat' first | (with_reducible first | apply FrameB.refl | assumption | intro _ | apply frame_secOnly | apply FrameB.ite) | fail_if_no_progress ((with_reducible apply FrameB.set_cst); rfl) | decide | split | dsimp only

theorem frame_writeCstAct x0 x1 s (h : FrameB m o s) (e : sub 0x1800182100 m) : FrameB m o (writeCstAct x0 x1 s) := by
  refine .step ?_ e h
  unfold writeCstAct
  repeat' first | (with_reducible first | apply FrameB.refl | assumption | intro _ | apply frame_armCst | apply frame_secOnly | apply FrameB.ite) | decide | split | dsimp only

theorem frame_writeAbort x0 x1 s (h : FrameB m o s) (e : sub 0x1AEDB0F1A0 m) : FrameB m o (writeAbort x0 x1 s) := by
  refine .step ?_ e h
  unfold writeAbort
  repeat' first | (with_reducible first | apply FrameB.refl | apply frame_abortTag | apply FrameB.ite) | decide | split | dsimp only

theorem frame_writeRespop x0 x1 s (h : FrameB m o s) (e : sub 0x100000 m) : FrameB m o (writeRespop x0 x1 s) := by
  refine .step ?_ e h
  unfold writeRespop
  repeat' first | (with_reducible first | apply FrameB.refl | apply frame_State_modAsq | apply FrameB.ite) | decide | split | dsimp only

theorem frame_writePtask x0 x1 x2 s (h : FrameB m o s) (e : sub 0x100000 m) : FrameB m o (writePtask x0 x1 x2 s) := by
  refine .step ?_ e h
  unfold writePtask
  repeat' first | (with_reducible first | apply FrameB.refl | apply frame_State_modAsq | apply FrameB.ite) | decide | split | dsimp only

theorem frame_writePcmd x0 x1 s (h : FrameB m o s) (e : sub 0x1AEDB0F1A0 m) : FrameB m o (writePcmd x0 x1 s) := by
  refine .step ?_ e h
  unfold writePcmd
  repeat' first | (with_reducible first | apply FrameB.refl | apply frame_asqCancel | apply frame_asqCommit | apply FrameB.ite) | decide | split | dsimp only

theorem frame_headretSet x0 x1 s (h : FrameB m o s) (e : sub 0x100000 m) : FrameB m o (headretSet x0 x1 s) := by
  refine .step ?_ e h
  unfold headretSet
  repeat' first | (with_reducible first | apply FrameB.refl | apply frame_State_modAsq | apply FrameB.ite) | decide | split | dsimp only

theorem frame_slotsFreed s (h : FrameB m o s) (e : sub 0x100000 m) : FrameB m o (slotsFreed s) := by
  refine .step ?_ e h
  unfold slotsFreed
  repeat' first | (with_reducible first | apply FrameB.refl | apply frame_waitComes | apply FrameB.foldl (fun _ _ => ?_) | apply FrameB.ite) | decide | split | dsimp only

theorem frame_ldpBump x0 x1 s (h : FrameB m o s) (e : sub 0x402000 m) : FrameB m o (ldpBump x0 x1 s) := by
  refine .step ?_ e h
  unfold ldpBump
  repeat' first | (with_reducible first | apply FrameB.refl | apply frame_State_modLdp | apply frame_raiseLine | apply FrameB.ite) | decide | split | dsimp only

theorem frame_ldpTake x0 s (h : FrameB m o s) (e : sub 0x402000 m) : FrameB m o (ldpTake x0 s) := by
  refine .step ?_ e h
  clear h e
  induction x0 generalizing s with
  | zero => unfold ldpTake; exact .refl
  | succ _ ih =>
    unfold ldpTake
    repeat' first | (with_reducible first | apply FrameB.refl | apply frame_State_modLdp | apply frame_ldpBump | apply FrameB.ite) | ((with_reducible apply FrameB.step (ih ..)); rfl) | decide | split | dsimp only

theorem frame_ldpRun s (h : FrameB m o s) (e : sub 0x502000 m) : FrameB m o (ldpRun s) := by
  refine .step ?_ e h
  unfold ldpRun
  repeat' first | (with_reducible first | apply FrameB.refl | apply frame_ldpTake | apply frame_slotsFreed | apply FrameB.ite) | decide | split | dsimp only

theorem frame_freeRetained x0 s (h : FrameB m o s) (e : sub 0x400000 m) : FrameB m o (freeRetained x0 s) := by
  refine .step ?_ e h
  unfold freeRetained
  repeat' first | (with_reducible first | apply FrameB.refl | apply frame_State_modLdp | apply FrameB.ite) | decide | split | dsimp only

theorem frame_writeRsfree x0 s (h : FrameB m o s) (e : sub 0x400000 m) : FrameB m o (writeRsfree x0 s) := by
  refine .step ?_ e h
  unfold writeRsfree
  repeat' first | (with_reducible first | apply FrameB.refl | apply frame_freeRetained | apply FrameB.ite) | decide | split | dsimp only

theorem frame_writeFfpop x0 x1 s (h : FrameB m o s) (e : sub 0x400000 m) : FrameB m o (writeFfpop x0 x1 s) := by
  refine .step ?_ e h
  unfold writeFfpop
  repeat' first | (with_reducible first | apply FrameB.refl | apply frame_State_modLdp | apply FrameB.ite) | decide | split | dsimp only

theorem frame_dlResult x0 x1 s (h : FrameB m o s) (e : sub 0x802000 m) : FrameB m o (dlResult x0 x1 s) := by
  refine .step ?_ e h
  unfold dlResult
  repeat' first | (with_reducible first | apply FrameB.refl | apply frame_raiseLine | apply FrameB.ite) | fail_if_no_progress ((with_reducible apply FrameB.set_tpe); rfl) | decide | split | dsimp only

theorem frame_dlRetire x0 s (h : FrameB m o s) (e : sub 0x18600031A0 m) : FrameB m o (dlRetire x0 s) := by
  refine .step ?_ e h
  unfold dlRetire
  repeat' first | (with_reducible first | apply FrameB.refl | apply frame_engWrite | apply frame_ev | apply frame_raiseLine | apply FrameB.ite) | decide | split | dsimp only

theorem frame_dlWarn x0 x1 s (h : FrameB m o s) (e : sub 0x1800802100 m) : FrameB m o (dlWarn x0 x1 s) := by
  refine .step ?_ e h
  unfold dlWarn
  repeat' first | (with_reducible first | apply FrameB.refl | apply frame_ev | apply frame_raiseLine | apply FrameB.ite) | fail_if_no_progress ((with_reducible apply FrameB.set_tpe); rfl) | decide | split | dsimp only

theorem frame_dlStore x0 x1 x2 s (h : FrameB m o s) (e : sub 0x18600031A0 m) : FrameB m o (dlStore x0 x1 x2 s) := by
  refine .step ?_ e h
  unfold dlStore
  repeat' first | (with_reducible first | apply FrameB.refl | apply frame_engWrite | apply FrameB.foldl (fun _ _ => ?_) | apply FrameB.ite) | decide | split | dsimp only

theorem frame_dlInsert x0 x1 s (h : FrameB m o s) (e : sub 0x186080B1A0 m) : FrameB m o (dlInsert x0 x1 s) := by
  refine .step ?_ e h
  unfold dlInsert
  repeat' first | (with_reducible first | apply FrameB.refl | apply frame_dlFetch | apply frame_dlResult | apply frame_dlRetire | apply frame_dlStore | apply frame_dlWarn | apply frame_healthAdd | apply FrameB.foldl (fun _ _ => ?_) | apply FrameB.ite) | decide | split | dsimp only

theorem frame_dlOpInsert x0 s (h : FrameB m o s) (e : sub 0x186080B1A0 m) : FrameB m o (dlOpInsert x0 s) := by
  refine .step ?_ e h
  unfold dlOpInsert
  repeat' first | (with_reducible first | apply FrameB.refl | apply frame_dlInsert | apply FrameB.ite) | fail_if_no_progress ((with_reducible apply FrameB.set_tpe); rfl) | decide | split | dsimp only

theorem frame_dlOpDelete x0 s (h : FrameB m o s) (e : sub 0x18608031A0 m) : FrameB m o (dlOpDelete x0 s) := by
  refine .step ?_ e h
  unfold dlOpDelete
  repeat' first | (with_reducible first | apply FrameB.refl | apply frame_dlFetch | apply frame_dlResult | apply frame_dlStore | apply FrameB.ite) | decide | split | dsimp only

theorem frame_dlOpClear x0 s (h : FrameB m o s) (e : sub 0x18608031A0 m) : FrameB m o (dlOpClear x0 s) := by
  refine .step ?_ e h
  unfold dlOpClear
  repeat' first | (with_reducible first | apply FrameB.refl | apply frame_dlFetch | apply frame_dlResult | apply frame_dlStore | apply FrameB.ite) | decide | split | dsimp only

theorem frame_writeDlop x0 s (h : FrameB m o s) (e : sub 0x186080B1A0 m) : FrameB m o (writeDlop x0 s) := by
  refine .step ?_ e h
  unfold writeDlop
  repeat' first | (with_reducible first | apply FrameB.refl | apply frame_dlOpClear | apply frame_dlOpDelete | apply frame_dlOpInsert | apply FrameB.ite) | fail_if_no_progress ((with_reducible apply FrameB.set_tpe); rfl) | decide | split | dsimp only

theorem frame_commitMail x0 s (h : FrameB m o s) (e : sub 0x1000000 m) : FrameB m o (commitMail x0 s) := by
  refine .step ?_ e h
  unfold commitMail
  repeat' first | (with_reducible first | apply FrameB.refl | apply frame_State_modSve | apply FrameB.foldl (fun _ _ => ?_) | apply FrameB.ite) | decide | split | dsimp only

theorem frame_swapTables x0 s (h : FrameB m o s) (e : sub 0x1002000 m) : FrameB m o (swapTables x0 s) := by
  refine .step ?_ e h
  unfold swapTables
  repeat' first | (with_reducible first | apply FrameB.refl | apply frame_State_modSve | apply frame_sveLine | apply FrameB.ite) | decide | split | dsimp only

theorem frame_sampleBound x0 s (h : FrameB m o s) (e : sub 0x1102000 m) : FrameB m o (sampleBound x0 s) := by
  refine .step ?_ e h
  unfold sampleBound
  repeat' first | (with_reducible first | apply FrameB.refl | apply frame_applyUnit | apply frame_commitMail | apply frame_swapTables | apply FrameB.ite) | decide | split | dsimp only

theorem frame_runRows x0 x1 x2 x3 x4 x5 s (h : FrameB m o s) (e : sub 0x1002000 m) : FrameB m o (runRows x0 x1 x2 x3 x4 x5 s).1 := by
  refine .step ?_ e h
  unfold runRows
  repeat' first | (with_reducible first | apply FrameB.refl | apply frame_State_modSve | apply frame_sveBump | apply FrameB.ite) | decide | split | dsimp only

theorem frame_sveOuts x0 x1 s (h : FrameB m o s) (e : sub 0x1000000 m) : FrameB m o (sveOuts x0 x1 s) := by
  refine .step ?_ e h
  unfold sveOuts
  repeat' first | (with_reducible first | apply FrameB.refl | apply frame_State_modSve | apply frame_applyOuts | apply FrameB.foldl (fun _ _ => ?_) | apply FrameB.ite) | decide | split | dsimp only

theorem frame_prePhase x0 s (h : FrameB m o s) (e : sub 0x1002000 m) : FrameB m o (prePhase x0 s) := by
  refine .step ?_ e h
  unfold prePhase
  repeat' first | (with_reducible first | apply FrameB.refl | apply frame_State_modSve | apply frame_runRows | apply frame_sveOuts | apply FrameB.ite) | decide | split | dsimp only

theorem frame_engineStart x0 s (h : FrameB m o s) (e : sub 0x1102000 m) : FrameB m o (engineStart x0 s) := by
  refine .step ?_ e h
  unfold engineStart
  repeat' first | (with_reducible first | apply FrameB.refl | apply frame_State_modSve | apply frame_prePhase | apply frame_sampleBound | apply FrameB.ite) | decide | split | dsimp only

theorem frame_writeSveCfg x0 x1 s (h : FrameB m o s) (e : sub 0x1A1DB2A190 m) : FrameB m o (writeSveCfg x0 x1 s) := by
  refine .step ?_ e h
  unfold writeSveCfg
  repeat' first | (with_reducible first | apply FrameB.refl | apply frame_State_modSve | apply frame_engineStart | apply frame_retractStart | apply frame_setReg | apply FrameB.ite) | decide | split | dsimp only

theorem frame_swapGo x0 s (h : FrameB m o s) (e : sub 0x1801002180 m) : FrameB m o (swapGo x0 s) := by
  refine .step ?_ e h
  unfold swapGo
  repeat' first | (with_reducible first | apply FrameB.refl | apply frame_State_drawn | apply frame_State_modSve | apply frame_ev | apply frame_sveLine | apply FrameB.ite) | decide | split | dsimp only

theorem frame_writeRetract x0 x1 s (h : FrameB m o s) (e : sub 0x1A1DB2A190 m) : FrameB m o (writeRetract x0 x1 s) := by
  refine .step ?_ e h
  unfold writeRetract
  repeat' first | (with_reducible first | apply FrameB.refl | apply frame_retractStart | apply frame_storeFields | apply FrameB.ite) | decide | split | dsimp only

theorem frame_mailCommit x0 s (h : FrameB m o s) (e : sub 0x1000000 m) : FrameB m o (mailCommit x0 s) := by
  refine .step ?_ e h
  unfold mailCommit
  repeat' first | (with_reducible first | apply FrameB.refl | apply frame_State_modSve | apply FrameB.ite) | decide | split | dsimp only

theorem frame_cdataStep x0 s (h : FrameB m o s) (e : sub 0x1000000 m) : FrameB m o (cdataStep x0 s) := by
  refine .step ?_ e h
  unfold cdataStep
  repeat' first | (with_reducible first | apply FrameB.refl | apply frame_State_modSve | apply FrameB.ite) | decide | split | dsimp only

theorem frame_sveErrorFree x0 x1 s (h : FrameB m o s) (e : sub 0x1800000180 m) : FrameB m o (sveErrorFree x0 x1 s) := by
  refine .step ?_ e h
  unfold sveErrorFree
  repeat' first | (with_reducible first | apply FrameB.refl | apply frame_State_drawn | apply frame_blockError | apply FrameB.ite) | decide | split | dsimp only

theorem frame_writeCdata x0 x1 s (h : FrameB m o s) (e : sub 0x1801000180 m) : FrameB m o (writeCdata x0 x1 s) := by
  refine .step ?_ e h
  unfold writeCdata
  repeat' first | (with_reducible first | apply FrameB.refl | apply frame_State_modSve | apply frame_cdataStep | apply frame_sveErrorFree | apply FrameB.ite) | decide | split | dsimp only

theorem frame_writeSdata x0 x1 s (h : FrameB m o s) (e : sub 0x1801000180 m) : FrameB m o (writeSdata x0 x1 s) := by
  refine .step ?_ e h
  unfold writeSdata
  repeat' first | (with_reducible first | apply FrameB.refl | apply frame_State_modSve | apply frame_sveErrorFree | apply FrameB.ite) | decide | split | dsimp only

theorem frame_writeRow x0 x1 x2 s (h : FrameB m o s) (e : sub 0x1801000180 m) : FrameB m o (writeRow x0 x1 x2 s) := by
  refine .step ?_ e h
  unfold writeRow
  repeat' first | (with_reducible first | apply FrameB.refl | apply frame_State_modSve | apply frame_sveErrorFree | apply FrameB.ite) | decide | split | dsimp only

theorem frame_writeTrctl x0 x1 s (h : FrameB m o s) (e : sub 0x1801002110 m) : FrameB m o (writeTrctl x0 x1 s) := by
  refine .step ?_ e h
  unfold writeTrctl
  repeat' first | (with_reducible first | apply FrameB.refl | apply frame_State_modSve | apply frame_storeFields | apply frame_traceTake | apply FrameB.ite) | decide | split | dsimp only

theorem frame_writeJump x0 x1 s (h : FrameB m o s) (e : sub 0x1811000110 m) : FrameB m o (writeJump x0 x1 s) := by
  refine .step ?_ e h
  unfold writeJump
  repeat' first | (with_reducible first | apply FrameB.refl | apply frame_jumpStart | apply frame_storeFields | apply FrameB.ite) | decide | split | dsimp only

theorem frame_sweepStart x0 s (h : FrameB m o s) (e : sub 0x11000000 m) : FrameB m o (sweepStart x0 s) := by
  refine .step ?_ e h
  unfold sweepStart
  repeat' first | (with_reducible first | apply FrameB.refl | apply frame_State_modPu | apply frame_State_modSve | apply FrameB.ite) | decide | split | dsimp only

theorem frame_writeSweep x0 x1 s (h : FrameB m o s) (e : sub 0x1811000110 m) : FrameB m o (writeSweep x0 x1 s) := by
  refine .step ?_ e h
  unfold writeSweep
  repeat' first | (with_reducible first | apply FrameB.refl | apply frame_storeFields | apply frame_sweepStart | apply FrameB.ite) | decide | split | dsimp only

theorem frame_spnRefuse x0 s (h : FrameB m o s) (e : sub 0x1800000100 m) : FrameB m o (spnRefuse x0 s) := by
  refine .step ?_ e h
  unfold spnRefuse
  repeat' first | (with_reducible first | apply FrameB.refl | apply frame_blockErrorP | apply FrameB.ite) | decide | split | dsimp only

theorem frame_spnRefuseFree s (h : FrameB m o s) (e : sub 0x1800000180 m) : FrameB m o (spnRefuseFree s) := by
  refine .step ?_ e h
  unfold spnRefuseFree
  repeat' first | (with_reducible first | apply FrameB.refl | apply frame_State_drawn | apply frame_spnRefuse | apply FrameB.ite) | decide | split | dsimp only

theorem frame_writeSpnCfg x0 s (h : FrameB m o s) (e : sub 0x1800000190 m) : FrameB m o (writeSpnCfg x0 s) := by
  refine .step ?_ e h
  unfold writeSpnCfg
  repeat' first | (with_reducible first | apply FrameB.refl | apply frame_spnRefuseFree | apply frame_storeFields | apply FrameB.ite) | decide | split | dsimp only

theorem frame_spnStart s (h : FrameB m o s) (e : sub 0x1802000180 m) : FrameB m o (spnStart s) := by
  refine .step ?_ e h
  unfold spnStart
  repeat' first | (with_reducible first | apply FrameB.refl | apply frame_State_modSpn | apply frame_alignStart | apply frame_spnRefuse | apply frame_spnRefuseFree | apply FrameB.ite) | decide | split | dsimp only

theorem frame_spnBrake s (h : FrameB m o s) (e : sub 0x1A1FB2A180 m) : FrameB m o (spnBrake s) := by
  refine .step ?_ e h
  unfold spnBrake
  repeat' first | (with_reducible first | apply FrameB.refl | apply frame_askBrake | apply FrameB.ite) | decide | split | dsimp only

theorem frame_coastFrom x0 s (h : FrameB m o s) (e : sub 0x1802000100 m) : FrameB m o (coastFrom x0 s) := by
  refine .step ?_ e h
  unfold coastFrom
  repeat' first | (with_reducible first | apply FrameB.refl | apply frame_State_modSpn | apply frame_ev | apply FrameB.ite) | decide | split | dsimp only

theorem frame_spnCoast s (h : FrameB m o s) (e : sub 0x1802000100 m) : FrameB m o (spnCoast s) := by
  refine .step ?_ e h
  unfold spnCoast
  repeat' first | (with_reducible first | apply FrameB.refl | apply frame_coastFrom | apply FrameB.ite) | decide | split | dsimp only

theorem frame_spnClrf s (h : FrameB m o s) (e : sub 0x1802000180 m) : FrameB m o (spnClrf s) := by
  refine .step ?_ e h
  unfold spnClrf
  repeat' first | (with_reducible first | apply FrameB.refl | apply frame_State_modSpn | apply frame_spnRefuseFree | apply FrameB.ite) | decide | split | dsimp only

theorem frame_writeSpnCmd x0 s (h : FrameB m o s) (e : sub 0x1A1FB2A180 m) : FrameB m o (writeSpnCmd x0 s) := by
  refine .step ?_ e h
  unfold writeSpnCmd
  repeat' first | (with_reducible first | apply FrameB.refl | apply frame_spnBrake | apply frame_spnClrf | apply frame_spnCoast | apply frame_spnRefuseFree | apply frame_spnStart | apply FrameB.ite) | decide | split | dsimp only

theorem frame_writeClrf x0 s (h : FrameB m o s) (e : sub 0x8000000 m) : FrameB m o (writeClrf x0 s) := by
  refine .step ?_ e h
  unfold writeClrf
  repeat' first | (with_reducible first | apply FrameB.refl | apply frame_State_modLaser | apply FrameB.foldl (fun _ _ => ?_) | apply FrameB.ite) | decide | split | dsimp only

theorem frame_writeOptFmt x0 s (h : FrameB m o s) (e : sub 0x1800000110 m) : FrameB m o (writeOptFmt x0 s) := by
  refine .step ?_ e h
  unfold writeOptFmt
  repeat' first | (with_reducible first | apply FrameB.refl | apply frame_blockErrorP | apply frame_storeFields | apply FrameB.ite) | decide | split | dsimp only

theorem frame_writeFwcmd x0 x1 s (h : FrameB m o s) (e : sub 0x4000000 m) : FrameB m o (writeFwcmd x0 x1 s) := by
  refine .step ?_ e h
  unfold writeFwcmd
  repeat' first | (with_reducible first | apply FrameB.refl | apply frame_State_modPsi | apply frame_psiQueue | apply FrameB.ite) | decide | split | dsimp only

theorem frame_writeSlotsel x0 s (h : FrameB m o s) (e : sub 0x1880000110 m) : FrameB m o (writeSlotsel x0 s) := by
  refine .step ?_ e h
  unfold writeSlotsel
  repeat' first | (with_reducible first | apply FrameB.refl | apply frame_State_modSec | apply frame_storeFields | apply FrameB.ite) | decide | split | dsimp only

theorem frame_writeMbcmd x0 s (h : FrameB m o s) (e : sub 0x1880000110 m) : FrameB m o (writeMbcmd x0 s) := by
  refine .step ?_ e h
  unfold writeMbcmd
  repeat' first | (with_reducible first | apply FrameB.refl | apply frame_State_modSec | apply frame_storeFields | apply FrameB.ite) | decide | split | dsimp only

theorem frame_writeRegDrive x0 x1 x2 x3 x4 s (h : FrameB m o s) (e : sub 0x5A9FF2A190 m) : FrameB m o (writeRegDrive x0 x1 x2 x3 x4 s) := by
  refine .step ?_ e h
  unfold writeRegDrive
  repeat' first | (with_reducible first | apply FrameB.refl | apply frame_pmonClr | apply frame_pmonSnap | apply frame_storeFields | apply frame_writeClrf | apply frame_writeFwcmd | apply frame_writeMbcmd | apply frame_writeOptFmt | apply frame_writeSlotsel | apply frame_writeSpnCfg | apply frame_writeSpnCmd | apply FrameB.ite) | fail_if_no_progress ((with_reducible apply FrameB.set_opt); rfl) | decide | split | dsimp only

theorem frame_writeRegServo x0 x1 x2 x3 x4 s (h : FrameB m o s) (e : sub 0x5A9FF2A190 m) : FrameB m o (writeRegServo x0 x1 x2 x3 x4 s) := by
  refine .step ?_ e h
  unfold writeRegServo
  repeat' first | (with_reducible first | apply FrameB.refl | apply frame_State_modSve | apply frame_mailCommit | apply frame_pmonClr | apply frame_pmonSnap | apply frame_storeFields | apply frame_swapGo | apply frame_writeCdata | apply frame_writeJump | apply frame_writeRegDrive | apply frame_writeRetract | apply frame_writeRow | apply frame_writeSdata | apply frame_writeSveCfg | apply frame_writeSweep | apply frame_writeTrctl | apply FrameB.ite) | decide | split | dsimp only

theorem frame_writeRegSeq x0 x1 x2 x3 x4 s (h : FrameB m o s) (e : sub 0x5AFFFAF1B0 m) : FrameB m o (writeRegSeq x0 x1 x2 x3 x4 s) := by
  refine .step ?_ e h
  unfold writeRegSeq
  repeat' first | (with_reducible first | apply FrameB.refl | apply frame_State_modLdp | apply frame_State_modRwc | apply frame_headretSet | apply frame_ldpRun | apply frame_pmonClr | apply frame_pmonSnap | apply frame_storeFields | apply frame_writeAbort | apply frame_writeCstAct | apply frame_writeDlop | apply frame_writeFfpop | apply frame_writePcmd | apply frame_writePtask | apply frame_writeRegServo | apply frame_writeRespop | apply frame_writeRsfree | apply FrameB.ite) | decide | split | dsimp only

theorem frame_writeRegMem x0 x1 x2 x3 x4 s (h : FrameB m o s) (e : sub 0x5AFFFFF1B0 m) : FrameB m o (writeRegMem x0 x1 x2 x3 x4 s) := by
  refine .step ?_ e h
  unfold writeRegMem
  repeat' first | (with_reducible first | apply FrameB.refl | apply frame_dmcInitGo | apply frame_pprGo | apply frame_rowClear | apply frame_splitGo | apply frame_storeFields | apply frame_writeAbortReq | apply frame_writeDmcCfg | apply frame_writeLgrWin | apply frame_writeNsdom | apply frame_writeOpcmd | apply frame_writeOpenctl | apply frame_writeRegSeq | apply frame_writeRegattr | apply frame_writeRvrCmd | apply FrameB.ite) | decide | split | dsimp only

theorem frame_writeRegVlk x0 x1 x2 x3 x4 s (h : FrameB m o s) (e : sub 0x5AFFFFF1B0 m) : FrameB m o (writeRegVlk x0 x1 x2 x3 x4 s) := by
  refine .step ?_ e h
  unfold writeRegVlk
  repeat' first | (with_reducible first | apply FrameB.refl | apply frame_State_modVlk | apply frame_pmonClr | apply frame_pmonSnap | apply frame_retarget | apply frame_storeFields | apply frame_writeImgcmd | apply frame_writeOrphan | apply frame_writeRegMem | apply frame_writeSegbudget | apply frame_writeVlkCfg | apply frame_writeVlkCmd | apply frame_writeVlkLreq | apply frame_writeVlkNode | apply FrameB.ite) | decide | split | dsimp only

theorem frame_writeReg x0 x1 x2 x3 x4 s (h : FrameB m o s) (e : sub 0x7BFFFFFFFC m) : FrameB m o (writeReg x0 x1 x2 x3 x4 s) := by
  refine .step ?_ e h
  unfold writeReg
  repeat' first | (with_reducible first | apply FrameB.refl | apply frame_evrCommit | apply frame_evrStore | apply frame_lifSeal | apply frame_lifSnap | apply frame_routeWrite | apply frame_storeFields | apply frame_swset | apply frame_twinAccess | apply frame_walkQueue | apply frame_writeAddgo | apply frame_writeBase | apply frame_writeCalAdj | apply frame_writeCalCmd | apply frame_writeClkDom | apply frame_writeCur | apply frame_writeOp | apply frame_writePdoff | apply frame_writePfcfg | apply frame_writePllen | apply frame_writePreq | apply frame_writeProfile | apply frame_writeRdyctl | apply frame_writeRegVlk | apply frame_writeReqb | apply frame_writeSwev | apply frame_writeThmCmd | apply frame_writeThmThr | apply frame_writeWdtctl | apply frame_writeWdtkick | apply frame_writeWin | apply FrameB.ite) | decide | split | dsimp only

theorem frame_readUsec s (h : FrameB m o s) (e : sub 0x2000000004 m) : FrameB m o (readUsec s) := by
  refine .step ?_ e h
  unfold readUsec
  repeat' first | (with_reducible first | apply FrameB.refl | apply FrameB.ite) | fail_if_no_progress ((with_reducible apply FrameB.set_busData_cal); rfl) | fail_if_no_progress ((with_reducible apply FrameB.set_busData); rfl) | fail_if_no_progress ((with_reducible apply FrameB.set_cal); rfl) | decide | split | dsimp only

theorem frame_readNext0 s (h : FrameB m o s) (e : sub 0x800000004 m) : FrameB m o (readNext0 s) := by
  refine .step ?_ e h
  unfold readNext0
  repeat' first | (with_reducible first | apply FrameB.refl | apply frame_State_modEvr | apply FrameB.ite) | fail_if_no_progress ((with_reducible apply FrameB.set_busData); rfl) | decide | split | dsimp only

theorem frame_readWin7 s (h : FrameB m o s) (e : sub 0x800000004 m) : FrameB m o (readWin7 s) := by
  refine .step ?_ e h
  unfold readWin7
  repeat' first | (with_reducible first | apply FrameB.refl | apply frame_State_modEvr | apply frame_loadWindow | apply FrameB.ite) | fail_if_no_progress ((with_reducible apply FrameB.set_busData); rfl) | decide | split | dsimp only

theorem frame_readVlkTime s (h : FrameB m o s) (e : sub 0x4000000004 m) : FrameB m o (readVlkTime s) := by
  refine .step ?_ e h
  unfold readVlkTime
  repeat' first | (with_reducible first | apply FrameB.refl | apply frame_State_modVlk | apply FrameB.ite) | fail_if_no_progress ((with_reducible apply FrameB.set_busData); rfl) | decide | split | dsimp only

theorem frame_readTrdata x0 s (h : FrameB m o s) (e : sub 0x1000004 m) : FrameB m o (readTrdata x0 s) := by
  refine .step ?_ e h
  unfold readTrdata
  repeat' first | (with_reducible first | apply FrameB.refl | apply frame_State_modSve | apply FrameB.ite) | fail_if_no_progress ((with_reducible apply FrameB.set_busData); rfl) | decide | split | dsimp only

theorem frame_readRegAt x0 x1 x2 s (h : FrameB m o s) (e : sub 0x780100015C m) : FrameB m o (readRegAt x0 x1 x2 s) := by
  refine .step ?_ e h
  unfold readRegAt
  repeat' first | (with_reducible first | apply FrameB.refl | apply frame_State_modSve | apply frame_busGives | apply frame_cdataStep | apply frame_readNext0 | apply frame_readTrdata | apply frame_readUsec | apply frame_readVlkTime | apply frame_readWin7 | apply frame_twinAccess | apply FrameB.ite) | decide | split | dsimp only

theorem frame_wordAccess x0 x1 x2 x3 x4 x5 s (h : FrameB m o s) (e : sub 0x7BFFFFFFFE m) : FrameB m o (wordAccess x0 x1 x2 x3 x4 x5 s) := by
  refine .step ?_ e h
  unfold wordAccess
  repeat' first | (with_reducible first | apply FrameB.refl | apply frame_busGives | apply frame_busZero | apply frame_guardWrite | apply frame_headerWrite | apply frame_readRegAt | apply frame_useWindow | apply frame_writeReg | apply FrameB.ite) | fail_if_no_progress ((with_reducible apply FrameB.set_busErr); rfl) | decide | split | dsimp only

theorem frame_pageAccess x0 x1 x2 x3 x4 s (h : FrameB m o s) (e : sub 0x7BFFFFFFFE m) : FrameB m o (pageAccess x0 x1 x2 x3 x4 s) := by
  refine .step ?_ e h
  unfold pageAccess
  repeat' first | (with_reducible first | apply FrameB.refl | apply frame_blockError | apply frame_busZero | apply frame_wordAccess | apply FrameB.ite) | fail_if_no_progress ((with_reducible apply FrameB.set_busData); rfl) | decide | split | dsimp only

theorem frame_storeWindow x0 x1 x2 s (h : FrameB m o s) (e : sub 0x180000010C m) : FrameB m o (storeWindow x0 x1 x2 s) := by
  refine .step ?_ e h
  unfold storeWindow
  repeat' first | (with_reducible first | apply FrameB.refl | apply frame_blockError | apply frame_busGives | apply frame_busZero | apply FrameB.ite) | decide | split | dsimp only

theorem frame_busOp x0 x1 x2 x3 x4 s (h : FrameB m o s) (e : sub 0x7BFFFFFFFE m) : FrameB m o (busOp x0 x1 x2 x3 x4 s) := by
  refine .step ?_ e h
  unfold busOp
  repeat' first | (with_reducible first | apply FrameB.refl | apply frame_blockError | apply frame_busFails | apply frame_busZero | apply frame_domMem | apply frame_ev | apply frame_pageAccess | apply frame_romAccess | apply frame_storeWindow | apply FrameB.ite) | decide | split | dsimp only

theorem frame_pauseEvents x0 x1 s (h : FrameB m o s) (e : sub 0x1800000100 m) : FrameB m o (pauseEvents x0 x1 s) := by
  refine .step ?_ e h
  unfold pauseEvents
  repeat' first | (with_reducible first | apply FrameB.refl | apply frame_ev | apply FrameB.ite) | decide | split | dsimp only

theorem frame_checkPause s (h : FrameB m o s) (e : sub 0x180000A100 m) : FrameB m o (checkPause s) := by
  refine .step ?_ e h
  unfold checkPause
  repeat' first | (with_reducible first | apply FrameB.refl | apply frame_State_modHce | apply frame_pauseEvents | apply frame_raiseLine | apply FrameB.ite) | decide | split | dsimp only

theorem frame_setExcl x0 x1 s (h : FrameB m o s) (e : sub 0x1900002100 m) : FrameB m o (setExcl x0 x1 s) := by
  refine .step ?_ e h
  unfold setExcl
  repeat' first | (with_reducible first | apply FrameB.refl | apply frame_State_modThm | apply frame_ev | apply frame_raiseLine | apply FrameB.ite) | decide | split | dsimp only

theorem frame_checkSensor x0 x1 s (h : FrameB m o s) (e : sub 0x1900002100 m) : FrameB m o (checkSensor x0 x1 s) := by
  refine .step ?_ e h
  unfold checkSensor
  repeat' first | (with_reducible first | apply FrameB.refl | apply frame_State_modThm | apply frame_setExcl | apply FrameB.foldl (fun _ _ => ?_) | apply FrameB.ite) | decide | split | dsimp only

theorem frame_chooseGen s (h : FrameB m o s) (e : sub 0x1800050100 m) : FrameB m o (chooseGen s) := by
  refine .step ?_ e h
  unfold chooseGen
  repeat' first | (with_reducible first | apply FrameB.refl | apply frame_State_modLgr | apply frame_State_modRvr | apply frame_ev | apply FrameB.ite) | decide | split | dsimp only

theorem frame_ckptDurable s (h : FrameB m o s) (e : sub 0x20000 m) : FrameB m o (ckptDurable s) := by
  refine .step ?_ e h
  unfold ckptDurable
  repeat' first | (with_reducible first | apply FrameB.refl | apply frame_State_modXmt | apply FrameB.ite) | decide | split | dsimp only

theorem frame_endGrant x0 x1 s (h : FrameB m o s) (e : sub 0x1800006100 m) : FrameB m o (endGrant x0 x1 s) := by
  refine .step ?_ e h
  unfold endGrant
  repeat' first | (with_reducible first | apply FrameB.refl | apply frame_State_modLlt | apply frame_boostEnds | apply frame_countClass | apply frame_ev | apply frame_freeTicket | apply frame_portLine | apply FrameB.ite) | decide | split | dsimp only

theorem frame_clearLease s (h : FrameB m o s) (e : sub 0x1800006100 m) : FrameB m o (clearLease s) := by
  refine .step ?_ e h
  unfold clearLease
  repeat' first | (with_reducible first | apply FrameB.refl | apply frame_State_modLlt | apply frame_endGrant | apply frame_walkQueue | apply FrameB.foldl (fun _ _ => ?_) | apply FrameB.ite) | decide | split | dsimp only

theorem frame_clkPrime x0 s (h : FrameB m o s) (e : sub 0x200000 m) : FrameB m o (clkPrime x0 s) := by
  refine .step ?_ e h
  unfold clkPrime
  repeat' first | (with_reducible first | apply FrameB.refl | apply frame_State_modRwc | apply FrameB.ite) | decide | split | dsimp only

theorem frame_rwcLine x0 x1 s (h : FrameB m o s) (e : sub 0x2000 m) : FrameB m o (rwcLine x0 x1 s) := by
  refine .step ?_ e h
  unfold rwcLine
  repeat' first | (with_reducible first | apply FrameB.refl | apply frame_raiseLine | apply FrameB.ite) | decide | split | dsimp only

theorem frame_clockLost x0 x1 s (h : FrameB m o s) (e : sub 0x1A0CB22180 m) : FrameB m o (clockLost x0 x1 s) := by
  refine .step ?_ e h
  unfold clockLost
  repeat' first | (with_reducible first | apply FrameB.refl | apply frame_State_modRwc | apply frame_ev | apply frame_faultDecision | apply frame_rwcBump | apply frame_rwcLine | apply FrameB.ite) | decide | split | dsimp only

theorem frame_rwoffStep x0 s (h : FrameB m o s) (e : sub 0x200000 m) : FrameB m o (rwoffStep x0 s) := by
  refine .step ?_ e h
  unfold rwoffStep
  repeat' first | (with_reducible first | apply FrameB.refl | apply frame_State_modRwc | apply FrameB.ite) | decide | split | dsimp only

theorem frame_writeClockStep x0 x1 x2 x3 s (h : FrameB m o s) (e : sub 0x1A0CB22180 m) : FrameB m o (writeClockStep x0 x1 x2 x3 s) := by
  refine .step ?_ e h
  unfold writeClockStep
  repeat' first | (with_reducible first | apply FrameB.refl | apply frame_State_modRwc | apply frame_clockLost | apply frame_waitComes | apply FrameB.ite) | decide | split | dsimp only

theorem frame_primeStep x0 x1 x2 s (h : FrameB m o s) (e : sub 0x1800200100 m) : FrameB m o (primeStep x0 x1 x2 s) := by
  refine .step ?_ e h
  unfold primeStep
  repeat' first | (with_reducible first | apply FrameB.refl | apply frame_State_modRwc | apply frame_ev | apply FrameB.ite) | decide | split | dsimp only

theorem frame_gatesFollow x0 s (h : FrameB m o s) (e : sub 0x200000 m) : FrameB m o (gatesFollow x0 s) := by
  refine .step ?_ e h
  unfold gatesFollow
  repeat' first | (with_reducible first | apply FrameB.refl | apply frame_State_modRwc | apply FrameB.ite) | decide | split | dsimp only

theorem frame_clockStep x0 x1 x2 x3 x4 s (h : FrameB m o s) (e : sub 0x1A0CB22180 m) : FrameB m o (clockStep x0 x1 x2 x3 x4 s) := by
  refine .step ?_ e h
  unfold clockStep
  repeat' first | (with_reducible first | apply FrameB.refl | apply frame_State_modRwc | apply frame_gatesFollow | apply frame_primeStep | apply frame_rwcBump | apply frame_rwoffStep | apply frame_writeClockStep | apply FrameB.ite) | decide | split | dsimp only

theorem frame_clocksGlow s (h : FrameB m o s) (e : sub 0x410 m) : FrameB m o (clocksGlow s) := by
  refine .step ?_ e h
  unfold clocksGlow
  repeat' first | (with_reducible first | apply FrameB.refl | apply frame_setFld | apply FrameB.foldl (fun _ _ => ?_) | apply FrameB.ite) | fail_if_no_progress ((with_reducible apply FrameB.set_clk); rfl) | decide | split | dsimp only

theorem frame_clocksWake s (h : FrameB m o s) (e : sub 0x10 m) : FrameB m o (clocksWake s) := by
  refine .step ?_ e h
  unfold clocksWake
  repeat' first | (with_reducible first | apply FrameB.refl | apply frame_setFld | apply FrameB.foldl (fun _ _ => ?_) | apply FrameB.ite) | decide | split | dsimp only

theorem frame_closeFetch s (h : FrameB m o s) (e : sub 0x8000 m) : FrameB m o (closeFetch s) := by
  refine .step ?_ e h
  unfold closeFetch
  repeat' first | (with_reducible first | apply FrameB.refl | apply frame_State_modHce | apply FrameB.ite) | decide | split | dsimp only

theorem frame_clusterSector x0 x1 s (h : FrameB m o s) (e : sub 0x1800502100 m) : FrameB m o (clusterSector x0 x1 s) := by
  refine .step ?_ e h
  unfold clusterSector
  repeat' first | (with_reducible first | apply FrameB.refl | apply frame_State_modAsq | apply frame_ev | apply frame_ldpBump | apply FrameB.ite) | decide | split | dsimp only

theorem frame_cntop x0 s (h : FrameB m o s) (e : sub 0x100080 m) : FrameB m o (cntop x0 s) := by
  refine .step ?_ e h
  unfold cntop
  repeat' first | (with_reducible first | apply FrameB.refl | apply frame_State_drawn | apply frame_State_modAsq | apply FrameB.ite) | decide | split | dsimp only

theorem frame_sampleStraps x0 s (h : FrameB m o s) (e : sub 0x1800000300 m) : FrameB m o (sampleStraps x0 s) := by
  refine .step ?_ e h
  unfold sampleStraps
  repeat' first | (with_reducible first | apply FrameB.refl | apply frame_State_modSys | apply frame_ev | apply FrameB.ite) | decide | split | dsimp only

theorem frame_measureStart s (h : FrameB m o s) (e : sub 0x80000080 m) : FrameB m o (measureStart s) := by
  refine .step ?_ e h
  unfold measureStart
  repeat' first | (with_reducible first | apply FrameB.refl | apply frame_State_drawn | apply frame_extendMeas | apply FrameB.ite) | decide | split | dsimp only

theorem frame_countCauses x0 s (h : FrameB m o s) (e : sub 0x1800000100 m) : FrameB m o (countCauses x0 s) := by
  refine .step ?_ e h
  unfold countCauses
  repeat' first | (with_reducible first | apply FrameB.refl | apply frame_lifBump | apply FrameB.foldl (fun _ _ => ?_) | apply FrameB.ite) | decide | split | dsimp only

theorem frame_releaseCore x0 s (h : FrameB m o s) (e : sub 0x1880080F80 m) : FrameB m o (releaseCore x0 s) := by
  refine .step ?_ e h
  unfold releaseCore
  repeat' first | (with_reducible first | apply FrameB.refl | apply frame_State_modPwr | apply frame_State_modSys | apply frame_applyPolicy | apply frame_countCauses | apply frame_ev | apply frame_measureStart | apply frame_sampleStraps | apply FrameB.ite) | fail_if_no_progress ((with_reducible apply FrameB.set_clk); rfl) | decide | split | dsimp only

theorem frame_coldStart x0 s (h : FrameB m o s) (e : sub 0x18E00BAFB0 m) : FrameB m o (coldStart x0 s) := by
  refine .step ?_ e h
  unfold coldStart
  repeat' first | (with_reducible first | apply FrameB.refl | apply frame_State_modSys | apply frame_bistResults | apply frame_bootSlots | apply frame_ev | apply frame_releaseCore | apply frame_setFld | apply frame_trainLink | apply FrameB.ite) | decide | split | dsimp only

theorem frame_releaseHalves s (h : FrameB m o s) (e : sub 0x42000 m) : FrameB m o (releaseHalves s) := by
  refine .step ?_ e h
  unfold releaseHalves
  repeat' first | (with_reducible first | apply FrameB.refl | apply frame_State_modRvr | apply frame_raiseLine | apply FrameB.ite) | decide | split | dsimp only

theorem frame_migDone x0 s (h : FrameB m o s) (e : sub 0x1800030100 m) : FrameB m o (migDone x0 s) := by
  refine .step ?_ e h
  unfold migDone
  repeat' first | (with_reducible first | apply FrameB.refl | apply frame_State_modLgr | apply frame_State_modXmt | apply frame_ev | apply frame_releaseReader | apply FrameB.ite) | decide | split | dsimp only

theorem frame_migsDone s (h : FrameB m o s) (e : sub 0x1800030100 m) : FrameB m o (migsDone s) := by
  refine .step ?_ e h
  unfold migsDone
  repeat' first | (with_reducible first | apply FrameB.refl | apply frame_migDone | apply FrameB.foldl (fun _ _ => ?_) | apply FrameB.ite) | decide | split | dsimp only

theorem frame_writesDurable s (h : FrameB m o s) (e : sub 0x10000 m) : FrameB m o (writesDurable s) := by
  refine .step ?_ e h
  unfold writesDurable
  repeat' first | (with_reducible first | apply FrameB.refl | apply frame_State_modLgr | apply FrameB.ite) | decide | split | dsimp only

theorem frame_settleJournal s (h : FrameB m o s) (e : sub 0x1800072100 m) : FrameB m o (settleJournal s) := by
  refine .step ?_ e h
  unfold settleJournal
  repeat' first | (with_reducible first | apply FrameB.refl | apply frame_ckptDurable | apply frame_migsDone | apply frame_releaseHalves | apply frame_retire | apply frame_writesDurable | apply FrameB.ite) | decide | split | dsimp only

theorem frame_commitDurable s (h : FrameB m o s) (e : sub 0x180007E300 m) : FrameB m o (commitDurable s) := by
  refine .step ?_ e h
  unfold commitDurable
  repeat' first | (with_reducible first | apply FrameB.refl | apply frame_State_modRvr | apply frame_State_modSys | apply frame_commitGrantEnd | apply frame_ev | apply frame_raiseLine | apply frame_releaseFetch | apply frame_settleJournal | apply FrameB.foldl (fun _ _ => ?_) | apply FrameB.ite) | decide | split | dsimp only

theorem frame_complete x0 x1 s (h : FrameB m o s) (e : sub 0x1A0C302180 m) : FrameB m o (complete x0 x1 s) := by
  refine .step ?_ e h
  unfold complete
  repeat' first | (with_reducible first | apply FrameB.refl | apply frame_State_modAsq | apply frame_boundary | apply frame_cntop | apply FrameB.ite) | decide | split | dsimp only

theorem frame_freeTag x0 s (h : FrameB m o s) (e : sub 0x8000 m) : FrameB m o (freeTag x0 s) := by
  refine .step ?_ e h
  unfold freeTag
  repeat' first | (with_reducible first | apply FrameB.refl | apply frame_State_modHce | apply FrameB.ite) | decide | split | dsimp only

theorem frame_startCmd x0 s (h : FrameB m o s) (e : sub 0x188003A180 m) : FrameB m o (startCmd x0 s) := by
  refine .step ?_ e h
  unfold startCmd
  repeat' first | (with_reducible first | apply FrameB.refl | apply frame_accept | apply frame_modCmd | apply FrameB.ite) | decide | split | dsimp only

theorem frame_releaseWaiting s (h : FrameB m o s) (e : sub 0x188003A180 m) : FrameB m o (releaseWaiting s) := by
  refine .step ?_ e h
  unfold releaseWaiting
  repeat' first | (with_reducible first | apply FrameB.refl | apply frame_startCmd | apply FrameB.foldl (fun _ _ => ?_) | apply FrameB.ite) | decide | split | dsimp only

theorem frame_freeBarrier x0 s (h : FrameB m o s) (e : sub 0x10000 m) : FrameB m o (freeBarrier x0 s) := by
  refine .step ?_ e h
  unfold freeBarrier
  repeat' first | (with_reducible first | apply FrameB.refl | apply frame_State_modLgr | apply FrameB.ite) | decide | split | dsimp only

theorem frame_completed x0 s (h : FrameB m o s) (e : sub 0x188003A980 m) : FrameB m o (completed x0 s) := by
  refine .step ?_ e h
  unfold completed
  repeat' first | (with_reducible first | apply FrameB.refl | apply frame_State_modCtrl | apply frame_State_modHce | apply frame_State_modPwr | apply frame_freeBarrier | apply frame_freeTag | apply frame_releaseWaiting | apply FrameB.ite) | decide | split | dsimp only

theorem frame_computeAuto x0 x1 x2 s (h : FrameB m o s) (e : sub 0x1A00000100 m) : FrameB m o (computeAuto x0 x1 x2 s) := by
  refine .step ?_ e h
  unfold computeAuto
  repeat' first | (with_reducible first | apply FrameB.refl | apply frame_ev | apply frame_modTrim | apply FrameB.ite) | decide | split | dsimp only

theorem frame_computeComp x0 s (h : FrameB m o s) (e : sub 0x200000080 m) : FrameB m o (computeComp x0 s) := by
  refine .step ?_ e h
  unfold computeComp
  repeat' first | (with_reducible first | apply FrameB.refl | apply frame_State_drawn | apply frame_modTrim | apply FrameB.ite) | decide | split | dsimp only

theorem frame_condDrawn x0 s (h : FrameB m o s) (e : sub 0x80 m) : FrameB m o (condDrawn x0 s) := by
  refine .step ?_ e h
  unfold condDrawn
  repeat' first | (with_reducible first | apply FrameB.refl | apply frame_State_drawn | apply FrameB.ite) | decide | split | dsimp only

theorem frame_takeReadings x0 x1 s (h : FrameB m o s) (e : sub 0x1900002100 m) : FrameB m o (takeReadings x0 x1 s) := by
  refine .step ?_ e h
  unfold takeReadings
  repeat' first | (with_reducible first | apply FrameB.refl | apply frame_State_modThm | apply frame_setExcl | apply FrameB.foldl (fun _ _ => ?_) | apply FrameB.ite) | decide | split | dsimp only

theorem frame_setWarn x0 s (h : FrameB m o s) (e : sub 0x190001A180 m) : FrameB m o (setWarn x0 s) := by
  refine .step ?_ e h
  unfold setWarn
  repeat' first | (with_reducible first | apply FrameB.refl | apply frame_State_modCtrl | apply frame_State_modThm | apply frame_critical | apply frame_ev | apply frame_raiseLine | apply FrameB.ite) | decide | split | dsimp only

theorem frame_stateCounts x0 s (h : FrameB m o s) (e : sub 0x190001E180 m) : FrameB m o (stateCounts x0 s) := by
  refine .step ?_ e h
  unfold stateCounts
  repeat' first | (with_reducible first | apply FrameB.refl | apply frame_State_modThm | apply frame_setThrot | apply frame_setWarn | apply FrameB.ite) | decide | split | dsimp only

theorem frame_spnToCoast s (h : FrameB m o s) (e : sub 0x1802000100 m) : FrameB m o (spnToCoast s) := by
  refine .step ?_ e h
  unfold spnToCoast
  repeat' first | (with_reducible first | apply FrameB.refl | apply frame_coastFrom | apply FrameB.ite) | decide | split | dsimp only

theorem frame_shutCmd x0 s (h : FrameB m o s) (e : sub 0x1800038180 m) : FrameB m o (shutCmd x0 s) := by
  refine .step ?_ e h
  unfold shutCmd
  repeat' first | (with_reducible first | apply FrameB.refl | apply frame_dropWrite | apply frame_finish | apply frame_guarantee | apply FrameB.ite) | decide | split | dsimp only

theorem frame_thermalShutdown s (h : FrameB m o s) (e : sub 0x1B1FB7E180 m) : FrameB m o (thermalShutdown s) := by
  refine .step ?_ e h
  unfold thermalShutdown
  repeat' first | (with_reducible first | apply FrameB.refl | apply frame_State_modThm | apply frame_ev | apply frame_faultAll | apply frame_lasersOff | apply frame_raiseLine | apply frame_retractLoaded | apply frame_revokeLeaves | apply frame_shutCmd | apply frame_spnToCoast | apply frame_startCommit | apply FrameB.foldl (fun _ _ => ?_) | apply FrameB.ite) | decide | split | dsimp only

theorem frame_shutCount x0 s (h : FrameB m o s) (e : sub 0x1B1FB7E180 m) : FrameB m o (shutCount x0 s) := by
  refine .step ?_ e h
  unfold shutCount
  repeat' first | (with_reducible first | apply FrameB.refl | apply frame_State_modThm | apply frame_thermalShutdown | apply FrameB.ite) | decide | split | dsimp only

theorem frame_criticalLimit x0 x1 s (h : FrameB m o s) (e : sub 0x1B1DB7E380 m) : FrameB m o (criticalLimit x0 x1 s) := by
  refine .step ?_ e h
  unfold criticalLimit
  repeat' first | (with_reducible first | apply FrameB.refl | apply frame_State_modThm | apply frame_abandonCommit | apply frame_guarantee | apply frame_retractLoaded | apply FrameB.foldl (fun _ _ => ?_) | apply FrameB.ite) | decide | split | dsimp only

theorem frame_conversion x0 x1 x2 s (h : FrameB m o s) (e : sub 0x1B1FB7E380 m) : FrameB m o (conversion x0 x1 x2 s) := by
  refine .step ?_ e h
  unfold conversion
  repeat' first | (with_reducible first | apply FrameB.refl | apply frame_State_modThm | apply frame_arrayCheck | apply frame_checkSensor | apply frame_criticalLimit | apply frame_shutCount | apply frame_stateCounts | apply frame_takeReadings | apply FrameB.foldl (fun _ _ => ?_) | apply FrameB.ite) | decide | split | dsimp only

theorem frame_coreReset s (h : FrameB m o s) (e : sub 0x47FFFFFF70 m) : FrameB m o (coreReset s) := by
  refine .step ?_ e h
  unfold coreReset
  repeat' first | (with_reducible first | apply FrameB.refl | apply FrameB.ite) | fail_if_no_progress ((with_reducible apply FrameB.set_many31); rfl) | fail_if_no_progress ((with_reducible apply FrameB.set_mem_dmc); rfl) | fail_if_no_progress ((with_reducible apply FrameB.set_regs); rfl) | fail_if_no_progress ((with_reducible apply FrameB.set_mem); rfl) | fail_if_no_progress ((with_reducible apply FrameB.set_tcm); rfl) | fail_if_no_progress ((with_reducible apply FrameB.set_hdr); rfl) | fail_if_no_progress ((with_reducible apply FrameB.set_sys); rfl) | fail_if_no_progress ((with_reducible apply FrameB.set_clk); rfl) | fail_if_no_progress ((with_reducible apply FrameB.set_pwr); rfl) | fail_if_no_progress ((with_reducible apply FrameB.set_l1); rfl) | fail_if_no_progress ((with_reducible apply FrameB.set_irq); rfl) | fail_if_no_progress ((with_reducible apply FrameB.set_llt); rfl) | fail_if_no_progress ((with_reducible apply FrameB.set_hce); rfl) | fail_if_no_progress ((with_reducible apply FrameB.set_lgr); rfl) | fail_if_no_progress ((with_reducible apply FrameB.set_xmt); rfl) | fail_if_no_progress ((with_reducible apply FrameB.set_rvr); rfl) | fail_if_no_progress ((with_reducible apply FrameB.set_cst); rfl) | fail_if_no_progress ((with_reducible apply FrameB.set_asq); rfl) | fail_if_no_progress ((with_reducible apply FrameB.set_rwc); rfl) | fail_if_no_progress ((with_reducible apply FrameB.set_ldp); rfl) | fail_if_no_progress ((with_reducible apply FrameB.set_tpe); rfl) | fail_if_no_progress ((with_reducible apply FrameB.set_sve); rfl) | fail_if_no_progress ((with_reducible apply FrameB.set_spn); rfl) | fail_if_no_progress ((with_reducible apply FrameB.set_psi); rfl) | fail_if_no_progress ((with_reducible apply FrameB.set_lsr); rfl) | fail_if_no_progress ((with_reducible apply FrameB.set_opt); rfl) | fail_if_no_progress ((with_reducible apply FrameB.set_dmc); rfl) | fail_if_no_progress ((with_reducible apply FrameB.set_bcc); rfl) | fail_if_no_progress ((with_reducible apply FrameB.set_sec); rfl) | fail_if_no_progress ((with_reducible apply FrameB.set_thm); rfl) | fail_if_no_progress ((with_reducible apply FrameB.set_trm); rfl) | fail_if_no_progress ((with_reducible apply FrameB.set_sup); rfl) | fail_if_no_progress ((with_reducible apply FrameB.set_vlk); rfl) | decide | split | dsimp only

theorem frame_countDone x0 s (h : FrameB m o s) (e : sub 0x100000 m) : FrameB m o (countDone x0 s) := by
  refine .step ?_ e h
  unfold countDone
  repeat' first | (with_reducible first | apply FrameB.refl | apply frame_State_modAsq | apply FrameB.ite) | decide | split | dsimp only

theorem frame_credentialOf x0 x1 s (h : FrameB m o s) (e : sub 0x1880000100 m) : FrameB m o (credentialOf x0 x1 s).1 := by
  refine .step ?_ e h
  unfold credentialOf
  repeat' first | (with_reducible first | apply FrameB.refl | apply frame_State_modSec | apply frame_ev | apply FrameB.ite) | decide | split | dsimp only

theorem frame_zeroForPowerDown s (h : FrameB m o s) (e : sub 0x4080000000 m) : FrameB m o (zeroForPowerDown s) := by
  refine .step ?_ e h
  unfold zeroForPowerDown
  repeat' first | (with_reducible first | apply FrameB.refl | apply frame_State_modSec | apply frame_dropLinks | apply frame_zeroKst | apply FrameB.ite) | decide | split | dsimp only

theorem frame_darkEntry x0 x1 s (h : FrameB m o s) (e : sub 0x47FFFFFF70 m) : FrameB m o (darkEntry x0 x1 s) := by
  refine .step ?_ e h
  unfold darkEntry
  repeat' first | (with_reducible first | apply FrameB.refl | apply frame_State_modPwr | apply frame_State_modSys | apply frame_coreReset | apply frame_zeroForPowerDown | apply FrameB.ite) | decide | split | dsimp only

theorem frame_criticalDark s (h : FrameB m o s) (e : sub 0x5FFFFFFF70 m) : FrameB m o (criticalDark s) := by
  refine .step ?_ e h
  unfold criticalDark
  repeat' first | (with_reducible first | apply FrameB.refl | apply frame_darkEntry | apply frame_ev | apply FrameB.ite) | decide | split | dsimp only

theorem frame_crossingBad s (h : FrameB m o s) (e : sub 0x1A1FB2A180 m) : FrameB m o (crossingBad s) := by
  refine .step ?_ e h
  unfold crossingBad
  repeat' first | (with_reducible first | apply FrameB.refl | apply frame_State_modSpn | apply frame_lockLost | apply FrameB.ite) | decide | split | dsimp only

theorem frame_lockReached s (h : FrameB m o s) (e : sub 0x1802002100 m) : FrameB m o (lockReached s) := by
  refine .step ?_ e h
  unfold lockReached
  repeat' first | (with_reducible first | apply FrameB.refl | apply frame_State_modSpn | apply frame_ev | apply frame_raiseLine | apply FrameB.ite) | decide | split | dsimp only

theorem frame_crossingGood s (h : FrameB m o s) (e : sub 0x1802002100 m) : FrameB m o (crossingGood s) := by
  refine .step ?_ e h
  unfold crossingGood
  repeat' first | (with_reducible first | apply FrameB.refl | apply frame_State_modSpn | apply frame_lockReached | apply FrameB.ite) | decide | split | dsimp only

theorem frame_writeUcachectl x0 x1 s (h : FrameB m o s) (e : sub 0x18600033A0 m) : FrameB m o (writeUcachectl x0 x1 s) := by
  refine .step ?_ e h
  unfold writeUcachectl
  repeat' first | (with_reducible first | apply FrameB.refl | apply frame_State_modSys | apply frame_l1CleanAll | apply FrameB.ite) | decide | split | dsimp only

theorem frame_l1Remove x0 x1 s (h : FrameB m o s) (e : sub 0x1000 m) : FrameB m o (l1Remove x0 x1 s) := by
  refine .step ?_ e h
  unfold l1Remove
  repeat' first | (with_reducible first | apply FrameB.refl | apply FrameB.ite) | fail_if_no_progress ((with_reducible apply FrameB.set_l1); rfl) | decide | split | dsimp only

theorem frame_writeUcacheop x0 x1 s (h : FrameB m o s) (e : sub 0x18600031A0 m) : FrameB m o (writeUcacheop x0 x1 s) := by
  refine .step ?_ e h
  unfold writeUcacheop
  repeat' first | (with_reducible first | apply FrameB.refl | apply frame_l1CleanLine | apply frame_l1Remove | apply FrameB.ite) | decide | split | dsimp only

theorem frame_csrWrite x0 x1 x2 s (h : FrameB m o s) (e : sub 0x18600033A0 m) : FrameB m o (csrWrite x0 x1 x2 s) := by
  refine .step ?_ e h
  unfold csrWrite
  repeat' first | (with_reducible first | apply FrameB.refl | apply frame_writeUcachectl | apply frame_writeUcacheop | apply FrameB.ite) | fail_if_no_progress ((with_reducible apply FrameB.set_irq); rfl) | decide | split | dsimp only

theorem frame_dataArrived x0 x1 x2 s (h : FrameB m o s) (e : sub 0x38080 m) : FrameB m o (dataArrived x0 x1 x2 s) := by
  refine .step ?_ e h
  unfold dataArrived
  repeat' first | (with_reducible first | apply FrameB.refl | apply frame_bufferEntry | apply frame_dropWrite | apply frame_finish | apply frame_finishDw | apply frame_modCmd | apply FrameB.ite) | decide | split | dsimp only

theorem frame_memGated x0 s (h : FrameB m o s) (e : sub 0x180000010C m) : FrameB m o (memGated x0 s) := by
  refine .step ?_ e h
  unfold memGated
  repeat' first | (with_reducible first | apply FrameB.refl | apply frame_blockError | apply FrameB.ite) | fail_if_no_progress ((with_reducible apply FrameB.set_busData_busErr); rfl) | fail_if_no_progress ((with_reducible apply FrameB.set_busData); rfl) | fail_if_no_progress ((with_reducible apply FrameB.set_busErr); rfl) | decide | split | dsimp only

theorem frame_ddrTake x0 x1 x2 x3 x4 s (h : FrameB m o s) (e : sub 0x18600031AC m) : FrameB m o (ddrTake x0 x1 x2 x3 x4 s) := by
  refine .step ?_ e h
  unfold ddrTake
  repeat' first | (with_reducible first | apply FrameB.refl | apply frame_memAccess | apply frame_memGated | apply FrameB.ite) | fail_if_no_progress ((with_reducible apply FrameB.set_busData_busErr); rfl) | fail_if_no_progress ((with_reducible apply FrameB.set_busData); rfl) | fail_if_no_progress ((with_reducible apply FrameB.set_busErr); rfl) | decide | split | dsimp only

theorem frame_dropRun x0 x1 x2 x3 s (h : FrameB m o s) (e : sub 0x20000 m) : FrameB m o (dropRun x0 x1 x2 x3 s) := by
  refine .step ?_ e h
  unfold dropRun
  repeat' first | (with_reducible first | apply FrameB.refl | apply frame_State_modXmt | apply frame_journal | apply FrameB.ite) | decide | split | dsimp only

theorem frame_mapExtent x0 x1 x2 x3 x4 s (h : FrameB m o s) (e : sub 0x20000 m) : FrameB m o (mapExtent x0 x1 x2 x3 x4 s) := by
  refine .step ?_ e h
  unfold mapExtent
  repeat' first | (with_reducible first | apply FrameB.refl | apply frame_journal | apply frame_putExtent | apply FrameB.ite) | decide | split | dsimp only

theorem frame_formatTables x0 x1 s (h : FrameB m o s) (e : sub 0x20000 m) : FrameB m o (formatTables x0 x1 s) := by
  refine .step ?_ e h
  unfold formatTables
  repeat' first | (with_reducible first | apply FrameB.refl | apply frame_dropRun | apply frame_journalZone | apply frame_mapExtent | apply frame_modZone | apply FrameB.foldl (fun _ _ => ?_) | apply FrameB.ite) | decide | split | dsimp only

theorem frame_deallocWiped x0 s (h : FrameB m o s) (e : sub 0x80020000 m) : FrameB m o (deallocWiped x0 s) := by
  refine .step ?_ e h
  unfold deallocWiped
  repeat' first | (with_reducible first | apply FrameB.refl | apply frame_State_modSec | apply frame_formatTables | apply FrameB.foldl (fun _ _ => ?_) | apply FrameB.ite) | decide | split | dsimp only

theorem frame_debugAnswer x0 x1 x2 x3 s (h : FrameB m o s) (e : sub 0x5A8CB22B80 m) : FrameB m o (debugAnswer x0 x1 x2 x3 s) := by
  refine .step ?_ e h
  unfold debugAnswer
  repeat' first | (with_reducible first | apply FrameB.refl | apply frame_State_modSec | apply frame_State_modSys | apply frame_dropLinks | apply frame_ev | apply frame_extendMeas | apply frame_snuff2 | apply frame_zeroKst | apply FrameB.ite) | decide | split | dsimp only

theorem frame_taskFails x0 s (h : FrameB m o s) (e : sub 0x100000 m) : FrameB m o (taskFails x0 s) := by
  refine .step ?_ e h
  unfold taskFails
  repeat' first | (with_reducible first | apply FrameB.refl | apply frame_State_modAsq | apply FrameB.ite) | decide | split | dsimp only

theorem frame_pushFail x0 x1 x2 x3 s (h : FrameB m o s) (e : sub 0x402000 m) : FrameB m o (pushFail x0 x1 x2 x3 s) := by
  refine .step ?_ e h
  unfold pushFail
  repeat' first | (with_reducible first | apply FrameB.refl | apply frame_State_modLdp | apply frame_raiseLine | apply FrameB.ite) | decide | split | dsimp only

theorem frame_putStatus x0 x1 s (h : FrameB m o s) (e : sub 0x400000 m) : FrameB m o (putStatus x0 x1 s) := by
  refine .step ?_ e h
  unfold putStatus
  repeat' first | (with_reducible first | apply FrameB.refl | apply frame_State_modLdp | apply FrameB.ite) | decide | split | dsimp only

theorem frame_decodeFails x0 x1 x2 s (h : FrameB m o s) (e : sub 0x1800502100 m) : FrameB m o (decodeFails x0 x1 x2 s) := by
  refine .step ?_ e h
  unfold decodeFails
  repeat' first | (with_reducible first | apply FrameB.refl | apply frame_State_modLdp | apply frame_ev | apply frame_pushFail | apply frame_putStatus | apply frame_raiseLine | apply frame_taskFails | apply FrameB.ite) | decide | split | dsimp only

theorem frame_decodeGood x0 s (h : FrameB m o s) (e : sub 0x600000 m) : FrameB m o (decodeGood x0 s) := by
  refine .step ?_ e h
  unfold decodeGood
  repeat' first | (with_reducible first | apply FrameB.refl | apply frame_State_modRwc | apply frame_freeRetained | apply frame_putStatus | apply FrameB.ite) | decide | split | dsimp only

theorem frame_dlopCmd x0 x1 s (h : FrameB m o s) (e : sub 0x186080B1A0 m) : FrameB m o (dlopCmd x0 x1 s) := by
  refine .step ?_ e h
  unfold dlopCmd
  repeat' first | (with_reducible first | apply FrameB.refl | assumption | intro _ | apply frame_access | apply frame_writeDlop | apply FrameB.ite) | decide | split | dsimp only

theorem frame_dmaError x0 s (h : FrameB m o s) (e : sub 0x1800000180 m) : FrameB m o (dmaError x0 s) := by
  refine .step ?_ e h
  unfold dmaError
  repeat' first | (with_reducible first | apply FrameB.refl | apply frame_transferError | apply FrameB.ite) | decide | split | dsimp only

theorem frame_suppress s (h : FrameB m o s) (e : sub 0x1800000100 m) : FrameB m o (suppress s) := by
  refine .step ?_ e h
  unfold suppress
  repeat' first | (with_reducible first | apply FrameB.refl | apply frame_State_modEvr | apply frame_lifBump | apply FrameB.ite) | decide | split | dsimp only

theorem frame_storeEvent x0 s (h : FrameB m o s) (e : sub 0x5800000100 m) : FrameB m o (storeEvent x0 s) := by
  refine .step ?_ e h
  unfold storeEvent
  repeat' first | (with_reducible first | apply FrameB.refl | apply frame_State_modEvr | apply frame_storeCount | apply frame_suppress | apply FrameB.ite) | decide | split | dsimp only

theorem frame_drained s (h : FrameB m o s) (e : sub 0x5800000100 m) : FrameB m o (drained s) := by
  refine .step ?_ e h
  unfold drained
  repeat' first | (with_reducible first | apply FrameB.refl | apply frame_State_modEvr | apply frame_storeEvent | apply FrameB.ite) | decide | split | dsimp only

theorem frame_drawList x0 x1 s (h : FrameB m o s) (e : sub 0x80 m) : FrameB m o (drawList x0 x1 s).1 := by
  refine .step ?_ e h
  clear h e
  induction x0 generalizing x1 s with
  | zero => unfold drawList; exact .refl
  | succ _ ih =>
    unfold drawList
    repeat' first | (with_reducible first | apply FrameB.refl | apply frame_State_drawn | apply FrameB.ite) | ((with_reducible apply FrameB.step (ih ..)); rfl) | decide | split | dsimp only

theorem frame_durabilityLimit x0 x1 x2 s (h : FrameB m o s) (e : sub 0x1800018180 m) (k : ∀ t, FrameB m o t → FrameB m o (x2 t)) :
    FrameB m o (durabilityLimit x0 x1 x2 s) := by
  have f := fun x y t (h : FrameB m o t) => frame_finish x y t h (sub_trans e rfl)
  have g := fun a b c d q r t (h : FrameB m o t) => frame_guarantee a b c d q r t h (sub_trans e rfl)
  unfold durabilityLimit
  dsimp only
  refine .ite (f _ _ _ (.ite (g _ _ _ _ _ _ _ h) h)) (.ite (f _ _ _ (g _ _ _ _ _ _ _ h)) (.ite (f _ _ _ (g _ _ _ _ _ _ _ (frame_State_drawn _ h (sub_trans e rfl)))) (k _ h)))

theorem frame_sendFrame x0 s (h : FrameB m o s) (e : sub 0x4000002000 m) : FrameB m o (sendFrame x0 s) := by
  refine .step ?_ e h
  unfold sendFrame
  repeat' first | (with_reducible first | apply FrameB.refl | apply frame_vlkBump | apply FrameB.ite) | decide | split | dsimp only

theorem frame_refuseEnroll x0 x1 s (h : FrameB m o s) (e : sub 0x1800002100 m) : FrameB m o (refuseEnroll x0 x1 s) := by
  refine .step ?_ e h
  unfold refuseEnroll
  repeat' first | (with_reducible first | apply FrameB.refl | apply frame_ev | apply frame_raiseLine | apply FrameB.ite) | decide | split | dsimp only

theorem frame_putSlotK x0 s (h : FrameB m o s) (e : sub 0x4000002000 m) : FrameB m o (putSlotK x0 s) := by
  refine .step ?_ e h
  unfold putSlotK
  repeat' first | (with_reducible first | apply FrameB.refl | apply frame_State_modVlk | apply frame_raiseLine | apply FrameB.ite) | decide | split | dsimp only

theorem frame_takeHello x0 x1 s (h : FrameB m o s) (e : sub 0x5800002100 m) : FrameB m o (takeHello x0 x1 s) := by
  refine .step ?_ e h
  unfold takeHello
  repeat' first | (with_reducible first | apply FrameB.refl | apply frame_putSlotK | apply frame_refuseEnroll | apply frame_sendFrame | apply FrameB.ite) | decide | split | dsimp only

theorem frame_loadAllow s (h : FrameB m o s) (e : sub 0x18600031A0 m) : FrameB m o (loadAllow s) := by
  refine .step ?_ e h
  unfold loadAllow
  repeat' first | (with_reducible first | apply FrameB.refl | apply frame_engLoad | apply FrameB.ite) | decide | split | dsimp only

theorem frame_judgeLantern x0 x1 x2 x3 x4 x5 x6 x7 s (h : FrameB m o s) (e : sub 0x5800002100 m) : FrameB m o (judgeLantern x0 x1 x2 x3 x4 x5 x6 x7 s) := by
  refine .step ?_ e h
  unfold judgeLantern
  repeat' first | (with_reducible first | apply FrameB.refl | apply frame_State_modVlk | apply frame_refuseEnroll | apply frame_sendFrame | apply FrameB.ite) | decide | split | dsimp only

theorem frame_failEnroll x0 x1 x2 s (h : FrameB m o s) (e : sub 0x5800002100 m) : FrameB m o (failEnroll x0 x1 x2 s) := by
  refine .step ?_ e h
  unfold failEnroll
  repeat' first | (with_reducible first | apply FrameB.refl | apply frame_freeSlot | apply frame_refuseEnroll | apply FrameB.ite) | decide | split | dsimp only

theorem frame_slotTo x0 x1 s (h : FrameB m o s) (e : sub 0x4000002000 m) : FrameB m o (slotTo x0 x1 s) := by
  refine .step ?_ e h
  unfold slotTo
  repeat' first | (with_reducible first | apply FrameB.refl | apply frame_modSlot | apply frame_raiseLine | apply FrameB.ite) | decide | split | dsimp only

theorem frame_enrollStep x0 s (h : FrameB m o s) (e : sub 0x58600031A0 m) : FrameB m o (enrollStep x0 s) := by
  refine .step ?_ e h
  unfold enrollStep
  repeat' first | (with_reducible first | apply FrameB.refl | apply frame_State_modVlk | apply frame_ev | apply frame_failEnroll | apply frame_judgeLantern | apply frame_loadAllow | apply frame_raiseLine | apply frame_refuseEnroll | apply frame_sendFrame | apply frame_slotTo | apply frame_takeHello | apply FrameB.ite) | decide | split | dsimp only

theorem frame_takeOrd s (h : FrameB m o s) (e : sub 0x10000 m) : FrameB m o (takeOrd s) := by
  refine .step ?_ e h
  unfold takeOrd
  repeat' first | (with_reducible first | apply FrameB.refl | apply frame_State_modLgr | apply FrameB.ite) | decide | split | dsimp only

theorem frame_psBack s (h : FrameB m o s) (e : sub 0x186000F9AC m) : FrameB m o (psBack s) := by
  refine .step ?_ e h
  unfold psBack
  repeat' first | (with_reducible first | apply FrameB.refl | apply frame_State_modHce | apply frame_State_modPwr | apply frame_refreshEnds | apply frame_submitLeave | apply FrameB.ite) | decide | split | dsimp only

theorem frame_psUnwind s (h : FrameB m o s) (e : sub 0x186000F9AC m) : FrameB m o (psUnwind s) := by
  refine .step ?_ e h
  unfold psUnwind
  repeat' first | (with_reducible first | apply FrameB.refl | apply frame_State_drawn | apply frame_State_modPwr | apply frame_ev | apply frame_psBack | apply FrameB.ite) | decide | split | dsimp only

theorem frame_psFetched x0 x1 s (h : FrameB m o s) (e : sub 0x18880 m) : FrameB m o (psFetched x0 x1 s) := by
  refine .step ?_ e h
  unfold psFetched
  repeat' first | (with_reducible first | apply FrameB.refl | apply frame_State_modPwr | apply frame_finishDw | apply FrameB.ite) | decide | split | dsimp only

theorem frame_fetchEffects x0 s (h : FrameB m o s) (e : sub 0x18880 m) : FrameB m o (fetchEffects x0 s) := by
  refine .step ?_ e h
  unfold fetchEffects
  repeat' first | (with_reducible first | apply FrameB.refl | apply frame_State_modCtrl | apply frame_finish | apply frame_psFetched | apply FrameB.ite) | decide | split | dsimp only

theorem frame_enterCmd x0 x1 x2 x3 x4 s (h : FrameB m o s) (e : sub 0x18E003F9AC m) : FrameB m o (enterCmd x0 x1 x2 x3 x4 s) := by
  refine .step ?_ e h
  unfold enterCmd
  repeat' first | (with_reducible first | apply FrameB.refl | apply frame_State_modHce | apply frame_fetchEffects | apply frame_psUnwind | apply frame_startCmd | apply frame_takeOrd | apply FrameB.ite) | decide | split | dsimp only

theorem frame_psEntered x0 s (h : FrameB m o s) (e : sub 0x18880 m) : FrameB m o (psEntered x0 s) := by
  refine .step ?_ e h
  unfold psEntered
  repeat' first | (with_reducible first | apply FrameB.refl | apply frame_psReached | apply FrameB.ite) | decide | split | dsimp only

theorem frame_enterDim s (h : FrameB m o s) (e : sub 0x1800018980 m) : FrameB m o (enterDim s) := by
  refine .step ?_ e h
  unfold enterDim
  repeat' first | (with_reducible first | apply FrameB.refl | apply frame_State_modPwr | apply frame_ev | apply frame_psEntered | apply FrameB.ite) | decide | split | dsimp only

theorem frame_enterGlow s (h : FrameB m o s) (e : sub 0x1800018D90 m) : FrameB m o (enterGlow s) := by
  refine .step ?_ e h
  unfold enterGlow
  repeat' first | (with_reducible first | apply FrameB.refl | apply frame_State_modPwr | apply frame_clocksGlow | apply frame_ev | apply frame_psEntered | apply FrameB.ite) | decide | split | dsimp only

theorem frame_enterRectify s (h : FrameB m o s) (e : sub 0x1A1FB2A180 m) : FrameB m o (enterRectify s) := by
  refine .step ?_ e h
  unfold enterRectify
  repeat' first | (with_reducible first | apply FrameB.refl | apply frame_State_modSpn | apply frame_driveStep | apply frame_unloadEntry | apply FrameB.ite) | decide | split | dsimp only

theorem frame_mcFault x0 x1 s (h : FrameB m o s) (e : sub 0x1A6D30F1A0 m) : FrameB m o (mcFault x0 x1 s) := by
  refine .step ?_ e h
  unfold mcFault
  repeat' first | (with_reducible first | apply FrameB.refl | apply frame_State_modAsq | apply frame_asqLine | apply frame_ev | apply frame_taskEnd | apply FrameB.ite) | decide | split | dsimp only

theorem frame_fallThrough x0 s (h : FrameB m o s) (e : sub 0x1A6D30F1A0 m) : FrameB m o (fallThrough x0 s) := by
  refine .step ?_ e h
  unfold fallThrough
  repeat' first | (with_reducible first | apply FrameB.refl | apply frame_complete | apply frame_mcFault | apply FrameB.ite) | decide | split | dsimp only

theorem frame_feedForward x0 x1 x2 s (h : FrameB m o s) (e : sub 0x202080 m) : FrameB m o (feedForward x0 x1 x2 s) := by
  refine .step ?_ e h
  unfold feedForward
  repeat' first | (with_reducible first | apply FrameB.refl | apply frame_State_drawn | apply frame_State_modRwc | apply frame_rwcBump | apply FrameB.ite) | decide | split | dsimp only

theorem frame_takeLevels x0 x1 s (h : FrameB m o s) (e : sub 0x204300080 m) : FrameB m o (takeLevels x0 x1 s).1 := by
  refine .step ?_ e h
  unfold takeLevels
  repeat' first | (with_reducible first | apply FrameB.refl | apply frame_State_modAsq | apply frame_State_modRwc | apply frame_adaptRun | apply frame_gatesFollow | apply frame_preampMode | apply FrameB.ite) | fail_if_no_progress ((with_reducible apply FrameB.set_trm); rfl) | decide | split | dsimp only

theorem frame_sectAdv x0 s (h : FrameB m o s) (e : sub 0x1860B031A0 m) : FrameB m o (sectAdv x0 s) := by
  refine .step ?_ e h
  unfold sectAdv
  repeat' first | (with_reducible first | apply FrameB.refl | apply frame_State_modAsq | apply frame_State_modRwc | apply frame_buildSkip | apply FrameB.ite) | decide | split | dsimp only

theorem frame_statPulse x0 s (h : FrameB m o s) (e : sub 0x202080 m) : FrameB m o (statPulse x0 s) := by
  refine .step ?_ e h
  unfold statPulse
  repeat' first | (with_reducible first | apply FrameB.refl | apply frame_State_drawn | apply frame_State_modRwc | apply frame_rwcBump | apply FrameB.ite) | decide | split | dsimp only

theorem frame_sectSkip x0 s (h : FrameB m o s) (e : sub 0x100000 m) : FrameB m o (sectSkip x0 s) := by
  refine .step ?_ e h
  unfold sectSkip
  repeat' first | (with_reducible first | apply FrameB.refl | apply frame_State_modAsq | apply FrameB.ite) | decide | split | dsimp only

theorem frame_tpeEmit x0 s (h : FrameB m o s) (e : sub 0x900000 m) : FrameB m o (tpeEmit x0 s) := by
  refine .step ?_ e h
  unfold tpeEmit
  repeat' first | (with_reducible first | apply FrameB.refl | apply frame_State_modAsq | apply frame_dropGroup | apply FrameB.ite) | fail_if_no_progress ((with_reducible apply FrameB.set_tpe); rfl) | decide | split | dsimp only

theorem frame_tpeAcc x0 s (h : FrameB m o s) (e : sub 0x800080 m) : FrameB m o (tpeAcc x0 s) := by
  refine .step ?_ e h
  unfold tpeAcc
  repeat' first | (with_reducible first | apply FrameB.refl | apply frame_State_drawn | apply frame_State_modGrp | apply FrameB.ite) | decide | split | dsimp only

theorem frame_setLastFail x0 x1 s (h : FrameB m o s) (e : sub 0x400000 m) : FrameB m o (setLastFail x0 x1 s) := by
  refine .step ?_ e h
  unfold setLastFail
  repeat' first | (with_reducible first | apply FrameB.refl | apply frame_State_modLdp | apply FrameB.ite) | decide | split | dsimp only

theorem frame_submitWord x0 x1 x2 s (h : FrameB m o s) (e : sub 0x502080 m) : FrameB m o (submitWord x0 x1 x2 s) := by
  refine .step ?_ e h
  unfold submitWord
  repeat' first | (with_reducible first | apply FrameB.refl | apply frame_State_drawn | apply frame_State_modLdp | apply frame_countDone | apply frame_ldpBump | apply frame_ldpRun | apply frame_pushFail | apply frame_putStatus | apply frame_setLastFail | apply frame_taskFails | apply FrameB.ite) | decide | split | dsimp only

theorem frame_submitCodeword x0 x1 s (h : FrameB m o s) (e : sub 0x502080 m) : FrameB m o (submitCodeword x0 x1 s) := by
  refine .step ?_ e h
  unfold submitCodeword
  repeat' first | (with_reducible first | apply FrameB.refl | apply frame_State_modLdp | apply frame_submitWord | apply FrameB.foldl (fun _ _ => ?_) | apply FrameB.ite) | decide | split | dsimp only

theorem frame_ldpSubmit x0 s (h : FrameB m o s) (e : sub 0x502080 m) : FrameB m o (ldpSubmit x0 s) := by
  refine .step ?_ e h
  unfold ldpSubmit
  repeat' first | (with_reducible first | apply FrameB.refl | apply frame_submitCodeword | apply FrameB.ite) | decide | split | dsimp only

theorem frame_noMark x0 x1 s (h : FrameB m o s) (e : sub 0x300000 m) : FrameB m o (noMark x0 x1 s) := by
  refine .step ?_ e h
  unfold noMark
  repeat' first | (with_reducible first | apply FrameB.refl | apply frame_State_modRwc | apply frame_waitComes | apply FrameB.ite) | decide | split | dsimp only

theorem frame_smSearch x0 s (h : FrameB m o s) (e : sub 0x302000 m) : FrameB m o (smSearch x0 s) := by
  refine .step ?_ e h
  unfold smSearch
  repeat' first | (with_reducible first | apply FrameB.refl | apply frame_State_modRwc | apply frame_noMark | apply frame_rwcBump | apply FrameB.ite) | decide | split | dsimp only

theorem frame_retractPulse x0 s (h : FrameB m o s) (e : sub 0x11000100 m) : FrameB m o (retractPulse x0 s) := by
  refine .step ?_ e h
  unfold retractPulse
  repeat' first | (with_reducible first | apply FrameB.refl | apply frame_State_modSve | apply frame_setFocused | apply FrameB.ite) | decide | split | dsimp only

theorem frame_loadPulse x0 s (h : FrameB m o s) (e : sub 0x11102000 m) : FrameB m o (loadPulse x0 s) := by
  refine .step ?_ e h
  unfold loadPulse
  repeat' first | (with_reducible first | apply FrameB.refl | apply frame_State_modSve | apply frame_seekRefused | apply frame_sweepStart | apply FrameB.ite) | decide | split | dsimp only

theorem frame_optSeekGo x0 s (h : FrameB m o s) (e : sub 0x1811102100 m) : FrameB m o (optSeekGo x0 s) := by
  refine .step ?_ e h
  unfold optSeekGo
  repeat' first | (with_reducible first | apply FrameB.refl | apply frame_State_modPu | apply frame_State_modSve | apply frame_layerPhase | apply frame_seekRefused | apply frame_sledFail | apply frame_trackPhase | apply FrameB.ite) | decide | split | dsimp only

theorem frame_seekGo x0 x1 s (h : FrameB m o s) (e : sub 0x1000000 m) : FrameB m o (seekGo x0 x1 s) := by
  refine .step ?_ e h
  unfold seekGo
  repeat' first | (with_reducible first | apply FrameB.refl | apply frame_State_modSve | apply FrameB.ite) | decide | split | dsimp only

theorem frame_pulseSeek x0 s (h : FrameB m o s) (e : sub 0x1811102100 m) : FrameB m o (pulseSeek x0 s) := by
  refine .step ?_ e h
  unfold pulseSeek
  repeat' first | (with_reducible first | apply FrameB.refl | apply frame_optSeekGo | apply frame_seekGo | apply FrameB.ite) | decide | split | dsimp only

theorem frame_loadDemod x0 x1 s (h : FrameB m o s) (e : sub 0x18610031A0 m) : FrameB m o (loadDemod x0 x1 s) := by
  refine .step ?_ e h
  unfold loadDemod
  repeat' first | (with_reducible first | apply FrameB.refl | apply frame_State_modSve | apply frame_engLoad | apply FrameB.ite) | decide | split | dsimp only

theorem frame_headSwitch x0 s (h : FrameB m o s) (e : sub 0x1810100100 m) : FrameB m o (headSwitch x0 s) := by
  refine .step ?_ e h
  unfold headSwitch
  repeat' first | (with_reducible first | apply FrameB.refl | apply frame_State_modAsq | apply frame_State_modPu | apply frame_ev | apply FrameB.ite) | decide | split | dsimp only

theorem frame_pulseHead x0 s (h : FrameB m o s) (e : sub 0x18711031A0 m) : FrameB m o (pulseHead x0 s) := by
  refine .step ?_ e h
  unfold pulseHead
  repeat' first | (with_reducible first | apply FrameB.refl | apply frame_headSwitch | apply frame_loadDemod | apply FrameB.ite) | decide | split | dsimp only

theorem frame_pulses x0 x1 s (h : FrameB m o s) (e : sub 0x1871F031A0 m) : FrameB m o (pulses x0 x1 s) := by
  refine .step ?_ e h
  have on : ∀ (k : Nat) (f : State → State) (t : State), (∀ u, FrameB 0x1871F031A0 u (f u)) → FrameB 0x1871F031A0 s t →
      FrameB 0x1871F031A0 s (if x1.testBit k then f t else t) := by
    intro k f t hf ht; split
    · exact .step (hf t) rfl ht
    · exact ht
  unfold pulses
  exact (on 8 _ _ (fun u => by repeat first | apply frame_asqLine | exact .refl | decide) (on 11 _ _ (fun u => by repeat first | apply frame_sectAdv | exact .refl | decide) (on 9 _ _ (fun u => by repeat first | apply frame_statPulse | exact .refl | decide) (on 10 _ _ (fun u => by repeat first | apply frame_sectSkip | exact .refl | decide) (on 12 _ _ (fun u => by repeat first | apply frame_tpeEmit | exact .refl | decide) (on 13 _ _ (fun u => by repeat first | apply frame_tpeAcc | exact .refl | decide) (on 14 _ _ (fun u => by repeat first | apply frame_ldpSubmit | exact .refl | decide) (on 15 _ _ (fun u => by repeat first | apply frame_bufWr | exact .refl | decide) (on 16 _ _ (fun u => by repeat first | apply frame_bufRd | exact .refl | decide) (on 17 _ _ (fun u => by repeat first | apply frame_blindPulse | exact .refl | decide) (on 18 _ _ (fun u => by repeat first | apply frame_smSearch | exact .refl | decide) (on 19 _ _ (fun u => by repeat first | apply frame_clkPrime | exact .refl | decide) (on 20 _ _ (fun u => by repeat first | apply frame_retractPulse | exact .refl | decide) (on 21 _ _ (fun u => by repeat first | apply frame_loadPulse | exact .refl | decide) (on 22 _ _ (fun u => by repeat first | apply frame_pulseSeek | exact .refl | decide) (on 23 _ _ (fun u => by repeat first | apply frame_pulseHead | exact .refl | decide) .refl))))))))))))))))

theorem frame_rwcUnitgo x0 x1 s (h : FrameB m o s) (e : sub 0x200000 m) : FrameB m o (rwcUnitgo x0 x1 s) := by
  refine .step ?_ e h
  unfold rwcUnitgo
  repeat' first | (with_reducible first | apply FrameB.refl | apply frame_State_modRwc | apply frame_applyLoad | apply FrameB.ite) | decide | split | dsimp only

theorem frame_lsrUnitgo x0 x1 x2 s (h : FrameB m o s) (e : sub 0x186C0031A0 m) : FrameB m o (lsrUnitgo x0 x1 x2 s) := by
  refine .step ?_ e h
  unfold lsrUnitgo
  repeat' first | (with_reducible first | apply FrameB.refl | apply frame_State_modLaser | apply frame_engLoad | apply frame_ev | apply frame_psiQueue | apply FrameB.ite) | decide | split | dsimp only

theorem frame_psiUnitgo x0 x1 s (h : FrameB m o s) (e : sub 0x4000000 m) : FrameB m o (psiUnitgo x0 x1 s) := by
  refine .step ?_ e h
  unfold psiUnitgo
  repeat' first | (with_reducible first | apply FrameB.refl | apply frame_psiQueue | apply FrameB.ite) | decide | split | dsimp only

theorem frame_ldpUnitgo x0 x1 s (h : FrameB m o s) (e : sub 0x100000 m) : FrameB m o (ldpUnitgo x0 x1 s) := by
  refine .step ?_ e h
  unfold ldpUnitgo
  repeat' first | (with_reducible first | apply FrameB.refl | apply frame_State_modAsq | apply FrameB.ite) | decide | split | dsimp only

theorem frame_tpeUnitgo x0 x1 s (h : FrameB m o s) (e : sub 0x800000 m) : FrameB m o (tpeUnitgo x0 x1 s) := by
  refine .step ?_ e h
  unfold tpeUnitgo
  repeat' first | (with_reducible first | apply FrameB.refl | apply frame_State_modGrp | apply FrameB.ite) | decide | split | dsimp only

theorem frame_trmUnitgo x0 x1 s (h : FrameB m o s) (e : sub 0x200000000 m) : FrameB m o (trmUnitgo x0 x1 s) := by
  refine .step ?_ e h
  unfold trmUnitgo
  repeat' first | (with_reducible first | apply FrameB.refl | apply FrameB.ite) | fail_if_no_progress ((with_reducible apply FrameB.set_trm); rfl) | decide | split | dsimp only

theorem frame_unitgo x0 x1 x2 s (h : FrameB m o s) (e : sub 0x1A6DB031A0 m) : FrameB m o (unitgo x0 x1 x2 s) := by
  refine .step ?_ e h
  unfold unitgo
  repeat' first | (with_reducible first | apply FrameB.refl | apply frame_State_modAsq | apply frame_State_modSve | apply frame_ldpUnitgo | apply frame_lsrUnitgo | apply frame_psiUnitgo | apply frame_rwcUnitgo | apply frame_tpeUnitgo | apply frame_trmUnitgo | apply frame_waitComes | apply FrameB.ite) | decide | split | dsimp only

theorem frame_preheatRise x0 s (h : FrameB m o s) (e : sub 0x186C0031A0 m) : FrameB m o (preheatRise x0 s) := by
  refine .step ?_ e h
  unfold preheatRise
  repeat' first | (with_reducible first | apply FrameB.refl | apply frame_State_modLaser | apply frame_engLoad | apply frame_ev | apply frame_psiQueue | apply FrameB.ite) | decide | split | dsimp only

theorem frame_takePreheat x0 x1 x2 s (h : FrameB m o s) (e : sub 0x186C0031A0 m) : FrameB m o (takePreheat x0 x1 x2 s) := by
  refine .step ?_ e h
  unfold takePreheat
  repeat' first | (with_reducible first | apply FrameB.refl | apply frame_preheatFall | apply frame_preheatRise | apply FrameB.ite) | decide | split | dsimp only

theorem frame_issueWord x0 x1 x2 s (h : FrameB m o s) (e : sub 0x1A7DF031A0 m) : FrameB m o (issueWord x0 x1 x2 s) := by
  refine .step ?_ e h
  unfold issueWord
  repeat' first | (with_reducible first | apply FrameB.refl | apply frame_State_modAsq | apply frame_asqFault | apply frame_ev | apply frame_pulses | apply frame_takeLevels | apply frame_takePreheat | apply frame_unitgo | apply FrameB.ite) | decide | split | dsimp only

theorem frame_fetchIssue x0 s (h : FrameB m o s) (e : sub 0x1A7DF0F1A0 m) : FrameB m o (fetchIssue x0 s) := by
  refine .step ?_ e h
  unfold fetchIssue
  repeat' first | (with_reducible first | apply FrameB.refl | apply frame_State_modAsq | apply frame_issueWord | apply frame_mcFault | apply FrameB.ite) | decide | split | dsimp only

theorem frame_modSq x0 x1 x2 s (h : FrameB m o s) (e : sub 0x8000 m) : FrameB m o (modSq x0 x1 x2 s) := by
  refine .step ?_ e h
  unfold modSq
  repeat' first | (with_reducible first | apply FrameB.refl | apply frame_State_modCtrl | apply FrameB.ite) | decide | split | dsimp only

theorem frame_fetchNext x0 s (h : FrameB m o s) (e : sub 0x18E003F9AC m) : FrameB m o (fetchNext x0 s) := by
  refine .step ?_ e h
  unfold fetchNext
  repeat' first | (with_reducible first | apply FrameB.refl | apply frame_State_modHce | apply frame_beginTurn | apply frame_checkPause | apply frame_enterCmd | apply frame_ev | apply frame_modSq | apply frame_raiseLine | apply FrameB.ite) | decide | split | dsimp only

theorem frame_ladderResult x0 x1 x2 s (h : FrameB m o s) (e : sub 0x180040A100 m) : FrameB m o (ladderResult x0 x1 x2 s) := by
  refine .step ?_ e h
  unfold ladderResult
  repeat' first | (with_reducible first | apply FrameB.refl | apply frame_ev | apply frame_healthAdd | apply frame_ldpBump | apply FrameB.ite) | decide | split | dsimp only

theorem frame_finishCodeword x0 x1 x2 s (h : FrameB m o s) (e : sub 0x181070A100 m) : FrameB m o (finishCodeword x0 x1 x2 s) := by
  refine .step ?_ e h
  unfold finishCodeword
  repeat' first | (with_reducible first | apply FrameB.refl | apply frame_decodeFails | apply frame_decodeGood | apply frame_ev | apply frame_ladderResult | apply frame_ldpBump | apply frame_optBump | apply frame_raiseLine | apply frame_setLastFail | apply FrameB.ite) | decide | split | dsimp only

theorem frame_finishPart x0 x1 x2 x3 s (h : FrameB m o s) (e : sub 0x181070A100 m) : FrameB m o (finishPart x0 x1 x2 x3 s) := by
  refine .step ?_ e h
  unfold finishPart
  repeat' first | (with_reducible first | apply FrameB.refl | apply frame_State_modLdp | apply frame_finishCodeword | apply FrameB.foldl (fun _ _ => ?_) | apply FrameB.ite) | decide | split | dsimp only

theorem frame_finishWord x0 x1 x2 s (h : FrameB m o s) (e : sub 0x181070A100 m) : FrameB m o (finishWord x0 x1 x2 s) := by
  refine .step ?_ e h
  unfold finishWord
  repeat' first | (with_reducible first | apply FrameB.refl | apply frame_finishCodeword | apply frame_finishPart | apply FrameB.ite) | decide | split | dsimp only

theorem frame_zeroSlot x0 s (h : FrameB m o s) (e : sub 0x80000000 m) : FrameB m o (zeroSlot x0 s) := by
  refine .step ?_ e h
  unfold zeroSlot
  repeat' first | (with_reducible first | apply FrameB.refl | apply frame_State_modSec | apply FrameB.ite) | decide | split | dsimp only

theorem frame_setNsKey x0 x1 x2 s (h : FrameB m o s) (e : sub 0x80000000 m) : FrameB m o (setNsKey x0 x1 x2 s) := by
  refine .step ?_ e h
  unfold setNsKey
  repeat' first | (with_reducible first | apply FrameB.refl | apply frame_State_modSec | apply FrameB.ite) | decide | split | dsimp only

theorem frame_putSlot x0 s (h : FrameB m o s) (e : sub 0x80000000 m) : FrameB m o (putSlot x0 s) := by
  refine .step ?_ e h
  unfold putSlot
  repeat' first | (with_reducible first | apply FrameB.refl | apply frame_State_modSec | apply FrameB.ite) | decide | split | dsimp only

theorem frame_newKey x0 x1 x2 x3 s (h : FrameB m o s) (e : sub 0x80000080 m) : FrameB m o (newKey x0 x1 x2 x3 s) := by
  refine .step ?_ e h
  unfold newKey
  repeat' first | (with_reducible first | apply FrameB.refl | apply frame_State_drawn | apply frame_putSlot | apply FrameB.ite) | decide | split | dsimp only

theorem frame_storeRecords x0 s (h : FrameB m o s) (e : sub 0x80000000 m) : FrameB m o (storeRecords x0 s) := by
  refine .step ?_ e h
  unfold storeRecords
  repeat' first | (with_reducible first | apply FrameB.refl | apply frame_State_modSec | apply FrameB.ite) | decide | split | dsimp only

theorem frame_replaceKey x0 s (h : FrameB m o s) (e : sub 0x80000080 m) : FrameB m o (replaceKey x0 s) := by
  refine .step ?_ e h
  unfold replaceKey
  repeat' first | (with_reducible first | apply FrameB.refl | apply frame_State_modSec | apply frame_newKey | apply frame_setNsKey | apply frame_storeRecords | apply frame_zeroSlot | apply FrameB.foldl (fun _ _ => ?_) | apply FrameB.ite) | decide | split | dsimp only

theorem frame_formatDone x0 x1 s (h : FrameB m o s) (e : sub 0x80028080 m) : FrameB m o (formatDone x0 x1 s) := by
  refine .step ?_ e h
  unfold formatDone
  repeat' first | (with_reducible first | apply FrameB.refl | apply frame_State_modHce | apply frame_State_modXmt | apply frame_replaceKey | apply FrameB.ite) | decide | split | dsimp only

theorem frame_frameUsed x0 x1 x2 x3 s (h : FrameB m o s) (e : sub 0xC102000 m) : FrameB m o (frameUsed x0 x1 x2 x3 s) := by
  refine .step ?_ e h
  unfold frameUsed
  repeat' first | (with_reducible first | apply FrameB.refl | apply frame_State_modLaser | apply frame_State_modPsi | apply frame_raiseLine | apply frame_waitComes | apply FrameB.ite) | decide | split | dsimp only

theorem frame_freeSlots x0 s (h : FrameB m o s) (e : sub 0x20000 m) : FrameB m o (freeSlots x0 s) := by
  refine .step ?_ e h
  unfold freeSlots
  repeat' first | (with_reducible first | apply FrameB.refl | apply frame_State_modXmt | apply FrameB.ite) | decide | split | dsimp only

theorem frame_gatesAllOff s (h : FrameB m o s) (e : sub 0xCB22000 m) : FrameB m o (gatesAllOff s) := by
  refine .step ?_ e h
  unfold gatesAllOff
  repeat' first | (with_reducible first | apply FrameB.refl | apply frame_gatesOff | apply FrameB.foldl (fun _ _ => ?_) | apply FrameB.ite) | decide | split | dsimp only

theorem frame_gatesLow s (h : FrameB m o s) (e : sub 0x2000000 m) : FrameB m o (gatesLow s) := by
  refine .step ?_ e h
  unfold gatesLow
  repeat' first | (with_reducible first | apply FrameB.refl | apply frame_State_modSpn | apply FrameB.ite) | decide | split | dsimp only

theorem frame_giveData x0 x1 s (h : FrameB m o s) (e : sub 0x8000 m) : FrameB m o (giveData x0 x1 s) := by
  refine .step ?_ e h
  unfold giveData
  repeat' first | (with_reducible first | apply FrameB.refl | apply frame_State_modCtrl | apply FrameB.ite) | decide | split | dsimp only

theorem frame_grantLease x0 s (h : FrameB m o s) (e : sub 0x4000000000 m) : FrameB m o (grantLease x0 s) := by
  refine .step ?_ e h
  unfold grantLease
  repeat' first | (with_reducible first | apply FrameB.refl | apply frame_modSlot | apply FrameB.ite) | decide | split | dsimp only

theorem frame_hdrAccess x0 x1 x2 s (h : FrameB m o s) (e : sub 0x1800000100 m) (k0 : ∀ a b t, FrameB m o t → FrameB m o (x2 a b t)) : FrameB m o (hdrAccess x0 x1 x2 s) := by
  unfold hdrAccess
  repeat' first | assumption | (with_reducible first | assumption | intro _ | apply frame_access | apply FrameB.ite | apply k0) | (with_reducible apply sub_trans (h := e); decide) | (with_reducible apply frame_State_modVlk) | split | dsimp only [id]

theorem frame_healSector x0 s (h : FrameB m o s) (e : sub 0x20000 m) : FrameB m o (healSector x0 s) := by
  refine .step ?_ e h
  unfold healSector
  repeat' first | (with_reducible first | apply FrameB.refl | apply FrameB.ite) | fail_if_no_progress ((with_reducible apply FrameB.set_xmt); rfl) | decide | split | dsimp only

theorem frame_holdSample x0 x1 s (h : FrameB m o s) (e : sub 0x1002000 m) : FrameB m o (holdSample x0 x1 s).1 := by
  refine .step ?_ e h
  unfold holdSample
  repeat' first | (with_reducible first | apply FrameB.refl | apply frame_State_modSve | apply frame_sveBump | apply FrameB.ite) | decide | split | dsimp only

theorem frame_hsmaBump x0 x1 s (h : FrameB m o s) (e : sub 0x202000 m) : FrameB m o (hsmaBump x0 x1 s) := by
  refine .step ?_ e h
  unfold hsmaBump
  repeat' first | (with_reducible first | apply FrameB.refl | apply frame_State_modRwc | apply frame_rwcLine | apply FrameB.ite) | decide | split | dsimp only

theorem frame_wakeRecord x0 x1 s (h : FrameB m o s) (e : sub 0x1800000900 m) : FrameB m o (wakeRecord x0 x1 s) := by
  refine .step ?_ e h
  unfold wakeRecord
  repeat' first | (with_reducible first | apply FrameB.refl | apply frame_State_modPwr | apply frame_ev | apply FrameB.ite) | decide | split | dsimp only

theorem frame_startCore x0 s (h : FrameB m o s) (e : sub 0x18E00BAFB0 m) : FrameB m o (startCore x0 s) := by
  refine .step ?_ e h
  unfold startCore
  repeat' first | (with_reducible first | apply FrameB.refl | apply frame_State_modPwr | apply frame_State_modSys | apply frame_coldStart | apply FrameB.ite) | decide | split | dsimp only

theorem frame_wakeFrom x0 x1 x2 s (h : FrameB m o s) (e : sub 0x1CE00BEFB0 m) : FrameB m o (wakeFrom x0 x1 x2 s) := by
  refine .step ?_ e h
  unfold wakeFrom
  repeat' first | (with_reducible first | apply FrameB.refl | apply frame_State_modHce | apply frame_clocksWake | apply frame_powerLit | apply frame_startCore | apply frame_wakeRecord | apply FrameB.ite) | fail_if_no_progress ((with_reducible apply FrameB.set_sup); rfl) | decide | split | dsimp only

theorem frame_wakeAct x0 x1 s (h : FrameB m o s) (e : sub 0x1CE00BFFBC m) : FrameB m o (wakeAct x0 x1 s) := by
  refine .step ?_ e h
  unfold wakeAct
  repeat' first | (with_reducible first | apply FrameB.refl | apply frame_unwindEntry | apply frame_wakeFrom | apply FrameB.ite) | decide | split | dsimp only

theorem frame_wakeNoted s (h : FrameB m o s) (e : sub 0x1CE00BFFBC m) : FrameB m o (wakeNoted s) := by
  refine .step ?_ e h
  unfold wakeNoted
  repeat' first | (with_reducible first | apply FrameB.refl | apply frame_State_drawn | apply frame_wakeAct | apply FrameB.ite) | decide | split | dsimp only

theorem frame_idle s (h : FrameB m o s) (e : sub 0x7CE00FFFBE m) : FrameB m o (idle s) := by
  refine .step ?_ e h
  unfold idle
  repeat' first | (with_reducible first | apply FrameB.refl | apply frame_autonomousPs | apply frame_backgroundErase | apply frame_elapse | apply frame_wakeNoted | apply FrameB.ite) | decide | split | dsimp only

theorem frame_irqTake x0 s (h : FrameB m o s) (e : sub 0x2004 m) : FrameB m o (irqTake x0 s) := by
  refine .step ?_ e h
  unfold irqTake
  repeat' first | (with_reducible first | apply FrameB.refl | apply FrameB.ite) | fail_if_no_progress ((with_reducible apply FrameB.set_busData_irq); rfl) | fail_if_no_progress ((with_reducible apply FrameB.set_busData); rfl) | fail_if_no_progress ((with_reducible apply FrameB.set_irq); rfl) | decide | split | dsimp only

theorem frame_mediaPut x0 x1 s (h : FrameB m o s) (e : sub 0x20000 m) : FrameB m o (mediaPut x0 x1 s) := by
  refine .step ?_ e h
  unfold mediaPut
  repeat' first | (with_reducible first | apply FrameB.refl | apply frame_State_modXmt | apply FrameB.ite) | decide | split | dsimp only

theorem frame_writeRepair x0 x1 x2 s (h : FrameB m o s) (e : sub 0x1880030100 m) : FrameB m o (writeRepair x0 x1 x2 s) := by
  refine .step ?_ e h
  unfold writeRepair
  repeat' first | (with_reducible first | apply FrameB.refl | apply frame_addUse | apply frame_mediaPut | apply frame_putRun | apply frame_releaseReader | apply FrameB.ite) | decide | split | dsimp only

theorem frame_writeCopy x0 x1 x2 s (h : FrameB m o s) (e : sub 0x1880030100 m) : FrameB m o (writeCopy x0 x1 x2 s) := by
  refine .step ?_ e h
  unfold writeCopy
  repeat' first | (with_reducible first | apply FrameB.refl | apply frame_addUse | apply frame_mediaPut | apply frame_modEntry | apply frame_writeRepair | apply FrameB.foldl (fun _ _ => ?_) | apply FrameB.ite) | decide | split | dsimp only

theorem frame_startRewrite_releasePins x0 s (h : FrameB m o s) (e : sub 0x10000 m) : FrameB m o (startRewrite.releasePins x0 s) := by
  refine .step ?_ e h
  unfold startRewrite.releasePins
  repeat' first | (with_reducible first | apply FrameB.refl | apply frame_State_modLgr | apply FrameB.ite) | decide | split | dsimp only

theorem frame_startRewrite x0 s (h : FrameB m o s) (e : sub 0x180003A100 m) : FrameB m o (startRewrite x0 s) := by
  refine .step ?_ e h
  unfold startRewrite
  repeat' first | (with_reducible first | apply FrameB.refl | apply frame_State_modXmt | apply frame_addEntry | apply frame_checkPause | apply frame_selectRange | apply frame_startRewrite_releasePins | apply frame_takeOrd | apply FrameB.ite) | decide | split | dsimp only

theorem frame_startRewrites s (h : FrameB m o s) (e : sub 0x180003A100 m) : FrameB m o (startRewrites s) := by
  refine .step ?_ e h
  unfold startRewrites
  repeat' first | (with_reducible first | apply FrameB.refl | apply frame_State_modXmt | apply frame_startRewrite | apply FrameB.foldl (fun _ _ => ?_) | apply FrameB.ite) | decide | split | dsimp only

theorem frame_supersede x0 s (h : FrameB m o s) (e : sub 0x10000 m) : FrameB m o (supersede x0 s) := by
  refine .step ?_ e h
  unfold supersede
  repeat' first | (with_reducible first | apply FrameB.refl | apply frame_State_modLgr | apply FrameB.ite) | decide | split | dsimp only

theorem frame_zoneChange x0 s (h : FrameB m o s) (e : sub 0x20000 m) : FrameB m o (zoneChange x0 s) := by
  refine .step ?_ e h
  unfold zoneChange
  repeat' first | (with_reducible first | apply FrameB.refl | apply frame_journalZone | apply frame_modZone | apply FrameB.ite) | decide | split | dsimp only

theorem frame_logWrite x0 x1 s (h : FrameB m o s) (e : sub 0x1800030100 m) : FrameB m o (logWrite x0 x1 s) := by
  refine .step ?_ e h
  unfold logWrite
  repeat' first | (with_reducible first | apply FrameB.refl | apply frame_addRuns | apply frame_supersede | apply frame_zoneChange | apply FrameB.ite) | decide | split | dsimp only

theorem frame_logAll x0 s (h : FrameB m o s) (e : sub 0x1800030100 m) : FrameB m o (logAll x0 s) := by
  refine .step ?_ e h
  clear h e
  induction x0 generalizing s with
  | nil => unfold logAll; exact .refl
  | cons _ _ ih =>
    unfold logAll
    repeat' first | (with_reducible first | apply FrameB.refl | apply frame_logWrite | apply FrameB.ite) | ((with_reducible apply FrameB.step (ih ..)); rfl) | decide | split | dsimp only

theorem frame_logOrd x0 s (h : FrameB m o s) (e : sub 0x1800030100 m) : FrameB m o (logOrd x0 s) := by
  refine .step ?_ e h
  unfold logOrd
  repeat' first | (with_reducible first | apply FrameB.refl | apply frame_logAll | apply frame_modEntry | apply FrameB.ite) | decide | split | dsimp only

theorem frame_logReady s (h : FrameB m o s) (e : sub 0x1800030100 m) : FrameB m o (logReady s) := by
  refine .step ?_ e h
  unfold logReady
  repeat' first | (with_reducible first | apply FrameB.refl | apply frame_logOrd | apply FrameB.foldl (fun _ _ => ?_) | apply FrameB.ite) | decide | split | dsimp only

theorem frame_journalBlock x0 s (h : FrameB m o s) (e : sub 0x188007A100 m) : FrameB m o (journalBlock x0 s) := by
  refine .step ?_ e h
  unfold journalBlock
  repeat' first | (with_reducible first | apply FrameB.refl | apply frame_blockDurable | apply frame_logReady | apply frame_settleJournal | apply frame_startRewrites | apply frame_writeCopy | apply FrameB.foldl (fun _ _ => ?_) | apply FrameB.ite) | decide | split | dsimp only

theorem frame_laserFault x0 x1 s (h : FrameB m o s) (e : sub 0x1A0CB22180 m) : FrameB m o (laserFault x0 x1 s) := by
  refine .step ?_ e h
  unfold laserFault
  repeat' first | (with_reducible first | apply FrameB.refl | apply frame_State_modLaser | apply frame_ev | apply frame_faultDecision | apply frame_laserToBias | apply frame_raiseLine | apply FrameB.ite) | decide | split | dsimp only

theorem frame_judgeReading x0 x1 s (h : FrameB m o s) (e : sub 0x1A0CB22180 m) : FrameB m o (judgeReading x0 x1 s) := by
  refine .step ?_ e h
  unfold judgeReading
  repeat' first | (with_reducible first | apply FrameB.refl | apply frame_State_modLaser | apply frame_laserFault | apply frame_waitComes | apply FrameB.ite) | decide | split | dsimp only

theorem frame_judgeSample x0 x1 s (h : FrameB m o s) (e : sub 0x1801102100 m) : FrameB m o (judgeSample x0 x1 s) := by
  refine .step ?_ e h
  unfold judgeSample
  repeat' first | (with_reducible first | apply FrameB.refl | apply frame_State_modSve | apply frame_seekEnd | apply frame_sveLine | apply frame_waitComes | apply FrameB.ite) | decide | split | dsimp only

theorem frame_jumpSample x0 x1 s (h : FrameB m o s) (e : sub 0x1811102100 m) : FrameB m o (jumpSample x0 x1 s) := by
  refine .step ?_ e h
  unfold jumpSample
  repeat' first | (with_reducible first | apply FrameB.refl | apply frame_State_modSve | apply frame_moveEnd | apply FrameB.ite) | decide | split | dsimp only

theorem frame_lateSample x0 x1 x2 s (h : FrameB m o s) (e : sub 0x1801002100 m) : FrameB m o (lateSample x0 x1 x2 s) := by
  refine .step ?_ e h
  unfold lateSample
  repeat' first | (with_reducible first | apply FrameB.refl | apply frame_State_modSve | apply frame_ev | apply frame_sveBump | apply FrameB.ite) | decide | split | dsimp only

theorem frame_limitDuty x0 s (h : FrameB m o s) (e : sub 0x2000000 m) : FrameB m o (limitDuty x0 s) := by
  refine .step ?_ e h
  unfold limitDuty
  repeat' first | (with_reducible first | apply FrameB.refl | apply frame_State_modSpn | apply FrameB.ite) | decide | split | dsimp only

theorem frame_limitElem x0 x1 s (h : FrameB m o s) (e : sub 0x200080 m) : FrameB m o (limitElem x0 x1 s) := by
  refine .step ?_ e h
  unfold limitElem
  repeat' first | (with_reducible first | apply FrameB.refl | apply frame_State_drawn | apply frame_State_modRwc | apply FrameB.ite) | decide | split | dsimp only

theorem frame_limitPassed x0 s (h : FrameB m o s) (e : sub 0x1800038180 m) : FrameB m o (limitPassed x0 s) := by
  refine .step ?_ e h
  unfold limitPassed
  repeat' first | (with_reducible first | apply FrameB.refl | assumption | intro _ | apply frame_dropWrite | apply frame_durabilityLimit | apply frame_finish | apply frame_guarantee | apply FrameB.ite) | decide | split | dsimp only

theorem frame_stopOne x0 s (h : FrameB m o s) (e : sub 0x1AEDB3F1A0 m) : FrameB m o (stopOne x0 s) := by
  refine .step ?_ e h
  unfold stopOne
  repeat' first | (with_reducible first | apply FrameB.refl | apply frame_dropWrite | apply frame_freeBarrier | apply frame_freeTag | apply frame_modCmd | apply frame_releaseReader | apply frame_releaseWaiting | apply frame_stopTasks | apply FrameB.ite) | decide | split | dsimp only

theorem frame_stopController x0 x1 s (h : FrameB m o s) (e : sub 0x1AEDB3F9A0 m) : FrameB m o (stopController x0 x1 s) := by
  refine .step ?_ e h
  unfold stopController
  repeat' first | (with_reducible first | apply FrameB.refl | apply frame_State_modCtrl | apply frame_State_modHce | apply frame_State_modPwr | apply frame_ev | apply frame_stopOne | apply FrameB.foldl (fun _ _ => ?_) | apply FrameB.ite) | decide | split | dsimp only

theorem frame_perstAction x0 s (h : FrameB m o s) (e : sub 0x1AEDB3F9A0 m) : FrameB m o (perstAction x0 s) := by
  refine .step ?_ e h
  unfold perstAction
  repeat' first | (with_reducible first | apply FrameB.refl | apply frame_State_modCtrl | apply frame_raiseLine | apply frame_stopController | apply FrameB.ite) | decide | split | dsimp only

theorem frame_linkReset x0 x1 s (h : FrameB m o s) (e : sub 0x1AEDB3F9A0 m) : FrameB m o (linkReset x0 x1 s) := by
  refine .step ?_ e h
  unfold linkReset
  repeat' first | (with_reducible first | apply FrameB.refl | apply frame_ev | apply frame_perstAction | apply frame_trainLink | apply FrameB.ite) | decide | split | dsimp only

theorem frame_loadImage x0 s (h : FrameB m o s) (e : sub 0x80000 m) : FrameB m o (loadImage x0 s) := by
  refine .step ?_ e h
  unfold loadImage
  repeat' first | (with_reducible first | apply FrameB.refl | apply FrameB.ite) | fail_if_no_progress ((with_reducible apply FrameB.set_cst); rfl) | decide | split | dsimp only

theorem frame_lockLine x0 s (h : FrameB m o s) (e : sub 0x1860002120 m) : FrameB m o (lockLine x0 s).1 := by
  refine .step ?_ e h
  unfold lockLine
  repeat' first | (with_reducible first | apply FrameB.refl | apply frame_bccDrop | apply frame_bccFill | apply frame_bccPut | apply frame_lineRead | apply FrameB.ite) | refine FrameB.of_eq (congrArg Prod.fst ‹lineRead _ _ _ _ = _›) ?_ | refine FrameB.of_eq (congrArg Prod.fst ‹lockLine _ _ = _›) ?_ | decide | split | dsimp only

theorem frame_lossEnd s (h : FrameB m o s) (e : sub 0x5FFFFFFFF0 m) : FrameB m o (lossEnd s) := by
  refine .step ?_ e h
  unfold lossEnd
  repeat' first | (with_reducible first | apply FrameB.refl | apply frame_darkEntry | apply frame_enterDim | apply frame_zeroForPowerDown | apply FrameB.ite) | decide | split | dsimp only

theorem frame_lossStart s (h : FrameB m o s) (e : sub 0x5FFFFFFFF0 m) : FrameB m o (lossStart s) := by
  refine .step ?_ e h
  unfold lossStart
  repeat' first | (with_reducible first | apply FrameB.refl | apply frame_closeFetch | apply frame_enterRectify | apply frame_gatesAllOff | apply frame_lasersOff | apply frame_lifBump | apply frame_lossEnd | apply frame_raiseLine | apply frame_retractLoaded | apply frame_revokeLeaves | apply frame_startCommit | apply FrameB.ite) | fail_if_no_progress ((with_reducible apply FrameB.set_sup); rfl) | decide | split | dsimp only

theorem frame_maFaulted x0 s (h : FrameB m o s) (e : sub 0x1801000100 m) : FrameB m o (maFaulted x0 s) := by
  refine .step ?_ e h
  unfold maFaulted
  repeat' first | (with_reducible first | apply FrameB.refl | apply frame_State_modSve | apply frame_ev | apply FrameB.ite) | decide | split | dsimp only

theorem frame_magneticInputs x0 x1 x2 s (h : FrameB m o s) (e : sub 0x1000000 m) : FrameB m o (magneticInputs x0 x1 x2 s) := by
  refine .step ?_ e h
  unfold magneticInputs
  repeat' first | (with_reducible first | apply FrameB.refl | apply frame_State_modSve | apply FrameB.ite) | decide | split | dsimp only

theorem frame_mainPhase x0 s (h : FrameB m o s) (e : sub 0x1002000 m) : FrameB m o (mainPhase x0 s).1 := by
  refine .step ?_ e h
  unfold mainPhase
  repeat' first | (with_reducible first | apply FrameB.refl | apply frame_runRows | apply frame_sveOuts | apply FrameB.ite) | decide | split | dsimp only

theorem frame_takeSlots x0 s (h : FrameB m o s) (e : sub 0x20000 m) : FrameB m o (takeSlots x0 s) := by
  refine .step ?_ e h
  unfold takeSlots
  repeat' first | (with_reducible first | apply FrameB.refl | apply frame_State_modXmt | apply FrameB.ite) | decide | split | dsimp only

theorem frame_makeExtents x0 x1 x2 s (h : FrameB m o s) (e : sub 0x20000 m) : FrameB m o (makeExtents x0 x1 x2 s) := by
  refine .step ?_ e h
  unfold makeExtents
  repeat' first | (with_reducible first | apply FrameB.refl | apply frame_mapExtent | apply frame_takeSlots | apply FrameB.foldl (fun _ _ => ?_) | apply FrameB.ite) | decide | split | dsimp only

theorem frame_makeZones x0 x1 x2 s (h : FrameB m o s) (e : sub 0x20080 m) : FrameB m o (makeZones x0 x1 x2 s) := by
  refine .step ?_ e h
  unfold makeZones
  repeat' first | (with_reducible first | apply FrameB.refl | apply frame_State_drawn | apply frame_State_modXmt | apply frame_journalZone | apply frame_takeSlots | apply FrameB.foldl (fun _ _ => ?_) | apply FrameB.ite) | decide | split | dsimp only

theorem frame_miReply x0 x1 s (h : FrameB m o s) (e : sub 0x8000 m) : FrameB m o (miReply x0 x1 s) := by
  refine .step ?_ e h
  unfold miReply
  repeat' first | (with_reducible first | apply FrameB.refl | apply frame_State_modHce | apply FrameB.ite) | decide | split | dsimp only

theorem frame_miConfigSet x0 x1 s (h : FrameB m o s) (e : sub 0x8000 m) : FrameB m o (miConfigSet x0 x1 s).1 := by
  refine .step ?_ e h
  unfold miConfigSet
  repeat' first | (with_reducible first | apply FrameB.refl | apply frame_State_modHce | apply FrameB.ite) | decide | split | dsimp only

theorem frame_miController x0 s (h : FrameB m o s) (e : sub 0x80 m) : FrameB m o (miController x0 s).1 := by
  refine .step ?_ e h
  unfold miController
  repeat' first | (with_reducible first | apply FrameB.refl | apply frame_drawList | apply FrameB.ite) | decide | split | dsimp only

theorem frame_miPortInfo x0 s (h : FrameB m o s) (e : sub 0x80 m) : FrameB m o (miPortInfo x0 s).1 := by
  refine .step ?_ e h
  unfold miPortInfo
  repeat' first | (with_reducible first | apply FrameB.refl | apply frame_drawList | apply FrameB.ite) | refine FrameB.of_eq (congrArg Prod.fst ‹drawList _ _ _ = _›) ?_ | refine FrameB.of_eq (congrArg Prod.fst ‹miPortInfo _ _ = _›) ?_ | decide | split | dsimp only

theorem frame_miDataStructure x0 x1 s (h : FrameB m o s) (e : sub 0x80 m) : FrameB m o (miDataStructure x0 x1 s).1 := by
  refine .step ?_ e h
  unfold miDataStructure
  repeat' first | (with_reducible first | apply FrameB.refl | apply frame_drawList | apply frame_miPortInfo | apply FrameB.ite) | decide | split | dsimp only

theorem frame_miFinish x0 x1 x2 s (h : FrameB m o s) (e : sub 0x18080 m) : FrameB m o (miFinish x0 x1 x2 s) := by
  refine .step ?_ e h
  unfold miFinish
  repeat' first | (with_reducible first | apply FrameB.refl | apply frame_State_modCtrl | apply frame_finishDw | apply FrameB.ite) | decide | split | dsimp only

theorem frame_miSubsystem s (h : FrameB m o s) (e : sub 0x80 m) : FrameB m o (miSubsystem s).1 := by
  refine .step ?_ e h
  unfold miSubsystem
  repeat' first | (with_reducible first | apply FrameB.refl | apply frame_drawList | apply FrameB.ite) | decide | split | dsimp only

theorem frame_miVpdRead x0 x1 s (h : FrameB m o s) (e : sub 0x80 m) : FrameB m o (miVpdRead x0 x1 s).1 := by
  refine .step ?_ e h
  clear h e
  induction x1 generalizing s with
  | zero => unfold miVpdRead; exact .refl
  | succ _ ih =>
    unfold miVpdRead
    repeat' first | (with_reducible first | apply FrameB.refl | apply frame_State_drawn | apply FrameB.ite) | ((with_reducible apply FrameB.step (ih ..)); rfl) | refine FrameB.of_eq (congrArg Prod.fst ‹miVpdRead _ _ _ = _›) ?_ | decide | split | dsimp only

theorem frame_miVpdWrite x0 x1 s (h : FrameB m o s) (e : sub 0x8000 m) : FrameB m o (miVpdWrite x0 x1 s) := by
  refine .step ?_ e h
  unfold miVpdWrite
  repeat' first | (with_reducible first | apply FrameB.refl | apply frame_State_modHce | apply FrameB.foldl (fun _ _ => ?_) | apply FrameB.ite) | decide | split | dsimp only

theorem frame_setMig x0 x1 x2 s (h : FrameB m o s) (e : sub 0x20000 m) : FrameB m o (setMig x0 x1 x2 s) := by
  refine .step ?_ e h
  unfold setMig
  repeat' first | (with_reducible first | apply FrameB.refl | apply frame_modZone | apply frame_putExtent | apply FrameB.ite) | decide | split | dsimp only

theorem frame_migMap x0 s (h : FrameB m o s) (e : sub 0x30000 m) : FrameB m o (migMap x0 s) := by
  refine .step ?_ e h
  unfold migMap
  repeat' first | (with_reducible first | apply FrameB.refl | apply frame_State_modLgr | apply frame_modZone | apply frame_putExtent | apply FrameB.ite) | decide | split | dsimp only

theorem frame_migCommit x0 x1 s (h : FrameB m o s) (e : sub 0x30000 m) : FrameB m o (migCommit x0 x1 s) := by
  refine .step ?_ e h
  unfold migCommit
  repeat' first | (with_reducible first | apply FrameB.refl | apply frame_State_modXmt | apply frame_dropRun | apply frame_journal | apply frame_journalZone | apply frame_migMap | apply frame_setMig | apply frame_supersede | apply FrameB.foldl (fun _ _ => ?_) | apply FrameB.ite) | decide | split | dsimp only

theorem frame_migFill x0 x1 x2 s (h : FrameB m o s) (e : sub 0x1880020100 m) : FrameB m o (migFill x0 x1 x2 s) := by
  refine .step ?_ e h
  unfold migFill
  repeat' first | (with_reducible first | apply FrameB.refl | apply frame_addUse | apply frame_mediaPut | apply FrameB.foldl (fun _ _ => ?_) | apply FrameB.ite) | decide | split | dsimp only

theorem frame_migVoid x0 s (h : FrameB m o s) (e : sub 0x1800030100 m) : FrameB m o (migVoid x0 s) := by
  refine .step ?_ e h
  unfold migVoid
  repeat' first | (with_reducible first | apply FrameB.refl | apply frame_State_modLgr | apply frame_State_modXmt | apply frame_ev | apply frame_freeSlots | apply frame_releaseReader | apply frame_setMig | apply FrameB.ite) | decide | split | dsimp only

theorem frame_migVerified x0 x1 x2 s (h : FrameB m o s) (e : sub 0x1880030100 m) : FrameB m o (migVerified x0 x1 x2 s) := by
  refine .step ?_ e h
  unfold migVerified
  repeat' first | (with_reducible first | apply FrameB.refl | apply frame_migCommit | apply frame_migFill | apply frame_migVoid | apply FrameB.ite) | decide | split | dsimp only

theorem frame_missAddr x0 s (h : FrameB m o s) (e : sub 0x1811102100 m) : FrameB m o (missAddr x0 s) := by
  refine .step ?_ e h
  unfold missAddr
  repeat' first | (with_reducible first | apply FrameB.refl | apply frame_State_modPu | apply frame_optBump | apply frame_setIrqStat | apply frame_trackPhase | apply FrameB.ite) | decide | split | dsimp only

theorem frame_modCq x0 x1 x2 s (h : FrameB m o s) (e : sub 0x8000 m) : FrameB m o (modCq x0 x1 x2 s) := by
  refine .step ?_ e h
  unfold modCq
  repeat' first | (with_reducible first | apply FrameB.refl | apply frame_State_modCtrl | apply FrameB.ite) | decide | split | dsimp only

theorem frame_modNs x0 x1 s (h : FrameB m o s) (e : sub 0x8000 m) : FrameB m o (modNs x0 x1 s) := by
  refine .step ?_ e h
  unfold modNs
  repeat' first | (with_reducible first | apply FrameB.refl | apply frame_State_modHce | apply FrameB.ite) | decide | split | dsimp only

theorem frame_moveCapped x0 x1 x2 s (h : FrameB m o s) (e : sub 0x4000 m) : FrameB m o (moveCapped x0 x1 x2 s) := by
  refine .step ?_ e h
  clear h e
  induction x1 generalizing x2 s with
  | nil => unfold moveCapped; exact .refl
  | cons _ _ ih =>
    unfold moveCapped
    repeat' first | (with_reducible first | apply FrameB.refl | apply frame_State_modPort | apply frame_modTicket | apply FrameB.ite) | ((with_reducible apply FrameB.step (ih ..)); rfl) | decide | split | dsimp only

theorem frame_settleOne x0 s (h : FrameB m o s) (e : sub 0x188003A180 m) : FrameB m o (settleOne x0 s) := by
  refine .step ?_ e h
  unfold settleOne
  repeat' first | (with_reducible first | apply FrameB.refl | apply frame_finish | apply frame_finishDw | apply frame_formatDone | apply frame_freeBarrier | apply frame_freeTag | apply frame_releaseWaiting | apply FrameB.ite) | decide | split | dsimp only

theorem frame_settle s (h : FrameB m o s) (e : sub 0x188003A180 m) : FrameB m o (settle s) := by
  refine .step ?_ e h
  unfold settle
  repeat' first | (with_reducible first | apply FrameB.refl | apply frame_settleOne | apply FrameB.foldl (fun _ _ => ?_) | apply FrameB.ite) | decide | split | dsimp only

theorem frame_noData x0 s (h : FrameB m o s) (e : sub 0x188003A180 m) : FrameB m o (noData x0 s) := by
  refine .step ?_ e h
  unfold noData
  repeat' first | (with_reducible first | apply FrameB.refl | apply frame_finish | apply frame_modCmd | apply frame_settle | apply FrameB.ite) | decide | split | dsimp only

theorem frame_notePolarity x0 x1 s (h : FrameB m o s) (e : sub 0x5800000100 m) : FrameB m o (notePolarity x0 x1 s) := by
  refine .step ?_ e h
  unfold notePolarity
  repeat' first | (with_reducible first | apply FrameB.refl | apply frame_State_modVlk | apply frame_ev | apply FrameB.ite) | decide | split | dsimp only

theorem frame_nsCreate x0 s (h : FrameB m o s) (e : sub 0x38090 m) : FrameB m o (nsCreate x0 s) := by
  refine .step ?_ e h
  unfold nsCreate
  repeat' first | (with_reducible first | apply FrameB.refl | apply frame_State_modHce | apply frame_finish | apply frame_finishDw | apply frame_makeExtents | apply frame_makeZones | apply frame_setFld | apply FrameB.ite) | decide | split | dsimp only

theorem frame_nsFree x0 s (h : FrameB m o s) (e : sub 0x80020000 m) : FrameB m o (nsFree x0 s) := by
  refine .step ?_ e h
  unfold nsFree
  repeat' first | (with_reducible first | apply FrameB.refl | apply frame_State_modSec | apply frame_State_modXmt | apply frame_dropRun | apply frame_freeSlots | apply frame_journalZone | apply frame_mapExtent | apply frame_modZone | apply frame_zeroSlot | apply FrameB.foldl (fun _ _ => ?_) | apply FrameB.ite) | decide | split | dsimp only

theorem frame_nsDelete x0 s (h : FrameB m o s) (e : sub 0x80038080 m) : FrameB m o (nsDelete x0 s) := by
  refine .step ?_ e h
  unfold nsDelete
  repeat' first | (with_reducible first | apply FrameB.refl | apply frame_State_modHce | apply frame_finish | apply frame_nsFree | apply FrameB.foldl (fun _ _ => ?_) | apply FrameB.ite) | decide | split | dsimp only

theorem frame_opticalInputs x0 x1 s (h : FrameB m o s) (e : sub 0x1000000 m) : FrameB m o (opticalInputs x0 x1 s) := by
  refine .step ?_ e h
  unfold opticalInputs
  repeat' first | (with_reducible first | apply FrameB.refl | apply frame_State_modSve | apply FrameB.ite) | decide | split | dsimp only

theorem frame_owedRewrites x0 x1 s (h : FrameB m o s) (e : sub 0x20000 m) : FrameB m o (owedRewrites x0 x1 s) := by
  refine .step ?_ e h
  unfold owedRewrites
  repeat' first | (with_reducible first | apply FrameB.refl | apply frame_State_modXmt | apply FrameB.ite) | decide | split | dsimp only

theorem frame_pollDone x0 x1 s (h : FrameB m o s) (e : sub 0x4000000000 m) : FrameB m o (pollDone x0 x1 s) := by
  refine .step ?_ e h
  unfold pollDone
  repeat' first | (with_reducible first | apply FrameB.refl | apply frame_State_modVlk | apply frame_modSlot | apply FrameB.ite) | decide | split | dsimp only

theorem frame_sendSeg s (h : FrameB m o s) (e : sub 0x4000002000 m) : FrameB m o (sendSeg s) := by
  refine .step ?_ e h
  unfold sendSeg
  repeat' first | (with_reducible first | apply FrameB.refl | apply frame_State_modVlk | apply frame_vlkBump | apply FrameB.ite) | decide | split | dsimp only

theorem frame_sendChunk s (h : FrameB m o s) (e : sub 0x4000002000 m) : FrameB m o (sendChunk s) := by
  refine .step ?_ e h
  unfold sendChunk
  repeat' first | (with_reducible first | apply FrameB.refl | apply frame_State_modVlk | apply frame_sendSeg | apply FrameB.ite) | decide | split | dsimp only

theorem frame_pollSlot x0 s (h : FrameB m o s) (e : sub 0x4000002080 m) : FrameB m o (pollSlot x0 s) := by
  refine .step ?_ e h
  unfold pollSlot
  repeat' first | (with_reducible first | apply FrameB.refl | apply frame_State_drawn | apply frame_State_modVlk | apply frame_grantLease | apply frame_modSlot | apply frame_sendChunk | apply frame_vlkBump | apply FrameB.ite) | decide | split | dsimp only

theorem frame_raiseVector x0 x1 s (h : FrameB m o s) (e : sub 0x8000 m) : FrameB m o (raiseVector x0 x1 s) := by
  refine .step ?_ e h
  unfold raiseVector
  repeat' first | (with_reducible first | apply FrameB.refl | apply frame_modCq | apply FrameB.ite) | decide | split | dsimp only

theorem frame_postCqe x0 x1 x2 s (h : FrameB m o s) (e : sub 0x8000 m) : FrameB m o (postCqe x0 x1 x2 s) := by
  refine .step ?_ e h
  unfold postCqe
  repeat' first | (with_reducible first | apply FrameB.refl | apply frame_modCq | apply frame_raiseVector | apply FrameB.ite) | decide | split | dsimp only

theorem frame_powerEntered s (h : FrameB m o s) (e : sub 0x5FFFFFFFFC m) : FrameB m o (powerEntered s) := by
  refine .step ?_ e h
  unfold powerEntered
  repeat' first | (with_reducible first | apply FrameB.refl | apply frame_State_modPwr | apply frame_darkEntry | apply frame_enterDim | apply frame_enterGlow | apply frame_ev | apply frame_powerLit | apply frame_unwindEntry | apply FrameB.ite) | decide | split | dsimp only

theorem frame_powerForReset s (h : FrameB m o s) (e : sub 0x1800006900 m) : FrameB m o (powerForReset s) := by
  refine .step ?_ e h
  unfold powerForReset
  repeat' first | (with_reducible first | apply FrameB.refl | apply frame_powerLit | apply FrameB.ite) | decide | split | dsimp only

theorem frame_preambleLoad x0 s (h : FrameB m o s) (e : sub 0x200000 m) : FrameB m o (preambleLoad x0 s) := by
  refine .step ?_ e h
  unfold preambleLoad
  repeat' first | (with_reducible first | apply FrameB.refl | apply frame_applyLoad | apply FrameB.ite) | decide | split | dsimp only

theorem frame_preempt x0 x1 x2 x3 x4 s (h : FrameB m o s) (e : sub 0x1AEDB3F1A0 m) : FrameB m o (preempt x0 x1 x2 x3 x4 s) := by
  refine .step ?_ e h
  unfold preempt
  repeat' first | (with_reducible first | apply FrameB.refl | apply frame_modNs | apply frame_stopCmd | apply FrameB.foldl (fun _ _ => ?_) | apply FrameB.ite) | decide | split | dsimp only

theorem frame_rangeCmd x0 s (h : FrameB m o s) (e : sub 0x1840002110 m) : FrameB m o (rangeCmd x0 s) := by
  refine .step ?_ e h
  unfold rangeCmd
  repeat' first | (with_reducible first | apply FrameB.refl | assumption | intro _ | apply frame_access | apply frame_writeOpcmd | apply FrameB.ite) | decide | split | dsimp only

theorem frame_zeroLine x0 s (h : FrameB m o s) (e : sub 0x60000020 m) : FrameB m o (zeroLine x0 s) := by
  refine .step ?_ e h
  unfold zeroLine
  repeat' first | (with_reducible first | apply FrameB.refl | apply frame_bccDrop | apply frame_bccFill | apply frame_bccPut | apply frame_dmcWrite | apply FrameB.ite) | decide | split | dsimp only

theorem frame_unlockLine x0 s (h : FrameB m o s) (e : sub 0x40000000 m) : FrameB m o (unlockLine x0 s) := by
  refine .step ?_ e h
  unfold unlockLine
  repeat' first | (with_reducible first | apply FrameB.refl | apply frame_bccDrop | apply frame_bccPut | apply FrameB.ite) | decide | split | dsimp only

theorem frame_rangeLine x0 x1 s (h : FrameB m o s) (e : sub 0x1860002120 m) : FrameB m o (rangeLine x0 x1 s).1 := by
  refine .step ?_ e h
  unfold rangeLine
  repeat' first | (with_reducible first | apply FrameB.refl | apply frame_bccPut | apply frame_invalLine | apply frame_lockLine | apply frame_unlockLine | apply frame_writeBack | apply frame_zeroLine | apply FrameB.ite) | decide | split | dsimp only

theorem frame_rangeLines x0 x1 s (h : FrameB m o s) (e : sub 0x1860002120 m) : FrameB m o (rangeLines x0 x1 s).1 := by
  refine .step ?_ e h
  clear h e
  induction x1 generalizing s with
  | nil => unfold rangeLines; exact .refl
  | cons _ _ ih =>
    unfold rangeLines
    repeat' first | (with_reducible first | apply FrameB.refl | apply frame_rangeLine | apply FrameB.ite) | ((with_reducible apply FrameB.step (ih ..)); rfl) | refine FrameB.of_eq (congrArg Prod.fst ‹rangeLine _ _ _ = _›) ?_ | refine FrameB.of_eq (congrArg Prod.fst ‹rangeLines _ _ _ = _›) ?_ | decide | split | dsimp only

theorem frame_rangeFinish s (h : FrameB m o s) (e : sub 0x1860002120 m) : FrameB m o (rangeFinish s) := by
  refine .step ?_ e h
  unfold rangeFinish
  repeat' first | (with_reducible first | apply FrameB.refl | apply frame_State_modBcc | apply frame_rangeLines | apply frame_rangeResult | apply FrameB.ite) | decide | split | dsimp only

theorem frame_readCmd x0 x1 x2 s (h : FrameB m o s) (e : sub 0x180003A180 m) (k0 : ∀ a b t, FrameB m o t → FrameB m o (x1 a b t)) : FrameB m o (readCmd x0 x1 x2 s) := by
  unfold readCmd
  repeat' first | assumption | (with_reducible first | apply frame_exception | apply frame_finish | apply frame_owedRewrites | apply FrameB.ite | apply k0) | (with_reducible apply sub_trans (h := e); decide) | (with_reducible apply frame_State_modVlk) | split | dsimp only [id]

theorem frame_readPower x0 x1 s (h : FrameB m o s) (e : sub 0x1A0CB22180 m) : FrameB m o (readPower x0 x1 s) := by
  refine .step ?_ e h
  unfold readPower
  repeat' first | (with_reducible first | apply FrameB.refl | apply frame_State_modLaser | apply frame_laserFault | apply frame_psiQueue | apply FrameB.ite) | decide | split | dsimp only

theorem frame_readerEvent x0 x1 x2 x3 x4 s (h : FrameB m o s) (e : sub 0x1800000100 m) : FrameB m o (readerEvent x0 x1 x2 x3 x4 s) := by
  refine .step ?_ e h
  unfold readerEvent
  repeat' first | (with_reducible first | apply FrameB.refl | apply frame_ev | apply FrameB.ite) | decide | split | dsimp only

theorem frame_replayFwp x0 s (h : FrameB m o s) (e : sub 0x20000 m) : FrameB m o (replayFwp x0 s) := by
  refine .step ?_ e h
  unfold replayFwp
  repeat' first | (with_reducible first | apply FrameB.refl | apply frame_modZone | apply FrameB.ite) | decide | split | dsimp only

theorem frame_recoverTables x0 x1 s (h : FrameB m o s) (e : sub 0x1800028100 m) : FrameB m o (recoverTables x0 x1 s) := by
  refine .step ?_ e h
  unfold recoverTables
  repeat' first | (with_reducible first | apply FrameB.refl | apply frame_State_modXmt | apply frame_applyRec | apply frame_ev | apply frame_replayFwp | apply frame_setMig | apply FrameB.foldl (fun _ _ => ?_) | apply FrameB.ite) | decide | split | dsimp only

theorem frame_recoveryFails s (h : FrameB m o s) (e : sub 0x1A1FB2A180 m) : FrameB m o (recoveryFails s) := by
  refine .step ?_ e h
  unfold recoveryFails
  repeat' first | (with_reducible first | apply FrameB.refl | apply frame_State_modSpn | apply frame_askBrake | apply frame_coastFrom | apply frame_ev | apply frame_gatesLow | apply frame_raiseLine | apply FrameB.ite) | decide | split | dsimp only

theorem frame_rekeyFormats s (h : FrameB m o s) (e : sub 0x80020080 m) : FrameB m o (rekeyFormats s) := by
  refine .step ?_ e h
  unfold rekeyFormats
  repeat' first | (with_reducible first | apply FrameB.refl | apply frame_State_modXmt | apply frame_replaceKey | apply FrameB.foldl (fun _ _ => ?_) | apply FrameB.ite) | decide | split | dsimp only

theorem frame_releaseHolds s (h : FrameB m o s) (e : sub 0x100000 m) : FrameB m o (releaseHolds s) := by
  refine .step ?_ e h
  unfold releaseHolds
  repeat' first | (with_reducible first | apply FrameB.refl | apply frame_State_modAsq | apply FrameB.foldl (fun _ _ => ?_) | apply FrameB.ite) | decide | split | dsimp only

theorem frame_replyBad x0 s (h : FrameB m o s) (e : sub 0x5800002100 m) : FrameB m o (replyBad x0 s) := by
  refine .step ?_ e h
  unfold replyBad
  repeat' first | (with_reducible first | apply FrameB.refl | apply frame_ev | apply frame_freeSlot | apply frame_modSlot | apply FrameB.ite) | decide | split | dsimp only

theorem frame_resetSteps x0 s (h : FrameB m o s) (e : sub 0x1A1DB7E980 m) : FrameB m o (resetSteps x0 s) := by
  refine .step ?_ e h
  unfold resetSteps
  repeat' first | (with_reducible first | apply FrameB.refl | apply frame_closeFetch | apply frame_gatesAllOff | apply frame_powerForReset | apply frame_retractLoaded | apply frame_revokeLeaves | apply frame_startCommit | apply FrameB.ite) | decide | split | dsimp only

theorem frame_secPiece x0 x1 x2 s (h : FrameB m o s) (e : sub 0x18600031A0 m) : FrameB m o (secPiece x0 x1 x2 s) := by
  refine .step ?_ e h
  unfold secPiece
  repeat' first | (with_reducible first | apply FrameB.refl | apply frame_quietAccess | apply FrameB.ite) | decide | split | dsimp only

theorem frame_secWrite x0 x1 x2 s (h : FrameB m o s) (e : sub 0x18600031A0 m) : FrameB m o (secWrite x0 x1 x2 s) := by
  refine .step ?_ e h
  unfold secWrite
  exact frame_linePieces (g := 0x18600031A0) _ _ _ _ _ _ .refl rfl fun _ _ _ _ ht => frame_secPiece  _ _ _ _ ht rfl

theorem frame_respond x0 x1 x2 s (h : FrameB m o s) (e : sub 0x18E00031A0 m) : FrameB m o (respond x0 x1 x2 s) := by
  refine .step ?_ e h
  unfold respond
  repeat' first | (with_reducible first | apply FrameB.refl | apply frame_answer | apply frame_secWrite | apply FrameB.ite) | decide | split | dsimp only

theorem frame_respondFree x0 s (h : FrameB m o s) (e : sub 0x18E00031A0 m) : FrameB m o (respondFree x0 s) := by
  refine .step ?_ e h
  unfold respondFree
  repeat' first | (with_reducible first | apply FrameB.refl | apply frame_State_drawn | apply frame_respond | apply FrameB.ite) | decide | split | dsimp only

theorem frame_respondRecords x0 x1 s (h : FrameB m o s) (e : sub 0x18E00031A0 m) : FrameB m o (respondRecords x0 x1 s) := by
  refine .step ?_ e h
  unfold respondRecords
  repeat' first | (with_reducible first | apply FrameB.refl | apply frame_respond | apply FrameB.ite) | decide | split | dsimp only

theorem frame_sanLeave s (h : FrameB m o s) (e : sub 0x1800006100 m) : FrameB m o (sanLeave s) := by
  refine .step ?_ e h
  unfold sanLeave
  repeat' first | (with_reducible first | apply FrameB.refl | apply frame_submitLeave | apply FrameB.ite) | decide | split | dsimp only

theorem frame_sanitizeResume s (h : FrameB m o s) (e : sub 0x1800026100 m) : FrameB m o (sanitizeResume s) := by
  refine .step ?_ e h
  unfold sanitizeResume
  repeat' first | (with_reducible first | apply FrameB.refl | apply frame_State_modXmt | apply frame_ev | apply frame_sanLeave | apply FrameB.ite) | decide | split | dsimp only

theorem frame_restartRecovery x0 x1 s (h : FrameB m o s) (e : sub 0x180007E100 m) : FrameB m o (restartRecovery x0 x1 s) := by
  refine .step ?_ e h
  unfold restartRecovery
  repeat' first | (with_reducible first | apply FrameB.refl | apply frame_State_modRvr | apply frame_chooseGen | apply frame_recoverTables | apply frame_sanitizeResume | apply FrameB.ite) | decide | split | dsimp only

theorem frame_retireZones x0 x1 s (h : FrameB m o s) (e : sub 0x1800038180 m) : FrameB m o (retireZones x0 x1 s) := by
  refine .step ?_ e h
  unfold retireZones
  repeat' first | (with_reducible first | apply FrameB.refl | apply frame_ownZoneChange | apply FrameB.foldl (fun _ _ => ?_) | apply FrameB.ite) | decide | split | dsimp only

theorem frame_setAtSpeed s (h : FrameB m o s) (e : sub 0x1802042100 m) : FrameB m o (setAtSpeed s) := by
  refine .step ?_ e h
  unfold setAtSpeed
  repeat' first | (with_reducible first | apply FrameB.refl | apply frame_State_modRvr | apply frame_State_modSpn | apply frame_ev | apply frame_raiseLine | apply FrameB.ite) | decide | split | dsimp only

theorem frame_revStep x0 s (h : FrameB m o s) (e : sub 0x1802042100 m) : FrameB m o (revStep x0 s) := by
  refine .step ?_ e h
  unfold revStep
  repeat' first | (with_reducible first | apply FrameB.refl | apply frame_State_modSpn | apply frame_setAtSpeed | apply FrameB.ite) | decide | split | dsimp only

theorem frame_rootFollow s (h : FrameB m o s) (e : sub 0x4000000000 m) : FrameB m o (rootFollow s) := by
  refine .step ?_ e h
  unfold rootFollow
  repeat' first | (with_reducible first | apply FrameB.refl | apply frame_State_modVlk | apply FrameB.ite) | decide | split | dsimp only

theorem frame_sampleActs x0 x1 x2 s (h : FrameB m o s) (e : sub 0x1A1DB2A180 m) : FrameB m o (sampleActs x0 x1 x2 s) := by
  refine .step ?_ e h
  unfold sampleActs
  repeat' first | (with_reducible first | apply FrameB.refl | apply frame_judgeSample | apply frame_maFaulted | apply frame_retractStart | apply frame_servoDecide | apply FrameB.ite) | decide | split | dsimp only

theorem frame_traceStore x0 x1 s (h : FrameB m o s) (e : sub 0x1002000 m) : FrameB m o (traceStore x0 x1 s) := by
  refine .step ?_ e h
  unfold traceStore
  repeat' first | (with_reducible first | apply FrameB.refl | apply frame_State_modSve | apply frame_sveLine | apply frame_traceTrigger | apply FrameB.foldl (fun _ _ => ?_) | apply FrameB.ite) | decide | split | dsimp only

theorem frame_sampleEnds x0 x1 s (h : FrameB m o s) (e : sub 0x1102000 m) : FrameB m o (sampleEnds x0 x1 s) := by
  refine .step ?_ e h
  unfold sampleEnds
  repeat' first | (with_reducible first | apply FrameB.refl | apply frame_prePhase | apply frame_sampleBound | apply frame_traceStore | apply FrameB.ite) | decide | split | dsimp only

theorem frame_sampleStrikes x0 x1 s (h : FrameB m o s) (e : sub 0x1002000 m) : FrameB m o (sampleStrikes x0 x1 s) := by
  refine .step ?_ e h
  unfold sampleStrikes
  repeat' first | (with_reducible first | apply FrameB.refl | apply frame_State_modSve | apply frame_traceTrigger | apply FrameB.ite) | decide | split | dsimp only

theorem frame_sweepFail x0 x1 s (h : FrameB m o s) (e : sub 0x1811102100 m) : FrameB m o (sweepFail x0 x1 s) := by
  refine .step ?_ e h
  unfold sweepFail
  repeat' first | (with_reducible first | apply FrameB.refl | apply frame_State_modSve | apply frame_ev | apply frame_moveEnd | apply frame_setFocused | apply FrameB.ite) | decide | split | dsimp only

theorem frame_sweepSample x0 x1 s (h : FrameB m o s) (e : sub 0x1811102100 m) : FrameB m o (sweepSample x0 x1 s) := by
  refine .step ?_ e h
  unfold sweepSample
  repeat' first | (with_reducible first | apply FrameB.refl | apply frame_State_modPu | apply frame_State_modSve | apply frame_moveEnd | apply frame_sweepFail | apply FrameB.ite) | decide | split | dsimp only

theorem frame_sampleTakes x0 x1 x2 s (h : FrameB m o s) (e : sub 0x1811102100 m) : FrameB m o (sampleTakes x0 x1 x2 s).1 := by
  refine .step ?_ e h
  unfold sampleTakes
  repeat' first | (with_reducible first | apply FrameB.refl | apply frame_State_modSve | apply frame_holdSample | apply frame_jumpSample | apply frame_lateSample | apply frame_magneticInputs | apply frame_opticalInputs | apply frame_sveBump | apply frame_sweepSample | apply FrameB.ite) | decide | split | dsimp only

theorem frame_sanBandDone x0 x1 s (h : FrameB m o s) (e : sub 0x60000 m) : FrameB m o (sanBandDone x0 x1 s) := by
  refine .step ?_ e h
  unfold sanBandDone
  repeat' first | (with_reducible first | apply FrameB.refl | apply frame_State_modRvr | apply frame_State_modXmt | apply frame_journal | apply FrameB.ite) | decide | split | dsimp only

theorem frame_sanTables x0 s (h : FrameB m o s) (e : sub 0x20000 m) : FrameB m o (sanTables x0 s) := by
  refine .step ?_ e h
  unfold sanTables
  repeat' first | (with_reducible first | apply FrameB.refl | apply frame_formatTables | apply frame_journal | apply FrameB.foldl (fun _ _ => ?_) | apply FrameB.ite) | decide | split | dsimp only

theorem frame_sanFinish x0 s (h : FrameB m o s) (e : sub 0x20000 m) : FrameB m o (sanFinish x0 s) := by
  refine .step ?_ e h
  unfold sanFinish
  repeat' first | (with_reducible first | apply FrameB.refl | apply frame_State_modXmt | apply frame_sanTables | apply FrameB.ite) | decide | split | dsimp only

theorem frame_sanOver x0 s (h : FrameB m o s) (e : sub 0x78080 m) : FrameB m o (sanOver x0 s) := by
  refine .step ?_ e h
  unfold sanOver
  repeat' first | (with_reducible first | apply FrameB.refl | apply frame_State_modHce | apply frame_State_modRvr | apply frame_State_modXmt | apply frame_asyncEvent | apply FrameB.foldl (fun _ _ => ?_) | apply FrameB.ite) | decide | split | dsimp only

theorem frame_sanSettle s (h : FrameB m o s) (e : sub 0x78080 m) : FrameB m o (sanSettle s) := by
  refine .step ?_ e h
  unfold sanSettle
  repeat' first | (with_reducible first | apply FrameB.refl | apply frame_sanOver | apply FrameB.ite) | decide | split | dsimp only

theorem frame_sanStart x0 s (h : FrameB m o s) (e : sub 0x78000 m) : FrameB m o (sanStart x0 s) := by
  refine .step ?_ e h
  unfold sanStart
  repeat' first | (with_reducible first | apply FrameB.refl | apply frame_State_modHce | apply frame_State_modRvr | apply frame_State_modXmt | apply frame_dropEntry | apply frame_journal | apply FrameB.foldl (fun _ _ => ?_) | apply FrameB.ite) | decide | split | dsimp only

theorem frame_saveFeature x0 x1 s (h : FrameB m o s) (e : sub 0x8000 m) : FrameB m o (saveFeature x0 x1 s) := by
  refine .step ?_ e h
  unfold saveFeature
  repeat' first | (with_reducible first | apply FrameB.refl | apply frame_State_modHce | apply FrameB.ite) | decide | split | dsimp only

theorem frame_scrambleRow x0 s (h : FrameB m o s) (e : sub 0x200000A0 m) : FrameB m o (scrambleRow x0 s) := by
  refine .step ?_ e h
  unfold scrambleRow
  repeat' first | (with_reducible first | apply FrameB.refl | apply frame_State_drawn | apply frame_setMemByte | apply frame_unpoison | apply FrameB.foldl (fun _ _ => ?_) | apply FrameB.ite) | decide | split | dsimp only

theorem frame_scrubPassEnd s (h : FrameB m o s) (e : sub 0x1820002100 m) : FrameB m o (scrubPassEnd s) := by
  refine .step ?_ e h
  unfold scrubPassEnd
  repeat' first | (with_reducible first | apply FrameB.refl | apply frame_ev | apply frame_raiseLine | apply FrameB.ite) | fail_if_no_progress ((with_reducible apply FrameB.set_dmc); rfl) | decide | split | dsimp only

theorem frame_scrubEnd x0 s (h : FrameB m o s) (e : sub 0x1820002100 m) : FrameB m o (scrubEnd x0 s) := by
  refine .step ?_ e h
  unfold scrubEnd
  repeat' first | (with_reducible first | apply FrameB.refl | apply frame_scrubPassEnd | apply FrameB.ite) | decide | split | dsimp only

theorem frame_scrubTake x0 x1 s (h : FrameB m o s) (e : sub 0x1820002100 m) : FrameB m o (scrubTake x0 x1 s) := by
  refine .step ?_ e h
  unfold scrubTake
  repeat' first | (with_reducible first | apply FrameB.refl | apply frame_rowLogRead | apply FrameB.ite) | fail_if_no_progress ((with_reducible apply FrameB.set_dmc); rfl) | decide | split | dsimp only

theorem frame_scrubLine x0 x1 s (h : FrameB m o s) (e : sub 0x1820002100 m) : FrameB m o (scrubLine x0 x1 s) := by
  refine .step ?_ e h
  unfold scrubLine
  repeat' first | (with_reducible first | apply FrameB.refl | apply frame_scrubPassEnd | apply frame_scrubTake | apply FrameB.ite) | decide | split | dsimp only

theorem frame_sendLog x0 x1 x2 s (h : FrameB m o s) (e : sub 0x18080 m) : FrameB m o (sendLog x0 x1 x2 s) := by
  refine .step ?_ e h
  unfold sendLog
  repeat' first | (with_reducible first | apply FrameB.refl | apply frame_finish | apply frame_giveData | apply FrameB.ite) | decide | split | dsimp only

theorem frame_sendReply s (h : FrameB m o s) (e : sub 0x4000002000 m) : FrameB m o (sendReply s) := by
  refine .step ?_ e h
  unfold sendReply
  repeat' first | (with_reducible first | apply FrameB.refl | apply frame_State_modVlk | apply frame_vlkBump | apply FrameB.ite) | decide | split | dsimp only

theorem frame_testCond x0 s (h : FrameB m o s) (e : sub 0x80 m) : FrameB m o (testCond x0 s).2 := by
  refine .step ?_ e h
  unfold testCond
  repeat' first | (with_reducible first | apply FrameB.refl | apply frame_condDrawn | apply FrameB.ite) | decide | split | dsimp only

theorem frame_transfer x0 x1 x2 s (h : FrameB m o s) (e : sub 0x1A6D30F1A0 m) : FrameB m o (transfer x0 x1 x2 s) := by
  refine .step ?_ e h
  unfold transfer
  repeat' first | (with_reducible first | apply FrameB.refl | apply frame_complete | apply frame_mcFault | apply FrameB.ite) | decide | split | dsimp only

theorem frame_seqBranch x0 x1 s (h : FrameB m o s) (e : sub 0x1A6D30F1A0 m) : FrameB m o (seqBranch x0 x1 s) := by
  refine .step ?_ e h
  unfold seqBranch
  repeat' first | (with_reducible first | apply FrameB.refl | apply frame_fallThrough | apply frame_testCond | apply frame_transfer | apply FrameB.ite) | decide | split | dsimp only

theorem frame_seqCallDo x0 s (h : FrameB m o s) (e : sub 0x1A6D30F1A0 m) : FrameB m o (seqCallDo x0 s) := by
  refine .step ?_ e h
  unfold seqCallDo
  repeat' first | (with_reducible first | apply FrameB.refl | apply frame_State_modAsq | apply frame_complete | apply frame_mcFault | apply FrameB.ite) | decide | split | dsimp only

theorem frame_seqDispatchDo x0 s (h : FrameB m o s) (e : sub 0x1A6D30F1A0 m) : FrameB m o (seqDispatchDo x0 s) := by
  refine .step ?_ e h
  unfold seqDispatchDo
  repeat' first | (with_reducible first | apply FrameB.refl | apply frame_complete | apply frame_mcFault | apply FrameB.ite) | decide | split | dsimp only

theorem frame_seqLoopDo x0 s (h : FrameB m o s) (e : sub 0x1A6D30F1A0 m) : FrameB m o (seqLoopDo x0 s) := by
  refine .step ?_ e h
  unfold seqLoopDo
  repeat' first | (with_reducible first | apply FrameB.refl | apply frame_State_modAsq | apply frame_fallThrough | apply frame_transfer | apply FrameB.ite) | decide | split | dsimp only

theorem frame_seqRetDo x0 s (h : FrameB m o s) (e : sub 0x1A6D30F1A0 m) : FrameB m o (seqRetDo x0 s) := by
  refine .step ?_ e h
  unfold seqRetDo
  repeat' first | (with_reducible first | apply FrameB.refl | apply frame_State_modAsq | apply frame_complete | apply frame_fallThrough | apply frame_taskEnd | apply frame_testCond | apply FrameB.ite) | decide | split | dsimp only

theorem frame_seqStep x0 x1 x2 s (h : FrameB m o s) (e : sub 0x7800000B12 m) (k0 : ∀ t, FrameB m o t → FrameB m o (x2 t)) : FrameB m o (seqStep x0 x1 x2 s) := by
  unfold seqStep
  repeat' first | assumption | (with_reducible first | apply frame_advanceTo | apply FrameB.ite | apply k0) | (with_reducible apply sub_trans (h := e); decide) | (with_reducible apply frame_State_modVlk) | split | dsimp only [id]

theorem frame_servoSample x0 x1 x2 s (h : FrameB m o s) (e : sub 0x1A1DB2A180 m) : FrameB m o (servoSample x0 x1 x2 s) := by
  refine .step ?_ e h
  unfold servoSample
  repeat' first | (with_reducible first | apply FrameB.refl | apply frame_judgeSample | apply frame_mainPhase | apply frame_sampleActs | apply frame_sampleEnds | apply frame_sampleStrikes | apply frame_sampleTakes | apply frame_sveBump | apply FrameB.ite) | decide | split | dsimp only

theorem frame_setCtrl x0 x1 s (h : FrameB m o s) (e : sub 0x8000 m) : FrameB m o (setCtrl x0 x1 s) := by
  refine .step ?_ e h
  unfold setCtrl
  repeat' first | (with_reducible first | apply FrameB.refl | apply frame_State_modCtrl | apply FrameB.ite) | decide | split | dsimp only

theorem frame_setLease x0 x1 s (h : FrameB m o s) (e : sub 0x6000 m) : FrameB m o (setLease x0 x1 s) := by
  refine .step ?_ e h
  unfold setLease
  repeat' first | (with_reducible first | apply FrameB.refl | apply frame_State_modLlt | apply frame_moveCapped | apply frame_walkQueue | apply FrameB.foldl (fun _ _ => ?_) | apply FrameB.ite) | decide | split | dsimp only

theorem frame_shiftStep s (h : FrameB m o s) (e : sub 0x2000000 m) : FrameB m o (shiftStep s) := by
  refine .step ?_ e h
  unfold shiftStep
  repeat' first | (with_reducible first | apply FrameB.refl | apply frame_State_modSpn | apply FrameB.ite) | decide | split | dsimp only

theorem frame_slotAnswers x0 s (h : FrameB m o s) (e : sub 0x5800002100 m) : FrameB m o (slotAnswers x0 s) := by
  refine .step ?_ e h
  unfold slotAnswers
  repeat' first | (with_reducible first | apply FrameB.refl | apply frame_ev | apply frame_modSlot | apply frame_slotTo | apply FrameB.ite) | decide | split | dsimp only

theorem frame_slotSilent x0 s (h : FrameB m o s) (e : sub 0x5800002100 m) : FrameB m o (slotSilent x0 s) := by
  refine .step ?_ e h
  unfold slotSilent
  repeat' first | (with_reducible first | apply FrameB.refl | apply frame_ev | apply frame_raiseLine | apply frame_slotTo | apply FrameB.ite) | decide | split | dsimp only

theorem frame_snuff1 x0 s (h : FrameB m o s) (e : sub 0x5A8CB22980 m) : FrameB m o (snuff1 x0 s) := by
  refine .step ?_ e h
  unfold snuff1
  repeat' first | (with_reducible first | apply FrameB.refl | apply frame_State_modSec | apply frame_snuffAct | apply FrameB.ite) | decide | split | dsimp only

theorem frame_spindleSample s (h : FrameB m o s) (e : sub 0x1102000 m) : FrameB m o (spindleSample s) := by
  refine .step ?_ e h
  unfold spindleSample
  repeat' first | (with_reducible first | apply FrameB.refl | apply frame_mainPhase | apply frame_prePhase | apply frame_sampleBound | apply frame_sveBump | apply frame_traceStore | apply FrameB.ite) | decide | split | dsimp only

theorem frame_spinupPhaseFault x0 s (h : FrameB m o s) (e : sub 0x1800000100 m) : FrameB m o (spinupPhaseFault x0 s) := by
  refine .step ?_ e h
  unfold spinupPhaseFault
  repeat' first | (with_reducible first | apply FrameB.refl | apply frame_ev | apply FrameB.ite) | decide | split | dsimp only

theorem frame_spnCmd x0 s (h : FrameB m o s) (e : sub 0x1A1FB2A180 m) : FrameB m o (spnCmd x0 s) := by
  refine .step ?_ e h
  unfold spnCmd
  repeat' first | (with_reducible first | apply FrameB.refl | assumption | intro _ | apply frame_access | apply frame_writeSpnCmd | apply FrameB.ite) | decide | split | dsimp only

theorem frame_spnFault x0 s (h : FrameB m o s) (e : sub 0x1A0EB2A180 m) : FrameB m o (spnFault x0 s) := by
  refine .step ?_ e h
  unfold spnFault
  repeat' first | (with_reducible first | apply FrameB.refl | apply frame_State_modSpn | apply frame_lockGone | apply FrameB.ite) | decide | split | dsimp only

theorem frame_spnInputs x0 x1 x2 x3 s (h : FrameB m o s) (e : sub 0x1000080 m) : FrameB m o (spnInputs x0 x1 x2 x3 s) := by
  refine .step ?_ e h
  unfold spnInputs
  repeat' first | (with_reducible first | apply FrameB.refl | apply frame_State_drawn | apply frame_State_modSve | apply FrameB.ite) | decide | split | dsimp only

theorem frame_startWrite x0 s (h : FrameB m o s) (e : sub 0x8000 m) : FrameB m o (startWrite x0 s) := by
  refine .step ?_ e h
  unfold startWrite
  repeat' first | (with_reducible first | apply FrameB.refl | apply frame_modCmd | apply FrameB.ite) | decide | split | dsimp only

theorem frame_stepTrim x0 s (h : FrameB m o s) (e : sub 0x7A00302B92 m) : FrameB m o (stepTrim x0 s) := by
  refine .step ?_ e h
  unfold stepTrim
  repeat' first | (with_reducible first | apply FrameB.refl | apply frame_State_modRwc | apply frame_advanceTo | apply frame_feedForward | apply frame_modTrim | apply frame_waitComes | apply FrameB.ite) | fail_if_no_progress ((with_reducible apply FrameB.set_trm); rfl) | decide | split | dsimp only

theorem frame_subsystemReset s (h : FrameB m o s) (e : sub 0x1AFDB7FBA0 m) : FrameB m o (subsystemReset s) := by
  refine .step ?_ e h
  unfold subsystemReset
  repeat' first | (with_reducible first | apply FrameB.refl | apply frame_State_modSys | apply frame_resetSteps | apply frame_stopController | apply FrameB.foldl (fun _ _ => ?_) | apply FrameB.ite) | decide | split | dsimp only

theorem frame_swapPhases s (h : FrameB m o s) (e : sub 0x1802000110 m) : FrameB m o (swapPhases s) := by
  refine .step ?_ e h
  unfold swapPhases
  repeat' first | (with_reducible first | apply FrameB.refl | apply frame_State_modSpn | apply frame_driveStep | apply frame_ev | apply frame_gatesLow | apply frame_setFld | apply FrameB.foldl (fun _ _ => ?_) | apply FrameB.ite) | decide | split | dsimp only

theorem frame_vlkWrite x0 x1 s (h : FrameB m o s) (e : sub 0x18600031A0 m) : FrameB m o (vlkWrite x0 x1 s) := by
  refine .step ?_ e h
  unfold vlkWrite
  repeat' first | (with_reducible first | apply FrameB.refl | apply frame_engWrite | apply FrameB.ite) | decide | split | dsimp only

theorem frame_takeChunk x0 x1 x2 x3 s (h : FrameB m o s) (e : sub 0x58600031A0 m) : FrameB m o (takeChunk x0 x1 x2 x3 s) := by
  refine .step ?_ e h
  unfold takeChunk
  repeat' first | (with_reducible first | apply FrameB.refl | apply frame_State_drawn | apply frame_State_modVlk | apply frame_ev | apply frame_raiseLine | apply frame_startFanout | apply frame_vlkWrite | apply FrameB.ite) | decide | split | dsimp only

theorem frame_takeEntry s x1 (h : FrameB m o s) (e : sub 0x58600031A0 m) : FrameB m o (takeEntry s x1) := by
  refine .step ?_ e h
  unfold takeEntry
  repeat' first | (with_reducible first | apply FrameB.refl | apply frame_State_modVlk | apply frame_forwardPut | apply frame_raiseLine | apply frame_vlkWrite | apply FrameB.ite) | decide | split | dsimp only

theorem frame_takeLease x0 x1 s (h : FrameB m o s) (e : sub 0x5800006100 m) : FrameB m o (takeLease x0 x1 s) := by
  refine .step ?_ e h
  unfold takeLease
  repeat' first | (with_reducible first | apply FrameB.refl | apply frame_State_modVlk | apply frame_ev | apply frame_raiseLine | apply frame_setLease | apply frame_vlkBump | apply FrameB.ite) | decide | split | dsimp only

theorem frame_takeNonce x0 s (h : FrameB m o s) (e : sub 0x80000000 m) : FrameB m o (takeNonce x0 s) := by
  refine .step ?_ e h
  unfold takeNonce
  repeat' first | (with_reducible first | apply FrameB.refl | apply frame_State_modSec | apply FrameB.ite) | decide | split | dsimp only

theorem frame_takePollItem s x1 (h : FrameB m o s) (e : sub 0x5880006100 m) : FrameB m o (takePollItem s x1) := by
  refine .step ?_ e h
  unfold takePollItem
  repeat' first | (with_reducible first | apply FrameB.refl | apply frame_State_modVlk | apply frame_takeLease | apply frame_takeNonce | apply FrameB.ite) | decide | split | dsimp only

theorem frame_takeReport x0 x1 x2 s (h : FrameB m o s) (e : sub 0x58600031A0 m) : FrameB m o (takeReport x0 x1 x2 s) := by
  refine .step ?_ e h
  unfold takeReport
  repeat' first | (with_reducible first | apply FrameB.refl | apply frame_State_modVlk | apply frame_raiseLine | apply frame_vlkWrite | apply FrameB.ite) | decide | split | dsimp only

theorem frame_takeReplyItem x0 s x2 (h : FrameB m o s) (e : sub 0x58600031A0 m) : FrameB m o (takeReplyItem x0 s x2) := by
  refine .step ?_ e h
  unfold takeReplyItem
  repeat' first | (with_reducible first | apply FrameB.refl | apply frame_State_modVlk | apply frame_modSlot | apply frame_takeEntry | apply frame_takeReport | apply FrameB.foldl (fun _ _ => ?_) | apply FrameB.ite) | decide | split | dsimp only

theorem frame_thermRaise s (h : FrameB m o s) (e : sub 0x1800004100 m) : FrameB m o (thermRaise s) := by
  refine .step ?_ e h
  unfold thermRaise
  repeat' first | (with_reducible first | apply FrameB.refl | apply frame_State_modLlt | apply frame_ev | apply FrameB.ite) | decide | split | dsimp only

theorem frame_unwrapRec x0 s (h : FrameB m o s) (e : sub 0x1880000100 m) : FrameB m o (unwrapRec x0 s) := by
  refine .step ?_ e h
  unfold unwrapRec
  repeat' first | (with_reducible first | apply FrameB.refl | apply frame_ev | apply frame_putSlot | apply FrameB.ite) | decide | split | dsimp only

theorem frame_vlkReceive x0 x1 x2 x3 x4 x5 x6 s (h : FrameB m o s) (e : sub 0x5800002100 m) (k0 : ∀ t, FrameB m o t → FrameB m o (x5 t)) (k1 : ∀ t, FrameB m o t → FrameB m o (x6 t)) : FrameB m o (vlkReceive x0 x1 x2 x3 x4 x5 x6 s) := by
  unfold vlkReceive
  repeat' first | assumption | (with_reducible first | apply frame_State_modVlk | apply frame_notePolarity | apply frame_vlkBump | apply FrameB.ite | apply k0 | apply k1) | (with_reducible apply sub_trans (h := e); decide) | (with_reducible apply frame_State_modVlk) | split | dsimp only [id]

theorem frame_upLink x0 x1 s (h : FrameB m o s) (e : sub 0x5800002100 m) (k0 : ∀ t, FrameB m o t → FrameB m o (x1 t)) : FrameB m o (upLink x0 x1 s) := by
  unfold upLink
  repeat' first | assumption | (with_reducible first | assumption | intro _ | apply frame_State_modVlk | apply frame_vlkReceive | apply FrameB.ite | apply k0) | (with_reducible apply sub_trans (h := e); decide) | (with_reducible apply frame_State_modVlk) | split | dsimp only [id]

theorem frame_upSeg x0 x1 x2 s (h : FrameB m o s) (e : sub 0x5800002100 m) (k0 : ∀ t, FrameB m o t → FrameB m o (x1 t)) (k1 : ∀ t, FrameB m o t → FrameB m o (x2 t)) : FrameB m o (upSeg x0 x1 x2 s) := by
  unfold upSeg
  repeat' first | assumption | (with_reducible first | assumption | intro _ | apply frame_State_modVlk | apply frame_vlkReceive | apply FrameB.ite | apply k0 | apply k1) | (with_reducible apply sub_trans (h := e); decide) | (with_reducible apply frame_State_modVlk) | split | dsimp only [id]

theorem frame_wayError x0 x1 x2 s (h : FrameB m o s) (e : sub 0x1860002120 m) : FrameB m o (wayError x0 x1 x2 s) := by
  refine .step ?_ e h
  unfold wayError
  repeat' first | (with_reducible first | apply FrameB.refl | apply frame_State_modBcc | apply frame_disableWay | apply FrameB.ite) | decide | split | dsimp only

theorem frame_wedgePasses x0 x1 s (h : FrameB m o s) (e : sub 0x100000 m) : FrameB m o (wedgePasses x0 x1 s) := by
  refine .step ?_ e h
  unfold wedgePasses
  repeat' first | (with_reducible first | apply FrameB.refl | apply frame_waitComes | apply FrameB.ite) | decide | split | dsimp only

theorem frame_wickReset x0 s (h : FrameB m o s) (e : sub 0x7FFFFFFF72 m) : FrameB m o (wickReset x0 s) := by
  refine .step ?_ e h
  unfold wickReset
  repeat' first | (with_reducible first | apply FrameB.refl | apply frame_coreReset | apply FrameB.ite) | fail_if_no_progress ((with_reducible apply FrameB.set_many14); rfl) | fail_if_no_progress ((with_reducible apply FrameB.set_clk_cal); rfl) | fail_if_no_progress ((with_reducible apply FrameB.set_us_sys); rfl) | fail_if_no_progress ((with_reducible apply FrameB.set_us); rfl) | fail_if_no_progress ((with_reducible apply FrameB.set_regs); rfl) | fail_if_no_progress ((with_reducible apply FrameB.set_mem); rfl) | fail_if_no_progress ((with_reducible apply FrameB.set_hdr); rfl) | fail_if_no_progress ((with_reducible apply FrameB.set_sys); rfl) | fail_if_no_progress ((with_reducible apply FrameB.set_clk); rfl) | fail_if_no_progress ((with_reducible apply FrameB.set_pwr); rfl) | fail_if_no_progress ((with_reducible apply FrameB.set_llt); rfl) | fail_if_no_progress ((with_reducible apply FrameB.set_sec); rfl) | fail_if_no_progress ((with_reducible apply FrameB.set_thm); rfl) | fail_if_no_progress ((with_reducible apply FrameB.set_sup); rfl) | fail_if_no_progress ((with_reducible apply FrameB.set_evr); rfl) | fail_if_no_progress ((with_reducible apply FrameB.set_lif); rfl) | fail_if_no_progress ((with_reducible apply FrameB.set_cal); rfl) | decide | split | dsimp only

theorem frame_xo32kFails s (h : FrameB m o s) (e : sub 0x3800000500 m) : FrameB m o (xo32kFails s) := by
  refine .step ?_ e h
  unfold xo32kFails
  repeat' first | (with_reducible first | apply FrameB.refl | apply frame_ev | apply FrameB.ite) | fail_if_no_progress ((with_reducible apply FrameB.set_clk_cal); rfl) | fail_if_no_progress ((with_reducible apply FrameB.set_clk); rfl) | fail_if_no_progress ((with_reducible apply FrameB.set_cal); rfl) | decide | split | dsimp only

theorem frame_zeroMibs x0 s (h : FrameB m o s) (e : sub 0x20000020 m) : FrameB m o (zeroMibs x0 s) := by
  refine .step ?_ e h
  unfold zeroMibs
  repeat' first | (with_reducible first | apply FrameB.refl | apply FrameB.ite) | fail_if_no_progress ((with_reducible apply FrameB.set_mem_dmc); rfl) | fail_if_no_progress ((with_reducible apply FrameB.set_mem); rfl) | fail_if_no_progress ((with_reducible apply FrameB.set_dmc); rfl) | decide | split | dsimp only

theorem frame_zonesChange x0 x1 x2 x3 x4 s (h : FrameB m o s) (e : sub 0x20000 m) : FrameB m o (zonesChange x0 x1 x2 x3 x4 s) := by
  refine .step ?_ e h
  clear h e
  induction x4 generalizing s with
  | nil => unfold zonesChange; exact .refl
  | cons _ _ ih =>
    unfold zonesChange
    repeat' first | (with_reducible first | apply FrameB.refl | apply frame_journalZone | apply frame_modZone | apply FrameB.ite) | ((with_reducible apply FrameB.step (ih ..)); rfl) | decide | split | dsimp only

theorem frame_zoneAll x0 s (h : FrameB m o s) (e : sub 0x1800038180 m) : FrameB m o (zoneAll x0 s) := by
  refine .step ?_ e h
  unfold zoneAll
  repeat' first | (with_reducible first | apply FrameB.refl | apply frame_barrierLogged | apply frame_finish | apply frame_makeRoom | apply frame_zonesChange | apply FrameB.foldl (fun _ _ => ?_) | apply FrameB.ite) | decide | split | dsimp only

theorem frame_zoneOne x0 s (h : FrameB m o s) (e : sub 0x1800038180 m) : FrameB m o (zoneOne x0 s) := by
  refine .step ?_ e h
  unfold zoneOne
  repeat' first | (with_reducible first | apply FrameB.refl | apply frame_finish | apply frame_makeRoom | apply frame_zonesChange | apply FrameB.ite) | decide | split | dsimp only

end Sys2Proof.Machine
end

