-- ==== Sys2Proof/Laws/State.lean ====
section
/-!
SUPPORT. What each update of State leaves and sets: one lemma for each field of each update, so that no proof unfolds a
record update.
-/

set_option Elab.async false

namespace Sys2Proof.Machine

@[simp] theorem State.drawn_pending (s : State) : (State.drawn s).pending = s.pending := rfl
@[simp] theorem State.drawn_us (s : State) : (State.drawn s).us = s.us := rfl
@[simp] theorem State.drawn_busData (s : State) : (State.drawn s).busData = s.busData := rfl
@[simp] theorem State.drawn_busErr (s : State) : (State.drawn s).busErr = s.busErr := rfl
@[simp] theorem State.drawn_regs (s : State) : (State.drawn s).regs = s.regs := rfl
@[simp] theorem State.drawn_mem (s : State) : (State.drawn s).mem = s.mem := rfl
@[simp] theorem State.drawn_tcm (s : State) : (State.drawn s).tcm = s.tcm := rfl
@[simp] theorem State.drawn_hdr (s : State) : (State.drawn s).hdr = s.hdr := rfl
@[simp] theorem State.drawn_sys (s : State) : (State.drawn s).sys = s.sys := rfl
@[simp] theorem State.drawn_clk (s : State) : (State.drawn s).clk = s.clk := rfl
@[simp] theorem State.drawn_pwr (s : State) : (State.drawn s).pwr = s.pwr := rfl
@[simp] theorem State.drawn_l1 (s : State) : (State.drawn s).l1 = s.l1 := rfl
@[simp] theorem State.drawn_irq (s : State) : (State.drawn s).irq = s.irq := rfl
@[simp] theorem State.drawn_llt (s : State) : (State.drawn s).llt = s.llt := rfl
@[simp] theorem State.drawn_hce (s : State) : (State.drawn s).hce = s.hce := rfl
@[simp] theorem State.drawn_lgr (s : State) : (State.drawn s).lgr = s.lgr := rfl
@[simp] theorem State.drawn_xmt (s : State) : (State.drawn s).xmt = s.xmt := rfl
@[simp] theorem State.drawn_rvr (s : State) : (State.drawn s).rvr = s.rvr := rfl
@[simp] theorem State.drawn_cst (s : State) : (State.drawn s).cst = s.cst := rfl
@[simp] theorem State.drawn_asq (s : State) : (State.drawn s).asq = s.asq := rfl
@[simp] theorem State.drawn_rwc (s : State) : (State.drawn s).rwc = s.rwc := rfl
@[simp] theorem State.drawn_ldp (s : State) : (State.drawn s).ldp = s.ldp := rfl
@[simp] theorem State.drawn_tpe (s : State) : (State.drawn s).tpe = s.tpe := rfl
@[simp] theorem State.drawn_sve (s : State) : (State.drawn s).sve = s.sve := rfl
@[simp] theorem State.drawn_spn (s : State) : (State.drawn s).spn = s.spn := rfl
@[simp] theorem State.drawn_psi (s : State) : (State.drawn s).psi = s.psi := rfl
@[simp] theorem State.drawn_lsr (s : State) : (State.drawn s).lsr = s.lsr := rfl
@[simp] theorem State.drawn_opt (s : State) : (State.drawn s).opt = s.opt := rfl
@[simp] theorem State.drawn_dmc (s : State) : (State.drawn s).dmc = s.dmc := rfl
@[simp] theorem State.drawn_bcc (s : State) : (State.drawn s).bcc = s.bcc := rfl
@[simp] theorem State.drawn_sec (s : State) : (State.drawn s).sec = s.sec := rfl
@[simp] theorem State.drawn_thm (s : State) : (State.drawn s).thm = s.thm := rfl
@[simp] theorem State.drawn_trm (s : State) : (State.drawn s).trm = s.trm := rfl
@[simp] theorem State.drawn_sup (s : State) : (State.drawn s).sup = s.sup := rfl
@[simp] theorem State.drawn_evr (s : State) : (State.drawn s).evr = s.evr := rfl
@[simp] theorem State.drawn_lif (s : State) : (State.drawn s).lif = s.lif := rfl
@[simp] theorem State.drawn_cal (s : State) : (State.drawn s).cal = s.cal := rfl
@[simp] theorem State.drawn_vlk (s : State) : (State.drawn s).vlk = s.vlk := rfl
@[simp] theorem State.modAsq_pending x0 x1 (s : State) : (State.modAsq x0 x1 s).pending = s.pending := rfl
@[simp] theorem State.modAsq_us x0 x1 (s : State) : (State.modAsq x0 x1 s).us = s.us := rfl
@[simp] theorem State.modAsq_busData x0 x1 (s : State) : (State.modAsq x0 x1 s).busData = s.busData := rfl
@[simp] theorem State.modAsq_busErr x0 x1 (s : State) : (State.modAsq x0 x1 s).busErr = s.busErr := rfl
@[simp] theorem State.modAsq_regs x0 x1 (s : State) : (State.modAsq x0 x1 s).regs = s.regs := rfl
@[simp] theorem State.modAsq_mem x0 x1 (s : State) : (State.modAsq x0 x1 s).mem = s.mem := rfl
@[simp] theorem State.modAsq_tcm x0 x1 (s : State) : (State.modAsq x0 x1 s).tcm = s.tcm := rfl
@[simp] theorem State.modAsq_free x0 x1 (s : State) : (State.modAsq x0 x1 s).free = s.free := rfl
@[simp] theorem State.modAsq_hdr x0 x1 (s : State) : (State.modAsq x0 x1 s).hdr = s.hdr := rfl
@[simp] theorem State.modAsq_sys x0 x1 (s : State) : (State.modAsq x0 x1 s).sys = s.sys := rfl
@[simp] theorem State.modAsq_clk x0 x1 (s : State) : (State.modAsq x0 x1 s).clk = s.clk := rfl
@[simp] theorem State.modAsq_pwr x0 x1 (s : State) : (State.modAsq x0 x1 s).pwr = s.pwr := rfl
@[simp] theorem State.modAsq_l1 x0 x1 (s : State) : (State.modAsq x0 x1 s).l1 = s.l1 := rfl
@[simp] theorem State.modAsq_irq x0 x1 (s : State) : (State.modAsq x0 x1 s).irq = s.irq := rfl
@[simp] theorem State.modAsq_llt x0 x1 (s : State) : (State.modAsq x0 x1 s).llt = s.llt := rfl
@[simp] theorem State.modAsq_hce x0 x1 (s : State) : (State.modAsq x0 x1 s).hce = s.hce := rfl
@[simp] theorem State.modAsq_lgr x0 x1 (s : State) : (State.modAsq x0 x1 s).lgr = s.lgr := rfl
@[simp] theorem State.modAsq_xmt x0 x1 (s : State) : (State.modAsq x0 x1 s).xmt = s.xmt := rfl
@[simp] theorem State.modAsq_rvr x0 x1 (s : State) : (State.modAsq x0 x1 s).rvr = s.rvr := rfl
@[simp] theorem State.modAsq_cst x0 x1 (s : State) : (State.modAsq x0 x1 s).cst = s.cst := rfl
@[simp] theorem State.modAsq_rwc x0 x1 (s : State) : (State.modAsq x0 x1 s).rwc = s.rwc := rfl
@[simp] theorem State.modAsq_ldp x0 x1 (s : State) : (State.modAsq x0 x1 s).ldp = s.ldp := rfl
@[simp] theorem State.modAsq_tpe x0 x1 (s : State) : (State.modAsq x0 x1 s).tpe = s.tpe := rfl
@[simp] theorem State.modAsq_sve x0 x1 (s : State) : (State.modAsq x0 x1 s).sve = s.sve := rfl
@[simp] theorem State.modAsq_spn x0 x1 (s : State) : (State.modAsq x0 x1 s).spn = s.spn := rfl
@[simp] theorem State.modAsq_psi x0 x1 (s : State) : (State.modAsq x0 x1 s).psi = s.psi := rfl
@[simp] theorem State.modAsq_lsr x0 x1 (s : State) : (State.modAsq x0 x1 s).lsr = s.lsr := rfl
@[simp] theorem State.modAsq_opt x0 x1 (s : State) : (State.modAsq x0 x1 s).opt = s.opt := rfl
@[simp] theorem State.modAsq_dmc x0 x1 (s : State) : (State.modAsq x0 x1 s).dmc = s.dmc := rfl
@[simp] theorem State.modAsq_bcc x0 x1 (s : State) : (State.modAsq x0 x1 s).bcc = s.bcc := rfl
@[simp] theorem State.modAsq_sec x0 x1 (s : State) : (State.modAsq x0 x1 s).sec = s.sec := rfl
@[simp] theorem State.modAsq_thm x0 x1 (s : State) : (State.modAsq x0 x1 s).thm = s.thm := rfl
@[simp] theorem State.modAsq_trm x0 x1 (s : State) : (State.modAsq x0 x1 s).trm = s.trm := rfl
@[simp] theorem State.modAsq_sup x0 x1 (s : State) : (State.modAsq x0 x1 s).sup = s.sup := rfl
@[simp] theorem State.modAsq_evr x0 x1 (s : State) : (State.modAsq x0 x1 s).evr = s.evr := rfl
@[simp] theorem State.modAsq_lif x0 x1 (s : State) : (State.modAsq x0 x1 s).lif = s.lif := rfl
@[simp] theorem State.modAsq_cal x0 x1 (s : State) : (State.modAsq x0 x1 s).cal = s.cal := rfl
@[simp] theorem State.modAsq_vlk x0 x1 (s : State) : (State.modAsq x0 x1 s).vlk = s.vlk := rfl
@[simp] theorem State.modCtrl_pending x0 x1 (s : State) : (State.modCtrl x0 x1 s).pending = s.pending := rfl
@[simp] theorem State.modCtrl_us x0 x1 (s : State) : (State.modCtrl x0 x1 s).us = s.us := rfl
@[simp] theorem State.modCtrl_busData x0 x1 (s : State) : (State.modCtrl x0 x1 s).busData = s.busData := rfl
@[simp] theorem State.modCtrl_busErr x0 x1 (s : State) : (State.modCtrl x0 x1 s).busErr = s.busErr := rfl
@[simp] theorem State.modCtrl_regs x0 x1 (s : State) : (State.modCtrl x0 x1 s).regs = s.regs := rfl
@[simp] theorem State.modCtrl_mem x0 x1 (s : State) : (State.modCtrl x0 x1 s).mem = s.mem := rfl
@[simp] theorem State.modCtrl_tcm x0 x1 (s : State) : (State.modCtrl x0 x1 s).tcm = s.tcm := rfl
@[simp] theorem State.modCtrl_free x0 x1 (s : State) : (State.modCtrl x0 x1 s).free = s.free := rfl
@[simp] theorem State.modCtrl_hdr x0 x1 (s : State) : (State.modCtrl x0 x1 s).hdr = s.hdr := rfl
@[simp] theorem State.modCtrl_sys x0 x1 (s : State) : (State.modCtrl x0 x1 s).sys = s.sys := rfl
@[simp] theorem State.modCtrl_clk x0 x1 (s : State) : (State.modCtrl x0 x1 s).clk = s.clk := rfl
@[simp] theorem State.modCtrl_pwr x0 x1 (s : State) : (State.modCtrl x0 x1 s).pwr = s.pwr := rfl
@[simp] theorem State.modCtrl_l1 x0 x1 (s : State) : (State.modCtrl x0 x1 s).l1 = s.l1 := rfl
@[simp] theorem State.modCtrl_irq x0 x1 (s : State) : (State.modCtrl x0 x1 s).irq = s.irq := rfl
@[simp] theorem State.modCtrl_llt x0 x1 (s : State) : (State.modCtrl x0 x1 s).llt = s.llt := rfl
@[simp] theorem State.modCtrl_lgr x0 x1 (s : State) : (State.modCtrl x0 x1 s).lgr = s.lgr := rfl
@[simp] theorem State.modCtrl_xmt x0 x1 (s : State) : (State.modCtrl x0 x1 s).xmt = s.xmt := rfl
@[simp] theorem State.modCtrl_rvr x0 x1 (s : State) : (State.modCtrl x0 x1 s).rvr = s.rvr := rfl
@[simp] theorem State.modCtrl_cst x0 x1 (s : State) : (State.modCtrl x0 x1 s).cst = s.cst := rfl
@[simp] theorem State.modCtrl_asq x0 x1 (s : State) : (State.modCtrl x0 x1 s).asq = s.asq := rfl
@[simp] theorem State.modCtrl_rwc x0 x1 (s : State) : (State.modCtrl x0 x1 s).rwc = s.rwc := rfl
@[simp] theorem State.modCtrl_ldp x0 x1 (s : State) : (State.modCtrl x0 x1 s).ldp = s.ldp := rfl
@[simp] theorem State.modCtrl_tpe x0 x1 (s : State) : (State.modCtrl x0 x1 s).tpe = s.tpe := rfl
@[simp] theorem State.modCtrl_sve x0 x1 (s : State) : (State.modCtrl x0 x1 s).sve = s.sve := rfl
@[simp] theorem State.modCtrl_spn x0 x1 (s : State) : (State.modCtrl x0 x1 s).spn = s.spn := rfl
@[simp] theorem State.modCtrl_psi x0 x1 (s : State) : (State.modCtrl x0 x1 s).psi = s.psi := rfl
@[simp] theorem State.modCtrl_lsr x0 x1 (s : State) : (State.modCtrl x0 x1 s).lsr = s.lsr := rfl
@[simp] theorem State.modCtrl_opt x0 x1 (s : State) : (State.modCtrl x0 x1 s).opt = s.opt := rfl
@[simp] theorem State.modCtrl_dmc x0 x1 (s : State) : (State.modCtrl x0 x1 s).dmc = s.dmc := rfl
@[simp] theorem State.modCtrl_bcc x0 x1 (s : State) : (State.modCtrl x0 x1 s).bcc = s.bcc := rfl
@[simp] theorem State.modCtrl_sec x0 x1 (s : State) : (State.modCtrl x0 x1 s).sec = s.sec := rfl
@[simp] theorem State.modCtrl_thm x0 x1 (s : State) : (State.modCtrl x0 x1 s).thm = s.thm := rfl
@[simp] theorem State.modCtrl_trm x0 x1 (s : State) : (State.modCtrl x0 x1 s).trm = s.trm := rfl
@[simp] theorem State.modCtrl_sup x0 x1 (s : State) : (State.modCtrl x0 x1 s).sup = s.sup := rfl
@[simp] theorem State.modCtrl_evr x0 x1 (s : State) : (State.modCtrl x0 x1 s).evr = s.evr := rfl
@[simp] theorem State.modCtrl_lif x0 x1 (s : State) : (State.modCtrl x0 x1 s).lif = s.lif := rfl
@[simp] theorem State.modCtrl_cal x0 x1 (s : State) : (State.modCtrl x0 x1 s).cal = s.cal := rfl
@[simp] theorem State.modCtrl_vlk x0 x1 (s : State) : (State.modCtrl x0 x1 s).vlk = s.vlk := rfl
@[simp] theorem State.modEvr_pending x0 (s : State) : (State.modEvr x0 s).pending = s.pending := rfl
@[simp] theorem State.modEvr_us x0 (s : State) : (State.modEvr x0 s).us = s.us := rfl
@[simp] theorem State.modEvr_busData x0 (s : State) : (State.modEvr x0 s).busData = s.busData := rfl
@[simp] theorem State.modEvr_busErr x0 (s : State) : (State.modEvr x0 s).busErr = s.busErr := rfl
@[simp] theorem State.modEvr_regs x0 (s : State) : (State.modEvr x0 s).regs = s.regs := rfl
@[simp] theorem State.modEvr_mem x0 (s : State) : (State.modEvr x0 s).mem = s.mem := rfl
@[simp] theorem State.modEvr_tcm x0 (s : State) : (State.modEvr x0 s).tcm = s.tcm := rfl
@[simp] theorem State.modEvr_free x0 (s : State) : (State.modEvr x0 s).free = s.free := rfl
@[simp] theorem State.modEvr_hdr x0 (s : State) : (State.modEvr x0 s).hdr = s.hdr := rfl
@[simp] theorem State.modEvr_sys x0 (s : State) : (State.modEvr x0 s).sys = s.sys := rfl
@[simp] theorem State.modEvr_clk x0 (s : State) : (State.modEvr x0 s).clk = s.clk := rfl
@[simp] theorem State.modEvr_pwr x0 (s : State) : (State.modEvr x0 s).pwr = s.pwr := rfl
@[simp] theorem State.modEvr_l1 x0 (s : State) : (State.modEvr x0 s).l1 = s.l1 := rfl
@[simp] theorem State.modEvr_irq x0 (s : State) : (State.modEvr x0 s).irq = s.irq := rfl
@[simp] theorem State.modEvr_llt x0 (s : State) : (State.modEvr x0 s).llt = s.llt := rfl
@[simp] theorem State.modEvr_hce x0 (s : State) : (State.modEvr x0 s).hce = s.hce := rfl
@[simp] theorem State.modEvr_lgr x0 (s : State) : (State.modEvr x0 s).lgr = s.lgr := rfl
@[simp] theorem State.modEvr_xmt x0 (s : State) : (State.modEvr x0 s).xmt = s.xmt := rfl
@[simp] theorem State.modEvr_rvr x0 (s : State) : (State.modEvr x0 s).rvr = s.rvr := rfl
@[simp] theorem State.modEvr_cst x0 (s : State) : (State.modEvr x0 s).cst = s.cst := rfl
@[simp] theorem State.modEvr_asq x0 (s : State) : (State.modEvr x0 s).asq = s.asq := rfl
@[simp] theorem State.modEvr_rwc x0 (s : State) : (State.modEvr x0 s).rwc = s.rwc := rfl
@[simp] theorem State.modEvr_ldp x0 (s : State) : (State.modEvr x0 s).ldp = s.ldp := rfl
@[simp] theorem State.modEvr_tpe x0 (s : State) : (State.modEvr x0 s).tpe = s.tpe := rfl
@[simp] theorem State.modEvr_sve x0 (s : State) : (State.modEvr x0 s).sve = s.sve := rfl
@[simp] theorem State.modEvr_spn x0 (s : State) : (State.modEvr x0 s).spn = s.spn := rfl
@[simp] theorem State.modEvr_psi x0 (s : State) : (State.modEvr x0 s).psi = s.psi := rfl
@[simp] theorem State.modEvr_lsr x0 (s : State) : (State.modEvr x0 s).lsr = s.lsr := rfl
@[simp] theorem State.modEvr_opt x0 (s : State) : (State.modEvr x0 s).opt = s.opt := rfl
@[simp] theorem State.modEvr_dmc x0 (s : State) : (State.modEvr x0 s).dmc = s.dmc := rfl
@[simp] theorem State.modEvr_bcc x0 (s : State) : (State.modEvr x0 s).bcc = s.bcc := rfl
@[simp] theorem State.modEvr_sec x0 (s : State) : (State.modEvr x0 s).sec = s.sec := rfl
@[simp] theorem State.modEvr_thm x0 (s : State) : (State.modEvr x0 s).thm = s.thm := rfl
@[simp] theorem State.modEvr_trm x0 (s : State) : (State.modEvr x0 s).trm = s.trm := rfl
@[simp] theorem State.modEvr_sup x0 (s : State) : (State.modEvr x0 s).sup = s.sup := rfl
@[simp] theorem State.modEvr_lif x0 (s : State) : (State.modEvr x0 s).lif = s.lif := rfl
@[simp] theorem State.modEvr_cal x0 (s : State) : (State.modEvr x0 s).cal = s.cal := rfl
@[simp] theorem State.modEvr_vlk x0 (s : State) : (State.modEvr x0 s).vlk = s.vlk := rfl
@[simp] theorem State.modGrp_pending x0 x1 (s : State) : (State.modGrp x0 x1 s).pending = s.pending := rfl
@[simp] theorem State.modGrp_us x0 x1 (s : State) : (State.modGrp x0 x1 s).us = s.us := rfl
@[simp] theorem State.modGrp_busData x0 x1 (s : State) : (State.modGrp x0 x1 s).busData = s.busData := rfl
@[simp] theorem State.modGrp_busErr x0 x1 (s : State) : (State.modGrp x0 x1 s).busErr = s.busErr := rfl
@[simp] theorem State.modGrp_regs x0 x1 (s : State) : (State.modGrp x0 x1 s).regs = s.regs := rfl
@[simp] theorem State.modGrp_mem x0 x1 (s : State) : (State.modGrp x0 x1 s).mem = s.mem := rfl
@[simp] theorem State.modGrp_tcm x0 x1 (s : State) : (State.modGrp x0 x1 s).tcm = s.tcm := rfl
@[simp] theorem State.modGrp_free x0 x1 (s : State) : (State.modGrp x0 x1 s).free = s.free := rfl
@[simp] theorem State.modGrp_hdr x0 x1 (s : State) : (State.modGrp x0 x1 s).hdr = s.hdr := rfl
@[simp] theorem State.modGrp_sys x0 x1 (s : State) : (State.modGrp x0 x1 s).sys = s.sys := rfl
@[simp] theorem State.modGrp_clk x0 x1 (s : State) : (State.modGrp x0 x1 s).clk = s.clk := rfl
@[simp] theorem State.modGrp_pwr x0 x1 (s : State) : (State.modGrp x0 x1 s).pwr = s.pwr := rfl
@[simp] theorem State.modGrp_l1 x0 x1 (s : State) : (State.modGrp x0 x1 s).l1 = s.l1 := rfl
@[simp] theorem State.modGrp_irq x0 x1 (s : State) : (State.modGrp x0 x1 s).irq = s.irq := rfl
@[simp] theorem State.modGrp_llt x0 x1 (s : State) : (State.modGrp x0 x1 s).llt = s.llt := rfl
@[simp] theorem State.modGrp_hce x0 x1 (s : State) : (State.modGrp x0 x1 s).hce = s.hce := rfl
@[simp] theorem State.modGrp_lgr x0 x1 (s : State) : (State.modGrp x0 x1 s).lgr = s.lgr := rfl
@[simp] theorem State.modGrp_xmt x0 x1 (s : State) : (State.modGrp x0 x1 s).xmt = s.xmt := rfl
@[simp] theorem State.modGrp_rvr x0 x1 (s : State) : (State.modGrp x0 x1 s).rvr = s.rvr := rfl
@[simp] theorem State.modGrp_cst x0 x1 (s : State) : (State.modGrp x0 x1 s).cst = s.cst := rfl
@[simp] theorem State.modGrp_asq x0 x1 (s : State) : (State.modGrp x0 x1 s).asq = s.asq := rfl
@[simp] theorem State.modGrp_rwc x0 x1 (s : State) : (State.modGrp x0 x1 s).rwc = s.rwc := rfl
@[simp] theorem State.modGrp_ldp x0 x1 (s : State) : (State.modGrp x0 x1 s).ldp = s.ldp := rfl
@[simp] theorem State.modGrp_sve x0 x1 (s : State) : (State.modGrp x0 x1 s).sve = s.sve := rfl
@[simp] theorem State.modGrp_spn x0 x1 (s : State) : (State.modGrp x0 x1 s).spn = s.spn := rfl
@[simp] theorem State.modGrp_psi x0 x1 (s : State) : (State.modGrp x0 x1 s).psi = s.psi := rfl
@[simp] theorem State.modGrp_lsr x0 x1 (s : State) : (State.modGrp x0 x1 s).lsr = s.lsr := rfl
@[simp] theorem State.modGrp_opt x0 x1 (s : State) : (State.modGrp x0 x1 s).opt = s.opt := rfl
@[simp] theorem State.modGrp_dmc x0 x1 (s : State) : (State.modGrp x0 x1 s).dmc = s.dmc := rfl
@[simp] theorem State.modGrp_bcc x0 x1 (s : State) : (State.modGrp x0 x1 s).bcc = s.bcc := rfl
@[simp] theorem State.modGrp_sec x0 x1 (s : State) : (State.modGrp x0 x1 s).sec = s.sec := rfl
@[simp] theorem State.modGrp_thm x0 x1 (s : State) : (State.modGrp x0 x1 s).thm = s.thm := rfl
@[simp] theorem State.modGrp_trm x0 x1 (s : State) : (State.modGrp x0 x1 s).trm = s.trm := rfl
@[simp] theorem State.modGrp_sup x0 x1 (s : State) : (State.modGrp x0 x1 s).sup = s.sup := rfl
@[simp] theorem State.modGrp_evr x0 x1 (s : State) : (State.modGrp x0 x1 s).evr = s.evr := rfl
@[simp] theorem State.modGrp_lif x0 x1 (s : State) : (State.modGrp x0 x1 s).lif = s.lif := rfl
@[simp] theorem State.modGrp_cal x0 x1 (s : State) : (State.modGrp x0 x1 s).cal = s.cal := rfl
@[simp] theorem State.modGrp_vlk x0 x1 (s : State) : (State.modGrp x0 x1 s).vlk = s.vlk := rfl
@[simp] theorem State.modHce_pending x0 (s : State) : (State.modHce x0 s).pending = s.pending := rfl
@[simp] theorem State.modHce_us x0 (s : State) : (State.modHce x0 s).us = s.us := rfl
@[simp] theorem State.modHce_busData x0 (s : State) : (State.modHce x0 s).busData = s.busData := rfl
@[simp] theorem State.modHce_busErr x0 (s : State) : (State.modHce x0 s).busErr = s.busErr := rfl
@[simp] theorem State.modHce_regs x0 (s : State) : (State.modHce x0 s).regs = s.regs := rfl
@[simp] theorem State.modHce_mem x0 (s : State) : (State.modHce x0 s).mem = s.mem := rfl
@[simp] theorem State.modHce_tcm x0 (s : State) : (State.modHce x0 s).tcm = s.tcm := rfl
@[simp] theorem State.modHce_free x0 (s : State) : (State.modHce x0 s).free = s.free := rfl
@[simp] theorem State.modHce_hdr x0 (s : State) : (State.modHce x0 s).hdr = s.hdr := rfl
@[simp] theorem State.modHce_sys x0 (s : State) : (State.modHce x0 s).sys = s.sys := rfl
@[simp] theorem State.modHce_clk x0 (s : State) : (State.modHce x0 s).clk = s.clk := rfl
@[simp] theorem State.modHce_pwr x0 (s : State) : (State.modHce x0 s).pwr = s.pwr := rfl
@[simp] theorem State.modHce_l1 x0 (s : State) : (State.modHce x0 s).l1 = s.l1 := rfl
@[simp] theorem State.modHce_irq x0 (s : State) : (State.modHce x0 s).irq = s.irq := rfl
@[simp] theorem State.modHce_llt x0 (s : State) : (State.modHce x0 s).llt = s.llt := rfl
@[simp] theorem State.modHce_lgr x0 (s : State) : (State.modHce x0 s).lgr = s.lgr := rfl
@[simp] theorem State.modHce_xmt x0 (s : State) : (State.modHce x0 s).xmt = s.xmt := rfl
@[simp] theorem State.modHce_rvr x0 (s : State) : (State.modHce x0 s).rvr = s.rvr := rfl
@[simp] theorem State.modHce_cst x0 (s : State) : (State.modHce x0 s).cst = s.cst := rfl
@[simp] theorem State.modHce_asq x0 (s : State) : (State.modHce x0 s).asq = s.asq := rfl
@[simp] theorem State.modHce_rwc x0 (s : State) : (State.modHce x0 s).rwc = s.rwc := rfl
@[simp] theorem State.modHce_ldp x0 (s : State) : (State.modHce x0 s).ldp = s.ldp := rfl
@[simp] theorem State.modHce_tpe x0 (s : State) : (State.modHce x0 s).tpe = s.tpe := rfl
@[simp] theorem State.modHce_sve x0 (s : State) : (State.modHce x0 s).sve = s.sve := rfl
@[simp] theorem State.modHce_spn x0 (s : State) : (State.modHce x0 s).spn = s.spn := rfl
@[simp] theorem State.modHce_psi x0 (s : State) : (State.modHce x0 s).psi = s.psi := rfl
@[simp] theorem State.modHce_lsr x0 (s : State) : (State.modHce x0 s).lsr = s.lsr := rfl
@[simp] theorem State.modHce_opt x0 (s : State) : (State.modHce x0 s).opt = s.opt := rfl
@[simp] theorem State.modHce_dmc x0 (s : State) : (State.modHce x0 s).dmc = s.dmc := rfl
@[simp] theorem State.modHce_bcc x0 (s : State) : (State.modHce x0 s).bcc = s.bcc := rfl
@[simp] theorem State.modHce_sec x0 (s : State) : (State.modHce x0 s).sec = s.sec := rfl
@[simp] theorem State.modHce_thm x0 (s : State) : (State.modHce x0 s).thm = s.thm := rfl
@[simp] theorem State.modHce_trm x0 (s : State) : (State.modHce x0 s).trm = s.trm := rfl
@[simp] theorem State.modHce_sup x0 (s : State) : (State.modHce x0 s).sup = s.sup := rfl
@[simp] theorem State.modHce_evr x0 (s : State) : (State.modHce x0 s).evr = s.evr := rfl
@[simp] theorem State.modHce_lif x0 (s : State) : (State.modHce x0 s).lif = s.lif := rfl
@[simp] theorem State.modHce_cal x0 (s : State) : (State.modHce x0 s).cal = s.cal := rfl
@[simp] theorem State.modHce_vlk x0 (s : State) : (State.modHce x0 s).vlk = s.vlk := rfl
@[simp] theorem State.modHdr_pending x0 x1 (s : State) : (State.modHdr x0 x1 s).pending = s.pending := rfl
@[simp] theorem State.modHdr_us x0 x1 (s : State) : (State.modHdr x0 x1 s).us = s.us := rfl
@[simp] theorem State.modHdr_busData x0 x1 (s : State) : (State.modHdr x0 x1 s).busData = s.busData := rfl
@[simp] theorem State.modHdr_busErr x0 x1 (s : State) : (State.modHdr x0 x1 s).busErr = s.busErr := rfl
@[simp] theorem State.modHdr_regs x0 x1 (s : State) : (State.modHdr x0 x1 s).regs = s.regs := rfl
@[simp] theorem State.modHdr_mem x0 x1 (s : State) : (State.modHdr x0 x1 s).mem = s.mem := rfl
@[simp] theorem State.modHdr_tcm x0 x1 (s : State) : (State.modHdr x0 x1 s).tcm = s.tcm := rfl
@[simp] theorem State.modHdr_free x0 x1 (s : State) : (State.modHdr x0 x1 s).free = s.free := rfl
@[simp] theorem State.modHdr_sys x0 x1 (s : State) : (State.modHdr x0 x1 s).sys = s.sys := rfl
@[simp] theorem State.modHdr_clk x0 x1 (s : State) : (State.modHdr x0 x1 s).clk = s.clk := rfl
@[simp] theorem State.modHdr_pwr x0 x1 (s : State) : (State.modHdr x0 x1 s).pwr = s.pwr := rfl
@[simp] theorem State.modHdr_l1 x0 x1 (s : State) : (State.modHdr x0 x1 s).l1 = s.l1 := rfl
@[simp] theorem State.modHdr_irq x0 x1 (s : State) : (State.modHdr x0 x1 s).irq = s.irq := rfl
@[simp] theorem State.modHdr_llt x0 x1 (s : State) : (State.modHdr x0 x1 s).llt = s.llt := rfl
@[simp] theorem State.modHdr_hce x0 x1 (s : State) : (State.modHdr x0 x1 s).hce = s.hce := rfl
@[simp] theorem State.modHdr_lgr x0 x1 (s : State) : (State.modHdr x0 x1 s).lgr = s.lgr := rfl
@[simp] theorem State.modHdr_xmt x0 x1 (s : State) : (State.modHdr x0 x1 s).xmt = s.xmt := rfl
@[simp] theorem State.modHdr_rvr x0 x1 (s : State) : (State.modHdr x0 x1 s).rvr = s.rvr := rfl
@[simp] theorem State.modHdr_cst x0 x1 (s : State) : (State.modHdr x0 x1 s).cst = s.cst := rfl
@[simp] theorem State.modHdr_asq x0 x1 (s : State) : (State.modHdr x0 x1 s).asq = s.asq := rfl
@[simp] theorem State.modHdr_rwc x0 x1 (s : State) : (State.modHdr x0 x1 s).rwc = s.rwc := rfl
@[simp] theorem State.modHdr_ldp x0 x1 (s : State) : (State.modHdr x0 x1 s).ldp = s.ldp := rfl
@[simp] theorem State.modHdr_tpe x0 x1 (s : State) : (State.modHdr x0 x1 s).tpe = s.tpe := rfl
@[simp] theorem State.modHdr_sve x0 x1 (s : State) : (State.modHdr x0 x1 s).sve = s.sve := rfl
@[simp] theorem State.modHdr_spn x0 x1 (s : State) : (State.modHdr x0 x1 s).spn = s.spn := rfl
@[simp] theorem State.modHdr_psi x0 x1 (s : State) : (State.modHdr x0 x1 s).psi = s.psi := rfl
@[simp] theorem State.modHdr_lsr x0 x1 (s : State) : (State.modHdr x0 x1 s).lsr = s.lsr := rfl
@[simp] theorem State.modHdr_opt x0 x1 (s : State) : (State.modHdr x0 x1 s).opt = s.opt := rfl
@[simp] theorem State.modHdr_dmc x0 x1 (s : State) : (State.modHdr x0 x1 s).dmc = s.dmc := rfl
@[simp] theorem State.modHdr_bcc x0 x1 (s : State) : (State.modHdr x0 x1 s).bcc = s.bcc := rfl
@[simp] theorem State.modHdr_sec x0 x1 (s : State) : (State.modHdr x0 x1 s).sec = s.sec := rfl
@[simp] theorem State.modHdr_thm x0 x1 (s : State) : (State.modHdr x0 x1 s).thm = s.thm := rfl
@[simp] theorem State.modHdr_trm x0 x1 (s : State) : (State.modHdr x0 x1 s).trm = s.trm := rfl
@[simp] theorem State.modHdr_sup x0 x1 (s : State) : (State.modHdr x0 x1 s).sup = s.sup := rfl
@[simp] theorem State.modHdr_evr x0 x1 (s : State) : (State.modHdr x0 x1 s).evr = s.evr := rfl
@[simp] theorem State.modHdr_lif x0 x1 (s : State) : (State.modHdr x0 x1 s).lif = s.lif := rfl
@[simp] theorem State.modHdr_cal x0 x1 (s : State) : (State.modHdr x0 x1 s).cal = s.cal := rfl
@[simp] theorem State.modHdr_vlk x0 x1 (s : State) : (State.modHdr x0 x1 s).vlk = s.vlk := rfl
@[simp] theorem State.modLaser_pending x0 x1 (s : State) : (State.modLaser x0 x1 s).pending = s.pending := rfl
@[simp] theorem State.modLaser_us x0 x1 (s : State) : (State.modLaser x0 x1 s).us = s.us := rfl
@[simp] theorem State.modLaser_busData x0 x1 (s : State) : (State.modLaser x0 x1 s).busData = s.busData := rfl
@[simp] theorem State.modLaser_busErr x0 x1 (s : State) : (State.modLaser x0 x1 s).busErr = s.busErr := rfl
@[simp] theorem State.modLaser_regs x0 x1 (s : State) : (State.modLaser x0 x1 s).regs = s.regs := rfl
@[simp] theorem State.modLaser_mem x0 x1 (s : State) : (State.modLaser x0 x1 s).mem = s.mem := rfl
@[simp] theorem State.modLaser_tcm x0 x1 (s : State) : (State.modLaser x0 x1 s).tcm = s.tcm := rfl
@[simp] theorem State.modLaser_free x0 x1 (s : State) : (State.modLaser x0 x1 s).free = s.free := rfl
@[simp] theorem State.modLaser_hdr x0 x1 (s : State) : (State.modLaser x0 x1 s).hdr = s.hdr := rfl
@[simp] theorem State.modLaser_sys x0 x1 (s : State) : (State.modLaser x0 x1 s).sys = s.sys := rfl
@[simp] theorem State.modLaser_clk x0 x1 (s : State) : (State.modLaser x0 x1 s).clk = s.clk := rfl
@[simp] theorem State.modLaser_pwr x0 x1 (s : State) : (State.modLaser x0 x1 s).pwr = s.pwr := rfl
@[simp] theorem State.modLaser_l1 x0 x1 (s : State) : (State.modLaser x0 x1 s).l1 = s.l1 := rfl
@[simp] theorem State.modLaser_irq x0 x1 (s : State) : (State.modLaser x0 x1 s).irq = s.irq := rfl
@[simp] theorem State.modLaser_llt x0 x1 (s : State) : (State.modLaser x0 x1 s).llt = s.llt := rfl
@[simp] theorem State.modLaser_hce x0 x1 (s : State) : (State.modLaser x0 x1 s).hce = s.hce := rfl
@[simp] theorem State.modLaser_lgr x0 x1 (s : State) : (State.modLaser x0 x1 s).lgr = s.lgr := rfl
@[simp] theorem State.modLaser_xmt x0 x1 (s : State) : (State.modLaser x0 x1 s).xmt = s.xmt := rfl
@[simp] theorem State.modLaser_rvr x0 x1 (s : State) : (State.modLaser x0 x1 s).rvr = s.rvr := rfl
@[simp] theorem State.modLaser_cst x0 x1 (s : State) : (State.modLaser x0 x1 s).cst = s.cst := rfl
@[simp] theorem State.modLaser_asq x0 x1 (s : State) : (State.modLaser x0 x1 s).asq = s.asq := rfl
@[simp] theorem State.modLaser_rwc x0 x1 (s : State) : (State.modLaser x0 x1 s).rwc = s.rwc := rfl
@[simp] theorem State.modLaser_ldp x0 x1 (s : State) : (State.modLaser x0 x1 s).ldp = s.ldp := rfl
@[simp] theorem State.modLaser_tpe x0 x1 (s : State) : (State.modLaser x0 x1 s).tpe = s.tpe := rfl
@[simp] theorem State.modLaser_sve x0 x1 (s : State) : (State.modLaser x0 x1 s).sve = s.sve := rfl
@[simp] theorem State.modLaser_spn x0 x1 (s : State) : (State.modLaser x0 x1 s).spn = s.spn := rfl
@[simp] theorem State.modLaser_psi x0 x1 (s : State) : (State.modLaser x0 x1 s).psi = s.psi := rfl
@[simp] theorem State.modLaser_opt x0 x1 (s : State) : (State.modLaser x0 x1 s).opt = s.opt := rfl
@[simp] theorem State.modLaser_dmc x0 x1 (s : State) : (State.modLaser x0 x1 s).dmc = s.dmc := rfl
@[simp] theorem State.modLaser_bcc x0 x1 (s : State) : (State.modLaser x0 x1 s).bcc = s.bcc := rfl
@[simp] theorem State.modLaser_sec x0 x1 (s : State) : (State.modLaser x0 x1 s).sec = s.sec := rfl
@[simp] theorem State.modLaser_thm x0 x1 (s : State) : (State.modLaser x0 x1 s).thm = s.thm := rfl
@[simp] theorem State.modLaser_trm x0 x1 (s : State) : (State.modLaser x0 x1 s).trm = s.trm := rfl
@[simp] theorem State.modLaser_sup x0 x1 (s : State) : (State.modLaser x0 x1 s).sup = s.sup := rfl
@[simp] theorem State.modLaser_evr x0 x1 (s : State) : (State.modLaser x0 x1 s).evr = s.evr := rfl
@[simp] theorem State.modLaser_lif x0 x1 (s : State) : (State.modLaser x0 x1 s).lif = s.lif := rfl
@[simp] theorem State.modLaser_cal x0 x1 (s : State) : (State.modLaser x0 x1 s).cal = s.cal := rfl
@[simp] theorem State.modLaser_vlk x0 x1 (s : State) : (State.modLaser x0 x1 s).vlk = s.vlk := rfl
@[simp] theorem State.modLdp_pending x0 (s : State) : (State.modLdp x0 s).pending = s.pending := rfl
@[simp] theorem State.modLdp_us x0 (s : State) : (State.modLdp x0 s).us = s.us := rfl
@[simp] theorem State.modLdp_busData x0 (s : State) : (State.modLdp x0 s).busData = s.busData := rfl
@[simp] theorem State.modLdp_busErr x0 (s : State) : (State.modLdp x0 s).busErr = s.busErr := rfl
@[simp] theorem State.modLdp_regs x0 (s : State) : (State.modLdp x0 s).regs = s.regs := rfl
@[simp] theorem State.modLdp_mem x0 (s : State) : (State.modLdp x0 s).mem = s.mem := rfl
@[simp] theorem State.modLdp_tcm x0 (s : State) : (State.modLdp x0 s).tcm = s.tcm := rfl
@[simp] theorem State.modLdp_free x0 (s : State) : (State.modLdp x0 s).free = s.free := rfl
@[simp] theorem State.modLdp_hdr x0 (s : State) : (State.modLdp x0 s).hdr = s.hdr := rfl
@[simp] theorem State.modLdp_sys x0 (s : State) : (State.modLdp x0 s).sys = s.sys := rfl
@[simp] theorem State.modLdp_clk x0 (s : State) : (State.modLdp x0 s).clk = s.clk := rfl
@[simp] theorem State.modLdp_pwr x0 (s : State) : (State.modLdp x0 s).pwr = s.pwr := rfl
@[simp] theorem State.modLdp_l1 x0 (s : State) : (State.modLdp x0 s).l1 = s.l1 := rfl
@[simp] theorem State.modLdp_irq x0 (s : State) : (State.modLdp x0 s).irq = s.irq := rfl
@[simp] theorem State.modLdp_llt x0 (s : State) : (State.modLdp x0 s).llt = s.llt := rfl
@[simp] theorem State.modLdp_hce x0 (s : State) : (State.modLdp x0 s).hce = s.hce := rfl
@[simp] theorem State.modLdp_lgr x0 (s : State) : (State.modLdp x0 s).lgr = s.lgr := rfl
@[simp] theorem State.modLdp_xmt x0 (s : State) : (State.modLdp x0 s).xmt = s.xmt := rfl
@[simp] theorem State.modLdp_rvr x0 (s : State) : (State.modLdp x0 s).rvr = s.rvr := rfl
@[simp] theorem State.modLdp_cst x0 (s : State) : (State.modLdp x0 s).cst = s.cst := rfl
@[simp] theorem State.modLdp_asq x0 (s : State) : (State.modLdp x0 s).asq = s.asq := rfl
@[simp] theorem State.modLdp_rwc x0 (s : State) : (State.modLdp x0 s).rwc = s.rwc := rfl
@[simp] theorem State.modLdp_tpe x0 (s : State) : (State.modLdp x0 s).tpe = s.tpe := rfl
@[simp] theorem State.modLdp_sve x0 (s : State) : (State.modLdp x0 s).sve = s.sve := rfl
@[simp] theorem State.modLdp_spn x0 (s : State) : (State.modLdp x0 s).spn = s.spn := rfl
@[simp] theorem State.modLdp_psi x0 (s : State) : (State.modLdp x0 s).psi = s.psi := rfl
@[simp] theorem State.modLdp_lsr x0 (s : State) : (State.modLdp x0 s).lsr = s.lsr := rfl
@[simp] theorem State.modLdp_opt x0 (s : State) : (State.modLdp x0 s).opt = s.opt := rfl
@[simp] theorem State.modLdp_dmc x0 (s : State) : (State.modLdp x0 s).dmc = s.dmc := rfl
@[simp] theorem State.modLdp_bcc x0 (s : State) : (State.modLdp x0 s).bcc = s.bcc := rfl
@[simp] theorem State.modLdp_sec x0 (s : State) : (State.modLdp x0 s).sec = s.sec := rfl
@[simp] theorem State.modLdp_thm x0 (s : State) : (State.modLdp x0 s).thm = s.thm := rfl
@[simp] theorem State.modLdp_trm x0 (s : State) : (State.modLdp x0 s).trm = s.trm := rfl
@[simp] theorem State.modLdp_sup x0 (s : State) : (State.modLdp x0 s).sup = s.sup := rfl
@[simp] theorem State.modLdp_evr x0 (s : State) : (State.modLdp x0 s).evr = s.evr := rfl
@[simp] theorem State.modLdp_lif x0 (s : State) : (State.modLdp x0 s).lif = s.lif := rfl
@[simp] theorem State.modLdp_cal x0 (s : State) : (State.modLdp x0 s).cal = s.cal := rfl
@[simp] theorem State.modLdp_vlk x0 (s : State) : (State.modLdp x0 s).vlk = s.vlk := rfl
@[simp] theorem State.modLgr_pending x0 (s : State) : (State.modLgr x0 s).pending = s.pending := rfl
@[simp] theorem State.modLgr_us x0 (s : State) : (State.modLgr x0 s).us = s.us := rfl
@[simp] theorem State.modLgr_busData x0 (s : State) : (State.modLgr x0 s).busData = s.busData := rfl
@[simp] theorem State.modLgr_busErr x0 (s : State) : (State.modLgr x0 s).busErr = s.busErr := rfl
@[simp] theorem State.modLgr_regs x0 (s : State) : (State.modLgr x0 s).regs = s.regs := rfl
@[simp] theorem State.modLgr_mem x0 (s : State) : (State.modLgr x0 s).mem = s.mem := rfl
@[simp] theorem State.modLgr_tcm x0 (s : State) : (State.modLgr x0 s).tcm = s.tcm := rfl
@[simp] theorem State.modLgr_free x0 (s : State) : (State.modLgr x0 s).free = s.free := rfl
@[simp] theorem State.modLgr_hdr x0 (s : State) : (State.modLgr x0 s).hdr = s.hdr := rfl
@[simp] theorem State.modLgr_sys x0 (s : State) : (State.modLgr x0 s).sys = s.sys := rfl
@[simp] theorem State.modLgr_clk x0 (s : State) : (State.modLgr x0 s).clk = s.clk := rfl
@[simp] theorem State.modLgr_pwr x0 (s : State) : (State.modLgr x0 s).pwr = s.pwr := rfl
@[simp] theorem State.modLgr_l1 x0 (s : State) : (State.modLgr x0 s).l1 = s.l1 := rfl
@[simp] theorem State.modLgr_irq x0 (s : State) : (State.modLgr x0 s).irq = s.irq := rfl
@[simp] theorem State.modLgr_llt x0 (s : State) : (State.modLgr x0 s).llt = s.llt := rfl
@[simp] theorem State.modLgr_hce x0 (s : State) : (State.modLgr x0 s).hce = s.hce := rfl
@[simp] theorem State.modLgr_xmt x0 (s : State) : (State.modLgr x0 s).xmt = s.xmt := rfl
@[simp] theorem State.modLgr_rvr x0 (s : State) : (State.modLgr x0 s).rvr = s.rvr := rfl
@[simp] theorem State.modLgr_cst x0 (s : State) : (State.modLgr x0 s).cst = s.cst := rfl
@[simp] theorem State.modLgr_asq x0 (s : State) : (State.modLgr x0 s).asq = s.asq := rfl
@[simp] theorem State.modLgr_rwc x0 (s : State) : (State.modLgr x0 s).rwc = s.rwc := rfl
@[simp] theorem State.modLgr_ldp x0 (s : State) : (State.modLgr x0 s).ldp = s.ldp := rfl
@[simp] theorem State.modLgr_tpe x0 (s : State) : (State.modLgr x0 s).tpe = s.tpe := rfl
@[simp] theorem State.modLgr_sve x0 (s : State) : (State.modLgr x0 s).sve = s.sve := rfl
@[simp] theorem State.modLgr_spn x0 (s : State) : (State.modLgr x0 s).spn = s.spn := rfl
@[simp] theorem State.modLgr_psi x0 (s : State) : (State.modLgr x0 s).psi = s.psi := rfl
@[simp] theorem State.modLgr_lsr x0 (s : State) : (State.modLgr x0 s).lsr = s.lsr := rfl
@[simp] theorem State.modLgr_opt x0 (s : State) : (State.modLgr x0 s).opt = s.opt := rfl
@[simp] theorem State.modLgr_dmc x0 (s : State) : (State.modLgr x0 s).dmc = s.dmc := rfl
@[simp] theorem State.modLgr_bcc x0 (s : State) : (State.modLgr x0 s).bcc = s.bcc := rfl
@[simp] theorem State.modLgr_sec x0 (s : State) : (State.modLgr x0 s).sec = s.sec := rfl
@[simp] theorem State.modLgr_thm x0 (s : State) : (State.modLgr x0 s).thm = s.thm := rfl
@[simp] theorem State.modLgr_trm x0 (s : State) : (State.modLgr x0 s).trm = s.trm := rfl
@[simp] theorem State.modLgr_sup x0 (s : State) : (State.modLgr x0 s).sup = s.sup := rfl
@[simp] theorem State.modLgr_evr x0 (s : State) : (State.modLgr x0 s).evr = s.evr := rfl
@[simp] theorem State.modLgr_lif x0 (s : State) : (State.modLgr x0 s).lif = s.lif := rfl
@[simp] theorem State.modLgr_cal x0 (s : State) : (State.modLgr x0 s).cal = s.cal := rfl
@[simp] theorem State.modLgr_vlk x0 (s : State) : (State.modLgr x0 s).vlk = s.vlk := rfl
@[simp] theorem State.modLlt_pending x0 (s : State) : (State.modLlt x0 s).pending = s.pending := rfl
@[simp] theorem State.modLlt_us x0 (s : State) : (State.modLlt x0 s).us = s.us := rfl
@[simp] theorem State.modLlt_busData x0 (s : State) : (State.modLlt x0 s).busData = s.busData := rfl
@[simp] theorem State.modLlt_busErr x0 (s : State) : (State.modLlt x0 s).busErr = s.busErr := rfl
@[simp] theorem State.modLlt_regs x0 (s : State) : (State.modLlt x0 s).regs = s.regs := rfl
@[simp] theorem State.modLlt_mem x0 (s : State) : (State.modLlt x0 s).mem = s.mem := rfl
@[simp] theorem State.modLlt_tcm x0 (s : State) : (State.modLlt x0 s).tcm = s.tcm := rfl
@[simp] theorem State.modLlt_free x0 (s : State) : (State.modLlt x0 s).free = s.free := rfl
@[simp] theorem State.modLlt_hdr x0 (s : State) : (State.modLlt x0 s).hdr = s.hdr := rfl
@[simp] theorem State.modLlt_sys x0 (s : State) : (State.modLlt x0 s).sys = s.sys := rfl
@[simp] theorem State.modLlt_clk x0 (s : State) : (State.modLlt x0 s).clk = s.clk := rfl
@[simp] theorem State.modLlt_pwr x0 (s : State) : (State.modLlt x0 s).pwr = s.pwr := rfl
@[simp] theorem State.modLlt_l1 x0 (s : State) : (State.modLlt x0 s).l1 = s.l1 := rfl
@[simp] theorem State.modLlt_irq x0 (s : State) : (State.modLlt x0 s).irq = s.irq := rfl
@[simp] theorem State.modLlt_hce x0 (s : State) : (State.modLlt x0 s).hce = s.hce := rfl
@[simp] theorem State.modLlt_lgr x0 (s : State) : (State.modLlt x0 s).lgr = s.lgr := rfl
@[simp] theorem State.modLlt_xmt x0 (s : State) : (State.modLlt x0 s).xmt = s.xmt := rfl
@[simp] theorem State.modLlt_rvr x0 (s : State) : (State.modLlt x0 s).rvr = s.rvr := rfl
@[simp] theorem State.modLlt_cst x0 (s : State) : (State.modLlt x0 s).cst = s.cst := rfl
@[simp] theorem State.modLlt_asq x0 (s : State) : (State.modLlt x0 s).asq = s.asq := rfl
@[simp] theorem State.modLlt_rwc x0 (s : State) : (State.modLlt x0 s).rwc = s.rwc := rfl
@[simp] theorem State.modLlt_ldp x0 (s : State) : (State.modLlt x0 s).ldp = s.ldp := rfl
@[simp] theorem State.modLlt_tpe x0 (s : State) : (State.modLlt x0 s).tpe = s.tpe := rfl
@[simp] theorem State.modLlt_sve x0 (s : State) : (State.modLlt x0 s).sve = s.sve := rfl
@[simp] theorem State.modLlt_spn x0 (s : State) : (State.modLlt x0 s).spn = s.spn := rfl
@[simp] theorem State.modLlt_psi x0 (s : State) : (State.modLlt x0 s).psi = s.psi := rfl
@[simp] theorem State.modLlt_lsr x0 (s : State) : (State.modLlt x0 s).lsr = s.lsr := rfl
@[simp] theorem State.modLlt_opt x0 (s : State) : (State.modLlt x0 s).opt = s.opt := rfl
@[simp] theorem State.modLlt_dmc x0 (s : State) : (State.modLlt x0 s).dmc = s.dmc := rfl
@[simp] theorem State.modLlt_bcc x0 (s : State) : (State.modLlt x0 s).bcc = s.bcc := rfl
@[simp] theorem State.modLlt_sec x0 (s : State) : (State.modLlt x0 s).sec = s.sec := rfl
@[simp] theorem State.modLlt_thm x0 (s : State) : (State.modLlt x0 s).thm = s.thm := rfl
@[simp] theorem State.modLlt_trm x0 (s : State) : (State.modLlt x0 s).trm = s.trm := rfl
@[simp] theorem State.modLlt_sup x0 (s : State) : (State.modLlt x0 s).sup = s.sup := rfl
@[simp] theorem State.modLlt_evr x0 (s : State) : (State.modLlt x0 s).evr = s.evr := rfl
@[simp] theorem State.modLlt_lif x0 (s : State) : (State.modLlt x0 s).lif = s.lif := rfl
@[simp] theorem State.modLlt_cal x0 (s : State) : (State.modLlt x0 s).cal = s.cal := rfl
@[simp] theorem State.modLlt_vlk x0 (s : State) : (State.modLlt x0 s).vlk = s.vlk := rfl
@[simp] theorem State.modPort_pending x0 x1 (s : State) : (State.modPort x0 x1 s).pending = s.pending := rfl
@[simp] theorem State.modPort_us x0 x1 (s : State) : (State.modPort x0 x1 s).us = s.us := rfl
@[simp] theorem State.modPort_busData x0 x1 (s : State) : (State.modPort x0 x1 s).busData = s.busData := rfl
@[simp] theorem State.modPort_busErr x0 x1 (s : State) : (State.modPort x0 x1 s).busErr = s.busErr := rfl
@[simp] theorem State.modPort_regs x0 x1 (s : State) : (State.modPort x0 x1 s).regs = s.regs := rfl
@[simp] theorem State.modPort_mem x0 x1 (s : State) : (State.modPort x0 x1 s).mem = s.mem := rfl
@[simp] theorem State.modPort_tcm x0 x1 (s : State) : (State.modPort x0 x1 s).tcm = s.tcm := rfl
@[simp] theorem State.modPort_free x0 x1 (s : State) : (State.modPort x0 x1 s).free = s.free := rfl
@[simp] theorem State.modPort_hdr x0 x1 (s : State) : (State.modPort x0 x1 s).hdr = s.hdr := rfl
@[simp] theorem State.modPort_sys x0 x1 (s : State) : (State.modPort x0 x1 s).sys = s.sys := rfl
@[simp] theorem State.modPort_clk x0 x1 (s : State) : (State.modPort x0 x1 s).clk = s.clk := rfl
@[simp] theorem State.modPort_pwr x0 x1 (s : State) : (State.modPort x0 x1 s).pwr = s.pwr := rfl
@[simp] theorem State.modPort_l1 x0 x1 (s : State) : (State.modPort x0 x1 s).l1 = s.l1 := rfl
@[simp] theorem State.modPort_irq x0 x1 (s : State) : (State.modPort x0 x1 s).irq = s.irq := rfl
@[simp] theorem State.modPort_hce x0 x1 (s : State) : (State.modPort x0 x1 s).hce = s.hce := rfl
@[simp] theorem State.modPort_lgr x0 x1 (s : State) : (State.modPort x0 x1 s).lgr = s.lgr := rfl
@[simp] theorem State.modPort_xmt x0 x1 (s : State) : (State.modPort x0 x1 s).xmt = s.xmt := rfl
@[simp] theorem State.modPort_rvr x0 x1 (s : State) : (State.modPort x0 x1 s).rvr = s.rvr := rfl
@[simp] theorem State.modPort_cst x0 x1 (s : State) : (State.modPort x0 x1 s).cst = s.cst := rfl
@[simp] theorem State.modPort_asq x0 x1 (s : State) : (State.modPort x0 x1 s).asq = s.asq := rfl
@[simp] theorem State.modPort_rwc x0 x1 (s : State) : (State.modPort x0 x1 s).rwc = s.rwc := rfl
@[simp] theorem State.modPort_ldp x0 x1 (s : State) : (State.modPort x0 x1 s).ldp = s.ldp := rfl
@[simp] theorem State.modPort_tpe x0 x1 (s : State) : (State.modPort x0 x1 s).tpe = s.tpe := rfl
@[simp] theorem State.modPort_sve x0 x1 (s : State) : (State.modPort x0 x1 s).sve = s.sve := rfl
@[simp] theorem State.modPort_spn x0 x1 (s : State) : (State.modPort x0 x1 s).spn = s.spn := rfl
@[simp] theorem State.modPort_psi x0 x1 (s : State) : (State.modPort x0 x1 s).psi = s.psi := rfl
@[simp] theorem State.modPort_lsr x0 x1 (s : State) : (State.modPort x0 x1 s).lsr = s.lsr := rfl
@[simp] theorem State.modPort_opt x0 x1 (s : State) : (State.modPort x0 x1 s).opt = s.opt := rfl
@[simp] theorem State.modPort_dmc x0 x1 (s : State) : (State.modPort x0 x1 s).dmc = s.dmc := rfl
@[simp] theorem State.modPort_bcc x0 x1 (s : State) : (State.modPort x0 x1 s).bcc = s.bcc := rfl
@[simp] theorem State.modPort_sec x0 x1 (s : State) : (State.modPort x0 x1 s).sec = s.sec := rfl
@[simp] theorem State.modPort_thm x0 x1 (s : State) : (State.modPort x0 x1 s).thm = s.thm := rfl
@[simp] theorem State.modPort_trm x0 x1 (s : State) : (State.modPort x0 x1 s).trm = s.trm := rfl
@[simp] theorem State.modPort_sup x0 x1 (s : State) : (State.modPort x0 x1 s).sup = s.sup := rfl
@[simp] theorem State.modPort_evr x0 x1 (s : State) : (State.modPort x0 x1 s).evr = s.evr := rfl
@[simp] theorem State.modPort_lif x0 x1 (s : State) : (State.modPort x0 x1 s).lif = s.lif := rfl
@[simp] theorem State.modPort_cal x0 x1 (s : State) : (State.modPort x0 x1 s).cal = s.cal := rfl
@[simp] theorem State.modPort_vlk x0 x1 (s : State) : (State.modPort x0 x1 s).vlk = s.vlk := rfl
@[simp] theorem State.modPsi_pending x0 x1 (s : State) : (State.modPsi x0 x1 s).pending = s.pending := rfl
@[simp] theorem State.modPsi_us x0 x1 (s : State) : (State.modPsi x0 x1 s).us = s.us := rfl
@[simp] theorem State.modPsi_busData x0 x1 (s : State) : (State.modPsi x0 x1 s).busData = s.busData := rfl
@[simp] theorem State.modPsi_busErr x0 x1 (s : State) : (State.modPsi x0 x1 s).busErr = s.busErr := rfl
@[simp] theorem State.modPsi_regs x0 x1 (s : State) : (State.modPsi x0 x1 s).regs = s.regs := rfl
@[simp] theorem State.modPsi_mem x0 x1 (s : State) : (State.modPsi x0 x1 s).mem = s.mem := rfl
@[simp] theorem State.modPsi_tcm x0 x1 (s : State) : (State.modPsi x0 x1 s).tcm = s.tcm := rfl
@[simp] theorem State.modPsi_free x0 x1 (s : State) : (State.modPsi x0 x1 s).free = s.free := rfl
@[simp] theorem State.modPsi_hdr x0 x1 (s : State) : (State.modPsi x0 x1 s).hdr = s.hdr := rfl
@[simp] theorem State.modPsi_sys x0 x1 (s : State) : (State.modPsi x0 x1 s).sys = s.sys := rfl
@[simp] theorem State.modPsi_clk x0 x1 (s : State) : (State.modPsi x0 x1 s).clk = s.clk := rfl
@[simp] theorem State.modPsi_pwr x0 x1 (s : State) : (State.modPsi x0 x1 s).pwr = s.pwr := rfl
@[simp] theorem State.modPsi_l1 x0 x1 (s : State) : (State.modPsi x0 x1 s).l1 = s.l1 := rfl
@[simp] theorem State.modPsi_irq x0 x1 (s : State) : (State.modPsi x0 x1 s).irq = s.irq := rfl
@[simp] theorem State.modPsi_llt x0 x1 (s : State) : (State.modPsi x0 x1 s).llt = s.llt := rfl
@[simp] theorem State.modPsi_hce x0 x1 (s : State) : (State.modPsi x0 x1 s).hce = s.hce := rfl
@[simp] theorem State.modPsi_lgr x0 x1 (s : State) : (State.modPsi x0 x1 s).lgr = s.lgr := rfl
@[simp] theorem State.modPsi_xmt x0 x1 (s : State) : (State.modPsi x0 x1 s).xmt = s.xmt := rfl
@[simp] theorem State.modPsi_rvr x0 x1 (s : State) : (State.modPsi x0 x1 s).rvr = s.rvr := rfl
@[simp] theorem State.modPsi_cst x0 x1 (s : State) : (State.modPsi x0 x1 s).cst = s.cst := rfl
@[simp] theorem State.modPsi_asq x0 x1 (s : State) : (State.modPsi x0 x1 s).asq = s.asq := rfl
@[simp] theorem State.modPsi_rwc x0 x1 (s : State) : (State.modPsi x0 x1 s).rwc = s.rwc := rfl
@[simp] theorem State.modPsi_ldp x0 x1 (s : State) : (State.modPsi x0 x1 s).ldp = s.ldp := rfl
@[simp] theorem State.modPsi_tpe x0 x1 (s : State) : (State.modPsi x0 x1 s).tpe = s.tpe := rfl
@[simp] theorem State.modPsi_sve x0 x1 (s : State) : (State.modPsi x0 x1 s).sve = s.sve := rfl
@[simp] theorem State.modPsi_spn x0 x1 (s : State) : (State.modPsi x0 x1 s).spn = s.spn := rfl
@[simp] theorem State.modPsi_lsr x0 x1 (s : State) : (State.modPsi x0 x1 s).lsr = s.lsr := rfl
@[simp] theorem State.modPsi_opt x0 x1 (s : State) : (State.modPsi x0 x1 s).opt = s.opt := rfl
@[simp] theorem State.modPsi_dmc x0 x1 (s : State) : (State.modPsi x0 x1 s).dmc = s.dmc := rfl
@[simp] theorem State.modPsi_bcc x0 x1 (s : State) : (State.modPsi x0 x1 s).bcc = s.bcc := rfl
@[simp] theorem State.modPsi_sec x0 x1 (s : State) : (State.modPsi x0 x1 s).sec = s.sec := rfl
@[simp] theorem State.modPsi_thm x0 x1 (s : State) : (State.modPsi x0 x1 s).thm = s.thm := rfl
@[simp] theorem State.modPsi_trm x0 x1 (s : State) : (State.modPsi x0 x1 s).trm = s.trm := rfl
@[simp] theorem State.modPsi_sup x0 x1 (s : State) : (State.modPsi x0 x1 s).sup = s.sup := rfl
@[simp] theorem State.modPsi_evr x0 x1 (s : State) : (State.modPsi x0 x1 s).evr = s.evr := rfl
@[simp] theorem State.modPsi_lif x0 x1 (s : State) : (State.modPsi x0 x1 s).lif = s.lif := rfl
@[simp] theorem State.modPsi_cal x0 x1 (s : State) : (State.modPsi x0 x1 s).cal = s.cal := rfl
@[simp] theorem State.modPsi_vlk x0 x1 (s : State) : (State.modPsi x0 x1 s).vlk = s.vlk := rfl
@[simp] theorem State.modPu_pending x0 x1 (s : State) : (State.modPu x0 x1 s).pending = s.pending := rfl
@[simp] theorem State.modPu_us x0 x1 (s : State) : (State.modPu x0 x1 s).us = s.us := rfl
@[simp] theorem State.modPu_busData x0 x1 (s : State) : (State.modPu x0 x1 s).busData = s.busData := rfl
@[simp] theorem State.modPu_busErr x0 x1 (s : State) : (State.modPu x0 x1 s).busErr = s.busErr := rfl
@[simp] theorem State.modPu_regs x0 x1 (s : State) : (State.modPu x0 x1 s).regs = s.regs := rfl
@[simp] theorem State.modPu_mem x0 x1 (s : State) : (State.modPu x0 x1 s).mem = s.mem := rfl
@[simp] theorem State.modPu_tcm x0 x1 (s : State) : (State.modPu x0 x1 s).tcm = s.tcm := rfl
@[simp] theorem State.modPu_free x0 x1 (s : State) : (State.modPu x0 x1 s).free = s.free := rfl
@[simp] theorem State.modPu_hdr x0 x1 (s : State) : (State.modPu x0 x1 s).hdr = s.hdr := rfl
@[simp] theorem State.modPu_sys x0 x1 (s : State) : (State.modPu x0 x1 s).sys = s.sys := rfl
@[simp] theorem State.modPu_clk x0 x1 (s : State) : (State.modPu x0 x1 s).clk = s.clk := rfl
@[simp] theorem State.modPu_pwr x0 x1 (s : State) : (State.modPu x0 x1 s).pwr = s.pwr := rfl
@[simp] theorem State.modPu_l1 x0 x1 (s : State) : (State.modPu x0 x1 s).l1 = s.l1 := rfl
@[simp] theorem State.modPu_irq x0 x1 (s : State) : (State.modPu x0 x1 s).irq = s.irq := rfl
@[simp] theorem State.modPu_llt x0 x1 (s : State) : (State.modPu x0 x1 s).llt = s.llt := rfl
@[simp] theorem State.modPu_hce x0 x1 (s : State) : (State.modPu x0 x1 s).hce = s.hce := rfl
@[simp] theorem State.modPu_lgr x0 x1 (s : State) : (State.modPu x0 x1 s).lgr = s.lgr := rfl
@[simp] theorem State.modPu_xmt x0 x1 (s : State) : (State.modPu x0 x1 s).xmt = s.xmt := rfl
@[simp] theorem State.modPu_rvr x0 x1 (s : State) : (State.modPu x0 x1 s).rvr = s.rvr := rfl
@[simp] theorem State.modPu_cst x0 x1 (s : State) : (State.modPu x0 x1 s).cst = s.cst := rfl
@[simp] theorem State.modPu_asq x0 x1 (s : State) : (State.modPu x0 x1 s).asq = s.asq := rfl
@[simp] theorem State.modPu_rwc x0 x1 (s : State) : (State.modPu x0 x1 s).rwc = s.rwc := rfl
@[simp] theorem State.modPu_ldp x0 x1 (s : State) : (State.modPu x0 x1 s).ldp = s.ldp := rfl
@[simp] theorem State.modPu_tpe x0 x1 (s : State) : (State.modPu x0 x1 s).tpe = s.tpe := rfl
@[simp] theorem State.modPu_sve x0 x1 (s : State) : (State.modPu x0 x1 s).sve = s.sve := rfl
@[simp] theorem State.modPu_spn x0 x1 (s : State) : (State.modPu x0 x1 s).spn = s.spn := rfl
@[simp] theorem State.modPu_psi x0 x1 (s : State) : (State.modPu x0 x1 s).psi = s.psi := rfl
@[simp] theorem State.modPu_lsr x0 x1 (s : State) : (State.modPu x0 x1 s).lsr = s.lsr := rfl
@[simp] theorem State.modPu_dmc x0 x1 (s : State) : (State.modPu x0 x1 s).dmc = s.dmc := rfl
@[simp] theorem State.modPu_bcc x0 x1 (s : State) : (State.modPu x0 x1 s).bcc = s.bcc := rfl
@[simp] theorem State.modPu_sec x0 x1 (s : State) : (State.modPu x0 x1 s).sec = s.sec := rfl
@[simp] theorem State.modPu_thm x0 x1 (s : State) : (State.modPu x0 x1 s).thm = s.thm := rfl
@[simp] theorem State.modPu_trm x0 x1 (s : State) : (State.modPu x0 x1 s).trm = s.trm := rfl
@[simp] theorem State.modPu_sup x0 x1 (s : State) : (State.modPu x0 x1 s).sup = s.sup := rfl
@[simp] theorem State.modPu_evr x0 x1 (s : State) : (State.modPu x0 x1 s).evr = s.evr := rfl
@[simp] theorem State.modPu_lif x0 x1 (s : State) : (State.modPu x0 x1 s).lif = s.lif := rfl
@[simp] theorem State.modPu_cal x0 x1 (s : State) : (State.modPu x0 x1 s).cal = s.cal := rfl
@[simp] theorem State.modPu_vlk x0 x1 (s : State) : (State.modPu x0 x1 s).vlk = s.vlk := rfl
@[simp] theorem State.modPwr_pending x0 (s : State) : (State.modPwr x0 s).pending = s.pending := rfl
@[simp] theorem State.modPwr_us x0 (s : State) : (State.modPwr x0 s).us = s.us := rfl
@[simp] theorem State.modPwr_busData x0 (s : State) : (State.modPwr x0 s).busData = s.busData := rfl
@[simp] theorem State.modPwr_busErr x0 (s : State) : (State.modPwr x0 s).busErr = s.busErr := rfl
@[simp] theorem State.modPwr_regs x0 (s : State) : (State.modPwr x0 s).regs = s.regs := rfl
@[simp] theorem State.modPwr_mem x0 (s : State) : (State.modPwr x0 s).mem = s.mem := rfl
@[simp] theorem State.modPwr_tcm x0 (s : State) : (State.modPwr x0 s).tcm = s.tcm := rfl
@[simp] theorem State.modPwr_free x0 (s : State) : (State.modPwr x0 s).free = s.free := rfl
@[simp] theorem State.modPwr_hdr x0 (s : State) : (State.modPwr x0 s).hdr = s.hdr := rfl
@[simp] theorem State.modPwr_sys x0 (s : State) : (State.modPwr x0 s).sys = s.sys := rfl
@[simp] theorem State.modPwr_clk x0 (s : State) : (State.modPwr x0 s).clk = s.clk := rfl
@[simp] theorem State.modPwr_l1 x0 (s : State) : (State.modPwr x0 s).l1 = s.l1 := rfl
@[simp] theorem State.modPwr_irq x0 (s : State) : (State.modPwr x0 s).irq = s.irq := rfl
@[simp] theorem State.modPwr_llt x0 (s : State) : (State.modPwr x0 s).llt = s.llt := rfl
@[simp] theorem State.modPwr_hce x0 (s : State) : (State.modPwr x0 s).hce = s.hce := rfl
@[simp] theorem State.modPwr_lgr x0 (s : State) : (State.modPwr x0 s).lgr = s.lgr := rfl
@[simp] theorem State.modPwr_xmt x0 (s : State) : (State.modPwr x0 s).xmt = s.xmt := rfl
@[simp] theorem State.modPwr_rvr x0 (s : State) : (State.modPwr x0 s).rvr = s.rvr := rfl
@[simp] theorem State.modPwr_cst x0 (s : State) : (State.modPwr x0 s).cst = s.cst := rfl
@[simp] theorem State.modPwr_asq x0 (s : State) : (State.modPwr x0 s).asq = s.asq := rfl
@[simp] theorem State.modPwr_rwc x0 (s : State) : (State.modPwr x0 s).rwc = s.rwc := rfl
@[simp] theorem State.modPwr_ldp x0 (s : State) : (State.modPwr x0 s).ldp = s.ldp := rfl
@[simp] theorem State.modPwr_tpe x0 (s : State) : (State.modPwr x0 s).tpe = s.tpe := rfl
@[simp] theorem State.modPwr_sve x0 (s : State) : (State.modPwr x0 s).sve = s.sve := rfl
@[simp] theorem State.modPwr_spn x0 (s : State) : (State.modPwr x0 s).spn = s.spn := rfl
@[simp] theorem State.modPwr_psi x0 (s : State) : (State.modPwr x0 s).psi = s.psi := rfl
@[simp] theorem State.modPwr_lsr x0 (s : State) : (State.modPwr x0 s).lsr = s.lsr := rfl
@[simp] theorem State.modPwr_opt x0 (s : State) : (State.modPwr x0 s).opt = s.opt := rfl
@[simp] theorem State.modPwr_dmc x0 (s : State) : (State.modPwr x0 s).dmc = s.dmc := rfl
@[simp] theorem State.modPwr_bcc x0 (s : State) : (State.modPwr x0 s).bcc = s.bcc := rfl
@[simp] theorem State.modPwr_sec x0 (s : State) : (State.modPwr x0 s).sec = s.sec := rfl
@[simp] theorem State.modPwr_thm x0 (s : State) : (State.modPwr x0 s).thm = s.thm := rfl
@[simp] theorem State.modPwr_trm x0 (s : State) : (State.modPwr x0 s).trm = s.trm := rfl
@[simp] theorem State.modPwr_sup x0 (s : State) : (State.modPwr x0 s).sup = s.sup := rfl
@[simp] theorem State.modPwr_evr x0 (s : State) : (State.modPwr x0 s).evr = s.evr := rfl
@[simp] theorem State.modPwr_lif x0 (s : State) : (State.modPwr x0 s).lif = s.lif := rfl
@[simp] theorem State.modPwr_cal x0 (s : State) : (State.modPwr x0 s).cal = s.cal := rfl
@[simp] theorem State.modPwr_vlk x0 (s : State) : (State.modPwr x0 s).vlk = s.vlk := rfl
@[simp] theorem State.modRvr_pending x0 (s : State) : (State.modRvr x0 s).pending = s.pending := rfl
@[simp] theorem State.modRvr_us x0 (s : State) : (State.modRvr x0 s).us = s.us := rfl
@[simp] theorem State.modRvr_busData x0 (s : State) : (State.modRvr x0 s).busData = s.busData := rfl
@[simp] theorem State.modRvr_busErr x0 (s : State) : (State.modRvr x0 s).busErr = s.busErr := rfl
@[simp] theorem State.modRvr_regs x0 (s : State) : (State.modRvr x0 s).regs = s.regs := rfl
@[simp] theorem State.modRvr_mem x0 (s : State) : (State.modRvr x0 s).mem = s.mem := rfl
@[simp] theorem State.modRvr_tcm x0 (s : State) : (State.modRvr x0 s).tcm = s.tcm := rfl
@[simp] theorem State.modRvr_free x0 (s : State) : (State.modRvr x0 s).free = s.free := rfl
@[simp] theorem State.modRvr_hdr x0 (s : State) : (State.modRvr x0 s).hdr = s.hdr := rfl
@[simp] theorem State.modRvr_sys x0 (s : State) : (State.modRvr x0 s).sys = s.sys := rfl
@[simp] theorem State.modRvr_clk x0 (s : State) : (State.modRvr x0 s).clk = s.clk := rfl
@[simp] theorem State.modRvr_pwr x0 (s : State) : (State.modRvr x0 s).pwr = s.pwr := rfl
@[simp] theorem State.modRvr_l1 x0 (s : State) : (State.modRvr x0 s).l1 = s.l1 := rfl
@[simp] theorem State.modRvr_irq x0 (s : State) : (State.modRvr x0 s).irq = s.irq := rfl
@[simp] theorem State.modRvr_llt x0 (s : State) : (State.modRvr x0 s).llt = s.llt := rfl
@[simp] theorem State.modRvr_hce x0 (s : State) : (State.modRvr x0 s).hce = s.hce := rfl
@[simp] theorem State.modRvr_lgr x0 (s : State) : (State.modRvr x0 s).lgr = s.lgr := rfl
@[simp] theorem State.modRvr_xmt x0 (s : State) : (State.modRvr x0 s).xmt = s.xmt := rfl
@[simp] theorem State.modRvr_cst x0 (s : State) : (State.modRvr x0 s).cst = s.cst := rfl
@[simp] theorem State.modRvr_asq x0 (s : State) : (State.modRvr x0 s).asq = s.asq := rfl
@[simp] theorem State.modRvr_rwc x0 (s : State) : (State.modRvr x0 s).rwc = s.rwc := rfl
@[simp] theorem State.modRvr_ldp x0 (s : State) : (State.modRvr x0 s).ldp = s.ldp := rfl
@[simp] theorem State.modRvr_tpe x0 (s : State) : (State.modRvr x0 s).tpe = s.tpe := rfl
@[simp] theorem State.modRvr_sve x0 (s : State) : (State.modRvr x0 s).sve = s.sve := rfl
@[simp] theorem State.modRvr_spn x0 (s : State) : (State.modRvr x0 s).spn = s.spn := rfl
@[simp] theorem State.modRvr_psi x0 (s : State) : (State.modRvr x0 s).psi = s.psi := rfl
@[simp] theorem State.modRvr_lsr x0 (s : State) : (State.modRvr x0 s).lsr = s.lsr := rfl
@[simp] theorem State.modRvr_opt x0 (s : State) : (State.modRvr x0 s).opt = s.opt := rfl
@[simp] theorem State.modRvr_dmc x0 (s : State) : (State.modRvr x0 s).dmc = s.dmc := rfl
@[simp] theorem State.modRvr_bcc x0 (s : State) : (State.modRvr x0 s).bcc = s.bcc := rfl
@[simp] theorem State.modRvr_sec x0 (s : State) : (State.modRvr x0 s).sec = s.sec := rfl
@[simp] theorem State.modRvr_thm x0 (s : State) : (State.modRvr x0 s).thm = s.thm := rfl
@[simp] theorem State.modRvr_trm x0 (s : State) : (State.modRvr x0 s).trm = s.trm := rfl
@[simp] theorem State.modRvr_sup x0 (s : State) : (State.modRvr x0 s).sup = s.sup := rfl
@[simp] theorem State.modRvr_evr x0 (s : State) : (State.modRvr x0 s).evr = s.evr := rfl
@[simp] theorem State.modRvr_lif x0 (s : State) : (State.modRvr x0 s).lif = s.lif := rfl
@[simp] theorem State.modRvr_cal x0 (s : State) : (State.modRvr x0 s).cal = s.cal := rfl
@[simp] theorem State.modRvr_vlk x0 (s : State) : (State.modRvr x0 s).vlk = s.vlk := rfl
@[simp] theorem State.modRwc_pending x0 x1 (s : State) : (State.modRwc x0 x1 s).pending = s.pending := rfl
@[simp] theorem State.modRwc_us x0 x1 (s : State) : (State.modRwc x0 x1 s).us = s.us := rfl
@[simp] theorem State.modRwc_busData x0 x1 (s : State) : (State.modRwc x0 x1 s).busData = s.busData := rfl
@[simp] theorem State.modRwc_busErr x0 x1 (s : State) : (State.modRwc x0 x1 s).busErr = s.busErr := rfl
@[simp] theorem State.modRwc_regs x0 x1 (s : State) : (State.modRwc x0 x1 s).regs = s.regs := rfl
@[simp] theorem State.modRwc_mem x0 x1 (s : State) : (State.modRwc x0 x1 s).mem = s.mem := rfl
@[simp] theorem State.modRwc_tcm x0 x1 (s : State) : (State.modRwc x0 x1 s).tcm = s.tcm := rfl
@[simp] theorem State.modRwc_free x0 x1 (s : State) : (State.modRwc x0 x1 s).free = s.free := rfl
@[simp] theorem State.modRwc_hdr x0 x1 (s : State) : (State.modRwc x0 x1 s).hdr = s.hdr := rfl
@[simp] theorem State.modRwc_sys x0 x1 (s : State) : (State.modRwc x0 x1 s).sys = s.sys := rfl
@[simp] theorem State.modRwc_clk x0 x1 (s : State) : (State.modRwc x0 x1 s).clk = s.clk := rfl
@[simp] theorem State.modRwc_pwr x0 x1 (s : State) : (State.modRwc x0 x1 s).pwr = s.pwr := rfl
@[simp] theorem State.modRwc_l1 x0 x1 (s : State) : (State.modRwc x0 x1 s).l1 = s.l1 := rfl
@[simp] theorem State.modRwc_irq x0 x1 (s : State) : (State.modRwc x0 x1 s).irq = s.irq := rfl
@[simp] theorem State.modRwc_llt x0 x1 (s : State) : (State.modRwc x0 x1 s).llt = s.llt := rfl
@[simp] theorem State.modRwc_hce x0 x1 (s : State) : (State.modRwc x0 x1 s).hce = s.hce := rfl
@[simp] theorem State.modRwc_lgr x0 x1 (s : State) : (State.modRwc x0 x1 s).lgr = s.lgr := rfl
@[simp] theorem State.modRwc_xmt x0 x1 (s : State) : (State.modRwc x0 x1 s).xmt = s.xmt := rfl
@[simp] theorem State.modRwc_rvr x0 x1 (s : State) : (State.modRwc x0 x1 s).rvr = s.rvr := rfl
@[simp] theorem State.modRwc_cst x0 x1 (s : State) : (State.modRwc x0 x1 s).cst = s.cst := rfl
@[simp] theorem State.modRwc_asq x0 x1 (s : State) : (State.modRwc x0 x1 s).asq = s.asq := rfl
@[simp] theorem State.modRwc_ldp x0 x1 (s : State) : (State.modRwc x0 x1 s).ldp = s.ldp := rfl
@[simp] theorem State.modRwc_tpe x0 x1 (s : State) : (State.modRwc x0 x1 s).tpe = s.tpe := rfl
@[simp] theorem State.modRwc_sve x0 x1 (s : State) : (State.modRwc x0 x1 s).sve = s.sve := rfl
@[simp] theorem State.modRwc_spn x0 x1 (s : State) : (State.modRwc x0 x1 s).spn = s.spn := rfl
@[simp] theorem State.modRwc_psi x0 x1 (s : State) : (State.modRwc x0 x1 s).psi = s.psi := rfl
@[simp] theorem State.modRwc_lsr x0 x1 (s : State) : (State.modRwc x0 x1 s).lsr = s.lsr := rfl
@[simp] theorem State.modRwc_opt x0 x1 (s : State) : (State.modRwc x0 x1 s).opt = s.opt := rfl
@[simp] theorem State.modRwc_dmc x0 x1 (s : State) : (State.modRwc x0 x1 s).dmc = s.dmc := rfl
@[simp] theorem State.modRwc_bcc x0 x1 (s : State) : (State.modRwc x0 x1 s).bcc = s.bcc := rfl
@[simp] theorem State.modRwc_sec x0 x1 (s : State) : (State.modRwc x0 x1 s).sec = s.sec := rfl
@[simp] theorem State.modRwc_thm x0 x1 (s : State) : (State.modRwc x0 x1 s).thm = s.thm := rfl
@[simp] theorem State.modRwc_trm x0 x1 (s : State) : (State.modRwc x0 x1 s).trm = s.trm := rfl
@[simp] theorem State.modRwc_sup x0 x1 (s : State) : (State.modRwc x0 x1 s).sup = s.sup := rfl
@[simp] theorem State.modRwc_evr x0 x1 (s : State) : (State.modRwc x0 x1 s).evr = s.evr := rfl
@[simp] theorem State.modRwc_lif x0 x1 (s : State) : (State.modRwc x0 x1 s).lif = s.lif := rfl
@[simp] theorem State.modRwc_cal x0 x1 (s : State) : (State.modRwc x0 x1 s).cal = s.cal := rfl
@[simp] theorem State.modRwc_vlk x0 x1 (s : State) : (State.modRwc x0 x1 s).vlk = s.vlk := rfl
@[simp] theorem State.modSec_pending x0 (s : State) : (State.modSec x0 s).pending = s.pending := rfl
@[simp] theorem State.modSec_us x0 (s : State) : (State.modSec x0 s).us = s.us := rfl
@[simp] theorem State.modSec_busData x0 (s : State) : (State.modSec x0 s).busData = s.busData := rfl
@[simp] theorem State.modSec_busErr x0 (s : State) : (State.modSec x0 s).busErr = s.busErr := rfl
@[simp] theorem State.modSec_regs x0 (s : State) : (State.modSec x0 s).regs = s.regs := rfl
@[simp] theorem State.modSec_mem x0 (s : State) : (State.modSec x0 s).mem = s.mem := rfl
@[simp] theorem State.modSec_tcm x0 (s : State) : (State.modSec x0 s).tcm = s.tcm := rfl
@[simp] theorem State.modSec_free x0 (s : State) : (State.modSec x0 s).free = s.free := rfl
@[simp] theorem State.modSec_hdr x0 (s : State) : (State.modSec x0 s).hdr = s.hdr := rfl
@[simp] theorem State.modSec_sys x0 (s : State) : (State.modSec x0 s).sys = s.sys := rfl
@[simp] theorem State.modSec_clk x0 (s : State) : (State.modSec x0 s).clk = s.clk := rfl
@[simp] theorem State.modSec_pwr x0 (s : State) : (State.modSec x0 s).pwr = s.pwr := rfl
@[simp] theorem State.modSec_l1 x0 (s : State) : (State.modSec x0 s).l1 = s.l1 := rfl
@[simp] theorem State.modSec_irq x0 (s : State) : (State.modSec x0 s).irq = s.irq := rfl
@[simp] theorem State.modSec_llt x0 (s : State) : (State.modSec x0 s).llt = s.llt := rfl
@[simp] theorem State.modSec_hce x0 (s : State) : (State.modSec x0 s).hce = s.hce := rfl
@[simp] theorem State.modSec_lgr x0 (s : State) : (State.modSec x0 s).lgr = s.lgr := rfl
@[simp] theorem State.modSec_xmt x0 (s : State) : (State.modSec x0 s).xmt = s.xmt := rfl
@[simp] theorem State.modSec_rvr x0 (s : State) : (State.modSec x0 s).rvr = s.rvr := rfl
@[simp] theorem State.modSec_cst x0 (s : State) : (State.modSec x0 s).cst = s.cst := rfl
@[simp] theorem State.modSec_asq x0 (s : State) : (State.modSec x0 s).asq = s.asq := rfl
@[simp] theorem State.modSec_rwc x0 (s : State) : (State.modSec x0 s).rwc = s.rwc := rfl
@[simp] theorem State.modSec_ldp x0 (s : State) : (State.modSec x0 s).ldp = s.ldp := rfl
@[simp] theorem State.modSec_tpe x0 (s : State) : (State.modSec x0 s).tpe = s.tpe := rfl
@[simp] theorem State.modSec_sve x0 (s : State) : (State.modSec x0 s).sve = s.sve := rfl
@[simp] theorem State.modSec_spn x0 (s : State) : (State.modSec x0 s).spn = s.spn := rfl
@[simp] theorem State.modSec_psi x0 (s : State) : (State.modSec x0 s).psi = s.psi := rfl
@[simp] theorem State.modSec_lsr x0 (s : State) : (State.modSec x0 s).lsr = s.lsr := rfl
@[simp] theorem State.modSec_opt x0 (s : State) : (State.modSec x0 s).opt = s.opt := rfl
@[simp] theorem State.modSec_dmc x0 (s : State) : (State.modSec x0 s).dmc = s.dmc := rfl
@[simp] theorem State.modSec_bcc x0 (s : State) : (State.modSec x0 s).bcc = s.bcc := rfl
@[simp] theorem State.modSec_thm x0 (s : State) : (State.modSec x0 s).thm = s.thm := rfl
@[simp] theorem State.modSec_trm x0 (s : State) : (State.modSec x0 s).trm = s.trm := rfl
@[simp] theorem State.modSec_sup x0 (s : State) : (State.modSec x0 s).sup = s.sup := rfl
@[simp] theorem State.modSec_evr x0 (s : State) : (State.modSec x0 s).evr = s.evr := rfl
@[simp] theorem State.modSec_lif x0 (s : State) : (State.modSec x0 s).lif = s.lif := rfl
@[simp] theorem State.modSec_cal x0 (s : State) : (State.modSec x0 s).cal = s.cal := rfl
@[simp] theorem State.modSec_vlk x0 (s : State) : (State.modSec x0 s).vlk = s.vlk := rfl
@[simp] theorem State.modSpn_pending x0 (s : State) : (State.modSpn x0 s).pending = s.pending := rfl
@[simp] theorem State.modSpn_us x0 (s : State) : (State.modSpn x0 s).us = s.us := rfl
@[simp] theorem State.modSpn_busData x0 (s : State) : (State.modSpn x0 s).busData = s.busData := rfl
@[simp] theorem State.modSpn_busErr x0 (s : State) : (State.modSpn x0 s).busErr = s.busErr := rfl
@[simp] theorem State.modSpn_regs x0 (s : State) : (State.modSpn x0 s).regs = s.regs := rfl
@[simp] theorem State.modSpn_mem x0 (s : State) : (State.modSpn x0 s).mem = s.mem := rfl
@[simp] theorem State.modSpn_tcm x0 (s : State) : (State.modSpn x0 s).tcm = s.tcm := rfl
@[simp] theorem State.modSpn_free x0 (s : State) : (State.modSpn x0 s).free = s.free := rfl
@[simp] theorem State.modSpn_hdr x0 (s : State) : (State.modSpn x0 s).hdr = s.hdr := rfl
@[simp] theorem State.modSpn_sys x0 (s : State) : (State.modSpn x0 s).sys = s.sys := rfl
@[simp] theorem State.modSpn_clk x0 (s : State) : (State.modSpn x0 s).clk = s.clk := rfl
@[simp] theorem State.modSpn_pwr x0 (s : State) : (State.modSpn x0 s).pwr = s.pwr := rfl
@[simp] theorem State.modSpn_l1 x0 (s : State) : (State.modSpn x0 s).l1 = s.l1 := rfl
@[simp] theorem State.modSpn_irq x0 (s : State) : (State.modSpn x0 s).irq = s.irq := rfl
@[simp] theorem State.modSpn_llt x0 (s : State) : (State.modSpn x0 s).llt = s.llt := rfl
@[simp] theorem State.modSpn_hce x0 (s : State) : (State.modSpn x0 s).hce = s.hce := rfl
@[simp] theorem State.modSpn_lgr x0 (s : State) : (State.modSpn x0 s).lgr = s.lgr := rfl
@[simp] theorem State.modSpn_xmt x0 (s : State) : (State.modSpn x0 s).xmt = s.xmt := rfl
@[simp] theorem State.modSpn_rvr x0 (s : State) : (State.modSpn x0 s).rvr = s.rvr := rfl
@[simp] theorem State.modSpn_cst x0 (s : State) : (State.modSpn x0 s).cst = s.cst := rfl
@[simp] theorem State.modSpn_asq x0 (s : State) : (State.modSpn x0 s).asq = s.asq := rfl
@[simp] theorem State.modSpn_rwc x0 (s : State) : (State.modSpn x0 s).rwc = s.rwc := rfl
@[simp] theorem State.modSpn_ldp x0 (s : State) : (State.modSpn x0 s).ldp = s.ldp := rfl
@[simp] theorem State.modSpn_tpe x0 (s : State) : (State.modSpn x0 s).tpe = s.tpe := rfl
@[simp] theorem State.modSpn_sve x0 (s : State) : (State.modSpn x0 s).sve = s.sve := rfl
@[simp] theorem State.modSpn_psi x0 (s : State) : (State.modSpn x0 s).psi = s.psi := rfl
@[simp] theorem State.modSpn_lsr x0 (s : State) : (State.modSpn x0 s).lsr = s.lsr := rfl
@[simp] theorem State.modSpn_opt x0 (s : State) : (State.modSpn x0 s).opt = s.opt := rfl
@[simp] theorem State.modSpn_dmc x0 (s : State) : (State.modSpn x0 s).dmc = s.dmc := rfl
@[simp] theorem State.modSpn_bcc x0 (s : State) : (State.modSpn x0 s).bcc = s.bcc := rfl
@[simp] theorem State.modSpn_sec x0 (s : State) : (State.modSpn x0 s).sec = s.sec := rfl
@[simp] theorem State.modSpn_thm x0 (s : State) : (State.modSpn x0 s).thm = s.thm := rfl
@[simp] theorem State.modSpn_trm x0 (s : State) : (State.modSpn x0 s).trm = s.trm := rfl
@[simp] theorem State.modSpn_sup x0 (s : State) : (State.modSpn x0 s).sup = s.sup := rfl
@[simp] theorem State.modSpn_evr x0 (s : State) : (State.modSpn x0 s).evr = s.evr := rfl
@[simp] theorem State.modSpn_lif x0 (s : State) : (State.modSpn x0 s).lif = s.lif := rfl
@[simp] theorem State.modSpn_cal x0 (s : State) : (State.modSpn x0 s).cal = s.cal := rfl
@[simp] theorem State.modSpn_vlk x0 (s : State) : (State.modSpn x0 s).vlk = s.vlk := rfl
@[simp] theorem State.modSve_pending x0 x1 (s : State) : (State.modSve x0 x1 s).pending = s.pending := rfl
@[simp] theorem State.modSve_us x0 x1 (s : State) : (State.modSve x0 x1 s).us = s.us := rfl
@[simp] theorem State.modSve_busData x0 x1 (s : State) : (State.modSve x0 x1 s).busData = s.busData := rfl
@[simp] theorem State.modSve_busErr x0 x1 (s : State) : (State.modSve x0 x1 s).busErr = s.busErr := rfl
@[simp] theorem State.modSve_regs x0 x1 (s : State) : (State.modSve x0 x1 s).regs = s.regs := rfl
@[simp] theorem State.modSve_mem x0 x1 (s : State) : (State.modSve x0 x1 s).mem = s.mem := rfl
@[simp] theorem State.modSve_tcm x0 x1 (s : State) : (State.modSve x0 x1 s).tcm = s.tcm := rfl
@[simp] theorem State.modSve_free x0 x1 (s : State) : (State.modSve x0 x1 s).free = s.free := rfl
@[simp] theorem State.modSve_hdr x0 x1 (s : State) : (State.modSve x0 x1 s).hdr = s.hdr := rfl
@[simp] theorem State.modSve_sys x0 x1 (s : State) : (State.modSve x0 x1 s).sys = s.sys := rfl
@[simp] theorem State.modSve_clk x0 x1 (s : State) : (State.modSve x0 x1 s).clk = s.clk := rfl
@[simp] theorem State.modSve_pwr x0 x1 (s : State) : (State.modSve x0 x1 s).pwr = s.pwr := rfl
@[simp] theorem State.modSve_l1 x0 x1 (s : State) : (State.modSve x0 x1 s).l1 = s.l1 := rfl
@[simp] theorem State.modSve_irq x0 x1 (s : State) : (State.modSve x0 x1 s).irq = s.irq := rfl
@[simp] theorem State.modSve_llt x0 x1 (s : State) : (State.modSve x0 x1 s).llt = s.llt := rfl
@[simp] theorem State.modSve_hce x0 x1 (s : State) : (State.modSve x0 x1 s).hce = s.hce := rfl
@[simp] theorem State.modSve_lgr x0 x1 (s : State) : (State.modSve x0 x1 s).lgr = s.lgr := rfl
@[simp] theorem State.modSve_xmt x0 x1 (s : State) : (State.modSve x0 x1 s).xmt = s.xmt := rfl
@[simp] theorem State.modSve_rvr x0 x1 (s : State) : (State.modSve x0 x1 s).rvr = s.rvr := rfl
@[simp] theorem State.modSve_cst x0 x1 (s : State) : (State.modSve x0 x1 s).cst = s.cst := rfl
@[simp] theorem State.modSve_asq x0 x1 (s : State) : (State.modSve x0 x1 s).asq = s.asq := rfl
@[simp] theorem State.modSve_rwc x0 x1 (s : State) : (State.modSve x0 x1 s).rwc = s.rwc := rfl
@[simp] theorem State.modSve_ldp x0 x1 (s : State) : (State.modSve x0 x1 s).ldp = s.ldp := rfl
@[simp] theorem State.modSve_tpe x0 x1 (s : State) : (State.modSve x0 x1 s).tpe = s.tpe := rfl
@[simp] theorem State.modSve_spn x0 x1 (s : State) : (State.modSve x0 x1 s).spn = s.spn := rfl
@[simp] theorem State.modSve_psi x0 x1 (s : State) : (State.modSve x0 x1 s).psi = s.psi := rfl
@[simp] theorem State.modSve_lsr x0 x1 (s : State) : (State.modSve x0 x1 s).lsr = s.lsr := rfl
@[simp] theorem State.modSve_opt x0 x1 (s : State) : (State.modSve x0 x1 s).opt = s.opt := rfl
@[simp] theorem State.modSve_dmc x0 x1 (s : State) : (State.modSve x0 x1 s).dmc = s.dmc := rfl
@[simp] theorem State.modSve_bcc x0 x1 (s : State) : (State.modSve x0 x1 s).bcc = s.bcc := rfl
@[simp] theorem State.modSve_sec x0 x1 (s : State) : (State.modSve x0 x1 s).sec = s.sec := rfl
@[simp] theorem State.modSve_thm x0 x1 (s : State) : (State.modSve x0 x1 s).thm = s.thm := rfl
@[simp] theorem State.modSve_trm x0 x1 (s : State) : (State.modSve x0 x1 s).trm = s.trm := rfl
@[simp] theorem State.modSve_sup x0 x1 (s : State) : (State.modSve x0 x1 s).sup = s.sup := rfl
@[simp] theorem State.modSve_evr x0 x1 (s : State) : (State.modSve x0 x1 s).evr = s.evr := rfl
@[simp] theorem State.modSve_lif x0 x1 (s : State) : (State.modSve x0 x1 s).lif = s.lif := rfl
@[simp] theorem State.modSve_cal x0 x1 (s : State) : (State.modSve x0 x1 s).cal = s.cal := rfl
@[simp] theorem State.modSve_vlk x0 x1 (s : State) : (State.modSve x0 x1 s).vlk = s.vlk := rfl
@[simp] theorem State.modSys_pending x0 (s : State) : (State.modSys x0 s).pending = s.pending := rfl
@[simp] theorem State.modSys_us x0 (s : State) : (State.modSys x0 s).us = s.us := rfl
@[simp] theorem State.modSys_busData x0 (s : State) : (State.modSys x0 s).busData = s.busData := rfl
@[simp] theorem State.modSys_busErr x0 (s : State) : (State.modSys x0 s).busErr = s.busErr := rfl
@[simp] theorem State.modSys_regs x0 (s : State) : (State.modSys x0 s).regs = s.regs := rfl
@[simp] theorem State.modSys_mem x0 (s : State) : (State.modSys x0 s).mem = s.mem := rfl
@[simp] theorem State.modSys_tcm x0 (s : State) : (State.modSys x0 s).tcm = s.tcm := rfl
@[simp] theorem State.modSys_free x0 (s : State) : (State.modSys x0 s).free = s.free := rfl
@[simp] theorem State.modSys_hdr x0 (s : State) : (State.modSys x0 s).hdr = s.hdr := rfl
@[simp] theorem State.modSys_clk x0 (s : State) : (State.modSys x0 s).clk = s.clk := rfl
@[simp] theorem State.modSys_pwr x0 (s : State) : (State.modSys x0 s).pwr = s.pwr := rfl
@[simp] theorem State.modSys_l1 x0 (s : State) : (State.modSys x0 s).l1 = s.l1 := rfl
@[simp] theorem State.modSys_irq x0 (s : State) : (State.modSys x0 s).irq = s.irq := rfl
@[simp] theorem State.modSys_llt x0 (s : State) : (State.modSys x0 s).llt = s.llt := rfl
@[simp] theorem State.modSys_hce x0 (s : State) : (State.modSys x0 s).hce = s.hce := rfl
@[simp] theorem State.modSys_lgr x0 (s : State) : (State.modSys x0 s).lgr = s.lgr := rfl
@[simp] theorem State.modSys_xmt x0 (s : State) : (State.modSys x0 s).xmt = s.xmt := rfl
@[simp] theorem State.modSys_rvr x0 (s : State) : (State.modSys x0 s).rvr = s.rvr := rfl
@[simp] theorem State.modSys_cst x0 (s : State) : (State.modSys x0 s).cst = s.cst := rfl
@[simp] theorem State.modSys_asq x0 (s : State) : (State.modSys x0 s).asq = s.asq := rfl
@[simp] theorem State.modSys_rwc x0 (s : State) : (State.modSys x0 s).rwc = s.rwc := rfl
@[simp] theorem State.modSys_ldp x0 (s : State) : (State.modSys x0 s).ldp = s.ldp := rfl
@[simp] theorem State.modSys_tpe x0 (s : State) : (State.modSys x0 s).tpe = s.tpe := rfl
@[simp] theorem State.modSys_sve x0 (s : State) : (State.modSys x0 s).sve = s.sve := rfl
@[simp] theorem State.modSys_spn x0 (s : State) : (State.modSys x0 s).spn = s.spn := rfl
@[simp] theorem State.modSys_psi x0 (s : State) : (State.modSys x0 s).psi = s.psi := rfl
@[simp] theorem State.modSys_lsr x0 (s : State) : (State.modSys x0 s).lsr = s.lsr := rfl
@[simp] theorem State.modSys_opt x0 (s : State) : (State.modSys x0 s).opt = s.opt := rfl
@[simp] theorem State.modSys_dmc x0 (s : State) : (State.modSys x0 s).dmc = s.dmc := rfl
@[simp] theorem State.modSys_bcc x0 (s : State) : (State.modSys x0 s).bcc = s.bcc := rfl
@[simp] theorem State.modSys_sec x0 (s : State) : (State.modSys x0 s).sec = s.sec := rfl
@[simp] theorem State.modSys_thm x0 (s : State) : (State.modSys x0 s).thm = s.thm := rfl
@[simp] theorem State.modSys_trm x0 (s : State) : (State.modSys x0 s).trm = s.trm := rfl
@[simp] theorem State.modSys_sup x0 (s : State) : (State.modSys x0 s).sup = s.sup := rfl
@[simp] theorem State.modSys_evr x0 (s : State) : (State.modSys x0 s).evr = s.evr := rfl
@[simp] theorem State.modSys_lif x0 (s : State) : (State.modSys x0 s).lif = s.lif := rfl
@[simp] theorem State.modSys_cal x0 (s : State) : (State.modSys x0 s).cal = s.cal := rfl
@[simp] theorem State.modSys_vlk x0 (s : State) : (State.modSys x0 s).vlk = s.vlk := rfl
@[simp] theorem State.modThm_pending x0 (s : State) : (State.modThm x0 s).pending = s.pending := rfl
@[simp] theorem State.modThm_us x0 (s : State) : (State.modThm x0 s).us = s.us := rfl
@[simp] theorem State.modThm_busData x0 (s : State) : (State.modThm x0 s).busData = s.busData := rfl
@[simp] theorem State.modThm_busErr x0 (s : State) : (State.modThm x0 s).busErr = s.busErr := rfl
@[simp] theorem State.modThm_regs x0 (s : State) : (State.modThm x0 s).regs = s.regs := rfl
@[simp] theorem State.modThm_mem x0 (s : State) : (State.modThm x0 s).mem = s.mem := rfl
@[simp] theorem State.modThm_tcm x0 (s : State) : (State.modThm x0 s).tcm = s.tcm := rfl
@[simp] theorem State.modThm_free x0 (s : State) : (State.modThm x0 s).free = s.free := rfl
@[simp] theorem State.modThm_hdr x0 (s : State) : (State.modThm x0 s).hdr = s.hdr := rfl
@[simp] theorem State.modThm_sys x0 (s : State) : (State.modThm x0 s).sys = s.sys := rfl
@[simp] theorem State.modThm_clk x0 (s : State) : (State.modThm x0 s).clk = s.clk := rfl
@[simp] theorem State.modThm_pwr x0 (s : State) : (State.modThm x0 s).pwr = s.pwr := rfl
@[simp] theorem State.modThm_l1 x0 (s : State) : (State.modThm x0 s).l1 = s.l1 := rfl
@[simp] theorem State.modThm_irq x0 (s : State) : (State.modThm x0 s).irq = s.irq := rfl
@[simp] theorem State.modThm_llt x0 (s : State) : (State.modThm x0 s).llt = s.llt := rfl
@[simp] theorem State.modThm_hce x0 (s : State) : (State.modThm x0 s).hce = s.hce := rfl
@[simp] theorem State.modThm_lgr x0 (s : State) : (State.modThm x0 s).lgr = s.lgr := rfl
@[simp] theorem State.modThm_xmt x0 (s : State) : (State.modThm x0 s).xmt = s.xmt := rfl
@[simp] theorem State.modThm_rvr x0 (s : State) : (State.modThm x0 s).rvr = s.rvr := rfl
@[simp] theorem State.modThm_cst x0 (s : State) : (State.modThm x0 s).cst = s.cst := rfl
@[simp] theorem State.modThm_asq x0 (s : State) : (State.modThm x0 s).asq = s.asq := rfl
@[simp] theorem State.modThm_rwc x0 (s : State) : (State.modThm x0 s).rwc = s.rwc := rfl
@[simp] theorem State.modThm_ldp x0 (s : State) : (State.modThm x0 s).ldp = s.ldp := rfl
@[simp] theorem State.modThm_tpe x0 (s : State) : (State.modThm x0 s).tpe = s.tpe := rfl
@[simp] theorem State.modThm_sve x0 (s : State) : (State.modThm x0 s).sve = s.sve := rfl
@[simp] theorem State.modThm_spn x0 (s : State) : (State.modThm x0 s).spn = s.spn := rfl
@[simp] theorem State.modThm_psi x0 (s : State) : (State.modThm x0 s).psi = s.psi := rfl
@[simp] theorem State.modThm_lsr x0 (s : State) : (State.modThm x0 s).lsr = s.lsr := rfl
@[simp] theorem State.modThm_opt x0 (s : State) : (State.modThm x0 s).opt = s.opt := rfl
@[simp] theorem State.modThm_dmc x0 (s : State) : (State.modThm x0 s).dmc = s.dmc := rfl
@[simp] theorem State.modThm_bcc x0 (s : State) : (State.modThm x0 s).bcc = s.bcc := rfl
@[simp] theorem State.modThm_sec x0 (s : State) : (State.modThm x0 s).sec = s.sec := rfl
@[simp] theorem State.modThm_trm x0 (s : State) : (State.modThm x0 s).trm = s.trm := rfl
@[simp] theorem State.modThm_sup x0 (s : State) : (State.modThm x0 s).sup = s.sup := rfl
@[simp] theorem State.modThm_evr x0 (s : State) : (State.modThm x0 s).evr = s.evr := rfl
@[simp] theorem State.modThm_lif x0 (s : State) : (State.modThm x0 s).lif = s.lif := rfl
@[simp] theorem State.modThm_cal x0 (s : State) : (State.modThm x0 s).cal = s.cal := rfl
@[simp] theorem State.modThm_vlk x0 (s : State) : (State.modThm x0 s).vlk = s.vlk := rfl
@[simp] theorem State.modVlk_pending x0 (s : State) : (State.modVlk x0 s).pending = s.pending := rfl
@[simp] theorem State.modVlk_us x0 (s : State) : (State.modVlk x0 s).us = s.us := rfl
@[simp] theorem State.modVlk_busData x0 (s : State) : (State.modVlk x0 s).busData = s.busData := rfl
@[simp] theorem State.modVlk_busErr x0 (s : State) : (State.modVlk x0 s).busErr = s.busErr := rfl
@[simp] theorem State.modVlk_regs x0 (s : State) : (State.modVlk x0 s).regs = s.regs := rfl
@[simp] theorem State.modVlk_mem x0 (s : State) : (State.modVlk x0 s).mem = s.mem := rfl
@[simp] theorem State.modVlk_tcm x0 (s : State) : (State.modVlk x0 s).tcm = s.tcm := rfl
@[simp] theorem State.modVlk_free x0 (s : State) : (State.modVlk x0 s).free = s.free := rfl
@[simp] theorem State.modVlk_hdr x0 (s : State) : (State.modVlk x0 s).hdr = s.hdr := rfl
@[simp] theorem State.modVlk_sys x0 (s : State) : (State.modVlk x0 s).sys = s.sys := rfl
@[simp] theorem State.modVlk_clk x0 (s : State) : (State.modVlk x0 s).clk = s.clk := rfl
@[simp] theorem State.modVlk_pwr x0 (s : State) : (State.modVlk x0 s).pwr = s.pwr := rfl
@[simp] theorem State.modVlk_l1 x0 (s : State) : (State.modVlk x0 s).l1 = s.l1 := rfl
@[simp] theorem State.modVlk_irq x0 (s : State) : (State.modVlk x0 s).irq = s.irq := rfl
@[simp] theorem State.modVlk_llt x0 (s : State) : (State.modVlk x0 s).llt = s.llt := rfl
@[simp] theorem State.modVlk_hce x0 (s : State) : (State.modVlk x0 s).hce = s.hce := rfl
@[simp] theorem State.modVlk_lgr x0 (s : State) : (State.modVlk x0 s).lgr = s.lgr := rfl
@[simp] theorem State.modVlk_xmt x0 (s : State) : (State.modVlk x0 s).xmt = s.xmt := rfl
@[simp] theorem State.modVlk_rvr x0 (s : State) : (State.modVlk x0 s).rvr = s.rvr := rfl
@[simp] theorem State.modVlk_cst x0 (s : State) : (State.modVlk x0 s).cst = s.cst := rfl
@[simp] theorem State.modVlk_asq x0 (s : State) : (State.modVlk x0 s).asq = s.asq := rfl
@[simp] theorem State.modVlk_rwc x0 (s : State) : (State.modVlk x0 s).rwc = s.rwc := rfl
@[simp] theorem State.modVlk_ldp x0 (s : State) : (State.modVlk x0 s).ldp = s.ldp := rfl
@[simp] theorem State.modVlk_tpe x0 (s : State) : (State.modVlk x0 s).tpe = s.tpe := rfl
@[simp] theorem State.modVlk_sve x0 (s : State) : (State.modVlk x0 s).sve = s.sve := rfl
@[simp] theorem State.modVlk_spn x0 (s : State) : (State.modVlk x0 s).spn = s.spn := rfl
@[simp] theorem State.modVlk_psi x0 (s : State) : (State.modVlk x0 s).psi = s.psi := rfl
@[simp] theorem State.modVlk_lsr x0 (s : State) : (State.modVlk x0 s).lsr = s.lsr := rfl
@[simp] theorem State.modVlk_opt x0 (s : State) : (State.modVlk x0 s).opt = s.opt := rfl
@[simp] theorem State.modVlk_dmc x0 (s : State) : (State.modVlk x0 s).dmc = s.dmc := rfl
@[simp] theorem State.modVlk_bcc x0 (s : State) : (State.modVlk x0 s).bcc = s.bcc := rfl
@[simp] theorem State.modVlk_sec x0 (s : State) : (State.modVlk x0 s).sec = s.sec := rfl
@[simp] theorem State.modVlk_thm x0 (s : State) : (State.modVlk x0 s).thm = s.thm := rfl
@[simp] theorem State.modVlk_trm x0 (s : State) : (State.modVlk x0 s).trm = s.trm := rfl
@[simp] theorem State.modVlk_sup x0 (s : State) : (State.modVlk x0 s).sup = s.sup := rfl
@[simp] theorem State.modVlk_evr x0 (s : State) : (State.modVlk x0 s).evr = s.evr := rfl
@[simp] theorem State.modVlk_lif x0 (s : State) : (State.modVlk x0 s).lif = s.lif := rfl
@[simp] theorem State.modVlk_cal x0 (s : State) : (State.modVlk x0 s).cal = s.cal := rfl
@[simp] theorem State.modXmt_pending x0 (s : State) : (State.modXmt x0 s).pending = s.pending := rfl
@[simp] theorem State.modXmt_us x0 (s : State) : (State.modXmt x0 s).us = s.us := rfl
@[simp] theorem State.modXmt_busData x0 (s : State) : (State.modXmt x0 s).busData = s.busData := rfl
@[simp] theorem State.modXmt_busErr x0 (s : State) : (State.modXmt x0 s).busErr = s.busErr := rfl
@[simp] theorem State.modXmt_regs x0 (s : State) : (State.modXmt x0 s).regs = s.regs := rfl
@[simp] theorem State.modXmt_mem x0 (s : State) : (State.modXmt x0 s).mem = s.mem := rfl
@[simp] theorem State.modXmt_tcm x0 (s : State) : (State.modXmt x0 s).tcm = s.tcm := rfl
@[simp] theorem State.modXmt_free x0 (s : State) : (State.modXmt x0 s).free = s.free := rfl
@[simp] theorem State.modXmt_hdr x0 (s : State) : (State.modXmt x0 s).hdr = s.hdr := rfl
@[simp] theorem State.modXmt_sys x0 (s : State) : (State.modXmt x0 s).sys = s.sys := rfl
@[simp] theorem State.modXmt_clk x0 (s : State) : (State.modXmt x0 s).clk = s.clk := rfl
@[simp] theorem State.modXmt_pwr x0 (s : State) : (State.modXmt x0 s).pwr = s.pwr := rfl
@[simp] theorem State.modXmt_l1 x0 (s : State) : (State.modXmt x0 s).l1 = s.l1 := rfl
@[simp] theorem State.modXmt_irq x0 (s : State) : (State.modXmt x0 s).irq = s.irq := rfl
@[simp] theorem State.modXmt_llt x0 (s : State) : (State.modXmt x0 s).llt = s.llt := rfl
@[simp] theorem State.modXmt_hce x0 (s : State) : (State.modXmt x0 s).hce = s.hce := rfl
@[simp] theorem State.modXmt_lgr x0 (s : State) : (State.modXmt x0 s).lgr = s.lgr := rfl
@[simp] theorem State.modXmt_rvr x0 (s : State) : (State.modXmt x0 s).rvr = s.rvr := rfl
@[simp] theorem State.modXmt_cst x0 (s : State) : (State.modXmt x0 s).cst = s.cst := rfl
@[simp] theorem State.modXmt_asq x0 (s : State) : (State.modXmt x0 s).asq = s.asq := rfl
@[simp] theorem State.modXmt_rwc x0 (s : State) : (State.modXmt x0 s).rwc = s.rwc := rfl
@[simp] theorem State.modXmt_ldp x0 (s : State) : (State.modXmt x0 s).ldp = s.ldp := rfl
@[simp] theorem State.modXmt_tpe x0 (s : State) : (State.modXmt x0 s).tpe = s.tpe := rfl
@[simp] theorem State.modXmt_sve x0 (s : State) : (State.modXmt x0 s).sve = s.sve := rfl
@[simp] theorem State.modXmt_spn x0 (s : State) : (State.modXmt x0 s).spn = s.spn := rfl
@[simp] theorem State.modXmt_psi x0 (s : State) : (State.modXmt x0 s).psi = s.psi := rfl
@[simp] theorem State.modXmt_lsr x0 (s : State) : (State.modXmt x0 s).lsr = s.lsr := rfl
@[simp] theorem State.modXmt_opt x0 (s : State) : (State.modXmt x0 s).opt = s.opt := rfl
@[simp] theorem State.modXmt_dmc x0 (s : State) : (State.modXmt x0 s).dmc = s.dmc := rfl
@[simp] theorem State.modXmt_bcc x0 (s : State) : (State.modXmt x0 s).bcc = s.bcc := rfl
@[simp] theorem State.modXmt_sec x0 (s : State) : (State.modXmt x0 s).sec = s.sec := rfl
@[simp] theorem State.modXmt_thm x0 (s : State) : (State.modXmt x0 s).thm = s.thm := rfl
@[simp] theorem State.modXmt_trm x0 (s : State) : (State.modXmt x0 s).trm = s.trm := rfl
@[simp] theorem State.modXmt_sup x0 (s : State) : (State.modXmt x0 s).sup = s.sup := rfl
@[simp] theorem State.modXmt_evr x0 (s : State) : (State.modXmt x0 s).evr = s.evr := rfl
@[simp] theorem State.modXmt_lif x0 (s : State) : (State.modXmt x0 s).lif = s.lif := rfl
@[simp] theorem State.modXmt_cal x0 (s : State) : (State.modXmt x0 s).cal = s.cal := rfl
@[simp] theorem State.modXmt_vlk x0 (s : State) : (State.modXmt x0 s).vlk = s.vlk := rfl
@[simp] theorem State.modHdr_hdr i f (s : State) : (State.modHdr i f s).hdr = vmod s.hdr i f := rfl
@[simp] theorem State.modAsq_asq n f (s : State) : (State.modAsq n f s).asq = s.asq.set n (f s.asq[n]) := rfl
@[simp] theorem State.modRwc_rwc n f (s : State) : (State.modRwc n f s).rwc = s.rwc.set n (f s.rwc[n]) := rfl
@[simp] theorem State.modSve_sve n f (s : State) : (State.modSve n f s).sve = s.sve.set n (f s.sve[n]) := rfl
@[simp] theorem State.modPsi_psi n f (s : State) : (State.modPsi n f s).psi = s.psi.set n (f s.psi[n]) := rfl
@[simp] theorem State.modSys_sys f (s : State) : (State.modSys f s).sys = f s.sys := rfl
@[simp] theorem State.modPwr_pwr f (s : State) : (State.modPwr f s).pwr = f s.pwr := rfl
@[simp] theorem State.modLlt_llt f (s : State) : (State.modLlt f s).llt = f s.llt := rfl
@[simp] theorem State.modHce_hce f (s : State) : (State.modHce f s).hce = f s.hce := rfl
@[simp] theorem State.modLgr_lgr f (s : State) : (State.modLgr f s).lgr = f s.lgr := rfl
@[simp] theorem State.modXmt_xmt f (s : State) : (State.modXmt f s).xmt = f s.xmt := rfl
@[simp] theorem State.modRvr_rvr f (s : State) : (State.modRvr f s).rvr = f s.rvr := rfl
@[simp] theorem State.modSpn_spn f (s : State) : (State.modSpn f s).spn = f s.spn := rfl
@[simp] theorem State.modSec_sec f (s : State) : (State.modSec f s).sec = f s.sec := rfl
@[simp] theorem State.modThm_thm f (s : State) : (State.modThm f s).thm = f s.thm := rfl
@[simp] theorem State.modVlk_vlk f (s : State) : (State.modVlk f s).vlk = f s.vlk := rfl
@[simp] theorem State.modEvr_evr f (s : State) : (State.modEvr f s).evr = f s.evr := rfl
@[simp] theorem State.modLdp_ldp f (s : State) : (State.modLdp f s).ldp = f s.ldp := rfl

end Sys2Proof.Machine
end

