-- ==== Sys2Proof/Laws/Ops.lean ====
section
/-!
SUPPORT. What the shared operations of Ops leave as it was, field by field.
-/

set_option Elab.async false

namespace Sys2Proof.Machine

@[simp] theorem ev_pending x0 x1 x2 x3 x4 (s : State) : (ev x0 x1 x2 x3 x4 s).pending = s.pending := frame_ev x0 x1 x2 x3 x4 s (m := 0x1800000100) (o := s) .refl rfl .pending rfl
@[simp] theorem ev_us x0 x1 x2 x3 x4 (s : State) : (ev x0 x1 x2 x3 x4 s).us = s.us := frame_ev x0 x1 x2 x3 x4 s (m := 0x1800000100) (o := s) .refl rfl .us rfl
@[simp] theorem ev_busData x0 x1 x2 x3 x4 (s : State) : (ev x0 x1 x2 x3 x4 s).busData = s.busData := frame_ev x0 x1 x2 x3 x4 s (m := 0x1800000100) (o := s) .refl rfl .busData rfl
@[simp] theorem ev_busErr x0 x1 x2 x3 x4 (s : State) : (ev x0 x1 x2 x3 x4 s).busErr = s.busErr := frame_ev x0 x1 x2 x3 x4 s (m := 0x1800000100) (o := s) .refl rfl .busErr rfl
@[simp] theorem ev_regs x0 x1 x2 x3 x4 (s : State) : (ev x0 x1 x2 x3 x4 s).regs = s.regs := frame_ev x0 x1 x2 x3 x4 s (m := 0x1800000100) (o := s) .refl rfl .regs rfl
@[simp] theorem ev_mem x0 x1 x2 x3 x4 (s : State) : (ev x0 x1 x2 x3 x4 s).mem = s.mem := frame_ev x0 x1 x2 x3 x4 s (m := 0x1800000100) (o := s) .refl rfl .mem rfl
@[simp] theorem ev_tcm x0 x1 x2 x3 x4 (s : State) : (ev x0 x1 x2 x3 x4 s).tcm = s.tcm := frame_ev x0 x1 x2 x3 x4 s (m := 0x1800000100) (o := s) .refl rfl .tcm rfl
@[simp] theorem ev_free x0 x1 x2 x3 x4 (s : State) : (ev x0 x1 x2 x3 x4 s).free = s.free := frame_ev x0 x1 x2 x3 x4 s (m := 0x1800000100) (o := s) .refl rfl .free rfl
@[simp] theorem ev_sys x0 x1 x2 x3 x4 (s : State) : (ev x0 x1 x2 x3 x4 s).sys = s.sys := frame_ev x0 x1 x2 x3 x4 s (m := 0x1800000100) (o := s) .refl rfl .sys rfl
@[simp] theorem ev_clk x0 x1 x2 x3 x4 (s : State) : (ev x0 x1 x2 x3 x4 s).clk = s.clk := frame_ev x0 x1 x2 x3 x4 s (m := 0x1800000100) (o := s) .refl rfl .clk rfl
@[simp] theorem ev_pwr x0 x1 x2 x3 x4 (s : State) : (ev x0 x1 x2 x3 x4 s).pwr = s.pwr := frame_ev x0 x1 x2 x3 x4 s (m := 0x1800000100) (o := s) .refl rfl .pwr rfl
@[simp] theorem ev_l1 x0 x1 x2 x3 x4 (s : State) : (ev x0 x1 x2 x3 x4 s).l1 = s.l1 := frame_ev x0 x1 x2 x3 x4 s (m := 0x1800000100) (o := s) .refl rfl .l1 rfl
@[simp] theorem ev_irq x0 x1 x2 x3 x4 (s : State) : (ev x0 x1 x2 x3 x4 s).irq = s.irq := frame_ev x0 x1 x2 x3 x4 s (m := 0x1800000100) (o := s) .refl rfl .irq rfl
@[simp] theorem ev_llt x0 x1 x2 x3 x4 (s : State) : (ev x0 x1 x2 x3 x4 s).llt = s.llt := frame_ev x0 x1 x2 x3 x4 s (m := 0x1800000100) (o := s) .refl rfl .llt rfl
@[simp] theorem ev_hce x0 x1 x2 x3 x4 (s : State) : (ev x0 x1 x2 x3 x4 s).hce = s.hce := frame_ev x0 x1 x2 x3 x4 s (m := 0x1800000100) (o := s) .refl rfl .hce rfl
@[simp] theorem ev_lgr x0 x1 x2 x3 x4 (s : State) : (ev x0 x1 x2 x3 x4 s).lgr = s.lgr := frame_ev x0 x1 x2 x3 x4 s (m := 0x1800000100) (o := s) .refl rfl .lgr rfl
@[simp] theorem ev_xmt x0 x1 x2 x3 x4 (s : State) : (ev x0 x1 x2 x3 x4 s).xmt = s.xmt := frame_ev x0 x1 x2 x3 x4 s (m := 0x1800000100) (o := s) .refl rfl .xmt rfl
@[simp] theorem ev_rvr x0 x1 x2 x3 x4 (s : State) : (ev x0 x1 x2 x3 x4 s).rvr = s.rvr := frame_ev x0 x1 x2 x3 x4 s (m := 0x1800000100) (o := s) .refl rfl .rvr rfl
@[simp] theorem ev_cst x0 x1 x2 x3 x4 (s : State) : (ev x0 x1 x2 x3 x4 s).cst = s.cst := frame_ev x0 x1 x2 x3 x4 s (m := 0x1800000100) (o := s) .refl rfl .cst rfl
@[simp] theorem ev_asq x0 x1 x2 x3 x4 (s : State) : (ev x0 x1 x2 x3 x4 s).asq = s.asq := frame_ev x0 x1 x2 x3 x4 s (m := 0x1800000100) (o := s) .refl rfl .asq rfl
@[simp] theorem ev_rwc x0 x1 x2 x3 x4 (s : State) : (ev x0 x1 x2 x3 x4 s).rwc = s.rwc := frame_ev x0 x1 x2 x3 x4 s (m := 0x1800000100) (o := s) .refl rfl .rwc rfl
@[simp] theorem ev_ldp x0 x1 x2 x3 x4 (s : State) : (ev x0 x1 x2 x3 x4 s).ldp = s.ldp := frame_ev x0 x1 x2 x3 x4 s (m := 0x1800000100) (o := s) .refl rfl .ldp rfl
@[simp] theorem ev_tpe x0 x1 x2 x3 x4 (s : State) : (ev x0 x1 x2 x3 x4 s).tpe = s.tpe := frame_ev x0 x1 x2 x3 x4 s (m := 0x1800000100) (o := s) .refl rfl .tpe rfl
@[simp] theorem ev_sve x0 x1 x2 x3 x4 (s : State) : (ev x0 x1 x2 x3 x4 s).sve = s.sve := frame_ev x0 x1 x2 x3 x4 s (m := 0x1800000100) (o := s) .refl rfl .sve rfl
@[simp] theorem ev_spn x0 x1 x2 x3 x4 (s : State) : (ev x0 x1 x2 x3 x4 s).spn = s.spn := frame_ev x0 x1 x2 x3 x4 s (m := 0x1800000100) (o := s) .refl rfl .spn rfl
@[simp] theorem ev_psi x0 x1 x2 x3 x4 (s : State) : (ev x0 x1 x2 x3 x4 s).psi = s.psi := frame_ev x0 x1 x2 x3 x4 s (m := 0x1800000100) (o := s) .refl rfl .psi rfl
@[simp] theorem ev_lsr x0 x1 x2 x3 x4 (s : State) : (ev x0 x1 x2 x3 x4 s).lsr = s.lsr := frame_ev x0 x1 x2 x3 x4 s (m := 0x1800000100) (o := s) .refl rfl .lsr rfl
@[simp] theorem ev_opt x0 x1 x2 x3 x4 (s : State) : (ev x0 x1 x2 x3 x4 s).opt = s.opt := frame_ev x0 x1 x2 x3 x4 s (m := 0x1800000100) (o := s) .refl rfl .opt rfl
@[simp] theorem ev_dmc x0 x1 x2 x3 x4 (s : State) : (ev x0 x1 x2 x3 x4 s).dmc = s.dmc := frame_ev x0 x1 x2 x3 x4 s (m := 0x1800000100) (o := s) .refl rfl .dmc rfl
@[simp] theorem ev_bcc x0 x1 x2 x3 x4 (s : State) : (ev x0 x1 x2 x3 x4 s).bcc = s.bcc := frame_ev x0 x1 x2 x3 x4 s (m := 0x1800000100) (o := s) .refl rfl .bcc rfl
@[simp] theorem ev_sec x0 x1 x2 x3 x4 (s : State) : (ev x0 x1 x2 x3 x4 s).sec = s.sec := frame_ev x0 x1 x2 x3 x4 s (m := 0x1800000100) (o := s) .refl rfl .sec rfl
@[simp] theorem ev_thm x0 x1 x2 x3 x4 (s : State) : (ev x0 x1 x2 x3 x4 s).thm = s.thm := frame_ev x0 x1 x2 x3 x4 s (m := 0x1800000100) (o := s) .refl rfl .thm rfl
@[simp] theorem ev_trm x0 x1 x2 x3 x4 (s : State) : (ev x0 x1 x2 x3 x4 s).trm = s.trm := frame_ev x0 x1 x2 x3 x4 s (m := 0x1800000100) (o := s) .refl rfl .trm rfl
@[simp] theorem ev_sup x0 x1 x2 x3 x4 (s : State) : (ev x0 x1 x2 x3 x4 s).sup = s.sup := frame_ev x0 x1 x2 x3 x4 s (m := 0x1800000100) (o := s) .refl rfl .sup rfl
@[simp] theorem ev_cal x0 x1 x2 x3 x4 (s : State) : (ev x0 x1 x2 x3 x4 s).cal = s.cal := frame_ev x0 x1 x2 x3 x4 s (m := 0x1800000100) (o := s) .refl rfl .cal rfl
@[simp] theorem ev_vlk x0 x1 x2 x3 x4 (s : State) : (ev x0 x1 x2 x3 x4 s).vlk = s.vlk := frame_ev x0 x1 x2 x3 x4 s (m := 0x1800000100) (o := s) .refl rfl .vlk rfl
@[simp] theorem recordEvent_pending x0 x1 x2 x3 x4 (s : State) : (recordEvent x0 x1 x2 x3 x4 s).pending = s.pending := frame_recordEvent x0 x1 x2 x3 x4 s (m := 0x1800000100) (o := s) .refl rfl .pending rfl
@[simp] theorem recordEvent_us x0 x1 x2 x3 x4 (s : State) : (recordEvent x0 x1 x2 x3 x4 s).us = s.us := frame_recordEvent x0 x1 x2 x3 x4 s (m := 0x1800000100) (o := s) .refl rfl .us rfl
@[simp] theorem recordEvent_busData x0 x1 x2 x3 x4 (s : State) : (recordEvent x0 x1 x2 x3 x4 s).busData = s.busData := frame_recordEvent x0 x1 x2 x3 x4 s (m := 0x1800000100) (o := s) .refl rfl .busData rfl
@[simp] theorem recordEvent_busErr x0 x1 x2 x3 x4 (s : State) : (recordEvent x0 x1 x2 x3 x4 s).busErr = s.busErr := frame_recordEvent x0 x1 x2 x3 x4 s (m := 0x1800000100) (o := s) .refl rfl .busErr rfl
@[simp] theorem recordEvent_regs x0 x1 x2 x3 x4 (s : State) : (recordEvent x0 x1 x2 x3 x4 s).regs = s.regs := frame_recordEvent x0 x1 x2 x3 x4 s (m := 0x1800000100) (o := s) .refl rfl .regs rfl
@[simp] theorem recordEvent_mem x0 x1 x2 x3 x4 (s : State) : (recordEvent x0 x1 x2 x3 x4 s).mem = s.mem := frame_recordEvent x0 x1 x2 x3 x4 s (m := 0x1800000100) (o := s) .refl rfl .mem rfl
@[simp] theorem recordEvent_tcm x0 x1 x2 x3 x4 (s : State) : (recordEvent x0 x1 x2 x3 x4 s).tcm = s.tcm := frame_recordEvent x0 x1 x2 x3 x4 s (m := 0x1800000100) (o := s) .refl rfl .tcm rfl
@[simp] theorem recordEvent_free x0 x1 x2 x3 x4 (s : State) : (recordEvent x0 x1 x2 x3 x4 s).free = s.free := frame_recordEvent x0 x1 x2 x3 x4 s (m := 0x1800000100) (o := s) .refl rfl .free rfl
@[simp] theorem recordEvent_sys x0 x1 x2 x3 x4 (s : State) : (recordEvent x0 x1 x2 x3 x4 s).sys = s.sys := frame_recordEvent x0 x1 x2 x3 x4 s (m := 0x1800000100) (o := s) .refl rfl .sys rfl
@[simp] theorem recordEvent_clk x0 x1 x2 x3 x4 (s : State) : (recordEvent x0 x1 x2 x3 x4 s).clk = s.clk := frame_recordEvent x0 x1 x2 x3 x4 s (m := 0x1800000100) (o := s) .refl rfl .clk rfl
@[simp] theorem recordEvent_pwr x0 x1 x2 x3 x4 (s : State) : (recordEvent x0 x1 x2 x3 x4 s).pwr = s.pwr := frame_recordEvent x0 x1 x2 x3 x4 s (m := 0x1800000100) (o := s) .refl rfl .pwr rfl
@[simp] theorem recordEvent_l1 x0 x1 x2 x3 x4 (s : State) : (recordEvent x0 x1 x2 x3 x4 s).l1 = s.l1 := frame_recordEvent x0 x1 x2 x3 x4 s (m := 0x1800000100) (o := s) .refl rfl .l1 rfl
@[simp] theorem recordEvent_irq x0 x1 x2 x3 x4 (s : State) : (recordEvent x0 x1 x2 x3 x4 s).irq = s.irq := frame_recordEvent x0 x1 x2 x3 x4 s (m := 0x1800000100) (o := s) .refl rfl .irq rfl
@[simp] theorem recordEvent_llt x0 x1 x2 x3 x4 (s : State) : (recordEvent x0 x1 x2 x3 x4 s).llt = s.llt := frame_recordEvent x0 x1 x2 x3 x4 s (m := 0x1800000100) (o := s) .refl rfl .llt rfl
@[simp] theorem recordEvent_hce x0 x1 x2 x3 x4 (s : State) : (recordEvent x0 x1 x2 x3 x4 s).hce = s.hce := frame_recordEvent x0 x1 x2 x3 x4 s (m := 0x1800000100) (o := s) .refl rfl .hce rfl
@[simp] theorem recordEvent_lgr x0 x1 x2 x3 x4 (s : State) : (recordEvent x0 x1 x2 x3 x4 s).lgr = s.lgr := frame_recordEvent x0 x1 x2 x3 x4 s (m := 0x1800000100) (o := s) .refl rfl .lgr rfl
@[simp] theorem recordEvent_xmt x0 x1 x2 x3 x4 (s : State) : (recordEvent x0 x1 x2 x3 x4 s).xmt = s.xmt := frame_recordEvent x0 x1 x2 x3 x4 s (m := 0x1800000100) (o := s) .refl rfl .xmt rfl
@[simp] theorem recordEvent_rvr x0 x1 x2 x3 x4 (s : State) : (recordEvent x0 x1 x2 x3 x4 s).rvr = s.rvr := frame_recordEvent x0 x1 x2 x3 x4 s (m := 0x1800000100) (o := s) .refl rfl .rvr rfl
@[simp] theorem recordEvent_cst x0 x1 x2 x3 x4 (s : State) : (recordEvent x0 x1 x2 x3 x4 s).cst = s.cst := frame_recordEvent x0 x1 x2 x3 x4 s (m := 0x1800000100) (o := s) .refl rfl .cst rfl
@[simp] theorem recordEvent_asq x0 x1 x2 x3 x4 (s : State) : (recordEvent x0 x1 x2 x3 x4 s).asq = s.asq := frame_recordEvent x0 x1 x2 x3 x4 s (m := 0x1800000100) (o := s) .refl rfl .asq rfl
@[simp] theorem recordEvent_rwc x0 x1 x2 x3 x4 (s : State) : (recordEvent x0 x1 x2 x3 x4 s).rwc = s.rwc := frame_recordEvent x0 x1 x2 x3 x4 s (m := 0x1800000100) (o := s) .refl rfl .rwc rfl
@[simp] theorem recordEvent_ldp x0 x1 x2 x3 x4 (s : State) : (recordEvent x0 x1 x2 x3 x4 s).ldp = s.ldp := frame_recordEvent x0 x1 x2 x3 x4 s (m := 0x1800000100) (o := s) .refl rfl .ldp rfl
@[simp] theorem recordEvent_tpe x0 x1 x2 x3 x4 (s : State) : (recordEvent x0 x1 x2 x3 x4 s).tpe = s.tpe := frame_recordEvent x0 x1 x2 x3 x4 s (m := 0x1800000100) (o := s) .refl rfl .tpe rfl
@[simp] theorem recordEvent_sve x0 x1 x2 x3 x4 (s : State) : (recordEvent x0 x1 x2 x3 x4 s).sve = s.sve := frame_recordEvent x0 x1 x2 x3 x4 s (m := 0x1800000100) (o := s) .refl rfl .sve rfl
@[simp] theorem recordEvent_spn x0 x1 x2 x3 x4 (s : State) : (recordEvent x0 x1 x2 x3 x4 s).spn = s.spn := frame_recordEvent x0 x1 x2 x3 x4 s (m := 0x1800000100) (o := s) .refl rfl .spn rfl
@[simp] theorem recordEvent_psi x0 x1 x2 x3 x4 (s : State) : (recordEvent x0 x1 x2 x3 x4 s).psi = s.psi := frame_recordEvent x0 x1 x2 x3 x4 s (m := 0x1800000100) (o := s) .refl rfl .psi rfl
@[simp] theorem recordEvent_lsr x0 x1 x2 x3 x4 (s : State) : (recordEvent x0 x1 x2 x3 x4 s).lsr = s.lsr := frame_recordEvent x0 x1 x2 x3 x4 s (m := 0x1800000100) (o := s) .refl rfl .lsr rfl
@[simp] theorem recordEvent_opt x0 x1 x2 x3 x4 (s : State) : (recordEvent x0 x1 x2 x3 x4 s).opt = s.opt := frame_recordEvent x0 x1 x2 x3 x4 s (m := 0x1800000100) (o := s) .refl rfl .opt rfl
@[simp] theorem recordEvent_dmc x0 x1 x2 x3 x4 (s : State) : (recordEvent x0 x1 x2 x3 x4 s).dmc = s.dmc := frame_recordEvent x0 x1 x2 x3 x4 s (m := 0x1800000100) (o := s) .refl rfl .dmc rfl
@[simp] theorem recordEvent_bcc x0 x1 x2 x3 x4 (s : State) : (recordEvent x0 x1 x2 x3 x4 s).bcc = s.bcc := frame_recordEvent x0 x1 x2 x3 x4 s (m := 0x1800000100) (o := s) .refl rfl .bcc rfl
@[simp] theorem recordEvent_sec x0 x1 x2 x3 x4 (s : State) : (recordEvent x0 x1 x2 x3 x4 s).sec = s.sec := frame_recordEvent x0 x1 x2 x3 x4 s (m := 0x1800000100) (o := s) .refl rfl .sec rfl
@[simp] theorem recordEvent_thm x0 x1 x2 x3 x4 (s : State) : (recordEvent x0 x1 x2 x3 x4 s).thm = s.thm := frame_recordEvent x0 x1 x2 x3 x4 s (m := 0x1800000100) (o := s) .refl rfl .thm rfl
@[simp] theorem recordEvent_trm x0 x1 x2 x3 x4 (s : State) : (recordEvent x0 x1 x2 x3 x4 s).trm = s.trm := frame_recordEvent x0 x1 x2 x3 x4 s (m := 0x1800000100) (o := s) .refl rfl .trm rfl
@[simp] theorem recordEvent_sup x0 x1 x2 x3 x4 (s : State) : (recordEvent x0 x1 x2 x3 x4 s).sup = s.sup := frame_recordEvent x0 x1 x2 x3 x4 s (m := 0x1800000100) (o := s) .refl rfl .sup rfl
@[simp] theorem recordEvent_cal x0 x1 x2 x3 x4 (s : State) : (recordEvent x0 x1 x2 x3 x4 s).cal = s.cal := frame_recordEvent x0 x1 x2 x3 x4 s (m := 0x1800000100) (o := s) .refl rfl .cal rfl
@[simp] theorem recordEvent_vlk x0 x1 x2 x3 x4 (s : State) : (recordEvent x0 x1 x2 x3 x4 s).vlk = s.vlk := frame_recordEvent x0 x1 x2 x3 x4 s (m := 0x1800000100) (o := s) .refl rfl .vlk rfl
@[simp] theorem guarantee_pending x0 x1 x2 x3 x4 x5 (s : State) : (guarantee x0 x1 x2 x3 x4 x5 s).pending = s.pending := frame_guarantee x0 x1 x2 x3 x4 x5 s (m := 0x1800000100) (o := s) .refl rfl .pending rfl
@[simp] theorem guarantee_us x0 x1 x2 x3 x4 x5 (s : State) : (guarantee x0 x1 x2 x3 x4 x5 s).us = s.us := frame_guarantee x0 x1 x2 x3 x4 x5 s (m := 0x1800000100) (o := s) .refl rfl .us rfl
@[simp] theorem guarantee_busData x0 x1 x2 x3 x4 x5 (s : State) : (guarantee x0 x1 x2 x3 x4 x5 s).busData = s.busData := frame_guarantee x0 x1 x2 x3 x4 x5 s (m := 0x1800000100) (o := s) .refl rfl .busData rfl
@[simp] theorem guarantee_busErr x0 x1 x2 x3 x4 x5 (s : State) : (guarantee x0 x1 x2 x3 x4 x5 s).busErr = s.busErr := frame_guarantee x0 x1 x2 x3 x4 x5 s (m := 0x1800000100) (o := s) .refl rfl .busErr rfl
@[simp] theorem guarantee_regs x0 x1 x2 x3 x4 x5 (s : State) : (guarantee x0 x1 x2 x3 x4 x5 s).regs = s.regs := frame_guarantee x0 x1 x2 x3 x4 x5 s (m := 0x1800000100) (o := s) .refl rfl .regs rfl
@[simp] theorem guarantee_mem x0 x1 x2 x3 x4 x5 (s : State) : (guarantee x0 x1 x2 x3 x4 x5 s).mem = s.mem := frame_guarantee x0 x1 x2 x3 x4 x5 s (m := 0x1800000100) (o := s) .refl rfl .mem rfl
@[simp] theorem guarantee_tcm x0 x1 x2 x3 x4 x5 (s : State) : (guarantee x0 x1 x2 x3 x4 x5 s).tcm = s.tcm := frame_guarantee x0 x1 x2 x3 x4 x5 s (m := 0x1800000100) (o := s) .refl rfl .tcm rfl
@[simp] theorem guarantee_free x0 x1 x2 x3 x4 x5 (s : State) : (guarantee x0 x1 x2 x3 x4 x5 s).free = s.free := frame_guarantee x0 x1 x2 x3 x4 x5 s (m := 0x1800000100) (o := s) .refl rfl .free rfl
@[simp] theorem guarantee_sys x0 x1 x2 x3 x4 x5 (s : State) : (guarantee x0 x1 x2 x3 x4 x5 s).sys = s.sys := frame_guarantee x0 x1 x2 x3 x4 x5 s (m := 0x1800000100) (o := s) .refl rfl .sys rfl
@[simp] theorem guarantee_clk x0 x1 x2 x3 x4 x5 (s : State) : (guarantee x0 x1 x2 x3 x4 x5 s).clk = s.clk := frame_guarantee x0 x1 x2 x3 x4 x5 s (m := 0x1800000100) (o := s) .refl rfl .clk rfl
@[simp] theorem guarantee_pwr x0 x1 x2 x3 x4 x5 (s : State) : (guarantee x0 x1 x2 x3 x4 x5 s).pwr = s.pwr := frame_guarantee x0 x1 x2 x3 x4 x5 s (m := 0x1800000100) (o := s) .refl rfl .pwr rfl
@[simp] theorem guarantee_l1 x0 x1 x2 x3 x4 x5 (s : State) : (guarantee x0 x1 x2 x3 x4 x5 s).l1 = s.l1 := frame_guarantee x0 x1 x2 x3 x4 x5 s (m := 0x1800000100) (o := s) .refl rfl .l1 rfl
@[simp] theorem guarantee_irq x0 x1 x2 x3 x4 x5 (s : State) : (guarantee x0 x1 x2 x3 x4 x5 s).irq = s.irq := frame_guarantee x0 x1 x2 x3 x4 x5 s (m := 0x1800000100) (o := s) .refl rfl .irq rfl
@[simp] theorem guarantee_llt x0 x1 x2 x3 x4 x5 (s : State) : (guarantee x0 x1 x2 x3 x4 x5 s).llt = s.llt := frame_guarantee x0 x1 x2 x3 x4 x5 s (m := 0x1800000100) (o := s) .refl rfl .llt rfl
@[simp] theorem guarantee_hce x0 x1 x2 x3 x4 x5 (s : State) : (guarantee x0 x1 x2 x3 x4 x5 s).hce = s.hce := frame_guarantee x0 x1 x2 x3 x4 x5 s (m := 0x1800000100) (o := s) .refl rfl .hce rfl
@[simp] theorem guarantee_lgr x0 x1 x2 x3 x4 x5 (s : State) : (guarantee x0 x1 x2 x3 x4 x5 s).lgr = s.lgr := frame_guarantee x0 x1 x2 x3 x4 x5 s (m := 0x1800000100) (o := s) .refl rfl .lgr rfl
@[simp] theorem guarantee_xmt x0 x1 x2 x3 x4 x5 (s : State) : (guarantee x0 x1 x2 x3 x4 x5 s).xmt = s.xmt := frame_guarantee x0 x1 x2 x3 x4 x5 s (m := 0x1800000100) (o := s) .refl rfl .xmt rfl
@[simp] theorem guarantee_rvr x0 x1 x2 x3 x4 x5 (s : State) : (guarantee x0 x1 x2 x3 x4 x5 s).rvr = s.rvr := frame_guarantee x0 x1 x2 x3 x4 x5 s (m := 0x1800000100) (o := s) .refl rfl .rvr rfl
@[simp] theorem guarantee_cst x0 x1 x2 x3 x4 x5 (s : State) : (guarantee x0 x1 x2 x3 x4 x5 s).cst = s.cst := frame_guarantee x0 x1 x2 x3 x4 x5 s (m := 0x1800000100) (o := s) .refl rfl .cst rfl
@[simp] theorem guarantee_asq x0 x1 x2 x3 x4 x5 (s : State) : (guarantee x0 x1 x2 x3 x4 x5 s).asq = s.asq := frame_guarantee x0 x1 x2 x3 x4 x5 s (m := 0x1800000100) (o := s) .refl rfl .asq rfl
@[simp] theorem guarantee_rwc x0 x1 x2 x3 x4 x5 (s : State) : (guarantee x0 x1 x2 x3 x4 x5 s).rwc = s.rwc := frame_guarantee x0 x1 x2 x3 x4 x5 s (m := 0x1800000100) (o := s) .refl rfl .rwc rfl
@[simp] theorem guarantee_ldp x0 x1 x2 x3 x4 x5 (s : State) : (guarantee x0 x1 x2 x3 x4 x5 s).ldp = s.ldp := frame_guarantee x0 x1 x2 x3 x4 x5 s (m := 0x1800000100) (o := s) .refl rfl .ldp rfl
@[simp] theorem guarantee_tpe x0 x1 x2 x3 x4 x5 (s : State) : (guarantee x0 x1 x2 x3 x4 x5 s).tpe = s.tpe := frame_guarantee x0 x1 x2 x3 x4 x5 s (m := 0x1800000100) (o := s) .refl rfl .tpe rfl
@[simp] theorem guarantee_sve x0 x1 x2 x3 x4 x5 (s : State) : (guarantee x0 x1 x2 x3 x4 x5 s).sve = s.sve := frame_guarantee x0 x1 x2 x3 x4 x5 s (m := 0x1800000100) (o := s) .refl rfl .sve rfl
@[simp] theorem guarantee_spn x0 x1 x2 x3 x4 x5 (s : State) : (guarantee x0 x1 x2 x3 x4 x5 s).spn = s.spn := frame_guarantee x0 x1 x2 x3 x4 x5 s (m := 0x1800000100) (o := s) .refl rfl .spn rfl
@[simp] theorem guarantee_psi x0 x1 x2 x3 x4 x5 (s : State) : (guarantee x0 x1 x2 x3 x4 x5 s).psi = s.psi := frame_guarantee x0 x1 x2 x3 x4 x5 s (m := 0x1800000100) (o := s) .refl rfl .psi rfl
@[simp] theorem guarantee_lsr x0 x1 x2 x3 x4 x5 (s : State) : (guarantee x0 x1 x2 x3 x4 x5 s).lsr = s.lsr := frame_guarantee x0 x1 x2 x3 x4 x5 s (m := 0x1800000100) (o := s) .refl rfl .lsr rfl
@[simp] theorem guarantee_opt x0 x1 x2 x3 x4 x5 (s : State) : (guarantee x0 x1 x2 x3 x4 x5 s).opt = s.opt := frame_guarantee x0 x1 x2 x3 x4 x5 s (m := 0x1800000100) (o := s) .refl rfl .opt rfl
@[simp] theorem guarantee_dmc x0 x1 x2 x3 x4 x5 (s : State) : (guarantee x0 x1 x2 x3 x4 x5 s).dmc = s.dmc := frame_guarantee x0 x1 x2 x3 x4 x5 s (m := 0x1800000100) (o := s) .refl rfl .dmc rfl
@[simp] theorem guarantee_bcc x0 x1 x2 x3 x4 x5 (s : State) : (guarantee x0 x1 x2 x3 x4 x5 s).bcc = s.bcc := frame_guarantee x0 x1 x2 x3 x4 x5 s (m := 0x1800000100) (o := s) .refl rfl .bcc rfl
@[simp] theorem guarantee_sec x0 x1 x2 x3 x4 x5 (s : State) : (guarantee x0 x1 x2 x3 x4 x5 s).sec = s.sec := frame_guarantee x0 x1 x2 x3 x4 x5 s (m := 0x1800000100) (o := s) .refl rfl .sec rfl
@[simp] theorem guarantee_thm x0 x1 x2 x3 x4 x5 (s : State) : (guarantee x0 x1 x2 x3 x4 x5 s).thm = s.thm := frame_guarantee x0 x1 x2 x3 x4 x5 s (m := 0x1800000100) (o := s) .refl rfl .thm rfl
@[simp] theorem guarantee_trm x0 x1 x2 x3 x4 x5 (s : State) : (guarantee x0 x1 x2 x3 x4 x5 s).trm = s.trm := frame_guarantee x0 x1 x2 x3 x4 x5 s (m := 0x1800000100) (o := s) .refl rfl .trm rfl
@[simp] theorem guarantee_sup x0 x1 x2 x3 x4 x5 (s : State) : (guarantee x0 x1 x2 x3 x4 x5 s).sup = s.sup := frame_guarantee x0 x1 x2 x3 x4 x5 s (m := 0x1800000100) (o := s) .refl rfl .sup rfl
@[simp] theorem guarantee_cal x0 x1 x2 x3 x4 x5 (s : State) : (guarantee x0 x1 x2 x3 x4 x5 s).cal = s.cal := frame_guarantee x0 x1 x2 x3 x4 x5 s (m := 0x1800000100) (o := s) .refl rfl .cal rfl
@[simp] theorem guarantee_vlk x0 x1 x2 x3 x4 x5 (s : State) : (guarantee x0 x1 x2 x3 x4 x5 s).vlk = s.vlk := frame_guarantee x0 x1 x2 x3 x4 x5 s (m := 0x1800000100) (o := s) .refl rfl .vlk rfl
@[simp] theorem blockError_pending x0 x1 x2 x3 (s : State) : (blockError x0 x1 x2 x3 s).pending = s.pending := frame_blockError x0 x1 x2 x3 s (m := 0x1800000100) (o := s) .refl rfl .pending rfl
@[simp] theorem blockError_us x0 x1 x2 x3 (s : State) : (blockError x0 x1 x2 x3 s).us = s.us := frame_blockError x0 x1 x2 x3 s (m := 0x1800000100) (o := s) .refl rfl .us rfl
@[simp] theorem blockError_busData x0 x1 x2 x3 (s : State) : (blockError x0 x1 x2 x3 s).busData = s.busData := frame_blockError x0 x1 x2 x3 s (m := 0x1800000100) (o := s) .refl rfl .busData rfl
@[simp] theorem blockError_busErr x0 x1 x2 x3 (s : State) : (blockError x0 x1 x2 x3 s).busErr = s.busErr := frame_blockError x0 x1 x2 x3 s (m := 0x1800000100) (o := s) .refl rfl .busErr rfl
@[simp] theorem blockError_regs x0 x1 x2 x3 (s : State) : (blockError x0 x1 x2 x3 s).regs = s.regs := frame_blockError x0 x1 x2 x3 s (m := 0x1800000100) (o := s) .refl rfl .regs rfl
@[simp] theorem blockError_mem x0 x1 x2 x3 (s : State) : (blockError x0 x1 x2 x3 s).mem = s.mem := frame_blockError x0 x1 x2 x3 s (m := 0x1800000100) (o := s) .refl rfl .mem rfl
@[simp] theorem blockError_tcm x0 x1 x2 x3 (s : State) : (blockError x0 x1 x2 x3 s).tcm = s.tcm := frame_blockError x0 x1 x2 x3 s (m := 0x1800000100) (o := s) .refl rfl .tcm rfl
@[simp] theorem blockError_free x0 x1 x2 x3 (s : State) : (blockError x0 x1 x2 x3 s).free = s.free := frame_blockError x0 x1 x2 x3 s (m := 0x1800000100) (o := s) .refl rfl .free rfl
@[simp] theorem blockError_sys x0 x1 x2 x3 (s : State) : (blockError x0 x1 x2 x3 s).sys = s.sys := frame_blockError x0 x1 x2 x3 s (m := 0x1800000100) (o := s) .refl rfl .sys rfl
@[simp] theorem blockError_clk x0 x1 x2 x3 (s : State) : (blockError x0 x1 x2 x3 s).clk = s.clk := frame_blockError x0 x1 x2 x3 s (m := 0x1800000100) (o := s) .refl rfl .clk rfl
@[simp] theorem blockError_pwr x0 x1 x2 x3 (s : State) : (blockError x0 x1 x2 x3 s).pwr = s.pwr := frame_blockError x0 x1 x2 x3 s (m := 0x1800000100) (o := s) .refl rfl .pwr rfl
@[simp] theorem blockError_l1 x0 x1 x2 x3 (s : State) : (blockError x0 x1 x2 x3 s).l1 = s.l1 := frame_blockError x0 x1 x2 x3 s (m := 0x1800000100) (o := s) .refl rfl .l1 rfl
@[simp] theorem blockError_irq x0 x1 x2 x3 (s : State) : (blockError x0 x1 x2 x3 s).irq = s.irq := frame_blockError x0 x1 x2 x3 s (m := 0x1800000100) (o := s) .refl rfl .irq rfl
@[simp] theorem blockError_llt x0 x1 x2 x3 (s : State) : (blockError x0 x1 x2 x3 s).llt = s.llt := frame_blockError x0 x1 x2 x3 s (m := 0x1800000100) (o := s) .refl rfl .llt rfl
@[simp] theorem blockError_hce x0 x1 x2 x3 (s : State) : (blockError x0 x1 x2 x3 s).hce = s.hce := frame_blockError x0 x1 x2 x3 s (m := 0x1800000100) (o := s) .refl rfl .hce rfl
@[simp] theorem blockError_lgr x0 x1 x2 x3 (s : State) : (blockError x0 x1 x2 x3 s).lgr = s.lgr := frame_blockError x0 x1 x2 x3 s (m := 0x1800000100) (o := s) .refl rfl .lgr rfl
@[simp] theorem blockError_xmt x0 x1 x2 x3 (s : State) : (blockError x0 x1 x2 x3 s).xmt = s.xmt := frame_blockError x0 x1 x2 x3 s (m := 0x1800000100) (o := s) .refl rfl .xmt rfl
@[simp] theorem blockError_rvr x0 x1 x2 x3 (s : State) : (blockError x0 x1 x2 x3 s).rvr = s.rvr := frame_blockError x0 x1 x2 x3 s (m := 0x1800000100) (o := s) .refl rfl .rvr rfl
@[simp] theorem blockError_cst x0 x1 x2 x3 (s : State) : (blockError x0 x1 x2 x3 s).cst = s.cst := frame_blockError x0 x1 x2 x3 s (m := 0x1800000100) (o := s) .refl rfl .cst rfl
@[simp] theorem blockError_asq x0 x1 x2 x3 (s : State) : (blockError x0 x1 x2 x3 s).asq = s.asq := frame_blockError x0 x1 x2 x3 s (m := 0x1800000100) (o := s) .refl rfl .asq rfl
@[simp] theorem blockError_rwc x0 x1 x2 x3 (s : State) : (blockError x0 x1 x2 x3 s).rwc = s.rwc := frame_blockError x0 x1 x2 x3 s (m := 0x1800000100) (o := s) .refl rfl .rwc rfl
@[simp] theorem blockError_ldp x0 x1 x2 x3 (s : State) : (blockError x0 x1 x2 x3 s).ldp = s.ldp := frame_blockError x0 x1 x2 x3 s (m := 0x1800000100) (o := s) .refl rfl .ldp rfl
@[simp] theorem blockError_tpe x0 x1 x2 x3 (s : State) : (blockError x0 x1 x2 x3 s).tpe = s.tpe := frame_blockError x0 x1 x2 x3 s (m := 0x1800000100) (o := s) .refl rfl .tpe rfl
@[simp] theorem blockError_sve x0 x1 x2 x3 (s : State) : (blockError x0 x1 x2 x3 s).sve = s.sve := frame_blockError x0 x1 x2 x3 s (m := 0x1800000100) (o := s) .refl rfl .sve rfl
@[simp] theorem blockError_spn x0 x1 x2 x3 (s : State) : (blockError x0 x1 x2 x3 s).spn = s.spn := frame_blockError x0 x1 x2 x3 s (m := 0x1800000100) (o := s) .refl rfl .spn rfl
@[simp] theorem blockError_psi x0 x1 x2 x3 (s : State) : (blockError x0 x1 x2 x3 s).psi = s.psi := frame_blockError x0 x1 x2 x3 s (m := 0x1800000100) (o := s) .refl rfl .psi rfl
@[simp] theorem blockError_lsr x0 x1 x2 x3 (s : State) : (blockError x0 x1 x2 x3 s).lsr = s.lsr := frame_blockError x0 x1 x2 x3 s (m := 0x1800000100) (o := s) .refl rfl .lsr rfl
@[simp] theorem blockError_opt x0 x1 x2 x3 (s : State) : (blockError x0 x1 x2 x3 s).opt = s.opt := frame_blockError x0 x1 x2 x3 s (m := 0x1800000100) (o := s) .refl rfl .opt rfl
@[simp] theorem blockError_dmc x0 x1 x2 x3 (s : State) : (blockError x0 x1 x2 x3 s).dmc = s.dmc := frame_blockError x0 x1 x2 x3 s (m := 0x1800000100) (o := s) .refl rfl .dmc rfl
@[simp] theorem blockError_bcc x0 x1 x2 x3 (s : State) : (blockError x0 x1 x2 x3 s).bcc = s.bcc := frame_blockError x0 x1 x2 x3 s (m := 0x1800000100) (o := s) .refl rfl .bcc rfl
@[simp] theorem blockError_sec x0 x1 x2 x3 (s : State) : (blockError x0 x1 x2 x3 s).sec = s.sec := frame_blockError x0 x1 x2 x3 s (m := 0x1800000100) (o := s) .refl rfl .sec rfl
@[simp] theorem blockError_thm x0 x1 x2 x3 (s : State) : (blockError x0 x1 x2 x3 s).thm = s.thm := frame_blockError x0 x1 x2 x3 s (m := 0x1800000100) (o := s) .refl rfl .thm rfl
@[simp] theorem blockError_trm x0 x1 x2 x3 (s : State) : (blockError x0 x1 x2 x3 s).trm = s.trm := frame_blockError x0 x1 x2 x3 s (m := 0x1800000100) (o := s) .refl rfl .trm rfl
@[simp] theorem blockError_sup x0 x1 x2 x3 (s : State) : (blockError x0 x1 x2 x3 s).sup = s.sup := frame_blockError x0 x1 x2 x3 s (m := 0x1800000100) (o := s) .refl rfl .sup rfl
@[simp] theorem blockError_cal x0 x1 x2 x3 (s : State) : (blockError x0 x1 x2 x3 s).cal = s.cal := frame_blockError x0 x1 x2 x3 s (m := 0x1800000100) (o := s) .refl rfl .cal rfl
@[simp] theorem blockError_vlk x0 x1 x2 x3 (s : State) : (blockError x0 x1 x2 x3 s).vlk = s.vlk := frame_blockError x0 x1 x2 x3 s (m := 0x1800000100) (o := s) .refl rfl .vlk rfl
@[simp] theorem blockErrorP_pending x0 x1 x2 x3 x4 x5 x6 (s : State) : (blockErrorP x0 x1 x2 x3 x4 x5 x6 s).pending = s.pending := frame_blockErrorP x0 x1 x2 x3 x4 x5 x6 s (m := 0x1800000100) (o := s) .refl rfl .pending rfl
@[simp] theorem blockErrorP_us x0 x1 x2 x3 x4 x5 x6 (s : State) : (blockErrorP x0 x1 x2 x3 x4 x5 x6 s).us = s.us := frame_blockErrorP x0 x1 x2 x3 x4 x5 x6 s (m := 0x1800000100) (o := s) .refl rfl .us rfl
@[simp] theorem blockErrorP_busData x0 x1 x2 x3 x4 x5 x6 (s : State) : (blockErrorP x0 x1 x2 x3 x4 x5 x6 s).busData = s.busData := frame_blockErrorP x0 x1 x2 x3 x4 x5 x6 s (m := 0x1800000100) (o := s) .refl rfl .busData rfl
@[simp] theorem blockErrorP_busErr x0 x1 x2 x3 x4 x5 x6 (s : State) : (blockErrorP x0 x1 x2 x3 x4 x5 x6 s).busErr = s.busErr := frame_blockErrorP x0 x1 x2 x3 x4 x5 x6 s (m := 0x1800000100) (o := s) .refl rfl .busErr rfl
@[simp] theorem blockErrorP_regs x0 x1 x2 x3 x4 x5 x6 (s : State) : (blockErrorP x0 x1 x2 x3 x4 x5 x6 s).regs = s.regs := frame_blockErrorP x0 x1 x2 x3 x4 x5 x6 s (m := 0x1800000100) (o := s) .refl rfl .regs rfl
@[simp] theorem blockErrorP_mem x0 x1 x2 x3 x4 x5 x6 (s : State) : (blockErrorP x0 x1 x2 x3 x4 x5 x6 s).mem = s.mem := frame_blockErrorP x0 x1 x2 x3 x4 x5 x6 s (m := 0x1800000100) (o := s) .refl rfl .mem rfl
@[simp] theorem blockErrorP_tcm x0 x1 x2 x3 x4 x5 x6 (s : State) : (blockErrorP x0 x1 x2 x3 x4 x5 x6 s).tcm = s.tcm := frame_blockErrorP x0 x1 x2 x3 x4 x5 x6 s (m := 0x1800000100) (o := s) .refl rfl .tcm rfl
@[simp] theorem blockErrorP_free x0 x1 x2 x3 x4 x5 x6 (s : State) : (blockErrorP x0 x1 x2 x3 x4 x5 x6 s).free = s.free := frame_blockErrorP x0 x1 x2 x3 x4 x5 x6 s (m := 0x1800000100) (o := s) .refl rfl .free rfl
@[simp] theorem blockErrorP_sys x0 x1 x2 x3 x4 x5 x6 (s : State) : (blockErrorP x0 x1 x2 x3 x4 x5 x6 s).sys = s.sys := frame_blockErrorP x0 x1 x2 x3 x4 x5 x6 s (m := 0x1800000100) (o := s) .refl rfl .sys rfl
@[simp] theorem blockErrorP_clk x0 x1 x2 x3 x4 x5 x6 (s : State) : (blockErrorP x0 x1 x2 x3 x4 x5 x6 s).clk = s.clk := frame_blockErrorP x0 x1 x2 x3 x4 x5 x6 s (m := 0x1800000100) (o := s) .refl rfl .clk rfl
@[simp] theorem blockErrorP_pwr x0 x1 x2 x3 x4 x5 x6 (s : State) : (blockErrorP x0 x1 x2 x3 x4 x5 x6 s).pwr = s.pwr := frame_blockErrorP x0 x1 x2 x3 x4 x5 x6 s (m := 0x1800000100) (o := s) .refl rfl .pwr rfl
@[simp] theorem blockErrorP_l1 x0 x1 x2 x3 x4 x5 x6 (s : State) : (blockErrorP x0 x1 x2 x3 x4 x5 x6 s).l1 = s.l1 := frame_blockErrorP x0 x1 x2 x3 x4 x5 x6 s (m := 0x1800000100) (o := s) .refl rfl .l1 rfl
@[simp] theorem blockErrorP_irq x0 x1 x2 x3 x4 x5 x6 (s : State) : (blockErrorP x0 x1 x2 x3 x4 x5 x6 s).irq = s.irq := frame_blockErrorP x0 x1 x2 x3 x4 x5 x6 s (m := 0x1800000100) (o := s) .refl rfl .irq rfl
@[simp] theorem blockErrorP_llt x0 x1 x2 x3 x4 x5 x6 (s : State) : (blockErrorP x0 x1 x2 x3 x4 x5 x6 s).llt = s.llt := frame_blockErrorP x0 x1 x2 x3 x4 x5 x6 s (m := 0x1800000100) (o := s) .refl rfl .llt rfl
@[simp] theorem blockErrorP_hce x0 x1 x2 x3 x4 x5 x6 (s : State) : (blockErrorP x0 x1 x2 x3 x4 x5 x6 s).hce = s.hce := frame_blockErrorP x0 x1 x2 x3 x4 x5 x6 s (m := 0x1800000100) (o := s) .refl rfl .hce rfl
@[simp] theorem blockErrorP_lgr x0 x1 x2 x3 x4 x5 x6 (s : State) : (blockErrorP x0 x1 x2 x3 x4 x5 x6 s).lgr = s.lgr := frame_blockErrorP x0 x1 x2 x3 x4 x5 x6 s (m := 0x1800000100) (o := s) .refl rfl .lgr rfl
@[simp] theorem blockErrorP_xmt x0 x1 x2 x3 x4 x5 x6 (s : State) : (blockErrorP x0 x1 x2 x3 x4 x5 x6 s).xmt = s.xmt := frame_blockErrorP x0 x1 x2 x3 x4 x5 x6 s (m := 0x1800000100) (o := s) .refl rfl .xmt rfl
@[simp] theorem blockErrorP_rvr x0 x1 x2 x3 x4 x5 x6 (s : State) : (blockErrorP x0 x1 x2 x3 x4 x5 x6 s).rvr = s.rvr := frame_blockErrorP x0 x1 x2 x3 x4 x5 x6 s (m := 0x1800000100) (o := s) .refl rfl .rvr rfl
@[simp] theorem blockErrorP_cst x0 x1 x2 x3 x4 x5 x6 (s : State) : (blockErrorP x0 x1 x2 x3 x4 x5 x6 s).cst = s.cst := frame_blockErrorP x0 x1 x2 x3 x4 x5 x6 s (m := 0x1800000100) (o := s) .refl rfl .cst rfl
@[simp] theorem blockErrorP_asq x0 x1 x2 x3 x4 x5 x6 (s : State) : (blockErrorP x0 x1 x2 x3 x4 x5 x6 s).asq = s.asq := frame_blockErrorP x0 x1 x2 x3 x4 x5 x6 s (m := 0x1800000100) (o := s) .refl rfl .asq rfl
@[simp] theorem blockErrorP_rwc x0 x1 x2 x3 x4 x5 x6 (s : State) : (blockErrorP x0 x1 x2 x3 x4 x5 x6 s).rwc = s.rwc := frame_blockErrorP x0 x1 x2 x3 x4 x5 x6 s (m := 0x1800000100) (o := s) .refl rfl .rwc rfl
@[simp] theorem blockErrorP_ldp x0 x1 x2 x3 x4 x5 x6 (s : State) : (blockErrorP x0 x1 x2 x3 x4 x5 x6 s).ldp = s.ldp := frame_blockErrorP x0 x1 x2 x3 x4 x5 x6 s (m := 0x1800000100) (o := s) .refl rfl .ldp rfl
@[simp] theorem blockErrorP_tpe x0 x1 x2 x3 x4 x5 x6 (s : State) : (blockErrorP x0 x1 x2 x3 x4 x5 x6 s).tpe = s.tpe := frame_blockErrorP x0 x1 x2 x3 x4 x5 x6 s (m := 0x1800000100) (o := s) .refl rfl .tpe rfl
@[simp] theorem blockErrorP_sve x0 x1 x2 x3 x4 x5 x6 (s : State) : (blockErrorP x0 x1 x2 x3 x4 x5 x6 s).sve = s.sve := frame_blockErrorP x0 x1 x2 x3 x4 x5 x6 s (m := 0x1800000100) (o := s) .refl rfl .sve rfl
@[simp] theorem blockErrorP_spn x0 x1 x2 x3 x4 x5 x6 (s : State) : (blockErrorP x0 x1 x2 x3 x4 x5 x6 s).spn = s.spn := frame_blockErrorP x0 x1 x2 x3 x4 x5 x6 s (m := 0x1800000100) (o := s) .refl rfl .spn rfl
@[simp] theorem blockErrorP_psi x0 x1 x2 x3 x4 x5 x6 (s : State) : (blockErrorP x0 x1 x2 x3 x4 x5 x6 s).psi = s.psi := frame_blockErrorP x0 x1 x2 x3 x4 x5 x6 s (m := 0x1800000100) (o := s) .refl rfl .psi rfl
@[simp] theorem blockErrorP_lsr x0 x1 x2 x3 x4 x5 x6 (s : State) : (blockErrorP x0 x1 x2 x3 x4 x5 x6 s).lsr = s.lsr := frame_blockErrorP x0 x1 x2 x3 x4 x5 x6 s (m := 0x1800000100) (o := s) .refl rfl .lsr rfl
@[simp] theorem blockErrorP_opt x0 x1 x2 x3 x4 x5 x6 (s : State) : (blockErrorP x0 x1 x2 x3 x4 x5 x6 s).opt = s.opt := frame_blockErrorP x0 x1 x2 x3 x4 x5 x6 s (m := 0x1800000100) (o := s) .refl rfl .opt rfl
@[simp] theorem blockErrorP_dmc x0 x1 x2 x3 x4 x5 x6 (s : State) : (blockErrorP x0 x1 x2 x3 x4 x5 x6 s).dmc = s.dmc := frame_blockErrorP x0 x1 x2 x3 x4 x5 x6 s (m := 0x1800000100) (o := s) .refl rfl .dmc rfl
@[simp] theorem blockErrorP_bcc x0 x1 x2 x3 x4 x5 x6 (s : State) : (blockErrorP x0 x1 x2 x3 x4 x5 x6 s).bcc = s.bcc := frame_blockErrorP x0 x1 x2 x3 x4 x5 x6 s (m := 0x1800000100) (o := s) .refl rfl .bcc rfl
@[simp] theorem blockErrorP_sec x0 x1 x2 x3 x4 x5 x6 (s : State) : (blockErrorP x0 x1 x2 x3 x4 x5 x6 s).sec = s.sec := frame_blockErrorP x0 x1 x2 x3 x4 x5 x6 s (m := 0x1800000100) (o := s) .refl rfl .sec rfl
@[simp] theorem blockErrorP_thm x0 x1 x2 x3 x4 x5 x6 (s : State) : (blockErrorP x0 x1 x2 x3 x4 x5 x6 s).thm = s.thm := frame_blockErrorP x0 x1 x2 x3 x4 x5 x6 s (m := 0x1800000100) (o := s) .refl rfl .thm rfl
@[simp] theorem blockErrorP_trm x0 x1 x2 x3 x4 x5 x6 (s : State) : (blockErrorP x0 x1 x2 x3 x4 x5 x6 s).trm = s.trm := frame_blockErrorP x0 x1 x2 x3 x4 x5 x6 s (m := 0x1800000100) (o := s) .refl rfl .trm rfl
@[simp] theorem blockErrorP_sup x0 x1 x2 x3 x4 x5 x6 (s : State) : (blockErrorP x0 x1 x2 x3 x4 x5 x6 s).sup = s.sup := frame_blockErrorP x0 x1 x2 x3 x4 x5 x6 s (m := 0x1800000100) (o := s) .refl rfl .sup rfl
@[simp] theorem blockErrorP_cal x0 x1 x2 x3 x4 x5 x6 (s : State) : (blockErrorP x0 x1 x2 x3 x4 x5 x6 s).cal = s.cal := frame_blockErrorP x0 x1 x2 x3 x4 x5 x6 s (m := 0x1800000100) (o := s) .refl rfl .cal rfl
@[simp] theorem blockErrorP_vlk x0 x1 x2 x3 x4 x5 x6 (s : State) : (blockErrorP x0 x1 x2 x3 x4 x5 x6 s).vlk = s.vlk := frame_blockErrorP x0 x1 x2 x3 x4 x5 x6 s (m := 0x1800000100) (o := s) .refl rfl .vlk rfl
@[simp] theorem raiseLine_pending x0 (s : State) : (raiseLine x0 s).pending = s.pending := frame_raiseLine x0 s (m := 0x2000) (o := s) .refl rfl .pending rfl
@[simp] theorem raiseLine_us x0 (s : State) : (raiseLine x0 s).us = s.us := frame_raiseLine x0 s (m := 0x2000) (o := s) .refl rfl .us rfl
@[simp] theorem raiseLine_busData x0 (s : State) : (raiseLine x0 s).busData = s.busData := frame_raiseLine x0 s (m := 0x2000) (o := s) .refl rfl .busData rfl
@[simp] theorem raiseLine_busErr x0 (s : State) : (raiseLine x0 s).busErr = s.busErr := frame_raiseLine x0 s (m := 0x2000) (o := s) .refl rfl .busErr rfl
@[simp] theorem raiseLine_regs x0 (s : State) : (raiseLine x0 s).regs = s.regs := frame_raiseLine x0 s (m := 0x2000) (o := s) .refl rfl .regs rfl
@[simp] theorem raiseLine_mem x0 (s : State) : (raiseLine x0 s).mem = s.mem := frame_raiseLine x0 s (m := 0x2000) (o := s) .refl rfl .mem rfl
@[simp] theorem raiseLine_tcm x0 (s : State) : (raiseLine x0 s).tcm = s.tcm := frame_raiseLine x0 s (m := 0x2000) (o := s) .refl rfl .tcm rfl
@[simp] theorem raiseLine_free x0 (s : State) : (raiseLine x0 s).free = s.free := frame_raiseLine x0 s (m := 0x2000) (o := s) .refl rfl .free rfl
@[simp] theorem raiseLine_hdr x0 (s : State) : (raiseLine x0 s).hdr = s.hdr := frame_raiseLine x0 s (m := 0x2000) (o := s) .refl rfl .hdr rfl
@[simp] theorem raiseLine_sys x0 (s : State) : (raiseLine x0 s).sys = s.sys := frame_raiseLine x0 s (m := 0x2000) (o := s) .refl rfl .sys rfl
@[simp] theorem raiseLine_clk x0 (s : State) : (raiseLine x0 s).clk = s.clk := frame_raiseLine x0 s (m := 0x2000) (o := s) .refl rfl .clk rfl
@[simp] theorem raiseLine_pwr x0 (s : State) : (raiseLine x0 s).pwr = s.pwr := frame_raiseLine x0 s (m := 0x2000) (o := s) .refl rfl .pwr rfl
@[simp] theorem raiseLine_l1 x0 (s : State) : (raiseLine x0 s).l1 = s.l1 := frame_raiseLine x0 s (m := 0x2000) (o := s) .refl rfl .l1 rfl
@[simp] theorem raiseLine_llt x0 (s : State) : (raiseLine x0 s).llt = s.llt := frame_raiseLine x0 s (m := 0x2000) (o := s) .refl rfl .llt rfl
@[simp] theorem raiseLine_hce x0 (s : State) : (raiseLine x0 s).hce = s.hce := frame_raiseLine x0 s (m := 0x2000) (o := s) .refl rfl .hce rfl
@[simp] theorem raiseLine_lgr x0 (s : State) : (raiseLine x0 s).lgr = s.lgr := frame_raiseLine x0 s (m := 0x2000) (o := s) .refl rfl .lgr rfl
@[simp] theorem raiseLine_xmt x0 (s : State) : (raiseLine x0 s).xmt = s.xmt := frame_raiseLine x0 s (m := 0x2000) (o := s) .refl rfl .xmt rfl
@[simp] theorem raiseLine_rvr x0 (s : State) : (raiseLine x0 s).rvr = s.rvr := frame_raiseLine x0 s (m := 0x2000) (o := s) .refl rfl .rvr rfl
@[simp] theorem raiseLine_cst x0 (s : State) : (raiseLine x0 s).cst = s.cst := frame_raiseLine x0 s (m := 0x2000) (o := s) .refl rfl .cst rfl
@[simp] theorem raiseLine_asq x0 (s : State) : (raiseLine x0 s).asq = s.asq := frame_raiseLine x0 s (m := 0x2000) (o := s) .refl rfl .asq rfl
@[simp] theorem raiseLine_rwc x0 (s : State) : (raiseLine x0 s).rwc = s.rwc := frame_raiseLine x0 s (m := 0x2000) (o := s) .refl rfl .rwc rfl
@[simp] theorem raiseLine_ldp x0 (s : State) : (raiseLine x0 s).ldp = s.ldp := frame_raiseLine x0 s (m := 0x2000) (o := s) .refl rfl .ldp rfl
@[simp] theorem raiseLine_tpe x0 (s : State) : (raiseLine x0 s).tpe = s.tpe := frame_raiseLine x0 s (m := 0x2000) (o := s) .refl rfl .tpe rfl
@[simp] theorem raiseLine_sve x0 (s : State) : (raiseLine x0 s).sve = s.sve := frame_raiseLine x0 s (m := 0x2000) (o := s) .refl rfl .sve rfl
@[simp] theorem raiseLine_spn x0 (s : State) : (raiseLine x0 s).spn = s.spn := frame_raiseLine x0 s (m := 0x2000) (o := s) .refl rfl .spn rfl
@[simp] theorem raiseLine_psi x0 (s : State) : (raiseLine x0 s).psi = s.psi := frame_raiseLine x0 s (m := 0x2000) (o := s) .refl rfl .psi rfl
@[simp] theorem raiseLine_lsr x0 (s : State) : (raiseLine x0 s).lsr = s.lsr := frame_raiseLine x0 s (m := 0x2000) (o := s) .refl rfl .lsr rfl
@[simp] theorem raiseLine_opt x0 (s : State) : (raiseLine x0 s).opt = s.opt := frame_raiseLine x0 s (m := 0x2000) (o := s) .refl rfl .opt rfl
@[simp] theorem raiseLine_dmc x0 (s : State) : (raiseLine x0 s).dmc = s.dmc := frame_raiseLine x0 s (m := 0x2000) (o := s) .refl rfl .dmc rfl
@[simp] theorem raiseLine_bcc x0 (s : State) : (raiseLine x0 s).bcc = s.bcc := frame_raiseLine x0 s (m := 0x2000) (o := s) .refl rfl .bcc rfl
@[simp] theorem raiseLine_sec x0 (s : State) : (raiseLine x0 s).sec = s.sec := frame_raiseLine x0 s (m := 0x2000) (o := s) .refl rfl .sec rfl
@[simp] theorem raiseLine_thm x0 (s : State) : (raiseLine x0 s).thm = s.thm := frame_raiseLine x0 s (m := 0x2000) (o := s) .refl rfl .thm rfl
@[simp] theorem raiseLine_trm x0 (s : State) : (raiseLine x0 s).trm = s.trm := frame_raiseLine x0 s (m := 0x2000) (o := s) .refl rfl .trm rfl
@[simp] theorem raiseLine_sup x0 (s : State) : (raiseLine x0 s).sup = s.sup := frame_raiseLine x0 s (m := 0x2000) (o := s) .refl rfl .sup rfl
@[simp] theorem raiseLine_evr x0 (s : State) : (raiseLine x0 s).evr = s.evr := frame_raiseLine x0 s (m := 0x2000) (o := s) .refl rfl .evr rfl
@[simp] theorem raiseLine_lif x0 (s : State) : (raiseLine x0 s).lif = s.lif := frame_raiseLine x0 s (m := 0x2000) (o := s) .refl rfl .lif rfl
@[simp] theorem raiseLine_cal x0 (s : State) : (raiseLine x0 s).cal = s.cal := frame_raiseLine x0 s (m := 0x2000) (o := s) .refl rfl .cal rfl
@[simp] theorem raiseLine_vlk x0 (s : State) : (raiseLine x0 s).vlk = s.vlk := frame_raiseLine x0 s (m := 0x2000) (o := s) .refl rfl .vlk rfl
@[simp] theorem setIrqStat_pending x0 x1 x2 (s : State) : (setIrqStat x0 x1 x2 s).pending = s.pending := frame_setIrqStat x0 x1 x2 s (m := 0x100) (o := s) .refl rfl .pending rfl
@[simp] theorem setIrqStat_us x0 x1 x2 (s : State) : (setIrqStat x0 x1 x2 s).us = s.us := frame_setIrqStat x0 x1 x2 s (m := 0x100) (o := s) .refl rfl .us rfl
@[simp] theorem setIrqStat_busData x0 x1 x2 (s : State) : (setIrqStat x0 x1 x2 s).busData = s.busData := frame_setIrqStat x0 x1 x2 s (m := 0x100) (o := s) .refl rfl .busData rfl
@[simp] theorem setIrqStat_busErr x0 x1 x2 (s : State) : (setIrqStat x0 x1 x2 s).busErr = s.busErr := frame_setIrqStat x0 x1 x2 s (m := 0x100) (o := s) .refl rfl .busErr rfl
@[simp] theorem setIrqStat_regs x0 x1 x2 (s : State) : (setIrqStat x0 x1 x2 s).regs = s.regs := frame_setIrqStat x0 x1 x2 s (m := 0x100) (o := s) .refl rfl .regs rfl
@[simp] theorem setIrqStat_mem x0 x1 x2 (s : State) : (setIrqStat x0 x1 x2 s).mem = s.mem := frame_setIrqStat x0 x1 x2 s (m := 0x100) (o := s) .refl rfl .mem rfl
@[simp] theorem setIrqStat_tcm x0 x1 x2 (s : State) : (setIrqStat x0 x1 x2 s).tcm = s.tcm := frame_setIrqStat x0 x1 x2 s (m := 0x100) (o := s) .refl rfl .tcm rfl
@[simp] theorem setIrqStat_free x0 x1 x2 (s : State) : (setIrqStat x0 x1 x2 s).free = s.free := frame_setIrqStat x0 x1 x2 s (m := 0x100) (o := s) .refl rfl .free rfl
@[simp] theorem setIrqStat_sys x0 x1 x2 (s : State) : (setIrqStat x0 x1 x2 s).sys = s.sys := frame_setIrqStat x0 x1 x2 s (m := 0x100) (o := s) .refl rfl .sys rfl
@[simp] theorem setIrqStat_clk x0 x1 x2 (s : State) : (setIrqStat x0 x1 x2 s).clk = s.clk := frame_setIrqStat x0 x1 x2 s (m := 0x100) (o := s) .refl rfl .clk rfl
@[simp] theorem setIrqStat_pwr x0 x1 x2 (s : State) : (setIrqStat x0 x1 x2 s).pwr = s.pwr := frame_setIrqStat x0 x1 x2 s (m := 0x100) (o := s) .refl rfl .pwr rfl
@[simp] theorem setIrqStat_l1 x0 x1 x2 (s : State) : (setIrqStat x0 x1 x2 s).l1 = s.l1 := frame_setIrqStat x0 x1 x2 s (m := 0x100) (o := s) .refl rfl .l1 rfl
@[simp] theorem setIrqStat_irq x0 x1 x2 (s : State) : (setIrqStat x0 x1 x2 s).irq = s.irq := frame_setIrqStat x0 x1 x2 s (m := 0x100) (o := s) .refl rfl .irq rfl
@[simp] theorem setIrqStat_llt x0 x1 x2 (s : State) : (setIrqStat x0 x1 x2 s).llt = s.llt := frame_setIrqStat x0 x1 x2 s (m := 0x100) (o := s) .refl rfl .llt rfl
@[simp] theorem setIrqStat_hce x0 x1 x2 (s : State) : (setIrqStat x0 x1 x2 s).hce = s.hce := frame_setIrqStat x0 x1 x2 s (m := 0x100) (o := s) .refl rfl .hce rfl
@[simp] theorem setIrqStat_lgr x0 x1 x2 (s : State) : (setIrqStat x0 x1 x2 s).lgr = s.lgr := frame_setIrqStat x0 x1 x2 s (m := 0x100) (o := s) .refl rfl .lgr rfl
@[simp] theorem setIrqStat_xmt x0 x1 x2 (s : State) : (setIrqStat x0 x1 x2 s).xmt = s.xmt := frame_setIrqStat x0 x1 x2 s (m := 0x100) (o := s) .refl rfl .xmt rfl
@[simp] theorem setIrqStat_rvr x0 x1 x2 (s : State) : (setIrqStat x0 x1 x2 s).rvr = s.rvr := frame_setIrqStat x0 x1 x2 s (m := 0x100) (o := s) .refl rfl .rvr rfl
@[simp] theorem setIrqStat_cst x0 x1 x2 (s : State) : (setIrqStat x0 x1 x2 s).cst = s.cst := frame_setIrqStat x0 x1 x2 s (m := 0x100) (o := s) .refl rfl .cst rfl
@[simp] theorem setIrqStat_asq x0 x1 x2 (s : State) : (setIrqStat x0 x1 x2 s).asq = s.asq := frame_setIrqStat x0 x1 x2 s (m := 0x100) (o := s) .refl rfl .asq rfl
@[simp] theorem setIrqStat_rwc x0 x1 x2 (s : State) : (setIrqStat x0 x1 x2 s).rwc = s.rwc := frame_setIrqStat x0 x1 x2 s (m := 0x100) (o := s) .refl rfl .rwc rfl
@[simp] theorem setIrqStat_ldp x0 x1 x2 (s : State) : (setIrqStat x0 x1 x2 s).ldp = s.ldp := frame_setIrqStat x0 x1 x2 s (m := 0x100) (o := s) .refl rfl .ldp rfl
@[simp] theorem setIrqStat_tpe x0 x1 x2 (s : State) : (setIrqStat x0 x1 x2 s).tpe = s.tpe := frame_setIrqStat x0 x1 x2 s (m := 0x100) (o := s) .refl rfl .tpe rfl
@[simp] theorem setIrqStat_sve x0 x1 x2 (s : State) : (setIrqStat x0 x1 x2 s).sve = s.sve := frame_setIrqStat x0 x1 x2 s (m := 0x100) (o := s) .refl rfl .sve rfl
@[simp] theorem setIrqStat_spn x0 x1 x2 (s : State) : (setIrqStat x0 x1 x2 s).spn = s.spn := frame_setIrqStat x0 x1 x2 s (m := 0x100) (o := s) .refl rfl .spn rfl
@[simp] theorem setIrqStat_psi x0 x1 x2 (s : State) : (setIrqStat x0 x1 x2 s).psi = s.psi := frame_setIrqStat x0 x1 x2 s (m := 0x100) (o := s) .refl rfl .psi rfl
@[simp] theorem setIrqStat_lsr x0 x1 x2 (s : State) : (setIrqStat x0 x1 x2 s).lsr = s.lsr := frame_setIrqStat x0 x1 x2 s (m := 0x100) (o := s) .refl rfl .lsr rfl
@[simp] theorem setIrqStat_opt x0 x1 x2 (s : State) : (setIrqStat x0 x1 x2 s).opt = s.opt := frame_setIrqStat x0 x1 x2 s (m := 0x100) (o := s) .refl rfl .opt rfl
@[simp] theorem setIrqStat_dmc x0 x1 x2 (s : State) : (setIrqStat x0 x1 x2 s).dmc = s.dmc := frame_setIrqStat x0 x1 x2 s (m := 0x100) (o := s) .refl rfl .dmc rfl
@[simp] theorem setIrqStat_bcc x0 x1 x2 (s : State) : (setIrqStat x0 x1 x2 s).bcc = s.bcc := frame_setIrqStat x0 x1 x2 s (m := 0x100) (o := s) .refl rfl .bcc rfl
@[simp] theorem setIrqStat_sec x0 x1 x2 (s : State) : (setIrqStat x0 x1 x2 s).sec = s.sec := frame_setIrqStat x0 x1 x2 s (m := 0x100) (o := s) .refl rfl .sec rfl
@[simp] theorem setIrqStat_thm x0 x1 x2 (s : State) : (setIrqStat x0 x1 x2 s).thm = s.thm := frame_setIrqStat x0 x1 x2 s (m := 0x100) (o := s) .refl rfl .thm rfl
@[simp] theorem setIrqStat_trm x0 x1 x2 (s : State) : (setIrqStat x0 x1 x2 s).trm = s.trm := frame_setIrqStat x0 x1 x2 s (m := 0x100) (o := s) .refl rfl .trm rfl
@[simp] theorem setIrqStat_sup x0 x1 x2 (s : State) : (setIrqStat x0 x1 x2 s).sup = s.sup := frame_setIrqStat x0 x1 x2 s (m := 0x100) (o := s) .refl rfl .sup rfl
@[simp] theorem setIrqStat_evr x0 x1 x2 (s : State) : (setIrqStat x0 x1 x2 s).evr = s.evr := frame_setIrqStat x0 x1 x2 s (m := 0x100) (o := s) .refl rfl .evr rfl
@[simp] theorem setIrqStat_lif x0 x1 x2 (s : State) : (setIrqStat x0 x1 x2 s).lif = s.lif := frame_setIrqStat x0 x1 x2 s (m := 0x100) (o := s) .refl rfl .lif rfl
@[simp] theorem setIrqStat_cal x0 x1 x2 (s : State) : (setIrqStat x0 x1 x2 s).cal = s.cal := frame_setIrqStat x0 x1 x2 s (m := 0x100) (o := s) .refl rfl .cal rfl
@[simp] theorem setIrqStat_vlk x0 x1 x2 (s : State) : (setIrqStat x0 x1 x2 s).vlk = s.vlk := frame_setIrqStat x0 x1 x2 s (m := 0x100) (o := s) .refl rfl .vlk rfl
@[simp] theorem setReg_pending x0 x1 x2 x3 (s : State) : (setReg x0 x1 x2 x3 s).pending = s.pending := frame_setReg x0 x1 x2 x3 s (m := 0x10) (o := s) .refl rfl .pending rfl
@[simp] theorem setReg_us x0 x1 x2 x3 (s : State) : (setReg x0 x1 x2 x3 s).us = s.us := frame_setReg x0 x1 x2 x3 s (m := 0x10) (o := s) .refl rfl .us rfl
@[simp] theorem setReg_busData x0 x1 x2 x3 (s : State) : (setReg x0 x1 x2 x3 s).busData = s.busData := frame_setReg x0 x1 x2 x3 s (m := 0x10) (o := s) .refl rfl .busData rfl
@[simp] theorem setReg_busErr x0 x1 x2 x3 (s : State) : (setReg x0 x1 x2 x3 s).busErr = s.busErr := frame_setReg x0 x1 x2 x3 s (m := 0x10) (o := s) .refl rfl .busErr rfl
@[simp] theorem setReg_mem x0 x1 x2 x3 (s : State) : (setReg x0 x1 x2 x3 s).mem = s.mem := frame_setReg x0 x1 x2 x3 s (m := 0x10) (o := s) .refl rfl .mem rfl
@[simp] theorem setReg_tcm x0 x1 x2 x3 (s : State) : (setReg x0 x1 x2 x3 s).tcm = s.tcm := frame_setReg x0 x1 x2 x3 s (m := 0x10) (o := s) .refl rfl .tcm rfl
@[simp] theorem setReg_free x0 x1 x2 x3 (s : State) : (setReg x0 x1 x2 x3 s).free = s.free := frame_setReg x0 x1 x2 x3 s (m := 0x10) (o := s) .refl rfl .free rfl
@[simp] theorem setReg_hdr x0 x1 x2 x3 (s : State) : (setReg x0 x1 x2 x3 s).hdr = s.hdr := frame_setReg x0 x1 x2 x3 s (m := 0x10) (o := s) .refl rfl .hdr rfl
@[simp] theorem setReg_sys x0 x1 x2 x3 (s : State) : (setReg x0 x1 x2 x3 s).sys = s.sys := frame_setReg x0 x1 x2 x3 s (m := 0x10) (o := s) .refl rfl .sys rfl
@[simp] theorem setReg_clk x0 x1 x2 x3 (s : State) : (setReg x0 x1 x2 x3 s).clk = s.clk := frame_setReg x0 x1 x2 x3 s (m := 0x10) (o := s) .refl rfl .clk rfl
@[simp] theorem setReg_pwr x0 x1 x2 x3 (s : State) : (setReg x0 x1 x2 x3 s).pwr = s.pwr := frame_setReg x0 x1 x2 x3 s (m := 0x10) (o := s) .refl rfl .pwr rfl
@[simp] theorem setReg_l1 x0 x1 x2 x3 (s : State) : (setReg x0 x1 x2 x3 s).l1 = s.l1 := frame_setReg x0 x1 x2 x3 s (m := 0x10) (o := s) .refl rfl .l1 rfl
@[simp] theorem setReg_irq x0 x1 x2 x3 (s : State) : (setReg x0 x1 x2 x3 s).irq = s.irq := frame_setReg x0 x1 x2 x3 s (m := 0x10) (o := s) .refl rfl .irq rfl
@[simp] theorem setReg_llt x0 x1 x2 x3 (s : State) : (setReg x0 x1 x2 x3 s).llt = s.llt := frame_setReg x0 x1 x2 x3 s (m := 0x10) (o := s) .refl rfl .llt rfl
@[simp] theorem setReg_hce x0 x1 x2 x3 (s : State) : (setReg x0 x1 x2 x3 s).hce = s.hce := frame_setReg x0 x1 x2 x3 s (m := 0x10) (o := s) .refl rfl .hce rfl
@[simp] theorem setReg_lgr x0 x1 x2 x3 (s : State) : (setReg x0 x1 x2 x3 s).lgr = s.lgr := frame_setReg x0 x1 x2 x3 s (m := 0x10) (o := s) .refl rfl .lgr rfl
@[simp] theorem setReg_xmt x0 x1 x2 x3 (s : State) : (setReg x0 x1 x2 x3 s).xmt = s.xmt := frame_setReg x0 x1 x2 x3 s (m := 0x10) (o := s) .refl rfl .xmt rfl
@[simp] theorem setReg_rvr x0 x1 x2 x3 (s : State) : (setReg x0 x1 x2 x3 s).rvr = s.rvr := frame_setReg x0 x1 x2 x3 s (m := 0x10) (o := s) .refl rfl .rvr rfl
@[simp] theorem setReg_cst x0 x1 x2 x3 (s : State) : (setReg x0 x1 x2 x3 s).cst = s.cst := frame_setReg x0 x1 x2 x3 s (m := 0x10) (o := s) .refl rfl .cst rfl
@[simp] theorem setReg_asq x0 x1 x2 x3 (s : State) : (setReg x0 x1 x2 x3 s).asq = s.asq := frame_setReg x0 x1 x2 x3 s (m := 0x10) (o := s) .refl rfl .asq rfl
@[simp] theorem setReg_rwc x0 x1 x2 x3 (s : State) : (setReg x0 x1 x2 x3 s).rwc = s.rwc := frame_setReg x0 x1 x2 x3 s (m := 0x10) (o := s) .refl rfl .rwc rfl
@[simp] theorem setReg_ldp x0 x1 x2 x3 (s : State) : (setReg x0 x1 x2 x3 s).ldp = s.ldp := frame_setReg x0 x1 x2 x3 s (m := 0x10) (o := s) .refl rfl .ldp rfl
@[simp] theorem setReg_tpe x0 x1 x2 x3 (s : State) : (setReg x0 x1 x2 x3 s).tpe = s.tpe := frame_setReg x0 x1 x2 x3 s (m := 0x10) (o := s) .refl rfl .tpe rfl
@[simp] theorem setReg_sve x0 x1 x2 x3 (s : State) : (setReg x0 x1 x2 x3 s).sve = s.sve := frame_setReg x0 x1 x2 x3 s (m := 0x10) (o := s) .refl rfl .sve rfl
@[simp] theorem setReg_spn x0 x1 x2 x3 (s : State) : (setReg x0 x1 x2 x3 s).spn = s.spn := frame_setReg x0 x1 x2 x3 s (m := 0x10) (o := s) .refl rfl .spn rfl
@[simp] theorem setReg_psi x0 x1 x2 x3 (s : State) : (setReg x0 x1 x2 x3 s).psi = s.psi := frame_setReg x0 x1 x2 x3 s (m := 0x10) (o := s) .refl rfl .psi rfl
@[simp] theorem setReg_lsr x0 x1 x2 x3 (s : State) : (setReg x0 x1 x2 x3 s).lsr = s.lsr := frame_setReg x0 x1 x2 x3 s (m := 0x10) (o := s) .refl rfl .lsr rfl
@[simp] theorem setReg_opt x0 x1 x2 x3 (s : State) : (setReg x0 x1 x2 x3 s).opt = s.opt := frame_setReg x0 x1 x2 x3 s (m := 0x10) (o := s) .refl rfl .opt rfl
@[simp] theorem setReg_dmc x0 x1 x2 x3 (s : State) : (setReg x0 x1 x2 x3 s).dmc = s.dmc := frame_setReg x0 x1 x2 x3 s (m := 0x10) (o := s) .refl rfl .dmc rfl
@[simp] theorem setReg_bcc x0 x1 x2 x3 (s : State) : (setReg x0 x1 x2 x3 s).bcc = s.bcc := frame_setReg x0 x1 x2 x3 s (m := 0x10) (o := s) .refl rfl .bcc rfl
@[simp] theorem setReg_sec x0 x1 x2 x3 (s : State) : (setReg x0 x1 x2 x3 s).sec = s.sec := frame_setReg x0 x1 x2 x3 s (m := 0x10) (o := s) .refl rfl .sec rfl
@[simp] theorem setReg_thm x0 x1 x2 x3 (s : State) : (setReg x0 x1 x2 x3 s).thm = s.thm := frame_setReg x0 x1 x2 x3 s (m := 0x10) (o := s) .refl rfl .thm rfl
@[simp] theorem setReg_trm x0 x1 x2 x3 (s : State) : (setReg x0 x1 x2 x3 s).trm = s.trm := frame_setReg x0 x1 x2 x3 s (m := 0x10) (o := s) .refl rfl .trm rfl
@[simp] theorem setReg_sup x0 x1 x2 x3 (s : State) : (setReg x0 x1 x2 x3 s).sup = s.sup := frame_setReg x0 x1 x2 x3 s (m := 0x10) (o := s) .refl rfl .sup rfl
@[simp] theorem setReg_evr x0 x1 x2 x3 (s : State) : (setReg x0 x1 x2 x3 s).evr = s.evr := frame_setReg x0 x1 x2 x3 s (m := 0x10) (o := s) .refl rfl .evr rfl
@[simp] theorem setReg_lif x0 x1 x2 x3 (s : State) : (setReg x0 x1 x2 x3 s).lif = s.lif := frame_setReg x0 x1 x2 x3 s (m := 0x10) (o := s) .refl rfl .lif rfl
@[simp] theorem setReg_cal x0 x1 x2 x3 (s : State) : (setReg x0 x1 x2 x3 s).cal = s.cal := frame_setReg x0 x1 x2 x3 s (m := 0x10) (o := s) .refl rfl .cal rfl
@[simp] theorem setReg_vlk x0 x1 x2 x3 (s : State) : (setReg x0 x1 x2 x3 s).vlk = s.vlk := frame_setReg x0 x1 x2 x3 s (m := 0x10) (o := s) .refl rfl .vlk rfl
@[simp] theorem setFld_pending x0 x1 x2 x3 x4 x5 (s : State) : (setFld x0 x1 x2 x3 x4 x5 s).pending = s.pending := frame_setFld x0 x1 x2 x3 x4 x5 s (m := 0x10) (o := s) .refl rfl .pending rfl
@[simp] theorem setFld_us x0 x1 x2 x3 x4 x5 (s : State) : (setFld x0 x1 x2 x3 x4 x5 s).us = s.us := frame_setFld x0 x1 x2 x3 x4 x5 s (m := 0x10) (o := s) .refl rfl .us rfl
@[simp] theorem setFld_busData x0 x1 x2 x3 x4 x5 (s : State) : (setFld x0 x1 x2 x3 x4 x5 s).busData = s.busData := frame_setFld x0 x1 x2 x3 x4 x5 s (m := 0x10) (o := s) .refl rfl .busData rfl
@[simp] theorem setFld_busErr x0 x1 x2 x3 x4 x5 (s : State) : (setFld x0 x1 x2 x3 x4 x5 s).busErr = s.busErr := frame_setFld x0 x1 x2 x3 x4 x5 s (m := 0x10) (o := s) .refl rfl .busErr rfl
@[simp] theorem setFld_mem x0 x1 x2 x3 x4 x5 (s : State) : (setFld x0 x1 x2 x3 x4 x5 s).mem = s.mem := frame_setFld x0 x1 x2 x3 x4 x5 s (m := 0x10) (o := s) .refl rfl .mem rfl
@[simp] theorem setFld_tcm x0 x1 x2 x3 x4 x5 (s : State) : (setFld x0 x1 x2 x3 x4 x5 s).tcm = s.tcm := frame_setFld x0 x1 x2 x3 x4 x5 s (m := 0x10) (o := s) .refl rfl .tcm rfl
@[simp] theorem setFld_free x0 x1 x2 x3 x4 x5 (s : State) : (setFld x0 x1 x2 x3 x4 x5 s).free = s.free := frame_setFld x0 x1 x2 x3 x4 x5 s (m := 0x10) (o := s) .refl rfl .free rfl
@[simp] theorem setFld_hdr x0 x1 x2 x3 x4 x5 (s : State) : (setFld x0 x1 x2 x3 x4 x5 s).hdr = s.hdr := frame_setFld x0 x1 x2 x3 x4 x5 s (m := 0x10) (o := s) .refl rfl .hdr rfl
@[simp] theorem setFld_sys x0 x1 x2 x3 x4 x5 (s : State) : (setFld x0 x1 x2 x3 x4 x5 s).sys = s.sys := frame_setFld x0 x1 x2 x3 x4 x5 s (m := 0x10) (o := s) .refl rfl .sys rfl
@[simp] theorem setFld_clk x0 x1 x2 x3 x4 x5 (s : State) : (setFld x0 x1 x2 x3 x4 x5 s).clk = s.clk := frame_setFld x0 x1 x2 x3 x4 x5 s (m := 0x10) (o := s) .refl rfl .clk rfl
@[simp] theorem setFld_pwr x0 x1 x2 x3 x4 x5 (s : State) : (setFld x0 x1 x2 x3 x4 x5 s).pwr = s.pwr := frame_setFld x0 x1 x2 x3 x4 x5 s (m := 0x10) (o := s) .refl rfl .pwr rfl
@[simp] theorem setFld_l1 x0 x1 x2 x3 x4 x5 (s : State) : (setFld x0 x1 x2 x3 x4 x5 s).l1 = s.l1 := frame_setFld x0 x1 x2 x3 x4 x5 s (m := 0x10) (o := s) .refl rfl .l1 rfl
@[simp] theorem setFld_irq x0 x1 x2 x3 x4 x5 (s : State) : (setFld x0 x1 x2 x3 x4 x5 s).irq = s.irq := frame_setFld x0 x1 x2 x3 x4 x5 s (m := 0x10) (o := s) .refl rfl .irq rfl
@[simp] theorem setFld_llt x0 x1 x2 x3 x4 x5 (s : State) : (setFld x0 x1 x2 x3 x4 x5 s).llt = s.llt := frame_setFld x0 x1 x2 x3 x4 x5 s (m := 0x10) (o := s) .refl rfl .llt rfl
@[simp] theorem setFld_hce x0 x1 x2 x3 x4 x5 (s : State) : (setFld x0 x1 x2 x3 x4 x5 s).hce = s.hce := frame_setFld x0 x1 x2 x3 x4 x5 s (m := 0x10) (o := s) .refl rfl .hce rfl
@[simp] theorem setFld_lgr x0 x1 x2 x3 x4 x5 (s : State) : (setFld x0 x1 x2 x3 x4 x5 s).lgr = s.lgr := frame_setFld x0 x1 x2 x3 x4 x5 s (m := 0x10) (o := s) .refl rfl .lgr rfl
@[simp] theorem setFld_xmt x0 x1 x2 x3 x4 x5 (s : State) : (setFld x0 x1 x2 x3 x4 x5 s).xmt = s.xmt := frame_setFld x0 x1 x2 x3 x4 x5 s (m := 0x10) (o := s) .refl rfl .xmt rfl
@[simp] theorem setFld_rvr x0 x1 x2 x3 x4 x5 (s : State) : (setFld x0 x1 x2 x3 x4 x5 s).rvr = s.rvr := frame_setFld x0 x1 x2 x3 x4 x5 s (m := 0x10) (o := s) .refl rfl .rvr rfl
@[simp] theorem setFld_cst x0 x1 x2 x3 x4 x5 (s : State) : (setFld x0 x1 x2 x3 x4 x5 s).cst = s.cst := frame_setFld x0 x1 x2 x3 x4 x5 s (m := 0x10) (o := s) .refl rfl .cst rfl
@[simp] theorem setFld_asq x0 x1 x2 x3 x4 x5 (s : State) : (setFld x0 x1 x2 x3 x4 x5 s).asq = s.asq := frame_setFld x0 x1 x2 x3 x4 x5 s (m := 0x10) (o := s) .refl rfl .asq rfl
@[simp] theorem setFld_rwc x0 x1 x2 x3 x4 x5 (s : State) : (setFld x0 x1 x2 x3 x4 x5 s).rwc = s.rwc := frame_setFld x0 x1 x2 x3 x4 x5 s (m := 0x10) (o := s) .refl rfl .rwc rfl
@[simp] theorem setFld_ldp x0 x1 x2 x3 x4 x5 (s : State) : (setFld x0 x1 x2 x3 x4 x5 s).ldp = s.ldp := frame_setFld x0 x1 x2 x3 x4 x5 s (m := 0x10) (o := s) .refl rfl .ldp rfl
@[simp] theorem setFld_tpe x0 x1 x2 x3 x4 x5 (s : State) : (setFld x0 x1 x2 x3 x4 x5 s).tpe = s.tpe := frame_setFld x0 x1 x2 x3 x4 x5 s (m := 0x10) (o := s) .refl rfl .tpe rfl
@[simp] theorem setFld_sve x0 x1 x2 x3 x4 x5 (s : State) : (setFld x0 x1 x2 x3 x4 x5 s).sve = s.sve := frame_setFld x0 x1 x2 x3 x4 x5 s (m := 0x10) (o := s) .refl rfl .sve rfl
@[simp] theorem setFld_spn x0 x1 x2 x3 x4 x5 (s : State) : (setFld x0 x1 x2 x3 x4 x5 s).spn = s.spn := frame_setFld x0 x1 x2 x3 x4 x5 s (m := 0x10) (o := s) .refl rfl .spn rfl
@[simp] theorem setFld_psi x0 x1 x2 x3 x4 x5 (s : State) : (setFld x0 x1 x2 x3 x4 x5 s).psi = s.psi := frame_setFld x0 x1 x2 x3 x4 x5 s (m := 0x10) (o := s) .refl rfl .psi rfl
@[simp] theorem setFld_lsr x0 x1 x2 x3 x4 x5 (s : State) : (setFld x0 x1 x2 x3 x4 x5 s).lsr = s.lsr := frame_setFld x0 x1 x2 x3 x4 x5 s (m := 0x10) (o := s) .refl rfl .lsr rfl
@[simp] theorem setFld_opt x0 x1 x2 x3 x4 x5 (s : State) : (setFld x0 x1 x2 x3 x4 x5 s).opt = s.opt := frame_setFld x0 x1 x2 x3 x4 x5 s (m := 0x10) (o := s) .refl rfl .opt rfl
@[simp] theorem setFld_dmc x0 x1 x2 x3 x4 x5 (s : State) : (setFld x0 x1 x2 x3 x4 x5 s).dmc = s.dmc := frame_setFld x0 x1 x2 x3 x4 x5 s (m := 0x10) (o := s) .refl rfl .dmc rfl
@[simp] theorem setFld_bcc x0 x1 x2 x3 x4 x5 (s : State) : (setFld x0 x1 x2 x3 x4 x5 s).bcc = s.bcc := frame_setFld x0 x1 x2 x3 x4 x5 s (m := 0x10) (o := s) .refl rfl .bcc rfl
@[simp] theorem setFld_sec x0 x1 x2 x3 x4 x5 (s : State) : (setFld x0 x1 x2 x3 x4 x5 s).sec = s.sec := frame_setFld x0 x1 x2 x3 x4 x5 s (m := 0x10) (o := s) .refl rfl .sec rfl
@[simp] theorem setFld_thm x0 x1 x2 x3 x4 x5 (s : State) : (setFld x0 x1 x2 x3 x4 x5 s).thm = s.thm := frame_setFld x0 x1 x2 x3 x4 x5 s (m := 0x10) (o := s) .refl rfl .thm rfl
@[simp] theorem setFld_trm x0 x1 x2 x3 x4 x5 (s : State) : (setFld x0 x1 x2 x3 x4 x5 s).trm = s.trm := frame_setFld x0 x1 x2 x3 x4 x5 s (m := 0x10) (o := s) .refl rfl .trm rfl
@[simp] theorem setFld_sup x0 x1 x2 x3 x4 x5 (s : State) : (setFld x0 x1 x2 x3 x4 x5 s).sup = s.sup := frame_setFld x0 x1 x2 x3 x4 x5 s (m := 0x10) (o := s) .refl rfl .sup rfl
@[simp] theorem setFld_evr x0 x1 x2 x3 x4 x5 (s : State) : (setFld x0 x1 x2 x3 x4 x5 s).evr = s.evr := frame_setFld x0 x1 x2 x3 x4 x5 s (m := 0x10) (o := s) .refl rfl .evr rfl
@[simp] theorem setFld_lif x0 x1 x2 x3 x4 x5 (s : State) : (setFld x0 x1 x2 x3 x4 x5 s).lif = s.lif := frame_setFld x0 x1 x2 x3 x4 x5 s (m := 0x10) (o := s) .refl rfl .lif rfl
@[simp] theorem setFld_cal x0 x1 x2 x3 x4 x5 (s : State) : (setFld x0 x1 x2 x3 x4 x5 s).cal = s.cal := frame_setFld x0 x1 x2 x3 x4 x5 s (m := 0x10) (o := s) .refl rfl .cal rfl
@[simp] theorem setFld_vlk x0 x1 x2 x3 x4 x5 (s : State) : (setFld x0 x1 x2 x3 x4 x5 s).vlk = s.vlk := frame_setFld x0 x1 x2 x3 x4 x5 s (m := 0x10) (o := s) .refl rfl .vlk rfl
@[simp] theorem useWindow_pending x0 x1 (s : State) : (useWindow x0 x1 s).pending = s.pending := frame_useWindow x0 x1 s (m := 0x100) (o := s) .refl rfl .pending rfl
@[simp] theorem useWindow_us x0 x1 (s : State) : (useWindow x0 x1 s).us = s.us := frame_useWindow x0 x1 s (m := 0x100) (o := s) .refl rfl .us rfl
@[simp] theorem useWindow_busData x0 x1 (s : State) : (useWindow x0 x1 s).busData = s.busData := frame_useWindow x0 x1 s (m := 0x100) (o := s) .refl rfl .busData rfl
@[simp] theorem useWindow_busErr x0 x1 (s : State) : (useWindow x0 x1 s).busErr = s.busErr := frame_useWindow x0 x1 s (m := 0x100) (o := s) .refl rfl .busErr rfl
@[simp] theorem useWindow_regs x0 x1 (s : State) : (useWindow x0 x1 s).regs = s.regs := frame_useWindow x0 x1 s (m := 0x100) (o := s) .refl rfl .regs rfl
@[simp] theorem useWindow_mem x0 x1 (s : State) : (useWindow x0 x1 s).mem = s.mem := frame_useWindow x0 x1 s (m := 0x100) (o := s) .refl rfl .mem rfl
@[simp] theorem useWindow_tcm x0 x1 (s : State) : (useWindow x0 x1 s).tcm = s.tcm := frame_useWindow x0 x1 s (m := 0x100) (o := s) .refl rfl .tcm rfl
@[simp] theorem useWindow_free x0 x1 (s : State) : (useWindow x0 x1 s).free = s.free := frame_useWindow x0 x1 s (m := 0x100) (o := s) .refl rfl .free rfl
@[simp] theorem useWindow_sys x0 x1 (s : State) : (useWindow x0 x1 s).sys = s.sys := frame_useWindow x0 x1 s (m := 0x100) (o := s) .refl rfl .sys rfl
@[simp] theorem useWindow_clk x0 x1 (s : State) : (useWindow x0 x1 s).clk = s.clk := frame_useWindow x0 x1 s (m := 0x100) (o := s) .refl rfl .clk rfl
@[simp] theorem useWindow_pwr x0 x1 (s : State) : (useWindow x0 x1 s).pwr = s.pwr := frame_useWindow x0 x1 s (m := 0x100) (o := s) .refl rfl .pwr rfl
@[simp] theorem useWindow_l1 x0 x1 (s : State) : (useWindow x0 x1 s).l1 = s.l1 := frame_useWindow x0 x1 s (m := 0x100) (o := s) .refl rfl .l1 rfl
@[simp] theorem useWindow_irq x0 x1 (s : State) : (useWindow x0 x1 s).irq = s.irq := frame_useWindow x0 x1 s (m := 0x100) (o := s) .refl rfl .irq rfl
@[simp] theorem useWindow_llt x0 x1 (s : State) : (useWindow x0 x1 s).llt = s.llt := frame_useWindow x0 x1 s (m := 0x100) (o := s) .refl rfl .llt rfl
@[simp] theorem useWindow_hce x0 x1 (s : State) : (useWindow x0 x1 s).hce = s.hce := frame_useWindow x0 x1 s (m := 0x100) (o := s) .refl rfl .hce rfl
@[simp] theorem useWindow_lgr x0 x1 (s : State) : (useWindow x0 x1 s).lgr = s.lgr := frame_useWindow x0 x1 s (m := 0x100) (o := s) .refl rfl .lgr rfl
@[simp] theorem useWindow_xmt x0 x1 (s : State) : (useWindow x0 x1 s).xmt = s.xmt := frame_useWindow x0 x1 s (m := 0x100) (o := s) .refl rfl .xmt rfl
@[simp] theorem useWindow_rvr x0 x1 (s : State) : (useWindow x0 x1 s).rvr = s.rvr := frame_useWindow x0 x1 s (m := 0x100) (o := s) .refl rfl .rvr rfl
@[simp] theorem useWindow_cst x0 x1 (s : State) : (useWindow x0 x1 s).cst = s.cst := frame_useWindow x0 x1 s (m := 0x100) (o := s) .refl rfl .cst rfl
@[simp] theorem useWindow_asq x0 x1 (s : State) : (useWindow x0 x1 s).asq = s.asq := frame_useWindow x0 x1 s (m := 0x100) (o := s) .refl rfl .asq rfl
@[simp] theorem useWindow_rwc x0 x1 (s : State) : (useWindow x0 x1 s).rwc = s.rwc := frame_useWindow x0 x1 s (m := 0x100) (o := s) .refl rfl .rwc rfl
@[simp] theorem useWindow_ldp x0 x1 (s : State) : (useWindow x0 x1 s).ldp = s.ldp := frame_useWindow x0 x1 s (m := 0x100) (o := s) .refl rfl .ldp rfl
@[simp] theorem useWindow_tpe x0 x1 (s : State) : (useWindow x0 x1 s).tpe = s.tpe := frame_useWindow x0 x1 s (m := 0x100) (o := s) .refl rfl .tpe rfl
@[simp] theorem useWindow_sve x0 x1 (s : State) : (useWindow x0 x1 s).sve = s.sve := frame_useWindow x0 x1 s (m := 0x100) (o := s) .refl rfl .sve rfl
@[simp] theorem useWindow_spn x0 x1 (s : State) : (useWindow x0 x1 s).spn = s.spn := frame_useWindow x0 x1 s (m := 0x100) (o := s) .refl rfl .spn rfl
@[simp] theorem useWindow_psi x0 x1 (s : State) : (useWindow x0 x1 s).psi = s.psi := frame_useWindow x0 x1 s (m := 0x100) (o := s) .refl rfl .psi rfl
@[simp] theorem useWindow_lsr x0 x1 (s : State) : (useWindow x0 x1 s).lsr = s.lsr := frame_useWindow x0 x1 s (m := 0x100) (o := s) .refl rfl .lsr rfl
@[simp] theorem useWindow_opt x0 x1 (s : State) : (useWindow x0 x1 s).opt = s.opt := frame_useWindow x0 x1 s (m := 0x100) (o := s) .refl rfl .opt rfl
@[simp] theorem useWindow_dmc x0 x1 (s : State) : (useWindow x0 x1 s).dmc = s.dmc := frame_useWindow x0 x1 s (m := 0x100) (o := s) .refl rfl .dmc rfl
@[simp] theorem useWindow_bcc x0 x1 (s : State) : (useWindow x0 x1 s).bcc = s.bcc := frame_useWindow x0 x1 s (m := 0x100) (o := s) .refl rfl .bcc rfl
@[simp] theorem useWindow_sec x0 x1 (s : State) : (useWindow x0 x1 s).sec = s.sec := frame_useWindow x0 x1 s (m := 0x100) (o := s) .refl rfl .sec rfl
@[simp] theorem useWindow_thm x0 x1 (s : State) : (useWindow x0 x1 s).thm = s.thm := frame_useWindow x0 x1 s (m := 0x100) (o := s) .refl rfl .thm rfl
@[simp] theorem useWindow_trm x0 x1 (s : State) : (useWindow x0 x1 s).trm = s.trm := frame_useWindow x0 x1 s (m := 0x100) (o := s) .refl rfl .trm rfl
@[simp] theorem useWindow_sup x0 x1 (s : State) : (useWindow x0 x1 s).sup = s.sup := frame_useWindow x0 x1 s (m := 0x100) (o := s) .refl rfl .sup rfl
@[simp] theorem useWindow_evr x0 x1 (s : State) : (useWindow x0 x1 s).evr = s.evr := frame_useWindow x0 x1 s (m := 0x100) (o := s) .refl rfl .evr rfl
@[simp] theorem useWindow_lif x0 x1 (s : State) : (useWindow x0 x1 s).lif = s.lif := frame_useWindow x0 x1 s (m := 0x100) (o := s) .refl rfl .lif rfl
@[simp] theorem useWindow_cal x0 x1 (s : State) : (useWindow x0 x1 s).cal = s.cal := frame_useWindow x0 x1 s (m := 0x100) (o := s) .refl rfl .cal rfl
@[simp] theorem useWindow_vlk x0 x1 (s : State) : (useWindow x0 x1 s).vlk = s.vlk := frame_useWindow x0 x1 s (m := 0x100) (o := s) .refl rfl .vlk rfl
@[simp] theorem setMemByte_pending x0 x1 (s : State) : (setMemByte x0 x1 s).pending = s.pending := frame_setMemByte x0 x1 s (m := 0x20) (o := s) .refl rfl .pending rfl
@[simp] theorem setMemByte_us x0 x1 (s : State) : (setMemByte x0 x1 s).us = s.us := frame_setMemByte x0 x1 s (m := 0x20) (o := s) .refl rfl .us rfl
@[simp] theorem setMemByte_busData x0 x1 (s : State) : (setMemByte x0 x1 s).busData = s.busData := frame_setMemByte x0 x1 s (m := 0x20) (o := s) .refl rfl .busData rfl
@[simp] theorem setMemByte_busErr x0 x1 (s : State) : (setMemByte x0 x1 s).busErr = s.busErr := frame_setMemByte x0 x1 s (m := 0x20) (o := s) .refl rfl .busErr rfl
@[simp] theorem setMemByte_regs x0 x1 (s : State) : (setMemByte x0 x1 s).regs = s.regs := frame_setMemByte x0 x1 s (m := 0x20) (o := s) .refl rfl .regs rfl
@[simp] theorem setMemByte_tcm x0 x1 (s : State) : (setMemByte x0 x1 s).tcm = s.tcm := frame_setMemByte x0 x1 s (m := 0x20) (o := s) .refl rfl .tcm rfl
@[simp] theorem setMemByte_free x0 x1 (s : State) : (setMemByte x0 x1 s).free = s.free := frame_setMemByte x0 x1 s (m := 0x20) (o := s) .refl rfl .free rfl
@[simp] theorem setMemByte_hdr x0 x1 (s : State) : (setMemByte x0 x1 s).hdr = s.hdr := frame_setMemByte x0 x1 s (m := 0x20) (o := s) .refl rfl .hdr rfl
@[simp] theorem setMemByte_sys x0 x1 (s : State) : (setMemByte x0 x1 s).sys = s.sys := frame_setMemByte x0 x1 s (m := 0x20) (o := s) .refl rfl .sys rfl
@[simp] theorem setMemByte_clk x0 x1 (s : State) : (setMemByte x0 x1 s).clk = s.clk := frame_setMemByte x0 x1 s (m := 0x20) (o := s) .refl rfl .clk rfl
@[simp] theorem setMemByte_pwr x0 x1 (s : State) : (setMemByte x0 x1 s).pwr = s.pwr := frame_setMemByte x0 x1 s (m := 0x20) (o := s) .refl rfl .pwr rfl
@[simp] theorem setMemByte_l1 x0 x1 (s : State) : (setMemByte x0 x1 s).l1 = s.l1 := frame_setMemByte x0 x1 s (m := 0x20) (o := s) .refl rfl .l1 rfl
@[simp] theorem setMemByte_irq x0 x1 (s : State) : (setMemByte x0 x1 s).irq = s.irq := frame_setMemByte x0 x1 s (m := 0x20) (o := s) .refl rfl .irq rfl
@[simp] theorem setMemByte_llt x0 x1 (s : State) : (setMemByte x0 x1 s).llt = s.llt := frame_setMemByte x0 x1 s (m := 0x20) (o := s) .refl rfl .llt rfl
@[simp] theorem setMemByte_hce x0 x1 (s : State) : (setMemByte x0 x1 s).hce = s.hce := frame_setMemByte x0 x1 s (m := 0x20) (o := s) .refl rfl .hce rfl
@[simp] theorem setMemByte_lgr x0 x1 (s : State) : (setMemByte x0 x1 s).lgr = s.lgr := frame_setMemByte x0 x1 s (m := 0x20) (o := s) .refl rfl .lgr rfl
@[simp] theorem setMemByte_xmt x0 x1 (s : State) : (setMemByte x0 x1 s).xmt = s.xmt := frame_setMemByte x0 x1 s (m := 0x20) (o := s) .refl rfl .xmt rfl
@[simp] theorem setMemByte_rvr x0 x1 (s : State) : (setMemByte x0 x1 s).rvr = s.rvr := frame_setMemByte x0 x1 s (m := 0x20) (o := s) .refl rfl .rvr rfl
@[simp] theorem setMemByte_cst x0 x1 (s : State) : (setMemByte x0 x1 s).cst = s.cst := frame_setMemByte x0 x1 s (m := 0x20) (o := s) .refl rfl .cst rfl
@[simp] theorem setMemByte_asq x0 x1 (s : State) : (setMemByte x0 x1 s).asq = s.asq := frame_setMemByte x0 x1 s (m := 0x20) (o := s) .refl rfl .asq rfl
@[simp] theorem setMemByte_rwc x0 x1 (s : State) : (setMemByte x0 x1 s).rwc = s.rwc := frame_setMemByte x0 x1 s (m := 0x20) (o := s) .refl rfl .rwc rfl
@[simp] theorem setMemByte_ldp x0 x1 (s : State) : (setMemByte x0 x1 s).ldp = s.ldp := frame_setMemByte x0 x1 s (m := 0x20) (o := s) .refl rfl .ldp rfl
@[simp] theorem setMemByte_tpe x0 x1 (s : State) : (setMemByte x0 x1 s).tpe = s.tpe := frame_setMemByte x0 x1 s (m := 0x20) (o := s) .refl rfl .tpe rfl
@[simp] theorem setMemByte_sve x0 x1 (s : State) : (setMemByte x0 x1 s).sve = s.sve := frame_setMemByte x0 x1 s (m := 0x20) (o := s) .refl rfl .sve rfl
@[simp] theorem setMemByte_spn x0 x1 (s : State) : (setMemByte x0 x1 s).spn = s.spn := frame_setMemByte x0 x1 s (m := 0x20) (o := s) .refl rfl .spn rfl
@[simp] theorem setMemByte_psi x0 x1 (s : State) : (setMemByte x0 x1 s).psi = s.psi := frame_setMemByte x0 x1 s (m := 0x20) (o := s) .refl rfl .psi rfl
@[simp] theorem setMemByte_lsr x0 x1 (s : State) : (setMemByte x0 x1 s).lsr = s.lsr := frame_setMemByte x0 x1 s (m := 0x20) (o := s) .refl rfl .lsr rfl
@[simp] theorem setMemByte_opt x0 x1 (s : State) : (setMemByte x0 x1 s).opt = s.opt := frame_setMemByte x0 x1 s (m := 0x20) (o := s) .refl rfl .opt rfl
@[simp] theorem setMemByte_dmc x0 x1 (s : State) : (setMemByte x0 x1 s).dmc = s.dmc := frame_setMemByte x0 x1 s (m := 0x20) (o := s) .refl rfl .dmc rfl
@[simp] theorem setMemByte_bcc x0 x1 (s : State) : (setMemByte x0 x1 s).bcc = s.bcc := frame_setMemByte x0 x1 s (m := 0x20) (o := s) .refl rfl .bcc rfl
@[simp] theorem setMemByte_sec x0 x1 (s : State) : (setMemByte x0 x1 s).sec = s.sec := frame_setMemByte x0 x1 s (m := 0x20) (o := s) .refl rfl .sec rfl
@[simp] theorem setMemByte_thm x0 x1 (s : State) : (setMemByte x0 x1 s).thm = s.thm := frame_setMemByte x0 x1 s (m := 0x20) (o := s) .refl rfl .thm rfl
@[simp] theorem setMemByte_trm x0 x1 (s : State) : (setMemByte x0 x1 s).trm = s.trm := frame_setMemByte x0 x1 s (m := 0x20) (o := s) .refl rfl .trm rfl
@[simp] theorem setMemByte_sup x0 x1 (s : State) : (setMemByte x0 x1 s).sup = s.sup := frame_setMemByte x0 x1 s (m := 0x20) (o := s) .refl rfl .sup rfl
@[simp] theorem setMemByte_evr x0 x1 (s : State) : (setMemByte x0 x1 s).evr = s.evr := frame_setMemByte x0 x1 s (m := 0x20) (o := s) .refl rfl .evr rfl
@[simp] theorem setMemByte_lif x0 x1 (s : State) : (setMemByte x0 x1 s).lif = s.lif := frame_setMemByte x0 x1 s (m := 0x20) (o := s) .refl rfl .lif rfl
@[simp] theorem setMemByte_cal x0 x1 (s : State) : (setMemByte x0 x1 s).cal = s.cal := frame_setMemByte x0 x1 s (m := 0x20) (o := s) .refl rfl .cal rfl
@[simp] theorem setMemByte_vlk x0 x1 (s : State) : (setMemByte x0 x1 s).vlk = s.vlk := frame_setMemByte x0 x1 s (m := 0x20) (o := s) .refl rfl .vlk rfl
@[simp] theorem memWrite_pending x0 x1 x2 (s : State) : (memWrite x0 x1 x2 s).pending = s.pending := frame_memWrite x0 x1 x2 s (m := 0x20) (o := s) .refl rfl .pending rfl
@[simp] theorem memWrite_us x0 x1 x2 (s : State) : (memWrite x0 x1 x2 s).us = s.us := frame_memWrite x0 x1 x2 s (m := 0x20) (o := s) .refl rfl .us rfl
@[simp] theorem memWrite_busData x0 x1 x2 (s : State) : (memWrite x0 x1 x2 s).busData = s.busData := frame_memWrite x0 x1 x2 s (m := 0x20) (o := s) .refl rfl .busData rfl
@[simp] theorem memWrite_busErr x0 x1 x2 (s : State) : (memWrite x0 x1 x2 s).busErr = s.busErr := frame_memWrite x0 x1 x2 s (m := 0x20) (o := s) .refl rfl .busErr rfl
@[simp] theorem memWrite_regs x0 x1 x2 (s : State) : (memWrite x0 x1 x2 s).regs = s.regs := frame_memWrite x0 x1 x2 s (m := 0x20) (o := s) .refl rfl .regs rfl
@[simp] theorem memWrite_tcm x0 x1 x2 (s : State) : (memWrite x0 x1 x2 s).tcm = s.tcm := frame_memWrite x0 x1 x2 s (m := 0x20) (o := s) .refl rfl .tcm rfl
@[simp] theorem memWrite_free x0 x1 x2 (s : State) : (memWrite x0 x1 x2 s).free = s.free := frame_memWrite x0 x1 x2 s (m := 0x20) (o := s) .refl rfl .free rfl
@[simp] theorem memWrite_hdr x0 x1 x2 (s : State) : (memWrite x0 x1 x2 s).hdr = s.hdr := frame_memWrite x0 x1 x2 s (m := 0x20) (o := s) .refl rfl .hdr rfl
@[simp] theorem memWrite_sys x0 x1 x2 (s : State) : (memWrite x0 x1 x2 s).sys = s.sys := frame_memWrite x0 x1 x2 s (m := 0x20) (o := s) .refl rfl .sys rfl
@[simp] theorem memWrite_clk x0 x1 x2 (s : State) : (memWrite x0 x1 x2 s).clk = s.clk := frame_memWrite x0 x1 x2 s (m := 0x20) (o := s) .refl rfl .clk rfl
@[simp] theorem memWrite_pwr x0 x1 x2 (s : State) : (memWrite x0 x1 x2 s).pwr = s.pwr := frame_memWrite x0 x1 x2 s (m := 0x20) (o := s) .refl rfl .pwr rfl
@[simp] theorem memWrite_l1 x0 x1 x2 (s : State) : (memWrite x0 x1 x2 s).l1 = s.l1 := frame_memWrite x0 x1 x2 s (m := 0x20) (o := s) .refl rfl .l1 rfl
@[simp] theorem memWrite_irq x0 x1 x2 (s : State) : (memWrite x0 x1 x2 s).irq = s.irq := frame_memWrite x0 x1 x2 s (m := 0x20) (o := s) .refl rfl .irq rfl
@[simp] theorem memWrite_llt x0 x1 x2 (s : State) : (memWrite x0 x1 x2 s).llt = s.llt := frame_memWrite x0 x1 x2 s (m := 0x20) (o := s) .refl rfl .llt rfl
@[simp] theorem memWrite_hce x0 x1 x2 (s : State) : (memWrite x0 x1 x2 s).hce = s.hce := frame_memWrite x0 x1 x2 s (m := 0x20) (o := s) .refl rfl .hce rfl
@[simp] theorem memWrite_lgr x0 x1 x2 (s : State) : (memWrite x0 x1 x2 s).lgr = s.lgr := frame_memWrite x0 x1 x2 s (m := 0x20) (o := s) .refl rfl .lgr rfl
@[simp] theorem memWrite_xmt x0 x1 x2 (s : State) : (memWrite x0 x1 x2 s).xmt = s.xmt := frame_memWrite x0 x1 x2 s (m := 0x20) (o := s) .refl rfl .xmt rfl
@[simp] theorem memWrite_rvr x0 x1 x2 (s : State) : (memWrite x0 x1 x2 s).rvr = s.rvr := frame_memWrite x0 x1 x2 s (m := 0x20) (o := s) .refl rfl .rvr rfl
@[simp] theorem memWrite_cst x0 x1 x2 (s : State) : (memWrite x0 x1 x2 s).cst = s.cst := frame_memWrite x0 x1 x2 s (m := 0x20) (o := s) .refl rfl .cst rfl
@[simp] theorem memWrite_asq x0 x1 x2 (s : State) : (memWrite x0 x1 x2 s).asq = s.asq := frame_memWrite x0 x1 x2 s (m := 0x20) (o := s) .refl rfl .asq rfl
@[simp] theorem memWrite_rwc x0 x1 x2 (s : State) : (memWrite x0 x1 x2 s).rwc = s.rwc := frame_memWrite x0 x1 x2 s (m := 0x20) (o := s) .refl rfl .rwc rfl
@[simp] theorem memWrite_ldp x0 x1 x2 (s : State) : (memWrite x0 x1 x2 s).ldp = s.ldp := frame_memWrite x0 x1 x2 s (m := 0x20) (o := s) .refl rfl .ldp rfl
@[simp] theorem memWrite_tpe x0 x1 x2 (s : State) : (memWrite x0 x1 x2 s).tpe = s.tpe := frame_memWrite x0 x1 x2 s (m := 0x20) (o := s) .refl rfl .tpe rfl
@[simp] theorem memWrite_sve x0 x1 x2 (s : State) : (memWrite x0 x1 x2 s).sve = s.sve := frame_memWrite x0 x1 x2 s (m := 0x20) (o := s) .refl rfl .sve rfl
@[simp] theorem memWrite_spn x0 x1 x2 (s : State) : (memWrite x0 x1 x2 s).spn = s.spn := frame_memWrite x0 x1 x2 s (m := 0x20) (o := s) .refl rfl .spn rfl
@[simp] theorem memWrite_psi x0 x1 x2 (s : State) : (memWrite x0 x1 x2 s).psi = s.psi := frame_memWrite x0 x1 x2 s (m := 0x20) (o := s) .refl rfl .psi rfl
@[simp] theorem memWrite_lsr x0 x1 x2 (s : State) : (memWrite x0 x1 x2 s).lsr = s.lsr := frame_memWrite x0 x1 x2 s (m := 0x20) (o := s) .refl rfl .lsr rfl
@[simp] theorem memWrite_opt x0 x1 x2 (s : State) : (memWrite x0 x1 x2 s).opt = s.opt := frame_memWrite x0 x1 x2 s (m := 0x20) (o := s) .refl rfl .opt rfl
@[simp] theorem memWrite_dmc x0 x1 x2 (s : State) : (memWrite x0 x1 x2 s).dmc = s.dmc := frame_memWrite x0 x1 x2 s (m := 0x20) (o := s) .refl rfl .dmc rfl
@[simp] theorem memWrite_bcc x0 x1 x2 (s : State) : (memWrite x0 x1 x2 s).bcc = s.bcc := frame_memWrite x0 x1 x2 s (m := 0x20) (o := s) .refl rfl .bcc rfl
@[simp] theorem memWrite_sec x0 x1 x2 (s : State) : (memWrite x0 x1 x2 s).sec = s.sec := frame_memWrite x0 x1 x2 s (m := 0x20) (o := s) .refl rfl .sec rfl
@[simp] theorem memWrite_thm x0 x1 x2 (s : State) : (memWrite x0 x1 x2 s).thm = s.thm := frame_memWrite x0 x1 x2 s (m := 0x20) (o := s) .refl rfl .thm rfl
@[simp] theorem memWrite_trm x0 x1 x2 (s : State) : (memWrite x0 x1 x2 s).trm = s.trm := frame_memWrite x0 x1 x2 s (m := 0x20) (o := s) .refl rfl .trm rfl
@[simp] theorem memWrite_sup x0 x1 x2 (s : State) : (memWrite x0 x1 x2 s).sup = s.sup := frame_memWrite x0 x1 x2 s (m := 0x20) (o := s) .refl rfl .sup rfl
@[simp] theorem memWrite_evr x0 x1 x2 (s : State) : (memWrite x0 x1 x2 s).evr = s.evr := frame_memWrite x0 x1 x2 s (m := 0x20) (o := s) .refl rfl .evr rfl
@[simp] theorem memWrite_lif x0 x1 x2 (s : State) : (memWrite x0 x1 x2 s).lif = s.lif := frame_memWrite x0 x1 x2 s (m := 0x20) (o := s) .refl rfl .lif rfl
@[simp] theorem memWrite_cal x0 x1 x2 (s : State) : (memWrite x0 x1 x2 s).cal = s.cal := frame_memWrite x0 x1 x2 s (m := 0x20) (o := s) .refl rfl .cal rfl
@[simp] theorem memWrite_vlk x0 x1 x2 (s : State) : (memWrite x0 x1 x2 s).vlk = s.vlk := frame_memWrite x0 x1 x2 s (m := 0x20) (o := s) .refl rfl .vlk rfl

end Sys2Proof.Machine
end

