-- ==== Sys2Proof/Laws/Header.lean ====
section
/-!
SUPPORT. What headers read as after the shared operations: an update of one page, an event, an error.
-/

set_option Elab.async false

namespace Sys2Proof.Machine

open Sys2Proof

@[simp] theorem headerOf_modHdr {i : Nat} (h : i < 77) (f : Hdr → Hdr) (s : State) :
    headerOf i (s.modHdr i f) = f (headerOf i s) := vget_vmod _ h _ _

theorem headerOf_modHdr_ne {i j : Nat} (h : i ≠ j) (f : Hdr → Hdr) (s : State) :
    headerOf j (s.modHdr i f) = headerOf j s := vget_vmod_ne _ h _ _

theorem hdrOf_eq (b : Blk) (n : Nat) (s : State) : hdrOf b n s = headerOf (b.hdr n) s := rfl

theorem headerOf_congr {s t : State} (h : t.hdr = s.hdr) (i : Nat) : headerOf i t = headerOf i s := by
  rw [headerOf, headerOf, h]

/-- Two headers differ in IRQ_STAT at most. -/
def Hdr.sameButIrq (a b : Hdr) : Prop := b = { a with irqStat := b.irqStat }

theorem Hdr.sameButIrq.refl {a : Hdr} : a.sameButIrq a := rfl

theorem Hdr.sameButIrq.trans {a b c : Hdr} (h : a.sameButIrq b) (k : b.sameButIrq c) : a.sameButIrq c := by
  unfold Hdr.sameButIrq at *; rw [k, h]

theorem Hdr.sameButIrq.freeze {a b : Hdr} (h : a.sameButIrq b) : b.freeze = a.freeze := by
  unfold Hdr.sameButIrq at h; rw [h]

theorem Hdr.sameButIrq.srst {a b : Hdr} (h : a.sameButIrq b) : b.srst = a.srst := by
  unfold Hdr.sameButIrq at h; rw [h]

theorem Hdr.sameButIrq.remain {a b : Hdr} (h : a.sameButIrq b) : b.remain = a.remain := by
  unfold Hdr.sameButIrq at h; rw [h]

theorem windowOpen_headerOf {b : Blk} {n : Nat} {s : State} (h : b.hdr n < 77) :
    windowOpen b n s = ((headerOf (b.hdr n) s).remain != 0) := by
  unfold windowOpen headerOf vget
  rw [Vector.getElem?_eq_getElem h, dif_pos h]

theorem headerOf_setIrqStat (b : Blk) (n bit i : Nat) (s : State) :
    (headerOf i s).sameButIrq (headerOf i (setIrqStat b n bit s)) := by
  unfold setIrqStat
  by_cases h : b.hdr n = i
  · subst h
    by_cases h : b.hdr n < 77
    · rw [headerOf_modHdr h]; rfl
    · simp [headerOf, vget, h, Hdr.sameButIrq]
  · rw [headerOf_modHdr_ne h]; exact .refl

theorem headerOf_enqueue (code src p0 p1 p2 i : Nat) (s : State) :
    headerOf i (enqueue code src p0 p1 p2 s) = headerOf i s := by
  unfold enqueue; split <;> split <;> rfl

theorem headerOf_lifBump (k a i : Nat) (s : State) : (headerOf i s).sameButIrq (headerOf i (lifBump k a s)) := by
  unfold lifBump
  split
  · exact .refl
  · dsimp only
    split
    · exact .refl
    · rw [headerOf_enqueue]; exact headerOf_setIrqStat ..

/-- An event leaves every header as it was, but for IRQ_STAT (LIF reports a saturation there). -/
theorem headerOf_ev (b : Blk) (code p0 p1 p2 i : Nat) (s : State) :
    (headerOf i s).sameButIrq (headerOf i (ev b code p0 p1 p2 s)) := by
  unfold ev recordEvent
  rw [headerOf_enqueue]
  generalize lifOf code p1 = l
  induction l generalizing s with
  | nil => exact .refl
  | cons x l ih => exact (headerOf_lifBump ..).trans (ih _)

theorem headerOf_guarantee (b : Blk) (k br p0 p1 p2 i : Nat) (s : State) :
    (headerOf i s).sameButIrq (headerOf i (guarantee b k br p0 p1 p2 s)) := headerOf_ev ..

section
variable (b : Blk) (code p0 p1 p2 i : Nat) (s : State)
@[simp] theorem ev_hdr_en : (headerOf i (ev b code p0 p1 p2 s)).en = (headerOf i s).en := by rw [headerOf_ev b code p0 p1 p2 i s]
@[simp] theorem ev_hdr_srst : (headerOf i (ev b code p0 p1 p2 s)).srst = (headerOf i s).srst := by rw [headerOf_ev b code p0 p1 p2 i s]
@[simp] theorem ev_hdr_freeze : (headerOf i (ev b code p0 p1 p2 s)).freeze = (headerOf i s).freeze := by rw [headerOf_ev b code p0 p1 p2 i s]
@[simp] theorem ev_hdr_ctlHi : (headerOf i (ev b code p0 p1 p2 s)).ctlHi = (headerOf i s).ctlHi := by rw [headerOf_ev b code p0 p1 p2 i s]
@[simp] theorem ev_hdr_err : (headerOf i (ev b code p0 p1 p2 s)).err = (headerOf i s).err := by rw [headerOf_ev b code p0 p1 p2 i s]
@[simp] theorem ev_hdr_locked : (headerOf i (ev b code p0 p1 p2 s)).locked = (headerOf i s).locked := by rw [headerOf_ev b code p0 p1 p2 i s]
@[simp] theorem ev_hdr_irqEn : (headerOf i (ev b code p0 p1 p2 s)).irqEn = (headerOf i s).irqEn := by rw [headerOf_ev b code p0 p1 p2 i s]
@[simp] theorem ev_hdr_errCode : (headerOf i (ev b code p0 p1 p2 s)).errCode = (headerOf i s).errCode := by rw [headerOf_ev b code p0 p1 p2 i s]
@[simp] theorem ev_hdr_errInfo : (headerOf i (ev b code p0 p1 p2 s)).errInfo = (headerOf i s).errInfo := by rw [headerOf_ev b code p0 p1 p2 i s]
@[simp] theorem ev_hdr_errCnt : (headerOf i (ev b code p0 p1 p2 s)).errCnt = (headerOf i s).errCnt := by rw [headerOf_ev b code p0 p1 p2 i s]
@[simp] theorem ev_hdr_remain : (headerOf i (ev b code p0 p1 p2 s)).remain = (headerOf i s).remain := by rw [headerOf_ev b code p0 p1 p2 i s]
@[simp] theorem ev_hdr_wrongWords : (headerOf i (ev b code p0 p1 p2 s)).wrongWords = (headerOf i s).wrongWords := by rw [headerOf_ev b code p0 p1 p2 i s]
end

theorem irqStat_setIrqStat {b : Blk} {n bit : Nat} (hb : b.hdr n < 77) (hi : bit < 32) (s : State) :
    (headerOf (b.hdr n) (setIrqStat b n bit s)).irqStat.getLsbD bit = true := by
  unfold setIrqStat
  rw [headerOf_modHdr hb]
  have : (BitVec.ofNat 32 (1 <<< bit)).getLsbD bit = true := by
    rw [BitVec.getLsbD_ofNat, Nat.one_shiftLeft, Nat.testBit_two_pow_self]; simp [hi]
  rw [BitVec.getLsbD_or, this, Bool.or_true]

theorem irqStat_setIrqStat_mono {b : Blk} {n bit i k : Nat} {s : State} (h : (headerOf i s).irqStat.getLsbD k = true) :
    (headerOf i (setIrqStat b n bit s)).irqStat.getLsbD k = true := by
  unfold setIrqStat
  by_cases e : b.hdr n = i
  · subst e
    by_cases hb : b.hdr n < 77
    · rw [headerOf_modHdr hb]; simp [h]
    · simp [headerOf, vget, hb] at h
  · rw [headerOf_modHdr_ne e]; exact h

theorem irqStat_lifBump {j a i k : Nat} {s : State} (h : (headerOf i s).irqStat.getLsbD k = true) :
    (headerOf i (lifBump j a s)).irqStat.getLsbD k = true := by
  unfold lifBump
  split
  · exact h
  · dsimp only
    split
    · exact h
    · rw [headerOf_enqueue]; exact irqStat_setIrqStat_mono h

/-- An event keeps every bit of IRQ_STAT that is set. -/
theorem irqStat_ev {b : Blk} {code p0 p1 p2 i k : Nat} {s : State} (h : (headerOf i s).irqStat.getLsbD k = true) :
    (headerOf i (ev b code p0 p1 p2 s)).irqStat.getLsbD k = true := by
  unfold ev recordEvent
  rw [headerOf_enqueue]
  generalize lifOf code p1 = l
  induction l generalizing s with
  | nil => exact h
  | cons x l ih => exact ih (irqStat_lifBump h)

/-- An access consumes one access of the guard window and leaves the rest of every header (R36). -/
theorem headerOf_useWindow (b : Blk) (n i : Nat) (s : State) :
    headerOf i (useWindow b n s) = { headerOf i s with remain := (headerOf i (useWindow b n s)).remain } := by
  unfold useWindow
  by_cases e : b.hdr n = i
  · subst e
    by_cases hb : b.hdr n < 77
    · rw [headerOf_modHdr hb]
    · simp [headerOf, vget, hb]
  · rw [headerOf_modHdr_ne e]

section
variable (b : Blk) (n i : Nat) (s : State)
@[simp] theorem useWindow_err : (headerOf i (useWindow b n s)).err = (headerOf i s).err := by rw [headerOf_useWindow]
@[simp] theorem useWindow_errCode : (headerOf i (useWindow b n s)).errCode = (headerOf i s).errCode := by rw [headerOf_useWindow]
@[simp] theorem useWindow_irqStat : (headerOf i (useWindow b n s)).irqStat = (headerOf i s).irqStat := by rw [headerOf_useWindow]
@[simp] theorem useWindow_en : (headerOf i (useWindow b n s)).en = (headerOf i s).en := by rw [headerOf_useWindow]
end

end Sys2Proof.Machine
end

