-- ==== Sys2Proof/Laws/Events.lean ====
section
/-!
SUPPORT. What recording an event adds to the ingest queue.
-/

set_option Elab.async false

namespace Sys2Proof.Machine

theorem queue_enqueue (code src p0 p1 p2 : Nat) (s : State) :
    ∃ l : List Event, l.length ≤ 1 ∧ (enqueue code src p0 p1 p2 s).evr.queue = s.evr.queue ++ l := by
  unfold enqueue
  generalize hc : (if isReserved code then 256 else 240) = c
  by_cases h : s.evr.queue.length < c
  · simp only [if_pos h]; exact ⟨[_], by simp, rfl⟩
  · simp only [if_neg h]; exact ⟨[], by simp, by simp [State.modEvr]⟩

theorem queue_lifBump (k a : Nat) (s : State) :
    ∃ l : List Event, l.length ≤ 1 ∧ (lifBump k a s).evr.queue = s.evr.queue ++ l := by
  unfold lifBump
  split
  · exact ⟨[], by simp, by simp⟩
  · dsimp only
    split
    · exact ⟨[], by simp, by simp⟩
    · exact queue_enqueue ..

theorem queue_lifBumps (l : List Nat) (s : State) : ∃ q : List Event, q.length ≤ l.length ∧
    (l.foldl (fun s i => lifBump i 1 s) s).evr.queue = s.evr.queue ++ q := by
  induction l generalizing s with
  | nil => exact ⟨[], by simp, by simp⟩
  | cons a l ih =>
    obtain ⟨q, hq, e⟩ := ih (lifBump a 1 s)
    obtain ⟨r, hr, e2⟩ := queue_lifBump a 1 s
    refine ⟨r ++ q, by simp; omega, ?_⟩
    simp only [List.foldl_cons, e, e2, List.append_assoc]

theorem lifOf_length (code p1 : Nat) : (lifOf code p1).length ≤ 2 := by
  unfold lifOf
  rw [List.length_append]
  have a : (if 0x1000 ≤ code ∧ code < 0x1100 then [14] else ([] : List Nat)).length ≤ 1 := by split <;> simp
  refine Nat.le_trans (Nat.add_le_add_right a _) (Nat.add_le_add_left (m := 1) ?_ 1)
  split <;> first | (simp; done) | (split <;> simp)

theorem queue_ev (b : Blk) (code p0 p1 p2 : Nat) (s : State) :
    ∃ l, (ev b code p0 p1 p2 s).evr.queue = s.evr.queue ++ l := by
  unfold ev recordEvent
  obtain ⟨q, _, e⟩ := queue_lifBumps (lifOf code p1) s
  obtain ⟨r, _, e2⟩ := queue_enqueue code b.row.type_ p0 p1 p2 ((lifOf code p1).foldl (fun s i => lifBump i 1 s) s)
  exact ⟨q ++ r, by rw [e2, e, List.append_assoc]⟩

/-- With room in the ingest queue an event is recorded. -/
theorem recorded_ev {b : Blk} {code p0 p1 p2 : Nat} {s : State} (h : s.evr.queue.length < 238) :
    Recorded code (ev b code p0 p1 p2 s) := by
  unfold Recorded ev recordEvent
  obtain ⟨q, hq, e⟩ := queue_lifBumps (lifOf code p1) s
  have hl := lifOf_length code p1
  generalize (lifOf code p1).foldl (fun s i => lifBump i 1 s) s = u at *
  have : u.evr.queue.length < if isReserved code then 256 else 240 := by
    rw [e, List.length_append]; split <;> omega
  unfold enqueue
  rw [if_pos this]
  refine ⟨_, by simp only [State.modEvr, List.mem_append]; exact .inr (List.mem_singleton.mpr rfl), rfl⟩

/-- A recorded event stays. -/
theorem recorded_ev_mono {b : Blk} {code c p0 p1 p2 : Nat} {s : State} (h : Recorded c s) :
    Recorded c (ev b code p0 p1 p2 s) := by
  obtain ⟨e, he, hc⟩ := h
  obtain ⟨l, hl⟩ := queue_ev b code p0 p1 p2 s
  exact ⟨e, by rw [hl]; exact List.mem_append_left _ he, hc⟩

theorem recorded_congr {c : Nat} {s t : State} (h : t.evr = s.evr) : Recorded c t ↔ Recorded c s := by
  simp only [Recorded, h]

theorem recorded_blockError {b : Blk} {n code info : Nat} {s : State} (h : s.evr.queue.length < 238) :
    Recorded code (blockError b n code info s) := recorded_ev h

/-- A block error is in ERR_CODE when no error stood before (R33). -/
theorem errCode_blockError {b : Blk} {n code info : Nat} {s : State} (hb : b.hdr n < 77)
    (h : (headerOf (b.hdr n) s).err = false) :
    (headerOf (b.hdr n) (blockError b n code info s)).errCode = code := by
  unfold blockError blockErrorP
  rw [ev_hdr_errCode, headerOf_modHdr hb]
  simp [Hdr.error, h]

end Sys2Proof.Machine
end

