-- ==== Sys2Proof/Laws/Keeps.lean ====
section
/-!
SUPPORT. Single values that operations leave as they were although they change other parts of the same record.
-/

set_option linter.all false
set_option Elab.async false

namespace Sys2Proof.Machine

/-- The link and enable bits of a controller. -/
def Ctrl.link (x : Ctrl) : Bool × Bool × Bool × Bool × Bool := (x.perst, x.linkUp, x.cfgOpen, x.en, x.rdy)

/-- The link and enable bits of the two controllers. -/
def Hce.links (h : Hce) : Vector (Bool × Bool × Bool × Bool × Bool) 2 := h.ctrl.map Ctrl.link

/-- The tags of the live commands. -/
def Hce.tags (h : Hce) : List Nat := h.cmds.map Cmd.tag

theorem tags_mod {k : Nat} {f : Cmd → Cmd} {h : Hce} (e : ∀ y, (f y).tag = y.tag) :
    Hce.tags { h with cmds := mapIf (·.tag == k) f h.cmds } = h.tags := by
  unfold Hce.tags mapIf
  rw [List.map_map]
  congr 1
  funext x
  simp only [Function.comp]
  split
  · exact e x
  · rfl

theorem cmdAt_isSome {k : Nat} {s : State} : (cmdAt k s).isSome = true ↔ k ∈ s.hce.tags := by
  simp only [cmdAt, List.find?_isSome, Hce.tags, List.mem_map]
  constructor
  · rintro ⟨x, hx, h⟩; exact ⟨x, hx, by simpa using h⟩
  · rintro ⟨x, hx, h⟩; exact ⟨x, hx, by simpa using h⟩

theorem links_set {h : Hce} {p : Fin 2} {x : Ctrl} (e : x.link = h.ctrl[p].link) :
    Hce.links { h with ctrl := h.ctrl.set p x } = h.links := by
  unfold Hce.links
  ext1 i hi
  simp only [Vector.getElem_map, Vector.getElem_set]
  split
  · next hp => subst hp; exact e
  · rfl

theorem links_get {h k : Hce} (e : h.links = k.links) (p : Fin 2) : h.ctrl[p].link = k.ctrl[p].link := by
  have := congrArg (fun v => v[p]) e
  simpa [Hce.links] using this

section

variable {o : State}

/-- clk.xo40failed, clk.xo40ok are as they were. -/
def KeepXo40 (s t : State) : Prop := t.clk.xo40failed = s.clk.xo40failed ∧ t.clk.xo40ok = s.clk.xo40ok

theorem KeepXo40.trans {s t u : State} (h : KeepXo40 s t) (k : KeepXo40 t u) : KeepXo40 s u := by
  unfold KeepXo40 at *; simp_all

theorem KeepXo40.refl {s : State} : KeepXo40 s s := by unfold KeepXo40; simp

theorem KeepXo40.of_eq {s t u : State} (e : u = t) (h : KeepXo40 s u) : KeepXo40 s t := e ▸ h

theorem KeepXo40.of_frame {m : Nat} {s t u : State} (h : KeepXo40 s t) (k : FrameB m t u) (eclk : m.testBit 10 = false := by decide) : KeepXo40 s u := by
  refine h.trans ?_
  have e : u.clk = t.clk := k .clk eclk
  unfold KeepXo40; simp_all

theorem KeepXo40.ite {s t u : State} {c : Prop} {d : Decidable c} (h : KeepXo40 s t) (k : KeepXo40 s u) : KeepXo40 s (if c then t else u) := by split <;> assumption

theorem KeepXo40.foldl {α : Type} {s t : State} {f : State → α → State} {l : List α} (h : KeepXo40 s t) (k : ∀ u x, KeepXo40 s u → KeepXo40 s (f u x)) : KeepXo40 s (l.foldl f t) := by
  induction l generalizing t with
  | nil => exact h
  | cons a l ih => exact ih (k t a h)

theorem KeepXo40.set_pending {s t : State} {v} (h : KeepXo40 s t) : KeepXo40 s { t with pending := v } := h.trans (by unfold KeepXo40; simp)

theorem KeepXo40.set_us {s t : State} {v} (h : KeepXo40 s t) : KeepXo40 s { t with us := v } := h.trans (by unfold KeepXo40; simp)

theorem KeepXo40.set_busData {s t : State} {v} (h : KeepXo40 s t) : KeepXo40 s { t with busData := v } := h.trans (by unfold KeepXo40; simp)

theorem KeepXo40.set_busErr {s t : State} {v} (h : KeepXo40 s t) : KeepXo40 s { t with busErr := v } := h.trans (by unfold KeepXo40; simp)

theorem KeepXo40.set_regs {s t : State} {v} (h : KeepXo40 s t) : KeepXo40 s { t with regs := v } := h.trans (by unfold KeepXo40; simp)

theorem KeepXo40.set_mem {s t : State} {v} (h : KeepXo40 s t) : KeepXo40 s { t with mem := v } := h.trans (by unfold KeepXo40; simp)

theorem KeepXo40.set_tcm {s t : State} {v} (h : KeepXo40 s t) : KeepXo40 s { t with tcm := v } := h.trans (by unfold KeepXo40; simp)

theorem KeepXo40.set_free {s t : State} {v} (h : KeepXo40 s t) : KeepXo40 s { t with free := v } := h.trans (by unfold KeepXo40; simp)

theorem KeepXo40.set_hdr {s t : State} {v} (h : KeepXo40 s t) : KeepXo40 s { t with hdr := v } := h.trans (by unfold KeepXo40; simp)

theorem KeepXo40.set_sys {s t : State} {v} (h : KeepXo40 s t) : KeepXo40 s { t with sys := v } := h.trans (by unfold KeepXo40; simp)

theorem KeepXo40.set_clk {s t : State} {v} (e : v.xo40failed = t.clk.xo40failed ∧ v.xo40ok = t.clk.xo40ok) (h : KeepXo40 s t) : KeepXo40 s { t with clk := v } := h.trans (by unfold KeepXo40; simp [e])

theorem KeepXo40.set_pwr {s t : State} {v} (h : KeepXo40 s t) : KeepXo40 s { t with pwr := v } := h.trans (by unfold KeepXo40; simp)

theorem KeepXo40.set_l1 {s t : State} {v} (h : KeepXo40 s t) : KeepXo40 s { t with l1 := v } := h.trans (by unfold KeepXo40; simp)

theorem KeepXo40.set_irq {s t : State} {v} (h : KeepXo40 s t) : KeepXo40 s { t with irq := v } := h.trans (by unfold KeepXo40; simp)

theorem KeepXo40.set_llt {s t : State} {v} (h : KeepXo40 s t) : KeepXo40 s { t with llt := v } := h.trans (by unfold KeepXo40; simp)

theorem KeepXo40.set_hce {s t : State} {v} (h : KeepXo40 s t) : KeepXo40 s { t with hce := v } := h.trans (by unfold KeepXo40; simp)

theorem KeepXo40.set_lgr {s t : State} {v} (h : KeepXo40 s t) : KeepXo40 s { t with lgr := v } := h.trans (by unfold KeepXo40; simp)

theorem KeepXo40.set_xmt {s t : State} {v} (h : KeepXo40 s t) : KeepXo40 s { t with xmt := v } := h.trans (by unfold KeepXo40; simp)

theorem KeepXo40.set_rvr {s t : State} {v} (h : KeepXo40 s t) : KeepXo40 s { t with rvr := v } := h.trans (by unfold KeepXo40; simp)

theorem KeepXo40.set_cst {s t : State} {v} (h : KeepXo40 s t) : KeepXo40 s { t with cst := v } := h.trans (by unfold KeepXo40; simp)

theorem KeepXo40.set_asq {s t : State} {v} (h : KeepXo40 s t) : KeepXo40 s { t with asq := v } := h.trans (by unfold KeepXo40; simp)

theorem KeepXo40.set_rwc {s t : State} {v} (h : KeepXo40 s t) : KeepXo40 s { t with rwc := v } := h.trans (by unfold KeepXo40; simp)

theorem KeepXo40.set_ldp {s t : State} {v} (h : KeepXo40 s t) : KeepXo40 s { t with ldp := v } := h.trans (by unfold KeepXo40; simp)

theorem KeepXo40.set_tpe {s t : State} {v} (h : KeepXo40 s t) : KeepXo40 s { t with tpe := v } := h.trans (by unfold KeepXo40; simp)

theorem KeepXo40.set_sve {s t : State} {v} (h : KeepXo40 s t) : KeepXo40 s { t with sve := v } := h.trans (by unfold KeepXo40; simp)

theorem KeepXo40.set_spn {s t : State} {v} (h : KeepXo40 s t) : KeepXo40 s { t with spn := v } := h.trans (by unfold KeepXo40; simp)

theorem KeepXo40.set_psi {s t : State} {v} (h : KeepXo40 s t) : KeepXo40 s { t with psi := v } := h.trans (by unfold KeepXo40; simp)

theorem KeepXo40.set_lsr {s t : State} {v} (h : KeepXo40 s t) : KeepXo40 s { t with lsr := v } := h.trans (by unfold KeepXo40; simp)

theorem KeepXo40.set_opt {s t : State} {v} (h : KeepXo40 s t) : KeepXo40 s { t with opt := v } := h.trans (by unfold KeepXo40; simp)

theorem KeepXo40.set_dmc {s t : State} {v} (h : KeepXo40 s t) : KeepXo40 s { t with dmc := v } := h.trans (by unfold KeepXo40; simp)

theorem KeepXo40.set_bcc {s t : State} {v} (h : KeepXo40 s t) : KeepXo40 s { t with bcc := v } := h.trans (by unfold KeepXo40; simp)

theorem KeepXo40.set_sec {s t : State} {v} (h : KeepXo40 s t) : KeepXo40 s { t with sec := v } := h.trans (by unfold KeepXo40; simp)

theorem KeepXo40.set_thm {s t : State} {v} (h : KeepXo40 s t) : KeepXo40 s { t with thm := v } := h.trans (by unfold KeepXo40; simp)

theorem KeepXo40.set_trm {s t : State} {v} (h : KeepXo40 s t) : KeepXo40 s { t with trm := v } := h.trans (by unfold KeepXo40; simp)

theorem KeepXo40.set_sup {s t : State} {v} (h : KeepXo40 s t) : KeepXo40 s { t with sup := v } := h.trans (by unfold KeepXo40; simp)

theorem KeepXo40.set_evr {s t : State} {v} (h : KeepXo40 s t) : KeepXo40 s { t with evr := v } := h.trans (by unfold KeepXo40; simp)

theorem KeepXo40.set_lif {s t : State} {v} (h : KeepXo40 s t) : KeepXo40 s { t with lif := v } := h.trans (by unfold KeepXo40; simp)

theorem KeepXo40.set_cal {s t : State} {v} (h : KeepXo40 s t) : KeepXo40 s { t with cal := v } := h.trans (by unfold KeepXo40; simp)

theorem KeepXo40.set_vlk {s t : State} {v} (h : KeepXo40 s t) : KeepXo40 s { t with vlk := v } := h.trans (by unfold KeepXo40; simp)

theorem KeepXo40.set_busData_busErr_l1 {s t : State} {v0 v1 v2} (h : KeepXo40 s t) : KeepXo40 s { t with busData := v0, busErr := v1, l1 := v2 } := h.trans (by unfold KeepXo40; simp)

theorem KeepXo40.set_mem_dmc {s t : State} {v0 v1} (h : KeepXo40 s t) : KeepXo40 s { t with mem := v0, dmc := v1 } := h.trans (by unfold KeepXo40; simp)

theorem KeepXo40.set_busData_cal {s t : State} {v0 v1} (h : KeepXo40 s t) : KeepXo40 s { t with busData := v0, cal := v1 } := h.trans (by unfold KeepXo40; simp)

theorem KeepXo40.set_busData_irq {s t : State} {v0 v1} (h : KeepXo40 s t) : KeepXo40 s { t with busData := v0, irq := v1 } := h.trans (by unfold KeepXo40; simp)

theorem KeepXo40.set_busData_tcm {s t : State} {v0 v1} (h : KeepXo40 s t) : KeepXo40 s { t with busData := v0, tcm := v1 } := h.trans (by unfold KeepXo40; simp)

theorem KeepXo40.set_busData_busErr {s t : State} {v0 v1} (h : KeepXo40 s t) : KeepXo40 s { t with busData := v0, busErr := v1 } := h.trans (by unfold KeepXo40; simp)

theorem KeepXo40.set_us_sys {s t : State} {v0 v1} (h : KeepXo40 s t) : KeepXo40 s { t with us := v0, sys := v1 } := h.trans (by unfold KeepXo40; simp)

theorem KeepXo40_ev x0 x1 x2 x3 x4 s (h : KeepXo40 o s) : KeepXo40 o (ev x0 x1 x2 x3 x4 s) := by
  exact KeepXo40.of_frame h (frame_ev x0 x1 x2 x3 x4 s (m := 0x1800000100) (o := s) .refl rfl)

theorem KeepXo40_pllSFault s (h : KeepXo40 o s) : KeepXo40 o (pllSFault s) := by
  exact KeepXo40.of_frame h (frame_pllSFault s (m := 0x1A1FB2A180) (o := s) .refl rfl)

theorem KeepXo40_setFld x0 x1 x2 x3 x4 x5 s (h : KeepXo40 o s) : KeepXo40 o (setFld x0 x1 x2 x3 x4 x5 s) := by
  exact KeepXo40.of_frame h (frame_setFld x0 x1 x2 x3 x4 x5 s (m := 0x10) (o := s) .refl rfl)

theorem KeepXo40_setLock x0 x1 s (h : KeepXo40 o s) : KeepXo40 o (setLock x0 x1 s) := by
  unfold setLock
  repeat' first | (with_reducible first | assumption | apply KeepXo40.ite) | fail_if_no_progress ((with_reducible apply KeepXo40.set_clk); (first | exact ⟨rfl, rfl⟩ | (simp; done))) | (intro y; first | exact ⟨rfl, rfl⟩ | (simp; done)) | split | dsimp only

theorem KeepXo40_pllLoss x0 s (h : KeepXo40 o s) : KeepXo40 o (pllLoss x0 s) := by
  unfold pllLoss
  repeat' first | (with_reducible first | assumption | apply KeepXo40_ev | apply KeepXo40_pllSFault | apply KeepXo40_setFld | apply KeepXo40_setLock | refine KeepXo40.foldl ?_ (fun _ _ _ => ?_) | apply KeepXo40.ite) | (intro y; first | exact ⟨rfl, rfl⟩ | (simp; done)) | split | dsimp only

end

section

variable {o : State}

/-- sys.coreUp, sys.railsGood, sys.held are as they were. -/
def KeepUp (s t : State) : Prop := t.sys.coreUp = s.sys.coreUp ∧ t.sys.railsGood = s.sys.railsGood ∧ t.sys.held = s.sys.held

theorem KeepUp.trans {s t u : State} (h : KeepUp s t) (k : KeepUp t u) : KeepUp s u := by
  unfold KeepUp at *; simp_all

theorem KeepUp.refl {s : State} : KeepUp s s := by unfold KeepUp; simp

theorem KeepUp.of_eq {s t u : State} (e : u = t) (h : KeepUp s u) : KeepUp s t := e ▸ h

theorem KeepUp.of_frame {m : Nat} {s t u : State} (h : KeepUp s t) (k : FrameB m t u) (esys : m.testBit 9 = false := by decide) : KeepUp s u := by
  refine h.trans ?_
  have e : u.sys = t.sys := k .sys esys
  unfold KeepUp; simp_all

theorem KeepUp.ite {s t u : State} {c : Prop} {d : Decidable c} (h : KeepUp s t) (k : KeepUp s u) : KeepUp s (if c then t else u) := by split <;> assumption

theorem KeepUp.foldl {α : Type} {s t : State} {f : State → α → State} {l : List α} (h : KeepUp s t) (k : ∀ u x, KeepUp s u → KeepUp s (f u x)) : KeepUp s (l.foldl f t) := by
  induction l generalizing t with
  | nil => exact h
  | cons a l ih => exact ih (k t a h)

theorem KeepUp.set_pending {s t : State} {v} (h : KeepUp s t) : KeepUp s { t with pending := v } := h.trans (by unfold KeepUp; simp)

theorem KeepUp.set_us {s t : State} {v} (h : KeepUp s t) : KeepUp s { t with us := v } := h.trans (by unfold KeepUp; simp)

theorem KeepUp.set_busData {s t : State} {v} (h : KeepUp s t) : KeepUp s { t with busData := v } := h.trans (by unfold KeepUp; simp)

theorem KeepUp.set_busErr {s t : State} {v} (h : KeepUp s t) : KeepUp s { t with busErr := v } := h.trans (by unfold KeepUp; simp)

theorem KeepUp.set_regs {s t : State} {v} (h : KeepUp s t) : KeepUp s { t with regs := v } := h.trans (by unfold KeepUp; simp)

theorem KeepUp.set_mem {s t : State} {v} (h : KeepUp s t) : KeepUp s { t with mem := v } := h.trans (by unfold KeepUp; simp)

theorem KeepUp.set_tcm {s t : State} {v} (h : KeepUp s t) : KeepUp s { t with tcm := v } := h.trans (by unfold KeepUp; simp)

theorem KeepUp.set_free {s t : State} {v} (h : KeepUp s t) : KeepUp s { t with free := v } := h.trans (by unfold KeepUp; simp)

theorem KeepUp.set_hdr {s t : State} {v} (h : KeepUp s t) : KeepUp s { t with hdr := v } := h.trans (by unfold KeepUp; simp)

theorem KeepUp.set_sys {s t : State} {v} (e : v.coreUp = t.sys.coreUp ∧ v.railsGood = t.sys.railsGood ∧ v.held = t.sys.held) (h : KeepUp s t) : KeepUp s { t with sys := v } := h.trans (by unfold KeepUp; simp [e])

theorem KeepUp.set_clk {s t : State} {v} (h : KeepUp s t) : KeepUp s { t with clk := v } := h.trans (by unfold KeepUp; simp)

theorem KeepUp.set_pwr {s t : State} {v} (h : KeepUp s t) : KeepUp s { t with pwr := v } := h.trans (by unfold KeepUp; simp)

theorem KeepUp.set_l1 {s t : State} {v} (h : KeepUp s t) : KeepUp s { t with l1 := v } := h.trans (by unfold KeepUp; simp)

theorem KeepUp.set_irq {s t : State} {v} (h : KeepUp s t) : KeepUp s { t with irq := v } := h.trans (by unfold KeepUp; simp)

theorem KeepUp.set_llt {s t : State} {v} (h : KeepUp s t) : KeepUp s { t with llt := v } := h.trans (by unfold KeepUp; simp)

theorem KeepUp.set_hce {s t : State} {v} (h : KeepUp s t) : KeepUp s { t with hce := v } := h.trans (by unfold KeepUp; simp)

theorem KeepUp.set_lgr {s t : State} {v} (h : KeepUp s t) : KeepUp s { t with lgr := v } := h.trans (by unfold KeepUp; simp)

theorem KeepUp.set_xmt {s t : State} {v} (h : KeepUp s t) : KeepUp s { t with xmt := v } := h.trans (by unfold KeepUp; simp)

theorem KeepUp.set_rvr {s t : State} {v} (h : KeepUp s t) : KeepUp s { t with rvr := v } := h.trans (by unfold KeepUp; simp)

theorem KeepUp.set_cst {s t : State} {v} (h : KeepUp s t) : KeepUp s { t with cst := v } := h.trans (by unfold KeepUp; simp)

theorem KeepUp.set_asq {s t : State} {v} (h : KeepUp s t) : KeepUp s { t with asq := v } := h.trans (by unfold KeepUp; simp)

theorem KeepUp.set_rwc {s t : State} {v} (h : KeepUp s t) : KeepUp s { t with rwc := v } := h.trans (by unfold KeepUp; simp)

theorem KeepUp.set_ldp {s t : State} {v} (h : KeepUp s t) : KeepUp s { t with ldp := v } := h.trans (by unfold KeepUp; simp)

theorem KeepUp.set_tpe {s t : State} {v} (h : KeepUp s t) : KeepUp s { t with tpe := v } := h.trans (by unfold KeepUp; simp)

theorem KeepUp.set_sve {s t : State} {v} (h : KeepUp s t) : KeepUp s { t with sve := v } := h.trans (by unfold KeepUp; simp)

theorem KeepUp.set_spn {s t : State} {v} (h : KeepUp s t) : KeepUp s { t with spn := v } := h.trans (by unfold KeepUp; simp)

theorem KeepUp.set_psi {s t : State} {v} (h : KeepUp s t) : KeepUp s { t with psi := v } := h.trans (by unfold KeepUp; simp)

theorem KeepUp.set_lsr {s t : State} {v} (h : KeepUp s t) : KeepUp s { t with lsr := v } := h.trans (by unfold KeepUp; simp)

theorem KeepUp.set_opt {s t : State} {v} (h : KeepUp s t) : KeepUp s { t with opt := v } := h.trans (by unfold KeepUp; simp)

theorem KeepUp.set_dmc {s t : State} {v} (h : KeepUp s t) : KeepUp s { t with dmc := v } := h.trans (by unfold KeepUp; simp)

theorem KeepUp.set_bcc {s t : State} {v} (h : KeepUp s t) : KeepUp s { t with bcc := v } := h.trans (by unfold KeepUp; simp)

theorem KeepUp.set_sec {s t : State} {v} (h : KeepUp s t) : KeepUp s { t with sec := v } := h.trans (by unfold KeepUp; simp)

theorem KeepUp.set_thm {s t : State} {v} (h : KeepUp s t) : KeepUp s { t with thm := v } := h.trans (by unfold KeepUp; simp)

theorem KeepUp.set_trm {s t : State} {v} (h : KeepUp s t) : KeepUp s { t with trm := v } := h.trans (by unfold KeepUp; simp)

theorem KeepUp.set_sup {s t : State} {v} (h : KeepUp s t) : KeepUp s { t with sup := v } := h.trans (by unfold KeepUp; simp)

theorem KeepUp.set_evr {s t : State} {v} (h : KeepUp s t) : KeepUp s { t with evr := v } := h.trans (by unfold KeepUp; simp)

theorem KeepUp.set_lif {s t : State} {v} (h : KeepUp s t) : KeepUp s { t with lif := v } := h.trans (by unfold KeepUp; simp)

theorem KeepUp.set_cal {s t : State} {v} (h : KeepUp s t) : KeepUp s { t with cal := v } := h.trans (by unfold KeepUp; simp)

theorem KeepUp.set_vlk {s t : State} {v} (h : KeepUp s t) : KeepUp s { t with vlk := v } := h.trans (by unfold KeepUp; simp)

theorem KeepUp.set_busData_busErr_l1 {s t : State} {v0 v1 v2} (h : KeepUp s t) : KeepUp s { t with busData := v0, busErr := v1, l1 := v2 } := h.trans (by unfold KeepUp; simp)

theorem KeepUp.set_mem_dmc {s t : State} {v0 v1} (h : KeepUp s t) : KeepUp s { t with mem := v0, dmc := v1 } := h.trans (by unfold KeepUp; simp)

theorem KeepUp.set_clk_cal {s t : State} {v0 v1} (h : KeepUp s t) : KeepUp s { t with clk := v0, cal := v1 } := h.trans (by unfold KeepUp; simp)

theorem KeepUp.set_busData_cal {s t : State} {v0 v1} (h : KeepUp s t) : KeepUp s { t with busData := v0, cal := v1 } := h.trans (by unfold KeepUp; simp)

theorem KeepUp.set_busData_irq {s t : State} {v0 v1} (h : KeepUp s t) : KeepUp s { t with busData := v0, irq := v1 } := h.trans (by unfold KeepUp; simp)

theorem KeepUp.set_busData_tcm {s t : State} {v0 v1} (h : KeepUp s t) : KeepUp s { t with busData := v0, tcm := v1 } := h.trans (by unfold KeepUp; simp)

theorem KeepUp.set_busData_busErr {s t : State} {v0 v1} (h : KeepUp s t) : KeepUp s { t with busData := v0, busErr := v1 } := h.trans (by unfold KeepUp; simp)

theorem KeepUp_countCauses x0 s (h : KeepUp o s) : KeepUp o (countCauses x0 s) := by
  exact KeepUp.of_frame h (frame_countCauses x0 s (m := 0x1800000100) (o := s) .refl rfl)

theorem KeepUp_State_drawn s (h : KeepUp o s) : KeepUp o (State.drawn s) := by
  exact KeepUp.of_frame h (frame_State_drawn s (m := 0x80) (o := s) .refl rfl)

theorem KeepUp_State_modSec x0 s (h : KeepUp o s) : KeepUp o (State.modSec x0 s) := by
  exact KeepUp.of_frame h (frame_State_modSec x0 s (m := 0x80000000) (o := s) .refl rfl)

theorem KeepUp_extendMeas x0 x1 s (h : KeepUp o s) : KeepUp o (extendMeas x0 x1 s) := by
  exact KeepUp.of_frame h (frame_extendMeas x0 x1 s (m := 0x80000000) (o := s) .refl rfl)

theorem KeepUp_measureStage s (h : KeepUp o s) : KeepUp o (measureStage s) := by
  exact KeepUp.of_frame h (frame_measureStage s (m := 0x80000080) (o := s) .refl rfl)

theorem KeepUp_measureStart s (h : KeepUp o s) : KeepUp o (measureStart s) := by
  exact KeepUp.of_frame h (frame_measureStart s (m := 0x80000080) (o := s) .refl rfl)

theorem KeepUp_ev x0 x1 x2 x3 x4 s (h : KeepUp o s) : KeepUp o (ev x0 x1 x2 x3 x4 s) := by
  exact KeepUp.of_frame h (frame_ev x0 x1 x2 x3 x4 s (m := 0x1800000100) (o := s) .refl rfl)

theorem KeepUp_applyPolicy s (h : KeepUp o s) : KeepUp o (applyPolicy s) := by
  exact KeepUp.of_frame h (frame_applyPolicy s (m := 0x1880080180) (o := s) .refl rfl)

theorem KeepUp_State_modSys x0 s (h : KeepUp o s) (e : ∀ y, (x0 y).coreUp = y.coreUp ∧ (x0 y).railsGood = y.railsGood ∧ (x0 y).held = y.held) : KeepUp o (State.modSys x0 s) := KeepUp.set_sys (e _) h

theorem KeepUp_bistEvent x0 s (h : KeepUp o s) : KeepUp o (bistEvent x0 s) := by
  unfold bistEvent
  repeat' first | (with_reducible first | assumption | apply KeepUp_State_modSys | apply KeepUp_ev | apply KeepUp.ite) | (intro y; first | exact ⟨rfl, rfl, rfl⟩ | (simp; done)) | split | dsimp only

theorem KeepUp_bistEventFree s (h : KeepUp o s) : KeepUp o (bistEventFree s) := by
  unfold bistEventFree
  repeat' first | (with_reducible first | assumption | apply KeepUp_State_drawn | apply KeepUp_bistEvent | apply KeepUp.ite) | (intro y; first | exact ⟨rfl, rfl, rfl⟩ | (simp; done)) | split | dsimp only

theorem KeepUp_disableWay x0 x1 x2 s (h : KeepUp o s) : KeepUp o (disableWay x0 x1 x2 s) := by
  exact KeepUp.of_frame h (frame_disableWay x0 x1 x2 s (m := 0x1860002120) (o := s) .refl rfl)

theorem KeepUp_loseChannel x0 s (h : KeepUp o s) : KeepUp o (loseChannel x0 s) := by
  exact KeepUp.of_frame h (frame_loseChannel x0 s (m := 0x1800038180) (o := s) .refl rfl)

theorem KeepUp_bistResults x0 s (h : KeepUp o s) : KeepUp o (bistResults x0 s) := by
  unfold bistResults
  repeat' first | (with_reducible first | assumption | apply KeepUp_State_modSys | apply KeepUp_bistEvent | apply KeepUp_bistEventFree | apply KeepUp_disableWay | apply KeepUp_loseChannel | refine KeepUp.foldl ?_ (fun _ _ _ => ?_) | apply KeepUp.ite) | (intro y; first | exact ⟨rfl, rfl, rfl⟩ | (simp; done)) | split | dsimp only

theorem KeepUp_deriveKeys s (h : KeepUp o s) : KeepUp o (deriveKeys s) := by
  exact KeepUp.of_frame h (frame_deriveKeys s (m := 0x80000000) (o := s) .refl rfl)

theorem KeepUp_setFld x0 x1 x2 x3 x4 x5 s (h : KeepUp o s) : KeepUp o (setFld x0 x1 x2 x3 x4 x5 s) := by
  exact KeepUp.of_frame h (frame_setFld x0 x1 x2 x3 x4 x5 s (m := 0x10) (o := s) .refl rfl)

theorem KeepUp_startImage x0 x1 s (h : KeepUp o s) : KeepUp o (startImage x0 x1 s) := by
  unfold startImage
  repeat' first | (with_reducible first | assumption | apply KeepUp_State_modSec | apply KeepUp_State_modSys | apply KeepUp_deriveKeys | apply KeepUp_extendMeas | apply KeepUp_measureStage | apply KeepUp_setFld | apply KeepUp.ite) | (intro y; first | exact ⟨rfl, rfl, rfl⟩ | (simp; done)) | split | dsimp only

theorem KeepUp_bootSlots x0 s (h : KeepUp o s) : KeepUp o (bootSlots x0 s) := by
  unfold bootSlots
  repeat' first | (with_reducible first | assumption | apply KeepUp_State_modSys | apply KeepUp_ev | apply KeepUp_startImage | apply KeepUp.ite) | (intro y; first | exact ⟨rfl, rfl, rfl⟩ | (simp; done)) | split | dsimp only

theorem KeepUp_trainLink x0 s (h : KeepUp o s) : KeepUp o (trainLink x0 s) := by
  exact KeepUp.of_frame h (frame_trainLink x0 s (m := 0xA000) (o := s) .refl rfl)

theorem KeepUp_sampleStraps x0 s (h : KeepUp o s) : KeepUp o (sampleStraps x0 s) := by
  unfold sampleStraps
  repeat' first | (with_reducible first | assumption | apply KeepUp_State_modSys | apply KeepUp_ev | apply KeepUp.ite) | (intro y; first | exact ⟨rfl, rfl, rfl⟩ | (simp; done)) | split | dsimp only

end

section

variable {o : State}

/-- pwr.state, pwr.darkCritical, pwr.darkRails, pwr.target, pwr.phase, pwr.pd are as they were. -/
def KeepPwr (s t : State) : Prop := t.pwr.state = s.pwr.state ∧ t.pwr.darkCritical = s.pwr.darkCritical ∧ t.pwr.darkRails = s.pwr.darkRails ∧ t.pwr.target = s.pwr.target ∧ t.pwr.phase = s.pwr.phase ∧ t.pwr.pd = s.pwr.pd

theorem KeepPwr.trans {s t u : State} (h : KeepPwr s t) (k : KeepPwr t u) : KeepPwr s u := by
  unfold KeepPwr at *; simp_all

theorem KeepPwr.refl {s : State} : KeepPwr s s := by unfold KeepPwr; simp

theorem KeepPwr.of_eq {s t u : State} (e : u = t) (h : KeepPwr s u) : KeepPwr s t := e ▸ h

theorem KeepPwr.of_frame {m : Nat} {s t u : State} (h : KeepPwr s t) (k : FrameB m t u) (epwr : m.testBit 11 = false := by decide) : KeepPwr s u := by
  refine h.trans ?_
  have e : u.pwr = t.pwr := k .pwr epwr
  unfold KeepPwr; simp_all

theorem KeepPwr.ite {s t u : State} {c : Prop} {d : Decidable c} (h : KeepPwr s t) (k : KeepPwr s u) : KeepPwr s (if c then t else u) := by split <;> assumption

theorem KeepPwr.foldl {α : Type} {s t : State} {f : State → α → State} {l : List α} (h : KeepPwr s t) (k : ∀ u x, KeepPwr s u → KeepPwr s (f u x)) : KeepPwr s (l.foldl f t) := by
  induction l generalizing t with
  | nil => exact h
  | cons a l ih => exact ih (k t a h)

theorem KeepPwr.set_pending {s t : State} {v} (h : KeepPwr s t) : KeepPwr s { t with pending := v } := h.trans (by unfold KeepPwr; simp)

theorem KeepPwr.set_us {s t : State} {v} (h : KeepPwr s t) : KeepPwr s { t with us := v } := h.trans (by unfold KeepPwr; simp)

theorem KeepPwr.set_busData {s t : State} {v} (h : KeepPwr s t) : KeepPwr s { t with busData := v } := h.trans (by unfold KeepPwr; simp)

theorem KeepPwr.set_busErr {s t : State} {v} (h : KeepPwr s t) : KeepPwr s { t with busErr := v } := h.trans (by unfold KeepPwr; simp)

theorem KeepPwr.set_regs {s t : State} {v} (h : KeepPwr s t) : KeepPwr s { t with regs := v } := h.trans (by unfold KeepPwr; simp)

theorem KeepPwr.set_mem {s t : State} {v} (h : KeepPwr s t) : KeepPwr s { t with mem := v } := h.trans (by unfold KeepPwr; simp)

theorem KeepPwr.set_tcm {s t : State} {v} (h : KeepPwr s t) : KeepPwr s { t with tcm := v } := h.trans (by unfold KeepPwr; simp)

theorem KeepPwr.set_free {s t : State} {v} (h : KeepPwr s t) : KeepPwr s { t with free := v } := h.trans (by unfold KeepPwr; simp)

theorem KeepPwr.set_hdr {s t : State} {v} (h : KeepPwr s t) : KeepPwr s { t with hdr := v } := h.trans (by unfold KeepPwr; simp)

theorem KeepPwr.set_sys {s t : State} {v} (h : KeepPwr s t) : KeepPwr s { t with sys := v } := h.trans (by unfold KeepPwr; simp)

theorem KeepPwr.set_clk {s t : State} {v} (h : KeepPwr s t) : KeepPwr s { t with clk := v } := h.trans (by unfold KeepPwr; simp)

theorem KeepPwr.set_pwr {s t : State} {v} (e : v.state = t.pwr.state ∧ v.darkCritical = t.pwr.darkCritical ∧ v.darkRails = t.pwr.darkRails ∧ v.target = t.pwr.target ∧ v.phase = t.pwr.phase ∧ v.pd = t.pwr.pd) (h : KeepPwr s t) : KeepPwr s { t with pwr := v } := h.trans (by unfold KeepPwr; simp [e])

theorem KeepPwr.set_l1 {s t : State} {v} (h : KeepPwr s t) : KeepPwr s { t with l1 := v } := h.trans (by unfold KeepPwr; simp)

theorem KeepPwr.set_irq {s t : State} {v} (h : KeepPwr s t) : KeepPwr s { t with irq := v } := h.trans (by unfold KeepPwr; simp)

theorem KeepPwr.set_llt {s t : State} {v} (h : KeepPwr s t) : KeepPwr s { t with llt := v } := h.trans (by unfold KeepPwr; simp)

theorem KeepPwr.set_hce {s t : State} {v} (h : KeepPwr s t) : KeepPwr s { t with hce := v } := h.trans (by unfold KeepPwr; simp)

theorem KeepPwr.set_lgr {s t : State} {v} (h : KeepPwr s t) : KeepPwr s { t with lgr := v } := h.trans (by unfold KeepPwr; simp)

theorem KeepPwr.set_xmt {s t : State} {v} (h : KeepPwr s t) : KeepPwr s { t with xmt := v } := h.trans (by unfold KeepPwr; simp)

theorem KeepPwr.set_rvr {s t : State} {v} (h : KeepPwr s t) : KeepPwr s { t with rvr := v } := h.trans (by unfold KeepPwr; simp)

theorem KeepPwr.set_cst {s t : State} {v} (h : KeepPwr s t) : KeepPwr s { t with cst := v } := h.trans (by unfold KeepPwr; simp)

theorem KeepPwr.set_asq {s t : State} {v} (h : KeepPwr s t) : KeepPwr s { t with asq := v } := h.trans (by unfold KeepPwr; simp)

theorem KeepPwr.set_rwc {s t : State} {v} (h : KeepPwr s t) : KeepPwr s { t with rwc := v } := h.trans (by unfold KeepPwr; simp)

theorem KeepPwr.set_ldp {s t : State} {v} (h : KeepPwr s t) : KeepPwr s { t with ldp := v } := h.trans (by unfold KeepPwr; simp)

theorem KeepPwr.set_tpe {s t : State} {v} (h : KeepPwr s t) : KeepPwr s { t with tpe := v } := h.trans (by unfold KeepPwr; simp)

theorem KeepPwr.set_sve {s t : State} {v} (h : KeepPwr s t) : KeepPwr s { t with sve := v } := h.trans (by unfold KeepPwr; simp)

theorem KeepPwr.set_spn {s t : State} {v} (h : KeepPwr s t) : KeepPwr s { t with spn := v } := h.trans (by unfold KeepPwr; simp)

theorem KeepPwr.set_psi {s t : State} {v} (h : KeepPwr s t) : KeepPwr s { t with psi := v } := h.trans (by unfold KeepPwr; simp)

theorem KeepPwr.set_lsr {s t : State} {v} (h : KeepPwr s t) : KeepPwr s { t with lsr := v } := h.trans (by unfold KeepPwr; simp)

theorem KeepPwr.set_opt {s t : State} {v} (h : KeepPwr s t) : KeepPwr s { t with opt := v } := h.trans (by unfold KeepPwr; simp)

theorem KeepPwr.set_dmc {s t : State} {v} (h : KeepPwr s t) : KeepPwr s { t with dmc := v } := h.trans (by unfold KeepPwr; simp)

theorem KeepPwr.set_bcc {s t : State} {v} (h : KeepPwr s t) : KeepPwr s { t with bcc := v } := h.trans (by unfold KeepPwr; simp)

theorem KeepPwr.set_sec {s t : State} {v} (h : KeepPwr s t) : KeepPwr s { t with sec := v } := h.trans (by unfold KeepPwr; simp)

theorem KeepPwr.set_thm {s t : State} {v} (h : KeepPwr s t) : KeepPwr s { t with thm := v } := h.trans (by unfold KeepPwr; simp)

theorem KeepPwr.set_trm {s t : State} {v} (h : KeepPwr s t) : KeepPwr s { t with trm := v } := h.trans (by unfold KeepPwr; simp)

theorem KeepPwr.set_sup {s t : State} {v} (h : KeepPwr s t) : KeepPwr s { t with sup := v } := h.trans (by unfold KeepPwr; simp)

theorem KeepPwr.set_evr {s t : State} {v} (h : KeepPwr s t) : KeepPwr s { t with evr := v } := h.trans (by unfold KeepPwr; simp)

theorem KeepPwr.set_lif {s t : State} {v} (h : KeepPwr s t) : KeepPwr s { t with lif := v } := h.trans (by unfold KeepPwr; simp)

theorem KeepPwr.set_cal {s t : State} {v} (h : KeepPwr s t) : KeepPwr s { t with cal := v } := h.trans (by unfold KeepPwr; simp)

theorem KeepPwr.set_vlk {s t : State} {v} (h : KeepPwr s t) : KeepPwr s { t with vlk := v } := h.trans (by unfold KeepPwr; simp)

theorem KeepPwr.set_busData_busErr_l1 {s t : State} {v0 v1 v2} (h : KeepPwr s t) : KeepPwr s { t with busData := v0, busErr := v1, l1 := v2 } := h.trans (by unfold KeepPwr; simp)

theorem KeepPwr.set_mem_dmc {s t : State} {v0 v1} (h : KeepPwr s t) : KeepPwr s { t with mem := v0, dmc := v1 } := h.trans (by unfold KeepPwr; simp)

theorem KeepPwr.set_clk_cal {s t : State} {v0 v1} (h : KeepPwr s t) : KeepPwr s { t with clk := v0, cal := v1 } := h.trans (by unfold KeepPwr; simp)

theorem KeepPwr.set_busData_cal {s t : State} {v0 v1} (h : KeepPwr s t) : KeepPwr s { t with busData := v0, cal := v1 } := h.trans (by unfold KeepPwr; simp)

theorem KeepPwr.set_busData_irq {s t : State} {v0 v1} (h : KeepPwr s t) : KeepPwr s { t with busData := v0, irq := v1 } := h.trans (by unfold KeepPwr; simp)

theorem KeepPwr.set_busData_tcm {s t : State} {v0 v1} (h : KeepPwr s t) : KeepPwr s { t with busData := v0, tcm := v1 } := h.trans (by unfold KeepPwr; simp)

theorem KeepPwr.set_busData_busErr {s t : State} {v0 v1} (h : KeepPwr s t) : KeepPwr s { t with busData := v0, busErr := v1 } := h.trans (by unfold KeepPwr; simp)

theorem KeepPwr.set_us_sys {s t : State} {v0 v1} (h : KeepPwr s t) : KeepPwr s { t with us := v0, sys := v1 } := h.trans (by unfold KeepPwr; simp)

theorem KeepPwr_setIrqStat x0 x1 x2 s (h : KeepPwr o s) : KeepPwr o (setIrqStat x0 x1 x2 s) := by
  exact KeepPwr.of_frame h (frame_setIrqStat x0 x1 x2 s (m := 0x100) (o := s) .refl rfl)

theorem KeepPwr_ev x0 x1 x2 x3 x4 s (h : KeepPwr o s) : KeepPwr o (ev x0 x1 x2 x3 x4 s) := by
  exact KeepPwr.of_frame h (frame_ev x0 x1 x2 x3 x4 s (m := 0x1800000100) (o := s) .refl rfl)

theorem KeepPwr_State_modPwr x0 s (h : KeepPwr o s) (e : ∀ y, (x0 y).state = y.state ∧ (x0 y).darkCritical = y.darkCritical ∧ (x0 y).darkRails = y.darkRails ∧ (x0 y).target = y.target ∧ (x0 y).phase = y.phase ∧ (x0 y).pd = y.pd) : KeepPwr o (State.modPwr x0 s) := KeepPwr.set_pwr (e _) h

theorem KeepPwr_noteWake x0 s (h : KeepPwr o s) : KeepPwr o (noteWake x0 s) := by
  unfold noteWake
  repeat' first | (with_reducible first | assumption | apply KeepPwr_State_modPwr | apply KeepPwr.ite) | (intro y; first | exact ⟨rfl, rfl, rfl, rfl, rfl, rfl⟩ | (simp; done)) | split | dsimp only

theorem KeepPwr_setFld x0 x1 x2 x3 x4 x5 s (h : KeepPwr o s) : KeepPwr o (setFld x0 x1 x2 x3 x4 x5 s) := by
  exact KeepPwr.of_frame h (frame_setFld x0 x1 x2 x3 x4 x5 s (m := 0x10) (o := s) .refl rfl)

theorem KeepPwr_fireAlarm s (h : KeepPwr o s) : KeepPwr o (fireAlarm s) := by
  unfold fireAlarm
  repeat' first | (with_reducible first | assumption | apply KeepPwr_ev | apply KeepPwr_noteWake | apply KeepPwr_setFld | apply KeepPwr_setIrqStat | apply KeepPwr.ite) | (intro y; first | exact ⟨rfl, rfl, rfl, rfl, rfl, rfl⟩ | (simp; done)) | split | dsimp only

theorem KeepPwr_calRun x0 s (h : KeepPwr o s) : KeepPwr o (calRun x0 s) := by
  unfold calRun
  repeat' first | (with_reducible first | assumption | apply KeepPwr_fireAlarm | apply KeepPwr_setIrqStat | apply KeepPwr.ite) | fail_if_no_progress (with_reducible apply KeepPwr.set_cal) | (intro y; first | exact ⟨rfl, rfl, rfl, rfl, rfl, rfl⟩ | (simp; done)) | split | dsimp only

theorem KeepPwr_calCount x0 s (h : KeepPwr o s) : KeepPwr o (calCount x0 s) := by
  unfold calCount
  repeat' first | (with_reducible first | assumption | apply KeepPwr_calRun | apply KeepPwr.ite) | (intro y; first | exact ⟨rfl, rfl, rfl, rfl, rfl, rfl⟩ | (simp; done)) | split | dsimp only

theorem KeepPwr_vlkCount x0 s (h : KeepPwr o s) : KeepPwr o (vlkCount x0 s) := by
  exact KeepPwr.of_frame h (frame_vlkCount x0 s (m := 0x4000000000) (o := s) .refl rfl)

theorem KeepPwr_elapse x0 s (h : KeepPwr o s) : KeepPwr o (elapse x0 s) := by
  unfold elapse; exact KeepPwr_calCount _ _ (KeepPwr_vlkCount _ _ (h.trans ⟨rfl, rfl, rfl, rfl, rfl, rfl⟩))

theorem KeepPwr_advanceTo x0 s (h : KeepPwr o s) : KeepPwr o (advanceTo x0 s) := by
  unfold advanceTo
  repeat' first | (with_reducible first | assumption | apply KeepPwr_elapse | apply KeepPwr.ite) | (intro y; first | exact ⟨rfl, rfl, rfl, rfl, rfl, rfl⟩ | (simp; done)) | split | dsimp only

theorem KeepPwr_finishDw x0 x1 x2 x3 s (h : KeepPwr o s) : KeepPwr o (finishDw x0 x1 x2 x3 s) := by
  exact KeepPwr.of_frame h (frame_finishDw x0 x1 x2 x3 s (m := 0x18080) (o := s) .refl rfl)

theorem KeepPwr_psReached x0 s (h : KeepPwr o s) : KeepPwr o (psReached x0 s) := by
  unfold psReached
  repeat' first | (with_reducible first | assumption | apply KeepPwr_State_modPwr | apply KeepPwr_finishDw | apply KeepPwr.ite) | (intro y; first | exact ⟨rfl, rfl, rfl, rfl, rfl, rfl⟩ | (simp; done)) | split | dsimp only

theorem KeepPwr_psEntered x0 s (h : KeepPwr o s) : KeepPwr o (psEntered x0 s) := by
  unfold psEntered
  repeat' first | (with_reducible first | assumption | apply KeepPwr_psReached | apply KeepPwr.ite) | (intro y; first | exact ⟨rfl, rfl, rfl, rfl, rfl, rfl⟩ | (simp; done)) | split | dsimp only

end

section

variable {o : State}

/-- sys.seq, sys.resetNLow, sys.coreUp are as they were. -/
def KeepSeq (s t : State) : Prop := t.sys.seq = s.sys.seq ∧ t.sys.resetNLow = s.sys.resetNLow ∧ t.sys.coreUp = s.sys.coreUp

theorem KeepSeq.trans {s t u : State} (h : KeepSeq s t) (k : KeepSeq t u) : KeepSeq s u := by
  unfold KeepSeq at *; simp_all

theorem KeepSeq.refl {s : State} : KeepSeq s s := by unfold KeepSeq; simp

theorem KeepSeq.of_eq {s t u : State} (e : u = t) (h : KeepSeq s u) : KeepSeq s t := e ▸ h

theorem KeepSeq.of_frame {m : Nat} {s t u : State} (h : KeepSeq s t) (k : FrameB m t u) (esys : m.testBit 9 = false := by decide) : KeepSeq s u := by
  refine h.trans ?_
  have e : u.sys = t.sys := k .sys esys
  unfold KeepSeq; simp_all

theorem KeepSeq.ite {s t u : State} {c : Prop} {d : Decidable c} (h : KeepSeq s t) (k : KeepSeq s u) : KeepSeq s (if c then t else u) := by split <;> assumption

theorem KeepSeq.foldl {α : Type} {s t : State} {f : State → α → State} {l : List α} (h : KeepSeq s t) (k : ∀ u x, KeepSeq s u → KeepSeq s (f u x)) : KeepSeq s (l.foldl f t) := by
  induction l generalizing t with
  | nil => exact h
  | cons a l ih => exact ih (k t a h)

theorem KeepSeq.set_pending {s t : State} {v} (h : KeepSeq s t) : KeepSeq s { t with pending := v } := h.trans (by unfold KeepSeq; simp)

theorem KeepSeq.set_us {s t : State} {v} (h : KeepSeq s t) : KeepSeq s { t with us := v } := h.trans (by unfold KeepSeq; simp)

theorem KeepSeq.set_busData {s t : State} {v} (h : KeepSeq s t) : KeepSeq s { t with busData := v } := h.trans (by unfold KeepSeq; simp)

theorem KeepSeq.set_busErr {s t : State} {v} (h : KeepSeq s t) : KeepSeq s { t with busErr := v } := h.trans (by unfold KeepSeq; simp)

theorem KeepSeq.set_regs {s t : State} {v} (h : KeepSeq s t) : KeepSeq s { t with regs := v } := h.trans (by unfold KeepSeq; simp)

theorem KeepSeq.set_mem {s t : State} {v} (h : KeepSeq s t) : KeepSeq s { t with mem := v } := h.trans (by unfold KeepSeq; simp)

theorem KeepSeq.set_tcm {s t : State} {v} (h : KeepSeq s t) : KeepSeq s { t with tcm := v } := h.trans (by unfold KeepSeq; simp)

theorem KeepSeq.set_free {s t : State} {v} (h : KeepSeq s t) : KeepSeq s { t with free := v } := h.trans (by unfold KeepSeq; simp)

theorem KeepSeq.set_hdr {s t : State} {v} (h : KeepSeq s t) : KeepSeq s { t with hdr := v } := h.trans (by unfold KeepSeq; simp)

theorem KeepSeq.set_sys {s t : State} {v} (e : v.seq = t.sys.seq ∧ v.resetNLow = t.sys.resetNLow ∧ v.coreUp = t.sys.coreUp) (h : KeepSeq s t) : KeepSeq s { t with sys := v } := h.trans (by unfold KeepSeq; simp [e])

theorem KeepSeq.set_clk {s t : State} {v} (h : KeepSeq s t) : KeepSeq s { t with clk := v } := h.trans (by unfold KeepSeq; simp)

theorem KeepSeq.set_pwr {s t : State} {v} (h : KeepSeq s t) : KeepSeq s { t with pwr := v } := h.trans (by unfold KeepSeq; simp)

theorem KeepSeq.set_l1 {s t : State} {v} (h : KeepSeq s t) : KeepSeq s { t with l1 := v } := h.trans (by unfold KeepSeq; simp)

theorem KeepSeq.set_irq {s t : State} {v} (h : KeepSeq s t) : KeepSeq s { t with irq := v } := h.trans (by unfold KeepSeq; simp)

theorem KeepSeq.set_llt {s t : State} {v} (h : KeepSeq s t) : KeepSeq s { t with llt := v } := h.trans (by unfold KeepSeq; simp)

theorem KeepSeq.set_hce {s t : State} {v} (h : KeepSeq s t) : KeepSeq s { t with hce := v } := h.trans (by unfold KeepSeq; simp)

theorem KeepSeq.set_lgr {s t : State} {v} (h : KeepSeq s t) : KeepSeq s { t with lgr := v } := h.trans (by unfold KeepSeq; simp)

theorem KeepSeq.set_xmt {s t : State} {v} (h : KeepSeq s t) : KeepSeq s { t with xmt := v } := h.trans (by unfold KeepSeq; simp)

theorem KeepSeq.set_rvr {s t : State} {v} (h : KeepSeq s t) : KeepSeq s { t with rvr := v } := h.trans (by unfold KeepSeq; simp)

theorem KeepSeq.set_cst {s t : State} {v} (h : KeepSeq s t) : KeepSeq s { t with cst := v } := h.trans (by unfold KeepSeq; simp)

theorem KeepSeq.set_asq {s t : State} {v} (h : KeepSeq s t) : KeepSeq s { t with asq := v } := h.trans (by unfold KeepSeq; simp)

theorem KeepSeq.set_rwc {s t : State} {v} (h : KeepSeq s t) : KeepSeq s { t with rwc := v } := h.trans (by unfold KeepSeq; simp)

theorem KeepSeq.set_ldp {s t : State} {v} (h : KeepSeq s t) : KeepSeq s { t with ldp := v } := h.trans (by unfold KeepSeq; simp)

theorem KeepSeq.set_tpe {s t : State} {v} (h : KeepSeq s t) : KeepSeq s { t with tpe := v } := h.trans (by unfold KeepSeq; simp)

theorem KeepSeq.set_sve {s t : State} {v} (h : KeepSeq s t) : KeepSeq s { t with sve := v } := h.trans (by unfold KeepSeq; simp)

theorem KeepSeq.set_spn {s t : State} {v} (h : KeepSeq s t) : KeepSeq s { t with spn := v } := h.trans (by unfold KeepSeq; simp)

theorem KeepSeq.set_psi {s t : State} {v} (h : KeepSeq s t) : KeepSeq s { t with psi := v } := h.trans (by unfold KeepSeq; simp)

theorem KeepSeq.set_lsr {s t : State} {v} (h : KeepSeq s t) : KeepSeq s { t with lsr := v } := h.trans (by unfold KeepSeq; simp)

theorem KeepSeq.set_opt {s t : State} {v} (h : KeepSeq s t) : KeepSeq s { t with opt := v } := h.trans (by unfold KeepSeq; simp)

theorem KeepSeq.set_dmc {s t : State} {v} (h : KeepSeq s t) : KeepSeq s { t with dmc := v } := h.trans (by unfold KeepSeq; simp)

theorem KeepSeq.set_bcc {s t : State} {v} (h : KeepSeq s t) : KeepSeq s { t with bcc := v } := h.trans (by unfold KeepSeq; simp)

theorem KeepSeq.set_sec {s t : State} {v} (h : KeepSeq s t) : KeepSeq s { t with sec := v } := h.trans (by unfold KeepSeq; simp)

theorem KeepSeq.set_thm {s t : State} {v} (h : KeepSeq s t) : KeepSeq s { t with thm := v } := h.trans (by unfold KeepSeq; simp)

theorem KeepSeq.set_trm {s t : State} {v} (h : KeepSeq s t) : KeepSeq s { t with trm := v } := h.trans (by unfold KeepSeq; simp)

theorem KeepSeq.set_sup {s t : State} {v} (h : KeepSeq s t) : KeepSeq s { t with sup := v } := h.trans (by unfold KeepSeq; simp)

theorem KeepSeq.set_evr {s t : State} {v} (h : KeepSeq s t) : KeepSeq s { t with evr := v } := h.trans (by unfold KeepSeq; simp)

theorem KeepSeq.set_lif {s t : State} {v} (h : KeepSeq s t) : KeepSeq s { t with lif := v } := h.trans (by unfold KeepSeq; simp)

theorem KeepSeq.set_cal {s t : State} {v} (h : KeepSeq s t) : KeepSeq s { t with cal := v } := h.trans (by unfold KeepSeq; simp)

theorem KeepSeq.set_vlk {s t : State} {v} (h : KeepSeq s t) : KeepSeq s { t with vlk := v } := h.trans (by unfold KeepSeq; simp)

theorem KeepSeq.set_busData_busErr_l1 {s t : State} {v0 v1 v2} (h : KeepSeq s t) : KeepSeq s { t with busData := v0, busErr := v1, l1 := v2 } := h.trans (by unfold KeepSeq; simp)

theorem KeepSeq.set_mem_dmc {s t : State} {v0 v1} (h : KeepSeq s t) : KeepSeq s { t with mem := v0, dmc := v1 } := h.trans (by unfold KeepSeq; simp)

theorem KeepSeq.set_clk_cal {s t : State} {v0 v1} (h : KeepSeq s t) : KeepSeq s { t with clk := v0, cal := v1 } := h.trans (by unfold KeepSeq; simp)

theorem KeepSeq.set_busData_cal {s t : State} {v0 v1} (h : KeepSeq s t) : KeepSeq s { t with busData := v0, cal := v1 } := h.trans (by unfold KeepSeq; simp)

theorem KeepSeq.set_busData_irq {s t : State} {v0 v1} (h : KeepSeq s t) : KeepSeq s { t with busData := v0, irq := v1 } := h.trans (by unfold KeepSeq; simp)

theorem KeepSeq.set_busData_tcm {s t : State} {v0 v1} (h : KeepSeq s t) : KeepSeq s { t with busData := v0, tcm := v1 } := h.trans (by unfold KeepSeq; simp)

theorem KeepSeq.set_busData_busErr {s t : State} {v0 v1} (h : KeepSeq s t) : KeepSeq s { t with busData := v0, busErr := v1 } := h.trans (by unfold KeepSeq; simp)

theorem KeepSeq_ev x0 x1 x2 x3 x4 s (h : KeepSeq o s) : KeepSeq o (ev x0 x1 x2 x3 x4 s) := by
  exact KeepSeq.of_frame h (frame_ev x0 x1 x2 x3 x4 s (m := 0x1800000100) (o := s) .refl rfl)

theorem KeepSeq_resetSteps x0 s (h : KeepSeq o s) : KeepSeq o (resetSteps x0 s) := by
  exact KeepSeq.of_frame h (frame_resetSteps x0 s (m := 0x1A1DB7E980) (o := s) .refl rfl)

theorem KeepSeq_stopController x0 x1 s (h : KeepSeq o s) : KeepSeq o (stopController x0 x1 s) := by
  exact KeepSeq.of_frame h (frame_stopController x0 x1 s (m := 0x1AEDB3F9A0) (o := s) .refl rfl)

theorem KeepSeq_calCount x0 s (h : KeepSeq o s) : KeepSeq o (calCount x0 s) := by
  exact KeepSeq.of_frame h (frame_calCount x0 s (m := 0x3800000910) (o := s) .refl rfl)

theorem KeepSeq_vlkCount x0 s (h : KeepSeq o s) : KeepSeq o (vlkCount x0 s) := by
  exact KeepSeq.of_frame h (frame_vlkCount x0 s (m := 0x4000000000) (o := s) .refl rfl)

theorem KeepSeq_elapse x0 s (h : KeepSeq o s) : KeepSeq o (elapse x0 s) := by
  unfold elapse; exact KeepSeq_calCount _ _ (KeepSeq_vlkCount _ _ (h.trans ⟨rfl, rfl, rfl⟩))

theorem KeepSeq_advanceTo x0 s (h : KeepSeq o s) : KeepSeq o (advanceTo x0 s) := by
  unfold advanceTo
  repeat' first | (with_reducible first | assumption | apply KeepSeq_elapse | apply KeepSeq.ite) | (intro y; first | exact ⟨rfl, rfl, rfl⟩ | (simp; done)) | split | dsimp only

end

section

variable {o : State}

/-- sup.loss, sys.railsGood are as they were. -/
def KeepLoss (s t : State) : Prop := t.sup.loss = s.sup.loss ∧ t.sys.railsGood = s.sys.railsGood

theorem KeepLoss.trans {s t u : State} (h : KeepLoss s t) (k : KeepLoss t u) : KeepLoss s u := by
  unfold KeepLoss at *; simp_all

theorem KeepLoss.refl {s : State} : KeepLoss s s := by unfold KeepLoss; simp

theorem KeepLoss.of_eq {s t u : State} (e : u = t) (h : KeepLoss s u) : KeepLoss s t := e ▸ h

theorem KeepLoss.of_frame {m : Nat} {s t u : State} (h : KeepLoss s t) (k : FrameB m t u) (esup : m.testBit 34 = false := by decide) (esys : m.testBit 9 = false := by decide) : KeepLoss s u := by
  refine h.trans ?_
  have e : u.sup = t.sup ∧ u.sys = t.sys := ⟨k .sup esup, k .sys esys⟩
  unfold KeepLoss; simp_all

theorem KeepLoss.ite {s t u : State} {c : Prop} {d : Decidable c} (h : KeepLoss s t) (k : KeepLoss s u) : KeepLoss s (if c then t else u) := by split <;> assumption

theorem KeepLoss.foldl {α : Type} {s t : State} {f : State → α → State} {l : List α} (h : KeepLoss s t) (k : ∀ u x, KeepLoss s u → KeepLoss s (f u x)) : KeepLoss s (l.foldl f t) := by
  induction l generalizing t with
  | nil => exact h
  | cons a l ih => exact ih (k t a h)

theorem KeepLoss.set_pending {s t : State} {v} (h : KeepLoss s t) : KeepLoss s { t with pending := v } := h.trans (by unfold KeepLoss; simp)

theorem KeepLoss.set_us {s t : State} {v} (h : KeepLoss s t) : KeepLoss s { t with us := v } := h.trans (by unfold KeepLoss; simp)

theorem KeepLoss.set_busData {s t : State} {v} (h : KeepLoss s t) : KeepLoss s { t with busData := v } := h.trans (by unfold KeepLoss; simp)

theorem KeepLoss.set_busErr {s t : State} {v} (h : KeepLoss s t) : KeepLoss s { t with busErr := v } := h.trans (by unfold KeepLoss; simp)

theorem KeepLoss.set_regs {s t : State} {v} (h : KeepLoss s t) : KeepLoss s { t with regs := v } := h.trans (by unfold KeepLoss; simp)

theorem KeepLoss.set_mem {s t : State} {v} (h : KeepLoss s t) : KeepLoss s { t with mem := v } := h.trans (by unfold KeepLoss; simp)

theorem KeepLoss.set_tcm {s t : State} {v} (h : KeepLoss s t) : KeepLoss s { t with tcm := v } := h.trans (by unfold KeepLoss; simp)

theorem KeepLoss.set_free {s t : State} {v} (h : KeepLoss s t) : KeepLoss s { t with free := v } := h.trans (by unfold KeepLoss; simp)

theorem KeepLoss.set_hdr {s t : State} {v} (h : KeepLoss s t) : KeepLoss s { t with hdr := v } := h.trans (by unfold KeepLoss; simp)

theorem KeepLoss.set_sys {s t : State} {v} (e : v.railsGood = t.sys.railsGood) (h : KeepLoss s t) : KeepLoss s { t with sys := v } := h.trans (by unfold KeepLoss; simp [e])

theorem KeepLoss.set_clk {s t : State} {v} (h : KeepLoss s t) : KeepLoss s { t with clk := v } := h.trans (by unfold KeepLoss; simp)

theorem KeepLoss.set_pwr {s t : State} {v} (h : KeepLoss s t) : KeepLoss s { t with pwr := v } := h.trans (by unfold KeepLoss; simp)

theorem KeepLoss.set_l1 {s t : State} {v} (h : KeepLoss s t) : KeepLoss s { t with l1 := v } := h.trans (by unfold KeepLoss; simp)

theorem KeepLoss.set_irq {s t : State} {v} (h : KeepLoss s t) : KeepLoss s { t with irq := v } := h.trans (by unfold KeepLoss; simp)

theorem KeepLoss.set_llt {s t : State} {v} (h : KeepLoss s t) : KeepLoss s { t with llt := v } := h.trans (by unfold KeepLoss; simp)

theorem KeepLoss.set_hce {s t : State} {v} (h : KeepLoss s t) : KeepLoss s { t with hce := v } := h.trans (by unfold KeepLoss; simp)

theorem KeepLoss.set_lgr {s t : State} {v} (h : KeepLoss s t) : KeepLoss s { t with lgr := v } := h.trans (by unfold KeepLoss; simp)

theorem KeepLoss.set_xmt {s t : State} {v} (h : KeepLoss s t) : KeepLoss s { t with xmt := v } := h.trans (by unfold KeepLoss; simp)

theorem KeepLoss.set_rvr {s t : State} {v} (h : KeepLoss s t) : KeepLoss s { t with rvr := v } := h.trans (by unfold KeepLoss; simp)

theorem KeepLoss.set_cst {s t : State} {v} (h : KeepLoss s t) : KeepLoss s { t with cst := v } := h.trans (by unfold KeepLoss; simp)

theorem KeepLoss.set_asq {s t : State} {v} (h : KeepLoss s t) : KeepLoss s { t with asq := v } := h.trans (by unfold KeepLoss; simp)

theorem KeepLoss.set_rwc {s t : State} {v} (h : KeepLoss s t) : KeepLoss s { t with rwc := v } := h.trans (by unfold KeepLoss; simp)

theorem KeepLoss.set_ldp {s t : State} {v} (h : KeepLoss s t) : KeepLoss s { t with ldp := v } := h.trans (by unfold KeepLoss; simp)

theorem KeepLoss.set_tpe {s t : State} {v} (h : KeepLoss s t) : KeepLoss s { t with tpe := v } := h.trans (by unfold KeepLoss; simp)

theorem KeepLoss.set_sve {s t : State} {v} (h : KeepLoss s t) : KeepLoss s { t with sve := v } := h.trans (by unfold KeepLoss; simp)

theorem KeepLoss.set_spn {s t : State} {v} (h : KeepLoss s t) : KeepLoss s { t with spn := v } := h.trans (by unfold KeepLoss; simp)

theorem KeepLoss.set_psi {s t : State} {v} (h : KeepLoss s t) : KeepLoss s { t with psi := v } := h.trans (by unfold KeepLoss; simp)

theorem KeepLoss.set_lsr {s t : State} {v} (h : KeepLoss s t) : KeepLoss s { t with lsr := v } := h.trans (by unfold KeepLoss; simp)

theorem KeepLoss.set_opt {s t : State} {v} (h : KeepLoss s t) : KeepLoss s { t with opt := v } := h.trans (by unfold KeepLoss; simp)

theorem KeepLoss.set_dmc {s t : State} {v} (h : KeepLoss s t) : KeepLoss s { t with dmc := v } := h.trans (by unfold KeepLoss; simp)

theorem KeepLoss.set_bcc {s t : State} {v} (h : KeepLoss s t) : KeepLoss s { t with bcc := v } := h.trans (by unfold KeepLoss; simp)

theorem KeepLoss.set_sec {s t : State} {v} (h : KeepLoss s t) : KeepLoss s { t with sec := v } := h.trans (by unfold KeepLoss; simp)

theorem KeepLoss.set_thm {s t : State} {v} (h : KeepLoss s t) : KeepLoss s { t with thm := v } := h.trans (by unfold KeepLoss; simp)

theorem KeepLoss.set_trm {s t : State} {v} (h : KeepLoss s t) : KeepLoss s { t with trm := v } := h.trans (by unfold KeepLoss; simp)

theorem KeepLoss.set_sup {s t : State} {v} (e : v.loss = t.sup.loss) (h : KeepLoss s t) : KeepLoss s { t with sup := v } := h.trans (by unfold KeepLoss; simp [e])

theorem KeepLoss.set_evr {s t : State} {v} (h : KeepLoss s t) : KeepLoss s { t with evr := v } := h.trans (by unfold KeepLoss; simp)

theorem KeepLoss.set_lif {s t : State} {v} (h : KeepLoss s t) : KeepLoss s { t with lif := v } := h.trans (by unfold KeepLoss; simp)

theorem KeepLoss.set_cal {s t : State} {v} (h : KeepLoss s t) : KeepLoss s { t with cal := v } := h.trans (by unfold KeepLoss; simp)

theorem KeepLoss.set_vlk {s t : State} {v} (h : KeepLoss s t) : KeepLoss s { t with vlk := v } := h.trans (by unfold KeepLoss; simp)

theorem KeepLoss.set_busData_busErr_l1 {s t : State} {v0 v1 v2} (h : KeepLoss s t) : KeepLoss s { t with busData := v0, busErr := v1, l1 := v2 } := h.trans (by unfold KeepLoss; simp)

theorem KeepLoss.set_mem_dmc {s t : State} {v0 v1} (h : KeepLoss s t) : KeepLoss s { t with mem := v0, dmc := v1 } := h.trans (by unfold KeepLoss; simp)

theorem KeepLoss.set_clk_cal {s t : State} {v0 v1} (h : KeepLoss s t) : KeepLoss s { t with clk := v0, cal := v1 } := h.trans (by unfold KeepLoss; simp)

theorem KeepLoss.set_busData_cal {s t : State} {v0 v1} (h : KeepLoss s t) : KeepLoss s { t with busData := v0, cal := v1 } := h.trans (by unfold KeepLoss; simp)

theorem KeepLoss.set_busData_irq {s t : State} {v0 v1} (h : KeepLoss s t) : KeepLoss s { t with busData := v0, irq := v1 } := h.trans (by unfold KeepLoss; simp)

theorem KeepLoss.set_busData_tcm {s t : State} {v0 v1} (h : KeepLoss s t) : KeepLoss s { t with busData := v0, tcm := v1 } := h.trans (by unfold KeepLoss; simp)

theorem KeepLoss.set_busData_busErr {s t : State} {v0 v1} (h : KeepLoss s t) : KeepLoss s { t with busData := v0, busErr := v1 } := h.trans (by unfold KeepLoss; simp)

theorem KeepLoss_raiseLine x0 s (h : KeepLoss o s) : KeepLoss o (raiseLine x0 s) := by
  exact KeepLoss.of_frame h (frame_raiseLine x0 s (m := 0x2000) (o := s) .refl rfl)

theorem KeepLoss_lifBump x0 x1 s (h : KeepLoss o s) : KeepLoss o (lifBump x0 x1 s) := by
  exact KeepLoss.of_frame h (frame_lifBump x0 x1 s (m := 0x1800000100) (o := s) .refl rfl)

theorem KeepLoss_retractLoaded x0 s (h : KeepLoss o s) : KeepLoss o (retractLoaded x0 s) := by
  exact KeepLoss.of_frame h (frame_retractLoaded x0 s (m := 0x1A1DB2A180) (o := s) .refl rfl)

theorem KeepLoss_enterRectify s (h : KeepLoss o s) : KeepLoss o (enterRectify s) := by
  exact KeepLoss.of_frame h (frame_enterRectify s (m := 0x1A1FB2A180) (o := s) .refl rfl)

theorem KeepLoss_lasersOff s (h : KeepLoss o s) : KeepLoss o (lasersOff s) := by
  exact KeepLoss.of_frame h (frame_lasersOff s (m := 0xC200000) (o := s) .refl rfl)

theorem KeepLoss_gatesAllOff s (h : KeepLoss o s) : KeepLoss o (gatesAllOff s) := by
  exact KeepLoss.of_frame h (frame_gatesAllOff s (m := 0xCB22000) (o := s) .refl rfl)

theorem KeepLoss_startCommit x0 s (h : KeepLoss o s) : KeepLoss o (startCommit x0 s) := by
  exact KeepLoss.of_frame h (frame_startCommit x0 s (m := 0x180005C100) (o := s) .refl rfl)

theorem KeepLoss_revokeLeaves x0 s (h : KeepLoss o s) : KeepLoss o (revokeLeaves x0 s) := by
  exact KeepLoss.of_frame h (frame_revokeLeaves x0 s (m := 0x1A0C306180) (o := s) .refl rfl)

theorem KeepLoss_closeFetch s (h : KeepLoss o s) : KeepLoss o (closeFetch s) := by
  exact KeepLoss.of_frame h (frame_closeFetch s (m := 0x8000) (o := s) .refl rfl)

theorem KeepLoss_enterDim s (h : KeepLoss o s) : KeepLoss o (enterDim s) := by
  exact KeepLoss.of_frame h (frame_enterDim s (m := 0x1800018980) (o := s) .refl rfl)

theorem KeepLoss_zeroForPowerDown s (h : KeepLoss o s) : KeepLoss o (zeroForPowerDown s) := by
  exact KeepLoss.of_frame h (frame_zeroForPowerDown s (m := 0x4080000000) (o := s) .refl rfl)

theorem KeepLoss_calCount x0 s (h : KeepLoss o s) : KeepLoss o (calCount x0 s) := by
  exact KeepLoss.of_frame h (frame_calCount x0 s (m := 0x3800000910) (o := s) .refl rfl)

theorem KeepLoss_vlkCount x0 s (h : KeepLoss o s) : KeepLoss o (vlkCount x0 s) := by
  exact KeepLoss.of_frame h (frame_vlkCount x0 s (m := 0x4000000000) (o := s) .refl rfl)

theorem KeepLoss_elapse x0 s (h : KeepLoss o s) : KeepLoss o (elapse x0 s) := by
  unfold elapse; exact KeepLoss_calCount _ _ (KeepLoss_vlkCount _ _ (h.trans ⟨rfl, rfl⟩))

end

section

variable {o : State}

/-- llt.therm, llt.episode are as they were. -/
def KeepTherm (s t : State) : Prop := t.llt.therm = s.llt.therm ∧ t.llt.episode = s.llt.episode

theorem KeepTherm.trans {s t u : State} (h : KeepTherm s t) (k : KeepTherm t u) : KeepTherm s u := by
  unfold KeepTherm at *; simp_all

theorem KeepTherm.refl {s : State} : KeepTherm s s := by unfold KeepTherm; simp

theorem KeepTherm.of_eq {s t u : State} (e : u = t) (h : KeepTherm s u) : KeepTherm s t := e ▸ h

theorem KeepTherm.of_frame {m : Nat} {s t u : State} (h : KeepTherm s t) (k : FrameB m t u) (ellt : m.testBit 14 = false := by decide) : KeepTherm s u := by
  refine h.trans ?_
  have e : u.llt = t.llt := k .llt ellt
  unfold KeepTherm; simp_all

theorem KeepTherm.ite {s t u : State} {c : Prop} {d : Decidable c} (h : KeepTherm s t) (k : KeepTherm s u) : KeepTherm s (if c then t else u) := by split <;> assumption

theorem KeepTherm.foldl {α : Type} {s t : State} {f : State → α → State} {l : List α} (h : KeepTherm s t) (k : ∀ u x, KeepTherm s u → KeepTherm s (f u x)) : KeepTherm s (l.foldl f t) := by
  induction l generalizing t with
  | nil => exact h
  | cons a l ih => exact ih (k t a h)

theorem KeepTherm.set_pending {s t : State} {v} (h : KeepTherm s t) : KeepTherm s { t with pending := v } := h.trans (by unfold KeepTherm; simp)

theorem KeepTherm.set_us {s t : State} {v} (h : KeepTherm s t) : KeepTherm s { t with us := v } := h.trans (by unfold KeepTherm; simp)

theorem KeepTherm.set_busData {s t : State} {v} (h : KeepTherm s t) : KeepTherm s { t with busData := v } := h.trans (by unfold KeepTherm; simp)

theorem KeepTherm.set_busErr {s t : State} {v} (h : KeepTherm s t) : KeepTherm s { t with busErr := v } := h.trans (by unfold KeepTherm; simp)

theorem KeepTherm.set_regs {s t : State} {v} (h : KeepTherm s t) : KeepTherm s { t with regs := v } := h.trans (by unfold KeepTherm; simp)

theorem KeepTherm.set_mem {s t : State} {v} (h : KeepTherm s t) : KeepTherm s { t with mem := v } := h.trans (by unfold KeepTherm; simp)

theorem KeepTherm.set_tcm {s t : State} {v} (h : KeepTherm s t) : KeepTherm s { t with tcm := v } := h.trans (by unfold KeepTherm; simp)

theorem KeepTherm.set_free {s t : State} {v} (h : KeepTherm s t) : KeepTherm s { t with free := v } := h.trans (by unfold KeepTherm; simp)

theorem KeepTherm.set_hdr {s t : State} {v} (h : KeepTherm s t) : KeepTherm s { t with hdr := v } := h.trans (by unfold KeepTherm; simp)

theorem KeepTherm.set_sys {s t : State} {v} (h : KeepTherm s t) : KeepTherm s { t with sys := v } := h.trans (by unfold KeepTherm; simp)

theorem KeepTherm.set_clk {s t : State} {v} (h : KeepTherm s t) : KeepTherm s { t with clk := v } := h.trans (by unfold KeepTherm; simp)

theorem KeepTherm.set_pwr {s t : State} {v} (h : KeepTherm s t) : KeepTherm s { t with pwr := v } := h.trans (by unfold KeepTherm; simp)

theorem KeepTherm.set_l1 {s t : State} {v} (h : KeepTherm s t) : KeepTherm s { t with l1 := v } := h.trans (by unfold KeepTherm; simp)

theorem KeepTherm.set_irq {s t : State} {v} (h : KeepTherm s t) : KeepTherm s { t with irq := v } := h.trans (by unfold KeepTherm; simp)

theorem KeepTherm.set_llt {s t : State} {v} (e : v.therm = t.llt.therm ∧ v.episode = t.llt.episode) (h : KeepTherm s t) : KeepTherm s { t with llt := v } := h.trans (by unfold KeepTherm; simp [e])

theorem KeepTherm.set_hce {s t : State} {v} (h : KeepTherm s t) : KeepTherm s { t with hce := v } := h.trans (by unfold KeepTherm; simp)

theorem KeepTherm.set_lgr {s t : State} {v} (h : KeepTherm s t) : KeepTherm s { t with lgr := v } := h.trans (by unfold KeepTherm; simp)

theorem KeepTherm.set_xmt {s t : State} {v} (h : KeepTherm s t) : KeepTherm s { t with xmt := v } := h.trans (by unfold KeepTherm; simp)

theorem KeepTherm.set_rvr {s t : State} {v} (h : KeepTherm s t) : KeepTherm s { t with rvr := v } := h.trans (by unfold KeepTherm; simp)

theorem KeepTherm.set_cst {s t : State} {v} (h : KeepTherm s t) : KeepTherm s { t with cst := v } := h.trans (by unfold KeepTherm; simp)

theorem KeepTherm.set_asq {s t : State} {v} (h : KeepTherm s t) : KeepTherm s { t with asq := v } := h.trans (by unfold KeepTherm; simp)

theorem KeepTherm.set_rwc {s t : State} {v} (h : KeepTherm s t) : KeepTherm s { t with rwc := v } := h.trans (by unfold KeepTherm; simp)

theorem KeepTherm.set_ldp {s t : State} {v} (h : KeepTherm s t) : KeepTherm s { t with ldp := v } := h.trans (by unfold KeepTherm; simp)

theorem KeepTherm.set_tpe {s t : State} {v} (h : KeepTherm s t) : KeepTherm s { t with tpe := v } := h.trans (by unfold KeepTherm; simp)

theorem KeepTherm.set_sve {s t : State} {v} (h : KeepTherm s t) : KeepTherm s { t with sve := v } := h.trans (by unfold KeepTherm; simp)

theorem KeepTherm.set_spn {s t : State} {v} (h : KeepTherm s t) : KeepTherm s { t with spn := v } := h.trans (by unfold KeepTherm; simp)

theorem KeepTherm.set_psi {s t : State} {v} (h : KeepTherm s t) : KeepTherm s { t with psi := v } := h.trans (by unfold KeepTherm; simp)

theorem KeepTherm.set_lsr {s t : State} {v} (h : KeepTherm s t) : KeepTherm s { t with lsr := v } := h.trans (by unfold KeepTherm; simp)

theorem KeepTherm.set_opt {s t : State} {v} (h : KeepTherm s t) : KeepTherm s { t with opt := v } := h.trans (by unfold KeepTherm; simp)

theorem KeepTherm.set_dmc {s t : State} {v} (h : KeepTherm s t) : KeepTherm s { t with dmc := v } := h.trans (by unfold KeepTherm; simp)

theorem KeepTherm.set_bcc {s t : State} {v} (h : KeepTherm s t) : KeepTherm s { t with bcc := v } := h.trans (by unfold KeepTherm; simp)

theorem KeepTherm.set_sec {s t : State} {v} (h : KeepTherm s t) : KeepTherm s { t with sec := v } := h.trans (by unfold KeepTherm; simp)

theorem KeepTherm.set_thm {s t : State} {v} (h : KeepTherm s t) : KeepTherm s { t with thm := v } := h.trans (by unfold KeepTherm; simp)

theorem KeepTherm.set_trm {s t : State} {v} (h : KeepTherm s t) : KeepTherm s { t with trm := v } := h.trans (by unfold KeepTherm; simp)

theorem KeepTherm.set_sup {s t : State} {v} (h : KeepTherm s t) : KeepTherm s { t with sup := v } := h.trans (by unfold KeepTherm; simp)

theorem KeepTherm.set_evr {s t : State} {v} (h : KeepTherm s t) : KeepTherm s { t with evr := v } := h.trans (by unfold KeepTherm; simp)

theorem KeepTherm.set_lif {s t : State} {v} (h : KeepTherm s t) : KeepTherm s { t with lif := v } := h.trans (by unfold KeepTherm; simp)

theorem KeepTherm.set_cal {s t : State} {v} (h : KeepTherm s t) : KeepTherm s { t with cal := v } := h.trans (by unfold KeepTherm; simp)

theorem KeepTherm.set_vlk {s t : State} {v} (h : KeepTherm s t) : KeepTherm s { t with vlk := v } := h.trans (by unfold KeepTherm; simp)

theorem KeepTherm.set_busData_busErr_l1 {s t : State} {v0 v1 v2} (h : KeepTherm s t) : KeepTherm s { t with busData := v0, busErr := v1, l1 := v2 } := h.trans (by unfold KeepTherm; simp)

theorem KeepTherm.set_mem_dmc {s t : State} {v0 v1} (h : KeepTherm s t) : KeepTherm s { t with mem := v0, dmc := v1 } := h.trans (by unfold KeepTherm; simp)

theorem KeepTherm.set_clk_cal {s t : State} {v0 v1} (h : KeepTherm s t) : KeepTherm s { t with clk := v0, cal := v1 } := h.trans (by unfold KeepTherm; simp)

theorem KeepTherm.set_busData_cal {s t : State} {v0 v1} (h : KeepTherm s t) : KeepTherm s { t with busData := v0, cal := v1 } := h.trans (by unfold KeepTherm; simp)

theorem KeepTherm.set_busData_irq {s t : State} {v0 v1} (h : KeepTherm s t) : KeepTherm s { t with busData := v0, irq := v1 } := h.trans (by unfold KeepTherm; simp)

theorem KeepTherm.set_busData_tcm {s t : State} {v0 v1} (h : KeepTherm s t) : KeepTherm s { t with busData := v0, tcm := v1 } := h.trans (by unfold KeepTherm; simp)

theorem KeepTherm.set_busData_busErr {s t : State} {v0 v1} (h : KeepTherm s t) : KeepTherm s { t with busData := v0, busErr := v1 } := h.trans (by unfold KeepTherm; simp)

theorem KeepTherm.set_us_sys {s t : State} {v0 v1} (h : KeepTherm s t) : KeepTherm s { t with us := v0, sys := v1 } := h.trans (by unfold KeepTherm; simp)

theorem KeepTherm_State_modLlt x0 s (h : KeepTherm o s) (e : ∀ y, (x0 y).therm = y.therm ∧ (x0 y).episode = y.episode) : KeepTherm o (State.modLlt x0 s) := KeepTherm.set_llt (e _) h

theorem KeepTherm_State_modPort x0 x1 s (h : KeepTherm o s) : KeepTherm o (State.modPort x0 x1 s) := by
  unfold State.modPort
  repeat' first | (with_reducible first | assumption | apply KeepTherm.ite) | fail_if_no_progress ((with_reducible apply KeepTherm.set_llt); (first | exact ⟨rfl, rfl⟩ | (simp; done))) | (intro y; first | exact ⟨rfl, rfl⟩ | (simp; done)) | split | dsimp only

theorem KeepTherm_countClass x0 x1 s (h : KeepTherm o s) : KeepTherm o (countClass x0 x1 s) := by
  unfold countClass
  repeat' first | (with_reducible first | assumption | apply KeepTherm_State_modLlt | apply KeepTherm.ite) | (intro y; first | exact ⟨rfl, rfl⟩ | (simp; done)) | split | dsimp only

theorem KeepTherm_freeTicket x0 s (h : KeepTherm o s) : KeepTherm o (freeTicket x0 s) := by
  unfold freeTicket
  repeat' first | (with_reducible first | assumption | apply KeepTherm_State_modLlt | apply KeepTherm.ite) | (intro y; first | exact ⟨rfl, rfl⟩ | (simp; done)) | split | dsimp only

theorem KeepTherm_modTicket x0 x1 s (h : KeepTherm o s) : KeepTherm o (modTicket x0 x1 s) := by
  unfold modTicket
  repeat' first | (with_reducible first | assumption | apply KeepTherm_State_modLlt | apply KeepTherm.ite) | (intro y; first | exact ⟨rfl, rfl⟩ | (simp; done)) | split | dsimp only

theorem KeepTherm_portLine x0 s (h : KeepTherm o s) : KeepTherm o (portLine x0 s) := by
  exact KeepTherm.of_frame h (frame_portLine x0 s (m := 0x2000) (o := s) .refl rfl)

theorem KeepTherm_grantTicket x0 s (h : KeepTherm o s) : KeepTherm o (grantTicket x0 s) := by
  unfold grantTicket
  repeat' first | (with_reducible first | assumption | apply KeepTherm_State_modLlt | apply KeepTherm_State_modPort | apply KeepTherm_countClass | apply KeepTherm_freeTicket | apply KeepTherm_modTicket | apply KeepTherm_portLine | apply KeepTherm.ite) | (intro y; first | exact ⟨rfl, rfl⟩ | (simp; done)) | split | dsimp only

theorem KeepTherm_walkFrom x0 x1 s (h : KeepTherm o s) : KeepTherm o (walkFrom x0 x1 s) := by
  induction x0 generalizing x1 s  with
  | nil => unfold walkFrom; exact h
  | cons _ _ ih =>
    unfold walkFrom
    repeat' first | (with_reducible first | assumption | apply KeepTherm_grantTicket | apply KeepTherm.ite) | ((with_reducible apply ih)) | (intro y; first | exact ⟨rfl, rfl⟩ | (simp; done)) | split | dsimp only

theorem KeepTherm_walkQueue s (h : KeepTherm o s) : KeepTherm o (walkQueue s) := by
  unfold walkQueue
  repeat' first | (with_reducible first | assumption | apply KeepTherm_walkFrom | apply KeepTherm.ite) | (intro y; first | exact ⟨rfl, rfl⟩ | (simp; done)) | split | dsimp only

end

section

variable {o : State}

/-- hce.tags are as they were. -/
def KeepTags (s t : State) : Prop := t.hce.tags = s.hce.tags

theorem KeepTags.trans {s t u : State} (h : KeepTags s t) (k : KeepTags t u) : KeepTags s u := by
  unfold KeepTags at *; simp_all

theorem KeepTags.refl {s : State} : KeepTags s s := by unfold KeepTags; simp

theorem KeepTags.of_eq {s t u : State} (e : u = t) (h : KeepTags s u) : KeepTags s t := e ▸ h

theorem KeepTags.of_frame {m : Nat} {s t u : State} (h : KeepTags s t) (k : FrameB m t u) (ehce : m.testBit 15 = false := by decide) : KeepTags s u := by
  refine h.trans ?_
  have e : u.hce = t.hce := k .hce ehce
  unfold KeepTags; simp_all

theorem KeepTags.ite {s t u : State} {c : Prop} {d : Decidable c} (h : KeepTags s t) (k : KeepTags s u) : KeepTags s (if c then t else u) := by split <;> assumption

theorem KeepTags.foldl {α : Type} {s t : State} {f : State → α → State} {l : List α} (h : KeepTags s t) (k : ∀ u x, KeepTags s u → KeepTags s (f u x)) : KeepTags s (l.foldl f t) := by
  induction l generalizing t with
  | nil => exact h
  | cons a l ih => exact ih (k t a h)

theorem KeepTags.set_pending {s t : State} {v} (h : KeepTags s t) : KeepTags s { t with pending := v } := h.trans (by unfold KeepTags; simp)

theorem KeepTags.set_us {s t : State} {v} (h : KeepTags s t) : KeepTags s { t with us := v } := h.trans (by unfold KeepTags; simp)

theorem KeepTags.set_busData {s t : State} {v} (h : KeepTags s t) : KeepTags s { t with busData := v } := h.trans (by unfold KeepTags; simp)

theorem KeepTags.set_busErr {s t : State} {v} (h : KeepTags s t) : KeepTags s { t with busErr := v } := h.trans (by unfold KeepTags; simp)

theorem KeepTags.set_regs {s t : State} {v} (h : KeepTags s t) : KeepTags s { t with regs := v } := h.trans (by unfold KeepTags; simp)

theorem KeepTags.set_mem {s t : State} {v} (h : KeepTags s t) : KeepTags s { t with mem := v } := h.trans (by unfold KeepTags; simp)

theorem KeepTags.set_tcm {s t : State} {v} (h : KeepTags s t) : KeepTags s { t with tcm := v } := h.trans (by unfold KeepTags; simp)

theorem KeepTags.set_free {s t : State} {v} (h : KeepTags s t) : KeepTags s { t with free := v } := h.trans (by unfold KeepTags; simp)

theorem KeepTags.set_hdr {s t : State} {v} (h : KeepTags s t) : KeepTags s { t with hdr := v } := h.trans (by unfold KeepTags; simp)

theorem KeepTags.set_sys {s t : State} {v} (h : KeepTags s t) : KeepTags s { t with sys := v } := h.trans (by unfold KeepTags; simp)

theorem KeepTags.set_clk {s t : State} {v} (h : KeepTags s t) : KeepTags s { t with clk := v } := h.trans (by unfold KeepTags; simp)

theorem KeepTags.set_pwr {s t : State} {v} (h : KeepTags s t) : KeepTags s { t with pwr := v } := h.trans (by unfold KeepTags; simp)

theorem KeepTags.set_l1 {s t : State} {v} (h : KeepTags s t) : KeepTags s { t with l1 := v } := h.trans (by unfold KeepTags; simp)

theorem KeepTags.set_irq {s t : State} {v} (h : KeepTags s t) : KeepTags s { t with irq := v } := h.trans (by unfold KeepTags; simp)

theorem KeepTags.set_llt {s t : State} {v} (h : KeepTags s t) : KeepTags s { t with llt := v } := h.trans (by unfold KeepTags; simp)

theorem KeepTags.set_hce {s t : State} {v} (e : v.tags = t.hce.tags) (h : KeepTags s t) : KeepTags s { t with hce := v } := h.trans (by unfold KeepTags; simp [e])

theorem KeepTags.set_lgr {s t : State} {v} (h : KeepTags s t) : KeepTags s { t with lgr := v } := h.trans (by unfold KeepTags; simp)

theorem KeepTags.set_xmt {s t : State} {v} (h : KeepTags s t) : KeepTags s { t with xmt := v } := h.trans (by unfold KeepTags; simp)

theorem KeepTags.set_rvr {s t : State} {v} (h : KeepTags s t) : KeepTags s { t with rvr := v } := h.trans (by unfold KeepTags; simp)

theorem KeepTags.set_cst {s t : State} {v} (h : KeepTags s t) : KeepTags s { t with cst := v } := h.trans (by unfold KeepTags; simp)

theorem KeepTags.set_asq {s t : State} {v} (h : KeepTags s t) : KeepTags s { t with asq := v } := h.trans (by unfold KeepTags; simp)

theorem KeepTags.set_rwc {s t : State} {v} (h : KeepTags s t) : KeepTags s { t with rwc := v } := h.trans (by unfold KeepTags; simp)

theorem KeepTags.set_ldp {s t : State} {v} (h : KeepTags s t) : KeepTags s { t with ldp := v } := h.trans (by unfold KeepTags; simp)

theorem KeepTags.set_tpe {s t : State} {v} (h : KeepTags s t) : KeepTags s { t with tpe := v } := h.trans (by unfold KeepTags; simp)

theorem KeepTags.set_sve {s t : State} {v} (h : KeepTags s t) : KeepTags s { t with sve := v } := h.trans (by unfold KeepTags; simp)

theorem KeepTags.set_spn {s t : State} {v} (h : KeepTags s t) : KeepTags s { t with spn := v } := h.trans (by unfold KeepTags; simp)

theorem KeepTags.set_psi {s t : State} {v} (h : KeepTags s t) : KeepTags s { t with psi := v } := h.trans (by unfold KeepTags; simp)

theorem KeepTags.set_lsr {s t : State} {v} (h : KeepTags s t) : KeepTags s { t with lsr := v } := h.trans (by unfold KeepTags; simp)

theorem KeepTags.set_opt {s t : State} {v} (h : KeepTags s t) : KeepTags s { t with opt := v } := h.trans (by unfold KeepTags; simp)

theorem KeepTags.set_dmc {s t : State} {v} (h : KeepTags s t) : KeepTags s { t with dmc := v } := h.trans (by unfold KeepTags; simp)

theorem KeepTags.set_bcc {s t : State} {v} (h : KeepTags s t) : KeepTags s { t with bcc := v } := h.trans (by unfold KeepTags; simp)

theorem KeepTags.set_sec {s t : State} {v} (h : KeepTags s t) : KeepTags s { t with sec := v } := h.trans (by unfold KeepTags; simp)

theorem KeepTags.set_thm {s t : State} {v} (h : KeepTags s t) : KeepTags s { t with thm := v } := h.trans (by unfold KeepTags; simp)

theorem KeepTags.set_trm {s t : State} {v} (h : KeepTags s t) : KeepTags s { t with trm := v } := h.trans (by unfold KeepTags; simp)

theorem KeepTags.set_sup {s t : State} {v} (h : KeepTags s t) : KeepTags s { t with sup := v } := h.trans (by unfold KeepTags; simp)

theorem KeepTags.set_evr {s t : State} {v} (h : KeepTags s t) : KeepTags s { t with evr := v } := h.trans (by unfold KeepTags; simp)

theorem KeepTags.set_lif {s t : State} {v} (h : KeepTags s t) : KeepTags s { t with lif := v } := h.trans (by unfold KeepTags; simp)

theorem KeepTags.set_cal {s t : State} {v} (h : KeepTags s t) : KeepTags s { t with cal := v } := h.trans (by unfold KeepTags; simp)

theorem KeepTags.set_vlk {s t : State} {v} (h : KeepTags s t) : KeepTags s { t with vlk := v } := h.trans (by unfold KeepTags; simp)

theorem KeepTags.set_many14 {s t : State} {v0 v1 v2 v3 v4 v5 v6 v7 v8 v9 v10 v11 v12 v13} (h : KeepTags s t) : KeepTags s { t with us := v0, regs := v1, mem := v2, hdr := v3, sys := v4, clk := v5, pwr := v6, llt := v7, sec := v8, thm := v9, sup := v10, evr := v11, lif := v12, cal := v13 } := h.trans (by unfold KeepTags; simp)

theorem KeepTags.set_busData_busErr_l1 {s t : State} {v0 v1 v2} (h : KeepTags s t) : KeepTags s { t with busData := v0, busErr := v1, l1 := v2 } := h.trans (by unfold KeepTags; simp)

theorem KeepTags.set_mem_dmc {s t : State} {v0 v1} (h : KeepTags s t) : KeepTags s { t with mem := v0, dmc := v1 } := h.trans (by unfold KeepTags; simp)

theorem KeepTags.set_clk_cal {s t : State} {v0 v1} (h : KeepTags s t) : KeepTags s { t with clk := v0, cal := v1 } := h.trans (by unfold KeepTags; simp)

theorem KeepTags.set_busData_cal {s t : State} {v0 v1} (h : KeepTags s t) : KeepTags s { t with busData := v0, cal := v1 } := h.trans (by unfold KeepTags; simp)

theorem KeepTags.set_busData_irq {s t : State} {v0 v1} (h : KeepTags s t) : KeepTags s { t with busData := v0, irq := v1 } := h.trans (by unfold KeepTags; simp)

theorem KeepTags.set_busData_tcm {s t : State} {v0 v1} (h : KeepTags s t) : KeepTags s { t with busData := v0, tcm := v1 } := h.trans (by unfold KeepTags; simp)

theorem KeepTags.set_busData_busErr {s t : State} {v0 v1} (h : KeepTags s t) : KeepTags s { t with busData := v0, busErr := v1 } := h.trans (by unfold KeepTags; simp)

theorem KeepTags.set_us_sys {s t : State} {v0 v1} (h : KeepTags s t) : KeepTags s { t with us := v0, sys := v1 } := h.trans (by unfold KeepTags; simp)

theorem KeepTags_dropEntry x0 s (h : KeepTags o s) : KeepTags o (dropEntry x0 s) := by
  exact KeepTags.of_frame h (frame_dropEntry x0 s (m := 0x10000) (o := s) .refl rfl)

theorem KeepTags_State_drawn s (h : KeepTags o s) : KeepTags o (State.drawn s) := by
  exact KeepTags.of_frame h (frame_State_drawn s (m := 0x80) (o := s) .refl rfl)

theorem KeepTags_State_modCtrl x0 x1 s (h : KeepTags o s) : KeepTags o (State.modCtrl x0 x1 s) := by
  unfold State.modCtrl
  repeat' first | (with_reducible first | assumption | apply KeepTags.ite) | fail_if_no_progress ((with_reducible apply KeepTags.set_hce); (first | exact rfl | (simp; done))) | (intro y; first | exact rfl | (simp; done)) | split | dsimp only

theorem KeepTags_State_modHce x0 s (h : KeepTags o s) (e : ∀ y, (x0 y).tags = y.tags) : KeepTags o (State.modHce x0 s) := KeepTags.set_hce (e _) h

theorem KeepTags_modCmd x0 x1 s (h : KeepTags o s) (e : ∀ y, (x1 y).tag = y.tag) : KeepTags o (modCmd x0 x1 s) := KeepTags.set_hce (e := tags_mod e) h

theorem KeepTags_releaseReader x0 s (h : KeepTags o s) : KeepTags o (releaseReader x0 s) := by
  exact KeepTags.of_frame h (frame_releaseReader x0 s (m := 0x10000) (o := s) .refl rfl)

theorem KeepTags_finishDw x0 x1 x2 x3 s (h : KeepTags o s) : KeepTags o (finishDw x0 x1 x2 x3 s) := by
  unfold finishDw
  repeat' first | (with_reducible first | assumption | apply KeepTags_State_drawn | apply KeepTags_State_modCtrl | apply KeepTags_modCmd | apply KeepTags_releaseReader | apply KeepTags.ite) | (intro y; first | exact rfl | (simp; done)) | split | dsimp only

theorem KeepTags_finish x0 x1 s (h : KeepTags o s) : KeepTags o (finish x0 x1 s) := by
  unfold finish
  repeat' first | (with_reducible first | assumption | apply KeepTags_finishDw | apply KeepTags.ite) | (intro y; first | exact rfl | (simp; done)) | split | dsimp only

theorem KeepTags_State_modXmt x0 s (h : KeepTags o s) : KeepTags o (State.modXmt x0 s) := by
  exact KeepTags.of_frame h (frame_State_modXmt x0 s (m := 0x20000) (o := s) .refl rfl)

theorem KeepTags_modZone x0 x1 s (h : KeepTags o s) : KeepTags o (modZone x0 x1 s) := by
  exact KeepTags.of_frame h (frame_modZone x0 x1 s (m := 0x20000) (o := s) .refl rfl)

theorem KeepTags_zoneDrop x0 s (h : KeepTags o s) : KeepTags o (zoneDrop x0 s) := by
  unfold zoneDrop
  repeat' first | (with_reducible first | assumption | apply KeepTags_dropEntry | apply KeepTags_finish | apply KeepTags_modZone | refine KeepTags.foldl ?_ (fun _ _ _ => ?_) | apply KeepTags.ite) | (intro y; first | exact rfl | (simp; done)) | split | dsimp only

theorem KeepTags_dropWrite x0 s (h : KeepTags o s) : KeepTags o (dropWrite x0 s) := by
  unfold dropWrite
  repeat' first | (with_reducible first | assumption | apply KeepTags_dropEntry | apply KeepTags_zoneDrop | apply KeepTags.ite) | (intro y; first | exact rfl | (simp; done)) | split | dsimp only

theorem KeepTags_ev x0 x1 x2 x3 x4 s (h : KeepTags o s) : KeepTags o (ev x0 x1 x2 x3 x4 s) := by
  exact KeepTags.of_frame h (frame_ev x0 x1 x2 x3 x4 s (m := 0x1800000100) (o := s) .refl rfl)

theorem KeepTags_raiseLine x0 s (h : KeepTags o s) : KeepTags o (raiseLine x0 s) := by
  exact KeepTags.of_frame h (frame_raiseLine x0 s (m := 0x2000) (o := s) .refl rfl)

theorem KeepTags_exception x0 x1 s (h : KeepTags o s) : KeepTags o (exception x0 x1 s) := by
  unfold exception
  repeat' first | (with_reducible first | assumption | apply KeepTags_State_modCtrl | apply KeepTags_ev | apply KeepTags_modCmd | apply KeepTags_raiseLine | apply KeepTags.ite) | (intro y; first | exact rfl | (simp; done)) | split | dsimp only

theorem KeepTags_State_modRvr x0 s (h : KeepTags o s) : KeepTags o (State.modRvr x0 s) := by
  exact KeepTags.of_frame h (frame_State_modRvr x0 s (m := 0x40000) (o := s) .refl rfl)

theorem KeepTags_asyncEvent x0 x1 s (h : KeepTags o s) : KeepTags o (asyncEvent x0 x1 s) := by
  unfold asyncEvent
  repeat' first | (with_reducible first | assumption | apply KeepTags_State_modCtrl | apply KeepTags_finishDw | apply KeepTags.ite) | (intro y; first | exact rfl | (simp; done)) | split | dsimp only

theorem KeepTags_sanOver x0 s (h : KeepTags o s) : KeepTags o (sanOver x0 s) := by
  unfold sanOver
  repeat' first | (with_reducible first | assumption | apply KeepTags_State_modHce | apply KeepTags_State_modRvr | apply KeepTags_State_modXmt | apply KeepTags_asyncEvent | refine KeepTags.foldl ?_ (fun _ _ _ => ?_) | apply KeepTags.ite) | (intro y; first | exact rfl | (simp; done)) | split | dsimp only

theorem KeepTags_journal x0 x1 x2 x3 x4 x5 s (h : KeepTags o s) : KeepTags o (journal x0 x1 x2 x3 x4 x5 s) := by
  exact KeepTags.of_frame h (frame_journal x0 x1 x2 x3 x4 x5 s (m := 0x20000) (o := s) .refl rfl)

theorem KeepTags_sanTables x0 s (h : KeepTags o s) : KeepTags o (sanTables x0 s) := by
  exact KeepTags.of_frame h (frame_sanTables x0 s (m := 0x20000) (o := s) .refl rfl)

theorem KeepTags_sanStart x0 s (h : KeepTags o s) : KeepTags o (sanStart x0 s) := by
  unfold sanStart
  repeat' first | (with_reducible first | assumption | apply KeepTags_State_modHce | apply KeepTags_State_modRvr | apply KeepTags_State_modXmt | apply KeepTags_dropEntry | apply KeepTags_journal | refine KeepTags.foldl ?_ (fun _ _ _ => ?_) | apply KeepTags.ite) | (intro y; first | exact rfl | (simp; done)) | split | dsimp only

theorem KeepTags_replaceKey x0 s (h : KeepTags o s) : KeepTags o (replaceKey x0 s) := by
  exact KeepTags.of_frame h (frame_replaceKey x0 s (m := 0x80000080) (o := s) .refl rfl)

end

section

variable {o : State}

/-- xmt.migs are as they were. -/
def KeepMigs (s t : State) : Prop := t.xmt.migs = s.xmt.migs

theorem KeepMigs.trans {s t u : State} (h : KeepMigs s t) (k : KeepMigs t u) : KeepMigs s u := by
  unfold KeepMigs at *; simp_all

theorem KeepMigs.refl {s : State} : KeepMigs s s := by unfold KeepMigs; simp

theorem KeepMigs.of_eq {s t u : State} (e : u = t) (h : KeepMigs s u) : KeepMigs s t := e ▸ h

theorem KeepMigs.of_frame {m : Nat} {s t u : State} (h : KeepMigs s t) (k : FrameB m t u) (exmt : m.testBit 17 = false := by decide) : KeepMigs s u := by
  refine h.trans ?_
  have e : u.xmt = t.xmt := k .xmt exmt
  unfold KeepMigs; simp_all

theorem KeepMigs.ite {s t u : State} {c : Prop} {d : Decidable c} (h : KeepMigs s t) (k : KeepMigs s u) : KeepMigs s (if c then t else u) := by split <;> assumption

theorem KeepMigs.foldl {α : Type} {s t : State} {f : State → α → State} {l : List α} (h : KeepMigs s t) (k : ∀ u x, KeepMigs s u → KeepMigs s (f u x)) : KeepMigs s (l.foldl f t) := by
  induction l generalizing t with
  | nil => exact h
  | cons a l ih => exact ih (k t a h)

theorem KeepMigs.set_pending {s t : State} {v} (h : KeepMigs s t) : KeepMigs s { t with pending := v } := h.trans (by unfold KeepMigs; simp)

theorem KeepMigs.set_us {s t : State} {v} (h : KeepMigs s t) : KeepMigs s { t with us := v } := h.trans (by unfold KeepMigs; simp)

theorem KeepMigs.set_busData {s t : State} {v} (h : KeepMigs s t) : KeepMigs s { t with busData := v } := h.trans (by unfold KeepMigs; simp)

theorem KeepMigs.set_busErr {s t : State} {v} (h : KeepMigs s t) : KeepMigs s { t with busErr := v } := h.trans (by unfold KeepMigs; simp)

theorem KeepMigs.set_regs {s t : State} {v} (h : KeepMigs s t) : KeepMigs s { t with regs := v } := h.trans (by unfold KeepMigs; simp)

theorem KeepMigs.set_mem {s t : State} {v} (h : KeepMigs s t) : KeepMigs s { t with mem := v } := h.trans (by unfold KeepMigs; simp)

theorem KeepMigs.set_tcm {s t : State} {v} (h : KeepMigs s t) : KeepMigs s { t with tcm := v } := h.trans (by unfold KeepMigs; simp)

theorem KeepMigs.set_free {s t : State} {v} (h : KeepMigs s t) : KeepMigs s { t with free := v } := h.trans (by unfold KeepMigs; simp)

theorem KeepMigs.set_hdr {s t : State} {v} (h : KeepMigs s t) : KeepMigs s { t with hdr := v } := h.trans (by unfold KeepMigs; simp)

theorem KeepMigs.set_sys {s t : State} {v} (h : KeepMigs s t) : KeepMigs s { t with sys := v } := h.trans (by unfold KeepMigs; simp)

theorem KeepMigs.set_clk {s t : State} {v} (h : KeepMigs s t) : KeepMigs s { t with clk := v } := h.trans (by unfold KeepMigs; simp)

theorem KeepMigs.set_pwr {s t : State} {v} (h : KeepMigs s t) : KeepMigs s { t with pwr := v } := h.trans (by unfold KeepMigs; simp)

theorem KeepMigs.set_l1 {s t : State} {v} (h : KeepMigs s t) : KeepMigs s { t with l1 := v } := h.trans (by unfold KeepMigs; simp)

theorem KeepMigs.set_irq {s t : State} {v} (h : KeepMigs s t) : KeepMigs s { t with irq := v } := h.trans (by unfold KeepMigs; simp)

theorem KeepMigs.set_llt {s t : State} {v} (h : KeepMigs s t) : KeepMigs s { t with llt := v } := h.trans (by unfold KeepMigs; simp)

theorem KeepMigs.set_hce {s t : State} {v} (h : KeepMigs s t) : KeepMigs s { t with hce := v } := h.trans (by unfold KeepMigs; simp)

theorem KeepMigs.set_lgr {s t : State} {v} (h : KeepMigs s t) : KeepMigs s { t with lgr := v } := h.trans (by unfold KeepMigs; simp)

theorem KeepMigs.set_xmt {s t : State} {v} (e : v.migs = t.xmt.migs) (h : KeepMigs s t) : KeepMigs s { t with xmt := v } := h.trans (by unfold KeepMigs; simp [e])

theorem KeepMigs.set_rvr {s t : State} {v} (h : KeepMigs s t) : KeepMigs s { t with rvr := v } := h.trans (by unfold KeepMigs; simp)

theorem KeepMigs.set_cst {s t : State} {v} (h : KeepMigs s t) : KeepMigs s { t with cst := v } := h.trans (by unfold KeepMigs; simp)

theorem KeepMigs.set_asq {s t : State} {v} (h : KeepMigs s t) : KeepMigs s { t with asq := v } := h.trans (by unfold KeepMigs; simp)

theorem KeepMigs.set_rwc {s t : State} {v} (h : KeepMigs s t) : KeepMigs s { t with rwc := v } := h.trans (by unfold KeepMigs; simp)

theorem KeepMigs.set_ldp {s t : State} {v} (h : KeepMigs s t) : KeepMigs s { t with ldp := v } := h.trans (by unfold KeepMigs; simp)

theorem KeepMigs.set_tpe {s t : State} {v} (h : KeepMigs s t) : KeepMigs s { t with tpe := v } := h.trans (by unfold KeepMigs; simp)

theorem KeepMigs.set_sve {s t : State} {v} (h : KeepMigs s t) : KeepMigs s { t with sve := v } := h.trans (by unfold KeepMigs; simp)

theorem KeepMigs.set_spn {s t : State} {v} (h : KeepMigs s t) : KeepMigs s { t with spn := v } := h.trans (by unfold KeepMigs; simp)

theorem KeepMigs.set_psi {s t : State} {v} (h : KeepMigs s t) : KeepMigs s { t with psi := v } := h.trans (by unfold KeepMigs; simp)

theorem KeepMigs.set_lsr {s t : State} {v} (h : KeepMigs s t) : KeepMigs s { t with lsr := v } := h.trans (by unfold KeepMigs; simp)

theorem KeepMigs.set_opt {s t : State} {v} (h : KeepMigs s t) : KeepMigs s { t with opt := v } := h.trans (by unfold KeepMigs; simp)

theorem KeepMigs.set_dmc {s t : State} {v} (h : KeepMigs s t) : KeepMigs s { t with dmc := v } := h.trans (by unfold KeepMigs; simp)

theorem KeepMigs.set_bcc {s t : State} {v} (h : KeepMigs s t) : KeepMigs s { t with bcc := v } := h.trans (by unfold KeepMigs; simp)

theorem KeepMigs.set_sec {s t : State} {v} (h : KeepMigs s t) : KeepMigs s { t with sec := v } := h.trans (by unfold KeepMigs; simp)

theorem KeepMigs.set_thm {s t : State} {v} (h : KeepMigs s t) : KeepMigs s { t with thm := v } := h.trans (by unfold KeepMigs; simp)

theorem KeepMigs.set_trm {s t : State} {v} (h : KeepMigs s t) : KeepMigs s { t with trm := v } := h.trans (by unfold KeepMigs; simp)

theorem KeepMigs.set_sup {s t : State} {v} (h : KeepMigs s t) : KeepMigs s { t with sup := v } := h.trans (by unfold KeepMigs; simp)

theorem KeepMigs.set_evr {s t : State} {v} (h : KeepMigs s t) : KeepMigs s { t with evr := v } := h.trans (by unfold KeepMigs; simp)

theorem KeepMigs.set_lif {s t : State} {v} (h : KeepMigs s t) : KeepMigs s { t with lif := v } := h.trans (by unfold KeepMigs; simp)

theorem KeepMigs.set_cal {s t : State} {v} (h : KeepMigs s t) : KeepMigs s { t with cal := v } := h.trans (by unfold KeepMigs; simp)

theorem KeepMigs.set_vlk {s t : State} {v} (h : KeepMigs s t) : KeepMigs s { t with vlk := v } := h.trans (by unfold KeepMigs; simp)

theorem KeepMigs.set_many14 {s t : State} {v0 v1 v2 v3 v4 v5 v6 v7 v8 v9 v10 v11 v12 v13} (h : KeepMigs s t) : KeepMigs s { t with us := v0, regs := v1, mem := v2, hdr := v3, sys := v4, clk := v5, pwr := v6, llt := v7, sec := v8, thm := v9, sup := v10, evr := v11, lif := v12, cal := v13 } := h.trans (by unfold KeepMigs; simp)

theorem KeepMigs.set_busData_busErr_l1 {s t : State} {v0 v1 v2} (h : KeepMigs s t) : KeepMigs s { t with busData := v0, busErr := v1, l1 := v2 } := h.trans (by unfold KeepMigs; simp)

theorem KeepMigs.set_mem_dmc {s t : State} {v0 v1} (h : KeepMigs s t) : KeepMigs s { t with mem := v0, dmc := v1 } := h.trans (by unfold KeepMigs; simp)

theorem KeepMigs.set_clk_cal {s t : State} {v0 v1} (h : KeepMigs s t) : KeepMigs s { t with clk := v0, cal := v1 } := h.trans (by unfold KeepMigs; simp)

theorem KeepMigs.set_busData_cal {s t : State} {v0 v1} (h : KeepMigs s t) : KeepMigs s { t with busData := v0, cal := v1 } := h.trans (by unfold KeepMigs; simp)

theorem KeepMigs.set_busData_irq {s t : State} {v0 v1} (h : KeepMigs s t) : KeepMigs s { t with busData := v0, irq := v1 } := h.trans (by unfold KeepMigs; simp)

theorem KeepMigs.set_busData_tcm {s t : State} {v0 v1} (h : KeepMigs s t) : KeepMigs s { t with busData := v0, tcm := v1 } := h.trans (by unfold KeepMigs; simp)

theorem KeepMigs.set_busData_busErr {s t : State} {v0 v1} (h : KeepMigs s t) : KeepMigs s { t with busData := v0, busErr := v1 } := h.trans (by unfold KeepMigs; simp)

theorem KeepMigs.set_us_sys {s t : State} {v0 v1} (h : KeepMigs s t) : KeepMigs s { t with us := v0, sys := v1 } := h.trans (by unfold KeepMigs; simp)

theorem KeepMigs_addUse x0 x1 s (h : KeepMigs o s) : KeepMigs o (addUse x0 x1 s) := by
  exact KeepMigs.of_frame h (frame_addUse x0 x1 s (m := 0x1880000100) (o := s) .refl rfl)

theorem KeepMigs_State_modXmt x0 s (h : KeepMigs o s) (e : ∀ y, (x0 y).migs = y.migs) : KeepMigs o (State.modXmt x0 s) := KeepMigs.set_xmt (e _) h

theorem KeepMigs_mediaPut x0 x1 s (h : KeepMigs o s) : KeepMigs o (mediaPut x0 x1 s) := by
  unfold mediaPut
  repeat' first | (with_reducible first | assumption | apply KeepMigs_State_modXmt | apply KeepMigs.ite) | (intro y; first | exact rfl | (simp; done)) | split | dsimp only

theorem KeepMigs_migFill x0 x1 x2 s (h : KeepMigs o s) : KeepMigs o (migFill x0 x1 x2 s) := by
  unfold migFill
  repeat' first | (with_reducible first | assumption | apply KeepMigs_addUse | apply KeepMigs_mediaPut | refine KeepMigs.foldl ?_ (fun _ _ _ => ?_) | apply KeepMigs.ite) | (intro y; first | exact rfl | (simp; done)) | split | dsimp only

theorem KeepMigs_modZone x0 x1 s (h : KeepMigs o s) : KeepMigs o (modZone x0 x1 s) := by
  unfold modZone
  repeat' first | (with_reducible first | assumption | apply KeepMigs_State_modXmt | apply KeepMigs.ite) | (intro y; first | exact rfl | (simp; done)) | split | dsimp only

theorem KeepMigs_putExtent x0 s (h : KeepMigs o s) : KeepMigs o (putExtent x0 s) := by
  unfold putExtent
  repeat' first | (with_reducible first | assumption | apply KeepMigs_State_modXmt | apply KeepMigs.ite) | (intro y; first | exact rfl | (simp; done)) | split | dsimp only

theorem KeepMigs_setMig x0 x1 x2 s (h : KeepMigs o s) : KeepMigs o (setMig x0 x1 x2 s) := by
  unfold setMig
  repeat' first | (with_reducible first | assumption | apply KeepMigs_modZone | apply KeepMigs_putExtent | apply KeepMigs.ite) | (intro y; first | exact rfl | (simp; done)) | split | dsimp only

theorem KeepMigs_State_modLgr x0 s (h : KeepMigs o s) : KeepMigs o (State.modLgr x0 s) := by
  exact KeepMigs.of_frame h (frame_State_modLgr x0 s (m := 0x10000) (o := s) .refl rfl)

theorem KeepMigs_migMap x0 s (h : KeepMigs o s) : KeepMigs o (migMap x0 s) := by
  unfold migMap
  repeat' first | (with_reducible first | assumption | apply KeepMigs_State_modLgr | apply KeepMigs_modZone | apply KeepMigs_putExtent | apply KeepMigs.ite) | (intro y; first | exact rfl | (simp; done)) | split | dsimp only

theorem KeepMigs_supersede x0 s (h : KeepMigs o s) : KeepMigs o (supersede x0 s) := by
  exact KeepMigs.of_frame h (frame_supersede x0 s (m := 0x10000) (o := s) .refl rfl)

theorem KeepMigs_journal x0 x1 x2 x3 x4 x5 s (h : KeepMigs o s) : KeepMigs o (journal x0 x1 x2 x3 x4 x5 s) := by
  unfold journal
  repeat' first | (with_reducible first | assumption | apply KeepMigs_State_modXmt | apply KeepMigs.ite) | (intro y; first | exact rfl | (simp; done)) | split | dsimp only

theorem KeepMigs_journalZone x0 x1 x2 x3 x4 s (h : KeepMigs o s) : KeepMigs o (journalZone x0 x1 x2 x3 x4 s) := by
  unfold journalZone
  repeat' first | (with_reducible first | assumption | apply KeepMigs_journal | apply KeepMigs.ite) | (intro y; first | exact rfl | (simp; done)) | split | dsimp only

theorem KeepMigs_dropRun x0 x1 x2 x3 s (h : KeepMigs o s) : KeepMigs o (dropRun x0 x1 x2 x3 s) := by
  unfold dropRun
  repeat' first | (with_reducible first | assumption | apply KeepMigs_State_modXmt | apply KeepMigs_journal | apply KeepMigs.ite) | (intro y; first | exact rfl | (simp; done)) | split | dsimp only

end

section

variable {o : State}

/-- rvr.commit, rvr.gen, rvr.image, rvr.recStep, rvr.replay are as they were. -/
def KeepRvr (s t : State) : Prop := t.rvr.commit = s.rvr.commit ∧ t.rvr.gen = s.rvr.gen ∧ t.rvr.image = s.rvr.image ∧ t.rvr.recStep = s.rvr.recStep ∧ t.rvr.replay = s.rvr.replay

theorem KeepRvr.trans {s t u : State} (h : KeepRvr s t) (k : KeepRvr t u) : KeepRvr s u := by
  unfold KeepRvr at *; simp_all

theorem KeepRvr.refl {s : State} : KeepRvr s s := by unfold KeepRvr; simp

theorem KeepRvr.of_eq {s t u : State} (e : u = t) (h : KeepRvr s u) : KeepRvr s t := e ▸ h

theorem KeepRvr.of_frame {m : Nat} {s t u : State} (h : KeepRvr s t) (k : FrameB m t u) (ervr : m.testBit 18 = false := by decide) : KeepRvr s u := by
  refine h.trans ?_
  have e : u.rvr = t.rvr := k .rvr ervr
  unfold KeepRvr; simp_all

theorem KeepRvr.ite {s t u : State} {c : Prop} {d : Decidable c} (h : KeepRvr s t) (k : KeepRvr s u) : KeepRvr s (if c then t else u) := by split <;> assumption

theorem KeepRvr.foldl {α : Type} {s t : State} {f : State → α → State} {l : List α} (h : KeepRvr s t) (k : ∀ u x, KeepRvr s u → KeepRvr s (f u x)) : KeepRvr s (l.foldl f t) := by
  induction l generalizing t with
  | nil => exact h
  | cons a l ih => exact ih (k t a h)

theorem KeepRvr.set_pending {s t : State} {v} (h : KeepRvr s t) : KeepRvr s { t with pending := v } := h.trans (by unfold KeepRvr; simp)

theorem KeepRvr.set_us {s t : State} {v} (h : KeepRvr s t) : KeepRvr s { t with us := v } := h.trans (by unfold KeepRvr; simp)

theorem KeepRvr.set_busData {s t : State} {v} (h : KeepRvr s t) : KeepRvr s { t with busData := v } := h.trans (by unfold KeepRvr; simp)

theorem KeepRvr.set_busErr {s t : State} {v} (h : KeepRvr s t) : KeepRvr s { t with busErr := v } := h.trans (by unfold KeepRvr; simp)

theorem KeepRvr.set_regs {s t : State} {v} (h : KeepRvr s t) : KeepRvr s { t with regs := v } := h.trans (by unfold KeepRvr; simp)

theorem KeepRvr.set_mem {s t : State} {v} (h : KeepRvr s t) : KeepRvr s { t with mem := v } := h.trans (by unfold KeepRvr; simp)

theorem KeepRvr.set_tcm {s t : State} {v} (h : KeepRvr s t) : KeepRvr s { t with tcm := v } := h.trans (by unfold KeepRvr; simp)

theorem KeepRvr.set_free {s t : State} {v} (h : KeepRvr s t) : KeepRvr s { t with free := v } := h.trans (by unfold KeepRvr; simp)

theorem KeepRvr.set_hdr {s t : State} {v} (h : KeepRvr s t) : KeepRvr s { t with hdr := v } := h.trans (by unfold KeepRvr; simp)

theorem KeepRvr.set_sys {s t : State} {v} (h : KeepRvr s t) : KeepRvr s { t with sys := v } := h.trans (by unfold KeepRvr; simp)

theorem KeepRvr.set_clk {s t : State} {v} (h : KeepRvr s t) : KeepRvr s { t with clk := v } := h.trans (by unfold KeepRvr; simp)

theorem KeepRvr.set_pwr {s t : State} {v} (h : KeepRvr s t) : KeepRvr s { t with pwr := v } := h.trans (by unfold KeepRvr; simp)

theorem KeepRvr.set_l1 {s t : State} {v} (h : KeepRvr s t) : KeepRvr s { t with l1 := v } := h.trans (by unfold KeepRvr; simp)

theorem KeepRvr.set_irq {s t : State} {v} (h : KeepRvr s t) : KeepRvr s { t with irq := v } := h.trans (by unfold KeepRvr; simp)

theorem KeepRvr.set_llt {s t : State} {v} (h : KeepRvr s t) : KeepRvr s { t with llt := v } := h.trans (by unfold KeepRvr; simp)

theorem KeepRvr.set_hce {s t : State} {v} (h : KeepRvr s t) : KeepRvr s { t with hce := v } := h.trans (by unfold KeepRvr; simp)

theorem KeepRvr.set_lgr {s t : State} {v} (h : KeepRvr s t) : KeepRvr s { t with lgr := v } := h.trans (by unfold KeepRvr; simp)

theorem KeepRvr.set_xmt {s t : State} {v} (h : KeepRvr s t) : KeepRvr s { t with xmt := v } := h.trans (by unfold KeepRvr; simp)

theorem KeepRvr.set_rvr {s t : State} {v} (e : v.commit = t.rvr.commit ∧ v.gen = t.rvr.gen ∧ v.image = t.rvr.image ∧ v.recStep = t.rvr.recStep ∧ v.replay = t.rvr.replay) (h : KeepRvr s t) : KeepRvr s { t with rvr := v } := h.trans (by unfold KeepRvr; simp [e])

theorem KeepRvr.set_cst {s t : State} {v} (h : KeepRvr s t) : KeepRvr s { t with cst := v } := h.trans (by unfold KeepRvr; simp)

theorem KeepRvr.set_asq {s t : State} {v} (h : KeepRvr s t) : KeepRvr s { t with asq := v } := h.trans (by unfold KeepRvr; simp)

theorem KeepRvr.set_rwc {s t : State} {v} (h : KeepRvr s t) : KeepRvr s { t with rwc := v } := h.trans (by unfold KeepRvr; simp)

theorem KeepRvr.set_ldp {s t : State} {v} (h : KeepRvr s t) : KeepRvr s { t with ldp := v } := h.trans (by unfold KeepRvr; simp)

theorem KeepRvr.set_tpe {s t : State} {v} (h : KeepRvr s t) : KeepRvr s { t with tpe := v } := h.trans (by unfold KeepRvr; simp)

theorem KeepRvr.set_sve {s t : State} {v} (h : KeepRvr s t) : KeepRvr s { t with sve := v } := h.trans (by unfold KeepRvr; simp)

theorem KeepRvr.set_spn {s t : State} {v} (h : KeepRvr s t) : KeepRvr s { t with spn := v } := h.trans (by unfold KeepRvr; simp)

theorem KeepRvr.set_psi {s t : State} {v} (h : KeepRvr s t) : KeepRvr s { t with psi := v } := h.trans (by unfold KeepRvr; simp)

theorem KeepRvr.set_lsr {s t : State} {v} (h : KeepRvr s t) : KeepRvr s { t with lsr := v } := h.trans (by unfold KeepRvr; simp)

theorem KeepRvr.set_opt {s t : State} {v} (h : KeepRvr s t) : KeepRvr s { t with opt := v } := h.trans (by unfold KeepRvr; simp)

theorem KeepRvr.set_dmc {s t : State} {v} (h : KeepRvr s t) : KeepRvr s { t with dmc := v } := h.trans (by unfold KeepRvr; simp)

theorem KeepRvr.set_bcc {s t : State} {v} (h : KeepRvr s t) : KeepRvr s { t with bcc := v } := h.trans (by unfold KeepRvr; simp)

theorem KeepRvr.set_sec {s t : State} {v} (h : KeepRvr s t) : KeepRvr s { t with sec := v } := h.trans (by unfold KeepRvr; simp)

theorem KeepRvr.set_thm {s t : State} {v} (h : KeepRvr s t) : KeepRvr s { t with thm := v } := h.trans (by unfold KeepRvr; simp)

theorem KeepRvr.set_trm {s t : State} {v} (h : KeepRvr s t) : KeepRvr s { t with trm := v } := h.trans (by unfold KeepRvr; simp)

theorem KeepRvr.set_sup {s t : State} {v} (h : KeepRvr s t) : KeepRvr s { t with sup := v } := h.trans (by unfold KeepRvr; simp)

theorem KeepRvr.set_evr {s t : State} {v} (h : KeepRvr s t) : KeepRvr s { t with evr := v } := h.trans (by unfold KeepRvr; simp)

theorem KeepRvr.set_lif {s t : State} {v} (h : KeepRvr s t) : KeepRvr s { t with lif := v } := h.trans (by unfold KeepRvr; simp)

theorem KeepRvr.set_cal {s t : State} {v} (h : KeepRvr s t) : KeepRvr s { t with cal := v } := h.trans (by unfold KeepRvr; simp)

theorem KeepRvr.set_vlk {s t : State} {v} (h : KeepRvr s t) : KeepRvr s { t with vlk := v } := h.trans (by unfold KeepRvr; simp)

theorem KeepRvr.set_many14 {s t : State} {v0 v1 v2 v3 v4 v5 v6 v7 v8 v9 v10 v11 v12 v13} (h : KeepRvr s t) : KeepRvr s { t with us := v0, regs := v1, mem := v2, hdr := v3, sys := v4, clk := v5, pwr := v6, llt := v7, sec := v8, thm := v9, sup := v10, evr := v11, lif := v12, cal := v13 } := h.trans (by unfold KeepRvr; simp)

theorem KeepRvr.set_busData_busErr_l1 {s t : State} {v0 v1 v2} (h : KeepRvr s t) : KeepRvr s { t with busData := v0, busErr := v1, l1 := v2 } := h.trans (by unfold KeepRvr; simp)

theorem KeepRvr.set_mem_dmc {s t : State} {v0 v1} (h : KeepRvr s t) : KeepRvr s { t with mem := v0, dmc := v1 } := h.trans (by unfold KeepRvr; simp)

theorem KeepRvr.set_clk_cal {s t : State} {v0 v1} (h : KeepRvr s t) : KeepRvr s { t with clk := v0, cal := v1 } := h.trans (by unfold KeepRvr; simp)

theorem KeepRvr.set_busData_cal {s t : State} {v0 v1} (h : KeepRvr s t) : KeepRvr s { t with busData := v0, cal := v1 } := h.trans (by unfold KeepRvr; simp)

theorem KeepRvr.set_busData_irq {s t : State} {v0 v1} (h : KeepRvr s t) : KeepRvr s { t with busData := v0, irq := v1 } := h.trans (by unfold KeepRvr; simp)

theorem KeepRvr.set_busData_tcm {s t : State} {v0 v1} (h : KeepRvr s t) : KeepRvr s { t with busData := v0, tcm := v1 } := h.trans (by unfold KeepRvr; simp)

theorem KeepRvr.set_busData_busErr {s t : State} {v0 v1} (h : KeepRvr s t) : KeepRvr s { t with busData := v0, busErr := v1 } := h.trans (by unfold KeepRvr; simp)

theorem KeepRvr.set_us_sys {s t : State} {v0 v1} (h : KeepRvr s t) : KeepRvr s { t with us := v0, sys := v1 } := h.trans (by unfold KeepRvr; simp)

theorem KeepRvr_ckptDurable s (h : KeepRvr o s) : KeepRvr o (ckptDurable s) := by
  exact KeepRvr.of_frame h (frame_ckptDurable s (m := 0x20000) (o := s) .refl rfl)

theorem KeepRvr_retire s (h : KeepRvr o s) : KeepRvr o (retire s) := by
  exact KeepRvr.of_frame h (frame_retire s (m := 0x10000) (o := s) .refl rfl)

theorem KeepRvr_migsDone s (h : KeepRvr o s) : KeepRvr o (migsDone s) := by
  exact KeepRvr.of_frame h (frame_migsDone s (m := 0x1800030100) (o := s) .refl rfl)

theorem KeepRvr_State_modRvr x0 s (h : KeepRvr o s) (e : ∀ y, (x0 y).commit = y.commit ∧ (x0 y).gen = y.gen ∧ (x0 y).image = y.image ∧ (x0 y).recStep = y.recStep ∧ (x0 y).replay = y.replay) : KeepRvr o (State.modRvr x0 s) := KeepRvr.set_rvr (e _) h

theorem KeepRvr_raiseLine x0 s (h : KeepRvr o s) : KeepRvr o (raiseLine x0 s) := by
  exact KeepRvr.of_frame h (frame_raiseLine x0 s (m := 0x2000) (o := s) .refl rfl)

theorem KeepRvr_releaseHalves s (h : KeepRvr o s) : KeepRvr o (releaseHalves s) := by
  unfold releaseHalves
  repeat' first | (with_reducible first | assumption | apply KeepRvr_State_modRvr | apply KeepRvr_raiseLine | apply KeepRvr.ite) | (intro y; first | exact ⟨rfl, rfl, rfl, rfl, rfl⟩ | (simp; done)) | split | dsimp only

theorem KeepRvr_writesDurable s (h : KeepRvr o s) : KeepRvr o (writesDurable s) := by
  exact KeepRvr.of_frame h (frame_writesDurable s (m := 0x10000) (o := s) .refl rfl)

theorem KeepRvr_settleJournal s (h : KeepRvr o s) : KeepRvr o (settleJournal s) := by
  unfold settleJournal
  repeat' first | (with_reducible first | assumption | apply KeepRvr_ckptDurable | apply KeepRvr_migsDone | apply KeepRvr_releaseHalves | apply KeepRvr_retire | apply KeepRvr_writesDurable | apply KeepRvr.ite) | (intro y; first | exact ⟨rfl, rfl, rfl, rfl, rfl⟩ | (simp; done)) | split | dsimp only

end

section

variable {o : State}

/-- hce.abDone, hce.abMatched, hce.abTag are as they were. -/
def KeepAb (s t : State) : Prop := t.hce.abDone = s.hce.abDone ∧ t.hce.abMatched = s.hce.abMatched ∧ t.hce.abTag = s.hce.abTag

theorem KeepAb.trans {s t u : State} (h : KeepAb s t) (k : KeepAb t u) : KeepAb s u := by
  unfold KeepAb at *; simp_all

theorem KeepAb.refl {s : State} : KeepAb s s := by unfold KeepAb; simp

theorem KeepAb.of_eq {s t u : State} (e : u = t) (h : KeepAb s u) : KeepAb s t := e ▸ h

theorem KeepAb.of_frame {m : Nat} {s t u : State} (h : KeepAb s t) (k : FrameB m t u) (ehce : m.testBit 15 = false := by decide) : KeepAb s u := by
  refine h.trans ?_
  have e : u.hce = t.hce := k .hce ehce
  unfold KeepAb; simp_all

theorem KeepAb.ite {s t u : State} {c : Prop} {d : Decidable c} (h : KeepAb s t) (k : KeepAb s u) : KeepAb s (if c then t else u) := by split <;> assumption

theorem KeepAb.foldl {α : Type} {s t : State} {f : State → α → State} {l : List α} (h : KeepAb s t) (k : ∀ u x, KeepAb s u → KeepAb s (f u x)) : KeepAb s (l.foldl f t) := by
  induction l generalizing t with
  | nil => exact h
  | cons a l ih => exact ih (k t a h)

theorem KeepAb.set_pending {s t : State} {v} (h : KeepAb s t) : KeepAb s { t with pending := v } := h.trans (by unfold KeepAb; simp)

theorem KeepAb.set_us {s t : State} {v} (h : KeepAb s t) : KeepAb s { t with us := v } := h.trans (by unfold KeepAb; simp)

theorem KeepAb.set_busData {s t : State} {v} (h : KeepAb s t) : KeepAb s { t with busData := v } := h.trans (by unfold KeepAb; simp)

theorem KeepAb.set_busErr {s t : State} {v} (h : KeepAb s t) : KeepAb s { t with busErr := v } := h.trans (by unfold KeepAb; simp)

theorem KeepAb.set_regs {s t : State} {v} (h : KeepAb s t) : KeepAb s { t with regs := v } := h.trans (by unfold KeepAb; simp)

theorem KeepAb.set_mem {s t : State} {v} (h : KeepAb s t) : KeepAb s { t with mem := v } := h.trans (by unfold KeepAb; simp)

theorem KeepAb.set_tcm {s t : State} {v} (h : KeepAb s t) : KeepAb s { t with tcm := v } := h.trans (by unfold KeepAb; simp)

theorem KeepAb.set_free {s t : State} {v} (h : KeepAb s t) : KeepAb s { t with free := v } := h.trans (by unfold KeepAb; simp)

theorem KeepAb.set_hdr {s t : State} {v} (h : KeepAb s t) : KeepAb s { t with hdr := v } := h.trans (by unfold KeepAb; simp)

theorem KeepAb.set_sys {s t : State} {v} (h : KeepAb s t) : KeepAb s { t with sys := v } := h.trans (by unfold KeepAb; simp)

theorem KeepAb.set_clk {s t : State} {v} (h : KeepAb s t) : KeepAb s { t with clk := v } := h.trans (by unfold KeepAb; simp)

theorem KeepAb.set_pwr {s t : State} {v} (h : KeepAb s t) : KeepAb s { t with pwr := v } := h.trans (by unfold KeepAb; simp)

theorem KeepAb.set_l1 {s t : State} {v} (h : KeepAb s t) : KeepAb s { t with l1 := v } := h.trans (by unfold KeepAb; simp)

theorem KeepAb.set_irq {s t : State} {v} (h : KeepAb s t) : KeepAb s { t with irq := v } := h.trans (by unfold KeepAb; simp)

theorem KeepAb.set_llt {s t : State} {v} (h : KeepAb s t) : KeepAb s { t with llt := v } := h.trans (by unfold KeepAb; simp)

theorem KeepAb.set_hce {s t : State} {v} (e : v.abDone = t.hce.abDone ∧ v.abMatched = t.hce.abMatched ∧ v.abTag = t.hce.abTag) (h : KeepAb s t) : KeepAb s { t with hce := v } := h.trans (by unfold KeepAb; simp [e])

theorem KeepAb.set_lgr {s t : State} {v} (h : KeepAb s t) : KeepAb s { t with lgr := v } := h.trans (by unfold KeepAb; simp)

theorem KeepAb.set_xmt {s t : State} {v} (h : KeepAb s t) : KeepAb s { t with xmt := v } := h.trans (by unfold KeepAb; simp)

theorem KeepAb.set_rvr {s t : State} {v} (h : KeepAb s t) : KeepAb s { t with rvr := v } := h.trans (by unfold KeepAb; simp)

theorem KeepAb.set_cst {s t : State} {v} (h : KeepAb s t) : KeepAb s { t with cst := v } := h.trans (by unfold KeepAb; simp)

theorem KeepAb.set_asq {s t : State} {v} (h : KeepAb s t) : KeepAb s { t with asq := v } := h.trans (by unfold KeepAb; simp)

theorem KeepAb.set_rwc {s t : State} {v} (h : KeepAb s t) : KeepAb s { t with rwc := v } := h.trans (by unfold KeepAb; simp)

theorem KeepAb.set_ldp {s t : State} {v} (h : KeepAb s t) : KeepAb s { t with ldp := v } := h.trans (by unfold KeepAb; simp)

theorem KeepAb.set_tpe {s t : State} {v} (h : KeepAb s t) : KeepAb s { t with tpe := v } := h.trans (by unfold KeepAb; simp)

theorem KeepAb.set_sve {s t : State} {v} (h : KeepAb s t) : KeepAb s { t with sve := v } := h.trans (by unfold KeepAb; simp)

theorem KeepAb.set_spn {s t : State} {v} (h : KeepAb s t) : KeepAb s { t with spn := v } := h.trans (by unfold KeepAb; simp)

theorem KeepAb.set_psi {s t : State} {v} (h : KeepAb s t) : KeepAb s { t with psi := v } := h.trans (by unfold KeepAb; simp)

theorem KeepAb.set_lsr {s t : State} {v} (h : KeepAb s t) : KeepAb s { t with lsr := v } := h.trans (by unfold KeepAb; simp)

theorem KeepAb.set_opt {s t : State} {v} (h : KeepAb s t) : KeepAb s { t with opt := v } := h.trans (by unfold KeepAb; simp)

theorem KeepAb.set_dmc {s t : State} {v} (h : KeepAb s t) : KeepAb s { t with dmc := v } := h.trans (by unfold KeepAb; simp)

theorem KeepAb.set_bcc {s t : State} {v} (h : KeepAb s t) : KeepAb s { t with bcc := v } := h.trans (by unfold KeepAb; simp)

theorem KeepAb.set_sec {s t : State} {v} (h : KeepAb s t) : KeepAb s { t with sec := v } := h.trans (by unfold KeepAb; simp)

theorem KeepAb.set_thm {s t : State} {v} (h : KeepAb s t) : KeepAb s { t with thm := v } := h.trans (by unfold KeepAb; simp)

theorem KeepAb.set_trm {s t : State} {v} (h : KeepAb s t) : KeepAb s { t with trm := v } := h.trans (by unfold KeepAb; simp)

theorem KeepAb.set_sup {s t : State} {v} (h : KeepAb s t) : KeepAb s { t with sup := v } := h.trans (by unfold KeepAb; simp)

theorem KeepAb.set_evr {s t : State} {v} (h : KeepAb s t) : KeepAb s { t with evr := v } := h.trans (by unfold KeepAb; simp)

theorem KeepAb.set_lif {s t : State} {v} (h : KeepAb s t) : KeepAb s { t with lif := v } := h.trans (by unfold KeepAb; simp)

theorem KeepAb.set_cal {s t : State} {v} (h : KeepAb s t) : KeepAb s { t with cal := v } := h.trans (by unfold KeepAb; simp)

theorem KeepAb.set_vlk {s t : State} {v} (h : KeepAb s t) : KeepAb s { t with vlk := v } := h.trans (by unfold KeepAb; simp)

theorem KeepAb.set_many14 {s t : State} {v0 v1 v2 v3 v4 v5 v6 v7 v8 v9 v10 v11 v12 v13} (h : KeepAb s t) : KeepAb s { t with us := v0, regs := v1, mem := v2, hdr := v3, sys := v4, clk := v5, pwr := v6, llt := v7, sec := v8, thm := v9, sup := v10, evr := v11, lif := v12, cal := v13 } := h.trans (by unfold KeepAb; simp)

theorem KeepAb.set_busData_busErr_l1 {s t : State} {v0 v1 v2} (h : KeepAb s t) : KeepAb s { t with busData := v0, busErr := v1, l1 := v2 } := h.trans (by unfold KeepAb; simp)

theorem KeepAb.set_mem_dmc {s t : State} {v0 v1} (h : KeepAb s t) : KeepAb s { t with mem := v0, dmc := v1 } := h.trans (by unfold KeepAb; simp)

theorem KeepAb.set_clk_cal {s t : State} {v0 v1} (h : KeepAb s t) : KeepAb s { t with clk := v0, cal := v1 } := h.trans (by unfold KeepAb; simp)

theorem KeepAb.set_busData_cal {s t : State} {v0 v1} (h : KeepAb s t) : KeepAb s { t with busData := v0, cal := v1 } := h.trans (by unfold KeepAb; simp)

theorem KeepAb.set_busData_irq {s t : State} {v0 v1} (h : KeepAb s t) : KeepAb s { t with busData := v0, irq := v1 } := h.trans (by unfold KeepAb; simp)

theorem KeepAb.set_busData_tcm {s t : State} {v0 v1} (h : KeepAb s t) : KeepAb s { t with busData := v0, tcm := v1 } := h.trans (by unfold KeepAb; simp)

theorem KeepAb.set_busData_busErr {s t : State} {v0 v1} (h : KeepAb s t) : KeepAb s { t with busData := v0, busErr := v1 } := h.trans (by unfold KeepAb; simp)

theorem KeepAb.set_us_sys {s t : State} {v0 v1} (h : KeepAb s t) : KeepAb s { t with us := v0, sys := v1 } := h.trans (by unfold KeepAb; simp)

theorem KeepAb_dropEntry x0 s (h : KeepAb o s) : KeepAb o (dropEntry x0 s) := by
  exact KeepAb.of_frame h (frame_dropEntry x0 s (m := 0x10000) (o := s) .refl rfl)

theorem KeepAb_State_drawn s (h : KeepAb o s) : KeepAb o (State.drawn s) := by
  exact KeepAb.of_frame h (frame_State_drawn s (m := 0x80) (o := s) .refl rfl)

theorem KeepAb_State_modCtrl x0 x1 s (h : KeepAb o s) : KeepAb o (State.modCtrl x0 x1 s) := by
  unfold State.modCtrl
  repeat' first | (with_reducible first | assumption | apply KeepAb.ite) | fail_if_no_progress ((with_reducible apply KeepAb.set_hce); (first | exact ⟨rfl, rfl, rfl⟩ | (simp; done))) | (intro y; first | exact ⟨rfl, rfl, rfl⟩ | (simp; done)) | split | dsimp only

theorem KeepAb_State_modHce x0 s (h : KeepAb o s) (e : ∀ y, (x0 y).abDone = y.abDone ∧ (x0 y).abMatched = y.abMatched ∧ (x0 y).abTag = y.abTag) : KeepAb o (State.modHce x0 s) := KeepAb.set_hce (e _) h

theorem KeepAb_modCmd x0 x1 s (h : KeepAb o s) : KeepAb o (modCmd x0 x1 s) := by
  unfold modCmd
  repeat' first | (with_reducible first | assumption | apply KeepAb_State_modHce | apply KeepAb.ite) | (intro y; first | exact ⟨rfl, rfl, rfl⟩ | (simp; done)) | split | dsimp only

theorem KeepAb_releaseReader x0 s (h : KeepAb o s) : KeepAb o (releaseReader x0 s) := by
  exact KeepAb.of_frame h (frame_releaseReader x0 s (m := 0x10000) (o := s) .refl rfl)

theorem KeepAb_finishDw x0 x1 x2 x3 s (h : KeepAb o s) : KeepAb o (finishDw x0 x1 x2 x3 s) := by
  unfold finishDw
  repeat' first | (with_reducible first | assumption | apply KeepAb_State_drawn | apply KeepAb_State_modCtrl | apply KeepAb_modCmd | apply KeepAb_releaseReader | apply KeepAb.ite) | (intro y; first | exact ⟨rfl, rfl, rfl⟩ | (simp; done)) | split | dsimp only

theorem KeepAb_finish x0 x1 s (h : KeepAb o s) : KeepAb o (finish x0 x1 s) := by
  unfold finish
  repeat' first | (with_reducible first | assumption | apply KeepAb_finishDw | apply KeepAb.ite) | (intro y; first | exact ⟨rfl, rfl, rfl⟩ | (simp; done)) | split | dsimp only

theorem KeepAb_modZone x0 x1 s (h : KeepAb o s) : KeepAb o (modZone x0 x1 s) := by
  exact KeepAb.of_frame h (frame_modZone x0 x1 s (m := 0x20000) (o := s) .refl rfl)

theorem KeepAb_zoneDrop x0 s (h : KeepAb o s) : KeepAb o (zoneDrop x0 s) := by
  unfold zoneDrop
  repeat' first | (with_reducible first | assumption | apply KeepAb_dropEntry | apply KeepAb_finish | apply KeepAb_modZone | refine KeepAb.foldl ?_ (fun _ _ _ => ?_) | apply KeepAb.ite) | (intro y; first | exact ⟨rfl, rfl, rfl⟩ | (simp; done)) | split | dsimp only

theorem KeepAb_dropWrite x0 s (h : KeepAb o s) : KeepAb o (dropWrite x0 s) := by
  unfold dropWrite
  repeat' first | (with_reducible first | assumption | apply KeepAb_dropEntry | apply KeepAb_zoneDrop | apply KeepAb.ite) | (intro y; first | exact ⟨rfl, rfl, rfl⟩ | (simp; done)) | split | dsimp only

theorem KeepAb_State_modAsq x0 x1 s (h : KeepAb o s) : KeepAb o (State.modAsq x0 x1 s) := by
  exact KeepAb.of_frame h (frame_State_modAsq x0 x1 s (m := 0x100000) (o := s) .refl rfl)

theorem KeepAb_asqLine x0 x1 s (h : KeepAb o s) : KeepAb o (asqLine x0 x1 s) := by
  exact KeepAb.of_frame h (frame_asqLine x0 x1 s (m := 0x2000) (o := s) .refl rfl)

theorem KeepAb_ev x0 x1 x2 x3 x4 s (h : KeepAb o s) : KeepAb o (ev x0 x1 x2 x3 x4 s) := by
  exact KeepAb.of_frame h (frame_ev x0 x1 x2 x3 x4 s (m := 0x1800000100) (o := s) .refl rfl)

theorem KeepAb_levelsFall x0 s (h : KeepAb o s) : KeepAb o (levelsFall x0 s) := by
  exact KeepAb.of_frame h (frame_levelsFall x0 s (m := 0x20C300080) (o := s) .refl rfl)

theorem KeepAb_asqAbortReq x0 s (h : KeepAb o s) : KeepAb o (asqAbortReq x0 s) := by
  exact KeepAb.of_frame h (frame_asqAbortReq x0 s (m := 0x1A0C302180) (o := s) .refl rfl)

theorem KeepAb_postResult x0 x1 s (h : KeepAb o s) : KeepAb o (postResult x0 x1 s) := by
  exact KeepAb.of_frame h (frame_postResult x0 x1 s (m := 0x102000) (o := s) .refl rfl)

theorem KeepAb_tagDone x0 s (h : KeepAb o s) : KeepAb o (tagDone x0 s) := by
  unfold tagDone
  repeat' first | (with_reducible first | assumption | apply KeepAb_State_modHce | apply KeepAb.ite) | (intro y; first | exact ⟨rfl, rfl, rfl⟩ | (simp; done)) | split | dsimp only

theorem KeepAb_cancelPending x0 s (h : KeepAb o s) : KeepAb o (cancelPending x0 s) := by
  unfold cancelPending
  repeat' first | (with_reducible first | assumption | apply KeepAb_State_modAsq | apply KeepAb_asqLine | apply KeepAb_postResult | apply KeepAb_tagDone | apply KeepAb.ite) | (intro y; first | exact ⟨rfl, rfl, rfl⟩ | (simp; done)) | split | dsimp only

theorem KeepAb_askLeave x0 s (h : KeepAb o s) : KeepAb o (askLeave x0 s) := by
  exact KeepAb.of_frame h (frame_askLeave x0 s (m := 0x1800106100) (o := s) .refl rfl)

theorem KeepAb_buildSkip x0 x1 x2 s (h : KeepAb o s) : KeepAb o (buildSkip x0 x1 x2 s) := by
  exact KeepAb.of_frame h (frame_buildSkip x0 x1 x2 s (m := 0x18608031A0) (o := s) .refl rfl)

theorem KeepAb_loadLane x0 s (h : KeepAb o s) : KeepAb o (loadLane x0 s) := by
  exact KeepAb.of_frame h (frame_loadLane x0 s (m := 0x80000000) (o := s) .refl rfl)

theorem KeepAb_adaptSave x0 s (h : KeepAb o s) : KeepAb o (adaptSave x0 s) := by
  exact KeepAb.of_frame h (frame_adaptSave x0 s (m := 0x18600031A0) (o := s) .refl rfl)

theorem KeepAb_clearActive x0 x1 s (h : KeepAb o s) : KeepAb o (clearActive x0 x1 s) := by
  exact KeepAb.of_frame h (frame_clearActive x0 x1 s (m := 0x100000) (o := s) .refl rfl)

theorem KeepAb_endLeave x0 s (h : KeepAb o s) : KeepAb o (endLeave x0 s) := by
  exact KeepAb.of_frame h (frame_endLeave x0 s (m := 0x6000) (o := s) .refl rfl)

theorem KeepAb_healthAdd x0 x1 x2 s (h : KeepAb o s) : KeepAb o (healthAdd x0 x1 x2 s) := by
  unfold healthAdd
  repeat' first | (with_reducible first | assumption | apply KeepAb_State_modHce | apply KeepAb.ite) | (intro y; first | exact ⟨rfl, rfl, rfl⟩ | (simp; done)) | split | dsimp only

theorem KeepAb_unloadEnds x0 x1 s (h : KeepAb o s) : KeepAb o (unloadEnds x0 x1 s) := by
  exact KeepAb.of_frame h (frame_unloadEnds x0 x1 s (m := 0x1000000) (o := s) .refl rfl)

theorem KeepAb_taskEnd x0 x1 x2 x3 s (h : KeepAb o s) : KeepAb o (taskEnd x0 x1 x2 x3 s) := by
  unfold taskEnd
  repeat' first | (with_reducible first | assumption | apply KeepAb_adaptSave | apply KeepAb_asqLine | apply KeepAb_clearActive | apply KeepAb_endLeave | apply KeepAb_ev | apply KeepAb_healthAdd | apply KeepAb_levelsFall | apply KeepAb_postResult | apply KeepAb_tagDone | apply KeepAb_unloadEnds | apply KeepAb.ite) | (intro y; first | exact ⟨rfl, rfl, rfl⟩ | (simp; done)) | split | dsimp only

theorem KeepAb_zoneCopy x0 s (h : KeepAb o s) : KeepAb o (zoneCopy x0 s) := by
  exact KeepAb.of_frame h (frame_zoneCopy x0 s (m := 0x18602031A0) (o := s) .refl rfl)

theorem KeepAb_promote x0 s (h : KeepAb o s) : KeepAb o (promote x0 s) := by
  unfold promote
  repeat' first | (with_reducible first | assumption | apply KeepAb_State_modAsq | apply KeepAb_askLeave | apply KeepAb_asqLine | apply KeepAb_buildSkip | apply KeepAb_loadLane | apply KeepAb_taskEnd | apply KeepAb_zoneCopy | apply KeepAb.ite) | (intro y; first | exact ⟨rfl, rfl, rfl⟩ | (simp; done)) | split | dsimp only

theorem KeepAb_abortTag x0 x1 s (h : KeepAb o s) : KeepAb o (abortTag x0 x1 s) := by
  unfold abortTag
  repeat' first | (with_reducible first | assumption | apply KeepAb_State_modAsq | apply KeepAb_asqAbortReq | apply KeepAb_cancelPending | apply KeepAb_promote | apply KeepAb.ite) | (intro y; first | exact ⟨rfl, rfl, rfl⟩ | (simp; done)) | split | dsimp only

theorem KeepAb_stopTasks x0 s (h : KeepAb o s) : KeepAb o (stopTasks x0 s) := by
  unfold stopTasks
  repeat' first | (with_reducible first | assumption | apply KeepAb_abortTag | refine KeepAb.foldl ?_ (fun _ _ _ => ?_) | apply KeepAb.ite) | (intro y; first | exact ⟨rfl, rfl, rfl⟩ | (simp; done)) | split | dsimp only

theorem KeepAb_stopCmd x0 s (h : KeepAb o s) : KeepAb o (stopCmd x0 s) := by
  unfold stopCmd
  repeat' first | (with_reducible first | assumption | apply KeepAb_dropWrite | apply KeepAb_finish | apply KeepAb_modCmd | apply KeepAb_stopTasks | apply KeepAb.ite) | (intro y; first | exact ⟨rfl, rfl, rfl⟩ | (simp; done)) | split | dsimp only

end

section

variable {o : State}

/-- lgr.ordNext are as they were. -/
def KeepOrd (s t : State) : Prop := t.lgr.ordNext = s.lgr.ordNext

theorem KeepOrd.trans {s t u : State} (h : KeepOrd s t) (k : KeepOrd t u) : KeepOrd s u := by
  unfold KeepOrd at *; simp_all

theorem KeepOrd.refl {s : State} : KeepOrd s s := by unfold KeepOrd; simp

theorem KeepOrd.of_eq {s t u : State} (e : u = t) (h : KeepOrd s u) : KeepOrd s t := e ▸ h

theorem KeepOrd.of_frame {m : Nat} {s t u : State} (h : KeepOrd s t) (k : FrameB m t u) (elgr : m.testBit 16 = false := by decide) : KeepOrd s u := by
  refine h.trans ?_
  have e : u.lgr = t.lgr := k .lgr elgr
  unfold KeepOrd; simp_all

theorem KeepOrd.ite {s t u : State} {c : Prop} {d : Decidable c} (h : KeepOrd s t) (k : KeepOrd s u) : KeepOrd s (if c then t else u) := by split <;> assumption

theorem KeepOrd.foldl {α : Type} {s t : State} {f : State → α → State} {l : List α} (h : KeepOrd s t) (k : ∀ u x, KeepOrd s u → KeepOrd s (f u x)) : KeepOrd s (l.foldl f t) := by
  induction l generalizing t with
  | nil => exact h
  | cons a l ih => exact ih (k t a h)

theorem KeepOrd.set_pending {s t : State} {v} (h : KeepOrd s t) : KeepOrd s { t with pending := v } := h.trans (by unfold KeepOrd; simp)

theorem KeepOrd.set_us {s t : State} {v} (h : KeepOrd s t) : KeepOrd s { t with us := v } := h.trans (by unfold KeepOrd; simp)

theorem KeepOrd.set_busData {s t : State} {v} (h : KeepOrd s t) : KeepOrd s { t with busData := v } := h.trans (by unfold KeepOrd; simp)

theorem KeepOrd.set_busErr {s t : State} {v} (h : KeepOrd s t) : KeepOrd s { t with busErr := v } := h.trans (by unfold KeepOrd; simp)

theorem KeepOrd.set_regs {s t : State} {v} (h : KeepOrd s t) : KeepOrd s { t with regs := v } := h.trans (by unfold KeepOrd; simp)

theorem KeepOrd.set_mem {s t : State} {v} (h : KeepOrd s t) : KeepOrd s { t with mem := v } := h.trans (by unfold KeepOrd; simp)

theorem KeepOrd.set_tcm {s t : State} {v} (h : KeepOrd s t) : KeepOrd s { t with tcm := v } := h.trans (by unfold KeepOrd; simp)

theorem KeepOrd.set_free {s t : State} {v} (h : KeepOrd s t) : KeepOrd s { t with free := v } := h.trans (by unfold KeepOrd; simp)

theorem KeepOrd.set_hdr {s t : State} {v} (h : KeepOrd s t) : KeepOrd s { t with hdr := v } := h.trans (by unfold KeepOrd; simp)

theorem KeepOrd.set_sys {s t : State} {v} (h : KeepOrd s t) : KeepOrd s { t with sys := v } := h.trans (by unfold KeepOrd; simp)

theorem KeepOrd.set_clk {s t : State} {v} (h : KeepOrd s t) : KeepOrd s { t with clk := v } := h.trans (by unfold KeepOrd; simp)

theorem KeepOrd.set_pwr {s t : State} {v} (h : KeepOrd s t) : KeepOrd s { t with pwr := v } := h.trans (by unfold KeepOrd; simp)

theorem KeepOrd.set_l1 {s t : State} {v} (h : KeepOrd s t) : KeepOrd s { t with l1 := v } := h.trans (by unfold KeepOrd; simp)

theorem KeepOrd.set_irq {s t : State} {v} (h : KeepOrd s t) : KeepOrd s { t with irq := v } := h.trans (by unfold KeepOrd; simp)

theorem KeepOrd.set_llt {s t : State} {v} (h : KeepOrd s t) : KeepOrd s { t with llt := v } := h.trans (by unfold KeepOrd; simp)

theorem KeepOrd.set_hce {s t : State} {v} (h : KeepOrd s t) : KeepOrd s { t with hce := v } := h.trans (by unfold KeepOrd; simp)

theorem KeepOrd.set_lgr {s t : State} {v} (e : v.ordNext = t.lgr.ordNext) (h : KeepOrd s t) : KeepOrd s { t with lgr := v } := h.trans (by unfold KeepOrd; simp [e])

theorem KeepOrd.set_xmt {s t : State} {v} (h : KeepOrd s t) : KeepOrd s { t with xmt := v } := h.trans (by unfold KeepOrd; simp)

theorem KeepOrd.set_rvr {s t : State} {v} (h : KeepOrd s t) : KeepOrd s { t with rvr := v } := h.trans (by unfold KeepOrd; simp)

theorem KeepOrd.set_cst {s t : State} {v} (h : KeepOrd s t) : KeepOrd s { t with cst := v } := h.trans (by unfold KeepOrd; simp)

theorem KeepOrd.set_asq {s t : State} {v} (h : KeepOrd s t) : KeepOrd s { t with asq := v } := h.trans (by unfold KeepOrd; simp)

theorem KeepOrd.set_rwc {s t : State} {v} (h : KeepOrd s t) : KeepOrd s { t with rwc := v } := h.trans (by unfold KeepOrd; simp)

theorem KeepOrd.set_ldp {s t : State} {v} (h : KeepOrd s t) : KeepOrd s { t with ldp := v } := h.trans (by unfold KeepOrd; simp)

theorem KeepOrd.set_tpe {s t : State} {v} (h : KeepOrd s t) : KeepOrd s { t with tpe := v } := h.trans (by unfold KeepOrd; simp)

theorem KeepOrd.set_sve {s t : State} {v} (h : KeepOrd s t) : KeepOrd s { t with sve := v } := h.trans (by unfold KeepOrd; simp)

theorem KeepOrd.set_spn {s t : State} {v} (h : KeepOrd s t) : KeepOrd s { t with spn := v } := h.trans (by unfold KeepOrd; simp)

theorem KeepOrd.set_psi {s t : State} {v} (h : KeepOrd s t) : KeepOrd s { t with psi := v } := h.trans (by unfold KeepOrd; simp)

theorem KeepOrd.set_lsr {s t : State} {v} (h : KeepOrd s t) : KeepOrd s { t with lsr := v } := h.trans (by unfold KeepOrd; simp)

theorem KeepOrd.set_opt {s t : State} {v} (h : KeepOrd s t) : KeepOrd s { t with opt := v } := h.trans (by unfold KeepOrd; simp)

theorem KeepOrd.set_dmc {s t : State} {v} (h : KeepOrd s t) : KeepOrd s { t with dmc := v } := h.trans (by unfold KeepOrd; simp)

theorem KeepOrd.set_bcc {s t : State} {v} (h : KeepOrd s t) : KeepOrd s { t with bcc := v } := h.trans (by unfold KeepOrd; simp)

theorem KeepOrd.set_sec {s t : State} {v} (h : KeepOrd s t) : KeepOrd s { t with sec := v } := h.trans (by unfold KeepOrd; simp)

theorem KeepOrd.set_thm {s t : State} {v} (h : KeepOrd s t) : KeepOrd s { t with thm := v } := h.trans (by unfold KeepOrd; simp)

theorem KeepOrd.set_trm {s t : State} {v} (h : KeepOrd s t) : KeepOrd s { t with trm := v } := h.trans (by unfold KeepOrd; simp)

theorem KeepOrd.set_sup {s t : State} {v} (h : KeepOrd s t) : KeepOrd s { t with sup := v } := h.trans (by unfold KeepOrd; simp)

theorem KeepOrd.set_evr {s t : State} {v} (h : KeepOrd s t) : KeepOrd s { t with evr := v } := h.trans (by unfold KeepOrd; simp)

theorem KeepOrd.set_lif {s t : State} {v} (h : KeepOrd s t) : KeepOrd s { t with lif := v } := h.trans (by unfold KeepOrd; simp)

theorem KeepOrd.set_cal {s t : State} {v} (h : KeepOrd s t) : KeepOrd s { t with cal := v } := h.trans (by unfold KeepOrd; simp)

theorem KeepOrd.set_vlk {s t : State} {v} (h : KeepOrd s t) : KeepOrd s { t with vlk := v } := h.trans (by unfold KeepOrd; simp)

theorem KeepOrd.set_many14 {s t : State} {v0 v1 v2 v3 v4 v5 v6 v7 v8 v9 v10 v11 v12 v13} (h : KeepOrd s t) : KeepOrd s { t with us := v0, regs := v1, mem := v2, hdr := v3, sys := v4, clk := v5, pwr := v6, llt := v7, sec := v8, thm := v9, sup := v10, evr := v11, lif := v12, cal := v13 } := h.trans (by unfold KeepOrd; simp)

theorem KeepOrd.set_busData_busErr_l1 {s t : State} {v0 v1 v2} (h : KeepOrd s t) : KeepOrd s { t with busData := v0, busErr := v1, l1 := v2 } := h.trans (by unfold KeepOrd; simp)

theorem KeepOrd.set_mem_dmc {s t : State} {v0 v1} (h : KeepOrd s t) : KeepOrd s { t with mem := v0, dmc := v1 } := h.trans (by unfold KeepOrd; simp)

theorem KeepOrd.set_clk_cal {s t : State} {v0 v1} (h : KeepOrd s t) : KeepOrd s { t with clk := v0, cal := v1 } := h.trans (by unfold KeepOrd; simp)

theorem KeepOrd.set_busData_cal {s t : State} {v0 v1} (h : KeepOrd s t) : KeepOrd s { t with busData := v0, cal := v1 } := h.trans (by unfold KeepOrd; simp)

theorem KeepOrd.set_busData_irq {s t : State} {v0 v1} (h : KeepOrd s t) : KeepOrd s { t with busData := v0, irq := v1 } := h.trans (by unfold KeepOrd; simp)

theorem KeepOrd.set_busData_tcm {s t : State} {v0 v1} (h : KeepOrd s t) : KeepOrd s { t with busData := v0, tcm := v1 } := h.trans (by unfold KeepOrd; simp)

theorem KeepOrd.set_busData_busErr {s t : State} {v0 v1} (h : KeepOrd s t) : KeepOrd s { t with busData := v0, busErr := v1 } := h.trans (by unfold KeepOrd; simp)

theorem KeepOrd.set_us_sys {s t : State} {v0 v1} (h : KeepOrd s t) : KeepOrd s { t with us := v0, sys := v1 } := h.trans (by unfold KeepOrd; simp)

theorem KeepOrd_State_modCtrl x0 x1 s (h : KeepOrd o s) : KeepOrd o (State.modCtrl x0 x1 s) := by
  exact KeepOrd.of_frame h (frame_State_modCtrl x0 x1 s (m := 0x8000) (o := s) .refl rfl)

theorem KeepOrd_modCmd x0 x1 s (h : KeepOrd o s) : KeepOrd o (modCmd x0 x1 s) := by
  exact KeepOrd.of_frame h (frame_modCmd x0 x1 s (m := 0x8000) (o := s) .refl rfl)

theorem KeepOrd_exception x0 x1 s (h : KeepOrd o s) : KeepOrd o (exception x0 x1 s) := by
  exact KeepOrd.of_frame h (frame_exception x0 x1 s (m := 0x180000A100) (o := s) .refl rfl)

theorem KeepOrd_State_drawn s (h : KeepOrd o s) : KeepOrd o (State.drawn s) := by
  exact KeepOrd.of_frame h (frame_State_drawn s (m := 0x80) (o := s) .refl rfl)

theorem KeepOrd_State_modLgr x0 s (h : KeepOrd o s) (e : ∀ y, (x0 y).ordNext = y.ordNext) : KeepOrd o (State.modLgr x0 s) := KeepOrd.set_lgr (e _) h

theorem KeepOrd_retire s (h : KeepOrd o s) : KeepOrd o (retire s) := by
  unfold retire
  repeat' first | (with_reducible first | assumption | apply KeepOrd_State_modLgr | apply KeepOrd.ite) | (intro y; first | exact rfl | (simp; done)) | split | dsimp only

theorem KeepOrd_releaseReader x0 s (h : KeepOrd o s) : KeepOrd o (releaseReader x0 s) := by
  unfold releaseReader
  repeat' first | (with_reducible first | assumption | apply KeepOrd_State_modLgr | apply KeepOrd_retire | apply KeepOrd.ite) | (intro y; first | exact rfl | (simp; done)) | split | dsimp only

theorem KeepOrd_finishDw x0 x1 x2 x3 s (h : KeepOrd o s) : KeepOrd o (finishDw x0 x1 x2 x3 s) := by
  unfold finishDw
  repeat' first | (with_reducible first | assumption | apply KeepOrd_State_drawn | apply KeepOrd_State_modCtrl | apply KeepOrd_modCmd | apply KeepOrd_releaseReader | apply KeepOrd.ite) | (intro y; first | exact rfl | (simp; done)) | split | dsimp only

theorem KeepOrd_finish x0 x1 s (h : KeepOrd o s) : KeepOrd o (finish x0 x1 s) := by
  unfold finish
  repeat' first | (with_reducible first | assumption | apply KeepOrd_finishDw | apply KeepOrd.ite) | (intro y; first | exact rfl | (simp; done)) | split | dsimp only

theorem KeepOrd_keyRefused x0 s (h : KeepOrd o s) : KeepOrd o (keyRefused x0 s) := by
  exact KeepOrd.of_frame h (frame_keyRefused x0 s (m := 0x1880000100) (o := s) .refl rfl)

theorem KeepOrd_addEntry x0 s (h : KeepOrd o s) : KeepOrd o (addEntry x0 s) := by
  unfold addEntry
  repeat' first | (with_reducible first | assumption | apply KeepOrd_State_modLgr | apply KeepOrd.ite) | (intro y; first | exact rfl | (simp; done)) | split | dsimp only

theorem KeepOrd_addUse x0 x1 s (h : KeepOrd o s) : KeepOrd o (addUse x0 x1 s) := by
  exact KeepOrd.of_frame h (frame_addUse x0 x1 s (m := 0x1880000100) (o := s) .refl rfl)

theorem KeepOrd_modZone x0 x1 s (h : KeepOrd o s) : KeepOrd o (modZone x0 x1 s) := by
  exact KeepOrd.of_frame h (frame_modZone x0 x1 s (m := 0x20000) (o := s) .refl rfl)

theorem KeepOrd_modEntry x0 x1 s (h : KeepOrd o s) : KeepOrd o (modEntry x0 x1 s) := by
  unfold modEntry
  repeat' first | (with_reducible first | assumption | apply KeepOrd_State_modLgr | apply KeepOrd.ite) | (intro y; first | exact rfl | (simp; done)) | split | dsimp only

theorem KeepOrd_selectSector x0 x1 x2 s (h : KeepOrd o s) : KeepOrd o (selectSector x0 x1 x2 s).1 := by
  unfold selectSector
  repeat' first | (with_reducible first | assumption | apply KeepOrd_State_modLgr | apply KeepOrd_modEntry | apply KeepOrd.ite) | (intro y; first | exact rfl | (simp; done)) | split | dsimp only

theorem KeepOrd_selectRange x0 x1 x2 s (h : KeepOrd o s) : KeepOrd o (selectRange x0 x1 x2 s).1 := by
  induction x2 generalizing s  with
  | nil => unfold selectRange; exact h
  | cons _ _ ih =>
    unfold selectRange
    repeat' first | (with_reducible first | assumption | apply KeepOrd_selectSector | apply KeepOrd.ite) | ((with_reducible apply ih)) | (intro y; first | exact rfl | (simp; done)) | split | dsimp only

theorem KeepOrd_zoneAdvance x0 x1 s (h : KeepOrd o s) : KeepOrd o (zoneAdvance x0 x1 s) := by
  exact KeepOrd.of_frame h (frame_zoneAdvance x0 x1 s (m := 0x1800020100) (o := s) .refl rfl)

theorem KeepOrd_register x0 x1 s (h : KeepOrd o s) : KeepOrd o (register x0 x1 s) := by
  unfold register
  repeat' first | (with_reducible first | assumption | apply KeepOrd_addEntry | apply KeepOrd_addUse | apply KeepOrd_modZone | apply KeepOrd_selectRange | apply KeepOrd_zoneAdvance | refine KeepOrd.foldl ?_ (fun _ _ _ => ?_) | apply KeepOrd.ite) | (intro y; first | exact rfl | (simp; done)) | split | dsimp only

theorem KeepOrd_accept x0 s (h : KeepOrd o s) : KeepOrd o (accept x0 s) := by
  unfold accept
  repeat' first | (with_reducible first | assumption | apply KeepOrd_exception | apply KeepOrd_finish | apply KeepOrd_keyRefused | apply KeepOrd_modCmd | apply KeepOrd_register | apply KeepOrd.ite) | (intro y; first | exact rfl | (simp; done)) | split | dsimp only

theorem KeepOrd_startCmd x0 s (h : KeepOrd o s) : KeepOrd o (startCmd x0 s) := by
  unfold startCmd
  repeat' first | (with_reducible first | assumption | apply KeepOrd_accept | apply KeepOrd_modCmd | apply KeepOrd.ite) | (intro y; first | exact rfl | (simp; done)) | split | dsimp only

theorem KeepOrd_State_modPwr x0 s (h : KeepOrd o s) : KeepOrd o (State.modPwr x0 s) := by
  exact KeepOrd.of_frame h (frame_State_modPwr x0 s (m := 0x800) (o := s) .refl rfl)

theorem KeepOrd_psFetched x0 x1 s (h : KeepOrd o s) : KeepOrd o (psFetched x0 x1 s) := by
  unfold psFetched
  repeat' first | (with_reducible first | assumption | apply KeepOrd_State_modPwr | apply KeepOrd_finishDw | apply KeepOrd.ite) | (intro y; first | exact rfl | (simp; done)) | split | dsimp only

theorem KeepOrd_fetchEffects x0 s (h : KeepOrd o s) : KeepOrd o (fetchEffects x0 s) := by
  unfold fetchEffects
  repeat' first | (with_reducible first | assumption | apply KeepOrd_State_modCtrl | apply KeepOrd_finish | apply KeepOrd_psFetched | apply KeepOrd.ite) | (intro y; first | exact rfl | (simp; done)) | split | dsimp only

theorem KeepOrd_checkPause s (h : KeepOrd o s) : KeepOrd o (checkPause s) := by
  exact KeepOrd.of_frame h (frame_checkPause s (m := 0x180000A100) (o := s) .refl rfl)

theorem KeepOrd_psUnwind s (h : KeepOrd o s) : KeepOrd o (psUnwind s) := by
  exact KeepOrd.of_frame h (frame_psUnwind s (m := 0x186000F9AC) (o := s) .refl rfl)

end

section

variable {o : State}

/-- sys.railsGood, sup.bad are as they were. -/
def KeepBad (s t : State) : Prop := t.sys.railsGood = s.sys.railsGood ∧ t.sup.bad = s.sup.bad

theorem KeepBad.trans {s t u : State} (h : KeepBad s t) (k : KeepBad t u) : KeepBad s u := by
  unfold KeepBad at *; simp_all

theorem KeepBad.refl {s : State} : KeepBad s s := by unfold KeepBad; simp

theorem KeepBad.of_eq {s t u : State} (e : u = t) (h : KeepBad s u) : KeepBad s t := e ▸ h

theorem KeepBad.of_frame {m : Nat} {s t u : State} (h : KeepBad s t) (k : FrameB m t u) (esup : m.testBit 34 = false := by decide) (esys : m.testBit 9 = false := by decide) : KeepBad s u := by
  refine h.trans ?_
  have e : u.sup = t.sup ∧ u.sys = t.sys := ⟨k .sup esup, k .sys esys⟩
  unfold KeepBad; simp_all

theorem KeepBad.ite {s t u : State} {c : Prop} {d : Decidable c} (h : KeepBad s t) (k : KeepBad s u) : KeepBad s (if c then t else u) := by split <;> assumption

theorem KeepBad.foldl {α : Type} {s t : State} {f : State → α → State} {l : List α} (h : KeepBad s t) (k : ∀ u x, KeepBad s u → KeepBad s (f u x)) : KeepBad s (l.foldl f t) := by
  induction l generalizing t with
  | nil => exact h
  | cons a l ih => exact ih (k t a h)

theorem KeepBad.set_pending {s t : State} {v} (h : KeepBad s t) : KeepBad s { t with pending := v } := h.trans (by unfold KeepBad; simp)

theorem KeepBad.set_us {s t : State} {v} (h : KeepBad s t) : KeepBad s { t with us := v } := h.trans (by unfold KeepBad; simp)

theorem KeepBad.set_busData {s t : State} {v} (h : KeepBad s t) : KeepBad s { t with busData := v } := h.trans (by unfold KeepBad; simp)

theorem KeepBad.set_busErr {s t : State} {v} (h : KeepBad s t) : KeepBad s { t with busErr := v } := h.trans (by unfold KeepBad; simp)

theorem KeepBad.set_regs {s t : State} {v} (h : KeepBad s t) : KeepBad s { t with regs := v } := h.trans (by unfold KeepBad; simp)

theorem KeepBad.set_mem {s t : State} {v} (h : KeepBad s t) : KeepBad s { t with mem := v } := h.trans (by unfold KeepBad; simp)

theorem KeepBad.set_tcm {s t : State} {v} (h : KeepBad s t) : KeepBad s { t with tcm := v } := h.trans (by unfold KeepBad; simp)

theorem KeepBad.set_free {s t : State} {v} (h : KeepBad s t) : KeepBad s { t with free := v } := h.trans (by unfold KeepBad; simp)

theorem KeepBad.set_hdr {s t : State} {v} (h : KeepBad s t) : KeepBad s { t with hdr := v } := h.trans (by unfold KeepBad; simp)

theorem KeepBad.set_sys {s t : State} {v} (e : v.railsGood = t.sys.railsGood) (h : KeepBad s t) : KeepBad s { t with sys := v } := h.trans (by unfold KeepBad; simp [e])

theorem KeepBad.set_clk {s t : State} {v} (h : KeepBad s t) : KeepBad s { t with clk := v } := h.trans (by unfold KeepBad; simp)

theorem KeepBad.set_pwr {s t : State} {v} (h : KeepBad s t) : KeepBad s { t with pwr := v } := h.trans (by unfold KeepBad; simp)

theorem KeepBad.set_l1 {s t : State} {v} (h : KeepBad s t) : KeepBad s { t with l1 := v } := h.trans (by unfold KeepBad; simp)

theorem KeepBad.set_irq {s t : State} {v} (h : KeepBad s t) : KeepBad s { t with irq := v } := h.trans (by unfold KeepBad; simp)

theorem KeepBad.set_llt {s t : State} {v} (h : KeepBad s t) : KeepBad s { t with llt := v } := h.trans (by unfold KeepBad; simp)

theorem KeepBad.set_hce {s t : State} {v} (h : KeepBad s t) : KeepBad s { t with hce := v } := h.trans (by unfold KeepBad; simp)

theorem KeepBad.set_lgr {s t : State} {v} (h : KeepBad s t) : KeepBad s { t with lgr := v } := h.trans (by unfold KeepBad; simp)

theorem KeepBad.set_xmt {s t : State} {v} (h : KeepBad s t) : KeepBad s { t with xmt := v } := h.trans (by unfold KeepBad; simp)

theorem KeepBad.set_rvr {s t : State} {v} (h : KeepBad s t) : KeepBad s { t with rvr := v } := h.trans (by unfold KeepBad; simp)

theorem KeepBad.set_cst {s t : State} {v} (h : KeepBad s t) : KeepBad s { t with cst := v } := h.trans (by unfold KeepBad; simp)

theorem KeepBad.set_asq {s t : State} {v} (h : KeepBad s t) : KeepBad s { t with asq := v } := h.trans (by unfold KeepBad; simp)

theorem KeepBad.set_rwc {s t : State} {v} (h : KeepBad s t) : KeepBad s { t with rwc := v } := h.trans (by unfold KeepBad; simp)

theorem KeepBad.set_ldp {s t : State} {v} (h : KeepBad s t) : KeepBad s { t with ldp := v } := h.trans (by unfold KeepBad; simp)

theorem KeepBad.set_tpe {s t : State} {v} (h : KeepBad s t) : KeepBad s { t with tpe := v } := h.trans (by unfold KeepBad; simp)

theorem KeepBad.set_sve {s t : State} {v} (h : KeepBad s t) : KeepBad s { t with sve := v } := h.trans (by unfold KeepBad; simp)

theorem KeepBad.set_spn {s t : State} {v} (h : KeepBad s t) : KeepBad s { t with spn := v } := h.trans (by unfold KeepBad; simp)

theorem KeepBad.set_psi {s t : State} {v} (h : KeepBad s t) : KeepBad s { t with psi := v } := h.trans (by unfold KeepBad; simp)

theorem KeepBad.set_lsr {s t : State} {v} (h : KeepBad s t) : KeepBad s { t with lsr := v } := h.trans (by unfold KeepBad; simp)

theorem KeepBad.set_opt {s t : State} {v} (h : KeepBad s t) : KeepBad s { t with opt := v } := h.trans (by unfold KeepBad; simp)

theorem KeepBad.set_dmc {s t : State} {v} (h : KeepBad s t) : KeepBad s { t with dmc := v } := h.trans (by unfold KeepBad; simp)

theorem KeepBad.set_bcc {s t : State} {v} (h : KeepBad s t) : KeepBad s { t with bcc := v } := h.trans (by unfold KeepBad; simp)

theorem KeepBad.set_sec {s t : State} {v} (h : KeepBad s t) : KeepBad s { t with sec := v } := h.trans (by unfold KeepBad; simp)

theorem KeepBad.set_thm {s t : State} {v} (h : KeepBad s t) : KeepBad s { t with thm := v } := h.trans (by unfold KeepBad; simp)

theorem KeepBad.set_trm {s t : State} {v} (h : KeepBad s t) : KeepBad s { t with trm := v } := h.trans (by unfold KeepBad; simp)

theorem KeepBad.set_sup {s t : State} {v} (e : v.bad = t.sup.bad) (h : KeepBad s t) : KeepBad s { t with sup := v } := h.trans (by unfold KeepBad; simp [e])

theorem KeepBad.set_evr {s t : State} {v} (h : KeepBad s t) : KeepBad s { t with evr := v } := h.trans (by unfold KeepBad; simp)

theorem KeepBad.set_lif {s t : State} {v} (h : KeepBad s t) : KeepBad s { t with lif := v } := h.trans (by unfold KeepBad; simp)

theorem KeepBad.set_cal {s t : State} {v} (h : KeepBad s t) : KeepBad s { t with cal := v } := h.trans (by unfold KeepBad; simp)

theorem KeepBad.set_vlk {s t : State} {v} (h : KeepBad s t) : KeepBad s { t with vlk := v } := h.trans (by unfold KeepBad; simp)

theorem KeepBad.set_busData_busErr_l1 {s t : State} {v0 v1 v2} (h : KeepBad s t) : KeepBad s { t with busData := v0, busErr := v1, l1 := v2 } := h.trans (by unfold KeepBad; simp)

theorem KeepBad.set_mem_dmc {s t : State} {v0 v1} (h : KeepBad s t) : KeepBad s { t with mem := v0, dmc := v1 } := h.trans (by unfold KeepBad; simp)

theorem KeepBad.set_clk_cal {s t : State} {v0 v1} (h : KeepBad s t) : KeepBad s { t with clk := v0, cal := v1 } := h.trans (by unfold KeepBad; simp)

theorem KeepBad.set_busData_cal {s t : State} {v0 v1} (h : KeepBad s t) : KeepBad s { t with busData := v0, cal := v1 } := h.trans (by unfold KeepBad; simp)

theorem KeepBad.set_busData_irq {s t : State} {v0 v1} (h : KeepBad s t) : KeepBad s { t with busData := v0, irq := v1 } := h.trans (by unfold KeepBad; simp)

theorem KeepBad.set_busData_tcm {s t : State} {v0 v1} (h : KeepBad s t) : KeepBad s { t with busData := v0, tcm := v1 } := h.trans (by unfold KeepBad; simp)

theorem KeepBad.set_busData_busErr {s t : State} {v0 v1} (h : KeepBad s t) : KeepBad s { t with busData := v0, busErr := v1 } := h.trans (by unfold KeepBad; simp)

theorem KeepBad_closeFetch s (h : KeepBad o s) : KeepBad o (closeFetch s) := by
  exact KeepBad.of_frame h (frame_closeFetch s (m := 0x8000) (o := s) .refl rfl)

theorem KeepBad_lifBump x0 x1 s (h : KeepBad o s) : KeepBad o (lifBump x0 x1 s) := by
  exact KeepBad.of_frame h (frame_lifBump x0 x1 s (m := 0x1800000100) (o := s) .refl rfl)

theorem KeepBad_raiseLine x0 s (h : KeepBad o s) : KeepBad o (raiseLine x0 s) := by
  exact KeepBad.of_frame h (frame_raiseLine x0 s (m := 0x2000) (o := s) .refl rfl)

theorem KeepBad_retractLoaded x0 s (h : KeepBad o s) : KeepBad o (retractLoaded x0 s) := by
  exact KeepBad.of_frame h (frame_retractLoaded x0 s (m := 0x1A1DB2A180) (o := s) .refl rfl)

theorem KeepBad_enterRectify s (h : KeepBad o s) : KeepBad o (enterRectify s) := by
  exact KeepBad.of_frame h (frame_enterRectify s (m := 0x1A1FB2A180) (o := s) .refl rfl)

theorem KeepBad_gatesAllOff s (h : KeepBad o s) : KeepBad o (gatesAllOff s) := by
  exact KeepBad.of_frame h (frame_gatesAllOff s (m := 0xCB22000) (o := s) .refl rfl)

theorem KeepBad_lasersOff s (h : KeepBad o s) : KeepBad o (lasersOff s) := by
  exact KeepBad.of_frame h (frame_lasersOff s (m := 0xC200000) (o := s) .refl rfl)

theorem KeepBad_State_modPwr x0 s (h : KeepBad o s) : KeepBad o (State.modPwr x0 s) := by
  exact KeepBad.of_frame h (frame_State_modPwr x0 s (m := 0x800) (o := s) .refl rfl)

theorem KeepBad_State_modSys x0 s (h : KeepBad o s) (e : ∀ y, (x0 y).railsGood = y.railsGood) : KeepBad o (State.modSys x0 s) := KeepBad.set_sys (e _) h

theorem KeepBad_coreReset s (h : KeepBad o s) : KeepBad o (coreReset s) := by
  exact h.trans ⟨rfl, rfl⟩

theorem KeepBad_zeroForPowerDown s (h : KeepBad o s) : KeepBad o (zeroForPowerDown s) := by
  exact KeepBad.of_frame h (frame_zeroForPowerDown s (m := 0x4080000000) (o := s) .refl rfl)

theorem KeepBad_darkEntry x0 x1 s (h : KeepBad o s) : KeepBad o (darkEntry x0 x1 s) := by
  unfold darkEntry
  repeat' first | (with_reducible first | assumption | apply KeepBad_State_modPwr | apply KeepBad_State_modSys | apply KeepBad_coreReset | apply KeepBad_zeroForPowerDown | apply KeepBad.ite) | (intro y; first | exact rfl | (simp; done)) | split | dsimp only

theorem KeepBad_enterDim s (h : KeepBad o s) : KeepBad o (enterDim s) := by
  exact KeepBad.of_frame h (frame_enterDim s (m := 0x1800018980) (o := s) .refl rfl)

theorem KeepBad_lossEnd s (h : KeepBad o s) : KeepBad o (lossEnd s) := by
  unfold lossEnd
  repeat' first | (with_reducible first | assumption | apply KeepBad_darkEntry | apply KeepBad_enterDim | apply KeepBad_zeroForPowerDown | apply KeepBad.ite) | (intro y; first | exact rfl | (simp; done)) | split | dsimp only

theorem KeepBad_revokeLeaves x0 s (h : KeepBad o s) : KeepBad o (revokeLeaves x0 s) := by
  exact KeepBad.of_frame h (frame_revokeLeaves x0 s (m := 0x1A0C306180) (o := s) .refl rfl)

theorem KeepBad_startCommit x0 s (h : KeepBad o s) : KeepBad o (startCommit x0 s) := by
  exact KeepBad.of_frame h (frame_startCommit x0 s (m := 0x180005C100) (o := s) .refl rfl)

theorem KeepBad_lossStart s (h : KeepBad o s) : KeepBad o (lossStart s) := by
  unfold lossStart
  repeat' first | (with_reducible first | assumption | apply KeepBad_closeFetch | apply KeepBad_enterRectify | apply KeepBad_gatesAllOff | apply KeepBad_lasersOff | apply KeepBad_lifBump | apply KeepBad_lossEnd | apply KeepBad_raiseLine | apply KeepBad_retractLoaded | apply KeepBad_revokeLeaves | apply KeepBad_startCommit | apply KeepBad.ite) | fail_if_no_progress ((with_reducible apply KeepBad.set_sup); (first | exact rfl | (simp; done))) | (intro y; first | exact rfl | (simp; done)) | split | dsimp only

end

section

variable {o : State}

/-- ldp.lastFail, ldp.waiting are as they were. -/
def KeepFail (s t : State) : Prop := t.ldp.lastFail = s.ldp.lastFail ∧ t.ldp.waiting = s.ldp.waiting

theorem KeepFail.trans {s t u : State} (h : KeepFail s t) (k : KeepFail t u) : KeepFail s u := by
  unfold KeepFail at *; simp_all

theorem KeepFail.refl {s : State} : KeepFail s s := by unfold KeepFail; simp

theorem KeepFail.of_eq {s t u : State} (e : u = t) (h : KeepFail s u) : KeepFail s t := e ▸ h

theorem KeepFail.of_frame {m : Nat} {s t u : State} (h : KeepFail s t) (k : FrameB m t u) (eldp : m.testBit 22 = false := by decide) : KeepFail s u := by
  refine h.trans ?_
  have e : u.ldp = t.ldp := k .ldp eldp
  unfold KeepFail; simp_all

theorem KeepFail.ite {s t u : State} {c : Prop} {d : Decidable c} (h : KeepFail s t) (k : KeepFail s u) : KeepFail s (if c then t else u) := by split <;> assumption

theorem KeepFail.foldl {α : Type} {s t : State} {f : State → α → State} {l : List α} (h : KeepFail s t) (k : ∀ u x, KeepFail s u → KeepFail s (f u x)) : KeepFail s (l.foldl f t) := by
  induction l generalizing t with
  | nil => exact h
  | cons a l ih => exact ih (k t a h)

theorem KeepFail.set_pending {s t : State} {v} (h : KeepFail s t) : KeepFail s { t with pending := v } := h.trans (by unfold KeepFail; simp)

theorem KeepFail.set_us {s t : State} {v} (h : KeepFail s t) : KeepFail s { t with us := v } := h.trans (by unfold KeepFail; simp)

theorem KeepFail.set_busData {s t : State} {v} (h : KeepFail s t) : KeepFail s { t with busData := v } := h.trans (by unfold KeepFail; simp)

theorem KeepFail.set_busErr {s t : State} {v} (h : KeepFail s t) : KeepFail s { t with busErr := v } := h.trans (by unfold KeepFail; simp)

theorem KeepFail.set_regs {s t : State} {v} (h : KeepFail s t) : KeepFail s { t with regs := v } := h.trans (by unfold KeepFail; simp)

theorem KeepFail.set_mem {s t : State} {v} (h : KeepFail s t) : KeepFail s { t with mem := v } := h.trans (by unfold KeepFail; simp)

theorem KeepFail.set_tcm {s t : State} {v} (h : KeepFail s t) : KeepFail s { t with tcm := v } := h.trans (by unfold KeepFail; simp)

theorem KeepFail.set_free {s t : State} {v} (h : KeepFail s t) : KeepFail s { t with free := v } := h.trans (by unfold KeepFail; simp)

theorem KeepFail.set_hdr {s t : State} {v} (h : KeepFail s t) : KeepFail s { t with hdr := v } := h.trans (by unfold KeepFail; simp)

theorem KeepFail.set_sys {s t : State} {v} (h : KeepFail s t) : KeepFail s { t with sys := v } := h.trans (by unfold KeepFail; simp)

theorem KeepFail.set_clk {s t : State} {v} (h : KeepFail s t) : KeepFail s { t with clk := v } := h.trans (by unfold KeepFail; simp)

theorem KeepFail.set_pwr {s t : State} {v} (h : KeepFail s t) : KeepFail s { t with pwr := v } := h.trans (by unfold KeepFail; simp)

theorem KeepFail.set_l1 {s t : State} {v} (h : KeepFail s t) : KeepFail s { t with l1 := v } := h.trans (by unfold KeepFail; simp)

theorem KeepFail.set_irq {s t : State} {v} (h : KeepFail s t) : KeepFail s { t with irq := v } := h.trans (by unfold KeepFail; simp)

theorem KeepFail.set_llt {s t : State} {v} (h : KeepFail s t) : KeepFail s { t with llt := v } := h.trans (by unfold KeepFail; simp)

theorem KeepFail.set_hce {s t : State} {v} (h : KeepFail s t) : KeepFail s { t with hce := v } := h.trans (by unfold KeepFail; simp)

theorem KeepFail.set_lgr {s t : State} {v} (h : KeepFail s t) : KeepFail s { t with lgr := v } := h.trans (by unfold KeepFail; simp)

theorem KeepFail.set_xmt {s t : State} {v} (h : KeepFail s t) : KeepFail s { t with xmt := v } := h.trans (by unfold KeepFail; simp)

theorem KeepFail.set_rvr {s t : State} {v} (h : KeepFail s t) : KeepFail s { t with rvr := v } := h.trans (by unfold KeepFail; simp)

theorem KeepFail.set_cst {s t : State} {v} (h : KeepFail s t) : KeepFail s { t with cst := v } := h.trans (by unfold KeepFail; simp)

theorem KeepFail.set_asq {s t : State} {v} (h : KeepFail s t) : KeepFail s { t with asq := v } := h.trans (by unfold KeepFail; simp)

theorem KeepFail.set_rwc {s t : State} {v} (h : KeepFail s t) : KeepFail s { t with rwc := v } := h.trans (by unfold KeepFail; simp)

theorem KeepFail.set_ldp {s t : State} {v} (e : v.lastFail = t.ldp.lastFail ∧ v.waiting = t.ldp.waiting) (h : KeepFail s t) : KeepFail s { t with ldp := v } := h.trans (by unfold KeepFail; simp [e])

theorem KeepFail.set_tpe {s t : State} {v} (h : KeepFail s t) : KeepFail s { t with tpe := v } := h.trans (by unfold KeepFail; simp)

theorem KeepFail.set_sve {s t : State} {v} (h : KeepFail s t) : KeepFail s { t with sve := v } := h.trans (by unfold KeepFail; simp)

theorem KeepFail.set_spn {s t : State} {v} (h : KeepFail s t) : KeepFail s { t with spn := v } := h.trans (by unfold KeepFail; simp)

theorem KeepFail.set_psi {s t : State} {v} (h : KeepFail s t) : KeepFail s { t with psi := v } := h.trans (by unfold KeepFail; simp)

theorem KeepFail.set_lsr {s t : State} {v} (h : KeepFail s t) : KeepFail s { t with lsr := v } := h.trans (by unfold KeepFail; simp)

theorem KeepFail.set_opt {s t : State} {v} (h : KeepFail s t) : KeepFail s { t with opt := v } := h.trans (by unfold KeepFail; simp)

theorem KeepFail.set_dmc {s t : State} {v} (h : KeepFail s t) : KeepFail s { t with dmc := v } := h.trans (by unfold KeepFail; simp)

theorem KeepFail.set_bcc {s t : State} {v} (h : KeepFail s t) : KeepFail s { t with bcc := v } := h.trans (by unfold KeepFail; simp)

theorem KeepFail.set_sec {s t : State} {v} (h : KeepFail s t) : KeepFail s { t with sec := v } := h.trans (by unfold KeepFail; simp)

theorem KeepFail.set_thm {s t : State} {v} (h : KeepFail s t) : KeepFail s { t with thm := v } := h.trans (by unfold KeepFail; simp)

theorem KeepFail.set_trm {s t : State} {v} (h : KeepFail s t) : KeepFail s { t with trm := v } := h.trans (by unfold KeepFail; simp)

theorem KeepFail.set_sup {s t : State} {v} (h : KeepFail s t) : KeepFail s { t with sup := v } := h.trans (by unfold KeepFail; simp)

theorem KeepFail.set_evr {s t : State} {v} (h : KeepFail s t) : KeepFail s { t with evr := v } := h.trans (by unfold KeepFail; simp)

theorem KeepFail.set_lif {s t : State} {v} (h : KeepFail s t) : KeepFail s { t with lif := v } := h.trans (by unfold KeepFail; simp)

theorem KeepFail.set_cal {s t : State} {v} (h : KeepFail s t) : KeepFail s { t with cal := v } := h.trans (by unfold KeepFail; simp)

theorem KeepFail.set_vlk {s t : State} {v} (h : KeepFail s t) : KeepFail s { t with vlk := v } := h.trans (by unfold KeepFail; simp)

theorem KeepFail.set_many14 {s t : State} {v0 v1 v2 v3 v4 v5 v6 v7 v8 v9 v10 v11 v12 v13} (h : KeepFail s t) : KeepFail s { t with us := v0, regs := v1, mem := v2, hdr := v3, sys := v4, clk := v5, pwr := v6, llt := v7, sec := v8, thm := v9, sup := v10, evr := v11, lif := v12, cal := v13 } := h.trans (by unfold KeepFail; simp)

theorem KeepFail.set_busData_busErr_l1 {s t : State} {v0 v1 v2} (h : KeepFail s t) : KeepFail s { t with busData := v0, busErr := v1, l1 := v2 } := h.trans (by unfold KeepFail; simp)

theorem KeepFail.set_mem_dmc {s t : State} {v0 v1} (h : KeepFail s t) : KeepFail s { t with mem := v0, dmc := v1 } := h.trans (by unfold KeepFail; simp)

theorem KeepFail.set_clk_cal {s t : State} {v0 v1} (h : KeepFail s t) : KeepFail s { t with clk := v0, cal := v1 } := h.trans (by unfold KeepFail; simp)

theorem KeepFail.set_busData_cal {s t : State} {v0 v1} (h : KeepFail s t) : KeepFail s { t with busData := v0, cal := v1 } := h.trans (by unfold KeepFail; simp)

theorem KeepFail.set_busData_irq {s t : State} {v0 v1} (h : KeepFail s t) : KeepFail s { t with busData := v0, irq := v1 } := h.trans (by unfold KeepFail; simp)

theorem KeepFail.set_busData_tcm {s t : State} {v0 v1} (h : KeepFail s t) : KeepFail s { t with busData := v0, tcm := v1 } := h.trans (by unfold KeepFail; simp)

theorem KeepFail.set_busData_busErr {s t : State} {v0 v1} (h : KeepFail s t) : KeepFail s { t with busData := v0, busErr := v1 } := h.trans (by unfold KeepFail; simp)

theorem KeepFail.set_us_sys {s t : State} {v0 v1} (h : KeepFail s t) : KeepFail s { t with us := v0, sys := v1 } := h.trans (by unfold KeepFail; simp)

theorem KeepFail_State_modLdp x0 s (h : KeepFail o s) (e : ∀ y, (x0 y).lastFail = y.lastFail ∧ (x0 y).waiting = y.waiting) : KeepFail o (State.modLdp x0 s) := KeepFail.set_ldp (e _) h

theorem KeepFail_raiseLine x0 s (h : KeepFail o s) : KeepFail o (raiseLine x0 s) := by
  exact KeepFail.of_frame h (frame_raiseLine x0 s (m := 0x2000) (o := s) .refl rfl)

theorem KeepFail_ldpBump x0 x1 s (h : KeepFail o s) : KeepFail o (ldpBump x0 x1 s) := by
  unfold ldpBump
  repeat' first | (with_reducible first | assumption | apply KeepFail_State_modLdp | apply KeepFail_raiseLine | apply KeepFail.ite) | (intro y; first | exact ⟨rfl, rfl⟩ | (simp; done)) | split | dsimp only

theorem KeepFail_ldpTake x0 s (h : KeepFail o s) : KeepFail o (ldpTake x0 s) := by
  induction x0 generalizing s  with
  | zero => unfold ldpTake; exact h
  | succ _ ih =>
    unfold ldpTake
    repeat' first | (with_reducible first | assumption | apply KeepFail_State_modLdp | apply KeepFail_ldpBump | apply KeepFail.ite) | ((with_reducible apply ih)) | (intro y; first | exact ⟨rfl, rfl⟩ | (simp; done)) | split | dsimp only

theorem KeepFail_slotsFreed s (h : KeepFail o s) : KeepFail o (slotsFreed s) := by
  exact KeepFail.of_frame h (frame_slotsFreed s (m := 0x100000) (o := s) .refl rfl)

theorem KeepFail_ldpRun s (h : KeepFail o s) : KeepFail o (ldpRun s) := by
  unfold ldpRun
  repeat' first | (with_reducible first | assumption | apply KeepFail_ldpTake | apply KeepFail_slotsFreed | apply KeepFail.ite) | (intro y; first | exact ⟨rfl, rfl⟩ | (simp; done)) | split | dsimp only

theorem KeepFail_ev x0 x1 x2 x3 x4 s (h : KeepFail o s) : KeepFail o (ev x0 x1 x2 x3 x4 s) := by
  exact KeepFail.of_frame h (frame_ev x0 x1 x2 x3 x4 s (m := 0x1800000100) (o := s) .refl rfl)

theorem KeepFail_healthAdd x0 x1 x2 s (h : KeepFail o s) : KeepFail o (healthAdd x0 x1 x2 s) := by
  exact KeepFail.of_frame h (frame_healthAdd x0 x1 x2 s (m := 0x8000) (o := s) .refl rfl)

theorem KeepFail_ladderResult x0 x1 x2 s (h : KeepFail o s) : KeepFail o (ladderResult x0 x1 x2 s) := by
  unfold ladderResult
  repeat' first | (with_reducible first | assumption | apply KeepFail_ev | apply KeepFail_healthAdd | apply KeepFail_ldpBump | apply KeepFail.ite) | (intro y; first | exact ⟨rfl, rfl⟩ | (simp; done)) | split | dsimp only

theorem KeepFail_State_modRwc x0 x1 s (h : KeepFail o s) : KeepFail o (State.modRwc x0 x1 s) := by
  exact KeepFail.of_frame h (frame_State_modRwc x0 x1 s (m := 0x200000) (o := s) .refl rfl)

theorem KeepFail_freeRetained x0 s (h : KeepFail o s) : KeepFail o (freeRetained x0 s) := by
  unfold freeRetained
  repeat' first | (with_reducible first | assumption | apply KeepFail_State_modLdp | apply KeepFail.ite) | (intro y; first | exact ⟨rfl, rfl⟩ | (simp; done)) | split | dsimp only

theorem KeepFail_putStatus x0 x1 s (h : KeepFail o s) : KeepFail o (putStatus x0 x1 s) := by
  unfold putStatus
  repeat' first | (with_reducible first | assumption | apply KeepFail_State_modLdp | apply KeepFail.ite) | (intro y; first | exact ⟨rfl, rfl⟩ | (simp; done)) | split | dsimp only

theorem KeepFail_decodeGood x0 s (h : KeepFail o s) : KeepFail o (decodeGood x0 s) := by
  unfold decodeGood
  repeat' first | (with_reducible first | assumption | apply KeepFail_State_modRwc | apply KeepFail_freeRetained | apply KeepFail_putStatus | apply KeepFail.ite) | (intro y; first | exact ⟨rfl, rfl⟩ | (simp; done)) | split | dsimp only

end

section

variable {o : State}

/-- thm.sens, thm.maxValid, thm.maxSens, thm.maxTemp, thm.wickValid, thm.wickTemp are as they were. -/
def KeepMax (s t : State) : Prop := t.thm.sens = s.thm.sens ∧ t.thm.maxValid = s.thm.maxValid ∧ t.thm.maxSens = s.thm.maxSens ∧ t.thm.maxTemp = s.thm.maxTemp ∧ t.thm.wickValid = s.thm.wickValid ∧ t.thm.wickTemp = s.thm.wickTemp

theorem KeepMax.trans {s t u : State} (h : KeepMax s t) (k : KeepMax t u) : KeepMax s u := by
  unfold KeepMax at *; simp_all

theorem KeepMax.refl {s : State} : KeepMax s s := by unfold KeepMax; simp

theorem KeepMax.of_eq {s t u : State} (e : u = t) (h : KeepMax s u) : KeepMax s t := e ▸ h

theorem KeepMax.of_frame {m : Nat} {s t u : State} (h : KeepMax s t) (k : FrameB m t u) (ethm : m.testBit 32 = false := by decide) : KeepMax s u := by
  refine h.trans ?_
  have e : u.thm = t.thm := k .thm ethm
  unfold KeepMax; simp_all

theorem KeepMax.ite {s t u : State} {c : Prop} {d : Decidable c} (h : KeepMax s t) (k : KeepMax s u) : KeepMax s (if c then t else u) := by split <;> assumption

theorem KeepMax.foldl {α : Type} {s t : State} {f : State → α → State} {l : List α} (h : KeepMax s t) (k : ∀ u x, KeepMax s u → KeepMax s (f u x)) : KeepMax s (l.foldl f t) := by
  induction l generalizing t with
  | nil => exact h
  | cons a l ih => exact ih (k t a h)

theorem KeepMax.set_pending {s t : State} {v} (h : KeepMax s t) : KeepMax s { t with pending := v } := h.trans (by unfold KeepMax; simp)

theorem KeepMax.set_us {s t : State} {v} (h : KeepMax s t) : KeepMax s { t with us := v } := h.trans (by unfold KeepMax; simp)

theorem KeepMax.set_busData {s t : State} {v} (h : KeepMax s t) : KeepMax s { t with busData := v } := h.trans (by unfold KeepMax; simp)

theorem KeepMax.set_busErr {s t : State} {v} (h : KeepMax s t) : KeepMax s { t with busErr := v } := h.trans (by unfold KeepMax; simp)

theorem KeepMax.set_regs {s t : State} {v} (h : KeepMax s t) : KeepMax s { t with regs := v } := h.trans (by unfold KeepMax; simp)

theorem KeepMax.set_mem {s t : State} {v} (h : KeepMax s t) : KeepMax s { t with mem := v } := h.trans (by unfold KeepMax; simp)

theorem KeepMax.set_tcm {s t : State} {v} (h : KeepMax s t) : KeepMax s { t with tcm := v } := h.trans (by unfold KeepMax; simp)

theorem KeepMax.set_free {s t : State} {v} (h : KeepMax s t) : KeepMax s { t with free := v } := h.trans (by unfold KeepMax; simp)

theorem KeepMax.set_hdr {s t : State} {v} (h : KeepMax s t) : KeepMax s { t with hdr := v } := h.trans (by unfold KeepMax; simp)

theorem KeepMax.set_sys {s t : State} {v} (h : KeepMax s t) : KeepMax s { t with sys := v } := h.trans (by unfold KeepMax; simp)

theorem KeepMax.set_clk {s t : State} {v} (h : KeepMax s t) : KeepMax s { t with clk := v } := h.trans (by unfold KeepMax; simp)

theorem KeepMax.set_pwr {s t : State} {v} (h : KeepMax s t) : KeepMax s { t with pwr := v } := h.trans (by unfold KeepMax; simp)

theorem KeepMax.set_l1 {s t : State} {v} (h : KeepMax s t) : KeepMax s { t with l1 := v } := h.trans (by unfold KeepMax; simp)

theorem KeepMax.set_irq {s t : State} {v} (h : KeepMax s t) : KeepMax s { t with irq := v } := h.trans (by unfold KeepMax; simp)

theorem KeepMax.set_llt {s t : State} {v} (h : KeepMax s t) : KeepMax s { t with llt := v } := h.trans (by unfold KeepMax; simp)

theorem KeepMax.set_hce {s t : State} {v} (h : KeepMax s t) : KeepMax s { t with hce := v } := h.trans (by unfold KeepMax; simp)

theorem KeepMax.set_lgr {s t : State} {v} (h : KeepMax s t) : KeepMax s { t with lgr := v } := h.trans (by unfold KeepMax; simp)

theorem KeepMax.set_xmt {s t : State} {v} (h : KeepMax s t) : KeepMax s { t with xmt := v } := h.trans (by unfold KeepMax; simp)

theorem KeepMax.set_rvr {s t : State} {v} (h : KeepMax s t) : KeepMax s { t with rvr := v } := h.trans (by unfold KeepMax; simp)

theorem KeepMax.set_cst {s t : State} {v} (h : KeepMax s t) : KeepMax s { t with cst := v } := h.trans (by unfold KeepMax; simp)

theorem KeepMax.set_asq {s t : State} {v} (h : KeepMax s t) : KeepMax s { t with asq := v } := h.trans (by unfold KeepMax; simp)

theorem KeepMax.set_rwc {s t : State} {v} (h : KeepMax s t) : KeepMax s { t with rwc := v } := h.trans (by unfold KeepMax; simp)

theorem KeepMax.set_ldp {s t : State} {v} (h : KeepMax s t) : KeepMax s { t with ldp := v } := h.trans (by unfold KeepMax; simp)

theorem KeepMax.set_tpe {s t : State} {v} (h : KeepMax s t) : KeepMax s { t with tpe := v } := h.trans (by unfold KeepMax; simp)

theorem KeepMax.set_sve {s t : State} {v} (h : KeepMax s t) : KeepMax s { t with sve := v } := h.trans (by unfold KeepMax; simp)

theorem KeepMax.set_spn {s t : State} {v} (h : KeepMax s t) : KeepMax s { t with spn := v } := h.trans (by unfold KeepMax; simp)

theorem KeepMax.set_psi {s t : State} {v} (h : KeepMax s t) : KeepMax s { t with psi := v } := h.trans (by unfold KeepMax; simp)

theorem KeepMax.set_lsr {s t : State} {v} (h : KeepMax s t) : KeepMax s { t with lsr := v } := h.trans (by unfold KeepMax; simp)

theorem KeepMax.set_opt {s t : State} {v} (h : KeepMax s t) : KeepMax s { t with opt := v } := h.trans (by unfold KeepMax; simp)

theorem KeepMax.set_dmc {s t : State} {v} (h : KeepMax s t) : KeepMax s { t with dmc := v } := h.trans (by unfold KeepMax; simp)

theorem KeepMax.set_bcc {s t : State} {v} (h : KeepMax s t) : KeepMax s { t with bcc := v } := h.trans (by unfold KeepMax; simp)

theorem KeepMax.set_sec {s t : State} {v} (h : KeepMax s t) : KeepMax s { t with sec := v } := h.trans (by unfold KeepMax; simp)

theorem KeepMax.set_thm {s t : State} {v} (e : v.sens = t.thm.sens ∧ v.maxValid = t.thm.maxValid ∧ v.maxSens = t.thm.maxSens ∧ v.maxTemp = t.thm.maxTemp ∧ v.wickValid = t.thm.wickValid ∧ v.wickTemp = t.thm.wickTemp) (h : KeepMax s t) : KeepMax s { t with thm := v } := h.trans (by unfold KeepMax; simp [e])

theorem KeepMax.set_trm {s t : State} {v} (h : KeepMax s t) : KeepMax s { t with trm := v } := h.trans (by unfold KeepMax; simp)

theorem KeepMax.set_sup {s t : State} {v} (h : KeepMax s t) : KeepMax s { t with sup := v } := h.trans (by unfold KeepMax; simp)

theorem KeepMax.set_evr {s t : State} {v} (h : KeepMax s t) : KeepMax s { t with evr := v } := h.trans (by unfold KeepMax; simp)

theorem KeepMax.set_lif {s t : State} {v} (h : KeepMax s t) : KeepMax s { t with lif := v } := h.trans (by unfold KeepMax; simp)

theorem KeepMax.set_cal {s t : State} {v} (h : KeepMax s t) : KeepMax s { t with cal := v } := h.trans (by unfold KeepMax; simp)

theorem KeepMax.set_vlk {s t : State} {v} (h : KeepMax s t) : KeepMax s { t with vlk := v } := h.trans (by unfold KeepMax; simp)

theorem KeepMax.set_busData_busErr_l1 {s t : State} {v0 v1 v2} (h : KeepMax s t) : KeepMax s { t with busData := v0, busErr := v1, l1 := v2 } := h.trans (by unfold KeepMax; simp)

theorem KeepMax.set_mem_dmc {s t : State} {v0 v1} (h : KeepMax s t) : KeepMax s { t with mem := v0, dmc := v1 } := h.trans (by unfold KeepMax; simp)

theorem KeepMax.set_clk_cal {s t : State} {v0 v1} (h : KeepMax s t) : KeepMax s { t with clk := v0, cal := v1 } := h.trans (by unfold KeepMax; simp)

theorem KeepMax.set_busData_cal {s t : State} {v0 v1} (h : KeepMax s t) : KeepMax s { t with busData := v0, cal := v1 } := h.trans (by unfold KeepMax; simp)

theorem KeepMax.set_busData_irq {s t : State} {v0 v1} (h : KeepMax s t) : KeepMax s { t with busData := v0, irq := v1 } := h.trans (by unfold KeepMax; simp)

theorem KeepMax.set_busData_tcm {s t : State} {v0 v1} (h : KeepMax s t) : KeepMax s { t with busData := v0, tcm := v1 } := h.trans (by unfold KeepMax; simp)

theorem KeepMax.set_busData_busErr {s t : State} {v0 v1} (h : KeepMax s t) : KeepMax s { t with busData := v0, busErr := v1 } := h.trans (by unfold KeepMax; simp)

theorem KeepMax.set_us_sys {s t : State} {v0 v1} (h : KeepMax s t) : KeepMax s { t with us := v0, sys := v1 } := h.trans (by unfold KeepMax; simp)

theorem KeepMax_State_modThm x0 s (h : KeepMax o s) (e : ∀ y, (x0 y).sens = y.sens ∧ (x0 y).maxValid = y.maxValid ∧ (x0 y).maxSens = y.maxSens ∧ (x0 y).maxTemp = y.maxTemp ∧ (x0 y).wickValid = y.wickValid ∧ (x0 y).wickTemp = y.wickTemp) : KeepMax o (State.modThm x0 s) := KeepMax.set_thm (e _) h

theorem KeepMax_raiseLine x0 s (h : KeepMax o s) : KeepMax o (raiseLine x0 s) := by
  exact KeepMax.of_frame h (frame_raiseLine x0 s (m := 0x2000) (o := s) .refl rfl)

theorem KeepMax_ev x0 x1 x2 x3 x4 s (h : KeepMax o s) : KeepMax o (ev x0 x1 x2 x3 x4 s) := by
  exact KeepMax.of_frame h (frame_ev x0 x1 x2 x3 x4 s (m := 0x1800000100) (o := s) .refl rfl)

theorem KeepMax_thermLower s (h : KeepMax o s) : KeepMax o (thermLower s) := by
  exact KeepMax.of_frame h (frame_thermLower s (m := 0x1800004100) (o := s) .refl rfl)

theorem KeepMax_walkQueue s (h : KeepMax o s) : KeepMax o (walkQueue s) := by
  exact KeepMax.of_frame h (frame_walkQueue s (m := 0x6000) (o := s) .refl rfl)

theorem KeepMax_setThrot x0 s (h : KeepMax o s) : KeepMax o (setThrot x0 s) := by
  unfold setThrot
  repeat' first | (with_reducible first | assumption | apply KeepMax_State_modThm | apply KeepMax_raiseLine | apply KeepMax_thermLower | apply KeepMax_walkQueue | apply KeepMax.ite) | (intro y; first | exact ⟨rfl, rfl, rfl, rfl, rfl, rfl⟩ | (simp; done)) | split | dsimp only

theorem KeepMax_State_modCtrl x0 x1 s (h : KeepMax o s) : KeepMax o (State.modCtrl x0 x1 s) := by
  exact KeepMax.of_frame h (frame_State_modCtrl x0 x1 s (m := 0x8000) (o := s) .refl rfl)

theorem KeepMax_critical x0 s (h : KeepMax o s) : KeepMax o (critical x0 s) := by
  exact KeepMax.of_frame h (frame_critical x0 s (m := 0x18080) (o := s) .refl rfl)

theorem KeepMax_setWarn x0 s (h : KeepMax o s) : KeepMax o (setWarn x0 s) := by
  unfold setWarn
  repeat' first | (with_reducible first | assumption | apply KeepMax_State_modCtrl | apply KeepMax_State_modThm | apply KeepMax_critical | apply KeepMax_ev | apply KeepMax_raiseLine | apply KeepMax.ite) | (intro y; first | exact ⟨rfl, rfl, rfl, rfl, rfl, rfl⟩ | (simp; done)) | split | dsimp only

theorem KeepMax_stateCounts x0 s (h : KeepMax o s) : KeepMax o (stateCounts x0 s) := by
  unfold stateCounts
  repeat' first | (with_reducible first | assumption | apply KeepMax_State_modThm | apply KeepMax_setThrot | apply KeepMax_setWarn | apply KeepMax.ite) | (intro y; first | exact ⟨rfl, rfl, rfl, rfl, rfl, rfl⟩ | (simp; done)) | split | dsimp only

theorem KeepMax_faultAll x0 s (h : KeepMax o s) : KeepMax o (faultAll x0 s) := by
  exact KeepMax.of_frame h (frame_faultAll x0 s (m := 0x1A0CB22180) (o := s) .refl rfl)

theorem KeepMax_lasersOff s (h : KeepMax o s) : KeepMax o (lasersOff s) := by
  exact KeepMax.of_frame h (frame_lasersOff s (m := 0xC200000) (o := s) .refl rfl)

theorem KeepMax_retractLoaded x0 s (h : KeepMax o s) : KeepMax o (retractLoaded x0 s) := by
  exact KeepMax.of_frame h (frame_retractLoaded x0 s (m := 0x1A1DB2A180) (o := s) .refl rfl)

theorem KeepMax_revokeLeaves x0 s (h : KeepMax o s) : KeepMax o (revokeLeaves x0 s) := by
  exact KeepMax.of_frame h (frame_revokeLeaves x0 s (m := 0x1A0C306180) (o := s) .refl rfl)

theorem KeepMax_guarantee x0 x1 x2 x3 x4 x5 s (h : KeepMax o s) : KeepMax o (guarantee x0 x1 x2 x3 x4 x5 s) := by
  exact KeepMax.of_frame h (frame_guarantee x0 x1 x2 x3 x4 x5 s (m := 0x1800000100) (o := s) .refl rfl)

theorem KeepMax_shutCmd x0 s (h : KeepMax o s) : KeepMax o (shutCmd x0 s) := by
  exact KeepMax.of_frame h (frame_shutCmd x0 s (m := 0x1800038180) (o := s) .refl rfl)

theorem KeepMax_spnToCoast s (h : KeepMax o s) : KeepMax o (spnToCoast s) := by
  exact KeepMax.of_frame h (frame_spnToCoast s (m := 0x1802000100) (o := s) .refl rfl)

theorem KeepMax_startCommit x0 s (h : KeepMax o s) : KeepMax o (startCommit x0 s) := by
  exact KeepMax.of_frame h (frame_startCommit x0 s (m := 0x180005C100) (o := s) .refl rfl)

theorem KeepMax_thermalShutdown s (h : KeepMax o s) : KeepMax o (thermalShutdown s) := by
  unfold thermalShutdown
  repeat' first | (with_reducible first | assumption | apply KeepMax_State_modThm | apply KeepMax_ev | apply KeepMax_faultAll | apply KeepMax_lasersOff | apply KeepMax_raiseLine | apply KeepMax_retractLoaded | apply KeepMax_revokeLeaves | apply KeepMax_shutCmd | apply KeepMax_spnToCoast | apply KeepMax_startCommit | refine KeepMax.foldl ?_ (fun _ _ _ => ?_) | apply KeepMax.ite) | (intro y; first | exact ⟨rfl, rfl, rfl, rfl, rfl, rfl⟩ | (simp; done)) | split | dsimp only

theorem KeepMax_shutCount x0 s (h : KeepMax o s) : KeepMax o (shutCount x0 s) := by
  unfold shutCount
  repeat' first | (with_reducible first | assumption | apply KeepMax_State_modThm | apply KeepMax_thermalShutdown | apply KeepMax.ite) | (intro y; first | exact ⟨rfl, rfl, rfl, rfl, rfl, rfl⟩ | (simp; done)) | split | dsimp only

theorem KeepMax_abandonCommit s (h : KeepMax o s) : KeepMax o (abandonCommit s) := by
  exact KeepMax.of_frame h (frame_abandonCommit s (m := 0x180005C380) (o := s) .refl rfl)

theorem KeepMax_criticalLimit x0 x1 s (h : KeepMax o s) : KeepMax o (criticalLimit x0 x1 s) := by
  unfold criticalLimit
  repeat' first | (with_reducible first | assumption | apply KeepMax_State_modThm | apply KeepMax_abandonCommit | apply KeepMax_guarantee | apply KeepMax_retractLoaded | refine KeepMax.foldl ?_ (fun _ _ _ => ?_) | apply KeepMax.ite) | (intro y; first | exact ⟨rfl, rfl, rfl, rfl, rfl, rfl⟩ | (simp; done)) | split | dsimp only

end

section

variable {o : State}

/-- evr.next, evr.opn, evr.flood, evr.period, evr.base, evr.staged, evr.stored are as they were. -/
def KeepNum (s t : State) : Prop := t.evr.next = s.evr.next ∧ t.evr.opn = s.evr.opn ∧ t.evr.flood = s.evr.flood ∧ t.evr.period = s.evr.period ∧ t.evr.base = s.evr.base ∧ t.evr.staged = s.evr.staged ∧ t.evr.stored = s.evr.stored

theorem KeepNum.trans {s t u : State} (h : KeepNum s t) (k : KeepNum t u) : KeepNum s u := by
  unfold KeepNum at *; simp_all

theorem KeepNum.refl {s : State} : KeepNum s s := by unfold KeepNum; simp

theorem KeepNum.of_eq {s t u : State} (e : u = t) (h : KeepNum s u) : KeepNum s t := e ▸ h

theorem KeepNum.of_frame {m : Nat} {s t u : State} (h : KeepNum s t) (k : FrameB m t u) (eevr : m.testBit 35 = false := by decide) : KeepNum s u := by
  refine h.trans ?_
  have e : u.evr = t.evr := k .evr eevr
  unfold KeepNum; simp_all

theorem KeepNum.ite {s t u : State} {c : Prop} {d : Decidable c} (h : KeepNum s t) (k : KeepNum s u) : KeepNum s (if c then t else u) := by split <;> assumption

theorem KeepNum.foldl {α : Type} {s t : State} {f : State → α → State} {l : List α} (h : KeepNum s t) (k : ∀ u x, KeepNum s u → KeepNum s (f u x)) : KeepNum s (l.foldl f t) := by
  induction l generalizing t with
  | nil => exact h
  | cons a l ih => exact ih (k t a h)

theorem KeepNum.set_pending {s t : State} {v} (h : KeepNum s t) : KeepNum s { t with pending := v } := h.trans (by unfold KeepNum; simp)

theorem KeepNum.set_us {s t : State} {v} (h : KeepNum s t) : KeepNum s { t with us := v } := h.trans (by unfold KeepNum; simp)

theorem KeepNum.set_busData {s t : State} {v} (h : KeepNum s t) : KeepNum s { t with busData := v } := h.trans (by unfold KeepNum; simp)

theorem KeepNum.set_busErr {s t : State} {v} (h : KeepNum s t) : KeepNum s { t with busErr := v } := h.trans (by unfold KeepNum; simp)

theorem KeepNum.set_regs {s t : State} {v} (h : KeepNum s t) : KeepNum s { t with regs := v } := h.trans (by unfold KeepNum; simp)

theorem KeepNum.set_mem {s t : State} {v} (h : KeepNum s t) : KeepNum s { t with mem := v } := h.trans (by unfold KeepNum; simp)

theorem KeepNum.set_tcm {s t : State} {v} (h : KeepNum s t) : KeepNum s { t with tcm := v } := h.trans (by unfold KeepNum; simp)

theorem KeepNum.set_free {s t : State} {v} (h : KeepNum s t) : KeepNum s { t with free := v } := h.trans (by unfold KeepNum; simp)

theorem KeepNum.set_hdr {s t : State} {v} (h : KeepNum s t) : KeepNum s { t with hdr := v } := h.trans (by unfold KeepNum; simp)

theorem KeepNum.set_sys {s t : State} {v} (h : KeepNum s t) : KeepNum s { t with sys := v } := h.trans (by unfold KeepNum; simp)

theorem KeepNum.set_clk {s t : State} {v} (h : KeepNum s t) : KeepNum s { t with clk := v } := h.trans (by unfold KeepNum; simp)

theorem KeepNum.set_pwr {s t : State} {v} (h : KeepNum s t) : KeepNum s { t with pwr := v } := h.trans (by unfold KeepNum; simp)

theorem KeepNum.set_l1 {s t : State} {v} (h : KeepNum s t) : KeepNum s { t with l1 := v } := h.trans (by unfold KeepNum; simp)

theorem KeepNum.set_irq {s t : State} {v} (h : KeepNum s t) : KeepNum s { t with irq := v } := h.trans (by unfold KeepNum; simp)

theorem KeepNum.set_llt {s t : State} {v} (h : KeepNum s t) : KeepNum s { t with llt := v } := h.trans (by unfold KeepNum; simp)

theorem KeepNum.set_hce {s t : State} {v} (h : KeepNum s t) : KeepNum s { t with hce := v } := h.trans (by unfold KeepNum; simp)

theorem KeepNum.set_lgr {s t : State} {v} (h : KeepNum s t) : KeepNum s { t with lgr := v } := h.trans (by unfold KeepNum; simp)

theorem KeepNum.set_xmt {s t : State} {v} (h : KeepNum s t) : KeepNum s { t with xmt := v } := h.trans (by unfold KeepNum; simp)

theorem KeepNum.set_rvr {s t : State} {v} (h : KeepNum s t) : KeepNum s { t with rvr := v } := h.trans (by unfold KeepNum; simp)

theorem KeepNum.set_cst {s t : State} {v} (h : KeepNum s t) : KeepNum s { t with cst := v } := h.trans (by unfold KeepNum; simp)

theorem KeepNum.set_asq {s t : State} {v} (h : KeepNum s t) : KeepNum s { t with asq := v } := h.trans (by unfold KeepNum; simp)

theorem KeepNum.set_rwc {s t : State} {v} (h : KeepNum s t) : KeepNum s { t with rwc := v } := h.trans (by unfold KeepNum; simp)

theorem KeepNum.set_ldp {s t : State} {v} (h : KeepNum s t) : KeepNum s { t with ldp := v } := h.trans (by unfold KeepNum; simp)

theorem KeepNum.set_tpe {s t : State} {v} (h : KeepNum s t) : KeepNum s { t with tpe := v } := h.trans (by unfold KeepNum; simp)

theorem KeepNum.set_sve {s t : State} {v} (h : KeepNum s t) : KeepNum s { t with sve := v } := h.trans (by unfold KeepNum; simp)

theorem KeepNum.set_spn {s t : State} {v} (h : KeepNum s t) : KeepNum s { t with spn := v } := h.trans (by unfold KeepNum; simp)

theorem KeepNum.set_psi {s t : State} {v} (h : KeepNum s t) : KeepNum s { t with psi := v } := h.trans (by unfold KeepNum; simp)

theorem KeepNum.set_lsr {s t : State} {v} (h : KeepNum s t) : KeepNum s { t with lsr := v } := h.trans (by unfold KeepNum; simp)

theorem KeepNum.set_opt {s t : State} {v} (h : KeepNum s t) : KeepNum s { t with opt := v } := h.trans (by unfold KeepNum; simp)

theorem KeepNum.set_dmc {s t : State} {v} (h : KeepNum s t) : KeepNum s { t with dmc := v } := h.trans (by unfold KeepNum; simp)

theorem KeepNum.set_bcc {s t : State} {v} (h : KeepNum s t) : KeepNum s { t with bcc := v } := h.trans (by unfold KeepNum; simp)

theorem KeepNum.set_sec {s t : State} {v} (h : KeepNum s t) : KeepNum s { t with sec := v } := h.trans (by unfold KeepNum; simp)

theorem KeepNum.set_thm {s t : State} {v} (h : KeepNum s t) : KeepNum s { t with thm := v } := h.trans (by unfold KeepNum; simp)

theorem KeepNum.set_trm {s t : State} {v} (h : KeepNum s t) : KeepNum s { t with trm := v } := h.trans (by unfold KeepNum; simp)

theorem KeepNum.set_sup {s t : State} {v} (h : KeepNum s t) : KeepNum s { t with sup := v } := h.trans (by unfold KeepNum; simp)

theorem KeepNum.set_evr {s t : State} {v} (e : v.next = t.evr.next ∧ v.opn = t.evr.opn ∧ v.flood = t.evr.flood ∧ v.period = t.evr.period ∧ v.base = t.evr.base ∧ v.staged = t.evr.staged ∧ v.stored = t.evr.stored) (h : KeepNum s t) : KeepNum s { t with evr := v } := h.trans (by unfold KeepNum; simp [e])

theorem KeepNum.set_lif {s t : State} {v} (h : KeepNum s t) : KeepNum s { t with lif := v } := h.trans (by unfold KeepNum; simp)

theorem KeepNum.set_cal {s t : State} {v} (h : KeepNum s t) : KeepNum s { t with cal := v } := h.trans (by unfold KeepNum; simp)

theorem KeepNum.set_vlk {s t : State} {v} (h : KeepNum s t) : KeepNum s { t with vlk := v } := h.trans (by unfold KeepNum; simp)

theorem KeepNum.set_many31 {s t : State} {v0 v1 v2 v3 v4 v5 v6 v7 v8 v9 v10 v11 v12 v13 v14 v15 v16 v17 v18 v19 v20 v21 v22 v23 v24 v25 v26 v27 v28 v29 v30} (h : KeepNum s t) : KeepNum s { t with regs := v0, mem := v1, tcm := v2, hdr := v3, sys := v4, clk := v5, pwr := v6, l1 := v7, irq := v8, llt := v9, hce := v10, lgr := v11, xmt := v12, rvr := v13, cst := v14, asq := v15, rwc := v16, ldp := v17, tpe := v18, sve := v19, spn := v20, psi := v21, lsr := v22, opt := v23, dmc := v24, bcc := v25, sec := v26, thm := v27, trm := v28, sup := v29, vlk := v30 } := h.trans (by unfold KeepNum; simp)

theorem KeepNum.set_busData_busErr_l1 {s t : State} {v0 v1 v2} (h : KeepNum s t) : KeepNum s { t with busData := v0, busErr := v1, l1 := v2 } := h.trans (by unfold KeepNum; simp)

theorem KeepNum.set_mem_dmc {s t : State} {v0 v1} (h : KeepNum s t) : KeepNum s { t with mem := v0, dmc := v1 } := h.trans (by unfold KeepNum; simp)

theorem KeepNum.set_clk_cal {s t : State} {v0 v1} (h : KeepNum s t) : KeepNum s { t with clk := v0, cal := v1 } := h.trans (by unfold KeepNum; simp)

theorem KeepNum.set_busData_cal {s t : State} {v0 v1} (h : KeepNum s t) : KeepNum s { t with busData := v0, cal := v1 } := h.trans (by unfold KeepNum; simp)

theorem KeepNum.set_busData_irq {s t : State} {v0 v1} (h : KeepNum s t) : KeepNum s { t with busData := v0, irq := v1 } := h.trans (by unfold KeepNum; simp)

theorem KeepNum.set_busData_tcm {s t : State} {v0 v1} (h : KeepNum s t) : KeepNum s { t with busData := v0, tcm := v1 } := h.trans (by unfold KeepNum; simp)

theorem KeepNum.set_busData_busErr {s t : State} {v0 v1} (h : KeepNum s t) : KeepNum s { t with busData := v0, busErr := v1 } := h.trans (by unfold KeepNum; simp)

theorem KeepNum.set_us_sys {s t : State} {v0 v1} (h : KeepNum s t) : KeepNum s { t with us := v0, sys := v1 } := h.trans (by unfold KeepNum; simp)

theorem KeepNum_State_modVlk x0 s (h : KeepNum o s) : KeepNum o (State.modVlk x0 s) := by
  exact KeepNum.of_frame h (frame_State_modVlk x0 s (m := 0x4000000000) (o := s) .refl rfl)

theorem KeepNum_State_modEvr x0 s (h : KeepNum o s) (e : ∀ y, (x0 y).next = y.next ∧ (x0 y).opn = y.opn ∧ (x0 y).flood = y.flood ∧ (x0 y).period = y.period ∧ (x0 y).base = y.base ∧ (x0 y).staged = y.staged ∧ (x0 y).stored = y.stored) : KeepNum o (State.modEvr x0 s) := KeepNum.set_evr (e _) h

theorem KeepNum_enqueue x0 x1 x2 x3 x4 s (h : KeepNum o s) : KeepNum o (enqueue x0 x1 x2 x3 x4 s) := by
  unfold enqueue
  repeat' first | (with_reducible first | assumption | apply KeepNum_State_modEvr | apply KeepNum.ite) | fail_if_no_progress (with_reducible apply KeepNum.set_lif) | (intro y; first | exact ⟨rfl, rfl, rfl, rfl, rfl, rfl, rfl⟩ | (simp; done)) | split | dsimp only

theorem KeepNum_setIrqStat x0 x1 x2 s (h : KeepNum o s) : KeepNum o (setIrqStat x0 x1 x2 s) := by
  exact KeepNum.of_frame h (frame_setIrqStat x0 x1 x2 s (m := 0x100) (o := s) .refl rfl)

theorem KeepNum_lifBump x0 x1 s (h : KeepNum o s) : KeepNum o (lifBump x0 x1 s) := by
  unfold lifBump
  repeat' first | (with_reducible first | assumption | apply KeepNum_enqueue | apply KeepNum_setIrqStat | apply KeepNum.ite) | fail_if_no_progress (with_reducible apply KeepNum.set_lif) | (intro y; first | exact ⟨rfl, rfl, rfl, rfl, rfl, rfl, rfl⟩ | (simp; done)) | split | dsimp only

theorem KeepNum_recordEvent x0 x1 x2 x3 x4 s (h : KeepNum o s) : KeepNum o (recordEvent x0 x1 x2 x3 x4 s) := by
  unfold recordEvent
  repeat' first | (with_reducible first | assumption | apply KeepNum_enqueue | apply KeepNum_lifBump | refine KeepNum.foldl ?_ (fun _ _ _ => ?_) | apply KeepNum.ite) | (intro y; first | exact ⟨rfl, rfl, rfl, rfl, rfl, rfl, rfl⟩ | (simp; done)) | split | dsimp only

theorem KeepNum_ev x0 x1 x2 x3 x4 s (h : KeepNum o s) : KeepNum o (ev x0 x1 x2 x3 x4 s) := by
  unfold ev
  repeat' first | (with_reducible first | assumption | apply KeepNum_recordEvent | apply KeepNum.ite) | (intro y; first | exact ⟨rfl, rfl, rfl, rfl, rfl, rfl, rfl⟩ | (simp; done)) | split | dsimp only

theorem KeepNum_forwardPut x0 s (h : KeepNum o s) : KeepNum o (forwardPut x0 s) := by
  unfold forwardPut
  repeat' first | (with_reducible first | assumption | apply KeepNum_State_modVlk | apply KeepNum_ev | apply KeepNum.ite) | (intro y; first | exact ⟨rfl, rfl, rfl, rfl, rfl, rfl, rfl⟩ | (simp; done)) | split | dsimp only

theorem KeepNum_forwardStored x0 s (h : KeepNum o s) : KeepNum o (forwardStored x0 s) := by
  unfold forwardStored
  repeat' first | (with_reducible first | assumption | apply KeepNum_forwardPut | apply KeepNum.ite) | (intro y; first | exact ⟨rfl, rfl, rfl, rfl, rfl, rfl, rfl⟩ | (simp; done)) | split | dsimp only

theorem KeepNum_placeRec x0 s (h : KeepNum o s) : KeepNum o (placeRec x0 s) := by
  unfold placeRec
  repeat' first | (with_reducible first | assumption | apply KeepNum_State_modEvr | apply KeepNum.ite) | (intro y; first | exact ⟨rfl, rfl, rfl, rfl, rfl, rfl, rfl⟩ | (simp; done)) | split | dsimp only

theorem KeepNum_numberStaged x0 x1 s (h : KeepNum o s) : KeepNum o (numberStaged x0 x1 s) := by
  induction x0 generalizing x1 s  with
  | nil => unfold numberStaged; exact h
  | cons _ _ ih =>
    unfold numberStaged
    repeat' first | (with_reducible first | assumption | apply KeepNum_forwardStored | apply KeepNum_placeRec | apply KeepNum.ite) | ((with_reducible apply ih)) | (intro y; first | exact ⟨rfl, rfl, rfl, rfl, rfl, rfl, rfl⟩ | (simp; done)) | split | dsimp only

end

section

variable {o : State}

/-- llt.leaseValid, llt.leaseMw, llt.leaseExp are as they were. -/
def KeepLease (s t : State) : Prop := t.llt.leaseValid = s.llt.leaseValid ∧ t.llt.leaseMw = s.llt.leaseMw ∧ t.llt.leaseExp = s.llt.leaseExp

theorem KeepLease.trans {s t u : State} (h : KeepLease s t) (k : KeepLease t u) : KeepLease s u := by
  unfold KeepLease at *; simp_all

theorem KeepLease.refl {s : State} : KeepLease s s := by unfold KeepLease; simp

theorem KeepLease.of_eq {s t u : State} (e : u = t) (h : KeepLease s u) : KeepLease s t := e ▸ h

theorem KeepLease.of_frame {m : Nat} {s t u : State} (h : KeepLease s t) (k : FrameB m t u) (ellt : m.testBit 14 = false := by decide) : KeepLease s u := by
  refine h.trans ?_
  have e : u.llt = t.llt := k .llt ellt
  unfold KeepLease; simp_all

theorem KeepLease.ite {s t u : State} {c : Prop} {d : Decidable c} (h : KeepLease s t) (k : KeepLease s u) : KeepLease s (if c then t else u) := by split <;> assumption

theorem KeepLease.foldl {α : Type} {s t : State} {f : State → α → State} {l : List α} (h : KeepLease s t) (k : ∀ u x, KeepLease s u → KeepLease s (f u x)) : KeepLease s (l.foldl f t) := by
  induction l generalizing t with
  | nil => exact h
  | cons a l ih => exact ih (k t a h)

theorem KeepLease.set_pending {s t : State} {v} (h : KeepLease s t) : KeepLease s { t with pending := v } := h.trans (by unfold KeepLease; simp)

theorem KeepLease.set_us {s t : State} {v} (h : KeepLease s t) : KeepLease s { t with us := v } := h.trans (by unfold KeepLease; simp)

theorem KeepLease.set_busData {s t : State} {v} (h : KeepLease s t) : KeepLease s { t with busData := v } := h.trans (by unfold KeepLease; simp)

theorem KeepLease.set_busErr {s t : State} {v} (h : KeepLease s t) : KeepLease s { t with busErr := v } := h.trans (by unfold KeepLease; simp)

theorem KeepLease.set_regs {s t : State} {v} (h : KeepLease s t) : KeepLease s { t with regs := v } := h.trans (by unfold KeepLease; simp)

theorem KeepLease.set_mem {s t : State} {v} (h : KeepLease s t) : KeepLease s { t with mem := v } := h.trans (by unfold KeepLease; simp)

theorem KeepLease.set_tcm {s t : State} {v} (h : KeepLease s t) : KeepLease s { t with tcm := v } := h.trans (by unfold KeepLease; simp)

theorem KeepLease.set_free {s t : State} {v} (h : KeepLease s t) : KeepLease s { t with free := v } := h.trans (by unfold KeepLease; simp)

theorem KeepLease.set_hdr {s t : State} {v} (h : KeepLease s t) : KeepLease s { t with hdr := v } := h.trans (by unfold KeepLease; simp)

theorem KeepLease.set_sys {s t : State} {v} (h : KeepLease s t) : KeepLease s { t with sys := v } := h.trans (by unfold KeepLease; simp)

theorem KeepLease.set_clk {s t : State} {v} (h : KeepLease s t) : KeepLease s { t with clk := v } := h.trans (by unfold KeepLease; simp)

theorem KeepLease.set_pwr {s t : State} {v} (h : KeepLease s t) : KeepLease s { t with pwr := v } := h.trans (by unfold KeepLease; simp)

theorem KeepLease.set_l1 {s t : State} {v} (h : KeepLease s t) : KeepLease s { t with l1 := v } := h.trans (by unfold KeepLease; simp)

theorem KeepLease.set_irq {s t : State} {v} (h : KeepLease s t) : KeepLease s { t with irq := v } := h.trans (by unfold KeepLease; simp)

theorem KeepLease.set_llt {s t : State} {v} (e : v.leaseValid = t.llt.leaseValid ∧ v.leaseMw = t.llt.leaseMw ∧ v.leaseExp = t.llt.leaseExp) (h : KeepLease s t) : KeepLease s { t with llt := v } := h.trans (by unfold KeepLease; simp [e])

theorem KeepLease.set_hce {s t : State} {v} (h : KeepLease s t) : KeepLease s { t with hce := v } := h.trans (by unfold KeepLease; simp)

theorem KeepLease.set_lgr {s t : State} {v} (h : KeepLease s t) : KeepLease s { t with lgr := v } := h.trans (by unfold KeepLease; simp)

theorem KeepLease.set_xmt {s t : State} {v} (h : KeepLease s t) : KeepLease s { t with xmt := v } := h.trans (by unfold KeepLease; simp)

theorem KeepLease.set_rvr {s t : State} {v} (h : KeepLease s t) : KeepLease s { t with rvr := v } := h.trans (by unfold KeepLease; simp)

theorem KeepLease.set_cst {s t : State} {v} (h : KeepLease s t) : KeepLease s { t with cst := v } := h.trans (by unfold KeepLease; simp)

theorem KeepLease.set_asq {s t : State} {v} (h : KeepLease s t) : KeepLease s { t with asq := v } := h.trans (by unfold KeepLease; simp)

theorem KeepLease.set_rwc {s t : State} {v} (h : KeepLease s t) : KeepLease s { t with rwc := v } := h.trans (by unfold KeepLease; simp)

theorem KeepLease.set_ldp {s t : State} {v} (h : KeepLease s t) : KeepLease s { t with ldp := v } := h.trans (by unfold KeepLease; simp)

theorem KeepLease.set_tpe {s t : State} {v} (h : KeepLease s t) : KeepLease s { t with tpe := v } := h.trans (by unfold KeepLease; simp)

theorem KeepLease.set_sve {s t : State} {v} (h : KeepLease s t) : KeepLease s { t with sve := v } := h.trans (by unfold KeepLease; simp)

theorem KeepLease.set_spn {s t : State} {v} (h : KeepLease s t) : KeepLease s { t with spn := v } := h.trans (by unfold KeepLease; simp)

theorem KeepLease.set_psi {s t : State} {v} (h : KeepLease s t) : KeepLease s { t with psi := v } := h.trans (by unfold KeepLease; simp)

theorem KeepLease.set_lsr {s t : State} {v} (h : KeepLease s t) : KeepLease s { t with lsr := v } := h.trans (by unfold KeepLease; simp)

theorem KeepLease.set_opt {s t : State} {v} (h : KeepLease s t) : KeepLease s { t with opt := v } := h.trans (by unfold KeepLease; simp)

theorem KeepLease.set_dmc {s t : State} {v} (h : KeepLease s t) : KeepLease s { t with dmc := v } := h.trans (by unfold KeepLease; simp)

theorem KeepLease.set_bcc {s t : State} {v} (h : KeepLease s t) : KeepLease s { t with bcc := v } := h.trans (by unfold KeepLease; simp)

theorem KeepLease.set_sec {s t : State} {v} (h : KeepLease s t) : KeepLease s { t with sec := v } := h.trans (by unfold KeepLease; simp)

theorem KeepLease.set_thm {s t : State} {v} (h : KeepLease s t) : KeepLease s { t with thm := v } := h.trans (by unfold KeepLease; simp)

theorem KeepLease.set_trm {s t : State} {v} (h : KeepLease s t) : KeepLease s { t with trm := v } := h.trans (by unfold KeepLease; simp)

theorem KeepLease.set_sup {s t : State} {v} (h : KeepLease s t) : KeepLease s { t with sup := v } := h.trans (by unfold KeepLease; simp)

theorem KeepLease.set_evr {s t : State} {v} (h : KeepLease s t) : KeepLease s { t with evr := v } := h.trans (by unfold KeepLease; simp)

theorem KeepLease.set_lif {s t : State} {v} (h : KeepLease s t) : KeepLease s { t with lif := v } := h.trans (by unfold KeepLease; simp)

theorem KeepLease.set_cal {s t : State} {v} (h : KeepLease s t) : KeepLease s { t with cal := v } := h.trans (by unfold KeepLease; simp)

theorem KeepLease.set_vlk {s t : State} {v} (h : KeepLease s t) : KeepLease s { t with vlk := v } := h.trans (by unfold KeepLease; simp)

theorem KeepLease.set_busData_busErr_l1 {s t : State} {v0 v1 v2} (h : KeepLease s t) : KeepLease s { t with busData := v0, busErr := v1, l1 := v2 } := h.trans (by unfold KeepLease; simp)

theorem KeepLease.set_mem_dmc {s t : State} {v0 v1} (h : KeepLease s t) : KeepLease s { t with mem := v0, dmc := v1 } := h.trans (by unfold KeepLease; simp)

theorem KeepLease.set_clk_cal {s t : State} {v0 v1} (h : KeepLease s t) : KeepLease s { t with clk := v0, cal := v1 } := h.trans (by unfold KeepLease; simp)

theorem KeepLease.set_busData_cal {s t : State} {v0 v1} (h : KeepLease s t) : KeepLease s { t with busData := v0, cal := v1 } := h.trans (by unfold KeepLease; simp)

theorem KeepLease.set_busData_irq {s t : State} {v0 v1} (h : KeepLease s t) : KeepLease s { t with busData := v0, irq := v1 } := h.trans (by unfold KeepLease; simp)

theorem KeepLease.set_busData_tcm {s t : State} {v0 v1} (h : KeepLease s t) : KeepLease s { t with busData := v0, tcm := v1 } := h.trans (by unfold KeepLease; simp)

theorem KeepLease.set_busData_busErr {s t : State} {v0 v1} (h : KeepLease s t) : KeepLease s { t with busData := v0, busErr := v1 } := h.trans (by unfold KeepLease; simp)

theorem KeepLease.set_us_sys {s t : State} {v0 v1} (h : KeepLease s t) : KeepLease s { t with us := v0, sys := v1 } := h.trans (by unfold KeepLease; simp)

theorem KeepLease_State_modLlt x0 s (h : KeepLease o s) (e : ∀ y, (x0 y).leaseValid = y.leaseValid ∧ (x0 y).leaseMw = y.leaseMw ∧ (x0 y).leaseExp = y.leaseExp) : KeepLease o (State.modLlt x0 s) := KeepLease.set_llt (e _) h

theorem KeepLease_State_modPort x0 x1 s (h : KeepLease o s) : KeepLease o (State.modPort x0 x1 s) := by
  unfold State.modPort
  repeat' first | (with_reducible first | assumption | apply KeepLease.ite) | fail_if_no_progress ((with_reducible apply KeepLease.set_llt); (first | exact ⟨rfl, rfl, rfl⟩ | (simp; done))) | (intro y; first | exact ⟨rfl, rfl, rfl⟩ | (simp; done)) | split | dsimp only

theorem KeepLease_countClass x0 x1 s (h : KeepLease o s) : KeepLease o (countClass x0 x1 s) := by
  unfold countClass
  repeat' first | (with_reducible first | assumption | apply KeepLease_State_modLlt | apply KeepLease.ite) | (intro y; first | exact ⟨rfl, rfl, rfl⟩ | (simp; done)) | split | dsimp only

theorem KeepLease_freeTicket x0 s (h : KeepLease o s) : KeepLease o (freeTicket x0 s) := by
  unfold freeTicket
  repeat' first | (with_reducible first | assumption | apply KeepLease_State_modLlt | apply KeepLease.ite) | (intro y; first | exact ⟨rfl, rfl, rfl⟩ | (simp; done)) | split | dsimp only

theorem KeepLease_modTicket x0 x1 s (h : KeepLease o s) : KeepLease o (modTicket x0 x1 s) := by
  unfold modTicket
  repeat' first | (with_reducible first | assumption | apply KeepLease_State_modLlt | apply KeepLease.ite) | (intro y; first | exact ⟨rfl, rfl, rfl⟩ | (simp; done)) | split | dsimp only

theorem KeepLease_portLine x0 s (h : KeepLease o s) : KeepLease o (portLine x0 s) := by
  exact KeepLease.of_frame h (frame_portLine x0 s (m := 0x2000) (o := s) .refl rfl)

theorem KeepLease_grantTicket x0 s (h : KeepLease o s) : KeepLease o (grantTicket x0 s) := by
  unfold grantTicket
  repeat' first | (with_reducible first | assumption | apply KeepLease_State_modLlt | apply KeepLease_State_modPort | apply KeepLease_countClass | apply KeepLease_freeTicket | apply KeepLease_modTicket | apply KeepLease_portLine | apply KeepLease.ite) | (intro y; first | exact ⟨rfl, rfl, rfl⟩ | (simp; done)) | split | dsimp only

theorem KeepLease_walkFrom x0 x1 s (h : KeepLease o s) : KeepLease o (walkFrom x0 x1 s) := by
  induction x0 generalizing x1 s  with
  | nil => unfold walkFrom; exact h
  | cons _ _ ih =>
    unfold walkFrom
    repeat' first | (with_reducible first | assumption | apply KeepLease_grantTicket | apply KeepLease.ite) | ((with_reducible apply ih)) | (intro y; first | exact ⟨rfl, rfl, rfl⟩ | (simp; done)) | split | dsimp only

theorem KeepLease_walkQueue s (h : KeepLease o s) : KeepLease o (walkQueue s) := by
  unfold walkQueue
  repeat' first | (with_reducible first | assumption | apply KeepLease_walkFrom | apply KeepLease.ite) | (intro y; first | exact ⟨rfl, rfl, rfl⟩ | (simp; done)) | split | dsimp only

theorem KeepLease_boostEnds x0 x1 s (h : KeepLease o s) : KeepLease o (boostEnds x0 x1 s) := by
  exact KeepLease.of_frame h (frame_boostEnds x0 x1 s (m := 0x2000) (o := s) .refl rfl)

theorem KeepLease_ev x0 x1 x2 x3 x4 s (h : KeepLease o s) : KeepLease o (ev x0 x1 x2 x3 x4 s) := by
  exact KeepLease.of_frame h (frame_ev x0 x1 x2 x3 x4 s (m := 0x1800000100) (o := s) .refl rfl)

theorem KeepLease_endGrant x0 x1 s (h : KeepLease o s) : KeepLease o (endGrant x0 x1 s) := by
  unfold endGrant
  repeat' first | (with_reducible first | assumption | apply KeepLease_State_modLlt | apply KeepLease_boostEnds | apply KeepLease_countClass | apply KeepLease_ev | apply KeepLease_freeTicket | apply KeepLease_portLine | apply KeepLease.ite) | (intro y; first | exact ⟨rfl, rfl, rfl⟩ | (simp; done)) | split | dsimp only

theorem KeepLease_moveCapped x0 x1 x2 s (h : KeepLease o s) : KeepLease o (moveCapped x0 x1 x2 s) := by
  induction x1 generalizing x2 s  with
  | nil => unfold moveCapped; exact h
  | cons _ _ ih =>
    unfold moveCapped
    repeat' first | (with_reducible first | assumption | apply KeepLease_State_modPort | apply KeepLease_modTicket | apply KeepLease.ite) | ((with_reducible apply ih)) | (intro y; first | exact ⟨rfl, rfl, rfl⟩ | (simp; done)) | split | dsimp only

end

section

variable {o : State}

/-- hce.links are as they were. -/
def KeepLink (s t : State) : Prop := t.hce.links = s.hce.links

theorem KeepLink.trans {s t u : State} (h : KeepLink s t) (k : KeepLink t u) : KeepLink s u := by
  unfold KeepLink at *; simp_all

theorem KeepLink.refl {s : State} : KeepLink s s := by unfold KeepLink; simp

theorem KeepLink.of_eq {s t u : State} (e : u = t) (h : KeepLink s u) : KeepLink s t := e ▸ h

theorem KeepLink.of_frame {m : Nat} {s t u : State} (h : KeepLink s t) (k : FrameB m t u) (ehce : m.testBit 15 = false := by decide) : KeepLink s u := by
  refine h.trans ?_
  have e : u.hce = t.hce := k .hce ehce
  unfold KeepLink; simp_all

theorem KeepLink.ite {s t u : State} {c : Prop} {d : Decidable c} (h : KeepLink s t) (k : KeepLink s u) : KeepLink s (if c then t else u) := by split <;> assumption

theorem KeepLink.foldl {α : Type} {s t : State} {f : State → α → State} {l : List α} (h : KeepLink s t) (k : ∀ u x, KeepLink s u → KeepLink s (f u x)) : KeepLink s (l.foldl f t) := by
  induction l generalizing t with
  | nil => exact h
  | cons a l ih => exact ih (k t a h)

theorem KeepLink.set_pending {s t : State} {v} (h : KeepLink s t) : KeepLink s { t with pending := v } := h.trans (by unfold KeepLink; simp)

theorem KeepLink.set_us {s t : State} {v} (h : KeepLink s t) : KeepLink s { t with us := v } := h.trans (by unfold KeepLink; simp)

theorem KeepLink.set_busData {s t : State} {v} (h : KeepLink s t) : KeepLink s { t with busData := v } := h.trans (by unfold KeepLink; simp)

theorem KeepLink.set_busErr {s t : State} {v} (h : KeepLink s t) : KeepLink s { t with busErr := v } := h.trans (by unfold KeepLink; simp)

theorem KeepLink.set_regs {s t : State} {v} (h : KeepLink s t) : KeepLink s { t with regs := v } := h.trans (by unfold KeepLink; simp)

theorem KeepLink.set_mem {s t : State} {v} (h : KeepLink s t) : KeepLink s { t with mem := v } := h.trans (by unfold KeepLink; simp)

theorem KeepLink.set_tcm {s t : State} {v} (h : KeepLink s t) : KeepLink s { t with tcm := v } := h.trans (by unfold KeepLink; simp)

theorem KeepLink.set_free {s t : State} {v} (h : KeepLink s t) : KeepLink s { t with free := v } := h.trans (by unfold KeepLink; simp)

theorem KeepLink.set_hdr {s t : State} {v} (h : KeepLink s t) : KeepLink s { t with hdr := v } := h.trans (by unfold KeepLink; simp)

theorem KeepLink.set_sys {s t : State} {v} (h : KeepLink s t) : KeepLink s { t with sys := v } := h.trans (by unfold KeepLink; simp)

theorem KeepLink.set_clk {s t : State} {v} (h : KeepLink s t) : KeepLink s { t with clk := v } := h.trans (by unfold KeepLink; simp)

theorem KeepLink.set_pwr {s t : State} {v} (h : KeepLink s t) : KeepLink s { t with pwr := v } := h.trans (by unfold KeepLink; simp)

theorem KeepLink.set_l1 {s t : State} {v} (h : KeepLink s t) : KeepLink s { t with l1 := v } := h.trans (by unfold KeepLink; simp)

theorem KeepLink.set_irq {s t : State} {v} (h : KeepLink s t) : KeepLink s { t with irq := v } := h.trans (by unfold KeepLink; simp)

theorem KeepLink.set_llt {s t : State} {v} (h : KeepLink s t) : KeepLink s { t with llt := v } := h.trans (by unfold KeepLink; simp)

theorem KeepLink.set_hce {s t : State} {v} (e : v.links = t.hce.links) (h : KeepLink s t) : KeepLink s { t with hce := v } := h.trans (by unfold KeepLink; simp [e])

theorem KeepLink.set_lgr {s t : State} {v} (h : KeepLink s t) : KeepLink s { t with lgr := v } := h.trans (by unfold KeepLink; simp)

theorem KeepLink.set_xmt {s t : State} {v} (h : KeepLink s t) : KeepLink s { t with xmt := v } := h.trans (by unfold KeepLink; simp)

theorem KeepLink.set_rvr {s t : State} {v} (h : KeepLink s t) : KeepLink s { t with rvr := v } := h.trans (by unfold KeepLink; simp)

theorem KeepLink.set_cst {s t : State} {v} (h : KeepLink s t) : KeepLink s { t with cst := v } := h.trans (by unfold KeepLink; simp)

theorem KeepLink.set_asq {s t : State} {v} (h : KeepLink s t) : KeepLink s { t with asq := v } := h.trans (by unfold KeepLink; simp)

theorem KeepLink.set_rwc {s t : State} {v} (h : KeepLink s t) : KeepLink s { t with rwc := v } := h.trans (by unfold KeepLink; simp)

theorem KeepLink.set_ldp {s t : State} {v} (h : KeepLink s t) : KeepLink s { t with ldp := v } := h.trans (by unfold KeepLink; simp)

theorem KeepLink.set_tpe {s t : State} {v} (h : KeepLink s t) : KeepLink s { t with tpe := v } := h.trans (by unfold KeepLink; simp)

theorem KeepLink.set_sve {s t : State} {v} (h : KeepLink s t) : KeepLink s { t with sve := v } := h.trans (by unfold KeepLink; simp)

theorem KeepLink.set_spn {s t : State} {v} (h : KeepLink s t) : KeepLink s { t with spn := v } := h.trans (by unfold KeepLink; simp)

theorem KeepLink.set_psi {s t : State} {v} (h : KeepLink s t) : KeepLink s { t with psi := v } := h.trans (by unfold KeepLink; simp)

theorem KeepLink.set_lsr {s t : State} {v} (h : KeepLink s t) : KeepLink s { t with lsr := v } := h.trans (by unfold KeepLink; simp)

theorem KeepLink.set_opt {s t : State} {v} (h : KeepLink s t) : KeepLink s { t with opt := v } := h.trans (by unfold KeepLink; simp)

theorem KeepLink.set_dmc {s t : State} {v} (h : KeepLink s t) : KeepLink s { t with dmc := v } := h.trans (by unfold KeepLink; simp)

theorem KeepLink.set_bcc {s t : State} {v} (h : KeepLink s t) : KeepLink s { t with bcc := v } := h.trans (by unfold KeepLink; simp)

theorem KeepLink.set_sec {s t : State} {v} (h : KeepLink s t) : KeepLink s { t with sec := v } := h.trans (by unfold KeepLink; simp)

theorem KeepLink.set_thm {s t : State} {v} (h : KeepLink s t) : KeepLink s { t with thm := v } := h.trans (by unfold KeepLink; simp)

theorem KeepLink.set_trm {s t : State} {v} (h : KeepLink s t) : KeepLink s { t with trm := v } := h.trans (by unfold KeepLink; simp)

theorem KeepLink.set_sup {s t : State} {v} (h : KeepLink s t) : KeepLink s { t with sup := v } := h.trans (by unfold KeepLink; simp)

theorem KeepLink.set_evr {s t : State} {v} (h : KeepLink s t) : KeepLink s { t with evr := v } := h.trans (by unfold KeepLink; simp)

theorem KeepLink.set_lif {s t : State} {v} (h : KeepLink s t) : KeepLink s { t with lif := v } := h.trans (by unfold KeepLink; simp)

theorem KeepLink.set_cal {s t : State} {v} (h : KeepLink s t) : KeepLink s { t with cal := v } := h.trans (by unfold KeepLink; simp)

theorem KeepLink.set_vlk {s t : State} {v} (h : KeepLink s t) : KeepLink s { t with vlk := v } := h.trans (by unfold KeepLink; simp)

theorem KeepLink.set_many14 {s t : State} {v0 v1 v2 v3 v4 v5 v6 v7 v8 v9 v10 v11 v12 v13} (h : KeepLink s t) : KeepLink s { t with us := v0, regs := v1, mem := v2, hdr := v3, sys := v4, clk := v5, pwr := v6, llt := v7, sec := v8, thm := v9, sup := v10, evr := v11, lif := v12, cal := v13 } := h.trans (by unfold KeepLink; simp)

theorem KeepLink.set_busData_busErr_l1 {s t : State} {v0 v1 v2} (h : KeepLink s t) : KeepLink s { t with busData := v0, busErr := v1, l1 := v2 } := h.trans (by unfold KeepLink; simp)

theorem KeepLink.set_mem_dmc {s t : State} {v0 v1} (h : KeepLink s t) : KeepLink s { t with mem := v0, dmc := v1 } := h.trans (by unfold KeepLink; simp)

theorem KeepLink.set_clk_cal {s t : State} {v0 v1} (h : KeepLink s t) : KeepLink s { t with clk := v0, cal := v1 } := h.trans (by unfold KeepLink; simp)

theorem KeepLink.set_busData_cal {s t : State} {v0 v1} (h : KeepLink s t) : KeepLink s { t with busData := v0, cal := v1 } := h.trans (by unfold KeepLink; simp)

theorem KeepLink.set_busData_irq {s t : State} {v0 v1} (h : KeepLink s t) : KeepLink s { t with busData := v0, irq := v1 } := h.trans (by unfold KeepLink; simp)

theorem KeepLink.set_busData_tcm {s t : State} {v0 v1} (h : KeepLink s t) : KeepLink s { t with busData := v0, tcm := v1 } := h.trans (by unfold KeepLink; simp)

theorem KeepLink.set_busData_busErr {s t : State} {v0 v1} (h : KeepLink s t) : KeepLink s { t with busData := v0, busErr := v1 } := h.trans (by unfold KeepLink; simp)

theorem KeepLink.set_us_sys {s t : State} {v0 v1} (h : KeepLink s t) : KeepLink s { t with us := v0, sys := v1 } := h.trans (by unfold KeepLink; simp)

theorem KeepLink_dropEntry x0 s (h : KeepLink o s) : KeepLink o (dropEntry x0 s) := by
  exact KeepLink.of_frame h (frame_dropEntry x0 s (m := 0x10000) (o := s) .refl rfl)

theorem KeepLink_State_drawn s (h : KeepLink o s) : KeepLink o (State.drawn s) := by
  exact KeepLink.of_frame h (frame_State_drawn s (m := 0x80) (o := s) .refl rfl)

theorem KeepLink_State_modCtrl x0 x1 s (h : KeepLink o s) (e : ∀ y, (x1 y).link = y.link) : KeepLink o (State.modCtrl x0 x1 s) := KeepLink.set_hce (e := links_set (e _)) h

theorem KeepLink_State_modHce x0 s (h : KeepLink o s) (e : ∀ y, (x0 y).links = y.links) : KeepLink o (State.modHce x0 s) := KeepLink.set_hce (e _) h

theorem KeepLink_modCmd x0 x1 s (h : KeepLink o s) : KeepLink o (modCmd x0 x1 s) := by
  unfold modCmd
  repeat' first | (with_reducible first | assumption | apply KeepLink_State_modHce | apply KeepLink.ite) | (intro y; first | exact rfl | (simp; done)) | split | dsimp only

theorem KeepLink_releaseReader x0 s (h : KeepLink o s) : KeepLink o (releaseReader x0 s) := by
  exact KeepLink.of_frame h (frame_releaseReader x0 s (m := 0x10000) (o := s) .refl rfl)

theorem KeepLink_finishDw x0 x1 x2 x3 s (h : KeepLink o s) : KeepLink o (finishDw x0 x1 x2 x3 s) := by
  unfold finishDw
  repeat' first | (with_reducible first | assumption | apply KeepLink_State_drawn | apply KeepLink_State_modCtrl | apply KeepLink_modCmd | apply KeepLink_releaseReader | apply KeepLink.ite) | (intro y; first | exact rfl | (simp; done)) | split | dsimp only

theorem KeepLink_finish x0 x1 s (h : KeepLink o s) : KeepLink o (finish x0 x1 s) := by
  unfold finish
  repeat' first | (with_reducible first | assumption | apply KeepLink_finishDw | apply KeepLink.ite) | (intro y; first | exact rfl | (simp; done)) | split | dsimp only

theorem KeepLink_modZone x0 x1 s (h : KeepLink o s) : KeepLink o (modZone x0 x1 s) := by
  exact KeepLink.of_frame h (frame_modZone x0 x1 s (m := 0x20000) (o := s) .refl rfl)

theorem KeepLink_zoneDrop x0 s (h : KeepLink o s) : KeepLink o (zoneDrop x0 s) := by
  unfold zoneDrop
  repeat' first | (with_reducible first | assumption | apply KeepLink_dropEntry | apply KeepLink_finish | apply KeepLink_modZone | refine KeepLink.foldl ?_ (fun _ _ _ => ?_) | apply KeepLink.ite) | (intro y; first | exact rfl | (simp; done)) | split | dsimp only

theorem KeepLink_dropWrite x0 s (h : KeepLink o s) : KeepLink o (dropWrite x0 s) := by
  unfold dropWrite
  repeat' first | (with_reducible first | assumption | apply KeepLink_dropEntry | apply KeepLink_zoneDrop | apply KeepLink.ite) | (intro y; first | exact rfl | (simp; done)) | split | dsimp only

theorem KeepLink_freeBarrier x0 s (h : KeepLink o s) : KeepLink o (freeBarrier x0 s) := by
  exact KeepLink.of_frame h (frame_freeBarrier x0 s (m := 0x10000) (o := s) .refl rfl)

theorem KeepLink_freeTag x0 s (h : KeepLink o s) : KeepLink o (freeTag x0 s) := by
  unfold freeTag
  repeat' first | (with_reducible first | assumption | apply KeepLink_State_modHce | apply KeepLink.ite) | (intro y; first | exact rfl | (simp; done)) | split | dsimp only

theorem KeepLink_ev x0 x1 x2 x3 x4 s (h : KeepLink o s) : KeepLink o (ev x0 x1 x2 x3 x4 s) := by
  exact KeepLink.of_frame h (frame_ev x0 x1 x2 x3 x4 s (m := 0x1800000100) (o := s) .refl rfl)

theorem KeepLink_raiseLine x0 s (h : KeepLink o s) : KeepLink o (raiseLine x0 s) := by
  exact KeepLink.of_frame h (frame_raiseLine x0 s (m := 0x2000) (o := s) .refl rfl)

theorem KeepLink_exception x0 x1 s (h : KeepLink o s) : KeepLink o (exception x0 x1 s) := by
  unfold exception
  repeat' first | (with_reducible first | assumption | apply KeepLink_State_modCtrl | apply KeepLink_ev | apply KeepLink_modCmd | apply KeepLink_raiseLine | apply KeepLink.ite) | (intro y; first | exact rfl | (simp; done)) | split | dsimp only

theorem KeepLink_keyRefused x0 s (h : KeepLink o s) : KeepLink o (keyRefused x0 s) := by
  exact KeepLink.of_frame h (frame_keyRefused x0 s (m := 0x1880000100) (o := s) .refl rfl)

theorem KeepLink_register x0 x1 s (h : KeepLink o s) : KeepLink o (register x0 x1 s) := by
  exact KeepLink.of_frame h (frame_register x0 x1 s (m := 0x1880030100) (o := s) .refl rfl)

theorem KeepLink_accept x0 s (h : KeepLink o s) : KeepLink o (accept x0 s) := by
  unfold accept
  repeat' first | (with_reducible first | assumption | apply KeepLink_exception | apply KeepLink_finish | apply KeepLink_keyRefused | apply KeepLink_modCmd | apply KeepLink_register | apply KeepLink.ite) | (intro y; first | exact rfl | (simp; done)) | split | dsimp only

theorem KeepLink_startCmd x0 s (h : KeepLink o s) : KeepLink o (startCmd x0 s) := by
  unfold startCmd
  repeat' first | (with_reducible first | assumption | apply KeepLink_accept | apply KeepLink_modCmd | apply KeepLink.ite) | (intro y; first | exact rfl | (simp; done)) | split | dsimp only

theorem KeepLink_releaseWaiting s (h : KeepLink o s) : KeepLink o (releaseWaiting s) := by
  unfold releaseWaiting
  repeat' first | (with_reducible first | assumption | apply KeepLink_startCmd | refine KeepLink.foldl ?_ (fun _ _ _ => ?_) | apply KeepLink.ite) | (intro y; first | exact rfl | (simp; done)) | split | dsimp only

theorem KeepLink_State_modAsq x0 x1 s (h : KeepLink o s) : KeepLink o (State.modAsq x0 x1 s) := by
  exact KeepLink.of_frame h (frame_State_modAsq x0 x1 s (m := 0x100000) (o := s) .refl rfl)

theorem KeepLink_asqLine x0 x1 s (h : KeepLink o s) : KeepLink o (asqLine x0 x1 s) := by
  exact KeepLink.of_frame h (frame_asqLine x0 x1 s (m := 0x2000) (o := s) .refl rfl)

theorem KeepLink_levelsFall x0 s (h : KeepLink o s) : KeepLink o (levelsFall x0 s) := by
  exact KeepLink.of_frame h (frame_levelsFall x0 s (m := 0x20C300080) (o := s) .refl rfl)

theorem KeepLink_asqAbortReq x0 s (h : KeepLink o s) : KeepLink o (asqAbortReq x0 s) := by
  exact KeepLink.of_frame h (frame_asqAbortReq x0 s (m := 0x1A0C302180) (o := s) .refl rfl)

theorem KeepLink_postResult x0 x1 s (h : KeepLink o s) : KeepLink o (postResult x0 x1 s) := by
  exact KeepLink.of_frame h (frame_postResult x0 x1 s (m := 0x102000) (o := s) .refl rfl)

theorem KeepLink_tagDone x0 s (h : KeepLink o s) : KeepLink o (tagDone x0 s) := by
  unfold tagDone
  repeat' first | (with_reducible first | assumption | apply KeepLink_State_modHce | apply KeepLink.ite) | (intro y; first | exact rfl | (simp; done)) | split | dsimp only

theorem KeepLink_cancelPending x0 s (h : KeepLink o s) : KeepLink o (cancelPending x0 s) := by
  unfold cancelPending
  repeat' first | (with_reducible first | assumption | apply KeepLink_State_modAsq | apply KeepLink_asqLine | apply KeepLink_postResult | apply KeepLink_tagDone | apply KeepLink.ite) | (intro y; first | exact rfl | (simp; done)) | split | dsimp only

theorem KeepLink_askLeave x0 s (h : KeepLink o s) : KeepLink o (askLeave x0 s) := by
  exact KeepLink.of_frame h (frame_askLeave x0 s (m := 0x1800106100) (o := s) .refl rfl)

theorem KeepLink_buildSkip x0 x1 x2 s (h : KeepLink o s) : KeepLink o (buildSkip x0 x1 x2 s) := by
  exact KeepLink.of_frame h (frame_buildSkip x0 x1 x2 s (m := 0x18608031A0) (o := s) .refl rfl)

theorem KeepLink_loadLane x0 s (h : KeepLink o s) : KeepLink o (loadLane x0 s) := by
  exact KeepLink.of_frame h (frame_loadLane x0 s (m := 0x80000000) (o := s) .refl rfl)

theorem KeepLink_adaptSave x0 s (h : KeepLink o s) : KeepLink o (adaptSave x0 s) := by
  exact KeepLink.of_frame h (frame_adaptSave x0 s (m := 0x18600031A0) (o := s) .refl rfl)

theorem KeepLink_clearActive x0 x1 s (h : KeepLink o s) : KeepLink o (clearActive x0 x1 s) := by
  exact KeepLink.of_frame h (frame_clearActive x0 x1 s (m := 0x100000) (o := s) .refl rfl)

theorem KeepLink_endLeave x0 s (h : KeepLink o s) : KeepLink o (endLeave x0 s) := by
  exact KeepLink.of_frame h (frame_endLeave x0 s (m := 0x6000) (o := s) .refl rfl)

theorem KeepLink_healthAdd x0 x1 x2 s (h : KeepLink o s) : KeepLink o (healthAdd x0 x1 x2 s) := by
  unfold healthAdd
  repeat' first | (with_reducible first | assumption | apply KeepLink_State_modHce | apply KeepLink.ite) | (intro y; first | exact rfl | (simp; done)) | split | dsimp only

theorem KeepLink_unloadEnds x0 x1 s (h : KeepLink o s) : KeepLink o (unloadEnds x0 x1 s) := by
  exact KeepLink.of_frame h (frame_unloadEnds x0 x1 s (m := 0x1000000) (o := s) .refl rfl)

theorem KeepLink_taskEnd x0 x1 x2 x3 s (h : KeepLink o s) : KeepLink o (taskEnd x0 x1 x2 x3 s) := by
  unfold taskEnd
  repeat' first | (with_reducible first | assumption | apply KeepLink_adaptSave | apply KeepLink_asqLine | apply KeepLink_clearActive | apply KeepLink_endLeave | apply KeepLink_ev | apply KeepLink_healthAdd | apply KeepLink_levelsFall | apply KeepLink_postResult | apply KeepLink_tagDone | apply KeepLink_unloadEnds | apply KeepLink.ite) | (intro y; first | exact rfl | (simp; done)) | split | dsimp only

theorem KeepLink_zoneCopy x0 s (h : KeepLink o s) : KeepLink o (zoneCopy x0 s) := by
  exact KeepLink.of_frame h (frame_zoneCopy x0 s (m := 0x18602031A0) (o := s) .refl rfl)

theorem KeepLink_promote x0 s (h : KeepLink o s) : KeepLink o (promote x0 s) := by
  unfold promote
  repeat' first | (with_reducible first | assumption | apply KeepLink_State_modAsq | apply KeepLink_askLeave | apply KeepLink_asqLine | apply KeepLink_buildSkip | apply KeepLink_loadLane | apply KeepLink_taskEnd | apply KeepLink_zoneCopy | apply KeepLink.ite) | (intro y; first | exact rfl | (simp; done)) | split | dsimp only

theorem KeepLink_abortTag x0 x1 s (h : KeepLink o s) : KeepLink o (abortTag x0 x1 s) := by
  unfold abortTag
  repeat' first | (with_reducible first | assumption | apply KeepLink_State_modAsq | apply KeepLink_asqAbortReq | apply KeepLink_cancelPending | apply KeepLink_promote | apply KeepLink.ite) | (intro y; first | exact rfl | (simp; done)) | split | dsimp only

theorem KeepLink_stopTasks x0 s (h : KeepLink o s) : KeepLink o (stopTasks x0 s) := by
  unfold stopTasks
  repeat' first | (with_reducible first | assumption | apply KeepLink_abortTag | refine KeepLink.foldl ?_ (fun _ _ _ => ?_) | apply KeepLink.ite) | (intro y; first | exact rfl | (simp; done)) | split | dsimp only

theorem KeepLink_stopOne x0 s (h : KeepLink o s) : KeepLink o (stopOne x0 s) := by
  unfold stopOne
  repeat' first | (with_reducible first | assumption | apply KeepLink_dropWrite | apply KeepLink_freeBarrier | apply KeepLink_freeTag | apply KeepLink_modCmd | apply KeepLink_releaseReader | apply KeepLink_releaseWaiting | apply KeepLink_stopTasks | apply KeepLink.ite) | (intro y; first | exact rfl | (simp; done)) | split | dsimp only

end

end Sys2Proof.Machine
end

