-- ==== Sys2Proof/Laws/Reg.lean ====
section
/-!
SUPPORT. What registers read as after a store.
-/

set_option Elab.async false

namespace Sys2Proof.Machine

open Sys2Proof

theorem reg_congr {s t : State} (h : t.regs = s.regs) (r : Reg) (n k : Nat) : reg r n k t = reg r n k s := by
  simp only [reg, h]

theorem reg_lt (r : Reg) (n k : Nat) (s : State) : reg r n k s < 2 ^ 32 := BitVec.isLt _

theorem reg_setReg (r : Reg) (n k v : Nat) {s : State} (h : Rising s.regs) : reg r n k (setReg r n k v s) = v % 2 ^ 32 := by
  simp only [reg, setReg]
  rw [sget_sput _ _ _ h, BitVec.toNat_ofNat]

theorem rising_setReg (r : Reg) (n k v : Nat) {s : State} (h : Rising s.regs) : Rising (setReg r n k v s).regs := h.sput

/-- A plain register is stored by `storeFields` alone. -/
theorem writeReg_plain {r : Reg} (h : r.plain = true) (m : Master) (n k v : Nat) (s : State) :
    writeReg m r n k v s = storeFields r n k v s := by
  cases r <;> first | rfl | exact absurd h (by decide)

theorem sget_sput_other {β : Type} [DecidableEq β] (d e : β) {k j : Nat} (v : β) (l : List (Nat × β)) (hj : j ≠ k) :
    sget e j (sput d k v l) = sget e j l := by
  induction l with
  | nil => simp only [sput]; split <;> simp [sget, Ne.symm hj]
  | cons x t ih =>
    obtain ⟨a, b⟩ := x
    simp only [sput]
    split
    · split
      · rfl
      · simp [sget, Ne.symm hj]
    · split
      · next h1 h2 =>
        subst h2
        split
        · simp [sget, Ne.symm hj]
        · simp [sget, Ne.symm hj]
      · simp only [sget, ih]

theorem reg_setReg_ne {r q : Reg} {n k m j v : Nat} {s : State} (h : q.addr m j ≠ r.addr n k) : reg q m j (setReg r n k v s) = reg q m j s := by
  unfold reg setReg
  dsimp only
  rw [sget_sput_other _ _ _ _ h]

theorem sget_filter {β : Type} (d : β) (k : Nat) (p : Nat → Bool) (l : List (Nat × β)) (h : p k = false) :
    sget d k (l.filter fun x => p x.1) = d := by
  induction l with
  | nil => rfl
  | cons x l ih =>
    rw [List.filter_cons]
    split
    · next hx =>
      unfold sget
      rw [if_neg (by intro e; rw [e, h] at hx; cases hx)]
      exact ih
    · exact ih

/-- A register outside the kept ones reads its reset value. -/
theorem reg_filtered {r : Reg} {n k : Nat} {p : Nat → Bool} {l : List (Nat × BitVec 32)} {s : State}
    (e : s.regs = l.filter fun x => p x.1) (h : p (r.addr n k) = false) : reg r n k s = (BitVec.ofNat 32 (r.reset k)).toNat := by
  unfold reg
  rw [e, sget_filter _ _ _ _ h]

end Sys2Proof.Machine
end

