-- ==== Sys2Proof/Laws/Bus.lean ====
section
/-!
SUPPORT. Where an access of the 40-bit map goes (R28, R29): one lemma for each region.
-/

set_option Elab.async false

namespace Sys2Proof.Machine

open Sys2Proof

theorem within_false {a n lo size : Nat} (h : a < lo ∨ lo + size < a + n) : within a n lo size = false := by
  simp only [within, Bool.and_eq_false_iff, decide_eq_false_iff_not]; omega

theorem within_true {a n lo size : Nat} (h : lo ≤ a ∧ a + n ≤ lo + size) : within a n lo size = true := by
  simp only [within, Bool.and_eq_true, decide_eq_true_eq]; exact h

variable {m : Master} {a n v : Nat} {wr : Bool} {s : State}

/-- The register pages. -/
theorem busOp_pages (p : pdOn 2 s = true) (lo : 0x40000000 ≤ a) (hi : a + n ≤ 0x41000000) (hn : 1 ≤ n) :
    busOp m a wr n v s = pageAccess m a wr n v s := by
  have e1 : within a n 0 0x40000 = false := within_false (by omega)
  have e2 : within a n 0x10000000 0x20000 = false := within_false (by omega)
  have e3 : within a n 0x20000000 0x800000 = false := within_false (by omega)
  have e4 : within a n 0x40000000 0x1000000 = true := within_true (by omega)
  simp only [busOp, p, e1, e2, e3, e4, Bool.not_true, if_true, if_false, Bool.false_eq_true]

/-- System SRAM. -/
theorem busOp_sram (p : pdOn 2 s = true) (lo : 0x20000000 ≤ a) (hi : a + n ≤ 0x20800000) (hn : 1 ≤ n) :
    busOp m a wr n v s = domMem 7 m a wr n v s := by
  have e1 : within a n 0 0x40000 = false := within_false (by omega)
  have e2 : within a n 0x10000000 0x20000 = false := within_false (by omega)
  have e3 : within a n 0x20000000 0x800000 = true := within_true (by omega)
  simp only [busOp, p, e1, e2, e3, Bool.not_true, if_true, if_false, Bool.false_eq_true]

/-- The gap between the wick SRAM and DDR5. -/
theorem busOp_gap (p : pdOn 2 s = true) (lo : 0x60280000 ≤ a) (hi : a < 0x100000000) (hn : 1 ≤ n) :
    busOp m a wr n v s = busFails s := by
  have e1 : within a n 0 0x40000 = false := within_false (by omega)
  have e2 : within a n 0x10000000 0x20000 = false := within_false (by omega)
  have e3 : within a n 0x20000000 0x800000 = false := within_false (by omega)
  have e4 : within a n 0x40000000 0x1000000 = false := within_false (by omega)
  have e5 : within a n 0x50000000 0x100000 = false := within_false (by omega)
  have e6 : within a n 0x60000000 0x280000 = false := within_false (by omega)
  have e7 : within a n ddrBase (installedBytes s) = false := within_false (by simp only [ddrBase]; omega)
  simp only [busOp, p, e1, e2, e3, e4, e5, e6, e7, Bool.not_true, if_false, Bool.false_eq_true]

theorem busSize_pos (k : Nat) : 1 ≤ busSize k := by
  unfold busSize
  split
  · next h => rcases h with h | h | h <;> omega
  · omega

/-- A register found in a block's pages is a register of that block. -/
theorem regAt_blk {b : Blk} {off k : Nat} {r : Reg} (h : b.regAt off = some (r, k)) : r.row.blk = b := by
  simp only [Blk.regAt] at h
  obtain ⟨r', hr, h⟩ := List.exists_of_findSome?_eq_some h
  have key : ∀ x ∈ b.regs, x.row.blk = b := by cases b <;> decide
  split at h
  · simp only [Option.some.injEq, Prod.mk.injEq] at h; exact h.1 ▸ key r' hr
  · exact absurd h (by simp)

end Sys2Proof.Machine
end

