-- ==== Sys2Proof/Laws/Memory.lean ====
section
/-!
SUPPORT. Memory: a read after a write, what a write leaves, and that every memory operation keeps the canonical form.
-/

set_option Elab.async false

namespace Sys2Proof.Machine

open Sys2Proof

/-! ### The canonical form -/

theorem wf_iff (l : List Host.Cell) : Memory.wf l = true ↔ Rising l ∧ ∀ x ∈ l, x.2 ≠ 0 := by
  induction l with
  | nil => simp [Memory.wf, Rising]
  | cons x t ih =>
    obtain ⟨a, b⟩ := x
    cases t with
    | nil => simp [Memory.wf, Rising]
    | cons y t =>
      obtain ⟨a', b'⟩ := y
      simp only [Memory.wf, Bool.and_eq_true, bne_iff_ne, ne_eq, decide_eq_true_eq, ih, Rising, List.mem_cons,
        forall_eq_or_imp]
      constructor
      · rintro ⟨⟨h1, h2⟩, ⟨h3, h4⟩, h5, h6⟩
        exact ⟨⟨⟨h2, fun x hx => Nat.lt_trans h2 (h3 x hx)⟩, h3, h4⟩, h1, h5, h6⟩
      · rintro ⟨⟨⟨h1, -⟩, h3, h4⟩, h5, h6, h7⟩
        exact ⟨⟨h5, h1⟩, ⟨h3, h4⟩, h6, h7⟩

theorem wf_rising {l : List Host.Cell} (h : Memory.wf l = true) : Rising l := ((wf_iff l).mp h).1

/-- Setting a byte keeps the canonical form. -/
theorem wf_sput {k : Nat} {v : BitVec 8} {l : List Host.Cell} (h : Memory.wf l = true) :
    Memory.wf (sput (0 : BitVec 8) k v l) = true := by
  rw [wf_iff] at h ⊢
  refine ⟨h.1.sput, ?_⟩
  obtain ⟨-, h⟩ := h
  induction l with
  | nil => simp only [sput]; split <;> simp_all
  | cons x t ih =>
    obtain ⟨a, b⟩ := x
    simp only [sput]
    split
    · split
      · exact h
      · next hv => intro y hy; rcases List.mem_cons.mp hy with rfl | hy; exacts [hv, h y hy]
    · split
      · split
        · exact fun y hy => h y (by simp [hy])
        · next hv => intro y hy; rcases List.mem_cons.mp hy with rfl | hy; exacts [hv, h y (by simp [hy])]
      · intro y hy
        rcases List.mem_cons.mp hy with rfl | hy
        · exact h _ (by simp)
        · exact ih (fun z hz => h z (by simp [hz])) y hy

/-- Taking bytes out keeps the canonical form. -/
theorem wf_filter (p : Host.Cell → Bool) {l : List Host.Cell} (h : Memory.wf l = true) :
    Memory.wf (l.filter p) = true := by
  rw [wf_iff] at h ⊢
  exact ⟨h.1.filter p, fun x hx => h.2 x (List.mem_filter.mp hx).1⟩

theorem wf_setMemByte {a : Nat} {v : Byte} {s : State} (h : Memory.wf s.mem = true) :
    Memory.wf (setMemByte a v s).mem = true := wf_sput h

theorem wf_memWriteBytes {a : Nat} {l : List Byte} {s : State} (h : Memory.wf s.mem = true) :
    Memory.wf (memWriteBytes a l s).mem = true := by
  induction l generalizing a s with
  | nil => exact h
  | cons b t ih => exact ih (wf_setMemByte h)

theorem wf_memWrite {a n v : Nat} {s : State} (h : Memory.wf s.mem = true) : Memory.wf (memWrite a n v s).mem = true :=
  wf_memWriteBytes h

/-! ### Reads after writes -/

theorem memByte_congr {s t : State} (h : t.mem = s.mem) (a : Nat) : memByte a t = memByte a s := by rw [memByte, memByte, h]

theorem memRead_congr {s t : State} (h : t.mem = s.mem) (a n : Nat) : memRead a n t = memRead a n s := by
  rw [memRead, memRead]
  simp only [memByte_congr h]

theorem memByte_setMemByte {a : Nat} {v : Byte} {s : State} (h : Rising s.mem) : memByte a (setMemByte a v s) = v :=
  sget_sput _ _ _ h

theorem memByte_setMemByte_ne {a x : Nat} {v : Byte} {s : State} (h : x ≠ a) :
    memByte x (setMemByte a v s) = memByte x s := sget_sput_ne _ _ _ h

theorem rising_setMemByte {a : Nat} {v : Byte} {s : State} (h : Rising s.mem) : Rising (setMemByte a v s).mem := h.sput

/-- A write leaves every byte outside it. -/
theorem memByte_memWriteBytes_out {a x : Nat} {l : List Byte} {s : State} (h : x < a ∨ a + l.length ≤ x) :
    memByte x (memWriteBytes a l s) = memByte x s := by
  induction l generalizing a s with
  | nil => rfl
  | cons b t ih =>
    simp only [List.length_cons] at h
    simp only [memWriteBytes]
    rw [ih (by omega), memByte_setMemByte_ne (by omega)]

/-- A byte of a write. -/
theorem memByte_memWriteBytes {a : Nat} {l : List Byte} {s : State} (h : Rising s.mem) (i : Nat) (hi : i < l.length) :
    memByte (a + i) (memWriteBytes a l s) = l[i] := by
  induction l generalizing a s i with
  | nil => exact absurd hi (by simp)
  | cons b t ih =>
    simp only [memWriteBytes]
    cases i with
    | zero => rw [memByte_memWriteBytes_out (by omega)]; exact memByte_setMemByte h
    | succ i =>
      have : a + (i + 1) = a + 1 + i := by omega
      rw [this, ih (rising_setMemByte h) i (by simpa using hi)]
      rfl

theorem length_toBytes (n v : Nat) : (toBytes n v).length = n := by
  induction n generalizing v with
  | zero => rfl
  | succ n ih => simp [toBytes, ih]

theorem fromBytes_toBytes (n v : Nat) : fromBytes (toBytes n v) = v % 2 ^ (8 * n) := by
  induction n generalizing v with
  | zero => simp [toBytes, fromBytes, Nat.mod_one]
  | succ n ih =>
    simp only [toBytes, fromBytes, ih, BitVec.toNat_ofNat]
    have e : 2 ^ (8 * (n + 1)) = 2 ^ 8 * 2 ^ (8 * n) := by rw [← Nat.pow_add]; congr 1; omega
    rw [e, Nat.mod_mul]; simp

/-- A number read back after it was written. -/
theorem memRead_memWrite {a n v : Nat} {s : State} (h : Rising s.mem) :
    memRead a n (memWrite a n v s) = v % 2 ^ (8 * n) := by
  rw [memRead, memWrite, ← fromBytes_toBytes]
  congr 1
  refine List.ext_getElem (by simp [length_toBytes]) fun i h1 h2 => ?_
  simp only [List.getElem_map, List.getElem_range]
  exact memByte_memWriteBytes h i (by simpa [length_toBytes] using h1)

theorem memByte_memWrite_out {a n v x : Nat} {s : State} (h : x < a ∨ a + n ≤ x) :
    memByte x (memWrite a n v s) = memByte x s := memByte_memWriteBytes_out (by rwa [length_toBytes])

/-- Addresses below 4 GiB are not DDR5. -/
theorem inDdr_low {a : Nat} {s : State} (h : a < 0x100000000) : inDdr a s = false := by
  have : ¬ ddrBase ≤ a := by simp only [ddrBase]; omega
  simp [inDdr, this]

/-! ### Registers through the register pages -/

/-- A store under the access types sets the writable bits and leaves the others. -/
theorem reg_storeFields (r : Reg) (n k v : Nat) {s : State} (h : Rising s.regs) (hv : v < 2 ^ 32) :
    reg r n k (storeFields r n k v s) =
      (reg r n k s &&& ((2 ^ 32 - 1) ^^^ writableBits r n s)) ||| (v &&& writableBits r n s) := by
  have key : ∀ w, reg r n k (setReg r n k ((reg r n k s &&& ((2 ^ 32 - 1) ^^^ w)) ||| (v &&& w)) s) =
      (reg r n k s &&& ((2 ^ 32 - 1) ^^^ w)) ||| (v &&& w) := by
    intro w
    rw [reg_setReg _ _ _ _ h, Nat.mod_eq_of_lt]
    exact Nat.or_lt_two_pow (Nat.lt_of_le_of_lt Nat.and_le_left (reg_lt ..)) (Nat.lt_of_le_of_lt Nat.and_le_left hv)
  simp only [storeFields, writableBits]
  split
  · rw [reg_congr (t := blockError ..) (blockError_regs ..)]; exact key _
  · exact key _

theorem reg_storeFields_testBit (r : Reg) (n k v i : Nat) {s : State} (h : Rising s.regs) (hv : v < 2 ^ 32) (hi : i < 32) :
    (reg r n k (storeFields r n k v s)).testBit i =
      if (writableBits r n s).testBit i then v.testBit i else (reg r n k s).testBit i := by
  rw [reg_storeFields r n k v h hv]
  simp only [Nat.testBit_or, Nat.testBit_and, Nat.testBit_xor, Nat.testBit_two_pow_sub_one, hi, decide_true]
  split <;> simp_all

theorem fld_bit (r : Reg) (n k i : Nat) (s : State) : (fld r n k i i s == 1) = (reg r n k s).testBit i := by
  simp only [fld, bits, Nat.add_sub_cancel_left, Nat.pow_one, Nat.testBit, Nat.one_and_eq_mod_two]
  rcases Nat.mod_two_eq_zero_or_one (reg r n k s >>> i) with h | h <;> simp [h]

end Sys2Proof.Machine
end

