-- ==== Sys2Proof/Laws/Time.lean ====
section
/-!
SUPPORT. What the passing of time changes, and the controllers of a host port after an update.
-/

set_option Elab.async false

namespace Sys2Proof.Machine

theorem elapse_us (dt : Nat) (s : State) : (elapse dt s).us = s.us + dt := by
  unfold elapse
  have a := frame_calCount (m := 0x3800000910) dt _ (.refl (s := vlkCount dt ({ s with us := s.us + dt, sys := { s.sys with wdtAt := if wdtPaused s then s.sys.wdtAt + dt else s.sys.wdtAt } } : State))) rfl .us rfl
  have b := frame_vlkCount (m := 0x4000000000) dt _ (.refl (s := ({ s with us := s.us + dt, sys := { s.sys with wdtAt := if wdtPaused s then s.sys.wdtAt + dt else s.sys.wdtAt } } : State))) rfl .us rfl
  exact a.trans b

theorem elapse_sys (dt : Nat) (s : State) :
    (elapse dt s).sys = { s.sys with wdtAt := if wdtPaused s then s.sys.wdtAt + dt else s.sys.wdtAt } := by
  unfold elapse
  have a := frame_calCount (m := 0x3800000910) dt _ (.refl (s := vlkCount dt ({ s with us := s.us + dt, sys := { s.sys with wdtAt := if wdtPaused s then s.sys.wdtAt + dt else s.sys.wdtAt } } : State))) rfl .sys rfl
  have b := frame_vlkCount (m := 0x4000000000) dt _ (.refl (s := ({ s with us := s.us + dt, sys := { s.sys with wdtAt := if wdtPaused s then s.sys.wdtAt + dt else s.sys.wdtAt } } : State))) rfl .sys rfl
  exact a.trans b

theorem advanceTo_us (t : Nat) (s : State) : (advanceTo t s).us = max s.us t := by
  unfold advanceTo; split
  · rw [elapse_us]; omega
  · omega

theorem advanceTo_sys (t : Nat) (s : State) :
    (advanceTo t s).sys = { s.sys with wdtAt := (advanceTo t s).sys.wdtAt } := by
  unfold advanceTo; split
  · rw [elapse_sys]
  · rfl

theorem ctrlAt_fin (p : Fin 2) (s : State) : ctrlAt p s = s.hce.ctrl[p] := by
  unfold ctrlAt ctrlIdx
  congr 1
  ext
  simp [Fin.ofNat, Nat.mod_eq_of_lt p.2]

theorem modCtrl_same (p : Fin 2) (f : Ctrl → Ctrl) (s : State) : (s.modCtrl p f).hce.ctrl[p] = f s.hce.ctrl[p] := by
  simp [State.modCtrl]

theorem modCtrl_sameNat (p : Fin 2) (f : Ctrl → Ctrl) (s : State) :
    (s.modCtrl p f).hce.ctrl[p.val] = f s.hce.ctrl[p.val] := by
  simp [State.modCtrl]

@[simp] theorem ctrlAt_modCtrl (p : Fin 2) (f : Ctrl → Ctrl) (s : State) :
    ctrlAt p (s.modCtrl p f) = f (ctrlAt p s) := by
  rw [ctrlAt_fin, ctrlAt_fin, modCtrl_same]

theorem modCtrl_other {p q : Fin 2} (h : p ≠ q) (f : Ctrl → Ctrl) (s : State) :
    (s.modCtrl p f).hce.ctrl[q] = s.hce.ctrl[q] := by
  have : p.val ≠ q.val := fun e => h (Fin.ext e)
  simp [State.modCtrl, this]

end Sys2Proof.Machine
end

