-- ==== Sys2Proof/Laws/Access.lean ====
section
/-!
SUPPORT. Accesses to a block that answers: its header, its window and its registers.
-/

set_option Elab.async false
set_option linter.all false

namespace Sys2Proof.Machine

theorem hdrBlk_lt {h : Fin 77} {b n} (e : hdrBlk h = (b, n)) : b.hdr n = h := by
  have := hdrBlk_hdr h; rw [e] at this; exact this

theorem hdrOf_blk {h : Fin 77} {b n} (e : hdrBlk h = (b, n)) (s) : hdrOf b n s = headerOf h s := by
  rw [hdrOf_eq, hdrBlk_lt e]

theorem pageOn_reach {b n s} (r : Reach b n s) : pageOn b n s = true := by
  simp only [pageOn, r.2.1, r.2.2, Bool.not_false, Bool.and_true]

theorem access_reach {b n a k s} (r : Reach b n s) : access b n a k s = useWindow b n (k s) := by
  simp only [access, pageOn_reach r, r.1, if_true]

/-- An answer to a leave request changes no header but interrupt status. -/
theorem headerOf_submitLeave (p : Fin 16) (c pr mw i dl du k : Nat) (s : State) :
    (headerOf k s).sameButIrq (headerOf k (submitLeave p c pr mw i dl du s)) := by
  have hd : ∀ a b u, headerOf k (denyPort p a b u) = headerOf k u := fun a b u =>
    headerOf_congr (frame_denyPort p a b u (m := 0x6000) .refl rfl .hdr rfl) k
  have hw : ∀ u, headerOf k (walkQueue u) = headerOf k u := fun u =>
    headerOf_congr (frame_walkQueue u (m := 0x6000) .refl rfl .hdr rfl) k
  have hg : ∀ n u, headerOf k (grantTicket n u) = headerOf k u := fun n u =>
    headerOf_congr (frame_grantTicket n u (m := 0x6000) .refl rfl .hdr rfl) k
  unfold submitLeave
  dsimp only
  repeat' split
  all_goals first
    | (rw [hd]; exact .refl)
    | (rw [hg]; exact .refl)
    | (rw [hw]; exact .refl)
    | (have := headerOf_ev .llt 0x0E40 p 0 0 k (denyPort p c 1 s); rw [hd] at this; exact this)

theorem headerOf_lltRelease (k : Nat) (s : State) : (headerOf k s).sameButIrq (headerOf k (lltRelease s)) := by
  have key : ∀ (l : List (Fin 16)) (u : State), (headerOf k u).sameButIrq (headerOf k (l.foldl (fun (s : State) (p : Fin 16) =>
      match s.llt.ports[p].await with
      | some (a, b) => submitWords p a b (s.modPort p fun x => { x with await := none })
      | none => s) u)) := by
    intro l
    induction l with
    | nil => exact fun u => .refl
    | cons p l ih =>
      intro u
      rw [List.foldl_cons]
      refine .trans ?_ (ih _)
      split
      · exact headerOf_submitLeave _ _ _ _ _ _ _ k (u.modPort p _)
      · exact .refl
  unfold lltRelease
  rw [headerOf_congr (frame_walkQueue _ (m := 0x6000) .refl rfl .hdr rfl)]
  exact key _ s

/-- With no access held, a release changes nothing (R98). -/
theorem releaseHeld_nil {s : State} (h : s.dmc.heldAcc = []) : releaseHeld s = s := by
  unfold releaseHeld
  rw [h]
  simp only [List.filter_nil, List.foldl_nil]
  rw [← h]

/-- An access that ends well is no transfer error of a DMA engine (R28). -/
theorem dmaError_ok {m : Master} {s : State} (h : s.busErr = false) : dmaError m s = s := by
  unfold dmaError
  split
  · rw [if_neg (by rw [h]; exact Bool.false_ne_true)]
  · rfl

/-- An access on the bus that ends well is the bus operation itself. -/
theorem exec_bus {m : Master} {a : BitVec 40} {wr : Bool} {bytes : Nat} {v : BitVec 64} {s : State} (h : pdOn 2 s = true)
    (he : (busOp m a.toNat wr (busSize bytes) (v.toNat % 2 ^ (8 * busSize bytes)) s).busErr = false) :
    exec (.busAccess m a wr bytes v) s =
      .next (busOp m a.toNat wr (busSize bytes) (v.toNat % 2 ^ (8 * busSize bytes)) s) := by
  show Host.Outcome.next (if pdOn 2 s then dmaError m _ else s) = _
  rw [if_pos h, dmaError_ok he]

/-- A transfer error of a DMA engine adds to the event queue and takes nothing from it. -/
theorem queue_dmaError (m : Master) (s : State) : ∃ l, (dmaError m s).evr.queue = s.evr.queue ++ l := by
  unfold dmaError
  split
  · split
    · split
      · exact queue_ev ..
      · exact ⟨[], (List.append_nil _).symm⟩
    · exact ⟨[], (List.append_nil _).symm⟩
  · exact ⟨[], (List.append_nil _).symm⟩

theorem memWriteBytes_mem_congr : ∀ (l : List Byte) (a : Nat), ∀ {u v : State}, u.mem = v.mem →
    (memWriteBytes a l u).mem = (memWriteBytes a l v).mem := by
  intro l
  induction l with
  | nil => intro a u v h; exact h
  | cons b l ih => intro a u v h; exact ih (a + 1) (by unfold setMemByte; dsimp only; rw [h])

theorem memWrite_mem_congr {u v : State} {a n x : Nat} (h : u.mem = v.mem) : (memWrite a n x u).mem = (memWrite a n x v).mem :=
  memWriteBytes_mem_congr _ _ h

/-- A write of DDR5 that does not wait and goes past the L1 caches is one of BCC; a copy the caches hold follows it. -/
theorem ddrTake_write {m : Master} {a n v : Nat} {err : DdrErr} {s : State} (h1 : inDdr a s = true) (h2 : pdOn 12 s = true)
    (h3 : accessWaits a s = false) (h4 : pastL1 m a s = true) :
    ∃ q l, ddrTake m a n (some v) err s =
      { bccWrite q (a - ddrBase) n v { s with l1 := l } with busData := 0, busErr := false } := by
  have hd : ∀ l, inDdr a { s with l1 := l } = true := fun _ => h1
  unfold ddrTake memAccess
  rw [h1, h2, h3]
  simp only [Bool.not_true, Bool.false_eq_true, if_false, if_true]
  match m with
  | .core (.a c) =>
    have hc : s.sys.ucache[c].2 = false := by unfold pastL1 at h4; simpa using (Bool.and_eq_true_iff.mp h4).2
    simp only [memTake, acoreStore, hc, hd, Bool.false_eq_true, if_false, if_true]
    exact ⟨_, _, rfl⟩
  | .core .sec => simp only [memTake, l1DropAll, hd, if_true]; exact ⟨_, _, rfl⟩
  | .core (.t c) => simp only [memTake, hd, if_true]; exact ⟨_, _, rfl⟩
  | .debug => simp only [memTake, hd, if_true]; exact ⟨_, _, rfl⟩
  | .dma _ => simp only [memTake, hd, if_true]; exact ⟨_, _, rfl⟩

/-- A read of DDR5 that does not wait and goes past the L1 caches is one of BCC. -/
theorem ddrTake_read {m : Master} {a n : Nat} {err : DdrErr} {s : State} (h1 : inDdr a s = true) (h2 : pdOn 12 s = true)
    (h3 : accessWaits a s = false) (h4 : pastL1 m a s = true) : ddrTake m a n none err s = ddrAccess m a n none err s := by
  have hn : (l1Find (a / 64) s).isSome = false := by
    unfold pastL1 at h4
    cases h : l1Find (a / 64) s <;> simp_all
  have g : memTake m a n none err s = ddrAccess m a n none err s := by
    unfold memTake
    match m with
    | .core (.a c) =>
      have hc : s.sys.ucache[c].2 = false := by unfold pastL1 at h4; simpa using (Bool.and_eq_true_iff.mp h4).2
      dsimp only
      unfold acoreLoad
      rw [hc, hn, h1, if_neg Bool.false_ne_true, if_neg Bool.false_ne_true, if_pos rfl]
      rfl
    | .core .sec => dsimp only; rw [if_pos h1]
    | .core (.t c) => dsimp only; rw [hn, if_neg Bool.false_ne_true, if_pos h1]
    | .debug => dsimp only; rw [hn, if_neg Bool.false_ne_true, if_pos h1]
    | .dma _ => dsimp only; rw [hn, if_neg Bool.false_ne_true, if_pos h1]
  unfold ddrTake memAccess
  rw [h1, h2, h3, g]
  rfl

/-- Only an access to DDR5 waits (R98, R339). -/
theorem accessWaits_low {a : Nat} {s : State} (h : inDdr a s = false) : accessWaits a s = false := by
  unfold accessWaits; rw [h]; rfl
end Sys2Proof.Machine
namespace Sys2Proof.Machine

theorem releaseCore_up (env s) : (releaseCore env s).sys.coreUp = true ∧ (releaseCore env s).sys.held = false ∧
    (releaseCore env s).sys.railsGood = s.sys.railsGood := by
  unfold releaseCore
  dsimp only
  have e := (KeepUp_sampleStraps env s (o := s) .refl).2.1
  generalize sampleStraps env s = w at *
  generalize hu : ({ (State.modPwr _ _) with clk := _ } : State) = u
  have k := KeepUp_measureStart _ (KeepUp_applyPolicy _ (KeepUp_ev .sys 0x0E01 w.sys.pendCause.toNat 0 0 _ (KeepUp_countCauses w.sys.pendCause u (o := u) .refl)))
  subst hu
  exact ⟨k.1.trans rfl, k.2.2.trans rfl, k.2.1.trans e⟩

/-- What the start of an image leaves (R94). -/
theorem startImage_spec (slot : Nat) (img : BootImage) (s : State) : (startImage slot img s).sys.acoresUp = true ∧
    (startImage slot img s).sys.uartWait = false ∧ (startImage slot img s).sys.slot = slot ∧
    (startImage slot img s).sec.imgDigest = img.digest ∧ (startImage slot img s).sec.imgSvn = img.svn := by
  unfold startImage
  dsimp only
  generalize measureStage _ = u
  refine ⟨rfl, rfl, rfl, ?_, ?_⟩
  · split <;> rfl
  · split <;> rfl

theorem coldStart_keep (env s) : KeepUp (releaseCore env s) (coldStart env s) := by
  unfold coldStart
  generalize releaseCore env s = u
  dsimp only
  have tail : ∀ v, KeepUp u v → KeepUp u (bistResults env (trainLink 1 (trainLink 0 (setFld .pllen 0 0 3 3 1 (v.modSys fun y => { y with stage := 1 }))))) := by
    intro v k
    exact KeepUp_bistResults _ _ (KeepUp_trainLink _ _ (KeepUp_trainLink _ _ (KeepUp_setFld _ _ _ _ _ _ _ (k.trans ⟨rfl, rfl, rfl⟩))))
  have t := tail u .refl
  generalize bistResults _ _ = w at *
  split
  · exact (KeepUp_ev _ _ _ _ _ _ .refl).trans ⟨rfl, rfl, rfl⟩
  · split
    · exact t.trans ⟨rfl, rfl, rfl⟩
    · split
      · exact t.trans ⟨rfl, rfl, rfl⟩
      · exact KeepUp_bootSlots _ _ (t.trans ⟨rfl, rfl, rfl⟩)

theorem coldStart_up (env s) : (coldStart env s).sys.coreUp = true ∧ (coldStart env s).sys.held = false ∧
    (coldStart env s).sys.railsGood = s.sys.railsGood := by
  have a := releaseCore_up env s; have b := coldStart_keep env s
  exact ⟨b.1.trans a.1, b.2.2.trans a.2.1, b.2.1.trans a.2.2⟩
end Sys2Proof.Machine
namespace Sys2Proof.Machine

theorem stopController_link (p k s) : (stopController p k s).hce.ctrl[p].link =
    (s.hce.ctrl[p].perst, s.hce.ctrl[p].linkUp, s.hce.ctrl[p].cfgOpen, false, false) := by
  unfold stopController
  dsimp only
  generalize hu : State.modPwr _ _ = u
  have a : u.hce.ctrl[p].link = (s.hce.ctrl[p].perst, s.hce.ctrl[p].linkUp, s.hce.ctrl[p].cfgOpen, false, false) := by
    rw [← hu]; simp [State.modPwr, State.modHce, State.modCtrl, Ctrl.link]
  rw [← a]
  apply links_get
  exact KeepLink_ev _ _ _ _ _ _ (.foldl .refl fun v x k => KeepLink_stopOne _ _ k)
end Sys2Proof.Machine
namespace Sys2Proof.Machine

theorem trainLink_link (p : Fin 2) (s) : (ctrlAt p (trainLink p s)).en = (ctrlAt p s).en ∧ (ctrlAt p (trainLink p s)).rdy = (ctrlAt p s).rdy ∧ (ctrlAt p (trainLink p s)).perst = (ctrlAt p s).perst := by
  unfold trainLink; split
  · have e : ctrlAt p (raiseLine (132 + p) (s.modCtrl p fun x => { x with linkUp := true })) = { ctrlAt p s with linkUp := true } := by
      rw [ctrlAt_fin, raiseLine_hce, modCtrl_same, ctrlAt_fin]
    rw [e]; exact ⟨rfl, rfl, rfl⟩
  · exact ⟨rfl, rfl, rfl⟩

theorem perstAction_link (p : Fin 2) (s) (h1 : pdOn 8 s = true) (h2 : portExists p s = true) : (ctrlAt p (perstAction p s)).en = false ∧ (ctrlAt p (perstAction p s)).rdy = false ∧ (ctrlAt p (perstAction p s)).perst = (ctrlAt p s).perst := by
  unfold perstAction
  simp only [h1, h2, Bool.and_self, if_true]
  have k := stopController_link p 0 (s.modCtrl p fun x => { x with linkUp := false, cfgAtLoaded := true })
  simp only [Ctrl.link, Prod.mk.injEq, modCtrl_same] at k
  simp only [ctrlAt_fin, raiseLine_hce]
  exact ⟨k.2.2.2.1, k.2.2.2.2, k.1⟩

theorem linkReset_link (p : Fin 2) (kind s) (h1 : pdOn 8 s = true) (h2 : portExists p s = true) (h3 : (ctrlAt p s).linkUp = true) :
    (ctrlAt p (linkReset p kind s)).en = false ∧ (ctrlAt p (linkReset p kind s)).rdy = false ∧ (ctrlAt p (linkReset p kind s)).perst = (ctrlAt p s).perst := by
  unfold linkReset
  simp only [h1, h2, h3, Bool.and_self, if_true]
  have e : ctrlAt p (ev .pcx 0x0130 p kind 0 s) = ctrlAt p s := by simp [ctrlAt_fin]
  have g1 : pdOn 8 (ev .pcx 0x0130 p kind 0 s) = true := by simpa [pdOn] using h1
  have g2 : portExists p (ev .pcx 0x0130 p kind 0 s) = true := by simpa [portExists] using h2
  generalize ev .pcx 0x0130 p kind 0 s = u at *
  have a := perstAction_link p u g1 g2
  have b := trainLink_link p (perstAction p u)
  rw [e] at a
  exact ⟨b.1.trans a.1, b.2.1.trans a.2.1, b.2.2.trans a.2.2⟩
end Sys2Proof.Machine
namespace Sys2Proof.Machine

def Ticket.key (t : Ticket) : Nat × Nat × Nat × Nat × Nat := (t.num, t.cls, t.mw, t.port, t.gen)

def ticketKeys (s : State) : List (Nat × Nat × Nat × Nat × Nat) := s.llt.tickets.map Ticket.key

theorem ticketKeys_congr {s t : State} (h : t.llt.tickets = s.llt.tickets) : ticketKeys t = ticketKeys s := by
  simp only [ticketKeys, h]

theorem countClass_tickets (c w s) : (countClass c w s).llt.tickets = s.llt.tickets := rfl

theorem countClass_orphans (c w s) : (countClass c w s).llt.orphans = s.llt.orphans := rfl

theorem modTicket_keys {k : Nat} {f : Ticket → Ticket} (hf : ∀ x, (f x).key = x.key) (s) : ticketKeys (modTicket k f s) = ticketKeys s := by
  unfold ticketKeys modTicket State.modLlt mapIf
  simp only [List.map_map]
  congr 1
  funext x
  simp only [Function.comp]
  split
  · exact hf x
  · rfl

theorem grantTicket_keys (k : Nat) (s : State) (h : s.llt.orphans = []) :
    ticketKeys (grantTicket k s) = ticketKeys s ∧ (grantTicket k s).llt.orphans = [] := by
  unfold grantTicket
  split
  · exact ⟨rfl, h⟩
  · next t ht =>
    dsimp only
    generalize hu : portLine t.port _ = u
    have hk : ticketKeys u = ticketKeys s := by
      rw [← hu]
      rw [ticketKeys_congr (t := portLine _ _) (s := modTicket k (fun t' => { t' with state := .granted, reqEnd := now s + t.dur, at_ := cappedEnd (now s + t.dur) s, order := s.llt.order }) s) (by rfl)]
      exact modTicket_keys (f := fun t' => { t' with state := .granted, reqEnd := now s + t.dur, at_ := cappedEnd (now s + t.dur) s, order := s.llt.order }) (fun x => rfl) s
    have ho : u.llt.orphans = [] := by rw [← hu]; exact h
    rw [ho]
    exact ⟨hk, ho⟩

theorem walkFrom_keys (l : List Ticket) (o : Option Nat) (s : State) (h : s.llt.orphans = []) :
    ticketKeys (walkFrom l o s) = ticketKeys s ∧ (walkFrom l o s).llt.orphans = [] := by
  induction l generalizing o s with
  | nil => exact ⟨rfl, h⟩
  | cons t l ih =>
    have go : ∀ o2, ticketKeys (walkFrom l o2 (grantTicket t.num s)) = ticketKeys s ∧ (walkFrom l o2 (grantTicket t.num s)).llt.orphans = [] := by
      intro o2
      have a := grantTicket_keys t.num s h
      have b := ih o2 (grantTicket t.num s) a.2
      exact ⟨b.1.trans a.1, b.2⟩
    cases o <;> simp only [walkFrom] <;> (repeat' split) <;> first | exact go _ | exact ih _ _ h

theorem walkQueue_keys (s : State) (h : s.llt.orphans = []) : ticketKeys (walkQueue s) = ticketKeys s := (walkFrom_keys _ _ s h).1
end Sys2Proof.Machine
namespace Sys2Proof.Machine

theorem llt_storeFields (r n k v s) : (storeFields r n k v s).llt = s.llt := frame_storeFields r n k v s (m := 0x1800000110) .refl rfl .llt rfl

theorem irq_storeFields (r n k v s) : (storeFields r n k v s).irq = s.irq := frame_storeFields r n k v s (m := 0x1800000110) .refl rfl .irq rfl

theorem denyPort_port (p : Fin 16) (c r s) : (denyPort p c r s).llt.ports[p].state = 3 ∧ (denyPort p c r s).llt.ports[p].reason = r ∧
    (360 + p.val) ∈ (denyPort p c r s).irq.pending ∧ (denyPort p c r s).llt.tickets = s.llt.tickets := by
  unfold denyPort
  dsimp only
  generalize hu : State.modPort p _ s = u
  have a : u.llt.ports[p].state = 3 ∧ u.llt.ports[p].reason = r ∧ u.llt.tickets = s.llt.tickets := by rw [← hu]; simp [State.modPort]
  have b : ∀ w : State, w.llt.ports = u.llt.ports → w.llt.tickets = u.llt.tickets → (portLine p (leaveLost p w)).llt.ports[p].state = 3 ∧ (portLine p (leaveLost p w)).llt.ports[p].reason = r ∧
    (360 + p.val) ∈ (portLine p (leaveLost p w)).irq.pending ∧ (portLine p (leaveLost p w)).llt.tickets = s.llt.tickets := by
    intro w hw hk
    have e : (portLine p (leaveLost p w)).llt = w.llt := by unfold portLine leaveLost; split <;> rfl
    have f : (portLine p (leaveLost p w)).irq.pending = insertNat (360 + p.val) (leaveLost p w).irq.pending := rfl
    rw [f, mem_insertNat]
    simp only [e, hw, hk]
    exact ⟨a.1, a.2.1, .inl trivial, a.2.2⟩
  split
  · exact b _ rfl rfl
  · exact b _ rfl rfl

theorem leaveLost_llt (p s) : (leaveLost p s).llt = s.llt := by unfold leaveLost; split <;> rfl

theorem boostEnds_llt (k g s) : (boostEnds k g s).llt = s.llt := by unfold boostEnds; split <;> rfl

theorem walkQueue_gone {k : Nat} {s : State} (h : s.llt.orphans = []) (e : ∀ y ∈ s.llt.tickets, y.num ≠ k) :
    ∀ y ∈ (walkQueue s).llt.tickets, y.num ≠ k := by
  intro y hy hn
  have a := walkQueue_keys s h
  have b : y.key ∈ ticketKeys (walkQueue s) := List.mem_map_of_mem hy
  rw [a] at b
  obtain ⟨z, hz, hk⟩ := List.mem_map.mp b
  exact e z hz (by have := congrArg (·.1) hk; simp only [Ticket.key] at this; omega)

theorem walkQueue_has {s : State} {x : Ticket} (h : s.llt.orphans = []) (e : x ∈ s.llt.tickets) :
    ∃ y ∈ (walkQueue s).llt.tickets, y.key = x.key := by
  have a := walkQueue_keys s h
  have b : x.key ∈ ticketKeys s := List.mem_map_of_mem e
  rw [← a] at b
  obtain ⟨z, hz, hk⟩ := List.mem_map.mp b
  exact ⟨z, hz, hk⟩

theorem freeTicket_gone (k s) : ∀ y ∈ (freeTicket k s).llt.tickets, y.num ≠ k := by
  intro y hy; simp [freeTicket, State.modLlt] at hy; exact hy.2
end Sys2Proof.Machine
namespace Sys2Proof.Machine

theorem walkQueue_therm (s : State) : (walkQueue s).llt.therm = s.llt.therm ∧ (walkQueue s).llt.episode = s.llt.episode :=
  let k := KeepTherm_walkQueue s (o := s) .refl
  ⟨k.1, k.2⟩
end Sys2Proof.Machine
namespace Sys2Proof.Machine

theorem enterCmd_ord {a b c d m} {s : State} (h : takesOrd b m.op = true) : (enterCmd a b c d m s).lgr.ordNext = (s.lgr.ordNext + 1) % 2 ^ 32 := by
  unfold enterCmd
  simp only [h, if_true, Option.isSome_some]
  generalize hu : State.modHce _ _ = u
  have a1 : u.lgr.ordNext = (s.lgr.ordNext + 1) % 2 ^ 32 := by
    rw [← hu]
    have k : KeepOrd (takeOrd s) (if (m.op == NvmeOp.setFeatures && m.cdw10 % 256 == 2) = true then takeOrd s else psUnwind (takeOrd s)) :=
      .ite .refl (KeepOrd_psUnwind _ .refl)
    exact Eq.trans (show _ = _ from k) rfl
  have k1 := fun t => KeepOrd_startCmd t u (o := u) .refl
  split
  · split
    · exact Eq.trans (show _ = _ from KeepOrd_fetchEffects _ _ (k1 _)) a1
    · exact Eq.trans (show _ = _ from k1 _) a1
  · exact Eq.trans (show _ = _ from k1 _) a1
end Sys2Proof.Machine
end

