-- ==== Sys2Proof/Laws/Host.lean ====
section
/-!
SUPPORT. Live commands after an update: what finishing one leaves under its tag.
-/

set_option Elab.async false

namespace Sys2Proof.Machine

theorem cmdAt_congr {s t : State} (h : t.hce.cmds = s.hce.cmds) (k : Nat) : cmdAt k t = cmdAt k s := by
  simp only [cmdAt, h]

theorem cmdAt_tag {k : Nat} {s : State} {c : Cmd} (h : cmdAt k s = some c) : c.tag = k := by
  simpa using List.find?_some h

theorem find_mapIf {l : List Cmd} {f : Cmd → Cmd} (hf : ∀ x, (f x).tag = x.tag) (k : Nat) :
    (mapIf (·.tag == k) f l).find? (·.tag == k) = (l.find? (·.tag == k)).map f := by
  induction l with
  | nil => rfl
  | cons a l ih =>
    unfold mapIf at *
    rw [List.map_cons, List.find?_cons, List.find?_cons]
    by_cases h : a.tag = k
    · simp [h, hf]
    · have e : (a.tag == k) = false := by simpa using h
      simp only [e, Bool.false_eq_true, if_false]
      exact ih

theorem cmdAt_modCmd {k : Nat} {f : Cmd → Cmd} {s : State} (hf : ∀ x, (f x).tag = x.tag) :
    cmdAt k (modCmd k f s) = (cmdAt k s).map f := find_mapIf hf k

theorem done_congr {k : Nat} {st : Status} {s t : State} (h : t.hce.cmds = s.hce.cmds) : Done k st t ↔ Done k st s := by
  simp only [Done, cmdAt_congr h]

/-- Finishing a live command decides its status and its result words. -/
theorem cmdAt_finishDw {tag : Nat} {st : Status} {a b : Nat} {s : State} {c : Cmd} (hc : cmdAt tag s = some c) :
    cmdAt tag (finishDw tag st a b s) = some { c with phase := .finished, status := some st, dnr := (st != stOk && st != stNotReady) && draw 2 s == 1, dw0 := a, dw1 := b } := by
  unfold finishDw
  rw [hc]
  dsimp only
  have key : ∀ u : State, u.hce = s.hce → cmdAt tag
      ((modCmd tag (fun c => { c with phase := .finished, status := some st, dnr := (st != stOk && st != stNotReady) && draw 2 s == 1, dw0 := a, dw1 := b }) u).modCtrl
        (ctrlIdx c.ctrl) fun x => { x with excq := x.excq.filter (· != tag) }) = some { c with phase := .finished, status := some st, dnr := (st != stOk && st != stNotReady) && draw 2 s == 1, dw0 := a, dw1 := b } := by
    intro u hu
    refine (cmdAt_congr (s := modCmd tag (fun c => { c with phase := .finished, status := some st, dnr := (st != stOk && st != stNotReady) && draw 2 s == 1, dw0 := a, dw1 := b }) u) rfl _).trans ?_
    rw [cmdAt_modCmd (f := fun c => { c with phase := .finished, status := some st, dnr := (st != stOk && st != stNotReady) && draw 2 s == 1, dw0 := a, dw1 := b }) (fun _ => rfl), cmdAt_congr (congrArg Hce.cmds hu), hc]
    rfl
  apply key
  have d : ∀ p : Prop, [Decidable p] → (if p then s.drawn else s).hce = s.hce := by intro p _; split <;> rfl
  split
  · split
    · exact (frame_releaseReader _ _ (m := 0x10000) .refl rfl .hce rfl).trans (d _)
    · exact d _
  · exact d _

theorem done_finishDw {tag : Nat} {st : Status} {a b : Nat} {s : State} (h : (cmdAt tag s).isSome = true) :
    Done tag st (finishDw tag st a b s) := by
  obtain ⟨c, hc⟩ := Option.isSome_iff_exists.mp h
  exact ⟨_, cmdAt_finishDw hc, rfl, rfl⟩

theorem done_finish {tag : Nat} {st : Status} {s : State} (h : (cmdAt tag s).isSome = true) : Done tag st (finish tag st s) :=
  done_finishDw h

@[simp] theorem ctrlAt_modCtrl_idx (c : Nat) (f : Ctrl → Ctrl) (s : State) :
    ctrlAt c (s.modCtrl (ctrlIdx c) f) = f (ctrlAt c s) := modCtrl_same ..

theorem ctrlAt_congr {s t : State} (h : t.hce.ctrl = s.hce.ctrl) (c : Nat) : ctrlAt c t = ctrlAt c s := by
  simp only [ctrlAt, h]

theorem find_mapIf_id {α : Type} {l : List α} {g : α → Nat} {f : α → α} (hf : ∀ x, g (f x) = g x) (k : Nat) :
    (mapIf (fun x => g x == k) f l).find? (fun x => g x == k) = (l.find? fun x => g x == k).map f := by
  induction l with
  | nil => rfl
  | cons a l ih =>
    unfold mapIf at *
    rw [List.map_cons, List.find?_cons, List.find?_cons]
    by_cases h : g a = k
    · simp [h, hf]
    · have e : (g a == k) = false := by simpa using h
      simp only [e, Bool.false_eq_true, if_false]
      exact ih

theorem sqs_modSq (c q : Nat) (f : Sq → Sq) (hf : ∀ x, (f x).id = x.id) (s : State) :
    (ctrlAt c (modSq c q f s)).sqs.find? (·.id == q) = ((ctrlAt c s).sqs.find? (·.id == q)).map f := by
  rw [modSq, ctrlAt_modCtrl_idx]; exact find_mapIf_id (g := Sq.id) hf q

theorem cqs_modCq (c q : Nat) (f : Cq → Cq) (hf : ∀ x, (f x).id = x.id) (s : State) :
    (ctrlAt c (modCq c q f s)).cqs.find? (·.id == q) = ((ctrlAt c s).cqs.find? (·.id == q)).map f := by
  rw [modCq, ctrlAt_modCtrl_idx]; exact find_mapIf_id (g := Cq.id) hf q

theorem ctrl_unwindEntry (a : Nat) (s : State) : (unwindEntry a s).hce.ctrl = s.hce.ctrl := by
  unfold unwindEntry; split
  · have e := frame_refreshEnds (s.modPwr fun p => { p with phase := .settled }) (m := 0x18600039AC) (o := _) .refl rfl .hce rfl
    dsimp only
    rw [ev_hce]
    show (refreshEnds _).hce.ctrl = _
    exact congrArg Hce.ctrl e
  · rfl

/-- Finishing a command changes the live commands and the exception queue of HCE, and no more of it. -/
theorem finishDw_hce (tag : Nat) (st : Status) (a b : Nat) (s : State) : ∃ cs k q,
    (finishDw tag st a b s).hce = { s.hce with cmds := cs, ctrl := s.hce.ctrl.set (ctrlIdx k) { ctrlAt k s with excq := q } } := by
  have self : ∀ u : State, u.hce = s.hce → ∃ cs k q,
      u.hce = { s.hce with cmds := cs, ctrl := s.hce.ctrl.set (ctrlIdx k) { ctrlAt k s with excq := q } } := by
    intro u hu
    refine ⟨s.hce.cmds, 0, (ctrlAt 0 s).excq, ?_⟩
    rw [hu]
    have e : s.hce.ctrl.set (ctrlIdx 0) (ctrlAt 0 s) = s.hce.ctrl := by
      ext1 i hi
      simp only [Vector.getElem_set, ctrlAt]
      split
      · next h => subst h; rfl
      · rfl
    show s.hce = { s.hce with ctrl := s.hce.ctrl.set (ctrlIdx 0) (ctrlAt 0 s) }
    rw [e]
  unfold finishDw
  split
  · exact self s rfl
  · next c hc =>
    dsimp only
    have key : ∀ u : State, u.hce = s.hce → ∀ f : Cmd → Cmd, ∃ cs k q,
        ((modCmd tag f u).modCtrl (ctrlIdx c.ctrl) fun x => { x with excq := x.excq.filter (· != tag) }).hce =
          { s.hce with cmds := cs, ctrl := s.hce.ctrl.set (ctrlIdx k) { ctrlAt k s with excq := q } } := by
      intro u hu f
      refine ⟨mapIf (·.tag == tag) f s.hce.cmds, c.ctrl, (ctrlAt c.ctrl s).excq.filter (· != tag), ?_⟩
      simp only [State.modCtrl, modCmd, State.modHce, hu, ctrlAt]
    apply key
    have d : ∀ p : Prop, [Decidable p] → (if p then s.drawn else s).hce = s.hce := by intro p _; split <;> rfl
    split
    · split
      · exact (frame_releaseReader _ _ (m := 0x10000) .refl rfl .hce rfl).trans (d _)
      · exact d _
    · exact d _

/-- Controllers after an update of the exception queue of one. -/
theorem ctrlAt_finishDw (k tag : Nat) (st : Status) (a b : Nat) (s : State) :
    ∃ q, ctrlAt k (finishDw tag st a b s) = { ctrlAt k s with excq := q } := by
  obtain ⟨cs, j, q, h⟩ := finishDw_hce tag st a b s
  have g : ∀ i k : Fin 2, ∀ x : Ctrl, x = { s.hce.ctrl[i] with excq := q } →
      ∃ q', (s.hce.ctrl.set i x)[k] = { s.hce.ctrl[k] with excq := q' } := by
    intro i k x hx
    by_cases e : i = k
    · subst e; exact ⟨q, by simp [hx]⟩
    · refine ⟨s.hce.ctrl[k].excq, ?_⟩
      have : i.val ≠ k.val := fun h => e (Fin.ext h)
      simp [this]
  obtain ⟨q', hq⟩ := g (ctrlIdx j) (ctrlIdx k) _ rfl
  refine ⟨q', ?_⟩
  simp only [ctrlAt, h]
  exact hq

section
variable (tag : Nat) (st : Status) (a b : Nat) (s : State)
@[simp] theorem finishDw_turn : (finishDw tag st a b s).hce.turn = s.hce.turn := by
  obtain ⟨_, _, _, h⟩ := finishDw_hce tag st a b s; rw [h]
@[simp] theorem finish_turn : (finish tag st s).hce.turn = s.hce.turn := finishDw_turn ..
@[simp] theorem finishDw_burst : (finishDw tag st a b s).hce.burst = s.hce.burst := by
  obtain ⟨_, _, _, h⟩ := finishDw_hce tag st a b s; rw [h]
@[simp] theorem finish_burst : (finish tag st s).hce.burst = s.hce.burst := finishDw_burst ..
@[simp] theorem finishDw_pause : (finishDw tag st a b s).hce.pause = s.hce.pause := by
  obtain ⟨_, _, _, h⟩ := finishDw_hce tag st a b s; rw [h]
@[simp] theorem finish_pause : (finish tag st s).hce.pause = s.hce.pause := finishDw_pause ..
@[simp] theorem finishDw_closed : (finishDw tag st a b s).hce.closed = s.hce.closed := by
  obtain ⟨_, _, _, h⟩ := finishDw_hce tag st a b s; rw [h]
@[simp] theorem finish_closed : (finish tag st s).hce.closed = s.hce.closed := finishDw_closed ..
@[simp] theorem finishDw_abDone : (finishDw tag st a b s).hce.abDone = s.hce.abDone := by
  obtain ⟨_, _, _, h⟩ := finishDw_hce tag st a b s; rw [h]
@[simp] theorem finish_abDone : (finish tag st s).hce.abDone = s.hce.abDone := finishDw_abDone ..
@[simp] theorem finishDw_abMatched : (finishDw tag st a b s).hce.abMatched = s.hce.abMatched := by
  obtain ⟨_, _, _, h⟩ := finishDw_hce tag st a b s; rw [h]
@[simp] theorem finish_abMatched : (finish tag st s).hce.abMatched = s.hce.abMatched := finishDw_abMatched ..
@[simp] theorem finishDw_abTag : (finishDw tag st a b s).hce.abTag = s.hce.abTag := by
  obtain ⟨_, _, _, h⟩ := finishDw_hce tag st a b s; rw [h]
@[simp] theorem finish_abTag : (finish tag st s).hce.abTag = s.hce.abTag := finishDw_abTag ..
@[simp] theorem finishDw_ns : (finishDw tag st a b s).hce.ns = s.hce.ns := by
  obtain ⟨_, _, _, h⟩ := finishDw_hce tag st a b s; rw [h]
@[simp] theorem finish_ns : (finish tag st s).hce.ns = s.hce.ns := finishDw_ns ..
@[simp] theorem finishDw_rtl : (finishDw tag st a b s).hce.rtl = s.hce.rtl := by
  obtain ⟨_, _, _, h⟩ := finishDw_hce tag st a b s; rw [h]
@[simp] theorem finish_rtl : (finish tag st s).hce.rtl = s.hce.rtl := finishDw_rtl ..
@[simp] theorem finishDw_dirtyCap : (finishDw tag st a b s).hce.dirtyCap = s.hce.dirtyCap := by
  obtain ⟨_, _, _, h⟩ := finishDw_hce tag st a b s; rw [h]
@[simp] theorem finish_dirtyCap : (finish tag st s).hce.dirtyCap = s.hce.dirtyCap := finishDw_dirtyCap ..
@[simp] theorem finishDw_saved : (finishDw tag st a b s).hce.saved = s.hce.saved := by
  obtain ⟨_, _, _, h⟩ := finishDw_hce tag st a b s; rw [h]
@[simp] theorem finish_saved : (finish tag st s).hce.saved = s.hce.saved := finishDw_saved ..
@[simp] theorem finishDw_fwDl : (finishDw tag st a b s).hce.fwDl = s.hce.fwDl := by
  obtain ⟨_, _, _, h⟩ := finishDw_hce tag st a b s; rw [h]
@[simp] theorem finish_fwDl : (finish tag st s).hce.fwDl = s.hce.fwDl := finishDw_fwDl ..
@[simp] theorem finishDw_fwSlots : (finishDw tag st a b s).hce.fwSlots = s.hce.fwSlots := by
  obtain ⟨_, _, _, h⟩ := finishDw_hce tag st a b s; rw [h]
@[simp] theorem finish_fwSlots : (finish tag st s).hce.fwSlots = s.hce.fwSlots := finishDw_fwSlots ..
@[simp] theorem finishDw_fwActive : (finishDw tag st a b s).hce.fwActive = s.hce.fwActive := by
  obtain ⟨_, _, _, h⟩ := finishDw_hce tag st a b s; rw [h]
@[simp] theorem finish_fwActive : (finish tag st s).hce.fwActive = s.hce.fwActive := finishDw_fwActive ..
@[simp] theorem finishDw_fwNext : (finishDw tag st a b s).hce.fwNext = s.hce.fwNext := by
  obtain ⟨_, _, _, h⟩ := finishDw_hce tag st a b s; rw [h]
@[simp] theorem finish_fwNext : (finish tag st s).hce.fwNext = s.hce.fwNext := finishDw_fwNext ..
@[simp] theorem finishDw_sanStatus : (finishDw tag st a b s).hce.sanStatus = s.hce.sanStatus := by
  obtain ⟨_, _, _, h⟩ := finishDw_hce tag st a b s; rw [h]
@[simp] theorem finish_sanStatus : (finish tag st s).hce.sanStatus = s.hce.sanStatus := finishDw_sanStatus ..
@[simp] theorem finishDw_dst : (finishDw tag st a b s).hce.dst = s.hce.dst := by
  obtain ⟨_, _, _, h⟩ := finishDw_hce tag st a b s; rw [h]
@[simp] theorem finish_dst : (finish tag st s).hce.dst = s.hce.dst := finishDw_dst ..
@[simp] theorem finishDw_miCfg : (finishDw tag st a b s).hce.miCfg = s.hce.miCfg := by
  obtain ⟨_, _, _, h⟩ := finishDw_hce tag st a b s; rw [h]
@[simp] theorem finish_miCfg : (finish tag st s).hce.miCfg = s.hce.miCfg := finishDw_miCfg ..
@[simp] theorem finishDw_vpd : (finishDw tag st a b s).hce.vpd = s.hce.vpd := by
  obtain ⟨_, _, _, h⟩ := finishDw_hce tag st a b s; rw [h]
@[simp] theorem finish_vpd : (finish tag st s).hce.vpd = s.hce.vpd := finishDw_vpd ..
@[simp] theorem finishDw_miResp : (finishDw tag st a b s).hce.miResp = s.hce.miResp := by
  obtain ⟨_, _, _, h⟩ := finishDw_hce tag st a b s; rw [h]
@[simp] theorem finish_miResp : (finish tag st s).hce.miResp = s.hce.miResp := finishDw_miResp ..
@[simp] theorem finishDw_headState : (finishDw tag st a b s).hce.headState = s.hce.headState := by
  obtain ⟨_, _, _, h⟩ := finishDw_hce tag st a b s; rw [h]
@[simp] theorem finish_headState : (finish tag st s).hce.headState = s.hce.headState := finishDw_headState ..
@[simp] theorem finishDw_actState : (finishDw tag st a b s).hce.actState = s.hce.actState := by
  obtain ⟨_, _, _, h⟩ := finishDw_hce tag st a b s; rw [h]
@[simp] theorem finish_actState : (finish tag st s).hce.actState = s.hce.actState := finishDw_actState ..
@[simp] theorem finishDw_lostChan : (finishDw tag st a b s).hce.lostChan = s.hce.lostChan := by
  obtain ⟨_, _, _, h⟩ := finishDw_hce tag st a b s; rw [h]
@[simp] theorem finish_lostChan : (finish tag st s).hce.lostChan = s.hce.lostChan := finishDw_lostChan ..
@[simp] theorem finishDw_ctrl_perst (k : Nat) : (ctrlAt k (finishDw tag st a b s)).perst = (ctrlAt k s).perst := by
  obtain ⟨_, h⟩ := ctrlAt_finishDw k tag st a b s; rw [h]
@[simp] theorem finish_ctrl_perst (k : Nat) : (ctrlAt k (finish tag st s)).perst = (ctrlAt k s).perst := finishDw_ctrl_perst ..
@[simp] theorem finishDw_ctrl_linkUp (k : Nat) : (ctrlAt k (finishDw tag st a b s)).linkUp = (ctrlAt k s).linkUp := by
  obtain ⟨_, h⟩ := ctrlAt_finishDw k tag st a b s; rw [h]
@[simp] theorem finish_ctrl_linkUp (k : Nat) : (ctrlAt k (finish tag st s)).linkUp = (ctrlAt k s).linkUp := finishDw_ctrl_linkUp ..
@[simp] theorem finishDw_ctrl_cfgOpen (k : Nat) : (ctrlAt k (finishDw tag st a b s)).cfgOpen = (ctrlAt k s).cfgOpen := by
  obtain ⟨_, h⟩ := ctrlAt_finishDw k tag st a b s; rw [h]
@[simp] theorem finish_ctrl_cfgOpen (k : Nat) : (ctrlAt k (finish tag st s)).cfgOpen = (ctrlAt k s).cfgOpen := finishDw_ctrl_cfgOpen ..
@[simp] theorem finishDw_ctrl_cfgAtLoaded (k : Nat) : (ctrlAt k (finishDw tag st a b s)).cfgAtLoaded = (ctrlAt k s).cfgAtLoaded := by
  obtain ⟨_, h⟩ := ctrlAt_finishDw k tag st a b s; rw [h]
@[simp] theorem finish_ctrl_cfgAtLoaded (k : Nat) : (ctrlAt k (finish tag st s)).cfgAtLoaded = (ctrlAt k s).cfgAtLoaded := finishDw_ctrl_cfgAtLoaded ..
@[simp] theorem finishDw_ctrl_en (k : Nat) : (ctrlAt k (finishDw tag st a b s)).en = (ctrlAt k s).en := by
  obtain ⟨_, h⟩ := ctrlAt_finishDw k tag st a b s; rw [h]
@[simp] theorem finish_ctrl_en (k : Nat) : (ctrlAt k (finish tag st s)).en = (ctrlAt k s).en := finishDw_ctrl_en ..
@[simp] theorem finishDw_ctrl_wrr (k : Nat) : (ctrlAt k (finishDw tag st a b s)).wrr = (ctrlAt k s).wrr := by
  obtain ⟨_, h⟩ := ctrlAt_finishDw k tag st a b s; rw [h]
@[simp] theorem finish_ctrl_wrr (k : Nat) : (ctrlAt k (finish tag st s)).wrr = (ctrlAt k s).wrr := finishDw_ctrl_wrr ..
@[simp] theorem finishDw_ctrl_rdy (k : Nat) : (ctrlAt k (finishDw tag st a b s)).rdy = (ctrlAt k s).rdy := by
  obtain ⟨_, h⟩ := ctrlAt_finishDw k tag st a b s; rw [h]
@[simp] theorem finish_ctrl_rdy (k : Nat) : (ctrlAt k (finish tag st s)).rdy = (ctrlAt k s).rdy := finishDw_ctrl_rdy ..
@[simp] theorem finishDw_ctrl_rdyHeld (k : Nat) : (ctrlAt k (finishDw tag st a b s)).rdyHeld = (ctrlAt k s).rdyHeld := by
  obtain ⟨_, h⟩ := ctrlAt_finishDw k tag st a b s; rw [h]
@[simp] theorem finish_ctrl_rdyHeld (k : Nat) : (ctrlAt k (finish tag st s)).rdyHeld = (ctrlAt k s).rdyHeld := finishDw_ctrl_rdyHeld ..
@[simp] theorem finishDw_ctrl_nssro (k : Nat) : (ctrlAt k (finishDw tag st a b s)).nssro = (ctrlAt k s).nssro := by
  obtain ⟨_, h⟩ := ctrlAt_finishDw k tag st a b s; rw [h]
@[simp] theorem finish_ctrl_nssro (k : Nat) : (ctrlAt k (finish tag st s)).nssro = (ctrlAt k s).nssro := finishDw_ctrl_nssro ..
@[simp] theorem finishDw_ctrl_sqs (k : Nat) : (ctrlAt k (finishDw tag st a b s)).sqs = (ctrlAt k s).sqs := by
  obtain ⟨_, h⟩ := ctrlAt_finishDw k tag st a b s; rw [h]
@[simp] theorem finish_ctrl_sqs (k : Nat) : (ctrlAt k (finish tag st s)).sqs = (ctrlAt k s).sqs := finishDw_ctrl_sqs ..
@[simp] theorem finishDw_ctrl_cqs (k : Nat) : (ctrlAt k (finishDw tag st a b s)).cqs = (ctrlAt k s).cqs := by
  obtain ⟨_, h⟩ := ctrlAt_finishDw k tag st a b s; rw [h]
@[simp] theorem finish_ctrl_cqs (k : Nat) : (ctrlAt k (finish tag st s)).cqs = (ctrlAt k s).cqs := finishDw_ctrl_cqs ..
@[simp] theorem finishDw_ctrl_nq (k : Nat) : (ctrlAt k (finishDw tag st a b s)).nq = (ctrlAt k s).nq := by
  obtain ⟨_, h⟩ := ctrlAt_finishDw k tag st a b s; rw [h]
@[simp] theorem finish_ctrl_nq (k : Nat) : (ctrlAt k (finish tag st s)).nq = (ctrlAt k s).nq := finishDw_ctrl_nq ..
@[simp] theorem finishDw_ctrl_aers (k : Nat) : (ctrlAt k (finishDw tag st a b s)).aers = (ctrlAt k s).aers := by
  obtain ⟨_, h⟩ := ctrlAt_finishDw k tag st a b s; rw [h]
@[simp] theorem finish_ctrl_aers (k : Nat) : (ctrlAt k (finish tag st s)).aers = (ctrlAt k s).aers := finishDw_ctrl_aers ..
@[simp] theorem finishDw_ctrl_aens (k : Nat) : (ctrlAt k (finishDw tag st a b s)).aens = (ctrlAt k s).aens := by
  obtain ⟨_, h⟩ := ctrlAt_finishDw k tag st a b s; rw [h]
@[simp] theorem finish_ctrl_aens (k : Nat) : (ctrlAt k (finish tag st s)).aens = (ctrlAt k s).aens := finishDw_ctrl_aens ..
@[simp] theorem finishDw_ctrl_aborts (k : Nat) : (ctrlAt k (finishDw tag st a b s)).aborts = (ctrlAt k s).aborts := by
  obtain ⟨_, h⟩ := ctrlAt_finishDw k tag st a b s; rw [h]
@[simp] theorem finish_ctrl_aborts (k : Nat) : (ctrlAt k (finish tag st s)).aborts = (ctrlAt k s).aborts := finishDw_ctrl_aborts ..
@[simp] theorem finishDw_ctrl_kato (k : Nat) : (ctrlAt k (finishDw tag st a b s)).kato = (ctrlAt k s).kato := by
  obtain ⟨_, h⟩ := ctrlAt_finishDw k tag st a b s; rw [h]
@[simp] theorem finish_ctrl_kato (k : Nat) : (ctrlAt k (finish tag st s)).kato = (ctrlAt k s).kato := finishDw_ctrl_kato ..
@[simp] theorem finishDw_ctrl_turn (k : Nat) : (ctrlAt k (finishDw tag st a b s)).turn = (ctrlAt k s).turn := by
  obtain ⟨_, h⟩ := ctrlAt_finishDw k tag st a b s; rw [h]
@[simp] theorem finish_ctrl_turn (k : Nat) : (ctrlAt k (finish tag st s)).turn = (ctrlAt k s).turn := finishDw_ctrl_turn ..
@[simp] theorem finishDw_ctrl_credits (k : Nat) : (ctrlAt k (finishDw tag st a b s)).credits = (ctrlAt k s).credits := by
  obtain ⟨_, h⟩ := ctrlAt_finishDw k tag st a b s; rw [h]
@[simp] theorem finish_ctrl_credits (k : Nat) : (ctrlAt k (finish tag st s)).credits = (ctrlAt k s).credits := finishDw_ctrl_credits ..
@[simp] theorem finishDw_ctrl_critWarn (k : Nat) : (ctrlAt k (finishDw tag st a b s)).critWarn = (ctrlAt k s).critWarn := by
  obtain ⟨_, h⟩ := ctrlAt_finishDw k tag st a b s; rw [h]
@[simp] theorem finish_ctrl_critWarn (k : Nat) : (ctrlAt k (finish tag st s)).critWarn = (ctrlAt k s).critWarn := finishDw_ctrl_critWarn ..
@[simp] theorem finishDw_ctrl_changedZones (k : Nat) : (ctrlAt k (finishDw tag st a b s)).changedZones = (ctrlAt k s).changedZones := by
  obtain ⟨_, h⟩ := ctrlAt_finishDw k tag st a b s; rw [h]
@[simp] theorem finish_ctrl_changedZones (k : Nat) : (ctrlAt k (finish tag st s)).changedZones = (ctrlAt k s).changedZones := finishDw_ctrl_changedZones ..
@[simp] theorem finishDw_ctrl_vwc (k : Nat) : (ctrlAt k (finishDw tag st a b s)).vwc = (ctrlAt k s).vwc := by
  obtain ⟨_, h⟩ := ctrlAt_finishDw k tag st a b s; rw [h]
@[simp] theorem finish_ctrl_vwc (k : Nat) : (ctrlAt k (finish tag st s)).vwc = (ctrlAt k s).vwc := finishDw_ctrl_vwc ..
@[simp] theorem finishDw_ctrl_icThr (k : Nat) : (ctrlAt k (finishDw tag st a b s)).icThr = (ctrlAt k s).icThr := by
  obtain ⟨_, h⟩ := ctrlAt_finishDw k tag st a b s; rw [h]
@[simp] theorem finish_ctrl_icThr (k : Nat) : (ctrlAt k (finish tag st s)).icThr = (ctrlAt k s).icThr := finishDw_ctrl_icThr ..
@[simp] theorem finishDw_ctrl_icTime (k : Nat) : (ctrlAt k (finishDw tag st a b s)).icTime = (ctrlAt k s).icTime := by
  obtain ⟨_, h⟩ := ctrlAt_finishDw k tag st a b s; rw [h]
@[simp] theorem finish_ctrl_icTime (k : Nat) : (ctrlAt k (finish tag st s)).icTime = (ctrlAt k s).icTime := finishDw_ctrl_icTime ..
@[simp] theorem finishDw_ctrl_ab (k : Nat) : (ctrlAt k (finishDw tag st a b s)).ab = (ctrlAt k s).ab := by
  obtain ⟨_, h⟩ := ctrlAt_finishDw k tag st a b s; rw [h]
@[simp] theorem finish_ctrl_ab (k : Nat) : (ctrlAt k (finish tag st s)).ab = (ctrlAt k s).ab := finishDw_ctrl_ab ..
@[simp] theorem finishDw_ctrl_rrl (k : Nat) : (ctrlAt k (finishDw tag st a b s)).rrl = (ctrlAt k s).rrl := by
  obtain ⟨_, h⟩ := ctrlAt_finishDw k tag st a b s; rw [h]
@[simp] theorem finish_ctrl_rrl (k : Nat) : (ctrlAt k (finish tag st s)).rrl = (ctrlAt k s).rrl := finishDw_ctrl_rrl ..
@[simp] theorem finishDw_ctrl_tempOver (k : Nat) : (ctrlAt k (finishDw tag st a b s)).tempOver = (ctrlAt k s).tempOver := by
  obtain ⟨_, h⟩ := ctrlAt_finishDw k tag st a b s; rw [h]
@[simp] theorem finish_ctrl_tempOver (k : Nat) : (ctrlAt k (finish tag st s)).tempOver = (ctrlAt k s).tempOver := finishDw_ctrl_tempOver ..
@[simp] theorem finishDw_ctrl_tempUnder (k : Nat) : (ctrlAt k (finishDw tag st a b s)).tempUnder = (ctrlAt k s).tempUnder := by
  obtain ⟨_, h⟩ := ctrlAt_finishDw k tag st a b s; rw [h]
@[simp] theorem finish_ctrl_tempUnder (k : Nat) : (ctrlAt k (finish tag st s)).tempUnder = (ctrlAt k s).tempUnder := finishDw_ctrl_tempUnder ..
@[simp] theorem finishDw_ctrl_feats (k : Nat) : (ctrlAt k (finishDw tag st a b s)).feats = (ctrlAt k s).feats := by
  obtain ⟨_, h⟩ := ctrlAt_finishDw k tag st a b s; rw [h]
@[simp] theorem finish_ctrl_feats (k : Nat) : (ctrlAt k (finish tag st s)).feats = (ctrlAt k s).feats := finishDw_ctrl_feats ..
@[simp] theorem finishDw_ctrl_lastData (k : Nat) : (ctrlAt k (finishDw tag st a b s)).lastData = (ctrlAt k s).lastData := by
  obtain ⟨_, h⟩ := ctrlAt_finishDw k tag st a b s; rw [h]
@[simp] theorem finish_ctrl_lastData (k : Nat) : (ctrlAt k (finish tag st s)).lastData = (ctrlAt k s).lastData := finishDw_ctrl_lastData ..
theorem finishDw_st_us : (finishDw tag st a b s).us = s.us := frame_finishDw tag st a b s (m := 0x18080) .refl rfl .us rfl
theorem finish_st_us : (finish tag st s).us = s.us := frame_finish tag st s (m := 0x18080) .refl rfl .us rfl
theorem finishDw_st_sys : (finishDw tag st a b s).sys = s.sys := frame_finishDw tag st a b s (m := 0x18080) .refl rfl .sys rfl
theorem finish_st_sys : (finish tag st s).sys = s.sys := frame_finish tag st s (m := 0x18080) .refl rfl .sys rfl
theorem finishDw_st_pwr : (finishDw tag st a b s).pwr = s.pwr := frame_finishDw tag st a b s (m := 0x18080) .refl rfl .pwr rfl
theorem finish_st_pwr : (finish tag st s).pwr = s.pwr := frame_finish tag st s (m := 0x18080) .refl rfl .pwr rfl
theorem finishDw_st_cal : (finishDw tag st a b s).cal = s.cal := frame_finishDw tag st a b s (m := 0x18080) .refl rfl .cal rfl
theorem finish_st_cal : (finish tag st s).cal = s.cal := frame_finish tag st s (m := 0x18080) .refl rfl .cal rfl
theorem finishDw_st_sec : (finishDw tag st a b s).sec = s.sec := frame_finishDw tag st a b s (m := 0x18080) .refl rfl .sec rfl
theorem finish_st_sec : (finish tag st s).sec = s.sec := frame_finish tag st s (m := 0x18080) .refl rfl .sec rfl
theorem finishDw_st_vlk : (finishDw tag st a b s).vlk = s.vlk := frame_finishDw tag st a b s (m := 0x18080) .refl rfl .vlk rfl
theorem finish_st_vlk : (finish tag st s).vlk = s.vlk := frame_finish tag st s (m := 0x18080) .refl rfl .vlk rfl
theorem finishDw_st_regs : (finishDw tag st a b s).regs = s.regs := frame_finishDw tag st a b s (m := 0x18080) .refl rfl .regs rfl
theorem finish_st_regs : (finish tag st s).regs = s.regs := frame_finish tag st s (m := 0x18080) .refl rfl .regs rfl
theorem finishDw_st_xmt : (finishDw tag st a b s).xmt = s.xmt := frame_finishDw tag st a b s (m := 0x18080) .refl rfl .xmt rfl
theorem finish_st_xmt : (finish tag st s).xmt = s.xmt := frame_finish tag st s (m := 0x18080) .refl rfl .xmt rfl
theorem finishDw_st_rvr : (finishDw tag st a b s).rvr = s.rvr := frame_finishDw tag st a b s (m := 0x18080) .refl rfl .rvr rfl
theorem finish_st_rvr : (finish tag st s).rvr = s.rvr := frame_finish tag st s (m := 0x18080) .refl rfl .rvr rfl
theorem finishDw_st_llt : (finishDw tag st a b s).llt = s.llt := frame_finishDw tag st a b s (m := 0x18080) .refl rfl .llt rfl
theorem finish_st_llt : (finish tag st s).llt = s.llt := frame_finish tag st s (m := 0x18080) .refl rfl .llt rfl
theorem finishDw_st_spn : (finishDw tag st a b s).spn = s.spn := frame_finishDw tag st a b s (m := 0x18080) .refl rfl .spn rfl
theorem finish_st_spn : (finish tag st s).spn = s.spn := frame_finish tag st s (m := 0x18080) .refl rfl .spn rfl
theorem finishDw_st_evr : (finishDw tag st a b s).evr = s.evr := frame_finishDw tag st a b s (m := 0x18080) .refl rfl .evr rfl
theorem finish_st_evr : (finish tag st s).evr = s.evr := frame_finish tag st s (m := 0x18080) .refl rfl .evr rfl
theorem finishDw_st_lif : (finishDw tag st a b s).lif = s.lif := frame_finishDw tag st a b s (m := 0x18080) .refl rfl .lif rfl
theorem finish_st_lif : (finish tag st s).lif = s.lif := frame_finish tag st s (m := 0x18080) .refl rfl .lif rfl
end

theorem withCmd_ready {tag : Nat} {op : NvmeOp} {ops : NvmeOp → Bool} {f : Cmd → State → State} {c : Cmd} {s : State}
    (h : Ready op tag c s) (ho : ops op = true) : withCmd tag ops f s = .next (f c s) := by
  obtain ⟨h1, h2, h3, h4⟩ := h
  simp [withCmd, h1, h2, h3, h4, ho]

theorem Ready.tag {op : NvmeOp} {tag : Nat} {c : Cmd} {s : State} (h : Ready op tag c s) : c.tag = tag := cmdAt_tag h.1

theorem Ready.live {op : NvmeOp} {tag : Nat} {c : Cmd} {s : State} (h : Ready op tag c s) : (cmdAt c.tag s).isSome = true := by
  rw [h.tag, h.1]; rfl

/-- A state in which the live commands are the same has the command finished. -/
theorem Ready.done {op : NvmeOp} {tag : Nat} {c : Cmd} {s u : State} (h : Ready op tag c s) (e : u.hce.cmds = s.hce.cmds)
    (st : Status) (a b : Nat) : Done tag st (finishDw c.tag st a b u) := by
  rw [h.tag]; exact done_finishDw (by rw [cmdAt_congr e, h.1]; rfl)

@[simp] theorem ctrlAt_setCtrl (c : Cmd) (f : Ctrl → Ctrl) (s : State) : ctrlAt c.ctrl (setCtrl c f s) = f (ctrlAt c.ctrl s) :=
  ctrlAt_modCtrl_idx ..

@[simp] theorem ctrlAt_saveFeature (c : Cmd) (k v : Nat) (s : State) : ctrlAt k (saveFeature c v s) = ctrlAt k s := by
  unfold saveFeature; split <;> rfl

@[simp] theorem ctrlAt_setFld (k : Nat) (r : Reg) (n j hi lo v : Nat) (s : State) :
    ctrlAt k (setFld r n j hi lo v s) = ctrlAt k s := rfl

theorem saveFeature_cmds (c : Cmd) (v : Nat) (s : State) : (saveFeature c v s).hce.cmds = s.hce.cmds := by
  unfold saveFeature; split <;> rfl

theorem saveFeature_rtl (c : Cmd) (v : Nat) (s : State) : (saveFeature c v s).hce.rtl = s.hce.rtl := by
  unfold saveFeature; split <;> rfl

@[simp] theorem ctrlAt_modCmd (k tag : Nat) (f : Cmd → Cmd) (s : State) : ctrlAt k (modCmd tag f s) = ctrlAt k s := rfl

end Sys2Proof.Machine
end

