-- ==== Sys2Proof/Laws/Engines.lean ====
section
/-!
SUPPORT. The sequencers, the channel units and the optical pickups: what their operations leave of a named field.
-/

set_option Elab.async false
set_option linter.all false

namespace Sys2Proof.Machine

theorem asq_modAsq (n : Fin 4) (f : Asq → Asq) (s : State) : (s.modAsq n f).asq[n] = f s.asq[n] := by
  simp [State.modAsq, vmod]

theorem asqRuns_avalid {a : Asq} (h : asqRuns a = true) : a.avalid = true := by
  unfold asqRuns at h; simp at h; exact h.1

theorem boundary_quiet {n : Fin 4} {s : State} (h1 : s.asq[n].reqAbort = false) (h2 : s.asq[n].reqDeadline = false)
    (h3 : s.asq[n].reqFault = false) : boundary n s = s := by
  unfold boundary
  split
  · rfl
  · unfold sampleBoundary sampled
    rw [h1, h2, h3]
    cases s.asq[n].phase <;> rfl

theorem cntop_asq (n : Fin 4) (s : State) : ∃ a b, (cntop n s).asq[n] = { s.asq[n] with cnt0 := a, cnt1 := b } := by
  unfold cntop
  dsimp only
  split <;> first
    | exact ⟨_, _, by rw [asq_modAsq]; try rfl⟩
    | exact ⟨_, _, by rw [asq_modAsq]; try rfl⟩
    | exact ⟨_, _, rfl⟩

theorem complete_asq {n : Fin 4} {next : Nat} {s : State} (h1 : s.asq[n].reqAbort = false) (h2 : s.asq[n].reqDeadline = false)
    (h3 : s.asq[n].reqFault = false) : ∃ a b, (complete n next s).asq[n] =
      { s.asq[n] with cnt0 := a, cnt1 := b, pc := next % 2 ^ 16, issued := false, waitDone := false } := by
  obtain ⟨a, b, e⟩ := cntop_asq n s
  refine ⟨a, b, ?_⟩
  unfold complete
  rw [boundary_quiet]
  · rw [asq_modAsq, e]
  all_goals (rw [asq_modAsq, e]; assumption)

theorem waited_asq (n : Fin 4) (s : State) : (waited n s).asq = s.asq := by
  unfold waited; split
  · exact frame_advanceTo _ _ (m := 0x7800000B12) .refl rfl .asq rfl
  · rfl

theorem seqStep_ready {k : Nat} {n : Fin 4} {s : State} {f : State → State} (h : SeqReady k n s) :
    seqStep n k f s = f (waited n s) := by
  obtain ⟨a, b, c, d, e, -⟩ := h
  have q : (asqLive n s && asqRuns s.asq[n] && s.asq[n].issued && mwSeq s.asq[n].word == k && waitSat n s) = true := by
    rw [a, b, c, d, e]; simp
  unfold seqStep waited
  dsimp only
  rw [if_pos q]

theorem SeqReady.quiet {k n s} (h : SeqReady k n s) : (waited n s).asq[n].reqAbort = false ∧ (waited n s).asq[n].reqDeadline = false ∧ (waited n s).asq[n].reqFault = false ∧ (waited n s).asq[n].avalid = true := by
  rw [waited_asq]; exact ⟨h.2.2.2.2.2.1, h.2.2.2.2.2.2.1, h.2.2.2.2.2.2.2, asqRuns_avalid h.2.1⟩

theorem nextAt_complete {n : Fin 4} {next : Nat} {s : State} (h : s.asq[n].reqAbort = false ∧ s.asq[n].reqDeadline = false ∧
     s.asq[n].reqFault = false ∧ s.asq[n].avalid = true) : NextAt n (next % 2 ^ 16) (complete n next s) := by
  obtain ⟨a, b, e⟩ := complete_asq (next := next) h.1 h.2.1 h.2.2.1
  unfold NextAt; rw [e]; exact ⟨rfl, rfl, h.2.2.2⟩
end Sys2Proof.Machine

namespace Sys2Proof.Machine

theorem mwTarget_lt (w : Nat) : mwTarget w % 2 ^ 16 = mwTarget w := by
  unfold mwTarget bits
  show _ % 2 ^ 16 % 2 ^ 16 = _ % 2 ^ 16
  rw [Nat.mod_mod]

theorem nextAt_transfer {n : Fin 4} {u : State} {w : Asq} (hw : u.asq[n] = w) (h : u.asq[n].reqAbort = false ∧ u.asq[n].reqDeadline = false ∧
     u.asq[n].reqFault = false ∧ u.asq[n].avalid = true) (h1 : w.openX = false ∨ inOpen (mwTarget w.word) = true) :
    NextAt n (mwTarget w.word) (transfer n (mwTarget u.asq[n].word) false u) := by
  have e := nextAt_complete (next := mwTarget w.word) h
  rw [mwTarget_lt] at e
  unfold transfer
  rw [hw, if_neg]
  · exact e
  · rcases h1 with k | k <;> simp [k]

theorem condDrawn_asq (c : Nat) (s : State) : (condDrawn c s).asq = s.asq := by unfold condDrawn; split <;> rfl

theorem nextAt_fall {n : Fin 4} {u : State} (h : u.asq[n].reqAbort = false ∧ u.asq[n].reqDeadline = false ∧
    u.asq[n].reqFault = false ∧ u.asq[n].avalid = true) (h1 : u.asq[n].pc ≠ 0x7FFF) :
    NextAt n ((u.asq[n].pc + 1) % 2 ^ 16) (fallThrough n u) := by
  unfold fallThrough
  simp only [h1, decide_false, Bool.false_and, Bool.false_eq_true, if_false]
  exact nextAt_complete h

theorem nextAt_branch {b : Bool} {k : Nat} {n : Fin 4} {s : State} (h : SeqReady k n s) (h1 : s.asq[n].openX = false)
    (h2 : s.asq[n].pc ≠ 0x7FFF) :
    NextAt n (if condition n (mwCond s.asq[n].word) (mwParam s.asq[n].word) (waited n s) = b then mwTarget s.asq[n].word
       else (s.asq[n].pc + 1) % 2 ^ 16) (seqBranch n b (waited n s)) := by
  have q := h.quiet
  have hu := waited_asq n s
  generalize waited n s = u at *
  unfold seqBranch testCond
  dsimp only
  rw [← hu] at h1 h2 ⊢
  have k2 := condDrawn_asq (mwCond u.asq[n].word) u
  by_cases hc : condition n (mwCond u.asq[n].word) (mwParam u.asq[n].word) u = b
  · rw [if_pos hc, if_pos hc]
    exact nextAt_transfer (by rw [k2]) (by rw [k2]; exact q) (.inl h1)
  · rw [if_neg hc, if_neg hc]
    have e := nextAt_fall (u := condDrawn (mwCond u.asq[n].word) u) (by rw [k2]; exact q) (by rw [k2]; exact h2)
    rw [k2] at e; exact e

theorem stack_complete {n : Fin 4} {next : Nat} {s : State} (h : s.asq[n].reqAbort = false ∧ s.asq[n].reqDeadline = false ∧
     s.asq[n].reqFault = false ∧ s.asq[n].avalid = true) : (complete n next s).asq[n].stack = s.asq[n].stack := by
  obtain ⟨a, b, e⟩ := complete_asq (next := next) h.1 h.2.1 h.2.2.1
  rw [e]

theorem cnt0_complete {n : Fin 4} {next : Nat} {s : State} (h : s.asq[n].reqAbort = false ∧ s.asq[n].reqDeadline = false ∧
     s.asq[n].reqFault = false ∧ s.asq[n].avalid = true) (h1 : mwCntop s.asq[n].word = 0) : (complete n next s).asq[n].cnt0 = s.asq[n].cnt0 := by
  have e : cntop n s = s := by unfold cntop; dsimp only; rw [h1]; rfl
  unfold complete
  rw [e, boundary_quiet, asq_modAsq]
  · rw [asq_modAsq]; exact h.1
  · rw [asq_modAsq]; exact h.2.1
  · rw [asq_modAsq]; exact h.2.2.1

theorem adaptRun_asq (n : Fin 4) (s : State) : (adaptRun n s).asq = s.asq := frame_adaptRun _ _ (m := 0x200080) .refl rfl .asq rfl

theorem levelsFall_asq (n : Fin 4) (s : State) : (levelsFall n s).asq[n] = { s.asq[n] with levels := 0 } := by
  have k : ∀ u v : State, u.asq = v.asq → u.asq[n] = v.asq[n] := fun _ _ h => by rw [h]
  have kp : ∀ b u, (preampMode n b u).asq = u.asq := fun _ _ => frame_preampMode _ _ _ (m := 0x4000000) .refl rfl .asq rfl
  have kh : ∀ u, (preheatFall n u).asq = u.asq := fun _ => frame_preheatFall _ _ (m := 0xC000000) .refl rfl .asq rfl
  refine (k _ (s.modAsq n fun a => { a with levels := 0 }) ?_).trans (asq_modAsq n _ s)
  unfold levelsFall
  dsimp only
  split <;> split <;> split <;> simp only [kp, kh, State.modRwc, State.modAsq, adaptRun_asq]

theorem postResult_asq (n : Fin 4) (r : AsqResult) (s : State) :
    (postResult n r s).asq[n] = { s.asq[n] with results := s.asq[n].results ++ [r] } := by
  unfold postResult asqLine
  rw [raiseLine_asq, asq_modAsq]

theorem ends_asq (n : Fin 4) (st : Nat) (s : State) : (unloadEnds n st (endLeave n s)).asq = s.asq :=
  frame_unloadEnds _ _ _ (m := 0x1006000) (frame_endLeave _ _ .refl rfl) rfl .asq rfl

theorem asqLine_asq (n : Fin 4) (k : Nat) (s : State) : (asqLine n k s).asq = s.asq := by
  unfold asqLine; rw [raiseLine_asq]

theorem ite_line (b : Bool) (n : Fin 4) (s : State) : (if b = true then asqLine n 6 s else s).asq = s.asq := by
  split
  · rw [asqLine_asq]
  · rfl

theorem ite_ev (p : Prop) [Decidable p] (b : Blk) (c x y z : Nat) (s : State) : (if p then ev b c x y z s else s).asq = s.asq := by
  split
  · rw [ev_asq]
  · rfl

theorem saved_asq (n : Fin 4) (s : State) : (adaptSave n (levelsFall n s)).asq[n] = { s.asq[n] with levels := 0 } := by
  have k : ∀ u v : State, u.asq = v.asq → u.asq[n] = v.asq[n] := fun _ _ h => by rw [h]
  exact (k _ _ (frame_adaptSave _ _ (m := 0x18600031A0) .refl rfl .asq rfl)).trans (levelsFall_asq n s)

theorem taskEnd_asq (n : Fin 4) (st c : Nat) (ph : AsqPhase) (s : State) : (taskEnd n st c ph s).asq[n].avalid = false ∧
    (taskEnd n st c ph s).asq[n].phase = ph ∧ ∃ r, (taskEnd n st c ph s).asq[n].results = s.asq[n].results ++ [r] ∧
      r.status = st ∧ r.endpc = s.asq[n].pc ∧ r.cause = c := by
  have k : ∀ u v : State, u.asq = v.asq → u.asq[n] = v.asq[n] := fun _ _ h => by rw [h]
  have kh : ∀ x y z u, (healthAdd x y z u).asq = u.asq := fun x y z u => frame_healthAdd x y z u (m := 0x8000) .refl rfl .asq rfl
  have kt : ∀ x u, (tagDone x u).asq = u.asq := fun x u => frame_tagDone x u (m := 0x8000) .refl rfl .asq rfl
  have ki : ∀ (p : Prop) [Decidable p] (v u : State), v.asq = u.asq → (if p then v else u).asq = u.asq := fun p _ v u h => by
    split
    · exact h
    · rfl
  unfold taskEnd
  extract_lets a r s1 s2 s3 s4 s5 s6 s7
  have e1 : s5.asq[n] = { s.asq[n] with levels := 0 } := by
    refine (k _ _ ?_).trans (saved_asq n s)
    exact (ki _ _ _ (kh _ _ _ _)).trans ((ki _ _ _ (kh _ _ _ _)).trans ((ite_ev _ _ _ _ _ _ _).trans (ite_ev _ _ _ _ _ _ _)))
  have e2 : s6.asq[n] = { (clearActive n ph (unloadEnds n st (endLeave n s5))).asq[n] with } := rfl
  have e3 : s6.asq[n].results = s.asq[n].results := by
    unfold s6 clearActive; rw [asq_modAsq, ends_asq, e1]
  have e4 : s6.asq[n].avalid = false ∧ s6.asq[n].phase = ph := by
    unfold s6 clearActive; rw [asq_modAsq]; exact ⟨rfl, rfl⟩
  have e5 : s7.asq[n] = { s6.asq[n] with results := s6.asq[n].results ++ [r] } :=
    (k _ _ (kt _ _)).trans (postResult_asq n r _)
  have e6 := (k _ _ (ite_line s7.asq[n].actHold n s7)).trans e5
  rw [e6]
  exact ⟨e4.1, e4.2, r, by rw [← e3], rfl, rfl, rfl⟩

theorem mcFault_asq (n : Fin 4) (c : Nat) (s : State) : (mcFault n c s).asq[n].avalid = false ∧
    (mcFault n c s).asq[n].phase = .halted := by
  unfold mcFault
  dsimp only
  rw [asqLine_asq]
  exact ⟨(taskEnd_asq ..).1, (taskEnd_asq ..).2.1⟩
end Sys2Proof.Machine
namespace Sys2Proof.Machine

theorem bits_testBit {w hi lo k : Nat} (h : bits w hi lo = 0) (h1 : lo ≤ k) (h2 : k ≤ hi) : w.testBit k = false := by
  have e : (bits w hi lo).testBit (k - lo) = false := by rw [h]; exact Nat.zero_testBit _
  unfold bits at e
  rw [Nat.testBit_mod_two_pow, Nat.testBit_shiftRight] at e
  rw [show lo + (k - lo) = k by omega] at e
  simpa [show k - lo < hi + 1 - lo by omega] using e

theorem pulses_none {n : Fin 4} {d : Nat} {s : State} (h : bits d 23 8 = 0) : pulses n d s = s := by
  have k : ∀ i, 8 ≤ i → i ≤ 23 → d.testBit i = false := fun i a b => bits_testBit h a b
  unfold pulses
  simp [k]

theorem takeLevels_same (n : Fin 4) (s : State) :
    takeLevels n s.asq[n].levels s = (gatesFollow n (s.modAsq n fun a => { a with levels := s.asq[n].levels }), none) := by
  unfold takeLevels
  simp

theorem takePreheat_same (n : Fin 4) (v : Nat) (s : State) : takePreheat n v v s = s := by
  unfold takePreheat
  simp

theorem issueWord_quiet {n : Fin 4} {a w : Nat} {s : State} (h8 : bits (mwDpc w) 23 8 = 0) (h9 : dpcUnitgo (mwDpc w) = false)
    (h10 : bits (mwDpc w) 31 24 = s.asq[n].levels) : (issueWord n a w s).asq[n].issued = true ∧ (issueWord n a w s).asq[n].word = w ∧
      (issueWord n a w s).asq[n].pc = a ∧ (issueWord n a w s).asq[n].issueAt = s.us ∧ (issueWord n a w s).asq[n].levels = s.asq[n].levels := by
  unfold issueWord
  extract_lets dpc old goes s1
  have k1 : s1.asq[n].levels = s.asq[n].levels ∧ s1.asq[n].issued = true ∧ s1.asq[n].word = w ∧ s1.asq[n].pc = a ∧ s1.asq[n].issueAt = s.us := by
    unfold s1; rw [asq_modAsq]; exact ⟨rfl, rfl, rfl, rfl, rfl⟩
  have k2 : takeLevels n (bits dpc 31 24) s1 = (gatesFollow n (s1.modAsq n fun x => { x with levels := s1.asq[n].levels }), none) := by
    unfold dpc; rw [h10, ← k1.1]; exact takeLevels_same n s1
  rw [k2]
  dsimp only
  rw [show dpc = mwDpc w from rfl, h9, if_neg Bool.false_ne_true, h10, show old = s.asq[n].levels from rfl, takePreheat_same, pulses_none h8]
  have k3 : (gatesFollow n (s1.modAsq n fun x => { x with levels := s1.asq[n].levels })).asq[n] = { s1.asq[n] with levels := s1.asq[n].levels } := by
    have k : ∀ u v : State, u.asq = v.asq → u.asq[n] = v.asq[n] := fun _ _ h => by rw [h]
    exact (k _ _ (frame_gatesFollow _ _ (m := 0x200000) .refl rfl .asq rfl)).trans (asq_modAsq ..)
  generalize gatesFollow n _ = v at *
  split
  · rw [asq_modAsq, k3]; exact ⟨k1.2.1, k1.2.2.1, k1.2.2.2.1, k1.2.2.2.2, k1.1⟩
  · rw [k3]; exact ⟨k1.2.1, k1.2.2.1, k1.2.2.2.1, k1.2.2.2.2, k1.1⟩
end Sys2Proof.Machine
namespace Sys2Proof.Machine

theorem rwc_modRwc (n : Fin 4) (f : Rwc → Rwc) (s : State) : (s.modRwc n f).rwc[n] = f s.rwc[n] := by
  simp [State.modRwc]

theorem rwc_of {u v : State} (n : Fin 4) (h : u.rwc = v.rwc) : u.rwc[n] = v.rwc[n] := by rw [h]

theorem asq_of {u v : State} (n : Fin 4) (h : u.asq = v.asq) : u.asq[n] = v.asq[n] := by rw [h]

theorem rwcBump_rwc (n : Fin 4) (k a : Nat) (s : State) : ∃ c w, (rwcBump n k a s).rwc[n] = { s.rwc[n] with cnt := c, wrap := w } := by
  unfold rwcBump
  dsimp only
  split
  · exact ⟨_, _, (rwc_of n (raiseLine_rwc ..)).trans (rwc_modRwc ..)⟩
  · exact ⟨_, _, rwc_modRwc ..⟩

theorem hsmaBump_rwc (n : Fin 4) (h : Nat) (s : State) : ∃ c, (hsmaBump n h s).rwc[n] = { s.rwc[n] with hsma := c } := by
  unfold hsmaBump rwcLine
  dsimp only
  split
  · exact ⟨_, rfl⟩
  · split
    · exact ⟨_, (rwc_of n (raiseLine_rwc ..)).trans (rwc_modRwc ..)⟩
    · exact ⟨_, rwc_modRwc ..⟩

theorem rwcLine_rwc (n k : Nat) (s : State) : (rwcLine n k s).rwc = s.rwc := by unfold rwcLine; rw [raiseLine_rwc]

theorem orbit31 (v : Nat) : (v ||| 2 ^ 31).testBit 31 = true := by
  rw [Nat.testBit_or, show Nat.testBit (2 ^ 31) 31 = true from rfl, Bool.or_true]

theorem orbit0 (v : Nat) : (v ||| 1).testBit 0 = true := by rw [Nat.testBit_or]; simp

theorem mbox {cmd : Nat} {k : State → State} {s : State} (h : secRuns s = true) (h1 : s.sec.mbDone = true) :
    mailbox cmd k s = .next (k (setFld .mbcmd 0 0 23 16 cmd (s.modSec fun c => { c with mbDone := false, mbBusy := some cmd }))) := by
  unfold mailbox; rw [h, h1]; rfl

theorem answer_sec (a b c : Nat) (s : State) : (answer a b c s).sec = { s.sec with mbDone := true, mbRes := b, mbLen := c % 2 ^ 20, mbBusy := none } := by
  unfold answer; dsimp only [State.modSec]
  split
  · rfl
  · rw [ev_sec]

theorem holdAll (l : List (Fin 4)) (b : Bool) (k : State → Fin 4 → State → State) (hk : ∀ u n v, (k u n v).asq = v.asq) (u : State) (x : Fin 4)
   (hx : x ∈ l ∨ u.asq[x].actHold = b) :
    (l.foldl (fun s n => k s n (s.modAsq n fun a => { a with actHold := b })) u).asq[x].actHold = b := by
  induction l generalizing u with
  | nil => simpa using hx
  | cons y l ih =>
    rw [List.foldl_cons]
    apply ih
    by_cases e : x = y
    · right; rw [hk, e, asq_modAsq]
    · rcases hx with hx | hx
      · left; simpa [e] using hx
      · right
        rw [hk]
        simp only [State.modAsq]
        rw [← hx]
        have : (y : Nat) ≠ x := fun h => e (Fin.ext h.symm)
        simp [Vector.getElem_set, this]
end Sys2Proof.Machine
namespace Sys2Proof.Machine

theorem armCst_fold (l : List (Fin 4)) (u : State) :
    (l.foldl (fun s n => let s := s.modAsq n fun a => { a with actHold := true }; if s.asq[n].avalid then s else asqLine n 6 s) u).cst = u.cst := by
  induction l generalizing u with
  | nil => rfl
  | cons y l ih =>
    rw [List.foldl_cons, ih]
    dsimp only
    split <;> rfl

theorem armCst_all {m : Master} {s : State} {i : McImage} (h : s.cst.staged = some i) (h1 : ¬ (s.cst.act = .armed ∨ s.cst.act = .copying)) :
    (armCst m s).cst.act = .armed ∧ (armCst m s).cst.armAt = now s ∧ ∀ n ∈ channels s, (armCst m s).asq[n].actHold = true := by
  unfold armCst
  rw [h]
  dsimp only
  rw [if_neg h1]
  refine ⟨?_, ?_, ?_⟩
  · rw [armCst_fold]
  · rw [armCst_fold]
  · intro n hn
    exact holdAll _ true (fun u n v => if (u.modAsq n fun a => { a with actHold := true }).asq[n].avalid then v else asqLine n 6 v)
      (by intro u n v; split; rfl; exact asqLine_asq ..) _ _ (.inl hn)

theorem armCst_armed {m : Master} {s : State} {i : McImage} (h : s.cst.staged = some i) (h1 : ¬ (s.cst.act = .armed ∨ s.cst.act = .copying)) :
    (armCst m s).cst.act = .armed ∧ (armCst m s).cst.staged.isSome = true := by
  refine ⟨(armCst_all h h1).1, ?_⟩
  unfold armCst
  rw [h]
  dsimp only
  rw [if_neg h1, armCst_fold]
  rw [h]; rfl

theorem fail_of {v w : Vector Bool 4} (i : Fin 4) (h : v = w) : v[i] = w[i] := by rw [h]

theorem finish_good {c : Codeword} {r : DecodeRes} {s : State} (h3 : c.frame = none) (h4 : c.recov = false) (h6 : r.crcOk = true) (h7 : tagGood c r = true)
    (h8 : tornSector c s = false) : (finishCodeword c true r s).ldp.lastFail[finCh c.ch] = false ∧ (finishCodeword c true r s).ldp.waiting = s.ldp.waiting := by
  unfold finishCodeword
  rw [h3]
  dsimp only
  rw [h6, h7, h4, h8]
  simp only [Bool.not_false, Bool.and_self, Bool.not_true, Bool.and_false, Bool.false_and, if_false, Bool.false_eq_true, Bool.true_or, Bool.or_false, if_true]
  have k := fun u (hu : KeepFail u u) => KeepFail_ladderResult c true r _ (KeepFail_decodeGood c u hu)
  have k0 := k (setLastFail c false s) .refl
  have e : (setLastFail c false s).ldp = { s.ldp with lastFail := s.ldp.lastFail.set (finCh c.ch) false } := by
    unfold setLastFail; rw [h4]; rfl
  refine ⟨(fail_of _ (k0.1.trans (by rw [e]))).trans ?_, k0.2.trans (by rw [e])⟩
  simp
end Sys2Proof.Machine
namespace Sys2Proof.Machine

theorem markFail_rwc (n : Fin 4) (s : State) : (markFail n s).rwc = s.rwc := rfl
end Sys2Proof.Machine
namespace Sys2Proof.Machine

theorem sve_of {u v : State} (n : Fin 5) (h : u.sve = v.sve) : u.sve[n] = v.sve[n] := by rw [h]

theorem sve_modSve (n : Fin 5) (f : Sve → Sve) (s : State) : (s.modSve n f).sve[n] = f s.sve[n] := by
  simp [State.modSve]

theorem sveLine_sve (n k : Nat) (s : State) : (sveLine n k s).sve = s.sve := by unfold sveLine; rw [raiseLine_sve]

theorem sveBump_sve (n : Fin 5) (k a : Nat) (s : State) : ∃ c w, (sveBump n k a s).sve[n] = { s.sve[n] with cnt := c, wrap := w } := by
  unfold sveBump
  dsimp only
  split
  · exact ⟨_, _, (sve_of n (sveLine_sve ..)).trans (sve_modSve ..)⟩
  · exact ⟨_, _, sve_modSve ..⟩

theorem traceTake_sve (n : Fin 5) (s : State) : ∃ a b c d, (traceTake n s).sve[n] = { s.sve[n] with trTrig := a, trIdx := b, trLeft := c, trRun := d } := by
  unfold traceTake
  dsimp only
  split
  · split
    · exact ⟨_, _, _, _, (sve_of n (sveLine_sve ..)).trans (sve_modSve ..)⟩
    · exact ⟨_, _, _, _, sve_modSve ..⟩
  · exact ⟨_, _, _, _, rfl⟩

theorem traceTrigger_sve (n : Fin 5) (k : Nat) (s : State) : ∃ a b c d, (traceTrigger n k s).sve[n] = { s.sve[n] with trTrig := a, trIdx := b, trLeft := c, trRun := d } := by
  unfold traceTrigger
  split
  · exact traceTake_sve n s
  · exact ⟨_, _, _, _, rfl⟩

theorem waitComes_sve (n : Fin 4) (c : Nat) (s : State) : (waitComes n c s).sve = s.sve := rfl

theorem seekEnd_sve (n : Fin 4) (ok : Bool) (r : Nat) (s : State) : (seekEnd n ok r s).sve[sveOf n] = { s.sve[sveOf n] with seeking := false, seekPend := false, seekOk := ok } := by
  unfold seekEnd
  dsimp only
  rw [sve_of _ (sveLine_sve ..), sve_of _ (waitComes_sve ..)]
  split
  · exact sve_modSve ..
  · exact (sve_of _ (ev_sve ..)).trans (sve_modSve ..)

theorem abandonMoves_sve (n : Fin 4) (r : Nat) (s : State) : ∃ a b c d, (abandonMoves n r s).sve[sveOf n] = { s.sve[sveOf n] with seeking := a, seekPend := b, seekOk := c, move := d } := by
  unfold abandonMoves moveEnd
  dsimp only
  split
  · rw [Bool.and_false, if_neg Bool.false_ne_true, seekEnd_sve]
    refine ⟨false, false, false, .none, ?_⟩
    have : ∀ (b : Bool) (u : State), (if b = true then optSeekIdle n u else u).sve = u.sve := by intro b u; split <;> rfl
    rw [sve_of _ (this _ _), sve_modSve]
  · split
    · exact ⟨_, _, _, _, (seekEnd_sve ..).trans rfl⟩
    · exact ⟨_, _, _, _, rfl⟩

theorem servoDecide_sve (n : Fin 4) (k : Nat) (s : State) : ∃ e f a b c d, (servoDecide n k s).sve[sveOf n] = { s.sve[sveOf n] with cnt := e, wrap := f, trTrig := a, trIdx := b, trLeft := c, trRun := d } := by
  unfold servoDecide
  dsimp only
  have h0 := fun u => sve_of (sveOf n) (frame_faultDecision n 0x0601 u (m := 0x1A0CB22180) .refl rfl .sve rfl)
  have hh : ∀ (p : Prop) [Decidable p] (u : State), (if p then healthAdd .plausibility n 1 u else u).sve = u.sve := by
    intro p _ u
    split
    · exact frame_healthAdd _ _ _ _ (m := 0x8000) .refl rfl .sve rfl
    · rfl
  generalize hv : (if k.testBit 0 = true then _ else _ : State) = v
  obtain ⟨a, b, c, d, h1⟩ := traceTrigger_sve (sveOf n) 25 v
  obtain ⟨e, f, h2⟩ := sveBump_sve (sveOf n) 2 1 (ev .sve 0x0601 n k s.sve[sveOf n].wedge s)
  refine ⟨e, f, a, b, c, d, ?_⟩
  rw [h0, h1, ← hv, sve_of _ (hh _ _), sve_of _ (sveLine_sve ..), h2, sve_of _ (ev_sve ..)]

theorem dlop_bits : ∀ op : Fin 4, ∀ h : Fin 64, (2 ^ 31 + op.val <<< 28 + h.val).testBit 31 = true ∧ bits (2 ^ 31 + op.val <<< 28 + h.val) 5 0 = h.val ∧
      bits (2 ^ 31 + op.val <<< 28 + h.val) 30 28 = op.val := by decide

theorem writeDlop_at {w op h : Nat} {s : State} (hw : w.testBit 31 = true ∧ bits w 5 0 = h ∧ bits w 30 28 = op) (h1 : 1 ≤ op) (h2 : op ≤ 3) (h3 : s.tpe.dlBusy = false) :
    writeDlop w s = (if op = 1 then dlOpInsert h { s with tpe := { s.tpe with dlDone := false, dlBusy := true } }
      else if op = 2 then dlOpDelete h { s with tpe := { s.tpe with dlDone := false, dlBusy := true } }
      else dlOpClear h { s with tpe := { s.tpe with dlDone := false, dlBusy := true } }) := by
  unfold writeDlop
  dsimp only
  rw [hw.1, hw.2.1, hw.2.2, h3, if_pos (by rfl), if_pos ⟨h1, h2⟩]

theorem dlop_run {op : Nat} {h : Fin 64} {s : State} (hr : Reach .tpe 0 s) (h1 : 1 ≤ op) (h2 : op ≤ 3) (h3 : s.tpe.dlBusy = false) :
    dlopCmd op h s = useWindow .tpe 0 (if op = 1 then dlOpInsert h { s with tpe := { s.tpe with dlDone := false, dlBusy := true } }
      else if op = 2 then dlOpDelete h { s with tpe := { s.tpe with dlDone := false, dlBusy := true } }
      else dlOpClear h { s with tpe := { s.tpe with dlDone := false, dlBusy := true } }) := by
  unfold dlopCmd
  rw [access_reach hr, writeDlop_at (dlop_bits ⟨op, by omega⟩ h) h1 h2 h3]
end Sys2Proof.Machine
namespace Sys2Proof.Machine

theorem kept_focus (n : Fin 4) (p : Prop) [Decidable p] (u : State) : (if p then setFocused n false (u.modPu n fun p => { p with capturing := false }) else u).sve[sveOf n] = u.sve[sveOf n] := by
  split
  · exact sve_of _ (frame_setFocused _ _ _ (m := 0x10000100) .refl rfl .sve rfl)
  · rfl

theorem retractStart_sve (n : Fin 4) (r : Nat) {s : State} (h : s.sve[sveOf n].retract = false) :
    (retractStart n r false s).sve[sveOf n].retract = true ∧ (retractStart n r false s).sve[sveOf n].run = false ∧
      (retractStart n r false s).sve[sveOf n].onTrack = false ∧ (retractStart n r false s).sve[sveOf n].hold = false ∧
      (retractStart n r false s).sve[sveOf n].cda[1] = 0x8000 := by
  unfold retractStart
  extract_lets e u v w x y z bias vcm
  rw [if_neg (by rw [h]; simp)]
  have h0 : u.sve[sveOf n].retract = true := by unfold u; rw [sve_modSve]
  have h1 : v.sve[sveOf n].retract = true := by
    have : v = servoDecide n 0x20 u := by unfold v; rw [if_neg Bool.false_ne_true]
    rw [this]
    obtain ⟨e, f, a, b, c, d, h1⟩ := servoDecide_sve n 0x20 u
    rw [h1]; exact h0
  clear_value v
  have h2 : w.sve[sveOf n].retract = true := by unfold w; rw [sve_of _ (ev_sve ..)]; exact h1
  clear_value w
  have h3 : x.sve[sveOf n].retract = true := by
    unfold x
    obtain ⟨a2, b2, c2, d2, h3⟩ := traceTrigger_sve (sveOf n) 27 w
    obtain ⟨c3, w3, h4⟩ := sveBump_sve (sveOf n) 7 1 (traceTrigger (sveOf n) 27 w)
    rw [sve_of _ (sveLine_sve ..), h4, h3]; exact h2
  clear_value x
  have h4 : y.sve[sveOf n].retract = true := by
    unfold y
    obtain ⟨a5, b5, c5, d5, h5⟩ := abandonMoves_sve n 1 x
    rw [h5]; exact h3
  clear_value y
  have h5 : z.sve[sveOf n].retract = true := by
    unfold z
    rw [kept_focus]; exact h4
  clear_value z
  rw [sve_modSve]
  exact ⟨h5, rfl, rfl, rfl, by simp⟩

theorem line_kept (n : Fin 4) (c : Bool) (u : State) : (if c = true then sveLine n 3 (waitComes n 11 u) else u).sve[sveOf n] = u.sve[sveOf n] := by
  split
  · exact (sve_of _ (sveLine_sve ..)).trans (sve_of _ (waitComes_sve ..))
  · rfl

theorem trackOk_stopped {n : Fin 4} {p : Int} {b : Bool} {u : State} (hu : u.sve[sveOf n].run = false) : trackOk n p b u = false := by
  unfold trackOk; dsimp only; rw [hu]; simp only [Bool.false_and]

theorem judgeSample_stopped {n : Fin 4} {b : Bool} {s : State} (h1 : s.sve[sveOf n].seeking = false) (h2 : s.sve[sveOf n].run = false) :
    (judgeSample n b s).sve[sveOf n].wedge = s.sve[sveOf n].wedge ∧ (judgeSample n b s).sve[sveOf n].pesOk = s.sve[sveOf n].pesOk ∧
      (judgeSample n b s).sve[sveOf n].onTrack = false := by
  unfold judgeSample
  extract_lets e pes ok s1 v run becomes s2 s3 t
  have k1 : s1 = s := by unfold s1; rw [h1, Bool.false_and, Bool.false_and, if_neg Bool.false_ne_true]
  have k2 : s2.sve[sveOf n].wedge = s.sve[sveOf n].wedge ∧ s2.sve[sveOf n].pesOk = s.sve[sveOf n].pesOk ∧ s2.sve[sveOf n].run = false := by
    unfold s2; rw [sve_modSve, k1]; exact ⟨rfl, rfl, h2⟩
  have k3 : s3.sve[sveOf n] = s2.sve[sveOf n] := by unfold s3; exact line_kept ..
  have k4 : t = false := by unfold t; apply trackOk_stopped; rw [k3]; exact k2.2.2
  rw [sve_modSve, k3]
  exact ⟨k2.1, k2.2.1, k4⟩

theorem modSve_run {m n : Fin 5} {f : Sve → Sve} {s : State} (h : ∀ y, (f y).run = y.run) :
    (s.modSve n f).sve[m].run = s.sve[m].run := by
  simp only [State.modSve, Fin.getElem_fin, Vector.getElem_set]
  split
  · next e => rw [h]; simp only [e]
  · rfl

theorem applyOuts_run (n : Fin 4) (m : Fin 5) (l : List (Nat × Int)) (s : State) : (applyOuts n l s).sve[m].run = s.sve[m].run := by
  have kf : ∀ (b : Nat → Bool) (l : List (Nat × Int)) (u : State), (l.foldl (fun s (k, a) =>
      if b k then s else s.modSve (sveOf n) fun v => { v with cda := vmod v.cda k fun _ => dacCode a }) u).sve[m].run = u.sve[m].run := by
    intro b l
    induction l with
    | nil => intro u; rfl
    | cons x l ih =>
      intro u
      rw [List.foldl_cons, ih]
      dsimp only
      split
      · rfl
      · exact modSve_run fun _ => rfl
  unfold applyOuts
  extract_lets e v blocked s1
  have k1 : s1.sve[m].run = s.sve[m].run := kf (fun k => blocked k || v.retract) l s
  clear_value s1
  split
  · dsimp only
    split
    · refine Eq.trans (modSve_run ?_) k1
      intro y; rfl
    · exact k1
  · exact k1

theorem sveOuts_run (n m : Fin 5) (l : List (Nat × Int)) (s : State) : (sveOuts n l s).sve[m].run = s.sve[m].run := by
  unfold sveOuts
  split
  · exact applyOuts_run ..
  · exact modSve_run fun _ => rfl

theorem runRows_run (n : Fin 5) (lo hi c0 c1 : Nat) (tr : List (Nat × Int)) (s : State) :
    (runRows n lo hi c0 c1 tr s).1.sve[n].run = s.sve[n].run := by
  have kb : ∀ (p : Prop) [Decidable p] (k a : Nat) (u : State), (if p then u else sveBump n k a u).sve[n].run = u.sve[n].run := by
    intro p _ k a u
    split
    · rfl
    · obtain ⟨c, w, h⟩ := sveBump_sve n k a u
      rw [h]
  unfold runRows
  exact (kb _ _ _ _).trans ((kb _ _ _ _).trans (modSve_run fun _ => rfl))

theorem prePhase_run (n : Fin 5) (s : State) : (prePhase n s).sve[n].run = s.sve[n].run := by
  unfold prePhase
  refine (sveOuts_run ..).trans ((modSve_run ?_).trans (runRows_run ..))
  intro y; rfl

theorem takes_stopped {n : Fin 4} {inp : ServoIn} {missed : Bool} {s : State} (h1 : optical s = false)
    (h2 : s.sve[sveOf n].run = false) (h3 : s.sve[sveOf n].seeking = false) (h4 : s.sve[sveOf n].seekPend = false) (h5 : missed = true ∨ inp.late = 0) :
    (sampleTakes n inp missed s).1.sve[sveOf n].wedge = inp.wedge ∧ (sampleTakes n inp missed s).1.sve[sveOf n].run = false ∧
      (sampleTakes n inp missed s).1.sve[sveOf n].seeking = false ∧ (missed = true → (sampleTakes n inp missed s).1.sve[sveOf n].pesOk = false) := by
  unfold sampleTakes
  extract_lets s1 hh s2
  have k1 : s1.sve[sveOf n] = { s.sve[sveOf n] with seeking := false, seekPend := false } := by
    unfold s1; rw [sve_modSve, h3, h4]; rfl
  have o1 : optical s1 = false := h1
  have k2 : hh = (s1, false) := by unfold hh; rw [o1, if_neg Bool.false_ne_true]
  have k3 : s2 = magneticInputs n inp missed s1 := by unfold s2; rw [k2]; dsimp only; rw [o1, if_neg Bool.false_ne_true]
  have k4 : s2.sve[sveOf n].wedge = inp.wedge ∧ s2.sve[sveOf n].run = false ∧ s2.sve[sveOf n].seeking = false ∧ (missed = true → s2.sve[sveOf n].pesOk = false) := by
    rw [k3]; unfold magneticInputs; dsimp only; rw [sve_modSve, k1]
    exact ⟨rfl, h2, rfl, fun h => by rw [h]; rfl⟩
  clear_value s2
  unfold lateSample
  have kk : ∀ u : State, (if inp.late ≠ 0 && !missed then ev .sve 0x0605 n inp.late ((u.modSve (sveOf n) fun v => { v with maxLate := max v.maxLate (min inp.late 0xFFFF) }).sve[sveOf n].wedge) (sveBump (sveOf n) 4 1 (u.modSve (sveOf n) fun v => { v with maxLate := max v.maxLate (min inp.late 0xFFFF) })) else u) = u := by
    intro u
    rw [if_neg]
    rcases h5 with k | k <;> rw [k] <;> simp
  dsimp only
  rw [kk]
  split
  · obtain ⟨c, w, e⟩ := sveBump_sve (sveOf n) 5 1 s2
    rw [e]; exact k4
  · exact k4

theorem sample_stopped {n : Fin 4} {inp : ServoIn} {missed : Bool} {s : State} (h1 : optical s = false)
    (h2 : s.sve[sveOf n].run = false) (h3 : s.sve[sveOf n].seeking = false) (h4 : s.sve[sveOf n].seekPend = false) (h5 : missed = true ∨ inp.late = 0) :
    (servoSample n inp missed s).sve[sveOf n].wedge = inp.wedge ∧ (missed = true → (servoSample n inp missed s).sve[sveOf n].pesOk = false) ∧
      (servoSample n inp missed s).sve[sveOf n].onTrack = false := by
  obtain ⟨a, b, c, d⟩ := takes_stopped h1 h2 h3 h4 h5
  unfold servoSample
  dsimp only
  rw [b]
  have k := judgeSample_stopped (b := false) c b
  rw [if_pos (by rfl)]
  exact ⟨k.1.trans a, fun h => k.2.1.trans (d h), k.2.2⟩

theorem wedgePasses_sve (n : Fin 4) (w : Nat) (s : State) : (wedgePasses n w s).sve = s.sve := by
  unfold wedgePasses
  dsimp only
  split <;> rfl
end Sys2Proof.Machine
namespace Sys2Proof.Machine

theorem spnCmd_run {v : Nat} {s : State} (h : Reach .spn 0 s) : spnCmd v s = useWindow .spn 0 (writeSpnCmd v s) := by
  unfold spnCmd; rw [access_reach h]

theorem requestUnload_spn (s : State) : (requestUnload s).spn = { s.spn with unlReq := true } := by
  unfold requestUnload
  exact (frame_retractLoaded _ _ (m := 0x1A1DB2A180) .refl rfl .spn rfl).trans rfl
end Sys2Proof.Machine
namespace Sys2Proof.Machine

theorem recorded_modSpn {c : Nat} {f : Spn → Spn} {s : State} : Recorded c (s.modSpn f) ↔ Recorded c s := Iff.rfl

theorem recorded_raiseLine {c k : Nat} {s : State} : Recorded c (raiseLine k s) ↔ Recorded c s := Iff.rfl

theorem recorded_useWindow {c : Nat} {b : Blk} {n : Nat} {s : State} : Recorded c (useWindow b n s) ↔ Recorded c s := recorded_congr (useWindow_evr _ _ _)

theorem recorded_here {b : Blk} {c p0 p1 p2 : Nat} {s : State} (h : EventRoom s) : Recorded c (ev b c p0 p1 p2 s) :=
  recorded_ev (by unfold EventRoom at h; exact Nat.lt_of_lt_of_le h (by decide))

theorem brakeSpeed_spn (s : State) : ∃ b g, (brakeSpeed s).spn = { s.spn with brk := b, gates := g } := by
  unfold brakeSpeed; split
  · exact ⟨_, _, rfl⟩
  · exact ⟨_, _, rfl⟩
end Sys2Proof.Machine
namespace Sys2Proof.Machine

theorem psi_of {u v : State} (n : Fin 4) (h : u.psi = v.psi) : u.psi[n] = v.psi[n] := by rw [h]

theorem psi_modPsi (n : Fin 4) (f : PsiPort → PsiPort) (s : State) : (s.modPsi n f).psi[n] = f s.psi[n] := by
  simp [State.modPsi]

theorem pu_of {u v : State} (n : Fin 4) (h : u.opt = v.opt) : u.opt.pu[n] = v.opt.pu[n] := by rw [h]

theorem pu_modPu (n : Fin 4) (f : Pickup → Pickup) (s : State) : (s.modPu n f).opt.pu[n] = f s.opt.pu[n] := by
  simp [State.modPu]

theorem lsr_of {u v : State} (n : Fin 4) (h : u.lsr = v.lsr) : u.lsr.ch[n] = v.lsr.ch[n] := by rw [h]

theorem ch_of {u v : State} (n : Fin 4) (h : u.lsr.ch = v.lsr.ch) : u.lsr.ch[n] = v.lsr.ch[n] := by rw [h]

theorem lsr_modLaser (n : Fin 4) (f : Laser → Laser) (s : State) : (s.modLaser n f).lsr.ch[n] = f s.lsr.ch[n] := by
  simp [State.modLaser]

theorem lsrClrf_fold (v : Nat) (n : Fin 4) (l : List (Fin 4)) (s : State) (h : (n ∈ l ∧ v.testBit n.val = true) ∨ (s.lsr.ch[n].fault = false ∧ s.lsr.ch[n].offHold = false ∧ s.lsr.ch[n].bad = 0)) :
    let t := l.foldl (fun s (n : Fin 4) => if v.testBit n.val then s.modLaser n fun l => { l with fault := false, offHold := false, bad := 0 } else s) s
    t.lsr.ch[n].fault = false ∧ t.lsr.ch[n].offHold = false ∧ t.lsr.ch[n].bad = 0 := by
  induction l generalizing s with
  | nil =>
    rcases h with ⟨h, _⟩ | h
    · exact absurd h (by simp)
    · exact h
  | cons y l ih =>
    dsimp only at ih ⊢
    rw [List.foldl_cons]
    apply ih
    by_cases e : n = y
    · subst e
      rcases h with ⟨_, h⟩ | h
      · right; rw [if_pos h, lsr_modLaser]; exact ⟨rfl, rfl, rfl⟩
      · right
        split
        · rw [lsr_modLaser]; exact ⟨rfl, rfl, rfl⟩
        · exact h
    · rcases h with ⟨h, hb⟩ | h
      · left; exact ⟨by simpa [e] using h, hb⟩
      · right
        split
        · have : (s.modLaser y fun l => { l with fault := false, offHold := false, bad := 0 }).lsr.ch[n] = s.lsr.ch[n] := by
            have k : (y : Nat) ≠ n := fun h => e (Fin.ext h.symm)
            simp [State.modLaser, Vector.getElem_set, k]
          rw [this]; exact h
        · exact h

theorem laserOff_ch (n : Fin 4) (s : State) : (laserOff n s).lsr.ch[n].level = .off ∧ (laserOff n s).lsr.ch[n].offHold = true ∧
    (laserOff n s).lsr.ch[n].atPwr = false ∧ (laserOff n s).rwc[n].lg = false := by
  unfold laserOff
  dsimp only
  have k1 : ∀ f u, (psiQueue n f u).lsr = u.lsr ∧ (psiQueue n f u).rwc = u.rwc := fun _ _ => ⟨rfl, rfl⟩
  have k2 : ∀ f u, (psiQueue n f u).lsr.ch[n] = u.lsr.ch[n] := fun f u => lsr_of n (k1 f u).1
  have k3 : ∀ f u, (psiQueue n f u).rwc[n] = u.rwc[n] := fun f u => rwc_of n (k1 f u).2
  rw [k2, k2, k3, k3, lsr_modLaser]
  refine ⟨rfl, rfl, rfl, ?_⟩
  have k4 : ∀ (f : Laser → Laser) (u : State), (u.modLaser n f).rwc = u.rwc := fun _ _ => rfl
  have k5 : ∀ u, (countOnTime n u).rwc = u.rwc := fun u => frame_countOnTime _ _ (m := 0x8000000) .refl rfl .rwc rfl
  rw [rwc_of n (k4 _ _), rwc_of n (k5 _), rwc_modRwc]
end Sys2Proof.Machine
namespace Sys2Proof.Machine

theorem wedgePasses_opt (n : Fin 4) (w : Nat) (s : State) : (wedgePasses n w s).opt = s.opt := by
  unfold wedgePasses
  dsimp only
  split <;> rfl

theorem clock_opt (n : Fin 4) (b : Bool) (ok : Bool) (u : Nat) (x y : Int) (s : State) : (if b = true then clockStep n ok u x y s else s).opt = s.opt := by
  split
  · exact frame_clockStep _ _ _ _ _ _ (m := 0x1A0CB22180) .refl rfl .opt rfl
  · rfl

theorem optBump_pu (n : Fin 4) (c a : Nat) (s : State) : (optBump n c a s).opt.pu[n] = s.opt.pu[n] := by
  unfold optBump
  dsimp only
  split
  · exact (pu_of n (setIrqStat_opt ..)).trans rfl
  · rfl
end Sys2Proof.Machine
namespace Sys2Proof.Machine

theorem opcmd_store {op : Nat} {s : State} (h : Rising s.regs) (h1 : op < 16) :
    fld .opcmd 0 0 3 0 (storeFields .opcmd 0 0 (0x80000000 + op) s) = op := by
  unfold fld
  rw [reg_storeFields _ _ _ _ h (by omega)]
  have hw : writableBits .opcmd 0 s = 0xF := by
    unfold writableBits
    split <;> decide
  rw [hw]
  have hm : ∀ o : Fin 16, (0x80000000 + o.val) &&& 0xF = o.val := by decide
  rw [hm ⟨op, h1⟩]
  apply Nat.eq_of_testBit_eq
  intro i
  unfold bits
  simp only [Nat.testBit_mod_two_pow, Nat.testBit_shiftRight, Nat.testBit_or, Nat.testBit_and, Nat.testBit_xor, Nat.zero_add]
  by_cases hi : i < 4
  · have hf : (15 : Nat).testBit i = true := by
      have : ∀ j : Fin 4, (15 : Nat).testBit j = true := by decide
      exact this ⟨i, hi⟩
    have hg : (2 ^ 32 - 1 : Nat).testBit i = true := by rw [Nat.testBit_two_pow_sub_one]; simp; omega
    rw [hf, hg]; simp [hi]
  · have : op.testBit i = false := Nat.testBit_lt_two_pow (lt_of_lt_of_le h1 (by calc 16 = 2 ^ 4 := rfl
        _ ≤ 2 ^ i := Nat.pow_le_pow_right (by norm_num) (by omega)))
    simp [hi, this]

theorem rangeCmd_run {op : Nat} {s : State} (hr : Reach .bcc 0 s) (h : Rising s.regs) (h1 : op < 16) :
    rangeCmd op s = useWindow .bcc 0 (rangeGo op (storeFields .opcmd 0 0 (0x80000000 + op) s)) := by
  unfold rangeCmd
  rw [access_reach hr]
  have hb : (0x80000000 + op).testBit 31 = true := by
    have : ∀ o : Fin 16, (0x80000000 + o.val).testBit 31 = true := by decide
    exact this ⟨op, h1⟩
  unfold writeOpcmd
  dsimp only
  rw [hb, if_pos rfl, opcmd_store h h1]
end Sys2Proof.Machine
namespace Sys2Proof.Machine

theorem bccRead_hit {m : Master} {off n : Nat} {err : DdrErr} {c : CLine} {s : State} (h3 : bccPass s = false) (h4 : bccHit (off / 128) s = some c) :
    (bccRead m off n err s).2 = (lineBytes c.data (off % 128) n, false) := by
  unfold bccRead
  dsimp only
  rw [h3, if_neg Bool.false_ne_true, h4]

theorem ddrAccess_hit {m : Master} {a n : Nat} {err : DdrErr} {c : CLine} {s : State} (h3 : bccPass s = false)
    (h4 : bccHit ((a - ddrBase) / 128) s = some c) :
    (ddrAccess m a n none err s).busData = lineBytes c.data ((a - ddrBase) % 128) n ∧ (ddrAccess m a n none err s).busErr = false := by
  have k := bccRead_hit (m := m) (n := n) (err := err) h3 h4
  unfold ddrAccess
  generalize hx : lineBytes c.data ((a - ddrBase) % 128) n = d at *
  generalize hq : bccRead m (a - ddrBase) n err s = q at *
  clear hx hq h4 h3
  obtain ⟨x, y, z⟩ := q
  simp only [Prod.mk.injEq] at k
  dsimp only
  rw [k.1, k.2]
  exact ⟨if_neg Bool.false_ne_true, rfl⟩
end Sys2Proof.Machine
end

