-- ==== Sys2Proof/Laws/Keys.lean ====
section
/-!
SUPPORT. Mailbox answers and key slots.
-/

set_option Elab.async false
set_option linter.all false

namespace Sys2Proof.Machine

theorem secWrite_sec (a n v : Nat) (s : State) : (secWrite a n v s).sec = s.sec :=
  frame_secWrite a n v s (m := 0x18600031A0) .refl rfl .sec rfl

theorem respond_sec (c l v : Nat) (s : State) : (respond c l v s).sec.mbDone = true ∧ (respond c l v s).sec.mbRes = 0 ∧
    (respond c l v s).sec.slots = s.sec.slots ∧ (respond c l v s).sec.mbLen = l % 2 ^ 20 ∧
    (respond c l v s).sec.keyRecs = s.sec.keyRecs := by
  unfold respond
  rw [answer_sec, secWrite_sec]
  exact ⟨rfl, rfl, rfl, rfl, rfl⟩

theorem respondFree_sec (c : Nat) (s : State) : (respondFree c s).sec.mbDone = true ∧ (respondFree c s).sec.mbRes = 0 ∧
    (respondFree c s).sec.slots = s.sec.slots ∧ (respondFree c s).sec.keyRecs = s.sec.keyRecs := by
  unfold respondFree
  extract_lets n
  have r := respond_sec c n (draw (256 ^ n) s.drawn) s.drawn.drawn
  exact ⟨r.1, r.2.1, r.2.2.1, r.2.2.2.2⟩

theorem mem_insertSlot (x : KSlot) (l : List KSlot) : x ∈ putSlot.insertSlot x l := by
  induction l with
  | nil => simp [putSlot.insertSlot]
  | cons y t ih =>
    unfold putSlot.insertSlot
    split
    · simp
    · exact List.mem_cons_of_mem _ ih

theorem foldl_sec {α : Type} (f : State → α → State) (hf : ∀ s x, (f s x).sec = s.sec) (l : List α) (s : State) :
    (l.foldl f s).sec = s.sec := by
  induction l generalizing s with
  | nil => rfl
  | cons x l ih => rw [List.foldl_cons, ih, hf]

theorem faultDecision_sec (n : Fin 4) (c : Nat) (s : State) : (faultDecision n c s).sec = s.sec :=
  frame_faultDecision n c s (m := 0x1A0CB22180) .refl rfl .sec rfl

theorem startQuiet_sec (s : State) : (startQuiet s).sec = s.sec :=
  frame_startQuiet s (m := 0x5800000100) .refl rfl .sec rfl

theorem noteWake_sec (x : Nat) (s : State) : (noteWake x s).sec = s.sec :=
  frame_noteWake x s (m := 0x800) .refl rfl .sec rfl

theorem snuffAct_sec (code : Nat) (s : State) :
    (snuffAct code s).sec = { s.sec with slots := [], lane := Vector.replicate 4 none, restored := false } := by
  unfold snuffAct
  dsimp only
  rw [setIrqStat_sec, noteWake_sec]
  unfold dropLinks zeroKst
  dsimp only [State.modPwr, State.modVlk, State.modSec]
  rw [foldl_sec _ (by
    intro s x
    skip
    split
    · exact faultDecision_sec _ _ _
    · rfl)]
theorem respondRecords_sec (c : Nat) (l : List KRec) (s : State) : (respondRecords c l s).sec.mbDone = true ∧
    (respondRecords c l s).sec.mbRes = 0 ∧ (respondRecords c l s).sec.mbLen = 128 * l.length % 2 ^ 20 ∧
    (respondRecords c l s).sec.keyRecs = s.sec.keyRecs :=
  have r := respond_sec c (128 * l.length) (recordsBytes l) s
  ⟨r.1, r.2.1, r.2.2.2.1, r.2.2.2.2⟩

theorem storeRecords_keyRecs {l : List KRec} {s : State} {x : KRec} (h : x ∈ l) : x ∈ (storeRecords l s).sec.keyRecs :=
  List.mem_append_right _ h

/-- Taking the namespaces of one list out of service leaves the security core but for its list of wiped namespaces. -/
theorem deallocWiped_sec (l : List Nat) (s : State) :
    (deallocWiped l s).sec = { s.sec with wiped := s.sec.wiped.filter fun n => !(l.contains n) } := by
  unfold deallocWiped
  dsimp only [State.modSec]
  rw [foldl_sec (fun s n => formatTables noOrd n s) (fun s x => frame_formatTables _ _ _ (m := 0x20000) .refl rfl .sec rfl)]

theorem programFuses_sec (s : State) : (programFuses s).sec = s.sec :=
  frame_programFuses s (m := 0x1800000180) .refl rfl .sec rfl

theorem programFuses_sys (s : State) : (programFuses s).sys = s.sys :=
  frame_programFuses s (m := 0x1800000180) .refl rfl .sys rfl

/-- Programming fuses records at most one failed readback (R340). -/
theorem queue_programFuses (s : State) : (programFuses s).evr.queue.length ≤ s.evr.queue.length + 8 := by
  unfold programFuses
  split
  · exact Nat.le_add_right _ _
  · unfold ev recordEvent
    generalize hs : State.drawn (State.drawn s) = u
    have hu : u.evr.queue = s.evr.queue := by rw [← hs]; rfl
    obtain ⟨q, hq, e⟩ := queue_lifBumps (lifOf 0x0B72 0) u
    obtain ⟨r, hr, e2⟩ := queue_enqueue 0x0B72 (Blk.row .tru).type_ (draw (2 ^ 32) s.drawn) 0 0
      ((lifOf 0x0B72 0).foldl (fun s i => lifBump i 1 s) u)
    have hl := lifOf_length 0x0B72 0
    rw [e2, e, hu, List.length_append, List.length_append]
    omega

theorem programFuses_pwr (s : State) : (programFuses s).pwr = s.pwr :=
  frame_programFuses s (m := 0x1800000180) .refl rfl .pwr rfl

/-- With no wake source noted, nothing wakes. -/
theorem wakeNoted_idle {s : State} (h : s.pwr.active = 0) : wakeNoted s = s := if_pos h

theorem foldl_pwr {α : Type} (f : State → α → State) (hf : ∀ s x, (f s x).pwr = s.pwr) (l : List α) (s : State) :
    (l.foldl f s).pwr = s.pwr := by
  induction l generalizing s with
  | nil => rfl
  | cons x l ih => rw [List.foldl_cons, ih, hf]

/-- In LIT, with no entry under way, the snuff response notes no wake source. -/
theorem snuffAct_pwr {code : Nat} {s : State} (h : (s.pwr.state == .lit && s.pwr.phase != .entering) = true) :
    (snuffAct code s).pwr = s.pwr := by
  unfold snuffAct
  dsimp only
  have hp : ∀ x u : State, u.pwr = s.pwr → (noteWake 0x100 u).pwr = s.pwr := by
    intro x u hu
    unfold noteWake
    dsimp only
    rw [hu, if_pos (by rw [h, Bool.or_true])]
    exact hu
  rw [frame_setIrqStat _ _ _ _ (m := 0x100) .refl rfl .pwr rfl]
  refine hp s _ ?_
  unfold dropLinks zeroKst
  dsimp only [State.modVlk, State.modSec]
  refine foldl_pwr _ (fun s x => ?_) _ _
  split
  · exact frame_faultDecision _ _ _ (m := 0x1A0CB22180) .refl rfl .pwr rfl
  · rfl

end Sys2Proof.Machine
end

