-- ==== Sys2Proof/Laws/Trim.lean ====
section
/-!
SUPPORT. Trims: what a step, a measurement and a computation leave.
-/

set_option Elab.async false
set_option linter.all false

namespace Sys2Proof.Machine

theorem trimAt_congr {k : Nat} {s t : State} (h : t.trm = s.trm) : trimAt k t = trimAt k s := by unfold trimAt; rw [h]

theorem trimReset_t (k : Nat) : (trimReset k).t = k := rfl

theorem trimAt_t (k : Nat) (s : State) : (trimAt k s).t = k := by
  unfold trimAt
  cases h : s.trm.trims.find? (·.t == k) with
  | none => rfl
  | some x => simpa using List.find?_some h

theorem find_filter_other {k j : Nat} (h : k ≠ j) (l : List Trim) : (l.filter (·.t != j)).find? (·.t == k) = l.find? (·.t == k) := by
  rw [List.find?_filter]
  apply congrFun; apply congrArg
  funext x
  by_cases hx : x.t = k
  · simp [hx, h]
  · simp [hx]

theorem find_filter_self (j : Nat) (l : List Trim) : (l.filter (·.t != j)).find? (·.t == j) = none := by
  rw [List.find?_filter, List.find?_eq_none]
  intro x _; simp

theorem trimAt_modTrim_of {k : Nat} {f : Trim → Trim} {s : State} (h : (f (trimAt k s)).t = k) :
    trimAt k (modTrim k f s) = f (trimAt k s) := by
  unfold modTrim
  dsimp only
  generalize f (trimAt k s) = x at *
  unfold trimAt
  dsimp only
  rw [List.find?_append, find_filter_self]
  simp [h]

theorem trimAt_modTrim {k : Nat} {f : Trim → Trim} {s : State} (h : ∀ x, (f x).t = x.t := by intro x; rfl) :
    trimAt k (modTrim k f s) = f (trimAt k s) := trimAt_modTrim_of ((h _).trans (trimAt_t k s))

theorem trimAt_modTrim_other {k j : Nat} {f : Trim → Trim} {s : State} (hne : k ≠ j) (h : ∀ x, (f x).t = x.t := by intro x; rfl) :
    trimAt k (modTrim j f s) = trimAt k s := by
  unfold modTrim
  dsimp only
  have hx := (h (trimAt j s)).trans (trimAt_t j s)
  generalize f (trimAt j s) = x at *
  unfold trimAt
  dsimp only
  rw [List.find?_append, find_filter_other hne]
  have : ([x].find? (·.t == k)) = none := by simp [hx, Ne.symm hne]
  rw [this, Option.or_none]

theorem retarget_of (P : Trim → Prop) {k t : Nat} {s : State} (h : P (trimAt k s))
    (hk : ∀ (x : Trim) a b c d, P x → P { x with target := a, limited := b, since := c, aged := d }) : P (trimAt k (retarget t s)) := by
  unfold retarget
  split
  · dsimp only
    by_cases hne : k = t
    · subst hne
      split
      · rw [trimAt_congr (setIrqStat_trm _ _ _ _), trimAt_congr (ev_trm _ _ _ _ _ _), trimAt_modTrim]; exact hk _ _ _ _ _ h
      · rw [trimAt_modTrim]; exact hk _ _ _ _ _ h
    · split
      · rw [trimAt_congr (setIrqStat_trm _ _ _ _), trimAt_congr (ev_trm _ _ _ _ _ _), trimAt_modTrim_other hne]; exact h
      · rw [trimAt_modTrim_other hne]; exact h
  · exact h

theorem retarget_comp (k t : Nat) (s : State) : (trimAt k (retarget t s)).comp = (trimAt k s).comp :=
  retarget_of (fun x => x.comp = (trimAt k s).comp) rfl (fun _ _ _ _ _ h => h)

theorem retarget_auto (k t : Nat) (s : State) : (trimAt k (retarget t s)).auto = (trimAt k s).auto :=
  retarget_of (fun x => x.auto = (trimAt k s).auto) rfl (fun _ _ _ _ _ h => h)

theorem retarget_targeted {k : Nat} {s : State} (h : trimExists k s = true) : TrimTargeted k (retarget k s) := by
  have e1 := retarget_comp k k s
  have e2 := retarget_auto k k s
  have e3 : (retarget k s).regs = s.regs := frame_retarget k s (m := 0x1A00000180) .refl rfl .regs rfl
  unfold TrimTargeted
  dsimp only
  rw [e1, e2]
  have e4 : fld .trmComp0 0 k 11 0 (retarget k s) = fld .trmComp0 0 k 11 0 s := by unfold fld reg; rw [e3]
  rw [e4]
  unfold retarget
  rw [if_pos h]
  extract_lets x sum top tg lim s1
  have e : trimAt k s1 = _ := trimAt_modTrim (k := k)
  split
  · rw [trimAt_congr (setIrqStat_trm _ _ _ _), trimAt_congr (ev_trm _ _ _ _ _ _), e]; exact ⟨rfl, rfl⟩
  · rw [e]; exact ⟨rfl, rfl⟩

theorem TrimTargeted.congr {k : Nat} {s t : State} (h : TrimTargeted k s) (h1 : trimAt k t = trimAt k s) (h2 : t.regs = s.regs) :
    TrimTargeted k t := by
  unfold TrimTargeted at h ⊢
  rw [h1]
  have e : fld .trmComp0 0 k 11 0 t = fld .trmComp0 0 k 11 0 s := by unfold fld reg; rw [h2]
  rw [e]
  exact h

theorem retarget_other {k t : Nat} {s : State} (hne : k ≠ t) : trimAt k (retarget t s) = trimAt k s := by
  unfold retarget
  split
  · dsimp only
    split
    · rw [trimAt_congr (setIrqStat_trm _ _ _ _), trimAt_congr (ev_trm _ _ _ _ _ _), trimAt_modTrim_other hne]
    · rw [trimAt_modTrim_other hne]
  · rfl

theorem computeAuto_other {k t c : Nat} {v : Int} {s : State} (hne : k ≠ t) : trimAt k (computeAuto t c v s) = trimAt k s := by
  unfold computeAuto
  extract_lets s1 x ref dead lim d v a s2
  have e1 : trimAt k s1 = trimAt k s := trimAt_modTrim_other hne
  have e2 : trimAt k s2 = trimAt k s := (trimAt_modTrim_other hne).trans e1
  clear_value s2 s1
  split
  · split
    · rw [trimAt_congr (ev_trm _ _ _ _ _ _), e2]
    · exact e2
  · exact e1

theorem computeAuto_comp (k c : Nat) (v : Int) (s : State) : (trimAt k (computeAuto k c v s)).comp = (trimAt k s).comp := by
  unfold computeAuto
  extract_lets s1 x ref dead lim d v a s2
  have e1 : (trimAt k s1).comp = (trimAt k s).comp := by
    have : trimAt k s1 = _ := trimAt_modTrim (k := k)
    rw [this]
  have e2 : (trimAt k s2).comp = (trimAt k s).comp := by
    have : trimAt k s2 = _ := trimAt_modTrim (k := k)
    rw [this]; exact e1
  clear_value s2 s1
  split
  · split
    · rw [trimAt_congr (ev_trm _ _ _ _ _ _), e2]
    · exact e2
  · exact e1

theorem computeComp_zero {t : Nat} {s : State} (h : fld .trmComp2 0 t 16 16 s = 0) : (trimAt t (computeComp t s)).comp = 0 := by
  unfold computeComp
  rw [if_pos h, trimAt_modTrim]

theorem computeComp_other {k t : Nat} {s : State} (hne : k ≠ t) : trimAt k (computeComp t s) = trimAt k s := by
  unfold computeComp
  dsimp only
  split
  · rw [trimAt_modTrim_other hne]
  · split
    · split
      · rw [trimAt_modTrim_other hne]
      · rw [trimAt_modTrim_other hne]; rfl
    · rw [trimAt_modTrim_other hne]; rfl

theorem trimStep_regs (t v : Nat) (w : Int) (u : State) : (retarget t (computeAuto t v w (computeComp t u))).regs = u.regs := by
  exact frame_retarget t _ (m := 0x1A00000180) (o := u) (frame_computeAuto t v w _ (frame_computeComp t u .refl rfl) rfl) rfl .regs rfl

theorem trimStep_sys (t v : Nat) (w : Int) (u : State) : (retarget t (computeAuto t v w (computeComp t u))).sys = u.sys := by
  exact frame_retarget t _ (m := 0x1A00000180) (o := u) (frame_computeAuto t v w _ (frame_computeComp t u .refl rfl) rfl) rfl .sys rfl

theorem foldl_keep {α β : Type} (g : State → β) (f : State → α → State) (hf : ∀ s x, g (f s x) = g s) (l : List α) (s : State) :
    g (l.foldl f s) = g s := by
  induction l generalizing s with
  | nil => rfl
  | cons x l ih => rw [List.foldl_cons, ih, hf]

theorem foldl_last {P Q : State → Prop} {f : State → Nat → State} {k : Nat} {l : List Nat} {s : State} (hp : P s)
    (hf : ∀ u x, P u → P (f u x)) (hk : ∀ u, P u → Q (f u k)) (ho : ∀ u x, k ≠ x → Q u → Q (f u x)) (hm : k ∈ l) : Q (l.foldl f s) := by
  have keep : ∀ (l : List Nat) u, P u → Q u → Q (l.foldl f u) := by
    intro l
    induction l with
    | nil => intro u _ h; exact h
    | cons x l ih =>
      intro u hp hq
      refine ih _ (hf _ _ hp) ?_
      by_cases h : k = x
      · subst h; exact hk _ hp
      · exact ho _ _ h hq
  induction l generalizing s with
  | nil => cases hm
  | cons x l ih =>
    by_cases h : k = x
    · subst h; exact keep l _ (hf _ _ hp) (hk _ hp)
    · exact ih (hf _ _ hp) ((List.mem_cons.mp hm).resolve_left h)

theorem zeroAsOne_pos (n : Nat) : 1 ≤ zeroAsOne n := by unfold zeroAsOne; split <;> omega

theorem clamp_toward {m d : Int} (h : 1 ≤ m) (hd : d ≠ 0) : (d - clamp (-m) m d).natAbs < d.natAbs ∧
    (0 ≤ d → 0 ≤ clamp (-m) m d ∧ clamp (-m) m d ≤ d) ∧ (d ≤ 0 → clamp (-m) m d ≤ 0 ∧ d ≤ clamp (-m) m d) := by
  unfold clamp; omega

theorem stepTail (n k : Nat) (d : Int) (v : State) (cls : Nat) : ∀ w, w = (
    let n := finCh (k / 32)
    let s := if cls = 1 then feedForward n k d v else v
    let s := if k % 32 = 24 then s.modRwc n fun r => { r with locked := false, goodRun := 0 } else s
    let s := if cls = 1 ∨ cls = 2 then { s with trm := { s.trm with stepped := insertNat k s.trm.stepped } } else s
    if (offeredGap n s).isSome && gapDone n s then waitComes n 14 s else s) →
    w.us = v.us ∧ w.trm.trims = v.trm.trims := by
  intro w hw
  subst hw
  extract_lets n a b src c
  have ha : a.us = v.us ∧ a.trm.trims = v.trm.trims := by
    change (ite _ _ _ : State).us = _ ∧ (ite _ _ _ : State).trm.trims = _
    split
    · exact ⟨frame_feedForward n k d v (m := 0x202080) .refl rfl .us rfl, by rw [frame_feedForward n k d v (m := 0x202080) .refl rfl .trm rfl]⟩
    · exact ⟨rfl, rfl⟩
  clear_value a
  have hb : b.us = v.us ∧ b.trm.trims = v.trm.trims := by
    change (ite _ _ _ : State).us = _ ∧ (ite _ _ _ : State).trm.trims = _
    split
    · exact ha
    · exact ha
  clear_value b
  have hc : c.us = v.us ∧ c.trm.trims = v.trm.trims := by
    change (ite _ _ _ : State).us = _ ∧ (ite _ _ _ : State).trm.trims = _
    split
    · exact hb
    · exact hb
  clear_value c
  split
  · exact ⟨(frame_waitComes n 14 c (m := 0x100000) .refl rfl .us rfl).trans hc.1, by rw [frame_waitComes n 14 c (m := 0x100000) .refl rfl .trm rfl]; exact hc.2⟩
  · exact hc

theorem stepTrim_step {k : Nat} {s : State} (h : trimPending k s = true) :
    (trimAt k (stepTrim k s)).target = (trimAt k s).target ∧
      ((trimAt k (stepTrim k s)).target - (trimAt k (stepTrim k s)).code : Int).natAbs < ((trimAt k s).target - (trimAt k s).code : Int).natAbs ∧
      (trimAt k (stepTrim k s)).last = some (stepTrim k s).us := by
  have hp : ((trimAt k s).target : Int) - (trimAt k s).code ≠ 0 := by
    unfold trimPending at h; simp at h; omega
  unfold stepTrim
  extract_lets x cls u most d v n2
  have e1 : trimAt k u = trimAt k s := by
    apply trimAt_congr
    change State.trm (match (trimAt k s).last with | some l => advanceTo (l + stepRate (trimClass k)) s | none => s) = _
    split
    · exact frame_advanceTo _ s (m := 0x7800000B12) .refl rfl .trm rfl
    · rfl
  clear_value u
  have hm1 : 1 ≤ most := by
    change 1 ≤ (ite _ _ _ : Int); split
    · omega
    · exact_mod_cast zeroAsOne_pos _
  clear_value most
  have hc := clamp_toward hm1 hp
  change _ ∧ _ at hc
  have hd : d = clamp (-most) most ((trimAt k s).target - (trimAt k s).code : Int) := rfl
  rw [← hd] at hc
  clear_value d
  have w1 : (trimAt k v).target = (trimAt k s).target ∧ (trimAt k v).code = (((trimAt k s).code : Int) + d).toNat ∧ (trimAt k v).last = some u.us := by
    have : trimAt k v = _ := trimAt_modTrim (k := k)
    rw [this, e1]; exact ⟨rfl, rfl, rfl⟩
  have w2 : v.us = u.us := rfl
  clear_value v
  have key : ∀ w : State, w.us = v.us → w.trm.trims = v.trm.trims → (trimAt k w).target = (trimAt k s).target ∧
      ((trimAt k w).target - (trimAt k w).code : Int).natAbs < ((trimAt k s).target - (trimAt k s).code : Int).natAbs ∧
      (trimAt k w).last = some w.us := by
    intro w h1 h2
    have : trimAt k w = trimAt k v := by unfold trimAt; rw [h2]
    rw [this, w1.1, w1.2.1, w1.2.2, h1, w2]
    refine ⟨rfl, ?_, rfl⟩
    omega
  split
  · have r := stepTail 0 k d v cls _ rfl
    exact key _ r.1 r.2
  · exact key v rfl rfl

def trimAgeAt (k w : Nat) (s : State) : State :=
  setIrqStat .trm 0 2 (ev .trm 0x0D03 k ((trimAt k s).target - (trimAt k s).code : Int).natAbs 0
    (modTrim k (fun x => { x with aged := true }) (advanceTo w s)))

theorem trimAgeAt_aged (k w : Nat) (s : State) : (trimAt k (trimAgeAt k w s)).aged = true := by
  unfold trimAgeAt
  rw [trimAt_congr (setIrqStat_trm _ _ _ _), trimAt_congr (ev_trm _ _ _ _ _ _), trimAt_modTrim]

theorem trimAgeAt_us (k w : Nat) (s : State) : (trimAgeAt k w s).us = max s.us w := by
  unfold trimAgeAt
  rw [setIrqStat_us, ev_us, ← advanceTo_us]; rfl
end Sys2Proof.Machine
end

