-- ==== Sys2Proof/Laws/Records.lean ====
section
/-!
SUPPORT. The event recorder: storing, releasing and placing a record.
-/

set_option Elab.async false
set_option linter.all false

namespace Sys2Proof.Machine

theorem storeRec_run {e : Event} {s : State} (h : canStore s = true) (h1 : s.evr.opn = false) (h2 : isCandle s = false) :
    storeRec e s = placeRec { e with flags := e.flags ||| flag s.evr.stepFlag 2 ||| flag s.evr.lossFlag 3, seq := s.evr.next }
      (State.modEvr (fun v => { v with next := v.next + 1 }) (State.modEvr (fun v => { v with lossFlag := false, stepFlag := false, period := v.period + 1 }) s)) := by
  unfold storeRec
  rw [if_pos h]
  dsimp only [State.modEvr]
  rw [if_neg (by rw [h1]; decide)]
  unfold forwardStored
  dsimp only
  rw [if_neg]
  intro hh
  have : isCandle s = true := by
    have := hh.1
    unfold isCandle at this ⊢
    unfold placeRec at this
    split at this <;> exact this
  rw [h2] at this; cases this

theorem heldRec_congr {q : Nat} {s t : State} (h : t.evr = s.evr) : heldRec q t = heldRec q s := by unfold heldRec; rw [h]

theorem heldRec_placeRec (e : Event) (s : State) : heldRec e.seq (placeRec e s) = some e := by
  unfold heldRec placeRec
  by_cases h : e.seq < 4096
  · rw [if_pos h, if_pos h]
    dsimp only [State.modEvr]
    rw [List.find?_append]
    have : (s.evr.founding.filter fun x => x.seq != e.seq).find? (fun x => x.seq == e.seq) = none := by
      rw [List.find?_filter, List.find?_eq_none]; intro x _; simp
    rw [this]; simp
  · rw [if_neg h, if_neg h]
    dsimp only [State.modEvr]
    simp

theorem recorded_recordEvent {b code p0 p1 p2 : Nat} {s : State} (h : s.evr.queue.length < 238) :
    Recorded code (recordEvent b code p0 p1 p2 s) := by
  unfold Recorded recordEvent
  obtain ⟨q, hq, e⟩ := queue_lifBumps (lifOf code p1) s
  have hl := lifOf_length code p1
  unfold enqueue
  rw [if_pos (by rw [e, List.length_append]; split <;> omega)]
  exact ⟨_, List.mem_append_right _ (List.mem_singleton.mpr rfl), rfl⟩

theorem lifBump_cnt {k a : Nat} {s : State} (h : s.lif.sat.contains k = false) (h1 : sget 0 k s.lif.cnt + a < 2 ^ 64) :
    (lifBump k a s).lif.cnt = sput 0 k (sget 0 k s.lif.cnt + a) s.lif.cnt := by
  unfold lifBump
  rw [h, if_neg (by decide)]
  dsimp only
  rw [if_pos h1]

theorem lifBump_sat {k a : Nat} {s : State} (h : s.lif.sat.contains k = false) (h1 : sget 0 k s.lif.cnt + a < 2 ^ 64) :
    (lifBump k a s).lif.sat = s.lif.sat := by
  unfold lifBump
  rw [h, if_neg (by decide)]
  dsimp only
  rw [if_pos h1]

theorem enqueue_other {k c a p q r : Nat} {s : State} (h15 : k ≠ 15) : sget 0 k (enqueue c a p q r s).lif.cnt = sget 0 k s.lif.cnt := by
  unfold enqueue
  generalize (if isReserved c = true then 256 else 240) = m
  split
  · rfl
  · exact sget_sput_ne _ _ _ h15

theorem lifBump_other {k j a : Nat} {s : State} (h : k ≠ j) (h15 : k ≠ 15) : sget 0 k (lifBump j a s).lif.cnt = sget 0 k s.lif.cnt := by
  unfold lifBump
  split
  · rfl
  · dsimp only
    split
    · exact sget_sput_ne _ _ _ h
    · rw [enqueue_other h15, setIrqStat_lif]
      exact sget_sput_ne _ _ _ h

theorem lifBumps_other {k : Nat} {l : List Nat} {s : State} (h : ∀ x ∈ l, k ≠ x ∧ k ≠ 15) :
    sget 0 k (l.foldl (fun s i => lifBump i 1 s) s).lif.cnt = sget 0 k s.lif.cnt := by
  induction l generalizing s with
  | nil => rfl
  | cons x l ih =>
    rw [List.foldl_cons, ih (fun y hy => h y (List.mem_cons_of_mem _ hy))]
    exact lifBump_other (h x (by simp)).1 (h x (by simp)).2

theorem refuses_plain {r : Reg} {n k v : Nat} {s : State} (h : r.mask (· == .rwg) = 0) : refuses r n k v s = false := by
  unfold refuses; dsimp only; rw [h]; simp

theorem evr_storeFields {r : Reg} {n k v : Nat} {s : State} (h : r.mask (· == .rwg) = 0) : (storeFields r n k v s).evr = s.evr := by
  unfold storeFields
  dsimp only
  rw [refuses_plain h, if_neg Bool.false_ne_true]
  rfl

theorem modEvr_cur (f : Evr → Nat) (s : State) : (State.modEvr (fun e => { e with cur := f e }) s).evr.cur = f s.evr := rfl

theorem loadWindow_cur (s : State) : (loadWindow s).evr.cur = s.evr.cur ∧ (loadWindow s).evr.winDone = true := ⟨rfl, rfl⟩

theorem loadWindow_bus (s : State) : (loadWindow s).busData = s.busData := rfl

theorem storeRec_num {e : Event} {s : State} (h : s.evr.opn = false) :
    (storeRec e s).evr.next = s.evr.next + 1 ∧ (storeRec e s).evr.opn = false ∧ (storeRec e s).evr.flood = s.evr.flood ∧
      (storeRec e s).evr.period = s.evr.period + 1 ∧ (storeRec e s).evr.staged = s.evr.staged := by
  unfold storeRec
  rw [if_pos (by unfold canStore; rw [h]; rfl)]
  dsimp only
  rw [if_neg (by dsimp only [State.modEvr]; rw [h]; decide)]
  generalize (e.flags ||| flag s.evr.stepFlag 2 ||| flag s.evr.lossFlag 3) = fl
  generalize Event.mk _ _ _ _ _ _ _ _ _ = e'
  generalize hu : State.modEvr (fun v => { v with next := v.next + 1 }) _ = u
  have k := KeepNum_forwardStored e' _ (KeepNum_placeRec e' u .refl)
  obtain ⟨k1, k2, k3, k4, -, k6, -⟩ := k
  rw [k1, k2, k3, k4, k6, ← hu]
  exact ⟨rfl, h, rfl, rfl, rfl⟩

theorem storeRec_regs (e : Event) (s : State) : (storeRec e s).regs = s.regs :=
  frame_storeRec e s (m := 0x5800000100) .refl rfl .regs rfl

theorem storeCount_eq {e : Event} {s : State} (h : s.evr.opn = false) (h1 : s.evr.flood = none) (h2 : s.evr.period < floodOn s) :
    storeCount e s = storeRec e s := by
  unfold storeCount
  dsimp only
  rw [if_neg]
  obtain ⟨-, -, -, k, -⟩ := storeRec_num (e := e) h
  have f : floodOn (storeRec e s) = floodOn s := by
    unfold floodOn fld reg; rw [storeRec_regs]
  rw [f, k]
  intro hh
  have := (Bool.and_eq_true _ _ ▸ hh : _ ∧ _).2
  simp at this
  omega
end Sys2Proof.Machine
end

