-- ==== Sys2Proof/Laws/Calendar.lean ====
section
/-!
SUPPORT. Elapsed time and the calendar.
-/

set_option Elab.async false
set_option linter.all false

namespace Sys2Proof.Machine

def tickState (dt : Nat) (s : State) : State :=
  vlkCount dt { s with
    us := s.us + dt
    sys := { s.sys with wdtAt := if wdtPaused s then s.sys.wdtAt + dt else s.sys.wdtAt } }

theorem elapse_eq (dt : Nat) (s : State) : elapse dt s = calCount dt (tickState dt s) := rfl

theorem tick_cal (dt : Nat) (s : State) : (tickState dt s).cal = s.cal ∧ (tickState dt s).regs = s.regs := by
  unfold tickState
  exact ⟨frame_vlkCount dt _ (m := 0x4000000000) .refl rfl .cal rfl, frame_vlkCount dt _ (m := 0x4000000000) .refl rfl .regs rfl⟩

def calStep (dt p : Nat) (rc : Bool) (c : Cal) : Cal :=
  let acc := if c.adjRem = 0 then 0 else c.slewFrac + dt * p
  let corr := min (acc / 1000000) c.adjRem.natAbs
  let sg : Int := if c.adjRem < 0 then -1 else 1
  let rem := c.adjRem - sg * corr
  let t := ((c.sec * 1000000 + c.usec + dt : Nat) : Int) + sg * corr
  let t := t.toNat
  { c with sec := (t / 1000000) % 2 ^ 48, usec := t % 1000000, adjRem := rem
           slewFrac := if rem = 0 then 0 else acc % 1000000
           rcSince := c.rcSince || (rc && dt != 0) }

theorem calCount_run {dt : Nat} {s : State} (h : calRuns s) : calCount dt s = calRun dt s := by
  unfold calCount
  rw [if_neg]
  rw [show (vget s.hdr (Blk.cal.hdr 0) {}).freeze = false from h]
  exact Bool.false_ne_true

theorem tick_runs {dt : Nat} {s : State} (h : calRuns s) : calRuns (tickState dt s) := by
  unfold calRuns hdrOf tickState
  rw [frame_vlkCount dt _ (m := 0x4000000000) .refl rfl .hdr rfl]
  exact h

theorem calRun_cal (dt : Nat) (s : State) :
    (calRun dt s).cal = calStep dt (slewPpm s) s.clk.onRc s.cal := by
  unfold calRun
  extract_lets c acc corr sg rem t t2 sec2 u w
  have hu : u.cal = calStep dt (slewPpm s) s.clk.onRc s.cal := rfl
  have hw : w.cal = u.cal := by
    change (ite _ _ _ : State).cal = _
    split
    · rw [setIrqStat_cal]
    · rfl
  clear_value w
  split
  · split
    · rw [frame_fireAlarm w (m := 0x1800000910) .refl rfl .cal rfl, hw, hu]
    · rw [hw, hu]
  · rw [hw, hu]

theorem calStep_slew {dt p : Nat} {rc : Bool} {c : Cal} (h : c.adjRem ≠ 0) (hd : c.adjRem.natAbs * 1000000 ≤ c.slewFrac + dt * p) :
    (calStep dt p rc c).adjRem = 0 := by
  have : (calStep dt p rc c).adjRem = c.adjRem - (if c.adjRem < 0 then -1 else 1) * (min ((if c.adjRem = 0 then 0 else c.slewFrac + dt * p) / 1000000) c.adjRem.natAbs : Nat) := rfl
  rw [this, if_neg h]
  generalize c.slewFrac + dt * p = A at *
  have : min (A / 1000000) c.adjRem.natAbs = c.adjRem.natAbs := by omega
  rw [this]
  split <;> omega

theorem elapse_slew {dt : Nat} {s : State} (hr : calRuns s) (h : s.cal.adjRem ≠ 0)
    (hd : s.cal.adjRem.natAbs * 1000000 ≤ s.cal.slewFrac + dt * slewPpm s) : (elapse dt s).cal.adjRem = 0 := by
  rw [elapse_eq, calCount_run (tick_runs hr), calRun_cal]
  obtain ⟨e1, e2⟩ := tick_cal dt s
  have e3 : slewPpm (tickState dt s) = slewPpm s := by unfold slewPpm fld reg; rw [e2]
  rw [e1, e3]
  exact calStep_slew h hd

theorem calStep_still {dt p a : Nat} {rc : Bool} {c : Cal} (h : c.adjRem = 0) (ht : c.sec * 1000000 + c.usec + dt = a * 1000000) (ha : a < 2 ^ 48) :
    (calStep dt p rc c).sec = a ∧ (calStep dt p rc c).usec = 0 := by
  have e : ∀ c, calStep dt p rc c = { c with
      sec := ((((c.sec * 1000000 + c.usec + dt : Nat) : Int) + (if c.adjRem < 0 then -1 else 1) * (min ((if c.adjRem = 0 then 0 else c.slewFrac + dt * p) / 1000000) c.adjRem.natAbs : Nat)).toNat / 1000000) % 2 ^ 48
      usec := (((c.sec * 1000000 + c.usec + dt : Nat) : Int) + (if c.adjRem < 0 then -1 else 1) * (min ((if c.adjRem = 0 then 0 else c.slewFrac + dt * p) / 1000000) c.adjRem.natAbs : Nat)).toNat % 1000000
      adjRem := (calStep dt p rc c).adjRem, slewFrac := (calStep dt p rc c).slewFrac, rcSince := (calStep dt p rc c).rcSince } := fun _ => rfl
  rw [e c, h, ht]
  simp only [Int.natAbs_zero, Nat.min_zero, Int.natCast_zero, Int.mul_zero, Int.add_zero, Int.toNat_natCast]
  omega

/-- A wake source that is enabled outside LIT is recorded. -/
theorem noteWake_bit {k : Nat} {s : State} (h1 : s.pwr.state ≠ .lit) (h2 : s.pwr.active = 0) (h3 : (wakeEnabled s).testBit k = true) :
    (noteWake (1 <<< k) s).pwr.active.testBit k = true := by
  have hb : ((1 <<< k) &&& wakeEnabled s).testBit k = true := by
    rw [Nat.testBit_and, h3, Nat.one_shiftLeft]; simp
  unfold noteWake
  extract_lets a
  have ha : a ≠ 0 := by intro e; unfold a at e; rw [e] at hb; simp at hb
  rw [if_neg (by simp [ha, h1]), if_pos h2]
  exact hb

theorem bits_clear (x : Nat) : bits ((((x &&& ((2 ^ 32 - 1) ^^^ ((2 ^ (31 + 1 - 31) - 1) <<< 31))) ||| ((0 <<< 31) &&& ((2 ^ (31 + 1 - 31) - 1) <<< 31)))) % 2 ^ 32) 31 31 = 0 := by
  unfold bits
  apply Nat.eq_of_testBit_eq
  intro i
  simp only [Nat.testBit_mod_two_pow, Nat.testBit_shiftRight, Nat.testBit_or, Nat.testBit_and, Nat.zero_testBit]
  rcases Nat.eq_zero_or_pos i with rfl | h
  · have : ((2 ^ 32 - 1) ^^^ ((2 ^ (31 + 1 - 31) - 1) <<< 31)).testBit (31 + 0) = false := by decide
    rw [this]; simp
  · simp; omega

/-- Firing the alarm disarms it (R399). -/
theorem fireAlarm_spec {s : State} (h : Rising s.regs) : alarmAt (fireAlarm s) = none ∧
    (s.pwr.state ≠ .lit → s.pwr.active = 0 → (wakeEnabled s).testBit 5 = true → (fireAlarm s).pwr.active.testBit 5 = true) := by
  unfold fireAlarm
  extract_lets s1 s2 s3
  have e1 : s3.regs = s1.regs := by unfold s3 s2; rw [ev_regs, setIrqStat_regs]
  have e2 : s3.pwr = s.pwr := by unfold s3 s2; rw [ev_pwr, setIrqStat_pwr]; rfl
  have e4 : wakeEnabled s3 = wakeEnabled s := by
    unfold wakeEnabled fld
    rw [reg_congr e1]
    unfold s1 setFld
    dsimp only
    rw [reg_setReg_ne (by decide)]
  constructor
  · unfold alarmAt
    have k : fld .calAlm1 0 0 31 31 (noteWake 0x20 s3) = 0 := by
      unfold fld
      rw [reg_congr (frame_noteWake _ _ (m := 0x800) .refl rfl .regs rfl), reg_congr e1]
      unfold s1 setFld
      dsimp only
      rw [reg_setReg _ _ _ _ h]
      exact bits_clear _
    rw [k, if_neg (by decide)]
  · intro h1 h2 h3
    exact noteWake_bit (k := 5) (by rw [e2]; exact h1) (by rw [e2]; exact h2) (by rw [e4]; exact h3)

theorem elapse_alarm {a : Nat} {s : State} (hr : calRuns s) (h1 : alarmAt s = some a) (h2 : s.cal.sec < a) (h3 : a < 2 ^ 48) (h4 : s.cal.usec < 1000000) (h5 : s.cal.adjRem = 0) (h6 : Rising s.regs) :
    (elapse (a * 1000000 - (s.cal.sec * 1000000 + s.cal.usec)) s).cal.sec = a ∧
    (elapse (a * 1000000 - (s.cal.sec * 1000000 + s.cal.usec)) s).cal.usec = 0 ∧
    alarmAt (elapse (a * 1000000 - (s.cal.sec * 1000000 + s.cal.usec)) s) = none ∧
    (s.pwr.state ≠ .lit → s.pwr.active = 0 → (wakeEnabled s).testBit 5 = true →
      (elapse (a * 1000000 - (s.cal.sec * 1000000 + s.cal.usec)) s).pwr.active.testBit 5 = true) := by
  have hd : s.cal.sec * 1000000 + s.cal.usec + (a * 1000000 - (s.cal.sec * 1000000 + s.cal.usec)) = a * 1000000 := by omega
  generalize a * 1000000 - (s.cal.sec * 1000000 + s.cal.usec) = dt at *
  rw [elapse_eq, calCount_run (tick_runs hr)]
  obtain ⟨e1, e2⟩ := tick_cal dt s
  have e3 : (tickState dt s).pwr = s.pwr := by
    unfold tickState; rw [frame_vlkCount dt _ (m := 0x4000000000) .refl rfl .pwr rfl]
  have e4 : alarmAt (tickState dt s) = some a := by
    rw [← h1]; unfold alarmAt fld reg; rw [e2]
  have e5 : wakeEnabled (tickState dt s) = wakeEnabled s := by unfold wakeEnabled fld reg; rw [e2]
  rw [← e2] at h6
  rw [← e3, ← e5]
  generalize tickState dt s = u at *
  have k := calStep_still (p := slewPpm u) (rc := u.clk.onRc) (c := u.cal) (by rw [e1]; exact h5) (by rw [e1]; exact hd) h3
  rw [calRun_cal]
  refine ⟨k.1, k.2, ?_⟩
  unfold calRun
  extract_lets c acc corr sg rem t t2 sec2 v w
  have hv : sec2 = (calStep dt (slewPpm u) u.clk.onRc u.cal).sec := rfl
  have hreg : w.regs = u.regs := by
    change (ite _ _ _ : State).regs = _
    split
    · rw [setIrqStat_regs];
    · rfl
  have hp : w.pwr = u.pwr := by
    change (ite _ _ _ : State).pwr = _
    split
    · rw [setIrqStat_pwr];
    · rfl
  have hw : alarmAt w = some a := by
    rw [← e4]
    unfold alarmAt fld reg; rw [hreg]
  have he : wakeEnabled w = wakeEnabled u := by unfold wakeEnabled fld reg; rw [hreg]
  clear_value w
  rw [hw]
  dsimp only
  rw [if_pos ⟨by change u.cal.sec < a; rw [e1]; exact h2, by rw [hv, k.1]⟩, ← hp, ← he]
  exact fireAlarm_spec (by rw [hreg]; exact h6)
end Sys2Proof.Machine
end

