-- ==== Sys2Proof/Laws/Vrelilo.lean ====
section
/-!
SUPPORT. Frames, grants and slots of a segment.
-/

set_option Elab.async false
set_option linter.all false

namespace Sys2Proof.Machine

theorem vlkBump_vlk (k : Nat) (s : State) : (vlkBump k s).vlk = { s.vlk with
    cnt := vmod s.vlk.cnt k fun _ => (wrapAdd (vget s.vlk.cnt k 0) 1).1
    wrap := if (wrapAdd (vget s.vlk.cnt k 0) 1).2 then s.vlk.wrap ||| 1 <<< k else s.vlk.wrap } := by
  unfold vlkBump
  dsimp only
  split <;> rfl

theorem vlkReceive_good {port : Nat} {f : VFrame} {dst auth fresh : Bool} {bad k : State → State} {s : State}
    (h1 : f.hcrcOk = true) (h2 : dst = true) (h3 : auth = true) (h4 : fresh = true) (h5 : f.inverted = false) :
    vlkReceive port f dst auth fresh bad k s =
      k (if port = 0 then (vlkBump 1 s).modVlk fun v => { v with lastRx := now (vlkBump 1 s), upOpen := false } else vlkBump 1 s) := by
  unfold vlkReceive notePolarity
  rw [h1, h2, h3, h4, h5]
  rfl

theorem upSeg_good {f : VFrame} {bad k : State → State} {s : State} (h1 : f.hcrcOk = true) (h2 : toOwn f s = true)
    (h3 : f.authOk = true) (h4 : s.vlk.enr = true) (h5 : seqFresh s.vlk.rxSeg s.vlk.seenSeg f.seq = true) (h6 : f.inverted = false) :
    ∃ u : State, upSeg f bad k s = k u ∧ u.vlk.missedB = s.vlk.missedB ∧ u.regs = s.regs ∧ u.vlk.rxImg = s.vlk.rxImg := by
  unfold upSeg
  rw [vlkReceive_good h1 h2 (by rw [h3, h4]; rfl) h5 h6, if_pos rfl]
  have e1 : (vlkBump 1 s).vlk.missedB = s.vlk.missedB := by rw [vlkBump_vlk]
  have e2 : (vlkBump 1 s).regs = s.regs := frame_vlkBump 1 s (m := 0x4000002000) .refl rfl .regs rfl
  have e3 : (vlkBump 1 s).vlk.rxImg = s.vlk.rxImg := by rw [vlkBump_vlk]
  generalize vlkBump 1 s = w at *
  exact ⟨_, rfl, e1, e2, e3⟩

theorem beaconOff_congr {b : Beacon} {s t : State} (h : t.regs = s.regs) : beaconOff b t = beaconOff b s := by
  unfold beaconOff fld; rw [reg_congr h]

theorem beaconTaken_vlk (b : Beacon) (s : State) : (beaconTaken b s).vlk.missedB = 0 ∧ (beaconTaken b s).vlk.failedB = 0 ∧
    (beaconTaken b s).vlk.lastOff = beaconOff b s := by
  unfold beaconTaken
  extract_lets a off good c d
  have ho : off = beaconOff b s := beaconOff_congr (by
    unfold a
    rw [frame_vlkBump _ _ (m := 0x4000002000) .refl rfl .regs rfl]
    exact frame_keyAtBeacon _ s (m := 0x4000000000) .refl rfl .regs rfl)
  have hd : d.vlk.missedB = 0 ∧ d.vlk.failedB = 0 ∧ d.vlk.lastOff = off := by
    have hc : c.vlk.missedB = 0 ∧ c.vlk.failedB = 0 ∧ c.vlk.lastOff = off := ⟨rfl, rfl, rfl⟩
    have k : ∀ w : State, (w = c ∨ w = raiseLine 429 (ev .vlk 0x0F30 (par off) 0 0
        (c.modVlk fun v => { v with locked := true, holdover := false, errNs := b.errNs }))) →
        w.vlk.missedB = 0 ∧ w.vlk.failedB = 0 ∧ w.vlk.lastOff = off := by
      rintro w (rfl | rfl)
      · exact hc
      · change (ev _ _ _ _ _ _).vlk.missedB = 0 ∧ (ev _ _ _ _ _ _).vlk.failedB = 0 ∧ (ev _ _ _ _ _ _).vlk.lastOff = _
        rw [ev_vlk]; exact hc
    apply k
    by_cases hh : c.vlk.agree = 4 ∧ (!c.vlk.locked) = true
    · exact .inr (if_pos hh)
    · exact .inl (if_neg hh)
  clear_value d
  rw [frame_steerCal _ (m := 0x3800000910) .refl rfl .vlk rfl, ← ho]
  exact hd

theorem beaconLost_vlk {s : State} (h : s.vlk.missedB < 3) : (beaconLost s).vlk.missedB = s.vlk.missedB + 1 ∧
    (beaconLost s).vlk.agree = 0 ∧ (beaconLost s).vlk.failedB = s.vlk.failedB := by
  unfold beaconLost
  dsimp only [State.modVlk]
  rw [if_neg (by omega)]
  exact ⟨by dsimp only; omega, rfl, rfl⟩

theorem candleRuns_congr {s t : State} (h1 : t.pwr = s.pwr) (h2 : t.regs = s.regs) (h3 : t.sys = s.sys) (h4 : t.vlk.root = s.vlk.root)
    (h5 : t.hdr = s.hdr) : candleRuns t = candleRuns s := by
  unfold candleRuns isCandle heldBlk hdrOf pdOn fld reg
  rw [h1, h2, h3, h4, h5]

def HasPolled (b : Bool) (k : Nat) (s : State) : Prop := ∃ y ∈ s.vlk.slots, y.k = k ∧ (b = true → y.polled = true)

theorem hasPolled_mod {b : Bool} {k j : Nat} {f : VSlot → VSlot} {s : State} (h : HasPolled b k s) (hf : ∀ x, (f x).k = x.k)
    (hp : ∀ x, b = true → x.polled = true → (f x).polled = true) : HasPolled b k (modSlot j f s) := by
  obtain ⟨y, hy, h1, h2⟩ := h
  refine ⟨_, List.mem_map_of_mem hy, ?_, ?_⟩
  · split
    · rw [hf]; exact h1
    · exact h1
  · intro hb
    split
    · exact hp _ hb (h2 hb)
    · exact h2 hb

theorem hasPolled_poll {k : Nat} {f : VSlot → VSlot} {s : State} (h : HasPolled false k s) (hf : ∀ x, (f x).k = x.k)
    (hp : ∀ x, (f x).polled = true) : HasPolled true k (modSlot k f s) := by
  obtain ⟨y, hy, h1, h2⟩ := h
  refine ⟨_, List.mem_map_of_mem hy, ?_, ?_⟩
  · split
    · rw [hf]; exact h1
    · exact h1
  · intro _
    rw [if_pos (by simpa using h1)]; exact hp _

theorem sendSeg_slots (s : State) : (sendSeg s).vlk.slots = s.vlk.slots ∧ (sendSeg s).vlk.pollNext = s.vlk.pollNext := by
  unfold sendSeg
  rw [vlkBump_vlk]; exact ⟨rfl, rfl⟩

theorem sendChunk_slots (s : State) : (sendChunk s).vlk.slots = s.vlk.slots ∧ (sendChunk s).vlk.pollNext = s.vlk.pollNext := by
  unfold sendChunk
  split
  · exact ⟨rfl, rfl⟩
  · split
    · exact sendSeg_slots _
    · split
      · exact sendSeg_slots _
      · split
        · exact ⟨rfl, rfl⟩
        · split
          · exact ⟨rfl, rfl⟩
          · exact sendSeg_slots _

theorem pollSlot_polled {x : VSlot} {s : State} (h : x ∈ s.vlk.slots) : HasPolled true x.k (pollSlot x s) ∧ (pollSlot x s).vlk.pollNext = x.k := by
  unfold pollSlot
  extract_lets g a0 a b c
  have h0 : HasPolled false x.k s := ⟨x, h, rfl, by simp⟩
  have ha : HasPolled false x.k a := by
    have e : a.vlk.slots = a0.vlk.slots := rfl
    unfold HasPolled
    rw [e]
    change HasPolled false x.k (grantLease x.k s)
    unfold grantLease
    split
    · split
      · exact hasPolled_mod h0 (fun _ => rfl) (fun _ _ h => h)
      · exact h0
    · exact h0
  have hb : HasPolled true x.k b := hasPolled_poll ha (fun _ => rfl) (fun _ => rfl)
  have hc : HasPolled true x.k c := hb
  have hn : c.vlk.pollNext = x.k := rfl
  clear_value c
  unfold HasPolled at *
  rw [(sendChunk_slots _).1, (sendChunk_slots _).2, vlkBump_vlk]
  exact ⟨hc, hn⟩

theorem nextSlot_mem {x : VSlot} {s : State} (h : nextSlot s = some x) : x ∈ s.vlk.slots := by
  unfold nextSlot at h
  split at h
  · next y hy => cases h; exact List.mem_of_find?_eq_some hy
  · exact List.mem_of_mem_head? (by rw [h]; rfl)

theorem pollDone_polled (k : Nat) (more : Bool) (s : State) : ∀ y ∈ (pollDone k more s).vlk.slots, y.k = k → y.polled = false := by
  unfold pollDone
  split
  · intro y hy hk
    change y ∈ mapIf _ _ s.vlk.slots at hy
    unfold mapIf at hy
    rw [List.mem_map] at hy
    obtain ⟨z, hz, rfl⟩ := hy
    split
    · rfl
    · next hzk =>
      rw [if_neg hzk] at hk
      exact absurd (by simpa using hk) hzk
  · next hn =>
    intro y hy hk
    unfold slotAt at hn
    rw [List.find?_eq_none] at hn
    exact absurd (by simpa using hk) (hn y hy)

theorem pollDone_next (k : Nat) (s : State) : (pollDone k false s).vlk.pollNext = k + 1 := by
  unfold pollDone
  split <;> rfl

theorem pollDone_cnt (k : Nat) (m : Bool) (s : State) : (pollDone k m s).vlk.cnt = s.vlk.cnt := by
  unfold pollDone
  split <;> rfl

theorem slotTo_cnt (k : Nat) (st : SlotState) (s : State) : (slotTo k st s).vlk.cnt = s.vlk.cnt := by
  unfold slotTo
  split
  · split <;> rfl
  · rfl

theorem slotSilent_cnt (x : VSlot) (s : State) : (slotSilent x s).vlk.cnt = s.vlk.cnt := by
  unfold slotSilent
  split
  · rfl
  · split
    · exact slotTo_cnt _ _ _
    · change (ev _ _ _ _ _ _).vlk.cnt = _
      rw [ev_vlk, slotTo_cnt]

theorem takeLease_seqUp (mw dur : Nat) (s : State) : (takeLease mw dur s).vlk.seqUp = s.vlk.seqUp := by
  unfold takeLease
  extract_lets a lost b c
  have ha : a.vlk.seqUp = s.vlk.seqUp := by
    change (ite _ _ _ : State).vlk.seqUp = _
    split
    · rw [vlkBump_vlk]
    · rfl
  have hb : b.vlk = a.vlk := frame_setLease _ _ a (m := 0x6000) .refl rfl .vlk rfl
  have hc : c.vlk.seqUp = s.vlk.seqUp := by
    rw [← ha, ← hb]; rfl
  clear_value c
  split
  · change (ev _ _ _ _ _ _).vlk.seqUp = _; rw [ev_vlk]; exact hc
  · exact hc

theorem takePollItem_seqUp (s : State) (i : VItem) : (takePollItem s i).vlk.seqUp = s.vlk.seqUp := by
  unfold takePollItem
  split
  · exact takeLease_seqUp _ _ _
  · split
    · change (takeNonce _ s).vlk.seqUp = _
      rw [frame_takeNonce _ s (m := 0x80000000) .refl rfl .vlk rfl]
    · rfl
  · rfl
  · rfl

theorem takePollItem_may (s : State) (i : VItem) : (takePollItem s i).vlk.stopUntil = s.vlk.stopUntil := by
  unfold takePollItem
  split
  · unfold takeLease
    extract_lets a lost b c
    have ha : a.vlk.stopUntil = s.vlk.stopUntil := by
      change (ite _ _ _ : State).vlk.stopUntil = _
      split
      · rw [vlkBump_vlk]
      · rfl
    have hb : b.vlk = a.vlk := frame_setLease _ _ a (m := 0x6000) .refl rfl .vlk rfl
    have hc : c.vlk.stopUntil = s.vlk.stopUntil := by
      rw [← ha, ← hb]; rfl
    clear_value c
    split
    · change (ev _ _ _ _ _ _).vlk.stopUntil = _; rw [ev_vlk]; exact hc
    · exact hc
  · split
    · change (takeNonce _ s).vlk.stopUntil = _
      rw [frame_takeNonce _ s (m := 0x80000000) .refl rfl .vlk rfl]
    · rfl
  · rfl
  · rfl

theorem sendReply_seqUp {s : State} (h : mayTransmit 0 s = true) : (sendReply s).vlk.seqUp = s.vlk.seqUp + 1 := by
  unfold sendReply
  rw [if_pos h]
  dsimp only
  rw [vlkBump_vlk]
  rfl

theorem elapse_vlk (dt : Nat) (s : State) : (elapse dt s).vlk = (tickState dt s).vlk :=
  frame_calCount dt _ (m := 0x3800000910) .refl rfl .vlk rfl

theorem tick_cnt (dt : Nat) (s : State) : (tickState dt s).vlk.cnt = s.vlk.cnt := rfl

theorem keyAtBeacon_cnt (n : Nat) (s : State) : (keyAtBeacon n s).vlk.cnt = s.vlk.cnt := by
  unfold keyAtBeacon
  have e : ∀ a : State, (match a.vlk.keyNew with
    | some (g, at_) => if at_ ≤ n then a.modVlk fun v => { v with segGen := g, keyNew := none, segFrames := 0, seqDn := 0, segAt := now a } else a
    | none => a).vlk.cnt = a.vlk.cnt := by
    intro a
    split
    · split <;> rfl
    · rfl
  refine (e _).trans ?_
  split
  · split <;> rfl
  · rfl

theorem clearLease_valid (s : State) : (clearLease s).llt.leaseValid = false := by
  unfold clearLease
  extract_lets ends a
  have k : KeepLease a (walkQueue (ends.foldl (fun s t => endGrant t true s) a)) :=
    KeepLease_walkQueue _ (KeepLease.foldl .refl (fun u x h => KeepLease_endGrant _ _ _ h))
  exact k.1

theorem startOrphan_llt (s : State) : (startOrphan s).llt = s.llt := frame_startOrphan s (m := 0x4000000080) .refl rfl .llt rfl

theorem startOrphan_vlk (s : State) : (startOrphan s).vlk.renewAt = s.vlk.renewAt ∧ (startOrphan s).vlk.lostOnce = s.vlk.lostOnce := by
  unfold startOrphan
  split
  · exact ⟨rfl, rfl⟩
  · exact ⟨rfl, rfl⟩

theorem setLease_llt (mw e : Nat) (s : State) : (setLease mw e s).llt.leaseValid = true ∧ (setLease mw e s).llt.leaseMw = mw ∧
    (setLease mw e s).llt.leaseExp = e := by
  unfold setLease
  extract_lets gs wv cp fr a
  have k := KeepLease_walkQueue _ (KeepLease_moveCapped e cp (fr.foldl (fun a t => a + t.mw) 0) a .refl)
  exact ⟨k.1, k.2.1, k.2.2⟩

theorem takeChunk_rx {ident chunk chunks : Nat} {bytes : List Byte} {u : State} (h1 : reg .imgbase 0 0 u ≠ 0) (h2 : chunk < chunks) :
    ∃ i, (takeChunk ident chunk chunks bytes u).vlk.rxImg = some i ∧ i.ident = ident ∧ chunk ∈ i.have_ := by
  unfold takeChunk
  rw [if_neg h1]
  extract_lets i w had i2 v z
  have h3 : i.ident = ident := by
    have : ∀ o : Option VImage, (match o with
        | some i => if i.ident = ident then i else { ident := ident, chunks := chunks, have_ := [], nak := [], rounds := 0, next := 0 }
        | none => ({ ident := ident, chunks := chunks, have_ := [], nak := [], rounds := 0, next := 0 } : VImage)).ident = ident := by
      intro o
      split
      · split
        · assumption
        · rfl
      · rfl
    exact this _
  have hv : v.vlk.rxImg = some { i with have_ := insertNat chunk i.have_ } := rfl
  have hz : z.vlk.rxImg = v.vlk.rxImg := congrArg Vlk.rxImg (ev_vlk _ _ _ _ _ v)
  clear_value z v i
  rw [if_neg (by omega)]
  have key : ∀ z : State, z.vlk.rxImg = v.vlk.rxImg → ∃ i, z.vlk.rxImg = some i ∧ i.ident = ident ∧ chunk ∈ i.have_ := by
    intro z hz
    exact ⟨_, hz.trans hv, h3, mem_insertNat.mpr (.inl rfl)⟩
  apply key
  split
  · split
    · exact hz
    · exact hz
  · rfl

theorem mayTransmit_congr {p : Fin 2} {s t : State} (h : t.vlk.stopUntil = s.vlk.stopUntil) : mayTransmit p t = mayTransmit p s := by
  unfold mayTransmit; rw [h]

theorem freeSlot_evr (k : Nat) (s : State) : (freeSlot k s).evr = s.evr := rfl

theorem storeFields_plain {r : Reg} {n k v : Nat} {s : State} (h : r.mask (· == .rwg) = 0) : ∃ w, storeFields r n k v s = setReg r n k w s := by
  unfold storeFields
  dsimp only
  rw [refuses_plain h, if_neg Bool.false_ne_true]
  exact ⟨_, rfl⟩

theorem toHoldover_locked (s : State) : (toHoldover s).vlk.locked = false ∧ (toHoldover s).vlk.upOpen = s.vlk.upOpen ∧
    (∀ l ∈ s.irq.pending, l ∈ (toHoldover s).irq.pending) := by
  unfold toHoldover
  split
  · next h =>
    have lv : ∀ x : State, (raiseLine 429 x).vlk = x.vlk := fun x => rfl
    have li : ∀ x : State, (raiseLine 429 x).irq.pending = insertNat 429 x.irq.pending := fun x => rfl
    rw [lv, li, ev_vlk, ev_irq]
    exact ⟨rfl, rfl, fun l hl => mem_insertNat.mpr (.inr hl)⟩
  · next h => exact ⟨by simpa using h, rfl, fun l hl => hl⟩

theorem slotAt_modSlot {k : Nat} {f : VSlot → VSlot} {s : State} (hf : ∀ x, (f x).k = x.k) :
    slotAt k (modSlot k f s) = (slotAt k s).map f := by
  unfold slotAt modSlot mapIf
  dsimp only [State.modVlk]
  induction s.vlk.slots with
  | nil => rfl
  | cons x l ih =>
    rw [List.map_cons, List.find?_cons, List.find?_cons]
    by_cases h : x.k = k
    · simp [h, hf]
    · simp only [show (x.k == k) = false by simpa using h, Bool.false_eq_true, if_false]
      exact ih

theorem isLantern_setReg {r : Reg} {n k v : Nat} {s : State} (h : Reg.addr .vlkCfg 0 0 ≠ r.addr n k) : isLantern (setReg r n k v s) = isLantern s := by
  unfold isLantern vlkRuns fld
  rw [reg_setReg_ne h]
  rfl

theorem foldl_fix {α : Type} {f : State → α → State} {l : List α} {s : State} (h : ∀ x ∈ l, f s x = s) : l.foldl f s = s := by
  induction l with
  | nil => rfl
  | cons x l ih => rw [List.foldl_cons, h x (by simp)]; exact ih (fun y hy => h y (List.mem_cons_of_mem _ hy))

theorem retract_none {r : Nat} {u : State} {f : Thm → Thm} (h : ∀ n ∈ channels u, u.sve[sveOf n].loaded = false) :
    retractLoaded r (u.modThm f) = u.modThm f := by
  unfold retractLoaded
  apply foldl_fix
  intro n hn
  rw [if_neg]
  have := h n hn
  change ¬ u.sve[sveOf n].loaded = true
  rw [this]; decide

theorem advanceTo_slots (w : Nat) (s : State) : (advanceTo w s).vlk.slots = s.vlk.slots := by
  unfold advanceTo
  split
  · rw [elapse_vlk]; rfl
  · rfl
end Sys2Proof.Machine
end

