-- ==== Sys2Proof/Laws/Leaves.lean ====
section
/-!
SUPPORT. Tickets of the leave table.
-/

set_option Elab.async false
set_option linter.all false

namespace Sys2Proof.Machine

theorem llt_raiseLine (n : Nat) (s : State) : (raiseLine n s).llt = s.llt := rfl

theorem llt_portLine (n : Nat) (s : State) : (portLine n s).llt = s.llt := rfl

theorem tickets_countClass (c w : Nat) (s : State) : (countClass c w s).llt.tickets = s.llt.tickets ∧ (countClass c w s).llt.orphans = s.llt.orphans := ⟨rfl, rfl⟩

theorem tickets_modPort (p : Fin 16) (f : LltPort → LltPort) (s : State) : (s.modPort p f).llt.tickets = s.llt.tickets ∧ (s.modPort p f).llt.orphans = s.llt.orphans := ⟨rfl, rfl⟩

theorem tickets_order (g : Llt → Nat) (s : State) : (s.modLlt fun l => { l with order := g l }).llt.tickets = s.llt.tickets ∧
   (s.modLlt fun l => { l with order := g l }).llt.orphans = s.llt.orphans := ⟨rfl, rfl⟩

/-- Ticket k is none of the tickets in use, and no orphan is waiting. -/
def NoTicket (k : Nat) (s : State) : Prop := ∀ y ∈ s.llt.tickets, y.num ≠ k

theorem noTicket_congr {k : Nat} {s t : State} (e : t.llt.tickets = s.llt.tickets) (h : NoTicket k s) : NoTicket k t := by
  unfold NoTicket; rw [e]; exact h

theorem noTicket_mod {k j : Nat} {f : Ticket → Ticket} {s : State} (h : NoTicket k s) (hf : ∀ x, (f x).num = x.num) :
    NoTicket k (modTicket j f s) := by
  intro y hy
  change y ∈ mapIf _ _ s.llt.tickets at hy
  unfold mapIf at hy
  obtain ⟨z, hz, rfl⟩ := List.mem_map.mp hy
  split
  · rw [hf]; exact h z hz
  · exact h z hz

theorem noTicket_free {k j : Nat} {s : State} (h : NoTicket k s) : NoTicket k (freeTicket j s) := by
  intro y hy
  exact h y (List.mem_filter.mp hy).1

theorem noTicket_grant {k j : Nat} {s : State} (h : NoTicket k s) : NoTicket k (grantTicket j s) := by
  unfold grantTicket
  split
  · exact h
  · next t ht =>
    extract_lets e s1 s2 s3 s4 s5
    have h1 : NoTicket k s1 := noTicket_mod h (by intro x; rfl)
    have h4 : NoTicket k s4 := by
      refine noTicket_congr ?_ h1
      change (portLine t.port (countClass t.cls 0 s3)).llt.tickets = _
      rw [llt_portLine, (tickets_countClass _ _ _).1]
      exact (tickets_modPort _ _ _).1.trans (tickets_order _ _).1
    clear_value s4
    split
    · exact noTicket_free (s := s5) (by exact h4)
    · exact h4

theorem noTicket_walkFrom {k : Nat} (l : List Ticket) (head : Option Nat) {s : State} (h : NoTicket k s) : NoTicket k (walkFrom l head s) := by
  induction l generalizing head s with
  | nil => unfold walkFrom; exact h
  | cons t l ih =>
    unfold walkFrom
    extract_lets ok
    clear_value ok
    split
    · exact ih _ h
    · split
      · exact ih _ (noTicket_grant h)
      · exact ih _ h

theorem noTicket_walkQueue {k : Nat} {s : State} (h : NoTicket k s) : NoTicket k (walkQueue s) := noTicket_walkFrom _ _ h

/-- A ticket with these values is in use, and no orphan is waiting. -/
def HasTicket (k cls mw p : Nat) (s : State) : Prop :=
  s.llt.orphans = [] ∧ ∃ x ∈ s.llt.tickets, x.num = k ∧ x.cls = cls ∧ x.mw = mw ∧ x.port = p

theorem hasTicket_congr {k cls mw p : Nat} {s t : State} (e : t.llt.tickets = s.llt.tickets) (o : t.llt.orphans = s.llt.orphans)
    (h : HasTicket k cls mw p s) : HasTicket k cls mw p t := by
  unfold HasTicket; rw [e, o]; exact h

theorem hasTicket_mod {k j cls mw p : Nat} {f : Ticket → Ticket} {s : State} (h : HasTicket k cls mw p s)
    (hf : ∀ x, (f x).num = x.num ∧ (f x).cls = x.cls ∧ (f x).mw = x.mw ∧ (f x).port = x.port) : HasTicket k cls mw p (modTicket j f s) := by
  obtain ⟨o, x, hx, a, b, c, d⟩ := h
  refine ⟨o, _, List.mem_map_of_mem hx, ?_⟩
  split
  · obtain ⟨f1, f2, f3, f4⟩ := hf x
    rw [f1, f2, f3, f4]; exact ⟨a, b, c, d⟩
  · exact ⟨a, b, c, d⟩

theorem hasTicket_grant {k j cls mw p : Nat} {s : State} (h : HasTicket k cls mw p s) : HasTicket k cls mw p (grantTicket j s) := by
  unfold grantTicket
  split
  · exact h
  · next t ht =>
    extract_lets e s1 s2 s3 s4 s5
    have h1 : HasTicket k cls mw p s1 := hasTicket_mod h (by intro x; exact ⟨rfl, rfl, rfl, rfl⟩)
    have h4 : HasTicket k cls mw p s4 := by
      refine hasTicket_congr ?_ ?_ h1
      · change (portLine t.port (countClass t.cls 0 s3)).llt.tickets = _
        rw [llt_portLine, (tickets_countClass _ _ _).1]
        exact (tickets_modPort _ _ _).1.trans (tickets_order _ _).1
      · change (portLine t.port (countClass t.cls 0 s3)).llt.orphans = _
        rw [llt_portLine, (tickets_countClass _ _ _).2]
        exact (tickets_modPort _ _ _).2.trans (tickets_order _ _).2
    clear_value s4
    rw [if_neg (by rw [h4.1]; simp)]
    exact h4

theorem hasTicket_walkFrom {k cls mw p : Nat} (l : List Ticket) (head : Option Nat) {s : State} (h : HasTicket k cls mw p s) :
    HasTicket k cls mw p (walkFrom l head s) := by
  induction l generalizing head s with
  | nil => unfold walkFrom; exact h
  | cons t l ih =>
    unfold walkFrom
    extract_lets ok
    clear_value ok
    split
    · exact ih _ h
    · split
      · exact ih _ (hasTicket_grant h)
      · exact ih _ h

theorem hasTicket_submit {p : Fin 16} {cls prio mw inst dl dur k : Nat} {s : State} (h1 : classOpen cls s = true) (h2 : s.llt.orphans = [])
    (h3 : (if mw = 0 then (leaveClass cls).1 else mw) ≤ 2 * (leaveClass cls).1)
    (h4 : (if dur = 0 then (leaveClass cls).2.1 else dur) ≤ (leaveClass cls).2.1)
    (h5 : (if mw = 0 then (leaveClass cls).1 else mw) + lltRsv s ≤ lltBoard s) (h6 : (queuedTickets s).length < 64)
    (h7 : lowestFree 128 (s.llt.tickets.map (·.num)) = some k) :
    HasTicket k cls (if mw = 0 then (leaveClass cls).1 else mw) p (submitLeave p cls prio mw inst dl dur s) := by
  unfold submitLeave
  generalize leaveClass cls = q at *
  obtain ⟨dmw, mdur, dprio, ex⟩ := q
  dsimp only at h3 h4 h5 ⊢
  generalize (if mw = 0 then dmw else mw) = mw' at *
  generalize (if dur = 0 then mdur else dur) = dur' at *
  generalize (if prio = 0 then dprio else prio) = prio' at *
  rw [h1, if_neg (by decide), if_neg (by omega), if_neg (by omega), h7]
  dsimp only [Option.getD_some]
  generalize hv : State.modPort p _ _ = v
  have hh : HasTicket k cls mw' p v := by
    rw [← hv]
    exact ⟨h2, _, List.mem_append_right _ (List.mem_singleton.mpr rfl), rfl, rfl, rfl, rfl⟩
  split
  · exact hasTicket_grant hh
  · exact hasTicket_walkFrom _ _ hh

theorem bits_or80 {v hi lo : Nat} (h : 7 < lo ∨ hi < 7) : bits (v ||| 0x80) hi lo = bits v hi lo := by
  apply Nat.eq_of_testBit_eq
  intro i
  simp only [bits, Nat.testBit_mod_two_pow, Nat.testBit_div_two_pow, Nat.testBit_or]
  by_cases hi : i < hi + 1 - lo
  · have : Nat.testBit 128 (lo + i) = false := by
      rw [show (128 : Nat) = 2 ^ 7 from rfl, Nat.testBit_two_pow]
      simp; omega
    simp [this]
  · simp [hi]

theorem reg_setFld_plain {r q : Reg} {n k m j hi lo v : Nat} {s : State} (h : q.addr m j ≠ r.addr n k) : reg q m j (setFld r n k hi lo v s) = reg q m j s :=
  reg_setReg_ne h

theorem calLoad_src {sec us : Nat} {k : Nat} {s : State} (h : Rising s.regs) (hu : us ≤ 999999) (hk : k < 8) : (calLoad sec us k s).cal.src = k := by
  unfold calLoad
  generalize hw : setReg .calSetsec1 0 0 _ _ = w
  have e : fld .calSetusec 0 0 19 0 w = us := by
    rw [← hw]
    unfold fld
    rw [reg_setReg_ne (by decide), reg_setReg_ne (by decide), reg_setReg _ _ _ _ h]
    simp only [bits]
    omega
  unfold calSet
  extract_lets a sec2 old d step s1 s2 s3
  have c3 : s3.cal.src = k := by
    have : s3.cal = s2.cal := ev_cal _ _ _ _ _ _
    rw [this]
    change k % 8 = k
    omega
  have ha : a = us := e
  clear_value s3
  rw [if_neg (by omega)]
  have kk : ∀ w : State, w.cal = s3.cal → w.cal.src = k := fun w hw => by rw [hw, c3]
  apply kk
  split
  · split
    · exact frame_fireAlarm s3 (m := 0x1800000910) .refl rfl .cal rfl
    · rfl
  · rfl

theorem fld_setFld {r : Reg} {n k v : Nat} {s : State} (h : Rising s.regs) (hv : v < 2 ^ 24) : fld r n k 23 0 (setFld r n k 23 0 v s) = v := by
  unfold fld setFld
  dsimp only
  rw [reg_setReg _ _ _ _ h]
  have e : ((2 ^ (23 + 1 - 0) - 1) <<< 0 : Nat) = 2 ^ 24 - 1 := by decide
  rw [e]
  have hx : ((2 ^ 32 - 1) ^^^ (2 ^ 24 - 1) : Nat) = 2 ^ 32 - 2 ^ 24 := by decide
  have hr := reg_lt r n k s
  generalize reg r n k s = w at *
  have key : ∀ w : Nat, (((w &&& ((2 ^ 32 - 1) ^^^ (2 ^ 24 - 1))) ||| (v &&& (2 ^ 24 - 1))) % 2 ^ 32) % 2 ^ 24 = v := by
    intro w
    apply Nat.eq_of_testBit_eq
    intro i
    rw [Nat.testBit_mod_two_pow, Nat.testBit_mod_two_pow, Nat.testBit_or, Nat.testBit_and, Nat.testBit_and, Nat.testBit_xor,
      Nat.testBit_two_pow_sub_one, Nat.testBit_two_pow_sub_one]
    by_cases hi : i < 24
    · have h32 : i < 32 := by omega
      simp [hi, h32]
    · simp [hi]
      have h2 : 24 ≤ i := by omega
      have h3 : v < 2 ^ i := lt_of_lt_of_le hv (Nat.pow_le_pow_right (by decide) h2)
      exact Nat.testBit_lt_two_pow h3
  simpa [bits] using key w

theorem miVpdRead_vpd (off n : Nat) (s : State) : (miVpdRead off n s).1.hce = s.hce := by
  induction n generalizing s with
  | zero => rfl
  | succ n ih =>
    unfold miVpdRead
    have := ih s
    generalize miVpdRead off n s = q at *
    obtain ⟨u, l⟩ := q
    dsimp only at this ⊢
    split
    · exact this
    · exact this

theorem miVpdRead_list (off n : Nat) (s : State) : (miVpdRead off n s).2.length = n ∧
    ∀ i v, i < n → s.hce.vpd.find? (fun x => x.1 == off + i) = some (off + i, v) → (miVpdRead off n s).2[i]? = some v := by
  induction n generalizing s with
  | zero => exact ⟨rfl, fun i v h => absurd h (by omega)⟩
  | succ n ih =>
    unfold miVpdRead
    have hv := miVpdRead_vpd off n s
    obtain ⟨h1, h2⟩ := ih s
    generalize miVpdRead off n s = q at *
    obtain ⟨u, l⟩ := q
    dsimp only at *
    rw [hv]
    have key : ∀ z : Nat, (∀ v, s.hce.vpd.find? (fun x => x.1 == off + n) = some (off + n, v) → z = v) →
        (l ++ [z]).length = n + 1 ∧ ∀ i v, i < n + 1 → s.hce.vpd.find? (fun x => x.1 == off + i) = some (off + i, v) → (l ++ [z])[i]? = some v := by
      intro z hz
      refine ⟨by rw [List.length_append, h1]; rfl, ?_⟩
      intro i v hi hf
      by_cases hn : i < n
      · rw [List.getElem?_append_left (by omega)]; exact h2 i v hn hf
      · have : i = n := by omega
        subst this
        rw [List.getElem?_append_right (by omega), h1, Nat.sub_self]
        simp [hz v hf]
    split
    · next x hx =>
      exact key _ (by intro v hv; rw [hx] at hv; injection hv with hv; rw [hv])
    · next hx =>
      exact key _ (by intro v hv; rw [hx] at hv; cases hv)
end Sys2Proof.Machine
end

