-- ==== Sys2Proof/Laws/Queues.lean ====
section
/-!
SUPPORT. Completion queues, the read buffers and the scrub.
-/

set_option Elab.async false
set_option linter.all false

namespace Sys2Proof.Machine

theorem raiseVector_cq {c q : Nat} {s : State} {v : Cq} (h : (ctrlAt c s).cqs.find? (fun x => x.id == q) = some v) :
    ∃ w, (ctrlAt c (raiseVector c q s)).cqs.find? (fun x => x.id == q) = some w ∧ w.posted = v.posted := by
  unfold raiseVector
  dsimp only
  rw [h]
  dsimp only
  split
  · exact ⟨v, h, rfl⟩
  · split
    · rw [cqs_modCq _ _ _ (by intro x; rfl), h]; exact ⟨_, rfl, rfl⟩
    · split
      · rw [cqs_modCq _ _ _ (by intro x; rfl), h]; exact ⟨_, rfl, rfl⟩
      · rw [cqs_modCq _ _ _ (by intro x; rfl), h]; exact ⟨_, rfl, rfl⟩

theorem postCqe_cq {c : Cmd} {q : Nat} {v : Cq} {s : State} (h : (ctrlAt c.ctrl s).cqs.find? (fun x => x.id == q) = some v) :
    ∃ w, (ctrlAt c.ctrl (postCqe c q v s)).cqs.find? (fun x => x.id == q) = some w ∧ w.posted.length = v.posted.length + 1 := by
  have key : ∀ f : Cq → Cq, (∀ x, (f x).id = x.id) → (f v).posted.length = v.posted.length + 1 →
      ∃ w, (ctrlAt c.ctrl (raiseVector c.ctrl q (modCq c.ctrl q f s))).cqs.find? (fun x => x.id == q) = some w ∧ w.posted.length = v.posted.length + 1 := by
    intro f hf hl
    have h1 : (ctrlAt c.ctrl (modCq c.ctrl q f s)).cqs.find? (fun x => x.id == q) = some (f v) := by
      rw [cqs_modCq _ _ _ hf, h]; rfl
    obtain ⟨w, a, b⟩ := raiseVector_cq h1
    exact ⟨w, a, by rw [b, hl]⟩
  unfold postCqe
  exact key _ (by intro x; rfl) (by simp)

theorem completed_cq {c : Cmd} {s : State} (h : c.ord = none) : cmdAt c.tag (completed c s) = none ∧
    (ctrlAt c.ctrl (completed c s)).cqs = (ctrlAt c.ctrl s).cqs := by
  unfold completed
  rw [h]
  generalize ha : freeTag c.tag _ = a
  have ha : cmdAt c.tag a = none ∧ (ctrlAt c.ctrl a).cqs = (ctrlAt c.ctrl s).cqs := by
    rw [← ha]
    refine ⟨?_, ?_⟩
    · unfold cmdAt
      rw [List.find?_eq_none]
      intro x hx
      have := (List.mem_filter.mp hx).2
      simpa using this
    · have : ∀ z : State, ctrlAt c.ctrl (freeTag c.tag z) = ctrlAt c.ctrl z := fun _ => rfl
      rw [this, ctrlAt_modCtrl_idx]
  dsimp only
  split
  · split
    · exact ha
    · exact ha
  · exact ha

theorem settle_one {c : Cmd} {o : Nat} {s : State} (h : s.hce.cmds = [c]) (h1 : c.phase = .finished) (h2 : c.ord = some o) : settle s = s := by
  unfold settle
  rw [h]
  simp only [List.foldl_cons, List.foldl_nil]
  unfold settleOne
  rw [h2]
  simp [h1]

theorem bufferEntry_hce (o : Nat) (d : List SectorVal) (s : State) : (bufferEntry o d s).hce = s.hce := rfl

theorem dataArrived_settle {c : Cmd} {o : Nat} {e : LEntry} {s : State} (h1 : s.hce.cmds = [c]) (h2 : opStores c.cmd.op = true) (h3 : c.ord = some o)
    (h4 : piCheck c e.slba [] s = 0) (h5 : e.fua = false) : Done c.tag stOk (settle (dataArrived c e.ord e s)) := by
  unfold dataArrived
  dsimp only
  rw [if_neg (by rw [h4]; simp)]
  rw [if_neg (by rw [h5]; simp)]
  generalize hu : bufferEntry e.ord _ s = u
  have hc : u.hce.cmds = [c] := by rw [← hu, bufferEntry_hce]; exact h1
  generalize (if (e.kind == .append) = true then e.slba else 0) = a
  have hat : cmdAt c.tag u = some c := by unfold cmdAt; rw [hc]; simp
  have d := done_finishDw (tag := c.tag) (st := stOk) (a := a % 2 ^ 32) (b := a / 2 ^ 32) (s := u) (by rw [hat]; rfl)
  have hr : opReads c.cmd.op = false := by
    revert h2; cases c.cmd.op <;> simp [opReads, opStores]
  have k : ∃ x, (finishDw c.tag stOk (a % 2 ^ 32) (a / 2 ^ 32) u).hce.cmds = [x] ∧ x.phase = .finished ∧ x.ord = some o := by
    unfold finishDw
    rw [hat]
    dsimp only
    rw [h3]
    dsimp only
    rw [hr]
    refine ⟨{ c with phase := .finished, status := some stOk, dnr := (stOk != stOk && stOk != stNotReady) && draw 2 u == 1, dw0 := a % 2 ^ 32, dw1 := a / 2 ^ 32 }, ?_, rfl, h3⟩
    change mapIf _ _ (ite _ _ _ : State).hce.cmds = _
    have : ∀ b : Bool, (if b = true then u.drawn else u).hce.cmds = [c] := by intro b; split <;> exact hc
    rw [if_neg (by decide), this]
    simp [mapIf]
  obtain ⟨x, k1, k2, k3⟩ := k
  rw [settle_one k1 k2 k3]
  exact d

theorem exception_hce (tag cause : Nat) (s : State) : (exception tag cause s).hce.ns = s.hce.ns ∧
    (exception tag cause s).hce.tags = s.hce.tags := by
  refine ⟨?_, show Hce.tags _ = _ from KeepTags_exception _ _ s (o := s) .refl⟩
  unfold exception
  split
  · split
    · rfl
    · have hv := ev_hce .hce 0x0110 tag cause 0 s
      generalize ev .hce 0x0110 tag cause 0 s = v at *
      exact Eq.trans (b := v.hce.ns) rfl (congrArg Hce.ns hv)
  · rfl

theorem piCheck_congr {c : Cmd} {a : Nat} {l : List Bool} {s t : State} (h : t.hce.ns = s.hce.ns) : piCheck c a l t = piCheck c a l s := by
  unfold piCheck nsAt; rw [h]

theorem owedRewrites_hce (r : LEntry) (l : List (Nat × Nat)) (s : State) : (owedRewrites r l s).hce = s.hce :=
  frame_owedRewrites r l s (m := 0x20000) .refl rfl .hce rfl

/-- A read whose data is there takes it: what follows runs on a state with the same live commands (R122, R123, R234). -/
theorem readCmd_good {steps : List (Nat × Nat)} {k : Cmd → List SectorVal → State → State} {c : Cmd} {r : LEntry} {s : State}
    (h : Readable c r s) (hu : .unrecovered ∉ readValues r (ladderLost c steps s) s)
    (hp : piCheck c c.cmd.slba (r.sel.map (· == .zeroes)) s = 0) :
    ∃ u, readCmd steps k c s = k c (readValues r (ladderLost c steps s) s) u ∧ u.hce.tags = s.hce.tags := by
  obtain ⟨a1, a2, a3, a4, a5⟩ := h
  have e : (selReady r.sel && (!(selMedia r.sel) || mediaUp s) && !(selKeyWait r.ns r.sel s) && fuaReady c r s) = true := by
    cases hm : selMedia r.sel <;> simp_all
  have b : (readValues r (ladderLost c steps s) s).contains .unrecovered = false := by simpa using hu
  unfold readCmd
  rw [a1]
  dsimp only
  rw [if_pos e, b, if_neg Bool.false_ne_true, if_neg Bool.false_ne_true]
  generalize hv : owedRewrites r steps _ = v
  have hh : v.hce.ns = s.hce.ns ∧ v.hce.tags = s.hce.tags := by
    rw [← hv, owedRewrites_hce]
    split
    · exact exception_hce _ _ _
    · exact ⟨rfl, rfl⟩
  rw [if_neg (by rw [piCheck_congr hh.1, hp]; exact fun h => h rfl)]
  exact ⟨v, rfl, hh.2⟩

/-- A read of which a sector fails its protection information (R123). -/
theorem readCmd_pi {steps : List (Nat × Nat)} {k : Cmd → List SectorVal → State → State} {c : Cmd} {r : LEntry} {s : State}
    (h : Readable c r s) (hu : .unrecovered ∉ readValues r (ladderLost c steps s) s)
    (hp : piCheck c c.cmd.slba (r.sel.map (· == .zeroes)) s ≠ 0) :
    ∃ u, readCmd steps k c s = finish c.tag (piStatus (piCheck c c.cmd.slba (r.sel.map (· == .zeroes)) s)) u ∧ u.hce.tags = s.hce.tags := by
  obtain ⟨a1, a2, a3, a4, a5⟩ := h
  have e : (selReady r.sel && (!(selMedia r.sel) || mediaUp s) && !(selKeyWait r.ns r.sel s) && fuaReady c r s) = true := by
    cases hm : selMedia r.sel <;> simp_all
  have b : (readValues r (ladderLost c steps s) s).contains .unrecovered = false := by simpa using hu
  unfold readCmd
  rw [a1]
  dsimp only
  rw [if_pos e, b, if_neg Bool.false_ne_true, if_neg Bool.false_ne_true]
  generalize hv : owedRewrites r steps _ = v
  have hh : v.hce.ns = s.hce.ns ∧ v.hce.tags = s.hce.tags := by
    rw [← hv, owedRewrites_hce]
    split
    · exact exception_hce _ _ _
    · exact ⟨rfl, rfl⟩
  rw [piCheck_congr hh.1, if_pos hp]
  exact ⟨v, rfl, hh.2⟩

/-- A read with a sector that is not recovered (R18, R152). -/
theorem readCmd_lost {steps : List (Nat × Nat)} {k : Cmd → List SectorVal → State → State} {c : Cmd} {r : LEntry} {s : State}
    (h : Readable c r s) (hu : .unrecovered ∈ readValues r (ladderLost c steps s) s) :
    ∃ u, readCmd steps k c s = finish c.tag stUnrecovered u ∧ u.hce.tags = s.hce.tags := by
  obtain ⟨a1, a2, a3, a4, a5⟩ := h
  have e : (selReady r.sel && (!(selMedia r.sel) || mediaUp s) && !(selKeyWait r.ns r.sel s) && fuaReady c r s) = true := by
    cases hm : selMedia r.sel <;> simp_all
  have b : (readValues r (ladderLost c steps s) s).contains .unrecovered = true := by simpa using hu
  unfold readCmd
  rw [a1]
  dsimp only
  rw [if_pos e, b, if_pos rfl, if_pos rfl]
  refine ⟨_, rfl, ?_⟩
  split
  · exact (exception_hce _ _ _).2
  · rfl

theorem scrub_line {err : DdrErr} {line : Nat} {s u : State}
    (hc : (fld .dmcScrub 0 0 31 31 s = 1 && !s.pwr.selfRefresh && s.dmc.ppr.isNone && pdOn 12 s
      && !(hdrOf .dmc 0 s).freeze) = true) (hl : nextScrub s.dmc.scrubPos s = some line)
    (hu : scrubLine err (some line) s = u) :
    execScrubRead err s = .next (scrubEnd (nextScrub u.dmc.scrubPos u) u) := by
  unfold execScrubRead
  rw [if_pos hc, hl]
  dsimp only
  rw [hu, if_neg (fun h => nomatch h)]
end Sys2Proof.Machine
end

