-- ==== Sys2Proof/Laws/Cache.lean ====
section
/-!
SUPPORT. What the range operations of BCC do to its lines (R335).
-/

set_option Elab.async false
set_option linter.all false

namespace Sys2Proof.Machine

variable {s : State} {c : CLine} {line : Nat}

theorem linesOnce_congr {t : State} (h : t.bcc = s.bcc) : LinesOnce t ↔ LinesOnce s := by unfold LinesOnce; rw [h]

/-- Two slots that hold one line are one slot. -/
theorem LinesOnce.eq (h : LinesOnce s) {x y : CLine} (hx : x ∈ s.bcc.lines) (hy : y ∈ s.bcc.lines) (e : x.line = y.line) : x = y := by
  by_contra n
  exact List.Pairwise.forall_of_forall_of_flip (R := fun a b : CLine => a = b ∨ a.line ≠ b.line) (fun _ _ => .inl rfl)
    (List.Pairwise.imp (fun h => .inr h) h) (List.Pairwise.imp (fun h => .inr (Ne.symm h)) h) hx hy |>.elim n (fun q => q e)

theorem writeBack_bcc (c : CLine) (s : State) : (writeBack c s).bcc = s.bcc := by
  unfold writeBack
  split
  · exact frame_dmcWrite _ _ _ s (m := 0x20000020) .refl rfl .bcc rfl
  · rfl

theorem mem_bccPut {d x : CLine} (h : x ∈ (bccPut d s).bcc.lines) : x = d ∨ x ∈ s.bcc.lines ∧ ¬(x.set_ = d.set_ ∧ x.way = d.way) := by
  rcases List.mem_cons.mp h with e | e
  · exact .inl e
  · have := List.mem_filter.mp e
    exact .inr ⟨this.1, by have := this.2; simp only [Bool.not_eq_true', Bool.and_eq_false_iff, beq_eq_false_iff_ne] at this; exact fun q => this.elim (fun w => w q.1) (fun w => w q.2)⟩

theorem mem_bccDrop {d x : CLine} (h : x ∈ (bccDrop d s).bcc.lines) : x ∈ s.bcc.lines ∧ ¬(x.set_ = d.set_ ∧ x.way = d.way) := by
  have := List.mem_filter.mp h
  exact ⟨this.1, by have := this.2; simp only [Bool.not_eq_true', Bool.and_eq_false_iff, beq_eq_false_iff_ne] at this; exact fun q => this.elim (fun w => w q.1) (fun w => w q.2)⟩

theorem linesOnce_bccDrop (d : CLine) (h : LinesOnce s) : LinesOnce (bccDrop d s) := List.Pairwise.filter _ h

/-- A slot written with the line it held. -/
theorem linesOnce_bccPut {d : CLine} (h : LinesOnce s) (hc : c ∈ s.bcc.lines) (e1 : d.set_ = c.set_) (e2 : d.way = c.way)
    (e3 : d.line = c.line) : LinesOnce (bccPut d s) := by
  refine List.Pairwise.cons (fun x hx => ?_) (List.Pairwise.filter _ h)
  have hx := List.mem_filter.mp hx
  intro e
  have : x = c := h.eq hx.1 hc (by rw [← e, e3])
  subst this
  have := hx.2
  rw [e1, e2] at this
  simp at this

theorem bccHit_some (h : bccHit line s = some c) : c ∈ s.bcc.lines ∧ c.line = line ∧ c.valid = true := by
  unfold bccHit at h
  have h2 := List.find?_some h
  simp only [Bool.and_eq_true, beq_iff_eq] at h2
  exact ⟨List.mem_of_find?_eq_some h, h2.1, h2.2⟩

theorem bccHit_none (h : bccHit line s = none) {x : CLine} (hx : x ∈ s.bcc.lines) (hv : x.valid = true) : x.line ≠ line := by
  unfold bccHit at h
  intro e
  have := List.find?_eq_none.mp h x hx
  simp [e, hv] at this

/-- A slot of another line keeps it; a slot of the line is the one that was hit. -/
theorem LinesOnce.other (h : LinesOnce s) (hc : c ∈ s.bcc.lines) {x : CLine} (hx : x ∈ s.bcc.lines)
    (n : ¬(x.set_ = c.set_ ∧ x.way = c.way)) : x.line ≠ c.line := by
  intro e
  have := h.eq hx hc e
  subst this
  exact n ⟨rfl, rfl⟩

/-- A line invalidated (R335): no slot holds it valid, every other slot stays, and BCC still holds each line once. -/
theorem invalLine_lines (clean : Bool) (line : Nat) (h : LinesOnce s) : LinesOnce (invalLine clean line s) ∧
    ∀ x ∈ (invalLine clean line s).bcc.lines, (x.line = line → x.valid = false) ∧ (x.line ≠ line → x ∈ s.bcc.lines) := by
  unfold invalLine
  cases hc : bccHit line s with
  | none =>
    refine ⟨h, fun x hx => ⟨fun e => ?_, fun _ => hx⟩⟩
    by_contra n
    exact bccHit_none hc hx (by simpa using n) e
  | some c =>
    obtain ⟨c1, c2, c3⟩ := bccHit_some hc
    dsimp only
    have hu : (if clean = true then writeBack c s else s).bcc = s.bcc := by
      split
      · exact writeBack_bcc c s
      · rfl
    generalize (if clean = true then writeBack c s else s) = u at *
    have h' : LinesOnce u := (linesOnce_congr hu).mpr h
    have c1' : c ∈ u.bcc.lines := by rw [hu]; exact c1
    split
    · refine ⟨linesOnce_bccPut h' c1' rfl rfl rfl, fun x hx => ?_⟩
      rcases mem_bccPut hx with e | ⟨e, n⟩
      · exact ⟨fun _ => by rw [e], fun n => absurd (by rw [e]; exact c2) n⟩
      · exact ⟨fun w => absurd (w.trans c2.symm) (h'.other c1' e n), fun _ => by rw [hu] at e; exact e⟩
    · refine ⟨linesOnce_bccDrop c h', fun x hx => ?_⟩
      obtain ⟨e, n⟩ := mem_bccDrop hx
      exact ⟨fun w => absurd (w.trans c2.symm) (h'.other c1' e n), fun _ => by rw [hu] at e; exact e⟩

theorem invalLine_mem (line : Nat) (s : State) : (invalLine false line s).mem = s.mem := by
  unfold invalLine
  cases bccHit line s with
  | none => rfl
  | some c => dsimp only; rw [if_neg Bool.false_ne_true]; split <;> rfl

/-- A line cleaned (R335): no slot holds it valid and dirty. -/
theorem cleanLine_lines (line : Nat) (h : LinesOnce s) : LinesOnce (rangeLine 1 line s).1 ∧
    ∀ x ∈ (rangeLine 1 line s).1.bcc.lines, (x.line = line → x.valid = true → x.dirty = false) ∧ (x.line ≠ line → x ∈ s.bcc.lines) := by
  unfold rangeLine
  cases hc : bccHit line s with
  | none => exact ⟨h, fun x hx => ⟨fun e v => absurd e (bccHit_none hc hx v), fun _ => hx⟩⟩
  | some c =>
    obtain ⟨c1, c2, c3⟩ := bccHit_some hc
    dsimp only
    have hu := writeBack_bcc c s
    generalize writeBack c s = u at *
    have h' : LinesOnce u := (linesOnce_congr hu).mpr h
    have c1' : c ∈ u.bcc.lines := by rw [hu]; exact c1
    refine ⟨linesOnce_bccPut h' c1' rfl rfl rfl, fun x hx => ?_⟩
    rcases mem_bccPut hx with e | ⟨e, n⟩
    · exact ⟨fun _ _ => by rw [e], fun n => absurd (by rw [e]; exact c2) n⟩
    · exact ⟨fun w => absurd (w.trans c2.symm) (h'.other c1' e n), fun _ => by rw [hu] at e; exact e⟩

/-- A line unlocked (R335): no slot holds it locked. -/
theorem unlockLine_lines (line : Nat) (h : LinesOnce s) : LinesOnce (unlockLine line s) ∧
    ∀ x ∈ (unlockLine line s).bcc.lines, (x.line = line → x.locked = false) ∧ (x.line ≠ line → x ∈ s.bcc.lines) := by
  unfold unlockLine
  cases hr : bccReserved line s with
  | some c =>
    have r1 : c ∈ s.bcc.lines := List.mem_of_find?_eq_some hr
    have r2 : c.line = line := by have := List.find?_some hr; simp only [Bool.and_eq_true, beq_iff_eq] at this; exact this.1
    refine ⟨linesOnce_bccDrop c h, fun x hx => ?_⟩
    obtain ⟨e, n⟩ := mem_bccDrop hx
    exact ⟨fun w => absurd (w.trans r2.symm) (h.other r1 e n), fun _ => e⟩
  | none =>
    dsimp only
    cases hc : bccHit line s with
    | none =>
      refine ⟨h, fun x hx => ⟨fun e => ?_, fun _ => hx⟩⟩
      by_cases v : x.valid = true
      · exact absurd e (bccHit_none hc hx v)
      · have := List.find?_eq_none.mp hr x hx
        simp [e, v] at this
    | some c =>
      obtain ⟨c1, c2, c3⟩ := bccHit_some hc
      refine ⟨linesOnce_bccPut h c1 rfl rfl rfl, fun x hx => ?_⟩
      rcases mem_bccPut hx with e | ⟨e, n⟩
      · exact ⟨fun _ => by rw [e], fun n => absurd (by rw [e]; exact c2) n⟩
      · exact ⟨fun w => absurd (w.trans c2.symm) (h.other c1 e n), fun _ => e⟩

/-- A range operation whose step on one line cannot fail and settles that line settles every line of the range. -/
theorem rangeLines_all {op : Nat} {Q : CLine → Prop}
    (step : ∀ l s, LinesOnce s → (rangeLine op l s).2 = true ∧ LinesOnce (rangeLine op l s).1 ∧
      ∀ x ∈ (rangeLine op l s).1.bcc.lines, (x.line = l → Q x) ∧ (x.line ≠ l → x ∈ s.bcc.lines)) :
    ∀ (ls : List Nat) (s : State), LinesOnce s → (rangeLines op ls s).2.1 = 0 ∧
      ∀ x ∈ (rangeLines op ls s).1.bcc.lines, (x.line ∈ ls → Q x) ∧ (x.line ∉ ls → x ∈ s.bcc.lines) := by
  intro ls
  induction ls with
  | nil => intro s h; exact ⟨rfl, fun x hx => ⟨fun e => (List.not_mem_nil e).elim, fun _ => hx⟩⟩
  | cons l t ih =>
    intro s h
    obtain ⟨a, b, d⟩ := step l s h
    obtain ⟨e, f⟩ := ih (rangeLine op l s).1 b
    unfold rangeLines
    dsimp only
    rw [a, if_pos rfl]
    refine ⟨e, fun x hx => ?_⟩
    obtain ⟨f1, f2⟩ := f x hx
    refine ⟨fun w => ?_, fun w => ?_⟩
    · by_cases ht : x.line ∈ t
      · exact f1 ht
      · exact (d x (f2 ht)).1 ((List.mem_cons.mp w).resolve_right ht)
    · exact (d x (f2 (fun q => w (List.mem_cons_of_mem _ q)))).2 (fun q => w (by rw [q]; exact List.mem_cons_self ..))

/-- What the steps on single lines keep, the range operation keeps. -/
theorem rangeLines_keep {α : Type} {op : Nat} {f : State → α} (step : ∀ l s, f (rangeLine op l s).1 = f s) :
    ∀ (ls : List Nat) (s : State), f (rangeLines op ls s).1 = f s := by
  intro ls
  induction ls with
  | nil => intro s; rfl
  | cons l t ih =>
    intro s
    have := (ih (rangeLine op l s).1).trans (step l s)
    unfold rangeLines
    dsimp only
    split <;> exact this

theorem takeWhile_all {p : Nat → Bool} : ∀ {l : List Nat}, (∀ x ∈ l, p x = true) → l.takeWhile p = l
  | [], _ => rfl
  | a :: l, h => by
    rw [List.takeWhile_cons, h a (List.mem_cons_self ..), if_pos rfl, takeWhile_all fun x hx => h x (List.mem_cons_of_mem _ hx)]

/-- The lines of a range operation, by their numbers in DDR5. -/
def rangeList (r : RangeOp) : List Nat := ((List.range r.lines).map (r.first + ·)).map fun l => l - ddrBase / 128

/-- A range operation over installed lines none of which fails ends with success. -/
theorem rangeFinish_ends {op : Nat} {r : RangeOp} (h : RangeRuns op r s) (h7 : op ≠ 7)
    (h0 : (rangeLines op (rangeList r) (s.modBcc fun b => { b with op := none })).2.1 = 0) :
    exec .rangeOpDone s = .next (rangeResult 0 0 (rangeLines op (rangeList r) (s.modBcc fun b => { b with op := none })).1) := by
  obtain ⟨a, b, c, d, -⟩ := h
  subst c
  show Host.Outcome.next (if (hdrOf .bcc 0 s).freeze then s else rangeFinish s) = _
  rw [a, if_neg Bool.false_ne_true]
  congr 1
  unfold rangeFinish
  rw [b]
  dsimp only
  rw [if_neg h7]
  have e : ((List.range r.lines).map (r.first + ·)).takeWhile (fun l => inDdr (l * 128) (s.modBcc fun b => { b with op := none })) =
      (List.range r.lines).map (r.first + ·) := takeWhile_all fun x hx => by
    obtain ⟨j, hj, rfl⟩ := List.mem_map.mp hx
    exact d j (List.mem_range.mp hj)
  rw [e]
  unfold rangeList at h0 ⊢
  generalize rangeLines r.op _ _ = w at *
  rw [h0, if_pos rfl, if_neg (Nat.lt_irrefl _), if_pos rfl]

theorem rangeResult_ended (s : State) (h : s.bcc.op = none) : RangeEnded (rangeResult 0 0 s) := by
  unfold rangeResult
  dsimp only
  rw [if_neg (by decide)]
  refine ⟨h, rfl, rfl, ?_⟩
  simp only [raiseLine]; rw [mem_insertNat]; exact .inl rfl

theorem rangeResult_lines (s : State) : (rangeResult 0 0 s).bcc.lines = s.bcc.lines ∧ (rangeResult 0 0 s).mem = s.mem := by
  unfold rangeResult
  dsimp only
  rw [if_neg (by decide)]
  exact ⟨rfl, rfl⟩

theorem mem_rangeList {r : RangeOp} {j : Nat} (h : j < r.lines) : r.first + j - ddrBase / 128 ∈ rangeList r :=
  List.mem_map_of_mem (f := fun l => l - ddrBase / 128) (List.mem_map_of_mem (f := (r.first + ·)) (List.mem_range.mpr h))

/-- No step on a line touches the operation under way. -/
theorem rangeLine_op (op l : Nat) (s : State) (h : op = 1 ∨ op = 2 ∨ op = 3 ∨ op = 6) : (rangeLine op l s).1.bcc.op = s.bcc.op := by
  have wb : ∀ c (u : State), (writeBack c u).bcc.op = u.bcc.op := fun c u => by rw [writeBack_bcc]
  have inv : ∀ b, (invalLine b l s).bcc.op = s.bcc.op := by
    intro b
    unfold invalLine
    cases bccHit l s with
    | none => rfl
    | some c =>
      dsimp only
      have hu : (if b = true then writeBack c s else s).bcc.op = s.bcc.op := by split <;> simp [wb]
      generalize (if b = true then writeBack c s else s) = u at *
      split <;> exact hu
  rcases h with rfl | rfl | rfl | rfl
  · show (match bccHit l s with | some c => bccPut { c with dirty := false } (writeBack c s) | none => s).bcc.op = _
    cases bccHit l s with
    | none => rfl
    | some c => exact wb c s
  · exact inv false
  · exact inv true
  · show (unlockLine l s).bcc.op = _
    unfold unlockLine
    cases bccReserved l s with
    | some c => rfl
    | none => cases bccHit l s <;> rfl

/-- A range operation that settles each line of its range by Q. -/
theorem rangeOp_settles {op : Nat} {Q : CLine → Prop} {r : RangeOp} (h : RangeRuns op r s) (ho : op = 1 ∨ op = 2 ∨ op = 3 ∨ op = 6)
    (step : ∀ l s, LinesOnce s → (rangeLine op l s).2 = true ∧ LinesOnce (rangeLine op l s).1 ∧
      ∀ x ∈ (rangeLine op l s).1.bcc.lines, (x.line = l → Q x) ∧ (x.line ≠ l → x ∈ s.bcc.lines)) :
    ∃ t, exec .rangeOpDone s = .next t ∧ RangeEnded t ∧
      (∀ j < r.lines, ∀ x ∈ t.bcc.lines, x.line = r.first + j - ddrBase / 128 → Q x) ∧
      t = rangeResult 0 0 (rangeLines op (rangeList r) (s.modBcc fun b => { b with op := none })).1 := by
  have once : LinesOnce (s.modBcc fun b => { b with op := none }) := h.2.2.2.2
  obtain ⟨a, b⟩ := rangeLines_all step (rangeList r) _ once
  refine ⟨_, rangeFinish_ends h (by omega) a, ?_, ?_, rfl⟩
  · refine rangeResult_ended _ ?_
    exact rangeLines_keep (f := fun s => s.bcc.op) (fun l s => rangeLine_op op l s ho) (rangeList r) _
  · intro j hj x hx e
    rw [(rangeResult_lines _).1] at hx
    exact (b x hx).1 (by rw [e]; exact mem_rangeList hj)

end Sys2Proof.Machine
end

