-- ==== Sys2Proof/Laws/FrameExec.lean ====
section
/-!
SUPPORT. For each command, one lemma that says which parts of the state it may change, from those of the operations that
it calls.
-/

set_option Elab.async false
set_option linter.all false

namespace Sys2Proof.Machine

variable {m : Nat} {o : State}

/-- The state that an outcome leaves: where it is no next state, the one before. -/
def after (s : State) : Out → State
  | .next t => t
  | _ => s

theorem FrameB.next {s t : State} (h : FrameB m o t) : FrameB m o (after s (.next t)) := h

theorem frame_withCmd {r : State} tag ops f s (h : FrameB m o s) (k : ∀ c t, FrameB m o t → FrameB m o (f c t)) :
    FrameB m o (after r (withCmd tag ops f s)) := by
  unfold withCmd
  refine FrameB.next ?_
  split
  · split
    · exact k _ _ h
    · exact h
  · exact h

theorem frame_withNs {r : State} tag op f s (h : FrameB m o s) (e : sub 0x18080 m) (k : ∀ c n t, FrameB m o t → FrameB m o (f c n t)) :
    FrameB m o (after r (withNs tag op f s)) := by
  unfold withNs
  refine frame_withCmd _ _ _ _ h fun c t ht => ?_
  split
  · exact k _ _ _ ht
  · exact frame_finish _ _ _ ht e

theorem frame_withSec {r : State} tag b p f s (h : FrameB m o s) (k : ∀ c t, FrameB m o t → FrameB m o (f c t)) :
    FrameB m o (after r (withSec tag b p f s)) := by
  unfold withSec
  refine frame_withCmd _ _ _ _ h fun c t ht => ?_
  split
  · exact k _ _ ht
  · exact ht

theorem frame_setFeature {r : State} tag id f s (h : FrameB m o s) (k : ∀ c v t, FrameB m o t → FrameB m o (f c v t)) :
    FrameB m o (after r (setFeature tag id f s)) := by
  unfold setFeature
  refine frame_withCmd _ _ _ _ h fun c t ht => ?_
  split
  · exact k _ _ _ ht
  · exact ht

theorem frame_mailbox {r : State} n f s (h : FrameB m o s) (e : sub 0x80000010 m) (k : ∀ t, FrameB m o t → FrameB m o (f t)) :
    FrameB m o (after r (mailbox n f s)) := by
  unfold mailbox
  refine FrameB.next ?_
  split
  · refine k _ (frame_setFld _ _ _ _ _ _ _ (frame_State_modSec _ _ h (sub_trans e (by decide))) (sub_trans e (by decide)))
  · exact h

theorem frame_zoneSend {r : State} tag op s (h : FrameB m o s) (e : sub 0x1800038180 m) :
    FrameB m o (after r (zoneSend tag op s)) := by
  unfold zoneSend
  refine frame_withCmd _ _ _ _ h fun c t ht => ?_
  split
  · exact frame_zoneAll _ _ ht e
  · exact frame_zoneOne _ _ ht e

theorem frame_vendorLog {r : State} tag id f s (h : FrameB m o s) (e : sub 0x18080 m) (k : ∀ c t, FrameB m o t → FrameB m o (f c t).1) :
    FrameB m o (after r (vendorLog tag id f s)) := by
  unfold vendorLog
  refine frame_withCmd _ _ _ _ h fun c t ht => ?_
  have := k c t ht
  repeat' first | assumption | (with_reducible first | apply frame_finish | apply frame_sendLog) | exact e | exact FrameB.of_eq (congrArg Prod.fst ‹f c t = _›) this | split | dsimp only

theorem frame_execRegWrite x0 x1 x2 s : FrameB 0x7BFFFFFFFE s (after s (execRegWrite x0 x1 x2 s)) := by
  unfold execRegWrite
  try with_reducible refine FrameB.next ?_
  repeat' first | (with_reducible first | apply FrameB.refl | apply frame_busOp | apply frame_csrWrite | apply frame_dmaError | apply FrameB.ite) | decide | split | unfold id | dsimp only

theorem frame_execBusAccess x0 x1 x2 x3 x4 s : FrameB 0x7BFFFFFFFE s (after s (execBusAccess x0 x1 x2 x3 x4 s)) := by
  unfold execBusAccess
  try with_reducible refine FrameB.next ?_
  repeat' first | (with_reducible first | apply FrameB.refl | apply frame_busOp | apply frame_dmaError | apply FrameB.ite) | decide | split | unfold id | dsimp only

theorem frame_execGuardWordWrite x0 x1 x2 s : FrameB 0x1800000100 s (after s (execGuardWordWrite x0 x1 x2 s)) := by
  unfold execGuardWordWrite
  try with_reducible refine FrameB.next ?_
  repeat' first | (with_reducible first | apply FrameB.refl | apply frame_blockError | apply frame_guardWrite | apply FrameB.ite) | decide | split | unfold id | dsimp only

theorem frame_execGuardWindowExhausted x0 s : FrameB 0x100 s (after s (execGuardWindowExhausted x0 s)) := by
  unfold execGuardWindowExhausted
  try with_reducible refine FrameB.next ?_
  repeat' first | (with_reducible first | apply FrameB.refl | assumption | intro _ | apply frame_State_modHdr | apply FrameB.ite) | decide | split | unfold id | dsimp only

theorem frame_execSoftReset x0 x1 s : FrameB 0x7AFFFFFBB2 s (after s (execSoftReset x0 x1 s)) := by
  unfold execSoftReset
  try with_reducible refine FrameB.next ?_
  repeat' first | (with_reducible first | apply FrameB.refl | assumption | intro _ | apply frame_hdrAccess | apply frame_softReset | apply FrameB.ite) | decide | split | unfold id | dsimp only

theorem frame_execSoftResetComplete x0 s : FrameB 0x6100 s (after s (execSoftResetComplete x0 s)) := by
  unfold execSoftResetComplete
  try with_reducible refine FrameB.next ?_
  repeat' first | (with_reducible first | apply FrameB.refl | assumption | intro _ | apply frame_State_modHdr | apply frame_openClasses | apply frame_walkQueue | apply FrameB.ite) | decide | split | unfold id | dsimp only

theorem frame_execFreeze x0 x1 x2 s : FrameB 0x1800006100 s (after s (execFreeze x0 x1 x2 s)) := by
  unfold execFreeze
  try with_reducible refine FrameB.next ?_
  repeat' first | (with_reducible first | apply FrameB.refl | assumption | intro _ | apply frame_freezeWrite | apply frame_hdrAccess | apply FrameB.ite) | decide | split | unfold id | dsimp only

theorem frame_execErrClear x0 x1 s : FrameB 0x1800000100 s (after s (execErrClear x0 x1 s)) := by
  unfold execErrClear
  try with_reducible refine FrameB.next ?_
  repeat' first | (with_reducible first | apply FrameB.refl | assumption | intro _ | apply frame_errClear | apply frame_hdrAccess | apply FrameB.ite) | decide | split | unfold id | dsimp only

theorem frame_execIrqSetWrite x0 x1 x2 s : FrameB 0x1800000100 s (after s (execIrqSetWrite x0 x1 x2 s)) := by
  unfold execIrqSetWrite
  try with_reducible refine FrameB.next ?_
  repeat' first | (with_reducible first | apply FrameB.refl | assumption | intro _ | apply frame_hdrAccess | apply frame_irqSet | apply FrameB.ite) | decide | split | unfold id | dsimp only

theorem frame_execAllcln x0 x1 x2 s : FrameB 0x18600033A0 s (after s (execAllcln x0 x1 x2 s)) := by
  unfold execAllcln
  try with_reducible refine FrameB.next ?_
  repeat' first | (with_reducible first | apply FrameB.refl | assumption | intro _ | apply frame_State_modSys | apply frame_l1CleanAll | apply FrameB.ite) | decide | split | unfold id | dsimp only

theorem frame_execL1Clean x0 x1 s : FrameB 0x18600031A0 s (after s (execL1Clean x0 x1 s)) := by
  unfold execL1Clean
  try with_reducible refine FrameB.next ?_
  repeat' first | (with_reducible first | apply FrameB.refl | apply frame_l1CleanLine | apply FrameB.ite) | decide | split | unfold id | dsimp only

theorem frame_execL1Invalidate x0 x1 s : FrameB 0x1000 s (after s (execL1Invalidate x0 x1 s)) := by
  unfold execL1Invalidate
  try with_reducible refine FrameB.next ?_
  repeat' first | (with_reducible first | apply FrameB.refl | apply frame_l1Remove | apply FrameB.ite) | decide | split | unfold id | dsimp only

theorem frame_execL1CleanAndInvalidate x0 x1 s : FrameB 0x18600031A0 s (after s (execL1CleanAndInvalidate x0 x1 s)) := by
  unfold execL1CleanAndInvalidate
  try with_reducible refine FrameB.next ?_
  repeat' first | (with_reducible first | apply FrameB.refl | apply frame_l1CleanLine | apply frame_l1Remove | apply FrameB.ite) | decide | split | unfold id | dsimp only

theorem frame_execL1NoOperation x0 x1 s : FrameB 0x0 s (after s (execL1NoOperation x0 x1 s)) := by
  unfold execL1NoOperation
  try with_reducible refine FrameB.next ?_
  repeat' first | (with_reducible first | apply FrameB.refl | apply FrameB.ite) | decide | split | unfold id | dsimp only

theorem frame_execIrqTake x0 s : FrameB 0x2004 s (after s (execIrqTake x0 s)) := by
  unfold execIrqTake
  try with_reducible refine FrameB.next ?_
  repeat' first | (with_reducible first | apply FrameB.refl | apply frame_irqTake | apply FrameB.ite) | decide | split | unfold id | dsimp only

theorem frame_execUirqdone x0 x1 s : FrameB 0x2000 s (after s (execUirqdone x0 x1 s)) := by
  unfold execUirqdone
  try with_reducible refine FrameB.next ?_
  repeat' first | (with_reducible first | apply FrameB.refl | assumption | intro _ | apply FrameB.ite) | fail_if_no_progress ((with_reducible apply FrameB.set_irq); rfl) | decide | split | unfold id | dsimp only

theorem frame_execIrqRouteWrite x0 x1 x2 s : FrameB 0x1800000110 s (after s (execIrqRouteWrite x0 x1 x2 s)) := by
  unfold execIrqRouteWrite
  try with_reducible refine FrameB.next ?_
  repeat' first | (with_reducible first | apply FrameB.refl | assumption | intro _ | apply frame_access | apply frame_routeWrite | apply FrameB.ite) | decide | split | unfold id | dsimp only

theorem frame_execIrqSwset x0 x1 s : FrameB 0x1800002100 s (after s (execIrqSwset x0 x1 s)) := by
  unfold execIrqSwset
  try with_reducible refine FrameB.next ?_
  repeat' first | (with_reducible first | apply FrameB.refl | assumption | intro _ | apply frame_access | apply frame_swset | apply FrameB.ite) | decide | split | unfold id | dsimp only

theorem frame_execTwinDataAccess x0 x1 x2 x3 s : FrameB 0x1800000154 s (after s (execTwinDataAccess x0 x1 x2 x3 s)) := by
  unfold execTwinDataAccess
  try with_reducible refine FrameB.next ?_
  repeat' first | (with_reducible first | apply FrameB.refl | assumption | intro _ | apply frame_access | apply frame_twinAccess | apply FrameB.ite) | decide | split | unfold id | dsimp only

theorem frame_execPor s : FrameB 0x7FFFFFFF72 s (after s (execPor s)) := by
  unfold execPor
  try with_reducible refine FrameB.next ?_
  repeat' first | (with_reducible first | apply FrameB.refl | apply frame_wickReset | apply FrameB.ite) | decide | split | unfold id | dsimp only

theorem frame_execXo32kQualified s : FrameB 0x3800000500 s (after s (execXo32kQualified s)) := by
  unfold execXo32kQualified
  try with_reducible refine FrameB.next ?_
  repeat' first | (with_reducible first | apply FrameB.refl | apply frame_xo32kFails | apply FrameB.ite) | fail_if_no_progress ((with_reducible apply FrameB.set_clk_cal); rfl) | fail_if_no_progress ((with_reducible apply FrameB.set_clk); rfl) | fail_if_no_progress ((with_reducible apply FrameB.set_cal); rfl) | decide | split | unfold id | dsimp only

theorem frame_execXo32kFail s : FrameB 0x7800000F12 s (after s (execXo32kFail s)) := by
  unfold execXo32kFail
  try with_reducible refine FrameB.next ?_
  repeat' first | (with_reducible first | apply FrameB.refl | apply frame_advanceTo | apply frame_xo32kFails | apply FrameB.ite) | decide | split | unfold id | dsimp only

theorem frame_execXo40Fail s : FrameB 0x1A1FB2A590 s (after s (execXo40Fail s)) := by
  unfold execXo40Fail
  try with_reducible refine FrameB.next ?_
  repeat' first | (with_reducible first | apply FrameB.refl | assumption | intro _ | apply frame_ev | apply frame_pllLoss | apply frame_setFld | apply FrameB.foldl (fun _ _ => ?_) | apply FrameB.ite) | fail_if_no_progress ((with_reducible apply FrameB.set_clk); rfl) | decide | split | unfold id | dsimp only

theorem frame_execMainRailsGood x0 x1 s : FrameB 0x7CE00BAFB2 s (after s (execMainRailsGood x0 x1 s)) := by
  unfold execMainRailsGood
  try with_reducible refine FrameB.next ?_
  repeat' first | (with_reducible first | apply FrameB.refl | assumption | intro _ | apply frame_State_drawn | apply frame_State_modSec | apply frame_State_modSys | apply frame_elapse | apply frame_ev | apply frame_startCore | apply frame_wakeRecord | apply FrameB.ite) | fail_if_no_progress ((with_reducible apply FrameB.set_sup); rfl) | decide | split | unfold id | dsimp only

theorem frame_execRailFault x0 s : FrameB 0x5FFFFFFFF0 s (after s (execRailFault x0 s)) := by
  unfold execRailFault
  try with_reducible refine FrameB.next ?_
  repeat' first | (with_reducible first | apply FrameB.refl | assumption | intro _ | apply frame_State_modPwr | apply frame_State_modSys | apply frame_darkEntry | apply frame_ev | apply frame_lossStart | apply frame_raiseLine | apply FrameB.ite) | fail_if_no_progress ((with_reducible apply FrameB.set_sup); rfl) | decide | split | unfold id | dsimp only

theorem frame_execUartRecoveryImage x0 s : FrameB 0x80000290 s (after s (execUartRecoveryImage x0 s)) := by
  unfold execUartRecoveryImage
  try with_reducible refine FrameB.next ?_
  repeat' first | (with_reducible first | apply FrameB.refl | apply frame_startImage | apply FrameB.ite) | decide | split | unfold id | dsimp only

theorem frame_execPerstDeassert x0 s : FrameB 0xA000 s (after s (execPerstDeassert x0 s)) := by
  unfold execPerstDeassert
  try with_reducible refine FrameB.next ?_
  repeat' first | (with_reducible first | apply FrameB.refl | assumption | intro _ | apply frame_State_modCtrl | apply frame_trainLink | apply FrameB.ite) | decide | split | unfold id | dsimp only

theorem frame_execPerstAssert x0 s : FrameB 0x1AEDB3F9A0 s (after s (execPerstAssert x0 s)) := by
  unfold execPerstAssert
  try with_reducible refine FrameB.next ?_
  repeat' first | (with_reducible first | apply FrameB.refl | assumption | intro _ | apply frame_State_modCtrl | apply frame_perstAction | apply FrameB.ite) | decide | split | unfold id | dsimp only

theorem frame_execConfigRequest x0 x1 s : FrameB 0x8000 s (after s (execConfigRequest x0 x1 s)) := by
  unfold execConfigRequest
  try with_reducible refine FrameB.next ?_
  repeat' first | (with_reducible first | apply FrameB.refl | assumption | intro _ | apply frame_State_modCtrl | apply FrameB.ite) | decide | split | unfold id | dsimp only

theorem frame_execDmcInitGo x0 s : FrameB 0x1820000100 s (after s (execDmcInitGo x0 s)) := by
  unfold execDmcInitGo
  try with_reducible refine FrameB.next ?_
  repeat' first | (with_reducible first | apply FrameB.refl | assumption | intro _ | apply frame_access | apply frame_dmcInitGo | apply FrameB.ite) | decide | split | unfold id | dsimp only

theorem frame_execDmcInitDone x0 s : FrameB 0x18600033AC s (after s (execDmcInitDone x0 s)) := by
  unfold execDmcInitDone
  try with_reducible refine FrameB.next ?_
  repeat' first | (with_reducible first | apply FrameB.refl | assumption | intro _ | apply frame_State_modSys | apply frame_releaseHeld | apply frame_zeroMibs | apply FrameB.ite) | fail_if_no_progress ((with_reducible apply FrameB.set_dmc); rfl) | decide | split | unfold id | dsimp only

theorem frame_execDmcInitHeldAccess x0 s : FrameB 0x18600031AC s (after s (execDmcInitHeldAccess x0 s)) := by
  unfold execDmcInitHeldAccess
  try with_reducible refine FrameB.next ?_
  repeat' first | (with_reducible first | apply FrameB.refl | apply frame_releaseHeld | apply frame_zeroMibs | apply FrameB.ite) | decide | split | unfold id | dsimp only

theorem frame_execReadySet x0 x1 s : FrameB 0x1800008300 s (after s (execReadySet x0 x1 s)) := by
  unfold execReadySet
  try with_reducible refine FrameB.next ?_
  repeat' first | (with_reducible first | apply FrameB.refl | assumption | intro _ | apply frame_access | apply frame_writeRdyctl | apply FrameB.ite) | decide | split | unfold id | dsimp only

theorem frame_execReadyClr x0 s : FrameB 0x1800008300 s (after s (execReadyClr x0 s)) := by
  unfold execReadyClr
  try with_reducible refine FrameB.next ?_
  repeat' first | (with_reducible first | apply FrameB.refl | assumption | intro _ | apply frame_access | apply frame_writeRdyctl | apply FrameB.ite) | decide | split | unfold id | dsimp only

theorem frame_execControllerEnable x0 x1 s : FrameB 0x8000 s (after s (execControllerEnable x0 x1 s)) := by
  unfold execControllerEnable
  try with_reducible refine FrameB.next ?_
  repeat' first | (with_reducible first | apply FrameB.refl | assumption | intro _ | apply frame_State_modCtrl | apply FrameB.ite) | decide | split | unfold id | dsimp only

theorem frame_execControllerReset x0 s : FrameB 0x1AEDB3F9A0 s (after s (execControllerReset x0 s)) := by
  unfold execControllerReset
  try with_reducible refine FrameB.next ?_
  repeat' first | (with_reducible first | apply FrameB.refl | apply frame_stopController | apply FrameB.ite) | decide | split | unfold id | dsimp only

theorem frame_execFunctionLevelReset x0 s : FrameB 0x1AEDB3F9A0 s (after s (execFunctionLevelReset x0 s)) := by
  unfold execFunctionLevelReset
  try with_reducible refine FrameB.next ?_
  repeat' first | (with_reducible first | apply FrameB.refl | apply frame_linkReset | apply FrameB.ite) | decide | split | unfold id | dsimp only

theorem frame_execLinkDown x0 s : FrameB 0x1AEDB3F9A0 s (after s (execLinkDown x0 s)) := by
  unfold execLinkDown
  try with_reducible refine FrameB.next ?_
  repeat' first | (with_reducible first | apply FrameB.refl | apply frame_linkReset | apply FrameB.ite) | decide | split | unfold id | dsimp only

theorem frame_execNamespaceReady x0 s : FrameB 0x80028000 s (after s (execNamespaceReady x0 s)) := by
  unfold execNamespaceReady
  try with_reducible refine FrameB.next ?_
  repeat' first | (with_reducible first | apply FrameB.refl | assumption | intro _ | apply frame_State_modHce | apply frame_deallocWiped | apply FrameB.ite) | decide | split | unfold id | dsimp only

theorem frame_execResetNAssert s : FrameB 0x1A1DB7EB80 s (after s (execResetNAssert s)) := by
  unfold execResetNAssert
  try with_reducible refine FrameB.next ?_
  repeat' first | (with_reducible first | apply FrameB.refl | assumption | intro _ | apply frame_State_modSys | apply frame_resetSteps | apply FrameB.ite) | decide | split | unfold id | dsimp only

theorem frame_execCoreDomainHold x0 s : FrameB 0x5FFFFFFFF0 s (after s (execCoreDomainHold x0 s)) := by
  unfold execCoreDomainHold
  try with_reducible refine FrameB.next ?_
  repeat' first | (with_reducible first | apply FrameB.refl | assumption | intro _ | apply frame_State_modSys | apply frame_abandonCommit | apply frame_coreReset | apply FrameB.ite) | decide | split | unfold id | dsimp only

theorem frame_execResetNRelease x0 s : FrameB 0x18E00BAFB0 s (after s (execResetNRelease x0 s)) := by
  unfold execResetNRelease
  try with_reducible refine FrameB.next ?_
  repeat' first | (with_reducible first | apply FrameB.refl | assumption | intro _ | apply frame_State_modSys | apply frame_coldStart | apply FrameB.ite) | decide | split | unfold id | dsimp only

theorem frame_execNvmSubsystemReset x0 x1 s : FrameB 0x1AFDB7FBA0 s (after s (execNvmSubsystemReset x0 x1 s)) := by
  unfold execNvmSubsystemReset
  try with_reducible refine FrameB.next ?_
  repeat' first | (with_reducible first | apply FrameB.refl | apply frame_subsystemReset | apply FrameB.ite) | decide | split | unfold id | dsimp only

theorem frame_execWatchdogEnable x0 x1 s : FrameB 0x1800000310 s (after s (execWatchdogEnable x0 x1 s)) := by
  unfold execWatchdogEnable
  try with_reducible refine FrameB.next ?_
  repeat' first | (with_reducible first | apply FrameB.refl | assumption | intro _ | apply frame_access | apply frame_writeWdtctl | apply FrameB.ite) | decide | split | unfold id | dsimp only

theorem frame_execWatchdogKick x0 x1 s : FrameB 0x1800000300 s (after s (execWatchdogKick x0 x1 s)) := by
  unfold execWatchdogKick
  try with_reducible refine FrameB.next ?_
  repeat' first | (with_reducible first | apply FrameB.refl | assumption | intro _ | apply frame_access | apply frame_writeWdtkick | apply FrameB.ite) | decide | split | unfold id | dsimp only

theorem frame_execWatchdogPeriod s : FrameB 0x7800000B12 s (after s (execWatchdogPeriod s)) := by
  unfold execWatchdogPeriod
  try with_reducible refine FrameB.next ?_
  repeat' first | (with_reducible first | apply FrameB.refl | assumption | intro _ | apply frame_State_modSys | apply frame_advanceTo | apply frame_ev | apply frame_setIrqStat | apply FrameB.ite) | decide | split | unfold id | dsimp only

theorem frame_execWatchdogReset s : FrameB 0x7A1DB7EB92 s (after s (execWatchdogReset s)) := by
  unfold execWatchdogReset
  try with_reducible refine FrameB.next ?_
  repeat' first | (with_reducible first | apply FrameB.refl | assumption | intro _ | apply frame_State_modSys | apply frame_advanceTo | apply frame_ev | apply frame_resetSteps | apply FrameB.ite) | decide | split | unfold id | dsimp only

theorem frame_execPowerLoss s : FrameB 0x7FFFFFFFF2 s (after s (execPowerLoss s)) := by
  unfold execPowerLoss
  try with_reducible refine FrameB.next ?_
  repeat' first | (with_reducible first | apply FrameB.refl | apply frame_elapse | apply frame_lossStart | apply FrameB.ite) | decide | split | unfold id | dsimp only

theorem frame_execPreqGo x0 x1 s : FrameB 0x186000B9BC s (after s (execPreqGo x0 x1 s)) := by
  unfold execPreqGo
  try with_reducible refine FrameB.next ?_
  repeat' first | (with_reducible first | apply FrameB.refl | assumption | intro _ | apply frame_access | apply frame_writePreq | apply FrameB.ite) | decide | split | unfold id | dsimp only

theorem frame_execPowerStateEntered s : FrameB 0x5FFFFFFFFC s (after s (execPowerStateEntered s)) := by
  unfold execPowerStateEntered
  try with_reducible refine FrameB.next ?_
  repeat' first | (with_reducible first | apply FrameB.refl | apply frame_powerEntered | apply FrameB.ite) | decide | split | unfold id | dsimp only

theorem frame_execPdoffWrite x0 x1 s : FrameB 0x180003E990 s (after s (execPdoffWrite x0 x1 s)) := by
  unfold execPdoffWrite
  try with_reducible refine FrameB.next ?_
  repeat' first | (with_reducible first | apply FrameB.refl | assumption | intro _ | apply frame_access | apply frame_writePdoff | apply FrameB.ite) | decide | split | unfold id | dsimp only

theorem frame_execWakeSource x0 x1 x2 s : FrameB 0x1CE00BFFBC s (after s (execWakeSource x0 x1 x2 s)) := by
  unfold execWakeSource
  try with_reducible refine FrameB.next ?_
  repeat' first | (with_reducible first | apply FrameB.refl | apply frame_noteWake | apply frame_wakeAct | apply FrameB.ite) | decide | split | unfold id | dsimp only

theorem frame_execClkDomWrite x0 x1 x2 s : FrameB 0x1800000110 s (after s (execClkDomWrite x0 x1 x2 s)) := by
  unfold execClkDomWrite
  try with_reducible refine FrameB.next ?_
  repeat' first | (with_reducible first | apply FrameB.refl | assumption | intro _ | apply frame_access | apply frame_writeClkDom | apply FrameB.ite) | decide | split | unfold id | dsimp only

theorem frame_execPllLocked x0 s : FrameB 0x1860003DAC s (after s (execPllLocked x0 s)) := by
  unfold execPllLocked
  try with_reducible refine FrameB.next ?_
  repeat' first | (with_reducible first | apply FrameB.refl | apply frame_refreshEnds | apply frame_setLock | apply FrameB.ite) | decide | split | unfold id | dsimp only

theorem frame_execPllLockLoss x0 s : FrameB 0x1A1FB2A590 s (after s (execPllLockLoss x0 s)) := by
  unfold execPllLockLoss
  try with_reducible refine FrameB.next ?_
  repeat' first | (with_reducible first | apply FrameB.refl | apply frame_pllLoss | apply FrameB.ite) | decide | split | unfold id | dsimp only

theorem frame_execPsEntryRestart s : FrameB 0x786001BBB2 s (after s (execPsEntryRestart s)) := by
  unfold execPsEntryRestart
  try with_reducible refine FrameB.next ?_
  repeat' first | (with_reducible first | apply FrameB.refl | assumption | intro _ | apply frame_State_modPwr | apply frame_elapse | apply frame_psProceed | apply FrameB.ite) | decide | split | unfold id | dsimp only

theorem frame_execLeaveRequest x0 x1 x2 s : FrameB 0x1800006110 s (after s (execLeaveRequest x0 x1 x2 s)) := by
  unfold execLeaveRequest
  try with_reducible refine FrameB.next ?_
  repeat' first | (with_reducible first | apply FrameB.refl | assumption | intro _ | apply frame_access | apply frame_writeReqb | apply FrameB.ite) | decide | split | unfold id | dsimp only

theorem frame_execLeaveRelease x0 x1 x2 s : FrameB 0x1800006100 s (after s (execLeaveRelease x0 x1 x2 s)) := by
  unfold execLeaveRelease
  try with_reducible refine FrameB.next ?_
  repeat' first | (with_reducible first | apply FrameB.refl | assumption | intro _ | apply frame_access | apply frame_writeOp | apply FrameB.ite) | decide | split | unfold id | dsimp only

theorem frame_execLeaveRenew x0 x1 x2 s : FrameB 0x1800006100 s (after s (execLeaveRenew x0 x1 x2 s)) := by
  unfold execLeaveRenew
  try with_reducible refine FrameB.next ?_
  repeat' first | (with_reducible first | apply FrameB.refl | assumption | intro _ | apply frame_access | apply frame_writeOp | apply FrameB.ite) | decide | split | unfold id | dsimp only

theorem frame_execLeaveExpiry x0 s : FrameB 0x7800006B12 s (after s (execLeaveExpiry x0 s)) := by
  unfold execLeaveExpiry
  try with_reducible refine FrameB.next ?_
  repeat' first | (with_reducible first | apply FrameB.refl | apply frame_advanceTo | apply frame_endGrant | apply frame_walkQueue | apply FrameB.ite) | decide | split | unfold id | dsimp only

theorem frame_execDrawAfterExpiry x0 s : FrameB 0x7800004B12 s (after s (execDrawAfterExpiry x0 s)) := by
  unfold execDrawAfterExpiry
  try with_reducible refine FrameB.next ?_
  repeat' first | (with_reducible first | apply FrameB.refl | assumption | intro _ | apply frame_State_modLlt | apply frame_elapse | apply frame_ev | apply FrameB.ite) | decide | split | unfold id | dsimp only

theorem frame_execLeaveDeadline x0 s : FrameB 0x7800006B12 s (after s (execLeaveDeadline x0 s)) := by
  unfold execLeaveDeadline
  try with_reducible refine FrameB.next ?_
  repeat' first | (with_reducible first | apply FrameB.refl | assumption | intro _ | apply frame_State_modLlt | apply frame_State_modPort | apply frame_advanceTo | apply frame_countClass | apply frame_ev | apply frame_freeTicket | apply frame_guarantee | apply frame_leaveLost | apply frame_portLine | apply frame_walkQueue | apply FrameB.ite) | decide | split | unfold id | dsimp only

theorem frame_execThermalCeilingStep s : FrameB 0x7800006B12 s (after s (execThermalCeilingStep s)) := by
  unfold execThermalCeilingStep
  try with_reducible refine FrameB.next ?_
  repeat' first | (with_reducible first | apply FrameB.refl | apply frame_elapse | apply frame_thermLower | apply frame_thermRaise | apply frame_walkQueue | apply FrameB.ite) | decide | split | unfold id | dsimp only

theorem frame_execSqTailDoorbell x0 x1 x2 x3 s : FrameB 0x186000B9AC s (after s (execSqTailDoorbell x0 x1 x2 x3 s)) := by
  unfold execSqTailDoorbell
  try with_reducible refine FrameB.next ?_
  repeat' first | (with_reducible first | apply FrameB.refl | assumption | intro _ | apply frame_modSq | apply frame_raiseLine | apply frame_unwindEntry | apply FrameB.ite) | decide | split | unfold id | dsimp only

theorem frame_execCqHeadDoorbell x0 x1 x2 s : FrameB 0x186000B9AC s (after s (execCqHeadDoorbell x0 x1 x2 s)) := by
  unfold execCqHeadDoorbell
  try with_reducible refine FrameB.next ?_
  repeat' first | (with_reducible first | apply FrameB.refl | assumption | intro _ | apply frame_modCq | apply frame_unwindEntry | apply FrameB.ite) | decide | split | unfold id | dsimp only

theorem frame_execCommandFetch x0 s : FrameB 0x18E003F9AC s (after s (execCommandFetch x0 s)) := by
  unfold execCommandFetch
  try with_reducible refine FrameB.next ?_
  repeat' first | (with_reducible first | apply FrameB.refl | apply frame_checkPause | apply frame_enterCmd | apply frame_fetchNext | apply FrameB.ite) | decide | split | unfold id | dsimp only

theorem frame_execFetchPauseEnd s : FrameB 0x180000A100 s (after s (execFetchPauseEnd s)) := by
  unfold execFetchPauseEnd
  try with_reducible refine FrameB.next ?_
  repeat' first | (with_reducible first | apply FrameB.refl | assumption | intro _ | apply frame_State_modHce | apply frame_ev | apply frame_raiseLine | apply FrameB.ite) | decide | split | unfold id | dsimp only

theorem frame_execWriteTransferStart x0 s : FrameB 0x8000 s (after s (execWriteTransferStart x0 s)) := by
  unfold execWriteTransferStart
  try with_reducible refine FrameB.next ?_
  repeat' first | (with_reducible first | apply FrameB.refl | assumption | intro _ | apply frame_modCmd | apply FrameB.ite) | decide | split | unfold id | dsimp only

theorem frame_execDataTransferComplete x0 s : FrameB 0x188003A180 s (after s (execDataTransferComplete x0 s)) := by
  unfold execDataTransferComplete
  try with_reducible refine FrameB.next ?_
  repeat' first | (with_reducible first | apply FrameB.refl | assumption | intro _ | apply frame_dataArrived | apply frame_settle | apply FrameB.ite) | decide | split | unfold id | dsimp only

theorem frame_execHostMemoryError x0 s : FrameB 0x180003A180 s (after s (execHostMemoryError x0 s)) := by
  unfold execHostMemoryError
  try with_reducible refine FrameB.next ?_
  repeat' first | (with_reducible first | apply FrameB.refl | apply frame_dropWrite | apply frame_ev | apply frame_exception | apply frame_finish | apply FrameB.ite) | decide | split | unfold id | dsimp only

theorem frame_execCompletionPost x0 s : FrameB 0x188003A980 s (after s (execCompletionPost x0 s)) := by
  unfold execCompletionPost
  try with_reducible refine FrameB.next ?_
  repeat' first | (with_reducible first | apply FrameB.refl | assumption | intro _ | apply frame_State_modHce | apply frame_completed | apply frame_postCqe | apply FrameB.ite) | decide | split | unfold id | dsimp only

theorem frame_execInterruptCoalescingTimeout x0 x1 s : FrameB 0x8000 s (after s (execInterruptCoalescingTimeout x0 x1 s)) := by
  unfold execInterruptCoalescingTimeout
  try with_reducible refine FrameB.next ?_
  repeat' first | (with_reducible first | apply FrameB.refl | assumption | intro _ | apply frame_modCq | apply FrameB.ite) | decide | split | unfold id | dsimp only

theorem frame_execRecoveryTimeLimitExpiry x0 s : FrameB 0x7800038B92 s (after s (execRecoveryTimeLimitExpiry x0 s)) := by
  unfold execRecoveryTimeLimitExpiry
  try with_reducible refine FrameB.next ?_
  repeat' first | (with_reducible first | apply FrameB.refl | apply frame_advanceTo | apply frame_limitPassed | apply FrameB.ite) | decide | split | unfold id | dsimp only

theorem frame_execAbortMatch x0 x1 s : FrameB 0x1AEDB3F1B0 s (after s (execAbortMatch x0 x1 s)) := by
  unfold execAbortMatch
  try with_reducible refine FrameB.next ?_
  repeat' first | (with_reducible first | apply FrameB.refl | assumption | intro _ | apply frame_access | apply frame_writeAbortReq | apply FrameB.ite) | decide | split | unfold id | dsimp only

theorem frame_execRead x0 x1 s : FrameB 0x180003A180 s (after s (execRead x0 x1 s)) := by
  unfold execRead
  try with_reducible refine FrameB.next ?_
  repeat' first | (with_reducible first | apply FrameB.refl | assumption | intro _ | apply frame_withCmd | apply frame_State_modCtrl | apply frame_finish | apply frame_readCmd | apply FrameB.ite) | decide | split | unfold id | dsimp only

theorem frame_execWrite x0 s : FrameB 0x8000 s (after s (execWrite x0 s)) := by
  unfold execWrite
  try with_reducible refine FrameB.next ?_
  repeat' first | (with_reducible first | apply FrameB.refl | assumption | intro _ | apply frame_withCmd | apply frame_startWrite | apply FrameB.ite) | decide | split | unfold id | dsimp only

theorem frame_execZoneAppend x0 s : FrameB 0x8000 s (after s (execZoneAppend x0 s)) := by
  unfold execZoneAppend
  try with_reducible refine FrameB.next ?_
  repeat' first | (with_reducible first | apply FrameB.refl | assumption | intro _ | apply frame_withCmd | apply frame_startWrite | apply FrameB.ite) | decide | split | unfold id | dsimp only

theorem frame_execFlush x0 s : FrameB 0x18080 s (after s (execFlush x0 s)) := by
  unfold execFlush
  try with_reducible refine FrameB.next ?_
  repeat' first | (with_reducible first | apply FrameB.refl | assumption | intro _ | apply frame_withCmd | apply frame_finish | apply FrameB.ite) | decide | split | unfold id | dsimp only

theorem frame_execCompare x0 x1 s : FrameB 0x180003A180 s (after s (execCompare x0 x1 s)) := by
  unfold execCompare
  try with_reducible refine FrameB.next ?_
  repeat' first | (with_reducible first | apply FrameB.refl | assumption | intro _ | apply frame_withCmd | apply frame_finish | apply frame_readCmd | apply FrameB.ite) | decide | split | unfold id | dsimp only

theorem frame_execWriteUncorrectable x0 s : FrameB 0x188003A180 s (after s (execWriteUncorrectable x0 s)) := by
  unfold execWriteUncorrectable
  try with_reducible refine FrameB.next ?_
  repeat' first | (with_reducible first | apply FrameB.refl | assumption | intro _ | apply frame_withCmd | apply frame_noData | apply FrameB.ite) | decide | split | unfold id | dsimp only

theorem frame_execWriteZeroes x0 s : FrameB 0x188003A180 s (after s (execWriteZeroes x0 s)) := by
  unfold execWriteZeroes
  try with_reducible refine FrameB.next ?_
  repeat' first | (with_reducible first | apply FrameB.refl | assumption | intro _ | apply frame_withCmd | apply frame_noData | apply FrameB.ite) | decide | split | unfold id | dsimp only

theorem frame_execVerify x0 x1 s : FrameB 0x180003A180 s (after s (execVerify x0 x1 s)) := by
  unfold execVerify
  try with_reducible refine FrameB.next ?_
  repeat' first | (with_reducible first | apply FrameB.refl | assumption | intro _ | apply frame_withCmd | apply frame_finish | apply frame_readCmd | apply FrameB.ite) | decide | split | unfold id | dsimp only

theorem frame_execDatasetManagement x0 s : FrameB 0x188003A180 s (after s (execDatasetManagement x0 s)) := by
  unfold execDatasetManagement
  try with_reducible refine FrameB.next ?_
  repeat' first | (with_reducible first | apply FrameB.refl | assumption | intro _ | apply frame_withCmd | apply frame_noData | apply FrameB.ite) | decide | split | unfold id | dsimp only

theorem frame_execReservationRegister x0 s : FrameB 0x18080 s (after s (execReservationRegister x0 s)) := by
  unfold execReservationRegister
  try with_reducible refine FrameB.next ?_
  repeat' first | (with_reducible first | apply FrameB.refl | assumption | intro _ | apply frame_withNs | apply frame_finish | apply frame_modNs | apply FrameB.ite) | decide | split | unfold id | dsimp only

theorem frame_execReservationReport x0 s : FrameB 0x18080 s (after s (execReservationReport x0 s)) := by
  unfold execReservationReport
  try with_reducible refine FrameB.next ?_
  repeat' first | (with_reducible first | apply FrameB.refl | assumption | intro _ | apply frame_withNs | apply frame_State_drawn | apply frame_finish | apply frame_giveData | apply FrameB.ite) | decide | split | unfold id | dsimp only

theorem frame_execReservationAcquire x0 s : FrameB 0x1AEDB3F1A0 s (after s (execReservationAcquire x0 s)) := by
  unfold execReservationAcquire
  try with_reducible refine FrameB.next ?_
  repeat' first | (with_reducible first | apply FrameB.refl | assumption | intro _ | apply frame_withNs | apply frame_finish | apply frame_modNs | apply frame_preempt | apply FrameB.ite) | decide | split | unfold id | dsimp only

theorem frame_execReservationRelease x0 s : FrameB 0x18080 s (after s (execReservationRelease x0 s)) := by
  unfold execReservationRelease
  try with_reducible refine FrameB.next ?_
  repeat' first | (with_reducible first | apply FrameB.refl | assumption | intro _ | apply frame_withNs | apply frame_finish | apply frame_modNs | apply FrameB.ite) | decide | split | unfold id | dsimp only

theorem frame_execZoneOpen x0 s : FrameB 0x1800038180 s (after s (execZoneOpen x0 s)) := by
  unfold execZoneOpen
  try with_reducible refine FrameB.next ?_
  repeat' first | (with_reducible first | apply FrameB.refl | assumption | intro _ | apply frame_zoneSend | apply FrameB.ite) | decide | split | unfold id | dsimp only

theorem frame_execZoneClose x0 s : FrameB 0x1800038180 s (after s (execZoneClose x0 s)) := by
  unfold execZoneClose
  try with_reducible refine FrameB.next ?_
  repeat' first | (with_reducible first | apply FrameB.refl | assumption | intro _ | apply frame_zoneSend | apply FrameB.ite) | decide | split | unfold id | dsimp only

theorem frame_execZoneFinish x0 s : FrameB 0x1800038180 s (after s (execZoneFinish x0 s)) := by
  unfold execZoneFinish
  try with_reducible refine FrameB.next ?_
  repeat' first | (with_reducible first | apply FrameB.refl | assumption | intro _ | apply frame_zoneSend | apply FrameB.ite) | decide | split | unfold id | dsimp only

theorem frame_execZoneReset x0 s : FrameB 0x1800038180 s (after s (execZoneReset x0 s)) := by
  unfold execZoneReset
  try with_reducible refine FrameB.next ?_
  repeat' first | (with_reducible first | apply FrameB.refl | assumption | intro _ | apply frame_zoneSend | apply FrameB.ite) | decide | split | unfold id | dsimp only

theorem frame_execZoneOffline x0 s : FrameB 0x1800038180 s (after s (execZoneOffline x0 s)) := by
  unfold execZoneOffline
  try with_reducible refine FrameB.next ?_
  repeat' first | (with_reducible first | apply FrameB.refl | assumption | intro _ | apply frame_zoneSend | apply FrameB.ite) | decide | split | unfold id | dsimp only

theorem frame_drawnFold {α : Type} (g : Nat → α → State → Nat) (l : List α) (p : Nat) (s : State) (h : FrameB m o s)
    (e : sub 0x80 m) : FrameB m o (l.foldl (fun (q : Nat × State) x => (g q.1 x q.2, q.2.drawn)) (p, s)).2 := by
  induction l generalizing p s with
  | nil => exact h
  | cons x l ih => exact ih _ _ (frame_State_drawn _ h e)

theorem frame_execReportZones x0 s : FrameB 0x18080 s (after s (execReportZones x0 s)) := by
  unfold execReportZones
  refine frame_withNs _ _ _ _ .refl rfl fun c n t ht => ?_
  dsimp only
  split
  · exact frame_finish _ _ _ ht rfl
  · refine frame_finish _ _ _ (frame_giveData _ _ _ ?_ rfl) rfl
    exact frame_drawnFold (fun p (x : Zone × Nat) u => page p (zoneDesc (64 + 64 * x.2) x.1 u)) _ _ t ht rfl

theorem frame_execCreateIoSq x0 s : FrameB 0x18080 s (after s (execCreateIoSq x0 s)) := by
  unfold execCreateIoSq
  try with_reducible refine FrameB.next ?_
  repeat' first | (with_reducible first | apply FrameB.refl | assumption | intro _ | apply frame_withCmd | apply frame_State_modCtrl | apply frame_finish | apply FrameB.ite) | decide | split | unfold id | dsimp only

theorem frame_execCreateIoCq x0 s : FrameB 0x18080 s (after s (execCreateIoCq x0 s)) := by
  unfold execCreateIoCq
  try with_reducible refine FrameB.next ?_
  repeat' first | (with_reducible first | apply FrameB.refl | assumption | intro _ | apply frame_withCmd | apply frame_State_modCtrl | apply frame_finish | apply FrameB.ite) | decide | split | unfold id | dsimp only

theorem frame_execDeleteIoSq x0 s : FrameB 0x18080 s (after s (execDeleteIoSq x0 s)) := by
  unfold execDeleteIoSq
  try with_reducible refine FrameB.next ?_
  repeat' first | (with_reducible first | apply FrameB.refl | assumption | intro _ | apply frame_withCmd | apply frame_State_modCtrl | apply frame_finish | apply FrameB.ite) | decide | split | unfold id | dsimp only

theorem frame_execDeleteIoCq x0 s : FrameB 0x18080 s (after s (execDeleteIoCq x0 s)) := by
  unfold execDeleteIoCq
  try with_reducible refine FrameB.next ?_
  repeat' first | (with_reducible first | apply FrameB.refl | assumption | intro _ | apply frame_withCmd | apply frame_State_modCtrl | apply frame_finish | apply FrameB.ite) | decide | split | unfold id | dsimp only

theorem frame_execIdentify x0 s : FrameB 0x18080 s (after s (execIdentify x0 s)) := by
  unfold execIdentify
  try with_reducible refine FrameB.next ?_
  repeat' first | (with_reducible first | apply FrameB.refl | assumption | intro _ | apply frame_withCmd | apply frame_State_drawn | apply frame_finish | apply frame_giveData | apply FrameB.ite) | decide | split | unfold id | dsimp only

theorem frame_execGetLogPage x0 s : FrameB 0x18080 s (after s (execGetLogPage x0 s)) := by
  unfold execGetLogPage
  try with_reducible refine FrameB.next ?_
  repeat' first | (with_reducible first | apply FrameB.refl | assumption | intro _ | apply frame_withCmd | apply frame_State_drawn | apply frame_State_modCtrl | apply frame_finish | apply frame_sendLog | apply FrameB.ite) | fail_if_no_progress ((with_reducible apply FrameB.set_free); rfl) | decide | split | unfold id | dsimp only

theorem frame_execLogGuaranteeExceptions x0 s : FrameB 0x18080 s (after s (execLogGuaranteeExceptions x0 s)) := by
  unfold execLogGuaranteeExceptions
  try with_reducible refine FrameB.next ?_
  repeat' first | (with_reducible first | apply FrameB.refl | assumption | intro _ | apply frame_vendorLog | apply FrameB.ite) | decide | split | unfold id | dsimp only

theorem frame_execLogEventRecorder x0 s : FrameB 0x18080 s (after s (execLogEventRecorder x0 s)) := by
  unfold execLogEventRecorder
  try with_reducible refine FrameB.next ?_
  repeat' first | (with_reducible first | apply FrameB.refl | assumption | intro _ | apply frame_vendorLog | apply frame_State_drawn | apply FrameB.ite) | decide | split | unfold id | dsimp only

theorem frame_execLogLifetimeCounters x0 s : FrameB 0x1000018080 s (after s (execLogLifetimeCounters x0 s)) := by
  unfold execLogLifetimeCounters
  try with_reducible refine FrameB.next ?_
  repeat' first | (with_reducible first | apply FrameB.refl | assumption | intro _ | apply frame_vendorLog | apply frame_lifSnap | apply FrameB.ite) | decide | split | unfold id | dsimp only

theorem frame_execLogActuatorHeadHealth x0 s : FrameB 0x18080 s (after s (execLogActuatorHeadHealth x0 s)) := by
  unfold execLogActuatorHeadHealth
  try with_reducible refine FrameB.next ?_
  repeat' first | (with_reducible first | apply FrameB.refl | assumption | intro _ | apply frame_vendorLog | apply FrameB.ite) | decide | split | unfold id | dsimp only

theorem frame_execLogLeasesPower x0 s : FrameB 0x18080 s (after s (execLogLeasesPower x0 s)) := by
  unfold execLogLeasesPower
  try with_reducible refine FrameB.next ?_
  repeat' first | (with_reducible first | apply FrameB.refl | assumption | intro _ | apply frame_vendorLog | apply FrameB.ite) | decide | split | unfold id | dsimp only

theorem frame_execLogAttestationMeasurements x0 s : FrameB 0x18080 s (after s (execLogAttestationMeasurements x0 s)) := by
  unfold execLogAttestationMeasurements
  try with_reducible refine FrameB.next ?_
  repeat' first | (with_reducible first | apply FrameB.refl | assumption | intro _ | apply frame_vendorLog | apply FrameB.ite) | decide | split | unfold id | dsimp only

theorem frame_execSetFeatures x0 s : FrameB 0x18080 s (after s (execSetFeatures x0 s)) := by
  unfold execSetFeatures
  try with_reducible refine FrameB.next ?_
  repeat' first | (with_reducible first | apply FrameB.refl | assumption | intro _ | apply frame_withCmd | apply frame_finish | apply frame_finishDw | apply frame_saveFeature | apply frame_setCtrl | apply FrameB.ite) | decide | split | unfold id | dsimp only

theorem frame_execGetFeatures x0 s : FrameB 0x18080 s (after s (execGetFeatures x0 s)) := by
  unfold execGetFeatures
  try with_reducible refine FrameB.next ?_
  repeat' first | (with_reducible first | apply FrameB.refl | assumption | intro _ | apply frame_withCmd | apply frame_State_drawn | apply frame_finish | apply frame_finishDw | apply FrameB.ite) | decide | split | unfold id | dsimp only

theorem frame_execSetFeaturesPowerManagement x0 s : FrameB 0x18880 s (after s (execSetFeaturesPowerManagement x0 s)) := by
  unfold execSetFeaturesPowerManagement
  try with_reducible refine FrameB.next ?_
  repeat' first | (with_reducible first | apply FrameB.refl | assumption | intro _ | apply frame_setFeature | apply frame_State_modPwr | apply frame_finish | apply frame_gateChannels | apply frame_psReached | apply FrameB.ite) | decide | split | unfold id | dsimp only

theorem frame_execSetFeaturesTimestamp x0 s : FrameB 0x7800018990 s (after s (execSetFeaturesTimestamp x0 s)) := by
  unfold execSetFeaturesTimestamp
  try with_reducible refine FrameB.next ?_
  repeat' first | (with_reducible first | apply FrameB.refl | assumption | intro _ | apply frame_setFeature | apply frame_State_modVlk | apply frame_calLoad | apply frame_finish | apply frame_rootFollow | apply FrameB.ite) | decide | split | unfold id | dsimp only

theorem frame_execGetFeaturesTimestamp x0 s : FrameB 0x18080 s (after s (execGetFeaturesTimestamp x0 s)) := by
  unfold execGetFeaturesTimestamp
  try with_reducible refine FrameB.next ?_
  repeat' first | (with_reducible first | apply FrameB.refl | assumption | intro _ | apply frame_withCmd | apply frame_finish | apply frame_giveData | apply FrameB.ite) | decide | split | unfold id | dsimp only

theorem frame_execSetFeaturesVolatileWriteCache x0 s : FrameB 0x18080 s (after s (execSetFeaturesVolatileWriteCache x0 s)) := by
  unfold execSetFeaturesVolatileWriteCache
  try with_reducible refine FrameB.next ?_
  repeat' first | (with_reducible first | apply FrameB.refl | assumption | intro _ | apply frame_setFeature | apply frame_finish | apply frame_saveFeature | apply frame_setCtrl | apply FrameB.ite) | decide | split | unfold id | dsimp only

theorem frame_execSetFeaturesInterruptCoalescing x0 s : FrameB 0x18080 s (after s (execSetFeaturesInterruptCoalescing x0 s)) := by
  unfold execSetFeaturesInterruptCoalescing
  try with_reducible refine FrameB.next ?_
  repeat' first | (with_reducible first | apply FrameB.refl | assumption | intro _ | apply frame_setFeature | apply frame_finish | apply frame_saveFeature | apply frame_setCtrl | apply FrameB.ite) | decide | split | unfold id | dsimp only

theorem frame_execSetFeaturesTemperatureThreshold x0 s : FrameB 0x18090 s (after s (execSetFeaturesTemperatureThreshold x0 s)) := by
  unfold execSetFeaturesTemperatureThreshold
  try with_reducible refine FrameB.next ?_
  repeat' first | (with_reducible first | apply FrameB.refl | assumption | intro _ | apply frame_setFeature | apply frame_finish | apply frame_saveFeature | apply frame_setCtrl | apply frame_setFld | apply FrameB.ite) | decide | split | unfold id | dsimp only

theorem frame_execSetFeaturesReadRecoveryLevel x0 s : FrameB 0x18080 s (after s (execSetFeaturesReadRecoveryLevel x0 s)) := by
  unfold execSetFeaturesReadRecoveryLevel
  try with_reducible refine FrameB.next ?_
  repeat' first | (with_reducible first | apply FrameB.refl | assumption | intro _ | apply frame_setFeature | apply frame_finish | apply frame_saveFeature | apply frame_setCtrl | apply FrameB.ite) | decide | split | unfold id | dsimp only

theorem frame_execSetFeaturesRecoveryTimeLimit x0 s : FrameB 0x18080 s (after s (execSetFeaturesRecoveryTimeLimit x0 s)) := by
  unfold execSetFeaturesRecoveryTimeLimit
  try with_reducible refine FrameB.next ?_
  repeat' first | (with_reducible first | apply FrameB.refl | assumption | intro _ | apply frame_setFeature | apply frame_State_modHce | apply frame_finish | apply frame_saveFeature | apply FrameB.ite) | decide | split | unfold id | dsimp only

theorem frame_execSetFeaturesDirtyCap x0 s : FrameB 0x18080 s (after s (execSetFeaturesDirtyCap x0 s)) := by
  unfold execSetFeaturesDirtyCap
  try with_reducible refine FrameB.next ?_
  repeat' first | (with_reducible first | apply FrameB.refl | assumption | intro _ | apply frame_setFeature | apply frame_State_modHce | apply frame_finish | apply frame_saveFeature | apply FrameB.ite) | decide | split | unfold id | dsimp only

theorem frame_execSetFeaturesLeaseFloor x0 s : FrameB 0x1E090 s (after s (execSetFeaturesLeaseFloor x0 s)) := by
  unfold execSetFeaturesLeaseFloor
  try with_reducible refine FrameB.next ?_
  repeat' first | (with_reducible first | apply FrameB.refl | assumption | intro _ | apply frame_setFeature | apply frame_finish | apply frame_saveFeature | apply frame_setFld | apply frame_walkQueue | apply FrameB.ite) | decide | split | unfold id | dsimp only

theorem frame_execSetFeaturesBehaviourProfile x0 s : FrameB 0x18280 s (after s (execSetFeaturesBehaviourProfile x0 s)) := by
  unfold execSetFeaturesBehaviourProfile
  try with_reducible refine FrameB.next ?_
  repeat' first | (with_reducible first | apply FrameB.refl | assumption | intro _ | apply frame_setFeature | apply frame_State_modHce | apply frame_State_modSys | apply frame_finish | apply FrameB.ite) | decide | split | unfold id | dsimp only

theorem frame_execGetFeaturesBehaviourProfile x0 s : FrameB 0x18080 s (after s (execGetFeaturesBehaviourProfile x0 s)) := by
  unfold execGetFeaturesBehaviourProfile
  try with_reducible refine FrameB.next ?_
  repeat' first | (with_reducible first | apply FrameB.refl | assumption | intro _ | apply frame_withCmd | apply frame_finish | apply frame_finishDw | apply FrameB.ite) | decide | split | unfold id | dsimp only

theorem frame_execAsynchronousEventRequest x0 s : FrameB 0x18080 s (after s (execAsynchronousEventRequest x0 s)) := by
  unfold execAsynchronousEventRequest
  try with_reducible refine FrameB.next ?_
  repeat' first | (with_reducible first | apply FrameB.refl | assumption | intro _ | apply frame_withCmd | apply frame_finish | apply frame_finishDw | apply frame_modCmd | apply frame_setCtrl | apply FrameB.ite) | decide | split | unfold id | dsimp only

theorem frame_execAbort x0 s : FrameB 0x1AEDB3F1A0 s (after s (execAbort x0 s)) := by
  unfold execAbort
  try with_reducible refine FrameB.next ?_
  repeat' first | (with_reducible first | apply FrameB.refl | assumption | intro _ | apply frame_withCmd | apply frame_finishDw | apply frame_matchCmd | apply FrameB.ite) | decide | split | unfold id | dsimp only

theorem frame_execKeepAlive x0 s : FrameB 0x18080 s (after s (execKeepAlive x0 s)) := by
  unfold execKeepAlive
  try with_reducible refine FrameB.next ?_
  repeat' first | (with_reducible first | apply FrameB.refl | assumption | intro _ | apply frame_withCmd | apply frame_finish | apply frame_setCtrl | apply FrameB.ite) | decide | split | unfold id | dsimp only

theorem frame_execNamespaceManagement x0 s : FrameB 0x80038090 s (after s (execNamespaceManagement x0 s)) := by
  unfold execNamespaceManagement
  try with_reducible refine FrameB.next ?_
  repeat' first | (with_reducible first | apply FrameB.refl | assumption | intro _ | apply frame_withCmd | apply frame_finish | apply frame_nsCreate | apply frame_nsDelete | apply FrameB.ite) | decide | split | unfold id | dsimp only

theorem frame_execNamespaceAttachment x0 s : FrameB 0x18080 s (after s (execNamespaceAttachment x0 s)) := by
  unfold execNamespaceAttachment
  try with_reducible refine FrameB.next ?_
  repeat' first | (with_reducible first | apply FrameB.refl | assumption | intro _ | apply frame_withNs | apply frame_asyncEvent | apply frame_finish | apply frame_modNs | apply FrameB.foldl (fun _ _ => ?_) | apply FrameB.ite) | decide | split | unfold id | dsimp only

theorem frame_execFirmwareImageDownload x0 s : FrameB 0x18080 s (after s (execFirmwareImageDownload x0 s)) := by
  unfold execFirmwareImageDownload
  try with_reducible refine FrameB.next ?_
  repeat' first | (with_reducible first | apply FrameB.refl | assumption | intro _ | apply frame_withCmd | apply frame_State_modHce | apply frame_finish | apply FrameB.ite) | decide | split | unfold id | dsimp only

theorem frame_execFirmwareCommit x0 x1 s : FrameB 0x18080 s (after s (execFirmwareCommit x0 x1 s)) := by
  unfold execFirmwareCommit
  try with_reducible refine FrameB.next ?_
  repeat' first | (with_reducible first | apply FrameB.refl | assumption | intro _ | apply frame_withCmd | apply frame_State_modHce | apply frame_finish | apply FrameB.ite) | decide | split | unfold id | dsimp only

theorem frame_execFirmwareActivation x0 x1 s : FrameB 0x1880018380 s (after s (execFirmwareActivation x0 x1 s)) := by
  unfold execFirmwareActivation
  try with_reducible refine FrameB.next ?_
  repeat' first | (with_reducible first | apply FrameB.refl | assumption | intro _ | apply frame_withCmd | apply frame_State_modSys | apply frame_activate | apply frame_finish | apply FrameB.ite) | decide | split | unfold id | dsimp only

theorem frame_execActivationPauseTimeout s : FrameB 0x7800018B92 s (after s (execActivationPauseTimeout s)) := by
  unfold execActivationPauseTimeout
  try with_reducible refine FrameB.next ?_
  repeat' first | (with_reducible first | apply FrameB.refl | assumption | intro _ | apply frame_State_modHce | apply frame_State_modSys | apply frame_advanceTo | apply frame_ev | apply frame_finish | apply FrameB.ite) | decide | split | unfold id | dsimp only

theorem frame_execFormatNvm x0 s : FrameB 0x38080 s (after s (execFormatNvm x0 s)) := by
  unfold execFormatNvm
  try with_reducible refine FrameB.next ?_
  repeat' first | (with_reducible first | apply FrameB.refl | assumption | intro _ | apply frame_withNs | apply frame_barrierLogged | apply frame_formatTables | apply frame_journal | apply frame_modNs | apply FrameB.ite) | decide | split | unfold id | dsimp only

theorem frame_execSanitizeOverwrite x0 s : FrameB 0x180007E180 s (after s (execSanitizeOverwrite x0 s)) := by
  unfold execSanitizeOverwrite
  try with_reducible refine FrameB.next ?_
  repeat' first | (with_reducible first | apply FrameB.refl | assumption | intro _ | apply frame_withCmd | apply frame_finish | apply frame_sanLeave | apply frame_sanStart | apply FrameB.ite) | decide | split | unfold id | dsimp only

theorem frame_execSanitizeCryptoErase x0 s : FrameB 0x80078080 s (after s (execSanitizeCryptoErase x0 s)) := by
  unfold execSanitizeCryptoErase
  try with_reducible refine FrameB.next ?_
  repeat' first | (with_reducible first | apply FrameB.refl | assumption | intro _ | apply frame_withCmd | apply frame_finish | apply frame_replaceKey | apply frame_sanOver | apply frame_sanStart | apply frame_sanTables | apply FrameB.foldl (fun _ _ => ?_) | apply FrameB.ite) | decide | split | unfold id | dsimp only

theorem frame_execSanitizeBandDone s : FrameB 0x60000 s (after s (execSanitizeBandDone s)) := by
  unfold execSanitizeBandDone
  try with_reducible refine FrameB.next ?_
  repeat' first | (with_reducible first | apply FrameB.refl | assumption | intro _ | apply frame_sanBandDone | apply frame_sanFinish | apply FrameB.ite) | decide | split | unfold id | dsimp only

theorem frame_execSecuritySend x0 s : FrameB 0x18080 s (after s (execSecuritySend x0 s)) := by
  unfold execSecuritySend
  try with_reducible refine FrameB.next ?_
  repeat' first | (with_reducible first | apply FrameB.refl | assumption | intro _ | apply frame_withSec | apply frame_finish | apply FrameB.ite) | decide | split | unfold id | dsimp only

theorem frame_execSecurityReceive x0 s : FrameB 0x18080 s (after s (execSecurityReceive x0 s)) := by
  unfold execSecurityReceive
  try with_reducible refine FrameB.next ?_
  repeat' first | (with_reducible first | apply FrameB.refl | assumption | intro _ | apply frame_withSec | apply frame_State_modCtrl | apply frame_finish | apply FrameB.ite) | decide | split | unfold id | dsimp only

theorem frame_execAttestationNonce x0 s : FrameB 0x80018080 s (after s (execAttestationNonce x0 s)) := by
  unfold execAttestationNonce
  try with_reducible refine FrameB.next ?_
  repeat' first | (with_reducible first | apply FrameB.refl | assumption | intro _ | apply frame_withSec | apply frame_finish | apply frame_takeNonce | apply FrameB.ite) | decide | split | unfold id | dsimp only

theorem frame_execAttestationReportSigned s : FrameB 0x80000000 s (after s (execAttestationReportSigned s)) := by
  unfold execAttestationReportSigned
  try with_reducible refine FrameB.next ?_
  repeat' first | (with_reducible first | apply FrameB.refl | assumption | intro _ | apply frame_State_modSec | apply FrameB.ite) | decide | split | unfold id | dsimp only

theorem frame_execAttestationReportReceive x0 s : FrameB 0x18080 s (after s (execAttestationReportReceive x0 s)) := by
  unfold execAttestationReportReceive
  try with_reducible refine FrameB.next ?_
  repeat' first | (with_reducible first | apply FrameB.refl | assumption | intro _ | apply frame_withSec | apply frame_State_modCtrl | apply frame_finish | apply FrameB.ite) | decide | split | unfold id | dsimp only

theorem frame_execCredential x0 s : FrameB 0x1880018180 s (after s (execCredential x0 s)) := by
  unfold execCredential
  try with_reducible refine FrameB.next ?_
  repeat' first | (with_reducible first | apply FrameB.refl | assumption | intro _ | apply frame_withSec | apply frame_State_drawn | apply frame_credentialOf | apply frame_finish | apply FrameB.ite) | refine FrameB.of_eq (congrArg Prod.fst ‹credentialOf _ _ _ = _›) ?_ | decide | split | unfold id | dsimp only

theorem frame_execDeviceSelfTest x0 s : FrameB 0x18080 s (after s (execDeviceSelfTest x0 s)) := by
  unfold execDeviceSelfTest
  try with_reducible refine FrameB.next ?_
  repeat' first | (with_reducible first | apply FrameB.refl | assumption | intro _ | apply frame_withCmd | apply frame_State_modHce | apply frame_finish | apply FrameB.ite) | decide | split | unfold id | dsimp only

theorem frame_execNvmeMiSend x0 s : FrameB 0x1AFDB7FBA0 s (after s (execNvmeMiSend x0 s)) := by
  unfold execNvmeMiSend
  try with_reducible refine FrameB.next ?_
  repeat' first | (with_reducible first | apply FrameB.refl | assumption | intro _ | apply frame_withCmd | apply frame_miConfigSet | apply frame_miFinish | apply frame_miVpdWrite | apply frame_subsystemReset | apply FrameB.ite) | refine FrameB.of_eq (congrArg Prod.fst ‹miConfigSet _ _ _ = _›) ?_ | decide | split | unfold id | dsimp only

theorem frame_execNvmeMiReceive x0 s : FrameB 0x18080 s (after s (execNvmeMiReceive x0 s)) := by
  unfold execNvmeMiReceive
  try with_reducible refine FrameB.next ?_
  repeat' first | (with_reducible first | apply FrameB.refl | assumption | intro _ | apply frame_withCmd | apply frame_miController | apply frame_miDataStructure | apply frame_miFinish | apply frame_miSubsystem | apply frame_miVpdRead | apply FrameB.ite) | refine FrameB.of_eq (congrArg Prod.fst ‹miController _ _ = _›) ?_ | refine FrameB.of_eq (congrArg Prod.fst ‹miDataStructure _ _ _ = _›) ?_ | refine FrameB.of_eq (congrArg Prod.fst ‹miSubsystem _ = _›) ?_ | refine FrameB.of_eq (congrArg Prod.fst ‹miVpdRead _ _ _ = _›) ?_ | decide | split | unfold id | dsimp only

theorem frame_execReadNvmeMiDataStructure x0 x1 s : FrameB 0x8080 s (after s (execReadNvmeMiDataStructure x0 x1 s)) := by
  unfold execReadNvmeMiDataStructure
  refine FrameB.next ?_
  split
  · exact frame_miReply _ _ _ (frame_miDataStructure _ _ _ .refl rfl) rfl
  · exact .refl

theorem frame_execNvmSubsystemHealthStatusPoll s : FrameB 0x8080 s (after s (execNvmSubsystemHealthStatusPoll s)) := by
  unfold execNvmSubsystemHealthStatusPoll
  refine FrameB.next ?_
  split
  · exact frame_miReply _ _ _ (frame_miSubsystem _ .refl rfl) rfl
  · exact .refl

theorem frame_execControllerHealthStatusPoll x0 s : FrameB 0x8080 s (after s (execControllerHealthStatusPoll x0 s)) := by
  unfold execControllerHealthStatusPoll
  refine FrameB.next ?_
  split
  · exact frame_miReply _ _ _ (frame_miController _ _ .refl rfl) rfl
  · exact .refl

theorem frame_execConfigurationGet x0 s : FrameB 0x8000 s (after s (execConfigurationGet x0 s)) := by
  unfold execConfigurationGet
  try with_reducible refine FrameB.next ?_
  repeat' first | (with_reducible first | apply FrameB.refl | apply frame_miReply | apply FrameB.ite) | decide | split | unfold id | dsimp only

theorem frame_execConfigurationSet x0 x1 s : FrameB 0x8000 s (after s (execConfigurationSet x0 x1 s)) := by
  unfold execConfigurationSet
  try with_reducible refine FrameB.next ?_
  repeat' first | (with_reducible first | apply FrameB.refl | apply frame_miConfigSet | apply frame_miReply | apply FrameB.ite) | refine FrameB.of_eq (congrArg Prod.fst ‹miConfigSet _ _ _ = _›) ?_ | decide | split | unfold id | dsimp only

theorem frame_execVpdRead x0 x1 s : FrameB 0x8080 s (after s (execVpdRead x0 x1 s)) := by
  unfold execVpdRead
  try with_reducible refine FrameB.next ?_
  repeat' first | (with_reducible first | apply FrameB.refl | apply frame_miReply | apply frame_miVpdRead | apply FrameB.ite) | refine FrameB.of_eq (congrArg Prod.fst ‹miVpdRead _ _ _ = _›) ?_ | decide | split | unfold id | dsimp only

theorem frame_execVpdWrite x0 x1 s : FrameB 0x8000 s (after s (execVpdWrite x0 x1 s)) := by
  unfold execVpdWrite
  try with_reducible refine FrameB.next ?_
  repeat' first | (with_reducible first | apply FrameB.refl | apply frame_miReply | apply frame_miVpdWrite | apply FrameB.ite) | decide | split | unfold id | dsimp only

theorem frame_execMiReset s : FrameB 0x1AFDB7FBA0 s (after s (execMiReset s)) := by
  unfold execMiReset
  try with_reducible refine FrameB.next ?_
  repeat' first | (with_reducible first | apply FrameB.refl | apply frame_subsystemReset | apply FrameB.ite) | decide | split | unfold id | dsimp only

theorem frame_execBasicManagementCommand s : FrameB 0x8080 s (after s (execBasicManagementCommand s)) := by
  unfold execBasicManagementCommand
  try with_reducible refine FrameB.next ?_
  repeat' first | (with_reducible first | apply FrameB.refl | apply frame_drawList | apply frame_miReply | apply FrameB.ite) | refine FrameB.of_eq (congrArg Prod.fst ‹drawList _ _ _ = _›) ?_ | decide | split | unfold id | dsimp only

theorem frame_execNsdomWrite x0 x1 x2 s : FrameB 0x1800000110 s (after s (execNsdomWrite x0 x1 x2 s)) := by
  unfold execNsdomWrite
  try with_reducible refine FrameB.next ?_
  repeat' first | (with_reducible first | apply FrameB.refl | assumption | intro _ | apply frame_access | apply frame_writeNsdom | apply FrameB.ite) | decide | split | unfold id | dsimp only

theorem frame_execLgrWinGo x0 x1 s : FrameB 0x1800010190 s (after s (execLgrWinGo x0 x1 s)) := by
  unfold execLgrWinGo
  try with_reducible refine FrameB.next ?_
  repeat' first | (with_reducible first | apply FrameB.refl | assumption | intro _ | apply frame_access | apply frame_writeLgrWin | apply FrameB.ite) | decide | split | unfold id | dsimp only

theorem frame_execJournalBlockDurable x0 s : FrameB 0x188007A180 s (after s (execJournalBlockDurable x0 s)) := by
  unfold execJournalBlockDurable
  try with_reducible refine FrameB.next ?_
  repeat' first | (with_reducible first | apply FrameB.refl | apply frame_journalBlock | apply frame_sanSettle | apply frame_settle | apply FrameB.ite) | decide | split | unfold id | dsimp only

theorem frame_execCheckpoint s : FrameB 0x20080 s (after s (execCheckpoint s)) := by
  unfold execCheckpoint
  try with_reducible refine FrameB.next ?_
  repeat' first | (with_reducible first | apply FrameB.refl | assumption | intro _ | apply frame_State_drawn | apply frame_State_modXmt | apply frame_journal | apply FrameB.ite) | decide | split | unfold id | dsimp only

theorem frame_execMigrationStart x0 x1 x2 x3 s : FrameB 0x180003A100 s (after s (execMigrationStart x0 x1 x2 x3 s)) := by
  unfold execMigrationStart
  try with_reducible refine FrameB.next ?_
  repeat' first | (with_reducible first | apply FrameB.refl | assumption | intro _ | apply frame_State_modLgr | apply frame_State_modXmt | apply frame_addEntry | apply frame_checkPause | apply frame_journal | apply frame_selectRange | apply frame_setMig | apply frame_takeOrd | apply FrameB.ite) | refine FrameB.of_eq (congrArg Prod.fst ‹selectRange _ _ _ _ = _›) ?_ | decide | split | unfold id | dsimp only

theorem frame_execMigrationCopyVerified x0 x1 x2 s : FrameB 0x1880030100 s (after s (execMigrationCopyVerified x0 x1 x2 s)) := by
  unfold execMigrationCopyVerified
  try with_reducible refine FrameB.next ?_
  repeat' first | (with_reducible first | apply FrameB.refl | apply frame_migVerified | apply FrameB.ite) | decide | split | unfold id | dsimp only

theorem frame_execMigFree x0 x1 s : FrameB 0x20000 s (after s (execMigFree x0 x1 s)) := by
  unfold execMigFree
  try with_reducible refine FrameB.next ?_
  repeat' first | (with_reducible first | apply FrameB.refl | assumption | intro _ | apply frame_State_modXmt | apply frame_freeSlots | apply frame_journal | apply FrameB.ite) | decide | split | unfold id | dsimp only

theorem frame_execReservoirCommit x0 s : FrameB 0x180005C100 s (after s (execReservoirCommit x0 s)) := by
  unfold execReservoirCommit
  try with_reducible refine FrameB.next ?_
  repeat' first | (with_reducible first | apply FrameB.refl | assumption | intro _ | apply frame_access | apply frame_writeRvrCmd | apply FrameB.ite) | decide | split | unfold id | dsimp only

theorem frame_execLedgerFreeze s : FrameB 0x1800050100 s (after s (execLedgerFreeze s)) := by
  unfold execLedgerFreeze
  try with_reducible refine FrameB.next ?_
  repeat' first | (with_reducible first | apply FrameB.refl | assumption | intro _ | apply frame_freezeImage | apply FrameB.ite) | decide | split | unfold id | dsimp only

theorem frame_execCommitRecordDurable s : FrameB 0x5FFFFFFFF0 s (after s (execCommitRecordDurable s)) := by
  unfold execCommitRecordDurable
  try with_reducible refine FrameB.next ?_
  repeat' first | (with_reducible first | apply FrameB.refl | apply frame_commitDurable | apply frame_lossEnd | apply FrameB.ite) | decide | split | unfold id | dsimp only

theorem frame_execReservoirReplay x0 s : FrameB 0x180005C100 s (after s (execReservoirReplay x0 s)) := by
  unfold execReservoirReplay
  try with_reducible refine FrameB.next ?_
  repeat' first | (with_reducible first | apply FrameB.refl | assumption | intro _ | apply frame_access | apply frame_writeRvrCmd | apply FrameB.ite) | decide | split | unfold id | dsimp only

theorem frame_execReplayDone s : FrameB 0x72080 s (after s (execReplayDone s)) := by
  unfold execReplayDone
  try with_reducible refine FrameB.next ?_
  repeat' first | (with_reducible first | apply FrameB.refl | assumption | intro _ | apply frame_State_drawn | apply frame_State_modRvr | apply frame_addEntry | apply frame_raiseLine | apply frame_releaseHalves | apply frame_replayFwp | apply FrameB.foldl (fun _ _ => ?_) | apply FrameB.ite) | decide | split | unfold id | dsimp only

theorem frame_execRestartRecovery x0 x1 s : FrameB 0x188007E180 s (after s (execRestartRecovery x0 x1 s)) := by
  unfold execRestartRecovery
  try with_reducible refine FrameB.next ?_
  repeat' first | (with_reducible first | apply FrameB.refl | assumption | intro _ | apply frame_ownZoneChange | apply frame_rekeyFormats | apply frame_restartRecovery | apply FrameB.foldl (fun _ _ => ?_) | apply FrameB.ite) | decide | split | unfold id | dsimp only

theorem frame_execTaskCommit x0 x1 s : FrameB 0x1AEDB0F1A0 s (after s (execTaskCommit x0 x1 s)) := by
  unfold execTaskCommit
  try with_reducible refine FrameB.next ?_
  repeat' first | (with_reducible first | apply FrameB.refl | assumption | intro _ | apply frame_access | apply frame_writePcmd | apply FrameB.ite) | decide | split | unfold id | dsimp only

theorem frame_execTaskCancel x0 x1 s : FrameB 0x1AEDB0F1A0 s (after s (execTaskCancel x0 x1 s)) := by
  unfold execTaskCancel
  try with_reducible refine FrameB.next ?_
  repeat' first | (with_reducible first | apply FrameB.refl | assumption | intro _ | apply frame_access | apply frame_writePcmd | apply FrameB.ite) | decide | split | unfold id | dsimp only

theorem frame_execTaskPromotion x0 s : FrameB 0x1AEDB0F1A0 s (after s (execTaskPromotion x0 s)) := by
  unfold execTaskPromotion
  try with_reducible refine FrameB.next ?_
  repeat' first | (with_reducible first | apply FrameB.refl | apply frame_promote | apply FrameB.ite) | decide | split | unfold id | dsimp only

theorem frame_execMicrowordIssue x0 s : FrameB 0x1A7DF0F1A0 s (after s (execMicrowordIssue x0 s)) := by
  unfold execMicrowordIssue
  try with_reducible refine FrameB.next ?_
  repeat' first | (with_reducible first | apply FrameB.refl | apply frame_boundary | apply frame_fetchIssue | apply FrameB.ite) | decide | split | unfold id | dsimp only

theorem frame_execSeqNext x0 s : FrameB 0x7A6D30FBB2 s (after s (execSeqNext x0 s)) := by
  unfold execSeqNext
  try with_reducible refine FrameB.next ?_
  repeat' first | (with_reducible first | apply FrameB.refl | assumption | intro _ | apply frame_fallThrough | apply frame_seqStep | apply FrameB.ite) | decide | split | unfold id | dsimp only

theorem frame_execSeqJump x0 s : FrameB 0x7A6D30FBB2 s (after s (execSeqJump x0 s)) := by
  unfold execSeqJump
  try with_reducible refine FrameB.next ?_
  repeat' first | (with_reducible first | apply FrameB.refl | assumption | intro _ | apply frame_seqStep | apply frame_transfer | apply FrameB.ite) | decide | split | unfold id | dsimp only

theorem frame_execSeqCall x0 s : FrameB 0x7A6D30FBB2 s (after s (execSeqCall x0 s)) := by
  unfold execSeqCall
  try with_reducible refine FrameB.next ?_
  repeat' first | (with_reducible first | apply FrameB.refl | assumption | intro _ | apply frame_seqCallDo | apply frame_seqStep | apply FrameB.ite) | decide | split | unfold id | dsimp only

theorem frame_execSeqRet x0 s : FrameB 0x7A6D30FBB2 s (after s (execSeqRet x0 s)) := by
  unfold execSeqRet
  try with_reducible refine FrameB.next ?_
  repeat' first | (with_reducible first | apply FrameB.refl | assumption | intro _ | apply frame_seqRetDo | apply frame_seqStep | apply FrameB.ite) | decide | split | unfold id | dsimp only

theorem frame_execSeqBrt x0 s : FrameB 0x7A6D30FBB2 s (after s (execSeqBrt x0 s)) := by
  unfold execSeqBrt
  try with_reducible refine FrameB.next ?_
  repeat' first | (with_reducible first | apply FrameB.refl | assumption | intro _ | apply frame_seqBranch | apply frame_seqStep | apply FrameB.ite) | decide | split | unfold id | dsimp only

theorem frame_execSeqBrf x0 s : FrameB 0x7A6D30FBB2 s (after s (execSeqBrf x0 s)) := by
  unfold execSeqBrf
  try with_reducible refine FrameB.next ?_
  repeat' first | (with_reducible first | apply FrameB.refl | assumption | intro _ | apply frame_seqBranch | apply frame_seqStep | apply FrameB.ite) | decide | split | unfold id | dsimp only

theorem frame_execSeqDispatch x0 s : FrameB 0x7A6D30FBB2 s (after s (execSeqDispatch x0 s)) := by
  unfold execSeqDispatch
  try with_reducible refine FrameB.next ?_
  repeat' first | (with_reducible first | apply FrameB.refl | assumption | intro _ | apply frame_seqDispatchDo | apply frame_seqStep | apply FrameB.ite) | decide | split | unfold id | dsimp only

theorem frame_execSeqLoop x0 s : FrameB 0x7A6D30FBB2 s (after s (execSeqLoop x0 s)) := by
  unfold execSeqLoop
  try with_reducible refine FrameB.next ?_
  repeat' first | (with_reducible first | apply FrameB.refl | assumption | intro _ | apply frame_seqLoopDo | apply frame_seqStep | apply FrameB.ite) | decide | split | unfold id | dsimp only

theorem frame_execFaultRequest x0 x1 s : FrameB 0x1A0C302180 s (after s (execFaultRequest x0 x1 s)) := by
  unfold execFaultRequest
  try with_reducible refine FrameB.next ?_
  repeat' first | (with_reducible first | apply FrameB.refl | apply frame_asqFault | apply FrameB.ite) | decide | split | unfold id | dsimp only

theorem frame_execWaitTimeout x0 s : FrameB 0x7A0C302B92 s (after s (execWaitTimeout x0 s)) := by
  unfold execWaitTimeout
  try with_reducible refine FrameB.next ?_
  repeat' first | (with_reducible first | apply FrameB.refl | apply frame_advanceTo | apply frame_enterHandler | apply FrameB.ite) | decide | split | unfold id | dsimp only

theorem frame_execAtomicBound x0 s : FrameB 0x7800100B12 s (after s (execAtomicBound x0 s)) := by
  unfold execAtomicBound
  try with_reducible refine FrameB.next ?_
  repeat' first | (with_reducible first | apply FrameB.refl | assumption | intro _ | apply frame_State_modAsq | apply frame_advanceTo | apply frame_ev | apply FrameB.ite) | decide | split | unfold id | dsimp only

theorem frame_execAsqAbort x0 x1 x2 s : FrameB 0x1AEDB0F1A0 s (after s (execAsqAbort x0 x1 x2 s)) := by
  unfold execAsqAbort
  try with_reducible refine FrameB.next ?_
  repeat' first | (with_reducible first | apply FrameB.refl | assumption | intro _ | apply frame_access | apply frame_writeAbort | apply FrameB.ite) | decide | split | unfold id | dsimp only

theorem frame_execTaskDeadline x0 s : FrameB 0x7A0C302B92 s (after s (execTaskDeadline x0 s)) := by
  unfold execTaskDeadline
  try with_reducible refine FrameB.next ?_
  repeat' first | (with_reducible first | apply FrameB.refl | assumption | intro _ | apply frame_State_modAsq | apply frame_advanceTo | apply frame_ev | apply frame_requestArrives | apply FrameB.ite) | decide | split | unfold id | dsimp only

theorem frame_execResultPop x0 x1 x2 s : FrameB 0x1800100100 s (after s (execResultPop x0 x1 x2 s)) := by
  unfold execResultPop
  try with_reducible refine FrameB.next ?_
  repeat' first | (with_reducible first | apply FrameB.refl | assumption | intro _ | apply frame_access | apply frame_writeRespop | apply FrameB.ite) | decide | split | unfold id | dsimp only

theorem frame_execMicrocodeActivate x0 s : FrameB 0x1880182110 s (after s (execMicrocodeActivate x0 s)) := by
  unfold execMicrocodeActivate
  try with_reducible refine FrameB.next ?_
  repeat' first | (with_reducible first | apply FrameB.refl | assumption | intro _ | apply frame_mailbox | apply frame_answer | apply frame_armCst | apply frame_ev | apply FrameB.ite) | fail_if_no_progress ((with_reducible apply FrameB.set_cst); rfl) | decide | split | unfold id | dsimp only

theorem frame_execArm x0 x1 s : FrameB 0x1800182100 s (after s (execArm x0 x1 s)) := by
  unfold execArm
  try with_reducible refine FrameB.next ?_
  repeat' first | (with_reducible first | apply FrameB.refl | assumption | intro _ | apply frame_access | apply frame_writeCstAct | apply FrameB.ite) | decide | split | unfold id | dsimp only

theorem frame_execActivationCopy s : FrameB 0x1880180100 s (after s (execActivationCopy s)) := by
  unfold execActivationCopy
  try with_reducible refine FrameB.next ?_
  repeat' first | (with_reducible first | apply FrameB.refl | apply frame_ev | apply frame_extendMeas | apply frame_loadImage | apply frame_releaseHolds | apply FrameB.ite) | fail_if_no_progress ((with_reducible apply FrameB.set_cst); rfl) | decide | split | unfold id | dsimp only

theorem frame_execActivationAbandon s : FrameB 0x7800180B12 s (after s (execActivationAbandon s)) := by
  unfold execActivationAbandon
  try with_reducible refine FrameB.next ?_
  repeat' first | (with_reducible first | apply FrameB.refl | apply frame_advanceTo | apply frame_ev | apply frame_releaseHolds | apply FrameB.ite) | fail_if_no_progress ((with_reducible apply FrameB.set_cst); rfl) | decide | split | unfold id | dsimp only

theorem frame_execOpenctlWrite x0 x1 s : FrameB 0x1800080100 s (after s (execOpenctlWrite x0 x1 s)) := by
  unfold execOpenctlWrite
  try with_reducible refine FrameB.next ?_
  repeat' first | (with_reducible first | apply FrameB.refl | assumption | intro _ | apply frame_access | apply frame_writeOpenctl | apply FrameB.ite) | decide | split | unfold id | dsimp only

theorem frame_execReaderCheck x0 x1 x2 x3 x4 s : FrameB 0x1800300100 s (after s (execReaderCheck x0 x1 x2 x3 x4 s)) := by
  unfold execReaderCheck
  try with_reducible refine FrameB.next ?_
  repeat' first | (with_reducible first | apply FrameB.refl | assumption | intro _ | apply frame_State_modAsq | apply frame_State_modRwc | apply frame_ev | apply frame_forceCoefs | apply frame_readerEvent | apply frame_waitComes | apply FrameB.ite) | decide | split | unfold id | dsimp only

theorem frame_execClockField x0 x1 s : FrameB 0x1A0CB22180 s (after s (execClockField x0 x1 s)) := by
  unfold execClockField
  try with_reducible refine FrameB.next ?_
  repeat' first | (with_reducible first | apply FrameB.refl | apply frame_clockStep | apply FrameB.ite) | decide | split | unfold id | dsimp only

theorem frame_execSyncADecision x0 x1 s : FrameB 0x200000 s (after s (execSyncADecision x0 x1 s)) := by
  unfold execSyncADecision
  try with_reducible refine FrameB.next ?_
  repeat' first | (with_reducible first | apply FrameB.refl | assumption | intro _ | apply frame_State_modRwc | apply FrameB.ite) | decide | split | unfold id | dsimp only

theorem frame_execSyncBDecision x0 x1 s : FrameB 0x302000 s (after s (execSyncBDecision x0 x1 s)) := by
  unfold execSyncBDecision
  try with_reducible refine FrameB.next ?_
  repeat' first | (with_reducible first | apply FrameB.refl | assumption | intro _ | apply frame_State_modRwc | apply frame_hsmaBump | apply frame_markFail | apply frame_rwcBump | apply frame_rwcLine | apply frame_waitComes | apply FrameB.ite) | decide | split | unfold id | dsimp only

theorem frame_execBlindFraming x0 x1 s : FrameB 0x702080 s (after s (execBlindFraming x0 x1 s)) := by
  unfold execBlindFraming
  try with_reducible refine FrameB.next ?_
  repeat' first | (with_reducible first | apply FrameB.refl | assumption | intro _ | apply frame_State_modRwc | apply frame_markFail | apply frame_rwcBump | apply frame_rwcLine | apply frame_submitCodeword | apply FrameB.foldl (fun _ _ => ?_) | apply FrameB.ite) | decide | split | unfold id | dsimp only

theorem frame_execDefectSpan x0 x1 x2 s : FrameB 0x202080 s (after s (execDefectSpan x0 x1 x2 s)) := by
  unfold execDefectSpan
  try with_reducible refine FrameB.next ?_
  repeat' first | (with_reducible first | apply FrameB.refl | assumption | intro _ | apply frame_State_modRwc | apply frame_adaptRun | apply frame_rwcBump | apply FrameB.ite) | decide | split | unfold id | dsimp only

theorem frame_execLoopLimit x0 x1 s : FrameB 0x1800202180 s (after s (execLoopLimit x0 x1 s)) := by
  unfold execLoopLimit
  try with_reducible refine FrameB.next ?_
  repeat' first | (with_reducible first | apply FrameB.refl | assumption | intro _ | apply frame_State_modRwc | apply frame_ev | apply frame_limitElem | apply frame_rwcBump | apply frame_rwcLine | apply FrameB.ite) | decide | split | unfold id | dsimp only

theorem frame_execPmonSnap x0 s : FrameB 0x5811600100 s (after s (execPmonSnap x0 s)) := by
  unfold execPmonSnap
  try with_reducible refine FrameB.next ?_
  repeat' first | (with_reducible first | apply FrameB.refl | assumption | intro _ | apply frame_access | apply frame_pmonSnap | apply FrameB.ite) | decide | split | unfold id | dsimp only

theorem frame_execPmonClr x0 s : FrameB 0x5811600100 s (after s (execPmonClr x0 s)) := by
  unfold execPmonClr
  try with_reducible refine FrameB.next ?_
  repeat' first | (with_reducible first | apply FrameB.refl | assumption | intro _ | apply frame_access | apply frame_pmonClr | apply FrameB.ite) | decide | split | unfold id | dsimp only

theorem frame_execCodewordDecode x0 x1 s : FrameB 0x181070A100 s (after s (execCodewordDecode x0 x1 s)) := by
  unfold execCodewordDecode
  try with_reducible refine FrameB.next ?_
  repeat' first | (with_reducible first | apply FrameB.refl | assumption | intro _ | apply frame_State_modLdp | apply frame_finishWord | apply frame_healthAdd | apply frame_ldpBump | apply frame_ldpRun | apply FrameB.ite) | decide | split | unfold id | dsimp only

theorem frame_execSqueezeRedecode x0 s : FrameB 0x181070A100 s (after s (execSqueezeRedecode x0 s)) := by
  unfold execSqueezeRedecode
  try with_reducible refine FrameB.next ?_
  repeat' first | (with_reducible first | apply FrameB.refl | assumption | intro _ | apply frame_State_modLdp | apply frame_finishWord | apply frame_ldpBump | apply FrameB.ite) | decide | split | unfold id | dsimp only

theorem frame_execClusterDecode x0 x1 x2 x3 s : FrameB 0x1800502100 s (after s (execClusterDecode x0 x1 x2 x3 s)) := by
  unfold execClusterDecode
  try with_reducible refine FrameB.next ?_
  repeat' first | (with_reducible first | apply FrameB.refl | assumption | intro _ | apply frame_clusterSector | apply frame_ev | apply frame_ldpBump | apply frame_raiseLine | apply FrameB.foldl (fun _ _ => ?_) | apply FrameB.ite) | decide | split | unfold id | dsimp only

theorem frame_execRetainedSlotFree x0 x1 s : FrameB 0x1800400100 s (after s (execRetainedSlotFree x0 x1 s)) := by
  unfold execRetainedSlotFree
  try with_reducible refine FrameB.next ?_
  repeat' first | (with_reducible first | apply FrameB.refl | assumption | intro _ | apply frame_access | apply frame_writeRsfree | apply FrameB.ite) | decide | split | unfold id | dsimp only

theorem frame_execFailurePop x0 x1 x2 s : FrameB 0x1800400100 s (after s (execFailurePop x0 x1 x2 s)) := by
  unfold execFailurePop
  try with_reducible refine FrameB.next ?_
  repeat' first | (with_reducible first | apply FrameB.refl | assumption | intro _ | apply frame_access | apply frame_writeFfpop | apply FrameB.ite) | decide | split | unfold id | dsimp only

theorem frame_execDefectInsert x0 x1 s : FrameB 0x186080B1A0 s (after s (execDefectInsert x0 x1 s)) := by
  unfold execDefectInsert
  try with_reducible refine FrameB.next ?_
  repeat' first | (with_reducible first | apply FrameB.refl | apply frame_dlopCmd | apply FrameB.ite) | decide | split | unfold id | dsimp only

theorem frame_execDefectDelete x0 x1 s : FrameB 0x186080B1A0 s (after s (execDefectDelete x0 x1 s)) := by
  unfold execDefectDelete
  try with_reducible refine FrameB.next ?_
  repeat' first | (with_reducible first | apply FrameB.refl | apply frame_dlopCmd | apply FrameB.ite) | decide | split | unfold id | dsimp only

theorem frame_execDefectClearPending x0 x1 s : FrameB 0x186080B1A0 s (after s (execDefectClearPending x0 x1 s)) := by
  unfold execDefectClearPending
  try with_reducible refine FrameB.next ?_
  repeat' first | (with_reducible first | apply FrameB.refl | apply frame_dlopCmd | apply FrameB.ite) | decide | split | unfold id | dsimp only

theorem frame_execDefectInsertRelease s : FrameB 0x186080B1A0 s (after s (execDefectInsertRelease s)) := by
  unfold execDefectInsertRelease
  try with_reducible refine FrameB.next ?_
  repeat' first | (with_reducible first | apply FrameB.refl | apply frame_dlInsert | apply FrameB.ite) | decide | split | unfold id | dsimp only

theorem frame_execSampleTrigger x0 x1 s : FrameB 0x1A1DB2A180 s (after s (execSampleTrigger x0 x1 s)) := by
  unfold execSampleTrigger
  try with_reducible refine FrameB.next ?_
  repeat' first | (with_reducible first | apply FrameB.refl | apply frame_servoSample | apply frame_wedgePasses | apply FrameB.ite) | decide | split | unfold id | dsimp only

theorem frame_execSyncTimeout x0 x1 s : FrameB 0x1A1DB2A180 s (after s (execSyncTimeout x0 x1 s)) := by
  unfold execSyncTimeout
  try with_reducible refine FrameB.next ?_
  repeat' first | (with_reducible first | apply FrameB.refl | apply frame_servoSample | apply frame_wedgePasses | apply FrameB.ite) | decide | split | unfold id | dsimp only

theorem frame_execTableSwapGo x0 x1 s : FrameB 0x1801002180 s (after s (execTableSwapGo x0 x1 s)) := by
  unfold execTableSwapGo
  try with_reducible refine FrameB.next ?_
  repeat' first | (with_reducible first | apply FrameB.refl | assumption | intro _ | apply frame_access | apply frame_swapGo | apply FrameB.ite) | decide | split | unfold id | dsimp only

theorem frame_execTableSwap x0 s : FrameB 0x1102000 s (after s (execTableSwap x0 s)) := by
  unfold execTableSwap
  try with_reducible refine FrameB.next ?_
  repeat' first | (with_reducible first | apply FrameB.refl | apply frame_prePhase | apply frame_sampleBound | apply FrameB.ite) | decide | split | unfold id | dsimp only

theorem frame_execMailCommit x0 x1 s : FrameB 0x1801000100 s (after s (execMailCommit x0 x1 s)) := by
  unfold execMailCommit
  try with_reducible refine FrameB.next ?_
  repeat' first | (with_reducible first | apply FrameB.refl | assumption | intro _ | apply frame_access | apply frame_mailCommit | apply FrameB.ite) | decide | split | unfold id | dsimp only

theorem frame_execEngineRun x0 x1 x2 s : FrameB 0x1A1DB2A190 s (after s (execEngineRun x0 x1 x2 s)) := by
  unfold execEngineRun
  try with_reducible refine FrameB.next ?_
  repeat' first | (with_reducible first | apply FrameB.refl | assumption | intro _ | apply frame_access | apply frame_writeSveCfg | apply FrameB.ite) | decide | split | unfold id | dsimp only

theorem frame_execSeekTimeout x0 s : FrameB 0x7811102B12 s (after s (execSeekTimeout x0 s)) := by
  unfold execSeekTimeout
  try with_reducible refine FrameB.next ?_
  repeat' first | (with_reducible first | apply FrameB.refl | apply frame_abandonMoves | apply frame_advanceTo | apply FrameB.ite) | decide | split | unfold id | dsimp only

theorem frame_execShockConversion x0 x1 x2 s : FrameB 0x1A0DB2A180 s (after s (execShockConversion x0 x1 x2 s)) := by
  unfold execShockConversion
  try with_reducible refine FrameB.next ?_
  repeat' first | (with_reducible first | apply FrameB.refl | assumption | intro _ | apply frame_State_modSve | apply frame_ev | apply frame_servoDecide | apply frame_sveLine | apply FrameB.ite) | decide | split | unfold id | dsimp only

theorem frame_execShockSensorFault x0 x1 s : FrameB 0x1801000100 s (after s (execShockSensorFault x0 x1 s)) := by
  unfold execShockSensorFault
  try with_reducible refine FrameB.next ?_
  repeat' first | (with_reducible first | apply FrameB.refl | assumption | intro _ | apply frame_State_modSve | apply frame_ev | apply FrameB.ite) | decide | split | unfold id | dsimp only

theorem frame_execCdaShort x0 x1 s : FrameB 0x1A1DB2A180 s (after s (execCdaShort x0 x1 s)) := by
  unfold execCdaShort
  try with_reducible refine FrameB.next ?_
  repeat' first | (with_reducible first | apply FrameB.refl | assumption | intro _ | apply frame_State_modSve | apply frame_ev | apply frame_faultDecision | apply frame_gatesOff | apply frame_retractStart | apply FrameB.ite) | decide | split | unfold id | dsimp only

theorem frame_execRetractGo x0 x1 s : FrameB 0x1A1DB2A180 s (after s (execRetractGo x0 x1 s)) := by
  unfold execRetractGo
  try with_reducible refine FrameB.next ?_
  repeat' first | (with_reducible first | apply FrameB.refl | assumption | intro _ | apply frame_access | apply frame_retractStart | apply FrameB.ite) | decide | split | unfold id | dsimp only

theorem frame_execRetractEnd x0 s : FrameB 0x7FFFFFFFF2 s (after s (execRetractEnd x0 s)) := by
  unfold execRetractEnd
  try with_reducible refine FrameB.next ?_
  repeat' first | (with_reducible first | apply FrameB.refl | apply frame_lossEnd | apply frame_retractEnd | apply FrameB.ite) | decide | split | unfold id | dsimp only

theorem frame_execFocusLost x0 s : FrameB 0x7811102B12 s (after s (execFocusLost x0 s)) := by
  unfold execFocusLost
  try with_reducible refine FrameB.next ?_
  repeat' first | (with_reducible first | apply FrameB.refl | assumption | intro _ | apply frame_State_modPu | apply frame_State_modSve | apply frame_abandonMoves | apply frame_advanceTo | apply frame_ev | apply frame_setFocused | apply frame_sveLine | apply FrameB.ite) | decide | split | unfold id | dsimp only

theorem frame_execJumpGo x0 x1 x2 s : FrameB 0x1811000110 s (after s (execJumpGo x0 x1 x2 s)) := by
  unfold execJumpGo
  try with_reducible refine FrameB.next ?_
  repeat' first | (with_reducible first | apply FrameB.refl | assumption | intro _ | apply frame_access | apply frame_writeJump | apply FrameB.ite) | decide | split | unfold id | dsimp only

theorem frame_execFocusSweepGo x0 x1 x2 s : FrameB 0x1811000110 s (after s (execFocusSweepGo x0 x1 x2 s)) := by
  unfold execFocusSweepGo
  try with_reducible refine FrameB.next ?_
  repeat' first | (with_reducible first | apply FrameB.refl | assumption | intro _ | apply frame_access | apply frame_writeSweep | apply FrameB.ite) | decide | split | unfold id | dsimp only

theorem frame_execTraceStart x0 x1 x2 s : FrameB 0x1801002110 s (after s (execTraceStart x0 x1 x2 s)) := by
  unfold execTraceStart
  try with_reducible refine FrameB.next ?_
  repeat' first | (with_reducible first | apply FrameB.refl | assumption | intro _ | apply frame_access | apply frame_writeTrctl | apply FrameB.ite) | decide | split | unfold id | dsimp only

theorem frame_execTraceStop x0 x1 x2 s : FrameB 0x1801002110 s (after s (execTraceStop x0 x1 x2 s)) := by
  unfold execTraceStop
  try with_reducible refine FrameB.next ?_
  repeat' first | (with_reducible first | apply FrameB.refl | assumption | intro _ | apply frame_access | apply frame_writeTrctl | apply FrameB.ite) | decide | split | unfold id | dsimp only

theorem frame_execTraceRead x0 x1 s : FrameB 0x1801000104 s (after s (execTraceRead x0 x1 s)) := by
  unfold execTraceRead
  try with_reducible refine FrameB.next ?_
  repeat' first | (with_reducible first | apply FrameB.refl | assumption | intro _ | apply frame_access | apply frame_readTrdata | apply FrameB.ite) | decide | split | unfold id | dsimp only

theorem frame_execStart x0 s : FrameB 0x1A1FB2A180 s (after s (execStart x0 s)) := by
  unfold execStart
  try with_reducible refine FrameB.next ?_
  repeat' first | (with_reducible first | apply FrameB.refl | apply frame_spnCmd | apply FrameB.ite) | decide | split | unfold id | dsimp only

theorem frame_execBrake x0 s : FrameB 0x1A1FB2A180 s (after s (execBrake x0 s)) := by
  unfold execBrake
  try with_reducible refine FrameB.next ?_
  repeat' first | (with_reducible first | apply FrameB.refl | apply frame_spnCmd | apply FrameB.ite) | decide | split | unfold id | dsimp only

theorem frame_execBrakeEntry s : FrameB 0x1802000100 s (after s (execBrakeEntry s)) := by
  unfold execBrakeEntry
  try with_reducible refine FrameB.next ?_
  repeat' first | (with_reducible first | apply FrameB.refl | assumption | intro _ | apply frame_State_modSpn | apply frame_driveStep | apply frame_ev | apply FrameB.ite) | decide | split | unfold id | dsimp only

theorem frame_execCoast x0 s : FrameB 0x1A1FB2A180 s (after s (execCoast x0 s)) := by
  unfold execCoast
  try with_reducible refine FrameB.next ?_
  repeat' first | (with_reducible first | apply FrameB.refl | apply frame_spnCmd | apply FrameB.ite) | decide | split | unfold id | dsimp only

theorem frame_execClrf x0 s : FrameB 0x1A1FB2A180 s (after s (execClrf x0 s)) := by
  unfold execClrf
  try with_reducible refine FrameB.next ?_
  repeat' first | (with_reducible first | apply FrameB.refl | apply frame_spnCmd | apply FrameB.ite) | decide | split | unfold id | dsimp only

theorem frame_execAlignDone s : FrameB 0x2000000 s (after s (execAlignDone s)) := by
  unfold execAlignDone
  try with_reducible refine FrameB.next ?_
  repeat' first | (with_reducible first | apply FrameB.refl | assumption | intro _ | apply frame_State_modSpn | apply FrameB.ite) | decide | split | unfold id | dsimp only

theorem frame_execSpinupAttemptTimeout s : FrameB 0x7A0EB2AB92 s (after s (execSpinupAttemptTimeout s)) := by
  unfold execSpinupAttemptTimeout
  try with_reducible refine FrameB.next ?_
  repeat' first | (with_reducible first | apply FrameB.refl | apply frame_advanceTo | apply frame_alignStart | apply frame_ev | apply frame_spnFault | apply FrameB.ite) | decide | split | unfold id | dsimp only

theorem frame_execPwmCentre x0 x1 x2 x3 s : FrameB 0x1A1FB2A180 s (after s (execPwmCentre x0 x1 x2 x3 s)) := by
  unfold execPwmCentre
  try with_reducible refine FrameB.next ?_
  repeat' first | (with_reducible first | apply FrameB.refl | assumption | intro _ | apply frame_State_modSpn | apply frame_brakeSpeed | apply frame_ev | apply frame_limitDuty | apply frame_lockGone | apply frame_raiseLine | apply frame_shiftStep | apply frame_spindleSample | apply frame_spnInputs | apply frame_unloadEntry | apply FrameB.ite) | decide | split | unfold id | dsimp only

theorem frame_execBemfCrossing x0 x1 s : FrameB 0x1A1FB6A190 s (after s (execBemfCrossing x0 x1 s)) := by
  unfold execBemfCrossing
  try with_reducible refine FrameB.next ?_
  repeat' first | (with_reducible first | apply FrameB.refl | assumption | intro _ | apply frame_State_modSpn | apply frame_brakeSpeed | apply frame_crossingBad | apply frame_crossingGood | apply frame_revStep | apply frame_swapPhases | apply frame_unloadCheck | apply FrameB.ite) | decide | split | unfold id | dsimp only

theorem frame_execCommutation x0 s : FrameB 0x1A1FB2A180 s (after s (execCommutation x0 s)) := by
  unfold execCommutation
  try with_reducible refine FrameB.next ?_
  repeat' first | (with_reducible first | apply FrameB.refl | assumption | intro _ | apply frame_State_modSpn | apply frame_crossingBad | apply frame_driveStep | apply FrameB.ite) | decide | split | unfold id | dsimp only

theorem frame_execFloatPeriodEnd x0 s : FrameB 0x1A1FB2A180 s (after s (execFloatPeriodEnd x0 s)) := by
  unfold execFloatPeriodEnd
  try with_reducible refine FrameB.next ?_
  repeat' first | (with_reducible first | apply FrameB.refl | assumption | intro _ | apply frame_State_modSpn | apply frame_driveStep | apply frame_recoveryFails | apply frame_unloadCheck | apply FrameB.ite) | decide | split | unfold id | dsimp only

theorem frame_execRecoveryTimeout s : FrameB 0x7A1FB2AB92 s (after s (execRecoveryTimeout s)) := by
  unfold execRecoveryTimeout
  try with_reducible refine FrameB.next ?_
  repeat' first | (with_reducible first | apply FrameB.refl | apply frame_advanceTo | apply frame_recoveryFails | apply FrameB.ite) | decide | split | unfold id | dsimp only

theorem frame_execMotorRailThreshold x0 s : FrameB 0x2000000 s (after s (execMotorRailThreshold x0 s)) := by
  unfold execMotorRailThreshold
  try with_reducible refine FrameB.next ?_
  repeat' first | (with_reducible first | apply FrameB.refl | assumption | intro _ | apply frame_State_modSpn | apply FrameB.ite) | decide | split | unfold id | dsimp only

theorem frame_execChopperFault x0 x1 s : FrameB 0x1A1FB2A180 s (after s (execChopperFault x0 x1 s)) := by
  unfold execChopperFault
  try with_reducible refine FrameB.next ?_
  repeat' first | (with_reducible first | apply FrameB.refl | assumption | intro _ | apply frame_State_modSpn | apply frame_ev | apply frame_gatesLow | apply frame_raiseLine | apply frame_requestUnload | apply FrameB.ite) | decide | split | unfold id | dsimp only

theorem frame_execChopperConducting x0 s : FrameB 0x1802002100 s (after s (execChopperConducting x0 s)) := by
  unfold execChopperConducting
  try with_reducible refine FrameB.next ?_
  repeat' first | (with_reducible first | apply FrameB.refl | assumption | intro _ | apply frame_State_modSpn | apply frame_ev | apply frame_raiseLine | apply FrameB.ite) | decide | split | unfold id | dsimp only

theorem frame_execRailOvervoltage x0 s : FrameB 0x1A0EB2A180 s (after s (execRailOvervoltage x0 s)) := by
  unfold execRailOvervoltage
  try with_reducible refine FrameB.next ?_
  repeat' first | (with_reducible first | apply FrameB.refl | assumption | intro _ | apply frame_State_modSpn | apply frame_ev | apply frame_raiseLine | apply frame_spnFault | apply FrameB.ite) | decide | split | unfold id | dsimp only

theorem frame_execSpnFltNLow s : FrameB 0x1A1FB2A180 s (after s (execSpnFltNLow s)) := by
  unfold execSpnFltNLow
  try with_reducible refine FrameB.next ?_
  repeat' first | (with_reducible first | apply FrameB.refl | apply frame_ev | apply frame_raiseLine | apply frame_requestUnload | apply frame_spinupPhaseFault | apply frame_spnFault | apply FrameB.ite) | decide | split | unfold id | dsimp only

theorem frame_execPhaseOpen x0 s : FrameB 0x1A1FB2A180 s (after s (execPhaseOpen x0 s)) := by
  unfold execPhaseOpen
  try with_reducible refine FrameB.next ?_
  repeat' first | (with_reducible first | apply FrameB.refl | assumption | intro _ | apply frame_State_modSpn | apply frame_askBrake | apply frame_ev | apply frame_gatesLow | apply frame_lockGone | apply frame_raiseLine | apply frame_requestUnload | apply frame_spinupPhaseFault | apply frame_spnFault | apply FrameB.ite) | decide | split | unfold id | dsimp only

theorem frame_execSupplyReversed x0 s : FrameB 0x1802000100 s (after s (execSupplyReversed x0 s)) := by
  unfold execSupplyReversed
  try with_reducible refine FrameB.next ?_
  repeat' first | (with_reducible first | apply FrameB.refl | assumption | intro _ | apply frame_State_modSpn | apply frame_ev | apply FrameB.ite) | decide | split | unfold id | dsimp only

theorem frame_execSpindleStopped s : FrameB 0x1802002100 s (after s (execSpindleStopped s)) := by
  unfold execSpindleStopped
  try with_reducible refine FrameB.next ?_
  repeat' first | (with_reducible first | apply FrameB.refl | assumption | intro _ | apply frame_State_modSpn | apply frame_ev | apply frame_raiseLine | apply FrameB.ite) | decide | split | unfold id | dsimp only

theorem frame_execRectifyExit s : FrameB 0x2000000 s (after s (execRectifyExit s)) := by
  unfold execRectifyExit
  try with_reducible refine FrameB.next ?_
  repeat' first | (with_reducible first | apply FrameB.refl | assumption | intro _ | apply frame_State_modSpn | apply FrameB.ite) | decide | split | unfold id | dsimp only

theorem frame_execPreampFault x0 s : FrameB 0x1A0CB22180 s (after s (execPreampFault x0 s)) := by
  unfold execPreampFault
  try with_reducible refine FrameB.next ?_
  repeat' first | (with_reducible first | apply FrameB.refl | apply frame_ev | apply frame_faultDecision | apply frame_laserOff | apply FrameB.ite) | decide | split | unfold id | dsimp only

theorem frame_execPsiFrameDone x0 x1 x2 s : FrameB 0x180C102100 s (after s (execPsiFrameDone x0 x1 x2 s)) := by
  unfold execPsiFrameDone
  try with_reducible refine FrameB.next ?_
  repeat' first | (with_reducible first | apply FrameB.refl | assumption | intro _ | apply frame_State_modPsi | apply frame_ev | apply frame_frameUsed | apply frame_raiseLine | apply FrameB.ite) | decide | split | unfold id | dsimp only

theorem frame_execPsiFwcmdGo x0 x1 x2 s : FrameB 0x1804000100 s (after s (execPsiFwcmdGo x0 x1 x2 s)) := by
  unfold execPsiFwcmdGo
  try with_reducible refine FrameB.next ?_
  repeat' first | (with_reducible first | apply FrameB.refl | assumption | intro _ | apply frame_access | apply frame_writeFwcmd | apply FrameB.ite) | decide | split | unfold id | dsimp only

theorem frame_execLaserMonitorRead x0 x1 x2 s : FrameB 0x7A0CB22B92 s (after s (execLaserMonitorRead x0 x1 x2 s)) := by
  unfold execLaserMonitorRead
  try with_reducible refine FrameB.next ?_
  repeat' first | (with_reducible first | apply FrameB.refl | assumption | intro _ | apply frame_State_modLaser | apply frame_elapse | apply frame_judgeReading | apply frame_readPower | apply FrameB.ite) | decide | split | unfold id | dsimp only

theorem frame_execLsrClrf x0 x1 s : FrameB 0x1808000100 s (after s (execLsrClrf x0 x1 s)) := by
  unfold execLsrClrf
  try with_reducible refine FrameB.next ?_
  repeat' first | (with_reducible first | apply FrameB.refl | assumption | intro _ | apply frame_access | apply frame_writeClrf | apply FrameB.ite) | decide | split | unfold id | dsimp only

theorem frame_execAddressUnit x0 x1 x2 x3 s : FrameB 0x1A1DB22180 s (after s (execAddressUnit x0 x1 x2 x3 s)) := by
  unfold execAddressUnit
  try with_reducible refine FrameB.next ?_
  repeat' first | (with_reducible first | apply FrameB.refl | apply frame_acceptAddr | apply frame_clockStep | apply frame_missAddr | apply frame_wedgePasses | apply FrameB.ite) | decide | split | unfold id | dsimp only

theorem frame_execOptFmtWrite x0 x1 s : FrameB 0x1800000110 s (after s (execOptFmtWrite x0 x1 s)) := by
  unfold execOptFmtWrite
  try with_reducible refine FrameB.next ?_
  repeat' first | (with_reducible first | apply FrameB.refl | assumption | intro _ | apply frame_access | apply frame_writeOptFmt | apply FrameB.ite) | decide | split | unfold id | dsimp only

theorem frame_execSaDelayEnd x0 s : FrameB 0x7811000B12 s (after s (execSaDelayEnd x0 s)) := by
  unfold execSaDelayEnd
  try with_reducible refine FrameB.next ?_
  repeat' first | (with_reducible first | apply FrameB.refl | apply frame_advanceTo | apply frame_jumpStart | apply frame_optBump | apply FrameB.ite) | decide | split | unfold id | dsimp only

theorem frame_execSledMoveEnd x0 s : FrameB 0x7810000B12 s (after s (execSledMoveEnd x0 s)) := by
  unfold execSledMoveEnd
  try with_reducible refine FrameB.next ?_
  repeat' first | (with_reducible first | apply FrameB.refl | assumption | intro _ | apply frame_State_modPu | apply frame_advanceTo | apply FrameB.ite) | decide | split | unfold id | dsimp only

theorem frame_execDdrRead x0 x1 x2 s : FrameB 0x18600031AC s (after s (execDdrRead x0 x1 x2 s)) := by
  unfold execDdrRead
  try with_reducible refine FrameB.next ?_
  repeat' first | (with_reducible first | apply FrameB.refl | apply frame_ddrTake | apply FrameB.ite) | decide | split | unfold id | dsimp only

theorem frame_execRegattrPolicyWrite x0 x1 x2 s : FrameB 0x1860000130 s (after s (execRegattrPolicyWrite x0 x1 x2 s)) := by
  unfold execRegattrPolicyWrite
  try with_reducible refine FrameB.next ?_
  repeat' first | (with_reducible first | apply FrameB.refl | assumption | intro _ | apply frame_access | apply frame_writeRegattr | apply FrameB.ite) | decide | split | unfold id | dsimp only

theorem frame_execSplitRead x0 s : FrameB 0x1860002130 s (after s (execSplitRead x0 s)) := by
  unfold execSplitRead
  try with_reducible refine FrameB.next ?_
  repeat' first | (with_reducible first | apply FrameB.refl | assumption | intro _ | apply frame_access | apply frame_splitGo | apply FrameB.ite) | decide | split | unfold id | dsimp only

theorem frame_execSplitWrite x0 s : FrameB 0x1860002130 s (after s (execSplitWrite x0 s)) := by
  unfold execSplitWrite
  try with_reducible refine FrameB.next ?_
  repeat' first | (with_reducible first | apply FrameB.refl | assumption | intro _ | apply frame_access | apply frame_splitGo | apply FrameB.ite) | decide | split | unfold id | dsimp only

theorem frame_execScrubRead x0 s : FrameB 0x1820002100 s (after s (execScrubRead x0 s)) := by
  unfold execScrubRead
  refine FrameB.next ?_
  refine .ite ?_ .refl
  refine .ite ?_ ?_
  · exact frame_scrubLine _ _ _ .refl rfl
  · exact frame_scrubEnd _ _ (frame_scrubLine _ _ _ .refl rfl) rfl

theorem frame_execSoftPpr x0 x1 s : FrameB 0x1820002110 s (after s (execSoftPpr x0 x1 s)) := by
  unfold execSoftPpr
  try with_reducible refine FrameB.next ?_
  repeat' first | (with_reducible first | apply FrameB.refl | assumption | intro _ | apply frame_access | apply frame_pprGo | apply FrameB.ite) | decide | split | unfold id | dsimp only

theorem frame_execHardPpr x0 x1 s : FrameB 0x1820002110 s (after s (execHardPpr x0 x1 s)) := by
  unfold execHardPpr
  try with_reducible refine FrameB.next ?_
  repeat' first | (with_reducible first | apply FrameB.refl | assumption | intro _ | apply frame_access | apply frame_pprGo | apply FrameB.ite) | decide | split | unfold id | dsimp only

theorem frame_execRowLogClear x0 x1 s : FrameB 0x1820000100 s (after s (execRowLogClear x0 x1 s)) := by
  unfold execRowLogClear
  try with_reducible refine FrameB.next ?_
  repeat' first | (with_reducible first | apply FrameB.refl | assumption | intro _ | apply frame_access | apply frame_rowClear | apply FrameB.ite) | decide | split | unfold id | dsimp only

theorem frame_execBccAccess x0 x1 x2 x3 x4 s : FrameB 0x18600031AC s (after s (execBccAccess x0 x1 x2 x3 x4 s)) := by
  unfold execBccAccess
  try with_reducible refine FrameB.next ?_
  repeat' first | (with_reducible first | apply FrameB.refl | apply frame_ddrTake | apply frame_wayError | apply FrameB.ite) | decide | split | unfold id | dsimp only

theorem frame_execCeWindowExpiry s : FrameB 0x40000000 s (after s (execCeWindowExpiry s)) := by
  unfold execCeWindowExpiry
  try with_reducible refine FrameB.next ?_
  repeat' first | (with_reducible first | apply FrameB.refl | assumption | intro _ | apply frame_State_modBcc | apply FrameB.ite) | decide | split | unfold id | dsimp only

theorem frame_execBccEnable x0 s : FrameB 0x1840000100 s (after s (execBccEnable x0 s)) := by
  unfold execBccEnable
  try with_reducible refine FrameB.next ?_
  repeat' first | (with_reducible first | apply FrameB.refl | assumption | intro _ | apply frame_access | apply frame_bccSetEn | apply FrameB.ite) | decide | split | unfold id | dsimp only

theorem frame_execBccDisable x0 s : FrameB 0x1840000100 s (after s (execBccDisable x0 s)) := by
  unfold execBccDisable
  try with_reducible refine FrameB.next ?_
  repeat' first | (with_reducible first | apply FrameB.refl | assumption | intro _ | apply frame_access | apply frame_bccClearEn | apply FrameB.ite) | decide | split | unfold id | dsimp only

theorem frame_execDrainComplete s : FrameB 0x18600021A0 s (after s (execDrainComplete s)) := by
  unfold execDrainComplete
  try with_reducible refine FrameB.next ?_
  repeat' first | (with_reducible first | apply FrameB.refl | assumption | intro _ | apply frame_State_drawn | apply frame_State_modBcc | apply frame_bccPut | apply frame_ev | apply frame_raiseLine | apply frame_writeBack | apply FrameB.foldl (fun _ _ => ?_) | apply FrameB.ite) | decide | split | unfold id | dsimp only

theorem frame_execBccClean x0 s : FrameB 0x1840002110 s (after s (execBccClean x0 s)) := by
  unfold execBccClean
  try with_reducible refine FrameB.next ?_
  repeat' first | (with_reducible first | apply FrameB.refl | apply frame_rangeCmd | apply FrameB.ite) | decide | split | unfold id | dsimp only

theorem frame_execBccInval x0 s : FrameB 0x1840002110 s (after s (execBccInval x0 s)) := by
  unfold execBccInval
  try with_reducible refine FrameB.next ?_
  repeat' first | (with_reducible first | apply FrameB.refl | apply frame_rangeCmd | apply FrameB.ite) | decide | split | unfold id | dsimp only

theorem frame_execBccCleanInval x0 s : FrameB 0x1840002110 s (after s (execBccCleanInval x0 s)) := by
  unfold execBccCleanInval
  try with_reducible refine FrameB.next ?_
  repeat' first | (with_reducible first | apply FrameB.refl | apply frame_rangeCmd | apply FrameB.ite) | decide | split | unfold id | dsimp only

theorem frame_execBccZero x0 s : FrameB 0x1840002110 s (after s (execBccZero x0 s)) := by
  unfold execBccZero
  try with_reducible refine FrameB.next ?_
  repeat' first | (with_reducible first | apply FrameB.refl | apply frame_rangeCmd | apply FrameB.ite) | decide | split | unfold id | dsimp only

theorem frame_execBccLock x0 s : FrameB 0x1840002110 s (after s (execBccLock x0 s)) := by
  unfold execBccLock
  try with_reducible refine FrameB.next ?_
  repeat' first | (with_reducible first | apply FrameB.refl | apply frame_rangeCmd | apply FrameB.ite) | decide | split | unfold id | dsimp only

theorem frame_execBccUnlock x0 s : FrameB 0x1840002110 s (after s (execBccUnlock x0 s)) := by
  unfold execBccUnlock
  try with_reducible refine FrameB.next ?_
  repeat' first | (with_reducible first | apply FrameB.refl | apply frame_rangeCmd | apply FrameB.ite) | decide | split | unfold id | dsimp only

theorem frame_execBccInvalAll x0 s : FrameB 0x1840002110 s (after s (execBccInvalAll x0 s)) := by
  unfold execBccInvalAll
  try with_reducible refine FrameB.next ?_
  repeat' first | (with_reducible first | apply FrameB.refl | apply frame_rangeCmd | apply FrameB.ite) | decide | split | unfold id | dsimp only

theorem frame_execRangeOpDone s : FrameB 0x1860002120 s (after s (execRangeOpDone s)) := by
  unfold execRangeOpDone
  try with_reducible refine FrameB.next ?_
  repeat' first | (with_reducible first | apply FrameB.refl | apply frame_rangeFinish | apply FrameB.ite) | decide | split | unfold id | dsimp only

theorem frame_execRepairMapEntry x0 s : FrameB 0x1880000390 s (after s (execRepairMapEntry x0 s)) := by
  unfold execRepairMapEntry
  try with_reducible refine FrameB.next ?_
  repeat' first | (with_reducible first | apply FrameB.refl | assumption | intro _ | apply frame_mailbox | apply frame_State_modSys | apply frame_answer | apply frame_ev | apply frame_programFuses | apply FrameB.ite) | decide | split | unfold id | dsimp only

theorem frame_execExtend x0 x1 s : FrameB 0x1880000110 s (after s (execExtend x0 x1 s)) := by
  unfold execExtend
  try with_reducible refine FrameB.next ?_
  repeat' first | (with_reducible first | apply FrameB.refl | assumption | intro _ | apply frame_mailbox | apply frame_answer | apply frame_extendMeas | apply FrameB.ite) | decide | split | unfold id | dsimp only

theorem frame_execKeyGenerate x0 x1 x2 s : FrameB 0x18E00031B0 s (after s (execKeyGenerate x0 x1 x2 s)) := by
  unfold execKeyGenerate
  try with_reducible refine FrameB.next ?_
  repeat' first | (with_reducible first | apply FrameB.refl | assumption | intro _ | apply frame_mailbox | apply frame_State_modSec | apply frame_answer | apply frame_newKey | apply frame_respondFree | apply FrameB.ite) | decide | split | unfold id | dsimp only

theorem frame_execKeyZero x0 s : FrameB 0x1880000110 s (after s (execKeyZero x0 s)) := by
  unfold execKeyZero
  try with_reducible refine FrameB.next ?_
  repeat' first | (with_reducible first | apply FrameB.refl | assumption | intro _ | apply frame_mailbox | apply frame_answer | apply frame_zeroSlot | apply FrameB.ite) | decide | split | unfold id | dsimp only

theorem frame_execKeyCheckpoint s : FrameB 0x18E00031B0 s (after s (execKeyCheckpoint s)) := by
  unfold execKeyCheckpoint
  try with_reducible refine FrameB.next ?_
  repeat' first | (with_reducible first | apply FrameB.refl | assumption | intro _ | apply frame_mailbox | apply frame_State_modSec | apply frame_respondRecords | apply frame_storeRecords | apply FrameB.ite) | decide | split | unfold id | dsimp only

theorem frame_execNsActive x0 x1 x2 s : FrameB 0x1880000110 s (after s (execNsActive x0 x1 x2 s)) := by
  unfold execNsActive
  try with_reducible refine FrameB.next ?_
  repeat' first | (with_reducible first | apply FrameB.refl | assumption | intro _ | apply frame_mailbox | apply frame_answer | apply frame_setNsKey | apply FrameB.ite) | decide | split | unfold id | dsimp only

theorem frame_execSvnCommit x0 s : FrameB 0x1880000190 s (after s (execSvnCommit x0 s)) := by
  unfold execSvnCommit
  try with_reducible refine FrameB.next ?_
  repeat' first | (with_reducible first | apply FrameB.refl | assumption | intro _ | apply frame_mailbox | apply frame_State_modSec | apply frame_answer | apply frame_ev | apply frame_programFuses | apply FrameB.ite) | decide | split | unfold id | dsimp only

theorem frame_execTakeOwnership x0 s : FrameB 0x1880000190 s (after s (execTakeOwnership x0 s)) := by
  unfold execTakeOwnership
  try with_reducible refine FrameB.next ?_
  repeat' first | (with_reducible first | apply FrameB.refl | assumption | intro _ | apply frame_mailbox | apply frame_State_modSec | apply frame_answer | apply frame_programFuses | apply FrameB.ite) | decide | split | unfold id | dsimp only

theorem frame_execAddOwnerKey x0 x1 s : FrameB 0x1880000190 s (after s (execAddOwnerKey x0 x1 s)) := by
  unfold execAddOwnerKey
  try with_reducible refine FrameB.next ?_
  repeat' first | (with_reducible first | apply FrameB.refl | assumption | intro _ | apply frame_mailbox | apply frame_State_modSec | apply frame_answer | apply frame_programFuses | apply FrameB.ite) | decide | split | unfold id | dsimp only

theorem frame_execRevokeOwnerKey x0 x1 s : FrameB 0x1880000190 s (after s (execRevokeOwnerKey x0 x1 s)) := by
  unfold execRevokeOwnerKey
  try with_reducible refine FrameB.next ?_
  repeat' first | (with_reducible first | apply FrameB.refl | assumption | intro _ | apply frame_mailbox | apply frame_State_modSec | apply frame_answer | apply frame_programFuses | apply FrameB.ite) | decide | split | unfold id | dsimp only

theorem frame_execOwnerPolicy x0 x1 x2 x3 s : FrameB 0x1880000110 s (after s (execOwnerPolicy x0 x1 x2 x3 s)) := by
  unfold execOwnerPolicy
  try with_reducible refine FrameB.next ?_
  repeat' first | (with_reducible first | apply FrameB.refl | assumption | intro _ | apply frame_mailbox | apply frame_State_modSec | apply frame_answer | apply FrameB.ite) | decide | split | unfold id | dsimp only

theorem frame_execExportKeys x0 x1 s : FrameB 0x18E00031B0 s (after s (execExportKeys x0 x1 s)) := by
  unfold execExportKeys
  try with_reducible refine FrameB.next ?_
  repeat' first | (with_reducible first | apply FrameB.refl | assumption | intro _ | apply frame_mailbox | apply frame_answer | apply frame_ev | apply frame_respondFree | apply FrameB.ite) | decide | split | unfold id | dsimp only

theorem frame_execImportKeys x0 x1 s : FrameB 0x18E00031B0 s (after s (execImportKeys x0 x1 s)) := by
  unfold execImportKeys
  try with_reducible refine FrameB.next ?_
  repeat' first | (with_reducible first | apply FrameB.refl | assumption | intro _ | apply frame_mailbox | apply frame_answer | apply frame_ev | apply frame_respondRecords | apply frame_storeRecords | apply FrameB.ite) | decide | split | unfold id | dsimp only

theorem frame_execBehaviourProfileUnlock x0 x1 s : FrameB 0x1880000310 s (after s (execBehaviourProfileUnlock x0 x1 s)) := by
  unfold execBehaviourProfileUnlock
  try with_reducible refine FrameB.next ?_
  repeat' first | (with_reducible first | apply FrameB.refl | assumption | intro _ | apply frame_mailbox | apply frame_State_modSys | apply frame_answer | apply FrameB.ite) | decide | split | unfold id | dsimp only

theorem frame_execFirmwareActivationMeasurement x0 s : FrameB 0x1880000110 s (after s (execFirmwareActivationMeasurement x0 s)) := by
  unfold execFirmwareActivationMeasurement
  try with_reducible refine FrameB.next ?_
  repeat' first | (with_reducible first | apply FrameB.refl | assumption | intro _ | apply frame_mailbox | apply frame_answer | apply frame_extendMeas | apply FrameB.ite) | decide | split | unfold id | dsimp only

theorem frame_execSlotSelect x0 x1 s : FrameB 0x1880000110 s (after s (execSlotSelect x0 x1 s)) := by
  unfold execSlotSelect
  try with_reducible refine FrameB.next ?_
  repeat' first | (with_reducible first | apply FrameB.refl | assumption | intro _ | apply frame_access | apply frame_writeSlotsel | apply FrameB.ite) | decide | split | unfold id | dsimp only

theorem frame_execSnuffLevel1 x0 s : FrameB 0x5EECBBFFBC s (after s (execSnuffLevel1 x0 s)) := by
  unfold execSnuffLevel1
  try with_reducible refine FrameB.next ?_
  repeat' first | (with_reducible first | apply FrameB.refl | apply frame_snuff1 | apply frame_wakeNoted | apply FrameB.ite) | decide | split | unfold id | dsimp only

theorem frame_execSnuffLevel2 x0 s : FrameB 0x5EECBBFFBC s (after s (execSnuffLevel2 x0 s)) := by
  unfold execSnuffLevel2
  try with_reducible refine FrameB.next ?_
  repeat' first | (with_reducible first | apply FrameB.refl | apply frame_snuff2 | apply frame_wakeNoted | apply FrameB.ite) | decide | split | unfold id | dsimp only

theorem frame_execAlarmFuseBlow s : FrameB 0x5EECBBFFBC s (after s (execAlarmFuseBlow s)) := by
  unfold execAlarmFuseBlow
  try with_reducible refine FrameB.next ?_
  repeat' first | (with_reducible first | apply FrameB.refl | apply frame_blowAlarm | apply frame_wakeNoted | apply FrameB.ite) | decide | split | unfold id | dsimp only

theorem frame_execEpochFuseBlow s : FrameB 0x1880000180 s (after s (execEpochFuseBlow s)) := by
  unfold execEpochFuseBlow
  try with_reducible refine FrameB.next ?_
  repeat' first | (with_reducible first | apply FrameB.refl | assumption | intro _ | apply frame_State_modSec | apply frame_ev | apply frame_programFuses | apply FrameB.ite) | decide | split | unfold id | dsimp only

theorem frame_execKeyRestore s : FrameB 0x7880020B12 s (after s (execKeyRestore s)) := by
  unfold execKeyRestore
  try with_reducible refine FrameB.next ?_
  repeat' first | (with_reducible first | apply FrameB.refl | assumption | intro _ | apply frame_State_modSec | apply frame_advanceTo | apply frame_deallocWiped | apply frame_ev | apply frame_startQuiet | apply frame_unwrapRec | apply frame_zeroKst | apply FrameB.foldl (fun _ _ => ?_) | apply FrameB.ite) | decide | split | unfold id | dsimp only

theorem frame_execDebugChallenge s : FrameB 0x80000080 s (after s (execDebugChallenge s)) := by
  unfold execDebugChallenge
  try with_reducible refine FrameB.next ?_
  repeat' first | (with_reducible first | apply FrameB.refl | assumption | intro _ | apply frame_State_drawn | apply frame_State_modSec | apply FrameB.ite) | decide | split | unfold id | dsimp only

theorem frame_execDebugResponse x0 x1 x2 x3 s : FrameB 0x5EECBBFFBC s (after s (execDebugResponse x0 x1 x2 x3 s)) := by
  unfold execDebugResponse
  try with_reducible refine FrameB.next ?_
  repeat' first | (with_reducible first | apply FrameB.refl | apply frame_debugAnswer | apply frame_wakeNoted | apply FrameB.ite) | decide | split | unfold id | dsimp only

theorem frame_execThmConversion x0 x1 s : FrameB 0x1B1FB7E380 s (after s (execThmConversion x0 x1 s)) := by
  unfold execThmConversion
  try with_reducible refine FrameB.next ?_
  repeat' first | (with_reducible first | apply FrameB.refl | apply frame_conversion | apply FrameB.ite) | decide | split | unfold id | dsimp only

theorem frame_execShutdownDimEntry s : FrameB 0x1900018980 s (after s (execShutdownDimEntry s)) := by
  unfold execShutdownDimEntry
  try with_reducible refine FrameB.next ?_
  repeat' first | (with_reducible first | apply FrameB.refl | assumption | intro _ | apply frame_State_modThm | apply frame_enterDim | apply FrameB.ite) | decide | split | unfold id | dsimp only

theorem frame_execCriticalDarkEntry s : FrameB 0x7FFFFFFF72 s (after s (execCriticalDarkEntry s)) := by
  unfold execCriticalDarkEntry
  try with_reducible refine FrameB.next ?_
  repeat' first | (with_reducible first | apply FrameB.refl | apply frame_criticalDark | apply frame_elapse | apply FrameB.ite) | decide | split | unfold id | dsimp only

theorem frame_execCriticalWake x0 s : FrameB 0x79E00BAFB2 s (after s (execCriticalWake x0 s)) := by
  unfold execCriticalWake
  try with_reducible refine FrameB.next ?_
  repeat' first | (with_reducible first | apply FrameB.refl | assumption | intro _ | apply frame_State_drawn | apply frame_State_modPwr | apply frame_State_modThm | apply frame_elapse | apply frame_startCore | apply frame_wakeRecord | apply FrameB.ite) | decide | split | unfold id | dsimp only

theorem frame_execClrshut x0 s : FrameB 0x190005E100 s (after s (execClrshut x0 s)) := by
  unfold execClrshut
  try with_reducible refine FrameB.next ?_
  repeat' first | (with_reducible first | apply FrameB.refl | assumption | intro _ | apply frame_access | apply frame_writeThmCmd | apply FrameB.ite) | decide | split | unfold id | dsimp only

theorem frame_execClrexcl x0 s : FrameB 0x190005E100 s (after s (execClrexcl x0 s)) := by
  unfold execClrexcl
  try with_reducible refine FrameB.next ?_
  repeat' first | (with_reducible first | apply FrameB.refl | assumption | intro _ | apply frame_access | apply frame_writeThmCmd | apply FrameB.ite) | decide | split | unfold id | dsimp only

theorem frame_execTrimCompute x0 s : FrameB 0x1A00000180 s (after s (execTrimCompute x0 s)) := by
  unfold execTrimCompute
  try with_reducible refine FrameB.next ?_
  repeat' first | (with_reducible first | apply FrameB.refl | assumption | intro _ | apply frame_computeAuto | apply frame_computeComp | apply frame_retarget | apply FrameB.foldl (fun _ _ => ?_) | apply FrameB.ite) | decide | split | unfold id | dsimp only

theorem frame_execTaperStep x0 s : FrameB 0x7A00302B92 s (after s (execTaperStep x0 s)) := by
  unfold execTaperStep
  try with_reducible refine FrameB.next ?_
  repeat' first | (with_reducible first | apply FrameB.refl | apply frame_stepTrim | apply FrameB.ite) | decide | split | unfold id | dsimp only

theorem frame_execTrimAge x0 s : FrameB 0x7A00000B12 s (after s (execTrimAge x0 s)) := by
  unfold execTrimAge
  try with_reducible refine FrameB.next ?_
  repeat' first | (with_reducible first | apply FrameB.refl | assumption | intro _ | apply frame_advanceTo | apply frame_ev | apply frame_modTrim | apply frame_setIrqStat | apply FrameB.ite) | decide | split | unfold id | dsimp only

theorem frame_execEventStore s : FrameB 0x5800000100 s (after s (execEventStore s)) := by
  unfold execEventStore
  try with_reducible refine FrameB.next ?_
  repeat' first | (with_reducible first | apply FrameB.refl | assumption | intro _ | apply frame_State_modEvr | apply frame_drained | apply frame_storeEvent | apply FrameB.ite) | decide | split | unfold id | dsimp only

theorem frame_execEventRaiseSw x0 x1 s : FrameB 0x1800000110 s (after s (execEventRaiseSw x0 x1 s)) := by
  unfold execEventRaiseSw
  try with_reducible refine FrameB.next ?_
  repeat' first | (with_reducible first | apply FrameB.refl | assumption | intro _ | apply frame_access | apply frame_writeSwev | apply FrameB.ite) | decide | split | unfold id | dsimp only

theorem frame_execFloodPeriod s : FrameB 0x5800000100 s (after s (execFloodPeriod s)) := by
  unfold execFloodPeriod
  try with_reducible refine FrameB.next ?_
  repeat' first | (with_reducible first | apply FrameB.refl | assumption | intro _ | apply frame_State_modEvr | apply frame_storeCount | apply FrameB.foldl (fun _ _ => ?_) | apply FrameB.ite) | decide | split | unfold id | dsimp only

theorem frame_execEvrNextRead x0 s : FrameB 0x1800000104 s (after s (execEvrNextRead x0 s)) := by
  unfold execEvrNextRead
  try with_reducible refine FrameB.next ?_
  repeat' first | (with_reducible first | apply FrameB.refl | assumption | intro _ | apply frame_access | apply frame_readNext0 | apply FrameB.ite) | decide | split | unfold id | dsimp only

theorem frame_execEvrCursorWrite x0 x1 s : FrameB 0x1800000100 s (after s (execEvrCursorWrite x0 x1 s)) := by
  unfold execEvrCursorWrite
  try with_reducible refine FrameB.next ?_
  repeat' first | (with_reducible first | apply FrameB.refl | assumption | intro _ | apply frame_access | apply frame_writeCur | apply FrameB.ite) | decide | split | unfold id | dsimp only

theorem frame_execEvrWindowAdvance x0 s : FrameB 0x1800000104 s (after s (execEvrWindowAdvance x0 s)) := by
  unfold execEvrWindowAdvance
  try with_reducible refine FrameB.next ?_
  repeat' first | (with_reducible first | apply FrameB.refl | assumption | intro _ | apply frame_access | apply frame_readWin7 | apply FrameB.ite) | decide | split | unfold id | dsimp only

theorem frame_execEvrBaseWrite x0 x1 x2 s : FrameB 0x1800000180 s (after s (execEvrBaseWrite x0 x1 x2 s)) := by
  unfold execEvrBaseWrite
  try with_reducible refine FrameB.next ?_
  repeat' first | (with_reducible first | apply FrameB.refl | assumption | intro _ | apply frame_access | apply frame_writeBase | apply FrameB.ite) | decide | split | unfold id | dsimp only

theorem frame_execEvrStore x0 s : FrameB 0x1800000100 s (after s (execEvrStore x0 s)) := by
  unfold execEvrStore
  try with_reducible refine FrameB.next ?_
  repeat' first | (with_reducible first | apply FrameB.refl | assumption | intro _ | apply frame_access | apply frame_evrStore | apply FrameB.ite) | decide | split | unfold id | dsimp only

theorem frame_execEvrCommit x0 s : FrameB 0x5800000180 s (after s (execEvrCommit x0 s)) := by
  unfold execEvrCommit
  try with_reducible refine FrameB.next ?_
  repeat' first | (with_reducible first | apply FrameB.refl | assumption | intro _ | apply frame_access | apply frame_evrCommit | apply FrameB.ite) | decide | split | unfold id | dsimp only

theorem frame_execLifAdd x0 x1 s : FrameB 0x1800000100 s (after s (execLifAdd x0 x1 s)) := by
  unfold execLifAdd
  try with_reducible refine FrameB.next ?_
  repeat' first | (with_reducible first | apply FrameB.refl | assumption | intro _ | apply frame_access | apply frame_writeAddgo | apply FrameB.ite) | decide | split | unfold id | dsimp only

theorem frame_execLifSeal x0 s : FrameB 0x1800000100 s (after s (execLifSeal x0 s)) := by
  unfold execLifSeal
  try with_reducible refine FrameB.next ?_
  repeat' first | (with_reducible first | apply FrameB.refl | assumption | intro _ | apply frame_access | apply frame_lifSeal | apply FrameB.ite) | decide | split | unfold id | dsimp only

theorem frame_execLifSnap x0 s : FrameB 0x1800000100 s (after s (execLifSnap x0 s)) := by
  unfold execLifSnap
  try with_reducible refine FrameB.next ?_
  repeat' first | (with_reducible first | apply FrameB.refl | assumption | intro _ | apply frame_access | apply frame_lifSnap | apply FrameB.ite) | decide | split | unfold id | dsimp only

theorem frame_execLifTick s : FrameB 0x1800000100 s (after s (execLifTick s)) := by
  unfold execLifTick
  try with_reducible refine FrameB.next ?_
  repeat' first | (with_reducible first | apply FrameB.refl | assumption | intro _ | apply frame_lifBump | apply FrameB.foldl (fun _ _ => ?_) | apply FrameB.ite) | decide | split | unfold id | dsimp only

theorem frame_execCalRead x0 s : FrameB 0x3800000104 s (after s (execCalRead x0 s)) := by
  unfold execCalRead
  try with_reducible refine FrameB.next ?_
  repeat' first | (with_reducible first | apply FrameB.refl | assumption | intro _ | apply frame_access | apply frame_readUsec | apply FrameB.ite) | decide | split | unfold id | dsimp only

theorem frame_execCalSet x0 x1 s : FrameB 0x3800000910 s (after s (execCalSet x0 x1 s)) := by
  unfold execCalSet
  try with_reducible refine FrameB.next ?_
  repeat' first | (with_reducible first | apply FrameB.refl | assumption | intro _ | apply frame_access | apply frame_writeCalCmd | apply FrameB.ite) | decide | split | unfold id | dsimp only

theorem frame_execCalAdjust x0 x1 s : FrameB 0x3800000110 s (after s (execCalAdjust x0 x1 s)) := by
  unfold execCalAdjust
  try with_reducible refine FrameB.next ?_
  repeat' first | (with_reducible first | apply FrameB.refl | assumption | intro _ | apply frame_access | apply frame_writeCalAdj | apply FrameB.ite) | decide | split | unfold id | dsimp only

theorem frame_execSlewDone s : FrameB 0x7800000B12 s (after s (execSlewDone s)) := by
  unfold execSlewDone
  try with_reducible refine FrameB.next ?_
  repeat' first | (with_reducible first | apply FrameB.refl | apply frame_elapse | apply FrameB.ite) | decide | split | unfold id | dsimp only

theorem frame_execCalAlarm s : FrameB 0x7800000B12 s (after s (execCalAlarm s)) := by
  unfold execCalAlarm
  try with_reducible refine FrameB.next ?_
  repeat' first | (with_reducible first | apply FrameB.refl | apply frame_elapse | apply FrameB.ite) | decide | split | unfold id | dsimp only

theorem frame_execBeaconSend s : FrameB 0x7800002B12 s (after s (execBeaconSend s)) := by
  unfold execBeaconSend
  try with_reducible refine FrameB.next ?_
  repeat' first | (with_reducible first | apply FrameB.refl | assumption | intro _ | apply frame_State_modVlk | apply frame_elapse | apply frame_keyAtBeacon | apply frame_sendSeg | apply frame_vlkBump | apply FrameB.ite) | decide | split | unfold id | dsimp only

theorem frame_execBeaconReceive x0 x1 s : FrameB 0x7800002990 s (after s (execBeaconReceive x0 x1 s)) := by
  unfold execBeaconReceive
  try with_reducible refine FrameB.next ?_
  repeat' first | (with_reducible first | apply FrameB.refl | assumption | intro _ | apply frame_beaconFailed | apply frame_beaconLost | apply frame_beaconTaken | apply frame_upSeg | apply FrameB.ite) | decide | split | unfold id | dsimp only

theorem frame_execBeaconMissed s : FrameB 0x5800002100 s (after s (execBeaconMissed s)) := by
  unfold execBeaconMissed
  try with_reducible refine FrameB.next ?_
  repeat' first | (with_reducible first | apply FrameB.refl | assumption | intro _ | apply frame_State_modVlk | apply frame_beaconLost | apply FrameB.ite) | decide | split | unfold id | dsimp only

theorem frame_execDiscoverSend s : FrameB 0x4000002000 s (after s (execDiscoverSend s)) := by
  unfold execDiscoverSend
  try with_reducible refine FrameB.next ?_
  repeat' first | (with_reducible first | apply FrameB.refl | apply frame_vlkBump | apply FrameB.ite) | decide | split | unfold id | dsimp only

theorem frame_execDiscoverReceive x0 s : FrameB 0x5800002180 s (after s (execDiscoverReceive x0 s)) := by
  unfold execDiscoverReceive
  try with_reducible refine FrameB.next ?_
  repeat' first | (with_reducible first | apply FrameB.refl | assumption | intro _ | apply frame_State_drawn | apply frame_sendFrame | apply frame_vlkReceive | apply FrameB.ite) | decide | split | unfold id | dsimp only

theorem frame_execEnrollReceive x0 x1 s : FrameB 0x58600031A0 s (after s (execEnrollReceive x0 x1 s)) := by
  unfold execEnrollReceive
  try with_reducible refine FrameB.next ?_
  repeat' first | (with_reducible first | apply FrameB.refl | assumption | intro _ | apply frame_enrollStep | apply frame_vlkReceive | apply FrameB.ite) | decide | split | unfold id | dsimp only

theorem frame_execPollSend s : FrameB 0x4000002080 s (after s (execPollSend s)) := by
  unfold execPollSend
  try with_reducible refine FrameB.next ?_
  repeat' first | (with_reducible first | apply FrameB.refl | apply frame_pollSlot | apply FrameB.ite) | decide | split | unfold id | dsimp only

theorem frame_execPollReceive x0 s : FrameB 0x5880006100 s (after s (execPollReceive x0 s)) := by
  unfold execPollReceive
  try with_reducible refine FrameB.next ?_
  repeat' first | (with_reducible first | apply FrameB.refl | assumption | intro _ | apply frame_sendReply | apply frame_takePollItem | apply frame_upLink | apply FrameB.foldl (fun _ _ => ?_) | apply FrameB.ite) | decide | split | unfold id | dsimp only

theorem frame_execReplyReceive x0 s : FrameB 0x58600031A0 s (after s (execReplyReceive x0 s)) := by
  unfold execReplyReceive
  try with_reducible refine FrameB.next ?_
  repeat' first | (with_reducible first | apply FrameB.refl | assumption | intro _ | apply frame_modSlot | apply frame_pollDone | apply frame_replyBad | apply frame_slotAnswers | apply frame_takeReplyItem | apply frame_vlkReceive | apply FrameB.foldl (fun _ _ => ?_) | apply FrameB.ite) | decide | split | unfold id | dsimp only

theorem frame_execPollMissed s : FrameB 0x5800002100 s (after s (execPollMissed s)) := by
  unfold execPollMissed
  try with_reducible refine FrameB.next ?_
  repeat' first | (with_reducible first | apply FrameB.refl | assumption | intro _ | apply frame_modSlot | apply frame_pollDone | apply frame_slotSilent | apply frame_vlkBump | apply FrameB.ite) | decide | split | unfold id | dsimp only

theorem frame_execImageReceive x0 x1 x2 x3 x4 s : FrameB 0x58600031A0 s (after s (execImageReceive x0 x1 x2 x3 x4 s)) := by
  unfold execImageReceive
  try with_reducible refine FrameB.next ?_
  repeat' first | (with_reducible first | apply FrameB.refl | assumption | intro _ | apply frame_takeChunk | apply frame_upSeg | apply FrameB.ite) | decide | split | unfold id | dsimp only

theorem frame_execVlkWake x0 x1 x2 s : FrameB 0x1CE00BFFBC s (after s (execVlkWake x0 x1 x2 s)) := by
  unfold execVlkWake
  try with_reducible refine FrameB.next ?_
  repeat' first | (with_reducible first | apply FrameB.refl | apply frame_noteWake | apply frame_wakeAct | apply FrameB.ite) | decide | split | unfold id | dsimp only

theorem frame_execLeaseRenewalRequest s : FrameB 0x7800000B12 s (after s (execLeaseRenewalRequest s)) := by
  unfold execLeaseRenewalRequest
  try with_reducible refine FrameB.next ?_
  repeat' first | (with_reducible first | apply FrameB.refl | assumption | intro _ | apply frame_State_modVlk | apply frame_advanceTo | apply FrameB.ite) | decide | split | unfold id | dsimp only

theorem frame_execLeaseExpiry s : FrameB 0x7800006B92 s (after s (execLeaseExpiry s)) := by
  unfold execLeaseExpiry
  try with_reducible refine FrameB.next ?_
  repeat' first | (with_reducible first | apply FrameB.refl | assumption | intro _ | apply frame_State_modVlk | apply frame_advanceTo | apply frame_clearLease | apply frame_ev | apply frame_raiseLine | apply frame_startOrphan | apply FrameB.ite) | decide | split | unfold id | dsimp only

theorem frame_execQuietPeriodEnd s : FrameB 0x7800000B12 s (after s (execQuietPeriodEnd s)) := by
  unfold execQuietPeriodEnd
  try with_reducible refine FrameB.next ?_
  repeat' first | (with_reducible first | apply FrameB.refl | assumption | intro _ | apply frame_State_modVlk | apply frame_advanceTo | apply FrameB.ite) | decide | split | unfold id | dsimp only

theorem frame_execOrphanBackoffEnd s : FrameB 0x7800006B12 s (after s (execOrphanBackoffEnd s)) := by
  unfold execOrphanBackoffEnd
  try with_reducible refine FrameB.next ?_
  repeat' first | (with_reducible first | apply FrameB.refl | assumption | intro _ | apply frame_State_modVlk | apply frame_advanceTo | apply frame_ev | apply frame_raiseLine | apply frame_setLease | apply FrameB.ite) | decide | split | unfold id | dsimp only

theorem frame_execOrphanWindowEnd s : FrameB 0x7800006B12 s (after s (execOrphanWindowEnd s)) := by
  unfold execOrphanWindowEnd
  try with_reducible refine FrameB.next ?_
  repeat' first | (with_reducible first | apply FrameB.refl | assumption | intro _ | apply frame_State_modVlk | apply frame_advanceTo | apply frame_clearLease | apply FrameB.ite) | decide | split | unfold id | dsimp only

theorem frame_execSegmentKeyRotation s : FrameB 0x7800000B12 s (after s (execSegmentKeyRotation s)) := by
  unfold execSegmentKeyRotation
  try with_reducible refine FrameB.next ?_
  repeat' first | (with_reducible first | apply FrameB.refl | assumption | intro _ | apply frame_State_modVlk | apply frame_advanceTo | apply FrameB.ite) | decide | split | unfold id | dsimp only

theorem frame_execVlkCmdWake x0 x1 s : FrameB 0x5800000100 s (after s (execVlkCmdWake x0 x1 s)) := by
  unfold execVlkCmdWake
  try with_reducible refine FrameB.next ?_
  repeat' first | (with_reducible first | apply FrameB.refl | assumption | intro _ | apply frame_access | apply frame_cmdWake | apply FrameB.ite) | decide | split | unfold id | dsimp only

theorem frame_execVlkCmdAttreq x0 x1 s : FrameB 0x5800000100 s (after s (execVlkCmdAttreq x0 x1 s)) := by
  unfold execVlkCmdAttreq
  try with_reducible refine FrameB.next ?_
  repeat' first | (with_reducible first | apply FrameB.refl | assumption | intro _ | apply frame_access | apply frame_cmdAttreq | apply FrameB.ite) | decide | split | unfold id | dsimp only

theorem frame_execVlkCmdRemove x0 x1 s : FrameB 0x5800002100 s (after s (execVlkCmdRemove x0 x1 s)) := by
  unfold execVlkCmdRemove
  try with_reducible refine FrameB.next ?_
  repeat' first | (with_reducible first | apply FrameB.refl | assumption | intro _ | apply frame_access | apply frame_cmdRemove | apply FrameB.ite) | decide | split | unfold id | dsimp only

theorem frame_execImageFanout x0 x1 s : FrameB 0x5800000190 s (after s (execImageFanout x0 x1 s)) := by
  unfold execImageFanout
  try with_reducible refine FrameB.next ?_
  repeat' first | (with_reducible first | apply FrameB.refl | assumption | intro _ | apply frame_access | apply frame_writeImgcmd | apply FrameB.ite) | decide | split | unfold id | dsimp only

theorem frame_execLinkOpen s : FrameB 0x7800002B12 s (after s (execLinkOpen s)) := by
  unfold execLinkOpen
  try with_reducible refine FrameB.next ?_
  repeat' first | (with_reducible first | apply FrameB.refl | assumption | intro _ | apply frame_State_modVlk | apply frame_advanceTo | apply frame_ev | apply frame_raiseLine | apply frame_toHoldover | apply FrameB.ite) | decide | split | unfold id | dsimp only

theorem frame_execLinkShort x0 s : FrameB 0x5800002100 s (after s (execLinkShort x0 s)) := by
  unfold execLinkShort
  try with_reducible refine FrameB.next ?_
  repeat' first | (with_reducible first | apply FrameB.refl | assumption | intro _ | apply frame_State_modVlk | apply frame_ev | apply frame_raiseLine | apply FrameB.ite) | decide | split | unfold id | dsimp only

theorem frame_execLinkRetry x0 s : FrameB 0x7800000B12 s (after s (execLinkRetry x0 s)) := by
  unfold execLinkRetry
  try with_reducible refine FrameB.next ?_
  repeat' first | (with_reducible first | apply FrameB.refl | assumption | intro _ | apply frame_State_modVlk | apply frame_advanceTo | apply FrameB.ite) | decide | split | unfold id | dsimp only

theorem frame_execHeadRetire x0 x1 x2 x3 s : FrameB 0x1800138180 s (after s (execHeadRetire x0 x1 x2 x3 s)) := by
  unfold execHeadRetire
  try with_reducible refine FrameB.next ?_
  repeat' first | (with_reducible first | apply FrameB.refl | assumption | intro _ | apply frame_State_modHce | apply frame_access | apply frame_headretSet | apply frame_healthAdd | apply frame_retireZones | apply FrameB.ite) | decide | split | unfold id | dsimp only

theorem frame_execSectorStart x0 s : FrameB 0x300000 s (after s (execSectorStart x0 s)) := by
  unfold execSectorStart
  try with_reducible refine FrameB.next ?_
  repeat' first | (with_reducible first | apply FrameB.refl | assumption | intro _ | apply frame_State_modRwc | apply frame_gatesFollow | apply frame_preambleLoad | apply frame_waitComes | apply FrameB.ite) | decide | split | unfold id | dsimp only

theorem frame_execSectorEnd x0 s : FrameB 0x320080 s (after s (execSectorEnd x0 s)) := by
  unfold execSectorEnd
  try with_reducible refine FrameB.next ?_
  repeat' first | (with_reducible first | apply FrameB.refl | assumption | intro _ | apply frame_State_modAsq | apply frame_State_modRwc | apply frame_adaptRun | apply frame_countDone | apply frame_healSector | apply frame_waitComes | apply FrameB.ite) | decide | split | unfold id | dsimp only

theorem frame_execWedgeGap x0 x1 s : FrameB 0x200202080 s (after s (execWedgeGap x0 x1 s)) := by
  unfold execWedgeGap
  try with_reducible refine FrameB.next ?_
  repeat' first | (with_reducible first | apply FrameB.refl | assumption | intro _ | apply frame_State_modRwc | apply frame_adaptRun | apply frame_rwcBump | apply FrameB.ite) | fail_if_no_progress ((with_reducible apply FrameB.set_trm); rfl) | decide | split | unfold id | dsimp only

theorem frame_execDefectSpanEnd x0 x1 x2 s : FrameB 0x1800202100 s (after s (execDefectSpanEnd x0 x1 x2 s)) := by
  unfold execDefectSpanEnd
  try with_reducible refine FrameB.next ?_
  repeat' first | (with_reducible first | apply FrameB.refl | assumption | intro _ | apply frame_State_modRwc | apply frame_clkPrime | apply frame_ev | apply frame_rwcBump | apply frame_rwcLine | apply FrameB.ite) | decide | split | unfold id | dsimp only

theorem frame_execWickCriticalLimit x0 s : FrameB 0x5FFFFFFFF0 s (after s (execWickCriticalLimit x0 s)) := by
  unfold execWickCriticalLimit
  try with_reducible refine FrameB.next ?_
  repeat' first | (with_reducible first | apply FrameB.refl | assumption | intro _ | apply frame_State_modThm | apply frame_criticalDark | apply frame_criticalLimit | apply FrameB.ite) | decide | split | unfold id | dsimp only

theorem frame_execPprDone x0 s : FrameB 0x18200021A0 s (after s (execPprDone x0 s)) := by
  unfold execPprDone
  try with_reducible refine FrameB.next ?_
  repeat' first | (with_reducible first | apply FrameB.refl | apply frame_pprResult | apply frame_scrambleRow | apply FrameB.ite) | decide | split | unfold id | dsimp only

theorem frame_execSegmentGrantExpiry x0 s : FrameB 0x7800002B12 s (after s (execSegmentGrantExpiry x0 s)) := by
  unfold execSegmentGrantExpiry
  try with_reducible refine FrameB.next ?_
  repeat' first | (with_reducible first | apply FrameB.refl | assumption | intro _ | apply frame_advanceTo | apply frame_modSlot | apply frame_removeSlot | apply FrameB.foldl (fun _ _ => ?_) | apply FrameB.ite) | decide | split | unfold id | dsimp only

theorem frame_execFleetAuthorizationExpiry s : FrameB 0x7800000B12 s (after s (execFleetAuthorizationExpiry s)) := by
  unfold execFleetAuthorizationExpiry
  try with_reducible refine FrameB.next ?_
  repeat' first | (with_reducible first | apply FrameB.refl | apply frame_elapse | apply frame_unenrol | apply FrameB.ite) | decide | split | unfold id | dsimp only

theorem frame_execVddAux33Loss s : FrameB 0x7FFFFFFF72 s (after s (execVddAux33Loss s)) := by
  unfold execVddAux33Loss
  try with_reducible refine FrameB.next ?_
  repeat' first | (with_reducible first | apply FrameB.refl | apply frame_wickReset | apply FrameB.ite) | decide | split | unfold id | dsimp only

end Sys2Proof.Machine
end

