-- ==== Sys2Proof/Laws/Canon.lean ====
section
/-!
SUPPORT. Every operation of the model keeps the canonical forms of the memories and of the register file.
-/

set_option linter.all false

set_option Elab.async false

namespace Sys2Proof.Machine

/-- The mask holds neither memory, nor the register file. -/
@[reducible] def noStore (m : Nat) : Bool := Nat.beq (Nat.land m 0x70) 0

theorem noStore_bit {m i : Nat} (e : noStore m = true) (hi : Nat.testBit 0x70 i = true) : m.testBit i = false := by
  have h : m &&& 0x70 = 0 := Nat.eq_of_beq_eq_true e
  have h' := congrArg (fun x => x.testBit i) h
  rw [Nat.testBit_and, hi, Nat.zero_testBit, Bool.and_true] at h'
  exact h'

theorem Canonical.via {m : Nat} {s t : State} (k : FrameB m s t) (e : noStore m = true) (h : Canonical s) : Canonical t := by
  have h1 : t.mem = s.mem := k .mem (noStore_bit e rfl)
  have h2 : t.tcm = s.tcm := k .tcm (noStore_bit e rfl)
  have h3 : t.regs = s.regs := k .regs (noStore_bit e rfl)
  unfold Canonical
  rw [h1, h2, h3]
  exact h

theorem Canonical.of_eq {s t : State} (h : t = s) (k : Canonical t) : Canonical s := h ▸ k

theorem Canonical.ite {t u : State} {c : Prop} {d : Decidable c} (h : Canonical t) (k : Canonical u) :
    Canonical (if c then t else u) := by split <;> assumption

theorem Canonical.foldl {α : Type} {f : State → α → State} (k : ∀ u x, Canonical u → Canonical (f u x)) {xs : List α}
    {s : State} (h : Canonical s) : Canonical (xs.foldl f s) := by
  induction xs generalizing s with
  | nil => exact h
  | cons x xs ih => exact ih (k _ _ h)

theorem Canonical.next {s t : State} (h : Canonical t) : Canonical (after s (.next t)) := h

theorem canon_setReg x0 x1 x2 x3 s (h : Canonical s) : Canonical (setReg x0 x1 x2 x3 s) := ⟨h.1, h.2.1, h.2.2.sput⟩

theorem canon_setMemByte x0 x1 s (h : Canonical s) : Canonical (setMemByte x0 x1 s) := ⟨wf_setMemByte h.1, h.2⟩

theorem canon_memWriteBytes x0 x1 s (h : Canonical s) : Canonical (memWriteBytes x0 x1 s) := by
  induction x1 generalizing x0 s with
  | nil => exact h
  | cons b t ih => exact ih _ _ (canon_setMemByte _ _ _ h)

theorem canon_resetRegs x0 x1 s (h : Canonical s) : Canonical (resetRegs x0 x1 s) := ⟨h.1, h.2.1, h.2.2.filter _⟩

theorem canon_zeroMibs x0 s (h : Canonical s) : Canonical (zeroMibs x0 s) := ⟨wf_filter _ h.1, h.2⟩

theorem canon_coreReset s (h : Canonical s) : Canonical (coreReset s) := ⟨wf_filter _ h.1, rfl, h.2.2.filter _⟩

theorem Canonical.set_busData {s : State} {v0} (h : Canonical s) : Canonical { s with busData := v0 } := h

theorem Canonical.set_dmc {s : State} {v0} (h : Canonical s) : Canonical { s with dmc := v0 } := h

theorem Canonical.set_l1 {s : State} {v0} (h : Canonical s) : Canonical { s with l1 := v0 } := h

theorem Canonical.set_busData_busErr {s : State} {v0 v1} (h : Canonical s) : Canonical { s with busData := v0, busErr := v1 } := h

theorem Canonical.set_busErr {s : State} {v0} (h : Canonical s) : Canonical { s with busErr := v0 } := h

theorem Canonical.set_busData_busErr_l1 {s : State} {v0 v1 v2} (h : Canonical s) : Canonical { s with busData := v0, busErr := v1, l1 := v2 } := h

theorem Canonical.set_cal {s : State} {v0} (h : Canonical s) : Canonical { s with cal := v0 } := h

theorem Canonical.set_us_sys {s : State} {v0 v1} (h : Canonical s) : Canonical { s with us := v0, sys := v1 } := h

theorem Canonical.set_us {s : State} {v0} (h : Canonical s) : Canonical { s with us := v0 } := h

theorem Canonical.set_sys {s : State} {v0} (h : Canonical s) : Canonical { s with sys := v0 } := h

theorem Canonical.set_asq {s : State} {v0} (h : Canonical s) : Canonical { s with asq := v0 } := h

theorem Canonical.set_rwc {s : State} {v0} (h : Canonical s) : Canonical { s with rwc := v0 } := h

theorem Canonical.set_sve {s : State} {v0} (h : Canonical s) : Canonical { s with sve := v0 } := h

theorem Canonical.set_opt {s : State} {v0} (h : Canonical s) : Canonical { s with opt := v0 } := h

theorem Canonical.set_vlk {s : State} {v0} (h : Canonical s) : Canonical { s with vlk := v0 } := h

theorem Canonical.set_hce {s : State} {v0} (h : Canonical s) : Canonical { s with hce := v0 } := h

theorem Canonical.set_lgr {s : State} {v0} (h : Canonical s) : Canonical { s with lgr := v0 } := h

theorem Canonical.set_rvr {s : State} {v0} (h : Canonical s) : Canonical { s with rvr := v0 } := h

theorem Canonical.set_cst {s : State} {v0} (h : Canonical s) : Canonical { s with cst := v0 } := h

theorem Canonical.set_psi {s : State} {v0} (h : Canonical s) : Canonical { s with psi := v0 } := h

theorem Canonical.set_lsr {s : State} {v0} (h : Canonical s) : Canonical { s with lsr := v0 } := h

theorem Canonical.set_bcc {s : State} {v0} (h : Canonical s) : Canonical { s with bcc := v0 } := h

theorem Canonical.set_trm {s : State} {v0} (h : Canonical s) : Canonical { s with trm := v0 } := h

theorem Canonical.set_lif {s : State} {v0} (h : Canonical s) : Canonical { s with lif := v0 } := h

theorem Canonical.set_tpe {s : State} {v0} (h : Canonical s) : Canonical { s with tpe := v0 } := h

theorem Canonical.set_clk {s : State} {v0} (h : Canonical s) : Canonical { s with clk := v0 } := h

theorem Canonical.set_irq {s : State} {v0} (h : Canonical s) : Canonical { s with irq := v0 } := h

theorem Canonical.set_sup {s : State} {v0} (h : Canonical s) : Canonical { s with sup := v0 } := h

theorem canon_notePolarity x0 x1 s (h : Canonical s) : Canonical (notePolarity x0 x1 s) :=
  .via (frame_notePolarity _ _ _ (m := 0x5800000100) .refl rfl) rfl h

theorem canon_vlkBump x0 s (h : Canonical s) : Canonical (vlkBump x0 s) :=
  .via (frame_vlkBump _ _ (m := 0x4000002000) .refl rfl) rfl h

theorem canon_State_modVlk x0 s (h : Canonical s) : Canonical (State.modVlk x0 s) :=
  .via (frame_State_modVlk _ _ (m := 0x4000000000) .refl rfl) rfl h

theorem canon_guarantee x0 x1 x2 x3 x4 x5 s (h : Canonical s) : Canonical (guarantee x0 x1 x2 x3 x4 x5 s) :=
  .via (frame_guarantee _ _ _ _ _ _ _ (m := 0x1800000100) .refl rfl) rfl h

theorem canon_State_drawn s (h : Canonical s) : Canonical (State.drawn s) :=
  .via (frame_State_drawn _ (m := 0x80) .refl rfl) rfl h

theorem canon_useWindow x0 x1 s (h : Canonical s) : Canonical (useWindow x0 x1 s) :=
  .via (frame_useWindow _ _ _ (m := 0x100) .refl rfl) rfl h

theorem canon_blockError x0 x1 x2 x3 s (h : Canonical s) : Canonical (blockError x0 x1 x2 x3 s) :=
  .via (frame_blockError _ _ _ _ _ (m := 0x1800000100) .refl rfl) rfl h

theorem canon_blockErrorP x0 x1 x2 x3 x4 x5 x6 s (h : Canonical s) : Canonical (blockErrorP x0 x1 x2 x3 x4 x5 x6 s) :=
  .via (frame_blockErrorP _ _ _ _ _ _ _ _ (m := 0x1800000100) .refl rfl) rfl h

theorem canon_finish x0 x1 s (h : Canonical s) : Canonical (finish x0 x1 s) :=
  .via (frame_finish _ _ _ (m := 0x18080) .refl rfl) rfl h

theorem canon_pulseSeek x0 s (h : Canonical s) : Canonical (pulseSeek x0 s) :=
  .via (frame_pulseSeek _ _ (m := 0x1811102100) .refl rfl) rfl h

theorem canon_loadPulse x0 s (h : Canonical s) : Canonical (loadPulse x0 s) :=
  .via (frame_loadPulse _ _ (m := 0x11102000) .refl rfl) rfl h

theorem canon_retractPulse x0 s (h : Canonical s) : Canonical (retractPulse x0 s) :=
  .via (frame_retractPulse _ _ (m := 0x11000100) .refl rfl) rfl h

theorem canon_clkPrime x0 s (h : Canonical s) : Canonical (clkPrime x0 s) :=
  .via (frame_clkPrime _ _ (m := 0x200000) .refl rfl) rfl h

theorem canon_smSearch x0 s (h : Canonical s) : Canonical (smSearch x0 s) :=
  .via (frame_smSearch _ _ (m := 0x302000) .refl rfl) rfl h

theorem canon_blindPulse x0 s (h : Canonical s) : Canonical (blindPulse x0 s) :=
  .via (frame_blindPulse _ _ (m := 0x200000) .refl rfl) rfl h

theorem canon_bufRd x0 s (h : Canonical s) : Canonical (bufRd x0 s) :=
  .via (frame_bufRd _ _ (m := 0x100000) .refl rfl) rfl h

theorem canon_bufWr x0 s (h : Canonical s) : Canonical (bufWr x0 s) :=
  .via (frame_bufWr _ _ (m := 0x100000) .refl rfl) rfl h

theorem canon_ldpSubmit x0 s (h : Canonical s) : Canonical (ldpSubmit x0 s) :=
  .via (frame_ldpSubmit _ _ (m := 0x502080) .refl rfl) rfl h

theorem canon_tpeAcc x0 s (h : Canonical s) : Canonical (tpeAcc x0 s) :=
  .via (frame_tpeAcc _ _ (m := 0x800080) .refl rfl) rfl h

theorem canon_tpeEmit x0 s (h : Canonical s) : Canonical (tpeEmit x0 s) :=
  .via (frame_tpeEmit _ _ (m := 0x900000) .refl rfl) rfl h

theorem canon_sectSkip x0 s (h : Canonical s) : Canonical (sectSkip x0 s) :=
  .via (frame_sectSkip _ _ (m := 0x100000) .refl rfl) rfl h

theorem canon_statPulse x0 s (h : Canonical s) : Canonical (statPulse x0 s) :=
  .via (frame_statPulse _ _ (m := 0x202080) .refl rfl) rfl h

theorem canon_asqLine x0 x1 s (h : Canonical s) : Canonical (asqLine x0 x1 s) :=
  .via (frame_asqLine _ _ _ (m := 0x2000) .refl rfl) rfl h

theorem canon_poisonBytes x0 x1 s (h : Canonical s) : Canonical (poisonBytes x0 x1 s) :=
  .via (frame_poisonBytes _ _ _ (m := 0x20000000) .refl rfl) rfl h

theorem canon_bccPut x0 s (h : Canonical s) : Canonical (bccPut x0 s) :=
  .via (frame_bccPut _ _ (m := 0x40000000) .refl rfl) rfl h

theorem canon_bccTick s (h : Canonical s) : Canonical (bccTick s) :=
  .via (frame_bccTick _ (m := 0x40000000) .refl rfl) rfl h

theorem canon_lineRead x0 x1 x2 s (h : Canonical s) : Canonical (lineRead x0 x1 x2 s).1 :=
  .via (frame_lineRead _ _ _ _ (m := 0x1820002100) .refl rfl) rfl h

theorem canon_bccDirect x0 x1 x2 x3 s (h : Canonical s) : Canonical (bccDirect x0 x1 x2 x3 s).1 :=
  .via (frame_bccDirect _ _ _ _ _ (m := 0x1820002100) .refl rfl) rfl h

theorem canon_State_modBcc x0 s (h : Canonical s) : Canonical (State.modBcc x0 s) :=
  .via (frame_State_modBcc _ _ (m := 0x40000000) .refl rfl) rfl h

theorem canon_l1DropAll x0 s (h : Canonical s) : Canonical (l1DropAll x0 s) :=
  .via (frame_l1DropAll _ _ (m := 0x1000) .refl rfl) rfl h

theorem canon_ev x0 x1 x2 x3 x4 s (h : Canonical s) : Canonical (ev x0 x1 x2 x3 x4 s) :=
  .via (frame_ev _ _ _ _ _ _ (m := 0x1800000100) .refl rfl) rfl h

theorem canon_transferError x0 x1 s (h : Canonical s) : Canonical (transferError x0 x1 s) :=
  .via (frame_transferError _ _ _ (m := 0x1800000180) .refl rfl) rfl h

theorem canon_clearActive x0 x1 s (h : Canonical s) : Canonical (clearActive x0 x1 s) :=
  .via (frame_clearActive _ _ _ (m := 0x100000) .refl rfl) rfl h

theorem canon_endLeave x0 s (h : Canonical s) : Canonical (endLeave x0 s) :=
  .via (frame_endLeave _ _ (m := 0x6000) .refl rfl) rfl h

theorem canon_healthAdd x0 x1 x2 s (h : Canonical s) : Canonical (healthAdd x0 x1 x2 s) :=
  .via (frame_healthAdd _ _ _ _ (m := 0x8000) .refl rfl) rfl h

theorem canon_levelsFall x0 s (h : Canonical s) : Canonical (levelsFall x0 s) :=
  .via (frame_levelsFall _ _ (m := 0x20C300080) .refl rfl) rfl h

theorem canon_postResult x0 x1 s (h : Canonical s) : Canonical (postResult x0 x1 s) :=
  .via (frame_postResult _ _ _ (m := 0x102000) .refl rfl) rfl h

theorem canon_tagDone x0 s (h : Canonical s) : Canonical (tagDone x0 s) :=
  .via (frame_tagDone _ _ (m := 0x8000) .refl rfl) rfl h

theorem canon_unloadEnds x0 x1 s (h : Canonical s) : Canonical (unloadEnds x0 x1 s) :=
  .via (frame_unloadEnds _ _ _ (m := 0x1000000) .refl rfl) rfl h

theorem canon_State_modGrp x0 x1 s (h : Canonical s) : Canonical (State.modGrp x0 x1 s) :=
  .via (frame_State_modGrp _ _ _ (m := 0x800000) .refl rfl) rfl h

theorem canon_State_modRwc x0 x1 s (h : Canonical s) : Canonical (State.modRwc x0 x1 s) :=
  .via (frame_State_modRwc _ _ _ (m := 0x200000) .refl rfl) rfl h

theorem canon_adaptWord x0 x1 x2 s (h : Canonical s) : Canonical (adaptWord x0 x1 x2 s) :=
  .via (frame_adaptWord _ _ _ _ (m := 0x200080) .refl rfl) rfl h

theorem canon_forceCoefs x0 s (h : Canonical s) : Canonical (forceCoefs x0 s) :=
  .via (frame_forceCoefs _ _ (m := 0x200000) .refl rfl) rfl h

theorem canon_loadCoefs x0 x1 s (h : Canonical s) : Canonical (loadCoefs x0 x1 s) :=
  .via (frame_loadCoefs _ _ _ (m := 0x200000) .refl rfl) rfl h

theorem canon_loadSettings x0 x1 x2 x3 s (h : Canonical s) : Canonical (loadSettings x0 x1 x2 x3 s) :=
  .via (frame_loadSettings _ _ _ _ _ (m := 0x200000) .refl rfl) rfl h

theorem canon_State_modAsq x0 x1 s (h : Canonical s) : Canonical (State.modAsq x0 x1 s) :=
  .via (frame_State_modAsq _ _ _ (m := 0x100000) .refl rfl) rfl h

theorem canon_askLeave x0 s (h : Canonical s) : Canonical (askLeave x0 s) :=
  .via (frame_askLeave _ _ (m := 0x1800106100) .refl rfl) rfl h

theorem canon_loadLane x0 s (h : Canonical s) : Canonical (loadLane x0 s) :=
  .via (frame_loadLane _ _ (m := 0x80000000) .refl rfl) rfl h

theorem canon_asqAbortReq x0 s (h : Canonical s) : Canonical (asqAbortReq x0 s) :=
  .via (frame_asqAbortReq _ _ (m := 0x1A0C302180) .refl rfl) rfl h

theorem canon_cancelPending x0 s (h : Canonical s) : Canonical (cancelPending x0 s) :=
  .via (frame_cancelPending _ _ (m := 0x10A000) .refl rfl) rfl h

theorem canon_noteWake x0 s (h : Canonical s) : Canonical (noteWake x0 s) :=
  .via (frame_noteWake _ _ (m := 0x800) .refl rfl) rfl h

theorem canon_setIrqStat x0 x1 x2 s (h : Canonical s) : Canonical (setIrqStat x0 x1 x2 s) :=
  .via (frame_setIrqStat _ _ _ _ (m := 0x100) .refl rfl) rfl h

theorem canon_vlkCount x0 s (h : Canonical s) : Canonical (vlkCount x0 s) :=
  .via (frame_vlkCount _ _ (m := 0x4000000000) .refl rfl) rfl h

theorem canon_State_modHce x0 s (h : Canonical s) : Canonical (State.modHce x0 s) :=
  .via (frame_State_modHce _ _ (m := 0x8000) .refl rfl) rfl h

theorem canon_State_modPwr x0 s (h : Canonical s) : Canonical (State.modPwr x0 s) :=
  .via (frame_State_modPwr _ _ (m := 0x800) .refl rfl) rfl h

theorem canon_gateChannels s (h : Canonical s) : Canonical (gateChannels s) :=
  .via (frame_gateChannels _ (m := 0x800) .refl rfl) rfl h

theorem canon_psReached x0 s (h : Canonical s) : Canonical (psReached x0 s) :=
  .via (frame_psReached _ _ (m := 0x18880) .refl rfl) rfl h

theorem canon_State_modEvr x0 s (h : Canonical s) : Canonical (State.modEvr x0 s) :=
  .via (frame_State_modEvr _ _ (m := 0x800000000) .refl rfl) rfl h

theorem canon_calAdj x0 s (h : Canonical s) : Canonical (calAdj x0 s) :=
  .via (frame_calAdj _ _ (m := 0x2000000100) .refl rfl) rfl h

theorem canon_keyAtBeacon x0 s (h : Canonical s) : Canonical (keyAtBeacon x0 s) :=
  .via (frame_keyAtBeacon _ _ (m := 0x4000000000) .refl rfl) rfl h

theorem canon_raiseLine x0 s (h : Canonical s) : Canonical (raiseLine x0 s) :=
  .via (frame_raiseLine _ _ (m := 0x2000) .refl rfl) rfl h

theorem canon_steer x0 s (h : Canonical s) : Canonical (steer x0 s) :=
  .via (frame_steer _ _ (m := 0x4000000080) .refl rfl) rfl h

theorem canon_dmcPoisonLine x0 s (h : Canonical s) : Canonical (dmcPoisonLine x0 s) :=
  .via (frame_dmcPoisonLine _ _ (m := 0x20000000) .refl rfl) rfl h

theorem canon_State_modSys x0 s (h : Canonical s) : Canonical (State.modSys x0 s) :=
  .via (frame_State_modSys _ _ (m := 0x200) .refl rfl) rfl h

theorem canon_bistEvent x0 s (h : Canonical s) : Canonical (bistEvent x0 s) :=
  .via (frame_bistEvent _ _ (m := 0x1800000300) .refl rfl) rfl h

theorem canon_bistEventFree s (h : Canonical s) : Canonical (bistEventFree s) :=
  .via (frame_bistEventFree _ (m := 0x1800000380) .refl rfl) rfl h

theorem canon_loseChannel x0 s (h : Canonical s) : Canonical (loseChannel x0 s) :=
  .via (frame_loseChannel _ _ (m := 0x1800038180) .refl rfl) rfl h

theorem canon_State_modSec x0 s (h : Canonical s) : Canonical (State.modSec x0 s) :=
  .via (frame_State_modSec _ _ (m := 0x80000000) .refl rfl) rfl h

theorem canon_deriveKeys s (h : Canonical s) : Canonical (deriveKeys s) :=
  .via (frame_deriveKeys _ (m := 0x80000000) .refl rfl) rfl h

theorem canon_extendMeas x0 x1 s (h : Canonical s) : Canonical (extendMeas x0 x1 s) :=
  .via (frame_extendMeas _ _ _ (m := 0x80000000) .refl rfl) rfl h

theorem canon_measureStage s (h : Canonical s) : Canonical (measureStage s) :=
  .via (frame_measureStage _ (m := 0x80000080) .refl rfl) rfl h

theorem canon_busFails s (h : Canonical s) : Canonical (busFails s) :=
  .via (frame_busFails _ (m := 0xC) .refl rfl) rfl h

theorem canon_busZero s (h : Canonical s) : Canonical (busZero s) :=
  .via (frame_busZero _ (m := 0xC) .refl rfl) rfl h

theorem canon_gatesOff x0 s (h : Canonical s) : Canonical (gatesOff x0 s) :=
  .via (frame_gatesOff _ _ (m := 0xCB22000) .refl rfl) rfl h

theorem canon_faultDecision x0 x1 s (h : Canonical s) : Canonical (faultDecision x0 x1 s) :=
  .via (frame_faultDecision _ _ _ (m := 0x1A0CB22180) .refl rfl) rfl h

theorem canon_State_modSve x0 x1 s (h : Canonical s) : Canonical (State.modSve x0 x1 s) :=
  .via (frame_State_modSve _ _ _ (m := 0x1000000) .refl rfl) rfl h

theorem canon_retractStart x0 x1 x2 s (h : Canonical s) : Canonical (retractStart x0 x1 x2 s) :=
  .via (frame_retractStart _ _ _ _ (m := 0x1A1DB2A180) .refl rfl) rfl h

theorem canon_State_modLlt x0 s (h : Canonical s) : Canonical (State.modLlt x0 s) :=
  .via (frame_State_modLlt _ _ (m := 0x4000) .refl rfl) rfl h

theorem canon_revokeLeaves x0 s (h : Canonical s) : Canonical (revokeLeaves x0 s) :=
  .via (frame_revokeLeaves _ _ (m := 0x1A0C306180) .refl rfl) rfl h

theorem canon_dropLinks s (h : Canonical s) : Canonical (dropLinks s) :=
  .via (frame_dropLinks _ (m := 0x4000000000) .refl rfl) rfl h

theorem canon_State_modCtrl x0 x1 s (h : Canonical s) : Canonical (State.modCtrl x0 x1 s) :=
  .via (frame_State_modCtrl _ _ _ (m := 0x8000) .refl rfl) rfl h

theorem canon_State_modXmt x0 s (h : Canonical s) : Canonical (State.modXmt x0 s) :=
  .via (frame_State_modXmt _ _ (m := 0x20000) .refl rfl) rfl h

theorem canon_commitGrantEnd s (h : Canonical s) : Canonical (commitGrantEnd s) :=
  .via (frame_commitGrantEnd _ (m := 0x4000) .refl rfl) rfl h

theorem canon_lasersOff s (h : Canonical s) : Canonical (lasersOff s) :=
  .via (frame_lasersOff _ (m := 0xC200000) .refl rfl) rfl h

theorem canon_powerLit s (h : Canonical s) : Canonical (powerLit s) :=
  .via (frame_powerLit _ (m := 0x1800006900) .refl rfl) rfl h

theorem canon_srstLdp s (h : Canonical s) : Canonical (srstLdp s) :=
  .via (frame_srstLdp _ (m := 0x400000) .refl rfl) rfl h

theorem canon_srstSpin s (h : Canonical s) : Canonical (srstSpin s) :=
  .via (frame_srstSpin _ (m := 0x2000000) .refl rfl) rfl h

theorem canon_tpeDiscard s (h : Canonical s) : Canonical (tpeDiscard s) :=
  .via (frame_tpeDiscard _ (m := 0x800000) .refl rfl) rfl h

theorem canon_trainLink x0 s (h : Canonical s) : Canonical (trainLink x0 s) :=
  .via (frame_trainLink _ _ (m := 0xA000) .refl rfl) rfl h

theorem canon_zeroKst s (h : Canonical s) : Canonical (zeroKst s) :=
  .via (frame_zeroKst _ (m := 0x80000000) .refl rfl) rfl h

theorem canon_State_modHdr x0 x1 s (h : Canonical s) : Canonical (State.modHdr x0 x1 s) :=
  .via (frame_State_modHdr _ _ _ (m := 0x100) .refl rfl) rfl h

theorem canon_bccClearEn s (h : Canonical s) : Canonical (bccClearEn s) :=
  .via (frame_bccClearEn _ (m := 0x1840000100) .refl rfl) rfl h

theorem canon_bccSetEn s (h : Canonical s) : Canonical (bccSetEn s) :=
  .via (frame_bccSetEn _ (m := 0x1840000100) .refl rfl) rfl h

theorem canon_freezeWrite x0 x1 x2 s (h : Canonical s) : Canonical (freezeWrite x0 x1 x2 s) :=
  .via (frame_freezeWrite _ _ _ _ (m := 0x1800006100) .refl rfl) rfl h

theorem canon_errClear x0 x1 s (h : Canonical s) : Canonical (errClear x0 x1 s) :=
  .via (frame_errClear _ _ _ (m := 0x100) .refl rfl) rfl h

theorem canon_irqSet x0 x1 x2 s (h : Canonical s) : Canonical (irqSet x0 x1 x2 s) :=
  .via (frame_irqSet _ _ _ _ (m := 0x100) .refl rfl) rfl h

theorem canon_wdtRestart s (h : Canonical s) : Canonical (wdtRestart s) :=
  .via (frame_wdtRestart _ (m := 0x200) .refl rfl) rfl h

theorem canon_refusePreq x0 s (h : Canonical s) : Canonical (refusePreq x0 s) :=
  .via (frame_refusePreq _ _ (m := 0x1800000180) .refl rfl) rfl h

theorem canon_unwindDim s (h : Canonical s) : Canonical (unwindDim s) :=
  .via (frame_unwindDim _ (m := 0x1800000980) .refl rfl) rfl h

theorem canon_actuatorRetired x0 s (h : Canonical s) : Canonical (actuatorRetired x0 s) :=
  .via (frame_actuatorRetired _ _ (m := 0x1800038180) .refl rfl) rfl h

theorem canon_leaveGo x0 x1 x2 s (h : Canonical s) : Canonical (leaveGo x0 x1 x2 s) :=
  .via (frame_leaveGo _ _ _ _ (m := 0x1800006100) .refl rfl) rfl h

theorem canon_pllSFault s (h : Canonical s) : Canonical (pllSFault s) :=
  .via (frame_pllSFault _ (m := 0x1A1FB2A180) .refl rfl) rfl h

theorem canon_setLock x0 x1 s (h : Canonical s) : Canonical (setLock x0 x1 s) :=
  .via (frame_setLock _ _ _ (m := 0x400) .refl rfl) rfl h

theorem canon_recordEvent x0 x1 x2 x3 x4 s (h : Canonical s) : Canonical (recordEvent x0 x1 x2 x3 x4 s) :=
  .via (frame_recordEvent _ _ _ _ _ _ (m := 0x1800000100) .refl rfl) rfl h

theorem canon_startOrphan s (h : Canonical s) : Canonical (startOrphan s) :=
  .via (frame_startOrphan _ (m := 0x4000000080) .refl rfl) rfl h

theorem canon_startQuiet s (h : Canonical s) : Canonical (startQuiet s) :=
  .via (frame_startQuiet _ (m := 0x5800000100) .refl rfl) rfl h

theorem canon_startFanout x0 x1 s (h : Canonical s) : Canonical (startFanout x0 x1 s) :=
  .via (frame_startFanout _ _ _ (m := 0x4000000000) .refl rfl) rfl h

theorem canon_dropWrite x0 s (h : Canonical s) : Canonical (dropWrite x0 s) :=
  .via (frame_dropWrite _ _ (m := 0x38080) .refl rfl) rfl h

theorem canon_modCmd x0 x1 s (h : Canonical s) : Canonical (modCmd x0 x1 s) :=
  .via (frame_modCmd _ _ _ (m := 0x8000) .refl rfl) rfl h

theorem canon_State_modLgr x0 s (h : Canonical s) : Canonical (State.modLgr x0 s) :=
  .via (frame_State_modLgr _ _ (m := 0x10000) .refl rfl) rfl h

theorem canon_pprResult x0 x1 s (h : Canonical s) : Canonical (pprResult x0 x1 s) :=
  .via (frame_pprResult _ _ _ (m := 0x1820002100) .refl rfl) rfl h

theorem canon_bccDrop x0 s (h : Canonical s) : Canonical (bccDrop x0 s) :=
  .via (frame_bccDrop _ _ (m := 0x40000000) .refl rfl) rfl h

theorem canon_rangeGo x0 s (h : Canonical s) : Canonical (rangeGo x0 s) :=
  .via (frame_rangeGo _ _ (m := 0x1840002100) .refl rfl) rfl h

theorem canon_asqCommit x0 s (h : Canonical s) : Canonical (asqCommit x0 s) :=
  .via (frame_asqCommit _ _ (m := 0x1800100100) .refl rfl) rfl h

theorem canon_dlResult x0 x1 s (h : Canonical s) : Canonical (dlResult x0 x1 s) :=
  .via (frame_dlResult _ _ _ (m := 0x802000) .refl rfl) rfl h

theorem canon_dlWarn x0 x1 s (h : Canonical s) : Canonical (dlWarn x0 x1 s) :=
  .via (frame_dlWarn _ _ _ (m := 0x1800802100) .refl rfl) rfl h

theorem canon_engineStart x0 s (h : Canonical s) : Canonical (engineStart x0 s) :=
  .via (frame_engineStart _ _ (m := 0x1102000) .refl rfl) rfl h

theorem canon_traceTake x0 s (h : Canonical s) : Canonical (traceTake x0 s) :=
  .via (frame_traceTake _ _ (m := 0x1002000) .refl rfl) rfl h

theorem canon_jumpStart x0 x1 x2 x3 x4 s (h : Canonical s) : Canonical (jumpStart x0 x1 x2 x3 x4 s) :=
  .via (frame_jumpStart _ _ _ _ _ _ (m := 0x11000000) .refl rfl) rfl h

theorem canon_sweepStart x0 s (h : Canonical s) : Canonical (sweepStart x0 s) :=
  .via (frame_sweepStart _ _ (m := 0x11000000) .refl rfl) rfl h

theorem canon_spnRefuseFree s (h : Canonical s) : Canonical (spnRefuseFree s) :=
  .via (frame_spnRefuseFree _ (m := 0x1800000180) .refl rfl) rfl h

theorem canon_pmonClr x0 s (h : Canonical s) : Canonical (pmonClr x0 s) :=
  .via (frame_pmonClr _ _ (m := 0x4011600000) .refl rfl) rfl h

theorem canon_pmonSnap x0 s (h : Canonical s) : Canonical (pmonSnap x0 s) :=
  .via (frame_pmonSnap _ _ (m := 0x4011600000) .refl rfl) rfl h

theorem canon_writeClrf x0 s (h : Canonical s) : Canonical (writeClrf x0 s) :=
  .via (frame_writeClrf _ _ (m := 0x8000000) .refl rfl) rfl h

theorem canon_writeFwcmd x0 x1 s (h : Canonical s) : Canonical (writeFwcmd x0 x1 s) :=
  .via (frame_writeFwcmd _ _ _ (m := 0x4000000) .refl rfl) rfl h

theorem canon_writeSpnCmd x0 s (h : Canonical s) : Canonical (writeSpnCmd x0 s) :=
  .via (frame_writeSpnCmd _ _ (m := 0x1A1FB2A180) .refl rfl) rfl h

theorem canon_mailCommit x0 s (h : Canonical s) : Canonical (mailCommit x0 s) :=
  .via (frame_mailCommit _ _ (m := 0x1000000) .refl rfl) rfl h

theorem canon_swapGo x0 s (h : Canonical s) : Canonical (swapGo x0 s) :=
  .via (frame_swapGo _ _ (m := 0x1801002180) .refl rfl) rfl h

theorem canon_writeCdata x0 x1 s (h : Canonical s) : Canonical (writeCdata x0 x1 s) :=
  .via (frame_writeCdata _ _ _ (m := 0x1801000180) .refl rfl) rfl h

theorem canon_writeRow x0 x1 x2 s (h : Canonical s) : Canonical (writeRow x0 x1 x2 s) :=
  .via (frame_writeRow _ _ _ _ (m := 0x1801000180) .refl rfl) rfl h

theorem canon_writeSdata x0 x1 s (h : Canonical s) : Canonical (writeSdata x0 x1 s) :=
  .via (frame_writeSdata _ _ _ (m := 0x1801000180) .refl rfl) rfl h

theorem canon_State_modLdp x0 s (h : Canonical s) : Canonical (State.modLdp x0 s) :=
  .via (frame_State_modLdp _ _ (m := 0x400000) .refl rfl) rfl h

theorem canon_headretSet x0 x1 s (h : Canonical s) : Canonical (headretSet x0 x1 s) :=
  .via (frame_headretSet _ _ _ (m := 0x100000) .refl rfl) rfl h

theorem canon_ldpRun s (h : Canonical s) : Canonical (ldpRun s) :=
  .via (frame_ldpRun _ (m := 0x502000) .refl rfl) rfl h

theorem canon_writeCstAct x0 x1 s (h : Canonical s) : Canonical (writeCstAct x0 x1 s) :=
  .via (frame_writeCstAct _ _ _ (m := 0x1800182100) .refl rfl) rfl h

theorem canon_writeFfpop x0 x1 s (h : Canonical s) : Canonical (writeFfpop x0 x1 s) :=
  .via (frame_writeFfpop _ _ _ (m := 0x400000) .refl rfl) rfl h

theorem canon_writePtask x0 x1 x2 s (h : Canonical s) : Canonical (writePtask x0 x1 x2 s) :=
  .via (frame_writePtask _ _ _ _ (m := 0x100000) .refl rfl) rfl h

theorem canon_writeRespop x0 x1 s (h : Canonical s) : Canonical (writeRespop x0 x1 s) :=
  .via (frame_writeRespop _ _ _ (m := 0x100000) .refl rfl) rfl h

theorem canon_writeRsfree x0 s (h : Canonical s) : Canonical (writeRsfree x0 s) :=
  .via (frame_writeRsfree _ _ (m := 0x400000) .refl rfl) rfl h

theorem canon_dmcInitGo s (h : Canonical s) : Canonical (dmcInitGo s) :=
  .via (frame_dmcInitGo _ (m := 0x1820000100) .refl rfl) rfl h

theorem canon_rowClear x0 s (h : Canonical s) : Canonical (rowClear x0 s) :=
  .via (frame_rowClear _ _ (m := 0x20000000) .refl rfl) rfl h

theorem canon_writeOpenctl x0 x1 s (h : Canonical s) : Canonical (writeOpenctl x0 x1 s) :=
  .via (frame_writeOpenctl _ _ _ (m := 0x1800080100) .refl rfl) rfl h

theorem canon_writeRvrCmd x0 s (h : Canonical s) : Canonical (writeRvrCmd x0 s) :=
  .via (frame_writeRvrCmd _ _ (m := 0x180005C100) .refl rfl) rfl h

theorem canon_retarget x0 s (h : Canonical s) : Canonical (retarget x0 s) :=
  .via (frame_retarget _ _ (m := 0x1A00000100) .refl rfl) rfl h

theorem canon_writeVlkCmd x0 s (h : Canonical s) : Canonical (writeVlkCmd x0 s) :=
  .via (frame_writeVlkCmd _ _ (m := 0x5800002100) .refl rfl) rfl h

theorem canon_writeVlkNode x0 s (h : Canonical s) : Canonical (writeVlkNode x0 s) :=
  .via (frame_writeVlkNode _ _ (m := 0x5800000100) .refl rfl) rfl h

theorem canon_evrCommit s (h : Canonical s) : Canonical (evrCommit s) :=
  .via (frame_evrCommit _ (m := 0x5800000180) .refl rfl) rfl h

theorem canon_evrStore s (h : Canonical s) : Canonical (evrStore s) :=
  .via (frame_evrStore _ (m := 0x1800000100) .refl rfl) rfl h

theorem canon_lifSeal s (h : Canonical s) : Canonical (lifSeal s) :=
  .via (frame_lifSeal _ (m := 0x1000000000) .refl rfl) rfl h

theorem canon_lifSnap s (h : Canonical s) : Canonical (lifSnap s) :=
  .via (frame_lifSnap _ (m := 0x1000000000) .refl rfl) rfl h

theorem canon_swset x0 s (h : Canonical s) : Canonical (swset x0 s) :=
  .via (frame_swset _ _ (m := 0x2000) .refl rfl) rfl h

theorem canon_walkQueue s (h : Canonical s) : Canonical (walkQueue s) :=
  .via (frame_walkQueue _ (m := 0x6000) .refl rfl) rfl h

theorem canon_writeAddgo x0 s (h : Canonical s) : Canonical (writeAddgo x0 s) :=
  .via (frame_writeAddgo _ _ (m := 0x1800000100) .refl rfl) rfl h

theorem canon_writeBase x0 x1 s (h : Canonical s) : Canonical (writeBase x0 x1 s) :=
  .via (frame_writeBase _ _ _ (m := 0x1800000180) .refl rfl) rfl h

theorem canon_writeCur x0 x1 s (h : Canonical s) : Canonical (writeCur x0 x1 s) :=
  .via (frame_writeCur _ _ _ (m := 0x800000000) .refl rfl) rfl h

theorem canon_writeOp x0 x1 s (h : Canonical s) : Canonical (writeOp x0 x1 s) :=
  .via (frame_writeOp _ _ _ (m := 0x6000) .refl rfl) rfl h

theorem canon_writeProfile x0 s (h : Canonical s) : Canonical (writeProfile x0 s) :=
  .via (frame_writeProfile _ _ (m := 0x1800000300) .refl rfl) rfl h

theorem canon_writeRdyctl x0 s (h : Canonical s) : Canonical (writeRdyctl x0 s) :=
  .via (frame_writeRdyctl _ _ (m := 0x1800008300) .refl rfl) rfl h

theorem canon_writeThmCmd x0 s (h : Canonical s) : Canonical (writeThmCmd x0 s) :=
  .via (frame_writeThmCmd _ _ (m := 0x190005E100) .refl rfl) rfl h

theorem canon_writeWdtkick x0 s (h : Canonical s) : Canonical (writeWdtkick x0 s) :=
  .via (frame_writeWdtkick _ _ (m := 0x1800000300) .refl rfl) rfl h

theorem canon_writeWin x0 x1 s (h : Canonical s) : Canonical (writeWin x0 x1 s) :=
  .via (frame_writeWin _ _ _ (m := 0x800000000) .refl rfl) rfl h

theorem canon_busGives x0 s (h : Canonical s) : Canonical (busGives x0 s) :=
  .via (frame_busGives _ _ (m := 0xC) .refl rfl) rfl h

theorem canon_cdataStep x0 s (h : Canonical s) : Canonical (cdataStep x0 s) :=
  .via (frame_cdataStep _ _ (m := 0x1000000) .refl rfl) rfl h

theorem canon_readNext0 s (h : Canonical s) : Canonical (readNext0 s) :=
  .via (frame_readNext0 _ (m := 0x800000004) .refl rfl) rfl h

theorem canon_readTrdata x0 s (h : Canonical s) : Canonical (readTrdata x0 s) :=
  .via (frame_readTrdata _ _ (m := 0x1000004) .refl rfl) rfl h

theorem canon_readUsec s (h : Canonical s) : Canonical (readUsec s) :=
  .via (frame_readUsec _ (m := 0x2000000004) .refl rfl) rfl h

theorem canon_readVlkTime s (h : Canonical s) : Canonical (readVlkTime s) :=
  .via (frame_readVlkTime _ (m := 0x4000000004) .refl rfl) rfl h

theorem canon_readWin7 s (h : Canonical s) : Canonical (readWin7 s) :=
  .via (frame_readWin7 _ (m := 0x800000004) .refl rfl) rfl h

theorem canon_guardWrite x0 x1 x2 s (h : Canonical s) : Canonical (guardWrite x0 x1 x2 s) :=
  .via (frame_guardWrite _ _ _ _ (m := 0x1800000100) .refl rfl) rfl h

theorem canon_romAccess x0 x1 x2 x3 s (h : Canonical s) : Canonical (romAccess x0 x1 x2 x3 s) :=
  .via (frame_romAccess _ _ _ _ _ (m := 0xC) .refl rfl) rfl h

theorem canon_storeWindow x0 x1 x2 s (h : Canonical s) : Canonical (storeWindow x0 x1 x2 s) :=
  .via (frame_storeWindow _ _ _ _ (m := 0x180000010C) .refl rfl) rfl h

theorem canon_releaseCore x0 s (h : Canonical s) : Canonical (releaseCore x0 s) :=
  .via (frame_releaseCore _ _ (m := 0x1880080F80) .refl rfl) rfl h

theorem canon_zeroForPowerDown s (h : Canonical s) : Canonical (zeroForPowerDown s) :=
  .via (frame_zeroForPowerDown _ (m := 0x4080000000) .refl rfl) rfl h

theorem canon_l1Remove x0 x1 s (h : Canonical s) : Canonical (l1Remove x0 x1 s) :=
  .via (frame_l1Remove _ _ _ (m := 0x1000) .refl rfl) rfl h

theorem canon_memGated x0 s (h : Canonical s) : Canonical (memGated x0 s) :=
  .via (frame_memGated _ _ (m := 0x180000010C) .refl rfl) rfl h

theorem canon_failEnroll x0 x1 x2 s (h : Canonical s) : Canonical (failEnroll x0 x1 x2 s) :=
  .via (frame_failEnroll _ _ _ _ (m := 0x5800002100) .refl rfl) rfl h

theorem canon_judgeLantern x0 x1 x2 x3 x4 x5 x6 x7 s (h : Canonical s) : Canonical (judgeLantern x0 x1 x2 x3 x4 x5 x6 x7 s) :=
  .via (frame_judgeLantern _ _ _ _ _ _ _ _ _ (m := 0x5800002100) .refl rfl) rfl h

theorem canon_refuseEnroll x0 x1 s (h : Canonical s) : Canonical (refuseEnroll x0 x1 s) :=
  .via (frame_refuseEnroll _ _ _ (m := 0x1800002100) .refl rfl) rfl h

theorem canon_sendFrame x0 s (h : Canonical s) : Canonical (sendFrame x0 s) :=
  .via (frame_sendFrame _ _ (m := 0x4000002000) .refl rfl) rfl h

theorem canon_slotTo x0 x1 s (h : Canonical s) : Canonical (slotTo x0 x1 s) :=
  .via (frame_slotTo _ _ _ (m := 0x4000002000) .refl rfl) rfl h

theorem canon_takeHello x0 x1 s (h : Canonical s) : Canonical (takeHello x0 x1 s) :=
  .via (frame_takeHello _ _ _ (m := 0x5800002100) .refl rfl) rfl h

theorem canon_submitLeave x0 x1 x2 x3 x4 x5 x6 s (h : Canonical s) : Canonical (submitLeave x0 x1 x2 x3 x4 x5 x6 s) :=
  .via (frame_submitLeave _ _ _ _ _ _ _ _ (m := 0x1800006100) .refl rfl) rfl h

theorem canon_fetchEffects x0 s (h : Canonical s) : Canonical (fetchEffects x0 s) :=
  .via (frame_fetchEffects _ _ (m := 0x18880) .refl rfl) rfl h

theorem canon_startCmd x0 s (h : Canonical s) : Canonical (startCmd x0 s) :=
  .via (frame_startCmd _ _ (m := 0x188003A180) .refl rfl) rfl h

theorem canon_takeOrd s (h : Canonical s) : Canonical (takeOrd s) :=
  .via (frame_takeOrd _ (m := 0x10000) .refl rfl) rfl h

theorem canon_psEntered x0 s (h : Canonical s) : Canonical (psEntered x0 s) :=
  .via (frame_psEntered _ _ (m := 0x18880) .refl rfl) rfl h

theorem canon_complete x0 x1 s (h : Canonical s) : Canonical (complete x0 x1 s) :=
  .via (frame_complete _ _ _ (m := 0x1A0C302180) .refl rfl) rfl h

theorem canon_headSwitch x0 s (h : Canonical s) : Canonical (headSwitch x0 s) :=
  .via (frame_headSwitch _ _ (m := 0x1810100100) .refl rfl) rfl h

theorem canon_State_modLaser x0 x1 s (h : Canonical s) : Canonical (State.modLaser x0 x1 s) :=
  .via (frame_State_modLaser _ _ _ (m := 0x8000000) .refl rfl) rfl h

theorem canon_psiQueue x0 x1 s (h : Canonical s) : Canonical (psiQueue x0 x1 s) :=
  .via (frame_psiQueue _ _ _ (m := 0x4000000) .refl rfl) rfl h

theorem canon_ldpUnitgo x0 x1 s (h : Canonical s) : Canonical (ldpUnitgo x0 x1 s) :=
  .via (frame_ldpUnitgo _ _ _ (m := 0x100000) .refl rfl) rfl h

theorem canon_psiUnitgo x0 x1 s (h : Canonical s) : Canonical (psiUnitgo x0 x1 s) :=
  .via (frame_psiUnitgo _ _ _ (m := 0x4000000) .refl rfl) rfl h

theorem canon_rwcUnitgo x0 x1 s (h : Canonical s) : Canonical (rwcUnitgo x0 x1 s) :=
  .via (frame_rwcUnitgo _ _ _ (m := 0x200000) .refl rfl) rfl h

theorem canon_tpeUnitgo x0 x1 s (h : Canonical s) : Canonical (tpeUnitgo x0 x1 s) :=
  .via (frame_tpeUnitgo _ _ _ (m := 0x800000) .refl rfl) rfl h

theorem canon_trmUnitgo x0 x1 s (h : Canonical s) : Canonical (trmUnitgo x0 x1 s) :=
  .via (frame_trmUnitgo _ _ _ (m := 0x200000000) .refl rfl) rfl h

theorem canon_waitComes x0 x1 s (h : Canonical s) : Canonical (waitComes x0 x1 s) :=
  .via (frame_waitComes _ _ _ (m := 0x100000) .refl rfl) rfl h

theorem canon_preheatFall x0 s (h : Canonical s) : Canonical (preheatFall x0 s) :=
  .via (frame_preheatFall _ _ (m := 0xC000000) .refl rfl) rfl h

theorem canon_asqFault x0 x1 s (h : Canonical s) : Canonical (asqFault x0 x1 s) :=
  .via (frame_asqFault _ _ _ (m := 0x1A0C302180) .refl rfl) rfl h

theorem canon_takeLevels x0 x1 s (h : Canonical s) : Canonical (takeLevels x0 x1 s).1 :=
  .via (frame_takeLevels _ _ _ (m := 0x204300080) .refl rfl) rfl h

theorem canon_beginTurn x0 s (h : Canonical s) : Canonical (beginTurn x0 s) :=
  .via (frame_beginTurn _ _ (m := 0x8000) .refl rfl) rfl h

theorem canon_checkPause s (h : Canonical s) : Canonical (checkPause s) :=
  .via (frame_checkPause _ (m := 0x180000A100) .refl rfl) rfl h

theorem canon_modSq x0 x1 x2 s (h : Canonical s) : Canonical (modSq x0 x1 x2 s) :=
  .via (frame_modSq _ _ _ _ (m := 0x8000) .refl rfl) rfl h

theorem canon_wakeRecord x0 x1 s (h : Canonical s) : Canonical (wakeRecord x0 x1 s) :=
  .via (frame_wakeRecord _ _ _ (m := 0x1800000900) .refl rfl) rfl h

theorem canon_backgroundErase s (h : Canonical s) : Canonical (backgroundErase s) :=
  .via (frame_backgroundErase _ (m := 0x42000) .refl rfl) rfl h

theorem canon_freeBarrier x0 s (h : Canonical s) : Canonical (freeBarrier x0 s) :=
  .via (frame_freeBarrier _ _ (m := 0x10000) .refl rfl) rfl h

theorem canon_freeTag x0 s (h : Canonical s) : Canonical (freeTag x0 s) :=
  .via (frame_freeTag _ _ (m := 0x8000) .refl rfl) rfl h

theorem canon_releaseReader x0 s (h : Canonical s) : Canonical (releaseReader x0 s) :=
  .via (frame_releaseReader _ _ (m := 0x10000) .refl rfl) rfl h

theorem canon_releaseWaiting s (h : Canonical s) : Canonical (releaseWaiting s) :=
  .via (frame_releaseWaiting _ (m := 0x188003A180) .refl rfl) rfl h

theorem canon_enterDim s (h : Canonical s) : Canonical (enterDim s) :=
  .via (frame_enterDim _ (m := 0x1800018980) .refl rfl) rfl h

theorem canon_closeFetch s (h : Canonical s) : Canonical (closeFetch s) :=
  .via (frame_closeFetch _ (m := 0x8000) .refl rfl) rfl h

theorem canon_enterRectify s (h : Canonical s) : Canonical (enterRectify s) :=
  .via (frame_enterRectify _ (m := 0x1A1FB2A180) .refl rfl) rfl h

theorem canon_gatesAllOff s (h : Canonical s) : Canonical (gatesAllOff s) :=
  .via (frame_gatesAllOff _ (m := 0xCB22000) .refl rfl) rfl h

theorem canon_lifBump x0 x1 s (h : Canonical s) : Canonical (lifBump x0 x1 s) :=
  .via (frame_lifBump _ _ _ (m := 0x1800000100) .refl rfl) rfl h

theorem canon_retractLoaded x0 s (h : Canonical s) : Canonical (retractLoaded x0 s) :=
  .via (frame_retractLoaded _ _ (m := 0x1A1DB2A180) .refl rfl) rfl h

theorem canon_startCommit x0 s (h : Canonical s) : Canonical (startCommit x0 s) :=
  .via (frame_startCommit _ _ (m := 0x180005C100) .refl rfl) rfl h

theorem canon_finishDw x0 x1 x2 x3 s (h : Canonical s) : Canonical (finishDw x0 x1 x2 x3 s) :=
  .via (frame_finishDw _ _ _ _ _ (m := 0x18080) .refl rfl) rfl h

theorem canon_makeExtents x0 x1 x2 s (h : Canonical s) : Canonical (makeExtents x0 x1 x2 s) :=
  .via (frame_makeExtents _ _ _ _ (m := 0x20000) .refl rfl) rfl h

theorem canon_makeZones x0 x1 x2 s (h : Canonical s) : Canonical (makeZones x0 x1 x2 s) :=
  .via (frame_makeZones _ _ _ _ (m := 0x20080) .refl rfl) rfl h

theorem canon_modNs x0 x1 s (h : Canonical s) : Canonical (modNs x0 x1 s) :=
  .via (frame_modNs _ _ _ (m := 0x8000) .refl rfl) rfl h

theorem canon_unlockLine x0 s (h : Canonical s) : Canonical (unlockLine x0 s) :=
  .via (frame_unlockLine _ _ (m := 0x40000000) .refl rfl) rfl h

theorem canon_rangeResult x0 x1 s (h : Canonical s) : Canonical (rangeResult x0 x1 s) :=
  .via (frame_rangeResult _ _ _ (m := 0x40002000) .refl rfl) rfl h

theorem canon_answer x0 x1 x2 s (h : Canonical s) : Canonical (answer x0 x1 x2 s) :=
  .via (frame_answer _ _ _ _ (m := 0x1880000100) .refl rfl) rfl h

theorem canon_unpoison x0 x1 s (h : Canonical s) : Canonical (unpoison x0 x1 s) :=
  .via (frame_unpoison _ _ _ (m := 0x20000000) .refl rfl) rfl h

theorem canon_testCond x0 s (h : Canonical s) : Canonical (testCond x0 s).2 :=
  .via (frame_testCond _ _ (m := 0x80) .refl rfl) rfl h

theorem canon_feedForward x0 x1 x2 s (h : Canonical s) : Canonical (feedForward x0 x1 x2 s) :=
  .via (frame_feedForward _ _ _ _ (m := 0x202080) .refl rfl) rfl h

theorem canon_modTrim x0 x1 s (h : Canonical s) : Canonical (modTrim x0 x1 s) :=
  .via (frame_modTrim _ _ _ (m := 0x200000000) .refl rfl) rfl h

theorem canon_resetSteps x0 s (h : Canonical s) : Canonical (resetSteps x0 s) :=
  .via (frame_resetSteps _ _ (m := 0x1A1DB7E980) .refl rfl) rfl h

theorem canon_State_modSpn x0 s (h : Canonical s) : Canonical (State.modSpn x0 s) :=
  .via (frame_State_modSpn _ _ (m := 0x2000000) .refl rfl) rfl h

theorem canon_driveStep s (h : Canonical s) : Canonical (driveStep s) :=
  .via (frame_driveStep _ (m := 0x2000000) .refl rfl) rfl h

theorem canon_gatesLow s (h : Canonical s) : Canonical (gatesLow s) :=
  .via (frame_gatesLow _ (m := 0x2000000) .refl rfl) rfl h

theorem canon_forwardPut x0 s (h : Canonical s) : Canonical (forwardPut x0 s) :=
  .via (frame_forwardPut _ _ (m := 0x5800000100) .refl rfl) rfl h

theorem canon_modSlot x0 x1 s (h : Canonical s) : Canonical (modSlot x0 x1 s) :=
  .via (frame_modSlot _ _ _ (m := 0x4000000000) .refl rfl) rfl h

theorem canon_dmaError x0 s (h : Canonical s) : Canonical (dmaError x0 s) :=
  .via (frame_dmaError _ _ (m := 0x1800000180) .refl rfl) rfl h

theorem canon_xo32kFails s (h : Canonical s) : Canonical (xo32kFails s) :=
  .via (frame_xo32kFails _ (m := 0x3800000500) .refl rfl) rfl h

theorem canon_abandonCommit s (h : Canonical s) : Canonical (abandonCommit s) :=
  .via (frame_abandonCommit _ (m := 0x180005C380) .refl rfl) rfl h

theorem canon_endGrant x0 x1 s (h : Canonical s) : Canonical (endGrant x0 x1 s) :=
  .via (frame_endGrant _ _ _ (m := 0x1800006100) .refl rfl) rfl h

theorem canon_State_modPort x0 x1 s (h : Canonical s) : Canonical (State.modPort x0 x1 s) :=
  .via (frame_State_modPort _ _ _ (m := 0x4000) .refl rfl) rfl h

theorem canon_countClass x0 x1 s (h : Canonical s) : Canonical (countClass x0 x1 s) :=
  .via (frame_countClass _ _ _ (m := 0x4000) .refl rfl) rfl h

theorem canon_freeTicket x0 s (h : Canonical s) : Canonical (freeTicket x0 s) :=
  .via (frame_freeTicket _ _ (m := 0x4000) .refl rfl) rfl h

theorem canon_leaveLost x0 s (h : Canonical s) : Canonical (leaveLost x0 s) :=
  .via (frame_leaveLost _ _ (m := 0x2000) .refl rfl) rfl h

theorem canon_portLine x0 s (h : Canonical s) : Canonical (portLine x0 s) :=
  .via (frame_portLine _ _ (m := 0x2000) .refl rfl) rfl h

theorem canon_thermLower s (h : Canonical s) : Canonical (thermLower s) :=
  .via (frame_thermLower _ (m := 0x1800004100) .refl rfl) rfl h

theorem canon_thermRaise s (h : Canonical s) : Canonical (thermRaise s) :=
  .via (frame_thermRaise _ (m := 0x1800004100) .refl rfl) rfl h

theorem canon_modCq x0 x1 x2 s (h : Canonical s) : Canonical (modCq x0 x1 x2 s) :=
  .via (frame_modCq _ _ _ _ (m := 0x8000) .refl rfl) rfl h

theorem canon_limitPassed x0 s (h : Canonical s) : Canonical (limitPassed x0 s) :=
  .via (frame_limitPassed _ _ (m := 0x1800038180) .refl rfl) rfl h

theorem canon_rootFollow s (h : Canonical s) : Canonical (rootFollow s) :=
  .via (frame_rootFollow _ (m := 0x4000000000) .refl rfl) rfl h

theorem canon_saveFeature x0 x1 s (h : Canonical s) : Canonical (saveFeature x0 x1 s) :=
  .via (frame_saveFeature _ _ _ (m := 0x8000) .refl rfl) rfl h

theorem canon_setCtrl x0 x1 s (h : Canonical s) : Canonical (setCtrl x0 x1 s) :=
  .via (frame_setCtrl _ _ _ (m := 0x8000) .refl rfl) rfl h

theorem canon_nsDelete x0 s (h : Canonical s) : Canonical (nsDelete x0 s) :=
  .via (frame_nsDelete _ _ (m := 0x80038080) .refl rfl) rfl h

theorem canon_miConfigSet x0 x1 s (h : Canonical s) : Canonical (miConfigSet x0 x1 s).1 :=
  .via (frame_miConfigSet _ _ _ (m := 0x8000) .refl rfl) rfl h

theorem canon_miFinish x0 x1 x2 s (h : Canonical s) : Canonical (miFinish x0 x1 x2 s) :=
  .via (frame_miFinish _ _ _ _ (m := 0x18080) .refl rfl) rfl h

theorem canon_miVpdWrite x0 x1 s (h : Canonical s) : Canonical (miVpdWrite x0 x1 s) :=
  .via (frame_miVpdWrite _ _ _ (m := 0x8000) .refl rfl) rfl h

theorem canon_commitDurable s (h : Canonical s) : Canonical (commitDurable s) :=
  .via (frame_commitDurable _ (m := 0x180007E300) .refl rfl) rfl h

theorem canon_boundary x0 s (h : Canonical s) : Canonical (boundary x0 s) :=
  .via (frame_boundary _ _ (m := 0x1A0C302180) .refl rfl) rfl h

theorem canon_enterHandler x0 x1 x2 s (h : Canonical s) : Canonical (enterHandler x0 x1 x2 s) :=
  .via (frame_enterHandler _ _ _ _ (m := 0x1A0C302180) .refl rfl) rfl h

theorem canon_requestArrives x0 s (h : Canonical s) : Canonical (requestArrives x0 s) :=
  .via (frame_requestArrives _ _ (m := 0x1A0C302180) .refl rfl) rfl h

theorem canon_armCst x0 s (h : Canonical s) : Canonical (armCst x0 s) :=
  .via (frame_armCst _ _ (m := 0x1800182100) .refl rfl) rfl h

theorem canon_releaseHolds s (h : Canonical s) : Canonical (releaseHolds s) :=
  .via (frame_releaseHolds _ (m := 0x100000) .refl rfl) rfl h

theorem canon_abandonMoves x0 x1 s (h : Canonical s) : Canonical (abandonMoves x0 x1 s) :=
  .via (frame_abandonMoves _ _ _ (m := 0x1811102100) .refl rfl) rfl h

theorem canon_State_modPu x0 x1 s (h : Canonical s) : Canonical (State.modPu x0 x1 s) :=
  .via (frame_State_modPu _ _ _ (m := 0x10000000) .refl rfl) rfl h

theorem canon_setFocused x0 x1 s (h : Canonical s) : Canonical (setFocused x0 x1 s) :=
  .via (frame_setFocused _ _ _ (m := 0x10000100) .refl rfl) rfl h

theorem canon_sveLine x0 x1 s (h : Canonical s) : Canonical (sveLine x0 x1 s) :=
  .via (frame_sveLine _ _ _ (m := 0x2000) .refl rfl) rfl h

theorem canon_alignStart s (h : Canonical s) : Canonical (alignStart s) :=
  .via (frame_alignStart _ (m := 0x1802000100) .refl rfl) rfl h

theorem canon_spnFault x0 s (h : Canonical s) : Canonical (spnFault x0 s) :=
  .via (frame_spnFault _ _ (m := 0x1A0EB2A180) .refl rfl) rfl h

theorem canon_brakeSpeed s (h : Canonical s) : Canonical (brakeSpeed s) :=
  .via (frame_brakeSpeed _ (m := 0x2000000) .refl rfl) rfl h

theorem canon_crossingBad s (h : Canonical s) : Canonical (crossingBad s) :=
  .via (frame_crossingBad _ (m := 0x1A1FB2A180) .refl rfl) rfl h

theorem canon_crossingGood s (h : Canonical s) : Canonical (crossingGood s) :=
  .via (frame_crossingGood _ (m := 0x1802002100) .refl rfl) rfl h

theorem canon_revStep x0 s (h : Canonical s) : Canonical (revStep x0 s) :=
  .via (frame_revStep _ _ (m := 0x1802042100) .refl rfl) rfl h

theorem canon_unloadCheck x0 s (h : Canonical s) : Canonical (unloadCheck x0 s) :=
  .via (frame_unloadCheck _ _ (m := 0x1A1FB2A180) .refl rfl) rfl h

theorem canon_recoveryFails s (h : Canonical s) : Canonical (recoveryFails s) :=
  .via (frame_recoveryFails _ (m := 0x1A1FB2A180) .refl rfl) rfl h

theorem canon_judgeReading x0 x1 s (h : Canonical s) : Canonical (judgeReading x0 x1 s) :=
  .via (frame_judgeReading _ _ _ (m := 0x1A0CB22180) .refl rfl) rfl h

theorem canon_readPower x0 x1 s (h : Canonical s) : Canonical (readPower x0 x1 s) :=
  .via (frame_readPower _ _ _ (m := 0x1A0CB22180) .refl rfl) rfl h

theorem canon_optBump x0 x1 x2 s (h : Canonical s) : Canonical (optBump x0 x1 x2 s) :=
  .via (frame_optBump _ _ _ _ (m := 0x10000100) .refl rfl) rfl h

theorem canon_programFuses s (h : Canonical s) : Canonical (programFuses s) :=
  .via (frame_programFuses _ (m := 0x1800000180) .refl rfl) rfl h

theorem canon_newKey x0 x1 x2 x3 s (h : Canonical s) : Canonical (newKey x0 x1 x2 x3 s) :=
  .via (frame_newKey _ _ _ _ _ (m := 0x80000080) .refl rfl) rfl h

theorem canon_zeroSlot x0 s (h : Canonical s) : Canonical (zeroSlot x0 s) :=
  .via (frame_zeroSlot _ _ (m := 0x80000000) .refl rfl) rfl h

theorem canon_storeRecords x0 s (h : Canonical s) : Canonical (storeRecords x0 s) :=
  .via (frame_storeRecords _ _ (m := 0x80000000) .refl rfl) rfl h

theorem canon_setNsKey x0 x1 x2 s (h : Canonical s) : Canonical (setNsKey x0 x1 x2 s) :=
  .via (frame_setNsKey _ _ _ _ (m := 0x80000000) .refl rfl) rfl h

theorem canon_snuff1 x0 s (h : Canonical s) : Canonical (snuff1 x0 s) :=
  .via (frame_snuff1 _ _ (m := 0x5A8CB22980) .refl rfl) rfl h

theorem canon_snuff2 x0 s (h : Canonical s) : Canonical (snuff2 x0 s) :=
  .via (frame_snuff2 _ _ (m := 0x5A8CB22980) .refl rfl) rfl h

theorem canon_blowAlarm x0 s (h : Canonical s) : Canonical (blowAlarm x0 s) :=
  .via (frame_blowAlarm _ _ (m := 0x5A8CB22980) .refl rfl) rfl h

theorem canon_deallocWiped x0 s (h : Canonical s) : Canonical (deallocWiped x0 s) :=
  .via (frame_deallocWiped _ _ (m := 0x80020000) .refl rfl) rfl h

theorem canon_unwrapRec x0 s (h : Canonical s) : Canonical (unwrapRec x0 s) :=
  .via (frame_unwrapRec _ _ (m := 0x1880000100) .refl rfl) rfl h

theorem canon_debugAnswer x0 x1 x2 x3 s (h : Canonical s) : Canonical (debugAnswer x0 x1 x2 x3 s) :=
  .via (frame_debugAnswer _ _ _ _ _ (m := 0x5A8CB22B80) .refl rfl) rfl h

theorem canon_State_modThm x0 s (h : Canonical s) : Canonical (State.modThm x0 s) :=
  .via (frame_State_modThm _ _ (m := 0x100000000) .refl rfl) rfl h

theorem canon_sendSeg s (h : Canonical s) : Canonical (sendSeg s) :=
  .via (frame_sendSeg _ (m := 0x4000002000) .refl rfl) rfl h

theorem canon_beaconFailed s (h : Canonical s) : Canonical (beaconFailed s) :=
  .via (frame_beaconFailed _ (m := 0x5800002100) .refl rfl) rfl h

theorem canon_beaconLost s (h : Canonical s) : Canonical (beaconLost s) :=
  .via (frame_beaconLost _ (m := 0x5800002100) .refl rfl) rfl h

theorem canon_pollDone x0 x1 s (h : Canonical s) : Canonical (pollDone x0 x1 s) :=
  .via (frame_pollDone _ _ _ (m := 0x4000000000) .refl rfl) rfl h

theorem canon_replyBad x0 s (h : Canonical s) : Canonical (replyBad x0 s) :=
  .via (frame_replyBad _ _ (m := 0x5800002100) .refl rfl) rfl h

theorem canon_slotAnswers x0 s (h : Canonical s) : Canonical (slotAnswers x0 s) :=
  .via (frame_slotAnswers _ _ (m := 0x5800002100) .refl rfl) rfl h

theorem canon_clearLease s (h : Canonical s) : Canonical (clearLease s) :=
  .via (frame_clearLease _ (m := 0x1800006100) .refl rfl) rfl h

theorem canon_setLease x0 x1 s (h : Canonical s) : Canonical (setLease x0 x1 s) :=
  .via (frame_setLease _ _ _ (m := 0x6000) .refl rfl) rfl h

theorem canon_toHoldover s (h : Canonical s) : Canonical (toHoldover s) :=
  .via (frame_toHoldover _ (m := 0x5800002100) .refl rfl) rfl h

theorem canon_criticalLimit x0 x1 s (h : Canonical s) : Canonical (criticalLimit x0 x1 s) :=
  .via (frame_criticalLimit _ _ _ (m := 0x1B1DB7E380) .refl rfl) rfl h

theorem canon_removeSlot x0 s (h : Canonical s) : Canonical (removeSlot x0 s) :=
  .via (frame_removeSlot _ _ (m := 0x5800002100) .refl rfl) rfl h

theorem canon_unenrol s (h : Canonical s) : Canonical (unenrol s) :=
  .via (frame_unenrol _ (m := 0x4000000000) .refl rfl) rfl h

theorem wf_bytes {a : Nat} (xs : List (Byte × Nat)) (l : List Host.Cell) (h : Memory.wf l = true) :
    Memory.wf (xs.foldl (fun l (b, i) => sput (0 : Byte) (a + i) b l) l) = true := by
  induction xs generalizing l with
  | nil => exact h
  | cons x xs ih => exact ih _ (wf_sput h)

theorem canon_access x0 x1 x2 x3 s (h : Canonical s) (k : ∀ t, Canonical t → Canonical (x3 t)) :
    Canonical (access x0 x1 x2 x3 s) := by
  unfold access
  exact .ite (.ite (canon_useWindow _ _ _ (k _ h)) (canon_blockError _ _ _ _ _ h)) h

theorem canon_guarded x0 x1 x2 x3 x4 s (h : Canonical s) (k : ∀ t, Canonical t → Canonical (x4 t)) :
    Canonical (guarded x0 x1 x2 x3 x4 s) := by
  unfold guarded
  exact .ite (canon_blockError _ _ _ _ _ h) (k _ h)

theorem canon_secOnly x0 x1 x2 s (h : Canonical s) (k : ∀ t, Canonical t → Canonical (x2 t)) : Canonical (secOnly x0 x1 x2 s) := by
  unfold secOnly
  exact .ite (k _ h) (canon_blockErrorP _ _ _ _ _ _ _ _ h)

theorem canon_hdrAccess x0 x1 x2 s (h : Canonical s) (k : ∀ a b t, Canonical t → Canonical (x2 a b t)) :
    Canonical (hdrAccess x0 x1 x2 s) := by
  unfold hdrAccess
  exact canon_access _ _ _ _ _ h (k _ _)

theorem canon_vlkReceive x0 x1 x2 x3 x4 x5 x6 s (h : Canonical s) (k : ∀ t, Canonical t → Canonical (x5 t))
    (k' : ∀ t, Canonical t → Canonical (x6 t)) : Canonical (vlkReceive x0 x1 x2 x3 x4 x5 x6 s) := by
  unfold vlkReceive
  repeat' first | (with_reducible first | assumption | intro _ | refine canon_notePolarity _ _ _ ?_ | refine canon_vlkBump _ _ ?_ | refine canon_State_modVlk _ _ ?_ | refine Canonical.ite ?_ ?_) | apply k | apply k' | decide | split | unfold id | dsimp only

theorem canon_upSeg x0 x1 x2 s (h : Canonical s) (k : ∀ t, Canonical t → Canonical (x1 t))
    (k' : ∀ t, Canonical t → Canonical (x2 t)) : Canonical (upSeg x0 x1 x2 s) := by
  unfold upSeg
  exact canon_vlkReceive _ _ _ _ _ _ _ _ h k fun t ht => k' _ (canon_State_modVlk _ _ ht)

theorem canon_upLink x0 x1 s (h : Canonical s) (k : ∀ t, Canonical t → Canonical (x1 t)) : Canonical (upLink x0 x1 s) := by
  unfold upLink
  exact canon_vlkReceive _ _ _ _ _ _ _ _ h (fun t ht => ht) fun t ht => k _ (canon_State_modVlk _ _ ht)

theorem canon_linePieces x0 x1 x2 x3 x4 s (h : Canonical s) (k : ∀ a b c t, Canonical t → Canonical (x0 a b c t)) :
    Canonical (linePieces x0 x1 x2 x3 x4 s) := by
  induction x1 generalizing x2 x3 x4 s with
  | zero => exact h
  | succ _ ih => unfold linePieces; exact .ite h (ih _ _ _ _ (k _ _ _ _ h))

theorem canon_durabilityLimit x0 x1 x2 s (h : Canonical s) (k : ∀ t, Canonical t → Canonical (x2 t)) :
    Canonical (durabilityLimit x0 x1 x2 s) := by
  unfold durabilityLimit
  dsimp only
  refine .ite (canon_finish _ _ _ (.ite (canon_guarantee _ _ _ _ _ _ _ h) h)) (.ite (canon_finish _ _ _ (canon_guarantee _ _ _ _ _ _ _ h))
    (.ite (canon_finish _ _ _ (canon_guarantee _ _ _ _ _ _ _ (canon_State_drawn _ h))) (k _ h)))

theorem canon_withCmd {r : State} tag ops f s (h : Canonical s) (k : ∀ c t, Canonical t → Canonical (f c t)) :
    Canonical (after r (withCmd tag ops f s)) := by
  unfold withCmd
  refine Canonical.next ?_
  split
  · exact .ite (k _ _ h) h
  · exact h

theorem canon_withNs {r : State} tag op f s (h : Canonical s) (k : ∀ c n t, Canonical t → Canonical (f c n t)) :
    Canonical (after r (withNs tag op f s)) := by
  unfold withNs
  refine canon_withCmd _ _ _ _ h fun c t ht => ?_
  split
  · exact k _ _ _ ht
  · exact canon_finish _ _ _ ht

theorem canon_setFeature {r : State} tag id f s (h : Canonical s) (k : ∀ c v t, Canonical t → Canonical (f c v t)) :
    Canonical (after r (setFeature tag id f s)) := by
  unfold setFeature
  exact canon_withCmd _ _ _ _ h fun c t ht => .ite (k _ _ _ ht) ht

theorem canon_memWrite x0 x1 x2 s (h : Canonical s) : Canonical (memWrite x0 x1 x2 s) := by
  unfold memWrite
  repeat' first | (with_reducible first | assumption | intro _ | refine canon_memWriteBytes _ _ _ ?_ | refine Canonical.ite ?_ ?_) | decide | split | unfold id | dsimp only

theorem canon_dmcWrite x0 x1 x2 s (h : Canonical s) : Canonical (dmcWrite x0 x1 x2 s) := by
  unfold dmcWrite
  repeat' first | (with_reducible first | assumption | intro _ | refine canon_memWrite _ _ _ _ ?_ | refine canon_poisonBytes _ _ _ ?_ | refine Canonical.ite ?_ ?_) | fail_if_no_progress (with_reducible refine Canonical.set_dmc ?_) | decide | split | unfold id | dsimp only

theorem canon_writeBack x0 s (h : Canonical s) : Canonical (writeBack x0 s) := by
  unfold writeBack
  repeat' first | (with_reducible first | assumption | intro _ | refine canon_dmcWrite _ _ _ _ ?_ | refine Canonical.ite ?_ ?_) | decide | split | unfold id | dsimp only

theorem canon_bccFill x0 x1 x2 x3 x4 s (h : Canonical s) : Canonical (bccFill x0 x1 x2 x3 x4 s) := by
  unfold bccFill
  repeat' first | (with_reducible first | assumption | intro _ | refine canon_bccPut _ _ ?_ | refine canon_bccTick _ ?_ | refine canon_writeBack _ _ ?_ | refine Canonical.ite ?_ ?_) | decide | split | unfold id | dsimp only

theorem canon_bccMiss x0 x1 x2 x3 s (h : Canonical s) : Canonical (bccMiss x0 x1 x2 x3 s).1 := by
  unfold bccMiss
  repeat' first | (with_reducible first | assumption | intro _ | refine canon_bccFill _ _ _ _ _ _ ?_ | refine canon_lineRead _ _ _ _ ?_ | refine Canonical.ite ?_ ?_) | refine Canonical.of_eq (congrArg Prod.fst ‹lineRead _ _ _ _ = _›) ?_ | decide | split | unfold id | dsimp only

theorem canon_bccRead x0 x1 x2 x3 s (h : Canonical s) : Canonical (bccRead x0 x1 x2 x3 s).1 := by
  unfold bccRead
  repeat' first | (with_reducible first | assumption | intro _ | refine canon_bccDirect _ _ _ _ _ ?_ | refine canon_bccMiss _ _ _ _ _ ?_ | refine canon_bccPut _ _ ?_ | refine canon_bccTick _ ?_ | refine Canonical.ite ?_ ?_) | refine Canonical.of_eq (congrArg Prod.fst ‹bccDirect _ _ _ _ _ = _›) ?_ | refine Canonical.of_eq (congrArg Prod.fst ‹bccMiss _ _ _ _ _ = _›) ?_ | decide | split | unfold id | dsimp only

theorem canon_backLine x0 x1 x2 s (h : Canonical s) : Canonical (backLine x0 x1 x2 s).1 := by
  unfold backLine
  repeat' first | (with_reducible first | assumption | intro _ | refine canon_bccRead _ _ _ _ _ ?_ | refine Canonical.ite ?_ ?_) | refine Canonical.of_eq (congrArg Prod.fst ‹bccRead _ _ _ _ _ = _›) ?_ | decide | split | unfold id | dsimp only

theorem canon_l1Fill x0 x1 x2 s (h : Canonical s) : Canonical (l1Fill x0 x1 x2 s).1 := by
  unfold l1Fill
  repeat' first | (with_reducible first | assumption | intro _ | refine canon_backLine _ _ _ _ ?_ | refine Canonical.ite ?_ ?_) | fail_if_no_progress (with_reducible refine Canonical.set_l1 ?_) | refine Canonical.of_eq (congrArg Prod.fst ‹backLine _ _ _ _ = _›) ?_ | refine Canonical.of_eq (congrArg Prod.fst ‹l1Fill _ _ _ _ = _›) ?_ | decide | split | unfold id | dsimp only

theorem canon_drainWalk s (h : Canonical s) : Canonical (drainWalk s) := by
  unfold drainWalk
  repeat' first | (with_reducible first | assumption | intro _ | refine canon_State_drawn _ ?_ | refine canon_State_modBcc _ _ ?_ | refine canon_bccPut _ _ ?_ | refine canon_writeBack _ _ ?_ | refine Canonical.foldl (fun _ _ _ => ?_) ?_ | refine Canonical.ite ?_ ?_) | decide | split | unfold id | dsimp only

theorem canon_bccWrite x0 x1 x2 x3 s (h : Canonical s) : Canonical (bccWrite x0 x1 x2 x3 s) := by
  unfold bccWrite
  repeat' first | (with_reducible first | assumption | intro _ | refine canon_bccFill _ _ _ _ _ _ ?_ | refine canon_bccPut _ _ ?_ | refine canon_bccTick _ ?_ | refine canon_dmcWrite _ _ _ _ ?_ | refine canon_drainWalk _ ?_ | refine canon_lineRead _ _ _ _ ?_ | refine Canonical.ite ?_ ?_) | refine Canonical.of_eq (congrArg Prod.fst ‹lineRead _ _ _ _ = _›) ?_ | decide | split | unfold id | dsimp only

theorem canon_ddrAccess x0 x1 x2 x3 x4 s (h : Canonical s) : Canonical (ddrAccess x0 x1 x2 x3 x4 s) := by
  unfold ddrAccess
  repeat' first | (with_reducible first | assumption | intro _ | refine canon_bccRead _ _ _ _ _ ?_ | refine canon_bccWrite _ _ _ _ _ ?_ | refine Canonical.ite ?_ ?_) | fail_if_no_progress (with_reducible refine Canonical.set_busData_busErr ?_) | fail_if_no_progress (with_reducible refine Canonical.set_busData ?_) | fail_if_no_progress (with_reducible refine Canonical.set_busErr ?_) | refine Canonical.of_eq (congrArg Prod.fst ‹bccRead _ _ _ _ _ = _›) ?_ | decide | split | unfold id | dsimp only

theorem canon_acoreLoad x0 x1 x2 x3 s (h : Canonical s) : Canonical (acoreLoad x0 x1 x2 x3 s) := by
  unfold acoreLoad
  repeat' first | (with_reducible first | assumption | intro _ | refine canon_ddrAccess _ _ _ _ _ _ ?_ | refine canon_l1Fill _ _ _ _ ?_ | refine Canonical.ite ?_ ?_) | fail_if_no_progress (with_reducible refine Canonical.set_busData_busErr ?_) | fail_if_no_progress (with_reducible refine Canonical.set_busData ?_) | fail_if_no_progress (with_reducible refine Canonical.set_busErr ?_) | refine Canonical.of_eq (congrArg Prod.fst ‹l1Fill _ _ _ _ = _›) ?_ | decide | split | unfold id | dsimp only

theorem canon_acoreStore x0 x1 x2 x3 s (h : Canonical s) : Canonical (acoreStore x0 x1 x2 x3 s) := by
  unfold acoreStore
  repeat' first | (with_reducible first | assumption | intro _ | refine canon_ddrAccess _ _ _ _ _ _ ?_ | refine canon_l1Fill _ _ _ _ ?_ | refine canon_memWrite _ _ _ _ ?_ | refine Canonical.ite ?_ ?_) | fail_if_no_progress (with_reducible refine Canonical.set_busData_busErr_l1 ?_) | fail_if_no_progress (with_reducible refine Canonical.set_busData_busErr ?_) | fail_if_no_progress (with_reducible refine Canonical.set_busData ?_) | fail_if_no_progress (with_reducible refine Canonical.set_busErr ?_) | fail_if_no_progress (with_reducible refine Canonical.set_l1 ?_) | refine Canonical.of_eq (congrArg Prod.fst ‹l1Fill _ _ _ _ = _›) ?_ | decide | split | unfold id | dsimp only

theorem canon_memTake x0 x1 x2 x3 x4 s (h : Canonical s) : Canonical (memTake x0 x1 x2 x3 x4 s) := by
  unfold memTake
  repeat' first | (with_reducible first | assumption | intro _ | refine canon_acoreLoad _ _ _ _ _ ?_ | refine canon_acoreStore _ _ _ _ _ ?_ | refine canon_ddrAccess _ _ _ _ _ _ ?_ | refine canon_l1DropAll _ _ ?_ | refine canon_memWrite _ _ _ _ ?_ | refine Canonical.ite ?_ ?_) | fail_if_no_progress (with_reducible refine Canonical.set_busData_busErr_l1 ?_) | fail_if_no_progress (with_reducible refine Canonical.set_busData_busErr ?_) | fail_if_no_progress (with_reducible refine Canonical.set_busData ?_) | fail_if_no_progress (with_reducible refine Canonical.set_busErr ?_) | fail_if_no_progress (with_reducible refine Canonical.set_l1 ?_) | decide | split | unfold id | dsimp only

theorem canon_memAccess x0 x1 x2 x3 x4 s (h : Canonical s) : Canonical (memAccess x0 x1 x2 x3 x4 s) := by
  unfold memAccess
  repeat' first | (with_reducible first | assumption | intro _ | refine canon_memTake _ _ _ _ _ _ ?_ | refine Canonical.ite ?_ ?_) | fail_if_no_progress (with_reducible refine Canonical.set_dmc ?_) | decide | split | unfold id | dsimp only

theorem canon_quietAccess x0 x1 x2 x3 s (h : Canonical s) : Canonical (quietAccess x0 x1 x2 x3 s) :=
  canon_memAccess x0 x1 x2 x3 .none s h

theorem canon_engPiece x0 x1 x2 x3 x4 s (h : Canonical s) : Canonical (engPiece x0 x1 x2 x3 x4 s) := by
  unfold engPiece
  repeat' first | (with_reducible first | assumption | intro _ | refine canon_blockError _ _ _ _ _ ?_ | refine canon_ev _ _ _ _ _ _ ?_ | refine canon_quietAccess _ _ _ _ _ ?_ | refine canon_transferError _ _ _ ?_ | refine Canonical.ite ?_ ?_) | decide | split | unfold id | dsimp only

theorem canon_engWrite x0 x1 x2 x3 x4 s (h : Canonical s) : Canonical (engWrite x0 x1 x2 x3 x4 s) := by
  unfold engWrite
  exact canon_linePieces _ _ _ _ _ _ h fun _ _ _ _ ht => canon_engPiece _ _ _ _ _ _ ht

theorem canon_adaptSave x0 s (h : Canonical s) : Canonical (adaptSave x0 s) := by
  unfold adaptSave
  repeat' first | (with_reducible first | assumption | intro _ | refine canon_engWrite _ _ _ _ _ _ ?_ | refine Canonical.ite ?_ ?_) | decide | split | unfold id | dsimp only

theorem canon_taskEnd x0 x1 x2 x3 s (h : Canonical s) : Canonical (taskEnd x0 x1 x2 x3 s) := by
  unfold taskEnd
  repeat' first | (with_reducible first | assumption | intro _ | refine canon_adaptSave _ _ ?_ | refine canon_asqLine _ _ _ ?_ | refine canon_clearActive _ _ _ ?_ | refine canon_endLeave _ _ ?_ | refine canon_ev _ _ _ _ _ _ ?_ | refine canon_healthAdd _ _ _ _ ?_ | refine canon_levelsFall _ _ ?_ | refine canon_postResult _ _ _ ?_ | refine canon_tagDone _ _ ?_ | refine canon_unloadEnds _ _ _ ?_ | refine Canonical.ite ?_ ?_) | decide | split | unfold id | dsimp only

theorem canon_engLoad x0 x1 x2 x3 s (h : Canonical s) : Canonical (engLoad x0 x1 x2 x3 s) := by
  unfold engLoad
  exact canon_linePieces _ _ _ _ _ _ h fun _ _ _ _ ht => canon_engPiece _ _ _ _ _ _ ht

theorem canon_dlFetch x0 s (h : Canonical s) : Canonical (dlFetch x0 s) := by
  unfold dlFetch
  repeat' first | (with_reducible first | assumption | intro _ | refine canon_engLoad _ _ _ _ _ ?_ | refine Canonical.ite ?_ ?_) | decide | split | unfold id | dsimp only

theorem canon_buildSkip x0 x1 x2 s (h : Canonical s) : Canonical (buildSkip x0 x1 x2 s) := by
  unfold buildSkip
  repeat' first | (with_reducible first | assumption | intro _ | refine canon_State_modGrp _ _ _ ?_ | refine canon_dlFetch _ _ ?_ | refine canon_ev _ _ _ _ _ _ ?_ | refine Canonical.ite ?_ ?_) | decide | split | unfold id | dsimp only

theorem canon_loadAdaptive x0 x1 s (h : Canonical s) : Canonical (loadAdaptive x0 x1 s) := by
  unfold loadAdaptive
  repeat' first | (with_reducible first | assumption | intro _ | refine canon_State_modRwc _ _ _ ?_ | refine canon_adaptWord _ _ _ _ ?_ | refine canon_engLoad _ _ _ _ _ ?_ | refine canon_forceCoefs _ _ ?_ | refine canon_loadCoefs _ _ _ ?_ | refine canon_loadSettings _ _ _ _ _ ?_ | refine Canonical.ite ?_ ?_) | decide | split | unfold id | dsimp only

theorem canon_zoneCopy x0 s (h : Canonical s) : Canonical (zoneCopy x0 s) := by
  unfold zoneCopy
  repeat' first | (with_reducible first | assumption | intro _ | refine canon_State_modRwc _ _ _ ?_ | refine canon_engLoad _ _ _ _ _ ?_ | refine canon_ev _ _ _ _ _ _ ?_ | refine canon_loadAdaptive _ _ _ ?_ | refine Canonical.ite ?_ ?_) | decide | split | unfold id | dsimp only

theorem canon_promote x0 s (h : Canonical s) : Canonical (promote x0 s) := by
  unfold promote
  repeat' first | (with_reducible first | assumption | intro _ | refine canon_State_modAsq _ _ _ ?_ | refine canon_askLeave _ _ ?_ | refine canon_asqLine _ _ _ ?_ | refine canon_buildSkip _ _ _ _ ?_ | refine canon_loadLane _ _ ?_ | refine canon_taskEnd _ _ _ _ _ ?_ | refine canon_zoneCopy _ _ ?_ | refine Canonical.ite ?_ ?_) | decide | split | unfold id | dsimp only

theorem canon_abortTag x0 x1 s (h : Canonical s) : Canonical (abortTag x0 x1 s) := by
  unfold abortTag
  repeat' first | (with_reducible first | assumption | intro _ | refine canon_State_modAsq _ _ _ ?_ | refine canon_asqAbortReq _ _ ?_ | refine canon_cancelPending _ _ ?_ | refine canon_promote _ _ ?_ | refine Canonical.ite ?_ ?_) | decide | split | unfold id | dsimp only

theorem canon_setFld x0 x1 x2 x3 x4 x5 s (h : Canonical s) : Canonical (setFld x0 x1 x2 x3 x4 x5 s) := by
  unfold setFld
  repeat' first | (with_reducible first | assumption | intro _ | refine canon_setReg _ _ _ _ _ ?_ | refine Canonical.ite ?_ ?_) | decide | split | unfold id | dsimp only

theorem canon_fireAlarm s (h : Canonical s) : Canonical (fireAlarm s) := by
  unfold fireAlarm
  repeat' first | (with_reducible first | assumption | intro _ | refine canon_ev _ _ _ _ _ _ ?_ | refine canon_noteWake _ _ ?_ | refine canon_setFld _ _ _ _ _ _ _ ?_ | refine canon_setIrqStat _ _ _ _ ?_ | refine Canonical.ite ?_ ?_) | decide | split | unfold id | dsimp only

theorem canon_calRun x0 s (h : Canonical s) : Canonical (calRun x0 s) := by
  unfold calRun
  repeat' first | (with_reducible first | assumption | intro _ | refine canon_fireAlarm _ ?_ | refine canon_setIrqStat _ _ _ _ ?_ | refine Canonical.ite ?_ ?_) | fail_if_no_progress (with_reducible refine Canonical.set_cal ?_) | decide | split | unfold id | dsimp only

theorem canon_calCount x0 s (h : Canonical s) : Canonical (calCount x0 s) := by
  unfold calCount
  repeat' first | (with_reducible first | assumption | intro _ | refine canon_calRun _ _ ?_ | refine Canonical.ite ?_ ?_) | decide | split | unfold id | dsimp only

theorem canon_elapse x0 s (h : Canonical s) : Canonical (elapse x0 s) := by
  unfold elapse
  repeat' first | (with_reducible first | assumption | intro _ | refine canon_calCount _ _ ?_ | refine canon_vlkCount _ _ ?_ | refine Canonical.ite ?_ ?_) | fail_if_no_progress (with_reducible refine Canonical.set_us_sys ?_) | fail_if_no_progress (with_reducible refine Canonical.set_us ?_) | fail_if_no_progress (with_reducible refine Canonical.set_sys ?_) | decide | split | unfold id | dsimp only

theorem canon_advanceTo x0 s (h : Canonical s) : Canonical (advanceTo x0 s) := by
  unfold advanceTo
  repeat' first | (with_reducible first | assumption | intro _ | refine canon_elapse _ _ ?_ | refine Canonical.ite ?_ ?_) | decide | split | unfold id | dsimp only

theorem canon_seqStep x0 x1 x2 s (h : Canonical s) (k : ∀ t, Canonical t → Canonical (x2 t)) : Canonical (seqStep x0 x1 x2 s) := by
  unfold seqStep
  exact .ite (k _ (.ite (canon_advanceTo _ _ h) h)) h

theorem canon_asqCancel x0 s (h : Canonical s) : Canonical (asqCancel x0 s) := by
  unfold asqCancel
  repeat' first | (with_reducible first | assumption | intro _ | refine canon_State_modAsq _ _ _ ?_ | refine canon_cancelPending _ _ ?_ | refine canon_promote _ _ ?_ | refine Canonical.ite ?_ ?_) | decide | split | unfold id | dsimp only

theorem canon_backWrite x0 x1 x2 x3 s (h : Canonical s) : Canonical (backWrite x0 x1 x2 x3 s) := by
  unfold backWrite
  repeat' first | (with_reducible first | assumption | intro _ | refine canon_bccWrite _ _ _ _ _ ?_ | refine canon_memWrite _ _ _ _ ?_ | refine Canonical.ite ?_ ?_) | decide | split | unfold id | dsimp only

theorem canon_l1CleanLine x0 x1 s (h : Canonical s) : Canonical (l1CleanLine x0 x1 s) := by
  unfold l1CleanLine
  repeat' first | (with_reducible first | assumption | intro _ | refine canon_backWrite _ _ _ _ _ ?_ | refine Canonical.ite ?_ ?_) | fail_if_no_progress (with_reducible refine Canonical.set_l1 ?_) | decide | split | unfold id | dsimp only

theorem canon_l1CleanAll x0 s (h : Canonical s) : Canonical (l1CleanAll x0 s) := by
  unfold l1CleanAll
  repeat' first | (with_reducible first | assumption | intro _ | refine canon_l1CleanLine _ _ _ ?_ | refine Canonical.foldl (fun _ _ _ => ?_) ?_ | refine Canonical.ite ?_ ?_) | fail_if_no_progress (with_reducible refine Canonical.set_l1 ?_) | decide | split | unfold id | dsimp only

theorem canon_beginEntry x0 s (h : Canonical s) : Canonical (beginEntry x0 s) := by
  unfold beginEntry
  repeat' first | (with_reducible first | assumption | intro _ | refine canon_State_modHce _ _ ?_ | refine canon_State_modPwr _ _ ?_ | refine canon_l1CleanAll _ _ ?_ | refine Canonical.foldl (fun _ _ _ => ?_) ?_ | refine Canonical.ite ?_ ?_) | decide | split | unfold id | dsimp only

theorem canon_psProceed x0 s (h : Canonical s) : Canonical (psProceed x0 s) := by
  unfold psProceed
  repeat' first | (with_reducible first | assumption | intro _ | refine canon_beginEntry _ _ ?_ | refine canon_gateChannels _ ?_ | refine canon_psReached _ _ ?_ | refine Canonical.ite ?_ ?_) | decide | split | unfold id | dsimp only

theorem canon_autonomousPs s (h : Canonical s) : Canonical (autonomousPs s) := by
  unfold autonomousPs
  repeat' first | (with_reducible first | assumption | intro _ | refine canon_State_modPwr _ _ ?_ | refine canon_psProceed _ _ ?_ | refine Canonical.ite ?_ ?_) | decide | split | unfold id | dsimp only

theorem canon_calSet x0 s (h : Canonical s) : Canonical (calSet x0 s) := by
  unfold calSet
  repeat' first | (with_reducible first | assumption | intro _ | refine canon_State_modEvr _ _ ?_ | refine canon_blockErrorP _ _ _ _ _ _ _ _ ?_ | refine canon_ev _ _ _ _ _ _ ?_ | refine canon_fireAlarm _ ?_ | refine Canonical.ite ?_ ?_) | fail_if_no_progress (with_reducible refine Canonical.set_cal ?_) | decide | split | unfold id | dsimp only

theorem canon_calLoad x0 x1 x2 s (h : Canonical s) : Canonical (calLoad x0 x1 x2 s) := by
  unfold calLoad
  repeat' first | (with_reducible first | assumption | intro _ | refine canon_calSet _ _ ?_ | refine canon_setReg _ _ _ _ _ ?_ | refine Canonical.ite ?_ ?_) | decide | split | unfold id | dsimp only

theorem canon_storeFields x0 x1 x2 x3 s (h : Canonical s) : Canonical (storeFields x0 x1 x2 x3 s) := by
  unfold storeFields
  repeat' first | (with_reducible first | assumption | intro _ | refine canon_blockError _ _ _ _ _ ?_ | refine canon_setReg _ _ _ _ _ ?_ | refine Canonical.ite ?_ ?_) | decide | split | unfold id | dsimp only

theorem canon_writeCalAdj x0 s (h : Canonical s) : Canonical (writeCalAdj x0 s) := by
  unfold writeCalAdj
  repeat' first | (with_reducible first | assumption | intro _ | refine canon_calAdj _ _ ?_ | refine canon_storeFields _ _ _ _ _ ?_ | refine Canonical.ite ?_ ?_) | decide | split | unfold id | dsimp only

theorem canon_steerCal s (h : Canonical s) : Canonical (steerCal s) := by
  unfold steerCal
  repeat' first | (with_reducible first | assumption | intro _ | refine canon_calLoad _ _ _ _ ?_ | refine canon_ev _ _ _ _ _ _ ?_ | refine canon_writeCalAdj _ _ ?_ | refine Canonical.ite ?_ ?_) | decide | split | unfold id | dsimp only

theorem canon_beaconTaken x0 s (h : Canonical s) : Canonical (beaconTaken x0 s) := by
  unfold beaconTaken
  repeat' first | (with_reducible first | assumption | intro _ | refine canon_State_modVlk _ _ ?_ | refine canon_ev _ _ _ _ _ _ ?_ | refine canon_keyAtBeacon _ _ ?_ | refine canon_raiseLine _ _ ?_ | refine canon_steer _ _ ?_ | refine canon_steerCal _ ?_ | refine canon_vlkBump _ _ ?_ | refine Canonical.ite ?_ ?_) | decide | split | unfold id | dsimp only

theorem canon_disableWay x0 x1 x2 s (h : Canonical s) : Canonical (disableWay x0 x1 x2 s) := by
  unfold disableWay
  repeat' first | (with_reducible first | assumption | intro _ | refine canon_State_modBcc _ _ ?_ | refine canon_dmcPoisonLine _ _ ?_ | refine canon_ev _ _ _ _ _ _ ?_ | refine canon_raiseLine _ _ ?_ | refine canon_writeBack _ _ ?_ | refine Canonical.foldl (fun _ _ _ => ?_) ?_ | refine Canonical.ite ?_ ?_) | decide | split | unfold id | dsimp only

theorem canon_bistResults x0 s (h : Canonical s) : Canonical (bistResults x0 s) := by
  unfold bistResults
  repeat' first | (with_reducible first | assumption | intro _ | refine canon_State_modSys _ _ ?_ | refine canon_bistEvent _ _ ?_ | refine canon_bistEventFree _ ?_ | refine canon_disableWay _ _ _ _ ?_ | refine canon_loseChannel _ _ ?_ | refine Canonical.foldl (fun _ _ _ => ?_) ?_ | refine Canonical.ite ?_ ?_) | decide | split | unfold id | dsimp only

theorem canon_startImage x0 x1 s (h : Canonical s) : Canonical (startImage x0 x1 s) := by
  unfold startImage
  repeat' first | (with_reducible first | assumption | intro _ | refine canon_State_modSec _ _ ?_ | refine canon_State_modSys _ _ ?_ | refine canon_deriveKeys _ ?_ | refine canon_extendMeas _ _ _ ?_ | refine canon_measureStage _ ?_ | refine canon_setFld _ _ _ _ _ _ _ ?_ | refine Canonical.ite ?_ ?_) | decide | split | unfold id | dsimp only

theorem canon_bootSlots x0 s (h : Canonical s) : Canonical (bootSlots x0 s) := by
  unfold bootSlots
  repeat' first | (with_reducible first | assumption | intro _ | refine canon_State_modSys _ _ ?_ | refine canon_ev _ _ _ _ _ _ ?_ | refine canon_startImage _ _ _ ?_ | refine Canonical.ite ?_ ?_) | decide | split | unfold id | dsimp only

theorem canon_memSpan x0 x1 x2 x3 x4 s (h : Canonical s) : Canonical (memSpan x0 x1 x2 x3 x4 s) := by
  unfold memSpan
  repeat' first | (with_reducible first | assumption | intro _ | refine canon_busFails _ ?_ | refine canon_memAccess _ _ _ _ _ _ ?_ | refine Canonical.ite ?_ ?_) | fail_if_no_progress (with_reducible refine Canonical.set_busData ?_) | decide | split | unfold id | dsimp only

theorem canon_domMem x0 x1 x2 x3 x4 x5 s (h : Canonical s) : Canonical (domMem x0 x1 x2 x3 x4 x5 s) := by
  unfold domMem
  repeat' first | (with_reducible first | assumption | intro _ | refine canon_blockError _ _ _ _ _ ?_ | refine canon_busZero _ ?_ | refine canon_memSpan _ _ _ _ _ _ ?_ | refine Canonical.ite ?_ ?_) | decide | split | unfold id | dsimp only

theorem canon_srstAsq x0 s (h : Canonical s) : Canonical (srstAsq x0 s) := by
  unfold srstAsq
  repeat' first | (with_reducible first | assumption | intro _ | refine canon_gatesOff _ _ ?_ | refine canon_tagDone _ _ ?_ | refine canon_taskEnd _ _ _ _ _ ?_ | refine Canonical.ite ?_ ?_) | fail_if_no_progress (with_reducible refine Canonical.set_asq ?_) | decide | split | unfold id | dsimp only

theorem canon_srstRwc x0 s (h : Canonical s) : Canonical (srstRwc x0 s) := by
  unfold srstRwc
  repeat' first | (with_reducible first | assumption | intro _ | refine canon_State_drawn _ ?_ | refine canon_faultDecision _ _ _ ?_ | refine canon_loadCoefs _ _ _ ?_ | refine canon_loadSettings _ _ _ _ _ ?_ | refine canon_resetRegs _ _ _ ?_ | refine Canonical.ite ?_ ?_) | fail_if_no_progress (with_reducible refine Canonical.set_rwc ?_) | decide | split | unfold id | dsimp only

theorem canon_retractEnd x0 s (h : Canonical s) : Canonical (retractEnd x0 s) := by
  unfold retractEnd
  repeat' first | (with_reducible first | assumption | intro _ | refine canon_State_modSve _ _ _ ?_ | refine canon_advanceTo _ _ ?_ | refine Canonical.ite ?_ ?_) | decide | split | unfold id | dsimp only

theorem canon_srstSve x0 s (h : Canonical s) : Canonical (srstSve x0 s) := by
  unfold srstSve
  repeat' first | (with_reducible first | assumption | intro _ | refine canon_retractEnd _ _ ?_ | refine canon_retractStart _ _ _ _ ?_ | refine Canonical.ite ?_ ?_) | fail_if_no_progress (with_reducible refine Canonical.set_sve ?_) | decide | split | unfold id | dsimp only

theorem canon_srstOpt s (h : Canonical s) : Canonical (srstOpt s) := by
  unfold srstOpt
  repeat' first | (with_reducible first | assumption | intro _ | refine canon_retractEnd _ _ ?_ | refine canon_retractStart _ _ _ _ ?_ | refine Canonical.foldl (fun _ _ _ => ?_) ?_ | refine Canonical.ite ?_ ?_) | fail_if_no_progress (with_reducible refine Canonical.set_opt ?_) | decide | split | unfold id | dsimp only

theorem canon_srstLlt s (h : Canonical s) : Canonical (srstLlt s) := by
  unfold srstLlt
  repeat' first | (with_reducible first | assumption | intro _ | refine canon_State_modLlt _ _ ?_ | refine canon_revokeLeaves _ _ ?_ | refine canon_setReg _ _ _ _ _ ?_ | refine Canonical.foldl (fun _ _ _ => ?_) ?_ | refine Canonical.ite ?_ ?_) | decide | split | unfold id | dsimp only

theorem canon_srstEvr s (h : Canonical s) : Canonical (srstEvr s) := by
  unfold srstEvr
  repeat' first | (with_reducible first | assumption | intro _ | refine canon_State_modEvr _ _ ?_ | refine canon_resetRegs _ _ _ ?_ | refine Canonical.ite ?_ ?_) | decide | split | unfold id | dsimp only

theorem canon_srstVlk s (h : Canonical s) : Canonical (srstVlk s) := by
  unfold srstVlk
  repeat' first | (with_reducible first | assumption | intro _ | refine canon_dropLinks _ ?_ | refine canon_resetRegs _ _ _ ?_ | refine Canonical.ite ?_ ?_) | fail_if_no_progress (with_reducible refine Canonical.set_vlk ?_) | decide | split | unfold id | dsimp only

theorem canon_resetXmt s (h : Canonical s) : Canonical (resetXmt s) := ⟨h.1, h.2.1, h.2.2.filter _⟩

theorem canon_srstBlock x0 x1 s (h : Canonical s) : Canonical (srstBlock x0 x1 s) := by
  unfold srstBlock
  repeat' first | (with_reducible first | assumption | intro _ | refine canon_State_modCtrl _ _ _ ?_ | refine canon_State_modSec _ _ ?_ | refine canon_State_modXmt _ _ ?_ | refine canon_commitGrantEnd _ ?_ | refine canon_dropLinks _ ?_ | refine canon_lasersOff _ ?_ | refine canon_powerLit _ ?_ | refine canon_resetRegs _ _ _ ?_ | refine canon_resetXmt _ ?_ | refine canon_srstAsq _ _ ?_ | refine canon_srstEvr _ ?_ | refine canon_srstLdp _ ?_ | refine canon_srstLlt _ ?_ | refine canon_srstOpt _ ?_ | refine canon_srstRwc _ _ ?_ | refine canon_srstSpin _ ?_ | refine canon_srstSve _ _ ?_ | refine canon_srstVlk _ ?_ | refine canon_tpeDiscard _ ?_ | refine canon_trainLink _ _ ?_ | refine canon_zeroKst _ ?_ | refine Canonical.ite ?_ ?_) | fail_if_no_progress (with_reducible refine Canonical.set_hce ?_) | fail_if_no_progress (with_reducible refine Canonical.set_lgr ?_) | fail_if_no_progress (with_reducible refine Canonical.set_rvr ?_) | fail_if_no_progress (with_reducible refine Canonical.set_cst ?_) | fail_if_no_progress (with_reducible refine Canonical.set_sve ?_) | fail_if_no_progress (with_reducible refine Canonical.set_psi ?_) | fail_if_no_progress (with_reducible refine Canonical.set_lsr ?_) | fail_if_no_progress (with_reducible refine Canonical.set_dmc ?_) | fail_if_no_progress (with_reducible refine Canonical.set_bcc ?_) | fail_if_no_progress (with_reducible refine Canonical.set_trm ?_) | fail_if_no_progress (with_reducible refine Canonical.set_lif ?_) | fail_if_no_progress (with_reducible refine Canonical.set_cal ?_) | decide | split | unfold id | dsimp only

theorem canon_softReset x0 x1 x2 s (h : Canonical s) : Canonical (softReset x0 x1 x2 s) := by
  unfold softReset
  repeat' first | (with_reducible first | assumption | intro _ | refine canon_State_modHdr _ _ _ ?_ | refine canon_blockError _ _ _ _ _ ?_ | refine canon_srstBlock _ _ _ ?_ | refine Canonical.ite ?_ ?_) | decide | split | unfold id | dsimp only

theorem canon_ctlWrite x0 x1 x2 x3 s (h : Canonical s) : Canonical (ctlWrite x0 x1 x2 x3 s) := by
  unfold ctlWrite
  repeat' first | (with_reducible first | assumption | intro _ | refine canon_State_modHdr _ _ _ ?_ | refine canon_bccClearEn _ ?_ | refine canon_bccSetEn _ ?_ | refine canon_freezeWrite _ _ _ _ ?_ | refine canon_softReset _ _ _ _ ?_ | refine Canonical.ite ?_ ?_) | decide | split | unfold id | dsimp only

theorem canon_routeWrite x0 x1 x2 s (h : Canonical s) : Canonical (routeWrite x0 x1 x2 s) := by
  unfold routeWrite
  repeat' first | (with_reducible first | assumption | intro _ | refine canon_blockError _ _ _ _ _ ?_ | refine canon_storeFields _ _ _ _ _ ?_ | refine Canonical.ite ?_ ?_) | decide | split | unfold id | dsimp only

theorem canon_headerWrite x0 x1 x2 x3 x4 s (h : Canonical s) : Canonical (headerWrite x0 x1 x2 x3 x4 s) := by
  unfold headerWrite
  repeat' first | (with_reducible first | assumption | intro _ | refine canon_State_modHdr _ _ _ ?_ | refine canon_ctlWrite _ _ _ _ _ ?_ | refine canon_errClear _ _ _ ?_ | refine canon_irqSet _ _ _ _ ?_ | refine canon_routeWrite _ _ _ _ ?_ | refine Canonical.ite ?_ ?_) | decide | split | unfold id | dsimp only

theorem canon_writeWdtctl x0 s (h : Canonical s) : Canonical (writeWdtctl x0 s) := by
  unfold writeWdtctl
  repeat' first | (with_reducible first | assumption | intro _ | refine canon_storeFields _ _ _ _ _ ?_ | refine canon_wdtRestart _ ?_ | refine Canonical.ite ?_ ?_) | decide | split | unfold id | dsimp only

theorem canon_twinAccess x0 x1 x2 s (h : Canonical s) : Canonical (twinAccess x0 x1 x2 s) := by
  have hs : ∀ (c : Prop) [Decidable c] (a b d e f g : Nat) (u : State), Canonical u →
      Canonical (if c then setFld .twinAddr a b d e f u else u) := fun c _ a b d e f g u hu =>
    .ite (canon_setFld _ _ _ _ _ _ _ hu) hu
  unfold twinAccess
  dsimp only
  refine .ite (.set_busData (canon_blockError _ _ _ _ _ h)) (.ite ?_ ?_)
  · exact .ite (canon_setFld _ _ _ _ _ _ _ ⟨h.1, wf_bytes _ _ h.2.1, h.2.2⟩) ⟨h.1, wf_bytes _ _ h.2.1, h.2.2⟩
  · exact .ite (canon_setFld _ _ _ _ _ _ _ (.set_busData h)) (.set_busData h)

theorem canon_releaseHeld s (h : Canonical s) : Canonical (releaseHeld s) := by
  unfold releaseHeld
  repeat' first | (with_reducible first | assumption | intro _ | refine canon_memTake _ _ _ _ _ _ ?_ | refine Canonical.foldl (fun _ _ _ => ?_) ?_ | refine Canonical.ite ?_ ?_) | fail_if_no_progress (with_reducible refine Canonical.set_dmc ?_) | decide | split | unfold id | dsimp only

theorem canon_refreshEnds s (h : Canonical s) : Canonical (refreshEnds s) := by
  unfold refreshEnds
  repeat' first | (with_reducible first | assumption | intro _ | refine canon_State_modPwr _ _ ?_ | refine canon_releaseHeld _ ?_ | refine Canonical.ite ?_ ?_) | decide | split | unfold id | dsimp only

theorem canon_unwindEntry x0 s (h : Canonical s) : Canonical (unwindEntry x0 s) := by
  unfold unwindEntry
  repeat' first | (with_reducible first | assumption | intro _ | refine canon_State_modHce _ _ ?_ | refine canon_State_modPwr _ _ ?_ | refine canon_ev _ _ _ _ _ _ ?_ | refine canon_refreshEnds _ ?_ | refine Canonical.ite ?_ ?_) | decide | split | unfold id | dsimp only

theorem canon_powerGo x0 s (h : Canonical s) : Canonical (powerGo x0 s) := by
  unfold powerGo
  repeat' first | (with_reducible first | assumption | intro _ | refine canon_State_drawn _ ?_ | refine canon_State_modPwr _ _ ?_ | refine canon_beginEntry _ _ ?_ | refine canon_refusePreq _ _ ?_ | refine canon_unwindDim _ ?_ | refine canon_unwindEntry _ _ ?_ | refine Canonical.ite ?_ ?_) | decide | split | unfold id | dsimp only

theorem canon_writePreq x0 s (h : Canonical s) : Canonical (writePreq x0 s) := by
  unfold writePreq
  repeat' first | (with_reducible first | assumption | intro _ | refine canon_powerGo _ _ ?_ | refine canon_storeFields _ _ _ _ _ ?_ | refine Canonical.ite ?_ ?_) | decide | split | unfold id | dsimp only

theorem canon_writePdoff x0 s (h : Canonical s) : Canonical (writePdoff x0 s) := by
  unfold writePdoff
  repeat' first | (with_reducible first | assumption | intro _ | refine canon_actuatorRetired _ _ ?_ | refine canon_blockError _ _ _ _ _ ?_ | refine canon_powerLit _ ?_ | refine canon_storeFields _ _ _ _ _ ?_ | refine Canonical.foldl (fun _ _ _ => ?_) ?_ | refine Canonical.ite ?_ ?_) | decide | split | unfold id | dsimp only

theorem canon_writeReqb x0 x1 s (h : Canonical s) : Canonical (writeReqb x0 x1 s) := by
  unfold writeReqb
  repeat' first | (with_reducible first | assumption | intro _ | refine canon_leaveGo _ _ _ _ ?_ | refine canon_storeFields _ _ _ _ _ ?_ | refine Canonical.ite ?_ ?_) | decide | split | unfold id | dsimp only

theorem canon_pllLoss x0 s (h : Canonical s) : Canonical (pllLoss x0 s) := by
  unfold pllLoss
  repeat' first | (with_reducible first | assumption | intro _ | refine canon_ev _ _ _ _ _ _ ?_ | refine canon_pllSFault _ ?_ | refine canon_setFld _ _ _ _ _ _ _ ?_ | refine canon_setLock _ _ _ ?_ | refine Canonical.foldl (fun _ _ _ => ?_) ?_ | refine Canonical.ite ?_ ?_) | decide | split | unfold id | dsimp only

theorem canon_writePllen x0 s (h : Canonical s) : Canonical (writePllen x0 s) := by
  unfold writePllen
  repeat' first | (with_reducible first | assumption | intro _ | refine canon_pllLoss _ _ ?_ | refine canon_storeFields _ _ _ _ _ ?_ | refine Canonical.foldl (fun _ _ _ => ?_) ?_ | refine Canonical.ite ?_ ?_) | decide | split | unfold id | dsimp only

theorem canon_writeClkDom x0 x1 s (h : Canonical s) : Canonical (writeClkDom x0 x1 s) := by
  unfold writeClkDom
  repeat' first | (with_reducible first | assumption | intro _ | refine canon_blockError _ _ _ _ _ ?_ | refine canon_storeFields _ _ _ _ _ ?_ | refine Canonical.ite ?_ ?_) | decide | split | unfold id | dsimp only

theorem canon_writeCalCmd x0 s (h : Canonical s) : Canonical (writeCalCmd x0 s) := by
  unfold writeCalCmd
  repeat' first | (with_reducible first | assumption | intro _ | refine canon_calSet _ _ ?_ | refine Canonical.ite ?_ ?_) | decide | split | unfold id | dsimp only

theorem canon_writeSwev x0 s (h : Canonical s) : Canonical (writeSwev x0 s) := by
  unfold writeSwev
  repeat' first | (with_reducible first | assumption | intro _ | refine canon_recordEvent _ _ _ _ _ _ ?_ | refine canon_storeFields _ _ _ _ _ ?_ | refine Canonical.ite ?_ ?_) | decide | split | unfold id | dsimp only

theorem canon_writeThmThr x0 s (h : Canonical s) : Canonical (writeThmThr x0 s) := by
  unfold writeThmThr
  repeat' first | (with_reducible first | assumption | intro _ | refine canon_blockError _ _ _ _ _ ?_ | refine canon_storeFields _ _ _ _ _ ?_ | refine Canonical.ite ?_ ?_) | decide | split | unfold id | dsimp only

theorem canon_writePfcfg x0 s (h : Canonical s) : Canonical (writePfcfg x0 s) := by
  unfold writePfcfg
  repeat' first | (with_reducible first | assumption | intro _ | refine canon_blockError _ _ _ _ _ ?_ | refine canon_storeFields _ _ _ _ _ ?_ | refine Canonical.ite ?_ ?_) | decide | split | unfold id | dsimp only

theorem canon_writeVlkCfg x0 s (h : Canonical s) : Canonical (writeVlkCfg x0 s) := by
  unfold writeVlkCfg
  repeat' first | (with_reducible first | assumption | intro _ | refine canon_State_modVlk _ _ ?_ | refine canon_startOrphan _ ?_ | refine canon_startQuiet _ ?_ | refine canon_storeFields _ _ _ _ _ ?_ | refine Canonical.ite ?_ ?_) | decide | split | unfold id | dsimp only

theorem canon_writeVlkLreq x0 s (h : Canonical s) : Canonical (writeVlkLreq x0 s) := by
  unfold writeVlkLreq
  repeat' first | (with_reducible first | assumption | intro _ | refine canon_storeFields _ _ _ _ _ ?_ | refine Canonical.ite ?_ ?_) | decide | split | unfold id | dsimp only

theorem canon_writeOrphan x0 s (h : Canonical s) : Canonical (writeOrphan x0 s) := by
  unfold writeOrphan
  repeat' first | (with_reducible first | assumption | intro _ | refine canon_startOrphan _ ?_ | refine canon_storeFields _ _ _ _ _ ?_ | refine Canonical.ite ?_ ?_) | decide | split | unfold id | dsimp only

theorem canon_writeSegbudget x0 s (h : Canonical s) : Canonical (writeSegbudget x0 s) := by
  unfold writeSegbudget
  repeat' first | (with_reducible first | assumption | intro _ | refine canon_storeFields _ _ _ _ _ ?_ | refine Canonical.ite ?_ ?_) | decide | split | unfold id | dsimp only

theorem canon_writeImgcmd x0 s (h : Canonical s) : Canonical (writeImgcmd x0 s) := by
  unfold writeImgcmd
  repeat' first | (with_reducible first | assumption | intro _ | refine canon_State_drawn _ ?_ | refine canon_startFanout _ _ _ ?_ | refine canon_storeFields _ _ _ _ _ ?_ | refine Canonical.ite ?_ ?_) | decide | split | unfold id | dsimp only

theorem canon_stopTasks x0 s (h : Canonical s) : Canonical (stopTasks x0 s) := by
  unfold stopTasks
  repeat' first | (with_reducible first | assumption | intro _ | refine canon_abortTag _ _ _ ?_ | refine Canonical.foldl (fun _ _ _ => ?_) ?_ | refine Canonical.ite ?_ ?_) | decide | split | unfold id | dsimp only

theorem canon_stopCmd x0 s (h : Canonical s) : Canonical (stopCmd x0 s) := by
  unfold stopCmd
  repeat' first | (with_reducible first | assumption | intro _ | refine canon_dropWrite _ _ ?_ | refine canon_finish _ _ _ ?_ | refine canon_modCmd _ _ _ ?_ | refine canon_stopTasks _ _ ?_ | refine Canonical.ite ?_ ?_) | decide | split | unfold id | dsimp only

theorem canon_matchCmd x0 x1 x2 s (h : Canonical s) : Canonical (matchCmd x0 x1 x2 s) := by
  unfold matchCmd
  repeat' first | (with_reducible first | assumption | intro _ | refine canon_State_modHce _ _ ?_ | refine canon_ev _ _ _ _ _ _ ?_ | refine canon_stopCmd _ _ ?_ | refine Canonical.ite ?_ ?_) | decide | split | unfold id | dsimp only

theorem canon_writeAbortReq x0 s (h : Canonical s) : Canonical (writeAbortReq x0 s) := by
  unfold writeAbortReq
  repeat' first | (with_reducible first | assumption | intro _ | refine canon_matchCmd _ _ _ _ ?_ | refine canon_storeFields _ _ _ _ _ ?_ | refine Canonical.ite ?_ ?_) | decide | split | unfold id | dsimp only

theorem canon_writeLgrWin x0 s (h : Canonical s) : Canonical (writeLgrWin x0 s) := by
  unfold writeLgrWin
  repeat' first | (with_reducible first | assumption | intro _ | refine canon_State_drawn _ ?_ | refine canon_State_modLgr _ _ ?_ | refine canon_storeFields _ _ _ _ _ ?_ | refine Canonical.ite ?_ ?_) | decide | split | unfold id | dsimp only

theorem canon_writeNsdom x0 x1 s (h : Canonical s) : Canonical (writeNsdom x0 x1 s) := by
  unfold writeNsdom
  repeat' first | (with_reducible first | assumption | intro _ | refine canon_blockErrorP _ _ _ _ _ _ _ _ ?_ | refine canon_storeFields _ _ _ _ _ ?_ | refine Canonical.ite ?_ ?_) | decide | split | unfold id | dsimp only

theorem canon_writeDmcCfg x0 s (h : Canonical s) : Canonical (writeDmcCfg x0 s) := by
  unfold writeDmcCfg
  repeat' first | (with_reducible first | assumption | intro _ | refine canon_blockErrorP _ _ _ _ _ _ _ _ ?_ | refine canon_storeFields _ _ _ _ _ ?_ | refine Canonical.ite ?_ ?_) | decide | split | unfold id | dsimp only

theorem canon_pprGo x0 s (h : Canonical s) : Canonical (pprGo x0 s) := by
  unfold pprGo
  repeat' first | (with_reducible first | assumption | intro _ | refine canon_pprResult _ _ _ ?_ | refine canon_storeFields _ _ _ _ _ ?_ | refine Canonical.ite ?_ ?_) | fail_if_no_progress (with_reducible refine Canonical.set_dmc ?_) | decide | split | unfold id | dsimp only

theorem canon_flushRegion x0 s (h : Canonical s) : Canonical (flushRegion x0 s) := by
  unfold flushRegion
  repeat' first | (with_reducible first | assumption | intro _ | refine canon_bccDrop _ _ ?_ | refine canon_ev _ _ _ _ _ _ ?_ | refine canon_writeBack _ _ ?_ | refine Canonical.foldl (fun _ _ _ => ?_) ?_ | refine Canonical.ite ?_ ?_) | decide | split | unfold id | dsimp only

theorem canon_writeRegattr x0 x1 x2 s (h : Canonical s) : Canonical (writeRegattr x0 x1 x2 s) := by
  unfold writeRegattr
  repeat' first | (with_reducible first | assumption | intro _ | refine canon_blockErrorP _ _ _ _ _ _ _ _ ?_ | refine canon_flushRegion _ _ ?_ | refine canon_storeFields _ _ _ _ _ ?_ | refine Canonical.ite ?_ ?_) | decide | split | unfold id | dsimp only

theorem canon_invalLine x0 x1 s (h : Canonical s) : Canonical (invalLine x0 x1 s) := by
  unfold invalLine
  repeat' first | (with_reducible first | assumption | intro _ | refine canon_State_modBcc _ _ ?_ | refine canon_bccDrop _ _ ?_ | refine canon_bccPut _ _ ?_ | refine canon_writeBack _ _ ?_ | refine Canonical.ite ?_ ?_) | decide | split | unfold id | dsimp only

theorem canon_setRegWords x0 x1 x2 s (h : Canonical s) : Canonical (setRegWords x0 x1 x2 s) := by
  unfold setRegWords
  repeat' first | (with_reducible first | assumption | intro _ | refine canon_setReg _ _ _ _ _ ?_ | refine Canonical.foldl (fun _ _ _ => ?_) ?_ | refine Canonical.ite ?_ ?_) | decide | split | unfold id | dsimp only

theorem canon_splitGo x0 s (h : Canonical s) : Canonical (splitGo x0 s) := by
  unfold splitGo
  repeat' first | (with_reducible first | assumption | intro _ | refine canon_invalLine _ _ _ ?_ | refine canon_memWrite _ _ _ _ ?_ | refine canon_raiseLine _ _ ?_ | refine canon_setRegWords _ _ _ _ ?_ | refine canon_storeFields _ _ _ _ _ ?_ | refine Canonical.ite ?_ ?_) | fail_if_no_progress (with_reducible refine Canonical.set_dmc ?_) | decide | split | unfold id | dsimp only

theorem canon_writeOpcmd x0 s (h : Canonical s) : Canonical (writeOpcmd x0 s) := by
  unfold writeOpcmd
  repeat' first | (with_reducible first | assumption | intro _ | refine canon_rangeGo _ _ ?_ | refine canon_storeFields _ _ _ _ _ ?_ | refine Canonical.ite ?_ ?_) | decide | split | unfold id | dsimp only

theorem canon_writeAbort x0 x1 s (h : Canonical s) : Canonical (writeAbort x0 x1 s) := by
  unfold writeAbort
  repeat' first | (with_reducible first | assumption | intro _ | refine canon_abortTag _ _ _ ?_ | refine Canonical.ite ?_ ?_) | decide | split | unfold id | dsimp only

theorem canon_writePcmd x0 x1 s (h : Canonical s) : Canonical (writePcmd x0 x1 s) := by
  unfold writePcmd
  repeat' first | (with_reducible first | assumption | intro _ | refine canon_asqCancel _ _ ?_ | refine canon_asqCommit _ _ ?_ | refine Canonical.ite ?_ ?_) | decide | split | unfold id | dsimp only

theorem canon_dlRetire x0 s (h : Canonical s) : Canonical (dlRetire x0 s) := by
  unfold dlRetire
  repeat' first | (with_reducible first | assumption | intro _ | refine canon_engWrite _ _ _ _ _ _ ?_ | refine canon_ev _ _ _ _ _ _ ?_ | refine canon_raiseLine _ _ ?_ | refine Canonical.ite ?_ ?_) | decide | split | unfold id | dsimp only

theorem canon_dlStore x0 x1 x2 s (h : Canonical s) : Canonical (dlStore x0 x1 x2 s) := by
  unfold dlStore
  repeat' first | (with_reducible first | assumption | intro _ | refine canon_engWrite _ _ _ _ _ _ ?_ | refine Canonical.foldl (fun _ _ _ => ?_) ?_ | refine Canonical.ite ?_ ?_) | decide | split | unfold id | dsimp only

theorem canon_dlInsert x0 x1 s (h : Canonical s) : Canonical (dlInsert x0 x1 s) := by
  unfold dlInsert
  repeat' first | (with_reducible first | assumption | intro _ | refine canon_dlFetch _ _ ?_ | refine canon_dlResult _ _ _ ?_ | refine canon_dlRetire _ _ ?_ | refine canon_dlStore _ _ _ _ ?_ | refine canon_dlWarn _ _ _ ?_ | refine canon_healthAdd _ _ _ _ ?_ | refine Canonical.foldl (fun _ _ _ => ?_) ?_ | refine Canonical.ite ?_ ?_) | decide | split | unfold id | dsimp only

theorem canon_dlOpInsert x0 s (h : Canonical s) : Canonical (dlOpInsert x0 s) := by
  unfold dlOpInsert
  repeat' first | (with_reducible first | assumption | intro _ | refine canon_dlInsert _ _ _ ?_ | refine Canonical.ite ?_ ?_) | fail_if_no_progress (with_reducible refine Canonical.set_tpe ?_) | decide | split | unfold id | dsimp only

theorem canon_dlOpDelete x0 s (h : Canonical s) : Canonical (dlOpDelete x0 s) := by
  unfold dlOpDelete
  repeat' first | (with_reducible first | assumption | intro _ | refine canon_dlFetch _ _ ?_ | refine canon_dlResult _ _ _ ?_ | refine canon_dlStore _ _ _ _ ?_ | refine Canonical.ite ?_ ?_) | decide | split | unfold id | dsimp only

theorem canon_dlOpClear x0 s (h : Canonical s) : Canonical (dlOpClear x0 s) := by
  unfold dlOpClear
  repeat' first | (with_reducible first | assumption | intro _ | refine canon_dlFetch _ _ ?_ | refine canon_dlResult _ _ _ ?_ | refine canon_dlStore _ _ _ _ ?_ | refine Canonical.ite ?_ ?_) | decide | split | unfold id | dsimp only

theorem canon_writeDlop x0 s (h : Canonical s) : Canonical (writeDlop x0 s) := by
  unfold writeDlop
  repeat' first | (with_reducible first | assumption | intro _ | refine canon_dlOpClear _ _ ?_ | refine canon_dlOpDelete _ _ ?_ | refine canon_dlOpInsert _ _ ?_ | refine Canonical.ite ?_ ?_) | fail_if_no_progress (with_reducible refine Canonical.set_tpe ?_) | decide | split | unfold id | dsimp only

theorem canon_writeSveCfg x0 x1 s (h : Canonical s) : Canonical (writeSveCfg x0 x1 s) := by
  unfold writeSveCfg
  repeat' first | (with_reducible first | assumption | intro _ | refine canon_State_modSve _ _ _ ?_ | refine canon_engineStart _ _ ?_ | refine canon_retractStart _ _ _ _ ?_ | refine canon_setReg _ _ _ _ _ ?_ | refine Canonical.ite ?_ ?_) | decide | split | unfold id | dsimp only

theorem canon_writeRetract x0 x1 s (h : Canonical s) : Canonical (writeRetract x0 x1 s) := by
  unfold writeRetract
  repeat' first | (with_reducible first | assumption | intro _ | refine canon_retractStart _ _ _ _ ?_ | refine canon_storeFields _ _ _ _ _ ?_ | refine Canonical.ite ?_ ?_) | decide | split | unfold id | dsimp only

theorem canon_writeTrctl x0 x1 s (h : Canonical s) : Canonical (writeTrctl x0 x1 s) := by
  unfold writeTrctl
  repeat' first | (with_reducible first | assumption | intro _ | refine canon_State_modSve _ _ _ ?_ | refine canon_storeFields _ _ _ _ _ ?_ | refine canon_traceTake _ _ ?_ | refine Canonical.ite ?_ ?_) | decide | split | unfold id | dsimp only

theorem canon_writeJump x0 x1 s (h : Canonical s) : Canonical (writeJump x0 x1 s) := by
  unfold writeJump
  repeat' first | (with_reducible first | assumption | intro _ | refine canon_jumpStart _ _ _ _ _ _ ?_ | refine canon_storeFields _ _ _ _ _ ?_ | refine Canonical.ite ?_ ?_) | decide | split | unfold id | dsimp only

theorem canon_writeSweep x0 x1 s (h : Canonical s) : Canonical (writeSweep x0 x1 s) := by
  unfold writeSweep
  repeat' first | (with_reducible first | assumption | intro _ | refine canon_storeFields _ _ _ _ _ ?_ | refine canon_sweepStart _ _ ?_ | refine Canonical.ite ?_ ?_) | decide | split | unfold id | dsimp only

theorem canon_writeSpnCfg x0 s (h : Canonical s) : Canonical (writeSpnCfg x0 s) := by
  unfold writeSpnCfg
  repeat' first | (with_reducible first | assumption | intro _ | refine canon_spnRefuseFree _ ?_ | refine canon_storeFields _ _ _ _ _ ?_ | refine Canonical.ite ?_ ?_) | decide | split | unfold id | dsimp only

theorem canon_writeOptFmt x0 s (h : Canonical s) : Canonical (writeOptFmt x0 s) := by
  unfold writeOptFmt
  repeat' first | (with_reducible first | assumption | intro _ | refine canon_blockErrorP _ _ _ _ _ _ _ _ ?_ | refine canon_storeFields _ _ _ _ _ ?_ | refine Canonical.ite ?_ ?_) | decide | split | unfold id | dsimp only

theorem canon_writeSlotsel x0 s (h : Canonical s) : Canonical (writeSlotsel x0 s) := by
  unfold writeSlotsel
  repeat' first | (with_reducible first | assumption | intro _ | refine canon_State_modSec _ _ ?_ | refine canon_storeFields _ _ _ _ _ ?_ | refine Canonical.ite ?_ ?_) | decide | split | unfold id | dsimp only

theorem canon_writeMbcmd x0 s (h : Canonical s) : Canonical (writeMbcmd x0 s) := by
  unfold writeMbcmd
  repeat' first | (with_reducible first | assumption | intro _ | refine canon_State_modSec _ _ ?_ | refine canon_storeFields _ _ _ _ _ ?_ | refine Canonical.ite ?_ ?_) | decide | split | unfold id | dsimp only

theorem canon_writeRegDrive x0 x1 x2 x3 x4 s (h : Canonical s) : Canonical (writeRegDrive x0 x1 x2 x3 x4 s) := by
  unfold writeRegDrive
  repeat' first | (with_reducible first | assumption | intro _ | refine canon_pmonClr _ _ ?_ | refine canon_pmonSnap _ _ ?_ | refine canon_storeFields _ _ _ _ _ ?_ | refine canon_writeClrf _ _ ?_ | refine canon_writeFwcmd _ _ _ ?_ | refine canon_writeMbcmd _ _ ?_ | refine canon_writeOptFmt _ _ ?_ | refine canon_writeSlotsel _ _ ?_ | refine canon_writeSpnCfg _ _ ?_ | refine canon_writeSpnCmd _ _ ?_ | refine Canonical.ite ?_ ?_) | fail_if_no_progress (with_reducible refine Canonical.set_opt ?_) | decide | split | unfold id | dsimp only

theorem canon_writeRegServo x0 x1 x2 x3 x4 s (h : Canonical s) : Canonical (writeRegServo x0 x1 x2 x3 x4 s) := by
  unfold writeRegServo
  repeat' first | (with_reducible first | assumption | intro _ | refine canon_State_modSve _ _ _ ?_ | refine canon_mailCommit _ _ ?_ | refine canon_pmonClr _ _ ?_ | refine canon_pmonSnap _ _ ?_ | refine canon_storeFields _ _ _ _ _ ?_ | refine canon_swapGo _ _ ?_ | refine canon_writeCdata _ _ _ ?_ | refine canon_writeJump _ _ _ ?_ | refine canon_writeRegDrive _ _ _ _ _ _ ?_ | refine canon_writeRetract _ _ _ ?_ | refine canon_writeRow _ _ _ _ ?_ | refine canon_writeSdata _ _ _ ?_ | refine canon_writeSveCfg _ _ _ ?_ | refine canon_writeSweep _ _ _ ?_ | refine canon_writeTrctl _ _ _ ?_ | refine Canonical.ite ?_ ?_) | decide | split | unfold id | dsimp only

theorem canon_writeRegSeq x0 x1 x2 x3 x4 s (h : Canonical s) : Canonical (writeRegSeq x0 x1 x2 x3 x4 s) := by
  unfold writeRegSeq
  repeat' first | (with_reducible first | assumption | intro _ | refine canon_State_modLdp _ _ ?_ | refine canon_State_modRwc _ _ _ ?_ | refine canon_headretSet _ _ _ ?_ | refine canon_ldpRun _ ?_ | refine canon_pmonClr _ _ ?_ | refine canon_pmonSnap _ _ ?_ | refine canon_storeFields _ _ _ _ _ ?_ | refine canon_writeAbort _ _ _ ?_ | refine canon_writeCstAct _ _ _ ?_ | refine canon_writeDlop _ _ ?_ | refine canon_writeFfpop _ _ _ ?_ | refine canon_writePcmd _ _ _ ?_ | refine canon_writePtask _ _ _ _ ?_ | refine canon_writeRegServo _ _ _ _ _ _ ?_ | refine canon_writeRespop _ _ _ ?_ | refine canon_writeRsfree _ _ ?_ | refine Canonical.ite ?_ ?_) | decide | split | unfold id | dsimp only

theorem canon_writeRegMem x0 x1 x2 x3 x4 s (h : Canonical s) : Canonical (writeRegMem x0 x1 x2 x3 x4 s) := by
  unfold writeRegMem
  repeat' first | (with_reducible first | assumption | intro _ | refine canon_dmcInitGo _ ?_ | refine canon_pprGo _ _ ?_ | refine canon_rowClear _ _ ?_ | refine canon_splitGo _ _ ?_ | refine canon_storeFields _ _ _ _ _ ?_ | refine canon_writeAbortReq _ _ ?_ | refine canon_writeDmcCfg _ _ ?_ | refine canon_writeLgrWin _ _ ?_ | refine canon_writeNsdom _ _ _ ?_ | refine canon_writeOpcmd _ _ ?_ | refine canon_writeOpenctl _ _ _ ?_ | refine canon_writeRegSeq _ _ _ _ _ _ ?_ | refine canon_writeRegattr _ _ _ _ ?_ | refine canon_writeRvrCmd _ _ ?_ | refine Canonical.ite ?_ ?_) | decide | split | unfold id | dsimp only

theorem canon_writeRegVlk x0 x1 x2 x3 x4 s (h : Canonical s) : Canonical (writeRegVlk x0 x1 x2 x3 x4 s) := by
  unfold writeRegVlk
  repeat' first | (with_reducible first | assumption | intro _ | refine canon_State_modVlk _ _ ?_ | refine canon_pmonClr _ _ ?_ | refine canon_pmonSnap _ _ ?_ | refine canon_retarget _ _ ?_ | refine canon_storeFields _ _ _ _ _ ?_ | refine canon_writeImgcmd _ _ ?_ | refine canon_writeOrphan _ _ ?_ | refine canon_writeRegMem _ _ _ _ _ _ ?_ | refine canon_writeSegbudget _ _ ?_ | refine canon_writeVlkCfg _ _ ?_ | refine canon_writeVlkCmd _ _ ?_ | refine canon_writeVlkLreq _ _ ?_ | refine canon_writeVlkNode _ _ ?_ | refine Canonical.ite ?_ ?_) | decide | split | unfold id | dsimp only

theorem canon_writeReg x0 x1 x2 x3 x4 s (h : Canonical s) : Canonical (writeReg x0 x1 x2 x3 x4 s) := by
  unfold writeReg
  repeat' first | (with_reducible first | assumption | intro _ | refine canon_evrCommit _ ?_ | refine canon_evrStore _ ?_ | refine canon_lifSeal _ ?_ | refine canon_lifSnap _ ?_ | refine canon_routeWrite _ _ _ _ ?_ | refine canon_storeFields _ _ _ _ _ ?_ | refine canon_swset _ _ ?_ | refine canon_twinAccess _ _ _ _ ?_ | refine canon_walkQueue _ ?_ | refine canon_writeAddgo _ _ ?_ | refine canon_writeBase _ _ _ ?_ | refine canon_writeCalAdj _ _ ?_ | refine canon_writeCalCmd _ _ ?_ | refine canon_writeClkDom _ _ _ ?_ | refine canon_writeCur _ _ _ ?_ | refine canon_writeOp _ _ _ ?_ | refine canon_writePdoff _ _ ?_ | refine canon_writePfcfg _ _ ?_ | refine canon_writePllen _ _ ?_ | refine canon_writePreq _ _ ?_ | refine canon_writeProfile _ _ ?_ | refine canon_writeRdyctl _ _ ?_ | refine canon_writeRegVlk _ _ _ _ _ _ ?_ | refine canon_writeReqb _ _ _ ?_ | refine canon_writeSwev _ _ ?_ | refine canon_writeThmCmd _ _ ?_ | refine canon_writeThmThr _ _ ?_ | refine canon_writeWdtctl _ _ ?_ | refine canon_writeWdtkick _ _ ?_ | refine canon_writeWin _ _ _ ?_ | refine Canonical.ite ?_ ?_) | decide | split | unfold id | dsimp only

theorem canon_readRegAt x0 x1 x2 s (h : Canonical s) : Canonical (readRegAt x0 x1 x2 s) := by
  unfold readRegAt
  repeat' first | (with_reducible first | assumption | intro _ | refine canon_State_modSve _ _ _ ?_ | refine canon_busGives _ _ ?_ | refine canon_cdataStep _ _ ?_ | refine canon_readNext0 _ ?_ | refine canon_readTrdata _ _ ?_ | refine canon_readUsec _ ?_ | refine canon_readVlkTime _ ?_ | refine canon_readWin7 _ ?_ | refine canon_twinAccess _ _ _ _ ?_ | refine Canonical.ite ?_ ?_) | decide | split | unfold id | dsimp only

theorem canon_wordAccess x0 x1 x2 x3 x4 x5 s (h : Canonical s) : Canonical (wordAccess x0 x1 x2 x3 x4 x5 s) := by
  unfold wordAccess
  repeat' first | (with_reducible first | assumption | intro _ | refine canon_busGives _ _ ?_ | refine canon_busZero _ ?_ | refine canon_guardWrite _ _ _ _ ?_ | refine canon_headerWrite _ _ _ _ _ _ ?_ | refine canon_readRegAt _ _ _ _ ?_ | refine canon_useWindow _ _ _ ?_ | refine canon_writeReg _ _ _ _ _ _ ?_ | refine Canonical.ite ?_ ?_) | fail_if_no_progress (with_reducible refine Canonical.set_busErr ?_) | decide | split | unfold id | dsimp only

theorem canon_pageAccess x0 x1 x2 x3 x4 s (h : Canonical s) : Canonical (pageAccess x0 x1 x2 x3 x4 s) := by
  unfold pageAccess
  repeat' first | (with_reducible first | assumption | intro _ | refine canon_blockError _ _ _ _ _ ?_ | refine canon_busZero _ ?_ | refine canon_wordAccess _ _ _ _ _ _ _ ?_ | refine Canonical.ite ?_ ?_) | fail_if_no_progress (with_reducible refine Canonical.set_busData ?_) | decide | split | unfold id | dsimp only

theorem canon_busOp x0 x1 x2 x3 x4 s (h : Canonical s) : Canonical (busOp x0 x1 x2 x3 x4 s) := by
  unfold busOp
  repeat' first | (with_reducible first | assumption | intro _ | refine canon_blockError _ _ _ _ _ ?_ | refine canon_busFails _ ?_ | refine canon_busZero _ ?_ | refine canon_domMem _ _ _ _ _ _ _ ?_ | refine canon_ev _ _ _ _ _ _ ?_ | refine canon_pageAccess _ _ _ _ _ _ ?_ | refine canon_romAccess _ _ _ _ _ ?_ | refine canon_storeWindow _ _ _ _ ?_ | refine Canonical.ite ?_ ?_) | decide | split | unfold id | dsimp only

theorem canon_clocksGlow s (h : Canonical s) : Canonical (clocksGlow s) := by
  unfold clocksGlow
  repeat' first | (with_reducible first | assumption | intro _ | refine canon_setFld _ _ _ _ _ _ _ ?_ | refine Canonical.foldl (fun _ _ _ => ?_) ?_ | refine Canonical.ite ?_ ?_) | fail_if_no_progress (with_reducible refine Canonical.set_clk ?_) | decide | split | unfold id | dsimp only

theorem canon_clocksWake s (h : Canonical s) : Canonical (clocksWake s) := by
  unfold clocksWake
  repeat' first | (with_reducible first | assumption | intro _ | refine canon_setFld _ _ _ _ _ _ _ ?_ | refine Canonical.foldl (fun _ _ _ => ?_) ?_ | refine Canonical.ite ?_ ?_) | decide | split | unfold id | dsimp only

theorem canon_coldStart x0 s (h : Canonical s) : Canonical (coldStart x0 s) := by
  unfold coldStart
  repeat' first | (with_reducible first | assumption | intro _ | refine canon_State_modSys _ _ ?_ | refine canon_bistResults _ _ ?_ | refine canon_bootSlots _ _ ?_ | refine canon_ev _ _ _ _ _ _ ?_ | refine canon_releaseCore _ _ ?_ | refine canon_setFld _ _ _ _ _ _ _ ?_ | refine canon_trainLink _ _ ?_ | refine Canonical.ite ?_ ?_) | decide | split | unfold id | dsimp only

theorem canon_darkEntry x0 x1 s (h : Canonical s) : Canonical (darkEntry x0 x1 s) := by
  unfold darkEntry
  repeat' first | (with_reducible first | assumption | intro _ | refine canon_State_modPwr _ _ ?_ | refine canon_State_modSys _ _ ?_ | refine canon_coreReset _ ?_ | refine canon_zeroForPowerDown _ ?_ | refine Canonical.ite ?_ ?_) | decide | split | unfold id | dsimp only

theorem canon_criticalDark s (h : Canonical s) : Canonical (criticalDark s) := by
  unfold criticalDark
  repeat' first | (with_reducible first | assumption | intro _ | refine canon_darkEntry _ _ _ ?_ | refine canon_ev _ _ _ _ _ _ ?_ | refine Canonical.ite ?_ ?_) | decide | split | unfold id | dsimp only

theorem canon_writeUcachectl x0 x1 s (h : Canonical s) : Canonical (writeUcachectl x0 x1 s) := by
  unfold writeUcachectl
  repeat' first | (with_reducible first | assumption | intro _ | refine canon_State_modSys _ _ ?_ | refine canon_l1CleanAll _ _ ?_ | refine Canonical.ite ?_ ?_) | decide | split | unfold id | dsimp only

theorem canon_writeUcacheop x0 x1 s (h : Canonical s) : Canonical (writeUcacheop x0 x1 s) := by
  unfold writeUcacheop
  repeat' first | (with_reducible first | assumption | intro _ | refine canon_l1CleanLine _ _ _ ?_ | refine canon_l1Remove _ _ _ ?_ | refine Canonical.ite ?_ ?_) | decide | split | unfold id | dsimp only

theorem canon_csrWrite x0 x1 x2 s (h : Canonical s) : Canonical (csrWrite x0 x1 x2 s) := by
  unfold csrWrite
  repeat' first | (with_reducible first | assumption | intro _ | refine canon_writeUcachectl _ _ _ ?_ | refine canon_writeUcacheop _ _ _ ?_ | refine Canonical.ite ?_ ?_) | fail_if_no_progress (with_reducible refine Canonical.set_irq ?_) | decide | split | unfold id | dsimp only

theorem canon_ddrTake x0 x1 x2 x3 x4 s (h : Canonical s) : Canonical (ddrTake x0 x1 x2 x3 x4 s) := by
  unfold ddrTake
  repeat' first | (with_reducible first | assumption | intro _ | refine canon_memAccess _ _ _ _ _ _ ?_ | refine canon_memGated _ _ ?_ | refine Canonical.ite ?_ ?_) | fail_if_no_progress (with_reducible refine Canonical.set_busData_busErr ?_) | fail_if_no_progress (with_reducible refine Canonical.set_busData ?_) | fail_if_no_progress (with_reducible refine Canonical.set_busErr ?_) | decide | split | unfold id | dsimp only

theorem canon_dlopCmd x0 x1 s (h : Canonical s) : Canonical (dlopCmd x0 x1 s) := by
  unfold dlopCmd
  repeat' first | (with_reducible first | assumption | intro _ | refine canon_access _ _ _ _ _ ?_ ?_ | refine canon_writeDlop _ _ ?_ | refine Canonical.ite ?_ ?_) | decide | split | unfold id | dsimp only

theorem canon_loadAllow s (h : Canonical s) : Canonical (loadAllow s) := by
  unfold loadAllow
  repeat' first | (with_reducible first | assumption | intro _ | refine canon_engLoad _ _ _ _ _ ?_ | refine Canonical.ite ?_ ?_) | decide | split | unfold id | dsimp only

theorem canon_enrollStep x0 s (h : Canonical s) : Canonical (enrollStep x0 s) := by
  unfold enrollStep
  repeat' first | (with_reducible first | assumption | intro _ | refine canon_State_modVlk _ _ ?_ | refine canon_ev _ _ _ _ _ _ ?_ | refine canon_failEnroll _ _ _ _ ?_ | refine canon_judgeLantern _ _ _ _ _ _ _ _ _ ?_ | refine canon_loadAllow _ ?_ | refine canon_raiseLine _ _ ?_ | refine canon_refuseEnroll _ _ _ ?_ | refine canon_sendFrame _ _ ?_ | refine canon_slotTo _ _ _ ?_ | refine canon_takeHello _ _ _ ?_ | refine Canonical.ite ?_ ?_) | decide | split | unfold id | dsimp only

theorem canon_psBack s (h : Canonical s) : Canonical (psBack s) := by
  unfold psBack
  repeat' first | (with_reducible first | assumption | intro _ | refine canon_State_modHce _ _ ?_ | refine canon_State_modPwr _ _ ?_ | refine canon_refreshEnds _ ?_ | refine canon_submitLeave _ _ _ _ _ _ _ _ ?_ | refine Canonical.ite ?_ ?_) | decide | split | unfold id | dsimp only

theorem canon_psUnwind s (h : Canonical s) : Canonical (psUnwind s) := by
  unfold psUnwind
  repeat' first | (with_reducible first | assumption | intro _ | refine canon_State_drawn _ ?_ | refine canon_State_modPwr _ _ ?_ | refine canon_ev _ _ _ _ _ _ ?_ | refine canon_psBack _ ?_ | refine Canonical.ite ?_ ?_) | decide | split | unfold id | dsimp only

theorem canon_enterCmd x0 x1 x2 x3 x4 s (h : Canonical s) : Canonical (enterCmd x0 x1 x2 x3 x4 s) := by
  unfold enterCmd
  repeat' first | (with_reducible first | assumption | intro _ | refine canon_State_modHce _ _ ?_ | refine canon_fetchEffects _ _ ?_ | refine canon_psUnwind _ ?_ | refine canon_startCmd _ _ ?_ | refine canon_takeOrd _ ?_ | refine Canonical.ite ?_ ?_) | decide | split | unfold id | dsimp only

theorem canon_enterGlow s (h : Canonical s) : Canonical (enterGlow s) := by
  unfold enterGlow
  repeat' first | (with_reducible first | assumption | intro _ | refine canon_State_modPwr _ _ ?_ | refine canon_clocksGlow _ ?_ | refine canon_ev _ _ _ _ _ _ ?_ | refine canon_psEntered _ _ ?_ | refine Canonical.ite ?_ ?_) | decide | split | unfold id | dsimp only

theorem canon_mcFault x0 x1 s (h : Canonical s) : Canonical (mcFault x0 x1 s) := by
  unfold mcFault
  repeat' first | (with_reducible first | assumption | intro _ | refine canon_State_modAsq _ _ _ ?_ | refine canon_asqLine _ _ _ ?_ | refine canon_ev _ _ _ _ _ _ ?_ | refine canon_taskEnd _ _ _ _ _ ?_ | refine Canonical.ite ?_ ?_) | decide | split | unfold id | dsimp only

theorem canon_fallThrough x0 s (h : Canonical s) : Canonical (fallThrough x0 s) := by
  unfold fallThrough
  repeat' first | (with_reducible first | assumption | intro _ | refine canon_complete _ _ _ ?_ | refine canon_mcFault _ _ _ ?_ | refine Canonical.ite ?_ ?_) | decide | split | unfold id | dsimp only

theorem canon_sectAdv x0 s (h : Canonical s) : Canonical (sectAdv x0 s) := by
  unfold sectAdv
  repeat' first | (with_reducible first | assumption | intro _ | refine canon_State_modAsq _ _ _ ?_ | refine canon_State_modRwc _ _ _ ?_ | refine canon_buildSkip _ _ _ _ ?_ | refine Canonical.ite ?_ ?_) | decide | split | unfold id | dsimp only

theorem canon_loadDemod x0 x1 s (h : Canonical s) : Canonical (loadDemod x0 x1 s) := by
  unfold loadDemod
  repeat' first | (with_reducible first | assumption | intro _ | refine canon_State_modSve _ _ _ ?_ | refine canon_engLoad _ _ _ _ _ ?_ | refine Canonical.ite ?_ ?_) | decide | split | unfold id | dsimp only

theorem canon_pulseHead x0 s (h : Canonical s) : Canonical (pulseHead x0 s) := by
  unfold pulseHead
  repeat' first | (with_reducible first | assumption | intro _ | refine canon_headSwitch _ _ ?_ | refine canon_loadDemod _ _ _ ?_ | refine Canonical.ite ?_ ?_) | decide | split | unfold id | dsimp only

theorem canon_pulses x0 x1 s (h : Canonical s) : Canonical (pulses x0 x1 s) := by
  have on : ∀ (k : Nat) (f : State → State) (t : State), (∀ u, Canonical u → Canonical (f u)) → Canonical t →
      Canonical (if x1.testBit k then f t else t) := fun k f t hf ht => .ite (hf t ht) ht
  unfold pulses
  exact (on 8 _ _ (fun u hu => canon_asqLine _ _ _ hu) (on 11 _ _ (fun u hu => canon_sectAdv _ _ hu) (on 9 _ _ (fun u hu => canon_statPulse _ _ hu) (on 10 _ _ (fun u hu => canon_sectSkip _ _ hu) (on 12 _ _ (fun u hu => canon_tpeEmit _ _ hu) (on 13 _ _ (fun u hu => canon_tpeAcc _ _ hu) (on 14 _ _ (fun u hu => canon_ldpSubmit _ _ hu) (on 15 _ _ (fun u hu => canon_bufWr _ _ hu) (on 16 _ _ (fun u hu => canon_bufRd _ _ hu) (on 17 _ _ (fun u hu => canon_blindPulse _ _ hu) (on 18 _ _ (fun u hu => canon_smSearch _ _ hu) (on 19 _ _ (fun u hu => canon_clkPrime _ _ hu) (on 20 _ _ (fun u hu => canon_retractPulse _ _ hu) (on 21 _ _ (fun u hu => canon_loadPulse _ _ hu) (on 22 _ _ (fun u hu => canon_pulseSeek _ _ hu) (on 23 _ _ (fun u hu => canon_pulseHead _ _ hu) h))))))))))))))))

theorem canon_lsrUnitgo x0 x1 x2 s (h : Canonical s) : Canonical (lsrUnitgo x0 x1 x2 s) := by
  unfold lsrUnitgo
  repeat' first | (with_reducible first | assumption | intro _ | refine canon_State_modLaser _ _ _ ?_ | refine canon_engLoad _ _ _ _ _ ?_ | refine canon_ev _ _ _ _ _ _ ?_ | refine canon_psiQueue _ _ _ ?_ | refine Canonical.ite ?_ ?_) | decide | split | unfold id | dsimp only

theorem canon_unitgo x0 x1 x2 s (h : Canonical s) : Canonical (unitgo x0 x1 x2 s) := by
  unfold unitgo
  repeat' first | (with_reducible first | assumption | intro _ | refine canon_State_modAsq _ _ _ ?_ | refine canon_State_modSve _ _ _ ?_ | refine canon_ldpUnitgo _ _ _ ?_ | refine canon_lsrUnitgo _ _ _ _ ?_ | refine canon_psiUnitgo _ _ _ ?_ | refine canon_rwcUnitgo _ _ _ ?_ | refine canon_tpeUnitgo _ _ _ ?_ | refine canon_trmUnitgo _ _ _ ?_ | refine canon_waitComes _ _ _ ?_ | refine Canonical.ite ?_ ?_) | decide | split | unfold id | dsimp only

theorem canon_preheatRise x0 s (h : Canonical s) : Canonical (preheatRise x0 s) := by
  unfold preheatRise
  repeat' first | (with_reducible first | assumption | intro _ | refine canon_State_modLaser _ _ _ ?_ | refine canon_engLoad _ _ _ _ _ ?_ | refine canon_ev _ _ _ _ _ _ ?_ | refine canon_psiQueue _ _ _ ?_ | refine Canonical.ite ?_ ?_) | decide | split | unfold id | dsimp only

theorem canon_takePreheat x0 x1 x2 s (h : Canonical s) : Canonical (takePreheat x0 x1 x2 s) := by
  unfold takePreheat
  repeat' first | (with_reducible first | assumption | intro _ | refine canon_preheatFall _ _ ?_ | refine canon_preheatRise _ _ ?_ | refine Canonical.ite ?_ ?_) | decide | split | unfold id | dsimp only

theorem canon_issueWord x0 x1 x2 s (h : Canonical s) : Canonical (issueWord x0 x1 x2 s) := by
  unfold issueWord
  repeat' first | (with_reducible first | assumption | intro _ | refine canon_State_modAsq _ _ _ ?_ | refine canon_asqFault _ _ _ ?_ | refine canon_ev _ _ _ _ _ _ ?_ | refine canon_pulses _ _ _ ?_ | refine canon_takeLevels _ _ _ ?_ | refine canon_takePreheat _ _ _ _ ?_ | refine canon_unitgo _ _ _ _ ?_ | refine Canonical.ite ?_ ?_) | refine Canonical.of_eq (congrArg Prod.fst ‹takeLevels _ _ _ = _›) ?_ | decide | split | unfold id | dsimp only

theorem canon_fetchIssue x0 s (h : Canonical s) : Canonical (fetchIssue x0 s) := by
  unfold fetchIssue
  repeat' first | (with_reducible first | assumption | intro _ | refine canon_State_modAsq _ _ _ ?_ | refine canon_issueWord _ _ _ _ ?_ | refine canon_mcFault _ _ _ ?_ | refine Canonical.ite ?_ ?_) | decide | split | unfold id | dsimp only

theorem canon_fetchNext x0 s (h : Canonical s) : Canonical (fetchNext x0 s) := by
  unfold fetchNext
  repeat' first | (with_reducible first | assumption | intro _ | refine canon_State_modHce _ _ ?_ | refine canon_beginTurn _ _ ?_ | refine canon_checkPause _ ?_ | refine canon_enterCmd _ _ _ _ _ _ ?_ | refine canon_ev _ _ _ _ _ _ ?_ | refine canon_modSq _ _ _ _ ?_ | refine canon_raiseLine _ _ ?_ | refine Canonical.ite ?_ ?_) | decide | split | unfold id | dsimp only

theorem canon_startCore x0 s (h : Canonical s) : Canonical (startCore x0 s) := by
  unfold startCore
  repeat' first | (with_reducible first | assumption | intro _ | refine canon_State_modPwr _ _ ?_ | refine canon_State_modSys _ _ ?_ | refine canon_coldStart _ _ ?_ | refine Canonical.ite ?_ ?_) | decide | split | unfold id | dsimp only

theorem canon_wakeFrom x0 x1 x2 s (h : Canonical s) : Canonical (wakeFrom x0 x1 x2 s) := by
  unfold wakeFrom
  repeat' first | (with_reducible first | assumption | intro _ | refine canon_State_modHce _ _ ?_ | refine canon_clocksWake _ ?_ | refine canon_powerLit _ ?_ | refine canon_startCore _ _ ?_ | refine canon_wakeRecord _ _ _ ?_ | refine Canonical.ite ?_ ?_) | fail_if_no_progress (with_reducible refine Canonical.set_sup ?_) | decide | split | unfold id | dsimp only

theorem canon_wakeAct x0 x1 s (h : Canonical s) : Canonical (wakeAct x0 x1 s) := by
  unfold wakeAct
  repeat' first | (with_reducible first | assumption | intro _ | refine canon_unwindEntry _ _ ?_ | refine canon_wakeFrom _ _ _ _ ?_ | refine Canonical.ite ?_ ?_) | decide | split | unfold id | dsimp only

theorem canon_wakeNoted s (h : Canonical s) : Canonical (wakeNoted s) := by
  unfold wakeNoted
  repeat' first | (with_reducible first | assumption | intro _ | refine canon_State_drawn _ ?_ | refine canon_wakeAct _ _ _ ?_ | refine Canonical.ite ?_ ?_) | decide | split | unfold id | dsimp only

theorem canon_idle s (h : Canonical s) : Canonical (idle s) := by
  unfold idle
  repeat' first | (with_reducible first | assumption | intro _ | refine canon_autonomousPs _ ?_ | refine canon_backgroundErase _ ?_ | refine canon_elapse _ _ ?_ | refine canon_wakeNoted _ ?_ | refine Canonical.ite ?_ ?_) | decide | split | unfold id | dsimp only

theorem canon_stopOne x0 s (h : Canonical s) : Canonical (stopOne x0 s) := by
  unfold stopOne
  repeat' first | (with_reducible first | assumption | intro _ | refine canon_dropWrite _ _ ?_ | refine canon_freeBarrier _ _ ?_ | refine canon_freeTag _ _ ?_ | refine canon_modCmd _ _ _ ?_ | refine canon_releaseReader _ _ ?_ | refine canon_releaseWaiting _ ?_ | refine canon_stopTasks _ _ ?_ | refine Canonical.ite ?_ ?_) | decide | split | unfold id | dsimp only

theorem canon_stopController x0 x1 s (h : Canonical s) : Canonical (stopController x0 x1 s) := by
  unfold stopController
  repeat' first | (with_reducible first | assumption | intro _ | refine canon_State_modCtrl _ _ _ ?_ | refine canon_State_modHce _ _ ?_ | refine canon_State_modPwr _ _ ?_ | refine canon_ev _ _ _ _ _ _ ?_ | refine canon_stopOne _ _ ?_ | refine Canonical.foldl (fun _ _ _ => ?_) ?_ | refine Canonical.ite ?_ ?_) | decide | split | unfold id | dsimp only

theorem canon_perstAction x0 s (h : Canonical s) : Canonical (perstAction x0 s) := by
  unfold perstAction
  repeat' first | (with_reducible first | assumption | intro _ | refine canon_State_modCtrl _ _ _ ?_ | refine canon_raiseLine _ _ ?_ | refine canon_stopController _ _ _ ?_ | refine Canonical.ite ?_ ?_) | decide | split | unfold id | dsimp only

theorem canon_linkReset x0 x1 s (h : Canonical s) : Canonical (linkReset x0 x1 s) := by
  unfold linkReset
  repeat' first | (with_reducible first | assumption | intro _ | refine canon_ev _ _ _ _ _ _ ?_ | refine canon_perstAction _ _ ?_ | refine canon_trainLink _ _ ?_ | refine Canonical.ite ?_ ?_) | decide | split | unfold id | dsimp only

theorem canon_lockLine x0 s (h : Canonical s) : Canonical (lockLine x0 s).1 := by
  unfold lockLine
  repeat' first | (with_reducible first | assumption | intro _ | refine canon_bccDrop _ _ ?_ | refine canon_bccFill _ _ _ _ _ _ ?_ | refine canon_bccPut _ _ ?_ | refine canon_lineRead _ _ _ _ ?_ | refine Canonical.ite ?_ ?_) | refine Canonical.of_eq (congrArg Prod.fst ‹lineRead _ _ _ _ = _›) ?_ | refine Canonical.of_eq (congrArg Prod.fst ‹lockLine _ _ = _›) ?_ | decide | split | unfold id | dsimp only

theorem canon_lossEnd s (h : Canonical s) : Canonical (lossEnd s) := by
  unfold lossEnd
  repeat' first | (with_reducible first | assumption | intro _ | refine canon_darkEntry _ _ _ ?_ | refine canon_enterDim _ ?_ | refine canon_zeroForPowerDown _ ?_ | refine Canonical.ite ?_ ?_) | decide | split | unfold id | dsimp only

theorem canon_lossStart s (h : Canonical s) : Canonical (lossStart s) := by
  unfold lossStart
  repeat' first | (with_reducible first | assumption | intro _ | refine canon_closeFetch _ ?_ | refine canon_enterRectify _ ?_ | refine canon_gatesAllOff _ ?_ | refine canon_lasersOff _ ?_ | refine canon_lifBump _ _ _ ?_ | refine canon_lossEnd _ ?_ | refine canon_raiseLine _ _ ?_ | refine canon_retractLoaded _ _ ?_ | refine canon_revokeLeaves _ _ ?_ | refine canon_startCommit _ _ ?_ | refine Canonical.ite ?_ ?_) | fail_if_no_progress (with_reducible refine Canonical.set_sup ?_) | decide | split | unfold id | dsimp only

theorem canon_nsCreate x0 s (h : Canonical s) : Canonical (nsCreate x0 s) := by
  unfold nsCreate
  repeat' first | (with_reducible first | assumption | intro _ | refine canon_State_modHce _ _ ?_ | refine canon_finish _ _ _ ?_ | refine canon_finishDw _ _ _ _ _ ?_ | refine canon_makeExtents _ _ _ _ ?_ | refine canon_makeZones _ _ _ _ ?_ | refine canon_setFld _ _ _ _ _ _ _ ?_ | refine Canonical.ite ?_ ?_) | decide | split | unfold id | dsimp only

theorem canon_powerEntered s (h : Canonical s) : Canonical (powerEntered s) := by
  unfold powerEntered
  repeat' first | (with_reducible first | assumption | intro _ | refine canon_State_modPwr _ _ ?_ | refine canon_darkEntry _ _ _ ?_ | refine canon_enterDim _ ?_ | refine canon_enterGlow _ ?_ | refine canon_ev _ _ _ _ _ _ ?_ | refine canon_powerLit _ ?_ | refine canon_unwindEntry _ _ ?_ | refine Canonical.ite ?_ ?_) | decide | split | unfold id | dsimp only

theorem canon_preempt x0 x1 x2 x3 x4 s (h : Canonical s) : Canonical (preempt x0 x1 x2 x3 x4 s) := by
  unfold preempt
  repeat' first | (with_reducible first | assumption | intro _ | refine canon_modNs _ _ _ ?_ | refine canon_stopCmd _ _ ?_ | refine Canonical.foldl (fun _ _ _ => ?_) ?_ | refine Canonical.ite ?_ ?_) | decide | split | unfold id | dsimp only

theorem canon_rangeCmd x0 s (h : Canonical s) : Canonical (rangeCmd x0 s) := by
  unfold rangeCmd
  repeat' first | (with_reducible first | assumption | intro _ | refine canon_access _ _ _ _ _ ?_ ?_ | refine canon_writeOpcmd _ _ ?_ | refine Canonical.ite ?_ ?_) | decide | split | unfold id | dsimp only

theorem canon_zeroLine x0 s (h : Canonical s) : Canonical (zeroLine x0 s) := by
  unfold zeroLine
  repeat' first | (with_reducible first | assumption | intro _ | refine canon_bccDrop _ _ ?_ | refine canon_bccFill _ _ _ _ _ _ ?_ | refine canon_bccPut _ _ ?_ | refine canon_dmcWrite _ _ _ _ ?_ | refine Canonical.ite ?_ ?_) | decide | split | unfold id | dsimp only

theorem canon_rangeLine x0 x1 s (h : Canonical s) : Canonical (rangeLine x0 x1 s).1 := by
  unfold rangeLine
  repeat' first | (with_reducible first | assumption | intro _ | refine canon_bccPut _ _ ?_ | refine canon_invalLine _ _ _ ?_ | refine canon_lockLine _ _ ?_ | refine canon_unlockLine _ _ ?_ | refine canon_writeBack _ _ ?_ | refine canon_zeroLine _ _ ?_ | refine Canonical.ite ?_ ?_) | refine Canonical.of_eq (congrArg Prod.fst ‹lockLine _ _ = _›) ?_ | decide | split | unfold id | dsimp only

theorem canon_rangeLines x0 x1 s (h : Canonical s) : Canonical (rangeLines x0 x1 s).1 := by
  induction x1 generalizing s with
  | nil => unfold rangeLines; exact h
  | cons _ _ ih =>
    unfold rangeLines
    repeat' first | (with_reducible first | assumption | refine ih _ ?_ | refine ih _ _ ?_ | refine ih _ _ _ ?_ | intro _ | refine canon_rangeLine _ _ _ ?_ | refine Canonical.ite ?_ ?_) | refine Canonical.of_eq (congrArg Prod.fst ‹rangeLine _ _ _ = _›) ?_ | refine Canonical.of_eq (congrArg Prod.fst ‹rangeLines _ _ _ = _›) ?_ | decide | split | unfold id | dsimp only

theorem canon_rangeFinish s (h : Canonical s) : Canonical (rangeFinish s) := by
  unfold rangeFinish
  repeat' first | (with_reducible first | assumption | intro _ | refine canon_State_modBcc _ _ ?_ | refine canon_rangeLines _ _ _ ?_ | refine canon_rangeResult _ _ _ ?_ | refine Canonical.ite ?_ ?_) | refine Canonical.of_eq (congrArg Prod.fst ‹rangeLines _ _ _ = _›) ?_ | decide | split | unfold id | dsimp only

theorem canon_secPiece x0 x1 x2 s (h : Canonical s) : Canonical (secPiece x0 x1 x2 s) := by
  unfold secPiece
  repeat' first | (with_reducible first | assumption | intro _ | refine canon_quietAccess _ _ _ _ _ ?_ | refine Canonical.ite ?_ ?_) | decide | split | unfold id | dsimp only

theorem canon_secWrite x0 x1 x2 s (h : Canonical s) : Canonical (secWrite x0 x1 x2 s) := by
  unfold secWrite
  exact canon_linePieces _ _ _ _ _ _ h fun _ _ _ _ ht => canon_secPiece _ _ _ _ ht

theorem canon_respond x0 x1 x2 s (h : Canonical s) : Canonical (respond x0 x1 x2 s) := by
  unfold respond
  repeat' first | (with_reducible first | assumption | intro _ | refine canon_answer _ _ _ _ ?_ | refine canon_secWrite _ _ _ _ ?_ | refine Canonical.ite ?_ ?_) | decide | split | unfold id | dsimp only

theorem canon_respondFree x0 s (h : Canonical s) : Canonical (respondFree x0 s) := by
  unfold respondFree
  repeat' first | (with_reducible first | assumption | intro _ | refine canon_State_drawn _ ?_ | refine canon_respond _ _ _ _ ?_ | refine Canonical.ite ?_ ?_) | decide | split | unfold id | dsimp only

theorem canon_respondRecords x0 x1 s (h : Canonical s) : Canonical (respondRecords x0 x1 s) := by
  unfold respondRecords
  repeat' first | (with_reducible first | assumption | intro _ | refine canon_respond _ _ _ _ ?_ | refine Canonical.ite ?_ ?_) | decide | split | unfold id | dsimp only

theorem canon_scrambleRow x0 s (h : Canonical s) : Canonical (scrambleRow x0 s) := by
  unfold scrambleRow
  repeat' first | (with_reducible first | assumption | intro _ | refine canon_State_drawn _ ?_ | refine canon_setMemByte _ _ _ ?_ | refine canon_unpoison _ _ _ ?_ | refine Canonical.foldl (fun _ _ _ => ?_) ?_ | refine Canonical.ite ?_ ?_) | decide | split | unfold id | dsimp only

theorem canon_transfer x0 x1 x2 s (h : Canonical s) : Canonical (transfer x0 x1 x2 s) := by
  unfold transfer
  repeat' first | (with_reducible first | assumption | intro _ | refine canon_complete _ _ _ ?_ | refine canon_mcFault _ _ _ ?_ | refine Canonical.ite ?_ ?_) | decide | split | unfold id | dsimp only

theorem canon_seqBranch x0 x1 s (h : Canonical s) : Canonical (seqBranch x0 x1 s) := by
  unfold seqBranch
  repeat' first | (with_reducible first | assumption | intro _ | refine canon_fallThrough _ _ ?_ | refine canon_testCond _ _ ?_ | refine canon_transfer _ _ _ _ ?_ | refine Canonical.ite ?_ ?_) | decide | split | unfold id | dsimp only

theorem canon_seqCallDo x0 s (h : Canonical s) : Canonical (seqCallDo x0 s) := by
  unfold seqCallDo
  repeat' first | (with_reducible first | assumption | intro _ | refine canon_State_modAsq _ _ _ ?_ | refine canon_complete _ _ _ ?_ | refine canon_mcFault _ _ _ ?_ | refine Canonical.ite ?_ ?_) | decide | split | unfold id | dsimp only

theorem canon_seqDispatchDo x0 s (h : Canonical s) : Canonical (seqDispatchDo x0 s) := by
  unfold seqDispatchDo
  repeat' first | (with_reducible first | assumption | intro _ | refine canon_complete _ _ _ ?_ | refine canon_mcFault _ _ _ ?_ | refine Canonical.ite ?_ ?_) | decide | split | unfold id | dsimp only

theorem canon_seqLoopDo x0 s (h : Canonical s) : Canonical (seqLoopDo x0 s) := by
  unfold seqLoopDo
  repeat' first | (with_reducible first | assumption | intro _ | refine canon_State_modAsq _ _ _ ?_ | refine canon_fallThrough _ _ ?_ | refine canon_transfer _ _ _ _ ?_ | refine Canonical.ite ?_ ?_) | decide | split | unfold id | dsimp only

theorem canon_seqRetDo x0 s (h : Canonical s) : Canonical (seqRetDo x0 s) := by
  unfold seqRetDo
  repeat' first | (with_reducible first | assumption | intro _ | refine canon_State_modAsq _ _ _ ?_ | refine canon_complete _ _ _ ?_ | refine canon_fallThrough _ _ ?_ | refine canon_taskEnd _ _ _ _ _ ?_ | refine canon_testCond _ _ ?_ | refine Canonical.ite ?_ ?_) | decide | split | unfold id | dsimp only

theorem canon_stepTrim x0 s (h : Canonical s) : Canonical (stepTrim x0 s) := by
  unfold stepTrim
  repeat' first | (with_reducible first | assumption | intro _ | refine canon_State_modRwc _ _ _ ?_ | refine canon_advanceTo _ _ ?_ | refine canon_feedForward _ _ _ _ ?_ | refine canon_modTrim _ _ _ ?_ | refine canon_waitComes _ _ _ ?_ | refine Canonical.ite ?_ ?_) | fail_if_no_progress (with_reducible refine Canonical.set_trm ?_) | decide | split | unfold id | dsimp only

theorem canon_subsystemReset s (h : Canonical s) : Canonical (subsystemReset s) := by
  unfold subsystemReset
  repeat' first | (with_reducible first | assumption | intro _ | refine canon_State_modSys _ _ ?_ | refine canon_resetSteps _ _ ?_ | refine canon_stopController _ _ _ ?_ | refine Canonical.foldl (fun _ _ _ => ?_) ?_ | refine Canonical.ite ?_ ?_) | decide | split | unfold id | dsimp only

theorem canon_swapPhases s (h : Canonical s) : Canonical (swapPhases s) := by
  unfold swapPhases
  repeat' first | (with_reducible first | assumption | intro _ | refine canon_State_modSpn _ _ ?_ | refine canon_driveStep _ ?_ | refine canon_ev _ _ _ _ _ _ ?_ | refine canon_gatesLow _ ?_ | refine canon_setFld _ _ _ _ _ _ _ ?_ | refine Canonical.foldl (fun _ _ _ => ?_) ?_ | refine Canonical.ite ?_ ?_) | decide | split | unfold id | dsimp only

theorem canon_vlkWrite x0 x1 s (h : Canonical s) : Canonical (vlkWrite x0 x1 s) := by
  unfold vlkWrite
  repeat' first | (with_reducible first | assumption | intro _ | refine canon_engWrite _ _ _ _ _ _ ?_ | refine Canonical.ite ?_ ?_) | decide | split | unfold id | dsimp only

theorem canon_takeChunk x0 x1 x2 x3 s (h : Canonical s) : Canonical (takeChunk x0 x1 x2 x3 s) := by
  unfold takeChunk
  repeat' first | (with_reducible first | assumption | intro _ | refine canon_State_drawn _ ?_ | refine canon_State_modVlk _ _ ?_ | refine canon_ev _ _ _ _ _ _ ?_ | refine canon_raiseLine _ _ ?_ | refine canon_startFanout _ _ _ ?_ | refine canon_vlkWrite _ _ _ ?_ | refine Canonical.ite ?_ ?_) | decide | split | unfold id | dsimp only

theorem canon_takeEntry s x1 (h : Canonical s) : Canonical (takeEntry s x1) := by
  unfold takeEntry
  repeat' first | (with_reducible first | assumption | intro _ | refine canon_State_modVlk _ _ ?_ | refine canon_forwardPut _ _ ?_ | refine canon_raiseLine _ _ ?_ | refine canon_vlkWrite _ _ _ ?_ | refine Canonical.ite ?_ ?_) | decide | split | unfold id | dsimp only

theorem canon_takeReport x0 x1 x2 s (h : Canonical s) : Canonical (takeReport x0 x1 x2 s) := by
  unfold takeReport
  repeat' first | (with_reducible first | assumption | intro _ | refine canon_State_modVlk _ _ ?_ | refine canon_raiseLine _ _ ?_ | refine canon_vlkWrite _ _ _ ?_ | refine Canonical.ite ?_ ?_) | decide | split | unfold id | dsimp only

theorem canon_takeReplyItem x0 s x2 (h : Canonical s) : Canonical (takeReplyItem x0 s x2) := by
  unfold takeReplyItem
  repeat' first | (with_reducible first | assumption | intro _ | refine canon_State_modVlk _ _ ?_ | refine canon_modSlot _ _ _ ?_ | refine canon_takeEntry _ _ ?_ | refine canon_takeReport _ _ _ _ ?_ | refine Canonical.foldl (fun _ _ _ => ?_) ?_ | refine Canonical.ite ?_ ?_) | decide | split | unfold id | dsimp only

theorem canon_wayError x0 x1 x2 s (h : Canonical s) : Canonical (wayError x0 x1 x2 s) := by
  unfold wayError
  repeat' first | (with_reducible first | assumption | intro _ | refine canon_State_modBcc _ _ ?_ | refine canon_disableWay _ _ _ _ ?_ | refine Canonical.ite ?_ ?_) | decide | split | unfold id | dsimp only

theorem canon_wickReset x0 s (h : Canonical s) : Canonical (wickReset x0 s) := by
  have k := canon_coreReset _ h
  unfold wickReset
  dsimp only
  split
  · exact ⟨rfl, k.2.1, k.2.2.filter _⟩
  · exact ⟨rfl, k.2.1, k.2.2.filter _⟩

theorem canon_mailbox {r : State} n f s (h : Canonical s) (k : ∀ t, Canonical t → Canonical (f t)) :
    Canonical (after r (mailbox n f s)) := by
  unfold mailbox
  exact Canonical.next (.ite (k _ (canon_setFld _ _ _ _ _ _ _ (canon_State_modSec _ _ h))) h)

theorem canon_execRegWrite x0 x1 x2 s (h : Canonical s) : Canonical (after s (execRegWrite x0 x1 x2 s)) := by
  unfold execRegWrite
  try with_reducible refine Canonical.next ?_
  repeat' first | (with_reducible first | assumption | intro _ | refine canon_busOp _ _ _ _ _ _ ?_ | refine canon_csrWrite _ _ _ _ ?_ | refine canon_dmaError _ _ ?_ | refine Canonical.ite ?_ ?_) | decide | split | unfold id | dsimp only

theorem canon_execBusAccess x0 x1 x2 x3 x4 s (h : Canonical s) : Canonical (after s (execBusAccess x0 x1 x2 x3 x4 s)) := by
  unfold execBusAccess
  try with_reducible refine Canonical.next ?_
  repeat' first | (with_reducible first | assumption | intro _ | refine canon_busOp _ _ _ _ _ _ ?_ | refine canon_dmaError _ _ ?_ | refine Canonical.ite ?_ ?_) | decide | split | unfold id | dsimp only

theorem canon_execSoftReset x0 x1 s (h : Canonical s) : Canonical (after s (execSoftReset x0 x1 s)) := by
  unfold execSoftReset
  try with_reducible refine Canonical.next ?_
  repeat' first | (with_reducible first | assumption | intro _ | refine canon_hdrAccess _ _ _ _ ?_ ?_ | refine canon_softReset _ _ _ _ ?_ | refine Canonical.ite ?_ ?_) | decide | split | unfold id | dsimp only

theorem canon_execAllcln x0 x1 x2 s (h : Canonical s) : Canonical (after s (execAllcln x0 x1 x2 s)) := by
  unfold execAllcln
  try with_reducible refine Canonical.next ?_
  repeat' first | (with_reducible first | assumption | intro _ | refine canon_State_modSys _ _ ?_ | refine canon_l1CleanAll _ _ ?_ | refine Canonical.ite ?_ ?_) | decide | split | unfold id | dsimp only

theorem canon_execL1Clean x0 x1 s (h : Canonical s) : Canonical (after s (execL1Clean x0 x1 s)) := by
  unfold execL1Clean
  try with_reducible refine Canonical.next ?_
  repeat' first | (with_reducible first | assumption | intro _ | refine canon_l1CleanLine _ _ _ ?_ | refine Canonical.ite ?_ ?_) | decide | split | unfold id | dsimp only

theorem canon_execL1CleanAndInvalidate x0 x1 s (h : Canonical s) : Canonical (after s (execL1CleanAndInvalidate x0 x1 s)) := by
  unfold execL1CleanAndInvalidate
  try with_reducible refine Canonical.next ?_
  repeat' first | (with_reducible first | assumption | intro _ | refine canon_l1CleanLine _ _ _ ?_ | refine canon_l1Remove _ _ _ ?_ | refine Canonical.ite ?_ ?_) | decide | split | unfold id | dsimp only

theorem canon_execIrqRouteWrite x0 x1 x2 s (h : Canonical s) : Canonical (after s (execIrqRouteWrite x0 x1 x2 s)) := by
  unfold execIrqRouteWrite
  try with_reducible refine Canonical.next ?_
  repeat' first | (with_reducible first | assumption | intro _ | refine canon_access _ _ _ _ _ ?_ ?_ | refine canon_routeWrite _ _ _ _ ?_ | refine Canonical.ite ?_ ?_) | decide | split | unfold id | dsimp only

theorem canon_execTwinDataAccess x0 x1 x2 x3 s (h : Canonical s) : Canonical (after s (execTwinDataAccess x0 x1 x2 x3 s)) := by
  unfold execTwinDataAccess
  try with_reducible refine Canonical.next ?_
  repeat' first | (with_reducible first | assumption | intro _ | refine canon_access _ _ _ _ _ ?_ ?_ | refine canon_twinAccess _ _ _ _ ?_ | refine Canonical.ite ?_ ?_) | decide | split | unfold id | dsimp only

theorem canon_execPor s (h : Canonical s) : Canonical (after s (execPor s)) := by
  unfold execPor
  try with_reducible refine Canonical.next ?_
  repeat' first | (with_reducible first | assumption | intro _ | refine canon_wickReset _ _ ?_ | refine Canonical.ite ?_ ?_) | decide | split | unfold id | dsimp only

theorem canon_execXo32kFail s (h : Canonical s) : Canonical (after s (execXo32kFail s)) := by
  unfold execXo32kFail
  try with_reducible refine Canonical.next ?_
  repeat' first | (with_reducible first | assumption | intro _ | refine canon_advanceTo _ _ ?_ | refine canon_xo32kFails _ ?_ | refine Canonical.ite ?_ ?_) | decide | split | unfold id | dsimp only

theorem canon_execXo40Fail s (h : Canonical s) : Canonical (after s (execXo40Fail s)) := by
  unfold execXo40Fail
  try with_reducible refine Canonical.next ?_
  repeat' first | (with_reducible first | assumption | intro _ | refine canon_ev _ _ _ _ _ _ ?_ | refine canon_pllLoss _ _ ?_ | refine canon_setFld _ _ _ _ _ _ _ ?_ | refine Canonical.foldl (fun _ _ _ => ?_) ?_ | refine Canonical.ite ?_ ?_) | fail_if_no_progress (with_reducible refine Canonical.set_clk ?_) | decide | split | unfold id | dsimp only

theorem canon_execMainRailsGood x0 x1 s (h : Canonical s) : Canonical (after s (execMainRailsGood x0 x1 s)) := by
  unfold execMainRailsGood
  try with_reducible refine Canonical.next ?_
  repeat' first | (with_reducible first | assumption | intro _ | refine canon_State_drawn _ ?_ | refine canon_State_modSec _ _ ?_ | refine canon_State_modSys _ _ ?_ | refine canon_elapse _ _ ?_ | refine canon_ev _ _ _ _ _ _ ?_ | refine canon_startCore _ _ ?_ | refine canon_wakeRecord _ _ _ ?_ | refine Canonical.ite ?_ ?_) | fail_if_no_progress (with_reducible refine Canonical.set_sup ?_) | decide | split | unfold id | dsimp only

theorem canon_execRailFault x0 s (h : Canonical s) : Canonical (after s (execRailFault x0 s)) := by
  unfold execRailFault
  try with_reducible refine Canonical.next ?_
  repeat' first | (with_reducible first | assumption | intro _ | refine canon_State_modPwr _ _ ?_ | refine canon_State_modSys _ _ ?_ | refine canon_darkEntry _ _ _ ?_ | refine canon_ev _ _ _ _ _ _ ?_ | refine canon_lossStart _ ?_ | refine canon_raiseLine _ _ ?_ | refine Canonical.ite ?_ ?_) | fail_if_no_progress (with_reducible refine Canonical.set_sup ?_) | decide | split | unfold id | dsimp only

theorem canon_execUartRecoveryImage x0 s (h : Canonical s) : Canonical (after s (execUartRecoveryImage x0 s)) := by
  unfold execUartRecoveryImage
  try with_reducible refine Canonical.next ?_
  repeat' first | (with_reducible first | assumption | intro _ | refine canon_startImage _ _ _ ?_ | refine Canonical.ite ?_ ?_) | decide | split | unfold id | dsimp only

theorem canon_execPerstAssert x0 s (h : Canonical s) : Canonical (after s (execPerstAssert x0 s)) := by
  unfold execPerstAssert
  try with_reducible refine Canonical.next ?_
  repeat' first | (with_reducible first | assumption | intro _ | refine canon_State_modCtrl _ _ _ ?_ | refine canon_perstAction _ _ ?_ | refine Canonical.ite ?_ ?_) | decide | split | unfold id | dsimp only

theorem canon_execDmcInitDone x0 s (h : Canonical s) : Canonical (after s (execDmcInitDone x0 s)) := by
  unfold execDmcInitDone
  try with_reducible refine Canonical.next ?_
  repeat' first | (with_reducible first | assumption | intro _ | refine canon_State_modSys _ _ ?_ | refine canon_releaseHeld _ ?_ | refine canon_zeroMibs _ _ ?_ | refine Canonical.ite ?_ ?_) | fail_if_no_progress (with_reducible refine Canonical.set_dmc ?_) | decide | split | unfold id | dsimp only

theorem canon_execDmcInitHeldAccess x0 s (h : Canonical s) : Canonical (after s (execDmcInitHeldAccess x0 s)) := by
  unfold execDmcInitHeldAccess
  try with_reducible refine Canonical.next ?_
  repeat' first | (with_reducible first | assumption | intro _ | refine canon_releaseHeld _ ?_ | refine canon_zeroMibs _ _ ?_ | refine Canonical.ite ?_ ?_) | decide | split | unfold id | dsimp only

theorem canon_execControllerReset x0 s (h : Canonical s) : Canonical (after s (execControllerReset x0 s)) := by
  unfold execControllerReset
  try with_reducible refine Canonical.next ?_
  repeat' first | (with_reducible first | assumption | intro _ | refine canon_stopController _ _ _ ?_ | refine Canonical.ite ?_ ?_) | decide | split | unfold id | dsimp only

theorem canon_execFunctionLevelReset x0 s (h : Canonical s) : Canonical (after s (execFunctionLevelReset x0 s)) := by
  unfold execFunctionLevelReset
  try with_reducible refine Canonical.next ?_
  repeat' first | (with_reducible first | assumption | intro _ | refine canon_linkReset _ _ _ ?_ | refine Canonical.ite ?_ ?_) | decide | split | unfold id | dsimp only

theorem canon_execLinkDown x0 s (h : Canonical s) : Canonical (after s (execLinkDown x0 s)) := by
  unfold execLinkDown
  try with_reducible refine Canonical.next ?_
  repeat' first | (with_reducible first | assumption | intro _ | refine canon_linkReset _ _ _ ?_ | refine Canonical.ite ?_ ?_) | decide | split | unfold id | dsimp only

theorem canon_execCoreDomainHold x0 s (h : Canonical s) : Canonical (after s (execCoreDomainHold x0 s)) := by
  unfold execCoreDomainHold
  try with_reducible refine Canonical.next ?_
  repeat' first | (with_reducible first | assumption | intro _ | refine canon_State_modSys _ _ ?_ | refine canon_abandonCommit _ ?_ | refine canon_coreReset _ ?_ | refine Canonical.ite ?_ ?_) | decide | split | unfold id | dsimp only

theorem canon_execResetNRelease x0 s (h : Canonical s) : Canonical (after s (execResetNRelease x0 s)) := by
  unfold execResetNRelease
  try with_reducible refine Canonical.next ?_
  repeat' first | (with_reducible first | assumption | intro _ | refine canon_State_modSys _ _ ?_ | refine canon_coldStart _ _ ?_ | refine Canonical.ite ?_ ?_) | decide | split | unfold id | dsimp only

theorem canon_execNvmSubsystemReset x0 x1 s (h : Canonical s) : Canonical (after s (execNvmSubsystemReset x0 x1 s)) := by
  unfold execNvmSubsystemReset
  try with_reducible refine Canonical.next ?_
  repeat' first | (with_reducible first | assumption | intro _ | refine canon_subsystemReset _ ?_ | refine Canonical.ite ?_ ?_) | decide | split | unfold id | dsimp only

theorem canon_execWatchdogEnable x0 x1 s (h : Canonical s) : Canonical (after s (execWatchdogEnable x0 x1 s)) := by
  unfold execWatchdogEnable
  try with_reducible refine Canonical.next ?_
  repeat' first | (with_reducible first | assumption | intro _ | refine canon_access _ _ _ _ _ ?_ ?_ | refine canon_writeWdtctl _ _ ?_ | refine Canonical.ite ?_ ?_) | decide | split | unfold id | dsimp only

theorem canon_execWatchdogPeriod s (h : Canonical s) : Canonical (after s (execWatchdogPeriod s)) := by
  unfold execWatchdogPeriod
  try with_reducible refine Canonical.next ?_
  repeat' first | (with_reducible first | assumption | intro _ | refine canon_State_modSys _ _ ?_ | refine canon_advanceTo _ _ ?_ | refine canon_ev _ _ _ _ _ _ ?_ | refine canon_setIrqStat _ _ _ _ ?_ | refine Canonical.ite ?_ ?_) | decide | split | unfold id | dsimp only

theorem canon_execWatchdogReset s (h : Canonical s) : Canonical (after s (execWatchdogReset s)) := by
  unfold execWatchdogReset
  try with_reducible refine Canonical.next ?_
  repeat' first | (with_reducible first | assumption | intro _ | refine canon_State_modSys _ _ ?_ | refine canon_advanceTo _ _ ?_ | refine canon_ev _ _ _ _ _ _ ?_ | refine canon_resetSteps _ _ ?_ | refine Canonical.ite ?_ ?_) | decide | split | unfold id | dsimp only

theorem canon_execPowerLoss s (h : Canonical s) : Canonical (after s (execPowerLoss s)) := by
  unfold execPowerLoss
  try with_reducible refine Canonical.next ?_
  repeat' first | (with_reducible first | assumption | intro _ | refine canon_elapse _ _ ?_ | refine canon_lossStart _ ?_ | refine Canonical.ite ?_ ?_) | decide | split | unfold id | dsimp only

theorem canon_execPreqGo x0 x1 s (h : Canonical s) : Canonical (after s (execPreqGo x0 x1 s)) := by
  unfold execPreqGo
  try with_reducible refine Canonical.next ?_
  repeat' first | (with_reducible first | assumption | intro _ | refine canon_access _ _ _ _ _ ?_ ?_ | refine canon_writePreq _ _ ?_ | refine Canonical.ite ?_ ?_) | decide | split | unfold id | dsimp only

theorem canon_execPowerStateEntered s (h : Canonical s) : Canonical (after s (execPowerStateEntered s)) := by
  unfold execPowerStateEntered
  try with_reducible refine Canonical.next ?_
  repeat' first | (with_reducible first | assumption | intro _ | refine canon_powerEntered _ ?_ | refine Canonical.ite ?_ ?_) | decide | split | unfold id | dsimp only

theorem canon_execPdoffWrite x0 x1 s (h : Canonical s) : Canonical (after s (execPdoffWrite x0 x1 s)) := by
  unfold execPdoffWrite
  try with_reducible refine Canonical.next ?_
  repeat' first | (with_reducible first | assumption | intro _ | refine canon_access _ _ _ _ _ ?_ ?_ | refine canon_writePdoff _ _ ?_ | refine Canonical.ite ?_ ?_) | decide | split | unfold id | dsimp only

theorem canon_execWakeSource x0 x1 x2 s (h : Canonical s) : Canonical (after s (execWakeSource x0 x1 x2 s)) := by
  unfold execWakeSource
  try with_reducible refine Canonical.next ?_
  repeat' first | (with_reducible first | assumption | intro _ | refine canon_noteWake _ _ ?_ | refine canon_wakeAct _ _ _ ?_ | refine Canonical.ite ?_ ?_) | decide | split | unfold id | dsimp only

theorem canon_execClkDomWrite x0 x1 x2 s (h : Canonical s) : Canonical (after s (execClkDomWrite x0 x1 x2 s)) := by
  unfold execClkDomWrite
  try with_reducible refine Canonical.next ?_
  repeat' first | (with_reducible first | assumption | intro _ | refine canon_access _ _ _ _ _ ?_ ?_ | refine canon_writeClkDom _ _ _ ?_ | refine Canonical.ite ?_ ?_) | decide | split | unfold id | dsimp only

theorem canon_execPllLocked x0 s (h : Canonical s) : Canonical (after s (execPllLocked x0 s)) := by
  unfold execPllLocked
  try with_reducible refine Canonical.next ?_
  repeat' first | (with_reducible first | assumption | intro _ | refine canon_refreshEnds _ ?_ | refine canon_setLock _ _ _ ?_ | refine Canonical.ite ?_ ?_) | decide | split | unfold id | dsimp only

theorem canon_execPllLockLoss x0 s (h : Canonical s) : Canonical (after s (execPllLockLoss x0 s)) := by
  unfold execPllLockLoss
  try with_reducible refine Canonical.next ?_
  repeat' first | (with_reducible first | assumption | intro _ | refine canon_pllLoss _ _ ?_ | refine Canonical.ite ?_ ?_) | decide | split | unfold id | dsimp only

theorem canon_execPsEntryRestart s (h : Canonical s) : Canonical (after s (execPsEntryRestart s)) := by
  unfold execPsEntryRestart
  try with_reducible refine Canonical.next ?_
  repeat' first | (with_reducible first | assumption | intro _ | refine canon_State_modPwr _ _ ?_ | refine canon_elapse _ _ ?_ | refine canon_psProceed _ _ ?_ | refine Canonical.ite ?_ ?_) | decide | split | unfold id | dsimp only

theorem canon_execLeaveRequest x0 x1 x2 s (h : Canonical s) : Canonical (after s (execLeaveRequest x0 x1 x2 s)) := by
  unfold execLeaveRequest
  try with_reducible refine Canonical.next ?_
  repeat' first | (with_reducible first | assumption | intro _ | refine canon_access _ _ _ _ _ ?_ ?_ | refine canon_writeReqb _ _ _ ?_ | refine Canonical.ite ?_ ?_) | decide | split | unfold id | dsimp only

theorem canon_execLeaveExpiry x0 s (h : Canonical s) : Canonical (after s (execLeaveExpiry x0 s)) := by
  unfold execLeaveExpiry
  try with_reducible refine Canonical.next ?_
  repeat' first | (with_reducible first | assumption | intro _ | refine canon_advanceTo _ _ ?_ | refine canon_endGrant _ _ _ ?_ | refine canon_walkQueue _ ?_ | refine Canonical.ite ?_ ?_) | decide | split | unfold id | dsimp only

theorem canon_execDrawAfterExpiry x0 s (h : Canonical s) : Canonical (after s (execDrawAfterExpiry x0 s)) := by
  unfold execDrawAfterExpiry
  try with_reducible refine Canonical.next ?_
  repeat' first | (with_reducible first | assumption | intro _ | refine canon_State_modLlt _ _ ?_ | refine canon_elapse _ _ ?_ | refine canon_ev _ _ _ _ _ _ ?_ | refine Canonical.ite ?_ ?_) | decide | split | unfold id | dsimp only

theorem canon_execLeaveDeadline x0 s (h : Canonical s) : Canonical (after s (execLeaveDeadline x0 s)) := by
  unfold execLeaveDeadline
  try with_reducible refine Canonical.next ?_
  repeat' first | (with_reducible first | assumption | intro _ | refine canon_State_modLlt _ _ ?_ | refine canon_State_modPort _ _ _ ?_ | refine canon_advanceTo _ _ ?_ | refine canon_countClass _ _ _ ?_ | refine canon_ev _ _ _ _ _ _ ?_ | refine canon_freeTicket _ _ ?_ | refine canon_guarantee _ _ _ _ _ _ _ ?_ | refine canon_leaveLost _ _ ?_ | refine canon_portLine _ _ ?_ | refine canon_walkQueue _ ?_ | refine Canonical.ite ?_ ?_) | decide | split | unfold id | dsimp only

theorem canon_execThermalCeilingStep s (h : Canonical s) : Canonical (after s (execThermalCeilingStep s)) := by
  unfold execThermalCeilingStep
  try with_reducible refine Canonical.next ?_
  repeat' first | (with_reducible first | assumption | intro _ | refine canon_elapse _ _ ?_ | refine canon_thermLower _ ?_ | refine canon_thermRaise _ ?_ | refine canon_walkQueue _ ?_ | refine Canonical.ite ?_ ?_) | decide | split | unfold id | dsimp only

theorem canon_execSqTailDoorbell x0 x1 x2 x3 s (h : Canonical s) : Canonical (after s (execSqTailDoorbell x0 x1 x2 x3 s)) := by
  unfold execSqTailDoorbell
  try with_reducible refine Canonical.next ?_
  repeat' first | (with_reducible first | assumption | intro _ | refine canon_modSq _ _ _ _ ?_ | refine canon_raiseLine _ _ ?_ | refine canon_unwindEntry _ _ ?_ | refine Canonical.ite ?_ ?_) | decide | split | unfold id | dsimp only

theorem canon_execCqHeadDoorbell x0 x1 x2 s (h : Canonical s) : Canonical (after s (execCqHeadDoorbell x0 x1 x2 s)) := by
  unfold execCqHeadDoorbell
  try with_reducible refine Canonical.next ?_
  repeat' first | (with_reducible first | assumption | intro _ | refine canon_modCq _ _ _ _ ?_ | refine canon_unwindEntry _ _ ?_ | refine Canonical.ite ?_ ?_) | decide | split | unfold id | dsimp only

theorem canon_execCommandFetch x0 s (h : Canonical s) : Canonical (after s (execCommandFetch x0 s)) := by
  unfold execCommandFetch
  try with_reducible refine Canonical.next ?_
  repeat' first | (with_reducible first | assumption | intro _ | refine canon_checkPause _ ?_ | refine canon_enterCmd _ _ _ _ _ _ ?_ | refine canon_fetchNext _ _ ?_ | refine Canonical.ite ?_ ?_) | decide | split | unfold id | dsimp only

theorem canon_execRecoveryTimeLimitExpiry x0 s (h : Canonical s) : Canonical (after s (execRecoveryTimeLimitExpiry x0 s)) := by
  unfold execRecoveryTimeLimitExpiry
  try with_reducible refine Canonical.next ?_
  repeat' first | (with_reducible first | assumption | intro _ | refine canon_advanceTo _ _ ?_ | refine canon_limitPassed _ _ ?_ | refine Canonical.ite ?_ ?_) | decide | split | unfold id | dsimp only

theorem canon_execAbortMatch x0 x1 s (h : Canonical s) : Canonical (after s (execAbortMatch x0 x1 s)) := by
  unfold execAbortMatch
  try with_reducible refine Canonical.next ?_
  repeat' first | (with_reducible first | assumption | intro _ | refine canon_access _ _ _ _ _ ?_ ?_ | refine canon_writeAbortReq _ _ ?_ | refine Canonical.ite ?_ ?_) | decide | split | unfold id | dsimp only

theorem canon_execReservationAcquire x0 s (h : Canonical s) : Canonical (after s (execReservationAcquire x0 s)) := by
  unfold execReservationAcquire
  try with_reducible refine Canonical.next ?_
  repeat' first | (with_reducible first | assumption | intro _ | refine canon_withNs _ _ _ _ ?_ ?_ | refine canon_finish _ _ _ ?_ | refine canon_modNs _ _ _ ?_ | refine canon_preempt _ _ _ _ _ _ ?_ | refine Canonical.ite ?_ ?_) | decide | split | unfold id | dsimp only

theorem canon_execSetFeaturesTimestamp x0 s (h : Canonical s) : Canonical (after s (execSetFeaturesTimestamp x0 s)) := by
  unfold execSetFeaturesTimestamp
  try with_reducible refine Canonical.next ?_
  repeat' first | (with_reducible first | assumption | intro _ | refine canon_setFeature _ _ _ _ ?_ ?_ | refine canon_State_modVlk _ _ ?_ | refine canon_calLoad _ _ _ _ ?_ | refine canon_finish _ _ _ ?_ | refine canon_rootFollow _ ?_ | refine Canonical.ite ?_ ?_) | decide | split | unfold id | dsimp only

theorem canon_execSetFeaturesTemperatureThreshold x0 s (h : Canonical s) : Canonical (after s (execSetFeaturesTemperatureThreshold x0 s)) := by
  unfold execSetFeaturesTemperatureThreshold
  try with_reducible refine Canonical.next ?_
  repeat' first | (with_reducible first | assumption | intro _ | refine canon_setFeature _ _ _ _ ?_ ?_ | refine canon_finish _ _ _ ?_ | refine canon_saveFeature _ _ _ ?_ | refine canon_setCtrl _ _ _ ?_ | refine canon_setFld _ _ _ _ _ _ _ ?_ | refine Canonical.ite ?_ ?_) | decide | split | unfold id | dsimp only

theorem canon_execSetFeaturesLeaseFloor x0 s (h : Canonical s) : Canonical (after s (execSetFeaturesLeaseFloor x0 s)) := by
  unfold execSetFeaturesLeaseFloor
  try with_reducible refine Canonical.next ?_
  repeat' first | (with_reducible first | assumption | intro _ | refine canon_setFeature _ _ _ _ ?_ ?_ | refine canon_finish _ _ _ ?_ | refine canon_saveFeature _ _ _ ?_ | refine canon_setFld _ _ _ _ _ _ _ ?_ | refine canon_walkQueue _ ?_ | refine Canonical.ite ?_ ?_) | decide | split | unfold id | dsimp only

theorem canon_execAbort x0 s (h : Canonical s) : Canonical (after s (execAbort x0 s)) := by
  unfold execAbort
  try with_reducible refine Canonical.next ?_
  repeat' first | (with_reducible first | assumption | intro _ | refine canon_withCmd _ _ _ _ ?_ ?_ | refine canon_finishDw _ _ _ _ _ ?_ | refine canon_matchCmd _ _ _ _ ?_ | refine Canonical.ite ?_ ?_) | decide | split | unfold id | dsimp only

theorem canon_execNamespaceManagement x0 s (h : Canonical s) : Canonical (after s (execNamespaceManagement x0 s)) := by
  unfold execNamespaceManagement
  try with_reducible refine Canonical.next ?_
  repeat' first | (with_reducible first | assumption | intro _ | refine canon_withCmd _ _ _ _ ?_ ?_ | refine canon_finish _ _ _ ?_ | refine canon_nsCreate _ _ ?_ | refine canon_nsDelete _ _ ?_ | refine Canonical.ite ?_ ?_) | decide | split | unfold id | dsimp only

theorem canon_execActivationPauseTimeout s (h : Canonical s) : Canonical (after s (execActivationPauseTimeout s)) := by
  unfold execActivationPauseTimeout
  try with_reducible refine Canonical.next ?_
  repeat' first | (with_reducible first | assumption | intro _ | refine canon_State_modHce _ _ ?_ | refine canon_State_modSys _ _ ?_ | refine canon_advanceTo _ _ ?_ | refine canon_ev _ _ _ _ _ _ ?_ | refine canon_finish _ _ _ ?_ | refine Canonical.ite ?_ ?_) | decide | split | unfold id | dsimp only

theorem canon_execNvmeMiSend x0 s (h : Canonical s) : Canonical (after s (execNvmeMiSend x0 s)) := by
  unfold execNvmeMiSend
  try with_reducible refine Canonical.next ?_
  repeat' first | (with_reducible first | assumption | intro _ | refine canon_withCmd _ _ _ _ ?_ ?_ | refine canon_miConfigSet _ _ _ ?_ | refine canon_miFinish _ _ _ _ ?_ | refine canon_miVpdWrite _ _ _ ?_ | refine canon_subsystemReset _ ?_ | refine Canonical.ite ?_ ?_) | refine Canonical.of_eq (congrArg Prod.fst ‹miConfigSet _ _ _ = _›) ?_ | decide | split | unfold id | dsimp only

theorem canon_execMiReset s (h : Canonical s) : Canonical (after s (execMiReset s)) := by
  unfold execMiReset
  try with_reducible refine Canonical.next ?_
  repeat' first | (with_reducible first | assumption | intro _ | refine canon_subsystemReset _ ?_ | refine Canonical.ite ?_ ?_) | decide | split | unfold id | dsimp only

theorem canon_execNsdomWrite x0 x1 x2 s (h : Canonical s) : Canonical (after s (execNsdomWrite x0 x1 x2 s)) := by
  unfold execNsdomWrite
  try with_reducible refine Canonical.next ?_
  repeat' first | (with_reducible first | assumption | intro _ | refine canon_access _ _ _ _ _ ?_ ?_ | refine canon_writeNsdom _ _ _ ?_ | refine Canonical.ite ?_ ?_) | decide | split | unfold id | dsimp only

theorem canon_execLgrWinGo x0 x1 s (h : Canonical s) : Canonical (after s (execLgrWinGo x0 x1 s)) := by
  unfold execLgrWinGo
  try with_reducible refine Canonical.next ?_
  repeat' first | (with_reducible first | assumption | intro _ | refine canon_access _ _ _ _ _ ?_ ?_ | refine canon_writeLgrWin _ _ ?_ | refine Canonical.ite ?_ ?_) | decide | split | unfold id | dsimp only

theorem canon_execCommitRecordDurable s (h : Canonical s) : Canonical (after s (execCommitRecordDurable s)) := by
  unfold execCommitRecordDurable
  try with_reducible refine Canonical.next ?_
  repeat' first | (with_reducible first | assumption | intro _ | refine canon_commitDurable _ ?_ | refine canon_lossEnd _ ?_ | refine Canonical.ite ?_ ?_) | decide | split | unfold id | dsimp only

theorem canon_execTaskCommit x0 x1 s (h : Canonical s) : Canonical (after s (execTaskCommit x0 x1 s)) := by
  unfold execTaskCommit
  try with_reducible refine Canonical.next ?_
  repeat' first | (with_reducible first | assumption | intro _ | refine canon_access _ _ _ _ _ ?_ ?_ | refine canon_writePcmd _ _ _ ?_ | refine Canonical.ite ?_ ?_) | decide | split | unfold id | dsimp only

theorem canon_execTaskCancel x0 x1 s (h : Canonical s) : Canonical (after s (execTaskCancel x0 x1 s)) := by
  unfold execTaskCancel
  try with_reducible refine Canonical.next ?_
  repeat' first | (with_reducible first | assumption | intro _ | refine canon_access _ _ _ _ _ ?_ ?_ | refine canon_writePcmd _ _ _ ?_ | refine Canonical.ite ?_ ?_) | decide | split | unfold id | dsimp only

theorem canon_execTaskPromotion x0 s (h : Canonical s) : Canonical (after s (execTaskPromotion x0 s)) := by
  unfold execTaskPromotion
  try with_reducible refine Canonical.next ?_
  repeat' first | (with_reducible first | assumption | intro _ | refine canon_promote _ _ ?_ | refine Canonical.ite ?_ ?_) | decide | split | unfold id | dsimp only

theorem canon_execMicrowordIssue x0 s (h : Canonical s) : Canonical (after s (execMicrowordIssue x0 s)) := by
  unfold execMicrowordIssue
  try with_reducible refine Canonical.next ?_
  repeat' first | (with_reducible first | assumption | intro _ | refine canon_boundary _ _ ?_ | refine canon_fetchIssue _ _ ?_ | refine Canonical.ite ?_ ?_) | decide | split | unfold id | dsimp only

theorem canon_execSeqNext x0 s (h : Canonical s) : Canonical (after s (execSeqNext x0 s)) := by
  unfold execSeqNext
  try with_reducible refine Canonical.next ?_
  repeat' first | (with_reducible first | assumption | intro _ | refine canon_fallThrough _ _ ?_ | refine canon_seqStep _ _ _ _ ?_ ?_ | refine Canonical.ite ?_ ?_) | decide | split | unfold id | dsimp only

theorem canon_execSeqJump x0 s (h : Canonical s) : Canonical (after s (execSeqJump x0 s)) := by
  unfold execSeqJump
  try with_reducible refine Canonical.next ?_
  repeat' first | (with_reducible first | assumption | intro _ | refine canon_seqStep _ _ _ _ ?_ ?_ | refine canon_transfer _ _ _ _ ?_ | refine Canonical.ite ?_ ?_) | decide | split | unfold id | dsimp only

theorem canon_execSeqCall x0 s (h : Canonical s) : Canonical (after s (execSeqCall x0 s)) := by
  unfold execSeqCall
  try with_reducible refine Canonical.next ?_
  repeat' first | (with_reducible first | assumption | intro _ | refine canon_seqCallDo _ _ ?_ | refine canon_seqStep _ _ _ _ ?_ ?_ | refine Canonical.ite ?_ ?_) | decide | split | unfold id | dsimp only

theorem canon_execSeqRet x0 s (h : Canonical s) : Canonical (after s (execSeqRet x0 s)) := by
  unfold execSeqRet
  try with_reducible refine Canonical.next ?_
  repeat' first | (with_reducible first | assumption | intro _ | refine canon_seqRetDo _ _ ?_ | refine canon_seqStep _ _ _ _ ?_ ?_ | refine Canonical.ite ?_ ?_) | decide | split | unfold id | dsimp only

theorem canon_execSeqBrt x0 s (h : Canonical s) : Canonical (after s (execSeqBrt x0 s)) := by
  unfold execSeqBrt
  try with_reducible refine Canonical.next ?_
  repeat' first | (with_reducible first | assumption | intro _ | refine canon_seqBranch _ _ _ ?_ | refine canon_seqStep _ _ _ _ ?_ ?_ | refine Canonical.ite ?_ ?_) | decide | split | unfold id | dsimp only

theorem canon_execSeqBrf x0 s (h : Canonical s) : Canonical (after s (execSeqBrf x0 s)) := by
  unfold execSeqBrf
  try with_reducible refine Canonical.next ?_
  repeat' first | (with_reducible first | assumption | intro _ | refine canon_seqBranch _ _ _ ?_ | refine canon_seqStep _ _ _ _ ?_ ?_ | refine Canonical.ite ?_ ?_) | decide | split | unfold id | dsimp only

theorem canon_execSeqDispatch x0 s (h : Canonical s) : Canonical (after s (execSeqDispatch x0 s)) := by
  unfold execSeqDispatch
  try with_reducible refine Canonical.next ?_
  repeat' first | (with_reducible first | assumption | intro _ | refine canon_seqDispatchDo _ _ ?_ | refine canon_seqStep _ _ _ _ ?_ ?_ | refine Canonical.ite ?_ ?_) | decide | split | unfold id | dsimp only

theorem canon_execSeqLoop x0 s (h : Canonical s) : Canonical (after s (execSeqLoop x0 s)) := by
  unfold execSeqLoop
  try with_reducible refine Canonical.next ?_
  repeat' first | (with_reducible first | assumption | intro _ | refine canon_seqLoopDo _ _ ?_ | refine canon_seqStep _ _ _ _ ?_ ?_ | refine Canonical.ite ?_ ?_) | decide | split | unfold id | dsimp only

theorem canon_execWaitTimeout x0 s (h : Canonical s) : Canonical (after s (execWaitTimeout x0 s)) := by
  unfold execWaitTimeout
  try with_reducible refine Canonical.next ?_
  repeat' first | (with_reducible first | assumption | intro _ | refine canon_advanceTo _ _ ?_ | refine canon_enterHandler _ _ _ _ ?_ | refine Canonical.ite ?_ ?_) | decide | split | unfold id | dsimp only

theorem canon_execAtomicBound x0 s (h : Canonical s) : Canonical (after s (execAtomicBound x0 s)) := by
  unfold execAtomicBound
  try with_reducible refine Canonical.next ?_
  repeat' first | (with_reducible first | assumption | intro _ | refine canon_State_modAsq _ _ _ ?_ | refine canon_advanceTo _ _ ?_ | refine canon_ev _ _ _ _ _ _ ?_ | refine Canonical.ite ?_ ?_) | decide | split | unfold id | dsimp only

theorem canon_execAsqAbort x0 x1 x2 s (h : Canonical s) : Canonical (after s (execAsqAbort x0 x1 x2 s)) := by
  unfold execAsqAbort
  try with_reducible refine Canonical.next ?_
  repeat' first | (with_reducible first | assumption | intro _ | refine canon_access _ _ _ _ _ ?_ ?_ | refine canon_writeAbort _ _ _ ?_ | refine Canonical.ite ?_ ?_) | decide | split | unfold id | dsimp only

theorem canon_execTaskDeadline x0 s (h : Canonical s) : Canonical (after s (execTaskDeadline x0 s)) := by
  unfold execTaskDeadline
  try with_reducible refine Canonical.next ?_
  repeat' first | (with_reducible first | assumption | intro _ | refine canon_State_modAsq _ _ _ ?_ | refine canon_advanceTo _ _ ?_ | refine canon_ev _ _ _ _ _ _ ?_ | refine canon_requestArrives _ _ ?_ | refine Canonical.ite ?_ ?_) | decide | split | unfold id | dsimp only

theorem canon_execMicrocodeActivate x0 s (h : Canonical s) : Canonical (after s (execMicrocodeActivate x0 s)) := by
  unfold execMicrocodeActivate
  try with_reducible refine Canonical.next ?_
  repeat' first | (with_reducible first | assumption | intro _ | refine canon_mailbox _ _ _ ?_ ?_ | refine canon_answer _ _ _ _ ?_ | refine canon_armCst _ _ ?_ | refine canon_ev _ _ _ _ _ _ ?_ | refine Canonical.ite ?_ ?_) | fail_if_no_progress (with_reducible refine Canonical.set_cst ?_) | decide | split | unfold id | dsimp only

theorem canon_execActivationAbandon s (h : Canonical s) : Canonical (after s (execActivationAbandon s)) := by
  unfold execActivationAbandon
  try with_reducible refine Canonical.next ?_
  repeat' first | (with_reducible first | assumption | intro _ | refine canon_advanceTo _ _ ?_ | refine canon_ev _ _ _ _ _ _ ?_ | refine canon_releaseHolds _ ?_ | refine Canonical.ite ?_ ?_) | fail_if_no_progress (with_reducible refine Canonical.set_cst ?_) | decide | split | unfold id | dsimp only

theorem canon_execDefectInsert x0 x1 s (h : Canonical s) : Canonical (after s (execDefectInsert x0 x1 s)) := by
  unfold execDefectInsert
  try with_reducible refine Canonical.next ?_
  repeat' first | (with_reducible first | assumption | intro _ | refine canon_dlopCmd _ _ _ ?_ | refine Canonical.ite ?_ ?_) | decide | split | unfold id | dsimp only

theorem canon_execDefectDelete x0 x1 s (h : Canonical s) : Canonical (after s (execDefectDelete x0 x1 s)) := by
  unfold execDefectDelete
  try with_reducible refine Canonical.next ?_
  repeat' first | (with_reducible first | assumption | intro _ | refine canon_dlopCmd _ _ _ ?_ | refine Canonical.ite ?_ ?_) | decide | split | unfold id | dsimp only

theorem canon_execDefectClearPending x0 x1 s (h : Canonical s) : Canonical (after s (execDefectClearPending x0 x1 s)) := by
  unfold execDefectClearPending
  try with_reducible refine Canonical.next ?_
  repeat' first | (with_reducible first | assumption | intro _ | refine canon_dlopCmd _ _ _ ?_ | refine Canonical.ite ?_ ?_) | decide | split | unfold id | dsimp only

theorem canon_execDefectInsertRelease s (h : Canonical s) : Canonical (after s (execDefectInsertRelease s)) := by
  unfold execDefectInsertRelease
  try with_reducible refine Canonical.next ?_
  repeat' first | (with_reducible first | assumption | intro _ | refine canon_dlInsert _ _ _ ?_ | refine Canonical.ite ?_ ?_) | decide | split | unfold id | dsimp only

theorem canon_execEngineRun x0 x1 x2 s (h : Canonical s) : Canonical (after s (execEngineRun x0 x1 x2 s)) := by
  unfold execEngineRun
  try with_reducible refine Canonical.next ?_
  repeat' first | (with_reducible first | assumption | intro _ | refine canon_access _ _ _ _ _ ?_ ?_ | refine canon_writeSveCfg _ _ _ ?_ | refine Canonical.ite ?_ ?_) | decide | split | unfold id | dsimp only

theorem canon_execSeekTimeout x0 s (h : Canonical s) : Canonical (after s (execSeekTimeout x0 s)) := by
  unfold execSeekTimeout
  try with_reducible refine Canonical.next ?_
  repeat' first | (with_reducible first | assumption | intro _ | refine canon_abandonMoves _ _ _ ?_ | refine canon_advanceTo _ _ ?_ | refine Canonical.ite ?_ ?_) | decide | split | unfold id | dsimp only

theorem canon_execRetractEnd x0 s (h : Canonical s) : Canonical (after s (execRetractEnd x0 s)) := by
  unfold execRetractEnd
  try with_reducible refine Canonical.next ?_
  repeat' first | (with_reducible first | assumption | intro _ | refine canon_lossEnd _ ?_ | refine canon_retractEnd _ _ ?_ | refine Canonical.ite ?_ ?_) | decide | split | unfold id | dsimp only

theorem canon_execFocusLost x0 s (h : Canonical s) : Canonical (after s (execFocusLost x0 s)) := by
  unfold execFocusLost
  try with_reducible refine Canonical.next ?_
  repeat' first | (with_reducible first | assumption | intro _ | refine canon_State_modPu _ _ _ ?_ | refine canon_State_modSve _ _ _ ?_ | refine canon_abandonMoves _ _ _ ?_ | refine canon_advanceTo _ _ ?_ | refine canon_ev _ _ _ _ _ _ ?_ | refine canon_setFocused _ _ _ ?_ | refine canon_sveLine _ _ _ ?_ | refine Canonical.ite ?_ ?_) | decide | split | unfold id | dsimp only

theorem canon_execJumpGo x0 x1 x2 s (h : Canonical s) : Canonical (after s (execJumpGo x0 x1 x2 s)) := by
  unfold execJumpGo
  try with_reducible refine Canonical.next ?_
  repeat' first | (with_reducible first | assumption | intro _ | refine canon_access _ _ _ _ _ ?_ ?_ | refine canon_writeJump _ _ _ ?_ | refine Canonical.ite ?_ ?_) | decide | split | unfold id | dsimp only

theorem canon_execFocusSweepGo x0 x1 x2 s (h : Canonical s) : Canonical (after s (execFocusSweepGo x0 x1 x2 s)) := by
  unfold execFocusSweepGo
  try with_reducible refine Canonical.next ?_
  repeat' first | (with_reducible first | assumption | intro _ | refine canon_access _ _ _ _ _ ?_ ?_ | refine canon_writeSweep _ _ _ ?_ | refine Canonical.ite ?_ ?_) | decide | split | unfold id | dsimp only

theorem canon_execTraceStart x0 x1 x2 s (h : Canonical s) : Canonical (after s (execTraceStart x0 x1 x2 s)) := by
  unfold execTraceStart
  try with_reducible refine Canonical.next ?_
  repeat' first | (with_reducible first | assumption | intro _ | refine canon_access _ _ _ _ _ ?_ ?_ | refine canon_writeTrctl _ _ _ ?_ | refine Canonical.ite ?_ ?_) | decide | split | unfold id | dsimp only

theorem canon_execTraceStop x0 x1 x2 s (h : Canonical s) : Canonical (after s (execTraceStop x0 x1 x2 s)) := by
  unfold execTraceStop
  try with_reducible refine Canonical.next ?_
  repeat' first | (with_reducible first | assumption | intro _ | refine canon_access _ _ _ _ _ ?_ ?_ | refine canon_writeTrctl _ _ _ ?_ | refine Canonical.ite ?_ ?_) | decide | split | unfold id | dsimp only

theorem canon_execSpinupAttemptTimeout s (h : Canonical s) : Canonical (after s (execSpinupAttemptTimeout s)) := by
  unfold execSpinupAttemptTimeout
  try with_reducible refine Canonical.next ?_
  repeat' first | (with_reducible first | assumption | intro _ | refine canon_advanceTo _ _ ?_ | refine canon_alignStart _ ?_ | refine canon_ev _ _ _ _ _ _ ?_ | refine canon_spnFault _ _ ?_ | refine Canonical.ite ?_ ?_) | decide | split | unfold id | dsimp only

theorem canon_execBemfCrossing x0 x1 s (h : Canonical s) : Canonical (after s (execBemfCrossing x0 x1 s)) := by
  unfold execBemfCrossing
  try with_reducible refine Canonical.next ?_
  repeat' first | (with_reducible first | assumption | intro _ | refine canon_State_modSpn _ _ ?_ | refine canon_brakeSpeed _ ?_ | refine canon_crossingBad _ ?_ | refine canon_crossingGood _ ?_ | refine canon_revStep _ _ ?_ | refine canon_swapPhases _ ?_ | refine canon_unloadCheck _ _ ?_ | refine Canonical.ite ?_ ?_) | decide | split | unfold id | dsimp only

theorem canon_execRecoveryTimeout s (h : Canonical s) : Canonical (after s (execRecoveryTimeout s)) := by
  unfold execRecoveryTimeout
  try with_reducible refine Canonical.next ?_
  repeat' first | (with_reducible first | assumption | intro _ | refine canon_advanceTo _ _ ?_ | refine canon_recoveryFails _ ?_ | refine Canonical.ite ?_ ?_) | decide | split | unfold id | dsimp only

theorem canon_execLaserMonitorRead x0 x1 x2 s (h : Canonical s) : Canonical (after s (execLaserMonitorRead x0 x1 x2 s)) := by
  unfold execLaserMonitorRead
  try with_reducible refine Canonical.next ?_
  repeat' first | (with_reducible first | assumption | intro _ | refine canon_State_modLaser _ _ _ ?_ | refine canon_elapse _ _ ?_ | refine canon_judgeReading _ _ _ ?_ | refine canon_readPower _ _ _ ?_ | refine Canonical.ite ?_ ?_) | decide | split | unfold id | dsimp only

theorem canon_execOptFmtWrite x0 x1 s (h : Canonical s) : Canonical (after s (execOptFmtWrite x0 x1 s)) := by
  unfold execOptFmtWrite
  try with_reducible refine Canonical.next ?_
  repeat' first | (with_reducible first | assumption | intro _ | refine canon_access _ _ _ _ _ ?_ ?_ | refine canon_writeOptFmt _ _ ?_ | refine Canonical.ite ?_ ?_) | decide | split | unfold id | dsimp only

theorem canon_execSaDelayEnd x0 s (h : Canonical s) : Canonical (after s (execSaDelayEnd x0 s)) := by
  unfold execSaDelayEnd
  try with_reducible refine Canonical.next ?_
  repeat' first | (with_reducible first | assumption | intro _ | refine canon_advanceTo _ _ ?_ | refine canon_jumpStart _ _ _ _ _ _ ?_ | refine canon_optBump _ _ _ _ ?_ | refine Canonical.ite ?_ ?_) | decide | split | unfold id | dsimp only

theorem canon_execSledMoveEnd x0 s (h : Canonical s) : Canonical (after s (execSledMoveEnd x0 s)) := by
  unfold execSledMoveEnd
  try with_reducible refine Canonical.next ?_
  repeat' first | (with_reducible first | assumption | intro _ | refine canon_State_modPu _ _ _ ?_ | refine canon_advanceTo _ _ ?_ | refine Canonical.ite ?_ ?_) | decide | split | unfold id | dsimp only

theorem canon_execDdrRead x0 x1 x2 s (h : Canonical s) : Canonical (after s (execDdrRead x0 x1 x2 s)) := by
  unfold execDdrRead
  try with_reducible refine Canonical.next ?_
  repeat' first | (with_reducible first | assumption | intro _ | refine canon_ddrTake _ _ _ _ _ _ ?_ | refine Canonical.ite ?_ ?_) | decide | split | unfold id | dsimp only

theorem canon_execRegattrPolicyWrite x0 x1 x2 s (h : Canonical s) : Canonical (after s (execRegattrPolicyWrite x0 x1 x2 s)) := by
  unfold execRegattrPolicyWrite
  try with_reducible refine Canonical.next ?_
  repeat' first | (with_reducible first | assumption | intro _ | refine canon_access _ _ _ _ _ ?_ ?_ | refine canon_writeRegattr _ _ _ _ ?_ | refine Canonical.ite ?_ ?_) | decide | split | unfold id | dsimp only

theorem canon_execSplitRead x0 s (h : Canonical s) : Canonical (after s (execSplitRead x0 s)) := by
  unfold execSplitRead
  try with_reducible refine Canonical.next ?_
  repeat' first | (with_reducible first | assumption | intro _ | refine canon_access _ _ _ _ _ ?_ ?_ | refine canon_splitGo _ _ ?_ | refine Canonical.ite ?_ ?_) | decide | split | unfold id | dsimp only

theorem canon_execSplitWrite x0 s (h : Canonical s) : Canonical (after s (execSplitWrite x0 s)) := by
  unfold execSplitWrite
  try with_reducible refine Canonical.next ?_
  repeat' first | (with_reducible first | assumption | intro _ | refine canon_access _ _ _ _ _ ?_ ?_ | refine canon_splitGo _ _ ?_ | refine Canonical.ite ?_ ?_) | decide | split | unfold id | dsimp only

theorem canon_execSoftPpr x0 x1 s (h : Canonical s) : Canonical (after s (execSoftPpr x0 x1 s)) := by
  unfold execSoftPpr
  try with_reducible refine Canonical.next ?_
  repeat' first | (with_reducible first | assumption | intro _ | refine canon_access _ _ _ _ _ ?_ ?_ | refine canon_pprGo _ _ ?_ | refine Canonical.ite ?_ ?_) | decide | split | unfold id | dsimp only

theorem canon_execHardPpr x0 x1 s (h : Canonical s) : Canonical (after s (execHardPpr x0 x1 s)) := by
  unfold execHardPpr
  try with_reducible refine Canonical.next ?_
  repeat' first | (with_reducible first | assumption | intro _ | refine canon_access _ _ _ _ _ ?_ ?_ | refine canon_pprGo _ _ ?_ | refine Canonical.ite ?_ ?_) | decide | split | unfold id | dsimp only

theorem canon_execBccAccess x0 x1 x2 x3 x4 s (h : Canonical s) : Canonical (after s (execBccAccess x0 x1 x2 x3 x4 s)) := by
  unfold execBccAccess
  try with_reducible refine Canonical.next ?_
  repeat' first | (with_reducible first | assumption | intro _ | refine canon_ddrTake _ _ _ _ _ _ ?_ | refine canon_wayError _ _ _ _ ?_ | refine Canonical.ite ?_ ?_) | decide | split | unfold id | dsimp only

theorem canon_execDrainComplete s (h : Canonical s) : Canonical (after s (execDrainComplete s)) := by
  unfold execDrainComplete
  try with_reducible refine Canonical.next ?_
  repeat' first | (with_reducible first | assumption | intro _ | refine canon_State_drawn _ ?_ | refine canon_State_modBcc _ _ ?_ | refine canon_bccPut _ _ ?_ | refine canon_ev _ _ _ _ _ _ ?_ | refine canon_raiseLine _ _ ?_ | refine canon_writeBack _ _ ?_ | refine Canonical.foldl (fun _ _ _ => ?_) ?_ | refine Canonical.ite ?_ ?_) | decide | split | unfold id | dsimp only

theorem canon_execBccClean x0 s (h : Canonical s) : Canonical (after s (execBccClean x0 s)) := by
  unfold execBccClean
  try with_reducible refine Canonical.next ?_
  repeat' first | (with_reducible first | assumption | intro _ | refine canon_rangeCmd _ _ ?_ | refine Canonical.ite ?_ ?_) | decide | split | unfold id | dsimp only

theorem canon_execBccInval x0 s (h : Canonical s) : Canonical (after s (execBccInval x0 s)) := by
  unfold execBccInval
  try with_reducible refine Canonical.next ?_
  repeat' first | (with_reducible first | assumption | intro _ | refine canon_rangeCmd _ _ ?_ | refine Canonical.ite ?_ ?_) | decide | split | unfold id | dsimp only

theorem canon_execBccCleanInval x0 s (h : Canonical s) : Canonical (after s (execBccCleanInval x0 s)) := by
  unfold execBccCleanInval
  try with_reducible refine Canonical.next ?_
  repeat' first | (with_reducible first | assumption | intro _ | refine canon_rangeCmd _ _ ?_ | refine Canonical.ite ?_ ?_) | decide | split | unfold id | dsimp only

theorem canon_execBccZero x0 s (h : Canonical s) : Canonical (after s (execBccZero x0 s)) := by
  unfold execBccZero
  try with_reducible refine Canonical.next ?_
  repeat' first | (with_reducible first | assumption | intro _ | refine canon_rangeCmd _ _ ?_ | refine Canonical.ite ?_ ?_) | decide | split | unfold id | dsimp only

theorem canon_execBccLock x0 s (h : Canonical s) : Canonical (after s (execBccLock x0 s)) := by
  unfold execBccLock
  try with_reducible refine Canonical.next ?_
  repeat' first | (with_reducible first | assumption | intro _ | refine canon_rangeCmd _ _ ?_ | refine Canonical.ite ?_ ?_) | decide | split | unfold id | dsimp only

theorem canon_execBccUnlock x0 s (h : Canonical s) : Canonical (after s (execBccUnlock x0 s)) := by
  unfold execBccUnlock
  try with_reducible refine Canonical.next ?_
  repeat' first | (with_reducible first | assumption | intro _ | refine canon_rangeCmd _ _ ?_ | refine Canonical.ite ?_ ?_) | decide | split | unfold id | dsimp only

theorem canon_execBccInvalAll x0 s (h : Canonical s) : Canonical (after s (execBccInvalAll x0 s)) := by
  unfold execBccInvalAll
  try with_reducible refine Canonical.next ?_
  repeat' first | (with_reducible first | assumption | intro _ | refine canon_rangeCmd _ _ ?_ | refine Canonical.ite ?_ ?_) | decide | split | unfold id | dsimp only

theorem canon_execRangeOpDone s (h : Canonical s) : Canonical (after s (execRangeOpDone s)) := by
  unfold execRangeOpDone
  try with_reducible refine Canonical.next ?_
  repeat' first | (with_reducible first | assumption | intro _ | refine canon_rangeFinish _ ?_ | refine Canonical.ite ?_ ?_) | decide | split | unfold id | dsimp only

theorem canon_execRepairMapEntry x0 s (h : Canonical s) : Canonical (after s (execRepairMapEntry x0 s)) := by
  unfold execRepairMapEntry
  try with_reducible refine Canonical.next ?_
  repeat' first | (with_reducible first | assumption | intro _ | refine canon_mailbox _ _ _ ?_ ?_ | refine canon_State_modSys _ _ ?_ | refine canon_answer _ _ _ _ ?_ | refine canon_ev _ _ _ _ _ _ ?_ | refine canon_programFuses _ ?_ | refine Canonical.ite ?_ ?_) | decide | split | unfold id | dsimp only

theorem canon_execExtend x0 x1 s (h : Canonical s) : Canonical (after s (execExtend x0 x1 s)) := by
  unfold execExtend
  try with_reducible refine Canonical.next ?_
  repeat' first | (with_reducible first | assumption | intro _ | refine canon_mailbox _ _ _ ?_ ?_ | refine canon_answer _ _ _ _ ?_ | refine canon_extendMeas _ _ _ ?_ | refine Canonical.ite ?_ ?_) | decide | split | unfold id | dsimp only

theorem canon_execKeyGenerate x0 x1 x2 s (h : Canonical s) : Canonical (after s (execKeyGenerate x0 x1 x2 s)) := by
  unfold execKeyGenerate
  try with_reducible refine Canonical.next ?_
  repeat' first | (with_reducible first | assumption | intro _ | refine canon_mailbox _ _ _ ?_ ?_ | refine canon_State_modSec _ _ ?_ | refine canon_answer _ _ _ _ ?_ | refine canon_newKey _ _ _ _ _ ?_ | refine canon_respondFree _ _ ?_ | refine Canonical.ite ?_ ?_) | decide | split | unfold id | dsimp only

theorem canon_execKeyZero x0 s (h : Canonical s) : Canonical (after s (execKeyZero x0 s)) := by
  unfold execKeyZero
  try with_reducible refine Canonical.next ?_
  repeat' first | (with_reducible first | assumption | intro _ | refine canon_mailbox _ _ _ ?_ ?_ | refine canon_answer _ _ _ _ ?_ | refine canon_zeroSlot _ _ ?_ | refine Canonical.ite ?_ ?_) | decide | split | unfold id | dsimp only

theorem canon_execKeyCheckpoint s (h : Canonical s) : Canonical (after s (execKeyCheckpoint s)) := by
  unfold execKeyCheckpoint
  try with_reducible refine Canonical.next ?_
  repeat' first | (with_reducible first | assumption | intro _ | refine canon_mailbox _ _ _ ?_ ?_ | refine canon_State_modSec _ _ ?_ | refine canon_respondRecords _ _ _ ?_ | refine canon_storeRecords _ _ ?_ | refine Canonical.ite ?_ ?_) | decide | split | unfold id | dsimp only

theorem canon_execNsActive x0 x1 x2 s (h : Canonical s) : Canonical (after s (execNsActive x0 x1 x2 s)) := by
  unfold execNsActive
  try with_reducible refine Canonical.next ?_
  repeat' first | (with_reducible first | assumption | intro _ | refine canon_mailbox _ _ _ ?_ ?_ | refine canon_answer _ _ _ _ ?_ | refine canon_setNsKey _ _ _ _ ?_ | refine Canonical.ite ?_ ?_) | decide | split | unfold id | dsimp only

theorem canon_execSvnCommit x0 s (h : Canonical s) : Canonical (after s (execSvnCommit x0 s)) := by
  unfold execSvnCommit
  try with_reducible refine Canonical.next ?_
  repeat' first | (with_reducible first | assumption | intro _ | refine canon_mailbox _ _ _ ?_ ?_ | refine canon_State_modSec _ _ ?_ | refine canon_answer _ _ _ _ ?_ | refine canon_ev _ _ _ _ _ _ ?_ | refine canon_programFuses _ ?_ | refine Canonical.ite ?_ ?_) | decide | split | unfold id | dsimp only

theorem canon_execTakeOwnership x0 s (h : Canonical s) : Canonical (after s (execTakeOwnership x0 s)) := by
  unfold execTakeOwnership
  try with_reducible refine Canonical.next ?_
  repeat' first | (with_reducible first | assumption | intro _ | refine canon_mailbox _ _ _ ?_ ?_ | refine canon_State_modSec _ _ ?_ | refine canon_answer _ _ _ _ ?_ | refine canon_programFuses _ ?_ | refine Canonical.ite ?_ ?_) | decide | split | unfold id | dsimp only

theorem canon_execAddOwnerKey x0 x1 s (h : Canonical s) : Canonical (after s (execAddOwnerKey x0 x1 s)) := by
  unfold execAddOwnerKey
  try with_reducible refine Canonical.next ?_
  repeat' first | (with_reducible first | assumption | intro _ | refine canon_mailbox _ _ _ ?_ ?_ | refine canon_State_modSec _ _ ?_ | refine canon_answer _ _ _ _ ?_ | refine canon_programFuses _ ?_ | refine Canonical.ite ?_ ?_) | decide | split | unfold id | dsimp only

theorem canon_execRevokeOwnerKey x0 x1 s (h : Canonical s) : Canonical (after s (execRevokeOwnerKey x0 x1 s)) := by
  unfold execRevokeOwnerKey
  try with_reducible refine Canonical.next ?_
  repeat' first | (with_reducible first | assumption | intro _ | refine canon_mailbox _ _ _ ?_ ?_ | refine canon_State_modSec _ _ ?_ | refine canon_answer _ _ _ _ ?_ | refine canon_programFuses _ ?_ | refine Canonical.ite ?_ ?_) | decide | split | unfold id | dsimp only

theorem canon_execOwnerPolicy x0 x1 x2 x3 s (h : Canonical s) : Canonical (after s (execOwnerPolicy x0 x1 x2 x3 s)) := by
  unfold execOwnerPolicy
  try with_reducible refine Canonical.next ?_
  repeat' first | (with_reducible first | assumption | intro _ | refine canon_mailbox _ _ _ ?_ ?_ | refine canon_State_modSec _ _ ?_ | refine canon_answer _ _ _ _ ?_ | refine Canonical.ite ?_ ?_) | decide | split | unfold id | dsimp only

theorem canon_execExportKeys x0 x1 s (h : Canonical s) : Canonical (after s (execExportKeys x0 x1 s)) := by
  unfold execExportKeys
  try with_reducible refine Canonical.next ?_
  repeat' first | (with_reducible first | assumption | intro _ | refine canon_mailbox _ _ _ ?_ ?_ | refine canon_answer _ _ _ _ ?_ | refine canon_ev _ _ _ _ _ _ ?_ | refine canon_respondFree _ _ ?_ | refine Canonical.ite ?_ ?_) | decide | split | unfold id | dsimp only

theorem canon_execImportKeys x0 x1 s (h : Canonical s) : Canonical (after s (execImportKeys x0 x1 s)) := by
  unfold execImportKeys
  try with_reducible refine Canonical.next ?_
  repeat' first | (with_reducible first | assumption | intro _ | refine canon_mailbox _ _ _ ?_ ?_ | refine canon_answer _ _ _ _ ?_ | refine canon_ev _ _ _ _ _ _ ?_ | refine canon_respondRecords _ _ _ ?_ | refine canon_storeRecords _ _ ?_ | refine Canonical.ite ?_ ?_) | decide | split | unfold id | dsimp only

theorem canon_execBehaviourProfileUnlock x0 x1 s (h : Canonical s) : Canonical (after s (execBehaviourProfileUnlock x0 x1 s)) := by
  unfold execBehaviourProfileUnlock
  try with_reducible refine Canonical.next ?_
  repeat' first | (with_reducible first | assumption | intro _ | refine canon_mailbox _ _ _ ?_ ?_ | refine canon_State_modSys _ _ ?_ | refine canon_answer _ _ _ _ ?_ | refine Canonical.ite ?_ ?_) | decide | split | unfold id | dsimp only

theorem canon_execFirmwareActivationMeasurement x0 s (h : Canonical s) : Canonical (after s (execFirmwareActivationMeasurement x0 s)) := by
  unfold execFirmwareActivationMeasurement
  try with_reducible refine Canonical.next ?_
  repeat' first | (with_reducible first | assumption | intro _ | refine canon_mailbox _ _ _ ?_ ?_ | refine canon_answer _ _ _ _ ?_ | refine canon_extendMeas _ _ _ ?_ | refine Canonical.ite ?_ ?_) | decide | split | unfold id | dsimp only

theorem canon_execSlotSelect x0 x1 s (h : Canonical s) : Canonical (after s (execSlotSelect x0 x1 s)) := by
  unfold execSlotSelect
  try with_reducible refine Canonical.next ?_
  repeat' first | (with_reducible first | assumption | intro _ | refine canon_access _ _ _ _ _ ?_ ?_ | refine canon_writeSlotsel _ _ ?_ | refine Canonical.ite ?_ ?_) | decide | split | unfold id | dsimp only

theorem canon_execSnuffLevel1 x0 s (h : Canonical s) : Canonical (after s (execSnuffLevel1 x0 s)) := by
  unfold execSnuffLevel1
  try with_reducible refine Canonical.next ?_
  repeat' first | (with_reducible first | assumption | intro _ | refine canon_snuff1 _ _ ?_ | refine canon_wakeNoted _ ?_ | refine Canonical.ite ?_ ?_) | decide | split | unfold id | dsimp only

theorem canon_execSnuffLevel2 x0 s (h : Canonical s) : Canonical (after s (execSnuffLevel2 x0 s)) := by
  unfold execSnuffLevel2
  try with_reducible refine Canonical.next ?_
  repeat' first | (with_reducible first | assumption | intro _ | refine canon_snuff2 _ _ ?_ | refine canon_wakeNoted _ ?_ | refine Canonical.ite ?_ ?_) | decide | split | unfold id | dsimp only

theorem canon_execAlarmFuseBlow s (h : Canonical s) : Canonical (after s (execAlarmFuseBlow s)) := by
  unfold execAlarmFuseBlow
  try with_reducible refine Canonical.next ?_
  repeat' first | (with_reducible first | assumption | intro _ | refine canon_blowAlarm _ _ ?_ | refine canon_wakeNoted _ ?_ | refine Canonical.ite ?_ ?_) | decide | split | unfold id | dsimp only

theorem canon_execKeyRestore s (h : Canonical s) : Canonical (after s (execKeyRestore s)) := by
  unfold execKeyRestore
  try with_reducible refine Canonical.next ?_
  repeat' first | (with_reducible first | assumption | intro _ | refine canon_State_modSec _ _ ?_ | refine canon_advanceTo _ _ ?_ | refine canon_deallocWiped _ _ ?_ | refine canon_ev _ _ _ _ _ _ ?_ | refine canon_startQuiet _ ?_ | refine canon_unwrapRec _ _ ?_ | refine canon_zeroKst _ ?_ | refine Canonical.foldl (fun _ _ _ => ?_) ?_ | refine Canonical.ite ?_ ?_) | decide | split | unfold id | dsimp only

theorem canon_execDebugResponse x0 x1 x2 x3 s (h : Canonical s) : Canonical (after s (execDebugResponse x0 x1 x2 x3 s)) := by
  unfold execDebugResponse
  try with_reducible refine Canonical.next ?_
  repeat' first | (with_reducible first | assumption | intro _ | refine canon_debugAnswer _ _ _ _ _ ?_ | refine canon_wakeNoted _ ?_ | refine Canonical.ite ?_ ?_) | decide | split | unfold id | dsimp only

theorem canon_execCriticalDarkEntry s (h : Canonical s) : Canonical (after s (execCriticalDarkEntry s)) := by
  unfold execCriticalDarkEntry
  try with_reducible refine Canonical.next ?_
  repeat' first | (with_reducible first | assumption | intro _ | refine canon_criticalDark _ ?_ | refine canon_elapse _ _ ?_ | refine Canonical.ite ?_ ?_) | decide | split | unfold id | dsimp only

theorem canon_execCriticalWake x0 s (h : Canonical s) : Canonical (after s (execCriticalWake x0 s)) := by
  unfold execCriticalWake
  try with_reducible refine Canonical.next ?_
  repeat' first | (with_reducible first | assumption | intro _ | refine canon_State_drawn _ ?_ | refine canon_State_modPwr _ _ ?_ | refine canon_State_modThm _ _ ?_ | refine canon_elapse _ _ ?_ | refine canon_startCore _ _ ?_ | refine canon_wakeRecord _ _ _ ?_ | refine Canonical.ite ?_ ?_) | decide | split | unfold id | dsimp only

theorem canon_execTaperStep x0 s (h : Canonical s) : Canonical (after s (execTaperStep x0 s)) := by
  unfold execTaperStep
  try with_reducible refine Canonical.next ?_
  repeat' first | (with_reducible first | assumption | intro _ | refine canon_stepTrim _ _ ?_ | refine Canonical.ite ?_ ?_) | decide | split | unfold id | dsimp only

theorem canon_execTrimAge x0 s (h : Canonical s) : Canonical (after s (execTrimAge x0 s)) := by
  unfold execTrimAge
  try with_reducible refine Canonical.next ?_
  repeat' first | (with_reducible first | assumption | intro _ | refine canon_advanceTo _ _ ?_ | refine canon_ev _ _ _ _ _ _ ?_ | refine canon_modTrim _ _ _ ?_ | refine canon_setIrqStat _ _ _ _ ?_ | refine Canonical.ite ?_ ?_) | decide | split | unfold id | dsimp only

theorem canon_execEventRaiseSw x0 x1 s (h : Canonical s) : Canonical (after s (execEventRaiseSw x0 x1 s)) := by
  unfold execEventRaiseSw
  try with_reducible refine Canonical.next ?_
  repeat' first | (with_reducible first | assumption | intro _ | refine canon_access _ _ _ _ _ ?_ ?_ | refine canon_writeSwev _ _ ?_ | refine Canonical.ite ?_ ?_) | decide | split | unfold id | dsimp only

theorem canon_execCalSet x0 x1 s (h : Canonical s) : Canonical (after s (execCalSet x0 x1 s)) := by
  unfold execCalSet
  try with_reducible refine Canonical.next ?_
  repeat' first | (with_reducible first | assumption | intro _ | refine canon_access _ _ _ _ _ ?_ ?_ | refine canon_writeCalCmd _ _ ?_ | refine Canonical.ite ?_ ?_) | decide | split | unfold id | dsimp only

theorem canon_execCalAdjust x0 x1 s (h : Canonical s) : Canonical (after s (execCalAdjust x0 x1 s)) := by
  unfold execCalAdjust
  try with_reducible refine Canonical.next ?_
  repeat' first | (with_reducible first | assumption | intro _ | refine canon_access _ _ _ _ _ ?_ ?_ | refine canon_writeCalAdj _ _ ?_ | refine Canonical.ite ?_ ?_) | decide | split | unfold id | dsimp only

theorem canon_execSlewDone s (h : Canonical s) : Canonical (after s (execSlewDone s)) := by
  unfold execSlewDone
  try with_reducible refine Canonical.next ?_
  repeat' first | (with_reducible first | assumption | intro _ | refine canon_elapse _ _ ?_ | refine Canonical.ite ?_ ?_) | decide | split | unfold id | dsimp only

theorem canon_execCalAlarm s (h : Canonical s) : Canonical (after s (execCalAlarm s)) := by
  unfold execCalAlarm
  try with_reducible refine Canonical.next ?_
  repeat' first | (with_reducible first | assumption | intro _ | refine canon_elapse _ _ ?_ | refine Canonical.ite ?_ ?_) | decide | split | unfold id | dsimp only

theorem canon_execBeaconSend s (h : Canonical s) : Canonical (after s (execBeaconSend s)) := by
  unfold execBeaconSend
  try with_reducible refine Canonical.next ?_
  repeat' first | (with_reducible first | assumption | intro _ | refine canon_State_modVlk _ _ ?_ | refine canon_elapse _ _ ?_ | refine canon_keyAtBeacon _ _ ?_ | refine canon_sendSeg _ ?_ | refine canon_vlkBump _ _ ?_ | refine Canonical.ite ?_ ?_) | decide | split | unfold id | dsimp only

theorem canon_execBeaconReceive x0 x1 s (h : Canonical s) : Canonical (after s (execBeaconReceive x0 x1 s)) := by
  unfold execBeaconReceive
  try with_reducible refine Canonical.next ?_
  repeat' first | (with_reducible first | assumption | intro _ | refine canon_beaconFailed _ ?_ | refine canon_beaconLost _ ?_ | refine canon_beaconTaken _ _ ?_ | refine canon_upSeg _ _ _ _ ?_ ?_ ?_ | refine Canonical.ite ?_ ?_) | decide | split | unfold id | dsimp only

theorem canon_execEnrollReceive x0 x1 s (h : Canonical s) : Canonical (after s (execEnrollReceive x0 x1 s)) := by
  unfold execEnrollReceive
  try with_reducible refine Canonical.next ?_
  repeat' first | (with_reducible first | assumption | intro _ | refine canon_enrollStep _ _ ?_ | refine canon_vlkReceive _ _ _ _ _ _ _ _ ?_ ?_ ?_ | refine Canonical.ite ?_ ?_) | decide | split | unfold id | dsimp only

theorem canon_execReplyReceive x0 s (h : Canonical s) : Canonical (after s (execReplyReceive x0 s)) := by
  unfold execReplyReceive
  try with_reducible refine Canonical.next ?_
  repeat' first | (with_reducible first | assumption | intro _ | refine canon_modSlot _ _ _ ?_ | refine canon_pollDone _ _ _ ?_ | refine canon_replyBad _ _ ?_ | refine canon_slotAnswers _ _ ?_ | refine canon_takeReplyItem _ _ _ ?_ | refine canon_vlkReceive _ _ _ _ _ _ _ _ ?_ ?_ ?_ | refine Canonical.foldl (fun _ _ _ => ?_) ?_ | refine Canonical.ite ?_ ?_) | decide | split | unfold id | dsimp only

theorem canon_execImageReceive x0 x1 x2 x3 x4 s (h : Canonical s) : Canonical (after s (execImageReceive x0 x1 x2 x3 x4 s)) := by
  unfold execImageReceive
  try with_reducible refine Canonical.next ?_
  repeat' first | (with_reducible first | assumption | intro _ | refine canon_takeChunk _ _ _ _ _ ?_ | refine canon_upSeg _ _ _ _ ?_ ?_ ?_ | refine Canonical.ite ?_ ?_) | decide | split | unfold id | dsimp only

theorem canon_execVlkWake x0 x1 x2 s (h : Canonical s) : Canonical (after s (execVlkWake x0 x1 x2 s)) := by
  unfold execVlkWake
  try with_reducible refine Canonical.next ?_
  repeat' first | (with_reducible first | assumption | intro _ | refine canon_noteWake _ _ ?_ | refine canon_wakeAct _ _ _ ?_ | refine Canonical.ite ?_ ?_) | decide | split | unfold id | dsimp only

theorem canon_execLeaseRenewalRequest s (h : Canonical s) : Canonical (after s (execLeaseRenewalRequest s)) := by
  unfold execLeaseRenewalRequest
  try with_reducible refine Canonical.next ?_
  repeat' first | (with_reducible first | assumption | intro _ | refine canon_State_modVlk _ _ ?_ | refine canon_advanceTo _ _ ?_ | refine Canonical.ite ?_ ?_) | decide | split | unfold id | dsimp only

theorem canon_execLeaseExpiry s (h : Canonical s) : Canonical (after s (execLeaseExpiry s)) := by
  unfold execLeaseExpiry
  try with_reducible refine Canonical.next ?_
  repeat' first | (with_reducible first | assumption | intro _ | refine canon_State_modVlk _ _ ?_ | refine canon_advanceTo _ _ ?_ | refine canon_clearLease _ ?_ | refine canon_ev _ _ _ _ _ _ ?_ | refine canon_raiseLine _ _ ?_ | refine canon_startOrphan _ ?_ | refine Canonical.ite ?_ ?_) | decide | split | unfold id | dsimp only

theorem canon_execQuietPeriodEnd s (h : Canonical s) : Canonical (after s (execQuietPeriodEnd s)) := by
  unfold execQuietPeriodEnd
  try with_reducible refine Canonical.next ?_
  repeat' first | (with_reducible first | assumption | intro _ | refine canon_State_modVlk _ _ ?_ | refine canon_advanceTo _ _ ?_ | refine Canonical.ite ?_ ?_) | decide | split | unfold id | dsimp only

theorem canon_execOrphanBackoffEnd s (h : Canonical s) : Canonical (after s (execOrphanBackoffEnd s)) := by
  unfold execOrphanBackoffEnd
  try with_reducible refine Canonical.next ?_
  repeat' first | (with_reducible first | assumption | intro _ | refine canon_State_modVlk _ _ ?_ | refine canon_advanceTo _ _ ?_ | refine canon_ev _ _ _ _ _ _ ?_ | refine canon_raiseLine _ _ ?_ | refine canon_setLease _ _ _ ?_ | refine Canonical.ite ?_ ?_) | decide | split | unfold id | dsimp only

theorem canon_execOrphanWindowEnd s (h : Canonical s) : Canonical (after s (execOrphanWindowEnd s)) := by
  unfold execOrphanWindowEnd
  try with_reducible refine Canonical.next ?_
  repeat' first | (with_reducible first | assumption | intro _ | refine canon_State_modVlk _ _ ?_ | refine canon_advanceTo _ _ ?_ | refine canon_clearLease _ ?_ | refine Canonical.ite ?_ ?_) | decide | split | unfold id | dsimp only

theorem canon_execSegmentKeyRotation s (h : Canonical s) : Canonical (after s (execSegmentKeyRotation s)) := by
  unfold execSegmentKeyRotation
  try with_reducible refine Canonical.next ?_
  repeat' first | (with_reducible first | assumption | intro _ | refine canon_State_modVlk _ _ ?_ | refine canon_advanceTo _ _ ?_ | refine Canonical.ite ?_ ?_) | decide | split | unfold id | dsimp only

theorem canon_execImageFanout x0 x1 s (h : Canonical s) : Canonical (after s (execImageFanout x0 x1 s)) := by
  unfold execImageFanout
  try with_reducible refine Canonical.next ?_
  repeat' first | (with_reducible first | assumption | intro _ | refine canon_access _ _ _ _ _ ?_ ?_ | refine canon_writeImgcmd _ _ ?_ | refine Canonical.ite ?_ ?_) | decide | split | unfold id | dsimp only

theorem canon_execLinkOpen s (h : Canonical s) : Canonical (after s (execLinkOpen s)) := by
  unfold execLinkOpen
  try with_reducible refine Canonical.next ?_
  repeat' first | (with_reducible first | assumption | intro _ | refine canon_State_modVlk _ _ ?_ | refine canon_advanceTo _ _ ?_ | refine canon_ev _ _ _ _ _ _ ?_ | refine canon_raiseLine _ _ ?_ | refine canon_toHoldover _ ?_ | refine Canonical.ite ?_ ?_) | decide | split | unfold id | dsimp only

theorem canon_execLinkRetry x0 s (h : Canonical s) : Canonical (after s (execLinkRetry x0 s)) := by
  unfold execLinkRetry
  try with_reducible refine Canonical.next ?_
  repeat' first | (with_reducible first | assumption | intro _ | refine canon_State_modVlk _ _ ?_ | refine canon_advanceTo _ _ ?_ | refine Canonical.ite ?_ ?_) | decide | split | unfold id | dsimp only

theorem canon_execWickCriticalLimit x0 s (h : Canonical s) : Canonical (after s (execWickCriticalLimit x0 s)) := by
  unfold execWickCriticalLimit
  try with_reducible refine Canonical.next ?_
  repeat' first | (with_reducible first | assumption | intro _ | refine canon_State_modThm _ _ ?_ | refine canon_criticalDark _ ?_ | refine canon_criticalLimit _ _ _ ?_ | refine Canonical.ite ?_ ?_) | decide | split | unfold id | dsimp only

theorem canon_execPprDone x0 s (h : Canonical s) : Canonical (after s (execPprDone x0 s)) := by
  unfold execPprDone
  try with_reducible refine Canonical.next ?_
  repeat' first | (with_reducible first | assumption | intro _ | refine canon_pprResult _ _ _ ?_ | refine canon_scrambleRow _ _ ?_ | refine Canonical.ite ?_ ?_) | decide | split | unfold id | dsimp only

theorem canon_execSegmentGrantExpiry x0 s (h : Canonical s) : Canonical (after s (execSegmentGrantExpiry x0 s)) := by
  unfold execSegmentGrantExpiry
  try with_reducible refine Canonical.next ?_
  repeat' first | (with_reducible first | assumption | intro _ | refine canon_advanceTo _ _ ?_ | refine canon_modSlot _ _ _ ?_ | refine canon_removeSlot _ _ ?_ | refine Canonical.foldl (fun _ _ _ => ?_) ?_ | refine Canonical.ite ?_ ?_) | decide | split | unfold id | dsimp only

theorem canon_execFleetAuthorizationExpiry s (h : Canonical s) : Canonical (after s (execFleetAuthorizationExpiry s)) := by
  unfold execFleetAuthorizationExpiry
  try with_reducible refine Canonical.next ?_
  repeat' first | (with_reducible first | assumption | intro _ | refine canon_elapse _ _ ?_ | refine canon_unenrol _ ?_ | refine Canonical.ite ?_ ?_) | decide | split | unfold id | dsimp only

theorem canon_execVddAux33Loss s (h : Canonical s) : Canonical (after s (execVddAux33Loss s)) := by
  unfold execVddAux33Loss
  try with_reducible refine Canonical.next ?_
  repeat' first | (with_reducible first | assumption | intro _ | refine canon_wickReset _ _ ?_ | refine Canonical.ite ?_ ?_) | decide | split | unfold id | dsimp only

end Sys2Proof.Machine
end

