-- ==== Sys2Proof/Laws/CompleteAdmin.lean ====
section
/-!
SUPPORT. Namespace, firmware, security and management commands that complete. One lemma for each part of a completion statement.
-/

set_option Elab.async false
set_option linter.all false

namespace Sys2Proof.Machine

theorem completes_asynchronousEventRequest :
    ∀ (tag : Fin 4096) (c : Cmd) (s : State), Ready .asyncEventRequest tag c s → (ctrlAt c.ctrl s).aers.length < 8 →
    (ctrlAt c.ctrl s).aens = [] →
    ∃ t, exec (.asynchronousEventRequest tag) s = .next t ∧ (ctrlAt c.ctrl t).aers = (ctrlAt c.ctrl s).aers ++ [tag.val] := by
  intro tag c s h h1 h2
  refine ⟨_, (by change execAsynchronousEventRequest tag s = _; unfold execAsynchronousEventRequest; (try unfold withNs); (try unfold zoneSend); (try unfold vendorLog); (try unfold setFeature); exact withCmd_ready h (by rfl)), ?_⟩
  simp only [h2, if_neg (show ¬ 8 ≤ (ctrlAt c.ctrl s).aers.length from by omega)]
  simp [h.tag]

theorem completes_abort :
    ∀ (tag : Fin 4096) (c : Cmd) (s : State), Ready .abort tag c s →
    matchTarget c.ctrl (bits c.cmd.cdw10 15 0) (bits c.cmd.cdw10 31 16) s = none →
    ∃ t, exec (.abort tag) s = .next t ∧ Done tag stOk t ∧ (∀ y, cmdAt tag t = some y → y.dw0 = 1) := by
  intro tag c s h h1
  refine ⟨_, (by change execAbort tag s = _; unfold execAbort; (try unfold withNs); (try unfold zoneSend); (try unfold vendorLog); (try unfold setFeature); exact withCmd_ready h (by rfl)), ?_⟩
  simp only [matchCmd, h1]
  have e : cmdAt tag (ev .hce 0x0140 0xFFF 0 0 (s.modHce fun h => { h with abDone := true, abMatched := false, abTag := 0 })) = some c := by
    rw [cmdAt_congr (congrArg Hce.cmds (ev_hce ..))]; exact h.1
  refine ⟨?_, fun y hy => ?_⟩
  · rw [h.tag]; exact done_finishDw (by rw [e]; rfl)
  · rw [h.tag, cmdAt_finishDw e] at hy
    cases hy
    simp [State.modHce]

theorem completes_keepAlive :
    ∀ (tag : Fin 4096) (c : Cmd) (s : State), Ready .keepAlive tag c s →
    ∃ t, exec (.keepAlive tag) s = .next t ∧ Done tag stOk t ∧
    (ctrlAt c.ctrl t).kato = (if sget 0 0x0F (ctrlAt c.ctrl s).feats = 0 then none
    else some (now s + sget 0 0x0F (ctrlAt c.ctrl s).feats)) := by
  intro tag c s h
  refine ⟨_, (by change execKeepAlive tag s = _; unfold execKeepAlive; (try unfold withNs); (try unfold zoneSend); (try unfold vendorLog); (try unfold setFeature); exact withCmd_ready h (by rfl)), ?_⟩
  exact ⟨by apply h.done; rfl, by simp⟩

theorem completes_namespaceCreate :
    ∀ (tag : Fin 4096) (c : Cmd) (k base : Nat) (s : State), Ready .namespaceManagement tag c s → bits c.cmd.cdw10 3 0 = 0 →
    bits c.cmd.cdw11 31 24 = 0 → c.cmd.payload % 2 ^ 64 ≠ 0 → c.cmd.payload % 2 ^ 64 % 1024 = 0 →
    bits c.cmd.payload 211 208 ≤ 3 → (bits c.cmd.payload 211 208 = 0 → bits c.cmd.payload 235 232 % 8 = 0) →
    bits c.cmd.payload 235 232 % 8 ≤ 3 → lowestFree 64 (s.hce.ns.map fun x => x.nsid - 1) = some k →
    freeRun (c.cmd.payload % 2 ^ 64 / 1024) 33554432 (nsRanges false s) = some base →
    ∃ t, exec (.namespaceManagement tag) s = .next t ∧ Done tag stOk t ∧
    ∃ x ∈ t.hce.ns, x.nsid = k + 1 ∧ x.size = c.cmd.payload % 2 ^ 64 ∧ x.zoned = false := by
  intro tag c k base s h h1 h2 h3 h4 h5 hp hq h6 h7
  refine ⟨_, (by change execNamespaceManagement tag s = _; unfold execNamespaceManagement; (try unfold withNs); (try unfold zoneSend); (try unfold vendorLog); (try unfold setFeature); exact withCmd_ready h (by rfl)), ?_⟩
  have e : ¬ (c.cmd.payload % 2 ^ 64 = 0 ∨ c.cmd.payload % 2 ^ 64 % 1024 ≠ 0 ∨ 3 < bits c.cmd.payload 211 208 ∨
      (bits c.cmd.payload 211 208 = 0 ∧ bits c.cmd.payload 235 232 % 8 ≠ 0) ∨ 3 < bits c.cmd.payload 235 232 % 8 ∨
      (False ∧ (!false) = true)) := by
    rintro (e | e | e | ⟨e, f⟩ | e | ⟨e, -⟩)
    · exact h3 e
    · exact e h4
    · omega
    · exact f (hp e)
    · omega
    · exact e
  have z : (0 == 2) = false := rfl
  simp only [h1, nsCreate, h2, z, Bool.false_eq_true, if_false, ne_eq, not_true_eq_false, e, h6, h7, Bool.false_and]
  have hm : ∀ u : State, (makeExtents k base (c.cmd.payload % 2 ^ 64 / 1024) u).hce = u.hce := fun u => frame_makeExtents _ _ _ u (m := 0x20000) .refl rfl .hce rfl
  refine ⟨?_, ?_⟩
  · apply h.done; rw [hm]; rfl
  · rw [finishDw_ns, hm]
    exact ⟨_, List.mem_append_right _ (List.mem_singleton.mpr rfl), rfl, rfl, rfl⟩

theorem completes_namespaceAttachment :
    ∀ (tag : Fin 4096) (c : Cmd) (x : Ns) (s : State), Ready .namespaceAttachment tag c s → nsAt (cmdNs c.cmd) s = some x →
    bits c.cmd.cdw10 3 0 = 0 → ctrlList c.cmd.payload = [0] → (sget 0 0x0B (ctrlAt 0 s).feats).testBit 8 = false →
    ∃ t, exec (.namespaceAttachment tag) s = .next t ∧ Done tag stOk t ∧
    ∀ y ∈ t.hce.ns, y.nsid = x.nsid → 0 ∈ y.attached := by
  intro tag c x s h h1 h2 h3 h4
  refine ⟨_, (by change execNamespaceAttachment tag s = _; unfold execNamespaceAttachment; (try unfold withNs); (try unfold zoneSend); (try unfold vendorLog); (try unfold setFeature); exact withCmd_ready h (by rfl)), ?_⟩
  have e : ¬ (1 < 0 ∨ [0].isEmpty = true ∨ ([0].any fun k => !(decide (k = 0) || (decide (k = 1) && s.sys.dualp))) = true) := by simp
  simp only [h1, h2, h3]
  rw [if_neg (by simp)]
  simp only [List.foldl_cons, List.foldl_nil, if_true]
  have g : (ctrlAt 0 (modNs x.nsid (fun y => { y with attached := insertNat 0 y.attached }) s)).feats = (ctrlAt 0 s).feats := rfl
  rw [g, h4]
  refine ⟨by apply h.done; rfl, fun y hy e => ?_⟩
  simp only [Bool.false_eq_true, if_false, finish_ns, modNs, State.modHce, mapIf, List.mem_map] at hy
  obtain ⟨z, hz, rfl⟩ := hy
  split
  · simp [mem_insertNat]
  · next hn => split at e <;> simp_all

theorem completes_firmwareImageDownload :
    ∀ (tag : Fin 4096) (c : Cmd) (s : State), Ready .firmwareImageDownload tag c s →
    ∃ t, exec (.firmwareImageDownload tag) s = .next t ∧ Done tag stOk t ∧
    t.hce.fwDl = s.hce.fwDl ++ [(4 * (c.cmd.cdw11 % 2 ^ 32), 4 * (c.cmd.cdw10 % 2 ^ 32 + 1))] := by
  intro tag c s h
  refine ⟨_, (by change execFirmwareImageDownload tag s = _; unfold execFirmwareImageDownload; (try unfold withNs); (try unfold zoneSend); (try unfold vendorLog); (try unfold setFeature); exact withCmd_ready h (by rfl)), ?_⟩
  exact ⟨by apply h.done; rfl, by rw [finish_fwDl]; rfl⟩

theorem completes_firmwareCommit :
    ∀ (tag : Fin 4096) (img : BootImage) (c : Cmd) (s : State), Ready .firmwareCommit tag c s → fwAction c = 1 →
    fwSlot c s = 1 ∨ fwSlot c s = 2 → s.hce.fwDl ≠ [] → bootResult 1 img s = 1 →
    ∃ t, exec (.firmwareCommit tag img) s = .next t ∧ Done tag stOk t ∧ t.hce.fwNext = fwSlot c s ∧ t.hce.fwDl = [] ∧
    vget t.hce.fwSlots (fwSlot c s - 1) 0 = img.digest := by
  intro tag img c s h h1 h2 h3 h4
  refine ⟨_, (by change execFirmwareCommit tag img s = _; unfold execFirmwareCommit; (try unfold withNs); (try unfold zoneSend); (try unfold vendorLog); (try unfold setFeature); exact withCmd_ready h (by rfl)), ?_⟩
  have e1 : ¬ (2 < fwSlot c s) := by omega
  have e2 : ¬ (s.hce.fwDl.isEmpty = true ∨ bootResult 1 img s ≠ 1) := by simp [h3, h4]
  simp only [h1, e1, e2, if_false, if_true, show ¬ (1 = 3) from by omega, show ¬ (3 < 1) from by omega, show ¬ (1 = 2) from by omega]
  refine ⟨by apply h.done; rfl, by rw [finish_fwNext]; rfl, by rw [finish_fwDl]; rfl, ?_⟩
  rw [finish_fwSlots]
  rcases h2 with e | e <;> simp [State.modHce, e, vget, vmod]

theorem completes_firmwareActivation :
    ∀ (tag : Fin 4096) (img : BootImage) (c : Cmd) (s : State), Ready .firmwareCommit tag c s → fwAction c = 3 →
    fwSlot c s ≤ 2 → s.sys.fwPause = none → bootResult 1 img s = 1 → pauseAllowed s = true → seqsIdle s = true →
    ∃ t, exec (.firmwareActivation tag img) s = .next t ∧ Done tag stOk t ∧ t.hce.fwActive = fwSlot c s ∧ t.sys.fwPause = none := by
  intro tag img c s h h1 h2 h3 h4 h5 h6
  refine ⟨_, (by change execFirmwareActivation tag img s = _; unfold execFirmwareActivation; (try unfold withNs); (try unfold zoneSend); (try unfold vendorLog); (try unfold setFeature); exact withCmd_ready h (by rfl)), ?_⟩
  simp only [h1, h3, h4, h5, h6, ne_eq, not_true_eq_false, if_false, if_true, if_neg (show ¬ 2 < fwSlot c s from by omega), Bool.not_true, Bool.false_eq_true, activate]
  have a : (lifBump 29 1 (extendMeas 7 img.digest s)).hce = s.hce :=
    (frame_lifBump 29 1 _ (m := 0x1800000100) .refl rfl .hce rfl).trans (frame_extendMeas 7 _ s (m := 0x80000000) .refl rfl .hce rfl)
  refine ⟨?_, by rw [finish_fwActive]; rfl, by rw [finish_st_sys]; rfl⟩
  apply h.done; simp only [State.modHce, State.modSys]; rw [a]

theorem completes_activationPauseTimeout :
    ∀ (k tag at_ : Nat) (s : State), s.sys.fwPause = some (k, tag, at_) → seqsIdle s = false → (cmdAt tag s).isSome = true →
    ∃ t, exec .activationPauseTimeout s = .next t ∧ Done tag stInternal t ∧ t.sys.fwPause = none ∧ t.hce.fwNext = k ∧
    t.us = max s.us ((at_ + 100) * 1000) := by
  intro k tag at_ s h1 h2 h3
  refine ⟨_, rfl, ?_⟩
  simp only [h1, h2, Bool.false_eq_true, if_false]
  have hh : (advanceTo ((at_ + 100) * 1000) s).hce = s.hce := frame_advanceTo _ s (m := 0x7800000B12) .refl rfl .hce rfl
  have hu := advanceTo_us ((at_ + 100) * 1000) s
  generalize advanceTo _ s = u at *
  refine ⟨?_, by rw [finish_st_sys]; simp [State.modSys, State.modHce], by rw [finish_fwNext]; rfl, by rw [finish_st_us]; simpa [State.modSys, State.modHce] using hu⟩
  apply done_finish
  rw [cmdAt_congr (s := s)]
  · exact h3
  · simp [State.modHce, State.modSys, hh]

theorem completes_formatNvm :
    ∀ (tag : Fin 4096) (c : Cmd) (x : Ns) (o : Nat) (s : State), Ready .formatNvm tag c s → nsAt (cmdNs c.cmd) s = some x →
    c.ord = some o → pdOn 10 s = true → barrierTurn o (x.nsid - 1) s = true → frontier (nsDom (x.nsid - 1) s) s = o →
    ∃ t, exec (.formatNvm tag) s = .next t ∧ cmdAt tag t = some { c with phase := .moving } ∧
    ∀ y ∈ t.hce.ns, y.nsid = x.nsid → y.formatting = true := by
  intro tag c x o s h h1 h2 h3 h4 h5
  refine ⟨_, (by change execFormatNvm tag s = _; unfold execFormatNvm; (try unfold withNs); (try unfold zoneSend); (try unfold vendorLog); (try unfold setFeature); exact withCmd_ready h (by rfl)), ?_⟩
  simp only [h1, h2, Option.getD_some, h3, h4, h5, beq_self_eq_true, Bool.and_self, if_true]
  generalize hu : modNs x.nsid (fun y => { y with formatting := true }) s = u
  have f1 : ∀ w : State, (formatTables o (x.nsid - 1) w).hce = w.hce := fun w => frame_formatTables _ _ w (m := 0x20000) .refl rfl .hce rfl
  have f2 : ∀ a b c d e (w : State), (journal a b c d true e w).hce = w.hce := fun a b c d e w => frame_journal a b c d true e w (m := 0x20000) .refl rfl .hce rfl
  generalize hv : journal o .format _ _ true _ (formatTables o (x.nsid - 1) u) = v
  have hc : v.hce = u.hce := by rw [← hv, f2, f1]
  refine ⟨?_, fun y hy e => ?_⟩
  · refine (cmdAt_congr (s := modCmd c.tag (fun y => { y with phase := .moving }) v) (by rfl) _).trans ?_
    rw [h.tag, cmdAt_modCmd (f := fun y => { y with phase := .moving }) (fun _ => rfl), cmdAt_congr (congrArg Hce.cmds hc), ← hu, show cmdAt tag (modNs x.nsid (fun y => { y with formatting := true }) s) = some c from h.1]
    simp [h.tag, h2]
  · have hy : y ∈ v.hce.ns := hy
    rw [hc, ← hu] at hy
    simp only [modNs, State.modHce, mapIf, List.mem_map] at hy
    obtain ⟨z, hz, rfl⟩ := hy
    split
    · rfl
    · next hn => split at e <;> simp_all

theorem completes_sanitizeOverwrite :
    ∀ (tag : Fin 4096) (c : Cmd) (s : State), Ready .sanitize tag c s → bits c.cmd.cdw10 2 0 = 3 → sanTurn c s = true →
    ∃ t, exec (.sanitizeOverwrite tag) s = .next t ∧ Done tag stOk t ∧ t.xmt.san = some (sanOf c true s) ∧ t.hce.sanStatus = 2 := by
  intro tag c s h h1 h2
  refine ⟨_, (by change execSanitizeOverwrite tag s = _; unfold execSanitizeOverwrite; (try unfold withNs); (try unfold zoneSend); (try unfold vendorLog); (try unfold setFeature); exact withCmd_ready h (by rfl)), ?_⟩
  simp only [h1, h2, beq_self_eq_true, decide_true, Bool.and_self, if_true]
  have k : ∀ u : State, (sanLeave u).hce = u.hce ∧ (sanLeave u).xmt = u.xmt := fun u =>
    ⟨frame_sanLeave u (m := 0x1800006100) .refl rfl .hce rfl, frame_sanLeave u (m := 0x1800006100) .refl rfl .xmt rfl⟩
  refine ⟨?_, ?_, ?_⟩
  · refine (done_congr (congrArg Hce.cmds (k _).1)).mpr ?_
    rw [h.tag]; apply done_finish; rw [cmdAt_isSome, show Hce.tags _ = _ from KeepTags_sanStart _ s (o := s) .refl]
    exact cmdAt_isSome.mp (by rw [h.1]; rfl)
  · rw [(k _).2, finish_st_xmt]; rfl
  · rw [(k _).1, finish_sanStatus]; rfl

theorem completes_sanitizeCryptoErase :
    ∀ (tag : Fin 4096) (c : Cmd) (s : State), Ready .sanitize tag c s → bits c.cmd.cdw10 2 0 = 4 → sanTurn c s = true → mediaUp s = true →
    ∃ t, exec (.sanitizeCryptoErase tag) s = .next t ∧ Done tag stOk t ∧ t.xmt.san = none := by
  intro tag c s h h1 h2 h3
  refine ⟨_, (by change execSanitizeCryptoErase tag s = _; unfold execSanitizeCryptoErase; (try unfold withNs); (try unfold zoneSend); (try unfold vendorLog); (try unfold setFeature); exact withCmd_ready h (by rfl)), ?_⟩
  simp only [h1, h2, h3, beq_self_eq_true, decide_true, Bool.and_self, if_true]
  refine ⟨?_, ?_⟩
  · rw [h.tag]; apply done_finish
    rw [cmdAt_isSome, show Hce.tags _ = _ from KeepTags_sanOver _ _ (o := s) (KeepTags_sanTables _ _ <| .foldl (KeepTags_sanStart _ s .refl) fun u n k => KeepTags_replaceKey _ _ k)]
    exact cmdAt_isSome.mp (by rw [h.1]; rfl)
  · rw [finish_st_xmt]
    unfold sanOver
    have k : ∀ (l : List Nat) (u : State), (l.foldl (fun s c => if (ctrlAt c s).en then asyncEvent c 0x810106 s else s) u).xmt = u.xmt := by
      intro l; induction l with
      | nil => intro u; rfl
      | cons a l ih =>
        intro u; rw [List.foldl_cons, ih]; split
        · exact frame_asyncEvent _ _ u (m := 0x18080) .refl rfl .xmt rfl
        · rfl
    exact congrArg Xmt.san (k _ _)

theorem completes_sanitizeBandDone :
    ∀ (x : San) (b : Bool × Nat × Nat × Nat) (s : State), s.xmt.san = some x → x.overwrite = true → x.doneJ = none →
    xmtUp s = true → sanGranted s = true → (sanBands s)[x.band]? = some b → (s.lgr.pins.any fun (l, _) => inBand b l) = false →
    x.band + 1 < x.bands →
    ∃ t, exec .sanitizeBandDone s = .next t ∧ (∃ y, t.xmt.san = some y ∧ y.band = x.band + 1 ∧ y.pass = x.pass) ∧
    ∀ l ∈ bandLocs b s, ∃ m ∈ t.xmt.media, m.1 = l ∧ m.2.v = .data (sanPattern x) := by
  intro x b s h1 h2 h3 h4 h5 h6 h7 h8
  refine ⟨_, rfl, ?_⟩
  have e1 : ¬ x.bands ≤ x.band := by omega
  have e2 : ¬ x.band + 1 = x.bands := by omega
  simp only [h1, h2, h3, h4, h5, Option.isNone_none, Bool.and_self, if_true, decide_false, Bool.false_and, Bool.false_eq_true,
    if_false, e1, e2, h6, h7]
  refine ⟨⟨{ x with band := x.band + 1 }, rfl, rfl, rfl⟩, fun l hl => ⟨(l, { v := .data (sanPattern x), ns := 0xFF, lba := 0, enc := false, kslot := 0, epoch := 0 }), ?_, rfl, rfl⟩⟩
  unfold sanBandDone
  extract_lets m s1 j s2 s3
  have e3 : s3.xmt = s2.xmt := by
    show (if _ then s2 else s2.modRvr _ : State).xmt = _
    split <;> rfl
  show _ ∈ s3.xmt.media
  rw [e3]
  exact List.mem_append_left _ (List.mem_map.mpr ⟨l, hl, rfl⟩)

theorem completes_securitySend :
    ∀ (tag : Fin 4096) (c : Cmd) (s : State), Ready .securitySend tag c s → secp c.cmd = 0 →
    ∃ t, exec (.securitySend tag) s = .next t ∧ Done tag stOk t := by
  intro tag c s h h1
  refine ⟨_, (by change execSecuritySend tag s = _; unfold execSecuritySend; (try unfold withNs); (try unfold zoneSend); (try unfold vendorLog); (try unfold setFeature); exact withCmd_ready h (by rfl)), ?_⟩
  simp only [h1]
  apply h.done; rfl

theorem completes_securityReceive :
    ∀ (tag : Fin 4096) (c : Cmd) (s : State), Ready .securityReceive tag c s → secp c.cmd = 0 →
    ∃ t, exec (.securityReceive tag) s = .next t ∧ Done tag stOk t ∧ (ctrlAt c.ctrl t).lastData = [0x00, 0xF0, 0xF1] := by
  intro tag c s h h1
  refine ⟨_, (by change execSecurityReceive tag s = _; unfold execSecurityReceive; (try unfold withNs); (try unfold zoneSend); (try unfold vendorLog); (try unfold setFeature); exact withCmd_ready h (by rfl)), ?_⟩
  simp only [h1]
  exact ⟨by apply h.done; rfl, by simp⟩

theorem completes_attestationNonce :
    ∀ (tag : Fin 4096) (c : Cmd) (s : State), Ready .securitySend tag c s → secp c.cmd = 0xF0 → spsp c.cmd = 1 →
    ∃ t, exec (.attestationNonce tag) s = .next t ∧ Done tag stOk t ∧ t.sec.nonce = c.cmd.payload % 2 ^ 256 ∧
    t.sec.signing = true ∧ t.sec.repReady = false := by
  intro tag c s h h1 h2
  refine ⟨_, (by change execAttestationNonce tag s = _; unfold execAttestationNonce; (try unfold withNs); (try unfold zoneSend); (try unfold vendorLog); (try unfold setFeature); exact withCmd_ready h (by rfl)), ?_⟩
  simp only [h1, h2, beq_self_eq_true, Bool.and_self, if_true]
  exact ⟨by apply h.done; rfl, by rw [finish_st_sec]; exact ⟨rfl, rfl, rfl⟩⟩

theorem completes_attestationReportSigned :
    ∀ s : State, secRuns s = true → s.sec.signing = true →
    ∃ t, exec .attestationReportSigned s = .next t ∧ t.sec.signing = false ∧ t.sec.repReady = true ∧ t.sec.report = signedReport s.sec.report s := by
  intro s h1 h2
  refine ⟨_, rfl, ?_⟩
  generalize signedReport = f
  simp [h1, h2, State.modSec]

theorem completes_attestationReportReceive :
    ∀ (tag : Fin 4096) (c : Cmd) (s : State), Ready .securityReceive tag c s → secp c.cmd = 0xF0 → spsp c.cmd = 1 →
    ∃ t, exec (.attestationReportReceive tag) s = .next t ∧ Done tag stOk t ∧
    (ctrlAt c.ctrl t).lastData = (if s.sec.repReady then [s.sec.report] else []) := by
  intro tag c s h h1 h2
  refine ⟨_, (by change execAttestationReportReceive tag s = _; unfold execAttestationReportReceive; (try unfold withNs); (try unfold zoneSend); (try unfold vendorLog); (try unfold setFeature); exact withCmd_ready h (by rfl)), ?_⟩
  simp only [h1, h2]
  exact ⟨by apply h.done; rfl, by simp⟩

theorem completes_credential :
    ∀ (tag : Fin 4096) (c : Cmd) (s : State), Ready .securitySend tag c s → secp c.cmd = 0xF1 → spsp c.cmd < 32 →
    (vget s.sec.users (spsp c.cmd) {}).lockout = false →
    (vget s.sec.users (spsp c.cmd) {}).cred = some (Config.hash 0 (c.cmd.payload % 2 ^ 512)) →
    ∃ t, exec (.credential tag) s = .next t ∧ Done tag stOk t ∧ (vget t.sec.users (spsp c.cmd) {}).opn = true ∧
    (vget t.sec.users (spsp c.cmd) {}).fails = 0 := by
  intro tag c s h h1 h2 h3 h4
  refine ⟨_, (by change execCredential tag s = _; unfold execCredential; (try unfold withNs); (try unfold zoneSend); (try unfold vendorLog); (try unfold setFeature); exact withCmd_ready h (by rfl)), ?_⟩
  simp only [h1, h2, beq_self_eq_true, decide_true, Bool.and_self, if_true, credentialOf, h3, h4, Option.isNone_some, Bool.false_and, Bool.false_eq_true, if_false]
  refine ⟨by apply h.done; rfl, ?_⟩
  rw [finish_st_sec]
  simp only [State.modSec]
  rw [vget_vmod _ h2]
  exact ⟨rfl, rfl⟩

theorem completes_deviceSelfTest :
    ∀ (tag : Fin 4096) (c : Cmd) (s : State), Ready .deviceSelfTest tag c s → c.cmd.cdw10 % 16 = 1 →
    ∃ t, exec (.deviceSelfTest tag) s = .next t ∧ Done tag stOk t ∧ t.hce.dst = 1 := by
  intro tag c s h h1
  refine ⟨_, (by change execDeviceSelfTest tag s = _; unfold execDeviceSelfTest; (try unfold withNs); (try unfold zoneSend); (try unfold vendorLog); (try unfold setFeature); exact withCmd_ready h (by rfl)), ?_⟩
  simp only [h1, true_or, if_true]
  exact ⟨by apply h.done; rfl, by rw [finish_dst]; rfl⟩

theorem completes_nvmeMiSend :
    ∀ (tag : Fin 4096) (c : Cmd) (s : State), Ready .nvmeMiSend tag c s → bits c.cmd.cdw11 7 0 = 6 →
    ∃ t, exec (.nvmeMiSend tag) s = .next t ∧ Done tag stOk t ∧
    t.hce.vpd = (miVpdWrite (bits c.cmd.cdw12 15 0) (toBytes (bits c.cmd.cdw13 15 0) c.cmd.payload) s).hce.vpd := by
  intro tag c s h h1
  refine ⟨_, (by change execNvmeMiSend tag s = _; unfold execNvmeMiSend; (try unfold withNs); (try unfold zoneSend); (try unfold vendorLog); (try unfold setFeature); exact withCmd_ready h (by rfl)), ?_⟩
  simp only [h1]
  exact ⟨by apply h.done; rfl, by rw [miFinish, finishDw_vpd]; rfl⟩

theorem completes_nvmeMiReceive :
    ∀ (tag : Fin 4096) (c : Cmd) (s : State), Ready .nvmeMiReceive tag c s → bits c.cmd.cdw11 7 0 = 4 →
    ∃ t, exec (.nvmeMiReceive tag) s = .next t ∧ Done tag stOk t ∧
    (ctrlAt c.ctrl t).lastData = (miConfigGet (bits c.cmd.cdw12 7 0) s).2 := by
  intro tag c s h h1
  refine ⟨_, (by change execNvmeMiReceive tag s = _; unfold execNvmeMiReceive; (try unfold withNs); (try unfold zoneSend); (try unfold vendorLog); (try unfold setFeature); exact withCmd_ready h (by rfl)), ?_⟩
  simp only [h1]
  exact ⟨by apply h.done; rfl, by simp [miFinish]⟩

theorem completes_readNvmeMiDataStructure :
    ∀ (port : Nat) (s : State), miUp s = true →
    ∃ t, exec (.readNvmeMiDataStructure 2 port) s = .next t ∧
    t.hce.miResp = some (miOk, if s.sys.dualp then [2, 0, 1] else [1, 0]) := by
  intro port s h1
  refine ⟨_, rfl, ?_⟩
  simp [h1, miAnswer, miReply, miDataStructure, State.modHce]

theorem completes_nvmSubsystemHealthStatusPoll :
    ∀ s : State, miUp s = true →
    ∃ t, exec .nvmSubsystemHealthStatusPoll s = .next t ∧ ∃ a b c,
    t.hce.miResp = some (miOk, [a, 255 - ((ctrlAt 0 s).critWarn ||| (ctrlAt 1 s).critWarn) % 256, miTemp s, b, c]) := by
  intro s h1
  refine ⟨_, rfl, ?_⟩
  simp only [h1, if_true, miAnswer, miReply, miSubsystem, State.modHce]
  exact ⟨_, _, _, rfl⟩

theorem completes_controllerHealthStatusPoll :
    ∀ (c : Fin 2) (s : State), miUp s = true →
    ∃ t, exec (.controllerHealthStatusPoll c) s = .next t ∧ ∃ a b, t.hce.miResp = some (miOk,
    [c.val, flag (ctrlAt c s).rdy 0 + flag (ctrlAt c s).nssro 4, compositeK s, a, b, (ctrlAt c s).critWarn]) := by
  intro c s h1
  refine ⟨_, rfl, ?_⟩
  simp only [h1, if_true, miAnswer, miReply, State.modHce]
  exact ⟨_, _, rfl⟩

theorem completes_configurationGet :
    ∀ (ident : Nat) (s : State), miUp s = true →
    ∃ t, exec (.configurationGet ident) s = .next t ∧ t.hce.miResp = some (miConfigGet ident s) := by
  intro i s h1
  refine ⟨_, rfl, ?_⟩
  simp [h1, miReply, State.modHce]

theorem completes_configurationSet :
    ∀ (v : Nat) (s : State), miUp s = true → Rising s.hce.miCfg → v ≠ 0xFFFFFFFF →
    ∃ t, exec (.configurationSet 2 v) s = .next t ∧ t.hce.miResp = some (miOk, []) ∧ sget 0xFFFFFFFF 2 t.hce.miCfg = v := by
  intro v s h1 h2 h3
  refine ⟨_, rfl, ?_⟩
  simp only [h1, if_true, miReply, State.modHce, miConfigSet]
  exact ⟨trivial, sget_sput _ _ _ h2⟩

theorem completes_vpdRead :
    ∀ (off len : Nat) (s : State), miUp s = true →
    ∃ t, exec (.vpdRead off len) s = .next t ∧ ∃ l, t.hce.miResp = some (miOk, l) ∧ l.length = len ∧
    ∀ (i v : Nat), i < len → s.hce.vpd.find? (fun x => x.1 == off + i) = some (off + i, v) → l[i]? = some v := by
  intro off len s h
  refine ⟨_, rfl, ?_⟩
  rw [if_pos h]
  obtain ⟨a, b⟩ := miVpdRead_list off len s
  exact ⟨_, rfl, a, b⟩

theorem completes_vpdWrite :
    ∀ (off : Nat) (b : Byte) (s : State), miUp s = true → Rising s.hce.vpd →
    ∃ t, exec (.vpdWrite off [b]) s = .next t ∧ t.hce.miResp = some (miOk, []) ∧ sget 256 off t.hce.vpd = b.toNat := by
  intro off b s h1 h2
  refine ⟨_, rfl, ?_⟩
  simp only [h1, if_true, miReply, State.modHce, miVpdWrite, List.zipIdx_cons, List.zipIdx_nil, List.foldl_cons, List.foldl_nil]
  exact ⟨trivial, sget_sput _ _ _ h2⟩

theorem completes_miReset :
    ∀ s : State, miUp s = true → canReset s = true →
    ∃ t, exec .miReset s = .next t ∧ t.sys.seq = .nssr ∧ t.sys.coreUp = true := by
  intro s h1 h4
  refine ⟨_, rfl, ?_⟩
  simp only [h1, if_true]
  unfold subsystemReset
  rw [if_pos h4]
  dsimp only
  simp only [canReset, Bool.and_eq_true] at h4
  have k := fun u => KeepSeq_resetSteps 4 u (o := u) .refl
  have ku : KeepSeq s ([0, 1].foldl (fun (s : State) (p : Fin 2) => if portExists p s then stopController p 1 s else s) s) := by
    refine KeepSeq.foldl .refl fun v x k => ?_
    split
    · exact KeepSeq_stopController _ _ _ k
    · exact k
  exact ⟨(k _).1.trans rfl, (k _).2.2.trans (ku.2.2.trans h4.1)⟩

theorem completes_basicManagementCommand :
    ∀ s : State, pdOn 2 s = true →
    ∃ t, exec .basicManagementCommand s = .next t ∧ ∃ a b,
    t.hce.miResp = some (miOk, [a, 255 - ((ctrlAt 0 s).critWarn ||| (ctrlAt 1 s).critWarn) % 256, miTemp s, b]) := by
  intro s h1
  refine ⟨_, rfl, ?_⟩
  simp only [h1, if_true, miReply, State.modHce]
  exact ⟨_, _, rfl⟩

end Sys2Proof.Machine
end

