-- ==== Sys2Proof/Laws/CompleteBus.lean ====
section
/-!
SUPPORT. Bus, reset and start-up commands that complete. One lemma for each part of a completion statement.
-/

set_option Elab.async false
set_option linter.all false

namespace Sys2Proof.Machine

theorem completes_regWritePage :
    ∀ (m : Master) (a : BitVec 40) (v : Word) (s : State) (b : Blk) (n : Nat) (r : Reg) (k : Nat),
    0x40000000 ≤ a.toNat → a.toNat % 4 = 0 → a.toNat + 4 ≤ 0x41000000 → blockAt a.toNat = some (b, n) →
    b.base n + 0x30 ≤ a.toNat → b.regAt (a.toNat - b.base n) = some (r, k) → r.plain = true → Reach b n s → Rising s.regs →
    ∃ t, exec (.regWrite m (.page a) v) s = .next t ∧ t.busErr = false ∧
    reg r n k t = (reg r n k s &&& ((2 ^ 32 - 1) ^^^ writableBits r n s)) ||| (v.toNat &&& writableBits r n s) := by
  intro m a v s b n r k h1 h2 h3 h4 h5 h6 h7 h8 h9
  have hv : v.toNat % 2 ^ 32 = v.toNat := Nat.mod_eq_of_lt v.isLt
  have hb : r.row.blk = b := regAt_blk h6
  have key : busOp m a.toNat true 4 v.toNat s = useWindow b n (storeFields r n k v.toNat (busZero s)) := by
    rw [busOp_pages h8.1 h1 h3 (by omega)]
    simp only [pageAccess, h4, pageOn_reach h8, h2, if_false, Bool.false_eq_true, Bool.not_true, and_self, if_true, wordAccess]
    rw [if_neg (by omega), if_neg (by omega), h6]
    simp only [writeReg_plain h7, hv]
  have he : (busOp m a.toNat true 4 v.toNat s).busErr = false := by
    rw [key, useWindow_busErr]
    exact frame_storeFields (m := 0x1800000110) r n k v.toNat (busZero s) .refl rfl .busErr rfl
  refine ⟨_, rfl, ?_⟩
  dsimp only
  rw [if_pos h8.1, dmaError_ok he]
  refine ⟨he, ?_⟩
  rw [key, reg_congr (t := useWindow ..) (useWindow_regs ..)]
  exact reg_storeFields r n k v.toNat (s := busZero s) h9 v.isLt

theorem completes_regWriteCsr :
    ∀ (m : Master) (c : Core) (v : Word) (s : State), coreOn c s = true →
    ∃ t, exec (.regWrite m (.csr c 0x7C4) v) s = .next t ∧ t.irq.thr[coreIdx c] = v.toNat % 16 := by
  intro m c v s h
  refine ⟨_, rfl, ?_⟩
  simp only [csrWrite, h]
  cases c <;> simp

theorem completes_busUnlisted :
    ∀ (m : Master) (a : BitVec 40) (wr : Bool) (bytes : Nat) (v : BitVec 64) (s : State), pdOn 2 s = true →
    0x60280000 ≤ a.toNat → a.toNat < ddrBase →
    ∃ t, exec (.busAccess m a wr bytes v) s = .next t ∧ t.busErr = true ∧ t.busData = 0 := by
  intro m a wr bytes v s h h1 h2
  refine ⟨_, rfl, ?_⟩
  rw [if_pos h, busOp_gap h h1 h2 (busSize_pos bytes)]
  exact ⟨frame_dmaError m _ (m := 0x1800000180) .refl rfl .busErr rfl, frame_dmaError m _ (m := 0x1800000180) .refl rfl .busData rfl⟩

theorem completes_busSramRead :
    ∀ (m : Master) (a : BitVec 40) (v : BitVec 64) (s : State), pdOn 2 s = true → pdOn 7 s = true →
    0x20000000 ≤ a.toNat → a.toNat + 4 ≤ 0x20800000 → a.toNat % 4 = 0 → l1Find (a.toNat / 64) s = none →
    (∀ c : Fin 4, m = .core (.a c) → s.sys.ucache[c].2 = false) →
    ∃ t, exec (.busAccess m a false 4 v) s = .next t ∧ t.busErr = false ∧ t.busData = memRead a.toNat 4 s := by
  intro m a v s h h7 h1 h2 h3 hl hc
  have hd : inDdr a.toNat s = false := inDdr_low (by omega)
  have hz : busSize 4 = 4 := rfl
  have key : (busOp m a.toNat false 4 (v.toNat % 2 ^ (8 * 4)) s).busErr = false ∧
      (busOp m a.toNat false 4 (v.toNat % 2 ^ (8 * 4)) s).busData = memRead a.toNat 4 s := by
    rw [busOp_sram h h1 h2 (by decide)]
    simp only [domMem, h7, if_true, memSpan]
    rw [if_pos (by omega)]
    simp only [memAccess, accessWaits_low hd]
    cases m with
    | core c =>
      cases c with
      | a c =>
        have hu := hc c rfl
        simp only [Fin.getElem_fin] at hu
        simp [memTake, acoreLoad, hu, hl, hd]
      | t c => simp [memTake, hl, hd]
      | sec => simp [memTake, hl, hd]
    | debug => simp [memTake, hl, hd]
    | dma _ => simp [memTake, hl, hd]
  refine ⟨_, rfl, ?_⟩
  rw [hz, if_pos h, dmaError_ok key.1]
  exact key

theorem completes_busSramWrite :
    ∀ (m : Master) (a : BitVec 40) (v : BitVec 64) (s : State), pdOn 2 s = true → pdOn 7 s = true →
    0x20000000 ≤ a.toNat → a.toNat + 4 ≤ 0x20800000 → a.toNat % 4 = 0 → Rising s.mem →
    (∀ c : Fin 4, m = .core (.a c) → s.sys.ucache[c].2 = false) →
    ∃ t, exec (.busAccess m a true 4 v) s = .next t ∧ t.busErr = false ∧ memRead a.toNat 4 t = v.toNat % 2 ^ 32 ∧
    ∀ x, x < a.toNat ∨ a.toNat + 4 ≤ x → memByte x t = memByte x s := by
  intro m a v s h h7 h1 h2 h3 hr hc
  have hlo : a.toNat < 0x100000000 := by omega
  have hd : ∀ l, inDdr a.toNat { s with l1 := l } = false := fun l => inDdr_low hlo
  have lem : ∀ l, (({ memWrite a.toNat 4 (v.toNat % 2 ^ 32) { s with l1 := l } with busData := 0, busErr := false } : State)).busErr = false ∧
      memRead a.toNat 4 ({ memWrite a.toNat 4 (v.toNat % 2 ^ 32) { s with l1 := l } with busData := 0, busErr := false } : State) = v.toNat % 2 ^ 32 ∧
      ∀ x, x < a.toNat ∨ a.toNat + 4 ≤ x → memByte x ({ memWrite a.toNat 4 (v.toNat % 2 ^ 32) { s with l1 := l } with busData := 0, busErr := false } : State) = memByte x s := by
    intro l
    refine ⟨rfl, ?_, fun x hx => ?_⟩
    · exact (memRead_memWrite (s := { s with l1 := l }) hr).trans (Nat.mod_mod_of_dvd _ (by decide))
    · exact memByte_memWrite_out (s := { s with l1 := l }) hx
  have hz : busSize 4 = 4 := rfl
  have key : ∃ l, busOp m a.toNat true 4 (v.toNat % 2 ^ (8 * 4)) s =
      { memWrite a.toNat 4 (v.toNat % 2 ^ 32) { s with l1 := l } with busData := 0, busErr := false } := by
    rw [busOp_sram h h1 h2 (by decide)]
    simp only [domMem, h7, if_true, memSpan]
    rw [if_pos (by omega)]
    simp only [memAccess, accessWaits_low (inDdr_low hlo)]
    cases m with
    | core c =>
      cases c with
      | a c => simp only [memTake, acoreStore, hc c rfl, hd]; exact ⟨_, rfl⟩
      | t c => simp only [memTake, hd]; exact ⟨_, rfl⟩
      | sec => simp only [memTake, l1DropAll, hd]; exact ⟨_, rfl⟩
    | debug => simp only [memTake, hd]; exact ⟨_, rfl⟩
    | dma _ => simp only [memTake, hd]; exact ⟨_, rfl⟩
  obtain ⟨l, key⟩ := key
  refine ⟨_, rfl, ?_⟩
  rw [hz, if_pos h, dmaError_ok (by rw [key]), key]
  exact lem l

theorem completes_guardRight :
    ∀ (m : Master) (h : Fin 77) (v : Word) (s : State) (b : Blk) (n : Nat), hdrBlk h = (b, n) → Reach b n s →
    (headerOf h s).locked = false → v.toNat % 2 ^ 16 = 0x6B00 + b.row.type_ →
    ∃ t, exec (.guardWordWrite m h v) s = .next t ∧ headerOf h t = { headerOf h s with remain := 256, wrongWords := 0 } := by
  intro m h v s b n e r lk w
  have hh := hdrBlk_lt e
  refine ⟨_, rfl, ?_⟩
  simp only [e, r.1, pageOn_reach r, if_true, guardWrite, hdrOf_eq, hh, lk, w, if_false, Bool.false_eq_true]
  rw [headerOf_modHdr h.isLt, lk]

theorem completes_guardWrong :
    ∀ (m : Master) (h : Fin 77) (v : Word) (s : State) (b : Blk) (n : Nat), hdrBlk h = (b, n) → Reach b n s →
    (headerOf h s).locked = false → v.toNat % 2 ^ 16 ≠ 0x6B00 + b.row.type_ →
    ∃ t, exec (.guardWordWrite m h v) s = .next t ∧ (headerOf h t).remain = 0 ∧ (headerOf h t).err = true ∧
    (headerOf h t).locked = decide (7 ≤ (headerOf h s).wrongWords) := by
  intro m h v s b n e r lk w
  have hh := hdrBlk_lt e
  refine ⟨_, rfl, ?_⟩
  simp only [e, r.1, pageOn_reach r, if_true, guardWrite, hdrOf_eq, hh, lk, w, if_false, Bool.false_eq_true]
  split
  · next hw => simp [blockError, blockErrorP, hh, h.isLt, Hdr.error]; omega
  · next hw => simp [blockError, blockErrorP, hh, h.isLt, Hdr.error, lk]; omega

theorem completes_guardWindowExhausted :
    ∀ (h : Fin 77) (s : State), (headerOf h s).remain = 1 →
    ∃ t, exec (.guardWindowExhausted h) s = .next t ∧ headerOf h t = { headerOf h s with remain := 0 } := by
  intro h s r
  exact ⟨_, rfl, by rw [headerOf_modHdr h.isLt]; simp [r]⟩

theorem completes_softReset :
    ∀ (m : Master) (h : Fin 77) (s : State) (b : Blk) (n : Nat), hdrBlk h = (b, n) → Reach b n s →
    srstReason m b n s = 0 → (headerOf h s).srst = false →
    ∃ t, exec (.softReset m h) s = .next t ∧ (headerOf h t).srst = true ∧ (headerOf h t).irqStat = 0 ∧
    (headerOf h t).remain = 0 := by
  intro m h s b n e r w w2
  refine ⟨_, rfl, ?_⟩
  simp [hdrAccess, access_reach r, e, softReset, w, hdrOf_blk e, w2, useWindow, hdrBlk_lt e, h.isLt, Hdr.softReset]

theorem completes_softResetComplete :
    ∀ (h : Fin 77) (s : State), (headerOf h s).srst = true →
    ∃ t, exec (.softResetComplete h) s = .next t ∧ (headerOf h t).srst = false := by
  intro h s w
  refine ⟨_, rfl, ?_⟩
  have w' : s.hdr[h].srst = true := by simpa [headerOf, vget, h.isLt] using w
  simp only [w', if_true]
  split
  · rw [headerOf_congr (t := walkQueue _) (frame_walkQueue (m := 0x6000) _ .refl rfl .hdr rfl)]
    rw [headerOf_congr (t := openClasses _) (frame_openClasses (m := 0x4000) _ .refl rfl .hdr rfl)]
    simp [h.isLt]
  · simp [h.isLt]

theorem completes_freezeOn :
    ∀ (m : Master) (h : Fin 77) (on : Bool) (s : State) (b : Blk) (n : Nat), hdrBlk h = (b, n) → Reach b n s →
    ∃ t, exec (.freeze m h on) s = .next t ∧ (headerOf h t).freeze = (on && decide (s.sys.debugLevel ≠ 0)) ∧
    ((on && decide (s.sys.debugLevel = 0)) = true → (headerOf h t).err = true) := by
  intro m h on s b n e r
  refine ⟨_, rfl, ?_⟩
  simp only [hdrAccess, access_reach r, e, freezeWrite, useWindow, hdrBlk_lt e]
  by_cases d : (on && decide (s.sys.debugLevel = 0)) = true
  · obtain ⟨rfl, d'⟩ := Bool.and_eq_true_iff.mp d
    have d' : s.sys.debugLevel = 0 := by simpa using d'
    simp [h.isLt, d', blockError, blockErrorP, hdrBlk_lt e, Hdr.error]
  · have k1 : (headerOf h (s.modHdr h fun x => { x with freeze := on })).freeze = (on && decide (s.sys.debugLevel ≠ 0)) := by
      rw [headerOf_modHdr h.isLt]
      cases on
      · rfl
      · simpa using d
    rw [if_neg d]
    have k2 : ∀ c : Bool, (headerOf h (if c = true then lltRelease (s.modHdr h fun x => { x with freeze := on })
        else s.modHdr h fun x => { x with freeze := on })).freeze = (on && decide (s.sys.debugLevel ≠ 0)) := by
      intro c
      split
      · rw [← k1]; exact (headerOf_lltRelease h _).freeze
      · exact k1
    refine ⟨?_, fun q => absurd q d⟩
    rw [headerOf_modHdr h.isLt]
    exact k2 _

theorem completes_errClear :
    ∀ (m : Master) (h : Fin 77) (s : State) (b : Blk) (n : Nat), hdrBlk h = (b, n) → Reach b n s →
    ∃ t, exec (.errClear m h) s = .next t ∧ (headerOf h t).errCode = 0 ∧ (headerOf h t).errInfo = 0 ∧
    (headerOf h t).err = false ∧ (headerOf h t).irqStat = (headerOf h s).irqStat &&& 0xFFFFFFFE ∧
    (headerOf h t).errCnt = (headerOf h s).errCnt := by
  intro m h s b n e r
  refine ⟨_, rfl, ?_⟩
  simp [hdrAccess, access_reach r, e, Machine.errClear, useWindow, hdrBlk_lt e, h.isLt]

theorem completes_irqSetWrite :
    ∀ (m : Master) (h : Fin 77) (v : Word) (s : State) (b : Blk) (n : Nat), hdrBlk h = (b, n) → Reach b n s →
    ∃ t, exec (.irqSetWrite m h v) s = .next t ∧ (headerOf h t).irqStat = (headerOf h s).irqStat ||| v := by
  intro m h v s b n e r
  refine ⟨_, rfl, ?_⟩
  simp [hdrAccess, access_reach r, e, irqSet, useWindow, hdrBlk_lt e, h.isLt]

theorem completes_allcln :
    ∀ (c : Fin 4) (den ien : Bool) (s : State), acoreOn c s = true →
    ∃ t, exec (.allcln c den ien) s = .next t ∧ t.sys.ucache[c] = (ien, den) ∧ ∀ x ∈ t.l1, x.core ≠ c := by
  intro c den ien s h
  refine ⟨_, rfl, ?_⟩
  simp only [h, if_true]
  refine ⟨by simp, fun x hx => ?_⟩
  simp [l1CleanAll] at hx
  exact hx.2

theorem completes_l1CleanState :
    ∀ (c : Fin 4) (line : BitVec 34) (s : State), acoreOn c s = true →
    ∃ t, exec (.l1Clean c line) s = .next t ∧
    (∀ l, l1Own c line.toNat s = some l → ∀ x ∈ t.l1, x.core = c → x.line = line.toNat → l.dirty = true → x.dirty = false) := by
  intro c line s h
  refine ⟨_, rfl, fun l hl x hx h1 h2 h3 => ?_⟩
  simp only [h, if_true, l1CleanLine, hl, h3] at hx
  simp only [mapIf, List.mem_map] at hx
  obtain ⟨y, hy, rfl⟩ := hx
  split
  · rfl
  · next hn => exfalso; apply hn; split at h1 <;> simp_all

theorem completes_l1CleanMemory :
    ∀ (c : Fin 4) (line : BitVec 34) (s : State) (l : L1Line), acoreOn c s = true → l1Own c line.toNat s = some l →
    l.dirty = true → line.toNat * 64 < 0x100000000 → Rising s.mem →
    ∃ t, exec (.l1Clean c line) s = .next t ∧ memRead (line.toNat * 64) 64 t = l.data % 2 ^ 512 ∧
    ∀ x, x < line.toNat * 64 ∨ line.toNat * 64 + 64 ≤ x → memByte x t = memByte x s := by
  intro c line s l h hl hd hlo hr
  refine ⟨_, rfl, ?_⟩
  have key := memRead_memWrite (a := line.toNat * 64) (n := 64) (v := l.data) hr
  have out := fun x hx => memByte_memWrite_out (a := line.toNat * 64) (n := 64) (v := l.data) (x := x) (s := s) hx
  simp only [h, if_true, l1CleanLine, hl, hd, backWrite, inDdr_low hlo, if_false, Bool.false_eq_true]
  generalize memWrite (line.toNat * 64) 64 l.data s = X at *
  exact ⟨key, out⟩

theorem completes_l1Invalidate :
    ∀ (c : Fin 4) (line : BitVec 34) (s : State), acoreOn c s = true →
    ∃ t, exec (.l1Invalidate c line) s = .next t ∧ t.mem = s.mem ∧
    ∀ x, x ∈ t.l1 ↔ x ∈ s.l1 ∧ ¬(x.core = c ∧ x.line = line.toNat) := by
  intro c line s h
  refine ⟨_, rfl, ?_⟩
  simp only [h, if_true, l1Remove]
  refine ⟨trivial, fun x => ?_⟩
  simp
  tauto

theorem completes_l1CleanAndInvalidate :
    ∀ (c : Fin 4) (line : BitVec 34) (s : State), acoreOn c s = true → Rising s.mem →
    ∃ t, exec (.l1CleanAndInvalidate c line) s = .next t ∧ (∀ x ∈ t.l1, ¬(x.core = c ∧ x.line = line.toNat)) ∧
    ∀ l, l1Own c line.toNat s = some l → l.dirty = true → line.toNat * 64 < 0x100000000 →
    memRead (line.toNat * 64) 64 t = l.data % 2 ^ 512 := by
  intro c line s h hr
  refine ⟨_, rfl, ?_⟩
  simp only [h, if_true, l1Remove]
  refine ⟨fun x hx => ?_, fun l hl hd hlo => ?_⟩
  · simp at hx; tauto
  · have key := memRead_memWrite (a := line.toNat * 64) (n := 64) (v := l.data) hr
    simp only [l1CleanLine, hl, hd, backWrite, inDdr_low hlo, if_true, if_false, Bool.false_eq_true]
    generalize memWrite (line.toNat * 64) 64 l.data s = X at *
    exact key

theorem completes_l1NoOperation :
    ∀ (c : Fin 4) (line : BitVec 34) (s : State), ∃ t, exec (.l1NoOperation c line) s = .next t ∧ t = s := by
  exact fun c line s => ⟨s, rfl, rfl⟩

theorem completes_irqTake :
    ∀ (c : Core) (k : Nat) (s : State), pdOn 2 s = true → uirqid c s = some k →
    ∃ t, exec (.irqTake c) s = .next t ∧ t.busData = 2 ^ 31 + k ∧ t.irq.lastId = some (c, true, k) ∧
    t.irq.inService = s.irq.inService ++ [(k, c)] ∧ k ∉ t.irq.pending := by
  intro c k s h hk
  have e : exec (.irqTake c) s = .next (if pdOn 2 s then Machine.irqTake c s else s) := rfl
  refine ⟨_, e, ?_⟩
  rw [if_pos h]
  unfold Machine.irqTake
  rw [hk]
  simp [removeNat]

theorem completes_irqTakeNone :
    ∀ (c : Core) (s : State), pdOn 2 s = true → uirqid c s = none →
    ∃ t, exec (.irqTake c) s = .next t ∧ t.busData = 0 ∧ t.irq.lastId = some (c, false, 0) ∧
    t.irq.inService = s.irq.inService ∧ t.irq.pending = s.irq.pending := by
  intro c s h hk
  have e : exec (.irqTake c) s = .next (if pdOn 2 s then Machine.irqTake c s else s) := rfl
  refine ⟨_, e, ?_⟩
  rw [if_pos h]
  unfold Machine.irqTake
  rw [hk]
  exact ⟨rfl, rfl, rfl, rfl⟩

theorem completes_uirqdone :
    ∀ (c : Core) (src : Fin 512) (s : State),
    ∃ t, exec (.uirqdone c src) s = .next t ∧
    ∀ x, x ∈ t.irq.inService ↔ x ∈ s.irq.inService ∧ ¬(x.1 = src.val ∧ x.2 = c) := by
  intro c src s
  refine ⟨_, rfl, fun x => ?_⟩
  simp
  tauto

theorem completes_irqRouteSec :
    ∀ (k : Fin 512) (v : Word) (s : State), Reach .irq 0 s → Rising s.regs →
    ∃ t, exec (.irqRouteWrite (.core .sec) k v) s = .next t ∧
    reg .irqRoute 0 k t = (reg .irqRoute 0 k s &&& ((2 ^ 32 - 1) ^^^ writableBits .irqRoute 0 s)) |||
    (v.toNat &&& writableBits .irqRoute 0 s) := by
  intro k v s h hr
  refine ⟨_, rfl, ?_⟩
  rw [access_reach h]
  simp only [routeWrite, if_true]
  rw [reg_congr (t := useWindow ..) (useWindow_regs ..)]
  exact reg_storeFields _ _ _ _ hr v.isLt

theorem completes_irqRouteOther :
    ∀ (m : Master) (k : Fin 512) (v : Word) (s : State), Reach .irq 0 s → m ≠ .core .sec → 41 ≤ k.val → k.val ≤ 75 →
    ∃ t, exec (.irqRouteWrite m k v) s = .next t ∧ reg .irqRoute 0 k t = reg .irqRoute 0 k s ∧ (headerOf 2 t).err = true := by
  intro m k v s h hm h1 h2
  refine ⟨_, rfl, ?_⟩
  have hk : 41 ≤ k.val ∧ k.val ≤ 75 := ⟨h1, h2⟩
  rw [access_reach h]
  simp only [routeWrite, hm, if_false, hk, and_self, if_true]
  refine ⟨?_, ?_⟩
  · rw [reg_congr (t := useWindow ..) (useWindow_regs ..), reg_congr (t := blockError ..) (blockError_regs ..)]
  · simp [useWindow, blockError, blockErrorP, Blk.hdr, Blk.row, Hdr.error]

theorem completes_irqSwset :
    ∀ (m : Master) (v : Word) (s : State), Reach .irq 0 s → 448 ≤ v.toNat → v.toNat ≤ 479 →
    ∃ t, exec (.irqSwset m v) s = .next t ∧ t.irq.pending = insertNat v.toNat s.irq.pending := by
  intro m v s h h1 h2
  refine ⟨_, rfl, ?_⟩
  rw [access_reach h]
  simp [swset, h1, h2, raiseLine]

theorem completes_twinRead :
    ∀ (m : Master) (n : Fin 4) (v : Word) (s : State), Reach .cpx 0 s → tcoreExists n s = true → pdOn (14 + n) s = true →
    ∃ t, exec (.twinDataAccess m n false v) s = .next t ∧ t.tcm = s.tcm ∧
    t.busData = fromBytes ((List.range 4).map fun i =>
    sget (0 : Byte) (n.val * 131072 + fld .twinAddr 0 n 16 2 s * 4 + i) s.tcm) := by
  intro m n v s h h1 h2
  refine ⟨_, rfl, ?_⟩
  rw [access_reach h]
  simp only [twinAccess, h1, h2, Bool.and_self, Bool.not_true, if_false, Bool.false_eq_true]
  split <;> simp

theorem sget_fourBytes (a v : Nat) {l : List (Nat × Byte)} (hr : Rising l) {k : Nat} (hk : k < 4) :
    sget (0 : Byte) (a + k) (sput (0 : Byte) (a + (0 + 1 + 1 + 1)) (BitVec.ofNat 8 (v / 256 / 256 / 256)) (sput (0 : Byte) (a + (0 + 1 + 1)) (BitVec.ofNat 8 (v / 256 / 256))
      (sput (0 : Byte) (a + (0 + 1)) (BitVec.ofNat 8 (v / 256)) (sput (0 : Byte) (a + 0) (BitVec.ofNat 8 v) l)))) = BitVec.ofNat 8 (v / 256 ^ k) := by
  have h0 := hr.sput (d := (0 : Byte)) (k := a + 0) (v := BitVec.ofNat 8 v)
  have h1 := h0.sput (d := (0 : Byte)) (k := a + (0 + 1)) (v := BitVec.ofNat 8 (v / 256))
  have h2 := h1.sput (d := (0 : Byte)) (k := a + (0 + 1 + 1)) (v := BitVec.ofNat 8 (v / 256 / 256))
  obtain rfl | rfl | rfl | rfl : k = 0 ∨ k = 1 ∨ k = 2 ∨ k = 3 := by omega
  · rw [sget_sput_ne _ _ _ (by omega), sget_sput_ne _ _ _ (by omega), sget_sput_ne _ _ _ (by omega), sget_sput _ _ _ hr]; simp
  · rw [sget_sput_ne _ _ _ (by omega), sget_sput_ne _ _ _ (by omega), sget_sput _ _ _ h0]; simp
  · rw [sget_sput_ne _ _ _ (by omega), sget_sput _ _ _ h1]; simp [Nat.div_div_eq_div_mul]
  · rw [sget_sput _ _ _ h2]; simp [Nat.div_div_eq_div_mul]

theorem completes_twinWrite :
    ∀ (m : Master) (n : Fin 4) (v : Word) (s : State), Reach .cpx 0 s → tcoreExists n s = true → pdOn (14 + n) s = true →
    ∃ t, exec (.twinDataAccess m n true v) s = .next t ∧
    (Rising s.tcm → ∀ k < 4, sget (0 : Byte) (n.val * 131072 + fld .twinAddr 0 n 16 2 s * 4 + k) t.tcm =
      BitVec.ofNat 8 (v.toNat / 256 ^ k)) ∧
    ∀ x, ¬(n.val * 131072 + fld .twinAddr 0 n 16 2 s * 4 ≤ x ∧ x < n.val * 131072 + fld .twinAddr 0 n 16 2 s * 4 + 4) →
    sget (0 : Byte) x t.tcm = sget (0 : Byte) x s.tcm := by
  intro m n v s h h1 h2
  refine ⟨_, rfl, ?_⟩
  rw [access_reach h]
  simp only [twinAccess, h1, h2, Bool.and_self, Bool.not_true, if_false, Bool.false_eq_true, if_true]
  have e : ∀ (b : Bool) (t : State), (useWindow .cpx 0 (if (fld .twinAddr 0 n 31 31 t) = 1 then setFld .twinAddr 0 n 16 2 ((fld .twinAddr 0 n 16 2 s + 1) % 2 ^ 15) t else t)).tcm = t.tcm := by
    intro b t; split <;> simp
  rw [e true]
  simp only [toBytes, List.zipIdx, List.foldl]
  refine ⟨fun hr k hk => ?_, fun x hx => ?_⟩
  · exact sget_fourBytes _ _ hr hk
  rw [sget_sput_ne _ _ _ (by omega), sget_sput_ne _ _ _ (by omega), sget_sput_ne _ _ _ (by omega), sget_sput_ne _ _ _ (by omega)]

theorem completes_por :
    ∀ s : State, ∃ t, exec .por s = .next t ∧ t.us = 0 ∧
    (∀ (r : Reg) (n k : Nat), domAddr (r.addr n k) = false → reg r n k t = (BitVec.ofNat 32 (r.reset k)).toNat) ∧
    t.mem = [] ∧ t.pwr = {} ∧ t.sys.coreUp = false ∧
    t.sys.ready = false ∧ t.sys.rstCause = 0 ∧ t.sys.pendCause &&& 1 = 1 ∧ t.evr = {} ∧ t.lif = {} ∧ t.cal = {} ∧
    t.sec.svn = s.sec.svn ∧ t.sec.epoch = s.sec.epoch ∧ t.sec.alarms = s.sec.alarms ∧ t.xmt.media = s.xmt.media := by
  intro s
  refine ⟨_, rfl, rfl, fun r n k h => reg_filtered rfl h, rfl, rfl, rfl, rfl, rfl, ?_, rfl, rfl, rfl, rfl, rfl, rfl, rfl⟩
  simp only [wickReset]
  rw [BitVec.and_or_distrib_right, BitVec.and_assoc]
  simp

theorem completes_xo32kQualified :
    ∀ s : State, s.sys.aux = true → s.clk.xo32decided = false → s.us ≤ 1500000 →
    ∃ t, exec .xo32kQualified s = .next t ∧ t.clk.xo32decided = true ∧ t.clk.onRc = false ∧ t.cal.rcTime = false := by
  intro s h1 h2 h3
  refine ⟨_, rfl, ?_⟩
  simp [h1, h2, h3]

theorem completes_xo32kLate :
    ∀ s : State, s.sys.aux = true → s.clk.xo32decided = false → 1500000 < s.us →
    ∃ t, exec .xo32kQualified s = .next t ∧ t.clk.xo32decided = true ∧ t.clk.onRc = true ∧ t.cal.rcTime = true := by
  intro s h1 h2 h3
  refine ⟨_, rfl, ?_⟩
  simp [h1, h2, Nat.not_le.mpr h3, xo32kFails]

theorem completes_xo32kFailStart :
    ∀ s : State, s.sys.aux = true → s.clk.xo32decided = false →
    ∃ t, exec .xo32kFail s = .next t ∧ t.clk.xo32decided = true ∧ t.clk.onRc = true ∧ 1500000 ≤ t.us := by
  intro s h1 h2
  refine ⟨_, rfl, ?_⟩
  simp [h1, h2, xo32kFails, advanceTo_us]

theorem completes_xo32kFailLater :
    ∀ s : State, s.sys.aux = true → s.clk.xo32decided = true → s.clk.onRc = false →
    ∃ t, exec .xo32kFail s = .next t ∧ t.clk.onRc = true ∧ t.cal.rcTime = true ∧ t.us = s.us := by
  intro s h1 h2 h3
  refine ⟨_, rfl, ?_⟩
  simp [h1, h2, h3, xo32kFails]

theorem completes_xo40Fail :
    ∀ s : State, s.sys.aux = true → s.clk.xo40failed = false →
    ∃ t, exec .xo40Fail s = .next t ∧ t.clk.xo40failed = true ∧ t.clk.xo40ok = false := by
  intro s h1 h2
  refine ⟨_, rfl, ?_⟩
  simp only [h1, h2, Bool.not_false, Bool.and_self, if_true]
  have key : KeepXo40 { s with clk := { s.clk with xo40failed := true, xo40ok := false } }
      ([0, 1, 2, 4, 5, 6, 7].foldl (fun s i => if pllLock i s then pllLoss i s else s)
        { s with clk := { s.clk with xo40failed := true, xo40ok := false } }) :=
    KeepXo40.foldl .refl (fun u x k => KeepXo40.ite (KeepXo40_pllLoss _ _ k) k)
  split
  · simpa [KeepXo40] using key
  · simpa [KeepXo40] using key

theorem completes_mainRailsGood :
    ∀ (env : BootEnv) (b : Bool) (s : State), s.sys.aux = true → s.sys.railsGood = false → s.sys.resetNLow = false →
    s.pwr.darkCritical = false →
    ∃ t, exec (.mainRailsGood env b) s = .next t ∧ t.sys.railsGood = true ∧ t.sys.coreUp = true ∧ t.us = s.us + 2000 ∧
    (s.sys.coreUp = false → t.sys.held = false) := by
  intro env b s h1 h2 h3 h4
  refine ⟨_, rfl, ?_⟩
  simp only [h1, h2, Bool.not_false, Bool.and_self, if_true]
  have l0 := (KeepPwr_elapse 2000 s (o := s) .refl)
  have l1 := elapse_us 2000 s
  have l2 : (elapse 2000 s).sys.resetNLow = false := by rw [elapse_sys]; exact h3
  have l3 : (elapse 2000 s).sys.coreUp = s.sys.coreUp := by rw [elapse_sys]
  unfold KeepPwr at l0
  rw [h4] at l0
  rw [← l1]
  generalize elapse 2000 s = u at *
  have fin : ∀ v : State, v.us = u.us → v.sys.railsGood = true → v.sys.resetNLow = false →
      (startCore env v).sys.railsGood = true ∧ (startCore env v).sys.coreUp = true ∧ (startCore env v).us = u.us ∧ (startCore env v).sys.held = false := by
    intro v a b c
    unfold startCore
    rw [c]
    have k := coldStart_up env v
    have l := frame_coldStart env v (m := 0x18E00BAFB0) .refl rfl .us rfl
    exact ⟨k.2.2.trans b, k.1, l.trans a, k.2.1⟩
  generalize hx : State.modSec _ _ = x
  have x1 : x.us = u.us ∧ x.sys.railsGood = true ∧ x.sys.resetNLow = false ∧ x.sys.coreUp = s.sys.coreUp ∧ x.pwr.darkCritical = false := by
    rw [← hx]; exact ⟨rfl, rfl, l2, l3, l0.2.1⟩
  clear hx
  generalize hw : (if b = true then ev .sup 0x0C02 0 0 0 x else x) = w
  have w1 : w.us = u.us ∧ w.sys.railsGood = true ∧ w.sys.resetNLow = false ∧ w.sys.coreUp = s.sys.coreUp ∧ w.pwr.darkCritical = false := by
    rw [← hw]; split <;> simpa using x1
  clear hw x1
  obtain ⟨a, c, d, e, g⟩ := w1
  simp only [g, Bool.false_eq_true, if_false]
  split
  · have k := fin (wakeRecord 512 (draw (2 ^ 32) w) w.drawn) (by simpa [wakeRecord, State.modPwr, State.drawn] using a) (by simpa [wakeRecord, State.modPwr, State.drawn] using c) (by simpa [wakeRecord, State.modPwr, State.drawn] using d)
    exact ⟨k.1, k.2.1, k.2.2.1, fun _ => k.2.2.2⟩
  · split
    · next hc => exact ⟨c, hc, a, fun hn => by rw [e, hn] at hc; cases hc⟩
    · have k := fin w a c d
      exact ⟨k.1, k.2.1, k.2.2.1, fun _ => k.2.2.2⟩

theorem completes_railFault :
    ∀ (rail : Fin 9) (s : State), s.sys.aux = true →
    ∃ t, exec (.railFault rail) s = .next t ∧ t.sys.railsGood = false ∧ rail.val ∈ t.sup.bad := by
  intro rail s h1
  refine ⟨_, rfl, ?_⟩
  simp only [h1, if_true]
  have m : rail.val ∈ insertNat rail.val s.sup.bad := by simp [mem_insertNat]
  generalize hu : (State.modSys _ _ : State) = u
  have a : u.sys.railsGood = false := by rw [← hu]; rfl
  have b : rail.val ∈ u.sup.bad := by rw [← hu]; simpa using m
  clear hu
  have fin : ∀ v, KeepBad u v → v.sys.railsGood = false ∧ rail.val ∈ v.sup.bad := by
    intro v k; rw [k.1, k.2]; exact ⟨a, b⟩
  split
  · split
    · exact ⟨a, b⟩
    · exact ⟨a, b⟩
  split
  · exact ⟨a, b⟩
  apply fin
  exact .ite (.ite (KeepBad_lossStart _ .refl) .refl) (KeepBad_darkEntry _ _ _ (.ite (KeepBad_lossStart _ .refl) .refl))

theorem completes_uartRecoveryImage :
    ∀ (img : BootImage) (s : State), s.sys.uartWait = true → pdOn 1 s = true → bootResult 2 img s = 1 →
    ∃ t, exec (.uartRecoveryImage img) s = .next t ∧ t.sys.acoresUp = true ∧ t.sys.uartWait = false ∧ t.sys.slot = 3 ∧
    t.sec.imgDigest = img.digest ∧ t.sec.imgSvn = img.svn := by
  intro img s h1 h2 h3
  refine ⟨_, rfl, ?_⟩
  simp only [h1, h2, h3, Bool.and_self, if_true]
  exact startImage_spec 3 img s

theorem completes_perstDeassert :
    ∀ (p : Fin 2) (s : State), pdOn 8 s = true → pdOn 9 s = true → 1 ≤ s.sys.stage → portExists p s = true →
    ∃ t, exec (.perstDeassert p) s = .next t ∧ (ctrlAt p t).perst = false ∧ (ctrlAt p t).linkUp = true := by
  intro p s h1 h2 h3 h4
  refine ⟨_, rfl, ?_⟩
  have e : pdOn 8 (s.modCtrl p fun x => { x with perst := false }) = true := h1
  have e2 : pdOn 9 (s.modCtrl p fun x => { x with perst := false }) = true := h2
  have e3 : portExists p (s.modCtrl p fun x => { x with perst := false }) = true := h4
  simp only [trainLink, e, e2, e3]
  simp [h3, ctrlAt_fin, modCtrl_same, modCtrl_sameNat]

theorem completes_perstAssert :
    ∀ (p : Fin 2) (s : State), pdOn 8 s = true → portExists p s = true → (ctrlAt p s).perst = false →
    ∃ t, exec (.perstAssert p) s = .next t ∧ (ctrlAt p t).perst = true ∧ (ctrlAt p t).linkUp = false ∧
    (ctrlAt p t).en = false ∧ (ctrlAt p t).rdy = false := by
  intro p s h1 h2 h3
  refine ⟨_, rfl, ?_⟩
  have e0 : ¬ (ctrlAt p s).perst = true := by rw [h3]; decide
  have e1 : (pdOn 8 (s.modCtrl p fun x => { x with perst := true }) && portExists p (s.modCtrl p fun x => { x with perst := true })) = true := by
    simp only [Bool.and_eq_true]; exact ⟨h1, h2⟩
  simp only [if_neg e0, perstAction, if_pos e1]
  generalize hu : (s.modCtrl p fun x => { x with perst := true }).modCtrl p (fun x => { x with linkUp := false, cfgAtLoaded := true }) = u
  have a : u.hce.ctrl[p].perst = true ∧ u.hce.ctrl[p].linkUp = false := by
    rw [← hu, modCtrl_same, modCtrl_same]; exact ⟨rfl, rfl⟩
  have k := stopController_link p 0 u
  simp only [Ctrl.link, Prod.mk.injEq] at k
  simp only [ctrlAt_fin, raiseLine_hce]
  exact ⟨k.1.trans a.1, k.2.1.trans a.2, k.2.2.2.1, k.2.2.2.2⟩

theorem completes_configRequest :
    ∀ (p : Fin 2) (opened : Bool) (s : State), pdOn 8 s = true → (ctrlAt p s).linkUp = true →
    ∃ t, exec (.configRequest p opened) s = .next t ∧
    (ctrlAt p t).cfgOpen = ((ctrlAt p s).cfgOpen || (opened && s.sys.acoresUp)) ∧
    (ctrlAt p t).lastData = [if (ctrlAt p t).cfgOpen then 1 else 0] := by
  intro p o s h1 h2
  refine ⟨_, rfl, ?_⟩
  simp [h1, h2]

theorem completes_dmcInitGo :
    ∀ (m : Master) (s : State), Reach .dmc 0 s → s.dmc.initDone = false → s.dmc.initBusy = false → s.clk.xo40failed = false →
    ∃ t, exec (.dmcInitGo m) s = .next t ∧ t.dmc.initBusy = true ∧ t.dmc.initFail = false ∧ t.dmc.mib = 0 := by
  intro m s h h1 h2 h3
  refine ⟨_, rfl, ?_⟩
  rw [access_reach h]
  simp [Machine.dmcInitGo, h1, h2, h3]

theorem completes_dmcInitDone :
    ∀ (fail : Bool) (s : State), s.dmc.initBusy = true → (hdrOf .dmc 0 s).freeze = false → s.dmc.heldAcc = [] →
    ∃ t, exec (.dmcInitDone fail) s = .next t ∧ t.dmc.initBusy = false ∧ t.dmc.initDone = (s.dmc.initDone || !fail) ∧
    (fail = true → t.dmc.initFail = true) ∧ (fail = false → 5 ≤ t.sys.stage) := by
  intro fail s h1 hf h2
  refine ⟨_, rfl, ?_⟩
  simp only [h1, hf, Bool.not_false, Bool.and_self, if_true]
  cases fail
  · have hz : ∀ n, (zeroMibs n s).dmc.heldAcc = [] := fun _ => h2
    rw [if_neg Bool.false_ne_true]
    have hz := hz (initRank (installedBytes s / 2 ^ 20) s)
    generalize zeroMibs (initRank (installedBytes s / 2 ^ 20) s) s = z at *
    rw [releaseHeld_nil (by exact hz)]
    exact ⟨rfl, (Bool.or_true _).symm, fun h => absurd h Bool.false_ne_true, fun _ => Nat.le_max_right z.sys.stage 5⟩
  · rw [if_pos rfl, releaseHeld_nil (by exact h2)]
    simp

theorem completes_dmcInitHeldAccess :
    ∀ (mib : Nat) (s : State), s.dmc.initBusy = true → (hdrOf .dmc 0 s).freeze = false → s.dmc.mib ≤ mib → mib ≤ 0x7FFF → s.dmc.heldAcc = [] →
    ∃ t, exec (.dmcInitHeldAccess mib) s = .next t ∧ t.dmc.mib = mib ∧ t.dmc.initBusy = true := by
  intro mib s h1 hf h2 h3 h4
  refine ⟨_, rfl, ?_⟩
  simp [releaseHeld, zeroMibs, h1, hf, h2, h4]
  omega

theorem completes_readySet :
    ∀ (m : Master) (s : State), Reach .sys 0 s → s.dmc.initDone = true → s.sys.ready = false →
    ∃ t, exec (.readySet m false) s = .next t ∧ t.sys.ready = true ∧ t.sys.stage = 6 ∧
    ∀ p : Fin 2, (ctrlAt p s).rdyHeld = true → (ctrlAt p t).rdy = true ∧ (ctrlAt p t).rdyHeld = false := by
  intro m s h h1 h2
  refine ⟨_, rfl, ?_⟩
  rw [access_reach h]
  simp only [useWindow_sys, useWindow_hce, Bool.false_eq_true, if_false, writeRdyctl, show Nat.testBit 1 0 = true from rfl, show Nat.testBit 1 1 = false from rfl, useWindow_dmc, h1, h2, Bool.and_false, Bool.true_or, Bool.not_true, if_true]
  refine ⟨by simp [applyRdy, State.modSys, State.modCtrl], by simp [applyRdy, State.modSys, State.modCtrl], fun p hp => ?_⟩
  unfold applyRdy
  simp only [ctrlAt_fin, useWindow_hce] at *
  match p, hp with
  | 0, hp =>
    have hp : s.hce.ctrl[(0 : Fin 2)].rdyHeld = true := hp
    rw [modCtrl_other (by decide), modCtrl_same]; simp only [ev_hce, State.modSys, useWindow_hce, hp, if_true]; exact ⟨trivial, trivial⟩
  | 1, hp =>
    have hp : s.hce.ctrl[(1 : Fin 2)].rdyHeld = true := hp
    rw [modCtrl_same, modCtrl_other (by decide)]; simp only [ev_hce, State.modSys, useWindow_hce, hp, if_true]; exact ⟨trivial, trivial⟩

theorem completes_readyClr :
    ∀ (m : Master) (s : State), Reach .sys 0 s →
    ∃ t, exec (.readyClr m) s = .next t ∧ t.sys.ready = false := by
  intro m s h
  refine ⟨_, rfl, ?_⟩
  rw [access_reach h]
  simp [writeRdyctl, show Nat.testBit 2 0 = false from rfl, show Nat.testBit 2 1 = true from rfl]

theorem completes_controllerEnable :
    ∀ (p : Fin 2) (wrr : Bool) (s : State), hceUp s = true → (ctrlAt p s).linkUp = true → (ctrlAt p s).cfgOpen = true →
    (ctrlAt p s).en = false →
    ∃ t, exec (.controllerEnable p wrr) s = .next t ∧ (ctrlAt p t).en = true ∧
    (s.sys.ready = true → (ctrlAt p t).rdy = true) := by
  intro p wrr s h1 h2 h3 h4
  refine ⟨_, rfl, ?_⟩
  have e : (hceUp s && (ctrlAt p s).linkUp && (ctrlAt p s).cfgOpen && !(ctrlAt p s).en) = true := by
    simp_all
  rw [if_pos e]
  dsimp only
  simp only [ctrlAt_fin] at *
  cases hr : s.sys.ready
  · have : (State.modCtrl p (fun x => adminQueues x wrr) s).sys.ready = false := hr
    simp only [this, if_false, Bool.false_eq_true, modCtrl_same]; exact ⟨rfl, by simp⟩
  · have : (State.modCtrl p (fun x => adminQueues x wrr) s).sys.ready = true := hr
    simp only [this, if_true, modCtrl_same]; exact ⟨rfl, by simp⟩

theorem completes_controllerReset :
    ∀ (p : Fin 2) (s : State), hceUp s = true → (ctrlAt p s).en = true →
    ∃ t, exec (.controllerReset p) s = .next t ∧ (ctrlAt p t).en = false ∧ (ctrlAt p t).rdy = false ∧
    (ctrlAt p t).linkUp = (ctrlAt p s).linkUp ∧ (ctrlAt p t).cfgOpen = (ctrlAt p s).cfgOpen := by
  intro p s h1 h2
  refine ⟨_, rfl, ?_⟩
  simp only [h1, h2, Bool.and_self, if_true]
  have k := stopController_link p 1 s
  simp only [Ctrl.link, Prod.mk.injEq] at k
  simp only [ctrlAt_fin]
  exact ⟨k.2.2.2.1, k.2.2.2.2, k.2.1, k.2.2.1⟩

theorem completes_functionLevelReset :
    ∀ (p : Fin 2) (s : State), pdOn 8 s = true → portExists p s = true → (ctrlAt p s).linkUp = true →
    ∃ t, exec (.functionLevelReset p) s = .next t ∧ (ctrlAt p t).en = false ∧ (ctrlAt p t).rdy = false ∧
    (ctrlAt p t).perst = (ctrlAt p s).perst := by
  exact fun p s h1 h2 h3 => ⟨_, rfl, linkReset_link p 1 s h1 h2 h3⟩

theorem completes_linkDown :
    ∀ (p : Fin 2) (s : State), pdOn 8 s = true → portExists p s = true → (ctrlAt p s).linkUp = true →
    ∃ t, exec (.linkDown p) s = .next t ∧ (ctrlAt p t).en = false ∧ (ctrlAt p t).rdy = false ∧
    (ctrlAt p t).perst = (ctrlAt p s).perst := by
  exact fun p s h1 h2 h3 => ⟨_, rfl, linkReset_link p 0 s h1 h2 h3⟩

theorem completes_namespaceReady :
    ∀ (nsid : Nat) (s : State), hceUp s = true → s.sys.ready = true → s.rvr.recStep = 7 → s.xmt.san = none →
    mediaUp s = true → s.clk.xo40failed = false →
    ∃ t, exec (.namespaceReady nsid) s = .next t ∧
    ∀ x ∈ t.hce.ns, x.nsid = nsid → x.sanitizing = false → x.ready = true := by
  intro nsid s h1 h2 h3 h4 h5 h6
  refine ⟨_, rfl, fun x hx h7 h8 => ?_⟩
  simp only [h1, h2, h3, h4, h5, h6, Option.isNone_none, Bool.not_false, Bool.and_self, decide_true, Bool.and_true, if_true, State.modHce, mapIf, List.mem_map] at hx
  obtain ⟨y, hy, rfl⟩ := hx
  split
  · rfl
  · next hn => split at h7 <;> simp_all

theorem completes_resetNAssert :
    ∀ s : State, s.sys.resetNLow = false → canReset s = true →
    ∃ t, exec .resetNAssert s = .next t ∧ t.sys.resetNLow = true ∧ t.sys.seq = .resetN ∧ t.sys.coreUp = true := by
  intro s h1 h2
  refine ⟨_, rfl, ?_⟩
  simp only [h1, Bool.not_false, Bool.true_and]
  have e : canReset (s.modSys fun y => { y with resetNLow := true }) = true := h2
  rw [if_pos e]
  have k := fun u => KeepSeq_resetSteps 3 u (o := u) .refl
  simp only [canReset, Bool.and_eq_true] at h2
  exact ⟨(k _).2.1.trans rfl, (k _).1.trans rfl, (k _).2.2.trans h2.1⟩

theorem completes_coreDomainHold :
    ∀ (atLimit : Bool) (s : State), s.sys.seq ≠ .none → s.sys.held = false →
    (atLimit = true ∨ (anyLoaded s = false ∧ s.rvr.commit = false)) →
    ∃ t, exec (.coreDomainHold atLimit) s = .next t ∧ t.sys.held = true ∧ t.sys.coreUp = false ∧ t.sys.acoresUp = false ∧
    t.sys.ready = false ∧ t.tcm = [] ∧ t.pwr.state = .lit ∧ t.rvr.commit = false := by
  intro b s h1 h2 h3
  refine ⟨_, rfl, ?_⟩
  have e : (s.sys.seq != .none && !s.sys.held && (b || (!(anyLoaded s) && !s.rvr.commit))) = true := by
    rcases h3 with h3 | h3 <;> simp_all
  rw [if_pos e]
  exact ⟨rfl, rfl, rfl, rfl, rfl, rfl, rfl⟩

theorem completes_resetNRelease :
    ∀ (env : BootEnv) (s : State), s.sys.held = true →
    ∃ t, exec (.resetNRelease env) s = .next t ∧ t.sys.coreUp = true ∧ t.sys.held = false := by
  intro env s h1
  refine ⟨_, rfl, ?_⟩
  have e : (s.modSys fun y => { y with resetNLow := false }).sys.held = true := h1
  rw [if_pos e]
  exact ⟨(coldStart_up _ _).1, (coldStart_up _ _).2.1⟩

theorem completes_nvmSubsystemReset :
    ∀ (p : Fin 2) (v : Word) (s : State), v.toNat = 0x4E564D65 → hceUp s = true → (ctrlAt p s).linkUp = true →
    canReset s = true →
    ∃ t, exec (.nvmSubsystemReset p v) s = .next t ∧ t.sys.seq = .nssr ∧ t.sys.coreUp = true := by
  intro p v s h1 h2 h3 h4
  refine ⟨_, rfl, ?_⟩
  simp only [h1, h2, h3, decide_true, Bool.and_self, if_true]
  unfold subsystemReset
  rw [if_pos h4]
  dsimp only
  simp only [canReset, Bool.and_eq_true] at h4
  have k := fun u => KeepSeq_resetSteps 4 u (o := u) .refl
  have ku : KeepSeq s ([0, 1].foldl (fun (s : State) (p : Fin 2) => if portExists p s then stopController p 1 s else s) s) := by
    refine KeepSeq.foldl .refl fun v x k => ?_
    split
    · exact KeepSeq_stopController _ _ _ k
    · exact k
  exact ⟨(k _).1.trans rfl, (k _).2.2.trans (ku.2.2.trans h4.1)⟩

theorem completes_watchdogEnable :
    ∀ (m : Master) (v : Word) (s : State), Reach .sys 0 s → wdtEn s = false → Rising s.regs →
    windowOpen .sys 0 s = true →
    ∃ t, exec (.watchdogEnable m v) s = .next t ∧ wdtEn t = true ∧ t.sys.wdtAt = s.us ∧ t.sys.wdtBarked = false := by
  intro m v s h h1 h2 h3
  refine ⟨_, rfl, ?_⟩
  rw [access_reach h]
  have e : wdtEn (storeFields .wdtctl 0 0 (v.toNat ||| 2 ^ 31) s) = true := by
    rw [wdtEn, fld_bit, reg_storeFields_testBit _ _ _ _ _ h2 (by have := v.isLt; exact Nat.or_lt_two_pow this (by decide)) (by decide)]
    rw [if_pos]
    · rw [Nat.testBit_or, Nat.testBit_two_pow_self, Bool.or_true]
    · unfold writableBits; rw [if_pos (show windowOpen Reg.wdtctl.row.blk 0 s = true from h3)]; decide
  have e2 : ∀ u : State, wdtEn (useWindow .sys 0 u) = wdtEn u := fun u => by simp [wdtEn, fld, reg]
  have e3 : ∀ u : State, wdtEn (wdtRestart u) = wdtEn u := fun u => by simp [wdtEn, fld, reg, wdtRestart, State.modSys]
  rw [e2]
  simp only [writeWdtctl, h1, Bool.not_false, Bool.true_and, Bool.false_eq_true, if_false, e, if_true, e3, useWindow_sys]
  refine ⟨trivial, ?_, ?_⟩
  · exact frame_storeFields .wdtctl 0 0 _ s (m := 0x1800000110) .refl rfl .us rfl
  · rfl

theorem completes_watchdogKick :
    ∀ (m : Master) (v : Word) (s : State), Reach .sys 0 s → v.toNat = 0xD06E →
    ∃ t, exec (.watchdogKick m v) s = .next t ∧ t.sys.wdtAt = s.us ∧ t.sys.wdtBarked = false := by
  intro m v s h h1
  refine ⟨_, rfl, ?_⟩
  rw [access_reach h]
  simp [writeWdtkick, h1, wdtRestart]

theorem completes_watchdogPeriod :
    ∀ s : State, wdtRuns s = true → s.sys.wdtBarked = false →
    ∃ t, exec .watchdogPeriod s = .next t ∧ t.sys.wdtBarked = true ∧ t.us = max s.us (wdtTick (wdtPeriod s) s) ∧
    (s.us ≤ s.sys.wdtAt + 1000 * wdtPeriod s → t.us = max s.us (s.sys.wdtAt + 1000 * wdtPeriod s)) ∧
    (headerOf (Blk.sys.hdr 0) t).irqStat.getLsbD 1 = true := by
  intro s h1 h2
  refine ⟨_, rfl, ?_⟩
  simp only [h1, h2, Bool.not_false, Bool.and_self, if_true]
  have a := advanceTo_us (wdtTick (wdtPeriod s) s) s
  have b : s.us ≤ s.sys.wdtAt + 1000 * wdtPeriod s → wdtTick (wdtPeriod s) s = s.sys.wdtAt + 1000 * wdtPeriod s := by
    intro h; unfold wdtTick; omega
  generalize advanceTo _ s = u at *
  refine ⟨by simp [State.modSys], by simpa [State.modSys] using a, fun h => ?_, ?_⟩
  · rw [← b h]; simpa [State.modSys] using a
  exact irqStat_ev (irqStat_setIrqStat (by decide) (by decide) _)

theorem completes_watchdogReset :
    ∀ s : State, wdtRuns s = true → s.sys.wdtBarked = true → canReset s = true →
    ∃ t, exec .watchdogReset s = .next t ∧ t.sys.seq = .watchdog ∧ t.sys.coreUp = true := by
  intro s h1 h2 h3
  refine ⟨_, rfl, ?_⟩
  simp only [h1, h2, h3, Bool.and_self, if_true]
  have k := fun u => KeepSeq_resetSteps 5 u (o := u) .refl
  have a := KeepSeq_ev .sys 0x0E06 0 0 0 _ (KeepSeq_advanceTo (wdtTick (2 * wdtPeriod s) s) s (o := s) .refl)
  generalize ev _ _ _ _ _ _ = w at *
  simp only [canReset, Bool.and_eq_true] at h3
  exact ⟨(k _).1.trans rfl, (k _).2.2.trans (a.2.2.trans h3.1)⟩

end Sys2Proof.Machine
end

