-- ==== Sys2Proof/Laws/CompleteCache.lean ====
section
/-!
SUPPORT. Range operations of BCC that complete. One lemma for each part of a completion statement.
-/

set_option Elab.async false
set_option linter.all false

namespace Sys2Proof.Machine

theorem completes_rangeClean :
    ∀ (r : RangeOp) (s : State), RangeRuns 1 r s →
    ∃ t, exec .rangeOpDone s = .next t ∧ RangeEnded t ∧
    ∀ j < r.lines, ∀ x ∈ t.bcc.lines, x.line = r.first + j - ddrBase / 128 → x.valid = true → x.dirty = false := by
  intro r s h
  obtain ⟨t, a, b, c, -⟩ := rangeOp_settles (Q := fun x => x.valid = true → x.dirty = false) h (.inl rfl) fun l s h =>
    ⟨rfl, (cleanLine_lines l h).1, (cleanLine_lines l h).2⟩
  exact ⟨t, a, b, c⟩

theorem completes_rangeInval :
    ∀ (r : RangeOp) (s : State), RangeRuns 2 r s →
    ∃ t, exec .rangeOpDone s = .next t ∧ RangeEnded t ∧ t.mem = s.mem ∧
    ∀ j < r.lines, ∀ x ∈ t.bcc.lines, x.line = r.first + j - ddrBase / 128 → x.valid = false := by
  intro r s h
  obtain ⟨t, a, b, c, d⟩ := rangeOp_settles (Q := fun x => x.valid = false) h (.inr (.inl rfl)) fun l s h =>
    ⟨rfl, (invalLine_lines false l h).1, (invalLine_lines false l h).2⟩
  refine ⟨t, a, b, ?_, c⟩
  rw [d, (rangeResult_lines _).2]
  exact rangeLines_keep (op := 2) (f := fun s => s.mem) (fun l s => invalLine_mem l s) (rangeList r) _

theorem completes_rangeCleanInval :
    ∀ (r : RangeOp) (s : State), RangeRuns 3 r s →
    ∃ t, exec .rangeOpDone s = .next t ∧ RangeEnded t ∧
    ∀ j < r.lines, ∀ x ∈ t.bcc.lines, x.line = r.first + j - ddrBase / 128 → x.valid = false := by
  intro r s h
  obtain ⟨t, a, b, c, -⟩ := rangeOp_settles (Q := fun x => x.valid = false) h (.inr (.inr (.inl rfl))) fun l s h =>
    ⟨rfl, (invalLine_lines true l h).1, (invalLine_lines true l h).2⟩
  exact ⟨t, a, b, c⟩

theorem completes_rangeUnlock :
    ∀ (r : RangeOp) (s : State), RangeRuns 6 r s →
    ∃ t, exec .rangeOpDone s = .next t ∧ RangeEnded t ∧
    ∀ j < r.lines, ∀ x ∈ t.bcc.lines, x.line = r.first + j - ddrBase / 128 → x.locked = false := by
  intro r s h
  obtain ⟨t, a, b, c, -⟩ := rangeOp_settles (Q := fun x => x.locked = false) h (.inr (.inr (.inr rfl))) fun l s h =>
    ⟨rfl, (unlockLine_lines l h).1, (unlockLine_lines l h).2⟩
  exact ⟨t, a, b, c⟩

/-- A range operation over one line. -/
theorem rangeLines_one {op : Nat} {r : RangeOp} (h : r.lines = 1) (s : State) :
    rangeLines op (rangeList r) s = ((rangeLine op (r.first - ddrBase / 128) s).1,
      if (rangeLine op (r.first - ddrBase / 128) s).2 then (0, 0) else (1, r.first - ddrBase / 128)) := by
  unfold rangeList
  rw [h]
  show rangeLines op [r.first + 0 - ddrBase / 128] s = _
  rw [Nat.add_zero]
  unfold rangeLines rangeLines
  dsimp only
  split <;> rfl

theorem completes_rangeCleanMemory :
    ∀ (op : Nat) (r : RangeOp) (c : CLine) (s : State), op = 1 ∨ op = 3 → RangeRuns op r s → r.lines = 1 →
    bccHit (r.first - ddrBase / 128) s = some c → c.dirty = true → Rising s.mem → rawPoison c.line s = false →
    ∃ t, exec .rangeOpDone s = .next t ∧ RangeEnded t ∧ memRead (ddrBase + c.line * 128) 128 t = c.data % 2 ^ (8 * 128) := by
  intro op r c s ho h h1 h2 h3 h4 h5
  have e2 : (rangeLine op (r.first - ddrBase / 128) (s.modBcc fun b => { b with op := none })).2 = true := by
    rcases ho with rfl | rfl <;> rfl
  refine ⟨_, rangeFinish_ends h (by omega) (by rw [rangeLines_one h1, e2, if_pos rfl]), rangeResult_ended _ ?_, ?_⟩
  · exact rangeLines_keep (f := fun s => s.bcc.op) (fun l s => rangeLine_op op l s (by omega)) (rangeList r) _
  · rw [memRead_congr (rangeResult_lines _).2, rangeLines_one h1]
    dsimp only
    have hit : bccHit (r.first - ddrBase / 128) (s.modBcc fun b => { b with op := none }) = some c := h2
    have raw : rawPoison c.line (s.modBcc fun b => { b with op := none }) = false := h5
    have mr : Rising (s.modBcc fun b => { b with op := none }).mem := h4
    generalize (s.modBcc fun b => { b with op := none }) = u at *
    have hm : (writeBack c u).mem = (memWrite (ddrBase + c.line * 128) 128 c.data u).mem := by
      unfold writeBack dmcWrite
      rw [if_pos h3, Nat.mul_div_cancel _ (by decide), raw, if_neg Bool.false_ne_true]
      dsimp only
      generalize memWrite (ddrBase + c.line * 128) 128 c.data u = z
      split <;> rfl
    have key : (rangeLine op (r.first - ddrBase / 128) u).1.mem = (writeBack c u).mem := by
      rcases ho with rfl | rfl
      · show (match bccHit _ u with | some c => bccPut { c with dirty := false } (writeBack c u) | none => u).mem = _
        rw [hit]
        dsimp only
        generalize writeBack c u = z
        rfl
      · show (invalLine true _ u).mem = _
        unfold invalLine
        rw [hit]
        dsimp only
        rw [if_pos rfl]
        generalize writeBack c u = z
        split <;> rfl
    rw [memRead_congr (key.trans hm)]
    exact memRead_memWrite mr

theorem completes_rangeZero :
    ∀ (r : RangeOp) (c : CLine) (s : State), RangeRuns 4 r s → r.lines = 1 → polOf ((r.first - ddrBase / 128) * 128) s = 0 →
    bccHit (r.first - ddrBase / 128) s = some c →
    ∃ t, exec .rangeOpDone s = .next t ∧ RangeEnded t ∧ t.mem = s.mem ∧
    ∃ x ∈ t.bcc.lines, x.line = r.first - ddrBase / 128 ∧ x.data = 0 ∧ x.dirty = true ∧ x.valid = true := by
  intro r c s h h1 h2 h3
  obtain ⟨c1, c2, c3⟩ := bccHit_some h3
  have key : zeroLine (r.first - ddrBase / 128) (s.modBcc fun b => { b with op := none }) =
      bccPut { c with data := 0, dirty := true } (s.modBcc fun b => { b with op := none }) := by
    unfold zeroLine
    rw [show polOf ((r.first - ddrBase / 128) * 128) (s.modBcc fun b => { b with op := none }) = 0 from h2,
      show bccHit (r.first - ddrBase / 128) (s.modBcc fun b => { b with op := none }) = some c from h3]
    rfl
  refine ⟨_, rangeFinish_ends h (by omega) (by rw [rangeLines_one h1]; rfl), rangeResult_ended _ ?_, ?_⟩
  · rw [rangeLines_one h1]
    show (zeroLine _ _).bcc.op = none
    rw [key]; rfl
  · rw [(rangeResult_lines _).1, (rangeResult_lines _).2, rangeLines_one h1]
    show (zeroLine _ _).mem = s.mem ∧ ∃ x ∈ (zeroLine _ _).bcc.lines, _
    rw [key]
    exact ⟨rfl, _, List.mem_cons_self .., c2, rfl, rfl, c3⟩

theorem completes_rangeLock :
    ∀ (r : RangeOp) (c : CLine) (s : State), RangeRuns 5 r s → r.lines = 1 → polOf ((r.first - ddrBase / 128) * 128) s ≠ 3 →
    bccHit (r.first - ddrBase / 128) s = some c → c.way < 12 →
    ∃ t, exec .rangeOpDone s = .next t ∧ RangeEnded t ∧ t.mem = s.mem ∧
    ∃ x ∈ t.bcc.lines, x.line = r.first - ddrBase / 128 ∧ x.locked = true ∧ x.data = c.data ∧ x.dirty = c.dirty := by
  intro r c s h h1 h2 h3 h4
  obtain ⟨c1, c2, c3⟩ := bccHit_some h3
  have key : rangeLine 5 (r.first - ddrBase / 128) (s.modBcc fun b => { b with op := none }) =
      (bccPut { c with locked := true } (s.modBcc fun b => { b with op := none }), true) := by
    show lockLine _ _ = _
    unfold lockLine
    rw [if_neg (show ¬ polOf ((r.first - ddrBase / 128) * 128) (s.modBcc fun b => { b with op := none }) = 3 from h2),
      show bccHit (r.first - ddrBase / 128) (s.modBcc fun b => { b with op := none }) = some c from h3]
    dsimp only
    rw [if_pos h4]
  refine ⟨_, rangeFinish_ends h (by omega) (by rw [rangeLines_one h1, key]; rfl), rangeResult_ended _ ?_, ?_⟩
  · rw [rangeLines_one h1, key]; rfl
  · rw [(rangeResult_lines _).1, (rangeResult_lines _).2, rangeLines_one h1, key]
    exact ⟨rfl, _, List.mem_cons_self .., c2, rfl, rfl, rfl⟩

end Sys2Proof.Machine
end

