-- ==== Sys2Proof/Laws/CompleteClock.lean ====
section
/-!
SUPPORT. Thermal, trim, record, counter and calendar commands that complete. One lemma for each part of a completion statement.
-/

set_option Elab.async false
set_option linter.all false

namespace Sys2Proof.Machine

theorem completes_thmConversion :
    ∀ (readings : Vector (Option Int) 24) (wick : Int) (s : State), pdOn 2 s = true →
    ∃ t, exec (.thmConversion readings wick) s = .next t ∧ t.thm.maxValid = true ∧
    (∀ k v, hottest t = some (k, v) → t.thm.maxSens = k ∧ t.thm.maxTemp = v) := by
  intro readings wick s h1
  refine ⟨_, congrArg Host.Outcome.next (if_pos h1), ?_⟩
  unfold conversion
  generalize (hdrOf .thm 0 s).freeze = held
  dsimp only
  generalize (if held = true then takeReadings readings wick s else arrayCheck _) = c
  have hs : ∀ u : State, u.thm.sens = c.thm.sens → hottest u = hottest c := by
    intro u hu; unfold hottest sensor; rw [hu]
  generalize hm : hottest c = m at *
  rcases m with _ | ⟨k, v⟩ <;> dsimp only
  · generalize hd : State.modThm _ c = d
    obtain ⟨k1, k2, k3, k4, -, -⟩ := KeepMax_shutCount none d .refl
    refine ⟨by rw [k2, ← hd]; rfl, ?_⟩
    intro k v hk
    rw [hs _ (by rw [k1, ← hd]; rfl)] at hk
    exact absurd hk (by simp)
  · generalize hd : State.modThm _ c = d
    have q := KeepMax_shutCount (some (k, v)) (if held = true then d else stateCounts v d) (.ite .refl (KeepMax_stateCounts v d .refl))
    generalize shutCount (some (k, v)) (if held = true then d else stateCounts v d) = e at *
    have kd : KeepMax d (if (decide (criticalTemp ≤ v) && e.thm.critical.isNone) = true then criticalLimit v k e else e) :=
      .ite (KeepMax_criticalLimit _ _ _ q) q
    generalize (if (decide (criticalTemp ≤ v) && e.thm.critical.isNone) = true then criticalLimit v k e else e) = g at *
    obtain ⟨k1, k2, k3, k4, -, -⟩ := kd
    refine ⟨by rw [k2, ← hd]; rfl, ?_⟩
    intro k' v' hk
    rw [hs _ (by rw [k1, ← hd]; rfl)] at hk
    cases hk
    rw [k3, k4, ← hd]
    exact ⟨rfl, rfl⟩

theorem completes_criticalDarkEntry :
    ∀ (temp : Int) (k : Nat) (s : State), s.thm.critical = some (temp, k) →
    ∃ t, exec .criticalDarkEntry s = .next t ∧ t.pwr.state = .dark ∧ t.pwr.darkCritical = true := by
  intro temp k s h1
  refine ⟨_, rfl, ?_⟩
  generalize hu : (if s.thm.critical.isSome && anyLoaded s then elapse 250000 s else s) = u
  have e : u.thm.critical = some (temp, k) := by
    rw [← hu]; split
    · rw [frame_elapse 250000 s (m := 0x7800000B12) .refl rfl .thm rfl]; exact h1
    · exact h1
  unfold criticalDark
  rw [e]
  exact ⟨rfl, rfl⟩

theorem completes_criticalWake :
    ∀ (env : BootEnv) (s : State), s.pwr.state = .dark → s.pwr.darkCritical = true → s.sys.railsGood = true →
    s.sys.resetNLow = false →
    ∃ t, exec (.criticalWake env) s = .next t ∧ t.us = s.us + 10000000 ∧ t.sys.coreUp = true ∧
    t.thm.wickTemp < 4 * (thrShut (elapse 10000000 s) - 10) := by
  intro env s h1 h2 h3 h4
  refine ⟨_, rfl, ?_⟩
  rw [h1, h2, if_pos (by decide)]
  have e1 : (elapse 10000000 s).sys.railsGood = true ∧ (elapse 10000000 s).sys.resetNLow = false := by
    rw [elapse_sys]; exact ⟨h3, h4⟩
  have e2 := elapse_us 10000000 s
  generalize hu : elapse 10000000 s = u at *
  dsimp only
  rw [if_pos (by exact e1.1)]
  generalize hw : wakeRecord _ _ _ = w
  have f1 : ∃ p, w = wakeRecord 0x80 p (((u.drawn.modThm fun x => { x with wickTemp := 4 * (thrShut u - 10) - 1 - draw 560 u }).modPwr fun p => { p with darkCritical := false }).drawn) := ⟨_, hw.symm⟩
  obtain ⟨p, f1⟩ := f1
  generalize hv : State.drawn (State.modPwr _ _) = v at f1
  have g1 : w.sys = v.sys := by rw [f1]; exact frame_wakeRecord 0x80 p v (m := 0x1800000900) .refl rfl .sys rfl
  have g2 : w.thm = v.thm := by rw [f1]; exact frame_wakeRecord 0x80 p v (m := 0x1800000900) .refl rfl .thm rfl
  have g3 : w.us = v.us := by rw [f1]; exact frame_wakeRecord 0x80 p v (m := 0x1800000900) .refl rfl .us rfl
  have c1 := frame_coldStart env w (m := 0x18E00BAFB0) .refl rfl .us rfl
  have c2 := frame_coldStart env w (m := 0x18E00BAFB0) .refl rfl .thm rfl
  have c3 := coldStart_up env w
  unfold startCore
  rw [if_neg (by rw [g1, ← hv]; change ¬ u.sys.resetNLow = true; rw [e1.2]; decide)]
  refine ⟨by rw [c1, g3, ← hv]; exact e2, c3.1, ?_⟩
  rw [c2, g2, ← hv]
  change (4 * (thrShut u - 10) - 1 - (draw 560 u : Int)) < _
  have : (0 : Int) ≤ draw 560 u := Int.natCast_nonneg _
  omega

theorem completes_clrshut :
    ∀ (m : Master) (s : State), Reach .thm 0 s → s.thm.shut = true → s.thm.maxTemp < 4 * thrShut s - hystShut s →
    ∃ t, exec (.clrshut m) s = .next t ∧ t.thm.shut = false ∧ t.thm.shutSeq = false ∧ t.thm.cShut = 0 := by
  intro m s h h1 h2
  refine ⟨_, rfl, ?_⟩
  rw [access_reach h, useWindow_thm]
  unfold writeThmCmd
  dsimp only
  rw [if_pos (by decide), if_neg (by decide)]
  unfold clrShut
  rw [if_neg (by rw [h1]; decide), if_pos h2]
  extract_lets a b c
  have hc : c.thm = { s.thm with shut := false, shutSeq := false, cShut := 0 } := by
    have hb : b.thm = { s.thm with shut := false, shutSeq := false, cShut := 0 } := ev_thm _ _ _ _ _ a
    change State.thm (if _ then _ else b) = _
    split
    · rw [frame_walkQueue _ (m := 0x6000) .refl rfl .thm rfl, frame_openClasses b (m := 0x4000) .refl rfl .thm rfl]; exact hb
    · exact hb
  clear_value c
  split
  · change _ ∧ _ ∧ _
    simp only [State.modHce, State.modRvr, hc]; exact ⟨trivial, trivial, trivial⟩
  · change _ ∧ _ ∧ _
    simp only [State.modHce, State.modLgr, hc]; exact ⟨trivial, trivial, trivial⟩

theorem completes_clrexcl :
    ∀ (m : Master) (s : State), Reach .thm 0 s →
    ∃ t, exec (.clrexcl m) s = .next t ∧ t.thm.clrExcl = true := by
  intro m s h
  refine ⟨_, rfl, ?_⟩
  rw [access_reach h, useWindow_thm]
  rfl

theorem completes_trimCompute :
    ∀ (stats : List (Nat × Nat × Int)) (s : State), pdOn 2 s = true → heldBlk .trm 0 s = false →
    ∃ t, exec (.trimCompute stats) s = .next t ∧ t.regs = s.regs ∧
    (∀ k < 137, trimExists k s = true → TrimTargeted k t) ∧
    (∀ k < 137, trimExists k s = true → fld .trmComp2 0 k 16 16 s = 0 → (trimAt k t).comp = 0) := by
  intro stats s h1 h2
  refine ⟨_, rfl, ?_⟩
  rw [h1, h2, if_pos (by decide)]
  refine ⟨foldl_keep State.regs _ ?_ _ _, ?_, ?_⟩
  · intro u t
    dsimp only
    split
    · exact trimStep_regs t _ _ u
    · rfl
  · intro k hk hx
    refine foldl_last (P := fun u => u.regs = s.regs ∧ u.sys = s.sys) (Q := TrimTargeted k) (k := k)
      ⟨rfl, rfl⟩ ?_ ?_ ?_ (List.mem_range.mpr hk)
    · intro u t ⟨p1, p2⟩
      dsimp only
      split
      · exact ⟨(trimStep_regs t _ _ u).trans p1, (trimStep_sys t _ _ u).trans p2⟩
      · exact ⟨p1, p2⟩
    · intro u ⟨p1, p2⟩
      dsimp only
      have hu : ∀ w : State, w.sys = u.sys → trimExists k w = true := by
        intro w hw
        unfold trimExists at hx ⊢; unfold chanExists at hx ⊢; rw [hw, p2]; exact hx
      rw [if_pos (hu u rfl)]
      exact retarget_targeted (hu _ (frame_computeAuto _ _ _ _ (m := 0x1A00000180) (frame_computeComp _ u .refl rfl) rfl .sys rfl))
    · intro u t hne hz
      dsimp only
      split
      · exact hz.congr ((retarget_other hne).trans ((computeAuto_other hne).trans (computeComp_other hne))) (trimStep_regs t _ _ u)
      · exact hz
  · intro k hk hx he
    refine foldl_last (P := fun u => u.regs = s.regs ∧ u.sys = s.sys) (Q := fun u => (trimAt k u).comp = 0) (k := k)
      ⟨rfl, rfl⟩ ?_ ?_ ?_ (List.mem_range.mpr hk)
    · intro u t ⟨p1, p2⟩
      dsimp only
      split
      · exact ⟨(trimStep_regs t _ _ u).trans p1, (trimStep_sys t _ _ u).trans p2⟩
      · exact ⟨p1, p2⟩
    · intro u ⟨p1, p2⟩
      dsimp only
      rw [if_pos (by unfold trimExists at hx ⊢; unfold chanExists at hx ⊢; rw [p2]; exact hx)]
      refine (retarget_comp k k _).trans ((computeAuto_comp k _ _ _).trans ?_)
      exact computeComp_zero (by have := he; unfold fld reg at *; rw [p1]; exact this)
    · intro u t hne hz
      dsimp only
      split
      · refine Eq.trans (congrArg Trim.comp ((retarget_other hne).trans ((computeAuto_other hne).trans (computeComp_other hne)))) hz
      · exact hz

theorem completes_taperStep :
    ∀ (k : Fin 137) (s : State), pdOn 2 s = true → heldBlk .trm 0 s = false → trimPending k s = true →
    opportunity k s = true →
    ∃ t, exec (.taperStep k) s = .next t ∧ (trimAt k t).target = (trimAt k s).target ∧
    ((trimAt k t).target - (trimAt k t).code : Int).natAbs < ((trimAt k s).target - (trimAt k s).code : Int).natAbs ∧
    (trimAt k t).last = some t.us := by
  intro k s h1 h2 h3 h4
  refine ⟨_, rfl, ?_⟩
  rw [h1, h2, h3, h4, if_pos (by decide)]
  exact stepTrim_step h3

theorem completes_trimAge :
    ∀ (k : Fin 137) (i : Nat) (s : State), (trimAt k s).since = some i → (trimAt k s).aged = false → pdOn 2 s = true →
    heldBlk .trm 0 s = false →
    ∃ t, exec (.trimAge k) s = .next t ∧ (trimAt k t).aged = true ∧
    t.us = max s.us (i + zeroAsOne (fld .trmCfg 0 0 23 16 s) * 1000000) := by
  intro k i s h1 h2 h3 h4
  have key : execTrimAge k s = .next (trimAgeAt k (i + zeroAsOne (fld .trmCfg 0 0 23 16 s) * 1000000) s) := by
    unfold execTrimAge trimAgeAt
    dsimp only
    rw [h1]
    dsimp only
    rw [h2, h3, h4, if_pos (by decide)]
  generalize hw : i + zeroAsOne (fld .trmCfg 0 0 23 16 s) * 1000000 = w at *
  exact ⟨_, key, trimAgeAt_aged k w s, trimAgeAt_us k w s⟩

theorem completes_eventStore :
    ∀ (e : Event) (rest : List Event) (s : State), heldBlk .evr 0 s = false → s.evr.queue = e :: rest →
    s.evr.flood = none → s.evr.period < floodOn s → s.evr.opn = false → isCandle s = false →
    (rest ≠ [] ∨ s.evr.lostNow = 0) →
    ∃ t x, exec .eventStore s = .next t ∧ t.evr.queue = rest ∧ t.evr.next = s.evr.next + 1 ∧
    heldRec s.evr.next t = some x ∧ x.seq = s.evr.next ∧ x.code = e.code ∧ x.src = e.src ∧ x.sec = e.sec ∧
    x.usec = e.usec ∧ x.p0 = e.p0 ∧ x.p1 = e.p1 ∧ x.p2 = e.p2 := by
  intro e rest s h1 h2 h3 h4 h5 h6 h7
  have a : execEventStore s = .next (drained (storeEvent e (s.modEvr fun v => { v with queue := rest }))) := by
    unfold execEventStore
    rw [h1, if_neg (by decide), h2]
  generalize hu : (s.modEvr fun v => { v with queue := rest }) = u at a
  have e1 : u.evr = { s.evr with queue := rest } := by rw [← hu]; rfl
  have e2 : storeEvent e u = storeRec e u := by
    unfold storeEvent
    rw [e1]
    dsimp only
    rw [h3]
    dsimp only
    exact storeCount_eq (by rw [e1]; exact h5) (by rw [e1]; exact h3) (by rw [e1, ← hu]; exact h4)
  have e3 := storeRec_run (e := e) (s := u) (by unfold canStore; rw [e1]; dsimp only; rw [h5]; rfl) (by rw [e1]; exact h5) (by rw [← hu]; exact h6)
  have n := storeRec_num (e := e) (s := u) (by rw [e1]; exact h5)
  rw [e2] at a
  generalize hx : Event.mk _ _ _ _ _ _ _ _ _ = x at e3
  have q : (storeRec e u).evr.queue = rest ∧ (storeRec e u).evr.lostNow = s.evr.lostNow := by
    rw [e3]
    unfold placeRec
    split
    · exact ⟨by change u.evr.queue = _; rw [e1], by change u.evr.lostNow = _; rw [e1]⟩
    · exact ⟨by change u.evr.queue = _; rw [e1], by change u.evr.lostNow = _; rw [e1]⟩
  have hr : heldRec s.evr.next (storeRec e u) = some x := by
    have : x.seq = s.evr.next := by rw [← hx]; change u.evr.next = _; rw [e1]
    rw [e3, ← this]; exact heldRec_placeRec _ _
  generalize storeRec e u = v at *
  have d : drained v = v := by
    unfold drained
    rw [if_neg]
    rw [q.1, q.2]
    intro hh
    rw [Bool.and_eq_true, Bool.and_eq_true] at hh
    rcases h7 with h7 | h7
    · exact h7 (by simpa using hh.1.1)
    · rw [h7] at hh; exact absurd hh.1.2 (by decide)
  rw [d] at a
  refine ⟨v, x, a, q.1, by rw [n.1, e1], hr, ?_, ?_⟩
  · rw [← hx]; change u.evr.next = _; rw [e1]
  · rw [← hx]; exact ⟨rfl, rfl, rfl, rfl, rfl, rfl, rfl⟩

theorem completes_eventRaiseSw :
    ∀ (m : Master) (v : Word) (s : State), Reach .evr 0 s → v.getLsbD 31 = true → EventRoom s →
    ∃ t, exec (.eventRaiseSw m v) s = .next t ∧ Recorded (bits v.toNat 15 0) t := by
  intro m v s h h1 h2
  refine ⟨_, rfl, ?_⟩
  rw [access_reach h]
  unfold writeSwev
  dsimp only
  rw [if_pos (by exact h1), recorded_congr (useWindow_evr _ _ _)]
  unfold EventRoom at h2
  exact recorded_recordEvent (by rw [evr_storeFields (by decide)]; omega)

theorem completes_floodPeriod :
    ∀ s : State, heldBlk .evr 0 s = false →
    (s.evr.flood = none → ∃ t, exec .floodPeriod s = .next t ∧ t.evr.period = 0 ∧ t.evr.flood = none) ∧
    (∀ f, s.evr.flood = some f → floodOn s / 16 < s.evr.period →
    ∃ t, exec .floodPeriod s = .next t ∧ t.evr.period = 0 ∧ t.evr.flood = some { f with secs := f.secs + 1 }) := by
  intro s h1
  refine ⟨fun h2 => ⟨_, rfl, ?_⟩, fun f h2 h3 => ⟨_, rfl, ?_⟩⟩
  · rw [h1, if_neg (by decide), h2]; exact ⟨rfl, h2⟩
  · rw [h1, if_neg (by decide), h2]
    dsimp only
    rw [if_neg (by omega)]
    exact ⟨rfl, rfl⟩

theorem completes_evrNextRead :
    ∀ (m : Master) (s : State), Reach .evr 0 s →
    ∃ t, exec (.evrNextRead m) s = .next t ∧ t.busData = s.evr.next % 2 ^ 32 ∧
    t.evr.hold = some (s.evr.next / 2 ^ 32, evrOldest s % 2 ^ 32, evrOldest s / 2 ^ 32, evrStat s) := by
  intro m s h
  refine ⟨_, rfl, ?_⟩
  rw [access_reach h, useWindow_evr, useWindow_busData]
  exact ⟨rfl, rfl⟩

theorem completes_evrCursorWrite :
    ∀ (m : Master) (v : Word) (s : State), Reach .evr 0 s →
    ∃ t, exec (.evrCursorWrite m v) s = .next t ∧ t.evr.cur = s.evr.cur % 2 ^ 32 + v.toNat % 2 ^ 32 * 2 ^ 32 ∧
    t.evr.winDone = true := by
  intro m v s h
  refine ⟨_, rfl, ?_⟩
  rw [access_reach h, useWindow_evr]
  unfold writeCur
  rw [if_pos rfl, (loadWindow_cur _).1, (loadWindow_cur _).2, modEvr_cur]
  exact ⟨rfl, rfl⟩

theorem completes_evrWindowAdvance :
    ∀ (m : Master) (s : State), Reach .evr 0 s → s.evr.cur.testBit 62 = true →
    ∃ t, exec (.evrWindowAdvance m) s = .next t ∧ t.busData = bits s.evr.win 255 224 ∧
    t.evr.cur = s.evr.cur / 2 ^ 62 * 2 ^ 62 + (s.evr.cur + 1) % 2 ^ 62 ∧ t.evr.winDone = true := by
  intro m s h h1
  refine ⟨_, rfl, ?_⟩
  rw [access_reach h, useWindow_evr, useWindow_busData]
  unfold readWin7
  dsimp only
  rw [if_pos h1, loadWindow_bus, (loadWindow_cur _).1, (loadWindow_cur _).2, modEvr_cur]
  exact ⟨rfl, rfl, rfl⟩

theorem completes_evrBaseWrite :
    ∀ (m : Master) (v : Word) (s : State), Reach .evr 0 s → s.evr.opn = true → s.evr.stored = false →
    windowOpen .evr 0 s = true →
    (∃ t, exec (.evrBaseWrite m true v) s = .next t ∧ t.evr.base = s.evr.base % 2 ^ 32 + v.toNat % 2 ^ 32 * 2 ^ 32) ∧
    (∃ t, exec (.evrBaseWrite m false v) s = .next t ∧ t.evr.base = s.evr.base / 2 ^ 32 * 2 ^ 32 + v.toNat % 2 ^ 32) := by
  intro m v s h h1 h2 h3
  have key : ∀ hi, (access .evr 0 (Reg.addr .evrBase 0 (if hi = true then 1 else 0)) (writeBase hi v.toNat) s).evr.base =
      if hi = true then s.evr.base % 2 ^ 32 + v.toNat % 2 ^ 32 * 2 ^ 32 else s.evr.base / 2 ^ 32 * 2 ^ 32 + v.toNat % 2 ^ 32 := by
    intro hi
    rw [access_reach h, useWindow_evr]
    unfold writeBase guarded
    dsimp only
    rw [h1, h2, h3]
    simp only [Bool.not_true, Bool.false_eq_true, if_false, Bool.and_false]
    rfl
  exact ⟨⟨_, rfl, key true⟩, ⟨_, rfl, key false⟩⟩

theorem completes_evrStore :
    ∀ (m : Master) (s : State), Reach .evr 0 s → s.evr.opn = true → (wordRec s.evr.win).seq < s.evr.base →
    ((wordRec s.evr.win).seq < 4096 ∨ s.evr.base + 1024 ≤ (wordRec s.evr.win).seq + 65536) →
    heldRec (wordRec s.evr.win).seq s = none →
    ∃ t, exec (.evrStore m) s = .next t ∧ heldRec (wordRec s.evr.win).seq t = some (wordRec s.evr.win) ∧
    t.evr.stored = true := by
  intro m s h h1 h2 h3 h4
  refine ⟨_, rfl, ?_⟩
  rw [access_reach h]
  have e : evrStore s = placeRec (wordRec s.evr.win) (s.modEvr fun v => { v with stored := true }) := by
    unfold evrStore
    dsimp only
    rw [if_neg (by rw [h1]; decide), if_neg (by omega), h4]
  rw [e, heldRec_congr (useWindow_evr _ _ _), useWindow_evr]
  refine ⟨heldRec_placeRec _ _, ?_⟩
  unfold placeRec; split <;> rfl

theorem completes_evrCommit :
    ∀ (m : Master) (s : State), Reach .evr 0 s → s.evr.opn = true → s.evr.flood = none → s.evr.period < floodOn s →
    ∃ t, exec (.evrCommit m) s = .next t ∧ t.evr.opn = false ∧ t.evr.staged = [] ∧
    t.evr.next = s.evr.base + s.evr.staged.length + 1 := by
  intro m s h h1 h2 h3
  refine ⟨_, rfl, ?_⟩
  rw [access_reach h, useWindow_evr]
  unfold evrCommit
  rw [if_neg (by rw [h1]; decide)]
  extract_lets st base a b
  obtain ⟨k1, k2, k3, k4, k5, k6, k7⟩ := KeepNum_numberStaged st base s .refl
  have fb : floodOn b = floodOn s := by
    unfold floodOn fld reg
    rw [show b.regs = s.regs from frame_numberStaged st base s (m := 0x5800000100) .refl rfl .regs rfl]
  have b1 : b.evr.opn = false := rfl
  have b2 : b.evr.flood = none := k3.trans h2
  have b3 : b.evr.period = s.evr.period := k4
  have b4 : b.evr.next = base + st.length := rfl
  have b5 : b.evr.staged = [] := rfl
  clear_value b a
  rw [storeCount_eq b1 b2 (by rw [fb, b3]; exact h3)]
  have n := storeRec_num (e := ownEvent 0x0E50 st.length b.evr.founding.length 0 b) b1
  refine ⟨n.2.1, n.2.2.2.2.trans b5, ?_⟩
  rw [n.1, b4]
  have : st.length = s.evr.staged.length := List.length_reverse
  rw [this]

theorem completes_lifAdd :
    ∀ (m : Master) (v : Word) (s : State), Reach .lif 0 s → Rising s.lif.cnt → v.getLsbD 31 = true →
    (lifHw (bits v.toNat 7 0) = true → s.lif.opn = true) → s.lif.sat.contains (bits v.toNat 7 0) = false →
    sget 0 (bits v.toNat 7 0) s.lif.cnt + (reg .lifAddlo 0 0 s + reg .lifAddhi 0 0 s * 2 ^ 32) < 2 ^ 64 →
    ∃ t, exec (.lifAdd m v) s = .next t ∧ sget 0 (bits v.toNat 7 0) t.lif.cnt =
    sget 0 (bits v.toNat 7 0) s.lif.cnt + (reg .lifAddlo 0 0 s + reg .lifAddhi 0 0 s * 2 ^ 32) := by
  intro m v s h h1 h2 h3 h4 h5
  refine ⟨_, rfl, ?_⟩
  rw [access_reach h, useWindow_lif]
  unfold writeAddgo
  dsimp only
  rw [if_pos (by exact h2), if_neg (by
    intro hh
    rw [Bool.and_eq_true] at hh
    rw [h3 hh.1] at hh; exact absurd hh.2 (by decide)), lifBump_cnt h4 h5]
  exact sget_sput _ _ _ h1

theorem completes_lifSeal :
    ∀ (m : Master) (s : State), Reach .lif 0 s → ∃ t, exec (.lifSeal m) s = .next t ∧ t.lif.opn = false := by
  intro m s h
  refine ⟨_, rfl, ?_⟩
  rw [access_reach h, useWindow_lif]
  rfl

theorem completes_lifSnap :
    ∀ (m : Master) (s : State), Reach .lif 0 s →
    ∃ t, exec (.lifSnap m) s = .next t ∧ t.lif.shCnt = s.lif.cnt ∧ t.lif.shSat = s.lif.sat ∧ t.lif.shSec = s.cal.sec := by
  intro m s h
  refine ⟨_, rfl, ?_⟩
  rw [access_reach h, useWindow_lif]
  exact ⟨rfl, rfl, rfl⟩

theorem completes_lifTick :
    ∀ s : State, heldBlk .lif 0 s = false → Rising s.lif.cnt → s.pwr.state = .lit → s.sys.railsGood = true →
    s.lif.sat.contains 0 = false → s.lif.sat.contains 1 = false → sget 0 0 s.lif.cnt + 1 < 2 ^ 64 →
    sget 0 1 s.lif.cnt + 1 < 2 ^ 64 →
    ∃ t, exec .lifTick s = .next t ∧ sget 0 0 t.lif.cnt = sget 0 0 s.lif.cnt + 1 ∧
    sget 0 1 t.lif.cnt = sget 0 1 s.lif.cnt + 1 := by
  intro s h1 h2 h3 h4 h5 h6 h7 h8
  refine ⟨_, rfl, ?_⟩
  rw [h1, if_neg (by decide), h3, h4]
  dsimp only
  rw [if_pos rfl, List.append_assoc, List.foldl_append]
  have o : ∀ x ∈ (if s.thm.warn = true then [20] else []) ++ (if s.thm.throt = true then [21] else []), x = 20 ∨ x = 21 := by
    intro x hx
    rw [List.mem_append] at hx
    rcases hx with hx | hx <;> split at hx <;> simp at hx <;> omega
  generalize (if s.thm.warn = true then [20] else []) ++ (if s.thm.throt = true then [21] else []) = l at *
  have e : ([0] ++ [1] : List Nat).foldl (fun s i => lifBump i 1 s) s = lifBump 1 1 (lifBump 0 1 s) := rfl
  rw [e]
  have a := lifBump_cnt h5 h7
  have a2 := lifBump_sat h5 h7
  have hs1 : sget 0 1 (lifBump 0 1 s).lif.cnt = sget 0 1 s.lif.cnt := by rw [a]; exact sget_sput_ne _ _ _ (by decide)
  have b := lifBump_cnt (k := 1) (a := 1) (s := lifBump 0 1 s) (by rw [a2]; exact h6) (by rw [hs1]; exact h8)
  refine ⟨?_, ?_⟩
  · rw [lifBumps_other (by intro x hx; rcases o x hx with rfl | rfl <;> decide), b, sget_sput_ne _ _ _ (by decide), a]
    exact sget_sput _ _ _ h2
  · rw [lifBumps_other (by intro x hx; rcases o x hx with rfl | rfl <;> decide), b, hs1]
    exact sget_sput _ _ _ (by rw [a]; exact h2.sput)

theorem completes_calRead :
    ∀ (m : Master) (s : State), Reach .cal 0 s →
    ∃ t, exec (.calRead m) s = .next t ∧ t.busData = s.cal.usec ∧ t.cal.hSec = s.cal.sec := by
  intro m s h
  refine ⟨_, rfl, ?_⟩
  rw [access_reach h, useWindow_cal, useWindow_busData]
  exact ⟨rfl, rfl⟩

theorem completes_calSet :
    ∀ (m : Master) (v : Word) (s : State), Reach .cal 0 s → v.getLsbD 0 = true → fld .calSetusec 0 0 19 0 s ≤ 999999 →
    ∃ t, exec (.calSet m v) s = .next t ∧
    t.cal.sec = reg .calSetsec0 0 0 s + fld .calSetsec1 0 0 15 0 s * 2 ^ 32 ∧
    t.cal.usec = fld .calSetusec 0 0 19 0 s ∧ t.cal.src = bits v.toNat 6 4 % 8 ∧ t.cal.adjRem = 0 ∧
    t.cal.rcSince = false := by
  intro m v s h h1 h2
  refine ⟨_, rfl, ?_⟩
  rw [access_reach h, useWindow_cal]
  unfold writeCalCmd
  rw [if_pos (by exact h1)]
  unfold calSet
  extract_lets us sec old d step s1 s2 s3
  have c3 : s3.cal = { s.cal with sec := sec, usec := us, src := bits v.toNat 6 4 % 8, rcSince := false, adjRem := 0, slewFrac := 0 } :=
    ev_cal _ _ _ _ _ _
  clear_value s3
  rw [if_neg (by omega)]
  have k : ∀ w : State, w.cal = s3.cal → w.cal.sec = sec ∧ w.cal.usec = us ∧ w.cal.src = bits v.toNat 6 4 % 8 ∧ w.cal.adjRem = 0 ∧ w.cal.rcSince = false := by
    intro w hw
    rw [hw, c3]
    exact ⟨rfl, rfl, rfl, rfl, rfl⟩
  apply k
  split
  · split
    · exact frame_fireAlarm s3 (m := 0x1800000910) .refl rfl .cal rfl
    · rfl
  · rfl

theorem completes_calAdjust :
    ∀ (m : Master) (v : Word) (s : State), Reach .cal 0 s → v.getLsbD 31 = true →
    ∃ t, exec (.calAdjust m v) s = .next t ∧ t.cal.adjRem = signed 24 v.toNat := by
  intro m v s h h1
  refine ⟨_, rfl, ?_⟩
  rw [access_reach h, useWindow_cal]
  unfold writeCalAdj
  dsimp only
  rw [if_pos (by exact h1)]
  unfold calAdj
  dsimp only
  split
  · rw [setIrqStat_cal]
  · rfl

theorem completes_slewDone :
    ∀ s : State, calRuns s → s.cal.adjRem ≠ 0 → ∃ t, exec .slewDone s = .next t ∧ t.cal.adjRem = 0 := by
  intro s hr h
  have key : execSlewDone s = .next (elapse ((s.cal.adjRem.natAbs * 1000000 - s.cal.slewFrac + slewPpm s - 1) / slewPpm s) s) := by
    unfold execSlewDone
    rw [if_neg h]
  refine ⟨_, key, elapse_slew hr h ?_⟩
  have hp : 1 ≤ slewPpm s := zeroAsOne_pos _
  generalize s.cal.adjRem.natAbs * 1000000 = A
  generalize s.cal.slewFrac = F
  generalize slewPpm s = p at *
  have hd := Nat.div_add_mod (A - F + p - 1) p
  have hm := Nat.mod_lt (A - F + p - 1) hp
  rw [Nat.mul_comm] at hd
  omega

theorem completes_calAlarm :
    ∀ (a : Nat) (s : State), calRuns s → Rising s.regs → alarmAt s = some a → s.cal.sec < a → a < 2 ^ 48 →
    s.cal.usec < 1000000 → s.cal.adjRem = 0 →
    ∃ t, exec .calAlarm s = .next t ∧ t.cal.sec = a ∧ t.cal.usec = 0 ∧ alarmAt t = none ∧
    (s.pwr.state ≠ .lit → s.pwr.active = 0 → (wakeEnabled s).testBit 5 = true → t.pwr.active.testBit 5 = true) := by
  intro a s hr h6 h1 h2 h3 h4 h5
  have key : execCalAlarm s = .next (elapse (a * 1000000 - (s.cal.sec * 1000000 + s.cal.usec)) s) := by
    unfold execCalAlarm
    rw [h1]
    dsimp only
    rw [if_pos h2, h5, if_pos rfl]
  exact ⟨_, key, elapse_alarm hr h1 h2 h3 h4 h5 h6⟩

end Sys2Proof.Machine
end

