-- ==== Sys2Proof/Laws/CompleteCore.lean ====
section
/-!
SUPPORT. Durability, task, sequencer and channel commands that complete. One lemma for each part of a completion statement.
-/

set_option Elab.async false
set_option linter.all false

namespace Sys2Proof.Machine

theorem migVoid_evr (m : Mig) (s : State) : (migVoid m s).evr =
    (ev .xmt 0x0221 m.idx 0 0 (setMig m.zone m.idx false (releaseReader m.ord s))).evr := by
  unfold migVoid
  exact frame_freeSlots _ _ (m := 0x30000) (frame_State_modXmt _ _ (frame_State_modLgr _ _ .refl rfl) rfl) rfl .evr rfl

theorem migVoid_migAt (m : Mig) (s : State) : migAt m.zone m.idx (migVoid m s) = none := by
  unfold migAt
  rw [List.find?_eq_none]
  intro x hx
  have := (List.mem_filter.mp hx).2
  rw [Bool.not_eq_true'] at this
  rw [this]; decide

theorem completes_nsdomWrite :
    ∀ (m : Master) (k : Fin 64) (v : Word) (s : State), Reach .xmt 0 s → Rising s.regs → liveEntries k s = 0 →
    ∃ t, exec (.nsdomWrite m k v) s = .next t ∧
    reg .nsdom 0 k t = (reg .nsdom 0 k s &&& ((2 ^ 32 - 1) ^^^ writableBits .nsdom 0 s)) ||| (v.toNat &&& writableBits .nsdom 0 s) := by
  intro m k v s h h1 h2
  refine ⟨_, rfl, ?_⟩
  rw [access_reach h]
  simp only [writeNsdom, h2, bne_self_eq_false, Bool.and_false, Bool.false_eq_true, if_false]
  exact reg_storeFields _ _ _ _ h1 v.isLt

theorem completes_nsdomWriteRefused :
    ∀ (m : Master) (k : Fin 64) (v : Word) (s : State), Reach .xmt 0 s → EventRoom s → liveEntries k s ≠ 0 →
    windowOpen .xmt 0 s = true →
    ∃ t, exec (.nsdomWrite m k v) s = .next t ∧ t.regs = s.regs ∧ Recorded 0x0203 t := by
  intro m k v s h h1 h2 h3
  refine ⟨_, rfl, ?_⟩
  rw [access_reach h]
  have e : (liveEntries k s != 0) = true := by simpa using h2
  simp only [writeNsdom, h3, e, Bool.and_self, if_true]
  exact ⟨by simp, recorded_ev (by unfold EventRoom at h1; simp only [State.modHdr]; omega)⟩

theorem completes_lgrWinGo :
    ∀ (m : Master) (v : Word) (e : LEntry) (s : State), Reach .lgr 0 s →
    s.lgr.entries.find? (·.idx == bits v.toNat 12 0) = some e →
    ∃ t, exec (.lgrWinGo m v) s = .next t ∧ t.lgr.wdata = entryWord e ∧ t.lgr.entries = s.lgr.entries := by
  intro m v e s h h1
  refine ⟨_, rfl, ?_⟩
  rw [access_reach h]
  have hb : bits (v.toNat ||| 2 ^ 31) 12 0 = bits v.toNat 12 0 := by
    unfold bits
    show (v.toNat ||| 2 ^ 31) % 2 ^ 13 = v.toNat % 2 ^ 13
    rw [Nat.or_mod_two_pow]
    show v.toNat % 2 ^ 13 ||| 0 = _
    simp only [Nat.or_zero]
  have ht : (v.toNat ||| 2 ^ 31).testBit 31 = true := by rw [Nat.testBit_or, show Nat.testBit (2 ^ 31) 31 = true from rfl, Bool.or_true]
  have hl : (storeFields .lgrWin 0 0 (v.toNat ||| 2 ^ 31) s).lgr = s.lgr :=
    frame_storeFields _ _ _ _ s (m := 0x1800000110) .refl rfl .lgr rfl
  unfold writeLgrWin
  simp only [ht, if_true, hb, hl, h1]
  have k : ∀ u : State, (useWindow .lgr 0 u).lgr = u.lgr := fun u => frame_useWindow _ _ u (m := 0x100) .refl rfl .lgr rfl
  simp only [k, State.modLgr]
  exact ⟨trivial, by rw [hl]⟩

theorem completes_journalBlockDurable :
    ∀ (s : State), xmtUp s = true → s.hce.cmds = [] → s.lgr.entries = [] → s.xmt.ckPend = none → s.xmt.migs = [] →
    s.xmt.rewrites = [] → s.xmt.san = none → (s.xmt.journal.filter fun r => !r.durable).length ≤ 64 →
    (∀ r, (s.xmt.journal.filter fun r => !r.durable).getLast? = some r → r.last = true) →
    ∃ t, exec (.journalBlockDurable []) s = .next t ∧ t.xmt.journal.length = s.xmt.journal.length ∧
    ∀ r ∈ t.xmt.journal, r.durable = true := by
  intro s h1 h4 h5 h6 hm hr h8 h7 hl
  refine ⟨_, rfl, ?_⟩
  simp only [h1, if_true]
  have e0 : startRewrites s = s.modXmt fun y => { y with rewrites := [] } := by unfold startRewrites; rw [hr]; rfl
  have e1 : logReady (startRewrites s) = startRewrites s := by rw [e0]; unfold logReady; dsimp only [State.modXmt]; rw [h5]; rfl
  generalize hu : blockDurable (startRewrites s) = u
  have u1 : u.xmt = { (blockDurable s).xmt with rewrites := [] } := by rw [← hu, e0]; rfl
  have u2 : u.hce = s.hce := by rw [← hu, e0]; rfl
  have v1 : migsDone (writesDurable u) = writesDurable u := by
    unfold migsDone
    rw [show (writesDurable u).xmt.migs = [] from (congrArg Xmt.migs u1).trans hm]; rfl
  have v2 : ckptDurable (writesDurable u) = writesDurable u := by
    unfold ckptDurable
    rw [show (writesDurable u).xmt.ckPend = none from (congrArg Xmt.ckPend u1).trans h6]
  have k : (journalBlock [] s).xmt = u.xmt ∧ (journalBlock [] s).hce = u.hce := by
    unfold journalBlock settleJournal
    simp only [List.foldl_nil, e1, hu, v1, v2]
    exact ⟨frame_releaseHalves _ (m := 0x52100) (frame_retire _ (m := 0x52100) .refl rfl) rfl .xmt rfl,
      frame_releaseHalves _ (m := 0x52100) (frame_retire _ (m := 0x52100) .refl rfl) rfl .hce rfl⟩
  have e2 : (settle (sanSettle (journalBlock [] s))).xmt = u.xmt := by
    have c : sanSettle (journalBlock [] s) = journalBlock [] s := by
      unfold sanSettle; rw [k.1, u1, show ({ (blockDurable s).xmt with rewrites := [] } : Xmt).san = none from h8]
    rw [c]; unfold settle; rw [k.2, u2, h4]; exact k.1
  rw [e2, u1]
  unfold blockDurable
  dsimp only [State.modXmt]
  have n : nextBlock (s.xmt.journal.filter fun r => !r.durable) = s.xmt.journal.filter fun r => !r.durable := by
    unfold nextBlock
    dsimp only
    rw [List.take_of_length_le h7]
    split
    · next e => exact (List.getLast?_eq_none_iff.mp e).symm
    · next r e =>
      rw [if_neg, hl r e]
      · simp
      · simp only [Bool.not_eq_true, List.any_eq_false, Bool.and_eq_true, not_and, Bool.not_eq_true]
        intro x hx _
        simp only [List.all_eq_false]
        exact ⟨x, hx, by simp⟩
  rw [n]
  unfold mapIf
  refine ⟨by simp, ?_⟩
  intro r hr
  obtain ⟨x, hx, rfl⟩ := List.mem_map.mp hr
  by_cases hd : x.durable = true
  · split <;> simp [hd]
  · rw [if_pos]
    simp only [List.contains_eq_mem, List.mem_map, decide_eq_true_eq]
    exact ⟨x, List.mem_filter.mpr ⟨hx, by simpa using hd⟩, rfl⟩

theorem completes_checkpoint :
    ∀ s : State, pdOn 10 s = true → mediaUp s = true → heldBlk .xmt 0 s = false →
    ∃ t, exec .checkpoint s = .next t ∧ t.xmt.jseq = s.xmt.jseq + 1 ∧ t.xmt.ckPend.isSome = true ∧
    t.xmt.extents = s.xmt.extents ∧ t.xmt.zones = s.xmt.zones ∧ t.xmt.runs = s.xmt.runs := by
  intro s h1 h2 h3
  refine ⟨_, rfl, ?_⟩
  simp only [h1, h2, h3, Bool.not_false, Bool.and_self, if_true, journal, State.modXmt]
  exact ⟨rfl, rfl, rfl, rfl, rfl⟩

theorem completes_migrationStart :
    ∀ (zone : Bool) (idx ch sl : Nat) (x : Nat × Nat × Nat) (s : State), pdOn 10 s = true → mediaUp s = true →
    heldBlk .xmt 0 s = false → s.lgr.frozen = false → ordAge s = false → s.lgr.entries.length < 8192 → s.xmt.san = none →
    migAt zone idx s = none → slotsFree zone ch sl s = true → bandRange zone idx s = some x →
    ∃ t, exec (.migrationStart zone idx ch sl) s = .next t ∧ (∃ m, migAt zone idx t = some m ∧ m.newCh = ch ∧ m.newSl = sl ∧
    m.committed = false) ∧ (ch, sl) ∉ t.xmt.freeSlots := by
  intro zone idx ch sl x s h1 h2 h3 h4 h5 h6 h9 h7 h10 h8
  obtain ⟨ns, slba, nlb⟩ := x
  refine ⟨_, rfl, ?_⟩
  simp only [h1, h2, h3, h4, h5, h6, h7, h8, h9, h10, Bool.not_false, Bool.and_self, if_true, decide_true, Option.isNone_none,
    Bool.false_eq_true, if_false]
  have c : ∀ u : State, (checkPause u).xmt = u.xmt := fun u => frame_checkPause u (m := 0x180000A100) .refl rfl .xmt rfl
  have K : ∀ (l : List Mig) (m0 : Mig), l.find? (fun m => m.zone == zone && m.idx == idx) = none → m0.zone = zone → m0.idx = idx →
      m0.newCh = ch → m0.newSl = sl → m0.committed = false →
      ∃ m, (l ++ [m0]).find? (fun m => m.zone == zone && m.idx == idx) = some m ∧ m.newCh = ch ∧ m.newSl = sl ∧ m.committed = false := by
    intro l m0 a b c d e f
    exact ⟨m0, by rw [List.find?_append, a]; simp [b, c], d, e, f⟩
  unfold migAt
  rw [c]
  refine ⟨?_, ?_⟩
  · dsimp only [State.modXmt]
    refine K _ _ ?_ rfl rfl rfl rfl rfl
    unfold migAt at h7
    rw [← h7]
    congr 1
    rw [show Xmt.migs _ = _ from KeepMigs_setMig zone idx true _ .refl]
    dsimp only [journal, State.modXmt]
    have k2 : ∀ (e : LEntry) (u : State), (addEntry e u).xmt = u.xmt := fun _ _ => rfl
    rw [k2]
    dsimp only [State.modLgr]
    rw [show (selectRange s.lgr.ordNext ns (lbas slba nlb) (takeOrd s)).1.xmt = s.xmt from
      frame_selectRange _ _ _ (takeOrd s) (m := 0x10000) (.refl) rfl .xmt rfl]
  · dsimp only [State.modXmt]
    intro hm
    have := (List.mem_filter.mp hm).2
    simp only [Bool.not_eq_true', List.contains_eq_mem, decide_eq_false_iff_not, bandSlots, List.mem_map, List.mem_range] at this
    exact this ⟨0, by split <;> omega, rfl⟩

theorem completes_migrationCopyVerified :
    ∀ (zone : Bool) (idx : Nat) (lost : List Nat) (m : Mig) (r : LEntry) (s : State), migAt zone idx s = some m →
    entryAt m.ord s = some r → pdOn 10 s = true → mediaUp s = true → heldBlk .xmt 0 s = false → m.commitJ = none →
    selReady r.sel = true → selKeyWait r.ns r.sel s = false → migOrdered m r s = true → migHolds m s = true →
    ∃ t, exec (.migrationCopyVerified zone idx lost) s = .next t ∧ ∃ y, migAt zone idx t = some y ∧ y.commitJ.isSome = true ∧
    y.newCh = m.newCh ∧ y.newSl = m.newSl := by
  intro zone idx lost m r s h1 h2 h3 h4 h5 h6 h7 h8 h9 h10
  refine ⟨_, rfl, ?_⟩
  simp only [h1, h2, h3, h4, h5, h6, h7, h8, h9, Bool.not_false, Bool.and_self, if_true, Option.isNone_none]
  unfold migVerified
  simp only [h10, if_true]
  have hm : m.zone = zone ∧ m.idx = idx := by simpa using List.find?_some h1
  unfold migCommit
  extract_lets u old gone v w x y
  have e1 : u.xmt.migs = s.xmt.migs := (KeepMigs.foldl (KeepMigs_migFill m r lost s .refl) fun u e k => KeepMigs_supersede e _ k : KeepMigs s _)
  have e2 : v.xmt.migs = s.xmt.migs := Eq.trans (KeepMigs_setMig _ _ _ _ (KeepMigs_migMap m u .refl) : KeepMigs u v) e1
  have e3 : y.xmt.migs = s.xmt.migs := by
    refine Eq.trans (KeepMigs.foldl .refl fun u e k => KeepMigs_dropRun _ _ _ _ _ k : KeepMigs x y) (Eq.trans ?_ e2)
    show (if m.zone then _ else _ : State).xmt.migs = _
    split
    · exact (KeepMigs_journalZone _ _ _ _ _ w .refl : KeepMigs w _)
    · rfl
  unfold migAt at h1 ⊢
  dsimp only [State.modXmt]
  rw [e3, mapIf, List.find?_map, hm.1, hm.2]
  have p : ((fun x : Mig => x.zone == zone && x.idx == idx) ∘ fun x => if (x.zone == zone && x.idx == idx) = true then
      { x with commitJ := some (y.xmt.jseq - 1) } else x) = fun x => x.zone == zone && x.idx == idx := by
    funext x; simp only [Function.comp]; split <;> rfl
  rw [p, h1]
  simp [hm.1, hm.2]

theorem completes_migrationCopyVoid :
    ∀ (zone : Bool) (idx : Nat) (lost : List Nat) (m : Mig) (r : LEntry) (s : State), migAt zone idx s = some m →
    entryAt m.ord s = some r → pdOn 10 s = true → mediaUp s = true → heldBlk .xmt 0 s = false → m.commitJ = none →
    selReady r.sel = true → selKeyWait r.ns r.sel s = false → migOrdered m r s = true → migHolds m s = false → EventRoom s →
    ∃ t, exec (.migrationCopyVerified zone idx lost) s = .next t ∧ migAt zone idx t = none ∧
    (∀ x ∈ bandSlots zone m.newCh m.newSl, x ∈ t.xmt.freeSlots) ∧ Recorded 0x0221 t := by
  intro zone idx lost m r s h1 h2 h3 h4 h5 h6 h7 h8 h9 h10 h11
  refine ⟨_, rfl, ?_⟩
  simp only [h1, h2, h3, h4, h5, h6, h7, h8, h9, Bool.not_false, Bool.and_self, if_true, Option.isNone_none]
  unfold migVerified
  simp only [h10, Bool.false_eq_true, if_false]
  have hm : m.zone = zone ∧ m.idx = idx := by simpa using List.find?_some h1
  refine ⟨by rw [← hm.1, ← hm.2]; exact migVoid_migAt m s, fun x hx => List.mem_append_right _ (by rw [hm.1]; exact hx),
    (recorded_congr (migVoid_evr m s)).mpr (recorded_ev ?_)⟩
  have k : (setMig m.zone m.idx false (releaseReader m.ord s)).evr = s.evr :=
    frame_setMig _ _ _ _ (m := 0x30000) (frame_releaseReader _ s (m := 0x30000) .refl rfl) rfl .evr rfl
  rw [k]; exact Nat.lt_of_lt_of_le h11 (by decide)

theorem completes_migFree :
    ∀ (zone : Bool) (idx : Nat) (m : Mig) (s : State), migAt zone idx s = some m → pdOn 10 s = true → heldBlk .xmt 0 s = false →
    m.committed = true → ((bandSlots m.zone m.oldCh m.oldSl).any fun x => slotPinned x s) = false →
    ∃ t, exec (.migFree zone idx) s = .next t ∧ migAt zone idx t = none ∧
    ∀ x ∈ bandSlots m.zone m.oldCh m.oldSl, x ∈ t.xmt.freeSlots := by
  intro zone idx m s h1 h2 h5 h3 h4
  refine ⟨_, rfl, ?_⟩
  dsimp only
  rw [h1]
  simp only [h2, h3, h4, h5, Bool.not_false, Bool.and_self, if_true, migAt]
  refine ⟨?_, fun x hx => List.mem_append_right _ hx⟩
  rw [List.find?_eq_none]
  intro x hx
  have := (List.mem_filter.mp hx).2
  simp only [Bool.not_eq_true'] at this
  rw [this]; decide

theorem completes_reservoirCommit :
    ∀ (m : Master) (s : State), Reach .rvr 0 s → lossContext s = false → s.rvr.commit = false →
    fld .rvrCfg 0 0 1 0 s ≠ 0 →
    ∃ t, exec (.reservoirCommit m) s = .next t ∧ t.rvr.commit = true ∧ t.rvr.inService = true ∧ t.hce.ioClosed = true ∧
    t.llt.commitGrant = true := by
  intro m s h h1 h2 h3
  refine ⟨_, rfl, ?_⟩
  rw [access_reach h]
  simp only [writeRvrCmd, if_true, startCommit, h1, h2, h3, Bool.false_or, decide_false, Bool.not_false, if_false,
    Bool.false_eq_true]
  unfold commitGrant
  dsimp only
  split <;> simp [State.modHce, State.modRvr, State.modLlt, countClass]

theorem completes_ledgerFreeze :
    ∀ s : State, s.rvr.commit = true → s.rvr.inService = true → s.rvr.image = none → pdOn 10 s = true →
    heldBlk .rvr 0 s = false → (s.lgr.entries.any fun e => lkWrites e.kind && e.state == .pending) = false →
    ∃ t, exec .ledgerFreeze s = .next t ∧ t.lgr.frozen = true ∧ t.rvr.image.isSome = true := by
  intro s h1 h2 h3 h4 h5 h6
  refine ⟨_, rfl, ?_⟩
  rw [h1, h2, h3, h4, h5, h6]
  simp [freezeImage, State.modLgr, State.modRvr]

theorem completes_commitRecordDurable :
    ∀ (g : Gen) (s : State), s.rvr.commit = true → s.rvr.image = some g → pdOn 10 s = true → heldBlk .rvr 0 s = false →
    s.sup.loss = false →
    ∃ t, exec .commitRecordDurable s = .next t ∧ t.rvr.commit = false ∧ t.rvr.gen = g.gen ∧ t.rvr.image = none := by
  intro g s h1 h2 h3 h4 h5
  refine ⟨_, rfl, ?_⟩
  simp only [h1, h2, h3, h4, Bool.not_false, Bool.and_self, if_true, Option.isSome_some]
  have hl : (commitDurable s).sup = s.sup := frame_commitDurable s (m := 0x180007E300) .refl rfl .sup rfl
  have e : lossEnd (commitDurable s) = commitDurable s := by
    unfold lossEnd; rw [hl, h5]; rfl
  rw [e]
  unfold commitDurable
  rw [h2]
  dsimp only
  generalize (Gen.mk ..) = g'
  split
  · have k := fun u => (KeepRvr_settleJournal u .refl : KeepRvr u _)
    refine ⟨(k _).1.trans ?_, (k _).2.1.trans ?_, (k _).2.2.1.trans ?_⟩ <;>
      simp [releaseFetch, commitGrantEnd, State.modHce, State.modLgr, State.modLlt, State.modRvr, raiseLine]
  · simp [commitGrantEnd, State.modLlt, State.modSys, State.modRvr, raiseLine]

theorem completes_reservoirReplay :
    ∀ (m : Master) (s : State), Reach .rvr 0 s → s.rvr.chosen.isSome = true → s.rvr.replay = false →
    (s.rvr.recStep = 2 ∨ s.rvr.recStep = 6) →
    ∃ t, exec (.reservoirReplay m) s = .next t ∧ t.rvr.replay = true ∧ t.rvr.chosen = s.rvr.chosen := by
  intro m s h h1 h2 h3
  refine ⟨_, rfl, ?_⟩
  rw [access_reach h]
  have e : (s.rvr.recStep == 2 || s.rvr.recStep == 6) = true := by simpa using h3
  simp [writeRvrCmd, h1, h2, e, State.modRvr]

theorem completes_replayDone :
    ∀ (g : Gen) (s : State), chosenGen s = some g → s.rvr.replay = true → pdOn 10 s = true →
    heldBlk .rvr 0 s = false → (g.writes.all fun w => !w.enc || s.sec.restored) = true →
    ∃ t, exec .replayDone s = .next t ∧ t.rvr.replay = false ∧ t.rvr.recStep = (if s.rvr.recStep = 6 then 7 else 3) ∧
    393 ∈ t.irq.pending := by
  intro g s h1 h2 h4 h5 h6
  refine ⟨_, rfl, ?_⟩
  simp only [h1, h2, h4, h5, h6, Bool.not_false, Bool.and_self, if_true]
  have e : ∀ (l : List (RWrite × Nat)) (u : State), (l.foldl (fun s (w, i) => replayFwp w (addEntry (replayEntry w i s) s.drawn)) u).rvr = u.rvr := by
    intro l
    induction l with
    | nil => intro u; rfl
    | cons a l ih => intro u; rw [List.foldl_cons, ih]; exact frame_replayFwp _ _ (m := 0x30080) .refl rfl .rvr rfl
  generalize hu : List.foldl _ s _ = u
  have eu : u.rvr = s.rvr := by rw [← hu]; exact e _ _
  have k := (KeepRvr_releaseHalves (u.modRvr fun r => { r with
    replay := false, recStep := if r.recStep = 6 then 7 else 3, replayed := (replayable g).map (·.2) }) .refl : KeepRvr _ _)
  refine ⟨k.2.2.2.2, k.2.2.2.1.trans ?_, by simp only [raiseLine, mem_insertNat, true_or]⟩
  simp only [State.modRvr, eu]

theorem completes_restartRecovery :
    ∀ (lastGood : Option Nat) (ckOk : Bool) (s : State), pdOn 10 s = true → s.sys.acoresUp = true →
    heldBlk .rvr 0 s = false → s.rvr.recStep = 0 → s.lgr.entries = [] → mediaUp s = true → heldBlk .xmt 0 s = false →
    ∃ t, exec (.restartRecovery lastGood ckOk) s = .next t ∧
    t.rvr.recStep = (if (newestGen s).isSome then 6 else 7) ∧ t.rvr.chosen = (newestGen s).map Gen.gen := by
  intro lg ck s h1 h2 h3 h4 h5 h6 h7
  refine ⟨_, rfl, ?_⟩
  have e : ∀ (l : List Zone) (u : State), (l.foldl (fun s z => ownZoneChange z .offline s) u).rvr = u.rvr := by
    intro l
    induction l with
    | nil => intro u; rfl
    | cons a l ih => intro u; rw [List.foldl_cons, ih]; exact frame_ownZoneChange _ _ _ (m := 0x1800038180) .refl rfl .rvr rfl
  have e2 : ∀ u : State, (rekeyFormats u).rvr = u.rvr := fun u => frame_rekeyFormats u (m := 0x80020080) .refl rfl .rvr rfl
  have k1 : ∀ u : State, (sanitizeResume u).rvr = u.rvr := fun u => frame_sanitizeResume u (m := 0x1800026100) .refl rfl .rvr rfl
  have k2 : ∀ a b (u : State), (recoverTables a b u).rvr = u.rvr := fun a b u =>
    frame_recoverTables a b u (m := 0x1800028100) .refl rfl .rvr rfl
  have m1 : mediaUp (chooseGen s) = true ∧ heldBlk .xmt 0 (chooseGen s) = false := by
    have f : FrameB 0x1800050100 s (chooseGen s) := frame_chooseGen s .refl rfl
    have a := f .pwr rfl; have b := f .spn rfl; have c := f .sys rfl
    refine ⟨by rw [← h6]; unfold mediaUp pdOn; rw [a, b], ?_⟩
    have e : ∀ k, ((headerOf k s).sameButIrq (headerOf k (chooseGen s))) := by
      intro k
      unfold chooseGen
      cases newestGen s
      all_goals
        dsimp only
        rw [headerOf_congr (frame_State_modLgr _ _ (m := 0x10000) .refl rfl .hdr rfl)]
        refine Hdr.sameButIrq.trans ?_ (headerOf_ev ..)
        rw [headerOf_congr (frame_State_modRvr _ _ (m := 0x40000) .refl rfl .hdr rfl)]
        exact .refl
    have e := e (Blk.xmt.hdr 0)
    rw [← h7]; unfold heldBlk; rw [hdrOf_eq, hdrOf_eq, e.freeze, Hdr.sameButIrq.srst e]
  have c : (chooseGen s).rvr.recStep = (if (newestGen s).isSome then 2 else 3) ∧ (chooseGen s).rvr.chosen = (newestGen s).map Gen.gen := by
    unfold chooseGen
    cases newestGen s <;> simp [State.modRvr, State.modLgr]
  have w : (restartRecovery lg ck s).rvr.recStep = (if (newestGen s).isSome then 6 else 7) ∧
      (restartRecovery lg ck s).rvr.chosen = (newestGen s).map Gen.gen := by
    unfold restartRecovery
    simp only [h1, h2, h3, h4, h5, m1.1, m1.2, Bool.not_false, Bool.and_self, decide_true, List.isEmpty_nil, if_true, c.1]
    rw [if_pos (by split <;> rfl), k1]
    simp only [State.modRvr, k2, c.1, c.2]
    exact ⟨by split <;> rfl, trivial⟩
  dsimp only
  split
  · rw [e, e2]; exact w
  · exact w

theorem completes_taskCommit :
    ∀ (m : Master) (n : Fin 4) (s : State), Reach .asq n s → s.asq[n].pvalid = false →
    ∃ t, exec (.taskCommit m n) s = .next t ∧ t.asq[n].pvalid = true ∧ t.asq[n].cmdRes = 0 ∧ t.asq[n].ptask = s.asq[n].ptask := by
  intro m n s h h1
  refine ⟨_, rfl, ?_⟩
  rw [access_reach h]
  have e : writePcmd n 1 s = s.modAsq n fun a => { a with pvalid := true, cmdRes := 0 } := by
    unfold writePcmd asqCommit
    rw [h1]; rfl
  rw [e, useWindow_asq, asq_modAsq]
  exact ⟨rfl, rfl, rfl⟩

theorem completes_taskCommitRefused :
    ∀ (m : Master) (n : Fin 4) (s : State), Reach .asq n s → s.asq[n].pvalid = true → EventRoom s →
    ∃ t, exec (.taskCommit m n) s = .next t ∧ t.asq[n] = { s.asq[n] with cmdRes := 1 } ∧ Recorded 0x0360 t := by
  intro m n s h h1 h2
  refine ⟨_, rfl, ?_⟩
  rw [access_reach h]
  have e : writePcmd n 1 s = ev .asq 0x0360 n 0 0 (s.modAsq n fun a => { a with cmdRes := 1 }) := by
    unfold writePcmd asqCommit
    rw [h1]; rfl
  rw [e, useWindow_asq, ev_asq, asq_modAsq]
  exact ⟨rfl, (recorded_congr (useWindow_evr _ _ _)).mpr (recorded_ev (by unfold EventRoom at h2; exact Nat.lt_of_lt_of_le h2 (by decide)))⟩

theorem completes_taskCancel :
    ∀ (m : Master) (n : Fin 4) (s : State), Reach .asq n s → promotable n s = false → s.asq[n].pvalid = true →
    ∃ t, exec (.taskCancel m n) s = .next t ∧ t.asq[n].pvalid = false ∧ t.asq[n].cmdRes = 0 ∧
    ∃ r, t.asq[n].results = s.asq[n].results ++ [r] ∧ r.status = 0x0A ∧ r.fail = 0xFFFF ∧ r.done = 0 ∧ r.time = 0 := by
  intro m n s h h1 h2
  refine ⟨_, rfl, ?_⟩
  rw [access_reach h]
  have e : writePcmd n 2 s = cancelPending n (s.modAsq n fun a => { a with cmdRes := 0 }) := by
    unfold writePcmd asqCancel
    have a : Nat.testBit 2 0 = false := rfl
    have b : Nat.testBit 2 1 = true := rfl
    rw [a, b]
    dsimp only
    rw [if_neg Bool.false_ne_true, if_pos rfl, h1, h2]; rfl
  rw [e, useWindow_asq]
  unfold cancelPending
  rw [asqLine_asq, frame_tagDone _ _ (m := 0x8000) .refl rfl .asq rfl, postResult_asq, asq_modAsq, asq_modAsq]
  exact ⟨rfl, rfl, _, rfl, rfl, rfl, rfl, rfl⟩

theorem completes_taskPromotion :
    ∀ (n : Fin 4) (s : State), promotable n s = true → (dispAt (bits (vget s.asq[n].ptask 0 0).toNat 31 24) s).valid = true →
    bits (vget s.asq[n].ptask 8 0).toNat 31 31 = 0 →
    ∃ t, exec (.taskPromotion n) s = .next t ∧ t.asq[n].atask = s.asq[n].ptask ∧ t.asq[n].avalid = true ∧
    t.asq[n].pvalid = false ∧ t.asq[n].phase = .running ∧ t.asq[n].us = s.us ∧
    t.asq[n].pc = (dispAt (bits (vget s.asq[n].ptask 0 0).toNat 31 24) s).addr := by
  intro n s h1 h2 h3
  refine ⟨_, rfl, ?_⟩
  rw [if_pos h1]
  unfold promote
  extract_lets s1 s2 e s3 s4
  have ks2 : s2.asq[n] = { s.asq[n] with
    atask := s.asq[n].ptask, avalid := true, pvalid := false, cnt0 := 0, cnt1 := 0, us := s.us, done := 0, fail := 0xFFFF
    secTrack := bits (vget s.asq[n].ptask 3 0).toNat 23 0, secPtr := bits (vget s.asq[n].ptask 4 0).toNat 15 0, secCnt := 0
    staged := false, emit := false, levels := 0, waitDone := false, issued := false, dlPassed := false, ldpGo := none
    unitField := 0, counted := [], stored := [], skipMark := false, forced := none, cause := 0, reqAbort := false, reqDeadline := false, reqFault := false
    ticket := none, phase := .running, stack := [], inAtom := false, atomOver := false, openX := false } := by
    unfold s2; rw [asqLine_asq]; unfold s1; exact asq_modAsq ..
  have he : e = dispAt (bits (vget s.asq[n].ptask 0 0).toNat 31 24) s := by
    unfold e task; rw [ks2]; rfl
  have ks3 : s3.asq[n] = { s2.asq[n] with pc := e.addr } := asq_modAsq ..
  have ks4 : s4.asq = s3.asq := frame_buildSkip _ _ _ _ (m := 0x1860A031A0) (frame_zoneCopy _ _ .refl rfl) rfl .asq rfl
  rw [if_neg (by rw [he, h2]; decide)]
  have ks5 : (loadLane n s4).asq = s4.asq := frame_loadLane _ _ (m := 0x80000000) .refl rfl .asq rfl
  have ks6 : askLeave n (loadLane n s4) = loadLane n s4 := by
    unfold askLeave
    rw [if_neg]
    unfold task; rw [ks5, ks4, ks3, ks2]
    show ¬ bits (vget s.asq[n].ptask 8 0).toNat 31 31 = 1
    rw [h3]; decide
  rw [ks6, ks5, ks4, ks3, ks2, he]
  exact ⟨rfl, rfl, rfl, rfl, rfl, rfl⟩

theorem completes_microwordIssue :
    ∀ (n : Fin 4) (a w : Nat) (s : State), asqLive n s = true → asqRuns s.asq[n] = true → s.asq[n].issued = false →
    boundary n s = s → fetchWord s.asq[n].pc s = some (a, w) → parityOf 128 w = false → inOpen a = false →
    bits (mwDpc w) 23 8 = 0 → dpcUnitgo (mwDpc w) = false → bits (mwDpc w) 31 24 = s.asq[n].levels →
    ∃ t, exec (.microwordIssue n) s = .next t ∧ t.asq[n].issued = true ∧ t.asq[n].word = w ∧ t.asq[n].pc = a ∧
    t.asq[n].issueAt = s.us ∧ t.asq[n].levels = s.asq[n].levels := by
  intro n a w s h1 h2 h3 h4 h5 h6 h7 h8 h9 h10
  refine ⟨_, rfl, ?_⟩
  rw [if_pos (by rw [h1, h2, h3]; rfl), h4]
  unfold fetchIssue
  rw [h5]
  dsimp only
  rw [h6, h7, h9, if_neg Bool.false_ne_true, Bool.false_and, if_neg Bool.false_ne_true, Bool.false_and, if_neg Bool.false_ne_true]
  exact issueWord_quiet h8 h9 h10

theorem completes_seqNext :
    ∀ (n : Fin 4) (s : State), SeqReady 0 n s → s.asq[n].pc ≠ 0x7FFF →
    ∃ t, exec (.seqNext n) s = .next t ∧ NextAt n ((s.asq[n].pc + 1) % 2 ^ 16) t := by
  intro n s h h1
  refine ⟨_, rfl, ?_⟩
  rw [seqStep_ready h]
  have e := nextAt_fall (u := waited n s) h.quiet (by rw [waited_asq]; exact h1)
  rw [waited_asq] at e; exact e

theorem completes_seqNextOver :
    ∀ (n : Fin 4) (s : State), SeqReady 0 n s → s.asq[n].pc = 0x7FFF →
    ∃ t, exec (.seqNext n) s = .next t ∧ t.asq[n].avalid = false ∧ t.asq[n].phase = .halted := by
  intro n s h h1
  refine ⟨_, rfl, ?_⟩
  rw [seqStep_ready h]
  have q := h.quiet
  have hu := waited_asq n s
  generalize waited n s = u at *
  rw [← hu] at h1
  unfold fallThrough
  obtain ⟨a, b, e⟩ := complete_asq (next := u.asq[n].pc + 1) q.1 q.2.1 q.2.2.1
  dsimp only
  rw [if_pos]
  · exact mcFault_asq ..
  · rw [e, h1]; simp

theorem completes_seqJump :
    ∀ (n : Fin 4) (s : State), SeqReady 1 n s → (s.asq[n].openX = false ∨ inOpen (mwTarget s.asq[n].word) = true) →
    ∃ t, exec (.seqJump n) s = .next t ∧ NextAt n (mwTarget s.asq[n].word) t := by
  intro n s h h1
  refine ⟨_, rfl, ?_⟩
  rw [seqStep_ready h]
  exact nextAt_transfer (by rw [waited_asq]) h.quiet h1

theorem completes_seqCall :
    ∀ (n : Fin 4) (s : State), SeqReady 2 n s → s.asq[n].stack.length < 8 → s.asq[n].openX = false →
    ∃ t, exec (.seqCall n) s = .next t ∧ NextAt n (mwTarget s.asq[n].word) t ∧
    t.asq[n].stack = (s.asq[n].pc + 1) % 2 ^ 16 :: s.asq[n].stack := by
  intro n s h h1 h2
  refine ⟨_, rfl, ?_⟩
  rw [seqStep_ready h]
  have q := h.quiet
  have hu := waited_asq n s
  generalize waited n s = u at *
  rw [← hu] at h1 h2 ⊢
  unfold seqCallDo
  dsimp only
  rw [if_neg (by omega), h2]
  have q2 : ∀ f : Asq → Asq, (f u.asq[n]).reqAbort = false ∧ (f u.asq[n]).reqDeadline = false ∧ (f u.asq[n]).reqFault = false ∧ (f u.asq[n]).avalid = true →
     (u.modAsq n f).asq[n].reqAbort = false ∧ (u.modAsq n f).asq[n].reqDeadline = false ∧ (u.modAsq n f).asq[n].reqFault = false ∧ (u.modAsq n f).asq[n].avalid = true := by
    intro f hf; rw [asq_modAsq]; exact hf
  have q3 := q2 (fun a => { a with stack := (u.asq[n].pc + 1) % 2 ^ 16 :: a.stack }) q
  have e := nextAt_complete (next := mwTarget u.asq[n].word) q3
  rw [mwTarget_lt] at e
  refine ⟨e, (stack_complete q3).trans ?_⟩
  rw [asq_modAsq]

theorem completes_seqCallTooDeep :
    ∀ (n : Fin 4) (s : State), SeqReady 2 n s → 8 ≤ s.asq[n].stack.length →
    ∃ t, exec (.seqCall n) s = .next t ∧ t.asq[n].avalid = false ∧ t.asq[n].phase = .halted := by
  intro n s h h1
  refine ⟨_, rfl, ?_⟩
  rw [seqStep_ready h]
  have hu := waited_asq n s
  unfold seqCallDo
  dsimp only
  rw [hu, if_pos h1]
  exact mcFault_asq ..

theorem completes_seqRet :
    ∀ (n : Fin 4) (a : Nat) (l : List Nat) (s : State), SeqReady 3 n s → s.asq[n].stack = a :: l →
    condition n (mwCond s.asq[n].word) (mwParam s.asq[n].word) (waited n s) = true →
    ∃ t, exec (.seqRet n) s = .next t ∧ NextAt n (a % 2 ^ 16) t ∧ t.asq[n].stack = l := by
  intro n a l s h h1 h2
  refine ⟨_, rfl, ?_⟩
  rw [seqStep_ready h]
  have q := h.quiet
  have hu := waited_asq n s
  generalize waited n s = u at *
  rw [← hu] at h1 h2
  unfold seqRetDo testCond
  dsimp only
  rw [h2, if_neg (by decide)]
  have k2 := condDrawn_asq (mwCond u.asq[n].word) u
  have k3 : (condDrawn (mwCond u.asq[n].word) u).asq[n].stack = a :: l := by rw [k2]; exact h1
  rw [k3]
  have q3 : ∀ v : State, v.asq = u.asq → (v.modAsq n fun a => { a with stack := l }).asq[n].reqAbort = false ∧ (v.modAsq n fun a => { a with stack := l }).asq[n].reqDeadline = false ∧ (v.modAsq n fun a => { a with stack := l }).asq[n].reqFault = false ∧ (v.modAsq n fun a => { a with stack := l }).asq[n].avalid = true := by
    intro v hv; rw [asq_modAsq, hv]; exact q
  refine ⟨nextAt_complete (q3 _ k2), (stack_complete (q3 _ k2)).trans ?_⟩
  rw [asq_modAsq]

theorem completes_seqRetEnds :
    ∀ (n : Fin 4) (s : State), SeqReady 3 n s → s.asq[n].stack = [] → mwWait s.asq[n].word ≠ 1 →
    condition n (mwCond s.asq[n].word) (mwParam s.asq[n].word) s = true →
    ∃ t, exec (.seqRet n) s = .next t ∧ t.asq[n].avalid = false ∧ t.asq[n].phase = .idle ∧
    ∃ r, t.asq[n].results = s.asq[n].results ++ [r] ∧
    r.status = s.asq[n].forced.getD (bits (mwParam s.asq[n].word) 7 0) ∧ r.endpc = s.asq[n].pc := by
  intro n s h h1 h2 h3
  refine ⟨_, rfl, ?_⟩
  rw [seqStep_ready h]
  have hw : waited n s = s := by unfold waited; rw [if_neg h2]
  rw [hw]
  unfold seqRetDo testCond
  dsimp only
  rw [h3, if_neg (by decide)]
  have k2 := condDrawn_asq (mwCond s.asq[n].word) s
  have k3 : (condDrawn (mwCond s.asq[n].word) s).asq[n].stack = [] := by rw [k2]; exact h1
  rw [k3]
  dsimp only
  obtain ⟨a, b, r, c, d, e, -⟩ := taskEnd_asq n ((condDrawn (mwCond s.asq[n].word) s).asq[n].forced.getD (bits (mwParam (condDrawn (mwCond s.asq[n].word) s).asq[n].word) 7 0))
    (condDrawn (mwCond s.asq[n].word) s).asq[n].cause .idle (condDrawn (mwCond s.asq[n].word) s)
  exact ⟨a, b, r, by rw [c, k2], by rw [d, k2], by rw [e, k2]⟩

theorem completes_seqRetGoesOn :
    ∀ (n : Fin 4) (s : State), SeqReady 3 n s →
    condition n (mwCond s.asq[n].word) (mwParam s.asq[n].word) (waited n s) = false → s.asq[n].pc ≠ 0x7FFF →
    ∃ t, exec (.seqRet n) s = .next t ∧ NextAt n ((s.asq[n].pc + 1) % 2 ^ 16) t := by
  intro n s h h2 h3
  refine ⟨_, rfl, ?_⟩
  rw [seqStep_ready h]
  have q := h.quiet
  have hu := waited_asq n s
  generalize waited n s = u at *
  rw [← hu] at h2 h3 ⊢
  unfold seqRetDo testCond
  dsimp only
  rw [h2, if_pos (by decide)]
  have k2 := condDrawn_asq (mwCond u.asq[n].word) u
  have e := nextAt_fall (u := condDrawn (mwCond u.asq[n].word) u) (by rw [k2]; exact q) (by rw [k2]; exact h3)
  rw [k2] at e; exact e

theorem completes_seqBrt :
    ∀ (n : Fin 4) (s : State), SeqReady 4 n s → s.asq[n].openX = false → s.asq[n].pc ≠ 0x7FFF →
    ∃ t, exec (.seqBrt n) s = .next t ∧ NextAt n
    (if condition n (mwCond s.asq[n].word) (mwParam s.asq[n].word) (waited n s) = true then mwTarget s.asq[n].word
    else (s.asq[n].pc + 1) % 2 ^ 16) t := by
  intro n s h h1 h2
  refine ⟨_, rfl, ?_⟩
  rw [seqStep_ready h]
  have e := nextAt_branch (b := true) h h1 h2
  simpa using e

theorem completes_seqBrf :
    ∀ (n : Fin 4) (s : State), SeqReady 5 n s → s.asq[n].openX = false → s.asq[n].pc ≠ 0x7FFF →
    ∃ t, exec (.seqBrf n) s = .next t ∧ NextAt n
    (if condition n (mwCond s.asq[n].word) (mwParam s.asq[n].word) (waited n s) = true then (s.asq[n].pc + 1) % 2 ^ 16
    else mwTarget s.asq[n].word) t := by
  intro n s h h1 h2
  refine ⟨_, rfl, ?_⟩
  rw [seqStep_ready h]
  have e := nextAt_branch (b := false) h h1 h2
  cases hc : condition n (mwCond s.asq[n].word) (mwParam s.asq[n].word) (waited n s)
  · rw [hc] at e; simpa using e
  · rw [hc] at e; simpa using e

theorem completes_seqDispatch :
    ∀ (n : Fin 4) (k : Nat) (s : State), SeqReady 6 n s → s.asq[n].openX = false →
    k = (if (mwTarget s.asq[n].word).testBit 15 = true then bits (vget s.asq[n].atask 0 0).toNat 31 24
    else bits (mwTarget s.asq[n].word) 7 0) → (dispAt k (waited n s)).valid = true →
    ∃ t, exec (.seqDispatch n) s = .next t ∧ NextAt n ((dispAt k (waited n s)).addr % 2 ^ 16) t := by
  intro n k s h h1 hk h2
  refine ⟨_, rfl, ?_⟩
  rw [seqStep_ready h]
  have q := h.quiet
  have hu := waited_asq n s
  generalize waited n s = u at *
  rw [← hu] at h1 hk
  unfold seqDispatchDo task
  dsimp only
  rw [← hk, h1, Bool.false_and, if_neg (by decide), if_pos h2]
  exact nextAt_complete q

theorem completes_seqLoopEnds :
    ∀ (n : Fin 4) (s : State), SeqReady 7 n s → s.asq[n].cnt0 = 0 → s.asq[n].pc ≠ 0x7FFF →
    ∃ t, exec (.seqLoop n) s = .next t ∧ NextAt n ((s.asq[n].pc + 1) % 2 ^ 16) t := by
  intro n s h h1 h2
  refine ⟨_, rfl, ?_⟩
  rw [seqStep_ready h]
  have q := h.quiet
  have hu := waited_asq n s
  generalize waited n s = u at *
  rw [← hu] at h1 h2 ⊢
  unfold seqLoopDo
  rw [if_pos h1]
  exact nextAt_fall q h2

theorem completes_seqLoop :
    ∀ (n : Fin 4) (s : State), SeqReady 7 n s → s.asq[n].cnt0 ≠ 0 → s.asq[n].openX = false → mwCntop s.asq[n].word = 0 →
    ∃ t, exec (.seqLoop n) s = .next t ∧ NextAt n (mwTarget s.asq[n].word) t ∧ t.asq[n].cnt0 = s.asq[n].cnt0 - 1 := by
  intro n s h h1 h2 h3
  refine ⟨_, rfl, ?_⟩
  rw [seqStep_ready h]
  have q := h.quiet
  have hu := waited_asq n s
  generalize waited n s = u at *
  rw [← hu] at h1 h2 h3 ⊢
  unfold seqLoopDo
  rw [if_neg h1]
  have k : (u.modAsq n fun a => { a with cnt0 := a.cnt0 - 1 }).asq[n] = { u.asq[n] with cnt0 := u.asq[n].cnt0 - 1 } := asq_modAsq ..
  have q3 : (u.modAsq n fun a => { a with cnt0 := a.cnt0 - 1 }).asq[n].reqAbort = false ∧ (u.modAsq n fun a => { a with cnt0 := a.cnt0 - 1 }).asq[n].reqDeadline = false ∧ (u.modAsq n fun a => { a with cnt0 := a.cnt0 - 1 }).asq[n].reqFault = false ∧ (u.modAsq n fun a => { a with cnt0 := a.cnt0 - 1 }).asq[n].avalid = true := by
    rw [k]; exact q
  generalize (u.modAsq n fun a => { a with cnt0 := a.cnt0 - 1 }) = v at *
  have e : transfer n (mwTarget u.asq[n].word) false v = complete n (mwTarget u.asq[n].word) v := by
    unfold transfer; rw [k, if_neg]; rw [show ({ u.asq[n] with cnt0 := u.asq[n].cnt0 - 1 } : Asq).openX = false from h2]; simp
  rw [e]
  have e1 := nextAt_complete (next := mwTarget u.asq[n].word) q3
  rw [mwTarget_lt] at e1
  refine ⟨e1, (cnt0_complete q3 ?_).trans ?_⟩
  · rw [k]; exact h3
  · rw [k]

theorem completes_faultRequest :
    ∀ (n : Fin 4) (cause : Nat) (s : State), asqLive n s = true → s.asq[n].avalid = true → s.asq[n].reqFault = false →
    isWaiting s.asq[n] = false →
    ∃ t, exec (.faultRequest n cause) s = .next t ∧ t.asq[n].reqFault = true ∧ t.asq[n].faultCause = cause % 2 ^ 16 ∧
    t.asq[n].phase = s.asq[n].phase := by
  intro n cause s h1 h2 h3 h4
  refine ⟨_, rfl, ?_⟩
  unfold asqFault
  dsimp only
  rw [if_pos h1, if_pos h2]
  unfold requestArrives
  have k : (s.modAsq n fun a => { a with reqFault := true, faultCause := if a.reqFault then a.faultCause else cause % 2 ^ 16 }).asq[n] = { s.asq[n] with reqFault := true, faultCause := if s.asq[n].reqFault then s.asq[n].faultCause else cause % 2 ^ 16 } := asq_modAsq ..
  rw [k]
  rw [if_neg]
  · rw [k, h3]; exact ⟨rfl, rfl, rfl⟩
  · have : isWaiting { s.asq[n] with reqFault := true, faultCause := if s.asq[n].reqFault then s.asq[n].faultCause else cause % 2 ^ 16 } = false := h4
    rw [this]; simp

theorem completes_faultRequestWithoutTask :
    ∀ (n : Fin 4) (cause : Nat) (s : State), asqLive n s = true → s.asq[n].avalid = false → EventRoom s →
    ∃ t, exec (.faultRequest n cause) s = .next t ∧ t.asq = s.asq ∧ Recorded 0x0310 t := by
  intro n cause s h1 h2 h3
  refine ⟨_, rfl, ?_⟩
  unfold asqFault
  dsimp only
  rw [if_pos h1, if_neg (by rw [h2]; decide)]
  exact ⟨ev_asq .., recorded_ev (by unfold EventRoom at h3; exact Nat.lt_of_lt_of_le h3 (by decide))⟩

theorem completes_waitTimeout :
    ∀ (n : Fin 4) (s : State), asqLive n s = true → s.asq[n].avalid = true → s.asq[n].phase = .running →
    s.asq[n].issued = true → 2 ≤ mwWait s.asq[n].word → tmrNs (mwTmr s.asq[n].word) ≠ 0 → waitSat n s = false →
    ∃ t, exec (.waitTimeout n) s = .next t ∧ t.asq[n].phase = .abortHandler ∧ t.asq[n].stack = [] ∧ t.asq[n].forced = some 4 ∧
    t.asq[n].cause = 0 ∧ t.us = max s.us (s.asq[n].issueAt + tmrUs (mwTmr s.asq[n].word)) := by
  intro n s h1 h2 h3 h4 h5 h6 h7
  refine ⟨_, rfl, ?_⟩
  dsimp only
  rw [if_pos (by rw [h1, h2, h3, h4, h7, bne_iff_ne.mpr h6, decide_eq_true h5]; rfl)]
  have ha : (advanceTo (s.asq[n].issueAt + tmrUs (mwTmr s.asq[n].word)) s).asq = s.asq := frame_advanceTo _ _ (m := 0x7800000B12) .refl rfl .asq rfl
  have hus := advanceTo_us (s.asq[n].issueAt + tmrUs (mwTmr s.asq[n].word)) s
  generalize advanceTo (s.asq[n].issueAt + tmrUs (mwTmr s.asq[n].word)) s = u at *
  unfold enterHandler
  dsimp only
  rw [asqLine_asq, asq_modAsq]
  refine ⟨rfl, rfl, rfl, rfl, ?_⟩
  rw [← hus]
  have : (asqLine n 2 (State.modAsq n (fun a => a) (levelsFall n u))).us = u.us := by
    unfold asqLine
    exact frame_levelsFall _ _ (m := 0x20C300080) .refl rfl .us rfl
  exact this

theorem completes_atomicBound :
    ∀ (n : Fin 4) (s : State), asqLive n s = true → asqRuns s.asq[n] = true → s.asq[n].inAtom = true →
    s.asq[n].atomOver = false →
    ∃ t, exec (.atomicBound n) s = .next t ∧ t.asq[n] = { s.asq[n] with atomOver := true } ∧
    t.us = max s.us (s.asq[n].atomAt + zeroAsOne (fld .atommax n 0 9 0 s)) := by
  intro n s h1 h2 h3 h4
  refine ⟨_, rfl, ?_⟩
  dsimp only
  rw [if_pos (by rw [h1, h2, h3, h4]; rfl)]
  have ha : (advanceTo (s.asq[n].atomAt + zeroAsOne (fld .atommax n 0 9 0 s)) s).asq = s.asq := frame_advanceTo _ _ (m := 0x7800000B12) .refl rfl .asq rfl
  have hus := advanceTo_us (s.asq[n].atomAt + zeroAsOne (fld .atommax n 0 9 0 s)) s
  generalize advanceTo (s.asq[n].atomAt + zeroAsOne (fld .atommax n 0 9 0 s)) s = u at *
  rw [ev_asq, asq_modAsq, ha, ev_us]
  exact ⟨rfl, hus⟩

theorem completes_asqAbort :
    ∀ (m : Master) (n : Fin 4) (v : Word) (s : State), Reach .asq n s → promotable n s = false → s.asq[n].avalid = false →
    s.asq[n].pvalid = true → bits (vget s.asq[n].ptask 2 0).toNat 31 20 = bits v.toNat 11 0 →
    ∃ t, exec (.asqAbort m n v) s = .next t ∧ t.asq[n].abDone = true ∧ t.asq[n].abRes = 1 ∧ t.asq[n].pvalid = false ∧
    ∃ r, t.asq[n].results = s.asq[n].results ++ [r] ∧ r.status = 0x0A := by
  intro m n v s h h1 h2 h3 h4
  refine ⟨_, rfl, ?_⟩
  rw [access_reach h]
  have hb : bits (v.toNat ||| 2 ^ 31) 11 0 = bits v.toNat 11 0 := by
    unfold bits
    show (v.toNat ||| 2 ^ 31) % 2 ^ 12 = v.toNat % 2 ^ 12
    rw [Nat.or_mod_two_pow]
    show v.toNat % 2 ^ 12 ||| 0 = _
    simp only [Nat.or_zero]
  unfold writeAbort abortTag
  rw [orbit31, if_pos rfl, hb, h1, if_neg Bool.false_ne_true]
  dsimp only
  rw [h3, h4, h2, beq_self_eq_true, Bool.false_and, if_neg Bool.false_ne_true, Bool.true_and, if_pos rfl, useWindow_asq, asq_modAsq]
  unfold cancelPending
  rw [asqLine_asq, frame_tagDone _ _ (m := 0x8000) .refl rfl .asq rfl, postResult_asq, asq_modAsq]
  exact ⟨rfl, rfl, rfl, _, rfl, rfl⟩

theorem completes_taskDeadline :
    ∀ (n : Fin 4) (s : State), asqLive n s = true → s.asq[n].avalid = true → s.asq[n].dlPassed = false →
    isWaiting s.asq[n] = false →
    ∃ t, exec (.taskDeadline n) s = .next t ∧ t.asq[n] = { s.asq[n] with dlPassed := true, reqDeadline := true } ∧
    t.us = max s.us (s.asq[n].us + taskDeadlineUs (bits (vget s.asq[n].atask 7 0).toNat 31 0)) := by
  intro n s h1 h2 h3 h4
  refine ⟨_, rfl, ?_⟩
  dsimp only
  rw [if_pos (by rw [h1, h2, h3]; rfl)]
  have ha : (advanceTo (s.asq[n].us + taskDeadlineUs (task n 7 31 0 s)) s).asq = s.asq := frame_advanceTo _ _ (m := 0x7800000B12) .refl rfl .asq rfl
  have hus := advanceTo_us (s.asq[n].us + taskDeadlineUs (task n 7 31 0 s)) s
  generalize advanceTo (s.asq[n].us + taskDeadlineUs (task n 7 31 0 s)) s = u at *
  have ku : (u.modAsq n fun a => { a with dlPassed := true, reqDeadline := true }).asq[n] = { s.asq[n] with dlPassed := true, reqDeadline := true } := by
    rw [asq_modAsq, ha]
  have kv : ∀ a b c, (ev .asq 0x0350 a b c (u.modAsq n fun a => { a with dlPassed := true, reqDeadline := true })).asq[n] = { s.asq[n] with dlPassed := true, reqDeadline := true } := by
    intro a b c; rw [ev_asq]; exact ku
  unfold requestArrives
  rw [kv, if_neg (by rw [show isWaiting { s.asq[n] with dlPassed := true, reqDeadline := true } = false from h4]; simp), kv, ev_us]
  exact ⟨rfl, hus⟩

theorem completes_resultPop :
    ∀ (m : Master) (n : Fin 4) (v : Word) (s : State), Reach .asq n s →
    ∃ t, exec (.resultPop m n v) s = .next t ∧ t.asq[n].results = s.asq[n].results.drop 1 ∧
    t.asq[n] = { s.asq[n] with results := t.asq[n].results } := by
  intro m n v s h
  refine ⟨_, rfl, ?_⟩
  rw [access_reach h]
  unfold writeRespop
  rw [show (v.toNat ||| 1).testBit 0 = true by rw [Nat.testBit_or]; simp, if_pos rfl, useWindow_asq, asq_modAsq]
  exact ⟨rfl, rfl⟩

theorem completes_microcodeActivate :
    ∀ (img : McObj) (s : State), secRuns s = true → s.sec.mbDone = true → s.cst.staged = none → s.cst.act = .idle →
    mcReason img s = 0 →
    ∃ t, exec (.microcodeActivate img) s = .next t ∧ t.sec.mbDone = true ∧ t.sec.mbRes = 0 ∧ t.cst.act = .armed ∧
    t.cst.staged.isSome = true := by
  intro img s h1 h2 h3 h4 h5
  refine ⟨_, by change execMicrocodeActivate img s = _; unfold execMicrocodeActivate; exact mbox h1 h2, ?_⟩
  dsimp only
  have k : ∀ u : State, u.cst = s.cst → u.sec.svn = s.sec.svn → u.sys = s.sys → True := fun _ _ _ _ => trivial
  generalize hu : setFld .mbcmd 0 0 23 16 1 (s.modSec fun c => { c with mbDone := false, mbBusy := some 1 }) = u
  have e1 : u.cst = s.cst := by rw [← hu]; rfl
  have e2 : mcReason img u = mcReason img s := by rw [← hu]; rfl
  rw [e1, h3, e2, h5, if_neg (by simp), if_neg (by simp), answer_sec]
  have e3 : (answer 1 0 0 (armCst (.core .sec) { u with cst := { u.cst with staged := some { opn := img.opn, ver := img.ver, svn := img.svn, words := img.words, matches_ := img.mtch, disp := img.disp, digest := img.digest } } })).cst =
     (armCst (.core .sec) { u with cst := { u.cst with staged := some { opn := img.opn, ver := img.ver, svn := img.svn, words := img.words, matches_ := img.mtch, disp := img.disp, digest := img.digest } } }).cst := rfl
  refine ⟨rfl, rfl, ?_⟩
  rw [← e1]
  refine (e3 ▸ armCst_armed (i := _) rfl (by show ¬ (u.cst.act = .armed ∨ u.cst.act = .copying); rw [e1, h4]; simp))

theorem completes_microcodeActivateRefused :
    ∀ (img : McObj) (s : State), secRuns s = true → s.sec.mbDone = true → s.cst.staged = none → mcReason img s ≠ 0 →
    ∃ t, exec (.microcodeActivate img) s = .next t ∧ t.sec.mbDone = true ∧ t.sec.mbRes = mcRes (mcReason img s) ∧ t.cst = s.cst := by
  intro img s h1 h2 h3 h5
  refine ⟨_, by change execMicrocodeActivate img s = _; unfold execMicrocodeActivate; exact mbox h1 h2, ?_⟩
  dsimp only
  generalize hu : setFld .mbcmd 0 0 23 16 1 (s.modSec fun c => { c with mbDone := false, mbBusy := some 1 }) = u
  have e1 : u.cst = s.cst := by rw [← hu]; rfl
  have e2 : mcReason img u = mcReason img s := by rw [← hu]; rfl
  rw [e1, h3, e2, if_neg (by simp), if_pos h5, answer_sec]
  refine ⟨rfl, rfl, ?_⟩
  rw [← e1]
  unfold answer
  dsimp only
  split <;> simp [State.modSec]

theorem completes_arm :
    ∀ (v : Word) (i : McImage) (s : State), Reach .cst 0 s → s.cst.staged = some i → s.cst.act = .idle →
    ∃ t, exec (.arm (.core .sec) v) s = .next t ∧ t.cst.act = .armed ∧ t.cst.armAt = now s ∧
    ∀ n ∈ channels s, t.asq[n].actHold = true := by
  intro v i s h h1 h2
  refine ⟨_, rfl, ?_⟩
  rw [access_reach h]
  unfold writeCstAct secOnly
  rw [orbit0, if_pos rfl, if_pos rfl, useWindow_cst, useWindow_asq]
  exact armCst_all h1 (by rw [h2]; simp)

theorem completes_armWithNothingStaged :
    ∀ (v : Word) (s : State), Reach .cst 0 s → s.cst.staged = none →
    ∃ t, exec (.arm (.core .sec) v) s = .next t ∧ t.cst = s.cst ∧ t.asq = s.asq := by
  intro v s h h1
  refine ⟨_, rfl, ?_⟩
  rw [access_reach h]
  unfold writeCstAct secOnly armCst
  rw [orbit0, if_pos rfl, if_pos rfl, h1]
  simp

theorem completes_activationCopy :
    ∀ (i : McImage) (s : State), s.cst.staged = some i → s.cst.act = .armed → pdOn 13 s = true → heldBlk .cst 0 s = false →
    busyChannels s = [] → now s ≤ s.cst.armAt + holdMax s →
    ∃ t, exec .activationCopy s = .next t ∧ t.cst.act = .idle ∧ t.cst.staged = none ∧
    (i.opn = false → t.cst.patch = loadWords i.words ∧ t.cst.pVer = i.ver ∧ t.cst.openReg = s.cst.openReg) ∧
    (i.opn = true → t.cst.openReg = loadWords i.words ∧ t.cst.oVer = i.ver ∧ t.cst.patch = s.cst.patch) := by
  intro i s h1 h2 h3 h4 h5 h6
  refine ⟨_, rfl, ?_⟩
  dsimp only
  rw [h1]
  dsimp only
  rw [if_pos (by rw [h2, h3, h4, h5, decide_eq_true h6]; rfl)]
  have e0 : ∀ (l : List (Fin 4)) (u : State), (l.foldl (fun s n => s.modAsq n fun a => { a with actHold := false }) u).cst = u.cst := by
    intro l; induction l with
    | nil => intro u; rfl
    | cons y l ih => intro u; rw [List.foldl_cons, ih]; rfl
  have e1 : (releaseHolds (loadImage i s)).cst = (loadImage i s).cst := e0 _ _
  have e2 : ∀ (u : State) (a b : State), a.cst = u.cst → b.cst = u.cst → (extendMeas 4 i.digest (if i.opn then a else b)).cst = u.cst := by
    intro u a b ha hb; unfold extendMeas; dsimp only [State.modSec]; split
    · exact ha
    · exact hb
  rw [e2 _ _ _ (ev_cst ..) (ev_cst ..)]
  dsimp only
  rw [e1]
  unfold loadImage
  dsimp only
  refine ⟨rfl, rfl, fun h => ?_, fun h => ?_⟩ <;> rw [h] <;> simp

theorem completes_activationAbandon :
    ∀ (i : McImage) (s : State), s.cst.staged = some i → s.cst.act = .armed → pdOn 13 s = true → heldBlk .cst 0 s = false →
    (busyChannels s ≠ [] ∨ s.cst.armAt + holdMax s < now s) →
    ∃ t, exec .activationAbandon s = .next t ∧ t.cst.act = .abandoned ∧ t.cst.staged = none ∧ t.cst.patch = s.cst.patch ∧
    t.cst.openReg = s.cst.openReg ∧ t.us = max s.us ((s.cst.armAt + holdMax s) * 1000) := by
  intro i s h1 h2 h3 h4 h5
  refine ⟨_, rfl, ?_⟩
  dsimp only
  rw [h1]
  dsimp only
  rw [if_pos (by rw [h2, h3, h4]; simpa using h5)]
  have e0 : ∀ (l : List (Fin 4)) (u : State), (l.foldl (fun s n => s.modAsq n fun a => { a with actHold := false }) u).cst = u.cst ∧ (l.foldl (fun s n => s.modAsq n fun a => { a with actHold := false }) u).us = u.us := by
    intro l; induction l with
    | nil => intro u; exact ⟨rfl, rfl⟩
    | cons y l ih => intro u; rw [List.foldl_cons, (ih _).1, (ih _).2]; exact ⟨rfl, rfl⟩
  have ha : (advanceTo ((s.cst.armAt + holdMax s) * 1000) s).cst = s.cst := frame_advanceTo _ _ (m := 0x7800000B12) .refl rfl .cst rfl
  have hus := advanceTo_us ((s.cst.armAt + holdMax s) * 1000) s
  generalize advanceTo ((s.cst.armAt + holdMax s) * 1000) s = u at *
  have e1 : (releaseHolds u).cst = u.cst := (e0 _ _).1
  have e2 : (releaseHolds u).us = u.us := (e0 _ _).2
  rw [ev_cst, ev_us]
  dsimp only
  rw [e1, e2, ha]
  exact ⟨rfl, rfl, rfl, rfl, hus⟩

theorem completes_openctlWrite :
    ∀ (v : Word) (s : State), Reach .cst 0 s →
    ∃ t, exec (.openctlWrite (.core .sec) v) s = .next t ∧ t.cst = { s.cst with openEn := v.toNat.testBit 0 } := by
  intro v s h
  refine ⟨_, rfl, ?_⟩
  rw [access_reach h]
  unfold writeOpenctl secOnly
  rw [if_pos rfl, useWindow_cst]

theorem completes_openctlWriteRefused :
    ∀ (m : Master) (v : Word) (s : State), Reach .cst 0 s → m ≠ .core .sec →
    ∃ t, exec (.openctlWrite m v) s = .next t ∧ t.cst = s.cst := by
  intro m v s h h1
  refine ⟨_, rfl, ?_⟩
  rw [access_reach h]
  unfold writeOpenctl secOnly
  rw [if_neg h1]
  simp

theorem completes_readerCheck :
    ∀ (n : Fin 4) (open0 short0 open1 short1 : Bool) (s : State), rwcLive n s = true → s.asq[n].headChk = true →
    ∃ t, exec (.readerCheck n open0 short0 open1 short1) s = .next t ∧ t.asq[n].headChk = false ∧
    t.asq[n].headOk = (!open0 && !short0 && !(optical s && s.asq[n].head / 4 != n.val) && !(headRetired n s.asq[n].head s)) := by
  intro n o0 s0 o1 s1 s h1 h2
  refine ⟨_, rfl, ?_⟩
  rw [if_pos (by rw [h1, h2]; rfl)]
  have fr : ∀ (k : Nat) (a b : Bool) (u : State), (readerEvent n s.asq[n].head k a b u).asq = u.asq := fun k a b u => by
    unfold readerEvent; split
    · exact ev_asq ..
    · split
      · exact ev_asq ..
      · rfl
  have gr : ∀ (k : Nat) (a b : Bool) (u : State), (readerEvent n s.asq[n].head k a b u).sys = u.sys := fun k a b u => by
    unfold readerEvent; split
    · exact ev_sys ..
    · split
      · exact ev_sys ..
      · rfl
  have ge : ∀ (p : Prop) [Decidable p] (x y : State), x.sys = y.sys → (if p then x else y).sys = y.sys := fun p _ x y h => by
    split
    · exact h
    · rfl
  have fe : ∀ (p : Prop) [Decidable p] (x y : State), x.asq = y.asq → (if p then x else y).asq = y.asq := fun p _ x y h => by
    split
    · exact h
    · rfl
  have fc : ∀ u : State, (forceCoefs n u).asq = u.asq := fun u => frame_forceCoefs _ u (m := 0x200000) .refl rfl .asq rfl
  extract_lets h bad0 bad1 s1 s2 single s3 other s4 s5 s6 s7
  have e1 : s1.asq = s.asq := fr ..
  have e2 : s2.asq = s.asq := (fe _ _ _ (fr ..)).trans e1
  have e3 : s3.asq = s.asq := (fe _ _ _ (ev_asq ..)).trans e2
  have y3 : s3.sys = s.sys := (ge _ _ _ (ev_sys ..)).trans ((ge _ _ _ (gr ..)).trans (gr ..))
  have e4 : s4.asq = s.asq := (fe _ _ _ (ev_asq ..)).trans e3
  have e5 : s5.asq = s.asq := (frame_State_modRwc _ _ s4 (m := 0x200000) .refl rfl .asq rfl).trans e4
  have e6 : s6.asq = s.asq := (fe _ _ s5 ((fc _).trans (frame_State_modRwc _ _ s5 (m := 0x200000) .refl rfl .asq rfl))).trans e5
  unfold waitComes
  rw [asq_modAsq]
  have k : ∀ (p : Prop) [Decidable p] (a : Asq), (if p then { a with waitDone := true } else a).headChk = a.headChk ∧
    (if p then { a with waitDone := true } else a).headOk = a.headOk := by
    intro p _ a; split <;> exact ⟨rfl, rfl⟩
  rw [(k _ _).1, (k _ _).2]
  unfold s7
  rw [asq_modAsq]
  refine ⟨rfl, ?_⟩
  have e7 : headRetired n h s6 = headRetired n h s := by unfold headRetired; rw [e6]
  show (!bad0 && !other && !(headRetired n h s6)) = _
  rw [e7]
  show (!(o0 || s0) && !(optical s3 && s.asq[n].head / 4 != n.val) && !(headRetired n s.asq[n].head s)) = _
  rw [Bool.not_or, show optical s3 = optical s by unfold optical; rw [y3]]

theorem completes_clockField :
    ∀ (n : Fin 4) (meas : ClockMeas) (s : State), rwcLive n s = true → optical s = false →
    ∃ t, exec (.clockField n meas) s = .next t ∧ t.rwc[n].inGap = false := by
  intro n meas s h1 h2
  refine ⟨_, rfl, ?_⟩
  rw [if_pos (by rw [h1, h2]; rfl)]
  unfold clockStep gatesFollow
  dsimp only
  rw [rwc_modRwc, rwc_modRwc]

theorem completes_syncADecision :
    ∀ (n : Fin 4) (cands : List SyncCand) (s : State), rwcLive n s = true →
    ∃ t, exec (.syncADecision n cands) s = .next t ∧ t.rwc[n].aClosed = true ∧
    t.rwc[n].aCand = if s.rwc[n].searching then bestCand (-16) 16 cands else s.rwc[n].aCand := by
  intro n cands s h1
  refine ⟨_, rfl, ?_⟩
  rw [if_pos h1, rwc_modRwc]
  exact ⟨rfl, rfl⟩

theorem completes_syncBDecision :
    ∀ (n : Fin 4) (cands : List SyncCand) (s : State), rwcLive n s = true → s.rwc[n].searching = true →
    ∃ t, exec (.syncBDecision n cands) s = .next t ∧ t.rwc[n].searching = false ∧
    t.rwc[n].outcome = (framing s.rwc[n].aCand cands).1 := by
  intro n cands s h1 h2
  refine ⟨_, rfl, ?_⟩
  dsimp only
  rw [if_pos (by rw [h1, h2]; rfl)]
  generalize hu : (s.modRwc n _) = u
  have hk : u.rwc[n].searching = false ∧ u.rwc[n].outcome = (framing s.rwc[n].aCand cands).1 := by
    rw [← hu, rwc_modRwc]; exact ⟨rfl, rfl⟩
  clear hu
  rw [show ∀ (c : Nat) (u : State), (waitComes n c u).rwc[n] = u.rwc[n] from fun _ _ => rfl]
  split
  · exact hk
  · have e1 : ∀ (k : Nat), (rwcBump n k 1 u).rwc[n].searching = false ∧ (rwcBump n k 1 u).rwc[n].outcome = (framing s.rwc[n].aCand cands).1 := by
      intro k; obtain ⟨x, y, e⟩ := rwcBump_rwc n k 1 u; rw [e]; exact hk
    have e2 : ∀ (k : Nat) (b : Bool) (v : State), v.rwc[n].searching = false ∧ v.rwc[n].outcome = (framing s.rwc[n].aCand cands).1 →
        (if b = true then hsmaBump n k v else v).rwc[n].searching = false ∧ (if b = true then hsmaBump n k v else v).rwc[n].outcome = (framing s.rwc[n].aCand cands).1 := by
      intro k b v hv
      split
      · obtain ⟨y, e⟩ := hsmaBump_rwc n k v; rw [e]; exact hv
      · exact hv
    have e4 : ∀ v : State, (rwcLine n 0 (markFail n v)).rwc[n] = v.rwc[n] := fun v => (rwc_of n (rwcLine_rwc ..)).trans (rwc_of n (markFail_rwc ..))
    generalize (framing s.rwc[n].aCand cands).1 = o at *
    have e3 := fun k i b => e2 i b _ (e1 k)
    split
    · rw [e4]; exact e3 _ _ _
    · exact e3 _ _ _

theorem completes_blindFraming :
    ∀ (n : Fin 4) (d : Int) (w : Nat) (s : State), rwcLive n s = true → s.rwc[n].blindPend = true → -2 ≤ d → d ≤ 2 →
    w * 100 ≤ min 100 (fld .blindcfg n 0 6 0 s) * codeChecks n s →
    ∃ t, exec (.blindFraming n [(d, w)]) s = .next t ∧ t.rwc[n].blindPend = false ∧ t.rwc[n].outcome = .blindOk ∧
    t.rwc[n].boff = d := by
  intro n d w s h1 h2 h3 h4 h5
  refine ⟨_, rfl, ?_⟩
  dsimp only
  rw [if_pos (by rw [h1, h2]; rfl)]
  rw [show List.filter (fun x : Int × Nat => -2 ≤ x.1 && x.1 ≤ 2 && x.2 * 100 ≤ min 100 (fld .blindcfg n 0 6 0 s) * codeChecks n s) [(d, w)] = [(d, w)] by
    rw [List.filter_cons_of_pos (by simp [h3, h4]; simpa using h5), List.filter_nil]]
  simp only [List.foldl_cons, List.foldl_nil, Option.isSome_some, if_true]
  rw [rwc_of n (frame_submitCodeword _ _ _ (m := 0x502080) .refl rfl .rwc rfl)]
  obtain ⟨c, w', e⟩ := rwcBump_rwc n 7 1 (s.modRwc n fun r => { r with blindPend := false, aoff := 0, adist := 0, bdist := 0, blindOk := true, boff := d, outcome := .blindOk })
  rw [e, rwc_modRwc]
  exact ⟨rfl, rfl, rfl⟩

theorem completes_blindFramingFails :
    ∀ (n : Fin 4) (s : State), rwcLive n s = true → s.rwc[n].blindPend = true →
    ∃ t, exec (.blindFraming n []) s = .next t ∧ t.rwc[n].blindPend = false ∧ t.rwc[n].outcome = .blindFail := by
  intro n s h1 h2
  refine ⟨_, rfl, ?_⟩
  dsimp only
  rw [if_pos (by rw [h1, h2]; rfl)]
  simp only [List.filter_nil, List.foldl_nil, Option.isSome_none, Bool.false_eq_true, if_false]
  rw [rwc_of n (rwcLine_rwc ..)]
  obtain ⟨c, w, e⟩ := rwcBump_rwc n 8 1 (markFail n (s.modRwc n fun r => { r with blindPend := false, aoff := 0, adist := 0, bdist := 0, blindOk := false, boff := 0, outcome := .blindFail }))
  rw [e]
  dsimp only
  rw [rwc_of n (markFail_rwc ..), rwc_modRwc]
  exact ⟨rfl, rfl⟩

theorem completes_defectSpan :
    ∀ (n : Fin 4) (asperity sat : Bool) (s : State), rwcLive n s = true → s.rwc[n].inDefect = false →
    ∃ t, exec (.defectSpan n asperity sat) s = .next t ∧ t.rwc[n].inDefect = true ∧ t.rwc[n].defect = true := by
  intro n a b s h1 h2
  refine ⟨_, rfl, ?_⟩
  rw [if_pos h1, h2]
  simp only [Bool.false_eq_true, if_false]
  have k : ∀ (c : Bool) (i : Nat) (u : State), u.rwc[n].inDefect = true ∧ u.rwc[n].defect = true → (if c = true then rwcBump n i 1 u else u).rwc[n].inDefect = true ∧ (if c = true then rwcBump n i 1 u else u).rwc[n].defect = true := by
    intro c i u hu
    split
    · obtain ⟨x, y, e⟩ := rwcBump_rwc n i 1 u
      rw [e]; exact hu
    · exact hu
  apply k; apply k
  obtain ⟨x, y, e⟩ := rwcBump_rwc n 14 1 ((adaptRun n s).modRwc n fun r => { r with inDefect := true, defect := true })
  rw [e, rwc_modRwc]
  exact ⟨rfl, rfl⟩

theorem completes_loopLimit :
    ∀ (n : Fin 4) (loop : Fin 6) (s : State), rwcLive n s = true → s.rwc[n].loopen.testBit loop = true →
    loopsFrozen n s = false →
    ∃ t, exec (.loopLimit n loop) s = .next t ∧ t.rwc[n].loopLim = s.rwc[n].loopLim ||| 1 <<< loop.val := by
  intro n loop s h1 h2 h3
  refine ⟨_, rfl, ?_⟩
  dsimp only
  rw [if_pos (by rw [h1, h2, h3]; rfl)]
  have k : ∀ u : State, (limitElem n loop u).rwc[n].loopLim = u.rwc[n].loopLim := fun u => by
    unfold limitElem; dsimp only; split
    · rw [rwc_modRwc]; rfl
    · rfl
  generalize hv : limitElem n loop _ = v
  obtain ⟨x, y, e⟩ := rwcBump_rwc n 17 1 (rwcLine n 2 (ev .rwc 0x0404 n loop (rwHead n v) v))
  rw [e]
  show ((rwcLine n 2 _).rwc[n]).loopLim = _
  rw [rwc_of n (rwcLine_rwc ..), rwc_of n (ev_rwc ..), ← hv, k, rwc_modRwc]

theorem completes_pmonSnap :
    ∀ (b : PmonBlock) (s : State), Reach (pmonBlk b).1 (pmonBlk b).2.1 s →
    ∃ t, exec (.pmonSnap b) s = .next t ∧
    match b with
    | .rwc n => t.rwc[n].shadow = s.rwc[n].cnt ∧ t.rwc[n].cnt = s.rwc[n].cnt
    | .ldp => t.ldp.shadow = s.ldp.cnt ∧ t.ldp.cnt = s.ldp.cnt
    | .sve n => t.sve[n].cntSh = s.sve[n].cnt ∧ t.sve[n].cnt = s.sve[n].cnt
    | .opt => t.opt.cntSh = s.opt.cnt ∧ t.opt.cnt = s.opt.cnt
    | .vlk => t.vlk.cntSh = s.vlk.cnt ∧ t.vlk.cnt = s.vlk.cnt := by
  intro b s h
  refine ⟨_, rfl, ?_⟩
  cases b <;> (dsimp only [pmonBlk] at h ⊢; rw [access_reach h]; dsimp only [pmonSnap])
  · rw [rwc_of _ (useWindow_rwc ..), rwc_modRwc]; exact ⟨rfl, rfl⟩
  · rw [useWindow_ldp]; exact ⟨rfl, rfl⟩
  · rw [useWindow_sve]; simp [State.modSve]
  · rw [useWindow_opt]; exact ⟨rfl, rfl⟩
  · rw [useWindow_vlk]; exact ⟨rfl, rfl⟩

theorem completes_pmonClr :
    ∀ (b : PmonBlock) (s : State), Reach (pmonBlk b).1 (pmonBlk b).2.1 s →
    ∃ t, exec (.pmonClr b) s = .next t ∧
    match b with
    | .rwc n => t.rwc[n].cnt = Vector.replicate 24 0 ∧ t.rwc[n].wrap = 0 ∧ t.rwc[n].shadow = s.rwc[n].shadow
    | .ldp => t.ldp.cnt = Vector.replicate 12 0 ∧ t.ldp.wrap = 0 ∧ t.ldp.shadow = s.ldp.shadow
    | .sve n => t.sve[n].cnt = Vector.replicate 8 0 ∧ t.sve[n].wrap = 0 ∧ t.sve[n].cntSh = s.sve[n].cntSh
    | .opt => t.opt.cnt = Vector.replicate 16 0 ∧ t.opt.wrap = 0 ∧ t.opt.cntSh = s.opt.cntSh
    | .vlk => t.vlk.cnt = Vector.replicate 8 0 ∧ t.vlk.wrap = 0 ∧ t.vlk.cntSh = s.vlk.cntSh := by
  intro b s h
  refine ⟨_, rfl, ?_⟩
  cases b <;> (dsimp only [pmonBlk] at h ⊢; rw [access_reach h]; dsimp only [pmonClr])
  · rw [rwc_of _ (useWindow_rwc ..), rwc_modRwc]; exact ⟨rfl, rfl, rfl⟩
  · rw [useWindow_ldp]; exact ⟨rfl, rfl, rfl⟩
  · rw [useWindow_sve]; simp [State.modSve]
  · rw [useWindow_opt]; exact ⟨rfl, rfl, rfl⟩
  · rw [useWindow_vlk]; exact ⟨rfl, rfl, rfl⟩

theorem completes_codewordDecode :
    ∀ (i : Nat) (c : Codeword) (r : DecodeRes) (s : State), ldpLive s = true → s.ldp.active[i]? = some c → c.blk = none →
    c.frame = none → c.recov = false → r.iters ≤ c.limit → r.crcOk = true → tagGood c r = true → tornSector c s = false →
    ∃ t, exec (.codewordDecode i r) s = .next t ∧ t.ldp.lastFail[finCh c.ch] = false ∧ t.ldp.waiting = s.ldp.waiting := by
  intro i c r s h1 h2 hb h3 h4 h5 h6 h7 h8
  refine ⟨_, rfl, ?_⟩
  rw [h2]
  dsimp only
  rw [if_pos h1, decide_eq_true h5]
  generalize hu : healthAdd .iterations c.head (min r.iters c.limit) _ = u
  have k0 : KeepFail s u := by
    rw [← hu]
    exact KeepFail_healthAdd _ _ _ _ (KeepFail_healthAdd _ _ _ _ (KeepFail_ldpBump 2 _ _ (KeepFail_ldpBump 0 1 _ (KeepFail.refl.trans ⟨rfl, rfl⟩))))
  have hx : u.xmt = s.xmt := by
    rw [← hu]
    exact frame_healthAdd _ _ _ _ (m := 0x40A000) (frame_healthAdd _ _ _ _ (frame_ldpBump _ _ _ (frame_ldpBump _ _ _ (frame_State_modLdp _ _ .refl rfl) rfl) rfl) rfl) rfl .xmt rfl
  have ht : tornSector c u = false := by unfold tornSector; rw [hx]; exact h8
  rw [if_neg (by rw [ht]; simp)]
  have e : finishWord c true r u = finishCodeword c true r u := by unfold finishWord; rw [hb]
  rw [e]
  have k := finish_good (s := u) h3 h4 h6 h7 ht
  have k2 := KeepFail_ldpRun _ (KeepFail.refl (s := finishCodeword c true r u))
  exact ⟨(fail_of _ k2.1).trans k.1, k2.2.trans (k.2.trans k0.2)⟩

theorem completes_codewordDecodeSqueezed :
    ∀ (i : Nat) (c : Codeword) (r : DecodeRes) (s : State), ldpLive s = true → s.ldp.active[i]? = some c →
    c.squeezed = true → (c.limit < r.iters ∨ tornSector c s = true) →
    ∃ t, exec (.codewordDecode i r) s = .next t ∧ t.ldp.waiting = s.ldp.waiting ++ [c] ∧ t.ldp.lastFail = s.ldp.lastFail := by
  intro i c r s h1 h2 h3 h4
  refine ⟨_, rfl, ?_⟩
  rw [h2]
  dsimp only
  rw [if_pos h1]
  generalize hu : healthAdd .iterations c.head (min r.iters c.limit) _ = u
  have k0 : KeepFail s u := by
    rw [← hu]
    exact KeepFail_healthAdd _ _ _ _ (KeepFail_healthAdd _ _ _ _ (KeepFail_ldpBump 2 _ _ (KeepFail_ldpBump 0 1 _ (KeepFail.refl.trans ⟨rfl, rfl⟩))))
  have hx : u.xmt = s.xmt := by
    rw [← hu]
    exact frame_healthAdd _ _ _ _ (m := 0x40A000) (frame_healthAdd _ _ _ _ (frame_ldpBump _ _ _ (frame_ldpBump _ _ _ (frame_State_modLdp _ _ .refl rfl) rfl) rfl) rfl) rfl .xmt rfl
  have ht : tornSector c u = tornSector c s := by unfold tornSector; rw [hx]
  have g : (c.squeezed && !(decide (r.iters ≤ c.limit) && !(tornSector c u))) = true := by
    rw [h3, ht]
    rcases h4 with h | h
    · rw [decide_eq_false (by omega)]; rfl
    · rw [h]; simp
  rw [if_pos g]
  have k2 := KeepFail_ldpRun _ (KeepFail.refl (s := u.modLdp fun l => { l with waiting := l.waiting ++ [c] }))
  rw [k2.1, k2.2]
  exact ⟨by show u.ldp.waiting ++ [c] = _; rw [k0.2], k0.1⟩

theorem completes_squeezeRedecode :
    ∀ (c : Codeword) (rest : List Codeword) (r : DecodeRes) (s : State), s.ldp.waiting = c :: rest → ldpLive s = true →
    squeezeOn s = false → c.blk = none → c.frame = none → c.recov = false → r.iters ≤ fpIter s → r.crcOk = true → tagGood c r = true →
    tornSector c s = false →
    ∃ t, exec (.squeezeRedecode r) s = .next t ∧ t.ldp.waiting = rest ∧ t.ldp.lastFail[finCh c.ch] = false := by
  intro c rest r s h1 h2 h3 hb h4 h5 h6 h7 h8 h9
  refine ⟨_, rfl, ?_⟩
  rw [h1]
  dsimp only
  rw [if_pos (by rw [h2, h3]; rfl)]
  have k0 := KeepFail_ldpBump 2 (min r.iters (fpIter s)) _ (KeepFail.refl (s := s.modLdp fun l => { l with waiting := rest }))
  have hr : (ldpBump 2 (min r.iters (fpIter s)) (s.modLdp fun l => { l with waiting := rest })).regs = s.regs :=
    frame_ldpBump _ _ _ (m := 0x402000) .refl rfl .regs rfl
  have hx : (ldpBump 2 (min r.iters (fpIter s)) (s.modLdp fun l => { l with waiting := rest })).xmt = s.xmt :=
    frame_ldpBump _ _ _ (m := 0x402000) (frame_State_modLdp _ _ .refl rfl) rfl .xmt rfl
  generalize (ldpBump 2 (min r.iters (fpIter s)) (s.modLdp fun l => { l with waiting := rest })) = u at *
  have e : fpIter u = fpIter s := by
    unfold fpIter
    rw [show fld .ldpCfg 0 0 5 0 u = fld .ldpCfg 0 0 5 0 s by unfold fld; rw [reg_congr hr]]
  rw [e, decide_eq_true h6]
  have w : ∀ v, finishWord c true r v = finishCodeword c true r v := fun v => by unfold finishWord; rw [hb]
  rw [w]
  have k := finish_good (s := u) h4 h5 h7 h8 (by unfold tornSector; rw [hx]; exact h9)
  exact ⟨k.2.trans k0.2, k.1⟩

theorem clusterSectors_good {n : Fin 4} : ∀ (l : List SectorCheck) (u : State), (l.all fun x => x.crcOk && x.tagOk) = true →
    l.foldl (fun s x => clusterSector n x s) u = u := by
  intro l; induction l with
  | nil => intro u _; rfl
  | cons a l ih =>
    intro u h
    rw [List.all_cons, Bool.and_eq_true] at h
    rw [List.foldl_cons]
    have e : clusterSector n a u = u := by unfold clusterSector; rw [if_pos h.1]
    rw [e]; exact ih u h.2

theorem completes_clusterDecodeGood :
    ∀ (n : Fin 4) (addr : Nat) (cols : List (Nat × Nat)) (sectors : List SectorCheck) (s : State), ldpLive s = true → optical s = true →
    chanExists n s = true → (∀ x ∈ cols, 2 * x.1 + x.2 ≤ 32) →
    (sectors.all fun x => x.crcOk && x.tagOk) = true →
    exec (.clusterDecode n addr cols sectors) s = .next (ldpBump 10 cols.length s) := by
  intro n addr cols l s h1 h2 h3 h4 h6
  change execClusterDecode n addr cols l s = _
  unfold execClusterDecode
  rw [if_pos (by rw [h1, h2, h3]; rfl)]
  dsimp only
  have hz : (cols.filter fun (x : Nat × Nat) => 32 < 2 * x.1 + x.2) = [] := List.filter_eq_nil_iff.mpr fun x hx => by
    have := h4 x hx
    simp only [decide_eq_true_eq]; omega
  rw [clusterSectors_good _ _ h6, if_pos (by change List.length (cols.filter fun (x : Nat × Nat) => 32 < 2 * x.1 + x.2) = 0; rw [hz]; rfl)]

theorem completes_clusterDecode :
    ∀ (n : Fin 4) (addr : Nat) (cols : List (Nat × Nat)) (sectors : List SectorCheck) (s : State), ldpLive s = true → optical s = true →
    chanExists n s = true → (∃ x ∈ cols, 32 < 2 * x.1 + x.2) →
    (sectors.all fun x => x.crcOk && x.tagOk) = true → EventRoom s →
    ∃ t, exec (.clusterDecode n addr cols sectors) s = .next t ∧ Recorded 0x0540 t ∧ 358 ∈ t.irq.pending := by
  intro n addr cols l s h1 h2 h3 h4 h6 h5
  refine ⟨_, rfl, ?_⟩
  rw [if_pos (by rw [h1, h2, h3]; rfl)]
  dsimp only
  have hne : (cols.filter fun (x : Nat × Nat) => 32 < 2 * x.1 + x.2).length ≠ 0 := by
    obtain ⟨x, hx, hy⟩ := h4
    intro h0
    have := List.length_eq_zero_iff.mp h0
    have hm : x ∈ cols.filter fun (x : Nat × Nat) => 32 < 2 * x.1 + x.2 := List.mem_filter.mpr ⟨hx, by simpa using hy⟩
    rw [this] at hm; exact absurd hm (by simp)
  rw [if_neg (by exact hne)]
  rw [clusterSectors_good l _ h6]
  constructor
  · refine (recorded_congr (by rfl)).mpr (recorded_ev ?_)
    unfold EventRoom at h5
    have e : ∀ a b u, (ldpBump a b u).evr = u.evr := fun _ _ _ => frame_ldpBump _ _ _ (m := 0x402000) .refl rfl .evr rfl
    rw [e, e]; exact Nat.lt_of_lt_of_le h5 (by decide)
  · unfold raiseLine; dsimp only; rw [mem_insertNat]; exact .inl rfl

end Sys2Proof.Machine
end

