-- ==== Sys2Proof/Laws/CompleteHost.lean ====
section
/-!
SUPPORT. Queue, I/O, log and feature commands that complete. One lemma for each part of a completion statement.
-/

set_option Elab.async false
set_option linter.all false

namespace Sys2Proof.Machine

theorem completes_sqTailDoorbell :
    ∀ (c : Fin 2) (q tail : Nat) (entries : List NvmeCmd) (s : State) (sq : Sq), pdOn 8 s = true → (ctrlAt c s).en = true →
    (ctrlAt c s).sqs.find? (·.id == q) = some sq → tail < sq.size →
    entries.length = (tail + sq.size - sq.tail) % sq.size →
    ∃ t, exec (.sqTailDoorbell c q tail entries) s = .next t ∧
    (ctrlAt c t).sqs.find? (·.id == q) = some { sq with tail := tail, entries := sq.entries ++ entries } := by
  intro c q tail entries s sq h1 h2 h3 h4 h5
  refine ⟨_, rfl, ?_⟩
  have z : zeroAsOne sq.size = sq.size := by unfold zeroAsOne; rw [if_neg (by omega)]
  simp only [h3, h1, h2, h4, decide_true, Bool.and_self, Bool.true_and, z, h5, if_true]
  have key := sqs_modSq c q (fun x => { x with tail := tail, entries := x.entries ++ entries }) (fun _ => rfl) (unwindEntry (draw (2 ^ 32) s) s)
  rw [ctrlAt_congr (ctrl_unwindEntry (draw (2 ^ 32) s) s), h3] at key
  split <;> exact key

theorem completes_cqHeadDoorbell :
    ∀ (c : Fin 2) (q head : Nat) (s : State) (cq : Cq), pdOn 8 s = true → (ctrlAt c s).en = true →
    (ctrlAt c s).cqs.find? (·.id == q) = some cq → head < cq.size → (head + cq.size - cq.head) % cq.size ≤ cq.posted.length →
    ∃ t, exec (.cqHeadDoorbell c q head) s = .next t ∧
    (ctrlAt c t).cqs.find? (·.id == q) =
    some { cq with head := head, posted := cq.posted.drop ((head + cq.size - cq.head) % cq.size) } := by
  intro c q head s cq h1 h2 h3 h4 h5
  refine ⟨_, rfl, ?_⟩
  have z : zeroAsOne cq.size = cq.size := by unfold zeroAsOne; rw [if_neg (by omega)]
  simp only [h3, h1, h2, h4, decide_true, Bool.and_self, Bool.true_and, z, h5, if_true]
  have key := cqs_modCq c q (fun x => { x with head := head, posted := x.posted.drop ((head + cq.size - cq.head) % cq.size) }) (fun _ => rfl) (unwindEntry (draw (2 ^ 32) s) s)
  rw [ctrlAt_congr (ctrl_unwindEntry (draw (2 ^ 32) s) s), h3] at key
  exact key

theorem completes_commandFetch :
    ∀ (s : State) (k q n : Nat) (sq : Sq) (m : NvmeCmd) (rest : List NvmeCmd), hceUp s = true → pdOn 10 s = true →
    s.sys.seq = .none → s.sup.loss = false → s.rvr.recStep ≠ 0 → s.hce.closed = false → s.hce.ioClosed = false → s.lgr.frozen = false → s.thm.shut = false →
    s.hce.pause = none → pauseNow s = false → s.hce.burst = some (k, q, n + 1) →
    (ctrlAt k s).sqs.find? (·.id == q) = some sq → sq.entries = m :: rest →
    s.lgr.entries.length + rangesOf m ≤ 8192 → takesOrd q m.op = true →
    ∃ t, exec (.commandFetch none) s = .next t ∧ t.lgr.ordNext = (s.lgr.ordNext + 1) % 2 ^ 32 := by
  intro s k q n sq m rest h1 h2 h3 h4 hr h5 hi h6 h7 h8 h9 h10 h11 h12 h13 h14
  have hc : checkPause s = s := by
    simp only [pauseNow, Bool.or_eq_false_iff] at h9
    simp only [checkPause, h8, h9.1.1, h9.1.2, h9.2]
    simp
  have e : exec (.commandFetch none) s = .next (fetchNext false s) := by
    show execCommandFetch none s = _
    simp only [execCommandFetch, h1, h2, h3, h4, h5, h6, h7, hi, hc, h8]
    simp [hr]
  refine ⟨_, e, ?_⟩
  have f : fetchNext false s = checkPause (enterCmd k q ((sq.head + 1) % zeroAsOne sq.size) false m
      ((modSq k q (fun x => { x with head := (sq.head + 1) % zeroAsOne sq.size, entries := rest }) s).modHce fun h =>
        { h with burst := if n + 1 ≤ 1 then none else some (k, q, n) })) := by
    simp only [fetchNext, h10]
    simp [h10, h11, h12, h6]
    omega
  rw [f]
  refine Eq.trans (show _ = _ from KeepOrd_checkPause _ .refl) ?_
  exact enterCmd_ord h14

theorem completes_fetchPauseEnd :
    ∀ (s : State) (x : Bool × Bool × Bool × Nat), s.hce.pause = some x → hceUp s = true → pauseNow s = false →
    ∃ t, exec .fetchPauseEnd s = .next t ∧ t.hce.pause = none ∧ 134 ∈ t.irq.pending := by
  intro s x h1 h2 h3
  obtain ⟨l, _, a, at_⟩ := x
  refine ⟨_, rfl, ?_⟩
  simp [h1, h2, h3, raiseLine, State.modHce, mem_insertNat]

theorem completes_writeTransferStart :
    ∀ (tag : Fin 4096) (c : Cmd) (s : State), cmdAt tag s = some c → c.phase = .capped → hceUp s = true →
    underCap c s = true →
    ∃ t, exec (.writeTransferStart tag) s = .next t ∧ cmdAt tag t = some { c with phase := .moving } := by
  intro tag c s h1 h2 h3 h4
  refine ⟨_, rfl, ?_⟩
  simp only [h1, h2, h3, h4, beq_self_eq_true, Bool.and_self, if_true]
  rw [cmdAt_modCmd (f := fun x => { x with phase := .moving }) (fun _ => rfl), h1]
  rfl

theorem completes_dataTransferComplete :
    ∀ (tag : Fin 4096) (c : Cmd) (e : LEntry) (o : Nat) (s : State), s.hce.cmds = [c] → c.tag = tag.val → c.phase = .moving →
    opStores c.cmd.op = true → hceUp s = true → c.ord = some o → entryAt o s = some e → piCheck c e.slba [] s = 0 → e.fua = false →
    ∃ t, exec (.dataTransferComplete tag) s = .next t ∧ Done tag stOk t := by
  intro tag c e o s h1 h2 h3 h4 h5 h6 h7 h8 h9
  have hc : cmdAt tag s = some c := by simp [cmdAt, h1, h2]
  refine ⟨_, rfl, ?_⟩
  simp only [hc, h3, h4, h5, h6, beq_self_eq_true, Bool.and_self, if_true, Option.bind_some, h7]
  have ho : e.ord = o := by
    unfold entryAt at h7
    simpa using List.find?_some h7
  rw [← h2]
  exact dataArrived_settle h1 h4 h6 h8 h9

theorem completes_hostMemoryError :
    ∀ (tag : Fin 4096) (c : Cmd) (s : State), cmdAt tag s = some c → hceUp s = true →
    (c.phase = .accepted ∨ c.phase = .moving) →
    ∃ t, exec (.hostMemoryError tag) s = .next t ∧ Done tag stTransfer t := by
  intro tag c s h1 h2 h3
  refine ⟨_, rfl, ?_⟩
  have e : (hceUp s && (c.phase == .accepted || c.phase == .moving)) = true := by
    rcases h3 with h | h <;> simp [h2, h]
  simp only [h1, e, if_true]
  refine done_finish ?_
  rw [cmdAt_isSome]
  have k0 : tag.val ∈ s.hce.tags := cmdAt_isSome.mp (by rw [h1]; rfl)
  have k1 : KeepTags s (ev .hce 0x0111 tag c.ctrl 0 (if opFast c.cmd.op then exception tag 5 s else s)) :=
    KeepTags_ev _ _ _ _ _ _ (.ite (KeepTags_exception _ _ _ .refl) .refl)
  generalize ev .hce 0x0111 tag c.ctrl 0 (if opFast c.cmd.op then exception tag 5 s else s) = u at *
  split
  · next o _ =>
    have k2 : KeepTags s (if opStores c.cmd.op = true then dropWrite o u else u) := KeepTags.ite (KeepTags_dropWrite _ _ k1) k1
    rw [show Hce.tags _ = _ from k2]; exact k0
  · rw [show Hce.tags _ = _ from k1]; exact k0

theorem completes_completionPost :
    ∀ (tag : Fin 4096) (c : Cmd) (sq : Sq) (cq : Cq) (s : State), cmdAt tag s = some c → c.phase = .finished →
    hceUp s = true → zoneHole c s = false → c.fromMi = false →
    (ctrlAt c.ctrl s).sqs.find? (·.id == c.sqid) = some sq → (ctrlAt c.ctrl s).cqs.find? (·.id == sq.cq) = some cq →
    cq.posted.length + 1 < cq.size → c.ord = none → asqHolds tag s = false →
    ∃ t, exec (.completionPost tag) s = .next t ∧ cmdAt tag t = none ∧
    ∃ v, (ctrlAt c.ctrl t).cqs.find? (·.id == sq.cq) = some v ∧ v.posted.length = cq.posted.length + 1 := by
  intro tag c sq cq s h1 h2 h3 h4 h5 h6 h7 h8 h9 h10
  rw [← cmdAt_tag h1] at h10
  refine ⟨_, rfl, ?_⟩
  simp only [h1, h2, h3, h4, h5, h6, h7, h8, h10, beq_self_eq_true, Bool.and_self, Bool.not_false, if_true, Bool.false_eq_true, if_false]
  obtain ⟨w, a, b⟩ := postCqe_cq h7
  obtain ⟨k1, k2⟩ := completed_cq (c := c) (s := postCqe c sq.cq cq s) h9
  rw [cmdAt_tag h1] at k1
  exact ⟨k1, w, by rw [k2]; exact a, b⟩

theorem completes_interruptCoalescingTimeout :
    ∀ (c : Fin 2) (q : Nat) (cq : Cq) (s : State), hceUp s = true → (ctrlAt c s).cqs.find? (·.id == q) = some cq →
    cq.coalesced ≠ 0 →
    ∃ t, exec (.interruptCoalescingTimeout c q) s = .next t ∧
    (ctrlAt c t).cqs.find? (·.id == q) = some { cq with raised := cq.raised + 1, coalesced := 0 } := by
  intro c q cq s h1 h2 h3
  refine ⟨_, rfl, ?_⟩
  have e : (cq.coalesced != 0) = true := by simpa using h3
  simp only [h2, h1, e, Bool.and_self, if_true]
  rw [cqs_modCq c q (fun v => { v with raised := v.raised + 1, coalesced := 0 }) (fun _ => rfl), h2]
  rfl

theorem completes_recoveryTimeLimitExpiry :
    ∀ (tag : Fin 4096) (c : Cmd) (o : Nat) (r : LEntry) (s : State), cmdAt tag s = some c → hceUp s = true →
    c.ord = some o → opIo c.cmd.op = true → opReads c.cmd.op = true → c.phase = .accepted → entryAt o s = some r →
    selMedia r.sel = true → mediaUp s = false →
    ∃ t, exec (.recoveryTimeLimitExpiry tag) s = .next t ∧ Done tag stNotReady t ∧
    t.us = max s.us ((c.fetched + 10 * s.hce.rtl) * 1000) := by
  intro tag c o r s h1 h2 h3 h4 h5 h6 h7 h8 h9
  refine ⟨_, rfl, ?_⟩
  simp only [h1, h2, h3, h4, Option.isSome_some, Bool.and_self, if_true]
  have hu := advanceTo_us ((c.fetched + 10 * s.hce.rtl) * 1000) s
  have hh : (advanceTo ((c.fetched + 10 * s.hce.rtl) * 1000) s).hce = s.hce := frame_advanceTo _ s (m := 0x7800000B12) .refl rfl .hce rfl
  have hg : (advanceTo ((c.fetched + 10 * s.hce.rtl) * 1000) s).lgr = s.lgr := frame_advanceTo _ s (m := 0x7800000B12) .refl rfl .lgr rfl
  have hs : (advanceTo ((c.fetched + 10 * s.hce.rtl) * 1000) s).spn = s.spn := frame_advanceTo _ s (m := 0x7800000B12) .refl rfl .spn rfl
  have hp := KeepPwr_advanceTo ((c.fetched + 10 * s.hce.rtl) * 1000) s (o := s) .refl
  generalize advanceTo _ s = u at *
  have e1 : entryAt o u = some r := by simpa only [entryAt, hg] using h7
  have e2 : mediaUp u = false := by simpa only [mediaUp, pdOn, hp.2.2.2.2.2, hs] using h9
  simp only [limitPassed, h3, Option.getD_some, h5, h6, beq_self_eq_true, Bool.and_self, if_true, e1, h8, e2, Bool.not_false]
  have ht := cmdAt_tag h1
  refine ⟨?_, ?_⟩
  · rw [ht]; exact done_finish (by rw [cmdAt_congr (congrArg Hce.cmds hh), h1]; rfl)
  · exact (frame_finish _ _ _ (m := 0x18080) .refl rfl .us rfl).trans hu

theorem completes_abortMatch :
    ∀ (m : Master) (v : Word) (s : State), Reach .hce 0 s →
    ∃ t, exec (.abortMatch m v) s = .next t ∧ t.hce.abDone = true ∧
    (∀ x, matchTarget (bits v.toNat 30 30) (bits v.toNat 24 16) (bits v.toNat 15 0) s = some x →
    t.hce.abMatched = true ∧ t.hce.abTag = x.tag) ∧
    (matchTarget (bits v.toNat 30 30) (bits v.toNat 24 16) (bits v.toNat 15 0) s = none → t.hce.abMatched = false) := by
  intro m v s h
  have e : exec (.abortMatch m v) s = .next (useWindow .hce 0 (writeAbortReq (v.toNat ||| 2 ^ 31) s)) := by
    show Host.Outcome.next (access .hce 0 _ _ s) = _
    rw [access_reach h]
  refine ⟨_, e, ?_⟩
  have b0 : (v.toNat ||| 2 ^ 31).testBit 31 = true := by rw [Nat.testBit_or, Nat.testBit_two_pow_self, Bool.or_true]
  have b : ∀ hi lo, hi < 31 → bits (v.toNat ||| 2 ^ 31) hi lo = bits v.toNat hi lo := by
    intro hi lo hh; unfold bits; apply Nat.eq_of_testBit_eq; intro i
    simp only [Nat.testBit_mod_two_pow, Nat.testBit_shiftRight, Nat.testBit_or, Nat.testBit_two_pow]
    by_cases hi' : i < hi + 1 - lo
    · have : ¬ (31 = lo + i) := by omega
      simp [hi', this]
    · simp [hi']
  simp only [writeAbortReq, b0, if_true, b 30 30 (by decide), b 24 16 (by decide), b 15 0 (by decide), useWindow_hce]
  have hc : (storeFields .abortreq 0 0 (v.toNat ||| 2 ^ 31) s).hce = s.hce := frame_storeFields _ _ _ _ _ (m := 0x1800000110) .refl rfl .hce rfl
  have hm : ∀ a b c, matchTarget a b c (storeFields .abortreq 0 0 (v.toNat ||| 2 ^ 31) s) = matchTarget a b c s := by
    intro a b c; simp only [matchTarget, hc]
  simp only [matchCmd, hm]
  split
  · next x hx =>
    rw [ev_hce]
    have k := fun u => KeepAb_stopCmd x u (o := u) .refl
    refine ⟨(k _).1.trans rfl, fun y hy => ?_, fun hn => by rw [hn] at hx; cases hx⟩
    rw [hy] at hx; cases hx
    exact ⟨(k _).2.1.trans rfl, (k _).2.2.trans rfl⟩
  · next hx =>
    rw [ev_hce]
    refine ⟨rfl, ?_, fun _ => rfl⟩
    intro y hy; rw [hy] at hx; cases hx

theorem completes_read :
    ∀ (tag : Fin 4096) (steps : List (Nat × Nat)) (c : Cmd) (r : LEntry) (s : State), Ready .read tag c s → Readable c r s →
    .unrecovered ∉ readValues r (ladderLost c steps s) s → piCheck c c.cmd.slba (r.sel.map (· == .zeroes)) s = 0 →
    ∃ t, exec (.read tag steps) s = .next t ∧ Done tag stOk t ∧
    (ctrlAt c.ctrl t).lastData = (readValues r (ladderLost c steps s) s).map sectorNum := by
  intro tag steps c r s h h1 h2 h3
  refine ⟨_, (by change execRead tag steps s = _; unfold execRead; exact withCmd_ready h (by rfl)), ?_⟩
  obtain ⟨u, e, k⟩ := readCmd_good (steps := steps) h1 h2 h3
  have hl : (cmdAt tag u).isSome = true := by rw [cmdAt_isSome, k]; exact cmdAt_isSome.mp (by rw [h.1]; rfl)
  rw [e, h.tag]
  exact ⟨done_finish (by rw [cmdAt_congr rfl]; exact hl), by simp⟩

theorem completes_readUnrecovered :
    ∀ (tag : Fin 4096) (steps : List (Nat × Nat)) (c : Cmd) (r : LEntry) (s : State), Ready .read tag c s → Readable c r s →
    .unrecovered ∈ readValues r (ladderLost c steps s) s →
    ∃ t, exec (.read tag steps) s = .next t ∧ Done tag stUnrecovered t := by
  intro tag steps c r s h h1 h2
  refine ⟨_, (by change execRead tag steps s = _; unfold execRead; exact withCmd_ready h (by rfl)), ?_⟩
  obtain ⟨u, e, k⟩ := readCmd_lost (steps := steps) h1 h2
  rw [e, h.tag]
  exact done_finish (by rw [cmdAt_isSome, k]; exact cmdAt_isSome.mp (by rw [h.1]; rfl))

theorem completes_readPi :
    ∀ (tag : Fin 4096) (steps : List (Nat × Nat)) (c : Cmd) (r : LEntry) (s : State), Ready .read tag c s → Readable c r s →
    .unrecovered ∉ readValues r (ladderLost c steps s) s → piCheck c c.cmd.slba (r.sel.map (· == .zeroes)) s ≠ 0 →
    ∃ t, exec (.read tag steps) s = .next t ∧
    Done tag (piStatus (piCheck c c.cmd.slba (r.sel.map (· == .zeroes)) s)) t := by
  intro tag steps c r s h h1 h2 h3
  refine ⟨_, (by change execRead tag steps s = _; unfold execRead; exact withCmd_ready h (by rfl)), ?_⟩
  obtain ⟨u, e, k⟩ := readCmd_pi (steps := steps) h1 h2 h3
  rw [e, h.tag]
  exact done_finish (by rw [cmdAt_isSome, k]; exact cmdAt_isSome.mp (by rw [h.1]; rfl))

theorem completes_write :
    ∀ (tag : Fin 4096) (c : Cmd) (s : State), Ready .write tag c s →
    ∃ t, exec (.write tag) s = .next t ∧ cmdAt tag t = some { c with phase := if underCap c s then .moving else .capped } := by
  intro tag c s h
  refine ⟨_, (by change execWrite tag s = _; unfold execWrite; (try unfold withNs); (try unfold zoneSend); (try unfold vendorLog); (try unfold setFeature); exact withCmd_ready h (by rfl)), ?_⟩
  rw [startWrite, h.tag, cmdAt_modCmd (f := fun x => { x with phase := if underCap c s then .moving else .capped }) (fun _ => rfl), h.1]
  simp [h.tag]

theorem completes_zoneAppend :
    ∀ (tag : Fin 4096) (c : Cmd) (s : State), Ready .zoneAppend tag c s →
    ∃ t, exec (.zoneAppend tag) s = .next t ∧
    cmdAt tag t = some { c with phase := if underCap c s then .moving else .capped } := by
  intro tag c s h
  refine ⟨_, (by change execZoneAppend tag s = _; unfold execZoneAppend; (try unfold withNs); (try unfold zoneSend); (try unfold vendorLog); (try unfold setFeature); exact withCmd_ready h (by rfl)), ?_⟩
  rw [startWrite, h.tag, cmdAt_modCmd (f := fun x => { x with phase := if underCap c s then .moving else .capped }) (fun _ => rfl), h.1]
  simp [h.tag]

theorem completes_flush :
    ∀ (tag : Fin 4096) (c : Cmd) (o : Nat) (s : State), Ready .flush tag c s → c.ord = some o →
    (∀ d ∈ flushDoms c s, older o (frontier d s) = true) →
    ∃ t, exec (.flush tag) s = .next t ∧ Done tag stOk t := by
  intro tag c o s h h1 h2
  refine ⟨_, (by change execFlush tag s = _; unfold execFlush; (try unfold withNs); (try unfold zoneSend); (try unfold vendorLog); (try unfold setFeature); exact withCmd_ready h (by rfl)), ?_⟩
  have e : passed (c.ord.getD 0) (flushDoms c s) s = true := by simpa [passed, h1] using h2
  rw [if_pos e]
  exact h.done rfl _ _ _

theorem completes_compare :
    ∀ (tag : Fin 4096) (steps : List (Nat × Nat)) (c : Cmd) (r : LEntry) (s : State), Ready .compare tag c s → Readable c r s →
    .unrecovered ∉ readValues r (ladderLost c steps s) s → piCheck c c.cmd.slba (r.sel.map (· == .zeroes)) s = 0 →
    ∃ t, exec (.compare tag steps) s = .next t ∧
    ((readValues r (ladderLost c steps s) s).map sectorNum = (List.range c.cmd.nlb).map (fun i => sectorNum (c.cmd.data.getD i .zeroes)) →
    Done tag stOk t) ∧
    ((readValues r (ladderLost c steps s) s).map sectorNum ≠ (List.range c.cmd.nlb).map (fun i => sectorNum (c.cmd.data.getD i .zeroes)) →
    Done tag stCompare t) := by
  intro tag steps c r s h h1 h2 h3
  refine ⟨_, (by change execCompare tag steps s = _; unfold execCompare; exact withCmd_ready h (by rfl)), ?_⟩
  obtain ⟨u, e, k⟩ := readCmd_good (steps := steps) h1 h2 h3
  have hl : (cmdAt tag u).isSome = true := by rw [cmdAt_isSome, k]; exact cmdAt_isSome.mp (by rw [h.1]; rfl)
  rw [e, h.tag]
  refine ⟨fun g => ?_, fun g => ?_⟩
  · dsimp only; rw [if_pos g]; exact done_finish hl
  · dsimp only; rw [if_neg g]; exact done_finish hl

theorem completes_compareUnrecovered :
    ∀ (tag : Fin 4096) (steps : List (Nat × Nat)) (c : Cmd) (r : LEntry) (s : State), Ready .compare tag c s → Readable c r s →
    .unrecovered ∈ readValues r (ladderLost c steps s) s →
    ∃ t, exec (.compare tag steps) s = .next t ∧ Done tag stUnrecovered t := by
  intro tag steps c r s h h1 h2
  refine ⟨_, (by change execCompare tag steps s = _; unfold execCompare; exact withCmd_ready h (by rfl)), ?_⟩
  obtain ⟨u, e, k⟩ := readCmd_lost (steps := steps) h1 h2
  rw [e, h.tag]
  exact done_finish (by rw [cmdAt_isSome, k]; exact cmdAt_isSome.mp (by rw [h.1]; rfl))

theorem completes_comparePi :
    ∀ (tag : Fin 4096) (steps : List (Nat × Nat)) (c : Cmd) (r : LEntry) (s : State), Ready .compare tag c s → Readable c r s →
    .unrecovered ∉ readValues r (ladderLost c steps s) s → piCheck c c.cmd.slba (r.sel.map (· == .zeroes)) s ≠ 0 →
    ∃ t, exec (.compare tag steps) s = .next t ∧
    Done tag (piStatus (piCheck c c.cmd.slba (r.sel.map (· == .zeroes)) s)) t := by
  intro tag steps c r s h h1 h2 h3
  refine ⟨_, (by change execCompare tag steps s = _; unfold execCompare; exact withCmd_ready h (by rfl)), ?_⟩
  obtain ⟨u, e, k⟩ := readCmd_pi (steps := steps) h1 h2 h3
  rw [e, h.tag]
  exact done_finish (by rw [cmdAt_isSome, k]; exact cmdAt_isSome.mp (by rw [h.1]; rfl))

theorem completes_verify :
    ∀ (tag : Fin 4096) (steps : List (Nat × Nat)) (c : Cmd) (r : LEntry) (s : State), Ready .verify tag c s → Readable c r s →
    .unrecovered ∉ readValues r (ladderLost c steps s) s → piCheck c c.cmd.slba (r.sel.map (· == .zeroes)) s = 0 →
    ∃ t, exec (.verify tag steps) s = .next t ∧ Done tag stOk t := by
  intro tag steps c r s h h1 h2 h3
  refine ⟨_, (by change execVerify tag steps s = _; unfold execVerify; exact withCmd_ready h (by rfl)), ?_⟩
  obtain ⟨u, e, k⟩ := readCmd_good (steps := steps) h1 h2 h3
  have hl : (cmdAt tag u).isSome = true := by rw [cmdAt_isSome, k]; exact cmdAt_isSome.mp (by rw [h.1]; rfl)
  rw [e, h.tag]
  exact done_finish hl

theorem completes_verifyUnrecovered :
    ∀ (tag : Fin 4096) (steps : List (Nat × Nat)) (c : Cmd) (r : LEntry) (s : State), Ready .verify tag c s → Readable c r s →
    .unrecovered ∈ readValues r (ladderLost c steps s) s →
    ∃ t, exec (.verify tag steps) s = .next t ∧ Done tag stUnrecovered t := by
  intro tag steps c r s h h1 h2
  refine ⟨_, (by change execVerify tag steps s = _; unfold execVerify; exact withCmd_ready h (by rfl)), ?_⟩
  obtain ⟨u, e, k⟩ := readCmd_lost (steps := steps) h1 h2
  rw [e, h.tag]
  exact done_finish (by rw [cmdAt_isSome, k]; exact cmdAt_isSome.mp (by rw [h.1]; rfl))

theorem completes_verifyPi :
    ∀ (tag : Fin 4096) (steps : List (Nat × Nat)) (c : Cmd) (r : LEntry) (s : State), Ready .verify tag c s → Readable c r s →
    .unrecovered ∉ readValues r (ladderLost c steps s) s → piCheck c c.cmd.slba (r.sel.map (· == .zeroes)) s ≠ 0 →
    ∃ t, exec (.verify tag steps) s = .next t ∧
    Done tag (piStatus (piCheck c c.cmd.slba (r.sel.map (· == .zeroes)) s)) t := by
  intro tag steps c r s h h1 h2 h3
  refine ⟨_, (by change execVerify tag steps s = _; unfold execVerify; exact withCmd_ready h (by rfl)), ?_⟩
  obtain ⟨u, e, k⟩ := readCmd_pi (steps := steps) h1 h2 h3
  rw [e, h.tag]
  exact done_finish (by rw [cmdAt_isSome, k]; exact cmdAt_isSome.mp (by rw [h.1]; rfl))

theorem completes_writeUncorrectable :
    ∀ (tag : Fin 4096) (c : Cmd) (s : State), Ready .writeUncorrectable tag c s → c.cmd.fua = false →
    ∃ t, exec (.writeUncorrectable tag) s = .next t ∧ Done tag stOk t := by
  intro tag c s h h1
  refine ⟨_, (by change execWriteUncorrectable tag s = _; unfold execWriteUncorrectable; (try unfold withNs); (try unfold zoneSend); (try unfold vendorLog); (try unfold setFeature); exact withCmd_ready h (by rfl)), ?_⟩
  simp only [noData, h1, Bool.false_eq_true, if_false]
  exact h.done rfl _ _ _

theorem completes_writeZeroes :
    ∀ (tag : Fin 4096) (c : Cmd) (s : State), Ready .writeZeroes tag c s → c.cmd.fua = false →
    ∃ t, exec (.writeZeroes tag) s = .next t ∧ Done tag stOk t := by
  intro tag c s h h1
  refine ⟨_, (by change execWriteZeroes tag s = _; unfold execWriteZeroes; (try unfold withNs); (try unfold zoneSend); (try unfold vendorLog); (try unfold setFeature); exact withCmd_ready h (by rfl)), ?_⟩
  simp only [noData, h1, Bool.false_eq_true, if_false]
  exact h.done rfl _ _ _

theorem completes_datasetManagement :
    ∀ (tag : Fin 4096) (c : Cmd) (s : State), Ready .datasetManagement tag c s → c.cmd.fua = false →
    ∃ t, exec (.datasetManagement tag) s = .next t ∧ Done tag stOk t := by
  intro tag c s h h1
  refine ⟨_, (by change execDatasetManagement tag s = _; unfold execDatasetManagement; (try unfold withNs); (try unfold zoneSend); (try unfold vendorLog); (try unfold setFeature); exact withCmd_ready h (by rfl)), ?_⟩
  simp only [noData, h1, Bool.false_eq_true, if_false]
  exact h.done rfl _ _ _

theorem completes_reservationRegister :
    ∀ (tag : Fin 4096) (c : Cmd) (x : Ns) (s : State), Ready .resvRegister tag c s → nsAt (cmdNs c.cmd) s = some x →
    bits c.cmd.cdw10 2 0 = 0 → regKey c.ctrl x = none →
    ∃ t, exec (.reservationRegister tag) s = .next t ∧ Done tag stOk t ∧
    ∀ y ∈ t.hce.ns, y.nsid = x.nsid → (c.ctrl, rkey2 c) ∈ y.registrants := by
  intro tag c x s h h1 h2 h3
  refine ⟨_, (by change execReservationRegister tag s = _; unfold execReservationRegister; (try unfold withNs); (try unfold zoneSend); (try unfold vendorLog); (try unfold setFeature); exact withCmd_ready h (by rfl)), ?_⟩
  simp only [h1, h2, h3]
  refine ⟨by apply h.done; rfl, fun y hy e => ?_⟩
  simp only [finish_ns, modNs, State.modHce, mapIf, List.mem_map] at hy
  obtain ⟨z, hz, rfl⟩ := hy
  split
  · simp
  · next hn => split at e <;> simp_all

theorem completes_reservationReport :
    ∀ (tag : Fin 4096) (c : Cmd) (x : Ns) (s : State), Ready .resvReport tag c s → nsAt (cmdNs c.cmd) s = some x →
    ∃ t, exec (.reservationReport tag) s = .next t ∧ Done tag stOk t ∧ t.hce.ns = s.hce.ns := by
  intro tag c x s h h1
  refine ⟨_, (by change execReservationReport tag s = _; unfold execReservationReport; (try unfold withNs); (try unfold zoneSend); (try unfold vendorLog); (try unfold setFeature); exact withCmd_ready h (by rfl)), ?_⟩
  simp only [h1]
  exact ⟨by apply h.done; rfl, by rw [finish_ns]; rfl⟩

theorem completes_reservationAcquire :
    ∀ (tag : Fin 4096) (c : Cmd) (x : Ns) (s : State), Ready .resvAcquire tag c s → nsAt (cmdNs c.cmd) s = some x →
    bits c.cmd.cdw10 2 0 = 0 → 1 ≤ bits c.cmd.cdw10 15 8 → bits c.cmd.cdw10 15 8 ≤ 6 → keyMatches c x = true → x.resv = none →
    ∃ t, exec (.reservationAcquire tag) s = .next t ∧ Done tag stOk t ∧
    ∀ y ∈ t.hce.ns, y.nsid = x.nsid → y.resv = some (c.ctrl, bits c.cmd.cdw10 15 8) := by
  intro tag c x s h h1 h2 h3 h4 h5 h6
  refine ⟨_, (by change execReservationAcquire tag s = _; unfold execReservationAcquire; (try unfold withNs); (try unfold zoneSend); (try unfold vendorLog); (try unfold setFeature); exact withCmd_ready h (by rfl)), ?_⟩
  have e : ¬ (bits c.cmd.cdw10 15 8 = 0 ∨ 6 < bits c.cmd.cdw10 15 8 ∨ 2 < 0) := by omega
  simp only [h1, h2, e, if_false, h5, h6, Bool.not_true, Bool.false_eq_true, if_true]
  refine ⟨by apply h.done; rfl, fun y hy e => ?_⟩
  simp only [finish_ns, modNs, State.modHce, mapIf, List.mem_map] at hy
  obtain ⟨z, hz, rfl⟩ := hy
  split
  · simp
  · next hn => split at e <;> simp_all

theorem completes_reservationRelease :
    ∀ (tag : Fin 4096) (c : Cmd) (x : Ns) (u : Nat) (s : State), Ready .resvRelease tag c s → nsAt (cmdNs c.cmd) s = some x →
    bits c.cmd.cdw10 2 0 = 0 → keyMatches c x = true → x.resv = some (c.ctrl, u) → u = bits c.cmd.cdw10 15 8 →
    ∃ t, exec (.reservationRelease tag) s = .next t ∧ Done tag stOk t ∧
    ∀ y ∈ t.hce.ns, y.nsid = x.nsid → y.resv = none := by
  intro tag c x u s h h1 h2 h5 h6 h7
  refine ⟨_, (by change execReservationRelease tag s = _; unfold execReservationRelease; (try unfold withNs); (try unfold zoneSend); (try unfold vendorLog); (try unfold setFeature); exact withCmd_ready h (by rfl)), ?_⟩
  have e : ¬ (c.ctrl ≠ c.ctrl ∧ (!(allRegs u)) = true) := by simp
  simp only [h1, h2, h5, h6, if_false, Bool.not_true, Bool.false_eq_true, show ¬ (1 < 0) from by omega, show ¬ (0 = 1) from by omega, e, h7, ne_eq, not_true_eq_false]
  rw [h7] at e
  simp only [false_and, if_false, Bool.not_eq_eq_eq_not]
  refine ⟨by apply h.done; rfl, fun y hy e => ?_⟩
  simp only [finish_ns, modNs, State.modHce, mapIf, List.mem_map] at hy
  obtain ⟨z, hz, rfl⟩ := hy
  split
  · simp
  · next hn => split at e <;> simp_all

theorem completes_zoneOpen :
    ∀ (tag : Fin 4096) (c : Cmd) (z : Zone) (s : State), Ready .zoneOpen tag c s → c.cmd.all = false →
    zoneTab (zoneIdx (cmdNs c.cmd) c.cmd.slba s) s = some z → zoneSendOk .zoneOpen z = true → openLimit z s = none →
    ∃ t, exec (.zoneOpen tag) s = .next t ∧ Done tag stOk t := by
  intro tag c z s h h1 h2 h3 h4
  refine ⟨_, (by change execZoneOpen tag s = _; unfold execZoneOpen; (try unfold withNs); (try unfold zoneSend); (try unfold vendorLog); (try unfold setFeature); exact withCmd_ready h (by rfl)), ?_⟩
  simp [h1, zoneOne, h.2.2.1, h2, h3, h4]
  refine h.done ?_ _ _ _
  exact congrArg Hce.cmds ((frame_zonesChange _ _ _ _ _ _ (m := 0x20000) .refl rfl .hce rfl).trans (frame_makeRoom _ _ (m := 0x1800020100) .refl rfl .hce rfl))

theorem completes_zoneClose :
    ∀ (tag : Fin 4096) (c : Cmd) (z : Zone) (s : State), Ready .zoneClose tag c s → c.cmd.all = false →
    zoneTab (zoneIdx (cmdNs c.cmd) c.cmd.slba s) s = some z → zoneSendOk .zoneClose z = true →
    ∃ t, exec (.zoneClose tag) s = .next t ∧ Done tag stOk t := by
  intro tag c z s h h1 h2 h3
  refine ⟨_, (by change execZoneClose tag s = _; unfold execZoneClose; (try unfold withNs); (try unfold zoneSend); (try unfold vendorLog); (try unfold setFeature); exact withCmd_ready h (by rfl)), ?_⟩
  simp [h1, zoneOne, h.2.2.1, h2, h3]
  refine h.done ?_ _ _ _
  exact congrArg Hce.cmds (frame_zonesChange _ _ _ _ _ _ (m := 0x20000) .refl rfl .hce rfl)

theorem completes_zoneFinish :
    ∀ (tag : Fin 4096) (c : Cmd) (s : State), Ready .zoneFinish tag c s → c.cmd.all = false →
    ∃ t, exec (.zoneFinish tag) s = .next t ∧ Done tag stOk t := by
  intro tag c s h h1
  refine ⟨_, (by change execZoneFinish tag s = _; unfold execZoneFinish; (try unfold withNs); (try unfold zoneSend); (try unfold vendorLog); (try unfold setFeature); exact withCmd_ready h (by rfl)), ?_⟩
  simp [h1, zoneOne, h.2.2.1]
  exact h.done rfl _ _ _

theorem completes_zoneReset :
    ∀ (tag : Fin 4096) (c : Cmd) (s : State), Ready .zoneReset tag c s → c.cmd.all = false →
    ∃ t, exec (.zoneReset tag) s = .next t ∧ Done tag stOk t := by
  intro tag c s h h1
  refine ⟨_, (by change execZoneReset tag s = _; unfold execZoneReset; (try unfold withNs); (try unfold zoneSend); (try unfold vendorLog); (try unfold setFeature); exact withCmd_ready h (by rfl)), ?_⟩
  simp [h1, zoneOne, h.2.2.1]
  exact h.done rfl _ _ _

theorem completes_zoneOffline :
    ∀ (tag : Fin 4096) (c : Cmd) (z : Zone) (s : State), Ready .zoneOffline tag c s → c.cmd.all = false →
    zoneTab (zoneIdx (cmdNs c.cmd) c.cmd.slba s) s = some z → zoneSendOk .zoneOffline z = true →
    ∃ t, exec (.zoneOffline tag) s = .next t ∧ Done tag stOk t := by
  intro tag c z s h h1 h2 h3
  refine ⟨_, (by change execZoneOffline tag s = _; unfold execZoneOffline; (try unfold withNs); (try unfold zoneSend); (try unfold vendorLog); (try unfold setFeature); exact withCmd_ready h (by rfl)), ?_⟩
  simp [h1, zoneOne, h.2.2.1, h2, h3]
  refine h.done ?_ _ _ _
  exact congrArg Hce.cmds (frame_zonesChange _ _ _ _ _ _ (m := 0x20000) .refl rfl .hce rfl)

theorem completes_reportZones :
    ∀ (tag : Fin 4096) (c : Cmd) (x : Ns) (s : State), Ready .reportZones tag c s → nsAt (cmdNs c.cmd) s = some x →
    bits c.cmd.cdw13 7 0 = 0 → bits c.cmd.cdw13 15 8 ≤ 7 →
    ∃ t, exec (.reportZones tag) s = .next t ∧ Done tag stOk t ∧ t.xmt = s.xmt := by
  intro tag c x s h h1 h2 h3
  refine ⟨_, (by change execReportZones tag s = _; unfold execReportZones; (try unfold withNs); (try unfold zoneSend); (try unfold vendorLog); (try unfold setFeature); exact withCmd_ready h (by rfl)), ?_⟩
  have e : ¬ (bits c.cmd.cdw13 7 0 ≠ 0 ∨ 7 < bits c.cmd.cdw13 15 8) := by omega
  simp only [h1, e, if_false]
  have k : ∀ (l : List (Zone × Nat)) (a : Nat) (u : State),
      (l.foldl (fun (p, (s : State)) (z, i) => (page p (zoneDesc (64 + 64 * i) z s), s.drawn)) (a, u)).2.hce = u.hce ∧
      (l.foldl (fun (p, (s : State)) (z, i) => (page p (zoneDesc (64 + 64 * i) z s), s.drawn)) (a, u)).2.xmt = u.xmt := by
    intro l; induction l with
    | nil => intro a u; exact ⟨rfl, rfl⟩
    | cons z l ih => intro a u; rw [List.foldl_cons]; exact ih _ _
  refine ⟨?_, ?_⟩
  · apply h.done
    simp only [giveData, State.modCtrl]
    exact congrArg Hce.cmds (k _ _ _).1
  · rw [finish_st_xmt]
    exact (k _ _ _).2

theorem completes_createIoSq :
    ∀ (tag : Fin 4096) (c : Cmd) (s : State), Ready .createIoSq tag c s → qidOk c s = true →
    (∀ q ∈ (ctrlAt c.ctrl s).sqs, q.id ≠ qid c) → bits c.cmd.cdw11 31 16 ≠ 0 →
    (∃ q ∈ (ctrlAt c.ctrl s).cqs, q.id = bits c.cmd.cdw11 31 16) → qsizeOk c = true →
    ∃ t, exec (.createIoSq tag) s = .next t ∧ Done tag stOk t ∧
    ∃ q ∈ (ctrlAt c.ctrl t).sqs, q.id = qid c ∧ q.size = qsize c ∧ q.cq = bits c.cmd.cdw11 31 16 ∧ q.entries = [] := by
  intro tag c s h h1 h2 h3 h4 h5
  refine ⟨_, (by change execCreateIoSq tag s = _; unfold execCreateIoSq; (try unfold withNs); (try unfold zoneSend); (try unfold vendorLog); (try unfold setFeature); exact withCmd_ready h (by rfl)), ?_⟩
  have e1 : ((ctrlAt c.ctrl s).sqs.any fun q => q.id == qid c) = false := by simpa using h2
  have e2 : ((ctrlAt c.ctrl s).cqs.any fun q => q.id == bits c.cmd.cdw11 31 16) = true := by simpa using h4
  simp only [h1, e1, e2, h3, h5, Bool.not_true, Bool.or_self, Bool.false_eq_true, if_false, or_self]
  refine ⟨by apply h.done; rfl, ?_⟩
  simp

theorem completes_createIoCq :
    ∀ (tag : Fin 4096) (c : Cmd) (s : State), Ready .createIoCq tag c s → qidOk c s = true →
    (∀ q ∈ (ctrlAt c.ctrl s).cqs, q.id ≠ qid c) → qsizeOk c = true → bits c.cmd.cdw11 31 16 ≤ 256 →
    ∃ t, exec (.createIoCq tag) s = .next t ∧ Done tag stOk t ∧
    ∃ q ∈ (ctrlAt c.ctrl t).cqs, q.id = qid c ∧ q.size = qsize c ∧ q.vector = bits c.cmd.cdw11 31 16 ∧ q.posted = [] := by
  intro tag c s h h1 h2 h5 h6
  refine ⟨_, (by change execCreateIoCq tag s = _; unfold execCreateIoCq; (try unfold withNs); (try unfold zoneSend); (try unfold vendorLog); (try unfold setFeature); exact withCmd_ready h (by rfl)), ?_⟩
  have e1 : ((ctrlAt c.ctrl s).cqs.any fun q => q.id == qid c) = false := by simpa using h2
  simp only [h1, e1, h5, Nat.not_lt.mpr h6, Bool.not_true, Bool.or_self, Bool.false_eq_true, if_false, or_self]
  refine ⟨by apply h.done; rfl, ?_⟩
  simp

theorem completes_deleteIoSq :
    ∀ (tag : Fin 4096) (c : Cmd) (s : State), Ready .deleteIoSq tag c s → qid c ≠ 0 →
    (∃ q ∈ (ctrlAt c.ctrl s).sqs, q.id = qid c) →
    (s.hce.cmds.any fun x => x.ctrl == c.ctrl && x.sqid == qid c && !x.fromMi && x.phase != .orphan) = false →
    ∃ t, exec (.deleteIoSq tag) s = .next t ∧ Done tag stOk t ∧ ∀ q ∈ (ctrlAt c.ctrl t).sqs, q.id ≠ qid c := by
  intro tag c s h h1 h2 h3
  refine ⟨_, (by change execDeleteIoSq tag s = _; unfold execDeleteIoSq; (try unfold withNs); (try unfold zoneSend); (try unfold vendorLog); (try unfold setFeature); exact withCmd_ready h (by rfl)), ?_⟩
  have e1 : ((ctrlAt c.ctrl s).sqs.any fun q => q.id == qid c) = true := by simpa using h2
  simp only [h1, e1, h3, Bool.not_true, Bool.false_eq_true, if_false, or_self]
  refine ⟨by apply h.done; rfl, ?_⟩
  simp

theorem completes_deleteIoCq :
    ∀ (tag : Fin 4096) (c : Cmd) (s : State), Ready .deleteIoCq tag c s → qid c ≠ 0 →
    (∃ q ∈ (ctrlAt c.ctrl s).cqs, q.id = qid c) → (∀ q ∈ (ctrlAt c.ctrl s).sqs, q.cq ≠ qid c) →
    ∃ t, exec (.deleteIoCq tag) s = .next t ∧ Done tag stOk t ∧ ∀ q ∈ (ctrlAt c.ctrl t).cqs, q.id ≠ qid c := by
  intro tag c s h h1 h2 h3
  refine ⟨_, (by change execDeleteIoCq tag s = _; unfold execDeleteIoCq; (try unfold withNs); (try unfold zoneSend); (try unfold vendorLog); (try unfold setFeature); exact withCmd_ready h (by rfl)), ?_⟩
  have e1 : ((ctrlAt c.ctrl s).cqs.any fun q => q.id == qid c) = true := by simpa using h2
  have e2 : ((ctrlAt c.ctrl s).sqs.any fun q => q.cq == qid c) = false := by simpa using h3
  simp only [h1, e1, e2, Bool.not_true, Bool.false_eq_true, if_false, or_self]
  refine ⟨by apply h.done; rfl, ?_⟩
  simp

theorem completes_identify :
    ∀ (tag : Fin 4096) (c : Cmd) (s : State), Ready .identify tag c s → bits c.cmd.cdw10 7 0 = 2 →
    ∃ t, exec (.identify tag) s = .next t ∧ Done tag stOk t ∧
    (ctrlAt c.ctrl t).lastData = [page 0 (listAt 0 4 (nsidList c.cmd.nsid (fun x => x.attached.contains c.ctrl) s))] := by
  intro tag c s h h1
  refine ⟨_, (by change execIdentify tag s = _; unfold execIdentify; (try unfold withNs); (try unfold zoneSend); (try unfold vendorLog); (try unfold setFeature); exact withCmd_ready h (by rfl)), ?_⟩
  simp only [h1]
  refine ⟨by apply h.done; rfl, ?_⟩
  simp [giveData]

theorem completes_identifyInvalid :
    ∀ (tag : Fin 4096) (c : Cmd) (s : State), Ready .identify tag c s → 0x20 ≤ bits c.cmd.cdw10 7 0 →
    ∃ t, exec (.identify tag) s = .next t ∧ Done tag stField t := by
  intro tag c s h h1
  refine ⟨_, (by change execIdentify tag s = _; unfold execIdentify; (try unfold withNs); (try unfold zoneSend); (try unfold vendorLog); (try unfold setFeature); exact withCmd_ready h (by rfl)), ?_⟩
  dsimp only
  generalize bits c.cmd.cdw10 7 0 = k at *
  split <;> try omega
  rw [if_neg (by omega)]
  apply h.done; rfl

theorem completes_getLogPage :
    ∀ (tag : Fin 4096) (c : Cmd) (s : State), Ready .getLogPage tag c s → logId c.cmd = 2 → logOffset c.cmd % 4 = 0 →
    ∃ t, exec (.getLogPage tag) s = .next t ∧ Done tag stOk t ∧ t.xmt = s.xmt ∧
    (ctrlAt c.ctrl t).changedZones = (ctrlAt c.ctrl s).changedZones := by
  intro tag c s h h1 h2
  refine ⟨_, (by change execGetLogPage tag s = _; unfold execGetLogPage; (try unfold withNs); (try unfold zoneSend); (try unfold vendorLog); (try unfold setFeature); exact withCmd_ready h (by rfl)), ?_⟩
  simp only [h1, h2]
  simp only [show ¬ (0xC0 ≤ 2 ∧ 2 ≤ 0xC5) from by omega, if_false, ne_eq, not_true_eq_false, if_true, sendLog]
  refine ⟨by apply h.done; rfl, by rw [finish_st_xmt]; rfl, ?_⟩
  rw [finish_ctrl_changedZones]; simp [giveData]; rfl

theorem completes_logGuaranteeExceptions :
    ∀ (tag : Fin 4096) (c : Cmd) (s : State), Ready .getLogPage tag c s → logId c.cmd = 0xC0 →
    (c.cmd.nsid = 0 ∨ c.cmd.nsid = 0xFFFFFFFF) → logSeq c.cmd = false → logOffset c.cmd = 0 →
    ∃ t, exec (.logGuaranteeExceptions tag) s = .next t ∧ Done tag stOk t := by
  intro tag c s h h1 h2 h3 h4
  refine ⟨_, (by change execLogGuaranteeExceptions tag s = _; unfold execLogGuaranteeExceptions; (try unfold withNs); (try unfold zoneSend); (try unfold vendorLog); (try unfold setFeature); exact withCmd_ready h (by rfl)), ?_⟩
  have e : ¬ (c.cmd.nsid ≠ 0 ∧ c.cmd.nsid ≠ 0xFFFFFFFF) := by omega
  simp only [h1, e, h3, h4, ne_eq, not_true_eq_false, if_false, Bool.false_eq_true]
  simp
  apply h.done; rfl

theorem completes_logEventRecorder :
    ∀ (tag : Fin 4096) (c : Cmd) (s : State), Ready .getLogPage tag c s → logId c.cmd = 0xC1 →
    (c.cmd.nsid = 0 ∨ c.cmd.nsid = 0xFFFFFFFF) → logSeq c.cmd = true →
    ∃ t, exec (.logEventRecorder tag) s = .next t ∧ Done tag stOk t ∧ t.evr = s.evr := by
  intro tag c s h h1 h2 h3
  refine ⟨_, (by change execLogEventRecorder tag s = _; unfold execLogEventRecorder; (try unfold withNs); (try unfold zoneSend); (try unfold vendorLog); (try unfold setFeature); exact withCmd_ready h (by rfl)), ?_⟩
  have e : ¬ (c.cmd.nsid ≠ 0 ∧ c.cmd.nsid ≠ 0xFFFFFFFF) := by omega
  simp only [h1, e, h3, ne_eq, not_true_eq_false, if_false, if_true, sendLog]
  split <;> exact ⟨by apply h.done; rfl, by rw [finish_st_evr]; rfl⟩

theorem completes_logLifetimeCounters :
    ∀ (tag : Fin 4096) (c : Cmd) (s : State), Ready .getLogPage tag c s → logId c.cmd = 0xC2 →
    (c.cmd.nsid = 0 ∨ c.cmd.nsid = 0xFFFFFFFF) → logSeq c.cmd = false → logOffset c.cmd = 0 →
    ∃ t, exec (.logLifetimeCounters tag) s = .next t ∧ Done tag stOk t ∧ t.lif.shCnt = s.lif.cnt ∧ t.lif.cnt = s.lif.cnt := by
  intro tag c s h h1 h2 h3 h4
  refine ⟨_, (by change execLogLifetimeCounters tag s = _; unfold execLogLifetimeCounters; (try unfold withNs); (try unfold zoneSend); (try unfold vendorLog); (try unfold setFeature); exact withCmd_ready h (by rfl)), ?_⟩
  have e : ¬ (c.cmd.nsid ≠ 0 ∧ c.cmd.nsid ≠ 0xFFFFFFFF) := by omega
  simp only [h1, e, h3, h4, ne_eq, not_true_eq_false, if_false, Bool.false_eq_true]
  simp only [sendLog]
  simp [finish_st_lif]
  exact ⟨by apply h.done; rfl, rfl, rfl⟩

theorem completes_logActuatorHeadHealth :
    ∀ (tag : Fin 4096) (c : Cmd) (s : State), Ready .getLogPage tag c s → logId c.cmd = 0xC3 →
    (c.cmd.nsid = 0 ∨ c.cmd.nsid = 0xFFFFFFFF) → logSeq c.cmd = false → logOffset c.cmd = 0 →
    ∃ t, exec (.logActuatorHeadHealth tag) s = .next t ∧ Done tag stOk t := by
  intro tag c s h h1 h2 h3 h4
  refine ⟨_, (by change execLogActuatorHeadHealth tag s = _; unfold execLogActuatorHeadHealth; (try unfold withNs); (try unfold zoneSend); (try unfold vendorLog); (try unfold setFeature); exact withCmd_ready h (by rfl)), ?_⟩
  have e : ¬ (c.cmd.nsid ≠ 0 ∧ c.cmd.nsid ≠ 0xFFFFFFFF) := by omega
  simp only [h1, e, h3, h4, ne_eq, not_true_eq_false, if_false, Bool.false_eq_true]
  simp
  apply h.done; rfl

theorem completes_logLeasesPower :
    ∀ (tag : Fin 4096) (c : Cmd) (s : State), Ready .getLogPage tag c s → logId c.cmd = 0xC4 →
    (c.cmd.nsid = 0 ∨ c.cmd.nsid = 0xFFFFFFFF) → logSeq c.cmd = false → logOffset c.cmd = 0 →
    ∃ t, exec (.logLeasesPower tag) s = .next t ∧ Done tag stOk t ∧ t.llt = s.llt := by
  intro tag c s h h1 h2 h3 h4
  refine ⟨_, (by change execLogLeasesPower tag s = _; unfold execLogLeasesPower; (try unfold withNs); (try unfold zoneSend); (try unfold vendorLog); (try unfold setFeature); exact withCmd_ready h (by rfl)), ?_⟩
  have e : ¬ (c.cmd.nsid ≠ 0 ∧ c.cmd.nsid ≠ 0xFFFFFFFF) := by omega
  simp only [h1, e, h3, h4, ne_eq, not_true_eq_false, if_false, Bool.false_eq_true]
  simp only [sendLog]
  simp [finish_st_llt]
  exact ⟨by apply h.done; rfl, rfl⟩

theorem completes_logAttestationMeasurements :
    ∀ (tag : Fin 4096) (c : Cmd) (s : State), Ready .getLogPage tag c s → logId c.cmd = 0xC5 →
    (c.cmd.nsid = 0 ∨ c.cmd.nsid = 0xFFFFFFFF) → logSeq c.cmd = false → logOffset c.cmd = 0 →
    ∃ t, exec (.logAttestationMeasurements tag) s = .next t ∧ Done tag stOk t ∧ t.sec = s.sec := by
  intro tag c s h h1 h2 h3 h4
  refine ⟨_, (by change execLogAttestationMeasurements tag s = _; unfold execLogAttestationMeasurements; (try unfold withNs); (try unfold zoneSend); (try unfold vendorLog); (try unfold setFeature); exact withCmd_ready h (by rfl)), ?_⟩
  have e : ¬ (c.cmd.nsid ≠ 0 ∧ c.cmd.nsid ≠ 0xFFFFFFFF) := by omega
  simp only [h1, e, h3, h4, ne_eq, not_true_eq_false, if_false, Bool.false_eq_true]
  simp only [sendLog]
  have e2 : ¬ ((if s.sec.repReady = true then 14088 else 1088) ≤ 0) := by split <;> omega
  simp only [e2, or_false, Nat.zero_mod, not_true_eq_false, if_false]
  exact ⟨by apply h.done; rfl, by rw [finish_st_sec]; rfl⟩

theorem completes_setFeatures :
    ∀ (tag : Fin 4096) (c : Cmd) (s : State), Ready .setFeatures tag c s → fid c = 5 →
    ∃ t, exec (.setFeatures tag) s = .next t ∧ Done tag stOk t ∧
    (ctrlAt c.ctrl t).feats = sput 0 5 (c.cmd.cdw11 % 2 ^ 32) (ctrlAt c.ctrl s).feats := by
  intro tag c s h h1
  refine ⟨_, (by change execSetFeatures tag s = _; unfold execSetFeatures; (try unfold withNs); (try unfold zoneSend); (try unfold vendorLog); (try unfold setFeature); exact withCmd_ready h (by rfl)), ?_⟩
  simp only [h1, show ownSetRow 5 = false from rfl, show stdFeatures.contains 5 = true from rfl, Bool.false_eq_true, if_false, Bool.not_true, show ¬ (5 = 7) from by omega, show ¬ (5 = 9) from by omega, show ¬ (5 = 1) from by omega, show ¬ (5 = 0xF) from by omega]
  refine ⟨?_, ?_⟩
  · apply h.done; exact saveFeature_cmds _ _ _
  · simp

theorem completes_getFeatures :
    ∀ (tag : Fin 4096) (c : Cmd) (s : State), Ready .getFeatures tag c s → fid c ≠ 0x0E → fid c ≠ 0xC3 →
    (ownSetRow (fid c) || stdFeatures.contains (fid c)) = true → featSel c = 0 →
    ∃ t, exec (.getFeatures tag) s = .next t ∧ Done tag stOk t ∧ ∀ y, cmdAt tag t = some y → y.dw0 = featValue c s := by
  intro tag c s h h1 h2 h3 h4
  refine ⟨_, (by change execGetFeatures tag s = _; unfold execGetFeatures; (try unfold withNs); (try unfold zoneSend); (try unfold vendorLog); (try unfold setFeature); exact withCmd_ready h (by rfl)), ?_⟩
  simp only [h1, h2, h3, or_self, if_false, Bool.not_true, Bool.false_eq_true, h4]
  refine ⟨by apply h.done; rfl, ?_⟩
  intro y hy
  rw [h.tag, cmdAt_finishDw h.1] at hy
  cases hy; rfl

theorem completes_setFeaturesPowerManagement :
    ∀ (tag : Fin 4096) (c : Cmd) (s : State), Ready .setFeatures tag c s → fid c = 2 → c.cmd.cdw11 % 32 ≤ 1 →
    (∃ x, s.pwr.psHeld = some (tag.val, x)) → s.pwr.psUnwound = false → s.pwr.state = .lit →
    ∃ t, exec (.setFeaturesPowerManagement tag) s = .next t ∧ Done tag stOk t ∧ t.pwr.ps = c.cmd.cdw11 % 32 ∧
    t.pwr.psHeld = none := by
  intro tag c s h h1 h2 h3 h4 h5
  refine ⟨_, (by change execSetFeaturesPowerManagement tag s = _; unfold execSetFeaturesPowerManagement; (try unfold withNs); (try unfold zoneSend); (try unfold vendorLog); (try unfold setFeature); exact withCmd_ready h (by rfl)), ?_⟩
  obtain ⟨x, hx⟩ := h3
  have hm : c.cmd.cdw11 % 2 ^ 32 % 32 = c.cmd.cdw11 % 32 := by omega
  have e1 : ¬ (4 < c.cmd.cdw11 % 32) := by omega
  simp only [h1, if_true, hm, e1, if_false, hx, h4, Option.map_some, h.tag, ne_eq, not_true_eq_false, Bool.false_eq_true, or_self, h5, decide_false, Bool.or_false]
  have e2 : (if (s.sys.pers == Pers.lantern && (decide (c.cmd.cdw11 % 32 = 1) || decide (c.cmd.cdw11 % 32 = 2))) = true then 0 else c.cmd.cdw11 % 32) ≤ 1 := by
    split <;> omega
  simp only [e2, if_true, beq_self_eq_true]
  simp only [psReached, State.modPwr, hx]
  refine ⟨?_, ?_, ?_⟩
  · exact done_finishDw (by rw [← Option.isSome_some (a := c), ← h.1]; rfl)
  · rw [finishDw_st_pwr]
  · rw [finishDw_st_pwr]

theorem completes_setFeaturesTimestamp :
    ∀ (tag : Fin 4096) (c : Cmd) (s : State), Ready .setFeatures tag c s → fid c = 0x0E → Rising s.regs →
    ∃ t, exec (.setFeaturesTimestamp tag) s = .next t ∧ Done tag stOk t ∧ t.cal.src = 2 ∧ t.us = s.us := by
  intro tag c s h h1 h2
  refine ⟨_, (by change execSetFeaturesTimestamp tag s = _; unfold execSetFeaturesTimestamp; (try unfold withNs); (try unfold zoneSend); (try unfold vendorLog); (try unfold setFeature); exact withCmd_ready h (by rfl)), ?_⟩
  rw [if_pos h1]
  dsimp only
  have hu : c.cmd.payload % 2 ^ 48 % 1000 * 1000 ≤ 999999 := by omega
  generalize c.cmd.payload % 2 ^ 48 = ms at *
  have k1 := calLoad_src (sec := ms / 1000) (k := 2) h2 hu (by decide)
  have f1 := frame_calLoad (ms / 1000) (ms % 1000 * 1000) 2 s (m := 0x3800000910) .refl rfl
  have k2 : (calLoad (ms / 1000) (ms % 1000 * 1000) 2 s).hce = s.hce := f1 .hce rfl
  have k3 : (calLoad (ms / 1000) (ms % 1000 * 1000) 2 s).us = s.us := f1 .us rfl
  generalize hz : calLoad (ms / 1000) (ms % 1000 * 1000) 2 s = u at *
  clear hz f1
  have f2 := frame_rootFollow u (m := 0x4000000000) .refl rfl
  have g1 : (rootFollow u).cal.src = 2 := by rw [f2 .cal rfl]; exact k1
  have g2 : (rootFollow u).hce = s.hce := (f2 .hce rfl).trans k2
  have g3 : (rootFollow u).us = s.us := (f2 .us rfl).trans k3
  generalize rootFollow u = w at *
  have key : ∀ z : State, z.cal = w.cal → z.hce = w.hce → z.us = w.us → Done tag stOk (finish c.tag stOk z) ∧
      (finish c.tag stOk z).cal.src = 2 ∧ (finish c.tag stOk z).us = s.us := by
    intro z z1 z2 z3
    have f := frame_finish c.tag stOk z (m := 0x18080) .refl rfl
    exact ⟨h.done (by rw [z2, g2]) _ _ _, by rw [f .cal rfl, z1, g1], by rw [f .us rfl, z3, g3]⟩
  split
  · exact key _ rfl rfl rfl
  · exact key _ rfl rfl rfl

theorem completes_getFeaturesTimestamp :
    ∀ (tag : Fin 4096) (c : Cmd) (s : State), Ready .getFeatures tag c s → fid c = 0x0E →
    ∃ t, exec (.getFeaturesTimestamp tag) s = .next t ∧ Done tag stOk t ∧
    (ctrlAt c.ctrl t).lastData = [(s.cal.sec * 1000 + s.cal.usec / 1000) % 2 ^ 48 +
    ((if s.cal.rcSince || s.cal.src == 0 then 1 else 0) + (if s.cal.src == 2 then 2 else 0)) * 2 ^ 48] := by
  intro tag c s h h1
  refine ⟨_, (by change execGetFeaturesTimestamp tag s = _; unfold execGetFeaturesTimestamp; (try unfold withNs); (try unfold zoneSend); (try unfold vendorLog); (try unfold setFeature); exact withCmd_ready h (by rfl)), ?_⟩
  simp only [h1, if_true]
  refine ⟨by apply h.done; rfl, ?_⟩
  rw [finish_ctrl_lastData]
  simp [giveData, flag]

theorem completes_setFeaturesVolatileWriteCache :
    ∀ (tag : Fin 4096) (c : Cmd) (s : State), Ready .setFeatures tag c s → fid c = 6 →
    ∃ t, exec (.setFeaturesVolatileWriteCache tag) s = .next t ∧ Done tag stOk t ∧
    (ctrlAt c.ctrl t).vwc = (c.cmd.cdw11 % 2 ^ 32).testBit 0 := by
  intro tag c s h h1
  refine ⟨_, (by change execSetFeaturesVolatileWriteCache tag s = _; unfold execSetFeaturesVolatileWriteCache; (try unfold withNs); (try unfold zoneSend); (try unfold vendorLog); (try unfold setFeature); exact withCmd_ready h (by rfl)), ?_⟩
  simp only [h1, if_true]
  refine ⟨?_, ?_⟩
  · apply h.done; exact saveFeature_cmds _ _ _
  · simp

theorem completes_setFeaturesInterruptCoalescing :
    ∀ (tag : Fin 4096) (c : Cmd) (s : State), Ready .setFeatures tag c s → fid c = 8 →
    ∃ t, exec (.setFeaturesInterruptCoalescing tag) s = .next t ∧ Done tag stOk t ∧
    (ctrlAt c.ctrl t).icThr = bits (c.cmd.cdw11 % 2 ^ 32) 7 0 ∧ (ctrlAt c.ctrl t).icTime = bits (c.cmd.cdw11 % 2 ^ 32) 15 8 := by
  intro tag c s h h1
  refine ⟨_, (by change execSetFeaturesInterruptCoalescing tag s = _; unfold execSetFeaturesInterruptCoalescing; (try unfold withNs); (try unfold zoneSend); (try unfold vendorLog); (try unfold setFeature); exact withCmd_ready h (by rfl)), ?_⟩
  simp only [h1, if_true]
  refine ⟨?_, ?_⟩
  · apply h.done; exact saveFeature_cmds _ _ _
  · simp

theorem completes_setFeaturesTemperatureThreshold :
    ∀ (tag : Fin 4096) (c : Cmd) (s : State), Ready .setFeatures tag c s → fid c = 4 →
    bits (c.cmd.cdw11 % 2 ^ 32) 21 20 = 0 → bits (c.cmd.cdw11 % 2 ^ 32) 19 16 = 0 →
    thrOrdered ((bits (c.cmd.cdw11 % 2 ^ 32) 15 0 : Int) - 273) (thrThrot s) (thrShut s) = true →
    ∃ t, exec (.setFeaturesTemperatureThreshold tag) s = .next t ∧ Done tag stOk t ∧
    (ctrlAt c.ctrl t).tempOver = bits (c.cmd.cdw11 % 2 ^ 32) 15 0 := by
  intro tag c s h h1 h2 h3 h4
  refine ⟨_, (by change execSetFeaturesTemperatureThreshold tag s = _; unfold execSetFeaturesTemperatureThreshold; (try unfold withNs); (try unfold zoneSend); (try unfold vendorLog); (try unfold setFeature); exact withCmd_ready h (by rfl)), ?_⟩
  simp only [h1, if_true, h2, h3, h4, and_self]
  rw [if_neg (by omega)]
  refine ⟨?_, ?_⟩
  · apply h.done; exact saveFeature_cmds _ _ _
  · simp

theorem completes_setFeaturesReadRecoveryLevel :
    ∀ (tag : Fin 4096) (c : Cmd) (s : State), Ready .setFeatures tag c s → fid c = 0x12 →
    (c.cmd.cdw11 % 2 ^ 32 % 16 = 0 ∨ c.cmd.cdw11 % 2 ^ 32 % 16 = 4 ∨ c.cmd.cdw11 % 2 ^ 32 % 16 = 15) →
    ∃ t, exec (.setFeaturesReadRecoveryLevel tag) s = .next t ∧ Done tag stOk t ∧
    (ctrlAt c.ctrl t).rrl = c.cmd.cdw11 % 2 ^ 32 % 16 := by
  intro tag c s h h1 h2
  refine ⟨_, (by change execSetFeaturesReadRecoveryLevel tag s = _; unfold execSetFeaturesReadRecoveryLevel; (try unfold withNs); (try unfold zoneSend); (try unfold vendorLog); (try unfold setFeature); exact withCmd_ready h (by rfl)), ?_⟩
  simp only [h1, if_true]
  simp only [h2, if_true]
  refine ⟨?_, ?_⟩
  · apply h.done; exact saveFeature_cmds _ _ _
  · simp

theorem completes_setFeaturesRecoveryTimeLimit :
    ∀ (tag : Fin 4096) (c : Cmd) (s : State), Ready .setFeatures tag c s → fid c = 0xC0 →
    10 ≤ c.cmd.cdw11 % 2 ^ 32 % 2 ^ 16 → c.cmd.cdw11 % 2 ^ 32 % 2 ^ 16 ≤ 6000 →
    ∃ t, exec (.setFeaturesRecoveryTimeLimit tag) s = .next t ∧ Done tag stOk t ∧ t.hce.rtl = c.cmd.cdw11 % 2 ^ 32 % 2 ^ 16 := by
  intro tag c s h h1 h2 h3
  refine ⟨_, (by change execSetFeaturesRecoveryTimeLimit tag s = _; unfold execSetFeaturesRecoveryTimeLimit; (try unfold withNs); (try unfold zoneSend); (try unfold vendorLog); (try unfold setFeature); exact withCmd_ready h (by rfl)), ?_⟩
  simp only [h1, if_true, saveFeature, h2, h3, and_self]
  split <;> exact ⟨by apply h.done; rfl, by rw [finish_rtl]; rfl⟩

theorem completes_setFeaturesRecoveryTimeLimitRange :
    ∀ (tag : Fin 4096) (c : Cmd) (s : State), Ready .setFeatures tag c s → fid c = 0xC0 →
    (c.cmd.cdw11 % 2 ^ 32 % 2 ^ 16 < 10 ∨ 6000 < c.cmd.cdw11 % 2 ^ 32 % 2 ^ 16) →
    ∃ t, exec (.setFeaturesRecoveryTimeLimit tag) s = .next t ∧ Done tag stField t ∧ t.hce.rtl = s.hce.rtl := by
  intro tag c s h h1 h2
  refine ⟨_, (by change execSetFeaturesRecoveryTimeLimit tag s = _; unfold execSetFeaturesRecoveryTimeLimit; (try unfold withNs); (try unfold zoneSend); (try unfold vendorLog); (try unfold setFeature); exact withCmd_ready h (by rfl)), ?_⟩
  have e : ¬ (10 ≤ c.cmd.cdw11 % 2 ^ 32 % 2 ^ 16 ∧ c.cmd.cdw11 % 2 ^ 32 % 2 ^ 16 ≤ 6000) := by omega
  simp only [h1, if_true, e, if_false]
  exact ⟨by apply h.done; rfl, by rw [finish_rtl]⟩

theorem completes_setFeaturesDirtyCap :
    ∀ (tag : Fin 4096) (c : Cmd) (s : State), Ready .setFeatures tag c s → fid c = 0xC1 →
    c.cmd.cdw11 % 2 ^ 32 % 2 ^ 16 ≤ reservoirCapacity s →
    ∃ t, exec (.setFeaturesDirtyCap tag) s = .next t ∧ Done tag stOk t ∧ t.hce.dirtyCap = c.cmd.cdw11 % 2 ^ 32 % 2 ^ 16 := by
  intro tag c s h h1 h2
  refine ⟨_, (by change execSetFeaturesDirtyCap tag s = _; unfold execSetFeaturesDirtyCap; (try unfold withNs); (try unfold zoneSend); (try unfold vendorLog); (try unfold setFeature); exact withCmd_ready h (by rfl)), ?_⟩
  simp only [h1, if_true, saveFeature, h2]
  split <;> exact ⟨by apply h.done; rfl, by rw [finish_dirtyCap]; rfl⟩

theorem completes_setFeaturesLeaseFloor :
    ∀ (tag : Fin 4096) (c : Cmd) (s : State), Ready .setFeatures tag c s → fid c = 0xC2 → Rising s.regs →
    c.cmd.cdw11 % 2 ^ 32 % 2 ^ 24 ≤ lltBoard s →
    ∃ t, exec (.setFeaturesLeaseFloor tag) s = .next t ∧ Done tag stOk t ∧
    fld .vlkFloor 0 0 23 0 t = c.cmd.cdw11 % 2 ^ 32 % 2 ^ 24 := by
  intro tag c s h h1 h2 h3
  refine ⟨_, (by change execSetFeaturesLeaseFloor tag s = _; unfold execSetFeaturesLeaseFloor; (try unfold withNs); (try unfold zoneSend); (try unfold vendorLog); (try unfold setFeature); exact withCmd_ready h (by rfl)), ?_⟩
  rw [if_pos h1]
  dsimp only
  rw [if_pos h3]
  have hv : c.cmd.cdw11 % 2 ^ 32 % 2 ^ 24 < 2 ^ 24 := Nat.mod_lt _ (by decide)
  generalize c.cmd.cdw11 % 2 ^ 32 % 2 ^ 24 = l at *
  have f0 : (saveFeature c l s).regs = s.regs ∧ (saveFeature c l s).hce.cmds = s.hce.cmds := by
    unfold saveFeature; split <;> exact ⟨rfl, rfl⟩
  generalize saveFeature c l s = u at *
  have e1 := fld_setFld (r := .vlkFloor) (n := 0) (k := 0) (s := u) (by rw [f0.1]; exact h2) hv
  have e2 : (setFld .vlkFloor 0 0 23 0 l u).hce = u.hce := rfl
  generalize setFld .vlkFloor 0 0 23 0 l u = w at *
  have f := frame_walkQueue w (m := 0x6000) .refl rfl
  have g := frame_finish c.tag stOk (walkQueue w) (m := 0x18080) .refl rfl
  refine ⟨h.done (by rw [f .hce rfl, e2]; exact f0.2) _ _ _, ?_⟩
  rw [← e1]
  unfold fld
  rw [reg_congr (g .regs rfl), reg_congr (f .regs rfl)]

theorem completes_setFeaturesBehaviourProfile :
    ∀ (tag : Fin 4096) (c : Cmd) (s : State), Ready .setFeatures tag c s → fid c = 0xC3 → s.sys.profLock = false →
    (c.cmd.cdw11 % 2 ^ 32 % 2 ^ 12 = 0x0A0 ∨ c.cmd.cdw11 % 2 ^ 32 % 2 ^ 12 = 0x0A1 ∨ c.cmd.cdw11 % 2 ^ 32 % 2 ^ 12 = 0x0B0) →
    ∃ t, exec (.setFeaturesBehaviourProfile tag) s = .next t ∧ Done tag stOk t ∧
    t.sys.profPend = c.cmd.cdw11 % 2 ^ 32 % 2 ^ 12 ∧ t.sys.profLock = (c.cmd.cdw11 % 2 ^ 32).testBit 31 ∧
    t.sys.profActive = s.sys.profActive := by
  intro tag c s h h1 h2 h3
  refine ⟨_, (by change execSetFeaturesBehaviourProfile tag s = _; unfold execSetFeaturesBehaviourProfile; (try unfold withNs); (try unfold zoneSend); (try unfold vendorLog); (try unfold setFeature); exact withCmd_ready h (by rfl)), ?_⟩
  simp only [h1, if_true, h2, h3, Bool.false_eq_true, if_false, Bool.false_or]
  refine ⟨by apply h.done; rfl, ?_⟩
  rw [finish_st_sys]; exact ⟨rfl, by simp [State.modSys, State.modHce, h2], rfl⟩

theorem completes_setFeaturesBehaviourProfileLocked :
    ∀ (tag : Fin 4096) (c : Cmd) (s : State), Ready .setFeatures tag c s → fid c = 0xC3 → s.sys.profLock = true →
    ∃ t, exec (.setFeaturesBehaviourProfile tag) s = .next t ∧ Done tag stSequence t ∧ t.sys = s.sys := by
  intro tag c s h h1 h2
  refine ⟨_, (by change execSetFeaturesBehaviourProfile tag s = _; unfold execSetFeaturesBehaviourProfile; (try unfold withNs); (try unfold zoneSend); (try unfold vendorLog); (try unfold setFeature); exact withCmd_ready h (by rfl)), ?_⟩
  simp only [h1, if_true, h2]
  exact ⟨by apply h.done; rfl, by rw [finish_st_sys]⟩

theorem completes_getFeaturesBehaviourProfile :
    ∀ (tag : Fin 4096) (c : Cmd) (s : State), Ready .getFeatures tag c s → fid c = 0xC3 → featSel c ≤ 3 →
    ∃ t, exec (.getFeaturesBehaviourProfile tag) s = .next t ∧ Done tag stOk t ∧ t.sys = s.sys := by
  intro tag c s h h1 h2
  refine ⟨_, (by change execGetFeaturesBehaviourProfile tag s = _; unfold execGetFeaturesBehaviourProfile; (try unfold withNs); (try unfold zoneSend); (try unfold vendorLog); (try unfold setFeature); exact withCmd_ready h (by rfl)), ?_⟩
  simp only [h1, ne_eq, not_true_eq_false, if_false]
  generalize featSel c = k at *
  interval_cases k
  · exact ⟨by apply h.done; rfl, finishDw_st_sys ..⟩
  · exact ⟨by apply h.done; rfl, finishDw_st_sys ..⟩
  · exact ⟨by apply h.done; rfl, finishDw_st_sys ..⟩
  · exact ⟨by apply h.done; rfl, finishDw_st_sys ..⟩

end Sys2Proof.Machine
end

