-- ==== Sys2Proof/Laws/CompleteMemory.lean ====
section
/-!
SUPPORT. Memory, mailbox and key commands that complete. One lemma for each part of a completion statement.
-/

set_option Elab.async false
set_option linter.all false

namespace Sys2Proof.Machine

theorem completes_ddrRead :
    ∀ (m : Master) (a : BitVec 40) (s : State), inDdr (a.toNat / 8 * 8) s = true → pdOn 12 s = true →
    accessWaits (a.toNat / 8 * 8) s = false → pastL1 m (a.toNat / 8 * 8) s = true → bccPass s = true →
    halfPoisoned (a.toNat / 8 * 8 - ddrBase) s = false →
    ∃ t, exec (.ddrRead m a .none) s = .next t ∧ t = { s with busData := memRead (a.toNat / 8 * 8) 8 s, busErr := false } := by
  intro m a s h1 h2 h3 h4 h5 h6
  refine ⟨_, rfl, ?_⟩
  rw [ddrTake_read h1 h2 h3 h4]
  have e : dmcRead m (a.toNat / 8 * 8 - ddrBase) .none s = (s, false) := by
    unfold dmcRead; dsimp only; rw [h6, if_neg Bool.false_ne_true]; split <;> rfl
  have hb : ddrBase + (a.toNat / 8 * 8 - ddrBase) = a.toNat / 8 * 8 := by
    have : ddrBase ≤ a.toNat / 8 * 8 := by
      unfold inDdr at h1; simp only [Bool.and_eq_true, decide_eq_true_eq] at h1; exact h1.1
    omega
  unfold ddrAccess bccRead
  dsimp only
  rw [h5, if_pos rfl]
  unfold bccDirect
  rw [e]
  dsimp only
  rw [if_neg Bool.false_ne_true, hb]

theorem completes_ddrReadCorrected :
    ∀ (m : Master) (a : BitVec 40) (dev : Nat) (s : State), inDdr (a.toNat / 8 * 8) s = true → pdOn 12 s = true →
    accessWaits (a.toNat / 8 * 8) s = false → pastL1 m (a.toNat / 8 * 8) s = true → bccPass s = true →
    halfPoisoned (a.toNat / 8 * 8 - ddrBase) s = false → codeOf (a.toNat / 8 * 8 - ddrBase) s < 2 →
    ∃ t, exec (.ddrRead m a (.correctable dev)) s = .next t ∧ t.busData = memRead (a.toNat / 8 * 8) 8 s ∧ t.busErr = false ∧
    t.dmc = (rowLogRead (a.toNat / 8 * 8 - ddrBase) false dev s).dmc := by
  intro m a dev s h1 h2 h3 h4 h5 h6 h7
  refine ⟨_, rfl, ?_⟩
  rw [ddrTake_read h1 h2 h3 h4]
  have e : dmcRead m (a.toNat / 8 * 8 - ddrBase) (.correctable dev) s = (rowLogRead (a.toNat / 8 * 8 - ddrBase) false dev s, false) := by
    unfold dmcRead; dsimp only; rw [h6, if_neg Bool.false_ne_true, if_neg (by omega), if_neg (by omega)]
  have hb : ddrBase + (a.toNat / 8 * 8 - ddrBase) = a.toNat / 8 * 8 := by
    have : ddrBase ≤ a.toNat / 8 * 8 := by
      unfold inDdr at h1; simp only [Bool.and_eq_true, decide_eq_true_eq] at h1; exact h1.1
    omega
  have hm : ∀ x, memRead x 8 (rowLogRead (a.toNat / 8 * 8 - ddrBase) false dev s) = memRead x 8 s := fun x => by
    unfold memRead memByte
    rw [frame_rowLogRead _ _ _ s (m := 0x1820002100) .refl rfl .mem rfl]
  unfold ddrAccess bccRead
  dsimp only
  rw [h5, if_pos rfl]
  unfold bccDirect
  rw [e]
  dsimp only
  rw [if_neg Bool.false_ne_true, hb, hm]
  exact ⟨rfl, rfl, rfl⟩

theorem completes_ddrReadFailed :
    ∀ (m : Master) (a : BitVec 40) (dev : Nat) (s : State), inDdr (a.toNat / 8 * 8) s = true → pdOn 12 s = true →
    accessWaits (a.toNat / 8 * 8) s = false → pastL1 m (a.toNat / 8 * 8) s = true → bccPass s = true →
    halfPoisoned (a.toNat / 8 * 8 - ddrBase) s = false → codeOf (a.toNat / 8 * 8 - ddrBase) s < 2 →
    ∃ t, exec (.ddrRead m a (.uncorrectable dev)) s = .next t ∧ t.busData = 0 ∧ t.busErr = true ∧ 409 ∈ t.irq.pending := by
  intro m a dev s h1 h2 h3 h4 h5 h6 h7
  refine ⟨_, rfl, ?_⟩
  rw [ddrTake_read h1 h2 h3 h4]
  have e : dmcRead m (a.toNat / 8 * 8 - ddrBase) (.uncorrectable dev) s =
      (failedRead m (a.toNat / 8 * 8 - ddrBase) 0 (rowLogRead (a.toNat / 8 * 8 - ddrBase) true dev s), true) := by
    unfold dmcRead; dsimp only; rw [h6, if_neg Bool.false_ne_true, if_neg (by omega), if_neg (by omega)]
  unfold ddrAccess bccRead
  dsimp only
  rw [h5, if_pos rfl]
  unfold bccDirect
  rw [e]
  generalize rowLogRead (a.toNat / 8 * 8 - ddrBase) true dev s = u
  unfold failedRead
  dsimp only
  refine ⟨if_pos rfl, rfl, ?_⟩
  simp only [raiseLine]; rw [mem_insertNat]; exact .inl rfl

theorem completes_ddrReadHit :
    ∀ (m : Master) (a : BitVec 40) (c : CLine) (err : DdrErr) (s : State), inDdr (a.toNat / 8 * 8) s = true → pdOn 12 s = true →
    accessWaits (a.toNat / 8 * 8) s = false → pastL1 m (a.toNat / 8 * 8) s = true →
    bccPass s = false → bccHit ((a.toNat / 8 * 8 - ddrBase) / 128) s = some c →
    ∃ t, exec (.ddrRead m a err) s = .next t ∧ t.busData = lineBytes c.data ((a.toNat / 8 * 8 - ddrBase) % 128) 8 ∧
    t.busErr = false := by
  intro m a c err s h1 h2 h5 h6 h3 h4
  refine ⟨_, rfl, ?_⟩
  rw [ddrTake_read h1 h2 h5 h6]
  exact ddrAccess_hit h3 h4

theorem completes_ddrReadOutside :
    ∀ (m : Master) (a : BitVec 40) (err : DdrErr) (s : State), inDdr (a.toNat / 8 * 8) s = false →
    ∃ t, exec (.ddrRead m a err) s = .next t ∧ t = { s with busData := 0, busErr := true } := by
  intro m a err s h1
  refine ⟨_, rfl, ?_⟩
  unfold ddrTake
  rw [h1, if_pos (by rfl)]

theorem flushRegion_lines (k : Nat) (s : State) : ∀ l ∈ (flushRegion k s).bcc.lines, l ∈ s.bcc.lines ∧ regionOf (l.line * 128) s ≠ some k := by
  have wb : ∀ (c : CLine) (u : State), (writeBack c u).bcc = u.bcc := fun c u => frame_writeBack c u (m := 0x20000020) .refl rfl .bcc rfl
  have g : ∀ (mine : List CLine) (u : State), ∀ l ∈ (mine.foldl (fun s c => bccDrop c (writeBack c s)) u).bcc.lines,
      l ∈ u.bcc.lines ∧ ∀ c ∈ mine, ¬ (l.set_ = c.set_ ∧ l.way = c.way) := by
    intro mine
    induction mine with
    | nil => intro u l hl; exact ⟨hl, fun c hc => absurd hc (by simp)⟩
    | cons a mine ih =>
      intro u l hl
      obtain ⟨x, y⟩ := ih _ l hl
      have x' := List.mem_filter.mp x
      rw [wb] at x'
      refine ⟨x'.1, fun c hc => ?_⟩
      rcases List.mem_cons.mp hc with rfl | hc
      · have := x'.2
        rw [Bool.not_eq_true'] at this
        intro hh
        rw [hh.1, hh.2, beq_self_eq_true, beq_self_eq_true] at this
        exact absurd this (by decide)
      · exact y c hc
  intro l hl
  unfold flushRegion at hl
  dsimp only at hl
  have hb : ∀ (u : State) (n : Nat), (if n = 0 then u else ev .bcc 0x0A31 0xFF n 0 u).bcc = u.bcc := fun u n => by
    split
    · rfl
    · exact ev_bcc ..
  rw [hb] at hl
  obtain ⟨x, y⟩ := g _ _ l hl
  refine ⟨x, fun hr => y l (List.mem_filter.mpr ⟨x, ?_⟩) ⟨rfl, rfl⟩⟩
  rw [hr]; exact beq_self_eq_true _

theorem completes_regattrPolicyWrite :
    ∀ (m : Master) (k : Fin 16) (v : Word) (s : State), Reach .dmc 0 s → Rising s.regs → windowOpen .dmc 0 s = true →
    ((s.dmc.initBusy || s.dmc.initDone) && (v.toNat ^^^ reg .regattr0 0 k s) &&& 0xE0003FFF != 0) = false →
    bits v.toNat 28 27 ≠ bits (reg .regattr0 0 k s) 28 27 →
    ∃ t, exec (.regattrPolicyWrite m k v) s = .next t ∧
    reg .regattr0 0 k t = (reg .regattr0 0 k s &&& ((2 ^ 32 - 1) ^^^ 0xF8003FFF)) ||| (v.toNat &&& 0xF8003FFF) ∧
    ∀ l ∈ t.bcc.lines, l ∈ s.bcc.lines ∧ regionOf (l.line * 128) s ≠ some k.val := by
  intro m k v s h h1 h2 h3 h4
  refine ⟨_, rfl, ?_⟩
  rw [access_reach h, reg_congr (useWindow_regs ..), useWindow_bcc]
  unfold writeRegattr
  dsimp only
  have hb : (bits v.toNat 28 27 != bits (reg .regattr0 0 k s) 28 27) = true := bne_iff_ne.mpr h4
  rw [if_neg Bool.false_ne_true, if_neg Bool.false_ne_true, h2, hb, Bool.true_and, h3, if_neg Bool.false_ne_true, if_pos (by rfl)]
  have fl := flushRegion_lines k s
  have fr : (flushRegion k s).regs = s.regs := frame_flushRegion _ _ (m := 0x1860000120) .refl rfl .regs rfl
  have fw : windowOpen .dmc 0 (flushRegion k s) = true := by
    have e : ∀ i, (headerOf i s).sameButIrq (headerOf i (flushRegion k s)) := by
      intro i
      have d : ∀ (l : List CLine) (u : State), (l.foldl (fun s c => bccDrop c (writeBack c s)) u).hdr = u.hdr := by
        intro l; induction l with
        | nil => intro u; rfl
        | cons a l ih =>
          intro u
          rw [List.foldl_cons, ih]
          exact frame_bccDrop _ _ (m := 0x60000020) (frame_writeBack _ _ .refl rfl) rfl .hdr rfl
      unfold flushRegion
      dsimp only
      split
      · rw [headerOf_congr (d _ _)]; exact .refl
      · exact Hdr.sameButIrq.trans (by rw [headerOf_congr (d _ _)]; exact .refl) (headerOf_ev ..)
    rw [← h2, windowOpen_headerOf (by decide), windowOpen_headerOf (by decide), (e (Blk.dmc.hdr 0)).remain]
  generalize flushRegion k s = u at *
  have hs : (storeFields .regattr0 0 k v.toNat u).bcc = u.bcc := frame_storeFields _ _ _ _ u (m := 0x1800000110) .refl rfl .bcc rfl
  rw [hs, reg_storeFields _ _ _ _ (fr ▸ h1) v.isLt, reg_congr fr]
  have hw : writableBits .regattr0 0 u = 0xF8003FFF := by unfold writableBits; rw [show windowOpen (Reg.row .regattr0).blk 0 u = true from fw]; decide
  rw [hw]
  exact ⟨rfl, fl⟩

theorem completes_regattrLayoutRefused :
    ∀ (m : Master) (k : Fin 16) (v : Word) (s : State), Reach .dmc 0 s → s.dmc.initDone = true →
    (v.toNat ^^^ reg .regattr0 0 k s) &&& 0xE0003FFF ≠ 0 → windowOpen .dmc 0 s = true → EventRoom s →
    ∃ t, exec (.regattrPolicyWrite m k v) s = .next t ∧ t.regs = s.regs ∧ Recorded 0x0A03 t := by
  intro m k v s h h1 h2 h4 h3
  refine ⟨_, rfl, ?_⟩
  rw [access_reach h, useWindow_regs]
  unfold writeRegattr
  dsimp only
  rw [if_neg Bool.false_ne_true, h1, h4, Bool.or_true, if_neg Bool.false_ne_true, if_pos (by rw [Bool.true_and, Bool.true_and]; exact bne_iff_ne.mpr h2)]
  exact ⟨by unfold blockErrorP; rw [ev_regs]; rfl, recorded_useWindow.mpr (recorded_here (s := s.modHdr _ _) h3)⟩

theorem reg_setRegWords {r : Reg} {v : Nat} (hinj : ∀ i j, i ≠ j → r.addr 0 i ≠ r.addr 0 j) {j : Nat} :
    ∀ (n : Nat) (s : State), Rising s.regs → Rising (setRegWords r n v s).regs ∧
      (j < n → reg r 0 j (setRegWords r n v s) = (v >>> (32 * j)) % 2 ^ 32) := by
  intro n
  induction n with
  | zero => intro s h; exact ⟨h, fun k => absurd k (by omega)⟩
  | succ n ih =>
    intro s h
    obtain ⟨a, b⟩ := ih s h
    have e : setRegWords r (n + 1) v s = setReg r 0 n ((v >>> (32 * n)) % 2 ^ 32) (setRegWords r n v s) := by
      unfold setRegWords; rw [List.range_succ, List.foldl_append]; rfl
    rw [e]
    refine ⟨Rising.sput a, fun k => ?_⟩
    by_cases hj : j = n
    · subst hj; rw [reg_setReg _ _ _ _ a, Nat.mod_mod]
    · rw [reg_setReg_ne (hinj j n hj)]; exact b (by omega)

theorem reg_setRegWords_ne {r q : Reg} {v m k : Nat} (hne : ∀ i, q.addr m k ≠ r.addr 0 i) :
    ∀ (n : Nat) (s : State), reg q m k (setRegWords r n v s) = reg q m k s := by
  intro n
  induction n with
  | zero => intro s; rfl
  | succ n ih =>
    intro s
    have e : setRegWords r (n + 1) v s = setReg r 0 n ((v >>> (32 * n)) % 2 ^ 32) (setRegWords r n v s) := by
      unfold setRegWords; rw [List.range_succ, List.foldl_append]; rfl
    rw [e, reg_setReg_ne (hne n), ih s]

/-- A write of SPLITCTL through the open window: WR has its value, and nothing else of the split test moves. -/
theorem splitctl_store {v : Nat} {s : State} (h1 : Rising s.regs) (h2 : windowOpen .dmc 0 s = true) (hv : v < 2 ^ 32) :
    fld .splitctl 0 0 30 30 (storeFields .splitctl 0 0 v s) = flag (v.testBit 30) 0 ∧
    Rising (storeFields .splitctl 0 0 v s).regs ∧ (storeFields .splitctl 0 0 v s).mem = s.mem ∧
    (storeFields .splitctl 0 0 v s).bcc = s.bcc ∧
    ∀ (q : Reg) (k : Nat), q.addr 0 k ≠ Reg.addr .splitctl 0 0 → reg q 0 k (storeFields .splitctl 0 0 v s) = reg q 0 k s := by
  have nr : refuses .splitctl 0 0 v s = false := by unfold refuses; rw [show windowOpen (Reg.row .splitctl).blk 0 s = true from h2]; rfl
  have es : ∃ x, storeFields .splitctl 0 0 v s = setReg .splitctl 0 0 x s := by
    unfold storeFields; dsimp only; rw [nr, if_neg Bool.false_ne_true]; exact ⟨_, rfl⟩
  refine ⟨?_, ?_, frame_storeFields _ _ _ _ s (m := 0x1800000110) .refl rfl .mem rfl,
    frame_storeFields _ _ _ _ s (m := 0x1800000110) .refl rfl .bcc rfl, fun q k hq => ?_⟩
  · have w : (writableBits .splitctl 0 s).testBit 30 = true := by
      unfold writableBits; rw [show windowOpen (Reg.row .splitctl).blk 0 s = true from h2]; decide
    have b := reg_storeFields_testBit .splitctl 0 0 v 30 h1 hv (by decide)
    rw [w, if_pos rfl] at b
    unfold fld bits flag
    rw [← b]
    generalize reg .splitctl 0 0 _ = x
    rw [Nat.testBit_eq_decide_div_mod_eq, Nat.shiftRight_eq_div_pow]
    show x / 2 ^ 30 % 2 = if decide (x / 2 ^ 30 % 2 = 1) = true then 1 else 0
    generalize x / 2 ^ 30 = y
    rcases Nat.mod_two_eq_zero_or_one y with h | h <;> rw [h] <;> rfl
  · obtain ⟨x, e⟩ := es; rw [e]; exact Rising.sput h1
  · obtain ⟨x, e⟩ := es; rw [e, reg_setReg_ne hq]

theorem regWords_congr {r : Reg} {n : Nat} {u s : State} (h : ∀ j, reg r 0 j u = reg r 0 j s) : regWords r n u = regWords r n s := by
  unfold regWords
  congr 1
  funext a j
  rw [h j]

theorem reg_dmc (r : Reg) (n k : Nat) (z : State) (d : Dmc) : reg r n k { z with dmc := d } = reg r n k z := rfl

theorem completes_splitRead :
    ∀ (m : Master) (line : Nat) (s : State), Reach .dmc 0 s → Rising s.regs → windowOpen .dmc 0 s = true →
    line = fld .splitaddr 0 0 26 0 s → bccHit line s = none →
    ∃ t, exec (.splitRead m) s = .next t ∧ (∀ j < 32, reg .splitdata 0 j t = (ddrLine line s >>> (32 * j)) % 2 ^ 32) ∧
    t.mem = s.mem ∧ t.dmc = { s.dmc with splitDone := true } ∧ 412 ∈ t.irq.pending := by
  intro m line s h h1 h2 h3 h4
  refine ⟨_, rfl, ?_⟩
  obtain ⟨a, b, c, d, e⟩ := splitctl_store (v := 0x80000000) h1 h2 (by decide)
  have k := frame_storeFields .splitctl 0 0 0x80000000 s (m := 0x1800000110) .refl rfl
  have hl : fld .splitaddr 0 0 26 0 (storeFields .splitctl 0 0 0x80000000 s) = line := by
    rw [h3]; unfold fld; rw [e .splitaddr 0 (by decide)]
  rw [access_reach h, useWindow_mem, useWindow_dmc, useWindow_irq]
  simp only [reg_congr (useWindow_regs ..)]
  unfold splitGo
  dsimp only
  rw [hl]
  have kd := k .dmc rfl
  generalize storeFields .splitctl 0 0 0x80000000 s = u at *
  have hi : invalLine true line u = u := by
    unfold invalLine; rw [show bccHit line u = none by rw [← h4]; unfold bccHit; rw [d]]
  have hd : ddrLine line u = ddrLine line s := by unfold ddrLine memRead memByte; rw [c]
  rw [hi, a, if_neg (by decide), hd]
  have w1 : ∀ r n x (y : State), (setRegWords r n x y).mem = y.mem ∧ (setRegWords r n x y).dmc = y.dmc := fun r n x y =>
    ⟨frame_setRegWords _ _ _ _ (m := 0x10) .refl rfl .mem rfl, frame_setRegWords _ _ _ _ (m := 0x10) .refl rfl .dmc rfl⟩
  have hA := fun j : Nat => (reg_setRegWords (j := j) (r := .splitdata) (v := ddrLine line s) (fun i j h => by
    unfold Reg.addr; show Blk.base .dmc 0 + 0x1040 + 4 * i ≠ Blk.base .dmc 0 + 0x1040 + 4 * j; omega) 32 u b)
  have wA := w1 .splitdata 32 (ddrLine line s) u
  generalize setRegWords .splitdata 32 (ddrLine line s) u = y at *
  have hB := fun (j : Nat) (hj : j < 32) => reg_setRegWords_ne (r := .splitchk) (q := .splitdata) (v := lineCheck line u) (m := 0) (k := j) (fun i => by
    unfold Reg.addr; show Blk.base .dmc 0 + 0x1040 + 4 * j ≠ Blk.base .dmc 0 + 0x10C0 + 4 * i; omega) 8 y
  have wB := w1 .splitchk 8 (lineCheck line u) y
  generalize setRegWords .splitchk 8 (lineCheck line u) y = z at *
  refine ⟨fun j hj => ?_, ?_, ?_, ?_⟩
  · rw [reg_congr (raiseLine_regs ..)]
    refine (reg_dmc .splitdata 0 j z _).trans ?_
    rw [hB j hj, (hA j).2 hj]
  · rw [raiseLine_mem]; exact wB.1.trans (wA.1.trans c)
  · rw [raiseLine_dmc]
    show ({ z.dmc with splitDone := true } : Dmc) = _
    rw [wB.2, wA.2, kd]
  · simp only [raiseLine]; rw [mem_insertNat]; exact .inl rfl

theorem completes_splitWrite :
    ∀ (m : Master) (line : Nat) (s : State), Reach .dmc 0 s → Rising s.regs → windowOpen .dmc 0 s = true →
    line = fld .splitaddr 0 0 26 0 s → bccHit line s = none →
    ∃ t, exec (.splitWrite m) s = .next t ∧ t.mem = (memWrite (ddrBase + line * 128) 128 (regWords .splitdata 32 s) s).mem ∧
    t.dmc.poison = s.dmc.poison ∧ t.dmc.rowLog = s.dmc.rowLog ∧ (line, regWords .splitchk 8 s) ∈ t.dmc.rawChk ∧
    t.dmc.splitDone = true ∧ 412 ∈ t.irq.pending := by
  intro m line s h h1 h2 h3 h4
  refine ⟨_, rfl, ?_⟩
  obtain ⟨a, b, c, d, e⟩ := splitctl_store (v := 0xC0000000) h1 h2 (by decide)
  have k := frame_storeFields .splitctl 0 0 0xC0000000 s (m := 0x1800000110) .refl rfl
  have hl : fld .splitaddr 0 0 26 0 (storeFields .splitctl 0 0 0xC0000000 s) = line := by
    rw [h3]; unfold fld; rw [e .splitaddr 0 (by decide)]
  rw [access_reach h, useWindow_mem, useWindow_dmc, useWindow_irq]
  unfold splitGo
  dsimp only
  rw [hl]
  have kd := k .dmc rfl
  have e1 : regWords .splitdata 32 (storeFields .splitctl 0 0 0xC0000000 s) = regWords .splitdata 32 s := by
    exact regWords_congr fun j => e .splitdata j (by unfold Reg.addr; show Blk.base .dmc 0 + 0x1040 + 4 * j ≠ Blk.base .dmc 0 + 0x1000 + 4 * 0; omega)
  have e2 : regWords .splitchk 8 (storeFields .splitctl 0 0 0xC0000000 s) = regWords .splitchk 8 s := by
    exact regWords_congr fun j => e .splitchk j (by unfold Reg.addr; show Blk.base .dmc 0 + 0x10C0 + 4 * j ≠ Blk.base .dmc 0 + 0x1000 + 4 * 0; omega)
  generalize storeFields .splitctl 0 0 0xC0000000 s = u at *
  have hi : invalLine true line u = u := by
    unfold invalLine; rw [show bccHit line u = none by rw [← h4]; unfold bccHit; rw [d]]
  rw [hi, a, if_pos (by decide), e1]
  have hm : ∀ (n x v : Nat), (memWrite x n v u).mem = (memWrite x n v s).mem := fun n x v => memWrite_mem_congr c
  generalize hv : regWords .splitdata 32 s = v
  have m1 := hm 128 (ddrBase + line * 128) v
  have m2 : regWords .splitchk 8 (memWrite (ddrBase + line * 128) 128 v u) = regWords .splitchk 8 s :=
    (regWords_congr fun j => reg_congr (memWrite_regs ..) ..).trans e2
  have m3 : (memWrite (ddrBase + line * 128) 128 v u).dmc = s.dmc := (memWrite_dmc ..).trans kd
  generalize memWrite (ddrBase + line * 128) 128 v u = y at *
  generalize memWrite (ddrBase + line * 128) 128 v s = z at *
  rw [m2, m3, raiseLine_mem, raiseLine_dmc]
  refine ⟨m1, rfl, rfl, List.mem_cons_self .., rfl, ?_⟩
  simp only [raiseLine]; rw [mem_insertNat]; exact .inl rfl

theorem completes_scrubRead :
    ∀ (line k : Nat) (s : State), fld .dmcScrub 0 0 31 31 s = 1 → s.pwr.selfRefresh = false → s.dmc.ppr = none →
    pdOn 12 s = true → (hdrOf .dmc 0 s).freeze = false → nextScrub s.dmc.scrubPos s = some line → s.dmc.poison = [] → s.dmc.rawChk = [] →
    nextScrub (line + 1) { s with dmc := { s.dmc with scrubPos := line + 1 } } = some k →
    ∃ t, exec (.scrubRead .none) s = .next t ∧ t.dmc = { s.dmc with scrubPos := line + 1 } := by
  intro line k s h1 h2 h3 h4 h5 h6 h7 h9 h8
  have hp : ∀ line, halfPoisoned (line * 128) s = false := fun line => by unfold halfPoisoned rawPoison; rw [h7, h9]; rfl
  have hp' : ∀ line, halfPoisoned (line * 128 + 64) s = false := fun line => by unfold halfPoisoned rawPoison; rw [h7, h9]; rfl
  have hu : scrubLine .none (some line) s = { s with dmc := { s.dmc with scrubPos := line + 1 } } := by
    unfold scrubLine scrubTake
    dsimp only
    rw [hp line, hp' line, if_neg (by simp)]
  obtain ⟨u, hv⟩ : ∃ u, scrubLine .none (some line) s = u := ⟨_, rfl⟩
  have hd : u.dmc = { s.dmc with scrubPos := line + 1 } := by rw [← hv, hu]
  have hn : nextScrub u.dmc.scrubPos u = some k := by
    have hp : u.dmc.scrubPos = line + 1 := by rw [hd]
    rw [hp, ← hv, hu]; exact h8
  refine ⟨u, ?_, hd⟩
  refine (scrub_line ?_ h6 hv).trans ?_
  · rw [h2, h3, h4, h5]; simp [h1]
  · rw [hn]; rfl

theorem completes_scrubPassEnds :
    ∀ (err : DdrErr) (s : State), fld .dmcScrub 0 0 31 31 s = 1 → s.pwr.selfRefresh = false → s.dmc.ppr = none →
    pdOn 12 s = true → (hdrOf .dmc 0 s).freeze = false → nextScrub s.dmc.scrubPos s = none →
    ∃ t, exec (.scrubRead err) s = .next t ∧ t.dmc.scrubPos = 0 ∧ t.dmc.passes = min 0xFFFF (s.dmc.passes + 1) ∧
    t.dmc.passCe = 0 ∧ t.dmc.passUe = 0 ∧ 410 ∈ t.irq.pending := by
  intro err s h1 h2 h3 h4 h5 h6
  refine ⟨_, rfl, ?_⟩
  rw [if_pos (by rw [h2, h3, h4, h5]; simp [h1]), h6]
  dsimp only
  rw [if_pos (by decide)]
  unfold scrubLine scrubPassEnd
  dsimp only
  refine ⟨rfl, rfl, rfl, rfl, ?_⟩
  simp only [raiseLine]; rw [mem_insertNat]; exact .inl rfl

theorem completes_softPpr :
    ∀ (m : Master) (v : Word) (s : State), Reach .dmc 0 s → Rising s.regs → windowOpen .dmc 0 s = true → s.dmc.ppr = none →
    ∃ t, exec (.softPpr m v) s = .next t ∧ t.dmc.pprDone = false ∧ ∃ p, t.dmc.ppr = some p ∧ p.hard = false := by
  intro m v s h h1 h2 h3
  refine ⟨_, rfl, ?_⟩
  rw [access_reach h, useWindow_dmc]
  have hw : writableBits .ppr0 0 s = 0x7F80FFFF := by
    unfold writableBits; rw [show (Reg.ppr0).row.blk = .dmc from rfl, h2, if_pos rfl]; decide
  have hv : v.toNat &&& 0x3FFFFFFF ||| 0x80000000 < 2 ^ 32 := Nat.or_lt_two_pow (Nat.and_lt_two_pow _ (by norm_num)) (by norm_num)
  have hb : bits (reg .ppr0 0 0 (storeFields .ppr0 0 0 (v.toNat &&& 0x3FFFFFFF ||| 0x80000000) s)) 30 30 = 0 := by
    have := fld_bit .ppr0 0 0 30 (storeFields .ppr0 0 0 (v.toNat &&& 0x3FFFFFFF ||| 0x80000000) s)
    rw [reg_storeFields_testBit _ _ _ _ _ h1 hv (by norm_num), hw, if_pos (by decide), Nat.testBit_or, Nat.testBit_and,
      show Nat.testBit 0x3FFFFFFF 30 = false from rfl, show Nat.testBit 0x80000000 30 = false from rfl, Bool.and_false, Bool.false_or] at this
    unfold fld at this
    have h0 : bits (reg .ppr0 0 0 (storeFields .ppr0 0 0 (v.toNat &&& 0x3FFFFFFF ||| 0x80000000) s)) 30 30 < 2 := by unfold bits; exact Nat.mod_lt _ (by norm_num)
    have h9 : bits (reg .ppr0 0 0 (storeFields .ppr0 0 0 (v.toNat &&& 0x3FFFFFFF ||| 0x80000000) s)) 30 30 ≠ 1 := by simpa using this
    omega
  unfold pprGo
  dsimp only
  generalize hu : storeFields .ppr0 0 0 (v.toNat &&& 0x3FFFFFFF ||| 0x80000000) s = u at *
  have e1 : u.dmc = s.dmc := by rw [← hu]; exact frame_storeFields _ _ _ _ s (m := 0x1800000110) .refl rfl .dmc rfl
  have e2 : u.sys = s.sys := by rw [← hu]; exact frame_storeFields _ _ _ _ s (m := 0x1800000110) .refl rfl .sys rfl
  rw [e1, h3]
  dsimp only
  rw [hb, e2]
  rw [show ((0 : Nat) == 1) = false from rfl, Bool.false_and, if_neg Bool.false_ne_true]
  exact ⟨rfl, _, rfl, rfl⟩

theorem completes_hardPpr :
    ∀ (m : Master) (v : Word) (s : State), Reach .dmc 0 s → Rising s.regs → windowOpen .dmc 0 s = true → s.dmc.ppr = none →
    s.sys.ready = false →
    ∃ t, exec (.hardPpr m v) s = .next t ∧ t.dmc.pprDone = false ∧ ∃ p, t.dmc.ppr = some p ∧ p.hard = true := by
  intro m v s h h1 h2 h3 h4
  refine ⟨_, rfl, ?_⟩
  rw [access_reach h, useWindow_dmc]
  have hw : writableBits .ppr0 0 s = 0x7F80FFFF := by
    unfold writableBits; rw [show (Reg.ppr0).row.blk = .dmc from rfl, h2, if_pos rfl]; decide
  have hv : v.toNat &&& 0x3FFFFFFF ||| 0xC0000000 < 2 ^ 32 := Nat.or_lt_two_pow (Nat.and_lt_two_pow _ (by norm_num)) (by norm_num)
  have hb : bits (reg .ppr0 0 0 (storeFields .ppr0 0 0 (v.toNat &&& 0x3FFFFFFF ||| 0xC0000000) s)) 30 30 = 1 := by
    have := fld_bit .ppr0 0 0 30 (storeFields .ppr0 0 0 (v.toNat &&& 0x3FFFFFFF ||| 0xC0000000) s)
    rw [reg_storeFields_testBit _ _ _ _ _ h1 hv (by norm_num), hw, if_pos (by decide), Nat.testBit_or, Nat.testBit_and,
      show Nat.testBit 0x3FFFFFFF 30 = false from rfl, show Nat.testBit 0xC0000000 30 = true from rfl, Bool.and_false, Bool.false_or] at this
    unfold fld at this
    simpa using this
  unfold pprGo
  dsimp only
  generalize hu : storeFields .ppr0 0 0 (v.toNat &&& 0x3FFFFFFF ||| 0xC0000000) s = u at *
  have e1 : u.dmc = s.dmc := by rw [← hu]; exact frame_storeFields _ _ _ _ s (m := 0x1800000110) .refl rfl .dmc rfl
  have e2 : u.sys = s.sys := by rw [← hu]; exact frame_storeFields _ _ _ _ s (m := 0x1800000110) .refl rfl .sys rfl
  rw [e1, h3]
  dsimp only
  rw [hb, e2]
  rw [show ((1 : Nat) == 1) = true from rfl, h4, Bool.and_false, if_neg Bool.false_ne_true]
  exact ⟨rfl, _, rfl, rfl⟩

theorem completes_hardPprRefused :
    ∀ (m : Master) (v : Word) (s : State), Reach .dmc 0 s → Rising s.regs → windowOpen .dmc 0 s = true → s.dmc.ppr = none →
    s.sys.ready = true →
    ∃ t, exec (.hardPpr m v) s = .next t ∧ t.dmc.pprDone = true ∧ t.dmc.pprRes = 2 ∧ t.dmc.ppr = none := by
  intro m v s h h1 h2 h3 h4
  refine ⟨_, rfl, ?_⟩
  rw [access_reach h, useWindow_dmc]
  have hw : writableBits .ppr0 0 s = 0x7F80FFFF := by
    unfold writableBits; rw [show (Reg.ppr0).row.blk = .dmc from rfl, h2, if_pos rfl]; decide
  have hv : v.toNat &&& 0x3FFFFFFF ||| 0xC0000000 < 2 ^ 32 := Nat.or_lt_two_pow (Nat.and_lt_two_pow _ (by norm_num)) (by norm_num)
  have hb : bits (reg .ppr0 0 0 (storeFields .ppr0 0 0 (v.toNat &&& 0x3FFFFFFF ||| 0xC0000000) s)) 30 30 = 1 := by
    have := fld_bit .ppr0 0 0 30 (storeFields .ppr0 0 0 (v.toNat &&& 0x3FFFFFFF ||| 0xC0000000) s)
    rw [reg_storeFields_testBit _ _ _ _ _ h1 hv (by norm_num), hw, if_pos (by decide), Nat.testBit_or, Nat.testBit_and,
      show Nat.testBit 0x3FFFFFFF 30 = false from rfl, show Nat.testBit 0xC0000000 30 = true from rfl, Bool.and_false, Bool.false_or] at this
    unfold fld at this
    simpa using this
  unfold pprGo
  dsimp only
  generalize hu : storeFields .ppr0 0 0 (v.toNat &&& 0x3FFFFFFF ||| 0xC0000000) s = u at *
  have e1 : u.dmc = s.dmc := by rw [← hu]; exact frame_storeFields _ _ _ _ s (m := 0x1800000110) .refl rfl .dmc rfl
  have e2 : u.sys = s.sys := by rw [← hu]; exact frame_storeFields _ _ _ _ s (m := 0x1800000110) .refl rfl .sys rfl
  rw [e1, h3]
  dsimp only
  rw [hb, e2]
  rw [show ((1 : Nat) == 1) = true from rfl, h4, Bool.and_true, if_pos rfl]
  unfold pprResult
  dsimp only
  rw [if_neg (by decide), raiseLine_dmc, ev_dmc]
  exact ⟨rfl, rfl, rfl⟩

theorem completes_rowLogClear :
    ∀ (m : Master) (v : Word) (s : State), Reach .dmc 0 s →
    ∃ t, exec (.rowLogClear m v) s = .next t ∧ t.dmc.rowLog = s.dmc.rowLog.filter fun e => !(v.toNat.testBit e.i) := by
  intro m v s h
  refine ⟨_, rfl, ?_⟩
  rw [access_reach h, useWindow_dmc]
  rfl

theorem rangeCmd_started {op : Nat} {s : State} (h : Reach .bcc 0 s) (h1 : Rising s.regs) (h0 : op < 16) (h2 : s.bcc.op = none)
    (h3 : rangeAccepted op s.bcc.state = true) : RangeStarted op s (rangeCmd op s) := by
  rw [rangeCmd_run h h1 h0]
  unfold RangeStarted
  rw [useWindow_bcc]
  have hb : (storeFields .opcmd 0 0 (0x80000000 + op) s).bcc = s.bcc := frame_storeFields _ _ _ _ s (m := 0x1800000110) .refl rfl .bcc rfl
  have hr : ∀ (q : Reg), q.addr 0 0 ≠ Reg.addr .opcmd 0 0 → reg q 0 0 (storeFields .opcmd 0 0 (0x80000000 + op) s) = reg q 0 0 s := by
    intro q hq
    unfold storeFields
    dsimp only
    split
    · rw [reg_congr (blockError_regs ..), reg_setReg_ne hq]
    · rw [reg_setReg_ne hq]
  unfold rangeGo
  rw [hb, h2, if_neg (by simp), h3, if_neg (by decide)]
  refine ⟨rfl, ?_⟩
  unfold fld
  rw [hr .opaddr1 (by decide), hr .opaddr0 (by decide), hr .oplines (by decide)]
  rfl

theorem completes_bccAccessRead :
    ∀ (m : Master) (a : BitVec 40) (v : Word) (c : CLine) (s : State), inDdr (a.toNat / 4 * 4) s = true → pdOn 12 s = true →
    accessWaits (a.toNat / 4 * 4) s = false → pastL1 m (a.toNat / 4 * 4) s = true →
    bccPass s = false → bccHit ((a.toNat / 4 * 4 - ddrBase) / 128) s = some c →
    ∃ t, exec (.bccAccess m a false v none) s = .next t ∧
    t.busData = lineBytes c.data ((a.toNat / 4 * 4 - ddrBase) % 128) 4 ∧ t.busErr = false := by
  intro m a v c s h1 h2 h5 h6 h3 h4
  refine ⟨_, rfl, ?_⟩
  dsimp only
  rw [if_neg Bool.false_ne_true, ddrTake_read h1 h2 h5 h6]
  exact ddrAccess_hit h3 h4

theorem completes_bccAccessWrite :
    ∀ (a : BitVec 40) (v : Word) (c : CLine) (s : State), inDdr (a.toNat / 4 * 4) s = true → pdOn 12 s = true →
    accessWaits (a.toNat / 4 * 4) s = false →
    bccPass s = false → s.bcc.state = .enabled → polOf (a.toNat / 4 * 4 - ddrBase) s = 0 →
    bccHit ((a.toNat / 4 * 4 - ddrBase) / 128) s = some c →
    ∃ t, exec (.bccAccess .debug a true v none) s = .next t ∧ t.busErr = false ∧ t.mem = s.mem ∧
    ∃ l ∈ t.bcc.lines, l.line = c.line ∧ l.dirty = true ∧
    l.data = lineSet c.data ((a.toNat / 4 * 4 - ddrBase) % 128) 4 v.toNat := by
  intro a v c s h1 h2 h7 h3 h5 h6 h4
  refine ⟨_, rfl, ?_⟩
  dsimp only
  rw [if_pos rfl]
  unfold ddrTake memAccess
  rw [h1, if_neg (by simp), if_pos h2, h7, if_neg Bool.false_ne_true]
  unfold memTake
  dsimp only
  have hi : inDdr (a.toNat / 4 * 4) { s with l1 := mapIf (fun l => l.line == a.toNat / 4 * 4 / 64) (fun l => { l with data := lineSet l.data (a.toNat / 4 * 4 % 64) 4 v.toNat }) s.l1 } = true := h1
  rw [if_pos hi]
  clear hi
  generalize hu : ({ s with l1 := mapIf (fun l => l.line == a.toNat / 4 * 4 / 64) (fun l => { l with data := lineSet l.data (a.toNat / 4 * 4 % 64) 4 v.toNat }) s.l1 } : State) = u
  have e0 : u.bcc = s.bcc ∧ u.mem = s.mem ∧ bccPass u = false ∧ bccHit ((a.toNat / 4 * 4 - ddrBase) / 128) u = some c ∧
      polOf (a.toNat / 4 * 4 - ddrBase) u = 0 := by rw [← hu]; exact ⟨rfl, rfl, h3, h4, h6⟩
  clear hu
  unfold ddrAccess bccWrite
  dsimp only
  have e1 : u.bcc.state = .enabled := by rw [e0.1]; exact h5
  rw [e1, if_neg (by decide : ¬ (BccState.enabled == BccState.draining) = true), e0.2.2.1, if_neg Bool.false_ne_true, e0.2.2.2.1]
  dsimp only
  have e3 : (bccTick u).bcc.state = .enabled := e1
  have e2 : polOf (a.toNat / 4 * 4 - ddrBase) (bccTick u) = 0 := e0.2.2.2.2
  rw [e3, if_neg (by decide), e2, if_neg (by decide)]
  exact ⟨rfl, e0.2.1, _, List.mem_cons_self .., rfl, rfl, rfl⟩

theorem completes_ceWindowExpiry :
    ∀ s : State, ∃ t, exec .ceWindowExpiry s = .next t ∧ t.bcc = { s.bcc with wayCe := Vector.replicate 16 0 } := by
  intro s
  exact ⟨_, rfl, rfl⟩

theorem completes_bccEnable :
    ∀ (m : Master) (s : State), Reach .bcc 0 s → s.bcc.state = .disabled → s.bcc.invd = true →
    ∃ t, exec (.bccEnable m) s = .next t ∧ t.bcc.state = .enabled := by
  intro m s h h1 h2
  refine ⟨_, rfl, ?_⟩
  rw [access_reach h, useWindow_bcc]
  unfold bccSetEn
  rw [if_pos (by rw [h1, h2]; rfl)]
  rfl

theorem completes_bccEnableRefused :
    ∀ (m : Master) (s : State), Reach .bcc 0 s → s.bcc.state = .disabled → s.bcc.invd = false → EventRoom s →
    ∃ t, exec (.bccEnable m) s = .next t ∧ t.bcc = s.bcc ∧ Recorded 0x0A32 t := by
  intro m s h h1 h2 h3
  refine ⟨_, rfl, ?_⟩
  rw [access_reach h, useWindow_bcc]
  unfold bccSetEn
  rw [if_neg (by rw [h1, h2]; simp), if_neg (by rw [h1]; decide)]
  exact ⟨by unfold blockErrorP; rw [ev_bcc]; rfl, recorded_useWindow.mpr (recorded_here (s := s.modHdr _ _) h3)⟩

theorem completes_bccDisable :
    ∀ (m : Master) (s : State), Reach .bcc 0 s → s.bcc.state = .enabled → s.rvr.commit = false →
    ∃ t, exec (.bccDisable m) s = .next t ∧ t.bcc.state = .draining ∧ t.bcc.invd = false := by
  intro m s h h1 h2
  refine ⟨_, rfl, ?_⟩
  rw [access_reach h, useWindow_bcc]
  unfold bccClearEn
  rw [if_pos (by rw [h1]; rfl), if_neg (by rw [h2]; simp)]
  exact ⟨rfl, rfl⟩

theorem completes_bccDisableRefused :
    ∀ (m : Master) (s : State), Reach .bcc 0 s → s.bcc.state = .enabled → s.rvr.commit = true → EventRoom s →
    ∃ t, exec (.bccDisable m) s = .next t ∧ t.bcc = s.bcc ∧ Recorded 0x0A36 t := by
  intro m s h h1 h2 h3
  refine ⟨_, rfl, ?_⟩
  rw [access_reach h, useWindow_bcc]
  unfold bccClearEn
  rw [if_pos (by rw [h1]; rfl), if_pos h2]
  exact ⟨by unfold blockErrorP; rw [ev_bcc]; rfl, recorded_useWindow.mpr (recorded_here (s := s.modHdr _ _) h3)⟩

theorem completes_drainComplete :
    ∀ s : State, s.bcc.state = .draining → (hdrOf .bcc 0 s).freeze = false →
    ∃ t, exec .drainComplete s = .next t ∧ t.bcc.state = .disabled ∧ t.bcc.drainSet = 0 ∧ 417 ∈ t.irq.pending := by
  intro s h hf
  refine ⟨_, rfl, ?_⟩
  rw [if_pos (by rw [h, hf]; rfl)]
  dsimp only
  rw [raiseLine_bcc, ev_bcc]
  refine ⟨rfl, rfl, ?_⟩
  simp only [raiseLine]; rw [mem_insertNat]; exact .inl rfl

theorem completes_bccClean :
    ∀ (m : Master) (s : State), Reach .bcc 0 s → Rising s.regs → s.bcc.op = none → s.bcc.state = .enabled →
    ∃ t, exec (.bccClean m) s = .next t ∧ RangeStarted 1 s t := by
  intro m s h h1 h2 h3
  exact ⟨_, rfl, rangeCmd_started h h1 (by decide) h2 (by rw [h3]; decide)⟩

theorem completes_bccInval :
    ∀ (m : Master) (s : State), Reach .bcc 0 s → Rising s.regs → s.bcc.op = none →
    ∃ t, exec (.bccInval m) s = .next t ∧ RangeStarted 2 s t := by
  intro m s h h1 h2
  exact ⟨_, rfl, rangeCmd_started h h1 (by decide) h2 (by cases s.bcc.state <;> decide)⟩

theorem completes_bccCleanInval :
    ∀ (m : Master) (s : State), Reach .bcc 0 s → Rising s.regs → s.bcc.op = none →
    ∃ t, exec (.bccCleanInval m) s = .next t ∧ RangeStarted 3 s t := by
  intro m s h h1 h2
  exact ⟨_, rfl, rangeCmd_started h h1 (by decide) h2 (by cases s.bcc.state <;> decide)⟩

theorem completes_bccZero :
    ∀ (m : Master) (s : State), Reach .bcc 0 s → Rising s.regs → s.bcc.op = none → s.bcc.state = .enabled →
    ∃ t, exec (.bccZero m) s = .next t ∧ RangeStarted 4 s t := by
  intro m s h h1 h2 h3
  exact ⟨_, rfl, rangeCmd_started h h1 (by decide) h2 (by rw [h3]; decide)⟩

theorem completes_bccLock :
    ∀ (m : Master) (s : State), Reach .bcc 0 s → Rising s.regs → s.bcc.op = none → s.bcc.state = .enabled →
    ∃ t, exec (.bccLock m) s = .next t ∧ RangeStarted 5 s t := by
  intro m s h h1 h2 h3
  exact ⟨_, rfl, rangeCmd_started h h1 (by decide) h2 (by rw [h3]; decide)⟩

theorem completes_bccUnlock :
    ∀ (m : Master) (s : State), Reach .bcc 0 s → Rising s.regs → s.bcc.op = none →
    ∃ t, exec (.bccUnlock m) s = .next t ∧ RangeStarted 6 s t := by
  intro m s h h1 h2
  exact ⟨_, rfl, rangeCmd_started h h1 (by decide) h2 (by cases s.bcc.state <;> decide)⟩

theorem completes_bccInvalAll :
    ∀ (m : Master) (s : State), Reach .bcc 0 s → Rising s.regs → s.bcc.op = none → s.bcc.state = .disabled →
    ∃ t, exec (.bccInvalAll m) s = .next t ∧ RangeStarted 7 s t := by
  intro m s h h1 h2 h3
  exact ⟨_, rfl, rangeCmd_started h h1 (by decide) h2 (by rw [h3]; decide)⟩

theorem completes_rangeOpDone :
    ∀ (r : RangeOp) (s : State), (hdrOf .bcc 0 s).freeze = false → s.bcc.op = some r → r.op = 7 →
    ∃ t, exec .rangeOpDone s = .next t ∧ t.bcc.op = none ∧ t.bcc.opDone = true ∧ t.bcc.opRes = 0 ∧ t.bcc.lines = [] ∧
    t.bcc.invd = true ∧ 416 ∈ t.irq.pending := by
  intro r s hf h1 h2
  refine ⟨_, rfl, ?_⟩
  rw [if_neg (by rw [hf]; exact Bool.false_ne_true)]
  unfold rangeFinish
  rw [h1]
  dsimp only
  rw [if_pos h2]
  unfold rangeResult
  dsimp only
  rw [if_neg (by decide)]
  refine ⟨rfl, rfl, rfl, rfl, rfl, ?_⟩
  simp only [raiseLine]; rw [mem_insertNat]; exact .inl rfl

theorem completes_repairMapEntry :
    ∀ (w : Word) (s : State), secRuns s = true → s.sec.mbDone = true → w.getLsbD 31 = true →
    (∀ x ∈ s.sys.repairMap, x.toNat / 256 ≠ w.toNat / 256) → s.sys.repairMap.length < 256 →
    ∃ t, exec (.repairMapEntry w) s = .next t ∧ t.sec.mbDone = true ∧ t.sec.mbRes = 0 ∧
    t.sys.repairMap = s.sys.repairMap ++ [w] := by
  intro w s h1 h2 h3 h4 h5
  refine ⟨_, by change execRepairMapEntry w s = _; unfold execRepairMapEntry; exact mbox h1 h2, ?_⟩
  try dsimp only
  generalize hu : setFld .mbcmd 0 0 23 16 8 _ = u
  have e1 : u.sys = s.sys := by rw [← hu, setFld_sys]; rfl
  rw [e1, if_neg (by rw [show w.toNat.testBit 31 = true from h3]; decide), if_neg (by
    simp only [List.any_eq_true, beq_iff_eq, not_exists, not_and]; exact fun x hx => h4 x hx), if_neg (by omega)]
  refine ⟨by rw [answer_sec], by rw [answer_sec], ?_⟩
  unfold answer
  dsimp only [State.modSec, State.modSys]
  rw [if_pos rfl, ev_sys, programFuses_sys, e1]

theorem completes_extend :
    ∀ (m digest : Nat) (s : State), secRuns s = true → s.sec.mbDone = true → 8 ≤ m → m ≤ 15 →
    ∃ t, exec (.extend m digest) s = .next t ∧ t.sec.mbDone = true ∧ t.sec.mbRes = 0 ∧
    t.sec.meas = vmod s.sec.meas m fun x => Config.hash x digest % 2 ^ 512 := by
  intro m digest s h1 h2 h3 h4
  refine ⟨_, by change execExtend m digest s = _; unfold execExtend; exact mbox h1 h2, ?_⟩
  try dsimp only
  generalize hu : setFld .mbcmd 0 0 23 16 2 _ = u
  have e1 : u.sec.meas = s.sec.meas := by rw [← hu, setFld_sec]; rfl
  rw [if_pos ⟨h3, h4⟩, answer_sec, ← e1]
  exact ⟨rfl, rfl, rfl⟩

theorem completes_keyGenerate :
    ∀ (ns user limit k : Nat) (s : State), secRuns s = true → s.sec.mbDone = true → ns < 64 → user < 32 →
    2 ^ 20 ≤ limit → limit < 2 ^ 40 → s.sec.encdis = false → s.sec.l2pend = false → s.sec.part = false →
    lowestFree 2048 (s.sec.slots.map (·.slot)) = some k →
    ∃ t, exec (.keyGenerate ns user limit) s = .next t ∧ t.sec.mbDone = true ∧ t.sec.mbRes = 0 ∧ ∃ x ∈ t.sec.slots,
    x.slot = k ∧ x.valid = true ∧ x.ns = ns ∧ x.user = user ∧ x.limit = limit ∧ x.use_ = 0 ∧ x.epoch = s.sec.epoch := by
  intro ns user limit k s h1 h2 h3 h4 h5 h6 h7 h8 h9 h10
  have hl : (if limit = 0 then 2 ^ 32 else limit) = limit := if_neg (by omega)
  refine ⟨_, by change execKeyGenerate ns user limit s = _; unfold execKeyGenerate; exact mbox h1 h2, ?_⟩
  try dsimp only
  generalize hu : setFld .mbcmd 0 0 23 16 3 _ = u
  have e0 : u.sec = { s.sec with mbDone := false, mbBusy := some 3 } := by rw [← hu, setFld_sec]; rfl
  rw [hl, if_neg (by omega), e0, if_neg (by dsimp only; rw [h7, h8, h9]; simp)]
  dsimp only
  rw [h10]
  dsimp only
  rw [if_neg (by unfold newKey putSlot; dsimp only [State.modSec, State.drawn]; rw [e0]; dsimp only; rw [h9]; decide)]
  have r := respondFree_sec 3 (newKey ns user limit k u)
  refine ⟨r.1, r.2.1, ?_⟩
  rw [r.2.2.1]
  unfold newKey putSlot
  dsimp only [State.modSec]
  exact ⟨_, mem_insertSlot _ _, rfl, rfl, rfl, rfl, rfl, rfl, by rw [e0]⟩

theorem completes_keyZero :
    ∀ (slot : Fin 2048) (x : KSlot) (s : State), secRuns s = true → s.sec.mbDone = true → kslot slot s = some x →
    pageOpen x.ns s = true →
    ∃ t, exec (.keyZero slot) s = .next t ∧ t.sec.mbDone = true ∧ t.sec.mbRes = 0 ∧
    t.sec.slots = s.sec.slots.filter (·.slot != slot.val) ∧ (∀ l ∈ t.sec.lane.toList, l ≠ some slot.val) := by
  intro slot x s h1 h2 h3 h4
  refine ⟨_, by change execKeyZero slot s = _; unfold execKeyZero; exact mbox h1 h2, ?_⟩
  try dsimp only
  generalize hu : setFld .mbcmd 0 0 23 16 4 _ = u
  have e0 : u.sec = { s.sec with mbDone := false, mbBusy := some 4 } := by rw [← hu, setFld_sec]; rfl
  have hk : kslot slot u = some x := by unfold kslot at h3 ⊢; rw [e0]; exact h3
  rw [hk]
  dsimp only
  rw [if_pos (by unfold pageOpen at h4 ⊢; rw [e0]; exact h4), answer_sec]
  unfold zeroSlot
  dsimp only [State.modSec]
  rw [e0]
  refine ⟨rfl, rfl, rfl, ?_⟩
  intro l hl
  rw [Vector.toList_map] at hl
  obtain ⟨y, -, rfl⟩ := List.mem_map.mp hl
  split
  · simp
  · assumption

theorem completes_keyCheckpoint :
    ∀ s : State, secRuns s = true → s.sec.mbDone = true →
    ∃ t, exec .keyCheckpoint s = .next t ∧ t.sec.mbDone = true ∧ t.sec.mbRes = 0 ∧
    t.sec.mbLen = 128 * (dueSlots s).length % 2 ^ 20 ∧ (∀ x ∈ dueSlots s, recordOf x ∈ t.sec.keyRecs) := by
  intro s h1 h2
  refine ⟨_, by change execKeyCheckpoint s = _; unfold execKeyCheckpoint; exact mbox h1 h2, ?_⟩
  try dsimp only
  generalize hu : setFld .mbcmd 0 0 23 16 5 _ = u
  have e0 : u.sec = { s.sec with mbDone := false, mbBusy := some 5 } := by rw [← hu, setFld_sec]; rfl
  have hd : dueSlots u = dueSlots s := by unfold dueSlots; rw [e0]
  rw [hd]
  have r := fun u => respondRecords_sec 5 ((dueSlots s).map recordOf) u
  refine ⟨(r _).1, (r _).2.1, by rw [(r _).2.2.1, List.length_map], fun x hx => ?_⟩
  rw [(r _).2.2.2]
  exact storeRecords_keyRecs (List.mem_map_of_mem hx)

theorem completes_nsActive :
    ∀ (ns : Fin 64) (slot : Fin 2048) (enc : Bool) (s : State), secRuns s = true → s.sec.mbDone = true →
    pageOpen ns s = true →
    ∃ t, exec (.nsActive ns slot enc) s = .next t ∧ t.sec.mbDone = true ∧ t.sec.mbRes = 0 ∧
    t.sec.nskey = s.sec.nskey.filter (·.1 != ns.val) ++ [(ns.val, enc, slot.val)] := by
  intro ns slot enc s h1 h2 h3
  refine ⟨_, by change execNsActive ns slot enc s = _; unfold execNsActive; exact mbox h1 h2, ?_⟩
  try dsimp only
  generalize hu : setFld .mbcmd 0 0 23 16 6 _ = u
  have e1 : u.sec = { s.sec with mbDone := false, mbBusy := some 6 } := by rw [← hu, setFld_sec]; rfl
  rw [if_pos (by unfold pageOpen at h3 ⊢; rw [e1]; exact h3), answer_sec]
  refine ⟨rfl, rfl, ?_⟩
  unfold setNsKey; dsimp only [State.modSec]; rw [e1]

theorem completes_svnCommit :
    ∀ (count : Nat) (s : State), secRuns s = true → s.sec.mbDone = true → s.sec.svn < count → count ≤ s.sec.imgSvn →
    count ≤ 64 →
    ∃ t, exec (.svnCommit count) s = .next t ∧ t.sec.mbDone = true ∧ t.sec.mbRes = 0 ∧ t.sec.svn = count := by
  intro count s h1 h2 h3 h4 h5
  refine ⟨_, by change execSvnCommit count s = _; unfold execSvnCommit; exact mbox h1 h2, ?_⟩
  try dsimp only
  generalize hu : setFld .mbcmd 0 0 23 16 7 _ = u
  have e1 : u.sec = { s.sec with mbDone := false, mbBusy := some 7 } := by rw [← hu, setFld_sec]; rfl
  have a : u.sec.svn = s.sec.svn := by rw [e1]
  have b : u.sec.imgSvn = s.sec.imgSvn := by rw [e1]
  rw [if_neg (by omega), if_neg (by omega), if_pos (by omega), answer_sec, ev_sec]
  exact ⟨rfl, rfl, rfl⟩

theorem completes_takeOwnership :
    ∀ (sig : SigObj) (s : State), secRuns s = true → s.sec.mbDone = true → s.sec.okey.any (·.isSome) = false →
    sig.valid = true →
    ∃ t, exec (.takeOwnership sig) s = .next t ∧ t.sec.mbDone = true ∧ t.sec.mbRes = 0 ∧
    t.sec.okey[0] = some (sig.key, false) := by
  intro sig s h1 h2 h3 h4
  refine ⟨_, by change execTakeOwnership sig s = _; unfold execTakeOwnership; exact mbox h1 h2, ?_⟩
  try dsimp only
  generalize hu : setFld .mbcmd 0 0 23 16 9 _ = u
  have e1 : u.sec.okey = s.sec.okey := by rw [← hu, setFld_sec]; rfl
  rw [if_neg (by rw [e1, h3]; decide), if_neg (by rw [h4]; decide), answer_sec]
  exact ⟨rfl, rfl, by simp [State.modSec]⟩

theorem completes_addOwnerKey :
    ∀ (sig : SigObj) (digest k : Nat) (s : State), secRuns s = true → s.sec.mbDone = true → ownerSigned sig s = true →
    ((List.range 4).find? fun k => (vget s.sec.okey k none).isNone) = some k →
    ∃ t, exec (.addOwnerKey sig digest) s = .next t ∧ t.sec.mbDone = true ∧ t.sec.mbRes = 0 ∧
    t.sec.okey = vmod s.sec.okey k fun _ => some (digest, false) := by
  intro sig digest k s h1 h2 h3 h4
  refine ⟨_, by change execAddOwnerKey sig digest s = _; unfold execAddOwnerKey; exact mbox h1 h2, ?_⟩
  try dsimp only
  generalize hu : setFld .mbcmd 0 0 23 16 9 _ = u
  have e1 : u.sec.okey = s.sec.okey := by rw [← hu, setFld_sec]; rfl
  rw [if_neg (by unfold ownerSigned at h3 ⊢; rw [e1, h3]; decide), e1, h4]
  dsimp only
  rw [answer_sec]
  exact ⟨rfl, rfl, by dsimp only [State.modSec]; rw [programFuses_sec, e1]⟩

theorem completes_revokeOwnerKey :
    ∀ (sig : SigObj) (k : Fin 4) (d : Nat) (s : State), secRuns s = true → s.sec.mbDone = true →
    ownerSigned sig s = true → s.sec.okey[k] = some (d, false) → 2 ≤ ownerKeys s →
    ∃ t, exec (.revokeOwnerKey sig k) s = .next t ∧ t.sec.mbDone = true ∧ t.sec.mbRes = 0 ∧
    t.sec.okey = s.sec.okey.set k (some (d, true)) := by
  intro sig k d s h1 h2 h3 h4 h5
  refine ⟨_, by change execRevokeOwnerKey sig k s = _; unfold execRevokeOwnerKey; exact mbox h1 h2, ?_⟩
  try dsimp only
  generalize hu : setFld .mbcmd 0 0 23 16 9 _ = u
  have e1 : u.sec.okey = s.sec.okey := by rw [← hu, setFld_sec]; rfl
  rw [if_neg (by unfold ownerSigned at h3 ⊢; rw [e1, h3]; decide), e1, h4]
  dsimp only
  rw [if_neg (by unfold ownerKeys at h5 ⊢; rw [e1]; omega), answer_sec]
  exact ⟨rfl, rfl, by dsimp only [State.modSec]; rw [programFuses_sec, e1]⟩

theorem completes_ownerPolicy :
    ∀ (sig : SigObj) (part openRegion ownerDebug : Bool) (s : State), secRuns s = true → s.sec.mbDone = true →
    ownerSigned sig s = true →
    ∃ t, exec (.ownerPolicy sig part openRegion ownerDebug) s = .next t ∧ t.sec.mbDone = true ∧ t.sec.mbRes = 0 ∧
    t.sec.policyNext = { part := part, openRegion := openRegion, ownerDebug := ownerDebug } ∧
    t.sec.policy = s.sec.policy := by
  intro sig part openRegion ownerDebug s h1 h2 h3
  refine ⟨_, by change execOwnerPolicy sig part openRegion ownerDebug s = _; unfold execOwnerPolicy; exact mbox h1 h2, ?_⟩
  try dsimp only
  generalize hu : setFld .mbcmd 0 0 23 16 9 _ = u
  have e0 : u.sec = { s.sec with mbDone := false, mbBusy := some 9 } := by rw [← hu, setFld_sec]; rfl
  rw [if_pos (by unfold ownerSigned at h3 ⊢; rw [e0, h3]), answer_sec]
  exact ⟨rfl, rfl, rfl, by dsimp only [State.modSec]; rw [e0]⟩

theorem completes_exportKeys :
    ∀ (sig : SigObj) (devid : Nat) (s : State), secRuns s = true → s.sec.mbDone = true → ownerSigned sig s = true →
    ∃ t, exec (.exportKeys sig devid) s = .next t ∧ t.sec.mbDone = true ∧ t.sec.mbRes = 0 ∧ t.sec.slots = s.sec.slots ∧
    (∃ u : State, t = respondFree 10 u ∧ u.mem = s.mem ∧ (EventRoom s → Recorded 0x0B60 u)) := by
  intro sig devid s h1 h2 h3
  refine ⟨_, by change execExportKeys sig devid s = _; unfold execExportKeys; exact mbox h1 h2, ?_⟩
  try dsimp only
  generalize hu : setFld .mbcmd 0 0 23 16 10 _ = u
  have e0 : u.sec = { s.sec with mbDone := false, mbBusy := some 10 } := by rw [← hu, setFld_sec]; rfl
  rw [if_pos (by unfold ownerSigned at h3 ⊢; rw [e0, h3])]
  have r := fun x => respondFree_sec 10 x
  refine ⟨(r _).1, (r _).2.1, ?_, _, rfl, ?_, fun hr => ?_⟩
  · rw [(r _).2.2.1, ev_sec, e0]
  · rw [← hu]; exact frame_ev _ _ _ _ _ _ (m := 0x1800000100) .refl rfl .mem rfl
  · have ee : u.evr = s.evr := by rw [← hu]; rfl
    exact recorded_here (by unfold EventRoom at hr ⊢; rw [ee]; exact hr)

theorem completes_importKeys :
    ∀ (sig : SigObj) (b : Bundle) (s : State), secRuns s = true → s.sec.mbDone = true → ownerSigned sig s = true →
    b.devid = s.sec.devid → b.srcOk = true → b.tagOk = true → s.sec.slots.any (·.valid) = false →
    ∃ t, exec (.importKeys sig b) s = .next t ∧ t.sec.mbDone = true ∧ t.sec.mbRes = 0 ∧
    t.sec.mbLen = 128 * b.recs.length % 2 ^ 20 ∧ (∀ r ∈ b.recs, importRec s r ∈ t.sec.keyRecs) := by
  intro sig b s h1 h2 h3 h4 h5 h6 h7
  refine ⟨_, by change execImportKeys sig b s = _; unfold execImportKeys; exact mbox h1 h2, ?_⟩
  try dsimp only
  generalize hu : setFld .mbcmd 0 0 23 16 11 _ = u
  have e0 : u.sec = { s.sec with mbDone := false, mbBusy := some 11 } := by rw [← hu, setFld_sec]; rfl
  have hi : importRec u = importRec s := by funext r; unfold importRec; rw [e0]
  rw [if_neg (by unfold ownerSigned at h3 ⊢; rw [e0, h3]; decide), if_neg (by rw [e0]; exact fun h => h h4),
    if_neg (by rw [h5, h6]; decide), if_neg (by rw [e0]; dsimp only; rw [h7]; decide), hi]
  have r := fun u => respondRecords_sec 11 (b.recs.map (importRec s)) u
  refine ⟨(r _).1, (r _).2.1, by rw [(r _).2.2.1, List.length_map], fun x hx => ?_⟩
  rw [(r _).2.2.2, ev_sec]
  exact storeRecords_keyRecs (List.mem_map_of_mem hx)

theorem completes_behaviourProfileUnlock :
    ∀ (sig : SigObj) (devid : Nat) (s : State), secRuns s = true → s.sec.mbDone = true → ownerSigned sig s = true →
    devid = s.sec.devid →
    ∃ t, exec (.behaviourProfileUnlock sig devid) s = .next t ∧ t.sec.mbDone = true ∧ t.sec.mbRes = 0 ∧
    t.sys.profLock = false := by
  intro sig devid s h1 h2 h3 h4
  refine ⟨_, by change execBehaviourProfileUnlock sig devid s = _; unfold execBehaviourProfileUnlock; exact mbox h1 h2, ?_⟩
  try dsimp only
  generalize hu : setFld .mbcmd 0 0 23 16 12 _ = u
  have e0 : u.sec = { s.sec with mbDone := false, mbBusy := some 12 } := by rw [← hu, setFld_sec]; rfl
  rw [if_neg (by unfold ownerSigned at h3 ⊢; rw [e0, h3]; decide), if_neg (by rw [e0]; exact fun h => h h4), answer_sec]
  exact ⟨rfl, rfl, rfl⟩

theorem completes_firmwareActivationMeasurement :
    ∀ (digest : Nat) (s : State), secRuns s = true → s.sec.mbDone = true →
    ∃ t, exec (.firmwareActivationMeasurement digest) s = .next t ∧ t.sec.mbDone = true ∧ t.sec.mbRes = 0 ∧
    t.sec.meas = vmod s.sec.meas 7 fun x => Config.hash x digest % 2 ^ 512 := by
  intro digest s h1 h2
  refine ⟨_, by change execFirmwareActivationMeasurement digest s = _; unfold execFirmwareActivationMeasurement; exact mbox h1 h2, ?_⟩
  try dsimp only
  generalize hu : setFld .mbcmd 0 0 23 16 13 _ = u
  have e1 : u.sec.meas = s.sec.meas := by rw [← hu, setFld_sec]; rfl
  rw [answer_sec, ← e1]
  exact ⟨rfl, rfl, rfl⟩

theorem completes_slotSelect :
    ∀ (m : Master) (v : Word) (x : KSlot) (s : State), Reach .kst 0 s → kslot (bits v.toNat 10 0) s = some x →
    ∃ t, exec (.slotSelect m v) s = .next t ∧ t.sec.selUse = x.use_ % 2 ^ 40 ∧ t.sec.selLim = x.limit % 2 ^ 40 ∧
    t.sec.selAttr = flag x.valid 31 + flag x.lost 30 + flag x.retired 29 + x.ns % 64 * 2 ^ 23 + x.user % 32 * 2 ^ 18
    + x.epoch % 32 * 2 ^ 13 := by
  intro m v x s h h1
  refine ⟨_, rfl, ?_⟩
  rw [access_reach h, useWindow_sec]
  unfold writeSlotsel
  have hk : kslot (bits v.toNat 10 0) (storeFields .slotsel 0 0 v.toNat s) = some x := by
    unfold kslot at h1 ⊢; rw [frame_storeFields _ _ _ _ s (m := 0x1800000110) .refl rfl .sec rfl]; exact h1
  dsimp only
  rw [hk]
  exact ⟨rfl, rfl, rfl⟩

theorem completes_snuffLevel1 :
    ∀ (src : Fin 4) (s : State), snuffArmed s = true →
    ∃ t, exec (.snuffLevel1 src) s = .next (wakeNoted t) ∧ t.sec.slots = [] ∧ t.sec.lane = Vector.replicate 4 none ∧
    t.sec.snuffed = true ∧ t.sec.alarmDue = some src.val ∧
    ((s.pwr.state == .lit && s.pwr.phase != .entering) = true → s.pwr.active = 0 → wakeNoted t = t) := by
  intro src s h1
  refine ⟨_, congrArg Host.Outcome.next (if_pos h1), ?_⟩
  unfold snuff1
  have r := snuffAct_sec 0x0B20 s
  have p := @snuffAct_pwr 0x0B20 s
  generalize hu : snuffAct 0x0B20 s = u at *
  dsimp only [State.modSec]
  rw [r]
  exact ⟨rfl, rfl, rfl, rfl, fun a b => wakeNoted_idle ((congrArg Pwr.active (p a)).trans b)⟩

theorem completes_snuffLevel2 :
    ∀ (src : Fin 3) (s : State), snuffArmed s = true →
    ∃ t, exec (.snuffLevel2 src) s = .next (wakeNoted t) ∧ t.sec.slots = [] ∧ t.sec.l2pend = true ∧
    ((s.pwr.state == .lit && s.pwr.phase != .entering) = true → s.pwr.active = 0 → wakeNoted t = t) := by
  intro src s h1
  refine ⟨_, congrArg Host.Outcome.next (if_pos h1), ?_⟩
  unfold snuff2
  have r := snuffAct_sec 0x0B21 s
  have p := @snuffAct_pwr 0x0B21 s
  generalize hu : snuffAct 0x0B21 s = u at *
  dsimp only
  rw [foldl_sec (fun s ns => guarantee .kst 2 4 (ns + 1) 0xFFFFFFFF 0x0B21 s) (fun s x => guarantee_sec _ _ _ _ _ _ s), ev_sec]
  dsimp only [State.modSec]
  rw [r]
  refine ⟨rfl, rfl, fun a b => wakeNoted_idle ?_⟩
  rw [foldl_pwr (fun s ns => guarantee .kst 2 4 (ns + 1) 0xFFFFFFFF 0x0B21 s)
    (fun s x => frame_guarantee _ _ _ _ _ _ s (m := 0x1800000100) .refl rfl .pwr rfl), ev_pwr]
  exact (congrArg Pwr.active (p a)).trans b

theorem completes_alarmFuseBlow :
    ∀ (src : Nat) (s : State), s.sec.alarmDue = some src → secRuns s = true → s.sec.alarms < 7 →
    ∃ t, exec .alarmFuseBlow s = .next (wakeNoted t) ∧ t.sec.alarms = s.sec.alarms + 1 ∧ t.sec.alarmDue = none ∧
    (s.pwr.active = 0 → wakeNoted t = t) := by
  intro src s h1 h2 h3
  refine ⟨blowAlarm src s, ?_, ?_⟩
  · show Host.Outcome.next (match s.sec.alarmDue with | some src => if secRuns s then wakeNoted (blowAlarm src s) else s | none => s) = _
    rw [h1]
    exact congrArg Host.Outcome.next (if_pos h2)
  have e : (s.sec.alarms == 7) = false := by rw [beq_eq_false_iff_ne]; omega
  unfold blowAlarm
  rw [if_pos (by omega : s.sec.alarms < 8), e]
  dsimp only
  rw [if_neg (by decide), ev_sec]
  dsimp only [State.modSec]
  rw [programFuses_sec]
  exact ⟨by omega, rfl, fun h => wakeNoted_idle (by rw [ev_pwr]; show (programFuses s).pwr.active = 0; rw [programFuses_pwr]; exact h)⟩

theorem completes_epochFuseBlow :
    ∀ s : State, secRuns s = true → s.sec.l2pend = true →
    (s.sec.epoch < 16 →
    ∃ t, exec .epochFuseBlow s = .next t ∧ t.sec.epoch = s.sec.epoch + 1 ∧ t.sec.l2pend = false) ∧
    (16 ≤ s.sec.epoch →
    ∃ t, exec .epochFuseBlow s = .next t ∧ t.sec.encdis = true ∧ t.sec.epoch = s.sec.epoch ∧ t.sec.l2pend = false) := by
  intro s h1 h2
  refine ⟨fun h3 => ⟨_, rfl, ?_⟩, fun h3 => ⟨_, rfl, ?_⟩⟩
  · rw [h1, h2, if_pos (by decide : (true && true) = true)]
    dsimp only
    rw [programFuses_sec, if_neg (by omega)]
    dsimp only [State.modSec]
    rw [programFuses_sec]
    exact ⟨rfl, rfl⟩
  · rw [h1, h2, if_pos (by decide : (true && true) = true)]
    dsimp only
    rw [programFuses_sec, if_pos h3, ev_sec]
    dsimp only [State.modSec]
    rw [programFuses_sec]
    exact ⟨rfl, rfl, rfl⟩

/-- What unwrapping a record leaves in its slot (R355). -/
def Unwrapped (r : KRec) (epoch : Nat) (u : State) : Prop :=
  ∃ x ∈ u.sec.slots, x.slot = r.slot ∧ x.valid = (r.good && r.epoch == epoch) ∧ x.lost = !x.valid ∧ x.use_ = r.use_ + 2 ^ 24 ∧
    x.limit = r.limit ∧ x.key = if x.valid then r.key else 0

theorem mem_insertSlot_of {x y : KSlot} {l : List KSlot} (h : y ∈ l) : y ∈ putSlot.insertSlot x l := by
  induction l with
  | nil => cases h
  | cons z t ih =>
    unfold putSlot.insertSlot
    split
    · exact List.mem_cons_of_mem _ h
    · rcases List.mem_cons.mp h with h | h
      · exact h ▸ List.mem_cons_self
      · exact List.mem_cons_of_mem _ (ih h)

theorem unwrapRec_slots (r : KRec) (u : State) : ∃ x, x.slot = r.slot ∧ x.valid = (r.good && r.epoch == u.sec.epoch) ∧
    x.lost = !x.valid ∧ x.use_ = r.use_ + 2 ^ 24 ∧ x.limit = r.limit ∧ (x.key = if x.valid then r.key else 0) ∧
    (unwrapRec r u).sec = { u.sec with slots := putSlot.insertSlot x (u.sec.slots.filter (·.slot != x.slot)) } := by
  refine ⟨{ slot := r.slot, valid := r.good && r.epoch == u.sec.epoch, lost := !(r.good && r.epoch == u.sec.epoch)
            retired := r.retired, ns := r.ns, user := r.user, epoch := r.epoch, use_ := r.use_ + 2 ^ 24, limit := r.limit
            key := if r.good && r.epoch == u.sec.epoch then r.key else 0, ckpt := r.use_, changed := false
            warned := r.limit * 9 ≤ (r.use_ + 2 ^ 24) * 10 }, rfl, rfl, rfl, rfl, rfl, rfl, ?_⟩
  unfold unwrapRec
  dsimp only
  split
  · rfl
  · rw [ev_sec]; rfl

theorem unwrapped_slot {r : KRec} (l : List KRec) (u : State) (h : r ∈ l ∨ Unwrapped r u.sec.epoch u)
    (hq : ∀ q ∈ l, q = r ∨ q.slot ≠ r.slot) : Unwrapped r u.sec.epoch (l.foldl (fun s r => unwrapRec r s) u) := by
  induction l generalizing u with
  | nil =>
    rcases h with h | h
    · cases h
    · exact h
  | cons q t ih =>
    obtain ⟨x, a1, a2, a3, a4, a5, a6, a7⟩ := unwrapRec_slots q u
    have ee : (unwrapRec q u).sec.epoch = u.sec.epoch := by rw [a7]
    rw [List.foldl_cons, ← ee]
    refine ih _ ?_ (fun p hp => hq p (List.mem_cons_of_mem _ hp))
    rw [ee]
    by_cases e : q = r
    · subst e
      refine .inr ⟨x, ?_, a1, a2, a3, a4, a5, a6⟩
      rw [a7]
      exact mem_insertSlot _ _
    · have ne := (hq q List.mem_cons_self).resolve_left e
      rcases h with h | ⟨y, hy, hs, hr⟩
      · exact .inl ((List.mem_cons.mp h).resolve_left (fun k => e k.symm))
      · refine .inr ⟨y, ?_, hs, hr⟩
        rw [a7]
        refine mem_insertSlot_of (List.mem_filter.mpr ⟨hy, ?_⟩)
        rw [hs, a1]
        simpa using Ne.symm ne

theorem completes_keyRestore :
    ∀ (l : List KRec) (s : State), secRuns s = true → s.sec.restored = false → s.sec.l2pend = false →
    s.sec.encdis = false → s.sec.noUnwrap = false → heldBlk .kst 0 s = false → keyCopy s = some l →
    ∃ t, exec .keyRestore s = .next t ∧ t.sec.restored = true ∧ t.sec.snuffed = false ∧
    (∀ r ∈ l, (∀ q ∈ l, q.slot = r.slot → q = r) → ∃ x ∈ t.sec.slots, x.slot = r.slot ∧
      x.valid = (r.good && r.epoch == s.sec.epoch) ∧ x.lost = !x.valid ∧ x.use_ = r.use_ + 2 ^ 24 ∧ x.limit = r.limit ∧
      x.key = if x.valid then r.key else 0) := by
  intro l s h1 h2 h3 h4 h5 h6 h7
  refine ⟨_, rfl, ?_⟩
  rw [h1, h2, h3, h4, h5, h6, if_pos (by decide), h7]
  dsimp only
  generalize hv : zeroKst _ = v
  have e : v.sec.epoch = s.sec.epoch := by
    rw [← hv]
    split
    · change (advanceTo _ s).sec.epoch = _
      exact congrArg Sec.epoch (show (advanceTo _ s).sec = s.sec from frame_advanceTo _ s (m := 0x7800000B12) .refl rfl .sec rfl)
    · rfl
  have k : ∀ r ∈ l, (∀ q ∈ l, q.slot = r.slot → q = r) → Unwrapped r v.sec.epoch _ := fun r hr hq =>
    unwrapped_slot (r := r) l v (.inl hr) (fun q hm => by
      by_cases hs : q.slot = r.slot
      · exact .inl (hq q hm hs)
      · exact .inr hs)
  rw [e] at k
  generalize List.foldl _ _ l = u at *
  split
  · rw [startQuiet_sec]; split <;> (try rw [deallocWiped_sec]) <;> rw [ev_sec] <;> exact ⟨rfl, rfl, k⟩
  · split <;> (try rw [deallocWiped_sec]) <;> rw [ev_sec] <;> exact ⟨rfl, rfl, k⟩

theorem completes_debugChallenge :
    ∀ s : State, pdOn 2 s = true → secRuns s = true →
    ∃ t, exec .debugChallenge s = .next t ∧ t.sec.dbgChal = some (draw (2 ^ 256) s) := by
  intro s h1 h2
  refine ⟨_, rfl, ?_⟩
  rw [h1, h2, if_pos (by decide : (true && true) = true)]
  rfl

theorem completes_debugResponse :
    ∀ (level digest : Nat) (sig : SigObj) (halt : Bool) (s : State), s.sec.dbgChal.isSome = true → pdOn 2 s = true →
    secRuns s = true → level = 1 → umwynSigned 2 sig s = true →
    ∃ t, exec (.debugResponse level sig digest halt) s = .next (wakeNoted t) ∧ t.sec.dbgChal = none ∧
    t.sys.debugLevel = max s.sys.debugLevel level ∧ t.sys.debugHalt = halt ∧
    t.sec.meas = vmod s.sec.meas 6 (fun x => Config.hash x digest % 2 ^ 512) ∧ (s.pwr.active = 0 → wakeNoted t = t) := by
  intro level digest sig halt s h1 h2 h3 h4 h5
  refine ⟨debugAnswer level sig digest halt s, ?_, ?_⟩
  · show Host.Outcome.next (if s.sec.dbgChal.isSome && pdOn 2 s && secRuns s then _ else s) = _
    rw [h1, h2, h3, if_pos (by decide : (true && true && true) = true)]
  unfold debugAnswer
  dsimp only
  rw [if_pos (by subst h4; unfold umwynSigned at h5 ⊢; dsimp only [State.modSec]; rw [h5]; rfl), if_neg (by omega), ev_sec, ev_sys]
  exact ⟨rfl, rfl, rfl, rfl, fun h => wakeNoted_idle (by rw [ev_pwr]; exact h)⟩

end Sys2Proof.Machine
end

