-- ==== Sys2Proof/Laws/CompletePower.lean ====
section
/-!
SUPPORT. Power and leave commands that complete. One lemma for each part of a completion statement.
-/

set_option Elab.async false
set_option linter.all false

namespace Sys2Proof.Machine

theorem completes_powerLoss :
    ∀ s : State, s.sys.coreUp = true → s.sup.loss = false → railLow s = true → s.sys.held = false → s.sys.railsGood = true →
    ∃ t, exec .powerLoss s = .next t ∧ t.sup.loss = true ∧ t.sys.railsGood = true := by
  intro s h1 h2 h3 h4 h5
  refine ⟨_, rfl, ?_⟩
  simp only [h1, h2, h3, h4, Bool.not_false, Bool.and_self, if_true]
  have hl := KeepLoss_elapse (fld .supPfcfg 0 0 15 0 s / 1000) s (o := s) .refl
  generalize elapse _ s = u at *
  unfold lossStart
  dsimp only
  generalize hv : retractLoaded 6 _ = v
  have k : v.sup.loss = true ∧ v.sys.railsGood = true := by
    have kk : KeepLoss { u with sup := { u.sup with loss := true } } v := by
      rw [← hv]
      exact KeepLoss_retractLoaded _ _ (KeepLoss_startCommit _ _ (KeepLoss_revokeLeaves _ _ (KeepLoss_closeFetch _ (KeepLoss_enterRectify _ (KeepLoss_lasersOff _ (KeepLoss_gatesAllOff _ (KeepLoss_raiseLine _ _ (KeepLoss_lifBump _ _ _ .refl))))))))
    exact ⟨kk.1.trans rfl, kk.2.trans (hl.2.trans h5)⟩
  clear hv
  unfold lossEnd
  split
  · have kk : KeepLoss v (if (zeroForPowerDown v).pwr.state == .lit then enterDim (zeroForPowerDown v) else zeroForPowerDown v) :=
      .ite (KeepLoss_enterDim _ (KeepLoss_zeroForPowerDown _ .refl)) (KeepLoss_zeroForPowerDown _ .refl)
    dsimp only
    rw [if_pos (kk.2.trans k.2)]
    exact ⟨kk.1.trans k.1, kk.2.trans k.2⟩
  · exact k

theorem completes_preqGoRefused :
    ∀ (m : Master) (v : Word) (s : State) (r : Nat × Option Nat) (tgt : Nat), Reach .wck 0 s → s.pwr.phase = .settled →
    fld .preq 0 0 3 0 (storeFields .preq 0 0 (v.toNat ||| 0x100) s) = tgt → tgt ≤ 3 → psCode s.pwr.state < tgt → precondition tgt (storeFields .preq 0 0 (v.toNat ||| 0x100) s) = some r →
    ∃ t, exec (.preqGo m v) s = .next t ∧ t.pwr = s.pwr ∧ (headerOf (Blk.wck.hdr 0) t).err = true := by
  intro m v s r tgt h h1 h2 h3 h4 h6
  refine ⟨_, rfl, ?_⟩
  rw [access_reach h]
  have hp : (storeFields .preq 0 0 (v.toNat ||| 0x100) s).pwr = s.pwr :=
    frame_storeFields .preq 0 0 _ s (m := 0x1800000110) .refl rfl .pwr rfl
  have hb : (v.toNat ||| 0x100).testBit 8 = true := by rw [Nat.testBit_or]; simp [show Nat.testBit 256 8 = true from rfl]
  have h5 : tgt ≠ 0 := by omega
  simp only [writePreq, hb, if_true]
  simp only [h2]
  generalize storeFields .preq 0 0 (v.toNat ||| 0x100) s = u at *
  have c1 : (decide (3 < tgt) || u.pwr.phase != .settled || decide (tgt ≤ psCode u.pwr.state)) = false := by
    rw [hp, h1]; simp; omega
  simp only [powerGo, h5, if_false, c1, Bool.false_eq_true, h6]
  simp only [refusePreq, blockErrorP]
  split <;> simp [hp, useWindow_err, Hdr.error, show Blk.wck.hdr 0 < 77 from by decide]

theorem completes_preqGo :
    ∀ (m : Master) (v : Word) (s : State) (tgt : Nat), Reach .wck 0 s → s.pwr.phase = .settled →
    fld .preq 0 0 3 0 (storeFields .preq 0 0 (v.toNat ||| 0x100) s) = tgt → tgt ≤ 3 → psCode s.pwr.state < tgt → precondition tgt (storeFields .preq 0 0 (v.toNat ||| 0x100) s) = none →
    ∃ t, exec (.preqGo m v) s = .next t ∧ t.pwr.target = psOf tgt ∧ t.pwr.phase = .entering ∧ t.pwr.state = s.pwr.state ∧
    (2 ≤ tgt → t.hce.closed = true ∧ t.pwr.selfRefresh = true) := by
  intro m v s tgt h h1 h2 h3 h4 h6
  refine ⟨_, rfl, ?_⟩
  rw [access_reach h]
  have hp : (storeFields .preq 0 0 (v.toNat ||| 0x100) s).pwr = s.pwr :=
    frame_storeFields .preq 0 0 _ s (m := 0x1800000110) .refl rfl .pwr rfl
  have hb : (v.toNat ||| 0x100).testBit 8 = true := by rw [Nat.testBit_or]; simp [show Nat.testBit 256 8 = true from rfl]
  have h5 : tgt ≠ 0 := by omega
  simp only [writePreq, hb, if_true]
  simp only [h2]
  generalize storeFields .preq 0 0 (v.toNat ||| 0x100) s = u at *
  have c1 : (decide (3 < tgt) || u.pwr.phase != .settled || decide (tgt ≤ psCode u.pwr.state)) = false := by
    rw [hp, h1]; simp; omega
  simp only [powerGo, h5, if_false, c1, Bool.false_eq_true, h6]
  simp only [beginEntry]
  split
  · next h7 =>
    have k : ∀ (l : List (Fin 4)) (u : State), (l.foldl (fun s c => l1CleanAll c s) u).pwr = u.pwr := by
      intro l; induction l with
      | nil => intro u; rfl
      | cons a l ih => intro u; rw [List.foldl_cons, ih]; exact frame_l1CleanAll a u (m := 0x18600031A0) .refl rfl .pwr rfl
    simp only [useWindow_pwr, useWindow_hce, State.modHce, State.modPwr, k, hp]
    simp
  · simp [State.modPwr, hp]; omega

theorem powerLit_pwr (s : State) : (powerLit s).pwr = { s.pwr with pd := pdLit s, state := .lit, target := .lit, phase := .settled } := by
  unfold powerLit
  dsimp only
  rw [frame_walkQueue _ (m := 0x6000) .refl rfl .pwr rfl]
  split
  · rfl
  · rw [frame_trimsRestored _ _ (m := 0x1800000100) .refl rfl .pwr rfl]; rfl

theorem completes_powerStateEnteredLit :
    ∀ s : State, (hdrOf .wck 0 s).freeze = false → s.pwr.phase = .waking → s.pwr.target = .lit →
    ∃ t, exec .powerStateEntered s = .next t ∧ t.pwr.state = .lit ∧ t.pwr.phase = .settled ∧ t.pwr.pd = pdLit s := by
  intro s hf h1 h2
  refine ⟨_, rfl, ?_⟩
  rw [if_neg (by rw [hf]; exact Bool.false_ne_true)]
  simp only [powerEntered, h1, h2, beq_self_eq_true, if_true, ev_pwr, powerLit_pwr]
  exact ⟨trivial, trivial, trivial⟩

theorem completes_powerStateEnteredDim :
    ∀ s : State, (hdrOf .wck 0 s).freeze = false → s.pwr.phase = .entering → s.pwr.target = .dim →
    ∃ t, exec .powerStateEntered s = .next t ∧ t.pwr.state = .dim ∧ t.pwr.phase = .settled ∧ t.pwr.pd = pdDim s.pwr.pd := by
  intro s hf h1 h2
  refine ⟨_, rfl, ?_⟩
  rw [if_neg (by rw [hf]; exact Bool.false_ne_true)]
  simp only [powerEntered, h1, h2, enterDim]
  have k := fun u => KeepPwr_psEntered 3 _ (KeepPwr_ev .wck 0x0E31 1 0 0 u (o := u) .refl)
  exact ⟨(k _).1.trans rfl, (k _).2.2.2.2.1.trans rfl, (k _).2.2.2.2.2.trans rfl⟩

theorem completes_powerStateEnteredGlow :
    ∀ s : State, (hdrOf .wck 0 s).freeze = false → s.pwr.phase = .entering → s.pwr.target = .glow → s.pwr.active = 0 →
    ∃ t, exec .powerStateEntered s = .next t ∧ t.pwr.state = .glow ∧ t.pwr.phase = .settled := by
  intro s hf h1 h2 h3
  refine ⟨_, rfl, ?_⟩
  rw [if_neg (by rw [hf]; exact Bool.false_ne_true)]
  simp only [powerEntered, h1, h2, h3, if_true, enterGlow]
  have k := fun u => KeepPwr_psEntered 4 _ (KeepPwr_ev .wck 0x0E31 2 0 0 u (o := u) .refl)
  exact ⟨(k _).1.trans rfl, (k _).2.2.2.2.1.trans rfl⟩

theorem completes_powerStateEnteredDark :
    ∀ s : State, (hdrOf .wck 0 s).freeze = false → s.pwr.phase = .entering → s.pwr.target = .dark → s.pwr.active = 0 →
    ∃ t, exec .powerStateEntered s = .next t ∧ t.pwr.state = .dark ∧ t.pwr.phase = .settled ∧ t.sys.coreUp = false := by
  intro s hf h1 h2 h3
  refine ⟨_, rfl, ?_⟩
  rw [if_neg (by rw [hf]; exact Bool.false_ne_true)]
  simp only [powerEntered, h1, h2, h3, if_true, darkEntry]
  exact ⟨rfl, rfl, rfl⟩

theorem completes_pdoffWrite :
    ∀ (m : Master) (v : Word) (s : State), Reach .wck 0 s → Rising s.regs → windowOpen .wck 0 s = true →
    (∀ d, v.toNat.testBit d = true → domBusy d s = false ∧ domGrant d s = false) →
    ∃ t, exec (.pdoffWrite m v) s = .next t ∧
    reg .pdoff 0 0 t = (reg .pdoff 0 0 s &&& ((2 ^ 32 - 1) ^^^ writableBits .pdoff 0 s)) ||| (v.toNat &&& writableBits .pdoff 0 s) := by
  intro m v s h h1 h2 h4
  refine ⟨_, rfl, ?_⟩
  rw [access_reach h]
  have e : ((bitList 22 (v.toNat &&& 0x3FE000)).filter fun d => !((reg .pdoff 0 0 s).testBit d)).filter
      (fun d => domBusy d s || domGrant d s) = [] := by
    rw [List.filter_eq_nil_iff]
    intro d hd
    have hd' := (List.mem_filter.1 (List.mem_filter.1 hd).1).2
    rw [Nat.testBit_and, Bool.and_eq_true] at hd'
    have := h4 d hd'.1
    rw [this.1, this.2]; decide
  simp only [writePdoff, h2, if_true, e, List.foldl_nil, show maskOf [] = 0 from rfl, Nat.xor_zero]
  have hv : v.toNat &&& 0xFFFFFFFF = v.toNat := by
    have := v.isLt; rw [show (0xFFFFFFFF : Nat) = 2 ^ 32 - 1 from rfl, Nat.and_two_pow_sub_one_eq_mod, Nat.mod_eq_of_lt this]
  rw [hv]
  have key := reg_storeFields .pdoff 0 0 v.toNat h1 v.isLt
  rw [← key]
  generalize storeFields .pdoff 0 0 v.toNat s = u at *
  refine (reg_congr (useWindow_regs _ _ _) _ _ _).trans ?_
  refine reg_congr ?_ _ _ _
  have k : ∀ l : List Nat, (l.foldl (fun s d => actuatorRetired (d - 14) s) u).regs = u.regs := fun l =>
    FrameB.foldl (m := 0x1800038180) (fun x d => frame_actuatorRetired _ x .refl rfl) .refl .regs rfl
  split
  · exact (frame_powerLit _ (m := 0x1800006900) .refl rfl .regs rfl).trans (k _)
  · exact k _

/-- A wake source that DIM admits wakes the part: LIT, with the wake record written (R79). -/
theorem wakeAct_dim {src periods : Nat} {env : BootEnv} {s : State} (h1 : s.pwr.state = .dim) (h2 : s.pwr.phase = .settled)
    (h3 : s.pwr.active = 0) (h4 : src &&& wakeEnabled s ≠ 0) :
    (wakeAct periods (some env) (noteWake src s)).pwr.state = .lit ∧
    (wakeAct periods (some env) (noteWake src s)).pwr.wakeTime = s.cal.sec ∧
    (wakeAct periods (some env) (noteWake src s)).pwr.active = 0 ∧
    (wakeAct periods (some env) (noteWake src s)).pwr.wakeSrc.toNat = (src &&& wakeEnabled s) % 1024 + 2 ^ 28 := by
  have k1 : noteWake src s = s.modPwr fun p => { p with active := src &&& wakeEnabled s, activeAt := wckPeriod s } := by
    unfold noteWake
    extract_lets a
    rw [if_neg (by simp [a, h4, h1]), if_pos h3]
  rw [k1]
  unfold wakeAct
  rw [if_neg (by exact h4), if_neg (by simp [State.modPwr, h2])]
  unfold wakeFrom
  generalize hu : (State.modPwr _ s : State) = u
  have u1 : u.pwr.state = .dim := by rw [← hu]; exact h1
  have u2 : u.pwr.active = src &&& wakeEnabled s := by rw [← hu]; rfl
  have u3 : u.cal = s.cal := by rw [← hu]; rfl
  clear hu
  rw [u1]
  dsimp only
  rw [powerLit_pwr]
  unfold wakeRecord
  dsimp only
  rw [ev_pwr, u1, u2]
  refine ⟨rfl, congrArg Cal.sec u3, rfl, ?_⟩
  show (BitVec.ofNat 32 _).toNat = _
  rw [BitVec.toNat_ofNat]; simp only [psCode]; omega

theorem completes_wakeSource :
    ∀ (src : BitVec 10) (periods : Nat) (env : BootEnv) (s : State), s.pwr.state = .dim → s.pwr.phase = .settled →
    s.pwr.active = 0 → src.toNat &&& wakeEnabled s ≠ 0 →
    ∃ t, exec (.wakeSource src periods env) s = .next t ∧ t.pwr.state = .lit ∧ t.pwr.wakeTime = s.cal.sec ∧
    t.pwr.active = 0 ∧ t.pwr.wakeSrc.toNat = (src.toNat &&& wakeEnabled s) % 1024 + 2 ^ 28 := by
  intro src periods env s h1 h2 h3 h4
  exact ⟨_, rfl, wakeAct_dim h1 h2 h3 h4⟩

theorem completes_clkDomWrite :
    ∀ (m : Master) (k : Fin 64) (v : Word) (s : State), Reach .clk 0 s → Rising s.regs → 2 ≤ k.val →
    clkSrcOk k (bits v.toNat 11 8) s = true →
    ∃ t, exec (.clkDomWrite m k v) s = .next t ∧
    reg .clkDom 0 k t = (reg .clkDom 0 k s &&& ((2 ^ 32 - 1) ^^^ writableBits .clkDom 0 s)) ||| (v.toNat &&& writableBits .clkDom 0 s) := by
  intro m k v s h h1 h2 h3
  refine ⟨_, rfl, ?_⟩
  rw [access_reach h]
  have e : ¬ (k.val < 2 ∨ (!(clkSrcOk k (bits v.toNat 11 8) s)) = true) := by simp [h3]; omega
  simp only [writeClkDom, if_neg e]
  rw [reg_congr (useWindow_regs _ _ _), reg_storeFields _ _ _ _ h1 v.isLt]

theorem completes_clkDomWriteRefused :
    ∀ (m : Master) (k : Fin 64) (v : Word) (s : State), Reach .clk 0 s → EventRoom s →
    (k.val < 2 ∨ clkSrcOk k (bits v.toNat 11 8) s = false) →
    ∃ t, exec (.clkDomWrite m k v) s = .next t ∧ t.regs = s.regs ∧ Recorded 0x0E13 t := by
  intro m k v s h h1 h2
  refine ⟨_, rfl, ?_⟩
  rw [access_reach h]
  have e : k.val < 2 ∨ (!(clkSrcOk k (bits v.toNat 11 8) s)) = true := by simpa using h2
  simp only [writeClkDom, if_pos e]
  exact ⟨by simp, (recorded_congr (useWindow_evr _ _ _)).mpr (recorded_blockError (by unfold EventRoom at h1; omega))⟩

theorem completes_pllLocked :
    ∀ (i : Fin 8) (s : State), pdOn 2 s = true → pllCanLock i s = true → pllLock i s = false →
    ∃ t, exec (.pllLocked i) s = .next t ∧ pllLock i t = true := by
  intro i s h1 h2 h3
  refine ⟨_, rfl, ?_⟩
  simp only [h1, h2, h3, Bool.not_false, Bool.and_self, if_true]
  have e : ∀ u : State, u.clk = (setLock i true s).clk → pllLock i u = true := by
    intro u hu
    unfold pllLock; rw [hu]; unfold setLock
    fin_cases i <;> simp [vget, vmod]
  split
  · exact e _ (frame_refreshEnds _ (m := 0x18600039AC) .refl rfl .clk rfl)
  · exact e _ rfl

theorem completes_pllLockLoss :
    ∀ (i : Fin 8) (s : State), pdOn 2 s = true → pllLock i s = true → i.val ≠ 1 →
    ∃ t, exec (.pllLockLoss i) s = .next t ∧ pllLock i t = false := by
  intro i s h1 h2 hi
  refine ⟨_, rfl, ?_⟩
  simp only [h1, h2, Bool.and_self, if_true, pllLoss, if_neg hi]
  have e : ∀ u : State, u.clk = (setLock i false s).clk → pllLock i u = false := by
    intro u hu
    unfold pllLock; rw [hu]; unfold setLock
    fin_cases i <;> simp [vget, vmod]
  apply e
  rw [ev_clk]
  generalize List.range 64 = l
  generalize setLock i false s = u
  clear e h1 h2
  induction l generalizing u with
  | nil => rfl
  | cons a l ih => rw [List.foldl_cons, ih]; split <;> try split
                   all_goals simp

/-- An entry that proceeds stays one that no command unwound. -/
theorem psProceed_unwound {ps : Nat} {s : State} (h : s.pwr.psUnwound = false) : (psProceed ps s).pwr.psUnwound = false := by
  have k : ∀ n (u : State), (psReached n u).pwr.psUnwound = false := by
    intro n u
    unfold psReached
    dsimp only
    split
    · rw [frame_finishDw _ _ _ _ _ (m := 0x18080) .refl rfl .pwr rfl]; rfl
    · rfl
  have kl : ∀ (l : List (Fin 4)) (u : State), (l.foldl (fun s c => l1CleanAll c s) u).pwr = u.pwr := by
    intro l; induction l with
    | nil => intro u; rfl
    | cons a l ih => intro u; rw [List.foldl_cons, ih]; exact frame_l1CleanAll a u (m := 0x18600031A0) .refl rfl .pwr rfl
  unfold psProceed
  dsimp only
  repeat' split
  all_goals first
    | exact h
    | exact k _ _
    | (unfold beginEntry
       dsimp only
       split
       · simp only [State.modHce, State.modPwr, kl]; exact h
       · exact h)

theorem completes_psEntryRestart :
    ∀ (tag ps : Nat) (c : Cmd) (s : State), s.pwr.psHeld = some (tag, ps) → s.pwr.psUnwound = true → cmdAt tag s = some c →
    ctrlIdle c.ctrl (some tag) s = true → (hdrOf .wck 0 s).freeze = false →
    ∃ t, exec .psEntryRestart s = .next t ∧ t.us = s.us + 10000 ∧ t.pwr.psUnwound = false := by
  intro tag ps c s h1 h2 h3 h4 h5
  refine ⟨_, rfl, ?_⟩
  simp only [h1, h2, h3, h4, h5, Bool.not_false, Bool.and_self, if_true]
  refine ⟨?_, psProceed_unwound rfl⟩
  rw [frame_psProceed _ _ (m := 0x186001B9A0) .refl rfl .us rfl]
  exact elapse_us _ _

theorem completes_shutdownDimEntry :
    ∀ s : State, s.thm.shutSeq = true → s.sys.coreUp = true → anyLoaded s = false → s.rvr.commit = false →
    s.pwr.state = .lit →
    ∃ t, exec .shutdownDimEntry s = .next t ∧ t.pwr.state = .dim := by
  intro s h1 h2 h3 h4 h5
  refine ⟨_, rfl, ?_⟩
  simp only [h1, h2, h3, h4, Bool.not_false, Bool.and_self, if_true]
  rw [if_pos (by simp [State.modThm, h5])]
  simp only [enterDim]
  have k := fun u => KeepPwr_psEntered 3 _ (KeepPwr_ev .wck 0x0E31 1 0 0 u (o := u) .refl)
  exact (k _).1.trans rfl

/-- A GO that finds no answer outstanding and the engine running is answered at once (R84). -/
theorem leaveGo_free {p : Fin 16} {a b : Nat} {s : State} (h : s.llt.ports[p].await = none) (k : lltHeld s = false) :
    leaveGo p a b s = submitWords p a b s := by
  unfold leaveGo
  rw [h, k]
  rfl

theorem completes_leaveRequestAwaits :
    ∀ (m : Master) (p : Fin 16) (v : Word) (s u : State), Reach .llt 0 s → v.toNat.testBit 31 = true →
    storeFields .lltReqb 0 p v.toNat s = u → s.llt.ports[p].await = none → lltHeld u = true →
    ∃ t, exec (.leaveRequest m p v) s = .next t ∧ t.llt.tickets = s.llt.tickets ∧
    t.llt.ports[p].await = some (reg .lltReqa 0 p u, reg .lltReqb 0 p u) := by
  intro m p v s u h h1 h2 h3 h4
  refine ⟨_, rfl, ?_⟩
  rw [access_reach h, useWindow_llt]
  unfold writeReqb
  dsimp only
  rw [if_pos h1, h2]
  have e : u.llt = s.llt := by rw [← h2]; exact llt_storeFields _ _ _ _ _
  unfold leaveGo
  rw [if_neg (by rw [e, h3]; exact Bool.false_ne_true), if_pos h4]
  refine ⟨(show (State.modPort p _ u).llt.tickets = u.llt.tickets from rfl).trans (congrArg Llt.tickets e), ?_⟩
  simp [State.modPort]

theorem completes_leaveRequestIgnored :
    ∀ (m : Master) (p : Fin 16) (v : Word) (s : State), Reach .llt 0 s → v.toNat.testBit 31 = true → EventRoom s →
    s.llt.ports[p].await.isSome = true →
    ∃ t, exec (.leaveRequest m p v) s = .next t ∧ t.llt = s.llt ∧ Recorded 0x0E47 t := by
  intro m p v s h h1 h2 h3
  refine ⟨_, rfl, ?_⟩
  rw [access_reach h]
  unfold writeReqb
  dsimp only
  rw [if_pos h1]
  have e : (storeFields .lltReqb 0 p v.toNat s).llt = s.llt := llt_storeFields _ _ _ _ _
  unfold leaveGo
  rw [e, if_pos h3, useWindow_llt]
  refine ⟨(frame_blockError _ _ _ _ _ (m := 0x1800000100) .refl rfl .llt rfl).trans e, ?_⟩
  refine (recorded_congr (useWindow_evr _ _ _)).mpr (recorded_blockError ?_)
  obtain ⟨w, hw⟩ := storeFields_plain (r := .lltReqb) (n := 0) (k := p) (v := v.toNat) (s := s) (by decide)
  rw [hw]
  exact Nat.lt_of_lt_of_le h2 (by decide)

theorem completes_leaveRequestDenied :
    ∀ (m : Master) (p : Fin 16) (v : Word) (s : State), Reach .llt 0 s → v.toNat.testBit 31 = true →
    classOpen (fld .lltReqa 0 p 31 28 (storeFields .lltReqb 0 p v.toNat s)) (storeFields .lltReqb 0 p v.toNat s) = false →
    s.llt.ports[p].await = none → lltHeld (storeFields .lltReqb 0 p v.toNat s) = false →
    ∃ t, exec (.leaveRequest m p v) s = .next t ∧ t.llt.ports[p].state = 3 ∧ t.llt.ports[p].reason = 2 ∧
    (360 + p.val) ∈ t.irq.pending ∧ t.llt.tickets = s.llt.tickets := by
  intro m p v s h h1 h2 h3 h4
  have e : exec (.leaveRequest m p v) s = .next (useWindow .llt 0 (writeReqb p v.toNat s)) := by
    show Host.Outcome.next (access .llt 0 _ _ s) = _
    rw [access_reach h]
  refine ⟨_, e, ?_⟩
  have hl := llt_storeFields .lltReqb 0 p v.toNat s
  unfold writeReqb
  dsimp only
  rw [if_pos h1, useWindow_llt, useWindow_irq]
  generalize storeFields .lltReqb 0 p v.toNat s = u at *
  rw [leaveGo_free (by rw [hl]; exact h3) h4]
  unfold submitWords
  unfold fld at h2
  simp only [submitLeave, h2, Bool.not_false, if_true]
  have k := denyPort_port p (bits (reg .lltReqa 0 p u) 31 28) 2 u
  refine ⟨k.1, k.2.1, k.2.2.1, ?_⟩
  exact k.2.2.2.trans (congrArg Llt.tickets hl)

theorem completes_leaveRequest :
    ∀ (m : Master) (p : Fin 16) (v : Word) (s u : State) (cls mw prio dur k : Nat), Reach .llt 0 s → v.toNat.testBit 31 = true →
    storeFields .lltReqb 0 p v.toNat s = u → cls = fld .lltReqa 0 p 31 28 u → classOpen cls u = true →
    s.llt.orphans = [] → s.llt.ports[p].await = none → lltHeld u = false →
    mw = (if fld .lltReqa 0 p 23 0 u = 0 then (leaveClass cls).1 else fld .lltReqa 0 p 23 0 u) →
    dur = (if fld .lltReqb 0 p 15 0 u = 0 then (leaveClass cls).2.1 else fld .lltReqb 0 p 15 0 u) →
    mw ≤ 2 * (leaveClass cls).1 → dur ≤ (leaveClass cls).2.1 → mw + lltRsv u ≤ lltBoard u →
    (queuedTickets u).length < 64 → lowestFree 128 (s.llt.tickets.map (·.num)) = some k →
    ∃ t, exec (.leaveRequest m p v) s = .next t ∧
    ∃ x ∈ t.llt.tickets, x.num = k ∧ x.cls = cls ∧ x.mw = mw ∧ x.port = p.val := by
  intro m p v s u cls mw prio dur k h h1 h2 h3 h4 h5 ha hb h6 h7 h8 h9 h10 h11 h12
  refine ⟨_, rfl, ?_⟩
  rw [access_reach h, useWindow_llt]
  unfold writeReqb
  dsimp only
  rw [if_pos h1, h2]
  have e : u.llt = s.llt := by rw [← h2]; exact llt_storeFields _ _ _ _ _
  subst h3 h6 h7
  rw [leaveGo_free (by rw [e]; exact ha) hb]
  exact (hasTicket_submit h4 (by rw [e]; exact h5) h8 h9 h10 h11 (by rw [e]; exact h12)).2

theorem completes_leaveRelease :
    ∀ (m : Master) (p : Fin 16) (v : Word) (s : State) (x : Ticket), Reach .llt 0 s → s.llt.orphans = [] →
    ticketAt (bits v.toNat 6 0) s = some x → x.gen = bits v.toNat 15 8 →
    ∃ t, exec (.leaveRelease m p v) s = .next t ∧ ∀ y ∈ t.llt.tickets, y.num ≠ bits v.toNat 6 0 := by
  intro m p v s x h h1 h2 h3
  have e : exec (.leaveRelease m p v) s = .next (useWindow .llt 0 (writeOp p (v.toNat &&& 0xFFFFFF7F) s)) := by
    show Host.Outcome.next (access .llt 0 _ _ s) = _
    rw [access_reach h]
  refine ⟨_, e, ?_⟩
  have c0 : bits (v.toNat &&& 0xFFFFFF7F) 6 0 = bits v.toNat 6 0 := by
    have : ∀ x : BitVec 32, bits (x.toNat &&& 0xFFFFFF7F) 6 0 = bits x.toNat 6 0 := by
      intro x; unfold bits
      apply Nat.eq_of_testBit_eq; intro i
      simp only [Nat.testBit_mod_two_pow, Nat.testBit_shiftRight, Nat.testBit_and]
      by_cases hi : i < 7
      · interval_cases i <;> simp [Nat.testBit, show (0xFFFFFF7F : Nat) = 4294967167 from rfl]
      · simp [hi]
    exact this v
  have c1 : bits (v.toNat &&& 0xFFFFFF7F) 15 8 = bits v.toNat 15 8 := by
    unfold bits
    apply Nat.eq_of_testBit_eq; intro i
    simp only [Nat.testBit_mod_two_pow, Nat.testBit_shiftRight, Nat.testBit_and]
    by_cases hi : i < 8
    · interval_cases i <;> simp [show Nat.testBit 0xFFFFFF7F 8 = true from by decide, show Nat.testBit 0xFFFFFF7F 9 = true from by decide, show Nat.testBit 0xFFFFFF7F 10 = true from by decide, show Nat.testBit 0xFFFFFF7F 11 = true from by decide, show Nat.testBit 0xFFFFFF7F 12 = true from by decide, show Nat.testBit 0xFFFFFF7F 13 = true from by decide, show Nat.testBit 0xFFFFFF7F 14 = true from by decide, show Nat.testBit 0xFFFFFF7F 15 = true from by decide]
    · simp [hi]
  have c2 : (v.toNat &&& 0xFFFFFF7F).testBit 7 = false := by
    rw [Nat.testBit_and, show Nat.testBit 0xFFFFFF7F 7 = false from by decide, Bool.and_false]
  simp only [writeOp, c0, c1, c2, Bool.false_eq_true, if_false, releaseTicket, h2, h3, if_true, useWindow_llt]
  refine walkQueue_gone ?_ ?_
  · simpa [opStatus, State.modPort, freeTicket, State.modLlt] using h1
  · intro y hy; exact freeTicket_gone (bits v.toNat 6 0) s y (by simpa [opStatus, State.modPort] using hy)

theorem completes_leaveRenew :
    ∀ (m : Master) (p : Fin 16) (v : Word) (s : State) (x : Ticket), Reach .llt 0 s →
    ticketAt (bits v.toNat 6 0) s = some x → x.gen = bits v.toNat 15 8 → x.state = .granted →
    bits v.toNat 31 16 ≤ (leaveClass x.cls).2.1 → lltGranted s + lltRsv s ≤ lltAvail s → s.llt.leaseValid = false →
    ∃ t, exec (.leaveRenew m p v) s = .next t ∧ t.llt.ports[p].opst = 0 ∧
    ∃ y ∈ t.llt.tickets, y.num = x.num ∧
    y.at_ = now s + (if bits v.toNat 31 16 = 0 then (leaveClass x.cls).2.1 else bits v.toNat 31 16) := by
  intro m p v s x h h1 h2 h3 h4 h5 h6
  refine ⟨_, rfl, ?_⟩
  rw [access_reach h, useWindow_llt]
  have b7 : (v.toNat ||| 0x80).testBit 7 = true := by rw [Nat.testBit_or, (by decide : Nat.testBit 0x80 7 = true), Bool.or_true]
  have b6 : bits (v.toNat ||| 0x80) 6 0 = bits v.toNat 6 0 := bits_or80 (by omega)
  have b15 : bits (v.toNat ||| 0x80) 15 8 = bits v.toNat 15 8 := bits_or80 (by omega)
  have b31 : bits (v.toNat ||| 0x80) 31 16 = bits v.toNat 31 16 := bits_or80 (by omega)
  unfold writeOp
  rw [if_pos b7, b6, b15, b31]
  unfold renewTicket
  rw [h1]
  dsimp only
  have hd : (if bits v.toNat 31 16 = 0 then (leaveClass x.cls).2.1 else bits v.toNat 31 16) ≤ (leaveClass x.cls).2.1 := by
    split <;> omega
  generalize (if bits v.toNat 31 16 = 0 then (leaveClass x.cls).2.1 else bits v.toNat 31 16) = d at *
  rw [if_neg (by rw [h2]; simp), if_pos (by rw [h3]; simp [hd, h5])]
  have hx := List.mem_of_find?_eq_some h1
  have hn : x.num = bits v.toNat 6 0 := by simpa using List.find?_some h1
  have hc : cappedEnd (now s + d) s = now s + d := by unfold cappedEnd; rw [h6]; rfl
  rw [hc]
  generalize bits v.toNat 6 0 = n at *
  generalize bits v.toNat 15 8 = g at *
  refine ⟨by simp [opStatus, State.modPort, State.modLlt], { x with dur := d, reqEnd := now s + d, at_ := now s + d }, ?_, rfl, rfl⟩
  have : (opStatus p 0 (State.modPort (finPort x.port) (fun y => if y.ticket = n ∧ y.gen = g ∧ y.state = 2 then { y with respX := cappedEnd (now s + d) (modTicket n (fun t => { t with dur := d, reqEnd := now s + d, at_ := now s + d }) s) } else y)
      (modTicket n (fun t => { t with dur := d, reqEnd := now s + d, at_ := now s + d }) s))).llt.tickets =
      mapIf (fun t => t.num == n) (fun t => { t with dur := d, reqEnd := now s + d, at_ := now s + d }) s.llt.tickets := rfl
  rw [this]
  refine List.mem_map.mpr ⟨x, hx, ?_⟩
  rw [if_pos (by simpa using hn)]

theorem completes_leaveExpiry :
    ∀ (k : Fin 128) (x : Ticket) (s : State), ticketAt k s = some x → x.state = .granted → s.llt.orphans = [] → lltHeld s = false →
    ∃ t, exec (.leaveExpiry k) s = .next t ∧ t.us = max s.us (x.at_ * 1000) ∧ ∀ y ∈ t.llt.tickets, y.num ≠ k.val := by
  intro k x s h1 h2 h3 hh
  refine ⟨_, rfl, ?_⟩
  simp only [h1, h2, hh, beq_self_eq_true, Bool.not_false, Bool.and_self, if_true]
  have hu := advanceTo_us (x.at_ * 1000) s
  have hl : (advanceTo (x.at_ * 1000) s).llt = s.llt := frame_advanceTo _ s (m := 0x7800000B12) .refl rfl .llt rfl
  generalize advanceTo _ s = u at *
  have hn : x.num = k.val := by simpa using List.find?_some h1
  refine ⟨?_, walkQueue_gone ?_ ?_⟩
  · rw [← hu]
    exact frame_walkQueue _ (m := 0x6000) (o := _) .refl rfl .us rfl |>.trans (frame_endGrant x _ u (m := 0x1800006100) .refl rfl .us rfl)
  · unfold endGrant; dsimp only
    rw [boostEnds_llt]
    show (portLine _ (if _ then countClass _ _ (ev _ _ _ _ _ _) else _)).llt.orphans = []
    split <;> simp [portLine, countClass_orphans, freeTicket, State.modLlt, hl, h3]
  · unfold endGrant; dsimp only
    rw [boostEnds_llt]
    have := freeTicket_gone x.num u
    rw [hn] at this
    split <;> simpa [portLine, countClass_tickets, freeTicket, State.modLlt, hn] using this

theorem completes_drawAfterExpiry :
    ∀ (k : Fin 128) (s : State), k.val ∈ s.llt.expired →
    ∃ t, exec (.drawAfterExpiry k) s = .next t ∧ t.us = s.us + 1000 ∧ k.val ∉ t.llt.expired := by
  intro k s h1
  refine ⟨_, rfl, ?_⟩
  rw [if_pos (by simpa using h1)]
  rw [ev_us, elapse_us, ev_llt]
  have hl := fun u : State => (frame_elapse 1000 u (m := 0x7800000B12) .refl rfl .llt rfl : (elapse 1000 u).llt = u.llt)
  rw [hl]
  refine ⟨rfl, ?_⟩
  simp [State.modLlt, removeNat]

theorem completes_leaveDeadline :
    ∀ (k : Fin 128) (x : Ticket) (s : State), ticketAt k s = some x → x.state = .queued → x.at_ ≠ 0 → s.llt.orphans = [] → lltHeld s = false →
    ∃ t, exec (.leaveDeadline k) s = .next t ∧ t.us = max s.us (x.at_ * 1000) ∧ ∀ y ∈ t.llt.tickets, y.num ≠ k.val := by
  intro k x s h1 h2 h3 h4 hh
  refine ⟨_, rfl, ?_⟩
  have e : (x.state == .queued && x.at_ != 0 && !(lltHeld s)) = true := by simp [h2, h3, hh]
  simp only [h1, e, if_true]
  have hu := advanceTo_us (x.at_ * 1000) s
  generalize x.at_ * 1000 = w at *
  generalize advanceTo w s = u at *
  generalize hv : (freeTicket k u).modLlt (fun l => { l with orphans := l.orphans.filter (· != (k.val, x.gen)) }) = v
  have v1 : NoTicket k v := by
    rw [← hv]
    intro y hy
    simpa using (List.mem_filter.mp hy).2
  have v2 : v.us = u.us := by rw [← hv]; rfl
  generalize ha : countClass x.cls 2 (ev .llt 0x0E43 k 0 0 v) = a
  have a1 : NoTicket k a := by
    rw [← ha]
    exact noTicket_congr ((tickets_countClass _ _ _).1.trans (congrArg Llt.tickets (ev_llt _ _ _ _ _ _))) v1
  have a2 : a.us = u.us := by rw [← ha, ← v2]; exact ev_us _ _ _ _ _ _
  generalize hb : a.modPort (finPort x.port) _ = b
  have b1 : NoTicket k b := by rw [← hb]; exact noTicket_congr (tickets_modPort _ _ _).1 a1
  have b2 : b.us = u.us := by rw [← a2, ← hb]; rfl
  have c : ∀ c : State, c.llt = b.llt → c.us = b.us → (walkQueue (leaveLost x.port (portLine x.port c))).us = max s.us w ∧
      ∀ y ∈ (walkQueue (leaveLost x.port (portLine x.port c))).llt.tickets, y.num ≠ k.val := by
    intro c c1 c2
    have l1 : ∀ p (z : State), (leaveLost p z).llt = z.llt ∧ (leaveLost p z).us = z.us := by
      intro p z; unfold leaveLost; split <;> exact ⟨rfl, rfl⟩
    refine ⟨?_, ?_⟩
    · rw [frame_walkQueue _ (m := 0x6000) .refl rfl .us rfl, (l1 _ _).2, ← hu, ← b2, ← c2]; rfl
    · exact noTicket_walkQueue (noTicket_congr (s := b) (by rw [(l1 _ _).1, llt_portLine, c1]) b1)
  split
  · exact c _ (guarantee_llt _ _ _ _ _ _ _) (guarantee_us _ _ _ _ _ _ _)
  · exact c _ rfl rfl

theorem completes_thermalCeilingLower :
    ∀ s : State, lltHeld s = false → s.thm.throt = true →
    ∃ t, exec .thermalCeilingStep s = .next t ∧ t.us = s.us + 10000 ∧ t.llt.episode = true ∧ t.llt.therm ≤ s.llt.therm := by
  intro s hh h1
  refine ⟨_, rfl, ?_⟩
  simp only [hh, h1, if_true, Bool.false_eq_true, if_false]
  have hu := elapse_us 10000 s
  have hl : (elapse 10000 s).llt = s.llt := frame_elapse _ s (m := 0x7800000B12) .refl rfl .llt rfl
  generalize elapse 10000 s = u at *
  have k := walkQueue_therm (thermLower u)
  have w : (walkQueue (thermLower u)).us = (thermLower u).us := frame_walkQueue _ (m := 0x6000) (o := _) .refl rfl .us rfl
  have w2 : (thermLower u).us = u.us := frame_thermLower u (m := 0x1800004100) .refl rfl .us rfl
  rw [w, w2, hu, k.1, k.2]
  refine ⟨rfl, ?_⟩
  unfold thermLower; dsimp only
  split <;> simp [State.modLlt, hl]

theorem completes_thermalCeilingRaise :
    ∀ s u : State, lltHeld s = false → s.thm.throt = false → s.llt.episode = true → u = elapse 100000 s →
    s.llt.therm + thermStep u < lltBoard u →
    ∃ t, exec .thermalCeilingStep s = .next t ∧ t.us = s.us + 100000 ∧ t.llt.therm = s.llt.therm + thermStep u := by
  intro s u hh h1 h2 h4 h3
  refine ⟨_, rfl, ?_⟩
  simp only [hh, h1, h2, if_true, Bool.false_eq_true, if_false]
  rw [← h4]
  have hu : u.us = s.us + 100000 := h4 ▸ elapse_us 100000 s
  have hl : u.llt = s.llt := h4 ▸ frame_elapse _ s (m := 0x7800000B12) .refl rfl .llt rfl
  have k := walkQueue_therm (thermRaise u)
  have w : (walkQueue (thermRaise u)).us = (thermRaise u).us := frame_walkQueue _ (m := 0x6000) (o := _) .refl rfl .us rfl
  have w2 : (thermRaise u).us = u.us := frame_thermRaise _ (m := 0x1800004100) .refl rfl .us rfl
  rw [w, w2, hu, k.1]
  refine ⟨rfl, ?_⟩
  have e : ¬ (lltBoard u ≤ u.llt.therm + thermStep u) := by rw [hl]; omega
  simp only [thermRaise, hl, h2, if_true]
  rw [hl] at e
  rw [if_neg e]
  simp [State.modLlt]

end Sys2Proof.Machine
end

