-- ==== Sys2Proof/Laws/Gates.lean ====
section
/-!
SUPPORT. No operation drives both gates of a phase.
-/

set_option linter.all false

set_option Elab.async false

namespace Sys2Proof.Machine

theorem safe_low {v : Spn} (h : v.gates = 0) : v.safe := by intro p; rw [h]; simp

theorem safe_short {v : Spn} {s : State} (h : v.gates = shortGates s) : v.safe := by
  intro p
  have k : shortGates s &&& 0b010101 = 0 := by
    unfold shortGates
    split
    · next q _ =>
      apply Nat.eq_of_testBit_eq
      intro i
      simp only [Nat.testBit_and, Nat.zero_testBit]
      by_cases hi : i < 6
      · have := (by decide : ∀ i : Fin 6, Nat.testBit 0b101010 i.val = true → Nat.testBit 0b010101 i.val = false) ⟨i, hi⟩
        revert this
        cases Nat.testBit 0b101010 i <;> simp
        exact fun a _ => a
      · rw [Nat.testBit_lt_two_pow (show 0b010101 < 2 ^ i from Nat.lt_of_lt_of_le (by decide : 0b010101 < 2 ^ 6) (Nat.pow_le_pow_right (by decide) (by omega)))]
        simp
    · rfl
  have e := congrArg (fun x => x.testBit (2 * p.val)) k
  have b : Nat.testBit 0b010101 (2 * p.val) = true := (by decide : ∀ p : Fin 3, Nat.testBit 0b010101 (2 * p.val) = true) p
  simp only [Nat.testBit_and, b, Bool.and_true, Nat.zero_testBit] at e
  rw [h, e, Bool.false_and]

theorem safe_same {v w : Spn} (e : w.gates = v.gates) (h : v.safe) : w.safe := by unfold Spn.safe; rw [e]; exact h

theorem noShoot_safe (g : Nat) (p : Fin 3) : ((noShoot g).testBit (2 * p.val) && (noShoot g).testBit (2 * p.val + 1)) = false := by
  have k : ∀ x : Fin 64, ∀ p : Fin 3,
      (((x.val &&& 0b101010) ||| (x.val &&& (0b010101 - ((x.val &&& 0b101010) >>> 1)))).testBit (2 * p.val) &&
        ((x.val &&& 0b101010) ||| (x.val &&& (0b010101 - ((x.val &&& 0b101010) >>> 1)))).testBit (2 * p.val + 1)) = false := by
    decide
  exact k ⟨g % 64, Nat.mod_lt _ (by decide)⟩ p

theorem stepGates_safe (k : Nat) (s : State) (p : Fin 3) :
    ((stepGates k s).testBit (2 * p.val) && (stepGates k s).testBit (2 * p.val + 1)) = false := by
  unfold stepGates
  dsimp only
  split
  · next h =>
    obtain ⟨h1, h2, h3⟩ := h
    generalize commHi k s = a at *
    generalize commLo k s = b at *
    have key : ∀ a b p : Fin 3, a ≠ b → (((1 <<< (2 * a.val) ||| 1 <<< (2 * b.val + 1) : Nat).testBit (2 * p.val) &&
        (1 <<< (2 * a.val) ||| 1 <<< (2 * b.val + 1) : Nat).testBit (2 * p.val + 1)) = false) := by decide
    exact key ⟨a, h1⟩ ⟨b, h2⟩ p (fun h => h3 (congrArg Fin.val h))
  · exact noShoot_safe _ p

/-- The mask does not hold the part. -/
@[reducible] def noGatesSafe (m : Nat) : Bool := Nat.beq (Nat.land m 0x2000000) 0

theorem GatesSafe.via {m : Nat} {s t : State} (k : FrameB m s t) (e : noGatesSafe m = true) (h : GatesSafe s) : GatesSafe t := by
  have h1 : t.spn = s.spn := by
    refine k .spn ?_
    have h : m &&& 0x2000000 = 0 := Nat.eq_of_beq_eq_true e
    have h' := congrArg (fun x => x.testBit 25) h
    have h2 : Nat.testBit 0x2000000 25 = true := by decide
    rw [Nat.testBit_and, h2, Nat.zero_testBit, Bool.and_true] at h'
    exact h'
  unfold GatesSafe

  rw [h1]
  exact h

theorem GatesSafe.of_eq {s t : State} (h : t = s) (k : GatesSafe t) : GatesSafe s := h ▸ k

theorem GatesSafe.ite {t u : State} {c : Prop} {d : Decidable c} (h : GatesSafe t) (k : GatesSafe u) :
    GatesSafe (if c then t else u) := by split <;> assumption

theorem GatesSafe.foldl {α : Type} {f : State → α → State} (k : ∀ u x, GatesSafe u → GatesSafe (f u x)) {xs : List α}
    {s : State} (h : GatesSafe s) : GatesSafe (xs.foldl f s) := by
  induction xs generalizing s with
  | nil => exact h
  | cons x xs ih => exact ih (k _ _ h)

theorem GatesSafe.next {s t : State} (h : GatesSafe t) : GatesSafe (after s (.next t)) := h

theorem GatesSafe.set_spn {s : State} {v : Spn} (h : GatesSafe s) (e : Spn.safe s.spn → Spn.safe v) : GatesSafe { s with spn := v } :=
  e h

theorem GatesSafe.set_hce {s : State} {v0} (h : GatesSafe s) : GatesSafe { s with hce := v0 } := h

theorem GatesSafe.set_lgr {s : State} {v0} (h : GatesSafe s) : GatesSafe { s with lgr := v0 } := h

theorem GatesSafe.set_rvr {s : State} {v0} (h : GatesSafe s) : GatesSafe { s with rvr := v0 } := h

theorem GatesSafe.set_cst {s : State} {v0} (h : GatesSafe s) : GatesSafe { s with cst := v0 } := h

theorem GatesSafe.set_sve {s : State} {v0} (h : GatesSafe s) : GatesSafe { s with sve := v0 } := h

theorem GatesSafe.set_psi {s : State} {v0} (h : GatesSafe s) : GatesSafe { s with psi := v0 } := h

theorem GatesSafe.set_lsr {s : State} {v0} (h : GatesSafe s) : GatesSafe { s with lsr := v0 } := h

theorem GatesSafe.set_dmc {s : State} {v0} (h : GatesSafe s) : GatesSafe { s with dmc := v0 } := h

theorem GatesSafe.set_bcc {s : State} {v0} (h : GatesSafe s) : GatesSafe { s with bcc := v0 } := h

theorem GatesSafe.set_trm {s : State} {v0} (h : GatesSafe s) : GatesSafe { s with trm := v0 } := h

theorem GatesSafe.set_lif {s : State} {v0} (h : GatesSafe s) : GatesSafe { s with lif := v0 } := h

theorem GatesSafe.set_cal {s : State} {v0} (h : GatesSafe s) : GatesSafe { s with cal := v0 } := h

theorem GatesSafe.set_opt {s : State} {v0} (h : GatesSafe s) : GatesSafe { s with opt := v0 } := h

theorem GatesSafe.set_busErr {s : State} {v0} (h : GatesSafe s) : GatesSafe { s with busErr := v0 } := h

theorem GatesSafe.set_busData {s : State} {v0} (h : GatesSafe s) : GatesSafe { s with busData := v0 } := h

theorem GatesSafe.set_many14 {s : State} {v0 v1 v2 v3 v4 v5 v6 v7 v8 v9 v10 v11 v12 v13} (h : GatesSafe s) : GatesSafe { s with us := v0, regs := v1, mem := v2, hdr := v3, sys := v4, clk := v5, pwr := v6, llt := v7, sec := v8, thm := v9, sup := v10, evr := v11, lif := v12, cal := v13 } := h

theorem GatesSafe.set_clk_cal {s : State} {v0 v1} (h : GatesSafe s) : GatesSafe { s with clk := v0, cal := v1 } := h

theorem GatesSafe.set_us_sys {s : State} {v0 v1} (h : GatesSafe s) : GatesSafe { s with us := v0, sys := v1 } := h

theorem GatesSafe.set_us {s : State} {v0} (h : GatesSafe s) : GatesSafe { s with us := v0 } := h

theorem GatesSafe.set_regs {s : State} {v0} (h : GatesSafe s) : GatesSafe { s with regs := v0 } := h

theorem GatesSafe.set_mem {s : State} {v0} (h : GatesSafe s) : GatesSafe { s with mem := v0 } := h

theorem GatesSafe.set_hdr {s : State} {v0} (h : GatesSafe s) : GatesSafe { s with hdr := v0 } := h

theorem GatesSafe.set_sys {s : State} {v0} (h : GatesSafe s) : GatesSafe { s with sys := v0 } := h

theorem GatesSafe.set_clk {s : State} {v0} (h : GatesSafe s) : GatesSafe { s with clk := v0 } := h

theorem GatesSafe.set_pwr {s : State} {v0} (h : GatesSafe s) : GatesSafe { s with pwr := v0 } := h

theorem GatesSafe.set_llt {s : State} {v0} (h : GatesSafe s) : GatesSafe { s with llt := v0 } := h

theorem GatesSafe.set_sec {s : State} {v0} (h : GatesSafe s) : GatesSafe { s with sec := v0 } := h

theorem GatesSafe.set_thm {s : State} {v0} (h : GatesSafe s) : GatesSafe { s with thm := v0 } := h

theorem GatesSafe.set_sup {s : State} {v0} (h : GatesSafe s) : GatesSafe { s with sup := v0 } := h

theorem GatesSafe.set_evr {s : State} {v0} (h : GatesSafe s) : GatesSafe { s with evr := v0 } := h

theorem gates_blockError x0 x1 x2 x3 s (h : GatesSafe s) : GatesSafe (blockError x0 x1 x2 x3 s) :=
  .via (frame_blockError _ _ _ _ _ (m := 0x1800000100) .refl rfl) rfl h

theorem gates_busFails s (h : GatesSafe s) : GatesSafe (busFails s) :=
  .via (frame_busFails _ (m := 0xC) .refl rfl) rfl h

theorem gates_busZero s (h : GatesSafe s) : GatesSafe (busZero s) :=
  .via (frame_busZero _ (m := 0xC) .refl rfl) rfl h

theorem gates_domMem x0 x1 x2 x3 x4 x5 s (h : GatesSafe s) : GatesSafe (domMem x0 x1 x2 x3 x4 x5 s) :=
  .via (frame_domMem _ _ _ _ _ _ _ (m := 0x18600031AC) .refl rfl) rfl h

theorem gates_ev x0 x1 x2 x3 x4 s (h : GatesSafe s) : GatesSafe (ev x0 x1 x2 x3 x4 s) :=
  .via (frame_ev _ _ _ _ _ _ (m := 0x1800000100) .refl rfl) rfl h

theorem gates_busGives x0 s (h : GatesSafe s) : GatesSafe (busGives x0 s) :=
  .via (frame_busGives _ _ (m := 0xC) .refl rfl) rfl h

theorem gates_guardWrite x0 x1 x2 s (h : GatesSafe s) : GatesSafe (guardWrite x0 x1 x2 s) :=
  .via (frame_guardWrite _ _ _ _ (m := 0x1800000100) .refl rfl) rfl h

theorem gates_State_modHdr x0 x1 s (h : GatesSafe s) : GatesSafe (State.modHdr x0 x1 s) :=
  .via (frame_State_modHdr _ _ _ (m := 0x100) .refl rfl) rfl h

theorem gates_bccClearEn s (h : GatesSafe s) : GatesSafe (bccClearEn s) :=
  .via (frame_bccClearEn _ (m := 0x1840000100) .refl rfl) rfl h

theorem gates_bccSetEn s (h : GatesSafe s) : GatesSafe (bccSetEn s) :=
  .via (frame_bccSetEn _ (m := 0x1840000100) .refl rfl) rfl h

theorem gates_freezeWrite x0 x1 x2 s (h : GatesSafe s) : GatesSafe (freezeWrite x0 x1 x2 s) :=
  .via (frame_freezeWrite _ _ _ _ (m := 0x1800006100) .refl rfl) rfl h

theorem gates_State_modCtrl x0 x1 s (h : GatesSafe s) : GatesSafe (State.modCtrl x0 x1 s) :=
  .via (frame_State_modCtrl _ _ _ (m := 0x8000) .refl rfl) rfl h

theorem gates_State_modSec x0 s (h : GatesSafe s) : GatesSafe (State.modSec x0 s) :=
  .via (frame_State_modSec _ _ (m := 0x80000000) .refl rfl) rfl h

theorem gates_State_modXmt x0 s (h : GatesSafe s) : GatesSafe (State.modXmt x0 s) :=
  .via (frame_State_modXmt _ _ (m := 0x20000) .refl rfl) rfl h

theorem gates_commitGrantEnd s (h : GatesSafe s) : GatesSafe (commitGrantEnd s) :=
  .via (frame_commitGrantEnd _ (m := 0x4000) .refl rfl) rfl h

theorem gates_dropLinks s (h : GatesSafe s) : GatesSafe (dropLinks s) :=
  .via (frame_dropLinks _ (m := 0x4000000000) .refl rfl) rfl h

theorem gates_lasersOff s (h : GatesSafe s) : GatesSafe (lasersOff s) :=
  .via (frame_lasersOff _ (m := 0xC200000) .refl rfl) rfl h

theorem gates_powerLit s (h : GatesSafe s) : GatesSafe (powerLit s) :=
  .via (frame_powerLit _ (m := 0x1800006900) .refl rfl) rfl h

theorem gates_resetRegs x0 x1 s (h : GatesSafe s) : GatesSafe (resetRegs x0 x1 s) :=
  .via (frame_resetRegs _ _ _ (m := 0x10) .refl rfl) rfl h

theorem gates_resetXmt s (h : GatesSafe s) : GatesSafe (resetXmt s) :=
  .via (frame_resetXmt _ (m := 0x10) .refl rfl) rfl h

theorem gates_srstAsq x0 s (h : GatesSafe s) : GatesSafe (srstAsq x0 s) :=
  .via (frame_srstAsq _ _ (m := 0x1A6DB2F1A0) .refl rfl) rfl h

theorem gates_srstEvr s (h : GatesSafe s) : GatesSafe (srstEvr s) :=
  .via (frame_srstEvr _ (m := 0x800000010) .refl rfl) rfl h

theorem gates_srstLdp s (h : GatesSafe s) : GatesSafe (srstLdp s) :=
  .via (frame_srstLdp _ (m := 0x400000) .refl rfl) rfl h

theorem gates_srstLlt s (h : GatesSafe s) : GatesSafe (srstLlt s) :=
  .via (frame_srstLlt _ (m := 0x1A0C306190) .refl rfl) rfl h

theorem gates_srstOpt s (h : GatesSafe s) : GatesSafe (srstOpt s) :=
  .via (frame_srstOpt _ (m := 0x7A1DB2AB92) .refl rfl) rfl h

theorem gates_srstRwc x0 s (h : GatesSafe s) : GatesSafe (srstRwc x0 s) :=
  .via (frame_srstRwc _ _ (m := 0x1A0CB22190) .refl rfl) rfl h

theorem gates_srstSpin s (h : GatesSafe s) : GatesSafe (srstSpin s) := by
  unfold srstSpin
  repeat' first | (with_reducible first | assumption | intro _ | refine GatesSafe.ite ?_ ?_) | ((with_reducible refine (?_ : Spn.safe _)); first | exact safe_same rfl (by assumption) | exact safe_low rfl | exact safe_short rfl | exact stepGates_safe _ _) | fail_if_no_progress (with_reducible refine GatesSafe.set_spn ?_ ?_) | decide | split | unfold id | dsimp only

theorem gates_srstSve x0 s (h : GatesSafe s) : GatesSafe (srstSve x0 s) :=
  .via (frame_srstSve _ _ (m := 0x7A1DB2AB92) .refl rfl) rfl h

theorem gates_srstVlk s (h : GatesSafe s) : GatesSafe (srstVlk s) :=
  .via (frame_srstVlk _ (m := 0x4000000010) .refl rfl) rfl h

theorem gates_tpeDiscard s (h : GatesSafe s) : GatesSafe (tpeDiscard s) :=
  .via (frame_tpeDiscard _ (m := 0x800000) .refl rfl) rfl h

theorem gates_trainLink x0 s (h : GatesSafe s) : GatesSafe (trainLink x0 s) :=
  .via (frame_trainLink _ _ (m := 0xA000) .refl rfl) rfl h

theorem gates_zeroKst s (h : GatesSafe s) : GatesSafe (zeroKst s) :=
  .via (frame_zeroKst _ (m := 0x80000000) .refl rfl) rfl h

theorem gates_srstBlock x0 x1 s (h : GatesSafe s) : GatesSafe (srstBlock x0 x1 s) := by
  unfold srstBlock
  try dsimp only
  split
  all_goals repeat' first | (with_reducible first | assumption | intro _ | refine gates_State_modCtrl _ _ _ ?_ | refine gates_State_modSec _ _ ?_ | refine gates_State_modXmt _ _ ?_ | refine gates_commitGrantEnd _ ?_ | refine gates_dropLinks _ ?_ | refine gates_lasersOff _ ?_ | refine gates_powerLit _ ?_ | refine gates_resetRegs _ _ _ ?_ | refine gates_resetXmt _ ?_ | refine gates_srstAsq _ _ ?_ | refine gates_srstEvr _ ?_ | refine gates_srstLdp _ ?_ | refine gates_srstLlt _ ?_ | refine gates_srstOpt _ ?_ | refine gates_srstRwc _ _ ?_ | refine gates_srstSpin _ ?_ | refine gates_srstSve _ _ ?_ | refine gates_srstVlk _ ?_ | refine gates_tpeDiscard _ ?_ | refine gates_trainLink _ _ ?_ | refine gates_zeroKst _ ?_ | refine GatesSafe.ite ?_ ?_) | ((with_reducible refine (?_ : Spn.safe _)); first | exact safe_same rfl (by assumption) | exact safe_low rfl | exact safe_short rfl | exact stepGates_safe _ _) | fail_if_no_progress (with_reducible refine GatesSafe.set_hce ?_) | fail_if_no_progress (with_reducible refine GatesSafe.set_lgr ?_) | fail_if_no_progress (with_reducible refine GatesSafe.set_rvr ?_) | fail_if_no_progress (with_reducible refine GatesSafe.set_cst ?_) | fail_if_no_progress (with_reducible refine GatesSafe.set_sve ?_) | fail_if_no_progress (with_reducible refine GatesSafe.set_psi ?_) | fail_if_no_progress (with_reducible refine GatesSafe.set_lsr ?_) | fail_if_no_progress (with_reducible refine GatesSafe.set_dmc ?_) | fail_if_no_progress (with_reducible refine GatesSafe.set_bcc ?_) | fail_if_no_progress (with_reducible refine GatesSafe.set_trm ?_) | fail_if_no_progress (with_reducible refine GatesSafe.set_lif ?_) | fail_if_no_progress (with_reducible refine GatesSafe.set_cal ?_) | decide | split | unfold id | dsimp only

theorem gates_softReset x0 x1 x2 s (h : GatesSafe s) : GatesSafe (softReset x0 x1 x2 s) := by
  unfold softReset
  repeat' first | (with_reducible first | assumption | intro _ | refine gates_State_modHdr _ _ _ ?_ | refine gates_blockError _ _ _ _ _ ?_ | refine gates_srstBlock _ _ _ ?_ | refine GatesSafe.ite ?_ ?_) | decide | split | unfold id | dsimp only

theorem gates_ctlWrite x0 x1 x2 x3 s (h : GatesSafe s) : GatesSafe (ctlWrite x0 x1 x2 x3 s) := by
  unfold ctlWrite
  repeat' first | (with_reducible first | assumption | intro _ | refine gates_State_modHdr _ _ _ ?_ | refine gates_bccClearEn _ ?_ | refine gates_bccSetEn _ ?_ | refine gates_freezeWrite _ _ _ _ ?_ | refine gates_softReset _ _ _ _ ?_ | refine GatesSafe.ite ?_ ?_) | decide | split | unfold id | dsimp only

theorem gates_errClear x0 x1 s (h : GatesSafe s) : GatesSafe (errClear x0 x1 s) :=
  .via (frame_errClear _ _ _ (m := 0x100) .refl rfl) rfl h

theorem gates_irqSet x0 x1 x2 s (h : GatesSafe s) : GatesSafe (irqSet x0 x1 x2 s) :=
  .via (frame_irqSet _ _ _ _ (m := 0x100) .refl rfl) rfl h

theorem gates_routeWrite x0 x1 x2 s (h : GatesSafe s) : GatesSafe (routeWrite x0 x1 x2 s) :=
  .via (frame_routeWrite _ _ _ _ (m := 0x1800000110) .refl rfl) rfl h

theorem gates_headerWrite x0 x1 x2 x3 x4 s (h : GatesSafe s) : GatesSafe (headerWrite x0 x1 x2 x3 x4 s) := by
  unfold headerWrite
  repeat' first | (with_reducible first | assumption | intro _ | refine gates_State_modHdr _ _ _ ?_ | refine gates_ctlWrite _ _ _ _ _ ?_ | refine gates_errClear _ _ _ ?_ | refine gates_irqSet _ _ _ _ ?_ | refine gates_routeWrite _ _ _ _ ?_ | refine GatesSafe.ite ?_ ?_) | decide | split | unfold id | dsimp only

theorem gates_readRegAt x0 x1 x2 s (h : GatesSafe s) : GatesSafe (readRegAt x0 x1 x2 s) :=
  .via (frame_readRegAt _ _ _ _ (m := 0x780100015C) .refl rfl) rfl h

theorem gates_useWindow x0 x1 s (h : GatesSafe s) : GatesSafe (useWindow x0 x1 s) :=
  .via (frame_useWindow _ _ _ (m := 0x100) .refl rfl) rfl h

theorem gates_evrCommit s (h : GatesSafe s) : GatesSafe (evrCommit s) :=
  .via (frame_evrCommit _ (m := 0x5800000180) .refl rfl) rfl h

theorem gates_evrStore s (h : GatesSafe s) : GatesSafe (evrStore s) :=
  .via (frame_evrStore _ (m := 0x1800000100) .refl rfl) rfl h

theorem gates_lifSeal s (h : GatesSafe s) : GatesSafe (lifSeal s) :=
  .via (frame_lifSeal _ (m := 0x1000000000) .refl rfl) rfl h

theorem gates_lifSnap s (h : GatesSafe s) : GatesSafe (lifSnap s) :=
  .via (frame_lifSnap _ (m := 0x1000000000) .refl rfl) rfl h

theorem gates_storeFields x0 x1 x2 x3 s (h : GatesSafe s) : GatesSafe (storeFields x0 x1 x2 x3 s) :=
  .via (frame_storeFields _ _ _ _ _ (m := 0x1800000110) .refl rfl) rfl h

theorem gates_swset x0 s (h : GatesSafe s) : GatesSafe (swset x0 s) :=
  .via (frame_swset _ _ (m := 0x2000) .refl rfl) rfl h

theorem gates_twinAccess x0 x1 x2 s (h : GatesSafe s) : GatesSafe (twinAccess x0 x1 x2 s) :=
  .via (frame_twinAccess _ _ _ _ (m := 0x1800000154) .refl rfl) rfl h

theorem gates_walkQueue s (h : GatesSafe s) : GatesSafe (walkQueue s) :=
  .via (frame_walkQueue _ (m := 0x6000) .refl rfl) rfl h

theorem gates_writeAddgo x0 s (h : GatesSafe s) : GatesSafe (writeAddgo x0 s) :=
  .via (frame_writeAddgo _ _ (m := 0x1800000100) .refl rfl) rfl h

theorem gates_writeBase x0 x1 s (h : GatesSafe s) : GatesSafe (writeBase x0 x1 s) :=
  .via (frame_writeBase _ _ _ (m := 0x1800000180) .refl rfl) rfl h

theorem gates_writeCalAdj x0 s (h : GatesSafe s) : GatesSafe (writeCalAdj x0 s) :=
  .via (frame_writeCalAdj _ _ (m := 0x3800000110) .refl rfl) rfl h

theorem gates_writeCalCmd x0 s (h : GatesSafe s) : GatesSafe (writeCalCmd x0 s) :=
  .via (frame_writeCalCmd _ _ (m := 0x3800000910) .refl rfl) rfl h

theorem gates_writeClkDom x0 x1 s (h : GatesSafe s) : GatesSafe (writeClkDom x0 x1 s) :=
  .via (frame_writeClkDom _ _ _ (m := 0x1800000110) .refl rfl) rfl h

theorem gates_writeCur x0 x1 s (h : GatesSafe s) : GatesSafe (writeCur x0 x1 s) :=
  .via (frame_writeCur _ _ _ (m := 0x800000000) .refl rfl) rfl h

theorem gates_writeOp x0 x1 s (h : GatesSafe s) : GatesSafe (writeOp x0 x1 s) :=
  .via (frame_writeOp _ _ _ (m := 0x6000) .refl rfl) rfl h

theorem gates_writePdoff x0 s (h : GatesSafe s) : GatesSafe (writePdoff x0 s) :=
  .via (frame_writePdoff _ _ (m := 0x180003E990) .refl rfl) rfl h

theorem gates_writePfcfg x0 s (h : GatesSafe s) : GatesSafe (writePfcfg x0 s) :=
  .via (frame_writePfcfg _ _ (m := 0x1800000110) .refl rfl) rfl h

theorem gates_State_modSpn x0 s (h : GatesSafe s) (e : ∀ y, Spn.safe y → Spn.safe (x0 y)) : GatesSafe (State.modSpn x0 s) := e _ h

theorem gates_lockGone x0 s (h : GatesSafe s) : GatesSafe (lockGone x0 s) :=
  .via (frame_lockGone _ _ (m := 0x1A0CB2A180) .refl rfl) rfl h

theorem gates_raiseLine x0 s (h : GatesSafe s) : GatesSafe (raiseLine x0 s) :=
  .via (frame_raiseLine _ _ (m := 0x2000) .refl rfl) rfl h

theorem gates_retractLoaded x0 s (h : GatesSafe s) : GatesSafe (retractLoaded x0 s) :=
  .via (frame_retractLoaded _ _ (m := 0x1A1DB2A180) .refl rfl) rfl h

theorem gates_requestUnload s (h : GatesSafe s) : GatesSafe (requestUnload s) := by
  unfold requestUnload
  repeat' first | (with_reducible first | assumption | intro _ | refine gates_State_modSpn _ _ ?_ ?_ | refine gates_retractLoaded _ _ ?_ | refine GatesSafe.ite ?_ ?_) | ((with_reducible refine (?_ : Spn.safe _)); first | exact safe_same rfl (by assumption) | exact safe_low rfl | exact safe_short rfl | exact stepGates_safe _ _) | decide | split | unfold id | dsimp only

theorem gates_unloadCheck x0 s (h : GatesSafe s) : GatesSafe (unloadCheck x0 s) := by
  unfold unloadCheck
  repeat' first | (with_reducible first | assumption | intro _ | refine gates_ev _ _ _ _ _ _ ?_ | refine gates_requestUnload _ ?_ | refine GatesSafe.ite ?_ ?_) | ((with_reducible refine (?_ : Spn.safe _)); first | exact safe_same rfl (by assumption) | exact safe_low rfl | exact safe_short rfl | exact stepGates_safe _ _) | decide | split | unfold id | dsimp only

theorem gates_unloadEntry s (h : GatesSafe s) : GatesSafe (unloadEntry s) := by
  unfold unloadEntry
  repeat' first | (with_reducible first | assumption | intro _ | refine gates_unloadCheck _ _ ?_ | refine GatesSafe.ite ?_ ?_) | ((with_reducible refine (?_ : Spn.safe _)); first | exact safe_same rfl (by assumption) | exact safe_low rfl | exact safe_short rfl | exact stepGates_safe _ _) | decide | split | unfold id | dsimp only

theorem gates_lockLost s (h : GatesSafe s) : GatesSafe (lockLost s) := by
  unfold lockLost
  repeat' first | (with_reducible first | assumption | intro _ | refine gates_State_modSpn _ _ ?_ ?_ | refine gates_ev _ _ _ _ _ _ ?_ | refine gates_lockGone _ _ ?_ | refine gates_raiseLine _ _ ?_ | refine gates_unloadEntry _ ?_ | refine GatesSafe.ite ?_ ?_) | ((with_reducible refine (?_ : Spn.safe _)); first | exact safe_same rfl (by assumption) | exact safe_low rfl | exact safe_short rfl | exact stepGates_safe _ _) | decide | split | unfold id | dsimp only

theorem gates_retractStart x0 x1 x2 s (h : GatesSafe s) : GatesSafe (retractStart x0 x1 x2 s) :=
  .via (frame_retractStart _ _ _ _ (m := 0x1A1DB2A180) .refl rfl) rfl h

theorem gates_servoDecide x0 x1 s (h : GatesSafe s) : GatesSafe (servoDecide x0 x1 s) :=
  .via (frame_servoDecide _ _ _ (m := 0x1A0DB2A180) .refl rfl) rfl h

theorem gates_pllSFault s (h : GatesSafe s) : GatesSafe (pllSFault s) := by
  unfold pllSFault
  repeat' first | (with_reducible first | assumption | intro _ | refine gates_lockLost _ ?_ | refine gates_retractStart _ _ _ _ ?_ | refine gates_servoDecide _ _ _ ?_ | refine GatesSafe.foldl (fun _ _ _ => ?_) ?_ | refine GatesSafe.ite ?_ ?_) | ((with_reducible refine (?_ : Spn.safe _)); first | exact safe_same rfl (by assumption) | exact safe_low rfl | exact safe_short rfl | exact stepGates_safe _ _) | decide | split | unfold id | dsimp only

theorem gates_setFld x0 x1 x2 x3 x4 x5 s (h : GatesSafe s) : GatesSafe (setFld x0 x1 x2 x3 x4 x5 s) :=
  .via (frame_setFld _ _ _ _ _ _ _ (m := 0x10) .refl rfl) rfl h

theorem gates_setLock x0 x1 s (h : GatesSafe s) : GatesSafe (setLock x0 x1 s) :=
  .via (frame_setLock _ _ _ (m := 0x400) .refl rfl) rfl h

theorem gates_pllLoss x0 s (h : GatesSafe s) : GatesSafe (pllLoss x0 s) := by
  unfold pllLoss
  repeat' first | (with_reducible first | assumption | intro _ | refine gates_ev _ _ _ _ _ _ ?_ | refine gates_pllSFault _ ?_ | refine gates_setFld _ _ _ _ _ _ _ ?_ | refine gates_setLock _ _ _ ?_ | refine GatesSafe.foldl (fun _ _ _ => ?_) ?_ | refine GatesSafe.ite ?_ ?_) | decide | split | unfold id | dsimp only

theorem gates_writePllen x0 s (h : GatesSafe s) : GatesSafe (writePllen x0 s) := by
  unfold writePllen
  repeat' first | (with_reducible first | assumption | intro _ | refine gates_pllLoss _ _ ?_ | refine gates_storeFields _ _ _ _ _ ?_ | refine GatesSafe.foldl (fun _ _ _ => ?_) ?_ | refine GatesSafe.ite ?_ ?_) | decide | split | unfold id | dsimp only

theorem gates_writePreq x0 s (h : GatesSafe s) : GatesSafe (writePreq x0 s) :=
  .via (frame_writePreq _ _ (m := 0x186000B9BC) .refl rfl) rfl h

theorem gates_writeProfile x0 s (h : GatesSafe s) : GatesSafe (writeProfile x0 s) :=
  .via (frame_writeProfile _ _ (m := 0x1800000300) .refl rfl) rfl h

theorem gates_writeRdyctl x0 s (h : GatesSafe s) : GatesSafe (writeRdyctl x0 s) :=
  .via (frame_writeRdyctl _ _ (m := 0x1800008300) .refl rfl) rfl h

theorem gates_State_modVlk x0 s (h : GatesSafe s) : GatesSafe (State.modVlk x0 s) :=
  .via (frame_State_modVlk _ _ (m := 0x4000000000) .refl rfl) rfl h

theorem gates_pmonClr x0 s (h : GatesSafe s) : GatesSafe (pmonClr x0 s) :=
  .via (frame_pmonClr _ _ (m := 0x4011600000) .refl rfl) rfl h

theorem gates_pmonSnap x0 s (h : GatesSafe s) : GatesSafe (pmonSnap x0 s) :=
  .via (frame_pmonSnap _ _ (m := 0x4011600000) .refl rfl) rfl h

theorem gates_retarget x0 s (h : GatesSafe s) : GatesSafe (retarget x0 s) :=
  .via (frame_retarget _ _ (m := 0x1A00000100) .refl rfl) rfl h

theorem gates_writeImgcmd x0 s (h : GatesSafe s) : GatesSafe (writeImgcmd x0 s) :=
  .via (frame_writeImgcmd _ _ (m := 0x5800000190) .refl rfl) rfl h

theorem gates_writeOrphan x0 s (h : GatesSafe s) : GatesSafe (writeOrphan x0 s) :=
  .via (frame_writeOrphan _ _ (m := 0x5800000190) .refl rfl) rfl h

theorem gates_dmcInitGo s (h : GatesSafe s) : GatesSafe (dmcInitGo s) :=
  .via (frame_dmcInitGo _ (m := 0x1820000100) .refl rfl) rfl h

theorem gates_pprGo x0 s (h : GatesSafe s) : GatesSafe (pprGo x0 s) :=
  .via (frame_pprGo _ _ (m := 0x1820002110) .refl rfl) rfl h

theorem gates_rowClear x0 s (h : GatesSafe s) : GatesSafe (rowClear x0 s) :=
  .via (frame_rowClear _ _ (m := 0x20000000) .refl rfl) rfl h

theorem gates_splitGo x0 s (h : GatesSafe s) : GatesSafe (splitGo x0 s) :=
  .via (frame_splitGo _ _ (m := 0x1860002130) .refl rfl) rfl h

theorem gates_writeAbortReq x0 s (h : GatesSafe s) : GatesSafe (writeAbortReq x0 s) :=
  .via (frame_writeAbortReq _ _ (m := 0x1AEDB3F1B0) .refl rfl) rfl h

theorem gates_writeDmcCfg x0 s (h : GatesSafe s) : GatesSafe (writeDmcCfg x0 s) :=
  .via (frame_writeDmcCfg _ _ (m := 0x1800000110) .refl rfl) rfl h

theorem gates_writeLgrWin x0 s (h : GatesSafe s) : GatesSafe (writeLgrWin x0 s) :=
  .via (frame_writeLgrWin _ _ (m := 0x1800010190) .refl rfl) rfl h

theorem gates_writeNsdom x0 x1 s (h : GatesSafe s) : GatesSafe (writeNsdom x0 x1 s) :=
  .via (frame_writeNsdom _ _ _ (m := 0x1800000110) .refl rfl) rfl h

theorem gates_writeOpcmd x0 s (h : GatesSafe s) : GatesSafe (writeOpcmd x0 s) :=
  .via (frame_writeOpcmd _ _ (m := 0x1840002110) .refl rfl) rfl h

theorem gates_writeOpenctl x0 x1 s (h : GatesSafe s) : GatesSafe (writeOpenctl x0 x1 s) :=
  .via (frame_writeOpenctl _ _ _ (m := 0x1800080100) .refl rfl) rfl h

theorem gates_State_modLdp x0 s (h : GatesSafe s) : GatesSafe (State.modLdp x0 s) :=
  .via (frame_State_modLdp _ _ (m := 0x400000) .refl rfl) rfl h

theorem gates_State_modRwc x0 x1 s (h : GatesSafe s) : GatesSafe (State.modRwc x0 x1 s) :=
  .via (frame_State_modRwc _ _ _ (m := 0x200000) .refl rfl) rfl h

theorem gates_headretSet x0 x1 s (h : GatesSafe s) : GatesSafe (headretSet x0 x1 s) :=
  .via (frame_headretSet _ _ _ (m := 0x100000) .refl rfl) rfl h

theorem gates_ldpRun s (h : GatesSafe s) : GatesSafe (ldpRun s) :=
  .via (frame_ldpRun _ (m := 0x502000) .refl rfl) rfl h

theorem gates_writeAbort x0 x1 s (h : GatesSafe s) : GatesSafe (writeAbort x0 x1 s) :=
  .via (frame_writeAbort _ _ _ (m := 0x1AEDB0F1A0) .refl rfl) rfl h

theorem gates_writeCstAct x0 x1 s (h : GatesSafe s) : GatesSafe (writeCstAct x0 x1 s) :=
  .via (frame_writeCstAct _ _ _ (m := 0x1800182100) .refl rfl) rfl h

theorem gates_writeDlop x0 s (h : GatesSafe s) : GatesSafe (writeDlop x0 s) :=
  .via (frame_writeDlop _ _ (m := 0x186080B1A0) .refl rfl) rfl h

theorem gates_writeFfpop x0 x1 s (h : GatesSafe s) : GatesSafe (writeFfpop x0 x1 s) :=
  .via (frame_writeFfpop _ _ _ (m := 0x400000) .refl rfl) rfl h

theorem gates_writePcmd x0 x1 s (h : GatesSafe s) : GatesSafe (writePcmd x0 x1 s) :=
  .via (frame_writePcmd _ _ _ (m := 0x1AEDB0F1A0) .refl rfl) rfl h

theorem gates_writePtask x0 x1 x2 s (h : GatesSafe s) : GatesSafe (writePtask x0 x1 x2 s) :=
  .via (frame_writePtask _ _ _ _ (m := 0x100000) .refl rfl) rfl h

theorem gates_State_modSve x0 x1 s (h : GatesSafe s) : GatesSafe (State.modSve x0 x1 s) :=
  .via (frame_State_modSve _ _ _ (m := 0x1000000) .refl rfl) rfl h

theorem gates_mailCommit x0 s (h : GatesSafe s) : GatesSafe (mailCommit x0 s) :=
  .via (frame_mailCommit _ _ (m := 0x1000000) .refl rfl) rfl h

theorem gates_swapGo x0 s (h : GatesSafe s) : GatesSafe (swapGo x0 s) :=
  .via (frame_swapGo _ _ (m := 0x1801002180) .refl rfl) rfl h

theorem gates_writeCdata x0 x1 s (h : GatesSafe s) : GatesSafe (writeCdata x0 x1 s) :=
  .via (frame_writeCdata _ _ _ (m := 0x1801000180) .refl rfl) rfl h

theorem gates_writeJump x0 x1 s (h : GatesSafe s) : GatesSafe (writeJump x0 x1 s) :=
  .via (frame_writeJump _ _ _ (m := 0x1811000110) .refl rfl) rfl h

theorem gates_writeClrf x0 s (h : GatesSafe s) : GatesSafe (writeClrf x0 s) :=
  .via (frame_writeClrf _ _ (m := 0x8000000) .refl rfl) rfl h

theorem gates_writeFwcmd x0 x1 s (h : GatesSafe s) : GatesSafe (writeFwcmd x0 x1 s) :=
  .via (frame_writeFwcmd _ _ _ (m := 0x4000000) .refl rfl) rfl h

theorem gates_writeMbcmd x0 s (h : GatesSafe s) : GatesSafe (writeMbcmd x0 s) :=
  .via (frame_writeMbcmd _ _ (m := 0x1880000110) .refl rfl) rfl h

theorem gates_writeOptFmt x0 s (h : GatesSafe s) : GatesSafe (writeOptFmt x0 s) :=
  .via (frame_writeOptFmt _ _ (m := 0x1800000110) .refl rfl) rfl h

theorem gates_writeSlotsel x0 s (h : GatesSafe s) : GatesSafe (writeSlotsel x0 s) :=
  .via (frame_writeSlotsel _ _ (m := 0x1880000110) .refl rfl) rfl h

theorem gates_writeSpnCfg x0 s (h : GatesSafe s) : GatesSafe (writeSpnCfg x0 s) :=
  .via (frame_writeSpnCfg _ _ (m := 0x1800000190) .refl rfl) rfl h

theorem gates_askBrake x0 s (h : GatesSafe s) : GatesSafe (askBrake x0 s) := by
  unfold askBrake
  repeat' first | (with_reducible first | assumption | intro _ | refine gates_State_modSpn _ _ ?_ ?_ | refine gates_requestUnload _ ?_ | refine GatesSafe.ite ?_ ?_) | ((with_reducible refine (?_ : Spn.safe _)); first | exact safe_same rfl (by assumption) | exact safe_low rfl | exact safe_short rfl | exact stepGates_safe _ _) | decide | split | unfold id | dsimp only

theorem gates_spnBrake s (h : GatesSafe s) : GatesSafe (spnBrake s) := by
  unfold spnBrake
  repeat' first | (with_reducible first | assumption | intro _ | refine gates_askBrake _ _ ?_ | refine GatesSafe.ite ?_ ?_) | ((with_reducible refine (?_ : Spn.safe _)); first | exact safe_same rfl (by assumption) | exact safe_low rfl | exact safe_short rfl | exact stepGates_safe _ _) | decide | split | unfold id | dsimp only

theorem gates_spnRefuseFree s (h : GatesSafe s) : GatesSafe (spnRefuseFree s) :=
  .via (frame_spnRefuseFree _ (m := 0x1800000180) .refl rfl) rfl h

theorem gates_spnClrf s (h : GatesSafe s) : GatesSafe (spnClrf s) := by
  unfold spnClrf
  repeat' first | (with_reducible first | assumption | intro _ | refine gates_State_modSpn _ _ ?_ ?_ | refine gates_spnRefuseFree _ ?_ | refine GatesSafe.ite ?_ ?_) | ((with_reducible refine (?_ : Spn.safe _)); first | exact safe_same rfl (by assumption) | exact safe_low rfl | exact safe_short rfl | exact stepGates_safe _ _) | decide | split | unfold id | dsimp only

theorem gates_coastFrom x0 s (h : GatesSafe s) : GatesSafe (coastFrom x0 s) := by
  unfold coastFrom
  repeat' first | (with_reducible first | assumption | intro _ | refine gates_State_modSpn _ _ ?_ ?_ | refine gates_ev _ _ _ _ _ _ ?_ | refine GatesSafe.ite ?_ ?_) | ((with_reducible refine (?_ : Spn.safe _)); first | exact safe_same rfl (by assumption) | exact safe_low rfl | exact safe_short rfl | exact stepGates_safe _ _) | decide | split | unfold id | dsimp only

theorem gates_spnCoast s (h : GatesSafe s) : GatesSafe (spnCoast s) := by
  unfold spnCoast
  repeat' first | (with_reducible first | assumption | intro _ | refine gates_coastFrom _ _ ?_ | refine GatesSafe.ite ?_ ?_) | ((with_reducible refine (?_ : Spn.safe _)); first | exact safe_same rfl (by assumption) | exact safe_low rfl | exact safe_short rfl | exact stepGates_safe _ _) | decide | split | unfold id | dsimp only

theorem gates_driveStep s (h : GatesSafe s) : GatesSafe (driveStep s) := by
  unfold driveStep
  repeat' first | (with_reducible first | assumption | intro _ | refine gates_State_modSpn _ _ ?_ ?_ | refine GatesSafe.ite ?_ ?_) | ((with_reducible refine (?_ : Spn.safe _)); first | exact safe_same rfl (by assumption) | exact safe_low rfl | exact safe_short rfl | exact stepGates_safe _ _) | decide | split | unfold id | dsimp only

theorem gates_alignStart s (h : GatesSafe s) : GatesSafe (alignStart s) := by
  unfold alignStart
  repeat' first | (with_reducible first | assumption | intro _ | refine gates_State_modSpn _ _ ?_ ?_ | refine gates_driveStep _ ?_ | refine gates_ev _ _ _ _ _ _ ?_ | refine GatesSafe.ite ?_ ?_) | ((with_reducible refine (?_ : Spn.safe _)); first | exact safe_same rfl (by assumption) | exact safe_low rfl | exact safe_short rfl | exact stepGates_safe _ _) | decide | split | unfold id | dsimp only

theorem gates_spnRefuse x0 s (h : GatesSafe s) : GatesSafe (spnRefuse x0 s) :=
  .via (frame_spnRefuse _ _ (m := 0x1800000100) .refl rfl) rfl h

theorem gates_spnStart s (h : GatesSafe s) : GatesSafe (spnStart s) := by
  unfold spnStart
  repeat' first | (with_reducible first | assumption | intro _ | refine gates_State_modSpn _ _ ?_ ?_ | refine gates_alignStart _ ?_ | refine gates_spnRefuse _ _ ?_ | refine gates_spnRefuseFree _ ?_ | refine GatesSafe.ite ?_ ?_) | ((with_reducible refine (?_ : Spn.safe _)); first | exact safe_same rfl (by assumption) | exact safe_low rfl | exact safe_short rfl | exact stepGates_safe _ _) | decide | split | unfold id | dsimp only

theorem gates_writeSpnCmd x0 s (h : GatesSafe s) : GatesSafe (writeSpnCmd x0 s) := by
  unfold writeSpnCmd
  repeat' first | (with_reducible first | assumption | intro _ | refine gates_spnBrake _ ?_ | refine gates_spnClrf _ ?_ | refine gates_spnCoast _ ?_ | refine gates_spnRefuseFree _ ?_ | refine gates_spnStart _ ?_ | refine GatesSafe.ite ?_ ?_) | ((with_reducible refine (?_ : Spn.safe _)); first | exact safe_same rfl (by assumption) | exact safe_low rfl | exact safe_short rfl | exact stepGates_safe _ _) | decide | split | unfold id | dsimp only

theorem gates_writeRegDrive x0 x1 x2 x3 x4 s (h : GatesSafe s) : GatesSafe (writeRegDrive x0 x1 x2 x3 x4 s) := by
  unfold writeRegDrive
  repeat' first | (with_reducible first | assumption | intro _ | refine gates_pmonClr _ _ ?_ | refine gates_pmonSnap _ _ ?_ | refine gates_storeFields _ _ _ _ _ ?_ | refine gates_writeClrf _ _ ?_ | refine gates_writeFwcmd _ _ _ ?_ | refine gates_writeMbcmd _ _ ?_ | refine gates_writeOptFmt _ _ ?_ | refine gates_writeSlotsel _ _ ?_ | refine gates_writeSpnCfg _ _ ?_ | refine gates_writeSpnCmd _ _ ?_ | refine GatesSafe.ite ?_ ?_) | ((with_reducible refine (?_ : Spn.safe _)); first | exact safe_same rfl (by assumption) | exact safe_low rfl | exact safe_short rfl | exact stepGates_safe _ _) | fail_if_no_progress (with_reducible refine GatesSafe.set_opt ?_) | decide | split | unfold id | dsimp only

theorem gates_writeRetract x0 x1 s (h : GatesSafe s) : GatesSafe (writeRetract x0 x1 s) :=
  .via (frame_writeRetract _ _ _ (m := 0x1A1DB2A190) .refl rfl) rfl h

theorem gates_writeRow x0 x1 x2 s (h : GatesSafe s) : GatesSafe (writeRow x0 x1 x2 s) :=
  .via (frame_writeRow _ _ _ _ (m := 0x1801000180) .refl rfl) rfl h

theorem gates_writeSdata x0 x1 s (h : GatesSafe s) : GatesSafe (writeSdata x0 x1 s) :=
  .via (frame_writeSdata _ _ _ (m := 0x1801000180) .refl rfl) rfl h

theorem gates_writeSveCfg x0 x1 s (h : GatesSafe s) : GatesSafe (writeSveCfg x0 x1 s) :=
  .via (frame_writeSveCfg _ _ _ (m := 0x1A1DB2A190) .refl rfl) rfl h

theorem gates_writeSweep x0 x1 s (h : GatesSafe s) : GatesSafe (writeSweep x0 x1 s) :=
  .via (frame_writeSweep _ _ _ (m := 0x1811000110) .refl rfl) rfl h

theorem gates_writeTrctl x0 x1 s (h : GatesSafe s) : GatesSafe (writeTrctl x0 x1 s) :=
  .via (frame_writeTrctl _ _ _ (m := 0x1801002110) .refl rfl) rfl h

theorem gates_writeRegServo x0 x1 x2 x3 x4 s (h : GatesSafe s) : GatesSafe (writeRegServo x0 x1 x2 x3 x4 s) := by
  unfold writeRegServo
  repeat' first | (with_reducible first | assumption | intro _ | refine gates_State_modSve _ _ _ ?_ | refine gates_mailCommit _ _ ?_ | refine gates_pmonClr _ _ ?_ | refine gates_pmonSnap _ _ ?_ | refine gates_storeFields _ _ _ _ _ ?_ | refine gates_swapGo _ _ ?_ | refine gates_writeCdata _ _ _ ?_ | refine gates_writeJump _ _ _ ?_ | refine gates_writeRegDrive _ _ _ _ _ _ ?_ | refine gates_writeRetract _ _ _ ?_ | refine gates_writeRow _ _ _ _ ?_ | refine gates_writeSdata _ _ _ ?_ | refine gates_writeSveCfg _ _ _ ?_ | refine gates_writeSweep _ _ _ ?_ | refine gates_writeTrctl _ _ _ ?_ | refine GatesSafe.ite ?_ ?_) | decide | split | unfold id | dsimp only

theorem gates_writeRespop x0 x1 s (h : GatesSafe s) : GatesSafe (writeRespop x0 x1 s) :=
  .via (frame_writeRespop _ _ _ (m := 0x100000) .refl rfl) rfl h

theorem gates_writeRsfree x0 s (h : GatesSafe s) : GatesSafe (writeRsfree x0 s) :=
  .via (frame_writeRsfree _ _ (m := 0x400000) .refl rfl) rfl h

theorem gates_writeRegSeq x0 x1 x2 x3 x4 s (h : GatesSafe s) : GatesSafe (writeRegSeq x0 x1 x2 x3 x4 s) := by
  unfold writeRegSeq
  repeat' first | (with_reducible first | assumption | intro _ | refine gates_State_modLdp _ _ ?_ | refine gates_State_modRwc _ _ _ ?_ | refine gates_headretSet _ _ _ ?_ | refine gates_ldpRun _ ?_ | refine gates_pmonClr _ _ ?_ | refine gates_pmonSnap _ _ ?_ | refine gates_storeFields _ _ _ _ _ ?_ | refine gates_writeAbort _ _ _ ?_ | refine gates_writeCstAct _ _ _ ?_ | refine gates_writeDlop _ _ ?_ | refine gates_writeFfpop _ _ _ ?_ | refine gates_writePcmd _ _ _ ?_ | refine gates_writePtask _ _ _ _ ?_ | refine gates_writeRegServo _ _ _ _ _ _ ?_ | refine gates_writeRespop _ _ _ ?_ | refine gates_writeRsfree _ _ ?_ | refine GatesSafe.ite ?_ ?_) | decide | split | unfold id | dsimp only

theorem gates_writeRegattr x0 x1 x2 s (h : GatesSafe s) : GatesSafe (writeRegattr x0 x1 x2 s) :=
  .via (frame_writeRegattr _ _ _ _ (m := 0x1860000130) .refl rfl) rfl h

theorem gates_writeRvrCmd x0 s (h : GatesSafe s) : GatesSafe (writeRvrCmd x0 s) :=
  .via (frame_writeRvrCmd _ _ (m := 0x180005C100) .refl rfl) rfl h

theorem gates_writeRegMem x0 x1 x2 x3 x4 s (h : GatesSafe s) : GatesSafe (writeRegMem x0 x1 x2 x3 x4 s) := by
  unfold writeRegMem
  repeat' first | (with_reducible first | assumption | intro _ | refine gates_dmcInitGo _ ?_ | refine gates_pprGo _ _ ?_ | refine gates_rowClear _ _ ?_ | refine gates_splitGo _ _ ?_ | refine gates_storeFields _ _ _ _ _ ?_ | refine gates_writeAbortReq _ _ ?_ | refine gates_writeDmcCfg _ _ ?_ | refine gates_writeLgrWin _ _ ?_ | refine gates_writeNsdom _ _ _ ?_ | refine gates_writeOpcmd _ _ ?_ | refine gates_writeOpenctl _ _ _ ?_ | refine gates_writeRegSeq _ _ _ _ _ _ ?_ | refine gates_writeRegattr _ _ _ _ ?_ | refine gates_writeRvrCmd _ _ ?_ | refine GatesSafe.ite ?_ ?_) | decide | split | unfold id | dsimp only

theorem gates_writeSegbudget x0 s (h : GatesSafe s) : GatesSafe (writeSegbudget x0 s) :=
  .via (frame_writeSegbudget _ _ (m := 0x1800000110) .refl rfl) rfl h

theorem gates_writeVlkCfg x0 s (h : GatesSafe s) : GatesSafe (writeVlkCfg x0 s) :=
  .via (frame_writeVlkCfg _ _ (m := 0x5800000190) .refl rfl) rfl h

theorem gates_writeVlkCmd x0 s (h : GatesSafe s) : GatesSafe (writeVlkCmd x0 s) :=
  .via (frame_writeVlkCmd _ _ (m := 0x5800002100) .refl rfl) rfl h

theorem gates_writeVlkLreq x0 s (h : GatesSafe s) : GatesSafe (writeVlkLreq x0 s) :=
  .via (frame_writeVlkLreq _ _ (m := 0x1800000110) .refl rfl) rfl h

theorem gates_writeVlkNode x0 s (h : GatesSafe s) : GatesSafe (writeVlkNode x0 s) :=
  .via (frame_writeVlkNode _ _ (m := 0x5800000100) .refl rfl) rfl h

theorem gates_writeRegVlk x0 x1 x2 x3 x4 s (h : GatesSafe s) : GatesSafe (writeRegVlk x0 x1 x2 x3 x4 s) := by
  unfold writeRegVlk
  repeat' first | (with_reducible first | assumption | intro _ | refine gates_State_modVlk _ _ ?_ | refine gates_pmonClr _ _ ?_ | refine gates_pmonSnap _ _ ?_ | refine gates_retarget _ _ ?_ | refine gates_storeFields _ _ _ _ _ ?_ | refine gates_writeImgcmd _ _ ?_ | refine gates_writeOrphan _ _ ?_ | refine gates_writeRegMem _ _ _ _ _ _ ?_ | refine gates_writeSegbudget _ _ ?_ | refine gates_writeVlkCfg _ _ ?_ | refine gates_writeVlkCmd _ _ ?_ | refine gates_writeVlkLreq _ _ ?_ | refine gates_writeVlkNode _ _ ?_ | refine GatesSafe.ite ?_ ?_) | decide | split | unfold id | dsimp only

theorem gates_writeReqb x0 x1 s (h : GatesSafe s) : GatesSafe (writeReqb x0 x1 s) :=
  .via (frame_writeReqb _ _ _ (m := 0x1800006110) .refl rfl) rfl h

theorem gates_writeSwev x0 s (h : GatesSafe s) : GatesSafe (writeSwev x0 s) :=
  .via (frame_writeSwev _ _ (m := 0x1800000110) .refl rfl) rfl h

theorem gates_writeThmCmd x0 s (h : GatesSafe s) : GatesSafe (writeThmCmd x0 s) :=
  .via (frame_writeThmCmd _ _ (m := 0x190005E100) .refl rfl) rfl h

theorem gates_writeThmThr x0 s (h : GatesSafe s) : GatesSafe (writeThmThr x0 s) :=
  .via (frame_writeThmThr _ _ (m := 0x1800000110) .refl rfl) rfl h

theorem gates_writeWdtctl x0 s (h : GatesSafe s) : GatesSafe (writeWdtctl x0 s) :=
  .via (frame_writeWdtctl _ _ (m := 0x1800000310) .refl rfl) rfl h

theorem gates_writeWdtkick x0 s (h : GatesSafe s) : GatesSafe (writeWdtkick x0 s) :=
  .via (frame_writeWdtkick _ _ (m := 0x1800000300) .refl rfl) rfl h

theorem gates_writeWin x0 x1 s (h : GatesSafe s) : GatesSafe (writeWin x0 x1 s) :=
  .via (frame_writeWin _ _ _ (m := 0x800000000) .refl rfl) rfl h

theorem gates_writeReg x0 x1 x2 x3 x4 s (h : GatesSafe s) : GatesSafe (writeReg x0 x1 x2 x3 x4 s) := by
  unfold writeReg
  repeat' first | (with_reducible first | assumption | intro _ | refine gates_evrCommit _ ?_ | refine gates_evrStore _ ?_ | refine gates_lifSeal _ ?_ | refine gates_lifSnap _ ?_ | refine gates_routeWrite _ _ _ _ ?_ | refine gates_storeFields _ _ _ _ _ ?_ | refine gates_swset _ _ ?_ | refine gates_twinAccess _ _ _ _ ?_ | refine gates_walkQueue _ ?_ | refine gates_writeAddgo _ _ ?_ | refine gates_writeBase _ _ _ ?_ | refine gates_writeCalAdj _ _ ?_ | refine gates_writeCalCmd _ _ ?_ | refine gates_writeClkDom _ _ _ ?_ | refine gates_writeCur _ _ _ ?_ | refine gates_writeOp _ _ _ ?_ | refine gates_writePdoff _ _ ?_ | refine gates_writePfcfg _ _ ?_ | refine gates_writePllen _ _ ?_ | refine gates_writePreq _ _ ?_ | refine gates_writeProfile _ _ ?_ | refine gates_writeRdyctl _ _ ?_ | refine gates_writeRegVlk _ _ _ _ _ _ ?_ | refine gates_writeReqb _ _ _ ?_ | refine gates_writeSwev _ _ ?_ | refine gates_writeThmCmd _ _ ?_ | refine gates_writeThmThr _ _ ?_ | refine gates_writeWdtctl _ _ ?_ | refine gates_writeWdtkick _ _ ?_ | refine gates_writeWin _ _ _ ?_ | refine GatesSafe.ite ?_ ?_) | decide | split | unfold id | dsimp only

theorem gates_wordAccess x0 x1 x2 x3 x4 x5 s (h : GatesSafe s) : GatesSafe (wordAccess x0 x1 x2 x3 x4 x5 s) := by
  unfold wordAccess
  repeat' first | (with_reducible first | assumption | intro _ | refine gates_busGives _ _ ?_ | refine gates_busZero _ ?_ | refine gates_guardWrite _ _ _ _ ?_ | refine gates_headerWrite _ _ _ _ _ _ ?_ | refine gates_readRegAt _ _ _ _ ?_ | refine gates_useWindow _ _ _ ?_ | refine gates_writeReg _ _ _ _ _ _ ?_ | refine GatesSafe.ite ?_ ?_) | fail_if_no_progress (with_reducible refine GatesSafe.set_busErr ?_) | decide | split | unfold id | dsimp only

theorem gates_pageAccess x0 x1 x2 x3 x4 s (h : GatesSafe s) : GatesSafe (pageAccess x0 x1 x2 x3 x4 s) := by
  unfold pageAccess
  repeat' first | (with_reducible first | assumption | intro _ | refine gates_blockError _ _ _ _ _ ?_ | refine gates_busZero _ ?_ | refine gates_wordAccess _ _ _ _ _ _ _ ?_ | refine GatesSafe.ite ?_ ?_) | fail_if_no_progress (with_reducible refine GatesSafe.set_busData ?_) | decide | split | unfold id | dsimp only

theorem gates_romAccess x0 x1 x2 x3 s (h : GatesSafe s) : GatesSafe (romAccess x0 x1 x2 x3 s) :=
  .via (frame_romAccess _ _ _ _ _ (m := 0xC) .refl rfl) rfl h

theorem gates_storeWindow x0 x1 x2 s (h : GatesSafe s) : GatesSafe (storeWindow x0 x1 x2 s) :=
  .via (frame_storeWindow _ _ _ _ (m := 0x180000010C) .refl rfl) rfl h

theorem gates_busOp x0 x1 x2 x3 x4 s (h : GatesSafe s) : GatesSafe (busOp x0 x1 x2 x3 x4 s) := by
  unfold busOp
  repeat' first | (with_reducible first | assumption | intro _ | refine gates_blockError _ _ _ _ _ ?_ | refine gates_busFails _ ?_ | refine gates_busZero _ ?_ | refine gates_domMem _ _ _ _ _ _ _ ?_ | refine gates_ev _ _ _ _ _ _ ?_ | refine gates_pageAccess _ _ _ _ _ _ ?_ | refine gates_romAccess _ _ _ _ _ ?_ | refine gates_storeWindow _ _ _ _ ?_ | refine GatesSafe.ite ?_ ?_) | decide | split | unfold id | dsimp only

theorem gates_csrWrite x0 x1 x2 s (h : GatesSafe s) : GatesSafe (csrWrite x0 x1 x2 s) :=
  .via (frame_csrWrite _ _ _ _ (m := 0x18600033A0) .refl rfl) rfl h

theorem gates_dmaError x0 s (h : GatesSafe s) : GatesSafe (dmaError x0 s) :=
  .via (frame_dmaError _ _ (m := 0x1800000180) .refl rfl) rfl h

theorem gates_access x0 x1 x2 x3 s (h : GatesSafe s) (k : ∀ t, GatesSafe t → GatesSafe (x3 t)) :
    GatesSafe (access x0 x1 x2 x3 s) := by
  unfold access
  exact .ite (.ite (gates_useWindow _ _ _ (k _ h)) (gates_blockError _ _ _ _ _ h)) h

theorem gates_hdrAccess x0 x1 x2 s (h : GatesSafe s) (k : ∀ a b t, GatesSafe t → GatesSafe (x2 a b t)) :
    GatesSafe (hdrAccess x0 x1 x2 s) := by
  unfold hdrAccess
  exact gates_access _ _ _ _ _ h (k _ _)

theorem gates_coreReset s (h : GatesSafe s) : GatesSafe (coreReset s) := safe_low (v := (coreReset s).spn) rfl

theorem gates_wickReset x0 s (h : GatesSafe s) : GatesSafe (wickReset x0 s) := by
  unfold wickReset
  repeat' first | (with_reducible first | assumption | intro _ | refine gates_coreReset _ ?_ | refine GatesSafe.ite ?_ ?_) | fail_if_no_progress (with_reducible refine GatesSafe.set_many14 ?_) | fail_if_no_progress (with_reducible refine GatesSafe.set_clk_cal ?_) | fail_if_no_progress (with_reducible refine GatesSafe.set_us_sys ?_) | fail_if_no_progress (with_reducible refine GatesSafe.set_us ?_) | fail_if_no_progress (with_reducible refine GatesSafe.set_regs ?_) | fail_if_no_progress (with_reducible refine GatesSafe.set_mem ?_) | fail_if_no_progress (with_reducible refine GatesSafe.set_hdr ?_) | fail_if_no_progress (with_reducible refine GatesSafe.set_sys ?_) | fail_if_no_progress (with_reducible refine GatesSafe.set_clk ?_) | fail_if_no_progress (with_reducible refine GatesSafe.set_pwr ?_) | fail_if_no_progress (with_reducible refine GatesSafe.set_llt ?_) | fail_if_no_progress (with_reducible refine GatesSafe.set_sec ?_) | fail_if_no_progress (with_reducible refine GatesSafe.set_thm ?_) | fail_if_no_progress (with_reducible refine GatesSafe.set_sup ?_) | fail_if_no_progress (with_reducible refine GatesSafe.set_evr ?_) | fail_if_no_progress (with_reducible refine GatesSafe.set_lif ?_) | fail_if_no_progress (with_reducible refine GatesSafe.set_cal ?_) | decide | split | unfold id | dsimp only

theorem gates_State_modPwr x0 s (h : GatesSafe s) : GatesSafe (State.modPwr x0 s) :=
  .via (frame_State_modPwr _ _ (m := 0x800) .refl rfl) rfl h

theorem gates_State_modSys x0 s (h : GatesSafe s) : GatesSafe (State.modSys x0 s) :=
  .via (frame_State_modSys _ _ (m := 0x200) .refl rfl) rfl h

theorem gates_zeroForPowerDown s (h : GatesSafe s) : GatesSafe (zeroForPowerDown s) :=
  .via (frame_zeroForPowerDown _ (m := 0x4080000000) .refl rfl) rfl h

theorem gates_darkEntry x0 x1 s (h : GatesSafe s) : GatesSafe (darkEntry x0 x1 s) := by
  unfold darkEntry
  repeat' first | (with_reducible first | assumption | intro _ | refine gates_State_modPwr _ _ ?_ | refine gates_State_modSys _ _ ?_ | refine gates_coreReset _ ?_ | refine gates_zeroForPowerDown _ ?_ | refine GatesSafe.ite ?_ ?_) | decide | split | unfold id | dsimp only

theorem gates_closeFetch s (h : GatesSafe s) : GatesSafe (closeFetch s) :=
  .via (frame_closeFetch _ (m := 0x8000) .refl rfl) rfl h

theorem gates_enterRectify s (h : GatesSafe s) : GatesSafe (enterRectify s) := by
  unfold enterRectify
  repeat' first | (with_reducible first | assumption | intro _ | refine gates_State_modSpn _ _ ?_ ?_ | refine gates_driveStep _ ?_ | refine gates_unloadEntry _ ?_ | refine GatesSafe.ite ?_ ?_) | ((with_reducible refine (?_ : Spn.safe _)); first | exact safe_same rfl (by assumption) | exact safe_low rfl | exact safe_short rfl | exact stepGates_safe _ _) | decide | split | unfold id | dsimp only

theorem gates_gatesAllOff s (h : GatesSafe s) : GatesSafe (gatesAllOff s) :=
  .via (frame_gatesAllOff _ (m := 0xCB22000) .refl rfl) rfl h

theorem gates_lifBump x0 x1 s (h : GatesSafe s) : GatesSafe (lifBump x0 x1 s) :=
  .via (frame_lifBump _ _ _ (m := 0x1800000100) .refl rfl) rfl h

theorem gates_enterDim s (h : GatesSafe s) : GatesSafe (enterDim s) :=
  .via (frame_enterDim _ (m := 0x1800018980) .refl rfl) rfl h

theorem gates_lossEnd s (h : GatesSafe s) : GatesSafe (lossEnd s) := by
  unfold lossEnd
  repeat' first | (with_reducible first | assumption | intro _ | refine gates_darkEntry _ _ _ ?_ | refine gates_enterDim _ ?_ | refine gates_zeroForPowerDown _ ?_ | refine GatesSafe.ite ?_ ?_) | decide | split | unfold id | dsimp only

theorem gates_revokeLeaves x0 s (h : GatesSafe s) : GatesSafe (revokeLeaves x0 s) :=
  .via (frame_revokeLeaves _ _ (m := 0x1A0C306180) .refl rfl) rfl h

theorem gates_startCommit x0 s (h : GatesSafe s) : GatesSafe (startCommit x0 s) :=
  .via (frame_startCommit _ _ (m := 0x180005C100) .refl rfl) rfl h

theorem gates_lossStart s (h : GatesSafe s) : GatesSafe (lossStart s) := by
  unfold lossStart
  repeat' first | (with_reducible first | assumption | intro _ | refine gates_closeFetch _ ?_ | refine gates_enterRectify _ ?_ | refine gates_gatesAllOff _ ?_ | refine gates_lasersOff _ ?_ | refine gates_lifBump _ _ _ ?_ | refine gates_lossEnd _ ?_ | refine gates_raiseLine _ _ ?_ | refine gates_retractLoaded _ _ ?_ | refine gates_revokeLeaves _ _ ?_ | refine gates_startCommit _ _ ?_ | refine GatesSafe.ite ?_ ?_) | fail_if_no_progress (with_reducible refine GatesSafe.set_sup ?_) | decide | split | unfold id | dsimp only

theorem gates_abandonCommit s (h : GatesSafe s) : GatesSafe (abandonCommit s) :=
  .via (frame_abandonCommit _ (m := 0x180005C380) .refl rfl) rfl h

theorem gates_elapse x0 s (h : GatesSafe s) : GatesSafe (elapse x0 s) :=
  .via (frame_elapse _ _ (m := 0x7800000B12) .refl rfl) rfl h

theorem gates_enterGlow s (h : GatesSafe s) : GatesSafe (enterGlow s) :=
  .via (frame_enterGlow _ (m := 0x1800018D90) .refl rfl) rfl h

theorem gates_unwindEntry x0 s (h : GatesSafe s) : GatesSafe (unwindEntry x0 s) :=
  .via (frame_unwindEntry _ _ (m := 0x186000B9AC) .refl rfl) rfl h

theorem gates_powerEntered s (h : GatesSafe s) : GatesSafe (powerEntered s) := by
  unfold powerEntered
  repeat' first | (with_reducible first | assumption | intro _ | refine gates_State_modPwr _ _ ?_ | refine gates_darkEntry _ _ _ ?_ | refine gates_enterDim _ ?_ | refine gates_enterGlow _ ?_ | refine gates_ev _ _ _ _ _ _ ?_ | refine gates_powerLit _ ?_ | refine gates_unwindEntry _ _ ?_ | refine GatesSafe.ite ?_ ?_) | decide | split | unfold id | dsimp only

theorem gates_commitDurable s (h : GatesSafe s) : GatesSafe (commitDurable s) :=
  .via (frame_commitDurable _ (m := 0x180007E300) .refl rfl) rfl h

theorem gates_retractEnd x0 s (h : GatesSafe s) : GatesSafe (retractEnd x0 s) :=
  .via (frame_retractEnd _ _ (m := 0x7801000B12) .refl rfl) rfl h

theorem gates_spnCmd x0 s (h : GatesSafe s) : GatesSafe (spnCmd x0 s) := by
  unfold spnCmd
  repeat' first | (with_reducible first | assumption | intro _ | refine gates_access _ _ _ _ _ ?_ ?_ | refine gates_writeSpnCmd _ _ ?_ | refine GatesSafe.ite ?_ ?_) | ((with_reducible refine (?_ : Spn.safe _)); first | exact safe_same rfl (by assumption) | exact safe_low rfl | exact safe_short rfl | exact stepGates_safe _ _) | decide | split | unfold id | dsimp only

theorem gates_advanceTo x0 s (h : GatesSafe s) : GatesSafe (advanceTo x0 s) :=
  .via (frame_advanceTo _ _ (m := 0x7800000B12) .refl rfl) rfl h

theorem gates_spnFault x0 s (h : GatesSafe s) : GatesSafe (spnFault x0 s) := by
  unfold spnFault
  repeat' first | (with_reducible first | assumption | intro _ | refine gates_State_modSpn _ _ ?_ ?_ | refine gates_lockGone _ _ ?_ | refine GatesSafe.ite ?_ ?_) | ((with_reducible refine (?_ : Spn.safe _)); first | exact safe_same rfl (by assumption) | exact safe_low rfl | exact safe_short rfl | exact stepGates_safe _ _) | decide | split | unfold id | dsimp only

theorem gates_brakeSpeed s (h : GatesSafe s) : GatesSafe (brakeSpeed s) := by
  unfold brakeSpeed
  repeat' first | (with_reducible first | assumption | intro _ | refine gates_State_modSpn _ _ ?_ ?_ | refine GatesSafe.ite ?_ ?_) | ((with_reducible refine (?_ : Spn.safe _)); first | exact safe_same rfl (by assumption) | exact safe_low rfl | exact safe_short rfl | exact stepGates_safe _ _) | decide | split | unfold id | dsimp only

theorem gates_limitDuty x0 s (h : GatesSafe s) : GatesSafe (limitDuty x0 s) := by
  unfold limitDuty
  repeat' first | (with_reducible first | assumption | intro _ | refine gates_State_modSpn _ _ ?_ ?_ | refine GatesSafe.ite ?_ ?_) | ((with_reducible refine (?_ : Spn.safe _)); first | exact safe_same rfl (by assumption) | exact safe_low rfl | exact safe_short rfl | exact stepGates_safe _ _) | decide | split | unfold id | dsimp only

theorem gates_shiftStep s (h : GatesSafe s) : GatesSafe (shiftStep s) := by
  unfold shiftStep
  repeat' first | (with_reducible first | assumption | intro _ | refine gates_State_modSpn _ _ ?_ ?_ | refine GatesSafe.ite ?_ ?_) | ((with_reducible refine (?_ : Spn.safe _)); first | exact safe_same rfl (by assumption) | exact safe_low rfl | exact safe_short rfl | exact stepGates_safe _ _) | decide | split | unfold id | dsimp only

theorem gates_spindleSample s (h : GatesSafe s) : GatesSafe (spindleSample s) :=
  .via (frame_spindleSample _ (m := 0x1102000) .refl rfl) rfl h

theorem gates_spnInputs x0 x1 x2 x3 s (h : GatesSafe s) : GatesSafe (spnInputs x0 x1 x2 x3 s) :=
  .via (frame_spnInputs _ _ _ _ _ (m := 0x1000080) .refl rfl) rfl h

theorem gates_crossingBad s (h : GatesSafe s) : GatesSafe (crossingBad s) := by
  unfold crossingBad
  repeat' first | (with_reducible first | assumption | intro _ | refine gates_State_modSpn _ _ ?_ ?_ | refine gates_lockLost _ ?_ | refine GatesSafe.ite ?_ ?_) | ((with_reducible refine (?_ : Spn.safe _)); first | exact safe_same rfl (by assumption) | exact safe_low rfl | exact safe_short rfl | exact stepGates_safe _ _) | decide | split | unfold id | dsimp only

theorem gates_lockReached s (h : GatesSafe s) : GatesSafe (lockReached s) := by
  unfold lockReached
  repeat' first | (with_reducible first | assumption | intro _ | refine gates_State_modSpn _ _ ?_ ?_ | refine gates_ev _ _ _ _ _ _ ?_ | refine gates_raiseLine _ _ ?_ | refine GatesSafe.ite ?_ ?_) | ((with_reducible refine (?_ : Spn.safe _)); first | exact safe_same rfl (by assumption) | exact safe_low rfl | exact safe_short rfl | exact stepGates_safe _ _) | decide | split | unfold id | dsimp only

theorem gates_crossingGood s (h : GatesSafe s) : GatesSafe (crossingGood s) := by
  unfold crossingGood
  repeat' first | (with_reducible first | assumption | intro _ | refine gates_State_modSpn _ _ ?_ ?_ | refine gates_lockReached _ ?_ | refine GatesSafe.ite ?_ ?_) | ((with_reducible refine (?_ : Spn.safe _)); first | exact safe_same rfl (by assumption) | exact safe_low rfl | exact safe_short rfl | exact stepGates_safe _ _) | decide | split | unfold id | dsimp only

theorem gates_State_modRvr x0 s (h : GatesSafe s) : GatesSafe (State.modRvr x0 s) :=
  .via (frame_State_modRvr _ _ (m := 0x40000) .refl rfl) rfl h

theorem gates_setAtSpeed s (h : GatesSafe s) : GatesSafe (setAtSpeed s) := by
  unfold setAtSpeed
  repeat' first | (with_reducible first | assumption | intro _ | refine gates_State_modRvr _ _ ?_ | refine gates_State_modSpn _ _ ?_ ?_ | refine gates_ev _ _ _ _ _ _ ?_ | refine gates_raiseLine _ _ ?_ | refine GatesSafe.ite ?_ ?_) | ((with_reducible refine (?_ : Spn.safe _)); first | exact safe_same rfl (by assumption) | exact safe_low rfl | exact safe_short rfl | exact stepGates_safe _ _) | decide | split | unfold id | dsimp only

theorem gates_revStep x0 s (h : GatesSafe s) : GatesSafe (revStep x0 s) := by
  unfold revStep
  repeat' first | (with_reducible first | assumption | intro _ | refine gates_State_modSpn _ _ ?_ ?_ | refine gates_setAtSpeed _ ?_ | refine GatesSafe.ite ?_ ?_) | ((with_reducible refine (?_ : Spn.safe _)); first | exact safe_same rfl (by assumption) | exact safe_low rfl | exact safe_short rfl | exact stepGates_safe _ _) | decide | split | unfold id | dsimp only

theorem gates_gatesLow s (h : GatesSafe s) : GatesSafe (gatesLow s) := by
  unfold gatesLow
  repeat' first | (with_reducible first | assumption | intro _ | refine gates_State_modSpn _ _ ?_ ?_ | refine GatesSafe.ite ?_ ?_) | ((with_reducible refine (?_ : Spn.safe _)); first | exact safe_same rfl (by assumption) | exact safe_low rfl | exact safe_short rfl | exact stepGates_safe _ _) | decide | split | unfold id | dsimp only

theorem gates_swapPhases s (h : GatesSafe s) : GatesSafe (swapPhases s) := by
  unfold swapPhases
  repeat' first | (with_reducible first | assumption | intro _ | refine gates_State_modSpn _ _ ?_ ?_ | refine gates_driveStep _ ?_ | refine gates_ev _ _ _ _ _ _ ?_ | refine gates_gatesLow _ ?_ | refine gates_setFld _ _ _ _ _ _ _ ?_ | refine GatesSafe.foldl (fun _ _ _ => ?_) ?_ | refine GatesSafe.ite ?_ ?_) | ((with_reducible refine (?_ : Spn.safe _)); first | exact safe_same rfl (by assumption) | exact safe_low rfl | exact safe_short rfl | exact stepGates_safe _ _) | decide | split | unfold id | dsimp only

theorem gates_recoveryFails s (h : GatesSafe s) : GatesSafe (recoveryFails s) := by
  unfold recoveryFails
  repeat' first | (with_reducible first | assumption | intro _ | refine gates_State_modSpn _ _ ?_ ?_ | refine gates_askBrake _ _ ?_ | refine gates_coastFrom _ _ ?_ | refine gates_ev _ _ _ _ _ _ ?_ | refine gates_gatesLow _ ?_ | refine gates_raiseLine _ _ ?_ | refine GatesSafe.ite ?_ ?_) | ((with_reducible refine (?_ : Spn.safe _)); first | exact safe_same rfl (by assumption) | exact safe_low rfl | exact safe_short rfl | exact stepGates_safe _ _) | decide | split | unfold id | dsimp only

theorem gates_spinupPhaseFault x0 s (h : GatesSafe s) : GatesSafe (spinupPhaseFault x0 s) :=
  .via (frame_spinupPhaseFault _ _ (m := 0x1800000100) .refl rfl) rfl h

theorem gates_State_modThm x0 s (h : GatesSafe s) : GatesSafe (State.modThm x0 s) :=
  .via (frame_State_modThm _ _ (m := 0x100000000) .refl rfl) rfl h

theorem gates_arrayCheck s (h : GatesSafe s) : GatesSafe (arrayCheck s) :=
  .via (frame_arrayCheck _ (m := 0x1900006100) .refl rfl) rfl h

theorem gates_checkSensor x0 x1 s (h : GatesSafe s) : GatesSafe (checkSensor x0 x1 s) :=
  .via (frame_checkSensor _ _ _ (m := 0x1900002100) .refl rfl) rfl h

theorem gates_criticalLimit x0 x1 s (h : GatesSafe s) : GatesSafe (criticalLimit x0 x1 s) :=
  .via (frame_criticalLimit _ _ _ (m := 0x1B1DB7E380) .refl rfl) rfl h

theorem gates_faultAll x0 s (h : GatesSafe s) : GatesSafe (faultAll x0 s) :=
  .via (frame_faultAll _ _ (m := 0x1A0CB22180) .refl rfl) rfl h

theorem gates_shutCmd x0 s (h : GatesSafe s) : GatesSafe (shutCmd x0 s) :=
  .via (frame_shutCmd _ _ (m := 0x1800038180) .refl rfl) rfl h

theorem gates_spnToCoast s (h : GatesSafe s) : GatesSafe (spnToCoast s) := by
  unfold spnToCoast
  repeat' first | (with_reducible first | assumption | intro _ | refine gates_coastFrom _ _ ?_ | refine GatesSafe.ite ?_ ?_) | ((with_reducible refine (?_ : Spn.safe _)); first | exact safe_same rfl (by assumption) | exact safe_low rfl | exact safe_short rfl | exact stepGates_safe _ _) | decide | split | unfold id | dsimp only

theorem gates_thermalShutdown s (h : GatesSafe s) : GatesSafe (thermalShutdown s) := by
  unfold thermalShutdown
  repeat' first | (with_reducible first | assumption | intro _ | refine gates_State_modThm _ _ ?_ | refine gates_ev _ _ _ _ _ _ ?_ | refine gates_faultAll _ _ ?_ | refine gates_lasersOff _ ?_ | refine gates_raiseLine _ _ ?_ | refine gates_retractLoaded _ _ ?_ | refine gates_revokeLeaves _ _ ?_ | refine gates_shutCmd _ _ ?_ | refine gates_spnToCoast _ ?_ | refine gates_startCommit _ _ ?_ | refine GatesSafe.foldl (fun _ _ _ => ?_) ?_ | refine GatesSafe.ite ?_ ?_) | ((with_reducible refine (?_ : Spn.safe _)); first | exact safe_same rfl (by assumption) | exact safe_low rfl | exact safe_short rfl | exact stepGates_safe _ _) | decide | split | unfold id | dsimp only

theorem gates_shutCount x0 s (h : GatesSafe s) : GatesSafe (shutCount x0 s) := by
  unfold shutCount
  repeat' first | (with_reducible first | assumption | intro _ | refine gates_State_modThm _ _ ?_ | refine gates_thermalShutdown _ ?_ | refine GatesSafe.ite ?_ ?_) | decide | split | unfold id | dsimp only

theorem gates_stateCounts x0 s (h : GatesSafe s) : GatesSafe (stateCounts x0 s) :=
  .via (frame_stateCounts _ _ (m := 0x190001E180) .refl rfl) rfl h

theorem gates_takeReadings x0 x1 s (h : GatesSafe s) : GatesSafe (takeReadings x0 x1 s) :=
  .via (frame_takeReadings _ _ _ (m := 0x1900002100) .refl rfl) rfl h

theorem gates_conversion x0 x1 x2 s (h : GatesSafe s) : GatesSafe (conversion x0 x1 x2 s) := by
  unfold conversion
  repeat' first | (with_reducible first | assumption | intro _ | refine gates_State_modThm _ _ ?_ | refine gates_arrayCheck _ ?_ | refine gates_checkSensor _ _ _ ?_ | refine gates_criticalLimit _ _ _ ?_ | refine gates_shutCount _ _ ?_ | refine gates_stateCounts _ _ ?_ | refine gates_takeReadings _ _ _ ?_ | refine GatesSafe.foldl (fun _ _ _ => ?_) ?_ | refine GatesSafe.ite ?_ ?_) | decide | split | unfold id | dsimp only

theorem gates_criticalDark s (h : GatesSafe s) : GatesSafe (criticalDark s) := by
  unfold criticalDark
  repeat' first | (with_reducible first | assumption | intro _ | refine gates_darkEntry _ _ _ ?_ | refine gates_ev _ _ _ _ _ _ ?_ | refine GatesSafe.ite ?_ ?_) | decide | split | unfold id | dsimp only

theorem gates_idle s (h : GatesSafe s) : GatesSafe (idle s) :=
  .via (frame_idle _ (m := 0x7CE00FFFBE) .refl rfl) rfl h

theorem gates_execRegWrite x0 x1 x2 s (h : GatesSafe s) : GatesSafe (after s (execRegWrite x0 x1 x2 s)) := by
  unfold execRegWrite
  try with_reducible refine GatesSafe.next ?_
  repeat' first | (with_reducible first | assumption | intro _ | refine gates_busOp _ _ _ _ _ _ ?_ | refine gates_csrWrite _ _ _ _ ?_ | refine gates_dmaError _ _ ?_ | refine GatesSafe.ite ?_ ?_) | decide | split | unfold id | dsimp only

theorem gates_execBusAccess x0 x1 x2 x3 x4 s (h : GatesSafe s) : GatesSafe (after s (execBusAccess x0 x1 x2 x3 x4 s)) := by
  unfold execBusAccess
  try with_reducible refine GatesSafe.next ?_
  repeat' first | (with_reducible first | assumption | intro _ | refine gates_busOp _ _ _ _ _ _ ?_ | refine gates_dmaError _ _ ?_ | refine GatesSafe.ite ?_ ?_) | decide | split | unfold id | dsimp only

theorem gates_execSoftReset x0 x1 s (h : GatesSafe s) : GatesSafe (after s (execSoftReset x0 x1 s)) := by
  unfold execSoftReset
  try with_reducible refine GatesSafe.next ?_
  repeat' first | (with_reducible first | assumption | intro _ | refine gates_hdrAccess _ _ _ _ ?_ ?_ | refine gates_softReset _ _ _ _ ?_ | refine GatesSafe.ite ?_ ?_) | decide | split | unfold id | dsimp only

theorem gates_execPor s (h : GatesSafe s) : GatesSafe (after s (execPor s)) := by
  unfold execPor
  try with_reducible refine GatesSafe.next ?_
  repeat' first | (with_reducible first | assumption | intro _ | refine gates_wickReset _ _ ?_ | refine GatesSafe.ite ?_ ?_) | decide | split | unfold id | dsimp only

theorem gates_execXo40Fail s (h : GatesSafe s) : GatesSafe (after s (execXo40Fail s)) := by
  unfold execXo40Fail
  try with_reducible refine GatesSafe.next ?_
  repeat' first | (with_reducible first | assumption | intro _ | refine gates_ev _ _ _ _ _ _ ?_ | refine gates_pllLoss _ _ ?_ | refine gates_setFld _ _ _ _ _ _ _ ?_ | refine GatesSafe.foldl (fun _ _ _ => ?_) ?_ | refine GatesSafe.ite ?_ ?_) | fail_if_no_progress (with_reducible refine GatesSafe.set_clk ?_) | decide | split | unfold id | dsimp only

theorem gates_execRailFault x0 s (h : GatesSafe s) : GatesSafe (after s (execRailFault x0 s)) := by
  unfold execRailFault
  try with_reducible refine GatesSafe.next ?_
  repeat' first | (with_reducible first | assumption | intro _ | refine gates_State_modPwr _ _ ?_ | refine gates_State_modSys _ _ ?_ | refine gates_darkEntry _ _ _ ?_ | refine gates_ev _ _ _ _ _ _ ?_ | refine gates_lossStart _ ?_ | refine gates_raiseLine _ _ ?_ | refine GatesSafe.ite ?_ ?_) | fail_if_no_progress (with_reducible refine GatesSafe.set_sup ?_) | decide | split | unfold id | dsimp only

theorem gates_execCoreDomainHold x0 s (h : GatesSafe s) : GatesSafe (after s (execCoreDomainHold x0 s)) := by
  unfold execCoreDomainHold
  try with_reducible refine GatesSafe.next ?_
  repeat' first | (with_reducible first | assumption | intro _ | refine gates_State_modSys _ _ ?_ | refine gates_abandonCommit _ ?_ | refine gates_coreReset _ ?_ | refine GatesSafe.ite ?_ ?_) | decide | split | unfold id | dsimp only

theorem gates_execPowerLoss s (h : GatesSafe s) : GatesSafe (after s (execPowerLoss s)) := by
  unfold execPowerLoss
  try with_reducible refine GatesSafe.next ?_
  repeat' first | (with_reducible first | assumption | intro _ | refine gates_elapse _ _ ?_ | refine gates_lossStart _ ?_ | refine GatesSafe.ite ?_ ?_) | decide | split | unfold id | dsimp only

theorem gates_execPowerStateEntered s (h : GatesSafe s) : GatesSafe (after s (execPowerStateEntered s)) := by
  unfold execPowerStateEntered
  try with_reducible refine GatesSafe.next ?_
  repeat' first | (with_reducible first | assumption | intro _ | refine gates_powerEntered _ ?_ | refine GatesSafe.ite ?_ ?_) | decide | split | unfold id | dsimp only

theorem gates_execPllLockLoss x0 s (h : GatesSafe s) : GatesSafe (after s (execPllLockLoss x0 s)) := by
  unfold execPllLockLoss
  try with_reducible refine GatesSafe.next ?_
  repeat' first | (with_reducible first | assumption | intro _ | refine gates_pllLoss _ _ ?_ | refine GatesSafe.ite ?_ ?_) | decide | split | unfold id | dsimp only

theorem gates_execCommitRecordDurable s (h : GatesSafe s) : GatesSafe (after s (execCommitRecordDurable s)) := by
  unfold execCommitRecordDurable
  try with_reducible refine GatesSafe.next ?_
  repeat' first | (with_reducible first | assumption | intro _ | refine gates_commitDurable _ ?_ | refine gates_lossEnd _ ?_ | refine GatesSafe.ite ?_ ?_) | decide | split | unfold id | dsimp only

theorem gates_execRetractEnd x0 s (h : GatesSafe s) : GatesSafe (after s (execRetractEnd x0 s)) := by
  unfold execRetractEnd
  try with_reducible refine GatesSafe.next ?_
  repeat' first | (with_reducible first | assumption | intro _ | refine gates_lossEnd _ ?_ | refine gates_retractEnd _ _ ?_ | refine GatesSafe.ite ?_ ?_) | decide | split | unfold id | dsimp only

theorem gates_execStart x0 s (h : GatesSafe s) : GatesSafe (after s (execStart x0 s)) := by
  unfold execStart
  try with_reducible refine GatesSafe.next ?_
  repeat' first | (with_reducible first | assumption | intro _ | refine gates_spnCmd _ _ ?_ | refine GatesSafe.ite ?_ ?_) | ((with_reducible refine (?_ : Spn.safe _)); first | exact safe_same rfl (by assumption) | exact safe_low rfl | exact safe_short rfl | exact stepGates_safe _ _) | decide | split | unfold id | dsimp only

theorem gates_execBrake x0 s (h : GatesSafe s) : GatesSafe (after s (execBrake x0 s)) := by
  unfold execBrake
  try with_reducible refine GatesSafe.next ?_
  repeat' first | (with_reducible first | assumption | intro _ | refine gates_spnCmd _ _ ?_ | refine GatesSafe.ite ?_ ?_) | ((with_reducible refine (?_ : Spn.safe _)); first | exact safe_same rfl (by assumption) | exact safe_low rfl | exact safe_short rfl | exact stepGates_safe _ _) | decide | split | unfold id | dsimp only

theorem gates_execBrakeEntry s (h : GatesSafe s) : GatesSafe (after s (execBrakeEntry s)) := by
  unfold execBrakeEntry
  try with_reducible refine GatesSafe.next ?_
  repeat' first | (with_reducible first | assumption | intro _ | refine gates_State_modSpn _ _ ?_ ?_ | refine gates_driveStep _ ?_ | refine gates_ev _ _ _ _ _ _ ?_ | refine GatesSafe.ite ?_ ?_) | ((with_reducible refine (?_ : Spn.safe _)); first | exact safe_same rfl (by assumption) | exact safe_low rfl | exact safe_short rfl | exact stepGates_safe _ _) | decide | split | unfold id | dsimp only

theorem gates_execCoast x0 s (h : GatesSafe s) : GatesSafe (after s (execCoast x0 s)) := by
  unfold execCoast
  try with_reducible refine GatesSafe.next ?_
  repeat' first | (with_reducible first | assumption | intro _ | refine gates_spnCmd _ _ ?_ | refine GatesSafe.ite ?_ ?_) | ((with_reducible refine (?_ : Spn.safe _)); first | exact safe_same rfl (by assumption) | exact safe_low rfl | exact safe_short rfl | exact stepGates_safe _ _) | decide | split | unfold id | dsimp only

theorem gates_execClrf x0 s (h : GatesSafe s) : GatesSafe (after s (execClrf x0 s)) := by
  unfold execClrf
  try with_reducible refine GatesSafe.next ?_
  repeat' first | (with_reducible first | assumption | intro _ | refine gates_spnCmd _ _ ?_ | refine GatesSafe.ite ?_ ?_) | ((with_reducible refine (?_ : Spn.safe _)); first | exact safe_same rfl (by assumption) | exact safe_low rfl | exact safe_short rfl | exact stepGates_safe _ _) | decide | split | unfold id | dsimp only

theorem gates_execAlignDone s (h : GatesSafe s) : GatesSafe (after s (execAlignDone s)) := by
  unfold execAlignDone
  try with_reducible refine GatesSafe.next ?_
  repeat' first | (with_reducible first | assumption | intro _ | refine gates_State_modSpn _ _ ?_ ?_ | refine GatesSafe.ite ?_ ?_) | ((with_reducible refine (?_ : Spn.safe _)); first | exact safe_same rfl (by assumption) | exact safe_low rfl | exact safe_short rfl | exact stepGates_safe _ _) | decide | split | unfold id | dsimp only

theorem gates_execSpinupAttemptTimeout s (h : GatesSafe s) : GatesSafe (after s (execSpinupAttemptTimeout s)) := by
  unfold execSpinupAttemptTimeout
  try with_reducible refine GatesSafe.next ?_
  repeat' first | (with_reducible first | assumption | intro _ | refine gates_advanceTo _ _ ?_ | refine gates_alignStart _ ?_ | refine gates_ev _ _ _ _ _ _ ?_ | refine gates_spnFault _ _ ?_ | refine GatesSafe.ite ?_ ?_) | ((with_reducible refine (?_ : Spn.safe _)); first | exact safe_same rfl (by assumption) | exact safe_low rfl | exact safe_short rfl | exact stepGates_safe _ _) | decide | split | unfold id | dsimp only

theorem gates_execPwmCentre x0 x1 x2 x3 s (h : GatesSafe s) : GatesSafe (after s (execPwmCentre x0 x1 x2 x3 s)) := by
  unfold execPwmCentre
  try with_reducible refine GatesSafe.next ?_
  repeat' first | (with_reducible first | assumption | intro _ | refine gates_State_modSpn _ _ ?_ ?_ | refine gates_brakeSpeed _ ?_ | refine gates_ev _ _ _ _ _ _ ?_ | refine gates_limitDuty _ _ ?_ | refine gates_lockGone _ _ ?_ | refine gates_raiseLine _ _ ?_ | refine gates_shiftStep _ ?_ | refine gates_spindleSample _ ?_ | refine gates_spnInputs _ _ _ _ _ ?_ | refine gates_unloadEntry _ ?_ | refine GatesSafe.ite ?_ ?_) | ((with_reducible refine (?_ : Spn.safe _)); first | exact safe_same rfl (by assumption) | exact safe_low rfl | exact safe_short rfl | exact stepGates_safe _ _) | decide | split | unfold id | dsimp only

theorem gates_execBemfCrossing x0 x1 s (h : GatesSafe s) : GatesSafe (after s (execBemfCrossing x0 x1 s)) := by
  unfold execBemfCrossing
  try with_reducible refine GatesSafe.next ?_
  repeat' first | (with_reducible first | assumption | intro _ | refine gates_State_modSpn _ _ ?_ ?_ | refine gates_brakeSpeed _ ?_ | refine gates_crossingBad _ ?_ | refine gates_crossingGood _ ?_ | refine gates_revStep _ _ ?_ | refine gates_swapPhases _ ?_ | refine gates_unloadCheck _ _ ?_ | refine GatesSafe.ite ?_ ?_) | ((with_reducible refine (?_ : Spn.safe _)); first | exact safe_same rfl (by assumption) | exact safe_low rfl | exact safe_short rfl | exact stepGates_safe _ _) | decide | split | unfold id | dsimp only

theorem gates_execCommutation x0 s (h : GatesSafe s) : GatesSafe (after s (execCommutation x0 s)) := by
  unfold execCommutation
  try with_reducible refine GatesSafe.next ?_
  repeat' first | (with_reducible first | assumption | intro _ | refine gates_State_modSpn _ _ ?_ ?_ | refine gates_crossingBad _ ?_ | refine gates_driveStep _ ?_ | refine GatesSafe.ite ?_ ?_) | ((with_reducible refine (?_ : Spn.safe _)); first | exact safe_same rfl (by assumption) | exact safe_low rfl | exact safe_short rfl | exact stepGates_safe _ _) | decide | split | unfold id | dsimp only

theorem gates_execFloatPeriodEnd x0 s (h : GatesSafe s) : GatesSafe (after s (execFloatPeriodEnd x0 s)) := by
  unfold execFloatPeriodEnd
  try with_reducible refine GatesSafe.next ?_
  repeat' first | (with_reducible first | assumption | intro _ | refine gates_State_modSpn _ _ ?_ ?_ | refine gates_driveStep _ ?_ | refine gates_recoveryFails _ ?_ | refine gates_unloadCheck _ _ ?_ | refine GatesSafe.ite ?_ ?_) | ((with_reducible refine (?_ : Spn.safe _)); first | exact safe_same rfl (by assumption) | exact safe_low rfl | exact safe_short rfl | exact stepGates_safe _ _) | decide | split | unfold id | dsimp only

theorem gates_execRecoveryTimeout s (h : GatesSafe s) : GatesSafe (after s (execRecoveryTimeout s)) := by
  unfold execRecoveryTimeout
  try with_reducible refine GatesSafe.next ?_
  repeat' first | (with_reducible first | assumption | intro _ | refine gates_advanceTo _ _ ?_ | refine gates_recoveryFails _ ?_ | refine GatesSafe.ite ?_ ?_) | ((with_reducible refine (?_ : Spn.safe _)); first | exact safe_same rfl (by assumption) | exact safe_low rfl | exact safe_short rfl | exact stepGates_safe _ _) | decide | split | unfold id | dsimp only

theorem gates_execMotorRailThreshold x0 s (h : GatesSafe s) : GatesSafe (after s (execMotorRailThreshold x0 s)) := by
  unfold execMotorRailThreshold
  try with_reducible refine GatesSafe.next ?_
  repeat' first | (with_reducible first | assumption | intro _ | refine gates_State_modSpn _ _ ?_ ?_ | refine GatesSafe.ite ?_ ?_) | ((with_reducible refine (?_ : Spn.safe _)); first | exact safe_same rfl (by assumption) | exact safe_low rfl | exact safe_short rfl | exact stepGates_safe _ _) | decide | split | unfold id | dsimp only

theorem gates_execChopperFault x0 x1 s (h : GatesSafe s) : GatesSafe (after s (execChopperFault x0 x1 s)) := by
  unfold execChopperFault
  try with_reducible refine GatesSafe.next ?_
  repeat' first | (with_reducible first | assumption | intro _ | refine gates_State_modSpn _ _ ?_ ?_ | refine gates_ev _ _ _ _ _ _ ?_ | refine gates_gatesLow _ ?_ | refine gates_raiseLine _ _ ?_ | refine gates_requestUnload _ ?_ | refine GatesSafe.ite ?_ ?_) | ((with_reducible refine (?_ : Spn.safe _)); first | exact safe_same rfl (by assumption) | exact safe_low rfl | exact safe_short rfl | exact stepGates_safe _ _) | decide | split | unfold id | dsimp only

theorem gates_execChopperConducting x0 s (h : GatesSafe s) : GatesSafe (after s (execChopperConducting x0 s)) := by
  unfold execChopperConducting
  try with_reducible refine GatesSafe.next ?_
  repeat' first | (with_reducible first | assumption | intro _ | refine gates_State_modSpn _ _ ?_ ?_ | refine gates_ev _ _ _ _ _ _ ?_ | refine gates_raiseLine _ _ ?_ | refine GatesSafe.ite ?_ ?_) | ((with_reducible refine (?_ : Spn.safe _)); first | exact safe_same rfl (by assumption) | exact safe_low rfl | exact safe_short rfl | exact stepGates_safe _ _) | decide | split | unfold id | dsimp only

theorem gates_execRailOvervoltage x0 s (h : GatesSafe s) : GatesSafe (after s (execRailOvervoltage x0 s)) := by
  unfold execRailOvervoltage
  try with_reducible refine GatesSafe.next ?_
  repeat' first | (with_reducible first | assumption | intro _ | refine gates_State_modSpn _ _ ?_ ?_ | refine gates_ev _ _ _ _ _ _ ?_ | refine gates_raiseLine _ _ ?_ | refine gates_spnFault _ _ ?_ | refine GatesSafe.ite ?_ ?_) | ((with_reducible refine (?_ : Spn.safe _)); first | exact safe_same rfl (by assumption) | exact safe_low rfl | exact safe_short rfl | exact stepGates_safe _ _) | decide | split | unfold id | dsimp only

theorem gates_execSpnFltNLow s (h : GatesSafe s) : GatesSafe (after s (execSpnFltNLow s)) := by
  unfold execSpnFltNLow
  try with_reducible refine GatesSafe.next ?_
  repeat' first | (with_reducible first | assumption | intro _ | refine gates_ev _ _ _ _ _ _ ?_ | refine gates_raiseLine _ _ ?_ | refine gates_requestUnload _ ?_ | refine gates_spinupPhaseFault _ _ ?_ | refine gates_spnFault _ _ ?_ | refine GatesSafe.ite ?_ ?_) | ((with_reducible refine (?_ : Spn.safe _)); first | exact safe_same rfl (by assumption) | exact safe_low rfl | exact safe_short rfl | exact stepGates_safe _ _) | decide | split | unfold id | dsimp only

theorem gates_execPhaseOpen x0 s (h : GatesSafe s) : GatesSafe (after s (execPhaseOpen x0 s)) := by
  unfold execPhaseOpen
  try with_reducible refine GatesSafe.next ?_
  repeat' first | (with_reducible first | assumption | intro _ | refine gates_State_modSpn _ _ ?_ ?_ | refine gates_askBrake _ _ ?_ | refine gates_ev _ _ _ _ _ _ ?_ | refine gates_gatesLow _ ?_ | refine gates_lockGone _ _ ?_ | refine gates_raiseLine _ _ ?_ | refine gates_requestUnload _ ?_ | refine gates_spinupPhaseFault _ _ ?_ | refine gates_spnFault _ _ ?_ | refine GatesSafe.ite ?_ ?_) | ((with_reducible refine (?_ : Spn.safe _)); first | exact safe_same rfl (by assumption) | exact safe_low rfl | exact safe_short rfl | exact stepGates_safe _ _) | decide | split | unfold id | dsimp only

theorem gates_execSupplyReversed x0 s (h : GatesSafe s) : GatesSafe (after s (execSupplyReversed x0 s)) := by
  unfold execSupplyReversed
  try with_reducible refine GatesSafe.next ?_
  repeat' first | (with_reducible first | assumption | intro _ | refine gates_State_modSpn _ _ ?_ ?_ | refine gates_ev _ _ _ _ _ _ ?_ | refine GatesSafe.ite ?_ ?_) | ((with_reducible refine (?_ : Spn.safe _)); first | exact safe_same rfl (by assumption) | exact safe_low rfl | exact safe_short rfl | exact stepGates_safe _ _) | decide | split | unfold id | dsimp only

theorem gates_execSpindleStopped s (h : GatesSafe s) : GatesSafe (after s (execSpindleStopped s)) := by
  unfold execSpindleStopped
  try with_reducible refine GatesSafe.next ?_
  repeat' first | (with_reducible first | assumption | intro _ | refine gates_State_modSpn _ _ ?_ ?_ | refine gates_ev _ _ _ _ _ _ ?_ | refine gates_raiseLine _ _ ?_ | refine GatesSafe.ite ?_ ?_) | ((with_reducible refine (?_ : Spn.safe _)); first | exact safe_same rfl (by assumption) | exact safe_low rfl | exact safe_short rfl | exact stepGates_safe _ _) | decide | split | unfold id | dsimp only

theorem gates_execRectifyExit s (h : GatesSafe s) : GatesSafe (after s (execRectifyExit s)) := by
  unfold execRectifyExit
  try with_reducible refine GatesSafe.next ?_
  repeat' first | (with_reducible first | assumption | intro _ | refine gates_State_modSpn _ _ ?_ ?_ | refine GatesSafe.ite ?_ ?_) | ((with_reducible refine (?_ : Spn.safe _)); first | exact safe_same rfl (by assumption) | exact safe_low rfl | exact safe_short rfl | exact stepGates_safe _ _) | decide | split | unfold id | dsimp only

theorem gates_execThmConversion x0 x1 s (h : GatesSafe s) : GatesSafe (after s (execThmConversion x0 x1 s)) := by
  unfold execThmConversion
  try with_reducible refine GatesSafe.next ?_
  repeat' first | (with_reducible first | assumption | intro _ | refine gates_conversion _ _ _ _ ?_ | refine GatesSafe.ite ?_ ?_) | decide | split | unfold id | dsimp only

theorem gates_execCriticalDarkEntry s (h : GatesSafe s) : GatesSafe (after s (execCriticalDarkEntry s)) := by
  unfold execCriticalDarkEntry
  try with_reducible refine GatesSafe.next ?_
  repeat' first | (with_reducible first | assumption | intro _ | refine gates_criticalDark _ ?_ | refine gates_elapse _ _ ?_ | refine GatesSafe.ite ?_ ?_) | decide | split | unfold id | dsimp only

theorem gates_execWickCriticalLimit x0 s (h : GatesSafe s) : GatesSafe (after s (execWickCriticalLimit x0 s)) := by
  unfold execWickCriticalLimit
  try with_reducible refine GatesSafe.next ?_
  repeat' first | (with_reducible first | assumption | intro _ | refine gates_State_modThm _ _ ?_ | refine gates_criticalDark _ ?_ | refine gates_criticalLimit _ _ _ ?_ | refine GatesSafe.ite ?_ ?_) | decide | split | unfold id | dsimp only

theorem gates_execVddAux33Loss s (h : GatesSafe s) : GatesSafe (after s (execVddAux33Loss s)) := by
  unfold execVddAux33Loss
  try with_reducible refine GatesSafe.next ?_
  repeat' first | (with_reducible first | assumption | intro _ | refine gates_wickReset _ _ ?_ | refine GatesSafe.ite ?_ ?_) | decide | split | unfold id | dsimp only

end Sys2Proof.Machine
end

