-- ==== Sys2Proof/Laws/Locks.lean ====
section
/-!
SUPPORT. No operation locks or reserves a line in ways 12-15.
-/

set_option linter.all false

set_option Elab.async false

namespace Sys2Proof.Machine

theorem locks_same {b d : Bcc} (e : d.lines = b.lines) (h : b.locksLow) : d.locksLow := by
  unfold Bcc.locksLow; rw [e]; exact h

theorem locks_filter {b : Bcc} {p : CLine → Bool} {d : Bcc} (e : d.lines = b.lines.filter p) (h : b.locksLow) : d.locksLow := by
  intro c hc
  rw [e] at hc
  exact h c (List.mem_filter.1 hc).1

theorem locks_nil {d : Bcc} (e : d.lines = []) : d.locksLow := by
  intro c hc
  rw [e] at hc
  cases hc

theorem locks_hit {line : Nat} {s : State} {c : CLine} (h : LocksLow s) (e : bccHit line s = some c) : c.low ∧ c.valid = true := by
  have k := List.find?_some e
  simp only [Bool.and_eq_true] at k
  exact ⟨h c (List.mem_of_find?_eq_some e), k.2⟩

theorem locks_reserved {line : Nat} {s : State} {c : CLine} (h : LocksLow s) (e : bccReserved line s = some c) : c.way < 12 := by
  have k := List.find?_some e
  simp only [Bool.and_eq_true, Bool.not_eq_true'] at k
  exact h c (List.mem_of_find?_eq_some e) (.inr k.2)

theorem lruWay_mem {st : Nat} {ways : List Nat} {s : State} {w : Nat} (h : lruWay st ways s = some w) : w ∈ ways := by
  have key : ∀ (l : List Nat) (m : Option Nat), (∀ x, m = some x → x ∈ ways) → (∀ x ∈ l, x ∈ ways) →
      ∀ x, l.foldl (fun m w =>
        match m with
        | none => some w
        | some x => if wayUse st w s < wayUse st x s then some w else some x) m = some x → x ∈ ways := by
    intro l
    induction l with
    | nil => intro m hm _ x hx; exact hm x hx
    | cons a l ih =>
      intro m hm hl x hx
      refine ih _ ?_ (fun y hy => hl y (List.mem_cons_of_mem _ hy)) x hx
      intro y hy
      cases m with
      | none =>
        have : a = y := Option.some.inj hy
        exact this ▸ hl a (List.mem_cons_self ..)
      | some z =>
        dsimp only at hy
        split at hy
        · have : a = y := Option.some.inj hy
          exact this ▸ hl a (List.mem_cons_self ..)
        · have : z = y := Option.some.inj hy
          exact this ▸ hm z rfl
  exact key _ none (fun _ h => nomatch h) (fun x hx => (List.mem_filter.1 hx).1) w h

theorem allocWay_low {line : Nat} {s : State} {x : Nat × Bool} (h : LocksLow s) (e : allocWay line s = some x) :
    x.2 = true → x.1 < 12 := by
  unfold allocWay at e
  split at e
  · next r hr =>
    have := Option.some.inj e
    exact fun _ => this ▸ locks_reserved h hr
  · cases hw : lruWay (setOf line) (List.range 16) s with
    | none => rw [hw] at e; nomatch e
    | some w => rw [hw] at e; have := Option.some.inj e; rw [← this]; exact fun h => nomatch h

/-- The mask does not hold the part. -/
@[reducible] def noLocksLow (m : Nat) : Bool := Nat.beq (Nat.land m 0x40000000) 0

theorem LocksLow.via {m : Nat} {s t : State} (k : FrameB m s t) (e : noLocksLow m = true) (h : LocksLow s) : LocksLow t := by
  have h1 : t.bcc = s.bcc := by
    refine k .bcc ?_
    have h : m &&& 0x40000000 = 0 := Nat.eq_of_beq_eq_true e
    have h' := congrArg (fun x => x.testBit 30) h
    have h2 : Nat.testBit 0x40000000 30 = true := by decide
    rw [Nat.testBit_and, h2, Nat.zero_testBit, Bool.and_true] at h'
    exact h'
  unfold LocksLow

  rw [h1]
  exact h

theorem LocksLow.of_eq {s t : State} (h : t = s) (k : LocksLow t) : LocksLow s := h ▸ k

theorem LocksLow.ite {t u : State} {c : Prop} {d : Decidable c} (h : LocksLow t) (k : LocksLow u) :
    LocksLow (if c then t else u) := by split <;> assumption

theorem LocksLow.foldl {α : Type} {f : State → α → State} (k : ∀ u x, LocksLow u → LocksLow (f u x)) {xs : List α}
    {s : State} (h : LocksLow s) : LocksLow (xs.foldl f s) := by
  induction xs generalizing s with
  | nil => exact h
  | cons x xs ih => exact ih (k _ _ h)

theorem LocksLow.next {s t : State} (h : LocksLow t) : LocksLow (after s (.next t)) := h

theorem LocksLow.set_bcc {s : State} {v : Bcc} (h : LocksLow s) (e : Bcc.locksLow s.bcc → Bcc.locksLow v) : LocksLow { s with bcc := v } :=
  e h

theorem LocksLow.set_busData_busErr {s : State} {v0 v1} (h : LocksLow s) : LocksLow { s with busData := v0, busErr := v1 } := h

theorem LocksLow.set_busData {s : State} {v0} (h : LocksLow s) : LocksLow { s with busData := v0 } := h

theorem LocksLow.set_busErr {s : State} {v0} (h : LocksLow s) : LocksLow { s with busErr := v0 } := h

theorem LocksLow.set_l1 {s : State} {v0} (h : LocksLow s) : LocksLow { s with l1 := v0 } := h

theorem LocksLow.set_busData_busErr_l1 {s : State} {v0 v1 v2} (h : LocksLow s) : LocksLow { s with busData := v0, busErr := v1, l1 := v2 } := h

theorem LocksLow.set_dmc {s : State} {v0} (h : LocksLow s) : LocksLow { s with dmc := v0 } := h

theorem LocksLow.set_asq {s : State} {v0} (h : LocksLow s) : LocksLow { s with asq := v0 } := h

theorem LocksLow.set_hce {s : State} {v0} (h : LocksLow s) : LocksLow { s with hce := v0 } := h

theorem LocksLow.set_lgr {s : State} {v0} (h : LocksLow s) : LocksLow { s with lgr := v0 } := h

theorem LocksLow.set_rvr {s : State} {v0} (h : LocksLow s) : LocksLow { s with rvr := v0 } := h

theorem LocksLow.set_cst {s : State} {v0} (h : LocksLow s) : LocksLow { s with cst := v0 } := h

theorem LocksLow.set_sve {s : State} {v0} (h : LocksLow s) : LocksLow { s with sve := v0 } := h

theorem LocksLow.set_psi {s : State} {v0} (h : LocksLow s) : LocksLow { s with psi := v0 } := h

theorem LocksLow.set_lsr {s : State} {v0} (h : LocksLow s) : LocksLow { s with lsr := v0 } := h

theorem LocksLow.set_trm {s : State} {v0} (h : LocksLow s) : LocksLow { s with trm := v0 } := h

theorem LocksLow.set_lif {s : State} {v0} (h : LocksLow s) : LocksLow { s with lif := v0 } := h

theorem LocksLow.set_cal {s : State} {v0} (h : LocksLow s) : LocksLow { s with cal := v0 } := h

theorem LocksLow.set_tpe {s : State} {v0} (h : LocksLow s) : LocksLow { s with tpe := v0 } := h

theorem LocksLow.set_irq {s : State} {v0} (h : LocksLow s) : LocksLow { s with irq := v0 } := h

theorem LocksLow.set_many14 {s : State} {v0 v1 v2 v3 v4 v5 v6 v7 v8 v9 v10 v11 v12 v13} (h : LocksLow s) : LocksLow { s with us := v0, regs := v1, mem := v2, hdr := v3, sys := v4, clk := v5, pwr := v6, llt := v7, sec := v8, thm := v9, sup := v10, evr := v11, lif := v12, cal := v13 } := h

theorem LocksLow.set_clk_cal {s : State} {v0 v1} (h : LocksLow s) : LocksLow { s with clk := v0, cal := v1 } := h

theorem LocksLow.set_us_sys {s : State} {v0 v1} (h : LocksLow s) : LocksLow { s with us := v0, sys := v1 } := h

theorem LocksLow.set_us {s : State} {v0} (h : LocksLow s) : LocksLow { s with us := v0 } := h

theorem LocksLow.set_regs {s : State} {v0} (h : LocksLow s) : LocksLow { s with regs := v0 } := h

theorem LocksLow.set_mem {s : State} {v0} (h : LocksLow s) : LocksLow { s with mem := v0 } := h

theorem LocksLow.set_hdr {s : State} {v0} (h : LocksLow s) : LocksLow { s with hdr := v0 } := h

theorem LocksLow.set_sys {s : State} {v0} (h : LocksLow s) : LocksLow { s with sys := v0 } := h

theorem LocksLow.set_clk {s : State} {v0} (h : LocksLow s) : LocksLow { s with clk := v0 } := h

theorem LocksLow.set_pwr {s : State} {v0} (h : LocksLow s) : LocksLow { s with pwr := v0 } := h

theorem LocksLow.set_llt {s : State} {v0} (h : LocksLow s) : LocksLow { s with llt := v0 } := h

theorem LocksLow.set_sec {s : State} {v0} (h : LocksLow s) : LocksLow { s with sec := v0 } := h

theorem LocksLow.set_thm {s : State} {v0} (h : LocksLow s) : LocksLow { s with thm := v0 } := h

theorem LocksLow.set_sup {s : State} {v0} (h : LocksLow s) : LocksLow { s with sup := v0 } := h

theorem LocksLow.set_evr {s : State} {v0} (h : LocksLow s) : LocksLow { s with evr := v0 } := h

theorem locks_blockError x0 x1 x2 x3 s (h : LocksLow s) : LocksLow (blockError x0 x1 x2 x3 s) :=
  .via (frame_blockError _ _ _ _ _ (m := 0x1800000100) .refl rfl) rfl h

theorem locks_busFails s (h : LocksLow s) : LocksLow (busFails s) :=
  .via (frame_busFails _ (m := 0xC) .refl rfl) rfl h

theorem locks_busZero s (h : LocksLow s) : LocksLow (busZero s) :=
  .via (frame_busZero _ (m := 0xC) .refl rfl) rfl h

theorem locks_bccDirect x0 x1 x2 x3 s (h : LocksLow s) : LocksLow (bccDirect x0 x1 x2 x3 s).1 :=
  .via (frame_bccDirect _ _ _ _ _ (m := 0x1820002100) .refl rfl) rfl h

theorem locks_bccPut x0 s (h : LocksLow s) (e : x0.low) : LocksLow (bccPut x0 s) := by
  intro c hc
  rcases List.mem_cons.1 hc with hc | hc
  · exact hc ▸ e
  · exact h c (List.mem_filter.1 hc).1

theorem locks_State_modBcc x0 s (h : LocksLow s) (e : ∀ y, Bcc.locksLow y → Bcc.locksLow (x0 y)) : LocksLow (State.modBcc x0 s) := e _ h

theorem locks_bccTick s (h : LocksLow s) : LocksLow (bccTick s) := by
  unfold bccTick
  repeat' first | (with_reducible first | assumption | intro _ | refine locks_State_modBcc _ _ ?_ ?_ | refine LocksLow.ite ?_ ?_) | ((with_reducible refine (?_ : Bcc.locksLow _)); first | exact locks_same rfl (by assumption) | exact locks_filter rfl (by assumption) | exact locks_nil rfl) | decide | split | unfold id | dsimp only

theorem locks_lineRead x0 x1 x2 s (h : LocksLow s) : LocksLow (lineRead x0 x1 x2 s).1 :=
  .via (frame_lineRead _ _ _ _ (m := 0x1820002100) .refl rfl) rfl h

theorem locks_writeBack x0 s (h : LocksLow s) : LocksLow (writeBack x0 s) :=
  .via (frame_writeBack _ _ (m := 0x20000020) .refl rfl) rfl h

theorem locks_bccFill x0 x1 x2 x3 x4 s (h : LocksLow s) (e : x4 = true → x1 < 12) : LocksLow (bccFill x0 x1 x2 x3 x4 s) := by
  unfold bccFill
  dsimp only
  refine locks_bccPut _ _ (locks_bccTick _ ?_) ?_
  · split
    · exact locks_writeBack _ _ h
    · exact h
  · exact fun k => k.elim e (fun k => nomatch k)

theorem locks_bccMiss x0 x1 x2 x3 s (h : LocksLow s) : LocksLow (bccMiss x0 x1 x2 x3 s).1 := by
  have k := locks_lineRead x0 x1 x3 s h
  unfold bccMiss
  dsimp only
  split
  · exact k
  · split
    · next x hx => exact locks_bccFill _ _ _ _ _ _ k (allocWay_low k hx)
    · exact k

theorem locks_bccRead x0 x1 x2 x3 s (h : LocksLow s) : LocksLow (bccRead x0 x1 x2 x3 s).1 := by
  unfold bccRead
  dsimp only
  split
  · exact locks_bccDirect _ _ _ _ _ h
  · split
    · next c hc => exact locks_bccPut _ _ (locks_bccTick _ h) (locks_hit h hc).1
    · split
      · exact locks_bccDirect _ _ _ _ _ h
      · exact locks_bccMiss _ _ _ _ _ h

theorem locks_State_drawn s (h : LocksLow s) : LocksLow (State.drawn s) :=
  .via (frame_State_drawn _ (m := 0x80) .refl rfl) rfl h

theorem locks_drainFold (l : List CLine) (s : State) (h : LocksLow s) (hl : ∀ c ∈ l, c.low) :
    LocksLow (l.foldl (fun s c => bccPut { c with dirty := false } (writeBack c s)) s) := by
  induction l generalizing s with
  | nil => exact h
  | cons c l ih =>
    exact ih _ (locks_bccPut { c with dirty := false } _ (locks_writeBack c _ h) (hl c (List.mem_cons_self ..)))
      fun x hx => hl x (List.mem_cons_of_mem _ hx)

theorem locks_drainWalk s (h : LocksLow s) : LocksLow (drainWalk s) := by
  unfold drainWalk
  have k := locks_drainFold (s.bcc.lines.filter fun c => c.dirty && setOf c.line < s.bcc.drainSet + draw (8193 - s.bcc.drainSet) s)
    s.drawn (locks_State_drawn _ h) fun c hc => h c (List.mem_filter.1 hc).1
  exact locks_State_modBcc _ _ k fun _ h => locks_same rfl h

theorem locks_dmcWrite x0 x1 x2 s (h : LocksLow s) : LocksLow (dmcWrite x0 x1 x2 s) :=
  .via (frame_dmcWrite _ _ _ _ (m := 0x20000020) .refl rfl) rfl h

theorem locks_bccWrite x0 x1 x2 x3 s (h : LocksLow s) : LocksLow (bccWrite x0 x1 x2 x3 s) := by
  have hd : ∀ a b c t, LocksLow t → LocksLow (dmcWrite a b c t) := fun a b c t ht => locks_dmcWrite a b c t ht
  unfold bccWrite
  dsimp only
  have h : LocksLow (if s.bcc.state == .draining then drainWalk s else s) := .ite (locks_drainWalk _ h) h
  generalize (if s.bcc.state == .draining then drainWalk s else s) = s at h ⊢
  refine .ite (hd _ _ _ _ h) ?_
  split
  · next c hc =>
    have hl := (locks_hit h hc).1
    have ht := locks_bccTick s h
    refine .ite (.ite (hd _ _ _ _ (locks_bccPut _ _ ht hl)) (locks_bccPut _ _ ht hl)) ?_
    exact .ite (hd _ _ _ _ (locks_bccPut _ _ ht hl)) (locks_bccPut _ _ ht hl)
  · refine .ite (hd _ _ _ _ h) ?_
    have hr : LocksLow (if x2 = 128 then (s, false, false) else lineRead x0 x1 .none s).1 := by
      split
      · exact h
      · exact locks_lineRead _ _ _ _ h
    generalize (if x2 = 128 then (s, false, false) else lineRead x0 x1 .none s) = q at hr ⊢
    obtain ⟨u, p, q⟩ := q
    dsimp only at hr ⊢
    refine .ite (hd _ _ _ _ hr) ?_
    split
    · next w lk hx =>
      have hl := allocWay_low hr hx
      exact .ite (hd _ _ _ _ (locks_bccFill _ _ _ _ _ _ hr hl)) (locks_bccFill _ _ _ _ _ _ hr hl)
    · exact hd _ _ _ _ hr

theorem locks_ddrAccess x0 x1 x2 x3 x4 s (h : LocksLow s) : LocksLow (ddrAccess x0 x1 x2 x3 x4 s) := by
  unfold ddrAccess
  repeat' first | (with_reducible first | assumption | intro _ | refine locks_bccRead _ _ _ _ _ ?_ | refine locks_bccWrite _ _ _ _ _ ?_ | refine LocksLow.ite ?_ ?_) | ((with_reducible refine (?_ : Bcc.locksLow _)); first | exact locks_same rfl (by assumption) | exact locks_filter rfl (by assumption) | exact locks_nil rfl) | fail_if_no_progress (with_reducible refine LocksLow.set_busData_busErr ?_) | fail_if_no_progress (with_reducible refine LocksLow.set_busData ?_) | fail_if_no_progress (with_reducible refine LocksLow.set_busErr ?_) | refine LocksLow.of_eq (congrArg Prod.fst ‹bccRead _ _ _ _ _ = _›) ?_ | decide | split | unfold id | dsimp only

theorem locks_backLine x0 x1 x2 s (h : LocksLow s) : LocksLow (backLine x0 x1 x2 s).1 := by
  unfold backLine
  repeat' first | (with_reducible first | assumption | intro _ | refine locks_bccRead _ _ _ _ _ ?_ | refine LocksLow.ite ?_ ?_) | ((with_reducible refine (?_ : Bcc.locksLow _)); first | exact locks_same rfl (by assumption) | exact locks_filter rfl (by assumption) | exact locks_nil rfl) | refine LocksLow.of_eq (congrArg Prod.fst ‹bccRead _ _ _ _ _ = _›) ?_ | decide | split | unfold id | dsimp only

theorem locks_l1Fill x0 x1 x2 s (h : LocksLow s) : LocksLow (l1Fill x0 x1 x2 s).1 := by
  unfold l1Fill
  repeat' first | (with_reducible first | assumption | intro _ | refine locks_backLine _ _ _ _ ?_ | refine LocksLow.ite ?_ ?_) | fail_if_no_progress (with_reducible refine LocksLow.set_l1 ?_) | refine LocksLow.of_eq (congrArg Prod.fst ‹backLine _ _ _ _ = _›) ?_ | refine LocksLow.of_eq (congrArg Prod.fst ‹l1Fill _ _ _ _ = _›) ?_ | decide | split | unfold id | dsimp only

theorem locks_acoreLoad x0 x1 x2 x3 s (h : LocksLow s) : LocksLow (acoreLoad x0 x1 x2 x3 s) := by
  unfold acoreLoad
  repeat' first | (with_reducible first | assumption | intro _ | refine locks_ddrAccess _ _ _ _ _ _ ?_ | refine locks_l1Fill _ _ _ _ ?_ | refine LocksLow.ite ?_ ?_) | fail_if_no_progress (with_reducible refine LocksLow.set_busData_busErr ?_) | fail_if_no_progress (with_reducible refine LocksLow.set_busData ?_) | fail_if_no_progress (with_reducible refine LocksLow.set_busErr ?_) | refine LocksLow.of_eq (congrArg Prod.fst ‹l1Fill _ _ _ _ = _›) ?_ | decide | split | unfold id | dsimp only

theorem locks_memWrite x0 x1 x2 s (h : LocksLow s) : LocksLow (memWrite x0 x1 x2 s) :=
  .via (frame_memWrite _ _ _ _ (m := 0x20) .refl rfl) rfl h

theorem locks_acoreStore x0 x1 x2 x3 s (h : LocksLow s) : LocksLow (acoreStore x0 x1 x2 x3 s) := by
  unfold acoreStore
  repeat' first | (with_reducible first | assumption | intro _ | refine locks_ddrAccess _ _ _ _ _ _ ?_ | refine locks_l1Fill _ _ _ _ ?_ | refine locks_memWrite _ _ _ _ ?_ | refine LocksLow.ite ?_ ?_) | fail_if_no_progress (with_reducible refine LocksLow.set_busData_busErr_l1 ?_) | fail_if_no_progress (with_reducible refine LocksLow.set_busData_busErr ?_) | fail_if_no_progress (with_reducible refine LocksLow.set_busData ?_) | fail_if_no_progress (with_reducible refine LocksLow.set_busErr ?_) | fail_if_no_progress (with_reducible refine LocksLow.set_l1 ?_) | refine LocksLow.of_eq (congrArg Prod.fst ‹l1Fill _ _ _ _ = _›) ?_ | decide | split | unfold id | dsimp only

theorem locks_l1DropAll x0 s (h : LocksLow s) : LocksLow (l1DropAll x0 s) :=
  .via (frame_l1DropAll _ _ (m := 0x1000) .refl rfl) rfl h

theorem locks_memTake x0 x1 x2 x3 x4 s (h : LocksLow s) : LocksLow (memTake x0 x1 x2 x3 x4 s) := by
  unfold memTake
  repeat' first | (with_reducible first | assumption | intro _ | refine locks_acoreLoad _ _ _ _ _ ?_ | refine locks_acoreStore _ _ _ _ _ ?_ | refine locks_ddrAccess _ _ _ _ _ _ ?_ | refine locks_l1DropAll _ _ ?_ | refine locks_memWrite _ _ _ _ ?_ | refine LocksLow.ite ?_ ?_) | fail_if_no_progress (with_reducible refine LocksLow.set_busData_busErr_l1 ?_) | fail_if_no_progress (with_reducible refine LocksLow.set_busData_busErr ?_) | fail_if_no_progress (with_reducible refine LocksLow.set_busData ?_) | fail_if_no_progress (with_reducible refine LocksLow.set_busErr ?_) | fail_if_no_progress (with_reducible refine LocksLow.set_l1 ?_) | decide | split | unfold id | dsimp only

theorem locks_memAccess x0 x1 x2 x3 x4 s (h : LocksLow s) : LocksLow (memAccess x0 x1 x2 x3 x4 s) := by
  unfold memAccess
  repeat' first | (with_reducible first | assumption | intro _ | refine locks_memTake _ _ _ _ _ _ ?_ | refine LocksLow.ite ?_ ?_) | fail_if_no_progress (with_reducible refine LocksLow.set_dmc ?_) | decide | split | unfold id | dsimp only

theorem locks_memSpan x0 x1 x2 x3 x4 s (h : LocksLow s) : LocksLow (memSpan x0 x1 x2 x3 x4 s) := by
  unfold memSpan
  repeat' first | (with_reducible first | assumption | intro _ | refine locks_busFails _ ?_ | refine locks_memAccess _ _ _ _ _ _ ?_ | refine LocksLow.ite ?_ ?_) | fail_if_no_progress (with_reducible refine LocksLow.set_busData ?_) | decide | split | unfold id | dsimp only

theorem locks_domMem x0 x1 x2 x3 x4 x5 s (h : LocksLow s) : LocksLow (domMem x0 x1 x2 x3 x4 x5 s) := by
  unfold domMem
  repeat' first | (with_reducible first | assumption | intro _ | refine locks_blockError _ _ _ _ _ ?_ | refine locks_busZero _ ?_ | refine locks_memSpan _ _ _ _ _ _ ?_ | refine LocksLow.ite ?_ ?_) | decide | split | unfold id | dsimp only

theorem locks_ev x0 x1 x2 x3 x4 s (h : LocksLow s) : LocksLow (ev x0 x1 x2 x3 x4 s) :=
  .via (frame_ev _ _ _ _ _ _ (m := 0x1800000100) .refl rfl) rfl h

theorem locks_busGives x0 s (h : LocksLow s) : LocksLow (busGives x0 s) :=
  .via (frame_busGives _ _ (m := 0xC) .refl rfl) rfl h

theorem locks_guardWrite x0 x1 x2 s (h : LocksLow s) : LocksLow (guardWrite x0 x1 x2 s) :=
  .via (frame_guardWrite _ _ _ _ (m := 0x1800000100) .refl rfl) rfl h

theorem locks_State_modHdr x0 x1 s (h : LocksLow s) : LocksLow (State.modHdr x0 x1 s) :=
  .via (frame_State_modHdr _ _ _ (m := 0x100) .refl rfl) rfl h

theorem locks_blockErrorP x0 x1 x2 x3 x4 x5 x6 s (h : LocksLow s) : LocksLow (blockErrorP x0 x1 x2 x3 x4 x5 x6 s) :=
  .via (frame_blockErrorP _ _ _ _ _ _ _ _ (m := 0x1800000100) .refl rfl) rfl h

theorem locks_bccClearEn s (h : LocksLow s) : LocksLow (bccClearEn s) := by
  unfold bccClearEn
  repeat' first | (with_reducible first | assumption | intro _ | refine locks_State_modBcc _ _ ?_ ?_ | refine locks_State_modHdr _ _ _ ?_ | refine locks_blockErrorP _ _ _ _ _ _ _ _ ?_ | refine LocksLow.ite ?_ ?_) | ((with_reducible refine (?_ : Bcc.locksLow _)); first | exact locks_same rfl (by assumption) | exact locks_filter rfl (by assumption) | exact locks_nil rfl) | decide | split | unfold id | dsimp only

theorem locks_bccSetEn s (h : LocksLow s) : LocksLow (bccSetEn s) := by
  unfold bccSetEn
  repeat' first | (with_reducible first | assumption | intro _ | refine locks_State_modBcc _ _ ?_ ?_ | refine locks_State_modHdr _ _ _ ?_ | refine locks_blockErrorP _ _ _ _ _ _ _ _ ?_ | refine LocksLow.ite ?_ ?_) | ((with_reducible refine (?_ : Bcc.locksLow _)); first | exact locks_same rfl (by assumption) | exact locks_filter rfl (by assumption) | exact locks_nil rfl) | decide | split | unfold id | dsimp only

theorem locks_freezeWrite x0 x1 x2 s (h : LocksLow s) : LocksLow (freezeWrite x0 x1 x2 s) :=
  .via (frame_freezeWrite _ _ _ _ (m := 0x1800006100) .refl rfl) rfl h

theorem locks_State_modCtrl x0 x1 s (h : LocksLow s) : LocksLow (State.modCtrl x0 x1 s) :=
  .via (frame_State_modCtrl _ _ _ (m := 0x8000) .refl rfl) rfl h

theorem locks_State_modSec x0 s (h : LocksLow s) : LocksLow (State.modSec x0 s) :=
  .via (frame_State_modSec _ _ (m := 0x80000000) .refl rfl) rfl h

theorem locks_State_modXmt x0 s (h : LocksLow s) : LocksLow (State.modXmt x0 s) :=
  .via (frame_State_modXmt _ _ (m := 0x20000) .refl rfl) rfl h

theorem locks_commitGrantEnd s (h : LocksLow s) : LocksLow (commitGrantEnd s) :=
  .via (frame_commitGrantEnd _ (m := 0x4000) .refl rfl) rfl h

theorem locks_dropLinks s (h : LocksLow s) : LocksLow (dropLinks s) :=
  .via (frame_dropLinks _ (m := 0x4000000000) .refl rfl) rfl h

theorem locks_lasersOff s (h : LocksLow s) : LocksLow (lasersOff s) :=
  .via (frame_lasersOff _ (m := 0xC200000) .refl rfl) rfl h

theorem locks_powerLit s (h : LocksLow s) : LocksLow (powerLit s) :=
  .via (frame_powerLit _ (m := 0x1800006900) .refl rfl) rfl h

theorem locks_resetRegs x0 x1 s (h : LocksLow s) : LocksLow (resetRegs x0 x1 s) :=
  .via (frame_resetRegs _ _ _ (m := 0x10) .refl rfl) rfl h

theorem locks_resetXmt s (h : LocksLow s) : LocksLow (resetXmt s) :=
  .via (frame_resetXmt _ (m := 0x10) .refl rfl) rfl h

theorem locks_gatesOff x0 s (h : LocksLow s) : LocksLow (gatesOff x0 s) :=
  .via (frame_gatesOff _ _ (m := 0xCB22000) .refl rfl) rfl h

theorem locks_tagDone x0 s (h : LocksLow s) : LocksLow (tagDone x0 s) :=
  .via (frame_tagDone _ _ (m := 0x8000) .refl rfl) rfl h

theorem locks_quietAccess x0 x1 x2 x3 s (h : LocksLow s) : LocksLow (quietAccess x0 x1 x2 x3 s) :=
  locks_memAccess x0 x1 x2 x3 .none s h

theorem locks_transferError x0 x1 s (h : LocksLow s) : LocksLow (transferError x0 x1 s) :=
  .via (frame_transferError _ _ _ (m := 0x1800000180) .refl rfl) rfl h

theorem locks_engPiece x0 x1 x2 x3 x4 s (h : LocksLow s) : LocksLow (engPiece x0 x1 x2 x3 x4 s) := by
  unfold engPiece
  repeat' first | (with_reducible first | assumption | intro _ | refine locks_blockError _ _ _ _ _ ?_ | refine locks_ev _ _ _ _ _ _ ?_ | refine locks_quietAccess _ _ _ _ _ ?_ | refine locks_transferError _ _ _ ?_ | refine LocksLow.ite ?_ ?_) | decide | split | unfold id | dsimp only

theorem locks_engWrite x0 x1 x2 x3 x4 s (h : LocksLow s) : LocksLow (engWrite x0 x1 x2 x3 x4 s) := by
  have lp : ∀ (f : Nat → Nat → Option Nat → State → State) fuel a n w t, LocksLow t → (∀ a b c t, LocksLow t → LocksLow (f a b c t)) →
      LocksLow (linePieces f fuel a n w t) := by
    intro f fuel
    induction fuel with
    | zero => intro a n w t ht _; exact ht
    | succ _ ih => intro a n w t ht k; unfold linePieces; exact .ite ht (ih _ _ _ _ (k _ _ _ _ ht) k)
  unfold engWrite
  exact lp _ _ _ _ _ _ h fun _ _ _ _ ht => locks_engPiece _ _ _ _ _ _ ht

theorem locks_adaptSave x0 s (h : LocksLow s) : LocksLow (adaptSave x0 s) := by
  unfold adaptSave
  repeat' first | (with_reducible first | assumption | intro _ | refine locks_engWrite _ _ _ _ _ _ ?_ | refine LocksLow.ite ?_ ?_) | decide | split | unfold id | dsimp only

theorem locks_asqLine x0 x1 s (h : LocksLow s) : LocksLow (asqLine x0 x1 s) :=
  .via (frame_asqLine _ _ _ (m := 0x2000) .refl rfl) rfl h

theorem locks_clearActive x0 x1 s (h : LocksLow s) : LocksLow (clearActive x0 x1 s) :=
  .via (frame_clearActive _ _ _ (m := 0x100000) .refl rfl) rfl h

theorem locks_endLeave x0 s (h : LocksLow s) : LocksLow (endLeave x0 s) :=
  .via (frame_endLeave _ _ (m := 0x6000) .refl rfl) rfl h

theorem locks_healthAdd x0 x1 x2 s (h : LocksLow s) : LocksLow (healthAdd x0 x1 x2 s) :=
  .via (frame_healthAdd _ _ _ _ (m := 0x8000) .refl rfl) rfl h

theorem locks_levelsFall x0 s (h : LocksLow s) : LocksLow (levelsFall x0 s) :=
  .via (frame_levelsFall _ _ (m := 0x20C300080) .refl rfl) rfl h

theorem locks_postResult x0 x1 s (h : LocksLow s) : LocksLow (postResult x0 x1 s) :=
  .via (frame_postResult _ _ _ (m := 0x102000) .refl rfl) rfl h

theorem locks_unloadEnds x0 x1 s (h : LocksLow s) : LocksLow (unloadEnds x0 x1 s) :=
  .via (frame_unloadEnds _ _ _ (m := 0x1000000) .refl rfl) rfl h

theorem locks_taskEnd x0 x1 x2 x3 s (h : LocksLow s) : LocksLow (taskEnd x0 x1 x2 x3 s) := by
  unfold taskEnd
  repeat' first | (with_reducible first | assumption | intro _ | refine locks_adaptSave _ _ ?_ | refine locks_asqLine _ _ _ ?_ | refine locks_clearActive _ _ _ ?_ | refine locks_endLeave _ _ ?_ | refine locks_ev _ _ _ _ _ _ ?_ | refine locks_healthAdd _ _ _ _ ?_ | refine locks_levelsFall _ _ ?_ | refine locks_postResult _ _ _ ?_ | refine locks_tagDone _ _ ?_ | refine locks_unloadEnds _ _ _ ?_ | refine LocksLow.ite ?_ ?_) | decide | split | unfold id | dsimp only

theorem locks_srstAsq x0 s (h : LocksLow s) : LocksLow (srstAsq x0 s) := by
  unfold srstAsq
  repeat' first | (with_reducible first | assumption | intro _ | refine locks_gatesOff _ _ ?_ | refine locks_tagDone _ _ ?_ | refine locks_taskEnd _ _ _ _ _ ?_ | refine LocksLow.ite ?_ ?_) | fail_if_no_progress (with_reducible refine LocksLow.set_asq ?_) | decide | split | unfold id | dsimp only

theorem locks_srstEvr s (h : LocksLow s) : LocksLow (srstEvr s) :=
  .via (frame_srstEvr _ (m := 0x800000010) .refl rfl) rfl h

theorem locks_srstLdp s (h : LocksLow s) : LocksLow (srstLdp s) :=
  .via (frame_srstLdp _ (m := 0x400000) .refl rfl) rfl h

theorem locks_srstLlt s (h : LocksLow s) : LocksLow (srstLlt s) :=
  .via (frame_srstLlt _ (m := 0x1A0C306190) .refl rfl) rfl h

theorem locks_srstOpt s (h : LocksLow s) : LocksLow (srstOpt s) :=
  .via (frame_srstOpt _ (m := 0x7A1DB2AB92) .refl rfl) rfl h

theorem locks_srstRwc x0 s (h : LocksLow s) : LocksLow (srstRwc x0 s) :=
  .via (frame_srstRwc _ _ (m := 0x1A0CB22190) .refl rfl) rfl h

theorem locks_srstSpin s (h : LocksLow s) : LocksLow (srstSpin s) :=
  .via (frame_srstSpin _ (m := 0x2000000) .refl rfl) rfl h

theorem locks_srstSve x0 s (h : LocksLow s) : LocksLow (srstSve x0 s) :=
  .via (frame_srstSve _ _ (m := 0x7A1DB2AB92) .refl rfl) rfl h

theorem locks_srstVlk s (h : LocksLow s) : LocksLow (srstVlk s) :=
  .via (frame_srstVlk _ (m := 0x4000000010) .refl rfl) rfl h

theorem locks_tpeDiscard s (h : LocksLow s) : LocksLow (tpeDiscard s) :=
  .via (frame_tpeDiscard _ (m := 0x800000) .refl rfl) rfl h

theorem locks_trainLink x0 s (h : LocksLow s) : LocksLow (trainLink x0 s) :=
  .via (frame_trainLink _ _ (m := 0xA000) .refl rfl) rfl h

theorem locks_zeroKst s (h : LocksLow s) : LocksLow (zeroKst s) :=
  .via (frame_zeroKst _ (m := 0x80000000) .refl rfl) rfl h

theorem locks_srstBlock x0 x1 s (h : LocksLow s) : LocksLow (srstBlock x0 x1 s) := by
  unfold srstBlock
  try dsimp only
  split
  all_goals repeat' first | (with_reducible first | assumption | intro _ | refine locks_State_modCtrl _ _ _ ?_ | refine locks_State_modSec _ _ ?_ | refine locks_State_modXmt _ _ ?_ | refine locks_commitGrantEnd _ ?_ | refine locks_dropLinks _ ?_ | refine locks_lasersOff _ ?_ | refine locks_powerLit _ ?_ | refine locks_resetRegs _ _ _ ?_ | refine locks_resetXmt _ ?_ | refine locks_srstAsq _ _ ?_ | refine locks_srstEvr _ ?_ | refine locks_srstLdp _ ?_ | refine locks_srstLlt _ ?_ | refine locks_srstOpt _ ?_ | refine locks_srstRwc _ _ ?_ | refine locks_srstSpin _ ?_ | refine locks_srstSve _ _ ?_ | refine locks_srstVlk _ ?_ | refine locks_tpeDiscard _ ?_ | refine locks_trainLink _ _ ?_ | refine locks_zeroKst _ ?_ | refine LocksLow.ite ?_ ?_) | ((with_reducible refine (?_ : Bcc.locksLow _)); first | exact locks_same rfl (by assumption) | exact locks_filter rfl (by assumption) | exact locks_nil rfl) | fail_if_no_progress (with_reducible refine LocksLow.set_hce ?_) | fail_if_no_progress (with_reducible refine LocksLow.set_lgr ?_) | fail_if_no_progress (with_reducible refine LocksLow.set_rvr ?_) | fail_if_no_progress (with_reducible refine LocksLow.set_cst ?_) | fail_if_no_progress (with_reducible refine LocksLow.set_sve ?_) | fail_if_no_progress (with_reducible refine LocksLow.set_psi ?_) | fail_if_no_progress (with_reducible refine LocksLow.set_lsr ?_) | fail_if_no_progress (with_reducible refine LocksLow.set_dmc ?_) | fail_if_no_progress (with_reducible refine LocksLow.set_bcc ?_ ?_) | fail_if_no_progress (with_reducible refine LocksLow.set_trm ?_) | fail_if_no_progress (with_reducible refine LocksLow.set_lif ?_) | fail_if_no_progress (with_reducible refine LocksLow.set_cal ?_) | decide | split | unfold id | dsimp only

theorem locks_softReset x0 x1 x2 s (h : LocksLow s) : LocksLow (softReset x0 x1 x2 s) := by
  unfold softReset
  repeat' first | (with_reducible first | assumption | intro _ | refine locks_State_modHdr _ _ _ ?_ | refine locks_blockError _ _ _ _ _ ?_ | refine locks_srstBlock _ _ _ ?_ | refine LocksLow.ite ?_ ?_) | decide | split | unfold id | dsimp only

theorem locks_ctlWrite x0 x1 x2 x3 s (h : LocksLow s) : LocksLow (ctlWrite x0 x1 x2 x3 s) := by
  unfold ctlWrite
  repeat' first | (with_reducible first | assumption | intro _ | refine locks_State_modHdr _ _ _ ?_ | refine locks_bccClearEn _ ?_ | refine locks_bccSetEn _ ?_ | refine locks_freezeWrite _ _ _ _ ?_ | refine locks_softReset _ _ _ _ ?_ | refine LocksLow.ite ?_ ?_) | ((with_reducible refine (?_ : Bcc.locksLow _)); first | exact locks_same rfl (by assumption) | exact locks_filter rfl (by assumption) | exact locks_nil rfl) | decide | split | unfold id | dsimp only

theorem locks_errClear x0 x1 s (h : LocksLow s) : LocksLow (errClear x0 x1 s) :=
  .via (frame_errClear _ _ _ (m := 0x100) .refl rfl) rfl h

theorem locks_irqSet x0 x1 x2 s (h : LocksLow s) : LocksLow (irqSet x0 x1 x2 s) :=
  .via (frame_irqSet _ _ _ _ (m := 0x100) .refl rfl) rfl h

theorem locks_routeWrite x0 x1 x2 s (h : LocksLow s) : LocksLow (routeWrite x0 x1 x2 s) :=
  .via (frame_routeWrite _ _ _ _ (m := 0x1800000110) .refl rfl) rfl h

theorem locks_headerWrite x0 x1 x2 x3 x4 s (h : LocksLow s) : LocksLow (headerWrite x0 x1 x2 x3 x4 s) := by
  unfold headerWrite
  repeat' first | (with_reducible first | assumption | intro _ | refine locks_State_modHdr _ _ _ ?_ | refine locks_ctlWrite _ _ _ _ _ ?_ | refine locks_errClear _ _ _ ?_ | refine locks_irqSet _ _ _ _ ?_ | refine locks_routeWrite _ _ _ _ ?_ | refine LocksLow.ite ?_ ?_) | decide | split | unfold id | dsimp only

theorem locks_readRegAt x0 x1 x2 s (h : LocksLow s) : LocksLow (readRegAt x0 x1 x2 s) :=
  .via (frame_readRegAt _ _ _ _ (m := 0x780100015C) .refl rfl) rfl h

theorem locks_useWindow x0 x1 s (h : LocksLow s) : LocksLow (useWindow x0 x1 s) :=
  .via (frame_useWindow _ _ _ (m := 0x100) .refl rfl) rfl h

theorem locks_evrCommit s (h : LocksLow s) : LocksLow (evrCommit s) :=
  .via (frame_evrCommit _ (m := 0x5800000180) .refl rfl) rfl h

theorem locks_evrStore s (h : LocksLow s) : LocksLow (evrStore s) :=
  .via (frame_evrStore _ (m := 0x1800000100) .refl rfl) rfl h

theorem locks_lifSeal s (h : LocksLow s) : LocksLow (lifSeal s) :=
  .via (frame_lifSeal _ (m := 0x1000000000) .refl rfl) rfl h

theorem locks_lifSnap s (h : LocksLow s) : LocksLow (lifSnap s) :=
  .via (frame_lifSnap _ (m := 0x1000000000) .refl rfl) rfl h

theorem locks_storeFields x0 x1 x2 x3 s (h : LocksLow s) : LocksLow (storeFields x0 x1 x2 x3 s) :=
  .via (frame_storeFields _ _ _ _ _ (m := 0x1800000110) .refl rfl) rfl h

theorem locks_swset x0 s (h : LocksLow s) : LocksLow (swset x0 s) :=
  .via (frame_swset _ _ (m := 0x2000) .refl rfl) rfl h

theorem locks_twinAccess x0 x1 x2 s (h : LocksLow s) : LocksLow (twinAccess x0 x1 x2 s) :=
  .via (frame_twinAccess _ _ _ _ (m := 0x1800000154) .refl rfl) rfl h

theorem locks_walkQueue s (h : LocksLow s) : LocksLow (walkQueue s) :=
  .via (frame_walkQueue _ (m := 0x6000) .refl rfl) rfl h

theorem locks_writeAddgo x0 s (h : LocksLow s) : LocksLow (writeAddgo x0 s) :=
  .via (frame_writeAddgo _ _ (m := 0x1800000100) .refl rfl) rfl h

theorem locks_writeBase x0 x1 s (h : LocksLow s) : LocksLow (writeBase x0 x1 s) :=
  .via (frame_writeBase _ _ _ (m := 0x1800000180) .refl rfl) rfl h

theorem locks_writeCalAdj x0 s (h : LocksLow s) : LocksLow (writeCalAdj x0 s) :=
  .via (frame_writeCalAdj _ _ (m := 0x3800000110) .refl rfl) rfl h

theorem locks_writeCalCmd x0 s (h : LocksLow s) : LocksLow (writeCalCmd x0 s) :=
  .via (frame_writeCalCmd _ _ (m := 0x3800000910) .refl rfl) rfl h

theorem locks_writeClkDom x0 x1 s (h : LocksLow s) : LocksLow (writeClkDom x0 x1 s) :=
  .via (frame_writeClkDom _ _ _ (m := 0x1800000110) .refl rfl) rfl h

theorem locks_writeCur x0 x1 s (h : LocksLow s) : LocksLow (writeCur x0 x1 s) :=
  .via (frame_writeCur _ _ _ (m := 0x800000000) .refl rfl) rfl h

theorem locks_writeOp x0 x1 s (h : LocksLow s) : LocksLow (writeOp x0 x1 s) :=
  .via (frame_writeOp _ _ _ (m := 0x6000) .refl rfl) rfl h

theorem locks_writePdoff x0 s (h : LocksLow s) : LocksLow (writePdoff x0 s) :=
  .via (frame_writePdoff _ _ (m := 0x180003E990) .refl rfl) rfl h

theorem locks_writePfcfg x0 s (h : LocksLow s) : LocksLow (writePfcfg x0 s) :=
  .via (frame_writePfcfg _ _ (m := 0x1800000110) .refl rfl) rfl h

theorem locks_writePllen x0 s (h : LocksLow s) : LocksLow (writePllen x0 s) :=
  .via (frame_writePllen _ _ (m := 0x1A1FB2A590) .refl rfl) rfl h

theorem locks_State_modPwr x0 s (h : LocksLow s) : LocksLow (State.modPwr x0 s) :=
  .via (frame_State_modPwr _ _ (m := 0x800) .refl rfl) rfl h

theorem locks_State_modHce x0 s (h : LocksLow s) : LocksLow (State.modHce x0 s) :=
  .via (frame_State_modHce _ _ (m := 0x8000) .refl rfl) rfl h

theorem locks_backWrite x0 x1 x2 x3 s (h : LocksLow s) : LocksLow (backWrite x0 x1 x2 x3 s) := by
  unfold backWrite
  repeat' first | (with_reducible first | assumption | intro _ | refine locks_bccWrite _ _ _ _ _ ?_ | refine locks_memWrite _ _ _ _ ?_ | refine LocksLow.ite ?_ ?_) | ((with_reducible refine (?_ : Bcc.locksLow _)); first | exact locks_same rfl (by assumption) | exact locks_filter rfl (by assumption) | exact locks_nil rfl) | decide | split | unfold id | dsimp only

theorem locks_l1CleanLine x0 x1 s (h : LocksLow s) : LocksLow (l1CleanLine x0 x1 s) := by
  unfold l1CleanLine
  repeat' first | (with_reducible first | assumption | intro _ | refine locks_backWrite _ _ _ _ _ ?_ | refine LocksLow.ite ?_ ?_) | fail_if_no_progress (with_reducible refine LocksLow.set_l1 ?_) | decide | split | unfold id | dsimp only

theorem locks_l1CleanAll x0 s (h : LocksLow s) : LocksLow (l1CleanAll x0 s) := by
  unfold l1CleanAll
  repeat' first | (with_reducible first | assumption | intro _ | refine locks_l1CleanLine _ _ _ ?_ | refine LocksLow.foldl (fun _ _ _ => ?_) ?_ | refine LocksLow.ite ?_ ?_) | fail_if_no_progress (with_reducible refine LocksLow.set_l1 ?_) | decide | split | unfold id | dsimp only

theorem locks_beginEntry x0 s (h : LocksLow s) : LocksLow (beginEntry x0 s) := by
  unfold beginEntry
  repeat' first | (with_reducible first | assumption | intro _ | refine locks_State_modHce _ _ ?_ | refine locks_State_modPwr _ _ ?_ | refine locks_l1CleanAll _ _ ?_ | refine LocksLow.foldl (fun _ _ _ => ?_) ?_ | refine LocksLow.ite ?_ ?_) | decide | split | unfold id | dsimp only

theorem locks_refusePreq x0 s (h : LocksLow s) : LocksLow (refusePreq x0 s) :=
  .via (frame_refusePreq _ _ (m := 0x1800000180) .refl rfl) rfl h

theorem locks_unwindDim s (h : LocksLow s) : LocksLow (unwindDim s) :=
  .via (frame_unwindDim _ (m := 0x1800000980) .refl rfl) rfl h

theorem locks_releaseHeld s (h : LocksLow s) : LocksLow (releaseHeld s) := by
  unfold releaseHeld
  repeat' first | (with_reducible first | assumption | intro _ | refine locks_memTake _ _ _ _ _ _ ?_ | refine LocksLow.foldl (fun _ _ _ => ?_) ?_ | refine LocksLow.ite ?_ ?_) | fail_if_no_progress (with_reducible refine LocksLow.set_dmc ?_) | decide | split | unfold id | dsimp only

theorem locks_refreshEnds s (h : LocksLow s) : LocksLow (refreshEnds s) := by
  unfold refreshEnds
  repeat' first | (with_reducible first | assumption | intro _ | refine locks_State_modPwr _ _ ?_ | refine locks_releaseHeld _ ?_ | refine LocksLow.ite ?_ ?_) | decide | split | unfold id | dsimp only

theorem locks_unwindEntry x0 s (h : LocksLow s) : LocksLow (unwindEntry x0 s) := by
  unfold unwindEntry
  repeat' first | (with_reducible first | assumption | intro _ | refine locks_State_modHce _ _ ?_ | refine locks_State_modPwr _ _ ?_ | refine locks_ev _ _ _ _ _ _ ?_ | refine locks_refreshEnds _ ?_ | refine LocksLow.ite ?_ ?_) | decide | split | unfold id | dsimp only

theorem locks_powerGo x0 s (h : LocksLow s) : LocksLow (powerGo x0 s) := by
  unfold powerGo
  repeat' first | (with_reducible first | assumption | intro _ | refine locks_State_drawn _ ?_ | refine locks_State_modPwr _ _ ?_ | refine locks_beginEntry _ _ ?_ | refine locks_refusePreq _ _ ?_ | refine locks_unwindDim _ ?_ | refine locks_unwindEntry _ _ ?_ | refine LocksLow.ite ?_ ?_) | decide | split | unfold id | dsimp only

theorem locks_writePreq x0 s (h : LocksLow s) : LocksLow (writePreq x0 s) := by
  unfold writePreq
  repeat' first | (with_reducible first | assumption | intro _ | refine locks_powerGo _ _ ?_ | refine locks_storeFields _ _ _ _ _ ?_ | refine LocksLow.ite ?_ ?_) | decide | split | unfold id | dsimp only

theorem locks_writeProfile x0 s (h : LocksLow s) : LocksLow (writeProfile x0 s) :=
  .via (frame_writeProfile _ _ (m := 0x1800000300) .refl rfl) rfl h

theorem locks_writeRdyctl x0 s (h : LocksLow s) : LocksLow (writeRdyctl x0 s) :=
  .via (frame_writeRdyctl _ _ (m := 0x1800008300) .refl rfl) rfl h

theorem locks_State_modVlk x0 s (h : LocksLow s) : LocksLow (State.modVlk x0 s) :=
  .via (frame_State_modVlk _ _ (m := 0x4000000000) .refl rfl) rfl h

theorem locks_pmonClr x0 s (h : LocksLow s) : LocksLow (pmonClr x0 s) :=
  .via (frame_pmonClr _ _ (m := 0x4011600000) .refl rfl) rfl h

theorem locks_pmonSnap x0 s (h : LocksLow s) : LocksLow (pmonSnap x0 s) :=
  .via (frame_pmonSnap _ _ (m := 0x4011600000) .refl rfl) rfl h

theorem locks_retarget x0 s (h : LocksLow s) : LocksLow (retarget x0 s) :=
  .via (frame_retarget _ _ (m := 0x1A00000100) .refl rfl) rfl h

theorem locks_writeImgcmd x0 s (h : LocksLow s) : LocksLow (writeImgcmd x0 s) :=
  .via (frame_writeImgcmd _ _ (m := 0x5800000190) .refl rfl) rfl h

theorem locks_writeOrphan x0 s (h : LocksLow s) : LocksLow (writeOrphan x0 s) :=
  .via (frame_writeOrphan _ _ (m := 0x5800000190) .refl rfl) rfl h

theorem locks_dmcInitGo s (h : LocksLow s) : LocksLow (dmcInitGo s) :=
  .via (frame_dmcInitGo _ (m := 0x1820000100) .refl rfl) rfl h

theorem locks_pprGo x0 s (h : LocksLow s) : LocksLow (pprGo x0 s) :=
  .via (frame_pprGo _ _ (m := 0x1820002110) .refl rfl) rfl h

theorem locks_rowClear x0 s (h : LocksLow s) : LocksLow (rowClear x0 s) :=
  .via (frame_rowClear _ _ (m := 0x20000000) .refl rfl) rfl h

theorem locks_bccDrop x0 s (h : LocksLow s) : LocksLow (bccDrop x0 s) := locks_filter rfl h

theorem locks_invalLine x0 x1 s (h : LocksLow s) : LocksLow (invalLine x0 x1 s) := by
  unfold invalLine
  split
  · next c hc =>
    have hl := (locks_hit h hc).1
    have hw : LocksLow (if x0 then writeBack c s else s) := .ite (locks_writeBack _ _ h) h
    dsimp only
    split
    · next hk => exact locks_same rfl (locks_bccPut { c with valid := false, dirty := false, data := 0 } _ hw (fun _ => hl (.inl hk)))
    · exact locks_bccDrop _ _ hw
  · exact h

theorem locks_raiseLine x0 s (h : LocksLow s) : LocksLow (raiseLine x0 s) :=
  .via (frame_raiseLine _ _ (m := 0x2000) .refl rfl) rfl h

theorem locks_setRegWords x0 x1 x2 s (h : LocksLow s) : LocksLow (setRegWords x0 x1 x2 s) :=
  .via (frame_setRegWords _ _ _ _ (m := 0x10) .refl rfl) rfl h

theorem locks_splitGo x0 s (h : LocksLow s) : LocksLow (splitGo x0 s) := by
  unfold splitGo
  repeat' first | (with_reducible first | assumption | intro _ | refine locks_invalLine _ _ _ ?_ | refine locks_memWrite _ _ _ _ ?_ | refine locks_raiseLine _ _ ?_ | refine locks_setRegWords _ _ _ _ ?_ | refine locks_storeFields _ _ _ _ _ ?_ | refine LocksLow.ite ?_ ?_) | fail_if_no_progress (with_reducible refine LocksLow.set_dmc ?_) | decide | split | unfold id | dsimp only

theorem locks_dropWrite x0 s (h : LocksLow s) : LocksLow (dropWrite x0 s) :=
  .via (frame_dropWrite _ _ (m := 0x38080) .refl rfl) rfl h

theorem locks_finish x0 x1 s (h : LocksLow s) : LocksLow (finish x0 x1 s) :=
  .via (frame_finish _ _ _ (m := 0x18080) .refl rfl) rfl h

theorem locks_modCmd x0 x1 s (h : LocksLow s) : LocksLow (modCmd x0 x1 s) :=
  .via (frame_modCmd _ _ _ (m := 0x8000) .refl rfl) rfl h

theorem locks_State_modAsq x0 x1 s (h : LocksLow s) : LocksLow (State.modAsq x0 x1 s) :=
  .via (frame_State_modAsq _ _ _ (m := 0x100000) .refl rfl) rfl h

theorem locks_asqAbortReq x0 s (h : LocksLow s) : LocksLow (asqAbortReq x0 s) :=
  .via (frame_asqAbortReq _ _ (m := 0x1A0C302180) .refl rfl) rfl h

theorem locks_cancelPending x0 s (h : LocksLow s) : LocksLow (cancelPending x0 s) :=
  .via (frame_cancelPending _ _ (m := 0x10A000) .refl rfl) rfl h

theorem locks_askLeave x0 s (h : LocksLow s) : LocksLow (askLeave x0 s) :=
  .via (frame_askLeave _ _ (m := 0x1800106100) .refl rfl) rfl h

theorem locks_State_modGrp x0 x1 s (h : LocksLow s) : LocksLow (State.modGrp x0 x1 s) :=
  .via (frame_State_modGrp _ _ _ (m := 0x800000) .refl rfl) rfl h

theorem locks_engLoad x0 x1 x2 x3 s (h : LocksLow s) : LocksLow (engLoad x0 x1 x2 x3 s) := by
  have lp : ∀ (f : Nat → Nat → Option Nat → State → State) fuel a n w t, LocksLow t → (∀ a b c t, LocksLow t → LocksLow (f a b c t)) →
      LocksLow (linePieces f fuel a n w t) := by
    intro f fuel
    induction fuel with
    | zero => intro a n w t ht _; exact ht
    | succ _ ih => intro a n w t ht k; unfold linePieces; exact .ite ht (ih _ _ _ _ (k _ _ _ _ ht) k)
  unfold engLoad
  exact lp _ _ _ _ _ _ h fun _ _ _ _ ht => locks_engPiece _ _ _ _ _ _ ht

theorem locks_dlFetch x0 s (h : LocksLow s) : LocksLow (dlFetch x0 s) := by
  unfold dlFetch
  repeat' first | (with_reducible first | assumption | intro _ | refine locks_engLoad _ _ _ _ _ ?_ | refine LocksLow.ite ?_ ?_) | decide | split | unfold id | dsimp only

theorem locks_buildSkip x0 x1 x2 s (h : LocksLow s) : LocksLow (buildSkip x0 x1 x2 s) := by
  unfold buildSkip
  repeat' first | (with_reducible first | assumption | intro _ | refine locks_State_modGrp _ _ _ ?_ | refine locks_dlFetch _ _ ?_ | refine locks_ev _ _ _ _ _ _ ?_ | refine LocksLow.ite ?_ ?_) | decide | split | unfold id | dsimp only

theorem locks_loadLane x0 s (h : LocksLow s) : LocksLow (loadLane x0 s) :=
  .via (frame_loadLane _ _ (m := 0x80000000) .refl rfl) rfl h

theorem locks_State_modRwc x0 x1 s (h : LocksLow s) : LocksLow (State.modRwc x0 x1 s) :=
  .via (frame_State_modRwc _ _ _ (m := 0x200000) .refl rfl) rfl h

theorem locks_adaptWord x0 x1 x2 s (h : LocksLow s) : LocksLow (adaptWord x0 x1 x2 s) :=
  .via (frame_adaptWord _ _ _ _ (m := 0x200080) .refl rfl) rfl h

theorem locks_forceCoefs x0 s (h : LocksLow s) : LocksLow (forceCoefs x0 s) :=
  .via (frame_forceCoefs _ _ (m := 0x200000) .refl rfl) rfl h

theorem locks_loadCoefs x0 x1 s (h : LocksLow s) : LocksLow (loadCoefs x0 x1 s) :=
  .via (frame_loadCoefs _ _ _ (m := 0x200000) .refl rfl) rfl h

theorem locks_loadSettings x0 x1 x2 x3 s (h : LocksLow s) : LocksLow (loadSettings x0 x1 x2 x3 s) :=
  .via (frame_loadSettings _ _ _ _ _ (m := 0x200000) .refl rfl) rfl h

theorem locks_loadAdaptive x0 x1 s (h : LocksLow s) : LocksLow (loadAdaptive x0 x1 s) := by
  unfold loadAdaptive
  repeat' first | (with_reducible first | assumption | intro _ | refine locks_State_modRwc _ _ _ ?_ | refine locks_adaptWord _ _ _ _ ?_ | refine locks_engLoad _ _ _ _ _ ?_ | refine locks_forceCoefs _ _ ?_ | refine locks_loadCoefs _ _ _ ?_ | refine locks_loadSettings _ _ _ _ _ ?_ | refine LocksLow.ite ?_ ?_) | decide | split | unfold id | dsimp only

theorem locks_zoneCopy x0 s (h : LocksLow s) : LocksLow (zoneCopy x0 s) := by
  unfold zoneCopy
  repeat' first | (with_reducible first | assumption | intro _ | refine locks_State_modRwc _ _ _ ?_ | refine locks_engLoad _ _ _ _ _ ?_ | refine locks_ev _ _ _ _ _ _ ?_ | refine locks_loadAdaptive _ _ _ ?_ | refine LocksLow.ite ?_ ?_) | decide | split | unfold id | dsimp only

theorem locks_promote x0 s (h : LocksLow s) : LocksLow (promote x0 s) := by
  unfold promote
  repeat' first | (with_reducible first | assumption | intro _ | refine locks_State_modAsq _ _ _ ?_ | refine locks_askLeave _ _ ?_ | refine locks_asqLine _ _ _ ?_ | refine locks_buildSkip _ _ _ _ ?_ | refine locks_loadLane _ _ ?_ | refine locks_taskEnd _ _ _ _ _ ?_ | refine locks_zoneCopy _ _ ?_ | refine LocksLow.ite ?_ ?_) | decide | split | unfold id | dsimp only

theorem locks_abortTag x0 x1 s (h : LocksLow s) : LocksLow (abortTag x0 x1 s) := by
  unfold abortTag
  repeat' first | (with_reducible first | assumption | intro _ | refine locks_State_modAsq _ _ _ ?_ | refine locks_asqAbortReq _ _ ?_ | refine locks_cancelPending _ _ ?_ | refine locks_promote _ _ ?_ | refine LocksLow.ite ?_ ?_) | decide | split | unfold id | dsimp only

theorem locks_stopTasks x0 s (h : LocksLow s) : LocksLow (stopTasks x0 s) := by
  unfold stopTasks
  repeat' first | (with_reducible first | assumption | intro _ | refine locks_abortTag _ _ _ ?_ | refine LocksLow.foldl (fun _ _ _ => ?_) ?_ | refine LocksLow.ite ?_ ?_) | decide | split | unfold id | dsimp only

theorem locks_stopCmd x0 s (h : LocksLow s) : LocksLow (stopCmd x0 s) := by
  unfold stopCmd
  repeat' first | (with_reducible first | assumption | intro _ | refine locks_dropWrite _ _ ?_ | refine locks_finish _ _ _ ?_ | refine locks_modCmd _ _ _ ?_ | refine locks_stopTasks _ _ ?_ | refine LocksLow.ite ?_ ?_) | decide | split | unfold id | dsimp only

theorem locks_matchCmd x0 x1 x2 s (h : LocksLow s) : LocksLow (matchCmd x0 x1 x2 s) := by
  unfold matchCmd
  repeat' first | (with_reducible first | assumption | intro _ | refine locks_State_modHce _ _ ?_ | refine locks_ev _ _ _ _ _ _ ?_ | refine locks_stopCmd _ _ ?_ | refine LocksLow.ite ?_ ?_) | decide | split | unfold id | dsimp only

theorem locks_writeAbortReq x0 s (h : LocksLow s) : LocksLow (writeAbortReq x0 s) := by
  unfold writeAbortReq
  repeat' first | (with_reducible first | assumption | intro _ | refine locks_matchCmd _ _ _ _ ?_ | refine locks_storeFields _ _ _ _ _ ?_ | refine LocksLow.ite ?_ ?_) | decide | split | unfold id | dsimp only

theorem locks_writeDmcCfg x0 s (h : LocksLow s) : LocksLow (writeDmcCfg x0 s) :=
  .via (frame_writeDmcCfg _ _ (m := 0x1800000110) .refl rfl) rfl h

theorem locks_writeLgrWin x0 s (h : LocksLow s) : LocksLow (writeLgrWin x0 s) :=
  .via (frame_writeLgrWin _ _ (m := 0x1800010190) .refl rfl) rfl h

theorem locks_writeNsdom x0 x1 s (h : LocksLow s) : LocksLow (writeNsdom x0 x1 s) :=
  .via (frame_writeNsdom _ _ _ (m := 0x1800000110) .refl rfl) rfl h

theorem locks_rangeResult x0 x1 s (h : LocksLow s) : LocksLow (rangeResult x0 x1 s) := by
  unfold rangeResult
  repeat' first | (with_reducible first | assumption | intro _ | refine locks_State_modBcc _ _ ?_ ?_ | refine locks_raiseLine _ _ ?_ | refine LocksLow.ite ?_ ?_) | ((with_reducible refine (?_ : Bcc.locksLow _)); first | exact locks_same rfl (by assumption) | exact locks_filter rfl (by assumption) | exact locks_nil rfl) | decide | split | unfold id | dsimp only

theorem locks_rangeGo x0 s (h : LocksLow s) : LocksLow (rangeGo x0 s) := by
  unfold rangeGo
  repeat' first | (with_reducible first | assumption | intro _ | refine locks_State_modBcc _ _ ?_ ?_ | refine locks_blockErrorP _ _ _ _ _ _ _ _ ?_ | refine locks_rangeResult _ _ _ ?_ | refine LocksLow.ite ?_ ?_) | ((with_reducible refine (?_ : Bcc.locksLow _)); first | exact locks_same rfl (by assumption) | exact locks_filter rfl (by assumption) | exact locks_nil rfl) | decide | split | unfold id | dsimp only

theorem locks_writeOpcmd x0 s (h : LocksLow s) : LocksLow (writeOpcmd x0 s) := by
  unfold writeOpcmd
  repeat' first | (with_reducible first | assumption | intro _ | refine locks_rangeGo _ _ ?_ | refine locks_storeFields _ _ _ _ _ ?_ | refine LocksLow.ite ?_ ?_) | decide | split | unfold id | dsimp only

theorem locks_writeOpenctl x0 x1 s (h : LocksLow s) : LocksLow (writeOpenctl x0 x1 s) :=
  .via (frame_writeOpenctl _ _ _ (m := 0x1800080100) .refl rfl) rfl h

theorem locks_State_modLdp x0 s (h : LocksLow s) : LocksLow (State.modLdp x0 s) :=
  .via (frame_State_modLdp _ _ (m := 0x400000) .refl rfl) rfl h

theorem locks_headretSet x0 x1 s (h : LocksLow s) : LocksLow (headretSet x0 x1 s) :=
  .via (frame_headretSet _ _ _ (m := 0x100000) .refl rfl) rfl h

theorem locks_ldpRun s (h : LocksLow s) : LocksLow (ldpRun s) :=
  .via (frame_ldpRun _ (m := 0x502000) .refl rfl) rfl h

theorem locks_writeAbort x0 x1 s (h : LocksLow s) : LocksLow (writeAbort x0 x1 s) := by
  unfold writeAbort
  repeat' first | (with_reducible first | assumption | intro _ | refine locks_abortTag _ _ _ ?_ | refine LocksLow.ite ?_ ?_) | decide | split | unfold id | dsimp only

theorem locks_writeCstAct x0 x1 s (h : LocksLow s) : LocksLow (writeCstAct x0 x1 s) :=
  .via (frame_writeCstAct _ _ _ (m := 0x1800182100) .refl rfl) rfl h

theorem locks_dlResult x0 x1 s (h : LocksLow s) : LocksLow (dlResult x0 x1 s) :=
  .via (frame_dlResult _ _ _ (m := 0x802000) .refl rfl) rfl h

theorem locks_dlStore x0 x1 x2 s (h : LocksLow s) : LocksLow (dlStore x0 x1 x2 s) := by
  unfold dlStore
  repeat' first | (with_reducible first | assumption | intro _ | refine locks_engWrite _ _ _ _ _ _ ?_ | refine LocksLow.foldl (fun _ _ _ => ?_) ?_ | refine LocksLow.ite ?_ ?_) | decide | split | unfold id | dsimp only

theorem locks_dlOpClear x0 s (h : LocksLow s) : LocksLow (dlOpClear x0 s) := by
  unfold dlOpClear
  repeat' first | (with_reducible first | assumption | intro _ | refine locks_dlFetch _ _ ?_ | refine locks_dlResult _ _ _ ?_ | refine locks_dlStore _ _ _ _ ?_ | refine LocksLow.ite ?_ ?_) | decide | split | unfold id | dsimp only

theorem locks_dlOpDelete x0 s (h : LocksLow s) : LocksLow (dlOpDelete x0 s) := by
  unfold dlOpDelete
  repeat' first | (with_reducible first | assumption | intro _ | refine locks_dlFetch _ _ ?_ | refine locks_dlResult _ _ _ ?_ | refine locks_dlStore _ _ _ _ ?_ | refine LocksLow.ite ?_ ?_) | decide | split | unfold id | dsimp only

theorem locks_dlRetire x0 s (h : LocksLow s) : LocksLow (dlRetire x0 s) := by
  unfold dlRetire
  repeat' first | (with_reducible first | assumption | intro _ | refine locks_engWrite _ _ _ _ _ _ ?_ | refine locks_ev _ _ _ _ _ _ ?_ | refine locks_raiseLine _ _ ?_ | refine LocksLow.ite ?_ ?_) | decide | split | unfold id | dsimp only

theorem locks_dlWarn x0 x1 s (h : LocksLow s) : LocksLow (dlWarn x0 x1 s) :=
  .via (frame_dlWarn _ _ _ (m := 0x1800802100) .refl rfl) rfl h

theorem locks_dlInsert x0 x1 s (h : LocksLow s) : LocksLow (dlInsert x0 x1 s) := by
  unfold dlInsert
  repeat' first | (with_reducible first | assumption | intro _ | refine locks_dlFetch _ _ ?_ | refine locks_dlResult _ _ _ ?_ | refine locks_dlRetire _ _ ?_ | refine locks_dlStore _ _ _ _ ?_ | refine locks_dlWarn _ _ _ ?_ | refine locks_healthAdd _ _ _ _ ?_ | refine LocksLow.foldl (fun _ _ _ => ?_) ?_ | refine LocksLow.ite ?_ ?_) | decide | split | unfold id | dsimp only

theorem locks_dlOpInsert x0 s (h : LocksLow s) : LocksLow (dlOpInsert x0 s) := by
  unfold dlOpInsert
  repeat' first | (with_reducible first | assumption | intro _ | refine locks_dlInsert _ _ _ ?_ | refine LocksLow.ite ?_ ?_) | fail_if_no_progress (with_reducible refine LocksLow.set_tpe ?_) | decide | split | unfold id | dsimp only

theorem locks_writeDlop x0 s (h : LocksLow s) : LocksLow (writeDlop x0 s) := by
  unfold writeDlop
  repeat' first | (with_reducible first | assumption | intro _ | refine locks_dlOpClear _ _ ?_ | refine locks_dlOpDelete _ _ ?_ | refine locks_dlOpInsert _ _ ?_ | refine LocksLow.ite ?_ ?_) | fail_if_no_progress (with_reducible refine LocksLow.set_tpe ?_) | decide | split | unfold id | dsimp only

theorem locks_writeFfpop x0 x1 s (h : LocksLow s) : LocksLow (writeFfpop x0 x1 s) :=
  .via (frame_writeFfpop _ _ _ (m := 0x400000) .refl rfl) rfl h

theorem locks_asqCancel x0 s (h : LocksLow s) : LocksLow (asqCancel x0 s) := by
  unfold asqCancel
  repeat' first | (with_reducible first | assumption | intro _ | refine locks_State_modAsq _ _ _ ?_ | refine locks_cancelPending _ _ ?_ | refine locks_promote _ _ ?_ | refine LocksLow.ite ?_ ?_) | decide | split | unfold id | dsimp only

theorem locks_asqCommit x0 s (h : LocksLow s) : LocksLow (asqCommit x0 s) :=
  .via (frame_asqCommit _ _ (m := 0x1800100100) .refl rfl) rfl h

theorem locks_writePcmd x0 x1 s (h : LocksLow s) : LocksLow (writePcmd x0 x1 s) := by
  unfold writePcmd
  repeat' first | (with_reducible first | assumption | intro _ | refine locks_asqCancel _ _ ?_ | refine locks_asqCommit _ _ ?_ | refine LocksLow.ite ?_ ?_) | decide | split | unfold id | dsimp only

theorem locks_writePtask x0 x1 x2 s (h : LocksLow s) : LocksLow (writePtask x0 x1 x2 s) :=
  .via (frame_writePtask _ _ _ _ (m := 0x100000) .refl rfl) rfl h

theorem locks_writeRegServo x0 x1 x2 x3 x4 s (h : LocksLow s) : LocksLow (writeRegServo x0 x1 x2 x3 x4 s) :=
  .via (frame_writeRegServo _ _ _ _ _ _ (m := 0x5A9FF2A190) .refl rfl) rfl h

theorem locks_writeRespop x0 x1 s (h : LocksLow s) : LocksLow (writeRespop x0 x1 s) :=
  .via (frame_writeRespop _ _ _ (m := 0x100000) .refl rfl) rfl h

theorem locks_writeRsfree x0 s (h : LocksLow s) : LocksLow (writeRsfree x0 s) :=
  .via (frame_writeRsfree _ _ (m := 0x400000) .refl rfl) rfl h

theorem locks_writeRegSeq x0 x1 x2 x3 x4 s (h : LocksLow s) : LocksLow (writeRegSeq x0 x1 x2 x3 x4 s) := by
  unfold writeRegSeq
  repeat' first | (with_reducible first | assumption | intro _ | refine locks_State_modLdp _ _ ?_ | refine locks_State_modRwc _ _ _ ?_ | refine locks_headretSet _ _ _ ?_ | refine locks_ldpRun _ ?_ | refine locks_pmonClr _ _ ?_ | refine locks_pmonSnap _ _ ?_ | refine locks_storeFields _ _ _ _ _ ?_ | refine locks_writeAbort _ _ _ ?_ | refine locks_writeCstAct _ _ _ ?_ | refine locks_writeDlop _ _ ?_ | refine locks_writeFfpop _ _ _ ?_ | refine locks_writePcmd _ _ _ ?_ | refine locks_writePtask _ _ _ _ ?_ | refine locks_writeRegServo _ _ _ _ _ _ ?_ | refine locks_writeRespop _ _ _ ?_ | refine locks_writeRsfree _ _ ?_ | refine LocksLow.ite ?_ ?_) | decide | split | unfold id | dsimp only

theorem locks_flushRegion x0 s (h : LocksLow s) : LocksLow (flushRegion x0 s) := by
  unfold flushRegion
  repeat' first | (with_reducible first | assumption | intro _ | refine locks_bccDrop _ _ ?_ | refine locks_ev _ _ _ _ _ _ ?_ | refine locks_writeBack _ _ ?_ | refine LocksLow.foldl (fun _ _ _ => ?_) ?_ | refine LocksLow.ite ?_ ?_) | ((with_reducible refine (?_ : Bcc.locksLow _)); first | exact locks_same rfl (by assumption) | exact locks_filter rfl (by assumption) | exact locks_nil rfl) | decide | split | unfold id | dsimp only

theorem locks_writeRegattr x0 x1 x2 s (h : LocksLow s) : LocksLow (writeRegattr x0 x1 x2 s) := by
  unfold writeRegattr
  repeat' first | (with_reducible first | assumption | intro _ | refine locks_blockErrorP _ _ _ _ _ _ _ _ ?_ | refine locks_flushRegion _ _ ?_ | refine locks_storeFields _ _ _ _ _ ?_ | refine LocksLow.ite ?_ ?_) | decide | split | unfold id | dsimp only

theorem locks_writeRvrCmd x0 s (h : LocksLow s) : LocksLow (writeRvrCmd x0 s) :=
  .via (frame_writeRvrCmd _ _ (m := 0x180005C100) .refl rfl) rfl h

theorem locks_writeRegMem x0 x1 x2 x3 x4 s (h : LocksLow s) : LocksLow (writeRegMem x0 x1 x2 x3 x4 s) := by
  unfold writeRegMem
  repeat' first | (with_reducible first | assumption | intro _ | refine locks_dmcInitGo _ ?_ | refine locks_pprGo _ _ ?_ | refine locks_rowClear _ _ ?_ | refine locks_splitGo _ _ ?_ | refine locks_storeFields _ _ _ _ _ ?_ | refine locks_writeAbortReq _ _ ?_ | refine locks_writeDmcCfg _ _ ?_ | refine locks_writeLgrWin _ _ ?_ | refine locks_writeNsdom _ _ _ ?_ | refine locks_writeOpcmd _ _ ?_ | refine locks_writeOpenctl _ _ _ ?_ | refine locks_writeRegSeq _ _ _ _ _ _ ?_ | refine locks_writeRegattr _ _ _ _ ?_ | refine locks_writeRvrCmd _ _ ?_ | refine LocksLow.ite ?_ ?_) | decide | split | unfold id | dsimp only

theorem locks_writeSegbudget x0 s (h : LocksLow s) : LocksLow (writeSegbudget x0 s) :=
  .via (frame_writeSegbudget _ _ (m := 0x1800000110) .refl rfl) rfl h

theorem locks_writeVlkCfg x0 s (h : LocksLow s) : LocksLow (writeVlkCfg x0 s) :=
  .via (frame_writeVlkCfg _ _ (m := 0x5800000190) .refl rfl) rfl h

theorem locks_writeVlkCmd x0 s (h : LocksLow s) : LocksLow (writeVlkCmd x0 s) :=
  .via (frame_writeVlkCmd _ _ (m := 0x5800002100) .refl rfl) rfl h

theorem locks_writeVlkLreq x0 s (h : LocksLow s) : LocksLow (writeVlkLreq x0 s) :=
  .via (frame_writeVlkLreq _ _ (m := 0x1800000110) .refl rfl) rfl h

theorem locks_writeVlkNode x0 s (h : LocksLow s) : LocksLow (writeVlkNode x0 s) :=
  .via (frame_writeVlkNode _ _ (m := 0x5800000100) .refl rfl) rfl h

theorem locks_writeRegVlk x0 x1 x2 x3 x4 s (h : LocksLow s) : LocksLow (writeRegVlk x0 x1 x2 x3 x4 s) := by
  unfold writeRegVlk
  repeat' first | (with_reducible first | assumption | intro _ | refine locks_State_modVlk _ _ ?_ | refine locks_pmonClr _ _ ?_ | refine locks_pmonSnap _ _ ?_ | refine locks_retarget _ _ ?_ | refine locks_storeFields _ _ _ _ _ ?_ | refine locks_writeImgcmd _ _ ?_ | refine locks_writeOrphan _ _ ?_ | refine locks_writeRegMem _ _ _ _ _ _ ?_ | refine locks_writeSegbudget _ _ ?_ | refine locks_writeVlkCfg _ _ ?_ | refine locks_writeVlkCmd _ _ ?_ | refine locks_writeVlkLreq _ _ ?_ | refine locks_writeVlkNode _ _ ?_ | refine LocksLow.ite ?_ ?_) | decide | split | unfold id | dsimp only

theorem locks_writeReqb x0 x1 s (h : LocksLow s) : LocksLow (writeReqb x0 x1 s) :=
  .via (frame_writeReqb _ _ _ (m := 0x1800006110) .refl rfl) rfl h

theorem locks_writeSwev x0 s (h : LocksLow s) : LocksLow (writeSwev x0 s) :=
  .via (frame_writeSwev _ _ (m := 0x1800000110) .refl rfl) rfl h

theorem locks_writeThmCmd x0 s (h : LocksLow s) : LocksLow (writeThmCmd x0 s) :=
  .via (frame_writeThmCmd _ _ (m := 0x190005E100) .refl rfl) rfl h

theorem locks_writeThmThr x0 s (h : LocksLow s) : LocksLow (writeThmThr x0 s) :=
  .via (frame_writeThmThr _ _ (m := 0x1800000110) .refl rfl) rfl h

theorem locks_writeWdtctl x0 s (h : LocksLow s) : LocksLow (writeWdtctl x0 s) :=
  .via (frame_writeWdtctl _ _ (m := 0x1800000310) .refl rfl) rfl h

theorem locks_writeWdtkick x0 s (h : LocksLow s) : LocksLow (writeWdtkick x0 s) :=
  .via (frame_writeWdtkick _ _ (m := 0x1800000300) .refl rfl) rfl h

theorem locks_writeWin x0 x1 s (h : LocksLow s) : LocksLow (writeWin x0 x1 s) :=
  .via (frame_writeWin _ _ _ (m := 0x800000000) .refl rfl) rfl h

theorem locks_writeReg x0 x1 x2 x3 x4 s (h : LocksLow s) : LocksLow (writeReg x0 x1 x2 x3 x4 s) := by
  unfold writeReg
  repeat' first | (with_reducible first | assumption | intro _ | refine locks_evrCommit _ ?_ | refine locks_evrStore _ ?_ | refine locks_lifSeal _ ?_ | refine locks_lifSnap _ ?_ | refine locks_routeWrite _ _ _ _ ?_ | refine locks_storeFields _ _ _ _ _ ?_ | refine locks_swset _ _ ?_ | refine locks_twinAccess _ _ _ _ ?_ | refine locks_walkQueue _ ?_ | refine locks_writeAddgo _ _ ?_ | refine locks_writeBase _ _ _ ?_ | refine locks_writeCalAdj _ _ ?_ | refine locks_writeCalCmd _ _ ?_ | refine locks_writeClkDom _ _ _ ?_ | refine locks_writeCur _ _ _ ?_ | refine locks_writeOp _ _ _ ?_ | refine locks_writePdoff _ _ ?_ | refine locks_writePfcfg _ _ ?_ | refine locks_writePllen _ _ ?_ | refine locks_writePreq _ _ ?_ | refine locks_writeProfile _ _ ?_ | refine locks_writeRdyctl _ _ ?_ | refine locks_writeRegVlk _ _ _ _ _ _ ?_ | refine locks_writeReqb _ _ _ ?_ | refine locks_writeSwev _ _ ?_ | refine locks_writeThmCmd _ _ ?_ | refine locks_writeThmThr _ _ ?_ | refine locks_writeWdtctl _ _ ?_ | refine locks_writeWdtkick _ _ ?_ | refine locks_writeWin _ _ _ ?_ | refine LocksLow.ite ?_ ?_) | decide | split | unfold id | dsimp only

theorem locks_wordAccess x0 x1 x2 x3 x4 x5 s (h : LocksLow s) : LocksLow (wordAccess x0 x1 x2 x3 x4 x5 s) := by
  unfold wordAccess
  repeat' first | (with_reducible first | assumption | intro _ | refine locks_busGives _ _ ?_ | refine locks_busZero _ ?_ | refine locks_guardWrite _ _ _ _ ?_ | refine locks_headerWrite _ _ _ _ _ _ ?_ | refine locks_readRegAt _ _ _ _ ?_ | refine locks_useWindow _ _ _ ?_ | refine locks_writeReg _ _ _ _ _ _ ?_ | refine LocksLow.ite ?_ ?_) | fail_if_no_progress (with_reducible refine LocksLow.set_busErr ?_) | decide | split | unfold id | dsimp only

theorem locks_pageAccess x0 x1 x2 x3 x4 s (h : LocksLow s) : LocksLow (pageAccess x0 x1 x2 x3 x4 s) := by
  unfold pageAccess
  repeat' first | (with_reducible first | assumption | intro _ | refine locks_blockError _ _ _ _ _ ?_ | refine locks_busZero _ ?_ | refine locks_wordAccess _ _ _ _ _ _ _ ?_ | refine LocksLow.ite ?_ ?_) | fail_if_no_progress (with_reducible refine LocksLow.set_busData ?_) | decide | split | unfold id | dsimp only

theorem locks_romAccess x0 x1 x2 x3 s (h : LocksLow s) : LocksLow (romAccess x0 x1 x2 x3 s) :=
  .via (frame_romAccess _ _ _ _ _ (m := 0xC) .refl rfl) rfl h

theorem locks_storeWindow x0 x1 x2 s (h : LocksLow s) : LocksLow (storeWindow x0 x1 x2 s) :=
  .via (frame_storeWindow _ _ _ _ (m := 0x180000010C) .refl rfl) rfl h

theorem locks_busOp x0 x1 x2 x3 x4 s (h : LocksLow s) : LocksLow (busOp x0 x1 x2 x3 x4 s) := by
  unfold busOp
  repeat' first | (with_reducible first | assumption | intro _ | refine locks_blockError _ _ _ _ _ ?_ | refine locks_busFails _ ?_ | refine locks_busZero _ ?_ | refine locks_domMem _ _ _ _ _ _ _ ?_ | refine locks_ev _ _ _ _ _ _ ?_ | refine locks_pageAccess _ _ _ _ _ _ ?_ | refine locks_romAccess _ _ _ _ _ ?_ | refine locks_storeWindow _ _ _ _ ?_ | refine LocksLow.ite ?_ ?_) | decide | split | unfold id | dsimp only

theorem locks_State_modSys x0 s (h : LocksLow s) : LocksLow (State.modSys x0 s) :=
  .via (frame_State_modSys _ _ (m := 0x200) .refl rfl) rfl h

theorem locks_writeUcachectl x0 x1 s (h : LocksLow s) : LocksLow (writeUcachectl x0 x1 s) := by
  unfold writeUcachectl
  repeat' first | (with_reducible first | assumption | intro _ | refine locks_State_modSys _ _ ?_ | refine locks_l1CleanAll _ _ ?_ | refine LocksLow.ite ?_ ?_) | decide | split | unfold id | dsimp only

theorem locks_l1Remove x0 x1 s (h : LocksLow s) : LocksLow (l1Remove x0 x1 s) :=
  .via (frame_l1Remove _ _ _ (m := 0x1000) .refl rfl) rfl h

theorem locks_writeUcacheop x0 x1 s (h : LocksLow s) : LocksLow (writeUcacheop x0 x1 s) := by
  unfold writeUcacheop
  repeat' first | (with_reducible first | assumption | intro _ | refine locks_l1CleanLine _ _ _ ?_ | refine locks_l1Remove _ _ _ ?_ | refine LocksLow.ite ?_ ?_) | decide | split | unfold id | dsimp only

theorem locks_csrWrite x0 x1 x2 s (h : LocksLow s) : LocksLow (csrWrite x0 x1 x2 s) := by
  unfold csrWrite
  repeat' first | (with_reducible first | assumption | intro _ | refine locks_writeUcachectl _ _ _ ?_ | refine locks_writeUcacheop _ _ _ ?_ | refine LocksLow.ite ?_ ?_) | fail_if_no_progress (with_reducible refine LocksLow.set_irq ?_) | decide | split | unfold id | dsimp only

theorem locks_dmaError x0 s (h : LocksLow s) : LocksLow (dmaError x0 s) :=
  .via (frame_dmaError _ _ (m := 0x1800000180) .refl rfl) rfl h

theorem locks_access x0 x1 x2 x3 s (h : LocksLow s) (k : ∀ t, LocksLow t → LocksLow (x3 t)) :
    LocksLow (access x0 x1 x2 x3 s) := by
  unfold access
  exact .ite (.ite (locks_useWindow _ _ _ (k _ h)) (locks_blockError _ _ _ _ _ h)) h

theorem locks_hdrAccess x0 x1 x2 s (h : LocksLow s) (k : ∀ a b t, LocksLow t → LocksLow (x2 a b t)) :
    LocksLow (hdrAccess x0 x1 x2 s) := by
  unfold hdrAccess
  exact locks_access _ _ _ _ _ h (k _ _)

theorem locks_coreReset s (h : LocksLow s) : LocksLow (coreReset s) := locks_nil (d := (coreReset s).bcc) rfl

theorem locks_wickReset x0 s (h : LocksLow s) : LocksLow (wickReset x0 s) := by
  unfold wickReset
  repeat' first | (with_reducible first | assumption | intro _ | refine locks_coreReset _ ?_ | refine LocksLow.ite ?_ ?_) | fail_if_no_progress (with_reducible refine LocksLow.set_many14 ?_) | fail_if_no_progress (with_reducible refine LocksLow.set_clk_cal ?_) | fail_if_no_progress (with_reducible refine LocksLow.set_us_sys ?_) | fail_if_no_progress (with_reducible refine LocksLow.set_us ?_) | fail_if_no_progress (with_reducible refine LocksLow.set_regs ?_) | fail_if_no_progress (with_reducible refine LocksLow.set_mem ?_) | fail_if_no_progress (with_reducible refine LocksLow.set_hdr ?_) | fail_if_no_progress (with_reducible refine LocksLow.set_sys ?_) | fail_if_no_progress (with_reducible refine LocksLow.set_clk ?_) | fail_if_no_progress (with_reducible refine LocksLow.set_pwr ?_) | fail_if_no_progress (with_reducible refine LocksLow.set_llt ?_) | fail_if_no_progress (with_reducible refine LocksLow.set_sec ?_) | fail_if_no_progress (with_reducible refine LocksLow.set_thm ?_) | fail_if_no_progress (with_reducible refine LocksLow.set_sup ?_) | fail_if_no_progress (with_reducible refine LocksLow.set_evr ?_) | fail_if_no_progress (with_reducible refine LocksLow.set_lif ?_) | fail_if_no_progress (with_reducible refine LocksLow.set_cal ?_) | decide | split | unfold id | dsimp only

theorem locks_elapse x0 s (h : LocksLow s) : LocksLow (elapse x0 s) :=
  .via (frame_elapse _ _ (m := 0x7800000B12) .refl rfl) rfl h

theorem locks_bistEvent x0 s (h : LocksLow s) : LocksLow (bistEvent x0 s) :=
  .via (frame_bistEvent _ _ (m := 0x1800000300) .refl rfl) rfl h

theorem locks_bistEventFree s (h : LocksLow s) : LocksLow (bistEventFree s) :=
  .via (frame_bistEventFree _ (m := 0x1800000380) .refl rfl) rfl h

theorem locks_dmcPoisonLine x0 s (h : LocksLow s) : LocksLow (dmcPoisonLine x0 s) :=
  .via (frame_dmcPoisonLine _ _ (m := 0x20000000) .refl rfl) rfl h

theorem locks_disableWay x0 x1 x2 s (h : LocksLow s) : LocksLow (disableWay x0 x1 x2 s) := by
  unfold disableWay
  repeat' first | (with_reducible first | assumption | intro _ | refine locks_State_modBcc _ _ ?_ ?_ | refine locks_dmcPoisonLine _ _ ?_ | refine locks_ev _ _ _ _ _ _ ?_ | refine locks_raiseLine _ _ ?_ | refine locks_writeBack _ _ ?_ | refine LocksLow.foldl (fun _ _ _ => ?_) ?_ | refine LocksLow.ite ?_ ?_) | ((with_reducible refine (?_ : Bcc.locksLow _)); first | exact locks_same rfl (by assumption) | exact locks_filter rfl (by assumption) | exact locks_nil rfl) | decide | split | unfold id | dsimp only

theorem locks_loseChannel x0 s (h : LocksLow s) : LocksLow (loseChannel x0 s) :=
  .via (frame_loseChannel _ _ (m := 0x1800038180) .refl rfl) rfl h

theorem locks_bistResults x0 s (h : LocksLow s) : LocksLow (bistResults x0 s) := by
  unfold bistResults
  repeat' first | (with_reducible first | assumption | intro _ | refine locks_State_modSys _ _ ?_ | refine locks_bistEvent _ _ ?_ | refine locks_bistEventFree _ ?_ | refine locks_disableWay _ _ _ _ ?_ | refine locks_loseChannel _ _ ?_ | refine LocksLow.foldl (fun _ _ _ => ?_) ?_ | refine LocksLow.ite ?_ ?_) | decide | split | unfold id | dsimp only

theorem locks_bootSlots x0 s (h : LocksLow s) : LocksLow (bootSlots x0 s) :=
  .via (frame_bootSlots _ _ (m := 0x1880000390) .refl rfl) rfl h

theorem locks_releaseCore x0 s (h : LocksLow s) : LocksLow (releaseCore x0 s) :=
  .via (frame_releaseCore _ _ (m := 0x1880080F80) .refl rfl) rfl h

theorem locks_setFld x0 x1 x2 x3 x4 x5 s (h : LocksLow s) : LocksLow (setFld x0 x1 x2 x3 x4 x5 s) :=
  .via (frame_setFld _ _ _ _ _ _ _ (m := 0x10) .refl rfl) rfl h

theorem locks_coldStart x0 s (h : LocksLow s) : LocksLow (coldStart x0 s) := by
  unfold coldStart
  repeat' first | (with_reducible first | assumption | intro _ | refine locks_State_modSys _ _ ?_ | refine locks_bistResults _ _ ?_ | refine locks_bootSlots _ _ ?_ | refine locks_ev _ _ _ _ _ _ ?_ | refine locks_releaseCore _ _ ?_ | refine locks_setFld _ _ _ _ _ _ _ ?_ | refine locks_trainLink _ _ ?_ | refine LocksLow.ite ?_ ?_) | decide | split | unfold id | dsimp only

theorem locks_startCore x0 s (h : LocksLow s) : LocksLow (startCore x0 s) := by
  unfold startCore
  repeat' first | (with_reducible first | assumption | intro _ | refine locks_State_modPwr _ _ ?_ | refine locks_State_modSys _ _ ?_ | refine locks_coldStart _ _ ?_ | refine LocksLow.ite ?_ ?_) | decide | split | unfold id | dsimp only

theorem locks_wakeRecord x0 x1 s (h : LocksLow s) : LocksLow (wakeRecord x0 x1 s) :=
  .via (frame_wakeRecord _ _ _ (m := 0x1800000900) .refl rfl) rfl h

theorem locks_zeroForPowerDown s (h : LocksLow s) : LocksLow (zeroForPowerDown s) :=
  .via (frame_zeroForPowerDown _ (m := 0x4080000000) .refl rfl) rfl h

theorem locks_darkEntry x0 x1 s (h : LocksLow s) : LocksLow (darkEntry x0 x1 s) := by
  unfold darkEntry
  repeat' first | (with_reducible first | assumption | intro _ | refine locks_State_modPwr _ _ ?_ | refine locks_State_modSys _ _ ?_ | refine locks_coreReset _ ?_ | refine locks_zeroForPowerDown _ ?_ | refine LocksLow.ite ?_ ?_) | decide | split | unfold id | dsimp only

theorem locks_closeFetch s (h : LocksLow s) : LocksLow (closeFetch s) :=
  .via (frame_closeFetch _ (m := 0x8000) .refl rfl) rfl h

theorem locks_enterRectify s (h : LocksLow s) : LocksLow (enterRectify s) :=
  .via (frame_enterRectify _ (m := 0x1A1FB2A180) .refl rfl) rfl h

theorem locks_gatesAllOff s (h : LocksLow s) : LocksLow (gatesAllOff s) :=
  .via (frame_gatesAllOff _ (m := 0xCB22000) .refl rfl) rfl h

theorem locks_lifBump x0 x1 s (h : LocksLow s) : LocksLow (lifBump x0 x1 s) :=
  .via (frame_lifBump _ _ _ (m := 0x1800000100) .refl rfl) rfl h

theorem locks_enterDim s (h : LocksLow s) : LocksLow (enterDim s) :=
  .via (frame_enterDim _ (m := 0x1800018980) .refl rfl) rfl h

theorem locks_lossEnd s (h : LocksLow s) : LocksLow (lossEnd s) := by
  unfold lossEnd
  repeat' first | (with_reducible first | assumption | intro _ | refine locks_darkEntry _ _ _ ?_ | refine locks_enterDim _ ?_ | refine locks_zeroForPowerDown _ ?_ | refine LocksLow.ite ?_ ?_) | decide | split | unfold id | dsimp only

theorem locks_retractLoaded x0 s (h : LocksLow s) : LocksLow (retractLoaded x0 s) :=
  .via (frame_retractLoaded _ _ (m := 0x1A1DB2A180) .refl rfl) rfl h

theorem locks_revokeLeaves x0 s (h : LocksLow s) : LocksLow (revokeLeaves x0 s) :=
  .via (frame_revokeLeaves _ _ (m := 0x1A0C306180) .refl rfl) rfl h

theorem locks_startCommit x0 s (h : LocksLow s) : LocksLow (startCommit x0 s) :=
  .via (frame_startCommit _ _ (m := 0x180005C100) .refl rfl) rfl h

theorem locks_lossStart s (h : LocksLow s) : LocksLow (lossStart s) := by
  unfold lossStart
  repeat' first | (with_reducible first | assumption | intro _ | refine locks_closeFetch _ ?_ | refine locks_enterRectify _ ?_ | refine locks_gatesAllOff _ ?_ | refine locks_lasersOff _ ?_ | refine locks_lifBump _ _ _ ?_ | refine locks_lossEnd _ ?_ | refine locks_raiseLine _ _ ?_ | refine locks_retractLoaded _ _ ?_ | refine locks_revokeLeaves _ _ ?_ | refine locks_startCommit _ _ ?_ | refine LocksLow.ite ?_ ?_) | fail_if_no_progress (with_reducible refine LocksLow.set_sup ?_) | decide | split | unfold id | dsimp only

theorem locks_freeBarrier x0 s (h : LocksLow s) : LocksLow (freeBarrier x0 s) :=
  .via (frame_freeBarrier _ _ (m := 0x10000) .refl rfl) rfl h

theorem locks_freeTag x0 s (h : LocksLow s) : LocksLow (freeTag x0 s) :=
  .via (frame_freeTag _ _ (m := 0x8000) .refl rfl) rfl h

theorem locks_releaseReader x0 s (h : LocksLow s) : LocksLow (releaseReader x0 s) :=
  .via (frame_releaseReader _ _ (m := 0x10000) .refl rfl) rfl h

theorem locks_releaseWaiting s (h : LocksLow s) : LocksLow (releaseWaiting s) :=
  .via (frame_releaseWaiting _ (m := 0x188003A180) .refl rfl) rfl h

theorem locks_stopOne x0 s (h : LocksLow s) : LocksLow (stopOne x0 s) := by
  unfold stopOne
  repeat' first | (with_reducible first | assumption | intro _ | refine locks_dropWrite _ _ ?_ | refine locks_freeBarrier _ _ ?_ | refine locks_freeTag _ _ ?_ | refine locks_modCmd _ _ _ ?_ | refine locks_releaseReader _ _ ?_ | refine locks_releaseWaiting _ ?_ | refine locks_stopTasks _ _ ?_ | refine LocksLow.ite ?_ ?_) | decide | split | unfold id | dsimp only

theorem locks_stopController x0 x1 s (h : LocksLow s) : LocksLow (stopController x0 x1 s) := by
  unfold stopController
  repeat' first | (with_reducible first | assumption | intro _ | refine locks_State_modCtrl _ _ _ ?_ | refine locks_State_modHce _ _ ?_ | refine locks_State_modPwr _ _ ?_ | refine locks_ev _ _ _ _ _ _ ?_ | refine locks_stopOne _ _ ?_ | refine LocksLow.foldl (fun _ _ _ => ?_) ?_ | refine LocksLow.ite ?_ ?_) | decide | split | unfold id | dsimp only

theorem locks_perstAction x0 s (h : LocksLow s) : LocksLow (perstAction x0 s) := by
  unfold perstAction
  repeat' first | (with_reducible first | assumption | intro _ | refine locks_State_modCtrl _ _ _ ?_ | refine locks_raiseLine _ _ ?_ | refine locks_stopController _ _ _ ?_ | refine LocksLow.ite ?_ ?_) | decide | split | unfold id | dsimp only

theorem locks_zeroMibs x0 s (h : LocksLow s) : LocksLow (zeroMibs x0 s) :=
  .via (frame_zeroMibs _ _ (m := 0x20000020) .refl rfl) rfl h

theorem locks_linkReset x0 x1 s (h : LocksLow s) : LocksLow (linkReset x0 x1 s) := by
  unfold linkReset
  repeat' first | (with_reducible first | assumption | intro _ | refine locks_ev _ _ _ _ _ _ ?_ | refine locks_perstAction _ _ ?_ | refine locks_trainLink _ _ ?_ | refine LocksLow.ite ?_ ?_) | decide | split | unfold id | dsimp only

theorem locks_abandonCommit s (h : LocksLow s) : LocksLow (abandonCommit s) :=
  .via (frame_abandonCommit _ (m := 0x180005C380) .refl rfl) rfl h

theorem locks_resetSteps x0 s (h : LocksLow s) : LocksLow (resetSteps x0 s) :=
  .via (frame_resetSteps _ _ (m := 0x1A1DB7E980) .refl rfl) rfl h

theorem locks_subsystemReset s (h : LocksLow s) : LocksLow (subsystemReset s) := by
  unfold subsystemReset
  repeat' first | (with_reducible first | assumption | intro _ | refine locks_State_modSys _ _ ?_ | refine locks_resetSteps _ _ ?_ | refine locks_stopController _ _ _ ?_ | refine LocksLow.foldl (fun _ _ _ => ?_) ?_ | refine LocksLow.ite ?_ ?_) | decide | split | unfold id | dsimp only

theorem locks_enterGlow s (h : LocksLow s) : LocksLow (enterGlow s) :=
  .via (frame_enterGlow _ (m := 0x1800018D90) .refl rfl) rfl h

theorem locks_powerEntered s (h : LocksLow s) : LocksLow (powerEntered s) := by
  unfold powerEntered
  repeat' first | (with_reducible first | assumption | intro _ | refine locks_State_modPwr _ _ ?_ | refine locks_darkEntry _ _ _ ?_ | refine locks_enterDim _ ?_ | refine locks_enterGlow _ ?_ | refine locks_ev _ _ _ _ _ _ ?_ | refine locks_powerLit _ ?_ | refine locks_unwindEntry _ _ ?_ | refine LocksLow.ite ?_ ?_) | decide | split | unfold id | dsimp only

theorem locks_noteWake x0 s (h : LocksLow s) : LocksLow (noteWake x0 s) :=
  .via (frame_noteWake _ _ (m := 0x800) .refl rfl) rfl h

theorem locks_clocksWake s (h : LocksLow s) : LocksLow (clocksWake s) :=
  .via (frame_clocksWake _ (m := 0x10) .refl rfl) rfl h

theorem locks_wakeFrom x0 x1 x2 s (h : LocksLow s) : LocksLow (wakeFrom x0 x1 x2 s) := by
  unfold wakeFrom
  repeat' first | (with_reducible first | assumption | intro _ | refine locks_State_modHce _ _ ?_ | refine locks_clocksWake _ ?_ | refine locks_powerLit _ ?_ | refine locks_startCore _ _ ?_ | refine locks_wakeRecord _ _ _ ?_ | refine LocksLow.ite ?_ ?_) | fail_if_no_progress (with_reducible refine LocksLow.set_sup ?_) | decide | split | unfold id | dsimp only

theorem locks_wakeAct x0 x1 s (h : LocksLow s) : LocksLow (wakeAct x0 x1 s) := by
  unfold wakeAct
  repeat' first | (with_reducible first | assumption | intro _ | refine locks_unwindEntry _ _ ?_ | refine locks_wakeFrom _ _ _ _ ?_ | refine LocksLow.ite ?_ ?_) | decide | split | unfold id | dsimp only

theorem locks_setLock x0 x1 s (h : LocksLow s) : LocksLow (setLock x0 x1 s) :=
  .via (frame_setLock _ _ _ (m := 0x400) .refl rfl) rfl h

theorem locks_gateChannels s (h : LocksLow s) : LocksLow (gateChannels s) :=
  .via (frame_gateChannels _ (m := 0x800) .refl rfl) rfl h

theorem locks_psReached x0 s (h : LocksLow s) : LocksLow (psReached x0 s) :=
  .via (frame_psReached _ _ (m := 0x18880) .refl rfl) rfl h

theorem locks_psProceed x0 s (h : LocksLow s) : LocksLow (psProceed x0 s) := by
  unfold psProceed
  repeat' first | (with_reducible first | assumption | intro _ | refine locks_beginEntry _ _ ?_ | refine locks_gateChannels _ ?_ | refine locks_psReached _ _ ?_ | refine LocksLow.ite ?_ ?_) | decide | split | unfold id | dsimp only

theorem locks_modSq x0 x1 x2 s (h : LocksLow s) : LocksLow (modSq x0 x1 x2 s) :=
  .via (frame_modSq _ _ _ _ (m := 0x8000) .refl rfl) rfl h

theorem locks_modCq x0 x1 x2 s (h : LocksLow s) : LocksLow (modCq x0 x1 x2 s) :=
  .via (frame_modCq _ _ _ _ (m := 0x8000) .refl rfl) rfl h

theorem locks_checkPause s (h : LocksLow s) : LocksLow (checkPause s) :=
  .via (frame_checkPause _ (m := 0x180000A100) .refl rfl) rfl h

theorem locks_fetchEffects x0 s (h : LocksLow s) : LocksLow (fetchEffects x0 s) :=
  .via (frame_fetchEffects _ _ (m := 0x18880) .refl rfl) rfl h

theorem locks_submitLeave x0 x1 x2 x3 x4 x5 x6 s (h : LocksLow s) : LocksLow (submitLeave x0 x1 x2 x3 x4 x5 x6 s) :=
  .via (frame_submitLeave _ _ _ _ _ _ _ _ (m := 0x1800006100) .refl rfl) rfl h

theorem locks_psBack s (h : LocksLow s) : LocksLow (psBack s) := by
  unfold psBack
  repeat' first | (with_reducible first | assumption | intro _ | refine locks_State_modHce _ _ ?_ | refine locks_State_modPwr _ _ ?_ | refine locks_refreshEnds _ ?_ | refine locks_submitLeave _ _ _ _ _ _ _ _ ?_ | refine LocksLow.ite ?_ ?_) | decide | split | unfold id | dsimp only

theorem locks_psUnwind s (h : LocksLow s) : LocksLow (psUnwind s) := by
  unfold psUnwind
  repeat' first | (with_reducible first | assumption | intro _ | refine locks_State_drawn _ ?_ | refine locks_State_modPwr _ _ ?_ | refine locks_ev _ _ _ _ _ _ ?_ | refine locks_psBack _ ?_ | refine LocksLow.ite ?_ ?_) | decide | split | unfold id | dsimp only

theorem locks_startCmd x0 s (h : LocksLow s) : LocksLow (startCmd x0 s) :=
  .via (frame_startCmd _ _ (m := 0x188003A180) .refl rfl) rfl h

theorem locks_takeOrd s (h : LocksLow s) : LocksLow (takeOrd s) :=
  .via (frame_takeOrd _ (m := 0x10000) .refl rfl) rfl h

theorem locks_enterCmd x0 x1 x2 x3 x4 s (h : LocksLow s) : LocksLow (enterCmd x0 x1 x2 x3 x4 s) := by
  unfold enterCmd
  repeat' first | (with_reducible first | assumption | intro _ | refine locks_State_modHce _ _ ?_ | refine locks_fetchEffects _ _ ?_ | refine locks_psUnwind _ ?_ | refine locks_startCmd _ _ ?_ | refine locks_takeOrd _ ?_ | refine LocksLow.ite ?_ ?_) | decide | split | unfold id | dsimp only

theorem locks_beginTurn x0 s (h : LocksLow s) : LocksLow (beginTurn x0 s) :=
  .via (frame_beginTurn _ _ (m := 0x8000) .refl rfl) rfl h

theorem locks_fetchNext x0 s (h : LocksLow s) : LocksLow (fetchNext x0 s) := by
  unfold fetchNext
  repeat' first | (with_reducible first | assumption | intro _ | refine locks_State_modHce _ _ ?_ | refine locks_beginTurn _ _ ?_ | refine locks_checkPause _ ?_ | refine locks_enterCmd _ _ _ _ _ _ ?_ | refine locks_ev _ _ _ _ _ _ ?_ | refine locks_modSq _ _ _ _ ?_ | refine locks_raiseLine _ _ ?_ | refine LocksLow.ite ?_ ?_) | decide | split | unfold id | dsimp only

theorem locks_withCmd {r : State} tag ops f s (h : LocksLow s) (k : ∀ c t, LocksLow t → LocksLow (f c t)) :
    LocksLow (after r (withCmd tag ops f s)) := by
  unfold withCmd
  refine LocksLow.next ?_
  split
  · exact .ite (k _ _ h) h
  · exact h

theorem locks_withNs {r : State} tag op f s (h : LocksLow s) (k : ∀ c n t, LocksLow t → LocksLow (f c n t)) :
    LocksLow (after r (withNs tag op f s)) := by
  unfold withNs
  refine locks_withCmd _ _ _ _ h fun c t ht => ?_
  split
  · exact k _ _ _ ht
  · exact locks_finish _ _ _ ht

theorem locks_modNs x0 x1 s (h : LocksLow s) : LocksLow (modNs x0 x1 s) :=
  .via (frame_modNs _ _ _ (m := 0x8000) .refl rfl) rfl h

theorem locks_preempt x0 x1 x2 x3 x4 s (h : LocksLow s) : LocksLow (preempt x0 x1 x2 x3 x4 s) := by
  unfold preempt
  repeat' first | (with_reducible first | assumption | intro _ | refine locks_modNs _ _ _ ?_ | refine locks_stopCmd _ _ ?_ | refine LocksLow.foldl (fun _ _ _ => ?_) ?_ | refine LocksLow.ite ?_ ?_) | decide | split | unfold id | dsimp only

theorem locks_finishDw x0 x1 x2 x3 s (h : LocksLow s) : LocksLow (finishDw x0 x1 x2 x3 s) :=
  .via (frame_finishDw _ _ _ _ _ (m := 0x18080) .refl rfl) rfl h

theorem locks_miConfigSet x0 x1 s (h : LocksLow s) : LocksLow (miConfigSet x0 x1 s).1 :=
  .via (frame_miConfigSet _ _ _ (m := 0x8000) .refl rfl) rfl h

theorem locks_miFinish x0 x1 x2 s (h : LocksLow s) : LocksLow (miFinish x0 x1 x2 s) :=
  .via (frame_miFinish _ _ _ _ (m := 0x18080) .refl rfl) rfl h

theorem locks_miVpdWrite x0 x1 s (h : LocksLow s) : LocksLow (miVpdWrite x0 x1 s) :=
  .via (frame_miVpdWrite _ _ _ (m := 0x8000) .refl rfl) rfl h

theorem locks_commitDurable s (h : LocksLow s) : LocksLow (commitDurable s) :=
  .via (frame_commitDurable _ (m := 0x180007E300) .refl rfl) rfl h

theorem locks_boundary x0 s (h : LocksLow s) : LocksLow (boundary x0 s) :=
  .via (frame_boundary _ _ (m := 0x1A0C302180) .refl rfl) rfl h

theorem locks_asqFault x0 x1 s (h : LocksLow s) : LocksLow (asqFault x0 x1 s) :=
  .via (frame_asqFault _ _ _ (m := 0x1A0C302180) .refl rfl) rfl h

theorem locks_headSwitch x0 s (h : LocksLow s) : LocksLow (headSwitch x0 s) :=
  .via (frame_headSwitch _ _ (m := 0x1810100100) .refl rfl) rfl h

theorem locks_State_modSve x0 x1 s (h : LocksLow s) : LocksLow (State.modSve x0 x1 s) :=
  .via (frame_State_modSve _ _ _ (m := 0x1000000) .refl rfl) rfl h

theorem locks_loadDemod x0 x1 s (h : LocksLow s) : LocksLow (loadDemod x0 x1 s) := by
  unfold loadDemod
  repeat' first | (with_reducible first | assumption | intro _ | refine locks_State_modSve _ _ _ ?_ | refine locks_engLoad _ _ _ _ _ ?_ | refine LocksLow.ite ?_ ?_) | decide | split | unfold id | dsimp only

theorem locks_pulseHead x0 s (h : LocksLow s) : LocksLow (pulseHead x0 s) := by
  unfold pulseHead
  repeat' first | (with_reducible first | assumption | intro _ | refine locks_headSwitch _ _ ?_ | refine locks_loadDemod _ _ _ ?_ | refine LocksLow.ite ?_ ?_) | decide | split | unfold id | dsimp only

theorem locks_pulseSeek x0 s (h : LocksLow s) : LocksLow (pulseSeek x0 s) :=
  .via (frame_pulseSeek _ _ (m := 0x1811102100) .refl rfl) rfl h

theorem locks_loadPulse x0 s (h : LocksLow s) : LocksLow (loadPulse x0 s) :=
  .via (frame_loadPulse _ _ (m := 0x11102000) .refl rfl) rfl h

theorem locks_retractPulse x0 s (h : LocksLow s) : LocksLow (retractPulse x0 s) :=
  .via (frame_retractPulse _ _ (m := 0x11000100) .refl rfl) rfl h

theorem locks_clkPrime x0 s (h : LocksLow s) : LocksLow (clkPrime x0 s) :=
  .via (frame_clkPrime _ _ (m := 0x200000) .refl rfl) rfl h

theorem locks_smSearch x0 s (h : LocksLow s) : LocksLow (smSearch x0 s) :=
  .via (frame_smSearch _ _ (m := 0x302000) .refl rfl) rfl h

theorem locks_blindPulse x0 s (h : LocksLow s) : LocksLow (blindPulse x0 s) :=
  .via (frame_blindPulse _ _ (m := 0x200000) .refl rfl) rfl h

theorem locks_bufRd x0 s (h : LocksLow s) : LocksLow (bufRd x0 s) :=
  .via (frame_bufRd _ _ (m := 0x100000) .refl rfl) rfl h

theorem locks_bufWr x0 s (h : LocksLow s) : LocksLow (bufWr x0 s) :=
  .via (frame_bufWr _ _ (m := 0x100000) .refl rfl) rfl h

theorem locks_ldpSubmit x0 s (h : LocksLow s) : LocksLow (ldpSubmit x0 s) :=
  .via (frame_ldpSubmit _ _ (m := 0x502080) .refl rfl) rfl h

theorem locks_tpeAcc x0 s (h : LocksLow s) : LocksLow (tpeAcc x0 s) :=
  .via (frame_tpeAcc _ _ (m := 0x800080) .refl rfl) rfl h

theorem locks_tpeEmit x0 s (h : LocksLow s) : LocksLow (tpeEmit x0 s) :=
  .via (frame_tpeEmit _ _ (m := 0x900000) .refl rfl) rfl h

theorem locks_sectSkip x0 s (h : LocksLow s) : LocksLow (sectSkip x0 s) :=
  .via (frame_sectSkip _ _ (m := 0x100000) .refl rfl) rfl h

theorem locks_statPulse x0 s (h : LocksLow s) : LocksLow (statPulse x0 s) :=
  .via (frame_statPulse _ _ (m := 0x202080) .refl rfl) rfl h

theorem locks_sectAdv x0 s (h : LocksLow s) : LocksLow (sectAdv x0 s) := by
  unfold sectAdv
  repeat' first | (with_reducible first | assumption | intro _ | refine locks_State_modAsq _ _ _ ?_ | refine locks_State_modRwc _ _ _ ?_ | refine locks_buildSkip _ _ _ _ ?_ | refine LocksLow.ite ?_ ?_) | decide | split | unfold id | dsimp only

theorem locks_pulses x0 x1 s (h : LocksLow s) : LocksLow (pulses x0 x1 s) := by
  have on : ∀ (k : Nat) (f : State → State) (t : State), (∀ u, LocksLow u → LocksLow (f u)) → LocksLow t →
      LocksLow (if x1.testBit k then f t else t) := fun k f t hf ht => .ite (hf t ht) ht
  unfold pulses
  exact (on 8 _ _ (fun u hu => locks_asqLine _ _ _ hu) (on 11 _ _ (fun u hu => locks_sectAdv _ _ hu) (on 9 _ _ (fun u hu => locks_statPulse _ _ hu) (on 10 _ _ (fun u hu => locks_sectSkip _ _ hu) (on 12 _ _ (fun u hu => locks_tpeEmit _ _ hu) (on 13 _ _ (fun u hu => locks_tpeAcc _ _ hu) (on 14 _ _ (fun u hu => locks_ldpSubmit _ _ hu) (on 15 _ _ (fun u hu => locks_bufWr _ _ hu) (on 16 _ _ (fun u hu => locks_bufRd _ _ hu) (on 17 _ _ (fun u hu => locks_blindPulse _ _ hu) (on 18 _ _ (fun u hu => locks_smSearch _ _ hu) (on 19 _ _ (fun u hu => locks_clkPrime _ _ hu) (on 20 _ _ (fun u hu => locks_retractPulse _ _ hu) (on 21 _ _ (fun u hu => locks_loadPulse _ _ hu) (on 22 _ _ (fun u hu => locks_pulseSeek _ _ hu) (on 23 _ _ (fun u hu => locks_pulseHead _ _ hu) h))))))))))))))))

theorem locks_takeLevels x0 x1 s (h : LocksLow s) : LocksLow (takeLevels x0 x1 s).1 :=
  .via (frame_takeLevels _ _ _ (m := 0x204300080) .refl rfl) rfl h

theorem locks_preheatFall x0 s (h : LocksLow s) : LocksLow (preheatFall x0 s) :=
  .via (frame_preheatFall _ _ (m := 0xC000000) .refl rfl) rfl h

theorem locks_State_modLaser x0 x1 s (h : LocksLow s) : LocksLow (State.modLaser x0 x1 s) :=
  .via (frame_State_modLaser _ _ _ (m := 0x8000000) .refl rfl) rfl h

theorem locks_psiQueue x0 x1 s (h : LocksLow s) : LocksLow (psiQueue x0 x1 s) :=
  .via (frame_psiQueue _ _ _ (m := 0x4000000) .refl rfl) rfl h

theorem locks_preheatRise x0 s (h : LocksLow s) : LocksLow (preheatRise x0 s) := by
  unfold preheatRise
  repeat' first | (with_reducible first | assumption | intro _ | refine locks_State_modLaser _ _ _ ?_ | refine locks_engLoad _ _ _ _ _ ?_ | refine locks_ev _ _ _ _ _ _ ?_ | refine locks_psiQueue _ _ _ ?_ | refine LocksLow.ite ?_ ?_) | decide | split | unfold id | dsimp only

theorem locks_takePreheat x0 x1 x2 s (h : LocksLow s) : LocksLow (takePreheat x0 x1 x2 s) := by
  unfold takePreheat
  repeat' first | (with_reducible first | assumption | intro _ | refine locks_preheatFall _ _ ?_ | refine locks_preheatRise _ _ ?_ | refine LocksLow.ite ?_ ?_) | decide | split | unfold id | dsimp only

theorem locks_ldpUnitgo x0 x1 s (h : LocksLow s) : LocksLow (ldpUnitgo x0 x1 s) :=
  .via (frame_ldpUnitgo _ _ _ (m := 0x100000) .refl rfl) rfl h

theorem locks_lsrUnitgo x0 x1 x2 s (h : LocksLow s) : LocksLow (lsrUnitgo x0 x1 x2 s) := by
  unfold lsrUnitgo
  repeat' first | (with_reducible first | assumption | intro _ | refine locks_State_modLaser _ _ _ ?_ | refine locks_engLoad _ _ _ _ _ ?_ | refine locks_ev _ _ _ _ _ _ ?_ | refine locks_psiQueue _ _ _ ?_ | refine LocksLow.ite ?_ ?_) | decide | split | unfold id | dsimp only

theorem locks_psiUnitgo x0 x1 s (h : LocksLow s) : LocksLow (psiUnitgo x0 x1 s) :=
  .via (frame_psiUnitgo _ _ _ (m := 0x4000000) .refl rfl) rfl h

theorem locks_rwcUnitgo x0 x1 s (h : LocksLow s) : LocksLow (rwcUnitgo x0 x1 s) :=
  .via (frame_rwcUnitgo _ _ _ (m := 0x200000) .refl rfl) rfl h

theorem locks_tpeUnitgo x0 x1 s (h : LocksLow s) : LocksLow (tpeUnitgo x0 x1 s) :=
  .via (frame_tpeUnitgo _ _ _ (m := 0x800000) .refl rfl) rfl h

theorem locks_trmUnitgo x0 x1 s (h : LocksLow s) : LocksLow (trmUnitgo x0 x1 s) :=
  .via (frame_trmUnitgo _ _ _ (m := 0x200000000) .refl rfl) rfl h

theorem locks_waitComes x0 x1 s (h : LocksLow s) : LocksLow (waitComes x0 x1 s) :=
  .via (frame_waitComes _ _ _ (m := 0x100000) .refl rfl) rfl h

theorem locks_unitgo x0 x1 x2 s (h : LocksLow s) : LocksLow (unitgo x0 x1 x2 s) := by
  unfold unitgo
  repeat' first | (with_reducible first | assumption | intro _ | refine locks_State_modAsq _ _ _ ?_ | refine locks_State_modSve _ _ _ ?_ | refine locks_ldpUnitgo _ _ _ ?_ | refine locks_lsrUnitgo _ _ _ _ ?_ | refine locks_psiUnitgo _ _ _ ?_ | refine locks_rwcUnitgo _ _ _ ?_ | refine locks_tpeUnitgo _ _ _ ?_ | refine locks_trmUnitgo _ _ _ ?_ | refine locks_waitComes _ _ _ ?_ | refine LocksLow.ite ?_ ?_) | decide | split | unfold id | dsimp only

theorem locks_issueWord x0 x1 x2 s (h : LocksLow s) : LocksLow (issueWord x0 x1 x2 s) := by
  unfold issueWord
  repeat' first | (with_reducible first | assumption | intro _ | refine locks_State_modAsq _ _ _ ?_ | refine locks_asqFault _ _ _ ?_ | refine locks_ev _ _ _ _ _ _ ?_ | refine locks_pulses _ _ _ ?_ | refine locks_takeLevels _ _ _ ?_ | refine locks_takePreheat _ _ _ _ ?_ | refine locks_unitgo _ _ _ _ ?_ | refine LocksLow.ite ?_ ?_) | refine LocksLow.of_eq (congrArg Prod.fst ‹takeLevels _ _ _ = _›) ?_ | decide | split | unfold id | dsimp only

theorem locks_mcFault x0 x1 s (h : LocksLow s) : LocksLow (mcFault x0 x1 s) := by
  unfold mcFault
  repeat' first | (with_reducible first | assumption | intro _ | refine locks_State_modAsq _ _ _ ?_ | refine locks_asqLine _ _ _ ?_ | refine locks_ev _ _ _ _ _ _ ?_ | refine locks_taskEnd _ _ _ _ _ ?_ | refine LocksLow.ite ?_ ?_) | decide | split | unfold id | dsimp only

theorem locks_fetchIssue x0 s (h : LocksLow s) : LocksLow (fetchIssue x0 s) := by
  unfold fetchIssue
  repeat' first | (with_reducible first | assumption | intro _ | refine locks_State_modAsq _ _ _ ?_ | refine locks_issueWord _ _ _ _ ?_ | refine locks_mcFault _ _ _ ?_ | refine LocksLow.ite ?_ ?_) | decide | split | unfold id | dsimp only

theorem locks_complete x0 x1 s (h : LocksLow s) : LocksLow (complete x0 x1 s) :=
  .via (frame_complete _ _ _ (m := 0x1A0C302180) .refl rfl) rfl h

theorem locks_fallThrough x0 s (h : LocksLow s) : LocksLow (fallThrough x0 s) := by
  unfold fallThrough
  repeat' first | (with_reducible first | assumption | intro _ | refine locks_complete _ _ _ ?_ | refine locks_mcFault _ _ _ ?_ | refine LocksLow.ite ?_ ?_) | decide | split | unfold id | dsimp only

theorem locks_advanceTo x0 s (h : LocksLow s) : LocksLow (advanceTo x0 s) :=
  .via (frame_advanceTo _ _ (m := 0x7800000B12) .refl rfl) rfl h

theorem locks_seqStep x0 x1 x2 s (h : LocksLow s) (k : ∀ t, LocksLow t → LocksLow (x2 t)) : LocksLow (seqStep x0 x1 x2 s) := by
  unfold seqStep
  exact .ite (k _ (.ite (locks_advanceTo _ _ h) h)) h

theorem locks_transfer x0 x1 x2 s (h : LocksLow s) : LocksLow (transfer x0 x1 x2 s) := by
  unfold transfer
  repeat' first | (with_reducible first | assumption | intro _ | refine locks_complete _ _ _ ?_ | refine locks_mcFault _ _ _ ?_ | refine LocksLow.ite ?_ ?_) | decide | split | unfold id | dsimp only

theorem locks_seqCallDo x0 s (h : LocksLow s) : LocksLow (seqCallDo x0 s) := by
  unfold seqCallDo
  repeat' first | (with_reducible first | assumption | intro _ | refine locks_State_modAsq _ _ _ ?_ | refine locks_complete _ _ _ ?_ | refine locks_mcFault _ _ _ ?_ | refine LocksLow.ite ?_ ?_) | decide | split | unfold id | dsimp only

theorem locks_testCond x0 s (h : LocksLow s) : LocksLow (testCond x0 s).2 :=
  .via (frame_testCond _ _ (m := 0x80) .refl rfl) rfl h

theorem locks_seqRetDo x0 s (h : LocksLow s) : LocksLow (seqRetDo x0 s) := by
  unfold seqRetDo
  repeat' first | (with_reducible first | assumption | intro _ | refine locks_State_modAsq _ _ _ ?_ | refine locks_complete _ _ _ ?_ | refine locks_fallThrough _ _ ?_ | refine locks_taskEnd _ _ _ _ _ ?_ | refine locks_testCond _ _ ?_ | refine LocksLow.ite ?_ ?_) | decide | split | unfold id | dsimp only

theorem locks_seqBranch x0 x1 s (h : LocksLow s) : LocksLow (seqBranch x0 x1 s) := by
  unfold seqBranch
  repeat' first | (with_reducible first | assumption | intro _ | refine locks_fallThrough _ _ ?_ | refine locks_testCond _ _ ?_ | refine locks_transfer _ _ _ _ ?_ | refine LocksLow.ite ?_ ?_) | decide | split | unfold id | dsimp only

theorem locks_seqDispatchDo x0 s (h : LocksLow s) : LocksLow (seqDispatchDo x0 s) := by
  unfold seqDispatchDo
  repeat' first | (with_reducible first | assumption | intro _ | refine locks_complete _ _ _ ?_ | refine locks_mcFault _ _ _ ?_ | refine LocksLow.ite ?_ ?_) | decide | split | unfold id | dsimp only

theorem locks_seqLoopDo x0 s (h : LocksLow s) : LocksLow (seqLoopDo x0 s) := by
  unfold seqLoopDo
  repeat' first | (with_reducible first | assumption | intro _ | refine locks_State_modAsq _ _ _ ?_ | refine locks_fallThrough _ _ ?_ | refine locks_transfer _ _ _ _ ?_ | refine LocksLow.ite ?_ ?_) | decide | split | unfold id | dsimp only

theorem locks_dlopCmd x0 x1 s (h : LocksLow s) : LocksLow (dlopCmd x0 x1 s) := by
  unfold dlopCmd
  repeat' first | (with_reducible first | assumption | intro _ | refine locks_access _ _ _ _ _ ?_ ?_ | refine locks_writeDlop _ _ ?_ | refine LocksLow.ite ?_ ?_) | decide | split | unfold id | dsimp only

theorem locks_retractEnd x0 s (h : LocksLow s) : LocksLow (retractEnd x0 s) :=
  .via (frame_retractEnd _ _ (m := 0x7801000B12) .refl rfl) rfl h

theorem locks_memGated x0 s (h : LocksLow s) : LocksLow (memGated x0 s) :=
  .via (frame_memGated _ _ (m := 0x180000010C) .refl rfl) rfl h

theorem locks_ddrTake x0 x1 x2 x3 x4 s (h : LocksLow s) : LocksLow (ddrTake x0 x1 x2 x3 x4 s) := by
  unfold ddrTake
  repeat' first | (with_reducible first | assumption | intro _ | refine locks_memAccess _ _ _ _ _ _ ?_ | refine locks_memGated _ _ ?_ | refine LocksLow.ite ?_ ?_) | fail_if_no_progress (with_reducible refine LocksLow.set_busData_busErr ?_) | fail_if_no_progress (with_reducible refine LocksLow.set_busData ?_) | fail_if_no_progress (with_reducible refine LocksLow.set_busErr ?_) | decide | split | unfold id | dsimp only

theorem locks_wayError x0 x1 x2 s (h : LocksLow s) : LocksLow (wayError x0 x1 x2 s) := by
  unfold wayError
  repeat' first | (with_reducible first | assumption | intro _ | refine locks_State_modBcc _ _ ?_ ?_ | refine locks_disableWay _ _ _ _ ?_ | refine LocksLow.ite ?_ ?_) | ((with_reducible refine (?_ : Bcc.locksLow _)); first | exact locks_same rfl (by assumption) | exact locks_filter rfl (by assumption) | exact locks_nil rfl) | decide | split | unfold id | dsimp only

theorem locks_rangeCmd x0 s (h : LocksLow s) : LocksLow (rangeCmd x0 s) := by
  unfold rangeCmd
  repeat' first | (with_reducible first | assumption | intro _ | refine locks_access _ _ _ _ _ ?_ ?_ | refine locks_writeOpcmd _ _ ?_ | refine LocksLow.ite ?_ ?_) | ((with_reducible refine (?_ : Bcc.locksLow _)); first | exact locks_same rfl (by assumption) | exact locks_filter rfl (by assumption) | exact locks_nil rfl) | decide | split | unfold id | dsimp only

theorem locks_zeroLine x0 s (h : LocksLow s) : LocksLow (zeroLine x0 s) := by
  have hd : ∀ a b c t, LocksLow t → LocksLow (dmcWrite a b c t) := fun a b c t ht => locks_dmcWrite a b c t ht
  unfold zeroLine
  dsimp only
  split
  · refine hd _ _ _ _ ?_
    split
    · next c hc => exact .ite (locks_bccPut _ _ h (locks_hit h hc).1) (locks_bccDrop _ _ h)
    · exact h
  · cases hc : bccHit x0 s with
    | some c =>
      dsimp only
      exact .ite (hd _ _ _ _ (locks_bccPut _ _ h (locks_hit h hc).1)) (locks_bccPut _ _ h (locks_hit h hc).1)
    | none =>
      dsimp only
      cases hx : allocWay x0 s with
      | some x =>
        dsimp only
        exact .ite (hd _ _ _ _ (locks_bccFill _ _ _ _ _ _ h (allocWay_low h hx))) (locks_bccFill _ _ _ _ _ _ h (allocWay_low h hx))
      | none => exact hd _ _ _ _ h

theorem locks_lockLine x0 s (h : LocksLow s) : LocksLow (lockLine x0 s).1 := by
  have hw : ∀ w u, lruWay (setOf x0) (List.range 12) u = some w → w < 12 := fun w u hx => List.mem_range.1 (lruWay_mem hx)
  unfold lockLine
  split
  · exact h
  · split
    · next c hc =>
      split
      · next hk => exact locks_bccPut _ _ h (fun _ => hk)
      · split
        · next w hx => exact locks_bccFill _ _ _ _ _ _ (locks_bccDrop _ _ h) (fun _ => hw _ _ hx)
        · exact h
    · split
      · next w hx =>
        have hw' : w < 12 := by
          unfold lockWay at hx
          split at hx
          · next r hr => exact Option.some.inj hx ▸ locks_reserved h hr
          · exact hw _ _ hx
        have hr := locks_lineRead (.dma Blk.bcc.row.type_) (x0 * 128) .none s h
        generalize lineRead (.dma Blk.bcc.row.type_) (x0 * 128) .none s = q at hr ⊢
        obtain ⟨u, p, q⟩ := q
        dsimp only at hr ⊢
        split
        · exact hr
        · exact locks_bccFill _ _ _ _ _ _ hr (fun _ => hw')
      · exact h

theorem locks_unlockLine x0 s (h : LocksLow s) : LocksLow (unlockLine x0 s) := by
  unfold unlockLine
  split
  · exact locks_bccDrop _ _ h
  · split
    · next c hc =>
      have hk := (locks_hit h hc).2
      exact locks_bccPut _ _ h (fun k => k.elim (fun k => nomatch k) (fun k => absurd (hk.symm.trans k) (by decide)))
    · exact h

theorem locks_rangeLine x0 x1 s (h : LocksLow s) : LocksLow (rangeLine x0 x1 s).1 := by
  unfold rangeLine
  split
  · dsimp only
    split
    · next c hc => exact locks_bccPut _ _ (locks_writeBack _ _ h) (locks_hit h hc).1
    · exact h
  · exact locks_invalLine _ _ _ h
  · exact locks_invalLine _ _ _ h
  · exact locks_zeroLine _ _ h
  · exact locks_lockLine _ _ h
  · exact locks_unlockLine _ _ h
  · exact h

theorem locks_rangeLines x0 x1 s (h : LocksLow s) : LocksLow (rangeLines x0 x1 s).1 := by
  induction x1 generalizing s with
  | nil => unfold rangeLines; exact h
  | cons _ _ ih =>
    unfold rangeLines
    repeat' first | (with_reducible first | assumption | refine ih _ ?_ | refine ih _ _ ?_ | refine ih _ _ _ ?_ | intro _ | refine locks_rangeLine _ _ _ ?_ | refine LocksLow.ite ?_ ?_) | refine LocksLow.of_eq (congrArg Prod.fst ‹rangeLine _ _ _ = _›) ?_ | refine LocksLow.of_eq (congrArg Prod.fst ‹rangeLines _ _ _ = _›) ?_ | decide | split | unfold id | dsimp only

theorem locks_rangeFinish s (h : LocksLow s) : LocksLow (rangeFinish s) := by
  unfold rangeFinish
  repeat' first | (with_reducible first | assumption | intro _ | refine locks_State_modBcc _ _ ?_ ?_ | refine locks_rangeLines _ _ _ ?_ | refine locks_rangeResult _ _ _ ?_ | refine LocksLow.ite ?_ ?_) | ((with_reducible refine (?_ : Bcc.locksLow _)); first | exact locks_same rfl (by assumption) | exact locks_filter rfl (by assumption) | exact locks_nil rfl) | refine LocksLow.of_eq (congrArg Prod.fst ‹rangeLines _ _ _ = _›) ?_ | decide | split | unfold id | dsimp only

theorem locks_mailbox {r : State} n f s (h : LocksLow s) (k : ∀ t, LocksLow t → LocksLow (f t)) :
    LocksLow (after r (mailbox n f s)) := by
  unfold mailbox
  refine LocksLow.next (.ite (k _ (locks_setFld _ _ _ _ _ _ _ ?_)) h)
  exact locks_State_modSec _ _ h

theorem locks_answer x0 x1 x2 s (h : LocksLow s) : LocksLow (answer x0 x1 x2 s) :=
  .via (frame_answer _ _ _ _ (m := 0x1880000100) .refl rfl) rfl h

theorem locks_newKey x0 x1 x2 x3 s (h : LocksLow s) : LocksLow (newKey x0 x1 x2 x3 s) :=
  .via (frame_newKey _ _ _ _ _ (m := 0x80000080) .refl rfl) rfl h

theorem locks_secPiece x0 x1 x2 s (h : LocksLow s) : LocksLow (secPiece x0 x1 x2 s) := by
  unfold secPiece
  repeat' first | (with_reducible first | assumption | intro _ | refine locks_quietAccess _ _ _ _ _ ?_ | refine LocksLow.ite ?_ ?_) | decide | split | unfold id | dsimp only

theorem locks_secWrite x0 x1 x2 s (h : LocksLow s) : LocksLow (secWrite x0 x1 x2 s) := by
  have lp : ∀ (f : Nat → Nat → Option Nat → State → State) fuel a n w t, LocksLow t → (∀ a b c t, LocksLow t → LocksLow (f a b c t)) →
      LocksLow (linePieces f fuel a n w t) := by
    intro f fuel
    induction fuel with
    | zero => intro a n w t ht _; exact ht
    | succ _ ih => intro a n w t ht k; unfold linePieces; exact .ite ht (ih _ _ _ _ (k _ _ _ _ ht) k)
  unfold secWrite
  exact lp _ _ _ _ _ _ h fun _ _ _ _ ht => locks_secPiece _ _ _ _ ht

theorem locks_respond x0 x1 x2 s (h : LocksLow s) : LocksLow (respond x0 x1 x2 s) := by
  unfold respond
  repeat' first | (with_reducible first | assumption | intro _ | refine locks_answer _ _ _ _ ?_ | refine locks_secWrite _ _ _ _ ?_ | refine LocksLow.ite ?_ ?_) | decide | split | unfold id | dsimp only

theorem locks_respondFree x0 s (h : LocksLow s) : LocksLow (respondFree x0 s) := by
  unfold respondFree
  repeat' first | (with_reducible first | assumption | intro _ | refine locks_State_drawn _ ?_ | refine locks_respond _ _ _ _ ?_ | refine LocksLow.ite ?_ ?_) | decide | split | unfold id | dsimp only

theorem locks_respondRecords x0 x1 s (h : LocksLow s) : LocksLow (respondRecords x0 x1 s) := by
  unfold respondRecords
  repeat' first | (with_reducible first | assumption | intro _ | refine locks_respond _ _ _ _ ?_ | refine LocksLow.ite ?_ ?_) | decide | split | unfold id | dsimp only

theorem locks_storeRecords x0 s (h : LocksLow s) : LocksLow (storeRecords x0 s) :=
  .via (frame_storeRecords _ _ (m := 0x80000000) .refl rfl) rfl h

theorem locks_snuff1 x0 s (h : LocksLow s) : LocksLow (snuff1 x0 s) :=
  .via (frame_snuff1 _ _ (m := 0x5A8CB22980) .refl rfl) rfl h

theorem locks_wakeNoted s (h : LocksLow s) : LocksLow (wakeNoted s) := by
  unfold wakeNoted
  repeat' first | (with_reducible first | assumption | intro _ | refine locks_State_drawn _ ?_ | refine locks_wakeAct _ _ _ ?_ | refine LocksLow.ite ?_ ?_) | decide | split | unfold id | dsimp only

theorem locks_snuff2 x0 s (h : LocksLow s) : LocksLow (snuff2 x0 s) :=
  .via (frame_snuff2 _ _ (m := 0x5A8CB22980) .refl rfl) rfl h

theorem locks_blowAlarm x0 s (h : LocksLow s) : LocksLow (blowAlarm x0 s) :=
  .via (frame_blowAlarm _ _ (m := 0x5A8CB22980) .refl rfl) rfl h

theorem locks_debugAnswer x0 x1 x2 x3 s (h : LocksLow s) : LocksLow (debugAnswer x0 x1 x2 x3 s) :=
  .via (frame_debugAnswer _ _ _ _ _ (m := 0x5A8CB22B80) .refl rfl) rfl h

theorem locks_criticalDark s (h : LocksLow s) : LocksLow (criticalDark s) := by
  unfold criticalDark
  repeat' first | (with_reducible first | assumption | intro _ | refine locks_darkEntry _ _ _ ?_ | refine locks_ev _ _ _ _ _ _ ?_ | refine LocksLow.ite ?_ ?_) | decide | split | unfold id | dsimp only

theorem locks_State_modThm x0 s (h : LocksLow s) : LocksLow (State.modThm x0 s) :=
  .via (frame_State_modThm _ _ (m := 0x100000000) .refl rfl) rfl h

theorem locks_failEnroll x0 x1 x2 s (h : LocksLow s) : LocksLow (failEnroll x0 x1 x2 s) :=
  .via (frame_failEnroll _ _ _ _ (m := 0x5800002100) .refl rfl) rfl h

theorem locks_judgeLantern x0 x1 x2 x3 x4 x5 x6 x7 s (h : LocksLow s) : LocksLow (judgeLantern x0 x1 x2 x3 x4 x5 x6 x7 s) :=
  .via (frame_judgeLantern _ _ _ _ _ _ _ _ _ (m := 0x5800002100) .refl rfl) rfl h

theorem locks_loadAllow s (h : LocksLow s) : LocksLow (loadAllow s) := by
  unfold loadAllow
  repeat' first | (with_reducible first | assumption | intro _ | refine locks_engLoad _ _ _ _ _ ?_ | refine LocksLow.ite ?_ ?_) | decide | split | unfold id | dsimp only

theorem locks_refuseEnroll x0 x1 s (h : LocksLow s) : LocksLow (refuseEnroll x0 x1 s) :=
  .via (frame_refuseEnroll _ _ _ (m := 0x1800002100) .refl rfl) rfl h

theorem locks_sendFrame x0 s (h : LocksLow s) : LocksLow (sendFrame x0 s) :=
  .via (frame_sendFrame _ _ (m := 0x4000002000) .refl rfl) rfl h

theorem locks_slotTo x0 x1 s (h : LocksLow s) : LocksLow (slotTo x0 x1 s) :=
  .via (frame_slotTo _ _ _ (m := 0x4000002000) .refl rfl) rfl h

theorem locks_takeHello x0 x1 s (h : LocksLow s) : LocksLow (takeHello x0 x1 s) :=
  .via (frame_takeHello _ _ _ (m := 0x5800002100) .refl rfl) rfl h

theorem locks_enrollStep x0 s (h : LocksLow s) : LocksLow (enrollStep x0 s) := by
  unfold enrollStep
  repeat' first | (with_reducible first | assumption | intro _ | refine locks_State_modVlk _ _ ?_ | refine locks_ev _ _ _ _ _ _ ?_ | refine locks_failEnroll _ _ _ _ ?_ | refine locks_judgeLantern _ _ _ _ _ _ _ _ _ ?_ | refine locks_loadAllow _ ?_ | refine locks_raiseLine _ _ ?_ | refine locks_refuseEnroll _ _ _ ?_ | refine locks_sendFrame _ _ ?_ | refine locks_slotTo _ _ _ ?_ | refine locks_takeHello _ _ _ ?_ | refine LocksLow.ite ?_ ?_) | decide | split | unfold id | dsimp only

theorem locks_notePolarity x0 x1 s (h : LocksLow s) : LocksLow (notePolarity x0 x1 s) :=
  .via (frame_notePolarity _ _ _ (m := 0x5800000100) .refl rfl) rfl h

theorem locks_vlkBump x0 s (h : LocksLow s) : LocksLow (vlkBump x0 s) :=
  .via (frame_vlkBump _ _ (m := 0x4000002000) .refl rfl) rfl h

theorem locks_vlkReceive x0 x1 x2 x3 x4 x5 x6 s (h : LocksLow s) (k : ∀ t, LocksLow t → LocksLow (x5 t))
    (k' : ∀ t, LocksLow t → LocksLow (x6 t)) : LocksLow (vlkReceive x0 x1 x2 x3 x4 x5 x6 s) := by
  unfold vlkReceive
  repeat' first | (with_reducible first | assumption | intro _ | refine locks_notePolarity _ _ _ ?_ | refine locks_vlkBump _ _ ?_ | refine locks_State_modVlk _ _ ?_ | refine LocksLow.ite ?_ ?_) | apply k | apply k' | decide | split | unfold id | dsimp only

theorem locks_modSlot x0 x1 s (h : LocksLow s) : LocksLow (modSlot x0 x1 s) :=
  .via (frame_modSlot _ _ _ (m := 0x4000000000) .refl rfl) rfl h

theorem locks_pollDone x0 x1 s (h : LocksLow s) : LocksLow (pollDone x0 x1 s) :=
  .via (frame_pollDone _ _ _ (m := 0x4000000000) .refl rfl) rfl h

theorem locks_replyBad x0 s (h : LocksLow s) : LocksLow (replyBad x0 s) :=
  .via (frame_replyBad _ _ (m := 0x5800002100) .refl rfl) rfl h

theorem locks_slotAnswers x0 s (h : LocksLow s) : LocksLow (slotAnswers x0 s) :=
  .via (frame_slotAnswers _ _ (m := 0x5800002100) .refl rfl) rfl h

theorem locks_forwardPut x0 s (h : LocksLow s) : LocksLow (forwardPut x0 s) :=
  .via (frame_forwardPut _ _ (m := 0x5800000100) .refl rfl) rfl h

theorem locks_vlkWrite x0 x1 s (h : LocksLow s) : LocksLow (vlkWrite x0 x1 s) := by
  unfold vlkWrite
  repeat' first | (with_reducible first | assumption | intro _ | refine locks_engWrite _ _ _ _ _ _ ?_ | refine LocksLow.ite ?_ ?_) | decide | split | unfold id | dsimp only

theorem locks_takeEntry s x1 (h : LocksLow s) : LocksLow (takeEntry s x1) := by
  unfold takeEntry
  repeat' first | (with_reducible first | assumption | intro _ | refine locks_State_modVlk _ _ ?_ | refine locks_forwardPut _ _ ?_ | refine locks_raiseLine _ _ ?_ | refine locks_vlkWrite _ _ _ ?_ | refine LocksLow.ite ?_ ?_) | decide | split | unfold id | dsimp only

theorem locks_takeReport x0 x1 x2 s (h : LocksLow s) : LocksLow (takeReport x0 x1 x2 s) := by
  unfold takeReport
  repeat' first | (with_reducible first | assumption | intro _ | refine locks_State_modVlk _ _ ?_ | refine locks_raiseLine _ _ ?_ | refine locks_vlkWrite _ _ _ ?_ | refine LocksLow.ite ?_ ?_) | decide | split | unfold id | dsimp only

theorem locks_takeReplyItem x0 s x2 (h : LocksLow s) : LocksLow (takeReplyItem x0 s x2) := by
  unfold takeReplyItem
  repeat' first | (with_reducible first | assumption | intro _ | refine locks_State_modVlk _ _ ?_ | refine locks_modSlot _ _ _ ?_ | refine locks_takeEntry _ _ ?_ | refine locks_takeReport _ _ _ _ ?_ | refine LocksLow.foldl (fun _ _ _ => ?_) ?_ | refine LocksLow.ite ?_ ?_) | decide | split | unfold id | dsimp only

theorem locks_startFanout x0 x1 s (h : LocksLow s) : LocksLow (startFanout x0 x1 s) :=
  .via (frame_startFanout _ _ _ (m := 0x4000000000) .refl rfl) rfl h

theorem locks_takeChunk x0 x1 x2 x3 s (h : LocksLow s) : LocksLow (takeChunk x0 x1 x2 x3 s) := by
  unfold takeChunk
  repeat' first | (with_reducible first | assumption | intro _ | refine locks_State_drawn _ ?_ | refine locks_State_modVlk _ _ ?_ | refine locks_ev _ _ _ _ _ _ ?_ | refine locks_raiseLine _ _ ?_ | refine locks_startFanout _ _ _ ?_ | refine locks_vlkWrite _ _ _ ?_ | refine LocksLow.ite ?_ ?_) | decide | split | unfold id | dsimp only

theorem locks_upSeg x0 x1 x2 s (h : LocksLow s) (k : ∀ t, LocksLow t → LocksLow (x1 t))
    (k' : ∀ t, LocksLow t → LocksLow (x2 t)) : LocksLow (upSeg x0 x1 x2 s) := by
  unfold upSeg
  exact locks_vlkReceive _ _ _ _ _ _ _ _ h k fun t ht => k' _ (locks_State_modVlk _ _ ht)

theorem locks_criticalLimit x0 x1 s (h : LocksLow s) : LocksLow (criticalLimit x0 x1 s) :=
  .via (frame_criticalLimit _ _ _ (m := 0x1B1DB7E380) .refl rfl) rfl h

theorem locks_autonomousPs s (h : LocksLow s) : LocksLow (autonomousPs s) := by
  unfold autonomousPs
  repeat' first | (with_reducible first | assumption | intro _ | refine locks_State_modPwr _ _ ?_ | refine locks_psProceed _ _ ?_ | refine LocksLow.ite ?_ ?_) | decide | split | unfold id | dsimp only

theorem locks_backgroundErase s (h : LocksLow s) : LocksLow (backgroundErase s) :=
  .via (frame_backgroundErase _ (m := 0x42000) .refl rfl) rfl h

theorem locks_idle s (h : LocksLow s) : LocksLow (idle s) := by
  unfold idle
  repeat' first | (with_reducible first | assumption | intro _ | refine locks_autonomousPs _ ?_ | refine locks_backgroundErase _ ?_ | refine locks_elapse _ _ ?_ | refine locks_wakeNoted _ ?_ | refine LocksLow.ite ?_ ?_) | decide | split | unfold id | dsimp only

theorem locks_execRegWrite x0 x1 x2 s (h : LocksLow s) : LocksLow (after s (execRegWrite x0 x1 x2 s)) := by
  unfold execRegWrite
  try with_reducible refine LocksLow.next ?_
  repeat' first | (with_reducible first | assumption | intro _ | refine locks_busOp _ _ _ _ _ _ ?_ | refine locks_csrWrite _ _ _ _ ?_ | refine locks_dmaError _ _ ?_ | refine LocksLow.ite ?_ ?_) | decide | split | unfold id | dsimp only

theorem locks_execBusAccess x0 x1 x2 x3 x4 s (h : LocksLow s) : LocksLow (after s (execBusAccess x0 x1 x2 x3 x4 s)) := by
  unfold execBusAccess
  try with_reducible refine LocksLow.next ?_
  repeat' first | (with_reducible first | assumption | intro _ | refine locks_busOp _ _ _ _ _ _ ?_ | refine locks_dmaError _ _ ?_ | refine LocksLow.ite ?_ ?_) | decide | split | unfold id | dsimp only

theorem locks_execSoftReset x0 x1 s (h : LocksLow s) : LocksLow (after s (execSoftReset x0 x1 s)) := by
  unfold execSoftReset
  try with_reducible refine LocksLow.next ?_
  repeat' first | (with_reducible first | assumption | intro _ | refine locks_hdrAccess _ _ _ _ ?_ ?_ | refine locks_softReset _ _ _ _ ?_ | refine LocksLow.ite ?_ ?_) | decide | split | unfold id | dsimp only

theorem locks_execAllcln x0 x1 x2 s (h : LocksLow s) : LocksLow (after s (execAllcln x0 x1 x2 s)) := by
  unfold execAllcln
  try with_reducible refine LocksLow.next ?_
  repeat' first | (with_reducible first | assumption | intro _ | refine locks_State_modSys _ _ ?_ | refine locks_l1CleanAll _ _ ?_ | refine LocksLow.ite ?_ ?_) | decide | split | unfold id | dsimp only

theorem locks_execL1Clean x0 x1 s (h : LocksLow s) : LocksLow (after s (execL1Clean x0 x1 s)) := by
  unfold execL1Clean
  try with_reducible refine LocksLow.next ?_
  repeat' first | (with_reducible first | assumption | intro _ | refine locks_l1CleanLine _ _ _ ?_ | refine LocksLow.ite ?_ ?_) | decide | split | unfold id | dsimp only

theorem locks_execL1CleanAndInvalidate x0 x1 s (h : LocksLow s) : LocksLow (after s (execL1CleanAndInvalidate x0 x1 s)) := by
  unfold execL1CleanAndInvalidate
  try with_reducible refine LocksLow.next ?_
  repeat' first | (with_reducible first | assumption | intro _ | refine locks_l1CleanLine _ _ _ ?_ | refine locks_l1Remove _ _ _ ?_ | refine LocksLow.ite ?_ ?_) | decide | split | unfold id | dsimp only

theorem locks_execPor s (h : LocksLow s) : LocksLow (after s (execPor s)) := by
  unfold execPor
  try with_reducible refine LocksLow.next ?_
  repeat' first | (with_reducible first | assumption | intro _ | refine locks_wickReset _ _ ?_ | refine LocksLow.ite ?_ ?_) | decide | split | unfold id | dsimp only

theorem locks_execMainRailsGood x0 x1 s (h : LocksLow s) : LocksLow (after s (execMainRailsGood x0 x1 s)) := by
  unfold execMainRailsGood
  try with_reducible refine LocksLow.next ?_
  repeat' first | (with_reducible first | assumption | intro _ | refine locks_State_drawn _ ?_ | refine locks_State_modSec _ _ ?_ | refine locks_State_modSys _ _ ?_ | refine locks_elapse _ _ ?_ | refine locks_ev _ _ _ _ _ _ ?_ | refine locks_startCore _ _ ?_ | refine locks_wakeRecord _ _ _ ?_ | refine LocksLow.ite ?_ ?_) | fail_if_no_progress (with_reducible refine LocksLow.set_sup ?_) | decide | split | unfold id | dsimp only

theorem locks_execRailFault x0 s (h : LocksLow s) : LocksLow (after s (execRailFault x0 s)) := by
  unfold execRailFault
  try with_reducible refine LocksLow.next ?_
  repeat' first | (with_reducible first | assumption | intro _ | refine locks_State_modPwr _ _ ?_ | refine locks_State_modSys _ _ ?_ | refine locks_darkEntry _ _ _ ?_ | refine locks_ev _ _ _ _ _ _ ?_ | refine locks_lossStart _ ?_ | refine locks_raiseLine _ _ ?_ | refine LocksLow.ite ?_ ?_) | fail_if_no_progress (with_reducible refine LocksLow.set_sup ?_) | decide | split | unfold id | dsimp only

theorem locks_execPerstAssert x0 s (h : LocksLow s) : LocksLow (after s (execPerstAssert x0 s)) := by
  unfold execPerstAssert
  try with_reducible refine LocksLow.next ?_
  repeat' first | (with_reducible first | assumption | intro _ | refine locks_State_modCtrl _ _ _ ?_ | refine locks_perstAction _ _ ?_ | refine LocksLow.ite ?_ ?_) | decide | split | unfold id | dsimp only

theorem locks_execDmcInitDone x0 s (h : LocksLow s) : LocksLow (after s (execDmcInitDone x0 s)) := by
  unfold execDmcInitDone
  try with_reducible refine LocksLow.next ?_
  repeat' first | (with_reducible first | assumption | intro _ | refine locks_State_modSys _ _ ?_ | refine locks_releaseHeld _ ?_ | refine locks_zeroMibs _ _ ?_ | refine LocksLow.ite ?_ ?_) | fail_if_no_progress (with_reducible refine LocksLow.set_dmc ?_) | decide | split | unfold id | dsimp only

theorem locks_execDmcInitHeldAccess x0 s (h : LocksLow s) : LocksLow (after s (execDmcInitHeldAccess x0 s)) := by
  unfold execDmcInitHeldAccess
  try with_reducible refine LocksLow.next ?_
  repeat' first | (with_reducible first | assumption | intro _ | refine locks_releaseHeld _ ?_ | refine locks_zeroMibs _ _ ?_ | refine LocksLow.ite ?_ ?_) | decide | split | unfold id | dsimp only

theorem locks_execControllerReset x0 s (h : LocksLow s) : LocksLow (after s (execControllerReset x0 s)) := by
  unfold execControllerReset
  try with_reducible refine LocksLow.next ?_
  repeat' first | (with_reducible first | assumption | intro _ | refine locks_stopController _ _ _ ?_ | refine LocksLow.ite ?_ ?_) | decide | split | unfold id | dsimp only

theorem locks_execFunctionLevelReset x0 s (h : LocksLow s) : LocksLow (after s (execFunctionLevelReset x0 s)) := by
  unfold execFunctionLevelReset
  try with_reducible refine LocksLow.next ?_
  repeat' first | (with_reducible first | assumption | intro _ | refine locks_linkReset _ _ _ ?_ | refine LocksLow.ite ?_ ?_) | decide | split | unfold id | dsimp only

theorem locks_execLinkDown x0 s (h : LocksLow s) : LocksLow (after s (execLinkDown x0 s)) := by
  unfold execLinkDown
  try with_reducible refine LocksLow.next ?_
  repeat' first | (with_reducible first | assumption | intro _ | refine locks_linkReset _ _ _ ?_ | refine LocksLow.ite ?_ ?_) | decide | split | unfold id | dsimp only

theorem locks_execCoreDomainHold x0 s (h : LocksLow s) : LocksLow (after s (execCoreDomainHold x0 s)) := by
  unfold execCoreDomainHold
  try with_reducible refine LocksLow.next ?_
  repeat' first | (with_reducible first | assumption | intro _ | refine locks_State_modSys _ _ ?_ | refine locks_abandonCommit _ ?_ | refine locks_coreReset _ ?_ | refine LocksLow.ite ?_ ?_) | decide | split | unfold id | dsimp only

theorem locks_execResetNRelease x0 s (h : LocksLow s) : LocksLow (after s (execResetNRelease x0 s)) := by
  unfold execResetNRelease
  try with_reducible refine LocksLow.next ?_
  repeat' first | (with_reducible first | assumption | intro _ | refine locks_State_modSys _ _ ?_ | refine locks_coldStart _ _ ?_ | refine LocksLow.ite ?_ ?_) | decide | split | unfold id | dsimp only

theorem locks_execNvmSubsystemReset x0 x1 s (h : LocksLow s) : LocksLow (after s (execNvmSubsystemReset x0 x1 s)) := by
  unfold execNvmSubsystemReset
  try with_reducible refine LocksLow.next ?_
  repeat' first | (with_reducible first | assumption | intro _ | refine locks_subsystemReset _ ?_ | refine LocksLow.ite ?_ ?_) | decide | split | unfold id | dsimp only

theorem locks_execPowerLoss s (h : LocksLow s) : LocksLow (after s (execPowerLoss s)) := by
  unfold execPowerLoss
  try with_reducible refine LocksLow.next ?_
  repeat' first | (with_reducible first | assumption | intro _ | refine locks_elapse _ _ ?_ | refine locks_lossStart _ ?_ | refine LocksLow.ite ?_ ?_) | decide | split | unfold id | dsimp only

theorem locks_execPreqGo x0 x1 s (h : LocksLow s) : LocksLow (after s (execPreqGo x0 x1 s)) := by
  unfold execPreqGo
  try with_reducible refine LocksLow.next ?_
  repeat' first | (with_reducible first | assumption | intro _ | refine locks_access _ _ _ _ _ ?_ ?_ | refine locks_writePreq _ _ ?_ | refine LocksLow.ite ?_ ?_) | decide | split | unfold id | dsimp only

theorem locks_execPowerStateEntered s (h : LocksLow s) : LocksLow (after s (execPowerStateEntered s)) := by
  unfold execPowerStateEntered
  try with_reducible refine LocksLow.next ?_
  repeat' first | (with_reducible first | assumption | intro _ | refine locks_powerEntered _ ?_ | refine LocksLow.ite ?_ ?_) | decide | split | unfold id | dsimp only

theorem locks_execWakeSource x0 x1 x2 s (h : LocksLow s) : LocksLow (after s (execWakeSource x0 x1 x2 s)) := by
  unfold execWakeSource
  try with_reducible refine LocksLow.next ?_
  repeat' first | (with_reducible first | assumption | intro _ | refine locks_noteWake _ _ ?_ | refine locks_wakeAct _ _ _ ?_ | refine LocksLow.ite ?_ ?_) | decide | split | unfold id | dsimp only

theorem locks_execPllLocked x0 s (h : LocksLow s) : LocksLow (after s (execPllLocked x0 s)) := by
  unfold execPllLocked
  try with_reducible refine LocksLow.next ?_
  repeat' first | (with_reducible first | assumption | intro _ | refine locks_refreshEnds _ ?_ | refine locks_setLock _ _ _ ?_ | refine LocksLow.ite ?_ ?_) | decide | split | unfold id | dsimp only

theorem locks_execPsEntryRestart s (h : LocksLow s) : LocksLow (after s (execPsEntryRestart s)) := by
  unfold execPsEntryRestart
  try with_reducible refine LocksLow.next ?_
  repeat' first | (with_reducible first | assumption | intro _ | refine locks_State_modPwr _ _ ?_ | refine locks_elapse _ _ ?_ | refine locks_psProceed _ _ ?_ | refine LocksLow.ite ?_ ?_) | decide | split | unfold id | dsimp only

theorem locks_execSqTailDoorbell x0 x1 x2 x3 s (h : LocksLow s) : LocksLow (after s (execSqTailDoorbell x0 x1 x2 x3 s)) := by
  unfold execSqTailDoorbell
  try with_reducible refine LocksLow.next ?_
  repeat' first | (with_reducible first | assumption | intro _ | refine locks_modSq _ _ _ _ ?_ | refine locks_raiseLine _ _ ?_ | refine locks_unwindEntry _ _ ?_ | refine LocksLow.ite ?_ ?_) | decide | split | unfold id | dsimp only

theorem locks_execCqHeadDoorbell x0 x1 x2 s (h : LocksLow s) : LocksLow (after s (execCqHeadDoorbell x0 x1 x2 s)) := by
  unfold execCqHeadDoorbell
  try with_reducible refine LocksLow.next ?_
  repeat' first | (with_reducible first | assumption | intro _ | refine locks_modCq _ _ _ _ ?_ | refine locks_unwindEntry _ _ ?_ | refine LocksLow.ite ?_ ?_) | decide | split | unfold id | dsimp only

theorem locks_execCommandFetch x0 s (h : LocksLow s) : LocksLow (after s (execCommandFetch x0 s)) := by
  unfold execCommandFetch
  try with_reducible refine LocksLow.next ?_
  repeat' first | (with_reducible first | assumption | intro _ | refine locks_checkPause _ ?_ | refine locks_enterCmd _ _ _ _ _ _ ?_ | refine locks_fetchNext _ _ ?_ | refine LocksLow.ite ?_ ?_) | decide | split | unfold id | dsimp only

theorem locks_execAbortMatch x0 x1 s (h : LocksLow s) : LocksLow (after s (execAbortMatch x0 x1 s)) := by
  unfold execAbortMatch
  try with_reducible refine LocksLow.next ?_
  repeat' first | (with_reducible first | assumption | intro _ | refine locks_access _ _ _ _ _ ?_ ?_ | refine locks_writeAbortReq _ _ ?_ | refine LocksLow.ite ?_ ?_) | decide | split | unfold id | dsimp only

theorem locks_execReservationAcquire x0 s (h : LocksLow s) : LocksLow (after s (execReservationAcquire x0 s)) := by
  unfold execReservationAcquire
  try with_reducible refine LocksLow.next ?_
  repeat' first | (with_reducible first | assumption | intro _ | refine locks_withNs _ _ _ _ ?_ ?_ | refine locks_finish _ _ _ ?_ | refine locks_modNs _ _ _ ?_ | refine locks_preempt _ _ _ _ _ _ ?_ | refine LocksLow.ite ?_ ?_) | decide | split | unfold id | dsimp only

theorem locks_execAbort x0 s (h : LocksLow s) : LocksLow (after s (execAbort x0 s)) := by
  unfold execAbort
  try with_reducible refine LocksLow.next ?_
  repeat' first | (with_reducible first | assumption | intro _ | refine locks_withCmd _ _ _ _ ?_ ?_ | refine locks_finishDw _ _ _ _ _ ?_ | refine locks_matchCmd _ _ _ _ ?_ | refine LocksLow.ite ?_ ?_) | decide | split | unfold id | dsimp only

theorem locks_execNvmeMiSend x0 s (h : LocksLow s) : LocksLow (after s (execNvmeMiSend x0 s)) := by
  unfold execNvmeMiSend
  try with_reducible refine LocksLow.next ?_
  repeat' first | (with_reducible first | assumption | intro _ | refine locks_withCmd _ _ _ _ ?_ ?_ | refine locks_miConfigSet _ _ _ ?_ | refine locks_miFinish _ _ _ _ ?_ | refine locks_miVpdWrite _ _ _ ?_ | refine locks_subsystemReset _ ?_ | refine LocksLow.ite ?_ ?_) | refine LocksLow.of_eq (congrArg Prod.fst ‹miConfigSet _ _ _ = _›) ?_ | decide | split | unfold id | dsimp only

theorem locks_execMiReset s (h : LocksLow s) : LocksLow (after s (execMiReset s)) := by
  unfold execMiReset
  try with_reducible refine LocksLow.next ?_
  repeat' first | (with_reducible first | assumption | intro _ | refine locks_subsystemReset _ ?_ | refine LocksLow.ite ?_ ?_) | decide | split | unfold id | dsimp only

theorem locks_execCommitRecordDurable s (h : LocksLow s) : LocksLow (after s (execCommitRecordDurable s)) := by
  unfold execCommitRecordDurable
  try with_reducible refine LocksLow.next ?_
  repeat' first | (with_reducible first | assumption | intro _ | refine locks_commitDurable _ ?_ | refine locks_lossEnd _ ?_ | refine LocksLow.ite ?_ ?_) | decide | split | unfold id | dsimp only

theorem locks_execTaskCommit x0 x1 s (h : LocksLow s) : LocksLow (after s (execTaskCommit x0 x1 s)) := by
  unfold execTaskCommit
  try with_reducible refine LocksLow.next ?_
  repeat' first | (with_reducible first | assumption | intro _ | refine locks_access _ _ _ _ _ ?_ ?_ | refine locks_writePcmd _ _ _ ?_ | refine LocksLow.ite ?_ ?_) | decide | split | unfold id | dsimp only

theorem locks_execTaskCancel x0 x1 s (h : LocksLow s) : LocksLow (after s (execTaskCancel x0 x1 s)) := by
  unfold execTaskCancel
  try with_reducible refine LocksLow.next ?_
  repeat' first | (with_reducible first | assumption | intro _ | refine locks_access _ _ _ _ _ ?_ ?_ | refine locks_writePcmd _ _ _ ?_ | refine LocksLow.ite ?_ ?_) | decide | split | unfold id | dsimp only

theorem locks_execTaskPromotion x0 s (h : LocksLow s) : LocksLow (after s (execTaskPromotion x0 s)) := by
  unfold execTaskPromotion
  try with_reducible refine LocksLow.next ?_
  repeat' first | (with_reducible first | assumption | intro _ | refine locks_promote _ _ ?_ | refine LocksLow.ite ?_ ?_) | decide | split | unfold id | dsimp only

theorem locks_execMicrowordIssue x0 s (h : LocksLow s) : LocksLow (after s (execMicrowordIssue x0 s)) := by
  unfold execMicrowordIssue
  try with_reducible refine LocksLow.next ?_
  repeat' first | (with_reducible first | assumption | intro _ | refine locks_boundary _ _ ?_ | refine locks_fetchIssue _ _ ?_ | refine LocksLow.ite ?_ ?_) | decide | split | unfold id | dsimp only

theorem locks_execSeqNext x0 s (h : LocksLow s) : LocksLow (after s (execSeqNext x0 s)) := by
  unfold execSeqNext
  try with_reducible refine LocksLow.next ?_
  repeat' first | (with_reducible first | assumption | intro _ | refine locks_fallThrough _ _ ?_ | refine locks_seqStep _ _ _ _ ?_ ?_ | refine LocksLow.ite ?_ ?_) | decide | split | unfold id | dsimp only

theorem locks_execSeqJump x0 s (h : LocksLow s) : LocksLow (after s (execSeqJump x0 s)) := by
  unfold execSeqJump
  try with_reducible refine LocksLow.next ?_
  repeat' first | (with_reducible first | assumption | intro _ | refine locks_seqStep _ _ _ _ ?_ ?_ | refine locks_transfer _ _ _ _ ?_ | refine LocksLow.ite ?_ ?_) | decide | split | unfold id | dsimp only

theorem locks_execSeqCall x0 s (h : LocksLow s) : LocksLow (after s (execSeqCall x0 s)) := by
  unfold execSeqCall
  try with_reducible refine LocksLow.next ?_
  repeat' first | (with_reducible first | assumption | intro _ | refine locks_seqCallDo _ _ ?_ | refine locks_seqStep _ _ _ _ ?_ ?_ | refine LocksLow.ite ?_ ?_) | decide | split | unfold id | dsimp only

theorem locks_execSeqRet x0 s (h : LocksLow s) : LocksLow (after s (execSeqRet x0 s)) := by
  unfold execSeqRet
  try with_reducible refine LocksLow.next ?_
  repeat' first | (with_reducible first | assumption | intro _ | refine locks_seqRetDo _ _ ?_ | refine locks_seqStep _ _ _ _ ?_ ?_ | refine LocksLow.ite ?_ ?_) | decide | split | unfold id | dsimp only

theorem locks_execSeqBrt x0 s (h : LocksLow s) : LocksLow (after s (execSeqBrt x0 s)) := by
  unfold execSeqBrt
  try with_reducible refine LocksLow.next ?_
  repeat' first | (with_reducible first | assumption | intro _ | refine locks_seqBranch _ _ _ ?_ | refine locks_seqStep _ _ _ _ ?_ ?_ | refine LocksLow.ite ?_ ?_) | decide | split | unfold id | dsimp only

theorem locks_execSeqBrf x0 s (h : LocksLow s) : LocksLow (after s (execSeqBrf x0 s)) := by
  unfold execSeqBrf
  try with_reducible refine LocksLow.next ?_
  repeat' first | (with_reducible first | assumption | intro _ | refine locks_seqBranch _ _ _ ?_ | refine locks_seqStep _ _ _ _ ?_ ?_ | refine LocksLow.ite ?_ ?_) | decide | split | unfold id | dsimp only

theorem locks_execSeqDispatch x0 s (h : LocksLow s) : LocksLow (after s (execSeqDispatch x0 s)) := by
  unfold execSeqDispatch
  try with_reducible refine LocksLow.next ?_
  repeat' first | (with_reducible first | assumption | intro _ | refine locks_seqDispatchDo _ _ ?_ | refine locks_seqStep _ _ _ _ ?_ ?_ | refine LocksLow.ite ?_ ?_) | decide | split | unfold id | dsimp only

theorem locks_execSeqLoop x0 s (h : LocksLow s) : LocksLow (after s (execSeqLoop x0 s)) := by
  unfold execSeqLoop
  try with_reducible refine LocksLow.next ?_
  repeat' first | (with_reducible first | assumption | intro _ | refine locks_seqLoopDo _ _ ?_ | refine locks_seqStep _ _ _ _ ?_ ?_ | refine LocksLow.ite ?_ ?_) | decide | split | unfold id | dsimp only

theorem locks_execAsqAbort x0 x1 x2 s (h : LocksLow s) : LocksLow (after s (execAsqAbort x0 x1 x2 s)) := by
  unfold execAsqAbort
  try with_reducible refine LocksLow.next ?_
  repeat' first | (with_reducible first | assumption | intro _ | refine locks_access _ _ _ _ _ ?_ ?_ | refine locks_writeAbort _ _ _ ?_ | refine LocksLow.ite ?_ ?_) | decide | split | unfold id | dsimp only

theorem locks_execDefectInsert x0 x1 s (h : LocksLow s) : LocksLow (after s (execDefectInsert x0 x1 s)) := by
  unfold execDefectInsert
  try with_reducible refine LocksLow.next ?_
  repeat' first | (with_reducible first | assumption | intro _ | refine locks_dlopCmd _ _ _ ?_ | refine LocksLow.ite ?_ ?_) | decide | split | unfold id | dsimp only

theorem locks_execDefectDelete x0 x1 s (h : LocksLow s) : LocksLow (after s (execDefectDelete x0 x1 s)) := by
  unfold execDefectDelete
  try with_reducible refine LocksLow.next ?_
  repeat' first | (with_reducible first | assumption | intro _ | refine locks_dlopCmd _ _ _ ?_ | refine LocksLow.ite ?_ ?_) | decide | split | unfold id | dsimp only

theorem locks_execDefectClearPending x0 x1 s (h : LocksLow s) : LocksLow (after s (execDefectClearPending x0 x1 s)) := by
  unfold execDefectClearPending
  try with_reducible refine LocksLow.next ?_
  repeat' first | (with_reducible first | assumption | intro _ | refine locks_dlopCmd _ _ _ ?_ | refine LocksLow.ite ?_ ?_) | decide | split | unfold id | dsimp only

theorem locks_execDefectInsertRelease s (h : LocksLow s) : LocksLow (after s (execDefectInsertRelease s)) := by
  unfold execDefectInsertRelease
  try with_reducible refine LocksLow.next ?_
  repeat' first | (with_reducible first | assumption | intro _ | refine locks_dlInsert _ _ _ ?_ | refine LocksLow.ite ?_ ?_) | decide | split | unfold id | dsimp only

theorem locks_execRetractEnd x0 s (h : LocksLow s) : LocksLow (after s (execRetractEnd x0 s)) := by
  unfold execRetractEnd
  try with_reducible refine LocksLow.next ?_
  repeat' first | (with_reducible first | assumption | intro _ | refine locks_lossEnd _ ?_ | refine locks_retractEnd _ _ ?_ | refine LocksLow.ite ?_ ?_) | decide | split | unfold id | dsimp only

theorem locks_execDdrRead x0 x1 x2 s (h : LocksLow s) : LocksLow (after s (execDdrRead x0 x1 x2 s)) := by
  unfold execDdrRead
  try with_reducible refine LocksLow.next ?_
  repeat' first | (with_reducible first | assumption | intro _ | refine locks_ddrTake _ _ _ _ _ _ ?_ | refine LocksLow.ite ?_ ?_) | decide | split | unfold id | dsimp only

theorem locks_execRegattrPolicyWrite x0 x1 x2 s (h : LocksLow s) : LocksLow (after s (execRegattrPolicyWrite x0 x1 x2 s)) := by
  unfold execRegattrPolicyWrite
  try with_reducible refine LocksLow.next ?_
  repeat' first | (with_reducible first | assumption | intro _ | refine locks_access _ _ _ _ _ ?_ ?_ | refine locks_writeRegattr _ _ _ _ ?_ | refine LocksLow.ite ?_ ?_) | decide | split | unfold id | dsimp only

theorem locks_execSplitRead x0 s (h : LocksLow s) : LocksLow (after s (execSplitRead x0 s)) := by
  unfold execSplitRead
  try with_reducible refine LocksLow.next ?_
  repeat' first | (with_reducible first | assumption | intro _ | refine locks_access _ _ _ _ _ ?_ ?_ | refine locks_splitGo _ _ ?_ | refine LocksLow.ite ?_ ?_) | decide | split | unfold id | dsimp only

theorem locks_execSplitWrite x0 s (h : LocksLow s) : LocksLow (after s (execSplitWrite x0 s)) := by
  unfold execSplitWrite
  try with_reducible refine LocksLow.next ?_
  repeat' first | (with_reducible first | assumption | intro _ | refine locks_access _ _ _ _ _ ?_ ?_ | refine locks_splitGo _ _ ?_ | refine LocksLow.ite ?_ ?_) | decide | split | unfold id | dsimp only

theorem locks_execBccAccess x0 x1 x2 x3 x4 s (h : LocksLow s) : LocksLow (after s (execBccAccess x0 x1 x2 x3 x4 s)) := by
  unfold execBccAccess
  try with_reducible refine LocksLow.next ?_
  repeat' first | (with_reducible first | assumption | intro _ | refine locks_ddrTake _ _ _ _ _ _ ?_ | refine locks_wayError _ _ _ _ ?_ | refine LocksLow.ite ?_ ?_) | decide | split | unfold id | dsimp only

theorem locks_execCeWindowExpiry s (h : LocksLow s) : LocksLow (after s (execCeWindowExpiry s)) := by
  unfold execCeWindowExpiry
  try with_reducible refine LocksLow.next ?_
  repeat' first | (with_reducible first | assumption | intro _ | refine locks_State_modBcc _ _ ?_ ?_ | refine LocksLow.ite ?_ ?_) | ((with_reducible refine (?_ : Bcc.locksLow _)); first | exact locks_same rfl (by assumption) | exact locks_filter rfl (by assumption) | exact locks_nil rfl) | decide | split | unfold id | dsimp only

theorem locks_execBccEnable x0 s (h : LocksLow s) : LocksLow (after s (execBccEnable x0 s)) := by
  unfold execBccEnable
  try with_reducible refine LocksLow.next ?_
  repeat' first | (with_reducible first | assumption | intro _ | refine locks_access _ _ _ _ _ ?_ ?_ | refine locks_bccSetEn _ ?_ | refine LocksLow.ite ?_ ?_) | ((with_reducible refine (?_ : Bcc.locksLow _)); first | exact locks_same rfl (by assumption) | exact locks_filter rfl (by assumption) | exact locks_nil rfl) | decide | split | unfold id | dsimp only

theorem locks_execBccDisable x0 s (h : LocksLow s) : LocksLow (after s (execBccDisable x0 s)) := by
  unfold execBccDisable
  try with_reducible refine LocksLow.next ?_
  repeat' first | (with_reducible first | assumption | intro _ | refine locks_access _ _ _ _ _ ?_ ?_ | refine locks_bccClearEn _ ?_ | refine LocksLow.ite ?_ ?_) | ((with_reducible refine (?_ : Bcc.locksLow _)); first | exact locks_same rfl (by assumption) | exact locks_filter rfl (by assumption) | exact locks_nil rfl) | decide | split | unfold id | dsimp only

theorem locks_execDrainComplete s (h : LocksLow s) : LocksLow (after s (execDrainComplete s)) := by
  unfold execDrainComplete
  refine LocksLow.next (.ite ?_ h)
  have k := locks_drainFold (s.bcc.lines.filter (·.dirty)) s h fun c hc => h c (List.mem_filter.1 hc).1
  exact locks_raiseLine _ _ (locks_ev _ _ _ _ _ _ (locks_State_drawn _ (locks_State_modBcc _ _ k fun _ h => locks_same rfl h)))

theorem locks_execBccClean x0 s (h : LocksLow s) : LocksLow (after s (execBccClean x0 s)) := by
  unfold execBccClean
  try with_reducible refine LocksLow.next ?_
  repeat' first | (with_reducible first | assumption | intro _ | refine locks_rangeCmd _ _ ?_ | refine LocksLow.ite ?_ ?_) | decide | split | unfold id | dsimp only

theorem locks_execBccInval x0 s (h : LocksLow s) : LocksLow (after s (execBccInval x0 s)) := by
  unfold execBccInval
  try with_reducible refine LocksLow.next ?_
  repeat' first | (with_reducible first | assumption | intro _ | refine locks_rangeCmd _ _ ?_ | refine LocksLow.ite ?_ ?_) | decide | split | unfold id | dsimp only

theorem locks_execBccCleanInval x0 s (h : LocksLow s) : LocksLow (after s (execBccCleanInval x0 s)) := by
  unfold execBccCleanInval
  try with_reducible refine LocksLow.next ?_
  repeat' first | (with_reducible first | assumption | intro _ | refine locks_rangeCmd _ _ ?_ | refine LocksLow.ite ?_ ?_) | decide | split | unfold id | dsimp only

theorem locks_execBccZero x0 s (h : LocksLow s) : LocksLow (after s (execBccZero x0 s)) := by
  unfold execBccZero
  try with_reducible refine LocksLow.next ?_
  repeat' first | (with_reducible first | assumption | intro _ | refine locks_rangeCmd _ _ ?_ | refine LocksLow.ite ?_ ?_) | decide | split | unfold id | dsimp only

theorem locks_execBccLock x0 s (h : LocksLow s) : LocksLow (after s (execBccLock x0 s)) := by
  unfold execBccLock
  try with_reducible refine LocksLow.next ?_
  repeat' first | (with_reducible first | assumption | intro _ | refine locks_rangeCmd _ _ ?_ | refine LocksLow.ite ?_ ?_) | decide | split | unfold id | dsimp only

theorem locks_execBccUnlock x0 s (h : LocksLow s) : LocksLow (after s (execBccUnlock x0 s)) := by
  unfold execBccUnlock
  try with_reducible refine LocksLow.next ?_
  repeat' first | (with_reducible first | assumption | intro _ | refine locks_rangeCmd _ _ ?_ | refine LocksLow.ite ?_ ?_) | decide | split | unfold id | dsimp only

theorem locks_execBccInvalAll x0 s (h : LocksLow s) : LocksLow (after s (execBccInvalAll x0 s)) := by
  unfold execBccInvalAll
  try with_reducible refine LocksLow.next ?_
  repeat' first | (with_reducible first | assumption | intro _ | refine locks_rangeCmd _ _ ?_ | refine LocksLow.ite ?_ ?_) | decide | split | unfold id | dsimp only

theorem locks_execRangeOpDone s (h : LocksLow s) : LocksLow (after s (execRangeOpDone s)) := by
  unfold execRangeOpDone
  try with_reducible refine LocksLow.next ?_
  repeat' first | (with_reducible first | assumption | intro _ | refine locks_rangeFinish _ ?_ | refine LocksLow.ite ?_ ?_) | ((with_reducible refine (?_ : Bcc.locksLow _)); first | exact locks_same rfl (by assumption) | exact locks_filter rfl (by assumption) | exact locks_nil rfl) | decide | split | unfold id | dsimp only

theorem locks_execKeyGenerate x0 x1 x2 s (h : LocksLow s) : LocksLow (after s (execKeyGenerate x0 x1 x2 s)) := by
  unfold execKeyGenerate
  try with_reducible refine LocksLow.next ?_
  repeat' first | (with_reducible first | assumption | intro _ | refine locks_mailbox _ _ _ ?_ ?_ | refine locks_State_modSec _ _ ?_ | refine locks_answer _ _ _ _ ?_ | refine locks_newKey _ _ _ _ _ ?_ | refine locks_respondFree _ _ ?_ | refine LocksLow.ite ?_ ?_) | decide | split | unfold id | dsimp only

theorem locks_execKeyCheckpoint s (h : LocksLow s) : LocksLow (after s (execKeyCheckpoint s)) := by
  unfold execKeyCheckpoint
  try with_reducible refine LocksLow.next ?_
  repeat' first | (with_reducible first | assumption | intro _ | refine locks_mailbox _ _ _ ?_ ?_ | refine locks_State_modSec _ _ ?_ | refine locks_respondRecords _ _ _ ?_ | refine locks_storeRecords _ _ ?_ | refine LocksLow.ite ?_ ?_) | decide | split | unfold id | dsimp only

theorem locks_execExportKeys x0 x1 s (h : LocksLow s) : LocksLow (after s (execExportKeys x0 x1 s)) := by
  unfold execExportKeys
  try with_reducible refine LocksLow.next ?_
  repeat' first | (with_reducible first | assumption | intro _ | refine locks_mailbox _ _ _ ?_ ?_ | refine locks_answer _ _ _ _ ?_ | refine locks_ev _ _ _ _ _ _ ?_ | refine locks_respondFree _ _ ?_ | refine LocksLow.ite ?_ ?_) | decide | split | unfold id | dsimp only

theorem locks_execImportKeys x0 x1 s (h : LocksLow s) : LocksLow (after s (execImportKeys x0 x1 s)) := by
  unfold execImportKeys
  try with_reducible refine LocksLow.next ?_
  repeat' first | (with_reducible first | assumption | intro _ | refine locks_mailbox _ _ _ ?_ ?_ | refine locks_answer _ _ _ _ ?_ | refine locks_ev _ _ _ _ _ _ ?_ | refine locks_respondRecords _ _ _ ?_ | refine locks_storeRecords _ _ ?_ | refine LocksLow.ite ?_ ?_) | decide | split | unfold id | dsimp only

theorem locks_execSnuffLevel1 x0 s (h : LocksLow s) : LocksLow (after s (execSnuffLevel1 x0 s)) := by
  unfold execSnuffLevel1
  try with_reducible refine LocksLow.next ?_
  repeat' first | (with_reducible first | assumption | intro _ | refine locks_snuff1 _ _ ?_ | refine locks_wakeNoted _ ?_ | refine LocksLow.ite ?_ ?_) | decide | split | unfold id | dsimp only

theorem locks_execSnuffLevel2 x0 s (h : LocksLow s) : LocksLow (after s (execSnuffLevel2 x0 s)) := by
  unfold execSnuffLevel2
  try with_reducible refine LocksLow.next ?_
  repeat' first | (with_reducible first | assumption | intro _ | refine locks_snuff2 _ _ ?_ | refine locks_wakeNoted _ ?_ | refine LocksLow.ite ?_ ?_) | decide | split | unfold id | dsimp only

theorem locks_execAlarmFuseBlow s (h : LocksLow s) : LocksLow (after s (execAlarmFuseBlow s)) := by
  unfold execAlarmFuseBlow
  try with_reducible refine LocksLow.next ?_
  repeat' first | (with_reducible first | assumption | intro _ | refine locks_blowAlarm _ _ ?_ | refine locks_wakeNoted _ ?_ | refine LocksLow.ite ?_ ?_) | decide | split | unfold id | dsimp only

theorem locks_execDebugResponse x0 x1 x2 x3 s (h : LocksLow s) : LocksLow (after s (execDebugResponse x0 x1 x2 x3 s)) := by
  unfold execDebugResponse
  try with_reducible refine LocksLow.next ?_
  repeat' first | (with_reducible first | assumption | intro _ | refine locks_debugAnswer _ _ _ _ _ ?_ | refine locks_wakeNoted _ ?_ | refine LocksLow.ite ?_ ?_) | decide | split | unfold id | dsimp only

theorem locks_execCriticalDarkEntry s (h : LocksLow s) : LocksLow (after s (execCriticalDarkEntry s)) := by
  unfold execCriticalDarkEntry
  try with_reducible refine LocksLow.next ?_
  repeat' first | (with_reducible first | assumption | intro _ | refine locks_criticalDark _ ?_ | refine locks_elapse _ _ ?_ | refine LocksLow.ite ?_ ?_) | decide | split | unfold id | dsimp only

theorem locks_execCriticalWake x0 s (h : LocksLow s) : LocksLow (after s (execCriticalWake x0 s)) := by
  unfold execCriticalWake
  try with_reducible refine LocksLow.next ?_
  repeat' first | (with_reducible first | assumption | intro _ | refine locks_State_drawn _ ?_ | refine locks_State_modPwr _ _ ?_ | refine locks_State_modThm _ _ ?_ | refine locks_elapse _ _ ?_ | refine locks_startCore _ _ ?_ | refine locks_wakeRecord _ _ _ ?_ | refine LocksLow.ite ?_ ?_) | decide | split | unfold id | dsimp only

theorem locks_execEnrollReceive x0 x1 s (h : LocksLow s) : LocksLow (after s (execEnrollReceive x0 x1 s)) := by
  unfold execEnrollReceive
  try with_reducible refine LocksLow.next ?_
  repeat' first | (with_reducible first | assumption | intro _ | refine locks_enrollStep _ _ ?_ | refine locks_vlkReceive _ _ _ _ _ _ _ _ ?_ ?_ ?_ | refine LocksLow.ite ?_ ?_) | decide | split | unfold id | dsimp only

theorem locks_execReplyReceive x0 s (h : LocksLow s) : LocksLow (after s (execReplyReceive x0 s)) := by
  unfold execReplyReceive
  try with_reducible refine LocksLow.next ?_
  repeat' first | (with_reducible first | assumption | intro _ | refine locks_modSlot _ _ _ ?_ | refine locks_pollDone _ _ _ ?_ | refine locks_replyBad _ _ ?_ | refine locks_slotAnswers _ _ ?_ | refine locks_takeReplyItem _ _ _ ?_ | refine locks_vlkReceive _ _ _ _ _ _ _ _ ?_ ?_ ?_ | refine LocksLow.foldl (fun _ _ _ => ?_) ?_ | refine LocksLow.ite ?_ ?_) | decide | split | unfold id | dsimp only

theorem locks_execImageReceive x0 x1 x2 x3 x4 s (h : LocksLow s) : LocksLow (after s (execImageReceive x0 x1 x2 x3 x4 s)) := by
  unfold execImageReceive
  try with_reducible refine LocksLow.next ?_
  repeat' first | (with_reducible first | assumption | intro _ | refine locks_takeChunk _ _ _ _ _ ?_ | refine locks_upSeg _ _ _ _ ?_ ?_ ?_ | refine LocksLow.ite ?_ ?_) | decide | split | unfold id | dsimp only

theorem locks_execVlkWake x0 x1 x2 s (h : LocksLow s) : LocksLow (after s (execVlkWake x0 x1 x2 s)) := by
  unfold execVlkWake
  try with_reducible refine LocksLow.next ?_
  repeat' first | (with_reducible first | assumption | intro _ | refine locks_noteWake _ _ ?_ | refine locks_wakeAct _ _ _ ?_ | refine LocksLow.ite ?_ ?_) | decide | split | unfold id | dsimp only

theorem locks_execWickCriticalLimit x0 s (h : LocksLow s) : LocksLow (after s (execWickCriticalLimit x0 s)) := by
  unfold execWickCriticalLimit
  try with_reducible refine LocksLow.next ?_
  repeat' first | (with_reducible first | assumption | intro _ | refine locks_State_modThm _ _ ?_ | refine locks_criticalDark _ ?_ | refine locks_criticalLimit _ _ _ ?_ | refine LocksLow.ite ?_ ?_) | decide | split | unfold id | dsimp only

theorem locks_execVddAux33Loss s (h : LocksLow s) : LocksLow (after s (execVddAux33Loss s)) := by
  unfold execVddAux33Loss
  try with_reducible refine LocksLow.next ?_
  repeat' first | (with_reducible first | assumption | intro _ | refine locks_wickReset _ _ ?_ | refine LocksLow.ite ?_ ?_) | decide | split | unfold id | dsimp only

end Sys2Proof.Machine
end

