-- ==== Sys2Proof/Laws/RegStores.lean ====
section
/-!
SUPPORT. For each command, one lemma that says which registers of the register file it may store, from those of the operations
that it calls.
-/

set_option linter.all false

set_option Elab.async false

namespace Sys2Proof.Machine

variable {l : List (Reg × Nat × Nat)} {o : State}

theorem RegsOnly.refl : RegsOnly l o o := fun _ _ _ _ => rfl

/-- The mask does not hold the register file. -/
@[reducible] def noRegs (m : Nat) : Bool := Nat.beq (Nat.land m 0x10) 0

theorem noRegs_bit {m : Nat} (e : noRegs m = true) : m.testBit Field.regs.idx = false := by
  have h : m &&& 0x10 = 0 := Nat.eq_of_beq_eq_true e
  have h' := congrArg (fun x => x.testBit 4) h
  have h2 : Nat.testBit 16 4 = true := by decide
  rw [Nat.testBit_and, h2, Nat.zero_testBit, Bool.and_true] at h'
  exact h'

theorem RegsOnly.via {m : Nat} {s t : State} (k : FrameB m s t) (e : noRegs m = true) (h : RegsOnly l o s) :
    RegsOnly l o t := fun q n j hq => (reg_congr (k .regs (noRegs_bit e)) q n j).trans (h q n j hq)

theorem RegsOnly.of_eq {s t : State} (h : t = s) (k : RegsOnly l o s) : RegsOnly l o t := h ▸ k

theorem RegsOnly.ite {t u : State} {c : Prop} {d : Decidable c} (h : RegsOnly l o t) (k : RegsOnly l o u) :
    RegsOnly l o (if c then t else u) := by split <;> assumption

theorem RegsOnly.foldl {α : Type} {f : State → α → State} (k : ∀ u x, RegsOnly l o u → RegsOnly l o (f u x)) {xs : List α}
    {s : State} (h : RegsOnly l o s) : RegsOnly l o (xs.foldl f s) := by
  induction xs generalizing s with
  | nil => exact h
  | cons x xs ih => exact ih (k _ _ h)

theorem RegsOnly.foldl_mem {α : Type} {f : State → α → State} {xs : List α}
    (k : ∀ u x, x ∈ xs → RegsOnly l o u → RegsOnly l o (f u x)) {s : State} (h : RegsOnly l o s) :
    RegsOnly l o (xs.foldl f s) := by
  induction xs generalizing s with
  | nil => exact h
  | cons x xs ih => exact ih (fun u y hy => k u y (List.mem_cons_of_mem _ hy)) (k _ _ (List.mem_cons_self ..) h)

theorem RegsOnly.next {s t : State} (h : RegsOnly l o t) : RegsOnly l o (after s (.next t)) := h

theorem regs_setReg x0 x1 x2 x3 s (h : RegsOnly l o s) (e : ∀ x ∈ [(x0, x1, x2)], x ∈ l) :
    RegsOnly l o (setReg x0 x1 x2 x3 s) := fun q m j hq =>
  (reg_setReg_ne (hq _ (e _ (List.mem_cons_self ..)))).trans (h q m j hq)

theorem regs_setFld x0 x1 x2 x3 x4 x5 s (h : RegsOnly l o s) (e : ∀ x ∈ [(x0, x1, x2)], x ∈ l) :
    RegsOnly l o (setFld x0 x1 x2 x3 x4 x5 s) := by
  unfold setFld
  exact regs_setReg _ _ _ _ _ h e

theorem regs_access x0 x1 x2 x3 s (h : RegsOnly l o s) (k : ∀ t, RegsOnly l o t → RegsOnly l o (x3 t)) :
    RegsOnly l o (access x0 x1 x2 x3 s) := by
  unfold access
  refine .ite (.ite ?_ ?_) h
  · exact .via (frame_useWindow _ _ _ (m := 0x100) .refl rfl) rfl (k _ h)
  · exact .via (frame_blockError _ _ _ _ _ (m := 0x1800000100) .refl rfl) rfl h

theorem regs_guarded x0 x1 x2 x3 x4 s (h : RegsOnly l o s) (k : ∀ t, RegsOnly l o t → RegsOnly l o (x4 t)) :
    RegsOnly l o (guarded x0 x1 x2 x3 x4 s) := by
  unfold guarded
  refine .ite ?_ (k _ h)
  exact .via (frame_blockError _ _ _ _ _ (m := 0x1800000100) .refl rfl) rfl h

theorem regs_withCmd {r : State} tag ops f s (h : RegsOnly l o s) (k : ∀ c t, RegsOnly l o t → RegsOnly l o (f c t)) :
    RegsOnly l o (after r (withCmd tag ops f s)) := by
  unfold withCmd
  refine RegsOnly.next ?_
  split
  · exact .ite (k _ _ h) h
  · exact h

theorem regs_setFeature {r : State} tag id f s (h : RegsOnly l o s) (k : ∀ c v t, RegsOnly l o t → RegsOnly l o (f c v t)) :
    RegsOnly l o (after r (setFeature tag id f s)) := by
  unfold setFeature
  refine regs_withCmd _ _ _ _ h fun c t ht => ?_
  exact .ite (k _ _ _ ht) ht

theorem regs_mailbox {r : State} n f s (h : RegsOnly l o s) (e : ∀ x ∈ [(Reg.mbcmd, 0, 0)], x ∈ l)
    (k : ∀ t, RegsOnly l o t → RegsOnly l o (f t)) : RegsOnly l o (after r (mailbox n f s)) := by
  unfold mailbox
  refine RegsOnly.next ?_
  refine .ite (k _ (regs_setFld _ _ _ _ _ _ _ (.via (frame_State_modSec _ _ (m := 0x80000000) .refl rfl) rfl h) e)) h

theorem RegsOnly.set_cal {s : State} {v0} (h : RegsOnly l o s) : RegsOnly l o { s with cal := v0 } := h

theorem RegsOnly.set_us_sys {s : State} {v0 v1} (h : RegsOnly l o s) : RegsOnly l o { s with us := v0, sys := v1 } := h

theorem RegsOnly.set_us {s : State} {v0} (h : RegsOnly l o s) : RegsOnly l o { s with us := v0 } := h

theorem RegsOnly.set_sys {s : State} {v0} (h : RegsOnly l o s) : RegsOnly l o { s with sys := v0 } := h

theorem RegsOnly.set_trm {s : State} {v0} (h : RegsOnly l o s) : RegsOnly l o { s with trm := v0 } := h

theorem RegsOnly.set_busData_tcm {s : State} {v0 v1} (h : RegsOnly l o s) : RegsOnly l o { s with busData := v0, tcm := v1 } := h

theorem RegsOnly.set_busData {s : State} {v0} (h : RegsOnly l o s) : RegsOnly l o { s with busData := v0 } := h

theorem RegsOnly.set_tcm {s : State} {v0} (h : RegsOnly l o s) : RegsOnly l o { s with tcm := v0 } := h

theorem RegsOnly.set_dmc {s : State} {v0} (h : RegsOnly l o s) : RegsOnly l o { s with dmc := v0 } := h

theorem RegsOnly.set_sup {s : State} {v0} (h : RegsOnly l o s) : RegsOnly l o { s with sup := v0 } := h

theorem RegsOnly.set_clk {s : State} {v0} (h : RegsOnly l o s) : RegsOnly l o { s with clk := v0 } := h

theorem RegsOnly.set_cst {s : State} {v0} (h : RegsOnly l o s) : RegsOnly l o { s with cst := v0 } := h

theorem regs_notePolarity x0 x1 s (h : RegsOnly l o s) : RegsOnly l o (notePolarity x0 x1 s) :=
  .via (frame_notePolarity _ _ _ (m := 0x5800000100) .refl rfl) rfl h

theorem regs_vlkBump x0 s (h : RegsOnly l o s) : RegsOnly l o (vlkBump x0 s) :=
  .via (frame_vlkBump _ _ (m := 0x4000002000) .refl rfl) rfl h

theorem regs_State_modVlk x0 s (h : RegsOnly l o s) : RegsOnly l o (State.modVlk x0 s) :=
  .via (frame_State_modVlk _ _ (m := 0x4000000000) .refl rfl) rfl h

theorem regs_blockError x0 x1 x2 x3 s (h : RegsOnly l o s) : RegsOnly l o (blockError x0 x1 x2 x3 s) :=
  .via (frame_blockError _ _ _ _ _ (m := 0x1800000100) .refl rfl) rfl h

theorem regs_ev x0 x1 x2 x3 x4 s (h : RegsOnly l o s) : RegsOnly l o (ev x0 x1 x2 x3 x4 s) :=
  .via (frame_ev _ _ _ _ _ _ (m := 0x1800000100) .refl rfl) rfl h

theorem regs_noteWake x0 s (h : RegsOnly l o s) : RegsOnly l o (noteWake x0 s) :=
  .via (frame_noteWake _ _ (m := 0x800) .refl rfl) rfl h

theorem regs_setIrqStat x0 x1 x2 s (h : RegsOnly l o s) : RegsOnly l o (setIrqStat x0 x1 x2 s) :=
  .via (frame_setIrqStat _ _ _ _ (m := 0x100) .refl rfl) rfl h

theorem regs_vlkCount x0 s (h : RegsOnly l o s) : RegsOnly l o (vlkCount x0 s) :=
  .via (frame_vlkCount _ _ (m := 0x4000000000) .refl rfl) rfl h

theorem regs_State_modEvr x0 s (h : RegsOnly l o s) : RegsOnly l o (State.modEvr x0 s) :=
  .via (frame_State_modEvr _ _ (m := 0x800000000) .refl rfl) rfl h

theorem regs_blockErrorP x0 x1 x2 x3 x4 x5 x6 s (h : RegsOnly l o s) : RegsOnly l o (blockErrorP x0 x1 x2 x3 x4 x5 x6 s) :=
  .via (frame_blockErrorP _ _ _ _ _ _ _ _ (m := 0x1800000100) .refl rfl) rfl h

theorem regs_State_modRwc x0 x1 s (h : RegsOnly l o s) : RegsOnly l o (State.modRwc x0 x1 s) :=
  .via (frame_State_modRwc _ _ _ (m := 0x200000) .refl rfl) rfl h

theorem regs_feedForward x0 x1 x2 s (h : RegsOnly l o s) : RegsOnly l o (feedForward x0 x1 x2 s) :=
  .via (frame_feedForward _ _ _ _ (m := 0x202080) .refl rfl) rfl h

theorem regs_modTrim x0 x1 s (h : RegsOnly l o s) : RegsOnly l o (modTrim x0 x1 s) :=
  .via (frame_modTrim _ _ _ (m := 0x200000000) .refl rfl) rfl h

theorem regs_waitComes x0 x1 s (h : RegsOnly l o s) : RegsOnly l o (waitComes x0 x1 s) :=
  .via (frame_waitComes _ _ _ (m := 0x100000) .refl rfl) rfl h

theorem regs_calAdj x0 s (h : RegsOnly l o s) : RegsOnly l o (calAdj x0 s) :=
  .via (frame_calAdj _ _ (m := 0x2000000100) .refl rfl) rfl h

theorem regs_keyAtBeacon x0 s (h : RegsOnly l o s) : RegsOnly l o (keyAtBeacon x0 s) :=
  .via (frame_keyAtBeacon _ _ (m := 0x4000000000) .refl rfl) rfl h

theorem regs_raiseLine x0 s (h : RegsOnly l o s) : RegsOnly l o (raiseLine x0 s) :=
  .via (frame_raiseLine _ _ (m := 0x2000) .refl rfl) rfl h

theorem regs_steer x0 s (h : RegsOnly l o s) : RegsOnly l o (steer x0 s) :=
  .via (frame_steer _ _ (m := 0x4000000080) .refl rfl) rfl h

theorem regs_wdtRestart s (h : RegsOnly l o s) : RegsOnly l o (wdtRestart s) :=
  .via (frame_wdtRestart _ (m := 0x200) .refl rfl) rfl h

theorem regs_powerGo x0 s (h : RegsOnly l o s) : RegsOnly l o (powerGo x0 s) :=
  .via (frame_powerGo _ _ (m := 0x186000B9AC) .refl rfl) rfl h

theorem regs_actuatorRetired x0 s (h : RegsOnly l o s) : RegsOnly l o (actuatorRetired x0 s) :=
  .via (frame_actuatorRetired _ _ (m := 0x1800038180) .refl rfl) rfl h

theorem regs_powerLit s (h : RegsOnly l o s) : RegsOnly l o (powerLit s) :=
  .via (frame_powerLit _ (m := 0x1800006900) .refl rfl) rfl h

theorem regs_leaveGo x0 x1 x2 s (h : RegsOnly l o s) : RegsOnly l o (leaveGo x0 x1 x2 s) :=
  .via (frame_leaveGo _ _ _ _ (m := 0x1800006100) .refl rfl) rfl h

theorem regs_recordEvent x0 x1 x2 x3 x4 s (h : RegsOnly l o s) : RegsOnly l o (recordEvent x0 x1 x2 x3 x4 s) :=
  .via (frame_recordEvent _ _ _ _ _ _ (m := 0x1800000100) .refl rfl) rfl h

theorem regs_State_drawn s (h : RegsOnly l o s) : RegsOnly l o (State.drawn s) :=
  .via (frame_State_drawn _ (m := 0x80) .refl rfl) rfl h

theorem regs_startFanout x0 x1 s (h : RegsOnly l o s) : RegsOnly l o (startFanout x0 x1 s) :=
  .via (frame_startFanout _ _ _ (m := 0x4000000000) .refl rfl) rfl h

theorem regs_matchCmd x0 x1 x2 s (h : RegsOnly l o s) : RegsOnly l o (matchCmd x0 x1 x2 s) :=
  .via (frame_matchCmd _ _ _ _ (m := 0x1AEDB3F1A0) .refl rfl) rfl h

theorem regs_State_modLgr x0 s (h : RegsOnly l o s) : RegsOnly l o (State.modLgr x0 s) :=
  .via (frame_State_modLgr _ _ (m := 0x10000) .refl rfl) rfl h

theorem regs_pprResult x0 x1 s (h : RegsOnly l o s) : RegsOnly l o (pprResult x0 x1 s) :=
  .via (frame_pprResult _ _ _ (m := 0x1820002100) .refl rfl) rfl h

theorem regs_flushRegion x0 s (h : RegsOnly l o s) : RegsOnly l o (flushRegion x0 s) :=
  .via (frame_flushRegion _ _ (m := 0x1860000120) .refl rfl) rfl h

theorem regs_rangeGo x0 s (h : RegsOnly l o s) : RegsOnly l o (rangeGo x0 s) :=
  .via (frame_rangeGo _ _ (m := 0x1840002100) .refl rfl) rfl h

theorem regs_State_modSve x0 x1 s (h : RegsOnly l o s) : RegsOnly l o (State.modSve x0 x1 s) :=
  .via (frame_State_modSve _ _ _ (m := 0x1000000) .refl rfl) rfl h

theorem regs_engineStart x0 s (h : RegsOnly l o s) : RegsOnly l o (engineStart x0 s) :=
  .via (frame_engineStart _ _ (m := 0x1102000) .refl rfl) rfl h

theorem regs_retractStart x0 x1 x2 s (h : RegsOnly l o s) : RegsOnly l o (retractStart x0 x1 x2 s) :=
  .via (frame_retractStart _ _ _ _ (m := 0x1A1DB2A180) .refl rfl) rfl h

theorem regs_traceTake x0 s (h : RegsOnly l o s) : RegsOnly l o (traceTake x0 s) :=
  .via (frame_traceTake _ _ (m := 0x1002000) .refl rfl) rfl h

theorem regs_jumpStart x0 x1 x2 x3 x4 s (h : RegsOnly l o s) : RegsOnly l o (jumpStart x0 x1 x2 x3 x4 s) :=
  .via (frame_jumpStart _ _ _ _ _ _ (m := 0x11000000) .refl rfl) rfl h

theorem regs_sweepStart x0 s (h : RegsOnly l o s) : RegsOnly l o (sweepStart x0 s) :=
  .via (frame_sweepStart _ _ (m := 0x11000000) .refl rfl) rfl h

theorem regs_State_modSec x0 s (h : RegsOnly l o s) : RegsOnly l o (State.modSec x0 s) :=
  .via (frame_State_modSec _ _ (m := 0x80000000) .refl rfl) rfl h

theorem regs_State_modSys x0 s (h : RegsOnly l o s) : RegsOnly l o (State.modSys x0 s) :=
  .via (frame_State_modSys _ _ (m := 0x200) .refl rfl) rfl h

theorem regs_deriveKeys s (h : RegsOnly l o s) : RegsOnly l o (deriveKeys s) :=
  .via (frame_deriveKeys _ (m := 0x80000000) .refl rfl) rfl h

theorem regs_extendMeas x0 x1 s (h : RegsOnly l o s) : RegsOnly l o (extendMeas x0 x1 s) :=
  .via (frame_extendMeas _ _ _ (m := 0x80000000) .refl rfl) rfl h

theorem regs_measureStage s (h : RegsOnly l o s) : RegsOnly l o (measureStage s) :=
  .via (frame_measureStage _ (m := 0x80000080) .refl rfl) rfl h

theorem regs_bistResults x0 s (h : RegsOnly l o s) : RegsOnly l o (bistResults x0 s) :=
  .via (frame_bistResults _ _ (m := 0x186003A3A0) .refl rfl) rfl h

theorem regs_releaseCore x0 s (h : RegsOnly l o s) : RegsOnly l o (releaseCore x0 s) :=
  .via (frame_releaseCore _ _ (m := 0x1880080F80) .refl rfl) rfl h

theorem regs_trainLink x0 s (h : RegsOnly l o s) : RegsOnly l o (trainLink x0 s) :=
  .via (frame_trainLink _ _ (m := 0xA000) .refl rfl) rfl h

theorem regs_State_modPwr x0 s (h : RegsOnly l o s) : RegsOnly l o (State.modPwr x0 s) :=
  .via (frame_State_modPwr _ _ (m := 0x800) .refl rfl) rfl h

theorem regs_State_modHce x0 s (h : RegsOnly l o s) : RegsOnly l o (State.modHce x0 s) :=
  .via (frame_State_modHce _ _ (m := 0x8000) .refl rfl) rfl h

theorem regs_wakeRecord x0 x1 s (h : RegsOnly l o s) : RegsOnly l o (wakeRecord x0 x1 s) :=
  .via (frame_wakeRecord _ _ _ (m := 0x1800000900) .refl rfl) rfl h

theorem regs_unwindEntry x0 s (h : RegsOnly l o s) : RegsOnly l o (unwindEntry x0 s) :=
  .via (frame_unwindEntry _ _ (m := 0x186000B9AC) .refl rfl) rfl h

theorem regs_xo32kFails s (h : RegsOnly l o s) : RegsOnly l o (xo32kFails s) :=
  .via (frame_xo32kFails _ (m := 0x3800000500) .refl rfl) rfl h

theorem regs_psProceed x0 s (h : RegsOnly l o s) : RegsOnly l o (psProceed x0 s) :=
  .via (frame_psProceed _ _ (m := 0x186001B9A0) .refl rfl) rfl h

theorem regs_endGrant x0 x1 s (h : RegsOnly l o s) : RegsOnly l o (endGrant x0 x1 s) :=
  .via (frame_endGrant _ _ _ (m := 0x1800006100) .refl rfl) rfl h

theorem regs_walkQueue s (h : RegsOnly l o s) : RegsOnly l o (walkQueue s) :=
  .via (frame_walkQueue _ (m := 0x6000) .refl rfl) rfl h

theorem regs_State_modLlt x0 s (h : RegsOnly l o s) : RegsOnly l o (State.modLlt x0 s) :=
  .via (frame_State_modLlt _ _ (m := 0x4000) .refl rfl) rfl h

theorem regs_State_modPort x0 x1 s (h : RegsOnly l o s) : RegsOnly l o (State.modPort x0 x1 s) :=
  .via (frame_State_modPort _ _ _ (m := 0x4000) .refl rfl) rfl h

theorem regs_countClass x0 x1 s (h : RegsOnly l o s) : RegsOnly l o (countClass x0 x1 s) :=
  .via (frame_countClass _ _ _ (m := 0x4000) .refl rfl) rfl h

theorem regs_freeTicket x0 s (h : RegsOnly l o s) : RegsOnly l o (freeTicket x0 s) :=
  .via (frame_freeTicket _ _ (m := 0x4000) .refl rfl) rfl h

theorem regs_guarantee x0 x1 x2 x3 x4 x5 s (h : RegsOnly l o s) : RegsOnly l o (guarantee x0 x1 x2 x3 x4 x5 s) :=
  .via (frame_guarantee _ _ _ _ _ _ _ (m := 0x1800000100) .refl rfl) rfl h

theorem regs_leaveLost x0 s (h : RegsOnly l o s) : RegsOnly l o (leaveLost x0 s) :=
  .via (frame_leaveLost _ _ (m := 0x2000) .refl rfl) rfl h

theorem regs_portLine x0 s (h : RegsOnly l o s) : RegsOnly l o (portLine x0 s) :=
  .via (frame_portLine _ _ (m := 0x2000) .refl rfl) rfl h

theorem regs_thermLower s (h : RegsOnly l o s) : RegsOnly l o (thermLower s) :=
  .via (frame_thermLower _ (m := 0x1800004100) .refl rfl) rfl h

theorem regs_thermRaise s (h : RegsOnly l o s) : RegsOnly l o (thermRaise s) :=
  .via (frame_thermRaise _ (m := 0x1800004100) .refl rfl) rfl h

theorem regs_limitPassed x0 s (h : RegsOnly l o s) : RegsOnly l o (limitPassed x0 s) :=
  .via (frame_limitPassed _ _ (m := 0x1800038180) .refl rfl) rfl h

theorem regs_finish x0 x1 s (h : RegsOnly l o s) : RegsOnly l o (finish x0 x1 s) :=
  .via (frame_finish _ _ _ (m := 0x18080) .refl rfl) rfl h

theorem regs_rootFollow s (h : RegsOnly l o s) : RegsOnly l o (rootFollow s) :=
  .via (frame_rootFollow _ (m := 0x4000000000) .refl rfl) rfl h

theorem regs_saveFeature x0 x1 s (h : RegsOnly l o s) : RegsOnly l o (saveFeature x0 x1 s) :=
  .via (frame_saveFeature _ _ _ (m := 0x8000) .refl rfl) rfl h

theorem regs_setCtrl x0 x1 s (h : RegsOnly l o s) : RegsOnly l o (setCtrl x0 x1 s) :=
  .via (frame_setCtrl _ _ _ (m := 0x8000) .refl rfl) rfl h

theorem regs_nsDelete x0 s (h : RegsOnly l o s) : RegsOnly l o (nsDelete x0 s) :=
  .via (frame_nsDelete _ _ (m := 0x80038080) .refl rfl) rfl h

theorem regs_fallThrough x0 s (h : RegsOnly l o s) : RegsOnly l o (fallThrough x0 s) :=
  .via (frame_fallThrough _ _ (m := 0x1A6D30F1A0) .refl rfl) rfl h

theorem regs_transfer x0 x1 x2 s (h : RegsOnly l o s) : RegsOnly l o (transfer x0 x1 x2 s) :=
  .via (frame_transfer _ _ _ _ (m := 0x1A6D30F1A0) .refl rfl) rfl h

theorem regs_seqCallDo x0 s (h : RegsOnly l o s) : RegsOnly l o (seqCallDo x0 s) :=
  .via (frame_seqCallDo _ _ (m := 0x1A6D30F1A0) .refl rfl) rfl h

theorem regs_seqRetDo x0 s (h : RegsOnly l o s) : RegsOnly l o (seqRetDo x0 s) :=
  .via (frame_seqRetDo _ _ (m := 0x1A6D30F1A0) .refl rfl) rfl h

theorem regs_seqBranch x0 x1 s (h : RegsOnly l o s) : RegsOnly l o (seqBranch x0 x1 s) :=
  .via (frame_seqBranch _ _ _ (m := 0x1A6D30F1A0) .refl rfl) rfl h

theorem regs_seqDispatchDo x0 s (h : RegsOnly l o s) : RegsOnly l o (seqDispatchDo x0 s) :=
  .via (frame_seqDispatchDo _ _ (m := 0x1A6D30F1A0) .refl rfl) rfl h

theorem regs_seqLoopDo x0 s (h : RegsOnly l o s) : RegsOnly l o (seqLoopDo x0 s) :=
  .via (frame_seqLoopDo _ _ (m := 0x1A6D30F1A0) .refl rfl) rfl h

theorem regs_enterHandler x0 x1 x2 s (h : RegsOnly l o s) : RegsOnly l o (enterHandler x0 x1 x2 s) :=
  .via (frame_enterHandler _ _ _ _ (m := 0x1A0C302180) .refl rfl) rfl h

theorem regs_State_modAsq x0 x1 s (h : RegsOnly l o s) : RegsOnly l o (State.modAsq x0 x1 s) :=
  .via (frame_State_modAsq _ _ _ (m := 0x100000) .refl rfl) rfl h

theorem regs_requestArrives x0 s (h : RegsOnly l o s) : RegsOnly l o (requestArrives x0 s) :=
  .via (frame_requestArrives _ _ (m := 0x1A0C302180) .refl rfl) rfl h

theorem regs_answer x0 x1 x2 s (h : RegsOnly l o s) : RegsOnly l o (answer x0 x1 x2 s) :=
  .via (frame_answer _ _ _ _ (m := 0x1880000100) .refl rfl) rfl h

theorem regs_armCst x0 s (h : RegsOnly l o s) : RegsOnly l o (armCst x0 s) :=
  .via (frame_armCst _ _ (m := 0x1800182100) .refl rfl) rfl h

theorem regs_releaseHolds s (h : RegsOnly l o s) : RegsOnly l o (releaseHolds s) :=
  .via (frame_releaseHolds _ (m := 0x100000) .refl rfl) rfl h

theorem regs_abandonMoves x0 x1 s (h : RegsOnly l o s) : RegsOnly l o (abandonMoves x0 x1 s) :=
  .via (frame_abandonMoves _ _ _ (m := 0x1811102100) .refl rfl) rfl h

theorem regs_State_modPu x0 x1 s (h : RegsOnly l o s) : RegsOnly l o (State.modPu x0 x1 s) :=
  .via (frame_State_modPu _ _ _ (m := 0x10000000) .refl rfl) rfl h

theorem regs_setFocused x0 x1 s (h : RegsOnly l o s) : RegsOnly l o (setFocused x0 x1 s) :=
  .via (frame_setFocused _ _ _ (m := 0x10000100) .refl rfl) rfl h

theorem regs_sveLine x0 x1 s (h : RegsOnly l o s) : RegsOnly l o (sveLine x0 x1 s) :=
  .via (frame_sveLine _ _ _ (m := 0x2000) .refl rfl) rfl h

theorem regs_alignStart s (h : RegsOnly l o s) : RegsOnly l o (alignStart s) :=
  .via (frame_alignStart _ (m := 0x1802000100) .refl rfl) rfl h

theorem regs_spnFault x0 s (h : RegsOnly l o s) : RegsOnly l o (spnFault x0 s) :=
  .via (frame_spnFault _ _ (m := 0x1A0EB2A180) .refl rfl) rfl h

theorem regs_State_modSpn x0 s (h : RegsOnly l o s) : RegsOnly l o (State.modSpn x0 s) :=
  .via (frame_State_modSpn _ _ (m := 0x2000000) .refl rfl) rfl h

theorem regs_brakeSpeed s (h : RegsOnly l o s) : RegsOnly l o (brakeSpeed s) :=
  .via (frame_brakeSpeed _ (m := 0x2000000) .refl rfl) rfl h

theorem regs_crossingBad s (h : RegsOnly l o s) : RegsOnly l o (crossingBad s) :=
  .via (frame_crossingBad _ (m := 0x1A1FB2A180) .refl rfl) rfl h

theorem regs_crossingGood s (h : RegsOnly l o s) : RegsOnly l o (crossingGood s) :=
  .via (frame_crossingGood _ (m := 0x1802002100) .refl rfl) rfl h

theorem regs_revStep x0 s (h : RegsOnly l o s) : RegsOnly l o (revStep x0 s) :=
  .via (frame_revStep _ _ (m := 0x1802042100) .refl rfl) rfl h

theorem regs_unloadCheck x0 s (h : RegsOnly l o s) : RegsOnly l o (unloadCheck x0 s) :=
  .via (frame_unloadCheck _ _ (m := 0x1A1FB2A180) .refl rfl) rfl h

theorem regs_recoveryFails s (h : RegsOnly l o s) : RegsOnly l o (recoveryFails s) :=
  .via (frame_recoveryFails _ (m := 0x1A1FB2A180) .refl rfl) rfl h

theorem regs_State_modLaser x0 x1 s (h : RegsOnly l o s) : RegsOnly l o (State.modLaser x0 x1 s) :=
  .via (frame_State_modLaser _ _ _ (m := 0x8000000) .refl rfl) rfl h

theorem regs_judgeReading x0 x1 s (h : RegsOnly l o s) : RegsOnly l o (judgeReading x0 x1 s) :=
  .via (frame_judgeReading _ _ _ (m := 0x1A0CB22180) .refl rfl) rfl h

theorem regs_readPower x0 x1 s (h : RegsOnly l o s) : RegsOnly l o (readPower x0 x1 s) :=
  .via (frame_readPower _ _ _ (m := 0x1A0CB22180) .refl rfl) rfl h

theorem regs_optBump x0 x1 x2 s (h : RegsOnly l o s) : RegsOnly l o (optBump x0 x1 x2 s) :=
  .via (frame_optBump _ _ _ _ (m := 0x10000100) .refl rfl) rfl h

theorem regs_programFuses s (h : RegsOnly l o s) : RegsOnly l o (programFuses s) :=
  .via (frame_programFuses _ (m := 0x1800000180) .refl rfl) rfl h

theorem regs_newKey x0 x1 x2 x3 s (h : RegsOnly l o s) : RegsOnly l o (newKey x0 x1 x2 x3 s) :=
  .via (frame_newKey _ _ _ _ _ (m := 0x80000080) .refl rfl) rfl h

theorem regs_respondFree x0 s (h : RegsOnly l o s) : RegsOnly l o (respondFree x0 s) :=
  .via (frame_respondFree _ _ (m := 0x18E00031A0) .refl rfl) rfl h

theorem regs_zeroSlot x0 s (h : RegsOnly l o s) : RegsOnly l o (zeroSlot x0 s) :=
  .via (frame_zeroSlot _ _ (m := 0x80000000) .refl rfl) rfl h

theorem regs_respondRecords x0 x1 s (h : RegsOnly l o s) : RegsOnly l o (respondRecords x0 x1 s) :=
  .via (frame_respondRecords _ _ _ (m := 0x18E00031A0) .refl rfl) rfl h

theorem regs_storeRecords x0 s (h : RegsOnly l o s) : RegsOnly l o (storeRecords x0 s) :=
  .via (frame_storeRecords _ _ (m := 0x80000000) .refl rfl) rfl h

theorem regs_setNsKey x0 x1 x2 s (h : RegsOnly l o s) : RegsOnly l o (setNsKey x0 x1 x2 s) :=
  .via (frame_setNsKey _ _ _ _ (m := 0x80000000) .refl rfl) rfl h

theorem regs_snuff1 x0 s (h : RegsOnly l o s) : RegsOnly l o (snuff1 x0 s) :=
  .via (frame_snuff1 _ _ (m := 0x5A8CB22980) .refl rfl) rfl h

theorem regs_snuff2 x0 s (h : RegsOnly l o s) : RegsOnly l o (snuff2 x0 s) :=
  .via (frame_snuff2 _ _ (m := 0x5A8CB22980) .refl rfl) rfl h

theorem regs_blowAlarm x0 s (h : RegsOnly l o s) : RegsOnly l o (blowAlarm x0 s) :=
  .via (frame_blowAlarm _ _ (m := 0x5A8CB22980) .refl rfl) rfl h

theorem regs_deallocWiped x0 s (h : RegsOnly l o s) : RegsOnly l o (deallocWiped x0 s) :=
  .via (frame_deallocWiped _ _ (m := 0x80020000) .refl rfl) rfl h

theorem regs_startQuiet s (h : RegsOnly l o s) : RegsOnly l o (startQuiet s) :=
  .via (frame_startQuiet _ (m := 0x5800000100) .refl rfl) rfl h

theorem regs_unwrapRec x0 s (h : RegsOnly l o s) : RegsOnly l o (unwrapRec x0 s) :=
  .via (frame_unwrapRec _ _ (m := 0x1880000100) .refl rfl) rfl h

theorem regs_zeroKst s (h : RegsOnly l o s) : RegsOnly l o (zeroKst s) :=
  .via (frame_zeroKst _ (m := 0x80000000) .refl rfl) rfl h

theorem regs_debugAnswer x0 x1 x2 x3 s (h : RegsOnly l o s) : RegsOnly l o (debugAnswer x0 x1 x2 x3 s) :=
  .via (frame_debugAnswer _ _ _ _ _ (m := 0x5A8CB22B80) .refl rfl) rfl h

theorem regs_State_modThm x0 s (h : RegsOnly l o s) : RegsOnly l o (State.modThm x0 s) :=
  .via (frame_State_modThm _ _ (m := 0x100000000) .refl rfl) rfl h

theorem regs_sendSeg s (h : RegsOnly l o s) : RegsOnly l o (sendSeg s) :=
  .via (frame_sendSeg _ (m := 0x4000002000) .refl rfl) rfl h

theorem regs_beaconFailed s (h : RegsOnly l o s) : RegsOnly l o (beaconFailed s) :=
  .via (frame_beaconFailed _ (m := 0x5800002100) .refl rfl) rfl h

theorem regs_beaconLost s (h : RegsOnly l o s) : RegsOnly l o (beaconLost s) :=
  .via (frame_beaconLost _ (m := 0x5800002100) .refl rfl) rfl h

theorem regs_clearLease s (h : RegsOnly l o s) : RegsOnly l o (clearLease s) :=
  .via (frame_clearLease _ (m := 0x1800006100) .refl rfl) rfl h

theorem regs_startOrphan s (h : RegsOnly l o s) : RegsOnly l o (startOrphan s) :=
  .via (frame_startOrphan _ (m := 0x4000000080) .refl rfl) rfl h

theorem regs_setLease x0 x1 s (h : RegsOnly l o s) : RegsOnly l o (setLease x0 x1 s) :=
  .via (frame_setLease _ _ _ (m := 0x6000) .refl rfl) rfl h

theorem regs_toHoldover s (h : RegsOnly l o s) : RegsOnly l o (toHoldover s) :=
  .via (frame_toHoldover _ (m := 0x5800002100) .refl rfl) rfl h

theorem regs_modSlot x0 x1 s (h : RegsOnly l o s) : RegsOnly l o (modSlot x0 x1 s) :=
  .via (frame_modSlot _ _ _ (m := 0x4000000000) .refl rfl) rfl h

theorem regs_removeSlot x0 s (h : RegsOnly l o s) : RegsOnly l o (removeSlot x0 s) :=
  .via (frame_removeSlot _ _ (m := 0x5800002100) .refl rfl) rfl h

theorem regs_unenrol s (h : RegsOnly l o s) : RegsOnly l o (unenrol s) :=
  .via (frame_unenrol _ (m := 0x4000000000) .refl rfl) rfl h

theorem regs_vlkReceive x0 x1 x2 x3 x4 x5 x6 s (h : RegsOnly l o s) (k : ∀ t, RegsOnly l o t → RegsOnly l o (x5 t))
    (k' : ∀ t, RegsOnly l o t → RegsOnly l o (x6 t)) : RegsOnly l o (vlkReceive x0 x1 x2 x3 x4 x5 x6 s) := by
  unfold vlkReceive
  repeat' first | (with_reducible first | exact .refl | assumption | intro _ | refine regs_notePolarity _ _ _ ?_ | refine regs_vlkBump _ _ ?_ | refine regs_State_modVlk _ _ ?_ | refine RegsOnly.ite ?_ ?_) | apply k | apply k' | decide | split | unfold id | dsimp only

theorem regs_upSeg x0 x1 x2 s (h : RegsOnly l o s) (k : ∀ t, RegsOnly l o t → RegsOnly l o (x1 t))
    (k' : ∀ t, RegsOnly l o t → RegsOnly l o (x2 t)) : RegsOnly l o (upSeg x0 x1 x2 s) := by
  unfold upSeg
  refine regs_vlkReceive _ _ _ _ _ _ _ _ h k fun t ht => k' _ ?_
  exact .via (frame_State_modVlk _ _ (m := 0x4000000000) .refl rfl) rfl ht

theorem regs_storeFields x0 x1 x2 x3 s (h : RegsOnly l o s) (e : ∀ x ∈ [(x0, x1, x2)], x ∈ l) : RegsOnly l o (storeFields x0 x1 x2 x3 s) := by
  unfold storeFields
  repeat' first | (with_reducible first | exact .refl | assumption) | (with_reducible intro x hx; refine e x ?_; first | exact hx | exact List.mem_cons_of_mem _ hx | (simp only [calRegs, startRegs, List.mem_cons, List.not_mem_nil, or_false] at hx ⊢; tauto) | (unfold wakeRegs; first | exact List.mem_append_left _ hx | exact List.mem_append_right _ hx)) | (with_reducible first | intro _ | refine regs_blockError _ _ _ _ _ ?_ | refine regs_setReg _ _ _ _ _ ?_ ?_ | refine RegsOnly.ite ?_ ?_) | decide | split | unfold id | dsimp only

theorem regs_fireAlarm s (h : RegsOnly l o s) (e : ∀ x ∈ [(Reg.calAlm1, 0, 0)], x ∈ l) : RegsOnly l o (fireAlarm s) := by
  unfold fireAlarm
  repeat' first | (with_reducible first | exact .refl | assumption) | (with_reducible intro x hx; refine e x ?_; first | exact hx | exact List.mem_cons_of_mem _ hx | (simp only [calRegs, startRegs, List.mem_cons, List.not_mem_nil, or_false] at hx ⊢; tauto) | (unfold wakeRegs; first | exact List.mem_append_left _ hx | exact List.mem_append_right _ hx)) | (with_reducible first | intro _ | refine regs_ev _ _ _ _ _ _ ?_ | refine regs_noteWake _ _ ?_ | refine regs_setFld _ _ _ _ _ _ _ ?_ ?_ | refine regs_setIrqStat _ _ _ _ ?_ | refine RegsOnly.ite ?_ ?_) | decide | split | unfold id | dsimp only

theorem regs_calRun x0 s (h : RegsOnly l o s) (e : ∀ x ∈ [(Reg.calAlm1, 0, 0)], x ∈ l) : RegsOnly l o (calRun x0 s) := by
  unfold calRun
  repeat' first | (with_reducible first | exact .refl | assumption) | (with_reducible intro x hx; refine e x ?_; first | exact hx | exact List.mem_cons_of_mem _ hx | (simp only [calRegs, startRegs, List.mem_cons, List.not_mem_nil, or_false] at hx ⊢; tauto) | (unfold wakeRegs; first | exact List.mem_append_left _ hx | exact List.mem_append_right _ hx)) | (with_reducible first | intro _ | refine regs_fireAlarm _ ?_ ?_ | refine regs_setIrqStat _ _ _ _ ?_ | refine RegsOnly.ite ?_ ?_) | fail_if_no_progress (with_reducible refine RegsOnly.set_cal ?_) | decide | split | unfold id | dsimp only

theorem regs_calCount x0 s (h : RegsOnly l o s) (e : ∀ x ∈ [(Reg.calAlm1, 0, 0)], x ∈ l) : RegsOnly l o (calCount x0 s) := by
  unfold calCount
  repeat' first | (with_reducible first | exact .refl | assumption) | (with_reducible intro x hx; refine e x ?_; first | exact hx | exact List.mem_cons_of_mem _ hx | (simp only [calRegs, startRegs, List.mem_cons, List.not_mem_nil, or_false] at hx ⊢; tauto) | (unfold wakeRegs; first | exact List.mem_append_left _ hx | exact List.mem_append_right _ hx)) | (with_reducible first | intro _ | refine regs_calRun _ _ ?_ ?_ | refine RegsOnly.ite ?_ ?_) | decide | split | unfold id | dsimp only

theorem regs_elapse x0 s (h : RegsOnly l o s) (e : ∀ x ∈ [(Reg.calAlm1, 0, 0)], x ∈ l) : RegsOnly l o (elapse x0 s) := by
  unfold elapse
  repeat' first | (with_reducible first | exact .refl | assumption) | (with_reducible intro x hx; refine e x ?_; first | exact hx | exact List.mem_cons_of_mem _ hx | (simp only [calRegs, startRegs, List.mem_cons, List.not_mem_nil, or_false] at hx ⊢; tauto) | (unfold wakeRegs; first | exact List.mem_append_left _ hx | exact List.mem_append_right _ hx)) | (with_reducible first | intro _ | refine regs_calCount _ _ ?_ ?_ | refine regs_vlkCount _ _ ?_ | refine RegsOnly.ite ?_ ?_) | fail_if_no_progress (with_reducible refine RegsOnly.set_us_sys ?_) | fail_if_no_progress (with_reducible refine RegsOnly.set_us ?_) | fail_if_no_progress (with_reducible refine RegsOnly.set_sys ?_) | decide | split | unfold id | dsimp only

theorem regs_advanceTo x0 s (h : RegsOnly l o s) (e : ∀ x ∈ [(Reg.calAlm1, 0, 0)], x ∈ l) : RegsOnly l o (advanceTo x0 s) := by
  unfold advanceTo
  repeat' first | (with_reducible first | exact .refl | assumption) | (with_reducible intro x hx; refine e x ?_; first | exact hx | exact List.mem_cons_of_mem _ hx | (simp only [calRegs, startRegs, List.mem_cons, List.not_mem_nil, or_false] at hx ⊢; tauto) | (unfold wakeRegs; first | exact List.mem_append_left _ hx | exact List.mem_append_right _ hx)) | (with_reducible first | intro _ | refine regs_elapse _ _ ?_ ?_ | refine RegsOnly.ite ?_ ?_) | decide | split | unfold id | dsimp only

theorem regs_calSet x0 s (h : RegsOnly l o s) (e : ∀ x ∈ [(Reg.calAlm1, 0, 0)], x ∈ l) : RegsOnly l o (calSet x0 s) := by
  unfold calSet
  repeat' first | (with_reducible first | exact .refl | assumption) | (with_reducible intro x hx; refine e x ?_; first | exact hx | exact List.mem_cons_of_mem _ hx | (simp only [calRegs, startRegs, List.mem_cons, List.not_mem_nil, or_false] at hx ⊢; tauto) | (unfold wakeRegs; first | exact List.mem_append_left _ hx | exact List.mem_append_right _ hx)) | (with_reducible first | intro _ | refine regs_State_modEvr _ _ ?_ | refine regs_blockErrorP _ _ _ _ _ _ _ _ ?_ | refine regs_ev _ _ _ _ _ _ ?_ | refine regs_fireAlarm _ ?_ ?_ | refine RegsOnly.ite ?_ ?_) | fail_if_no_progress (with_reducible refine RegsOnly.set_cal ?_) | decide | split | unfold id | dsimp only

theorem regs_stepTrim x0 s (h : RegsOnly l o s) (e : ∀ x ∈ [(Reg.calAlm1, 0, 0)], x ∈ l) : RegsOnly l o (stepTrim x0 s) := by
  unfold stepTrim
  repeat' first | (with_reducible first | exact .refl | assumption) | (with_reducible intro x hx; refine e x ?_; first | exact hx | exact List.mem_cons_of_mem _ hx | (simp only [calRegs, startRegs, List.mem_cons, List.not_mem_nil, or_false] at hx ⊢; tauto) | (unfold wakeRegs; first | exact List.mem_append_left _ hx | exact List.mem_append_right _ hx)) | (with_reducible first | intro _ | refine regs_State_modRwc _ _ _ ?_ | refine regs_advanceTo _ _ ?_ ?_ | refine regs_feedForward _ _ _ _ ?_ | refine regs_modTrim _ _ _ ?_ | refine regs_waitComes _ _ _ ?_ | refine RegsOnly.ite ?_ ?_) | fail_if_no_progress (with_reducible refine RegsOnly.set_trm ?_) | decide | split | unfold id | dsimp only

theorem regs_writeCalCmd x0 s (h : RegsOnly l o s) (e : ∀ x ∈ [(Reg.calAlm1, 0, 0)], x ∈ l) : RegsOnly l o (writeCalCmd x0 s) := by
  unfold writeCalCmd
  repeat' first | (with_reducible first | exact .refl | assumption) | (with_reducible intro x hx; refine e x ?_; first | exact hx | exact List.mem_cons_of_mem _ hx | (simp only [calRegs, startRegs, List.mem_cons, List.not_mem_nil, or_false] at hx ⊢; tauto) | (unfold wakeRegs; first | exact List.mem_append_left _ hx | exact List.mem_append_right _ hx)) | (with_reducible first | intro _ | refine regs_calSet _ _ ?_ ?_ | refine RegsOnly.ite ?_ ?_) | decide | split | unfold id | dsimp only

theorem regs_calLoad x0 x1 x2 s (h : RegsOnly l o s) (e : ∀ x ∈ calRegs, x ∈ l) : RegsOnly l o (calLoad x0 x1 x2 s) := by
  unfold calLoad
  repeat' first | (with_reducible first | exact .refl | assumption) | (with_reducible intro x hx; refine e x ?_; first | exact hx | exact List.mem_cons_of_mem _ hx | (simp only [calRegs, startRegs, List.mem_cons, List.not_mem_nil, or_false] at hx ⊢; tauto) | (unfold wakeRegs; first | exact List.mem_append_left _ hx | exact List.mem_append_right _ hx)) | (with_reducible first | intro _ | refine regs_calSet _ _ ?_ ?_ | refine regs_setReg _ _ _ _ _ ?_ ?_ | refine RegsOnly.ite ?_ ?_) | decide | split | unfold id | dsimp only

theorem regs_writeCalAdj x0 s (h : RegsOnly l o s) (e : ∀ x ∈ [(Reg.calAdj, 0, 0)], x ∈ l) : RegsOnly l o (writeCalAdj x0 s) := by
  unfold writeCalAdj
  repeat' first | (with_reducible first | exact .refl | assumption) | (with_reducible intro x hx; refine e x ?_; first | exact hx | exact List.mem_cons_of_mem _ hx | (simp only [calRegs, startRegs, List.mem_cons, List.not_mem_nil, or_false] at hx ⊢; tauto) | (unfold wakeRegs; first | exact List.mem_append_left _ hx | exact List.mem_append_right _ hx)) | (with_reducible first | intro _ | refine regs_calAdj _ _ ?_ | refine regs_storeFields _ _ _ _ _ ?_ ?_ | refine RegsOnly.ite ?_ ?_) | decide | split | unfold id | dsimp only

theorem regs_steerCal s (h : RegsOnly l o s) (e : ∀ x ∈ (Reg.calAdj, 0, 0) :: calRegs, x ∈ l) : RegsOnly l o (steerCal s) := by
  unfold steerCal
  repeat' first | (with_reducible first | exact .refl | assumption) | (with_reducible intro x hx; refine e x ?_; first | exact hx | exact List.mem_cons_of_mem _ hx | (simp only [calRegs, startRegs, List.mem_cons, List.not_mem_nil, or_false] at hx ⊢; tauto) | (unfold wakeRegs; first | exact List.mem_append_left _ hx | exact List.mem_append_right _ hx)) | (with_reducible first | intro _ | refine regs_calLoad _ _ _ _ ?_ ?_ | refine regs_ev _ _ _ _ _ _ ?_ | refine regs_writeCalAdj _ _ ?_ ?_ | refine RegsOnly.ite ?_ ?_) | decide | split | unfold id | dsimp only

theorem regs_beaconTaken x0 s (h : RegsOnly l o s) (e : ∀ x ∈ (Reg.calAdj, 0, 0) :: calRegs, x ∈ l) : RegsOnly l o (beaconTaken x0 s) := by
  unfold beaconTaken
  repeat' first | (with_reducible first | exact .refl | assumption) | (with_reducible intro x hx; refine e x ?_; first | exact hx | exact List.mem_cons_of_mem _ hx | (simp only [calRegs, startRegs, List.mem_cons, List.not_mem_nil, or_false] at hx ⊢; tauto) | (unfold wakeRegs; first | exact List.mem_append_left _ hx | exact List.mem_append_right _ hx)) | (with_reducible first | intro _ | refine regs_State_modVlk _ _ ?_ | refine regs_ev _ _ _ _ _ _ ?_ | refine regs_keyAtBeacon _ _ ?_ | refine regs_raiseLine _ _ ?_ | refine regs_steer _ _ ?_ | refine regs_steerCal _ ?_ ?_ | refine regs_vlkBump _ _ ?_ | refine RegsOnly.ite ?_ ?_) | decide | split | unfold id | dsimp only

theorem regs_routeWrite x0 x1 x2 s (h : RegsOnly l o s) (e : ∀ x ∈ [(Reg.irqRoute, 0, x1)], x ∈ l) : RegsOnly l o (routeWrite x0 x1 x2 s) := by
  unfold routeWrite
  repeat' first | (with_reducible first | exact .refl | assumption) | (with_reducible intro x hx; refine e x ?_; first | exact hx | exact List.mem_cons_of_mem _ hx | (simp only [calRegs, startRegs, List.mem_cons, List.not_mem_nil, or_false] at hx ⊢; tauto) | (unfold wakeRegs; first | exact List.mem_append_left _ hx | exact List.mem_append_right _ hx)) | (with_reducible first | intro _ | refine regs_blockError _ _ _ _ _ ?_ | refine regs_storeFields _ _ _ _ _ ?_ ?_ | refine RegsOnly.ite ?_ ?_) | decide | split | unfold id | dsimp only

theorem regs_writeWdtctl x0 s (h : RegsOnly l o s) (e : ∀ x ∈ [(Reg.wdtctl, 0, 0)], x ∈ l) : RegsOnly l o (writeWdtctl x0 s) := by
  unfold writeWdtctl
  repeat' first | (with_reducible first | exact .refl | assumption) | (with_reducible intro x hx; refine e x ?_; first | exact hx | exact List.mem_cons_of_mem _ hx | (simp only [calRegs, startRegs, List.mem_cons, List.not_mem_nil, or_false] at hx ⊢; tauto) | (unfold wakeRegs; first | exact List.mem_append_left _ hx | exact List.mem_append_right _ hx)) | (with_reducible first | intro _ | refine regs_storeFields _ _ _ _ _ ?_ ?_ | refine regs_wdtRestart _ ?_ | refine RegsOnly.ite ?_ ?_) | decide | split | unfold id | dsimp only

theorem regs_twinAccess (x0 : Fin 4) x1 x2 s (h : RegsOnly l o s) (e : ∀ x ∈ [(Reg.twinAddr, 0, x0.val)], x ∈ l) : RegsOnly l o (twinAccess x0 x1 x2 s) := by
  unfold twinAccess
  repeat' first | (with_reducible first | exact .refl | assumption) | (with_reducible intro x hx; refine e x ?_; first | exact hx | exact List.mem_cons_of_mem _ hx | (simp only [calRegs, startRegs, List.mem_cons, List.not_mem_nil, or_false] at hx ⊢; tauto) | (unfold wakeRegs; first | exact List.mem_append_left _ hx | exact List.mem_append_right _ hx)) | (with_reducible first | intro _ | refine regs_blockError _ _ _ _ _ ?_ | refine regs_setFld _ _ _ _ _ _ _ ?_ ?_ | refine RegsOnly.foldl (fun _ _ _ => ?_) ?_ | refine RegsOnly.ite ?_ ?_) | fail_if_no_progress (with_reducible refine RegsOnly.set_busData_tcm ?_) | fail_if_no_progress (with_reducible refine RegsOnly.set_busData ?_) | fail_if_no_progress (with_reducible refine RegsOnly.set_tcm ?_) | decide | split | unfold id | dsimp only

theorem regs_writePreq x0 s (h : RegsOnly l o s) (e : ∀ x ∈ [(Reg.preq, 0, 0)], x ∈ l) : RegsOnly l o (writePreq x0 s) := by
  unfold writePreq
  repeat' first | (with_reducible first | exact .refl | assumption) | (with_reducible intro x hx; refine e x ?_; first | exact hx | exact List.mem_cons_of_mem _ hx | (simp only [calRegs, startRegs, List.mem_cons, List.not_mem_nil, or_false] at hx ⊢; tauto) | (unfold wakeRegs; first | exact List.mem_append_left _ hx | exact List.mem_append_right _ hx)) | (with_reducible first | intro _ | refine regs_powerGo _ _ ?_ | refine regs_storeFields _ _ _ _ _ ?_ ?_ | refine RegsOnly.ite ?_ ?_) | decide | split | unfold id | dsimp only

theorem regs_writePdoff x0 s (h : RegsOnly l o s) (e : ∀ x ∈ [(Reg.pdoff, 0, 0)], x ∈ l) : RegsOnly l o (writePdoff x0 s) := by
  unfold writePdoff
  repeat' first | (with_reducible first | exact .refl | assumption) | (with_reducible intro x hx; refine e x ?_; first | exact hx | exact List.mem_cons_of_mem _ hx | (simp only [calRegs, startRegs, List.mem_cons, List.not_mem_nil, or_false] at hx ⊢; tauto) | (unfold wakeRegs; first | exact List.mem_append_left _ hx | exact List.mem_append_right _ hx)) | (with_reducible first | intro _ | refine regs_actuatorRetired _ _ ?_ | refine regs_blockError _ _ _ _ _ ?_ | refine regs_powerLit _ ?_ | refine regs_storeFields _ _ _ _ _ ?_ ?_ | refine RegsOnly.foldl (fun _ _ _ => ?_) ?_ | refine RegsOnly.ite ?_ ?_) | decide | split | unfold id | dsimp only

theorem regs_writeReqb (x0 : Fin 16) x1 s (h : RegsOnly l o s) (e : ∀ x ∈ [(Reg.lltReqb, 0, x0.val)], x ∈ l) : RegsOnly l o (writeReqb x0 x1 s) := by
  unfold writeReqb
  repeat' first | (with_reducible first | exact .refl | assumption) | (with_reducible intro x hx; refine e x ?_; first | exact hx | exact List.mem_cons_of_mem _ hx | (simp only [calRegs, startRegs, List.mem_cons, List.not_mem_nil, or_false] at hx ⊢; tauto) | (unfold wakeRegs; first | exact List.mem_append_left _ hx | exact List.mem_append_right _ hx)) | (with_reducible first | intro _ | refine regs_leaveGo _ _ _ _ ?_ | refine regs_storeFields _ _ _ _ _ ?_ ?_ | refine RegsOnly.ite ?_ ?_) | decide | split | unfold id | dsimp only

theorem regs_pllLoss x0 s (h : RegsOnly l o s) (e : ∀ x ∈ clkDoms, x ∈ l) : RegsOnly l o (pllLoss x0 s) := by
  have hk : ∀ k, k < 64 → ∀ x ∈ [(Reg.clkDom, 0, k)], x ∈ l := by
    intro k hk x hx
    refine e _ ?_
    rw [List.mem_singleton.1 hx]
    exact List.mem_map.2 ⟨k, List.mem_range.2 hk, rfl⟩
  unfold pllLoss
  dsimp only
  have h1 : RegsOnly l o (ev .clk 0x0E12 x0 0 0 ((List.range 64).foldl (fun s k =>
      if fedBy x0 k s then (if frcCapable k then setFld .clkDom 0 k 11 8 0 s else setFld .clkDom 0 k 0 0 1 s) else s)
      (setLock x0 false s))) := by
    refine .via (frame_ev _ _ _ _ _ _ (m := 0x1800000100) .refl rfl) rfl ?_
    refine .foldl_mem (fun u k hm hu => ?_) (.via (frame_setLock _ _ _ (m := 0x400) .refl rfl) rfl h)
    have := hk k (List.mem_range.1 hm)
    exact .ite (.ite (regs_setFld _ _ _ _ _ _ _ hu this) (regs_setFld _ _ _ _ _ _ _ hu this)) hu
  exact .ite (.via (frame_pllSFault _ (m := 0x1A1FB2A180) .refl rfl) rfl h1) h1

theorem regs_writeClkDom x0 x1 s (h : RegsOnly l o s) (e : ∀ x ∈ [(Reg.clkDom, 0, x0)], x ∈ l) : RegsOnly l o (writeClkDom x0 x1 s) := by
  unfold writeClkDom
  repeat' first | (with_reducible first | exact .refl | assumption) | (with_reducible intro x hx; refine e x ?_; first | exact hx | exact List.mem_cons_of_mem _ hx | (simp only [calRegs, startRegs, List.mem_cons, List.not_mem_nil, or_false] at hx ⊢; tauto) | (unfold wakeRegs; first | exact List.mem_append_left _ hx | exact List.mem_append_right _ hx)) | (with_reducible first | intro _ | refine regs_blockError _ _ _ _ _ ?_ | refine regs_storeFields _ _ _ _ _ ?_ ?_ | refine RegsOnly.ite ?_ ?_) | decide | split | unfold id | dsimp only

theorem regs_writeSwev x0 s (h : RegsOnly l o s) (e : ∀ x ∈ [(Reg.evrSwev, 0, 0)], x ∈ l) : RegsOnly l o (writeSwev x0 s) := by
  unfold writeSwev
  repeat' first | (with_reducible first | exact .refl | assumption) | (with_reducible intro x hx; refine e x ?_; first | exact hx | exact List.mem_cons_of_mem _ hx | (simp only [calRegs, startRegs, List.mem_cons, List.not_mem_nil, or_false] at hx ⊢; tauto) | (unfold wakeRegs; first | exact List.mem_append_left _ hx | exact List.mem_append_right _ hx)) | (with_reducible first | intro _ | refine regs_recordEvent _ _ _ _ _ _ ?_ | refine regs_storeFields _ _ _ _ _ ?_ ?_ | refine RegsOnly.ite ?_ ?_) | decide | split | unfold id | dsimp only

theorem regs_writeImgcmd x0 s (h : RegsOnly l o s) (e : ∀ x ∈ [(Reg.imgcmd, 0, 0)], x ∈ l) : RegsOnly l o (writeImgcmd x0 s) := by
  unfold writeImgcmd
  repeat' first | (with_reducible first | exact .refl | assumption) | (with_reducible intro x hx; refine e x ?_; first | exact hx | exact List.mem_cons_of_mem _ hx | (simp only [calRegs, startRegs, List.mem_cons, List.not_mem_nil, or_false] at hx ⊢; tauto) | (unfold wakeRegs; first | exact List.mem_append_left _ hx | exact List.mem_append_right _ hx)) | (with_reducible first | intro _ | refine regs_State_drawn _ ?_ | refine regs_startFanout _ _ _ ?_ | refine regs_storeFields _ _ _ _ _ ?_ ?_ | refine RegsOnly.ite ?_ ?_) | decide | split | unfold id | dsimp only

theorem regs_writeAbortReq x0 s (h : RegsOnly l o s) (e : ∀ x ∈ [(Reg.abortreq, 0, 0)], x ∈ l) : RegsOnly l o (writeAbortReq x0 s) := by
  unfold writeAbortReq
  repeat' first | (with_reducible first | exact .refl | assumption) | (with_reducible intro x hx; refine e x ?_; first | exact hx | exact List.mem_cons_of_mem _ hx | (simp only [calRegs, startRegs, List.mem_cons, List.not_mem_nil, or_false] at hx ⊢; tauto) | (unfold wakeRegs; first | exact List.mem_append_left _ hx | exact List.mem_append_right _ hx)) | (with_reducible first | intro _ | refine regs_matchCmd _ _ _ _ ?_ | refine regs_storeFields _ _ _ _ _ ?_ ?_ | refine RegsOnly.ite ?_ ?_) | decide | split | unfold id | dsimp only

theorem regs_writeLgrWin x0 s (h : RegsOnly l o s) (e : ∀ x ∈ [(Reg.lgrWin, 0, 0)], x ∈ l) : RegsOnly l o (writeLgrWin x0 s) := by
  unfold writeLgrWin
  repeat' first | (with_reducible first | exact .refl | assumption) | (with_reducible intro x hx; refine e x ?_; first | exact hx | exact List.mem_cons_of_mem _ hx | (simp only [calRegs, startRegs, List.mem_cons, List.not_mem_nil, or_false] at hx ⊢; tauto) | (unfold wakeRegs; first | exact List.mem_append_left _ hx | exact List.mem_append_right _ hx)) | (with_reducible first | intro _ | refine regs_State_drawn _ ?_ | refine regs_State_modLgr _ _ ?_ | refine regs_storeFields _ _ _ _ _ ?_ ?_ | refine RegsOnly.ite ?_ ?_) | decide | split | unfold id | dsimp only

theorem regs_writeNsdom (x0 : Fin 64) x1 s (h : RegsOnly l o s) (e : ∀ x ∈ [(Reg.nsdom, 0, x0.val)], x ∈ l) : RegsOnly l o (writeNsdom x0 x1 s) := by
  unfold writeNsdom
  repeat' first | (with_reducible first | exact .refl | assumption) | (with_reducible intro x hx; refine e x ?_; first | exact hx | exact List.mem_cons_of_mem _ hx | (simp only [calRegs, startRegs, List.mem_cons, List.not_mem_nil, or_false] at hx ⊢; tauto) | (unfold wakeRegs; first | exact List.mem_append_left _ hx | exact List.mem_append_right _ hx)) | (with_reducible first | intro _ | refine regs_blockErrorP _ _ _ _ _ _ _ _ ?_ | refine regs_storeFields _ _ _ _ _ ?_ ?_ | refine RegsOnly.ite ?_ ?_) | decide | split | unfold id | dsimp only

theorem regs_pprGo x0 s (h : RegsOnly l o s) (e : ∀ x ∈ [(Reg.ppr0, 0, 0)], x ∈ l) : RegsOnly l o (pprGo x0 s) := by
  unfold pprGo
  repeat' first | (with_reducible first | exact .refl | assumption) | (with_reducible intro x hx; refine e x ?_; first | exact hx | exact List.mem_cons_of_mem _ hx | (simp only [calRegs, startRegs, List.mem_cons, List.not_mem_nil, or_false] at hx ⊢; tauto) | (unfold wakeRegs; first | exact List.mem_append_left _ hx | exact List.mem_append_right _ hx)) | (with_reducible first | intro _ | refine regs_pprResult _ _ _ ?_ | refine regs_storeFields _ _ _ _ _ ?_ ?_ | refine RegsOnly.ite ?_ ?_) | fail_if_no_progress (with_reducible refine RegsOnly.set_dmc ?_) | decide | split | unfold id | dsimp only

theorem regs_writeRegattr x0 x1 x2 s (h : RegsOnly l o s) (e : ∀ x ∈ [(if x0 then .regattr1 else .regattr0, 0, x1)], x ∈ l) : RegsOnly l o (writeRegattr x0 x1 x2 s) := by
  unfold writeRegattr
  repeat' first | (with_reducible first | exact .refl | assumption) | (with_reducible intro x hx; refine e x ?_; first | exact hx | exact List.mem_cons_of_mem _ hx | (simp only [calRegs, startRegs, List.mem_cons, List.not_mem_nil, or_false] at hx ⊢; tauto) | (unfold wakeRegs; first | exact List.mem_append_left _ hx | exact List.mem_append_right _ hx)) | (with_reducible first | intro _ | refine regs_blockErrorP _ _ _ _ _ _ _ _ ?_ | refine regs_flushRegion _ _ ?_ | refine regs_storeFields _ _ _ _ _ ?_ ?_ | refine RegsOnly.ite ?_ ?_) | decide | split | unfold id | dsimp only

theorem regs_setRegWords x0 x1 x2 s (h : RegsOnly l o s) (e : ∀ x ∈ (List.range x1).map (fun j => (x0, 0, j)), x ∈ l) :
    RegsOnly l o (setRegWords x0 x1 x2 s) := by
  unfold setRegWords
  refine .foldl_mem (fun u k hm hu => ?_) h
  refine regs_setReg _ _ _ _ _ hu fun x hx => e _ ?_
  rw [List.mem_singleton.1 hx]
  exact List.mem_map.2 ⟨k, hm, rfl⟩

theorem regs_splitGo x0 s (h : RegsOnly l o s) (e : ∀ x ∈ splitRegs, x ∈ l) : RegsOnly l o (splitGo x0 s) := by
  have e1 : ∀ x ∈ [(Reg.splitctl, 0, 0)], x ∈ l := fun x hx => e x (List.mem_cons.2 (.inl (List.mem_singleton.1 hx)))
  have e2 : ∀ x ∈ (List.range 32).map (fun j => (Reg.splitdata, 0, j)), x ∈ l := fun x hx =>
    e x (List.mem_cons_of_mem _ (List.mem_append_left _ hx))
  have e3 : ∀ x ∈ (List.range 8).map (fun j => (Reg.splitchk, 0, j)), x ∈ l := fun x hx =>
    e x (List.mem_cons_of_mem _ (List.mem_append_right _ hx))
  unfold splitGo
  refine .via (frame_raiseLine _ _ (m := 0x2000) .refl rfl) rfl ?_
  refine .via (FrameB.set_dmc (m := 0x20000000) rfl .refl) rfl ?_
  refine .ite ?_ ?_
  · refine .via (FrameB.set_dmc (m := 0x20000000) rfl .refl) rfl ?_
    refine .via (frame_memWrite _ _ _ _ (m := 0x20) .refl rfl) rfl ?_
    exact .via (frame_invalLine _ _ _ (m := 0x60000020) .refl rfl) rfl (regs_storeFields _ _ _ _ _ h e1)
  · exact regs_setRegWords _ _ _ _ (regs_setRegWords _ _ _ _
      (.via (frame_invalLine _ _ _ (m := 0x60000020) .refl rfl) rfl (regs_storeFields _ _ _ _ _ h e1)) e2) e3

theorem regs_writeOpcmd x0 s (h : RegsOnly l o s) (e : ∀ x ∈ [(Reg.opcmd, 0, 0)], x ∈ l) : RegsOnly l o (writeOpcmd x0 s) := by
  unfold writeOpcmd
  repeat' first | (with_reducible first | exact .refl | assumption) | (with_reducible intro x hx; refine e x ?_; first | exact hx | exact List.mem_cons_of_mem _ hx | (simp only [calRegs, startRegs, List.mem_cons, List.not_mem_nil, or_false] at hx ⊢; tauto) | (unfold wakeRegs; first | exact List.mem_append_left _ hx | exact List.mem_append_right _ hx)) | (with_reducible first | intro _ | refine regs_rangeGo _ _ ?_ | refine regs_storeFields _ _ _ _ _ ?_ ?_ | refine RegsOnly.ite ?_ ?_) | decide | split | unfold id | dsimp only

theorem regs_rangeCmd x0 s (h : RegsOnly l o s) (e : ∀ x ∈ [(Reg.opcmd, 0, 0)], x ∈ l) : RegsOnly l o (rangeCmd x0 s) := by
  unfold rangeCmd
  repeat' first | (with_reducible first | exact .refl | assumption) | (with_reducible intro x hx; refine e x ?_; first | exact hx | exact List.mem_cons_of_mem _ hx | (simp only [calRegs, startRegs, List.mem_cons, List.not_mem_nil, or_false] at hx ⊢; tauto) | (unfold wakeRegs; first | exact List.mem_append_left _ hx | exact List.mem_append_right _ hx)) | (with_reducible first | intro _ | refine regs_access _ _ _ _ _ ?_ ?_ | refine regs_writeOpcmd _ _ ?_ ?_ | refine RegsOnly.ite ?_ ?_) | decide | split | unfold id | dsimp only

theorem regs_writeSveCfg (x0 : Fin 5) x1 s (h : RegsOnly l o s) (e : ∀ x ∈ [(Reg.sveCfg, x0.val, 0)], x ∈ l) : RegsOnly l o (writeSveCfg x0 x1 s) := by
  unfold writeSveCfg
  repeat' first | (with_reducible first | exact .refl | assumption) | (with_reducible intro x hx; refine e x ?_; first | exact hx | exact List.mem_cons_of_mem _ hx | (simp only [calRegs, startRegs, List.mem_cons, List.not_mem_nil, or_false] at hx ⊢; tauto) | (unfold wakeRegs; first | exact List.mem_append_left _ hx | exact List.mem_append_right _ hx)) | (with_reducible first | intro _ | refine regs_State_modSve _ _ _ ?_ | refine regs_engineStart _ _ ?_ | refine regs_retractStart _ _ _ _ ?_ | refine regs_setReg _ _ _ _ _ ?_ ?_ | refine RegsOnly.ite ?_ ?_) | decide | split | unfold id | dsimp only

theorem regs_writeTrctl (x0 : Fin 5) x1 s (h : RegsOnly l o s) (e : ∀ x ∈ [(Reg.trctl, x0.val, 0)], x ∈ l) : RegsOnly l o (writeTrctl x0 x1 s) := by
  unfold writeTrctl
  repeat' first | (with_reducible first | exact .refl | assumption) | (with_reducible intro x hx; refine e x ?_; first | exact hx | exact List.mem_cons_of_mem _ hx | (simp only [calRegs, startRegs, List.mem_cons, List.not_mem_nil, or_false] at hx ⊢; tauto) | (unfold wakeRegs; first | exact List.mem_append_left _ hx | exact List.mem_append_right _ hx)) | (with_reducible first | intro _ | refine regs_State_modSve _ _ _ ?_ | refine regs_storeFields _ _ _ _ _ ?_ ?_ | refine regs_traceTake _ _ ?_ | refine RegsOnly.ite ?_ ?_) | decide | split | unfold id | dsimp only

theorem regs_writeJump (x0 : Fin 4) x1 s (h : RegsOnly l o s) (e : ∀ x ∈ [(Reg.jumpReg, x0.val, 0)], x ∈ l) : RegsOnly l o (writeJump x0 x1 s) := by
  unfold writeJump
  repeat' first | (with_reducible first | exact .refl | assumption) | (with_reducible intro x hx; refine e x ?_; first | exact hx | exact List.mem_cons_of_mem _ hx | (simp only [calRegs, startRegs, List.mem_cons, List.not_mem_nil, or_false] at hx ⊢; tauto) | (unfold wakeRegs; first | exact List.mem_append_left _ hx | exact List.mem_append_right _ hx)) | (with_reducible first | intro _ | refine regs_jumpStart _ _ _ _ _ _ ?_ | refine regs_storeFields _ _ _ _ _ ?_ ?_ | refine RegsOnly.ite ?_ ?_) | decide | split | unfold id | dsimp only

theorem regs_writeSweep (x0 : Fin 4) x1 s (h : RegsOnly l o s) (e : ∀ x ∈ [(Reg.fsweep1, x0.val, 0)], x ∈ l) : RegsOnly l o (writeSweep x0 x1 s) := by
  unfold writeSweep
  repeat' first | (with_reducible first | exact .refl | assumption) | (with_reducible intro x hx; refine e x ?_; first | exact hx | exact List.mem_cons_of_mem _ hx | (simp only [calRegs, startRegs, List.mem_cons, List.not_mem_nil, or_false] at hx ⊢; tauto) | (unfold wakeRegs; first | exact List.mem_append_left _ hx | exact List.mem_append_right _ hx)) | (with_reducible first | intro _ | refine regs_storeFields _ _ _ _ _ ?_ ?_ | refine regs_sweepStart _ _ ?_ | refine RegsOnly.ite ?_ ?_) | decide | split | unfold id | dsimp only

theorem regs_writeOptFmt x0 s (h : RegsOnly l o s) (e : ∀ x ∈ [(Reg.optFmt, 0, 0)], x ∈ l) : RegsOnly l o (writeOptFmt x0 s) := by
  unfold writeOptFmt
  repeat' first | (with_reducible first | exact .refl | assumption) | (with_reducible intro x hx; refine e x ?_; first | exact hx | exact List.mem_cons_of_mem _ hx | (simp only [calRegs, startRegs, List.mem_cons, List.not_mem_nil, or_false] at hx ⊢; tauto) | (unfold wakeRegs; first | exact List.mem_append_left _ hx | exact List.mem_append_right _ hx)) | (with_reducible first | intro _ | refine regs_blockErrorP _ _ _ _ _ _ _ _ ?_ | refine regs_storeFields _ _ _ _ _ ?_ ?_ | refine RegsOnly.ite ?_ ?_) | decide | split | unfold id | dsimp only

theorem regs_writeSlotsel x0 s (h : RegsOnly l o s) (e : ∀ x ∈ [(Reg.slotsel, 0, 0)], x ∈ l) : RegsOnly l o (writeSlotsel x0 s) := by
  unfold writeSlotsel
  repeat' first | (with_reducible first | exact .refl | assumption) | (with_reducible intro x hx; refine e x ?_; first | exact hx | exact List.mem_cons_of_mem _ hx | (simp only [calRegs, startRegs, List.mem_cons, List.not_mem_nil, or_false] at hx ⊢; tauto) | (unfold wakeRegs; first | exact List.mem_append_left _ hx | exact List.mem_append_right _ hx)) | (with_reducible first | intro _ | refine regs_State_modSec _ _ ?_ | refine regs_storeFields _ _ _ _ _ ?_ ?_ | refine RegsOnly.ite ?_ ?_) | decide | split | unfold id | dsimp only

theorem regs_startImage x0 x1 s (h : RegsOnly l o s) (e : ∀ x ∈ [(Reg.vlkFloor, 0, 0)], x ∈ l) : RegsOnly l o (startImage x0 x1 s) := by
  unfold startImage
  repeat' first | (with_reducible first | exact .refl | assumption) | (with_reducible intro x hx; refine e x ?_; first | exact hx | exact List.mem_cons_of_mem _ hx | (simp only [calRegs, startRegs, List.mem_cons, List.not_mem_nil, or_false] at hx ⊢; tauto) | (unfold wakeRegs; first | exact List.mem_append_left _ hx | exact List.mem_append_right _ hx)) | (with_reducible first | intro _ | refine regs_State_modSec _ _ ?_ | refine regs_State_modSys _ _ ?_ | refine regs_deriveKeys _ ?_ | refine regs_extendMeas _ _ _ ?_ | refine regs_measureStage _ ?_ | refine regs_setFld _ _ _ _ _ _ _ ?_ ?_ | refine RegsOnly.ite ?_ ?_) | decide | split | unfold id | dsimp only

theorem regs_bootSlots x0 s (h : RegsOnly l o s) (e : ∀ x ∈ [(Reg.vlkFloor, 0, 0)], x ∈ l) : RegsOnly l o (bootSlots x0 s) := by
  unfold bootSlots
  repeat' first | (with_reducible first | exact .refl | assumption) | (with_reducible intro x hx; refine e x ?_; first | exact hx | exact List.mem_cons_of_mem _ hx | (simp only [calRegs, startRegs, List.mem_cons, List.not_mem_nil, or_false] at hx ⊢; tauto) | (unfold wakeRegs; first | exact List.mem_append_left _ hx | exact List.mem_append_right _ hx)) | (with_reducible first | intro _ | refine regs_State_modSys _ _ ?_ | refine regs_ev _ _ _ _ _ _ ?_ | refine regs_startImage _ _ _ ?_ ?_ | refine RegsOnly.ite ?_ ?_) | decide | split | unfold id | dsimp only

theorem regs_coldStart x0 s (h : RegsOnly l o s) (e : ∀ x ∈ startRegs, x ∈ l) : RegsOnly l o (coldStart x0 s) := by
  unfold coldStart
  repeat' first | (with_reducible first | exact .refl | assumption) | (with_reducible intro x hx; refine e x ?_; first | exact hx | exact List.mem_cons_of_mem _ hx | (simp only [calRegs, startRegs, List.mem_cons, List.not_mem_nil, or_false] at hx ⊢; tauto) | (unfold wakeRegs; first | exact List.mem_append_left _ hx | exact List.mem_append_right _ hx)) | (with_reducible first | intro _ | refine regs_State_modSys _ _ ?_ | refine regs_bistResults _ _ ?_ | refine regs_bootSlots _ _ ?_ ?_ | refine regs_ev _ _ _ _ _ _ ?_ | refine regs_releaseCore _ _ ?_ | refine regs_setFld _ _ _ _ _ _ _ ?_ ?_ | refine regs_trainLink _ _ ?_ | refine RegsOnly.ite ?_ ?_) | decide | split | unfold id | dsimp only

theorem regs_startCore x0 s (h : RegsOnly l o s) (e : ∀ x ∈ startRegs, x ∈ l) : RegsOnly l o (startCore x0 s) := by
  unfold startCore
  repeat' first | (with_reducible first | exact .refl | assumption) | (with_reducible intro x hx; refine e x ?_; first | exact hx | exact List.mem_cons_of_mem _ hx | (simp only [calRegs, startRegs, List.mem_cons, List.not_mem_nil, or_false] at hx ⊢; tauto) | (unfold wakeRegs; first | exact List.mem_append_left _ hx | exact List.mem_append_right _ hx)) | (with_reducible first | intro _ | refine regs_State_modPwr _ _ ?_ | refine regs_State_modSys _ _ ?_ | refine regs_coldStart _ _ ?_ ?_ | refine RegsOnly.ite ?_ ?_) | decide | split | unfold id | dsimp only

theorem regs_clocksWake s (h : RegsOnly l o s) (e : ∀ x ∈ clkDoms, x ∈ l) : RegsOnly l o (clocksWake s) := by
  have hk : ∀ k, k < 64 → ∀ x ∈ [(Reg.clkDom, 0, k)], x ∈ l := by
    intro k hk x hx
    refine e _ ?_
    rw [List.mem_singleton.1 hx]
    exact List.mem_map.2 ⟨k, List.mem_range.2 hk, rfl⟩
  unfold clocksWake
  exact .foldl_mem (fun u k hm hu => .ite hu (regs_setFld _ _ _ _ _ _ _ hu (hk k (List.mem_range.1 hm)))) h

theorem regs_wakeFrom x0 x1 x2 s (h : RegsOnly l o s) (e : ∀ x ∈ wakeRegs, x ∈ l) : RegsOnly l o (wakeFrom x0 x1 x2 s) := by
  unfold wakeFrom
  repeat' first | (with_reducible first | exact .refl | assumption) | (with_reducible intro x hx; refine e x ?_; first | exact hx | exact List.mem_cons_of_mem _ hx | (simp only [calRegs, startRegs, List.mem_cons, List.not_mem_nil, or_false] at hx ⊢; tauto) | (unfold wakeRegs; first | exact List.mem_append_left _ hx | exact List.mem_append_right _ hx)) | (with_reducible first | intro _ | refine regs_State_modHce _ _ ?_ | refine regs_clocksWake _ ?_ ?_ | refine regs_powerLit _ ?_ | refine regs_startCore _ _ ?_ ?_ | refine regs_wakeRecord _ _ _ ?_ | refine RegsOnly.ite ?_ ?_) | fail_if_no_progress (with_reducible refine RegsOnly.set_sup ?_) | decide | split | unfold id | dsimp only

theorem regs_wakeAct x0 x1 s (h : RegsOnly l o s) (e : ∀ x ∈ wakeRegs, x ∈ l) : RegsOnly l o (wakeAct x0 x1 s) := by
  unfold wakeAct
  repeat' first | (with_reducible first | exact .refl | assumption) | (with_reducible intro x hx; refine e x ?_; first | exact hx | exact List.mem_cons_of_mem _ hx | (simp only [calRegs, startRegs, List.mem_cons, List.not_mem_nil, or_false] at hx ⊢; tauto) | (unfold wakeRegs; first | exact List.mem_append_left _ hx | exact List.mem_append_right _ hx)) | (with_reducible first | intro _ | refine regs_unwindEntry _ _ ?_ | refine regs_wakeFrom _ _ _ _ ?_ ?_ | refine RegsOnly.ite ?_ ?_) | decide | split | unfold id | dsimp only

theorem regs_wakeNoted s (h : RegsOnly l o s) (e : ∀ x ∈ wakeRegs, x ∈ l) : RegsOnly l o (wakeNoted s) := by
  unfold wakeNoted
  repeat' first | (with_reducible first | exact .refl | assumption) | (with_reducible intro x hx; refine e x ?_; first | exact hx | exact List.mem_cons_of_mem _ hx | (simp only [calRegs, startRegs, List.mem_cons, List.not_mem_nil, or_false] at hx ⊢; tauto) | (unfold wakeRegs; first | exact List.mem_append_left _ hx | exact List.mem_append_right _ hx)) | (with_reducible first | intro _ | refine regs_State_drawn _ ?_ | refine regs_wakeAct _ _ _ ?_ ?_ | refine RegsOnly.ite ?_ ?_) | decide | split | unfold id | dsimp only

theorem regs_swapPhases s (h : RegsOnly l o s) (e : ∀ x ∈ commRegs, x ∈ l) : RegsOnly l o (swapPhases s) := by
  have hk : ∀ k, k < 6 → ∀ x ∈ [(Reg.spnComm, 0, k)], x ∈ l := by
    intro k hk x hx
    refine e _ ?_
    rw [List.mem_singleton.1 hx]
    exact List.mem_map.2 ⟨k, List.mem_range.2 hk, rfl⟩
  unfold swapPhases
  refine .via (frame_driveStep _ (m := 0x2000000) .refl rfl) rfl ?_
  refine .via (frame_ev _ _ _ _ _ _ (m := 0x1800000100) .refl rfl) rfl ?_
  refine .via (frame_State_modSpn _ _ (m := 0x2000000) .refl rfl) rfl ?_
  refine .foldl_mem (fun u k hm hu => ?_) (.via (frame_gatesLow _ (m := 0x2000000) .refl rfl) rfl h)
  have := hk k (List.mem_range.1 hm)
  exact regs_setFld _ _ _ _ _ _ _ (regs_setFld _ _ _ _ _ _ _ hu this) this

theorem regs_nsCreate x0 s (h : RegsOnly l o s) (e : ∀ x ∈ nsBases, x ∈ l) : RegsOnly l o (nsCreate x0 s) := by
  have hf : ∀ st t, RegsOnly l o t → RegsOnly l o (finish x0.tag st t) := fun st t ht =>
    .via (frame_finish _ _ _ (m := 0x18080) .refl rfl) rfl ht
  unfold nsCreate
  dsimp only
  refine .ite (hf _ _ h) ?_
  split
  · rename_i k base hk _
    have hk64 : k < 64 := by
      have := List.find?_some hk
      have hm := List.mem_of_find?_eq_some hk
      exact List.mem_range.1 hm
    have hs : ∀ x ∈ [(Reg.nsbase, 0, k)], x ∈ l := by
      intro x hx
      refine e _ ?_
      rw [List.mem_singleton.1 hx]
      exact List.mem_map.2 ⟨k, List.mem_range.2 hk64, rfl⟩
    refine .ite (hf _ _ h) ?_
    refine .via (frame_finishDw _ _ _ _ _ (m := 0x18080) .refl rfl) rfl ?_
    refine .ite ?_ ?_
    · refine .via (frame_makeZones _ _ _ _ (m := 0x20080) .refl rfl) rfl (regs_setFld _ _ _ _ _ _ _ ?_ hs)
      exact .via (frame_State_modHce _ _ (m := 0x8000) .refl rfl) rfl h
    · refine .via (frame_makeExtents _ _ _ _ (m := 0x20000) .refl rfl) rfl (regs_setFld _ _ _ _ _ _ _ ?_ hs)
      exact .via (frame_State_modHce _ _ (m := 0x8000) .refl rfl) rfl h
  · exact hf _ _ h

theorem regs_seqStep x0 x1 x2 s (h : RegsOnly l o s) (e : ∀ x ∈ [(Reg.calAlm1, 0, 0)], x ∈ l)
    (k : ∀ t, RegsOnly l o t → RegsOnly l o (x2 t)) : RegsOnly l o (seqStep x0 x1 x2 s) := by
  unfold seqStep
  exact .ite (k _ (.ite (regs_advanceTo _ _ h e) h)) h

theorem regs_execIrqRouteWrite x0 (x1 : Fin 512) x2 s : RegsOnly ([(Reg.irqRoute, 0, x1.val)]) s (after s (execIrqRouteWrite x0 x1 x2 s)) := by
  unfold execIrqRouteWrite
  try with_reducible refine RegsOnly.next ?_
  repeat' first | (with_reducible first | exact .refl | assumption) | (with_reducible intro x hx; first | exact hx | exact List.mem_cons_of_mem _ hx | (unfold clkDoms; rw [List.mem_singleton.1 hx]; exact List.mem_map.2 ⟨63, List.mem_range.2 (by decide), rfl⟩) | (simp only [calRegs, startRegs, List.mem_cons, List.not_mem_nil, or_false] at hx ⊢; tauto) | (unfold wakeRegs; first | exact List.mem_append_left _ hx | exact List.mem_append_right _ hx)) | (with_reducible first | intro _ | refine regs_access _ _ _ _ _ ?_ ?_ | refine regs_routeWrite _ _ _ _ ?_ ?_ | refine RegsOnly.ite ?_ ?_) | decide | split | unfold id | dsimp only

theorem regs_execTwinDataAccess x0 (x1 : Fin 4) x2 x3 s : RegsOnly ([(Reg.twinAddr, 0, x1.val)]) s (after s (execTwinDataAccess x0 x1 x2 x3 s)) := by
  unfold execTwinDataAccess
  try with_reducible refine RegsOnly.next ?_
  repeat' first | (with_reducible first | exact .refl | assumption) | (with_reducible intro x hx; first | exact hx | exact List.mem_cons_of_mem _ hx | (unfold clkDoms; rw [List.mem_singleton.1 hx]; exact List.mem_map.2 ⟨63, List.mem_range.2 (by decide), rfl⟩) | (simp only [calRegs, startRegs, List.mem_cons, List.not_mem_nil, or_false] at hx ⊢; tauto) | (unfold wakeRegs; first | exact List.mem_append_left _ hx | exact List.mem_append_right _ hx)) | (with_reducible first | intro _ | refine regs_access _ _ _ _ _ ?_ ?_ | refine regs_twinAccess _ _ _ _ ?_ ?_ | refine RegsOnly.ite ?_ ?_) | decide | split | unfold id | dsimp only

theorem regs_execXo32kFail s : RegsOnly ([(Reg.calAlm1, 0, 0)]) s (after s (execXo32kFail s)) := by
  unfold execXo32kFail
  try with_reducible refine RegsOnly.next ?_
  repeat' first | (with_reducible first | exact .refl | assumption) | (with_reducible intro x hx; first | exact hx | exact List.mem_cons_of_mem _ hx | (unfold clkDoms; rw [List.mem_singleton.1 hx]; exact List.mem_map.2 ⟨63, List.mem_range.2 (by decide), rfl⟩) | (simp only [calRegs, startRegs, List.mem_cons, List.not_mem_nil, or_false] at hx ⊢; tauto) | (unfold wakeRegs; first | exact List.mem_append_left _ hx | exact List.mem_append_right _ hx)) | (with_reducible first | intro _ | refine regs_advanceTo _ _ ?_ ?_ | refine regs_xo32kFails _ ?_ | refine RegsOnly.ite ?_ ?_) | decide | split | unfold id | dsimp only

theorem regs_execXo40Fail s : RegsOnly (clkDoms) s (after s (execXo40Fail s)) := by
  unfold execXo40Fail
  try with_reducible refine RegsOnly.next ?_
  repeat' first | (with_reducible first | exact .refl | assumption) | (with_reducible intro x hx; first | exact hx | exact List.mem_cons_of_mem _ hx | (unfold clkDoms; rw [List.mem_singleton.1 hx]; exact List.mem_map.2 ⟨63, List.mem_range.2 (by decide), rfl⟩) | (simp only [calRegs, startRegs, List.mem_cons, List.not_mem_nil, or_false] at hx ⊢; tauto) | (unfold wakeRegs; first | exact List.mem_append_left _ hx | exact List.mem_append_right _ hx)) | (with_reducible first | intro _ | refine regs_ev _ _ _ _ _ _ ?_ | refine regs_pllLoss _ _ ?_ ?_ | refine regs_setFld _ _ _ _ _ _ _ ?_ ?_ | refine RegsOnly.foldl (fun _ _ _ => ?_) ?_ | refine RegsOnly.ite ?_ ?_) | fail_if_no_progress (with_reducible refine RegsOnly.set_clk ?_) | decide | split | unfold id | dsimp only

theorem regs_execMainRailsGood x0 x1 s : RegsOnly ((Reg.calAlm1, 0, 0) :: startRegs) s (after s (execMainRailsGood x0 x1 s)) := by
  unfold execMainRailsGood
  try with_reducible refine RegsOnly.next ?_
  repeat' first | (with_reducible first | exact .refl | assumption) | (with_reducible intro x hx; first | exact hx | exact List.mem_cons_of_mem _ hx | (unfold clkDoms; rw [List.mem_singleton.1 hx]; exact List.mem_map.2 ⟨63, List.mem_range.2 (by decide), rfl⟩) | (simp only [calRegs, startRegs, List.mem_cons, List.not_mem_nil, or_false] at hx ⊢; tauto) | (unfold wakeRegs; first | exact List.mem_append_left _ hx | exact List.mem_append_right _ hx)) | (with_reducible first | intro _ | refine regs_State_drawn _ ?_ | refine regs_State_modSec _ _ ?_ | refine regs_State_modSys _ _ ?_ | refine regs_elapse _ _ ?_ ?_ | refine regs_ev _ _ _ _ _ _ ?_ | refine regs_startCore _ _ ?_ ?_ | refine regs_wakeRecord _ _ _ ?_ | refine RegsOnly.ite ?_ ?_) | fail_if_no_progress (with_reducible refine RegsOnly.set_sup ?_) | decide | split | unfold id | dsimp only

theorem regs_execUartRecoveryImage x0 s : RegsOnly ([(Reg.vlkFloor, 0, 0)]) s (after s (execUartRecoveryImage x0 s)) := by
  unfold execUartRecoveryImage
  try with_reducible refine RegsOnly.next ?_
  repeat' first | (with_reducible first | exact .refl | assumption) | (with_reducible intro x hx; first | exact hx | exact List.mem_cons_of_mem _ hx | (unfold clkDoms; rw [List.mem_singleton.1 hx]; exact List.mem_map.2 ⟨63, List.mem_range.2 (by decide), rfl⟩) | (simp only [calRegs, startRegs, List.mem_cons, List.not_mem_nil, or_false] at hx ⊢; tauto) | (unfold wakeRegs; first | exact List.mem_append_left _ hx | exact List.mem_append_right _ hx)) | (with_reducible first | intro _ | refine regs_startImage _ _ _ ?_ ?_ | refine RegsOnly.ite ?_ ?_) | decide | split | unfold id | dsimp only

theorem regs_execResetNRelease x0 s : RegsOnly (startRegs) s (after s (execResetNRelease x0 s)) := by
  unfold execResetNRelease
  try with_reducible refine RegsOnly.next ?_
  repeat' first | (with_reducible first | exact .refl | assumption) | (with_reducible intro x hx; first | exact hx | exact List.mem_cons_of_mem _ hx | (unfold clkDoms; rw [List.mem_singleton.1 hx]; exact List.mem_map.2 ⟨63, List.mem_range.2 (by decide), rfl⟩) | (simp only [calRegs, startRegs, List.mem_cons, List.not_mem_nil, or_false] at hx ⊢; tauto) | (unfold wakeRegs; first | exact List.mem_append_left _ hx | exact List.mem_append_right _ hx)) | (with_reducible first | intro _ | refine regs_State_modSys _ _ ?_ | refine regs_coldStart _ _ ?_ ?_ | refine RegsOnly.ite ?_ ?_) | decide | split | unfold id | dsimp only

theorem regs_execWatchdogEnable x0 x1 s : RegsOnly ([(Reg.wdtctl, 0, 0)]) s (after s (execWatchdogEnable x0 x1 s)) := by
  unfold execWatchdogEnable
  try with_reducible refine RegsOnly.next ?_
  repeat' first | (with_reducible first | exact .refl | assumption) | (with_reducible intro x hx; first | exact hx | exact List.mem_cons_of_mem _ hx | (unfold clkDoms; rw [List.mem_singleton.1 hx]; exact List.mem_map.2 ⟨63, List.mem_range.2 (by decide), rfl⟩) | (simp only [calRegs, startRegs, List.mem_cons, List.not_mem_nil, or_false] at hx ⊢; tauto) | (unfold wakeRegs; first | exact List.mem_append_left _ hx | exact List.mem_append_right _ hx)) | (with_reducible first | intro _ | refine regs_access _ _ _ _ _ ?_ ?_ | refine regs_writeWdtctl _ _ ?_ ?_ | refine RegsOnly.ite ?_ ?_) | decide | split | unfold id | dsimp only

theorem regs_execWatchdogPeriod s : RegsOnly ([(Reg.calAlm1, 0, 0)]) s (after s (execWatchdogPeriod s)) := by
  unfold execWatchdogPeriod
  try with_reducible refine RegsOnly.next ?_
  repeat' first | (with_reducible first | exact .refl | assumption) | (with_reducible intro x hx; first | exact hx | exact List.mem_cons_of_mem _ hx | (unfold clkDoms; rw [List.mem_singleton.1 hx]; exact List.mem_map.2 ⟨63, List.mem_range.2 (by decide), rfl⟩) | (simp only [calRegs, startRegs, List.mem_cons, List.not_mem_nil, or_false] at hx ⊢; tauto) | (unfold wakeRegs; first | exact List.mem_append_left _ hx | exact List.mem_append_right _ hx)) | (with_reducible first | intro _ | refine regs_State_modSys _ _ ?_ | refine regs_advanceTo _ _ ?_ ?_ | refine regs_ev _ _ _ _ _ _ ?_ | refine regs_setIrqStat _ _ _ _ ?_ | refine RegsOnly.ite ?_ ?_) | decide | split | unfold id | dsimp only

theorem regs_execPreqGo x0 x1 s : RegsOnly ([(Reg.preq, 0, 0)]) s (after s (execPreqGo x0 x1 s)) := by
  unfold execPreqGo
  try with_reducible refine RegsOnly.next ?_
  repeat' first | (with_reducible first | exact .refl | assumption) | (with_reducible intro x hx; first | exact hx | exact List.mem_cons_of_mem _ hx | (unfold clkDoms; rw [List.mem_singleton.1 hx]; exact List.mem_map.2 ⟨63, List.mem_range.2 (by decide), rfl⟩) | (simp only [calRegs, startRegs, List.mem_cons, List.not_mem_nil, or_false] at hx ⊢; tauto) | (unfold wakeRegs; first | exact List.mem_append_left _ hx | exact List.mem_append_right _ hx)) | (with_reducible first | intro _ | refine regs_access _ _ _ _ _ ?_ ?_ | refine regs_writePreq _ _ ?_ ?_ | refine RegsOnly.ite ?_ ?_) | decide | split | unfold id | dsimp only

theorem regs_execPdoffWrite x0 x1 s : RegsOnly ([(Reg.pdoff, 0, 0)]) s (after s (execPdoffWrite x0 x1 s)) := by
  unfold execPdoffWrite
  try with_reducible refine RegsOnly.next ?_
  repeat' first | (with_reducible first | exact .refl | assumption) | (with_reducible intro x hx; first | exact hx | exact List.mem_cons_of_mem _ hx | (unfold clkDoms; rw [List.mem_singleton.1 hx]; exact List.mem_map.2 ⟨63, List.mem_range.2 (by decide), rfl⟩) | (simp only [calRegs, startRegs, List.mem_cons, List.not_mem_nil, or_false] at hx ⊢; tauto) | (unfold wakeRegs; first | exact List.mem_append_left _ hx | exact List.mem_append_right _ hx)) | (with_reducible first | intro _ | refine regs_access _ _ _ _ _ ?_ ?_ | refine regs_writePdoff _ _ ?_ ?_ | refine RegsOnly.ite ?_ ?_) | decide | split | unfold id | dsimp only

theorem regs_execWakeSource x0 x1 x2 s : RegsOnly (wakeRegs) s (after s (execWakeSource x0 x1 x2 s)) := by
  unfold execWakeSource
  try with_reducible refine RegsOnly.next ?_
  repeat' first | (with_reducible first | exact .refl | assumption) | (with_reducible intro x hx; first | exact hx | exact List.mem_cons_of_mem _ hx | (unfold clkDoms; rw [List.mem_singleton.1 hx]; exact List.mem_map.2 ⟨63, List.mem_range.2 (by decide), rfl⟩) | (simp only [calRegs, startRegs, List.mem_cons, List.not_mem_nil, or_false] at hx ⊢; tauto) | (unfold wakeRegs; first | exact List.mem_append_left _ hx | exact List.mem_append_right _ hx)) | (with_reducible first | intro _ | refine regs_noteWake _ _ ?_ | refine regs_wakeAct _ _ _ ?_ ?_ | refine RegsOnly.ite ?_ ?_) | decide | split | unfold id | dsimp only

theorem regs_execClkDomWrite x0 (x1 : Fin 64) x2 s : RegsOnly ([(Reg.clkDom, 0, x1.val)]) s (after s (execClkDomWrite x0 x1 x2 s)) := by
  unfold execClkDomWrite
  try with_reducible refine RegsOnly.next ?_
  repeat' first | (with_reducible first | exact .refl | assumption) | (with_reducible intro x hx; first | exact hx | exact List.mem_cons_of_mem _ hx | (unfold clkDoms; rw [List.mem_singleton.1 hx]; exact List.mem_map.2 ⟨63, List.mem_range.2 (by decide), rfl⟩) | (simp only [calRegs, startRegs, List.mem_cons, List.not_mem_nil, or_false] at hx ⊢; tauto) | (unfold wakeRegs; first | exact List.mem_append_left _ hx | exact List.mem_append_right _ hx)) | (with_reducible first | intro _ | refine regs_access _ _ _ _ _ ?_ ?_ | refine regs_writeClkDom _ _ _ ?_ ?_ | refine RegsOnly.ite ?_ ?_) | decide | split | unfold id | dsimp only

theorem regs_execPllLockLoss x0 s : RegsOnly (clkDoms) s (after s (execPllLockLoss x0 s)) := by
  unfold execPllLockLoss
  try with_reducible refine RegsOnly.next ?_
  repeat' first | (with_reducible first | exact .refl | assumption) | (with_reducible intro x hx; first | exact hx | exact List.mem_cons_of_mem _ hx | (unfold clkDoms; rw [List.mem_singleton.1 hx]; exact List.mem_map.2 ⟨63, List.mem_range.2 (by decide), rfl⟩) | (simp only [calRegs, startRegs, List.mem_cons, List.not_mem_nil, or_false] at hx ⊢; tauto) | (unfold wakeRegs; first | exact List.mem_append_left _ hx | exact List.mem_append_right _ hx)) | (with_reducible first | intro _ | refine regs_pllLoss _ _ ?_ ?_ | refine RegsOnly.ite ?_ ?_) | decide | split | unfold id | dsimp only

theorem regs_execPsEntryRestart s : RegsOnly ([(Reg.calAlm1, 0, 0)]) s (after s (execPsEntryRestart s)) := by
  unfold execPsEntryRestart
  try with_reducible refine RegsOnly.next ?_
  repeat' first | (with_reducible first | exact .refl | assumption) | (with_reducible intro x hx; first | exact hx | exact List.mem_cons_of_mem _ hx | (unfold clkDoms; rw [List.mem_singleton.1 hx]; exact List.mem_map.2 ⟨63, List.mem_range.2 (by decide), rfl⟩) | (simp only [calRegs, startRegs, List.mem_cons, List.not_mem_nil, or_false] at hx ⊢; tauto) | (unfold wakeRegs; first | exact List.mem_append_left _ hx | exact List.mem_append_right _ hx)) | (with_reducible first | intro _ | refine regs_State_modPwr _ _ ?_ | refine regs_elapse _ _ ?_ ?_ | refine regs_psProceed _ _ ?_ | refine RegsOnly.ite ?_ ?_) | decide | split | unfold id | dsimp only

theorem regs_execLeaveRequest x0 (x1 : Fin 16) x2 s : RegsOnly ([(Reg.lltReqb, 0, x1.val)]) s (after s (execLeaveRequest x0 x1 x2 s)) := by
  unfold execLeaveRequest
  try with_reducible refine RegsOnly.next ?_
  repeat' first | (with_reducible first | exact .refl | assumption) | (with_reducible intro x hx; first | exact hx | exact List.mem_cons_of_mem _ hx | (unfold clkDoms; rw [List.mem_singleton.1 hx]; exact List.mem_map.2 ⟨63, List.mem_range.2 (by decide), rfl⟩) | (simp only [calRegs, startRegs, List.mem_cons, List.not_mem_nil, or_false] at hx ⊢; tauto) | (unfold wakeRegs; first | exact List.mem_append_left _ hx | exact List.mem_append_right _ hx)) | (with_reducible first | intro _ | refine regs_access _ _ _ _ _ ?_ ?_ | refine regs_writeReqb _ _ _ ?_ ?_ | refine RegsOnly.ite ?_ ?_) | decide | split | unfold id | dsimp only

theorem regs_execLeaveExpiry x0 s : RegsOnly ([(Reg.calAlm1, 0, 0)]) s (after s (execLeaveExpiry x0 s)) := by
  unfold execLeaveExpiry
  try with_reducible refine RegsOnly.next ?_
  repeat' first | (with_reducible first | exact .refl | assumption) | (with_reducible intro x hx; first | exact hx | exact List.mem_cons_of_mem _ hx | (unfold clkDoms; rw [List.mem_singleton.1 hx]; exact List.mem_map.2 ⟨63, List.mem_range.2 (by decide), rfl⟩) | (simp only [calRegs, startRegs, List.mem_cons, List.not_mem_nil, or_false] at hx ⊢; tauto) | (unfold wakeRegs; first | exact List.mem_append_left _ hx | exact List.mem_append_right _ hx)) | (with_reducible first | intro _ | refine regs_advanceTo _ _ ?_ ?_ | refine regs_endGrant _ _ _ ?_ | refine regs_walkQueue _ ?_ | refine RegsOnly.ite ?_ ?_) | decide | split | unfold id | dsimp only

theorem regs_execDrawAfterExpiry x0 s : RegsOnly ([(Reg.calAlm1, 0, 0)]) s (after s (execDrawAfterExpiry x0 s)) := by
  unfold execDrawAfterExpiry
  try with_reducible refine RegsOnly.next ?_
  repeat' first | (with_reducible first | exact .refl | assumption) | (with_reducible intro x hx; first | exact hx | exact List.mem_cons_of_mem _ hx | (unfold clkDoms; rw [List.mem_singleton.1 hx]; exact List.mem_map.2 ⟨63, List.mem_range.2 (by decide), rfl⟩) | (simp only [calRegs, startRegs, List.mem_cons, List.not_mem_nil, or_false] at hx ⊢; tauto) | (unfold wakeRegs; first | exact List.mem_append_left _ hx | exact List.mem_append_right _ hx)) | (with_reducible first | intro _ | refine regs_State_modLlt _ _ ?_ | refine regs_elapse _ _ ?_ ?_ | refine regs_ev _ _ _ _ _ _ ?_ | refine RegsOnly.ite ?_ ?_) | decide | split | unfold id | dsimp only

theorem regs_execLeaveDeadline x0 s : RegsOnly ([(Reg.calAlm1, 0, 0)]) s (after s (execLeaveDeadline x0 s)) := by
  unfold execLeaveDeadline
  try with_reducible refine RegsOnly.next ?_
  repeat' first | (with_reducible first | exact .refl | assumption) | (with_reducible intro x hx; first | exact hx | exact List.mem_cons_of_mem _ hx | (unfold clkDoms; rw [List.mem_singleton.1 hx]; exact List.mem_map.2 ⟨63, List.mem_range.2 (by decide), rfl⟩) | (simp only [calRegs, startRegs, List.mem_cons, List.not_mem_nil, or_false] at hx ⊢; tauto) | (unfold wakeRegs; first | exact List.mem_append_left _ hx | exact List.mem_append_right _ hx)) | (with_reducible first | intro _ | refine regs_State_modLlt _ _ ?_ | refine regs_State_modPort _ _ _ ?_ | refine regs_advanceTo _ _ ?_ ?_ | refine regs_countClass _ _ _ ?_ | refine regs_ev _ _ _ _ _ _ ?_ | refine regs_freeTicket _ _ ?_ | refine regs_guarantee _ _ _ _ _ _ _ ?_ | refine regs_leaveLost _ _ ?_ | refine regs_portLine _ _ ?_ | refine regs_walkQueue _ ?_ | refine RegsOnly.ite ?_ ?_) | decide | split | unfold id | dsimp only

theorem regs_execThermalCeilingStep s : RegsOnly ([(Reg.calAlm1, 0, 0)]) s (after s (execThermalCeilingStep s)) := by
  unfold execThermalCeilingStep
  try with_reducible refine RegsOnly.next ?_
  repeat' first | (with_reducible first | exact .refl | assumption) | (with_reducible intro x hx; first | exact hx | exact List.mem_cons_of_mem _ hx | (unfold clkDoms; rw [List.mem_singleton.1 hx]; exact List.mem_map.2 ⟨63, List.mem_range.2 (by decide), rfl⟩) | (simp only [calRegs, startRegs, List.mem_cons, List.not_mem_nil, or_false] at hx ⊢; tauto) | (unfold wakeRegs; first | exact List.mem_append_left _ hx | exact List.mem_append_right _ hx)) | (with_reducible first | intro _ | refine regs_elapse _ _ ?_ ?_ | refine regs_thermLower _ ?_ | refine regs_thermRaise _ ?_ | refine regs_walkQueue _ ?_ | refine RegsOnly.ite ?_ ?_) | decide | split | unfold id | dsimp only

theorem regs_execRecoveryTimeLimitExpiry x0 s : RegsOnly ([(Reg.calAlm1, 0, 0)]) s (after s (execRecoveryTimeLimitExpiry x0 s)) := by
  unfold execRecoveryTimeLimitExpiry
  try with_reducible refine RegsOnly.next ?_
  repeat' first | (with_reducible first | exact .refl | assumption) | (with_reducible intro x hx; first | exact hx | exact List.mem_cons_of_mem _ hx | (unfold clkDoms; rw [List.mem_singleton.1 hx]; exact List.mem_map.2 ⟨63, List.mem_range.2 (by decide), rfl⟩) | (simp only [calRegs, startRegs, List.mem_cons, List.not_mem_nil, or_false] at hx ⊢; tauto) | (unfold wakeRegs; first | exact List.mem_append_left _ hx | exact List.mem_append_right _ hx)) | (with_reducible first | intro _ | refine regs_advanceTo _ _ ?_ ?_ | refine regs_limitPassed _ _ ?_ | refine RegsOnly.ite ?_ ?_) | decide | split | unfold id | dsimp only

theorem regs_execAbortMatch x0 x1 s : RegsOnly ([(Reg.abortreq, 0, 0)]) s (after s (execAbortMatch x0 x1 s)) := by
  unfold execAbortMatch
  try with_reducible refine RegsOnly.next ?_
  repeat' first | (with_reducible first | exact .refl | assumption) | (with_reducible intro x hx; first | exact hx | exact List.mem_cons_of_mem _ hx | (unfold clkDoms; rw [List.mem_singleton.1 hx]; exact List.mem_map.2 ⟨63, List.mem_range.2 (by decide), rfl⟩) | (simp only [calRegs, startRegs, List.mem_cons, List.not_mem_nil, or_false] at hx ⊢; tauto) | (unfold wakeRegs; first | exact List.mem_append_left _ hx | exact List.mem_append_right _ hx)) | (with_reducible first | intro _ | refine regs_access _ _ _ _ _ ?_ ?_ | refine regs_writeAbortReq _ _ ?_ ?_ | refine RegsOnly.ite ?_ ?_) | decide | split | unfold id | dsimp only

theorem regs_execSetFeaturesTimestamp x0 s : RegsOnly (calRegs) s (after s (execSetFeaturesTimestamp x0 s)) := by
  unfold execSetFeaturesTimestamp
  try with_reducible refine RegsOnly.next ?_
  repeat' first | (with_reducible first | exact .refl | assumption) | (with_reducible intro x hx; first | exact hx | exact List.mem_cons_of_mem _ hx | (unfold clkDoms; rw [List.mem_singleton.1 hx]; exact List.mem_map.2 ⟨63, List.mem_range.2 (by decide), rfl⟩) | (simp only [calRegs, startRegs, List.mem_cons, List.not_mem_nil, or_false] at hx ⊢; tauto) | (unfold wakeRegs; first | exact List.mem_append_left _ hx | exact List.mem_append_right _ hx)) | (with_reducible first | intro _ | refine regs_setFeature _ _ _ _ ?_ ?_ | refine regs_State_modVlk _ _ ?_ | refine regs_calLoad _ _ _ _ ?_ ?_ | refine regs_finish _ _ _ ?_ | refine regs_rootFollow _ ?_ | refine RegsOnly.ite ?_ ?_) | decide | split | unfold id | dsimp only

theorem regs_execSetFeaturesTemperatureThreshold x0 s : RegsOnly ([(Reg.thmThr, 0, 0)]) s (after s (execSetFeaturesTemperatureThreshold x0 s)) := by
  unfold execSetFeaturesTemperatureThreshold
  try with_reducible refine RegsOnly.next ?_
  repeat' first | (with_reducible first | exact .refl | assumption) | (with_reducible intro x hx; first | exact hx | exact List.mem_cons_of_mem _ hx | (unfold clkDoms; rw [List.mem_singleton.1 hx]; exact List.mem_map.2 ⟨63, List.mem_range.2 (by decide), rfl⟩) | (simp only [calRegs, startRegs, List.mem_cons, List.not_mem_nil, or_false] at hx ⊢; tauto) | (unfold wakeRegs; first | exact List.mem_append_left _ hx | exact List.mem_append_right _ hx)) | (with_reducible first | intro _ | refine regs_setFeature _ _ _ _ ?_ ?_ | refine regs_finish _ _ _ ?_ | refine regs_saveFeature _ _ _ ?_ | refine regs_setCtrl _ _ _ ?_ | refine regs_setFld _ _ _ _ _ _ _ ?_ ?_ | refine RegsOnly.ite ?_ ?_) | decide | split | unfold id | dsimp only

theorem regs_execSetFeaturesLeaseFloor x0 s : RegsOnly ([(Reg.vlkFloor, 0, 0)]) s (after s (execSetFeaturesLeaseFloor x0 s)) := by
  unfold execSetFeaturesLeaseFloor
  try with_reducible refine RegsOnly.next ?_
  repeat' first | (with_reducible first | exact .refl | assumption) | (with_reducible intro x hx; first | exact hx | exact List.mem_cons_of_mem _ hx | (unfold clkDoms; rw [List.mem_singleton.1 hx]; exact List.mem_map.2 ⟨63, List.mem_range.2 (by decide), rfl⟩) | (simp only [calRegs, startRegs, List.mem_cons, List.not_mem_nil, or_false] at hx ⊢; tauto) | (unfold wakeRegs; first | exact List.mem_append_left _ hx | exact List.mem_append_right _ hx)) | (with_reducible first | intro _ | refine regs_setFeature _ _ _ _ ?_ ?_ | refine regs_finish _ _ _ ?_ | refine regs_saveFeature _ _ _ ?_ | refine regs_setFld _ _ _ _ _ _ _ ?_ ?_ | refine regs_walkQueue _ ?_ | refine RegsOnly.ite ?_ ?_) | decide | split | unfold id | dsimp only

theorem regs_execNamespaceManagement x0 s : RegsOnly (nsBases) s (after s (execNamespaceManagement x0 s)) := by
  unfold execNamespaceManagement
  try with_reducible refine RegsOnly.next ?_
  repeat' first | (with_reducible first | exact .refl | assumption) | (with_reducible intro x hx; first | exact hx | exact List.mem_cons_of_mem _ hx | (unfold clkDoms; rw [List.mem_singleton.1 hx]; exact List.mem_map.2 ⟨63, List.mem_range.2 (by decide), rfl⟩) | (simp only [calRegs, startRegs, List.mem_cons, List.not_mem_nil, or_false] at hx ⊢; tauto) | (unfold wakeRegs; first | exact List.mem_append_left _ hx | exact List.mem_append_right _ hx)) | (with_reducible first | intro _ | refine regs_withCmd _ _ _ _ ?_ ?_ | refine regs_finish _ _ _ ?_ | refine regs_nsCreate _ _ ?_ ?_ | refine regs_nsDelete _ _ ?_ | refine RegsOnly.ite ?_ ?_) | decide | split | unfold id | dsimp only

theorem regs_execActivationPauseTimeout s : RegsOnly ([(Reg.calAlm1, 0, 0)]) s (after s (execActivationPauseTimeout s)) := by
  unfold execActivationPauseTimeout
  try with_reducible refine RegsOnly.next ?_
  repeat' first | (with_reducible first | exact .refl | assumption) | (with_reducible intro x hx; first | exact hx | exact List.mem_cons_of_mem _ hx | (unfold clkDoms; rw [List.mem_singleton.1 hx]; exact List.mem_map.2 ⟨63, List.mem_range.2 (by decide), rfl⟩) | (simp only [calRegs, startRegs, List.mem_cons, List.not_mem_nil, or_false] at hx ⊢; tauto) | (unfold wakeRegs; first | exact List.mem_append_left _ hx | exact List.mem_append_right _ hx)) | (with_reducible first | intro _ | refine regs_State_modHce _ _ ?_ | refine regs_State_modSys _ _ ?_ | refine regs_advanceTo _ _ ?_ ?_ | refine regs_ev _ _ _ _ _ _ ?_ | refine regs_finish _ _ _ ?_ | refine RegsOnly.ite ?_ ?_) | decide | split | unfold id | dsimp only

theorem regs_execNsdomWrite x0 (x1 : Fin 64) x2 s : RegsOnly ([(Reg.nsdom, 0, x1.val)]) s (after s (execNsdomWrite x0 x1 x2 s)) := by
  unfold execNsdomWrite
  try with_reducible refine RegsOnly.next ?_
  repeat' first | (with_reducible first | exact .refl | assumption) | (with_reducible intro x hx; first | exact hx | exact List.mem_cons_of_mem _ hx | (unfold clkDoms; rw [List.mem_singleton.1 hx]; exact List.mem_map.2 ⟨63, List.mem_range.2 (by decide), rfl⟩) | (simp only [calRegs, startRegs, List.mem_cons, List.not_mem_nil, or_false] at hx ⊢; tauto) | (unfold wakeRegs; first | exact List.mem_append_left _ hx | exact List.mem_append_right _ hx)) | (with_reducible first | intro _ | refine regs_access _ _ _ _ _ ?_ ?_ | refine regs_writeNsdom _ _ _ ?_ ?_ | refine RegsOnly.ite ?_ ?_) | decide | split | unfold id | dsimp only

theorem regs_execLgrWinGo x0 x1 s : RegsOnly ([(Reg.lgrWin, 0, 0)]) s (after s (execLgrWinGo x0 x1 s)) := by
  unfold execLgrWinGo
  try with_reducible refine RegsOnly.next ?_
  repeat' first | (with_reducible first | exact .refl | assumption) | (with_reducible intro x hx; first | exact hx | exact List.mem_cons_of_mem _ hx | (unfold clkDoms; rw [List.mem_singleton.1 hx]; exact List.mem_map.2 ⟨63, List.mem_range.2 (by decide), rfl⟩) | (simp only [calRegs, startRegs, List.mem_cons, List.not_mem_nil, or_false] at hx ⊢; tauto) | (unfold wakeRegs; first | exact List.mem_append_left _ hx | exact List.mem_append_right _ hx)) | (with_reducible first | intro _ | refine regs_access _ _ _ _ _ ?_ ?_ | refine regs_writeLgrWin _ _ ?_ ?_ | refine RegsOnly.ite ?_ ?_) | decide | split | unfold id | dsimp only

theorem regs_execSeqNext x0 s : RegsOnly ([(Reg.calAlm1, 0, 0)]) s (after s (execSeqNext x0 s)) := by
  unfold execSeqNext
  try with_reducible refine RegsOnly.next ?_
  repeat' first | (with_reducible first | exact .refl | assumption) | (with_reducible intro x hx; first | exact hx | exact List.mem_cons_of_mem _ hx | (unfold clkDoms; rw [List.mem_singleton.1 hx]; exact List.mem_map.2 ⟨63, List.mem_range.2 (by decide), rfl⟩) | (simp only [calRegs, startRegs, List.mem_cons, List.not_mem_nil, or_false] at hx ⊢; tauto) | (unfold wakeRegs; first | exact List.mem_append_left _ hx | exact List.mem_append_right _ hx)) | (with_reducible first | intro _ | refine regs_fallThrough _ _ ?_ | refine regs_seqStep _ _ _ _ ?_ ?_ ?_ | refine RegsOnly.ite ?_ ?_) | decide | split | unfold id | dsimp only

theorem regs_execSeqJump x0 s : RegsOnly ([(Reg.calAlm1, 0, 0)]) s (after s (execSeqJump x0 s)) := by
  unfold execSeqJump
  try with_reducible refine RegsOnly.next ?_
  repeat' first | (with_reducible first | exact .refl | assumption) | (with_reducible intro x hx; first | exact hx | exact List.mem_cons_of_mem _ hx | (unfold clkDoms; rw [List.mem_singleton.1 hx]; exact List.mem_map.2 ⟨63, List.mem_range.2 (by decide), rfl⟩) | (simp only [calRegs, startRegs, List.mem_cons, List.not_mem_nil, or_false] at hx ⊢; tauto) | (unfold wakeRegs; first | exact List.mem_append_left _ hx | exact List.mem_append_right _ hx)) | (with_reducible first | intro _ | refine regs_seqStep _ _ _ _ ?_ ?_ ?_ | refine regs_transfer _ _ _ _ ?_ | refine RegsOnly.ite ?_ ?_) | decide | split | unfold id | dsimp only

theorem regs_execSeqCall x0 s : RegsOnly ([(Reg.calAlm1, 0, 0)]) s (after s (execSeqCall x0 s)) := by
  unfold execSeqCall
  try with_reducible refine RegsOnly.next ?_
  repeat' first | (with_reducible first | exact .refl | assumption) | (with_reducible intro x hx; first | exact hx | exact List.mem_cons_of_mem _ hx | (unfold clkDoms; rw [List.mem_singleton.1 hx]; exact List.mem_map.2 ⟨63, List.mem_range.2 (by decide), rfl⟩) | (simp only [calRegs, startRegs, List.mem_cons, List.not_mem_nil, or_false] at hx ⊢; tauto) | (unfold wakeRegs; first | exact List.mem_append_left _ hx | exact List.mem_append_right _ hx)) | (with_reducible first | intro _ | refine regs_seqCallDo _ _ ?_ | refine regs_seqStep _ _ _ _ ?_ ?_ ?_ | refine RegsOnly.ite ?_ ?_) | decide | split | unfold id | dsimp only

theorem regs_execSeqRet x0 s : RegsOnly ([(Reg.calAlm1, 0, 0)]) s (after s (execSeqRet x0 s)) := by
  unfold execSeqRet
  try with_reducible refine RegsOnly.next ?_
  repeat' first | (with_reducible first | exact .refl | assumption) | (with_reducible intro x hx; first | exact hx | exact List.mem_cons_of_mem _ hx | (unfold clkDoms; rw [List.mem_singleton.1 hx]; exact List.mem_map.2 ⟨63, List.mem_range.2 (by decide), rfl⟩) | (simp only [calRegs, startRegs, List.mem_cons, List.not_mem_nil, or_false] at hx ⊢; tauto) | (unfold wakeRegs; first | exact List.mem_append_left _ hx | exact List.mem_append_right _ hx)) | (with_reducible first | intro _ | refine regs_seqRetDo _ _ ?_ | refine regs_seqStep _ _ _ _ ?_ ?_ ?_ | refine RegsOnly.ite ?_ ?_) | decide | split | unfold id | dsimp only

theorem regs_execSeqBrt x0 s : RegsOnly ([(Reg.calAlm1, 0, 0)]) s (after s (execSeqBrt x0 s)) := by
  unfold execSeqBrt
  try with_reducible refine RegsOnly.next ?_
  repeat' first | (with_reducible first | exact .refl | assumption) | (with_reducible intro x hx; first | exact hx | exact List.mem_cons_of_mem _ hx | (unfold clkDoms; rw [List.mem_singleton.1 hx]; exact List.mem_map.2 ⟨63, List.mem_range.2 (by decide), rfl⟩) | (simp only [calRegs, startRegs, List.mem_cons, List.not_mem_nil, or_false] at hx ⊢; tauto) | (unfold wakeRegs; first | exact List.mem_append_left _ hx | exact List.mem_append_right _ hx)) | (with_reducible first | intro _ | refine regs_seqBranch _ _ _ ?_ | refine regs_seqStep _ _ _ _ ?_ ?_ ?_ | refine RegsOnly.ite ?_ ?_) | decide | split | unfold id | dsimp only

theorem regs_execSeqBrf x0 s : RegsOnly ([(Reg.calAlm1, 0, 0)]) s (after s (execSeqBrf x0 s)) := by
  unfold execSeqBrf
  try with_reducible refine RegsOnly.next ?_
  repeat' first | (with_reducible first | exact .refl | assumption) | (with_reducible intro x hx; first | exact hx | exact List.mem_cons_of_mem _ hx | (unfold clkDoms; rw [List.mem_singleton.1 hx]; exact List.mem_map.2 ⟨63, List.mem_range.2 (by decide), rfl⟩) | (simp only [calRegs, startRegs, List.mem_cons, List.not_mem_nil, or_false] at hx ⊢; tauto) | (unfold wakeRegs; first | exact List.mem_append_left _ hx | exact List.mem_append_right _ hx)) | (with_reducible first | intro _ | refine regs_seqBranch _ _ _ ?_ | refine regs_seqStep _ _ _ _ ?_ ?_ ?_ | refine RegsOnly.ite ?_ ?_) | decide | split | unfold id | dsimp only

theorem regs_execSeqDispatch x0 s : RegsOnly ([(Reg.calAlm1, 0, 0)]) s (after s (execSeqDispatch x0 s)) := by
  unfold execSeqDispatch
  try with_reducible refine RegsOnly.next ?_
  repeat' first | (with_reducible first | exact .refl | assumption) | (with_reducible intro x hx; first | exact hx | exact List.mem_cons_of_mem _ hx | (unfold clkDoms; rw [List.mem_singleton.1 hx]; exact List.mem_map.2 ⟨63, List.mem_range.2 (by decide), rfl⟩) | (simp only [calRegs, startRegs, List.mem_cons, List.not_mem_nil, or_false] at hx ⊢; tauto) | (unfold wakeRegs; first | exact List.mem_append_left _ hx | exact List.mem_append_right _ hx)) | (with_reducible first | intro _ | refine regs_seqDispatchDo _ _ ?_ | refine regs_seqStep _ _ _ _ ?_ ?_ ?_ | refine RegsOnly.ite ?_ ?_) | decide | split | unfold id | dsimp only

theorem regs_execSeqLoop x0 s : RegsOnly ([(Reg.calAlm1, 0, 0)]) s (after s (execSeqLoop x0 s)) := by
  unfold execSeqLoop
  try with_reducible refine RegsOnly.next ?_
  repeat' first | (with_reducible first | exact .refl | assumption) | (with_reducible intro x hx; first | exact hx | exact List.mem_cons_of_mem _ hx | (unfold clkDoms; rw [List.mem_singleton.1 hx]; exact List.mem_map.2 ⟨63, List.mem_range.2 (by decide), rfl⟩) | (simp only [calRegs, startRegs, List.mem_cons, List.not_mem_nil, or_false] at hx ⊢; tauto) | (unfold wakeRegs; first | exact List.mem_append_left _ hx | exact List.mem_append_right _ hx)) | (with_reducible first | intro _ | refine regs_seqLoopDo _ _ ?_ | refine regs_seqStep _ _ _ _ ?_ ?_ ?_ | refine RegsOnly.ite ?_ ?_) | decide | split | unfold id | dsimp only

theorem regs_execWaitTimeout x0 s : RegsOnly ([(Reg.calAlm1, 0, 0)]) s (after s (execWaitTimeout x0 s)) := by
  unfold execWaitTimeout
  try with_reducible refine RegsOnly.next ?_
  repeat' first | (with_reducible first | exact .refl | assumption) | (with_reducible intro x hx; first | exact hx | exact List.mem_cons_of_mem _ hx | (unfold clkDoms; rw [List.mem_singleton.1 hx]; exact List.mem_map.2 ⟨63, List.mem_range.2 (by decide), rfl⟩) | (simp only [calRegs, startRegs, List.mem_cons, List.not_mem_nil, or_false] at hx ⊢; tauto) | (unfold wakeRegs; first | exact List.mem_append_left _ hx | exact List.mem_append_right _ hx)) | (with_reducible first | intro _ | refine regs_advanceTo _ _ ?_ ?_ | refine regs_enterHandler _ _ _ _ ?_ | refine RegsOnly.ite ?_ ?_) | decide | split | unfold id | dsimp only

theorem regs_execAtomicBound x0 s : RegsOnly ([(Reg.calAlm1, 0, 0)]) s (after s (execAtomicBound x0 s)) := by
  unfold execAtomicBound
  try with_reducible refine RegsOnly.next ?_
  repeat' first | (with_reducible first | exact .refl | assumption) | (with_reducible intro x hx; first | exact hx | exact List.mem_cons_of_mem _ hx | (unfold clkDoms; rw [List.mem_singleton.1 hx]; exact List.mem_map.2 ⟨63, List.mem_range.2 (by decide), rfl⟩) | (simp only [calRegs, startRegs, List.mem_cons, List.not_mem_nil, or_false] at hx ⊢; tauto) | (unfold wakeRegs; first | exact List.mem_append_left _ hx | exact List.mem_append_right _ hx)) | (with_reducible first | intro _ | refine regs_State_modAsq _ _ _ ?_ | refine regs_advanceTo _ _ ?_ ?_ | refine regs_ev _ _ _ _ _ _ ?_ | refine RegsOnly.ite ?_ ?_) | decide | split | unfold id | dsimp only

theorem regs_execTaskDeadline x0 s : RegsOnly ([(Reg.calAlm1, 0, 0)]) s (after s (execTaskDeadline x0 s)) := by
  unfold execTaskDeadline
  try with_reducible refine RegsOnly.next ?_
  repeat' first | (with_reducible first | exact .refl | assumption) | (with_reducible intro x hx; first | exact hx | exact List.mem_cons_of_mem _ hx | (unfold clkDoms; rw [List.mem_singleton.1 hx]; exact List.mem_map.2 ⟨63, List.mem_range.2 (by decide), rfl⟩) | (simp only [calRegs, startRegs, List.mem_cons, List.not_mem_nil, or_false] at hx ⊢; tauto) | (unfold wakeRegs; first | exact List.mem_append_left _ hx | exact List.mem_append_right _ hx)) | (with_reducible first | intro _ | refine regs_State_modAsq _ _ _ ?_ | refine regs_advanceTo _ _ ?_ ?_ | refine regs_ev _ _ _ _ _ _ ?_ | refine regs_requestArrives _ _ ?_ | refine RegsOnly.ite ?_ ?_) | decide | split | unfold id | dsimp only

theorem regs_execMicrocodeActivate x0 s : RegsOnly ([(Reg.mbcmd, 0, 0)]) s (after s (execMicrocodeActivate x0 s)) := by
  unfold execMicrocodeActivate
  try with_reducible refine RegsOnly.next ?_
  repeat' first | (with_reducible first | exact .refl | assumption) | (with_reducible intro x hx; first | exact hx | exact List.mem_cons_of_mem _ hx | (unfold clkDoms; rw [List.mem_singleton.1 hx]; exact List.mem_map.2 ⟨63, List.mem_range.2 (by decide), rfl⟩) | (simp only [calRegs, startRegs, List.mem_cons, List.not_mem_nil, or_false] at hx ⊢; tauto) | (unfold wakeRegs; first | exact List.mem_append_left _ hx | exact List.mem_append_right _ hx)) | (with_reducible first | intro _ | refine regs_mailbox _ _ _ ?_ ?_ ?_ | refine regs_answer _ _ _ _ ?_ | refine regs_armCst _ _ ?_ | refine regs_ev _ _ _ _ _ _ ?_ | refine RegsOnly.ite ?_ ?_) | fail_if_no_progress (with_reducible refine RegsOnly.set_cst ?_) | decide | split | unfold id | dsimp only

theorem regs_execActivationAbandon s : RegsOnly ([(Reg.calAlm1, 0, 0)]) s (after s (execActivationAbandon s)) := by
  unfold execActivationAbandon
  try with_reducible refine RegsOnly.next ?_
  repeat' first | (with_reducible first | exact .refl | assumption) | (with_reducible intro x hx; first | exact hx | exact List.mem_cons_of_mem _ hx | (unfold clkDoms; rw [List.mem_singleton.1 hx]; exact List.mem_map.2 ⟨63, List.mem_range.2 (by decide), rfl⟩) | (simp only [calRegs, startRegs, List.mem_cons, List.not_mem_nil, or_false] at hx ⊢; tauto) | (unfold wakeRegs; first | exact List.mem_append_left _ hx | exact List.mem_append_right _ hx)) | (with_reducible first | intro _ | refine regs_advanceTo _ _ ?_ ?_ | refine regs_ev _ _ _ _ _ _ ?_ | refine regs_releaseHolds _ ?_ | refine RegsOnly.ite ?_ ?_) | fail_if_no_progress (with_reducible refine RegsOnly.set_cst ?_) | decide | split | unfold id | dsimp only

theorem regs_execEngineRun x0 (x1 : Fin 5) x2 s : RegsOnly ([(Reg.sveCfg, x1.val, 0)]) s (after s (execEngineRun x0 x1 x2 s)) := by
  unfold execEngineRun
  try with_reducible refine RegsOnly.next ?_
  repeat' first | (with_reducible first | exact .refl | assumption) | (with_reducible intro x hx; first | exact hx | exact List.mem_cons_of_mem _ hx | (unfold clkDoms; rw [List.mem_singleton.1 hx]; exact List.mem_map.2 ⟨63, List.mem_range.2 (by decide), rfl⟩) | (simp only [calRegs, startRegs, List.mem_cons, List.not_mem_nil, or_false] at hx ⊢; tauto) | (unfold wakeRegs; first | exact List.mem_append_left _ hx | exact List.mem_append_right _ hx)) | (with_reducible first | intro _ | refine regs_access _ _ _ _ _ ?_ ?_ | refine regs_writeSveCfg _ _ _ ?_ ?_ | refine RegsOnly.ite ?_ ?_) | decide | split | unfold id | dsimp only

theorem regs_execSeekTimeout x0 s : RegsOnly ([(Reg.calAlm1, 0, 0)]) s (after s (execSeekTimeout x0 s)) := by
  unfold execSeekTimeout
  try with_reducible refine RegsOnly.next ?_
  repeat' first | (with_reducible first | exact .refl | assumption) | (with_reducible intro x hx; first | exact hx | exact List.mem_cons_of_mem _ hx | (unfold clkDoms; rw [List.mem_singleton.1 hx]; exact List.mem_map.2 ⟨63, List.mem_range.2 (by decide), rfl⟩) | (simp only [calRegs, startRegs, List.mem_cons, List.not_mem_nil, or_false] at hx ⊢; tauto) | (unfold wakeRegs; first | exact List.mem_append_left _ hx | exact List.mem_append_right _ hx)) | (with_reducible first | intro _ | refine regs_abandonMoves _ _ _ ?_ | refine regs_advanceTo _ _ ?_ ?_ | refine RegsOnly.ite ?_ ?_) | decide | split | unfold id | dsimp only

theorem regs_execFocusLost x0 s : RegsOnly ([(Reg.calAlm1, 0, 0)]) s (after s (execFocusLost x0 s)) := by
  unfold execFocusLost
  try with_reducible refine RegsOnly.next ?_
  repeat' first | (with_reducible first | exact .refl | assumption) | (with_reducible intro x hx; first | exact hx | exact List.mem_cons_of_mem _ hx | (unfold clkDoms; rw [List.mem_singleton.1 hx]; exact List.mem_map.2 ⟨63, List.mem_range.2 (by decide), rfl⟩) | (simp only [calRegs, startRegs, List.mem_cons, List.not_mem_nil, or_false] at hx ⊢; tauto) | (unfold wakeRegs; first | exact List.mem_append_left _ hx | exact List.mem_append_right _ hx)) | (with_reducible first | intro _ | refine regs_State_modPu _ _ _ ?_ | refine regs_State_modSve _ _ _ ?_ | refine regs_abandonMoves _ _ _ ?_ | refine regs_advanceTo _ _ ?_ ?_ | refine regs_ev _ _ _ _ _ _ ?_ | refine regs_setFocused _ _ _ ?_ | refine regs_sveLine _ _ _ ?_ | refine RegsOnly.ite ?_ ?_) | decide | split | unfold id | dsimp only

theorem regs_execJumpGo x0 (x1 : Fin 4) x2 s : RegsOnly ([(Reg.jumpReg, x1.val, 0)]) s (after s (execJumpGo x0 x1 x2 s)) := by
  unfold execJumpGo
  try with_reducible refine RegsOnly.next ?_
  repeat' first | (with_reducible first | exact .refl | assumption) | (with_reducible intro x hx; first | exact hx | exact List.mem_cons_of_mem _ hx | (unfold clkDoms; rw [List.mem_singleton.1 hx]; exact List.mem_map.2 ⟨63, List.mem_range.2 (by decide), rfl⟩) | (simp only [calRegs, startRegs, List.mem_cons, List.not_mem_nil, or_false] at hx ⊢; tauto) | (unfold wakeRegs; first | exact List.mem_append_left _ hx | exact List.mem_append_right _ hx)) | (with_reducible first | intro _ | refine regs_access _ _ _ _ _ ?_ ?_ | refine regs_writeJump _ _ _ ?_ ?_ | refine RegsOnly.ite ?_ ?_) | decide | split | unfold id | dsimp only

theorem regs_execFocusSweepGo x0 (x1 : Fin 4) x2 s : RegsOnly ([(Reg.fsweep1, x1.val, 0)]) s (after s (execFocusSweepGo x0 x1 x2 s)) := by
  unfold execFocusSweepGo
  try with_reducible refine RegsOnly.next ?_
  repeat' first | (with_reducible first | exact .refl | assumption) | (with_reducible intro x hx; first | exact hx | exact List.mem_cons_of_mem _ hx | (unfold clkDoms; rw [List.mem_singleton.1 hx]; exact List.mem_map.2 ⟨63, List.mem_range.2 (by decide), rfl⟩) | (simp only [calRegs, startRegs, List.mem_cons, List.not_mem_nil, or_false] at hx ⊢; tauto) | (unfold wakeRegs; first | exact List.mem_append_left _ hx | exact List.mem_append_right _ hx)) | (with_reducible first | intro _ | refine regs_access _ _ _ _ _ ?_ ?_ | refine regs_writeSweep _ _ _ ?_ ?_ | refine RegsOnly.ite ?_ ?_) | decide | split | unfold id | dsimp only

theorem regs_execTraceStart x0 (x1 : Fin 5) x2 s : RegsOnly ([(Reg.trctl, x1.val, 0)]) s (after s (execTraceStart x0 x1 x2 s)) := by
  unfold execTraceStart
  try with_reducible refine RegsOnly.next ?_
  repeat' first | (with_reducible first | exact .refl | assumption) | (with_reducible intro x hx; first | exact hx | exact List.mem_cons_of_mem _ hx | (unfold clkDoms; rw [List.mem_singleton.1 hx]; exact List.mem_map.2 ⟨63, List.mem_range.2 (by decide), rfl⟩) | (simp only [calRegs, startRegs, List.mem_cons, List.not_mem_nil, or_false] at hx ⊢; tauto) | (unfold wakeRegs; first | exact List.mem_append_left _ hx | exact List.mem_append_right _ hx)) | (with_reducible first | intro _ | refine regs_access _ _ _ _ _ ?_ ?_ | refine regs_writeTrctl _ _ _ ?_ ?_ | refine RegsOnly.ite ?_ ?_) | decide | split | unfold id | dsimp only

theorem regs_execTraceStop x0 (x1 : Fin 5) x2 s : RegsOnly ([(Reg.trctl, x1.val, 0)]) s (after s (execTraceStop x0 x1 x2 s)) := by
  unfold execTraceStop
  try with_reducible refine RegsOnly.next ?_
  repeat' first | (with_reducible first | exact .refl | assumption) | (with_reducible intro x hx; first | exact hx | exact List.mem_cons_of_mem _ hx | (unfold clkDoms; rw [List.mem_singleton.1 hx]; exact List.mem_map.2 ⟨63, List.mem_range.2 (by decide), rfl⟩) | (simp only [calRegs, startRegs, List.mem_cons, List.not_mem_nil, or_false] at hx ⊢; tauto) | (unfold wakeRegs; first | exact List.mem_append_left _ hx | exact List.mem_append_right _ hx)) | (with_reducible first | intro _ | refine regs_access _ _ _ _ _ ?_ ?_ | refine regs_writeTrctl _ _ _ ?_ ?_ | refine RegsOnly.ite ?_ ?_) | decide | split | unfold id | dsimp only

theorem regs_execSpinupAttemptTimeout s : RegsOnly ([(Reg.calAlm1, 0, 0)]) s (after s (execSpinupAttemptTimeout s)) := by
  unfold execSpinupAttemptTimeout
  try with_reducible refine RegsOnly.next ?_
  repeat' first | (with_reducible first | exact .refl | assumption) | (with_reducible intro x hx; first | exact hx | exact List.mem_cons_of_mem _ hx | (unfold clkDoms; rw [List.mem_singleton.1 hx]; exact List.mem_map.2 ⟨63, List.mem_range.2 (by decide), rfl⟩) | (simp only [calRegs, startRegs, List.mem_cons, List.not_mem_nil, or_false] at hx ⊢; tauto) | (unfold wakeRegs; first | exact List.mem_append_left _ hx | exact List.mem_append_right _ hx)) | (with_reducible first | intro _ | refine regs_advanceTo _ _ ?_ ?_ | refine regs_alignStart _ ?_ | refine regs_ev _ _ _ _ _ _ ?_ | refine regs_spnFault _ _ ?_ | refine RegsOnly.ite ?_ ?_) | decide | split | unfold id | dsimp only

theorem regs_execBemfCrossing x0 x1 s : RegsOnly (commRegs) s (after s (execBemfCrossing x0 x1 s)) := by
  unfold execBemfCrossing
  try with_reducible refine RegsOnly.next ?_
  repeat' first | (with_reducible first | exact .refl | assumption) | (with_reducible intro x hx; first | exact hx | exact List.mem_cons_of_mem _ hx | (unfold clkDoms; rw [List.mem_singleton.1 hx]; exact List.mem_map.2 ⟨63, List.mem_range.2 (by decide), rfl⟩) | (simp only [calRegs, startRegs, List.mem_cons, List.not_mem_nil, or_false] at hx ⊢; tauto) | (unfold wakeRegs; first | exact List.mem_append_left _ hx | exact List.mem_append_right _ hx)) | (with_reducible first | intro _ | refine regs_State_modSpn _ _ ?_ | refine regs_brakeSpeed _ ?_ | refine regs_crossingBad _ ?_ | refine regs_crossingGood _ ?_ | refine regs_revStep _ _ ?_ | refine regs_swapPhases _ ?_ ?_ | refine regs_unloadCheck _ _ ?_ | refine RegsOnly.ite ?_ ?_) | decide | split | unfold id | dsimp only

theorem regs_execRecoveryTimeout s : RegsOnly ([(Reg.calAlm1, 0, 0)]) s (after s (execRecoveryTimeout s)) := by
  unfold execRecoveryTimeout
  try with_reducible refine RegsOnly.next ?_
  repeat' first | (with_reducible first | exact .refl | assumption) | (with_reducible intro x hx; first | exact hx | exact List.mem_cons_of_mem _ hx | (unfold clkDoms; rw [List.mem_singleton.1 hx]; exact List.mem_map.2 ⟨63, List.mem_range.2 (by decide), rfl⟩) | (simp only [calRegs, startRegs, List.mem_cons, List.not_mem_nil, or_false] at hx ⊢; tauto) | (unfold wakeRegs; first | exact List.mem_append_left _ hx | exact List.mem_append_right _ hx)) | (with_reducible first | intro _ | refine regs_advanceTo _ _ ?_ ?_ | refine regs_recoveryFails _ ?_ | refine RegsOnly.ite ?_ ?_) | decide | split | unfold id | dsimp only

theorem regs_execLaserMonitorRead x0 x1 x2 s : RegsOnly ([(Reg.calAlm1, 0, 0)]) s (after s (execLaserMonitorRead x0 x1 x2 s)) := by
  unfold execLaserMonitorRead
  try with_reducible refine RegsOnly.next ?_
  repeat' first | (with_reducible first | exact .refl | assumption) | (with_reducible intro x hx; first | exact hx | exact List.mem_cons_of_mem _ hx | (unfold clkDoms; rw [List.mem_singleton.1 hx]; exact List.mem_map.2 ⟨63, List.mem_range.2 (by decide), rfl⟩) | (simp only [calRegs, startRegs, List.mem_cons, List.not_mem_nil, or_false] at hx ⊢; tauto) | (unfold wakeRegs; first | exact List.mem_append_left _ hx | exact List.mem_append_right _ hx)) | (with_reducible first | intro _ | refine regs_State_modLaser _ _ _ ?_ | refine regs_elapse _ _ ?_ ?_ | refine regs_judgeReading _ _ _ ?_ | refine regs_readPower _ _ _ ?_ | refine RegsOnly.ite ?_ ?_) | decide | split | unfold id | dsimp only

theorem regs_execOptFmtWrite x0 x1 s : RegsOnly ([(Reg.optFmt, 0, 0)]) s (after s (execOptFmtWrite x0 x1 s)) := by
  unfold execOptFmtWrite
  try with_reducible refine RegsOnly.next ?_
  repeat' first | (with_reducible first | exact .refl | assumption) | (with_reducible intro x hx; first | exact hx | exact List.mem_cons_of_mem _ hx | (unfold clkDoms; rw [List.mem_singleton.1 hx]; exact List.mem_map.2 ⟨63, List.mem_range.2 (by decide), rfl⟩) | (simp only [calRegs, startRegs, List.mem_cons, List.not_mem_nil, or_false] at hx ⊢; tauto) | (unfold wakeRegs; first | exact List.mem_append_left _ hx | exact List.mem_append_right _ hx)) | (with_reducible first | intro _ | refine regs_access _ _ _ _ _ ?_ ?_ | refine regs_writeOptFmt _ _ ?_ ?_ | refine RegsOnly.ite ?_ ?_) | decide | split | unfold id | dsimp only

theorem regs_execSaDelayEnd x0 s : RegsOnly ([(Reg.calAlm1, 0, 0)]) s (after s (execSaDelayEnd x0 s)) := by
  unfold execSaDelayEnd
  try with_reducible refine RegsOnly.next ?_
  repeat' first | (with_reducible first | exact .refl | assumption) | (with_reducible intro x hx; first | exact hx | exact List.mem_cons_of_mem _ hx | (unfold clkDoms; rw [List.mem_singleton.1 hx]; exact List.mem_map.2 ⟨63, List.mem_range.2 (by decide), rfl⟩) | (simp only [calRegs, startRegs, List.mem_cons, List.not_mem_nil, or_false] at hx ⊢; tauto) | (unfold wakeRegs; first | exact List.mem_append_left _ hx | exact List.mem_append_right _ hx)) | (with_reducible first | intro _ | refine regs_advanceTo _ _ ?_ ?_ | refine regs_jumpStart _ _ _ _ _ _ ?_ | refine regs_optBump _ _ _ _ ?_ | refine RegsOnly.ite ?_ ?_) | decide | split | unfold id | dsimp only

theorem regs_execSledMoveEnd x0 s : RegsOnly ([(Reg.calAlm1, 0, 0)]) s (after s (execSledMoveEnd x0 s)) := by
  unfold execSledMoveEnd
  try with_reducible refine RegsOnly.next ?_
  repeat' first | (with_reducible first | exact .refl | assumption) | (with_reducible intro x hx; first | exact hx | exact List.mem_cons_of_mem _ hx | (unfold clkDoms; rw [List.mem_singleton.1 hx]; exact List.mem_map.2 ⟨63, List.mem_range.2 (by decide), rfl⟩) | (simp only [calRegs, startRegs, List.mem_cons, List.not_mem_nil, or_false] at hx ⊢; tauto) | (unfold wakeRegs; first | exact List.mem_append_left _ hx | exact List.mem_append_right _ hx)) | (with_reducible first | intro _ | refine regs_State_modPu _ _ _ ?_ | refine regs_advanceTo _ _ ?_ ?_ | refine RegsOnly.ite ?_ ?_) | decide | split | unfold id | dsimp only

theorem regs_execRegattrPolicyWrite x0 (x1 : Fin 16) x2 s : RegsOnly ([(Reg.regattr0, 0, x1.val)]) s (after s (execRegattrPolicyWrite x0 x1 x2 s)) := by
  unfold execRegattrPolicyWrite
  try with_reducible refine RegsOnly.next ?_
  repeat' first | (with_reducible first | exact .refl | assumption) | (with_reducible intro x hx; first | exact hx | exact List.mem_cons_of_mem _ hx | (unfold clkDoms; rw [List.mem_singleton.1 hx]; exact List.mem_map.2 ⟨63, List.mem_range.2 (by decide), rfl⟩) | (simp only [calRegs, startRegs, List.mem_cons, List.not_mem_nil, or_false] at hx ⊢; tauto) | (unfold wakeRegs; first | exact List.mem_append_left _ hx | exact List.mem_append_right _ hx)) | (with_reducible first | intro _ | refine regs_access _ _ _ _ _ ?_ ?_ | refine regs_writeRegattr _ _ _ _ ?_ ?_ | refine RegsOnly.ite ?_ ?_) | decide | split | unfold id | dsimp only

theorem regs_execSplitRead x0 s : RegsOnly (splitRegs) s (after s (execSplitRead x0 s)) := by
  unfold execSplitRead
  try with_reducible refine RegsOnly.next ?_
  repeat' first | (with_reducible first | exact .refl | assumption) | (with_reducible intro x hx; first | exact hx | exact List.mem_cons_of_mem _ hx | (unfold clkDoms; rw [List.mem_singleton.1 hx]; exact List.mem_map.2 ⟨63, List.mem_range.2 (by decide), rfl⟩) | (simp only [calRegs, startRegs, List.mem_cons, List.not_mem_nil, or_false] at hx ⊢; tauto) | (unfold wakeRegs; first | exact List.mem_append_left _ hx | exact List.mem_append_right _ hx)) | (with_reducible first | intro _ | refine regs_access _ _ _ _ _ ?_ ?_ | refine regs_splitGo _ _ ?_ ?_ | refine RegsOnly.ite ?_ ?_) | decide | split | unfold id | dsimp only

theorem regs_execSplitWrite x0 s : RegsOnly (splitRegs) s (after s (execSplitWrite x0 s)) := by
  unfold execSplitWrite
  try with_reducible refine RegsOnly.next ?_
  repeat' first | (with_reducible first | exact .refl | assumption) | (with_reducible intro x hx; first | exact hx | exact List.mem_cons_of_mem _ hx | (unfold clkDoms; rw [List.mem_singleton.1 hx]; exact List.mem_map.2 ⟨63, List.mem_range.2 (by decide), rfl⟩) | (simp only [calRegs, startRegs, List.mem_cons, List.not_mem_nil, or_false] at hx ⊢; tauto) | (unfold wakeRegs; first | exact List.mem_append_left _ hx | exact List.mem_append_right _ hx)) | (with_reducible first | intro _ | refine regs_access _ _ _ _ _ ?_ ?_ | refine regs_splitGo _ _ ?_ ?_ | refine RegsOnly.ite ?_ ?_) | decide | split | unfold id | dsimp only

theorem regs_execSoftPpr x0 x1 s : RegsOnly ([(Reg.ppr0, 0, 0)]) s (after s (execSoftPpr x0 x1 s)) := by
  unfold execSoftPpr
  try with_reducible refine RegsOnly.next ?_
  repeat' first | (with_reducible first | exact .refl | assumption) | (with_reducible intro x hx; first | exact hx | exact List.mem_cons_of_mem _ hx | (unfold clkDoms; rw [List.mem_singleton.1 hx]; exact List.mem_map.2 ⟨63, List.mem_range.2 (by decide), rfl⟩) | (simp only [calRegs, startRegs, List.mem_cons, List.not_mem_nil, or_false] at hx ⊢; tauto) | (unfold wakeRegs; first | exact List.mem_append_left _ hx | exact List.mem_append_right _ hx)) | (with_reducible first | intro _ | refine regs_access _ _ _ _ _ ?_ ?_ | refine regs_pprGo _ _ ?_ ?_ | refine RegsOnly.ite ?_ ?_) | decide | split | unfold id | dsimp only

theorem regs_execHardPpr x0 x1 s : RegsOnly ([(Reg.ppr0, 0, 0)]) s (after s (execHardPpr x0 x1 s)) := by
  unfold execHardPpr
  try with_reducible refine RegsOnly.next ?_
  repeat' first | (with_reducible first | exact .refl | assumption) | (with_reducible intro x hx; first | exact hx | exact List.mem_cons_of_mem _ hx | (unfold clkDoms; rw [List.mem_singleton.1 hx]; exact List.mem_map.2 ⟨63, List.mem_range.2 (by decide), rfl⟩) | (simp only [calRegs, startRegs, List.mem_cons, List.not_mem_nil, or_false] at hx ⊢; tauto) | (unfold wakeRegs; first | exact List.mem_append_left _ hx | exact List.mem_append_right _ hx)) | (with_reducible first | intro _ | refine regs_access _ _ _ _ _ ?_ ?_ | refine regs_pprGo _ _ ?_ ?_ | refine RegsOnly.ite ?_ ?_) | decide | split | unfold id | dsimp only

theorem regs_execBccClean x0 s : RegsOnly ([(Reg.opcmd, 0, 0)]) s (after s (execBccClean x0 s)) := by
  unfold execBccClean
  try with_reducible refine RegsOnly.next ?_
  repeat' first | (with_reducible first | exact .refl | assumption) | (with_reducible intro x hx; first | exact hx | exact List.mem_cons_of_mem _ hx | (unfold clkDoms; rw [List.mem_singleton.1 hx]; exact List.mem_map.2 ⟨63, List.mem_range.2 (by decide), rfl⟩) | (simp only [calRegs, startRegs, List.mem_cons, List.not_mem_nil, or_false] at hx ⊢; tauto) | (unfold wakeRegs; first | exact List.mem_append_left _ hx | exact List.mem_append_right _ hx)) | (with_reducible first | intro _ | refine regs_rangeCmd _ _ ?_ ?_ | refine RegsOnly.ite ?_ ?_) | decide | split | unfold id | dsimp only

theorem regs_execBccInval x0 s : RegsOnly ([(Reg.opcmd, 0, 0)]) s (after s (execBccInval x0 s)) := by
  unfold execBccInval
  try with_reducible refine RegsOnly.next ?_
  repeat' first | (with_reducible first | exact .refl | assumption) | (with_reducible intro x hx; first | exact hx | exact List.mem_cons_of_mem _ hx | (unfold clkDoms; rw [List.mem_singleton.1 hx]; exact List.mem_map.2 ⟨63, List.mem_range.2 (by decide), rfl⟩) | (simp only [calRegs, startRegs, List.mem_cons, List.not_mem_nil, or_false] at hx ⊢; tauto) | (unfold wakeRegs; first | exact List.mem_append_left _ hx | exact List.mem_append_right _ hx)) | (with_reducible first | intro _ | refine regs_rangeCmd _ _ ?_ ?_ | refine RegsOnly.ite ?_ ?_) | decide | split | unfold id | dsimp only

theorem regs_execBccCleanInval x0 s : RegsOnly ([(Reg.opcmd, 0, 0)]) s (after s (execBccCleanInval x0 s)) := by
  unfold execBccCleanInval
  try with_reducible refine RegsOnly.next ?_
  repeat' first | (with_reducible first | exact .refl | assumption) | (with_reducible intro x hx; first | exact hx | exact List.mem_cons_of_mem _ hx | (unfold clkDoms; rw [List.mem_singleton.1 hx]; exact List.mem_map.2 ⟨63, List.mem_range.2 (by decide), rfl⟩) | (simp only [calRegs, startRegs, List.mem_cons, List.not_mem_nil, or_false] at hx ⊢; tauto) | (unfold wakeRegs; first | exact List.mem_append_left _ hx | exact List.mem_append_right _ hx)) | (with_reducible first | intro _ | refine regs_rangeCmd _ _ ?_ ?_ | refine RegsOnly.ite ?_ ?_) | decide | split | unfold id | dsimp only

theorem regs_execBccZero x0 s : RegsOnly ([(Reg.opcmd, 0, 0)]) s (after s (execBccZero x0 s)) := by
  unfold execBccZero
  try with_reducible refine RegsOnly.next ?_
  repeat' first | (with_reducible first | exact .refl | assumption) | (with_reducible intro x hx; first | exact hx | exact List.mem_cons_of_mem _ hx | (unfold clkDoms; rw [List.mem_singleton.1 hx]; exact List.mem_map.2 ⟨63, List.mem_range.2 (by decide), rfl⟩) | (simp only [calRegs, startRegs, List.mem_cons, List.not_mem_nil, or_false] at hx ⊢; tauto) | (unfold wakeRegs; first | exact List.mem_append_left _ hx | exact List.mem_append_right _ hx)) | (with_reducible first | intro _ | refine regs_rangeCmd _ _ ?_ ?_ | refine RegsOnly.ite ?_ ?_) | decide | split | unfold id | dsimp only

theorem regs_execBccLock x0 s : RegsOnly ([(Reg.opcmd, 0, 0)]) s (after s (execBccLock x0 s)) := by
  unfold execBccLock
  try with_reducible refine RegsOnly.next ?_
  repeat' first | (with_reducible first | exact .refl | assumption) | (with_reducible intro x hx; first | exact hx | exact List.mem_cons_of_mem _ hx | (unfold clkDoms; rw [List.mem_singleton.1 hx]; exact List.mem_map.2 ⟨63, List.mem_range.2 (by decide), rfl⟩) | (simp only [calRegs, startRegs, List.mem_cons, List.not_mem_nil, or_false] at hx ⊢; tauto) | (unfold wakeRegs; first | exact List.mem_append_left _ hx | exact List.mem_append_right _ hx)) | (with_reducible first | intro _ | refine regs_rangeCmd _ _ ?_ ?_ | refine RegsOnly.ite ?_ ?_) | decide | split | unfold id | dsimp only

theorem regs_execBccUnlock x0 s : RegsOnly ([(Reg.opcmd, 0, 0)]) s (after s (execBccUnlock x0 s)) := by
  unfold execBccUnlock
  try with_reducible refine RegsOnly.next ?_
  repeat' first | (with_reducible first | exact .refl | assumption) | (with_reducible intro x hx; first | exact hx | exact List.mem_cons_of_mem _ hx | (unfold clkDoms; rw [List.mem_singleton.1 hx]; exact List.mem_map.2 ⟨63, List.mem_range.2 (by decide), rfl⟩) | (simp only [calRegs, startRegs, List.mem_cons, List.not_mem_nil, or_false] at hx ⊢; tauto) | (unfold wakeRegs; first | exact List.mem_append_left _ hx | exact List.mem_append_right _ hx)) | (with_reducible first | intro _ | refine regs_rangeCmd _ _ ?_ ?_ | refine RegsOnly.ite ?_ ?_) | decide | split | unfold id | dsimp only

theorem regs_execBccInvalAll x0 s : RegsOnly ([(Reg.opcmd, 0, 0)]) s (after s (execBccInvalAll x0 s)) := by
  unfold execBccInvalAll
  try with_reducible refine RegsOnly.next ?_
  repeat' first | (with_reducible first | exact .refl | assumption) | (with_reducible intro x hx; first | exact hx | exact List.mem_cons_of_mem _ hx | (unfold clkDoms; rw [List.mem_singleton.1 hx]; exact List.mem_map.2 ⟨63, List.mem_range.2 (by decide), rfl⟩) | (simp only [calRegs, startRegs, List.mem_cons, List.not_mem_nil, or_false] at hx ⊢; tauto) | (unfold wakeRegs; first | exact List.mem_append_left _ hx | exact List.mem_append_right _ hx)) | (with_reducible first | intro _ | refine regs_rangeCmd _ _ ?_ ?_ | refine RegsOnly.ite ?_ ?_) | decide | split | unfold id | dsimp only

theorem regs_execRepairMapEntry x0 s : RegsOnly ([(Reg.mbcmd, 0, 0)]) s (after s (execRepairMapEntry x0 s)) := by
  unfold execRepairMapEntry
  try with_reducible refine RegsOnly.next ?_
  repeat' first | (with_reducible first | exact .refl | assumption) | (with_reducible intro x hx; first | exact hx | exact List.mem_cons_of_mem _ hx | (unfold clkDoms; rw [List.mem_singleton.1 hx]; exact List.mem_map.2 ⟨63, List.mem_range.2 (by decide), rfl⟩) | (simp only [calRegs, startRegs, List.mem_cons, List.not_mem_nil, or_false] at hx ⊢; tauto) | (unfold wakeRegs; first | exact List.mem_append_left _ hx | exact List.mem_append_right _ hx)) | (with_reducible first | intro _ | refine regs_mailbox _ _ _ ?_ ?_ ?_ | refine regs_State_modSys _ _ ?_ | refine regs_answer _ _ _ _ ?_ | refine regs_ev _ _ _ _ _ _ ?_ | refine regs_programFuses _ ?_ | refine RegsOnly.ite ?_ ?_) | decide | split | unfold id | dsimp only

theorem regs_execExtend x0 x1 s : RegsOnly ([(Reg.mbcmd, 0, 0)]) s (after s (execExtend x0 x1 s)) := by
  unfold execExtend
  try with_reducible refine RegsOnly.next ?_
  repeat' first | (with_reducible first | exact .refl | assumption) | (with_reducible intro x hx; first | exact hx | exact List.mem_cons_of_mem _ hx | (unfold clkDoms; rw [List.mem_singleton.1 hx]; exact List.mem_map.2 ⟨63, List.mem_range.2 (by decide), rfl⟩) | (simp only [calRegs, startRegs, List.mem_cons, List.not_mem_nil, or_false] at hx ⊢; tauto) | (unfold wakeRegs; first | exact List.mem_append_left _ hx | exact List.mem_append_right _ hx)) | (with_reducible first | intro _ | refine regs_mailbox _ _ _ ?_ ?_ ?_ | refine regs_answer _ _ _ _ ?_ | refine regs_extendMeas _ _ _ ?_ | refine RegsOnly.ite ?_ ?_) | decide | split | unfold id | dsimp only

theorem regs_execKeyGenerate x0 x1 x2 s : RegsOnly ([(Reg.mbcmd, 0, 0)]) s (after s (execKeyGenerate x0 x1 x2 s)) := by
  unfold execKeyGenerate
  try with_reducible refine RegsOnly.next ?_
  repeat' first | (with_reducible first | exact .refl | assumption) | (with_reducible intro x hx; first | exact hx | exact List.mem_cons_of_mem _ hx | (unfold clkDoms; rw [List.mem_singleton.1 hx]; exact List.mem_map.2 ⟨63, List.mem_range.2 (by decide), rfl⟩) | (simp only [calRegs, startRegs, List.mem_cons, List.not_mem_nil, or_false] at hx ⊢; tauto) | (unfold wakeRegs; first | exact List.mem_append_left _ hx | exact List.mem_append_right _ hx)) | (with_reducible first | intro _ | refine regs_mailbox _ _ _ ?_ ?_ ?_ | refine regs_State_modSec _ _ ?_ | refine regs_answer _ _ _ _ ?_ | refine regs_newKey _ _ _ _ _ ?_ | refine regs_respondFree _ _ ?_ | refine RegsOnly.ite ?_ ?_) | decide | split | unfold id | dsimp only

theorem regs_execKeyZero x0 s : RegsOnly ([(Reg.mbcmd, 0, 0)]) s (after s (execKeyZero x0 s)) := by
  unfold execKeyZero
  try with_reducible refine RegsOnly.next ?_
  repeat' first | (with_reducible first | exact .refl | assumption) | (with_reducible intro x hx; first | exact hx | exact List.mem_cons_of_mem _ hx | (unfold clkDoms; rw [List.mem_singleton.1 hx]; exact List.mem_map.2 ⟨63, List.mem_range.2 (by decide), rfl⟩) | (simp only [calRegs, startRegs, List.mem_cons, List.not_mem_nil, or_false] at hx ⊢; tauto) | (unfold wakeRegs; first | exact List.mem_append_left _ hx | exact List.mem_append_right _ hx)) | (with_reducible first | intro _ | refine regs_mailbox _ _ _ ?_ ?_ ?_ | refine regs_answer _ _ _ _ ?_ | refine regs_zeroSlot _ _ ?_ | refine RegsOnly.ite ?_ ?_) | decide | split | unfold id | dsimp only

theorem regs_execKeyCheckpoint s : RegsOnly ([(Reg.mbcmd, 0, 0)]) s (after s (execKeyCheckpoint s)) := by
  unfold execKeyCheckpoint
  try with_reducible refine RegsOnly.next ?_
  repeat' first | (with_reducible first | exact .refl | assumption) | (with_reducible intro x hx; first | exact hx | exact List.mem_cons_of_mem _ hx | (unfold clkDoms; rw [List.mem_singleton.1 hx]; exact List.mem_map.2 ⟨63, List.mem_range.2 (by decide), rfl⟩) | (simp only [calRegs, startRegs, List.mem_cons, List.not_mem_nil, or_false] at hx ⊢; tauto) | (unfold wakeRegs; first | exact List.mem_append_left _ hx | exact List.mem_append_right _ hx)) | (with_reducible first | intro _ | refine regs_mailbox _ _ _ ?_ ?_ ?_ | refine regs_State_modSec _ _ ?_ | refine regs_respondRecords _ _ _ ?_ | refine regs_storeRecords _ _ ?_ | refine RegsOnly.ite ?_ ?_) | decide | split | unfold id | dsimp only

theorem regs_execNsActive x0 x1 x2 s : RegsOnly ([(Reg.mbcmd, 0, 0)]) s (after s (execNsActive x0 x1 x2 s)) := by
  unfold execNsActive
  try with_reducible refine RegsOnly.next ?_
  repeat' first | (with_reducible first | exact .refl | assumption) | (with_reducible intro x hx; first | exact hx | exact List.mem_cons_of_mem _ hx | (unfold clkDoms; rw [List.mem_singleton.1 hx]; exact List.mem_map.2 ⟨63, List.mem_range.2 (by decide), rfl⟩) | (simp only [calRegs, startRegs, List.mem_cons, List.not_mem_nil, or_false] at hx ⊢; tauto) | (unfold wakeRegs; first | exact List.mem_append_left _ hx | exact List.mem_append_right _ hx)) | (with_reducible first | intro _ | refine regs_mailbox _ _ _ ?_ ?_ ?_ | refine regs_answer _ _ _ _ ?_ | refine regs_setNsKey _ _ _ _ ?_ | refine RegsOnly.ite ?_ ?_) | decide | split | unfold id | dsimp only

theorem regs_execSvnCommit x0 s : RegsOnly ([(Reg.mbcmd, 0, 0)]) s (after s (execSvnCommit x0 s)) := by
  unfold execSvnCommit
  try with_reducible refine RegsOnly.next ?_
  repeat' first | (with_reducible first | exact .refl | assumption) | (with_reducible intro x hx; first | exact hx | exact List.mem_cons_of_mem _ hx | (unfold clkDoms; rw [List.mem_singleton.1 hx]; exact List.mem_map.2 ⟨63, List.mem_range.2 (by decide), rfl⟩) | (simp only [calRegs, startRegs, List.mem_cons, List.not_mem_nil, or_false] at hx ⊢; tauto) | (unfold wakeRegs; first | exact List.mem_append_left _ hx | exact List.mem_append_right _ hx)) | (with_reducible first | intro _ | refine regs_mailbox _ _ _ ?_ ?_ ?_ | refine regs_State_modSec _ _ ?_ | refine regs_answer _ _ _ _ ?_ | refine regs_ev _ _ _ _ _ _ ?_ | refine regs_programFuses _ ?_ | refine RegsOnly.ite ?_ ?_) | decide | split | unfold id | dsimp only

theorem regs_execTakeOwnership x0 s : RegsOnly ([(Reg.mbcmd, 0, 0)]) s (after s (execTakeOwnership x0 s)) := by
  unfold execTakeOwnership
  try with_reducible refine RegsOnly.next ?_
  repeat' first | (with_reducible first | exact .refl | assumption) | (with_reducible intro x hx; first | exact hx | exact List.mem_cons_of_mem _ hx | (unfold clkDoms; rw [List.mem_singleton.1 hx]; exact List.mem_map.2 ⟨63, List.mem_range.2 (by decide), rfl⟩) | (simp only [calRegs, startRegs, List.mem_cons, List.not_mem_nil, or_false] at hx ⊢; tauto) | (unfold wakeRegs; first | exact List.mem_append_left _ hx | exact List.mem_append_right _ hx)) | (with_reducible first | intro _ | refine regs_mailbox _ _ _ ?_ ?_ ?_ | refine regs_State_modSec _ _ ?_ | refine regs_answer _ _ _ _ ?_ | refine regs_programFuses _ ?_ | refine RegsOnly.ite ?_ ?_) | decide | split | unfold id | dsimp only

theorem regs_execAddOwnerKey x0 x1 s : RegsOnly ([(Reg.mbcmd, 0, 0)]) s (after s (execAddOwnerKey x0 x1 s)) := by
  unfold execAddOwnerKey
  try with_reducible refine RegsOnly.next ?_
  repeat' first | (with_reducible first | exact .refl | assumption) | (with_reducible intro x hx; first | exact hx | exact List.mem_cons_of_mem _ hx | (unfold clkDoms; rw [List.mem_singleton.1 hx]; exact List.mem_map.2 ⟨63, List.mem_range.2 (by decide), rfl⟩) | (simp only [calRegs, startRegs, List.mem_cons, List.not_mem_nil, or_false] at hx ⊢; tauto) | (unfold wakeRegs; first | exact List.mem_append_left _ hx | exact List.mem_append_right _ hx)) | (with_reducible first | intro _ | refine regs_mailbox _ _ _ ?_ ?_ ?_ | refine regs_State_modSec _ _ ?_ | refine regs_answer _ _ _ _ ?_ | refine regs_programFuses _ ?_ | refine RegsOnly.ite ?_ ?_) | decide | split | unfold id | dsimp only

theorem regs_execRevokeOwnerKey x0 x1 s : RegsOnly ([(Reg.mbcmd, 0, 0)]) s (after s (execRevokeOwnerKey x0 x1 s)) := by
  unfold execRevokeOwnerKey
  try with_reducible refine RegsOnly.next ?_
  repeat' first | (with_reducible first | exact .refl | assumption) | (with_reducible intro x hx; first | exact hx | exact List.mem_cons_of_mem _ hx | (unfold clkDoms; rw [List.mem_singleton.1 hx]; exact List.mem_map.2 ⟨63, List.mem_range.2 (by decide), rfl⟩) | (simp only [calRegs, startRegs, List.mem_cons, List.not_mem_nil, or_false] at hx ⊢; tauto) | (unfold wakeRegs; first | exact List.mem_append_left _ hx | exact List.mem_append_right _ hx)) | (with_reducible first | intro _ | refine regs_mailbox _ _ _ ?_ ?_ ?_ | refine regs_State_modSec _ _ ?_ | refine regs_answer _ _ _ _ ?_ | refine regs_programFuses _ ?_ | refine RegsOnly.ite ?_ ?_) | decide | split | unfold id | dsimp only

theorem regs_execOwnerPolicy x0 x1 x2 x3 s : RegsOnly ([(Reg.mbcmd, 0, 0)]) s (after s (execOwnerPolicy x0 x1 x2 x3 s)) := by
  unfold execOwnerPolicy
  try with_reducible refine RegsOnly.next ?_
  repeat' first | (with_reducible first | exact .refl | assumption) | (with_reducible intro x hx; first | exact hx | exact List.mem_cons_of_mem _ hx | (unfold clkDoms; rw [List.mem_singleton.1 hx]; exact List.mem_map.2 ⟨63, List.mem_range.2 (by decide), rfl⟩) | (simp only [calRegs, startRegs, List.mem_cons, List.not_mem_nil, or_false] at hx ⊢; tauto) | (unfold wakeRegs; first | exact List.mem_append_left _ hx | exact List.mem_append_right _ hx)) | (with_reducible first | intro _ | refine regs_mailbox _ _ _ ?_ ?_ ?_ | refine regs_State_modSec _ _ ?_ | refine regs_answer _ _ _ _ ?_ | refine RegsOnly.ite ?_ ?_) | decide | split | unfold id | dsimp only

theorem regs_execExportKeys x0 x1 s : RegsOnly ([(Reg.mbcmd, 0, 0)]) s (after s (execExportKeys x0 x1 s)) := by
  unfold execExportKeys
  try with_reducible refine RegsOnly.next ?_
  repeat' first | (with_reducible first | exact .refl | assumption) | (with_reducible intro x hx; first | exact hx | exact List.mem_cons_of_mem _ hx | (unfold clkDoms; rw [List.mem_singleton.1 hx]; exact List.mem_map.2 ⟨63, List.mem_range.2 (by decide), rfl⟩) | (simp only [calRegs, startRegs, List.mem_cons, List.not_mem_nil, or_false] at hx ⊢; tauto) | (unfold wakeRegs; first | exact List.mem_append_left _ hx | exact List.mem_append_right _ hx)) | (with_reducible first | intro _ | refine regs_mailbox _ _ _ ?_ ?_ ?_ | refine regs_answer _ _ _ _ ?_ | refine regs_ev _ _ _ _ _ _ ?_ | refine regs_respondFree _ _ ?_ | refine RegsOnly.ite ?_ ?_) | decide | split | unfold id | dsimp only

theorem regs_execImportKeys x0 x1 s : RegsOnly ([(Reg.mbcmd, 0, 0)]) s (after s (execImportKeys x0 x1 s)) := by
  unfold execImportKeys
  try with_reducible refine RegsOnly.next ?_
  repeat' first | (with_reducible first | exact .refl | assumption) | (with_reducible intro x hx; first | exact hx | exact List.mem_cons_of_mem _ hx | (unfold clkDoms; rw [List.mem_singleton.1 hx]; exact List.mem_map.2 ⟨63, List.mem_range.2 (by decide), rfl⟩) | (simp only [calRegs, startRegs, List.mem_cons, List.not_mem_nil, or_false] at hx ⊢; tauto) | (unfold wakeRegs; first | exact List.mem_append_left _ hx | exact List.mem_append_right _ hx)) | (with_reducible first | intro _ | refine regs_mailbox _ _ _ ?_ ?_ ?_ | refine regs_answer _ _ _ _ ?_ | refine regs_ev _ _ _ _ _ _ ?_ | refine regs_respondRecords _ _ _ ?_ | refine regs_storeRecords _ _ ?_ | refine RegsOnly.ite ?_ ?_) | decide | split | unfold id | dsimp only

theorem regs_execBehaviourProfileUnlock x0 x1 s : RegsOnly ([(Reg.mbcmd, 0, 0)]) s (after s (execBehaviourProfileUnlock x0 x1 s)) := by
  unfold execBehaviourProfileUnlock
  try with_reducible refine RegsOnly.next ?_
  repeat' first | (with_reducible first | exact .refl | assumption) | (with_reducible intro x hx; first | exact hx | exact List.mem_cons_of_mem _ hx | (unfold clkDoms; rw [List.mem_singleton.1 hx]; exact List.mem_map.2 ⟨63, List.mem_range.2 (by decide), rfl⟩) | (simp only [calRegs, startRegs, List.mem_cons, List.not_mem_nil, or_false] at hx ⊢; tauto) | (unfold wakeRegs; first | exact List.mem_append_left _ hx | exact List.mem_append_right _ hx)) | (with_reducible first | intro _ | refine regs_mailbox _ _ _ ?_ ?_ ?_ | refine regs_State_modSys _ _ ?_ | refine regs_answer _ _ _ _ ?_ | refine RegsOnly.ite ?_ ?_) | decide | split | unfold id | dsimp only

theorem regs_execFirmwareActivationMeasurement x0 s : RegsOnly ([(Reg.mbcmd, 0, 0)]) s (after s (execFirmwareActivationMeasurement x0 s)) := by
  unfold execFirmwareActivationMeasurement
  try with_reducible refine RegsOnly.next ?_
  repeat' first | (with_reducible first | exact .refl | assumption) | (with_reducible intro x hx; first | exact hx | exact List.mem_cons_of_mem _ hx | (unfold clkDoms; rw [List.mem_singleton.1 hx]; exact List.mem_map.2 ⟨63, List.mem_range.2 (by decide), rfl⟩) | (simp only [calRegs, startRegs, List.mem_cons, List.not_mem_nil, or_false] at hx ⊢; tauto) | (unfold wakeRegs; first | exact List.mem_append_left _ hx | exact List.mem_append_right _ hx)) | (with_reducible first | intro _ | refine regs_mailbox _ _ _ ?_ ?_ ?_ | refine regs_answer _ _ _ _ ?_ | refine regs_extendMeas _ _ _ ?_ | refine RegsOnly.ite ?_ ?_) | decide | split | unfold id | dsimp only

theorem regs_execSlotSelect x0 x1 s : RegsOnly ([(Reg.slotsel, 0, 0)]) s (after s (execSlotSelect x0 x1 s)) := by
  unfold execSlotSelect
  try with_reducible refine RegsOnly.next ?_
  repeat' first | (with_reducible first | exact .refl | assumption) | (with_reducible intro x hx; first | exact hx | exact List.mem_cons_of_mem _ hx | (unfold clkDoms; rw [List.mem_singleton.1 hx]; exact List.mem_map.2 ⟨63, List.mem_range.2 (by decide), rfl⟩) | (simp only [calRegs, startRegs, List.mem_cons, List.not_mem_nil, or_false] at hx ⊢; tauto) | (unfold wakeRegs; first | exact List.mem_append_left _ hx | exact List.mem_append_right _ hx)) | (with_reducible first | intro _ | refine regs_access _ _ _ _ _ ?_ ?_ | refine regs_writeSlotsel _ _ ?_ ?_ | refine RegsOnly.ite ?_ ?_) | decide | split | unfold id | dsimp only

theorem regs_execSnuffLevel1 x0 s : RegsOnly (wakeRegs) s (after s (execSnuffLevel1 x0 s)) := by
  unfold execSnuffLevel1
  try with_reducible refine RegsOnly.next ?_
  repeat' first | (with_reducible first | exact .refl | assumption) | (with_reducible intro x hx; first | exact hx | exact List.mem_cons_of_mem _ hx | (unfold clkDoms; rw [List.mem_singleton.1 hx]; exact List.mem_map.2 ⟨63, List.mem_range.2 (by decide), rfl⟩) | (simp only [calRegs, startRegs, List.mem_cons, List.not_mem_nil, or_false] at hx ⊢; tauto) | (unfold wakeRegs; first | exact List.mem_append_left _ hx | exact List.mem_append_right _ hx)) | (with_reducible first | intro _ | refine regs_snuff1 _ _ ?_ | refine regs_wakeNoted _ ?_ ?_ | refine RegsOnly.ite ?_ ?_) | decide | split | unfold id | dsimp only

theorem regs_execSnuffLevel2 x0 s : RegsOnly (wakeRegs) s (after s (execSnuffLevel2 x0 s)) := by
  unfold execSnuffLevel2
  try with_reducible refine RegsOnly.next ?_
  repeat' first | (with_reducible first | exact .refl | assumption) | (with_reducible intro x hx; first | exact hx | exact List.mem_cons_of_mem _ hx | (unfold clkDoms; rw [List.mem_singleton.1 hx]; exact List.mem_map.2 ⟨63, List.mem_range.2 (by decide), rfl⟩) | (simp only [calRegs, startRegs, List.mem_cons, List.not_mem_nil, or_false] at hx ⊢; tauto) | (unfold wakeRegs; first | exact List.mem_append_left _ hx | exact List.mem_append_right _ hx)) | (with_reducible first | intro _ | refine regs_snuff2 _ _ ?_ | refine regs_wakeNoted _ ?_ ?_ | refine RegsOnly.ite ?_ ?_) | decide | split | unfold id | dsimp only

theorem regs_execAlarmFuseBlow s : RegsOnly (wakeRegs) s (after s (execAlarmFuseBlow s)) := by
  unfold execAlarmFuseBlow
  try with_reducible refine RegsOnly.next ?_
  repeat' first | (with_reducible first | exact .refl | assumption) | (with_reducible intro x hx; first | exact hx | exact List.mem_cons_of_mem _ hx | (unfold clkDoms; rw [List.mem_singleton.1 hx]; exact List.mem_map.2 ⟨63, List.mem_range.2 (by decide), rfl⟩) | (simp only [calRegs, startRegs, List.mem_cons, List.not_mem_nil, or_false] at hx ⊢; tauto) | (unfold wakeRegs; first | exact List.mem_append_left _ hx | exact List.mem_append_right _ hx)) | (with_reducible first | intro _ | refine regs_blowAlarm _ _ ?_ | refine regs_wakeNoted _ ?_ ?_ | refine RegsOnly.ite ?_ ?_) | decide | split | unfold id | dsimp only

theorem regs_execKeyRestore s : RegsOnly ([(Reg.calAlm1, 0, 0)]) s (after s (execKeyRestore s)) := by
  unfold execKeyRestore
  try with_reducible refine RegsOnly.next ?_
  repeat' first | (with_reducible first | exact .refl | assumption) | (with_reducible intro x hx; first | exact hx | exact List.mem_cons_of_mem _ hx | (unfold clkDoms; rw [List.mem_singleton.1 hx]; exact List.mem_map.2 ⟨63, List.mem_range.2 (by decide), rfl⟩) | (simp only [calRegs, startRegs, List.mem_cons, List.not_mem_nil, or_false] at hx ⊢; tauto) | (unfold wakeRegs; first | exact List.mem_append_left _ hx | exact List.mem_append_right _ hx)) | (with_reducible first | intro _ | refine regs_State_modSec _ _ ?_ | refine regs_advanceTo _ _ ?_ ?_ | refine regs_deallocWiped _ _ ?_ | refine regs_ev _ _ _ _ _ _ ?_ | refine regs_startQuiet _ ?_ | refine regs_unwrapRec _ _ ?_ | refine regs_zeroKst _ ?_ | refine RegsOnly.foldl (fun _ _ _ => ?_) ?_ | refine RegsOnly.ite ?_ ?_) | decide | split | unfold id | dsimp only

theorem regs_execDebugResponse x0 x1 x2 x3 s : RegsOnly (wakeRegs) s (after s (execDebugResponse x0 x1 x2 x3 s)) := by
  unfold execDebugResponse
  try with_reducible refine RegsOnly.next ?_
  repeat' first | (with_reducible first | exact .refl | assumption) | (with_reducible intro x hx; first | exact hx | exact List.mem_cons_of_mem _ hx | (unfold clkDoms; rw [List.mem_singleton.1 hx]; exact List.mem_map.2 ⟨63, List.mem_range.2 (by decide), rfl⟩) | (simp only [calRegs, startRegs, List.mem_cons, List.not_mem_nil, or_false] at hx ⊢; tauto) | (unfold wakeRegs; first | exact List.mem_append_left _ hx | exact List.mem_append_right _ hx)) | (with_reducible first | intro _ | refine regs_debugAnswer _ _ _ _ _ ?_ | refine regs_wakeNoted _ ?_ ?_ | refine RegsOnly.ite ?_ ?_) | decide | split | unfold id | dsimp only

theorem regs_execCriticalWake x0 s : RegsOnly ((Reg.calAlm1, 0, 0) :: startRegs) s (after s (execCriticalWake x0 s)) := by
  unfold execCriticalWake
  try with_reducible refine RegsOnly.next ?_
  repeat' first | (with_reducible first | exact .refl | assumption) | (with_reducible intro x hx; first | exact hx | exact List.mem_cons_of_mem _ hx | (unfold clkDoms; rw [List.mem_singleton.1 hx]; exact List.mem_map.2 ⟨63, List.mem_range.2 (by decide), rfl⟩) | (simp only [calRegs, startRegs, List.mem_cons, List.not_mem_nil, or_false] at hx ⊢; tauto) | (unfold wakeRegs; first | exact List.mem_append_left _ hx | exact List.mem_append_right _ hx)) | (with_reducible first | intro _ | refine regs_State_drawn _ ?_ | refine regs_State_modPwr _ _ ?_ | refine regs_State_modThm _ _ ?_ | refine regs_elapse _ _ ?_ ?_ | refine regs_startCore _ _ ?_ ?_ | refine regs_wakeRecord _ _ _ ?_ | refine RegsOnly.ite ?_ ?_) | decide | split | unfold id | dsimp only

theorem regs_execTaperStep x0 s : RegsOnly ([(Reg.calAlm1, 0, 0)]) s (after s (execTaperStep x0 s)) := by
  unfold execTaperStep
  try with_reducible refine RegsOnly.next ?_
  repeat' first | (with_reducible first | exact .refl | assumption) | (with_reducible intro x hx; first | exact hx | exact List.mem_cons_of_mem _ hx | (unfold clkDoms; rw [List.mem_singleton.1 hx]; exact List.mem_map.2 ⟨63, List.mem_range.2 (by decide), rfl⟩) | (simp only [calRegs, startRegs, List.mem_cons, List.not_mem_nil, or_false] at hx ⊢; tauto) | (unfold wakeRegs; first | exact List.mem_append_left _ hx | exact List.mem_append_right _ hx)) | (with_reducible first | intro _ | refine regs_stepTrim _ _ ?_ ?_ | refine RegsOnly.ite ?_ ?_) | decide | split | unfold id | dsimp only

theorem regs_execTrimAge x0 s : RegsOnly ([(Reg.calAlm1, 0, 0)]) s (after s (execTrimAge x0 s)) := by
  unfold execTrimAge
  try with_reducible refine RegsOnly.next ?_
  repeat' first | (with_reducible first | exact .refl | assumption) | (with_reducible intro x hx; first | exact hx | exact List.mem_cons_of_mem _ hx | (unfold clkDoms; rw [List.mem_singleton.1 hx]; exact List.mem_map.2 ⟨63, List.mem_range.2 (by decide), rfl⟩) | (simp only [calRegs, startRegs, List.mem_cons, List.not_mem_nil, or_false] at hx ⊢; tauto) | (unfold wakeRegs; first | exact List.mem_append_left _ hx | exact List.mem_append_right _ hx)) | (with_reducible first | intro _ | refine regs_advanceTo _ _ ?_ ?_ | refine regs_ev _ _ _ _ _ _ ?_ | refine regs_modTrim _ _ _ ?_ | refine regs_setIrqStat _ _ _ _ ?_ | refine RegsOnly.ite ?_ ?_) | decide | split | unfold id | dsimp only

theorem regs_execEventRaiseSw x0 x1 s : RegsOnly ([(Reg.evrSwev, 0, 0)]) s (after s (execEventRaiseSw x0 x1 s)) := by
  unfold execEventRaiseSw
  try with_reducible refine RegsOnly.next ?_
  repeat' first | (with_reducible first | exact .refl | assumption) | (with_reducible intro x hx; first | exact hx | exact List.mem_cons_of_mem _ hx | (unfold clkDoms; rw [List.mem_singleton.1 hx]; exact List.mem_map.2 ⟨63, List.mem_range.2 (by decide), rfl⟩) | (simp only [calRegs, startRegs, List.mem_cons, List.not_mem_nil, or_false] at hx ⊢; tauto) | (unfold wakeRegs; first | exact List.mem_append_left _ hx | exact List.mem_append_right _ hx)) | (with_reducible first | intro _ | refine regs_access _ _ _ _ _ ?_ ?_ | refine regs_writeSwev _ _ ?_ ?_ | refine RegsOnly.ite ?_ ?_) | decide | split | unfold id | dsimp only

theorem regs_execCalSet x0 x1 s : RegsOnly ([(Reg.calAlm1, 0, 0)]) s (after s (execCalSet x0 x1 s)) := by
  unfold execCalSet
  try with_reducible refine RegsOnly.next ?_
  repeat' first | (with_reducible first | exact .refl | assumption) | (with_reducible intro x hx; first | exact hx | exact List.mem_cons_of_mem _ hx | (unfold clkDoms; rw [List.mem_singleton.1 hx]; exact List.mem_map.2 ⟨63, List.mem_range.2 (by decide), rfl⟩) | (simp only [calRegs, startRegs, List.mem_cons, List.not_mem_nil, or_false] at hx ⊢; tauto) | (unfold wakeRegs; first | exact List.mem_append_left _ hx | exact List.mem_append_right _ hx)) | (with_reducible first | intro _ | refine regs_access _ _ _ _ _ ?_ ?_ | refine regs_writeCalCmd _ _ ?_ ?_ | refine RegsOnly.ite ?_ ?_) | decide | split | unfold id | dsimp only

theorem regs_execCalAdjust x0 x1 s : RegsOnly ([(Reg.calAdj, 0, 0)]) s (after s (execCalAdjust x0 x1 s)) := by
  unfold execCalAdjust
  try with_reducible refine RegsOnly.next ?_
  repeat' first | (with_reducible first | exact .refl | assumption) | (with_reducible intro x hx; first | exact hx | exact List.mem_cons_of_mem _ hx | (unfold clkDoms; rw [List.mem_singleton.1 hx]; exact List.mem_map.2 ⟨63, List.mem_range.2 (by decide), rfl⟩) | (simp only [calRegs, startRegs, List.mem_cons, List.not_mem_nil, or_false] at hx ⊢; tauto) | (unfold wakeRegs; first | exact List.mem_append_left _ hx | exact List.mem_append_right _ hx)) | (with_reducible first | intro _ | refine regs_access _ _ _ _ _ ?_ ?_ | refine regs_writeCalAdj _ _ ?_ ?_ | refine RegsOnly.ite ?_ ?_) | decide | split | unfold id | dsimp only

theorem regs_execSlewDone s : RegsOnly ([(Reg.calAlm1, 0, 0)]) s (after s (execSlewDone s)) := by
  unfold execSlewDone
  try with_reducible refine RegsOnly.next ?_
  repeat' first | (with_reducible first | exact .refl | assumption) | (with_reducible intro x hx; first | exact hx | exact List.mem_cons_of_mem _ hx | (unfold clkDoms; rw [List.mem_singleton.1 hx]; exact List.mem_map.2 ⟨63, List.mem_range.2 (by decide), rfl⟩) | (simp only [calRegs, startRegs, List.mem_cons, List.not_mem_nil, or_false] at hx ⊢; tauto) | (unfold wakeRegs; first | exact List.mem_append_left _ hx | exact List.mem_append_right _ hx)) | (with_reducible first | intro _ | refine regs_elapse _ _ ?_ ?_ | refine RegsOnly.ite ?_ ?_) | decide | split | unfold id | dsimp only

theorem regs_execCalAlarm s : RegsOnly ([(Reg.calAlm1, 0, 0)]) s (after s (execCalAlarm s)) := by
  unfold execCalAlarm
  try with_reducible refine RegsOnly.next ?_
  repeat' first | (with_reducible first | exact .refl | assumption) | (with_reducible intro x hx; first | exact hx | exact List.mem_cons_of_mem _ hx | (unfold clkDoms; rw [List.mem_singleton.1 hx]; exact List.mem_map.2 ⟨63, List.mem_range.2 (by decide), rfl⟩) | (simp only [calRegs, startRegs, List.mem_cons, List.not_mem_nil, or_false] at hx ⊢; tauto) | (unfold wakeRegs; first | exact List.mem_append_left _ hx | exact List.mem_append_right _ hx)) | (with_reducible first | intro _ | refine regs_elapse _ _ ?_ ?_ | refine RegsOnly.ite ?_ ?_) | decide | split | unfold id | dsimp only

theorem regs_execBeaconSend s : RegsOnly ([(Reg.calAlm1, 0, 0)]) s (after s (execBeaconSend s)) := by
  unfold execBeaconSend
  try with_reducible refine RegsOnly.next ?_
  repeat' first | (with_reducible first | exact .refl | assumption) | (with_reducible intro x hx; first | exact hx | exact List.mem_cons_of_mem _ hx | (unfold clkDoms; rw [List.mem_singleton.1 hx]; exact List.mem_map.2 ⟨63, List.mem_range.2 (by decide), rfl⟩) | (simp only [calRegs, startRegs, List.mem_cons, List.not_mem_nil, or_false] at hx ⊢; tauto) | (unfold wakeRegs; first | exact List.mem_append_left _ hx | exact List.mem_append_right _ hx)) | (with_reducible first | intro _ | refine regs_State_modVlk _ _ ?_ | refine regs_elapse _ _ ?_ ?_ | refine regs_keyAtBeacon _ _ ?_ | refine regs_sendSeg _ ?_ | refine regs_vlkBump _ _ ?_ | refine RegsOnly.ite ?_ ?_) | decide | split | unfold id | dsimp only

theorem regs_execBeaconReceive x0 x1 s : RegsOnly ((Reg.calAdj, 0, 0) :: calRegs) s (after s (execBeaconReceive x0 x1 s)) := by
  unfold execBeaconReceive
  try with_reducible refine RegsOnly.next ?_
  repeat' first | (with_reducible first | exact .refl | assumption) | (with_reducible intro x hx; first | exact hx | exact List.mem_cons_of_mem _ hx | (unfold clkDoms; rw [List.mem_singleton.1 hx]; exact List.mem_map.2 ⟨63, List.mem_range.2 (by decide), rfl⟩) | (simp only [calRegs, startRegs, List.mem_cons, List.not_mem_nil, or_false] at hx ⊢; tauto) | (unfold wakeRegs; first | exact List.mem_append_left _ hx | exact List.mem_append_right _ hx)) | (with_reducible first | intro _ | refine regs_beaconFailed _ ?_ | refine regs_beaconLost _ ?_ | refine regs_beaconTaken _ _ ?_ ?_ | refine regs_upSeg _ _ _ _ ?_ ?_ ?_ | refine RegsOnly.ite ?_ ?_) | decide | split | unfold id | dsimp only

theorem regs_execVlkWake x0 x1 x2 s : RegsOnly (wakeRegs) s (after s (execVlkWake x0 x1 x2 s)) := by
  unfold execVlkWake
  try with_reducible refine RegsOnly.next ?_
  repeat' first | (with_reducible first | exact .refl | assumption) | (with_reducible intro x hx; first | exact hx | exact List.mem_cons_of_mem _ hx | (unfold clkDoms; rw [List.mem_singleton.1 hx]; exact List.mem_map.2 ⟨63, List.mem_range.2 (by decide), rfl⟩) | (simp only [calRegs, startRegs, List.mem_cons, List.not_mem_nil, or_false] at hx ⊢; tauto) | (unfold wakeRegs; first | exact List.mem_append_left _ hx | exact List.mem_append_right _ hx)) | (with_reducible first | intro _ | refine regs_noteWake _ _ ?_ | refine regs_wakeAct _ _ _ ?_ ?_ | refine RegsOnly.ite ?_ ?_) | decide | split | unfold id | dsimp only

theorem regs_execLeaseRenewalRequest s : RegsOnly ([(Reg.calAlm1, 0, 0)]) s (after s (execLeaseRenewalRequest s)) := by
  unfold execLeaseRenewalRequest
  try with_reducible refine RegsOnly.next ?_
  repeat' first | (with_reducible first | exact .refl | assumption) | (with_reducible intro x hx; first | exact hx | exact List.mem_cons_of_mem _ hx | (unfold clkDoms; rw [List.mem_singleton.1 hx]; exact List.mem_map.2 ⟨63, List.mem_range.2 (by decide), rfl⟩) | (simp only [calRegs, startRegs, List.mem_cons, List.not_mem_nil, or_false] at hx ⊢; tauto) | (unfold wakeRegs; first | exact List.mem_append_left _ hx | exact List.mem_append_right _ hx)) | (with_reducible first | intro _ | refine regs_State_modVlk _ _ ?_ | refine regs_advanceTo _ _ ?_ ?_ | refine RegsOnly.ite ?_ ?_) | decide | split | unfold id | dsimp only

theorem regs_execLeaseExpiry s : RegsOnly ([(Reg.calAlm1, 0, 0)]) s (after s (execLeaseExpiry s)) := by
  unfold execLeaseExpiry
  try with_reducible refine RegsOnly.next ?_
  repeat' first | (with_reducible first | exact .refl | assumption) | (with_reducible intro x hx; first | exact hx | exact List.mem_cons_of_mem _ hx | (unfold clkDoms; rw [List.mem_singleton.1 hx]; exact List.mem_map.2 ⟨63, List.mem_range.2 (by decide), rfl⟩) | (simp only [calRegs, startRegs, List.mem_cons, List.not_mem_nil, or_false] at hx ⊢; tauto) | (unfold wakeRegs; first | exact List.mem_append_left _ hx | exact List.mem_append_right _ hx)) | (with_reducible first | intro _ | refine regs_State_modVlk _ _ ?_ | refine regs_advanceTo _ _ ?_ ?_ | refine regs_clearLease _ ?_ | refine regs_ev _ _ _ _ _ _ ?_ | refine regs_raiseLine _ _ ?_ | refine regs_startOrphan _ ?_ | refine RegsOnly.ite ?_ ?_) | decide | split | unfold id | dsimp only

theorem regs_execQuietPeriodEnd s : RegsOnly ([(Reg.calAlm1, 0, 0)]) s (after s (execQuietPeriodEnd s)) := by
  unfold execQuietPeriodEnd
  try with_reducible refine RegsOnly.next ?_
  repeat' first | (with_reducible first | exact .refl | assumption) | (with_reducible intro x hx; first | exact hx | exact List.mem_cons_of_mem _ hx | (unfold clkDoms; rw [List.mem_singleton.1 hx]; exact List.mem_map.2 ⟨63, List.mem_range.2 (by decide), rfl⟩) | (simp only [calRegs, startRegs, List.mem_cons, List.not_mem_nil, or_false] at hx ⊢; tauto) | (unfold wakeRegs; first | exact List.mem_append_left _ hx | exact List.mem_append_right _ hx)) | (with_reducible first | intro _ | refine regs_State_modVlk _ _ ?_ | refine regs_advanceTo _ _ ?_ ?_ | refine RegsOnly.ite ?_ ?_) | decide | split | unfold id | dsimp only

theorem regs_execOrphanBackoffEnd s : RegsOnly ([(Reg.calAlm1, 0, 0)]) s (after s (execOrphanBackoffEnd s)) := by
  unfold execOrphanBackoffEnd
  try with_reducible refine RegsOnly.next ?_
  repeat' first | (with_reducible first | exact .refl | assumption) | (with_reducible intro x hx; first | exact hx | exact List.mem_cons_of_mem _ hx | (unfold clkDoms; rw [List.mem_singleton.1 hx]; exact List.mem_map.2 ⟨63, List.mem_range.2 (by decide), rfl⟩) | (simp only [calRegs, startRegs, List.mem_cons, List.not_mem_nil, or_false] at hx ⊢; tauto) | (unfold wakeRegs; first | exact List.mem_append_left _ hx | exact List.mem_append_right _ hx)) | (with_reducible first | intro _ | refine regs_State_modVlk _ _ ?_ | refine regs_advanceTo _ _ ?_ ?_ | refine regs_ev _ _ _ _ _ _ ?_ | refine regs_raiseLine _ _ ?_ | refine regs_setLease _ _ _ ?_ | refine RegsOnly.ite ?_ ?_) | decide | split | unfold id | dsimp only

theorem regs_execOrphanWindowEnd s : RegsOnly ([(Reg.calAlm1, 0, 0)]) s (after s (execOrphanWindowEnd s)) := by
  unfold execOrphanWindowEnd
  try with_reducible refine RegsOnly.next ?_
  repeat' first | (with_reducible first | exact .refl | assumption) | (with_reducible intro x hx; first | exact hx | exact List.mem_cons_of_mem _ hx | (unfold clkDoms; rw [List.mem_singleton.1 hx]; exact List.mem_map.2 ⟨63, List.mem_range.2 (by decide), rfl⟩) | (simp only [calRegs, startRegs, List.mem_cons, List.not_mem_nil, or_false] at hx ⊢; tauto) | (unfold wakeRegs; first | exact List.mem_append_left _ hx | exact List.mem_append_right _ hx)) | (with_reducible first | intro _ | refine regs_State_modVlk _ _ ?_ | refine regs_advanceTo _ _ ?_ ?_ | refine regs_clearLease _ ?_ | refine RegsOnly.ite ?_ ?_) | decide | split | unfold id | dsimp only

theorem regs_execSegmentKeyRotation s : RegsOnly ([(Reg.calAlm1, 0, 0)]) s (after s (execSegmentKeyRotation s)) := by
  unfold execSegmentKeyRotation
  try with_reducible refine RegsOnly.next ?_
  repeat' first | (with_reducible first | exact .refl | assumption) | (with_reducible intro x hx; first | exact hx | exact List.mem_cons_of_mem _ hx | (unfold clkDoms; rw [List.mem_singleton.1 hx]; exact List.mem_map.2 ⟨63, List.mem_range.2 (by decide), rfl⟩) | (simp only [calRegs, startRegs, List.mem_cons, List.not_mem_nil, or_false] at hx ⊢; tauto) | (unfold wakeRegs; first | exact List.mem_append_left _ hx | exact List.mem_append_right _ hx)) | (with_reducible first | intro _ | refine regs_State_modVlk _ _ ?_ | refine regs_advanceTo _ _ ?_ ?_ | refine RegsOnly.ite ?_ ?_) | decide | split | unfold id | dsimp only

theorem regs_execImageFanout x0 x1 s : RegsOnly ([(Reg.imgcmd, 0, 0)]) s (after s (execImageFanout x0 x1 s)) := by
  unfold execImageFanout
  try with_reducible refine RegsOnly.next ?_
  repeat' first | (with_reducible first | exact .refl | assumption) | (with_reducible intro x hx; first | exact hx | exact List.mem_cons_of_mem _ hx | (unfold clkDoms; rw [List.mem_singleton.1 hx]; exact List.mem_map.2 ⟨63, List.mem_range.2 (by decide), rfl⟩) | (simp only [calRegs, startRegs, List.mem_cons, List.not_mem_nil, or_false] at hx ⊢; tauto) | (unfold wakeRegs; first | exact List.mem_append_left _ hx | exact List.mem_append_right _ hx)) | (with_reducible first | intro _ | refine regs_access _ _ _ _ _ ?_ ?_ | refine regs_writeImgcmd _ _ ?_ ?_ | refine RegsOnly.ite ?_ ?_) | decide | split | unfold id | dsimp only

theorem regs_execLinkOpen s : RegsOnly ([(Reg.calAlm1, 0, 0)]) s (after s (execLinkOpen s)) := by
  unfold execLinkOpen
  try with_reducible refine RegsOnly.next ?_
  repeat' first | (with_reducible first | exact .refl | assumption) | (with_reducible intro x hx; first | exact hx | exact List.mem_cons_of_mem _ hx | (unfold clkDoms; rw [List.mem_singleton.1 hx]; exact List.mem_map.2 ⟨63, List.mem_range.2 (by decide), rfl⟩) | (simp only [calRegs, startRegs, List.mem_cons, List.not_mem_nil, or_false] at hx ⊢; tauto) | (unfold wakeRegs; first | exact List.mem_append_left _ hx | exact List.mem_append_right _ hx)) | (with_reducible first | intro _ | refine regs_State_modVlk _ _ ?_ | refine regs_advanceTo _ _ ?_ ?_ | refine regs_ev _ _ _ _ _ _ ?_ | refine regs_raiseLine _ _ ?_ | refine regs_toHoldover _ ?_ | refine RegsOnly.ite ?_ ?_) | decide | split | unfold id | dsimp only

theorem regs_execLinkRetry x0 s : RegsOnly ([(Reg.calAlm1, 0, 0)]) s (after s (execLinkRetry x0 s)) := by
  unfold execLinkRetry
  try with_reducible refine RegsOnly.next ?_
  repeat' first | (with_reducible first | exact .refl | assumption) | (with_reducible intro x hx; first | exact hx | exact List.mem_cons_of_mem _ hx | (unfold clkDoms; rw [List.mem_singleton.1 hx]; exact List.mem_map.2 ⟨63, List.mem_range.2 (by decide), rfl⟩) | (simp only [calRegs, startRegs, List.mem_cons, List.not_mem_nil, or_false] at hx ⊢; tauto) | (unfold wakeRegs; first | exact List.mem_append_left _ hx | exact List.mem_append_right _ hx)) | (with_reducible first | intro _ | refine regs_State_modVlk _ _ ?_ | refine regs_advanceTo _ _ ?_ ?_ | refine RegsOnly.ite ?_ ?_) | decide | split | unfold id | dsimp only

theorem regs_execSegmentGrantExpiry x0 s : RegsOnly ([(Reg.calAlm1, 0, 0)]) s (after s (execSegmentGrantExpiry x0 s)) := by
  unfold execSegmentGrantExpiry
  try with_reducible refine RegsOnly.next ?_
  repeat' first | (with_reducible first | exact .refl | assumption) | (with_reducible intro x hx; first | exact hx | exact List.mem_cons_of_mem _ hx | (unfold clkDoms; rw [List.mem_singleton.1 hx]; exact List.mem_map.2 ⟨63, List.mem_range.2 (by decide), rfl⟩) | (simp only [calRegs, startRegs, List.mem_cons, List.not_mem_nil, or_false] at hx ⊢; tauto) | (unfold wakeRegs; first | exact List.mem_append_left _ hx | exact List.mem_append_right _ hx)) | (with_reducible first | intro _ | refine regs_advanceTo _ _ ?_ ?_ | refine regs_modSlot _ _ _ ?_ | refine regs_removeSlot _ _ ?_ | refine RegsOnly.foldl (fun _ _ _ => ?_) ?_ | refine RegsOnly.ite ?_ ?_) | decide | split | unfold id | dsimp only

theorem regs_execFleetAuthorizationExpiry s : RegsOnly ([(Reg.calAlm1, 0, 0)]) s (after s (execFleetAuthorizationExpiry s)) := by
  unfold execFleetAuthorizationExpiry
  try with_reducible refine RegsOnly.next ?_
  repeat' first | (with_reducible first | exact .refl | assumption) | (with_reducible intro x hx; first | exact hx | exact List.mem_cons_of_mem _ hx | (unfold clkDoms; rw [List.mem_singleton.1 hx]; exact List.mem_map.2 ⟨63, List.mem_range.2 (by decide), rfl⟩) | (simp only [calRegs, startRegs, List.mem_cons, List.not_mem_nil, or_false] at hx ⊢; tauto) | (unfold wakeRegs; first | exact List.mem_append_left _ hx | exact List.mem_append_right _ hx)) | (with_reducible first | intro _ | refine regs_elapse _ _ ?_ ?_ | refine regs_unenrol _ ?_ | refine RegsOnly.ite ?_ ?_) | decide | split | unfold id | dsimp only

end Sys2Proof.Machine
end

