-- ==== Sys2Proof/Laws/Svn.lean ====
section
/-!
SUPPORT. No operation but the SVN_COMMIT request changes the SVN fuse count.
-/

set_option linter.all false

set_option Elab.async false

namespace Sys2Proof.Machine

variable {q : Nat}

theorem svn_same {c d : Sec} (e : d.svn = c.svn) (h : c.svnIs q) : d.svnIs q := e.trans h

/-- The mask does not hold the part. -/
@[reducible] def noSvnIs (m : Nat) : Bool := Nat.beq (Nat.land m 0x80000000) 0

theorem SvnIs.via {m : Nat} {s t : State} (k : FrameB m s t) (e : noSvnIs m = true) (h : SvnIs q s) : SvnIs q t := by
  have h1 : t.sec = s.sec := by
    refine k .sec ?_
    have h : m &&& 0x80000000 = 0 := Nat.eq_of_beq_eq_true e
    have h' := congrArg (fun x => x.testBit 31) h
    have h2 : Nat.testBit 0x80000000 31 = true := by decide
    rw [Nat.testBit_and, h2, Nat.zero_testBit, Bool.and_true] at h'
    exact h'
  unfold SvnIs

  rw [h1]
  exact h

theorem SvnIs.of_eq {s t : State} (h : t = s) (k : SvnIs q t) : SvnIs q s := h ▸ k

theorem SvnIs.ite {t u : State} {c : Prop} {d : Decidable c} (h : SvnIs q t) (k : SvnIs q u) :
    SvnIs q (if c then t else u) := by split <;> assumption

theorem SvnIs.foldl {α : Type} {f : State → α → State} (k : ∀ u x, SvnIs q u → SvnIs q (f u x)) {xs : List α}
    {s : State} (h : SvnIs q s) : SvnIs q (xs.foldl f s) := by
  induction xs generalizing s with
  | nil => exact h
  | cons x xs ih => exact ih (k _ _ h)

theorem SvnIs.next {s t : State} (h : SvnIs q t) : SvnIs q (after s (.next t)) := h

theorem SvnIs.set_sec {s : State} {v : Sec} (h : SvnIs q s) (e : Sec.svnIs q s.sec → Sec.svnIs q v) : SvnIs q { s with sec := v } :=
  e h

theorem SvnIs.set_hce {s : State} {v0} (h : SvnIs q s) : SvnIs q { s with hce := v0 } := h

theorem SvnIs.set_lgr {s : State} {v0} (h : SvnIs q s) : SvnIs q { s with lgr := v0 } := h

theorem SvnIs.set_rvr {s : State} {v0} (h : SvnIs q s) : SvnIs q { s with rvr := v0 } := h

theorem SvnIs.set_cst {s : State} {v0} (h : SvnIs q s) : SvnIs q { s with cst := v0 } := h

theorem SvnIs.set_sve {s : State} {v0} (h : SvnIs q s) : SvnIs q { s with sve := v0 } := h

theorem SvnIs.set_psi {s : State} {v0} (h : SvnIs q s) : SvnIs q { s with psi := v0 } := h

theorem SvnIs.set_lsr {s : State} {v0} (h : SvnIs q s) : SvnIs q { s with lsr := v0 } := h

theorem SvnIs.set_dmc {s : State} {v0} (h : SvnIs q s) : SvnIs q { s with dmc := v0 } := h

theorem SvnIs.set_bcc {s : State} {v0} (h : SvnIs q s) : SvnIs q { s with bcc := v0 } := h

theorem SvnIs.set_trm {s : State} {v0} (h : SvnIs q s) : SvnIs q { s with trm := v0 } := h

theorem SvnIs.set_lif {s : State} {v0} (h : SvnIs q s) : SvnIs q { s with lif := v0 } := h

theorem SvnIs.set_cal {s : State} {v0} (h : SvnIs q s) : SvnIs q { s with cal := v0 } := h

theorem SvnIs.set_opt {s : State} {v0} (h : SvnIs q s) : SvnIs q { s with opt := v0 } := h

theorem SvnIs.set_busErr {s : State} {v0} (h : SvnIs q s) : SvnIs q { s with busErr := v0 } := h

theorem SvnIs.set_busData {s : State} {v0} (h : SvnIs q s) : SvnIs q { s with busData := v0 } := h

theorem SvnIs.set_clk {s : State} {v0} (h : SvnIs q s) : SvnIs q { s with clk := v0 } := h

theorem SvnIs.set_sup {s : State} {v0} (h : SvnIs q s) : SvnIs q { s with sup := v0 } := h

theorem svn_blockError x0 x1 x2 x3 s (h : SvnIs q s) : SvnIs q (blockError x0 x1 x2 x3 s) :=
  .via (frame_blockError _ _ _ _ _ (m := 0x1800000100) .refl rfl) rfl h

theorem svn_busFails s (h : SvnIs q s) : SvnIs q (busFails s) :=
  .via (frame_busFails _ (m := 0xC) .refl rfl) rfl h

theorem svn_busZero s (h : SvnIs q s) : SvnIs q (busZero s) :=
  .via (frame_busZero _ (m := 0xC) .refl rfl) rfl h

theorem svn_domMem x0 x1 x2 x3 x4 x5 s (h : SvnIs q s) : SvnIs q (domMem x0 x1 x2 x3 x4 x5 s) :=
  .via (frame_domMem _ _ _ _ _ _ _ (m := 0x18600031AC) .refl rfl) rfl h

theorem svn_ev x0 x1 x2 x3 x4 s (h : SvnIs q s) : SvnIs q (ev x0 x1 x2 x3 x4 s) :=
  .via (frame_ev _ _ _ _ _ _ (m := 0x1800000100) .refl rfl) rfl h

theorem svn_busGives x0 s (h : SvnIs q s) : SvnIs q (busGives x0 s) :=
  .via (frame_busGives _ _ (m := 0xC) .refl rfl) rfl h

theorem svn_guardWrite x0 x1 x2 s (h : SvnIs q s) : SvnIs q (guardWrite x0 x1 x2 s) :=
  .via (frame_guardWrite _ _ _ _ (m := 0x1800000100) .refl rfl) rfl h

theorem svn_State_modHdr x0 x1 s (h : SvnIs q s) : SvnIs q (State.modHdr x0 x1 s) :=
  .via (frame_State_modHdr _ _ _ (m := 0x100) .refl rfl) rfl h

theorem svn_bccClearEn s (h : SvnIs q s) : SvnIs q (bccClearEn s) :=
  .via (frame_bccClearEn _ (m := 0x1840000100) .refl rfl) rfl h

theorem svn_bccSetEn s (h : SvnIs q s) : SvnIs q (bccSetEn s) :=
  .via (frame_bccSetEn _ (m := 0x1840000100) .refl rfl) rfl h

theorem svn_freezeWrite x0 x1 x2 s (h : SvnIs q s) : SvnIs q (freezeWrite x0 x1 x2 s) :=
  .via (frame_freezeWrite _ _ _ _ (m := 0x1800006100) .refl rfl) rfl h

theorem svn_State_modCtrl x0 x1 s (h : SvnIs q s) : SvnIs q (State.modCtrl x0 x1 s) :=
  .via (frame_State_modCtrl _ _ _ (m := 0x8000) .refl rfl) rfl h

theorem svn_State_modSec x0 s (h : SvnIs q s) (e : ∀ y, Sec.svnIs q y → Sec.svnIs q (x0 y)) : SvnIs q (State.modSec x0 s) := e _ h

theorem svn_State_modXmt x0 s (h : SvnIs q s) : SvnIs q (State.modXmt x0 s) :=
  .via (frame_State_modXmt _ _ (m := 0x20000) .refl rfl) rfl h

theorem svn_commitGrantEnd s (h : SvnIs q s) : SvnIs q (commitGrantEnd s) :=
  .via (frame_commitGrantEnd _ (m := 0x4000) .refl rfl) rfl h

theorem svn_dropLinks s (h : SvnIs q s) : SvnIs q (dropLinks s) :=
  .via (frame_dropLinks _ (m := 0x4000000000) .refl rfl) rfl h

theorem svn_lasersOff s (h : SvnIs q s) : SvnIs q (lasersOff s) :=
  .via (frame_lasersOff _ (m := 0xC200000) .refl rfl) rfl h

theorem svn_powerLit s (h : SvnIs q s) : SvnIs q (powerLit s) :=
  .via (frame_powerLit _ (m := 0x1800006900) .refl rfl) rfl h

theorem svn_resetRegs x0 x1 s (h : SvnIs q s) : SvnIs q (resetRegs x0 x1 s) :=
  .via (frame_resetRegs _ _ _ (m := 0x10) .refl rfl) rfl h

theorem svn_resetXmt s (h : SvnIs q s) : SvnIs q (resetXmt s) :=
  .via (frame_resetXmt _ (m := 0x10) .refl rfl) rfl h

theorem svn_srstAsq x0 s (h : SvnIs q s) : SvnIs q (srstAsq x0 s) :=
  .via (frame_srstAsq _ _ (m := 0x1A6DB2F1A0) .refl rfl) rfl h

theorem svn_srstEvr s (h : SvnIs q s) : SvnIs q (srstEvr s) :=
  .via (frame_srstEvr _ (m := 0x800000010) .refl rfl) rfl h

theorem svn_srstLdp s (h : SvnIs q s) : SvnIs q (srstLdp s) :=
  .via (frame_srstLdp _ (m := 0x400000) .refl rfl) rfl h

theorem svn_srstLlt s (h : SvnIs q s) : SvnIs q (srstLlt s) :=
  .via (frame_srstLlt _ (m := 0x1A0C306190) .refl rfl) rfl h

theorem svn_srstOpt s (h : SvnIs q s) : SvnIs q (srstOpt s) :=
  .via (frame_srstOpt _ (m := 0x7A1DB2AB92) .refl rfl) rfl h

theorem svn_srstRwc x0 s (h : SvnIs q s) : SvnIs q (srstRwc x0 s) :=
  .via (frame_srstRwc _ _ (m := 0x1A0CB22190) .refl rfl) rfl h

theorem svn_srstSpin s (h : SvnIs q s) : SvnIs q (srstSpin s) :=
  .via (frame_srstSpin _ (m := 0x2000000) .refl rfl) rfl h

theorem svn_srstSve x0 s (h : SvnIs q s) : SvnIs q (srstSve x0 s) :=
  .via (frame_srstSve _ _ (m := 0x7A1DB2AB92) .refl rfl) rfl h

theorem svn_srstVlk s (h : SvnIs q s) : SvnIs q (srstVlk s) :=
  .via (frame_srstVlk _ (m := 0x4000000010) .refl rfl) rfl h

theorem svn_tpeDiscard s (h : SvnIs q s) : SvnIs q (tpeDiscard s) :=
  .via (frame_tpeDiscard _ (m := 0x800000) .refl rfl) rfl h

theorem svn_trainLink x0 s (h : SvnIs q s) : SvnIs q (trainLink x0 s) :=
  .via (frame_trainLink _ _ (m := 0xA000) .refl rfl) rfl h

theorem svn_zeroKst s (h : SvnIs q s) : SvnIs q (zeroKst s) := by
  unfold zeroKst
  repeat' first | (with_reducible first | assumption | intro _ | refine svn_State_modSec _ _ ?_ ?_ | refine SvnIs.ite ?_ ?_) | ((with_reducible refine (?_ : Sec.svnIs _ _)); exact svn_same rfl (by assumption)) | decide | split | unfold id | dsimp only

theorem svn_srstBlock x0 x1 s (h : SvnIs q s) : SvnIs q (srstBlock x0 x1 s) := by
  unfold srstBlock
  try dsimp only
  split
  all_goals repeat' first | (with_reducible first | assumption | intro _ | refine svn_State_modCtrl _ _ _ ?_ | refine svn_State_modSec _ _ ?_ ?_ | refine svn_State_modXmt _ _ ?_ | refine svn_commitGrantEnd _ ?_ | refine svn_dropLinks _ ?_ | refine svn_lasersOff _ ?_ | refine svn_powerLit _ ?_ | refine svn_resetRegs _ _ _ ?_ | refine svn_resetXmt _ ?_ | refine svn_srstAsq _ _ ?_ | refine svn_srstEvr _ ?_ | refine svn_srstLdp _ ?_ | refine svn_srstLlt _ ?_ | refine svn_srstOpt _ ?_ | refine svn_srstRwc _ _ ?_ | refine svn_srstSpin _ ?_ | refine svn_srstSve _ _ ?_ | refine svn_srstVlk _ ?_ | refine svn_tpeDiscard _ ?_ | refine svn_trainLink _ _ ?_ | refine svn_zeroKst _ ?_ | refine SvnIs.ite ?_ ?_) | ((with_reducible refine (?_ : Sec.svnIs _ _)); exact svn_same rfl (by assumption)) | fail_if_no_progress (with_reducible refine SvnIs.set_hce ?_) | fail_if_no_progress (with_reducible refine SvnIs.set_lgr ?_) | fail_if_no_progress (with_reducible refine SvnIs.set_rvr ?_) | fail_if_no_progress (with_reducible refine SvnIs.set_cst ?_) | fail_if_no_progress (with_reducible refine SvnIs.set_sve ?_) | fail_if_no_progress (with_reducible refine SvnIs.set_psi ?_) | fail_if_no_progress (with_reducible refine SvnIs.set_lsr ?_) | fail_if_no_progress (with_reducible refine SvnIs.set_dmc ?_) | fail_if_no_progress (with_reducible refine SvnIs.set_bcc ?_) | fail_if_no_progress (with_reducible refine SvnIs.set_trm ?_) | fail_if_no_progress (with_reducible refine SvnIs.set_lif ?_) | fail_if_no_progress (with_reducible refine SvnIs.set_cal ?_) | decide | split | unfold id | dsimp only

theorem svn_softReset x0 x1 x2 s (h : SvnIs q s) : SvnIs q (softReset x0 x1 x2 s) := by
  unfold softReset
  repeat' first | (with_reducible first | assumption | intro _ | refine svn_State_modHdr _ _ _ ?_ | refine svn_blockError _ _ _ _ _ ?_ | refine svn_srstBlock _ _ _ ?_ | refine SvnIs.ite ?_ ?_) | decide | split | unfold id | dsimp only

theorem svn_ctlWrite x0 x1 x2 x3 s (h : SvnIs q s) : SvnIs q (ctlWrite x0 x1 x2 x3 s) := by
  unfold ctlWrite
  repeat' first | (with_reducible first | assumption | intro _ | refine svn_State_modHdr _ _ _ ?_ | refine svn_bccClearEn _ ?_ | refine svn_bccSetEn _ ?_ | refine svn_freezeWrite _ _ _ _ ?_ | refine svn_softReset _ _ _ _ ?_ | refine SvnIs.ite ?_ ?_) | decide | split | unfold id | dsimp only

theorem svn_errClear x0 x1 s (h : SvnIs q s) : SvnIs q (errClear x0 x1 s) :=
  .via (frame_errClear _ _ _ (m := 0x100) .refl rfl) rfl h

theorem svn_irqSet x0 x1 x2 s (h : SvnIs q s) : SvnIs q (irqSet x0 x1 x2 s) :=
  .via (frame_irqSet _ _ _ _ (m := 0x100) .refl rfl) rfl h

theorem svn_routeWrite x0 x1 x2 s (h : SvnIs q s) : SvnIs q (routeWrite x0 x1 x2 s) :=
  .via (frame_routeWrite _ _ _ _ (m := 0x1800000110) .refl rfl) rfl h

theorem svn_headerWrite x0 x1 x2 x3 x4 s (h : SvnIs q s) : SvnIs q (headerWrite x0 x1 x2 x3 x4 s) := by
  unfold headerWrite
  repeat' first | (with_reducible first | assumption | intro _ | refine svn_State_modHdr _ _ _ ?_ | refine svn_ctlWrite _ _ _ _ _ ?_ | refine svn_errClear _ _ _ ?_ | refine svn_irqSet _ _ _ _ ?_ | refine svn_routeWrite _ _ _ _ ?_ | refine SvnIs.ite ?_ ?_) | ((with_reducible refine (?_ : Sec.svnIs _ _)); exact svn_same rfl (by assumption)) | decide | split | unfold id | dsimp only

theorem svn_readRegAt x0 x1 x2 s (h : SvnIs q s) : SvnIs q (readRegAt x0 x1 x2 s) :=
  .via (frame_readRegAt _ _ _ _ (m := 0x780100015C) .refl rfl) rfl h

theorem svn_useWindow x0 x1 s (h : SvnIs q s) : SvnIs q (useWindow x0 x1 s) :=
  .via (frame_useWindow _ _ _ (m := 0x100) .refl rfl) rfl h

theorem svn_evrCommit s (h : SvnIs q s) : SvnIs q (evrCommit s) :=
  .via (frame_evrCommit _ (m := 0x5800000180) .refl rfl) rfl h

theorem svn_evrStore s (h : SvnIs q s) : SvnIs q (evrStore s) :=
  .via (frame_evrStore _ (m := 0x1800000100) .refl rfl) rfl h

theorem svn_lifSeal s (h : SvnIs q s) : SvnIs q (lifSeal s) :=
  .via (frame_lifSeal _ (m := 0x1000000000) .refl rfl) rfl h

theorem svn_lifSnap s (h : SvnIs q s) : SvnIs q (lifSnap s) :=
  .via (frame_lifSnap _ (m := 0x1000000000) .refl rfl) rfl h

theorem svn_storeFields x0 x1 x2 x3 s (h : SvnIs q s) : SvnIs q (storeFields x0 x1 x2 x3 s) :=
  .via (frame_storeFields _ _ _ _ _ (m := 0x1800000110) .refl rfl) rfl h

theorem svn_swset x0 s (h : SvnIs q s) : SvnIs q (swset x0 s) :=
  .via (frame_swset _ _ (m := 0x2000) .refl rfl) rfl h

theorem svn_twinAccess x0 x1 x2 s (h : SvnIs q s) : SvnIs q (twinAccess x0 x1 x2 s) :=
  .via (frame_twinAccess _ _ _ _ (m := 0x1800000154) .refl rfl) rfl h

theorem svn_walkQueue s (h : SvnIs q s) : SvnIs q (walkQueue s) :=
  .via (frame_walkQueue _ (m := 0x6000) .refl rfl) rfl h

theorem svn_writeAddgo x0 s (h : SvnIs q s) : SvnIs q (writeAddgo x0 s) :=
  .via (frame_writeAddgo _ _ (m := 0x1800000100) .refl rfl) rfl h

theorem svn_writeBase x0 x1 s (h : SvnIs q s) : SvnIs q (writeBase x0 x1 s) :=
  .via (frame_writeBase _ _ _ (m := 0x1800000180) .refl rfl) rfl h

theorem svn_writeCalAdj x0 s (h : SvnIs q s) : SvnIs q (writeCalAdj x0 s) :=
  .via (frame_writeCalAdj _ _ (m := 0x3800000110) .refl rfl) rfl h

theorem svn_writeCalCmd x0 s (h : SvnIs q s) : SvnIs q (writeCalCmd x0 s) :=
  .via (frame_writeCalCmd _ _ (m := 0x3800000910) .refl rfl) rfl h

theorem svn_writeClkDom x0 x1 s (h : SvnIs q s) : SvnIs q (writeClkDom x0 x1 s) :=
  .via (frame_writeClkDom _ _ _ (m := 0x1800000110) .refl rfl) rfl h

theorem svn_writeCur x0 x1 s (h : SvnIs q s) : SvnIs q (writeCur x0 x1 s) :=
  .via (frame_writeCur _ _ _ (m := 0x800000000) .refl rfl) rfl h

theorem svn_writeOp x0 x1 s (h : SvnIs q s) : SvnIs q (writeOp x0 x1 s) :=
  .via (frame_writeOp _ _ _ (m := 0x6000) .refl rfl) rfl h

theorem svn_writePdoff x0 s (h : SvnIs q s) : SvnIs q (writePdoff x0 s) :=
  .via (frame_writePdoff _ _ (m := 0x180003E990) .refl rfl) rfl h

theorem svn_writePfcfg x0 s (h : SvnIs q s) : SvnIs q (writePfcfg x0 s) :=
  .via (frame_writePfcfg _ _ (m := 0x1800000110) .refl rfl) rfl h

theorem svn_writePllen x0 s (h : SvnIs q s) : SvnIs q (writePllen x0 s) :=
  .via (frame_writePllen _ _ (m := 0x1A1FB2A590) .refl rfl) rfl h

theorem svn_writePreq x0 s (h : SvnIs q s) : SvnIs q (writePreq x0 s) :=
  .via (frame_writePreq _ _ (m := 0x186000B9BC) .refl rfl) rfl h

theorem svn_writeProfile x0 s (h : SvnIs q s) : SvnIs q (writeProfile x0 s) :=
  .via (frame_writeProfile _ _ (m := 0x1800000300) .refl rfl) rfl h

theorem svn_writeRdyctl x0 s (h : SvnIs q s) : SvnIs q (writeRdyctl x0 s) :=
  .via (frame_writeRdyctl _ _ (m := 0x1800008300) .refl rfl) rfl h

theorem svn_State_modVlk x0 s (h : SvnIs q s) : SvnIs q (State.modVlk x0 s) :=
  .via (frame_State_modVlk _ _ (m := 0x4000000000) .refl rfl) rfl h

theorem svn_pmonClr x0 s (h : SvnIs q s) : SvnIs q (pmonClr x0 s) :=
  .via (frame_pmonClr _ _ (m := 0x4011600000) .refl rfl) rfl h

theorem svn_pmonSnap x0 s (h : SvnIs q s) : SvnIs q (pmonSnap x0 s) :=
  .via (frame_pmonSnap _ _ (m := 0x4011600000) .refl rfl) rfl h

theorem svn_retarget x0 s (h : SvnIs q s) : SvnIs q (retarget x0 s) :=
  .via (frame_retarget _ _ (m := 0x1A00000100) .refl rfl) rfl h

theorem svn_writeImgcmd x0 s (h : SvnIs q s) : SvnIs q (writeImgcmd x0 s) :=
  .via (frame_writeImgcmd _ _ (m := 0x5800000190) .refl rfl) rfl h

theorem svn_writeOrphan x0 s (h : SvnIs q s) : SvnIs q (writeOrphan x0 s) :=
  .via (frame_writeOrphan _ _ (m := 0x5800000190) .refl rfl) rfl h

theorem svn_dmcInitGo s (h : SvnIs q s) : SvnIs q (dmcInitGo s) :=
  .via (frame_dmcInitGo _ (m := 0x1820000100) .refl rfl) rfl h

theorem svn_pprGo x0 s (h : SvnIs q s) : SvnIs q (pprGo x0 s) :=
  .via (frame_pprGo _ _ (m := 0x1820002110) .refl rfl) rfl h

theorem svn_rowClear x0 s (h : SvnIs q s) : SvnIs q (rowClear x0 s) :=
  .via (frame_rowClear _ _ (m := 0x20000000) .refl rfl) rfl h

theorem svn_splitGo x0 s (h : SvnIs q s) : SvnIs q (splitGo x0 s) :=
  .via (frame_splitGo _ _ (m := 0x1860002130) .refl rfl) rfl h

theorem svn_State_modHce x0 s (h : SvnIs q s) : SvnIs q (State.modHce x0 s) :=
  .via (frame_State_modHce _ _ (m := 0x8000) .refl rfl) rfl h

theorem svn_dropWrite x0 s (h : SvnIs q s) : SvnIs q (dropWrite x0 s) :=
  .via (frame_dropWrite _ _ (m := 0x38080) .refl rfl) rfl h

theorem svn_finish x0 x1 s (h : SvnIs q s) : SvnIs q (finish x0 x1 s) :=
  .via (frame_finish _ _ _ (m := 0x18080) .refl rfl) rfl h

theorem svn_modCmd x0 x1 s (h : SvnIs q s) : SvnIs q (modCmd x0 x1 s) :=
  .via (frame_modCmd _ _ _ (m := 0x8000) .refl rfl) rfl h

theorem svn_State_modAsq x0 x1 s (h : SvnIs q s) : SvnIs q (State.modAsq x0 x1 s) :=
  .via (frame_State_modAsq _ _ _ (m := 0x100000) .refl rfl) rfl h

theorem svn_asqAbortReq x0 s (h : SvnIs q s) : SvnIs q (asqAbortReq x0 s) :=
  .via (frame_asqAbortReq _ _ (m := 0x1A0C302180) .refl rfl) rfl h

theorem svn_cancelPending x0 s (h : SvnIs q s) : SvnIs q (cancelPending x0 s) :=
  .via (frame_cancelPending _ _ (m := 0x10A000) .refl rfl) rfl h

theorem svn_askLeave x0 s (h : SvnIs q s) : SvnIs q (askLeave x0 s) :=
  .via (frame_askLeave _ _ (m := 0x1800106100) .refl rfl) rfl h

theorem svn_asqLine x0 x1 s (h : SvnIs q s) : SvnIs q (asqLine x0 x1 s) :=
  .via (frame_asqLine _ _ _ (m := 0x2000) .refl rfl) rfl h

theorem svn_buildSkip x0 x1 x2 s (h : SvnIs q s) : SvnIs q (buildSkip x0 x1 x2 s) :=
  .via (frame_buildSkip _ _ _ _ (m := 0x18608031A0) .refl rfl) rfl h

theorem svn_loadLane x0 s (h : SvnIs q s) : SvnIs q (loadLane x0 s) := by
  unfold loadLane
  repeat' first | (with_reducible first | assumption | intro _ | refine svn_State_modSec _ _ ?_ ?_ | refine SvnIs.ite ?_ ?_) | ((with_reducible refine (?_ : Sec.svnIs _ _)); exact svn_same rfl (by assumption)) | decide | split | unfold id | dsimp only

theorem svn_taskEnd x0 x1 x2 x3 s (h : SvnIs q s) : SvnIs q (taskEnd x0 x1 x2 x3 s) :=
  .via (frame_taskEnd _ _ _ _ _ (m := 0x1A6D30F1A0) .refl rfl) rfl h

theorem svn_zoneCopy x0 s (h : SvnIs q s) : SvnIs q (zoneCopy x0 s) :=
  .via (frame_zoneCopy _ _ (m := 0x18602031A0) .refl rfl) rfl h

theorem svn_promote x0 s (h : SvnIs q s) : SvnIs q (promote x0 s) := by
  unfold promote
  repeat' first | (with_reducible first | assumption | intro _ | refine svn_State_modAsq _ _ _ ?_ | refine svn_askLeave _ _ ?_ | refine svn_asqLine _ _ _ ?_ | refine svn_buildSkip _ _ _ _ ?_ | refine svn_loadLane _ _ ?_ | refine svn_taskEnd _ _ _ _ _ ?_ | refine svn_zoneCopy _ _ ?_ | refine SvnIs.ite ?_ ?_) | ((with_reducible refine (?_ : Sec.svnIs _ _)); exact svn_same rfl (by assumption)) | decide | split | unfold id | dsimp only

theorem svn_abortTag x0 x1 s (h : SvnIs q s) : SvnIs q (abortTag x0 x1 s) := by
  unfold abortTag
  repeat' first | (with_reducible first | assumption | intro _ | refine svn_State_modAsq _ _ _ ?_ | refine svn_asqAbortReq _ _ ?_ | refine svn_cancelPending _ _ ?_ | refine svn_promote _ _ ?_ | refine SvnIs.ite ?_ ?_) | decide | split | unfold id | dsimp only

theorem svn_stopTasks x0 s (h : SvnIs q s) : SvnIs q (stopTasks x0 s) := by
  unfold stopTasks
  repeat' first | (with_reducible first | assumption | intro _ | refine svn_abortTag _ _ _ ?_ | refine SvnIs.foldl (fun _ _ _ => ?_) ?_ | refine SvnIs.ite ?_ ?_) | decide | split | unfold id | dsimp only

theorem svn_stopCmd x0 s (h : SvnIs q s) : SvnIs q (stopCmd x0 s) := by
  unfold stopCmd
  repeat' first | (with_reducible first | assumption | intro _ | refine svn_dropWrite _ _ ?_ | refine svn_finish _ _ _ ?_ | refine svn_modCmd _ _ _ ?_ | refine svn_stopTasks _ _ ?_ | refine SvnIs.ite ?_ ?_) | decide | split | unfold id | dsimp only

theorem svn_matchCmd x0 x1 x2 s (h : SvnIs q s) : SvnIs q (matchCmd x0 x1 x2 s) := by
  unfold matchCmd
  repeat' first | (with_reducible first | assumption | intro _ | refine svn_State_modHce _ _ ?_ | refine svn_ev _ _ _ _ _ _ ?_ | refine svn_stopCmd _ _ ?_ | refine SvnIs.ite ?_ ?_) | decide | split | unfold id | dsimp only

theorem svn_writeAbortReq x0 s (h : SvnIs q s) : SvnIs q (writeAbortReq x0 s) := by
  unfold writeAbortReq
  repeat' first | (with_reducible first | assumption | intro _ | refine svn_matchCmd _ _ _ _ ?_ | refine svn_storeFields _ _ _ _ _ ?_ | refine SvnIs.ite ?_ ?_) | decide | split | unfold id | dsimp only

theorem svn_writeDmcCfg x0 s (h : SvnIs q s) : SvnIs q (writeDmcCfg x0 s) :=
  .via (frame_writeDmcCfg _ _ (m := 0x1800000110) .refl rfl) rfl h

theorem svn_writeLgrWin x0 s (h : SvnIs q s) : SvnIs q (writeLgrWin x0 s) :=
  .via (frame_writeLgrWin _ _ (m := 0x1800010190) .refl rfl) rfl h

theorem svn_writeNsdom x0 x1 s (h : SvnIs q s) : SvnIs q (writeNsdom x0 x1 s) :=
  .via (frame_writeNsdom _ _ _ (m := 0x1800000110) .refl rfl) rfl h

theorem svn_writeOpcmd x0 s (h : SvnIs q s) : SvnIs q (writeOpcmd x0 s) :=
  .via (frame_writeOpcmd _ _ (m := 0x1840002110) .refl rfl) rfl h

theorem svn_writeOpenctl x0 x1 s (h : SvnIs q s) : SvnIs q (writeOpenctl x0 x1 s) :=
  .via (frame_writeOpenctl _ _ _ (m := 0x1800080100) .refl rfl) rfl h

theorem svn_State_modLdp x0 s (h : SvnIs q s) : SvnIs q (State.modLdp x0 s) :=
  .via (frame_State_modLdp _ _ (m := 0x400000) .refl rfl) rfl h

theorem svn_State_modRwc x0 x1 s (h : SvnIs q s) : SvnIs q (State.modRwc x0 x1 s) :=
  .via (frame_State_modRwc _ _ _ (m := 0x200000) .refl rfl) rfl h

theorem svn_headretSet x0 x1 s (h : SvnIs q s) : SvnIs q (headretSet x0 x1 s) :=
  .via (frame_headretSet _ _ _ (m := 0x100000) .refl rfl) rfl h

theorem svn_ldpRun s (h : SvnIs q s) : SvnIs q (ldpRun s) :=
  .via (frame_ldpRun _ (m := 0x502000) .refl rfl) rfl h

theorem svn_writeAbort x0 x1 s (h : SvnIs q s) : SvnIs q (writeAbort x0 x1 s) := by
  unfold writeAbort
  repeat' first | (with_reducible first | assumption | intro _ | refine svn_abortTag _ _ _ ?_ | refine SvnIs.ite ?_ ?_) | decide | split | unfold id | dsimp only

theorem svn_writeCstAct x0 x1 s (h : SvnIs q s) : SvnIs q (writeCstAct x0 x1 s) :=
  .via (frame_writeCstAct _ _ _ (m := 0x1800182100) .refl rfl) rfl h

theorem svn_writeDlop x0 s (h : SvnIs q s) : SvnIs q (writeDlop x0 s) :=
  .via (frame_writeDlop _ _ (m := 0x186080B1A0) .refl rfl) rfl h

theorem svn_writeFfpop x0 x1 s (h : SvnIs q s) : SvnIs q (writeFfpop x0 x1 s) :=
  .via (frame_writeFfpop _ _ _ (m := 0x400000) .refl rfl) rfl h

theorem svn_asqCancel x0 s (h : SvnIs q s) : SvnIs q (asqCancel x0 s) := by
  unfold asqCancel
  repeat' first | (with_reducible first | assumption | intro _ | refine svn_State_modAsq _ _ _ ?_ | refine svn_cancelPending _ _ ?_ | refine svn_promote _ _ ?_ | refine SvnIs.ite ?_ ?_) | decide | split | unfold id | dsimp only

theorem svn_asqCommit x0 s (h : SvnIs q s) : SvnIs q (asqCommit x0 s) :=
  .via (frame_asqCommit _ _ (m := 0x1800100100) .refl rfl) rfl h

theorem svn_writePcmd x0 x1 s (h : SvnIs q s) : SvnIs q (writePcmd x0 x1 s) := by
  unfold writePcmd
  repeat' first | (with_reducible first | assumption | intro _ | refine svn_asqCancel _ _ ?_ | refine svn_asqCommit _ _ ?_ | refine SvnIs.ite ?_ ?_) | decide | split | unfold id | dsimp only

theorem svn_writePtask x0 x1 x2 s (h : SvnIs q s) : SvnIs q (writePtask x0 x1 x2 s) :=
  .via (frame_writePtask _ _ _ _ (m := 0x100000) .refl rfl) rfl h

theorem svn_State_modSve x0 x1 s (h : SvnIs q s) : SvnIs q (State.modSve x0 x1 s) :=
  .via (frame_State_modSve _ _ _ (m := 0x1000000) .refl rfl) rfl h

theorem svn_mailCommit x0 s (h : SvnIs q s) : SvnIs q (mailCommit x0 s) :=
  .via (frame_mailCommit _ _ (m := 0x1000000) .refl rfl) rfl h

theorem svn_swapGo x0 s (h : SvnIs q s) : SvnIs q (swapGo x0 s) :=
  .via (frame_swapGo _ _ (m := 0x1801002180) .refl rfl) rfl h

theorem svn_writeCdata x0 x1 s (h : SvnIs q s) : SvnIs q (writeCdata x0 x1 s) :=
  .via (frame_writeCdata _ _ _ (m := 0x1801000180) .refl rfl) rfl h

theorem svn_writeJump x0 x1 s (h : SvnIs q s) : SvnIs q (writeJump x0 x1 s) :=
  .via (frame_writeJump _ _ _ (m := 0x1811000110) .refl rfl) rfl h

theorem svn_writeClrf x0 s (h : SvnIs q s) : SvnIs q (writeClrf x0 s) :=
  .via (frame_writeClrf _ _ (m := 0x8000000) .refl rfl) rfl h

theorem svn_writeFwcmd x0 x1 s (h : SvnIs q s) : SvnIs q (writeFwcmd x0 x1 s) :=
  .via (frame_writeFwcmd _ _ _ (m := 0x4000000) .refl rfl) rfl h

theorem svn_writeMbcmd x0 s (h : SvnIs q s) : SvnIs q (writeMbcmd x0 s) := by
  unfold writeMbcmd
  repeat' first | (with_reducible first | assumption | intro _ | refine svn_State_modSec _ _ ?_ ?_ | refine svn_storeFields _ _ _ _ _ ?_ | refine SvnIs.ite ?_ ?_) | ((with_reducible refine (?_ : Sec.svnIs _ _)); exact svn_same rfl (by assumption)) | decide | split | unfold id | dsimp only

theorem svn_writeOptFmt x0 s (h : SvnIs q s) : SvnIs q (writeOptFmt x0 s) :=
  .via (frame_writeOptFmt _ _ (m := 0x1800000110) .refl rfl) rfl h

theorem svn_writeSlotsel x0 s (h : SvnIs q s) : SvnIs q (writeSlotsel x0 s) := by
  unfold writeSlotsel
  repeat' first | (with_reducible first | assumption | intro _ | refine svn_State_modSec _ _ ?_ ?_ | refine svn_storeFields _ _ _ _ _ ?_ | refine SvnIs.ite ?_ ?_) | ((with_reducible refine (?_ : Sec.svnIs _ _)); exact svn_same rfl (by assumption)) | decide | split | unfold id | dsimp only

theorem svn_writeSpnCfg x0 s (h : SvnIs q s) : SvnIs q (writeSpnCfg x0 s) :=
  .via (frame_writeSpnCfg _ _ (m := 0x1800000190) .refl rfl) rfl h

theorem svn_writeSpnCmd x0 s (h : SvnIs q s) : SvnIs q (writeSpnCmd x0 s) :=
  .via (frame_writeSpnCmd _ _ (m := 0x1A1FB2A180) .refl rfl) rfl h

theorem svn_writeRegDrive x0 x1 x2 x3 x4 s (h : SvnIs q s) : SvnIs q (writeRegDrive x0 x1 x2 x3 x4 s) := by
  unfold writeRegDrive
  repeat' first | (with_reducible first | assumption | intro _ | refine svn_pmonClr _ _ ?_ | refine svn_pmonSnap _ _ ?_ | refine svn_storeFields _ _ _ _ _ ?_ | refine svn_writeClrf _ _ ?_ | refine svn_writeFwcmd _ _ _ ?_ | refine svn_writeMbcmd _ _ ?_ | refine svn_writeOptFmt _ _ ?_ | refine svn_writeSlotsel _ _ ?_ | refine svn_writeSpnCfg _ _ ?_ | refine svn_writeSpnCmd _ _ ?_ | refine SvnIs.ite ?_ ?_) | ((with_reducible refine (?_ : Sec.svnIs _ _)); exact svn_same rfl (by assumption)) | fail_if_no_progress (with_reducible refine SvnIs.set_opt ?_) | decide | split | unfold id | dsimp only

theorem svn_writeRetract x0 x1 s (h : SvnIs q s) : SvnIs q (writeRetract x0 x1 s) :=
  .via (frame_writeRetract _ _ _ (m := 0x1A1DB2A190) .refl rfl) rfl h

theorem svn_writeRow x0 x1 x2 s (h : SvnIs q s) : SvnIs q (writeRow x0 x1 x2 s) :=
  .via (frame_writeRow _ _ _ _ (m := 0x1801000180) .refl rfl) rfl h

theorem svn_writeSdata x0 x1 s (h : SvnIs q s) : SvnIs q (writeSdata x0 x1 s) :=
  .via (frame_writeSdata _ _ _ (m := 0x1801000180) .refl rfl) rfl h

theorem svn_writeSveCfg x0 x1 s (h : SvnIs q s) : SvnIs q (writeSveCfg x0 x1 s) :=
  .via (frame_writeSveCfg _ _ _ (m := 0x1A1DB2A190) .refl rfl) rfl h

theorem svn_writeSweep x0 x1 s (h : SvnIs q s) : SvnIs q (writeSweep x0 x1 s) :=
  .via (frame_writeSweep _ _ _ (m := 0x1811000110) .refl rfl) rfl h

theorem svn_writeTrctl x0 x1 s (h : SvnIs q s) : SvnIs q (writeTrctl x0 x1 s) :=
  .via (frame_writeTrctl _ _ _ (m := 0x1801002110) .refl rfl) rfl h

theorem svn_writeRegServo x0 x1 x2 x3 x4 s (h : SvnIs q s) : SvnIs q (writeRegServo x0 x1 x2 x3 x4 s) := by
  unfold writeRegServo
  repeat' first | (with_reducible first | assumption | intro _ | refine svn_State_modSve _ _ _ ?_ | refine svn_mailCommit _ _ ?_ | refine svn_pmonClr _ _ ?_ | refine svn_pmonSnap _ _ ?_ | refine svn_storeFields _ _ _ _ _ ?_ | refine svn_swapGo _ _ ?_ | refine svn_writeCdata _ _ _ ?_ | refine svn_writeJump _ _ _ ?_ | refine svn_writeRegDrive _ _ _ _ _ _ ?_ | refine svn_writeRetract _ _ _ ?_ | refine svn_writeRow _ _ _ _ ?_ | refine svn_writeSdata _ _ _ ?_ | refine svn_writeSveCfg _ _ _ ?_ | refine svn_writeSweep _ _ _ ?_ | refine svn_writeTrctl _ _ _ ?_ | refine SvnIs.ite ?_ ?_) | decide | split | unfold id | dsimp only

theorem svn_writeRespop x0 x1 s (h : SvnIs q s) : SvnIs q (writeRespop x0 x1 s) :=
  .via (frame_writeRespop _ _ _ (m := 0x100000) .refl rfl) rfl h

theorem svn_writeRsfree x0 s (h : SvnIs q s) : SvnIs q (writeRsfree x0 s) :=
  .via (frame_writeRsfree _ _ (m := 0x400000) .refl rfl) rfl h

theorem svn_writeRegSeq x0 x1 x2 x3 x4 s (h : SvnIs q s) : SvnIs q (writeRegSeq x0 x1 x2 x3 x4 s) := by
  unfold writeRegSeq
  repeat' first | (with_reducible first | assumption | intro _ | refine svn_State_modLdp _ _ ?_ | refine svn_State_modRwc _ _ _ ?_ | refine svn_headretSet _ _ _ ?_ | refine svn_ldpRun _ ?_ | refine svn_pmonClr _ _ ?_ | refine svn_pmonSnap _ _ ?_ | refine svn_storeFields _ _ _ _ _ ?_ | refine svn_writeAbort _ _ _ ?_ | refine svn_writeCstAct _ _ _ ?_ | refine svn_writeDlop _ _ ?_ | refine svn_writeFfpop _ _ _ ?_ | refine svn_writePcmd _ _ _ ?_ | refine svn_writePtask _ _ _ _ ?_ | refine svn_writeRegServo _ _ _ _ _ _ ?_ | refine svn_writeRespop _ _ _ ?_ | refine svn_writeRsfree _ _ ?_ | refine SvnIs.ite ?_ ?_) | decide | split | unfold id | dsimp only

theorem svn_writeRegattr x0 x1 x2 s (h : SvnIs q s) : SvnIs q (writeRegattr x0 x1 x2 s) :=
  .via (frame_writeRegattr _ _ _ _ (m := 0x1860000130) .refl rfl) rfl h

theorem svn_writeRvrCmd x0 s (h : SvnIs q s) : SvnIs q (writeRvrCmd x0 s) :=
  .via (frame_writeRvrCmd _ _ (m := 0x180005C100) .refl rfl) rfl h

theorem svn_writeRegMem x0 x1 x2 x3 x4 s (h : SvnIs q s) : SvnIs q (writeRegMem x0 x1 x2 x3 x4 s) := by
  unfold writeRegMem
  repeat' first | (with_reducible first | assumption | intro _ | refine svn_dmcInitGo _ ?_ | refine svn_pprGo _ _ ?_ | refine svn_rowClear _ _ ?_ | refine svn_splitGo _ _ ?_ | refine svn_storeFields _ _ _ _ _ ?_ | refine svn_writeAbortReq _ _ ?_ | refine svn_writeDmcCfg _ _ ?_ | refine svn_writeLgrWin _ _ ?_ | refine svn_writeNsdom _ _ _ ?_ | refine svn_writeOpcmd _ _ ?_ | refine svn_writeOpenctl _ _ _ ?_ | refine svn_writeRegSeq _ _ _ _ _ _ ?_ | refine svn_writeRegattr _ _ _ _ ?_ | refine svn_writeRvrCmd _ _ ?_ | refine SvnIs.ite ?_ ?_) | decide | split | unfold id | dsimp only

theorem svn_writeSegbudget x0 s (h : SvnIs q s) : SvnIs q (writeSegbudget x0 s) :=
  .via (frame_writeSegbudget _ _ (m := 0x1800000110) .refl rfl) rfl h

theorem svn_writeVlkCfg x0 s (h : SvnIs q s) : SvnIs q (writeVlkCfg x0 s) :=
  .via (frame_writeVlkCfg _ _ (m := 0x5800000190) .refl rfl) rfl h

theorem svn_writeVlkCmd x0 s (h : SvnIs q s) : SvnIs q (writeVlkCmd x0 s) :=
  .via (frame_writeVlkCmd _ _ (m := 0x5800002100) .refl rfl) rfl h

theorem svn_writeVlkLreq x0 s (h : SvnIs q s) : SvnIs q (writeVlkLreq x0 s) :=
  .via (frame_writeVlkLreq _ _ (m := 0x1800000110) .refl rfl) rfl h

theorem svn_writeVlkNode x0 s (h : SvnIs q s) : SvnIs q (writeVlkNode x0 s) :=
  .via (frame_writeVlkNode _ _ (m := 0x5800000100) .refl rfl) rfl h

theorem svn_writeRegVlk x0 x1 x2 x3 x4 s (h : SvnIs q s) : SvnIs q (writeRegVlk x0 x1 x2 x3 x4 s) := by
  unfold writeRegVlk
  repeat' first | (with_reducible first | assumption | intro _ | refine svn_State_modVlk _ _ ?_ | refine svn_pmonClr _ _ ?_ | refine svn_pmonSnap _ _ ?_ | refine svn_retarget _ _ ?_ | refine svn_storeFields _ _ _ _ _ ?_ | refine svn_writeImgcmd _ _ ?_ | refine svn_writeOrphan _ _ ?_ | refine svn_writeRegMem _ _ _ _ _ _ ?_ | refine svn_writeSegbudget _ _ ?_ | refine svn_writeVlkCfg _ _ ?_ | refine svn_writeVlkCmd _ _ ?_ | refine svn_writeVlkLreq _ _ ?_ | refine svn_writeVlkNode _ _ ?_ | refine SvnIs.ite ?_ ?_) | decide | split | unfold id | dsimp only

theorem svn_writeReqb x0 x1 s (h : SvnIs q s) : SvnIs q (writeReqb x0 x1 s) :=
  .via (frame_writeReqb _ _ _ (m := 0x1800006110) .refl rfl) rfl h

theorem svn_writeSwev x0 s (h : SvnIs q s) : SvnIs q (writeSwev x0 s) :=
  .via (frame_writeSwev _ _ (m := 0x1800000110) .refl rfl) rfl h

theorem svn_writeThmCmd x0 s (h : SvnIs q s) : SvnIs q (writeThmCmd x0 s) :=
  .via (frame_writeThmCmd _ _ (m := 0x190005E100) .refl rfl) rfl h

theorem svn_writeThmThr x0 s (h : SvnIs q s) : SvnIs q (writeThmThr x0 s) :=
  .via (frame_writeThmThr _ _ (m := 0x1800000110) .refl rfl) rfl h

theorem svn_writeWdtctl x0 s (h : SvnIs q s) : SvnIs q (writeWdtctl x0 s) :=
  .via (frame_writeWdtctl _ _ (m := 0x1800000310) .refl rfl) rfl h

theorem svn_writeWdtkick x0 s (h : SvnIs q s) : SvnIs q (writeWdtkick x0 s) :=
  .via (frame_writeWdtkick _ _ (m := 0x1800000300) .refl rfl) rfl h

theorem svn_writeWin x0 x1 s (h : SvnIs q s) : SvnIs q (writeWin x0 x1 s) :=
  .via (frame_writeWin _ _ _ (m := 0x800000000) .refl rfl) rfl h

theorem svn_writeReg x0 x1 x2 x3 x4 s (h : SvnIs q s) : SvnIs q (writeReg x0 x1 x2 x3 x4 s) := by
  unfold writeReg
  repeat' first | (with_reducible first | assumption | intro _ | refine svn_evrCommit _ ?_ | refine svn_evrStore _ ?_ | refine svn_lifSeal _ ?_ | refine svn_lifSnap _ ?_ | refine svn_routeWrite _ _ _ _ ?_ | refine svn_storeFields _ _ _ _ _ ?_ | refine svn_swset _ _ ?_ | refine svn_twinAccess _ _ _ _ ?_ | refine svn_walkQueue _ ?_ | refine svn_writeAddgo _ _ ?_ | refine svn_writeBase _ _ _ ?_ | refine svn_writeCalAdj _ _ ?_ | refine svn_writeCalCmd _ _ ?_ | refine svn_writeClkDom _ _ _ ?_ | refine svn_writeCur _ _ _ ?_ | refine svn_writeOp _ _ _ ?_ | refine svn_writePdoff _ _ ?_ | refine svn_writePfcfg _ _ ?_ | refine svn_writePllen _ _ ?_ | refine svn_writePreq _ _ ?_ | refine svn_writeProfile _ _ ?_ | refine svn_writeRdyctl _ _ ?_ | refine svn_writeRegVlk _ _ _ _ _ _ ?_ | refine svn_writeReqb _ _ _ ?_ | refine svn_writeSwev _ _ ?_ | refine svn_writeThmCmd _ _ ?_ | refine svn_writeThmThr _ _ ?_ | refine svn_writeWdtctl _ _ ?_ | refine svn_writeWdtkick _ _ ?_ | refine svn_writeWin _ _ _ ?_ | refine SvnIs.ite ?_ ?_) | decide | split | unfold id | dsimp only

theorem svn_wordAccess x0 x1 x2 x3 x4 x5 s (h : SvnIs q s) : SvnIs q (wordAccess x0 x1 x2 x3 x4 x5 s) := by
  unfold wordAccess
  repeat' first | (with_reducible first | assumption | intro _ | refine svn_busGives _ _ ?_ | refine svn_busZero _ ?_ | refine svn_guardWrite _ _ _ _ ?_ | refine svn_headerWrite _ _ _ _ _ _ ?_ | refine svn_readRegAt _ _ _ _ ?_ | refine svn_useWindow _ _ _ ?_ | refine svn_writeReg _ _ _ _ _ _ ?_ | refine SvnIs.ite ?_ ?_) | fail_if_no_progress (with_reducible refine SvnIs.set_busErr ?_) | decide | split | unfold id | dsimp only

theorem svn_pageAccess x0 x1 x2 x3 x4 s (h : SvnIs q s) : SvnIs q (pageAccess x0 x1 x2 x3 x4 s) := by
  unfold pageAccess
  repeat' first | (with_reducible first | assumption | intro _ | refine svn_blockError _ _ _ _ _ ?_ | refine svn_busZero _ ?_ | refine svn_wordAccess _ _ _ _ _ _ _ ?_ | refine SvnIs.ite ?_ ?_) | fail_if_no_progress (with_reducible refine SvnIs.set_busData ?_) | decide | split | unfold id | dsimp only

theorem svn_romAccess x0 x1 x2 x3 s (h : SvnIs q s) : SvnIs q (romAccess x0 x1 x2 x3 s) :=
  .via (frame_romAccess _ _ _ _ _ (m := 0xC) .refl rfl) rfl h

theorem svn_storeWindow x0 x1 x2 s (h : SvnIs q s) : SvnIs q (storeWindow x0 x1 x2 s) :=
  .via (frame_storeWindow _ _ _ _ (m := 0x180000010C) .refl rfl) rfl h

theorem svn_busOp x0 x1 x2 x3 x4 s (h : SvnIs q s) : SvnIs q (busOp x0 x1 x2 x3 x4 s) := by
  unfold busOp
  repeat' first | (with_reducible first | assumption | intro _ | refine svn_blockError _ _ _ _ _ ?_ | refine svn_busFails _ ?_ | refine svn_busZero _ ?_ | refine svn_domMem _ _ _ _ _ _ _ ?_ | refine svn_ev _ _ _ _ _ _ ?_ | refine svn_pageAccess _ _ _ _ _ _ ?_ | refine svn_romAccess _ _ _ _ _ ?_ | refine svn_storeWindow _ _ _ _ ?_ | refine SvnIs.ite ?_ ?_) | ((with_reducible refine (?_ : Sec.svnIs _ _)); exact svn_same rfl (by assumption)) | decide | split | unfold id | dsimp only

theorem svn_csrWrite x0 x1 x2 s (h : SvnIs q s) : SvnIs q (csrWrite x0 x1 x2 s) :=
  .via (frame_csrWrite _ _ _ _ (m := 0x18600033A0) .refl rfl) rfl h

theorem svn_dmaError x0 s (h : SvnIs q s) : SvnIs q (dmaError x0 s) :=
  .via (frame_dmaError _ _ (m := 0x1800000180) .refl rfl) rfl h

theorem svn_access x0 x1 x2 x3 s (h : SvnIs q s) (k : ∀ t, SvnIs q t → SvnIs q (x3 t)) :
    SvnIs q (access x0 x1 x2 x3 s) := by
  unfold access
  exact .ite (.ite (svn_useWindow _ _ _ (k _ h)) (svn_blockError _ _ _ _ _ h)) h

theorem svn_hdrAccess x0 x1 x2 s (h : SvnIs q s) (k : ∀ a b t, SvnIs q t → SvnIs q (x2 a b t)) :
    SvnIs q (hdrAccess x0 x1 x2 s) := by
  unfold hdrAccess
  exact svn_access _ _ _ _ _ h (k _ _)

theorem svn_coreReset s (h : SvnIs q s) : SvnIs q (coreReset s) := svn_same (d := (coreReset s).sec) rfl h

theorem svn_wickReset x0 s (h : SvnIs q s) : SvnIs q (wickReset x0 s) := svn_same (d := (wickReset x0 s).sec) rfl h

theorem svn_State_drawn s (h : SvnIs q s) : SvnIs q (State.drawn s) :=
  .via (frame_State_drawn _ (m := 0x80) .refl rfl) rfl h

theorem svn_State_modSys x0 s (h : SvnIs q s) : SvnIs q (State.modSys x0 s) :=
  .via (frame_State_modSys _ _ (m := 0x200) .refl rfl) rfl h

theorem svn_elapse x0 s (h : SvnIs q s) : SvnIs q (elapse x0 s) :=
  .via (frame_elapse _ _ (m := 0x7800000B12) .refl rfl) rfl h

theorem svn_State_modPwr x0 s (h : SvnIs q s) : SvnIs q (State.modPwr x0 s) :=
  .via (frame_State_modPwr _ _ (m := 0x800) .refl rfl) rfl h

theorem svn_bistResults x0 s (h : SvnIs q s) : SvnIs q (bistResults x0 s) :=
  .via (frame_bistResults _ _ (m := 0x186003A3A0) .refl rfl) rfl h

theorem svn_deriveKeys s (h : SvnIs q s) : SvnIs q (deriveKeys s) := by
  unfold deriveKeys
  repeat' first | (with_reducible first | assumption | intro _ | refine svn_State_modSec _ _ ?_ ?_ | refine SvnIs.ite ?_ ?_) | ((with_reducible refine (?_ : Sec.svnIs _ _)); exact svn_same rfl (by assumption)) | decide | split | unfold id | dsimp only

theorem svn_extendMeas x0 x1 s (h : SvnIs q s) : SvnIs q (extendMeas x0 x1 s) := by
  unfold extendMeas
  repeat' first | (with_reducible first | assumption | intro _ | refine svn_State_modSec _ _ ?_ ?_ | refine SvnIs.ite ?_ ?_) | ((with_reducible refine (?_ : Sec.svnIs _ _)); exact svn_same rfl (by assumption)) | decide | split | unfold id | dsimp only

theorem svn_measureStage s (h : SvnIs q s) : SvnIs q (measureStage s) := by
  unfold measureStage
  repeat' first | (with_reducible first | assumption | intro _ | refine svn_State_drawn _ ?_ | refine svn_extendMeas _ _ _ ?_ | refine SvnIs.ite ?_ ?_) | decide | split | unfold id | dsimp only

theorem svn_setFld x0 x1 x2 x3 x4 x5 s (h : SvnIs q s) : SvnIs q (setFld x0 x1 x2 x3 x4 x5 s) :=
  .via (frame_setFld _ _ _ _ _ _ _ (m := 0x10) .refl rfl) rfl h

theorem svn_startImage x0 x1 s (h : SvnIs q s) : SvnIs q (startImage x0 x1 s) := by
  unfold startImage
  repeat' first | (with_reducible first | assumption | intro _ | refine svn_State_modSec _ _ ?_ ?_ | refine svn_State_modSys _ _ ?_ | refine svn_deriveKeys _ ?_ | refine svn_extendMeas _ _ _ ?_ | refine svn_measureStage _ ?_ | refine svn_setFld _ _ _ _ _ _ _ ?_ | refine SvnIs.ite ?_ ?_) | ((with_reducible refine (?_ : Sec.svnIs _ _)); exact svn_same rfl (by assumption)) | decide | split | unfold id | dsimp only

theorem svn_bootSlots x0 s (h : SvnIs q s) : SvnIs q (bootSlots x0 s) := by
  unfold bootSlots
  repeat' first | (with_reducible first | assumption | intro _ | refine svn_State_modSys _ _ ?_ | refine svn_ev _ _ _ _ _ _ ?_ | refine svn_startImage _ _ _ ?_ | refine SvnIs.ite ?_ ?_) | decide | split | unfold id | dsimp only

theorem svn_applyPolicy s (h : SvnIs q s) : SvnIs q (applyPolicy s) := by
  unfold applyPolicy
  repeat' first | (with_reducible first | assumption | intro _ | refine svn_State_drawn _ ?_ | refine svn_State_modSec _ _ ?_ ?_ | refine svn_ev _ _ _ _ _ _ ?_ | refine SvnIs.ite ?_ ?_) | ((with_reducible refine (?_ : Sec.svnIs _ _)); exact svn_same rfl (by assumption)) | fail_if_no_progress (with_reducible refine SvnIs.set_cst ?_) | decide | split | unfold id | dsimp only

theorem svn_countCauses x0 s (h : SvnIs q s) : SvnIs q (countCauses x0 s) :=
  .via (frame_countCauses _ _ (m := 0x1800000100) .refl rfl) rfl h

theorem svn_measureStart s (h : SvnIs q s) : SvnIs q (measureStart s) := by
  unfold measureStart
  repeat' first | (with_reducible first | assumption | intro _ | refine svn_State_drawn _ ?_ | refine svn_extendMeas _ _ _ ?_ | refine SvnIs.ite ?_ ?_) | decide | split | unfold id | dsimp only

theorem svn_sampleStraps x0 s (h : SvnIs q s) : SvnIs q (sampleStraps x0 s) :=
  .via (frame_sampleStraps _ _ (m := 0x1800000300) .refl rfl) rfl h

theorem svn_releaseCore x0 s (h : SvnIs q s) : SvnIs q (releaseCore x0 s) := by
  unfold releaseCore
  repeat' first | (with_reducible first | assumption | intro _ | refine svn_State_modPwr _ _ ?_ | refine svn_State_modSys _ _ ?_ | refine svn_applyPolicy _ ?_ | refine svn_countCauses _ _ ?_ | refine svn_ev _ _ _ _ _ _ ?_ | refine svn_measureStart _ ?_ | refine svn_sampleStraps _ _ ?_ | refine SvnIs.ite ?_ ?_) | fail_if_no_progress (with_reducible refine SvnIs.set_clk ?_) | decide | split | unfold id | dsimp only

theorem svn_coldStart x0 s (h : SvnIs q s) : SvnIs q (coldStart x0 s) := by
  unfold coldStart
  repeat' first | (with_reducible first | assumption | intro _ | refine svn_State_modSys _ _ ?_ | refine svn_bistResults _ _ ?_ | refine svn_bootSlots _ _ ?_ | refine svn_ev _ _ _ _ _ _ ?_ | refine svn_releaseCore _ _ ?_ | refine svn_setFld _ _ _ _ _ _ _ ?_ | refine svn_trainLink _ _ ?_ | refine SvnIs.ite ?_ ?_) | decide | split | unfold id | dsimp only

theorem svn_startCore x0 s (h : SvnIs q s) : SvnIs q (startCore x0 s) := by
  unfold startCore
  repeat' first | (with_reducible first | assumption | intro _ | refine svn_State_modPwr _ _ ?_ | refine svn_State_modSys _ _ ?_ | refine svn_coldStart _ _ ?_ | refine SvnIs.ite ?_ ?_) | decide | split | unfold id | dsimp only

theorem svn_wakeRecord x0 x1 s (h : SvnIs q s) : SvnIs q (wakeRecord x0 x1 s) :=
  .via (frame_wakeRecord _ _ _ (m := 0x1800000900) .refl rfl) rfl h

theorem svn_zeroForPowerDown s (h : SvnIs q s) : SvnIs q (zeroForPowerDown s) := by
  unfold zeroForPowerDown
  repeat' first | (with_reducible first | assumption | intro _ | refine svn_State_modSec _ _ ?_ ?_ | refine svn_dropLinks _ ?_ | refine svn_zeroKst _ ?_ | refine SvnIs.ite ?_ ?_) | ((with_reducible refine (?_ : Sec.svnIs _ _)); exact svn_same rfl (by assumption)) | decide | split | unfold id | dsimp only

theorem svn_darkEntry x0 x1 s (h : SvnIs q s) : SvnIs q (darkEntry x0 x1 s) := by
  unfold darkEntry
  repeat' first | (with_reducible first | assumption | intro _ | refine svn_State_modPwr _ _ ?_ | refine svn_State_modSys _ _ ?_ | refine svn_coreReset _ ?_ | refine svn_zeroForPowerDown _ ?_ | refine SvnIs.ite ?_ ?_) | decide | split | unfold id | dsimp only

theorem svn_closeFetch s (h : SvnIs q s) : SvnIs q (closeFetch s) :=
  .via (frame_closeFetch _ (m := 0x8000) .refl rfl) rfl h

theorem svn_enterRectify s (h : SvnIs q s) : SvnIs q (enterRectify s) :=
  .via (frame_enterRectify _ (m := 0x1A1FB2A180) .refl rfl) rfl h

theorem svn_gatesAllOff s (h : SvnIs q s) : SvnIs q (gatesAllOff s) :=
  .via (frame_gatesAllOff _ (m := 0xCB22000) .refl rfl) rfl h

theorem svn_lifBump x0 x1 s (h : SvnIs q s) : SvnIs q (lifBump x0 x1 s) :=
  .via (frame_lifBump _ _ _ (m := 0x1800000100) .refl rfl) rfl h

theorem svn_enterDim s (h : SvnIs q s) : SvnIs q (enterDim s) :=
  .via (frame_enterDim _ (m := 0x1800018980) .refl rfl) rfl h

theorem svn_lossEnd s (h : SvnIs q s) : SvnIs q (lossEnd s) := by
  unfold lossEnd
  repeat' first | (with_reducible first | assumption | intro _ | refine svn_darkEntry _ _ _ ?_ | refine svn_enterDim _ ?_ | refine svn_zeroForPowerDown _ ?_ | refine SvnIs.ite ?_ ?_) | decide | split | unfold id | dsimp only

theorem svn_raiseLine x0 s (h : SvnIs q s) : SvnIs q (raiseLine x0 s) :=
  .via (frame_raiseLine _ _ (m := 0x2000) .refl rfl) rfl h

theorem svn_retractLoaded x0 s (h : SvnIs q s) : SvnIs q (retractLoaded x0 s) :=
  .via (frame_retractLoaded _ _ (m := 0x1A1DB2A180) .refl rfl) rfl h

theorem svn_revokeLeaves x0 s (h : SvnIs q s) : SvnIs q (revokeLeaves x0 s) :=
  .via (frame_revokeLeaves _ _ (m := 0x1A0C306180) .refl rfl) rfl h

theorem svn_startCommit x0 s (h : SvnIs q s) : SvnIs q (startCommit x0 s) :=
  .via (frame_startCommit _ _ (m := 0x180005C100) .refl rfl) rfl h

theorem svn_lossStart s (h : SvnIs q s) : SvnIs q (lossStart s) := by
  unfold lossStart
  repeat' first | (with_reducible first | assumption | intro _ | refine svn_closeFetch _ ?_ | refine svn_enterRectify _ ?_ | refine svn_gatesAllOff _ ?_ | refine svn_lasersOff _ ?_ | refine svn_lifBump _ _ _ ?_ | refine svn_lossEnd _ ?_ | refine svn_raiseLine _ _ ?_ | refine svn_retractLoaded _ _ ?_ | refine svn_revokeLeaves _ _ ?_ | refine svn_startCommit _ _ ?_ | refine SvnIs.ite ?_ ?_) | fail_if_no_progress (with_reducible refine SvnIs.set_sup ?_) | decide | split | unfold id | dsimp only

theorem svn_freeBarrier x0 s (h : SvnIs q s) : SvnIs q (freeBarrier x0 s) :=
  .via (frame_freeBarrier _ _ (m := 0x10000) .refl rfl) rfl h

theorem svn_freeTag x0 s (h : SvnIs q s) : SvnIs q (freeTag x0 s) :=
  .via (frame_freeTag _ _ (m := 0x8000) .refl rfl) rfl h

theorem svn_releaseReader x0 s (h : SvnIs q s) : SvnIs q (releaseReader x0 s) :=
  .via (frame_releaseReader _ _ (m := 0x10000) .refl rfl) rfl h

theorem svn_exception x0 x1 s (h : SvnIs q s) : SvnIs q (exception x0 x1 s) :=
  .via (frame_exception _ _ _ (m := 0x180000A100) .refl rfl) rfl h

theorem svn_keyRefused x0 s (h : SvnIs q s) : SvnIs q (keyRefused x0 s) := by
  unfold keyRefused
  try dsimp only
  split
  all_goals repeat' first | (with_reducible first | assumption | intro _ | refine svn_ev _ _ _ _ _ _ ?_ | refine SvnIs.ite ?_ ?_) | ((with_reducible refine (?_ : Sec.svnIs _ _)); exact svn_same rfl (by assumption)) | fail_if_no_progress (with_reducible refine SvnIs.set_sec ?_ ?_) | decide | split | unfold id | dsimp only

theorem svn_addEntry x0 s (h : SvnIs q s) : SvnIs q (addEntry x0 s) :=
  .via (frame_addEntry _ _ (m := 0x10000) .refl rfl) rfl h

theorem svn_setIrqStat x0 x1 x2 s (h : SvnIs q s) : SvnIs q (setIrqStat x0 x1 x2 s) :=
  .via (frame_setIrqStat _ _ _ _ (m := 0x100) .refl rfl) rfl h

theorem svn_addUse x0 x1 s (h : SvnIs q s) : SvnIs q (addUse x0 x1 s) := by
  unfold addUse
  try dsimp only
  split
  all_goals repeat' first | (with_reducible first | assumption | intro _ | refine svn_ev _ _ _ _ _ _ ?_ | refine svn_setIrqStat _ _ _ _ ?_ | refine SvnIs.ite ?_ ?_) | ((with_reducible refine (?_ : Sec.svnIs _ _)); exact svn_same rfl (by assumption)) | fail_if_no_progress (with_reducible refine SvnIs.set_sec ?_ ?_) | decide | split | unfold id | dsimp only

theorem svn_modZone x0 x1 s (h : SvnIs q s) : SvnIs q (modZone x0 x1 s) :=
  .via (frame_modZone _ _ _ (m := 0x20000) .refl rfl) rfl h

theorem svn_selectRange x0 x1 x2 s (h : SvnIs q s) : SvnIs q (selectRange x0 x1 x2 s).1 :=
  .via (frame_selectRange _ _ _ _ (m := 0x10000) .refl rfl) rfl h

theorem svn_zoneAdvance x0 x1 s (h : SvnIs q s) : SvnIs q (zoneAdvance x0 x1 s) :=
  .via (frame_zoneAdvance _ _ _ (m := 0x1800020100) .refl rfl) rfl h

theorem svn_register x0 x1 s (h : SvnIs q s) : SvnIs q (register x0 x1 s) := by
  unfold register
  repeat' first | (with_reducible first | assumption | intro _ | refine svn_addEntry _ _ ?_ | refine svn_addUse _ _ _ ?_ | refine svn_modZone _ _ _ ?_ | refine svn_selectRange _ _ _ _ ?_ | refine svn_zoneAdvance _ _ _ ?_ | refine SvnIs.foldl (fun _ _ _ => ?_) ?_ | refine SvnIs.ite ?_ ?_) | refine SvnIs.of_eq (congrArg Prod.fst ‹selectRange _ _ _ _ = _›) ?_ | decide | split | unfold id | dsimp only

theorem svn_accept x0 s (h : SvnIs q s) : SvnIs q (accept x0 s) := by
  unfold accept
  repeat' first | (with_reducible first | assumption | intro _ | refine svn_exception _ _ _ ?_ | refine svn_finish _ _ _ ?_ | refine svn_keyRefused _ _ ?_ | refine svn_modCmd _ _ _ ?_ | refine svn_register _ _ _ ?_ | refine SvnIs.ite ?_ ?_) | decide | split | unfold id | dsimp only

theorem svn_startCmd x0 s (h : SvnIs q s) : SvnIs q (startCmd x0 s) := by
  unfold startCmd
  repeat' first | (with_reducible first | assumption | intro _ | refine svn_accept _ _ ?_ | refine svn_modCmd _ _ _ ?_ | refine SvnIs.ite ?_ ?_) | decide | split | unfold id | dsimp only

theorem svn_releaseWaiting s (h : SvnIs q s) : SvnIs q (releaseWaiting s) := by
  unfold releaseWaiting
  repeat' first | (with_reducible first | assumption | intro _ | refine svn_startCmd _ _ ?_ | refine SvnIs.foldl (fun _ _ _ => ?_) ?_ | refine SvnIs.ite ?_ ?_) | decide | split | unfold id | dsimp only

theorem svn_stopOne x0 s (h : SvnIs q s) : SvnIs q (stopOne x0 s) := by
  unfold stopOne
  repeat' first | (with_reducible first | assumption | intro _ | refine svn_dropWrite _ _ ?_ | refine svn_freeBarrier _ _ ?_ | refine svn_freeTag _ _ ?_ | refine svn_modCmd _ _ _ ?_ | refine svn_releaseReader _ _ ?_ | refine svn_releaseWaiting _ ?_ | refine svn_stopTasks _ _ ?_ | refine SvnIs.ite ?_ ?_) | decide | split | unfold id | dsimp only

theorem svn_stopController x0 x1 s (h : SvnIs q s) : SvnIs q (stopController x0 x1 s) := by
  unfold stopController
  repeat' first | (with_reducible first | assumption | intro _ | refine svn_State_modCtrl _ _ _ ?_ | refine svn_State_modHce _ _ ?_ | refine svn_State_modPwr _ _ ?_ | refine svn_ev _ _ _ _ _ _ ?_ | refine svn_stopOne _ _ ?_ | refine SvnIs.foldl (fun _ _ _ => ?_) ?_ | refine SvnIs.ite ?_ ?_) | decide | split | unfold id | dsimp only

theorem svn_perstAction x0 s (h : SvnIs q s) : SvnIs q (perstAction x0 s) := by
  unfold perstAction
  repeat' first | (with_reducible first | assumption | intro _ | refine svn_State_modCtrl _ _ _ ?_ | refine svn_raiseLine _ _ ?_ | refine svn_stopController _ _ _ ?_ | refine SvnIs.ite ?_ ?_) | decide | split | unfold id | dsimp only

theorem svn_linkReset x0 x1 s (h : SvnIs q s) : SvnIs q (linkReset x0 x1 s) := by
  unfold linkReset
  repeat' first | (with_reducible first | assumption | intro _ | refine svn_ev _ _ _ _ _ _ ?_ | refine svn_perstAction _ _ ?_ | refine svn_trainLink _ _ ?_ | refine SvnIs.ite ?_ ?_) | decide | split | unfold id | dsimp only

theorem svn_formatTables x0 x1 s (h : SvnIs q s) : SvnIs q (formatTables x0 x1 s) :=
  .via (frame_formatTables _ _ _ (m := 0x20000) .refl rfl) rfl h

theorem svn_deallocWiped x0 s (h : SvnIs q s) : SvnIs q (deallocWiped x0 s) := by
  unfold deallocWiped
  repeat' first | (with_reducible first | assumption | intro _ | refine svn_State_modSec _ _ ?_ ?_ | refine svn_formatTables _ _ _ ?_ | refine SvnIs.foldl (fun _ _ _ => ?_) ?_ | refine SvnIs.ite ?_ ?_) | ((with_reducible refine (?_ : Sec.svnIs _ _)); exact svn_same rfl (by assumption)) | decide | split | unfold id | dsimp only

theorem svn_abandonCommit s (h : SvnIs q s) : SvnIs q (abandonCommit s) :=
  .via (frame_abandonCommit _ (m := 0x180005C380) .refl rfl) rfl h

theorem svn_resetSteps x0 s (h : SvnIs q s) : SvnIs q (resetSteps x0 s) :=
  .via (frame_resetSteps _ _ (m := 0x1A1DB7E980) .refl rfl) rfl h

theorem svn_subsystemReset s (h : SvnIs q s) : SvnIs q (subsystemReset s) := by
  unfold subsystemReset
  repeat' first | (with_reducible first | assumption | intro _ | refine svn_State_modSys _ _ ?_ | refine svn_resetSteps _ _ ?_ | refine svn_stopController _ _ _ ?_ | refine SvnIs.foldl (fun _ _ _ => ?_) ?_ | refine SvnIs.ite ?_ ?_) | decide | split | unfold id | dsimp only

theorem svn_enterGlow s (h : SvnIs q s) : SvnIs q (enterGlow s) :=
  .via (frame_enterGlow _ (m := 0x1800018D90) .refl rfl) rfl h

theorem svn_unwindEntry x0 s (h : SvnIs q s) : SvnIs q (unwindEntry x0 s) :=
  .via (frame_unwindEntry _ _ (m := 0x186000B9AC) .refl rfl) rfl h

theorem svn_powerEntered s (h : SvnIs q s) : SvnIs q (powerEntered s) := by
  unfold powerEntered
  repeat' first | (with_reducible first | assumption | intro _ | refine svn_State_modPwr _ _ ?_ | refine svn_darkEntry _ _ _ ?_ | refine svn_enterDim _ ?_ | refine svn_enterGlow _ ?_ | refine svn_ev _ _ _ _ _ _ ?_ | refine svn_powerLit _ ?_ | refine svn_unwindEntry _ _ ?_ | refine SvnIs.ite ?_ ?_) | decide | split | unfold id | dsimp only

theorem svn_noteWake x0 s (h : SvnIs q s) : SvnIs q (noteWake x0 s) :=
  .via (frame_noteWake _ _ (m := 0x800) .refl rfl) rfl h

theorem svn_clocksWake s (h : SvnIs q s) : SvnIs q (clocksWake s) :=
  .via (frame_clocksWake _ (m := 0x10) .refl rfl) rfl h

theorem svn_wakeFrom x0 x1 x2 s (h : SvnIs q s) : SvnIs q (wakeFrom x0 x1 x2 s) := by
  unfold wakeFrom
  repeat' first | (with_reducible first | assumption | intro _ | refine svn_State_modHce _ _ ?_ | refine svn_clocksWake _ ?_ | refine svn_powerLit _ ?_ | refine svn_startCore _ _ ?_ | refine svn_wakeRecord _ _ _ ?_ | refine SvnIs.ite ?_ ?_) | fail_if_no_progress (with_reducible refine SvnIs.set_sup ?_) | decide | split | unfold id | dsimp only

theorem svn_wakeAct x0 x1 s (h : SvnIs q s) : SvnIs q (wakeAct x0 x1 s) := by
  unfold wakeAct
  repeat' first | (with_reducible first | assumption | intro _ | refine svn_unwindEntry _ _ ?_ | refine svn_wakeFrom _ _ _ _ ?_ | refine SvnIs.ite ?_ ?_) | decide | split | unfold id | dsimp only

theorem svn_checkPause s (h : SvnIs q s) : SvnIs q (checkPause s) :=
  .via (frame_checkPause _ (m := 0x180000A100) .refl rfl) rfl h

theorem svn_fetchEffects x0 s (h : SvnIs q s) : SvnIs q (fetchEffects x0 s) :=
  .via (frame_fetchEffects _ _ (m := 0x18880) .refl rfl) rfl h

theorem svn_psUnwind s (h : SvnIs q s) : SvnIs q (psUnwind s) :=
  .via (frame_psUnwind _ (m := 0x186000F9AC) .refl rfl) rfl h

theorem svn_takeOrd s (h : SvnIs q s) : SvnIs q (takeOrd s) :=
  .via (frame_takeOrd _ (m := 0x10000) .refl rfl) rfl h

theorem svn_enterCmd x0 x1 x2 x3 x4 s (h : SvnIs q s) : SvnIs q (enterCmd x0 x1 x2 x3 x4 s) := by
  unfold enterCmd
  repeat' first | (with_reducible first | assumption | intro _ | refine svn_State_modHce _ _ ?_ | refine svn_fetchEffects _ _ ?_ | refine svn_psUnwind _ ?_ | refine svn_startCmd _ _ ?_ | refine svn_takeOrd _ ?_ | refine SvnIs.ite ?_ ?_) | decide | split | unfold id | dsimp only

theorem svn_beginTurn x0 s (h : SvnIs q s) : SvnIs q (beginTurn x0 s) :=
  .via (frame_beginTurn _ _ (m := 0x8000) .refl rfl) rfl h

theorem svn_modSq x0 x1 x2 s (h : SvnIs q s) : SvnIs q (modSq x0 x1 x2 s) :=
  .via (frame_modSq _ _ _ _ (m := 0x8000) .refl rfl) rfl h

theorem svn_fetchNext x0 s (h : SvnIs q s) : SvnIs q (fetchNext x0 s) := by
  unfold fetchNext
  repeat' first | (with_reducible first | assumption | intro _ | refine svn_State_modHce _ _ ?_ | refine svn_beginTurn _ _ ?_ | refine svn_checkPause _ ?_ | refine svn_enterCmd _ _ _ _ _ _ ?_ | refine svn_ev _ _ _ _ _ _ ?_ | refine svn_modSq _ _ _ _ ?_ | refine svn_raiseLine _ _ ?_ | refine SvnIs.ite ?_ ?_) | decide | split | unfold id | dsimp only

theorem svn_dataArrived x0 x1 x2 s (h : SvnIs q s) : SvnIs q (dataArrived x0 x1 x2 s) :=
  .via (frame_dataArrived _ _ _ _ (m := 0x38080) .refl rfl) rfl h

theorem svn_finishDw x0 x1 x2 x3 s (h : SvnIs q s) : SvnIs q (finishDw x0 x1 x2 x3 s) :=
  .via (frame_finishDw _ _ _ _ _ (m := 0x18080) .refl rfl) rfl h

theorem svn_putSlot x0 s (h : SvnIs q s) : SvnIs q (putSlot x0 s) := by
  unfold putSlot
  repeat' first | (with_reducible first | assumption | intro _ | refine svn_State_modSec _ _ ?_ ?_ | refine SvnIs.ite ?_ ?_) | ((with_reducible refine (?_ : Sec.svnIs _ _)); exact svn_same rfl (by assumption)) | decide | split | unfold id | dsimp only

theorem svn_newKey x0 x1 x2 x3 s (h : SvnIs q s) : SvnIs q (newKey x0 x1 x2 x3 s) := by
  unfold newKey
  repeat' first | (with_reducible first | assumption | intro _ | refine svn_State_drawn _ ?_ | refine svn_putSlot _ _ ?_ | refine SvnIs.ite ?_ ?_) | ((with_reducible refine (?_ : Sec.svnIs _ _)); exact svn_same rfl (by assumption)) | decide | split | unfold id | dsimp only

theorem svn_setNsKey x0 x1 x2 s (h : SvnIs q s) : SvnIs q (setNsKey x0 x1 x2 s) := by
  unfold setNsKey
  repeat' first | (with_reducible first | assumption | intro _ | refine svn_State_modSec _ _ ?_ ?_ | refine SvnIs.ite ?_ ?_) | ((with_reducible refine (?_ : Sec.svnIs _ _)); exact svn_same rfl (by assumption)) | decide | split | unfold id | dsimp only

theorem svn_storeRecords x0 s (h : SvnIs q s) : SvnIs q (storeRecords x0 s) := by
  unfold storeRecords
  repeat' first | (with_reducible first | assumption | intro _ | refine svn_State_modSec _ _ ?_ ?_ | refine SvnIs.ite ?_ ?_) | ((with_reducible refine (?_ : Sec.svnIs _ _)); exact svn_same rfl (by assumption)) | decide | split | unfold id | dsimp only

theorem svn_zeroSlot x0 s (h : SvnIs q s) : SvnIs q (zeroSlot x0 s) := by
  unfold zeroSlot
  repeat' first | (with_reducible first | assumption | intro _ | refine svn_State_modSec _ _ ?_ ?_ | refine SvnIs.ite ?_ ?_) | ((with_reducible refine (?_ : Sec.svnIs _ _)); exact svn_same rfl (by assumption)) | decide | split | unfold id | dsimp only

theorem svn_replaceKey x0 s (h : SvnIs q s) : SvnIs q (replaceKey x0 s) := by
  unfold replaceKey
  repeat' first | (with_reducible first | assumption | intro _ | refine svn_State_modSec _ _ ?_ ?_ | refine svn_newKey _ _ _ _ _ ?_ | refine svn_setNsKey _ _ _ _ ?_ | refine svn_storeRecords _ _ ?_ | refine svn_zeroSlot _ _ ?_ | refine SvnIs.foldl (fun _ _ _ => ?_) ?_ | refine SvnIs.ite ?_ ?_) | ((with_reducible refine (?_ : Sec.svnIs _ _)); exact svn_same rfl (by assumption)) | decide | split | unfold id | dsimp only

theorem svn_formatDone x0 x1 s (h : SvnIs q s) : SvnIs q (formatDone x0 x1 s) := by
  unfold formatDone
  repeat' first | (with_reducible first | assumption | intro _ | refine svn_State_modHce _ _ ?_ | refine svn_State_modXmt _ _ ?_ | refine svn_replaceKey _ _ ?_ | refine SvnIs.ite ?_ ?_) | decide | split | unfold id | dsimp only

theorem svn_settleOne x0 s (h : SvnIs q s) : SvnIs q (settleOne x0 s) := by
  unfold settleOne
  repeat' first | (with_reducible first | assumption | intro _ | refine svn_finish _ _ _ ?_ | refine svn_finishDw _ _ _ _ _ ?_ | refine svn_formatDone _ _ _ ?_ | refine svn_freeBarrier _ _ ?_ | refine svn_freeTag _ _ ?_ | refine svn_releaseWaiting _ ?_ | refine SvnIs.ite ?_ ?_) | decide | split | unfold id | dsimp only

theorem svn_settle s (h : SvnIs q s) : SvnIs q (settle s) := by
  unfold settle
  repeat' first | (with_reducible first | assumption | intro _ | refine svn_settleOne _ _ ?_ | refine SvnIs.foldl (fun _ _ _ => ?_) ?_ | refine SvnIs.ite ?_ ?_) | decide | split | unfold id | dsimp only

theorem svn_completed x0 s (h : SvnIs q s) : SvnIs q (completed x0 s) := by
  unfold completed
  repeat' first | (with_reducible first | assumption | intro _ | refine svn_State_modCtrl _ _ _ ?_ | refine svn_State_modHce _ _ ?_ | refine svn_State_modPwr _ _ ?_ | refine svn_freeBarrier _ _ ?_ | refine svn_freeTag _ _ ?_ | refine svn_releaseWaiting _ ?_ | refine SvnIs.ite ?_ ?_) | decide | split | unfold id | dsimp only

theorem svn_postCqe x0 x1 x2 s (h : SvnIs q s) : SvnIs q (postCqe x0 x1 x2 s) :=
  .via (frame_postCqe _ _ _ _ (m := 0x8000) .refl rfl) rfl h

theorem svn_withCmd {r : State} tag ops f s (h : SvnIs q s) (k : ∀ c t, SvnIs q t → SvnIs q (f c t)) :
    SvnIs q (after r (withCmd tag ops f s)) := by
  unfold withCmd
  refine SvnIs.next ?_
  split
  · exact .ite (k _ _ h) h
  · exact h

theorem svn_noData x0 s (h : SvnIs q s) : SvnIs q (noData x0 s) := by
  unfold noData
  repeat' first | (with_reducible first | assumption | intro _ | refine svn_finish _ _ _ ?_ | refine svn_modCmd _ _ _ ?_ | refine svn_settle _ ?_ | refine SvnIs.ite ?_ ?_) | decide | split | unfold id | dsimp only

theorem svn_withNs {r : State} tag op f s (h : SvnIs q s) (k : ∀ c n t, SvnIs q t → SvnIs q (f c n t)) :
    SvnIs q (after r (withNs tag op f s)) := by
  unfold withNs
  refine svn_withCmd _ _ _ _ h fun c t ht => ?_
  split
  · exact k _ _ _ ht
  · exact svn_finish _ _ _ ht

theorem svn_modNs x0 x1 s (h : SvnIs q s) : SvnIs q (modNs x0 x1 s) :=
  .via (frame_modNs _ _ _ (m := 0x8000) .refl rfl) rfl h

theorem svn_preempt x0 x1 x2 x3 x4 s (h : SvnIs q s) : SvnIs q (preempt x0 x1 x2 x3 x4 s) := by
  unfold preempt
  repeat' first | (with_reducible first | assumption | intro _ | refine svn_modNs _ _ _ ?_ | refine svn_stopCmd _ _ ?_ | refine SvnIs.foldl (fun _ _ _ => ?_) ?_ | refine SvnIs.ite ?_ ?_) | decide | split | unfold id | dsimp only

theorem svn_nsCreate x0 s (h : SvnIs q s) : SvnIs q (nsCreate x0 s) :=
  .via (frame_nsCreate _ _ (m := 0x38090) .refl rfl) rfl h

theorem svn_dropRun x0 x1 x2 x3 s (h : SvnIs q s) : SvnIs q (dropRun x0 x1 x2 x3 s) :=
  .via (frame_dropRun _ _ _ _ _ (m := 0x20000) .refl rfl) rfl h

theorem svn_freeSlots x0 s (h : SvnIs q s) : SvnIs q (freeSlots x0 s) :=
  .via (frame_freeSlots _ _ (m := 0x20000) .refl rfl) rfl h

theorem svn_journalZone x0 x1 x2 x3 x4 s (h : SvnIs q s) : SvnIs q (journalZone x0 x1 x2 x3 x4 s) :=
  .via (frame_journalZone _ _ _ _ _ _ (m := 0x20000) .refl rfl) rfl h

theorem svn_mapExtent x0 x1 x2 x3 x4 s (h : SvnIs q s) : SvnIs q (mapExtent x0 x1 x2 x3 x4 s) :=
  .via (frame_mapExtent _ _ _ _ _ _ (m := 0x20000) .refl rfl) rfl h

theorem svn_nsFree x0 s (h : SvnIs q s) : SvnIs q (nsFree x0 s) := by
  unfold nsFree
  repeat' first | (with_reducible first | assumption | intro _ | refine svn_State_modSec _ _ ?_ ?_ | refine svn_State_modXmt _ _ ?_ | refine svn_dropRun _ _ _ _ _ ?_ | refine svn_freeSlots _ _ ?_ | refine svn_journalZone _ _ _ _ _ _ ?_ | refine svn_mapExtent _ _ _ _ _ _ ?_ | refine svn_modZone _ _ _ ?_ | refine svn_zeroSlot _ _ ?_ | refine SvnIs.foldl (fun _ _ _ => ?_) ?_ | refine SvnIs.ite ?_ ?_) | ((with_reducible refine (?_ : Sec.svnIs _ _)); exact svn_same rfl (by assumption)) | decide | split | unfold id | dsimp only

theorem svn_nsDelete x0 s (h : SvnIs q s) : SvnIs q (nsDelete x0 s) := by
  unfold nsDelete
  repeat' first | (with_reducible first | assumption | intro _ | refine svn_State_modHce _ _ ?_ | refine svn_finish _ _ _ ?_ | refine svn_nsFree _ _ ?_ | refine SvnIs.foldl (fun _ _ _ => ?_) ?_ | refine SvnIs.ite ?_ ?_) | decide | split | unfold id | dsimp only

theorem svn_activate x0 x1 x2 s (h : SvnIs q s) : SvnIs q (activate x0 x1 x2 s) := by
  unfold activate
  repeat' first | (with_reducible first | assumption | intro _ | refine svn_State_modHce _ _ ?_ | refine svn_State_modSys _ _ ?_ | refine svn_extendMeas _ _ _ ?_ | refine svn_finish _ _ _ ?_ | refine svn_lifBump _ _ _ ?_ | refine SvnIs.ite ?_ ?_) | decide | split | unfold id | dsimp only

theorem svn_sanOver x0 s (h : SvnIs q s) : SvnIs q (sanOver x0 s) :=
  .via (frame_sanOver _ _ (m := 0x78080) .refl rfl) rfl h

theorem svn_sanStart x0 s (h : SvnIs q s) : SvnIs q (sanStart x0 s) :=
  .via (frame_sanStart _ _ (m := 0x78000) .refl rfl) rfl h

theorem svn_sanTables x0 s (h : SvnIs q s) : SvnIs q (sanTables x0 s) :=
  .via (frame_sanTables _ _ (m := 0x20000) .refl rfl) rfl h

theorem svn_withSec {r : State} tag b p f s (h : SvnIs q s) (k : ∀ c t, SvnIs q t → SvnIs q (f c t)) :
    SvnIs q (after r (withSec tag b p f s)) := by
  unfold withSec
  exact svn_withCmd _ _ _ _ h fun c t ht => .ite (k _ _ ht) ht

theorem svn_takeNonce x0 s (h : SvnIs q s) : SvnIs q (takeNonce x0 s) := by
  unfold takeNonce
  repeat' first | (with_reducible first | assumption | intro _ | refine svn_State_modSec _ _ ?_ ?_ | refine SvnIs.ite ?_ ?_) | ((with_reducible refine (?_ : Sec.svnIs _ _)); exact svn_same rfl (by assumption)) | decide | split | unfold id | dsimp only

theorem svn_credentialOf x0 x1 s (h : SvnIs q s) : SvnIs q (credentialOf x0 x1 s).1 := by
  unfold credentialOf
  repeat' first | (with_reducible first | assumption | intro _ | refine svn_State_modSec _ _ ?_ ?_ | refine svn_ev _ _ _ _ _ _ ?_ | refine SvnIs.ite ?_ ?_) | ((with_reducible refine (?_ : Sec.svnIs _ _)); exact svn_same rfl (by assumption)) | decide | split | unfold id | dsimp only

theorem svn_miConfigSet x0 x1 s (h : SvnIs q s) : SvnIs q (miConfigSet x0 x1 s).1 :=
  .via (frame_miConfigSet _ _ _ (m := 0x8000) .refl rfl) rfl h

theorem svn_miFinish x0 x1 x2 s (h : SvnIs q s) : SvnIs q (miFinish x0 x1 x2 s) :=
  .via (frame_miFinish _ _ _ _ (m := 0x18080) .refl rfl) rfl h

theorem svn_miVpdWrite x0 x1 s (h : SvnIs q s) : SvnIs q (miVpdWrite x0 x1 s) :=
  .via (frame_miVpdWrite _ _ _ (m := 0x8000) .refl rfl) rfl h

theorem svn_blockDurable s (h : SvnIs q s) : SvnIs q (blockDurable s) :=
  .via (frame_blockDurable _ (m := 0x20000) .refl rfl) rfl h

theorem svn_logReady s (h : SvnIs q s) : SvnIs q (logReady s) :=
  .via (frame_logReady _ (m := 0x1800030100) .refl rfl) rfl h

theorem svn_settleJournal s (h : SvnIs q s) : SvnIs q (settleJournal s) :=
  .via (frame_settleJournal _ (m := 0x1800072100) .refl rfl) rfl h

theorem svn_startRewrites s (h : SvnIs q s) : SvnIs q (startRewrites s) :=
  .via (frame_startRewrites _ (m := 0x180003A100) .refl rfl) rfl h

theorem svn_mediaPut x0 x1 s (h : SvnIs q s) : SvnIs q (mediaPut x0 x1 s) :=
  .via (frame_mediaPut _ _ _ (m := 0x20000) .refl rfl) rfl h

theorem svn_modEntry x0 x1 s (h : SvnIs q s) : SvnIs q (modEntry x0 x1 s) :=
  .via (frame_modEntry _ _ _ (m := 0x10000) .refl rfl) rfl h

theorem svn_putRun x0 x1 x2 x3 s (h : SvnIs q s) : SvnIs q (putRun x0 x1 x2 x3 s) :=
  .via (frame_putRun _ _ _ _ _ (m := 0x1800020100) .refl rfl) rfl h

theorem svn_writeRepair x0 x1 x2 s (h : SvnIs q s) : SvnIs q (writeRepair x0 x1 x2 s) := by
  unfold writeRepair
  repeat' first | (with_reducible first | assumption | intro _ | refine svn_addUse _ _ _ ?_ | refine svn_mediaPut _ _ _ ?_ | refine svn_putRun _ _ _ _ _ ?_ | refine svn_releaseReader _ _ ?_ | refine SvnIs.ite ?_ ?_) | ((with_reducible refine (?_ : Sec.svnIs _ _)); exact svn_same rfl (by assumption)) | decide | split | unfold id | dsimp only

theorem svn_writeCopy x0 x1 x2 s (h : SvnIs q s) : SvnIs q (writeCopy x0 x1 x2 s) := by
  unfold writeCopy
  repeat' first | (with_reducible first | assumption | intro _ | refine svn_addUse _ _ _ ?_ | refine svn_mediaPut _ _ _ ?_ | refine svn_modEntry _ _ _ ?_ | refine svn_writeRepair _ _ _ _ ?_ | refine SvnIs.foldl (fun _ _ _ => ?_) ?_ | refine SvnIs.ite ?_ ?_) | decide | split | unfold id | dsimp only

theorem svn_journalBlock x0 s (h : SvnIs q s) : SvnIs q (journalBlock x0 s) := by
  unfold journalBlock
  repeat' first | (with_reducible first | assumption | intro _ | refine svn_blockDurable _ ?_ | refine svn_logReady _ ?_ | refine svn_settleJournal _ ?_ | refine svn_startRewrites _ ?_ | refine svn_writeCopy _ _ _ _ ?_ | refine SvnIs.foldl (fun _ _ _ => ?_) ?_ | refine SvnIs.ite ?_ ?_) | decide | split | unfold id | dsimp only

theorem svn_sanSettle s (h : SvnIs q s) : SvnIs q (sanSettle s) :=
  .via (frame_sanSettle _ (m := 0x78080) .refl rfl) rfl h

theorem svn_migCommit x0 x1 s (h : SvnIs q s) : SvnIs q (migCommit x0 x1 s) :=
  .via (frame_migCommit _ _ _ (m := 0x30000) .refl rfl) rfl h

theorem svn_migFill x0 x1 x2 s (h : SvnIs q s) : SvnIs q (migFill x0 x1 x2 s) := by
  unfold migFill
  repeat' first | (with_reducible first | assumption | intro _ | refine svn_addUse _ _ _ ?_ | refine svn_mediaPut _ _ _ ?_ | refine SvnIs.foldl (fun _ _ _ => ?_) ?_ | refine SvnIs.ite ?_ ?_) | ((with_reducible refine (?_ : Sec.svnIs _ _)); exact svn_same rfl (by assumption)) | decide | split | unfold id | dsimp only

theorem svn_migVoid x0 s (h : SvnIs q s) : SvnIs q (migVoid x0 s) :=
  .via (frame_migVoid _ _ (m := 0x1800030100) .refl rfl) rfl h

theorem svn_migVerified x0 x1 x2 s (h : SvnIs q s) : SvnIs q (migVerified x0 x1 x2 s) := by
  unfold migVerified
  repeat' first | (with_reducible first | assumption | intro _ | refine svn_migCommit _ _ _ ?_ | refine svn_migFill _ _ _ _ ?_ | refine svn_migVoid _ _ ?_ | refine SvnIs.ite ?_ ?_) | decide | split | unfold id | dsimp only

theorem svn_commitDurable s (h : SvnIs q s) : SvnIs q (commitDurable s) :=
  .via (frame_commitDurable _ (m := 0x180007E300) .refl rfl) rfl h

theorem svn_ownZoneChange x0 x1 s (h : SvnIs q s) : SvnIs q (ownZoneChange x0 x1 s) :=
  .via (frame_ownZoneChange _ _ _ (m := 0x1800038180) .refl rfl) rfl h

theorem svn_rekeyFormats s (h : SvnIs q s) : SvnIs q (rekeyFormats s) := by
  unfold rekeyFormats
  repeat' first | (with_reducible first | assumption | intro _ | refine svn_State_modXmt _ _ ?_ | refine svn_replaceKey _ _ ?_ | refine SvnIs.foldl (fun _ _ _ => ?_) ?_ | refine SvnIs.ite ?_ ?_) | decide | split | unfold id | dsimp only

theorem svn_restartRecovery x0 x1 s (h : SvnIs q s) : SvnIs q (restartRecovery x0 x1 s) :=
  .via (frame_restartRecovery _ _ _ (m := 0x180007E100) .refl rfl) rfl h

theorem svn_mailbox {r : State} n f s (h : SvnIs q s) (k : ∀ t, SvnIs q t → SvnIs q (f t)) :
    SvnIs q (after r (mailbox n f s)) := by
  unfold mailbox
  refine SvnIs.next (.ite (k _ (svn_setFld _ _ _ _ _ _ _ ?_)) h)
  exact svn_State_modSec _ _ h (fun _ h => h)

theorem svn_answer x0 x1 x2 s (h : SvnIs q s) : SvnIs q (answer x0 x1 x2 s) := by
  unfold answer
  repeat' first | (with_reducible first | assumption | intro _ | refine svn_State_modSec _ _ ?_ ?_ | refine svn_ev _ _ _ _ _ _ ?_ | refine SvnIs.ite ?_ ?_) | ((with_reducible refine (?_ : Sec.svnIs _ _)); exact svn_same rfl (by assumption)) | decide | split | unfold id | dsimp only

theorem svn_armCst x0 s (h : SvnIs q s) : SvnIs q (armCst x0 s) :=
  .via (frame_armCst _ _ (m := 0x1800182100) .refl rfl) rfl h

theorem svn_loadImage x0 s (h : SvnIs q s) : SvnIs q (loadImage x0 s) :=
  .via (frame_loadImage _ _ (m := 0x80000) .refl rfl) rfl h

theorem svn_releaseHolds s (h : SvnIs q s) : SvnIs q (releaseHolds s) :=
  .via (frame_releaseHolds _ (m := 0x100000) .refl rfl) rfl h

theorem svn_retractEnd x0 s (h : SvnIs q s) : SvnIs q (retractEnd x0 s) :=
  .via (frame_retractEnd _ _ (m := 0x7801000B12) .refl rfl) rfl h

theorem svn_programFuses s (h : SvnIs q s) : SvnIs q (programFuses s) :=
  .via (frame_programFuses _ (m := 0x1800000180) .refl rfl) rfl h

theorem svn_secWrite x0 x1 x2 s (h : SvnIs q s) : SvnIs q (secWrite x0 x1 x2 s) :=
  .via (frame_secWrite _ _ _ _ (m := 0x18600031A0) .refl rfl) rfl h

theorem svn_respond x0 x1 x2 s (h : SvnIs q s) : SvnIs q (respond x0 x1 x2 s) := by
  unfold respond
  repeat' first | (with_reducible first | assumption | intro _ | refine svn_answer _ _ _ _ ?_ | refine svn_secWrite _ _ _ _ ?_ | refine SvnIs.ite ?_ ?_) | ((with_reducible refine (?_ : Sec.svnIs _ _)); exact svn_same rfl (by assumption)) | decide | split | unfold id | dsimp only

theorem svn_respondFree x0 s (h : SvnIs q s) : SvnIs q (respondFree x0 s) := by
  unfold respondFree
  repeat' first | (with_reducible first | assumption | intro _ | refine svn_State_drawn _ ?_ | refine svn_respond _ _ _ _ ?_ | refine SvnIs.ite ?_ ?_) | decide | split | unfold id | dsimp only

theorem svn_respondRecords x0 x1 s (h : SvnIs q s) : SvnIs q (respondRecords x0 x1 s) := by
  unfold respondRecords
  repeat' first | (with_reducible first | assumption | intro _ | refine svn_respond _ _ _ _ ?_ | refine SvnIs.ite ?_ ?_) | decide | split | unfold id | dsimp only

theorem svn_faultDecision x0 x1 s (h : SvnIs q s) : SvnIs q (faultDecision x0 x1 s) :=
  .via (frame_faultDecision _ _ _ (m := 0x1A0CB22180) .refl rfl) rfl h

theorem svn_snuffAct x0 s (h : SvnIs q s) : SvnIs q (snuffAct x0 s) := by
  unfold snuffAct
  repeat' first | (with_reducible first | assumption | intro _ | refine svn_dropLinks _ ?_ | refine svn_faultDecision _ _ _ ?_ | refine svn_noteWake _ _ ?_ | refine svn_setIrqStat _ _ _ _ ?_ | refine svn_zeroKst _ ?_ | refine SvnIs.foldl (fun _ _ _ => ?_) ?_ | refine SvnIs.ite ?_ ?_) | decide | split | unfold id | dsimp only

theorem svn_snuff1 x0 s (h : SvnIs q s) : SvnIs q (snuff1 x0 s) := by
  unfold snuff1
  repeat' first | (with_reducible first | assumption | intro _ | refine svn_State_modSec _ _ ?_ ?_ | refine svn_snuffAct _ _ ?_ | refine SvnIs.ite ?_ ?_) | ((with_reducible refine (?_ : Sec.svnIs _ _)); exact svn_same rfl (by assumption)) | decide | split | unfold id | dsimp only

theorem svn_wakeNoted s (h : SvnIs q s) : SvnIs q (wakeNoted s) := by
  unfold wakeNoted
  repeat' first | (with_reducible first | assumption | intro _ | refine svn_State_drawn _ ?_ | refine svn_wakeAct _ _ _ ?_ | refine SvnIs.ite ?_ ?_) | decide | split | unfold id | dsimp only

theorem svn_guarantee x0 x1 x2 x3 x4 x5 s (h : SvnIs q s) : SvnIs q (guarantee x0 x1 x2 x3 x4 x5 s) :=
  .via (frame_guarantee _ _ _ _ _ _ _ (m := 0x1800000100) .refl rfl) rfl h

theorem svn_snuff2 x0 s (h : SvnIs q s) : SvnIs q (snuff2 x0 s) := by
  unfold snuff2
  repeat' first | (with_reducible first | assumption | intro _ | refine svn_State_modSec _ _ ?_ ?_ | refine svn_ev _ _ _ _ _ _ ?_ | refine svn_guarantee _ _ _ _ _ _ _ ?_ | refine svn_snuffAct _ _ ?_ | refine SvnIs.foldl (fun _ _ _ => ?_) ?_ | refine SvnIs.ite ?_ ?_) | ((with_reducible refine (?_ : Sec.svnIs _ _)); exact svn_same rfl (by assumption)) | decide | split | unfold id | dsimp only

theorem svn_blowAlarm x0 s (h : SvnIs q s) : SvnIs q (blowAlarm x0 s) := by
  unfold blowAlarm
  repeat' first | (with_reducible first | assumption | intro _ | refine svn_State_modSec _ _ ?_ ?_ | refine svn_ev _ _ _ _ _ _ ?_ | refine svn_programFuses _ ?_ | refine svn_snuff2 _ _ ?_ | refine SvnIs.ite ?_ ?_) | ((with_reducible refine (?_ : Sec.svnIs _ _)); exact svn_same rfl (by assumption)) | decide | split | unfold id | dsimp only

theorem svn_advanceTo x0 s (h : SvnIs q s) : SvnIs q (advanceTo x0 s) :=
  .via (frame_advanceTo _ _ (m := 0x7800000B12) .refl rfl) rfl h

theorem svn_startQuiet s (h : SvnIs q s) : SvnIs q (startQuiet s) :=
  .via (frame_startQuiet _ (m := 0x5800000100) .refl rfl) rfl h

theorem svn_unwrapRec x0 s (h : SvnIs q s) : SvnIs q (unwrapRec x0 s) := by
  unfold unwrapRec
  repeat' first | (with_reducible first | assumption | intro _ | refine svn_ev _ _ _ _ _ _ ?_ | refine svn_putSlot _ _ ?_ | refine SvnIs.ite ?_ ?_) | ((with_reducible refine (?_ : Sec.svnIs _ _)); exact svn_same rfl (by assumption)) | decide | split | unfold id | dsimp only

theorem svn_debugAnswer x0 x1 x2 x3 s (h : SvnIs q s) : SvnIs q (debugAnswer x0 x1 x2 x3 s) := by
  unfold debugAnswer
  repeat' first | (with_reducible first | assumption | intro _ | refine svn_State_modSec _ _ ?_ ?_ | refine svn_State_modSys _ _ ?_ | refine svn_dropLinks _ ?_ | refine svn_ev _ _ _ _ _ _ ?_ | refine svn_extendMeas _ _ _ ?_ | refine svn_snuff2 _ _ ?_ | refine svn_zeroKst _ ?_ | refine SvnIs.ite ?_ ?_) | ((with_reducible refine (?_ : Sec.svnIs _ _)); exact svn_same rfl (by assumption)) | decide | split | unfold id | dsimp only

theorem svn_criticalDark s (h : SvnIs q s) : SvnIs q (criticalDark s) := by
  unfold criticalDark
  repeat' first | (with_reducible first | assumption | intro _ | refine svn_darkEntry _ _ _ ?_ | refine svn_ev _ _ _ _ _ _ ?_ | refine SvnIs.ite ?_ ?_) | decide | split | unfold id | dsimp only

theorem svn_State_modThm x0 s (h : SvnIs q s) : SvnIs q (State.modThm x0 s) :=
  .via (frame_State_modThm _ _ (m := 0x100000000) .refl rfl) rfl h

theorem svn_sendReply s (h : SvnIs q s) : SvnIs q (sendReply s) :=
  .via (frame_sendReply _ (m := 0x4000002000) .refl rfl) rfl h

theorem svn_takeLease x0 x1 s (h : SvnIs q s) : SvnIs q (takeLease x0 x1 s) :=
  .via (frame_takeLease _ _ _ (m := 0x5800006100) .refl rfl) rfl h

theorem svn_takePollItem s x1 (h : SvnIs q s) : SvnIs q (takePollItem s x1) := by
  unfold takePollItem
  repeat' first | (with_reducible first | assumption | intro _ | refine svn_State_modVlk _ _ ?_ | refine svn_takeLease _ _ _ ?_ | refine svn_takeNonce _ _ ?_ | refine SvnIs.ite ?_ ?_) | ((with_reducible refine (?_ : Sec.svnIs _ _)); exact svn_same rfl (by assumption)) | decide | split | unfold id | dsimp only

theorem svn_notePolarity x0 x1 s (h : SvnIs q s) : SvnIs q (notePolarity x0 x1 s) :=
  .via (frame_notePolarity _ _ _ (m := 0x5800000100) .refl rfl) rfl h

theorem svn_vlkBump x0 s (h : SvnIs q s) : SvnIs q (vlkBump x0 s) :=
  .via (frame_vlkBump _ _ (m := 0x4000002000) .refl rfl) rfl h

theorem svn_vlkReceive x0 x1 x2 x3 x4 x5 x6 s (h : SvnIs q s) (k : ∀ t, SvnIs q t → SvnIs q (x5 t))
    (k' : ∀ t, SvnIs q t → SvnIs q (x6 t)) : SvnIs q (vlkReceive x0 x1 x2 x3 x4 x5 x6 s) := by
  unfold vlkReceive
  repeat' first | (with_reducible first | assumption | intro _ | refine svn_notePolarity _ _ _ ?_ | refine svn_vlkBump _ _ ?_ | refine svn_State_modVlk _ _ ?_ | refine SvnIs.ite ?_ ?_) | apply k | apply k' | decide | split | unfold id | dsimp only

theorem svn_upLink x0 x1 s (h : SvnIs q s) (k : ∀ t, SvnIs q t → SvnIs q (x1 t)) : SvnIs q (upLink x0 x1 s) := by
  unfold upLink
  exact svn_vlkReceive _ _ _ _ _ _ _ _ h (fun t ht => ht) fun t ht => k _ (svn_State_modVlk _ _ ht)

theorem svn_criticalLimit x0 x1 s (h : SvnIs q s) : SvnIs q (criticalLimit x0 x1 s) :=
  .via (frame_criticalLimit _ _ _ (m := 0x1B1DB7E380) .refl rfl) rfl h

theorem svn_autonomousPs s (h : SvnIs q s) : SvnIs q (autonomousPs s) :=
  .via (frame_autonomousPs _ (m := 0x186001B9A0) .refl rfl) rfl h

theorem svn_backgroundErase s (h : SvnIs q s) : SvnIs q (backgroundErase s) :=
  .via (frame_backgroundErase _ (m := 0x42000) .refl rfl) rfl h

theorem svn_idle s (h : SvnIs q s) : SvnIs q (idle s) := by
  unfold idle
  repeat' first | (with_reducible first | assumption | intro _ | refine svn_autonomousPs _ ?_ | refine svn_backgroundErase _ ?_ | refine svn_elapse _ _ ?_ | refine svn_wakeNoted _ ?_ | refine SvnIs.ite ?_ ?_) | decide | split | unfold id | dsimp only

theorem svn_execRegWrite x0 x1 x2 s (h : SvnIs q s) : SvnIs q (after s (execRegWrite x0 x1 x2 s)) := by
  unfold execRegWrite
  try with_reducible refine SvnIs.next ?_
  repeat' first | (with_reducible first | assumption | intro _ | refine svn_busOp _ _ _ _ _ _ ?_ | refine svn_csrWrite _ _ _ _ ?_ | refine svn_dmaError _ _ ?_ | refine SvnIs.ite ?_ ?_) | decide | split | unfold id | dsimp only

theorem svn_execBusAccess x0 x1 x2 x3 x4 s (h : SvnIs q s) : SvnIs q (after s (execBusAccess x0 x1 x2 x3 x4 s)) := by
  unfold execBusAccess
  try with_reducible refine SvnIs.next ?_
  repeat' first | (with_reducible first | assumption | intro _ | refine svn_busOp _ _ _ _ _ _ ?_ | refine svn_dmaError _ _ ?_ | refine SvnIs.ite ?_ ?_) | decide | split | unfold id | dsimp only

theorem svn_execSoftReset x0 x1 s (h : SvnIs q s) : SvnIs q (after s (execSoftReset x0 x1 s)) := by
  unfold execSoftReset
  try with_reducible refine SvnIs.next ?_
  repeat' first | (with_reducible first | assumption | intro _ | refine svn_hdrAccess _ _ _ _ ?_ ?_ | refine svn_softReset _ _ _ _ ?_ | refine SvnIs.ite ?_ ?_) | decide | split | unfold id | dsimp only

theorem svn_execPor s (h : SvnIs q s) : SvnIs q (after s (execPor s)) := by
  unfold execPor
  try with_reducible refine SvnIs.next ?_
  repeat' first | (with_reducible first | assumption | intro _ | refine svn_wickReset _ _ ?_ | refine SvnIs.ite ?_ ?_) | decide | split | unfold id | dsimp only

theorem svn_execMainRailsGood x0 x1 s (h : SvnIs q s) : SvnIs q (after s (execMainRailsGood x0 x1 s)) := by
  unfold execMainRailsGood
  try with_reducible refine SvnIs.next ?_
  repeat' first | (with_reducible first | assumption | intro _ | refine svn_State_drawn _ ?_ | refine svn_State_modSec _ _ ?_ ?_ | refine svn_State_modSys _ _ ?_ | refine svn_elapse _ _ ?_ | refine svn_ev _ _ _ _ _ _ ?_ | refine svn_startCore _ _ ?_ | refine svn_wakeRecord _ _ _ ?_ | refine SvnIs.ite ?_ ?_) | ((with_reducible refine (?_ : Sec.svnIs _ _)); exact svn_same rfl (by assumption)) | fail_if_no_progress (with_reducible refine SvnIs.set_sup ?_) | decide | split | unfold id | dsimp only

theorem svn_execRailFault x0 s (h : SvnIs q s) : SvnIs q (after s (execRailFault x0 s)) := by
  unfold execRailFault
  try with_reducible refine SvnIs.next ?_
  repeat' first | (with_reducible first | assumption | intro _ | refine svn_State_modPwr _ _ ?_ | refine svn_State_modSys _ _ ?_ | refine svn_darkEntry _ _ _ ?_ | refine svn_ev _ _ _ _ _ _ ?_ | refine svn_lossStart _ ?_ | refine svn_raiseLine _ _ ?_ | refine SvnIs.ite ?_ ?_) | fail_if_no_progress (with_reducible refine SvnIs.set_sup ?_) | decide | split | unfold id | dsimp only

theorem svn_execUartRecoveryImage x0 s (h : SvnIs q s) : SvnIs q (after s (execUartRecoveryImage x0 s)) := by
  unfold execUartRecoveryImage
  try with_reducible refine SvnIs.next ?_
  repeat' first | (with_reducible first | assumption | intro _ | refine svn_startImage _ _ _ ?_ | refine SvnIs.ite ?_ ?_) | decide | split | unfold id | dsimp only

theorem svn_execPerstAssert x0 s (h : SvnIs q s) : SvnIs q (after s (execPerstAssert x0 s)) := by
  unfold execPerstAssert
  try with_reducible refine SvnIs.next ?_
  repeat' first | (with_reducible first | assumption | intro _ | refine svn_State_modCtrl _ _ _ ?_ | refine svn_perstAction _ _ ?_ | refine SvnIs.ite ?_ ?_) | decide | split | unfold id | dsimp only

theorem svn_execControllerReset x0 s (h : SvnIs q s) : SvnIs q (after s (execControllerReset x0 s)) := by
  unfold execControllerReset
  try with_reducible refine SvnIs.next ?_
  repeat' first | (with_reducible first | assumption | intro _ | refine svn_stopController _ _ _ ?_ | refine SvnIs.ite ?_ ?_) | decide | split | unfold id | dsimp only

theorem svn_execFunctionLevelReset x0 s (h : SvnIs q s) : SvnIs q (after s (execFunctionLevelReset x0 s)) := by
  unfold execFunctionLevelReset
  try with_reducible refine SvnIs.next ?_
  repeat' first | (with_reducible first | assumption | intro _ | refine svn_linkReset _ _ _ ?_ | refine SvnIs.ite ?_ ?_) | decide | split | unfold id | dsimp only

theorem svn_execLinkDown x0 s (h : SvnIs q s) : SvnIs q (after s (execLinkDown x0 s)) := by
  unfold execLinkDown
  try with_reducible refine SvnIs.next ?_
  repeat' first | (with_reducible first | assumption | intro _ | refine svn_linkReset _ _ _ ?_ | refine SvnIs.ite ?_ ?_) | decide | split | unfold id | dsimp only

theorem svn_execNamespaceReady x0 s (h : SvnIs q s) : SvnIs q (after s (execNamespaceReady x0 s)) := by
  unfold execNamespaceReady
  try with_reducible refine SvnIs.next ?_
  repeat' first | (with_reducible first | assumption | intro _ | refine svn_State_modHce _ _ ?_ | refine svn_deallocWiped _ _ ?_ | refine SvnIs.ite ?_ ?_) | decide | split | unfold id | dsimp only

theorem svn_execCoreDomainHold x0 s (h : SvnIs q s) : SvnIs q (after s (execCoreDomainHold x0 s)) := by
  unfold execCoreDomainHold
  try with_reducible refine SvnIs.next ?_
  repeat' first | (with_reducible first | assumption | intro _ | refine svn_State_modSys _ _ ?_ | refine svn_abandonCommit _ ?_ | refine svn_coreReset _ ?_ | refine SvnIs.ite ?_ ?_) | decide | split | unfold id | dsimp only

theorem svn_execResetNRelease x0 s (h : SvnIs q s) : SvnIs q (after s (execResetNRelease x0 s)) := by
  unfold execResetNRelease
  try with_reducible refine SvnIs.next ?_
  repeat' first | (with_reducible first | assumption | intro _ | refine svn_State_modSys _ _ ?_ | refine svn_coldStart _ _ ?_ | refine SvnIs.ite ?_ ?_) | decide | split | unfold id | dsimp only

theorem svn_execNvmSubsystemReset x0 x1 s (h : SvnIs q s) : SvnIs q (after s (execNvmSubsystemReset x0 x1 s)) := by
  unfold execNvmSubsystemReset
  try with_reducible refine SvnIs.next ?_
  repeat' first | (with_reducible first | assumption | intro _ | refine svn_subsystemReset _ ?_ | refine SvnIs.ite ?_ ?_) | decide | split | unfold id | dsimp only

theorem svn_execPowerLoss s (h : SvnIs q s) : SvnIs q (after s (execPowerLoss s)) := by
  unfold execPowerLoss
  try with_reducible refine SvnIs.next ?_
  repeat' first | (with_reducible first | assumption | intro _ | refine svn_elapse _ _ ?_ | refine svn_lossStart _ ?_ | refine SvnIs.ite ?_ ?_) | decide | split | unfold id | dsimp only

theorem svn_execPowerStateEntered s (h : SvnIs q s) : SvnIs q (after s (execPowerStateEntered s)) := by
  unfold execPowerStateEntered
  try with_reducible refine SvnIs.next ?_
  repeat' first | (with_reducible first | assumption | intro _ | refine svn_powerEntered _ ?_ | refine SvnIs.ite ?_ ?_) | decide | split | unfold id | dsimp only

theorem svn_execWakeSource x0 x1 x2 s (h : SvnIs q s) : SvnIs q (after s (execWakeSource x0 x1 x2 s)) := by
  unfold execWakeSource
  try with_reducible refine SvnIs.next ?_
  repeat' first | (with_reducible first | assumption | intro _ | refine svn_noteWake _ _ ?_ | refine svn_wakeAct _ _ _ ?_ | refine SvnIs.ite ?_ ?_) | decide | split | unfold id | dsimp only

theorem svn_execCommandFetch x0 s (h : SvnIs q s) : SvnIs q (after s (execCommandFetch x0 s)) := by
  unfold execCommandFetch
  try with_reducible refine SvnIs.next ?_
  repeat' first | (with_reducible first | assumption | intro _ | refine svn_checkPause _ ?_ | refine svn_enterCmd _ _ _ _ _ _ ?_ | refine svn_fetchNext _ _ ?_ | refine SvnIs.ite ?_ ?_) | decide | split | unfold id | dsimp only

theorem svn_execDataTransferComplete x0 s (h : SvnIs q s) : SvnIs q (after s (execDataTransferComplete x0 s)) := by
  unfold execDataTransferComplete
  try with_reducible refine SvnIs.next ?_
  repeat' first | (with_reducible first | assumption | intro _ | refine svn_dataArrived _ _ _ _ ?_ | refine svn_settle _ ?_ | refine SvnIs.ite ?_ ?_) | decide | split | unfold id | dsimp only

theorem svn_execCompletionPost x0 s (h : SvnIs q s) : SvnIs q (after s (execCompletionPost x0 s)) := by
  unfold execCompletionPost
  try with_reducible refine SvnIs.next ?_
  repeat' first | (with_reducible first | assumption | intro _ | refine svn_State_modHce _ _ ?_ | refine svn_completed _ _ ?_ | refine svn_postCqe _ _ _ _ ?_ | refine SvnIs.ite ?_ ?_) | decide | split | unfold id | dsimp only

theorem svn_execAbortMatch x0 x1 s (h : SvnIs q s) : SvnIs q (after s (execAbortMatch x0 x1 s)) := by
  unfold execAbortMatch
  try with_reducible refine SvnIs.next ?_
  repeat' first | (with_reducible first | assumption | intro _ | refine svn_access _ _ _ _ _ ?_ ?_ | refine svn_writeAbortReq _ _ ?_ | refine SvnIs.ite ?_ ?_) | decide | split | unfold id | dsimp only

theorem svn_execWriteUncorrectable x0 s (h : SvnIs q s) : SvnIs q (after s (execWriteUncorrectable x0 s)) := by
  unfold execWriteUncorrectable
  try with_reducible refine SvnIs.next ?_
  repeat' first | (with_reducible first | assumption | intro _ | refine svn_withCmd _ _ _ _ ?_ ?_ | refine svn_noData _ _ ?_ | refine SvnIs.ite ?_ ?_) | decide | split | unfold id | dsimp only

theorem svn_execWriteZeroes x0 s (h : SvnIs q s) : SvnIs q (after s (execWriteZeroes x0 s)) := by
  unfold execWriteZeroes
  try with_reducible refine SvnIs.next ?_
  repeat' first | (with_reducible first | assumption | intro _ | refine svn_withCmd _ _ _ _ ?_ ?_ | refine svn_noData _ _ ?_ | refine SvnIs.ite ?_ ?_) | decide | split | unfold id | dsimp only

theorem svn_execDatasetManagement x0 s (h : SvnIs q s) : SvnIs q (after s (execDatasetManagement x0 s)) := by
  unfold execDatasetManagement
  try with_reducible refine SvnIs.next ?_
  repeat' first | (with_reducible first | assumption | intro _ | refine svn_withCmd _ _ _ _ ?_ ?_ | refine svn_noData _ _ ?_ | refine SvnIs.ite ?_ ?_) | decide | split | unfold id | dsimp only

theorem svn_execReservationAcquire x0 s (h : SvnIs q s) : SvnIs q (after s (execReservationAcquire x0 s)) := by
  unfold execReservationAcquire
  try with_reducible refine SvnIs.next ?_
  repeat' first | (with_reducible first | assumption | intro _ | refine svn_withNs _ _ _ _ ?_ ?_ | refine svn_finish _ _ _ ?_ | refine svn_modNs _ _ _ ?_ | refine svn_preempt _ _ _ _ _ _ ?_ | refine SvnIs.ite ?_ ?_) | decide | split | unfold id | dsimp only

theorem svn_execAbort x0 s (h : SvnIs q s) : SvnIs q (after s (execAbort x0 s)) := by
  unfold execAbort
  try with_reducible refine SvnIs.next ?_
  repeat' first | (with_reducible first | assumption | intro _ | refine svn_withCmd _ _ _ _ ?_ ?_ | refine svn_finishDw _ _ _ _ _ ?_ | refine svn_matchCmd _ _ _ _ ?_ | refine SvnIs.ite ?_ ?_) | decide | split | unfold id | dsimp only

theorem svn_execNamespaceManagement x0 s (h : SvnIs q s) : SvnIs q (after s (execNamespaceManagement x0 s)) := by
  unfold execNamespaceManagement
  try with_reducible refine SvnIs.next ?_
  repeat' first | (with_reducible first | assumption | intro _ | refine svn_withCmd _ _ _ _ ?_ ?_ | refine svn_finish _ _ _ ?_ | refine svn_nsCreate _ _ ?_ | refine svn_nsDelete _ _ ?_ | refine SvnIs.ite ?_ ?_) | decide | split | unfold id | dsimp only

theorem svn_execFirmwareActivation x0 x1 s (h : SvnIs q s) : SvnIs q (after s (execFirmwareActivation x0 x1 s)) := by
  unfold execFirmwareActivation
  try with_reducible refine SvnIs.next ?_
  repeat' first | (with_reducible first | assumption | intro _ | refine svn_withCmd _ _ _ _ ?_ ?_ | refine svn_State_modSys _ _ ?_ | refine svn_activate _ _ _ _ ?_ | refine svn_finish _ _ _ ?_ | refine SvnIs.ite ?_ ?_) | decide | split | unfold id | dsimp only

theorem svn_execSanitizeCryptoErase x0 s (h : SvnIs q s) : SvnIs q (after s (execSanitizeCryptoErase x0 s)) := by
  unfold execSanitizeCryptoErase
  try with_reducible refine SvnIs.next ?_
  repeat' first | (with_reducible first | assumption | intro _ | refine svn_withCmd _ _ _ _ ?_ ?_ | refine svn_finish _ _ _ ?_ | refine svn_replaceKey _ _ ?_ | refine svn_sanOver _ _ ?_ | refine svn_sanStart _ _ ?_ | refine svn_sanTables _ _ ?_ | refine SvnIs.foldl (fun _ _ _ => ?_) ?_ | refine SvnIs.ite ?_ ?_) | decide | split | unfold id | dsimp only

theorem svn_execAttestationNonce x0 s (h : SvnIs q s) : SvnIs q (after s (execAttestationNonce x0 s)) := by
  unfold execAttestationNonce
  try with_reducible refine SvnIs.next ?_
  repeat' first | (with_reducible first | assumption | intro _ | refine svn_withSec _ _ _ _ _ ?_ ?_ | refine svn_finish _ _ _ ?_ | refine svn_takeNonce _ _ ?_ | refine SvnIs.ite ?_ ?_) | ((with_reducible refine (?_ : Sec.svnIs _ _)); exact svn_same rfl (by assumption)) | decide | split | unfold id | dsimp only

theorem svn_execAttestationReportSigned s (h : SvnIs q s) : SvnIs q (after s (execAttestationReportSigned s)) := by
  unfold execAttestationReportSigned
  generalize signedReport = f
  exact SvnIs.next (.ite (svn_State_modSec _ _ h fun _ hc => svn_same rfl hc) h)

theorem svn_execCredential x0 s (h : SvnIs q s) : SvnIs q (after s (execCredential x0 s)) := by
  unfold execCredential
  try with_reducible refine SvnIs.next ?_
  repeat' first | (with_reducible first | assumption | intro _ | refine svn_withSec _ _ _ _ _ ?_ ?_ | refine svn_State_drawn _ ?_ | refine svn_credentialOf _ _ _ ?_ | refine svn_finish _ _ _ ?_ | refine SvnIs.ite ?_ ?_) | ((with_reducible refine (?_ : Sec.svnIs _ _)); exact svn_same rfl (by assumption)) | refine SvnIs.of_eq (congrArg Prod.fst ‹credentialOf _ _ _ = _›) ?_ | decide | split | unfold id | dsimp only

theorem svn_execNvmeMiSend x0 s (h : SvnIs q s) : SvnIs q (after s (execNvmeMiSend x0 s)) := by
  unfold execNvmeMiSend
  try with_reducible refine SvnIs.next ?_
  repeat' first | (with_reducible first | assumption | intro _ | refine svn_withCmd _ _ _ _ ?_ ?_ | refine svn_miConfigSet _ _ _ ?_ | refine svn_miFinish _ _ _ _ ?_ | refine svn_miVpdWrite _ _ _ ?_ | refine svn_subsystemReset _ ?_ | refine SvnIs.ite ?_ ?_) | refine SvnIs.of_eq (congrArg Prod.fst ‹miConfigSet _ _ _ = _›) ?_ | decide | split | unfold id | dsimp only

theorem svn_execMiReset s (h : SvnIs q s) : SvnIs q (after s (execMiReset s)) := by
  unfold execMiReset
  try with_reducible refine SvnIs.next ?_
  repeat' first | (with_reducible first | assumption | intro _ | refine svn_subsystemReset _ ?_ | refine SvnIs.ite ?_ ?_) | decide | split | unfold id | dsimp only

theorem svn_execJournalBlockDurable x0 s (h : SvnIs q s) : SvnIs q (after s (execJournalBlockDurable x0 s)) := by
  unfold execJournalBlockDurable
  try with_reducible refine SvnIs.next ?_
  repeat' first | (with_reducible first | assumption | intro _ | refine svn_journalBlock _ _ ?_ | refine svn_sanSettle _ ?_ | refine svn_settle _ ?_ | refine SvnIs.ite ?_ ?_) | decide | split | unfold id | dsimp only

theorem svn_execMigrationCopyVerified x0 x1 x2 s (h : SvnIs q s) : SvnIs q (after s (execMigrationCopyVerified x0 x1 x2 s)) := by
  unfold execMigrationCopyVerified
  try with_reducible refine SvnIs.next ?_
  repeat' first | (with_reducible first | assumption | intro _ | refine svn_migVerified _ _ _ _ ?_ | refine SvnIs.ite ?_ ?_) | decide | split | unfold id | dsimp only

theorem svn_execCommitRecordDurable s (h : SvnIs q s) : SvnIs q (after s (execCommitRecordDurable s)) := by
  unfold execCommitRecordDurable
  try with_reducible refine SvnIs.next ?_
  repeat' first | (with_reducible first | assumption | intro _ | refine svn_commitDurable _ ?_ | refine svn_lossEnd _ ?_ | refine SvnIs.ite ?_ ?_) | decide | split | unfold id | dsimp only

theorem svn_execRestartRecovery x0 x1 s (h : SvnIs q s) : SvnIs q (after s (execRestartRecovery x0 x1 s)) := by
  unfold execRestartRecovery
  try with_reducible refine SvnIs.next ?_
  repeat' first | (with_reducible first | assumption | intro _ | refine svn_ownZoneChange _ _ _ ?_ | refine svn_rekeyFormats _ ?_ | refine svn_restartRecovery _ _ _ ?_ | refine SvnIs.foldl (fun _ _ _ => ?_) ?_ | refine SvnIs.ite ?_ ?_) | decide | split | unfold id | dsimp only

theorem svn_execTaskCommit x0 x1 s (h : SvnIs q s) : SvnIs q (after s (execTaskCommit x0 x1 s)) := by
  unfold execTaskCommit
  try with_reducible refine SvnIs.next ?_
  repeat' first | (with_reducible first | assumption | intro _ | refine svn_access _ _ _ _ _ ?_ ?_ | refine svn_writePcmd _ _ _ ?_ | refine SvnIs.ite ?_ ?_) | decide | split | unfold id | dsimp only

theorem svn_execTaskCancel x0 x1 s (h : SvnIs q s) : SvnIs q (after s (execTaskCancel x0 x1 s)) := by
  unfold execTaskCancel
  try with_reducible refine SvnIs.next ?_
  repeat' first | (with_reducible first | assumption | intro _ | refine svn_access _ _ _ _ _ ?_ ?_ | refine svn_writePcmd _ _ _ ?_ | refine SvnIs.ite ?_ ?_) | decide | split | unfold id | dsimp only

theorem svn_execTaskPromotion x0 s (h : SvnIs q s) : SvnIs q (after s (execTaskPromotion x0 s)) := by
  unfold execTaskPromotion
  try with_reducible refine SvnIs.next ?_
  repeat' first | (with_reducible first | assumption | intro _ | refine svn_promote _ _ ?_ | refine SvnIs.ite ?_ ?_) | decide | split | unfold id | dsimp only

theorem svn_execAsqAbort x0 x1 x2 s (h : SvnIs q s) : SvnIs q (after s (execAsqAbort x0 x1 x2 s)) := by
  unfold execAsqAbort
  try with_reducible refine SvnIs.next ?_
  repeat' first | (with_reducible first | assumption | intro _ | refine svn_access _ _ _ _ _ ?_ ?_ | refine svn_writeAbort _ _ _ ?_ | refine SvnIs.ite ?_ ?_) | decide | split | unfold id | dsimp only

theorem svn_execMicrocodeActivate x0 s (h : SvnIs q s) : SvnIs q (after s (execMicrocodeActivate x0 s)) := by
  unfold execMicrocodeActivate
  try with_reducible refine SvnIs.next ?_
  repeat' first | (with_reducible first | assumption | intro _ | refine svn_mailbox _ _ _ ?_ ?_ | refine svn_answer _ _ _ _ ?_ | refine svn_armCst _ _ ?_ | refine svn_ev _ _ _ _ _ _ ?_ | refine SvnIs.ite ?_ ?_) | ((with_reducible refine (?_ : Sec.svnIs _ _)); exact svn_same rfl (by assumption)) | fail_if_no_progress (with_reducible refine SvnIs.set_cst ?_) | decide | split | unfold id | dsimp only

theorem svn_execActivationCopy s (h : SvnIs q s) : SvnIs q (after s (execActivationCopy s)) := by
  unfold execActivationCopy
  try with_reducible refine SvnIs.next ?_
  repeat' first | (with_reducible first | assumption | intro _ | refine svn_ev _ _ _ _ _ _ ?_ | refine svn_extendMeas _ _ _ ?_ | refine svn_loadImage _ _ ?_ | refine svn_releaseHolds _ ?_ | refine SvnIs.ite ?_ ?_) | fail_if_no_progress (with_reducible refine SvnIs.set_cst ?_) | decide | split | unfold id | dsimp only

theorem svn_execRetractEnd x0 s (h : SvnIs q s) : SvnIs q (after s (execRetractEnd x0 s)) := by
  unfold execRetractEnd
  try with_reducible refine SvnIs.next ?_
  repeat' first | (with_reducible first | assumption | intro _ | refine svn_lossEnd _ ?_ | refine svn_retractEnd _ _ ?_ | refine SvnIs.ite ?_ ?_) | decide | split | unfold id | dsimp only

theorem svn_execRepairMapEntry x0 s (h : SvnIs q s) : SvnIs q (after s (execRepairMapEntry x0 s)) := by
  unfold execRepairMapEntry
  try with_reducible refine SvnIs.next ?_
  repeat' first | (with_reducible first | assumption | intro _ | refine svn_mailbox _ _ _ ?_ ?_ | refine svn_State_modSys _ _ ?_ | refine svn_answer _ _ _ _ ?_ | refine svn_ev _ _ _ _ _ _ ?_ | refine svn_programFuses _ ?_ | refine SvnIs.ite ?_ ?_) | decide | split | unfold id | dsimp only

theorem svn_execExtend x0 x1 s (h : SvnIs q s) : SvnIs q (after s (execExtend x0 x1 s)) := by
  unfold execExtend
  try with_reducible refine SvnIs.next ?_
  repeat' first | (with_reducible first | assumption | intro _ | refine svn_mailbox _ _ _ ?_ ?_ | refine svn_answer _ _ _ _ ?_ | refine svn_extendMeas _ _ _ ?_ | refine SvnIs.ite ?_ ?_) | decide | split | unfold id | dsimp only

theorem svn_execKeyGenerate x0 x1 x2 s (h : SvnIs q s) : SvnIs q (after s (execKeyGenerate x0 x1 x2 s)) := by
  unfold execKeyGenerate
  try with_reducible refine SvnIs.next ?_
  repeat' first | (with_reducible first | assumption | intro _ | refine svn_mailbox _ _ _ ?_ ?_ | refine svn_State_modSec _ _ ?_ ?_ | refine svn_answer _ _ _ _ ?_ | refine svn_newKey _ _ _ _ _ ?_ | refine svn_respondFree _ _ ?_ | refine SvnIs.ite ?_ ?_) | ((with_reducible refine (?_ : Sec.svnIs _ _)); exact svn_same rfl (by assumption)) | decide | split | unfold id | dsimp only

theorem svn_execKeyZero x0 s (h : SvnIs q s) : SvnIs q (after s (execKeyZero x0 s)) := by
  unfold execKeyZero
  try with_reducible refine SvnIs.next ?_
  repeat' first | (with_reducible first | assumption | intro _ | refine svn_mailbox _ _ _ ?_ ?_ | refine svn_answer _ _ _ _ ?_ | refine svn_zeroSlot _ _ ?_ | refine SvnIs.ite ?_ ?_) | decide | split | unfold id | dsimp only

theorem svn_execKeyCheckpoint s (h : SvnIs q s) : SvnIs q (after s (execKeyCheckpoint s)) := by
  unfold execKeyCheckpoint
  try with_reducible refine SvnIs.next ?_
  repeat' first | (with_reducible first | assumption | intro _ | refine svn_mailbox _ _ _ ?_ ?_ | refine svn_State_modSec _ _ ?_ ?_ | refine svn_respondRecords _ _ _ ?_ | refine svn_storeRecords _ _ ?_ | refine SvnIs.ite ?_ ?_) | ((with_reducible refine (?_ : Sec.svnIs _ _)); exact svn_same rfl (by assumption)) | decide | split | unfold id | dsimp only

theorem svn_execNsActive x0 x1 x2 s (h : SvnIs q s) : SvnIs q (after s (execNsActive x0 x1 x2 s)) := by
  unfold execNsActive
  try with_reducible refine SvnIs.next ?_
  repeat' first | (with_reducible first | assumption | intro _ | refine svn_mailbox _ _ _ ?_ ?_ | refine svn_answer _ _ _ _ ?_ | refine svn_setNsKey _ _ _ _ ?_ | refine SvnIs.ite ?_ ?_) | decide | split | unfold id | dsimp only

theorem svn_execTakeOwnership x0 s (h : SvnIs q s) : SvnIs q (after s (execTakeOwnership x0 s)) := by
  unfold execTakeOwnership
  try with_reducible refine SvnIs.next ?_
  repeat' first | (with_reducible first | assumption | intro _ | refine svn_mailbox _ _ _ ?_ ?_ | refine svn_State_modSec _ _ ?_ ?_ | refine svn_answer _ _ _ _ ?_ | refine svn_programFuses _ ?_ | refine SvnIs.ite ?_ ?_) | ((with_reducible refine (?_ : Sec.svnIs _ _)); exact svn_same rfl (by assumption)) | decide | split | unfold id | dsimp only

theorem svn_execAddOwnerKey x0 x1 s (h : SvnIs q s) : SvnIs q (after s (execAddOwnerKey x0 x1 s)) := by
  unfold execAddOwnerKey
  try with_reducible refine SvnIs.next ?_
  repeat' first | (with_reducible first | assumption | intro _ | refine svn_mailbox _ _ _ ?_ ?_ | refine svn_State_modSec _ _ ?_ ?_ | refine svn_answer _ _ _ _ ?_ | refine svn_programFuses _ ?_ | refine SvnIs.ite ?_ ?_) | ((with_reducible refine (?_ : Sec.svnIs _ _)); exact svn_same rfl (by assumption)) | decide | split | unfold id | dsimp only

theorem svn_execRevokeOwnerKey x0 x1 s (h : SvnIs q s) : SvnIs q (after s (execRevokeOwnerKey x0 x1 s)) := by
  unfold execRevokeOwnerKey
  try with_reducible refine SvnIs.next ?_
  repeat' first | (with_reducible first | assumption | intro _ | refine svn_mailbox _ _ _ ?_ ?_ | refine svn_State_modSec _ _ ?_ ?_ | refine svn_answer _ _ _ _ ?_ | refine svn_programFuses _ ?_ | refine SvnIs.ite ?_ ?_) | ((with_reducible refine (?_ : Sec.svnIs _ _)); exact svn_same rfl (by assumption)) | decide | split | unfold id | dsimp only

theorem svn_execOwnerPolicy x0 x1 x2 x3 s (h : SvnIs q s) : SvnIs q (after s (execOwnerPolicy x0 x1 x2 x3 s)) := by
  unfold execOwnerPolicy
  try with_reducible refine SvnIs.next ?_
  repeat' first | (with_reducible first | assumption | intro _ | refine svn_mailbox _ _ _ ?_ ?_ | refine svn_State_modSec _ _ ?_ ?_ | refine svn_answer _ _ _ _ ?_ | refine SvnIs.ite ?_ ?_) | ((with_reducible refine (?_ : Sec.svnIs _ _)); exact svn_same rfl (by assumption)) | decide | split | unfold id | dsimp only

theorem svn_execExportKeys x0 x1 s (h : SvnIs q s) : SvnIs q (after s (execExportKeys x0 x1 s)) := by
  unfold execExportKeys
  try with_reducible refine SvnIs.next ?_
  repeat' first | (with_reducible first | assumption | intro _ | refine svn_mailbox _ _ _ ?_ ?_ | refine svn_answer _ _ _ _ ?_ | refine svn_ev _ _ _ _ _ _ ?_ | refine svn_respondFree _ _ ?_ | refine SvnIs.ite ?_ ?_) | ((with_reducible refine (?_ : Sec.svnIs _ _)); exact svn_same rfl (by assumption)) | decide | split | unfold id | dsimp only

theorem svn_execImportKeys x0 x1 s (h : SvnIs q s) : SvnIs q (after s (execImportKeys x0 x1 s)) := by
  unfold execImportKeys
  try with_reducible refine SvnIs.next ?_
  repeat' first | (with_reducible first | assumption | intro _ | refine svn_mailbox _ _ _ ?_ ?_ | refine svn_answer _ _ _ _ ?_ | refine svn_ev _ _ _ _ _ _ ?_ | refine svn_respondRecords _ _ _ ?_ | refine svn_storeRecords _ _ ?_ | refine SvnIs.ite ?_ ?_) | ((with_reducible refine (?_ : Sec.svnIs _ _)); exact svn_same rfl (by assumption)) | decide | split | unfold id | dsimp only

theorem svn_execBehaviourProfileUnlock x0 x1 s (h : SvnIs q s) : SvnIs q (after s (execBehaviourProfileUnlock x0 x1 s)) := by
  unfold execBehaviourProfileUnlock
  try with_reducible refine SvnIs.next ?_
  repeat' first | (with_reducible first | assumption | intro _ | refine svn_mailbox _ _ _ ?_ ?_ | refine svn_State_modSys _ _ ?_ | refine svn_answer _ _ _ _ ?_ | refine SvnIs.ite ?_ ?_) | ((with_reducible refine (?_ : Sec.svnIs _ _)); exact svn_same rfl (by assumption)) | decide | split | unfold id | dsimp only

theorem svn_execFirmwareActivationMeasurement x0 s (h : SvnIs q s) : SvnIs q (after s (execFirmwareActivationMeasurement x0 s)) := by
  unfold execFirmwareActivationMeasurement
  try with_reducible refine SvnIs.next ?_
  repeat' first | (with_reducible first | assumption | intro _ | refine svn_mailbox _ _ _ ?_ ?_ | refine svn_answer _ _ _ _ ?_ | refine svn_extendMeas _ _ _ ?_ | refine SvnIs.ite ?_ ?_) | decide | split | unfold id | dsimp only

theorem svn_execSlotSelect x0 x1 s (h : SvnIs q s) : SvnIs q (after s (execSlotSelect x0 x1 s)) := by
  unfold execSlotSelect
  try with_reducible refine SvnIs.next ?_
  repeat' first | (with_reducible first | assumption | intro _ | refine svn_access _ _ _ _ _ ?_ ?_ | refine svn_writeSlotsel _ _ ?_ | refine SvnIs.ite ?_ ?_) | decide | split | unfold id | dsimp only

theorem svn_execSnuffLevel1 x0 s (h : SvnIs q s) : SvnIs q (after s (execSnuffLevel1 x0 s)) := by
  unfold execSnuffLevel1
  try with_reducible refine SvnIs.next ?_
  repeat' first | (with_reducible first | assumption | intro _ | refine svn_snuff1 _ _ ?_ | refine svn_wakeNoted _ ?_ | refine SvnIs.ite ?_ ?_) | decide | split | unfold id | dsimp only

theorem svn_execSnuffLevel2 x0 s (h : SvnIs q s) : SvnIs q (after s (execSnuffLevel2 x0 s)) := by
  unfold execSnuffLevel2
  try with_reducible refine SvnIs.next ?_
  repeat' first | (with_reducible first | assumption | intro _ | refine svn_snuff2 _ _ ?_ | refine svn_wakeNoted _ ?_ | refine SvnIs.ite ?_ ?_) | decide | split | unfold id | dsimp only

theorem svn_execAlarmFuseBlow s (h : SvnIs q s) : SvnIs q (after s (execAlarmFuseBlow s)) := by
  unfold execAlarmFuseBlow
  try with_reducible refine SvnIs.next ?_
  repeat' first | (with_reducible first | assumption | intro _ | refine svn_blowAlarm _ _ ?_ | refine svn_wakeNoted _ ?_ | refine SvnIs.ite ?_ ?_) | ((with_reducible refine (?_ : Sec.svnIs _ _)); exact svn_same rfl (by assumption)) | decide | split | unfold id | dsimp only

theorem svn_execEpochFuseBlow s (h : SvnIs q s) : SvnIs q (after s (execEpochFuseBlow s)) := by
  unfold execEpochFuseBlow
  try with_reducible refine SvnIs.next ?_
  repeat' first | (with_reducible first | assumption | intro _ | refine svn_State_modSec _ _ ?_ ?_ | refine svn_ev _ _ _ _ _ _ ?_ | refine svn_programFuses _ ?_ | refine SvnIs.ite ?_ ?_) | ((with_reducible refine (?_ : Sec.svnIs _ _)); exact svn_same rfl (by assumption)) | decide | split | unfold id | dsimp only

theorem svn_execKeyRestore s (h : SvnIs q s) : SvnIs q (after s (execKeyRestore s)) := by
  unfold execKeyRestore
  try with_reducible refine SvnIs.next ?_
  repeat' first | (with_reducible first | assumption | intro _ | refine svn_State_modSec _ _ ?_ ?_ | refine svn_advanceTo _ _ ?_ | refine svn_deallocWiped _ _ ?_ | refine svn_ev _ _ _ _ _ _ ?_ | refine svn_startQuiet _ ?_ | refine svn_unwrapRec _ _ ?_ | refine svn_zeroKst _ ?_ | refine SvnIs.foldl (fun _ _ _ => ?_) ?_ | refine SvnIs.ite ?_ ?_) | ((with_reducible refine (?_ : Sec.svnIs _ _)); exact svn_same rfl (by assumption)) | decide | split | unfold id | dsimp only

theorem svn_execDebugChallenge s (h : SvnIs q s) : SvnIs q (after s (execDebugChallenge s)) := by
  unfold execDebugChallenge
  try with_reducible refine SvnIs.next ?_
  repeat' first | (with_reducible first | assumption | intro _ | refine svn_State_drawn _ ?_ | refine svn_State_modSec _ _ ?_ ?_ | refine SvnIs.ite ?_ ?_) | ((with_reducible refine (?_ : Sec.svnIs _ _)); exact svn_same rfl (by assumption)) | decide | split | unfold id | dsimp only

theorem svn_execDebugResponse x0 x1 x2 x3 s (h : SvnIs q s) : SvnIs q (after s (execDebugResponse x0 x1 x2 x3 s)) := by
  unfold execDebugResponse
  try with_reducible refine SvnIs.next ?_
  repeat' first | (with_reducible first | assumption | intro _ | refine svn_debugAnswer _ _ _ _ _ ?_ | refine svn_wakeNoted _ ?_ | refine SvnIs.ite ?_ ?_) | ((with_reducible refine (?_ : Sec.svnIs _ _)); exact svn_same rfl (by assumption)) | decide | split | unfold id | dsimp only

theorem svn_execCriticalDarkEntry s (h : SvnIs q s) : SvnIs q (after s (execCriticalDarkEntry s)) := by
  unfold execCriticalDarkEntry
  try with_reducible refine SvnIs.next ?_
  repeat' first | (with_reducible first | assumption | intro _ | refine svn_criticalDark _ ?_ | refine svn_elapse _ _ ?_ | refine SvnIs.ite ?_ ?_) | decide | split | unfold id | dsimp only

theorem svn_execCriticalWake x0 s (h : SvnIs q s) : SvnIs q (after s (execCriticalWake x0 s)) := by
  unfold execCriticalWake
  try with_reducible refine SvnIs.next ?_
  repeat' first | (with_reducible first | assumption | intro _ | refine svn_State_drawn _ ?_ | refine svn_State_modPwr _ _ ?_ | refine svn_State_modThm _ _ ?_ | refine svn_elapse _ _ ?_ | refine svn_startCore _ _ ?_ | refine svn_wakeRecord _ _ _ ?_ | refine SvnIs.ite ?_ ?_) | decide | split | unfold id | dsimp only

theorem svn_execPollReceive x0 s (h : SvnIs q s) : SvnIs q (after s (execPollReceive x0 s)) := by
  unfold execPollReceive
  try with_reducible refine SvnIs.next ?_
  repeat' first | (with_reducible first | assumption | intro _ | refine svn_sendReply _ ?_ | refine svn_takePollItem _ _ ?_ | refine svn_upLink _ _ _ ?_ ?_ | refine SvnIs.foldl (fun _ _ _ => ?_) ?_ | refine SvnIs.ite ?_ ?_) | decide | split | unfold id | dsimp only

theorem svn_execVlkWake x0 x1 x2 s (h : SvnIs q s) : SvnIs q (after s (execVlkWake x0 x1 x2 s)) := by
  unfold execVlkWake
  try with_reducible refine SvnIs.next ?_
  repeat' first | (with_reducible first | assumption | intro _ | refine svn_noteWake _ _ ?_ | refine svn_wakeAct _ _ _ ?_ | refine SvnIs.ite ?_ ?_) | decide | split | unfold id | dsimp only

theorem svn_execWickCriticalLimit x0 s (h : SvnIs q s) : SvnIs q (after s (execWickCriticalLimit x0 s)) := by
  unfold execWickCriticalLimit
  try with_reducible refine SvnIs.next ?_
  repeat' first | (with_reducible first | assumption | intro _ | refine svn_State_modThm _ _ ?_ | refine svn_criticalDark _ ?_ | refine svn_criticalLimit _ _ _ ?_ | refine SvnIs.ite ?_ ?_) | decide | split | unfold id | dsimp only

theorem svn_execVddAux33Loss s (h : SvnIs q s) : SvnIs q (after s (execVddAux33Loss s)) := by
  unfold execVddAux33Loss
  try with_reducible refine SvnIs.next ?_
  repeat' first | (with_reducible first | assumption | intro _ | refine svn_wickReset _ _ ?_ | refine SvnIs.ite ?_ ?_) | decide | split | unfold id | dsimp only

end Sys2Proof.Machine
end

