-- ==== Sys2Proof/Laws/Exec.lean ====
section
/-!
SUPPORT. What holds of exec for every command, from the lemma of each meaning.
-/

set_option Elab.async false
set_option linter.all false

namespace Sys2Proof.Machine

/-- Every command answers a next state. -/
theorem exec_next (i : Instr) (s : State) : exec i s = .next (after s (exec i s)) := by
  cases i <;> rfl

theorem exec_after {i : Instr} {s t : State} (h : exec i s = .next t) : after s (exec i s) = t := by rw [h]; rfl

/-- The parts of the state that exec leaves alone. -/
theorem frame_exec (i : Instr) (s : State) : OnlyChanges (mayChange i) s (after s (exec i s)) :=
  match i with
  | .regWrite x0 x1 x2 => show OnlyChanges [.us, .busData, .busErr, .regs, .mem, .tcm, .free, .hdr, .sys, .clk, .pwr, .l1, .irq, .llt, .hce, .lgr, .xmt, .rvr, .cst, .asq, .rwc, .ldp, .tpe, .sve, .spn, .psi, .lsr, .opt, .dmc, .bcc, .sec, .thm, .trm, .evr, .lif, .cal, .vlk] _ _ from (frame_execRegWrite x0 x1 x2 s).frame (by decide)
  | .busAccess x0 x1 x2 x3 x4 => show OnlyChanges [.us, .busData, .busErr, .regs, .mem, .tcm, .free, .hdr, .sys, .clk, .pwr, .l1, .irq, .llt, .hce, .lgr, .xmt, .rvr, .cst, .asq, .rwc, .ldp, .tpe, .sve, .spn, .psi, .lsr, .opt, .dmc, .bcc, .sec, .thm, .trm, .evr, .lif, .cal, .vlk] _ _ from (frame_execBusAccess x0 x1 x2 x3 x4 s).frame (by decide)
  | .guardWordWrite x0 x1 x2 => show OnlyChanges [.hdr, .evr, .lif] _ _ from (frame_execGuardWordWrite x0 x1 x2 s).frame (by decide)
  | .guardWindowExhausted x0 => show OnlyChanges [.hdr] _ _ from (frame_execGuardWindowExhausted x0 s).frame (by decide)
  | .softReset x0 x1 => show OnlyChanges [.us, .regs, .mem, .free, .hdr, .sys, .pwr, .l1, .irq, .llt, .hce, .lgr, .xmt, .rvr, .cst, .asq, .rwc, .ldp, .tpe, .sve, .spn, .psi, .lsr, .opt, .dmc, .bcc, .sec, .trm, .evr, .lif, .cal, .vlk] _ _ from (frame_execSoftReset x0 x1 s).frame (by decide)
  | .softResetComplete x0 => show OnlyChanges [.hdr, .irq, .llt] _ _ from (frame_execSoftResetComplete x0 s).frame (by decide)
  | .freeze x0 x1 x2 => show OnlyChanges [.hdr, .irq, .llt, .evr, .lif] _ _ from (frame_execFreeze x0 x1 x2 s).frame (by decide)
  | .errClear x0 x1 => show OnlyChanges [.hdr, .evr, .lif] _ _ from (frame_execErrClear x0 x1 s).frame (by decide)
  | .irqSetWrite x0 x1 x2 => show OnlyChanges [.hdr, .evr, .lif] _ _ from (frame_execIrqSetWrite x0 x1 x2 s).frame (by decide)
  | .allcln x0 x1 x2 => show OnlyChanges [.mem, .free, .hdr, .sys, .l1, .irq, .dmc, .bcc, .evr, .lif] _ _ from (frame_execAllcln x0 x1 x2 s).frame (by decide)
  | .l1Clean x0 x1 => show OnlyChanges [.mem, .free, .hdr, .l1, .irq, .dmc, .bcc, .evr, .lif] _ _ from (frame_execL1Clean x0 x1 s).frame (by decide)
  | .l1Invalidate x0 x1 => show OnlyChanges [.l1] _ _ from (frame_execL1Invalidate x0 x1 s).frame (by decide)
  | .l1CleanAndInvalidate x0 x1 => show OnlyChanges [.mem, .free, .hdr, .l1, .irq, .dmc, .bcc, .evr, .lif] _ _ from (frame_execL1CleanAndInvalidate x0 x1 s).frame (by decide)
  | .l1NoOperation x0 x1 => show OnlyChanges [] _ _ from (frame_execL1NoOperation x0 x1 s).frame (by decide)
  | .irqTake x0 => show OnlyChanges [.busData, .irq] _ _ from (frame_execIrqTake x0 s).frame (by decide)
  | .uirqdone x0 x1 => show OnlyChanges [.irq] _ _ from (frame_execUirqdone x0 x1 s).frame (by decide)
  | .irqRouteWrite x0 x1 x2 => show OnlyChanges [.regs, .hdr, .evr, .lif] _ _ from (frame_execIrqRouteWrite x0 x1 x2 s).frame (by decide)
  | .irqSwset x0 x1 => show OnlyChanges [.hdr, .irq, .evr, .lif] _ _ from (frame_execIrqSwset x0 x1 s).frame (by decide)
  | .twinDataAccess x0 x1 x2 x3 => show OnlyChanges [.busData, .regs, .tcm, .hdr, .evr, .lif] _ _ from (frame_execTwinDataAccess x0 x1 x2 x3 s).frame (by decide)
  | .por => show OnlyChanges [.us, .regs, .mem, .tcm, .hdr, .sys, .clk, .pwr, .l1, .irq, .llt, .hce, .lgr, .xmt, .rvr, .cst, .asq, .rwc, .ldp, .tpe, .sve, .spn, .psi, .lsr, .opt, .dmc, .bcc, .sec, .thm, .trm, .sup, .evr, .lif, .cal, .vlk] _ _ from (frame_execPor s).frame (by decide)
  | .xo32kQualified => show OnlyChanges [.hdr, .clk, .evr, .lif, .cal] _ _ from (frame_execXo32kQualified s).frame (by decide)
  | .xo32kFail => show OnlyChanges [.us, .regs, .hdr, .sys, .clk, .pwr, .evr, .lif, .cal, .vlk] _ _ from (frame_execXo32kFail s).frame (by decide)
  | .xo40Fail => show OnlyChanges [.regs, .free, .hdr, .clk, .irq, .hce, .xmt, .asq, .rwc, .tpe, .sve, .spn, .psi, .lsr, .opt, .trm, .evr, .lif] _ _ from (frame_execXo40Fail s).frame (by decide)
  | .mainRailsGood x0 x1 => show OnlyChanges [.us, .regs, .mem, .free, .hdr, .sys, .clk, .pwr, .irq, .hce, .lgr, .xmt, .cst, .dmc, .bcc, .sec, .sup, .evr, .lif, .cal, .vlk] _ _ from (frame_execMainRailsGood x0 x1 s).frame (by decide)
  | .railFault x0 => show OnlyChanges [.regs, .mem, .tcm, .free, .hdr, .sys, .clk, .pwr, .l1, .irq, .llt, .hce, .lgr, .xmt, .rvr, .cst, .asq, .rwc, .ldp, .tpe, .sve, .spn, .psi, .lsr, .opt, .dmc, .bcc, .sec, .thm, .trm, .sup, .evr, .lif, .vlk] _ _ from (frame_execRailFault x0 s).frame (by decide)
  | .uartRecoveryImage x0 => show OnlyChanges [.regs, .free, .sys, .sec] _ _ from (frame_execUartRecoveryImage x0 s).frame (by decide)
  | .perstDeassert x0 => show OnlyChanges [.irq, .hce] _ _ from (frame_execPerstDeassert x0 s).frame (by decide)
  | .perstAssert x0 => show OnlyChanges [.mem, .free, .hdr, .pwr, .l1, .irq, .llt, .hce, .lgr, .xmt, .asq, .rwc, .tpe, .sve, .psi, .lsr, .dmc, .bcc, .sec, .trm, .evr, .lif] _ _ from (frame_execPerstAssert x0 s).frame (by decide)
  | .configRequest x0 x1 => show OnlyChanges [.hce] _ _ from (frame_execConfigRequest x0 x1 s).frame (by decide)
  | .dmcInitGo x0 => show OnlyChanges [.hdr, .dmc, .evr, .lif] _ _ from (frame_execDmcInitGo x0 s).frame (by decide)
  | .dmcInitDone x0 => show OnlyChanges [.busData, .busErr, .mem, .free, .hdr, .sys, .l1, .irq, .dmc, .bcc, .evr, .lif] _ _ from (frame_execDmcInitDone x0 s).frame (by decide)
  | .dmcInitHeldAccess x0 => show OnlyChanges [.busData, .busErr, .mem, .free, .hdr, .l1, .irq, .dmc, .bcc, .evr, .lif] _ _ from (frame_execDmcInitHeldAccess x0 s).frame (by decide)
  | .readySet x0 x1 => show OnlyChanges [.hdr, .sys, .hce, .evr, .lif] _ _ from (frame_execReadySet x0 x1 s).frame (by decide)
  | .readyClr x0 => show OnlyChanges [.hdr, .sys, .hce, .evr, .lif] _ _ from (frame_execReadyClr x0 s).frame (by decide)
  | .controllerEnable x0 x1 => show OnlyChanges [.hce] _ _ from (frame_execControllerEnable x0 x1 s).frame (by decide)
  | .controllerReset x0 => show OnlyChanges [.mem, .free, .hdr, .pwr, .l1, .irq, .llt, .hce, .lgr, .xmt, .asq, .rwc, .tpe, .sve, .psi, .lsr, .dmc, .bcc, .sec, .trm, .evr, .lif] _ _ from (frame_execControllerReset x0 s).frame (by decide)
  | .functionLevelReset x0 => show OnlyChanges [.mem, .free, .hdr, .pwr, .l1, .irq, .llt, .hce, .lgr, .xmt, .asq, .rwc, .tpe, .sve, .psi, .lsr, .dmc, .bcc, .sec, .trm, .evr, .lif] _ _ from (frame_execFunctionLevelReset x0 s).frame (by decide)
  | .linkDown x0 => show OnlyChanges [.mem, .free, .hdr, .pwr, .l1, .irq, .llt, .hce, .lgr, .xmt, .asq, .rwc, .tpe, .sve, .psi, .lsr, .dmc, .bcc, .sec, .trm, .evr, .lif] _ _ from (frame_execLinkDown x0 s).frame (by decide)
  | .namespaceReady x0 => show OnlyChanges [.hce, .xmt, .sec] _ _ from (frame_execNamespaceReady x0 s).frame (by decide)
  | .resetNAssert => show OnlyChanges [.free, .hdr, .sys, .pwr, .irq, .llt, .hce, .lgr, .xmt, .rvr, .asq, .rwc, .tpe, .sve, .psi, .lsr, .opt, .trm, .evr, .lif] _ _ from (frame_execResetNAssert s).frame (by decide)
  | .coreDomainHold x0 => show OnlyChanges [.regs, .mem, .tcm, .free, .hdr, .sys, .clk, .pwr, .l1, .irq, .llt, .hce, .lgr, .xmt, .rvr, .cst, .asq, .rwc, .ldp, .tpe, .sve, .spn, .psi, .lsr, .opt, .dmc, .bcc, .sec, .thm, .trm, .sup, .evr, .lif, .vlk] _ _ from (frame_execCoreDomainHold x0 s).frame (by decide)
  | .resetNRelease x0 => show OnlyChanges [.regs, .mem, .free, .hdr, .sys, .clk, .pwr, .irq, .hce, .lgr, .xmt, .cst, .dmc, .bcc, .sec, .evr, .lif] _ _ from (frame_execResetNRelease x0 s).frame (by decide)
  | .nvmSubsystemReset x0 x1 => show OnlyChanges [.mem, .free, .hdr, .sys, .pwr, .l1, .irq, .llt, .hce, .lgr, .xmt, .rvr, .asq, .rwc, .tpe, .sve, .psi, .lsr, .opt, .dmc, .bcc, .sec, .trm, .evr, .lif] _ _ from (frame_execNvmSubsystemReset x0 x1 s).frame (by decide)
  | .watchdogEnable x0 x1 => show OnlyChanges [.regs, .hdr, .sys, .evr, .lif] _ _ from (frame_execWatchdogEnable x0 x1 s).frame (by decide)
  | .watchdogKick x0 x1 => show OnlyChanges [.hdr, .sys, .evr, .lif] _ _ from (frame_execWatchdogKick x0 x1 s).frame (by decide)
  | .watchdogPeriod => show OnlyChanges [.us, .regs, .hdr, .sys, .pwr, .evr, .lif, .cal, .vlk] _ _ from (frame_execWatchdogPeriod s).frame (by decide)
  | .watchdogReset => show OnlyChanges [.us, .regs, .free, .hdr, .sys, .pwr, .irq, .llt, .hce, .lgr, .xmt, .rvr, .asq, .rwc, .tpe, .sve, .psi, .lsr, .opt, .trm, .evr, .lif, .cal, .vlk] _ _ from (frame_execWatchdogReset s).frame (by decide)
  | .powerLoss => show OnlyChanges [.us, .regs, .mem, .tcm, .free, .hdr, .sys, .clk, .pwr, .l1, .irq, .llt, .hce, .lgr, .xmt, .rvr, .cst, .asq, .rwc, .ldp, .tpe, .sve, .spn, .psi, .lsr, .opt, .dmc, .bcc, .sec, .thm, .trm, .sup, .evr, .lif, .cal, .vlk] _ _ from (frame_execPowerLoss s).frame (by decide)
  | .preqGo x0 x1 => show OnlyChanges [.busData, .busErr, .regs, .mem, .free, .hdr, .pwr, .l1, .irq, .hce, .dmc, .bcc, .evr, .lif] _ _ from (frame_execPreqGo x0 x1 s).frame (by decide)
  | .powerStateEntered => show OnlyChanges [.busData, .busErr, .regs, .mem, .tcm, .free, .hdr, .sys, .clk, .pwr, .l1, .irq, .llt, .hce, .lgr, .xmt, .rvr, .cst, .asq, .rwc, .ldp, .tpe, .sve, .spn, .psi, .lsr, .opt, .dmc, .bcc, .sec, .thm, .trm, .sup, .evr, .lif, .vlk] _ _ from (frame_execPowerStateEntered s).frame (by decide)
  | .pdoffWrite x0 x1 => show OnlyChanges [.regs, .free, .hdr, .pwr, .irq, .llt, .hce, .lgr, .xmt, .evr, .lif] _ _ from (frame_execPdoffWrite x0 x1 s).frame (by decide)
  | .wakeSource x0 x1 x2 => show OnlyChanges [.busData, .busErr, .regs, .mem, .free, .hdr, .sys, .clk, .pwr, .l1, .irq, .llt, .hce, .lgr, .xmt, .cst, .dmc, .bcc, .sec, .sup, .evr, .lif] _ _ from (frame_execWakeSource x0 x1 x2 s).frame (by decide)
  | .clkDomWrite x0 x1 x2 => show OnlyChanges [.regs, .hdr, .evr, .lif] _ _ from (frame_execClkDomWrite x0 x1 x2 s).frame (by decide)
  | .pllLocked x0 => show OnlyChanges [.busData, .busErr, .mem, .free, .hdr, .clk, .pwr, .l1, .irq, .dmc, .bcc, .evr, .lif] _ _ from (frame_execPllLocked x0 s).frame (by decide)
  | .pllLockLoss x0 => show OnlyChanges [.regs, .free, .hdr, .clk, .irq, .hce, .xmt, .asq, .rwc, .tpe, .sve, .spn, .psi, .lsr, .opt, .trm, .evr, .lif] _ _ from (frame_execPllLockLoss x0 s).frame (by decide)
  | .psEntryRestart => show OnlyChanges [.us, .regs, .mem, .free, .hdr, .sys, .pwr, .l1, .irq, .hce, .lgr, .dmc, .bcc, .evr, .lif, .cal, .vlk] _ _ from (frame_execPsEntryRestart s).frame (by decide)
  | .leaveRequest x0 x1 x2 => show OnlyChanges [.regs, .hdr, .irq, .llt, .evr, .lif] _ _ from (frame_execLeaveRequest x0 x1 x2 s).frame (by decide)
  | .leaveRelease x0 x1 x2 => show OnlyChanges [.hdr, .irq, .llt, .evr, .lif] _ _ from (frame_execLeaveRelease x0 x1 x2 s).frame (by decide)
  | .leaveRenew x0 x1 x2 => show OnlyChanges [.hdr, .irq, .llt, .evr, .lif] _ _ from (frame_execLeaveRenew x0 x1 x2 s).frame (by decide)
  | .leaveExpiry x0 => show OnlyChanges [.us, .regs, .hdr, .sys, .pwr, .irq, .llt, .evr, .lif, .cal, .vlk] _ _ from (frame_execLeaveExpiry x0 s).frame (by decide)
  | .drawAfterExpiry x0 => show OnlyChanges [.us, .regs, .hdr, .sys, .pwr, .llt, .evr, .lif, .cal, .vlk] _ _ from (frame_execDrawAfterExpiry x0 s).frame (by decide)
  | .leaveDeadline x0 => show OnlyChanges [.us, .regs, .hdr, .sys, .pwr, .irq, .llt, .evr, .lif, .cal, .vlk] _ _ from (frame_execLeaveDeadline x0 s).frame (by decide)
  | .thermalCeilingStep => show OnlyChanges [.us, .regs, .hdr, .sys, .pwr, .irq, .llt, .evr, .lif, .cal, .vlk] _ _ from (frame_execThermalCeilingStep s).frame (by decide)
  | .sqTailDoorbell x0 x1 x2 x3 => show OnlyChanges [.busData, .busErr, .mem, .free, .hdr, .pwr, .l1, .irq, .hce, .dmc, .bcc, .evr, .lif] _ _ from (frame_execSqTailDoorbell x0 x1 x2 x3 s).frame (by decide)
  | .cqHeadDoorbell x0 x1 x2 => show OnlyChanges [.busData, .busErr, .mem, .free, .hdr, .pwr, .l1, .irq, .hce, .dmc, .bcc, .evr, .lif] _ _ from (frame_execCqHeadDoorbell x0 x1 x2 s).frame (by decide)
  | .commandFetch x0 => show OnlyChanges [.busData, .busErr, .mem, .free, .hdr, .pwr, .l1, .irq, .llt, .hce, .lgr, .xmt, .dmc, .bcc, .sec, .evr, .lif] _ _ from (frame_execCommandFetch x0 s).frame (by decide)
  | .fetchPauseEnd => show OnlyChanges [.hdr, .irq, .hce, .evr, .lif] _ _ from (frame_execFetchPauseEnd s).frame (by decide)
  | .writeTransferStart x0 => show OnlyChanges [.hce] _ _ from (frame_execWriteTransferStart x0 s).frame (by decide)
  | .dataTransferComplete x0 => show OnlyChanges [.free, .hdr, .irq, .hce, .lgr, .xmt, .sec, .evr, .lif] _ _ from (frame_execDataTransferComplete x0 s).frame (by decide)
  | .hostMemoryError x0 => show OnlyChanges [.free, .hdr, .irq, .hce, .lgr, .xmt, .evr, .lif] _ _ from (frame_execHostMemoryError x0 s).frame (by decide)
  | .completionPost x0 => show OnlyChanges [.free, .hdr, .pwr, .irq, .hce, .lgr, .xmt, .sec, .evr, .lif] _ _ from (frame_execCompletionPost x0 s).frame (by decide)
  | .interruptCoalescingTimeout x0 x1 => show OnlyChanges [.hce] _ _ from (frame_execInterruptCoalescingTimeout x0 x1 s).frame (by decide)
  | .recoveryTimeLimitExpiry x0 => show OnlyChanges [.us, .regs, .free, .hdr, .sys, .pwr, .hce, .lgr, .xmt, .evr, .lif, .cal, .vlk] _ _ from (frame_execRecoveryTimeLimitExpiry x0 s).frame (by decide)
  | .abortMatch x0 x1 => show OnlyChanges [.regs, .mem, .free, .hdr, .l1, .irq, .llt, .hce, .lgr, .xmt, .asq, .rwc, .tpe, .sve, .psi, .lsr, .dmc, .bcc, .sec, .trm, .evr, .lif] _ _ from (frame_execAbortMatch x0 x1 s).frame (by decide)
  | .read x0 x1 => show OnlyChanges [.free, .hdr, .irq, .hce, .lgr, .xmt, .evr, .lif] _ _ from (frame_execRead x0 x1 s).frame (by decide)
  | .write x0 => show OnlyChanges [.hce] _ _ from (frame_execWrite x0 s).frame (by decide)
  | .zoneAppend x0 => show OnlyChanges [.hce] _ _ from (frame_execZoneAppend x0 s).frame (by decide)
  | .flush x0 => show OnlyChanges [.free, .hce, .lgr] _ _ from (frame_execFlush x0 s).frame (by decide)
  | .compare x0 x1 => show OnlyChanges [.free, .hdr, .irq, .hce, .lgr, .xmt, .evr, .lif] _ _ from (frame_execCompare x0 x1 s).frame (by decide)
  | .writeUncorrectable x0 => show OnlyChanges [.free, .hdr, .irq, .hce, .lgr, .xmt, .sec, .evr, .lif] _ _ from (frame_execWriteUncorrectable x0 s).frame (by decide)
  | .writeZeroes x0 => show OnlyChanges [.free, .hdr, .irq, .hce, .lgr, .xmt, .sec, .evr, .lif] _ _ from (frame_execWriteZeroes x0 s).frame (by decide)
  | .verify x0 x1 => show OnlyChanges [.free, .hdr, .irq, .hce, .lgr, .xmt, .evr, .lif] _ _ from (frame_execVerify x0 x1 s).frame (by decide)
  | .datasetManagement x0 => show OnlyChanges [.free, .hdr, .irq, .hce, .lgr, .xmt, .sec, .evr, .lif] _ _ from (frame_execDatasetManagement x0 s).frame (by decide)
  | .reservationRegister x0 => show OnlyChanges [.free, .hce, .lgr] _ _ from (frame_execReservationRegister x0 s).frame (by decide)
  | .reservationReport x0 => show OnlyChanges [.free, .hce, .lgr] _ _ from (frame_execReservationReport x0 s).frame (by decide)
  | .reservationAcquire x0 => show OnlyChanges [.mem, .free, .hdr, .l1, .irq, .llt, .hce, .lgr, .xmt, .asq, .rwc, .tpe, .sve, .psi, .lsr, .dmc, .bcc, .sec, .trm, .evr, .lif] _ _ from (frame_execReservationAcquire x0 s).frame (by decide)
  | .reservationRelease x0 => show OnlyChanges [.free, .hce, .lgr] _ _ from (frame_execReservationRelease x0 s).frame (by decide)
  | .zoneOpen x0 => show OnlyChanges [.free, .hdr, .hce, .lgr, .xmt, .evr, .lif] _ _ from (frame_execZoneOpen x0 s).frame (by decide)
  | .zoneClose x0 => show OnlyChanges [.free, .hdr, .hce, .lgr, .xmt, .evr, .lif] _ _ from (frame_execZoneClose x0 s).frame (by decide)
  | .zoneFinish x0 => show OnlyChanges [.free, .hdr, .hce, .lgr, .xmt, .evr, .lif] _ _ from (frame_execZoneFinish x0 s).frame (by decide)
  | .zoneReset x0 => show OnlyChanges [.free, .hdr, .hce, .lgr, .xmt, .evr, .lif] _ _ from (frame_execZoneReset x0 s).frame (by decide)
  | .zoneOffline x0 => show OnlyChanges [.free, .hdr, .hce, .lgr, .xmt, .evr, .lif] _ _ from (frame_execZoneOffline x0 s).frame (by decide)
  | .reportZones x0 => show OnlyChanges [.free, .hce, .lgr] _ _ from (frame_execReportZones x0 s).frame (by decide)
  | .createIoSq x0 => show OnlyChanges [.free, .hce, .lgr] _ _ from (frame_execCreateIoSq x0 s).frame (by decide)
  | .createIoCq x0 => show OnlyChanges [.free, .hce, .lgr] _ _ from (frame_execCreateIoCq x0 s).frame (by decide)
  | .deleteIoSq x0 => show OnlyChanges [.free, .hce, .lgr] _ _ from (frame_execDeleteIoSq x0 s).frame (by decide)
  | .deleteIoCq x0 => show OnlyChanges [.free, .hce, .lgr] _ _ from (frame_execDeleteIoCq x0 s).frame (by decide)
  | .identify x0 => show OnlyChanges [.free, .hce, .lgr] _ _ from (frame_execIdentify x0 s).frame (by decide)
  | .getLogPage x0 => show OnlyChanges [.free, .hce, .lgr] _ _ from (frame_execGetLogPage x0 s).frame (by decide)
  | .logGuaranteeExceptions x0 => show OnlyChanges [.free, .hce, .lgr] _ _ from (frame_execLogGuaranteeExceptions x0 s).frame (by decide)
  | .logEventRecorder x0 => show OnlyChanges [.free, .hce, .lgr] _ _ from (frame_execLogEventRecorder x0 s).frame (by decide)
  | .logLifetimeCounters x0 => show OnlyChanges [.free, .hce, .lgr, .lif] _ _ from (frame_execLogLifetimeCounters x0 s).frame (by decide)
  | .logActuatorHeadHealth x0 => show OnlyChanges [.free, .hce, .lgr] _ _ from (frame_execLogActuatorHeadHealth x0 s).frame (by decide)
  | .logLeasesPower x0 => show OnlyChanges [.free, .hce, .lgr] _ _ from (frame_execLogLeasesPower x0 s).frame (by decide)
  | .logAttestationMeasurements x0 => show OnlyChanges [.free, .hce, .lgr] _ _ from (frame_execLogAttestationMeasurements x0 s).frame (by decide)
  | .setFeatures x0 => show OnlyChanges [.free, .hce, .lgr] _ _ from (frame_execSetFeatures x0 s).frame (by decide)
  | .getFeatures x0 => show OnlyChanges [.free, .hce, .lgr] _ _ from (frame_execGetFeatures x0 s).frame (by decide)
  | .setFeaturesPowerManagement x0 => show OnlyChanges [.free, .pwr, .hce, .lgr] _ _ from (frame_execSetFeaturesPowerManagement x0 s).frame (by decide)
  | .setFeaturesTimestamp x0 => show OnlyChanges [.regs, .free, .hdr, .pwr, .hce, .lgr, .evr, .lif, .cal, .vlk] _ _ from (frame_execSetFeaturesTimestamp x0 s).frame (by decide)
  | .getFeaturesTimestamp x0 => show OnlyChanges [.free, .hce, .lgr] _ _ from (frame_execGetFeaturesTimestamp x0 s).frame (by decide)
  | .setFeaturesVolatileWriteCache x0 => show OnlyChanges [.free, .hce, .lgr] _ _ from (frame_execSetFeaturesVolatileWriteCache x0 s).frame (by decide)
  | .setFeaturesInterruptCoalescing x0 => show OnlyChanges [.free, .hce, .lgr] _ _ from (frame_execSetFeaturesInterruptCoalescing x0 s).frame (by decide)
  | .setFeaturesTemperatureThreshold x0 => show OnlyChanges [.regs, .free, .hce, .lgr] _ _ from (frame_execSetFeaturesTemperatureThreshold x0 s).frame (by decide)
  | .setFeaturesReadRecoveryLevel x0 => show OnlyChanges [.free, .hce, .lgr] _ _ from (frame_execSetFeaturesReadRecoveryLevel x0 s).frame (by decide)
  | .setFeaturesRecoveryTimeLimit x0 => show OnlyChanges [.free, .hce, .lgr] _ _ from (frame_execSetFeaturesRecoveryTimeLimit x0 s).frame (by decide)
  | .setFeaturesDirtyCap x0 => show OnlyChanges [.free, .hce, .lgr] _ _ from (frame_execSetFeaturesDirtyCap x0 s).frame (by decide)
  | .setFeaturesLeaseFloor x0 => show OnlyChanges [.regs, .free, .irq, .llt, .hce, .lgr] _ _ from (frame_execSetFeaturesLeaseFloor x0 s).frame (by decide)
  | .setFeaturesBehaviourProfile x0 => show OnlyChanges [.free, .sys, .hce, .lgr] _ _ from (frame_execSetFeaturesBehaviourProfile x0 s).frame (by decide)
  | .getFeaturesBehaviourProfile x0 => show OnlyChanges [.free, .hce, .lgr] _ _ from (frame_execGetFeaturesBehaviourProfile x0 s).frame (by decide)
  | .asynchronousEventRequest x0 => show OnlyChanges [.free, .hce, .lgr] _ _ from (frame_execAsynchronousEventRequest x0 s).frame (by decide)
  | .abort x0 => show OnlyChanges [.mem, .free, .hdr, .l1, .irq, .llt, .hce, .lgr, .xmt, .asq, .rwc, .tpe, .sve, .psi, .lsr, .dmc, .bcc, .sec, .trm, .evr, .lif] _ _ from (frame_execAbort x0 s).frame (by decide)
  | .keepAlive x0 => show OnlyChanges [.free, .hce, .lgr] _ _ from (frame_execKeepAlive x0 s).frame (by decide)
  | .namespaceManagement x0 => show OnlyChanges [.regs, .free, .hce, .lgr, .xmt, .sec] _ _ from (frame_execNamespaceManagement x0 s).frame (by decide)
  | .namespaceAttachment x0 => show OnlyChanges [.free, .hce, .lgr] _ _ from (frame_execNamespaceAttachment x0 s).frame (by decide)
  | .firmwareImageDownload x0 => show OnlyChanges [.free, .hce, .lgr] _ _ from (frame_execFirmwareImageDownload x0 s).frame (by decide)
  | .firmwareCommit x0 x1 => show OnlyChanges [.free, .hce, .lgr] _ _ from (frame_execFirmwareCommit x0 x1 s).frame (by decide)
  | .firmwareActivation x0 x1 => show OnlyChanges [.free, .hdr, .sys, .hce, .lgr, .sec, .evr, .lif] _ _ from (frame_execFirmwareActivation x0 x1 s).frame (by decide)
  | .activationPauseTimeout => show OnlyChanges [.us, .regs, .free, .hdr, .sys, .pwr, .hce, .lgr, .evr, .lif, .cal, .vlk] _ _ from (frame_execActivationPauseTimeout s).frame (by decide)
  | .formatNvm x0 => show OnlyChanges [.free, .hce, .lgr, .xmt] _ _ from (frame_execFormatNvm x0 s).frame (by decide)
  | .sanitizeOverwrite x0 => show OnlyChanges [.free, .hdr, .irq, .llt, .hce, .lgr, .xmt, .rvr, .evr, .lif] _ _ from (frame_execSanitizeOverwrite x0 s).frame (by decide)
  | .sanitizeCryptoErase x0 => show OnlyChanges [.free, .hce, .lgr, .xmt, .rvr, .sec] _ _ from (frame_execSanitizeCryptoErase x0 s).frame (by decide)
  | .sanitizeBandDone => show OnlyChanges [.xmt, .rvr] _ _ from (frame_execSanitizeBandDone s).frame (by decide)
  | .securitySend x0 => show OnlyChanges [.free, .hce, .lgr] _ _ from (frame_execSecuritySend x0 s).frame (by decide)
  | .securityReceive x0 => show OnlyChanges [.free, .hce, .lgr] _ _ from (frame_execSecurityReceive x0 s).frame (by decide)
  | .attestationNonce x0 => show OnlyChanges [.free, .hce, .lgr, .sec] _ _ from (frame_execAttestationNonce x0 s).frame (by decide)
  | .attestationReportSigned => show OnlyChanges [.sec] _ _ from (frame_execAttestationReportSigned s).frame (by decide)
  | .attestationReportReceive x0 => show OnlyChanges [.free, .hce, .lgr] _ _ from (frame_execAttestationReportReceive x0 s).frame (by decide)
  | .credential x0 => show OnlyChanges [.free, .hdr, .hce, .lgr, .sec, .evr, .lif] _ _ from (frame_execCredential x0 s).frame (by decide)
  | .deviceSelfTest x0 => show OnlyChanges [.free, .hce, .lgr] _ _ from (frame_execDeviceSelfTest x0 s).frame (by decide)
  | .nvmeMiSend x0 => show OnlyChanges [.mem, .free, .hdr, .sys, .pwr, .l1, .irq, .llt, .hce, .lgr, .xmt, .rvr, .asq, .rwc, .tpe, .sve, .psi, .lsr, .opt, .dmc, .bcc, .sec, .trm, .evr, .lif] _ _ from (frame_execNvmeMiSend x0 s).frame (by decide)
  | .nvmeMiReceive x0 => show OnlyChanges [.free, .hce, .lgr] _ _ from (frame_execNvmeMiReceive x0 s).frame (by decide)
  | .readNvmeMiDataStructure x0 x1 => show OnlyChanges [.free, .hce] _ _ from (frame_execReadNvmeMiDataStructure x0 x1 s).frame (by decide)
  | .nvmSubsystemHealthStatusPoll => show OnlyChanges [.free, .hce] _ _ from (frame_execNvmSubsystemHealthStatusPoll s).frame (by decide)
  | .controllerHealthStatusPoll x0 => show OnlyChanges [.free, .hce] _ _ from (frame_execControllerHealthStatusPoll x0 s).frame (by decide)
  | .configurationGet x0 => show OnlyChanges [.hce] _ _ from (frame_execConfigurationGet x0 s).frame (by decide)
  | .configurationSet x0 x1 => show OnlyChanges [.hce] _ _ from (frame_execConfigurationSet x0 x1 s).frame (by decide)
  | .vpdRead x0 x1 => show OnlyChanges [.free, .hce] _ _ from (frame_execVpdRead x0 x1 s).frame (by decide)
  | .vpdWrite x0 x1 => show OnlyChanges [.hce] _ _ from (frame_execVpdWrite x0 x1 s).frame (by decide)
  | .miReset => show OnlyChanges [.mem, .free, .hdr, .sys, .pwr, .l1, .irq, .llt, .hce, .lgr, .xmt, .rvr, .asq, .rwc, .tpe, .sve, .psi, .lsr, .opt, .dmc, .bcc, .sec, .trm, .evr, .lif] _ _ from (frame_execMiReset s).frame (by decide)
  | .basicManagementCommand => show OnlyChanges [.free, .hce] _ _ from (frame_execBasicManagementCommand s).frame (by decide)
  | .nsdomWrite x0 x1 x2 => show OnlyChanges [.regs, .hdr, .evr, .lif] _ _ from (frame_execNsdomWrite x0 x1 x2 s).frame (by decide)
  | .lgrWinGo x0 x1 => show OnlyChanges [.regs, .free, .hdr, .lgr, .evr, .lif] _ _ from (frame_execLgrWinGo x0 x1 s).frame (by decide)
  | .journalBlockDurable x0 => show OnlyChanges [.free, .hdr, .irq, .hce, .lgr, .xmt, .rvr, .sec, .evr, .lif] _ _ from (frame_execJournalBlockDurable x0 s).frame (by decide)
  | .checkpoint => show OnlyChanges [.free, .xmt] _ _ from (frame_execCheckpoint s).frame (by decide)
  | .migrationStart x0 x1 x2 x3 => show OnlyChanges [.hdr, .irq, .hce, .lgr, .xmt, .evr, .lif] _ _ from (frame_execMigrationStart x0 x1 x2 x3 s).frame (by decide)
  | .migrationCopyVerified x0 x1 x2 => show OnlyChanges [.hdr, .lgr, .xmt, .sec, .evr, .lif] _ _ from (frame_execMigrationCopyVerified x0 x1 x2 s).frame (by decide)
  | .migFree x0 x1 => show OnlyChanges [.xmt] _ _ from (frame_execMigFree x0 x1 s).frame (by decide)
  | .reservoirCommit x0 => show OnlyChanges [.hdr, .llt, .hce, .lgr, .rvr, .evr, .lif] _ _ from (frame_execReservoirCommit x0 s).frame (by decide)
  | .ledgerFreeze => show OnlyChanges [.hdr, .lgr, .rvr, .evr, .lif] _ _ from (frame_execLedgerFreeze s).frame (by decide)
  | .commitRecordDurable => show OnlyChanges [.regs, .mem, .tcm, .free, .hdr, .sys, .clk, .pwr, .l1, .irq, .llt, .hce, .lgr, .xmt, .rvr, .cst, .asq, .rwc, .ldp, .tpe, .sve, .spn, .psi, .lsr, .opt, .dmc, .bcc, .sec, .thm, .trm, .sup, .evr, .lif, .vlk] _ _ from (frame_execCommitRecordDurable s).frame (by decide)
  | .reservoirReplay x0 => show OnlyChanges [.hdr, .llt, .hce, .lgr, .rvr, .evr, .lif] _ _ from (frame_execReservoirReplay x0 s).frame (by decide)
  | .replayDone => show OnlyChanges [.free, .irq, .lgr, .xmt, .rvr] _ _ from (frame_execReplayDone s).frame (by decide)
  | .restartRecovery x0 x1 => show OnlyChanges [.free, .hdr, .irq, .llt, .hce, .lgr, .xmt, .rvr, .sec, .evr, .lif] _ _ from (frame_execRestartRecovery x0 x1 s).frame (by decide)
  | .taskCommit x0 x1 => show OnlyChanges [.mem, .free, .hdr, .l1, .irq, .llt, .hce, .asq, .rwc, .tpe, .sve, .psi, .lsr, .dmc, .bcc, .sec, .trm, .evr, .lif] _ _ from (frame_execTaskCommit x0 x1 s).frame (by decide)
  | .taskCancel x0 x1 => show OnlyChanges [.mem, .free, .hdr, .l1, .irq, .llt, .hce, .asq, .rwc, .tpe, .sve, .psi, .lsr, .dmc, .bcc, .sec, .trm, .evr, .lif] _ _ from (frame_execTaskCancel x0 x1 s).frame (by decide)
  | .taskPromotion x0 => show OnlyChanges [.mem, .free, .hdr, .l1, .irq, .llt, .hce, .asq, .rwc, .tpe, .sve, .psi, .lsr, .dmc, .bcc, .sec, .trm, .evr, .lif] _ _ from (frame_execTaskPromotion x0 s).frame (by decide)
  | .microwordIssue x0 => show OnlyChanges [.mem, .free, .hdr, .l1, .irq, .llt, .hce, .asq, .rwc, .ldp, .tpe, .sve, .psi, .lsr, .opt, .dmc, .bcc, .trm, .evr, .lif] _ _ from (frame_execMicrowordIssue x0 s).frame (by decide)
  | .seqNext x0 => show OnlyChanges [.us, .regs, .mem, .free, .hdr, .sys, .pwr, .l1, .irq, .llt, .hce, .asq, .rwc, .sve, .psi, .lsr, .dmc, .bcc, .trm, .evr, .lif, .cal, .vlk] _ _ from (frame_execSeqNext x0 s).frame (by decide)
  | .seqJump x0 => show OnlyChanges [.us, .regs, .mem, .free, .hdr, .sys, .pwr, .l1, .irq, .llt, .hce, .asq, .rwc, .sve, .psi, .lsr, .dmc, .bcc, .trm, .evr, .lif, .cal, .vlk] _ _ from (frame_execSeqJump x0 s).frame (by decide)
  | .seqCall x0 => show OnlyChanges [.us, .regs, .mem, .free, .hdr, .sys, .pwr, .l1, .irq, .llt, .hce, .asq, .rwc, .sve, .psi, .lsr, .dmc, .bcc, .trm, .evr, .lif, .cal, .vlk] _ _ from (frame_execSeqCall x0 s).frame (by decide)
  | .seqRet x0 => show OnlyChanges [.us, .regs, .mem, .free, .hdr, .sys, .pwr, .l1, .irq, .llt, .hce, .asq, .rwc, .sve, .psi, .lsr, .dmc, .bcc, .trm, .evr, .lif, .cal, .vlk] _ _ from (frame_execSeqRet x0 s).frame (by decide)
  | .seqBrt x0 => show OnlyChanges [.us, .regs, .mem, .free, .hdr, .sys, .pwr, .l1, .irq, .llt, .hce, .asq, .rwc, .sve, .psi, .lsr, .dmc, .bcc, .trm, .evr, .lif, .cal, .vlk] _ _ from (frame_execSeqBrt x0 s).frame (by decide)
  | .seqBrf x0 => show OnlyChanges [.us, .regs, .mem, .free, .hdr, .sys, .pwr, .l1, .irq, .llt, .hce, .asq, .rwc, .sve, .psi, .lsr, .dmc, .bcc, .trm, .evr, .lif, .cal, .vlk] _ _ from (frame_execSeqBrf x0 s).frame (by decide)
  | .seqDispatch x0 => show OnlyChanges [.us, .regs, .mem, .free, .hdr, .sys, .pwr, .l1, .irq, .llt, .hce, .asq, .rwc, .sve, .psi, .lsr, .dmc, .bcc, .trm, .evr, .lif, .cal, .vlk] _ _ from (frame_execSeqDispatch x0 s).frame (by decide)
  | .seqLoop x0 => show OnlyChanges [.us, .regs, .mem, .free, .hdr, .sys, .pwr, .l1, .irq, .llt, .hce, .asq, .rwc, .sve, .psi, .lsr, .dmc, .bcc, .trm, .evr, .lif, .cal, .vlk] _ _ from (frame_execSeqLoop x0 s).frame (by decide)
  | .faultRequest x0 x1 => show OnlyChanges [.free, .hdr, .irq, .asq, .rwc, .psi, .lsr, .trm, .evr, .lif] _ _ from (frame_execFaultRequest x0 x1 s).frame (by decide)
  | .waitTimeout x0 => show OnlyChanges [.us, .regs, .free, .hdr, .sys, .pwr, .irq, .asq, .rwc, .psi, .lsr, .trm, .evr, .lif, .cal, .vlk] _ _ from (frame_execWaitTimeout x0 s).frame (by decide)
  | .atomicBound x0 => show OnlyChanges [.us, .regs, .hdr, .sys, .pwr, .asq, .evr, .lif, .cal, .vlk] _ _ from (frame_execAtomicBound x0 s).frame (by decide)
  | .asqAbort x0 x1 x2 => show OnlyChanges [.mem, .free, .hdr, .l1, .irq, .llt, .hce, .asq, .rwc, .tpe, .sve, .psi, .lsr, .dmc, .bcc, .sec, .trm, .evr, .lif] _ _ from (frame_execAsqAbort x0 x1 x2 s).frame (by decide)
  | .taskDeadline x0 => show OnlyChanges [.us, .regs, .free, .hdr, .sys, .pwr, .irq, .asq, .rwc, .psi, .lsr, .trm, .evr, .lif, .cal, .vlk] _ _ from (frame_execTaskDeadline x0 s).frame (by decide)
  | .resultPop x0 x1 x2 => show OnlyChanges [.hdr, .asq, .evr, .lif] _ _ from (frame_execResultPop x0 x1 x2 s).frame (by decide)
  | .microcodeActivate x0 => show OnlyChanges [.regs, .hdr, .irq, .cst, .asq, .sec, .evr, .lif] _ _ from (frame_execMicrocodeActivate x0 s).frame (by decide)
  | .arm x0 x1 => show OnlyChanges [.hdr, .irq, .cst, .asq, .evr, .lif] _ _ from (frame_execArm x0 x1 s).frame (by decide)
  | .activationCopy => show OnlyChanges [.hdr, .cst, .asq, .sec, .evr, .lif] _ _ from (frame_execActivationCopy s).frame (by decide)
  | .activationAbandon => show OnlyChanges [.us, .regs, .hdr, .sys, .pwr, .cst, .asq, .evr, .lif, .cal, .vlk] _ _ from (frame_execActivationAbandon s).frame (by decide)
  | .openctlWrite x0 x1 => show OnlyChanges [.hdr, .cst, .evr, .lif] _ _ from (frame_execOpenctlWrite x0 x1 s).frame (by decide)
  | .readerCheck x0 x1 x2 x3 x4 => show OnlyChanges [.hdr, .asq, .rwc, .evr, .lif] _ _ from (frame_execReaderCheck x0 x1 x2 x3 x4 s).frame (by decide)
  | .clockField x0 x1 => show OnlyChanges [.free, .hdr, .irq, .xmt, .asq, .rwc, .tpe, .psi, .lsr, .trm, .evr, .lif] _ _ from (frame_execClockField x0 x1 s).frame (by decide)
  | .syncADecision x0 x1 => show OnlyChanges [.rwc] _ _ from (frame_execSyncADecision x0 x1 s).frame (by decide)
  | .syncBDecision x0 x1 => show OnlyChanges [.irq, .asq, .rwc] _ _ from (frame_execSyncBDecision x0 x1 s).frame (by decide)
  | .blindFraming x0 x1 => show OnlyChanges [.free, .irq, .asq, .rwc, .ldp] _ _ from (frame_execBlindFraming x0 x1 s).frame (by decide)
  | .defectSpan x0 x1 x2 => show OnlyChanges [.free, .irq, .rwc] _ _ from (frame_execDefectSpan x0 x1 x2 s).frame (by decide)
  | .loopLimit x0 x1 => show OnlyChanges [.free, .hdr, .irq, .rwc, .evr, .lif] _ _ from (frame_execLoopLimit x0 x1 s).frame (by decide)
  | .pmonSnap x0 => show OnlyChanges [.hdr, .rwc, .ldp, .sve, .opt, .evr, .lif, .vlk] _ _ from (frame_execPmonSnap x0 s).frame (by decide)
  | .pmonClr x0 => show OnlyChanges [.hdr, .rwc, .ldp, .sve, .opt, .evr, .lif, .vlk] _ _ from (frame_execPmonClr x0 s).frame (by decide)
  | .codewordDecode x0 x1 => show OnlyChanges [.hdr, .irq, .hce, .asq, .rwc, .ldp, .opt, .evr, .lif] _ _ from (frame_execCodewordDecode x0 x1 s).frame (by decide)
  | .squeezeRedecode x0 => show OnlyChanges [.hdr, .irq, .hce, .asq, .rwc, .ldp, .opt, .evr, .lif] _ _ from (frame_execSqueezeRedecode x0 s).frame (by decide)
  | .clusterDecode x0 x1 x2 x3 => show OnlyChanges [.hdr, .irq, .asq, .ldp, .evr, .lif] _ _ from (frame_execClusterDecode x0 x1 x2 x3 s).frame (by decide)
  | .retainedSlotFree x0 x1 => show OnlyChanges [.hdr, .ldp, .evr, .lif] _ _ from (frame_execRetainedSlotFree x0 x1 s).frame (by decide)
  | .failurePop x0 x1 x2 => show OnlyChanges [.hdr, .ldp, .evr, .lif] _ _ from (frame_execFailurePop x0 x1 x2 s).frame (by decide)
  | .defectInsert x0 x1 => show OnlyChanges [.mem, .free, .hdr, .l1, .irq, .hce, .tpe, .dmc, .bcc, .evr, .lif] _ _ from (frame_execDefectInsert x0 x1 s).frame (by decide)
  | .defectDelete x0 x1 => show OnlyChanges [.mem, .free, .hdr, .l1, .irq, .hce, .tpe, .dmc, .bcc, .evr, .lif] _ _ from (frame_execDefectDelete x0 x1 s).frame (by decide)
  | .defectClearPending x0 x1 => show OnlyChanges [.mem, .free, .hdr, .l1, .irq, .hce, .tpe, .dmc, .bcc, .evr, .lif] _ _ from (frame_execDefectClearPending x0 x1 s).frame (by decide)
  | .defectInsertRelease => show OnlyChanges [.mem, .free, .hdr, .l1, .irq, .hce, .tpe, .dmc, .bcc, .evr, .lif] _ _ from (frame_execDefectInsertRelease s).frame (by decide)
  | .sampleTrigger x0 x1 => show OnlyChanges [.free, .hdr, .irq, .hce, .xmt, .asq, .rwc, .tpe, .sve, .psi, .lsr, .opt, .trm, .evr, .lif] _ _ from (frame_execSampleTrigger x0 x1 s).frame (by decide)
  | .syncTimeout x0 x1 => show OnlyChanges [.free, .hdr, .irq, .hce, .xmt, .asq, .rwc, .tpe, .sve, .psi, .lsr, .opt, .trm, .evr, .lif] _ _ from (frame_execSyncTimeout x0 x1 s).frame (by decide)
  | .tableSwapGo x0 x1 => show OnlyChanges [.free, .hdr, .irq, .sve, .evr, .lif] _ _ from (frame_execTableSwapGo x0 x1 s).frame (by decide)
  | .tableSwap x0 => show OnlyChanges [.irq, .asq, .sve] _ _ from (frame_execTableSwap x0 s).frame (by decide)
  | .mailCommit x0 x1 => show OnlyChanges [.hdr, .sve, .evr, .lif] _ _ from (frame_execMailCommit x0 x1 s).frame (by decide)
  | .engineRun x0 x1 x2 => show OnlyChanges [.regs, .free, .hdr, .irq, .hce, .xmt, .asq, .rwc, .tpe, .sve, .psi, .lsr, .opt, .trm, .evr, .lif] _ _ from (frame_execEngineRun x0 x1 x2 s).frame (by decide)
  | .seekTimeout x0 => show OnlyChanges [.us, .regs, .hdr, .sys, .pwr, .irq, .asq, .sve, .opt, .evr, .lif, .cal, .vlk] _ _ from (frame_execSeekTimeout x0 s).frame (by decide)
  | .shockConversion x0 x1 x2 => show OnlyChanges [.free, .hdr, .irq, .hce, .xmt, .asq, .rwc, .tpe, .sve, .psi, .lsr, .trm, .evr, .lif] _ _ from (frame_execShockConversion x0 x1 x2 s).frame (by decide)
  | .shockSensorFault x0 x1 => show OnlyChanges [.hdr, .sve, .evr, .lif] _ _ from (frame_execShockSensorFault x0 x1 s).frame (by decide)
  | .cdaShort x0 x1 => show OnlyChanges [.free, .hdr, .irq, .hce, .xmt, .asq, .rwc, .tpe, .sve, .psi, .lsr, .opt, .trm, .evr, .lif] _ _ from (frame_execCdaShort x0 x1 s).frame (by decide)
  | .retractGo x0 x1 => show OnlyChanges [.free, .hdr, .irq, .hce, .xmt, .asq, .rwc, .tpe, .sve, .psi, .lsr, .opt, .trm, .evr, .lif] _ _ from (frame_execRetractGo x0 x1 s).frame (by decide)
  | .retractEnd x0 => show OnlyChanges [.us, .regs, .mem, .tcm, .free, .hdr, .sys, .clk, .pwr, .l1, .irq, .llt, .hce, .lgr, .xmt, .rvr, .cst, .asq, .rwc, .ldp, .tpe, .sve, .spn, .psi, .lsr, .opt, .dmc, .bcc, .sec, .thm, .trm, .sup, .evr, .lif, .cal, .vlk] _ _ from (frame_execRetractEnd x0 s).frame (by decide)
  | .focusLost x0 => show OnlyChanges [.us, .regs, .hdr, .sys, .pwr, .irq, .asq, .sve, .opt, .evr, .lif, .cal, .vlk] _ _ from (frame_execFocusLost x0 s).frame (by decide)
  | .jumpGo x0 x1 x2 => show OnlyChanges [.regs, .hdr, .sve, .opt, .evr, .lif] _ _ from (frame_execJumpGo x0 x1 x2 s).frame (by decide)
  | .focusSweepGo x0 x1 x2 => show OnlyChanges [.regs, .hdr, .sve, .opt, .evr, .lif] _ _ from (frame_execFocusSweepGo x0 x1 x2 s).frame (by decide)
  | .traceStart x0 x1 x2 => show OnlyChanges [.regs, .hdr, .irq, .sve, .evr, .lif] _ _ from (frame_execTraceStart x0 x1 x2 s).frame (by decide)
  | .traceStop x0 x1 x2 => show OnlyChanges [.regs, .hdr, .irq, .sve, .evr, .lif] _ _ from (frame_execTraceStop x0 x1 x2 s).frame (by decide)
  | .traceRead x0 x1 => show OnlyChanges [.busData, .hdr, .sve, .evr, .lif] _ _ from (frame_execTraceRead x0 x1 s).frame (by decide)
  | .start x0 => show OnlyChanges [.free, .hdr, .irq, .hce, .xmt, .asq, .rwc, .tpe, .sve, .spn, .psi, .lsr, .opt, .trm, .evr, .lif] _ _ from (frame_execStart x0 s).frame (by decide)
  | .brake x0 => show OnlyChanges [.free, .hdr, .irq, .hce, .xmt, .asq, .rwc, .tpe, .sve, .spn, .psi, .lsr, .opt, .trm, .evr, .lif] _ _ from (frame_execBrake x0 s).frame (by decide)
  | .brakeEntry => show OnlyChanges [.hdr, .spn, .evr, .lif] _ _ from (frame_execBrakeEntry s).frame (by decide)
  | .coast x0 => show OnlyChanges [.free, .hdr, .irq, .hce, .xmt, .asq, .rwc, .tpe, .sve, .spn, .psi, .lsr, .opt, .trm, .evr, .lif] _ _ from (frame_execCoast x0 s).frame (by decide)
  | .clrf x0 => show OnlyChanges [.free, .hdr, .irq, .hce, .xmt, .asq, .rwc, .tpe, .sve, .spn, .psi, .lsr, .opt, .trm, .evr, .lif] _ _ from (frame_execClrf x0 s).frame (by decide)
  | .alignDone => show OnlyChanges [.spn] _ _ from (frame_execAlignDone s).frame (by decide)
  | .spinupAttemptTimeout => show OnlyChanges [.us, .regs, .free, .hdr, .sys, .pwr, .irq, .hce, .xmt, .asq, .rwc, .tpe, .spn, .psi, .lsr, .trm, .evr, .lif, .cal, .vlk] _ _ from (frame_execSpinupAttemptTimeout s).frame (by decide)
  | .pwmCentre x0 x1 x2 x3 => show OnlyChanges [.free, .hdr, .irq, .hce, .xmt, .asq, .rwc, .tpe, .sve, .spn, .psi, .lsr, .opt, .trm, .evr, .lif] _ _ from (frame_execPwmCentre x0 x1 x2 x3 s).frame (by decide)
  | .bemfCrossing x0 x1 => show OnlyChanges [.regs, .free, .hdr, .irq, .hce, .xmt, .rvr, .asq, .rwc, .tpe, .sve, .spn, .psi, .lsr, .opt, .trm, .evr, .lif] _ _ from (frame_execBemfCrossing x0 x1 s).frame (by decide)
  | .commutation x0 => show OnlyChanges [.free, .hdr, .irq, .hce, .xmt, .asq, .rwc, .tpe, .sve, .spn, .psi, .lsr, .opt, .trm, .evr, .lif] _ _ from (frame_execCommutation x0 s).frame (by decide)
  | .floatPeriodEnd x0 => show OnlyChanges [.free, .hdr, .irq, .hce, .xmt, .asq, .rwc, .tpe, .sve, .spn, .psi, .lsr, .opt, .trm, .evr, .lif] _ _ from (frame_execFloatPeriodEnd x0 s).frame (by decide)
  | .recoveryTimeout => show OnlyChanges [.us, .regs, .free, .hdr, .sys, .pwr, .irq, .hce, .xmt, .asq, .rwc, .tpe, .sve, .spn, .psi, .lsr, .opt, .trm, .evr, .lif, .cal, .vlk] _ _ from (frame_execRecoveryTimeout s).frame (by decide)
  | .motorRailThreshold x0 => show OnlyChanges [.spn] _ _ from (frame_execMotorRailThreshold x0 s).frame (by decide)
  | .chopperFault x0 x1 => show OnlyChanges [.free, .hdr, .irq, .hce, .xmt, .asq, .rwc, .tpe, .sve, .spn, .psi, .lsr, .opt, .trm, .evr, .lif] _ _ from (frame_execChopperFault x0 x1 s).frame (by decide)
  | .chopperConducting x0 => show OnlyChanges [.hdr, .irq, .spn, .evr, .lif] _ _ from (frame_execChopperConducting x0 s).frame (by decide)
  | .railOvervoltage x0 => show OnlyChanges [.free, .hdr, .irq, .hce, .xmt, .asq, .rwc, .tpe, .spn, .psi, .lsr, .trm, .evr, .lif] _ _ from (frame_execRailOvervoltage x0 s).frame (by decide)
  | .spnFltNLow => show OnlyChanges [.free, .hdr, .irq, .hce, .xmt, .asq, .rwc, .tpe, .sve, .spn, .psi, .lsr, .opt, .trm, .evr, .lif] _ _ from (frame_execSpnFltNLow s).frame (by decide)
  | .phaseOpen x0 => show OnlyChanges [.free, .hdr, .irq, .hce, .xmt, .asq, .rwc, .tpe, .sve, .spn, .psi, .lsr, .opt, .trm, .evr, .lif] _ _ from (frame_execPhaseOpen x0 s).frame (by decide)
  | .supplyReversed x0 => show OnlyChanges [.hdr, .spn, .evr, .lif] _ _ from (frame_execSupplyReversed x0 s).frame (by decide)
  | .spindleStopped => show OnlyChanges [.hdr, .irq, .spn, .evr, .lif] _ _ from (frame_execSpindleStopped s).frame (by decide)
  | .rectifyExit => show OnlyChanges [.spn] _ _ from (frame_execRectifyExit s).frame (by decide)
  | .preampFault x0 => show OnlyChanges [.free, .hdr, .irq, .xmt, .asq, .rwc, .tpe, .psi, .lsr, .trm, .evr, .lif] _ _ from (frame_execPreampFault x0 s).frame (by decide)
  | .psiFrameDone x0 x1 x2 => show OnlyChanges [.hdr, .irq, .asq, .psi, .lsr, .evr, .lif] _ _ from (frame_execPsiFrameDone x0 x1 x2 s).frame (by decide)
  | .psiFwcmdGo x0 x1 x2 => show OnlyChanges [.hdr, .psi, .evr, .lif] _ _ from (frame_execPsiFwcmdGo x0 x1 x2 s).frame (by decide)
  | .laserMonitorRead x0 x1 x2 => show OnlyChanges [.us, .regs, .free, .hdr, .sys, .pwr, .irq, .xmt, .asq, .rwc, .tpe, .psi, .lsr, .trm, .evr, .lif, .cal, .vlk] _ _ from (frame_execLaserMonitorRead x0 x1 x2 s).frame (by decide)
  | .lsrClrf x0 x1 => show OnlyChanges [.hdr, .lsr, .evr, .lif] _ _ from (frame_execLsrClrf x0 x1 s).frame (by decide)
  | .addressUnit x0 x1 x2 x3 => show OnlyChanges [.free, .hdr, .irq, .xmt, .asq, .rwc, .tpe, .sve, .psi, .lsr, .opt, .trm, .evr, .lif] _ _ from (frame_execAddressUnit x0 x1 x2 x3 s).frame (by decide)
  | .optFmtWrite x0 x1 => show OnlyChanges [.regs, .hdr, .evr, .lif] _ _ from (frame_execOptFmtWrite x0 x1 s).frame (by decide)
  | .saDelayEnd x0 => show OnlyChanges [.us, .regs, .hdr, .sys, .pwr, .sve, .opt, .evr, .lif, .cal, .vlk] _ _ from (frame_execSaDelayEnd x0 s).frame (by decide)
  | .sledMoveEnd x0 => show OnlyChanges [.us, .regs, .hdr, .sys, .pwr, .opt, .evr, .lif, .cal, .vlk] _ _ from (frame_execSledMoveEnd x0 s).frame (by decide)
  | .ddrRead x0 x1 x2 => show OnlyChanges [.busData, .busErr, .mem, .free, .hdr, .l1, .irq, .dmc, .bcc, .evr, .lif] _ _ from (frame_execDdrRead x0 x1 x2 s).frame (by decide)
  | .regattrPolicyWrite x0 x1 x2 => show OnlyChanges [.regs, .mem, .hdr, .dmc, .bcc, .evr, .lif] _ _ from (frame_execRegattrPolicyWrite x0 x1 x2 s).frame (by decide)
  | .splitRead x0 => show OnlyChanges [.regs, .mem, .hdr, .irq, .dmc, .bcc, .evr, .lif] _ _ from (frame_execSplitRead x0 s).frame (by decide)
  | .splitWrite x0 => show OnlyChanges [.regs, .mem, .hdr, .irq, .dmc, .bcc, .evr, .lif] _ _ from (frame_execSplitWrite x0 s).frame (by decide)
  | .scrubRead x0 => show OnlyChanges [.hdr, .irq, .dmc, .evr, .lif] _ _ from (frame_execScrubRead x0 s).frame (by decide)
  | .softPpr x0 x1 => show OnlyChanges [.regs, .hdr, .irq, .dmc, .evr, .lif] _ _ from (frame_execSoftPpr x0 x1 s).frame (by decide)
  | .hardPpr x0 x1 => show OnlyChanges [.regs, .hdr, .irq, .dmc, .evr, .lif] _ _ from (frame_execHardPpr x0 x1 s).frame (by decide)
  | .rowLogClear x0 x1 => show OnlyChanges [.hdr, .dmc, .evr, .lif] _ _ from (frame_execRowLogClear x0 x1 s).frame (by decide)
  | .bccAccess x0 x1 x2 x3 x4 => show OnlyChanges [.busData, .busErr, .mem, .free, .hdr, .l1, .irq, .dmc, .bcc, .evr, .lif] _ _ from (frame_execBccAccess x0 x1 x2 x3 x4 s).frame (by decide)
  | .ceWindowExpiry => show OnlyChanges [.bcc] _ _ from (frame_execCeWindowExpiry s).frame (by decide)
  | .bccEnable x0 => show OnlyChanges [.hdr, .bcc, .evr, .lif] _ _ from (frame_execBccEnable x0 s).frame (by decide)
  | .bccDisable x0 => show OnlyChanges [.hdr, .bcc, .evr, .lif] _ _ from (frame_execBccDisable x0 s).frame (by decide)
  | .drainComplete => show OnlyChanges [.mem, .free, .hdr, .irq, .dmc, .bcc, .evr, .lif] _ _ from (frame_execDrainComplete s).frame (by decide)
  | .bccClean x0 => show OnlyChanges [.regs, .hdr, .irq, .bcc, .evr, .lif] _ _ from (frame_execBccClean x0 s).frame (by decide)
  | .bccInval x0 => show OnlyChanges [.regs, .hdr, .irq, .bcc, .evr, .lif] _ _ from (frame_execBccInval x0 s).frame (by decide)
  | .bccCleanInval x0 => show OnlyChanges [.regs, .hdr, .irq, .bcc, .evr, .lif] _ _ from (frame_execBccCleanInval x0 s).frame (by decide)
  | .bccZero x0 => show OnlyChanges [.regs, .hdr, .irq, .bcc, .evr, .lif] _ _ from (frame_execBccZero x0 s).frame (by decide)
  | .bccLock x0 => show OnlyChanges [.regs, .hdr, .irq, .bcc, .evr, .lif] _ _ from (frame_execBccLock x0 s).frame (by decide)
  | .bccUnlock x0 => show OnlyChanges [.regs, .hdr, .irq, .bcc, .evr, .lif] _ _ from (frame_execBccUnlock x0 s).frame (by decide)
  | .bccInvalAll x0 => show OnlyChanges [.regs, .hdr, .irq, .bcc, .evr, .lif] _ _ from (frame_execBccInvalAll x0 s).frame (by decide)
  | .rangeOpDone => show OnlyChanges [.mem, .hdr, .irq, .dmc, .bcc, .evr, .lif] _ _ from (frame_execRangeOpDone s).frame (by decide)
  | .repairMapEntry x0 => show OnlyChanges [.regs, .free, .hdr, .sys, .sec, .evr, .lif] _ _ from (frame_execRepairMapEntry x0 s).frame (by decide)
  | .extend x0 x1 => show OnlyChanges [.regs, .hdr, .sec, .evr, .lif] _ _ from (frame_execExtend x0 x1 s).frame (by decide)
  | .keyGenerate x0 x1 x2 => show OnlyChanges [.regs, .mem, .free, .hdr, .l1, .irq, .dmc, .bcc, .sec, .evr, .lif] _ _ from (frame_execKeyGenerate x0 x1 x2 s).frame (by decide)
  | .keyZero x0 => show OnlyChanges [.regs, .hdr, .sec, .evr, .lif] _ _ from (frame_execKeyZero x0 s).frame (by decide)
  | .keyCheckpoint => show OnlyChanges [.regs, .mem, .free, .hdr, .l1, .irq, .dmc, .bcc, .sec, .evr, .lif] _ _ from (frame_execKeyCheckpoint s).frame (by decide)
  | .nsActive x0 x1 x2 => show OnlyChanges [.regs, .hdr, .sec, .evr, .lif] _ _ from (frame_execNsActive x0 x1 x2 s).frame (by decide)
  | .svnCommit x0 => show OnlyChanges [.regs, .free, .hdr, .sec, .evr, .lif] _ _ from (frame_execSvnCommit x0 s).frame (by decide)
  | .takeOwnership x0 => show OnlyChanges [.regs, .free, .hdr, .sec, .evr, .lif] _ _ from (frame_execTakeOwnership x0 s).frame (by decide)
  | .addOwnerKey x0 x1 => show OnlyChanges [.regs, .free, .hdr, .sec, .evr, .lif] _ _ from (frame_execAddOwnerKey x0 x1 s).frame (by decide)
  | .revokeOwnerKey x0 x1 => show OnlyChanges [.regs, .free, .hdr, .sec, .evr, .lif] _ _ from (frame_execRevokeOwnerKey x0 x1 s).frame (by decide)
  | .ownerPolicy x0 x1 x2 x3 => show OnlyChanges [.regs, .hdr, .sec, .evr, .lif] _ _ from (frame_execOwnerPolicy x0 x1 x2 x3 s).frame (by decide)
  | .exportKeys x0 x1 => show OnlyChanges [.regs, .mem, .free, .hdr, .l1, .irq, .dmc, .bcc, .sec, .evr, .lif] _ _ from (frame_execExportKeys x0 x1 s).frame (by decide)
  | .importKeys x0 x1 => show OnlyChanges [.regs, .mem, .free, .hdr, .l1, .irq, .dmc, .bcc, .sec, .evr, .lif] _ _ from (frame_execImportKeys x0 x1 s).frame (by decide)
  | .behaviourProfileUnlock x0 x1 => show OnlyChanges [.regs, .hdr, .sys, .sec, .evr, .lif] _ _ from (frame_execBehaviourProfileUnlock x0 x1 s).frame (by decide)
  | .firmwareActivationMeasurement x0 => show OnlyChanges [.regs, .hdr, .sec, .evr, .lif] _ _ from (frame_execFirmwareActivationMeasurement x0 s).frame (by decide)
  | .slotSelect x0 x1 => show OnlyChanges [.regs, .hdr, .sec, .evr, .lif] _ _ from (frame_execSlotSelect x0 x1 s).frame (by decide)
  | .snuffLevel1 x0 => show OnlyChanges [.busData, .busErr, .regs, .mem, .free, .hdr, .sys, .clk, .pwr, .l1, .irq, .llt, .hce, .lgr, .xmt, .cst, .asq, .rwc, .tpe, .psi, .lsr, .dmc, .bcc, .sec, .trm, .sup, .evr, .lif, .vlk] _ _ from (frame_execSnuffLevel1 x0 s).frame (by decide)
  | .snuffLevel2 x0 => show OnlyChanges [.busData, .busErr, .regs, .mem, .free, .hdr, .sys, .clk, .pwr, .l1, .irq, .llt, .hce, .lgr, .xmt, .cst, .asq, .rwc, .tpe, .psi, .lsr, .dmc, .bcc, .sec, .trm, .sup, .evr, .lif, .vlk] _ _ from (frame_execSnuffLevel2 x0 s).frame (by decide)
  | .alarmFuseBlow => show OnlyChanges [.busData, .busErr, .regs, .mem, .free, .hdr, .sys, .clk, .pwr, .l1, .irq, .llt, .hce, .lgr, .xmt, .cst, .asq, .rwc, .tpe, .psi, .lsr, .dmc, .bcc, .sec, .trm, .sup, .evr, .lif, .vlk] _ _ from (frame_execAlarmFuseBlow s).frame (by decide)
  | .epochFuseBlow => show OnlyChanges [.free, .hdr, .sec, .evr, .lif] _ _ from (frame_execEpochFuseBlow s).frame (by decide)
  | .keyRestore => show OnlyChanges [.us, .regs, .hdr, .sys, .pwr, .xmt, .sec, .evr, .lif, .cal, .vlk] _ _ from (frame_execKeyRestore s).frame (by decide)
  | .debugChallenge => show OnlyChanges [.free, .sec] _ _ from (frame_execDebugChallenge s).frame (by decide)
  | .debugResponse x0 x1 x2 x3 => show OnlyChanges [.busData, .busErr, .regs, .mem, .free, .hdr, .sys, .clk, .pwr, .l1, .irq, .llt, .hce, .lgr, .xmt, .cst, .asq, .rwc, .tpe, .psi, .lsr, .dmc, .bcc, .sec, .trm, .sup, .evr, .lif, .vlk] _ _ from (frame_execDebugResponse x0 x1 x2 x3 s).frame (by decide)
  | .thmConversion x0 x1 => show OnlyChanges [.free, .hdr, .sys, .irq, .llt, .hce, .lgr, .xmt, .rvr, .asq, .rwc, .tpe, .sve, .spn, .psi, .lsr, .opt, .thm, .trm, .evr, .lif] _ _ from (frame_execThmConversion x0 x1 s).frame (by decide)
  | .shutdownDimEntry => show OnlyChanges [.free, .hdr, .pwr, .hce, .lgr, .thm, .evr, .lif] _ _ from (frame_execShutdownDimEntry s).frame (by decide)
  | .criticalDarkEntry => show OnlyChanges [.us, .regs, .mem, .tcm, .hdr, .sys, .clk, .pwr, .l1, .irq, .llt, .hce, .lgr, .xmt, .rvr, .cst, .asq, .rwc, .ldp, .tpe, .sve, .spn, .psi, .lsr, .opt, .dmc, .bcc, .sec, .thm, .trm, .sup, .evr, .lif, .cal, .vlk] _ _ from (frame_execCriticalDarkEntry s).frame (by decide)
  | .criticalWake x0 => show OnlyChanges [.us, .regs, .mem, .free, .hdr, .sys, .clk, .pwr, .irq, .hce, .lgr, .xmt, .cst, .dmc, .bcc, .sec, .thm, .evr, .lif, .cal, .vlk] _ _ from (frame_execCriticalWake x0 s).frame (by decide)
  | .clrshut x0 => show OnlyChanges [.hdr, .irq, .llt, .hce, .lgr, .rvr, .thm, .evr, .lif] _ _ from (frame_execClrshut x0 s).frame (by decide)
  | .clrexcl x0 => show OnlyChanges [.hdr, .irq, .llt, .hce, .lgr, .rvr, .thm, .evr, .lif] _ _ from (frame_execClrexcl x0 s).frame (by decide)
  | .trimCompute x0 => show OnlyChanges [.free, .hdr, .trm, .evr, .lif] _ _ from (frame_execTrimCompute x0 s).frame (by decide)
  | .taperStep x0 => show OnlyChanges [.us, .regs, .free, .hdr, .sys, .pwr, .irq, .asq, .rwc, .trm, .evr, .lif, .cal, .vlk] _ _ from (frame_execTaperStep x0 s).frame (by decide)
  | .trimAge x0 => show OnlyChanges [.us, .regs, .hdr, .sys, .pwr, .trm, .evr, .lif, .cal, .vlk] _ _ from (frame_execTrimAge x0 s).frame (by decide)
  | .eventStore => show OnlyChanges [.hdr, .evr, .lif, .vlk] _ _ from (frame_execEventStore s).frame (by decide)
  | .eventRaiseSw x0 x1 => show OnlyChanges [.regs, .hdr, .evr, .lif] _ _ from (frame_execEventRaiseSw x0 x1 s).frame (by decide)
  | .floodPeriod => show OnlyChanges [.hdr, .evr, .lif, .vlk] _ _ from (frame_execFloodPeriod s).frame (by decide)
  | .evrNextRead x0 => show OnlyChanges [.busData, .hdr, .evr, .lif] _ _ from (frame_execEvrNextRead x0 s).frame (by decide)
  | .evrCursorWrite x0 x1 => show OnlyChanges [.hdr, .evr, .lif] _ _ from (frame_execEvrCursorWrite x0 x1 s).frame (by decide)
  | .evrWindowAdvance x0 => show OnlyChanges [.busData, .hdr, .evr, .lif] _ _ from (frame_execEvrWindowAdvance x0 s).frame (by decide)
  | .evrBaseWrite x0 x1 x2 => show OnlyChanges [.free, .hdr, .evr, .lif] _ _ from (frame_execEvrBaseWrite x0 x1 x2 s).frame (by decide)
  | .evrStore x0 => show OnlyChanges [.hdr, .evr, .lif] _ _ from (frame_execEvrStore x0 s).frame (by decide)
  | .evrCommit x0 => show OnlyChanges [.free, .hdr, .evr, .lif, .vlk] _ _ from (frame_execEvrCommit x0 s).frame (by decide)
  | .lifAdd x0 x1 => show OnlyChanges [.hdr, .evr, .lif] _ _ from (frame_execLifAdd x0 x1 s).frame (by decide)
  | .lifSeal x0 => show OnlyChanges [.hdr, .evr, .lif] _ _ from (frame_execLifSeal x0 s).frame (by decide)
  | .lifSnap x0 => show OnlyChanges [.hdr, .evr, .lif] _ _ from (frame_execLifSnap x0 s).frame (by decide)
  | .lifTick => show OnlyChanges [.hdr, .evr, .lif] _ _ from (frame_execLifTick s).frame (by decide)
  | .calRead x0 => show OnlyChanges [.busData, .hdr, .evr, .lif, .cal] _ _ from (frame_execCalRead x0 s).frame (by decide)
  | .calSet x0 x1 => show OnlyChanges [.regs, .hdr, .pwr, .evr, .lif, .cal] _ _ from (frame_execCalSet x0 x1 s).frame (by decide)
  | .calAdjust x0 x1 => show OnlyChanges [.regs, .hdr, .evr, .lif, .cal] _ _ from (frame_execCalAdjust x0 x1 s).frame (by decide)
  | .slewDone => show OnlyChanges [.us, .regs, .hdr, .sys, .pwr, .evr, .lif, .cal, .vlk] _ _ from (frame_execSlewDone s).frame (by decide)
  | .calAlarm => show OnlyChanges [.us, .regs, .hdr, .sys, .pwr, .evr, .lif, .cal, .vlk] _ _ from (frame_execCalAlarm s).frame (by decide)
  | .beaconSend => show OnlyChanges [.us, .regs, .hdr, .sys, .pwr, .irq, .evr, .lif, .cal, .vlk] _ _ from (frame_execBeaconSend s).frame (by decide)
  | .beaconReceive x0 x1 => show OnlyChanges [.regs, .free, .hdr, .pwr, .irq, .evr, .lif, .cal, .vlk] _ _ from (frame_execBeaconReceive x0 x1 s).frame (by decide)
  | .beaconMissed => show OnlyChanges [.hdr, .irq, .evr, .lif, .vlk] _ _ from (frame_execBeaconMissed s).frame (by decide)
  | .discoverSend => show OnlyChanges [.irq, .vlk] _ _ from (frame_execDiscoverSend s).frame (by decide)
  | .discoverReceive x0 => show OnlyChanges [.free, .hdr, .irq, .evr, .lif, .vlk] _ _ from (frame_execDiscoverReceive x0 s).frame (by decide)
  | .enrollReceive x0 x1 => show OnlyChanges [.mem, .free, .hdr, .l1, .irq, .dmc, .bcc, .evr, .lif, .vlk] _ _ from (frame_execEnrollReceive x0 x1 s).frame (by decide)
  | .pollSend => show OnlyChanges [.free, .irq, .vlk] _ _ from (frame_execPollSend s).frame (by decide)
  | .pollReceive x0 => show OnlyChanges [.hdr, .irq, .llt, .sec, .evr, .lif, .vlk] _ _ from (frame_execPollReceive x0 s).frame (by decide)
  | .replyReceive x0 => show OnlyChanges [.mem, .free, .hdr, .l1, .irq, .dmc, .bcc, .evr, .lif, .vlk] _ _ from (frame_execReplyReceive x0 s).frame (by decide)
  | .pollMissed => show OnlyChanges [.hdr, .irq, .evr, .lif, .vlk] _ _ from (frame_execPollMissed s).frame (by decide)
  | .imageReceive x0 x1 x2 x3 x4 => show OnlyChanges [.mem, .free, .hdr, .l1, .irq, .dmc, .bcc, .evr, .lif, .vlk] _ _ from (frame_execImageReceive x0 x1 x2 x3 x4 s).frame (by decide)
  | .vlkWake x0 x1 x2 => show OnlyChanges [.busData, .busErr, .regs, .mem, .free, .hdr, .sys, .clk, .pwr, .l1, .irq, .llt, .hce, .lgr, .xmt, .cst, .dmc, .bcc, .sec, .sup, .evr, .lif] _ _ from (frame_execVlkWake x0 x1 x2 s).frame (by decide)
  | .leaseRenewalRequest => show OnlyChanges [.us, .regs, .hdr, .sys, .pwr, .evr, .lif, .cal, .vlk] _ _ from (frame_execLeaseRenewalRequest s).frame (by decide)
  | .leaseExpiry => show OnlyChanges [.us, .regs, .free, .hdr, .sys, .pwr, .irq, .llt, .evr, .lif, .cal, .vlk] _ _ from (frame_execLeaseExpiry s).frame (by decide)
  | .quietPeriodEnd => show OnlyChanges [.us, .regs, .hdr, .sys, .pwr, .evr, .lif, .cal, .vlk] _ _ from (frame_execQuietPeriodEnd s).frame (by decide)
  | .orphanBackoffEnd => show OnlyChanges [.us, .regs, .hdr, .sys, .pwr, .irq, .llt, .evr, .lif, .cal, .vlk] _ _ from (frame_execOrphanBackoffEnd s).frame (by decide)
  | .orphanWindowEnd => show OnlyChanges [.us, .regs, .hdr, .sys, .pwr, .irq, .llt, .evr, .lif, .cal, .vlk] _ _ from (frame_execOrphanWindowEnd s).frame (by decide)
  | .segmentKeyRotation => show OnlyChanges [.us, .regs, .hdr, .sys, .pwr, .evr, .lif, .cal, .vlk] _ _ from (frame_execSegmentKeyRotation s).frame (by decide)
  | .vlkCmdWake x0 x1 => show OnlyChanges [.hdr, .evr, .lif, .vlk] _ _ from (frame_execVlkCmdWake x0 x1 s).frame (by decide)
  | .vlkCmdAttreq x0 x1 => show OnlyChanges [.hdr, .evr, .lif, .vlk] _ _ from (frame_execVlkCmdAttreq x0 x1 s).frame (by decide)
  | .vlkCmdRemove x0 x1 => show OnlyChanges [.hdr, .irq, .evr, .lif, .vlk] _ _ from (frame_execVlkCmdRemove x0 x1 s).frame (by decide)
  | .imageFanout x0 x1 => show OnlyChanges [.regs, .free, .hdr, .evr, .lif, .vlk] _ _ from (frame_execImageFanout x0 x1 s).frame (by decide)
  | .linkOpen => show OnlyChanges [.us, .regs, .hdr, .sys, .pwr, .irq, .evr, .lif, .cal, .vlk] _ _ from (frame_execLinkOpen s).frame (by decide)
  | .linkShort x0 => show OnlyChanges [.hdr, .irq, .evr, .lif, .vlk] _ _ from (frame_execLinkShort x0 s).frame (by decide)
  | .linkRetry x0 => show OnlyChanges [.us, .regs, .hdr, .sys, .pwr, .evr, .lif, .cal, .vlk] _ _ from (frame_execLinkRetry x0 s).frame (by decide)
  | .headRetire x0 x1 x2 x3 => show OnlyChanges [.free, .hdr, .hce, .lgr, .xmt, .asq, .evr, .lif] _ _ from (frame_execHeadRetire x0 x1 x2 x3 s).frame (by decide)
  | .sectorStart x0 => show OnlyChanges [.asq, .rwc] _ _ from (frame_execSectorStart x0 s).frame (by decide)
  | .sectorEnd x0 => show OnlyChanges [.free, .xmt, .asq, .rwc] _ _ from (frame_execSectorEnd x0 s).frame (by decide)
  | .wedgeGap x0 x1 => show OnlyChanges [.free, .irq, .rwc, .trm] _ _ from (frame_execWedgeGap x0 x1 s).frame (by decide)
  | .defectSpanEnd x0 x1 x2 => show OnlyChanges [.hdr, .irq, .rwc, .evr, .lif] _ _ from (frame_execDefectSpanEnd x0 x1 x2 s).frame (by decide)
  | .wickCriticalLimit x0 => show OnlyChanges [.regs, .mem, .tcm, .free, .hdr, .sys, .clk, .pwr, .l1, .irq, .llt, .hce, .lgr, .xmt, .rvr, .cst, .asq, .rwc, .ldp, .tpe, .sve, .spn, .psi, .lsr, .opt, .dmc, .bcc, .sec, .thm, .trm, .sup, .evr, .lif, .vlk] _ _ from (frame_execWickCriticalLimit x0 s).frame (by decide)
  | .pprDone x0 => show OnlyChanges [.mem, .free, .hdr, .irq, .dmc, .evr, .lif] _ _ from (frame_execPprDone x0 s).frame (by decide)
  | .segmentGrantExpiry x0 => show OnlyChanges [.us, .regs, .hdr, .sys, .pwr, .irq, .evr, .lif, .cal, .vlk] _ _ from (frame_execSegmentGrantExpiry x0 s).frame (by decide)
  | .fleetAuthorizationExpiry => show OnlyChanges [.us, .regs, .hdr, .sys, .pwr, .evr, .lif, .cal, .vlk] _ _ from (frame_execFleetAuthorizationExpiry s).frame (by decide)
  | .vddAux33Loss => show OnlyChanges [.us, .regs, .mem, .tcm, .hdr, .sys, .clk, .pwr, .l1, .irq, .llt, .hce, .lgr, .xmt, .rvr, .cst, .asq, .rwc, .ldp, .tpe, .sve, .spn, .psi, .lsr, .opt, .dmc, .bcc, .sec, .thm, .trm, .sup, .evr, .lif, .cal, .vlk] _ _ from (frame_execVddAux33Loss s).frame (by decide)

/-- No command changes the queue of waiting commands. -/
theorem pending_exec (i : Instr) (s : State) : (after s (exec i s)).pending = s.pending :=
  match i with
  | .regWrite x0 x1 x2 => (frame_execRegWrite x0 x1 x2 s) .pending rfl
  | .busAccess x0 x1 x2 x3 x4 => (frame_execBusAccess x0 x1 x2 x3 x4 s) .pending rfl
  | .guardWordWrite x0 x1 x2 => (frame_execGuardWordWrite x0 x1 x2 s) .pending rfl
  | .guardWindowExhausted x0 => (frame_execGuardWindowExhausted x0 s) .pending rfl
  | .softReset x0 x1 => (frame_execSoftReset x0 x1 s) .pending rfl
  | .softResetComplete x0 => (frame_execSoftResetComplete x0 s) .pending rfl
  | .freeze x0 x1 x2 => (frame_execFreeze x0 x1 x2 s) .pending rfl
  | .errClear x0 x1 => (frame_execErrClear x0 x1 s) .pending rfl
  | .irqSetWrite x0 x1 x2 => (frame_execIrqSetWrite x0 x1 x2 s) .pending rfl
  | .allcln x0 x1 x2 => (frame_execAllcln x0 x1 x2 s) .pending rfl
  | .l1Clean x0 x1 => (frame_execL1Clean x0 x1 s) .pending rfl
  | .l1Invalidate x0 x1 => (frame_execL1Invalidate x0 x1 s) .pending rfl
  | .l1CleanAndInvalidate x0 x1 => (frame_execL1CleanAndInvalidate x0 x1 s) .pending rfl
  | .l1NoOperation x0 x1 => (frame_execL1NoOperation x0 x1 s) .pending rfl
  | .irqTake x0 => (frame_execIrqTake x0 s) .pending rfl
  | .uirqdone x0 x1 => (frame_execUirqdone x0 x1 s) .pending rfl
  | .irqRouteWrite x0 x1 x2 => (frame_execIrqRouteWrite x0 x1 x2 s) .pending rfl
  | .irqSwset x0 x1 => (frame_execIrqSwset x0 x1 s) .pending rfl
  | .twinDataAccess x0 x1 x2 x3 => (frame_execTwinDataAccess x0 x1 x2 x3 s) .pending rfl
  | .por => (frame_execPor s) .pending rfl
  | .xo32kQualified => (frame_execXo32kQualified s) .pending rfl
  | .xo32kFail => (frame_execXo32kFail s) .pending rfl
  | .xo40Fail => (frame_execXo40Fail s) .pending rfl
  | .mainRailsGood x0 x1 => (frame_execMainRailsGood x0 x1 s) .pending rfl
  | .railFault x0 => (frame_execRailFault x0 s) .pending rfl
  | .uartRecoveryImage x0 => (frame_execUartRecoveryImage x0 s) .pending rfl
  | .perstDeassert x0 => (frame_execPerstDeassert x0 s) .pending rfl
  | .perstAssert x0 => (frame_execPerstAssert x0 s) .pending rfl
  | .configRequest x0 x1 => (frame_execConfigRequest x0 x1 s) .pending rfl
  | .dmcInitGo x0 => (frame_execDmcInitGo x0 s) .pending rfl
  | .dmcInitDone x0 => (frame_execDmcInitDone x0 s) .pending rfl
  | .dmcInitHeldAccess x0 => (frame_execDmcInitHeldAccess x0 s) .pending rfl
  | .readySet x0 x1 => (frame_execReadySet x0 x1 s) .pending rfl
  | .readyClr x0 => (frame_execReadyClr x0 s) .pending rfl
  | .controllerEnable x0 x1 => (frame_execControllerEnable x0 x1 s) .pending rfl
  | .controllerReset x0 => (frame_execControllerReset x0 s) .pending rfl
  | .functionLevelReset x0 => (frame_execFunctionLevelReset x0 s) .pending rfl
  | .linkDown x0 => (frame_execLinkDown x0 s) .pending rfl
  | .namespaceReady x0 => (frame_execNamespaceReady x0 s) .pending rfl
  | .resetNAssert => (frame_execResetNAssert s) .pending rfl
  | .coreDomainHold x0 => (frame_execCoreDomainHold x0 s) .pending rfl
  | .resetNRelease x0 => (frame_execResetNRelease x0 s) .pending rfl
  | .nvmSubsystemReset x0 x1 => (frame_execNvmSubsystemReset x0 x1 s) .pending rfl
  | .watchdogEnable x0 x1 => (frame_execWatchdogEnable x0 x1 s) .pending rfl
  | .watchdogKick x0 x1 => (frame_execWatchdogKick x0 x1 s) .pending rfl
  | .watchdogPeriod => (frame_execWatchdogPeriod s) .pending rfl
  | .watchdogReset => (frame_execWatchdogReset s) .pending rfl
  | .powerLoss => (frame_execPowerLoss s) .pending rfl
  | .preqGo x0 x1 => (frame_execPreqGo x0 x1 s) .pending rfl
  | .powerStateEntered => (frame_execPowerStateEntered s) .pending rfl
  | .pdoffWrite x0 x1 => (frame_execPdoffWrite x0 x1 s) .pending rfl
  | .wakeSource x0 x1 x2 => (frame_execWakeSource x0 x1 x2 s) .pending rfl
  | .clkDomWrite x0 x1 x2 => (frame_execClkDomWrite x0 x1 x2 s) .pending rfl
  | .pllLocked x0 => (frame_execPllLocked x0 s) .pending rfl
  | .pllLockLoss x0 => (frame_execPllLockLoss x0 s) .pending rfl
  | .psEntryRestart => (frame_execPsEntryRestart s) .pending rfl
  | .leaveRequest x0 x1 x2 => (frame_execLeaveRequest x0 x1 x2 s) .pending rfl
  | .leaveRelease x0 x1 x2 => (frame_execLeaveRelease x0 x1 x2 s) .pending rfl
  | .leaveRenew x0 x1 x2 => (frame_execLeaveRenew x0 x1 x2 s) .pending rfl
  | .leaveExpiry x0 => (frame_execLeaveExpiry x0 s) .pending rfl
  | .drawAfterExpiry x0 => (frame_execDrawAfterExpiry x0 s) .pending rfl
  | .leaveDeadline x0 => (frame_execLeaveDeadline x0 s) .pending rfl
  | .thermalCeilingStep => (frame_execThermalCeilingStep s) .pending rfl
  | .sqTailDoorbell x0 x1 x2 x3 => (frame_execSqTailDoorbell x0 x1 x2 x3 s) .pending rfl
  | .cqHeadDoorbell x0 x1 x2 => (frame_execCqHeadDoorbell x0 x1 x2 s) .pending rfl
  | .commandFetch x0 => (frame_execCommandFetch x0 s) .pending rfl
  | .fetchPauseEnd => (frame_execFetchPauseEnd s) .pending rfl
  | .writeTransferStart x0 => (frame_execWriteTransferStart x0 s) .pending rfl
  | .dataTransferComplete x0 => (frame_execDataTransferComplete x0 s) .pending rfl
  | .hostMemoryError x0 => (frame_execHostMemoryError x0 s) .pending rfl
  | .completionPost x0 => (frame_execCompletionPost x0 s) .pending rfl
  | .interruptCoalescingTimeout x0 x1 => (frame_execInterruptCoalescingTimeout x0 x1 s) .pending rfl
  | .recoveryTimeLimitExpiry x0 => (frame_execRecoveryTimeLimitExpiry x0 s) .pending rfl
  | .abortMatch x0 x1 => (frame_execAbortMatch x0 x1 s) .pending rfl
  | .read x0 x1 => (frame_execRead x0 x1 s) .pending rfl
  | .write x0 => (frame_execWrite x0 s) .pending rfl
  | .zoneAppend x0 => (frame_execZoneAppend x0 s) .pending rfl
  | .flush x0 => (frame_execFlush x0 s) .pending rfl
  | .compare x0 x1 => (frame_execCompare x0 x1 s) .pending rfl
  | .writeUncorrectable x0 => (frame_execWriteUncorrectable x0 s) .pending rfl
  | .writeZeroes x0 => (frame_execWriteZeroes x0 s) .pending rfl
  | .verify x0 x1 => (frame_execVerify x0 x1 s) .pending rfl
  | .datasetManagement x0 => (frame_execDatasetManagement x0 s) .pending rfl
  | .reservationRegister x0 => (frame_execReservationRegister x0 s) .pending rfl
  | .reservationReport x0 => (frame_execReservationReport x0 s) .pending rfl
  | .reservationAcquire x0 => (frame_execReservationAcquire x0 s) .pending rfl
  | .reservationRelease x0 => (frame_execReservationRelease x0 s) .pending rfl
  | .zoneOpen x0 => (frame_execZoneOpen x0 s) .pending rfl
  | .zoneClose x0 => (frame_execZoneClose x0 s) .pending rfl
  | .zoneFinish x0 => (frame_execZoneFinish x0 s) .pending rfl
  | .zoneReset x0 => (frame_execZoneReset x0 s) .pending rfl
  | .zoneOffline x0 => (frame_execZoneOffline x0 s) .pending rfl
  | .reportZones x0 => (frame_execReportZones x0 s) .pending rfl
  | .createIoSq x0 => (frame_execCreateIoSq x0 s) .pending rfl
  | .createIoCq x0 => (frame_execCreateIoCq x0 s) .pending rfl
  | .deleteIoSq x0 => (frame_execDeleteIoSq x0 s) .pending rfl
  | .deleteIoCq x0 => (frame_execDeleteIoCq x0 s) .pending rfl
  | .identify x0 => (frame_execIdentify x0 s) .pending rfl
  | .getLogPage x0 => (frame_execGetLogPage x0 s) .pending rfl
  | .logGuaranteeExceptions x0 => (frame_execLogGuaranteeExceptions x0 s) .pending rfl
  | .logEventRecorder x0 => (frame_execLogEventRecorder x0 s) .pending rfl
  | .logLifetimeCounters x0 => (frame_execLogLifetimeCounters x0 s) .pending rfl
  | .logActuatorHeadHealth x0 => (frame_execLogActuatorHeadHealth x0 s) .pending rfl
  | .logLeasesPower x0 => (frame_execLogLeasesPower x0 s) .pending rfl
  | .logAttestationMeasurements x0 => (frame_execLogAttestationMeasurements x0 s) .pending rfl
  | .setFeatures x0 => (frame_execSetFeatures x0 s) .pending rfl
  | .getFeatures x0 => (frame_execGetFeatures x0 s) .pending rfl
  | .setFeaturesPowerManagement x0 => (frame_execSetFeaturesPowerManagement x0 s) .pending rfl
  | .setFeaturesTimestamp x0 => (frame_execSetFeaturesTimestamp x0 s) .pending rfl
  | .getFeaturesTimestamp x0 => (frame_execGetFeaturesTimestamp x0 s) .pending rfl
  | .setFeaturesVolatileWriteCache x0 => (frame_execSetFeaturesVolatileWriteCache x0 s) .pending rfl
  | .setFeaturesInterruptCoalescing x0 => (frame_execSetFeaturesInterruptCoalescing x0 s) .pending rfl
  | .setFeaturesTemperatureThreshold x0 => (frame_execSetFeaturesTemperatureThreshold x0 s) .pending rfl
  | .setFeaturesReadRecoveryLevel x0 => (frame_execSetFeaturesReadRecoveryLevel x0 s) .pending rfl
  | .setFeaturesRecoveryTimeLimit x0 => (frame_execSetFeaturesRecoveryTimeLimit x0 s) .pending rfl
  | .setFeaturesDirtyCap x0 => (frame_execSetFeaturesDirtyCap x0 s) .pending rfl
  | .setFeaturesLeaseFloor x0 => (frame_execSetFeaturesLeaseFloor x0 s) .pending rfl
  | .setFeaturesBehaviourProfile x0 => (frame_execSetFeaturesBehaviourProfile x0 s) .pending rfl
  | .getFeaturesBehaviourProfile x0 => (frame_execGetFeaturesBehaviourProfile x0 s) .pending rfl
  | .asynchronousEventRequest x0 => (frame_execAsynchronousEventRequest x0 s) .pending rfl
  | .abort x0 => (frame_execAbort x0 s) .pending rfl
  | .keepAlive x0 => (frame_execKeepAlive x0 s) .pending rfl
  | .namespaceManagement x0 => (frame_execNamespaceManagement x0 s) .pending rfl
  | .namespaceAttachment x0 => (frame_execNamespaceAttachment x0 s) .pending rfl
  | .firmwareImageDownload x0 => (frame_execFirmwareImageDownload x0 s) .pending rfl
  | .firmwareCommit x0 x1 => (frame_execFirmwareCommit x0 x1 s) .pending rfl
  | .firmwareActivation x0 x1 => (frame_execFirmwareActivation x0 x1 s) .pending rfl
  | .activationPauseTimeout => (frame_execActivationPauseTimeout s) .pending rfl
  | .formatNvm x0 => (frame_execFormatNvm x0 s) .pending rfl
  | .sanitizeOverwrite x0 => (frame_execSanitizeOverwrite x0 s) .pending rfl
  | .sanitizeCryptoErase x0 => (frame_execSanitizeCryptoErase x0 s) .pending rfl
  | .sanitizeBandDone => (frame_execSanitizeBandDone s) .pending rfl
  | .securitySend x0 => (frame_execSecuritySend x0 s) .pending rfl
  | .securityReceive x0 => (frame_execSecurityReceive x0 s) .pending rfl
  | .attestationNonce x0 => (frame_execAttestationNonce x0 s) .pending rfl
  | .attestationReportSigned => (frame_execAttestationReportSigned s) .pending rfl
  | .attestationReportReceive x0 => (frame_execAttestationReportReceive x0 s) .pending rfl
  | .credential x0 => (frame_execCredential x0 s) .pending rfl
  | .deviceSelfTest x0 => (frame_execDeviceSelfTest x0 s) .pending rfl
  | .nvmeMiSend x0 => (frame_execNvmeMiSend x0 s) .pending rfl
  | .nvmeMiReceive x0 => (frame_execNvmeMiReceive x0 s) .pending rfl
  | .readNvmeMiDataStructure x0 x1 => (frame_execReadNvmeMiDataStructure x0 x1 s) .pending rfl
  | .nvmSubsystemHealthStatusPoll => (frame_execNvmSubsystemHealthStatusPoll s) .pending rfl
  | .controllerHealthStatusPoll x0 => (frame_execControllerHealthStatusPoll x0 s) .pending rfl
  | .configurationGet x0 => (frame_execConfigurationGet x0 s) .pending rfl
  | .configurationSet x0 x1 => (frame_execConfigurationSet x0 x1 s) .pending rfl
  | .vpdRead x0 x1 => (frame_execVpdRead x0 x1 s) .pending rfl
  | .vpdWrite x0 x1 => (frame_execVpdWrite x0 x1 s) .pending rfl
  | .miReset => (frame_execMiReset s) .pending rfl
  | .basicManagementCommand => (frame_execBasicManagementCommand s) .pending rfl
  | .nsdomWrite x0 x1 x2 => (frame_execNsdomWrite x0 x1 x2 s) .pending rfl
  | .lgrWinGo x0 x1 => (frame_execLgrWinGo x0 x1 s) .pending rfl
  | .journalBlockDurable x0 => (frame_execJournalBlockDurable x0 s) .pending rfl
  | .checkpoint => (frame_execCheckpoint s) .pending rfl
  | .migrationStart x0 x1 x2 x3 => (frame_execMigrationStart x0 x1 x2 x3 s) .pending rfl
  | .migrationCopyVerified x0 x1 x2 => (frame_execMigrationCopyVerified x0 x1 x2 s) .pending rfl
  | .migFree x0 x1 => (frame_execMigFree x0 x1 s) .pending rfl
  | .reservoirCommit x0 => (frame_execReservoirCommit x0 s) .pending rfl
  | .ledgerFreeze => (frame_execLedgerFreeze s) .pending rfl
  | .commitRecordDurable => (frame_execCommitRecordDurable s) .pending rfl
  | .reservoirReplay x0 => (frame_execReservoirReplay x0 s) .pending rfl
  | .replayDone => (frame_execReplayDone s) .pending rfl
  | .restartRecovery x0 x1 => (frame_execRestartRecovery x0 x1 s) .pending rfl
  | .taskCommit x0 x1 => (frame_execTaskCommit x0 x1 s) .pending rfl
  | .taskCancel x0 x1 => (frame_execTaskCancel x0 x1 s) .pending rfl
  | .taskPromotion x0 => (frame_execTaskPromotion x0 s) .pending rfl
  | .microwordIssue x0 => (frame_execMicrowordIssue x0 s) .pending rfl
  | .seqNext x0 => (frame_execSeqNext x0 s) .pending rfl
  | .seqJump x0 => (frame_execSeqJump x0 s) .pending rfl
  | .seqCall x0 => (frame_execSeqCall x0 s) .pending rfl
  | .seqRet x0 => (frame_execSeqRet x0 s) .pending rfl
  | .seqBrt x0 => (frame_execSeqBrt x0 s) .pending rfl
  | .seqBrf x0 => (frame_execSeqBrf x0 s) .pending rfl
  | .seqDispatch x0 => (frame_execSeqDispatch x0 s) .pending rfl
  | .seqLoop x0 => (frame_execSeqLoop x0 s) .pending rfl
  | .faultRequest x0 x1 => (frame_execFaultRequest x0 x1 s) .pending rfl
  | .waitTimeout x0 => (frame_execWaitTimeout x0 s) .pending rfl
  | .atomicBound x0 => (frame_execAtomicBound x0 s) .pending rfl
  | .asqAbort x0 x1 x2 => (frame_execAsqAbort x0 x1 x2 s) .pending rfl
  | .taskDeadline x0 => (frame_execTaskDeadline x0 s) .pending rfl
  | .resultPop x0 x1 x2 => (frame_execResultPop x0 x1 x2 s) .pending rfl
  | .microcodeActivate x0 => (frame_execMicrocodeActivate x0 s) .pending rfl
  | .arm x0 x1 => (frame_execArm x0 x1 s) .pending rfl
  | .activationCopy => (frame_execActivationCopy s) .pending rfl
  | .activationAbandon => (frame_execActivationAbandon s) .pending rfl
  | .openctlWrite x0 x1 => (frame_execOpenctlWrite x0 x1 s) .pending rfl
  | .readerCheck x0 x1 x2 x3 x4 => (frame_execReaderCheck x0 x1 x2 x3 x4 s) .pending rfl
  | .clockField x0 x1 => (frame_execClockField x0 x1 s) .pending rfl
  | .syncADecision x0 x1 => (frame_execSyncADecision x0 x1 s) .pending rfl
  | .syncBDecision x0 x1 => (frame_execSyncBDecision x0 x1 s) .pending rfl
  | .blindFraming x0 x1 => (frame_execBlindFraming x0 x1 s) .pending rfl
  | .defectSpan x0 x1 x2 => (frame_execDefectSpan x0 x1 x2 s) .pending rfl
  | .loopLimit x0 x1 => (frame_execLoopLimit x0 x1 s) .pending rfl
  | .pmonSnap x0 => (frame_execPmonSnap x0 s) .pending rfl
  | .pmonClr x0 => (frame_execPmonClr x0 s) .pending rfl
  | .codewordDecode x0 x1 => (frame_execCodewordDecode x0 x1 s) .pending rfl
  | .squeezeRedecode x0 => (frame_execSqueezeRedecode x0 s) .pending rfl
  | .clusterDecode x0 x1 x2 x3 => (frame_execClusterDecode x0 x1 x2 x3 s) .pending rfl
  | .retainedSlotFree x0 x1 => (frame_execRetainedSlotFree x0 x1 s) .pending rfl
  | .failurePop x0 x1 x2 => (frame_execFailurePop x0 x1 x2 s) .pending rfl
  | .defectInsert x0 x1 => (frame_execDefectInsert x0 x1 s) .pending rfl
  | .defectDelete x0 x1 => (frame_execDefectDelete x0 x1 s) .pending rfl
  | .defectClearPending x0 x1 => (frame_execDefectClearPending x0 x1 s) .pending rfl
  | .defectInsertRelease => (frame_execDefectInsertRelease s) .pending rfl
  | .sampleTrigger x0 x1 => (frame_execSampleTrigger x0 x1 s) .pending rfl
  | .syncTimeout x0 x1 => (frame_execSyncTimeout x0 x1 s) .pending rfl
  | .tableSwapGo x0 x1 => (frame_execTableSwapGo x0 x1 s) .pending rfl
  | .tableSwap x0 => (frame_execTableSwap x0 s) .pending rfl
  | .mailCommit x0 x1 => (frame_execMailCommit x0 x1 s) .pending rfl
  | .engineRun x0 x1 x2 => (frame_execEngineRun x0 x1 x2 s) .pending rfl
  | .seekTimeout x0 => (frame_execSeekTimeout x0 s) .pending rfl
  | .shockConversion x0 x1 x2 => (frame_execShockConversion x0 x1 x2 s) .pending rfl
  | .shockSensorFault x0 x1 => (frame_execShockSensorFault x0 x1 s) .pending rfl
  | .cdaShort x0 x1 => (frame_execCdaShort x0 x1 s) .pending rfl
  | .retractGo x0 x1 => (frame_execRetractGo x0 x1 s) .pending rfl
  | .retractEnd x0 => (frame_execRetractEnd x0 s) .pending rfl
  | .focusLost x0 => (frame_execFocusLost x0 s) .pending rfl
  | .jumpGo x0 x1 x2 => (frame_execJumpGo x0 x1 x2 s) .pending rfl
  | .focusSweepGo x0 x1 x2 => (frame_execFocusSweepGo x0 x1 x2 s) .pending rfl
  | .traceStart x0 x1 x2 => (frame_execTraceStart x0 x1 x2 s) .pending rfl
  | .traceStop x0 x1 x2 => (frame_execTraceStop x0 x1 x2 s) .pending rfl
  | .traceRead x0 x1 => (frame_execTraceRead x0 x1 s) .pending rfl
  | .start x0 => (frame_execStart x0 s) .pending rfl
  | .brake x0 => (frame_execBrake x0 s) .pending rfl
  | .brakeEntry => (frame_execBrakeEntry s) .pending rfl
  | .coast x0 => (frame_execCoast x0 s) .pending rfl
  | .clrf x0 => (frame_execClrf x0 s) .pending rfl
  | .alignDone => (frame_execAlignDone s) .pending rfl
  | .spinupAttemptTimeout => (frame_execSpinupAttemptTimeout s) .pending rfl
  | .pwmCentre x0 x1 x2 x3 => (frame_execPwmCentre x0 x1 x2 x3 s) .pending rfl
  | .bemfCrossing x0 x1 => (frame_execBemfCrossing x0 x1 s) .pending rfl
  | .commutation x0 => (frame_execCommutation x0 s) .pending rfl
  | .floatPeriodEnd x0 => (frame_execFloatPeriodEnd x0 s) .pending rfl
  | .recoveryTimeout => (frame_execRecoveryTimeout s) .pending rfl
  | .motorRailThreshold x0 => (frame_execMotorRailThreshold x0 s) .pending rfl
  | .chopperFault x0 x1 => (frame_execChopperFault x0 x1 s) .pending rfl
  | .chopperConducting x0 => (frame_execChopperConducting x0 s) .pending rfl
  | .railOvervoltage x0 => (frame_execRailOvervoltage x0 s) .pending rfl
  | .spnFltNLow => (frame_execSpnFltNLow s) .pending rfl
  | .phaseOpen x0 => (frame_execPhaseOpen x0 s) .pending rfl
  | .supplyReversed x0 => (frame_execSupplyReversed x0 s) .pending rfl
  | .spindleStopped => (frame_execSpindleStopped s) .pending rfl
  | .rectifyExit => (frame_execRectifyExit s) .pending rfl
  | .preampFault x0 => (frame_execPreampFault x0 s) .pending rfl
  | .psiFrameDone x0 x1 x2 => (frame_execPsiFrameDone x0 x1 x2 s) .pending rfl
  | .psiFwcmdGo x0 x1 x2 => (frame_execPsiFwcmdGo x0 x1 x2 s) .pending rfl
  | .laserMonitorRead x0 x1 x2 => (frame_execLaserMonitorRead x0 x1 x2 s) .pending rfl
  | .lsrClrf x0 x1 => (frame_execLsrClrf x0 x1 s) .pending rfl
  | .addressUnit x0 x1 x2 x3 => (frame_execAddressUnit x0 x1 x2 x3 s) .pending rfl
  | .optFmtWrite x0 x1 => (frame_execOptFmtWrite x0 x1 s) .pending rfl
  | .saDelayEnd x0 => (frame_execSaDelayEnd x0 s) .pending rfl
  | .sledMoveEnd x0 => (frame_execSledMoveEnd x0 s) .pending rfl
  | .ddrRead x0 x1 x2 => (frame_execDdrRead x0 x1 x2 s) .pending rfl
  | .regattrPolicyWrite x0 x1 x2 => (frame_execRegattrPolicyWrite x0 x1 x2 s) .pending rfl
  | .splitRead x0 => (frame_execSplitRead x0 s) .pending rfl
  | .splitWrite x0 => (frame_execSplitWrite x0 s) .pending rfl
  | .scrubRead x0 => (frame_execScrubRead x0 s) .pending rfl
  | .softPpr x0 x1 => (frame_execSoftPpr x0 x1 s) .pending rfl
  | .hardPpr x0 x1 => (frame_execHardPpr x0 x1 s) .pending rfl
  | .rowLogClear x0 x1 => (frame_execRowLogClear x0 x1 s) .pending rfl
  | .bccAccess x0 x1 x2 x3 x4 => (frame_execBccAccess x0 x1 x2 x3 x4 s) .pending rfl
  | .ceWindowExpiry => (frame_execCeWindowExpiry s) .pending rfl
  | .bccEnable x0 => (frame_execBccEnable x0 s) .pending rfl
  | .bccDisable x0 => (frame_execBccDisable x0 s) .pending rfl
  | .drainComplete => (frame_execDrainComplete s) .pending rfl
  | .bccClean x0 => (frame_execBccClean x0 s) .pending rfl
  | .bccInval x0 => (frame_execBccInval x0 s) .pending rfl
  | .bccCleanInval x0 => (frame_execBccCleanInval x0 s) .pending rfl
  | .bccZero x0 => (frame_execBccZero x0 s) .pending rfl
  | .bccLock x0 => (frame_execBccLock x0 s) .pending rfl
  | .bccUnlock x0 => (frame_execBccUnlock x0 s) .pending rfl
  | .bccInvalAll x0 => (frame_execBccInvalAll x0 s) .pending rfl
  | .rangeOpDone => (frame_execRangeOpDone s) .pending rfl
  | .repairMapEntry x0 => (frame_execRepairMapEntry x0 s) .pending rfl
  | .extend x0 x1 => (frame_execExtend x0 x1 s) .pending rfl
  | .keyGenerate x0 x1 x2 => (frame_execKeyGenerate x0 x1 x2 s) .pending rfl
  | .keyZero x0 => (frame_execKeyZero x0 s) .pending rfl
  | .keyCheckpoint => (frame_execKeyCheckpoint s) .pending rfl
  | .nsActive x0 x1 x2 => (frame_execNsActive x0 x1 x2 s) .pending rfl
  | .svnCommit x0 => (frame_execSvnCommit x0 s) .pending rfl
  | .takeOwnership x0 => (frame_execTakeOwnership x0 s) .pending rfl
  | .addOwnerKey x0 x1 => (frame_execAddOwnerKey x0 x1 s) .pending rfl
  | .revokeOwnerKey x0 x1 => (frame_execRevokeOwnerKey x0 x1 s) .pending rfl
  | .ownerPolicy x0 x1 x2 x3 => (frame_execOwnerPolicy x0 x1 x2 x3 s) .pending rfl
  | .exportKeys x0 x1 => (frame_execExportKeys x0 x1 s) .pending rfl
  | .importKeys x0 x1 => (frame_execImportKeys x0 x1 s) .pending rfl
  | .behaviourProfileUnlock x0 x1 => (frame_execBehaviourProfileUnlock x0 x1 s) .pending rfl
  | .firmwareActivationMeasurement x0 => (frame_execFirmwareActivationMeasurement x0 s) .pending rfl
  | .slotSelect x0 x1 => (frame_execSlotSelect x0 x1 s) .pending rfl
  | .snuffLevel1 x0 => (frame_execSnuffLevel1 x0 s) .pending rfl
  | .snuffLevel2 x0 => (frame_execSnuffLevel2 x0 s) .pending rfl
  | .alarmFuseBlow => (frame_execAlarmFuseBlow s) .pending rfl
  | .epochFuseBlow => (frame_execEpochFuseBlow s) .pending rfl
  | .keyRestore => (frame_execKeyRestore s) .pending rfl
  | .debugChallenge => (frame_execDebugChallenge s) .pending rfl
  | .debugResponse x0 x1 x2 x3 => (frame_execDebugResponse x0 x1 x2 x3 s) .pending rfl
  | .thmConversion x0 x1 => (frame_execThmConversion x0 x1 s) .pending rfl
  | .shutdownDimEntry => (frame_execShutdownDimEntry s) .pending rfl
  | .criticalDarkEntry => (frame_execCriticalDarkEntry s) .pending rfl
  | .criticalWake x0 => (frame_execCriticalWake x0 s) .pending rfl
  | .clrshut x0 => (frame_execClrshut x0 s) .pending rfl
  | .clrexcl x0 => (frame_execClrexcl x0 s) .pending rfl
  | .trimCompute x0 => (frame_execTrimCompute x0 s) .pending rfl
  | .taperStep x0 => (frame_execTaperStep x0 s) .pending rfl
  | .trimAge x0 => (frame_execTrimAge x0 s) .pending rfl
  | .eventStore => (frame_execEventStore s) .pending rfl
  | .eventRaiseSw x0 x1 => (frame_execEventRaiseSw x0 x1 s) .pending rfl
  | .floodPeriod => (frame_execFloodPeriod s) .pending rfl
  | .evrNextRead x0 => (frame_execEvrNextRead x0 s) .pending rfl
  | .evrCursorWrite x0 x1 => (frame_execEvrCursorWrite x0 x1 s) .pending rfl
  | .evrWindowAdvance x0 => (frame_execEvrWindowAdvance x0 s) .pending rfl
  | .evrBaseWrite x0 x1 x2 => (frame_execEvrBaseWrite x0 x1 x2 s) .pending rfl
  | .evrStore x0 => (frame_execEvrStore x0 s) .pending rfl
  | .evrCommit x0 => (frame_execEvrCommit x0 s) .pending rfl
  | .lifAdd x0 x1 => (frame_execLifAdd x0 x1 s) .pending rfl
  | .lifSeal x0 => (frame_execLifSeal x0 s) .pending rfl
  | .lifSnap x0 => (frame_execLifSnap x0 s) .pending rfl
  | .lifTick => (frame_execLifTick s) .pending rfl
  | .calRead x0 => (frame_execCalRead x0 s) .pending rfl
  | .calSet x0 x1 => (frame_execCalSet x0 x1 s) .pending rfl
  | .calAdjust x0 x1 => (frame_execCalAdjust x0 x1 s) .pending rfl
  | .slewDone => (frame_execSlewDone s) .pending rfl
  | .calAlarm => (frame_execCalAlarm s) .pending rfl
  | .beaconSend => (frame_execBeaconSend s) .pending rfl
  | .beaconReceive x0 x1 => (frame_execBeaconReceive x0 x1 s) .pending rfl
  | .beaconMissed => (frame_execBeaconMissed s) .pending rfl
  | .discoverSend => (frame_execDiscoverSend s) .pending rfl
  | .discoverReceive x0 => (frame_execDiscoverReceive x0 s) .pending rfl
  | .enrollReceive x0 x1 => (frame_execEnrollReceive x0 x1 s) .pending rfl
  | .pollSend => (frame_execPollSend s) .pending rfl
  | .pollReceive x0 => (frame_execPollReceive x0 s) .pending rfl
  | .replyReceive x0 => (frame_execReplyReceive x0 s) .pending rfl
  | .pollMissed => (frame_execPollMissed s) .pending rfl
  | .imageReceive x0 x1 x2 x3 x4 => (frame_execImageReceive x0 x1 x2 x3 x4 s) .pending rfl
  | .vlkWake x0 x1 x2 => (frame_execVlkWake x0 x1 x2 s) .pending rfl
  | .leaseRenewalRequest => (frame_execLeaseRenewalRequest s) .pending rfl
  | .leaseExpiry => (frame_execLeaseExpiry s) .pending rfl
  | .quietPeriodEnd => (frame_execQuietPeriodEnd s) .pending rfl
  | .orphanBackoffEnd => (frame_execOrphanBackoffEnd s) .pending rfl
  | .orphanWindowEnd => (frame_execOrphanWindowEnd s) .pending rfl
  | .segmentKeyRotation => (frame_execSegmentKeyRotation s) .pending rfl
  | .vlkCmdWake x0 x1 => (frame_execVlkCmdWake x0 x1 s) .pending rfl
  | .vlkCmdAttreq x0 x1 => (frame_execVlkCmdAttreq x0 x1 s) .pending rfl
  | .vlkCmdRemove x0 x1 => (frame_execVlkCmdRemove x0 x1 s) .pending rfl
  | .imageFanout x0 x1 => (frame_execImageFanout x0 x1 s) .pending rfl
  | .linkOpen => (frame_execLinkOpen s) .pending rfl
  | .linkShort x0 => (frame_execLinkShort x0 s) .pending rfl
  | .linkRetry x0 => (frame_execLinkRetry x0 s) .pending rfl
  | .headRetire x0 x1 x2 x3 => (frame_execHeadRetire x0 x1 x2 x3 s) .pending rfl
  | .sectorStart x0 => (frame_execSectorStart x0 s) .pending rfl
  | .sectorEnd x0 => (frame_execSectorEnd x0 s) .pending rfl
  | .wedgeGap x0 x1 => (frame_execWedgeGap x0 x1 s) .pending rfl
  | .defectSpanEnd x0 x1 x2 => (frame_execDefectSpanEnd x0 x1 x2 s) .pending rfl
  | .wickCriticalLimit x0 => (frame_execWickCriticalLimit x0 s) .pending rfl
  | .pprDone x0 => (frame_execPprDone x0 s) .pending rfl
  | .segmentGrantExpiry x0 => (frame_execSegmentGrantExpiry x0 s) .pending rfl
  | .fleetAuthorizationExpiry => (frame_execFleetAuthorizationExpiry s) .pending rfl
  | .vddAux33Loss => (frame_execVddAux33Loss s) .pending rfl

/-- Every command keeps the canonical forms. -/
theorem canon_exec (i : Instr) (s : State) (h : Canonical s) : Canonical (after s (exec i s)) :=
  match i with
  | .regWrite x0 x1 x2 => canon_execRegWrite x0 x1 x2 s h
  | .busAccess x0 x1 x2 x3 x4 => canon_execBusAccess x0 x1 x2 x3 x4 s h
  | .guardWordWrite x0 x1 x2 => Canonical.via (frame_execGuardWordWrite x0 x1 x2 s) rfl h
  | .guardWindowExhausted x0 => Canonical.via (frame_execGuardWindowExhausted x0 s) rfl h
  | .softReset x0 x1 => canon_execSoftReset x0 x1 s h
  | .softResetComplete x0 => Canonical.via (frame_execSoftResetComplete x0 s) rfl h
  | .freeze x0 x1 x2 => Canonical.via (frame_execFreeze x0 x1 x2 s) rfl h
  | .errClear x0 x1 => Canonical.via (frame_execErrClear x0 x1 s) rfl h
  | .irqSetWrite x0 x1 x2 => Canonical.via (frame_execIrqSetWrite x0 x1 x2 s) rfl h
  | .allcln x0 x1 x2 => canon_execAllcln x0 x1 x2 s h
  | .l1Clean x0 x1 => canon_execL1Clean x0 x1 s h
  | .l1Invalidate x0 x1 => Canonical.via (frame_execL1Invalidate x0 x1 s) rfl h
  | .l1CleanAndInvalidate x0 x1 => canon_execL1CleanAndInvalidate x0 x1 s h
  | .l1NoOperation x0 x1 => Canonical.via (frame_execL1NoOperation x0 x1 s) rfl h
  | .irqTake x0 => Canonical.via (frame_execIrqTake x0 s) rfl h
  | .uirqdone x0 x1 => Canonical.via (frame_execUirqdone x0 x1 s) rfl h
  | .irqRouteWrite x0 x1 x2 => canon_execIrqRouteWrite x0 x1 x2 s h
  | .irqSwset x0 x1 => Canonical.via (frame_execIrqSwset x0 x1 s) rfl h
  | .twinDataAccess x0 x1 x2 x3 => canon_execTwinDataAccess x0 x1 x2 x3 s h
  | .por => canon_execPor s h
  | .xo32kQualified => Canonical.via (frame_execXo32kQualified s) rfl h
  | .xo32kFail => canon_execXo32kFail s h
  | .xo40Fail => canon_execXo40Fail s h
  | .mainRailsGood x0 x1 => canon_execMainRailsGood x0 x1 s h
  | .railFault x0 => canon_execRailFault x0 s h
  | .uartRecoveryImage x0 => canon_execUartRecoveryImage x0 s h
  | .perstDeassert x0 => Canonical.via (frame_execPerstDeassert x0 s) rfl h
  | .perstAssert x0 => canon_execPerstAssert x0 s h
  | .configRequest x0 x1 => Canonical.via (frame_execConfigRequest x0 x1 s) rfl h
  | .dmcInitGo x0 => Canonical.via (frame_execDmcInitGo x0 s) rfl h
  | .dmcInitDone x0 => canon_execDmcInitDone x0 s h
  | .dmcInitHeldAccess x0 => canon_execDmcInitHeldAccess x0 s h
  | .readySet x0 x1 => Canonical.via (frame_execReadySet x0 x1 s) rfl h
  | .readyClr x0 => Canonical.via (frame_execReadyClr x0 s) rfl h
  | .controllerEnable x0 x1 => Canonical.via (frame_execControllerEnable x0 x1 s) rfl h
  | .controllerReset x0 => canon_execControllerReset x0 s h
  | .functionLevelReset x0 => canon_execFunctionLevelReset x0 s h
  | .linkDown x0 => canon_execLinkDown x0 s h
  | .namespaceReady x0 => Canonical.via (frame_execNamespaceReady x0 s) rfl h
  | .resetNAssert => Canonical.via (frame_execResetNAssert s) rfl h
  | .coreDomainHold x0 => canon_execCoreDomainHold x0 s h
  | .resetNRelease x0 => canon_execResetNRelease x0 s h
  | .nvmSubsystemReset x0 x1 => canon_execNvmSubsystemReset x0 x1 s h
  | .watchdogEnable x0 x1 => canon_execWatchdogEnable x0 x1 s h
  | .watchdogKick x0 x1 => Canonical.via (frame_execWatchdogKick x0 x1 s) rfl h
  | .watchdogPeriod => canon_execWatchdogPeriod s h
  | .watchdogReset => canon_execWatchdogReset s h
  | .powerLoss => canon_execPowerLoss s h
  | .preqGo x0 x1 => canon_execPreqGo x0 x1 s h
  | .powerStateEntered => canon_execPowerStateEntered s h
  | .pdoffWrite x0 x1 => canon_execPdoffWrite x0 x1 s h
  | .wakeSource x0 x1 x2 => canon_execWakeSource x0 x1 x2 s h
  | .clkDomWrite x0 x1 x2 => canon_execClkDomWrite x0 x1 x2 s h
  | .pllLocked x0 => canon_execPllLocked x0 s h
  | .pllLockLoss x0 => canon_execPllLockLoss x0 s h
  | .psEntryRestart => canon_execPsEntryRestart s h
  | .leaveRequest x0 x1 x2 => canon_execLeaveRequest x0 x1 x2 s h
  | .leaveRelease x0 x1 x2 => Canonical.via (frame_execLeaveRelease x0 x1 x2 s) rfl h
  | .leaveRenew x0 x1 x2 => Canonical.via (frame_execLeaveRenew x0 x1 x2 s) rfl h
  | .leaveExpiry x0 => canon_execLeaveExpiry x0 s h
  | .drawAfterExpiry x0 => canon_execDrawAfterExpiry x0 s h
  | .leaveDeadline x0 => canon_execLeaveDeadline x0 s h
  | .thermalCeilingStep => canon_execThermalCeilingStep s h
  | .sqTailDoorbell x0 x1 x2 x3 => canon_execSqTailDoorbell x0 x1 x2 x3 s h
  | .cqHeadDoorbell x0 x1 x2 => canon_execCqHeadDoorbell x0 x1 x2 s h
  | .commandFetch x0 => canon_execCommandFetch x0 s h
  | .fetchPauseEnd => Canonical.via (frame_execFetchPauseEnd s) rfl h
  | .writeTransferStart x0 => Canonical.via (frame_execWriteTransferStart x0 s) rfl h
  | .dataTransferComplete x0 => Canonical.via (frame_execDataTransferComplete x0 s) rfl h
  | .hostMemoryError x0 => Canonical.via (frame_execHostMemoryError x0 s) rfl h
  | .completionPost x0 => Canonical.via (frame_execCompletionPost x0 s) rfl h
  | .interruptCoalescingTimeout x0 x1 => Canonical.via (frame_execInterruptCoalescingTimeout x0 x1 s) rfl h
  | .recoveryTimeLimitExpiry x0 => canon_execRecoveryTimeLimitExpiry x0 s h
  | .abortMatch x0 x1 => canon_execAbortMatch x0 x1 s h
  | .read x0 x1 => Canonical.via (frame_execRead x0 x1 s) rfl h
  | .write x0 => Canonical.via (frame_execWrite x0 s) rfl h
  | .zoneAppend x0 => Canonical.via (frame_execZoneAppend x0 s) rfl h
  | .flush x0 => Canonical.via (frame_execFlush x0 s) rfl h
  | .compare x0 x1 => Canonical.via (frame_execCompare x0 x1 s) rfl h
  | .writeUncorrectable x0 => Canonical.via (frame_execWriteUncorrectable x0 s) rfl h
  | .writeZeroes x0 => Canonical.via (frame_execWriteZeroes x0 s) rfl h
  | .verify x0 x1 => Canonical.via (frame_execVerify x0 x1 s) rfl h
  | .datasetManagement x0 => Canonical.via (frame_execDatasetManagement x0 s) rfl h
  | .reservationRegister x0 => Canonical.via (frame_execReservationRegister x0 s) rfl h
  | .reservationReport x0 => Canonical.via (frame_execReservationReport x0 s) rfl h
  | .reservationAcquire x0 => canon_execReservationAcquire x0 s h
  | .reservationRelease x0 => Canonical.via (frame_execReservationRelease x0 s) rfl h
  | .zoneOpen x0 => Canonical.via (frame_execZoneOpen x0 s) rfl h
  | .zoneClose x0 => Canonical.via (frame_execZoneClose x0 s) rfl h
  | .zoneFinish x0 => Canonical.via (frame_execZoneFinish x0 s) rfl h
  | .zoneReset x0 => Canonical.via (frame_execZoneReset x0 s) rfl h
  | .zoneOffline x0 => Canonical.via (frame_execZoneOffline x0 s) rfl h
  | .reportZones x0 => Canonical.via (frame_execReportZones x0 s) rfl h
  | .createIoSq x0 => Canonical.via (frame_execCreateIoSq x0 s) rfl h
  | .createIoCq x0 => Canonical.via (frame_execCreateIoCq x0 s) rfl h
  | .deleteIoSq x0 => Canonical.via (frame_execDeleteIoSq x0 s) rfl h
  | .deleteIoCq x0 => Canonical.via (frame_execDeleteIoCq x0 s) rfl h
  | .identify x0 => Canonical.via (frame_execIdentify x0 s) rfl h
  | .getLogPage x0 => Canonical.via (frame_execGetLogPage x0 s) rfl h
  | .logGuaranteeExceptions x0 => Canonical.via (frame_execLogGuaranteeExceptions x0 s) rfl h
  | .logEventRecorder x0 => Canonical.via (frame_execLogEventRecorder x0 s) rfl h
  | .logLifetimeCounters x0 => Canonical.via (frame_execLogLifetimeCounters x0 s) rfl h
  | .logActuatorHeadHealth x0 => Canonical.via (frame_execLogActuatorHeadHealth x0 s) rfl h
  | .logLeasesPower x0 => Canonical.via (frame_execLogLeasesPower x0 s) rfl h
  | .logAttestationMeasurements x0 => Canonical.via (frame_execLogAttestationMeasurements x0 s) rfl h
  | .setFeatures x0 => Canonical.via (frame_execSetFeatures x0 s) rfl h
  | .getFeatures x0 => Canonical.via (frame_execGetFeatures x0 s) rfl h
  | .setFeaturesPowerManagement x0 => Canonical.via (frame_execSetFeaturesPowerManagement x0 s) rfl h
  | .setFeaturesTimestamp x0 => canon_execSetFeaturesTimestamp x0 s h
  | .getFeaturesTimestamp x0 => Canonical.via (frame_execGetFeaturesTimestamp x0 s) rfl h
  | .setFeaturesVolatileWriteCache x0 => Canonical.via (frame_execSetFeaturesVolatileWriteCache x0 s) rfl h
  | .setFeaturesInterruptCoalescing x0 => Canonical.via (frame_execSetFeaturesInterruptCoalescing x0 s) rfl h
  | .setFeaturesTemperatureThreshold x0 => canon_execSetFeaturesTemperatureThreshold x0 s h
  | .setFeaturesReadRecoveryLevel x0 => Canonical.via (frame_execSetFeaturesReadRecoveryLevel x0 s) rfl h
  | .setFeaturesRecoveryTimeLimit x0 => Canonical.via (frame_execSetFeaturesRecoveryTimeLimit x0 s) rfl h
  | .setFeaturesDirtyCap x0 => Canonical.via (frame_execSetFeaturesDirtyCap x0 s) rfl h
  | .setFeaturesLeaseFloor x0 => canon_execSetFeaturesLeaseFloor x0 s h
  | .setFeaturesBehaviourProfile x0 => Canonical.via (frame_execSetFeaturesBehaviourProfile x0 s) rfl h
  | .getFeaturesBehaviourProfile x0 => Canonical.via (frame_execGetFeaturesBehaviourProfile x0 s) rfl h
  | .asynchronousEventRequest x0 => Canonical.via (frame_execAsynchronousEventRequest x0 s) rfl h
  | .abort x0 => canon_execAbort x0 s h
  | .keepAlive x0 => Canonical.via (frame_execKeepAlive x0 s) rfl h
  | .namespaceManagement x0 => canon_execNamespaceManagement x0 s h
  | .namespaceAttachment x0 => Canonical.via (frame_execNamespaceAttachment x0 s) rfl h
  | .firmwareImageDownload x0 => Canonical.via (frame_execFirmwareImageDownload x0 s) rfl h
  | .firmwareCommit x0 x1 => Canonical.via (frame_execFirmwareCommit x0 x1 s) rfl h
  | .firmwareActivation x0 x1 => Canonical.via (frame_execFirmwareActivation x0 x1 s) rfl h
  | .activationPauseTimeout => canon_execActivationPauseTimeout s h
  | .formatNvm x0 => Canonical.via (frame_execFormatNvm x0 s) rfl h
  | .sanitizeOverwrite x0 => Canonical.via (frame_execSanitizeOverwrite x0 s) rfl h
  | .sanitizeCryptoErase x0 => Canonical.via (frame_execSanitizeCryptoErase x0 s) rfl h
  | .sanitizeBandDone => Canonical.via (frame_execSanitizeBandDone s) rfl h
  | .securitySend x0 => Canonical.via (frame_execSecuritySend x0 s) rfl h
  | .securityReceive x0 => Canonical.via (frame_execSecurityReceive x0 s) rfl h
  | .attestationNonce x0 => Canonical.via (frame_execAttestationNonce x0 s) rfl h
  | .attestationReportSigned => Canonical.via (frame_execAttestationReportSigned s) rfl h
  | .attestationReportReceive x0 => Canonical.via (frame_execAttestationReportReceive x0 s) rfl h
  | .credential x0 => Canonical.via (frame_execCredential x0 s) rfl h
  | .deviceSelfTest x0 => Canonical.via (frame_execDeviceSelfTest x0 s) rfl h
  | .nvmeMiSend x0 => canon_execNvmeMiSend x0 s h
  | .nvmeMiReceive x0 => Canonical.via (frame_execNvmeMiReceive x0 s) rfl h
  | .readNvmeMiDataStructure x0 x1 => Canonical.via (frame_execReadNvmeMiDataStructure x0 x1 s) rfl h
  | .nvmSubsystemHealthStatusPoll => Canonical.via (frame_execNvmSubsystemHealthStatusPoll s) rfl h
  | .controllerHealthStatusPoll x0 => Canonical.via (frame_execControllerHealthStatusPoll x0 s) rfl h
  | .configurationGet x0 => Canonical.via (frame_execConfigurationGet x0 s) rfl h
  | .configurationSet x0 x1 => Canonical.via (frame_execConfigurationSet x0 x1 s) rfl h
  | .vpdRead x0 x1 => Canonical.via (frame_execVpdRead x0 x1 s) rfl h
  | .vpdWrite x0 x1 => Canonical.via (frame_execVpdWrite x0 x1 s) rfl h
  | .miReset => canon_execMiReset s h
  | .basicManagementCommand => Canonical.via (frame_execBasicManagementCommand s) rfl h
  | .nsdomWrite x0 x1 x2 => canon_execNsdomWrite x0 x1 x2 s h
  | .lgrWinGo x0 x1 => canon_execLgrWinGo x0 x1 s h
  | .journalBlockDurable x0 => Canonical.via (frame_execJournalBlockDurable x0 s) rfl h
  | .checkpoint => Canonical.via (frame_execCheckpoint s) rfl h
  | .migrationStart x0 x1 x2 x3 => Canonical.via (frame_execMigrationStart x0 x1 x2 x3 s) rfl h
  | .migrationCopyVerified x0 x1 x2 => Canonical.via (frame_execMigrationCopyVerified x0 x1 x2 s) rfl h
  | .migFree x0 x1 => Canonical.via (frame_execMigFree x0 x1 s) rfl h
  | .reservoirCommit x0 => Canonical.via (frame_execReservoirCommit x0 s) rfl h
  | .ledgerFreeze => Canonical.via (frame_execLedgerFreeze s) rfl h
  | .commitRecordDurable => canon_execCommitRecordDurable s h
  | .reservoirReplay x0 => Canonical.via (frame_execReservoirReplay x0 s) rfl h
  | .replayDone => Canonical.via (frame_execReplayDone s) rfl h
  | .restartRecovery x0 x1 => Canonical.via (frame_execRestartRecovery x0 x1 s) rfl h
  | .taskCommit x0 x1 => canon_execTaskCommit x0 x1 s h
  | .taskCancel x0 x1 => canon_execTaskCancel x0 x1 s h
  | .taskPromotion x0 => canon_execTaskPromotion x0 s h
  | .microwordIssue x0 => canon_execMicrowordIssue x0 s h
  | .seqNext x0 => canon_execSeqNext x0 s h
  | .seqJump x0 => canon_execSeqJump x0 s h
  | .seqCall x0 => canon_execSeqCall x0 s h
  | .seqRet x0 => canon_execSeqRet x0 s h
  | .seqBrt x0 => canon_execSeqBrt x0 s h
  | .seqBrf x0 => canon_execSeqBrf x0 s h
  | .seqDispatch x0 => canon_execSeqDispatch x0 s h
  | .seqLoop x0 => canon_execSeqLoop x0 s h
  | .faultRequest x0 x1 => Canonical.via (frame_execFaultRequest x0 x1 s) rfl h
  | .waitTimeout x0 => canon_execWaitTimeout x0 s h
  | .atomicBound x0 => canon_execAtomicBound x0 s h
  | .asqAbort x0 x1 x2 => canon_execAsqAbort x0 x1 x2 s h
  | .taskDeadline x0 => canon_execTaskDeadline x0 s h
  | .resultPop x0 x1 x2 => Canonical.via (frame_execResultPop x0 x1 x2 s) rfl h
  | .microcodeActivate x0 => canon_execMicrocodeActivate x0 s h
  | .arm x0 x1 => Canonical.via (frame_execArm x0 x1 s) rfl h
  | .activationCopy => Canonical.via (frame_execActivationCopy s) rfl h
  | .activationAbandon => canon_execActivationAbandon s h
  | .openctlWrite x0 x1 => Canonical.via (frame_execOpenctlWrite x0 x1 s) rfl h
  | .readerCheck x0 x1 x2 x3 x4 => Canonical.via (frame_execReaderCheck x0 x1 x2 x3 x4 s) rfl h
  | .clockField x0 x1 => Canonical.via (frame_execClockField x0 x1 s) rfl h
  | .syncADecision x0 x1 => Canonical.via (frame_execSyncADecision x0 x1 s) rfl h
  | .syncBDecision x0 x1 => Canonical.via (frame_execSyncBDecision x0 x1 s) rfl h
  | .blindFraming x0 x1 => Canonical.via (frame_execBlindFraming x0 x1 s) rfl h
  | .defectSpan x0 x1 x2 => Canonical.via (frame_execDefectSpan x0 x1 x2 s) rfl h
  | .loopLimit x0 x1 => Canonical.via (frame_execLoopLimit x0 x1 s) rfl h
  | .pmonSnap x0 => Canonical.via (frame_execPmonSnap x0 s) rfl h
  | .pmonClr x0 => Canonical.via (frame_execPmonClr x0 s) rfl h
  | .codewordDecode x0 x1 => Canonical.via (frame_execCodewordDecode x0 x1 s) rfl h
  | .squeezeRedecode x0 => Canonical.via (frame_execSqueezeRedecode x0 s) rfl h
  | .clusterDecode x0 x1 x2 x3 => Canonical.via (frame_execClusterDecode x0 x1 x2 x3 s) rfl h
  | .retainedSlotFree x0 x1 => Canonical.via (frame_execRetainedSlotFree x0 x1 s) rfl h
  | .failurePop x0 x1 x2 => Canonical.via (frame_execFailurePop x0 x1 x2 s) rfl h
  | .defectInsert x0 x1 => canon_execDefectInsert x0 x1 s h
  | .defectDelete x0 x1 => canon_execDefectDelete x0 x1 s h
  | .defectClearPending x0 x1 => canon_execDefectClearPending x0 x1 s h
  | .defectInsertRelease => canon_execDefectInsertRelease s h
  | .sampleTrigger x0 x1 => Canonical.via (frame_execSampleTrigger x0 x1 s) rfl h
  | .syncTimeout x0 x1 => Canonical.via (frame_execSyncTimeout x0 x1 s) rfl h
  | .tableSwapGo x0 x1 => Canonical.via (frame_execTableSwapGo x0 x1 s) rfl h
  | .tableSwap x0 => Canonical.via (frame_execTableSwap x0 s) rfl h
  | .mailCommit x0 x1 => Canonical.via (frame_execMailCommit x0 x1 s) rfl h
  | .engineRun x0 x1 x2 => canon_execEngineRun x0 x1 x2 s h
  | .seekTimeout x0 => canon_execSeekTimeout x0 s h
  | .shockConversion x0 x1 x2 => Canonical.via (frame_execShockConversion x0 x1 x2 s) rfl h
  | .shockSensorFault x0 x1 => Canonical.via (frame_execShockSensorFault x0 x1 s) rfl h
  | .cdaShort x0 x1 => Canonical.via (frame_execCdaShort x0 x1 s) rfl h
  | .retractGo x0 x1 => Canonical.via (frame_execRetractGo x0 x1 s) rfl h
  | .retractEnd x0 => canon_execRetractEnd x0 s h
  | .focusLost x0 => canon_execFocusLost x0 s h
  | .jumpGo x0 x1 x2 => canon_execJumpGo x0 x1 x2 s h
  | .focusSweepGo x0 x1 x2 => canon_execFocusSweepGo x0 x1 x2 s h
  | .traceStart x0 x1 x2 => canon_execTraceStart x0 x1 x2 s h
  | .traceStop x0 x1 x2 => canon_execTraceStop x0 x1 x2 s h
  | .traceRead x0 x1 => Canonical.via (frame_execTraceRead x0 x1 s) rfl h
  | .start x0 => Canonical.via (frame_execStart x0 s) rfl h
  | .brake x0 => Canonical.via (frame_execBrake x0 s) rfl h
  | .brakeEntry => Canonical.via (frame_execBrakeEntry s) rfl h
  | .coast x0 => Canonical.via (frame_execCoast x0 s) rfl h
  | .clrf x0 => Canonical.via (frame_execClrf x0 s) rfl h
  | .alignDone => Canonical.via (frame_execAlignDone s) rfl h
  | .spinupAttemptTimeout => canon_execSpinupAttemptTimeout s h
  | .pwmCentre x0 x1 x2 x3 => Canonical.via (frame_execPwmCentre x0 x1 x2 x3 s) rfl h
  | .bemfCrossing x0 x1 => canon_execBemfCrossing x0 x1 s h
  | .commutation x0 => Canonical.via (frame_execCommutation x0 s) rfl h
  | .floatPeriodEnd x0 => Canonical.via (frame_execFloatPeriodEnd x0 s) rfl h
  | .recoveryTimeout => canon_execRecoveryTimeout s h
  | .motorRailThreshold x0 => Canonical.via (frame_execMotorRailThreshold x0 s) rfl h
  | .chopperFault x0 x1 => Canonical.via (frame_execChopperFault x0 x1 s) rfl h
  | .chopperConducting x0 => Canonical.via (frame_execChopperConducting x0 s) rfl h
  | .railOvervoltage x0 => Canonical.via (frame_execRailOvervoltage x0 s) rfl h
  | .spnFltNLow => Canonical.via (frame_execSpnFltNLow s) rfl h
  | .phaseOpen x0 => Canonical.via (frame_execPhaseOpen x0 s) rfl h
  | .supplyReversed x0 => Canonical.via (frame_execSupplyReversed x0 s) rfl h
  | .spindleStopped => Canonical.via (frame_execSpindleStopped s) rfl h
  | .rectifyExit => Canonical.via (frame_execRectifyExit s) rfl h
  | .preampFault x0 => Canonical.via (frame_execPreampFault x0 s) rfl h
  | .psiFrameDone x0 x1 x2 => Canonical.via (frame_execPsiFrameDone x0 x1 x2 s) rfl h
  | .psiFwcmdGo x0 x1 x2 => Canonical.via (frame_execPsiFwcmdGo x0 x1 x2 s) rfl h
  | .laserMonitorRead x0 x1 x2 => canon_execLaserMonitorRead x0 x1 x2 s h
  | .lsrClrf x0 x1 => Canonical.via (frame_execLsrClrf x0 x1 s) rfl h
  | .addressUnit x0 x1 x2 x3 => Canonical.via (frame_execAddressUnit x0 x1 x2 x3 s) rfl h
  | .optFmtWrite x0 x1 => canon_execOptFmtWrite x0 x1 s h
  | .saDelayEnd x0 => canon_execSaDelayEnd x0 s h
  | .sledMoveEnd x0 => canon_execSledMoveEnd x0 s h
  | .ddrRead x0 x1 x2 => canon_execDdrRead x0 x1 x2 s h
  | .regattrPolicyWrite x0 x1 x2 => canon_execRegattrPolicyWrite x0 x1 x2 s h
  | .splitRead x0 => canon_execSplitRead x0 s h
  | .splitWrite x0 => canon_execSplitWrite x0 s h
  | .scrubRead x0 => Canonical.via (frame_execScrubRead x0 s) rfl h
  | .softPpr x0 x1 => canon_execSoftPpr x0 x1 s h
  | .hardPpr x0 x1 => canon_execHardPpr x0 x1 s h
  | .rowLogClear x0 x1 => Canonical.via (frame_execRowLogClear x0 x1 s) rfl h
  | .bccAccess x0 x1 x2 x3 x4 => canon_execBccAccess x0 x1 x2 x3 x4 s h
  | .ceWindowExpiry => Canonical.via (frame_execCeWindowExpiry s) rfl h
  | .bccEnable x0 => Canonical.via (frame_execBccEnable x0 s) rfl h
  | .bccDisable x0 => Canonical.via (frame_execBccDisable x0 s) rfl h
  | .drainComplete => canon_execDrainComplete s h
  | .bccClean x0 => canon_execBccClean x0 s h
  | .bccInval x0 => canon_execBccInval x0 s h
  | .bccCleanInval x0 => canon_execBccCleanInval x0 s h
  | .bccZero x0 => canon_execBccZero x0 s h
  | .bccLock x0 => canon_execBccLock x0 s h
  | .bccUnlock x0 => canon_execBccUnlock x0 s h
  | .bccInvalAll x0 => canon_execBccInvalAll x0 s h
  | .rangeOpDone => canon_execRangeOpDone s h
  | .repairMapEntry x0 => canon_execRepairMapEntry x0 s h
  | .extend x0 x1 => canon_execExtend x0 x1 s h
  | .keyGenerate x0 x1 x2 => canon_execKeyGenerate x0 x1 x2 s h
  | .keyZero x0 => canon_execKeyZero x0 s h
  | .keyCheckpoint => canon_execKeyCheckpoint s h
  | .nsActive x0 x1 x2 => canon_execNsActive x0 x1 x2 s h
  | .svnCommit x0 => canon_execSvnCommit x0 s h
  | .takeOwnership x0 => canon_execTakeOwnership x0 s h
  | .addOwnerKey x0 x1 => canon_execAddOwnerKey x0 x1 s h
  | .revokeOwnerKey x0 x1 => canon_execRevokeOwnerKey x0 x1 s h
  | .ownerPolicy x0 x1 x2 x3 => canon_execOwnerPolicy x0 x1 x2 x3 s h
  | .exportKeys x0 x1 => canon_execExportKeys x0 x1 s h
  | .importKeys x0 x1 => canon_execImportKeys x0 x1 s h
  | .behaviourProfileUnlock x0 x1 => canon_execBehaviourProfileUnlock x0 x1 s h
  | .firmwareActivationMeasurement x0 => canon_execFirmwareActivationMeasurement x0 s h
  | .slotSelect x0 x1 => canon_execSlotSelect x0 x1 s h
  | .snuffLevel1 x0 => canon_execSnuffLevel1 x0 s h
  | .snuffLevel2 x0 => canon_execSnuffLevel2 x0 s h
  | .alarmFuseBlow => canon_execAlarmFuseBlow s h
  | .epochFuseBlow => Canonical.via (frame_execEpochFuseBlow s) rfl h
  | .keyRestore => canon_execKeyRestore s h
  | .debugChallenge => Canonical.via (frame_execDebugChallenge s) rfl h
  | .debugResponse x0 x1 x2 x3 => canon_execDebugResponse x0 x1 x2 x3 s h
  | .thmConversion x0 x1 => Canonical.via (frame_execThmConversion x0 x1 s) rfl h
  | .shutdownDimEntry => Canonical.via (frame_execShutdownDimEntry s) rfl h
  | .criticalDarkEntry => canon_execCriticalDarkEntry s h
  | .criticalWake x0 => canon_execCriticalWake x0 s h
  | .clrshut x0 => Canonical.via (frame_execClrshut x0 s) rfl h
  | .clrexcl x0 => Canonical.via (frame_execClrexcl x0 s) rfl h
  | .trimCompute x0 => Canonical.via (frame_execTrimCompute x0 s) rfl h
  | .taperStep x0 => canon_execTaperStep x0 s h
  | .trimAge x0 => canon_execTrimAge x0 s h
  | .eventStore => Canonical.via (frame_execEventStore s) rfl h
  | .eventRaiseSw x0 x1 => canon_execEventRaiseSw x0 x1 s h
  | .floodPeriod => Canonical.via (frame_execFloodPeriod s) rfl h
  | .evrNextRead x0 => Canonical.via (frame_execEvrNextRead x0 s) rfl h
  | .evrCursorWrite x0 x1 => Canonical.via (frame_execEvrCursorWrite x0 x1 s) rfl h
  | .evrWindowAdvance x0 => Canonical.via (frame_execEvrWindowAdvance x0 s) rfl h
  | .evrBaseWrite x0 x1 x2 => Canonical.via (frame_execEvrBaseWrite x0 x1 x2 s) rfl h
  | .evrStore x0 => Canonical.via (frame_execEvrStore x0 s) rfl h
  | .evrCommit x0 => Canonical.via (frame_execEvrCommit x0 s) rfl h
  | .lifAdd x0 x1 => Canonical.via (frame_execLifAdd x0 x1 s) rfl h
  | .lifSeal x0 => Canonical.via (frame_execLifSeal x0 s) rfl h
  | .lifSnap x0 => Canonical.via (frame_execLifSnap x0 s) rfl h
  | .lifTick => Canonical.via (frame_execLifTick s) rfl h
  | .calRead x0 => Canonical.via (frame_execCalRead x0 s) rfl h
  | .calSet x0 x1 => canon_execCalSet x0 x1 s h
  | .calAdjust x0 x1 => canon_execCalAdjust x0 x1 s h
  | .slewDone => canon_execSlewDone s h
  | .calAlarm => canon_execCalAlarm s h
  | .beaconSend => canon_execBeaconSend s h
  | .beaconReceive x0 x1 => canon_execBeaconReceive x0 x1 s h
  | .beaconMissed => Canonical.via (frame_execBeaconMissed s) rfl h
  | .discoverSend => Canonical.via (frame_execDiscoverSend s) rfl h
  | .discoverReceive x0 => Canonical.via (frame_execDiscoverReceive x0 s) rfl h
  | .enrollReceive x0 x1 => canon_execEnrollReceive x0 x1 s h
  | .pollSend => Canonical.via (frame_execPollSend s) rfl h
  | .pollReceive x0 => Canonical.via (frame_execPollReceive x0 s) rfl h
  | .replyReceive x0 => canon_execReplyReceive x0 s h
  | .pollMissed => Canonical.via (frame_execPollMissed s) rfl h
  | .imageReceive x0 x1 x2 x3 x4 => canon_execImageReceive x0 x1 x2 x3 x4 s h
  | .vlkWake x0 x1 x2 => canon_execVlkWake x0 x1 x2 s h
  | .leaseRenewalRequest => canon_execLeaseRenewalRequest s h
  | .leaseExpiry => canon_execLeaseExpiry s h
  | .quietPeriodEnd => canon_execQuietPeriodEnd s h
  | .orphanBackoffEnd => canon_execOrphanBackoffEnd s h
  | .orphanWindowEnd => canon_execOrphanWindowEnd s h
  | .segmentKeyRotation => canon_execSegmentKeyRotation s h
  | .vlkCmdWake x0 x1 => Canonical.via (frame_execVlkCmdWake x0 x1 s) rfl h
  | .vlkCmdAttreq x0 x1 => Canonical.via (frame_execVlkCmdAttreq x0 x1 s) rfl h
  | .vlkCmdRemove x0 x1 => Canonical.via (frame_execVlkCmdRemove x0 x1 s) rfl h
  | .imageFanout x0 x1 => canon_execImageFanout x0 x1 s h
  | .linkOpen => canon_execLinkOpen s h
  | .linkShort x0 => Canonical.via (frame_execLinkShort x0 s) rfl h
  | .linkRetry x0 => canon_execLinkRetry x0 s h
  | .headRetire x0 x1 x2 x3 => Canonical.via (frame_execHeadRetire x0 x1 x2 x3 s) rfl h
  | .sectorStart x0 => Canonical.via (frame_execSectorStart x0 s) rfl h
  | .sectorEnd x0 => Canonical.via (frame_execSectorEnd x0 s) rfl h
  | .wedgeGap x0 x1 => Canonical.via (frame_execWedgeGap x0 x1 s) rfl h
  | .defectSpanEnd x0 x1 x2 => Canonical.via (frame_execDefectSpanEnd x0 x1 x2 s) rfl h
  | .wickCriticalLimit x0 => canon_execWickCriticalLimit x0 s h
  | .pprDone x0 => canon_execPprDone x0 s h
  | .segmentGrantExpiry x0 => canon_execSegmentGrantExpiry x0 s h
  | .fleetAuthorizationExpiry => canon_execFleetAuthorizationExpiry s h
  | .vddAux33Loss => canon_execVddAux33Loss s h

/-- Every command keeps GatesSafe. -/
theorem gates_exec (i : Instr) (s : State) (h : GatesSafe s) : GatesSafe (after s (exec i s)) :=
  match i with
  | .regWrite x0 x1 x2 => gates_execRegWrite x0 x1 x2 s h
  | .busAccess x0 x1 x2 x3 x4 => gates_execBusAccess x0 x1 x2 x3 x4 s h
  | .guardWordWrite x0 x1 x2 => GatesSafe.via (frame_execGuardWordWrite x0 x1 x2 s) rfl h
  | .guardWindowExhausted x0 => GatesSafe.via (frame_execGuardWindowExhausted x0 s) rfl h
  | .softReset x0 x1 => gates_execSoftReset x0 x1 s h
  | .softResetComplete x0 => GatesSafe.via (frame_execSoftResetComplete x0 s) rfl h
  | .freeze x0 x1 x2 => GatesSafe.via (frame_execFreeze x0 x1 x2 s) rfl h
  | .errClear x0 x1 => GatesSafe.via (frame_execErrClear x0 x1 s) rfl h
  | .irqSetWrite x0 x1 x2 => GatesSafe.via (frame_execIrqSetWrite x0 x1 x2 s) rfl h
  | .allcln x0 x1 x2 => GatesSafe.via (frame_execAllcln x0 x1 x2 s) rfl h
  | .l1Clean x0 x1 => GatesSafe.via (frame_execL1Clean x0 x1 s) rfl h
  | .l1Invalidate x0 x1 => GatesSafe.via (frame_execL1Invalidate x0 x1 s) rfl h
  | .l1CleanAndInvalidate x0 x1 => GatesSafe.via (frame_execL1CleanAndInvalidate x0 x1 s) rfl h
  | .l1NoOperation x0 x1 => GatesSafe.via (frame_execL1NoOperation x0 x1 s) rfl h
  | .irqTake x0 => GatesSafe.via (frame_execIrqTake x0 s) rfl h
  | .uirqdone x0 x1 => GatesSafe.via (frame_execUirqdone x0 x1 s) rfl h
  | .irqRouteWrite x0 x1 x2 => GatesSafe.via (frame_execIrqRouteWrite x0 x1 x2 s) rfl h
  | .irqSwset x0 x1 => GatesSafe.via (frame_execIrqSwset x0 x1 s) rfl h
  | .twinDataAccess x0 x1 x2 x3 => GatesSafe.via (frame_execTwinDataAccess x0 x1 x2 x3 s) rfl h
  | .por => gates_execPor s h
  | .xo32kQualified => GatesSafe.via (frame_execXo32kQualified s) rfl h
  | .xo32kFail => GatesSafe.via (frame_execXo32kFail s) rfl h
  | .xo40Fail => gates_execXo40Fail s h
  | .mainRailsGood x0 x1 => GatesSafe.via (frame_execMainRailsGood x0 x1 s) rfl h
  | .railFault x0 => gates_execRailFault x0 s h
  | .uartRecoveryImage x0 => GatesSafe.via (frame_execUartRecoveryImage x0 s) rfl h
  | .perstDeassert x0 => GatesSafe.via (frame_execPerstDeassert x0 s) rfl h
  | .perstAssert x0 => GatesSafe.via (frame_execPerstAssert x0 s) rfl h
  | .configRequest x0 x1 => GatesSafe.via (frame_execConfigRequest x0 x1 s) rfl h
  | .dmcInitGo x0 => GatesSafe.via (frame_execDmcInitGo x0 s) rfl h
  | .dmcInitDone x0 => GatesSafe.via (frame_execDmcInitDone x0 s) rfl h
  | .dmcInitHeldAccess x0 => GatesSafe.via (frame_execDmcInitHeldAccess x0 s) rfl h
  | .readySet x0 x1 => GatesSafe.via (frame_execReadySet x0 x1 s) rfl h
  | .readyClr x0 => GatesSafe.via (frame_execReadyClr x0 s) rfl h
  | .controllerEnable x0 x1 => GatesSafe.via (frame_execControllerEnable x0 x1 s) rfl h
  | .controllerReset x0 => GatesSafe.via (frame_execControllerReset x0 s) rfl h
  | .functionLevelReset x0 => GatesSafe.via (frame_execFunctionLevelReset x0 s) rfl h
  | .linkDown x0 => GatesSafe.via (frame_execLinkDown x0 s) rfl h
  | .namespaceReady x0 => GatesSafe.via (frame_execNamespaceReady x0 s) rfl h
  | .resetNAssert => GatesSafe.via (frame_execResetNAssert s) rfl h
  | .coreDomainHold x0 => gates_execCoreDomainHold x0 s h
  | .resetNRelease x0 => GatesSafe.via (frame_execResetNRelease x0 s) rfl h
  | .nvmSubsystemReset x0 x1 => GatesSafe.via (frame_execNvmSubsystemReset x0 x1 s) rfl h
  | .watchdogEnable x0 x1 => GatesSafe.via (frame_execWatchdogEnable x0 x1 s) rfl h
  | .watchdogKick x0 x1 => GatesSafe.via (frame_execWatchdogKick x0 x1 s) rfl h
  | .watchdogPeriod => GatesSafe.via (frame_execWatchdogPeriod s) rfl h
  | .watchdogReset => GatesSafe.via (frame_execWatchdogReset s) rfl h
  | .powerLoss => gates_execPowerLoss s h
  | .preqGo x0 x1 => GatesSafe.via (frame_execPreqGo x0 x1 s) rfl h
  | .powerStateEntered => gates_execPowerStateEntered s h
  | .pdoffWrite x0 x1 => GatesSafe.via (frame_execPdoffWrite x0 x1 s) rfl h
  | .wakeSource x0 x1 x2 => GatesSafe.via (frame_execWakeSource x0 x1 x2 s) rfl h
  | .clkDomWrite x0 x1 x2 => GatesSafe.via (frame_execClkDomWrite x0 x1 x2 s) rfl h
  | .pllLocked x0 => GatesSafe.via (frame_execPllLocked x0 s) rfl h
  | .pllLockLoss x0 => gates_execPllLockLoss x0 s h
  | .psEntryRestart => GatesSafe.via (frame_execPsEntryRestart s) rfl h
  | .leaveRequest x0 x1 x2 => GatesSafe.via (frame_execLeaveRequest x0 x1 x2 s) rfl h
  | .leaveRelease x0 x1 x2 => GatesSafe.via (frame_execLeaveRelease x0 x1 x2 s) rfl h
  | .leaveRenew x0 x1 x2 => GatesSafe.via (frame_execLeaveRenew x0 x1 x2 s) rfl h
  | .leaveExpiry x0 => GatesSafe.via (frame_execLeaveExpiry x0 s) rfl h
  | .drawAfterExpiry x0 => GatesSafe.via (frame_execDrawAfterExpiry x0 s) rfl h
  | .leaveDeadline x0 => GatesSafe.via (frame_execLeaveDeadline x0 s) rfl h
  | .thermalCeilingStep => GatesSafe.via (frame_execThermalCeilingStep s) rfl h
  | .sqTailDoorbell x0 x1 x2 x3 => GatesSafe.via (frame_execSqTailDoorbell x0 x1 x2 x3 s) rfl h
  | .cqHeadDoorbell x0 x1 x2 => GatesSafe.via (frame_execCqHeadDoorbell x0 x1 x2 s) rfl h
  | .commandFetch x0 => GatesSafe.via (frame_execCommandFetch x0 s) rfl h
  | .fetchPauseEnd => GatesSafe.via (frame_execFetchPauseEnd s) rfl h
  | .writeTransferStart x0 => GatesSafe.via (frame_execWriteTransferStart x0 s) rfl h
  | .dataTransferComplete x0 => GatesSafe.via (frame_execDataTransferComplete x0 s) rfl h
  | .hostMemoryError x0 => GatesSafe.via (frame_execHostMemoryError x0 s) rfl h
  | .completionPost x0 => GatesSafe.via (frame_execCompletionPost x0 s) rfl h
  | .interruptCoalescingTimeout x0 x1 => GatesSafe.via (frame_execInterruptCoalescingTimeout x0 x1 s) rfl h
  | .recoveryTimeLimitExpiry x0 => GatesSafe.via (frame_execRecoveryTimeLimitExpiry x0 s) rfl h
  | .abortMatch x0 x1 => GatesSafe.via (frame_execAbortMatch x0 x1 s) rfl h
  | .read x0 x1 => GatesSafe.via (frame_execRead x0 x1 s) rfl h
  | .write x0 => GatesSafe.via (frame_execWrite x0 s) rfl h
  | .zoneAppend x0 => GatesSafe.via (frame_execZoneAppend x0 s) rfl h
  | .flush x0 => GatesSafe.via (frame_execFlush x0 s) rfl h
  | .compare x0 x1 => GatesSafe.via (frame_execCompare x0 x1 s) rfl h
  | .writeUncorrectable x0 => GatesSafe.via (frame_execWriteUncorrectable x0 s) rfl h
  | .writeZeroes x0 => GatesSafe.via (frame_execWriteZeroes x0 s) rfl h
  | .verify x0 x1 => GatesSafe.via (frame_execVerify x0 x1 s) rfl h
  | .datasetManagement x0 => GatesSafe.via (frame_execDatasetManagement x0 s) rfl h
  | .reservationRegister x0 => GatesSafe.via (frame_execReservationRegister x0 s) rfl h
  | .reservationReport x0 => GatesSafe.via (frame_execReservationReport x0 s) rfl h
  | .reservationAcquire x0 => GatesSafe.via (frame_execReservationAcquire x0 s) rfl h
  | .reservationRelease x0 => GatesSafe.via (frame_execReservationRelease x0 s) rfl h
  | .zoneOpen x0 => GatesSafe.via (frame_execZoneOpen x0 s) rfl h
  | .zoneClose x0 => GatesSafe.via (frame_execZoneClose x0 s) rfl h
  | .zoneFinish x0 => GatesSafe.via (frame_execZoneFinish x0 s) rfl h
  | .zoneReset x0 => GatesSafe.via (frame_execZoneReset x0 s) rfl h
  | .zoneOffline x0 => GatesSafe.via (frame_execZoneOffline x0 s) rfl h
  | .reportZones x0 => GatesSafe.via (frame_execReportZones x0 s) rfl h
  | .createIoSq x0 => GatesSafe.via (frame_execCreateIoSq x0 s) rfl h
  | .createIoCq x0 => GatesSafe.via (frame_execCreateIoCq x0 s) rfl h
  | .deleteIoSq x0 => GatesSafe.via (frame_execDeleteIoSq x0 s) rfl h
  | .deleteIoCq x0 => GatesSafe.via (frame_execDeleteIoCq x0 s) rfl h
  | .identify x0 => GatesSafe.via (frame_execIdentify x0 s) rfl h
  | .getLogPage x0 => GatesSafe.via (frame_execGetLogPage x0 s) rfl h
  | .logGuaranteeExceptions x0 => GatesSafe.via (frame_execLogGuaranteeExceptions x0 s) rfl h
  | .logEventRecorder x0 => GatesSafe.via (frame_execLogEventRecorder x0 s) rfl h
  | .logLifetimeCounters x0 => GatesSafe.via (frame_execLogLifetimeCounters x0 s) rfl h
  | .logActuatorHeadHealth x0 => GatesSafe.via (frame_execLogActuatorHeadHealth x0 s) rfl h
  | .logLeasesPower x0 => GatesSafe.via (frame_execLogLeasesPower x0 s) rfl h
  | .logAttestationMeasurements x0 => GatesSafe.via (frame_execLogAttestationMeasurements x0 s) rfl h
  | .setFeatures x0 => GatesSafe.via (frame_execSetFeatures x0 s) rfl h
  | .getFeatures x0 => GatesSafe.via (frame_execGetFeatures x0 s) rfl h
  | .setFeaturesPowerManagement x0 => GatesSafe.via (frame_execSetFeaturesPowerManagement x0 s) rfl h
  | .setFeaturesTimestamp x0 => GatesSafe.via (frame_execSetFeaturesTimestamp x0 s) rfl h
  | .getFeaturesTimestamp x0 => GatesSafe.via (frame_execGetFeaturesTimestamp x0 s) rfl h
  | .setFeaturesVolatileWriteCache x0 => GatesSafe.via (frame_execSetFeaturesVolatileWriteCache x0 s) rfl h
  | .setFeaturesInterruptCoalescing x0 => GatesSafe.via (frame_execSetFeaturesInterruptCoalescing x0 s) rfl h
  | .setFeaturesTemperatureThreshold x0 => GatesSafe.via (frame_execSetFeaturesTemperatureThreshold x0 s) rfl h
  | .setFeaturesReadRecoveryLevel x0 => GatesSafe.via (frame_execSetFeaturesReadRecoveryLevel x0 s) rfl h
  | .setFeaturesRecoveryTimeLimit x0 => GatesSafe.via (frame_execSetFeaturesRecoveryTimeLimit x0 s) rfl h
  | .setFeaturesDirtyCap x0 => GatesSafe.via (frame_execSetFeaturesDirtyCap x0 s) rfl h
  | .setFeaturesLeaseFloor x0 => GatesSafe.via (frame_execSetFeaturesLeaseFloor x0 s) rfl h
  | .setFeaturesBehaviourProfile x0 => GatesSafe.via (frame_execSetFeaturesBehaviourProfile x0 s) rfl h
  | .getFeaturesBehaviourProfile x0 => GatesSafe.via (frame_execGetFeaturesBehaviourProfile x0 s) rfl h
  | .asynchronousEventRequest x0 => GatesSafe.via (frame_execAsynchronousEventRequest x0 s) rfl h
  | .abort x0 => GatesSafe.via (frame_execAbort x0 s) rfl h
  | .keepAlive x0 => GatesSafe.via (frame_execKeepAlive x0 s) rfl h
  | .namespaceManagement x0 => GatesSafe.via (frame_execNamespaceManagement x0 s) rfl h
  | .namespaceAttachment x0 => GatesSafe.via (frame_execNamespaceAttachment x0 s) rfl h
  | .firmwareImageDownload x0 => GatesSafe.via (frame_execFirmwareImageDownload x0 s) rfl h
  | .firmwareCommit x0 x1 => GatesSafe.via (frame_execFirmwareCommit x0 x1 s) rfl h
  | .firmwareActivation x0 x1 => GatesSafe.via (frame_execFirmwareActivation x0 x1 s) rfl h
  | .activationPauseTimeout => GatesSafe.via (frame_execActivationPauseTimeout s) rfl h
  | .formatNvm x0 => GatesSafe.via (frame_execFormatNvm x0 s) rfl h
  | .sanitizeOverwrite x0 => GatesSafe.via (frame_execSanitizeOverwrite x0 s) rfl h
  | .sanitizeCryptoErase x0 => GatesSafe.via (frame_execSanitizeCryptoErase x0 s) rfl h
  | .sanitizeBandDone => GatesSafe.via (frame_execSanitizeBandDone s) rfl h
  | .securitySend x0 => GatesSafe.via (frame_execSecuritySend x0 s) rfl h
  | .securityReceive x0 => GatesSafe.via (frame_execSecurityReceive x0 s) rfl h
  | .attestationNonce x0 => GatesSafe.via (frame_execAttestationNonce x0 s) rfl h
  | .attestationReportSigned => GatesSafe.via (frame_execAttestationReportSigned s) rfl h
  | .attestationReportReceive x0 => GatesSafe.via (frame_execAttestationReportReceive x0 s) rfl h
  | .credential x0 => GatesSafe.via (frame_execCredential x0 s) rfl h
  | .deviceSelfTest x0 => GatesSafe.via (frame_execDeviceSelfTest x0 s) rfl h
  | .nvmeMiSend x0 => GatesSafe.via (frame_execNvmeMiSend x0 s) rfl h
  | .nvmeMiReceive x0 => GatesSafe.via (frame_execNvmeMiReceive x0 s) rfl h
  | .readNvmeMiDataStructure x0 x1 => GatesSafe.via (frame_execReadNvmeMiDataStructure x0 x1 s) rfl h
  | .nvmSubsystemHealthStatusPoll => GatesSafe.via (frame_execNvmSubsystemHealthStatusPoll s) rfl h
  | .controllerHealthStatusPoll x0 => GatesSafe.via (frame_execControllerHealthStatusPoll x0 s) rfl h
  | .configurationGet x0 => GatesSafe.via (frame_execConfigurationGet x0 s) rfl h
  | .configurationSet x0 x1 => GatesSafe.via (frame_execConfigurationSet x0 x1 s) rfl h
  | .vpdRead x0 x1 => GatesSafe.via (frame_execVpdRead x0 x1 s) rfl h
  | .vpdWrite x0 x1 => GatesSafe.via (frame_execVpdWrite x0 x1 s) rfl h
  | .miReset => GatesSafe.via (frame_execMiReset s) rfl h
  | .basicManagementCommand => GatesSafe.via (frame_execBasicManagementCommand s) rfl h
  | .nsdomWrite x0 x1 x2 => GatesSafe.via (frame_execNsdomWrite x0 x1 x2 s) rfl h
  | .lgrWinGo x0 x1 => GatesSafe.via (frame_execLgrWinGo x0 x1 s) rfl h
  | .journalBlockDurable x0 => GatesSafe.via (frame_execJournalBlockDurable x0 s) rfl h
  | .checkpoint => GatesSafe.via (frame_execCheckpoint s) rfl h
  | .migrationStart x0 x1 x2 x3 => GatesSafe.via (frame_execMigrationStart x0 x1 x2 x3 s) rfl h
  | .migrationCopyVerified x0 x1 x2 => GatesSafe.via (frame_execMigrationCopyVerified x0 x1 x2 s) rfl h
  | .migFree x0 x1 => GatesSafe.via (frame_execMigFree x0 x1 s) rfl h
  | .reservoirCommit x0 => GatesSafe.via (frame_execReservoirCommit x0 s) rfl h
  | .ledgerFreeze => GatesSafe.via (frame_execLedgerFreeze s) rfl h
  | .commitRecordDurable => gates_execCommitRecordDurable s h
  | .reservoirReplay x0 => GatesSafe.via (frame_execReservoirReplay x0 s) rfl h
  | .replayDone => GatesSafe.via (frame_execReplayDone s) rfl h
  | .restartRecovery x0 x1 => GatesSafe.via (frame_execRestartRecovery x0 x1 s) rfl h
  | .taskCommit x0 x1 => GatesSafe.via (frame_execTaskCommit x0 x1 s) rfl h
  | .taskCancel x0 x1 => GatesSafe.via (frame_execTaskCancel x0 x1 s) rfl h
  | .taskPromotion x0 => GatesSafe.via (frame_execTaskPromotion x0 s) rfl h
  | .microwordIssue x0 => GatesSafe.via (frame_execMicrowordIssue x0 s) rfl h
  | .seqNext x0 => GatesSafe.via (frame_execSeqNext x0 s) rfl h
  | .seqJump x0 => GatesSafe.via (frame_execSeqJump x0 s) rfl h
  | .seqCall x0 => GatesSafe.via (frame_execSeqCall x0 s) rfl h
  | .seqRet x0 => GatesSafe.via (frame_execSeqRet x0 s) rfl h
  | .seqBrt x0 => GatesSafe.via (frame_execSeqBrt x0 s) rfl h
  | .seqBrf x0 => GatesSafe.via (frame_execSeqBrf x0 s) rfl h
  | .seqDispatch x0 => GatesSafe.via (frame_execSeqDispatch x0 s) rfl h
  | .seqLoop x0 => GatesSafe.via (frame_execSeqLoop x0 s) rfl h
  | .faultRequest x0 x1 => GatesSafe.via (frame_execFaultRequest x0 x1 s) rfl h
  | .waitTimeout x0 => GatesSafe.via (frame_execWaitTimeout x0 s) rfl h
  | .atomicBound x0 => GatesSafe.via (frame_execAtomicBound x0 s) rfl h
  | .asqAbort x0 x1 x2 => GatesSafe.via (frame_execAsqAbort x0 x1 x2 s) rfl h
  | .taskDeadline x0 => GatesSafe.via (frame_execTaskDeadline x0 s) rfl h
  | .resultPop x0 x1 x2 => GatesSafe.via (frame_execResultPop x0 x1 x2 s) rfl h
  | .microcodeActivate x0 => GatesSafe.via (frame_execMicrocodeActivate x0 s) rfl h
  | .arm x0 x1 => GatesSafe.via (frame_execArm x0 x1 s) rfl h
  | .activationCopy => GatesSafe.via (frame_execActivationCopy s) rfl h
  | .activationAbandon => GatesSafe.via (frame_execActivationAbandon s) rfl h
  | .openctlWrite x0 x1 => GatesSafe.via (frame_execOpenctlWrite x0 x1 s) rfl h
  | .readerCheck x0 x1 x2 x3 x4 => GatesSafe.via (frame_execReaderCheck x0 x1 x2 x3 x4 s) rfl h
  | .clockField x0 x1 => GatesSafe.via (frame_execClockField x0 x1 s) rfl h
  | .syncADecision x0 x1 => GatesSafe.via (frame_execSyncADecision x0 x1 s) rfl h
  | .syncBDecision x0 x1 => GatesSafe.via (frame_execSyncBDecision x0 x1 s) rfl h
  | .blindFraming x0 x1 => GatesSafe.via (frame_execBlindFraming x0 x1 s) rfl h
  | .defectSpan x0 x1 x2 => GatesSafe.via (frame_execDefectSpan x0 x1 x2 s) rfl h
  | .loopLimit x0 x1 => GatesSafe.via (frame_execLoopLimit x0 x1 s) rfl h
  | .pmonSnap x0 => GatesSafe.via (frame_execPmonSnap x0 s) rfl h
  | .pmonClr x0 => GatesSafe.via (frame_execPmonClr x0 s) rfl h
  | .codewordDecode x0 x1 => GatesSafe.via (frame_execCodewordDecode x0 x1 s) rfl h
  | .squeezeRedecode x0 => GatesSafe.via (frame_execSqueezeRedecode x0 s) rfl h
  | .clusterDecode x0 x1 x2 x3 => GatesSafe.via (frame_execClusterDecode x0 x1 x2 x3 s) rfl h
  | .retainedSlotFree x0 x1 => GatesSafe.via (frame_execRetainedSlotFree x0 x1 s) rfl h
  | .failurePop x0 x1 x2 => GatesSafe.via (frame_execFailurePop x0 x1 x2 s) rfl h
  | .defectInsert x0 x1 => GatesSafe.via (frame_execDefectInsert x0 x1 s) rfl h
  | .defectDelete x0 x1 => GatesSafe.via (frame_execDefectDelete x0 x1 s) rfl h
  | .defectClearPending x0 x1 => GatesSafe.via (frame_execDefectClearPending x0 x1 s) rfl h
  | .defectInsertRelease => GatesSafe.via (frame_execDefectInsertRelease s) rfl h
  | .sampleTrigger x0 x1 => GatesSafe.via (frame_execSampleTrigger x0 x1 s) rfl h
  | .syncTimeout x0 x1 => GatesSafe.via (frame_execSyncTimeout x0 x1 s) rfl h
  | .tableSwapGo x0 x1 => GatesSafe.via (frame_execTableSwapGo x0 x1 s) rfl h
  | .tableSwap x0 => GatesSafe.via (frame_execTableSwap x0 s) rfl h
  | .mailCommit x0 x1 => GatesSafe.via (frame_execMailCommit x0 x1 s) rfl h
  | .engineRun x0 x1 x2 => GatesSafe.via (frame_execEngineRun x0 x1 x2 s) rfl h
  | .seekTimeout x0 => GatesSafe.via (frame_execSeekTimeout x0 s) rfl h
  | .shockConversion x0 x1 x2 => GatesSafe.via (frame_execShockConversion x0 x1 x2 s) rfl h
  | .shockSensorFault x0 x1 => GatesSafe.via (frame_execShockSensorFault x0 x1 s) rfl h
  | .cdaShort x0 x1 => GatesSafe.via (frame_execCdaShort x0 x1 s) rfl h
  | .retractGo x0 x1 => GatesSafe.via (frame_execRetractGo x0 x1 s) rfl h
  | .retractEnd x0 => gates_execRetractEnd x0 s h
  | .focusLost x0 => GatesSafe.via (frame_execFocusLost x0 s) rfl h
  | .jumpGo x0 x1 x2 => GatesSafe.via (frame_execJumpGo x0 x1 x2 s) rfl h
  | .focusSweepGo x0 x1 x2 => GatesSafe.via (frame_execFocusSweepGo x0 x1 x2 s) rfl h
  | .traceStart x0 x1 x2 => GatesSafe.via (frame_execTraceStart x0 x1 x2 s) rfl h
  | .traceStop x0 x1 x2 => GatesSafe.via (frame_execTraceStop x0 x1 x2 s) rfl h
  | .traceRead x0 x1 => GatesSafe.via (frame_execTraceRead x0 x1 s) rfl h
  | .start x0 => gates_execStart x0 s h
  | .brake x0 => gates_execBrake x0 s h
  | .brakeEntry => gates_execBrakeEntry s h
  | .coast x0 => gates_execCoast x0 s h
  | .clrf x0 => gates_execClrf x0 s h
  | .alignDone => gates_execAlignDone s h
  | .spinupAttemptTimeout => gates_execSpinupAttemptTimeout s h
  | .pwmCentre x0 x1 x2 x3 => gates_execPwmCentre x0 x1 x2 x3 s h
  | .bemfCrossing x0 x1 => gates_execBemfCrossing x0 x1 s h
  | .commutation x0 => gates_execCommutation x0 s h
  | .floatPeriodEnd x0 => gates_execFloatPeriodEnd x0 s h
  | .recoveryTimeout => gates_execRecoveryTimeout s h
  | .motorRailThreshold x0 => gates_execMotorRailThreshold x0 s h
  | .chopperFault x0 x1 => gates_execChopperFault x0 x1 s h
  | .chopperConducting x0 => gates_execChopperConducting x0 s h
  | .railOvervoltage x0 => gates_execRailOvervoltage x0 s h
  | .spnFltNLow => gates_execSpnFltNLow s h
  | .phaseOpen x0 => gates_execPhaseOpen x0 s h
  | .supplyReversed x0 => gates_execSupplyReversed x0 s h
  | .spindleStopped => gates_execSpindleStopped s h
  | .rectifyExit => gates_execRectifyExit s h
  | .preampFault x0 => GatesSafe.via (frame_execPreampFault x0 s) rfl h
  | .psiFrameDone x0 x1 x2 => GatesSafe.via (frame_execPsiFrameDone x0 x1 x2 s) rfl h
  | .psiFwcmdGo x0 x1 x2 => GatesSafe.via (frame_execPsiFwcmdGo x0 x1 x2 s) rfl h
  | .laserMonitorRead x0 x1 x2 => GatesSafe.via (frame_execLaserMonitorRead x0 x1 x2 s) rfl h
  | .lsrClrf x0 x1 => GatesSafe.via (frame_execLsrClrf x0 x1 s) rfl h
  | .addressUnit x0 x1 x2 x3 => GatesSafe.via (frame_execAddressUnit x0 x1 x2 x3 s) rfl h
  | .optFmtWrite x0 x1 => GatesSafe.via (frame_execOptFmtWrite x0 x1 s) rfl h
  | .saDelayEnd x0 => GatesSafe.via (frame_execSaDelayEnd x0 s) rfl h
  | .sledMoveEnd x0 => GatesSafe.via (frame_execSledMoveEnd x0 s) rfl h
  | .ddrRead x0 x1 x2 => GatesSafe.via (frame_execDdrRead x0 x1 x2 s) rfl h
  | .regattrPolicyWrite x0 x1 x2 => GatesSafe.via (frame_execRegattrPolicyWrite x0 x1 x2 s) rfl h
  | .splitRead x0 => GatesSafe.via (frame_execSplitRead x0 s) rfl h
  | .splitWrite x0 => GatesSafe.via (frame_execSplitWrite x0 s) rfl h
  | .scrubRead x0 => GatesSafe.via (frame_execScrubRead x0 s) rfl h
  | .softPpr x0 x1 => GatesSafe.via (frame_execSoftPpr x0 x1 s) rfl h
  | .hardPpr x0 x1 => GatesSafe.via (frame_execHardPpr x0 x1 s) rfl h
  | .rowLogClear x0 x1 => GatesSafe.via (frame_execRowLogClear x0 x1 s) rfl h
  | .bccAccess x0 x1 x2 x3 x4 => GatesSafe.via (frame_execBccAccess x0 x1 x2 x3 x4 s) rfl h
  | .ceWindowExpiry => GatesSafe.via (frame_execCeWindowExpiry s) rfl h
  | .bccEnable x0 => GatesSafe.via (frame_execBccEnable x0 s) rfl h
  | .bccDisable x0 => GatesSafe.via (frame_execBccDisable x0 s) rfl h
  | .drainComplete => GatesSafe.via (frame_execDrainComplete s) rfl h
  | .bccClean x0 => GatesSafe.via (frame_execBccClean x0 s) rfl h
  | .bccInval x0 => GatesSafe.via (frame_execBccInval x0 s) rfl h
  | .bccCleanInval x0 => GatesSafe.via (frame_execBccCleanInval x0 s) rfl h
  | .bccZero x0 => GatesSafe.via (frame_execBccZero x0 s) rfl h
  | .bccLock x0 => GatesSafe.via (frame_execBccLock x0 s) rfl h
  | .bccUnlock x0 => GatesSafe.via (frame_execBccUnlock x0 s) rfl h
  | .bccInvalAll x0 => GatesSafe.via (frame_execBccInvalAll x0 s) rfl h
  | .rangeOpDone => GatesSafe.via (frame_execRangeOpDone s) rfl h
  | .repairMapEntry x0 => GatesSafe.via (frame_execRepairMapEntry x0 s) rfl h
  | .extend x0 x1 => GatesSafe.via (frame_execExtend x0 x1 s) rfl h
  | .keyGenerate x0 x1 x2 => GatesSafe.via (frame_execKeyGenerate x0 x1 x2 s) rfl h
  | .keyZero x0 => GatesSafe.via (frame_execKeyZero x0 s) rfl h
  | .keyCheckpoint => GatesSafe.via (frame_execKeyCheckpoint s) rfl h
  | .nsActive x0 x1 x2 => GatesSafe.via (frame_execNsActive x0 x1 x2 s) rfl h
  | .svnCommit x0 => GatesSafe.via (frame_execSvnCommit x0 s) rfl h
  | .takeOwnership x0 => GatesSafe.via (frame_execTakeOwnership x0 s) rfl h
  | .addOwnerKey x0 x1 => GatesSafe.via (frame_execAddOwnerKey x0 x1 s) rfl h
  | .revokeOwnerKey x0 x1 => GatesSafe.via (frame_execRevokeOwnerKey x0 x1 s) rfl h
  | .ownerPolicy x0 x1 x2 x3 => GatesSafe.via (frame_execOwnerPolicy x0 x1 x2 x3 s) rfl h
  | .exportKeys x0 x1 => GatesSafe.via (frame_execExportKeys x0 x1 s) rfl h
  | .importKeys x0 x1 => GatesSafe.via (frame_execImportKeys x0 x1 s) rfl h
  | .behaviourProfileUnlock x0 x1 => GatesSafe.via (frame_execBehaviourProfileUnlock x0 x1 s) rfl h
  | .firmwareActivationMeasurement x0 => GatesSafe.via (frame_execFirmwareActivationMeasurement x0 s) rfl h
  | .slotSelect x0 x1 => GatesSafe.via (frame_execSlotSelect x0 x1 s) rfl h
  | .snuffLevel1 x0 => GatesSafe.via (frame_execSnuffLevel1 x0 s) rfl h
  | .snuffLevel2 x0 => GatesSafe.via (frame_execSnuffLevel2 x0 s) rfl h
  | .alarmFuseBlow => GatesSafe.via (frame_execAlarmFuseBlow s) rfl h
  | .epochFuseBlow => GatesSafe.via (frame_execEpochFuseBlow s) rfl h
  | .keyRestore => GatesSafe.via (frame_execKeyRestore s) rfl h
  | .debugChallenge => GatesSafe.via (frame_execDebugChallenge s) rfl h
  | .debugResponse x0 x1 x2 x3 => GatesSafe.via (frame_execDebugResponse x0 x1 x2 x3 s) rfl h
  | .thmConversion x0 x1 => gates_execThmConversion x0 x1 s h
  | .shutdownDimEntry => GatesSafe.via (frame_execShutdownDimEntry s) rfl h
  | .criticalDarkEntry => gates_execCriticalDarkEntry s h
  | .criticalWake x0 => GatesSafe.via (frame_execCriticalWake x0 s) rfl h
  | .clrshut x0 => GatesSafe.via (frame_execClrshut x0 s) rfl h
  | .clrexcl x0 => GatesSafe.via (frame_execClrexcl x0 s) rfl h
  | .trimCompute x0 => GatesSafe.via (frame_execTrimCompute x0 s) rfl h
  | .taperStep x0 => GatesSafe.via (frame_execTaperStep x0 s) rfl h
  | .trimAge x0 => GatesSafe.via (frame_execTrimAge x0 s) rfl h
  | .eventStore => GatesSafe.via (frame_execEventStore s) rfl h
  | .eventRaiseSw x0 x1 => GatesSafe.via (frame_execEventRaiseSw x0 x1 s) rfl h
  | .floodPeriod => GatesSafe.via (frame_execFloodPeriod s) rfl h
  | .evrNextRead x0 => GatesSafe.via (frame_execEvrNextRead x0 s) rfl h
  | .evrCursorWrite x0 x1 => GatesSafe.via (frame_execEvrCursorWrite x0 x1 s) rfl h
  | .evrWindowAdvance x0 => GatesSafe.via (frame_execEvrWindowAdvance x0 s) rfl h
  | .evrBaseWrite x0 x1 x2 => GatesSafe.via (frame_execEvrBaseWrite x0 x1 x2 s) rfl h
  | .evrStore x0 => GatesSafe.via (frame_execEvrStore x0 s) rfl h
  | .evrCommit x0 => GatesSafe.via (frame_execEvrCommit x0 s) rfl h
  | .lifAdd x0 x1 => GatesSafe.via (frame_execLifAdd x0 x1 s) rfl h
  | .lifSeal x0 => GatesSafe.via (frame_execLifSeal x0 s) rfl h
  | .lifSnap x0 => GatesSafe.via (frame_execLifSnap x0 s) rfl h
  | .lifTick => GatesSafe.via (frame_execLifTick s) rfl h
  | .calRead x0 => GatesSafe.via (frame_execCalRead x0 s) rfl h
  | .calSet x0 x1 => GatesSafe.via (frame_execCalSet x0 x1 s) rfl h
  | .calAdjust x0 x1 => GatesSafe.via (frame_execCalAdjust x0 x1 s) rfl h
  | .slewDone => GatesSafe.via (frame_execSlewDone s) rfl h
  | .calAlarm => GatesSafe.via (frame_execCalAlarm s) rfl h
  | .beaconSend => GatesSafe.via (frame_execBeaconSend s) rfl h
  | .beaconReceive x0 x1 => GatesSafe.via (frame_execBeaconReceive x0 x1 s) rfl h
  | .beaconMissed => GatesSafe.via (frame_execBeaconMissed s) rfl h
  | .discoverSend => GatesSafe.via (frame_execDiscoverSend s) rfl h
  | .discoverReceive x0 => GatesSafe.via (frame_execDiscoverReceive x0 s) rfl h
  | .enrollReceive x0 x1 => GatesSafe.via (frame_execEnrollReceive x0 x1 s) rfl h
  | .pollSend => GatesSafe.via (frame_execPollSend s) rfl h
  | .pollReceive x0 => GatesSafe.via (frame_execPollReceive x0 s) rfl h
  | .replyReceive x0 => GatesSafe.via (frame_execReplyReceive x0 s) rfl h
  | .pollMissed => GatesSafe.via (frame_execPollMissed s) rfl h
  | .imageReceive x0 x1 x2 x3 x4 => GatesSafe.via (frame_execImageReceive x0 x1 x2 x3 x4 s) rfl h
  | .vlkWake x0 x1 x2 => GatesSafe.via (frame_execVlkWake x0 x1 x2 s) rfl h
  | .leaseRenewalRequest => GatesSafe.via (frame_execLeaseRenewalRequest s) rfl h
  | .leaseExpiry => GatesSafe.via (frame_execLeaseExpiry s) rfl h
  | .quietPeriodEnd => GatesSafe.via (frame_execQuietPeriodEnd s) rfl h
  | .orphanBackoffEnd => GatesSafe.via (frame_execOrphanBackoffEnd s) rfl h
  | .orphanWindowEnd => GatesSafe.via (frame_execOrphanWindowEnd s) rfl h
  | .segmentKeyRotation => GatesSafe.via (frame_execSegmentKeyRotation s) rfl h
  | .vlkCmdWake x0 x1 => GatesSafe.via (frame_execVlkCmdWake x0 x1 s) rfl h
  | .vlkCmdAttreq x0 x1 => GatesSafe.via (frame_execVlkCmdAttreq x0 x1 s) rfl h
  | .vlkCmdRemove x0 x1 => GatesSafe.via (frame_execVlkCmdRemove x0 x1 s) rfl h
  | .imageFanout x0 x1 => GatesSafe.via (frame_execImageFanout x0 x1 s) rfl h
  | .linkOpen => GatesSafe.via (frame_execLinkOpen s) rfl h
  | .linkShort x0 => GatesSafe.via (frame_execLinkShort x0 s) rfl h
  | .linkRetry x0 => GatesSafe.via (frame_execLinkRetry x0 s) rfl h
  | .headRetire x0 x1 x2 x3 => GatesSafe.via (frame_execHeadRetire x0 x1 x2 x3 s) rfl h
  | .sectorStart x0 => GatesSafe.via (frame_execSectorStart x0 s) rfl h
  | .sectorEnd x0 => GatesSafe.via (frame_execSectorEnd x0 s) rfl h
  | .wedgeGap x0 x1 => GatesSafe.via (frame_execWedgeGap x0 x1 s) rfl h
  | .defectSpanEnd x0 x1 x2 => GatesSafe.via (frame_execDefectSpanEnd x0 x1 x2 s) rfl h
  | .wickCriticalLimit x0 => gates_execWickCriticalLimit x0 s h
  | .pprDone x0 => GatesSafe.via (frame_execPprDone x0 s) rfl h
  | .segmentGrantExpiry x0 => GatesSafe.via (frame_execSegmentGrantExpiry x0 s) rfl h
  | .fleetAuthorizationExpiry => GatesSafe.via (frame_execFleetAuthorizationExpiry s) rfl h
  | .vddAux33Loss => gates_execVddAux33Loss s h

/-- Every command keeps LocksLow. -/
theorem locks_exec (i : Instr) (s : State) (h : LocksLow s) : LocksLow (after s (exec i s)) :=
  match i with
  | .regWrite x0 x1 x2 => locks_execRegWrite x0 x1 x2 s h
  | .busAccess x0 x1 x2 x3 x4 => locks_execBusAccess x0 x1 x2 x3 x4 s h
  | .guardWordWrite x0 x1 x2 => LocksLow.via (frame_execGuardWordWrite x0 x1 x2 s) rfl h
  | .guardWindowExhausted x0 => LocksLow.via (frame_execGuardWindowExhausted x0 s) rfl h
  | .softReset x0 x1 => locks_execSoftReset x0 x1 s h
  | .softResetComplete x0 => LocksLow.via (frame_execSoftResetComplete x0 s) rfl h
  | .freeze x0 x1 x2 => LocksLow.via (frame_execFreeze x0 x1 x2 s) rfl h
  | .errClear x0 x1 => LocksLow.via (frame_execErrClear x0 x1 s) rfl h
  | .irqSetWrite x0 x1 x2 => LocksLow.via (frame_execIrqSetWrite x0 x1 x2 s) rfl h
  | .allcln x0 x1 x2 => locks_execAllcln x0 x1 x2 s h
  | .l1Clean x0 x1 => locks_execL1Clean x0 x1 s h
  | .l1Invalidate x0 x1 => LocksLow.via (frame_execL1Invalidate x0 x1 s) rfl h
  | .l1CleanAndInvalidate x0 x1 => locks_execL1CleanAndInvalidate x0 x1 s h
  | .l1NoOperation x0 x1 => LocksLow.via (frame_execL1NoOperation x0 x1 s) rfl h
  | .irqTake x0 => LocksLow.via (frame_execIrqTake x0 s) rfl h
  | .uirqdone x0 x1 => LocksLow.via (frame_execUirqdone x0 x1 s) rfl h
  | .irqRouteWrite x0 x1 x2 => LocksLow.via (frame_execIrqRouteWrite x0 x1 x2 s) rfl h
  | .irqSwset x0 x1 => LocksLow.via (frame_execIrqSwset x0 x1 s) rfl h
  | .twinDataAccess x0 x1 x2 x3 => LocksLow.via (frame_execTwinDataAccess x0 x1 x2 x3 s) rfl h
  | .por => locks_execPor s h
  | .xo32kQualified => LocksLow.via (frame_execXo32kQualified s) rfl h
  | .xo32kFail => LocksLow.via (frame_execXo32kFail s) rfl h
  | .xo40Fail => LocksLow.via (frame_execXo40Fail s) rfl h
  | .mainRailsGood x0 x1 => locks_execMainRailsGood x0 x1 s h
  | .railFault x0 => locks_execRailFault x0 s h
  | .uartRecoveryImage x0 => LocksLow.via (frame_execUartRecoveryImage x0 s) rfl h
  | .perstDeassert x0 => LocksLow.via (frame_execPerstDeassert x0 s) rfl h
  | .perstAssert x0 => locks_execPerstAssert x0 s h
  | .configRequest x0 x1 => LocksLow.via (frame_execConfigRequest x0 x1 s) rfl h
  | .dmcInitGo x0 => LocksLow.via (frame_execDmcInitGo x0 s) rfl h
  | .dmcInitDone x0 => locks_execDmcInitDone x0 s h
  | .dmcInitHeldAccess x0 => locks_execDmcInitHeldAccess x0 s h
  | .readySet x0 x1 => LocksLow.via (frame_execReadySet x0 x1 s) rfl h
  | .readyClr x0 => LocksLow.via (frame_execReadyClr x0 s) rfl h
  | .controllerEnable x0 x1 => LocksLow.via (frame_execControllerEnable x0 x1 s) rfl h
  | .controllerReset x0 => locks_execControllerReset x0 s h
  | .functionLevelReset x0 => locks_execFunctionLevelReset x0 s h
  | .linkDown x0 => locks_execLinkDown x0 s h
  | .namespaceReady x0 => LocksLow.via (frame_execNamespaceReady x0 s) rfl h
  | .resetNAssert => LocksLow.via (frame_execResetNAssert s) rfl h
  | .coreDomainHold x0 => locks_execCoreDomainHold x0 s h
  | .resetNRelease x0 => locks_execResetNRelease x0 s h
  | .nvmSubsystemReset x0 x1 => locks_execNvmSubsystemReset x0 x1 s h
  | .watchdogEnable x0 x1 => LocksLow.via (frame_execWatchdogEnable x0 x1 s) rfl h
  | .watchdogKick x0 x1 => LocksLow.via (frame_execWatchdogKick x0 x1 s) rfl h
  | .watchdogPeriod => LocksLow.via (frame_execWatchdogPeriod s) rfl h
  | .watchdogReset => LocksLow.via (frame_execWatchdogReset s) rfl h
  | .powerLoss => locks_execPowerLoss s h
  | .preqGo x0 x1 => locks_execPreqGo x0 x1 s h
  | .powerStateEntered => locks_execPowerStateEntered s h
  | .pdoffWrite x0 x1 => LocksLow.via (frame_execPdoffWrite x0 x1 s) rfl h
  | .wakeSource x0 x1 x2 => locks_execWakeSource x0 x1 x2 s h
  | .clkDomWrite x0 x1 x2 => LocksLow.via (frame_execClkDomWrite x0 x1 x2 s) rfl h
  | .pllLocked x0 => locks_execPllLocked x0 s h
  | .pllLockLoss x0 => LocksLow.via (frame_execPllLockLoss x0 s) rfl h
  | .psEntryRestart => locks_execPsEntryRestart s h
  | .leaveRequest x0 x1 x2 => LocksLow.via (frame_execLeaveRequest x0 x1 x2 s) rfl h
  | .leaveRelease x0 x1 x2 => LocksLow.via (frame_execLeaveRelease x0 x1 x2 s) rfl h
  | .leaveRenew x0 x1 x2 => LocksLow.via (frame_execLeaveRenew x0 x1 x2 s) rfl h
  | .leaveExpiry x0 => LocksLow.via (frame_execLeaveExpiry x0 s) rfl h
  | .drawAfterExpiry x0 => LocksLow.via (frame_execDrawAfterExpiry x0 s) rfl h
  | .leaveDeadline x0 => LocksLow.via (frame_execLeaveDeadline x0 s) rfl h
  | .thermalCeilingStep => LocksLow.via (frame_execThermalCeilingStep s) rfl h
  | .sqTailDoorbell x0 x1 x2 x3 => locks_execSqTailDoorbell x0 x1 x2 x3 s h
  | .cqHeadDoorbell x0 x1 x2 => locks_execCqHeadDoorbell x0 x1 x2 s h
  | .commandFetch x0 => locks_execCommandFetch x0 s h
  | .fetchPauseEnd => LocksLow.via (frame_execFetchPauseEnd s) rfl h
  | .writeTransferStart x0 => LocksLow.via (frame_execWriteTransferStart x0 s) rfl h
  | .dataTransferComplete x0 => LocksLow.via (frame_execDataTransferComplete x0 s) rfl h
  | .hostMemoryError x0 => LocksLow.via (frame_execHostMemoryError x0 s) rfl h
  | .completionPost x0 => LocksLow.via (frame_execCompletionPost x0 s) rfl h
  | .interruptCoalescingTimeout x0 x1 => LocksLow.via (frame_execInterruptCoalescingTimeout x0 x1 s) rfl h
  | .recoveryTimeLimitExpiry x0 => LocksLow.via (frame_execRecoveryTimeLimitExpiry x0 s) rfl h
  | .abortMatch x0 x1 => locks_execAbortMatch x0 x1 s h
  | .read x0 x1 => LocksLow.via (frame_execRead x0 x1 s) rfl h
  | .write x0 => LocksLow.via (frame_execWrite x0 s) rfl h
  | .zoneAppend x0 => LocksLow.via (frame_execZoneAppend x0 s) rfl h
  | .flush x0 => LocksLow.via (frame_execFlush x0 s) rfl h
  | .compare x0 x1 => LocksLow.via (frame_execCompare x0 x1 s) rfl h
  | .writeUncorrectable x0 => LocksLow.via (frame_execWriteUncorrectable x0 s) rfl h
  | .writeZeroes x0 => LocksLow.via (frame_execWriteZeroes x0 s) rfl h
  | .verify x0 x1 => LocksLow.via (frame_execVerify x0 x1 s) rfl h
  | .datasetManagement x0 => LocksLow.via (frame_execDatasetManagement x0 s) rfl h
  | .reservationRegister x0 => LocksLow.via (frame_execReservationRegister x0 s) rfl h
  | .reservationReport x0 => LocksLow.via (frame_execReservationReport x0 s) rfl h
  | .reservationAcquire x0 => locks_execReservationAcquire x0 s h
  | .reservationRelease x0 => LocksLow.via (frame_execReservationRelease x0 s) rfl h
  | .zoneOpen x0 => LocksLow.via (frame_execZoneOpen x0 s) rfl h
  | .zoneClose x0 => LocksLow.via (frame_execZoneClose x0 s) rfl h
  | .zoneFinish x0 => LocksLow.via (frame_execZoneFinish x0 s) rfl h
  | .zoneReset x0 => LocksLow.via (frame_execZoneReset x0 s) rfl h
  | .zoneOffline x0 => LocksLow.via (frame_execZoneOffline x0 s) rfl h
  | .reportZones x0 => LocksLow.via (frame_execReportZones x0 s) rfl h
  | .createIoSq x0 => LocksLow.via (frame_execCreateIoSq x0 s) rfl h
  | .createIoCq x0 => LocksLow.via (frame_execCreateIoCq x0 s) rfl h
  | .deleteIoSq x0 => LocksLow.via (frame_execDeleteIoSq x0 s) rfl h
  | .deleteIoCq x0 => LocksLow.via (frame_execDeleteIoCq x0 s) rfl h
  | .identify x0 => LocksLow.via (frame_execIdentify x0 s) rfl h
  | .getLogPage x0 => LocksLow.via (frame_execGetLogPage x0 s) rfl h
  | .logGuaranteeExceptions x0 => LocksLow.via (frame_execLogGuaranteeExceptions x0 s) rfl h
  | .logEventRecorder x0 => LocksLow.via (frame_execLogEventRecorder x0 s) rfl h
  | .logLifetimeCounters x0 => LocksLow.via (frame_execLogLifetimeCounters x0 s) rfl h
  | .logActuatorHeadHealth x0 => LocksLow.via (frame_execLogActuatorHeadHealth x0 s) rfl h
  | .logLeasesPower x0 => LocksLow.via (frame_execLogLeasesPower x0 s) rfl h
  | .logAttestationMeasurements x0 => LocksLow.via (frame_execLogAttestationMeasurements x0 s) rfl h
  | .setFeatures x0 => LocksLow.via (frame_execSetFeatures x0 s) rfl h
  | .getFeatures x0 => LocksLow.via (frame_execGetFeatures x0 s) rfl h
  | .setFeaturesPowerManagement x0 => LocksLow.via (frame_execSetFeaturesPowerManagement x0 s) rfl h
  | .setFeaturesTimestamp x0 => LocksLow.via (frame_execSetFeaturesTimestamp x0 s) rfl h
  | .getFeaturesTimestamp x0 => LocksLow.via (frame_execGetFeaturesTimestamp x0 s) rfl h
  | .setFeaturesVolatileWriteCache x0 => LocksLow.via (frame_execSetFeaturesVolatileWriteCache x0 s) rfl h
  | .setFeaturesInterruptCoalescing x0 => LocksLow.via (frame_execSetFeaturesInterruptCoalescing x0 s) rfl h
  | .setFeaturesTemperatureThreshold x0 => LocksLow.via (frame_execSetFeaturesTemperatureThreshold x0 s) rfl h
  | .setFeaturesReadRecoveryLevel x0 => LocksLow.via (frame_execSetFeaturesReadRecoveryLevel x0 s) rfl h
  | .setFeaturesRecoveryTimeLimit x0 => LocksLow.via (frame_execSetFeaturesRecoveryTimeLimit x0 s) rfl h
  | .setFeaturesDirtyCap x0 => LocksLow.via (frame_execSetFeaturesDirtyCap x0 s) rfl h
  | .setFeaturesLeaseFloor x0 => LocksLow.via (frame_execSetFeaturesLeaseFloor x0 s) rfl h
  | .setFeaturesBehaviourProfile x0 => LocksLow.via (frame_execSetFeaturesBehaviourProfile x0 s) rfl h
  | .getFeaturesBehaviourProfile x0 => LocksLow.via (frame_execGetFeaturesBehaviourProfile x0 s) rfl h
  | .asynchronousEventRequest x0 => LocksLow.via (frame_execAsynchronousEventRequest x0 s) rfl h
  | .abort x0 => locks_execAbort x0 s h
  | .keepAlive x0 => LocksLow.via (frame_execKeepAlive x0 s) rfl h
  | .namespaceManagement x0 => LocksLow.via (frame_execNamespaceManagement x0 s) rfl h
  | .namespaceAttachment x0 => LocksLow.via (frame_execNamespaceAttachment x0 s) rfl h
  | .firmwareImageDownload x0 => LocksLow.via (frame_execFirmwareImageDownload x0 s) rfl h
  | .firmwareCommit x0 x1 => LocksLow.via (frame_execFirmwareCommit x0 x1 s) rfl h
  | .firmwareActivation x0 x1 => LocksLow.via (frame_execFirmwareActivation x0 x1 s) rfl h
  | .activationPauseTimeout => LocksLow.via (frame_execActivationPauseTimeout s) rfl h
  | .formatNvm x0 => LocksLow.via (frame_execFormatNvm x0 s) rfl h
  | .sanitizeOverwrite x0 => LocksLow.via (frame_execSanitizeOverwrite x0 s) rfl h
  | .sanitizeCryptoErase x0 => LocksLow.via (frame_execSanitizeCryptoErase x0 s) rfl h
  | .sanitizeBandDone => LocksLow.via (frame_execSanitizeBandDone s) rfl h
  | .securitySend x0 => LocksLow.via (frame_execSecuritySend x0 s) rfl h
  | .securityReceive x0 => LocksLow.via (frame_execSecurityReceive x0 s) rfl h
  | .attestationNonce x0 => LocksLow.via (frame_execAttestationNonce x0 s) rfl h
  | .attestationReportSigned => LocksLow.via (frame_execAttestationReportSigned s) rfl h
  | .attestationReportReceive x0 => LocksLow.via (frame_execAttestationReportReceive x0 s) rfl h
  | .credential x0 => LocksLow.via (frame_execCredential x0 s) rfl h
  | .deviceSelfTest x0 => LocksLow.via (frame_execDeviceSelfTest x0 s) rfl h
  | .nvmeMiSend x0 => locks_execNvmeMiSend x0 s h
  | .nvmeMiReceive x0 => LocksLow.via (frame_execNvmeMiReceive x0 s) rfl h
  | .readNvmeMiDataStructure x0 x1 => LocksLow.via (frame_execReadNvmeMiDataStructure x0 x1 s) rfl h
  | .nvmSubsystemHealthStatusPoll => LocksLow.via (frame_execNvmSubsystemHealthStatusPoll s) rfl h
  | .controllerHealthStatusPoll x0 => LocksLow.via (frame_execControllerHealthStatusPoll x0 s) rfl h
  | .configurationGet x0 => LocksLow.via (frame_execConfigurationGet x0 s) rfl h
  | .configurationSet x0 x1 => LocksLow.via (frame_execConfigurationSet x0 x1 s) rfl h
  | .vpdRead x0 x1 => LocksLow.via (frame_execVpdRead x0 x1 s) rfl h
  | .vpdWrite x0 x1 => LocksLow.via (frame_execVpdWrite x0 x1 s) rfl h
  | .miReset => locks_execMiReset s h
  | .basicManagementCommand => LocksLow.via (frame_execBasicManagementCommand s) rfl h
  | .nsdomWrite x0 x1 x2 => LocksLow.via (frame_execNsdomWrite x0 x1 x2 s) rfl h
  | .lgrWinGo x0 x1 => LocksLow.via (frame_execLgrWinGo x0 x1 s) rfl h
  | .journalBlockDurable x0 => LocksLow.via (frame_execJournalBlockDurable x0 s) rfl h
  | .checkpoint => LocksLow.via (frame_execCheckpoint s) rfl h
  | .migrationStart x0 x1 x2 x3 => LocksLow.via (frame_execMigrationStart x0 x1 x2 x3 s) rfl h
  | .migrationCopyVerified x0 x1 x2 => LocksLow.via (frame_execMigrationCopyVerified x0 x1 x2 s) rfl h
  | .migFree x0 x1 => LocksLow.via (frame_execMigFree x0 x1 s) rfl h
  | .reservoirCommit x0 => LocksLow.via (frame_execReservoirCommit x0 s) rfl h
  | .ledgerFreeze => LocksLow.via (frame_execLedgerFreeze s) rfl h
  | .commitRecordDurable => locks_execCommitRecordDurable s h
  | .reservoirReplay x0 => LocksLow.via (frame_execReservoirReplay x0 s) rfl h
  | .replayDone => LocksLow.via (frame_execReplayDone s) rfl h
  | .restartRecovery x0 x1 => LocksLow.via (frame_execRestartRecovery x0 x1 s) rfl h
  | .taskCommit x0 x1 => locks_execTaskCommit x0 x1 s h
  | .taskCancel x0 x1 => locks_execTaskCancel x0 x1 s h
  | .taskPromotion x0 => locks_execTaskPromotion x0 s h
  | .microwordIssue x0 => locks_execMicrowordIssue x0 s h
  | .seqNext x0 => locks_execSeqNext x0 s h
  | .seqJump x0 => locks_execSeqJump x0 s h
  | .seqCall x0 => locks_execSeqCall x0 s h
  | .seqRet x0 => locks_execSeqRet x0 s h
  | .seqBrt x0 => locks_execSeqBrt x0 s h
  | .seqBrf x0 => locks_execSeqBrf x0 s h
  | .seqDispatch x0 => locks_execSeqDispatch x0 s h
  | .seqLoop x0 => locks_execSeqLoop x0 s h
  | .faultRequest x0 x1 => LocksLow.via (frame_execFaultRequest x0 x1 s) rfl h
  | .waitTimeout x0 => LocksLow.via (frame_execWaitTimeout x0 s) rfl h
  | .atomicBound x0 => LocksLow.via (frame_execAtomicBound x0 s) rfl h
  | .asqAbort x0 x1 x2 => locks_execAsqAbort x0 x1 x2 s h
  | .taskDeadline x0 => LocksLow.via (frame_execTaskDeadline x0 s) rfl h
  | .resultPop x0 x1 x2 => LocksLow.via (frame_execResultPop x0 x1 x2 s) rfl h
  | .microcodeActivate x0 => LocksLow.via (frame_execMicrocodeActivate x0 s) rfl h
  | .arm x0 x1 => LocksLow.via (frame_execArm x0 x1 s) rfl h
  | .activationCopy => LocksLow.via (frame_execActivationCopy s) rfl h
  | .activationAbandon => LocksLow.via (frame_execActivationAbandon s) rfl h
  | .openctlWrite x0 x1 => LocksLow.via (frame_execOpenctlWrite x0 x1 s) rfl h
  | .readerCheck x0 x1 x2 x3 x4 => LocksLow.via (frame_execReaderCheck x0 x1 x2 x3 x4 s) rfl h
  | .clockField x0 x1 => LocksLow.via (frame_execClockField x0 x1 s) rfl h
  | .syncADecision x0 x1 => LocksLow.via (frame_execSyncADecision x0 x1 s) rfl h
  | .syncBDecision x0 x1 => LocksLow.via (frame_execSyncBDecision x0 x1 s) rfl h
  | .blindFraming x0 x1 => LocksLow.via (frame_execBlindFraming x0 x1 s) rfl h
  | .defectSpan x0 x1 x2 => LocksLow.via (frame_execDefectSpan x0 x1 x2 s) rfl h
  | .loopLimit x0 x1 => LocksLow.via (frame_execLoopLimit x0 x1 s) rfl h
  | .pmonSnap x0 => LocksLow.via (frame_execPmonSnap x0 s) rfl h
  | .pmonClr x0 => LocksLow.via (frame_execPmonClr x0 s) rfl h
  | .codewordDecode x0 x1 => LocksLow.via (frame_execCodewordDecode x0 x1 s) rfl h
  | .squeezeRedecode x0 => LocksLow.via (frame_execSqueezeRedecode x0 s) rfl h
  | .clusterDecode x0 x1 x2 x3 => LocksLow.via (frame_execClusterDecode x0 x1 x2 x3 s) rfl h
  | .retainedSlotFree x0 x1 => LocksLow.via (frame_execRetainedSlotFree x0 x1 s) rfl h
  | .failurePop x0 x1 x2 => LocksLow.via (frame_execFailurePop x0 x1 x2 s) rfl h
  | .defectInsert x0 x1 => locks_execDefectInsert x0 x1 s h
  | .defectDelete x0 x1 => locks_execDefectDelete x0 x1 s h
  | .defectClearPending x0 x1 => locks_execDefectClearPending x0 x1 s h
  | .defectInsertRelease => locks_execDefectInsertRelease s h
  | .sampleTrigger x0 x1 => LocksLow.via (frame_execSampleTrigger x0 x1 s) rfl h
  | .syncTimeout x0 x1 => LocksLow.via (frame_execSyncTimeout x0 x1 s) rfl h
  | .tableSwapGo x0 x1 => LocksLow.via (frame_execTableSwapGo x0 x1 s) rfl h
  | .tableSwap x0 => LocksLow.via (frame_execTableSwap x0 s) rfl h
  | .mailCommit x0 x1 => LocksLow.via (frame_execMailCommit x0 x1 s) rfl h
  | .engineRun x0 x1 x2 => LocksLow.via (frame_execEngineRun x0 x1 x2 s) rfl h
  | .seekTimeout x0 => LocksLow.via (frame_execSeekTimeout x0 s) rfl h
  | .shockConversion x0 x1 x2 => LocksLow.via (frame_execShockConversion x0 x1 x2 s) rfl h
  | .shockSensorFault x0 x1 => LocksLow.via (frame_execShockSensorFault x0 x1 s) rfl h
  | .cdaShort x0 x1 => LocksLow.via (frame_execCdaShort x0 x1 s) rfl h
  | .retractGo x0 x1 => LocksLow.via (frame_execRetractGo x0 x1 s) rfl h
  | .retractEnd x0 => locks_execRetractEnd x0 s h
  | .focusLost x0 => LocksLow.via (frame_execFocusLost x0 s) rfl h
  | .jumpGo x0 x1 x2 => LocksLow.via (frame_execJumpGo x0 x1 x2 s) rfl h
  | .focusSweepGo x0 x1 x2 => LocksLow.via (frame_execFocusSweepGo x0 x1 x2 s) rfl h
  | .traceStart x0 x1 x2 => LocksLow.via (frame_execTraceStart x0 x1 x2 s) rfl h
  | .traceStop x0 x1 x2 => LocksLow.via (frame_execTraceStop x0 x1 x2 s) rfl h
  | .traceRead x0 x1 => LocksLow.via (frame_execTraceRead x0 x1 s) rfl h
  | .start x0 => LocksLow.via (frame_execStart x0 s) rfl h
  | .brake x0 => LocksLow.via (frame_execBrake x0 s) rfl h
  | .brakeEntry => LocksLow.via (frame_execBrakeEntry s) rfl h
  | .coast x0 => LocksLow.via (frame_execCoast x0 s) rfl h
  | .clrf x0 => LocksLow.via (frame_execClrf x0 s) rfl h
  | .alignDone => LocksLow.via (frame_execAlignDone s) rfl h
  | .spinupAttemptTimeout => LocksLow.via (frame_execSpinupAttemptTimeout s) rfl h
  | .pwmCentre x0 x1 x2 x3 => LocksLow.via (frame_execPwmCentre x0 x1 x2 x3 s) rfl h
  | .bemfCrossing x0 x1 => LocksLow.via (frame_execBemfCrossing x0 x1 s) rfl h
  | .commutation x0 => LocksLow.via (frame_execCommutation x0 s) rfl h
  | .floatPeriodEnd x0 => LocksLow.via (frame_execFloatPeriodEnd x0 s) rfl h
  | .recoveryTimeout => LocksLow.via (frame_execRecoveryTimeout s) rfl h
  | .motorRailThreshold x0 => LocksLow.via (frame_execMotorRailThreshold x0 s) rfl h
  | .chopperFault x0 x1 => LocksLow.via (frame_execChopperFault x0 x1 s) rfl h
  | .chopperConducting x0 => LocksLow.via (frame_execChopperConducting x0 s) rfl h
  | .railOvervoltage x0 => LocksLow.via (frame_execRailOvervoltage x0 s) rfl h
  | .spnFltNLow => LocksLow.via (frame_execSpnFltNLow s) rfl h
  | .phaseOpen x0 => LocksLow.via (frame_execPhaseOpen x0 s) rfl h
  | .supplyReversed x0 => LocksLow.via (frame_execSupplyReversed x0 s) rfl h
  | .spindleStopped => LocksLow.via (frame_execSpindleStopped s) rfl h
  | .rectifyExit => LocksLow.via (frame_execRectifyExit s) rfl h
  | .preampFault x0 => LocksLow.via (frame_execPreampFault x0 s) rfl h
  | .psiFrameDone x0 x1 x2 => LocksLow.via (frame_execPsiFrameDone x0 x1 x2 s) rfl h
  | .psiFwcmdGo x0 x1 x2 => LocksLow.via (frame_execPsiFwcmdGo x0 x1 x2 s) rfl h
  | .laserMonitorRead x0 x1 x2 => LocksLow.via (frame_execLaserMonitorRead x0 x1 x2 s) rfl h
  | .lsrClrf x0 x1 => LocksLow.via (frame_execLsrClrf x0 x1 s) rfl h
  | .addressUnit x0 x1 x2 x3 => LocksLow.via (frame_execAddressUnit x0 x1 x2 x3 s) rfl h
  | .optFmtWrite x0 x1 => LocksLow.via (frame_execOptFmtWrite x0 x1 s) rfl h
  | .saDelayEnd x0 => LocksLow.via (frame_execSaDelayEnd x0 s) rfl h
  | .sledMoveEnd x0 => LocksLow.via (frame_execSledMoveEnd x0 s) rfl h
  | .ddrRead x0 x1 x2 => locks_execDdrRead x0 x1 x2 s h
  | .regattrPolicyWrite x0 x1 x2 => locks_execRegattrPolicyWrite x0 x1 x2 s h
  | .splitRead x0 => locks_execSplitRead x0 s h
  | .splitWrite x0 => locks_execSplitWrite x0 s h
  | .scrubRead x0 => LocksLow.via (frame_execScrubRead x0 s) rfl h
  | .softPpr x0 x1 => LocksLow.via (frame_execSoftPpr x0 x1 s) rfl h
  | .hardPpr x0 x1 => LocksLow.via (frame_execHardPpr x0 x1 s) rfl h
  | .rowLogClear x0 x1 => LocksLow.via (frame_execRowLogClear x0 x1 s) rfl h
  | .bccAccess x0 x1 x2 x3 x4 => locks_execBccAccess x0 x1 x2 x3 x4 s h
  | .ceWindowExpiry => locks_execCeWindowExpiry s h
  | .bccEnable x0 => locks_execBccEnable x0 s h
  | .bccDisable x0 => locks_execBccDisable x0 s h
  | .drainComplete => locks_execDrainComplete s h
  | .bccClean x0 => locks_execBccClean x0 s h
  | .bccInval x0 => locks_execBccInval x0 s h
  | .bccCleanInval x0 => locks_execBccCleanInval x0 s h
  | .bccZero x0 => locks_execBccZero x0 s h
  | .bccLock x0 => locks_execBccLock x0 s h
  | .bccUnlock x0 => locks_execBccUnlock x0 s h
  | .bccInvalAll x0 => locks_execBccInvalAll x0 s h
  | .rangeOpDone => locks_execRangeOpDone s h
  | .repairMapEntry x0 => LocksLow.via (frame_execRepairMapEntry x0 s) rfl h
  | .extend x0 x1 => LocksLow.via (frame_execExtend x0 x1 s) rfl h
  | .keyGenerate x0 x1 x2 => locks_execKeyGenerate x0 x1 x2 s h
  | .keyZero x0 => LocksLow.via (frame_execKeyZero x0 s) rfl h
  | .keyCheckpoint => locks_execKeyCheckpoint s h
  | .nsActive x0 x1 x2 => LocksLow.via (frame_execNsActive x0 x1 x2 s) rfl h
  | .svnCommit x0 => LocksLow.via (frame_execSvnCommit x0 s) rfl h
  | .takeOwnership x0 => LocksLow.via (frame_execTakeOwnership x0 s) rfl h
  | .addOwnerKey x0 x1 => LocksLow.via (frame_execAddOwnerKey x0 x1 s) rfl h
  | .revokeOwnerKey x0 x1 => LocksLow.via (frame_execRevokeOwnerKey x0 x1 s) rfl h
  | .ownerPolicy x0 x1 x2 x3 => LocksLow.via (frame_execOwnerPolicy x0 x1 x2 x3 s) rfl h
  | .exportKeys x0 x1 => locks_execExportKeys x0 x1 s h
  | .importKeys x0 x1 => locks_execImportKeys x0 x1 s h
  | .behaviourProfileUnlock x0 x1 => LocksLow.via (frame_execBehaviourProfileUnlock x0 x1 s) rfl h
  | .firmwareActivationMeasurement x0 => LocksLow.via (frame_execFirmwareActivationMeasurement x0 s) rfl h
  | .slotSelect x0 x1 => LocksLow.via (frame_execSlotSelect x0 x1 s) rfl h
  | .snuffLevel1 x0 => locks_execSnuffLevel1 x0 s h
  | .snuffLevel2 x0 => locks_execSnuffLevel2 x0 s h
  | .alarmFuseBlow => locks_execAlarmFuseBlow s h
  | .epochFuseBlow => LocksLow.via (frame_execEpochFuseBlow s) rfl h
  | .keyRestore => LocksLow.via (frame_execKeyRestore s) rfl h
  | .debugChallenge => LocksLow.via (frame_execDebugChallenge s) rfl h
  | .debugResponse x0 x1 x2 x3 => locks_execDebugResponse x0 x1 x2 x3 s h
  | .thmConversion x0 x1 => LocksLow.via (frame_execThmConversion x0 x1 s) rfl h
  | .shutdownDimEntry => LocksLow.via (frame_execShutdownDimEntry s) rfl h
  | .criticalDarkEntry => locks_execCriticalDarkEntry s h
  | .criticalWake x0 => locks_execCriticalWake x0 s h
  | .clrshut x0 => LocksLow.via (frame_execClrshut x0 s) rfl h
  | .clrexcl x0 => LocksLow.via (frame_execClrexcl x0 s) rfl h
  | .trimCompute x0 => LocksLow.via (frame_execTrimCompute x0 s) rfl h
  | .taperStep x0 => LocksLow.via (frame_execTaperStep x0 s) rfl h
  | .trimAge x0 => LocksLow.via (frame_execTrimAge x0 s) rfl h
  | .eventStore => LocksLow.via (frame_execEventStore s) rfl h
  | .eventRaiseSw x0 x1 => LocksLow.via (frame_execEventRaiseSw x0 x1 s) rfl h
  | .floodPeriod => LocksLow.via (frame_execFloodPeriod s) rfl h
  | .evrNextRead x0 => LocksLow.via (frame_execEvrNextRead x0 s) rfl h
  | .evrCursorWrite x0 x1 => LocksLow.via (frame_execEvrCursorWrite x0 x1 s) rfl h
  | .evrWindowAdvance x0 => LocksLow.via (frame_execEvrWindowAdvance x0 s) rfl h
  | .evrBaseWrite x0 x1 x2 => LocksLow.via (frame_execEvrBaseWrite x0 x1 x2 s) rfl h
  | .evrStore x0 => LocksLow.via (frame_execEvrStore x0 s) rfl h
  | .evrCommit x0 => LocksLow.via (frame_execEvrCommit x0 s) rfl h
  | .lifAdd x0 x1 => LocksLow.via (frame_execLifAdd x0 x1 s) rfl h
  | .lifSeal x0 => LocksLow.via (frame_execLifSeal x0 s) rfl h
  | .lifSnap x0 => LocksLow.via (frame_execLifSnap x0 s) rfl h
  | .lifTick => LocksLow.via (frame_execLifTick s) rfl h
  | .calRead x0 => LocksLow.via (frame_execCalRead x0 s) rfl h
  | .calSet x0 x1 => LocksLow.via (frame_execCalSet x0 x1 s) rfl h
  | .calAdjust x0 x1 => LocksLow.via (frame_execCalAdjust x0 x1 s) rfl h
  | .slewDone => LocksLow.via (frame_execSlewDone s) rfl h
  | .calAlarm => LocksLow.via (frame_execCalAlarm s) rfl h
  | .beaconSend => LocksLow.via (frame_execBeaconSend s) rfl h
  | .beaconReceive x0 x1 => LocksLow.via (frame_execBeaconReceive x0 x1 s) rfl h
  | .beaconMissed => LocksLow.via (frame_execBeaconMissed s) rfl h
  | .discoverSend => LocksLow.via (frame_execDiscoverSend s) rfl h
  | .discoverReceive x0 => LocksLow.via (frame_execDiscoverReceive x0 s) rfl h
  | .enrollReceive x0 x1 => locks_execEnrollReceive x0 x1 s h
  | .pollSend => LocksLow.via (frame_execPollSend s) rfl h
  | .pollReceive x0 => LocksLow.via (frame_execPollReceive x0 s) rfl h
  | .replyReceive x0 => locks_execReplyReceive x0 s h
  | .pollMissed => LocksLow.via (frame_execPollMissed s) rfl h
  | .imageReceive x0 x1 x2 x3 x4 => locks_execImageReceive x0 x1 x2 x3 x4 s h
  | .vlkWake x0 x1 x2 => locks_execVlkWake x0 x1 x2 s h
  | .leaseRenewalRequest => LocksLow.via (frame_execLeaseRenewalRequest s) rfl h
  | .leaseExpiry => LocksLow.via (frame_execLeaseExpiry s) rfl h
  | .quietPeriodEnd => LocksLow.via (frame_execQuietPeriodEnd s) rfl h
  | .orphanBackoffEnd => LocksLow.via (frame_execOrphanBackoffEnd s) rfl h
  | .orphanWindowEnd => LocksLow.via (frame_execOrphanWindowEnd s) rfl h
  | .segmentKeyRotation => LocksLow.via (frame_execSegmentKeyRotation s) rfl h
  | .vlkCmdWake x0 x1 => LocksLow.via (frame_execVlkCmdWake x0 x1 s) rfl h
  | .vlkCmdAttreq x0 x1 => LocksLow.via (frame_execVlkCmdAttreq x0 x1 s) rfl h
  | .vlkCmdRemove x0 x1 => LocksLow.via (frame_execVlkCmdRemove x0 x1 s) rfl h
  | .imageFanout x0 x1 => LocksLow.via (frame_execImageFanout x0 x1 s) rfl h
  | .linkOpen => LocksLow.via (frame_execLinkOpen s) rfl h
  | .linkShort x0 => LocksLow.via (frame_execLinkShort x0 s) rfl h
  | .linkRetry x0 => LocksLow.via (frame_execLinkRetry x0 s) rfl h
  | .headRetire x0 x1 x2 x3 => LocksLow.via (frame_execHeadRetire x0 x1 x2 x3 s) rfl h
  | .sectorStart x0 => LocksLow.via (frame_execSectorStart x0 s) rfl h
  | .sectorEnd x0 => LocksLow.via (frame_execSectorEnd x0 s) rfl h
  | .wedgeGap x0 x1 => LocksLow.via (frame_execWedgeGap x0 x1 s) rfl h
  | .defectSpanEnd x0 x1 x2 => LocksLow.via (frame_execDefectSpanEnd x0 x1 x2 s) rfl h
  | .wickCriticalLimit x0 => locks_execWickCriticalLimit x0 s h
  | .pprDone x0 => LocksLow.via (frame_execPprDone x0 s) rfl h
  | .segmentGrantExpiry x0 => LocksLow.via (frame_execSegmentGrantExpiry x0 s) rfl h
  | .fleetAuthorizationExpiry => LocksLow.via (frame_execFleetAuthorizationExpiry s) rfl h
  | .vddAux33Loss => locks_execVddAux33Loss s h

/-- Every command but SVN_COMMIT keeps the SVN fuse count. -/
theorem svn_exec {q : Nat} (i : Instr) (s : State) (k : ∀ n, i ≠ .svnCommit n) (h : SvnIs q s) :
    SvnIs q (after s (exec i s)) :=
  match i with
  | .regWrite x0 x1 x2 => svn_execRegWrite x0 x1 x2 s h
  | .busAccess x0 x1 x2 x3 x4 => svn_execBusAccess x0 x1 x2 x3 x4 s h
  | .guardWordWrite x0 x1 x2 => SvnIs.via (frame_execGuardWordWrite x0 x1 x2 s) rfl h
  | .guardWindowExhausted x0 => SvnIs.via (frame_execGuardWindowExhausted x0 s) rfl h
  | .softReset x0 x1 => svn_execSoftReset x0 x1 s h
  | .softResetComplete x0 => SvnIs.via (frame_execSoftResetComplete x0 s) rfl h
  | .freeze x0 x1 x2 => SvnIs.via (frame_execFreeze x0 x1 x2 s) rfl h
  | .errClear x0 x1 => SvnIs.via (frame_execErrClear x0 x1 s) rfl h
  | .irqSetWrite x0 x1 x2 => SvnIs.via (frame_execIrqSetWrite x0 x1 x2 s) rfl h
  | .allcln x0 x1 x2 => SvnIs.via (frame_execAllcln x0 x1 x2 s) rfl h
  | .l1Clean x0 x1 => SvnIs.via (frame_execL1Clean x0 x1 s) rfl h
  | .l1Invalidate x0 x1 => SvnIs.via (frame_execL1Invalidate x0 x1 s) rfl h
  | .l1CleanAndInvalidate x0 x1 => SvnIs.via (frame_execL1CleanAndInvalidate x0 x1 s) rfl h
  | .l1NoOperation x0 x1 => SvnIs.via (frame_execL1NoOperation x0 x1 s) rfl h
  | .irqTake x0 => SvnIs.via (frame_execIrqTake x0 s) rfl h
  | .uirqdone x0 x1 => SvnIs.via (frame_execUirqdone x0 x1 s) rfl h
  | .irqRouteWrite x0 x1 x2 => SvnIs.via (frame_execIrqRouteWrite x0 x1 x2 s) rfl h
  | .irqSwset x0 x1 => SvnIs.via (frame_execIrqSwset x0 x1 s) rfl h
  | .twinDataAccess x0 x1 x2 x3 => SvnIs.via (frame_execTwinDataAccess x0 x1 x2 x3 s) rfl h
  | .por => svn_execPor s h
  | .xo32kQualified => SvnIs.via (frame_execXo32kQualified s) rfl h
  | .xo32kFail => SvnIs.via (frame_execXo32kFail s) rfl h
  | .xo40Fail => SvnIs.via (frame_execXo40Fail s) rfl h
  | .mainRailsGood x0 x1 => svn_execMainRailsGood x0 x1 s h
  | .railFault x0 => svn_execRailFault x0 s h
  | .uartRecoveryImage x0 => svn_execUartRecoveryImage x0 s h
  | .perstDeassert x0 => SvnIs.via (frame_execPerstDeassert x0 s) rfl h
  | .perstAssert x0 => svn_execPerstAssert x0 s h
  | .configRequest x0 x1 => SvnIs.via (frame_execConfigRequest x0 x1 s) rfl h
  | .dmcInitGo x0 => SvnIs.via (frame_execDmcInitGo x0 s) rfl h
  | .dmcInitDone x0 => SvnIs.via (frame_execDmcInitDone x0 s) rfl h
  | .dmcInitHeldAccess x0 => SvnIs.via (frame_execDmcInitHeldAccess x0 s) rfl h
  | .readySet x0 x1 => SvnIs.via (frame_execReadySet x0 x1 s) rfl h
  | .readyClr x0 => SvnIs.via (frame_execReadyClr x0 s) rfl h
  | .controllerEnable x0 x1 => SvnIs.via (frame_execControllerEnable x0 x1 s) rfl h
  | .controllerReset x0 => svn_execControllerReset x0 s h
  | .functionLevelReset x0 => svn_execFunctionLevelReset x0 s h
  | .linkDown x0 => svn_execLinkDown x0 s h
  | .namespaceReady x0 => svn_execNamespaceReady x0 s h
  | .resetNAssert => SvnIs.via (frame_execResetNAssert s) rfl h
  | .coreDomainHold x0 => svn_execCoreDomainHold x0 s h
  | .resetNRelease x0 => svn_execResetNRelease x0 s h
  | .nvmSubsystemReset x0 x1 => svn_execNvmSubsystemReset x0 x1 s h
  | .watchdogEnable x0 x1 => SvnIs.via (frame_execWatchdogEnable x0 x1 s) rfl h
  | .watchdogKick x0 x1 => SvnIs.via (frame_execWatchdogKick x0 x1 s) rfl h
  | .watchdogPeriod => SvnIs.via (frame_execWatchdogPeriod s) rfl h
  | .watchdogReset => SvnIs.via (frame_execWatchdogReset s) rfl h
  | .powerLoss => svn_execPowerLoss s h
  | .preqGo x0 x1 => SvnIs.via (frame_execPreqGo x0 x1 s) rfl h
  | .powerStateEntered => svn_execPowerStateEntered s h
  | .pdoffWrite x0 x1 => SvnIs.via (frame_execPdoffWrite x0 x1 s) rfl h
  | .wakeSource x0 x1 x2 => svn_execWakeSource x0 x1 x2 s h
  | .clkDomWrite x0 x1 x2 => SvnIs.via (frame_execClkDomWrite x0 x1 x2 s) rfl h
  | .pllLocked x0 => SvnIs.via (frame_execPllLocked x0 s) rfl h
  | .pllLockLoss x0 => SvnIs.via (frame_execPllLockLoss x0 s) rfl h
  | .psEntryRestart => SvnIs.via (frame_execPsEntryRestart s) rfl h
  | .leaveRequest x0 x1 x2 => SvnIs.via (frame_execLeaveRequest x0 x1 x2 s) rfl h
  | .leaveRelease x0 x1 x2 => SvnIs.via (frame_execLeaveRelease x0 x1 x2 s) rfl h
  | .leaveRenew x0 x1 x2 => SvnIs.via (frame_execLeaveRenew x0 x1 x2 s) rfl h
  | .leaveExpiry x0 => SvnIs.via (frame_execLeaveExpiry x0 s) rfl h
  | .drawAfterExpiry x0 => SvnIs.via (frame_execDrawAfterExpiry x0 s) rfl h
  | .leaveDeadline x0 => SvnIs.via (frame_execLeaveDeadline x0 s) rfl h
  | .thermalCeilingStep => SvnIs.via (frame_execThermalCeilingStep s) rfl h
  | .sqTailDoorbell x0 x1 x2 x3 => SvnIs.via (frame_execSqTailDoorbell x0 x1 x2 x3 s) rfl h
  | .cqHeadDoorbell x0 x1 x2 => SvnIs.via (frame_execCqHeadDoorbell x0 x1 x2 s) rfl h
  | .commandFetch x0 => svn_execCommandFetch x0 s h
  | .fetchPauseEnd => SvnIs.via (frame_execFetchPauseEnd s) rfl h
  | .writeTransferStart x0 => SvnIs.via (frame_execWriteTransferStart x0 s) rfl h
  | .dataTransferComplete x0 => svn_execDataTransferComplete x0 s h
  | .hostMemoryError x0 => SvnIs.via (frame_execHostMemoryError x0 s) rfl h
  | .completionPost x0 => svn_execCompletionPost x0 s h
  | .interruptCoalescingTimeout x0 x1 => SvnIs.via (frame_execInterruptCoalescingTimeout x0 x1 s) rfl h
  | .recoveryTimeLimitExpiry x0 => SvnIs.via (frame_execRecoveryTimeLimitExpiry x0 s) rfl h
  | .abortMatch x0 x1 => svn_execAbortMatch x0 x1 s h
  | .read x0 x1 => SvnIs.via (frame_execRead x0 x1 s) rfl h
  | .write x0 => SvnIs.via (frame_execWrite x0 s) rfl h
  | .zoneAppend x0 => SvnIs.via (frame_execZoneAppend x0 s) rfl h
  | .flush x0 => SvnIs.via (frame_execFlush x0 s) rfl h
  | .compare x0 x1 => SvnIs.via (frame_execCompare x0 x1 s) rfl h
  | .writeUncorrectable x0 => svn_execWriteUncorrectable x0 s h
  | .writeZeroes x0 => svn_execWriteZeroes x0 s h
  | .verify x0 x1 => SvnIs.via (frame_execVerify x0 x1 s) rfl h
  | .datasetManagement x0 => svn_execDatasetManagement x0 s h
  | .reservationRegister x0 => SvnIs.via (frame_execReservationRegister x0 s) rfl h
  | .reservationReport x0 => SvnIs.via (frame_execReservationReport x0 s) rfl h
  | .reservationAcquire x0 => svn_execReservationAcquire x0 s h
  | .reservationRelease x0 => SvnIs.via (frame_execReservationRelease x0 s) rfl h
  | .zoneOpen x0 => SvnIs.via (frame_execZoneOpen x0 s) rfl h
  | .zoneClose x0 => SvnIs.via (frame_execZoneClose x0 s) rfl h
  | .zoneFinish x0 => SvnIs.via (frame_execZoneFinish x0 s) rfl h
  | .zoneReset x0 => SvnIs.via (frame_execZoneReset x0 s) rfl h
  | .zoneOffline x0 => SvnIs.via (frame_execZoneOffline x0 s) rfl h
  | .reportZones x0 => SvnIs.via (frame_execReportZones x0 s) rfl h
  | .createIoSq x0 => SvnIs.via (frame_execCreateIoSq x0 s) rfl h
  | .createIoCq x0 => SvnIs.via (frame_execCreateIoCq x0 s) rfl h
  | .deleteIoSq x0 => SvnIs.via (frame_execDeleteIoSq x0 s) rfl h
  | .deleteIoCq x0 => SvnIs.via (frame_execDeleteIoCq x0 s) rfl h
  | .identify x0 => SvnIs.via (frame_execIdentify x0 s) rfl h
  | .getLogPage x0 => SvnIs.via (frame_execGetLogPage x0 s) rfl h
  | .logGuaranteeExceptions x0 => SvnIs.via (frame_execLogGuaranteeExceptions x0 s) rfl h
  | .logEventRecorder x0 => SvnIs.via (frame_execLogEventRecorder x0 s) rfl h
  | .logLifetimeCounters x0 => SvnIs.via (frame_execLogLifetimeCounters x0 s) rfl h
  | .logActuatorHeadHealth x0 => SvnIs.via (frame_execLogActuatorHeadHealth x0 s) rfl h
  | .logLeasesPower x0 => SvnIs.via (frame_execLogLeasesPower x0 s) rfl h
  | .logAttestationMeasurements x0 => SvnIs.via (frame_execLogAttestationMeasurements x0 s) rfl h
  | .setFeatures x0 => SvnIs.via (frame_execSetFeatures x0 s) rfl h
  | .getFeatures x0 => SvnIs.via (frame_execGetFeatures x0 s) rfl h
  | .setFeaturesPowerManagement x0 => SvnIs.via (frame_execSetFeaturesPowerManagement x0 s) rfl h
  | .setFeaturesTimestamp x0 => SvnIs.via (frame_execSetFeaturesTimestamp x0 s) rfl h
  | .getFeaturesTimestamp x0 => SvnIs.via (frame_execGetFeaturesTimestamp x0 s) rfl h
  | .setFeaturesVolatileWriteCache x0 => SvnIs.via (frame_execSetFeaturesVolatileWriteCache x0 s) rfl h
  | .setFeaturesInterruptCoalescing x0 => SvnIs.via (frame_execSetFeaturesInterruptCoalescing x0 s) rfl h
  | .setFeaturesTemperatureThreshold x0 => SvnIs.via (frame_execSetFeaturesTemperatureThreshold x0 s) rfl h
  | .setFeaturesReadRecoveryLevel x0 => SvnIs.via (frame_execSetFeaturesReadRecoveryLevel x0 s) rfl h
  | .setFeaturesRecoveryTimeLimit x0 => SvnIs.via (frame_execSetFeaturesRecoveryTimeLimit x0 s) rfl h
  | .setFeaturesDirtyCap x0 => SvnIs.via (frame_execSetFeaturesDirtyCap x0 s) rfl h
  | .setFeaturesLeaseFloor x0 => SvnIs.via (frame_execSetFeaturesLeaseFloor x0 s) rfl h
  | .setFeaturesBehaviourProfile x0 => SvnIs.via (frame_execSetFeaturesBehaviourProfile x0 s) rfl h
  | .getFeaturesBehaviourProfile x0 => SvnIs.via (frame_execGetFeaturesBehaviourProfile x0 s) rfl h
  | .asynchronousEventRequest x0 => SvnIs.via (frame_execAsynchronousEventRequest x0 s) rfl h
  | .abort x0 => svn_execAbort x0 s h
  | .keepAlive x0 => SvnIs.via (frame_execKeepAlive x0 s) rfl h
  | .namespaceManagement x0 => svn_execNamespaceManagement x0 s h
  | .namespaceAttachment x0 => SvnIs.via (frame_execNamespaceAttachment x0 s) rfl h
  | .firmwareImageDownload x0 => SvnIs.via (frame_execFirmwareImageDownload x0 s) rfl h
  | .firmwareCommit x0 x1 => SvnIs.via (frame_execFirmwareCommit x0 x1 s) rfl h
  | .firmwareActivation x0 x1 => svn_execFirmwareActivation x0 x1 s h
  | .activationPauseTimeout => SvnIs.via (frame_execActivationPauseTimeout s) rfl h
  | .formatNvm x0 => SvnIs.via (frame_execFormatNvm x0 s) rfl h
  | .sanitizeOverwrite x0 => SvnIs.via (frame_execSanitizeOverwrite x0 s) rfl h
  | .sanitizeCryptoErase x0 => svn_execSanitizeCryptoErase x0 s h
  | .sanitizeBandDone => SvnIs.via (frame_execSanitizeBandDone s) rfl h
  | .securitySend x0 => SvnIs.via (frame_execSecuritySend x0 s) rfl h
  | .securityReceive x0 => SvnIs.via (frame_execSecurityReceive x0 s) rfl h
  | .attestationNonce x0 => svn_execAttestationNonce x0 s h
  | .attestationReportSigned => svn_execAttestationReportSigned s h
  | .attestationReportReceive x0 => SvnIs.via (frame_execAttestationReportReceive x0 s) rfl h
  | .credential x0 => svn_execCredential x0 s h
  | .deviceSelfTest x0 => SvnIs.via (frame_execDeviceSelfTest x0 s) rfl h
  | .nvmeMiSend x0 => svn_execNvmeMiSend x0 s h
  | .nvmeMiReceive x0 => SvnIs.via (frame_execNvmeMiReceive x0 s) rfl h
  | .readNvmeMiDataStructure x0 x1 => SvnIs.via (frame_execReadNvmeMiDataStructure x0 x1 s) rfl h
  | .nvmSubsystemHealthStatusPoll => SvnIs.via (frame_execNvmSubsystemHealthStatusPoll s) rfl h
  | .controllerHealthStatusPoll x0 => SvnIs.via (frame_execControllerHealthStatusPoll x0 s) rfl h
  | .configurationGet x0 => SvnIs.via (frame_execConfigurationGet x0 s) rfl h
  | .configurationSet x0 x1 => SvnIs.via (frame_execConfigurationSet x0 x1 s) rfl h
  | .vpdRead x0 x1 => SvnIs.via (frame_execVpdRead x0 x1 s) rfl h
  | .vpdWrite x0 x1 => SvnIs.via (frame_execVpdWrite x0 x1 s) rfl h
  | .miReset => svn_execMiReset s h
  | .basicManagementCommand => SvnIs.via (frame_execBasicManagementCommand s) rfl h
  | .nsdomWrite x0 x1 x2 => SvnIs.via (frame_execNsdomWrite x0 x1 x2 s) rfl h
  | .lgrWinGo x0 x1 => SvnIs.via (frame_execLgrWinGo x0 x1 s) rfl h
  | .journalBlockDurable x0 => svn_execJournalBlockDurable x0 s h
  | .checkpoint => SvnIs.via (frame_execCheckpoint s) rfl h
  | .migrationStart x0 x1 x2 x3 => SvnIs.via (frame_execMigrationStart x0 x1 x2 x3 s) rfl h
  | .migrationCopyVerified x0 x1 x2 => svn_execMigrationCopyVerified x0 x1 x2 s h
  | .migFree x0 x1 => SvnIs.via (frame_execMigFree x0 x1 s) rfl h
  | .reservoirCommit x0 => SvnIs.via (frame_execReservoirCommit x0 s) rfl h
  | .ledgerFreeze => SvnIs.via (frame_execLedgerFreeze s) rfl h
  | .commitRecordDurable => svn_execCommitRecordDurable s h
  | .reservoirReplay x0 => SvnIs.via (frame_execReservoirReplay x0 s) rfl h
  | .replayDone => SvnIs.via (frame_execReplayDone s) rfl h
  | .restartRecovery x0 x1 => svn_execRestartRecovery x0 x1 s h
  | .taskCommit x0 x1 => svn_execTaskCommit x0 x1 s h
  | .taskCancel x0 x1 => svn_execTaskCancel x0 x1 s h
  | .taskPromotion x0 => svn_execTaskPromotion x0 s h
  | .microwordIssue x0 => SvnIs.via (frame_execMicrowordIssue x0 s) rfl h
  | .seqNext x0 => SvnIs.via (frame_execSeqNext x0 s) rfl h
  | .seqJump x0 => SvnIs.via (frame_execSeqJump x0 s) rfl h
  | .seqCall x0 => SvnIs.via (frame_execSeqCall x0 s) rfl h
  | .seqRet x0 => SvnIs.via (frame_execSeqRet x0 s) rfl h
  | .seqBrt x0 => SvnIs.via (frame_execSeqBrt x0 s) rfl h
  | .seqBrf x0 => SvnIs.via (frame_execSeqBrf x0 s) rfl h
  | .seqDispatch x0 => SvnIs.via (frame_execSeqDispatch x0 s) rfl h
  | .seqLoop x0 => SvnIs.via (frame_execSeqLoop x0 s) rfl h
  | .faultRequest x0 x1 => SvnIs.via (frame_execFaultRequest x0 x1 s) rfl h
  | .waitTimeout x0 => SvnIs.via (frame_execWaitTimeout x0 s) rfl h
  | .atomicBound x0 => SvnIs.via (frame_execAtomicBound x0 s) rfl h
  | .asqAbort x0 x1 x2 => svn_execAsqAbort x0 x1 x2 s h
  | .taskDeadline x0 => SvnIs.via (frame_execTaskDeadline x0 s) rfl h
  | .resultPop x0 x1 x2 => SvnIs.via (frame_execResultPop x0 x1 x2 s) rfl h
  | .microcodeActivate x0 => svn_execMicrocodeActivate x0 s h
  | .arm x0 x1 => SvnIs.via (frame_execArm x0 x1 s) rfl h
  | .activationCopy => svn_execActivationCopy s h
  | .activationAbandon => SvnIs.via (frame_execActivationAbandon s) rfl h
  | .openctlWrite x0 x1 => SvnIs.via (frame_execOpenctlWrite x0 x1 s) rfl h
  | .readerCheck x0 x1 x2 x3 x4 => SvnIs.via (frame_execReaderCheck x0 x1 x2 x3 x4 s) rfl h
  | .clockField x0 x1 => SvnIs.via (frame_execClockField x0 x1 s) rfl h
  | .syncADecision x0 x1 => SvnIs.via (frame_execSyncADecision x0 x1 s) rfl h
  | .syncBDecision x0 x1 => SvnIs.via (frame_execSyncBDecision x0 x1 s) rfl h
  | .blindFraming x0 x1 => SvnIs.via (frame_execBlindFraming x0 x1 s) rfl h
  | .defectSpan x0 x1 x2 => SvnIs.via (frame_execDefectSpan x0 x1 x2 s) rfl h
  | .loopLimit x0 x1 => SvnIs.via (frame_execLoopLimit x0 x1 s) rfl h
  | .pmonSnap x0 => SvnIs.via (frame_execPmonSnap x0 s) rfl h
  | .pmonClr x0 => SvnIs.via (frame_execPmonClr x0 s) rfl h
  | .codewordDecode x0 x1 => SvnIs.via (frame_execCodewordDecode x0 x1 s) rfl h
  | .squeezeRedecode x0 => SvnIs.via (frame_execSqueezeRedecode x0 s) rfl h
  | .clusterDecode x0 x1 x2 x3 => SvnIs.via (frame_execClusterDecode x0 x1 x2 x3 s) rfl h
  | .retainedSlotFree x0 x1 => SvnIs.via (frame_execRetainedSlotFree x0 x1 s) rfl h
  | .failurePop x0 x1 x2 => SvnIs.via (frame_execFailurePop x0 x1 x2 s) rfl h
  | .defectInsert x0 x1 => SvnIs.via (frame_execDefectInsert x0 x1 s) rfl h
  | .defectDelete x0 x1 => SvnIs.via (frame_execDefectDelete x0 x1 s) rfl h
  | .defectClearPending x0 x1 => SvnIs.via (frame_execDefectClearPending x0 x1 s) rfl h
  | .defectInsertRelease => SvnIs.via (frame_execDefectInsertRelease s) rfl h
  | .sampleTrigger x0 x1 => SvnIs.via (frame_execSampleTrigger x0 x1 s) rfl h
  | .syncTimeout x0 x1 => SvnIs.via (frame_execSyncTimeout x0 x1 s) rfl h
  | .tableSwapGo x0 x1 => SvnIs.via (frame_execTableSwapGo x0 x1 s) rfl h
  | .tableSwap x0 => SvnIs.via (frame_execTableSwap x0 s) rfl h
  | .mailCommit x0 x1 => SvnIs.via (frame_execMailCommit x0 x1 s) rfl h
  | .engineRun x0 x1 x2 => SvnIs.via (frame_execEngineRun x0 x1 x2 s) rfl h
  | .seekTimeout x0 => SvnIs.via (frame_execSeekTimeout x0 s) rfl h
  | .shockConversion x0 x1 x2 => SvnIs.via (frame_execShockConversion x0 x1 x2 s) rfl h
  | .shockSensorFault x0 x1 => SvnIs.via (frame_execShockSensorFault x0 x1 s) rfl h
  | .cdaShort x0 x1 => SvnIs.via (frame_execCdaShort x0 x1 s) rfl h
  | .retractGo x0 x1 => SvnIs.via (frame_execRetractGo x0 x1 s) rfl h
  | .retractEnd x0 => svn_execRetractEnd x0 s h
  | .focusLost x0 => SvnIs.via (frame_execFocusLost x0 s) rfl h
  | .jumpGo x0 x1 x2 => SvnIs.via (frame_execJumpGo x0 x1 x2 s) rfl h
  | .focusSweepGo x0 x1 x2 => SvnIs.via (frame_execFocusSweepGo x0 x1 x2 s) rfl h
  | .traceStart x0 x1 x2 => SvnIs.via (frame_execTraceStart x0 x1 x2 s) rfl h
  | .traceStop x0 x1 x2 => SvnIs.via (frame_execTraceStop x0 x1 x2 s) rfl h
  | .traceRead x0 x1 => SvnIs.via (frame_execTraceRead x0 x1 s) rfl h
  | .start x0 => SvnIs.via (frame_execStart x0 s) rfl h
  | .brake x0 => SvnIs.via (frame_execBrake x0 s) rfl h
  | .brakeEntry => SvnIs.via (frame_execBrakeEntry s) rfl h
  | .coast x0 => SvnIs.via (frame_execCoast x0 s) rfl h
  | .clrf x0 => SvnIs.via (frame_execClrf x0 s) rfl h
  | .alignDone => SvnIs.via (frame_execAlignDone s) rfl h
  | .spinupAttemptTimeout => SvnIs.via (frame_execSpinupAttemptTimeout s) rfl h
  | .pwmCentre x0 x1 x2 x3 => SvnIs.via (frame_execPwmCentre x0 x1 x2 x3 s) rfl h
  | .bemfCrossing x0 x1 => SvnIs.via (frame_execBemfCrossing x0 x1 s) rfl h
  | .commutation x0 => SvnIs.via (frame_execCommutation x0 s) rfl h
  | .floatPeriodEnd x0 => SvnIs.via (frame_execFloatPeriodEnd x0 s) rfl h
  | .recoveryTimeout => SvnIs.via (frame_execRecoveryTimeout s) rfl h
  | .motorRailThreshold x0 => SvnIs.via (frame_execMotorRailThreshold x0 s) rfl h
  | .chopperFault x0 x1 => SvnIs.via (frame_execChopperFault x0 x1 s) rfl h
  | .chopperConducting x0 => SvnIs.via (frame_execChopperConducting x0 s) rfl h
  | .railOvervoltage x0 => SvnIs.via (frame_execRailOvervoltage x0 s) rfl h
  | .spnFltNLow => SvnIs.via (frame_execSpnFltNLow s) rfl h
  | .phaseOpen x0 => SvnIs.via (frame_execPhaseOpen x0 s) rfl h
  | .supplyReversed x0 => SvnIs.via (frame_execSupplyReversed x0 s) rfl h
  | .spindleStopped => SvnIs.via (frame_execSpindleStopped s) rfl h
  | .rectifyExit => SvnIs.via (frame_execRectifyExit s) rfl h
  | .preampFault x0 => SvnIs.via (frame_execPreampFault x0 s) rfl h
  | .psiFrameDone x0 x1 x2 => SvnIs.via (frame_execPsiFrameDone x0 x1 x2 s) rfl h
  | .psiFwcmdGo x0 x1 x2 => SvnIs.via (frame_execPsiFwcmdGo x0 x1 x2 s) rfl h
  | .laserMonitorRead x0 x1 x2 => SvnIs.via (frame_execLaserMonitorRead x0 x1 x2 s) rfl h
  | .lsrClrf x0 x1 => SvnIs.via (frame_execLsrClrf x0 x1 s) rfl h
  | .addressUnit x0 x1 x2 x3 => SvnIs.via (frame_execAddressUnit x0 x1 x2 x3 s) rfl h
  | .optFmtWrite x0 x1 => SvnIs.via (frame_execOptFmtWrite x0 x1 s) rfl h
  | .saDelayEnd x0 => SvnIs.via (frame_execSaDelayEnd x0 s) rfl h
  | .sledMoveEnd x0 => SvnIs.via (frame_execSledMoveEnd x0 s) rfl h
  | .ddrRead x0 x1 x2 => SvnIs.via (frame_execDdrRead x0 x1 x2 s) rfl h
  | .regattrPolicyWrite x0 x1 x2 => SvnIs.via (frame_execRegattrPolicyWrite x0 x1 x2 s) rfl h
  | .splitRead x0 => SvnIs.via (frame_execSplitRead x0 s) rfl h
  | .splitWrite x0 => SvnIs.via (frame_execSplitWrite x0 s) rfl h
  | .scrubRead x0 => SvnIs.via (frame_execScrubRead x0 s) rfl h
  | .softPpr x0 x1 => SvnIs.via (frame_execSoftPpr x0 x1 s) rfl h
  | .hardPpr x0 x1 => SvnIs.via (frame_execHardPpr x0 x1 s) rfl h
  | .rowLogClear x0 x1 => SvnIs.via (frame_execRowLogClear x0 x1 s) rfl h
  | .bccAccess x0 x1 x2 x3 x4 => SvnIs.via (frame_execBccAccess x0 x1 x2 x3 x4 s) rfl h
  | .ceWindowExpiry => SvnIs.via (frame_execCeWindowExpiry s) rfl h
  | .bccEnable x0 => SvnIs.via (frame_execBccEnable x0 s) rfl h
  | .bccDisable x0 => SvnIs.via (frame_execBccDisable x0 s) rfl h
  | .drainComplete => SvnIs.via (frame_execDrainComplete s) rfl h
  | .bccClean x0 => SvnIs.via (frame_execBccClean x0 s) rfl h
  | .bccInval x0 => SvnIs.via (frame_execBccInval x0 s) rfl h
  | .bccCleanInval x0 => SvnIs.via (frame_execBccCleanInval x0 s) rfl h
  | .bccZero x0 => SvnIs.via (frame_execBccZero x0 s) rfl h
  | .bccLock x0 => SvnIs.via (frame_execBccLock x0 s) rfl h
  | .bccUnlock x0 => SvnIs.via (frame_execBccUnlock x0 s) rfl h
  | .bccInvalAll x0 => SvnIs.via (frame_execBccInvalAll x0 s) rfl h
  | .rangeOpDone => SvnIs.via (frame_execRangeOpDone s) rfl h
  | .repairMapEntry x0 => svn_execRepairMapEntry x0 s h
  | .extend x0 x1 => svn_execExtend x0 x1 s h
  | .keyGenerate x0 x1 x2 => svn_execKeyGenerate x0 x1 x2 s h
  | .keyZero x0 => svn_execKeyZero x0 s h
  | .keyCheckpoint => svn_execKeyCheckpoint s h
  | .nsActive x0 x1 x2 => svn_execNsActive x0 x1 x2 s h
  | .svnCommit x0 => absurd rfl (k x0)
  | .takeOwnership x0 => svn_execTakeOwnership x0 s h
  | .addOwnerKey x0 x1 => svn_execAddOwnerKey x0 x1 s h
  | .revokeOwnerKey x0 x1 => svn_execRevokeOwnerKey x0 x1 s h
  | .ownerPolicy x0 x1 x2 x3 => svn_execOwnerPolicy x0 x1 x2 x3 s h
  | .exportKeys x0 x1 => svn_execExportKeys x0 x1 s h
  | .importKeys x0 x1 => svn_execImportKeys x0 x1 s h
  | .behaviourProfileUnlock x0 x1 => svn_execBehaviourProfileUnlock x0 x1 s h
  | .firmwareActivationMeasurement x0 => svn_execFirmwareActivationMeasurement x0 s h
  | .slotSelect x0 x1 => svn_execSlotSelect x0 x1 s h
  | .snuffLevel1 x0 => svn_execSnuffLevel1 x0 s h
  | .snuffLevel2 x0 => svn_execSnuffLevel2 x0 s h
  | .alarmFuseBlow => svn_execAlarmFuseBlow s h
  | .epochFuseBlow => svn_execEpochFuseBlow s h
  | .keyRestore => svn_execKeyRestore s h
  | .debugChallenge => svn_execDebugChallenge s h
  | .debugResponse x0 x1 x2 x3 => svn_execDebugResponse x0 x1 x2 x3 s h
  | .thmConversion x0 x1 => SvnIs.via (frame_execThmConversion x0 x1 s) rfl h
  | .shutdownDimEntry => SvnIs.via (frame_execShutdownDimEntry s) rfl h
  | .criticalDarkEntry => svn_execCriticalDarkEntry s h
  | .criticalWake x0 => svn_execCriticalWake x0 s h
  | .clrshut x0 => SvnIs.via (frame_execClrshut x0 s) rfl h
  | .clrexcl x0 => SvnIs.via (frame_execClrexcl x0 s) rfl h
  | .trimCompute x0 => SvnIs.via (frame_execTrimCompute x0 s) rfl h
  | .taperStep x0 => SvnIs.via (frame_execTaperStep x0 s) rfl h
  | .trimAge x0 => SvnIs.via (frame_execTrimAge x0 s) rfl h
  | .eventStore => SvnIs.via (frame_execEventStore s) rfl h
  | .eventRaiseSw x0 x1 => SvnIs.via (frame_execEventRaiseSw x0 x1 s) rfl h
  | .floodPeriod => SvnIs.via (frame_execFloodPeriod s) rfl h
  | .evrNextRead x0 => SvnIs.via (frame_execEvrNextRead x0 s) rfl h
  | .evrCursorWrite x0 x1 => SvnIs.via (frame_execEvrCursorWrite x0 x1 s) rfl h
  | .evrWindowAdvance x0 => SvnIs.via (frame_execEvrWindowAdvance x0 s) rfl h
  | .evrBaseWrite x0 x1 x2 => SvnIs.via (frame_execEvrBaseWrite x0 x1 x2 s) rfl h
  | .evrStore x0 => SvnIs.via (frame_execEvrStore x0 s) rfl h
  | .evrCommit x0 => SvnIs.via (frame_execEvrCommit x0 s) rfl h
  | .lifAdd x0 x1 => SvnIs.via (frame_execLifAdd x0 x1 s) rfl h
  | .lifSeal x0 => SvnIs.via (frame_execLifSeal x0 s) rfl h
  | .lifSnap x0 => SvnIs.via (frame_execLifSnap x0 s) rfl h
  | .lifTick => SvnIs.via (frame_execLifTick s) rfl h
  | .calRead x0 => SvnIs.via (frame_execCalRead x0 s) rfl h
  | .calSet x0 x1 => SvnIs.via (frame_execCalSet x0 x1 s) rfl h
  | .calAdjust x0 x1 => SvnIs.via (frame_execCalAdjust x0 x1 s) rfl h
  | .slewDone => SvnIs.via (frame_execSlewDone s) rfl h
  | .calAlarm => SvnIs.via (frame_execCalAlarm s) rfl h
  | .beaconSend => SvnIs.via (frame_execBeaconSend s) rfl h
  | .beaconReceive x0 x1 => SvnIs.via (frame_execBeaconReceive x0 x1 s) rfl h
  | .beaconMissed => SvnIs.via (frame_execBeaconMissed s) rfl h
  | .discoverSend => SvnIs.via (frame_execDiscoverSend s) rfl h
  | .discoverReceive x0 => SvnIs.via (frame_execDiscoverReceive x0 s) rfl h
  | .enrollReceive x0 x1 => SvnIs.via (frame_execEnrollReceive x0 x1 s) rfl h
  | .pollSend => SvnIs.via (frame_execPollSend s) rfl h
  | .pollReceive x0 => svn_execPollReceive x0 s h
  | .replyReceive x0 => SvnIs.via (frame_execReplyReceive x0 s) rfl h
  | .pollMissed => SvnIs.via (frame_execPollMissed s) rfl h
  | .imageReceive x0 x1 x2 x3 x4 => SvnIs.via (frame_execImageReceive x0 x1 x2 x3 x4 s) rfl h
  | .vlkWake x0 x1 x2 => svn_execVlkWake x0 x1 x2 s h
  | .leaseRenewalRequest => SvnIs.via (frame_execLeaseRenewalRequest s) rfl h
  | .leaseExpiry => SvnIs.via (frame_execLeaseExpiry s) rfl h
  | .quietPeriodEnd => SvnIs.via (frame_execQuietPeriodEnd s) rfl h
  | .orphanBackoffEnd => SvnIs.via (frame_execOrphanBackoffEnd s) rfl h
  | .orphanWindowEnd => SvnIs.via (frame_execOrphanWindowEnd s) rfl h
  | .segmentKeyRotation => SvnIs.via (frame_execSegmentKeyRotation s) rfl h
  | .vlkCmdWake x0 x1 => SvnIs.via (frame_execVlkCmdWake x0 x1 s) rfl h
  | .vlkCmdAttreq x0 x1 => SvnIs.via (frame_execVlkCmdAttreq x0 x1 s) rfl h
  | .vlkCmdRemove x0 x1 => SvnIs.via (frame_execVlkCmdRemove x0 x1 s) rfl h
  | .imageFanout x0 x1 => SvnIs.via (frame_execImageFanout x0 x1 s) rfl h
  | .linkOpen => SvnIs.via (frame_execLinkOpen s) rfl h
  | .linkShort x0 => SvnIs.via (frame_execLinkShort x0 s) rfl h
  | .linkRetry x0 => SvnIs.via (frame_execLinkRetry x0 s) rfl h
  | .headRetire x0 x1 x2 x3 => SvnIs.via (frame_execHeadRetire x0 x1 x2 x3 s) rfl h
  | .sectorStart x0 => SvnIs.via (frame_execSectorStart x0 s) rfl h
  | .sectorEnd x0 => SvnIs.via (frame_execSectorEnd x0 s) rfl h
  | .wedgeGap x0 x1 => SvnIs.via (frame_execWedgeGap x0 x1 s) rfl h
  | .defectSpanEnd x0 x1 x2 => SvnIs.via (frame_execDefectSpanEnd x0 x1 x2 s) rfl h
  | .wickCriticalLimit x0 => svn_execWickCriticalLimit x0 s h
  | .pprDone x0 => SvnIs.via (frame_execPprDone x0 s) rfl h
  | .segmentGrantExpiry x0 => SvnIs.via (frame_execSegmentGrantExpiry x0 s) rfl h
  | .fleetAuthorizationExpiry => SvnIs.via (frame_execFleetAuthorizationExpiry s) rfl h
  | .vddAux33Loss => svn_execVddAux33Loss s h

theorem RegsOnly.cast {l k : List (Reg × Nat × Nat)} {s t : State} (h : RegsOnly l s t) (e : l = k) : RegsOnly k s t := e ▸ h

/-- The registers of the register file that exec leaves alone. -/
theorem regs_exec (i : Instr) (s : State) :
    ∀ l, mayStore i = some l → RegsOnly l s (after s (exec i s)) :=
  match i with
  | .regWrite x0 x1 x2 => fun _ e => nomatch e
  | .busAccess x0 x1 x2 x3 x4 => fun _ e => nomatch e
  | .guardWordWrite x0 x1 x2 => fun l e => (RegsOnly.refl.via (frame_execGuardWordWrite x0 x1 x2 s) rfl).cast (Option.some.inj e)
  | .guardWindowExhausted x0 => fun l e => (RegsOnly.refl.via (frame_execGuardWindowExhausted x0 s) rfl).cast (Option.some.inj e)
  | .softReset x0 x1 => fun _ e => nomatch e
  | .softResetComplete x0 => fun l e => (RegsOnly.refl.via (frame_execSoftResetComplete x0 s) rfl).cast (Option.some.inj e)
  | .freeze x0 x1 x2 => fun l e => (RegsOnly.refl.via (frame_execFreeze x0 x1 x2 s) rfl).cast (Option.some.inj e)
  | .errClear x0 x1 => fun l e => (RegsOnly.refl.via (frame_execErrClear x0 x1 s) rfl).cast (Option.some.inj e)
  | .irqSetWrite x0 x1 x2 => fun l e => (RegsOnly.refl.via (frame_execIrqSetWrite x0 x1 x2 s) rfl).cast (Option.some.inj e)
  | .allcln x0 x1 x2 => fun l e => (RegsOnly.refl.via (frame_execAllcln x0 x1 x2 s) rfl).cast (Option.some.inj e)
  | .l1Clean x0 x1 => fun l e => (RegsOnly.refl.via (frame_execL1Clean x0 x1 s) rfl).cast (Option.some.inj e)
  | .l1Invalidate x0 x1 => fun l e => (RegsOnly.refl.via (frame_execL1Invalidate x0 x1 s) rfl).cast (Option.some.inj e)
  | .l1CleanAndInvalidate x0 x1 => fun l e => (RegsOnly.refl.via (frame_execL1CleanAndInvalidate x0 x1 s) rfl).cast (Option.some.inj e)
  | .l1NoOperation x0 x1 => fun l e => (RegsOnly.refl.via (frame_execL1NoOperation x0 x1 s) rfl).cast (Option.some.inj e)
  | .irqTake x0 => fun l e => (RegsOnly.refl.via (frame_execIrqTake x0 s) rfl).cast (Option.some.inj e)
  | .uirqdone x0 x1 => fun l e => (RegsOnly.refl.via (frame_execUirqdone x0 x1 s) rfl).cast (Option.some.inj e)
  | .irqRouteWrite x0 x1 x2 => fun l e => (regs_execIrqRouteWrite x0 x1 x2 s).cast (Option.some.inj e)
  | .irqSwset x0 x1 => fun l e => (RegsOnly.refl.via (frame_execIrqSwset x0 x1 s) rfl).cast (Option.some.inj e)
  | .twinDataAccess x0 x1 x2 x3 => fun l e => (regs_execTwinDataAccess x0 x1 x2 x3 s).cast (Option.some.inj e)
  | .por => fun _ e => nomatch e
  | .xo32kQualified => fun l e => (RegsOnly.refl.via (frame_execXo32kQualified s) rfl).cast (Option.some.inj e)
  | .xo32kFail => fun l e => (regs_execXo32kFail s).cast (Option.some.inj e)
  | .xo40Fail => fun l e => (regs_execXo40Fail s).cast (Option.some.inj e)
  | .mainRailsGood x0 x1 => fun l e => (regs_execMainRailsGood x0 x1 s).cast (Option.some.inj e)
  | .railFault x0 => fun _ e => nomatch e
  | .uartRecoveryImage x0 => fun l e => (regs_execUartRecoveryImage x0 s).cast (Option.some.inj e)
  | .perstDeassert x0 => fun l e => (RegsOnly.refl.via (frame_execPerstDeassert x0 s) rfl).cast (Option.some.inj e)
  | .perstAssert x0 => fun l e => (RegsOnly.refl.via (frame_execPerstAssert x0 s) rfl).cast (Option.some.inj e)
  | .configRequest x0 x1 => fun l e => (RegsOnly.refl.via (frame_execConfigRequest x0 x1 s) rfl).cast (Option.some.inj e)
  | .dmcInitGo x0 => fun l e => (RegsOnly.refl.via (frame_execDmcInitGo x0 s) rfl).cast (Option.some.inj e)
  | .dmcInitDone x0 => fun l e => (RegsOnly.refl.via (frame_execDmcInitDone x0 s) rfl).cast (Option.some.inj e)
  | .dmcInitHeldAccess x0 => fun l e => (RegsOnly.refl.via (frame_execDmcInitHeldAccess x0 s) rfl).cast (Option.some.inj e)
  | .readySet x0 x1 => fun l e => (RegsOnly.refl.via (frame_execReadySet x0 x1 s) rfl).cast (Option.some.inj e)
  | .readyClr x0 => fun l e => (RegsOnly.refl.via (frame_execReadyClr x0 s) rfl).cast (Option.some.inj e)
  | .controllerEnable x0 x1 => fun l e => (RegsOnly.refl.via (frame_execControllerEnable x0 x1 s) rfl).cast (Option.some.inj e)
  | .controllerReset x0 => fun l e => (RegsOnly.refl.via (frame_execControllerReset x0 s) rfl).cast (Option.some.inj e)
  | .functionLevelReset x0 => fun l e => (RegsOnly.refl.via (frame_execFunctionLevelReset x0 s) rfl).cast (Option.some.inj e)
  | .linkDown x0 => fun l e => (RegsOnly.refl.via (frame_execLinkDown x0 s) rfl).cast (Option.some.inj e)
  | .namespaceReady x0 => fun l e => (RegsOnly.refl.via (frame_execNamespaceReady x0 s) rfl).cast (Option.some.inj e)
  | .resetNAssert => fun l e => (RegsOnly.refl.via (frame_execResetNAssert s) rfl).cast (Option.some.inj e)
  | .coreDomainHold x0 => fun _ e => nomatch e
  | .resetNRelease x0 => fun l e => (regs_execResetNRelease x0 s).cast (Option.some.inj e)
  | .nvmSubsystemReset x0 x1 => fun l e => (RegsOnly.refl.via (frame_execNvmSubsystemReset x0 x1 s) rfl).cast (Option.some.inj e)
  | .watchdogEnable x0 x1 => fun l e => (regs_execWatchdogEnable x0 x1 s).cast (Option.some.inj e)
  | .watchdogKick x0 x1 => fun l e => (RegsOnly.refl.via (frame_execWatchdogKick x0 x1 s) rfl).cast (Option.some.inj e)
  | .watchdogPeriod => fun l e => (regs_execWatchdogPeriod s).cast (Option.some.inj e)
  | .watchdogReset => fun _ e => nomatch e
  | .powerLoss => fun _ e => nomatch e
  | .preqGo x0 x1 => fun l e => (regs_execPreqGo x0 x1 s).cast (Option.some.inj e)
  | .powerStateEntered => fun _ e => nomatch e
  | .pdoffWrite x0 x1 => fun l e => (regs_execPdoffWrite x0 x1 s).cast (Option.some.inj e)
  | .wakeSource x0 x1 x2 => fun l e => (regs_execWakeSource x0 x1 x2 s).cast (Option.some.inj e)
  | .clkDomWrite x0 x1 x2 => fun l e => (regs_execClkDomWrite x0 x1 x2 s).cast (Option.some.inj e)
  | .pllLocked x0 => fun l e => (RegsOnly.refl.via (frame_execPllLocked x0 s) rfl).cast (Option.some.inj e)
  | .pllLockLoss x0 => fun l e => (regs_execPllLockLoss x0 s).cast (Option.some.inj e)
  | .psEntryRestart => fun l e => (regs_execPsEntryRestart s).cast (Option.some.inj e)
  | .leaveRequest x0 x1 x2 => fun l e => (regs_execLeaveRequest x0 x1 x2 s).cast (Option.some.inj e)
  | .leaveRelease x0 x1 x2 => fun l e => (RegsOnly.refl.via (frame_execLeaveRelease x0 x1 x2 s) rfl).cast (Option.some.inj e)
  | .leaveRenew x0 x1 x2 => fun l e => (RegsOnly.refl.via (frame_execLeaveRenew x0 x1 x2 s) rfl).cast (Option.some.inj e)
  | .leaveExpiry x0 => fun l e => (regs_execLeaveExpiry x0 s).cast (Option.some.inj e)
  | .drawAfterExpiry x0 => fun l e => (regs_execDrawAfterExpiry x0 s).cast (Option.some.inj e)
  | .leaveDeadline x0 => fun l e => (regs_execLeaveDeadline x0 s).cast (Option.some.inj e)
  | .thermalCeilingStep => fun l e => (regs_execThermalCeilingStep s).cast (Option.some.inj e)
  | .sqTailDoorbell x0 x1 x2 x3 => fun l e => (RegsOnly.refl.via (frame_execSqTailDoorbell x0 x1 x2 x3 s) rfl).cast (Option.some.inj e)
  | .cqHeadDoorbell x0 x1 x2 => fun l e => (RegsOnly.refl.via (frame_execCqHeadDoorbell x0 x1 x2 s) rfl).cast (Option.some.inj e)
  | .commandFetch x0 => fun l e => (RegsOnly.refl.via (frame_execCommandFetch x0 s) rfl).cast (Option.some.inj e)
  | .fetchPauseEnd => fun l e => (RegsOnly.refl.via (frame_execFetchPauseEnd s) rfl).cast (Option.some.inj e)
  | .writeTransferStart x0 => fun l e => (RegsOnly.refl.via (frame_execWriteTransferStart x0 s) rfl).cast (Option.some.inj e)
  | .dataTransferComplete x0 => fun l e => (RegsOnly.refl.via (frame_execDataTransferComplete x0 s) rfl).cast (Option.some.inj e)
  | .hostMemoryError x0 => fun l e => (RegsOnly.refl.via (frame_execHostMemoryError x0 s) rfl).cast (Option.some.inj e)
  | .completionPost x0 => fun l e => (RegsOnly.refl.via (frame_execCompletionPost x0 s) rfl).cast (Option.some.inj e)
  | .interruptCoalescingTimeout x0 x1 => fun l e => (RegsOnly.refl.via (frame_execInterruptCoalescingTimeout x0 x1 s) rfl).cast (Option.some.inj e)
  | .recoveryTimeLimitExpiry x0 => fun l e => (regs_execRecoveryTimeLimitExpiry x0 s).cast (Option.some.inj e)
  | .abortMatch x0 x1 => fun l e => (regs_execAbortMatch x0 x1 s).cast (Option.some.inj e)
  | .read x0 x1 => fun l e => (RegsOnly.refl.via (frame_execRead x0 x1 s) rfl).cast (Option.some.inj e)
  | .write x0 => fun l e => (RegsOnly.refl.via (frame_execWrite x0 s) rfl).cast (Option.some.inj e)
  | .zoneAppend x0 => fun l e => (RegsOnly.refl.via (frame_execZoneAppend x0 s) rfl).cast (Option.some.inj e)
  | .flush x0 => fun l e => (RegsOnly.refl.via (frame_execFlush x0 s) rfl).cast (Option.some.inj e)
  | .compare x0 x1 => fun l e => (RegsOnly.refl.via (frame_execCompare x0 x1 s) rfl).cast (Option.some.inj e)
  | .writeUncorrectable x0 => fun l e => (RegsOnly.refl.via (frame_execWriteUncorrectable x0 s) rfl).cast (Option.some.inj e)
  | .writeZeroes x0 => fun l e => (RegsOnly.refl.via (frame_execWriteZeroes x0 s) rfl).cast (Option.some.inj e)
  | .verify x0 x1 => fun l e => (RegsOnly.refl.via (frame_execVerify x0 x1 s) rfl).cast (Option.some.inj e)
  | .datasetManagement x0 => fun l e => (RegsOnly.refl.via (frame_execDatasetManagement x0 s) rfl).cast (Option.some.inj e)
  | .reservationRegister x0 => fun l e => (RegsOnly.refl.via (frame_execReservationRegister x0 s) rfl).cast (Option.some.inj e)
  | .reservationReport x0 => fun l e => (RegsOnly.refl.via (frame_execReservationReport x0 s) rfl).cast (Option.some.inj e)
  | .reservationAcquire x0 => fun l e => (RegsOnly.refl.via (frame_execReservationAcquire x0 s) rfl).cast (Option.some.inj e)
  | .reservationRelease x0 => fun l e => (RegsOnly.refl.via (frame_execReservationRelease x0 s) rfl).cast (Option.some.inj e)
  | .zoneOpen x0 => fun l e => (RegsOnly.refl.via (frame_execZoneOpen x0 s) rfl).cast (Option.some.inj e)
  | .zoneClose x0 => fun l e => (RegsOnly.refl.via (frame_execZoneClose x0 s) rfl).cast (Option.some.inj e)
  | .zoneFinish x0 => fun l e => (RegsOnly.refl.via (frame_execZoneFinish x0 s) rfl).cast (Option.some.inj e)
  | .zoneReset x0 => fun l e => (RegsOnly.refl.via (frame_execZoneReset x0 s) rfl).cast (Option.some.inj e)
  | .zoneOffline x0 => fun l e => (RegsOnly.refl.via (frame_execZoneOffline x0 s) rfl).cast (Option.some.inj e)
  | .reportZones x0 => fun l e => (RegsOnly.refl.via (frame_execReportZones x0 s) rfl).cast (Option.some.inj e)
  | .createIoSq x0 => fun l e => (RegsOnly.refl.via (frame_execCreateIoSq x0 s) rfl).cast (Option.some.inj e)
  | .createIoCq x0 => fun l e => (RegsOnly.refl.via (frame_execCreateIoCq x0 s) rfl).cast (Option.some.inj e)
  | .deleteIoSq x0 => fun l e => (RegsOnly.refl.via (frame_execDeleteIoSq x0 s) rfl).cast (Option.some.inj e)
  | .deleteIoCq x0 => fun l e => (RegsOnly.refl.via (frame_execDeleteIoCq x0 s) rfl).cast (Option.some.inj e)
  | .identify x0 => fun l e => (RegsOnly.refl.via (frame_execIdentify x0 s) rfl).cast (Option.some.inj e)
  | .getLogPage x0 => fun l e => (RegsOnly.refl.via (frame_execGetLogPage x0 s) rfl).cast (Option.some.inj e)
  | .logGuaranteeExceptions x0 => fun l e => (RegsOnly.refl.via (frame_execLogGuaranteeExceptions x0 s) rfl).cast (Option.some.inj e)
  | .logEventRecorder x0 => fun l e => (RegsOnly.refl.via (frame_execLogEventRecorder x0 s) rfl).cast (Option.some.inj e)
  | .logLifetimeCounters x0 => fun l e => (RegsOnly.refl.via (frame_execLogLifetimeCounters x0 s) rfl).cast (Option.some.inj e)
  | .logActuatorHeadHealth x0 => fun l e => (RegsOnly.refl.via (frame_execLogActuatorHeadHealth x0 s) rfl).cast (Option.some.inj e)
  | .logLeasesPower x0 => fun l e => (RegsOnly.refl.via (frame_execLogLeasesPower x0 s) rfl).cast (Option.some.inj e)
  | .logAttestationMeasurements x0 => fun l e => (RegsOnly.refl.via (frame_execLogAttestationMeasurements x0 s) rfl).cast (Option.some.inj e)
  | .setFeatures x0 => fun l e => (RegsOnly.refl.via (frame_execSetFeatures x0 s) rfl).cast (Option.some.inj e)
  | .getFeatures x0 => fun l e => (RegsOnly.refl.via (frame_execGetFeatures x0 s) rfl).cast (Option.some.inj e)
  | .setFeaturesPowerManagement x0 => fun l e => (RegsOnly.refl.via (frame_execSetFeaturesPowerManagement x0 s) rfl).cast (Option.some.inj e)
  | .setFeaturesTimestamp x0 => fun l e => (regs_execSetFeaturesTimestamp x0 s).cast (Option.some.inj e)
  | .getFeaturesTimestamp x0 => fun l e => (RegsOnly.refl.via (frame_execGetFeaturesTimestamp x0 s) rfl).cast (Option.some.inj e)
  | .setFeaturesVolatileWriteCache x0 => fun l e => (RegsOnly.refl.via (frame_execSetFeaturesVolatileWriteCache x0 s) rfl).cast (Option.some.inj e)
  | .setFeaturesInterruptCoalescing x0 => fun l e => (RegsOnly.refl.via (frame_execSetFeaturesInterruptCoalescing x0 s) rfl).cast (Option.some.inj e)
  | .setFeaturesTemperatureThreshold x0 => fun l e => (regs_execSetFeaturesTemperatureThreshold x0 s).cast (Option.some.inj e)
  | .setFeaturesReadRecoveryLevel x0 => fun l e => (RegsOnly.refl.via (frame_execSetFeaturesReadRecoveryLevel x0 s) rfl).cast (Option.some.inj e)
  | .setFeaturesRecoveryTimeLimit x0 => fun l e => (RegsOnly.refl.via (frame_execSetFeaturesRecoveryTimeLimit x0 s) rfl).cast (Option.some.inj e)
  | .setFeaturesDirtyCap x0 => fun l e => (RegsOnly.refl.via (frame_execSetFeaturesDirtyCap x0 s) rfl).cast (Option.some.inj e)
  | .setFeaturesLeaseFloor x0 => fun l e => (regs_execSetFeaturesLeaseFloor x0 s).cast (Option.some.inj e)
  | .setFeaturesBehaviourProfile x0 => fun l e => (RegsOnly.refl.via (frame_execSetFeaturesBehaviourProfile x0 s) rfl).cast (Option.some.inj e)
  | .getFeaturesBehaviourProfile x0 => fun l e => (RegsOnly.refl.via (frame_execGetFeaturesBehaviourProfile x0 s) rfl).cast (Option.some.inj e)
  | .asynchronousEventRequest x0 => fun l e => (RegsOnly.refl.via (frame_execAsynchronousEventRequest x0 s) rfl).cast (Option.some.inj e)
  | .abort x0 => fun l e => (RegsOnly.refl.via (frame_execAbort x0 s) rfl).cast (Option.some.inj e)
  | .keepAlive x0 => fun l e => (RegsOnly.refl.via (frame_execKeepAlive x0 s) rfl).cast (Option.some.inj e)
  | .namespaceManagement x0 => fun l e => (regs_execNamespaceManagement x0 s).cast (Option.some.inj e)
  | .namespaceAttachment x0 => fun l e => (RegsOnly.refl.via (frame_execNamespaceAttachment x0 s) rfl).cast (Option.some.inj e)
  | .firmwareImageDownload x0 => fun l e => (RegsOnly.refl.via (frame_execFirmwareImageDownload x0 s) rfl).cast (Option.some.inj e)
  | .firmwareCommit x0 x1 => fun l e => (RegsOnly.refl.via (frame_execFirmwareCommit x0 x1 s) rfl).cast (Option.some.inj e)
  | .firmwareActivation x0 x1 => fun l e => (RegsOnly.refl.via (frame_execFirmwareActivation x0 x1 s) rfl).cast (Option.some.inj e)
  | .activationPauseTimeout => fun l e => (regs_execActivationPauseTimeout s).cast (Option.some.inj e)
  | .formatNvm x0 => fun l e => (RegsOnly.refl.via (frame_execFormatNvm x0 s) rfl).cast (Option.some.inj e)
  | .sanitizeOverwrite x0 => fun l e => (RegsOnly.refl.via (frame_execSanitizeOverwrite x0 s) rfl).cast (Option.some.inj e)
  | .sanitizeCryptoErase x0 => fun l e => (RegsOnly.refl.via (frame_execSanitizeCryptoErase x0 s) rfl).cast (Option.some.inj e)
  | .sanitizeBandDone => fun l e => (RegsOnly.refl.via (frame_execSanitizeBandDone s) rfl).cast (Option.some.inj e)
  | .securitySend x0 => fun l e => (RegsOnly.refl.via (frame_execSecuritySend x0 s) rfl).cast (Option.some.inj e)
  | .securityReceive x0 => fun l e => (RegsOnly.refl.via (frame_execSecurityReceive x0 s) rfl).cast (Option.some.inj e)
  | .attestationNonce x0 => fun l e => (RegsOnly.refl.via (frame_execAttestationNonce x0 s) rfl).cast (Option.some.inj e)
  | .attestationReportSigned => fun l e => (RegsOnly.refl.via (frame_execAttestationReportSigned s) rfl).cast (Option.some.inj e)
  | .attestationReportReceive x0 => fun l e => (RegsOnly.refl.via (frame_execAttestationReportReceive x0 s) rfl).cast (Option.some.inj e)
  | .credential x0 => fun l e => (RegsOnly.refl.via (frame_execCredential x0 s) rfl).cast (Option.some.inj e)
  | .deviceSelfTest x0 => fun l e => (RegsOnly.refl.via (frame_execDeviceSelfTest x0 s) rfl).cast (Option.some.inj e)
  | .nvmeMiSend x0 => fun l e => (RegsOnly.refl.via (frame_execNvmeMiSend x0 s) rfl).cast (Option.some.inj e)
  | .nvmeMiReceive x0 => fun l e => (RegsOnly.refl.via (frame_execNvmeMiReceive x0 s) rfl).cast (Option.some.inj e)
  | .readNvmeMiDataStructure x0 x1 => fun l e => (RegsOnly.refl.via (frame_execReadNvmeMiDataStructure x0 x1 s) rfl).cast (Option.some.inj e)
  | .nvmSubsystemHealthStatusPoll => fun l e => (RegsOnly.refl.via (frame_execNvmSubsystemHealthStatusPoll s) rfl).cast (Option.some.inj e)
  | .controllerHealthStatusPoll x0 => fun l e => (RegsOnly.refl.via (frame_execControllerHealthStatusPoll x0 s) rfl).cast (Option.some.inj e)
  | .configurationGet x0 => fun l e => (RegsOnly.refl.via (frame_execConfigurationGet x0 s) rfl).cast (Option.some.inj e)
  | .configurationSet x0 x1 => fun l e => (RegsOnly.refl.via (frame_execConfigurationSet x0 x1 s) rfl).cast (Option.some.inj e)
  | .vpdRead x0 x1 => fun l e => (RegsOnly.refl.via (frame_execVpdRead x0 x1 s) rfl).cast (Option.some.inj e)
  | .vpdWrite x0 x1 => fun l e => (RegsOnly.refl.via (frame_execVpdWrite x0 x1 s) rfl).cast (Option.some.inj e)
  | .miReset => fun l e => (RegsOnly.refl.via (frame_execMiReset s) rfl).cast (Option.some.inj e)
  | .basicManagementCommand => fun l e => (RegsOnly.refl.via (frame_execBasicManagementCommand s) rfl).cast (Option.some.inj e)
  | .nsdomWrite x0 x1 x2 => fun l e => (regs_execNsdomWrite x0 x1 x2 s).cast (Option.some.inj e)
  | .lgrWinGo x0 x1 => fun l e => (regs_execLgrWinGo x0 x1 s).cast (Option.some.inj e)
  | .journalBlockDurable x0 => fun l e => (RegsOnly.refl.via (frame_execJournalBlockDurable x0 s) rfl).cast (Option.some.inj e)
  | .checkpoint => fun l e => (RegsOnly.refl.via (frame_execCheckpoint s) rfl).cast (Option.some.inj e)
  | .migrationStart x0 x1 x2 x3 => fun l e => (RegsOnly.refl.via (frame_execMigrationStart x0 x1 x2 x3 s) rfl).cast (Option.some.inj e)
  | .migrationCopyVerified x0 x1 x2 => fun l e => (RegsOnly.refl.via (frame_execMigrationCopyVerified x0 x1 x2 s) rfl).cast (Option.some.inj e)
  | .migFree x0 x1 => fun l e => (RegsOnly.refl.via (frame_execMigFree x0 x1 s) rfl).cast (Option.some.inj e)
  | .reservoirCommit x0 => fun l e => (RegsOnly.refl.via (frame_execReservoirCommit x0 s) rfl).cast (Option.some.inj e)
  | .ledgerFreeze => fun l e => (RegsOnly.refl.via (frame_execLedgerFreeze s) rfl).cast (Option.some.inj e)
  | .commitRecordDurable => fun _ e => nomatch e
  | .reservoirReplay x0 => fun l e => (RegsOnly.refl.via (frame_execReservoirReplay x0 s) rfl).cast (Option.some.inj e)
  | .replayDone => fun l e => (RegsOnly.refl.via (frame_execReplayDone s) rfl).cast (Option.some.inj e)
  | .restartRecovery x0 x1 => fun l e => (RegsOnly.refl.via (frame_execRestartRecovery x0 x1 s) rfl).cast (Option.some.inj e)
  | .taskCommit x0 x1 => fun l e => (RegsOnly.refl.via (frame_execTaskCommit x0 x1 s) rfl).cast (Option.some.inj e)
  | .taskCancel x0 x1 => fun l e => (RegsOnly.refl.via (frame_execTaskCancel x0 x1 s) rfl).cast (Option.some.inj e)
  | .taskPromotion x0 => fun l e => (RegsOnly.refl.via (frame_execTaskPromotion x0 s) rfl).cast (Option.some.inj e)
  | .microwordIssue x0 => fun l e => (RegsOnly.refl.via (frame_execMicrowordIssue x0 s) rfl).cast (Option.some.inj e)
  | .seqNext x0 => fun l e => (regs_execSeqNext x0 s).cast (Option.some.inj e)
  | .seqJump x0 => fun l e => (regs_execSeqJump x0 s).cast (Option.some.inj e)
  | .seqCall x0 => fun l e => (regs_execSeqCall x0 s).cast (Option.some.inj e)
  | .seqRet x0 => fun l e => (regs_execSeqRet x0 s).cast (Option.some.inj e)
  | .seqBrt x0 => fun l e => (regs_execSeqBrt x0 s).cast (Option.some.inj e)
  | .seqBrf x0 => fun l e => (regs_execSeqBrf x0 s).cast (Option.some.inj e)
  | .seqDispatch x0 => fun l e => (regs_execSeqDispatch x0 s).cast (Option.some.inj e)
  | .seqLoop x0 => fun l e => (regs_execSeqLoop x0 s).cast (Option.some.inj e)
  | .faultRequest x0 x1 => fun l e => (RegsOnly.refl.via (frame_execFaultRequest x0 x1 s) rfl).cast (Option.some.inj e)
  | .waitTimeout x0 => fun l e => (regs_execWaitTimeout x0 s).cast (Option.some.inj e)
  | .atomicBound x0 => fun l e => (regs_execAtomicBound x0 s).cast (Option.some.inj e)
  | .asqAbort x0 x1 x2 => fun l e => (RegsOnly.refl.via (frame_execAsqAbort x0 x1 x2 s) rfl).cast (Option.some.inj e)
  | .taskDeadline x0 => fun l e => (regs_execTaskDeadline x0 s).cast (Option.some.inj e)
  | .resultPop x0 x1 x2 => fun l e => (RegsOnly.refl.via (frame_execResultPop x0 x1 x2 s) rfl).cast (Option.some.inj e)
  | .microcodeActivate x0 => fun l e => (regs_execMicrocodeActivate x0 s).cast (Option.some.inj e)
  | .arm x0 x1 => fun l e => (RegsOnly.refl.via (frame_execArm x0 x1 s) rfl).cast (Option.some.inj e)
  | .activationCopy => fun l e => (RegsOnly.refl.via (frame_execActivationCopy s) rfl).cast (Option.some.inj e)
  | .activationAbandon => fun l e => (regs_execActivationAbandon s).cast (Option.some.inj e)
  | .openctlWrite x0 x1 => fun l e => (RegsOnly.refl.via (frame_execOpenctlWrite x0 x1 s) rfl).cast (Option.some.inj e)
  | .readerCheck x0 x1 x2 x3 x4 => fun l e => (RegsOnly.refl.via (frame_execReaderCheck x0 x1 x2 x3 x4 s) rfl).cast (Option.some.inj e)
  | .clockField x0 x1 => fun l e => (RegsOnly.refl.via (frame_execClockField x0 x1 s) rfl).cast (Option.some.inj e)
  | .syncADecision x0 x1 => fun l e => (RegsOnly.refl.via (frame_execSyncADecision x0 x1 s) rfl).cast (Option.some.inj e)
  | .syncBDecision x0 x1 => fun l e => (RegsOnly.refl.via (frame_execSyncBDecision x0 x1 s) rfl).cast (Option.some.inj e)
  | .blindFraming x0 x1 => fun l e => (RegsOnly.refl.via (frame_execBlindFraming x0 x1 s) rfl).cast (Option.some.inj e)
  | .defectSpan x0 x1 x2 => fun l e => (RegsOnly.refl.via (frame_execDefectSpan x0 x1 x2 s) rfl).cast (Option.some.inj e)
  | .loopLimit x0 x1 => fun l e => (RegsOnly.refl.via (frame_execLoopLimit x0 x1 s) rfl).cast (Option.some.inj e)
  | .pmonSnap x0 => fun l e => (RegsOnly.refl.via (frame_execPmonSnap x0 s) rfl).cast (Option.some.inj e)
  | .pmonClr x0 => fun l e => (RegsOnly.refl.via (frame_execPmonClr x0 s) rfl).cast (Option.some.inj e)
  | .codewordDecode x0 x1 => fun l e => (RegsOnly.refl.via (frame_execCodewordDecode x0 x1 s) rfl).cast (Option.some.inj e)
  | .squeezeRedecode x0 => fun l e => (RegsOnly.refl.via (frame_execSqueezeRedecode x0 s) rfl).cast (Option.some.inj e)
  | .clusterDecode x0 x1 x2 x3 => fun l e => (RegsOnly.refl.via (frame_execClusterDecode x0 x1 x2 x3 s) rfl).cast (Option.some.inj e)
  | .retainedSlotFree x0 x1 => fun l e => (RegsOnly.refl.via (frame_execRetainedSlotFree x0 x1 s) rfl).cast (Option.some.inj e)
  | .failurePop x0 x1 x2 => fun l e => (RegsOnly.refl.via (frame_execFailurePop x0 x1 x2 s) rfl).cast (Option.some.inj e)
  | .defectInsert x0 x1 => fun l e => (RegsOnly.refl.via (frame_execDefectInsert x0 x1 s) rfl).cast (Option.some.inj e)
  | .defectDelete x0 x1 => fun l e => (RegsOnly.refl.via (frame_execDefectDelete x0 x1 s) rfl).cast (Option.some.inj e)
  | .defectClearPending x0 x1 => fun l e => (RegsOnly.refl.via (frame_execDefectClearPending x0 x1 s) rfl).cast (Option.some.inj e)
  | .defectInsertRelease => fun l e => (RegsOnly.refl.via (frame_execDefectInsertRelease s) rfl).cast (Option.some.inj e)
  | .sampleTrigger x0 x1 => fun l e => (RegsOnly.refl.via (frame_execSampleTrigger x0 x1 s) rfl).cast (Option.some.inj e)
  | .syncTimeout x0 x1 => fun l e => (RegsOnly.refl.via (frame_execSyncTimeout x0 x1 s) rfl).cast (Option.some.inj e)
  | .tableSwapGo x0 x1 => fun l e => (RegsOnly.refl.via (frame_execTableSwapGo x0 x1 s) rfl).cast (Option.some.inj e)
  | .tableSwap x0 => fun l e => (RegsOnly.refl.via (frame_execTableSwap x0 s) rfl).cast (Option.some.inj e)
  | .mailCommit x0 x1 => fun l e => (RegsOnly.refl.via (frame_execMailCommit x0 x1 s) rfl).cast (Option.some.inj e)
  | .engineRun x0 x1 x2 => fun l e => (regs_execEngineRun x0 x1 x2 s).cast (Option.some.inj e)
  | .seekTimeout x0 => fun l e => (regs_execSeekTimeout x0 s).cast (Option.some.inj e)
  | .shockConversion x0 x1 x2 => fun l e => (RegsOnly.refl.via (frame_execShockConversion x0 x1 x2 s) rfl).cast (Option.some.inj e)
  | .shockSensorFault x0 x1 => fun l e => (RegsOnly.refl.via (frame_execShockSensorFault x0 x1 s) rfl).cast (Option.some.inj e)
  | .cdaShort x0 x1 => fun l e => (RegsOnly.refl.via (frame_execCdaShort x0 x1 s) rfl).cast (Option.some.inj e)
  | .retractGo x0 x1 => fun l e => (RegsOnly.refl.via (frame_execRetractGo x0 x1 s) rfl).cast (Option.some.inj e)
  | .retractEnd x0 => fun _ e => nomatch e
  | .focusLost x0 => fun l e => (regs_execFocusLost x0 s).cast (Option.some.inj e)
  | .jumpGo x0 x1 x2 => fun l e => (regs_execJumpGo x0 x1 x2 s).cast (Option.some.inj e)
  | .focusSweepGo x0 x1 x2 => fun l e => (regs_execFocusSweepGo x0 x1 x2 s).cast (Option.some.inj e)
  | .traceStart x0 x1 x2 => fun l e => (regs_execTraceStart x0 x1 x2 s).cast (Option.some.inj e)
  | .traceStop x0 x1 x2 => fun l e => (regs_execTraceStop x0 x1 x2 s).cast (Option.some.inj e)
  | .traceRead x0 x1 => fun l e => (RegsOnly.refl.via (frame_execTraceRead x0 x1 s) rfl).cast (Option.some.inj e)
  | .start x0 => fun l e => (RegsOnly.refl.via (frame_execStart x0 s) rfl).cast (Option.some.inj e)
  | .brake x0 => fun l e => (RegsOnly.refl.via (frame_execBrake x0 s) rfl).cast (Option.some.inj e)
  | .brakeEntry => fun l e => (RegsOnly.refl.via (frame_execBrakeEntry s) rfl).cast (Option.some.inj e)
  | .coast x0 => fun l e => (RegsOnly.refl.via (frame_execCoast x0 s) rfl).cast (Option.some.inj e)
  | .clrf x0 => fun l e => (RegsOnly.refl.via (frame_execClrf x0 s) rfl).cast (Option.some.inj e)
  | .alignDone => fun l e => (RegsOnly.refl.via (frame_execAlignDone s) rfl).cast (Option.some.inj e)
  | .spinupAttemptTimeout => fun l e => (regs_execSpinupAttemptTimeout s).cast (Option.some.inj e)
  | .pwmCentre x0 x1 x2 x3 => fun l e => (RegsOnly.refl.via (frame_execPwmCentre x0 x1 x2 x3 s) rfl).cast (Option.some.inj e)
  | .bemfCrossing x0 x1 => fun l e => (regs_execBemfCrossing x0 x1 s).cast (Option.some.inj e)
  | .commutation x0 => fun l e => (RegsOnly.refl.via (frame_execCommutation x0 s) rfl).cast (Option.some.inj e)
  | .floatPeriodEnd x0 => fun l e => (RegsOnly.refl.via (frame_execFloatPeriodEnd x0 s) rfl).cast (Option.some.inj e)
  | .recoveryTimeout => fun l e => (regs_execRecoveryTimeout s).cast (Option.some.inj e)
  | .motorRailThreshold x0 => fun l e => (RegsOnly.refl.via (frame_execMotorRailThreshold x0 s) rfl).cast (Option.some.inj e)
  | .chopperFault x0 x1 => fun l e => (RegsOnly.refl.via (frame_execChopperFault x0 x1 s) rfl).cast (Option.some.inj e)
  | .chopperConducting x0 => fun l e => (RegsOnly.refl.via (frame_execChopperConducting x0 s) rfl).cast (Option.some.inj e)
  | .railOvervoltage x0 => fun l e => (RegsOnly.refl.via (frame_execRailOvervoltage x0 s) rfl).cast (Option.some.inj e)
  | .spnFltNLow => fun l e => (RegsOnly.refl.via (frame_execSpnFltNLow s) rfl).cast (Option.some.inj e)
  | .phaseOpen x0 => fun l e => (RegsOnly.refl.via (frame_execPhaseOpen x0 s) rfl).cast (Option.some.inj e)
  | .supplyReversed x0 => fun l e => (RegsOnly.refl.via (frame_execSupplyReversed x0 s) rfl).cast (Option.some.inj e)
  | .spindleStopped => fun l e => (RegsOnly.refl.via (frame_execSpindleStopped s) rfl).cast (Option.some.inj e)
  | .rectifyExit => fun l e => (RegsOnly.refl.via (frame_execRectifyExit s) rfl).cast (Option.some.inj e)
  | .preampFault x0 => fun l e => (RegsOnly.refl.via (frame_execPreampFault x0 s) rfl).cast (Option.some.inj e)
  | .psiFrameDone x0 x1 x2 => fun l e => (RegsOnly.refl.via (frame_execPsiFrameDone x0 x1 x2 s) rfl).cast (Option.some.inj e)
  | .psiFwcmdGo x0 x1 x2 => fun l e => (RegsOnly.refl.via (frame_execPsiFwcmdGo x0 x1 x2 s) rfl).cast (Option.some.inj e)
  | .laserMonitorRead x0 x1 x2 => fun l e => (regs_execLaserMonitorRead x0 x1 x2 s).cast (Option.some.inj e)
  | .lsrClrf x0 x1 => fun l e => (RegsOnly.refl.via (frame_execLsrClrf x0 x1 s) rfl).cast (Option.some.inj e)
  | .addressUnit x0 x1 x2 x3 => fun l e => (RegsOnly.refl.via (frame_execAddressUnit x0 x1 x2 x3 s) rfl).cast (Option.some.inj e)
  | .optFmtWrite x0 x1 => fun l e => (regs_execOptFmtWrite x0 x1 s).cast (Option.some.inj e)
  | .saDelayEnd x0 => fun l e => (regs_execSaDelayEnd x0 s).cast (Option.some.inj e)
  | .sledMoveEnd x0 => fun l e => (regs_execSledMoveEnd x0 s).cast (Option.some.inj e)
  | .ddrRead x0 x1 x2 => fun l e => (RegsOnly.refl.via (frame_execDdrRead x0 x1 x2 s) rfl).cast (Option.some.inj e)
  | .regattrPolicyWrite x0 x1 x2 => fun l e => (regs_execRegattrPolicyWrite x0 x1 x2 s).cast (Option.some.inj e)
  | .splitRead x0 => fun l e => (regs_execSplitRead x0 s).cast (Option.some.inj e)
  | .splitWrite x0 => fun l e => (regs_execSplitWrite x0 s).cast (Option.some.inj e)
  | .scrubRead x0 => fun l e => (RegsOnly.refl.via (frame_execScrubRead x0 s) rfl).cast (Option.some.inj e)
  | .softPpr x0 x1 => fun l e => (regs_execSoftPpr x0 x1 s).cast (Option.some.inj e)
  | .hardPpr x0 x1 => fun l e => (regs_execHardPpr x0 x1 s).cast (Option.some.inj e)
  | .rowLogClear x0 x1 => fun l e => (RegsOnly.refl.via (frame_execRowLogClear x0 x1 s) rfl).cast (Option.some.inj e)
  | .bccAccess x0 x1 x2 x3 x4 => fun l e => (RegsOnly.refl.via (frame_execBccAccess x0 x1 x2 x3 x4 s) rfl).cast (Option.some.inj e)
  | .ceWindowExpiry => fun l e => (RegsOnly.refl.via (frame_execCeWindowExpiry s) rfl).cast (Option.some.inj e)
  | .bccEnable x0 => fun l e => (RegsOnly.refl.via (frame_execBccEnable x0 s) rfl).cast (Option.some.inj e)
  | .bccDisable x0 => fun l e => (RegsOnly.refl.via (frame_execBccDisable x0 s) rfl).cast (Option.some.inj e)
  | .drainComplete => fun l e => (RegsOnly.refl.via (frame_execDrainComplete s) rfl).cast (Option.some.inj e)
  | .bccClean x0 => fun l e => (regs_execBccClean x0 s).cast (Option.some.inj e)
  | .bccInval x0 => fun l e => (regs_execBccInval x0 s).cast (Option.some.inj e)
  | .bccCleanInval x0 => fun l e => (regs_execBccCleanInval x0 s).cast (Option.some.inj e)
  | .bccZero x0 => fun l e => (regs_execBccZero x0 s).cast (Option.some.inj e)
  | .bccLock x0 => fun l e => (regs_execBccLock x0 s).cast (Option.some.inj e)
  | .bccUnlock x0 => fun l e => (regs_execBccUnlock x0 s).cast (Option.some.inj e)
  | .bccInvalAll x0 => fun l e => (regs_execBccInvalAll x0 s).cast (Option.some.inj e)
  | .rangeOpDone => fun l e => (RegsOnly.refl.via (frame_execRangeOpDone s) rfl).cast (Option.some.inj e)
  | .repairMapEntry x0 => fun l e => (regs_execRepairMapEntry x0 s).cast (Option.some.inj e)
  | .extend x0 x1 => fun l e => (regs_execExtend x0 x1 s).cast (Option.some.inj e)
  | .keyGenerate x0 x1 x2 => fun l e => (regs_execKeyGenerate x0 x1 x2 s).cast (Option.some.inj e)
  | .keyZero x0 => fun l e => (regs_execKeyZero x0 s).cast (Option.some.inj e)
  | .keyCheckpoint => fun l e => (regs_execKeyCheckpoint s).cast (Option.some.inj e)
  | .nsActive x0 x1 x2 => fun l e => (regs_execNsActive x0 x1 x2 s).cast (Option.some.inj e)
  | .svnCommit x0 => fun l e => (regs_execSvnCommit x0 s).cast (Option.some.inj e)
  | .takeOwnership x0 => fun l e => (regs_execTakeOwnership x0 s).cast (Option.some.inj e)
  | .addOwnerKey x0 x1 => fun l e => (regs_execAddOwnerKey x0 x1 s).cast (Option.some.inj e)
  | .revokeOwnerKey x0 x1 => fun l e => (regs_execRevokeOwnerKey x0 x1 s).cast (Option.some.inj e)
  | .ownerPolicy x0 x1 x2 x3 => fun l e => (regs_execOwnerPolicy x0 x1 x2 x3 s).cast (Option.some.inj e)
  | .exportKeys x0 x1 => fun l e => (regs_execExportKeys x0 x1 s).cast (Option.some.inj e)
  | .importKeys x0 x1 => fun l e => (regs_execImportKeys x0 x1 s).cast (Option.some.inj e)
  | .behaviourProfileUnlock x0 x1 => fun l e => (regs_execBehaviourProfileUnlock x0 x1 s).cast (Option.some.inj e)
  | .firmwareActivationMeasurement x0 => fun l e => (regs_execFirmwareActivationMeasurement x0 s).cast (Option.some.inj e)
  | .slotSelect x0 x1 => fun l e => (regs_execSlotSelect x0 x1 s).cast (Option.some.inj e)
  | .snuffLevel1 x0 => fun l e => (regs_execSnuffLevel1 x0 s).cast (Option.some.inj e)
  | .snuffLevel2 x0 => fun l e => (regs_execSnuffLevel2 x0 s).cast (Option.some.inj e)
  | .alarmFuseBlow => fun l e => (regs_execAlarmFuseBlow s).cast (Option.some.inj e)
  | .epochFuseBlow => fun l e => (RegsOnly.refl.via (frame_execEpochFuseBlow s) rfl).cast (Option.some.inj e)
  | .keyRestore => fun l e => (regs_execKeyRestore s).cast (Option.some.inj e)
  | .debugChallenge => fun l e => (RegsOnly.refl.via (frame_execDebugChallenge s) rfl).cast (Option.some.inj e)
  | .debugResponse x0 x1 x2 x3 => fun l e => (regs_execDebugResponse x0 x1 x2 x3 s).cast (Option.some.inj e)
  | .thmConversion x0 x1 => fun l e => (RegsOnly.refl.via (frame_execThmConversion x0 x1 s) rfl).cast (Option.some.inj e)
  | .shutdownDimEntry => fun l e => (RegsOnly.refl.via (frame_execShutdownDimEntry s) rfl).cast (Option.some.inj e)
  | .criticalDarkEntry => fun _ e => nomatch e
  | .criticalWake x0 => fun l e => (regs_execCriticalWake x0 s).cast (Option.some.inj e)
  | .clrshut x0 => fun l e => (RegsOnly.refl.via (frame_execClrshut x0 s) rfl).cast (Option.some.inj e)
  | .clrexcl x0 => fun l e => (RegsOnly.refl.via (frame_execClrexcl x0 s) rfl).cast (Option.some.inj e)
  | .trimCompute x0 => fun l e => (RegsOnly.refl.via (frame_execTrimCompute x0 s) rfl).cast (Option.some.inj e)
  | .taperStep x0 => fun l e => (regs_execTaperStep x0 s).cast (Option.some.inj e)
  | .trimAge x0 => fun l e => (regs_execTrimAge x0 s).cast (Option.some.inj e)
  | .eventStore => fun l e => (RegsOnly.refl.via (frame_execEventStore s) rfl).cast (Option.some.inj e)
  | .eventRaiseSw x0 x1 => fun l e => (regs_execEventRaiseSw x0 x1 s).cast (Option.some.inj e)
  | .floodPeriod => fun l e => (RegsOnly.refl.via (frame_execFloodPeriod s) rfl).cast (Option.some.inj e)
  | .evrNextRead x0 => fun l e => (RegsOnly.refl.via (frame_execEvrNextRead x0 s) rfl).cast (Option.some.inj e)
  | .evrCursorWrite x0 x1 => fun l e => (RegsOnly.refl.via (frame_execEvrCursorWrite x0 x1 s) rfl).cast (Option.some.inj e)
  | .evrWindowAdvance x0 => fun l e => (RegsOnly.refl.via (frame_execEvrWindowAdvance x0 s) rfl).cast (Option.some.inj e)
  | .evrBaseWrite x0 x1 x2 => fun l e => (RegsOnly.refl.via (frame_execEvrBaseWrite x0 x1 x2 s) rfl).cast (Option.some.inj e)
  | .evrStore x0 => fun l e => (RegsOnly.refl.via (frame_execEvrStore x0 s) rfl).cast (Option.some.inj e)
  | .evrCommit x0 => fun l e => (RegsOnly.refl.via (frame_execEvrCommit x0 s) rfl).cast (Option.some.inj e)
  | .lifAdd x0 x1 => fun l e => (RegsOnly.refl.via (frame_execLifAdd x0 x1 s) rfl).cast (Option.some.inj e)
  | .lifSeal x0 => fun l e => (RegsOnly.refl.via (frame_execLifSeal x0 s) rfl).cast (Option.some.inj e)
  | .lifSnap x0 => fun l e => (RegsOnly.refl.via (frame_execLifSnap x0 s) rfl).cast (Option.some.inj e)
  | .lifTick => fun l e => (RegsOnly.refl.via (frame_execLifTick s) rfl).cast (Option.some.inj e)
  | .calRead x0 => fun l e => (RegsOnly.refl.via (frame_execCalRead x0 s) rfl).cast (Option.some.inj e)
  | .calSet x0 x1 => fun l e => (regs_execCalSet x0 x1 s).cast (Option.some.inj e)
  | .calAdjust x0 x1 => fun l e => (regs_execCalAdjust x0 x1 s).cast (Option.some.inj e)
  | .slewDone => fun l e => (regs_execSlewDone s).cast (Option.some.inj e)
  | .calAlarm => fun l e => (regs_execCalAlarm s).cast (Option.some.inj e)
  | .beaconSend => fun l e => (regs_execBeaconSend s).cast (Option.some.inj e)
  | .beaconReceive x0 x1 => fun l e => (regs_execBeaconReceive x0 x1 s).cast (Option.some.inj e)
  | .beaconMissed => fun l e => (RegsOnly.refl.via (frame_execBeaconMissed s) rfl).cast (Option.some.inj e)
  | .discoverSend => fun l e => (RegsOnly.refl.via (frame_execDiscoverSend s) rfl).cast (Option.some.inj e)
  | .discoverReceive x0 => fun l e => (RegsOnly.refl.via (frame_execDiscoverReceive x0 s) rfl).cast (Option.some.inj e)
  | .enrollReceive x0 x1 => fun l e => (RegsOnly.refl.via (frame_execEnrollReceive x0 x1 s) rfl).cast (Option.some.inj e)
  | .pollSend => fun l e => (RegsOnly.refl.via (frame_execPollSend s) rfl).cast (Option.some.inj e)
  | .pollReceive x0 => fun l e => (RegsOnly.refl.via (frame_execPollReceive x0 s) rfl).cast (Option.some.inj e)
  | .replyReceive x0 => fun l e => (RegsOnly.refl.via (frame_execReplyReceive x0 s) rfl).cast (Option.some.inj e)
  | .pollMissed => fun l e => (RegsOnly.refl.via (frame_execPollMissed s) rfl).cast (Option.some.inj e)
  | .imageReceive x0 x1 x2 x3 x4 => fun l e => (RegsOnly.refl.via (frame_execImageReceive x0 x1 x2 x3 x4 s) rfl).cast (Option.some.inj e)
  | .vlkWake x0 x1 x2 => fun l e => (regs_execVlkWake x0 x1 x2 s).cast (Option.some.inj e)
  | .leaseRenewalRequest => fun l e => (regs_execLeaseRenewalRequest s).cast (Option.some.inj e)
  | .leaseExpiry => fun l e => (regs_execLeaseExpiry s).cast (Option.some.inj e)
  | .quietPeriodEnd => fun l e => (regs_execQuietPeriodEnd s).cast (Option.some.inj e)
  | .orphanBackoffEnd => fun l e => (regs_execOrphanBackoffEnd s).cast (Option.some.inj e)
  | .orphanWindowEnd => fun l e => (regs_execOrphanWindowEnd s).cast (Option.some.inj e)
  | .segmentKeyRotation => fun l e => (regs_execSegmentKeyRotation s).cast (Option.some.inj e)
  | .vlkCmdWake x0 x1 => fun l e => (RegsOnly.refl.via (frame_execVlkCmdWake x0 x1 s) rfl).cast (Option.some.inj e)
  | .vlkCmdAttreq x0 x1 => fun l e => (RegsOnly.refl.via (frame_execVlkCmdAttreq x0 x1 s) rfl).cast (Option.some.inj e)
  | .vlkCmdRemove x0 x1 => fun l e => (RegsOnly.refl.via (frame_execVlkCmdRemove x0 x1 s) rfl).cast (Option.some.inj e)
  | .imageFanout x0 x1 => fun l e => (regs_execImageFanout x0 x1 s).cast (Option.some.inj e)
  | .linkOpen => fun l e => (regs_execLinkOpen s).cast (Option.some.inj e)
  | .linkShort x0 => fun l e => (RegsOnly.refl.via (frame_execLinkShort x0 s) rfl).cast (Option.some.inj e)
  | .linkRetry x0 => fun l e => (regs_execLinkRetry x0 s).cast (Option.some.inj e)
  | .headRetire x0 x1 x2 x3 => fun l e => (RegsOnly.refl.via (frame_execHeadRetire x0 x1 x2 x3 s) rfl).cast (Option.some.inj e)
  | .sectorStart x0 => fun l e => (RegsOnly.refl.via (frame_execSectorStart x0 s) rfl).cast (Option.some.inj e)
  | .sectorEnd x0 => fun l e => (RegsOnly.refl.via (frame_execSectorEnd x0 s) rfl).cast (Option.some.inj e)
  | .wedgeGap x0 x1 => fun l e => (RegsOnly.refl.via (frame_execWedgeGap x0 x1 s) rfl).cast (Option.some.inj e)
  | .defectSpanEnd x0 x1 x2 => fun l e => (RegsOnly.refl.via (frame_execDefectSpanEnd x0 x1 x2 s) rfl).cast (Option.some.inj e)
  | .wickCriticalLimit x0 => fun _ e => nomatch e
  | .pprDone x0 => fun l e => (RegsOnly.refl.via (frame_execPprDone x0 s) rfl).cast (Option.some.inj e)
  | .segmentGrantExpiry x0 => fun l e => (regs_execSegmentGrantExpiry x0 s).cast (Option.some.inj e)
  | .fleetAuthorizationExpiry => fun l e => (regs_execFleetAuthorizationExpiry s).cast (Option.some.inj e)
  | .vddAux33Loss => fun _ e => nomatch e

end Sys2Proof.Machine
end

