-- ==== Sys2Proof/Laws/Rules.lean ====
section
/-!
SUPPORT. Where an access goes that a rule speaks of, what a refused one leaves, and what an idle step keeps.
-/

set_option Elab.async false
set_option linter.all false

namespace Sys2Proof.Machine

theorem holdsMib_iff (k mib : Nat) (s : State) : HoldsMib k mib s ↔ regionHolds k mib s = true := by
  unfold HoldsMib regionHolds
  simp only [Bool.and_eq_true, beq_iff_eq, decide_eq_true_eq, and_assoc]

section

variable {m : Master} {a n v : Nat} {wr : Bool} {s : State}

/-- The control store window. -/
theorem busOp_store (p : pdOn 2 s = true) (lo : 0x50000000 ≤ a) (hi : a + n ≤ 0x50100000) (hn : 1 ≤ n) :
    busOp m a wr n v s = storeWindow (a - 0x50000000) wr n s := by
  have e1 : within a n 0 0x40000 = false := within_false (by omega)
  have e2 : within a n 0x10000000 0x20000 = false := within_false (by omega)
  have e3 : within a n 0x20000000 0x800000 = false := within_false (by omega)
  have e4 : within a n 0x40000000 0x1000000 = false := within_false (by omega)
  have e5 : within a n 0x50000000 0x100000 = true := within_true (by omega)
  simp only [busOp, p, e1, e2, e3, e4, e5, Bool.not_true, if_true, if_false, Bool.false_eq_true]

/-- DDR5. -/
theorem busOp_ddr (p : pdOn 2 s = true) (lo : ddrBase ≤ a) (hi : a + n ≤ ddrBase + installedBytes s) (hn : 1 ≤ n) :
    busOp m a wr n v s = domMem 12 m a wr n v s := by
  have e1 : within a n 0 0x40000 = false := within_false (by simp only [ddrBase] at lo; omega)
  have e2 : within a n 0x10000000 0x20000 = false := within_false (by simp only [ddrBase] at lo; omega)
  have e3 : within a n 0x20000000 0x800000 = false := within_false (by simp only [ddrBase] at lo; omega)
  have e4 : within a n 0x40000000 0x1000000 = false := within_false (by simp only [ddrBase] at lo; omega)
  have e5 : within a n 0x50000000 0x100000 = false := within_false (by simp only [ddrBase] at lo; omega)
  have e6 : within a n 0x60000000 0x280000 = false := within_false (by simp only [ddrBase] at lo; omega)
  have e7 : within a n ddrBase (installedBytes s) = true := within_true ⟨lo, hi⟩
  simp only [busOp, p, e1, e2, e3, e4, e5, e6, e7, Bool.not_true, if_true, if_false, Bool.false_eq_true]

end

/-- A 32-bit word of a 128-bit word. -/
theorem wordBytes_low (x y : Nat) (j : Fin 4) :
    (x % 2 ^ 128 + y % 2 ^ 128 * 2 ^ (8 * 16)) / 2 ^ (32 * j.val) % 2 ^ (8 * 4) = x / 2 ^ (32 * j.val) % 2 ^ 32 := by
  generalize y % 2 ^ 128 = b
  obtain ⟨j, hj⟩ := j
  have h : j = 0 ∨ j = 1 ∨ j = 2 ∨ j = 3 := by omega
  rcases h with h | h | h | h <;> subst h <;> norm_num <;> omega

/-- With room in the ingest queue an event and its first parameter are recorded. -/
theorem ev_pushes {b : Blk} {code p0 p1 p2 : Nat} {s : State} (h : s.evr.queue.length < 238) :
    ∃ e ∈ (ev b code p0 p1 p2 s).evr.queue, e.code = code ∧ e.p0 = BitVec.ofNat 32 p0 := by
  unfold ev recordEvent
  obtain ⟨q, hq, e⟩ := queue_lifBumps (lifOf code p1) s
  have hl := lifOf_length code p1
  generalize (lifOf code p1).foldl (fun s i => lifBump i 1 s) s = u at *
  have : u.evr.queue.length < if isReserved code then 256 else 240 := by
    rw [e, List.length_append]; split <;> omega
  unfold enqueue
  rw [if_pos this]
  refine ⟨_, by simp only [State.modEvr, List.mem_append]; exact .inr (List.mem_singleton.mpr rfl), rfl, rfl⟩

theorem gated_mod (a : Nat) (s : State) : Gated a s (busZero (blockError .sys 0 0x0E20 (a % 2 ^ 32) s)) := by
  have key : ∀ h : Fin 77, (headerOf h (s.modHdr 0 (Hdr.error 0x0E20 (a % 2 ^ 32)))).sameButIrq
      (headerOf h (busZero (blockError .sys 0 0x0E20 (a % 2 ^ 32) s))) := fun h => headerOf_ev ..
  have k0 := key 0
  rw [show ((0 : Fin 77) : Nat) = 0 from rfl, headerOf_modHdr (by decide)] at k0
  refine ⟨rfl, rfl, ?_, ?_, ?_, ?_, ?_⟩
  · rw [k0]; rfl
  · intro e
    rw [k0]
    simp only [Hdr.error, e, Bool.false_eq_true, if_false]
    refine ⟨trivial, ?_⟩
    apply BitVec.eq_of_toNat_eq
    simp
  · intro h h0
    have k := key h
    rw [headerOf_modHdr_ne (i := 0) (fun e => h0 (Fin.ext e.symm))] at k
    rw [k]
  · intro h; exact recorded_blockError (Nat.lt_of_lt_of_le h (by decide))
  · have f : FrameB 0x180000010C s (busZero (blockError .sys 0 0x0E20 (a % 2 ^ 32) s)) :=
      frame_busZero _ (frame_blockError _ _ _ _ _ .refl rfl) rfl
    exact f.frame (by decide)

theorem gated_refuse (a : Nat) (s : State) (h : a < 2 ^ 32) : Gated a s (busZero (blockError .sys 0 0x0E20 a s)) := by
  have := gated_mod a s
  rwa [Nat.mod_eq_of_lt h] at this
end Sys2Proof.Machine
end

