-- ==== Sys2Proof/Laws/CompleteRules.lean ====
section
/-!
SUPPORT. What some rules of the manual say, case by case. One lemma for each part of a completion statement.
-/

set_option Elab.async false
set_option linter.all false

namespace Sys2Proof.Machine

theorem completes_blockIdentity :
    ∀ (m : Master) (h : Fin 77) (v : BitVec 64) (s : State) (b : Blk) (n : Nat), hdrBlk h = (b, n) → Reach b n s → Reach .sys 0 s →
    ∃ t u, exec (.busAccess m (BitVec.ofNat 40 (b.base n)) false 4 v) s = .next t ∧
    exec (.busAccess m (BitVec.ofNat 40 (Blk.sys.base 0)) false 4 v) s = .next u ∧ t.busErr = false ∧
    bits t.busData 27 20 = b.row.type_ ∧ bits t.busData 31 28 = 0 ∧ bits t.busData 11 0 = bits u.busData 11 0 := by
  have key : ∀ (m : Master) (h : Fin 77) (v : BitVec 64) (s : State) (b : Blk) (n : Nat), hdrBlk h = (b, n) → Reach b n s →
      ∃ t, exec (.busAccess m (BitVec.ofNat 40 (b.base n)) false 4 v) s = .next t ∧ t.busErr = false ∧
        t.busData = b.row.type_ * 2 ^ 20 + n * 2 ^ 12 + Config.designRevision := by
    intro m h v s b n e r
    have fact : ∀ h : Fin 77, blockAt ((hdrBlk h).1.base (hdrBlk h).2) = some (hdrBlk h) ∧
        0x40000000 ≤ (hdrBlk h).1.base (hdrBlk h).2 ∧ (hdrBlk h).1.base (hdrBlk h).2 + 4 ≤ 0x41000000 ∧
        (hdrBlk h).1.base (hdrBlk h).2 % 4 = 0 := by decide +kernel
    obtain ⟨f1, f2, f3, f4⟩ := fact h
    rw [e] at f1 f2 f3 f4
    dsimp only at f1 f2 f3 f4
    have ha : (BitVec.ofNat 40 (b.base n)).toNat = b.base n := by
      rw [BitVec.toNat_ofNat]; exact Nat.mod_eq_of_lt (by omega)
    have z : busSize 4 = 4 := rfl
    have key : ∀ w, (busOp m (b.base n) false 4 w s).busErr = false ∧
        (busOp m (b.base n) false 4 w s).busData = b.row.type_ * 2 ^ 20 + n * 2 ^ 12 + Config.designRevision := by
      intro w
      rw [busOp_pages r.1 f2 f3 (by decide)]
      simp only [pageAccess, f1, pageOn_reach r, f4, if_false, Bool.false_eq_true, Bool.not_true, and_self, if_true, wordAccess,
        Nat.sub_self]
      exact ⟨rfl, rfl⟩
    exact ⟨_, exec_bus r.1 (by rw [ha, z]; exact (key _).1), by rw [ha, z]; exact (key _).1, by rw [ha, z]; exact (key _).2⟩
  intro m h v s b n e r q
  obtain ⟨t, t1, t2, t3⟩ := key m h v s b n e r
  obtain ⟨u, u1, u2, u3⟩ := key m 0 v s .sys 0 (by decide) q
  refine ⟨t, u, t1, u1, t2, ?_⟩
  rw [t3, u3]
  have fact : ∀ h : Fin 77, bits ((hdrBlk h).1.row.type_ * 2 ^ 20 + (hdrBlk h).2 * 2 ^ 12 + Config.designRevision) 27 20 =
        (hdrBlk h).1.row.type_ ∧
      bits ((hdrBlk h).1.row.type_ * 2 ^ 20 + (hdrBlk h).2 * 2 ^ 12 + Config.designRevision) 31 28 = 0 ∧
      bits ((hdrBlk h).1.row.type_ * 2 ^ 20 + (hdrBlk h).2 * 2 ^ 12 + Config.designRevision) 11 0 =
        bits (Blk.sys.row.type_ * 2 ^ 20 + 0 * 2 ^ 12 + Config.designRevision) 11 0 := by decide +kernel
  have f := fact h
  rw [e] at f
  exact f

theorem completes_securityRom :
    ∀ (m : Master) (a : BitVec 40) (wr : Bool) (bytes : Nat) (v : BitVec 64) (s : State), m ≠ .core .sec → pdOn 2 s = true →
    a.toNat + busSize bytes ≤ 0x40000 → EventRoom s →
    ∃ t, exec (.busAccess m a wr bytes v) s = .next t ∧ t.busErr = true ∧
    ∃ e ∈ t.evr.queue, e.code = 0x0B01 ∧ e.p0 = BitVec.ofNat 32 (masterId m) := by
  intro m a wr bytes v s hm hp ha hr
  refine ⟨_, rfl, ?_⟩
  have e1 : within a.toNat (busSize bytes) 0 0x40000 = true := within_true (by omega)
  rw [if_pos hp]
  simp only [busOp, hp, e1, Bool.not_true, if_true, if_false, Bool.false_eq_true, if_neg hm]
  refine ⟨frame_dmaError m _ (m := 0x1800000180) .refl rfl .busErr rfl, ?_⟩
  obtain ⟨l, hl⟩ := queue_dmaError m (busFails (ev .sys 0x0B01 (masterId m) 0 0 s))
  rw [hl]
  have h := ev_pushes (b := .sys) (code := 0x0B01) (p0 := masterId m) (p1 := 0) (p2 := 0) (Nat.lt_of_lt_of_le (hr : s.evr.queue.length < 200) (by decide))
  obtain ⟨e, he, h1, h2⟩ := h
  exact ⟨e, List.mem_append_left _ he, h1, h2⟩

theorem completes_storeWord :
    ∀ (m : Master) (a : Fin 65536) (j : Fin 4) (v : BitVec 64) (s : State), pdOn 2 s = true → pdOn 13 s = true →
    ∃ t, exec (.busAccess m (BitVec.ofNat 40 (0x50000000 + 16 * a.val + 4 * j.val)) false 4 v) s = .next t ∧
    t.busErr = false ∧ t.busData = ((storeWord a s).getD 0) / 2 ^ (32 * j.val) % 2 ^ 32 := by
  intro m a j v s h1 h2
  have ha : (BitVec.ofNat 40 (0x50000000 + 16 * a.val + 4 * j.val)).toNat = 0x50000000 + (16 * a.val + 4 * j.val) := by
    rw [BitVec.toNat_ofNat, Nat.mod_eq_of_lt (by omega), Nat.add_assoc]
  have z : busSize 4 = 4 := rfl
  have key : ∀ w, (busOp m (0x50000000 + (16 * a.val + 4 * j.val)) false 4 w s).busErr = false ∧
      (busOp m (0x50000000 + (16 * a.val + 4 * j.val)) false 4 w s).busData = ((storeWord a s).getD 0) / 2 ^ (32 * j.val) % 2 ^ 32 := by
    intro w
    rw [busOp_store h1 (by omega) (by omega) (by decide), Nat.add_sub_cancel_left]
    unfold storeWindow
    rw [if_neg (by rw [h2]; decide), if_neg (by decide), if_neg (by omega)]
    refine ⟨rfl, ?_⟩
    dsimp only [busGives]
    unfold wordBytes
    have e1 : (16 * a.val + 4 * j.val) / 16 = a.val := by omega
    have e2 : 8 * ((16 * a.val + 4 * j.val) % 16) = 32 * j.val := by omega
    rw [e1, e2, Nat.shiftRight_eq_div_pow]
    exact wordBytes_low _ _ j
  exact ⟨_, exec_bus h1 (by rw [ha, z]; exact (key _).1), by rw [ha, z]; exact (key _).1, by rw [ha, z]; exact (key _).2⟩

theorem completes_storeGap :
    ∀ (m : Master) (a : Nat) (j : Fin 4) (v : BitVec 64) (s : State), pdOn 2 s = true → pdOn 13 s = true →
    (0x8800 ≤ a ∧ a ≤ 0xBFFF ∨ 0xD000 ≤ a ∧ a ≤ 0xFFFF) →
    ∃ t, exec (.busAccess m (BitVec.ofNat 40 (0x50000000 + 16 * a + 4 * j.val)) false 4 v) s = .next t ∧
    t.busErr = false ∧ t.busData = 0 := by
  intro m a j v s h1 h2 h3
  have ha : (BitVec.ofNat 40 (0x50000000 + 16 * a + 4 * j.val)).toNat = 0x50000000 + (16 * a + 4 * j.val) := by
    rw [BitVec.toNat_ofNat, Nat.mod_eq_of_lt (by omega), Nat.add_assoc]
  have z : busSize 4 = 4 := rfl
  have key : ∀ w, (busOp m (0x50000000 + (16 * a + 4 * j.val)) false 4 w s).busErr = false ∧
      (busOp m (0x50000000 + (16 * a + 4 * j.val)) false 4 w s).busData = 0 := by
    intro w
    rw [busOp_store h1 (by omega) (by omega) (by decide), Nat.add_sub_cancel_left]
    unfold storeWindow
    rw [if_neg (by rw [h2]; decide), if_neg (by decide), if_neg (by omega)]
    refine ⟨rfl, ?_⟩
    dsimp only [busGives]
    unfold wordBytes
    have e1 : (16 * a + 4 * j.val) / 16 = a := by omega
    have e2 : 8 * ((16 * a + 4 * j.val) % 16) = 32 * j.val := by omega
    rw [e1, e2, Nat.shiftRight_eq_div_pow, wordBytes_low _ _ j]
    have e3 : storeWord a s = none := by
      unfold storeWord
      rw [if_neg (by omega), if_neg (by omega), if_neg (by omega)]
    rw [e3]
    show 0 / 2 ^ (32 * j.val) % 2 ^ 32 = 0
    simp
  exact ⟨_, exec_bus h1 (by rw [ha, z]; exact (key _).1), by rw [ha, z]; exact (key _).1, by rw [ha, z]; exact (key _).2⟩

theorem completes_gatedPage :
    ∀ (m : Master) (a : BitVec 40) (wr : Bool) (bytes : Nat) (v : BitVec 64) (s : State) (b : Blk) (n : Nat), pdOn 2 s = true →
    0x40000000 ≤ a.toNat → a.toNat + busSize bytes ≤ 0x41000000 → blockAt a.toNat = some (b, n) → fused b n s = false →
    pdOn (pdOf b n) s = false →
    ∃ t, exec (.busAccess m a wr bytes v) s = .next t ∧ Gated a.toNat s t := by
  intro m a wr bytes v s b n h1 h2 h3 h4 h5 h6
  have key : Gated a.toNat s (busOp m a.toNat wr (busSize bytes) (v.toNat % 2 ^ (8 * busSize bytes)) s) := by
    rw [busOp_pages h1 h2 h3 (busSize_pos _)]
    simp only [pageAccess, h4, pageOn, h5, h6, Bool.false_and, Bool.and_false, Bool.not_false, if_true, if_false, Bool.false_eq_true]
    exact gated_refuse _ s (by omega)
  exact ⟨_, exec_bus h1 key.2.1, key⟩

theorem completes_gatedSram :
    ∀ (m : Master) (a : BitVec 40) (wr : Bool) (bytes : Nat) (v : BitVec 64) (s : State), pdOn 2 s = true →
    0x20000000 ≤ a.toNat → a.toNat + busSize bytes ≤ 0x20800000 → pdOn 7 s = false →
    ∃ t, exec (.busAccess m a wr bytes v) s = .next t ∧ Gated a.toNat s t := by
  intro m a wr bytes v s h1 h2 h3 h6
  have key : Gated a.toNat s (busOp m a.toNat wr (busSize bytes) (v.toNat % 2 ^ (8 * busSize bytes)) s) := by
    rw [busOp_sram h1 h2 h3 (busSize_pos _)]
    simp only [domMem, h6, if_false, Bool.false_eq_true]
    exact gated_mod _ s
  exact ⟨_, exec_bus h1 key.2.1, key⟩

theorem completes_gatedDdr :
    ∀ (m : Master) (a : BitVec 40) (wr : Bool) (bytes : Nat) (v : BitVec 64) (s : State), pdOn 2 s = true →
    ddrBase ≤ a.toNat → a.toNat + busSize bytes ≤ ddrBase + installedBytes s → pdOn 12 s = false →
    ∃ t, exec (.busAccess m a wr bytes v) s = .next t ∧ Gated a.toNat s t := by
  intro m a wr bytes v s h1 h2 h3 h6
  have key : Gated a.toNat s (busOp m a.toNat wr (busSize bytes) (v.toNat % 2 ^ (8 * busSize bytes)) s) := by
    rw [busOp_ddr h1 h2 h3 (busSize_pos _)]
    simp only [domMem, h6, if_false, Bool.false_eq_true]
    exact gated_mod _ s
  exact ⟨_, exec_bus h1 key.2.1, key⟩

theorem completes_gatedStore :
    ∀ (m : Master) (a : BitVec 40) (wr : Bool) (bytes : Nat) (v : BitVec 64) (s : State), pdOn 2 s = true →
    0x50000000 ≤ a.toNat → a.toNat + busSize bytes ≤ 0x50100000 → pdOn 13 s = false →
    ∃ t, exec (.busAccess m a wr bytes v) s = .next t ∧ Gated a.toNat s t := by
  intro m a wr bytes v s h1 h2 h3 h6
  have key : Gated a.toNat s (busOp m a.toNat wr (busSize bytes) (v.toNat % 2 ^ (8 * busSize bytes)) s) := by
    rw [busOp_store h1 h2 h3 (busSize_pos _)]
    simp only [storeWindow, h6, Bool.not_false, if_true]
    rw [Nat.add_sub_cancel' h2]
    exact gated_refuse _ s (by omega)
  exact ⟨_, exec_bus h1 key.2.1, key⟩

theorem completes_gatedSecurityRom :
    ∀ (a : BitVec 40) (wr : Bool) (bytes : Nat) (v : BitVec 64) (s : State), pdOn 2 s = true →
    a.toNat + busSize bytes ≤ 0x40000 → pdOn 1 s = false →
    ∃ t, exec (.busAccess (.core .sec) a wr bytes v) s = .next t ∧ Gated a.toNat s t := by
  intro a wr bytes v s h1 h3 h6
  have key : Gated a.toNat s (busOp (.core .sec) a.toNat wr (busSize bytes) (v.toNat % 2 ^ (8 * busSize bytes)) s) := by
    have e1 : within a.toNat (busSize bytes) 0 0x40000 = true := within_true (by omega)
    simp only [busOp, h1, e1, Bool.not_true, if_true, if_false, Bool.false_eq_true, h6]
    exact gated_refuse _ s (by omega)
  exact ⟨_, exec_bus h1 key.2.1, key⟩

theorem completes_gateChannel :
    ∀ (m : Master) (n : Fin 4) (s : State), Reach .wck 0 s → Rising s.regs → windowOpen .wck 0 s = true → s.pwr.state = .lit →
    s.pwr.phase = .settled → s.sys.coreUp = true → domBusy (14 + n.val) s = false → domGrant (14 + n.val) s = false →
    ∃ t, exec (.pdoffWrite m (BitVec.ofNat 32 (2 ^ (14 + n.val)))) s = .next t ∧ pdOn (14 + n.val) t = false := by
  intro m n s h h1 h2 g1 g2 g3 h5 h6
  refine ⟨_, rfl, ?_⟩
  rw [access_reach h]
  have hv : (BitVec.ofNat 32 (2 ^ (14 + n.val))).toNat = 2 ^ (14 + n.val) := by clear h5 h6; revert n; decide
  rw [hv]
  have e : ((bitList 22 (2 ^ (14 + n.val) &&& 0x3FE000)).filter fun d => !((reg .pdoff 0 0 s).testBit d)).filter
      (fun d => domBusy d s || domGrant d s) = [] := by
    rw [List.filter_eq_nil_iff]
    intro d hd
    have hd' := (List.mem_filter.1 (List.mem_filter.1 hd).1).2
    rw [Nat.testBit_and, Bool.and_eq_true, Nat.testBit_two_pow] at hd'
    have : 14 + n.val = d := by simpa using hd'.1
    subst this
    rw [h5, h6]; decide
  simp only [writePdoff, h2, if_true, e, List.foldl_nil, show maskOf [] = 0 from rfl, Nat.xor_zero]
  have all : ∀ n : Fin 4, 2 ^ (14 + n.val) &&& 0xFFFFFFFF = 2 ^ (14 + n.val) ∧ 2 ^ (14 + n.val) < 2 ^ 32 ∧
      ((Reg.pdoff.mask (· == .rw) ||| Reg.pdoff.mask (· == .rwg)).testBit (14 + n.val)) = true := by decide
  obtain ⟨hand, hlt, hmask⟩ := all n
  rw [hand]
  have key := reg_storeFields .pdoff 0 0 (2 ^ (14 + n.val)) h1 hlt
  have w : (writableBits .pdoff 0 s).testBit (14 + n.val) = true := by
    unfold writableBits
    rw [show windowOpen (Reg.pdoff.row.blk) 0 s = true from h2]
    exact hmask
  have kb : (reg .pdoff 0 0 (storeFields .pdoff 0 0 (2 ^ (14 + n.val)) s)).testBit (14 + n.val) = true := by
    rw [key, Nat.testBit_or, Nat.testBit_and (2 ^ _), Nat.testBit_two_pow, w]
    simp
  have fp : (storeFields .pdoff 0 0 (2 ^ (14 + n.val)) s).pwr = s.pwr :=
    frame_storeFields (m := 0x1800000110) _ _ _ _ s .refl rfl .pwr rfl
  have fs : (storeFields .pdoff 0 0 (2 ^ (14 + n.val)) s).sys = s.sys :=
    frame_storeFields (m := 0x1800000110) _ _ _ _ s .refl rfl .sys rfl
  generalize storeFields .pdoff 0 0 (2 ^ (14 + n.val)) s = u at *
  generalize hl : (List.filter _ _ : List Nat) = l
  have k1 : (l.foldl (fun s d => actuatorRetired (d - 14) s) u).regs = u.regs :=
    FrameB.foldl (m := 0x1800038180) (fun x d => frame_actuatorRetired _ x .refl rfl) .refl .regs rfl
  have k2 : (l.foldl (fun s d => actuatorRetired (d - 14) s) u).pwr = u.pwr :=
    FrameB.foldl (m := 0x1800038180) (fun x d => frame_actuatorRetired _ x .refl rfl) .refl .pwr rfl
  have k3 : (l.foldl (fun s d => actuatorRetired (d - 14) s) u).sys = u.sys :=
    FrameB.foldl (m := 0x1800038180) (fun x d => frame_actuatorRetired _ x .refl rfl) (show FrameB 0x1800038180 u u from .refl) .sys rfl
  generalize l.foldl (fun s d => actuatorRetired (d - 14) s) u = w' at *
  rw [show (w'.pwr.state == .lit && w'.pwr.phase == .settled && w'.sys.coreUp) = true by rw [k2, k3, fp, fs, g1, g2, g3]; rfl, if_pos rfl]
  have kw : reg .pdoff 0 0 w' = reg .pdoff 0 0 u := reg_congr k1 _ _ _
  have kt : (fld .pdoff 0 0 21 13 w').testBit (1 + n.val) = true := by
    unfold fld bits
    rw [kw, Nat.testBit_mod_two_pow, Nat.testBit_shiftRight, show 13 + (1 + n.val) = 14 + n.val by omega, kb]
    have := n.isLt
    simp only [Bool.and_true, decide_eq_true_eq]
    omega
  have kp : ∀ x : State, x.pwr.pd = pdLit w' → pdOn (14 + n.val) x = false := by
    intro x hx
    unfold pdOn
    rw [hx]
    unfold pdLit vget
    have hn : 14 + n.val < 22 := by omega
    rw [dif_pos hn]
    simp only [Vector.getElem_ofFn]
    rw [show 14 + n.val - 13 = 1 + n.val by omega, kt]
    have h13 : (13 ≤ 14 + n.val) := by omega
    have h18 : ¬(18 ≤ 14 + n.val) := by omega
    simp only [h13, h18, decide_true, Bool.and_true, Bool.true_and, if_false]
    split
    · rfl
    · next hc => simpa using hc
  refine kp _ ?_
  show (powerLit w').pwr.pd = _
  rw [powerLit_pwr]

theorem completes_lowestRegion :
    ∀ (k : Fin 16) (off : Nat) (s : State), HoldsMib k (off / 2 ^ 20) s → (∀ j : Fin 16, j < k → ¬HoldsMib j (off / 2 ^ 20) s) →
    codeOf off s = fld .regattr0 0 k 30 29 s ∧ polOf off s = fld .regattr0 0 k 28 27 s ∧
    scrubbed (off / 128) s = (decide (fld .regattr0 0 k 30 29 s < 2) && fld .regattr1 0 k 31 31 s == 0) := by
  intro k off s h1 h2
  have e : regionOf off s = some k.val := by
    unfold regionOf
    rw [List.find?_range_eq_some]
    refine ⟨(holdsMib_iff ..).mp h1, List.mem_range.mpr k.isLt, fun j hj => ?_⟩
    have := h2 ⟨j, by omega⟩ hj
    rw [holdsMib_iff] at this
    simpa using this
  have e2 : regionOf (off / 128 * 128) s = some k.val := by
    rw [← e]
    unfold regionOf
    rw [show off / 128 * 128 / 2 ^ 20 = off / 2 ^ 20 by omega]
  unfold scrubbed codeOf polOf
  dsimp only
  rw [e, e2]
  exact ⟨rfl, rfl, rfl⟩

theorem completes_noRegion :
    ∀ (off : Nat) (s : State), (∀ j : Fin 16, ¬HoldsMib j (off / 2 ^ 20) s) →
    codeOf off s = 0 ∧ polOf off s = 0 ∧ scrubbed (off / 128) s = true ∧ initMib (off / 2 ^ 20) s = true := by
  intro off s h
  have e : regionOf off s = none := by
    unfold regionOf
    rw [List.find?_eq_none]
    intro j hj
    have := h ⟨j, List.mem_range.mp hj⟩
    rw [holdsMib_iff] at this
    exact this
  have e2 : regionOf (off / 2 ^ 20 * 2 ^ 20) s = none := by
    unfold regionOf at e ⊢
    rwa [Nat.mul_div_cancel _ (by decide)]
  have e3 : regionOf (off / 128 * 128) s = none := by
    rw [← e]
    unfold regionOf
    rw [show off / 128 * 128 / 2 ^ 20 = off / 2 ^ 20 by omega]
  unfold scrubbed initMib codeOf polOf
  dsimp only
  rw [e, e2, e3]
  exact ⟨rfl, rfl, rfl, rfl⟩

theorem completes_emptyRegion :
    ∀ (k : Fin 16) (mib : Nat) (s : State),
    (fld .regattr1 0 k 13 0 s < fld .regattr0 0 k 13 0 s ∨ installedBytes s / 2 ^ 20 ≤ fld .regattr1 0 k 13 0 s) →
    ¬HoldsMib k mib s := by
  intro k mib s h hh
  obtain ⟨_, h1, h2, h3⟩ := hh
  omega

theorem completes_disabledRead :
    ∀ (m : Master) (a : BitVec 40) (v : Word) (s : State), inDdr (a.toNat / 4 * 4) s = true → pdOn 12 s = true →
    accessWaits (a.toNat / 4 * 4) s = false → pastL1 m (a.toNat / 4 * 4) s = true → s.bcc.state = .disabled →
    s.dmc.poison = [] → s.dmc.rawChk = [] →
    ∃ t, exec (.bccAccess m a false v none) s = .next t ∧ t.bcc = s.bcc ∧ t.busErr = false ∧
    t.busData = memRead (a.toNat / 4 * 4) 4 s := by
  intro m a v s h1 h2 h3 h4 h5 h6 h7
  refine ⟨_, rfl, ?_⟩
  dsimp only
  rw [if_neg Bool.false_ne_true, ddrTake_read h1 h2 h3 h4]
  have hp : bccPass s = true := by unfold bccPass; rw [h5]; rfl
  have hb : ddrBase ≤ a.toNat / 4 * 4 := by
    unfold inDdr at h1
    simp only [Bool.and_eq_true, decide_eq_true_eq] at h1
    exact h1.1
  have hd : dmcRead m (a.toNat / 4 * 4 - ddrBase) .none s = (s, false) := by
    unfold dmcRead halfPoisoned rawPoison
    rw [h6, h7]
    dsimp only
    split
    · rfl
    · rfl
  simp only [ddrAccess, bccRead, hp, if_true, bccDirect, hd]
  rw [Nat.add_sub_cancel' hb]
  exact ⟨trivial, trivial, rfl⟩

theorem completes_disabledWrite :
    ∀ (m : Master) (a : BitVec 40) (v : Word) (s : State), inDdr (a.toNat / 4 * 4) s = true → pdOn 12 s = true →
    accessWaits (a.toNat / 4 * 4) s = false → pastL1 m (a.toNat / 4 * 4) s = true → s.bcc.state = .disabled →
    Rising s.mem →
    ∃ t, exec (.bccAccess m a true v none) s = .next t ∧ t.bcc = s.bcc ∧ memRead (a.toNat / 4 * 4) 4 t = v.toNat ∧
    ∀ x, x < a.toNat / 4 * 4 ∨ a.toNat / 4 * 4 + 4 ≤ x → memByte x t = memByte x s := by
  intro m a v s h1 h2 h3 h4 h5 h6
  have hb : ddrBase ≤ a.toNat / 4 * 4 := by
    unfold inDdr at h1
    simp only [Bool.and_eq_true, decide_eq_true_eq] at h1
    exact h1.1
  obtain ⟨q, l, hl⟩ := ddrTake_write (n := 4) (v := v.toNat) (err := .none) h1 h2 h3 h4
  have key : exec (.bccAccess m a true v none) s = .next (ddrTake m (a.toNat / 4 * 4) 4 (some v.toNat) .none s) := rfl
  refine ⟨_, key, ?_⟩
  rw [hl]
  dsimp only
  have e1 : ({ s with l1 := l } : State).bcc = s.bcc := rfl
  have e2 : ({ s with l1 := l } : State).mem = s.mem := rfl
  have hp : bccPass { s with l1 := l } = true := by unfold bccPass; rw [h5]; rfl
  have hs : ({ s with l1 := l } : State).bcc.state = .disabled := h5
  generalize ({ s with l1 := l } : State) = u at *
  have hw : bccWrite q (a.toNat / 4 * 4 - ddrBase) 4 v.toNat u = dmcWrite (a.toNat / 4 * 4 - ddrBase) 4 v.toNat u := by
    unfold bccWrite
    rw [hs, if_neg (by decide : ¬ (BccState.disabled == BccState.draining) = true)]
    dsimp only
    rw [hp, if_pos rfl]
  have hm : (dmcWrite (a.toNat / 4 * 4 - ddrBase) 4 v.toNat u).mem = (memWrite (a.toNat / 4 * 4) 4 v.toNat u).mem := by
    have k : ∀ x : State, x.mem = u.mem → (memWrite (ddrBase + (a.toNat / 4 * 4 - ddrBase)) 4 v.toNat x).mem =
        (memWrite (a.toNat / 4 * 4) 4 v.toNat u).mem := by
      intro x hx; rw [Nat.add_sub_cancel' hb]; exact memWrite_mem_congr hx
    have g : ∀ c : Bool, (if c = true then poisonBytes ((a.toNat / 4 * 4 - ddrBase) / 128 * 128) 128 u else u).mem = u.mem := by
      intro c; cases c <;> rfl
    have kg := k _ (g (rawPoison ((a.toNat / 4 * 4 - ddrBase) / 128) u))
    unfold dmcWrite
    dsimp only
    generalize (if rawPoison ((a.toNat / 4 * 4 - ddrBase) / 128) u = true then _ else u) = y at *
    clear k g
    generalize memWrite (ddrBase + (a.toNat / 4 * 4 - ddrBase)) 4 v.toNat y = y' at *
    split
    · exact kg
    · exact kg
  have hbcc : (dmcWrite (a.toNat / 4 * 4 - ddrBase) 4 v.toNat u).bcc = u.bcc :=
    frame_dmcWrite _ _ _ u (m := 0x20000020) .refl rfl .bcc rfl
  rw [hw]
  generalize dmcWrite (a.toNat / 4 * 4 - ddrBase) 4 v.toNat u = z at *
  refine ⟨hbcc.trans e1, ?_, fun x hx => ?_⟩
  · refine (memRead_congr (s := memWrite (a.toNat / 4 * 4) 4 v.toNat u) hm _ _).trans ?_
    rw [memRead_memWrite (by rw [e2]; exact h6)]
    exact Nat.mod_eq_of_lt v.isLt
  · refine (memByte_congr (s := memWrite (a.toNat / 4 * 4) 4 v.toNat u) hm _).trans ((memByte_memWrite_out hx).trans ?_)
    exact memByte_congr e2 _

theorem completes_svnOthers :
    ∀ (s t : State), step s = .next t → (∀ count rest, s.pending ≠ .svnCommit count :: rest) → t.sec.svn = s.sec.svn := by
  intro s t h k
  unfold step at h
  split at h
  · cases h
    exact svn_idle s (rfl : SvnIs s.sec.svn s)
  · next c rest e =>
    have := svn_exec c { s with pending := rest } (fun n hn => k n rest (by rw [e, hn])) (rfl : SvnIs s.sec.svn _)
    rw [exec_after h] at this
    exact this

theorem completes_svnBound :
    ∀ (count : Nat) (s t : State), exec (.svnCommit count) s = .next t → t.sec.svn = s.sec.svn ∨
    t.sec.svn = count ∧ s.sec.svn < count ∧ count ≤ s.sec.imgSvn ∧ count ≤ 64 := by
  intro count s t h
  change execSvnCommit count s = _ at h
  unfold execSvnCommit mailbox at h
  simp only [Host.Outcome.next.injEq] at h
  subst h
  split
  · generalize hu : setFld .mbcmd 0 0 23 16 7 _ = u
    have e1 : u.sec = { s.sec with mbDone := false, mbBusy := some 7 } := by rw [← hu, setFld_sec]; rfl
    have a : u.sec.svn = s.sec.svn := by rw [e1]
    have b : u.sec.imgSvn = s.sec.imgSvn := by rw [e1]
    rw [a, b]
    split
    · left; rw [answer_sec, ev_sec, ← a]
    · split
      · left; rw [answer_sec, ← a]
      · split
        · right; rw [answer_sec, ev_sec]; exact ⟨rfl, by omega, by omega, by omega⟩
        · left; rw [answer_sec, ← a]
  · exact .inl rfl

theorem completes_svnRises :
    ∀ (count : Nat) (s : State), secRuns s = true → s.sec.mbDone = true → s.sec.svn < count → count ≤ s.sec.imgSvn →
    count ≤ 64 → EventRoom s →
    ∃ t, exec (.svnCommit count) s = .next t ∧ t.sec.svn = count ∧ t.sec.mbRes = 0 ∧ Recorded 0x0B70 t := by
  intro count s h1 h2 h3 h4 h5 h6
  refine ⟨_, by change execSvnCommit count s = _; unfold execSvnCommit; exact mbox h1 h2, ?_⟩
  try dsimp only
  generalize hu : setFld .mbcmd 0 0 23 16 7 _ = u
  have e1 : u.sec = { s.sec with mbDone := false, mbBusy := some 7 } := by rw [← hu, setFld_sec]; rfl
  have e2 : u.evr = s.evr := by rw [← hu, setFld_evr]; rfl
  have a : u.sec.svn = s.sec.svn := by rw [e1]
  have b : u.sec.imgSvn = s.sec.imgSvn := by rw [e1]
  rw [if_neg (by omega), if_neg (by omega), if_pos (by omega), answer_sec, ev_sec]
  refine ⟨rfl, rfl, ?_⟩
  refine (recorded_congr (s := ev .tru 0x0B70 count 0 0 ((programFuses u).modSec fun c => { c with svn := count })) rfl).mpr ?_
  refine recorded_ev ?_
  show (programFuses u).evr.queue.length < 238
  have e3 := queue_programFuses u
  rw [e2] at e3
  have : s.evr.queue.length < 200 := h6
  omega

theorem completes_svnExhausted :
    ∀ (count : Nat) (s : State), secRuns s = true → s.sec.mbDone = true → 64 ≤ s.sec.svn → EventRoom s →
    ∃ t, exec (.svnCommit count) s = .next t ∧ t.sec.svn = s.sec.svn ∧ t.sec.mbRes = 4 ∧ Recorded 0x0B71 t := by
  intro count s h1 h2 h3 h6
  refine ⟨_, by change execSvnCommit count s = _; unfold execSvnCommit; exact mbox h1 h2, ?_⟩
  try dsimp only
  generalize hu : setFld .mbcmd 0 0 23 16 7 _ = u
  have e1 : u.sec = { s.sec with mbDone := false, mbBusy := some 7 } := by rw [← hu, setFld_sec]; rfl
  have e2 : u.evr = s.evr := by rw [← hu, setFld_evr]; rfl
  have a : u.sec.svn = s.sec.svn := by rw [e1]
  rw [if_pos (by omega), answer_sec, ev_sec]
  refine ⟨a, rfl, ?_⟩
  refine (recorded_congr (s := ev .tru 0x0B80 7 4 0 (ev .tru 0x0B71 0 0 0 u)) rfl).mpr (recorded_ev_mono (recorded_ev ?_))
  rw [e2]; exact Nat.lt_of_lt_of_le h6 (by decide)

theorem completes_svnLast :
    ∀ (typ : Nat) (img : BootImage) (s : State), img.svn = 64 → s.sec.svn ≤ 64 → bootResult typ img s ≠ 4 := by
  intro typ img s h1 h2
  unfold bootResult
  rw [if_neg (show ¬img.svn < s.sec.svn by omega)]
  repeat' split
  all_goals decide

theorem completes_svnMicrocode :
    ∀ (img : McObj) (s : State), secRuns s = true → s.sec.mbDone = true → s.cst.staged = none → img.magic = 0x4D435031 →
    img.format = 1 → (img.kind == 1 || img.kind == 2) = true → img.keyId = img.sig.key % 2 ^ 64 →
    (if img.opn then ownerSigned img.sig s else umwynSigned 1 img.sig s) = true → img.svn < s.sec.svn →
    ∃ t, exec (.microcodeActivate img) s = .next t ∧ t.sec.mbRes = 4 ∧ t.cst = s.cst := by
  intro img s h1 h2 h3 h4 h5 h6 h7 h8 h9
  have e : mcReason img s = 2 := by
    unfold mcReason
    rw [if_neg (by rw [h4, h5, h6]; decide), if_neg (by rw [h7, h8]; simp), if_pos h9]
  obtain ⟨t, a, _, b, c⟩ := completes_microcodeActivateRefused img s h1 h2 h3 (by rw [e]; decide)
  exact ⟨t, a, by rw [b, e]; rfl, c⟩

end Sys2Proof.Machine
end

