-- ==== Sys2Proof/Laws/CompleteServo.lean ====
section
/-!
SUPPORT. Defect, servo, spindle, laser and optical commands that complete. One lemma for each part of a completion statement.
-/

set_option Elab.async false
set_option linter.all false

namespace Sys2Proof.Machine

theorem lockGone_spn (c : Nat) (s : State) : (lockGone c s).spn = s.spn :=
  frame_lockGone _ _ (m := 0x1A0CB2A180) .refl rfl .spn rfl

/-- The spindle after a latched fault (R273, R277). -/
theorem spnFault_spn (c : Nat) (s : State) : (spnFault c s).spn = { s.spn with
    state := .faulted, latched := true, locked := false, gates := 0, brk := none, cause := c % 256, goodRevs := 0 } := by
  unfold spnFault
  dsimp only [State.modSpn]
  split
  · rw [lockGone_spn]
  · rfl

theorem spnFault_us (c : Nat) (s : State) : (spnFault c s).us = s.us :=
  frame_spnFault _ _ (m := 0x1A0EB2A180) .refl rfl .us rfl

theorem spnFault_evr (c : Nat) {s : State} (h : s.spn.locked = false) : (spnFault c s).evr = s.evr := by
  unfold spnFault
  rw [if_neg (by rw [h]; exact Bool.false_ne_true)]
  rfl

theorem attempt_ends (u : State) (c : Nat) (n : Nat) (h : u.us = n) :
   (u.spn.attempt < 3 → (if 3 ≤ u.spn.attempt then ev .spn 0x0703 0 u.spn.attempt 0 (spnFault c u) else alignStart u).us = n ∧
      (if 3 ≤ u.spn.attempt then ev .spn 0x0703 0 u.spn.attempt 0 (spnFault c u) else alignStart u).spn.state = .align ∧
      (if 3 ≤ u.spn.attempt then ev .spn 0x0703 0 u.spn.attempt 0 (spnFault c u) else alignStart u).spn.attempt = u.spn.attempt + 1) ∧
   (3 ≤ u.spn.attempt → (if 3 ≤ u.spn.attempt then ev .spn 0x0703 0 u.spn.attempt 0 (spnFault c u) else alignStart u).us = n ∧
      (if 3 ≤ u.spn.attempt then ev .spn 0x0703 0 u.spn.attempt 0 (spnFault c u) else alignStart u).spn = (spnFault c u).spn) := by
  constructor
  · intro k
    rw [if_neg (by omega)]
    unfold alignStart
    dsimp only
    rw [ev_us, ev_spn]
    exact ⟨h, rfl, rfl⟩
  · intro k
    rw [if_pos k, ev_us, ev_spn, spnFault_us]
    exact ⟨h, rfl⟩
theorem attempt_ends_at (q : Nat) (s : State) : ∀ F, F = (let u := advanceTo q s; if 3 ≤ u.spn.attempt then ev .spn 0x0703 0 u.spn.attempt 0 (spnFault 0x0703 u) else alignStart u) →
  F.us = max s.us q ∧
      (s.spn.attempt < 3 → F.spn.state = .align ∧ F.spn.attempt = s.spn.attempt + 1) ∧
      (3 ≤ s.spn.attempt → F.spn.state = .faulted ∧ F.spn.latched = true ∧ F.spn.gates = 0 ∧ F.spn.cause = 3) := by
  intro F e
  have ha : (advanceTo q s).spn = s.spn := frame_advanceTo _ _ (m := 0x7800000B12) .refl rfl .spn rfl
  have hus := advanceTo_us q s
  have g := attempt_ends _ 0x0703 _ hus
  dsimp only at e
  rw [← e] at g
  generalize advanceTo q s = u at *
  rw [← ha]
  by_cases k : 3 ≤ u.spn.attempt
  · obtain ⟨a, b⟩ := g.2 k
    refine ⟨a, fun h => absurd k (by omega), fun _ => ?_⟩
    rw [b, spnFault_spn]; exact ⟨rfl, rfl, rfl, rfl⟩
  · obtain ⟨a, b, c⟩ := g.1 (by omega)
    exact ⟨a, fun _ => ⟨b, c⟩, fun h => absurd h k⟩
theorem exec_attemptTimeout (s : State) (hc : (spnLive s && s.spn.state == .openLoop) = true) : ∃ q, q = s.spn.openAt + 1000000 ∧ exec .spinupAttemptTimeout s = .next (let u := advanceTo q s; if 3 ≤ u.spn.attempt then ev .spn 0x0703 0 u.spn.attempt 0 (spnFault 0x0703 u) else alignStart u) := by
  refine ⟨_, rfl, ?_⟩
  show execSpinupAttemptTimeout s = _
  unfold execSpinupAttemptTimeout
  rw [if_pos hc]

theorem completes_retainedSlotFree :
    ∀ (m : Master) (v : Word) (s : State), Reach .ldp 0 s → v.toNat.testBit 31 = true →
    (s.ldp.retained.any (·.slot == bits v.toNat 7 0)) = true →
    ∃ t, exec (.retainedSlotFree m v) s = .next t ∧ t.ldp.retained = s.ldp.retained.filter (·.slot != bits v.toNat 7 0) ∧
    t.ldp.rsWarned = false := by
  intro m v s h h1 h2
  refine ⟨_, rfl, ?_⟩
  rw [access_reach h, useWindow_ldp]
  unfold writeRsfree freeRetained
  rw [if_pos h1, if_pos h2]
  exact ⟨rfl, rfl⟩

theorem completes_failurePop :
    ∀ (m : Master) (n : Fin 4) (v : Word) (s : State), Reach .ldp 0 s → v.toNat.testBit 0 = true →
    ∃ t, exec (.failurePop m n v) s = .next t ∧ t.ldp.ff[n] = s.ldp.ff[n].tail := by
  intro m n v s h h1
  refine ⟨_, rfl, ?_⟩
  rw [access_reach h, useWindow_ldp]
  unfold writeFfpop
  rw [if_pos h1]
  simp [State.modLdp]

theorem dlView_tpe (h : Nat) (s : State) : (dlView h s).tpe = { s.tpe with dlDone := false, dlBusy := true } :=
  frame_dlFetch _ _ (m := 0x18600031A0) .refl rfl .tpe rfl

theorem dlView_entry (h : Nat) (s : State) : dlEntry (dlView h s) = dlEntry s := by
  have e : (dlView h s).regs = s.regs := frame_dlFetch _ _ (m := 0x18600031A0) .refl rfl .regs rfl
  unfold dlEntry
  rw [reg_congr e, reg_congr e]

/-- A defect that meets an empty list of a surface in use. -/
theorem dlInsert_empty {h : Nat} {d : Defect} {s : State} (h2 : (dlDir h (dlFetch h s)).valid = true)
    (h3 : (dlDir h (dlFetch h s)).retired = false) (h4 : dlList h (dlFetch h s) = []) :
    (dlInsert h d s).tpe.dlDone = true ∧ (dlInsert h d s).tpe.dlBusy = false ∧ (dlInsert h d s).tpe.dlHeld = none ∧
    (dlInsert h d s).tpe.dlRes = 0 ∧ (dlInsert h d s).tpe.dlIndex = 0 := by
  unfold dlInsert
  dsimp only
  rw [h4, h3, h2]
  have k : ∀ (r : Nat) (i : Option Nat) (v : State), (dlResult r i v).tpe.dlDone = true ∧ (dlResult r i v).tpe.dlBusy = false ∧
    (dlResult r i v).tpe.dlHeld = none ∧ (dlResult r i v).tpe.dlRes = r ∧
    (dlResult r i v).tpe.dlIndex = i.getD v.tpe.dlIndex := fun _ _ _ => ⟨rfl, rfl, rfl, rfl, rfl⟩
  simp only [List.any_nil, List.filter_nil, List.isEmpty_nil, List.length_nil, List.foldl_nil, Bool.not_true, Bool.false_eq_true, if_false, Bool.true_and,
    if_true, dlPlace]
  rw [if_neg (by decide)]
  rw [(k _ _ _).1, (k _ _ _).2.1, (k _ _ _).2.2.1, (k _ _ _).2.2.2.1, (k _ _ _).2.2.2.2]
  refine ⟨rfl, rfl, rfl, rfl, ?_⟩
  simp

theorem completes_defectInsert :
    ∀ (m : Master) (surf : Fin 64) (s : State), Reach .tpe 0 s → s.tpe.dlBusy = false → (dlDir surf (dlView surf s)).valid = true →
    (dlDir surf (dlView surf s)).retired = false → dlList surf (dlView surf s) = [] →
    ((dlEntry s).pending = true ∨ trackBusy surf (dlEntry s).track s = false) →
    ∃ t, exec (.defectInsert m surf) s = .next t ∧ t.tpe.dlDone = true ∧ t.tpe.dlBusy = false ∧ t.tpe.dlRes = 0 ∧
    t.tpe.dlIndex = 0 := by
  intro m surf s h h1 h2 h3 h4 h5
  refine ⟨_, rfl, ?_⟩
  rw [dlop_run h (by decide) (by decide) h1, useWindow_tpe]
  have k := fun d => dlInsert_empty (d := d) h2 h3 h4
  unfold dlOpInsert
  dsimp only
  generalize hu : ({ s with tpe := { s.tpe with dlDone := false, dlBusy := true } } : State) = u at *
  have e1 : dlEntry u = dlEntry s := by rw [← hu]; rfl
  have e2 : ∀ a b, trackBusy a b u = trackBusy a b s := by rw [← hu]; exact fun _ _ => rfl
  rw [if_pos rfl, e1, e2, if_neg (by rcases h5 with k | k <;> simp [k])]
  obtain ⟨a, b, -, c, d⟩ := k (dlEntry s)
  exact ⟨a, b, c, d⟩

theorem completes_defectInsertHeld :
    ∀ (m : Master) (surf : Fin 64) (s : State), Reach .tpe 0 s → s.tpe.dlBusy = false → (dlEntry s).pending = false →
    trackBusy surf (dlEntry s).track s = true →
    ∃ t, exec (.defectInsert m surf) s = .next t ∧ t.tpe.dlDone = false ∧ t.tpe.dlBusy = true ∧
    t.tpe.dlHeld = some (surf.val, dlEntry s) ∧ t.mem = s.mem := by
  intro m surf s h h1 h4 h5
  refine ⟨_, rfl, ?_⟩
  rw [dlop_run h (by decide) (by decide) h1, useWindow_tpe, useWindow_mem]
  unfold dlOpInsert
  have e1 : dlEntry { s with tpe := { s.tpe with dlDone := false, dlBusy := true } } = dlEntry s := rfl
  have e2 : ∀ a b, trackBusy a b { s with tpe := { s.tpe with dlDone := false, dlBusy := true } } = trackBusy a b s := fun _ _ => rfl
  dsimp only
  rw [if_pos rfl, e1, e2, h4, h5, if_pos (by rfl)]
  exact ⟨rfl, rfl, rfl, rfl⟩

theorem completes_defectDelete :
    ∀ (m : Master) (surf : Fin 64) (s : State), Reach .tpe 0 s → s.tpe.dlBusy = false → dlEntry s ∈ dlList surf (dlView surf s) →
    ∃ t, exec (.defectDelete m surf) s = .next t ∧ t.tpe.dlDone = true ∧ t.tpe.dlRes = 0 := by
  intro m surf s h h1 h2
  refine ⟨_, rfl, ?_⟩
  rw [dlop_run h (by decide) (by decide) h1, useWindow_tpe]
  unfold dlOpDelete
  have e1 := dlView_entry surf s
  change dlEntry (dlFetch surf { s with tpe := { s.tpe with dlDone := false, dlBusy := true } }) = _ at e1
  dsimp only
  rw [if_neg (by decide), if_pos rfl, e1, if_pos (by rw [List.findIdx_lt_length]; exact ⟨_, h2, by simp⟩)]
  exact ⟨rfl, rfl⟩

theorem completes_defectDeleteMissing :
    ∀ (m : Master) (surf : Fin 64) (s : State), Reach .tpe 0 s → s.tpe.dlBusy = false → dlEntry s ∉ dlList surf (dlView surf s) →
    ∃ t, exec (.defectDelete m surf) s = .next t ∧ t.tpe.dlDone = true ∧ t.tpe.dlRes = 3 ∧ t.mem = (dlView surf s).mem := by
  intro m surf s h h1 h2
  refine ⟨_, rfl, ?_⟩
  rw [dlop_run h (by decide) (by decide) h1, useWindow_tpe, useWindow_mem]
  unfold dlOpDelete
  have e1 := dlView_entry surf s
  change dlEntry (dlFetch surf { s with tpe := { s.tpe with dlDone := false, dlBusy := true } }) = _ at e1
  dsimp only
  rw [if_neg (by decide), if_pos rfl, e1, if_neg (by rw [List.findIdx_lt_length]; rintro ⟨x, hx, he⟩; exact h2 (by simpa using (beq_iff_eq.mp he) ▸ hx))]
  exact ⟨rfl, rfl, rfl⟩

theorem completes_defectClearPending :
    ∀ (m : Master) (surf : Fin 64) (x : Defect) (s : State), Reach .tpe 0 s → s.tpe.dlBusy = false →
    x ∈ dlList surf (dlView surf s) → x.pending = true → x.track = (dlEntry s).track →
    (dlSpan (dlEntry s)).1 ≤ (dlSpan x).1 → (dlSpan x).2 ≤ (dlSpan (dlEntry s)).2 →
    ∃ t, exec (.defectClearPending m surf) s = .next t ∧ t.tpe.dlDone = true ∧ t.tpe.dlRes = 0 := by
  intro m surf x s h h1 h2 h3 h4 h5 h6
  refine ⟨_, rfl, ?_⟩
  rw [dlop_run h (by decide) (by decide) h1, useWindow_tpe]
  unfold dlOpClear
  have e1 := dlView_entry surf s
  change dlEntry (dlFetch surf { s with tpe := { s.tpe with dlDone := false, dlBusy := true } }) = _ at e1
  dsimp only
  rw [if_neg (by decide), if_neg (by decide), e1, if_pos (by
    rw [List.any_eq_true]; exact ⟨x, h2, by simp [h3, h4, h5, h6]⟩)]
  exact ⟨rfl, rfl⟩

theorem completes_defectInsertRelease :
    ∀ (h : Nat) (d : Defect) (s : State), s.tpe.dlHeld = some (h, d) → pdOn 13 s = true → heldBlk .tpe 0 s = false →
    trackBusy h d.track s = false → (dlDir h (dlFetch h s)).valid = true → (dlDir h (dlFetch h s)).retired = false →
    dlList h (dlFetch h s) = [] →
    ∃ t, exec .defectInsertRelease s = .next t ∧ t.tpe.dlHeld = none ∧ t.tpe.dlDone = true ∧ t.tpe.dlRes = 0 ∧ t.tpe.dlIndex = 0 := by
  intro h d s h1 h2 h3 h4 h5 h6 h7
  refine ⟨_, rfl, ?_⟩
  rw [h1]
  dsimp only
  rw [if_pos (by rw [h2, h3, h4]; rfl)]
  obtain ⟨a, -, b, c, e⟩ := dlInsert_empty (d := d) h5 h6 h7
  exact ⟨b, a, c, e⟩

theorem completes_defectInsertReleaseRetired :
    ∀ (h : Nat) (d : Defect) (s : State), s.tpe.dlHeld = some (h, d) → pdOn 13 s = true → heldBlk .tpe 0 s = false →
    trackBusy h d.track s = false → (dlDir h (dlFetch h s)).retired = true →
    ∃ t, exec .defectInsertRelease s = .next t ∧ t.tpe.dlHeld = none ∧ t.tpe.dlDone = true ∧ t.tpe.dlRes = 4 := by
  intro h d s h1 h2 h3 h4 h5
  refine ⟨_, rfl, ?_⟩
  rw [h1]
  dsimp only
  rw [if_pos (by rw [h2, h3, h4]; rfl)]
  unfold dlInsert
  dsimp only
  rw [h5]
  exact ⟨rfl, rfl, rfl⟩

theorem completes_sampleTrigger :
    ∀ (n : Fin 4) (inp : ServoIn) (s : State), sveLive n s = true → optical s = false → s.sve[sveOf n].run = false →
    s.sve[sveOf n].seeking = false → s.sve[sveOf n].seekPend = false → inp.late = 0 →
    ∃ t, exec (.sampleTrigger n inp) s = .next t ∧ t.sve[sveOf n].wedge = inp.wedge ∧ t.sve[sveOf n].onTrack = false := by
  intro n inp s h1 h2 h3 h4 h5 h6
  refine ⟨_, rfl, ?_⟩
  rw [if_pos h1]
  have k := sample_stopped (missed := false) h2 h3 h4 h5 (.inr h6)
  dsimp only
  split
  · exact ⟨k.1, k.2.2⟩
  · rw [sve_of _ (wedgePasses_sve ..)]; exact ⟨k.1, k.2.2⟩

theorem completes_syncTimeout :
    ∀ (n : Fin 4) (inp : ServoIn) (s : State), sveLive n s = true → optical s = false → s.sve[sveOf n].run = false →
    s.sve[sveOf n].seeking = false → s.sve[sveOf n].seekPend = false →
    ∃ t, exec (.syncTimeout n inp) s = .next t ∧ t.sve[sveOf n].wedge = inp.wedge ∧ t.sve[sveOf n].pesOk = false ∧
    t.sve[sveOf n].onTrack = false := by
  intro n inp s h1 h2 h3 h4 h5
  refine ⟨_, rfl, ?_⟩
  rw [if_pos (by rw [h1, h2]; rfl)]
  have k := sample_stopped (missed := true) (inp := inp) h2 h3 h4 h5 (.inl rfl)
  rw [sve_of _ (wedgePasses_sve ..)]; exact ⟨k.1, k.2.1 rfl, k.2.2⟩

theorem completes_tableSwapGo :
    ∀ (m : Master) (n : Fin 5) (s : State), Reach .sve n s → s.sve[n].pend = false →
    checkTable s.sve[n].shadow (fld .sveCfg n 0 15 0 s) = none →
    ∃ t, exec (.tableSwapGo m n) s = .next t ∧ t.sve[n].pend = true ∧ t.sve[n].swapped = true ∧ t.sve[n].res = 0 := by
  intro m n s h h1 h2
  refine ⟨_, rfl, ?_⟩
  rw [access_reach h]
  unfold swapGo
  dsimp only
  rw [if_neg (by rw [h1]; simp), h2]
  refine ⟨?_, ?_, ?_⟩ <;> rw [sve_of n (useWindow_sve ..), sve_modSve]

theorem completes_tableSwapGoRefused :
    ∀ (m : Master) (n : Fin 5) (r row : Nat) (s : State), Reach .sve n s → s.sve[n].pend = false → EventRoom s →
    checkTable s.sve[n].shadow (fld .sveCfg n 0 15 0 s) = some (r, some row) →
    ∃ t, exec (.tableSwapGo m n) s = .next t ∧ t.sve[n] = { s.sve[n] with res := 2, reason := r, row := row } ∧
    Recorded 0x0604 t := by
  intro m n r row s h h1 h3 h2
  refine ⟨_, rfl, ?_⟩
  rw [access_reach h]
  unfold swapGo
  dsimp only
  rw [if_neg (by rw [h1]; simp), h2]
  dsimp only
  refine ⟨?_, (recorded_congr (useWindow_evr _ _ _)).mpr ((recorded_congr (by rfl)).mpr (recorded_ev (s := s.modSve n fun v => { v with res := 2, reason := r, row := row }) (by unfold EventRoom at h3; exact Nat.lt_of_lt_of_le h3 (by decide))))⟩
  rw [sve_of n (useWindow_sve ..), sve_of n (sveLine_sve ..), sve_of n (ev_sve ..), sve_modSve]

theorem completes_tableSwap :
    ∀ (n : Fin 5) (s : State), s.sve[n].pend = true → heldBlk .sve n s = false → s.sve[n].run = false →
    s.sve[n].unitPend = none → s.sve[n].mailPend = false →
    ∃ t, exec (.tableSwap n) s = .next t ∧ t.sve[n].active = s.sve[n].shadow ∧ t.sve[n].shadow = s.sve[n].active ∧
    t.sve[n].pend = false ∧ t.sve[n].res = 1 := by
  intro n s h1 h2 h3 h4 h5
  refine ⟨_, rfl, ?_⟩
  rw [if_pos (by rw [h1, h2]; rfl)]
  have e : sampleBound n s = swapTables n s := by
    unfold sampleBound
    have : applyUnit n s = s := by unfold applyUnit; rw [h4]
    rw [this]; dsimp only; rw [h5, if_neg Bool.false_ne_true, h1, if_pos rfl]
  have e2 : (swapTables n s).sve[n] = { s.sve[n] with active := s.sve[n].shadow, shadow := s.sve[n].active, pend := false, res := 1, static_ := staticLat s.sve[n].shadow } := by
    unfold swapTables
    dsimp only
    rw [sve_of n (sveLine_sve ..), sve_modSve]
  dsimp only
  rw [e, e2, if_neg (by show ¬ s.sve[n].run = true; rw [h3]; simp), e2]
  exact ⟨rfl, rfl, rfl, rfl⟩

theorem completes_mailCommit :
    ∀ (m : Master) (n : Fin 5) (s : State), Reach .sve n s →
    ∃ t, exec (.mailCommit m n) s = .next t ∧ t.sve[n] = { s.sve[n] with mailPend := true } := by
  intro m n s h
  refine ⟨_, rfl, ?_⟩
  rw [access_reach h, sve_of n (useWindow_sve ..)]
  unfold mailCommit
  rw [sve_modSve]

theorem completes_engineRun :
    ∀ (m : Master) (n : Fin 5) (v : Word) (s : State), Reach .sve n s → v.toNat.testBit 31 = true → s.sve[n].swapped = true →
    s.sve[n].retract = false → s.sve[n].run = false →
    ∃ t, exec (.engineRun m n v) s = .next t ∧ t.sve[n].run = true := by
  intro m n v s h h1 h2 h3 h4
  refine ⟨_, rfl, ?_⟩
  rw [access_reach h, sve_of n (useWindow_sve ..)]
  unfold writeSveCfg
  have e : (setReg .sveCfg n 0 (v.toNat % 2 ^ 16) s).sve = s.sve := rfl
  dsimp only
  rw [if_pos h1, sve_of n e, h2, h3, h4, if_pos (by rfl)]
  unfold engineStart
  dsimp only
  rw [prePhase_run, sve_modSve]

theorem completes_engineRunRefused :
    ∀ (m : Master) (n : Fin 5) (v : Word) (s : State), Reach .sve n s → v.toNat.testBit 31 = true →
    (s.sve[n].swapped = false ∨ s.sve[n].retract = true) →
    ∃ t, exec (.engineRun m n v) s = .next t ∧ t.sve = s.sve := by
  intro m n v s h h1 h2
  refine ⟨_, rfl, ?_⟩
  rw [access_reach h, useWindow_sve]
  unfold writeSveCfg
  have e : (setReg .sveCfg n 0 (v.toNat % 2 ^ 16) s).sve = s.sve := rfl
  dsimp only
  rw [if_pos h1, if_neg]
  · rfl
  · rw [sve_of n e]; rcases h2 with k | k <;> rw [k] <;> simp only [Bool.false_and, Bool.and_false, Bool.not_true, Bool.false_eq_true, not_false_eq_true]

theorem completes_engineStop :
    ∀ (m : Master) (n : Fin 5) (v : Word) (s : State), Reach .sve n s → v.toNat.testBit 31 = false → s.sve[n].run = true →
    s.sve[n].loaded = false →
    ∃ t, exec (.engineRun m n v) s = .next t ∧ t.sve[n] = { s.sve[n] with run := false, onTrack := false } := by
  intro m n v s h h1 h2 h3
  refine ⟨_, rfl, ?_⟩
  rw [access_reach h, sve_of n (useWindow_sve ..)]
  unfold writeSveCfg
  have e : (setReg .sveCfg n 0 (v.toNat % 2 ^ 16) s).sve = s.sve := rfl
  dsimp only
  rw [if_neg (by rw [h1]; simp), if_pos (by rw [sve_of n e]; exact h2)]
  have k : ((setReg .sveCfg n 0 (v.toNat % 2 ^ 16) s).modSve n fun v => { v with run := false, onTrack := false }).sve[n] = { s.sve[n] with run := false, onTrack := false } := by
    rw [sve_modSve, sve_of n e]
  split
  · split
    · rename_i hl
      rw [sve_of n e, h3] at hl; exact absurd hl (by simp)
    · exact k
  · exact k

theorem completes_seekTimeout :
    ∀ (n : Fin 4) (s : State), s.sve[sveOf n].seeking = true → s.sve[sveOf n].move = .none →
    ∃ t, exec (.seekTimeout n) s = .next t ∧ t.sve[sveOf n].seeking = false ∧ t.sve[sveOf n].seekOk = false ∧
    t.us = max s.us (s.sve[sveOf n].seekUs + 10 * fld .seekcfg n 0 31 16 s) := by
  intro n s h1 h2
  refine ⟨_, rfl, ?_⟩
  dsimp only
  rw [if_pos (by rw [h1]; rfl)]
  have ha : (advanceTo (s.sve[sveOf n].seekUs + 10 * fld .seekcfg n 0 31 16 s) s).sve = s.sve := frame_advanceTo _ _ (m := 0x7800000B12) .refl rfl .sve rfl
  have hus := advanceTo_us (s.sve[sveOf n].seekUs + 10 * fld .seekcfg n 0 31 16 s) s
  generalize advanceTo (s.sve[sveOf n].seekUs + 10 * fld .seekcfg n 0 31 16 s) s = u at *
  have k : (abandonMoves n 0 u).us = u.us := frame_abandonMoves _ _ _ (m := 0x1811102100) .refl rfl .us rfl
  unfold abandonMoves at k ⊢
  dsimp only at k ⊢
  rw [sve_of _ ha, h2, h1, if_neg (by simp), if_pos (by rfl)] at k
  rw [sve_of _ ha, h2, h1, if_neg (by simp), if_pos (by rfl), seekEnd_sve, k]
  exact ⟨rfl, rfl, hus⟩

theorem completes_shockConversion :
    ∀ (n : Fin 4) (axis : Fin 2) (val : Int) (s : State), sveLive n s = true → optical s = false →
    s.sve[sveOf n].shockIgn[axis] = false → val.natAbs ≤ fld .shock n 0 31 16 s →
    ∃ t, exec (.shockConversion n axis val) s = .next t ∧
    t.sve[sveOf n].shockWarn[axis] = decide (fld .shock n 0 15 0 s < val.natAbs) := by
  intro n axis val s h1 h2 h3 h4
  refine ⟨_, rfl, ?_⟩
  dsimp only
  rw [if_pos (by rw [h1, h2, h3]; rfl)]
  rw [if_neg (by
    have : ∀ u : State, u.regs = s.regs → fld .shock n 0 31 16 u = fld .shock n 0 31 16 s := fun u h => by unfold fld; rw [reg_congr h]
    rw [this]
    · omega
    · split <;> rfl)]
  have k : ∀ (b : Bool) (u : State), (if b = true then sveLine n 6 u else u).sve = u.sve := by
    intro b u; split
    · exact sveLine_sve ..
    · rfl
  rw [sve_of _ (k _ _), sve_modSve]
  simp

theorem completes_shockSensorFault :
    ∀ (n : Fin 4) (axis : Fin 2) (s : State), sveLive n s = true → optical s = false →
    s.sve[sveOf n].shockIgn[axis] = false → EventRoom s →
    ∃ t, exec (.shockSensorFault n axis) s = .next t ∧ t.sve[sveOf n].shockIgn[axis] = true ∧
    t.sve[sveOf n].shockWarn[axis] = false ∧ Recorded 0x0613 t := by
  intro n axis s h1 h2 h3 h4
  refine ⟨_, rfl, ?_⟩
  dsimp only
  rw [if_pos (by rw [h1, h2, h3]; rfl)]
  rw [sve_of _ (ev_sve ..), sve_modSve]
  exact ⟨by simp, by simp, recorded_ev (by unfold EventRoom at h4; exact Nat.lt_of_lt_of_le h4 (by decide))⟩

theorem completes_cdaShort :
    ∀ (n k : Fin 4) (s : State), chanExists n s = true → chanOn n s = true → s.sve[sveOf n].cdaFault.contains k.val = false →
    2 ≤ k.val →
    ∃ t, exec (.cdaShort n k) s = .next t ∧ k.val ∈ t.sve[sveOf n].cdaFault ∧
    (k.val = 2 → t.sve[sveOf n].unloading = s.sve[sveOf n].loaded ∧ t.sve[sveOf n].onTrack = false) := by
  intro n k s h1 h2 h3 h4
  refine ⟨_, rfl, ?_⟩
  dsimp only
  rw [if_pos (by rw [h1, h2, h3]; rfl), if_neg (by omega)]
  have e : ∀ u : State, (faultDecision n 0x0612 u).sve[sveOf n] = u.sve[sveOf n] := fun u => sve_of _ (frame_faultDecision _ _ _ (m := 0x1A0CB22180) .refl rfl .sve rfl)
  split
  · rw [sve_modSve, e, sve_of _ (ev_sve ..), sve_modSve]
    exact ⟨mem_insertNat.mpr (.inl rfl), fun _ => ⟨rfl, rfl⟩⟩
  · rename_i hk
    rw [e, sve_of _ (ev_sve ..), sve_modSve]
    exact ⟨mem_insertNat.mpr (.inl rfl), fun h => absurd h hk⟩

theorem completes_retractGo :
    ∀ (m : Master) (n : Fin 4) (s : State), Reach .sve n s → s.sve[sveOf n].retract = false →
    ∃ t, exec (.retractGo m n) s = .next t ∧ t.sve[sveOf n].retract = true ∧ t.sve[sveOf n].run = false ∧
    t.sve[sveOf n].onTrack = false ∧ t.sve[sveOf n].hold = false ∧ t.sve[sveOf n].cda[1] = 0x8000 := by
  intro m n s h h1
  refine ⟨_, rfl, ?_⟩
  rw [access_reach h, sve_of _ (useWindow_sve ..)]
  exact retractStart_sve n 4 h1

theorem completes_retractEnd :
    ∀ (n : Fin 4) (s : State), s.sve[sveOf n].retract = true → s.sup.loss = false →
    ∃ t, exec (.retractEnd n) s = .next t ∧ t.sve[sveOf n].retract = false ∧ t.sve[sveOf n].loaded = false ∧
    t.sve[sveOf n].cda[0] = 0x8000 ∧
    t.us = max s.us (s.sve[sveOf n].retAt + 1000 * zeroAsOne (fld .retractReg n 0 23 16 s)) := by
  intro n s h1 h2
  refine ⟨_, rfl, ?_⟩
  have ha : (advanceTo (s.sve[sveOf n].retAt + 1000 * zeroAsOne (fld .retractReg n 0 23 16 s)) s).sve = s.sve := frame_advanceTo _ _ (m := 0x7800000B12) .refl rfl .sve rfl
  have hs : (advanceTo (s.sve[sveOf n].retAt + 1000 * zeroAsOne (fld .retractReg n 0 23 16 s)) s).sup = s.sup := frame_advanceTo _ _ (m := 0x7800000B12) .refl rfl .sup rfl
  have hus := advanceTo_us (s.sve[sveOf n].retAt + 1000 * zeroAsOne (fld .retractReg n 0 23 16 s)) s
  have hr : retractEnd n s = (advanceTo (s.sve[sveOf n].retAt + 1000 * zeroAsOne (fld .retractReg n 0 23 16 s)) s).modSve (sveOf n) fun v => { v with
        retract := false, loaded := false, unloading := false, tracked := none
        cda := (v.cda.set 0 0x8000).set 2 (if v.cdaFault.contains 2 then v.cda[2] else 0x8000) } := by
    unfold retractEnd; dsimp only; rw [if_pos h1]
  generalize advanceTo (s.sve[sveOf n].retAt + 1000 * zeroAsOne (fld .retractReg n 0 23 16 s)) s = u at *
  have hl : lossEnd (retractEnd n s) = retractEnd n s := by
    unfold lossEnd
    rw [hr, show ∀ f, (u.modSve (sveOf n) f).sup = u.sup from fun _ => rfl, hs, h2]; rfl
  rw [hl, hr, sve_modSve]
  refine ⟨rfl, rfl, ?_, hus⟩
  simp

theorem completes_focusLost :
    ∀ (n : Fin 4) (s : State), s.sve[sveOf n].hold = true →
    ∃ t, exec (.focusLost n) s = .next t ∧ t.sve[sveOf n].hold = false ∧ t.sve[sveOf n].loaded = false ∧
    t.sve[sveOf n].onTrack = false ∧ t.us = max s.us (s.sve[sveOf n].holdUs + min 400 (zeroAsOne (fld .holdReg n 0 8 0 s))) := by
  intro n s h1
  refine ⟨_, rfl, ?_⟩
  dsimp only
  rw [if_pos h1]
  have ha : (advanceTo (s.sve[sveOf n].holdUs + min 400 (zeroAsOne (fld .holdReg n 0 8 0 s))) s).sve = s.sve := frame_advanceTo _ _ (m := 0x7800000B12) .refl rfl .sve rfl
  have hus := advanceTo_us (s.sve[sveOf n].holdUs + min 400 (zeroAsOne (fld .holdReg n 0 8 0 s))) s
  generalize advanceTo (s.sve[sveOf n].holdUs + min 400 (zeroAsOne (fld .holdReg n 0 8 0 s))) s = u at *
  rw [sve_of _ (sveLine_sve ..), sve_of _ (ev_sve ..)]
  generalize hv : (setFocused n false _) = v
  have kv : v.sve[sveOf n].hold = false ∧ v.sve[sveOf n].loaded = false ∧ v.sve[sveOf n].onTrack = false ∧ v.us = u.us := by
    rw [← hv]
    have f1 : ∀ w : State, (setFocused n false w).sve[sveOf n] = w.sve[sveOf n] := fun w => sve_of _ (frame_setFocused _ _ _ (m := 0x10000100) .refl rfl .sve rfl)
    have f2 : ∀ w : State, (setFocused n false w).us = w.us := fun w => frame_setFocused _ _ _ (m := 0x10000100) .refl rfl .us rfl
    have f3 : ∀ (g : Pickup → Pickup) (w : State), (w.modPu n g).sve[sveOf n] = w.sve[sveOf n] ∧ (w.modPu n g).us = w.us := fun _ _ => ⟨rfl, rfl⟩
    rw [f1, f2, (f3 _ _).1, (f3 _ _).2, sve_modSve]
    exact ⟨rfl, rfl, rfl, rfl⟩
  clear hv
  obtain ⟨a, b, c, d, e⟩ := abandonMoves_sve n 1 v
  rw [e]
  refine ⟨kv.1, kv.2.1, kv.2.2.1, ?_⟩
  rw [← hus, ← kv.2.2.2]
  unfold sveLine
  rw [raiseLine_us, ev_us]
  exact frame_abandonMoves _ _ _ (m := 0x1811102100) .refl rfl .us rfl

theorem completes_jumpGo :
    ∀ (m : Master) (n : Fin 4) (v : Word) (s : State), Reach .sve n s → optical s = true → s.sve[sveOf n].retract = false →
    s.sve[sveOf n].move = .none →
    ∃ t, exec (.jumpGo m n v) s = .next t ∧ t.sve[sveOf n].move ≠ .none ∧ t.sve[sveOf n].onTrack = false ∧
    t.sve[sveOf n].seekOk = false ∧ t.sve[sveOf n].seekUs = s.us := by
  intro m n v s h h1 h2 h3
  refine ⟨_, rfl, ?_⟩
  rw [access_reach h, sve_of _ (useWindow_sve ..)]
  unfold writeJump
  dsimp only
  have e : ∀ x, (storeFields .jumpReg n 0 x s).sve = s.sve ∧ (storeFields .jumpReg n 0 x s).sys = s.sys ∧ (storeFields .jumpReg n 0 x s).us = s.us := fun x =>
    ⟨frame_storeFields _ _ _ _ s (m := 0x1800000110) .refl rfl .sve rfl, frame_storeFields _ _ _ _ s (m := 0x1800000110) .refl rfl .sys rfl, frame_storeFields _ _ _ _ s (m := 0x1800000110) .refl rfl .us rfl⟩
  have ho : ∀ x, optical (storeFields .jumpReg n 0 x s) = true := fun x => by unfold optical at h1 ⊢; rw [(e x).2.1]; exact h1
  rw [if_pos (by rw [orbit31, ho, sve_of _ (e _).1, h2, h3]; rfl)]
  unfold jumpStart
  dsimp only
  rw [sve_modSve]
  exact ⟨by simp, rfl, rfl, (e _).2.2⟩

theorem completes_focusSweepGo :
    ∀ (m : Master) (n : Fin 4) (v : Word) (s : State), Reach .sve n s → optical s = true → s.sve[sveOf n].retract = false →
    ∃ t, exec (.focusSweepGo m n v) s = .next t ∧ (∃ c, t.sve[sveOf n].move = .sweep c ∧ t.sve[sveOf n].cda[0] = c) ∧
    t.sve[sveOf n].onTrack = false := by
  intro m n v s h h1 h2
  refine ⟨_, rfl, ?_⟩
  rw [access_reach h, sve_of _ (useWindow_sve ..)]
  unfold writeSweep
  dsimp only
  have e : ∀ x, (storeFields .fsweep1 n 0 x s).sve = s.sve ∧ (storeFields .fsweep1 n 0 x s).sys = s.sys := fun x =>
    ⟨frame_storeFields _ _ _ _ s (m := 0x1800000110) .refl rfl .sve rfl, frame_storeFields _ _ _ _ s (m := 0x1800000110) .refl rfl .sys rfl⟩
  have ho : ∀ x, optical (storeFields .fsweep1 n 0 x s) = true := fun x => by unfold optical at h1 ⊢; rw [(e x).2]; exact h1
  rw [if_pos (by rw [orbit31, ho, sve_of _ (e _).1, h2]; rfl)]
  unfold sweepStart
  dsimp only
  rw [sve_modSve]
  exact ⟨⟨_, rfl, by simp⟩, rfl⟩

theorem completes_traceStart :
    ∀ (m : Master) (n : Fin 5) (v : Word) (s : State), Reach .sve n s → v.toNat.testBit 30 = false →
    ∃ t, exec (.traceStart m n v) s = .next t ∧ t.sve[n].trRun = true ∧ t.sve[n].trTrig = false ∧ t.sve[n].trIdx = 0 ∧
    t.sve[n].trNext = 0 ∧ t.sve[n].trWrap = false := by
  intro m n v s h h1
  refine ⟨_, rfl, ?_⟩
  rw [access_reach h, sve_of _ (useWindow_sve ..)]
  unfold writeTrctl
  dsimp only
  have hb : (v.toNat ||| 2 ^ 31).testBit 30 = false := by rw [Nat.testBit_or, h1]; rfl
  rw [hb, if_neg Bool.false_ne_true, if_pos (orbit31 _), sve_modSve]
  exact ⟨rfl, rfl, rfl, rfl, rfl⟩

theorem completes_traceStop :
    ∀ (m : Master) (n : Fin 5) (v : Word) (s u : State), Reach .sve n s → v.toNat.testBit 31 = false →
    s.sve[n].trRun = true → s.sve[n].trTrig = false → u = storeFields .trctl n 0 (v.toNat ||| 2 ^ 30) s →
    fld .trctl n 0 29 28 u ≠ 0 →
    ∃ t, exec (.traceStop m n v) s = .next t ∧ t.sve[n].trTrig = true ∧ t.sve[n].trIdx = s.sve[n].trNext ∧
    t.sve[n].trLeft = fld .trctl n 0 12 0 u := by
  intro m n v s u h h1 h2 h3 hu h4
  refine ⟨_, rfl, ?_⟩
  rw [access_reach h, sve_of _ (useWindow_sve ..)]
  unfold writeTrctl
  dsimp only
  have hb : (v.toNat ||| 2 ^ 30).testBit 31 = false := by rw [Nat.testBit_or, h1]; rfl
  have hc : (v.toNat ||| 2 ^ 30).testBit 30 = true := by rw [Nat.testBit_or, show Nat.testBit (2 ^ 30) 30 = true from rfl, Bool.or_true]
  have hs : u.sve = s.sve := by rw [hu]; exact frame_storeFields _ _ _ _ s (m := 0x1800000110) .refl rfl .sve rfl
  rw [if_pos hc, hb, if_neg Bool.false_ne_true, ← hu]
  unfold traceTake
  dsimp only
  rw [sve_of _ hs, h2, h3, bne_iff_ne.mpr h4, if_pos (by rfl)]
  split
  · rw [sve_of _ (sveLine_sve ..), sve_modSve, sve_of _ hs]; exact ⟨rfl, rfl, rfl⟩
  · rw [sve_modSve, sve_of _ hs]; exact ⟨rfl, rfl, rfl⟩

theorem completes_traceRead :
    ∀ (m : Master) (n : Fin 5) (s : State), Reach .sve n s →
    ∃ t, exec (.traceRead m n) s = .next t ∧ t.busData = sget 0 (s.sve[n].trChan * 8192 + s.sve[n].trAddr) s.sve[n].trace ∧
    t.sve[n].trAddr = (if s.sve[n].trInc = true then (s.sve[n].trAddr + 1) % 8192 else s.sve[n].trAddr) := by
  intro m n s h
  refine ⟨_, rfl, ?_⟩
  rw [access_reach h, sve_of _ (useWindow_sve ..)]
  unfold readTrdata
  dsimp only
  rw [sve_modSve]
  exact ⟨by rw [useWindow_busData], rfl⟩

theorem completes_start :
    ∀ (m : Master) (s : State), Reach .spn 0 s → startReason s = 0 → s.clk.xo40failed = false → s.spn.turning = false → EventRoom s →
    ∃ t, exec (.start m) s = .next t ∧ t.spn.state = .align ∧ t.spn.attempt = 1 ∧ t.spn.step = 0 ∧
    t.spn.gates = stepGates 0 s ∧ Recorded 0x0701 t := by
  intro m s h h1 hx h2 h3
  refine ⟨_, rfl, ?_⟩
  rw [spnCmd_run h]
  rw [show writeSpnCmd 1 s = spnStart s from rfl]
  unfold spnStart
  dsimp only
  rw [h1, if_neg (by simp), hx, if_neg (by simp), h2, if_neg (by simp)]
  unfold alignStart
  dsimp only
  refine ⟨?_, ?_, ?_, ?_, recorded_useWindow.mpr (recorded_here h3)⟩
  all_goals rw [useWindow_spn, ev_spn]; rfl

theorem completes_startTurning :
    ∀ (m : Master) (s : State), Reach .spn 0 s → startReason s = 0 → s.clk.xo40failed = false → s.spn.turning = true →
    ∃ t, exec (.start m) s = .next t ∧ t.spn.state = .recover ∧ t.spn.gates = 0 ∧ t.spn.locked = false ∧ t.spn.lostAt = now s := by
  intro m s h h1 hx h2
  refine ⟨_, rfl, ?_⟩
  rw [spnCmd_run h, useWindow_spn]
  rw [show writeSpnCmd 1 s = spnStart s from rfl]
  unfold spnStart
  dsimp only
  rw [h1, if_neg (by simp), hx, if_neg (by simp), h2, if_pos rfl]
  exact ⟨rfl, rfl, rfl, rfl⟩

theorem completes_startRefused :
    ∀ (m : Master) (s : State), Reach .spn 0 s → startReason s ≠ 0 → EventRoom s →
    ∃ t, exec (.start m) s = .next t ∧ t.spn = s.spn ∧ Recorded 0x0704 t := by
  intro m s h h1 h3
  refine ⟨_, rfl, ?_⟩
  rw [spnCmd_run h, useWindow_spn]
  rw [show writeSpnCmd 1 s = spnStart s from rfl]
  unfold spnStart
  dsimp only
  rw [if_pos h1]
  unfold spnRefuse
  exact ⟨by unfold blockErrorP; rw [ev_spn]; rfl, recorded_useWindow.mpr (recorded_here h3)⟩

theorem completes_brake :
    ∀ (m : Master) (s : State), Reach .spn 0 s → s.spn.state = .atSpeed → s.spn.brk = none →
    ∃ t, exec (.brake m) s = .next t ∧ t.spn.unlReq = true ∧ t.spn.brk = some .unload ∧ t.spn.brkCause = 0 ∧
    t.spn.state = .atSpeed := by
  intro m s h h1 h2
  refine ⟨_, rfl, ?_⟩
  rw [spnCmd_run h, useWindow_spn]
  rw [show writeSpnCmd 2 s = spnBrake s from rfl]
  unfold spnBrake
  rw [h1, h2, if_neg (by simp)]
  dsimp only
  unfold askBrake
  rw [requestUnload_spn]
  exact ⟨rfl, rfl, rfl, h1⟩

theorem completes_brakeEntry :
    ∀ s : State, spnLive s = true → anyLoaded s = false → s.spn.brk = some .unload → EventRoom s →
    ∃ t, exec .brakeEntry s = .next t ∧ t.spn.state = .brake ∧ t.spn.locked = false ∧ t.spn.brkAt = now s ∧
    (s.spn.chopFlt = true → t.spn.gates = shortGates s) ∧ Recorded 0x0750 t := by
  intro s h1 h2 h3 h4
  refine ⟨_, rfl, ?_⟩
  rw [if_pos (by rw [h1, h2]; rfl), h3]
  dsimp only
  have hr : Recorded 0x0750 (ev .spn 0x0750 s.spn.brkCause (spnRpm s) 0 s) := recorded_here h4
  have hc : (ev .spn 0x0750 s.spn.brkCause (spnRpm s) 0 s).spn = s.spn := ev_spn ..
  have hn : now (ev .spn 0x0750 s.spn.brkCause (spnRpm s) 0 s) = now s := by unfold now; rw [ev_us]
  generalize ev .spn 0x0750 s.spn.brkCause (spnRpm s) 0 s = u at *
  rw [hc]
  by_cases k : s.spn.chopFlt = true
  · rw [if_pos k, if_pos rfl]
    refine ⟨rfl, rfl, hn, fun _ => ?_, recorded_modSpn.mpr (recorded_modSpn.mpr hr)⟩
    unfold shortGates; dsimp only [State.modSpn]; rw [hc]
  · rw [if_neg k]
    split
    · exact ⟨rfl, rfl, hn, fun h => absurd h k, recorded_modSpn.mpr (recorded_modSpn.mpr hr)⟩
    · exact ⟨rfl, rfl, hn, fun h => absurd h k, recorded_modSpn.mpr (recorded_modSpn.mpr hr)⟩

theorem completes_coast :
    ∀ (m : Master) (s : State), Reach .spn 0 s → s.spn.state = .atSpeed → EventRoom s →
    ∃ t, exec (.coast m) s = .next t ∧ t.spn.state = .coast ∧ t.spn.gates = 0 ∧ t.spn.locked = false ∧ t.spn.brk = none ∧
    Recorded 0x0750 t := by
  intro m s h h1 h4
  refine ⟨_, rfl, ?_⟩
  rw [spnCmd_run h, useWindow_spn]
  rw [show writeSpnCmd 4 s = spnCoast s from rfl]
  unfold spnCoast
  rw [h1]
  dsimp only
  unfold coastFrom
  dsimp only
  refine ⟨rfl, rfl, rfl, rfl, ?_⟩
  simp only [recorded_modSpn, recorded_raiseLine, recorded_useWindow]; exact recorded_here (by assumption)

theorem completes_clrf :
    ∀ (m : Master) (s : State), Reach .spn 0 s → s.spn.state = .faulted → s.spn.turning = false →
    ∃ t, exec (.clrf m) s = .next t ∧ t.spn = { s.spn with latched := false, chopFlt := false, state := .stopped, openPhase := none } := by
  intro m s h h1 h2
  refine ⟨_, rfl, ?_⟩
  rw [spnCmd_run h, useWindow_spn]
  rw [show writeSpnCmd 8 s = spnClrf s from rfl]
  unfold spnClrf
  dsimp only
  rw [if_pos (by rw [h1, h2]; rfl)]
  rfl

theorem completes_alignDone :
    ∀ s : State, spnLive s = true → s.spn.state = .align →
    ∃ t, exec .alignDone s = .next t ∧ t.spn.state = .openLoop ∧ t.spn.openAt = s.us ∧ t.spn.turning = true := by
  intro s h1 h2
  refine ⟨_, rfl, ?_⟩
  rw [if_pos (by rw [h1, h2]; rfl)]
  exact ⟨rfl, rfl, rfl⟩

theorem completes_spinupAttemptTimeout :
    ∀ s : State, spnLive s = true → s.spn.state = .openLoop →
    ∃ t, exec .spinupAttemptTimeout s = .next t ∧ t.us = max s.us (s.spn.openAt + 1000000) ∧
    (s.spn.attempt < 3 → t.spn.state = .align ∧ t.spn.attempt = s.spn.attempt + 1) ∧
    (3 ≤ s.spn.attempt → t.spn.state = .faulted ∧ t.spn.latched = true ∧ t.spn.gates = 0 ∧ t.spn.cause = 3) := by
  intro s h1 h2
  have hc : (spnLive s && s.spn.state == .openLoop) = true := by rw [h1, h2]; rfl
  obtain ⟨q, e, k⟩ := exec_attemptTimeout s hc
  rw [← e]
  exact ⟨_, k, attempt_ends_at q s _ rfl⟩

theorem completes_pwmCentre :
    ∀ (iu iv : Int) (vmot : Nat) (s : State), spnLive s = true → s.spn.duty = 0 → s.spn.shift = false →
    ∃ t, exec (.pwmCentre iu iv vmot false) s = .next t ∧ t.spn.vmot = vmot ∧ t.spn.pred = 0 ∧
    t.spn.duty ≤ fld .pwmcfg 0 0 7 0 s * 128 := by
  intro iu iv vm s h1 h2 h3
  refine ⟨_, rfl, ?_⟩
  rw [if_pos h1]
  have hw : ∀ u : State, sampleWindow u < 2500 := by
    intro u
    unfold sampleWindow fld
    have : bits (reg .pwmcfg 0 0 u) 31 24 < 256 := by unfold bits; exact Nat.mod_lt _ (by decide)
    omega
  have hs : ∃ w o, (shiftStep (s.modSpn fun v => { v with vmot := vm })) = s.modSpn fun v => { v with vmot := vm, wide := w, shift := false, odd := o } := by
    unfold shiftStep
    rw [if_neg]
    · refine ⟨0, !s.spn.odd, ?_⟩
      simp only [State.modSpn, h3, Bool.false_and]
      simp
    · have hv := hw (s.modSpn fun v => { v with vmot := vm })
      unfold freeLack freeInterval
      rw [show (s.modSpn fun v => { v with vmot := vm }).spn.duty = 0 from h2]
      generalize sampleWindow (s.modSpn fun v => { v with vmot := vm }) = y at *
      omega
  obtain ⟨w, o, e⟩ := hs
  rw [e]
  generalize hu : (s.modSpn fun v => { v with vmot := vm, wide := w, shift := false, odd := o }) = u
  have k1 : u.spn.vmot = vm ∧ u.spn.shift = false ∧ u.regs = s.regs := by rw [← hu]; exact ⟨rfl, rfl, rfl⟩
  clear hu e
  dsimp only
  have k0 : shiftShort u = false := by unfold shiftShort; rw [k1.2.1]; rfl
  rw [k1.2.1, k0]
  simp only [Bool.false_and, Bool.or_self, Bool.false_eq_true, if_false]
  generalize hv : (u.modSpn fun v => { v with pred := 0 }) = v
  have k2 : v.spn.vmot = vm ∧ v.spn.pred = 0 ∧ v.regs = s.regs := by rw [← hv]; exact ⟨k1.1, rfl, k1.2.2⟩
  clear hv
  have k3 : ∀ a b c d, (spindleSample (spnInputs a b c d v)).spn = v.spn ∧ (spindleSample (spnInputs a b c d v)).regs = v.regs := fun a b c d =>
    ⟨frame_spindleSample _ (m := 0x1102080) (frame_spnInputs _ _ _ _ _ .refl rfl) rfl .spn rfl, frame_spindleSample _ (m := 0x1102080) (frame_spnInputs _ _ _ _ _ .refl rfl) rfl .regs rfl⟩
  have k4 := k3 iu iv (phaseCur (commHi u.spn.step u) iu iv) false
  generalize spindleSample (spnInputs iu iv (phaseCur (commHi u.spn.step u) iu iv) false v) = x at *
  generalize (phaseCur (commHi u.spn.step u) iu iv) = il
  have k5 : (limitDuty il x).spn.vmot = vm ∧ (limitDuty il x).spn.pred = 0 ∧ (limitDuty il x).spn.duty ≤ fld .pwmcfg 0 0 7 0 s * 128 := by
    unfold limitDuty
    dsimp only [State.modSpn]
    refine ⟨k4.1 ▸ k2.1, k4.1 ▸ k2.2.1, ?_⟩
    rw [show fld .pwmcfg 0 0 7 0 x = fld .pwmcfg 0 0 7 0 s by unfold fld; rw [reg_congr (k4.2.trans k2.2.2)]]
    split
    all_goals exact min_le_right _ _
  obtain ⟨b, g, eb⟩ := brakeSpeed_spn (limitDuty il x)
  rw [eb]
  exact k5

theorem completes_bemfCrossing :
    ∀ (period : Nat) (s : State), spnLive s = true → s.spn.turning = true → s.spn.state = .openLoop →
    s.spn.period = 0xFFFFFF →
    ∃ t, exec (.bemfCrossing period (commSlope s.spn.step s)) s = .next t ∧ t.spn.period = min period 0xFFFFFE ∧
    t.spn.qual = 0 ∧ t.spn.opp = 0 := by
  intro p s h1 h2 h3 h4
  refine ⟨_, rfl, ?_⟩
  dsimp only
  rw [h1, h2, h3, h4]
  simp only [Bool.not_true, Bool.or_self, Bool.false_eq_true, if_false, beq_self_eq_true, bne_self_eq_false, Bool.and_false,
    Bool.true_or, Bool.true_and, Bool.false_and, Bool.or_false]
  exact ⟨rfl, rfl, rfl⟩

theorem completes_commutation :
    ∀ s : State, spnLive s = true → s.spn.state = .atSpeed → spnDriving s = true →
    ∃ t, exec (.commutation false) s = .next t ∧ t.spn.step = (s.spn.step + 1) % 6 ∧
    t.spn.gates = stepGates ((s.spn.step + 1) % 6) s := by
  intro s h1 h2 hd
  refine ⟨_, rfl, ?_⟩
  rw [h1, hd, h2, if_pos (by rfl)]
  dsimp only
  rw [if_neg Bool.false_ne_true, h2, if_neg (by decide)]
  simp only [State.modSpn, h2]
  rw [if_neg (by rw [show (SpnState.atSpeed == SpnState.rectify) = false from rfl]; simp)]
  exact ⟨rfl, rfl⟩

theorem completes_floatPeriodEnd :
    ∀ (k : Fin 6) (period : Nat) (s : State), spnLive s = true → s.spn.state = .rectify → s.spn.gates = 0 →
    s.spn.unlReq = true →
    ∃ t, exec (.floatPeriodEnd (some (k, period))) s = .next t ∧ t.spn.step = k.val ∧ t.spn.period = min period 0xFFFFFE ∧
    t.spn.gates = stepGates k.val s := by
  intro k p s h1 h2 h3 h4
  refine ⟨_, rfl, ?_⟩
  dsimp only
  rw [h1, h2, h3, if_neg (by simp), if_neg (by rw [show (SpnState.rectify == SpnState.recover) = false from rfl]; simp), if_pos (by rfl)]
  have e : ∀ (w : Nat) (u : State), u.spn.unlReq = true → unloadCheck w u = u := by
    intro w u hu; unfold unloadCheck; dsimp only; rw [hu, if_neg (by simp)]
  rw [e _ (s.modSpn fun v => { v with period := min p 0xFFFFFE, step := k.val, unqual := 0 }) h4]
  exact ⟨rfl, rfl, rfl⟩

theorem completes_recoveryTimeout :
    ∀ s : State, spnLive s = true → s.spn.brk = none → s.spn.state = .recover → dirtySectors s = false →
    ∃ t, exec .recoveryTimeout s = .next t ∧ t.spn.cause = 0x32 ∧ t.spn.brk = some .unload ∧ t.spn.unlReq = true ∧
    t.spn.gates = 0 := by
  intro s h1 h2 h3 h4
  refine ⟨_, rfl, ?_⟩
  dsimp only
  rw [if_pos (by rw [h1, h2, h3]; rfl)]
  have ha : (advanceTo ((s.spn.lostAt + zeroAsOne (fld .lockcfg 0 0 22 16 s)) * 1000) s).lgr = s.lgr := frame_advanceTo _ _ (m := 0x7800000B12) .refl rfl .lgr rfl
  generalize advanceTo ((s.spn.lostAt + zeroAsOne (fld .lockcfg 0 0 22 16 s)) * 1000) s = u at *
  unfold recoveryFails
  dsimp only
  have hd : ∀ v : State, v.lgr = s.lgr → dirtySectors v = false := fun v hv => by unfold dirtySectors at h4 ⊢; rw [hv]; exact h4
  rw [if_neg (by rw [hd _ (by simp only [State.modSpn]; rw [raiseLine_lgr, ev_lgr, ha])]; simp)]
  unfold askBrake
  rw [requestUnload_spn]
  exact ⟨rfl, rfl, rfl, rfl⟩

theorem completes_motorRailThreshold :
    ∀ (mv : Nat) (s : State),
    ∃ t, exec (.motorRailThreshold mv) s = .next t ∧ t.spn.vmot = mv ∧
    (pdOn 13 s = true → (13800 ≤ mv → s.spn.chopFlt = false → t.spn.chopOn = true) ∧ (mv ≤ 13200 → t.spn.chopOn = false) ∧
      (13200 < mv → mv < 13800 → t.spn.chopOn = s.spn.chopOn)) ∧
    (pdOn 13 s = false → t.spn = { s.spn with vmot := mv }) := by
  intro mv s
  refine ⟨_, rfl, ?_⟩
  dsimp only
  have hp : pdOn 13 (s.modSpn fun v => { v with vmot := mv }) = pdOn 13 s := rfl
  rw [hp]
  cases h1 : pdOn 13 s
  · rw [if_neg Bool.false_ne_true]
    exact ⟨rfl, fun h => absurd h Bool.false_ne_true, fun _ => rfl⟩
  · rw [if_pos rfl]
    refine ⟨rfl, fun _ => ⟨fun a b => ?_, fun a => ?_, fun a b => ?_⟩, fun h => absurd h.symm Bool.false_ne_true⟩
    · dsimp only [State.modSpn]; rw [if_pos a, b]; rfl
    · dsimp only [State.modSpn]; rw [if_neg (by omega), if_pos a]
    · dsimp only [State.modSpn]; rw [if_neg (by omega), if_neg (by omega)]

theorem completes_chopperFault :
    ∀ (mv : Nat) (s : State), spnLive s = true → s.spn.chopOn = true → s.spn.chopFlt = false → s.spn.state ≠ .brake → EventRoom s →
    ∃ t, exec (.chopperFault 0 mv) s = .next t ∧ t.spn.chopFlt = true ∧ t.spn.chopOn = false ∧ t.spn.cause = 0x40 ∧
    379 ∈ t.irq.pending ∧ Recorded 0x0740 t := by
  intro mv s h1 h2 h3 h4 h5
  refine ⟨_, rfl, ?_⟩
  dsimp only
  rw [if_pos (by rw [h1, h3]; simp [h2])]
  rw [if_neg (by
    have : ∀ u : State, u.spn = s.spn → ¬ ((u.modSpn fun v => { v with chopFlt := true, chopOn := false, chopWatch := false, cause := 0x40, vmot := mv }).spn.state == .brake) = true := by
      intro u hu; simp only [State.modSpn]; rw [hu]; simpa using h4
    exact this _ (by rw [raiseLine_spn, ev_spn]))]
  refine ⟨rfl, rfl, rfl, ?_, ?_⟩
  · simp only [State.modSpn, raiseLine]; rw [mem_insertNat]; exact .inl rfl
  · simp only [recorded_modSpn, recorded_raiseLine, recorded_useWindow]; exact recorded_here (by assumption)

theorem completes_chopperConducting :
    ∀ (cur : Nat) (s : State), spnLive s = true → s.spn.chopOn = false → fld .brkcfg 0 0 23 16 s < cur → EventRoom s →
    ∃ t, exec (.chopperConducting cur) s = .next t ∧ t.spn.chopFlt = true ∧ t.spn.cause = 0x41 ∧ 379 ∈ t.irq.pending ∧
    Recorded 0x0741 t := by
  intro cur s h1 h2 h3 h5
  refine ⟨_, rfl, ?_⟩
  rw [if_pos (by rw [h1, h2]; simpa using h3)]
  refine ⟨by rw [raiseLine_spn, ev_spn]; rfl, by rw [raiseLine_spn, ev_spn]; rfl, ?_, ?_⟩
  · simp only [raiseLine]; rw [mem_insertNat]; exact .inl rfl
  · simp only [recorded_modSpn, recorded_raiseLine, recorded_useWindow]; exact recorded_here (by assumption)

theorem completes_railOvervoltage :
    ∀ (mv : Nat) (s : State), s.sys.aux = true → pdOn 13 s = true → 16000 ≤ mv → EventRoom s →
    ∃ t, exec (.railOvervoltage mv) s = .next t ∧ t.spn.state = .faulted ∧ t.spn.latched = true ∧ t.spn.gates = 0 ∧
    t.spn.cause = 0x30 ∧ t.spn.vmot = mv ∧ 380 ∈ t.irq.pending ∧ (s.spn.locked = false → Recorded 0x0C30 t) := by
  intro mv s h0 h1 h2 h5
  refine ⟨_, rfl, ?_⟩
  rw [if_pos (by rw [h0]; simpa using h2)]
  dsimp only
  have hp : pdOn 13 (s.modSpn fun v => { v with vmot := mv }) = pdOn 13 s := rfl
  rw [hp, if_pos h1, raiseLine_spn, ev_spn, spnFault_spn]
  refine ⟨rfl, rfl, rfl, rfl, rfl, ?_, fun h => ?_⟩
  · simp only [raiseLine]; rw [mem_insertNat]; exact .inl rfl
  · rw [recorded_raiseLine]
    refine recorded_ev ?_
    rw [spnFault_evr (c := 0x0C30) (s := s.modSpn fun v => { v with vmot := mv }) h]
    exact Nat.lt_of_lt_of_le h5 (by decide)

theorem completes_railOvervoltageGated :
    ∀ (mv : Nat) (s : State), s.sys.aux = true → pdOn 13 s = false → 16000 ≤ mv → EventRoom s →
    ∃ t, exec (.railOvervoltage mv) s = .next t ∧ t.spn = { s.spn with vmot := mv } ∧ Recorded 0x0C30 t := by
  intro mv s h0 h1 h2 h5
  refine ⟨_, rfl, ?_⟩
  rw [if_pos (by rw [h0]; simpa using h2)]
  dsimp only
  have hp : pdOn 13 (s.modSpn fun v => { v with vmot := mv }) = pdOn 13 s := rfl
  rw [hp, if_neg (by rw [h1]; exact Bool.false_ne_true)]
  exact ⟨by rw [ev_spn]; rfl, recorded_here h5⟩

theorem completes_spnFltNLow :
    ∀ s : State, pdOn 13 s = true →
    ∃ t, exec .spnFltNLow s = .next t ∧ t.spn.state = .faulted ∧ t.spn.latched = true ∧ t.spn.gates = 0 ∧
    t.spn.cause = 0x11 ∧ t.spn.unlReq = true := by
  intro s h1
  refine ⟨_, rfl, ?_⟩
  rw [if_pos h1]
  dsimp only
  rw [requestUnload_spn]
  exact ⟨rfl, rfl, rfl, rfl, rfl⟩

theorem completes_phaseOpen :
    ∀ (ph : Fin 3) (s : State), spnLive s = true → s.spn.state = .atSpeed → spnDriving s = true →
    ∃ t, exec (.phaseOpen ph) s = .next t ∧ t.spn.gates = 0 ∧ t.spn.locked = false ∧ t.spn.cause = 0x10 ∧
    t.spn.unlReq = true ∧ t.spn.brk = some .unload ∧ t.spn.brkCause = 2 := by
  intro ph s h1 h2 hd
  refine ⟨_, rfl, ?_⟩
  rw [if_pos (by rw [h1, hd]; rfl)]
  dsimp only
  rw [h2, if_neg (by rw [show (SpnState.atSpeed == SpnState.align) = false from rfl, show (SpnState.atSpeed == SpnState.openLoop) = false from rfl]; simp)]
  unfold askBrake
  rw [requestUnload_spn]
  exact ⟨rfl, rfl, rfl, rfl, rfl, rfl⟩

theorem completes_phaseOpenInSpinup :
    ∀ (ph : Fin 3) (s : State), spnLive s = true → s.spn.state = .openLoop → spnDriving s = true →
    ∃ t, exec (.phaseOpen ph) s = .next t ∧ t.spn.gates = 0 ∧ t.spn.state = .faulted ∧ t.spn.latched = true ∧
    t.spn.cause = 0x10 ∧ t.spn.unlReq = true := by
  intro ph s h1 h2 hd
  refine ⟨_, rfl, ?_⟩
  rw [if_pos (by rw [h1, hd]; rfl)]
  dsimp only
  rw [h2, if_pos (by rfl), requestUnload_spn]
  exact ⟨rfl, rfl, rfl, rfl, rfl⟩

theorem completes_supplyReversed :
    ∀ (mv : Int) (s : State), mv < -1600 → EventRoom s →
    ∃ t, exec (.supplyReversed mv) s = .next t ∧ t.spn = { s.spn with vin := mv } ∧ Recorded 0x0C20 t := by
  intro mv s h1 h5
  refine ⟨_, rfl, ?_⟩
  dsimp only
  rw [if_pos h1]
  exact ⟨by rw [ev_spn]; rfl, recorded_here (by assumption)⟩

theorem completes_spindleStopped :
    ∀ s : State, spnLive s = true → s.spn.state = .brake → s.spn.brk = some .short → EventRoom s →
    ∃ t, exec .spindleStopped s = .next t ∧ t.spn.state = .stopped ∧ t.spn.gates = 0 ∧ t.spn.turning = false ∧
    t.spn.brk = none ∧ 378 ∈ t.irq.pending ∧ Recorded 0x0751 t := by
  intro s h1 h2 h3 h5
  refine ⟨_, rfl, ?_⟩
  rw [if_pos h1, h2]
  dsimp only
  rw [h3, if_pos (by rfl)]
  refine ⟨rfl, rfl, rfl, rfl, ?_, ?_⟩
  · simp only [State.modSpn, raiseLine]; rw [mem_insertNat]; exact .inl rfl
  · simp only [recorded_modSpn, recorded_raiseLine, recorded_useWindow]; exact recorded_here (by assumption)

theorem completes_rectifyExit :
    ∀ s : State, spnLive s = true → s.spn.state = .rectify → s.rvr.commit = false → anyLoaded s = false →
    ∃ t, exec .rectifyExit s = .next t ∧ t.spn.state = .coast ∧ t.spn.gates = 0 ∧ t.spn.locked = false := by
  intro s h1 h2 h3 h4
  refine ⟨_, rfl, ?_⟩
  rw [if_pos (by rw [h1, h2, h3, h4]; rfl)]
  exact ⟨rfl, rfl, rfl⟩

theorem completes_preampFault :
    ∀ (n : Fin 4) (s : State), chanExists n s = true → pdOn 13 s = true →
    ∃ t, exec (.preampFault n) s = .next t ∧ t.lsr.ch[n].level = .off ∧ t.lsr.ch[n].offHold = true ∧
    t.lsr.ch[n].atPwr = false ∧ t.rwc[n].lg = false := by
  intro n s h1 h2
  refine ⟨_, rfl, ?_⟩
  rw [if_pos (by rw [h1, h2]; rfl)]
  exact laserOff_ch n _

theorem completes_psiFrameDone :
    ∀ (n : Fin 4) (ack : BitVec 2) (data : BitVec 16) (f : Frame) (s : State), s.psi[n].cur = some f → chanExists n s = true →
    pdOn 13 s = true → heldBlk .psi 0 s = false → f.use = .firmware → f.write = false →
    ∃ t, exec (.psiFrameDone n ack data) s = .next t ∧ t.psi[n].cur = (nextFrame s.psi[n].queue).1 ∧
    t.psi[n].queue = (nextFrame s.psi[n].queue).2 ∧ t.psi[n].fwDone = true ∧ t.psi[n].fwBusy = false ∧
    t.psi[n].fwAck = (ack == 2) ∧ t.psi[n].fwData = data.toNat := by
  intro n ack data f s h1 h2 h3 h4 h5 h6
  refine ⟨_, rfl, ?_⟩
  rw [h1]
  dsimp only
  rw [if_pos (by rw [h2, h3, h4]; rfl)]
  unfold frameUsed
  rw [h5]
  dsimp only
  have k : ∀ (b : Bool) (u : State), (if b = true then u else raiseLine 389 (ev .psi 0x0812 n f.addr 0 u)).psi = u.psi := by
    intro b u; split
    · rfl
    · rw [raiseLine_psi, ev_psi]
  rw [psi_of n (raiseLine_psi ..), psi_modPsi, psi_of n (k _ _), psi_modPsi, h6]
  exact ⟨rfl, rfl, rfl, rfl, rfl, rfl⟩

theorem completes_psiFrameNotAcknowledged :
    ∀ (n : Fin 4) (ack : BitVec 2) (data : BitVec 16) (f : Frame) (s : State), s.psi[n].cur = some f → chanExists n s = true →
    pdOn 13 s = true → heldBlk .psi 0 s = false → ack ≠ 2 → f.use = .mode → EventRoom s →
    ∃ t, exec (.psiFrameDone n ack data) s = .next t ∧ t.psi[n].cur = (nextFrame s.psi[n].queue).1 ∧ Recorded 0x0812 t ∧
    389 ∈ t.irq.pending := by
  intro n ack data f s h1 h2 h3 h4 h5 h6 h7
  refine ⟨_, rfl, ?_⟩
  rw [h1]
  dsimp only
  rw [if_pos (by rw [h2, h3, h4]; rfl)]
  unfold frameUsed
  rw [h6]
  dsimp only
  rw [if_neg (by simpa using h5)]
  refine ⟨?_, recorded_raiseLine.mpr (recorded_here h7), ?_⟩
  · rw [psi_of n (raiseLine_psi ..), psi_of n (ev_psi ..), psi_modPsi]
  · simp only [raiseLine]; rw [mem_insertNat]; exact .inl rfl

theorem completes_psiFwcmdGo :
    ∀ (m : Master) (n : Fin 4) (v : Word) (s : State), Reach .psi 0 s → s.psi[n].fwBusy = false → s.psi[n].cur = none →
    ∃ t, exec (.psiFwcmdGo m n v) s = .next t ∧ t.psi[n].fwBusy = true ∧ t.psi[n].fwDone = false ∧
    ∃ f, t.psi[n].cur = some f ∧ f.cls = .firmware ∧ f.addr = bits v.toNat 28 16 ∧ f.data = bits v.toNat 15 0 := by
  intro m n v s h h1 h2
  refine ⟨_, rfl, ?_⟩
  rw [access_reach h, psi_of n (useWindow_psi ..)]
  unfold writeFwcmd
  dsimp only
  rw [psi_modPsi, orbit31, h1, if_pos (by rfl)]
  unfold psiQueue
  rw [psi_modPsi, psi_modPsi, psi_modPsi, h2]
  refine ⟨rfl, rfl, _, rfl, rfl, ?_, ?_⟩
  · show bits (v.toNat ||| 2 ^ 31) 28 16 = _
    unfold bits
    rw [Nat.shiftRight_or_distrib, Nat.or_mod_two_pow]
    show _ ||| 2 ^ 31 >>> 16 % 2 ^ 13 = _
    rw [show (2 ^ 31 >>> 16 % 2 ^ 13 : Nat) = 0 from by decide, Nat.or_zero]
  · show bits (v.toNat ||| 2 ^ 31) 15 0 = _
    unfold bits
    rw [Nat.shiftRight_or_distrib, Nat.or_mod_two_pow]
    rw [show (2 ^ 31 >>> 0 % 2 ^ (15 + 1 - 0) : Nat) = 0 from by decide, Nat.or_zero]

theorem completes_laserMonitorRead :
    ∀ (n : Fin 4) (reading : BitVec 16) (e : PowEntry) (s : State), chanExists n s = true → pdOn 13 s = true →
    heldBlk .lsr 0 s = false → s.lsr.ch[n].level = .preheat → s.lsr.ch[n].entry = some e →
    inWindow reading.toNat (if s.rwc[n].lg = true then e.monwr else e.monph) e.win = true →
    ∃ t, exec (.laserMonitorRead n reading false) s = .next t ∧ t.lsr.ch[n].mon = reading.toNat ∧ t.lsr.ch[n].bad = 0 ∧
    t.us = s.us + zeroAsOne (fld .moncfg 0 0 31 24 s) := by
  intro n reading e s h1 h2 h3 h4 h5 h6
  refine ⟨_, rfl, ?_⟩
  dsimp only
  rw [if_pos (by rw [h1, h2, h3, h4]; rfl)]
  have ha : (elapse (zeroAsOne (fld .moncfg 0 0 31 24 s)) s).lsr = s.lsr := frame_elapse _ _ (m := 0x7800000B12) .refl rfl .lsr rfl
  have hb : (elapse (zeroAsOne (fld .moncfg 0 0 31 24 s)) s).rwc = s.rwc := frame_elapse _ _ (m := 0x7800000B12) .refl rfl .rwc rfl
  have hus := elapse_us (zeroAsOne (fld .moncfg 0 0 31 24 s)) s
  generalize elapse (zeroAsOne (fld .moncfg 0 0 31 24 s)) s = u at *
  rw [if_neg Bool.false_ne_true, h4, if_pos (by rfl)]
  generalize hv : (u.modLaser n fun l => { l with mon := reading.toNat }) = v
  have k1 : v.lsr.ch[n] = { s.lsr.ch[n] with mon := reading.toNat } := by rw [← hv, lsr_modLaser, lsr_of n ha]
  have k2 : v.rwc = s.rwc := by rw [← hv]; exact hb
  have k3 : v.us = s.us + zeroAsOne (fld .moncfg 0 0 31 24 s) := by rw [← hv]; exact hus
  clear hv
  unfold judgeReading
  dsimp only
  rw [show v.lsr.ch[n].entry = some e by rw [k1]; exact h5]
  dsimp only
  rw [if_pos (by rw [rwc_of n k2]; exact h6)]
  have k4 : ∀ (p : Prop) [Decidable p] (w : State), (if p then waitComes n 12 w else w).lsr = w.lsr ∧ (if p then waitComes n 12 w else w).us = w.us := by
    intro p _ w; split <;> exact ⟨rfl, rfl⟩
  rw [lsr_of n (k4 _ _).1, (k4 _ _).2, lsr_modLaser, k1]
  exact ⟨rfl, rfl, k3⟩

theorem completes_lsrClrf :
    ∀ (m : Master) (n : Fin 4) (v : Word) (s : State), Reach .lsr 0 s → v.toNat.testBit n.val = true →
    ∃ t, exec (.lsrClrf m v) s = .next t ∧ t.lsr.ch[n].fault = false ∧ t.lsr.ch[n].offHold = false ∧ t.lsr.ch[n].bad = 0 := by
  intro m n v s h h1
  refine ⟨_, rfl, ?_⟩
  rw [access_reach h, lsr_of n (useWindow_lsr ..)]
  exact lsrClrf_fold v.toNat n _ s (.inl ⟨List.mem_finRange n, h1⟩)

theorem completes_addressUnit :
    ∀ (n : Fin 4) (off : Int) (w : BitVec 48) (meas : ClockMeas) (s : State), optLive n s = true →
    addrAccepted n off w.toNat s = true → s.opt.pu[n].seek = false → s.opt.pu[n].capturing = false →
    ∃ t, exec (.addressUnit n off w meas) s = .next t ∧ t.opt.pu[n].aLayer = bits w.toNat 47 46 ∧
    t.opt.pu[n].aTrack = bits w.toNat 45 22 ∧ t.opt.pu[n].aUnit = bits w.toNat 21 13 ∧ t.opt.pu[n].aValid = true ∧
    t.opt.pu[n].missRun = 0 := by
  intro n off w meas s h1 h2 h3 h4
  refine ⟨_, rfl, ?_⟩
  dsimp only
  rw [if_pos h1, h2]
  rw [pu_of n (wedgePasses_opt ..), pu_of n (clock_opt ..), if_pos rfl]
  unfold acceptAddr
  dsimp only
  generalize hu : (s.modPu n _) = u
  have k1 : u.opt.pu[n] = { s.opt.pu[n] with aLayer := bits w.toNat 47 46, aTrack := bits w.toNat 45 22, aUnit := bits w.toNat 21 13, aValid := true, missRun := 0, fresh := false, age := 0, layer := bits w.toNat 47 46 } := by
    rw [← hu, pu_modPu]
  clear hu
  generalize hv : (optBump n 0 1 _) = v
  have k2 : v.opt.pu[n] = u.opt.pu[n] := by rw [← hv]; exact (optBump_pu ..).trans (pu_of n rfl)
  clear hv
  have k3 : identifyLayer n v = v := by
    unfold identifyLayer
    dsimp only
    rw [if_neg]
    rw [k2, k1]
    show ¬ s.opt.pu[n].capturing = true
    rw [h4]; simp
  have k4 : seekAccepted n v = v := by
    unfold seekAccepted
    dsimp only
    rw [if_pos]
    rw [k2, k1]
    show (!s.opt.pu[n].seek || !s.opt.pu[n].await) = true
    rw [h3]; rfl
  rw [k3, k4, k2, k1]
  exact ⟨rfl, rfl, rfl, rfl, rfl⟩

theorem completes_addressUnitMissed :
    ∀ (n : Fin 4) (off : Int) (w : BitVec 48) (meas : ClockMeas) (s : State), optLive n s = true →
    addrAccepted n off w.toNat s = false → s.opt.pu[n].seek = false →
    ∃ t, exec (.addressUnit n off w meas) s = .next t ∧ t.opt.pu[n].missRun = min 7 (s.opt.pu[n].missRun + 1) ∧
    t.opt.pu[n].aTrack = s.opt.pu[n].aTrack ∧ t.opt.pu[n].age = s.opt.pu[n].age + 1 := by
  intro n off w meas s h1 h2 h3
  refine ⟨_, rfl, ?_⟩
  dsimp only
  rw [if_pos h1, h2]
  rw [pu_of n (wedgePasses_opt ..), pu_of n (clock_opt ..), if_neg Bool.false_ne_true]
  unfold missAddr
  dsimp only
  rw [h3, Bool.false_and, Bool.false_and, Bool.false_and, if_neg Bool.false_ne_true]
  have k : ∀ (p : Prop) [Decidable p] (a b c d : Nat) (bb : Blk) (u : State), (if p then setIrqStat bb a b u else u).opt.pu[n] = u.opt.pu[n] := by
    intro p _ a b c d bb u; split
    · exact pu_of n (setIrqStat_opt ..)
    · rfl
  rw [k _ _ _ 0 0, optBump_pu, pu_modPu]
  exact ⟨rfl, rfl, rfl⟩

theorem completes_optFmtWrite :
    ∀ (m : Master) (v : Word) (s : State), Reach .opt 0 s → Rising s.regs → 32 ≤ bits v.toNat 28 19 → bits v.toNat 28 19 ≤ 512 →
    128 ≤ bits v.toNat 18 8 → bits v.toNat 18 8 ≤ 1024 →
    ∃ t, exec (.optFmtWrite m v) s = .next t ∧
    reg .optFmt 0 0 t = (reg .optFmt 0 0 s &&& ((2 ^ 32 - 1) ^^^ writableBits .optFmt 0 s)) ||| (v.toNat &&& writableBits .optFmt 0 s) := by
  intro m v s h h1 h2 h3 h4 h5
  refine ⟨_, rfl, ?_⟩
  rw [access_reach h, reg_congr (useWindow_regs ..)]
  unfold writeOptFmt
  dsimp only
  rw [if_neg (by omega), reg_storeFields _ _ _ _ h1 v.isLt]

theorem completes_optFmtWriteRefused :
    ∀ (m : Master) (v : Word) (s : State), Reach .opt 0 s → EventRoom s → (bits v.toNat 28 19 < 32 ∨ 512 < bits v.toNat 28 19 ∨
    bits v.toNat 18 8 < 128 ∨ 1024 < bits v.toNat 18 8) →
    ∃ t, exec (.optFmtWrite m v) s = .next t ∧ t.regs = s.regs ∧ Recorded 0x0905 t := by
  intro m v s h h1 h2
  refine ⟨_, rfl, ?_⟩
  rw [access_reach h, useWindow_regs]
  unfold writeOptFmt
  dsimp only
  rw [if_pos h2]
  exact ⟨by unfold blockErrorP; rw [ev_regs]; rfl, recorded_useWindow.mpr (recorded_here (s := s.modHdr _ _) h1)⟩

theorem completes_saDelayEnd :
    ∀ (n : Fin 4) (s : State), optLive n s = true → s.opt.pu[n].seek = true → s.opt.pu[n].sphase = .layer →
    s.opt.pu[n].await = false → s.sve[sveOf n].move = .none →
    ∃ t, exec (.saDelayEnd n) s = .next t ∧ t.sve[sveOf n].move ≠ .none ∧ t.sve[sveOf n].seekOk = false ∧
    t.us = max s.us s.opt.pu[n].sledUs := by
  intro n s h1 h2 h3 h4 h5
  refine ⟨_, rfl, ?_⟩
  dsimp only
  rw [if_pos (by rw [h1, h2, h3, h4, h5]; rfl)]
  have hus := advanceTo_us s.opt.pu[n].sledUs s
  generalize advanceTo s.opt.pu[n].sledUs s = u at *
  have k1 : ∀ v : State, (optBump n 3 1 v).sve = v.sve := fun v => frame_optBump _ _ _ _ (m := 0x10000100) .refl rfl .sve rfl
  have k2 : ∀ v : State, (optBump n 3 1 v).us = v.us := fun v => frame_optBump _ _ _ _ (m := 0x10000100) .refl rfl .us rfl
  rw [sve_of _ (k1 _), k2]
  unfold jumpStart
  dsimp only
  rw [sve_modSve]
  exact ⟨by simp, rfl, hus⟩

theorem completes_sledMoveEnd :
    ∀ (n : Fin 4) (s : State), optLive n s = true → s.opt.pu[n].seek = true → s.opt.pu[n].sphase = .sled →
    s.opt.pu[n].await = false →
    ∃ t, exec (.sledMoveEnd n) s = .next t ∧ t.opt.pu[n] = { s.opt.pu[n] with sledCmd := 0, await := true, fresh := true, age := 0 } ∧
    t.us = max s.us s.opt.pu[n].sledUs := by
  intro n s h1 h2 h3 h4
  refine ⟨_, rfl, ?_⟩
  dsimp only
  rw [if_pos (by rw [h1, h2, h3, h4]; rfl)]
  have ha : (advanceTo s.opt.pu[n].sledUs s).opt = s.opt := frame_advanceTo _ _ (m := 0x7800000B12) .refl rfl .opt rfl
  have hus := advanceTo_us s.opt.pu[n].sledUs s
  generalize advanceTo s.opt.pu[n].sledUs s = u at *
  rw [pu_modPu, pu_of n ha]
  exact ⟨rfl, hus⟩

end Sys2Proof.Machine
end

