-- ==== Sys2Proof/Laws/CompleteVrelilo.lean ====
section
/-!
SUPPORT. Segment, sector, head and supply commands that complete. One lemma for each part of a completion statement.
-/

set_option Elab.async false
set_option linter.all false

namespace Sys2Proof.Machine

theorem link_opened (u : State) :
    let t := toHoldover (raiseLine 427 (raiseLine 434 (ev .vlk 0x0F11 0 0 0 (u.modVlk fun v => { v with upOpen := true }))))
    t.vlk.upOpen = true ∧ t.vlk.locked = false ∧ 427 ∈ t.irq.pending := by
  dsimp only
  have lv : ∀ n (x : State), (raiseLine n x).vlk = x.vlk := fun n x => rfl
  have e := ev_vlk .vlk 0x0F11 0 0 0 (u.modVlk fun v => { v with upOpen := true })
  generalize ev .vlk 0x0F11 0 0 0 (u.modVlk fun v => { v with upOpen := true }) = w at *
  obtain ⟨a, b, c⟩ := toHoldover_locked (raiseLine 427 (raiseLine 434 w))
  refine ⟨?_, a, c _ ?_⟩
  · rw [b, lv, lv, e]; rfl
  · simp only [raiseLine]; rw [mem_insertNat]; exact .inl rfl
theorem exec_linkOpen (s : State) (hc : (candleRuns s && !s.vlk.upOpen) = true) : ∃ u : State, exec .linkOpen s =
    .next (toHoldover (raiseLine 427 (raiseLine 434 (ev .vlk 0x0F11 0 0 0 (u.modVlk fun v => { v with upOpen := true }))))) := by
  refine ⟨advanceTo ((s.vlk.lastRx + 3000) * 1000) s, ?_⟩
  show execLinkOpen s = _
  unfold execLinkOpen
  rw [if_pos hc]

/-- The beacon a Lantern sends, held (R373). -/
abbrev beaconHeld (s : State) : State := s.modVlk fun v => { v with sentBeacon := beaconPayload s }

theorem slotAnswers_slot {k : Nat} {x : VSlot} {s : State} (h : slotAt k s = some x) :
    ∃ y, slotAt k (slotAnswers k s) = some y ∧ y.missed = 0 ∧ y.badTag = 0 ∧ y.seen = x.seen ∧
      y.state = if x.state = .silent ∨ x.state = .dormant then .active else x.state := by
  have e := slotAt_modSlot (k := k) (f := fun x => { x with missed := 0, badTag := 0, slept := false }) (s := s) (fun _ => rfl)
  rw [h] at e
  have up : ∀ u : State, slotAt k u = some { x with missed := 0, badTag := 0, slept := false } → x.state ≠ .active →
      slotAt k (slotTo k .active u) = some { x with missed := 0, badTag := 0, slept := false, state := .active } := by
    intro u hu hx
    unfold slotTo
    rw [hu]
    dsimp only
    rw [if_neg (by simpa using hx)]
    have := slotAt_modSlot (k := k) (f := fun x => { x with state := .active }) (s := u) (fun _ => rfl)
    rw [hu] at this
    exact this
  unfold slotAnswers
  rw [h]
  dsimp only
  cases hx : x.state with
  | silent =>
    refine ⟨{ x with missed := 0, badTag := 0, slept := false, state := .active }, ?_, rfl, rfl, rfl, rfl⟩
    dsimp only
    unfold slotAt
    rw [ev_vlk]
    exact up _ e (by rw [hx]; decide)
  | dormant => exact ⟨_, up _ e (by rw [hx]; decide), rfl, rfl, rfl, rfl⟩
  | free => exact ⟨_, e, rfl, rfl, rfl, hx⟩
  | enrolling => exact ⟨_, e, rfl, rfl, rfl, hx⟩
  | active => exact ⟨_, e, rfl, rfl, rfl, hx⟩

theorem pollDone_slot {k : Nat} {x : VSlot} {s : State} (more : Bool) (h : slotAt k s = some x) :
    ∃ y, slotAt k (pollDone k more s) = some y ∧ y.missed = x.missed ∧ y.badTag = x.badTag ∧ y.seen = x.seen ∧ y.state = x.state := by
  unfold pollDone
  rw [h]
  dsimp only
  generalize (more && decide (x.more + 1 < 16)) = a
  have := slotAt_modSlot (k := k) (f := fun x => { x with polled := false, more := if a = true then x.more + 1 else 0 }) (s := s) (fun _ => rfl)
  rw [h] at this
  exact ⟨_, this, rfl, rfl, rfl, rfl⟩

theorem takeLease_llt (mw dur : Nat) (s : State) : (takeLease mw dur s).llt.leaseValid = true ∧
    (takeLease mw dur s).llt.leaseMw = mw % 2 ^ 24 := by
  unfold takeLease
  extract_lets s1 lost s2 s3
  have k : s3.llt.leaseValid = true ∧ s3.llt.leaseMw = mw % 2 ^ 24 := ⟨(setLease_llt _ _ _).1, (setLease_llt _ _ _).2.1⟩
  clear_value s3
  split
  · rw [show (raiseLine 426 (ev .vlk 0x0F21 (leaseWord s3) 0 0 s3)).llt = s3.llt from
      frame_raiseLine _ _ (frame_ev _ _ _ _ _ _ (m := 0x1800002100) .refl rfl) rfl .llt rfl]
    exact k
  · exact k

theorem takeLease_dur (mw dur : Nat) (s : State) : (takeLease mw dur s).vlk.leaseDur = dur := by
  unfold takeLease
  extract_lets s1 lost s2 s3
  have k : s3.vlk.leaseDur = dur := rfl
  clear_value s3
  split
  · change (ev _ _ _ _ _ s3).vlk.leaseDur = dur
    rw [ev_vlk]; exact k
  · exact k

theorem sendReply_sent {s : State} (h : mayTransmit 0 s = true) : (sendReply s).vlk.sentUp = replyItems s := by
  unfold sendReply
  rw [if_pos h]
  dsimp only
  rw [vlkBump_vlk]
  rfl

theorem sendReply_keeps (s : State) : (sendReply s).llt = s.llt ∧ (sendReply s).vlk.leaseDur = s.vlk.leaseDur := by
  refine ⟨frame_sendReply s (m := 0x4000002000) .refl rfl .llt rfl, ?_⟩
  unfold sendReply
  split
  · dsimp only
    rw [vlkBump_vlk]
    rfl
  · rfl

theorem secRuns_same {s t : State} (h1 : t.pwr = s.pwr) (h2 : t.sys = s.sys) (h3 : t.hdr = s.hdr) : secRuns t = secRuns s := by
  unfold secRuns pdOn heldBlk hdrOf
  rw [h1, h2, h3]

theorem sendFrame_same (p : Fin 2) (s : State) : (sendFrame p s).vlk.enr = s.vlk.enr ∧ (sendFrame p s).vlk.keyGen = s.vlk.keyGen ∧
    (sendFrame p s).vlk.seqUp = s.vlk.seqUp ∧ (∀ l ∈ s.irq.pending, l ∈ (sendFrame p s).irq.pending) ∧ (sendFrame p s).evr = s.evr := by
  have fr : (sendFrame p s).evr = s.evr := frame_sendFrame p s (m := 0x4000002000) .refl rfl .evr rfl
  refine ⟨?_, ?_, ?_, ?_, fr⟩ <;> unfold sendFrame <;> split <;> first | rfl | (rw [vlkBump_vlk]) | exact fun _ h => h | skip
  intro l hl
  unfold vlkBump
  dsimp only
  split
  · simp only [raiseLine]; rw [mem_insertNat]; exact .inr hl
  · exact hl

theorem completes_beaconSend :
    ∀ s : State, isLantern s = true → mayTransmit 1 s = true →
    ∃ t, exec .beaconSend s = .next t ∧ vget t.vlk.cnt 6 0 = (wrapAdd (vget s.vlk.cnt 6 0) 1).1 ∧
    t.vlk.sentBeacon = beaconPayload t ∧
    t.us = s.us + (1000000000 - s.vlk.timeNs % 1000000000 + 999) / 1000 := by
  intro s h1 h2
  have key : execBeaconSend s = .next (vlkBump 6 (sendSeg (beaconHeld (keyAtBeacon ((elapse ((1000000000 - s.vlk.timeNs % 1000000000 + 999) / 1000) s).vlk.timeNs / 1000000000) (elapse ((1000000000 - s.vlk.timeNs % 1000000000 + 999) / 1000) s))))) := by
    unfold execBeaconSend
    rw [h1, h2, if_pos (by decide)]
  refine ⟨_, key, ?_⟩
  have e1 := elapse_us ((1000000000 - s.vlk.timeNs % 1000000000 + 999) / 1000) s
  have e2 : (elapse ((1000000000 - s.vlk.timeNs % 1000000000 + 999) / 1000) s).vlk.cnt = s.vlk.cnt := by rw [elapse_vlk]; rfl
  generalize (1000000000 - s.vlk.timeNs % 1000000000 + 999) / 1000 = dt at *
  generalize elapse dt s = u at *
  generalize u.vlk.timeNs / 1000000000 = q
  refine ⟨?_, ?_, ?_⟩
  · rw [vlkBump_vlk]
    change vget (vmod _ 6 _) 6 0 = _
    rw [vget_vmod _ (by decide)]
    unfold sendSeg
    rw [vlkBump_vlk]
    change (wrapAdd (vget (vmod _ 0 _) 6 0) 1).1 = _
    rw [vget_vmod_ne _ (by decide)]
    change (wrapAdd (vget (keyAtBeacon q u).vlk.cnt 6 0) 1).1 = _
    rw [keyAtBeacon_cnt, e2]
  · generalize keyAtBeacon q u = w
    unfold sendSeg beaconPayload segTier
    simp only [vlkBump_vlk, State.modVlk]
    rfl
  · rw [← e1]
    exact frame_vlkBump 6 _ (m := 0x4000002000) (o := u) (frame_sendSeg _ (frame_State_modVlk _ _ (frame_keyAtBeacon q u .refl rfl) rfl) rfl) rfl .us rfl

theorem completes_beaconReceive :
    ∀ (f : VFrame) (b : Beacon) (s : State), candleRuns s = true → s.vlk.enr = true → f.hcrcOk = true →
    toOwn f s = true → f.authOk = true → seqFresh s.vlk.rxSeg s.vlk.seenSeg f.seq = true → f.inverted = false →
    ∃ t, exec (.beaconReceive f b) s = .next t ∧ t.vlk.missedB = 0 ∧ t.vlk.failedB = 0 ∧ t.vlk.lastOff = beaconOff b s := by
  intro f b s h1 h2 h3 h4 h5 h6 h7
  refine ⟨_, rfl, ?_⟩
  rw [if_pos h1]
  obtain ⟨u, hu, -, ur, -⟩ := upSeg_good (bad := fun s => if f.hcrcOk then beaconFailed s else beaconLost s) (k := beaconTaken b) h3 h4 h5 h2 h6 h7
  rw [hu]
  have k := beaconTaken_vlk b u
  exact ⟨k.1, k.2.1, k.2.2.trans (beaconOff_congr ur)⟩

theorem completes_beaconMissed :
    ∀ s : State, candleRuns s = true → s.vlk.enr = true → s.vlk.missedB < 3 →
    ∃ t, exec .beaconMissed s = .next t ∧ t.vlk.missedB = s.vlk.missedB + 1 ∧ t.vlk.agree = 0 ∧ t.vlk.failedB = 0 := by
  intro s h1 h2 h3
  refine ⟨_, rfl, ?_⟩
  rw [h1, h2, if_pos (by decide)]
  exact beaconLost_vlk (s := s.modVlk fun v => { v with failedB := 0 }) h3

theorem completes_discoverSend :
    ∀ s : State, isLantern s = true → mayTransmit 1 s = true → fld .vlkCfg 0 0 30 30 s = 1 → s.vlk.slots.length < 64 →
    ∃ t, exec .discoverSend s = .next t ∧ vget t.vlk.cnt 0 0 = (wrapAdd (vget s.vlk.cnt 0 0) 1).1 := by
  intro s h1 h2 h3 h4
  refine ⟨_, rfl, ?_⟩
  rw [if_pos (by rw [h1, h2, h3]; simpa using h4), vlkBump_vlk]
  exact vget_vmod _ (by decide) _ _

theorem completes_discoverReceive :
    ∀ (f : VFrame) (s : State), candleRuns s = true → s.vlk.enr = false → f.hcrcOk = true → f.authOk = true →
    f.inverted = false → mayTransmit 0 s = true →
    ∃ t, exec (.discoverReceive f) s = .next t ∧ vget t.vlk.cnt 0 0 = (wrapAdd (vget s.vlk.cnt 0 0) 1).1 ∧
    vget t.vlk.cnt 1 0 = (wrapAdd (vget s.vlk.cnt 1 0) 1).1 := by
  intro f s h1 h2 h3 h4 h5 h6
  refine ⟨_, rfl, ?_⟩
  rw [if_pos h1, vlkReceive_good h3 rfl h4 rfl h5, if_pos rfl]
  have e := vlkBump_vlk 1 s
  have e1 : (vlkBump 1 s).vlk.enr = false := by rw [e]; exact h2
  have e2 : (vlkBump 1 s).vlk.stopUntil = s.vlk.stopUntil := by rw [e]
  have e3 : (vlkBump 1 s).vlk.cnt = vmod s.vlk.cnt 1 fun _ => (wrapAdd (vget s.vlk.cnt 1 0) 1).1 := by rw [e]
  generalize vlkBump 1 s = w at *
  rw [if_neg (by change ¬ w.vlk.enr = true; rw [e1]; decide)]
  unfold sendFrame
  rw [if_pos (by rw [mayTransmit_congr (s := s) (by exact e2)]; exact h6), vlkBump_vlk]
  change vget (vmod w.vlk.cnt 0 _) 0 0 = _ ∧ vget (vmod w.vlk.cnt 0 _) 1 0 = _
  rw [vget_vmod _ (by decide), vget_vmod_ne _ (by decide)]
  change (wrapAdd (vget w.vlk.cnt 0 0) 1).1 = _ ∧ _
  rw [e3, vget_vmod_ne _ (by decide), vget_vmod _ (by decide)]
  exact ⟨rfl, rfl⟩

theorem completes_enrollReceive :
    ∀ (f : VFrame) (slot reason ident : Nat) (s : State), candleRuns s = true → s.vlk.enr = false → f.hcrcOk = true →
    f.authOk = true → f.inverted = false → slot ≠ 255 →
    ∃ t, exec (.enrollReceive f (.offer slot reason ident)) s = .next t ∧ t.vlk.ident = ident % 2 ^ 24 := by
  intro f slot reason ident s h1 h2 h3 h4 h5 h6
  refine ⟨_, rfl, ?_⟩
  have hd : enrollDown (.offer slot reason ident) = false := rfl
  rw [if_pos (by rw [hd]; exact h1), hd, if_neg (by decide : ¬ false = true), vlkReceive_good h3 (by rfl) h4 rfl h5, if_pos rfl]
  have e := vlkBump_vlk 1 s
  have e1 : (vlkBump 1 s).vlk.enr = false := by rw [e]; exact h2
  have e2 : (vlkBump 1 s).vlk.root = s.vlk.root := by rw [e]
  have fr := frame_vlkBump 1 s (m := 0x4000002000) .refl rfl
  have c := candleRuns_congr (s := s) (t := (vlkBump 1 s).modVlk fun v => { v with lastRx := now (vlkBump 1 s), upOpen := false }) (fr .pwr rfl) (fr .regs rfl) (fr .sys rfl) e2 (fr .hdr rfl)
  generalize hw : (vlkBump 1 s).modVlk (fun v => { v with lastRx := now (vlkBump 1 s), upOpen := false }) = w at *
  have e3 : w.vlk.enr = false := by rw [← hw]; exact e1
  unfold enrollStep
  dsimp only
  rw [if_pos (by rw [c, h1, e3]; rfl), if_neg h6]
  rfl

theorem completes_enrollReceiveKeynew :
    ∀ (f : VFrame) (gen : Nat) (l : Nat × Nat) (s : State), candleRuns s = true → s.vlk.enr = false → s.vlk.lantern = some l →
    secRuns s = true → f.hcrcOk = true → toOwn f s = true → f.authOk = true → f.inverted = false → EventRoom s →
    ∃ t, exec (.enrollReceive f (.keynew gen)) s = .next t ∧ t.vlk.enr = true ∧ t.vlk.keyGen = gen ∧ t.vlk.seqUp = 1 ∧
    424 ∈ t.irq.pending ∧ Recorded 0x0F01 t := by
  intro f gen l s h1 h2 h3 h4 h5 h6 h7 h8 h9
  refine ⟨_, rfl, ?_⟩
  have hd : enrollDown (.keynew gen) = false := rfl
  rw [if_pos (by rw [hd]; exact h1), hd, if_neg (by decide : ¬ false = true), vlkReceive_good h5 (show enrollDst f (.keynew gen) s = true from h6) h7 rfl h8, if_pos rfl]
  have e := vlkBump_vlk 1 s
  have e1 : (vlkBump 1 s).vlk.enr = false := by rw [e]; exact h2
  have e2 : (vlkBump 1 s).vlk.root = s.vlk.root := by rw [e]
  have e4 : (vlkBump 1 s).vlk.lantern = some l := by rw [e]; exact h3
  have fr := frame_vlkBump 1 s (m := 0x4000002000) .refl rfl
  have e5 : (vlkBump 1 s).evr = s.evr := fr .evr rfl
  have c := candleRuns_congr (s := s) (t := (vlkBump 1 s).modVlk fun v => { v with lastRx := now (vlkBump 1 s), upOpen := false }) (fr .pwr rfl) (fr .regs rfl) (fr .sys rfl) e2 (fr .hdr rfl)
  have c2 := secRuns_same (s := s) (t := (vlkBump 1 s).modVlk fun v => { v with lastRx := now (vlkBump 1 s), upOpen := false }) (fr .pwr rfl) (fr .sys rfl) (fr .hdr rfl)
  generalize hw : (vlkBump 1 s).modVlk (fun v => { v with lastRx := now (vlkBump 1 s), upOpen := false }) = w at *
  have e3 : w.vlk.enr = false := by rw [← hw]; exact e1
  have e6 : w.vlk.lantern = some l := by rw [← hw]; exact e4
  have e7 : w.evr = s.evr := by rw [← hw]; exact e5
  unfold enrollStep
  dsimp only
  rw [e6]
  dsimp only
  rw [if_pos (by rw [c, c2, h1, h4, e3]; rfl)]
  have hr : EventRoom (w.modVlk fun v => { v with enr := true, keyGen := gen, rxLink := none, rxSeg := none, seenLink := [], seenSeg := [], seqUp := 1 }) := by
    unfold EventRoom at h9 ⊢; rw [show (w.modVlk _).evr = s.evr from e7]; exact h9
  have k := recorded_here (b := .vlk) (c := 0x0F01) (p0 := w.vlk.ident) (p1 := devWord l.2) (p2 := 0) hr
  have q : ∀ u : State, (raiseLine 424 u).vlk = u.vlk := fun _ => rfl
  exact ⟨(sendFrame_same 0 _).1.trans (by rw [q, ev_vlk]; rfl), (sendFrame_same 0 _).2.1.trans (by rw [q, ev_vlk]; rfl),
    (sendFrame_same 0 _).2.2.1.trans (by rw [q, ev_vlk]; rfl),
    (sendFrame_same 0 _).2.2.2.1 _ (by simp only [raiseLine]; rw [mem_insertNat]; exact .inl rfl),
    (recorded_congr (sendFrame_same 0 _).2.2.2.2).mpr k⟩

theorem completes_enrollReceiveConfirm :
    ∀ (f : VFrame) (slot : Nat) (x : VSlot) (s : State), isLantern s = true → secRuns s = true → slotAt slot s = some x →
    x.state = .enrolling → f.hcrcOk = true → toOwn f s = true → f.authOk = true → f.inverted = false → EventRoom s →
    ∃ t, exec (.enrollReceive f (.confirm slot)) s = .next t ∧ slotAt slot t = some { x with state := .active } ∧
    424 ∈ t.irq.pending ∧ Recorded 0x0F03 t := by
  intro f slot x s h1 h2 h3 h4 h5 h6 h7 h8 h9
  refine ⟨_, rfl, ?_⟩
  have hd : enrollDown (.confirm slot) = true := rfl
  rw [if_pos (by rw [hd]; exact h1), hd, if_pos rfl, vlkReceive_good h5 (show enrollDst f (.confirm slot) s = true from h6) h7 rfl h8, if_neg (by decide : ¬ (1 : Nat) = 0)]
  have e := vlkBump_vlk 1 s
  have fr := frame_vlkBump 1 s (m := 0x4000002000) .refl rfl
  have e3 : slotAt slot (vlkBump 1 s) = some x := by unfold slotAt; rw [e]; exact h3
  have c2 := secRuns_same (s := s) (t := vlkBump 1 s) (fr .pwr rfl) (fr .sys rfl) (fr .hdr rfl)
  have c : isLantern (vlkBump 1 s) = isLantern s := by
    unfold isLantern vlkRuns pdOn heldBlk hdrOf fld reg
    rw [show (vlkBump 1 s).pwr = s.pwr from fr .pwr rfl, show (vlkBump 1 s).regs = s.regs from fr .regs rfl,
      show (vlkBump 1 s).sys = s.sys from fr .sys rfl, show (vlkBump 1 s).hdr = s.hdr from fr .hdr rfl,
      show (vlkBump 1 s).clk = s.clk from fr .clk rfl, e]
  have e5 : (vlkBump 1 s).evr = s.evr := fr .evr rfl
  generalize vlkBump 1 s = w at *
  unfold enrollStep
  dsimp only
  rw [e3]
  dsimp only
  rw [if_pos (by rw [c, c2, h1, h2, h4]; rfl)]
  have hs : slotAt slot (slotTo slot .active w) = some { x with state := .active } := by
    unfold slotTo
    rw [e3]
    dsimp only
    rw [if_neg (by rw [h4]; decide)]
    have := slotAt_modSlot (k := slot) (f := fun x => { x with state := .active }) (s := w) (fun _ => rfl)
    rw [e3] at this
    exact this
  have hr : EventRoom (slotTo slot .active w) := by
    unfold EventRoom at h9 ⊢
    rw [show (slotTo slot .active w).evr = w.evr from frame_slotTo _ _ _ (m := 0x4000002000) .refl rfl .evr rfl, e5]; exact h9
  have k := recorded_here (b := .vlk) (c := 0x0F03) (p0 := slot) (p1 := devWord x.devid) (p2 := 0) hr
  have ev' := ev_vlk .vlk 0x0F03 slot (devWord x.devid) 0 (slotTo slot .active w)
  generalize slotTo slot .active w = z at *
  generalize ev _ _ _ _ _ z = y at *
  refine ⟨?_, ?_, k⟩
  · rw [← hs]; unfold slotAt; rw [show (raiseLine 424 y).vlk = y.vlk from rfl, ev']
  · simp only [raiseLine]; rw [mem_insertNat]; exact .inl rfl

theorem completes_pollSend :
    ∀ (x : VSlot) (s : State), isLantern s = true → mayTransmit 1 s = true → s.vlk.slots.any (·.polled) = false →
    nextSlot s = some x →
    ∃ t, exec .pollSend s = .next t ∧ t.vlk.pollNext = x.k ∧ (∃ y ∈ t.vlk.slots, y.k = x.k ∧ y.polled = true) := by
  intro x s h1 h2 h3 h4
  have key : execPollSend s = .next (pollSlot x s) := by
    unfold execPollSend
    rw [h1, h2, h3, if_pos (by decide), h4]
  obtain ⟨⟨y, hy, a, b⟩, c⟩ := pollSlot_polled (nextSlot_mem h4)
  exact ⟨_, key, c, y, hy, a, b rfl⟩

theorem pollReceive_taken :
    ∀ (f : VFrame) (s : State), candleRuns s = true → s.vlk.enr = true → f.hcrcOk = true → toOwn f s = true →
    f.authOk = true → seqFresh s.vlk.rxLink s.vlk.seenLink f.seq = true → f.inverted = false → mayTransmit 0 s = true →
    ∃ t, exec (.pollReceive f) s = .next t ∧ t.vlk.seqUp = s.vlk.seqUp + 1 ∧
    (∃ u, t = sendReply u ∧ t.vlk.sentUp = replyItems u ∧
      (f.items = [] → u.vlk.fwd = s.vlk.fwd ∧ u.vlk.attTx = s.vlk.attTx ∧ u.sec = s.sec ∧ u.pwr = s.pwr)) ∧
    (∀ mw dur, f.items = [.lease mw dur] → t.llt.leaseValid = true ∧ t.llt.leaseMw = mw % 2 ^ 24 ∧ t.vlk.leaseDur = dur) := by
  intro f s h1 h2 h3 h4 h5 h6 h7 h8
  refine ⟨_, rfl, ?_⟩
  unfold upLink
  rw [if_pos h1, vlkReceive_good h3 h4 (by rw [h5, h2]; rfl) h6 h7, if_pos rfl]
  have e := vlkBump_vlk 1 s
  have e1 : (vlkBump 1 s).vlk.seqUp = s.vlk.seqUp := by rw [e]
  have e2 : (vlkBump 1 s).vlk.stopUntil = s.vlk.stopUntil := by rw [e]
  have e3 : (vlkBump 1 s).vlk.fwd = s.vlk.fwd := by rw [e]
  have e4 : (vlkBump 1 s).vlk.attTx = s.vlk.attTx := by rw [e]
  have e5 : (vlkBump 1 s).sec = s.sec := frame_vlkBump 1 s (m := 0x4000002000) .refl rfl .sec rfl
  have e6 : (vlkBump 1 s).pwr = s.pwr := frame_vlkBump 1 s (m := 0x4000002000) .refl rfl .pwr rfl
  generalize vlkBump 1 s = w at *
  generalize hv : State.modVlk _ (State.modVlk _ w) = v
  have vv : v.vlk.fwd = s.vlk.fwd ∧ v.vlk.attTx = s.vlk.attTx ∧ v.sec = s.sec ∧ v.pwr = s.pwr := by
    rw [← hv]; exact ⟨e3, e4, e5, e6⟩
  have v1 : v.vlk.seqUp = s.vlk.seqUp := by rw [← hv]; exact e1
  have v2 : v.vlk.stopUntil = s.vlk.stopUntil := by rw [← hv]; exact e2
  have f1 := foldl_keep (fun s => s.vlk.seqUp) takePollItem takePollItem_seqUp f.items v
  have f2 := foldl_keep (fun s => s.vlk.stopUntil) takePollItem takePollItem_may f.items v
  have hm : ∀ x : State, x.vlk.stopUntil = s.vlk.stopUntil → mayTransmit 0 x = true := fun x hx => by
    unfold mayTransmit at h8 ⊢; rw [hx]; exact h8
  refine ⟨?_, ⟨_, rfl, sendReply_sent (hm _ (f2.trans v2)), ?_⟩, ?_⟩
  · rw [sendReply_seqUp (hm _ (f2.trans v2)), f1, v1]
  · intro hi
    rw [hi]
    exact vv
  · intro mw dur hi
    rw [hi]
    have k := takeLease_llt mw dur v
    have k2 := takeLease_dur mw dur v
    change (sendReply (takeLease mw dur v)).llt.leaseValid = true ∧ _ ∧ (sendReply (takeLease mw dur v)).vlk.leaseDur = dur
    have r := sendReply_keeps (takeLease mw dur v)
    change _ ∧ (sendReply (takeLease mw dur v)).llt.leaseMw = _ ∧ _
    rw [r.1, r.2]
    exact ⟨k.1, k.2, k2⟩

theorem completes_pollReceive :
    ∀ (f : VFrame) (s : State), candleRuns s = true → s.vlk.enr = true → f.hcrcOk = true → toOwn f s = true →
    f.authOk = true → seqFresh s.vlk.rxLink s.vlk.seenLink f.seq = true → f.inverted = false → mayTransmit 0 s = true →
    ∃ t, exec (.pollReceive f) s = .next t ∧ t.vlk.seqUp = s.vlk.seqUp + 1 ∧
    (∃ u, t = sendReply u ∧ t.vlk.sentUp = replyItems u ∧
      (f.items = [] → u.vlk.fwd = s.vlk.fwd ∧ u.vlk.attTx = s.vlk.attTx ∧ u.sec = s.sec ∧ u.pwr = s.pwr)) := by
  intro f s h1 h2 h3 h4 h5 h6 h7 h8
  obtain ⟨t, e, a, b, _⟩ := pollReceive_taken f s h1 h2 h3 h4 h5 h6 h7 h8
  exact ⟨t, e, a, b⟩

theorem completes_pollReceiveLease :
    ∀ (f : VFrame) (mw dur : Nat) (s : State), candleRuns s = true → s.vlk.enr = true → f.hcrcOk = true → toOwn f s = true →
    f.authOk = true → seqFresh s.vlk.rxLink s.vlk.seenLink f.seq = true → f.inverted = false → mayTransmit 0 s = true →
    f.items = [.lease mw dur] →
    ∃ t, exec (.pollReceive f) s = .next t ∧ t.llt.leaseValid = true ∧ t.llt.leaseMw = mw % 2 ^ 24 ∧ t.vlk.leaseDur = dur := by
  intro f mw dur s h1 h2 h3 h4 h5 h6 h7 h8 h9
  obtain ⟨t, e, _, _, a⟩ := pollReceive_taken f s h1 h2 h3 h4 h5 h6 h7 h8
  exact ⟨t, e, a mw dur h9⟩

theorem replyReceive_taken :
    ∀ (f : VFrame) (x : VSlot) (s : State), isLantern s = true → s.vlk.slots.find? (·.polled) = some x →
    ∃ t, exec (.replyReceive f) s = .next t ∧ (∀ y ∈ t.vlk.slots, y.k = x.k → y.polled = false) ∧
    (slotAt x.k s = some x → f.hcrcOk = true → toOwn f s = true → f.src = candleId x.k s → f.authOk = true → f.inverted = false →
      seqFresh (if x.seen.isEmpty then none else some x.lastSeq) x.seen f.seq = true → f.items = [] →
      ∃ y, slotAt x.k t = some y ∧ y.missed = 0 ∧ y.badTag = 0 ∧ f.seq ∈ y.seen ∧
        y.state = if x.state = .silent ∨ x.state = .dormant then .active else x.state) := by
  intro f x s h1 h2
  refine ⟨_, rfl, ?_⟩
  rw [if_pos h1, h2]
  refine ⟨pollDone_polled _ _ _, ?_⟩
  intro h3 h4 h5 h6 h7 h8 h9 h10
  dsimp only
  rw [vlkReceive_good h4 (by rw [h5, h6]; simp) h7 h9 h8, if_neg (by decide : ¬ (1 : Nat) = 0), h10]
  have e : slotAt x.k (vlkBump 1 s) = some x := by unfold slotAt; rw [vlkBump_vlk]; exact h3
  generalize vlkBump 1 s = w at *
  dsimp only [List.foldl]
  generalize hr : seqTake _ _ _ = r
  have hs : f.seq ∈ r.2 := by rw [← hr]; unfold seqTake; rw [mem_insertNat]; exact .inl rfl
  have e1 := slotAt_modSlot (k := x.k) (f := fun x => { x with lastSeq := r.1.getD 0, seen := r.2 }) (s := w) (fun _ => rfl)
  rw [e] at e1
  obtain ⟨y, y1, y2, y3, y4, y5⟩ := slotAnswers_slot e1
  obtain ⟨z, z1, z2, z3, z4, z5⟩ := pollDone_slot (f.hcrcOk && f.authOk && f.more) y1
  exact ⟨z, z1, z2.trans y2, z3.trans y3, by rw [z4, y4]; exact hs, z5.trans y5⟩

theorem completes_replyReceive :
    ∀ (f : VFrame) (x : VSlot) (s : State), isLantern s = true → s.vlk.slots.find? (·.polled) = some x →
    ∃ t, exec (.replyReceive f) s = .next t ∧ (∀ y ∈ t.vlk.slots, y.k = x.k → y.polled = false) := by
  intro f x s h1 h2
  obtain ⟨t, e, a, _⟩ := replyReceive_taken f x s h1 h2
  exact ⟨t, e, a⟩

theorem completes_replyReceiveGood :
    ∀ (f : VFrame) (x : VSlot) (s : State), isLantern s = true → s.vlk.slots.find? (·.polled) = some x → slotAt x.k s = some x →
    f.hcrcOk = true → toOwn f s = true → f.src = candleId x.k s → f.authOk = true → f.inverted = false →
    seqFresh (if x.seen.isEmpty then none else some x.lastSeq) x.seen f.seq = true → f.items = [] →
    ∃ t y, exec (.replyReceive f) s = .next t ∧ slotAt x.k t = some y ∧ y.missed = 0 ∧ y.badTag = 0 ∧ f.seq ∈ y.seen ∧
    y.state = if x.state = .silent ∨ x.state = .dormant then .active else x.state := by
  intro f x s h1 h2 h3 h4 h5 h6 h7 h8 h9 h10
  obtain ⟨t, e, _, a⟩ := replyReceive_taken f x s h1 h2
  obtain ⟨y, hy⟩ := a h3 h4 h5 h6 h7 h8 h9 h10
  exact ⟨t, y, e, hy⟩

theorem completes_pollMissed :
    ∀ (x : VSlot) (s : State), isLantern s = true → s.vlk.slots.find? (·.polled) = some x →
    ∃ t, exec .pollMissed s = .next t ∧ vget t.vlk.cnt 5 0 = (wrapAdd (vget s.vlk.cnt 5 0) 1).1 ∧
    (∀ y ∈ t.vlk.slots, y.k = x.k → y.polled = false) ∧ t.vlk.pollNext = x.k + 1 := by
  intro x s h1 h2
  refine ⟨_, rfl, ?_⟩
  rw [if_pos h1, h2]
  dsimp only
  refine ⟨?_, pollDone_polled _ _ _, pollDone_next _ _⟩
  rw [pollDone_cnt]
  have e : ∀ w : State, vget (vlkBump 5 w).vlk.cnt 5 0 = (wrapAdd (vget w.vlk.cnt 5 0) 1).1 := by
    intro w; rw [vlkBump_vlk]; exact vget_vmod _ (by decide) _ _
  split
  · rw [slotSilent_cnt, e]; rfl
  · rw [e]; rfl

theorem completes_imageReceive :
    ∀ (f : VFrame) (ident chunk chunks : Nat) (bytes : List Byte) (s : State), candleRuns s = true → s.vlk.enr = true →
    f.hcrcOk = true → toOwn f s = true → f.authOk = true → seqFresh s.vlk.rxSeg s.vlk.seenSeg f.seq = true →
    f.inverted = false → reg .imgbase 0 0 s ≠ 0 → chunk < chunks →
    ∃ t i, exec (.imageReceive f ident chunk chunks bytes) s = .next t ∧ t.vlk.rxImg = some i ∧ i.ident = ident ∧
    chunk ∈ i.have_ := by
  intro f ident chunk chunks bytes s h1 h2 h3 h4 h5 h6 h7 h8 h9
  obtain ⟨u, hu, -, ur, ui⟩ := upSeg_good (bad := id) (k := takeChunk ident chunk chunks bytes) h3 h4 h5 h2 h6 h7
  have key : execImageReceive f ident chunk chunks bytes s = .next (takeChunk ident chunk chunks bytes u) := by
    unfold execImageReceive
    rw [if_pos h1, hu]
  obtain ⟨i, a, b, c⟩ := takeChunk_rx (bytes := bytes) (u := u) (ident := ident) (by unfold reg at h8 ⊢; rw [ur]; exact h8) h9
  exact ⟨_, i, key, a, b, c⟩

theorem completes_vlkWake :
    ∀ (ones periods : Nat) (env : BootEnv) (s : State), 200 ≤ ones → s.sys.pers ≠ .factory →
    (s.sys.pers = .lantern → s.vlk.root = false) → s.pwr.state = .dim → s.pwr.phase = .settled → s.pwr.active = 0 →
    0x10 &&& wakeEnabled s ≠ 0 →
    ∃ t, exec (.vlkWake ones periods env) s = .next t ∧ t.pwr.state = .lit ∧ t.pwr.wakeTime = s.cal.sec ∧
    t.pwr.active = 0 := by
  intro ones periods env s h1 h2 h3 h4 h5 h7 h6
  refine ⟨_, rfl, ?_⟩
  have hp : (decide (200 ≤ ones) && s.sys.pers != .factory && !(s.sys.pers == .lantern && s.vlk.root)) = true := by
    by_cases hl : s.sys.pers = .lantern
    · rw [hl, h3 hl]; simp [h1]
    · simp [h1, h2, hl]
  rw [if_pos hp]
  have r := wakeAct_dim (src := 0x10) (periods := periods) (env := env) h4 h5 h7 h6
  exact ⟨r.1, r.2.1, r.2.2.1⟩

theorem completes_leaseRenewalRequest :
    ∀ (i : Nat) (s : State), s.vlk.renewAt = some i → candleRuns s = true →
    ∃ t, exec .leaseRenewalRequest s = .next t ∧ t.vlk.ask = true ∧ t.vlk.renewAt = none ∧ t.us = max s.us (i * 1000) := by
  intro i s h1 h2
  have key : execLeaseRenewalRequest s = .next ((advanceTo (i * 1000) s).modVlk fun v => { v with renewAt := none, ask := true }) := by
    unfold execLeaseRenewalRequest
    rw [h1]
    dsimp only
    rw [if_pos h2]
  have e := advanceTo_us (i * 1000) s
  generalize i * 1000 = q at *
  generalize advanceTo q s = u at *
  exact ⟨_, key, rfl, rfl, e⟩

theorem completes_leaseExpiry :
    ∀ s : State, s.llt.leaseValid = true → s.vlk.window = none →
    ∃ t, exec .leaseExpiry s = .next t ∧ t.llt.leaseValid = false ∧ t.vlk.renewAt = none ∧ t.vlk.lostOnce = true ∧
    426 ∈ t.irq.pending := by
  intro s h1 h2
  refine ⟨_, rfl, ?_⟩
  rw [h1, h2, if_pos (by decide)]
  generalize advanceTo (s.llt.leaseExp * 1000) s = u
  have e := clearLease_valid u
  generalize clearLease u = w at *
  dsimp only
  generalize hv : State.modVlk _ w = v
  rw [startOrphan_llt, (startOrphan_vlk _).1, (startOrphan_vlk _).2, frame_startOrphan _ (m := 0x4000000080) .refl rfl .irq rfl]
  have lv : ∀ x : State, (raiseLine 426 x).llt = x.llt ∧ (raiseLine 426 x).vlk = x.vlk := fun x => ⟨rfl, rfl⟩
  rw [(lv _).1, (lv _).2, ev_llt, ev_vlk, ← hv]
  refine ⟨e, rfl, rfl, ?_⟩
  simp only [raiseLine]; rw [mem_insertNat]; exact .inl rfl

theorem completes_quietPeriodEnd :
    ∀ (i : Nat) (s : State), s.vlk.quietEnd = some i →
    ∃ t, exec .quietPeriodEnd s = .next t ∧ t.vlk.quietEnd = none ∧ t.us = max s.us (i * 1000) := by
  intro i s h1
  have key : execQuietPeriodEnd s = .next ((advanceTo (i * 1000) s).modVlk fun v => { v with quietEnd := none }) := by
    unfold execQuietPeriodEnd
    rw [h1]
  have e := advanceTo_us (i * 1000) s
  generalize i * 1000 = q at *
  generalize advanceTo q s = u at *
  exact ⟨_, key, rfl, e⟩

theorem completes_orphanBackoffEnd :
    ∀ (i : Nat) (s : State), s.vlk.backoff = some i →
    candleRuns (advanceTo (i * 1000) s) = true → (advanceTo (i * 1000) s).llt.leaseValid = false →
    fld .orphanSpinup 0 0 31 31 (advanceTo (i * 1000) s) = 1 →
    ∃ t, exec .orphanBackoffEnd s = .next t ∧ t.llt.leaseValid = true ∧
    t.llt.leaseMw = fld .orphanSpinup 0 0 23 0 (advanceTo (i * 1000) s) ∧
    t.llt.leaseExp = now (advanceTo (i * 1000) s) + 10000 ∧ t.vlk.backoff = none ∧ t.vlk.windowUsed = true := by
  intro i s h1 h2 h3 h4
  refine ⟨_, rfl, ?_⟩
  rw [h1]
  dsimp only
  generalize advanceTo (i * 1000) s = u at *
  rw [h2, h3, h4, if_pos (by decide)]
  obtain ⟨a, b, c⟩ := setLease_llt (fld .orphanSpinup 0 0 23 0 u) (now u + 10000) u
  generalize setLease (fld .orphanSpinup 0 0 23 0 u) (now u + 10000) u = w at *
  have lv : ∀ x : State, (raiseLine 426 x).llt = x.llt ∧ (raiseLine 426 x).vlk = x.vlk := fun x => ⟨rfl, rfl⟩
  rw [(lv _).1, (lv _).2, ev_llt, ev_vlk]
  exact ⟨a, b, c, rfl, rfl⟩

theorem completes_orphanWindowEnd :
    ∀ (i : Nat) (s : State), s.vlk.window = some i →
    ∃ t, exec .orphanWindowEnd s = .next t ∧ t.vlk.window = none ∧ t.llt.leaseValid = false := by
  intro i s h1
  refine ⟨_, rfl, ?_⟩
  rw [h1]
  exact ⟨rfl, clearLease_valid _⟩

theorem completes_segmentKeyRotation :
    ∀ s : State, isLantern s = true → s.vlk.keyNew = none → 2 ^ 30 ≤ s.vlk.segFrames →
    ∃ t, exec .segmentKeyRotation s = .next t ∧
    t.vlk.keyNew = some ((s.vlk.segGen + 1) % 128, s.vlk.timeNs / 1000000000 + 3) := by
  intro s h1 h2 h3
  have key : execSegmentKeyRotation s = .next (s.modVlk fun v => { v with keyNew := some ((v.segGen + 1) % 128, v.timeNs / 1000000000 + 3) }) := by
    unfold execSegmentKeyRotation
    rw [h1, h2, if_pos (by decide), if_neg (by omega)]
  exact ⟨_, key, rfl⟩

theorem vlkCmdWake_sent :
    ∀ (m : Master) (k : Fin 64) (x : VSlot) (s : State), Reach .vlk 0 s → slotAt k s = some x →
    ∃ t, exec (.vlkCmdWake m k) s = .next t ∧
    (isLantern s = true → mayTransmit 1 s = true → x.state = .dormant → t.vlk.sentWake = some k.val) ∧
    (x.state ≠ .dormant → t = useWindow .vlk 0 s) := by
  intro m k x s h h1
  refine ⟨_, rfl, ?_, ?_⟩
  · intro h2 h3 h4
    rw [access_reach h, useWindow_vlk]
    unfold cmdWake
    rw [h1]
    dsimp only
    rw [if_pos (by rw [h2, h3, h4]; rfl)]
    rfl
  · intro h2
    rw [access_reach h]
    unfold cmdWake
    rw [h1]
    dsimp only
    rw [if_neg (by simp [h2])]

theorem completes_vlkCmdWake :
    ∀ (m : Master) (k : Fin 64) (x : VSlot) (s : State), Reach .vlk 0 s → slotAt k s = some x → isLantern s = true →
    mayTransmit 1 s = true → x.state = .dormant →
    ∃ t, exec (.vlkCmdWake m k) s = .next t ∧ t.vlk.sentWake = some k.val := by
  intro m k x s h h1 h2 h3 h4
  obtain ⟨t, e, a, _⟩ := vlkCmdWake_sent m k x s h h1
  exact ⟨t, e, a h2 h3 h4⟩

theorem completes_vlkCmdWakeAwake :
    ∀ (m : Master) (k : Fin 64) (x : VSlot) (s : State), Reach .vlk 0 s → slotAt k s = some x → x.state ≠ .dormant →
    exec (.vlkCmdWake m k) s = .next (useWindow .vlk 0 s) := by
  intro m k x s h h1 h2
  obtain ⟨t, e, _, a⟩ := vlkCmdWake_sent m k x s h h1
  rw [e, a h2]

theorem completes_vlkCmdAttreq :
    ∀ (m : Master) (k : Fin 64) (s : State), Reach .vlk 0 s → (slotAt k s).isSome = true →
    ∃ t, exec (.vlkCmdAttreq m k) s = .next t ∧ t.vlk.attPend = some k.val ∧ t.vlk.attRx = some (k.val, 0) := by
  intro m k s h h1
  refine ⟨_, rfl, ?_⟩
  rw [access_reach h, useWindow_vlk]
  unfold cmdAttreq
  rw [if_pos h1]
  exact ⟨rfl, rfl⟩

theorem completes_vlkCmdRemove :
    ∀ (m : Master) (k : Fin 64) (x : VSlot) (s : State), Reach .vlk 0 s → slotAt k s = some x → grantsOver x s = true →
    EventRoom s →
    ∃ t, exec (.vlkCmdRemove m k) s = .next t ∧ (∀ y ∈ t.vlk.slots, y.k ≠ x.k) ∧ Recorded 0x0F04 t := by
  intro m k x s h h1 h2 h3
  refine ⟨_, rfl, ?_⟩
  rw [access_reach h, useWindow_vlk]
  unfold cmdRemove
  rw [h1]
  dsimp only
  rw [if_pos h2]
  refine ⟨?_, ?_⟩
  · intro y hy
    change y ∈ List.filter _ _ at hy
    have := (List.mem_filter.mp hy).2
    simpa using this
  · rw [recorded_congr (useWindow_evr _ _ _)]
    unfold removeSlot
    unfold EventRoom at h3
    rw [recorded_congr (freeSlot_evr _ _)]
    exact recorded_ev (by omega)

theorem completes_imageFanout :
    ∀ (m : Master) (v : Word) (s : State), Reach .vlk 0 s → Rising s.regs → isLantern s = true →
    ∃ t, exec (.imageFanout m v) s = .next t ∧ ∃ i, t.vlk.txImg = some i ∧ i.next = 0 ∧
    i.chunks = (fld .imgcmd 0 0 11 0 t * 1024 + 239) / 240 := by
  intro m v s h h1 h2
  obtain ⟨w, hw⟩ := storeFields_plain (r := .imgcmd) (n := 0) (k := 0) (v := v.toNat ||| 2 ^ 31) (s := s) (by decide)
  have hl := isLantern_setReg (r := .imgcmd) (n := 0) (k := 0) (v := w) (s := s) (by decide)
  have hb : (v.toNat ||| 2 ^ 31).testBit 31 = true := by rw [Nat.testBit_or, (by decide : Nat.testBit (2 ^ 31) 31 = true), Bool.or_true]
  have key : writeImgcmd (v.toNat ||| 2 ^ 31) s = startFanout (draw (2 ^ 32) (setReg .imgcmd 0 0 w s))
      ((fld .imgcmd 0 0 11 0 (setReg .imgcmd 0 0 w s) * 1024 + 239) / 240) (setReg .imgcmd 0 0 w s).drawn := by
    unfold writeImgcmd
    dsimp only
    rw [hb, hw, if_pos (by rw [hl, h2]; rfl)]
  refine ⟨_, (show exec (.imageFanout m v) s = .next (access .vlk 0 (Reg.addr .imgcmd 0 0) (writeImgcmd (v.toNat ||| 2 ^ 31)) s) from rfl), ?_⟩
  rw [access_reach h, key, useWindow_vlk]
  generalize setReg .imgcmd 0 0 w s = u
  refine ⟨_, rfl, rfl, ?_⟩
  have : fld .imgcmd 0 0 11 0 (useWindow .vlk 0 (startFanout (draw (2 ^ 32) u) ((fld .imgcmd 0 0 11 0 u * 1024 + 239) / 240) u.drawn)) = fld .imgcmd 0 0 11 0 u := by
    unfold fld
    rw [reg_congr (s := u)]
    exact frame_useWindow .vlk 0 _ (m := 0x4000000180) (o := u) (frame_startFanout _ _ _ (frame_State_drawn _ .refl rfl) rfl) rfl .regs rfl
  rw [this]

theorem completes_linkOpen :
    ∀ s : State, candleRuns s = true → s.vlk.upOpen = false →
    ∃ t, exec .linkOpen s = .next t ∧ t.vlk.upOpen = true ∧ t.vlk.locked = false ∧ 427 ∈ t.irq.pending := by
  intro s h1 h2
  have hc : (candleRuns s && !s.vlk.upOpen) = true := by rw [h1, h2]; rfl
  obtain ⟨u, k⟩ := exec_linkOpen s hc
  exact ⟨_, k, link_opened u⟩

theorem completes_linkShort :
    ∀ (port : Fin 2) (s : State), (if port = 0 then candleRuns s else isLantern s) = true → mayTransmit port s = true →
    ∃ t, exec (.linkShort port) s = .next t ∧ t.vlk.stopUntil[port] = some (now s + 1000) ∧ 434 ∈ t.irq.pending := by
  intro port s h1 h2
  refine ⟨_, rfl, ?_⟩
  rw [if_pos (by rw [h1, h2]; rfl)]
  have lv : ∀ x : State, (raiseLine 434 x).vlk = x.vlk := fun x => rfl
  rw [lv, ev_vlk]
  refine ⟨by simp [State.modVlk], ?_⟩
  simp only [raiseLine]; rw [mem_insertNat]; exact .inl rfl

theorem completes_linkRetry :
    ∀ (port : Fin 2) (i : Nat) (s : State), s.vlk.stopUntil[port] = some i →
    ∃ t, exec (.linkRetry port) s = .next t ∧ t.vlk.stopUntil[port] = none ∧ t.us = max s.us (i * 1000) := by
  intro port i s h1
  have key : execLinkRetry port s = .next ((advanceTo (i * 1000) s).modVlk fun v => { v with stopUntil := v.stopUntil.set port none }) := by
    unfold execLinkRetry
    rw [h1]
  have e := advanceTo_us (i * 1000) s
  generalize i * 1000 = q at *
  generalize advanceTo q s = u at *
  exact ⟨_, key, by simp [State.modVlk], e⟩

theorem completes_segmentGrantExpiry :
    ∀ (k : Fin 64) (x : VSlot) (s : State), slotAt k s = some x → grantsOver x s = false → x.removing = false →
    now s < x.expiry → x.older = [] →
    ∃ t y, exec (.segmentGrantExpiry k) s = .next t ∧ slotAt k t = some y ∧ y.grant = 0 ∧ t.us = x.expiry * 1000 := by
  intro k x s h1 h2 h3 h4 h5
  have e := advanceTo_slots (x.expiry * 1000) s
  have eu := advanceTo_us (x.expiry * 1000) s
  generalize hv : advanceTo (x.expiry * 1000) s = v at *
  generalize hw : modSlot k (fun y => { y with
          grant := if y.expiry ≤ x.expiry then 0 else y.grant, older := y.older.filter fun g => decide (x.expiry < g.2) }) v = w
  have sw : slotAt k w = some { x with grant := 0, older := [] } := by
    have : slotAt k v = some x := by rw [← h1]; unfold slotAt; rw [e]
    rw [← hw, slotAt_modSlot (by intro _; rfl), this, Option.map_some, if_pos (Nat.le_refl _), h5]
    rfl
  have key : execSegmentGrantExpiry k s = .next w := by
    unfold execSegmentGrantExpiry
    rw [h1]
    dsimp only
    rw [h2, if_neg (by decide), h5]
    simp only [List.map_nil, List.filter_cons, h4, decide_true, if_true, List.filter_nil, List.foldl_cons, List.foldl_nil, List.headD_cons, Nat.min_self]
    rw [hv, hw, sw]
    dsimp only
    rw [h3]
    rfl
  refine ⟨w, _, key, sw, rfl, ?_⟩
  rw [← hw]
  change v.us = _
  rw [eu]
  unfold now at h4
  omega

theorem completes_fleetAuthorizationExpiry :
    ∀ (i : Nat) (s : State), s.vlk.authExp = some i →
    ∃ t, exec .fleetAuthorizationExpiry s = .next t ∧ t.vlk.enr = false ∧ t.vlk.authExp = none ∧ t.vlk.lantern = none := by
  intro i s h1
  refine ⟨_, rfl, ?_⟩
  rw [h1]
  exact ⟨rfl, rfl, rfl⟩

theorem completes_headRetire :
    ∀ (n : Fin 4) (head : Fin 64) (zones : List Nat) (s : State),
    (Reach .asq n s →
    ∃ t, exec (.headRetire n head true zones) s = .next t ∧ t.asq[n].headRet.testBit head = true) ∧
    (s.sys.acoresUp = true →
    ∃ t, exec (.headRetire n head false zones) s = .next t ∧
    t = retireZones .readOnly zones (s.modHce fun h => { h with headState := sput 0 head.val 1 h.headState })) := by
  intro n head zones s
  refine ⟨fun h => ⟨_, rfl, ?_⟩, fun h => ⟨_, congrArg Host.Outcome.next ((if_neg Bool.false_ne_true).trans (if_pos h)), rfl⟩⟩
  rw [if_pos rfl, access_reach h, asq_of n (useWindow_asq _ _ _)]
  unfold headretSet
  rw [asq_modAsq]
  dsimp only
  rw [Nat.testBit_or, Nat.one_shiftLeft, Nat.testBit_two_pow_self, Bool.or_true]

theorem completes_sectorStart :
    ∀ (n : Fin 4) (s : State), rwcLive n s = true → s.asq[n].avalid = true → s.rwc[n].inSector = false →
    ∃ t, exec (.sectorStart n) s = .next t ∧ t.rwc[n].inSector = true ∧ t.rwc[n].inGap = false := by
  intro n s h1 h2 h3
  refine ⟨_, rfl, ?_⟩
  rw [h1, h2, h3, if_pos (by decide)]
  dsimp only
  generalize preambleLoad n s = u
  generalize hv : State.modRwc n _ u = v
  have hr : v.rwc[n].inSector = true ∧ v.rwc[n].inGap = false := by rw [← hv, rwc_modRwc]; exact ⟨rfl, rfl⟩
  unfold gatesFollow
  dsimp only
  rw [rwc_modRwc, rwc_of n (frame_waitComes n 4 v (m := 0x100000) .refl rfl .rwc rfl)]
  exact hr

theorem completes_sectorEnd :
    ∀ (n : Fin 4) (s : State), rwcLive n s = true → s.rwc[n].inSector = true →
    ∃ t, exec (.sectorEnd n) s = .next t ∧ t.rwc[n].inSector = false ∧ t.rwc[n].wg = false ∧ t.rwc[n].lg = false := by
  intro n s h1 h2
  refine ⟨_, rfl, ?_⟩
  rw [h1, h2, if_pos (by decide)]
  extract_lets a b c
  rw [rwc_of n (frame_waitComes n 5 _ (m := 0x100000) .refl rfl .rwc rfl)]
  have e : ∀ (f : Asq → Asq) (u : State), (u.modAsq n f).rwc = u.rwc := fun f u => rfl
  rw [rwc_of n (e _ c)]
  clear_value b
  show (State.modRwc n _ b).rwc[n].inSector = false ∧ (State.modRwc n _ b).rwc[n].wg = false ∧ (State.modRwc n _ b).rwc[n].lg = false
  rw [rwc_modRwc]
  exact ⟨rfl, rfl, rfl⟩

theorem completes_wedgeGap :
    ∀ (n : Fin 4) (crossing : Bool) (s : State), rwcLive n s = true → s.rwc[n].inGap = false →
    ∃ t, exec (.wedgeGap n crossing) s = .next t ∧ t.rwc[n].inGap = true ∧ t.rwc[n].wg = false ∧ t.rwc[n].lg = false ∧
    t.rwc[n].taperFrozen = 0 := by
  intro n crossing s h1 h2
  refine ⟨_, rfl, ?_⟩
  rw [h1, h2, if_pos (by decide)]
  extract_lets a b c d0 d
  have hr : c.rwc[n].inGap = true ∧ c.rwc[n].wg = false ∧ c.rwc[n].lg = false ∧ c.rwc[n].taperFrozen = 0 := by
    show (State.modRwc n _ a).rwc[n].inGap = true ∧ (State.modRwc n _ a).rwc[n].wg = false ∧
      (State.modRwc n _ a).rwc[n].lg = false ∧ (State.modRwc n _ a).rwc[n].taperFrozen = 0
    rw [rwc_modRwc]; exact ⟨rfl, rfl, rfl, rfl⟩
  have e : d.rwc = c.rwc := rfl
  clear_value d
  have e' : d.rwc[n] = c.rwc[n] := rwc_of n e
  clear_value c
  split
  · obtain ⟨p, q, k⟩ := rwcBump_rwc n 19 1 d
    rw [k, e']; exact hr
  · rw [e']; exact hr

theorem completes_defectSpanEnd :
    ∀ (n : Fin 4) (bits_ track : Nat) (s : State), rwcLive n s = true → s.rwc[n].inDefect = true → bits_ ≤ 4096 →
    ∃ t, exec (.defectSpanEnd n bits_ track) s = .next t ∧ t.rwc[n].inDefect = false := by
  intro n b track s h1 h2 h3
  refine ⟨_, rfl, ?_⟩
  rw [h1, h2, if_pos (by decide)]
  dsimp only
  rw [if_neg (by omega)]
  obtain ⟨c, q, k⟩ := rwcBump_rwc n 15 b (s.modRwc n fun r => { r with inDefect := false })
  rw [k, rwc_modRwc]

theorem completes_wickCriticalLimit :
    ∀ (temp : Int) (s : State), s.sys.aux = true → pdOn 2 s = false → s.pwr.state ≠ .dark → criticalTemp ≤ temp →
    s.rvr.commit = false → anyLoaded s = false →
    ∃ t, exec (.wickCriticalLimit temp) s = .next t ∧ t.pwr.state = .dark ∧ t.pwr.darkCritical = true := by
  intro temp s h1 h2 h3 h4 h5 h6
  have hp : (s.sys.aux && !(pdOn 2 s) && s.pwr.state != .dark && decide (criticalTemp ≤ temp)) = true := by
    rw [h1, h2]; simp [h3, h4]
  refine ⟨_, rfl, ?_⟩
  rw [if_pos hp]
  generalize hu : State.modThm _ s = u
  have e5 : u.rvr.commit = false := by rw [← hu]; exact h5
  have e6 : ∀ n ∈ channels u, u.sve[sveOf n].loaded = false := by
    rw [← hu]
    intro n hn
    have := List.any_eq_false.mp h6 n hn
    exact Bool.eq_false_iff.mpr this
  have e7 : retractLoaded 6 (u.modThm fun t => { t with critical := some (temp, 0x1F) }) = u.modThm fun t => { t with critical := some (temp, 0x1F) } := by
    exact retract_none e6
  have e8 : criticalLimit temp 0x1F u = u.modThm fun t => { t with critical := some (temp, 0x1F) } := by
    unfold criticalLimit
    dsimp only
    rw [if_neg (by change ¬ u.rvr.commit = true; rw [e5]; decide)]
    exact e7
  dsimp only
  rw [e8, if_neg (by
    have : anyLoaded (u.modThm fun t => { t with critical := some (temp, 0x1F) }) = false := List.any_eq_false.mpr (fun n hn => Bool.eq_false_iff.mp (e6 n hn))
    rw [this]; decide)]
  exact ⟨rfl, rfl⟩

theorem completes_pprDone :
    ∀ (res : Fin 5) (p : PprReq) (s : State), (hdrOf .dmc 0 s).freeze = false → s.dmc.ppr = some p →
    ∃ t, exec (.pprDone res) s = .next t ∧ t.dmc.pprDone = true ∧ t.dmc.pprRes = res.val ∧ t.dmc.ppr = none ∧
    411 ∈ t.irq.pending := by
  intro res p s hf h
  refine ⟨_, rfl, ?_⟩
  rw [if_neg (by rw [hf]; exact Bool.false_ne_true), h]
  dsimp only
  generalize (if (p.hard && res == 0) = true then scrambleRow p s else s) = u
  unfold pprResult
  extract_lets src v place
  have lv : ∀ x : State, (raiseLine 411 x).dmc = x.dmc := fun x => rfl
  have hx : ∀ x : State, x.dmc = v.dmc → (raiseLine 411 x).dmc.pprDone = true ∧ (raiseLine 411 x).dmc.pprRes = res.val ∧
      (raiseLine 411 x).dmc.ppr = none ∧ 411 ∈ (raiseLine 411 x).irq.pending := by
    intro x hx
    rw [lv, hx]
    refine ⟨rfl, rfl, rfl, ?_⟩
    simp only [raiseLine]; rw [mem_insertNat]; exact .inl rfl
  apply hx
  split
  · exact ev_dmc _ _ _ _ _ _
  · exact ev_dmc _ _ _ _ _ _

theorem completes_vddAux33Loss :
    ∀ s : State, ∃ t, exec .vddAux33Loss s = .next t ∧ t.sys.aux = false ∧ t.us = 0 ∧ t.mem = [] ∧
    t.evr = {} ∧ t.lif = {} ∧ t.cal = {} ∧
    ∀ (r : Reg) (n k : Nat), domAddr (r.addr n k) = false → reg r n k t = (BitVec.ofNat 32 (r.reset k)).toNat := by
  intro s
  refine ⟨_, rfl, rfl, rfl, rfl, rfl, rfl, rfl, fun r n k h => ?_⟩
  exact reg_filtered (p := domAddr) rfl h

end Sys2Proof.Machine
end

