-- ==== Sys2Proof/WellFormed.lean ====
section
/-!
DEFINITION. Which commands are well formed: an operand that is wider in its type than in the manual lies in the manual's
range. The meanings are total and answer for every operand.
-/

set_option Elab.async false

namespace Sys2Proof

/-- A register target: a page address is a 32-bit register's (R32), a CSR number has 12 bits. -/
def RegTarget.wf : RegTarget → Bool
  | .page a => a.toNat % 4 == 0
  | .csr _ num => decide (num < 4096)

/-- A submission queue entry: at least one sector, and fields within their widths (06). -/
def NvmeCmd.wf (c : NvmeCmd) : Bool :=
  decide (1 ≤ c.nlb) && decide (c.cid < 65536) && decide (c.nsid < 2 ^ 32) && decide (c.slba < 2 ^ 64)

/-- The straps of a cold start: BOOT has two pins (R48), and BIST names an array at most once. -/
def BootEnv.wf (e : BootEnv) : Bool := decide (e.boot < 4) && decide e.bistSram.Nodup

/-- A well-formed command. -/
def Instr.wf : Instr → Bool
  | .regWrite _ r _ => r.wf
  | .busAccess _ _ _ bytes _ => bytes == 1 || bytes == 2 || bytes == 4 || bytes == 8
  | .mainRailsGood env _ => env.wf
  | .resetNRelease env => env.wf
  | .criticalWake env => env.wf
  | .wakeSource src _ env => src != 0 && env.wf
  | .vlkWake _ _ env => env.wf
  | .dmcInitHeldAccess mib => decide (mib ≤ 16384)
  | .namespaceReady nsid => 1 ≤ nsid && nsid ≤ 64
  | .sqTailDoorbell _ q tail es => decide (q ≤ 256) && decide (tail < 4096) && es.all (·.wf)
  | .cqHeadDoorbell _ q head => decide (q ≤ 256) && decide (head < 4096)
  | .interruptCoalescingTimeout _ q => decide (q ≤ 256)
  | .commandFetch mi => match mi with | some x => x.2.wf | none => true
  | .readNvmeMiDataStructure dtyp port => decide (dtyp < 256) && decide (port < 256)
  | .configurationGet ident => decide (ident < 256)
  | .configurationSet ident v => decide (ident < 256) && decide (v < 2 ^ 32)
  | .vpdRead off len => decide (off < 65536) && decide (len < 65536)
  | .vpdWrite off bytes => decide (off < 65536) && decide (bytes.length < 65536)
  | .journalBlockDurable copies => copies.all fun c => decide (c.2.1 < 4)
  | .migrationStart _ idx ch sl => decide (idx < 2 ^ 25) && decide (ch < 4) && decide (sl < 2 ^ 30)
  | .migrationCopyVerified _ idx _ => decide (idx < 2 ^ 25)
  | .migFree _ idx => decide (idx < 2 ^ 25)
  | .faultRequest _ cause => decide (cause < 2 ^ 16)
  | .codewordDecode k _ => decide (k < 8)
  | .shockConversion _ _ v => decide (-32768 ≤ v) && decide (v < 32768)
  | .pwmCentre iu iv _ _ => [iu, iv].all fun x => decide (-32768 ≤ x) && decide (x < 32768)
  | .bemfCrossing period _ => decide (period < 2 ^ 24)
  | .read _ steps | .compare _ steps | .verify _ steps => steps.all fun x => decide (x.2 ≤ 10)
  | .headRetire _ _ _ zones => zones.all fun i => decide (i < 1048576)
  | .svnCommit count => decide (count ≤ 64)
  | .debugResponse level _ _ _ => level == 1 || level == 2
  | .trimCompute stats => stats.all fun x => decide (x.1 < 137) && decide (x.2.1 < 2 ^ 16)
  | .extend m _ => decide (m < 16)
  | .keyGenerate ns user limit => decide (ns < 64) && decide (user < 32) && decide (limit < 2 ^ 40)
  | .clusterDecode _ addr _ _ => decide (addr < 2 ^ 32)
  | .defectSpanEnd _ _ track => decide (track < 2 ^ 24)
  | .guardWordWrite _ _ _ | .guardWindowExhausted _ | .softReset _ _ | .softResetComplete _ | .freeze _ _ _
  | .errClear _ _ | .irqSetWrite _ _ _ | .allcln _ _ _ | .l1Clean _ _ | .l1Invalidate _ _
  | .l1CleanAndInvalidate _ _ | .l1NoOperation _ _ | .irqTake _ | .uirqdone _ _ | .irqRouteWrite _ _ _
  | .irqSwset _ _ | .twinDataAccess _ _ _ _ | .por | .xo32kQualified | .xo32kFail | .xo40Fail | .railFault _
  | .uartRecoveryImage _ | .perstDeassert _ | .perstAssert _ | .configRequest _ _ | .dmcInitGo _ | .dmcInitDone _
  | .readySet _ _ | .readyClr _ | .controllerEnable _ _ | .controllerReset _ | .functionLevelReset _ | .linkDown _
  | .resetNAssert | .coreDomainHold _ | .nvmSubsystemReset _ _ | .watchdogEnable _ _ | .watchdogKick _ _
  | .watchdogPeriod | .watchdogReset | .powerLoss | .preqGo _ _ | .powerStateEntered | .pdoffWrite _ _
  | .clkDomWrite _ _ _ | .pllLocked _ | .pllLockLoss _ | .psEntryRestart | .leaveRequest _ _ _ | .leaveRelease _ _ _
  | .leaveRenew _ _ _ | .leaveExpiry _ | .drawAfterExpiry _ | .leaveDeadline _ | .thermalCeilingStep
  | .fetchPauseEnd | .writeTransferStart _ | .dataTransferComplete _ | .hostMemoryError _ | .completionPost _
  | .recoveryTimeLimitExpiry _ | .abortMatch _ _ | .write _ | .zoneAppend _ | .flush _
  | .writeUncorrectable _ | .writeZeroes _ | .datasetManagement _ | .reservationRegister _
  | .reservationReport _ | .reservationAcquire _ | .reservationRelease _ | .zoneOpen _ | .zoneClose _
  | .zoneFinish _ | .zoneReset _ | .zoneOffline _ | .reportZones _ | .createIoSq _ | .createIoCq _ | .deleteIoSq _
  | .deleteIoCq _ | .identify _ | .getLogPage _ | .logGuaranteeExceptions _ | .logEventRecorder _
  | .logLifetimeCounters _ | .logActuatorHeadHealth _ | .logLeasesPower _ | .logAttestationMeasurements _
  | .setFeatures _ | .getFeatures _ | .setFeaturesPowerManagement _ | .setFeaturesTimestamp _
  | .getFeaturesTimestamp _ | .setFeaturesVolatileWriteCache _ | .setFeaturesInterruptCoalescing _
  | .setFeaturesTemperatureThreshold _ | .setFeaturesReadRecoveryLevel _ | .setFeaturesRecoveryTimeLimit _
  | .setFeaturesDirtyCap _ | .setFeaturesLeaseFloor _ | .setFeaturesBehaviourProfile _
  | .getFeaturesBehaviourProfile _ | .asynchronousEventRequest _ | .abort _ | .keepAlive _ | .namespaceManagement _
  | .namespaceAttachment _ | .firmwareImageDownload _ | .firmwareCommit _ _ | .firmwareActivation _ _
  | .activationPauseTimeout | .formatNvm _ | .sanitizeOverwrite _ | .sanitizeCryptoErase _ | .sanitizeBandDone
  | .securitySend _ | .securityReceive _ | .attestationNonce _ | .attestationReportSigned
  | .attestationReportReceive _ | .credential _ | .deviceSelfTest _ | .nvmeMiSend _ | .nvmeMiReceive _
  | .nvmSubsystemHealthStatusPoll | .controllerHealthStatusPoll _ | .miReset | .basicManagementCommand
  | .nsdomWrite _ _ _ | .lgrWinGo _ _ | .checkpoint | .reservoirCommit _ | .ledgerFreeze | .commitRecordDurable
  | .reservoirReplay _ | .replayDone | .restartRecovery _ _ | .taskCommit _ _ | .taskCancel _ _ | .taskPromotion _
  | .microwordIssue _ | .seqNext _ | .seqJump _ | .seqCall _ | .seqRet _ | .seqBrt _ | .seqBrf _ | .seqDispatch _
  | .seqLoop _ | .waitTimeout _ | .atomicBound _ | .asqAbort _ _ _ | .taskDeadline _ | .resultPop _ _ _
  | .microcodeActivate _ | .arm _ _ | .activationCopy | .activationAbandon | .openctlWrite _ _
  | .readerCheck _ _ _ _ _ | .clockField _ _ | .syncADecision _ _ | .syncBDecision _ _ | .blindFraming _ _
  | .defectSpan _ _ _ | .loopLimit _ _ | .pmonSnap _ | .pmonClr _ | .squeezeRedecode _ | .retainedSlotFree _ _
  | .failurePop _ _ _ | .defectInsert _ _ | .defectDelete _ _ | .defectClearPending _ _ | .defectInsertRelease
  | .sampleTrigger _ _ | .syncTimeout _ _ | .tableSwapGo _ _ | .tableSwap _ | .mailCommit _ _ | .engineRun _ _ _
  | .seekTimeout _ | .shockSensorFault _ _ | .cdaShort _ _ | .retractGo _ _ | .retractEnd _ | .focusLost _
  | .jumpGo _ _ _ | .focusSweepGo _ _ _ | .traceStart _ _ _ | .traceStop _ _ _ | .traceRead _ _ | .start _
  | .brake _ | .brakeEntry | .coast _ | .clrf _ | .alignDone | .spinupAttemptTimeout | .commutation _
  | .floatPeriodEnd _ | .recoveryTimeout | .motorRailThreshold _ | .chopperFault _ _ | .chopperConducting _
  | .railOvervoltage _ | .spnFltNLow | .phaseOpen _ | .supplyReversed _ | .spindleStopped | .rectifyExit
  | .preampFault _ | .psiFrameDone _ _ _ | .psiFwcmdGo _ _ _ | .laserMonitorRead _ _ _ | .lsrClrf _ _
  | .addressUnit _ _ _ _ | .optFmtWrite _ _ | .saDelayEnd _ | .sledMoveEnd _ | .ddrRead _ _ _
  | .regattrPolicyWrite _ _ _ | .splitRead _ | .splitWrite _ | .scrubRead _ | .softPpr _ _ | .hardPpr _ _
  | .rowLogClear _ _ | .bccAccess _ _ _ _ _ | .ceWindowExpiry | .bccEnable _ | .bccDisable _ | .drainComplete
  | .bccClean _ | .bccInval _ | .bccCleanInval _ | .bccZero _ | .bccLock _ | .bccUnlock _ | .bccInvalAll _
  | .rangeOpDone | .repairMapEntry _ | .keyZero _ | .keyCheckpoint | .nsActive _ _ _ | .takeOwnership _
  | .addOwnerKey _ _ | .revokeOwnerKey _ _ | .ownerPolicy _ _ _ _ | .exportKeys _ _ | .importKeys _ _
  | .behaviourProfileUnlock _ _ | .firmwareActivationMeasurement _ | .slotSelect _ _ | .snuffLevel1 _
  | .snuffLevel2 _ | .alarmFuseBlow | .epochFuseBlow | .keyRestore | .debugChallenge | .thmConversion _ _
  | .shutdownDimEntry | .criticalDarkEntry | .clrshut _ | .clrexcl _ | .taperStep _ | .trimAge _ | .eventStore
  | .eventRaiseSw _ _ | .floodPeriod | .evrNextRead _ | .evrCursorWrite _ _ | .evrWindowAdvance _
  | .evrBaseWrite _ _ _ | .evrStore _ | .evrCommit _ | .lifAdd _ _ | .lifSeal _ | .lifSnap _ | .lifTick | .calRead _
  | .calSet _ _ | .calAdjust _ _ | .slewDone | .calAlarm | .beaconSend | .beaconReceive _ _ | .beaconMissed
  | .discoverSend | .discoverReceive _ | .enrollReceive _ _ | .pollSend | .pollReceive _ | .replyReceive _
  | .pollMissed | .imageReceive _ _ _ _ _ | .leaseRenewalRequest | .leaseExpiry | .quietPeriodEnd
  | .orphanBackoffEnd | .orphanWindowEnd | .segmentKeyRotation | .vlkCmdWake _ _ | .vlkCmdAttreq _ _
  | .vlkCmdRemove _ _ | .imageFanout _ _ | .linkOpen | .linkShort _ | .linkRetry _
  | .sectorStart _ | .sectorEnd _ | .wedgeGap _ _ | .wickCriticalLimit _ | .pprDone _ | .segmentGrantExpiry _
  | .fleetAuthorizationExpiry | .vddAux33Loss => true

end Sys2Proof
end

