-- ==== Sys2Proof/Tests/Slice0.lean ====
section
/-!
SUPPORT. Tests: ill-formed commands that WellFormed refuses, the manual's worked examples, and for each statement with
hypotheses a concrete state and operands that meet them together (wit_<clause>). Expected values are those the manual prints.
-/

set_option Elab.async false
set_option linter.all false

namespace Sys2Proof.Machine
open Sys2Proof
def wOn : State :=
  { pwr := { pd := Vector.replicate 22 .on }
    sys := { coreUp := true, railsGood := true, acoresUp := true, stage := 6 } }
def openWindow (b : Blk) (n : Nat) (s : State) : State := s.modHdr (b.hdr n) fun h => { h with remain := 256 }
def wNvme : NvmeCmd := { op := .read, cid := 1 }
def wCmd : Cmd :=
  { tag := 0, ctrl := 0, sqid := 1, fromMi := false, cmd := wNvme, ord := some 5, phase := .accepted, status := none, dnr := false
    dw0 := 0, dw1 := 0, aborted := false, exc := none, fetched := 0, sqhd := 0 }
def wEntry : LEntry :=
  { idx := 0, ord := 5, slba := 0, nlb := 1, kind := .read, state := .pending, ns := 0, dom := 0, tag := 0, ctrl := 0
    pins := 0, buf := 0, fua := false, enc := false, zoned := false, captured := false, kslot := 0, data := [], sel := [] }
def wSig : SigObj := { key := 7, valid := true }
def wNs : Ns :=
  { nsid := 1, zoned := false, size := 1024, lbaf := 0, enc := false, kslot := 0, attached := [0], ready := true, zones := 0
    formatting := false, sanitizing := false, registrants := [], resv := none, rgen := 0 }
def wFrame : VFrame :=
  { inverted := false, hcrcOk := true, authOk := true, src := 0x100, dst := 0x200, bcast := false, seq := 1, more := false, items := [] }
def wEnv : BootEnv := { pers := .magnetic, dualp := false, boot := 0 }
def wSlot : VSlot :=
  { k := 0, state := .active, devid := 9, floor := 0, req := 0, grant := 0, expiry := 0, older := [], missed := 0, badTag := 0
    first := false, slept := false, more := 0, polled := false, lastSeq := 0, seen := [], txSeq := 0, asked := false, removing := false }
def wTicket : Ticket :=
  { num := 0, state := .granted, cls := 1, mw := 100, port := 0, prio := 0, inst := 0, gen := 0, dur := 0, at_ := 0, reqEnd := 0, order := 0 }
def wImg : BootImage :=
  { wellFormed := true, typ := 2, sig := wSig, svn := 0, persMask := 15, enc := false, tagOk := true, digest := 0 }
def wSq : Sq := { id := 1, size := 16, head := 0, tail := 1, cq := 1, prio := 0, entries := [wNvme] }
def wCq : Cq :=
  { id := 1, size := 16, head := 0, tail := 0, phase := true, vector := 1, ien := false, posted := [], coalesced := 0 }
def wZone : Zone := { idx := 0, ch := 0, sl := 0, dwp := 0, st := .empty, fwp := 0, ns := 0, cap := 65536, mig := false, lastWr := 0 }
def wMc : McImage := { opn := false, ver := 1, svn := 0, words := [], matches_ := [], disp := [], digest := 0 }
def wMeas : ClockMeas := { good := true, err := 0, freq := 0, wedge := 0 }
def wCw : Codeword :=
  { ch := 0, tag := 0, head := 0, track := 0, sector := 0, ord := 5, lba := 0, ns := 0, recov := false, combine := false, prio := 0
    limit := 10, parity := false, parityRead := false, squeezed := false, frame := none, blk := none }
def wRes : DecodeRes :=
  { iters := 1, synw := 0, crcOk := true, lba := 0, ns := 0, epoch := 0, kslot := 0, encf := false, hdrOk := true, frameNo := 0
    parity := false, step := 1, lastStep := false }
def wLine : CLine := { set_ := 0, way := 0, line := 0, valid := true, dirty := true, locked := false, data := 5, used := 0 }
def wMcObj : McObj :=
  { magic := 0x4D435031, format := 1, kind := 1, keyId := 7, sig := wSig, persMask := 15, romVer := 0, ver := 1, svn := 0, words := [], mtch := []
    disp := [], digest := 0 }
def wMig : Mig :=
  { zone := false, idx := 0, newCh := 0, newSl := 1, oldCh := 0, oldSl := 0, seq := 0, srcJ := 0, ord := 5, captured := []
    committed := false }
def wDefect : Defect := { grown := true, pending := false, trackDef := false, track := 1, sector := 2, len := 1 }
def wServo : ServoIn :=
  { demodOk := true, wedge := 0, track := 0, ratio := 0, ampl := 8192, sad := Vector.replicate 8 0, late := 0, crossings := 0
    passed := false }
def wFr : Frame := { cls := .firmware, use := .firmware, write := true, addr := 0, data := 0 }
def wKslot : KSlot :=
  { slot := 0, valid := true, lost := false, retired := false, ns := 0, user := 0, epoch := 0, use_ := 0, limit := 100, key := 5
    ckpt := 0, changed := false, warned := false }
def wL1 : L1Line := { core := 0, line := 0x800000, dirty := true, data := 5 }
def wSan : San := { overwrite := true, passes := 1, pass := 0, bands := 1, band := 0, nsids := [1], pat := 0, doneJ := none }
def wBeacon : Beacon := { sec := 1, errNs := 10, offNs := 0 }
def wEvent : Event := { seq := 0, sec := 0, usec := 0, code := 0x0101, src := 0, flags := 0, p0 := 0, p1 := 0, p2 := 0 }
def wPpr : PprReq := { hard := false, rank := 0, subch := 0, bg := 0, ba := 0, row := 0 }
def wBundle : Bundle := { devid := 0, srcOk := true, tagOk := true, recs := [] }
def wRange : RangeOp := { op := 1, first := 0x2000000, lines := 1, nfail := 0, firstFail := 0 }
def wPow : PowEntry := { bias := 1, preheat := 1, boost := 1, monph := 1, monwr := 1, win := 1, valid := true }
def wGen : Gen := { gen := 1, writes := [], tail := [], front := [], frontAll := 0, encDoms := [], jseq := 0, ndev := 0, durable := true, held := false }
theorem rising_setFld (r : Reg) (n k hi lo v : Nat) {s : State} (h : Rising s.regs) : Rising (setFld r n k hi lo v s).regs := h.sput

theorem bootResult_owner {typ : Nat} {img : BootImage} {s : State} (h1 : img.wellFormed = true) (h2 : img.typ = typ)
    (h3 : ownerSigned img.sig s = true) (h4 : s.sec.svn ≤ img.svn) (h5 : img.persMask.testBit (persBit s) = true)
    (h6 : img.enc = false) : bootResult typ img s = 1 := by
  have h4' : ¬img.svn < s.sec.svn := Nat.not_lt.mpr h4
  simp [bootResult, h1, h2, h3, h4', h5, h6]

def wC (op : NvmeOp) (d10 d11 : Nat) : Cmd := { wCmd with cmd := { wNvme with op := op, cdw10 := d10, cdw11 := d11 } }

def wUsers (d : Nat) : Vector UserPage 32 := (Vector.replicate 32 {}).set 0 { cred := some d }

def wHash (c : Cmd) : Nat := Config.hash 0 (c.cmd.payload % 2 ^ 512)
theorem wUsers_cred {c : Cmd} {s : State} (h : s.sec.users = wUsers (wHash c)) (h0 : spsp c.cmd = 0) :
    (vget s.sec.users (spsp c.cmd) {}).cred = some (Config.hash 0 (c.cmd.payload % 2 ^ 512)) := by rw [h, h0]; rfl

def wTable : SveTable := { rows := [(0, 0x0C * 2 ^ 59), (1, 0x0D * 2 ^ 59 + 1)] }
def wDl (l : List Host.Cell) (s : State) : State :=
  { setReg .dldir 0 0 0x1000000 s with
    mem := [(0x100000001, 1), (0x100000004, 1), (0x100000005, 1)] ++ l }

def wOff (d : Fin 22) : State := { wOn with pwr := { wOn.pwr with pd := (Vector.replicate 22 .on).set d .off } }

/-- BCC enabled with one line, which holds the first 128 bytes of DDR5. -/
def wBcc (s : State) : State := { s with bcc := { s.bcc with state := .enabled, lines := [wLine] } }
/-- A range operation of kind k over that line runs. -/
def wRun (k : Nat) : State := { wBcc wOn with bcc := { (wBcc wOn).bcc with op := some { wRange with op := k } } }
theorem wRun_runs (k : Nat) : RangeRuns k { wRange with op := k } (wRun k) := by
  refine ⟨rfl, rfl, rfl, ?_, ?_⟩
  · intro j hj
    have : j = 0 := by change j < 1 at hj; omega
    subst this
    exact (by decide : inDdr ((0x2000000 + 0) * 128) (wRun 0) = true)
  · exact List.pairwise_singleton _ _



/-! ### Ill-formed commands are refused (WellFormed) -/

theorem test_wf_page : Instr.wf (.regWrite (.core (.a 0)) (.page 0x40000031) 0) = false := by decide

theorem test_wf_csr : Instr.wf (.regWrite (.core (.a 0)) (.csr (.a 0) 4096) 0) = false := by decide

theorem test_wf_bytes : Instr.wf (.busAccess (.core (.a 0)) 0 false 3 0) = false := by decide

theorem test_wf_rails : Instr.wf (.mainRailsGood { wEnv with boot := 4 } false) = false := by decide

theorem test_wf_release : Instr.wf (.resetNRelease { wEnv with bistSram := [1, 1] }) = false := by decide

theorem test_wf_criticalWake : Instr.wf (.criticalWake { wEnv with boot := 4 }) = false := by decide

theorem test_wf_wakeSource : Instr.wf (.wakeSource 0 0 wEnv) = false := by decide

theorem test_wf_vlkWake : Instr.wf (.vlkWake 0 0 { wEnv with boot := 4 }) = false := by decide

theorem test_wf_initHeld : Instr.wf (.dmcInitHeldAccess 16385) = false := by decide

theorem test_wf_nsid : Instr.wf (.namespaceReady 65) = false := by decide

theorem test_wf_tail : Instr.wf (.sqTailDoorbell 0 1 4096 []) = false := by decide

theorem test_wf_queue : Instr.wf (.sqTailDoorbell 0 257 0 []) = false := by decide

theorem test_wf_entry : Instr.wf (.sqTailDoorbell 0 1 1 [{ wNvme with nlb := 0 }]) = false := by decide

theorem test_wf_cid : Instr.wf (.commandFetch (some (0, { wNvme with cid := 65536 }))) = false := by decide

theorem test_wf_head : Instr.wf (.cqHeadDoorbell 0 1 4096) = false := by decide

theorem test_wf_coalescing : Instr.wf (.interruptCoalescingTimeout 0 257) = false := by decide

theorem test_wf_dtyp : Instr.wf (.readNvmeMiDataStructure 256 0) = false := by decide

theorem test_wf_ident : Instr.wf (.configurationGet 256) = false := by decide

theorem test_wf_value : Instr.wf (.configurationSet 1 4294967296) = false := by decide

theorem test_wf_vpdRead : Instr.wf (.vpdRead 65536 0) = false := by decide

theorem test_wf_vpdWrite : Instr.wf (.vpdWrite 65536 []) = false := by decide

theorem test_wf_copies : Instr.wf (.journalBlockDurable [(0, 4, 0)]) = false := by decide

theorem test_wf_migration : Instr.wf (.migrationStart false 0 4 0) = false := by decide

theorem test_wf_migrationVerified : Instr.wf (.migrationCopyVerified false 33554432 []) = false := by decide

theorem test_wf_migFree : Instr.wf (.migFree false 33554432) = false := by decide

theorem test_wf_cause : Instr.wf (.faultRequest 0 65536) = false := by decide

theorem test_wf_pool : Instr.wf (.codewordDecode 8 wRes) = false := by decide

theorem test_wf_shock : Instr.wf (.shockConversion 0 0 32768) = false := by decide

theorem test_wf_current : Instr.wf (.pwmCentre 32768 0 0 false) = false := by decide

theorem test_wf_period : Instr.wf (.bemfCrossing 16777216 false) = false := by decide

theorem test_wf_svn : Instr.wf (.svnCommit 65) = false := by decide

theorem test_wf_level : Instr.wf (.debugResponse 3 wSig 0 false) = false := by decide

theorem test_wf_trim : Instr.wf (.trimCompute [(137, 0, 0)]) = false := by decide

theorem test_wf_register : Instr.wf (.extend 16 0) = false := by decide

theorem test_wf_user : Instr.wf (.keyGenerate 0 32 0) = false := by decide

theorem test_wf_cluster : Instr.wf (.clusterDecode 0 4294967296 [] []) = false := by decide

theorem test_wf_span : Instr.wf (.defectSpanEnd 0 0 16777216) = false := by decide

theorem test_wf_ladder : Instr.wf (.read 0 [(0, 11)]) = false := by decide

theorem test_wf_zones : Instr.wf (.headRetire 0 0 true [1048576]) = false := by decide

theorem test_wf_accepts : Instr.wf (.keyGenerate 63 31 (2 ^ 40 - 1)) = true ∧ Instr.wf (.svnCommit 64) = true ∧
    Instr.wf (.regWrite (.core (.a 0)) (.page 0x40000030) 0) = true := by decide

/-! ### Worked examples of the manual -/

/-- 08, worked example: word 0x040E. -/
theorem test_word_040E : romAt 0x040E = 0x00000028F20020000000461B00000002 := by decide +kernel

/-- 08, worked example: bits [31:2] of word 0x0406, and its fields. -/
theorem test_word_0406 : mwUnit (romAt 0x0406) * 1 = 0x3FC00000 ∧ mwWait (romAt 0x0406) = 11 ∧ mwTmr (romAt 0x0406) = 0xC004 := by
  decide +kernel

/-- 08: TMR 0x461B is 1,563 units of 64 ns, which is 100.032 us. -/
theorem test_tmr : tmrNs 0x461B = 100032 := by decide +kernel

/-- 09, worked case: candidates at 988 and 1,001 in the window of P = 1,000; the damaged true mark is none. -/
theorem test_sync_a : bestCand (-16) 16 [⟨-12, 3, 0⟩, ⟨1, 5, 0⟩] = some (-12, 3) := by decide +kernel

/-- 09, worked case: B at 3,089 overrules A. -/
theorem test_sync_b : framing (some (-12, 3)) [⟨1, 1, 0⟩] = (.bOverrule, some (1, 1)) := by decide +kernel

def wBetween : State :=
  State.reset.modLgr fun g => { g with
    entries := [{ wEntry with ord := 100, slba := 1000, nlb := 16, kind := .write, ns := 1 },
                { wEntry with ord := 102, slba := 1012, nlb := 8, kind := .write, ns := 1, state := .buffered }] }

/-- 07, a read between two writes: W1's buffer serves 1008-1015. -/
theorem test_read_older : (selectSector 101 1 1008 wBetween).2 = .buffer 100 false := by decide +kernel

/-- 07, a read between two writes: W2 is younger, 1016 comes from media. -/
theorem test_read_younger : newestOlder 101 1 1016 wBetween = none := by decide +kernel

/-! ### Single commands on small states -/

/-- R36: BCC's guard word is 0x6B41, and it sets REMAIN to 256. -/
theorem test_guard_word : ∃ t, exec (.guardWordWrite (.core (.a 0)) 20 0x6B41) wOn = .next t ∧ (headerOf 20 t).remain = 256 :=
  ⟨_, rfl, by decide +kernel⟩

/-- R36: a wrong word closes the window and records error 0x0004. -/
theorem test_guard_wrong : ∃ t, exec (.guardWordWrite (.core (.a 0)) 20 0x6B40) wOn = .next t ∧
    (headerOf 20 t).remain = 0 ∧ (headerOf 20 t).errCode = 4 := ⟨_, rfl, by decide +kernel, by decide +kernel⟩

/-- Time passes on an empty queue. -/
theorem test_idle : ∃ t, step State.reset = .next t ∧ t.pending = [] := ⟨_, rfl, by decide +kernel⟩

/-- No word spells a command: the table gives no bits. -/
theorem test_no_words : decodeTableWord 32 0 = none ∧ decodeTableWord 64 (2 ^ 64 - 1) = none := by decide

/-! ### Hypotheses of the general statements are met -/

theorem wit_stepRunsFrontCommand : ∃ (c : Instr) (rest : List Instr) (s : State), s.pending = c :: rest :=
  ⟨.por, [.clrshut (.core (.a 0))], { wOn with pending := [.por, .clrshut (.core (.a 0))] }, rfl⟩

theorem wit_emptyQueueLetsTimePass : ∃ s : State, s.pending = [] := ⟨wOn, rfl⟩

theorem wit_partsLeftAlone : ∃ t, exec .por wOn = .next t := ⟨_, rfl⟩

theorem wit_registersLeftAlone : ∃ (l : List (Reg × Nat × Nat)) (t : State), mayStore (.taskCancel (.core (.a 0)) 0) = some l ∧ exec (.taskCancel (.core (.a 0)) 0) wOn = .next t :=
  ⟨_, _, rfl, rfl⟩

def wKept : State :=
  { wOn with mem := [(0x80000000, 1), (0x80000005, 9)], spn := { wOn.spn with gates := 0x09 }
             bcc := { wOn.bcc with lines := [{ wLine with way := 3, locked := true }] }, sec := { wOn.sec with svn := 64 } }

theorem wit_canonicalFormsKept : ∃ t, Canonical wKept ∧ step wKept = .next t :=
  ⟨_, ⟨by decide +kernel, by decide +kernel, trivial⟩, rfl⟩
theorem wit_gatesNeverBothHigh : ∃ t, GatesSafe wKept ∧ step wKept = .next t :=
  ⟨_, by show ∀ p : Fin 3, _; decide +kernel, rfl⟩
theorem wit_highWaysNeverLocked : ∃ t, LocksLow wKept ∧ step wKept = .next t :=
  ⟨_, by intro c h; rw [List.mem_singleton.1 h]; exact fun _ => by decide, rfl⟩
theorem wit_svnWithinFuses : ∃ t, wKept.sec.svn ≤ 64 ∧ step wKept = .next t := ⟨_, by decide +kernel, rfl⟩

theorem wit_pinsInReset : ∃ s : State, s.sys.coreUp = false :=
  ⟨{ wOn with sys := { wOn.sys with coreUp := false } }, rfl⟩
theorem wit_pinsOfIdleChannel : ∃ (n : Fin 4) (s : State), chanPins n s = false := ⟨0, wOff 18, by decide⟩
theorem wit_pinsOfGatedSpindle : ∃ s : State, pdOn 13 s = false := ⟨wOff 13, by decide⟩

/-- 03, XSPI: the chip selects are high and the flash resets low in core reset. -/
theorem test_pins_reset : resetLevel .xspi0Cs = .high ∧ resetLevel (.xspiReset 0) = .low := by decide

/-- Both clauses of HEAD_RETIRE are met. -/
theorem wit_headRetire : ∃ (n : Fin 4) (s : State), Reach .asq n s ∧ s.sys.acoresUp = true :=
  ⟨0, { wOn with sys := { wOn.sys with acoresUp := true } }, by refine ⟨?_, ?_, ?_⟩ <;> decide, rfl⟩

/-! ### Witnesses of the completion statements -/

theorem wit_regWritePage : ∃ (m : Master) (a : BitVec 40) (v : Word) (s : State) (b : Blk) (n : Nat) (r : Reg) (k : Nat),
    0x40000000 ≤ a.toNat ∧
    a.toNat % 4 = 0 ∧
    a.toNat + 4 ≤ 0x41000000 ∧
    blockAt a.toNat = some (b, n) ∧
    b.base n + 0x30 ≤ a.toNat ∧
    b.regAt (a.toNat - b.base n) = some (r, k) ∧
    r.plain = true ∧
    Reach b n s ∧
    Rising s.regs :=
  ⟨.core (.a 0),
   0x40000080,
   (0 : Word),
   wOn,
   .sys,
   0,
   .srsel,
   0,
   by decide +kernel,
   by decide +kernel,
   by decide +kernel,
   by decide +kernel,
   by decide +kernel,
   by decide +kernel,
   by decide +kernel,
   by refine ⟨?_, ?_, ?_⟩ <;> decide,
   by first | exact True.intro | (repeat first | exact True.intro | apply rising_setFld)⟩

theorem wit_regWriteCsr : ∃ (m : Master) (c : Core) (v : Word) (s : State),
    coreOn c s = true :=
  ⟨.core (.a 0),
   .a 0,
   (0 : Word),
   wOn,
   by decide +kernel⟩

theorem wit_busUnlisted : ∃ (m : Master) (a : BitVec 40) (wr : Bool) (bytes : Nat) (v : BitVec 64) (s : State),
    pdOn 2 s = true ∧
    0x60280000 ≤ a.toNat ∧
    a.toNat < ddrBase :=
  ⟨.core (.a 0),
   0x70000000,
   false,
   0,
   0,
   wOn,
   by decide +kernel,
   by decide +kernel,
   by decide +kernel⟩

theorem wit_busSramRead : ∃ (m : Master) (a : BitVec 40) (v : BitVec 64) (s : State),
    pdOn 2 s = true ∧
    pdOn 7 s = true ∧
    0x20000000 ≤ a.toNat ∧
    a.toNat + 4 ≤ 0x20800000 ∧
    a.toNat % 4 = 0 ∧
    l1Find (a.toNat / 64) s = none ∧
    (∀ c : Fin 4, m = .core (.a c) → s.sys.ucache[c].2 = false) :=
  ⟨.core (.a 0),
   0x20000000,
   0,
   wOn,
   by decide +kernel,
   by decide +kernel,
   by decide +kernel,
   by decide +kernel,
   by decide +kernel,
   by decide +kernel,
   by first | decide | decide +kernel | (intro _ h; nomatch h) | (intro c _; revert c; decide)⟩

theorem wit_busSramWrite : ∃ (m : Master) (a : BitVec 40) (v : BitVec 64) (s : State),
    pdOn 2 s = true ∧
    pdOn 7 s = true ∧
    0x20000000 ≤ a.toNat ∧
    a.toNat + 4 ≤ 0x20800000 ∧
    a.toNat % 4 = 0 ∧
    Rising s.mem ∧
    (∀ c : Fin 4, m = .core (.a c) → s.sys.ucache[c].2 = false) :=
  ⟨.core (.a 0),
   0x20000000,
   0,
   wOn,
   by decide +kernel,
   by decide +kernel,
   by decide +kernel,
   by decide +kernel,
   by decide +kernel,
   by first | exact True.intro | (repeat first | exact True.intro | apply rising_setFld),
   by first | decide | decide +kernel | (intro _ h; nomatch h) | (intro c _; revert c; decide)⟩

theorem wit_guardRight : ∃ (m : Master) (h : Fin 77) (v : Word) (s : State) (b : Blk) (n : Nat),
    hdrBlk h = (b, n) ∧
    Reach b n s ∧
    (headerOf h s).locked = false ∧
    v.toNat % 2 ^ 16 = 0x6B00 + b.row.type_ :=
  ⟨.core (.a 0),
   0,
   BitVec.ofNat 32 (0x6B00 + Blk.sys.row.type_),
   State.modHdr 0 (fun x => { x with locked := false }) (wOn),
   .sys,
   0,
   by decide +kernel,
   by refine ⟨?_, ?_, ?_⟩ <;> decide,
   by decide +kernel,
   by decide +kernel⟩

theorem wit_guardWrong : ∃ (m : Master) (h : Fin 77) (v : Word) (s : State) (b : Blk) (n : Nat),
    hdrBlk h = (b, n) ∧
    Reach b n s ∧
    (headerOf h s).locked = false ∧
    v.toNat % 2 ^ 16 ≠ 0x6B00 + b.row.type_ :=
  ⟨.core (.a 0),
   0,
   (0 : Word),
   State.modHdr 0 (fun x => { x with locked := false }) (wOn),
   .sys,
   0,
   by decide +kernel,
   by refine ⟨?_, ?_, ?_⟩ <;> decide,
   by decide +kernel,
   by decide +kernel⟩

theorem wit_guardWindowExhausted : ∃ (h : Fin 77) (s : State),
    (headerOf h s).remain = 1 :=
  ⟨0,
   State.modHdr 0 (fun x => { x with remain := 1 }) (wOn),
   by decide +kernel⟩

theorem wit_softReset : ∃ (m : Master) (h : Fin 77) (s : State) (b : Blk) (n : Nat),
    hdrBlk h = (b, n) ∧
    Reach b n s ∧
    srstReason m b n s = 0 ∧
    (headerOf h s).srst = false :=
  ⟨.core (.a 0),
   20,
   State.modHdr 20 (fun x => { x with srst := false }) (wOn),
   (hdrBlk 20).1,
   (hdrBlk 20).2,
   by decide +kernel,
   by refine ⟨?_, ?_, ?_⟩ <;> decide,
   by decide +kernel,
   by decide +kernel⟩

theorem wit_softResetComplete : ∃ (h : Fin 77) (s : State),
    (headerOf h s).srst = true :=
  ⟨0,
   State.modHdr 0 (fun x => { x with srst := true }) (wOn),
   by decide +kernel⟩

theorem wit_freezeOn : ∃ (m : Master) (h : Fin 77) (on : Bool) (s : State) (b : Blk) (n : Nat),
    hdrBlk h = (b, n) ∧
    Reach b n s :=
  ⟨.core (.a 0),
   0,
   false,
   wOn,
   .sys,
   0,
   by decide +kernel,
   by refine ⟨?_, ?_, ?_⟩ <;> decide⟩

theorem wit_errClear : ∃ (m : Master) (h : Fin 77) (s : State) (b : Blk) (n : Nat),
    hdrBlk h = (b, n) ∧
    Reach b n s :=
  ⟨.core (.a 0),
   0,
   wOn,
   .sys,
   0,
   by decide +kernel,
   by refine ⟨?_, ?_, ?_⟩ <;> decide⟩

theorem wit_irqSetWrite : ∃ (m : Master) (h : Fin 77) (v : Word) (s : State) (b : Blk) (n : Nat),
    hdrBlk h = (b, n) ∧
    Reach b n s :=
  ⟨.core (.a 0),
   0,
   (0 : Word),
   wOn,
   .sys,
   0,
   by decide +kernel,
   by refine ⟨?_, ?_, ?_⟩ <;> decide⟩

theorem wit_allcln : ∃ (c : Fin 4) (den ien : Bool) (s : State),
    acoreOn c s = true :=
  ⟨0,
   false,
   false,
   wOn,
   by decide +kernel⟩

theorem wit_l1CleanState : ∃ (c : Fin 4) (line : BitVec 34) (s : State),
    acoreOn c s = true :=
  ⟨0,
   0,
   wOn,
   by decide +kernel⟩

theorem wit_l1CleanMemory : ∃ (c : Fin 4) (line : BitVec 34) (s : State) (l : L1Line),
    acoreOn c s = true ∧
    l1Own c line.toNat s = some l ∧
    l.dirty = true ∧
    line.toNat * 64 < 0x100000000 ∧
    Rising s.mem :=
  ⟨0,
   0x800000,
   { (wOn) with l1 := [wL1] },
   { wL1 with dirty := true },
   by decide +kernel,
   by decide +kernel,
   by decide +kernel,
   by decide +kernel,
   by first | exact True.intro | (repeat first | exact True.intro | apply rising_setFld)⟩

theorem wit_l1Invalidate : ∃ (c : Fin 4) (line : BitVec 34) (s : State),
    acoreOn c s = true :=
  ⟨0,
   0,
   wOn,
   by decide +kernel⟩

theorem wit_l1CleanAndInvalidate : ∃ (c : Fin 4) (line : BitVec 34) (s : State),
    acoreOn c s = true ∧
    Rising s.mem :=
  ⟨0,
   0,
   wOn,
   by decide +kernel,
   by first | exact True.intro | (repeat first | exact True.intro | apply rising_setFld)⟩

theorem wit_irqTake : ∃ (c : Core) (k : Nat) (s : State),
    pdOn 2 s = true ∧
    uirqid c s = some k :=
  ⟨.a 0,
   400,
   { setFld .irqRoute 0 400 31 0 0xFFFFFFFF (wOn) with irq := { wOn.irq with pending := [400] } },
   by decide +kernel,
   by decide +kernel⟩

theorem wit_irqTakeNone : ∃ (c : Core) (s : State),
    pdOn 2 s = true ∧
    uirqid c s = none :=
  ⟨.a 0,
   wOn,
   by decide +kernel,
   by decide +kernel⟩

theorem wit_irqRouteSec : ∃ (k : Fin 512) (v : Word) (s : State),
    Reach .irq 0 s ∧
    Rising s.regs :=
  ⟨0,
   (0 : Word),
   wOn,
   by refine ⟨?_, ?_, ?_⟩ <;> decide,
   by first | exact True.intro | (repeat first | exact True.intro | apply rising_setFld)⟩

theorem wit_irqRouteOther : ∃ (m : Master) (k : Fin 512) (v : Word) (s : State),
    Reach .irq 0 s ∧
    m ≠ .core .sec ∧
    41 ≤ k.val ∧
    k.val ≤ 75 :=
  ⟨.core (.a 0),
   41,
   (0 : Word),
   wOn,
   by refine ⟨?_, ?_, ?_⟩ <;> decide,
   by decide +kernel,
   by decide +kernel,
   by decide +kernel⟩

theorem wit_irqSwset : ∃ (m : Master) (v : Word) (s : State),
    Reach .irq 0 s ∧
    448 ≤ v.toNat ∧
    v.toNat ≤ 479 :=
  ⟨.core (.a 0),
   448,
   wOn,
   by refine ⟨?_, ?_, ?_⟩ <;> decide,
   by decide +kernel,
   by decide +kernel⟩

theorem wit_twinRead : ∃ (m : Master) (n : Fin 4) (v : Word) (s : State),
    Reach .cpx 0 s ∧
    tcoreExists n s = true ∧
    pdOn (14 + n) s = true :=
  ⟨.core (.a 0),
   0,
   (0 : Word),
   wOn,
   by refine ⟨?_, ?_, ?_⟩ <;> decide,
   by decide +kernel,
   by decide +kernel⟩

theorem wit_twinWrite : ∃ (m : Master) (n : Fin 4) (v : Word) (s : State),
    Reach .cpx 0 s ∧
    tcoreExists n s = true ∧
    pdOn (14 + n) s = true :=
  ⟨.core (.a 0),
   0,
   (0 : Word),
   wOn,
   by refine ⟨?_, ?_, ?_⟩ <;> decide,
   by decide +kernel,
   by decide +kernel⟩

theorem wit_xo32kQualified : ∃ (s : State),
    s.sys.aux = true ∧
    s.clk.xo32decided = false ∧
    s.us ≤ 1500000 :=
  ⟨{ wOn with sys := { wOn.sys with aux := true }, clk := { wOn.clk with xo32decided := false } },
   by decide +kernel,
   by decide +kernel,
   by decide +kernel⟩

theorem wit_xo32kLate : ∃ (s : State),
    s.sys.aux = true ∧
    s.clk.xo32decided = false ∧
    1500000 < s.us :=
  ⟨{ ({ wOn with sys := { wOn.sys with aux := true }, clk := { wOn.clk with xo32decided := false } }) with sys := { wOn.sys with aux := true }, us := 1500001 },
   by decide +kernel,
   by decide +kernel,
   by decide +kernel⟩

theorem wit_xo32kFailStart : ∃ (s : State),
    s.sys.aux = true ∧
    s.clk.xo32decided = false :=
  ⟨{ wOn with sys := { wOn.sys with aux := true }, clk := { wOn.clk with xo32decided := false } },
   by decide +kernel,
   by decide +kernel⟩

theorem wit_xo32kFailLater : ∃ (s : State),
    s.sys.aux = true ∧
    s.clk.xo32decided = true ∧
    s.clk.onRc = false :=
  ⟨{ wOn with sys := { wOn.sys with aux := true }, clk := { wOn.clk with xo32decided := true, onRc := false } },
   by decide +kernel,
   by decide +kernel,
   by decide +kernel⟩

theorem wit_xo40Fail : ∃ (s : State),
    s.sys.aux = true ∧
    s.clk.xo40failed = false :=
  ⟨{ wOn with sys := { wOn.sys with aux := true }, clk := { wOn.clk with xo40failed := false } },
   by decide +kernel,
   by decide +kernel⟩

theorem wit_mainRailsGood : ∃ (env : BootEnv) (b : Bool) (s : State),
    s.sys.aux = true ∧
    s.sys.railsGood = false ∧
    s.sys.resetNLow = false ∧
    s.pwr.darkCritical = false :=
  ⟨wEnv,
   false,
   { wOn with sys := { wOn.sys with aux := true, railsGood := false, resetNLow := false }, pwr := { wOn.pwr with darkCritical := false } },
   by decide +kernel,
   by decide +kernel,
   by decide +kernel,
   by decide +kernel⟩

theorem wit_railFault : ∃ (rail : Fin 9) (s : State),
    s.sys.aux = true :=
  ⟨0,
   { wOn with sys := { wOn.sys with aux := true } },
   by decide +kernel⟩

theorem wit_uartRecoveryImage : ∃ (img : BootImage) (s : State),
    s.sys.uartWait = true ∧
    pdOn 1 s = true ∧
    bootResult 2 img s = 1 :=
  ⟨wImg,
   { ({ wOn with sys := { wOn.sys with uartWait := true } }) with sec := { wOn.sec with okey := #v[some (7, false), none, none, none] } },
   by decide +kernel,
   by decide +kernel,
   by exact bootResult_owner (by decide) (by decide) (by decide +kernel) (by decide) (by decide) (by decide)⟩

theorem wit_perstDeassert : ∃ (p : Fin 2) (s : State),
    pdOn 8 s = true ∧
    pdOn 9 s = true ∧
    1 ≤ s.sys.stage ∧
    portExists p s = true :=
  ⟨0,
   wOn,
   by decide +kernel,
   by decide +kernel,
   by decide +kernel,
   by decide +kernel⟩

theorem wit_perstAssert : ∃ (p : Fin 2) (s : State),
    pdOn 8 s = true ∧
    portExists p s = true ∧
    (ctrlAt p s).perst = false :=
  ⟨0,
   State.modCtrl 0 (fun x => { x with perst := false }) (wOn),
   by decide +kernel,
   by decide +kernel,
   by decide +kernel⟩

theorem wit_configRequest : ∃ (p : Fin 2) (opened : Bool) (s : State),
    pdOn 8 s = true ∧
    (ctrlAt p s).linkUp = true :=
  ⟨0,
   false,
   State.modCtrl 0 (fun x => { x with linkUp := true }) (wOn),
   by decide +kernel,
   by decide +kernel⟩

theorem wit_dmcInitGo : ∃ (m : Master) (s : State),
    Reach .dmc 0 s ∧
    s.dmc.initDone = false ∧
    s.dmc.initBusy = false ∧
    s.clk.xo40failed = false :=
  ⟨.core (.a 0),
   { wOn with dmc := { wOn.dmc with initDone := false, initBusy := false }, clk := { wOn.clk with xo40failed := false } },
   by refine ⟨?_, ?_, ?_⟩ <;> decide,
   by decide +kernel,
   by decide +kernel,
   by decide +kernel⟩

theorem wit_dmcInitDone : ∃ (fail : Bool) (s : State),
    s.dmc.initBusy = true ∧
    (hdrOf .dmc 0 s).freeze = false ∧
    s.dmc.heldAcc = [] :=
  ⟨false,
   { wOn with dmc := { wOn.dmc with initBusy := true, heldAcc := [] } },
   by decide +kernel,
   by decide +kernel,
   by decide +kernel⟩

theorem wit_dmcInitHeldAccess : ∃ (mib : Nat) (s : State),
    s.dmc.initBusy = true ∧
    (hdrOf .dmc 0 s).freeze = false ∧
    s.dmc.mib ≤ mib ∧
    mib ≤ 0x7FFF ∧
    s.dmc.heldAcc = [] :=
  ⟨0,
   { wOn with dmc := { wOn.dmc with initBusy := true, heldAcc := [] } },
   by decide +kernel,
   by decide +kernel,
   by decide +kernel,
   by decide +kernel,
   by decide +kernel⟩

theorem wit_readySet : ∃ (m : Master) (s : State),
    Reach .sys 0 s ∧
    s.dmc.initDone = true ∧
    s.sys.ready = false :=
  ⟨.core (.a 0),
   { wOn with dmc := { wOn.dmc with initDone := true }, sys := { wOn.sys with ready := false } },
   by refine ⟨?_, ?_, ?_⟩ <;> decide,
   by decide +kernel,
   by decide +kernel⟩

theorem wit_readyClr : ∃ (m : Master) (s : State),
    Reach .sys 0 s :=
  ⟨.core (.a 0),
   wOn,
   by refine ⟨?_, ?_, ?_⟩ <;> decide⟩

theorem wit_controllerEnable : ∃ (p : Fin 2) (wrr : Bool) (s : State),
    hceUp s = true ∧
    (ctrlAt p s).linkUp = true ∧
    (ctrlAt p s).cfgOpen = true ∧
    (ctrlAt p s).en = false :=
  ⟨0,
   false,
   State.modCtrl 0 (fun x => { x with linkUp := true, cfgOpen := true, en := false }) (wOn),
   by decide +kernel,
   by decide +kernel,
   by decide +kernel,
   by decide +kernel⟩

theorem wit_controllerReset : ∃ (p : Fin 2) (s : State),
    hceUp s = true ∧
    (ctrlAt p s).en = true :=
  ⟨0,
   State.modCtrl 0 (fun x => { x with en := true }) (wOn),
   by decide +kernel,
   by decide +kernel⟩

theorem wit_functionLevelReset : ∃ (p : Fin 2) (s : State),
    pdOn 8 s = true ∧
    portExists p s = true ∧
    (ctrlAt p s).linkUp = true :=
  ⟨0,
   State.modCtrl 0 (fun x => { x with linkUp := true }) (wOn),
   by decide +kernel,
   by decide +kernel,
   by decide +kernel⟩

theorem wit_linkDown : ∃ (p : Fin 2) (s : State),
    pdOn 8 s = true ∧
    portExists p s = true ∧
    (ctrlAt p s).linkUp = true :=
  ⟨0,
   State.modCtrl 0 (fun x => { x with linkUp := true }) (wOn),
   by decide +kernel,
   by decide +kernel,
   by decide +kernel⟩

theorem wit_namespaceReady : ∃ (nsid : Nat) (s : State),
    hceUp s = true ∧
    s.sys.ready = true ∧
    s.rvr.recStep = 7 ∧
    s.xmt.san = none ∧
    mediaUp s = true ∧
    s.clk.xo40failed = false :=
  ⟨0,
   { wOn with sys := { wOn.sys with ready := true }, rvr := { wOn.rvr with recStep := 7 }, xmt := { wOn.xmt with san := none }, spn := { wOn.spn with state := .atSpeed }, clk := { wOn.clk with xo40failed := false } },
   by decide +kernel,
   by decide +kernel,
   by decide +kernel,
   by decide +kernel,
   by decide +kernel,
   by decide +kernel⟩

theorem wit_resetNAssert : ∃ (s : State),
    s.sys.resetNLow = false ∧
    canReset s = true :=
  ⟨{ wOn with sys := { wOn.sys with resetNLow := false } },
   by decide +kernel,
   by decide +kernel⟩

theorem wit_coreDomainHold : ∃ (atLimit : Bool) (s : State),
    s.sys.seq ≠ .none ∧
    s.sys.held = false ∧
    (atLimit = true ∨ (anyLoaded s = false ∧ s.rvr.commit = false)) :=
  ⟨false,
   { ({ wOn with sys := { wOn.sys with held := false } }) with sys := { wOn.sys with seq := .resetN } },
   by decide +kernel,
   by decide +kernel,
   by decide +kernel⟩

theorem wit_resetNRelease : ∃ (env : BootEnv) (s : State),
    s.sys.held = true :=
  ⟨wEnv,
   { wOn with sys := { wOn.sys with held := true } },
   by decide +kernel⟩

theorem wit_nvmSubsystemReset : ∃ (p : Fin 2) (v : Word) (s : State),
    v.toNat = 0x4E564D65 ∧
    hceUp s = true ∧
    (ctrlAt p s).linkUp = true ∧
    canReset s = true :=
  ⟨0,
   0x4E564D65,
   State.modCtrl 0 (fun x => { x with linkUp := true }) (wOn),
   by decide +kernel,
   by decide +kernel,
   by decide +kernel,
   by decide +kernel⟩

theorem wit_watchdogEnable : ∃ (m : Master) (v : Word) (s : State),
    Reach .sys 0 s ∧
    wdtEn s = false ∧
    Rising s.regs ∧
    windowOpen .sys 0 s = true :=
  ⟨.core (.a 0),
   (0 : Word),
   openWindow .sys 0 (wOn),
   by refine ⟨?_, ?_, ?_⟩ <;> decide,
   by decide +kernel,
   by first | exact True.intro | (repeat first | exact True.intro | apply rising_setFld),
   by decide +kernel⟩

theorem wit_watchdogKick : ∃ (m : Master) (v : Word) (s : State),
    Reach .sys 0 s ∧
    v.toNat = 0xD06E :=
  ⟨.core (.a 0),
   0xD06E,
   wOn,
   by refine ⟨?_, ?_, ?_⟩ <;> decide,
   by decide +kernel⟩

theorem wit_watchdogPeriod : ∃ (s : State),
    wdtRuns s = true ∧
    s.sys.wdtBarked = false :=
  ⟨setFld .wdtctl 0 0 31 31 1 ({ wOn with sys := { wOn.sys with wdtBarked := false } }),
   by decide +kernel,
   by decide +kernel⟩

theorem wit_watchdogReset : ∃ (s : State),
    wdtRuns s = true ∧
    s.sys.wdtBarked = true ∧
    canReset s = true :=
  ⟨setFld .wdtctl 0 0 31 31 1 ({ wOn with sys := { wOn.sys with wdtBarked := true } }),
   by decide +kernel,
   by decide +kernel,
   by decide +kernel⟩

theorem wit_powerLoss : ∃ (s : State),
    s.sys.coreUp = true ∧
    s.sup.loss = false ∧
    railLow s = true ∧
    s.sys.held = false ∧
    s.sys.railsGood = true :=
  ⟨{ wOn with sys := { wOn.sys with coreUp := true, held := false, railsGood := true }, sup := { wOn.sup with loss := false } },
   by decide +kernel,
   by decide +kernel,
   by decide +kernel,
   by decide +kernel,
   by decide +kernel⟩

theorem wit_preqGoRefused : ∃ (m : Master) (v : Word) (s : State) (r : Nat × Option Nat) (tgt : Nat),
    Reach .wck 0 s ∧
    s.pwr.phase = .settled ∧
    fld .preq 0 0 3 0 (storeFields .preq 0 0 (v.toNat ||| 0x100) s) = tgt ∧
    tgt ≤ 3 ∧
    psCode s.pwr.state < tgt ∧
    precondition tgt (storeFields .preq 0 0 (v.toNat ||| 0x100) s) = some r :=
  ⟨.core (.a 0),
   0x101,
   { openWindow .wck 0 ({ wOn with pwr := { wOn.pwr with phase := .settled } }) with spn := { wOn.spn with state := .atSpeed } },
   (1, some 13),
   1,
   by refine ⟨?_, ?_, ?_⟩ <;> decide,
   by decide +kernel,
   by decide +kernel,
   by decide +kernel,
   by decide +kernel,
   by decide +kernel⟩

theorem wit_preqGo : ∃ (m : Master) (v : Word) (s : State) (tgt : Nat),
    Reach .wck 0 s ∧
    s.pwr.phase = .settled ∧
    fld .preq 0 0 3 0 (storeFields .preq 0 0 (v.toNat ||| 0x100) s) = tgt ∧
    tgt ≤ 3 ∧
    psCode s.pwr.state < tgt ∧
    precondition tgt (storeFields .preq 0 0 (v.toNat ||| 0x100) s) = none :=
  ⟨.core (.a 0),
   0x101,
   { openWindow .wck 0 ({ wOn with pwr := { wOn.pwr with phase := .settled } }) with sys := { wOn.sys with tcoreWfi := [0, 1, 2, 3] } },
   1,
   by refine ⟨?_, ?_, ?_⟩ <;> decide,
   by decide +kernel,
   by decide +kernel,
   by decide +kernel,
   by decide +kernel,
   by decide +kernel⟩

theorem wit_powerStateEnteredLit : ∃ (s : State),
    (hdrOf .wck 0 s).freeze = false ∧
    s.pwr.phase = .waking ∧
    s.pwr.target = .lit :=
  ⟨{ wOn with pwr := { wOn.pwr with phase := .waking, target := .lit } },
   by decide +kernel,
   by decide +kernel,
   by decide +kernel⟩

theorem wit_powerStateEnteredDim : ∃ (s : State),
    (hdrOf .wck 0 s).freeze = false ∧
    s.pwr.phase = .entering ∧
    s.pwr.target = .dim :=
  ⟨{ wOn with pwr := { wOn.pwr with phase := .entering, target := .dim } },
   by decide +kernel,
   by decide +kernel,
   by decide +kernel⟩

theorem wit_powerStateEnteredGlow : ∃ (s : State),
    (hdrOf .wck 0 s).freeze = false ∧
    s.pwr.phase = .entering ∧
    s.pwr.target = .glow ∧
    s.pwr.active = 0 :=
  ⟨{ wOn with pwr := { wOn.pwr with phase := .entering, target := .glow, active := 0 } },
   by decide +kernel,
   by decide +kernel,
   by decide +kernel,
   by decide +kernel⟩

theorem wit_powerStateEnteredDark : ∃ (s : State),
    (hdrOf .wck 0 s).freeze = false ∧
    s.pwr.phase = .entering ∧
    s.pwr.target = .dark ∧
    s.pwr.active = 0 :=
  ⟨{ wOn with pwr := { wOn.pwr with phase := .entering, target := .dark, active := 0 } },
   by decide +kernel,
   by decide +kernel,
   by decide +kernel,
   by decide +kernel⟩

theorem wit_pdoffWrite : ∃ (m : Master) (v : Word) (s : State),
    Reach .wck 0 s ∧
    Rising s.regs ∧
    windowOpen .wck 0 s = true ∧
    (∀ d, v.toNat.testBit d = true → domBusy d s = false ∧ domGrant d s = false) :=
  ⟨.core (.a 0),
   (0 : Word),
   openWindow .wck 0 (wOn),
   by refine ⟨?_, ?_, ?_⟩ <;> decide,
   by first | exact True.intro | (repeat first | exact True.intro | apply rising_setFld),
   by decide +kernel,
   by intro d h; exact absurd h (by simp)⟩

theorem wit_wakeSource : ∃ (src : BitVec 10) (periods : Nat) (env : BootEnv) (s : State),
    s.pwr.state = .dim ∧
    s.pwr.phase = .settled ∧
    s.pwr.active = 0 ∧
    src.toNat &&& wakeEnabled s ≠ 0 :=
  ⟨0x80,
   0,
   wEnv,
   { wOn with pwr := { wOn.pwr with state := .dim, phase := .settled, active := 0 } },
   by decide +kernel,
   by decide +kernel,
   by decide +kernel,
   by decide +kernel⟩

theorem wit_clkDomWrite : ∃ (m : Master) (k : Fin 64) (v : Word) (s : State),
    Reach .clk 0 s ∧
    Rising s.regs ∧
    2 ≤ k.val ∧
    clkSrcOk k (bits v.toNat 11 8) s = true :=
  ⟨.core (.a 0),
   20,
   (0 : Word),
   wOn,
   by refine ⟨?_, ?_, ?_⟩ <;> decide,
   by first | exact True.intro | (repeat first | exact True.intro | apply rising_setFld),
   by decide +kernel,
   by decide +kernel⟩

theorem wit_clkDomWriteRefused : ∃ (m : Master) (k : Fin 64) (v : Word) (s : State),
    Reach .clk 0 s ∧
    EventRoom s ∧
    (k.val < 2 ∨ clkSrcOk k (bits v.toNat 11 8) s = false) :=
  ⟨.core (.a 0),
   0,
   (0 : Word),
   wOn,
   by refine ⟨?_, ?_, ?_⟩ <;> decide,
   by unfold EventRoom; decide,
   by decide +kernel⟩

theorem wit_pllLocked : ∃ (i : Fin 8) (s : State),
    pdOn 2 s = true ∧
    pllCanLock i s = true ∧
    pllLock i s = false :=
  ⟨3,
   setFld .pllen 0 0 3 3 1 (wOn),
   by decide +kernel,
   by decide +kernel,
   by decide +kernel⟩

theorem wit_pllLockLoss : ∃ (i : Fin 8) (s : State),
    pdOn 2 s = true ∧
    pllLock i s = true ∧
    i.val ≠ 1 :=
  ⟨0,
   { (wOn) with clk := { wOn.clk with lock := wOn.clk.lock.set 0 true } },
   by decide +kernel,
   by decide +kernel,
   by decide +kernel⟩

theorem wit_psEntryRestart : ∃ (tag ps : Nat) (c : Cmd) (s : State),
    s.pwr.psHeld = some (tag, ps) ∧
    s.pwr.psUnwound = true ∧
    cmdAt tag s = some c ∧
    ctrlIdle c.ctrl (some tag) s = true ∧
    (hdrOf .wck 0 s).freeze = false :=
  ⟨0,
   0,
   wCmd,
   { wOn with pwr := { wOn.pwr with psHeld := some ((0), (0)), psUnwound := true }, hce := { wOn.hce with cmds := [wCmd] } },
   by decide +kernel,
   by decide +kernel,
   by decide +kernel,
   by decide +kernel,
   by decide +kernel⟩

theorem wit_shutdownDimEntry : ∃ (s : State),
    s.thm.shutSeq = true ∧
    s.sys.coreUp = true ∧
    anyLoaded s = false ∧
    s.rvr.commit = false ∧
    s.pwr.state = .lit :=
  ⟨{ wOn with thm := { wOn.thm with shutSeq := true }, sys := { wOn.sys with coreUp := true }, rvr := { wOn.rvr with commit := false }, pwr := { wOn.pwr with state := .lit } },
   by decide +kernel,
   by decide +kernel,
   by decide +kernel,
   by decide +kernel,
   by decide +kernel⟩

theorem wit_leaveRequestDenied : ∃ (m : Master) (p : Fin 16) (v : Word) (s : State),
    Reach .llt 0 s ∧
    v.toNat.testBit 31 = true ∧
    classOpen (fld .lltReqa 0 p 31 28 (storeFields .lltReqb 0 p v.toNat s)) (storeFields .lltReqb 0 p v.toNat s) = false ∧
    s.llt.ports[p].await = none ∧
    lltHeld (storeFields .lltReqb 0 p v.toNat s) = false :=
  ⟨.core (.a 0),
   0,
   0x80000000,
   setFld .lltClassen 0 0 10 0 0 (State.modPort 0 (fun x => { x with await := none }) (wOn)),
   by refine ⟨?_, ?_, ?_⟩ <;> decide,
   by decide +kernel,
   by decide +kernel,
   by decide +kernel,
   by decide +kernel⟩

theorem wit_leaveRequest : ∃ (m : Master) (p : Fin 16) (v : Word) (s u : State) (cls mw prio dur k : Nat),
    Reach .llt 0 s ∧
    v.toNat.testBit 31 = true ∧
    storeFields .lltReqb 0 p v.toNat s = u ∧
    cls = fld .lltReqa 0 p 31 28 u ∧
    classOpen cls u = true ∧
    s.llt.orphans = [] ∧
    s.llt.ports[p].await = none ∧
    lltHeld u = false ∧
    mw = (if fld .lltReqa 0 p 23 0 u = 0 then (leaveClass cls).1 else fld .lltReqa 0 p 23 0 u) ∧
    dur = (if fld .lltReqb 0 p 15 0 u = 0 then (leaveClass cls).2.1 else fld .lltReqb 0 p 15 0 u) ∧
    mw ≤ 2 * (leaveClass cls).1 ∧
    dur ≤ (leaveClass cls).2.1 ∧
    mw + lltRsv u ≤ lltBoard u ∧
    (queuedTickets u).length < 64 ∧
    lowestFree 128 (s.llt.tickets.map (·.num)) = some k :=
  ⟨.core (.a 0),
   0,
   0x80000000,
   setFld .lltClassen 0 0 10 0 0x7FF (setFld .lltBoard 0 0 23 0 100000 (State.modPort 0 (fun x => { x with await := none }) ({ wOn with llt := { wOn.llt with orphans := [] } }))),
   storeFields .lltReqb 0 (0 : Fin 16) (0x80000000 : Word).toNat ((setFld .lltClassen 0 0 10 0 0x7FF (setFld .lltBoard 0 0 23 0 100000 (State.modPort 0 (fun x => { x with await := none }) ({ wOn with llt := { wOn.llt with orphans := [] } }))))),
   0,
   24000,
   0,
   10000,
   0,
   by refine ⟨?_, ?_, ?_⟩ <;> decide,
   by decide +kernel,
   by decide +kernel,
   by decide +kernel,
   by decide +kernel,
   by decide +kernel,
   by decide +kernel,
   by decide +kernel,
   by decide +kernel,
   by decide +kernel,
   by decide +kernel,
   by decide +kernel,
   by decide +kernel,
   by decide +kernel,
   by decide +kernel⟩

theorem wit_leaveRequestAwaits : ∃ (m : Master) (p : Fin 16) (v : Word) (s u : State),
    Reach .llt 0 s ∧
    v.toNat.testBit 31 = true ∧
    storeFields .lltReqb 0 p v.toNat s = u ∧
    s.llt.ports[p].await = none ∧
    lltHeld u = true :=
  ⟨.core (.a 0),
   0,
   (0x80000000 : Word),
   wOn.modHdr (Blk.llt.hdr 0) fun h => { h with freeze := true },
   storeFields .lltReqb 0 0 0x80000000 ((wOn.modHdr (Blk.llt.hdr 0) fun h => { h with freeze := true })),
   by refine ⟨?_, ?_, ?_⟩ <;> decide,
   by decide +kernel,
   by rfl,
   by decide +kernel,
   by decide +kernel⟩

theorem wit_leaveRequestIgnored : ∃ (m : Master) (p : Fin 16) (v : Word) (s : State),
    Reach .llt 0 s ∧
    v.toNat.testBit 31 = true ∧
    EventRoom s ∧
    s.llt.ports[p].await.isSome = true :=
  ⟨.core (.a 0),
   0,
   (0x80000000 : Word),
   wOn.modPort 0 fun p => { p with await := some (0, 0) },
   by refine ⟨?_, ?_, ?_⟩ <;> decide,
   by decide +kernel,
   by unfold EventRoom; decide,
   by decide +kernel⟩

theorem wit_leaveRelease : ∃ (m : Master) (p : Fin 16) (v : Word) (s : State) (x : Ticket),
    Reach .llt 0 s ∧
    s.llt.orphans = [] ∧
    ticketAt (bits v.toNat 6 0) s = some x ∧
    x.gen = bits v.toNat 15 8 :=
  ⟨.core (.a 0),
   0,
   (0 : Word),
   { ({ wOn with llt := { wOn.llt with orphans := [] } }) with llt := { wOn.llt with tickets := [wTicket] } },
   { wTicket with gen := bits ((0 : Word)).toNat 15 8 },
   by refine ⟨?_, ?_, ?_⟩ <;> decide,
   by decide +kernel,
   by decide +kernel,
   by decide +kernel⟩

theorem wit_leaveRenew : ∃ (m : Master) (p : Fin 16) (v : Word) (s : State) (x : Ticket),
    Reach .llt 0 s ∧
    ticketAt (bits v.toNat 6 0) s = some x ∧
    x.gen = bits v.toNat 15 8 ∧
    x.state = .granted ∧
    bits v.toNat 31 16 ≤ (leaveClass x.cls).2.1 ∧
    lltGranted s + lltRsv s ≤ lltAvail s ∧
    s.llt.leaseValid = false :=
  ⟨.core (.a 0),
   0,
   (0 : Word),
   { setFld .vlkFloor 0 0 23 0 100000 (setFld .lltBoard 0 0 23 0 100000 ({ wOn with llt := { wOn.llt with leaseValid := false } })) with llt := { wOn.llt with tickets := [wTicket] } },
   { wTicket with gen := bits ((0 : Word)).toNat 15 8, state := .granted },
   by refine ⟨?_, ?_, ?_⟩ <;> decide,
   by decide +kernel,
   by decide +kernel,
   by decide +kernel,
   by decide +kernel,
   by decide +kernel,
   by decide +kernel⟩

theorem wit_leaveExpiry : ∃ (k : Fin 128) (x : Ticket) (s : State),
    ticketAt k s = some x ∧
    x.state = .granted ∧
    s.llt.orphans = [] ∧
    lltHeld s = false :=
  ⟨0,
   { wTicket with state := .granted },
   { ({ wOn with llt := { wOn.llt with orphans := [] } }) with llt := { wOn.llt with tickets := [wTicket] } },
   by decide +kernel,
   by decide +kernel,
   by decide +kernel,
   by decide +kernel⟩

theorem wit_drawAfterExpiry : ∃ (k : Fin 128) (s : State),
    k.val ∈ s.llt.expired :=
  ⟨0,
   { (wOn) with llt := { wOn.llt with expired := [0] } },
   by decide +kernel⟩

theorem wit_leaveDeadline : ∃ (k : Fin 128) (x : Ticket) (s : State),
    ticketAt k s = some x ∧
    x.state = .queued ∧
    x.at_ ≠ 0 ∧
    s.llt.orphans = [] ∧
    lltHeld s = false :=
  ⟨0,
   { wTicket with state := .queued, at_ := 5 },
   { ({ wOn with llt := { wOn.llt with orphans := [] } }) with llt := { wOn.llt with tickets := [({ wTicket with state := .queued, at_ := 5 })] } },
   by decide +kernel,
   by decide +kernel,
   by decide +kernel,
   by decide +kernel,
   by decide +kernel⟩

theorem wit_thermalCeilingLower : ∃ (s : State),
    lltHeld s = false ∧
    s.thm.throt = true :=
  ⟨{ wOn with thm := { wOn.thm with throt := true } },
   by decide +kernel,
   by decide +kernel⟩

theorem wit_thermalCeilingRaise : ∃ (s u : State),
    lltHeld s = false ∧
    s.thm.throt = false ∧
    s.llt.episode = true ∧
    u = elapse 100000 s ∧
    s.llt.therm + thermStep u < lltBoard u :=
  ⟨{ setFld .lltBoard 0 0 23 0 100000 ({ wOn with thm := { wOn.thm with throt := false }, llt := { wOn.llt with episode := true } }) with llt := { wOn.llt with therm := 10, episode := true } },
   elapse 100000 ({ setFld .lltBoard 0 0 23 0 100000 ({ wOn with thm := { wOn.thm with throt := false }, llt := { wOn.llt with episode := true } }) with llt := { wOn.llt with therm := 10, episode := true } }),
   by decide +kernel,
   by decide +kernel,
   by decide +kernel,
   by decide +kernel,
   by decide +kernel⟩

theorem wit_sqTailDoorbell : ∃ (c : Fin 2) (q tail : Nat) (entries : List NvmeCmd) (s : State) (sq : Sq),
    pdOn 8 s = true ∧
    (ctrlAt c s).en = true ∧
    (ctrlAt c s).sqs.find? (·.id == q) = some sq ∧
    tail < sq.size ∧
    entries.length = (tail + sq.size - sq.tail) % sq.size :=
  ⟨0,
   1,
   2,
   [wNvme],
   State.modCtrl 0 (fun x => { x with en := true, sqs := [wSq] }) (wOn),
   wSq,
   by decide +kernel,
   by decide +kernel,
   by decide +kernel,
   by decide +kernel,
   by decide +kernel⟩

theorem wit_cqHeadDoorbell : ∃ (c : Fin 2) (q head : Nat) (s : State) (cq : Cq),
    pdOn 8 s = true ∧
    (ctrlAt c s).en = true ∧
    (ctrlAt c s).cqs.find? (·.id == q) = some cq ∧
    head < cq.size ∧
    (head + cq.size - cq.head) % cq.size ≤ cq.posted.length :=
  ⟨0,
   1,
   0,
   State.modCtrl 0 (fun x => { x with en := true, cqs := [wCq] }) (wOn),
   wCq,
   by decide +kernel,
   by decide +kernel,
   by decide +kernel,
   by decide +kernel,
   by decide +kernel⟩

theorem wit_commandFetch : ∃ (s : State) (k q n : Nat) (sq : Sq) (m : NvmeCmd) (rest : List NvmeCmd),
    hceUp s = true ∧
    pdOn 10 s = true ∧
    s.sys.seq = .none ∧
    s.sup.loss = false ∧
    s.rvr.recStep ≠ 0 ∧
    s.hce.closed = false ∧
    s.hce.ioClosed = false ∧
    s.lgr.frozen = false ∧
    s.thm.shut = false ∧
    s.hce.pause = none ∧
    pauseNow s = false ∧
    s.hce.burst = some (k, q, n + 1) ∧
    (ctrlAt k s).sqs.find? (·.id == q) = some sq ∧
    sq.entries = m :: rest ∧
    s.lgr.entries.length + rangesOf m ≤ 8192 ∧
    takesOrd q m.op = true :=
  ⟨{ wOn.modCtrl 0 fun x => { x with en := true, sqs := [wSq] } with hce := { (wOn.modCtrl 0 fun x => { x with en := true, sqs := [wSq] }).hce with burst := some (0, 1, 1) }, rvr := { wOn.rvr with recStep := 1 } },
   0,
   1,
   0,
   wSq,
   wNvme,
   [],
   by decide +kernel,
   by decide +kernel,
   by decide +kernel,
   by decide +kernel,
   by decide +kernel,
   by decide +kernel,
   by decide +kernel,
   by decide +kernel,
   by decide +kernel,
   by decide +kernel,
   by decide +kernel,
   by decide +kernel,
   by decide +kernel,
   by decide +kernel,
   by decide +kernel,
   by decide +kernel⟩

theorem wit_fetchPauseEnd : ∃ (s : State) (x : Bool × Bool × Bool × Nat),
    s.hce.pause = some x ∧
    hceUp s = true ∧
    pauseNow s = false :=
  ⟨{ wOn with hce := { wOn.hce with pause := some ((false, false, false, 0)) } },
   (false, false, false, 0),
   by decide +kernel,
   by decide +kernel,
   by decide +kernel⟩

theorem wit_writeTransferStart : ∃ (tag : Fin 4096) (c : Cmd) (s : State),
    cmdAt tag s = some c ∧
    c.phase = .capped ∧
    hceUp s = true ∧
    underCap c s = true :=
  ⟨0,
   { wCmd with phase := .capped },
   { ({ wOn with hce := { wOn.hce with cmds := [{ wCmd with phase := .capped }] } }) with hce := { (({ wOn with hce := { wOn.hce with cmds := [{ wCmd with phase := .capped }] } })).hce with dirtyCap := 0 } },
   by decide +kernel,
   by decide +kernel,
   by decide +kernel,
   by decide +kernel⟩

theorem wit_dataTransferComplete : ∃ (tag : Fin 4096) (c : Cmd) (e : LEntry) (o : Nat) (s : State),
    s.hce.cmds = [c] ∧
    c.tag = tag.val ∧
    c.phase = .moving ∧
    opStores c.cmd.op = true ∧
    hceUp s = true ∧
    c.ord = some o ∧
    entryAt o s = some e ∧
    piCheck c e.slba [] s = 0 ∧
    e.fua = false :=
  ⟨0,
   { wCmd with phase := .moving, cmd := { wNvme with op := .write } },
   { wEntry with fua := false },
   5,
   { wOn with hce := { wOn.hce with cmds := [({ wCmd with phase := .moving, cmd := { wNvme with op := .write } })] }, lgr := { wOn.lgr with entries := [{ wEntry with fua := false }] } },
   by decide +kernel,
   by decide +kernel,
   by decide +kernel,
   by decide +kernel,
   by decide +kernel,
   by decide +kernel,
   by decide +kernel,
   by decide +kernel,
   by decide +kernel⟩

theorem wit_hostMemoryError : ∃ (tag : Fin 4096) (c : Cmd) (s : State),
    cmdAt tag s = some c ∧
    hceUp s = true ∧
    (c.phase = .accepted ∨ c.phase = .moving) :=
  ⟨0,
   wCmd,
   { wOn with hce := { wOn.hce with cmds := [wCmd] } },
   by decide +kernel,
   by decide +kernel,
   by decide +kernel⟩

theorem wit_completionPost : ∃ (tag : Fin 4096) (c : Cmd) (sq : Sq) (cq : Cq) (s : State),
    cmdAt tag s = some c ∧
    c.phase = .finished ∧
    hceUp s = true ∧
    zoneHole c s = false ∧
    c.fromMi = false ∧
    (ctrlAt c.ctrl s).sqs.find? (·.id == c.sqid) = some sq ∧
    (ctrlAt c.ctrl s).cqs.find? (·.id == sq.cq) = some cq ∧
    cq.posted.length + 1 < cq.size ∧
    c.ord = none ∧
    asqHolds tag s = false :=
  ⟨0,
   { wCmd with phase := .finished, fromMi := false, ord := none },
   wSq,
   wCq,
   State.modCtrl 0 (fun x => { x with sqs := [wSq], cqs := [wCq] }) ({ wOn with hce := { wOn.hce with cmds := [{ wCmd with phase := .finished, fromMi := false, ord := none }] } }),
   by decide +kernel,
   by decide +kernel,
   by decide +kernel,
   by decide +kernel,
   by decide +kernel,
   by decide +kernel,
   by decide +kernel,
   by decide +kernel,
   by decide +kernel,
   by decide +kernel⟩

theorem wit_interruptCoalescingTimeout : ∃ (c : Fin 2) (q : Nat) (cq : Cq) (s : State),
    hceUp s = true ∧
    (ctrlAt c s).cqs.find? (·.id == q) = some cq ∧
    cq.coalesced ≠ 0 :=
  ⟨0,
   1,
   { wCq with coalesced := 1 },
   State.modCtrl 0 (fun x => { x with cqs := [{ wCq with coalesced := 1 }] }) (wOn),
   by decide +kernel,
   by decide +kernel,
   by decide +kernel⟩

theorem wit_recoveryTimeLimitExpiry : ∃ (tag : Fin 4096) (c : Cmd) (o : Nat) (r : LEntry) (s : State),
    cmdAt tag s = some c ∧
    hceUp s = true ∧
    c.ord = some o ∧
    opIo c.cmd.op = true ∧
    opReads c.cmd.op = true ∧
    c.phase = .accepted ∧
    entryAt o s = some r ∧
    selMedia r.sel = true ∧
    mediaUp s = false :=
  ⟨0,
   { wCmd with ord := some (5), phase := .accepted },
   5,
   { wEntry with sel := [.media (.slot 0 0 0)] },
   { wOn with hce := { wOn.hce with cmds := [{ wCmd with ord := some (5), phase := .accepted }] }, lgr := { wOn.lgr with entries := [{ wEntry with sel := [.media (.slot 0 0 0)] }] } },
   by decide +kernel,
   by decide +kernel,
   by decide +kernel,
   by decide +kernel,
   by decide +kernel,
   by decide +kernel,
   by decide +kernel,
   by decide +kernel,
   by decide +kernel⟩

theorem wit_abortMatch : ∃ (m : Master) (v : Word) (s : State),
    Reach .hce 0 s :=
  ⟨.core (.a 0),
   (0 : Word),
   wOn,
   by refine ⟨?_, ?_, ?_⟩ <;> decide⟩

theorem wit_read : ∃ (tag : Fin 4096) (steps : List (Nat × Nat)) (c : Cmd) (r : LEntry) (s : State),
    Ready .read tag c s ∧
    Readable c r s ∧
    .unrecovered ∉ readValues r (ladderLost c steps s) s ∧
    piCheck c c.cmd.slba (r.sel.map (· == .zeroes)) s = 0 :=
  ⟨0,
   [],
   ({ wCmd with cmd := { wCmd.cmd with op := .read } }),
   wEntry,
   { wOn with hce := { wOn.hce with cmds := [({ wCmd with cmd := { wCmd.cmd with op := .read } })] }, lgr := { wOn.lgr with entries := [wEntry] }, spn := { wOn.spn with state := .atSpeed } },
   by refine ⟨?_, ?_, ?_, ?_⟩ <;> decide,
   by refine ⟨?_, ?_, ?_, ?_⟩ <;> decide,
   by decide +kernel,
   by decide +kernel⟩

theorem wit_readUnrecovered : ∃ (tag : Fin 4096) (steps : List (Nat × Nat)) (c : Cmd) (r : LEntry) (s : State),
    Ready .read tag c s ∧
    Readable c r s ∧
    .unrecovered ∈ readValues r (ladderLost c steps s) s :=
  ⟨0,
   [(0, 10)],
   ({ wCmd with cmd := { wCmd.cmd with op := .read } }),
   { wEntry with sel := [.media (.slot 0 0 0)] },
   { wOn with hce := { wOn.hce with cmds := [({ wCmd with cmd := { wCmd.cmd with op := .read } })] }, lgr := { wOn.lgr with entries := [{ wEntry with sel := [.media (.slot 0 0 0)] }] }, spn := { wOn.spn with state := .atSpeed } },
   by refine ⟨?_, ?_, ?_, ?_⟩ <;> decide,
   by refine ⟨?_, ?_, ?_, ?_⟩ <;> decide,
   by decide +kernel⟩

theorem wit_readPi : ∃ (tag : Fin 4096) (steps : List (Nat × Nat)) (c : Cmd) (r : LEntry) (s : State),
    Ready .read tag c s ∧
    Readable c r s ∧
    .unrecovered ∉ readValues r (ladderLost c steps s) s ∧
    piCheck c c.cmd.slba (r.sel.map (· == .zeroes)) s ≠ 0 :=
  ⟨0,
   [],
   { wCmd with cmd := { wNvme with op := .read, cdw12 := 2 ^ 28, pi := [{ guardOk := false, app := 0, ref := 0 }], nsid := 1 } },
   { wEntry with sel := [.media (.slot 0 0 0)] },
   { ({ wOn with hce := { wOn.hce with cmds := [{ wCmd with cmd := { wNvme with op := .read, cdw12 := 2 ^ 28, pi := [{ guardOk := false, app := 0, ref := 0 }], nsid := 1 } }] }, lgr := { wOn.lgr with entries := [{ wEntry with sel := [.media (.slot 0 0 0)] }] }, spn := { wOn.spn with state := .atSpeed } }) with hce := { (({ wOn with hce := { wOn.hce with cmds := [{ wCmd with cmd := { wNvme with op := .read, cdw12 := 2 ^ 28, pi := [{ guardOk := false, app := 0, ref := 0 }], nsid := 1 } }] }, lgr := { wOn.lgr with entries := [{ wEntry with sel := [.media (.slot 0 0 0)] }] }, spn := { wOn.spn with state := .atSpeed } })).hce with ns := [{ wNs with lbaf := 1, pi := 1 }] } },
   by refine ⟨?_, ?_, ?_, ?_⟩ <;> decide,
   by refine ⟨?_, ?_, ?_, ?_⟩ <;> decide,
   by decide +kernel,
   by decide +kernel⟩

theorem wit_write : ∃ (tag : Fin 4096) (c : Cmd) (s : State),
    Ready .write tag c s :=
  ⟨0,
   ({ wCmd with cmd := { wCmd.cmd with op := .write } }),
   { wOn with hce := { wOn.hce with cmds := [({ wCmd with cmd := { wCmd.cmd with op := .write } })] } },
   by refine ⟨?_, ?_, ?_, ?_⟩ <;> decide⟩

theorem wit_zoneAppend : ∃ (tag : Fin 4096) (c : Cmd) (s : State),
    Ready .zoneAppend tag c s :=
  ⟨0,
   ({ wCmd with cmd := { wCmd.cmd with op := .zoneAppend } }),
   { wOn with hce := { wOn.hce with cmds := [({ wCmd with cmd := { wCmd.cmd with op := .zoneAppend } })] } },
   by refine ⟨?_, ?_, ?_, ?_⟩ <;> decide⟩

theorem wit_flush : ∃ (tag : Fin 4096) (c : Cmd) (o : Nat) (s : State),
    Ready .flush tag c s ∧
    c.ord = some o ∧
    (∀ d ∈ flushDoms c s, older o (frontier d s) = true) :=
  ⟨0,
   { ({ wCmd with cmd := { wCmd.cmd with op := .flush } }) with ord := some (5) },
   5,
   { ({ wOn with hce := { wOn.hce with cmds := [{ ({ wCmd with cmd := { wCmd.cmd with op := .flush } }) with ord := some (5) }] } }) with lgr := { wOn.lgr with ordNext := 6 } },
   by refine ⟨?_, ?_, ?_, ?_⟩ <;> decide,
   by decide +kernel,
   by first | decide | decide +kernel | (intro _ h; nomatch h) | (intro c _; revert c; decide)⟩

theorem wit_compare : ∃ (tag : Fin 4096) (steps : List (Nat × Nat)) (c : Cmd) (r : LEntry) (s : State),
    Ready .compare tag c s ∧
    Readable c r s ∧
    .unrecovered ∉ readValues r (ladderLost c steps s) s ∧
    piCheck c c.cmd.slba (r.sel.map (· == .zeroes)) s = 0 :=
  ⟨0,
   [],
   ({ wCmd with cmd := { wCmd.cmd with op := .compare } }),
   wEntry,
   { wOn with hce := { wOn.hce with cmds := [({ wCmd with cmd := { wCmd.cmd with op := .compare } })] }, lgr := { wOn.lgr with entries := [wEntry] }, spn := { wOn.spn with state := .atSpeed } },
   by refine ⟨?_, ?_, ?_, ?_⟩ <;> decide,
   by refine ⟨?_, ?_, ?_, ?_⟩ <;> decide,
   by decide +kernel,
   by decide +kernel⟩

theorem wit_compareUnrecovered : ∃ (tag : Fin 4096) (steps : List (Nat × Nat)) (c : Cmd) (r : LEntry) (s : State),
    Ready .compare tag c s ∧
    Readable c r s ∧
    .unrecovered ∈ readValues r (ladderLost c steps s) s :=
  ⟨0,
   [(0, 10)],
   ({ wCmd with cmd := { wCmd.cmd with op := .compare } }),
   { wEntry with sel := [.media (.slot 0 0 0)] },
   { wOn with hce := { wOn.hce with cmds := [({ wCmd with cmd := { wCmd.cmd with op := .compare } })] }, lgr := { wOn.lgr with entries := [{ wEntry with sel := [.media (.slot 0 0 0)] }] }, spn := { wOn.spn with state := .atSpeed } },
   by refine ⟨?_, ?_, ?_, ?_⟩ <;> decide,
   by refine ⟨?_, ?_, ?_, ?_⟩ <;> decide,
   by decide +kernel⟩

theorem wit_comparePi : ∃ (tag : Fin 4096) (steps : List (Nat × Nat)) (c : Cmd) (r : LEntry) (s : State),
    Ready .compare tag c s ∧
    Readable c r s ∧
    .unrecovered ∉ readValues r (ladderLost c steps s) s ∧
    piCheck c c.cmd.slba (r.sel.map (· == .zeroes)) s ≠ 0 :=
  ⟨0,
   [],
   { wCmd with cmd := { wNvme with op := .compare, cdw12 := 2 ^ 28, pi := [{ guardOk := false, app := 0, ref := 0 }], nsid := 1 } },
   { wEntry with sel := [.media (.slot 0 0 0)] },
   { ({ wOn with hce := { wOn.hce with cmds := [{ wCmd with cmd := { wNvme with op := .compare, cdw12 := 2 ^ 28, pi := [{ guardOk := false, app := 0, ref := 0 }], nsid := 1 } }] }, lgr := { wOn.lgr with entries := [{ wEntry with sel := [.media (.slot 0 0 0)] }] }, spn := { wOn.spn with state := .atSpeed } }) with hce := { (({ wOn with hce := { wOn.hce with cmds := [{ wCmd with cmd := { wNvme with op := .compare, cdw12 := 2 ^ 28, pi := [{ guardOk := false, app := 0, ref := 0 }], nsid := 1 } }] }, lgr := { wOn.lgr with entries := [{ wEntry with sel := [.media (.slot 0 0 0)] }] }, spn := { wOn.spn with state := .atSpeed } })).hce with ns := [{ wNs with lbaf := 1, pi := 1 }] } },
   by refine ⟨?_, ?_, ?_, ?_⟩ <;> decide,
   by refine ⟨?_, ?_, ?_, ?_⟩ <;> decide,
   by decide +kernel,
   by decide +kernel⟩

theorem wit_verify : ∃ (tag : Fin 4096) (steps : List (Nat × Nat)) (c : Cmd) (r : LEntry) (s : State),
    Ready .verify tag c s ∧
    Readable c r s ∧
    .unrecovered ∉ readValues r (ladderLost c steps s) s ∧
    piCheck c c.cmd.slba (r.sel.map (· == .zeroes)) s = 0 :=
  ⟨0,
   [],
   ({ wCmd with cmd := { wCmd.cmd with op := .verify } }),
   wEntry,
   { wOn with hce := { wOn.hce with cmds := [({ wCmd with cmd := { wCmd.cmd with op := .verify } })] }, lgr := { wOn.lgr with entries := [wEntry] }, spn := { wOn.spn with state := .atSpeed } },
   by refine ⟨?_, ?_, ?_, ?_⟩ <;> decide,
   by refine ⟨?_, ?_, ?_, ?_⟩ <;> decide,
   by decide +kernel,
   by decide +kernel⟩

theorem wit_verifyUnrecovered : ∃ (tag : Fin 4096) (steps : List (Nat × Nat)) (c : Cmd) (r : LEntry) (s : State),
    Ready .verify tag c s ∧
    Readable c r s ∧
    .unrecovered ∈ readValues r (ladderLost c steps s) s :=
  ⟨0,
   [(0, 10)],
   ({ wCmd with cmd := { wCmd.cmd with op := .verify } }),
   { wEntry with sel := [.media (.slot 0 0 0)] },
   { wOn with hce := { wOn.hce with cmds := [({ wCmd with cmd := { wCmd.cmd with op := .verify } })] }, lgr := { wOn.lgr with entries := [{ wEntry with sel := [.media (.slot 0 0 0)] }] }, spn := { wOn.spn with state := .atSpeed } },
   by refine ⟨?_, ?_, ?_, ?_⟩ <;> decide,
   by refine ⟨?_, ?_, ?_, ?_⟩ <;> decide,
   by decide +kernel⟩

theorem wit_verifyPi : ∃ (tag : Fin 4096) (steps : List (Nat × Nat)) (c : Cmd) (r : LEntry) (s : State),
    Ready .verify tag c s ∧
    Readable c r s ∧
    .unrecovered ∉ readValues r (ladderLost c steps s) s ∧
    piCheck c c.cmd.slba (r.sel.map (· == .zeroes)) s ≠ 0 :=
  ⟨0,
   [],
   { wCmd with cmd := { wNvme with op := .verify, cdw12 := 2 ^ 28, pi := [{ guardOk := false, app := 0, ref := 0 }], nsid := 1 } },
   { wEntry with sel := [.media (.slot 0 0 0)] },
   { ({ wOn with hce := { wOn.hce with cmds := [{ wCmd with cmd := { wNvme with op := .verify, cdw12 := 2 ^ 28, pi := [{ guardOk := false, app := 0, ref := 0 }], nsid := 1 } }] }, lgr := { wOn.lgr with entries := [{ wEntry with sel := [.media (.slot 0 0 0)] }] }, spn := { wOn.spn with state := .atSpeed } }) with hce := { (({ wOn with hce := { wOn.hce with cmds := [{ wCmd with cmd := { wNvme with op := .verify, cdw12 := 2 ^ 28, pi := [{ guardOk := false, app := 0, ref := 0 }], nsid := 1 } }] }, lgr := { wOn.lgr with entries := [{ wEntry with sel := [.media (.slot 0 0 0)] }] }, spn := { wOn.spn with state := .atSpeed } })).hce with ns := [{ wNs with lbaf := 1, pi := 1 }] } },
   by refine ⟨?_, ?_, ?_, ?_⟩ <;> decide,
   by refine ⟨?_, ?_, ?_, ?_⟩ <;> decide,
   by decide +kernel,
   by decide +kernel⟩

theorem wit_writeUncorrectable : ∃ (tag : Fin 4096) (c : Cmd) (s : State),
    Ready .writeUncorrectable tag c s ∧
    c.cmd.fua = false :=
  ⟨0,
   ({ wCmd with cmd := { wCmd.cmd with op := .writeUncorrectable, fua := false } }),
   { wOn with hce := { wOn.hce with cmds := [({ wCmd with cmd := { wCmd.cmd with op := .writeUncorrectable, fua := false } })] } },
   by refine ⟨?_, ?_, ?_, ?_⟩ <;> decide,
   by decide +kernel⟩

theorem wit_writeZeroes : ∃ (tag : Fin 4096) (c : Cmd) (s : State),
    Ready .writeZeroes tag c s ∧
    c.cmd.fua = false :=
  ⟨0,
   ({ wCmd with cmd := { wCmd.cmd with op := .writeZeroes, fua := false } }),
   { wOn with hce := { wOn.hce with cmds := [({ wCmd with cmd := { wCmd.cmd with op := .writeZeroes, fua := false } })] } },
   by refine ⟨?_, ?_, ?_, ?_⟩ <;> decide,
   by decide +kernel⟩

theorem wit_datasetManagement : ∃ (tag : Fin 4096) (c : Cmd) (s : State),
    Ready .datasetManagement tag c s ∧
    c.cmd.fua = false :=
  ⟨0,
   ({ wCmd with cmd := { wCmd.cmd with op := .datasetManagement, fua := false } }),
   { wOn with hce := { wOn.hce with cmds := [({ wCmd with cmd := { wCmd.cmd with op := .datasetManagement, fua := false } })] } },
   by refine ⟨?_, ?_, ?_, ?_⟩ <;> decide,
   by decide +kernel⟩

theorem wit_reservationRegister : ∃ (tag : Fin 4096) (c : Cmd) (x : Ns) (s : State),
    Ready .resvRegister tag c s ∧
    nsAt (cmdNs c.cmd) s = some x ∧
    bits c.cmd.cdw10 2 0 = 0 ∧
    regKey c.ctrl x = none :=
  ⟨0,
   ({ wCmd with cmd := { wCmd.cmd with op := .resvRegister, cdw10 := 0 * 2 ^ 0 } }),
   wNs,
   { wOn with hce := { wOn.hce with cmds := [({ wCmd with cmd := { wCmd.cmd with op := .resvRegister, cdw10 := 0 * 2 ^ 0 } })], ns := [wNs] } },
   by refine ⟨?_, ?_, ?_, ?_⟩ <;> decide,
   by decide +kernel,
   by decide +kernel,
   by decide +kernel⟩

theorem wit_reservationReport : ∃ (tag : Fin 4096) (c : Cmd) (x : Ns) (s : State),
    Ready .resvReport tag c s ∧
    nsAt (cmdNs c.cmd) s = some x :=
  ⟨0,
   ({ wCmd with cmd := { wCmd.cmd with op := .resvReport } }),
   wNs,
   { wOn with hce := { wOn.hce with cmds := [({ wCmd with cmd := { wCmd.cmd with op := .resvReport } })], ns := [wNs] } },
   by refine ⟨?_, ?_, ?_, ?_⟩ <;> decide,
   by decide +kernel⟩

theorem wit_reservationAcquire : ∃ (tag : Fin 4096) (c : Cmd) (x : Ns) (s : State),
    Ready .resvAcquire tag c s ∧
    nsAt (cmdNs c.cmd) s = some x ∧
    bits c.cmd.cdw10 2 0 = 0 ∧
    1 ≤ bits c.cmd.cdw10 15 8 ∧
    bits c.cmd.cdw10 15 8 ≤ 6 ∧
    keyMatches c x = true ∧
    x.resv = none :=
  ⟨0,
   { wCmd with cmd := { wNvme with op := .resvAcquire, cdw10 := 0x100 } },
   { wNs with registrants := [(0, 0)] },
   { wOn with hce := { wOn.hce with cmds := [{ wCmd with cmd := { wNvme with op := .resvAcquire, cdw10 := 0x100 } }], ns := [{ wNs with registrants := [(0, 0)] }] } },
   by refine ⟨?_, ?_, ?_, ?_⟩ <;> decide,
   by decide +kernel,
   by decide +kernel,
   by decide +kernel,
   by decide +kernel,
   by decide +kernel,
   by decide +kernel⟩

theorem wit_reservationRelease : ∃ (tag : Fin 4096) (c : Cmd) (x : Ns) (u : Nat) (s : State),
    Ready .resvRelease tag c s ∧
    nsAt (cmdNs c.cmd) s = some x ∧
    bits c.cmd.cdw10 2 0 = 0 ∧
    keyMatches c x = true ∧
    x.resv = some (c.ctrl, u) ∧
    u = bits c.cmd.cdw10 15 8 :=
  ⟨0,
   { wCmd with cmd := { wNvme with op := .resvRelease, cdw10 := 0x100 } },
   { wNs with registrants := [(0, 0)], resv := some (0, 1) },
   1,
   { wOn with hce := { wOn.hce with cmds := [{ wCmd with cmd := { wNvme with op := .resvRelease, cdw10 := 0x100 } }], ns := [{ wNs with registrants := [(0, 0)], resv := some (0, 1) }] } },
   by refine ⟨?_, ?_, ?_, ?_⟩ <;> decide,
   by decide +kernel,
   by decide +kernel,
   by decide +kernel,
   by decide +kernel,
   by decide +kernel⟩

theorem wit_zoneOpen : ∃ (tag : Fin 4096) (c : Cmd) (z : Zone) (s : State),
    Ready .zoneOpen tag c s ∧
    c.cmd.all = false ∧
    zoneTab (zoneIdx (cmdNs c.cmd) c.cmd.slba s) s = some z ∧
    zoneSendOk .zoneOpen z = true ∧
    openLimit z s = none :=
  ⟨0,
   ({ wCmd with cmd := { wCmd.cmd with op := .zoneOpen, all := false } }),
   { wZone with st := .empty },
   { wOn with hce := { wOn.hce with cmds := [({ wCmd with cmd := { wCmd.cmd with op := .zoneOpen, all := false } })], ns := [{ wNs with zoned := true }] }, xmt := { wOn.xmt with zones := [{ wZone with st := .empty }] } },
   by refine ⟨?_, ?_, ?_, ?_⟩ <;> decide,
   by decide +kernel,
   by decide +kernel,
   by decide +kernel,
   by decide +kernel⟩

theorem wit_zoneClose : ∃ (tag : Fin 4096) (c : Cmd) (z : Zone) (s : State),
    Ready .zoneClose tag c s ∧
    c.cmd.all = false ∧
    zoneTab (zoneIdx (cmdNs c.cmd) c.cmd.slba s) s = some z ∧
    zoneSendOk .zoneClose z = true :=
  ⟨0,
   ({ wCmd with cmd := { wCmd.cmd with op := .zoneClose, all := false } }),
   { wZone with st := .implicit },
   { wOn with hce := { wOn.hce with cmds := [({ wCmd with cmd := { wCmd.cmd with op := .zoneClose, all := false } })], ns := [{ wNs with zoned := true }] }, xmt := { wOn.xmt with zones := [{ wZone with st := .implicit }] } },
   by refine ⟨?_, ?_, ?_, ?_⟩ <;> decide,
   by decide +kernel,
   by decide +kernel,
   by decide +kernel⟩

theorem wit_zoneFinish : ∃ (tag : Fin 4096) (c : Cmd) (s : State),
    Ready .zoneFinish tag c s ∧
    c.cmd.all = false :=
  ⟨0,
   ({ wCmd with cmd := { wCmd.cmd with op := .zoneFinish, all := false } }),
   { wOn with hce := { wOn.hce with cmds := [({ wCmd with cmd := { wCmd.cmd with op := .zoneFinish, all := false } })] } },
   by refine ⟨?_, ?_, ?_, ?_⟩ <;> decide,
   by decide +kernel⟩

theorem wit_zoneReset : ∃ (tag : Fin 4096) (c : Cmd) (s : State),
    Ready .zoneReset tag c s ∧
    c.cmd.all = false :=
  ⟨0,
   ({ wCmd with cmd := { wCmd.cmd with op := .zoneReset, all := false } }),
   { wOn with hce := { wOn.hce with cmds := [({ wCmd with cmd := { wCmd.cmd with op := .zoneReset, all := false } })] } },
   by refine ⟨?_, ?_, ?_, ?_⟩ <;> decide,
   by decide +kernel⟩

theorem wit_zoneOffline : ∃ (tag : Fin 4096) (c : Cmd) (z : Zone) (s : State),
    Ready .zoneOffline tag c s ∧
    c.cmd.all = false ∧
    zoneTab (zoneIdx (cmdNs c.cmd) c.cmd.slba s) s = some z ∧
    zoneSendOk .zoneOffline z = true :=
  ⟨0,
   ({ wCmd with cmd := { wCmd.cmd with op := .zoneOffline, all := false } }),
   { wZone with st := .readOnly },
   { wOn with hce := { wOn.hce with cmds := [({ wCmd with cmd := { wCmd.cmd with op := .zoneOffline, all := false } })], ns := [{ wNs with zoned := true }] }, xmt := { wOn.xmt with zones := [{ wZone with st := .readOnly }] } },
   by refine ⟨?_, ?_, ?_, ?_⟩ <;> decide,
   by decide +kernel,
   by decide +kernel,
   by decide +kernel⟩

theorem wit_reportZones : ∃ (tag : Fin 4096) (c : Cmd) (x : Ns) (s : State),
    Ready .reportZones tag c s ∧
    nsAt (cmdNs c.cmd) s = some x ∧
    bits c.cmd.cdw13 7 0 = 0 ∧
    bits c.cmd.cdw13 15 8 ≤ 7 :=
  ⟨0,
   ({ wCmd with cmd := { wCmd.cmd with op := .reportZones, cdw13 := 0 * 2 ^ 0 } }),
   wNs,
   { wOn with hce := { wOn.hce with cmds := [({ wCmd with cmd := { wCmd.cmd with op := .reportZones, cdw13 := 0 * 2 ^ 0 } })], ns := [wNs] } },
   by refine ⟨?_, ?_, ?_, ?_⟩ <;> decide,
   by decide +kernel,
   by decide +kernel,
   by decide +kernel⟩

theorem wit_createIoSq : ∃ (tag : Fin 4096) (c : Cmd) (s : State),
    Ready .createIoSq tag c s ∧
    qidOk c s = true ∧
    (∀ q ∈ (ctrlAt c.ctrl s).sqs, q.id ≠ qid c) ∧
    bits c.cmd.cdw11 31 16 ≠ 0 ∧
    (∃ q ∈ (ctrlAt c.ctrl s).cqs, q.id = bits c.cmd.cdw11 31 16) ∧
    qsizeOk c = true :=
  ⟨0,
   wC .createIoSq (15 * 2 ^ 16 + 1) (1 * 2 ^ 16),
   (({ wOn with hce := { wOn.hce with cmds := [wC .createIoSq (15 * 2 ^ 16 + 1) (1 * 2 ^ 16)] } })).modCtrl 0 fun x => { x with cqs := [wCq], nq := 4 },
   by refine ⟨?_, ?_, ?_, ?_⟩ <;> decide,
   by decide +kernel,
   by first | decide | decide +kernel | (intro _ h; nomatch h) | (intro c _; revert c; decide),
   by decide +kernel,
   by decide +kernel,
   by decide +kernel⟩

theorem wit_createIoCq : ∃ (tag : Fin 4096) (c : Cmd) (s : State),
    Ready .createIoCq tag c s ∧
    qidOk c s = true ∧
    (∀ q ∈ (ctrlAt c.ctrl s).cqs, q.id ≠ qid c) ∧
    qsizeOk c = true ∧
    bits c.cmd.cdw11 31 16 ≤ 256 :=
  ⟨0,
   wC .createIoCq (15 * 2 ^ 16 + 1) 0,
   (({ wOn with hce := { wOn.hce with cmds := [wC .createIoCq (15 * 2 ^ 16 + 1) 0] } })).modCtrl 0 fun x => { x with nq := 4 },
   by refine ⟨?_, ?_, ?_, ?_⟩ <;> decide,
   by decide +kernel,
   by first | decide | decide +kernel | (intro _ h; nomatch h) | (intro c _; revert c; decide),
   by decide +kernel,
   by decide +kernel⟩

theorem wit_deleteIoSq : ∃ (tag : Fin 4096) (c : Cmd) (s : State),
    Ready .deleteIoSq tag c s ∧
    qid c ≠ 0 ∧
    (∃ q ∈ (ctrlAt c.ctrl s).sqs, q.id = qid c) ∧
    (s.hce.cmds.any fun x => x.ctrl == c.ctrl && x.sqid == qid c && !x.fromMi && x.phase != .orphan) = false :=
  ⟨0,
   { wC .deleteIoSq 1 0 with sqid := 0 },
   (({ wOn with hce := { wOn.hce with cmds := [{ wC .deleteIoSq 1 0 with sqid := 0 }] } })).modCtrl 0 fun x => { x with sqs := [wSq] },
   by refine ⟨?_, ?_, ?_, ?_⟩ <;> decide,
   by decide +kernel,
   by decide +kernel,
   by decide +kernel⟩

theorem wit_deleteIoCq : ∃ (tag : Fin 4096) (c : Cmd) (s : State),
    Ready .deleteIoCq tag c s ∧
    qid c ≠ 0 ∧
    (∃ q ∈ (ctrlAt c.ctrl s).cqs, q.id = qid c) ∧
    (∀ q ∈ (ctrlAt c.ctrl s).sqs, q.cq ≠ qid c) :=
  ⟨0,
   wC .deleteIoCq 1 0,
   (({ wOn with hce := { wOn.hce with cmds := [wC .deleteIoCq 1 0] } })).modCtrl 0 fun x => { x with cqs := [wCq] },
   by refine ⟨?_, ?_, ?_, ?_⟩ <;> decide,
   by decide +kernel,
   by decide +kernel,
   by first | decide | decide +kernel | (intro _ h; nomatch h) | (intro c _; revert c; decide)⟩

theorem wit_identify : ∃ (tag : Fin 4096) (c : Cmd) (s : State),
    Ready .identify tag c s ∧
    bits c.cmd.cdw10 7 0 = 2 :=
  ⟨0,
   ({ wCmd with cmd := { wCmd.cmd with op := .identify, cdw10 := 2 * 2 ^ 0 } }),
   { wOn with hce := { wOn.hce with cmds := [({ wCmd with cmd := { wCmd.cmd with op := .identify, cdw10 := 2 * 2 ^ 0 } })] } },
   by refine ⟨?_, ?_, ?_, ?_⟩ <;> decide,
   by decide +kernel⟩

theorem wit_identifyInvalid : ∃ (tag : Fin 4096) (c : Cmd) (s : State),
    Ready .identify tag c s ∧
    0x20 ≤ bits c.cmd.cdw10 7 0 :=
  ⟨0,
   wC .identify 0x20 0,
   { wOn with hce := { wOn.hce with cmds := [wC .identify 0x20 0] } },
   by refine ⟨?_, ?_, ?_, ?_⟩ <;> decide,
   by decide +kernel⟩

theorem wit_getLogPage : ∃ (tag : Fin 4096) (c : Cmd) (s : State),
    Ready .getLogPage tag c s ∧
    logId c.cmd = 2 ∧
    logOffset c.cmd % 4 = 0 :=
  ⟨0,
   ({ wCmd with cmd := { wCmd.cmd with op := .getLogPage, cdw10 := 2 } }),
   { wOn with hce := { wOn.hce with cmds := [({ wCmd with cmd := { wCmd.cmd with op := .getLogPage, cdw10 := 2 } })] } },
   by refine ⟨?_, ?_, ?_, ?_⟩ <;> decide,
   by decide +kernel,
   by decide +kernel⟩

theorem wit_logGuaranteeExceptions : ∃ (tag : Fin 4096) (c : Cmd) (s : State),
    Ready .getLogPage tag c s ∧
    logId c.cmd = 0xC0 ∧
    (c.cmd.nsid = 0 ∨ c.cmd.nsid = 0xFFFFFFFF) ∧
    logSeq c.cmd = false ∧
    logOffset c.cmd = 0 :=
  ⟨0,
   ({ wCmd with cmd := { wCmd.cmd with op := .getLogPage, cdw10 := 0xC0 } }),
   { wOn with hce := { wOn.hce with cmds := [({ wCmd with cmd := { wCmd.cmd with op := .getLogPage, cdw10 := 0xC0 } })] } },
   by refine ⟨?_, ?_, ?_, ?_⟩ <;> decide,
   by decide +kernel,
   by decide +kernel,
   by decide +kernel,
   by decide +kernel⟩

theorem wit_logEventRecorder : ∃ (tag : Fin 4096) (c : Cmd) (s : State),
    Ready .getLogPage tag c s ∧
    logId c.cmd = 0xC1 ∧
    (c.cmd.nsid = 0 ∨ c.cmd.nsid = 0xFFFFFFFF) ∧
    logSeq c.cmd = true :=
  ⟨0,
   { wC .getLogPage 0xC1 0 with cmd := { (wC .getLogPage 0xC1 0).cmd with cdw14 := 2 ^ 23 } },
   { wOn with hce := { wOn.hce with cmds := [{ wC .getLogPage 0xC1 0 with cmd := { (wC .getLogPage 0xC1 0).cmd with cdw14 := 2 ^ 23 } }] } },
   by refine ⟨?_, ?_, ?_, ?_⟩ <;> decide,
   by decide +kernel,
   by decide +kernel,
   by decide +kernel⟩

theorem wit_logLifetimeCounters : ∃ (tag : Fin 4096) (c : Cmd) (s : State),
    Ready .getLogPage tag c s ∧
    logId c.cmd = 0xC2 ∧
    (c.cmd.nsid = 0 ∨ c.cmd.nsid = 0xFFFFFFFF) ∧
    logSeq c.cmd = false ∧
    logOffset c.cmd = 0 :=
  ⟨0,
   ({ wCmd with cmd := { wCmd.cmd with op := .getLogPage, cdw10 := 0xC2 } }),
   { wOn with hce := { wOn.hce with cmds := [({ wCmd with cmd := { wCmd.cmd with op := .getLogPage, cdw10 := 0xC2 } })] } },
   by refine ⟨?_, ?_, ?_, ?_⟩ <;> decide,
   by decide +kernel,
   by decide +kernel,
   by decide +kernel,
   by decide +kernel⟩

theorem wit_logActuatorHeadHealth : ∃ (tag : Fin 4096) (c : Cmd) (s : State),
    Ready .getLogPage tag c s ∧
    logId c.cmd = 0xC3 ∧
    (c.cmd.nsid = 0 ∨ c.cmd.nsid = 0xFFFFFFFF) ∧
    logSeq c.cmd = false ∧
    logOffset c.cmd = 0 :=
  ⟨0,
   ({ wCmd with cmd := { wCmd.cmd with op := .getLogPage, cdw10 := 0xC3 } }),
   { wOn with hce := { wOn.hce with cmds := [({ wCmd with cmd := { wCmd.cmd with op := .getLogPage, cdw10 := 0xC3 } })] } },
   by refine ⟨?_, ?_, ?_, ?_⟩ <;> decide,
   by decide +kernel,
   by decide +kernel,
   by decide +kernel,
   by decide +kernel⟩

theorem wit_logLeasesPower : ∃ (tag : Fin 4096) (c : Cmd) (s : State),
    Ready .getLogPage tag c s ∧
    logId c.cmd = 0xC4 ∧
    (c.cmd.nsid = 0 ∨ c.cmd.nsid = 0xFFFFFFFF) ∧
    logSeq c.cmd = false ∧
    logOffset c.cmd = 0 :=
  ⟨0,
   ({ wCmd with cmd := { wCmd.cmd with op := .getLogPage, cdw10 := 0xC4 } }),
   { wOn with hce := { wOn.hce with cmds := [({ wCmd with cmd := { wCmd.cmd with op := .getLogPage, cdw10 := 0xC4 } })] } },
   by refine ⟨?_, ?_, ?_, ?_⟩ <;> decide,
   by decide +kernel,
   by decide +kernel,
   by decide +kernel,
   by decide +kernel⟩

theorem wit_logAttestationMeasurements : ∃ (tag : Fin 4096) (c : Cmd) (s : State),
    Ready .getLogPage tag c s ∧
    logId c.cmd = 0xC5 ∧
    (c.cmd.nsid = 0 ∨ c.cmd.nsid = 0xFFFFFFFF) ∧
    logSeq c.cmd = false ∧
    logOffset c.cmd = 0 :=
  ⟨0,
   ({ wCmd with cmd := { wCmd.cmd with op := .getLogPage, cdw10 := 0xC5 } }),
   { wOn with hce := { wOn.hce with cmds := [({ wCmd with cmd := { wCmd.cmd with op := .getLogPage, cdw10 := 0xC5 } })] } },
   by refine ⟨?_, ?_, ?_, ?_⟩ <;> decide,
   by decide +kernel,
   by decide +kernel,
   by decide +kernel,
   by decide +kernel⟩

theorem wit_setFeatures : ∃ (tag : Fin 4096) (c : Cmd) (s : State),
    Ready .setFeatures tag c s ∧
    fid c = 5 :=
  ⟨0,
   ({ wCmd with cmd := { wCmd.cmd with op := .setFeatures, cdw10 := 5 } }),
   { wOn with hce := { wOn.hce with cmds := [({ wCmd with cmd := { wCmd.cmd with op := .setFeatures, cdw10 := 5 } })] } },
   by refine ⟨?_, ?_, ?_, ?_⟩ <;> decide,
   by decide +kernel⟩

theorem wit_getFeatures : ∃ (tag : Fin 4096) (c : Cmd) (s : State),
    Ready .getFeatures tag c s ∧
    fid c ≠ 0x0E ∧
    fid c ≠ 0xC3 ∧
    (ownSetRow (fid c) || stdFeatures.contains (fid c)) = true ∧
    featSel c = 0 :=
  ⟨0,
   wC .getFeatures 1 0,
   { wOn with hce := { wOn.hce with cmds := [wC .getFeatures 1 0] } },
   by refine ⟨?_, ?_, ?_, ?_⟩ <;> decide,
   by decide +kernel,
   by decide +kernel,
   by decide +kernel,
   by decide +kernel⟩

theorem wit_setFeaturesPowerManagement : ∃ (tag : Fin 4096) (c : Cmd) (s : State),
    Ready .setFeatures tag c s ∧
    fid c = 2 ∧
    c.cmd.cdw11 % 32 ≤ 1 ∧
    (∃ x, s.pwr.psHeld = some (tag.val, x)) ∧
    s.pwr.psUnwound = false ∧
    s.pwr.state = .lit :=
  ⟨0,
   ({ wCmd with cmd := { wCmd.cmd with op := .setFeatures, cdw10 := 2 } }),
   { ({ wOn with hce := { wOn.hce with cmds := [({ wCmd with cmd := { wCmd.cmd with op := .setFeatures, cdw10 := 2 } })] }, pwr := { wOn.pwr with psUnwound := false, state := .lit } }) with pwr := { wOn.pwr with psHeld := some (0, 0) } },
   by refine ⟨?_, ?_, ?_, ?_⟩ <;> decide,
   by decide +kernel,
   by decide +kernel,
   by exact ⟨_, rfl⟩,
   by decide +kernel,
   by decide +kernel⟩

theorem wit_setFeaturesTimestamp : ∃ (tag : Fin 4096) (c : Cmd) (s : State),
    Ready .setFeatures tag c s ∧
    fid c = 0x0E ∧
    Rising s.regs :=
  ⟨0,
   ({ wCmd with cmd := { wCmd.cmd with op := .setFeatures, cdw10 := 0x0E } }),
   { wOn with hce := { wOn.hce with cmds := [({ wCmd with cmd := { wCmd.cmd with op := .setFeatures, cdw10 := 0x0E } })] } },
   by refine ⟨?_, ?_, ?_, ?_⟩ <;> decide,
   by decide +kernel,
   by first | exact True.intro | (repeat first | exact True.intro | apply rising_setFld)⟩

theorem wit_getFeaturesTimestamp : ∃ (tag : Fin 4096) (c : Cmd) (s : State),
    Ready .getFeatures tag c s ∧
    fid c = 0x0E :=
  ⟨0,
   ({ wCmd with cmd := { wCmd.cmd with op := .getFeatures, cdw10 := 0x0E } }),
   { wOn with hce := { wOn.hce with cmds := [({ wCmd with cmd := { wCmd.cmd with op := .getFeatures, cdw10 := 0x0E } })] } },
   by refine ⟨?_, ?_, ?_, ?_⟩ <;> decide,
   by decide +kernel⟩

theorem wit_setFeaturesVolatileWriteCache : ∃ (tag : Fin 4096) (c : Cmd) (s : State),
    Ready .setFeatures tag c s ∧
    fid c = 6 :=
  ⟨0,
   ({ wCmd with cmd := { wCmd.cmd with op := .setFeatures, cdw10 := 6 } }),
   { wOn with hce := { wOn.hce with cmds := [({ wCmd with cmd := { wCmd.cmd with op := .setFeatures, cdw10 := 6 } })] } },
   by refine ⟨?_, ?_, ?_, ?_⟩ <;> decide,
   by decide +kernel⟩

theorem wit_setFeaturesInterruptCoalescing : ∃ (tag : Fin 4096) (c : Cmd) (s : State),
    Ready .setFeatures tag c s ∧
    fid c = 8 :=
  ⟨0,
   ({ wCmd with cmd := { wCmd.cmd with op := .setFeatures, cdw10 := 8 } }),
   { wOn with hce := { wOn.hce with cmds := [({ wCmd with cmd := { wCmd.cmd with op := .setFeatures, cdw10 := 8 } })] } },
   by refine ⟨?_, ?_, ?_, ?_⟩ <;> decide,
   by decide +kernel⟩

theorem wit_setFeaturesTemperatureThreshold : ∃ (tag : Fin 4096) (c : Cmd) (s : State),
    Ready .setFeatures tag c s ∧
    fid c = 4 ∧
    bits (c.cmd.cdw11 % 2 ^ 32) 21 20 = 0 ∧
    bits (c.cmd.cdw11 % 2 ^ 32) 19 16 = 0 ∧
    thrOrdered ((bits (c.cmd.cdw11 % 2 ^ 32) 15 0 : Int) - 273) (thrThrot s) (thrShut s) = true :=
  ⟨0,
   wC .setFeatures 4 320,
   setFld .thmThr 0 0 31 24 80 (setFld .thmThr 0 0 23 16 75 ({ wOn with hce := { wOn.hce with cmds := [wC .setFeatures 4 320] } })),
   by refine ⟨?_, ?_, ?_, ?_⟩ <;> decide,
   by decide +kernel,
   by decide +kernel,
   by decide +kernel,
   by decide +kernel⟩

theorem wit_setFeaturesReadRecoveryLevel : ∃ (tag : Fin 4096) (c : Cmd) (s : State),
    Ready .setFeatures tag c s ∧
    fid c = 0x12 ∧
    (c.cmd.cdw11 % 2 ^ 32 % 16 = 0 ∨ c.cmd.cdw11 % 2 ^ 32 % 16 = 4 ∨ c.cmd.cdw11 % 2 ^ 32 % 16 = 15) :=
  ⟨0,
   ({ wCmd with cmd := { wCmd.cmd with op := .setFeatures, cdw10 := 0x12 } }),
   { wOn with hce := { wOn.hce with cmds := [({ wCmd with cmd := { wCmd.cmd with op := .setFeatures, cdw10 := 0x12 } })] } },
   by refine ⟨?_, ?_, ?_, ?_⟩ <;> decide,
   by decide +kernel,
   by decide +kernel⟩

theorem wit_setFeaturesRecoveryTimeLimit : ∃ (tag : Fin 4096) (c : Cmd) (s : State),
    Ready .setFeatures tag c s ∧
    fid c = 0xC0 ∧
    10 ≤ c.cmd.cdw11 % 2 ^ 32 % 2 ^ 16 ∧
    c.cmd.cdw11 % 2 ^ 32 % 2 ^ 16 ≤ 6000 :=
  ⟨0,
   wC .setFeatures 0xC0 10,
   { wOn with hce := { wOn.hce with cmds := [wC .setFeatures 0xC0 10] } },
   by refine ⟨?_, ?_, ?_, ?_⟩ <;> decide,
   by decide +kernel,
   by decide +kernel,
   by decide +kernel⟩

theorem wit_setFeaturesRecoveryTimeLimitRange : ∃ (tag : Fin 4096) (c : Cmd) (s : State),
    Ready .setFeatures tag c s ∧
    fid c = 0xC0 ∧
    (c.cmd.cdw11 % 2 ^ 32 % 2 ^ 16 < 10 ∨ 6000 < c.cmd.cdw11 % 2 ^ 32 % 2 ^ 16) :=
  ⟨0,
   ({ wCmd with cmd := { wCmd.cmd with op := .setFeatures, cdw10 := 0xC0 } }),
   { wOn with hce := { wOn.hce with cmds := [({ wCmd with cmd := { wCmd.cmd with op := .setFeatures, cdw10 := 0xC0 } })] } },
   by refine ⟨?_, ?_, ?_, ?_⟩ <;> decide,
   by decide +kernel,
   by decide +kernel⟩

theorem wit_setFeaturesDirtyCap : ∃ (tag : Fin 4096) (c : Cmd) (s : State),
    Ready .setFeatures tag c s ∧
    fid c = 0xC1 ∧
    c.cmd.cdw11 % 2 ^ 32 % 2 ^ 16 ≤ reservoirCapacity s :=
  ⟨0,
   ({ wCmd with cmd := { wCmd.cmd with op := .setFeatures, cdw10 := 0xC1 } }),
   { wOn with hce := { wOn.hce with cmds := [({ wCmd with cmd := { wCmd.cmd with op := .setFeatures, cdw10 := 0xC1 } })] } },
   by refine ⟨?_, ?_, ?_, ?_⟩ <;> decide,
   by decide +kernel,
   by decide +kernel⟩

theorem wit_setFeaturesLeaseFloor : ∃ (tag : Fin 4096) (c : Cmd) (s : State),
    Ready .setFeatures tag c s ∧
    fid c = 0xC2 ∧
    Rising s.regs ∧
    c.cmd.cdw11 % 2 ^ 32 % 2 ^ 24 ≤ lltBoard s :=
  ⟨0,
   ({ wCmd with cmd := { wCmd.cmd with op := .setFeatures, cdw10 := 0xC2 } }),
   { wOn with hce := { wOn.hce with cmds := [({ wCmd with cmd := { wCmd.cmd with op := .setFeatures, cdw10 := 0xC2 } })] } },
   by refine ⟨?_, ?_, ?_, ?_⟩ <;> decide,
   by decide +kernel,
   by first | exact True.intro | (repeat first | exact True.intro | apply rising_setFld),
   by decide +kernel⟩

theorem wit_setFeaturesBehaviourProfile : ∃ (tag : Fin 4096) (c : Cmd) (s : State),
    Ready .setFeatures tag c s ∧
    fid c = 0xC3 ∧
    s.sys.profLock = false ∧
    (c.cmd.cdw11 % 2 ^ 32 % 2 ^ 12 = 0x0A0 ∨ c.cmd.cdw11 % 2 ^ 32 % 2 ^ 12 = 0x0A1 ∨ c.cmd.cdw11 % 2 ^ 32 % 2 ^ 12 = 0x0B0) :=
  ⟨0,
   wC .setFeatures 0xC3 0xA0,
   { wOn with hce := { wOn.hce with cmds := [wC .setFeatures 0xC3 0xA0] }, sys := { wOn.sys with profLock := false } },
   by refine ⟨?_, ?_, ?_, ?_⟩ <;> decide,
   by decide +kernel,
   by decide +kernel,
   by decide +kernel⟩

theorem wit_setFeaturesBehaviourProfileLocked : ∃ (tag : Fin 4096) (c : Cmd) (s : State),
    Ready .setFeatures tag c s ∧
    fid c = 0xC3 ∧
    s.sys.profLock = true :=
  ⟨0,
   ({ wCmd with cmd := { wCmd.cmd with op := .setFeatures, cdw10 := 0xC3 } }),
   { wOn with hce := { wOn.hce with cmds := [({ wCmd with cmd := { wCmd.cmd with op := .setFeatures, cdw10 := 0xC3 } })] }, sys := { wOn.sys with profLock := true } },
   by refine ⟨?_, ?_, ?_, ?_⟩ <;> decide,
   by decide +kernel,
   by decide +kernel⟩

theorem wit_getFeaturesBehaviourProfile : ∃ (tag : Fin 4096) (c : Cmd) (s : State),
    Ready .getFeatures tag c s ∧
    fid c = 0xC3 ∧
    featSel c ≤ 3 :=
  ⟨0,
   ({ wCmd with cmd := { wCmd.cmd with op := .getFeatures, cdw10 := 0xC3 } }),
   { wOn with hce := { wOn.hce with cmds := [({ wCmd with cmd := { wCmd.cmd with op := .getFeatures, cdw10 := 0xC3 } })] } },
   by refine ⟨?_, ?_, ?_, ?_⟩ <;> decide,
   by decide +kernel,
   by decide +kernel⟩

theorem wit_asynchronousEventRequest : ∃ (tag : Fin 4096) (c : Cmd) (s : State),
    Ready .asyncEventRequest tag c s ∧
    (ctrlAt c.ctrl s).aers.length < 8 ∧
    (ctrlAt c.ctrl s).aens = [] :=
  ⟨0,
   ({ wCmd with cmd := { wCmd.cmd with op := .asyncEventRequest } }),
   { wOn with hce := { wOn.hce with cmds := [({ wCmd with cmd := { wCmd.cmd with op := .asyncEventRequest } })] } },
   by refine ⟨?_, ?_, ?_, ?_⟩ <;> decide,
   by decide +kernel,
   by decide +kernel⟩

theorem wit_abort : ∃ (tag : Fin 4096) (c : Cmd) (s : State),
    Ready .abort tag c s ∧
    matchTarget c.ctrl (bits c.cmd.cdw10 15 0) (bits c.cmd.cdw10 31 16) s = none :=
  ⟨0,
   ({ wCmd with cmd := { wCmd.cmd with op := .abort } }),
   { wOn with hce := { wOn.hce with cmds := [({ wCmd with cmd := { wCmd.cmd with op := .abort } })] } },
   by refine ⟨?_, ?_, ?_, ?_⟩ <;> decide,
   by decide +kernel⟩

theorem wit_keepAlive : ∃ (tag : Fin 4096) (c : Cmd) (s : State),
    Ready .keepAlive tag c s :=
  ⟨0,
   ({ wCmd with cmd := { wCmd.cmd with op := .keepAlive } }),
   { wOn with hce := { wOn.hce with cmds := [({ wCmd with cmd := { wCmd.cmd with op := .keepAlive } })] } },
   by refine ⟨?_, ?_, ?_, ?_⟩ <;> decide⟩

theorem wit_namespaceCreate : ∃ (tag : Fin 4096) (c : Cmd) (k base : Nat) (s : State),
    Ready .namespaceManagement tag c s ∧
    bits c.cmd.cdw10 3 0 = 0 ∧
    bits c.cmd.cdw11 31 24 = 0 ∧
    c.cmd.payload % 2 ^ 64 ≠ 0 ∧
    c.cmd.payload % 2 ^ 64 % 1024 = 0 ∧
    bits c.cmd.payload 211 208 ≤ 3 ∧
    (bits c.cmd.payload 211 208 = 0 → bits c.cmd.payload 235 232 % 8 = 0) ∧
    bits c.cmd.payload 235 232 % 8 ≤ 3 ∧
    lowestFree 64 (s.hce.ns.map fun x => x.nsid - 1) = some k ∧
    freeRun (c.cmd.payload % 2 ^ 64 / 1024) 33554432 (nsRanges false s) = some base :=
  ⟨0,
   { wC .namespaceManagement 0 0 with cmd := { (wC .namespaceManagement 0 0).cmd with payload := 1024 } },
   0,
   0,
   { wOn with hce := { wOn.hce with cmds := [{ wC .namespaceManagement 0 0 with cmd := { (wC .namespaceManagement 0 0).cmd with payload := 1024 } }] } },
   by refine ⟨?_, ?_, ?_, ?_⟩ <;> decide,
   by decide +kernel,
   by decide +kernel,
   by decide +kernel,
   by decide +kernel,
   by decide +kernel,
   by decide +kernel,
   by decide +kernel,
   by decide +kernel,
   by decide +kernel⟩

theorem wit_namespaceAttachment : ∃ (tag : Fin 4096) (c : Cmd) (x : Ns) (s : State),
    Ready .namespaceAttachment tag c s ∧
    nsAt (cmdNs c.cmd) s = some x ∧
    bits c.cmd.cdw10 3 0 = 0 ∧
    ctrlList c.cmd.payload = [0] ∧
    (sget 0 0x0B (ctrlAt 0 s).feats).testBit 8 = false :=
  ⟨0,
   { wC .namespaceAttachment 0 0 with cmd := { (wC .namespaceAttachment 0 0).cmd with payload := 1 } },
   wNs,
   { wOn with hce := { wOn.hce with cmds := [{ wC .namespaceAttachment 0 0 with cmd := { (wC .namespaceAttachment 0 0).cmd with payload := 1 } }], ns := [wNs] } },
   by refine ⟨?_, ?_, ?_, ?_⟩ <;> decide,
   by decide +kernel,
   by decide +kernel,
   by decide +kernel,
   by decide +kernel⟩

theorem wit_firmwareImageDownload : ∃ (tag : Fin 4096) (c : Cmd) (s : State),
    Ready .firmwareImageDownload tag c s :=
  ⟨0,
   ({ wCmd with cmd := { wCmd.cmd with op := .firmwareImageDownload } }),
   { wOn with hce := { wOn.hce with cmds := [({ wCmd with cmd := { wCmd.cmd with op := .firmwareImageDownload } })] } },
   by refine ⟨?_, ?_, ?_, ?_⟩ <;> decide⟩

theorem wit_firmwareCommit : ∃ (tag : Fin 4096) (img : BootImage) (c : Cmd) (s : State),
    Ready .firmwareCommit tag c s ∧
    fwAction c = 1 ∧
    (fwSlot c s = 1 ∨ fwSlot c s = 2) ∧
    s.hce.fwDl ≠ [] ∧
    bootResult 1 img s = 1 :=
  ⟨0,
   { wImg with typ := 1 },
   wC .firmwareCommit (1 * 2 ^ 3) 0,
   { { ({ wOn with hce := { wOn.hce with cmds := [wC .firmwareCommit (1 * 2 ^ 3) 0] } }) with sec := { wOn.sec with okey := #v[some (7, false), none, none, none] } } with hce := { (({ wOn with hce := { wOn.hce with cmds := [wC .firmwareCommit (1 * 2 ^ 3) 0] } })).hce with fwDl := [0] } },
   by refine ⟨?_, ?_, ?_, ?_⟩ <;> decide,
   by decide +kernel,
   by decide +kernel,
   by decide +kernel,
   by exact bootResult_owner (by decide) (by decide) (by decide +kernel) (by decide) (by decide) (by decide)⟩

theorem wit_firmwareActivation : ∃ (tag : Fin 4096) (img : BootImage) (c : Cmd) (s : State),
    Ready .firmwareCommit tag c s ∧
    fwAction c = 3 ∧
    fwSlot c s ≤ 2 ∧
    s.sys.fwPause = none ∧
    bootResult 1 img s = 1 ∧
    pauseAllowed s = true ∧
    seqsIdle s = true :=
  ⟨0,
   { wImg with typ := 1 },
   wC .firmwareCommit (3 * 2 ^ 3) 0,
   { ({ wOn with hce := { wOn.hce with cmds := [wC .firmwareCommit (3 * 2 ^ 3) 0] }, sys := { wOn.sys with fwPause := none } }) with sec := { wOn.sec with restored := true, okey := #v[some (7, false), none, none, none] } },
   by refine ⟨?_, ?_, ?_, ?_⟩ <;> decide,
   by decide +kernel,
   by decide +kernel,
   by decide +kernel,
   by exact bootResult_owner (by decide) (by decide) (by decide +kernel) (by decide) (by decide) (by decide),
   by decide +kernel,
   by decide +kernel⟩

theorem wit_activationPauseTimeout : ∃ (k tag at_ : Nat) (s : State),
    s.sys.fwPause = some (k, tag, at_) ∧
    seqsIdle s = false ∧
    (cmdAt tag s).isSome = true :=
  ⟨0,
   0,
   0,
   { (({ wOn with sys := { wOn.sys with fwPause := some ((0), (0), (0)) } })).modAsq 0 fun x => { x with avalid := true } with hce := { (({ wOn with sys := { wOn.sys with fwPause := some ((0), (0), (0)) } })).hce with cmds := [wCmd] } },
   by decide +kernel,
   by decide +kernel,
   by decide +kernel⟩

theorem wit_formatNvm : ∃ (tag : Fin 4096) (c : Cmd) (x : Ns) (o : Nat) (s : State),
    Ready .formatNvm tag c s ∧
    nsAt (cmdNs c.cmd) s = some x ∧
    c.ord = some o ∧
    pdOn 10 s = true ∧
    barrierTurn o (x.nsid - 1) s = true ∧
    frontier (nsDom (x.nsid - 1) s) s = o :=
  ⟨0,
   { ({ wCmd with cmd := { wCmd.cmd with op := .formatNvm } }) with ord := some (5) },
   wNs,
   5,
   { ({ wOn with hce := { wOn.hce with cmds := [{ ({ wCmd with cmd := { wCmd.cmd with op := .formatNvm } }) with ord := some (5) }], ns := [wNs] } }) with lgr := { wOn.lgr with entries := [{ wEntry with kind := .barrier }], ordNext := 6 } },
   by refine ⟨?_, ?_, ?_, ?_⟩ <;> decide,
   by decide +kernel,
   by decide +kernel,
   by decide +kernel,
   by decide +kernel,
   by decide +kernel⟩

theorem wit_sanitizeOverwrite : ∃ (tag : Fin 4096) (c : Cmd) (s : State),
    Ready .sanitize tag c s ∧
    bits c.cmd.cdw10 2 0 = 3 ∧
    sanTurn c s = true :=
  ⟨0,
   ({ wCmd with cmd := { wCmd.cmd with op := .sanitize, cdw10 := 3 * 2 ^ 0 } }),
   { wOn with hce := { wOn.hce with cmds := [({ wCmd with cmd := { wCmd.cmd with op := .sanitize, cdw10 := 3 * 2 ^ 0 } })] } },
   by refine ⟨?_, ?_, ?_, ?_⟩ <;> decide,
   by decide +kernel,
   by decide +kernel⟩

theorem wit_sanitizeCryptoErase : ∃ (tag : Fin 4096) (c : Cmd) (s : State),
    Ready .sanitize tag c s ∧
    bits c.cmd.cdw10 2 0 = 4 ∧
    sanTurn c s = true ∧
    mediaUp s = true :=
  ⟨0,
   ({ wCmd with cmd := { wCmd.cmd with op := .sanitize, cdw10 := 4 * 2 ^ 0 } }),
   { wOn with hce := { wOn.hce with cmds := [({ wCmd with cmd := { wCmd.cmd with op := .sanitize, cdw10 := 4 * 2 ^ 0 } })] }, spn := { wOn.spn with state := .atSpeed } },
   by refine ⟨?_, ?_, ?_, ?_⟩ <;> decide,
   by decide +kernel,
   by decide +kernel,
   by decide +kernel⟩

theorem wit_sanitizeBandDone : ∃ (x : San) (b : Bool × Nat × Nat × Nat) (s : State),
    s.xmt.san = some x ∧
    x.overwrite = true ∧
    x.doneJ = none ∧
    xmtUp s = true ∧
    sanGranted s = true ∧
    (sanBands s)[x.band]? = some b ∧
    (s.lgr.pins.any fun (l, _) => inBand b l) = false ∧
    x.band + 1 < x.bands :=
  ⟨{ wSan with bands := 2 },
   (false, 0, 0, 1),
   { ({ wOn with xmt := { wOn.xmt with san := some ({ wSan with bands := 2 }) } }) with xmt := { (({ wOn with xmt := { wOn.xmt with san := some ({ wSan with bands := 2 }) } })).xmt with extents := [{ idx := 0, v := true, dealloc := false, mig := false, ns := 0, seq := 0, ch := 0, sl := 0 }] }, spn := { wOn.spn with state := .atSpeed }, rvr := { wOn.rvr with recStep := 6 }, llt := { wOn.llt with tickets := [{ wTicket with cls := 9 }] } },
   by decide +kernel,
   by decide +kernel,
   by decide +kernel,
   by decide +kernel,
   by decide +kernel,
   by decide +kernel,
   by decide +kernel,
   by decide +kernel⟩

theorem wit_securitySend : ∃ (tag : Fin 4096) (c : Cmd) (s : State),
    Ready .securitySend tag c s ∧
    secp c.cmd = 0 :=
  ⟨0,
   ({ wCmd with cmd := { wCmd.cmd with op := .securitySend } }),
   { wOn with hce := { wOn.hce with cmds := [({ wCmd with cmd := { wCmd.cmd with op := .securitySend } })] } },
   by refine ⟨?_, ?_, ?_, ?_⟩ <;> decide,
   by decide +kernel⟩

theorem wit_securityReceive : ∃ (tag : Fin 4096) (c : Cmd) (s : State),
    Ready .securityReceive tag c s ∧
    secp c.cmd = 0 :=
  ⟨0,
   ({ wCmd with cmd := { wCmd.cmd with op := .securityReceive } }),
   { wOn with hce := { wOn.hce with cmds := [({ wCmd with cmd := { wCmd.cmd with op := .securityReceive } })] } },
   by refine ⟨?_, ?_, ?_, ?_⟩ <;> decide,
   by decide +kernel⟩

theorem wit_attestationNonce : ∃ (tag : Fin 4096) (c : Cmd) (s : State),
    Ready .securitySend tag c s ∧
    secp c.cmd = 0xF0 ∧
    spsp c.cmd = 1 :=
  ⟨0,
   wC .securitySend (0xF0 * 2 ^ 24 + 1 * 2 ^ 8) 0,
   { wOn with hce := { wOn.hce with cmds := [wC .securitySend (0xF0 * 2 ^ 24 + 1 * 2 ^ 8) 0] } },
   by refine ⟨?_, ?_, ?_, ?_⟩ <;> decide,
   by decide +kernel,
   by decide +kernel⟩

theorem wit_attestationReportSigned : ∃ (s : State),
    secRuns s = true ∧
    s.sec.signing = true :=
  ⟨{ wOn with sec := { wOn.sec with signing := true } },
   by decide +kernel,
   by decide +kernel⟩

theorem wit_attestationReportReceive : ∃ (tag : Fin 4096) (c : Cmd) (s : State),
    Ready .securityReceive tag c s ∧
    secp c.cmd = 0xF0 ∧
    spsp c.cmd = 1 :=
  ⟨0,
   wC .securityReceive (0xF0 * 2 ^ 24 + 1 * 2 ^ 8) 0,
   { wOn with hce := { wOn.hce with cmds := [wC .securityReceive (0xF0 * 2 ^ 24 + 1 * 2 ^ 8) 0] } },
   by refine ⟨?_, ?_, ?_, ?_⟩ <;> decide,
   by decide +kernel,
   by decide +kernel⟩

theorem wit_credential : ∃ (tag : Fin 4096) (c : Cmd) (s : State),
    Ready .securitySend tag c s ∧
    secp c.cmd = 0xF1 ∧
    spsp c.cmd < 32 ∧
    (vget s.sec.users (spsp c.cmd) {}).lockout = false ∧
    (vget s.sec.users (spsp c.cmd) {}).cred = some (Config.hash 0 (c.cmd.payload % 2 ^ 512)) :=
  ⟨0,
   wC .securitySend (0xF1 * 2 ^ 24) 0,
   { ({ wOn with hce := { wOn.hce with cmds := [wC .securitySend (0xF1 * 2 ^ 24) 0] } }) with sec := { wOn.sec with users := wUsers (wHash (wC .securitySend (0xF1 * 2 ^ 24) 0)) } },
   by refine ⟨?_, ?_, ?_, ?_⟩ <;> decide,
   by decide +kernel,
   by decide +kernel,
   by decide +kernel,
   by exact wUsers_cred rfl (by decide)⟩

theorem wit_deviceSelfTest : ∃ (tag : Fin 4096) (c : Cmd) (s : State),
    Ready .deviceSelfTest tag c s ∧
    c.cmd.cdw10 % 16 = 1 :=
  ⟨0,
   wC .deviceSelfTest 1 0,
   { wOn with hce := { wOn.hce with cmds := [wC .deviceSelfTest 1 0] } },
   by refine ⟨?_, ?_, ?_, ?_⟩ <;> decide,
   by decide +kernel⟩

theorem wit_nvmeMiSend : ∃ (tag : Fin 4096) (c : Cmd) (s : State),
    Ready .nvmeMiSend tag c s ∧
    bits c.cmd.cdw11 7 0 = 6 :=
  ⟨0,
   ({ wCmd with cmd := { wCmd.cmd with op := .nvmeMiSend, cdw11 := 6 * 2 ^ 0 } }),
   { wOn with hce := { wOn.hce with cmds := [({ wCmd with cmd := { wCmd.cmd with op := .nvmeMiSend, cdw11 := 6 * 2 ^ 0 } })] } },
   by refine ⟨?_, ?_, ?_, ?_⟩ <;> decide,
   by decide +kernel⟩

theorem wit_nvmeMiReceive : ∃ (tag : Fin 4096) (c : Cmd) (s : State),
    Ready .nvmeMiReceive tag c s ∧
    bits c.cmd.cdw11 7 0 = 4 :=
  ⟨0,
   ({ wCmd with cmd := { wCmd.cmd with op := .nvmeMiReceive, cdw11 := 4 * 2 ^ 0 } }),
   { wOn with hce := { wOn.hce with cmds := [({ wCmd with cmd := { wCmd.cmd with op := .nvmeMiReceive, cdw11 := 4 * 2 ^ 0 } })] } },
   by refine ⟨?_, ?_, ?_, ?_⟩ <;> decide,
   by decide +kernel⟩

theorem wit_readNvmeMiDataStructure : ∃ (port : Nat) (s : State),
    miUp s = true :=
  ⟨0,
   wOn,
   by decide +kernel⟩

theorem wit_nvmSubsystemHealthStatusPoll : ∃ (s : State),
    miUp s = true :=
  ⟨wOn,
   by decide +kernel⟩

theorem wit_controllerHealthStatusPoll : ∃ (c : Fin 2) (s : State),
    miUp s = true :=
  ⟨0,
   wOn,
   by decide +kernel⟩

theorem wit_configurationGet : ∃ (ident : Nat) (s : State),
    miUp s = true :=
  ⟨0,
   wOn,
   by decide +kernel⟩

theorem wit_configurationSet : ∃ (v : Nat) (s : State),
    miUp s = true ∧
    Rising s.hce.miCfg ∧
    v ≠ 0xFFFFFFFF :=
  ⟨0,
   wOn,
   by decide +kernel,
   by first | exact True.intro | (repeat first | exact True.intro | apply rising_setFld),
   by decide +kernel⟩

theorem wit_vpdRead : ∃ (off len : Nat) (s : State),
    miUp s = true :=
  ⟨0,
   0,
   wOn,
   by decide +kernel⟩

theorem wit_vpdWrite : ∃ (off : Nat) (b : Byte) (s : State),
    miUp s = true ∧
    Rising s.hce.vpd :=
  ⟨0,
   0,
   wOn,
   by decide +kernel,
   by first | exact True.intro | (repeat first | exact True.intro | apply rising_setFld)⟩

theorem wit_miReset : ∃ (s : State),
    miUp s = true ∧
    canReset s = true :=
  ⟨wOn,
   by decide +kernel,
   by decide +kernel⟩

theorem wit_basicManagementCommand : ∃ (s : State),
    pdOn 2 s = true :=
  ⟨wOn,
   by decide +kernel⟩

theorem wit_nsdomWrite : ∃ (m : Master) (k : Fin 64) (v : Word) (s : State),
    Reach .xmt 0 s ∧
    Rising s.regs ∧
    liveEntries k s = 0 :=
  ⟨.core (.a 0),
   0,
   (0 : Word),
   wOn,
   by refine ⟨?_, ?_, ?_⟩ <;> decide,
   by first | exact True.intro | (repeat first | exact True.intro | apply rising_setFld),
   by decide +kernel⟩

theorem wit_nsdomWriteRefused : ∃ (m : Master) (k : Fin 64) (v : Word) (s : State),
    Reach .xmt 0 s ∧
    EventRoom s ∧
    liveEntries k s ≠ 0 ∧
    windowOpen .xmt 0 s = true :=
  ⟨.core (.a 0),
   0,
   (0 : Word),
   { (openWindow .xmt 0 (wOn)) with lgr := { wOn.lgr with entries := [wEntry] } },
   by refine ⟨?_, ?_, ?_⟩ <;> decide,
   by unfold EventRoom; decide,
   by decide +kernel,
   by decide +kernel⟩

theorem wit_lgrWinGo : ∃ (m : Master) (v : Word) (e : LEntry) (s : State),
    Reach .lgr 0 s ∧
    s.lgr.entries.find? (·.idx == bits v.toNat 12 0) = some e :=
  ⟨.core (.a 0),
   (0 : Word),
   wEntry,
   { (wOn) with lgr := { wOn.lgr with entries := [wEntry] } },
   by refine ⟨?_, ?_, ?_⟩ <;> decide,
   by decide +kernel⟩

theorem wit_journalBlockDurable : ∃ (s : State),
    xmtUp s = true ∧
    s.hce.cmds = [] ∧
    s.lgr.entries = [] ∧
    s.xmt.ckPend = none ∧
    s.xmt.migs = [] ∧
    s.xmt.rewrites = [] ∧
    s.xmt.san = none ∧
    (s.xmt.journal.filter fun r => !r.durable).length ≤ 64 ∧
    (∀ r, (s.xmt.journal.filter fun r => !r.durable).getLast? = some r → r.last = true) :=
  ⟨{ ({ wOn with hce := { wOn.hce with cmds := [] }, lgr := { wOn.lgr with entries := [] }, xmt := { wOn.xmt with ckPend := none, migs := [], rewrites := [], san := none } }) with spn := { wOn.spn with state := .atSpeed }, rvr := { wOn.rvr with recStep := 6 } },
   by decide +kernel,
   by decide +kernel,
   by decide +kernel,
   by decide +kernel,
   by decide +kernel,
   by decide +kernel,
   by decide +kernel,
   by decide +kernel,
   by first | decide | decide +kernel | (intro _ h; nomatch h) | (intro c _; revert c; decide)⟩

theorem wit_checkpoint : ∃ (s : State),
    pdOn 10 s = true ∧
    mediaUp s = true ∧
    heldBlk .xmt 0 s = false :=
  ⟨{ wOn with spn := { wOn.spn with state := .atSpeed } },
   by decide +kernel,
   by decide +kernel,
   by decide +kernel⟩

theorem wit_migrationStart : ∃ (zone : Bool) (idx ch sl : Nat) (x : Nat × Nat × Nat) (s : State),
    pdOn 10 s = true ∧
    mediaUp s = true ∧
    heldBlk .xmt 0 s = false ∧
    s.lgr.frozen = false ∧
    ordAge s = false ∧
    s.lgr.entries.length < 8192 ∧
    s.xmt.san = none ∧
    migAt zone idx s = none ∧
    slotsFree zone ch sl s = true ∧
    bandRange zone idx s = some x :=
  ⟨false,
   0,
   0,
   5,
   (0, 0, 1024),
   { ({ wOn with spn := { wOn.spn with state := .atSpeed }, lgr := { wOn.lgr with frozen := false }, xmt := { wOn.xmt with san := none } }) with xmt := { wOn.xmt with extents := [{ idx := 0, v := true, dealloc := false, mig := false, ns := 0, seq := 0, ch := 0, sl := 0 }] } },
   by decide +kernel,
   by decide +kernel,
   by decide +kernel,
   by decide +kernel,
   by decide +kernel,
   by decide +kernel,
   by decide +kernel,
   by decide +kernel,
   by decide +kernel,
   by decide +kernel⟩

theorem wit_migrationCopyVerified : ∃ (zone : Bool) (idx : Nat) (lost : List Nat) (m : Mig) (r : LEntry) (s : State),
    migAt zone idx s = some m ∧
    entryAt m.ord s = some r ∧
    pdOn 10 s = true ∧
    mediaUp s = true ∧
    heldBlk .xmt 0 s = false ∧
    m.commitJ = none ∧
    selReady r.sel = true ∧
    selKeyWait r.ns r.sel s = false ∧
    migOrdered m r s = true ∧
    migHolds m s = true :=
  ⟨false,
   0,
   [],
   { wMig with seq := 1 },
   wEntry,
   { ({ wOn with spn := { wOn.spn with state := .atSpeed } }) with xmt := { wOn.xmt with migs := [({ wMig with seq := 1 })], extents := [{ idx := 0, v := true, dealloc := false, mig := true, ns := 0, seq := 1, ch := 0, sl := 0 }] }, lgr := { wOn.lgr with entries := [wEntry] } },
   by decide +kernel,
   by decide +kernel,
   by decide +kernel,
   by decide +kernel,
   by decide +kernel,
   by decide +kernel,
   by decide +kernel,
   by decide +kernel,
   by decide +kernel,
   by decide +kernel⟩

theorem wit_migrationCopyVoid : ∃ (zone : Bool) (idx : Nat) (lost : List Nat) (m : Mig) (r : LEntry) (s : State),
    migAt zone idx s = some m ∧
    entryAt m.ord s = some r ∧
    pdOn 10 s = true ∧
    mediaUp s = true ∧
    heldBlk .xmt 0 s = false ∧
    m.commitJ = none ∧
    selReady r.sel = true ∧
    selKeyWait r.ns r.sel s = false ∧
    migOrdered m r s = true ∧
    migHolds m s = false ∧
    EventRoom s :=
  ⟨false,
   0,
   [],
   { wMig with seq := 1 },
   wEntry,
   { ({ wOn with spn := { wOn.spn with state := .atSpeed } }) with xmt := { wOn.xmt with migs := [({ wMig with seq := 1 })], extents := [{ idx := 0, v := true, dealloc := false, mig := true, ns := 0, seq := 2, ch := 0, sl := 0 }] }, lgr := { wOn.lgr with entries := [wEntry] } },
   by decide +kernel,
   by decide +kernel,
   by decide +kernel,
   by decide +kernel,
   by decide +kernel,
   by decide +kernel,
   by decide +kernel,
   by decide +kernel,
   by decide +kernel,
   by decide +kernel,
   by unfold EventRoom; decide⟩

theorem wit_migFree : ∃ (zone : Bool) (idx : Nat) (m : Mig) (s : State),
    migAt zone idx s = some m ∧
    pdOn 10 s = true ∧
    heldBlk .xmt 0 s = false ∧
    m.committed = true ∧
    ((bandSlots m.zone m.oldCh m.oldSl).any fun x => slotPinned x s) = false :=
  ⟨false,
   0,
   { wMig with committed := true },
   { (wOn) with xmt := { wOn.xmt with migs := [({ wMig with committed := true })] } },
   by decide +kernel,
   by decide +kernel,
   by decide +kernel,
   by decide +kernel,
   by decide +kernel⟩

theorem wit_reservoirCommit : ∃ (m : Master) (s : State),
    Reach .rvr 0 s ∧
    lossContext s = false ∧
    s.rvr.commit = false ∧
    fld .rvrCfg 0 0 1 0 s ≠ 0 :=
  ⟨.core (.a 0),
   setFld .rvrCfg 0 0 1 0 1 ({ wOn with rvr := { wOn.rvr with commit := false } }),
   by refine ⟨?_, ?_, ?_⟩ <;> decide,
   by decide +kernel,
   by decide +kernel,
   by decide +kernel⟩

theorem wit_ledgerFreeze : ∃ (s : State),
    s.rvr.commit = true ∧
    s.rvr.inService = true ∧
    s.rvr.image = none ∧
    pdOn 10 s = true ∧
    heldBlk .rvr 0 s = false ∧
    (s.lgr.entries.any fun e => lkWrites e.kind && e.state == .pending) = false :=
  ⟨{ wOn with rvr := { wOn.rvr with commit := true, inService := true, image := none } },
   by decide +kernel,
   by decide +kernel,
   by decide +kernel,
   by decide +kernel,
   by decide +kernel,
   by decide +kernel⟩

theorem wit_commitRecordDurable : ∃ (g : Gen) (s : State),
    s.rvr.commit = true ∧
    s.rvr.image = some g ∧
    pdOn 10 s = true ∧
    heldBlk .rvr 0 s = false ∧
    s.sup.loss = false :=
  ⟨wGen,
   { wOn with rvr := { wOn.rvr with commit := true, image := some (wGen) }, sup := { wOn.sup with loss := false } },
   by decide +kernel,
   by decide +kernel,
   by decide +kernel,
   by decide +kernel,
   by decide +kernel⟩

theorem wit_reservoirReplay : ∃ (m : Master) (s : State),
    Reach .rvr 0 s ∧
    s.rvr.chosen.isSome = true ∧
    s.rvr.replay = false ∧
    (s.rvr.recStep = 2 ∨ s.rvr.recStep = 6) :=
  ⟨.core (.a 0),
   { wOn with rvr := { wOn.rvr with chosen := some 1, recStep := 6 } },
   by refine ⟨?_, ?_, ?_⟩ <;> decide,
   by decide +kernel,
   by decide +kernel,
   by decide +kernel⟩

theorem wit_replayDone : ∃ (g : Gen) (s : State),
    chosenGen s = some g ∧
    s.rvr.replay = true ∧
    pdOn 10 s = true ∧
    heldBlk .rvr 0 s = false ∧
    (g.writes.all fun w => !w.enc || s.sec.restored) = true :=
  ⟨{ wGen with held := true },
   { ({ wOn with rvr := { wOn.rvr with replay := true } }) with rvr := { (({ wOn with rvr := { wOn.rvr with replay := true } })).rvr with half := #v[some { wGen with held := true }, none], chosen := some 1, recStep := 4, replay := true } },
   by decide +kernel,
   by decide +kernel,
   by decide +kernel,
   by decide +kernel,
   by decide +kernel⟩

theorem wit_restartRecovery : ∃ (lastGood : Option Nat) (ckOk : Bool) (s : State),
    pdOn 10 s = true ∧
    s.sys.acoresUp = true ∧
    heldBlk .rvr 0 s = false ∧
    s.rvr.recStep = 0 ∧
    s.lgr.entries = [] ∧
    mediaUp s = true ∧
    heldBlk .xmt 0 s = false :=
  ⟨none,
   false,
   { wOn with sys := { wOn.sys with acoresUp := true }, rvr := { wOn.rvr with recStep := 0 }, lgr := { wOn.lgr with entries := [] }, spn := { wOn.spn with state := .atSpeed } },
   by decide +kernel,
   by decide +kernel,
   by decide +kernel,
   by decide +kernel,
   by decide +kernel,
   by decide +kernel,
   by decide +kernel⟩

theorem wit_taskCommit : ∃ (m : Master) (n : Fin 4) (s : State),
    Reach .asq n s ∧
    s.asq[n].pvalid = false :=
  ⟨.core (.a 0),
   0,
   State.modAsq 0 (fun x => { x with pvalid := false }) (wOn),
   by refine ⟨?_, ?_, ?_⟩ <;> decide,
   by decide +kernel⟩

theorem wit_taskCommitRefused : ∃ (m : Master) (n : Fin 4) (s : State),
    Reach .asq n s ∧
    s.asq[n].pvalid = true ∧
    EventRoom s :=
  ⟨.core (.a 0),
   0,
   State.modAsq 0 (fun x => { x with pvalid := true }) (wOn),
   by refine ⟨?_, ?_, ?_⟩ <;> decide,
   by decide +kernel,
   by unfold EventRoom; decide⟩

theorem wit_taskCancel : ∃ (m : Master) (n : Fin 4) (s : State),
    Reach .asq n s ∧
    promotable n s = false ∧
    s.asq[n].pvalid = true :=
  ⟨.core (.a 0),
   0,
   ((State.modAsq 0 (fun x => { x with pvalid := true }) (wOn))).modAsq 0 fun x => { x with avalid := true },
   by refine ⟨?_, ?_, ?_⟩ <;> decide,
   by decide +kernel,
   by decide +kernel⟩

theorem wit_taskPromotion : ∃ (n : Fin 4) (s : State),
    promotable n s = true ∧
    (dispAt (bits (vget s.asq[n].ptask 0 0).toNat 31 24) s).valid = true ∧
    bits (vget s.asq[n].ptask 8 0).toNat 31 31 = 0 :=
  ⟨0,
   { wOn.modAsq 0 fun x => { x with pvalid := true } with cst := { wOn.cst with disp := [{ k := 0, valid := true, opn := false, addr := 0x8000 }] } },
   by decide +kernel,
   by decide +kernel,
   by decide +kernel⟩

theorem wit_microwordIssue : ∃ (n : Fin 4) (a w : Nat) (s : State),
    asqLive n s = true ∧
    asqRuns s.asq[n] = true ∧
    s.asq[n].issued = false ∧
    boundary n s = s ∧
    fetchWord s.asq[n].pc s = some (a, w) ∧
    parityOf 128 w = false ∧
    inOpen a = false ∧
    bits (mwDpc w) 23 8 = 0 ∧
    dpcUnitgo (mwDpc w) = false ∧
    bits (mwDpc w) 31 24 = s.asq[n].levels :=
  ⟨0,
   0x8000,
   0,
   { ((State.modAsq 0 (fun x => { x with issued := false }) (wOn))).modAsq 0 fun x => { x with avalid := true, phase := .running, pc := 0x8000 } with cst := { wOn.cst with patch := [(0, 0)] } },
   by decide +kernel,
   by decide +kernel,
   by decide +kernel,
   by decide +kernel,
   by decide +kernel,
   by decide +kernel,
   by decide +kernel,
   by decide +kernel,
   by decide +kernel,
   by decide +kernel⟩

theorem wit_seqNext : ∃ (n : Fin 4) (s : State),
    SeqReady 0 n s ∧
    s.asq[n].pc ≠ 0x7FFF :=
  ⟨0,
   State.modAsq 0 (fun x => { x with avalid := true, phase := .running, issued := true, word := (0 * 2 ^ 125 : Nat), waitDone := true }) (wOn),
   by refine ⟨?_, ?_, ?_, ?_, ?_, ?_, ?_, ?_⟩ <;> decide,
   by decide +kernel⟩

theorem wit_seqNextOver : ∃ (n : Fin 4) (s : State),
    SeqReady 0 n s ∧
    s.asq[n].pc = 0x7FFF :=
  ⟨0,
   State.modAsq 0 (fun x => { x with avalid := true, phase := .running, issued := true, word := (0 * 2 ^ 125 : Nat), waitDone := true, pc := 0x7FFF }) (wOn),
   by refine ⟨?_, ?_, ?_, ?_, ?_, ?_, ?_, ?_⟩ <;> decide,
   by decide +kernel⟩

theorem wit_seqJump : ∃ (n : Fin 4) (s : State),
    SeqReady 1 n s ∧
    (s.asq[n].openX = false ∨ inOpen (mwTarget s.asq[n].word) = true) :=
  ⟨0,
   State.modAsq 0 (fun x => { x with avalid := true, phase := .running, issued := true, word := (1 * 2 ^ 125 : Nat), waitDone := true }) (wOn),
   by refine ⟨?_, ?_, ?_, ?_, ?_, ?_, ?_, ?_⟩ <;> decide,
   by decide +kernel⟩

theorem wit_seqCall : ∃ (n : Fin 4) (s : State),
    SeqReady 2 n s ∧
    s.asq[n].stack.length < 8 ∧
    s.asq[n].openX = false :=
  ⟨0,
   State.modAsq 0 (fun x => { x with avalid := true, phase := .running, issued := true, word := (2 * 2 ^ 125 : Nat), waitDone := true, openX := false }) (wOn),
   by refine ⟨?_, ?_, ?_, ?_, ?_, ?_, ?_, ?_⟩ <;> decide,
   by decide +kernel,
   by decide +kernel⟩

theorem wit_seqCallTooDeep : ∃ (n : Fin 4) (s : State),
    SeqReady 2 n s ∧
    8 ≤ s.asq[n].stack.length :=
  ⟨0,
   ((State.modAsq 0 (fun x => { x with avalid := true, phase := .running, issued := true, word := (2 * 2 ^ 125 : Nat), waitDone := true }) (wOn))).modAsq 0 fun x => { x with stack := [0, 0, 0, 0, 0, 0, 0, 0] },
   by refine ⟨?_, ?_, ?_, ?_, ?_, ?_, ?_, ?_⟩ <;> decide,
   by decide +kernel⟩

theorem wit_seqRet : ∃ (n : Fin 4) (a : Nat) (l : List Nat) (s : State),
    SeqReady 3 n s ∧
    s.asq[n].stack = a :: l ∧
    condition n (mwCond s.asq[n].word) (mwParam s.asq[n].word) (waited n s) = true :=
  ⟨0,
   0,
   [],
   State.modAsq 0 (fun x => { x with avalid := true, phase := .running, issued := true, word := (3 * 2 ^ 125 : Nat), waitDone := true, stack := (0) :: ([]) }) (wOn),
   by refine ⟨?_, ?_, ?_, ?_, ?_, ?_, ?_, ?_⟩ <;> decide,
   by decide +kernel,
   by decide +kernel⟩

theorem wit_seqRetEnds : ∃ (n : Fin 4) (s : State),
    SeqReady 3 n s ∧
    s.asq[n].stack = [] ∧
    mwWait s.asq[n].word ≠ 1 ∧
    condition n (mwCond s.asq[n].word) (mwParam s.asq[n].word) s = true :=
  ⟨0,
   State.modAsq 0 (fun x => { x with avalid := true, phase := .running, issued := true, word := (3 * 2 ^ 125 : Nat), waitDone := true, stack := [] }) (wOn),
   by refine ⟨?_, ?_, ?_, ?_, ?_, ?_, ?_, ?_⟩ <;> decide,
   by decide +kernel,
   by decide +kernel,
   by decide +kernel⟩

theorem wit_seqRetGoesOn : ∃ (n : Fin 4) (s : State),
    SeqReady 3 n s ∧
    condition n (mwCond s.asq[n].word) (mwParam s.asq[n].word) (waited n s) = false ∧
    s.asq[n].pc ≠ 0x7FFF :=
  ⟨0,
   ((State.modAsq 0 (fun x => { x with avalid := true, phase := .running, issued := true, word := (3 * 2 ^ 125 : Nat), waitDone := true }) (wOn))).modAsq 0 fun x => { x with word := 3 * 2 ^ 125 + 1 * 2 ^ 119, cnt0 := 1 },
   by refine ⟨?_, ?_, ?_, ?_, ?_, ?_, ?_, ?_⟩ <;> decide,
   by decide +kernel,
   by decide +kernel⟩

theorem wit_seqBrt : ∃ (n : Fin 4) (s : State),
    SeqReady 4 n s ∧
    s.asq[n].openX = false ∧
    s.asq[n].pc ≠ 0x7FFF :=
  ⟨0,
   State.modAsq 0 (fun x => { x with avalid := true, phase := .running, issued := true, word := (4 * 2 ^ 125 : Nat), waitDone := true, openX := false }) (wOn),
   by refine ⟨?_, ?_, ?_, ?_, ?_, ?_, ?_, ?_⟩ <;> decide,
   by decide +kernel,
   by decide +kernel⟩

theorem wit_seqBrf : ∃ (n : Fin 4) (s : State),
    SeqReady 5 n s ∧
    s.asq[n].openX = false ∧
    s.asq[n].pc ≠ 0x7FFF :=
  ⟨0,
   State.modAsq 0 (fun x => { x with avalid := true, phase := .running, issued := true, word := (5 * 2 ^ 125 : Nat), waitDone := true, openX := false }) (wOn),
   by refine ⟨?_, ?_, ?_, ?_, ?_, ?_, ?_, ?_⟩ <;> decide,
   by decide +kernel,
   by decide +kernel⟩

theorem wit_seqDispatch : ∃ (n : Fin 4) (k : Nat) (s : State),
    SeqReady 6 n s ∧
    s.asq[n].openX = false ∧
    k = (if (mwTarget s.asq[n].word).testBit 15 = true then bits (vget s.asq[n].atask 0 0).toNat 31 24 else bits (mwTarget s.asq[n].word) 7 0) ∧
    (dispAt k (waited n s)).valid = true :=
  ⟨0,
   0,
   { (State.modAsq 0 (fun x => { x with avalid := true, phase := .running, issued := true, word := (6 * 2 ^ 125 : Nat), waitDone := true, openX := false }) (wOn)) with cst := { wOn.cst with disp := [{ k := 0, valid := true, opn := false, addr := 0x8000 }] } },
   by refine ⟨?_, ?_, ?_, ?_, ?_, ?_, ?_, ?_⟩ <;> decide,
   by decide +kernel,
   by decide +kernel,
   by decide +kernel⟩

theorem wit_seqLoopEnds : ∃ (n : Fin 4) (s : State),
    SeqReady 7 n s ∧
    s.asq[n].cnt0 = 0 ∧
    s.asq[n].pc ≠ 0x7FFF :=
  ⟨0,
   State.modAsq 0 (fun x => { x with avalid := true, phase := .running, issued := true, word := (7 * 2 ^ 125 : Nat), waitDone := true, cnt0 := 0 }) (wOn),
   by refine ⟨?_, ?_, ?_, ?_, ?_, ?_, ?_, ?_⟩ <;> decide,
   by decide +kernel,
   by decide +kernel⟩

theorem wit_seqLoop : ∃ (n : Fin 4) (s : State),
    SeqReady 7 n s ∧
    s.asq[n].cnt0 ≠ 0 ∧
    s.asq[n].openX = false ∧
    mwCntop s.asq[n].word = 0 :=
  ⟨0,
   ((State.modAsq 0 (fun x => { x with avalid := true, phase := .running, issued := true, word := (7 * 2 ^ 125 : Nat), waitDone := true, openX := false }) (wOn))).modAsq 0 fun x => { x with cnt0 := 1 },
   by refine ⟨?_, ?_, ?_, ?_, ?_, ?_, ?_, ?_⟩ <;> decide,
   by decide +kernel,
   by decide +kernel,
   by decide +kernel⟩

theorem wit_faultRequest : ∃ (n : Fin 4) (cause : Nat) (s : State),
    asqLive n s = true ∧
    s.asq[n].avalid = true ∧
    s.asq[n].reqFault = false ∧
    isWaiting s.asq[n] = false :=
  ⟨0,
   0,
   State.modAsq 0 (fun x => { x with avalid := true, reqFault := false }) (wOn),
   by decide +kernel,
   by decide +kernel,
   by decide +kernel,
   by decide +kernel⟩

theorem wit_faultRequestWithoutTask : ∃ (n : Fin 4) (cause : Nat) (s : State),
    asqLive n s = true ∧
    s.asq[n].avalid = false ∧
    EventRoom s :=
  ⟨0,
   0,
   State.modAsq 0 (fun x => { x with avalid := false }) (wOn),
   by decide +kernel,
   by decide +kernel,
   by unfold EventRoom; decide⟩

theorem wit_waitTimeout : ∃ (n : Fin 4) (s : State),
    asqLive n s = true ∧
    s.asq[n].avalid = true ∧
    s.asq[n].phase = .running ∧
    s.asq[n].issued = true ∧
    2 ≤ mwWait s.asq[n].word ∧
    tmrNs (mwTmr s.asq[n].word) ≠ 0 ∧
    waitSat n s = false :=
  ⟨0,
   ((State.modAsq 0 (fun x => { x with avalid := true, phase := .running, issued := true }) (wOn))).modAsq 0 fun x => { x with word := 3 * 2 ^ 99 + 1 * 2 ^ 32 },
   by decide +kernel,
   by decide +kernel,
   by decide +kernel,
   by decide +kernel,
   by decide +kernel,
   by decide +kernel,
   by decide +kernel⟩

theorem wit_atomicBound : ∃ (n : Fin 4) (s : State),
    asqLive n s = true ∧
    asqRuns s.asq[n] = true ∧
    s.asq[n].inAtom = true ∧
    s.asq[n].atomOver = false :=
  ⟨0,
   ((State.modAsq 0 (fun x => { x with inAtom := true, atomOver := false }) (wOn))).modAsq 0 fun x => { x with avalid := true, phase := .running },
   by decide +kernel,
   by decide +kernel,
   by decide +kernel,
   by decide +kernel⟩

theorem wit_asqAbort : ∃ (m : Master) (n : Fin 4) (v : Word) (s : State),
    Reach .asq n s ∧
    promotable n s = false ∧
    s.asq[n].avalid = false ∧
    s.asq[n].pvalid = true ∧
    bits (vget s.asq[n].ptask 2 0).toNat 31 20 = bits v.toNat 11 0 :=
  ⟨.core (.a 0),
   0,
   (0 : Word),
   ((State.modAsq 0 (fun x => { x with avalid := false, pvalid := true }) (wOn))).modAsq 0 fun x => { x with actHold := true },
   by refine ⟨?_, ?_, ?_⟩ <;> decide,
   by decide +kernel,
   by decide +kernel,
   by decide +kernel,
   by decide +kernel⟩

theorem wit_taskDeadline : ∃ (n : Fin 4) (s : State),
    asqLive n s = true ∧
    s.asq[n].avalid = true ∧
    s.asq[n].dlPassed = false ∧
    isWaiting s.asq[n] = false :=
  ⟨0,
   State.modAsq 0 (fun x => { x with avalid := true, dlPassed := false }) (wOn),
   by decide +kernel,
   by decide +kernel,
   by decide +kernel,
   by decide +kernel⟩

theorem wit_resultPop : ∃ (m : Master) (n : Fin 4) (v : Word) (s : State),
    Reach .asq n s :=
  ⟨.core (.a 0),
   0,
   (0 : Word),
   wOn,
   by refine ⟨?_, ?_, ?_⟩ <;> decide⟩

theorem wit_microcodeActivate : ∃ (img : McObj) (s : State),
    secRuns s = true ∧
    s.sec.mbDone = true ∧
    s.cst.staged = none ∧
    s.cst.act = .idle ∧
    mcReason img s = 0 :=
  ⟨{ wMcObj with kind := 2, romVer := 0x0B00 },
   { { ({ wOn with sec := { wOn.sec with mbDone := true }, cst := { wOn.cst with staged := none, act := .idle } }) with cst := { (({ wOn with sec := { wOn.sec with mbDone := true }, cst := { wOn.cst with staged := none, act := .idle } })).cst with openEn := true } } with sec := { (({ wOn with sec := { wOn.sec with mbDone := true }, cst := { wOn.cst with staged := none, act := .idle } })).sec with okey := #v[some (7, false), none, none, none] } },
   by decide +kernel,
   by decide +kernel,
   by decide +kernel,
   by decide +kernel,
   by decide +kernel⟩

theorem wit_microcodeActivateRefused : ∃ (img : McObj) (s : State),
    secRuns s = true ∧
    s.sec.mbDone = true ∧
    s.cst.staged = none ∧
    mcReason img s ≠ 0 :=
  ⟨wMcObj,
   { wOn with sec := { wOn.sec with mbDone := true }, cst := { wOn.cst with staged := none } },
   by decide +kernel,
   by decide +kernel,
   by decide +kernel,
   by decide +kernel⟩

theorem wit_arm : ∃ (v : Word) (i : McImage) (s : State),
    Reach .cst 0 s ∧
    s.cst.staged = some i ∧
    s.cst.act = .idle :=
  ⟨(0 : Word),
   wMc,
   { wOn with cst := { wOn.cst with staged := some (wMc), act := .idle } },
   by refine ⟨?_, ?_, ?_⟩ <;> decide,
   by decide +kernel,
   by decide +kernel⟩

theorem wit_armWithNothingStaged : ∃ (v : Word) (s : State),
    Reach .cst 0 s ∧
    s.cst.staged = none :=
  ⟨(0 : Word),
   { wOn with cst := { wOn.cst with staged := none } },
   by refine ⟨?_, ?_, ?_⟩ <;> decide,
   by decide +kernel⟩

theorem wit_activationCopy : ∃ (i : McImage) (s : State),
    s.cst.staged = some i ∧
    s.cst.act = .armed ∧
    pdOn 13 s = true ∧
    heldBlk .cst 0 s = false ∧
    busyChannels s = [] ∧
    now s ≤ s.cst.armAt + holdMax s :=
  ⟨wMc,
   { wOn with cst := { wOn.cst with staged := some (wMc), act := .armed } },
   by decide +kernel,
   by decide +kernel,
   by decide +kernel,
   by decide +kernel,
   by decide +kernel,
   by decide +kernel⟩

theorem wit_activationAbandon : ∃ (i : McImage) (s : State),
    s.cst.staged = some i ∧
    s.cst.act = .armed ∧
    pdOn 13 s = true ∧
    heldBlk .cst 0 s = false ∧
    (busyChannels s ≠ [] ∨ s.cst.armAt + holdMax s < now s) :=
  ⟨wMc,
   (({ wOn with cst := { wOn.cst with staged := some (wMc), act := .armed } })).modAsq 0 fun x => { x with avalid := true },
   by decide +kernel,
   by decide +kernel,
   by decide +kernel,
   by decide +kernel,
   by decide +kernel⟩

theorem wit_openctlWrite : ∃ (v : Word) (s : State),
    Reach .cst 0 s :=
  ⟨(0 : Word),
   wOn,
   by refine ⟨?_, ?_, ?_⟩ <;> decide⟩

theorem wit_openctlWriteRefused : ∃ (m : Master) (v : Word) (s : State),
    Reach .cst 0 s ∧
    m ≠ .core .sec :=
  ⟨.core (.a 0),
   (0 : Word),
   wOn,
   by refine ⟨?_, ?_, ?_⟩ <;> decide,
   by decide +kernel⟩

theorem wit_readerCheck : ∃ (n : Fin 4) (open0 short0 open1 short1 : Bool) (s : State),
    rwcLive n s = true ∧
    s.asq[n].headChk = true :=
  ⟨0,
   false,
   false,
   false,
   false,
   State.modAsq 0 (fun x => { x with headChk := true }) (wOn),
   by decide +kernel,
   by decide +kernel⟩

theorem wit_clockField : ∃ (n : Fin 4) (meas : ClockMeas) (s : State),
    rwcLive n s = true ∧
    optical s = false :=
  ⟨0,
   wMeas,
   wOn,
   by decide +kernel,
   by decide +kernel⟩

theorem wit_syncADecision : ∃ (n : Fin 4) (cands : List SyncCand) (s : State),
    rwcLive n s = true :=
  ⟨0,
   [],
   wOn,
   by decide +kernel⟩

theorem wit_syncBDecision : ∃ (n : Fin 4) (cands : List SyncCand) (s : State),
    rwcLive n s = true ∧
    s.rwc[n].searching = true :=
  ⟨0,
   [],
   State.modRwc 0 (fun x => { x with searching := true }) (wOn),
   by decide +kernel,
   by decide +kernel⟩

theorem wit_blindFraming : ∃ (n : Fin 4) (d : Int) (w : Nat) (s : State),
    rwcLive n s = true ∧
    s.rwc[n].blindPend = true ∧
    -2 ≤ d ∧
    d ≤ 2 ∧
    w * 100 ≤ min 100 (fld .blindcfg n 0 6 0 s) * codeChecks n s :=
  ⟨0,
   0,
   0,
   State.modRwc 0 (fun x => { x with blindPend := true }) (wOn),
   by decide +kernel,
   by decide +kernel,
   by decide +kernel,
   by decide +kernel,
   by decide +kernel⟩

theorem wit_blindFramingFails : ∃ (n : Fin 4) (s : State),
    rwcLive n s = true ∧
    s.rwc[n].blindPend = true :=
  ⟨0,
   State.modRwc 0 (fun x => { x with blindPend := true }) (wOn),
   by decide +kernel,
   by decide +kernel⟩

theorem wit_defectSpan : ∃ (n : Fin 4) (asperity sat : Bool) (s : State),
    rwcLive n s = true ∧
    s.rwc[n].inDefect = false :=
  ⟨0,
   false,
   false,
   State.modRwc 0 (fun x => { x with inDefect := false }) (wOn),
   by decide +kernel,
   by decide +kernel⟩

theorem wit_loopLimit : ∃ (n : Fin 4) (loop : Fin 6) (s : State),
    rwcLive n s = true ∧
    s.rwc[n].loopen.testBit loop = true ∧
    loopsFrozen n s = false :=
  ⟨0,
   0,
   (((wOn)).modAsq 0 fun x => { x with levels := 8 }).modRwc 0 fun x => { x with loopen := 1 },
   by decide +kernel,
   by decide +kernel,
   by decide +kernel⟩

theorem wit_pmonSnap : ∃ (b : PmonBlock) (s : State),
    Reach (pmonBlk b).1 (pmonBlk b).2.1 s :=
  ⟨.ldp,
   wOn,
   by refine ⟨?_, ?_, ?_⟩ <;> decide⟩

theorem wit_pmonClr : ∃ (b : PmonBlock) (s : State),
    Reach (pmonBlk b).1 (pmonBlk b).2.1 s :=
  ⟨.ldp,
   wOn,
   by refine ⟨?_, ?_, ?_⟩ <;> decide⟩

theorem wit_codewordDecode : ∃ (i : Nat) (c : Codeword) (r : DecodeRes) (s : State),
    ldpLive s = true ∧
    s.ldp.active[i]? = some c ∧
    c.blk = none ∧
    c.frame = none ∧
    c.recov = false ∧
    r.iters ≤ c.limit ∧
    r.crcOk = true ∧
    tagGood c r = true ∧
    tornSector c s = false :=
  ⟨0,
   { wCw with blk := none, frame := none, recov := false },
   { wRes with crcOk := true },
   { (wOn) with ldp := { wOn.ldp with active := [({ wCw with blk := none, frame := none, recov := false })] } },
   by decide +kernel,
   by decide +kernel,
   by decide +kernel,
   by decide +kernel,
   by decide +kernel,
   by decide +kernel,
   by decide +kernel,
   by decide +kernel,
   by decide +kernel⟩

theorem wit_codewordDecodeSqueezed : ∃ (i : Nat) (c : Codeword) (r : DecodeRes) (s : State),
    ldpLive s = true ∧
    s.ldp.active[i]? = some c ∧
    c.squeezed = true ∧
    (c.limit < r.iters ∨ tornSector c s = true) :=
  ⟨0,
   { wCw with squeezed := true },
   { wRes with iters := 11 },
   { (wOn) with ldp := { wOn.ldp with active := [({ wCw with squeezed := true })] } },
   by decide +kernel,
   by decide +kernel,
   by decide +kernel,
   by decide +kernel⟩

theorem wit_squeezeRedecode : ∃ (c : Codeword) (rest : List Codeword) (r : DecodeRes) (s : State),
    s.ldp.waiting = c :: rest ∧
    ldpLive s = true ∧
    squeezeOn s = false ∧
    c.blk = none ∧
    c.frame = none ∧
    c.recov = false ∧
    r.iters ≤ fpIter s ∧
    r.crcOk = true ∧
    tagGood c r = true ∧
    tornSector c s = false :=
  ⟨{ wCw with blk := none, frame := none, recov := false },
   [],
   { wRes with crcOk := true },
   { wOn with ldp := { wOn.ldp with waiting := ({ wCw with blk := none, frame := none, recov := false }) :: ([]) } },
   by decide +kernel,
   by decide +kernel,
   by decide +kernel,
   by decide +kernel,
   by decide +kernel,
   by decide +kernel,
   by decide +kernel,
   by decide +kernel,
   by decide +kernel,
   by decide +kernel⟩

theorem wit_clusterDecode : ∃ (n : Fin 4) (addr : Nat) (cols : List (Nat × Nat)) (sectors : List SectorCheck) (s : State),
    ldpLive s = true ∧
    optical s = true ∧
    chanExists n s = true ∧
    (∃ x ∈ cols, 32 < 2 * x.1 + x.2) ∧
    (sectors.all fun x => x.crcOk && x.tagOk) = true ∧
    EventRoom s :=
  ⟨0,
   0,
   [(17, 0)],
   [],
   { wOn with sys := { wOn.sys with pers := .optical } },
   by decide +kernel,
   by decide +kernel,
   by decide +kernel,
   by decide +kernel,
   by decide +kernel,
   by unfold EventRoom; decide⟩

theorem wit_clusterDecodeGood : ∃ (n : Fin 4) (addr : Nat) (cols : List (Nat × Nat)) (sectors : List SectorCheck) (s : State),
    ldpLive s = true ∧
    optical s = true ∧
    chanExists n s = true ∧
    (∀ x ∈ cols, 2 * x.1 + x.2 ≤ 32) ∧
    (sectors.all fun x => x.crcOk && x.tagOk) = true :=
  ⟨0,
   0,
   [(16, 0)],
   [{ crcOk := true, tagOk := true, lba := 0 }],
   { wOn with sys := { wOn.sys with pers := .optical } },
   by decide +kernel,
   by decide +kernel,
   by decide +kernel,
   by first | decide | decide +kernel | (intro _ h; nomatch h) | (intro c _; revert c; decide),
   by decide +kernel⟩

theorem wit_retainedSlotFree : ∃ (m : Master) (v : Word) (s : State),
    Reach .ldp 0 s ∧
    v.toNat.testBit 31 = true ∧
    (s.ldp.retained.any (·.slot == bits v.toNat 7 0)) = true :=
  ⟨.core (.a 0),
   (2147483648 : Word),
   { (wOn) with ldp := { wOn.ldp with retained := [{ slot := 0, ch := 0, head := 0, track := 0, sector := 0 }] } },
   by refine ⟨?_, ?_, ?_⟩ <;> decide,
   by decide +kernel,
   by decide +kernel⟩

theorem wit_failurePop : ∃ (m : Master) (n : Fin 4) (v : Word) (s : State),
    Reach .ldp 0 s ∧
    v.toNat.testBit 0 = true :=
  ⟨.core (.a 0),
   0,
   (1 : Word),
   wOn,
   by refine ⟨?_, ?_, ?_⟩ <;> decide,
   by decide +kernel⟩

theorem wit_defectInsert : ∃ (m : Master) (surf : Fin 64) (s : State),
    Reach .tpe 0 s ∧
    s.tpe.dlBusy = false ∧
    (dlDir surf (dlView surf s)).valid = true ∧
    (dlDir surf (dlView surf s)).retired = false ∧
    dlList surf (dlView surf s) = [] ∧
    ((dlEntry s).pending = true ∨ trackBusy surf (dlEntry s).track s = false) :=
  ⟨.core (.a 0),
   0,
   wDl [] ({ wOn with tpe := { wOn.tpe with dlBusy := false } }),
   by refine ⟨?_, ?_, ?_⟩ <;> decide,
   by decide +kernel,
   by decide +kernel,
   by decide +kernel,
   by decide +kernel,
   by decide +kernel⟩

theorem wit_defectInsertHeld : ∃ (m : Master) (surf : Fin 64) (s : State),
    Reach .tpe 0 s ∧
    s.tpe.dlBusy = false ∧
    (dlEntry s).pending = false ∧
    trackBusy surf (dlEntry s).track s = true :=
  ⟨.core (.a 0),
   0,
   (wDl [] ({ wOn with tpe := { wOn.tpe with dlBusy := false } })).modAsq 0 fun x => { x with avalid := true },
   by refine ⟨?_, ?_, ?_⟩ <;> decide,
   by decide +kernel,
   by decide +kernel,
   by decide +kernel⟩

theorem wit_defectDelete : ∃ (m : Master) (surf : Fin 64) (s : State),
    Reach .tpe 0 s ∧
    s.tpe.dlBusy = false ∧
    dlEntry s ∈ dlList surf (dlView surf s) :=
  ⟨.core (.a 0),
   0,
   wDl [(0x100000008, 1)] ({ wOn with tpe := { wOn.tpe with dlBusy := false } }),
   by refine ⟨?_, ?_, ?_⟩ <;> decide,
   by decide +kernel,
   by decide +kernel⟩

theorem wit_defectDeleteMissing : ∃ (m : Master) (surf : Fin 64) (s : State),
    Reach .tpe 0 s ∧
    s.tpe.dlBusy = false ∧
    dlEntry s ∉ dlList surf (dlView surf s) :=
  ⟨.core (.a 0),
   0,
   wDl [] ({ wOn with tpe := { wOn.tpe with dlBusy := false } }),
   by refine ⟨?_, ?_, ?_⟩ <;> decide,
   by decide +kernel,
   by decide +kernel⟩

theorem wit_defectClearPending : ∃ (m : Master) (surf : Fin 64) (x : Defect) (s : State),
    Reach .tpe 0 s ∧
    s.tpe.dlBusy = false ∧
    x ∈ dlList surf (dlView surf s) ∧
    x.pending = true ∧
    x.track = (dlEntry s).track ∧
    (dlSpan (dlEntry s)).1 ≤ (dlSpan x).1 ∧
    (dlSpan x).2 ≤ (dlSpan (dlEntry s)).2 :=
  ⟨.core (.a 0),
   0,
   { grown := false, pending := true, trackDef := false, track := 0, sector := 0, len := 0 },
   wDl [(0x100000008, 1), (0x100000107, 0x40)] ({ wOn with tpe := { wOn.tpe with dlBusy := false } }),
   by refine ⟨?_, ?_, ?_⟩ <;> decide,
   by decide +kernel,
   by decide +kernel,
   by decide +kernel,
   by decide +kernel,
   by decide +kernel,
   by decide +kernel⟩

theorem wit_defectInsertRelease : ∃ (h : Nat) (d : Defect) (s : State),
    s.tpe.dlHeld = some (h, d) ∧
    pdOn 13 s = true ∧
    heldBlk .tpe 0 s = false ∧
    trackBusy h d.track s = false ∧
    (dlDir h (dlFetch h s)).valid = true ∧
    (dlDir h (dlFetch h s)).retired = false ∧
    dlList h (dlFetch h s) = [] :=
  ⟨0,
   wDefect,
   { (wDl [] ({ wOn with tpe := { wOn.tpe with dlHeld := some ((0), (wDefect)) } })) with tpe := { (({ wOn with tpe := { wOn.tpe with dlHeld := some ((0), (wDefect)) } })).tpe with dlHeld := some (0, wDefect) } },
   by decide +kernel,
   by decide +kernel,
   by decide +kernel,
   by decide +kernel,
   by decide +kernel,
   by decide +kernel,
   by decide +kernel⟩

theorem wit_defectInsertReleaseRetired : ∃ (h : Nat) (d : Defect) (s : State),
    s.tpe.dlHeld = some (h, d) ∧
    pdOn 13 s = true ∧
    heldBlk .tpe 0 s = false ∧
    trackBusy h d.track s = false ∧
    (dlDir h (dlFetch h s)).retired = true :=
  ⟨0,
   wDefect,
   setReg .dldir 0 0 0x1000000 ({ wOn with mem := [(0x100000005, 2)], tpe := { wOn.tpe with dlHeld := some (0, wDefect) } }),
   by decide +kernel,
   by decide +kernel,
   by decide +kernel,
   by decide +kernel,
   by decide +kernel⟩

theorem wit_sampleTrigger : ∃ (n : Fin 4) (inp : ServoIn) (s : State),
    sveLive n s = true ∧
    optical s = false ∧
    s.sve[sveOf n].run = false ∧
    s.sve[sveOf n].seeking = false ∧
    s.sve[sveOf n].seekPend = false ∧
    inp.late = 0 :=
  ⟨0,
   { wServo with late := 0 },
   State.modSve 0 (fun x => { x with run := false, seeking := false, seekPend := false }) (wOn),
   by decide +kernel,
   by decide +kernel,
   by decide +kernel,
   by decide +kernel,
   by decide +kernel,
   by decide +kernel⟩

theorem wit_syncTimeout : ∃ (n : Fin 4) (inp : ServoIn) (s : State),
    sveLive n s = true ∧
    optical s = false ∧
    s.sve[sveOf n].run = false ∧
    s.sve[sveOf n].seeking = false ∧
    s.sve[sveOf n].seekPend = false :=
  ⟨0,
   wServo,
   State.modSve 0 (fun x => { x with run := false, seeking := false, seekPend := false }) (wOn),
   by decide +kernel,
   by decide +kernel,
   by decide +kernel,
   by decide +kernel,
   by decide +kernel⟩

theorem wit_tableSwapGo : ∃ (m : Master) (n : Fin 5) (s : State),
    Reach .sve n s ∧
    s.sve[n].pend = false ∧
    checkTable s.sve[n].shadow (fld .sveCfg n 0 15 0 s) = none :=
  ⟨.core (.a 0),
   0,
   setFld .sveCfg 0 0 15 0 1000 (((State.modSve 0 (fun x => { x with pend := false }) (wOn))).modSve 0 fun x => { x with shadow := wTable }),
   by refine ⟨?_, ?_, ?_⟩ <;> decide,
   by decide +kernel,
   by decide +kernel⟩

theorem wit_tableSwapGoRefused : ∃ (m : Master) (n : Fin 5) (r row : Nat) (s : State),
    Reach .sve n s ∧
    s.sve[n].pend = false ∧
    EventRoom s ∧
    checkTable s.sve[n].shadow (fld .sveCfg n 0 15 0 s) = some (r, some row) :=
  ⟨.core (.a 0),
   0,
   1,
   0,
   ((State.modSve 0 (fun x => { x with pend := false }) (wOn))).modSve 0 fun x => { x with shadow := { rows := [(0, 1)] } },
   by refine ⟨?_, ?_, ?_⟩ <;> decide,
   by decide +kernel,
   by unfold EventRoom; decide,
   by decide +kernel⟩

theorem wit_tableSwap : ∃ (n : Fin 5) (s : State),
    s.sve[n].pend = true ∧
    heldBlk .sve n s = false ∧
    s.sve[n].run = false ∧
    s.sve[n].unitPend = none ∧
    s.sve[n].mailPend = false :=
  ⟨0,
   State.modSve 0 (fun x => { x with pend := true, run := false, unitPend := none, mailPend := false }) (wOn),
   by decide +kernel,
   by decide +kernel,
   by decide +kernel,
   by decide +kernel,
   by decide +kernel⟩

theorem wit_mailCommit : ∃ (m : Master) (n : Fin 5) (s : State),
    Reach .sve n s :=
  ⟨.core (.a 0),
   0,
   wOn,
   by refine ⟨?_, ?_, ?_⟩ <;> decide⟩

theorem wit_engineRun : ∃ (m : Master) (n : Fin 5) (v : Word) (s : State),
    Reach .sve n s ∧
    v.toNat.testBit 31 = true ∧
    s.sve[n].swapped = true ∧
    s.sve[n].retract = false ∧
    s.sve[n].run = false :=
  ⟨.core (.a 0),
   0,
   (2147483648 : Word),
   State.modSve 0 (fun x => { x with swapped := true, retract := false, run := false }) (wOn),
   by refine ⟨?_, ?_, ?_⟩ <;> decide,
   by decide +kernel,
   by decide +kernel,
   by decide +kernel,
   by decide +kernel⟩

theorem wit_engineRunRefused : ∃ (m : Master) (n : Fin 5) (v : Word) (s : State),
    Reach .sve n s ∧
    v.toNat.testBit 31 = true ∧
    (s.sve[n].swapped = false ∨ s.sve[n].retract = true) :=
  ⟨.core (.a 0),
   0,
   (2147483648 : Word),
   wOn,
   by refine ⟨?_, ?_, ?_⟩ <;> decide,
   by decide +kernel,
   by decide +kernel⟩

theorem wit_engineStop : ∃ (m : Master) (n : Fin 5) (v : Word) (s : State),
    Reach .sve n s ∧
    v.toNat.testBit 31 = false ∧
    s.sve[n].run = true ∧
    s.sve[n].loaded = false :=
  ⟨.core (.a 0),
   0,
   (0 : Word),
   State.modSve 0 (fun x => { x with run := true, loaded := false }) (wOn),
   by refine ⟨?_, ?_, ?_⟩ <;> decide,
   by decide +kernel,
   by decide +kernel,
   by decide +kernel⟩

theorem wit_seekTimeout : ∃ (n : Fin 4) (s : State),
    s.sve[sveOf n].seeking = true ∧
    s.sve[sveOf n].move = .none :=
  ⟨0,
   State.modSve 0 (fun x => { x with seeking := true, move := .none }) (wOn),
   by decide +kernel,
   by decide +kernel⟩

theorem wit_shockConversion : ∃ (n : Fin 4) (axis : Fin 2) (val : Int) (s : State),
    sveLive n s = true ∧
    optical s = false ∧
    s.sve[sveOf n].shockIgn[axis] = false ∧
    val.natAbs ≤ fld .shock n 0 31 16 s :=
  ⟨0,
   0,
   0,
   wOn,
   by decide +kernel,
   by decide +kernel,
   by decide +kernel,
   by decide +kernel⟩

theorem wit_shockSensorFault : ∃ (n : Fin 4) (axis : Fin 2) (s : State),
    sveLive n s = true ∧
    optical s = false ∧
    s.sve[sveOf n].shockIgn[axis] = false ∧
    EventRoom s :=
  ⟨0,
   0,
   wOn,
   by decide +kernel,
   by decide +kernel,
   by decide +kernel,
   by unfold EventRoom; decide⟩

theorem wit_cdaShort : ∃ (n k : Fin 4) (s : State),
    chanExists n s = true ∧
    chanOn n s = true ∧
    s.sve[sveOf n].cdaFault.contains k.val = false ∧
    2 ≤ k.val :=
  ⟨0,
   2,
   wOn,
   by decide +kernel,
   by decide +kernel,
   by decide +kernel,
   by decide +kernel⟩

theorem wit_retractGo : ∃ (m : Master) (n : Fin 4) (s : State),
    Reach .sve n s ∧
    s.sve[sveOf n].retract = false :=
  ⟨.core (.a 0),
   0,
   State.modSve 0 (fun x => { x with retract := false }) (wOn),
   by refine ⟨?_, ?_, ?_⟩ <;> decide,
   by decide +kernel⟩

theorem wit_retractEnd : ∃ (n : Fin 4) (s : State),
    s.sve[sveOf n].retract = true ∧
    s.sup.loss = false :=
  ⟨0,
   State.modSve 0 (fun x => { x with retract := true }) ({ wOn with sup := { wOn.sup with loss := false } }),
   by decide +kernel,
   by decide +kernel⟩

theorem wit_focusLost : ∃ (n : Fin 4) (s : State),
    s.sve[sveOf n].hold = true :=
  ⟨0,
   State.modSve 0 (fun x => { x with hold := true }) (wOn),
   by decide +kernel⟩

theorem wit_jumpGo : ∃ (m : Master) (n : Fin 4) (v : Word) (s : State),
    Reach .sve n s ∧
    optical s = true ∧
    s.sve[sveOf n].retract = false ∧
    s.sve[sveOf n].move = .none :=
  ⟨.core (.a 0),
   0,
   (0 : Word),
   State.modSve 0 (fun x => { x with retract := false, move := .none }) ({ wOn with sys := { wOn.sys with pers := .optical } }),
   by refine ⟨?_, ?_, ?_⟩ <;> decide,
   by decide +kernel,
   by decide +kernel,
   by decide +kernel⟩

theorem wit_focusSweepGo : ∃ (m : Master) (n : Fin 4) (v : Word) (s : State),
    Reach .sve n s ∧
    optical s = true ∧
    s.sve[sveOf n].retract = false :=
  ⟨.core (.a 0),
   0,
   (0 : Word),
   State.modSve 0 (fun x => { x with retract := false }) ({ wOn with sys := { wOn.sys with pers := .optical } }),
   by refine ⟨?_, ?_, ?_⟩ <;> decide,
   by decide +kernel,
   by decide +kernel⟩

theorem wit_traceStart : ∃ (m : Master) (n : Fin 5) (v : Word) (s : State),
    Reach .sve n s ∧
    v.toNat.testBit 30 = false :=
  ⟨.core (.a 0),
   0,
   (0 : Word),
   wOn,
   by refine ⟨?_, ?_, ?_⟩ <;> decide,
   by decide +kernel⟩

theorem wit_traceStop : ∃ (m : Master) (n : Fin 5) (v : Word) (s u : State),
    Reach .sve n s ∧
    v.toNat.testBit 31 = false ∧
    s.sve[n].trRun = true ∧
    s.sve[n].trTrig = false ∧
    u = storeFields .trctl n 0 (v.toNat ||| 2 ^ 30) s ∧
    fld .trctl n 0 29 28 u ≠ 0 :=
  ⟨.core (.a 0),
   0,
   0x10000000,
   setFld .trctl 0 0 29 28 1 (State.modSve 0 (fun x => { x with trRun := true, trTrig := false }) (wOn)),
   storeFields .trctl 0 0 ((0x10000000 : Word).toNat ||| 2 ^ 30) (setFld .trctl 0 0 29 28 1 (State.modSve 0 (fun x => { x with trRun := true, trTrig := false }) (wOn))),
   by refine ⟨?_, ?_, ?_⟩ <;> decide,
   by decide +kernel,
   by decide +kernel,
   by decide +kernel,
   by exact rfl,
   by decide +kernel⟩

theorem wit_traceRead : ∃ (m : Master) (n : Fin 5) (s : State),
    Reach .sve n s :=
  ⟨.core (.a 0),
   0,
   wOn,
   by refine ⟨?_, ?_, ?_⟩ <;> decide⟩

theorem wit_start : ∃ (m : Master) (s : State),
    Reach .spn 0 s ∧
    startReason s = 0 ∧
    s.clk.xo40failed = false ∧
    s.spn.turning = false ∧
    EventRoom s :=
  ⟨.core (.a 0),
   { setFld .spnLeave 0 0 31 31 1 (((({ wOn with clk := { wOn.clk with xo40failed := false }, spn := { wOn.spn with turning := false } })).modSve 4 fun x => { x with run := true }).modLlt fun x => { x with tickets := [{ wTicket with cls := 0 }] }) with spn := { wOn.spn with state := .stopped, vin := 12000, vmot := 12000 } },
   by refine ⟨?_, ?_, ?_⟩ <;> decide,
   by decide +kernel,
   by decide +kernel,
   by decide +kernel,
   by unfold EventRoom; decide⟩

theorem wit_startTurning : ∃ (m : Master) (s : State),
    Reach .spn 0 s ∧
    startReason s = 0 ∧
    s.clk.xo40failed = false ∧
    s.spn.turning = true :=
  ⟨.core (.a 0),
   { setFld .spnLeave 0 0 31 31 1 (((({ wOn with clk := { wOn.clk with xo40failed := false }, spn := { wOn.spn with turning := true } })).modSve 4 fun x => { x with run := true }).modLlt fun x => { x with tickets := [{ wTicket with cls := 0 }] }) with spn := { wOn.spn with state := .stopped, vin := 12000, vmot := 12000, turning := true } },
   by refine ⟨?_, ?_, ?_⟩ <;> decide,
   by decide +kernel,
   by decide +kernel,
   by decide +kernel⟩

theorem wit_startRefused : ∃ (m : Master) (s : State),
    Reach .spn 0 s ∧
    startReason s ≠ 0 ∧
    EventRoom s :=
  ⟨.core (.a 0),
   wOn,
   by refine ⟨?_, ?_, ?_⟩ <;> decide,
   by decide +kernel,
   by unfold EventRoom; decide⟩

theorem wit_brake : ∃ (m : Master) (s : State),
    Reach .spn 0 s ∧
    s.spn.state = .atSpeed ∧
    s.spn.brk = none :=
  ⟨.core (.a 0),
   { wOn with spn := { wOn.spn with state := .atSpeed, brk := none } },
   by refine ⟨?_, ?_, ?_⟩ <;> decide,
   by decide +kernel,
   by decide +kernel⟩

theorem wit_brakeEntry : ∃ (s : State),
    spnLive s = true ∧
    anyLoaded s = false ∧
    s.spn.brk = some .unload ∧
    EventRoom s :=
  ⟨{ wOn with spn := { wOn.spn with brk := some .unload } },
   by decide +kernel,
   by decide +kernel,
   by decide +kernel,
   by unfold EventRoom; decide⟩

theorem wit_coast : ∃ (m : Master) (s : State),
    Reach .spn 0 s ∧
    s.spn.state = .atSpeed ∧
    EventRoom s :=
  ⟨.core (.a 0),
   { wOn with spn := { wOn.spn with state := .atSpeed } },
   by refine ⟨?_, ?_, ?_⟩ <;> decide,
   by decide +kernel,
   by unfold EventRoom; decide⟩

theorem wit_clrf : ∃ (m : Master) (s : State),
    Reach .spn 0 s ∧
    s.spn.state = .faulted ∧
    s.spn.turning = false :=
  ⟨.core (.a 0),
   { wOn with spn := { wOn.spn with state := .faulted, turning := false } },
   by refine ⟨?_, ?_, ?_⟩ <;> decide,
   by decide +kernel,
   by decide +kernel⟩

theorem wit_alignDone : ∃ (s : State),
    spnLive s = true ∧
    s.spn.state = .align :=
  ⟨{ wOn with spn := { wOn.spn with state := .align } },
   by decide +kernel,
   by decide +kernel⟩

theorem wit_spinupAttemptTimeout : ∃ (s : State),
    spnLive s = true ∧
    s.spn.state = .openLoop :=
  ⟨{ wOn with spn := { wOn.spn with state := .openLoop } },
   by decide +kernel,
   by decide +kernel⟩

theorem wit_pwmCentre : ∃ (iu iv : Int) (vmot : Nat) (s : State),
    spnLive s = true ∧
    s.spn.duty = 0 ∧
    s.spn.shift = false :=
  ⟨0,
   0,
   0,
   { wOn with spn := { wOn.spn with duty := 0, shift := false } },
   by decide +kernel,
   by decide +kernel,
   by decide +kernel⟩

theorem wit_bemfCrossing : ∃ (period : Nat) (s : State),
    spnLive s = true ∧
    s.spn.turning = true ∧
    s.spn.state = .openLoop ∧
    s.spn.period = 0xFFFFFF :=
  ⟨0,
   { wOn with spn := { wOn.spn with turning := true, state := .openLoop, period := 0xFFFFFF } },
   by decide +kernel,
   by decide +kernel,
   by decide +kernel,
   by decide +kernel⟩

theorem wit_commutation : ∃ (s : State),
    spnLive s = true ∧
    s.spn.state = .atSpeed ∧
    spnDriving s = true :=
  ⟨{ wOn with spn := { wOn.spn with state := .atSpeed } },
   by decide +kernel,
   by decide +kernel,
   by decide +kernel⟩

theorem wit_floatPeriodEnd : ∃ (k : Fin 6) (period : Nat) (s : State),
    spnLive s = true ∧
    s.spn.state = .rectify ∧
    s.spn.gates = 0 ∧
    s.spn.unlReq = true :=
  ⟨0,
   0,
   { wOn with spn := { wOn.spn with state := .rectify, gates := 0, unlReq := true } },
   by decide +kernel,
   by decide +kernel,
   by decide +kernel,
   by decide +kernel⟩

theorem wit_recoveryTimeout : ∃ (s : State),
    spnLive s = true ∧
    s.spn.brk = none ∧
    s.spn.state = .recover ∧
    dirtySectors s = false :=
  ⟨{ wOn with spn := { wOn.spn with brk := none, state := .recover } },
   by decide +kernel,
   by decide +kernel,
   by decide +kernel,
   by decide +kernel⟩

theorem wit_chopperFault : ∃ (mv : Nat) (s : State),
    spnLive s = true ∧
    s.spn.chopOn = true ∧
    s.spn.chopFlt = false ∧
    s.spn.state ≠ .brake ∧
    EventRoom s :=
  ⟨0,
   { wOn with spn := { wOn.spn with chopOn := true, chopFlt := false } },
   by decide +kernel,
   by decide +kernel,
   by decide +kernel,
   by decide +kernel,
   by unfold EventRoom; decide⟩

theorem wit_chopperConducting : ∃ (cur : Nat) (s : State),
    spnLive s = true ∧
    s.spn.chopOn = false ∧
    fld .brkcfg 0 0 23 16 s < cur ∧
    EventRoom s :=
  ⟨1000,
   { wOn with spn := { wOn.spn with chopOn := false } },
   by decide +kernel,
   by decide +kernel,
   by decide +kernel,
   by unfold EventRoom; decide⟩

theorem wit_railOvervoltage : ∃ (mv : Nat) (s : State),
    s.sys.aux = true ∧
    pdOn 13 s = true ∧
    16000 ≤ mv ∧
    EventRoom s :=
  ⟨16000,
   { wOn with sys := { wOn.sys with aux := true } },
   by decide +kernel,
   by decide +kernel,
   by decide +kernel,
   by unfold EventRoom; decide⟩

theorem wit_railOvervoltageGated : ∃ (mv : Nat) (s : State),
    s.sys.aux = true ∧
    pdOn 13 s = false ∧
    16000 ≤ mv ∧
    EventRoom s :=
  ⟨16000,
   { wOff 13 with sys := { wOn.sys with aux := true } },
   by decide +kernel,
   by decide +kernel,
   by decide +kernel,
   by unfold EventRoom; decide⟩

theorem wit_spnFltNLow : ∃ (s : State),
    pdOn 13 s = true :=
  ⟨wOn,
   by decide +kernel⟩

theorem wit_phaseOpen : ∃ (ph : Fin 3) (s : State),
    spnLive s = true ∧
    s.spn.state = .atSpeed ∧
    spnDriving s = true :=
  ⟨0,
   { wOn with spn := { wOn.spn with state := .atSpeed } },
   by decide +kernel,
   by decide +kernel,
   by decide +kernel⟩

theorem wit_phaseOpenInSpinup : ∃ (ph : Fin 3) (s : State),
    spnLive s = true ∧
    s.spn.state = .openLoop ∧
    spnDriving s = true :=
  ⟨0,
   { wOn with spn := { wOn.spn with state := .openLoop } },
   by decide +kernel,
   by decide +kernel,
   by decide +kernel⟩

theorem wit_supplyReversed : ∃ (mv : Int) (s : State),
    mv < -1600 ∧
    EventRoom s :=
  ⟨-2000,
   wOn,
   by decide +kernel,
   by unfold EventRoom; decide⟩

theorem wit_spindleStopped : ∃ (s : State),
    spnLive s = true ∧
    s.spn.state = .brake ∧
    s.spn.brk = some .short ∧
    EventRoom s :=
  ⟨{ wOn with spn := { wOn.spn with state := .brake, brk := some .short } },
   by decide +kernel,
   by decide +kernel,
   by decide +kernel,
   by unfold EventRoom; decide⟩

theorem wit_rectifyExit : ∃ (s : State),
    spnLive s = true ∧
    s.spn.state = .rectify ∧
    s.rvr.commit = false ∧
    anyLoaded s = false :=
  ⟨{ wOn with spn := { wOn.spn with state := .rectify }, rvr := { wOn.rvr with commit := false } },
   by decide +kernel,
   by decide +kernel,
   by decide +kernel,
   by decide +kernel⟩

theorem wit_preampFault : ∃ (n : Fin 4) (s : State),
    chanExists n s = true ∧
    pdOn 13 s = true :=
  ⟨0,
   wOn,
   by decide +kernel,
   by decide +kernel⟩

theorem wit_psiFrameDone : ∃ (n : Fin 4) (ack : BitVec 2) (data : BitVec 16) (f : Frame) (s : State),
    s.psi[n].cur = some f ∧
    chanExists n s = true ∧
    pdOn 13 s = true ∧
    heldBlk .psi 0 s = false ∧
    f.use = .firmware ∧
    f.write = false :=
  ⟨0,
   0,
   0,
   { wFr with use := .firmware, write := false },
   State.modPsi 0 (fun x => { x with cur := some ({ wFr with use := .firmware, write := false }) }) (wOn),
   by decide +kernel,
   by decide +kernel,
   by decide +kernel,
   by decide +kernel,
   by decide +kernel,
   by decide +kernel⟩

theorem wit_psiFrameNotAcknowledged : ∃ (n : Fin 4) (ack : BitVec 2) (data : BitVec 16) (f : Frame) (s : State),
    s.psi[n].cur = some f ∧
    chanExists n s = true ∧
    pdOn 13 s = true ∧
    heldBlk .psi 0 s = false ∧
    ack ≠ 2 ∧
    f.use = .mode ∧
    EventRoom s :=
  ⟨0,
   0,
   0,
   { wFr with use := .mode },
   State.modPsi 0 (fun x => { x with cur := some ({ wFr with use := .mode }) }) (wOn),
   by decide +kernel,
   by decide +kernel,
   by decide +kernel,
   by decide +kernel,
   by decide +kernel,
   by decide +kernel,
   by unfold EventRoom; decide⟩

theorem wit_psiFwcmdGo : ∃ (m : Master) (n : Fin 4) (v : Word) (s : State),
    Reach .psi 0 s ∧
    s.psi[n].fwBusy = false ∧
    s.psi[n].cur = none :=
  ⟨.core (.a 0),
   0,
   (0 : Word),
   State.modPsi 0 (fun x => { x with fwBusy := false, cur := none }) (wOn),
   by refine ⟨?_, ?_, ?_⟩ <;> decide,
   by decide +kernel,
   by decide +kernel⟩

theorem wit_laserMonitorRead : ∃ (n : Fin 4) (reading : BitVec 16) (e : PowEntry) (s : State),
    chanExists n s = true ∧
    pdOn 13 s = true ∧
    heldBlk .lsr 0 s = false ∧
    s.lsr.ch[n].level = .preheat ∧
    s.lsr.ch[n].entry = some e ∧
    inWindow reading.toNat (if s.rwc[n].lg = true then e.monwr else e.monph) e.win = true :=
  ⟨0,
   1,
   wPow,
   State.modLaser 0 (fun x => { x with level := .preheat, entry := some (wPow) }) (wOn),
   by decide +kernel,
   by decide +kernel,
   by decide +kernel,
   by decide +kernel,
   by decide +kernel,
   by decide +kernel⟩

theorem wit_lsrClrf : ∃ (m : Master) (n : Fin 4) (v : Word) (s : State),
    Reach .lsr 0 s ∧
    v.toNat.testBit n.val = true :=
  ⟨.core (.a 0),
   0,
   1,
   wOn,
   by refine ⟨?_, ?_, ?_⟩ <;> decide,
   by decide +kernel⟩

theorem wit_addressUnit : ∃ (n : Fin 4) (off : Int) (w : BitVec 48) (meas : ClockMeas) (s : State),
    optLive n s = true ∧
    addrAccepted n off w.toNat s = true ∧
    s.opt.pu[n].seek = false ∧
    s.opt.pu[n].capturing = false :=
  ⟨0,
   0,
   0,
   wMeas,
   State.modPu 0 (fun x => { x with seek := false, capturing := false }) ({ wOn with sys := { wOn.sys with pers := .optical } }),
   by decide +kernel,
   by decide +kernel,
   by decide +kernel,
   by decide +kernel⟩

theorem wit_addressUnitMissed : ∃ (n : Fin 4) (off : Int) (w : BitVec 48) (meas : ClockMeas) (s : State),
    optLive n s = true ∧
    addrAccepted n off w.toNat s = false ∧
    s.opt.pu[n].seek = false :=
  ⟨0,
   3,
   0,
   wMeas,
   State.modPu 0 (fun x => { x with seek := false }) ({ wOn with sys := { wOn.sys with pers := .optical } }),
   by decide +kernel,
   by decide +kernel,
   by decide +kernel⟩

theorem wit_optFmtWrite : ∃ (m : Master) (v : Word) (s : State),
    Reach .opt 0 s ∧
    Rising s.regs ∧
    32 ≤ bits v.toNat 28 19 ∧
    bits v.toNat 28 19 ≤ 512 ∧
    128 ≤ bits v.toNat 18 8 ∧
    bits v.toNat 18 8 ≤ 1024 :=
  ⟨.core (.a 0),
   0x01008000,
   wOn,
   by refine ⟨?_, ?_, ?_⟩ <;> decide,
   by first | exact True.intro | (repeat first | exact True.intro | apply rising_setFld),
   by decide +kernel,
   by decide +kernel,
   by decide +kernel,
   by decide +kernel⟩

theorem wit_optFmtWriteRefused : ∃ (m : Master) (v : Word) (s : State),
    Reach .opt 0 s ∧
    EventRoom s ∧
    (bits v.toNat 28 19 < 32 ∨ 512 < bits v.toNat 28 19 ∨ bits v.toNat 18 8 < 128 ∨ 1024 < bits v.toNat 18 8) :=
  ⟨.core (.a 0),
   (0 : Word),
   wOn,
   by refine ⟨?_, ?_, ?_⟩ <;> decide,
   by unfold EventRoom; decide,
   by decide +kernel⟩

theorem wit_saDelayEnd : ∃ (n : Fin 4) (s : State),
    optLive n s = true ∧
    s.opt.pu[n].seek = true ∧
    s.opt.pu[n].sphase = .layer ∧
    s.opt.pu[n].await = false ∧
    s.sve[sveOf n].move = .none :=
  ⟨0,
   State.modSve 0 (fun x => { x with move := .none }) (State.modPu 0 (fun x => { x with seek := true, sphase := .layer, await := false }) ({ wOn with sys := { wOn.sys with pers := .optical } })),
   by decide +kernel,
   by decide +kernel,
   by decide +kernel,
   by decide +kernel,
   by decide +kernel⟩

theorem wit_sledMoveEnd : ∃ (n : Fin 4) (s : State),
    optLive n s = true ∧
    s.opt.pu[n].seek = true ∧
    s.opt.pu[n].sphase = .sled ∧
    s.opt.pu[n].await = false :=
  ⟨0,
   State.modPu 0 (fun x => { x with seek := true, sphase := .sled, await := false }) ({ wOn with sys := { wOn.sys with pers := .optical } }),
   by decide +kernel,
   by decide +kernel,
   by decide +kernel,
   by decide +kernel⟩

theorem wit_ddrRead : ∃ (m : Master) (a : BitVec 40) (s : State),
    inDdr (a.toNat / 8 * 8) s = true ∧
    pdOn 12 s = true ∧
    accessWaits (a.toNat / 8 * 8) s = false ∧
    pastL1 m (a.toNat / 8 * 8) s = true ∧
    bccPass s = true ∧
    halfPoisoned (a.toNat / 8 * 8 - ddrBase) s = false :=
  ⟨.core (.a 0),
   0x100000000,
   wOn,
   by decide +kernel,
   by decide +kernel,
   by decide +kernel,
   by decide +kernel,
   by decide +kernel,
   by decide +kernel⟩

theorem wit_ddrReadCorrected : ∃ (m : Master) (a : BitVec 40) (dev : Nat) (s : State),
    inDdr (a.toNat / 8 * 8) s = true ∧
    pdOn 12 s = true ∧
    accessWaits (a.toNat / 8 * 8) s = false ∧
    pastL1 m (a.toNat / 8 * 8) s = true ∧
    bccPass s = true ∧
    halfPoisoned (a.toNat / 8 * 8 - ddrBase) s = false ∧
    codeOf (a.toNat / 8 * 8 - ddrBase) s < 2 :=
  ⟨.core (.a 0),
   0x100000000,
   0,
   wOn,
   by decide +kernel,
   by decide +kernel,
   by decide +kernel,
   by decide +kernel,
   by decide +kernel,
   by decide +kernel,
   by decide +kernel⟩

theorem wit_ddrReadFailed : ∃ (m : Master) (a : BitVec 40) (dev : Nat) (s : State),
    inDdr (a.toNat / 8 * 8) s = true ∧
    pdOn 12 s = true ∧
    accessWaits (a.toNat / 8 * 8) s = false ∧
    pastL1 m (a.toNat / 8 * 8) s = true ∧
    bccPass s = true ∧
    halfPoisoned (a.toNat / 8 * 8 - ddrBase) s = false ∧
    codeOf (a.toNat / 8 * 8 - ddrBase) s < 2 :=
  ⟨.core (.a 0),
   0x100000000,
   0,
   wOn,
   by decide +kernel,
   by decide +kernel,
   by decide +kernel,
   by decide +kernel,
   by decide +kernel,
   by decide +kernel,
   by decide +kernel⟩

theorem wit_ddrReadHit : ∃ (m : Master) (a : BitVec 40) (c : CLine) (err : DdrErr) (s : State),
    inDdr (a.toNat / 8 * 8) s = true ∧
    pdOn 12 s = true ∧
    accessWaits (a.toNat / 8 * 8) s = false ∧
    pastL1 m (a.toNat / 8 * 8) s = true ∧
    bccPass s = false ∧
    bccHit ((a.toNat / 8 * 8 - ddrBase) / 128) s = some c :=
  ⟨.core (.a 0),
   0x100000000,
   wLine,
   .none,
   wBcc wOn,
   by decide +kernel,
   by decide +kernel,
   by decide +kernel,
   by decide +kernel,
   by decide +kernel,
   by decide +kernel⟩

theorem wit_ddrReadOutside : ∃ (m : Master) (a : BitVec 40) (err : DdrErr) (s : State),
    inDdr (a.toNat / 8 * 8) s = false :=
  ⟨.core (.a 0),
   0,
   .none,
   wOn,
   by decide +kernel⟩

theorem wit_regattrPolicyWrite : ∃ (m : Master) (k : Fin 16) (v : Word) (s : State),
    Reach .dmc 0 s ∧
    Rising s.regs ∧
    windowOpen .dmc 0 s = true ∧
    ((s.dmc.initBusy || s.dmc.initDone) && (v.toNat ^^^ reg .regattr0 0 k s) &&& 0xE0003FFF != 0) = false ∧
    bits v.toNat 28 27 ≠ bits (reg .regattr0 0 k s) 28 27 :=
  ⟨.core (.a 0),
   0,
   (0x08000000 : Word),
   openWindow .dmc 0 (wOn),
   by refine ⟨?_, ?_, ?_⟩ <;> decide,
   by first | exact True.intro | (repeat first | exact True.intro | apply rising_setFld),
   by decide +kernel,
   by decide +kernel,
   by decide +kernel⟩

theorem wit_regattrLayoutRefused : ∃ (m : Master) (k : Fin 16) (v : Word) (s : State),
    Reach .dmc 0 s ∧
    s.dmc.initDone = true ∧
    (v.toNat ^^^ reg .regattr0 0 k s) &&& 0xE0003FFF ≠ 0 ∧
    windowOpen .dmc 0 s = true ∧
    EventRoom s :=
  ⟨.core (.a 0),
   0,
   1,
   openWindow .dmc 0 ({ wOn with dmc := { wOn.dmc with initDone := true } }),
   by refine ⟨?_, ?_, ?_⟩ <;> decide,
   by decide +kernel,
   by decide +kernel,
   by decide +kernel,
   by unfold EventRoom; decide⟩

theorem wit_splitRead : ∃ (m : Master) (line : Nat) (s : State),
    Reach .dmc 0 s ∧
    Rising s.regs ∧
    windowOpen .dmc 0 s = true ∧
    line = fld .splitaddr 0 0 26 0 s ∧
    bccHit line s = none :=
  ⟨.core (.a 0),
   0,
   openWindow .dmc 0 (wOn),
   by refine ⟨?_, ?_, ?_⟩ <;> decide,
   by first | exact True.intro | (repeat first | exact True.intro | apply rising_setFld),
   by decide +kernel,
   by decide +kernel,
   by decide +kernel⟩

theorem wit_splitWrite : ∃ (m : Master) (line : Nat) (s : State),
    Reach .dmc 0 s ∧
    Rising s.regs ∧
    windowOpen .dmc 0 s = true ∧
    line = fld .splitaddr 0 0 26 0 s ∧
    bccHit line s = none :=
  ⟨.core (.a 0),
   0,
   openWindow .dmc 0 (wOn),
   by refine ⟨?_, ?_, ?_⟩ <;> decide,
   by first | exact True.intro | (repeat first | exact True.intro | apply rising_setFld),
   by decide +kernel,
   by decide +kernel,
   by decide +kernel⟩

theorem wit_scrubRead : ∃ (line k : Nat) (s : State),
    fld .dmcScrub 0 0 31 31 s = 1 ∧
    s.pwr.selfRefresh = false ∧
    s.dmc.ppr = none ∧
    pdOn 12 s = true ∧
    (hdrOf .dmc 0 s).freeze = false ∧
    nextScrub s.dmc.scrubPos s = some line ∧
    s.dmc.poison = [] ∧
    s.dmc.rawChk = [] ∧
    nextScrub (line + 1) { s with dmc := { s.dmc with scrubPos := line + 1 } } = some k :=
  ⟨0,
   1,
   setFld .dmcScrub 0 0 31 31 1 ({ wOn with pwr := { wOn.pwr with selfRefresh := false }, dmc := { wOn.dmc with ppr := none, poison := [], rawChk := [] } }),
   by decide +kernel,
   by decide +kernel,
   by decide +kernel,
   by decide +kernel,
   by decide +kernel,
   by decide +kernel,
   by decide +kernel,
   by decide +kernel,
   by decide +kernel⟩

theorem wit_scrubPassEnds : ∃ (err : DdrErr) (s : State),
    fld .dmcScrub 0 0 31 31 s = 1 ∧
    s.pwr.selfRefresh = false ∧
    s.dmc.ppr = none ∧
    pdOn 12 s = true ∧
    (hdrOf .dmc 0 s).freeze = false ∧
    nextScrub s.dmc.scrubPos s = none :=
  ⟨.none,
   { (setFld .dmcScrub 0 0 31 31 1 ({ wOn with pwr := { wOn.pwr with selfRefresh := false }, dmc := { wOn.dmc with ppr := none } })) with dmc := { wOn.dmc with scrubPos := 0x8000000 } },
   by decide +kernel,
   by decide +kernel,
   by decide +kernel,
   by decide +kernel,
   by decide +kernel,
   by decide +kernel⟩

theorem wit_softPpr : ∃ (m : Master) (v : Word) (s : State),
    Reach .dmc 0 s ∧
    Rising s.regs ∧
    windowOpen .dmc 0 s = true ∧
    s.dmc.ppr = none :=
  ⟨.core (.a 0),
   (0 : Word),
   openWindow .dmc 0 ({ wOn with dmc := { wOn.dmc with ppr := none } }),
   by refine ⟨?_, ?_, ?_⟩ <;> decide,
   by first | exact True.intro | (repeat first | exact True.intro | apply rising_setFld),
   by decide +kernel,
   by decide +kernel⟩

theorem wit_hardPpr : ∃ (m : Master) (v : Word) (s : State),
    Reach .dmc 0 s ∧
    Rising s.regs ∧
    windowOpen .dmc 0 s = true ∧
    s.dmc.ppr = none ∧
    s.sys.ready = false :=
  ⟨.core (.a 0),
   (0 : Word),
   openWindow .dmc 0 ({ wOn with dmc := { wOn.dmc with ppr := none }, sys := { wOn.sys with ready := false } }),
   by refine ⟨?_, ?_, ?_⟩ <;> decide,
   by first | exact True.intro | (repeat first | exact True.intro | apply rising_setFld),
   by decide +kernel,
   by decide +kernel,
   by decide +kernel⟩

theorem wit_hardPprRefused : ∃ (m : Master) (v : Word) (s : State),
    Reach .dmc 0 s ∧
    Rising s.regs ∧
    windowOpen .dmc 0 s = true ∧
    s.dmc.ppr = none ∧
    s.sys.ready = true :=
  ⟨.core (.a 0),
   (0 : Word),
   openWindow .dmc 0 ({ wOn with dmc := { wOn.dmc with ppr := none }, sys := { wOn.sys with ready := true } }),
   by refine ⟨?_, ?_, ?_⟩ <;> decide,
   by first | exact True.intro | (repeat first | exact True.intro | apply rising_setFld),
   by decide +kernel,
   by decide +kernel,
   by decide +kernel⟩

theorem wit_rowLogClear : ∃ (m : Master) (v : Word) (s : State),
    Reach .dmc 0 s :=
  ⟨.core (.a 0),
   (0 : Word),
   wOn,
   by refine ⟨?_, ?_, ?_⟩ <;> decide⟩

theorem wit_bccAccessRead : ∃ (m : Master) (a : BitVec 40) (v : Word) (c : CLine) (s : State),
    inDdr (a.toNat / 4 * 4) s = true ∧
    pdOn 12 s = true ∧
    accessWaits (a.toNat / 4 * 4) s = false ∧
    pastL1 m (a.toNat / 4 * 4) s = true ∧
    bccPass s = false ∧
    bccHit ((a.toNat / 4 * 4 - ddrBase) / 128) s = some c :=
  ⟨.core (.a 0),
   0x100000000,
   (0 : Word),
   wLine,
   { (wOn) with bcc := { wOn.bcc with state := .enabled, lines := [(wLine)] } },
   by decide +kernel,
   by decide +kernel,
   by decide +kernel,
   by decide +kernel,
   by decide +kernel,
   by decide +kernel⟩

theorem wit_bccAccessWrite : ∃ (a : BitVec 40) (v : Word) (c : CLine) (s : State),
    inDdr (a.toNat / 4 * 4) s = true ∧
    pdOn 12 s = true ∧
    accessWaits (a.toNat / 4 * 4) s = false ∧
    bccPass s = false ∧
    s.bcc.state = .enabled ∧
    polOf (a.toNat / 4 * 4 - ddrBase) s = 0 ∧
    bccHit ((a.toNat / 4 * 4 - ddrBase) / 128) s = some c :=
  ⟨0x100000000,
   (0 : Word),
   wLine,
   { ({ wOn with bcc := { wOn.bcc with state := .enabled } }) with bcc := { wOn.bcc with state := .enabled, lines := [(wLine)] } },
   by decide +kernel,
   by decide +kernel,
   by decide +kernel,
   by decide +kernel,
   by decide +kernel,
   by decide +kernel,
   by decide +kernel⟩

theorem wit_bccEnable : ∃ (m : Master) (s : State),
    Reach .bcc 0 s ∧
    s.bcc.state = .disabled ∧
    s.bcc.invd = true :=
  ⟨.core (.a 0),
   { wOn with bcc := { wOn.bcc with state := .disabled, invd := true } },
   by refine ⟨?_, ?_, ?_⟩ <;> decide,
   by decide +kernel,
   by decide +kernel⟩

theorem wit_bccEnableRefused : ∃ (m : Master) (s : State),
    Reach .bcc 0 s ∧
    s.bcc.state = .disabled ∧
    s.bcc.invd = false ∧
    EventRoom s :=
  ⟨.core (.a 0),
   { wOn with bcc := { wOn.bcc with state := .disabled, invd := false } },
   by refine ⟨?_, ?_, ?_⟩ <;> decide,
   by decide +kernel,
   by decide +kernel,
   by unfold EventRoom; decide⟩

theorem wit_bccDisable : ∃ (m : Master) (s : State),
    Reach .bcc 0 s ∧
    s.bcc.state = .enabled ∧
    s.rvr.commit = false :=
  ⟨.core (.a 0),
   { wOn with bcc := { wOn.bcc with state := .enabled }, rvr := { wOn.rvr with commit := false } },
   by refine ⟨?_, ?_, ?_⟩ <;> decide,
   by decide +kernel,
   by decide +kernel⟩

theorem wit_bccDisableRefused : ∃ (m : Master) (s : State),
    Reach .bcc 0 s ∧
    s.bcc.state = .enabled ∧
    s.rvr.commit = true ∧
    EventRoom s :=
  ⟨.core (.a 0),
   { wOn with bcc := { wOn.bcc with state := .enabled }, rvr := { wOn.rvr with commit := true } },
   by refine ⟨?_, ?_, ?_⟩ <;> decide,
   by decide +kernel,
   by decide +kernel,
   by unfold EventRoom; decide⟩

theorem wit_drainComplete : ∃ (s : State),
    s.bcc.state = .draining ∧
    (hdrOf .bcc 0 s).freeze = false :=
  ⟨{ wOn with bcc := { wOn.bcc with state := .draining } },
   by decide +kernel,
   by decide +kernel⟩

theorem wit_bccClean : ∃ (m : Master) (s : State),
    Reach .bcc 0 s ∧
    Rising s.regs ∧
    s.bcc.op = none ∧
    s.bcc.state = .enabled :=
  ⟨.core (.a 0),
   { wOn with bcc := { wOn.bcc with op := none, state := .enabled } },
   by refine ⟨?_, ?_, ?_⟩ <;> decide,
   by first | exact True.intro | (repeat first | exact True.intro | apply rising_setFld),
   by decide +kernel,
   by decide +kernel⟩

theorem wit_bccInval : ∃ (m : Master) (s : State),
    Reach .bcc 0 s ∧
    Rising s.regs ∧
    s.bcc.op = none :=
  ⟨.core (.a 0),
   { wOn with bcc := { wOn.bcc with op := none } },
   by refine ⟨?_, ?_, ?_⟩ <;> decide,
   by first | exact True.intro | (repeat first | exact True.intro | apply rising_setFld),
   by decide +kernel⟩

theorem wit_bccCleanInval : ∃ (m : Master) (s : State),
    Reach .bcc 0 s ∧
    Rising s.regs ∧
    s.bcc.op = none :=
  ⟨.core (.a 0),
   { wOn with bcc := { wOn.bcc with op := none } },
   by refine ⟨?_, ?_, ?_⟩ <;> decide,
   by first | exact True.intro | (repeat first | exact True.intro | apply rising_setFld),
   by decide +kernel⟩

theorem wit_bccZero : ∃ (m : Master) (s : State),
    Reach .bcc 0 s ∧
    Rising s.regs ∧
    s.bcc.op = none ∧
    s.bcc.state = .enabled :=
  ⟨.core (.a 0),
   { wOn with bcc := { wOn.bcc with op := none, state := .enabled } },
   by refine ⟨?_, ?_, ?_⟩ <;> decide,
   by first | exact True.intro | (repeat first | exact True.intro | apply rising_setFld),
   by decide +kernel,
   by decide +kernel⟩

theorem wit_bccLock : ∃ (m : Master) (s : State),
    Reach .bcc 0 s ∧
    Rising s.regs ∧
    s.bcc.op = none ∧
    s.bcc.state = .enabled :=
  ⟨.core (.a 0),
   { wOn with bcc := { wOn.bcc with op := none, state := .enabled } },
   by refine ⟨?_, ?_, ?_⟩ <;> decide,
   by first | exact True.intro | (repeat first | exact True.intro | apply rising_setFld),
   by decide +kernel,
   by decide +kernel⟩

theorem wit_bccUnlock : ∃ (m : Master) (s : State),
    Reach .bcc 0 s ∧
    Rising s.regs ∧
    s.bcc.op = none :=
  ⟨.core (.a 0),
   { wOn with bcc := { wOn.bcc with op := none } },
   by refine ⟨?_, ?_, ?_⟩ <;> decide,
   by first | exact True.intro | (repeat first | exact True.intro | apply rising_setFld),
   by decide +kernel⟩

theorem wit_bccInvalAll : ∃ (m : Master) (s : State),
    Reach .bcc 0 s ∧
    Rising s.regs ∧
    s.bcc.op = none ∧
    s.bcc.state = .disabled :=
  ⟨.core (.a 0),
   { wOn with bcc := { wOn.bcc with op := none, state := .disabled } },
   by refine ⟨?_, ?_, ?_⟩ <;> decide,
   by first | exact True.intro | (repeat first | exact True.intro | apply rising_setFld),
   by decide +kernel,
   by decide +kernel⟩

theorem wit_rangeOpDone : ∃ (r : RangeOp) (s : State),
    (hdrOf .bcc 0 s).freeze = false ∧
    s.bcc.op = some r ∧
    r.op = 7 :=
  ⟨{ wRange with op := 7 },
   { wOn with bcc := { wOn.bcc with op := some ({ wRange with op := 7 }) } },
   by decide +kernel,
   by decide +kernel,
   by decide +kernel⟩

theorem wit_rangeClean : ∃ (r : RangeOp) (s : State),
    RangeRuns 1 r s :=
  ⟨{ wRange with op := 1 },
   wRun 1,
   by exact wRun_runs 1⟩

theorem wit_rangeInval : ∃ (r : RangeOp) (s : State),
    RangeRuns 2 r s :=
  ⟨{ wRange with op := 2 },
   wRun 2,
   by exact wRun_runs 2⟩

theorem wit_rangeCleanInval : ∃ (r : RangeOp) (s : State),
    RangeRuns 3 r s :=
  ⟨{ wRange with op := 3 },
   wRun 3,
   by exact wRun_runs 3⟩

theorem wit_rangeUnlock : ∃ (r : RangeOp) (s : State),
    RangeRuns 6 r s :=
  ⟨{ wRange with op := 6 },
   wRun 6,
   by exact wRun_runs 6⟩

theorem wit_rangeCleanMemory : ∃ (op : Nat) (r : RangeOp) (c : CLine) (s : State),
    (op = 1 ∨ op = 3) ∧
    RangeRuns op r s ∧
    r.lines = 1 ∧
    bccHit (r.first - ddrBase / 128) s = some c ∧
    c.dirty = true ∧
    Rising s.mem ∧
    rawPoison c.line s = false :=
  ⟨1,
   { wRange with op := 1 },
   wLine,
   wRun 1,
   by decide,
   by exact wRun_runs 1,
   by decide +kernel,
   by decide +kernel,
   by decide +kernel,
   by exact True.intro,
   by decide +kernel⟩

theorem wit_rangeZero : ∃ (r : RangeOp) (c : CLine) (s : State),
    RangeRuns 4 r s ∧
    r.lines = 1 ∧
    polOf ((r.first - ddrBase / 128) * 128) s = 0 ∧
    bccHit (r.first - ddrBase / 128) s = some c :=
  ⟨{ wRange with op := 4 },
   wLine,
   wRun 4,
   by exact wRun_runs 4,
   by decide +kernel,
   by decide +kernel,
   by decide +kernel⟩

theorem wit_rangeLock : ∃ (r : RangeOp) (c : CLine) (s : State),
    RangeRuns 5 r s ∧
    r.lines = 1 ∧
    polOf ((r.first - ddrBase / 128) * 128) s ≠ 3 ∧
    bccHit (r.first - ddrBase / 128) s = some c ∧
    c.way < 12 :=
  ⟨{ wRange with op := 5 },
   wLine,
   wRun 5,
   by exact wRun_runs 5,
   by decide +kernel,
   by decide +kernel,
   by decide +kernel,
   by decide +kernel⟩

theorem wit_repairMapEntry : ∃ (w : Word) (s : State),
    secRuns s = true ∧
    s.sec.mbDone = true ∧
    w.getLsbD 31 = true ∧
    (∀ x ∈ s.sys.repairMap, x.toNat / 256 ≠ w.toNat / 256) ∧
    s.sys.repairMap.length < 256 :=
  ⟨(2147483648 : Word),
   { wOn with sec := { wOn.sec with mbDone := true } },
   by decide +kernel,
   by decide +kernel,
   by decide +kernel,
   by exact fun x h => absurd h List.not_mem_nil,
   by decide +kernel⟩

theorem wit_extend : ∃ (m digest : Nat) (s : State),
    secRuns s = true ∧
    s.sec.mbDone = true ∧
    8 ≤ m ∧
    m ≤ 15 :=
  ⟨8,
   0,
   { wOn with sec := { wOn.sec with mbDone := true } },
   by decide +kernel,
   by decide +kernel,
   by decide +kernel,
   by decide +kernel⟩

theorem wit_keyGenerate : ∃ (ns user limit k : Nat) (s : State),
    secRuns s = true ∧
    s.sec.mbDone = true ∧
    ns < 64 ∧
    user < 32 ∧
    2 ^ 20 ≤ limit ∧
    limit < 2 ^ 40 ∧
    s.sec.encdis = false ∧
    s.sec.l2pend = false ∧
    s.sec.part = false ∧
    lowestFree 2048 (s.sec.slots.map (·.slot)) = some k :=
  ⟨0,
   0,
   1048576,
   0,
   { wOn with sec := { wOn.sec with mbDone := true, encdis := false, l2pend := false, part := false } },
   by decide +kernel,
   by decide +kernel,
   by decide +kernel,
   by decide +kernel,
   by decide +kernel,
   by decide +kernel,
   by decide +kernel,
   by decide +kernel,
   by decide +kernel,
   by decide +kernel⟩

theorem wit_keyZero : ∃ (slot : Fin 2048) (x : KSlot) (s : State),
    secRuns s = true ∧
    s.sec.mbDone = true ∧
    kslot slot s = some x ∧
    pageOpen x.ns s = true :=
  ⟨0,
   wKslot,
   { ({ wOn with sec := { wOn.sec with mbDone := true } }) with sec := { (({ wOn with sec := { wOn.sec with mbDone := true } })).sec with slots := [(wKslot)] } },
   by decide +kernel,
   by decide +kernel,
   by decide +kernel,
   by decide +kernel⟩

theorem wit_keyCheckpoint : ∃ (s : State),
    secRuns s = true ∧
    s.sec.mbDone = true :=
  ⟨{ wOn with sec := { wOn.sec with mbDone := true } },
   by decide +kernel,
   by decide +kernel⟩

theorem wit_nsActive : ∃ (ns : Fin 64) (slot : Fin 2048) (enc : Bool) (s : State),
    secRuns s = true ∧
    s.sec.mbDone = true ∧
    pageOpen ns s = true :=
  ⟨0,
   0,
   false,
   { wOn with sec := { wOn.sec with mbDone := true } },
   by decide +kernel,
   by decide +kernel,
   by decide +kernel⟩

theorem wit_svnCommit : ∃ (count : Nat) (s : State),
    secRuns s = true ∧
    s.sec.mbDone = true ∧
    s.sec.svn < count ∧
    count ≤ s.sec.imgSvn ∧
    count ≤ 64 :=
  ⟨1,
   { ({ wOn with sec := { wOn.sec with mbDone := true } }) with sec := { (({ wOn with sec := { wOn.sec with mbDone := true } })).sec with imgSvn := 1 } },
   by decide +kernel,
   by decide +kernel,
   by decide +kernel,
   by decide +kernel,
   by decide +kernel⟩

theorem wit_takeOwnership : ∃ (sig : SigObj) (s : State),
    secRuns s = true ∧
    s.sec.mbDone = true ∧
    s.sec.okey.any (·.isSome) = false ∧
    sig.valid = true :=
  ⟨{ wSig with valid := true },
   { wOn with sec := { wOn.sec with mbDone := true } },
   by decide +kernel,
   by decide +kernel,
   by decide +kernel,
   by decide +kernel⟩

theorem wit_addOwnerKey : ∃ (sig : SigObj) (digest k : Nat) (s : State),
    secRuns s = true ∧
    s.sec.mbDone = true ∧
    ownerSigned sig s = true ∧
    ((List.range 4).find? fun k => (vget s.sec.okey k none).isNone) = some k :=
  ⟨wSig,
   0,
   1,
   { wOn with sec := { wOn.sec with mbDone := true, okey := #v[some (7, false), none, none, none] } },
   by decide +kernel,
   by decide +kernel,
   by decide +kernel,
   by decide +kernel⟩

theorem wit_revokeOwnerKey : ∃ (sig : SigObj) (k : Fin 4) (d : Nat) (s : State),
    secRuns s = true ∧
    s.sec.mbDone = true ∧
    ownerSigned sig s = true ∧
    s.sec.okey[k] = some (d, false) ∧
    2 ≤ ownerKeys s :=
  ⟨wSig,
   0,
   7,
   { wOn with sec := { wOn.sec with mbDone := true, okey := #v[some (7, false), some (8, false), none, none] } },
   by decide +kernel,
   by decide +kernel,
   by decide +kernel,
   by decide +kernel,
   by decide +kernel⟩

theorem wit_ownerPolicy : ∃ (sig : SigObj) (part openRegion ownerDebug : Bool) (s : State),
    secRuns s = true ∧
    s.sec.mbDone = true ∧
    ownerSigned sig s = true :=
  ⟨wSig,
   false,
   false,
   false,
   { wOn with sec := { wOn.sec with mbDone := true, okey := #v[some (7, false), none, none, none] } },
   by decide +kernel,
   by decide +kernel,
   by decide +kernel⟩

theorem wit_exportKeys : ∃ (sig : SigObj) (devid : Nat) (s : State),
    secRuns s = true ∧
    s.sec.mbDone = true ∧
    ownerSigned sig s = true :=
  ⟨wSig,
   0,
   { wOn with sec := { wOn.sec with mbDone := true, okey := #v[some (7, false), none, none, none] } },
   by decide +kernel,
   by decide +kernel,
   by decide +kernel⟩

theorem wit_importKeys : ∃ (sig : SigObj) (b : Bundle) (s : State),
    secRuns s = true ∧
    s.sec.mbDone = true ∧
    ownerSigned sig s = true ∧
    b.devid = s.sec.devid ∧
    b.srcOk = true ∧
    b.tagOk = true ∧
    s.sec.slots.any (·.valid) = false :=
  ⟨wSig,
   wBundle,
   { wOn with sec := { wOn.sec with mbDone := true, okey := #v[some (7, false), none, none, none] } },
   by decide +kernel,
   by decide +kernel,
   by decide +kernel,
   by decide +kernel,
   by decide +kernel,
   by decide +kernel,
   by decide +kernel⟩

theorem wit_behaviourProfileUnlock : ∃ (sig : SigObj) (devid : Nat) (s : State),
    secRuns s = true ∧
    s.sec.mbDone = true ∧
    ownerSigned sig s = true ∧
    devid = s.sec.devid :=
  ⟨wSig,
   0,
   { wOn with sec := { wOn.sec with mbDone := true, okey := #v[some (7, false), none, none, none] } },
   by decide +kernel,
   by decide +kernel,
   by decide +kernel,
   by decide +kernel⟩

theorem wit_firmwareActivationMeasurement : ∃ (digest : Nat) (s : State),
    secRuns s = true ∧
    s.sec.mbDone = true :=
  ⟨0,
   { wOn with sec := { wOn.sec with mbDone := true } },
   by decide +kernel,
   by decide +kernel⟩

theorem wit_slotSelect : ∃ (m : Master) (v : Word) (x : KSlot) (s : State),
    Reach .kst 0 s ∧
    kslot (bits v.toNat 10 0) s = some x :=
  ⟨.core (.a 0),
   (0 : Word),
   wKslot,
   { (wOn) with sec := { ((wOn)).sec with slots := [(wKslot)] } },
   by refine ⟨?_, ?_, ?_⟩ <;> decide,
   by decide +kernel⟩

theorem wit_snuffLevel1 : ∃ (src : Fin 4) (s : State),
    snuffArmed s = true :=
  ⟨0,
   { (wOn) with sec := { ((wOn)).sec with armFrom := some 0 } },
   by decide +kernel⟩

theorem wit_snuffLevel2 : ∃ (src : Fin 3) (s : State),
    snuffArmed s = true :=
  ⟨0,
   { (wOn) with sec := { ((wOn)).sec with armFrom := some 0 } },
   by decide +kernel⟩

theorem wit_alarmFuseBlow : ∃ (src : Nat) (s : State),
    s.sec.alarmDue = some src ∧
    secRuns s = true ∧
    s.sec.alarms < 7 :=
  ⟨0,
   { wOn with sec := { wOn.sec with alarmDue := some (0) } },
   by decide +kernel,
   by decide +kernel,
   by decide +kernel⟩

theorem wit_epochFuseBlow : ∃ (s : State),
    secRuns s = true ∧
    s.sec.l2pend = true :=
  ⟨{ wOn with sec := { wOn.sec with l2pend := true } },
   by decide +kernel,
   by decide +kernel⟩

theorem wit_keyRestore : ∃ (l : List KRec) (s : State),
    secRuns s = true ∧
    s.sec.restored = false ∧
    s.sec.l2pend = false ∧
    s.sec.encdis = false ∧
    s.sec.noUnwrap = false ∧
    heldBlk .kst 0 s = false ∧
    keyCopy s = some l :=
  ⟨[],
   setFld .rvrCfg 0 0 1 0 1 ({ wOn with sec := { wOn.sec with restored := false, l2pend := false, encdis := false, noUnwrap := false } }),
   by decide +kernel,
   by decide +kernel,
   by decide +kernel,
   by decide +kernel,
   by decide +kernel,
   by decide +kernel,
   by decide +kernel⟩

theorem wit_debugChallenge : ∃ (s : State),
    pdOn 2 s = true ∧
    secRuns s = true :=
  ⟨wOn,
   by decide +kernel,
   by decide +kernel⟩

theorem wit_debugResponse : ∃ (level digest : Nat) (sig : SigObj) (halt : Bool) (s : State),
    s.sec.dbgChal.isSome = true ∧
    pdOn 2 s = true ∧
    secRuns s = true ∧
    level = 1 ∧
    umwynSigned 2 sig s = true :=
  ⟨1,
   0,
   wSig,
   false,
   { wOn with sec := { wOn.sec with dbgChal := some 0, ukey := wOn.sec.ukey.map fun _ => (7, 4, false) } },
   by decide +kernel,
   by decide +kernel,
   by decide +kernel,
   by decide +kernel,
   by decide +kernel⟩

theorem wit_thmConversion : ∃ (readings : Vector (Option Int) 24) (wick : Int) (s : State),
    pdOn 2 s = true :=
  ⟨Vector.replicate 24 none,
   0,
   wOn,
   by decide +kernel⟩

theorem wit_criticalDarkEntry : ∃ (temp : Int) (k : Nat) (s : State),
    s.thm.critical = some (temp, k) :=
  ⟨0,
   0,
   { wOn with thm := { wOn.thm with critical := some ((0), (0)) } },
   by decide +kernel⟩

theorem wit_criticalWake : ∃ (env : BootEnv) (s : State),
    s.pwr.state = .dark ∧
    s.pwr.darkCritical = true ∧
    s.sys.railsGood = true ∧
    s.sys.resetNLow = false :=
  ⟨wEnv,
   { wOn with pwr := { wOn.pwr with state := .dark, darkCritical := true }, sys := { wOn.sys with railsGood := true, resetNLow := false } },
   by decide +kernel,
   by decide +kernel,
   by decide +kernel,
   by decide +kernel⟩

theorem wit_clrshut : ∃ (m : Master) (s : State),
    Reach .thm 0 s ∧
    s.thm.shut = true ∧
    s.thm.maxTemp < 4 * thrShut s - hystShut s :=
  ⟨.core (.a 0),
   { wOn with thm := { wOn.thm with shut := true } },
   by refine ⟨?_, ?_, ?_⟩ <;> decide,
   by decide +kernel,
   by decide +kernel⟩

theorem wit_clrexcl : ∃ (m : Master) (s : State),
    Reach .thm 0 s :=
  ⟨.core (.a 0),
   wOn,
   by refine ⟨?_, ?_, ?_⟩ <;> decide⟩

theorem wit_trimCompute : ∃ (stats : List (Nat × Nat × Int)) (s : State),
    pdOn 2 s = true ∧
    heldBlk .trm 0 s = false :=
  ⟨[],
   wOn,
   by decide +kernel,
   by decide +kernel⟩

theorem wit_taperStep : ∃ (k : Fin 137) (s : State),
    pdOn 2 s = true ∧
    heldBlk .trm 0 s = false ∧
    trimPending k s = true ∧
    opportunity k s = true :=
  ⟨0,
   { (wOn) with trm := { ((wOn)).trm with trims := [{ trimReset 0 with target := 1, code := 0 }] } },
   by decide +kernel,
   by decide +kernel,
   by decide +kernel,
   by decide +kernel⟩

theorem wit_trimAge : ∃ (k : Fin 137) (i : Nat) (s : State),
    (trimAt k s).since = some i ∧
    (trimAt k s).aged = false ∧
    pdOn 2 s = true ∧
    heldBlk .trm 0 s = false :=
  ⟨0,
   0,
   { (wOn) with trm := { ((wOn)).trm with trims := [{ trimReset 0 with since := some 0 }] } },
   by decide +kernel,
   by decide +kernel,
   by decide +kernel,
   by decide +kernel⟩

theorem wit_eventStore : ∃ (e : Event) (rest : List Event) (s : State),
    heldBlk .evr 0 s = false ∧
    s.evr.queue = e :: rest ∧
    s.evr.flood = none ∧
    s.evr.period < floodOn s ∧
    s.evr.opn = false ∧
    isCandle s = false ∧
    (rest ≠ [] ∨ s.evr.lostNow = 0) :=
  ⟨wEvent,
   [],
   { wOn with evr := { wOn.evr with queue := (wEvent) :: ([]), flood := none, opn := false } },
   by decide +kernel,
   by decide +kernel,
   by decide +kernel,
   by decide +kernel,
   by decide +kernel,
   by decide +kernel,
   by decide +kernel⟩

theorem wit_eventRaiseSw : ∃ (m : Master) (v : Word) (s : State),
    Reach .evr 0 s ∧
    v.getLsbD 31 = true ∧
    EventRoom s :=
  ⟨.core (.a 0),
   (2147483648 : Word),
   wOn,
   by refine ⟨?_, ?_, ?_⟩ <;> decide,
   by decide +kernel,
   by unfold EventRoom; decide⟩

theorem wit_floodPeriod : ∃ (s : State),
    heldBlk .evr 0 s = false :=
  ⟨wOn,
   by decide +kernel⟩

theorem wit_evrNextRead : ∃ (m : Master) (s : State),
    Reach .evr 0 s :=
  ⟨.core (.a 0),
   wOn,
   by refine ⟨?_, ?_, ?_⟩ <;> decide⟩

theorem wit_evrCursorWrite : ∃ (m : Master) (v : Word) (s : State),
    Reach .evr 0 s :=
  ⟨.core (.a 0),
   (0 : Word),
   wOn,
   by refine ⟨?_, ?_, ?_⟩ <;> decide⟩

theorem wit_evrWindowAdvance : ∃ (m : Master) (s : State),
    Reach .evr 0 s ∧
    s.evr.cur.testBit 62 = true :=
  ⟨.core (.a 0),
   { (wOn) with evr := { ((wOn)).evr with cur := 2 ^ 62 } },
   by refine ⟨?_, ?_, ?_⟩ <;> decide,
   by decide +kernel⟩

theorem wit_evrBaseWrite : ∃ (m : Master) (v : Word) (s : State),
    Reach .evr 0 s ∧
    s.evr.opn = true ∧
    s.evr.stored = false ∧
    windowOpen .evr 0 s = true :=
  ⟨.core (.a 0),
   (0 : Word),
   openWindow .evr 0 ({ wOn with evr := { wOn.evr with opn := true, stored := false } }),
   by refine ⟨?_, ?_, ?_⟩ <;> decide,
   by decide +kernel,
   by decide +kernel,
   by decide +kernel⟩

theorem wit_evrStore : ∃ (m : Master) (s : State),
    Reach .evr 0 s ∧
    s.evr.opn = true ∧
    (wordRec s.evr.win).seq < s.evr.base ∧
    ((wordRec s.evr.win).seq < 4096 ∨ s.evr.base + 1024 ≤ (wordRec s.evr.win).seq + 65536) ∧
    heldRec (wordRec s.evr.win).seq s = none :=
  ⟨.core (.a 0),
   { ({ wOn with evr := { wOn.evr with opn := true } }) with evr := { (({ wOn with evr := { wOn.evr with opn := true } })).evr with opn := true, base := 1 } },
   by refine ⟨?_, ?_, ?_⟩ <;> decide,
   by decide +kernel,
   by decide +kernel,
   by decide +kernel,
   by decide +kernel⟩

theorem wit_evrCommit : ∃ (m : Master) (s : State),
    Reach .evr 0 s ∧
    s.evr.opn = true ∧
    s.evr.flood = none ∧
    s.evr.period < floodOn s :=
  ⟨.core (.a 0),
   { wOn with evr := { wOn.evr with opn := true, flood := none } },
   by refine ⟨?_, ?_, ?_⟩ <;> decide,
   by decide +kernel,
   by decide +kernel,
   by decide +kernel⟩

theorem wit_lifAdd : ∃ (m : Master) (v : Word) (s : State),
    Reach .lif 0 s ∧
    Rising s.lif.cnt ∧
    v.getLsbD 31 = true ∧
    (lifHw (bits v.toNat 7 0) = true → s.lif.opn = true) ∧
    s.lif.sat.contains (bits v.toNat 7 0) = false ∧
    sget 0 (bits v.toNat 7 0) s.lif.cnt + (reg .lifAddlo 0 0 s + reg .lifAddhi 0 0 s * 2 ^ 32) < 2 ^ 64 :=
  ⟨.core (.a 0),
   (2147483648 : Word),
   wOn,
   by refine ⟨?_, ?_, ?_⟩ <;> decide,
   by first | exact True.intro | (repeat first | exact True.intro | apply rising_setFld),
   by decide +kernel,
   by decide +kernel,
   by decide +kernel,
   by decide +kernel⟩

theorem wit_lifSeal : ∃ (m : Master) (s : State),
    Reach .lif 0 s :=
  ⟨.core (.a 0),
   wOn,
   by refine ⟨?_, ?_, ?_⟩ <;> decide⟩

theorem wit_lifSnap : ∃ (m : Master) (s : State),
    Reach .lif 0 s :=
  ⟨.core (.a 0),
   wOn,
   by refine ⟨?_, ?_, ?_⟩ <;> decide⟩

theorem wit_lifTick : ∃ (s : State),
    heldBlk .lif 0 s = false ∧
    Rising s.lif.cnt ∧
    s.pwr.state = .lit ∧
    s.sys.railsGood = true ∧
    s.lif.sat.contains 0 = false ∧
    s.lif.sat.contains 1 = false ∧
    sget 0 0 s.lif.cnt + 1 < 2 ^ 64 ∧
    sget 0 1 s.lif.cnt + 1 < 2 ^ 64 :=
  ⟨{ wOn with pwr := { wOn.pwr with state := .lit }, sys := { wOn.sys with railsGood := true } },
   by decide +kernel,
   by first | exact True.intro | (repeat first | exact True.intro | apply rising_setFld),
   by decide +kernel,
   by decide +kernel,
   by decide +kernel,
   by decide +kernel,
   by decide +kernel,
   by decide +kernel⟩

theorem wit_calRead : ∃ (m : Master) (s : State),
    Reach .cal 0 s :=
  ⟨.core (.a 0),
   wOn,
   by refine ⟨?_, ?_, ?_⟩ <;> decide⟩

theorem wit_calSet : ∃ (m : Master) (v : Word) (s : State),
    Reach .cal 0 s ∧
    v.getLsbD 0 = true ∧
    fld .calSetusec 0 0 19 0 s ≤ 999999 :=
  ⟨.core (.a 0),
   (1 : Word),
   wOn,
   by refine ⟨?_, ?_, ?_⟩ <;> decide,
   by decide +kernel,
   by decide +kernel⟩

theorem wit_calAdjust : ∃ (m : Master) (v : Word) (s : State),
    Reach .cal 0 s ∧
    v.getLsbD 31 = true :=
  ⟨.core (.a 0),
   (2147483648 : Word),
   wOn,
   by refine ⟨?_, ?_, ?_⟩ <;> decide,
   by decide +kernel⟩

theorem wit_slewDone : ∃ (s : State),
    calRuns s ∧
    s.cal.adjRem ≠ 0 :=
  ⟨{ (wOn) with cal := { ((wOn)).cal with adjRem := 1 } },
   by unfold calRuns; decide,
   by decide +kernel⟩

theorem wit_calAlarm : ∃ (a : Nat) (s : State),
    calRuns s ∧
    Rising s.regs ∧
    alarmAt s = some a ∧
    s.cal.sec < a ∧
    a < 2 ^ 48 ∧
    s.cal.usec < 1000000 ∧
    s.cal.adjRem = 0 :=
  ⟨10,
   setFld .calAlm1 0 0 31 31 1 (setReg .calAlm0 0 0 10 ({ wOn with cal := { wOn.cal with adjRem := 0 } })),
   by unfold calRuns; decide,
   by exact rising_setFld _ _ _ _ _ _ (rising_setReg _ _ _ _ True.intro),
   by decide +kernel,
   by decide +kernel,
   by decide +kernel,
   by decide +kernel,
   by decide +kernel⟩

theorem wit_beaconSend : ∃ (s : State),
    isLantern s = true ∧
    mayTransmit 1 s = true :=
  ⟨setFld .vlkCfg 0 0 31 31 1 ({ wOn with sys := { wOn.sys with pers := .lantern }, vlk := { wOn.vlk with root := true } }),
   by decide +kernel,
   by decide +kernel⟩

theorem wit_beaconReceive : ∃ (f : VFrame) (b : Beacon) (s : State),
    candleRuns s = true ∧
    s.vlk.enr = true ∧
    f.hcrcOk = true ∧
    toOwn f s = true ∧
    f.authOk = true ∧
    seqFresh s.vlk.rxSeg s.vlk.seenSeg f.seq = true ∧
    f.inverted = false :=
  ⟨{ wFrame with bcast := true },
   wBeacon,
   setFld .vlkCfg 0 0 31 31 1 ({ wOn with vlk := { wOn.vlk with enr := true } }),
   by decide +kernel,
   by decide +kernel,
   by decide +kernel,
   by decide +kernel,
   by decide +kernel,
   by decide +kernel,
   by decide +kernel⟩

theorem wit_beaconMissed : ∃ (s : State),
    candleRuns s = true ∧
    s.vlk.enr = true ∧
    s.vlk.missedB < 3 :=
  ⟨setFld .vlkCfg 0 0 31 31 1 ({ wOn with vlk := { wOn.vlk with enr := true } }),
   by decide +kernel,
   by decide +kernel,
   by decide +kernel⟩

theorem wit_discoverSend : ∃ (s : State),
    isLantern s = true ∧
    mayTransmit 1 s = true ∧
    fld .vlkCfg 0 0 30 30 s = 1 ∧
    s.vlk.slots.length < 64 :=
  ⟨setFld .vlkCfg 0 0 30 30 1 (setFld .vlkCfg 0 0 31 31 1 ({ wOn with sys := { wOn.sys with pers := .lantern }, vlk := { wOn.vlk with root := true } })),
   by decide +kernel,
   by decide +kernel,
   by decide +kernel,
   by decide +kernel⟩

theorem wit_discoverReceive : ∃ (f : VFrame) (s : State),
    candleRuns s = true ∧
    s.vlk.enr = false ∧
    f.hcrcOk = true ∧
    f.authOk = true ∧
    f.inverted = false ∧
    mayTransmit 0 s = true :=
  ⟨{ wFrame with hcrcOk := true, authOk := true, inverted := false },
   setFld .vlkCfg 0 0 31 31 1 ({ wOn with vlk := { wOn.vlk with enr := false } }),
   by decide +kernel,
   by decide +kernel,
   by decide +kernel,
   by decide +kernel,
   by decide +kernel,
   by decide +kernel⟩

theorem wit_enrollReceive : ∃ (f : VFrame) (slot reason ident : Nat) (s : State),
    candleRuns s = true ∧
    s.vlk.enr = false ∧
    f.hcrcOk = true ∧
    f.authOk = true ∧
    f.inverted = false ∧
    slot ≠ 255 :=
  ⟨{ wFrame with hcrcOk := true, authOk := true, inverted := false },
   0,
   0,
   0,
   setFld .vlkCfg 0 0 31 31 1 ({ wOn with vlk := { wOn.vlk with enr := false } }),
   by decide +kernel,
   by decide +kernel,
   by decide +kernel,
   by decide +kernel,
   by decide +kernel,
   by decide +kernel⟩

theorem wit_enrollReceiveKeynew : ∃ (f : VFrame) (gen : Nat) (l : Nat × Nat) (s : State),
    candleRuns s = true ∧
    s.vlk.enr = false ∧
    s.vlk.lantern = some l ∧
    secRuns s = true ∧
    f.hcrcOk = true ∧
    toOwn f s = true ∧
    f.authOk = true ∧
    f.inverted = false ∧
    EventRoom s :=
  ⟨{ wFrame with dst := 0 },
   0,
   (1, 2),
   { (setFld .vlkCfg 0 0 31 31 1 ({ wOn with vlk := { wOn.vlk with enr := false, lantern := some ((1, 2)) } })) with vlk := { ((setFld .vlkCfg 0 0 31 31 1 ({ wOn with vlk := { wOn.vlk with enr := false, lantern := some ((1, 2)) } }))).vlk with lantern := some (1, 2) } },
   by decide +kernel,
   by decide +kernel,
   by decide +kernel,
   by decide +kernel,
   by decide +kernel,
   by decide +kernel,
   by decide +kernel,
   by decide +kernel,
   by unfold EventRoom; decide⟩

theorem wit_enrollReceiveConfirm : ∃ (f : VFrame) (slot : Nat) (x : VSlot) (s : State),
    isLantern s = true ∧
    secRuns s = true ∧
    slotAt slot s = some x ∧
    x.state = .enrolling ∧
    f.hcrcOk = true ∧
    toOwn f s = true ∧
    f.authOk = true ∧
    f.inverted = false ∧
    EventRoom s :=
  ⟨{ wFrame with dst := 0 },
   0,
   { wSlot with state := .enrolling },
   setFld .vlkCfg 0 0 31 31 1 ({ wOn with sys := { wOn.sys with pers := .lantern }, vlk := { wOn.vlk with root := true, slots := [{ wSlot with state := .enrolling }] } }),
   by decide +kernel,
   by decide +kernel,
   by decide +kernel,
   by decide +kernel,
   by decide +kernel,
   by decide +kernel,
   by decide +kernel,
   by decide +kernel,
   by unfold EventRoom; decide⟩

theorem wit_pollSend : ∃ (x : VSlot) (s : State),
    isLantern s = true ∧
    mayTransmit 1 s = true ∧
    s.vlk.slots.any (·.polled) = false ∧
    nextSlot s = some x :=
  ⟨wSlot,
   setFld .vlkCfg 0 0 31 31 1 ({ wOn with sys := { wOn.sys with pers := .lantern }, vlk := { wOn.vlk with root := true, slots := [wSlot] } }),
   by decide +kernel,
   by decide +kernel,
   by decide +kernel,
   by decide +kernel⟩

theorem wit_pollReceive : ∃ (f : VFrame) (s : State),
    candleRuns s = true ∧
    s.vlk.enr = true ∧
    f.hcrcOk = true ∧
    toOwn f s = true ∧
    f.authOk = true ∧
    seqFresh s.vlk.rxLink s.vlk.seenLink f.seq = true ∧
    f.inverted = false ∧
    mayTransmit 0 s = true :=
  ⟨{ wFrame with bcast := true },
   setFld .vlkCfg 0 0 31 31 1 ({ wOn with vlk := { wOn.vlk with enr := true } }),
   by decide +kernel,
   by decide +kernel,
   by decide +kernel,
   by decide +kernel,
   by decide +kernel,
   by decide +kernel,
   by decide +kernel,
   by decide +kernel⟩

theorem wit_pollReceiveLease : ∃ (f : VFrame) (mw dur : Nat) (s : State),
    candleRuns s = true ∧
    s.vlk.enr = true ∧
    f.hcrcOk = true ∧
    toOwn f s = true ∧
    f.authOk = true ∧
    seqFresh s.vlk.rxLink s.vlk.seenLink f.seq = true ∧
    f.inverted = false ∧
    mayTransmit 0 s = true ∧
    f.items = [.lease mw dur] :=
  ⟨{ wFrame with dst := 0, items := [.lease 5 6] },
   5,
   6,
   setFld .vlkCfg 0 0 31 31 1 ({ wOn with vlk := { wOn.vlk with enr := true } }),
   by decide +kernel,
   by decide +kernel,
   by decide +kernel,
   by decide +kernel,
   by decide +kernel,
   by decide +kernel,
   by decide +kernel,
   by decide +kernel,
   by decide +kernel⟩

theorem wit_replyReceive : ∃ (f : VFrame) (x : VSlot) (s : State),
    isLantern s = true ∧
    s.vlk.slots.find? (·.polled) = some x :=
  ⟨wFrame,
   { wSlot with polled := true },
   setFld .vlkCfg 0 0 31 31 1 ({ wOn with sys := { wOn.sys with pers := .lantern }, vlk := { wOn.vlk with root := true, slots := [{ wSlot with polled := true }] } }),
   by decide +kernel,
   by decide +kernel⟩

theorem wit_replyReceiveGood : ∃ (f : VFrame) (x : VSlot) (s : State),
    isLantern s = true ∧
    s.vlk.slots.find? (·.polled) = some x ∧
    slotAt x.k s = some x ∧
    f.hcrcOk = true ∧
    toOwn f s = true ∧
    f.src = candleId x.k s ∧
    f.authOk = true ∧
    f.inverted = false ∧
    seqFresh (if x.seen.isEmpty then none else some x.lastSeq) x.seen f.seq = true ∧
    f.items = [] :=
  ⟨{ wFrame with dst := 0, src := 0 },
   { wSlot with polled := true },
   setFld .vlkCfg 0 0 31 31 1 ({ wOn with sys := { wOn.sys with pers := .lantern }, vlk := { wOn.vlk with root := true, slots := [{ wSlot with polled := true }] } }),
   by decide +kernel,
   by decide +kernel,
   by decide +kernel,
   by decide +kernel,
   by decide +kernel,
   by decide +kernel,
   by decide +kernel,
   by decide +kernel,
   by decide +kernel,
   by decide +kernel⟩

theorem wit_pollMissed : ∃ (x : VSlot) (s : State),
    isLantern s = true ∧
    s.vlk.slots.find? (·.polled) = some x :=
  ⟨{ wSlot with polled := true },
   setFld .vlkCfg 0 0 31 31 1 ({ wOn with sys := { wOn.sys with pers := .lantern }, vlk := { wOn.vlk with root := true, slots := [{ wSlot with polled := true }] } }),
   by decide +kernel,
   by decide +kernel⟩

theorem wit_imageReceive : ∃ (f : VFrame) (ident chunk chunks : Nat) (bytes : List Byte) (s : State),
    candleRuns s = true ∧
    s.vlk.enr = true ∧
    f.hcrcOk = true ∧
    toOwn f s = true ∧
    f.authOk = true ∧
    seqFresh s.vlk.rxSeg s.vlk.seenSeg f.seq = true ∧
    f.inverted = false ∧
    reg .imgbase 0 0 s ≠ 0 ∧
    chunk < chunks :=
  ⟨{ wFrame with bcast := true },
   0,
   0,
   1,
   [],
   setReg .imgbase 0 0 1 (setFld .vlkCfg 0 0 31 31 1 ({ wOn with vlk := { wOn.vlk with enr := true } })),
   by decide +kernel,
   by decide +kernel,
   by decide +kernel,
   by decide +kernel,
   by decide +kernel,
   by decide +kernel,
   by decide +kernel,
   by decide +kernel,
   by decide +kernel⟩

theorem wit_vlkWake : ∃ (ones periods : Nat) (env : BootEnv) (s : State),
    200 ≤ ones ∧
    s.sys.pers ≠ .factory ∧
    (s.sys.pers = .lantern → s.vlk.root = false) ∧
    s.pwr.state = .dim ∧
    s.pwr.phase = .settled ∧
    s.pwr.active = 0 ∧
    0x10 &&& wakeEnabled s ≠ 0 :=
  ⟨200,
   0,
   wEnv,
   setFld .wakeen 0 0 6 0 0x10 ({ wOn with pwr := { wOn.pwr with state := .dim, phase := .settled, active := 0 } }),
   by decide +kernel,
   by decide +kernel,
   by decide +kernel,
   by decide +kernel,
   by decide +kernel,
   by decide +kernel,
   by decide +kernel⟩

theorem wit_leaseRenewalRequest : ∃ (i : Nat) (s : State),
    s.vlk.renewAt = some i ∧
    candleRuns s = true :=
  ⟨0,
   setFld .vlkCfg 0 0 31 31 1 ({ wOn with vlk := { wOn.vlk with renewAt := some (0) } }),
   by decide +kernel,
   by decide +kernel⟩

theorem wit_leaseExpiry : ∃ (s : State),
    s.llt.leaseValid = true ∧
    s.vlk.window = none :=
  ⟨{ wOn with llt := { wOn.llt with leaseValid := true }, vlk := { wOn.vlk with window := none } },
   by decide +kernel,
   by decide +kernel⟩

theorem wit_quietPeriodEnd : ∃ (i : Nat) (s : State),
    s.vlk.quietEnd = some i :=
  ⟨0,
   { wOn with vlk := { wOn.vlk with quietEnd := some (0) } },
   by decide +kernel⟩

theorem wit_orphanBackoffEnd : ∃ (i : Nat) (s : State),
    s.vlk.backoff = some i ∧
    candleRuns (advanceTo (i * 1000) s) = true ∧
    (advanceTo (i * 1000) s).llt.leaseValid = false ∧
    fld .orphanSpinup 0 0 31 31 (advanceTo (i * 1000) s) = 1 :=
  ⟨0,
   setFld .vlkCfg 0 0 31 31 1 (setFld .orphanSpinup 0 0 31 31 1 ({ wOn with vlk := { wOn.vlk with backoff := some (0) } })),
   by decide +kernel,
   by decide +kernel,
   by decide +kernel,
   by decide +kernel⟩

theorem wit_orphanWindowEnd : ∃ (i : Nat) (s : State),
    s.vlk.window = some i :=
  ⟨0,
   { wOn with vlk := { wOn.vlk with window := some (0) } },
   by decide +kernel⟩

theorem wit_segmentKeyRotation : ∃ (s : State),
    isLantern s = true ∧
    s.vlk.keyNew = none ∧
    2 ^ 30 ≤ s.vlk.segFrames :=
  ⟨{ (setFld .vlkCfg 0 0 31 31 1 ({ wOn with sys := { wOn.sys with pers := .lantern }, vlk := { wOn.vlk with root := true, keyNew := none } })) with vlk := { ((setFld .vlkCfg 0 0 31 31 1 ({ wOn with sys := { wOn.sys with pers := .lantern }, vlk := { wOn.vlk with root := true, keyNew := none } }))).vlk with segFrames := 2 ^ 30 } },
   by decide +kernel,
   by decide +kernel,
   by decide +kernel⟩

theorem wit_vlkCmdWake : ∃ (m : Master) (k : Fin 64) (x : VSlot) (s : State),
    Reach .vlk 0 s ∧
    slotAt k s = some x ∧
    isLantern s = true ∧
    mayTransmit 1 s = true ∧
    x.state = .dormant :=
  ⟨.core (.a 0),
   0,
   { wSlot with state := .dormant },
   setFld .vlkCfg 0 0 31 31 1 ({ wOn with vlk := { wOn.vlk with slots := [{ wSlot with state := .dormant }], root := true }, sys := { wOn.sys with pers := .lantern } }),
   by refine ⟨?_, ?_, ?_⟩ <;> decide,
   by decide +kernel,
   by decide +kernel,
   by decide +kernel,
   by decide +kernel⟩

theorem wit_vlkCmdWakeAwake : ∃ (m : Master) (k : Fin 64) (x : VSlot) (s : State),
    Reach .vlk 0 s ∧
    slotAt k s = some x ∧
    x.state ≠ .dormant :=
  ⟨.core (.a 0),
   0,
   wSlot,
   { wOn with vlk := { wOn.vlk with slots := [wSlot] } },
   by refine ⟨?_, ?_, ?_⟩ <;> decide,
   by decide +kernel,
   by decide +kernel⟩

theorem wit_vlkCmdAttreq : ∃ (m : Master) (k : Fin 64) (s : State),
    Reach .vlk 0 s ∧
    (slotAt k s).isSome = true :=
  ⟨.core (.a 0),
   0,
   { (wOn) with vlk := { ((wOn)).vlk with slots := [wSlot] } },
   by refine ⟨?_, ?_, ?_⟩ <;> decide,
   by decide +kernel⟩

theorem wit_vlkCmdRemove : ∃ (m : Master) (k : Fin 64) (x : VSlot) (s : State),
    Reach .vlk 0 s ∧
    slotAt k s = some x ∧
    grantsOver x s = true ∧
    EventRoom s :=
  ⟨.core (.a 0),
   0,
   wSlot,
   { wOn with vlk := { wOn.vlk with slots := [wSlot] } },
   by refine ⟨?_, ?_, ?_⟩ <;> decide,
   by decide +kernel,
   by decide +kernel,
   by unfold EventRoom; decide⟩

theorem wit_imageFanout : ∃ (m : Master) (v : Word) (s : State),
    Reach .vlk 0 s ∧
    Rising s.regs ∧
    isLantern s = true :=
  ⟨.core (.a 0),
   (0 : Word),
   setFld .vlkCfg 0 0 31 31 1 ({ wOn with sys := { wOn.sys with pers := .lantern }, vlk := { wOn.vlk with root := true } }),
   by refine ⟨?_, ?_, ?_⟩ <;> decide,
   by first | exact True.intro | (repeat first | exact True.intro | apply rising_setFld),
   by decide +kernel⟩

theorem wit_linkOpen : ∃ (s : State),
    candleRuns s = true ∧
    s.vlk.upOpen = false :=
  ⟨setFld .vlkCfg 0 0 31 31 1 ({ wOn with vlk := { wOn.vlk with upOpen := false } }),
   by decide +kernel,
   by decide +kernel⟩

theorem wit_linkShort : ∃ (port : Fin 2) (s : State),
    (if port = 0 then candleRuns s else isLantern s) = true ∧
    mayTransmit port s = true :=
  ⟨0,
   setFld .vlkCfg 0 0 31 31 1 (wOn),
   by decide +kernel,
   by decide +kernel⟩

theorem wit_linkRetry : ∃ (port : Fin 2) (i : Nat) (s : State),
    s.vlk.stopUntil[port] = some i :=
  ⟨0,
   0,
   { wOn with vlk := { wOn.vlk with stopUntil := #v[some 0, none] } },
   by decide +kernel⟩

theorem wit_segmentGrantExpiry : ∃ (k : Fin 64) (x : VSlot) (s : State),
    slotAt k s = some x ∧
    grantsOver x s = false ∧
    x.removing = false ∧
    now s < x.expiry ∧
    x.older = [] :=
  ⟨0,
   { wSlot with expiry := 10 },
   { wOn with vlk := { wOn.vlk with slots := [{ wSlot with expiry := 10 }] } },
   by decide +kernel,
   by decide +kernel,
   by decide +kernel,
   by decide +kernel,
   by decide +kernel⟩

theorem wit_fleetAuthorizationExpiry : ∃ (i : Nat) (s : State),
    s.vlk.authExp = some i :=
  ⟨0,
   { wOn with vlk := { wOn.vlk with authExp := some (0) } },
   by decide +kernel⟩

theorem wit_sectorStart : ∃ (n : Fin 4) (s : State),
    rwcLive n s = true ∧
    s.asq[n].avalid = true ∧
    s.rwc[n].inSector = false :=
  ⟨0,
   State.modAsq 0 (fun x => { x with avalid := true }) (State.modRwc 0 (fun x => { x with inSector := false }) (wOn)),
   by decide +kernel,
   by decide +kernel,
   by decide +kernel⟩

theorem wit_sectorEnd : ∃ (n : Fin 4) (s : State),
    rwcLive n s = true ∧
    s.rwc[n].inSector = true :=
  ⟨0,
   State.modRwc 0 (fun x => { x with inSector := true }) (wOn),
   by decide +kernel,
   by decide +kernel⟩

theorem wit_wedgeGap : ∃ (n : Fin 4) (crossing : Bool) (s : State),
    rwcLive n s = true ∧
    s.rwc[n].inGap = false :=
  ⟨0,
   false,
   State.modRwc 0 (fun x => { x with inGap := false }) (wOn),
   by decide +kernel,
   by decide +kernel⟩

theorem wit_defectSpanEnd : ∃ (n : Fin 4) (bits_ track : Nat) (s : State),
    rwcLive n s = true ∧
    s.rwc[n].inDefect = true ∧
    bits_ ≤ 4096 :=
  ⟨0,
   0,
   0,
   State.modRwc 0 (fun x => { x with inDefect := true }) (wOn),
   by decide +kernel,
   by decide +kernel,
   by decide +kernel⟩

theorem wit_wickCriticalLimit : ∃ (temp : Int) (s : State),
    s.sys.aux = true ∧
    pdOn 2 s = false ∧
    s.pwr.state ≠ .dark ∧
    criticalTemp ≤ temp ∧
    s.rvr.commit = false ∧
    anyLoaded s = false :=
  ⟨500,
   { wOn with pwr := { wOn.pwr with pd := Vector.replicate 22 .off }, sys := { wOn.sys with aux := true } },
   by decide +kernel,
   by decide +kernel,
   by decide +kernel,
   by decide +kernel,
   by decide +kernel,
   by decide +kernel⟩

theorem wit_pprDone : ∃ (res : Fin 5) (p : PprReq) (s : State),
    (hdrOf .dmc 0 s).freeze = false ∧
    s.dmc.ppr = some p :=
  ⟨0,
   wPpr,
   { wOn with dmc := { wOn.dmc with ppr := some (wPpr) } },
   by decide +kernel,
   by decide +kernel⟩

theorem wit_blockIdentity : ∃ (m : Master) (h : Fin 77) (v : BitVec 64) (s : State) (b : Blk) (n : Nat),
    hdrBlk h = (b, n) ∧
    Reach b n s ∧
    Reach .sys 0 s :=
  ⟨.core (.a 0),
   0,
   0,
   wOn,
   .sys,
   0,
   by decide +kernel,
   by refine ⟨?_, ?_, ?_⟩ <;> decide,
   by refine ⟨?_, ?_, ?_⟩ <;> decide⟩

theorem wit_securityRom : ∃ (m : Master) (a : BitVec 40) (wr : Bool) (bytes : Nat) (v : BitVec 64) (s : State),
    m ≠ .core .sec ∧
    pdOn 2 s = true ∧
    a.toNat + busSize bytes ≤ 0x40000 ∧
    EventRoom s :=
  ⟨.core (.a 0),
   0,
   false,
   0,
   0,
   wOn,
   by decide +kernel,
   by decide +kernel,
   by decide +kernel,
   by unfold EventRoom; decide⟩

theorem wit_storeWord : ∃ (m : Master) (a : Fin 65536) (j : Fin 4) (v : BitVec 64) (s : State),
    pdOn 2 s = true ∧
    pdOn 13 s = true :=
  ⟨.core (.a 0),
   0,
   0,
   0,
   wOn,
   by decide +kernel,
   by decide +kernel⟩

theorem wit_storeGap : ∃ (m : Master) (a : Nat) (j : Fin 4) (v : BitVec 64) (s : State),
    pdOn 2 s = true ∧
    pdOn 13 s = true ∧
    (0x8800 ≤ a ∧ a ≤ 0xBFFF ∨ 0xD000 ≤ a ∧ a ≤ 0xFFFF) :=
  ⟨.core (.a 0),
   0x8800,
   0,
   0,
   wOn,
   by decide +kernel,
   by decide +kernel,
   by decide +kernel⟩

theorem wit_gatedPage : ∃ (m : Master) (a : BitVec 40) (wr : Bool) (bytes : Nat) (v : BitVec 64) (s : State) (b : Blk) (n : Nat),
    pdOn 2 s = true ∧
    0x40000000 ≤ a.toNat ∧
    a.toNat + busSize bytes ≤ 0x41000000 ∧
    blockAt a.toNat = some (b, n) ∧
    fused b n s = false ∧
    pdOn (pdOf b n) s = false :=
  ⟨.core (.a 0),
   0x40050000,
   false,
   0,
   0,
   wOff 10,
   .lgr,
   0,
   by decide +kernel,
   by decide +kernel,
   by decide +kernel,
   by decide +kernel,
   by decide +kernel,
   by decide +kernel⟩

theorem wit_gatedSram : ∃ (m : Master) (a : BitVec 40) (wr : Bool) (bytes : Nat) (v : BitVec 64) (s : State),
    pdOn 2 s = true ∧
    0x20000000 ≤ a.toNat ∧
    a.toNat + busSize bytes ≤ 0x20800000 ∧
    pdOn 7 s = false :=
  ⟨.core (.a 0),
   0x20000000,
   false,
   0,
   0,
   wOff 7,
   by decide +kernel,
   by decide +kernel,
   by decide +kernel,
   by decide +kernel⟩

theorem wit_gatedDdr : ∃ (m : Master) (a : BitVec 40) (wr : Bool) (bytes : Nat) (v : BitVec 64) (s : State),
    pdOn 2 s = true ∧
    ddrBase ≤ a.toNat ∧
    a.toNat + busSize bytes ≤ ddrBase + installedBytes s ∧
    pdOn 12 s = false :=
  ⟨.core (.a 0),
   0x100000000,
   false,
   0,
   0,
   wOff 12,
   by decide +kernel,
   by decide +kernel,
   by decide +kernel,
   by decide +kernel⟩

theorem wit_gatedStore : ∃ (m : Master) (a : BitVec 40) (wr : Bool) (bytes : Nat) (v : BitVec 64) (s : State),
    pdOn 2 s = true ∧
    0x50000000 ≤ a.toNat ∧
    a.toNat + busSize bytes ≤ 0x50100000 ∧
    pdOn 13 s = false :=
  ⟨.core (.a 0),
   0x50000000,
   false,
   0,
   0,
   wOff 13,
   by decide +kernel,
   by decide +kernel,
   by decide +kernel,
   by decide +kernel⟩

theorem wit_gatedSecurityRom : ∃ (a : BitVec 40) (wr : Bool) (bytes : Nat) (v : BitVec 64) (s : State),
    pdOn 2 s = true ∧
    a.toNat + busSize bytes ≤ 0x40000 ∧
    pdOn 1 s = false :=
  ⟨0,
   false,
   0,
   0,
   wOff 1,
   by decide +kernel,
   by decide +kernel,
   by decide +kernel⟩

theorem wit_gateChannel : ∃ (m : Master) (n : Fin 4) (s : State),
    Reach .wck 0 s ∧
    Rising s.regs ∧
    windowOpen .wck 0 s = true ∧
    s.pwr.state = .lit ∧
    s.pwr.phase = .settled ∧
    s.sys.coreUp = true ∧
    domBusy (14 + n.val) s = false ∧
    domGrant (14 + n.val) s = false :=
  ⟨.core (.a 0),
   0,
   openWindow .wck 0 ({ wOn with pwr := { wOn.pwr with state := .lit, phase := .settled }, sys := { wOn.sys with coreUp := true } }),
   by refine ⟨?_, ?_, ?_⟩ <;> decide,
   by first | exact True.intro | (repeat first | exact True.intro | apply rising_setFld),
   by decide +kernel,
   by decide +kernel,
   by decide +kernel,
   by decide +kernel,
   by decide +kernel,
   by decide +kernel⟩

theorem wit_lowestRegion : ∃ (k : Fin 16) (off : Nat) (s : State),
    HoldsMib k (off / 2 ^ 20) s ∧
    (∀ j : Fin 16, j < k → ¬HoldsMib j (off / 2 ^ 20) s) :=
  ⟨1,
   0,
   setFld .regattr0 0 1 31 31 1 wOn,
   by unfold HoldsMib; decide +kernel,
   by unfold HoldsMib; decide +kernel⟩

theorem wit_noRegion : ∃ (off : Nat) (s : State),
    (∀ j : Fin 16, ¬HoldsMib j (off / 2 ^ 20) s) :=
  ⟨0,
   wOn,
   by unfold HoldsMib; decide +kernel⟩

theorem wit_emptyRegion : ∃ (k : Fin 16) (mib : Nat) (s : State),
    (fld .regattr1 0 k 13 0 s < fld .regattr0 0 k 13 0 s ∨ installedBytes s / 2 ^ 20 ≤ fld .regattr1 0 k 13 0 s) :=
  ⟨0,
   0,
   setFld .regattr0 0 0 13 0 5 wOn,
   by decide +kernel⟩

theorem wit_disabledRead : ∃ (m : Master) (a : BitVec 40) (v : Word) (s : State),
    inDdr (a.toNat / 4 * 4) s = true ∧
    pdOn 12 s = true ∧
    accessWaits (a.toNat / 4 * 4) s = false ∧
    pastL1 m (a.toNat / 4 * 4) s = true ∧
    s.bcc.state = .disabled ∧
    s.dmc.poison = [] ∧
    s.dmc.rawChk = [] :=
  ⟨.core (.a 0),
   0x100000000,
   (0 : Word),
   { wOn with bcc := { wOn.bcc with state := .disabled }, dmc := { wOn.dmc with poison := [], rawChk := [] } },
   by decide +kernel,
   by decide +kernel,
   by decide +kernel,
   by decide +kernel,
   by decide +kernel,
   by decide +kernel,
   by decide +kernel⟩

theorem wit_disabledWrite : ∃ (m : Master) (a : BitVec 40) (v : Word) (s : State),
    inDdr (a.toNat / 4 * 4) s = true ∧
    pdOn 12 s = true ∧
    accessWaits (a.toNat / 4 * 4) s = false ∧
    pastL1 m (a.toNat / 4 * 4) s = true ∧
    s.bcc.state = .disabled ∧
    Rising s.mem :=
  ⟨.core (.a 0),
   0x100000000,
   (0 : Word),
   { wOn with bcc := { wOn.bcc with state := .disabled } },
   by decide +kernel,
   by decide +kernel,
   by decide +kernel,
   by decide +kernel,
   by decide +kernel,
   by first | exact True.intro | (repeat first | exact True.intro | apply rising_setFld)⟩

theorem wit_svnOthers : ∃ (s t : State),
    step s = .next t ∧
    (∀ count rest, s.pending ≠ .svnCommit count :: rest) :=
  ⟨wOn,
   idle wOn,
   by rfl,
   by exact fun _ _ h => nomatch h⟩

theorem wit_svnBound : ∃ (count : Nat) (s t : State),
    exec (.svnCommit count) s = .next t :=
  ⟨0,
   wOn,
   after wOn (exec (.svnCommit 0) wOn),
   by exact exec_next _ _⟩

theorem wit_svnRises : ∃ (count : Nat) (s : State),
    secRuns s = true ∧
    s.sec.mbDone = true ∧
    s.sec.svn < count ∧
    count ≤ s.sec.imgSvn ∧
    count ≤ 64 ∧
    EventRoom s :=
  ⟨1,
   { ({ wOn with sec := { wOn.sec with mbDone := true } }) with sec := { (({ wOn with sec := { wOn.sec with mbDone := true } })).sec with imgSvn := 1 } },
   by decide +kernel,
   by decide +kernel,
   by decide +kernel,
   by decide +kernel,
   by decide +kernel,
   by unfold EventRoom; decide⟩

theorem wit_svnExhausted : ∃ (count : Nat) (s : State),
    secRuns s = true ∧
    s.sec.mbDone = true ∧
    64 ≤ s.sec.svn ∧
    EventRoom s :=
  ⟨0,
   { ({ wOn with sec := { wOn.sec with mbDone := true } }) with sec := { (({ wOn with sec := { wOn.sec with mbDone := true } })).sec with svn := 64 } },
   by decide +kernel,
   by decide +kernel,
   by decide +kernel,
   by unfold EventRoom; decide⟩

theorem wit_svnLast : ∃ (typ : Nat) (img : BootImage) (s : State),
    img.svn = 64 ∧
    s.sec.svn ≤ 64 :=
  ⟨0,
   { wImg with svn := 64 },
   wOn,
   by decide +kernel,
   by decide +kernel⟩

theorem wit_svnMicrocode : ∃ (img : McObj) (s : State),
    secRuns s = true ∧
    s.sec.mbDone = true ∧
    s.cst.staged = none ∧
    img.magic = 0x4D435031 ∧
    img.format = 1 ∧
    (img.kind == 1 || img.kind == 2) = true ∧
    img.keyId = img.sig.key % 2 ^ 64 ∧
    (if img.opn then ownerSigned img.sig s else umwynSigned 1 img.sig s) = true ∧
    img.svn < s.sec.svn :=
  ⟨{ wMcObj with kind := 2 },
   { ({ wOn with sec := { wOn.sec with mbDone := true }, cst := { wOn.cst with staged := none } }) with sec := { (({ wOn with sec := { wOn.sec with mbDone := true }, cst := { wOn.cst with staged := none } })).sec with svn := 1, okey := #v[some (7, false), none, none, none] } },
   by decide +kernel,
   by decide +kernel,
   by decide +kernel,
   by decide +kernel,
   by decide +kernel,
   by decide +kernel,
   by decide +kernel,
   by decide +kernel,
   by decide +kernel⟩

end Sys2Proof.Machine
end

section
/-! The register conventions (02_register_conventions.md). -/

namespace Sys2Proof.Machine

/-- Settles O13. The word at offset 0 of a page that answers is composed from the block type, the instance and the one
design revision of the drive (R31), none of them state, so its fields are facts about the block page index alone; SYS_ID
is the same word for header source 0. -/
theorem blockIdentitiesRead : Obligations.BlockIdentitiesRead := by
  unfold Obligations.BlockIdentitiesRead
  exact completes_blockIdentity

end Sys2Proof.Machine
end

section
/-! Power domains (04_power_wick_lamplighter.md): accesses to what is gated or off. -/

namespace Sys2Proof.Machine

/-- Settles O15. Each of the five windows of the map (register pages, system SRAM, DDR5, control store, security ROM) asks
its own domain before it carries an access out and, with the domain not on, answers by the one refusal of R69: SYS records
0x0E20 with bits 31:0 of the address, and the data read are 0. A write of WCK_PDOFF in settled LIT sets
the bit of an idle channel domain, and the power table of LIT then has that domain off. -/
theorem gatedDomainsAnswerZero : Obligations.GatedDomainsAnswerZero := by
  unfold Obligations.GatedDomainsAnswerZero
  exact ⟨completes_gatedPage, completes_gatedSram, completes_gatedDdr, completes_gatedStore, completes_gatedSecurityRom,
    completes_gateChannel⟩

end Sys2Proof.Machine
end

section
/-! Memory and buffer cache (14_memory_and_buffer_cache.md): the region attributes of a DDR5 address. -/

namespace Sys2Proof.Machine

/-- Settles O14. All attributes of an address are looked up through one search, `regionOf`, which takes the first of the
sixteen entries that holds its MiB (R318); a line never straddles a MiB, so the scrub (R324) and DMC_INIT (R98), which ask
at the start of the line or of the MiB, are led to the same entry. With no entry found each attribute falls back to
STRONG, policy 0 and scrubbed; an entry with LIMIT below BASE or above the installed size fails the search's own test. -/
theorem addressesTakeRegionAttributes : Obligations.AddressesTakeRegionAttributes := by
  unfold Obligations.AddressesTakeRegionAttributes
  exact ⟨completes_lowestRegion, completes_noRegion, completes_emptyRegion⟩

end Sys2Proof.Machine
end

section
/-! Security (15_security.md): the SVN fuse count. -/

namespace Sys2Proof.Machine

/-- Settles O12. `svn_exec` carries the count through every other command, the resets included (`secAfter` copies the fuses),
and `svn_idle` through the idle step. SVN_COMMIT asks for the blown 64 first, then for the image's SVN, and only then whether
the count named is greater; the one branch that blows fuses is thus the one that meets the bounds of R344, and its event
finds room in EVR's queue even after the 0x0B72 of a retried fuse (the retry succeeds, log 189). No count above 64 makes the
last image too old. In the order of R190's checks the SVN stands third, so an image that passes the form and the signature
is refused for reason 2, which the mailbox answers by RES 4 (log 116). -/
theorem svnFusesRiseOnlyAtCommit : Obligations.SvnFusesRiseOnlyAtCommit := by
  unfold Obligations.SvnFusesRiseOnlyAtCommit
  exact ⟨completes_svnOthers, completes_svnBound, completes_svnRises, completes_svnExhausted, completes_svnLast,
    completes_svnMicrocode⟩

end Sys2Proof.Machine
end

section
/-! Steps (00_scope.md): what one step runs, and what every step keeps. -/

namespace Sys2Proof.Machine

/-- A command at the front of the queue is what a step runs, on the queue's rest. -/
theorem step_of_front {c : Instr} {rest : List Instr} {s : State} (h : s.pending = c :: rest) :
    step s = exec c { s with pending := rest } := by
  rw [step, h]

/-- A step on an empty queue is the idle step. -/
theorem step_of_empty {s : State} (h : s.pending = []) : step s = .next (idle s) := by
  rw [step, h]

/-- What the idle step, every command and a change of the queue alone each keep, every step keeps. -/
theorem step_keeps {P : State → Prop} (queue : ∀ s rest, P s → P { s with pending := rest })
    (idles : ∀ s, P s → P (idle s)) (execs : ∀ i s, P s → P (after s (exec i s)))
    {s t : State} (hs : P s) (h : step s = .next t) : P t := by
  cases e : s.pending with
  | nil =>
    rw [step_of_empty e] at h
    cases h
    exact idles s hs
  | cons c rest =>
    rw [step_of_front e] at h
    exact exec_after h ▸ execs c _ (queue s rest hs)

/-- Time passes in the idle step by its millisecond alone: neither the erase before it nor what follows moves the time. -/
theorem idle_us (s : State) : (idle s).us = s.us + 1000 :=
  calc (idle s).us
      _ = (wakeNoted (elapse 1000 (backgroundErase s))).us := frame_autonomousPs (m := 0x186001B9A0) _ .refl rfl .us rfl
      _ = (elapse 1000 (backgroundErase s)).us := frame_wakeNoted (m := 0x1CE00BFFBC) _ .refl rfl .us rfl
      _ = (backgroundErase s).us + 1000 := elapse_us _ _
      _ = s.us + 1000 := congrArg (· + 1000) (frame_backgroundErase (m := 0x42000) _ .refl rfl .us rfl)

/-- The idle step blows no SVN fuse. -/
theorem svn_le_idle (s : State) (h : s.sec.svn ≤ 64) : (idle s).sec.svn ≤ 64 := by
  have kept : (idle s).sec.svn = s.sec.svn := svn_idle s rfl
  exact kept.le.trans h

/-- A command leaves at most 64 SVN fuses blown where no more were: SVN_COMMIT has the bound itself (R344), every other
command keeps the count. -/
theorem svn_le_exec (i : Instr) (s : State) (h : s.sec.svn ≤ 64) : (after s (exec i s)).sec.svn ≤ 64 := by
  by_cases commit : ∃ count, i = .svnCommit count
  · obtain ⟨count, rfl⟩ := commit
    rcases completes_svnBound count s _ (exec_next _ s) with kept | ⟨risen, -, -, bound⟩
    · exact kept.le.trans h
    · exact risen.le.trans bound
  · have kept : (after s (exec i s)).sec.svn = s.sec.svn := svn_exec i s (fun count e => commit ⟨count, e⟩) rfl
    exact kept.le.trans h

/-- Settles O8. A key enters one of the three lists by `sput` alone, which keeps the keys rising and lists no value that an
unlisted key has (`canon_setReg`, `canon_setMemByte`); zeroing and resets only filter the lists. A command that has neither
the register file nor a memory in its frame keeps the forms by that frame (`Canonical.via`). That an unlisted byte reads 0
is log 3. -/
theorem canonicalFormsKept : Obligations.CanonicalFormsKept := by
  unfold Obligations.CanonicalFormsKept
  exact fun _ _ => step_keeps (P := Canonical) (fun _ _ h => h) canon_idle canon_exec

/-- Settles O9. The gates are set to all off, to a short of the brake or to the pattern of a commutation step, and none of
these has both gates of a phase high (`stepGates_safe`). A command that has not the spindle in its frame keeps them by it
(`GatesSafe.via`). -/
theorem gatesNeverBothHigh : Obligations.GatesNeverBothHigh := by
  unfold Obligations.GatesNeverBothHigh
  exact fun _ _ => step_keeps (P := GatesSafe) (fun _ _ h => h) gates_idle gates_exec

/-- Settles O10. LOCK takes its way among 0-11 and moves a line that lies above them (`lockLine`). The invariant holds the
reservations too, since a later fill locks the line in the way that its reservation keeps (`allocWay`). -/
theorem highWaysNeverLocked : Obligations.HighWaysNeverLocked := by
  unfold Obligations.HighWaysNeverLocked
  exact fun _ _ => step_keeps (P := LocksLow) (fun _ _ h => h) locks_idle locks_exec

/-- Settles O11. Of all commands SVN_COMMIT alone moves the count, and it never moves it past 64; the idle step keeps it. -/
theorem svnWithinFuses : Obligations.SvnWithinFuses := by
  unfold Obligations.SvnWithinFuses
  exact fun _ _ => step_keeps (P := fun s => s.sec.svn ≤ 64) (fun _ _ h => h) svn_le_idle svn_le_exec

/-- Settles O1. The queue is the form of the model (log 1). -/
theorem stepRunsFrontCommand : Obligations.StepRunsFrontCommand := by
  unfold Obligations.StepRunsFrontCommand
  exact fun _ _ _ => step_of_front

/-- Settles O2. The idle step is the model's choice (log 1); that it ends a millisecond later needs the frames of the erase
before the passing of time and of the wake and the autonomous transition after it. -/
theorem emptyQueueLetsTimePass : Obligations.EmptyQueueLetsTimePass := by
  unfold Obligations.EmptyQueueLetsTimePass
  exact fun s h => ⟨idle s, step_of_empty h, rfl, idle_us s⟩

end Sys2Proof.Machine
end

section
/-! Frames (00_scope.md, 02_register_conventions.md): what a command leaves as it was. -/

namespace Sys2Proof.Machine

/-- Settles O5. Every meaning answers a next state by computation alone (`exec_next`), and the queue is in no command's frame
(`pending_exec`). That an event whose condition does not hold completes without effect is log 22, and the queue is log 1. -/
theorem everyCommandCompletes : Obligations.EveryCommandCompletes := by
  unfold Obligations.EveryCommandCompletes
  exact fun i s => ⟨after s (exec i s), exec_next i s, pending_exec i s⟩

/-- Settles O6. The frame of each meaning is composed from the frames of the operations that it runs, as bit masks over the
parts; `mayChange` lists the bits of the mask. -/
theorem partsLeftAlone : Obligations.PartsLeftAlone := by
  unfold Obligations.PartsLeftAlone
  exact fun i s _ h => exec_after h ▸ frame_exec i s

/-- Settles O7. A command that has the register file in its frame stores by `setReg` under addresses of the registers named,
and what is read at another address is kept; one that has not keeps every register by its frame. -/
theorem registersLeftAlone : Obligations.RegistersLeftAlone := by
  unfold Obligations.RegistersLeftAlone
  exact fun i s _ named stored h => exec_after h ▸ regs_exec i s named stored

end Sys2Proof.Machine
end

section
/-! The state after reset (02_register_conventions.md, 05_startup_and_reset.md), and the pins while the core domain is in
reset (03_package_and_signals.md). -/

namespace Sys2Proof.Machine

/-- In core reset no PCIe link drives its lanes. -/
theorem linkDrives_coreReset {s : State} (p : Nat) (h : s.sys.coreUp = false) : linkDrives p s = false := by
  rw [linkDrives, h, Bool.false_and, Bool.false_and, Bool.false_and]

/-- In core reset no power domain drives its pins. -/
theorem pinsOn_coreReset {s : State} (d : Nat) (h : s.sys.coreUp = false) : pinsOn d s = false := by
  rw [pinsOn, h, Bool.false_and]

/-- In core reset no channel drives its pins. -/
theorem chanPins_coreReset {s : State} (n : Fin 4) (h : s.sys.coreUp = false) : chanPins n s = false := by
  rw [chanPins, h, Bool.false_and, Bool.false_and, Bool.false_and]

/-- Whatever drives a pin asks for the core domain first, so that in core reset the other level of `pinLevel` shows. -/
theorem pinLevel_coreReset {s : State} (p : Pin) (h : s.sys.coreUp = false) : pinLevel p s = resetLevel p := by
  cases p <;>
    simp [pinLevel, resetLevel, levelOf, h, linkDrives_coreReset, pinsOn_coreReset, chanPins_coreReset]

/-- Settles O3. The register file lists no register at reset, and an unlisted one reads its reset value; the 77 headers are
the clear one. -/
theorem resetValues : Obligations.ResetValues := by
  unfold Obligations.ResetValues
  refine ⟨fun _ _ _ => rfl, ?_, rfl, rfl, rfl, rfl, rfl, rfl, rfl⟩
  decide +kernel

/-- Settles O4. The lists are empty at reset, no gate is driven, no line is held and no SVN fuse is blown: the base on which
the invariants of O8 to O11 stand. -/
theorem resetMeetsInvariants : Obligations.ResetMeetsInvariants := by
  unfold Obligations.ResetMeetsInvariants
  have gates : ∀ p : Fin 3, ((0 : Nat).testBit (2 * p.val) && (0 : Nat).testBit (2 * p.val + 1)) = false := by decide
  have locks : LocksLow State.reset := fun _ held => nomatch held
  exact ⟨⟨rfl, rfl, trivial⟩, gates, locks, Nat.zero_le 64⟩

/-- Settles O43. A pin of an idle channel or of PD13 gated loses the one conjunct of its level that asks for the domain.
The levels that the tables do not name are log 191. -/
theorem pinsInReset : Obligations.PinsInReset := by
  unfold Obligations.PinsInReset
  refine ⟨fun p _ => pinLevel_coreReset p, fun n s idle => ?_, fun k s gated => ?_⟩
  · simp [pinLevel, levelOf, idle]
  · simp [pinLevel, levelOf, pinsOn, gated]

end Sys2Proof.Machine
end


section
/-! Security ROM and control store window (02_register_conventions.md), and the disabled buffer cache
(14_memory_and_buffer_cache.md). -/

namespace Sys2Proof.Machine

/-- Settles O16. `busOp` sends both windows to handlers of their own. The ROM's asks for the security core before anything
else, so every other master gets the bus error, and 0x0B01 enters the queue ahead of what a DMA engine's error adds to it.
The store window reads the double word of address and successor and shifts it by the offset within the word, so a read
that stays inside word `a` sees its bits alone; the two gaps are outside the three ranges of `storeWord`, which answers
nothing there. -/
theorem securityRomAndStoreWindow : Obligations.SecurityRomAndStoreWindow := by
  unfold Obligations.SecurityRomAndStoreWindow
  exact ⟨completes_securityRom, completes_storeWord, completes_storeGap⟩

/-- Settles O17. `bccPass` holds while BCC is DISABLED, and then the access is one of DMC on the bytes themselves: BCC is
not consulted. With nothing poisoned a read finds the bytes good. A write past the L1 caches changes at most their copies
before it reaches DMC (`ddrTake_write`), and the bytes outside the word keep their values by the frame of `memWrite`. -/
theorem disabledBufferCachePassesAccesses : Obligations.DisabledBufferCachePassesAccesses := by
  unfold Obligations.DisabledBufferCachePassesAccesses
  exact ⟨completes_disabledRead, completes_disabledWrite⟩

end Sys2Proof.Machine
end

section
/-! Register pages, headers, core caches and the interrupt router (01_architecture.md, 02_register_conventions.md). -/

namespace Sys2Proof.Machine

/-- Settles O18. An access that reaches a block is `useWindow` after what its register does (`access_reach`), and for a
plain register `storeFields` alone: the bits of the writable mask are taken from the operand and the others kept. The
header commands change one entry of the header vector, and the events they record touch interrupt status and no other
field of it. That a window with REMAIN 1 closes by GUARD_WINDOW_EXHAUSTED is log 154, and that IRQ_SET stores 32 bits is
log 192. -/
theorem pageCommandsComplete : Obligations.PageCommandsComplete := by
  unfold Obligations.PageCommandsComplete
  exact ⟨completes_regWritePage, completes_regWriteCsr, completes_busUnlisted, completes_busSramRead,
    completes_busSramWrite, completes_guardRight, completes_guardWrong, completes_guardWindowExhausted,
    completes_softReset, completes_softResetComplete, completes_freezeOn, completes_errClear, completes_irqSetWrite⟩

/-- Settles O19. Each L1 command is a filter or a map over the list of lines by core and line number, so that what it
removes or cleans is read off the list; a dirty line below DDR5 goes to `memWrite`, whose read-back and frame give the
clauses on memory. The router's lists change by `insertNat` and `filter`. The two routes differ in the master that
IRQ_ROUTE asks for before it stores. -/
theorem coreCommandsComplete : Obligations.CoreCommandsComplete := by
  unfold Obligations.CoreCommandsComplete
  exact ⟨completes_allcln, completes_l1CleanState, completes_l1CleanMemory, completes_l1Invalidate,
    completes_l1CleanAndInvalidate, completes_l1NoOperation, completes_irqTake, completes_irqTakeNone, completes_uirqdone,
    completes_irqRouteSec, completes_irqRouteOther, completes_irqSwset, completes_twinRead, completes_twinWrite⟩

end Sys2Proof.Machine
end

section
/-! Start-up and reset (03_package_and_signals.md, 05_startup_and_reset.md). -/

namespace Sys2Proof.Machine

/-- Settles O20. POR is one record of fresh parts in which the register file is filtered to the addresses it keeps, so
that any other register reads its reset value (`reg_filtered`). A cold start ends with the core domain up whatever it
meets on the way (`coldStart_up`), an image starts by `startImage_spec`, and a command of one port leaves the other
controller (`modCtrl_other`). With no access held, the end of DMC_INIT and its mark release nothing (`releaseHeld_nil`;
log 162). The times rest on log 23, the empty memory on log 3, the answer of a configuration request on log 109 and the
rail numbers on log 196. -/
theorem startupCommandsComplete : Obligations.StartupCommandsComplete := by
  unfold Obligations.StartupCommandsComplete
  exact ⟨completes_por, completes_xo32kQualified, completes_xo32kLate, completes_xo32kFailStart, completes_xo32kFailLater,
    completes_xo40Fail, completes_mainRailsGood, completes_railFault, completes_uartRecoveryImage,
    completes_perstDeassert, completes_perstAssert, completes_configRequest, completes_dmcInitGo, completes_dmcInitDone,
    completes_dmcInitHeldAccess, completes_readySet, completes_readyClr, completes_controllerEnable⟩

/-- Settles O21. Every reset of a controller runs `stopController`, which clears EN and RDY and keeps the link
(`stopController_link`); FLR and a loss of the link are one meaning, which trains the link again (`linkReset_link`). The
three resets of the core domain set their sequence and then only run steps that keep it (`KeepSeq_resetSteps`), the hold
takes the core domain down by `coreReset`, and its release is the cold start (`coldStart_up`). The time of the watchdog's
period is log 23. -/
theorem resetCommandsComplete : Obligations.ResetCommandsComplete := by
  unfold Obligations.ResetCommandsComplete
  exact ⟨completes_controllerReset, completes_functionLevelReset, completes_linkDown, completes_namespaceReady,
    completes_resetNAssert, completes_coreDomainHold, completes_resetNRelease, completes_nvmSubsystemReset,
    completes_watchdogEnable, completes_watchdogKick, completes_watchdogPeriod, completes_watchdogReset⟩

end Sys2Proof.Machine
end

section
/-! Power states, clocks and leaves (04_power_wick_lamplighter.md, 16_thermal_and_calibration.md). -/

namespace Sys2Proof.Machine

/-- Settles O22. A request of a power state is refused by the first row of R76 that blocks it, and what comes after an
accepted one keeps the power part (`KeepPwr_psEntered`, `powerLit_pwr`). The loss sequence runs many operations of other
blocks; `KeepLoss` says of each that it leaves the loss and the rails as they are. A wake in its own step is log 168, and
the 10 ms of PS_ENTRY_RESTART are logs 23 and 91. -/
theorem powerCommandsComplete : Obligations.PowerCommandsComplete := by
  unfold Obligations.PowerCommandsComplete
  exact ⟨completes_powerLoss, completes_preqGoRefused, completes_preqGo, completes_powerStateEnteredLit,
    completes_powerStateEnteredDim, completes_powerStateEnteredGlow, completes_powerStateEnteredDark,
    completes_pdoffWrite, completes_wakeSource, completes_clkDomWrite, completes_clkDomWriteRefused, completes_pllLocked,
    completes_pllLockLoss, completes_psEntryRestart, completes_shutdownDimEntry⟩

/-- Settles O23. A GO with no answer outstanding is answered in its own step (`leaveGo_free`; logs 23 and 24), and one
that finds an answer outstanding changes nothing but the event. What frees a ticket also walks the queue, which grants
queued tickets and makes none, so a number that is gone stays gone (`freeTicket_gone`, `walkQueue_gone`). The ceiling's
new value is set before the walk, and the walk keeps it. -/
theorem leaveCommandsComplete : Obligations.LeaveCommandsComplete := by
  unfold Obligations.LeaveCommandsComplete
  exact ⟨completes_leaveRequestDenied, completes_leaveRequest, completes_leaveRequestAwaits,
    completes_leaveRequestIgnored, completes_leaveRelease, completes_leaveRenew, completes_leaveExpiry,
    completes_drawAfterExpiry, completes_leaveDeadline, completes_thermalCeilingLower, completes_thermalCeilingRaise⟩

end Sys2Proof.Machine
end

section
/-! Host queues and commands (06_host_commands.md, 07_ordering_and_coherence.md). -/

namespace Sys2Proof.Machine

/-- Settles O24. The doorbells and the posting of a completion change one queue of one controller by its identifier, and
the identifiers are kept, so that the search finds the same queue changed. What ends a command goes through `finish`,
which marks the tag's command and no other (`done_finish`); every operation between the search for the command and
`finish` keeps the tags. The time and the status of a recovery limit are logs 23 and 107. -/
theorem queueCommandsComplete : Obligations.QueueCommandsComplete := by
  unfold Obligations.QueueCommandsComplete
  exact ⟨completes_sqTailDoorbell, completes_cqHeadDoorbell, completes_commandFetch, completes_fetchPauseEnd,
    completes_writeTransferStart, completes_dataTransferComplete, completes_hostMemoryError, completes_completionPost,
    completes_interruptCoalescingTimeout, completes_recoveryTimeLimitExpiry, completes_abortMatch⟩

/-- Settles O25. A ready command opens `withCmd` (`withCmd_ready`). READ, COMPARE and VERIFY share `readCmd`, whose three
ways out are the three lemmas `readCmd_good`, `readCmd_lost` and `readCmd_pi`, exclusive by their conditions: each hands
the continuation a state with the same tags, from which the statuses follow. Which sectors count as lost is log 106. -/
theorem readWriteCommandsComplete : Obligations.ReadWriteCommandsComplete := by
  unfold Obligations.ReadWriteCommandsComplete
  exact ⟨completes_read, completes_readUnrecovered, completes_readPi, completes_write, completes_zoneAppend,
    completes_flush, completes_compare, completes_compareUnrecovered, completes_comparePi, completes_verify,
    completes_verifyUnrecovered, completes_verifyPi, completes_writeUncorrectable, completes_writeZeroes,
    completes_datasetManagement⟩

/-- Settles O26. A reservation command maps the namespaces by identifier, and `finish` keeps the namespaces; a zone
command for one zone finishes with the status of the one check that stands before it. The forms of NVMe 2.0 are log 104.
-/
theorem reservationAndZoneCommandsComplete : Obligations.ReservationAndZoneCommandsComplete := by
  unfold Obligations.ReservationAndZoneCommandsComplete
  exact ⟨completes_reservationRegister, completes_reservationReport, completes_reservationAcquire,
    completes_reservationRelease, completes_zoneOpen, completes_zoneClose, completes_zoneFinish, completes_zoneReset,
    completes_zoneOffline, completes_reportZones⟩

/-- Settles O27. Creation appends a queue, deletion filters by the identifier, and `finish` keeps the lists of queues. A
log page that is read leaves its source as it was, and an Identify of a reserved structure ends before it gives data. The
bound on vectors is log 208 and the layouts are log 21. -/
theorem queueAndLogCommandsComplete : Obligations.QueueAndLogCommandsComplete := by
  unfold Obligations.QueueAndLogCommandsComplete
  exact ⟨completes_createIoSq, completes_createIoCq, completes_deleteIoSq, completes_deleteIoCq, completes_identify,
    completes_identifyInvalid, completes_getLogPage, completes_logGuaranteeExceptions, completes_logEventRecorder,
    completes_logLifetimeCounters, completes_logActuatorHeadHealth, completes_logLeasesPower,
    completes_logAttestationMeasurements⟩

/-- Settles O28. Saving a feature keeps the commands (`saveFeature_cmds`), so that the tag still names its command when it
is finished, and the field that a feature sets is none that `finish` writes. The lease floor is a register: `setFld` on a
rising register file reads back (`fld_setFld`). TMPTH in kelvin is log 89, the Dirty Cap's capacity log 90 and the list of
standard features log 7. -/
theorem featureCommandsComplete : Obligations.FeatureCommandsComplete := by
  unfold Obligations.FeatureCommandsComplete
  exact ⟨completes_setFeatures, completes_getFeatures, completes_setFeaturesPowerManagement,
    completes_setFeaturesTimestamp, completes_getFeaturesTimestamp, completes_setFeaturesVolatileWriteCache,
    completes_setFeaturesInterruptCoalescing, completes_setFeaturesTemperatureThreshold,
    completes_setFeaturesReadRecoveryLevel, completes_setFeaturesRecoveryTimeLimit,
    completes_setFeaturesRecoveryTimeLimitRange, completes_setFeaturesDirtyCap, completes_setFeaturesLeaseFloor,
    completes_setFeaturesBehaviourProfile, completes_setFeaturesBehaviourProfileLocked,
    completes_getFeaturesBehaviourProfile⟩

/-- Settles O29. Each command checks its operands in turn, and the hypotheses of a clause choose the last branch; what is
then written (namespaces, slots, image pieces, the sanitize record) is no part of a completion, so that it stands in the
state after `finish`. Placement is log 94, slot 0 and the pause log 93, the sanitize operation log 96, and the time of the
pause log 23. -/
theorem namespaceAndFirmwareCommandsComplete : Obligations.NamespaceAndFirmwareCommandsComplete := by
  unfold Obligations.NamespaceAndFirmwareCommandsComplete
  exact ⟨completes_asynchronousEventRequest, completes_abort, completes_keepAlive, completes_namespaceCreate,
    completes_namespaceAttachment, completes_firmwareImageDownload, completes_firmwareCommit,
    completes_firmwareActivation, completes_activationPauseTimeout, completes_formatNvm, completes_sanitizeOverwrite,
    completes_sanitizeCryptoErase, completes_sanitizeBandDone⟩

/-- Settles O30. A protocol command is chosen by SECP and SPSP and answers through `finish`; a management command by the
state of NVMe-MI alone, and its response is the pair that the table of its data gives, the free bytes of it being draws.
MI_RESET is the subsystem reset, whose steps keep the sequence (`KeepSeq_resetSteps`). Layouts and values are logs 21, 199
and 207, and the end of a self-test log 92. -/
theorem securityProtocolAndManagementCommandsComplete : Obligations.SecurityProtocolAndManagementCommandsComplete := by
  unfold Obligations.SecurityProtocolAndManagementCommandsComplete
  exact ⟨completes_securitySend, completes_securityReceive, completes_attestationNonce, completes_attestationReportSigned,
    completes_attestationReportReceive, completes_credential, completes_deviceSelfTest, completes_nvmeMiSend,
    completes_nvmeMiReceive, completes_readNvmeMiDataStructure, completes_nvmSubsystemHealthStatusPoll,
    completes_controllerHealthStatusPoll, completes_configurationGet, completes_configurationSet, completes_vpdRead,
    completes_vpdWrite, completes_miReset, completes_basicManagementCommand⟩

/-- Settles O31. A migration is found by zone and index, and `KeepMigs` says of the operations behind a copy that they
leave the list of migrations; voiding one removes it and returns its slots (`migVoid_migAt`). `KeepRvr` does the same for
the reservoir while the journal settles, the replay runs and the halves are released. What a copy captures is logs 126 and
174, and which generation a restart takes logs 128 and 175. -/
theorem durabilityCommandsComplete : Obligations.DurabilityCommandsComplete := by
  unfold Obligations.DurabilityCommandsComplete
  exact ⟨completes_nsdomWrite, completes_nsdomWriteRefused, completes_lgrWinGo, completes_journalBlockDurable,
    completes_checkpoint, completes_migrationStart, completes_migrationCopyVerified, completes_migrationCopyVoid,
    completes_migFree, completes_reservoirCommit, completes_ledgerFreeze, completes_commitRecordDurable,
    completes_reservoirReplay, completes_replayDone, completes_restartRecovery⟩

end Sys2Proof.Machine
end

section
/-! Sequencers, channels, decoders and defect lists (08 to 10). -/

namespace Sys2Proof.Machine

/-- Settles O32. A word that is ready is carried out on the state in which its wait is over (`seqStep_ready`, `waited`),
and its SEQ field then chooses the next address through `complete` (`nextAt_complete`), through the fall to the next word
(`nextAt_fall`) or through a branch (`nextAt_branch`); the stack changes before `complete`, which keeps it. The fall past
0x7FFF and a call past eight levels end in the one microcode fault (`mcFault_asq`). The times are log 23, and TIME 0 of a
task that was cancelled log 200. -/
theorem taskCommandsComplete : Obligations.TaskCommandsComplete := by
  unfold Obligations.TaskCommandsComplete
  exact ⟨completes_taskCommit, completes_taskCommitRefused, completes_taskCancel, completes_taskPromotion,
    completes_microwordIssue, completes_seqNext, completes_seqNextOver, completes_seqJump, completes_seqCall,
    completes_seqCallTooDeep, completes_seqRet, completes_seqRetEnds, completes_seqRetGoesOn, completes_seqBrt,
    completes_seqBrf, completes_seqDispatch, completes_seqLoopEnds, completes_seqLoop, completes_faultRequest,
    completes_faultRequestWithoutTask, completes_waitTimeout, completes_atomicBound⟩

/-- Settles O33. Each of these commands changes one sequencer, channel or decoder and then only counters, lines and
events, whose lemmas (`rwc_modRwc`, `asq_modAsq`, `rwcBump_rwc`, `KeepFail_ldpBump`) say that they leave the fields named.
A mailbox command answers by `mbox` and `answer_sec`. The two decisions of SYNC are the best candidate within the window
and the framing from both. A retired head is log 26, the refusals of microcode log 116, and the times log 23. -/
theorem sequencerAndChannelCommandsComplete : Obligations.SequencerAndChannelCommandsComplete := by
  unfold Obligations.SequencerAndChannelCommandsComplete
  exact ⟨completes_asqAbort, completes_taskDeadline, completes_resultPop, completes_microcodeActivate,
    completes_microcodeActivateRefused, completes_arm, completes_armWithNothingStaged, completes_activationCopy,
    completes_activationAbandon, completes_openctlWrite, completes_openctlWriteRefused, completes_readerCheck,
    completes_clockField, completes_syncADecision, completes_syncBDecision, completes_blindFraming,
    completes_blindFramingFails, completes_defectSpan, completes_loopLimit, completes_pmonSnap, completes_pmonClr,
    completes_codewordDecode, completes_codewordDecodeSqueezed, completes_squeezeRedecode, completes_clusterDecode,
    completes_clusterDecodeGood⟩

end Sys2Proof.Machine
end

section
/-! Servo, spindle, laser and optical personality (11 to 13). -/

namespace Sys2Proof.Machine

/-- Settles O34. A list command runs on the state with the directory entry and list fetched (`dlop_run`, `dlView`), and
its outcome is that of the search in the list; with the track busy it is held and memory stays. An engine's register
reaches one entry of the vector of engines (`sve_of`, `sve_modSve`), and what follows it on the way out keeps that entry.
With RUN 0 a sample decodes its wedge and runs no table (`sample_stopped`). The times are log 23 and the results of the
list operations log 142. -/
theorem defectAndServoCommandsComplete : Obligations.DefectAndServoCommandsComplete := by
  unfold Obligations.DefectAndServoCommandsComplete
  exact ⟨completes_retainedSlotFree, completes_failurePop, completes_defectInsert, completes_defectInsertHeld,
    completes_defectDelete, completes_defectDeleteMissing, completes_defectClearPending, completes_defectInsertRelease,
    completes_defectInsertReleaseRetired, completes_sampleTrigger, completes_syncTimeout, completes_tableSwapGo,
    completes_tableSwapGoRefused, completes_tableSwap, completes_mailCommit, completes_engineRun,
    completes_engineRunRefused, completes_engineStop, completes_seekTimeout, completes_shockConversion,
    completes_shockSensorFault, completes_cdaShort, completes_retractGo, completes_retractEnd, completes_focusLost,
    completes_jumpGo, completes_focusSweepGo, completes_traceStart, completes_traceStop, completes_traceRead⟩

/-- Settles O35. A command of SPN is `writeSpnCmd` (`spnCmd_run`). A fault that ends in FAULTED goes through `spnFault`,
which opens the gates, latches and names the cause, so that such clauses differ in the cause alone. Requests to unload,
lines and events keep the spindle's part (`requestUnload_spn`, `ev_spn`), and an event recorded with room stays recorded
through them. PD13 gated is log 203, brake cause 2 log 146 and the time of an attempt log 23. -/
theorem spindleCommandsComplete : Obligations.SpindleCommandsComplete := by
  unfold Obligations.SpindleCommandsComplete
  exact ⟨completes_start, completes_startTurning, completes_startRefused, completes_brake, completes_brakeEntry,
    completes_coast, completes_clrf, completes_alignDone, completes_spinupAttemptTimeout, completes_pwmCentre,
    completes_bemfCrossing, completes_commutation, completes_floatPeriodEnd, completes_recoveryTimeout,
    completes_motorRailThreshold, completes_chopperFault, completes_chopperConducting, completes_railOvervoltage,
    completes_railOvervoltageGated, completes_spnFltNLow, completes_phaseOpen, completes_phaseOpenInSpinup,
    completes_supplyReversed, completes_spindleStopped, completes_rectifyExit⟩

/-- Settles O36. A preamplifier fault ends in `laserOff`, which takes the level and the gate of the one channel. The end
of a frame starts the next of the queue in the same step, so that the port shows `nextFrame`. An address unit is accepted
or missed as `addrAccepted` says, and the wedges and the clock measured beside it leave the optical part. The times of
monitor, delay and sled are log 23. -/
theorem laserAndOpticalCommandsComplete : Obligations.LaserAndOpticalCommandsComplete := by
  unfold Obligations.LaserAndOpticalCommandsComplete
  exact ⟨completes_preampFault, completes_psiFrameDone, completes_psiFrameNotAcknowledged, completes_psiFwcmdGo,
    completes_laserMonitorRead, completes_lsrClrf, completes_addressUnit, completes_addressUnitMissed,
    completes_optFmtWrite, completes_optFmtWriteRefused, completes_saDelayEnd, completes_sledMoveEnd⟩

end Sys2Proof.Machine
end

section
/-! Memory and buffer cache (14_memory_and_buffer_cache.md). -/

namespace Sys2Proof.Machine

/-- Settles O37. An access past the L1 caches is one of BCC (`ddrTake_read`), a hit, or one of DMC with the error that the
operand brings. A range command only starts its operation (`rangeCmd_started`); RANGE_OP_DONE settles the range line by
line, and since no line fails and no two slots hold one line, what a line became is kept by the lines that follow
(`rangeOp_settles`, `rangeFinish_ends`). The end of the operation changes no line and no byte (`rangeResult_lines`). -/
theorem memoryCommandsComplete : Obligations.MemoryCommandsComplete := by
  unfold Obligations.MemoryCommandsComplete
  exact ⟨completes_ddrRead, completes_ddrReadCorrected, completes_ddrReadFailed, completes_ddrReadHit,
    completes_ddrReadOutside, completes_regattrPolicyWrite, completes_regattrLayoutRefused, completes_splitRead,
    completes_splitWrite, completes_scrubRead, completes_scrubPassEnds, completes_softPpr, completes_hardPpr,
    completes_hardPprRefused, completes_rowLogClear, completes_bccAccessRead, completes_bccAccessWrite,
    completes_ceWindowExpiry, completes_bccEnable, completes_bccEnableRefused, completes_bccDisable,
    completes_bccDisableRefused, completes_drainComplete, completes_bccClean, completes_bccInval, completes_bccCleanInval,
    completes_bccZero, completes_bccLock, completes_bccUnlock, completes_bccInvalAll, completes_rangeOpDone,
    completes_rangeClean, completes_rangeInval, completes_rangeCleanInval, completes_rangeUnlock,
    completes_rangeCleanMemory, completes_rangeZero, completes_rangeLock⟩

end Sys2Proof.Machine
end

section
/-! Mailbox, keys, thermal, trims, records, counters and calendar (15 to 17). -/

namespace Sys2Proof.Machine

/-- Settles O38. A free mailbox takes the request (`mbox`), and `answer_sec` ends it with DONE and RES, writing no other
field of the security part; `programFuses` draws the readback and leaves that part, since the retry succeeds (log 189). A
snuff zeroes slots and lanes (`snuffAct_sec`), and the wake behind it does nothing while no source is noted
(`wakeNoted_idle`; log 168). KEY_ZERO and KEY_CHECKPOINT are log 113, duplicate repair entries log 114 and the halt
operand log 167. -/
theorem mailboxAndKeyCommandsComplete : Obligations.MailboxAndKeyCommandsComplete := by
  unfold Obligations.MailboxAndKeyCommandsComplete
  exact ⟨completes_repairMapEntry, completes_extend, completes_keyGenerate, completes_keyZero, completes_keyCheckpoint,
    completes_nsActive, completes_svnCommit, completes_takeOwnership, completes_addOwnerKey, completes_revokeOwnerKey,
    completes_ownerPolicy, completes_exportKeys, completes_importKeys, completes_behaviourProfileUnlock,
    completes_firmwareActivationMeasurement, completes_slotSelect, completes_snuffLevel1, completes_snuffLevel2,
    completes_alarmFuseBlow, completes_epochFuseBlow, completes_keyRestore, completes_debugChallenge,
    completes_debugResponse⟩

/-- Settles O39. A conversion sets the greatest reading before the limits act on it, and what they do keeps it
(`KeepMax_criticalLimit`). TRIM_COMPUTE goes once over the trims: each keeps the others' state, so the target of the last
visit stands (`retarget_targeted`). A taper step brings the code nearer to the target (`stepTrim_step`). The times are log
23 and the reading at a critical wake log 87. -/
theorem thermalAndTrimCommandsComplete : Obligations.ThermalAndTrimCommandsComplete := by
  unfold Obligations.ThermalAndTrimCommandsComplete
  exact ⟨completes_thmConversion, completes_criticalDarkEntry, completes_criticalWake, completes_clrshut,
    completes_clrexcl, completes_trimCompute, completes_taperStep, completes_trimAge⟩

/-- Settles O40. A stored event takes the next number and its place holds it afterwards (`heldRec_placeRec`); a commit
numbers the staged ones from the base on (`storeRec_num`). A counter is one key of a rising list, and `sput` reads back
there and nowhere else. A load of the calendar ends the adjustment and clears RCSINCE (log 136), and an alarm's time is
that of the second it names (log 23). -/
theorem recordCounterAndCalendarCommandsComplete : Obligations.RecordCounterAndCalendarCommandsComplete := by
  unfold Obligations.RecordCounterAndCalendarCommandsComplete
  exact ⟨completes_eventStore, completes_eventRaiseSw, completes_floodPeriod, completes_evrNextRead,
    completes_evrCursorWrite, completes_evrWindowAdvance, completes_evrBaseWrite, completes_evrStore, completes_evrCommit,
    completes_lifAdd, completes_lifSeal, completes_lifSnap, completes_lifTick, completes_calRead, completes_calSet,
    completes_calAdjust, completes_slewDone, completes_calAlarm⟩

end Sys2Proof.Machine
end

section
/-! The segment (18_vrelilo_hierarchy.md), and sectors, heads and supply (05, 09, 14, 16, 19). -/

namespace Sys2Proof.Machine

/-- Settles O41. Every frame goes through `vlkReceive`; a good one counts as received and reaches its meaning
(`vlkReceive_good`), so that the clauses on frames share their first half. A slot is changed by number and keeps it, so
that the search finds it changed (`slotAt_modSlot`). WAKE of a slot sends where the slot is DORMANT and else is no more
than the access (`vlkCmdWake_sent`; log 65). The key's beacon is log 62, LINK_OPEN and LINK_SHORT log 60, and the times
log 23. -/
theorem vreliloCommandsComplete : Obligations.VreliloCommandsComplete := by
  unfold Obligations.VreliloCommandsComplete
  exact ⟨completes_beaconSend, completes_beaconReceive, completes_beaconMissed, completes_discoverSend,
    completes_discoverReceive, completes_enrollReceive, completes_enrollReceiveKeynew, completes_enrollReceiveConfirm,
    completes_pollSend, completes_pollReceive, completes_pollReceiveLease, completes_replyReceive,
    completes_replyReceiveGood, completes_pollMissed, completes_imageReceive, completes_vlkWake,
    completes_leaseRenewalRequest, completes_leaseExpiry, completes_quietPeriodEnd, completes_orphanBackoffEnd,
    completes_orphanWindowEnd, completes_segmentKeyRotation, completes_vlkCmdWake, completes_vlkCmdWakeAwake,
    completes_vlkCmdAttreq, completes_vlkCmdRemove, completes_imageFanout, completes_linkOpen, completes_linkShort,
    completes_linkRetry, completes_segmentGrantExpiry, completes_fleetAuthorizationExpiry⟩

/-- Settles O42. A sector's start and end, a gap and the end of a defect span set the flags of their channel
(`rwc_modRwc`), and the counts and the wait that follow keep them (`rwcBump_rwc`, `frame_waitComes`). The two forms of
HEAD_RETIRE are told apart by its operand (log 26). The loss of VDD_AUX33 is a record of fresh parts as POR is (log 3),
and the wick's limit with nothing loaded falls to DARK in the same step. -/
theorem sectorHeadAndSupplyCommandsComplete : Obligations.SectorHeadAndSupplyCommandsComplete := by
  unfold Obligations.SectorHeadAndSupplyCommandsComplete
  exact ⟨completes_headRetire, completes_sectorStart, completes_sectorEnd, completes_wedgeGap, completes_defectSpanEnd,
    completes_wickCriticalLimit, completes_pprDone, completes_vddAux33Loss⟩

end Sys2Proof.Machine
end
